-- ==== Sys2Proof/Word.lean ====
section
/-! DEFINITION. The word types of the part: 32-bit register words and bytes. -/

namespace Sys2Proof

/-- A 32-bit word: one register word, one SRAM word of an engine. -/
abbrev Word := BitVec 32

/-- A byte of memory. -/
abbrev Byte := BitVec 8

end Sys2Proof
end

