-- ==== Sys2Proof/Machine/EngineCode.lean ====
section
/-! DEFINITION. The reserved encodings among the 64-bit bundles of a motion engine, rules R57, R63, R73 and R74
(spec/03_motion_engines.md). -/

namespace Sys2Proof.Machine

/-- The MAC slot, bits 61:44: op, n, a and b. -/
def reservedMac (w : Nat) : Bool :=
  let n := bitsOf w 55 54
  let a := bitsOf w 53 49
  let b := bitsOf w 48 44
  match bitsOf w 61 56 with
  | 7 | 8 => b % 4 != 0
  | 9 | 10 | 11 => n % 2 != 0 || a % 2 != 0 || b % 2 != 0
  | op => decide (0x10 ≤ op)

/-- A move slot of 15 bits from bit `lo` upward: op, and operands with pairs in the even registers. -/
def reservedMov (w lo : Nat) : Bool :=
  let d := bitsOf w (lo + 9) (lo + 5)
  let r := bitsOf w (lo + 4) lo
  let form := bitsOf w (lo + 2) lo
  match bitsOf w (lo + 14) (lo + 10) with
  | 0x02 | 0x0D | 0x0E => d % 2 != 0 || r % 2 != 0
  | 0x05 | 0x06 => d % 2 != 0
  | 0x07 | 0x08 => decide (5 ≤ form) || (form == 1 && d % 2 != 0)
  | 0x1F => true
  | _ => false

/-- The long control slot, bits 28:0. -/
def reservedLctl (w : Nat) : Bool :=
  match bitsOf w 28 24 with
  | 0x03 => bitsOf w 11 0 == 0
  | 0x04 | 0x05 => decide (16 ≤ bitsOf w 18 14)
  | op => decide (7 ≤ op)

/-- A bundle with a reserved encoding in its header or in one of its slots; no code of the short control slot is reserved. -/
def reservedBundle (w : Nat) : Bool :=
  match bitsOf w 63 62 with
  | 0 => reservedMac w || reservedMov w 29 || reservedMov w 14
  | 1 => reservedMac w || reservedMov w 29 || reservedLctl w
  | 2 => reservedMac w || decide (3 ≤ bitsOf w 43 37)
  | _ => true

end Sys2Proof.Machine
end

