-- ==== Sys2Proof/Config.lean ====
section
/-! DEFINITION. The free values: what the spec leaves open although the part goes on. Each is a constant with no
body, so nothing can be proved of its value; it is applied to a counter of State or to the operands it depends on.
Each is named in the assumption log. -/

namespace Sys2Proof.Config

/-- A fresh open word: the value of the spec's "not stated", "factory" or "random" at the n-th such event.
notes/assumptions/4.md. -/
opaque freeWord : Nat → BitVec 32

/-- A fresh open integer of unbounded range. notes/assumptions/4.md. -/
opaque freeInt : Nat → Int

/-- A fresh open choice. notes/assumptions/4.md. -/
opaque freeBool : Nat → Bool

/-- A result that does not fit its 64-bit format, as a function of the exact value. notes/assumptions/27.md. -/
opaque overflow64 : Int → BitVec 64

/-- A quotient by a time of 0, as a function of the dividend. notes/assumptions/27.md. -/
opaque quotByZero : Int → BitVec 64

/-- The ASCII text of a boot step's progress, or (true) of a failure code, on the UART, rule R346. notes/assumptions/148.md. -/
opaque bootText : Bool → Nat → List (BitVec 7)

/-- What a planned tick of an axis aims at: a position at standstill, a velocity, or a moving target (its position and
velocity in this tick) within two tolerances, rules R113, R119 and R125. -/
inductive Goal where
  | rest (p : Int)
  | speed (v : Int)
  | moving (p v ptol vtol : Int)
  deriving DecidableEq, Repr

/-- What the planning law of rule R113 sees: the present state, the goal, the limits, and for a synchronised move the number of
ticks in which it is to arrive (rule R115). -/
structure PlanIn where
  p : Int
  v : Int
  a : Int
  goal : Goal
  vlim : Int
  accel : Int
  decel : Int
  jerk : Int
  ticks : Option Nat
  deriving DecidableEq, Repr

/-- The planning law of the firmware image, which the spec does not state (rule R113): the jerks of this tick and of those that
follow it up to the goal. notes/assumptions/8.md. -/
opaque planLaw : PlanIn → List Int

/-- A word of the firmware image's models (the tool row, the coupling rows, T0 and G) for a kind, a group or row, a place in it and
the states of the axes it is formed from, rules R157 and R468. notes/assumptions/11.md. -/
opaque modelWord : Nat → Nat → Nat → List Int → BitVec 32

/-- The time of a unit in its cycles, for a unit (0: the solver, 1: the separation unit) and the numbers of its structure, on which alone
it depends (rules R168 and R191). notes/assumptions/4.md. -/
opaque cycles : Nat → List Nat → BitVec 32

/-- Bulk grants of a REF, bytes +64 to +67 of its payload, for a port and a cycle: which nodes are granted, and how much, no rule says
beside discovery's polls. notes/assumptions/122.md. -/
opaque bulkGrants : Nat → Nat → BitVec 32

/-- HOLD of a frame that a forwarding station starts, for a port, a cycle, the frame's number in the cycle and a lane: the time it waits for
a forwarded frame, which is the lane's traffic. notes/assumptions/122.md. -/
opaque forwardDelay : Nat → Nat → Nat → Nat → BitVec 16

/-- Where a ring port places the payload of an entry of the receive log, for a port and an index. notes/assumptions/4.md. -/
opaque receiveAddr : Nat → Nat → BitVec 32

/-- Whether the lower of the middle two of an even count of samples is its median. notes/assumptions/4.md. -/
opaque medianLow : List Nat → Bool

/-- Whether channel A (memory 0xA0) or Slate (0xA1) reads the word at an address of its own SRAM in the work of a tick; the spec gives
these memories no layout (rule R370). notes/assumptions/131.md. -/
opaque safetyReads : Nat → Nat → Bool

/-- Sections of the readout's stream and its length in bytes (rule R424): the flop chains are the implementation's.
notes/assumptions/132.md. -/
opaque readoutSections : BitVec 32
opaque readoutLength : BitVec 32

/-- SIG of a heartbeat for a seed and 16 tick bits, rule R215: a CRC-16 whose polynomial the spec does not give.
notes/assumptions/16.md. -/
opaque heartbeatSig : Nat → Nat → BitVec 16

end Sys2Proof.Config
end

