-- ==== Sys2Proof/Machine/Tab.lean ====
section
/-! DEFINITION. Sparse tables: a list of (key, value) pairs in one canonical form, keys strictly rising and no entry
equal to what an unlisted key reads as (given by the default `d`). Every memory, every register file and every
indexed unit of the part is held so, and equal contents are equal data. -/

namespace Sys2Proof.Tab

variable {α : Type}

/-- The value at key `k`: the entry, or the default. -/
def get (d : Nat → α) : List (Nat × α) → Nat → α
  | [], k => d k
  | (a, v) :: t, k => if a = k then v else get d t k

/-- The table without key `k`. -/
def erase (k : Nat) : List (Nat × α) → List (Nat × α)
  | [] => []
  | (a, v) :: t => if a = k then erase k t else (a, v) :: erase k t

/-- Insert at the place that keeps keys rising. -/
def insert (k : Nat) (v : α) : List (Nat × α) → List (Nat × α)
  | [] => [(k, v)]
  | (a, w) :: t => if k < a then (k, v) :: (a, w) :: t else (a, w) :: insert k v t

/-- Write `v` at key `k`; writing the default removes the entry. -/
def set [DecidableEq α] (d : Nat → α) (m : List (Nat × α)) (k : Nat) (v : α) : List (Nat × α) :=
  if v = d k then erase k m else insert k v (erase k m)

/-- Every key of the table lies above `b`. -/
def above (b : Nat) : List (Nat × α) → Bool
  | [] => true
  | (a, _) :: t => decide (b < a) && above b t

/-- Keys strictly rise. -/
def sorted : List (Nat × α) → Bool
  | [] => true
  | (a, _) :: t => above a t && sorted t

/-- No entry equals the default of its key. -/
def lean [DecidableEq α] (d : Nat → α) : List (Nat × α) → Bool
  | [] => true
  | (a, v) :: t => decide (v ≠ d a) && lean d t

/-- The canonical form. -/
def wf [DecidableEq α] (d : Nat → α) (m : List (Nat × α)) : Bool := sorted m && lean d m

/-- The table without the keys `lo ≤ k < lo + len`. -/
def dropRange (lo len : Nat) : List (Nat × α) → List (Nat × α)
  | [] => []
  | (a, v) :: t => if lo ≤ a ∧ a < lo + len then dropRange lo len t else (a, v) :: dropRange lo len t

/-- The entries with keys `lo ≤ k < lo + len`. -/
def range (lo len : Nat) : List (Nat × α) → List (Nat × α)
  | [] => []
  | (a, v) :: t => if lo ≤ a ∧ a < lo + len then (a, v) :: range lo len t else range lo len t

/-- Write a list of entries, first to last. -/
def setAll [DecidableEq α] (d : Nat → α) : List (Nat × α) → List (Nat × α) → List (Nat × α)
  | m, [] => m
  | m, (k, v) :: t => setAll d (set d m k v) t

/-- Copy `len` keys from `src` to `dst`: where the default is one value, the destination then reads as the source did. -/
def copy [DecidableEq α] (d : Nat → α) (m : List (Nat × α)) (src dst len : Nat) : List (Nat × α) :=
  setAll d (dropRange dst len m) ((range src len m).map (fun (a, v) => (a - src + dst, v)))

end Sys2Proof.Tab

namespace Sys2Proof

/-- A memory: bytes by address, an unlisted byte reads 0 (the content every SRAM has after rule R414). -/
abbrev Memory := List Host.Cell

namespace Memory

/-- What an unlisted byte reads as. Rule R414 writes every SRAM word with 0 before it is first read, and step 6 of rule
R413 writes the DRAM with 0; for the flash the value is the model's: DESIGN CHOICE, notes/assumptions/2.md. -/
def blank : Nat → BitVec 8 := fun _ => 0

/-- One byte. -/
def get8 (m : Memory) (a : Nat) : BitVec 8 := Tab.get blank m a

/-- Write one byte. -/
def set8 (m : Memory) (a : Nat) (v : BitVec 8) : Memory := Tab.set blank m a v

/-- `n` bytes from `a`, the lowest address the least significant (little-endian: DEDUCED, notes/assumptions/3.md). -/
def getN (m : Memory) (a : Nat) : Nat → Nat
  | 0 => 0
  | n + 1 => (get8 m a).toNat + 256 * getN m (a + 1) n

/-- Write the low `n` bytes of `v` from `a` up. -/
def setN (m : Memory) (a : Nat) : Nat → Nat → Memory
  | 0, _ => m
  | n + 1, v => setN (set8 m a (BitVec.ofNat 8 v)) (a + 1) n (v / 256)

/-- The 32-bit word at `a`. -/
def get32 (m : Memory) (a : Nat) : Word := BitVec.ofNat 32 (getN m a 4)

/-- Write a 32-bit word. -/
def set32 (m : Memory) (a : Nat) (v : Word) : Memory := setN m a 4 v.toNat

/-- The `n` bytes from `a` up, as a list. -/
def bytes (m : Memory) (a : Nat) : Nat → List (BitVec 8)
  | 0 => []
  | n + 1 => get8 m a :: bytes m (a + 1) n

/-- Write a list of bytes from `a` up. -/
def setBytes (m : Memory) (a : Nat) : List (BitVec 8) → Memory
  | [] => m
  | b :: t => setBytes (set8 m a b) (a + 1) t

/-- Set `len` bytes from `a` to 0. -/
def clear (m : Memory) (a len : Nat) : Memory := Tab.dropRange a len m

/-- Copy `len` bytes from `src` to `dst`. -/
def copy (m : Memory) (src dst len : Nat) : Memory := Tab.copy blank m src dst len

/-- The canonical form: addresses strictly rise and no listed byte reads as an unlisted one does. -/
def wf (m : Memory) : Bool := Tab.wf blank m

end Memory

/-- The IEEE 802.3 CRC step of one bit, reflected: polynomial 0x04C1_1DB7. Rule R416. -/
def crcBit (poly c : BitVec 32) : BitVec 32 :=
  if c.getLsbD 0 then (c >>> 1) ^^^ poly else c >>> 1

/-- The CRC step of one byte. -/
def crcByte (poly c : BitVec 32) (b : BitVec 8) : BitVec 32 :=
  let x := c ^^^ b.setWidth 32
  crcBit poly (crcBit poly (crcBit poly (crcBit poly (crcBit poly (crcBit poly (crcBit poly (crcBit poly x)))))))

/-- A reflected CRC over bytes with initial value and final XOR 0xFFFF_FFFF. -/
def crcOver (poly : BitVec 32) (bs : List (BitVec 8)) : BitVec 32 :=
  bs.foldl (crcByte poly) 0xFFFFFFFF ^^^ 0xFFFFFFFF

/-- CRC-32 of rule R416: 0x04C1_1DB7, reflected. -/
def crc32 (bs : List (BitVec 8)) : BitVec 32 := crcOver 0xEDB88320 bs

/-- CRC-32C of rule R239: 0x1EDC_6F41, reflected. -/
def crc32c (bs : List (BitVec 8)) : BitVec 32 := crcOver 0x82F63B78 bs

/-- The four bytes of a word, least significant first. -/
def wordBytes (w : BitVec 32) : List (BitVec 8) :=
  [w.extractLsb' 0 8, w.extractLsb' 8 8, w.extractLsb' 16 8, w.extractLsb' 24 8]

end Sys2Proof
end

