-- ==== Sys2Proof/Types.lean ====
section
/-! DEFINITION. The types of the commands' operands: agents, phases, images, samples and frames. -/

namespace Sys2Proof

/-- Who makes an access (rules R436 and R438): channel A, an engine, an application core or the host. -/
inductive Agent where
  | channelA
  | engine (n : Fin 64)
  | core (n : Fin 4)
  | host
  deriving DecidableEq, Repr

/-- How a 64-bit register is written: by one 64-bit write, or by a 32-bit write of its low or high word (rule R34). -/
inductive WordPart where
  | both
  | low
  | high
  deriving DecidableEq, Repr

/-- The seven phases of a tick, rule R45's table: p = 0 to 6. -/
inductive Phase where
  | g
  | s
  | p
  | v
  | l
  | c
  | e
  deriving DecidableEq, Repr

/-- The phase number p. -/
def Phase.num : Phase → Nat
  | .g => 0
  | .s => 1
  | .p => 2
  | .v => 3
  | .l => 4
  | .c => 5
  | .e => 6

/-- A page record of the configuration image, rule R416: the page number, its configuration words and its PG_CHECK word. -/
structure PageRecord where
  page : Nat
  words : List Word
  check : Word
  deriving DecidableEq, Repr

/-- An image slot of the boot flash, rules R343 and R415: whether its header is valid, its version, whether the slot's CRC-32
holds, and what it holds: code SRAM bytes by address (engine e from 0x10000 × e), the page records, and the records of tables: bytes
of cell memory by offset, and Dealer context words by 16 × task + word. The spec does not give the layout of an image. -/
structure ImageSlot where
  header : Bool
  version : Word
  crcOk : Bool
  code : List (Nat × BitVec 8)
  pages : List PageRecord
  tables : List (Nat × BitVec 8)
  contexts : List (Nat × Word)
  deriving DecidableEq, Repr

/-- What the boot meets outside the core die (rules R413 to R415): whether the flash answers and its SFDP can be
read, whether it declares 8D-8D-8D operation, whether LPDDR4X training passes, slots A and B, and the MiB of LPDDR4X
fitted on each channel, equal on both (rule R455). -/
structure BootInputs where
  flashOk : Bool
  octal : Bool
  dramOk : Bool
  a : ImageSlot
  b : ImageSlot
  dram : Nat
  deriving DecidableEq, Repr

/-- What a read of a stored word meets (rules R369, R370 and R377): no error, a corrected single-bit error at a bit of
the word, an error that cannot be corrected, or a fabric error on the way. -/
inductive Ecc where
  | clean
  | corrected (bit : Fin 72)
  | uncorrectable
  | fabricError
  deriving DecidableEq, Repr

/-- What a failed block of the fabric or of the die-to-die link carried (rules R376 to R378): nothing of the control
path, an access to an address of a memory, the field snapshot, or the checked output word. -/
inductive FabricLoad where
  | other
  | memory (id : Fin 256) (addr : Word)
  | snapshot
  | checkedWord
  deriving DecidableEq, Repr

/-- Region temperatures in 0.1 K, rule R387: the quads, SOLV, APPC and FAB. -/
structure RegionTemps where
  q0 : Nat
  q1 : Nat
  q2 : Nat
  q3 : Nat
  solv : Nat
  appc : Nat
  fab : Nat
  deriving DecidableEq, Repr

/-- A member record of a command mailbox: fields F0 to F5, rule R110's table. -/
structure MemberFields where
  f0 : BitVec 64
  f1 : BitVec 64
  f2 : BitVec 64
  f3 : BitVec 64
  f4 : BitVec 64
  f5 : BitVec 64
  deriving DecidableEq, Repr

/-- What had not ended at a deadline of P or L, rules R48 and R49: groups, and the coupling work of P. -/
structure Overran where
  groups : BitVec 16
  coupling : Bool
  deriving DecidableEq, Repr

/-- The inputs used in homing, rule R131. -/
inductive HomeInput where
  | limn
  | limp
  | home
  deriving DecidableEq, Repr

/-- A coding mismatch in an S phase, rule R192: in FRONT for a group, or at a pair of a capsule with an object or with
another capsule. -/
inductive CodeMismatch where
  | front (g : Fin 16)
  | object (cap : Fin 160) (obj : Fin 48)
  | capsules (a b : Fin 160)
  /-- The test vector of the lane that this tick tests fails, rule R220. -/
  | lane
  deriving DecidableEq, Repr

/-- A safety parameter set as its slot or its image in cell memory spells it, rule R226: the words of the configuration
regions of the SAF, SSM and FLT pages by address, the SAF axis and zone tables and the SSM kinematic and capsule tables by
word index, the check words of the last two, and its CRC-32. The spec does not give the image's layout, so a command carries what channel A reads there. -/
structure SafetyImage where
  regs : List (Nat × Word)
  axis : List (Nat × Word)
  zone : List (Nat × Word)
  kin : List (Nat × Word)
  cap : List (Nat × Word)
  kinCheck : Word
  capCheck : Word
  crc : Word
  deriving DecidableEq, Repr

/-- A lane of a ring port. -/
inductive Lane where
  | a
  | b
  deriving DecidableEq, Repr

/-- The number of a lane. -/
def Lane.num : Lane → Nat
  | .a => 0
  | .b => 1

/-- What a port uses of a received frame that one command brings for one lane: its raw ingress stamp (2^-16 ns), HOLD, CYC and ALM_PEND of
its header, and the blocks whose CRC-32C holds, bit i, rules R239, R240 and R268. -/
structure RxHead where
  stamp : Nat
  hold : BitVec 16
  cyc : BitVec 16
  alm : Bool
  ok : BitVec 16
  deriving DecidableEq, Repr

/-- A frame of one block that comes on both lanes: whether each copy is valid, whether lane B's came first, and HOLD and ALM_PEND of the
header, rules R238 and R240. -/
structure LaneOk where
  a : Bool
  b : Bool
  bFirst : Bool
  hold : BitVec 16
  alm : Bool
  deriving DecidableEq, Repr

/-- What the header of a command frame gives a node, rule R240: CYC and HOLD, and whether lane B's copy came first. -/
structure OutHeader where
  cyc : BitVec 16
  hold : BitVec 16
  bFirst : Bool
  deriving DecidableEq, Repr

/-- The lane of a frame and its raw ingress stamp, 2^-16 ns. -/
structure LaneAt where
  lane : Lane
  stamp : Nat
  deriving DecidableEq, Repr

/-- A measuring marker, rule R279 (raw stamps in 2^-16 ns): the own one comes back, with its egress on lane A, its ingress on lane B and the
neighbour's turnaround in 0.2 ns units; or the upstream neighbour's arrives on lane A and is returned on lane B. -/
inductive Marker where
  | back (sent ret turn : Nat)
  | arrived (ingress egress : Nat)
  deriving DecidableEq, Repr

/-- What the port uses of a reference message, rule R245: SRC and HOLD of its header; the cycle number, the device time of the reference
instant, the time master's device ID, claim priority and rank, REF_OFS (ns), EVEN and CMD, the corrections by node address (units of 4 ns),
the node granted bulk and its budget in blocks on lanes A and B, and the Trump grant. -/
structure RefMsg where
  src : BitVec 8
  hold : BitVec 16
  cycle : BitVec 64
  time : BitVec 64
  devId : BitVec 48
  prio : BitVec 8
  rank : Fin 4
  ofs : BitVec 32
  even : Bool
  cmd : Bool
  corr : List (Nat × Int)
  grantA : BitVec 8
  budgetA : BitVec 8
  grantB : BitVec 8
  budgetB : BitVec 8
  trump : BitVec 8
  deriving DecidableEq, Repr

/-- One lane's copy of an inbound frame: VER and HOLD of its header, and its arrival after the reference instant in 0.2 ns units, rules R240
and R252. -/
structure FrameCopy where
  ver : BitVec 4
  hold : BitVec 16
  arr : Int
  deriving DecidableEq, Repr

/-- What the headers and the arrival of an inbound frame give, rules R240 and R252: the echo, ALM_PEND, and both copies. -/
structure InHeader where
  echo : BitVec 16
  alm : Bool
  a : FrameCopy
  b : FrameCopy
  deriving DecidableEq, Repr

/-- A block of an inbound or outbound frame: node, whether the frame is SAFE_IN or SAFE_OUT, and the block's index. -/
structure RingBlock where
  node : Nat
  safe : Bool
  block : Nat
  deriving DecidableEq, Repr

/-- What ring management sends a node in INIT, rules R249 and R251: its SADDR, SF_WD and backup rank, its launch instants on lanes A
and B after the reference instant, and its delays on both lanes from the time master, from each backup by rank and from the twin peer
station, with the port's longest loop time, from which a backup forms T_RANK (rule R246, notes/assumptions/139.md) (0.2 ns units). The
rules give its layout in a bulk transfer nowhere. -/
structure NodeInit where
  saddr : BitVec 16
  sfWd : BitVec 8
  rank : BitVec 8
  launch : Int × Int
  delay : Nat × Nat
  backups : List (Nat × Nat × Nat)
  peer : Option (Nat × Nat)
  loop : Nat
  deriving DecidableEq, Repr

/-- A received bulk frame: VER and TYPE of its header (a frame of another VER, or of a TYPE that rule R241 does not list, comes to the
port here as well), sequence number, payload, the index in its transfer of each 256-byte piece of the payload (what places a piece that is
sent again no rule says: notes/assumptions/125.md), and the data of INIT where it carries them. -/
structure BulkIn where
  ver : BitVec 4
  typ : BitVec 4
  seq : BitVec 16
  pay : List (BitVec 8)
  pieces : List Nat
  init : Option NodeInit
  deriving DecidableEq, Repr

/-- What a sampling window of the field die reads, rules R310 to R324: input voltages (mV) and failed input tests, outputs whose level
is above 12 V and those between 3 V and 12 V, output currents (mA), and L+1 and L+2 (mV). -/
structure FieldSample where
  di : List Int
  fail : BitVec 32
  above : BitVec 16
  band : BitVec 16
  current : List Nat
  lp1 : Nat
  lp2 : Nat
  deriving DecidableEq, Repr

/-- A JTAG instruction, rule R347. -/
inductive JtagInstr where
  | bypass | idcode | sample | extest | debug | other
  deriving DecidableEq, Repr

/-- A received Ethernet frame: its bytes from the destination address to the last before the FCS, whether the FCS is good, and
the raw capture of its timestamp point in 2^-16 ns, rule R50. -/
structure EthFrame where
  bytes : List (BitVec 8)
  fcsOk : Bool
  raw : Int
  deriving DecidableEq, Repr

/-- A mailbox snapshot in a mirror. -/
structure MirrorCmd where
  group : Fin 16
  seq : BitVec 16
  cmd : BitVec 8
  mask : BitVec 16
  valid : BitVec 6
  fields : List MemberFields
  deriving DecidableEq, Repr

/-- The mirror of a tick, rule R356: its number; whether it is complete; bytes of the gather buffer by offset in the copy (ring
parts and the field snapshot); the master samples in effect; the mailbox snapshots; every register value taken at the cut; and
the code of the device state of the next boundary, if it changes. -/
structure MirrorFrame where
  tick : Nat
  complete : Bool
  gather : List (Nat × BitVec 8)
  masters : List (Fin 4 × Nat × Int × Int)
  cmds : List MirrorCmd
  cut : List (Nat × Word)
  state : Option (BitVec 4)
  bad : Nat
  deriving DecidableEq, Repr

end Sys2Proof
end

