-- ==== Sys2Proof/Machine/Units.lean ====
section
/-! DEFINITION. What the units of the part keep beside their registers, as plain data, and its values at reset. -/

namespace Sys2Proof.Machine

/-- The nine device states of rule R24. -/
inductive DevState where
  | off | reset | boot | selftest | ready | run | degraded | safestop | frozen
  deriving DecidableEq, Repr

/-- What Quartz keeps beside the QTZ page (rules R33 to R49). -/
structure Quartz where
  /-- Whether the first boundary after reset release has fallen, rule R39. -/
  started : Bool
  /-- T_tick code in force, rule R38. -/
  period : Nat
  /-- QTZ_TICK_OFS in force, rule R41. -/
  ofs : Nat
  /-- An accepted change of QTZ_TICK_OFS awaits the boundary, rule R41. -/
  ofsPend : Bool
  /-- The low word of QTZ_TIME_INC held until the high word is written, rule R34; none: the register keeps its own. -/
  incLow : Option Word
  /-- Ticks since the last accepted write of QTZ_TIME_INC, rule R35. -/
  sinceInc : Nat
  /-- Phases of this tick that have started, been completed and been sealed, bit p each. -/
  begun : Nat
  ended : Nat
  sealed : Nat
  /-- The seals of the tick before, which last until the copies of its parity become current again, rule R48. -/
  sealedPrev : Nat
  /-- Phases of this tick whose completion PHASE_COMPLETE has named, bit p. -/
  reported : Nat
  /-- Ring cycle boundaries of this tick that have fallen: bit 0 the one at its boundary, bit 1 the one in its middle, rule R40. -/
  cycled : Nat
  /-- Channel A has sent the heartbeat of this tick, rule R20. -/
  beat : Bool
  /-- Per parity: phases whose copy is invalid after an overrun, bit p; rule R48. -/
  invalid0 : Nat
  invalid1 : Nat
  /-- Groups whose plan (P) or command (L) entries of the copy of each parity are invalid, rule R49. -/
  planBad0 : BitVec 16
  planBad1 : BitVec 16
  cmdBad0 : BitVec 16
  cmdBad1 : BitVec 16
  /-- Groups that overran P, and L, in the last tick: a second one in a row is GROUP_OVERRUN_STOP, rule R49. -/
  ovrP : BitVec 16
  ovrL : BitVec 16
  /-- Groups whose second consecutive overrun of P, of L, awaits GROUP_OVERRUN_STOP. -/
  ovr2P : BitVec 16
  ovr2L : BitVec 16
  /-- A change of state to SELFTEST has made the new period take effect: the next tick is measured against none. -/
  noSupervise : Bool
  /-- The sum of the steps applied to device time since reset, ns, rule R37: durations are measured without it. -/
  stepped : Int
  deriving DecidableEq, Repr

/-- A freeze in progress (rules R423 to R427). -/
structure Freeze where
  before : DevState
  /-- 0x1 FRZ_n, 0x2 SYS_CTRL.FREEZE. -/
  cause : Nat
  /-- The safety functions were armed at entry. -/
  armed : Bool
  /-- Device time at entry. -/
  time : Nat
  /-- A release has come: it takes effect at once, or when the readout ends. -/
  released : Bool
  /-- The release has taken effect: the part resumes at the next tick boundary. -/
  resume : Bool
  /-- What a boot that restarts at the release meets, rule R427. -/
  boot : Option BootInputs
  deriving DecidableEq, Repr

/-- What the system controller keeps beside the SYS page. -/
structure Sys where
  dev : DevState
  /-- State triggers of this tick, awaiting the boundary, rule R30. -/
  triggers : List DevState
  /-- RUN_REQ set in BOOT or SELFTEST, held for the first tick of READY. -/
  heldRun : Bool
  /-- STOP_REQ accepted in RUN: the groups stop, READY follows at their standstill. -/
  stopping : Bool
  frozen : Option Freeze
  /-- Half of the watchdog's period has passed without a kick, rule R412. -/
  wdtHalf : Bool
  /-- Ticks since the present state was entered. -/
  ticksInState : Nat
  /-- The usable bytes of the LPDDR4X that the boot found: seven eighths of both channels, rule R375; 0 before the first boot. -/
  dramBytes : Nat
  /-- The 64 header bytes of the present or last readout, rule R424. -/
  readout : List (BitVec 8)
  deriving DecidableEq, Repr

/-- A change of a quad's operating point in progress (rule R421). -/
structure PointChange where
  quad : Nat
  oldPoint : Nat
  newPoint : Nat
  /-- The change has started at its boundary: the VID output has moved. -/
  begun : Bool
  /-- The rail has settled; a rising change then takes its clock at the next boundary. -/
  settled : Bool
  deriving DecidableEq, Repr

/-- What the power controller in AON keeps beside the PWR page. -/
structure Pwr where
  change : Option PointChange
  /-- An accepted PWR_APPC_REQ, taken at the next boundary. -/
  appcPend : Option Nat
  /-- Domains asked to power down, and up, at a boundary: PWR_DOM_REQ bits 6:1 and 22:20. -/
  downPend : Nat
  upPend : Nat
  /-- Quads asked to power down, from the boundary after the request, bit i: no task is granted to them, and once off they stay
  off until the next reset, rules R406 and R407. -/
  quadsOff : Nat
  /-- The VID_Q0 to VID_Q3 outputs, two bits each, rule R410. -/
  vid : Nat
  /-- A change abandoned by a freeze, to be reported with REF_CAUSE 0x7 after release, rule R422. -/
  abandoned : Bool
  deriving DecidableEq, Repr

/-- One raising on its way to the event unit, rules R391 and R392. -/
structure Raising where
  page : Nat
  bit : Nat
  alarm : Bool
  detail : Word
  time : Nat
  deriving DecidableEq, Repr

/-- An open event slot of a page, rule R398. -/
structure EvSlot where
  page : Nat
  alarm : Bool
  mask : Nat
  count : Nat
  detail : Word
  first : Nat
  last : Nat
  deriving DecidableEq, Repr

/-- The held occurrences of one alarm, and the detail of the last, rule R396. -/
structure Held where
  page : Nat
  bit : Nat
  count : Nat
  detail : Word
  deriving DecidableEq, Repr

/-- The hold times of a page's held occurrences, rule R396. -/
structure HoldTime where
  page : Nat
  first : Nat
  last : Nat
  deriving DecidableEq, Repr

/-- The FIFO of a trace source, and the drops since its last gap marker, rule R401. -/
structure TraceFifo where
  src : Nat
  recs : List (List Word)
  dropped : Nat
  firstDrop : Nat
  lastDrop : Nat
  deriving DecidableEq, Repr

/-- What the event unit keeps beside the EVT page and its stores in cell memory. -/
structure Evt where
  raisings : List Raising
  slots : List EvSlot
  held : List Held
  holdTimes : List HoldTime
  /-- Node alarms that met a full store: 64 × port + node, and the record, in the order of release, rule R396. -/
  nodeHeld : List (Nat × List (BitVec 8))
  /-- SEQ of the last alarm entry, and the sequence of the last event record. -/
  almSeq : Nat
  recSeq : Nat
  fifos : List TraceFifo
  /-- An accepted change of EVR_LOG2 or EVT_EVR_BASE awaits its boundary, rule R399. -/
  ringPend : Bool
  /-- Store changes to send to the twin peer within the tick, by entry index, rule R397. -/
  mirror : List Nat
  deriving DecidableEq, Repr

/-- Quartz after reset. -/
def Quartz.reset : Quartz :=
  { started := false, period := 1, ofs := 0, ofsPend := false, incLow := none, sinceInc := 0,
    begun := 0, ended := 0, sealed := 0, sealedPrev := 0, reported := 0, cycled := 0, beat := false, invalid0 := 0, invalid1 := 0, planBad0 := 0, planBad1 := 0,
    cmdBad0 := 0, cmdBad1 := 0, ovrP := 0, ovrL := 0, ovr2P := 0, ovr2L := 0, noSupervise := false, stepped := 0 }

/-- The system controller after a power-on reset. -/
def Sys.reset : Sys :=
  { dev := .reset, triggers := [], heldRun := false, stopping := false, frozen := none, wdtHalf := false, ticksInState := 0,
    dramBytes := 0, readout := [] }

/-- The power controller after a power-on reset: every VID output reads 0b10 (rule R410). -/
def Pwr.reset : Pwr :=
  { change := none, appcPend := none, downPend := 0, upPend := 0, quadsOff := 0, vid := 0xAA, abandoned := false }

/-- The event unit after reset. -/
def Evt.reset : Evt :=
  { raisings := [], slots := [], held := [], holdTimes := [], nodeHeld := [], almSeq := 0, recSeq := 0, fifos := [],
    ringPend := false, mirror := [] }


/-- One corrected location of a memory's list of the last 16, rule R373. -/
structure CeLoc where
  mem : Nat
  addr : Nat
  bit : Nat
  /-- Its correction has been written back. -/
  written : Bool
  deriving DecidableEq, Repr

/-- What the memories and crossings keep beside the MEM and CDC pages, rules R368 to R387. -/
structure Integ where
  /-- Words known to be uncorrectable, by memory ID and address of the 64-bit word, rule R370. -/
  ue : List (Nat × Nat)
  /-- Corrected locations, newest first, rule R373. -/
  ce : List CeLoc
  /-- Write-backs pending, rule R369. -/
  wb : List (Nat × Nat)
  /-- The hard-fault log, oldest first: memory, address, bit. -/
  hard : List (Nat × Nat × Nat)
  /-- Device times of the corrections in SAFEA SRAM of the last second, for the ECC class of rule R220. -/
  safea : List Nat
  /-- The hotter region of the pair of the largest difference while DT_HIGH is set, rule R387: its region code. -/
  hotter : Nat
  deriving DecidableEq, Repr

/-- No error yet. -/
def Integ.reset : Integ := { ue := [], ce := [], wb := [], hard := [], safea := [], hotter := 0 }

/-- What one slot of a bundle does to its engine, from the values before the bundle, with the operand that a control
operation leaves to the Dealer. Machine/Engines.lean applies them together when the bundle ends. -/
inductive EngEff where
  /-- A data register, visible from the next bundle. -/
  | d (r : Nat) (v : Word)
  /-- A data register with one delay slot (MVA, EXPA), rule R68. -/
  | dLate (r : Nat) (v : Word)
  /-- An address-class register by its target code, rule R73. -/
  | ax (c : Nat) (v : Word)
  /-- A special register by its code, rule R73. -/
  | sp (c : Nat) (v : Word)
  /-- A MAC-slot result. -/
  | acc (n : Nat) (v : BitVec 80)
  /-- An accumulator written by MAV. -/
  | accMov (n : Nat) (v : BitVec 80)
  /-- SR.Z and SR.N. -/
  | cmp (z n : Bool)
  /-- A saturation; an accumulator limit. -/
  | sat
  | aov
  /-- SR.PE; the clearing of SR.SAT and SR.AOV. -/
  | pe (v : Bool)
  | clrs
  /-- A load into Dr (or a pair) and a store, at a data address. -/
  | load (r : Nat) (addr : Nat) (wide : Bool) (ecc : Ecc)
  | store (addr : Nat) (wide : Bool) (v : BitVec 64) (ecc : Ecc)
  /-- A branch with its target where it is taken, rule R70. -/
  | branch (target : Option Nat)
  /-- A loop set-up: level, count, body in bundles, rule R71. -/
  | loop (level count body : Nat)
  | take
  | done
  | yield
  | rte
  | setf (task flag : Nat)
  /-- A reserved encoding, rule R73. -/
  | reserved
  deriving DecidableEq, Repr

/-- One motion engine (rules R56 to R82). Its state and counters stand in its ENG page. -/
structure Eng where
  /-- D0 to D31. -/
  d : List (Nat × Word)
  /-- X, M, B and K by target code. -/
  ax : List (Nat × Word)
  /-- SH0 to SH3, LC0, LS0, LE0, LC1, LS1, LE1, SR, LK, EPC, ESR, ESX and TSA by special code. -/
  sp : List (Nat × Word)
  /-- ACC0 to ACC3. -/
  acc : List (Nat × BitVec 80)
  /-- The accumulators as an MVA reads them: without the last bundle's MAC-slot results, rule R68. -/
  accMva : List (Nat × BitVec 80)
  pc : Nat
  /-- Data registers written by the last bundle and visible from the one after the next, rule R68. -/
  late : List (Nat × Word)
  /-- The next bundle is a delay slot, with the target of a branch that is taken, rule R70. -/
  delay : Option (Option Nat)
  /-- The slots of the present bundle so far: slot number and effect. -/
  staged : List (Nat × EngEff)
  /-- The task it holds, not yet reported as complete, yielded or faulted. -/
  task : Option Nat
  /-- A preemption request that meets rule R78 awaits its bundle boundary. -/
  preReq : Bool
  /-- Stalled on a SETF that the event queue has no room for, rule R93. -/
  setfWait : Bool
  /-- The control operations that wait with it, in slot order. -/
  heldOps : List EngEff
  deriving DecidableEq, Repr

/-- An engine after reset: every register 0 (DESIGN CHOICE, notes/assumptions/1.md). -/
def Eng.reset : Eng :=
  { d := [], ax := [], sp := [], acc := [], accMva := [], pc := 0, late := [], delay := none, staged := [], task := none,
    preReq := false, setfWait := false, heldOps := [] }

/-- What the Dealer keeps of a task beside its context (rules R90 to R102). -/
structure DlrTask where
  /-- The order in which it became READY or PREEMPTED. -/
  stamp : Nat
  /-- It has waited STEAL_DLY cycles in its home queue, rule R94. -/
  waited : Bool
  /-- FLAGS at its grant, rule R90. -/
  grantFlags : Word
  /-- The tick in which it was granted, rule R103. -/
  grantTick : Nat
  /-- It has completed in the present round of its flow, rule R99. -/
  round : Bool
  deriving DecidableEq, Repr

/-- A sender stalled on the event queue, rule R93: its engine, if one, and the flag. -/
structure Stalled where
  engine : Option Nat
  task : Nat
  flag : Nat
  deriving DecidableEq, Repr

/-- A granted task whose stage-in copy runs, rule R96. -/
structure StageIn where
  engine : Nat
  task : Nat
  resumed : Bool
  deriving DecidableEq, Repr

/-- The Dealer (rules R87 to R106). -/
structure Dlr where
  /-- Word w of task t's context, by 16 t + w. -/
  ctx : List (Nat × Word)
  tasks : List (Nat × DlrTask)
  /-- Counts entries to READY and PREEMPTED: the queue order of rule R95. -/
  clock : Nat
  /-- The event queue of 64: task and flag, oldest first. -/
  queue : List (Nat × Nat)
  stalled : List Stalled
  /-- Copies in grant order. -/
  stage : List StageIn
  /-- Cores whose take read stalls, and the threads taken and not yet reported. -/
  coreWait : List Nat
  coreHeld : List (Nat × Nat)
  /-- Phase flows whose round is open: from their phase's start to its deadline. -/
  openFlows : List Nat
  /-- Flows whose round belongs to an odd tick, rule R98. -/
  odd : List Nat
  deriving DecidableEq, Repr

/-- The runtime part of a task never armed. -/
def DlrTask.reset : DlrTask := { stamp := 0, waited := false, grantFlags := 0, grantTick := 0, round := false }

/-- The Dealer after reset, with the default context table of rule R88. -/
def Dlr.reset : Dlr :=
  { ctx := [], tasks := [], clock := 0, queue := [], stalled := [], stage := [], coreWait := [], coreHeld := [],
    openFlows := [], odd := [] }

/-- A command mailbox's content as the cut froze it, rule R110. -/
structure Snap where
  seq : Nat
  cmd : Nat
  mask : Nat
  valid : Nat
  /-- F0 to F5 of each member, in member order. -/
  fields : List MemberFields
  deriving DecidableEq, Repr

/-- What a group keeps beside its PRF page (rules R16, R110, R122 and R123). -/
structure GroupRt where
  /-- Its mailbox has been committed since the last cut. -/
  committed : Bool
  /-- The snapshot of this tick's cut. -/
  snap : Option Snap
  /-- The wrapped master value of the last tick, where there was one: for the unwrapping of rule R122. -/
  lastTheta : Option Int
  /-- The virtual master of rule R123: position and velocity. -/
  virtPos : Int
  virtVel : Int
  deriving DecidableEq, Repr

/-- A sample of a plant master channel, rules R122 and R336: t_m in ns, position (Q48.16), velocity (Q32.32), and the compensated
ingress stamp at which it was received, ns. -/
structure MasterSample where
  time : Int
  theta : Int
  omega : Int
  rcv : Nat
  deriving DecidableEq, Repr

/-- The settings of an armed compare, taken at the cut of its arming, rules R134 to R136. -/
structure CmpSet where
  pos : Int
  ctrl : Nat
  step : Int
  /-- The side on which the position lay at arming: −1 below, 0 at, 1 above. -/
  side : Int
  /-- Armed at the cut of this tick: rule R135 is still to be judged. -/
  fresh : Bool
  deriving DecidableEq, Repr

/-- A debounce window of a homing input, rule R131: the time of its first edge, its edges, the level before it, the position of the
first edge once the measured positions around it are known, and the level at its end once it has ended. -/
structure HomeWindow where
  inp : HomeInput
  time : Nat
  edges : Nat
  before : Bool
  pos : Option Int
  level : Option Bool
  deriving DecidableEq, Repr

/-- A profile generator beside its PRF page (rules R109 to R136). Its state, set-point, velocity, acceleration and target
stand in the page. -/
structure Axis where
  /-- The limits V, A, D and J given by commands; none: the axis's maximum register, rule R111. -/
  limV : Option Int
  limA : Option Int
  limD : Option Int
  limJ : Option Int
  jogV : Int
  /-- A target is kept, rules R119 to R121. -/
  kept : Bool
  /-- The present stop ends in IDLE (ABORT, SYNC_OUT). -/
  toIdle : Bool
  /-- The present stop uses D and J in place of STOP_DEC and STOP_JERK (SYNC_OUT, homing). -/
  softStop : Bool
  /-- The D that a running ramp keeps, rules R116 and R118. -/
  rampD : Option Int
  /-- The tick of the synchronised MOVE that the axis belongs to, and the ticks to the common arrival, rule R115. -/
  joint : Option Nat
  arrive : Option Nat
  /-- What the plan of the last tick expects the law to see in this one, and the ticks that it has left, rule R113. -/
  foresees : Option (Config.PlanIn × Nat)
  /-- Where the axis comes to standstill before it moves back to its target, rules R116 and R117. -/
  turn : Option Int
  /-- The full step on which the present stop ends, rule R128. -/
  stopAt : Option Int
  /-- The generator planned in the last tick, so that its entry is fed back, rule R173; and the shift of the frame at the boundary that
  opened this tick. -/
  planned : Bool
  moved : Int
  /-- Gear or cam: slave offset, NUM, DEN, the table in use and the one that waits with its offset, rules R124 to R127. -/
  slaveOfs : Int
  gearNum : Int
  gearDen : Nat
  camTab : Nat
  camNext : Option (Nat × Int)
  /-- The period q of the master at the last tick, for the switch of rule R127, and the slave velocity then. -/
  camPeriod : Option Int
  slaveVel : Int
  /-- Homing: position at the start of the search step, whether it is in its stop, reversals, ticks at the hard stop, debounce windows,
  the last sampled levels of LIMN, LIMP and HOME (bits 0 to 2), and whether the tick began in a search for a hard stop, rules R130 to R132
  and R148. -/
  homeStart : Int
  homeStop : Bool
  homeRev : Nat
  homeHard : Nat
  homeWin : List HomeWindow
  homeSeen : Nat
  hardSeek : Bool
  /-- A shift of the coordinate frame that the next boundary applies, rule R130, with whether it sets HOMED. -/
  shift : Option (Int × Bool)
  /-- Measured position and velocity of the last tick as HELD and FAULT use them, and whether they were valid. -/
  xPrev : Int
  vPrev : Int
  seen : Bool
  /-- Armed compares by number. -/
  cmp : List (Nat × CmpSet)
  /-- Compares that fired since the last P phase with their settings: their actions wait for it. -/
  acts : List (Nat × Nat)
  /-- Compares to be taken up at the next cut, bit c each: armed by software, or written a new position while armed; and those to be
  disarmed there. -/
  rearm : Nat
  unarm : Nat
  deriving DecidableEq, Repr

/-- The latch of a coarse step and direction input at the boundary, rule R129: count, time of the last edge, interval of
the last two and direction. -/
structure FollowLatch where
  n : Int
  time : Nat
  gap : Nat
  dir : Int
  deriving DecidableEq, Repr

/-- What the profile generators keep as a whole. -/
structure Prof where
  axes : List (Nat × Axis)
  groups : List (Nat × GroupRt)
  /-- The sample in use of each master channel M0 to M3, and the samples received that no boundary has judged, oldest first, rule R122. -/
  master : List (Nat × MasterSample)
  newer : List (Nat × MasterSample)
  /-- DQ outputs that compares switch on for one tick, and toggle, at the next boundary, rule R136. -/
  dqPulse : BitVec 16
  dqToggle : BitVec 16
  /-- Latches of FOLLOW channels at the present boundary. -/
  follow : List (Nat × FollowLatch)
  deriving DecidableEq, Repr

/-- An axis after reset. -/
def Axis.reset : Axis :=
  { limV := none, limA := none, limD := none, limJ := none, jogV := 0, kept := false, toIdle := false, softStop := false, rampD := none,
    joint := none, arrive := none, foresees := none, turn := none, stopAt := none, planned := false, moved := 0, slaveOfs := 0, gearNum := 0, gearDen := 1, camTab := 0, camNext := none, camPeriod := none, slaveVel := 0,
    homeStart := 0, homeStop := false, homeRev := 0, homeHard := 0, homeWin := [], homeSeen := 0, hardSeek := false, shift := none,
    xPrev := 0, vPrev := 0, seen := false, cmp := [], acts := [], rearm := 0, unarm := 0 }

/-- A group after reset. -/
def GroupRt.reset : GroupRt := { committed := false, snap := none, lastTheta := none, virtPos := 0, virtVel := 0 }

/-- The profile generators after reset. -/
def Prof.reset : Prof :=
  { axes := [], groups := [], master := [], newer := [], dqPulse := 0, dqToggle := 0, follow := [] }
/-- One stage of an axis in a copy of the loop state: i, d, e32_prev and, for DMEAS, y32_prev, rules R140 and R144. -/
structure StageState where
  i : Int
  d : Int
  e : Int
  y : Int
  deriving DecidableEq, Repr

/-- A copy of an axis's loop state, rule R144: five stages, x_m and v_m, and the following-error run count. It stands in cell memory. -/
structure LoopCopy where
  stages : List StageState
  x : Int
  v : Int
  fe : Nat
  deriving DecidableEq, Repr

/-- What the loop engine keeps of an axis beside its page. -/
structure LoopRt where
  /-- Loops that opened, and closed, at the last cut and have not run since, bit i each, rule R149. -/
  opened : Nat
  closed : Nat
  /-- LOOP_PV_REF as taken at the cut. -/
  pvRef : Int
  /-- The axis has had a valid measured state since entry to SELFTEST, rule R145. -/
  seen : Bool
  deriving DecidableEq, Repr

def LoopRt.reset : LoopRt := { opened := 0, closed := 0, pvRef := 0, seen := false }

/-- The loop engine's axes. -/
structure Loop where
  axes : List (Nat × LoopRt)
  deriving DecidableEq, Repr

def Loop.reset : Loop := { axes := [] }

/-- What the solver keeps in its SRAM (rules R161 to R173). -/
structure Sol where
  /-- The final z by global index and y by row of a VALID solve under the present configuration, for a warm start. -/
  keep : Option (List Int × List Int)
  /-- The next solve starts cold, rule R162. -/
  cold : Bool
  /-- No entry of the last tick can be used for the fallback, rule R171. -/
  noPrev : Bool
  /-- The finished solve of this tick that WRITE will write: REJ_CAUSE (0: VALID), z, y, pivot flags, and the iterations. -/
  done : Option (Nat × List Int × List Int × Nat × Nat)
  /-- An uncorrectable error of the present tick in solver SRAM, rule R165. -/
  ecc : Bool
  deriving DecidableEq, Repr

def Sol.reset : Sol := { keep := none, cold := true, noPrev := true, done := none, ecc := false }
/-- A point or vector of the cell frame, µm, rule R175. -/
structure V3 where
  x : Int
  y : Int
  z : Int
  deriving DecidableEq, Repr

/-- An object record, rule R179. -/
structure ObjRec where
  p0 : V3
  p1 : V3
  r : Nat
  add : Nat
  vo : Nat
  flags : Nat
  ts : Nat
  deriving DecidableEq, Repr

/-- A source of object records, rule R180: its last usable records, the run of missed ticks, whether it was ever usable since
entry to SELFTEST, whether the run has reached MISS_N, and the device time of its newest usable record. -/
structure SsmSrc where
  recs : List ObjRec
  miss : Nat
  ever : Bool
  hit : Bool
  newest : Option Nat
  deriving DecidableEq, Repr

/-- A pair as the compare record samples it, rule R219: the capsule, the object or capsule on its other side, the distance and whether
it is violated. -/
structure PairSample where
  cap : Nat
  other : Nat
  d : Int
  violated : Bool
  deriving DecidableEq, Repr

/-- The separation unit beside its page, rules R176 to R193. -/
structure Ssm where
  /-- Kinematic table: word w of entry e at 16 e + w. Capsule table: word w of capsule i at 12 i + w. -/
  kin : List (Nat × Word)
  cap : List (Nat × Word)
  /-- End points of each capsule in the last tick, rule R177. -/
  ends : List (Nat × V3 × V3)
  /-- Groups whose speeds were measured in the last tick, bit g, rule R177. -/
  known : Nat
  /-- Last valid position of each axis, rule R178, and ticks with missing data of each group. -/
  pos : List (Nat × Int)
  jm : List (Nat × Nat)
  src : List (Nat × SsmSrc)
  /-- Demands of rule R186, the clearing run of each, and all demands as last decided, bit g. -/
  viol : Nat
  run : List (Nat × Nat)
  dem : Nat
  /-- The causes of rules R178 and R180 in the last S phase, nine bits for each group, rule R194. -/
  missDem : Nat
  /-- The pairs that the compare record of this tick takes, rule R219, and the lanes whose last test vector failed, bit n, rule R220. -/
  sample : List PairSample
  laneBad : Nat
  /-- Exported records of the present tick, by capsule, rule R193, and the records sent in the last E phase. -/
  exports : List ObjRec
  sent : List ObjRec
  deriving DecidableEq, Repr

def Ssm.reset : Ssm :=
  { kin := [], cap := [], ends := [], known := 0, pos := [], jm := [], src := [], viol := 0, run := [], dem := 0, missDem := 0,
    sample := [], laneBad := 0, exports := [], sent := [] }
/-- A safe input function, rules R203, R204 and R210: its demand, the run of demand snapshots of each channel, the run of
snapshots with both channels at non-demand, the device time since which the channels disagree, the latched discrepancy
and whether both channels have shown demand since, and the device time at which it entered demand. -/
structure SafIn where
  demand : Bool
  runA : Nat
  runB : Nat
  off : Nat
  disagree : Option Nat
  disc : Bool
  both : Bool
  since : Nat
  deriving DecidableEq, Repr

/-- A group in the safety logic beside SAF_GRP_STAT_g, rules R201, R202 and R211. -/
structure SafGroup where
  /-- Tick and device time of the entry to SS1 or SS2, and v0 of each member. -/
  tick : Nat
  time : Nat
  v0 : List (Nat × Int)
  /-- Standstill ticks in a row. -/
  still : Nat
  /-- x_hold of each member, latched at entry to SOS. -/
  hold : List (Nat × Int)
  /-- Every cause since the group last left OPER was SSM with AUTO_RESUME, or ENABLE. -/
  auto : Bool
  /-- START is set. -/
  start : Bool
  deriving DecidableEq, Repr

/-- Flint beside the FLT page, rules R214 to R217. -/
structure Flint where
  seed : Nat
  /-- ARM has been written: the first valid heartbeat arms. -/
  armPend : Bool
  /-- A correctly signed heartbeat has been received since arming; valid ones in a row while TRIPPED. -/
  seen : Bool
  run : Nat
  /-- Tick bits of the last heartbeat received. -/
  bits : Option Nat
  /-- The heartbeat of this tick that channel A has sent. -/
  sent : Option Word
  /-- The outcome of the test trip that SELFTEST or step 2 of the proof test asks for, rules R217 and R225. -/
  tested : Option Bool
  deriving DecidableEq, Repr

/-- The compare record that channel A writes for Slate, rule R219: the tick; level and failed tests of the field die's inputs; the safe
bits of the accepted SAFE_IN frames by node; STATE and CAUSE of every group; the commanded safe outputs; measured position and velocity
of the members of group k mod 16, with whether they are valid; and eight pairs of that group. -/
structure CompareRecord where
  tick : Nat
  level : Nat
  test : Nat
  nodes : List (Nat × Nat)
  groups : List (Nat × Nat)
  outs : Nat
  members : List (Nat × Int × Int × Bool)
  pairs : List PairSample
  deriving DecidableEq, Repr

/-- A proof test beside SAF_PT_STAT, rule R225: when its step began; outputs that have read back on while pulsed, and since when the pulse
lasts; functions that have passed to demand, and back; whether Slate has disagreed in the step; and whether every step is done. -/
structure ProofTest where
  entered : Nat
  lit : Nat
  pulsed : Option Nat
  dem : Nat
  back : Nat
  disagreed : Bool
  done : Bool
  deriving DecidableEq, Repr

/-- Slate, rules R218 and R219. -/
structure Slate where
  /-- The time of its power-up, and of its first compared tick, and the ticks compared since. -/
  since : Nat
  comparing : Bool
  first : Nat
  count : Nat
  /-- It has compared clean for SLATE_CLEAN ms. -/
  clean : Bool
  /-- The compare record of the present tick, and those that await their result. -/
  record : Option CompareRecord
  waiting : List CompareRecord
  /-- A disagreement in SELFTEST; a fault latched in READY, rule R222. -/
  failed : Bool
  latched : Bool
  deriving DecidableEq, Repr

/-- One slot of a safety parameter set, rule R226. -/
structure SafSlot where
  img : SafetyImage
  code : Nat
  version : Nat
  time : Nat
  /-- Its header has been written and both of its check words hold. -/
  ok : Bool
  deriving DecidableEq, Repr

/-- A store in progress, rule R229: the set, the new code and the accepted SEAL_SW byte at its start. -/
structure SafStoring where
  num : Nat
  code : Nat
  sw : Nat
  deriving DecidableEq, Repr

/-- The safety logic beside the SAF and FLT pages. -/
structure Saf where
  ins : List (Nat × SafIn)
  groups : List (Nat × SafGroup)
  /-- Axis table: word w of axis a at 16 a + w. Zone table: word w of zone z at 8 z + w. -/
  axis : List (Nat × Word)
  zone : List (Nat × Word)
  /-- Bits set in SAF_REL and SAF_ACK since the last cut, and as taken at the cut. -/
  relPend : Nat
  ackPend : Nat
  rel : Nat
  ack : Nat
  /-- Groups with cause OVR in this tick. -/
  ovr : Nat
  /-- CNT of the last SAFE_OUT, and the accepted SAFE_IN frames of this tick: node 64 p + n and safe bits, rules R262 and R263. -/
  cnt : Nat
  safeIn : List (Nat × Nat)
  /-- The nodes whose SAFE_IN of this tick has come valid on both lanes, for step 4 of the proof test. -/
  bothLanes : List Nat
  flint : Flint
  slate : Slate
  pt : ProofTest
  /-- The time of the last detection of each degrade class, and of the entry to DEGRADED. -/
  seenAt : List (Nat × Nat)
  degTime : Nat
  /-- The periodic self-tests whose last run failed: bit 0 the code CRC, bit 1 the C-phase vectors, rule R220. -/
  stFail : Nat
  /-- The time of the last proof test passed. -/
  ptBase : Nat
  /-- The 16 parameter sets: slot k of set n at 2 n + k. -/
  slots : List (Nat × SafSlot)
  /-- SEAL_SW as last sampled, from the sample at SELFTEST on. -/
  sealAt : Option Nat
  storing : Option SafStoring
  /-- An image that the next tick boundary applies, rule R230, with its set. -/
  loading : Option (Nat × SafetyImage)
  /-- The device record of the seal: a method change for the next SELFTEST, the password (the part keeps a salted hash). -/
  methodNext : Option Nat
  pwd : Option (BitVec 128)
  pwdFails : Nat
  lockout : Bool
  t40Open : Bool
  log : List (List Word)
  logSeq : Nat
  deriving DecidableEq, Repr

def SafIn.reset : SafIn :=
  { demand := false, runA := 0, runB := 0, off := 0, disagree := none, disc := false, both := false, since := 0 }

def SafGroup.reset : SafGroup := { tick := 0, time := 0, v0 := [], still := 0, hold := [], auto := false, start := true }

def Flint.reset : Flint := { seed := 0, armPend := false, seen := false, run := 0, bits := none, sent := none, tested := none }

def ProofTest.reset : ProofTest := { entered := 0, lit := 0, pulsed := none, dem := 0, back := 0, disagreed := false, done := false }

def Slate.reset : Slate := { since := 0, comparing := false, first := 0, count := 0, clean := false, record := none, waiting := [], failed := false, latched := false }

def Saf.reset : Saf :=
  { ins := [], groups := [], axis := [], zone := [], relPend := 0, ackPend := 0, rel := 0, ack := 0, ovr := 0, cnt := 0,
    safeIn := [], bothLanes := [], flint := Flint.reset, slate := Slate.reset, pt := ProofTest.reset, seenAt := [], degTime := 0,
    stFail := 0, ptBase := 0, slots := [], sealAt := none,
    storing := none, loading := none, methodNext := none, pwd := none, pwdFails := 0, lockout := false, t40Open := false,
    log := [], logSeq := 0 }
/-- A frame that a port sends, rules R239 and R240: TYPE, FLAGS (LANE apart), SRC, DST, CYC, SEQ and HOLD (by lane) of its header, the
lanes it goes out on (bit 0 A, bit 1 B), its payload, and its spoiled blocks. -/
structure RingFrame where
  typ : Nat
  flags : Nat
  src : Nat
  dst : Nat
  cyc : Nat
  seq : Nat
  hold : Nat × Nat
  lanes : Nat
  pay : List (BitVec 8)
  /-- Blocks sent with a CRC forced invalid, bit i, rule R370. -/
  bad : Nat
  deriving DecidableEq, Repr

/-- A block of a bulk transfer that has been sent and not acknowledged, rule R257: its index in the transfer, the frame it last went out
in, the blocks of that frame that carry it (bit i), and how often it has been sent. -/
structure BulkBlock where
  idx : Nat
  seq : Nat
  mask : Nat
  tries : Nat
  deriving DecidableEq, Repr

/-- A ring port beside its RNG page (rules R237 to R290). -/
structure RingPort where
  /-- The configuration region as the port's last entry to LISTEN took it, by address, rule R268. -/
  cfg : List (Nat × Word)
  /-- Lanes that have passed TRAIN, and whose bypass has settled, bit 0 lane A, bit 1 lane B. -/
  trained : Nat
  settled : Nat
  /-- Round trips of the running MEASURE and loop times of lanes A and B in INIT, newest first, 0.2 ns units. -/
  rtts : List Nat
  loopA : List Nat
  loopB : List Nat
  /-- Ring cycles in LISTEN; own claims come round unbeaten in a row; the port is sending claims. -/
  listen : Nat
  rounds : Nat
  claiming : Bool
  /-- The own claim has come round in this period, rule R248; the schedule has been refused since the entry to INIT, rule R243. -/
  claimBack : Bool
  refused : Bool
  /-- A better claim has reached this time master: it yields at the next boundary. -/
  yield : Bool
  /-- The rank of the REF taken in this cycle; lost cycles, valid REFs and boundaries without a REF in a row. -/
  refSeen : Option Nat
  lost : Nat
  valid : Nat
  noRef : Nat
  /-- The REF taken in this cycle is more than 400 ns off; valid REFs in a row since the node silenced itself, rule R254. -/
  refOff : Bool
  again : Nat
  /-- The reference instant that a REF has given in this cycle and the one that the node's own clock predicts, 0.2 ns units, rules R245
  and R254; the last time master of rank 0 by device ID, rule R247; the local time (ns) of the REF on lane A in this cycle, rule R284. -/
  refAt : Option Int
  predict : Option Int
  tm : Option Nat
  refT : Option Nat
  /-- Whether this cycle and the one before start at a tick boundary, as the REFs tell, rule R244. -/
  even : Bool
  evenBefore : Bool
  /-- The sum of the corrections this node has received, and the one that counts from the next cycle. -/
  adjust : Int
  adjustNext : Int
  /-- A REF of a lower rank stops the backup at the next boundary. -/
  backupEnd : Bool
  /-- What ring management has sent to this node, and the CYC of the last CYC_OUT and CNT of the last SAFE_OUT received. -/
  init : Option NodeInit
  echo : Nat
  safeCnt : Nat
  /-- Blocks that an RQ has named to this node. -/
  rtyDue : List RingBlock
  /-- Discovery: pass, next address, whether it has ended, the address polled in this cycle, and the descriptors. -/
  pass : Nat
  addr : Nat
  ended : Bool
  polled : Option Nat
  desc : List (Nat × List Word)
  /-- Lanes on which the polled node has answered in this cycle; of each reply its node, lane and arrival (2^-16 ns), rule R283; lanes on
  which this station has answered a poll in this cycle. -/
  answered : Nat
  descAt : List (Nat × Nat × Int)
  replied : Nat
  /-- Nodes that showed ALM_PEND in this cycle, the node last granted and the grant of this cycle, rule R258. -/
  almPend : List Nat
  lastGrant : Nat
  grant : Option Nat
  /-- Corrections that wait, by node, and those of the present REF, rule R253. -/
  corr : List (Nat × Int)
  refCorr : List (Nat × Int)
  /-- Of this tick: frames that have arrived, their failed blocks, the blocks of the RQ, nodes lanes used, and whether the
  port has completed its share of G. -/
  arrived : List (Nat × Bool)
  failed : List RingBlock
  rq : List RingBlock
  done : Bool
  /-- The port has been in CYCLIC or NODE since it was enabled. -/
  served : Bool
  /-- Complete frames in a row of each LOST node. -/
  good : List (Nat × Nat)
  /-- The software output copy in use and the one asked for; CYC of the last command cycle. -/
  soft : Bool
  softNext : Bool
  outCyc : Nat
  /-- Bulk: blocks of the head descriptor not yet sent from, sent and not acknowledged, and received, by index. -/
  bulkNext : Nat
  bulkOut : List BulkBlock
  bulkGot : List Nat
  /-- Bulk: SEQ of the next frame, the frames received and not yet acknowledged (sender, SEQ and valid blocks), and the budgets on lanes A
  and B that the REF of this cycle grants this node. -/
  bulkSeq : Nat
  bulkAcks : List (Nat × Nat × Nat)
  granted : Nat × Nat
  /-- The frames sent and those forwarded (TYPE and lanes) since the present ring cycle began, rules R237 to R241, what INIT has told each
  node, rule R249, and the turnaround of the marker returned last, rule R279. -/
  sent : List RingFrame
  relayed : List (Nat × Nat)
  turn : Option Nat
  told : List (Nat × NodeInit)
  /-- Node role: the command payload received for the next gather, the mask and the count of its blocks, rule R260; cycles without a
  valid SAFE_OUT, rule R264; SEQ of the last alarm entry offered, rule R397. -/
  inbox : List (Nat × BitVec 8)
  inMask : Nat
  inCnt : Nat
  safeMiss : Nat
  offered : Nat
  /-- No Trump slot was granted for want of a free entry, rule R396. -/
  withheld : Bool
  /-- The CYC_OUT and SAFE_OUT payloads launched in the last command cycle, by node. -/
  out : List (Nat × List (BitVec 8))
  outSafe : List (Nat × List (BitVec 8))
  deriving DecidableEq, Repr

def RingPort.reset : RingPort :=
  { cfg := [], trained := 0, settled := 0, rtts := [], loopA := [], loopB := [], listen := 0, rounds := 0, claiming := false,
    claimBack := false, refused := false, yield := false, refSeen := none, lost := 0, valid := 0, noRef := 0, refOff := false, again := 0,
    refAt := none, predict := none, tm := none, refT := none, even := true, evenBefore := true, adjust := 0, adjustNext := 0,
    backupEnd := false, init := none, echo := 0, safeCnt := 0, rtyDue := [], pass := 1, addr := 0, ended := false, polled := none,
    desc := [], answered := 0, descAt := [], replied := 0, almPend := [], lastGrant := 63, grant := none, corr := [], refCorr := [],
    arrived := [], failed := [], rq := [], done := false, served := false, good := [], soft := false, softNext := false, outCyc := 0,
    bulkNext := 0, bulkOut := [], bulkGot := [], bulkSeq := 0, bulkAcks := [], granted := (0, 0), sent := [], relayed := [],
    turn := none, told := [], inbox := [], inMask := 0, inCnt := 0, safeMiss := 0, offered := 0, withheld := false, out := [],
    outSafe := [] }

/-- The edges of a counting channel, rules R129 and R302: the newest edge (stamp and count after it), the interval to the
one before, its direction, whether it fell in the present tick, and the newest edge of the most recent earlier tick that
held one. -/
structure EdgeRt where
  newest : Option (Nat × Int)
  gap : Nat
  dir : Int
  inTick : Bool
  ref : Option (Nat × Int)
  /-- The reference that the tick which ended last had, for an edge that comes late (rule R294). -/
  old : Option (Nat × Int)
  deriving DecidableEq, Repr

/-- An incremental channel beside the FBK page, rules R294 to R297: edges, a fault in the tick, the lines (A, B, Z) below
the threshold, the first index latch of the tick (count and stamp), and the previous latch. -/
structure EncRt where
  edges : EdgeRt
  fault : Bool
  low : BitVec 3
  first : Option (Int × Nat)
  prev : Option Int
  /-- The last check of a latch found it out of tolerance, rules R297 and R309. -/
  devBad : Bool
  deriving DecidableEq, Repr

/-- A Hall set, rule R298: count, the last valid sector, edges, and a fault in the tick. -/
structure HallRt where
  count : Int
  sector : Option Nat
  edges : EdgeRt
  fault : Bool
  deriving DecidableEq, Repr

/-- An SSI channel, rules R299 and R300: the raw value of the last good frame, ext, and whether this tick's frame is complete
and good. -/
structure SsiRt where
  raw : Option Nat
  ext : Int
  done : Bool
  good : Bool
  deriving DecidableEq, Repr

/-- A local axis beside its LAX page, rules R292 to R307: v_p of the last tick, consecutive invalid ticks, the index latched
in the tick that ended, the checked record launched for it (stop code and W1), n_sched, the N of the last tick issued under
code 0b00, |N| of the stop ramp (2^-40 microsteps), the level of DIR, and the pulses scheduled (time and sign). -/
structure LaxRt where
  vp : Int
  miss : Nat
  /-- The fault bit of the last valid record (rule R292); LAX_EXT, METHOD and v_p before the present tick's sample. -/
  okFault : Bool
  prior : Int × Nat × Int
  index : Option (Int × Nat)
  cmd : Option (Nat × Int)
  sched : Int
  lastN : Int
  ramp : Nat
  dir : Bool
  pulses : List (Nat × Int)
  deriving DecidableEq, Repr

/-- The local axes pins. -/
structure Feedback where
  enc : List (Nat × EncRt)
  hall : List (Nat × HallRt)
  ssi : List (Nat × SsiRt)
  lax : List (Nat × LaxRt)
  /-- Ring axes with FBK_RING_VDIFF whose position was valid in this tick and in the one before, rule R304. -/
  posNow : List Nat
  posPrev : List Nat
  deriving DecidableEq, Repr

def EdgeRt.reset : EdgeRt := { newest := none, gap := 0, dir := 1, inTick := false, ref := none, old := none }
def EncRt.reset : EncRt := { edges := EdgeRt.reset, fault := false, low := 0, first := none, prev := none, devBad := false }
def HallRt.reset : HallRt := { count := 0, sector := none, edges := EdgeRt.reset, fault := false }
def SsiRt.reset : SsiRt := { raw := none, ext := 0, done := false, good := false }
def LaxRt.reset : LaxRt :=
  { vp := 0, miss := 0, okFault := false, prior := (0, 0, 0), index := none, cmd := none, sched := 0, lastN := 0, ramp := 0, dir := false, pulses := [] }
def Feedback.reset : Feedback := { enc := [], hall := [], ssi := [], lax := [], posNow := [], posPrev := [] }

/-- A counting input beside the FIO page, rules R315 and R316: the last counted edge, the interval to the one before, edges
counted since enabled, and the counts at the last boundaries, newest first. -/
structure CountRt where
  last : Option Nat
  gap : Option Nat
  hist : List Nat
  deriving DecidableEq, Repr

/-- What the field die and the field snapshot keep beside the FIO page (rules R310 to R326). -/
structure Field where
  /-- The snapshot of this tick failed on the die-to-die link, rule R378, or was not sent, rule R325. -/
  snapBad : Bool
  /-- The checked word of this tick failed on the die-to-die link, rule R378. -/
  wordLost : Bool
  /-- VCC_F is present, rule R325. -/
  vcc : Bool
  /-- Accepted input levels, consecutive samples against each, and failed tests since the last boundary, rules R312, R313. -/
  level : BitVec 32
  runs : List (Nat × Nat)
  test : BitVec 32
  counts : List (Nat × CountRt)
  /-- FIO_DQ_SW as taken at the command cut, rule R317. -/
  soft : BitVec 16
  /-- The checked word in force, the one received for the next boundary, and whether none is in force (rules R318, R319, R325). -/
  word : BitVec 16
  next : Option (BitVec 16)
  lost : Bool
  /-- CMD_LOSS since the previous snapshot. -/
  lossSince : Bool
  /-- Outputs that are on, and the instant of each latest switch-off, rule R322. -/
  on : BitVec 16
  offTime : List (Nat × Int)
  /-- Outputs that step 3 of the proof test switches on, rule R225. -/
  pulse : BitVec 16
  /-- The last sample: level above 12 V, in two evaluated samples' use, and level between 3 V and 12 V. -/
  above : BitVec 16
  fed : BitVec 16
  band : BitVec 16
  /-- Outputs whose last sample the off-state open-load check has evaluated and found between 3 V and 12 V, rule R320. -/
  banded : BitVec 16
  /-- N_S of the samples of the tick that runs, rule R314. -/
  ns : Nat
  /-- Ticks with a current below OL_THR, rule R320. -/
  openRun : List (Nat × Nat)
  /-- Outputs switched off by an overload, rule R321. -/
  ovlOff : BitVec 16
  /-- Supply groups below and above their thresholds, switched off, and recovered for the next boundary, rule R324. -/
  lpUv : BitVec 2
  lpOv : BitVec 2
  lpOff : BitVec 2
  lpBack : BitVec 2
  /-- Paralleled outputs are held off until this instant, rule R366. -/
  parUntil : Option Nat
  deriving DecidableEq, Repr

def CountRt.reset : CountRt := { last := none, gap := none, hist := [] }

def Field.reset : Field :=
  { snapBad := false, wordLost := false, vcc := true, level := 0, runs := [], test := 0, counts := [], soft := 0, word := 0,
    next := none, lost := true, lossSince := false, on := 0, offTime := [], pulse := 0, above := 0, fed := 0, band := 0, banded := 0, ns := 1, openRun := [],
    ovlOff := 0, lpUv := 0, lpOv := 0, lpOff := 0, lpBack := 0, parUntil := none }

/-- The identity of the PCIe function, rule R339. -/
structure EndpointId where
  vendor : BitVec 16
  device : BitVec 16
  revision : BitVec 8
  classCode : BitVec 24
  deriving DecidableEq, Repr

/-- A line on the UART during BOOT: a step of rule R413 in progress, or a failure code of rule R415. Its text in ASCII is
`Config.bootText`. -/
inductive BootMessage where
  | step (n : Nat)
  | failed (code : Nat)
  deriving DecidableEq, Repr

/-- What the plant ports, the endpoint, the flash controller and the JTAG port keep beside their pages (rules R330 to R347). -/
structure Plant where
  /-- The previous sample of each filter, by 4 × port + filter: θ and t, rule R336. -/
  filt : List (Nat × (Int × Int))
  /-- The queue whose head frame each port is sending, by 8 × port + queue, rules R330 and R331. -/
  sending : List Nat
  /-- Egress stamps still unwritten, oldest first, at most 64 of a port: the port, the descriptor and the stamp in 2^-16 ns, rule R333. -/
  stamps : List (Nat × Nat × Int)
  /-- MSI-X: the table's bytes without the vector control words, the masked vectors, and the pending ones. -/
  msixTab : Memory
  msixMask : BitVec 64
  msixPend : BitVec 64
  /-- The JTAG instruction in force, and the code that its data register shows where rule R347 gives one. -/
  jtag : JtagInstr
  idcode : Option Word
  /-- What the endpoint presents to its partner while the link is up, rule R339. -/
  endpoint : Option EndpointId
  /-- The data of the last read of a register, of cell memory or of a BAR. -/
  bus : Nat
  /-- What has been written to the UART since the last reset, and its rate in baud, rules R346 and R415. -/
  uart : List BootMessage
  baud : Nat
  deriving DecidableEq, Repr

def Plant.reset : Plant :=
  { filt := [], sending := [], stamps := [], msixTab := [], msixMask := BitVec.allOnes 64, msixPend := 0, jtag := .idcode,
    idcode := some 0x1C128B4D, endpoint := none, bus := 0, uart := [], baud := 115200 }

end Sys2Proof.Machine
end

