-- ==== Sys2Proof/Syntax.lean ====
section
/-! DEFINITION. The commands the part takes: events, register accesses with a meaning of their own, frames, and the
operations of a motion engine, one constructor for each row of spec/opcode_table.json. The table gives no row any
bits; the operands are the ones each row's rule needs. -/

namespace Sys2Proof

/-- The image of a sync, rule R359, as it stood at the boundary of tick `tick`: bytes of the listed state regions by offset in cell
memory, registers and context words of SAFEA and the Dealer by address, the solver's kept z and y, and what the profile generators, the
loops, the separation unit and the safety logic keep between ticks, with instants in the standby's own time; `free` tells which open
values (notes/assumptions/4.md) the active unit uses next, and `state` its device state; what it carries beside regions and registers is
DEDUCED (notes/assumptions/29.md and 154.md). -/
structure SyncImage where
  tick : Nat
  cell : List (Nat × BitVec 8)
  regs : List (Nat × Word)
  z : List Int
  y : List Int
  prof : Machine.Prof
  loop : Machine.Loop
  ssm : Machine.Ssm
  ins : List (Nat × Machine.SafIn)
  groups : List (Nat × Machine.SafGroup)
  ovr : Nat
  cnt : Nat
  seenAt : List (Nat × Nat)
  degTime : Nat
  free : Nat
  state : BitVec 4
  /-- The next solve starts cold, and no entry of the last tick serves the fallback (rules R162 and R171). -/
  cold : Bool
  noPrev : Bool
  /-- By port, the software output copy in use and the one asked for (rule R265); by local axis, what its channel and step generator keep. -/
  soft : List (Nat × Bool × Bool)
  lax : List (Nat × Machine.LaxRt)
  deriving DecidableEq, Repr

/-- A heartbeat frame of the active unit, rule R358, with the measured boundary offset (rule R362), whether identity and image
checks match (rule R351), and how many of its blocks were invalid before their re-send (rule R350). -/
structure TwinBeat where
  tick : Nat
  resign : Bool
  lapse : Bool
  digest : Word
  offset : Int
  same : Bool
  bad : Nat
  deriving DecidableEq, Repr

/-- What makes the active unit resign, rule R364. -/
inductive ResignCause where
  | software (ag : Agent) | degrade | port
  deriving DecidableEq, Repr
/-- The commands of the part, one constructor for each row of the spec's table of operations and events, in the
table's order. Each docstring gives the row's mnemonic, the rule it follows and what it stands for. -/
inductive Instr where
  /-- TICK_BOUNDARY (R39): Quartz reaches the next grid instant of device time, increments QTZ_TICK_NUM and records QTZ_LAST_TICK. -/
  | tickBoundary
  /-- TICK_LOSS (R43): The AON supervisor finds a boundary missing or early against the 25 MHz reference, sets TICK_LOSS and causes a device-level stop. -/
  | tickLoss
  /-- SERVO_STALE (R35): QTZ_SYNC_TMO ticks pass without an accepted QTZ_TIME_INC write, so SERVO_STALE is set and an event is raised. -/
  | servoStale
  /-- QTZ_TIME_INC (R34): A write of the time increment is accepted within ±500 ppm or refused, with INC_REFUSED set. -/
  | qtzTimeInc (ag : Agent) (part : WordPart) (v : BitVec 64)
  /-- STEP_REQ (R37): A write of STEP_REQ requests a step of device time, accepted only in BOOT, SELFTEST and READY. -/
  | stepReq (ag : Agent)
  /-- QTZ_TICK_OFS (R41): A write of the tick grid offset is accepted for the next boundary or refused with CFG_REFUSED. -/
  | qtzTickOfs (ag : Agent) (v : Word)
  /-- RING_CYCLE_BOUNDARY (R40): A ring cycle boundary falls, at each tick boundary and also at mid-tick when RING_DIV = 1. -/
  | ringCycleBoundary (mid : Bool)
  /-- LAUNCH_TIME_REACHED (R52): A queued frame's launch time arrives and the frame leaves the ball. -/
  | launchTimeReached (p : Fin 2) (q : Fin 8)
  /-- PHASE_START (R15): A phase's programmed start offset is reached and its unit starts work. -/
  | phaseStart (ph : Phase) (ms : List CodeMismatch)
  /-- PHASE_COMPLETE (R47): A phase's unit reports completion, and Quartz records its end offset. -/
  | phaseComplete (ph : Phase) (ofs : Nat)
  /-- PHASE_DEADLINE (R48): A phase deadline arrives, and the phase's buffer copy is sealed and its tasks stop being dispatched. -/
  | phaseDeadline (ph : Phase) (late : Overran)
  /-- GROUP_OVERRUN_STOP (R49): A second consecutive P or L overrun for a group gives that group SS1. -/
  | groupOverrunStop (ph : Phase) (g : Fin 16)
  /-- E_LAUNCH (R19): At the launch offset, the checked commands are emitted on the rings, the local axes and the field die. -/
  | eLaunch
  /-- MAILBOX_COMMIT (R16): Software writes a group mailbox's commit word, which commits the command for the next cut. -/
  | mailboxCommit (ag : Agent) (g : Fin 16) (seq : BitVec 16)
  /-- RUN_REQ (R27): Software requests RUN, which is accepted only when every RUN condition holds and refused otherwise. -/
  | runReq (ag : Agent) (withStop : Bool)
  /-- STOP_REQ (R26): Software requests a stop from RUN to READY through a standstill of every group. -/
  | stopReq (ag : Agent)
  /-- RESTART_REQ (R29): Software requests a restart from SAFESTOP through SELFTEST, accepted only when every latched cause has cleared. -/
  | restartReq (ag : Agent)
  /-- FREEZE (R423): SYS_CTRL.FREEZE requests a freeze: crossings are parked and the functional clocks gated. -/
  | freeze (ag : Agent)
  /-- SW_RESET (R411): A keyed SYS_CTRL write resets the core die; an unkeyed write is ignored and counted. -/
  | swReset (ag : Agent) (key : BitVec 16)
  /-- SYS_WDT_KICK (R412): A write of 0xA5 restarts the watchdog period; any other value counts as a missed kick. -/
  | sysWdtKick (ag : Agent) (v : Word)
  /-- WDT_WARN (R412): Half the watchdog period passes without a kick, so WDT_WARN is set. -/
  | wdtWarn
  /-- WDT_EXPIRY (R412): The full watchdog period passes without a kick and the core die is reset. -/
  | wdtExpiry
  /-- RAILS_STABLE (R410): Every rail has been within its thresholds for 10 ms, so the C128 leaves OFF for RESET. -/
  | railsStable (mv : List (BitVec 16))
  /-- RAIL_UNDERVOLTAGE (R409): A rail crosses its undervoltage threshold and the C128 enters OFF within 5 µs. -/
  | railUndervoltage (rail : Fin 13) (mv : BitVec 16)
  /-- RAIL_OVERVOLTAGE (R409): A rail crosses its overvoltage threshold, so RAIL_OV is set and an alarm is raised. -/
  | railOvervoltage (rail : Fin 13) (mv : BitVec 16)
  /-- RESET_N (R411): RESET_n is held low for at least 1 µs and resets the core die. -/
  | resetN
  /-- RESET_RELEASE (R411): 100 µs after the last reset trigger ends, the core die enters BOOT. -/
  | resetRelease (inp : BootInputs)
  /-- SELFTEST_DONE (R419): The self-tests end, leading to READY when all passed or to SAFESTOP otherwise. -/
  | selftestDone (pass : BitVec 8)
  /-- PWR_DVFS_REQ (R420): Software requests a quad operating point, which is accepted or refused with REF_CAUSE. -/
  | pwrDvfsReq (ag : Agent) (quad : Fin 4) (point : Fin 4)
  /-- PWR_APPC_REQ (R420): Software requests an application-core clock under the same checks. -/
  | pwrAppcReq (ag : Agent) (freq : Fin 8)
  /-- RAIL_SETTLED (R421): The quad rail settles within ±15 mV, so a rising change switches its clock at the next boundary or a falling change completes. -/
  | railSettled (quad : Fin 4) (mv : BitVec 16)
  /-- DVFS_RAMP_TIMEOUT (R421): RAMP_TMO expires before the rail settles, so DVFS_FAIL is set and an alarm is raised. -/
  | dvfsRampTimeout (quad : Fin 4)
  /-- DOMAIN_POWER_DOWN (R406): Software requests a domain power-down through PWR_DOM_REQ, which is refused when the domain's condition fails. -/
  | domainPowerDown (ag : Agent) (req : Word)
  /-- DOMAIN_POWER_UP (R407): Software requests power-up of SOLV, RING or PLANT at the next boundary. -/
  | domainPowerUp (ag : Agent) (req : Word)
  /-- FRZ_N_ASSERT (R423): FRZ_n held low for at least 100 ns requests a freeze. -/
  | frzNAssert
  /-- FREEZE_RELEASE (R425): The freeze ends on an FRZ_n release, or takes effect when a running readout ends. -/
  | freezeRelease (inp : BootInputs)
  /-- READOUT_START (R424): 1 µs after the clocks are gated, the state readout starts streaming on DBG_D. -/
  | readoutStart
  /-- READOUT_END (R424): The readout stream ends with its trailer. -/
  | readoutEnd (bytes : BitVec 64) (ue : Word)
  /-- NOP (R74): A slot performs no operation. -/
  | nop (e : Fin 64) (slot : Fin 4) (fin : Bool)
  /-- MPY (R63): The accumulator is set to the signed product of two registers. -/
  | mpy (e : Fin 64) (fin : Bool) (n : Fin 4) (a b : Fin 32)
  /-- MAC (R63): The signed product of two registers is added to the accumulator. -/
  | mac (e : Fin 64) (fin : Bool) (n : Fin 4) (a b : Fin 32)
  /-- MSU (R63): The signed product of two registers is subtracted from the accumulator. -/
  | msu (e : Fin 64) (fin : Bool) (n : Fin 4) (a b : Fin 32)
  /-- MPYU (R63): The accumulator is set to a product with the second operand unsigned. -/
  | mpyu (e : Fin 64) (fin : Bool) (n : Fin 4) (a b : Fin 32)
  /-- MACU (R63): A product with the second operand unsigned is added to the accumulator. -/
  | macu (e : Fin 64) (fin : Bool) (n : Fin 4) (a b : Fin 32)
  /-- MACH (R63): A product scaled by 2^32 is added to the accumulator. -/
  | mach (e : Fin 64) (fin : Bool) (n : Fin 4) (a b : Fin 32)
  /-- QMPY (R63): Four accumulators are set to a broadcast operand times four consecutive registers. -/
  | qmpy (e : Fin 64) (fin : Bool) (a b : Fin 32)
  /-- QMAC (R63): Four products of a broadcast operand are added to the four accumulators. -/
  | qmac (e : Fin 64) (fin : Bool) (a b : Fin 32)
  /-- CMPY (R63): An accumulator pair is set to a complex product. -/
  | cmpy (e : Fin 64) (fin : Bool) (n : Fin 4) (a b : Fin 32)
  /-- CMAC (R63): A complex product is added to an accumulator pair. -/
  | cmac (e : Fin 64) (fin : Bool) (n : Fin 4) (a b : Fin 32)
  /-- CMACJ (R63): A complex product with the second operand conjugated is added to an accumulator pair. -/
  | cmacj (e : Fin 64) (fin : Bool) (n : Fin 4) (a b : Fin 32)
  /-- ACLR (R74): An accumulator is cleared. -/
  | aclr (e : Fin 64) (fin : Bool) (n : Fin 4)
  /-- AADD (R74): One accumulator is added to another, with saturation. -/
  | aadd (e : Fin 64) (fin : Bool) (n b : Fin 4)
  /-- ASH (R64): An accumulator is shifted arithmetically, saturating on a left shift. -/
  | ash (e : Fin 64) (fin : Bool) (n : Fin 4) (b : BitVec 5)
  /-- EXPA (R67): The exponent of an accumulator is written to a register. -/
  | expa (e : Fin 64) (fin : Bool) (n : Fin 4) (a : Fin 32)
  /-- MOV (R74): A register is copied to another. -/
  | mov (e : Fin 64) (second fin : Bool) (d r : Fin 32)
  /-- MOVP (R74): A register pair is copied to another pair. -/
  | movp (e : Fin 64) (second fin : Bool) (d r : Fin 32)
  /-- LD (R59): A 32-bit load is made with address post-modify. -/
  | ld (e : Fin 64) (second fin : Bool) (d : Fin 32) (x : Fin 8) (mode : Fin 4) (ecc : Ecc)
  /-- ST (R59): A 32-bit store is made with address post-modify. -/
  | st (e : Fin 64) (second fin : Bool) (d : Fin 32) (x : Fin 8) (mode : Fin 4) (ecc : Ecc)
  /-- LDP (R59): A 64-bit load is made into a register pair. -/
  | ldp (e : Fin 64) (second fin : Bool) (d : Fin 32) (x : Fin 8) (mode : Fin 4) (ecc : Ecc)
  /-- STP (R59): A 64-bit store is made from a register pair. -/
  | stp (e : Fin 64) (second fin : Bool) (d : Fin 32) (x : Fin 8) (mode : Fin 4) (ecc : Ecc)
  /-- MVA (R65): An accumulator is moved to a register or pair with scaling, rounding and saturation by form. -/
  | mva (e : Fin 64) (second fin : Bool) (d : Fin 32) (acc : Fin 4) (form : Fin 8)
  /-- MAV (R74): A register or pair is moved into an accumulator by form. -/
  | mav (e : Fin 64) (second fin : Bool) (d : Fin 32) (acc : Fin 4) (form : Fin 8)
  /-- ADD (R66): A wrapping 32-bit addition is made. -/
  | add (e : Fin 64) (second fin : Bool) (d r : Fin 32)
  /-- ADDS (R66): A saturating 32-bit addition is made. -/
  | adds (e : Fin 64) (second fin : Bool) (d r : Fin 32)
  /-- SUB (R66): A wrapping 32-bit subtraction is made. -/
  | sub (e : Fin 64) (second fin : Bool) (d r : Fin 32)
  /-- SUBS (R66): A saturating 32-bit subtraction is made. -/
  | subs (e : Fin 64) (second fin : Bool) (d r : Fin 32)
  /-- ADDP (R66): A wrapping 64-bit pair addition is made. -/
  | addp (e : Fin 64) (second fin : Bool) (d r : Fin 32)
  /-- SUBP (R66): A wrapping 64-bit pair subtraction is made. -/
  | subp (e : Fin 64) (second fin : Bool) (d r : Fin 32)
  /-- AND (R74): A bitwise AND is made. -/
  | andOp (e : Fin 64) (second fin : Bool) (d r : Fin 32)
  /-- OR (R74): A bitwise OR is made. -/
  | orOp (e : Fin 64) (second fin : Bool) (d r : Fin 32)
  /-- XOR (R74): A bitwise XOR is made. -/
  | xorOp (e : Fin 64) (second fin : Bool) (d r : Fin 32)
  /-- SRA (R66): An arithmetic right shift by an immediate is made, truncating toward minus infinity. -/
  | sra (e : Fin 64) (second fin : Bool) (d imm : Fin 32)
  /-- SRAR (R66): An arithmetic right shift is made, rounding half up. -/
  | srar (e : Fin 64) (second fin : Bool) (d imm : Fin 32)
  /-- SLL (R74): A logical left shift by an immediate is made. -/
  | sll (e : Fin 64) (second fin : Bool) (d imm : Fin 32)
  /-- SRL (R74): A logical right shift by an immediate is made. -/
  | srl (e : Fin 64) (second fin : Bool) (d imm : Fin 32)
  /-- CMP (R74): Two registers are compared and SR.Z and SR.N set. -/
  | cmp (e : Fin 64) (second fin : Bool) (d r : Fin 32)
  /-- EXP (R67): The count of redundant sign bits of a register is written. -/
  | exp (e : Fin 64) (second fin : Bool) (d r : Fin 32)
  /-- NORM (R67): A register is shifted left by its exponent. -/
  | norm (e : Fin 64) (second fin : Bool) (d r : Fin 32)
  /-- MOVX (R74): A data register is written to an address-class register. -/
  | movx (e : Fin 64) (second fin : Bool) (c r : Fin 32)
  /-- MOVD (R74): An address-class register is read into a data register. -/
  | movd (e : Fin 64) (second fin : Bool) (d c : Fin 32)
  /-- MIN (R74): The signed minimum of two registers is taken. -/
  | minOp (e : Fin 64) (second fin : Bool) (d r : Fin 32)
  /-- MAX (R74): The signed maximum of two registers is taken. -/
  | maxOp (e : Fin 64) (second fin : Bool) (d r : Fin 32)
  /-- ABS (R66): The saturating absolute value of a register is taken. -/
  | absOp (e : Fin 64) (second fin : Bool) (d r : Fin 32)
  /-- ADDI (R66): A signed 5-bit immediate is added with saturation. -/
  | addi (e : Fin 64) (second fin : Bool) (d : Fin 32) (imm : BitVec 5)
  /-- BR (R70): A relative branch is taken, with one delay slot. -/
  | br (e : Fin 64) (fin : Bool) (off : BitVec 10)
  /-- BCC (R70): A branch is taken on a condition of SR, with one delay slot. -/
  | bcc (e : Fin 64) (fin : Bool) (cond : Fin 8) (off : BitVec 7)
  /-- TAKE (R75): The engine stalls until the Dealer hands it a task, then sets its registers and starts or resumes the task. -/
  | take (e : Fin 64) (fin : Bool)
  /-- DONE (R76): The engine waits for the task's stores and reports the task complete to the Dealer. -/
  | doneOp (e : Fin 64) (fin : Bool)
  /-- SETF (R92): The engine sets a flag of a task through the Dealer event queue. -/
  | setf (e : Fin 64) (fin : Bool) (r : Fin 32)
  /-- PEN (R78): Preemption is allowed by setting SR.PE. -/
  | pen (e : Fin 64) (fin : Bool)
  /-- PDIS (R78): Preemption is disallowed by clearing SR.PE. -/
  | pdis (e : Fin 64) (fin : Bool)
  /-- RTE (R81): The engine returns from TRAP, restoring PC, SR and X7. -/
  | rte (e : Fin 64) (fin : Bool)
  /-- JR (R74): A jump is made to a register address. -/
  | jr (e : Fin 64) (fin : Bool) (r : Fin 32)
  /-- LOOPR (R71): A zero-overhead loop with a register count and a short body is set up. -/
  | loopr (e : Fin 64) (fin : Bool) (l : Fin 2) (r : Fin 32) (last : Fin 16)
  /-- RDCYC (R77): The low word of the cycle count is read. -/
  | rdcyc (e : Fin 64) (fin : Bool) (d : Fin 32)
  /-- RDENG (R77): The engine number is read. -/
  | rdeng (e : Fin 64) (fin : Bool) (d : Fin 32)
  /-- CLRS (R66): The sticky SR.SAT and SR.AOV flags are cleared. -/
  | clrs (e : Fin 64) (fin : Bool)
  /-- RET (R74): A return is made to the link address. -/
  | ret (e : Fin 64) (fin : Bool)
  /-- YIELD (R81): The preemption handler hands the task back to the Dealer as preempted. -/
  | yield (e : Fin 64) (fin : Bool)
  /-- LBR (R74): A long branch is taken. -/
  | lbr (e : Fin 64) (fin : Bool) (off : BitVec 24)
  /-- LCALL (R74): A long call is made that sets LK. -/
  | lcall (e : Fin 64) (fin : Bool) (off : BitVec 24)
  /-- LOOP (R71): A zero-overhead loop with an immediate count is set up. -/
  | loopImm (e : Fin 64) (fin : Bool) (l : Fin 2) (count : BitVec 11) (last : BitVec 12)
  /-- MVS (R74): A data register is written to a special register. -/
  | mvs (e : Fin 64) (fin : Bool) (c r : Fin 32)
  /-- MSV (R74): A special register is read into a data register. -/
  | msv (e : Fin 64) (fin : Bool) (d c : Fin 32)
  /-- SHI (R74): A scaling shift register is set from an immediate. -/
  | shi (e : Fin 64) (fin : Bool) (n : Fin 4) (imm : BitVec 7)
  /-- MOVI (R74): A 32-bit immediate is loaded into a data register. -/
  | movi (e : Fin 64) (fin : Bool) (d : Fin 32) (imm : Word)
  /-- MOVIX (R74): A 32-bit immediate is loaded into an address-class register. -/
  | movix (e : Fin 64) (fin : Bool) (c : Fin 32) (imm : Word)
  /-- PREEMPTION_TRAP (R79): An engine that meets the conditions stops at a bundle boundary, saves EPC, ESR and ESX, and enters TRAP at 0x0040. -/
  | preemptionTrap (e : Fin 64)
  /-- ENG_CTRL_EN (R464): A write of ENG_CTRL.EN disables an engine after its running task ends, or starts it at 0x0000. -/
  | engCtrlEn (ag : Agent) (e : Fin 64) (v : Word)
  /-- CODE_SRAM_WRITE (R86): A write to code SRAM is accepted only in BOOT with the engine disabled, and is refused otherwise. -/
  | codeSramWrite (loader : Bool) (e : Fin 64) (bundle : Fin 8192) (v : BitVec 64)
  /-- DLR_ARM (R90): Software arms a task. -/
  | dlrArm (ag : Agent) (v : Word)
  /-- DLR_CANCEL (R90): Software cancels a task, directly or as pending when the task runs. -/
  | dlrCancel (ag : Agent) (v : Word)
  /-- DLR_SETF (R92): Software or an engine sets a flag of a task through the event queue. -/
  | dlrSetf (ag : Agent) (v : Word)
  /-- DLR_CLRF (R92): Software clears a flag of a task. -/
  | dlrClrf (ag : Agent) (v : Word)
  /-- DLR_FLOW_RESET (R100): Software restarts the round of a PHASE = 7 flow. -/
  | dlrFlowReset (ag : Agent) (v : Word)
  /-- DLR_CTX_WRITE (R89): Software writes a configuration word of the selected task context, accepted only in permitted task and device states. -/
  | dlrCtxWrite (ag : Agent) (w : Fin 16) (v : Word)
  /-- DLR_CORE_TAKE (R97): A core reads its take register and stalls until a thread is granted or the time limit passes. -/
  | dlrCoreTake (ag : Agent) (n : Fin 4)
  /-- CORE_TAKE_TIMEOUT (R97): DLR_CORE_TMO cycles pass and the take read returns VALID = 0. -/
  | coreTakeTimeout (n : Fin 4)
  /-- DLR_CORE_DONE (R97): A core reports its thread complete. -/
  | dlrCoreDone (ag : Agent) (n : Fin 4) (v : Word)
  /-- DLR_CORE_YIELD (R97): A core hands its thread back as preempted. -/
  | dlrCoreYield (ag : Agent) (n : Fin 4) (v : Word)
  /-- EVENT_QUEUE_ACCEPT (R93): The Dealer accepts up to four flag sets from its event queue in a cycle, freeing room for stalled senders. -/
  | eventQueueAccept
  /-- TASK_GRANT (R95): The Dealer grants a ready task to a waiting engine or core, from its home queue or by stealing from the Kitty. -/
  | taskGrant (q : Fin 5)
  /-- STAGE_IN_COMPLETE (R96): The stage-in copy of a granted task completes and TAKE returns. -/
  | stageInComplete
  /-- STEAL_DELAY_EXPIRY (R94): A stealable task has waited STEAL_DLY cycles in its home queue and enters the Kitty. -/
  | stealDelayExpiry (t : Fin 512)
  /-- FLOW_RELEASE (R99): A flow releases its next position into its destination once the task holding it has completed. -/
  | flowRelease (f : Fin 64)
  /-- MOVE_ABS (R111): The named members move to an absolute target. -/
  | moveAbs (g : Fin 16) (seq mask : BitVec 16) (valid : BitVec 6) (fs : List MemberFields)
  /-- MOVE_REL (R111): The named members move by a distance added to the present target. -/
  | moveRel (g : Fin 16) (seq mask : BitVec 16) (valid : BitVec 6) (fs : List MemberFields)
  /-- JOG (R111): The named members move at a signed velocity. -/
  | jog (g : Fin 16) (seq mask : BitVec 16) (valid : BitVec 6) (fs : List MemberFields)
  /-- SET_LIM (R111): New motion limits are set for the named members. -/
  | setLim (g : Fin 16) (seq mask : BitVec 16) (valid : BitVec 6) (fs : List MemberFields)
  /-- STOP (R119): The named members stop with the stop deceleration and keep their target. -/
  | stop (g : Fin 16) (seq mask : BitVec 16) (valid : BitVec 6) (fs : List MemberFields)
  /-- RESUME (R119): The named members replan to their kept target. -/
  | resume (g : Fin 16) (seq mask : BitVec 16) (valid : BitVec 6) (fs : List MemberFields)
  /-- ABORT (R119): The named members stop, discard their target and end in IDLE. -/
  | abort (g : Fin 16) (seq mask : BitVec 16) (valid : BitVec 6) (fs : List MemberFields)
  /-- GEAR_IN (R125): The named members engage gearing to the master with an offset and a ratio. -/
  | gearIn (g : Fin 16) (seq mask : BitVec 16) (valid : BitVec 6) (fs : List MemberFields)
  /-- CAM_IN (R127): The named members engage a cam table on the master. -/
  | camIn (g : Fin 16) (seq mask : BitVec 16) (valid : BitVec 6) (fs : List MemberFields)
  /-- SYNC_OUT (R125): The named members leave gear or cam and decelerate to IDLE. -/
  | syncOut (g : Fin 16) (seq mask : BitVec 16) (valid : BitVec 6) (fs : List MemberFields)
  /-- HOME (R130): The named members start a homing search in their configured mode. -/
  | home (g : Fin 16) (seq mask : BitVec 16) (valid : BitVec 6) (fs : List MemberFields)
  /-- SET_POS (R111): A new position is set for an idle member. -/
  | setPos (g : Fin 16) (seq mask : BitVec 16) (valid : BitVec 6) (fs : List MemberFields)
  /-- FOLLOW (R129): A local axis follows coarse step and direction input. -/
  | follow (g : Fin 16) (seq mask : BitVec 16) (valid : BitVec 6) (fs : List MemberFields)
  /-- MASTER_STALE (R123): The master sample passes PRFG_MST_AGE, so MST_LOST is set, an alarm is raised and engaged members follow a virtual master. -/
  | masterStale (g : Fin 16)
  /-- HOME_DEBOUNCE_END (R131): A homing debounce window ends with acceptance, a glitch or a CHATTER fault. The operands name the window by what it holds: its edges, the level before it and at its end, the position and the time of its first edge. -/
  | homeDebounceEnd (a : Fin 144) (inp : HomeInput) (edges : Nat) (before level : Bool) (pos : Option Int) (time : Nat)
  /-- CMP_ARM (R134): Software arms a position compare for the next cut. -/
  | cmpArm (ag : Agent) (a : Fin 144) (c : Fin 4) (v : Word)
  /-- CMP_DISARM (R134): Software disarms a position compare for the next cut. -/
  | cmpDisarm (ag : Agent) (a : Fin 144) (c : Fin 4) (v : Word)
  /-- LOOP_OPEN (R149): Software requests a loop to open at the next cut. -/
  | loopOpen (ag : Agent) (a : Fin 144) (op cl : BitVec 4)
  /-- LOOP_CLOSE (R149): Software requests a loop to close at the next cut. -/
  | loopClose (ag : Agent) (a : Fin 144) (op cl : BitVec 4)
  /-- COEF_WRITE (R152): A write to a live coefficient set is accepted only while its loop is open with no request pending. -/
  | coefWrite (ag : Agent) (a : Fin 144) (j : Fin 5) (w : Fin 10) (v : Word)
  /-- FOLLOWING_ERROR (R147): The following error exceeds LOOP_FE_MAX in LOOP_FE_N consecutive ticks, so FE is set and the axis faults. -/
  | followingError (a : Fin 144)
  /-- SOLVER_SECOND_FAILURE (R169): A second consecutive failed solve in RUN or DEGRADED is a device-level stop cause. -/
  | solverSecondFailure
  /-- JOINT_MISS_STOP (R178): Joint data missing for MISS_N ticks give the group a stop demand. -/
  | jointMissStop (g : Fin 16)
  /-- SOURCE_MISS_STOP (R180): A sensor or remote source missing for MISS_N ticks gives its groups a stop demand. -/
  | sourceMissStop (h : Fin 8)
  /-- STOP_DEMAND_CLEAR (R188): The clearing condition has held for CLEAR_N ticks and the stop demand clears. -/
  | stopDemandClear (g : Fin 16)
  /-- INPUT_DEMAND_ENTER (R203): A channel shows demand in FILT + 1 consecutive snapshots and the function enters demand. -/
  | inputDemandEnter (f : Fin 16)
  /-- INPUT_DEMAND_LEAVE (R203): Both channels show non-demand in FILT + 1 consecutive snapshots and the function leaves demand. -/
  | inputDemandLeave (f : Fin 16)
  /-- DISCREPANCY (R204): The channels disagree for longer than DISC and a discrepancy latches. -/
  | discrepancy (f : Fin 16)
  /-- STANDSTILL_REACHED (R201): After N_SS standstill ticks, SS2 passes to SOS or SS1 to STO. -/
  | standstillReached (g : Fin 16)
  /-- SS1_TMAX_EXPIRY (R201): SS1_TMAX elapses, so SS1 passes to STO, or SS2 to STO with RAMP. -/
  | ss1TmaxExpiry (g : Fin 16)
  /-- SAF_ACK (R210): Software acknowledges a group's latched causes at the cut, accepted only with SW_ACK_EN. -/
  | safAck (ag : Agent) (m : BitVec 16)
  /-- SAF_REL (R211): Software requests release of a group at the cut, refused when the conditions fail. -/
  | safRel (ag : Agent) (m : BitVec 16)
  /-- DEGRADE_MAX_EXPIRY (R221): DEGRADE_MAX expires, so every group receives DEV and the C128 enters SAFESTOP. -/
  | degradeMaxExpiry
  /-- DEGRADE_FAULT_CLEAR (R220): A fault class meets its clearing time. -/
  | degradeFaultClear (c : Fin 5)
  /-- PERIODIC_SELFTEST (R220): The periodic SAFEA code CRC or C-phase vector test runs. -/
  | periodicSelftest (test : Fin 2) (pass : Bool)
  /-- SLATE_COMPARE_START (R218): Slate starts comparing 20 ms after its power-up. -/
  | slateCompareStart
  /-- SLATE_COMPARE_RESULT (R219): Slate completes its comparison of a tick, possibly finding a disagreement. -/
  | slateCompareResult (tick : Nat) (agree : Bool)
  /-- SLATE_CLEAN (R219): SLATE_CLEAN ms pass without disagreement. -/
  | slateClean
  /-- SAF_PT_START (R225): Software starts the proof test in READY. -/
  | safPtStart (ag : Agent)
  /-- PROOF_TEST_END (R225): The proof test ends with a pass or a failure. -/
  | proofTestEnd (failed : Option (Fin 6))
  /-- PROOF_TEST_DUE (R224): SAF_PT_HOURS reaches PT_INTERVAL, so PT_DUE is set and an alarm is raised. -/
  | proofTestDue
  /-- SAF_STORE (R229): Software starts storing a safety parameter set. -/
  | safStore (ag : Agent) (v : Word)
  /-- SAF_STORE_DONE (R229): A store ends and its result is written to SAF_STORE_STAT. -/
  | safStoreDone (img : SafetyImage) (crcA crcB flashOk : Bool)
  /-- SAF_LOAD (R230): Software reloads the selected safety set in READY. -/
  | safLoad (ag : Agent) (v : Word)
  /-- SEAL_SW_ACCEPT (R326): A seal switch line is stable for 10 ms and its level is accepted. -/
  | sealSwAccept (line : Fin 8) (level : Bool)
  /-- SEAL_OPEN (R232): The seal opens on a correct T40 password, or the attempt fails and is counted. -/
  | sealOpen (ag : Agent)
  /-- SEAL_CLOSE (R232): Software closes the T40 seal. -/
  | sealClose (ag : Agent)
  /-- PASSWORD_SET (R232): The T40 password is replaced while the seal is open. -/
  | passwordSet (ag : Agent)
  /-- SEAL_TIMEOUT (R232): 600 s pass without an accepted write and the T40 seal closes. -/
  | sealTimeout
  /-- PASSWORD_LOCKOUT_END (R232): The 60 s lockout after five failures ends. -/
  | passwordLockoutEnd
  /-- METHOD_CHANGE_REQ (R231): Software requests a change of the seal method for the next SELFTEST. -/
  | methodChangeReq (ag : Agent) (v : Word)
  /-- SAF_LOG_CLR (R234): Software frees exported change-log entries. -/
  | safLogClr (ag : Agent) (v : Word)
  /-- TEST_TRIP (R217): Channel A commands a Flint test trip. -/
  | testTrip (ag : Agent) (opened : Bool)
  /-- FLINT_ARM (R217): Channel A arms Flint with a fresh seed. -/
  | flintArm (ag : Agent) (seed : BitVec 16)
  /-- FLINT_TRIP_CMD (R216): Channel A commands Flint to trip. -/
  | flintTripCmd (ag : Agent)
  /-- FLINT_HEARTBEAT (R216): Flint receives a heartbeat and judges it valid or trips on it. -/
  | flintHeartbeat (word : Word) (cycles : Nat)
  /-- FLINT_TIMEOUT (R216): No valid heartbeat arrives within 1.75 × FLT_PERIOD and Flint trips. -/
  | flintTimeout
  /-- FLINT_OSC_FAULT (R216): Flint's oscillator deviates by more than 5 % and Flint trips. -/
  | flintOscFault
  /-- FLINT_REARM (R217): Without the latch, Flint returns to ARMED after 8 valid heartbeats. -/
  | flintRearm
  /-- REF (R245): A reference message is received and the node takes its reference instant and corrections. -/
  | refFrame (p : Fin 4) (lane : Lane) (f : RefMsg) (ok : Bool) (egress stamp : Nat)
  /-- CYC_OUT (R261): A node receives its cyclic command frame. -/
  | cycOut (p : Fin 4) (h : OutHeader) (pay : List (BitVec 8)) (okA okB : BitVec 8)
  /-- CYC_IN (R259): The master end receives a node's cyclic status frame into the gather buffer. -/
  | cycIn (p : Fin 4) (n : Fin 64) (h : InHeader) (pay : List (BitVec 8)) (okA okB : BitVec 8)
  /-- SAFE_OUT (R264): A node receives its safety command frame. -/
  | safeOut (p : Fin 4) (pay : BitVec 256) (ok : LaneOk)
  /-- SAFE_IN (R263): Channel A accepts or rejects a node's safety status frame. -/
  | safeIn (p : Fin 4) (n : Fin 64) (h : InHeader) (pay : BitVec 256) (okA okB : Bool)
  /-- TRUMP (R258): A granted node's alarm frame is placed in the alarm store. -/
  | trumpFrame (p : Fin 4) (n : Fin 64) (lane : Lane) (data : List (BitVec 8)) (h : RxHead)
  /-- BULK (R257): A bulk frame is received. -/
  | bulkFrame (p : Fin 4) (n : Fin 256) (lane : Lane) (f : BulkIn) (h : RxHead)
  /-- BULK_ACK (R257): A bulk acknowledgement bitmap is received. -/
  | bulkAck (p : Fin 4) (n : Fin 256) (lane : Lane) (acks : List (BitVec 16 × BitVec 16)) (h : RxHead)
  /-- CLAIM (R248): A claim frame is received and compared with the station's own claim. -/
  | claimFrame (p : Fin 4) (lane : Lane) (src prio : BitVec 8) (devId : BitVec 48) (h : RxHead)
  /-- RQ (R255): A node receives a retry request naming its blocks. -/
  | rqFrame (p : Fin 4) (entries : List RingBlock)
  /-- RTY (R255): A re-sent block is received. -/
  | rtyFrame (p : Fin 4) (blk : RingBlock) (data : List (BitVec 8)) (ok : LaneOk)
  /-- BACKUP_TAKEOVER (R246): A backup misses REFs at two boundaries and sends REFs as time master. -/
  | backupTakeover (p : Fin 4)
  /-- LISTEN_END (R248): LISTEN_N cycles pass without a valid REF and the port enters CLAIM. -/
  | listenEnd (p : Fin 4)
  /-- CLAIM_WON (R248): The port's own claim returns unbeaten three times; it sends its first REF and enters INIT. -/
  | claimWon (p : Fin 4)
  /-- DESCRIPTOR_REPLY (R284): A node's descriptor frame answers a discovery poll. -/
  | descriptorReply (p : Fin 4) (n : Fin 64) (lane : LaneAt) (d : List Word)
  /-- NODE_SILENCE (R254): After 4 lost cycles a node silences itself. -/
  | nodeSilence (p : Fin 4)
  /-- RQ_LAUNCH (R255): At the end of the IN window the master end lists the failed blocks and sends the RQ. -/
  | rqLaunch (p : Fin 4)
  /-- ORT_LAUNCH (R256): The master end re-sends the outbound blocks that returned invalid. -/
  | ortLaunch (p : Fin 4) (bad : List RingBlock)
  /-- BULK_WINDOW (R257): The bulk window opens: the master share and the granted nodes send bulk frames. -/
  | bulkWindow (p : Fin 4) (room : Nat)
  /-- PORT_GATHER_COMPLETE (R259): At the IRT end plus 200 ns the port completes its share of G. -/
  | portGatherComplete (p : Fin 4)
  /-- NODE_LOST (R259): MISS_RUN reaches MISS_N, so the node is LOST and an alarm is raised. -/
  | nodeLost (p : Fin 4) (n : Fin 64)
  /-- RNG_SOFT_FLIP (R265): Software selects the software output buffer copy for the next OUT launch. -/
  | rngSoftFlip (ag : Agent) (p : Fin 4) (copy : Bool)
  /-- RNG_BULK_TAIL (R257): Software queues bulk descriptors by advancing the tail. -/
  | rngBulkTail (ag : Agent) (p : Fin 4) (v : Word)
  /-- PORT_ENABLE (R268): A write of RNG_CTRL.EN takes a port down or restarts it in LISTEN. -/
  | portEnable (ag : Agent) (p : Fin 4) (v : Word)
  /-- TRAIN_PASSED (R276): A lane passes TRAIN in loopback. -/
  | trainPassed (p : Fin 4) (lane : Lane)
  /-- TRAIN_TIMEOUT (R276): TRAIN times out and the lane enters FAIL. -/
  | trainTimeout (p : Fin 4) (lane : Lane)
  /-- BYPASS_SETTLED (R276): BYP_SETTLE elapses after the bypass opens and JOIN starts. -/
  | bypassSettled (p : Fin 4) (lane : Lane)
  /-- JOIN_PASSED (R276): The lane locks on its neighbour's stream and enters MEASURE. -/
  | joinPassed (p : Fin 4) (lane : Lane)
  /-- JOIN_TIMEOUT (R276): JOIN times out and the lane enters FAIL. -/
  | joinTimeout (p : Fin 4) (lane : Lane)
  /-- MEASURE_MARKER (R279): A returned measuring marker gives one round-trip sample; a neighbour's is returned. -/
  | measureMarker (p : Fin 4) (m : Marker)
  /-- MEASURE_DONE (R279): 256 exchanges complete and the lane enters UP with its hop RTT. -/
  | measureDone (p : Fin 4) (lane : Lane) (loss : Nat)
  /-- MEASURE_TIMEOUT (R276): MEASURE times out and the lane enters FAIL. -/
  | measureTimeout (p : Fin 4) (lane : Lane)
  /-- LANE_LOSS (R278): A lane in UP loses signal or block lock, enters FAIL and closes its bypass. -/
  | laneLoss (p : Fin 4) (lane : Lane) (lock : Bool)
  /-- LINK_RETRY_EXPIRY (R278): LINK_RETRY elapses and the lane trains again. -/
  | linkRetryExpiry (p : Fin 4) (lane : Lane)
  /-- ENCODER_EDGE (R294): An accepted edge of A or B is counted and stamped. -/
  | encoderEdge (e : Fin 16) (a b : Bool) (stamp : Nat)
  /-- INDEX_EDGE (R296): A Z edge latches the count. -/
  | indexEdge (e : Fin 16) (z : Bool) (stamp : Nat)
  /-- LINE_FAULT (R295): A receiver line stays below threshold for over 1 µs, so WIRE is set and an alarm is raised. -/
  | lineFault (e : Fin 16) (line : Fin 3) (present : Bool)
  /-- HALL_TRANSITION (R298): A filtered Hall code change is counted or flagged. -/
  | hallTransition (h : Fin 8) (code : Fin 8) (stamp : Nat)
  /-- SSI_FRAME_DONE (R300): An SSI frame completes and is judged good or bad. -/
  | ssiFrameDone (c : Fin 8) (data : BitVec 48) (extra : BitVec 8) (idleHigh mono : Bool)
  /-- STEP_PULSE (R306): A scheduled step pulse rises at its instant and n_out counts it. -/
  | stepPulse (n : Fin 16)
  /-- DI_SAMPLE (R311): A 2 µs sampling window reads and tests every input. -/
  | diSample (j : Fin 16) (x : FieldSample)
  /-- COUNT_EDGE (R315): A counting input counts and stamps a selected edge. -/
  | countEdge (i : Fin 8) (rising : Bool) (stamp : Nat)
  /-- CHECKED_WORD (R318): The field die receives the checked output word of the tick. -/
  | checkedWord
  /-- CMD_LOSS (R319): No checked word arrives within 1.5 ticks and every output switches off. -/
  | cmdLoss
  /-- OUTPUT_OVERLOAD (R321): An output in current limit for OVL_T or in thermal shutdown switches off and sets OVL. -/
  | outputOverload (i : Fin 16)
  /-- OVERLOAD_RETRY (R321): 10 ms after an overload switch-off, the output retries. -/
  | overloadRetry (i : Fin 16) (holds : Bool)
  /-- OPEN_LOAD (R320): An on-state or off-state open-load check sets OPEN_ON or OPEN_OFF. -/
  | openLoad (i : Fin 16) (off : Bool)
  /-- LP_UNDERVOLTAGE (R324): L+ falls below its threshold and the group's outputs switch off. -/
  | lpUndervoltage (g : Fin 2)
  /-- LP_RECOVERY (R324): L+ stays above the rising threshold for LP_RECOV and the outputs follow again. -/
  | lpRecovery (g : Fin 2)
  /-- LP_OVERVOLTAGE (R324): L+ rises above its overvoltage threshold and an alarm is raised. -/
  | lpOvervoltage (g : Fin 2)
  /-- VCC_F_LOSS (R325): VCC_F falls below 2.9 V, so the field die resets and Flint trips. -/
  | vccFLoss
  /-- VCC_F_RECOVERY (R325): VCC_F returns, and the outputs stay off until a checked word arrives. -/
  | vccFRecovery
  /-- ETH_FRAME_RX (R330): A received Ethernet frame is stamped, filtered and placed in its ring, or dropped. -/
  | ethFrameRx (p : Fin 2) (f : EthFrame)
  /-- ETH_TX_COMPLETE (R333): A transmitted frame completes with its egress stamp and status. -/
  | ethTxComplete (p : Fin 2) (q : Fin 8) (raw : Int) (held : Bool)
  /-- ETH_LINK_DOWN (R329): An Ethernet link is lost, so LINK is 0, the loss is counted and an event raised. -/
  | ethLinkDown (p : Fin 2)
  /-- ETH_RXR_TAIL (R332): Software hands receive descriptors to the port. -/
  | ethRxrTail (ag : Agent) (p : Fin 2) (q : Fin 8) (v : Word)
  /-- ETH_TXR_TAIL (R332): Software hands transmit descriptors to the port. -/
  | ethTxrTail (ag : Agent) (p : Fin 2) (q : Fin 8) (v : Word)
  /-- BAR_ACCESS (R340): A host access through a BAR is performed or completed without effect. -/
  | barAccess (bar : Fin 6) (ofs len : Nat) (write : Option (List (BitVec 8)))
  /-- PCIE_ENDPOINT_RESET (R341): PERST#, a hot reset, a function-level reset or a link loss resets only the endpoint. -/
  | pcieEndpointReset (linkLoss : Bool)
  /-- FLASH_WRITE (R344): Software writes or erases boot flash, refused in the protected regions. -/
  | flashWrite (ag : Agent) (addr len : Nat) (data : Option (List (BitVec 8)))
  /-- JTAG_INSTRUCTION (R347): A JTAG instruction is accepted or behaves as BYPASS. -/
  | jtagInstruction (i : JtagInstr)
  /-- INTERLOCK_TAKE (R353): A unit finding the interlock released drives ILK_OWN_n low. -/
  | interlockTake
  /-- INTERLOCK_CHECK (R353): 2 µs later the unit reads ILK_PEER_n again and holds the interlock or retreats. -/
  | interlockCheck
  /-- INTERLOCK_RETRY (R353): After 10 or 30 µs a retreated unit may try again. -/
  | interlockRetry
  /-- START_WAIT_EXPIRY (R355): The interlock has stayed released for START_WAIT and a PREF = 0 unit tries to take it. -/
  | startWaitExpiry
  /-- LEASE_EXPIRY (R354): The lease runs out, so ILK_OWN_n is released and the ports enter FOREIGN. -/
  | leaseExpiry
  /-- MIRROR_FRAME (R356): The standby receives mirrored inputs of a tick. -/
  | mirrorFrame (m : MirrorFrame) (image : Option SyncImage)
  /-- TWIN_HEARTBEAT (R358): The standby receives the heartbeat frame and compares digests. -/
  | twinHeartbeat (b : TwinBeat)
  /-- HEARTBEAT_CHECK (R363): At the active unit's E launch plus 10 µs, the standby checks both heartbeat paths. -/
  | heartbeatCheck
  /-- SYNC (R359): Software on the active unit starts a sync of the standby. -/
  | syncOp (ag : Agent)
  /-- AUTO_SYNC_START (R359): The active unit starts a sync itself when the peer reports SOLO. -/
  | autoSyncStart
  /-- SYNC_CAUGHT_UP (R359): The standby reaches the present tick and enters STANDBY after a matching digest. -/
  | syncCaughtUp (digestOk : Bool)
  /-- SYNC_TIMEOUT (R359): A sync is not complete within SYNC_TMO and fails. -/
  | syncTimeout
  /-- RESIGN (R364): The active unit resigns to an eligible peer. -/
  | resign (cause : ResignCause)
  /-- HEALTH_WORD (R361): The active unit receives the standby's health word. -/
  | healthWord (w : Word)
  /-- STANDBY_FLINT_TEST (R361): Every FLT_S seconds the standby repeats the Flint test trip. -/
  | standbyFlintTest (opened : Bool) (seed : BitVec 16)
  /-- PARALLEL_HOLD_END (R366): The hold on paralleled outputs ends and they follow their commands. -/
  | parallelHoldEnd
  /-- TWIN_ALARM_MIRROR (R397): A change of the peer's alarm store is written into the peer store. -/
  | twinAlarmMirror (entry : Fin 1024) (ws : List Word)
  /-- SCRUB_READ (R372): The scrubber reads one word of a bank. -/
  | scrubRead (mem : Fin 256) (addr : Word) (ecc : Ecc)
  /-- ECC_WRITE_BACK (R369): A corrected word is written back in the next free bank cycle. -/
  | eccWriteBack (mem : Fin 256) (addr : Word) (cancelled : Bool)
  /-- DDR_SCRUB (R375): The DRAM patrol scrubber reads one burst. -/
  | ddrScrub (addr : Word) (ecc : Ecc)
  /-- FABRIC_NAK (R376): A NAKed block is re-sent in order. -/
  | fabricNak (link : Fin 256) (resends : Fin 4) (load : FabricLoad)
  /-- CDC_STALL_TIMEOUT (R381): A sender stalled 4,096 cycles drops its event and raises an alarm. -/
  | cdcStallTimeout (sender receiver : Fin 16)
  /-- CROSSING_REARM (R385): After a one-sided reset, a crossing re-arms and counts its losses. -/
  | crossingRearm (sender receiver : Fin 16) (lost : Nat)
  /-- TEMP_SAMPLE (R387): Region temperatures are measured and DT_HIGH updated. -/
  | tempSample (t : RegionTemps)
  /-- RAISING_RECEIVE (R392): The event unit takes in a page's raisings over its crossing. -/
  | raisingReceive (page : Nat)
  /-- EVENT_RECORD_WRITE (R398): An event slot is written to the ring after COAL_WIN once a record is free. -/
  | eventRecordWrite (page : Nat)
  /-- EVT_ALM_ACK (R395): Software acknowledges an alarm entry with its count; the entry is freed or the acknowledgement refused. -/
  | evtAlmAck (ag : Agent) (entry : Fin 1024) (count : Word)
  /-- EVT_EVR_TAIL (R399): Software frees event ring records. -/
  | evtEvrTail (ag : Agent) (v : Word)
  /-- EVT_TRC_RD (R402): Software advances the trace read pointer. -/
  | evtTrcRd (ag : Agent) (v : Word)
  /-- EVT_TRC_SW (R400): A core writes a software trace record. -/
  | evtTrcSw (core : Fin 4) (typ : BitVec 8) (w4 w5 w6 w7 : Word)
  /-- TRACE_DRAIN (R401): The trace writer drains a FIFO record, or a gap marker, into the trace ring. -/
  | traceDrain (src : Fin 128)
  /-- REGISTER_WRITE (R466): A write to a register without its own row is judged against rights, state and check conditions, and accepted or refused. -/
  | registerWrite (ag : Agent) (addr : Nat) (wide : Bool) (v : BitVec 64)
  /-- RC_READ (R434): A read of an RC register returns its value and resets it. -/
  | rcRead (ag : Agent) (addr : Nat)
  /-- PG_IRQ_SET (R442): Software sets PG_IRQ_RAW bits, which raises the page line only. -/
  | pgIrqSet (ag : Agent) (page : Nat) (v : Word)
  /-- PG_IRQ_RAW_CLEAR (R444): Software clears PG_IRQ_RAW bits, and the routed vectors are evaluated again. -/
  | pgIrqRawClear (ag : Agent) (page : Nat) (v : Word)
  /-- PG_CTRL_WRITE (R445): Software re-routes a page line to a vector and its targets. -/
  | pgCtrlWrite (ag : Agent) (page : Nat) (v : Word)
  /-- PG_LOCK (R440): Software sets lock bits that refuse later writes until reset. -/
  | pgLock (ag : Agent) (page : Nat) (v : Word)
  /-- PLL_LOCK_LOSS (R446): A PLL loses lock while its domain is powered, so LOCK_LOST is set and an alarm is raised, with the effect of a stopped or wrong clock on its units. -/
  | pllLockLoss (pll : Fin 8)
  /-- REFERENCE_FAIL (R446): The 25 MHz or 156.25 MHz reference leaves its window, so REF_FAIL is set and an alarm is raised. -/
  | referenceFail (ref : Fin 2)
  /-- ETH_LINK_UP (R329): An Ethernet port's link comes up, with auto-negotiation complete, so LINK is set to 1 and a change of link is raised. -/
  | ethLinkUp (p : Fin 2) (rate : Fin 4) (anDone : Bool)
  /-- PCIE_LINK_UP (R444): The PCIe link trains and comes up, so LINK_UP is set and the asserted vectors send their MSI-X messages. -/
  | pcieLinkUp (speed width : Fin 8)
  /-- ILK_PEER_CHANGE (R353): The peer drives or releases ILK_PEER_n: a holder that reads it asserted sets CONFLICT, and under DETECT = SELF a standby recognises failure on its release. -/
  | ilkPeerChange (low : Bool)
  /-- TWIN_HB_I_TOGGLE (R363): TWIN_HB_I toggles and the standby notes that the pin path is present until its next check. -/
  | twinHbIToggle
  /-- PROOF_TEST_GRACE_EXPIRY (R223): The proof test becomes overdue by more than SAF_PT_GRACE hours, and START_OK goes to 0. -/
  | proofTestGraceExpiry
  deriving DecidableEq, Repr

end Sys2Proof
end

