-- ==== Sys2Proof/Decode.lean ====
section
/-! DEFINITION. The decoder of a motion engine's bundles, rules R73 and R74 (spec/03_motion_engines.md), and that of the words of the
spec's table, which gives no row any bits: no word spells a command. -/

namespace Sys2Proof

/-- The command that a word spells by the table's bits. spec/opcode_table.json gives bits to none of its rows: none. -/
def decodeTableWord (_nbits _w : Nat) : Option Instr := none

/-! ### Bundles, rules R73 and R74 -/

open Machine (reservedBundle)

/-- A number as an operand of `n` values. -/
def opnd (n : Nat) [NeZero n] (v : Nat) : Fin n := Fin.ofNat n v

/-- The MAC slot: op 61:56, n 55:54, a 53:49, b 48:44. -/
def decodeMac (e : Fin 64) (fin : Bool) (w : Nat) : Instr :=
  let n := opnd 4 (bitsOf w 55 54)
  let a := opnd 32 (bitsOf w 53 49)
  let b := opnd 32 (bitsOf w 48 44)
  match bitsOf w 61 56 with
  | 0x01 => .mpy e fin n a b
  | 0x02 => .mac e fin n a b
  | 0x03 => .msu e fin n a b
  | 0x04 => .mpyu e fin n a b
  | 0x05 => .macu e fin n a b
  | 0x06 => .mach e fin n a b
  | 0x07 => .qmpy e fin a b
  | 0x08 => .qmac e fin a b
  | 0x09 => .cmpy e fin n a b
  | 0x0A => .cmac e fin n a b
  | 0x0B => .cmacj e fin n a b
  | 0x0C => .aclr e fin n
  | 0x0D => .aadd e fin n (opnd 4 (bitsOf w 45 44))
  | 0x0E => .ash e fin n (BitVec.ofNat 5 (bitsOf w 48 44))
  | 0x0F => .expa e fin n a
  | _ => .nop e 0 fin

/-- A move slot whose bit 0 is bit `lo`: op 14:10, and the operands of its form. An access meets no error: what it meets is the memory's. -/
def decodeMov (e : Fin 64) (second fin : Bool) (w lo : Nat) : Instr :=
  let d := opnd 32 (bitsOf w (lo + 9) (lo + 5))
  let r := opnd 32 (bitsOf w (lo + 4) lo)
  let x := opnd 8 (bitsOf w (lo + 4) (lo + 2))
  let mode := opnd 4 (bitsOf w (lo + 1) lo)
  let acc := opnd 4 (bitsOf w (lo + 4) (lo + 3))
  let form := opnd 8 (bitsOf w (lo + 2) lo)
  match bitsOf w (lo + 14) (lo + 10) with
  | 0x01 => .mov e second fin d r
  | 0x02 => .movp e second fin d r
  | 0x03 => .ld e second fin d x mode .clean
  | 0x04 => .st e second fin d x mode .clean
  | 0x05 => .ldp e second fin d x mode .clean
  | 0x06 => .stp e second fin d x mode .clean
  | 0x07 => .mva e second fin d acc form
  | 0x08 => .mav e second fin d acc form
  | 0x09 => .add e second fin d r
  | 0x0A => .adds e second fin d r
  | 0x0B => .sub e second fin d r
  | 0x0C => .subs e second fin d r
  | 0x0D => .addp e second fin d r
  | 0x0E => .subp e second fin d r
  | 0x0F => .andOp e second fin d r
  | 0x10 => .orOp e second fin d r
  | 0x11 => .xorOp e second fin d r
  | 0x12 => .sra e second fin d r
  | 0x13 => .srar e second fin d r
  | 0x14 => .sll e second fin d r
  | 0x15 => .srl e second fin d r
  | 0x16 => .cmp e second fin d r
  | 0x17 => .exp e second fin d r
  | 0x18 => .norm e second fin d r
  | 0x19 => .movx e second fin d r
  | 0x1A => .movd e second fin d r
  | 0x1B => .minOp e second fin d r
  | 0x1C => .maxOp e second fin d r
  | 0x1D => .absOp e second fin d r
  | 0x1E => .addi e second fin d (BitVec.ofNat 5 (bitsOf w (lo + 4) lo))
  | _ => .nop e (if second then 2 else 1) fin

/-- The control slot, bits 13:0. -/
def decodeCtl (e : Fin 64) (fin : Bool) (w : Nat) : Instr :=
  let r := opnd 32 (bitsOf w 9 5)
  match bitsOf w 13 10 with
  | 0x1 => .br e fin (BitVec.ofNat 10 (bitsOf w 9 0))
  | 0x2 => .bcc e fin (opnd 8 (bitsOf w 9 7)) (BitVec.ofNat 7 (bitsOf w 6 0))
  | 0x3 => .take e fin
  | 0x4 => .doneOp e fin
  | 0x5 => .setf e fin r
  | 0x6 => .pen e fin
  | 0x7 => .pdis e fin
  | 0x8 => .rte e fin
  | 0x9 => .jr e fin r
  | 0xA => .loopr e fin (opnd 2 (bitsOf w 9 9)) (opnd 32 (bitsOf w 8 4)) (opnd 16 (bitsOf w 3 0))
  | 0xB => .rdcyc e fin r
  | 0xC => .rdeng e fin r
  | 0xD => .clrs e fin
  | 0xE => .ret e fin
  | 0xF => .yield e fin
  | _ => .nop e 3 fin

/-- The long control slot, bits 28:0. -/
def decodeLong (e : Fin 64) (fin : Bool) (w : Nat) : Instr :=
  let d := opnd 32 (bitsOf w 23 19)
  let c := opnd 32 (bitsOf w 18 14)
  match bitsOf w 28 24 with
  | 0x01 => .lbr e fin (BitVec.ofNat 24 w)
  | 0x02 => .lcall e fin (BitVec.ofNat 24 w)
  | 0x03 => .loopImm e fin (opnd 2 (bitsOf w 23 23)) (BitVec.ofNat 11 (bitsOf w 22 12)) (BitVec.ofNat 12 (bitsOf w 11 0))
  | 0x04 => .mvs e fin c d
  | 0x05 => .msv e fin d c
  | 0x06 => .shi e fin (opnd 4 (bitsOf w 23 22)) (BitVec.ofNat 7 (bitsOf w 6 0))
  | _ => .nop e 3 fin

/-- The immediate slot, bits 43:0. -/
def decodeImm (e : Fin 64) (fin : Bool) (w : Nat) : Instr :=
  let c := opnd 32 (bitsOf w 36 32)
  match bitsOf w 43 37 with
  | 0x01 => .movi e fin c (BitVec.ofNat 32 w)
  | 0x02 => .movix e fin c (BitVec.ofNat 32 w)
  | _ => .nop e 1 fin

/-- The operations of a 64-bit bundle of engine `e`, by the layout that its header selects, the last one ending the bundle; none for a
bundle with a reserved encoding, which raises fault 0x01. -/
def decodeBundle (e : Fin 64) (w : Nat) : Option (List Instr) :=
  if reservedBundle w then none
  else
    match bitsOf w 63 62 with
    | 0 => some [decodeMac e false w, decodeMov e false false w 29, decodeMov e true false w 14, decodeCtl e true w]
    | 1 => some [decodeMac e false w, decodeMov e false false w 29, decodeLong e true w]
    | _ => some [decodeMac e false w, decodeImm e true w]

end Sys2Proof
end

