-- ==== Sys2Proof/Machine/RegMap.lean ====
section
/-! DEFINITION. The register map: where every register of the part lies (rules R430, R431 and the page tables of
spec/01 to spec/19), which of its bits software may write and how (the field types of rule R432), and the value
each register holds at reset. A register is named as the spec names it; an array register takes its index, and a
register of a page that exists several times takes the page's instance first. Addresses are bus addresses. -/

namespace Sys2Proof.Machine

/-- How a register word answers a write and a read, rule R432: `plain` words hold RW, RO, W1C and W1S fields,
`writeOnly` words read 0 and start an action, `readClear` words (RC) are reset by a read, `seal` words are RWS. -/
inductive RegKind where
  | plain
  | writeOnly
  | readClear
  | seal
  deriving DecidableEq, Repr

/-- One 32-bit word of a register, or of each element of an array register: its first offset in the page, the
distance and number of its elements, the masks of the bits that a write replaces (RW, RWS), clears by 1 (W1C) and
sets by 1 (W1S), its kind, and its reset value. -/
structure RegRow where
  off : Nat
  stride : Nat
  count : Nat
  rw : Nat
  w1c : Nat
  w1s : Nat
  kind : RegKind
  reset : Nat
  deriving DecidableEq, Repr

/-- The types of register page, rule R430: one for each layout. -/
inductive PageKind where
  | sys | pwr | clk | qtz | dlr | sol | ssm | saf | flt | fio | fbk | pci | twn | mem | evt | cdc | dbg
  | rng | eth | eng | lax | prf | prfg | loop
  deriving DecidableEq, Repr

/-- How many bits of PG_IRQ_RAW the chapter of a page defines, from bit 0 upward. -/
def PageKind.irqBits : PageKind → Nat
  | .sys => 7
  | .pwr => 6
  | .clk => 2
  | .qtz => 7
  | .dlr => 6
  | .sol => 5
  | .ssm => 4
  | .saf => 8
  | .flt => 3
  | .fio => 8
  | .fbk => 5
  | .pci => 3
  | .twn => 8
  | .mem => 7
  | .evt => 7
  | .cdc => 4
  | .dbg => 2
  | .rng => 13
  | .eth => 6
  | .eng => 4
  | .lax => 4
  | .prf => 7
  | .prfg => 3
  | .loop => 7

/-- The page kind, the PG_ID TYPE code and the instance of a page number; none where the page is absent. Rule R430. -/
def pageKind (p : Nat) : Option (PageKind × Nat × Nat) :=
  if p = 0x000 then some (.sys, 0x01, 0)
  else if p = 0x001 then some (.pwr, 0x02, 0)
  else if p = 0x002 then some (.clk, 0x03, 0)
  else if p = 0x003 then some (.qtz, 0x04, 0)
  else if p = 0x004 then some (.dlr, 0x05, 0)
  else if p = 0x005 then some (.sol, 0x07, 0)
  else if p = 0x006 then some (.ssm, 0x0B, 0)
  else if p = 0x007 then some (.saf, 0x0C, 0)
  else if p = 0x008 then some (.flt, 0x0D, 0)
  else if p = 0x009 then some (.fio, 0x0E, 0)
  else if p = 0x00A then some (.fbk, 0x0F, 0)
  else if p = 0x00B then some (.pci, 0x13, 0)
  else if p = 0x00C then some (.twn, 0x14, 0)
  else if p = 0x00D then some (.mem, 0x15, 0)
  else if p = 0x00E then some (.evt, 0x16, 0)
  else if p = 0x00F then some (.cdc, 0x17, 0)
  else if p = 0x010 then some (.dbg, 0x18, 0)
  else if 0x020 ≤ p ∧ p ≤ 0x023 then some (.rng, 0x11, p - 0x020)
  else if 0x024 ≤ p ∧ p ≤ 0x025 then some (.eth, 0x12, p - 0x024)
  else if 0x040 ≤ p ∧ p ≤ 0x07F then some (.eng, 0x06, p - 0x040)
  else if 0x080 ≤ p ∧ p ≤ 0x08F then some (.lax, 0x10, p - 0x080)
  else if 0x100 ≤ p ∧ p ≤ 0x18F then some (.prf, 0x08, p - 0x100)
  else if 0x190 ≤ p ∧ p ≤ 0x19F then some (.prfg, 0x09, p - 0x190)
  else if 0x200 ≤ p ∧ p ≤ 0x28F then some (.loop, 0x0A, p - 0x200)
  else none

/-- The first bus address of a page: every register page is 4 KiB, from 0x4000_0000. -/
def pageBase (p : Nat) : Nat := 0x40000000 + 0x1000 * p

/-- The page number of a bus address; outside the register pages' window, a number that no page has. -/
def pageOf (addr : Nat) : Nat := if addr / 0x40000000 = 1 then addr % 0x40000000 / 0x1000 else 0xFFFFF

/-- The offset of an address within its page. -/
def pageOff (addr : Nat) : Nat := addr % 0x1000

namespace Page

/-- Page number of the SYS page. -/
abbrev SYS : Nat := 0x0
/-- Page number of the PWR page. -/
abbrev PWR : Nat := 0x1
/-- Page number of the CLK page. -/
abbrev CLK : Nat := 0x2
/-- Page number of the QTZ page. -/
abbrev QTZ : Nat := 0x3
/-- Page number of the DLR page. -/
abbrev DLR : Nat := 0x4
/-- Page number of the SOL page. -/
abbrev SOL : Nat := 0x5
/-- Page number of the SSM page. -/
abbrev SSM : Nat := 0x6
/-- Page number of the SAF page. -/
abbrev SAF : Nat := 0x7
/-- Page number of the FLT page. -/
abbrev FLT : Nat := 0x8
/-- Page number of the FIO page. -/
abbrev FIO : Nat := 0x9
/-- Page number of the FBK page. -/
abbrev FBK : Nat := 0xa
/-- Page number of the PCI page. -/
abbrev PCI : Nat := 0xb
/-- Page number of the TWN page. -/
abbrev TWN : Nat := 0xc
/-- Page number of the MEM page. -/
abbrev MEM : Nat := 0xd
/-- Page number of the EVT page. -/
abbrev EVT : Nat := 0xe
/-- Page number of the CDC page. -/
abbrev CDC : Nat := 0xf
/-- Page number of the DBG page. -/
abbrev DBG : Nat := 0x10
/-- Page number of RNG page `i`. -/
abbrev RNG (i : Nat) : Nat := 0x20 + i
/-- Page number of ETH page `i`. -/
abbrev ETH (i : Nat) : Nat := 0x24 + i
/-- Page number of ENG page `i`. -/
abbrev ENG (i : Nat) : Nat := 0x40 + i
/-- Page number of LAX page `i`. -/
abbrev LAX (i : Nat) : Nat := 0x80 + i
/-- Page number of PRF page `i`. -/
abbrev PRF (i : Nat) : Nat := 0x100 + i
/-- Page number of PRFG page `i`. -/
abbrev PRFG (i : Nat) : Nat := 0x190 + i
/-- Page number of LOOP page `i`. -/
abbrev LOOP (i : Nat) : Nat := 0x200 + i

end Page

namespace Reg


/-! The QTZ registers, rule R54 of 02_tick_and_time.md. -/

abbrev QTZ_TICK : Nat := 0x40003100
abbrev QTZ_TICK_OFS : Nat := 0x40003104
abbrev QTZ_SYNC_TMO : Nat := 0x40003108
abbrev QTZ_PH (i : Nat) : Nat := 0x40003110 + 8 * i
abbrev QTZ_PORT (i : Nat) : Nat := 0x40003200 + 16 * i
abbrev QTZ_TIME_INC : Nat := 0x40003800
abbrev QTZ_TIME_NS : Nat := 0x40003808
abbrev QTZ_TIME_FRAC : Nat := 0x40003810
abbrev QTZ_STEP : Nat := 0x40003818
abbrev QTZ_TIME_CTRL : Nat := 0x40003820
abbrev QTZ_TICK_NUM : Nat := 0x40003828
abbrev QTZ_LAST_TICK : Nat := 0x40003830
abbrev QTZ_STAT : Nat := 0x40003838
abbrev QTZ_PH_OVR : Nat := 0x4000383c
abbrev QTZ_PH_END (i : Nat) : Nat := 0x40003840 + 4 * i
abbrev QTZ_PH_MAX (i : Nat) : Nat := 0x40003860 + 4 * i
abbrev QTZ_PH_OVR_CNT (i : Nat) : Nat := 0x40003880 + 4 * i
abbrev QTZ_LATE_WR_CNT : Nat := 0x400038a0
abbrev QTZ_INC_REF_CNT : Nat := 0x400038a4
abbrev QTZ_PH_SPILL : Nat := 0x400038a8

/-! The ENG registers, rule R85 of 03_motion_engines.md. -/

abbrev ENG_CTRL (n : Nat) : Nat := 0x40040100 + 0x1000 * n
abbrev ENG_CODE_LOCK (n : Nat) : Nat := 0x40040104 + 0x1000 * n
abbrev ENG_STAT (n : Nat) : Nat := 0x40040800 + 0x1000 * n
abbrev ENG_TASK (n : Nat) : Nat := 0x40040804 + 0x1000 * n
abbrev ENG_EPC (n : Nat) : Nat := 0x40040808 + 0x1000 * n
abbrev ENG_FPC (n : Nat) : Nat := 0x4004080c + 0x1000 * n
abbrev ENG_FADDR (n : Nat) : Nat := 0x40040810 + 0x1000 * n
abbrev ENG_BUSY_CNT (n : Nat) : Nat := 0x40040820 + 0x1000 * n
abbrev ENG_TASK_CNT (n : Nat) : Nat := 0x40040828 + 0x1000 * n
abbrev ENG_STEAL_CNT (n : Nat) : Nat := 0x4004082c + 0x1000 * n
abbrev ENG_PRE_CNT (n : Nat) : Nat := 0x40040830 + 0x1000 * n
abbrev ENG_STALL_CNT (n : Nat) : Nat := 0x40040834 + 0x1000 * n
abbrev ENG_SAT_CNT (n : Nat) : Nat := 0x40040838 + 0x1000 * n
abbrev ENG_FAULT_CNT (n : Nat) : Nat := 0x4004083c + 0x1000 * n
abbrev ENG_CWR_REF_CNT (n : Nat) : Nat := 0x40040840 + 0x1000 * n

/-! The DLR registers, rule R106 of 04_dealer.md. -/

abbrev DLR_CTRL : Nat := 0x40004100
abbrev DLR_CORE_TMO : Nat := 0x40004104
abbrev DLR_CTX_CHECK : Nat := 0x40004108
abbrev DLR_FLOW (i : Nat) : Nat := 0x40004200 + 16 * i
abbrev DLR_CTX_SEL : Nat := 0x40004800
abbrev DLR_CTX_W (i : Nat) : Nat := 0x40004840 + 4 * i
abbrev DLR_ARM : Nat := 0x40004880
abbrev DLR_CANCEL : Nat := 0x40004884
abbrev DLR_SETF : Nat := 0x40004888
abbrev DLR_CLRF : Nat := 0x4000488c
abbrev DLR_FLOW_RESET : Nat := 0x40004890
abbrev DLR_CORE_TAKE (i : Nat) : Nat := 0x400048a0 + 8 * i
abbrev DLR_CORE_DONE (i : Nat) : Nat := 0x400048c0 + 4 * i
abbrev DLR_CORE_YIELD (i : Nat) : Nat := 0x400048d0 + 4 * i
abbrev DLR_STAT : Nat := 0x400048e0
abbrev DLR_FLOW_STAT (i : Nat) : Nat := 0x40004900 + 4 * i
abbrev DLR_GRANT_CNT : Nat := 0x40004a00
abbrev DLR_STEAL_CNT : Nat := 0x40004a04
abbrev DLR_CANCEL_CNT : Nat := 0x40004a08
abbrev DLR_DL_CANCEL_CNT : Nat := 0x40004a0c
abbrev DLR_PRE_CNT : Nat := 0x40004a10
abbrev DLR_FAULT_CNT : Nat := 0x40004a14
abbrev DLR_STALE_CNT : Nat := 0x40004a18
abbrev DLR_FLAG_MERGE_CNT : Nat := 0x40004a1c
abbrev DLR_FLOW_BLOCK_CNT : Nat := 0x40004a20
abbrev DLR_SUMS_SAT_CNT : Nat := 0x40004a24
abbrev DLR_EVQ_STALL_CNT : Nat := 0x40004a28
abbrev DLR_OP_REF_CNT : Nat := 0x40004a2c
abbrev DLR_REHOME_CNT : Nat := 0x40004a30
abbrev DLR_CORE_TMO_CNT : Nat := 0x40004a34

/-! The PRF registers, rule R137 of 05_motion_profiles.md. -/

abbrev PRF_CTRL (a : Nat) : Nat := 0x40100100 + 0x1000 * a
abbrev PRF_HOME_CFG (a : Nat) : Nat := 0x40100104 + 0x1000 * a
abbrev PRF_STEP_CFG (a : Nat) : Nat := 0x40100108 + 0x1000 * a
abbrev PRF_CAM_CFG (a : Nat) : Nat := 0x40100190 + 0x1000 * a
abbrev PRF_VMAX (a : Nat) : Nat := 0x40100110 + 0x1000 * a
abbrev PRF_AMAX (a : Nat) : Nat := 0x40100118 + 0x1000 * a
abbrev PRF_DMAX (a : Nat) : Nat := 0x40100120 + 0x1000 * a
abbrev PRF_JMAX (a : Nat) : Nat := 0x40100128 + 0x1000 * a
abbrev PRF_STOP_DEC (a : Nat) : Nat := 0x40100130 + 0x1000 * a
abbrev PRF_STOP_JERK (a : Nat) : Nat := 0x40100138 + 0x1000 * a
abbrev PRF_SOFT_MIN (a : Nat) : Nat := 0x40100140 + 0x1000 * a
abbrev PRF_SOFT_MAX (a : Nat) : Nat := 0x40100148 + 0x1000 * a
abbrev PRF_HOME_VF (a : Nat) : Nat := 0x40100150 + 0x1000 * a
abbrev PRF_HOME_VS (a : Nat) : Nat := 0x40100158 + 0x1000 * a
abbrev PRF_HOME_OFS (a : Nat) : Nat := 0x40100160 + 0x1000 * a
abbrev PRF_HOME_TRAVEL (a : Nat) : Nat := 0x40100168 + 0x1000 * a
abbrev PRF_HOME_HS_ERR (a : Nat) : Nat := 0x40100170 + 0x1000 * a
abbrev PRF_LOCK_PTOL (a : Nat) : Nat := 0x40100178 + 0x1000 * a
abbrev PRF_LOCK_VTOL (a : Nat) : Nat := 0x40100180 + 0x1000 * a
abbrev PRF_CAM_BASE0 (a : Nat) : Nat := 0x40100188 + 0x1000 * a
abbrev PRF_CAM_STEP (a : Nat) : Nat := 0x40100198 + 0x1000 * a
abbrev PRF_CAM_BASE1 (a : Nat) : Nat := 0x401001a0 + 0x1000 * a
abbrev CMP_CTRL (a : Nat) (i : Nat) : Nat := 0x40100840 + 0x1000 * a + 4 * i
abbrev CMP_STAT (a : Nat) : Nat := 0x40100850 + 0x1000 * a
abbrev PRF_STAT (a : Nat) : Nat := 0x40100890 + 0x1000 * a
abbrev PRF_CMP_POS (a : Nat) (i : Nat) : Nat := 0x40100800 + 0x1000 * a + 8 * i
abbrev PRF_CMP_STEP (a : Nat) (i : Nat) : Nat := 0x40100820 + 0x1000 * a + 8 * i
abbrev CMP_FIRE_TIME (a : Nat) (i : Nat) : Nat := 0x40100860 + 0x1000 * a + 8 * i
abbrev CMP_FIRE_CNT (a : Nat) (i : Nat) : Nat := 0x40100880 + 0x1000 * a + 4 * i
abbrev PRF_SETP (a : Nat) : Nat := 0x40100898 + 0x1000 * a
abbrev PRF_VEL (a : Nat) : Nat := 0x401008a0 + 0x1000 * a
abbrev PRF_ACC (a : Nat) : Nat := 0x401008a8 + 0x1000 * a
abbrev PRF_TARGET (a : Nat) : Nat := 0x401008b0 + 0x1000 * a
abbrev PRF_REMAIN (a : Nat) : Nat := 0x401008b8 + 0x1000 * a
abbrev PRF_OVS_DIST (a : Nat) : Nat := 0x401008c0 + 0x1000 * a
abbrev PRF_HOME_POS (a : Nat) : Nat := 0x401008c8 + 0x1000 * a
abbrev PRF_HOME_SHIFT (a : Nat) : Nat := 0x401008d0 + 0x1000 * a
abbrev PRF_REPLAN_CNT (a : Nat) : Nat := 0x40100900 + 0x1000 * a
abbrev PRF_OVS_CNT (a : Nat) : Nat := 0x40100904 + 0x1000 * a
abbrev PRF_GLITCH_CNT (a : Nat) : Nat := 0x40100908 + 0x1000 * a
abbrev PRF_CHATTER_CNT (a : Nat) : Nat := 0x4010090c + 0x1000 * a
abbrev PRF_SLIP_CNT (a : Nat) : Nat := 0x40100910 + 0x1000 * a
abbrev PRF_LIM_CNT (a : Nat) : Nat := 0x40100914 + 0x1000 * a

/-! The PRFG registers, rule R138 of 05_motion_profiles.md. -/

abbrev PRFG_CTRL (g : Nat) : Nat := 0x40190100 + 0x1000 * g
abbrev PRFG_MEMBER (g : Nat) : Nat := 0x40190110 + 0x1000 * g
abbrev PRFG_MBX (g : Nat) : Nat := 0x40190120 + 0x1000 * g
abbrev PRFG_MST_AGE (g : Nat) : Nat := 0x40190124 + 0x1000 * g
abbrev PRFG_MST_DEC (g : Nat) : Nat := 0x40190128 + 0x1000 * g
abbrev PRFG_MST_MOD (g : Nat) : Nat := 0x40190130 + 0x1000 * g
abbrev PRFG_MBX_STAT (g : Nat) : Nat := 0x40190800 + 0x1000 * g
abbrev PRFG_STAT (g : Nat) : Nat := 0x40190804 + 0x1000 * g
abbrev PRFG_MST_POS (g : Nat) : Nat := 0x40190808 + 0x1000 * g
abbrev PRFG_MST_VEL (g : Nat) : Nat := 0x40190810 + 0x1000 * g
abbrev PRFG_MST_AGE_NS (g : Nat) : Nat := 0x40190818 + 0x1000 * g
abbrev PRFG_MBX_OVW_CNT (g : Nat) : Nat := 0x40190900 + 0x1000 * g
abbrev PRFG_REFUSE_CNT (g : Nat) : Nat := 0x40190904 + 0x1000 * g
abbrev PRFG_MST_OLD_CNT (g : Nat) : Nat := 0x40190908 + 0x1000 * g
abbrev PRFG_MST_STALE_CNT (g : Nat) : Nat := 0x4019090c + 0x1000 * g

/-! The LOOP registers, rule R154 of 06_loop_engine.md. -/

abbrev LOOP_CFG (a : Nat) : Nat := 0x40200100 + 0x1000 * a
abbrev LOOP_TMAX (a : Nat) : Nat := 0x40200104 + 0x1000 * a
abbrev LOOP_TLIM (a : Nat) : Nat := 0x40200108 + 0x1000 * a
abbrev LOOP_TLIM_HOME (a : Nat) : Nat := 0x4020010c + 0x1000 * a
abbrev LOOP_FE_N (a : Nat) : Nat := 0x40200110 + 0x1000 * a
abbrev LOOP_F_SRC (a : Nat) : Nat := 0x40200114 + 0x1000 * a
abbrev LOOP_PV_SRC (a : Nat) : Nat := 0x40200118 + 0x1000 * a
abbrev LOOP_FLIM (a : Nat) : Nat := 0x4020011c + 0x1000 * a
abbrev LOOP_VLIM (a : Nat) : Nat := 0x40200120 + 0x1000 * a
abbrev LOOP_FE_MAX (a : Nat) : Nat := 0x40200128 + 0x1000 * a
abbrev LOOP_BOOT_KP (a : Nat) (i : Nat) : Nat := 0x40200140 + 0x1000 * a + 64 * i
abbrev LOOP_LIVE_KP (a : Nat) (i : Nat) : Nat := 0x40200840 + 0x1000 * a + 64 * i
abbrev LOOP_BOOT_KI (a : Nat) (i : Nat) : Nat := 0x40200144 + 0x1000 * a + 64 * i
abbrev LOOP_LIVE_KI (a : Nat) (i : Nat) : Nat := 0x40200844 + 0x1000 * a + 64 * i
abbrev LOOP_BOOT_KD (a : Nat) (i : Nat) : Nat := 0x40200148 + 0x1000 * a + 64 * i
abbrev LOOP_LIVE_KD (a : Nat) (i : Nat) : Nat := 0x40200848 + 0x1000 * a + 64 * i
abbrev LOOP_BOOT_AF (a : Nat) (i : Nat) : Nat := 0x4020014c + 0x1000 * a + 64 * i
abbrev LOOP_LIVE_AF (a : Nat) (i : Nat) : Nat := 0x4020084c + 0x1000 * a + 64 * i
abbrev LOOP_BOOT_SHIFTS (a : Nat) (i : Nat) : Nat := 0x40200150 + 0x1000 * a + 64 * i
abbrev LOOP_LIVE_SHIFTS (a : Nat) (i : Nat) : Nat := 0x40200850 + 0x1000 * a + 64 * i
abbrev LOOP_BOOT_KFF (a : Nat) (i : Nat) : Nat := 0x40200154 + 0x1000 * a + 64 * i
abbrev LOOP_LIVE_KFF (a : Nat) (i : Nat) : Nat := 0x40200854 + 0x1000 * a + 64 * i
abbrev LOOP_BOOT_IMIN (a : Nat) (i : Nat) : Nat := 0x40200158 + 0x1000 * a + 64 * i
abbrev LOOP_LIVE_IMIN (a : Nat) (i : Nat) : Nat := 0x40200858 + 0x1000 * a + 64 * i
abbrev LOOP_BOOT_IMAX (a : Nat) (i : Nat) : Nat := 0x40200160 + 0x1000 * a + 64 * i
abbrev LOOP_LIVE_IMAX (a : Nat) (i : Nat) : Nat := 0x40200860 + 0x1000 * a + 64 * i
abbrev LOOP_CTRL (a : Nat) : Nat := 0x40200800 + 0x1000 * a
abbrev LOOP_STAT (a : Nat) : Nat := 0x40200804 + 0x1000 * a
abbrev LOOP_PV_REF (a : Nat) : Nat := 0x40200808 + 0x1000 * a
abbrev LOOP_TRQ (a : Nat) : Nat := 0x40200980 + 0x1000 * a
abbrev LOOP_CAND (a : Nat) (i : Nat) : Nat := 0x40200984 + 0x1000 * a + 4 * i
abbrev LOOP_VCMD (a : Nat) : Nat := 0x40200998 + 0x1000 * a
abbrev LOOP_FERR (a : Nat) : Nat := 0x402009a0 + 0x1000 * a
abbrev LOOP_WIN_CNT (a : Nat) (i : Nat) : Nat := 0x402009c0 + 0x1000 * a + 4 * i
abbrev LOOP_SAT_CNT (a : Nat) : Nat := 0x402009d0 + 0x1000 * a
abbrev LOOP_FE_CNT (a : Nat) : Nat := 0x402009d4 + 0x1000 * a
abbrev LOOP_COEF_REF_CNT (a : Nat) : Nat := 0x402009d8 + 0x1000 * a
abbrev LOOP_MISS_CNT (a : Nat) : Nat := 0x402009dc + 0x1000 * a
abbrev LOOP_STATE_OLD_CNT (a : Nat) : Nat := 0x402009e0 + 0x1000 * a
abbrev LOOP_REQ_REF_CNT (a : Nat) : Nat := 0x402009e4 + 0x1000 * a

/-! The SOL registers, rule R174 of 07_cell_solver.md. -/

abbrev SOL_CTRL : Nat := 0x40005100
abbrev SOL_RHO : Nat := 0x40005104
abbrev SOL_SIGMA : Nat := 0x40005108
abbrev SOL_PIV_EPS : Nat := 0x4000510c
abbrev SOL_PIV_DELTA : Nat := 0x40005110
abbrev SOL_QF (i : Nat) : Nat := 0x40005120 + 4 * i
abbrev SOL_IN_BASE0 : Nat := 0x40005130
abbrev SOL_IN_BASE1 : Nat := 0x40005134
abbrev SOL_OUT_BASE0 : Nat := 0x40005138
abbrev SOL_OUT_BASE1 : Nat := 0x4000513c
abbrev SOL_GRP (i : Nat) : Nat := 0x40005140 + 4 * i
abbrev SOL_CPL (i : Nat) : Nat := 0x40005180 + 4 * i
abbrev SOL_BLD (i : Nat) : Nat := 0x40005240 + 4 * i
abbrev SOL_WT (i : Nat) : Nat := 0x40005300 + 4 * i
abbrev SOL_STAT : Nat := 0x40005800
abbrev SOL_PIV_FIRST : Nat := 0x40005804
abbrev SOL_SAT_FIRST : Nat := 0x40005808
abbrev SOL_PIV_FLAGS (i : Nat) : Nat := 0x40005820 + 4 * i
abbrev SOL_CYC_LAST : Nat := 0x40005840
abbrev SOL_CYC_MAX : Nat := 0x40005844
abbrev SOL_SOLVE_CNT : Nat := 0x40005900
abbrev SOL_MISS_CNT : Nat := 0x40005904
abbrev SOL_REJ_CNT : Nat := 0x40005908
abbrev SOL_PIV_CNT : Nat := 0x4000590c
abbrev SOL_SAT_CNT : Nat := 0x40005910
abbrev SOL_COLD_CNT : Nat := 0x40005914
abbrev SOL_FAIL2_CNT : Nat := 0x40005918

/-! The SSM registers, rule R196 of 08_separation_monitoring.md. -/

abbrev SSM_CTRL : Nat := 0x40006100
abbrev SSM_HYST : Nat := 0x40006104
abbrev SSM_VH (i : Nat) : Nat := 0x40006108 + 4 * i
abbrev SSM_C (i : Nat) : Nat := 0x40006118 + 4 * i
abbrev SSM_LIM_BASE0 : Nat := 0x40006128
abbrev SSM_LIM_BASE1 : Nat := 0x4000612c
abbrev SSM_EXP : Nat := 0x400066c0
abbrev SSM_HEAD (i : Nat) : Nat := 0x40006200 + 8 * i
abbrev SSM_GRP (i : Nat) : Nat := 0x40006300 + 32 * i
abbrev SSM_CPL (i : Nat) : Nat := 0x40006600 + 4 * i
abbrev SSM_STAT : Nat := 0x40006800
abbrev SSM_TBL_SEL : Nat := 0x40006804
abbrev SSM_GRP_STAT (i : Nat) : Nat := 0x40006880 + 8 * i
abbrev SSM_TBL_W (i : Nat) : Nat := 0x40006840 + 4 * i
abbrev SSM_HEAD_STAT (i : Nat) : Nat := 0x40006900 + 4 * i
abbrev SSM_CYC_LAST : Nat := 0x40006940
abbrev SSM_CYC_MAX : Nat := 0x40006944
abbrev SSM_STOP_CNT : Nat := 0x40006980
abbrev SSM_CODE_ERR_CNT : Nat := 0x40006984
abbrev SSM_HEAD_MISS_CNT : Nat := 0x40006988
abbrev SSM_STALE_CNT : Nat := 0x4000698c
abbrev SSM_INVAL_CNT : Nat := 0x40006990
abbrev SSM_JMISS_CNT : Nat := 0x40006994

/-! The SAF registers, rule R235 of 09_safety.md. -/

abbrev SAF_CTRL : Nat := 0x40007100
abbrev SAF_TIME : Nat := 0x40007104
abbrev SAF_PT_GRACE : Nat := 0x40007108
abbrev SAF_DQ_SAFE : Nat := 0x4000710c
abbrev SAF_RST_T : Nat := 0x40007110
abbrev SAF_TBL_CHECK : Nat := 0x40007114
abbrev SAF_PT_CFG : Nat := 0x40007118
abbrev SAF_DQ_GRP (i : Nat) : Nat := 0x400071c0 + 4 * i
abbrev SAF_GRP (i : Nat) : Nat := 0x40007200 + 4 * i
abbrev SAF_IN (i : Nat) : Nat := 0x40007140 + 8 * i
abbrev SAF_REL : Nat := 0x40007800
abbrev SAF_ACK : Nat := 0x40007804
abbrev SAF_TBL_SEL : Nat := 0x40007808
abbrev SAF_DEG : Nat := 0x40007810
abbrev SAF_STORE : Nat := 0x40007820
abbrev SAF_STORE_ADDR : Nat := 0x40007824
abbrev SAF_STORE_STAT : Nat := 0x40007828
abbrev SAF_LOAD : Nat := 0x4000782c
abbrev SAF_PT_CMD : Nat := 0x40007830
abbrev SAF_PT_STAT : Nat := 0x40007834
abbrev SAF_PT_HOURS : Nat := 0x40007838
abbrev SAF_GRP_STAT (i : Nat) : Nat := 0x40007880 + 8 * i
abbrev SAF_TBL_W (i : Nat) : Nat := 0x40007900 + 4 * i
abbrev SAF_PWD (i : Nat) : Nat := 0x40007940 + 4 * i
abbrev SAF_PWD_CMD : Nat := 0x40007950
abbrev SAF_SEAL_CFG : Nat := 0x40007954
abbrev SAF_USER : Nat := 0x40007958
abbrev SAF_LOG_CLR : Nat := 0x4000795c
abbrev SAF_LOG_SEL : Nat := 0x40007960
abbrev SAF_LOG_W (i : Nat) : Nat := 0x40007980 + 4 * i
abbrev SAF_STAT : Nat := 0x4000780c
abbrev SAF_STOP_CNT : Nat := 0x40007a00
abbrev SAF_DEG_CNT : Nat := 0x40007a04
abbrev SAF_XCMP_CNT : Nat := 0x40007a08
abbrev SAF_DISC_CNT : Nat := 0x40007a0c
abbrev SAF_REL_REF_CNT : Nat := 0x40007a10
abbrev SAF_ACK_REF_CNT : Nat := 0x40007a14
abbrev SAF_PWD_FAIL_CNT : Nat := 0x40007a18
abbrev SAF_STORE_CNT : Nat := 0x40007a1c
abbrev SAF_PT_CNT : Nat := 0x40007a20

/-! The FLT registers, rule R236 of 09_safety.md. -/

abbrev FLT_PERIOD : Nat := 0x40008100
abbrev FLT_MASK : Nat := 0x40008104
abbrev FLT_CMD : Nat := 0x40008800
abbrev FLT_GATE : Nat := 0x40008808
abbrev FLT_OSC : Nat := 0x4000880c
abbrev FLT_HB_CNT : Nat := 0x40008900
abbrev FLT_BAD_CNT : Nat := 0x40008904
abbrev FLT_TRIP_CNT : Nat := 0x40008908
abbrev FLT_CMD_REF_CNT : Nat := 0x4000890c
abbrev FLT_STAT : Nat := 0x40008804

/-! The RNG registers, rule R268 of 10_ring_protocol.md. -/

abbrev RNG_CTRL (n : Nat) : Nat := 0x40020100 + 0x1000 * n
abbrev RNG_TBL_BASE (n : Nat) : Nat := 0x40020104 + 0x1000 * n
abbrev RNG_TBL_CHECK (n : Nat) : Nat := 0x40020108 + 0x1000 * n
abbrev RNG_MISS (n : Nat) : Nat := 0x4002010c + 0x1000 * n
abbrev RNG_BKUP (n : Nat) : Nat := 0x40020110 + 0x1000 * n
abbrev RNG_SOFT_BASE0 (n : Nat) : Nat := 0x40020114 + 0x1000 * n
abbrev RNG_SOFT_BASE1 (n : Nat) : Nat := 0x40020118 + 0x1000 * n
abbrev RNG_RXLOG_BASE (n : Nat) : Nat := 0x4002011c + 0x1000 * n
abbrev RNG_BULK_BASE (n : Nat) : Nat := 0x40020120 + 0x1000 * n
abbrev RNG_RTY (n : Nat) : Nat := 0x40020124 + 0x1000 * n
abbrev RNG_WIN (n : Nat) (i : Nat) : Nat := 0x40020140 + 0x1000 * n + 8 * i
abbrev RNG_STAT (n : Nat) : Nat := 0x40020800 + 0x1000 * n
abbrev RNG_SOFT_FLIP (n : Nat) : Nat := 0x40020804 + 0x1000 * n
abbrev RNG_CYCLE (n : Nat) : Nat := 0x40020808 + 0x1000 * n
abbrev RNG_TM_ID (n : Nat) : Nat := 0x40020810 + 0x1000 * n
abbrev RNG_BULK_TAIL (n : Nat) : Nat := 0x40020818 + 0x1000 * n
abbrev RNG_BULK_HEAD (n : Nat) : Nat := 0x4002081c + 0x1000 * n
abbrev RNG_RXLOG_TAIL (n : Nat) : Nat := 0x40020820 + 0x1000 * n
abbrev RNG_RXLOG_HEAD (n : Nat) : Nat := 0x40020824 + 0x1000 * n
abbrev RNG_NODE_STAT (n : Nat) (i : Nat) : Nat := 0x40020840 + 0x1000 * n + 4 * i
abbrev RNG_CRC_CNT_A (n : Nat) : Nat := 0x40020a00 + 0x1000 * n
abbrev RNG_CRC_CNT_B (n : Nat) : Nat := 0x40020a04 + 0x1000 * n
abbrev RNG_LANE_SAVE_CNT (n : Nat) : Nat := 0x40020a08 + 0x1000 * n
abbrev RNG_IRT_CNT (n : Nat) : Nat := 0x40020a0c + 0x1000 * n
abbrev RNG_IRT_FAIL_CNT (n : Nat) : Nat := 0x40020a10 + 0x1000 * n
abbrev RNG_ORT_CNT (n : Nat) : Nat := 0x40020a14 + 0x1000 * n
abbrev RNG_ORT_FAIL_CNT (n : Nat) : Nat := 0x40020a18 + 0x1000 * n
abbrev RNG_MISS_CNT (n : Nat) : Nat := 0x40020a1c + 0x1000 * n
abbrev RNG_LOST_CNT (n : Nat) : Nat := 0x40020a20 + 0x1000 * n
abbrev RNG_EARLY_CNT (n : Nat) : Nat := 0x40020a24 + 0x1000 * n
abbrev RNG_LATE_CNT (n : Nat) : Nat := 0x40020a28 + 0x1000 * n
abbrev RNG_OFFSLOT_CNT (n : Nat) : Nat := 0x40020a2c + 0x1000 * n
abbrev RNG_REF_MISS_CNT (n : Nat) : Nat := 0x40020a30 + 0x1000 * n
abbrev RNG_BACKUP_CNT (n : Nat) : Nat := 0x40020a34 + 0x1000 * n
abbrev RNG_BULK_RTY_CNT (n : Nat) : Nat := 0x40020a38 + 0x1000 * n
abbrev RNG_BULK_FAIL_CNT (n : Nat) : Nat := 0x40020a3c + 0x1000 * n
abbrev RNG_TRUMP_CNT (n : Nat) : Nat := 0x40020a40 + 0x1000 * n
abbrev RNG_OUT_LOST_CNT (n : Nat) : Nat := 0x40020a44 + 0x1000 * n
abbrev RNG_RXLOG_DROP_CNT (n : Nat) : Nat := 0x40020a48 + 0x1000 * n
abbrev RNG_HOLD_CNT (n : Nat) : Nat := 0x40020a4c + 0x1000 * n
abbrev RNG_CLAIM_CNT (n : Nat) : Nat := 0x40020a50 + 0x1000 * n
abbrev RNG_LINK_CFG_A (n : Nat) : Nat := 0x40020180 + 0x1000 * n
abbrev RNG_LINK_CFG_B (n : Nat) : Nat := 0x40020184 + 0x1000 * n
abbrev RNG_BYP_CFG (n : Nat) : Nat := 0x40020188 + 0x1000 * n
abbrev RNG_DISC_CFG (n : Nat) : Nat := 0x4002018c + 0x1000 * n
abbrev RNG_CABLE_LIM (n : Nat) : Nat := 0x40020190 + 0x1000 * n
abbrev RNG_LANE_STAT_A (n : Nat) : Nat := 0x40020b00 + 0x1000 * n
abbrev RNG_LANE_STAT_B (n : Nat) : Nat := 0x40020b04 + 0x1000 * n
abbrev RNG_HOP_RTT (n : Nat) : Nat := 0x40020b08 + 0x1000 * n
abbrev RNG_HOP_SPREAD (n : Nat) : Nat := 0x40020b0c + 0x1000 * n
abbrev RNG_LOOP_A (n : Nat) : Nat := 0x40020b10 + 0x1000 * n
abbrev RNG_LOOP_B (n : Nat) : Nat := 0x40020b14 + 0x1000 * n
abbrev RNG_DISC_STAT (n : Nat) : Nat := 0x40020b20 + 0x1000 * n
abbrev RNG_DESC_SEL (n : Nat) : Nat := 0x40020b40 + 0x1000 * n
abbrev RNG_DESC_W (n : Nat) (i : Nat) : Nat := 0x40020b80 + 0x1000 * n + 4 * i
abbrev RNG_NODE_LINK (n : Nat) (i : Nat) : Nat := 0x40020c00 + 0x1000 * n + 4 * i
abbrev RNG_NODE_DLY (n : Nat) (i : Nat) : Nat := 0x40020d00 + 0x1000 * n + 8 * i
abbrev RNG_TRAIN_FAIL_CNT (n : Nat) : Nat := 0x40020a54 + 0x1000 * n
abbrev RNG_JOIN_FAIL_CNT (n : Nat) : Nat := 0x40020a58 + 0x1000 * n
abbrev RNG_LANE_LOSS_CNT (n : Nat) : Nat := 0x40020a5c + 0x1000 * n
abbrev RNG_BYP_OPEN_CNT (n : Nat) : Nat := 0x40020a60 + 0x1000 * n
abbrev RNG_DISC_MM_CNT (n : Nat) : Nat := 0x40020a64 + 0x1000 * n

/-! The FBK registers, rule R308 of 12_feedback_local_axes.md. -/

abbrev FBK_ENC (i : Nat) : Nat := 0x4000a100 + 8 * i
abbrev FBK_HALL (i : Nat) : Nat := 0x4000a180 + 4 * i
abbrev FBK_SSI (i : Nat) : Nat := 0x4000a1a0 + 16 * i
abbrev FBK_RING_VDIFF (i : Nat) : Nat := 0x4000a220 + 4 * i
abbrev FBK_ENC_STAT (i : Nat) : Nat := 0x4000a880 + 4 * i
abbrev FBK_ENC_CNT (i : Nat) : Nat := 0x4000a800 + 8 * i
abbrev FBK_IDX_CNT (i : Nat) : Nat := 0x4000a8c0 + 8 * i
abbrev FBK_IDX_DEVN (i : Nat) : Nat := 0x4000a940 + 4 * i
abbrev FBK_HALL_STAT (i : Nat) : Nat := 0x4000a980 + 4 * i
abbrev FBK_SSI_RAW (i : Nat) : Nat := 0x4000a9a0 + 8 * i
abbrev FBK_SSI_STAT (i : Nat) : Nat := 0x4000a9e0 + 4 * i
abbrev FBK_QERR_CNT (i : Nat) : Nat := 0x4000aa00 + 4 * i
abbrev FBK_IDX_DEV_CNT (i : Nat) : Nat := 0x4000aa40 + 4 * i
abbrev FBK_WIRE_CNT (i : Nat) : Nat := 0x4000aa80 + 4 * i
abbrev FBK_HALL_ERR_CNT (i : Nat) : Nat := 0x4000aac0 + 4 * i
abbrev FBK_SSI_ERR_CNT (i : Nat) : Nat := 0x4000aae0 + 4 * i
abbrev FBK_HOFS (i : Nat) : Nat := 0x4000ac00 + 8 * i

/-! The LAX registers, rule R309 of 12_feedback_local_axes.md. -/

abbrev LAX_CFG (n : Nat) : Nat := 0x40080100 + 0x1000 * n
abbrev LAX_K (n : Nat) : Nat := 0x40080104 + 0x1000 * n
abbrev LAX_VSW (n : Nat) : Nat := 0x40080108 + 0x1000 * n
abbrev LAX_PER_MAX (n : Nat) : Nat := 0x4008010c + 0x1000 * n
abbrev LAX_STEP_TIM (n : Nat) : Nat := 0x40080110 + 0x1000 * n
abbrev LAX_NOM_TRQ (n : Nat) : Nat := 0x40080114 + 0x1000 * n
abbrev LAX_STOP_DEC (n : Nat) : Nat := 0x40080118 + 0x1000 * n
abbrev LAX_STAT (n : Nat) : Nat := 0x40080800 + 0x1000 * n
abbrev LAX_EXT (n : Nat) : Nat := 0x40080808 + 0x1000 * n
abbrev LAX_POS_OFS (n : Nat) : Nat := 0x40080810 + 0x1000 * n
abbrev LAX_NOUT (n : Nat) : Nat := 0x40080818 + 0x1000 * n
abbrev LAX_CARRY (n : Nat) : Nat := 0x40080820 + 0x1000 * n
abbrev LAX_CLIP_CNT (n : Nat) : Nat := 0x40080900 + 0x1000 * n
abbrev LAX_MISS_CNT (n : Nat) : Nat := 0x40080904 + 0x1000 * n
abbrev LAX_METHOD_CNT (n : Nat) : Nat := 0x40080908 + 0x1000 * n

/-! The FIO registers, rule R328 of 13_field_io.md. -/

abbrev FIO_SMP : Nat := 0x40009100
abbrev FIO_DI_TYPE : Nat := 0x40009104
abbrev FIO_DI_FILT0 : Nat := 0x40009108
abbrev FIO_DI_FILT1 : Nat := 0x4000910c
abbrev FIO_OL_N : Nat := 0x40009180
abbrev FIO_LP_CFG : Nat := 0x40009184
abbrev FIO_CNT (i : Nat) : Nat := 0x40009120 + 4 * i
abbrev FIO_DQ_CFG (i : Nat) : Nat := 0x40009140 + 4 * i
abbrev FIO_LP_STAT : Nat := 0x4000981c
abbrev FIO_DQ_SW : Nat := 0x40009800
abbrev FIO_DI : Nat := 0x40009804
abbrev FIO_DI_TEST : Nat := 0x40009808
abbrev FIO_DQ_RB : Nat := 0x4000980c
abbrev FIO_DQ_EXTF : Nat := 0x40009810
abbrev FIO_DQ_OVL : Nat := 0x40009814
abbrev FIO_DQ_OPEN : Nat := 0x40009818
abbrev FIO_LP_V : Nat := 0x40009820
abbrev FIO_DQ_I (i : Nat) : Nat := 0x40009840 + 4 * i
abbrev FIO_CNT_VAL (i : Nat) : Nat := 0x40009880 + 4 * i
abbrev FIO_CNT_PER (i : Nat) : Nat := 0x400098a0 + 4 * i
abbrev FIO_CNT_FREQ (i : Nat) : Nat := 0x400098c0 + 4 * i
abbrev FIO_SEAL : Nat := 0x400098e0
abbrev FIO_EXTF_CNT : Nat := 0x40009900
abbrev FIO_EXTF_MASK_CNT : Nat := 0x40009904
abbrev FIO_OVL_CNT : Nat := 0x40009908
abbrev FIO_OPEN_CNT : Nat := 0x4000990c
abbrev FIO_DI_TEST_CNT : Nat := 0x40009910
abbrev FIO_LP_UV_CNT : Nat := 0x40009914
abbrev FIO_CMD_LOSS_CNT : Nat := 0x40009918

/-! The ETH registers, rule R348 of 14_plant_host.md. -/

abbrev ETH_CTRL (n : Nat) : Nat := 0x40024100 + 0x1000 * n
abbrev ETH_MAC (n : Nat) : Nat := 0x40024104 + 0x1000 * n
abbrev ETH_VLAN (n : Nat) : Nat := 0x4002410c + 0x1000 * n
abbrev ETH_TXQ (n : Nat) : Nat := 0x40024110 + 0x1000 * n
abbrev ETH_RING_BASE (n : Nat) : Nat := 0x40024114 + 0x1000 * n
abbrev ETH_MST (n : Nat) (i : Nat) : Nat := 0x40024140 + 0x1000 * n + 32 * i
abbrev ETH_STAT (n : Nat) : Nat := 0x40024800 + 0x1000 * n
abbrev ETH_RXR_HEAD (n : Nat) (i : Nat) : Nat := 0x40024840 + 0x1000 * n + 4 * i
abbrev ETH_RXR_TAIL (n : Nat) (i : Nat) : Nat := 0x40024860 + 0x1000 * n + 4 * i
abbrev ETH_TXR_HEAD (n : Nat) (i : Nat) : Nat := 0x40024880 + 0x1000 * n + 4 * i
abbrev ETH_TXR_TAIL (n : Nat) (i : Nat) : Nat := 0x400248a0 + 0x1000 * n + 4 * i
abbrev ETH_MST_STAT (n : Nat) (i : Nat) : Nat := 0x400248c0 + 0x1000 * n + 4 * i
abbrev ETH_RX_CNT (n : Nat) : Nat := 0x40024a00 + 0x1000 * n
abbrev ETH_TX_CNT (n : Nat) : Nat := 0x40024a04 + 0x1000 * n
abbrev ETH_RX_FCS_CNT (n : Nat) : Nat := 0x40024a08 + 0x1000 * n
abbrev ETH_PAUSE_CNT (n : Nat) : Nat := 0x40024a0c + 0x1000 * n
abbrev ETH_RX_DROP_CNT (n : Nat) (i : Nat) : Nat := 0x40024a10 + 0x1000 * n + 4 * i
abbrev ETH_LATE_LAUNCH_CNT (n : Nat) : Nat := 0x40024a30 + 0x1000 * n
abbrev ETH_TS_DROP_CNT (n : Nat) : Nat := 0x40024a34 + 0x1000 * n
abbrev ETH_MST_BAD_CNT (n : Nat) : Nat := 0x40024a38 + 0x1000 * n
abbrev ETH_MST_GAP_CNT (n : Nat) : Nat := 0x40024a3c + 0x1000 * n
abbrev ETH_MST_DUP_CNT (n : Nat) : Nat := 0x40024a40 + 0x1000 * n
abbrev ETH_LINK_DOWN_CNT (n : Nat) : Nat := 0x40024a44 + 0x1000 * n

/-! The PCI registers, rule R349 of 14_plant_host.md. -/

abbrev PCI_CTRL : Nat := 0x4000b100
abbrev PCI_STAT : Nat := 0x4000b800
abbrev PCI_BAD_ACC_CNT : Nat := 0x4000ba00
abbrev PCI_LINK_DOWN_CNT : Nat := 0x4000ba04
abbrev PCI_PERST_CNT : Nat := 0x4000ba08
abbrev PCI_CORR_ERR_CNT : Nat := 0x4000ba0c

/-! The TWN registers, rule R367 of 15_twin.md. -/

abbrev TWN_CTRL : Nat := 0x4000c100
abbrev TWN_TIME : Nat := 0x4000c104
abbrev TWN_BUF : Nat := 0x4000c108
abbrev TWN_TEST : Nat := 0x4000c10c
abbrev TWN_ST_LIST : Nat := 0x4000c110
abbrev TWN_TS_ILAT : Nat := 0x4000c114
abbrev TWN_TS_ELAT : Nat := 0x4000c118
abbrev TWN_STAT : Nat := 0x4000c804
abbrev TWN_CMD : Nat := 0x4000c800
abbrev TWN_PEER_HEALTH : Nat := 0x4000c808
abbrev TWN_TOFS : Nat := 0x4000c80c
abbrev TWN_SW_TICK : Nat := 0x4000c810
abbrev TWN_SWITCH_CNT : Nat := 0x4000c900
abbrev TWN_HB_MISS_PIN_CNT : Nat := 0x4000c904
abbrev TWN_HB_MISS_LINK_CNT : Nat := 0x4000c908
abbrev TWN_DIV_CNT : Nat := 0x4000c90c
abbrev TWN_MIRROR_GAP_CNT : Nat := 0x4000c910
abbrev TWN_CONFLICT_CNT : Nat := 0x4000c914
abbrev TWN_SYNC_CNT : Nat := 0x4000c918
abbrev TWN_RESIGN_CNT : Nat := 0x4000c91c
abbrev TWN_CMD_IGN_CNT : Nat := 0x4000c920
abbrev TWN_PAR_HOLD_CNT : Nat := 0x4000c924
abbrev TWN_CRC_CNT : Nat := 0x4000c928

/-! The MEM registers, rule R388 of 16_integrity.md. -/

abbrev MEM_CTRL : Nat := 0x4000d100
abbrev MEM_CPR (i : Nat) : Nat := 0x4000d140 + 8 * i
abbrev MEM_STAT : Nat := 0x4000d800
abbrev MEM_UE_LAST : Nat := 0x4000d808
abbrev MEM_CE_LAST : Nat := 0x4000d810
abbrev MEM_HARD_SEL : Nat := 0x4000d818
abbrev MEM_HARD_ENT : Nat := 0x4000d820
abbrev MEM_FAB_LAST : Nat := 0x4000d828
abbrev MEM_CE_CNT : Nat := 0x4000da00
abbrev MEM_UE_CNT : Nat := 0x4000da04
abbrev MEM_HARD_CNT : Nat := 0x4000da08
abbrev MEM_HARD_DROP_CNT : Nat := 0x4000da0c
abbrev MEM_WB_CANCEL_CNT : Nat := 0x4000da10
abbrev MEM_RMW_UE_CNT : Nat := 0x4000da14
abbrev MEM_DDR_CE_CNT : Nat := 0x4000da18
abbrev MEM_DDR_UE_CNT : Nat := 0x4000da1c
abbrev MEM_SCRUB_PASS_CNT : Nat := 0x4000da20
abbrev MEM_FAB_RTY_CNT : Nat := 0x4000da24
abbrev MEM_FAB_ERR_CNT : Nat := 0x4000da28
abbrev MEM_D2D_RTY_CNT : Nat := 0x4000da2c
abbrev MEM_D2D_ERR_CNT : Nat := 0x4000da30

/-! The CDC registers, rule R389 of 16_integrity.md. -/

abbrev CDC_STAT : Nat := 0x4000f800
abbrev CDC_LOST_LAST : Nat := 0x4000f804
abbrev CDC_DT : Nat := 0x4000f808
abbrev CDC_LOST_CNT : Nat := 0x4000fa00
abbrev CDC_STALL_CNT : Nat := 0x4000fa04
abbrev CDC_STALL_TMO_CNT : Nat := 0x4000fa08
abbrev CDC_COAL_CNT : Nat := 0x4000fa0c
abbrev CDC_PARK_ACC_CNT : Nat := 0x4000fa10
abbrev CDC_LIMIT_REF_CNT : Nat := 0x4000fa14
abbrev CDC_REARM_CNT : Nat := 0x4000fa18

/-! The EVT registers, rule R404 of 17_events_logs.md. -/

abbrev EVT_CTRL : Nat := 0x4000e100
abbrev EVT_ALM_BASE : Nat := 0x4000e104
abbrev EVT_PEER_BASE : Nat := 0x4000e108
abbrev EVT_EVR_BASE : Nat := 0x4000e10c
abbrev EVT_TRC_BASE : Nat := 0x4000e110
abbrev EVT_TRC_EN (i : Nat) : Nat := 0x4000e120 + 4 * i
abbrev EVT_STAT : Nat := 0x4000e800
abbrev EVT_ALM_ACK : Nat := 0x4000e808
abbrev EVT_EVR_HEAD : Nat := 0x4000e810
abbrev EVT_EVR_TAIL : Nat := 0x4000e814
abbrev EVT_TRC_WR : Nat := 0x4000e818
abbrev EVT_TRC_RD : Nat := 0x4000e81c
abbrev EVT_TRC_SW (i : Nat) : Nat := 0x4000e840 + 32 * i
abbrev EVT_ALM_CNT : Nat := 0x4000ea00
abbrev EVT_ALM_MERGE_CNT : Nat := 0x4000ea04
abbrev EVT_ALM_HELD_CNT : Nat := 0x4000ea08
abbrev EVT_EV_CNT : Nat := 0x4000ea0c
abbrev EVT_EV_MERGE_CNT : Nat := 0x4000ea10
abbrev EVT_TRC_CNT : Nat := 0x4000ea14
abbrev EVT_TRC_OVW_CNT : Nat := 0x4000ea18
abbrev EVT_TRC_GAP_CNT : Nat := 0x4000ea1c
abbrev EVT_TRC_DROP_CNT (i : Nat) : Nat := 0x4000ec00 + 4 * i

/-! The SYS registers, rule R428 of 18_power_reset_freeze.md. -/

abbrev SYS_MIN_ENG : Nat := 0x40000100
abbrev SYS_WDT : Nat := 0x40000104
abbrev SYS_FRZ_CFG : Nat := 0x40000108
abbrev SYS_GATH_BASE0 : Nat := 0x40000140
abbrev SYS_GATH_BASE1 : Nat := 0x40000144
abbrev SYS_CMD_BASE0 : Nat := 0x40000148
abbrev SYS_CMD_BASE1 : Nat := 0x4000014c
abbrev SYS_CHK_BASE0 : Nat := 0x40000150
abbrev SYS_CHK_BASE1 : Nat := 0x40000154
abbrev SYS_LOOPST_BASE : Nat := 0x40000158
abbrev SYS_VIEW_BASE : Nat := 0x4000015c
abbrev SYS_CTRL : Nat := 0x40000800
abbrev SYS_STAT : Nat := 0x40000808
abbrev SYS_WDT_KICK : Nat := 0x40000804
abbrev SYS_STOP_CAUSE : Nat := 0x4000080c
abbrev SYS_ID : Nat := 0x40000810
abbrev SYS_RST_CAUSE : Nat := 0x40000818
abbrev SYS_BOOT : Nat := 0x4000081c
abbrev SYS_IMG_VER : Nat := 0x40000820
abbrev SYS_SELFTEST : Nat := 0x40000824
abbrev SYS_CFG_STAT : Nat := 0x40000828
abbrev SYS_SLIP_TICKS : Nat := 0x40000830
abbrev SYS_FRZ_TICK : Nat := 0x40000838
abbrev SYS_RST_CNT : Nat := 0x40000a00
abbrev SYS_FRZ_CNT : Nat := 0x40000a04
abbrev SYS_REFUSE_CNT : Nat := 0x40000a08
abbrev SYS_TRIG_LOST_CNT : Nat := 0x40000a0c
abbrev SYS_WDT_CNT : Nat := 0x40000a10

/-! The PWR registers, rule R429 of 18_power_reset_freeze.md. -/

abbrev PWR_DOM_CFG : Nat := 0x40001100
abbrev PWR_QPT_INIT : Nat := 0x40001104
abbrev PWR_APPC : Nat := 0x40001108
abbrev PWR_RAMP : Nat := 0x4000110c
abbrev PWR_STAT : Nat := 0x4000180c
abbrev PWR_DVFS_REQ : Nat := 0x40001800
abbrev PWR_APPC_REQ : Nat := 0x40001804
abbrev PWR_DOM_REQ : Nat := 0x40001808
abbrev PWR_QPT : Nat := 0x40001810
abbrev PWR_DOM_STAT : Nat := 0x40001814
abbrev PWR_RAIL_V (i : Nat) : Nat := 0x40001840 + 4 * i
abbrev PWR_RAIL_MINMAX (i : Nat) : Nat := 0x40001880 + 4 * i
abbrev PWR_RAIL_FLAG : Nat := 0x400018c0
abbrev PWR_DVFS_CNT : Nat := 0x40001a00
abbrev PWR_DVFS_REF_CNT : Nat := 0x40001a04
abbrev PWR_DVFS_FAIL_CNT : Nat := 0x40001a08
abbrev PWR_DOM_CNT : Nat := 0x40001a0c
abbrev PWR_OV_CNT : Nat := 0x40001a10
abbrev PWR_UV_CNT : Nat := 0x40001a14

/-! The COMMON registers, rule R431 of 19_registers.md. -/

abbrev PG_ID (p : Nat) : Nat := 0x40000000 + 0x1000 * p + 0x0
abbrev PG_VER (p : Nat) : Nat := 0x40000000 + 0x1000 * p + 0x4
abbrev PG_CTRL (p : Nat) : Nat := 0x40000000 + 0x1000 * p + 0x8
abbrev PG_STAT (p : Nat) : Nat := 0x40000000 + 0x1000 * p + 0xc
abbrev PG_IRQ_RAW (p : Nat) : Nat := 0x40000000 + 0x1000 * p + 0x10
abbrev PG_IRQ_EN (p : Nat) : Nat := 0x40000000 + 0x1000 * p + 0x14
abbrev PG_IRQ_PEND (p : Nat) : Nat := 0x40000000 + 0x1000 * p + 0x18
abbrev PG_IRQ_SET (p : Nat) : Nat := 0x40000000 + 0x1000 * p + 0x1c
abbrev PG_CHECK (p : Nat) : Nat := 0x40000000 + 0x1000 * p + 0x20
abbrev PG_CFG_SEQ (p : Nat) : Nat := 0x40000000 + 0x1000 * p + 0x24
abbrev PG_ERR_CNT (p : Nat) : Nat := 0x40000000 + 0x1000 * p + 0x28
abbrev PG_LOCK (p : Nat) : Nat := 0x40000000 + 0x1000 * p + 0x2c

/-! The CLK registers, rule R446 of 19_registers.md. -/

abbrev CLK_STAT : Nat := 0x40002800
abbrev CLK_REF25_PPM : Nat := 0x40002804
abbrev CLK_LOCK_LOST_CNT : Nat := 0x40002a00
abbrev CLK_REF_FAIL_CNT : Nat := 0x40002a04

/-! The DBG registers, rule R447 of 19_registers.md. -/

abbrev DBG_STAT : Nat := 0x40010800
abbrev DBG_RO_BYTES : Nat := 0x40010808
abbrev DBG_RO_UE : Nat := 0x40010810
abbrev DBG_RO_CNT : Nat := 0x40010a00
abbrev DBG_JTAG_REF_CNT : Nat := 0x40010a04

end Reg

/-- Register words of the QTZ page, part 1. -/
def qtzRows0 : List RegRow := [
  ⟨0x100, 0, 1, 0x17, 0x0, 0x0, .plain, 0x1⟩,
  ⟨0x104, 0, 1, 0x1fffff, 0x0, 0x0, .plain, 0x0⟩,
  ⟨0x108, 0, 1, 0xffffff, 0x0, 0x0, .plain, 0x0⟩,
  ⟨0x110, 0, 1, 0x0, 0x0, 0x0, .plain, 0x0⟩,
  ⟨0x118, 0, 1, 0x1fffff, 0x0, 0x0, .plain, 0x2ee0⟩,
  ⟨0x120, 0, 1, 0x1fffff, 0x0, 0x0, .plain, 0x55f0⟩,
  ⟨0x128, 0, 1, 0x1fffff, 0x0, 0x0, .plain, 0x8ca0⟩,
  ⟨0x130, 0, 1, 0x1fffff, 0x0, 0x0, .plain, 0x128e0⟩,
  ⟨0x138, 0, 1, 0x1fffff, 0x0, 0x0, .plain, 0x157c0⟩,
  ⟨0x140, 0, 1, 0x1fffff, 0x0, 0x0, .plain, 0x186a0⟩,
  ⟨0x114, 0, 1, 0x1fffff, 0x0, 0x0, .plain, 0x2ee0⟩,
  ⟨0x11c, 0, 1, 0x1fffff, 0x0, 0x0, .plain, 0x55f0⟩,
  ⟨0x124, 0, 1, 0x1fffff, 0x0, 0x0, .plain, 0x8ca0⟩,
  ⟨0x12c, 0, 1, 0x1fffff, 0x0, 0x0, .plain, 0x128e0⟩,
  ⟨0x134, 0, 1, 0x1fffff, 0x0, 0x0, .plain, 0x157c0⟩,
  ⟨0x13c, 0, 1, 0x1fffff, 0x0, 0x0, .plain, 0x186a0⟩,
  ⟨0x144, 0, 1, 0x0, 0x0, 0x0, .plain, 0x0⟩,
  ⟨0x200, 16, 10, 0xffffffff, 0x0, 0x0, .plain, 0x0⟩,
  ⟨0x204, 16, 10, 0xffffffff, 0x0, 0x0, .plain, 0x0⟩,
  ⟨0x208, 16, 10, 0xffffffff, 0x0, 0x0, .plain, 0x0⟩,
  ⟨0x800, 0, 1, 0xffffffff, 0x0, 0x0, .plain, 0x0⟩,
  ⟨0x804, 0, 1, 0xffffffff, 0x0, 0x0, .plain, 0x4⟩,
  ⟨0x808, 0, 1, 0x0, 0x0, 0x0, .plain, 0x0⟩,
  ⟨0x80c, 0, 1, 0x0, 0x0, 0x0, .plain, 0x0⟩]

/-- Register words of the QTZ page, part 2. -/
def qtzRows1 : List RegRow := [
  ⟨0x810, 0, 1, 0x0, 0x0, 0x0, .plain, 0x0⟩,
  ⟨0x818, 0, 1, 0xffffffff, 0x0, 0x0, .plain, 0x0⟩,
  ⟨0x81c, 0, 1, 0xffffffff, 0x0, 0x0, .plain, 0x0⟩,
  ⟨0x820, 0, 1, 0x0, 0x0, 0x1, .plain, 0x0⟩,
  ⟨0x828, 0, 1, 0x0, 0x0, 0x0, .plain, 0x0⟩,
  ⟨0x82c, 0, 1, 0x0, 0x0, 0x0, .plain, 0x0⟩,
  ⟨0x830, 0, 1, 0x0, 0x0, 0x0, .plain, 0x0⟩,
  ⟨0x834, 0, 1, 0x0, 0x0, 0x0, .plain, 0x0⟩,
  ⟨0x838, 0, 1, 0x0, 0x6e, 0x0, .plain, 0x0⟩,
  ⟨0x83c, 0, 1, 0x0, 0x7f, 0x0, .plain, 0x0⟩,
  ⟨0x840, 4, 7, 0x0, 0x0, 0x0, .plain, 0x0⟩,
  ⟨0x860, 4, 7, 0x0, 0x0, 0x0, .readClear, 0x0⟩,
  ⟨0x880, 4, 7, 0x0, 0x0, 0x0, .plain, 0x0⟩,
  ⟨0x8a0, 0, 1, 0x0, 0x0, 0x0, .plain, 0x0⟩,
  ⟨0x8a4, 0, 1, 0x0, 0x0, 0x0, .plain, 0x0⟩,
  ⟨0x8a8, 0, 1, 0x0, 0x0, 0x0, .plain, 0x0⟩]

/-- Every register word of the QTZ page. -/
def qtzRows : List RegRow := qtzRows0 ++ qtzRows1

/-- Register words of the ENG page. -/
def engRows0 : List RegRow := [
  ⟨0x100, 0, 1, 0x7, 0x0, 0x0, .plain, 0x0⟩,
  ⟨0x104, 0, 1, 0x7f, 0x0, 0x0, .plain, 0x0⟩,
  ⟨0x800, 0, 1, 0x0, 0xe0, 0x0, .plain, 0x1⟩,
  ⟨0x804, 0, 1, 0x0, 0x0, 0x0, .plain, 0x0⟩,
  ⟨0x808, 0, 1, 0x0, 0x0, 0x0, .plain, 0x0⟩,
  ⟨0x80c, 0, 1, 0x0, 0x0, 0x0, .plain, 0x0⟩,
  ⟨0x810, 0, 1, 0x0, 0x0, 0x0, .plain, 0x0⟩,
  ⟨0x820, 0, 1, 0x0, 0x0, 0x0, .plain, 0x0⟩,
  ⟨0x824, 0, 1, 0x0, 0x0, 0x0, .plain, 0x0⟩,
  ⟨0x828, 0, 1, 0x0, 0x0, 0x0, .plain, 0x0⟩,
  ⟨0x82c, 0, 1, 0x0, 0x0, 0x0, .plain, 0x0⟩,
  ⟨0x830, 0, 1, 0x0, 0x0, 0x0, .plain, 0x0⟩,
  ⟨0x834, 0, 1, 0x0, 0x0, 0x0, .plain, 0x0⟩,
  ⟨0x838, 0, 1, 0x0, 0x0, 0x0, .plain, 0x0⟩,
  ⟨0x83c, 0, 1, 0x0, 0x0, 0x0, .plain, 0x0⟩,
  ⟨0x840, 0, 1, 0x0, 0x0, 0x0, .plain, 0x0⟩]

/-- Every register word of the ENG page. -/
def engRows : List RegRow := engRows0

/-- Register words of the DLR page, part 1. -/
def dlrRows0 : List RegRow := [
  ⟨0x100, 0, 1, 0xff00, 0x0, 0x0, .plain, 0x1000⟩,
  ⟨0x104, 0, 1, 0xffffff, 0x0, 0x0, .plain, 0xc350⟩,
  ⟨0x108, 0, 1, 0xffffffff, 0x0, 0x0, .plain, 0x9b01b8d2⟩,
  ⟨0x200, 16, 64, 0x3fffff, 0x0, 0x0, .plain, 0x380200⟩,
  ⟨0x204, 16, 64, 0xffffffff, 0x0, 0x0, .plain, 0x0⟩,
  ⟨0x208, 16, 64, 0x7fff, 0x0, 0x0, .plain, 0x0⟩,
  ⟨0x20c, 16, 64, 0xffffffff, 0x0, 0x0, .plain, 0x0⟩,
  ⟨0x800, 0, 1, 0x1ff, 0x0, 0x0, .plain, 0x0⟩,
  ⟨0x840, 4, 16, 0xffffffff, 0x0, 0x0, .plain, 0x0⟩,
  ⟨0x880, 0, 1, 0x0, 0x0, 0x0, .writeOnly, 0x0⟩,
  ⟨0x884, 0, 1, 0x0, 0x0, 0x0, .writeOnly, 0x0⟩,
  ⟨0x888, 0, 1, 0x0, 0x0, 0x0, .writeOnly, 0x0⟩,
  ⟨0x88c, 0, 1, 0x0, 0x0, 0x0, .writeOnly, 0x0⟩,
  ⟨0x890, 0, 1, 0x0, 0x0, 0x0, .writeOnly, 0x0⟩,
  ⟨0x8a0, 8, 4, 0x0, 0x0, 0x0, .plain, 0x0⟩,
  ⟨0x8a4, 8, 4, 0x0, 0x0, 0x0, .plain, 0x0⟩,
  ⟨0x8c0, 4, 4, 0x0, 0x0, 0x0, .writeOnly, 0x0⟩,
  ⟨0x8d0, 4, 4, 0x0, 0x0, 0x0, .writeOnly, 0x0⟩,
  ⟨0x8e0, 0, 1, 0x0, 0x7, 0x0, .plain, 0x0⟩,
  ⟨0x900, 4, 64, 0x0, 0x0, 0x0, .plain, 0x0⟩,
  ⟨0xa00, 0, 1, 0x0, 0x0, 0x0, .plain, 0x0⟩,
  ⟨0xa04, 0, 1, 0x0, 0x0, 0x0, .plain, 0x0⟩,
  ⟨0xa08, 0, 1, 0x0, 0x0, 0x0, .plain, 0x0⟩,
  ⟨0xa0c, 0, 1, 0x0, 0x0, 0x0, .plain, 0x0⟩]

/-- Register words of the DLR page, part 2. -/
def dlrRows1 : List RegRow := [
  ⟨0xa10, 0, 1, 0x0, 0x0, 0x0, .plain, 0x0⟩,
  ⟨0xa14, 0, 1, 0x0, 0x0, 0x0, .plain, 0x0⟩,
  ⟨0xa18, 0, 1, 0x0, 0x0, 0x0, .plain, 0x0⟩,
  ⟨0xa1c, 0, 1, 0x0, 0x0, 0x0, .plain, 0x0⟩,
  ⟨0xa20, 0, 1, 0x0, 0x0, 0x0, .plain, 0x0⟩,
  ⟨0xa24, 0, 1, 0x0, 0x0, 0x0, .plain, 0x0⟩,
  ⟨0xa28, 0, 1, 0x0, 0x0, 0x0, .plain, 0x0⟩,
  ⟨0xa2c, 0, 1, 0x0, 0x0, 0x0, .plain, 0x0⟩,
  ⟨0xa30, 0, 1, 0x0, 0x0, 0x0, .plain, 0x0⟩,
  ⟨0xa34, 0, 1, 0x0, 0x0, 0x0, .plain, 0x0⟩]

/-- Every register word of the DLR page. -/
def dlrRows : List RegRow := dlrRows0 ++ dlrRows1

/-- Register words of the PRF page, part 1. -/
def prfRows0 : List RegRow := [
  ⟨0x100, 0, 1, 0xffffff1f, 0x0, 0x0, .plain, 0x7f7f7f00⟩,
  ⟨0x104, 0, 1, 0xffffff0f, 0x0, 0x0, .plain, 0x7d00300⟩,
  ⟨0x108, 0, 1, 0xf0f, 0x0, 0x0, .plain, 0x8⟩,
  ⟨0x190, 0, 1, 0x7ff, 0x0, 0x0, .plain, 0x2⟩,
  ⟨0x110, 0, 1, 0xffffffff, 0x0, 0x0, .plain, 0x0⟩,
  ⟨0x114, 0, 1, 0xffffffff, 0x0, 0x0, .plain, 0x0⟩,
  ⟨0x118, 0, 1, 0xffffffff, 0x0, 0x0, .plain, 0x0⟩,
  ⟨0x11c, 0, 1, 0xffffffff, 0x0, 0x0, .plain, 0x0⟩,
  ⟨0x120, 0, 1, 0xffffffff, 0x0, 0x0, .plain, 0x0⟩,
  ⟨0x124, 0, 1, 0xffffffff, 0x0, 0x0, .plain, 0x0⟩,
  ⟨0x128, 0, 1, 0xffffffff, 0x0, 0x0, .plain, 0x0⟩,
  ⟨0x12c, 0, 1, 0xffffffff, 0x0, 0x0, .plain, 0x0⟩,
  ⟨0x130, 0, 1, 0xffffffff, 0x0, 0x0, .plain, 0x0⟩,
  ⟨0x134, 0, 1, 0xffffffff, 0x0, 0x0, .plain, 0x0⟩,
  ⟨0x138, 0, 1, 0xffffffff, 0x0, 0x0, .plain, 0x0⟩,
  ⟨0x13c, 0, 1, 0xffffffff, 0x0, 0x0, .plain, 0x0⟩,
  ⟨0x140, 0, 1, 0xffffffff, 0x0, 0x0, .plain, 0x0⟩,
  ⟨0x144, 0, 1, 0xffffffff, 0x0, 0x0, .plain, 0x0⟩,
  ⟨0x148, 0, 1, 0xffffffff, 0x0, 0x0, .plain, 0x0⟩,
  ⟨0x14c, 0, 1, 0xffffffff, 0x0, 0x0, .plain, 0x0⟩,
  ⟨0x150, 0, 1, 0xffffffff, 0x0, 0x0, .plain, 0x0⟩,
  ⟨0x154, 0, 1, 0xffffffff, 0x0, 0x0, .plain, 0x0⟩,
  ⟨0x158, 0, 1, 0xffffffff, 0x0, 0x0, .plain, 0x0⟩,
  ⟨0x15c, 0, 1, 0xffffffff, 0x0, 0x0, .plain, 0x0⟩]

/-- Register words of the PRF page, part 2. -/
def prfRows1 : List RegRow := [
  ⟨0x160, 0, 1, 0xffffffff, 0x0, 0x0, .plain, 0x0⟩,
  ⟨0x164, 0, 1, 0xffffffff, 0x0, 0x0, .plain, 0x0⟩,
  ⟨0x168, 0, 1, 0xffffffff, 0x0, 0x0, .plain, 0x0⟩,
  ⟨0x16c, 0, 1, 0xffffffff, 0x0, 0x0, .plain, 0x0⟩,
  ⟨0x170, 0, 1, 0xffffffff, 0x0, 0x0, .plain, 0x0⟩,
  ⟨0x174, 0, 1, 0xffffffff, 0x0, 0x0, .plain, 0x0⟩,
  ⟨0x178, 0, 1, 0xffffffff, 0x0, 0x0, .plain, 0x0⟩,
  ⟨0x17c, 0, 1, 0xffffffff, 0x0, 0x0, .plain, 0x0⟩,
  ⟨0x180, 0, 1, 0xffffffff, 0x0, 0x0, .plain, 0x0⟩,
  ⟨0x184, 0, 1, 0xffffffff, 0x0, 0x0, .plain, 0x0⟩,
  ⟨0x188, 0, 1, 0xffffffff, 0x0, 0x0, .plain, 0x0⟩,
  ⟨0x18c, 0, 1, 0x0, 0x0, 0x0, .plain, 0x0⟩,
  ⟨0x198, 0, 1, 0xffffffff, 0x0, 0x0, .plain, 0x0⟩,
  ⟨0x19c, 0, 1, 0xffffffff, 0x0, 0x0, .plain, 0x0⟩,
  ⟨0x1a0, 0, 1, 0xffffffff, 0x0, 0x0, .plain, 0x0⟩,
  ⟨0x1a4, 0, 1, 0x0, 0x0, 0x0, .plain, 0x0⟩,
  ⟨0x840, 4, 4, 0x3fffffc, 0x0, 0x3, .plain, 0x4⟩,
  ⟨0x850, 0, 1, 0x0, 0xffff0, 0x0, .plain, 0x0⟩,
  ⟨0x890, 0, 1, 0x0, 0x3f0, 0x0, .plain, 0x0⟩,
  ⟨0x800, 8, 4, 0xffffffff, 0x0, 0x0, .plain, 0x0⟩,
  ⟨0x804, 8, 4, 0xffffffff, 0x0, 0x0, .plain, 0x0⟩,
  ⟨0x820, 8, 4, 0xffffffff, 0x0, 0x0, .plain, 0x0⟩,
  ⟨0x824, 8, 4, 0xffffffff, 0x0, 0x0, .plain, 0x0⟩,
  ⟨0x860, 8, 4, 0x0, 0x0, 0x0, .plain, 0x0⟩,
  ⟨0x864, 8, 4, 0x0, 0x0, 0x0, .plain, 0x0⟩,
  ⟨0x880, 4, 4, 0x0, 0x0, 0x0, .plain, 0x0⟩]

/-- Register words of the PRF page, part 3. -/
def prfRows2 : List RegRow := [
  ⟨0x898, 0, 1, 0x0, 0x0, 0x0, .plain, 0x0⟩,
  ⟨0x89c, 0, 1, 0x0, 0x0, 0x0, .plain, 0x0⟩,
  ⟨0x8a0, 0, 1, 0x0, 0x0, 0x0, .plain, 0x0⟩,
  ⟨0x8a4, 0, 1, 0x0, 0x0, 0x0, .plain, 0x0⟩,
  ⟨0x8a8, 0, 1, 0x0, 0x0, 0x0, .plain, 0x0⟩,
  ⟨0x8ac, 0, 1, 0x0, 0x0, 0x0, .plain, 0x0⟩,
  ⟨0x8b0, 0, 1, 0x0, 0x0, 0x0, .plain, 0x0⟩,
  ⟨0x8b4, 0, 1, 0x0, 0x0, 0x0, .plain, 0x0⟩,
  ⟨0x8b8, 0, 1, 0x0, 0x0, 0x0, .plain, 0x0⟩,
  ⟨0x8bc, 0, 1, 0x0, 0x0, 0x0, .plain, 0x0⟩,
  ⟨0x8c0, 0, 1, 0x0, 0x0, 0x0, .plain, 0x0⟩,
  ⟨0x8c4, 0, 1, 0x0, 0x0, 0x0, .plain, 0x0⟩,
  ⟨0x8c8, 0, 1, 0x0, 0x0, 0x0, .plain, 0x0⟩,
  ⟨0x8cc, 0, 1, 0x0, 0x0, 0x0, .plain, 0x0⟩,
  ⟨0x8d0, 0, 1, 0x0, 0x0, 0x0, .plain, 0x0⟩,
  ⟨0x8d4, 0, 1, 0x0, 0x0, 0x0, .plain, 0x0⟩,
  ⟨0x900, 0, 1, 0x0, 0x0, 0x0, .plain, 0x0⟩,
  ⟨0x904, 0, 1, 0x0, 0x0, 0x0, .plain, 0x0⟩,
  ⟨0x908, 0, 1, 0x0, 0x0, 0x0, .plain, 0x0⟩,
  ⟨0x90c, 0, 1, 0x0, 0x0, 0x0, .plain, 0x0⟩,
  ⟨0x910, 0, 1, 0x0, 0x0, 0x0, .plain, 0x0⟩,
  ⟨0x914, 0, 1, 0x0, 0x0, 0x0, .plain, 0x0⟩]

/-- Every register word of the PRF page. -/
def prfRows : List RegRow := prfRows0 ++ prfRows1 ++ prfRows2

/-- Register words of the PRFG page. -/
def prfgRows0 : List RegRow := [
  ⟨0x100, 0, 1, 0x1f, 0x0, 0x0, .plain, 0x2⟩,
  ⟨0x110, 0, 1, 0xffffffff, 0x0, 0x0, .plain, 0xffffffff⟩,
  ⟨0x114, 0, 1, 0xffffffff, 0x0, 0x0, .plain, 0xffffffff⟩,
  ⟨0x118, 0, 1, 0xffffffff, 0x0, 0x0, .plain, 0xffffffff⟩,
  ⟨0x11c, 0, 1, 0xffffffff, 0x0, 0x0, .plain, 0xffffffff⟩,
  ⟨0x120, 0, 1, 0xffffffff, 0x0, 0x0, .plain, 0x0⟩,
  ⟨0x124, 0, 1, 0xff, 0x0, 0x0, .plain, 0x4⟩,
  ⟨0x128, 0, 1, 0xffffffff, 0x0, 0x0, .plain, 0x0⟩,
  ⟨0x12c, 0, 1, 0xffffffff, 0x0, 0x0, .plain, 0x0⟩,
  ⟨0x130, 0, 1, 0xffffffff, 0x0, 0x0, .plain, 0x0⟩,
  ⟨0x134, 0, 1, 0xffffffff, 0x0, 0x0, .plain, 0x0⟩,
  ⟨0x800, 0, 1, 0x0, 0x0, 0x0, .plain, 0x0⟩,
  ⟨0x804, 0, 1, 0x0, 0xa, 0x0, .plain, 0x0⟩,
  ⟨0x808, 0, 1, 0x0, 0x0, 0x0, .plain, 0x0⟩,
  ⟨0x80c, 0, 1, 0x0, 0x0, 0x0, .plain, 0x0⟩,
  ⟨0x810, 0, 1, 0x0, 0x0, 0x0, .plain, 0x0⟩,
  ⟨0x814, 0, 1, 0x0, 0x0, 0x0, .plain, 0x0⟩,
  ⟨0x818, 0, 1, 0x0, 0x0, 0x0, .plain, 0x0⟩,
  ⟨0x900, 0, 1, 0x0, 0x0, 0x0, .plain, 0x0⟩,
  ⟨0x904, 0, 1, 0x0, 0x0, 0x0, .plain, 0x0⟩,
  ⟨0x908, 0, 1, 0x0, 0x0, 0x0, .plain, 0x0⟩,
  ⟨0x90c, 0, 1, 0x0, 0x0, 0x0, .plain, 0x0⟩]

/-- Every register word of the PRFG page. -/
def prfgRows : List RegRow := prfgRows0

/-- Register words of the LOOP page, part 1. -/
def loopRows0 : List RegRow := [
  ⟨0x100, 0, 1, 0x1f3, 0x0, 0x0, .plain, 0x10⟩,
  ⟨0x104, 0, 1, 0xffffffff, 0x0, 0x0, .plain, 0x0⟩,
  ⟨0x108, 0, 1, 0xffffffff, 0x0, 0x0, .plain, 0x0⟩,
  ⟨0x10c, 0, 1, 0xffffffff, 0x0, 0x0, .plain, 0x0⟩,
  ⟨0x110, 0, 1, 0xff, 0x0, 0x0, .plain, 0x1⟩,
  ⟨0x114, 0, 1, 0xfffff, 0x0, 0x0, .plain, 0xfffff⟩,
  ⟨0x118, 0, 1, 0xfffff, 0x0, 0x0, .plain, 0xfffff⟩,
  ⟨0x11c, 0, 1, 0xffffffff, 0x0, 0x0, .plain, 0x0⟩,
  ⟨0x120, 0, 1, 0xffffffff, 0x0, 0x0, .plain, 0x0⟩,
  ⟨0x124, 0, 1, 0xffffffff, 0x0, 0x0, .plain, 0x0⟩,
  ⟨0x128, 0, 1, 0xffffffff, 0x0, 0x0, .plain, 0x0⟩,
  ⟨0x12c, 0, 1, 0xffffffff, 0x0, 0x0, .plain, 0x0⟩,
  ⟨0x140, 64, 5, 0xffffffff, 0x0, 0x0, .plain, 0x0⟩,
  ⟨0x840, 64, 5, 0xffffffff, 0x0, 0x0, .plain, 0x0⟩,
  ⟨0x144, 64, 5, 0xffffffff, 0x0, 0x0, .plain, 0x0⟩,
  ⟨0x844, 64, 5, 0xffffffff, 0x0, 0x0, .plain, 0x0⟩,
  ⟨0x148, 64, 5, 0xffffffff, 0x0, 0x0, .plain, 0x0⟩,
  ⟨0x848, 64, 5, 0xffffffff, 0x0, 0x0, .plain, 0x0⟩,
  ⟨0x14c, 64, 5, 0xffffffff, 0x0, 0x0, .plain, 0x0⟩,
  ⟨0x84c, 64, 5, 0xffffffff, 0x0, 0x0, .plain, 0x0⟩,
  ⟨0x150, 64, 5, 0x17f7f, 0x0, 0x0, .plain, 0x0⟩,
  ⟨0x850, 64, 5, 0x17f7f, 0x0, 0x0, .plain, 0x0⟩,
  ⟨0x154, 64, 5, 0xffffffff, 0x0, 0x0, .plain, 0x0⟩,
  ⟨0x854, 64, 5, 0xffffffff, 0x0, 0x0, .plain, 0x0⟩]

/-- Register words of the LOOP page, part 2. -/
def loopRows1 : List RegRow := [
  ⟨0x158, 64, 5, 0xffffffff, 0x0, 0x0, .plain, 0x0⟩,
  ⟨0x15c, 64, 5, 0xffffffff, 0x0, 0x0, .plain, 0x0⟩,
  ⟨0x858, 64, 5, 0xffffffff, 0x0, 0x0, .plain, 0x0⟩,
  ⟨0x85c, 64, 5, 0xffffffff, 0x0, 0x0, .plain, 0x0⟩,
  ⟨0x160, 64, 5, 0xffffffff, 0x0, 0x0, .plain, 0x0⟩,
  ⟨0x164, 64, 5, 0xffffffff, 0x0, 0x0, .plain, 0x0⟩,
  ⟨0x860, 64, 5, 0xffffffff, 0x0, 0x0, .plain, 0x0⟩,
  ⟨0x864, 64, 5, 0xffffffff, 0x0, 0x0, .plain, 0x0⟩,
  ⟨0x800, 0, 1, 0x0, 0x0, 0xf0f, .plain, 0x0⟩,
  ⟨0x804, 0, 1, 0x0, 0x3fc00, 0x0, .plain, 0xe⟩,
  ⟨0x808, 0, 1, 0xffffffff, 0x0, 0x0, .plain, 0x0⟩,
  ⟨0x980, 0, 1, 0x0, 0x0, 0x0, .plain, 0x0⟩,
  ⟨0x984, 4, 4, 0x0, 0x0, 0x0, .plain, 0x0⟩,
  ⟨0x998, 0, 1, 0x0, 0x0, 0x0, .plain, 0x0⟩,
  ⟨0x99c, 0, 1, 0x0, 0x0, 0x0, .plain, 0x0⟩,
  ⟨0x9a0, 0, 1, 0x0, 0x0, 0x0, .plain, 0x0⟩,
  ⟨0x9a4, 0, 1, 0x0, 0x0, 0x0, .plain, 0x0⟩,
  ⟨0x9c0, 4, 4, 0x0, 0x0, 0x0, .plain, 0x0⟩,
  ⟨0x9d0, 0, 1, 0x0, 0x0, 0x0, .plain, 0x0⟩,
  ⟨0x9d4, 0, 1, 0x0, 0x0, 0x0, .plain, 0x0⟩,
  ⟨0x9d8, 0, 1, 0x0, 0x0, 0x0, .plain, 0x0⟩,
  ⟨0x9dc, 0, 1, 0x0, 0x0, 0x0, .plain, 0x0⟩,
  ⟨0x9e0, 0, 1, 0x0, 0x0, 0x0, .plain, 0x0⟩,
  ⟨0x9e4, 0, 1, 0x0, 0x0, 0x0, .plain, 0x0⟩]

/-- Every register word of the LOOP page. -/
def loopRows : List RegRow := loopRows0 ++ loopRows1

/-- Register words of the SOL page, part 1. -/
def solRows0 : List RegRow := [
  ⟨0x100, 0, 1, 0x3f03, 0x0, 0x0, .plain, 0x1802⟩,
  ⟨0x104, 0, 1, 0xffffffff, 0x0, 0x0, .plain, 0x10000⟩,
  ⟨0x108, 0, 1, 0xffffffff, 0x0, 0x0, .plain, 0x0⟩,
  ⟨0x10c, 0, 1, 0xffffffff, 0x0, 0x0, .plain, 0x0⟩,
  ⟨0x110, 0, 1, 0xffffffff, 0x0, 0x0, .plain, 0x1⟩,
  ⟨0x120, 4, 4, 0x1f1f1f1f, 0x0, 0x0, .plain, 0x18181818⟩,
  ⟨0x130, 0, 1, 0xffffffff, 0x0, 0x0, .plain, 0x1e0000⟩,
  ⟨0x134, 0, 1, 0xffffffff, 0x0, 0x0, .plain, 0x208000⟩,
  ⟨0x138, 0, 1, 0xffffffff, 0x0, 0x0, .plain, 0x230000⟩,
  ⟨0x13c, 0, 1, 0xffffffff, 0x0, 0x0, .plain, 0x234000⟩,
  ⟨0x140, 4, 16, 0xfdf3, 0x0, 0x0, .plain, 0x10⟩,
  ⟨0x180, 4, 48, 0xff1, 0x0, 0x0, .plain, 0x0⟩,
  ⟨0x240, 4, 16, 0xf, 0x0, 0x0, .plain, 0x0⟩,
  ⟨0x300, 4, 192, 0xffffffff, 0x0, 0x0, .plain, 0x1000000⟩,
  ⟨0x800, 0, 1, 0x0, 0xf0, 0x0, .plain, 0x0⟩,
  ⟨0x804, 0, 1, 0x0, 0x0, 0x0, .plain, 0x0⟩,
  ⟨0x808, 0, 1, 0x0, 0x0, 0x0, .plain, 0x0⟩,
  ⟨0x820, 4, 8, 0x0, 0x0, 0x0, .plain, 0x0⟩,
  ⟨0x840, 0, 1, 0x0, 0x0, 0x0, .plain, 0x0⟩,
  ⟨0x844, 0, 1, 0x0, 0x0, 0x0, .readClear, 0x0⟩,
  ⟨0x900, 0, 1, 0x0, 0x0, 0x0, .plain, 0x0⟩,
  ⟨0x904, 0, 1, 0x0, 0x0, 0x0, .plain, 0x0⟩,
  ⟨0x908, 0, 1, 0x0, 0x0, 0x0, .plain, 0x0⟩,
  ⟨0x90c, 0, 1, 0x0, 0x0, 0x0, .plain, 0x0⟩]

/-- Register words of the SOL page, part 2. -/
def solRows1 : List RegRow := [
  ⟨0x910, 0, 1, 0x0, 0x0, 0x0, .plain, 0x0⟩,
  ⟨0x914, 0, 1, 0x0, 0x0, 0x0, .plain, 0x0⟩,
  ⟨0x918, 0, 1, 0x0, 0x0, 0x0, .plain, 0x0⟩]

/-- Every register word of the SOL page. -/
def solRows : List RegRow := solRows0 ++ solRows1

/-- Register words of the SSM page, part 1. -/
def ssmRows0 : List RegRow := [
  ⟨0x100, 0, 1, 0xfffffff1, 0x0, 0x0, .seal, 0x4285020⟩,
  ⟨0x104, 0, 1, 0xffffffff, 0x0, 0x0, .seal, 0xc350⟩,
  ⟨0x108, 4, 4, 0xffff, 0x0, 0x0, .seal, 0xc8⟩,
  ⟨0x118, 4, 4, 0xffffffff, 0x0, 0x0, .seal, 0x0⟩,
  ⟨0x128, 0, 1, 0xffffffff, 0x0, 0x0, .seal, 0x12c000⟩,
  ⟨0x12c, 0, 1, 0xffffffff, 0x0, 0x0, .seal, 0x12c800⟩,
  ⟨0x6c0, 0, 1, 0x7, 0x0, 0x0, .seal, 0x0⟩,
  ⟨0x200, 8, 8, 0x3fffff, 0x0, 0x0, .seal, 0x0⟩,
  ⟨0x204, 8, 8, 0xffffffff, 0x0, 0x0, .seal, 0x0⟩,
  ⟨0x300, 32, 16, 0xff07ff, 0x0, 0x0, .seal, 0x0⟩,
  ⟨0x304, 32, 16, 0xffff, 0x0, 0x0, .seal, 0x0⟩,
  ⟨0x308, 32, 16, 0xffffffff, 0x0, 0x0, .seal, 0x0⟩,
  ⟨0x30c, 32, 16, 0xffffffff, 0x0, 0x0, .seal, 0x0⟩,
  ⟨0x310, 32, 16, 0xffffffff, 0x0, 0x0, .seal, 0x0⟩,
  ⟨0x600, 4, 48, 0x1ffff, 0x0, 0x0, .seal, 0x0⟩,
  ⟨0x800, 0, 1, 0x0, 0x7, 0x0, .plain, 0x0⟩,
  ⟨0x804, 0, 1, 0x1ff01, 0x0, 0x0, .plain, 0x0⟩,
  ⟨0x880, 8, 16, 0x0, 0x0, 0x0, .plain, 0xff000000⟩,
  ⟨0x884, 8, 16, 0x0, 0x0, 0x0, .plain, 0x0⟩,
  ⟨0x840, 4, 16, 0x0, 0x0, 0x0, .plain, 0x0⟩,
  ⟨0x900, 4, 8, 0x0, 0x0, 0x0, .plain, 0x0⟩,
  ⟨0x940, 0, 1, 0x0, 0x0, 0x0, .plain, 0x0⟩,
  ⟨0x944, 0, 1, 0x0, 0x0, 0x0, .readClear, 0x0⟩,
  ⟨0x980, 0, 1, 0x0, 0x0, 0x0, .plain, 0x0⟩]

/-- Register words of the SSM page, part 2. -/
def ssmRows1 : List RegRow := [
  ⟨0x984, 0, 1, 0x0, 0x0, 0x0, .plain, 0x0⟩,
  ⟨0x988, 0, 1, 0x0, 0x0, 0x0, .plain, 0x0⟩,
  ⟨0x98c, 0, 1, 0x0, 0x0, 0x0, .plain, 0x0⟩,
  ⟨0x990, 0, 1, 0x0, 0x0, 0x0, .plain, 0x0⟩,
  ⟨0x994, 0, 1, 0x0, 0x0, 0x0, .plain, 0x0⟩]

/-- Every register word of the SSM page. -/
def ssmRows : List RegRow := ssmRows0 ++ ssmRows1

/-- Register words of the SAF page, part 1. -/
def safRows0 : List RegRow := [
  ⟨0x100, 0, 1, 0xffff3f07, 0x0, 0x0, .seal, 0x22381e00⟩,
  ⟨0x104, 0, 1, 0xffffffff, 0x0, 0x0, .seal, 0x19003e8⟩,
  ⟨0x108, 0, 1, 0xffff, 0x0, 0x0, .seal, 0xa8⟩,
  ⟨0x10c, 0, 1, 0xffff, 0x0, 0x0, .seal, 0xf000⟩,
  ⟨0x110, 0, 1, 0xffffffff, 0x0, 0x0, .seal, 0x7d00064⟩,
  ⟨0x114, 0, 1, 0xffffffff, 0x0, 0x0, .seal, 0x271dde9a⟩,
  ⟨0x118, 0, 1, 0xffff, 0x0, 0x0, .seal, 0x0⟩,
  ⟨0x1c0, 4, 16, 0x1ffff, 0x0, 0x0, .seal, 0x0⟩,
  ⟨0x200, 4, 16, 0xfffffff1, 0x0, 0x0, .seal, 0x3e80820⟩,
  ⟨0x140, 8, 16, 0x1f3f3f7f, 0x0, 0x0, .seal, 0x0⟩,
  ⟨0x144, 8, 16, 0xffffffff, 0x0, 0x0, .seal, 0x320000⟩,
  ⟨0x800, 0, 1, 0x0, 0x0, 0xffff, .plain, 0x0⟩,
  ⟨0x804, 0, 1, 0x0, 0x0, 0xffff, .plain, 0x0⟩,
  ⟨0x808, 0, 1, 0xff01, 0x0, 0x0, .plain, 0x0⟩,
  ⟨0x810, 0, 1, 0x0, 0x0, 0x0, .plain, 0x0⟩,
  ⟨0x820, 0, 1, 0x0, 0x0, 0x0, .writeOnly, 0x0⟩,
  ⟨0x824, 0, 1, 0xffffffff, 0x0, 0x0, .plain, 0x0⟩,
  ⟨0x828, 0, 1, 0x0, 0x0, 0x0, .plain, 0x0⟩,
  ⟨0x82c, 0, 1, 0x0, 0x0, 0x0, .writeOnly, 0x0⟩,
  ⟨0x830, 0, 1, 0x0, 0x0, 0x1, .plain, 0x0⟩,
  ⟨0x834, 0, 1, 0x0, 0x0, 0x0, .plain, 0x0⟩,
  ⟨0x838, 0, 1, 0x0, 0x0, 0x0, .plain, 0x0⟩,
  ⟨0x880, 8, 16, 0x0, 0x0, 0x0, .plain, 0x800004⟩,
  ⟨0x884, 8, 16, 0x0, 0x0, 0x0, .plain, 0x0⟩]

/-- Register words of the SAF page, part 2. -/
def safRows1 : List RegRow := [
  ⟨0x900, 4, 16, 0x0, 0x0, 0x0, .plain, 0x0⟩,
  ⟨0x940, 4, 4, 0x0, 0x0, 0x0, .writeOnly, 0x0⟩,
  ⟨0x950, 0, 1, 0x0, 0x0, 0x0, .writeOnly, 0x0⟩,
  ⟨0x954, 0, 1, 0x2, 0x0, 0x0, .plain, 0x0⟩,
  ⟨0x958, 0, 1, 0xffffffff, 0x0, 0x0, .plain, 0x0⟩,
  ⟨0x95c, 0, 1, 0x0, 0x0, 0x0, .writeOnly, 0x0⟩,
  ⟨0x960, 0, 1, 0xff, 0x0, 0x0, .plain, 0x0⟩,
  ⟨0x980, 4, 16, 0x0, 0x0, 0x0, .plain, 0x0⟩,
  ⟨0x80c, 0, 1, 0x0, 0x13e, 0x0, .plain, 0x0⟩,
  ⟨0xa00, 0, 1, 0x0, 0x0, 0x0, .plain, 0x0⟩,
  ⟨0xa04, 0, 1, 0x0, 0x0, 0x0, .plain, 0x0⟩,
  ⟨0xa08, 0, 1, 0x0, 0x0, 0x0, .plain, 0x0⟩,
  ⟨0xa0c, 0, 1, 0x0, 0x0, 0x0, .plain, 0x0⟩,
  ⟨0xa10, 0, 1, 0x0, 0x0, 0x0, .plain, 0x0⟩,
  ⟨0xa14, 0, 1, 0x0, 0x0, 0x0, .plain, 0x0⟩,
  ⟨0xa18, 0, 1, 0x0, 0x0, 0x0, .plain, 0x0⟩,
  ⟨0xa1c, 0, 1, 0x0, 0x0, 0x0, .plain, 0x0⟩,
  ⟨0xa20, 0, 1, 0x0, 0x0, 0x0, .plain, 0x0⟩]

/-- Every register word of the SAF page. -/
def safRows : List RegRow := safRows0 ++ safRows1

/-- Register words of the FLT page. -/
def fltRows0 : List RegRow := [
  ⟨0x100, 0, 1, 0x1fffff, 0x0, 0x0, .seal, 0x1e848⟩,
  ⟨0x104, 0, 1, 0xffff, 0x0, 0x0, .seal, 0xf000⟩,
  ⟨0x800, 0, 1, 0x0, 0x0, 0x0, .writeOnly, 0x0⟩,
  ⟨0x808, 0, 1, 0x0, 0x0, 0x0, .plain, 0x0⟩,
  ⟨0x80c, 0, 1, 0x0, 0x0, 0x0, .plain, 0x0⟩,
  ⟨0x900, 0, 1, 0x0, 0x0, 0x0, .plain, 0x0⟩,
  ⟨0x904, 0, 1, 0x0, 0x0, 0x0, .plain, 0x0⟩,
  ⟨0x908, 0, 1, 0x0, 0x0, 0x0, .plain, 0x0⟩,
  ⟨0x90c, 0, 1, 0x0, 0x0, 0x0, .plain, 0x0⟩,
  ⟨0x804, 0, 1, 0x0, 0x0, 0x0, .plain, 0x4⟩]

/-- Every register word of the FLT page. -/
def fltRows : List RegRow := fltRows0

/-- Register words of the RNG page, part 1. -/
def rngRows0 : List RegRow := [
  ⟨0x100, 0, 1, 0x3fff3f, 0x0, 0x0, .plain, 0x8014⟩,
  ⟨0x104, 0, 1, 0xffffffff, 0x0, 0x0, .plain, 0x0⟩,
  ⟨0x108, 0, 1, 0xffffffff, 0x0, 0x0, .plain, 0x0⟩,
  ⟨0x10c, 0, 1, 0xffffff, 0x0, 0x0, .plain, 0x30203⟩,
  ⟨0x110, 0, 1, 0xffffffff, 0x0, 0x0, .plain, 0xffffff⟩,
  ⟨0x114, 0, 1, 0xffffffff, 0x0, 0x0, .plain, 0x0⟩,
  ⟨0x118, 0, 1, 0xffffffff, 0x0, 0x0, .plain, 0x0⟩,
  ⟨0x11c, 0, 1, 0xffffffff, 0x0, 0x0, .plain, 0x0⟩,
  ⟨0x120, 0, 1, 0xffffffff, 0x0, 0x0, .plain, 0x0⟩,
  ⟨0x124, 0, 1, 0xff, 0x0, 0x0, .plain, 0x22⟩,
  ⟨0x140, 8, 8, 0x1fffff, 0x0, 0x0, .plain, 0x0⟩,
  ⟨0x144, 8, 8, 0x1fffff, 0x0, 0x0, .plain, 0x0⟩,
  ⟨0x800, 0, 1, 0x0, 0xc00, 0x0, .plain, 0x0⟩,
  ⟨0x804, 0, 1, 0x0, 0x0, 0x0, .writeOnly, 0x0⟩,
  ⟨0x808, 0, 1, 0x0, 0x0, 0x0, .plain, 0x0⟩,
  ⟨0x80c, 0, 1, 0x0, 0x0, 0x0, .plain, 0x0⟩,
  ⟨0x810, 0, 1, 0x0, 0x0, 0x0, .plain, 0x0⟩,
  ⟨0x814, 0, 1, 0x0, 0x0, 0x0, .plain, 0x0⟩,
  ⟨0x818, 0, 1, 0xff, 0x0, 0x0, .plain, 0x0⟩,
  ⟨0x81c, 0, 1, 0x0, 0x0, 0x0, .plain, 0x0⟩,
  ⟨0x820, 0, 1, 0xff, 0x0, 0x0, .plain, 0x0⟩,
  ⟨0x824, 0, 1, 0x0, 0x0, 0x0, .plain, 0x0⟩,
  ⟨0x840, 4, 64, 0x0, 0x0, 0x0, .plain, 0x0⟩,
  ⟨0xa00, 0, 1, 0x0, 0x0, 0x0, .plain, 0x0⟩]

/-- Register words of the RNG page, part 2. -/
def rngRows1 : List RegRow := [
  ⟨0xa04, 0, 1, 0x0, 0x0, 0x0, .plain, 0x0⟩,
  ⟨0xa08, 0, 1, 0x0, 0x0, 0x0, .plain, 0x0⟩,
  ⟨0xa0c, 0, 1, 0x0, 0x0, 0x0, .plain, 0x0⟩,
  ⟨0xa10, 0, 1, 0x0, 0x0, 0x0, .plain, 0x0⟩,
  ⟨0xa14, 0, 1, 0x0, 0x0, 0x0, .plain, 0x0⟩,
  ⟨0xa18, 0, 1, 0x0, 0x0, 0x0, .plain, 0x0⟩,
  ⟨0xa1c, 0, 1, 0x0, 0x0, 0x0, .plain, 0x0⟩,
  ⟨0xa20, 0, 1, 0x0, 0x0, 0x0, .plain, 0x0⟩,
  ⟨0xa24, 0, 1, 0x0, 0x0, 0x0, .plain, 0x0⟩,
  ⟨0xa28, 0, 1, 0x0, 0x0, 0x0, .plain, 0x0⟩,
  ⟨0xa2c, 0, 1, 0x0, 0x0, 0x0, .plain, 0x0⟩,
  ⟨0xa30, 0, 1, 0x0, 0x0, 0x0, .plain, 0x0⟩,
  ⟨0xa34, 0, 1, 0x0, 0x0, 0x0, .plain, 0x0⟩,
  ⟨0xa38, 0, 1, 0x0, 0x0, 0x0, .plain, 0x0⟩,
  ⟨0xa3c, 0, 1, 0x0, 0x0, 0x0, .plain, 0x0⟩,
  ⟨0xa40, 0, 1, 0x0, 0x0, 0x0, .plain, 0x0⟩,
  ⟨0xa44, 0, 1, 0x0, 0x0, 0x0, .plain, 0x0⟩,
  ⟨0xa48, 0, 1, 0x0, 0x0, 0x0, .plain, 0x0⟩,
  ⟨0xa4c, 0, 1, 0x0, 0x0, 0x0, .plain, 0x0⟩,
  ⟨0xa50, 0, 1, 0x0, 0x0, 0x0, .plain, 0x0⟩,
  ⟨0x180, 0, 1, 0xfffff3, 0x0, 0x0, .plain, 0x138840⟩,
  ⟨0x184, 0, 1, 0xfffff3, 0x0, 0x0, .plain, 0x138840⟩,
  ⟨0x188, 0, 1, 0xffffffff, 0x0, 0x0, .plain, 0x3e80064⟩,
  ⟨0x18c, 0, 1, 0xf, 0x0, 0x0, .plain, 0x4⟩]

/-- Register words of the RNG page, part 3. -/
def rngRows2 : List RegRow := [
  ⟨0x190, 0, 1, 0xffff, 0x0, 0x0, .plain, 0xc8⟩,
  ⟨0xb00, 0, 1, 0x0, 0x180, 0x0, .plain, 0x0⟩,
  ⟨0xb04, 0, 1, 0x0, 0x180, 0x0, .plain, 0x0⟩,
  ⟨0xb08, 0, 1, 0x0, 0x0, 0x0, .plain, 0x0⟩,
  ⟨0xb0c, 0, 1, 0x0, 0x0, 0x0, .plain, 0x0⟩,
  ⟨0xb10, 0, 1, 0x0, 0x0, 0x0, .plain, 0x0⟩,
  ⟨0xb14, 0, 1, 0x0, 0x0, 0x0, .plain, 0x0⟩,
  ⟨0xb20, 0, 1, 0x0, 0x0, 0x0, .plain, 0x0⟩,
  ⟨0xb40, 0, 1, 0x13f, 0x0, 0x0, .plain, 0x0⟩,
  ⟨0xb80, 4, 32, 0x0, 0x0, 0x0, .plain, 0x0⟩,
  ⟨0xc00, 4, 64, 0x0, 0x0, 0x0, .plain, 0x0⟩,
  ⟨0xd00, 8, 64, 0x0, 0x0, 0x0, .plain, 0x0⟩,
  ⟨0xd04, 8, 64, 0x0, 0x0, 0x0, .plain, 0x0⟩,
  ⟨0xa54, 0, 1, 0x0, 0x0, 0x0, .plain, 0x0⟩,
  ⟨0xa58, 0, 1, 0x0, 0x0, 0x0, .plain, 0x0⟩,
  ⟨0xa5c, 0, 1, 0x0, 0x0, 0x0, .plain, 0x0⟩,
  ⟨0xa60, 0, 1, 0x0, 0x0, 0x0, .plain, 0x0⟩,
  ⟨0xa64, 0, 1, 0x0, 0x0, 0x0, .plain, 0x0⟩]

/-- Every register word of the RNG page. -/
def rngRows : List RegRow := rngRows0 ++ rngRows1 ++ rngRows2

/-- Register words of the FBK page, part 1. -/
def fbkRows0 : List RegRow := [
  ⟨0x100, 8, 16, 0x77f, 0x0, 0x0, .plain, 0x0⟩,
  ⟨0x104, 8, 16, 0xffffffff, 0x0, 0x0, .plain, 0x4000000⟩,
  ⟨0x180, 4, 8, 0xf3, 0x0, 0x0, .plain, 0x20⟩,
  ⟨0x1a0, 16, 8, 0x7fff, 0x0, 0x0, .plain, 0xb2⟩,
  ⟨0x1a4, 16, 8, 0xffff07ff, 0x0, 0x0, .plain, 0x18⟩,
  ⟨0x1a8, 16, 8, 0xffff001f, 0x0, 0x0, .plain, 0x640000⟩,
  ⟨0x1ac, 16, 8, 0xffffffff, 0x0, 0x0, .plain, 0xffffffff⟩,
  ⟨0x220, 4, 4, 0xffffffff, 0x0, 0x0, .plain, 0x0⟩,
  ⟨0x880, 4, 16, 0x0, 0x70, 0x0, .plain, 0x0⟩,
  ⟨0x800, 8, 16, 0x0, 0x0, 0x0, .plain, 0x0⟩,
  ⟨0x804, 8, 16, 0x0, 0x0, 0x0, .plain, 0x0⟩,
  ⟨0x8c0, 8, 16, 0x0, 0x0, 0x0, .plain, 0x0⟩,
  ⟨0x8c4, 8, 16, 0x0, 0x0, 0x0, .plain, 0x0⟩,
  ⟨0x940, 4, 16, 0x0, 0x0, 0x0, .plain, 0x0⟩,
  ⟨0x980, 4, 8, 0x0, 0x300, 0x0, .plain, 0x0⟩,
  ⟨0x9a0, 8, 8, 0x0, 0x0, 0x0, .plain, 0x0⟩,
  ⟨0x9a4, 8, 8, 0x0, 0x0, 0x0, .plain, 0x0⟩,
  ⟨0x9e0, 4, 8, 0x0, 0x10, 0x0, .plain, 0x0⟩,
  ⟨0xa00, 4, 16, 0x0, 0x0, 0x0, .plain, 0x0⟩,
  ⟨0xa40, 4, 16, 0x0, 0x0, 0x0, .plain, 0x0⟩,
  ⟨0xa80, 4, 16, 0x0, 0x0, 0x0, .plain, 0x0⟩,
  ⟨0xac0, 4, 8, 0x0, 0x0, 0x0, .plain, 0x0⟩,
  ⟨0xae0, 4, 8, 0x0, 0x0, 0x0, .plain, 0x0⟩,
  ⟨0xc00, 8, 128, 0x0, 0x0, 0x0, .plain, 0x0⟩]

/-- Register words of the FBK page, part 2. -/
def fbkRows1 : List RegRow := [
  ⟨0xc04, 8, 128, 0x0, 0x0, 0x0, .plain, 0x0⟩]

/-- Every register word of the FBK page. -/
def fbkRows : List RegRow := fbkRows0 ++ fbkRows1

/-- Register words of the LAX page. -/
def laxRows0 : List RegRow := [
  ⟨0x100, 0, 1, 0x3f1f3, 0x0, 0x0, .plain, 0x0⟩,
  ⟨0x104, 0, 1, 0xffffffff, 0x0, 0x0, .plain, 0x10000⟩,
  ⟨0x108, 0, 1, 0xffffffff, 0x0, 0x0, .plain, 0x100008⟩,
  ⟨0x10c, 0, 1, 0xffff, 0x0, 0x0, .plain, 0x640⟩,
  ⟨0x110, 0, 1, 0xffffff, 0x0, 0x0, .plain, 0xfa0a⟩,
  ⟨0x114, 0, 1, 0xffffffff, 0x0, 0x0, .plain, 0x0⟩,
  ⟨0x118, 0, 1, 0xffffffff, 0x0, 0x0, .plain, 0x0⟩,
  ⟨0x11c, 0, 1, 0xffffffff, 0x0, 0x0, .plain, 0x0⟩,
  ⟨0x800, 0, 1, 0x0, 0x1c, 0x0, .plain, 0x0⟩,
  ⟨0x808, 0, 1, 0x0, 0x0, 0x0, .plain, 0x0⟩,
  ⟨0x80c, 0, 1, 0x0, 0x0, 0x0, .plain, 0x0⟩,
  ⟨0x810, 0, 1, 0x0, 0x0, 0x0, .plain, 0x0⟩,
  ⟨0x814, 0, 1, 0x0, 0x0, 0x0, .plain, 0x0⟩,
  ⟨0x818, 0, 1, 0x0, 0x0, 0x0, .plain, 0x0⟩,
  ⟨0x81c, 0, 1, 0x0, 0x0, 0x0, .plain, 0x0⟩,
  ⟨0x820, 0, 1, 0x0, 0x0, 0x0, .plain, 0x0⟩,
  ⟨0x900, 0, 1, 0x0, 0x0, 0x0, .plain, 0x0⟩,
  ⟨0x904, 0, 1, 0x0, 0x0, 0x0, .plain, 0x0⟩,
  ⟨0x908, 0, 1, 0x0, 0x0, 0x0, .plain, 0x0⟩]

/-- Every register word of the LAX page. -/
def laxRows : List RegRow := laxRows0

/-- Register words of the FIO page, part 1. -/
def fioRows0 : List RegRow := [
  ⟨0x100, 0, 1, 0xff0f, 0x0, 0x0, .plain, 0x101⟩,
  ⟨0x104, 0, 1, 0xffffffff, 0x0, 0x0, .plain, 0x0⟩,
  ⟨0x108, 0, 1, 0xffffffff, 0x0, 0x0, .plain, 0x0⟩,
  ⟨0x10c, 0, 1, 0xffffffff, 0x0, 0x0, .plain, 0x0⟩,
  ⟨0x180, 0, 1, 0xff, 0x0, 0x0, .plain, 0x8⟩,
  ⟨0x184, 0, 1, 0xffff, 0x0, 0x0, .plain, 0xa⟩,
  ⟨0x120, 4, 8, 0xff07, 0x0, 0x0, .plain, 0x102⟩,
  ⟨0x140, 4, 12, 0xffffff3f, 0x0, 0x0, .plain, 0x5140500⟩,
  ⟨0x170, 4, 4, 0xffffff3f, 0x0, 0x0, .plain, 0x5140502⟩,
  ⟨0x81c, 0, 1, 0x0, 0x3f, 0x0, .plain, 0x0⟩,
  ⟨0x800, 0, 1, 0xffff, 0x0, 0x0, .plain, 0x0⟩,
  ⟨0x804, 0, 1, 0x0, 0x0, 0x0, .plain, 0x0⟩,
  ⟨0x808, 0, 1, 0x0, 0x0, 0x0, .plain, 0x0⟩,
  ⟨0x80c, 0, 1, 0x0, 0x0, 0x0, .plain, 0x0⟩,
  ⟨0x810, 0, 1, 0x0, 0xffff, 0x0, .plain, 0x0⟩,
  ⟨0x814, 0, 1, 0x0, 0xffff, 0x0, .plain, 0x0⟩,
  ⟨0x818, 0, 1, 0x0, 0xffffffff, 0x0, .plain, 0x0⟩,
  ⟨0x820, 0, 1, 0x0, 0x0, 0x0, .plain, 0x0⟩,
  ⟨0x840, 4, 16, 0x0, 0x0, 0x0, .plain, 0x0⟩,
  ⟨0x880, 4, 8, 0x0, 0x0, 0x0, .plain, 0x0⟩,
  ⟨0x8a0, 4, 8, 0x0, 0x0, 0x0, .plain, 0x0⟩,
  ⟨0x8c0, 4, 8, 0x0, 0x0, 0x0, .plain, 0x0⟩,
  ⟨0x8e0, 0, 1, 0x0, 0x0, 0x0, .plain, 0x0⟩,
  ⟨0x900, 0, 1, 0x0, 0x0, 0x0, .plain, 0x0⟩]

/-- Register words of the FIO page, part 2. -/
def fioRows1 : List RegRow := [
  ⟨0x904, 0, 1, 0x0, 0x0, 0x0, .plain, 0x0⟩,
  ⟨0x908, 0, 1, 0x0, 0x0, 0x0, .plain, 0x0⟩,
  ⟨0x90c, 0, 1, 0x0, 0x0, 0x0, .plain, 0x0⟩,
  ⟨0x910, 0, 1, 0x0, 0x0, 0x0, .plain, 0x0⟩,
  ⟨0x914, 0, 1, 0x0, 0x0, 0x0, .plain, 0x0⟩,
  ⟨0x918, 0, 1, 0x0, 0x0, 0x0, .plain, 0x0⟩]

/-- Every register word of the FIO page. -/
def fioRows : List RegRow := fioRows0 ++ fioRows1

/-- Register words of the ETH page, part 1. -/
def ethRows0 : List RegRow := [
  ⟨0x100, 0, 1, 0x3fff0f, 0x0, 0x0, .plain, 0x5f208⟩,
  ⟨0x104, 0, 1, 0xffffffff, 0x0, 0x0, .plain, 0x0⟩,
  ⟨0x108, 0, 1, 0xffff, 0x0, 0x0, .plain, 0x0⟩,
  ⟨0x10c, 0, 1, 0x7, 0x0, 0x0, .plain, 0x0⟩,
  ⟨0x110, 0, 1, 0xff, 0x0, 0x0, .plain, 0x0⟩,
  ⟨0x114, 0, 1, 0xffffffff, 0x0, 0x0, .plain, 0x0⟩,
  ⟨0x140, 32, 4, 0xffffffff, 0x0, 0x0, .plain, 0x0⟩,
  ⟨0x144, 32, 4, 0x3fffffff, 0x0, 0x0, .plain, 0x3ff0000⟩,
  ⟨0x148, 32, 4, 0xffffffff, 0x0, 0x0, .plain, 0xff000000⟩,
  ⟨0x14c, 32, 4, 0xffffffff, 0x0, 0x0, .plain, 0x10000⟩,
  ⟨0x150, 32, 4, 0xffffffff, 0x0, 0x0, .plain, 0x0⟩,
  ⟨0x154, 32, 4, 0xffffffff, 0x0, 0x0, .plain, 0x0⟩,
  ⟨0x158, 32, 4, 0x3, 0x0, 0x0, .plain, 0x0⟩,
  ⟨0x15c, 32, 4, 0xffffffff, 0x0, 0x0, .plain, 0x0⟩,
  ⟨0x800, 0, 1, 0x0, 0x70, 0x0, .plain, 0x0⟩,
  ⟨0x840, 4, 8, 0x0, 0x0, 0x0, .plain, 0x0⟩,
  ⟨0x860, 4, 8, 0xff, 0x0, 0x0, .plain, 0x0⟩,
  ⟨0x880, 4, 8, 0x0, 0x0, 0x0, .plain, 0x0⟩,
  ⟨0x8a0, 4, 8, 0xff, 0x0, 0x0, .plain, 0x0⟩,
  ⟨0x8c0, 4, 4, 0x0, 0x0, 0x0, .plain, 0x0⟩,
  ⟨0xa00, 0, 1, 0x0, 0x0, 0x0, .plain, 0x0⟩,
  ⟨0xa04, 0, 1, 0x0, 0x0, 0x0, .plain, 0x0⟩,
  ⟨0xa08, 0, 1, 0x0, 0x0, 0x0, .plain, 0x0⟩,
  ⟨0xa0c, 0, 1, 0x0, 0x0, 0x0, .plain, 0x0⟩]

/-- Register words of the ETH page, part 2. -/
def ethRows1 : List RegRow := [
  ⟨0xa10, 4, 8, 0x0, 0x0, 0x0, .plain, 0x0⟩,
  ⟨0xa30, 0, 1, 0x0, 0x0, 0x0, .plain, 0x0⟩,
  ⟨0xa34, 0, 1, 0x0, 0x0, 0x0, .plain, 0x0⟩,
  ⟨0xa38, 0, 1, 0x0, 0x0, 0x0, .plain, 0x0⟩,
  ⟨0xa3c, 0, 1, 0x0, 0x0, 0x0, .plain, 0x0⟩,
  ⟨0xa40, 0, 1, 0x0, 0x0, 0x0, .plain, 0x0⟩,
  ⟨0xa44, 0, 1, 0x0, 0x0, 0x0, .plain, 0x0⟩]

/-- Every register word of the ETH page. -/
def ethRows : List RegRow := ethRows0 ++ ethRows1

/-- Register words of the PCI page. -/
def pciRows0 : List RegRow := [
  ⟨0x100, 0, 1, 0x17f, 0x0, 0x0, .plain, 0x100⟩,
  ⟨0x800, 0, 1, 0x0, 0x180, 0x0, .plain, 0x0⟩,
  ⟨0xa00, 0, 1, 0x0, 0x0, 0x0, .plain, 0x0⟩,
  ⟨0xa04, 0, 1, 0x0, 0x0, 0x0, .plain, 0x0⟩,
  ⟨0xa08, 0, 1, 0x0, 0x0, 0x0, .plain, 0x0⟩,
  ⟨0xa0c, 0, 1, 0x0, 0x0, 0x0, .plain, 0x0⟩]

/-- Every register word of the PCI page. -/
def pciRows : List RegRow := pciRows0

/-- Register words of the TWN page. -/
def twnRows0 : List RegRow := [
  ⟨0x100, 0, 1, 0xff0fff, 0x0, 0x0, .plain, 0x1001f8⟩,
  ⟨0x104, 0, 1, 0xffffffff, 0x0, 0x0, .plain, 0x7d003e8⟩,
  ⟨0x108, 0, 1, 0xffffffff, 0x0, 0x0, .plain, 0x400000⟩,
  ⟨0x10c, 0, 1, 0xffff, 0x0, 0x0, .plain, 0x258⟩,
  ⟨0x110, 0, 1, 0xffffffff, 0x0, 0x0, .plain, 0x0⟩,
  ⟨0x114, 0, 1, 0xffffffff, 0x0, 0x0, .plain, 0x0⟩,
  ⟨0x118, 0, 1, 0xffffffff, 0x0, 0x0, .plain, 0x0⟩,
  ⟨0x804, 0, 1, 0x0, 0x2f00, 0x0, .plain, 0x0⟩,
  ⟨0x800, 0, 1, 0x0, 0x0, 0x0, .writeOnly, 0x0⟩,
  ⟨0x808, 0, 1, 0x0, 0x0, 0x0, .plain, 0x0⟩,
  ⟨0x80c, 0, 1, 0x0, 0x0, 0x0, .plain, 0x0⟩,
  ⟨0x810, 0, 1, 0x0, 0x0, 0x0, .plain, 0x0⟩,
  ⟨0x814, 0, 1, 0x0, 0x0, 0x0, .plain, 0x0⟩,
  ⟨0x900, 0, 1, 0x0, 0x0, 0x0, .plain, 0x0⟩,
  ⟨0x904, 0, 1, 0x0, 0x0, 0x0, .plain, 0x0⟩,
  ⟨0x908, 0, 1, 0x0, 0x0, 0x0, .plain, 0x0⟩,
  ⟨0x90c, 0, 1, 0x0, 0x0, 0x0, .plain, 0x0⟩,
  ⟨0x910, 0, 1, 0x0, 0x0, 0x0, .plain, 0x0⟩,
  ⟨0x914, 0, 1, 0x0, 0x0, 0x0, .plain, 0x0⟩,
  ⟨0x918, 0, 1, 0x0, 0x0, 0x0, .plain, 0x0⟩,
  ⟨0x91c, 0, 1, 0x0, 0x0, 0x0, .plain, 0x0⟩,
  ⟨0x920, 0, 1, 0x0, 0x0, 0x0, .plain, 0x0⟩,
  ⟨0x924, 0, 1, 0x0, 0x0, 0x0, .plain, 0x0⟩,
  ⟨0x928, 0, 1, 0x0, 0x0, 0x0, .plain, 0x0⟩]

/-- Every register word of the TWN page. -/
def twnRows : List RegRow := twnRows0

/-- Register words of the MEM page, part 1. -/
def memRows0 : List RegRow := [
  ⟨0x100, 0, 1, 0xffffffff, 0x0, 0x0, .plain, 0x320040⟩,
  ⟨0x140, 8, 16, 0x1ffffff, 0x0, 0x0, .plain, 0x0⟩,
  ⟨0x144, 8, 16, 0x1ffffff, 0x0, 0x0, .plain, 0x0⟩,
  ⟨0x800, 0, 1, 0x0, 0x1bf, 0x0, .plain, 0x0⟩,
  ⟨0x808, 0, 1, 0x0, 0x0, 0x0, .plain, 0x0⟩,
  ⟨0x80c, 0, 1, 0x0, 0x0, 0x0, .plain, 0x0⟩,
  ⟨0x810, 0, 1, 0x0, 0x0, 0x0, .plain, 0x0⟩,
  ⟨0x814, 0, 1, 0x0, 0x0, 0x0, .plain, 0x0⟩,
  ⟨0x818, 0, 1, 0x1f, 0x0, 0x0, .plain, 0x0⟩,
  ⟨0x820, 0, 1, 0x0, 0x0, 0x0, .plain, 0x0⟩,
  ⟨0x824, 0, 1, 0x0, 0x0, 0x0, .plain, 0x0⟩,
  ⟨0x828, 0, 1, 0x0, 0x0, 0x0, .plain, 0x0⟩,
  ⟨0xa00, 0, 1, 0x0, 0x0, 0x0, .plain, 0x0⟩,
  ⟨0xa04, 0, 1, 0x0, 0x0, 0x0, .plain, 0x0⟩,
  ⟨0xa08, 0, 1, 0x0, 0x0, 0x0, .plain, 0x0⟩,
  ⟨0xa0c, 0, 1, 0x0, 0x0, 0x0, .plain, 0x0⟩,
  ⟨0xa10, 0, 1, 0x0, 0x0, 0x0, .plain, 0x0⟩,
  ⟨0xa14, 0, 1, 0x0, 0x0, 0x0, .plain, 0x0⟩,
  ⟨0xa18, 0, 1, 0x0, 0x0, 0x0, .plain, 0x0⟩,
  ⟨0xa1c, 0, 1, 0x0, 0x0, 0x0, .plain, 0x0⟩,
  ⟨0xa20, 0, 1, 0x0, 0x0, 0x0, .plain, 0x0⟩,
  ⟨0xa24, 0, 1, 0x0, 0x0, 0x0, .plain, 0x0⟩,
  ⟨0xa28, 0, 1, 0x0, 0x0, 0x0, .plain, 0x0⟩,
  ⟨0xa2c, 0, 1, 0x0, 0x0, 0x0, .plain, 0x0⟩]

/-- Register words of the MEM page, part 2. -/
def memRows1 : List RegRow := [
  ⟨0xa30, 0, 1, 0x0, 0x0, 0x0, .plain, 0x0⟩]

/-- Every register word of the MEM page. -/
def memRows : List RegRow := memRows0 ++ memRows1

/-- Register words of the CDC page. -/
def cdcRows0 : List RegRow := [
  ⟨0x800, 0, 1, 0x0, 0x7, 0x0, .plain, 0x0⟩,
  ⟨0x804, 0, 1, 0x0, 0x0, 0x0, .plain, 0x0⟩,
  ⟨0x808, 0, 1, 0x0, 0x0, 0x0, .plain, 0x0⟩,
  ⟨0xa00, 0, 1, 0x0, 0x0, 0x0, .plain, 0x0⟩,
  ⟨0xa04, 0, 1, 0x0, 0x0, 0x0, .plain, 0x0⟩,
  ⟨0xa08, 0, 1, 0x0, 0x0, 0x0, .plain, 0x0⟩,
  ⟨0xa0c, 0, 1, 0x0, 0x0, 0x0, .plain, 0x0⟩,
  ⟨0xa10, 0, 1, 0x0, 0x0, 0x0, .plain, 0x0⟩,
  ⟨0xa14, 0, 1, 0x0, 0x0, 0x0, .plain, 0x0⟩,
  ⟨0xa18, 0, 1, 0x0, 0x0, 0x0, .plain, 0x0⟩]

/-- Every register word of the CDC page. -/
def cdcRows : List RegRow := cdcRows0

/-- Register words of the EVT page, part 1. -/
def evtRows0 : List RegRow := [
  ⟨0x100, 0, 1, 0xffff0f07, 0x0, 0x0, .plain, 0xc02⟩,
  ⟨0x104, 0, 1, 0xffffffff, 0x0, 0x0, .plain, 0x17c0000⟩,
  ⟨0x108, 0, 1, 0xffffffff, 0x0, 0x0, .plain, 0x17d0000⟩,
  ⟨0x10c, 0, 1, 0xffffffff, 0x0, 0x0, .plain, 0x17e0000⟩,
  ⟨0x110, 0, 1, 0xfc000000, 0x0, 0x0, .plain, 0x0⟩,
  ⟨0x120, 4, 4, 0xffffffff, 0x0, 0x0, .plain, 0x0⟩,
  ⟨0x800, 0, 1, 0x0, 0x70, 0x0, .plain, 0x0⟩,
  ⟨0x808, 0, 1, 0x0, 0x0, 0x0, .writeOnly, 0x0⟩,
  ⟨0x80c, 0, 1, 0x0, 0x0, 0x0, .writeOnly, 0x0⟩,
  ⟨0x810, 0, 1, 0x0, 0x0, 0x0, .plain, 0x0⟩,
  ⟨0x814, 0, 1, 0x3fff, 0x0, 0x0, .plain, 0x0⟩,
  ⟨0x818, 0, 1, 0x0, 0x0, 0x0, .plain, 0x0⟩,
  ⟨0x81c, 0, 1, 0x3ffffe0, 0x0, 0x0, .plain, 0x0⟩,
  ⟨0x840, 32, 4, 0x0, 0x0, 0x0, .writeOnly, 0x0⟩,
  ⟨0x844, 32, 4, 0x0, 0x0, 0x0, .writeOnly, 0x0⟩,
  ⟨0x848, 32, 4, 0x0, 0x0, 0x0, .writeOnly, 0x0⟩,
  ⟨0x84c, 32, 4, 0x0, 0x0, 0x0, .writeOnly, 0x0⟩,
  ⟨0x850, 32, 4, 0x0, 0x0, 0x0, .writeOnly, 0x0⟩,
  ⟨0x854, 32, 4, 0x0, 0x0, 0x0, .writeOnly, 0x0⟩,
  ⟨0x858, 32, 4, 0x0, 0x0, 0x0, .writeOnly, 0x0⟩,
  ⟨0x85c, 32, 4, 0x0, 0x0, 0x0, .writeOnly, 0x0⟩,
  ⟨0xa00, 0, 1, 0x0, 0x0, 0x0, .plain, 0x0⟩,
  ⟨0xa04, 0, 1, 0x0, 0x0, 0x0, .plain, 0x0⟩,
  ⟨0xa08, 0, 1, 0x0, 0x0, 0x0, .plain, 0x0⟩]

/-- Register words of the EVT page, part 2. -/
def evtRows1 : List RegRow := [
  ⟨0xa0c, 0, 1, 0x0, 0x0, 0x0, .plain, 0x0⟩,
  ⟨0xa10, 0, 1, 0x0, 0x0, 0x0, .plain, 0x0⟩,
  ⟨0xa14, 0, 1, 0x0, 0x0, 0x0, .plain, 0x0⟩,
  ⟨0xa18, 0, 1, 0x0, 0x0, 0x0, .plain, 0x0⟩,
  ⟨0xa1c, 0, 1, 0x0, 0x0, 0x0, .plain, 0x0⟩,
  ⟨0xc00, 4, 128, 0x0, 0x0, 0x0, .plain, 0x0⟩]

/-- Every register word of the EVT page. -/
def evtRows : List RegRow := evtRows0 ++ evtRows1

/-- Register words of the SYS page, part 1. -/
def sysRows0 : List RegRow := [
  ⟨0x100, 0, 1, 0x7f, 0x0, 0x0, .plain, 0x40⟩,
  ⟨0x104, 0, 1, 0xffff0001, 0x0, 0x0, .plain, 0x3e80000⟩,
  ⟨0x108, 0, 1, 0xf1, 0x0, 0x0, .plain, 0x1⟩,
  ⟨0x140, 0, 1, 0x1ffffff, 0x0, 0x0, .plain, 0x0⟩,
  ⟨0x144, 0, 1, 0x1ffffff, 0x0, 0x0, .plain, 0x90000⟩,
  ⟨0x148, 0, 1, 0x1ffffff, 0x0, 0x0, .plain, 0x120000⟩,
  ⟨0x14c, 0, 1, 0x1ffffff, 0x0, 0x0, .plain, 0x122000⟩,
  ⟨0x150, 0, 1, 0x1ffffff, 0x0, 0x0, .plain, 0x124000⟩,
  ⟨0x154, 0, 1, 0x1ffffff, 0x0, 0x0, .plain, 0x128000⟩,
  ⟨0x158, 0, 1, 0x1ffffff, 0x0, 0x0, .plain, 0x130000⟩,
  ⟨0x15c, 0, 1, 0x1ffffff, 0x0, 0x0, .plain, 0x150000⟩,
  ⟨0x800, 0, 1, 0x0, 0x0, 0x1f, .plain, 0x0⟩,
  ⟨0x808, 0, 1, 0x0, 0x780, 0x0, .plain, 0x1⟩,
  ⟨0x804, 0, 1, 0x0, 0x0, 0x0, .writeOnly, 0x0⟩,
  ⟨0x80c, 0, 1, 0x0, 0x0, 0x0, .plain, 0x0⟩,
  ⟨0x810, 0, 1, 0x0, 0x0, 0x0, .plain, 0x0⟩,
  ⟨0x814, 0, 1, 0x0, 0x0, 0x0, .plain, 0x1b10000⟩,
  ⟨0x818, 0, 1, 0x0, 0x0, 0x0, .plain, 0x1⟩,
  ⟨0x81c, 0, 1, 0x0, 0x0, 0x0, .plain, 0x0⟩,
  ⟨0x820, 0, 1, 0x0, 0x0, 0x0, .plain, 0x0⟩,
  ⟨0x824, 0, 1, 0x0, 0x0, 0x0, .plain, 0x0⟩,
  ⟨0x828, 0, 1, 0x0, 0x0, 0x0, .plain, 0x0⟩,
  ⟨0x830, 0, 1, 0x0, 0x0, 0x0, .plain, 0x0⟩,
  ⟨0x834, 0, 1, 0x0, 0x0, 0x0, .plain, 0x0⟩]

/-- Register words of the SYS page, part 2. -/
def sysRows1 : List RegRow := [
  ⟨0x838, 0, 1, 0x0, 0x0, 0x0, .plain, 0x0⟩,
  ⟨0x83c, 0, 1, 0x0, 0x0, 0x0, .plain, 0x0⟩,
  ⟨0xa00, 0, 1, 0x0, 0x0, 0x0, .plain, 0x0⟩,
  ⟨0xa04, 0, 1, 0x0, 0x0, 0x0, .plain, 0x0⟩,
  ⟨0xa08, 0, 1, 0x0, 0x0, 0x0, .plain, 0x0⟩,
  ⟨0xa0c, 0, 1, 0x0, 0x0, 0x0, .plain, 0x0⟩,
  ⟨0xa10, 0, 1, 0x0, 0x0, 0x0, .plain, 0x0⟩]

/-- Every register word of the SYS page. -/
def sysRows : List RegRow := sysRows0 ++ sysRows1

/-- Register words of the PWR page. -/
def pwrRows0 : List RegRow := [
  ⟨0x100, 0, 1, 0x7f, 0x0, 0x0, .plain, 0x7f⟩,
  ⟨0x104, 0, 1, 0xff, 0x0, 0x0, .plain, 0xaa⟩,
  ⟨0x108, 0, 1, 0x7, 0x0, 0x0, .plain, 0x4⟩,
  ⟨0x10c, 0, 1, 0xffff, 0x0, 0x0, .plain, 0x1f4⟩,
  ⟨0x80c, 0, 1, 0x0, 0x3e, 0x0, .plain, 0x0⟩,
  ⟨0x800, 0, 1, 0x0, 0x0, 0x0, .writeOnly, 0x0⟩,
  ⟨0x804, 0, 1, 0x0, 0x0, 0x0, .writeOnly, 0x0⟩,
  ⟨0x808, 0, 1, 0x0, 0x0, 0x70007e, .plain, 0x0⟩,
  ⟨0x810, 0, 1, 0x0, 0x0, 0x0, .plain, 0x400aa⟩,
  ⟨0x814, 0, 1, 0x0, 0x0, 0x0, .plain, 0x1001⟩,
  ⟨0x840, 4, 13, 0x0, 0x0, 0x0, .plain, 0x0⟩,
  ⟨0x880, 4, 13, 0x0, 0x0, 0x0, .readClear, 0x0⟩,
  ⟨0x8c0, 0, 1, 0x0, 0x0, 0x0, .plain, 0x0⟩,
  ⟨0xa00, 0, 1, 0x0, 0x0, 0x0, .plain, 0x0⟩,
  ⟨0xa04, 0, 1, 0x0, 0x0, 0x0, .plain, 0x0⟩,
  ⟨0xa08, 0, 1, 0x0, 0x0, 0x0, .plain, 0x0⟩,
  ⟨0xa0c, 0, 1, 0x0, 0x0, 0x0, .plain, 0x0⟩,
  ⟨0xa10, 0, 1, 0x0, 0x0, 0x0, .plain, 0x0⟩,
  ⟨0xa14, 0, 1, 0x0, 0x0, 0x0, .plain, 0x0⟩]

/-- Every register word of the PWR page. -/
def pwrRows : List RegRow := pwrRows0

/-- Register words of the common layout of every page. -/
def commonRows0 : List RegRow := [
  ⟨0x0, 0, 1, 0x0, 0x0, 0x0, .plain, 0x0⟩,
  ⟨0x4, 0, 1, 0x0, 0x0, 0x0, .plain, 0x0⟩,
  ⟨0x8, 0, 1, 0xf13f, 0x0, 0x0, .plain, 0x0⟩,
  ⟨0xc, 0, 1, 0x0, 0x10, 0x0, .plain, 0x0⟩,
  ⟨0x10, 0, 1, 0x0, 0xffffffff, 0x0, .plain, 0x0⟩,
  ⟨0x14, 0, 1, 0xffffffff, 0x0, 0x0, .plain, 0x0⟩,
  ⟨0x18, 0, 1, 0x0, 0x0, 0x0, .plain, 0x0⟩,
  ⟨0x1c, 0, 1, 0x0, 0x0, 0x0, .writeOnly, 0x0⟩,
  ⟨0x20, 0, 1, 0xffffffff, 0x0, 0x0, .plain, 0x0⟩,
  ⟨0x24, 0, 1, 0x0, 0x0, 0x0, .plain, 0x0⟩,
  ⟨0x28, 0, 1, 0x0, 0x0, 0x0, .plain, 0x0⟩,
  ⟨0x2c, 0, 1, 0x0, 0x0, 0x7, .plain, 0x0⟩]

/-- Every register word of the common layout of every page. -/
def commonRows : List RegRow := commonRows0

/-- Register words of the CLK page. -/
def clkRows0 : List RegRow := [
  ⟨0x800, 0, 1, 0x0, 0xc00, 0x0, .plain, 0x0⟩,
  ⟨0x804, 0, 1, 0x0, 0x0, 0x0, .plain, 0x0⟩,
  ⟨0xa00, 0, 1, 0x0, 0x0, 0x0, .plain, 0x0⟩,
  ⟨0xa04, 0, 1, 0x0, 0x0, 0x0, .plain, 0x0⟩]

/-- Every register word of the CLK page. -/
def clkRows : List RegRow := clkRows0

/-- Register words of the DBG page. -/
def dbgRows0 : List RegRow := [
  ⟨0x800, 0, 1, 0x0, 0xe, 0x0, .plain, 0x0⟩,
  ⟨0x808, 0, 1, 0x0, 0x0, 0x0, .plain, 0x0⟩,
  ⟨0x80c, 0, 1, 0x0, 0x0, 0x0, .plain, 0x0⟩,
  ⟨0x810, 0, 1, 0x0, 0x0, 0x0, .plain, 0x0⟩,
  ⟨0xa00, 0, 1, 0x0, 0x0, 0x0, .plain, 0x0⟩,
  ⟨0xa04, 0, 1, 0x0, 0x0, 0x0, .plain, 0x0⟩]

/-- Every register word of the DBG page. -/
def dbgRows : List RegRow := dbgRows0

/-- The register words of a page of kind `k`, beside the common ones. -/
def rowsOf (k : PageKind) : List RegRow :=
  match k with
  | .sys => sysRows
  | .pwr => pwrRows
  | .clk => clkRows
  | .qtz => qtzRows
  | .dlr => dlrRows
  | .sol => solRows
  | .ssm => ssmRows
  | .saf => safRows
  | .flt => fltRows
  | .fio => fioRows
  | .fbk => fbkRows
  | .pci => pciRows
  | .twn => twnRows
  | .mem => memRows
  | .evt => evtRows
  | .cdc => cdcRows
  | .dbg => dbgRows
  | .rng => rngRows
  | .eth => ethRows
  | .eng => engRows
  | .lax => laxRows
  | .prf => prfRows
  | .prfg => prfgRows
  | .loop => loopRows

/-- Whether a row holds the word at offset `o` of its page. -/
def RegRow.holds (r : RegRow) (o : Nat) : Bool :=
  if r.stride = 0 then o == r.off
  else decide (r.off ≤ o) && (o - r.off) % r.stride == 0 && decide ((o - r.off) / r.stride < r.count)

/-- The register word at a bus address; none at an absent page or at an offset that holds no register. -/
def regRow (addr : Nat) : Option RegRow :=
  if addr < 0x40000000 then none
  else
    match pageKind (pageOf addr) with
    | none => none
    | some (k, _, _) =>
      if pageOff addr < 0x100 then commonRows.find? (fun r => r.holds (pageOff addr))
      else (rowsOf k).find? (fun r => r.holds (pageOff addr))

/-- The value a register word holds at reset: PG_ID is the page's TYPE and INST (rule R430), PG_VER is layout 0x01
and step 0xB1, every other word what its table gives, and an offset that holds no register reads 0 (rule R431).
Where a table gives no reset value the row holds 0: DESIGN CHOICE, notes/assumptions/1.md. -/
def regReset (addr : Nat) : BitVec 32 :=
  if addr < 0x40000000 then 0
  else
    match pageKind (pageOf addr) with
    | none => 0
    | some (_, ty, inst) =>
      if pageOff addr = 0x000 then BitVec.ofNat 32 (ty + 256 * inst)
      else if pageOff addr = 0x004 then 0xB101
      else
        match regRow addr with
        | none => 0
        | some r => BitVec.ofNat 32 r.reset

end Sys2Proof.Machine
end

