-- ==== Sys2Proof/Machine/State.lean ====
section
/-! DEFINITION. The state of the part: plain data. `regs` holds every register of every page (Machine/RegMap.lean
lists them with their reset values); the memories are `cell`, `dram`, `flash`, `code` and `data`; the structures
of Machine/Units.lean hold what the units keep beside their registers. -/

namespace Sys2Proof.Machine

/-- Why a step faults: no meaning of this model faults (every command has its effect or is turned away as the spec
says). Raised by nobody; safe. -/
inductive Fault where
  /-- Raised by nobody: kept so that the type is inhabited; safe. -/
  | noSuchFault
  deriving DecidableEq, Repr

/-- Why a step is refused. -/
inductive Refusal where
  /-- Raised by the dispatch for a command that has no meaning yet; safe: nothing can be proved through it. -/
  | notModelled (mnemonic : String)
  deriving DecidableEq, Repr

/-- What a unit of a twin pair keeps beside the TWN page (rules R352 to R366). -/
structure Twin where
  /-- ILK_OWN_n is driven low and the check of step 4 is due, for a switchover or not; and a retreat waits for its retry. -/
  taking : Option Bool
  retry : Option Bool
  /-- The role from the next boundary on. -/
  next : Option Nat
  /-- The active unit: a resignation goes out with the next heartbeat; the level of TWIN_HB_O; the image of this tick's heartbeat. -/
  resign : Bool
  hbOut : Bool
  hbSent : Option (Nat × Bool × Bool × Word)
  /-- The heartbeat paths since the last check, the last heartbeat on either, and consecutive checks with both missing. -/
  pinSeen : Bool
  linkSeen : Bool
  hbLast : Option Nat
  missRun : Nat
  /-- The active unit's failure has been recognised. -/
  recog : Bool
  /-- Digests of a tick: the shadow's own, and the one received. -/
  own : Option (Nat × Word)
  peer : Option (Nat × Word)
  /-- Since the sync: no divergence and no LAPSE, and no mirror gap. -/
  digestOk : Bool
  mirrorOk : Bool
  /-- The mirror of this tick is complete, and identity and images match the peer's. -/
  mirrored : Bool
  same : Bool
  /-- The health word last sent, and since when its bits 0 to 8 have all been 1. -/
  health : Word
  okSince : Option Nat
  /-- A sync runs. -/
  syncing : Bool
  /-- The transition of the active unit's device state that the next boundary follows, rule R357. -/
  lead : Option DevState
  /-- The unit has resigned before this tick: it acts no more, rule R364. -/
  quiet : Bool
  deriving DecidableEq, Repr

def Twin.reset : Twin :=
  { taking := none, retry := none, next := none, resign := false, hbOut := false, hbSent := none, pinSeen := false,
    linkSeen := false, hbLast := none, missRun := 0, recog := false, own := none, peer := none, digestOk := false,
    mirrorOk := false, mirrored := false, same := false, health := 0, okSince := none, syncing := false, lead := none, quiet := false }

/-- The whole state of the part. -/
structure State where
  /-- Every register of every page, by bus address; an unlisted one holds its reset value. -/
  regs : List (Nat × Word)
  /-- Configuration registers whose written value takes effect at the next tick boundary, with the value still in force. -/
  late : List (Nat × Word)
  /-- Words written at +0 of 64-bit registers, by address, until the word at +4 is written, rule R435. -/
  held64 : List (Nat × Word)
  /-- Cell memory, 24 MiB, by byte offset (rule R465). -/
  cell : Memory
  /-- LPDDR4X, by byte address. -/
  dram : Memory
  /-- Boot flash, by byte address (rule R343's map). -/
  flash : Memory
  /-- The system controller. -/
  sys : Sys
  /-- The power controller. -/
  pwr : Pwr
  /-- Quartz. -/
  qtz : Quartz
  /-- The event unit. -/
  evt : Evt
  /-- MSI-X messages the endpoint has sent, oldest first (rule R444). -/
  msix : List Nat
  /-- The model's own counter of free values taken so far (DESIGN CHOICE, notes/assumptions/4.md). -/
  free : Nat
  /-- The commands that wait, first in, first out. -/
  pending : List Instr
  /-- Memory errors and crossings. -/
  integ : Integ
  /-- The 64 motion engines by number. -/
  eng : List (Nat × Eng)
  /-- Code SRAM: engine e from 0x10000 × e. -/
  code : Memory
  /-- Data SRAM: engine e from 0x20000 × e. -/
  data : Memory
  /-- The Dealer. -/
  dlr : Dlr
  /-- The profile generators, groups, mailboxes and compares. -/
  prof : Prof
  /-- The loop engine. -/
  loop : Loop
  /-- The cell solver. -/
  sol : Sol
  /-- The separation unit. -/
  ssm : Ssm
  /-- The safety logic, Flint and Slate. -/
  saf : Saf
  /-- The ring ports P0 to P3 by number. -/
  ring : List (Nat × RingPort)
  /-- The feedback channels and the local axes. -/
  fbk : Feedback
  /-- The field die. -/
  field : Field
  /-- Plant ports, endpoint, flash controller, JTAG port and the data read last. -/
  plant : Plant
  /-- The twin unit. -/
  twin : Twin
  deriving DecidableEq, Repr

/-- The part right after a power-on reset (state RESET, rule R26): every register at its table value (no entry), every
memory blank, every unit as its `reset` says. Reset values the spec does not give are named in notes/assumptions/1.md. -/
def State.reset : State :=
  { regs := [],
    late := [],
    held64 := [],
    cell := [],
    dram := [],
    flash := [],
    sys := Sys.reset,
    pwr := Pwr.reset,
    qtz := Quartz.reset,
    evt := Evt.reset,
    msix := [],
    free := 0,
    pending := [],
    integ := Integ.reset,
    eng := [],
    code := [],
    data := [],
    dlr := Dlr.reset,
    prof := Prof.reset,
    loop := Loop.reset,
    sol := Sol.reset,
    ssm := Ssm.reset,
    saf := Saf.reset,
    ring := [],
    fbk := Feedback.reset,
    field := Field.reset,
    plant := Plant.reset,
    twin := Twin.reset }

end Sys2Proof.Machine
end

