-- ==== Sys2Proof/Machine/Ops.lean ====
section
/-! DEFINITION. The named operations every unit uses: registers and their fields, cell memory, device time, the device
state, raising a condition (rules R391, R442 and R467) and the interrupt lines (rules R443 and R444). -/

namespace Sys2Proof.Machine

/-! ### Registers -/

/-- The word a register holds. -/
def State.rd (s : State) (a : Nat) : Word := Tab.get regReset s.regs a

/-- Write a register word whole. -/
def State.wr (s : State) (a : Nat) (v : Word) : State := { s with regs := Tab.set regReset s.regs a v }

/-- The number a register holds. -/
def State.rdN (s : State) (a : Nat) : Nat := (s.rd a).toNat

/-- The signed number a register holds. -/
def State.rdI (s : State) (a : Nat) : Int := (s.rd a).toInt

/-- Write a number (its low 32 bits). -/
def State.wrN (s : State) (a n : Nat) : State := s.wr a (BitVec.ofNat 32 n)

/-- Write a signed number. -/
def State.wrI (s : State) (a : Nat) (i : Int) : State := s.wr a (BitVec.ofInt 32 i)

/-- The field `hi:lo` of a register. -/
def State.fld (s : State) (a hi lo : Nat) : Nat := bitsOf (s.rdN a) hi lo

/-- Write the field `hi:lo` of a register. -/
def State.setFld (s : State) (a hi lo v : Nat) : State := s.wrN a (withBits (s.rdN a) hi lo v)

/-- Bit `i` of a register. -/
def State.bit (s : State) (a i : Nat) : Bool := (s.rd a).getLsbD i

/-- Write bit `i` of a register. -/
def State.setBit (s : State) (a i : Nat) (b : Bool) : State := s.setFld a i i (b2n b)

/-- Set the bits of a mask. -/
def State.orBits (s : State) (a : Nat) (m : Word) : State := s.wr a (s.rd a ||| m)

/-- Clear the bits of a mask. -/
def State.clrBits (s : State) (a : Nat) (m : Word) : State := s.wr a (s.rd a &&& ~~~m)

/-- Add to a counter that saturates at 0xFFFF_FFFF. -/
def State.add (s : State) (a n : Nat) : State := s.wrN a (min (s.rdN a + n) 0xFFFFFFFF)

/-- Increment a counter that saturates at 0xFFFF_FFFF. -/
def State.inc (s : State) (a : Nat) : State := s.add a 1

/-- A 64-bit register: low word first. -/
def State.rd64 (s : State) (a : Nat) : Nat := s.rdN a + 4294967296 * s.rdN (a + 4)

/-- Write a 64-bit register. -/
def State.wr64 (s : State) (a n : Nat) : State := (s.wrN a n).wrN (a + 4) (n / 4294967296)

/-- A signed 64-bit register. -/
def State.rdI64 (s : State) (a : Nat) : Int := signedOf 64 (s.rd64 a)

/-- Write a signed 64-bit register (wrapping). -/
def State.wrI64 (s : State) (a : Nat) (i : Int) : State := s.wr64 a (wrapTo 64 i)

/-- The word written at +0 of a 64-bit register is held, and takes effect with the one at +4 (here `a`), rule R435. -/
def State.holdLow (s : State) (a : Nat) (v : Word) : State := { s with held64 := Tab.insert a v (Tab.erase a s.held64) }

/-- The word at +4 of a 64-bit register is written: both take their new value. -/
def State.commitHigh (s : State) (a : Nat) (v : Word) : State :=
  ({ s with held64 := Tab.erase (a - 4) s.held64 }.wr (a - 4) (Tab.get (fun k => s.rd k) s.held64 (a - 4))).wr a v

/-- The value of a configuration register in force: what it held at the last tick boundary where its page says that
a write takes effect at the next one, else what it holds. -/
def State.eff (s : State) (a : Nat) : Word := Tab.get (fun k => s.rd k) s.late a

/-- The field `hi:lo` of a configuration register in force. -/
def State.effFld (s : State) (a hi lo : Nat) : Nat := bitsOf (s.eff a).toNat hi lo

/-- Write a configuration register whose value takes effect at the next tick boundary. -/
def State.wrLate (s : State) (a : Nat) (v : Word) : State :=
  { s.wr a v with late := if s.late.any (fun e => e.1 == a) then s.late else (a, s.rd a) :: s.late }

/-! ### Device time and state -/

/-- Device time, ns: QTZ_TIME_NS. -/
def State.now (s : State) : Nat := s.rd64 Reg.QTZ_TIME_NS

/-- Device time without the steps of rule R37: what a duration is measured by. -/
def State.mono (s : State) : Nat := wrapTo 64 ((s.now : Int) - s.qtz.stepped)
def State.tickMono (s : State) : Nat := wrapTo 64 ((s.rd64 Reg.QTZ_LAST_TICK : Int) - s.qtz.stepped)

/-- Device time as one number of 2^-32 ns: QTZ_TIME_NS and QTZ_TIME_FRAC, rule R33. -/
def State.timeQ (s : State) : Nat := 4294967296 * s.now + s.rdN Reg.QTZ_TIME_FRAC

/-- Device time advances to the first edge of the timekeeping clock at which QTZ_TIME_NS reaches `t`: each edge adds
QTZ_TIME_INC, rules R33 and R39. Between the instants that commands name device time stands: DESIGN CHOICE,
notes/assumptions/5.md. -/
def State.advance (s : State) (t : Nat) : State :=
  if t ≤ s.now then s
  else
    let inc := s.rd64 Reg.QTZ_TIME_INC
    let q := s.timeQ + inc * ((4294967296 * t - s.timeQ + inc - 1) / inc)
    (s.wr64 Reg.QTZ_TIME_NS (q / 4294967296)).wrN Reg.QTZ_TIME_FRAC q

/-- QTZ_TICK_NUM. -/
def State.tick (s : State) : Nat := s.rd64 Reg.QTZ_TICK_NUM

/-- The parity of the buffer copies of the present tick: bit 0 of QTZ_TICK_NUM, rule R39. -/
def State.parity (s : State) : Nat := s.tick % 2

/-- The code of a device state in SYS_STAT.STATE, rule R24. -/
def DevState.code : DevState → Nat
  | .off => 0
  | .reset => 1
  | .boot => 2
  | .selftest => 3
  | .ready => 4
  | .run => 5
  | .degraded => 6
  | .safestop => 7
  | .frozen => 8

/-- The order of precedence of coincident triggers, rule R30's coincidences: lower wins. -/
def DevState.rank : DevState → Nat
  | .off => 0
  | .reset => 1
  | .frozen => 2
  | .safestop => 3
  | .degraded => 4
  | .ready => 5
  | .run => 6
  | .selftest => 7
  | .boot => 8

/-- The functional clocks run: BOOT to SAFESTOP. -/
def State.clocked (s : State) : Bool :=
  match s.sys.dev with
  | .off | .reset | .frozen => false
  | _ => true

/-- The tick runs with its phases: SELFTEST (as tests) to SAFESTOP. -/
def State.ticking (s : State) : Bool :=
  match s.sys.dev with
  | .off | .reset | .frozen | .boot => false
  | _ => true

/-- BOOT, SELFTEST or READY: where most configuration is writable. -/
def State.configurable (s : State) : Bool :=
  match s.sys.dev with
  | .boot | .selftest | .ready => true
  | _ => false

/-- RUN or DEGRADED. -/
def State.running (s : State) : Bool :=
  match s.sys.dev with
  | .run | .degraded => true
  | _ => false

/-- A fresh free value: the counter and the state after it. notes/assumptions/4.md. -/
def State.takeFree (s : State) : Nat × State := (s.free, { s with free := s.free + 1 })

/-! ### Domains and lines -/

/-- The domain index of the quad, unit or hub that holds a page's registers (the domain table of spec/18). -/
def domainOf (p : Nat) : Nat :=
  match pageKind p with
  | some (.eng, _, n) => 3 + n / 16
  | some (.sol, _, _) => 7
  | some (.rng, _, _) => 9
  | some (.eth, _, _) => 10
  | some (.pci, _, _) => 10
  | some (.twn, _, _) => 10
  | some (.fio, _, _) => 12
  | some (.flt, _, _) => 12
  | _ => 0

/-- Domain `d` is powered: PWR_DOM_STAT bit d. -/
def State.domOn (s : State) (d : Nat) : Bool := s.bit Reg.PWR_DOM_STAT d

/-- Domain `d` is switched on or off: its bits of PWR_DOM_STAT, and CDC_STAT.PARKED, which shows whether the crossings of some
domain are parked, rules R384 and R405. -/
def State.setDomain (s : State) (d : Nat) (on : Bool) : State :=
  let s1 := (s.setBit Reg.PWR_DOM_STAT d on).setBit Reg.PWR_DOM_STAT (16 + d) (!on)
  s1.setBit Reg.CDC_STAT 4 (s1.fld Reg.PWR_DOM_STAT 31 16 != 0)

/-- PG_IRQ_PEND: PG_IRQ_RAW and PG_IRQ_EN; 0 in an unpowered domain (rules R442 and R443). -/
def State.irqPend (s : State) (p : Nat) : Word :=
  if s.domOn (domainOf p) then s.rd (Reg.PG_IRQ_RAW p) &&& s.rd (Reg.PG_IRQ_EN p) else 0

/-- The present pages with a raised condition: those whose PG_IRQ_RAW is not 0. -/
def State.raisedPages (s : State) : List Nat :=
  (s.regs.filter (fun e => pageOff e.1 == 0x010 && (pageKind (pageOf e.1)).isSome)).map (fun e => pageOf e.1)

/-- The host part of vector `v` is asserted, rule R443. -/
def State.hostVector (s : State) (v : Nat) : Bool :=
  s.raisedPages.any (fun p =>
    decide (s.irqPend p ≠ 0) && s.fld (Reg.PG_CTRL p) 5 0 == v && s.bit (Reg.PG_CTRL p) 8)

/-- The part of vector `v` toward core `n` is asserted, rule R443; source v + 1 of that core's interrupt
controller, rule R445. -/
def State.coreVector (s : State) (v n : Nat) : Bool :=
  s.raisedPages.any (fun p =>
    decide (s.irqPend p ≠ 0) && s.fld (Reg.PG_CTRL p) 5 0 == v && s.bit (Reg.PG_CTRL p) (12 + n))

/-- Send the MSI-X message of vector `v` while the PCIe link is up, rule R444; a masked vector's waits as pending. -/
def State.sendMsix (s : State) (v : Nat) : State :=
  if !s.bit Reg.PCI_STAT 0 then s
  else if s.plant.msixMask.getLsbD v then { s with plant := { s.plant with msixPend := s.plant.msixPend ||| (1#64 <<< v) } }
  else { s with msix := s.msix ++ [v] }

/-- The message of vector `v` when its host part has become asserted since `old`. -/
def State.msixEdge (s old : State) (v : Nat) : State :=
  if s.hostVector v && !old.hostVector v then s.sendMsix v else s

/-- The further message after a write to PG_IRQ_RAW, PG_IRQ_EN or PG_CTRL: each vector the page was or is routed to
whose host part is asserted then, rule R444. -/
def State.msixWrite (s old : State) (p : Nat) : State :=
  let v0 := old.fld (Reg.PG_CTRL p) 5 0
  let v1 := s.fld (Reg.PG_CTRL p) 5 0
  let s1 := if s.hostVector v0 then s.sendMsix v0 else s
  if v1 ≠ v0 && s.hostVector v1 then s1.sendMsix v1 else s1

/-! ### Raising a condition -/

/-- Set bit `b` of a page's PG_IRQ_RAW: the page line, and the vector it is routed to. -/
def State.raiseLine (s : State) (p b : Nat) : State :=
  (s.setBit (Reg.PG_IRQ_RAW p) b true).msixEdge s (s.fld (Reg.PG_CTRL p) 5 0)

/-- A raising crosses to the event unit (rule R392), which runs from BOOT to SAFESTOP. -/
def State.report (s : State) (p b : Nat) (alarm : Bool) (detail : Word) : State :=
  if s.clocked then
    { s with evt := { s.evt with raisings := s.evt.raisings ++ [⟨p, b, alarm, detail, s.now⟩] } }
  else s

/-- A condition sets its PG_IRQ_RAW bit and raises an event, rules R391 and R467. -/
def State.event (s : State) (p b : Nat) (detail : Word) : State := (s.raiseLine p b).report p b false detail

/-- A condition that its chapter names an alarm, rules R391 and R467. -/
def State.alarm (s : State) (p b : Nat) (detail : Word) : State := (s.raiseLine p b).report p b true detail

/-- An access to a page is refused, rules R438, R440 and R466: ACC_REFUSED is set and PG_ERR_CNT counts. -/
def State.refuseAccess (s : State) (p : Nat) : State :=
  (s.setBit (Reg.PG_STAT p) 4 true).inc (Reg.PG_ERR_CNT p)

/-- The determinism guarantee lapses, rule R5: DET_LAPSE is set, an event the first time. -/
def State.detLapse (s : State) : State :=
  if s.bit Reg.SYS_STAT 5 then s else (s.setBit Reg.SYS_STAT 5 true).event Page.SYS 6 0

/-! ### Stop causes -/

/-- The transitions of rule R26 that wait for a tick boundary. Entry to OFF, RESET and FROZEN is immediate. -/
def transition : DevState → DevState → Bool
  | .boot, .selftest => true
  | .selftest, .ready => true
  | .selftest, .safestop => true
  | .ready, .run => true
  | .run, .ready => true
  | .run, .degraded => true
  | .degraded, .run => true
  | .run, .safestop => true
  | .degraded, .safestop => true
  | .safestop, .selftest => true
  | _, _ => false

/-- A trigger for the state `d`: kept for the boundary where rule R26 lists it for the present state, else without effect. -/
def State.trigger (s : State) (d : DevState) : State :=
  if transition s.sys.dev d && !s.sys.triggers.contains d then
    { s with sys := { s.sys with triggers := s.sys.triggers ++ [d] } }
  else s

/-- The stop causes of SYS_STOP_CAUSE, rule R428's table. -/
inductive StopCause where
  | solver | sOverrun | cOverrun | controlPath | compare | safeOutput | tickLoss | degradeMax | freeze | selftest
  deriving DecidableEq, Repr

/-- The bit of a stop cause. -/
def StopCause.num : StopCause → Nat
  | .solver => 0
  | .sOverrun => 1
  | .cOverrun => 2
  | .controlPath => 3
  | .compare => 4
  | .safeOutput => 5
  | .tickLoss => 6
  | .degradeMax => 7
  | .freeze => 8
  | .selftest => 9

/-- A device-level stop cause of rule R28 is present: shown in bits 25:16 of SYS_STOP_CAUSE; in RUN and DEGRADED it is
latched and triggers SAFESTOP, and in SAFESTOP it is latched. -/
def State.stopCause (s : State) (c : StopCause) : State :=
  let s1 := s.setBit Reg.SYS_STOP_CAUSE (16 + c.num) true
  match s.sys.dev with
  | .run | .degraded => (s1.setBit Reg.SYS_STOP_CAUSE c.num true).trigger .safestop
  | .safestop => s1.setBit Reg.SYS_STOP_CAUSE c.num true
  | _ => s1

/-- A stop cause is no longer present. -/
def State.causeGone (s : State) (c : StopCause) : State := s.setBit Reg.SYS_STOP_CAUSE (16 + c.num) false

/-! ### Words that cannot be corrected -/

/-- An offset of cell memory lies in a range of MEM_CPR_r, rule R371. -/
def State.inCpr (s : State) (a : Nat) : Bool :=
  (List.range 16).any (fun r =>
    let ofs := s.effFld (Reg.MEM_CPR r) 24 0
    let len := s.effFld (Reg.MEM_CPR r + 4) 24 0
    decide (ofs ≤ a ∧ a < ofs + len))

/-- A location of the control path, rule R371: SAFEA SRAM, Dealer context memory, and the ranges of MEM_CPR_r. -/
def State.controlPathAt (s : State) (mem a : Nat) : Bool :=
  mem == 0xA0 || mem == 0xA2 || (mem == 0x80 && s.inCpr a)

/-- An error on the control path, rule R371: a functional access sets CP_UE and is the stop cause in RUN and DEGRADED, an
alarm in other states; a detection by the scrubber raises an alarm only. -/
def State.controlPathError (s : State) (scrub : Bool) : State :=
  if scrub then s.alarm Page.MEM 1 0
  else
    let s1 := s.setBit Reg.MEM_STAT 2 true
    if s.running then (s1.event Page.MEM 1 0).stopCause .controlPath else s1.alarm Page.MEM 1 0

/-- MEM_UE_LAST and MEM_CE_LAST: address, memory ID and SCRUB. -/
def locWord (mem a : Nat) (scrub : Bool) : Nat := a % 4294967296 + 4294967296 * (mem % 256) + 1099511627776 * b2n scrub

/-- An uncorrectable error is found, rules R370, R371 and R375: it counts, is recorded, makes the guarantee of rule R5
lapse, and the word stays uncorrectable. -/
def State.ueFound (s : State) (mem a : Nat) (scrub : Bool) : State :=
  let w := (mem, a / 8 * 8)
  let s0 := { s with
    integ := { s.integ with ue := if s.integ.ue.contains w then s.integ.ue else w :: s.integ.ue }
    sol := { s.sol with ecc := s.sol.ecc || mem == 0x90 } }
  let s1 := if mem = 0xE0 then ((s0.inc Reg.MEM_DDR_UE_CNT).setBit Reg.MEM_STAT 4 true).event Page.MEM 3 0
    else s0.inc Reg.MEM_UE_CNT
  let s2 := (((s1.wr64 Reg.MEM_UE_LAST (locWord mem a scrub)).setBit Reg.MEM_STAT 1 true).event Page.MEM 0 0).detLapse
  if s.controlPathAt mem a then s2.controlPathError scrub else s2

/-- Whether `n` bytes from `a` of a memory hold a word known to be uncorrectable. -/
def State.ueIn (s : State) (mem a n : Nat) : Bool :=
  s.integ.ue.any (fun (m, w) => m == mem && decide (w < a + n ∧ a < w + 8))

/-- A functional read of `n` bytes from `a`: what it finds counts, rule R370. -/
def State.ueRead (s : State) (mem a n : Nat) : State :=
  match s.integ.ue.find? (fun (m, w) => m == mem && decide (w < a + n ∧ a < w + 8)) with
  | none => s
  | some (_, w) => s.ueFound mem w false

/-- The uncorrectable words of a safety channel's own SRAM (0xA0: channel A, 0xA1: Slate) that its work in a tick reads. -/
def State.safetyBad (s : State) (mem : Nat) : List Nat :=
  (s.integ.ue.filter (fun p => p.1 == mem && Config.safetyReads mem p.2)).map (fun p => p.2)

/-- A write of `n` bytes from `a` that covers only part of an uncorrectable word is not performed, rule R374. -/
def State.ueBlocks (s : State) (mem a n : Nat) : Bool :=
  s.integ.ue.any (fun (m, w) => m == mem && decide (w < a + n ∧ a < w + 8) && !decide (a ≤ w ∧ w + 8 ≤ a + n))

/-- A narrow write is refused: MEM_RMW_UE_CNT and RMW_UE, and the error is treated under rules R370 and R371. -/
def State.rmwRefused (s : State) (mem a : Nat) : State :=
  ((s.inc Reg.MEM_RMW_UE_CNT).setBit Reg.MEM_STAT 7 true).ueFound mem a false

/-- The uncorrectable words that a write of `n` bytes from `a` covers are replaced, rule R370. -/
def State.ueReplaced (s : State) (mem a n : Nat) : State :=
  if s.integ.ue.isEmpty then s
  else { s with integ := { s.integ with ue := s.integ.ue.filter (fun (m, w) => !(m == mem && decide (a ≤ w ∧ w + 8 ≤ a + n))) } }

/-! ### Cell memory -/

/-- Cell memory's size in bytes: offsets 0x000_0000 to 0x17F_FFFF, rule R465. -/
def cellSize : Nat := 0x1800000

/-- Whether `n` bytes from offset `a` lie wholly within cell memory. -/
def inCell (a n : Nat) : Bool := decide (a + n ≤ cellSize)

/-- `n` bytes of cell memory as a number; an access beyond it completes with an error response and reads 0. -/
def State.cellN (s : State) (a n : Nat) : Nat := if inCell a n then s.cell.getN a n else 0

/-- A 32-bit word of cell memory. -/
def State.cell32 (s : State) (a : Nat) : Nat := s.cellN a 4

/-- A signed 32-bit word of cell memory. -/
def State.cellI32 (s : State) (a : Nat) : Int := signedOf 32 (s.cellN a 4)

/-- A 64-bit word of cell memory. -/
def State.cell64 (s : State) (a : Nat) : Nat := s.cellN a 8

/-- A signed 64-bit word of cell memory. -/
def State.cellI64 (s : State) (a : Nat) : Int := signedOf 64 (s.cellN a 8)

/-- Write `n` bytes of cell memory; a write beyond it, or of part of an uncorrectable word (rule R374), is not made. -/
def State.setCell (s : State) (a n v : Nat) : State :=
  if !inCell a n then s
  else if s.ueBlocks 0x80 a n then s.rmwRefused 0x80 a
  else ({ s with cell := s.cell.setN a n v }).ueReplaced 0x80 a n

/-- Write a signed value of `n` bytes. -/
def State.setCellI (s : State) (a n : Nat) (v : Int) : State := s.setCell a n (wrapTo (8 * n) v)

/-- Set `len` bytes to 0. -/
def State.clearCell (s : State) (a len : Nat) : State :=
  if inCell a len then ({ s with cell := s.cell.clear a len }).ueReplaced 0x80 a len else s

/-- Copy `len` bytes within cell memory. -/
def State.copyCell (s : State) (src dst len : Nat) : State :=
  if inCell src len && inCell dst len then ({ s with cell := s.cell.copy src dst len }).ueReplaced 0x80 dst len else s

/-- The base of a double buffer's copy of parity `par`, from the values in force of its two base registers. -/
def State.baseOf (s : State) (r0 r1 par : Nat) : Nat := if par = 0 then (s.eff r0).toNat else (s.eff r1).toNat

/-- The gather buffer copy, rule R463. -/
def State.gath (s : State) (par : Nat) : Nat := s.baseOf Reg.SYS_GATH_BASE0 Reg.SYS_GATH_BASE1 par

/-- The limit set copy. -/
def State.lim (s : State) (par : Nat) : Nat := s.baseOf Reg.SSM_LIM_BASE0 Reg.SSM_LIM_BASE1 par

/-- The plan set copy: the solver input area. -/
def State.planSet (s : State) (par : Nat) : Nat := s.baseOf Reg.SOL_IN_BASE0 Reg.SOL_IN_BASE1 par

/-- The solution copy. -/
def State.solution (s : State) (par : Nat) : Nat := s.baseOf Reg.SOL_OUT_BASE0 Reg.SOL_OUT_BASE1 par

/-- The command set copy. -/
def State.cmdSet (s : State) (par : Nat) : Nat := s.baseOf Reg.SYS_CMD_BASE0 Reg.SYS_CMD_BASE1 par

/-- The checked command set copy. -/
def State.chkSet (s : State) (par : Nat) : Nat := s.baseOf Reg.SYS_CHK_BASE0 Reg.SYS_CHK_BASE1 par

/-- The writing phase, base and span of each buffer copy of parity `par`, rules R14 and R463. -/
def State.buffers (s : State) (par : Nat) : List (Nat × Nat × Nat) :=
  [(0, s.gath par, 0x84480), (1, s.lim par, 0x710), (2, s.planSet par, 0x24200), (3, s.solution par, 0x2A00),
   (4, s.cmdSet par, 0x1300), (5, s.chkSet par, 0x3400)]

/-- Whether some byte of `len` from an offset lies in a copy of parity `par` that one of the seals `m` closes. -/
def State.sealHit (s : State) (par m a len : Nat) : Bool :=
  (s.buffers par).any (fun (p, b, n) => decide (b < a + len ∧ a < b + n) && m.testBit p)

/-- Whether `len` bytes from an offset meet a copy that Quartz has sealed in this tick, or in the last one: a sealed copy stays
sealed until its parity is current again, rule R48. -/
def State.sealedAt (s : State) (a len : Nat) : Bool :=
  s.sealHit s.parity s.qtz.sealed a len || s.sealHit (1 - s.parity) s.qtz.sealedPrev a len

/-- A store by software, an engine or a port: dropped and counted in QTZ_LATE_WR_CNT at a sealed copy, rule R48. -/
def State.storeCell (s : State) (a n v : Nat) : State :=
  if s.sealedAt a n then s.inc Reg.QTZ_LATE_WR_CNT else s.setCell a n v

/-- A copy of `len` bytes by a unit, dropped and counted as a store is. -/
def State.copySealed (s : State) (src dst len : Nat) : State :=
  if s.sealedAt dst len then s.inc Reg.QTZ_LATE_WR_CNT else s.copyCell src dst len

/-! ### Twin roles -/

/-- TWN_CTRL.EN. -/
def State.twinEn (s : State) : Bool := s.bit Reg.TWN_CTRL 0

/-- TWN_STAT.ROLE: 0 SOLO, 1 ACTIVE, 2 STANDBY, 3 SYNCING. -/
def State.role (s : State) : Nat := s.fld Reg.TWN_STAT 1 0

/-- The unit shadows the active one: STANDBY of a twin pair. -/
def State.standby (s : State) : Bool := s.twinEn && s.role == 2

/-- A twin that is not ACTIVE, or has resigned, sends the all-off word, rules R352 and R364. -/
def State.mute (s : State) : Bool := s.twinEn && (s.role != 1 || s.twin.quiet)

/-- The unit is in shadow, or is being brought into it: the mirror takes the place of its own inputs, rules R356 and R359. -/
def State.shadow (s : State) : Bool := s.twinEn && decide (2 ≤ s.role)

/-! ### Exact results -/

/-- A result in a 64-bit format: the exact value, or an open one, the same for the same exact value (rule R4), where the spec states
none because it does not fit (notes/assumptions/27.md). -/
def fit64 (v : Int) : Int := if satTo 64 v = v then v else (Config.overflow64 v).toInt

/-- What a read leaves on the agent's bus. -/
def State.onBus (s : State) (v : Nat) : State := { s with plant := { s.plant with bus := v } }

/-! ### Folding over indices -/

/-- Apply `f` for the indices 0 to n − 1 in order. -/
def forUpTo (f : Nat → State → State) : Nat → State → State
  | 0, s => s
  | n + 1, s => f n (forUpTo f n s)

/-- Apply `f` for each index of a list in order. -/
def forEach {α : Type} (f : α → State → State) : List α → State → State
  | [], s => s
  | x :: t, s => forEach f t (f x s)

/-- Apply `f` only where `b` holds. -/
def State.when (s : State) (b : Bool) (f : State → State) : State := if b then f s else s

/-- What a safety channel's work of a tick reads of its own SRAM is found, rules R370 and R371. -/
def State.safetyFound (s : State) (mem : Nat) : State := forEach (fun w t => t.ueFound mem w false) (s.safetyBad mem) s

end Sys2Proof.Machine
end

