-- ==== Sys2Proof/Machine/Events.lean ====
section
/-! DEFINITION. The event unit: alarms, events and traces, rules R390 to R404 and R467 (spec/17_events_logs.md). -/

namespace Sys2Proof.Machine

/-- The outcome of a meaning. -/
abbrev Out := Host.Outcome State Fault Refusal

/-! ### The alarm store -/

/-- Byte offset of entry `i` of the alarm store, 64 bytes each, rule R393. -/
def State.almAddr (s : State) (i : Nat) : Nat := (s.eff Reg.EVT_ALM_BASE).toNat + 64 * i

/-- Entry `i` is VALID without ACK: STATE bits 0 and 1, rule R393. -/
def State.almLive (s : State) (i : Nat) : Bool := s.cell32 (s.almAddr i + 36) % 4 == 1

/-- The lowest free index, if any: an entry that is not VALID without ACK. -/
def State.almFree (s : State) : Option Nat := (List.range 1024).find? (fun i => !s.almLive i)

/-- The live entry with an identity and origin, rule R394. -/
def State.almMatch (s : State) (id origin : Nat) : Option Nat :=
  (List.range 1024).find? (fun i => s.almLive i &&
    bitsOf (s.cell32 (s.almAddr i + 4)) 20 0 == id && s.cell32 (s.almAddr i + 8) == origin)

/-- The number of live entries: EVT_STAT.ALM_USED. -/
def State.almUsed (s : State) : Nat := ((List.range 1024).filter (fun i => s.almLive i)).length

/-- EVT_STAT.ALM_USED, ALM_HIGH (768 or more) and ALM_FULL (all 1,024) after a change of the store, rule R396; ALM_HIGH
raises its line when it becomes set. -/
def State.almStat (s : State) : State :=
  let n := s.almUsed
  let was := s.bit Reg.EVT_STAT 0
  let s1 := ((s.setFld Reg.EVT_STAT 26 16 n).setBit Reg.EVT_STAT 0 (decide (768 ≤ n))).setBit Reg.EVT_STAT 1 (decide (1024 ≤ n))
  if decide (768 ≤ n) && !was then s1.raiseLine Page.EVT 1 else s1

/-- A change of entry `i` goes to the twin peer, rule R397. -/
def State.almMirror (s : State) (i : Nat) : State :=
  if (s.eff Reg.EVT_CTRL).getLsbD 1 && s.bit Reg.TWN_CTRL 0 then
    { s with evt := { s.evt with mirror := s.evt.mirror ++ [i] } }
  else s

/-- Write a new entry at index `i`, rule R393. `id` holds bits 22:0 of the ID word. -/
def State.almWrite (s : State) (i id origin : Nat) (detail : Word) (first last count : Nat) : State :=
  let a := s.almAddr i
  let seq := (s.evt.almSeq + 1) % 4294967296
  let s1 := { s with evt := { s.evt with almSeq := seq } }
  let s2 := (((((((s1.setCell a 4 seq).setCell (a + 4) 4 id).setCell (a + 8) 4 origin).setCell (a + 12) 4 detail.toNat
    ).setCell (a + 16) 8 first).setCell (a + 24) 8 last).setCell (a + 32) 4 (min count 0xFFFFFFFF)).setCell (a + 36) 4 1
  let s3 := (s2.setCell (a + 40) 8 s.tick).clearCell (a + 48) 16
  (((s3.inc Reg.EVT_ALM_CNT).raiseLine Page.EVT 0).almStat).almMirror i

/-- Merge an occurrence into entry `i`, rule R394. -/
def State.almMerge (s : State) (i : Nat) (detail : Word) (last count : Nat) : State :=
  let a := s.almAddr i
  let s1 := s.setCell (a + 32) 4 (min (s.cell32 (a + 32) + count) 0xFFFFFFFF)
  let s2 := (s1.setCell (a + 24) 8 last).setCell (a + 12) 4 detail.toNat
  (s2.inc Reg.EVT_ALM_MERGE_CNT).almMirror i

/-- Hold an own alarm at its source: the HOLD mask, the per-bit hold count (saturating at 0xFFFF) and the page's hold
times, rule R396. -/
def State.almHold (s : State) (page bit : Nat) (detail : Word) (time : Nat) : State :=
  let e := s.evt
  let held := if e.held.any (fun h => h.page == page && h.bit == bit) then
      e.held.map (fun h => if h.page == page && h.bit == bit then
        { h with count := min (h.count + 1) 0xFFFF, detail := detail } else h)
    else e.held ++ [⟨page, bit, 1, detail⟩]
  let times := if e.holdTimes.any (fun h => h.page == page) then
      e.holdTimes.map (fun h => if h.page == page then { h with last := time } else h)
    else e.holdTimes ++ [⟨page, time, time⟩]
  ({ s with evt := { e with held := held, holdTimes := times } }).inc Reg.EVT_ALM_HELD_CNT

/-- The identity word of an own alarm: page in bits 13:0, bit in bits 18:14, rule R393. -/
def almId (page bit : Nat) : Nat := page % 16384 + 16384 * (bit % 32)

/-- An own alarm reaches the store: merged, entered at the lowest free index, or held, rules R393, R394 and R396. -/
def State.almArrive (s : State) (page bit : Nat) (detail : Word) (time : Nat) : State :=
  match s.almMatch (almId page bit) 0 with
  | some i => s.almMerge i detail time 1
  | none =>
    match s.almFree with
    | some i => s.almWrite i (almId page bit) 0 detail time time 1
    | none => s.almHold page bit detail time

/-- The first held alarm in the release order: lowest page, then lowest bit, rule R396. -/
def firstHeld : List Held → Option Held
  | [] => none
  | h :: t =>
    match firstHeld t with
    | none => some h
    | some g => if g.page < h.page || (g.page == h.page && g.bit < h.bit) then some g else some h

/-- Write a node's alarm record, rule R393: its ID bits 18:0, DETAIL, FIRST, LAST, COUNT and DATA stand; NODE and ORIGIN, SEQ, STATE and
TICK are the master end's. `key` is 64 × port + node, `hold` the HELD bit. -/
def State.nodeWrite (s : State) (i key : Nat) (rec : List (BitVec 8)) (hold : Nat) : State :=
  let g (o n : Nat) : Nat := ((rec.drop o).take n).foldr (fun b acc => b.toNat + 256 * acc) 0
  let s1 := s.almWrite i (bitsOf (g 4 4) 18 0 + 1048576 + hold) (key / 64 + 256 * (key % 64)) (w32 (g 12 4)) (g 16 8) (g 24 8) (g 32 4)
  { s1 with cell := s1.cell.setBytes (s.almAddr i + 48) ((rec.drop 48).take 16) }

/-- Give the freed entry `i` to the first held alarm, rule R396: an own one before a node's; HELD (ID bit 22), the hold count and the
page's hold times. -/
def State.almRelease (s : State) (i : Nat) : State :=
  match firstHeld s.evt.held, s.evt.nodeHeld with
  | none, [] => s
  | none, h :: t => ({ s with evt := { s.evt with nodeHeld := t } } : State).nodeWrite i h.1 h.2 4194304
  | some h, _ =>
    let t := (s.evt.holdTimes.find? (fun x => x.page == h.page)).getD ⟨h.page, s.now, s.now⟩
    let held := s.evt.held.filter (fun x => !(x.page == h.page && x.bit == h.bit))
    let times := if held.any (fun x => x.page == h.page) then s.evt.holdTimes
      else s.evt.holdTimes.filter (fun x => !(x.page == h.page))
    let s1 := { s with evt := { s.evt with held := held, holdTimes := times } }
    s1.almWrite i (almId h.page h.bit + 4194304) 0 h.detail t.first t.last h.count

/-- Held node alarms stand in order of port and node. -/
def insertHeld (k : Nat) (rec : List (BitVec 8)) : List (Nat × List (BitVec 8)) → List (Nat × List (BitVec 8))
  | [] => [(k, rec)]
  | h :: t => if k < h.1 then (k, rec) :: h :: t else h :: insertHeld k rec t

/-- A node's alarm record of 64 bytes reaches the store (TRUMP): merged, entered, or held where another alarm has taken the last free
entry, rules R393, R394 and R396. -/
def State.nodeAlarm (s : State) (port node : Nat) (rec : List (BitVec 8)) : State :=
  let g (o n : Nat) : Nat := ((rec.drop o).take n).foldr (fun b acc => b.toNat + 256 * acc) 0
  match s.almMatch (bitsOf (g 4 4) 18 0 + 1048576) (port + 256 * node) with
  | some i => s.almMerge i (w32 (g 12 4)) (g 24 8) 1
  | none =>
    match s.almFree with
    | none => { s with evt := { s.evt with nodeHeld := insertHeld (64 * port + node) rec s.evt.nodeHeld } }
    | some i => s.nodeWrite i (64 * port + node) rec 0

/-! ### Event slots and the event ring -/

/-- An event reaches its page's slot: it opens the slot, or merges and counts, rule R398. -/
def State.evArrive (s : State) (page bit : Nat) (alarm : Bool) (detail : Word) (time : Nat) : State :=
  let e : Evt := s.evt
  if e.slots.any (fun x : EvSlot => x.page == page) then
    ({ s with evt := { e with slots := e.slots.map (fun x : EvSlot => if x.page == page then
        { x with alarm := x.alarm || alarm, mask := x.mask ||| 2 ^ bit, count := min (x.count + 1) 0xFFFFFFFF,
                 detail := detail, last := time } else x) } }).inc Reg.EVT_EV_MERGE_CNT
  else { s with evt := { e with slots := e.slots ++ [⟨page, alarm, 2 ^ bit, 1, detail, time, time⟩] } }

/-- The event ring's length: 2^EVR_LOG2, rule R399. -/
def State.evrLen (s : State) : Nat := 2 ^ s.effFld Reg.EVT_CTRL 11 8

/-- The ring is full when HEAD + 1 equals TAIL modulo its length, rule R399. -/
def State.evrFull (s : State) : Bool :=
  (s.fld Reg.EVT_EVR_HEAD 13 0 + 1) % s.evrLen == s.fld Reg.EVT_EVR_TAIL 13 0 % s.evrLen

/-- EVT_STAT.EV_FULL, and its line when it becomes set. -/
def State.evrStat (s : State) : State :=
  let was := s.bit Reg.EVT_STAT 2
  let s1 := s.setBit Reg.EVT_STAT 2 s.evrFull
  if s.evrFull && !was then s1.raiseLine Page.EVT 2 else s1

/-- Write a slot to the ring as one record of 32 bytes, rules R398 and R399. -/
def State.evRecord (s : State) (x : EvSlot) : State :=
  let head := s.fld Reg.EVT_EVR_HEAD 13 0
  let a := (s.eff Reg.EVT_EVR_BASE).toNat + 32 * head
  let w0 := x.page % 16384 + 16384 * b2n x.alarm + 65536 * (s.evt.recSeq % 65536)
  let s1 := (((((s.setCell a 4 w0).setCell (a + 4) 4 x.mask).setCell (a + 8) 4 x.count).setCell (a + 12) 4
    x.detail.toNat).setCell (a + 16) 8 x.first).setCell (a + 24) 8 x.last
  let s2 := { s1 with evt := { s1.evt with slots := s1.evt.slots.filter (fun y => !(y.page == x.page)),
                                           recSeq := (s1.evt.recSeq + 1) % 65536 } }
  ((s2.setFld Reg.EVT_EVR_HEAD 13 0 ((head + 1) % s.evrLen)).inc Reg.EVT_EV_CNT).evrStat

/-! ### Traces -/

/-- A trace source writes while its bit of EVT_TRC_EN is set, rule R400. -/
def State.traceOn (s : State) (src : Nat) : Bool := (s.eff (Reg.EVT_TRC_EN (src / 32))).getLsbD (src % 32)

/-- Word W0 of a trace record, rule R400. -/
def State.traceW0 (s : State) (src gap typ : Nat) : Nat :=
  src % 128 + 128 * gap + 256 * (typ % 256) + 65536 * (s.tick % 65536)

/-- The FIFO of a source. -/
def State.fifo (s : State) (src : Nat) : TraceFifo :=
  (s.evt.fifos.find? (fun f => f.src == src)).getD ⟨src, [], 0, 0, 0⟩

/-- Replace the FIFO of a source. -/
def State.setFifo (s : State) (f : TraceFifo) : State :=
  let rest := s.evt.fifos.filter (fun g => !(g.src == f.src))
  { s with evt := { s.evt with fifos := f :: rest } }

/-- The gap marker of a FIFO with drops, rule R401. -/
def State.gapMarker (s : State) (f : TraceFifo) : List Word :=
  [w32 (s.traceW0 f.src 1 0xFF), 0, w32 f.lastDrop, w32 (f.lastDrop / 4294967296), w32 f.dropped, 0,
   w32 f.firstDrop, w32 (f.firstDrop / 4294967296)]

/-- Stage the gap marker first when the FIFO has room again, rule R401. -/
def State.stageGap (s : State) (src : Nat) : State :=
  let f := s.fifo src
  if f.dropped ≠ 0 && f.recs.length < 16 then
    (s.setFifo { f with recs := f.recs ++ [s.gapMarker f], dropped := 0, firstDrop := 0, lastDrop := 0 }).inc
      Reg.EVT_TRC_GAP_CNT
  else s

/-- Stage one record in the source's FIFO of 16, or drop it, rule R401. -/
def State.stageRec (s : State) (src typ : Nat) (w4 w5 w6 w7 : Word) : State :=
  let f := s.fifo src
  if f.recs.length < 16 then
    s.setFifo { f with recs := f.recs ++ [[w32 (s.traceW0 src 0 typ), 0, w32 s.now, w32 (s.now / 4294967296),
                                           w4, w5, w6, w7]] }
  else
    ((s.setFifo { f with dropped := f.dropped + 1, lastDrop := s.now,
                         firstDrop := if f.dropped = 0 then s.now else f.firstDrop }).inc
      (Reg.EVT_TRC_DROP_CNT src)).setBit Reg.EVT_STAT 4 true |>.raiseLine Page.EVT 4

/-- A trace source writes a record, rules R400 and R401. -/
def State.trace (s : State) (src typ : Nat) (w4 w5 w6 w7 : Word) : State :=
  if s.traceOn src then (s.stageGap src).stageRec src typ w4 w5 w6 w7 else s

/-- The trace ring: 64 MiB of LPDDR4X at EVT_TRC_BASE, rule R402. -/
def traceLen : Nat := 0x4000000

/-- Write a list of words into LPDDR4X. -/
def setDram (m : Memory) (a : Nat) : List Word → Memory
  | [] => m
  | w :: t => setDram (m.set32 a w) (a + 4) t

/-- Drain one record to the trace ring, rules R401 and R402. -/
def State.drain (s : State) (f : TraceFifo) (r : List Word) (rest : List (List Word)) : State :=
  let wr := s.fld Reg.EVT_TRC_WR 25 0
  let rd := s.fld Reg.EVT_TRC_RD 25 0
  let full := (wr + 32) % traceLen == rd
  if full && (s.eff Reg.EVT_CTRL).getLsbD 0 then
    if s.bit Reg.EVT_STAT 3 then s else (s.setBit Reg.EVT_STAT 3 true).raiseLine Page.EVT 3
  else
    let s1 := if full then (s.wrN Reg.EVT_TRC_RD ((rd + 32) % traceLen)).inc Reg.EVT_TRC_OVW_CNT else s
    let s2 := { s1 with dram := setDram s1.dram ((s1.eff Reg.EVT_TRC_BASE).toNat + wr) r }
    ((s2.setFifo { f with recs := rest }).wrN Reg.EVT_TRC_WR ((wr + 32) % traceLen)).inc Reg.EVT_TRC_CNT

/-! ### The meanings -/

/-- The TRUMP bit of a ring port's page: a node's alarm, which has gone to the store by its frame, enters the event path by it, with
the ALARM bit as every alarm's event (rule R393; notes/assumptions/129.md). -/
def trumpBit (page bit : Nat) : Bool := decide (0x020 ≤ page ∧ page ≤ 0x023) && bit == 6

/-- One raising is taken in: an alarm reaches the store, and every alarm and event reaches the page's slot. -/
def State.takeRaising (s : State) (r : Raising) : State :=
  (if r.alarm then s.almArrive r.page r.bit r.detail r.time else s).evArrive r.page r.bit (r.alarm || trumpBit r.page r.bit) r.detail r.time

/-- RAISING_RECEIVE: the event unit takes in a page's raisings over its crossing, rule R392. It runs from BOOT to
SAFESTOP. -/
def State.raisingReceive (s : State) (page : Nat) : State :=
  if s.clocked then
    let mine := s.evt.raisings.filter (fun r => r.page == page)
    let s1 := { s with evt := { s.evt with raisings := s.evt.raisings.filter (fun r => !(r.page == page)) } }
    forEach (fun r st => st.takeRaising r) mine s1
  else s

def execRaisingReceive (page : Nat) (s : State) : Out := .next (s.raisingReceive page)

/-- EVENT_RECORD_WRITE: COAL_WIN has passed since the page's slot opened; it is written out once the ring has a free
record and no change of the ring awaits its boundary, rules R398 and R399. -/
def State.eventRecordWrite (s : State) (page : Nat) : State :=
  match s.evt.slots.find? (fun x => x.page == page) with
  | none => s
  | some x => if s.evrFull || s.evt.ringPend || !s.clocked then s else s.evRecord x

def execEventRecordWrite (page : Nat) (s : State) : Out := .next (s.eventRecordWrite page)

/-- EVT_ALM_ACK: the entry is freed where it is live and its COUNT is the one read, else the write is refused and
ACK_STALE is set, rule R395. A freed entry goes to the first held alarm, rule R396. -/
def State.almAck (s : State) (i : Nat) (count : Word) : State :=
  if s.almLive i && s.cell32 (s.almAddr i + 32) == count.toNat then
    (((s.setCell (s.almAddr i + 36) 4 3).almStat).almMirror i).almRelease i
  else (s.setBit Reg.EVT_STAT 5 true).raiseLine Page.EVT 5

/-- EVT_EVR_TAIL: software frees records of the event ring, rule R399. -/
def State.evrTail (s : State) (v : Word) : State := (s.setFld Reg.EVT_EVR_TAIL 13 0 v.toNat).evrStat

/-- EVT_TRC_RD: software advances the read offset (a multiple of 32), and a frozen writer goes on, rule R402. -/
def State.trcRd (s : State) (v : Word) : State :=
  (s.wr Reg.EVT_TRC_RD (v &&& 0x03FFFFE0)).setBit Reg.EVT_STAT 3 false

/-- EVT_TRC_SW_n: core An enters a record, with SRC, time and tick supplied, rule R400. -/
def State.trcSw (s : State) (core typ : Nat) (w4 w5 w6 w7 : Word) : State := s.trace (0x40 + core) typ w4 w5 w6 w7

def execEvtTrcSw (core : Fin 4) (typ : BitVec 8) (w4 w5 w6 w7 : Word) (s : State) : Out :=
  .next (if s.clocked then s.trcSw core typ.toNat w4 w5 w6 w7 else s)

/-- TRACE_DRAIN: the trace writer moves the oldest record of a source's FIFO, or its gap marker, to the trace ring. -/
def State.traceDrain (s : State) (src : Nat) : State :=
  if s.clocked then
    match (s.fifo src).recs with
    | [] => s
    | r :: rest => s.drain (s.fifo src) r rest
  else s

def execTraceDrain (src : Fin 128) (s : State) : Out := .next (s.traceDrain src)

/-- At the boundary a change of the event ring takes effect and HEAD and TAIL become 0, rule R399. -/
def State.evrBoundary (s : State) : State :=
  if s.evt.ringPend then
    (({ s with evt := { s.evt with ringPend := false } }).wr Reg.EVT_EVR_HEAD 0).wr Reg.EVT_EVR_TAIL 0 |>.evrStat
  else s

end Sys2Proof.Machine
end

