-- ==== Sys2Proof/Machine/Registers.lean ====
section
/-! DEFINITION. The register pages: who may write, locks, field types, the page check and interrupts, rules R430 to R444
(spec/19_registers.md). -/

namespace Sys2Proof.Machine

/-! ### Who may write -/

/-- The rights of rule R438 for a write to a page as a whole: the host only reads DBG, engines write no page (their two
ways in, DLR_SETF and the status port, are the stores of rule R439), channel A writes where it must. -/
def pageRight (ag : Agent) (p : Nat) : Bool :=
  match ag with
  | .channelA => true
  | .engine _ => false
  | .core _ => true
  | .host => !decide (p = Page.DBG)

/-- PG_LOCK.NO_HOST and NO_CORE, rule R440; it binds neither channel A nor the engines. -/
def State.lockedOut (s : State) (ag : Agent) (p : Nat) : Bool :=
  match ag with
  | .host => s.bit (Reg.PG_LOCK p) 1
  | .core _ => s.bit (Reg.PG_LOCK p) 2
  | _ => false

/-- A software write reaches page `p` and has the effect `f`: it is not performed while the clocks are gated or the page
is absent (rule R437), it is completed by a parked crossing (rule R384), and it is refused without the right or under a
lock (rules R438 and R440). -/
def State.swWrite (s : State) (ag : Agent) (p : Nat) (f : State → State) : State :=
  if !s.clocked || (pageKind p).isNone then s
  else if !s.domOn (domainOf p) then s.inc Reg.CDC_PARK_ACC_CNT
  else if pageRight ag p && !s.lockedOut ag p then f s
  else s.refuseAccess p

/-! ### Field types and the page check -/

/-- A register word after a write of `v`: RW bits replaced, each 1 clears its W1C bit and sets its W1S bit; every other
bit keeps its value. Rule R432. -/
def RegRow.write (r : RegRow) (old v : Word) : Word :=
  let kept := old &&& ~~~(w32 r.rw)
  let merged := kept ||| (v &&& w32 r.rw)
  (merged &&& ~~~(v &&& w32 r.w1c)) ||| (v &&& w32 r.w1s)

/-- The bytes 0x100 to 0x7FF of a page, in address order. -/
def State.cfgBytes (s : State) (p : Nat) : List (BitVec 8) :=
  (List.range 448).flatMap (fun i => wordBytes (s.rd (pageBase p + 0x100 + 4 * i)))

/-- The page check: CRC-32 of rule R416 over the configuration region. -/
def State.pageCrc (s : State) (p : Nat) : Word := crc32 (s.cfgBytes p)

/-- A page without configuration takes no part in the check, rule R441. -/
def hasConfig (p : Nat) : Bool :=
  match pageKind p with
  | some (.clk, _, _) => false
  | some (.cdc, _, _) => false
  | some (.dbg, _, _) => false
  | some _ => true
  | none => false

/-- An accepted write to the configuration region or to PG_CHECK counts in PG_CFG_SEQ, and MOD shows whether the CRC
differs from PG_CHECK, rule R441. -/
def State.cfgAccepted (s : State) (p : Nat) : State :=
  let s1 := s.wrN (Reg.PG_CFG_SEQ p) (s.rdN (Reg.PG_CFG_SEQ p) + 1)
  s1.setBit (Reg.PG_STAT p) 1 (decide (s1.pageCrc p ≠ s1.rd (Reg.PG_CHECK p)))

/-- A write to the configuration region of page `p`, rule R466: refused under PG_LOCK.CFG (rule R440); where the page's
rules on state and its conditions hold (`ok`) it has the effect `acc`; else the page's own refusal `ref`. Each refusal sets
ACC_REFUSED and counts. -/
def State.cfgWrite (s : State) (ag : Agent) (p : Nat) (ok : Bool) (ref acc : State → State) : State :=
  s.swWrite ag p (fun t =>
    if t.bit (Reg.PG_LOCK p) 0 then t.refuseAccess p
    else if ok then (acc t).cfgAccepted p
    else (ref t).refuseAccess p)

/-- A page takes its factory defaults: every word of its configuration region returns to its reset value. -/
def State.defaultPage (s : State) (p : Nat) : State :=
  { s with regs := Tab.dropRange (pageBase p + 0x100) 0x700 s.regs }

/-! ### PG_IRQ_SET, PG_IRQ_RAW, PG_CTRL and PG_LOCK -/

/-- The PG_IRQ_RAW bits that a page's chapter defines; the others are reserved, rules R388 and R431. -/
def irqMask (p : Nat) : Word :=
  match pageKind p with
  | some (k, _, _) => w32 (2 ^ k.irqBits - 1)
  | none => 0

/-- PG_IRQ_SET raises the page line only, rule R442; reserved bits stay 0. -/
def State.irqSet (s : State) (p : Nat) (v : Word) : State :=
  (s.orBits (Reg.PG_IRQ_RAW p) (v &&& irqMask p)).msixWrite s p

def execPgIrqSet (ag : Agent) (page : Nat) (v : Word) (s : State) : Out :=
  .next (s.swWrite ag page (fun t => t.irqSet page v))

/-- Each 1 written to PG_IRQ_RAW clears its bit; the vectors of the page are evaluated again, rules R433 and R444. -/
def State.irqClear (s : State) (p : Nat) (v : Word) : State :=
  (s.clrBits (Reg.PG_IRQ_RAW p) v).msixWrite s p

def execPgIrqRawClear (ag : Agent) (page : Nat) (v : Word) (s : State) : Out :=
  .next (s.swWrite ag page (fun t => t.irqClear page v))

/-- PG_IRQ_EN, with the vectors evaluated again. -/
def State.irqEnable (s : State) (p : Nat) (v : Word) : State := (s.wr (Reg.PG_IRQ_EN p) v).msixWrite s p

/-- PG_CTRL re-routes the page line: VEC, TO_HOST and TO_CORE, rules R443 to R445. -/
def State.pgCtrl (s : State) (p : Nat) (v : Word) : State :=
  (s.wr (Reg.PG_CTRL p) (v &&& 0xF13F)).msixWrite s p

def execPgCtrlWrite (ag : Agent) (page : Nat) (v : Word) (s : State) : Out :=
  .next (s.swWrite ag page (fun t => t.pgCtrl page v))

/-- PG_LOCK: each bit, once set, stays until a device reset; PG_STAT.LOCKED shows CFG. Rule R440. -/
def State.pgLock (s : State) (p : Nat) (v : Word) : State :=
  let s1 := s.orBits (Reg.PG_LOCK p) (v &&& 7)
  s1.setBit (Reg.PG_STAT p) 2 (s1.bit (Reg.PG_LOCK p) 0)

def execPgLock (ag : Agent) (page : Nat) (v : Word) (s : State) : Out :=
  .next (s.swWrite ag page (fun t => t.pgLock page v))

/-! ### The event unit's and clock page's commands -/

def execEvtAlmAck (ag : Agent) (entry : Fin 1024) (count : Word) (s : State) : Out :=
  .next (s.swWrite ag Page.EVT (fun t => t.almAck entry count))

def execEvtEvrTail (ag : Agent) (v : Word) (s : State) : Out := .next (s.swWrite ag Page.EVT (fun t => t.evrTail v))

def execEvtTrcRd (ag : Agent) (v : Word) (s : State) : Out := .next (s.swWrite ag Page.EVT (fun t => t.trcRd v))

end Sys2Proof.Machine
end

