-- ==== Sys2Proof/Machine/Device.lean ====
section
/-! DEFINITION. Device states: triggers, their precedence, and the device-level stop causes, rules R24 to R30
(spec/01_cell_architecture.md). -/

namespace Sys2Proof.Machine

/-- The trigger with the highest precedence: OFF, RESET, FROZEN, SAFESTOP, DEGRADED, READY, RUN. -/
def bestTrigger : List DevState → Option DevState
  | [] => none
  | d :: t =>
    match bestTrigger t with
    | none => some d
    | some e => if e.rank < d.rank then some e else some d

/-- A trigger that lost to one of higher precedence: counted in SYS_TRIG_LOST_CNT and recorded as an event, rule R30. -/
def State.lostTrigger (s : State) (_ : DevState) : State :=
  (s.inc Reg.SYS_TRIG_LOST_CNT).event Page.SYS 0 0

/-- The pending triggers other than `d` lose. -/
def State.loseTriggers (s : State) (d : DevState) : State :=
  let lost := s.sys.triggers.filter (fun e => !(e == d))
  forEach (fun e t => t.lostTrigger e) lost { s with sys := { s.sys with triggers := [] } }

/-- The device enters state `d`: SYS_STAT.STATE shows its code and a change raises PG_IRQ_RAW bit 0. Codes 0x0 (OFF) and
0x8 (FROZEN) are never read by software, rule R24. -/
def State.enter (s : State) (d : DevState) : State :=
  let s1 := { s with sys := { s.sys with dev := d, ticksInState := 0 } }
  let s2 := match d with
    | .off | .frozen => s1
    | _ => s1.setFld Reg.SYS_STAT 3 0 d.code
  if s.sys.dev == d then s2 else s2.event Page.SYS 0 0

/-- A device-level stop is in force in this tick: its stop reaction replaces the commands of the E phase of the same tick,
rule R30. -/
def State.deviceStop (s : State) : Bool :=
  s.sys.triggers.contains .safestop || s.sys.dev == .safestop

/-- The timekeeping clock runs, on which counters and stamps run: in every state but OFF and RESET, FROZEN included. -/
def State.timed (s : State) : Bool :=
  match s.sys.dev with
  | .off | .reset => false
  | _ => true

/-- The phases of the present tick run: it is no realignment tick, rule R42. -/
def State.phasesRun (s : State) : Bool := s.ticking && !s.bit Reg.QTZ_STAT 7

end Sys2Proof.Machine
end

