-- ==== Sys2Proof/Machine/Integrity.lean ====
section
/-! DEFINITION. Memory errors, fabric re-sends and clock crossings, rules R368 to R389 (spec/16_integrity.md). -/

namespace Sys2Proof.Machine

/-- Bytes of the memory of an ID of rule R368's table; 0 for an ID the table does not give. -/
def memSize (id : Nat) : Nat :=
  if id < 0x40 then 0x10000
  else if id < 0x80 then 0x20000
  else if id = 0x80 then cellSize
  else if id = 0x90 then 0x200000
  else if id = 0xA0 then 0x100000
  else if id = 0xA1 then 0x40000
  else if id = 0xA2 then 0x8000
  else if id = 0xB0 then 0x180000
  else if id = 0xC0 then 0xC0000
  else if id = 0xE0 then 0x1C0000000
  else 0

/-- An address of a memory of the table. -/
def memHas (id a : Nat) : Bool := decide (a < memSize id)

/-- The corrected locations a memory keeps: the newest 16, rule R373. -/
def keep16 (mem : Nat) (l : List CeLoc) : List CeLoc :=
  (l.filter (fun c => c.mem == mem)).take 16 ++ l.filter (fun c => !(c.mem == mem))

/-- A location is classed as a hard fault, rule R373: an entry of the log of 32, or a counted drop. A location already in
the log gets no second entry. -/
def State.hardFault (s : State) (mem a bit : Nat) : State :=
  if s.integ.hard.contains (mem, a, bit) then s
  else if s.integ.hard.length < 32 then
    (({ s with integ := { s.integ with hard := s.integ.hard ++ [(mem, a, bit)] } }.setBit Reg.MEM_STAT 3 true).inc
      Reg.MEM_HARD_CNT).event Page.MEM 2 0
  else
    (((s.setBit Reg.MEM_STAT 6 true).setBit Reg.MEM_STAT 3 true).inc Reg.MEM_HARD_CNT).inc Reg.MEM_HARD_DROP_CNT
      |>.event Page.MEM 2 0

/-- A single-bit error is corrected, rules R369, R373 and R375: it counts, is recorded, and a write-back is pending (one
serves every read until it is made). Corrections in SAFEA SRAM are kept for the ECC class of rule R220. -/
def State.ceFound (s : State) (mem a bit : Nat) (scrub : Bool) : State :=
  let w := a / 8 * 8
  let hardNow := s.integ.ce.any (fun c => c.mem == mem && c.addr == w && c.bit == bit && c.written)
  let others := s.integ.ce.filter (fun c => !(c.mem == mem && c.addr == w && c.bit == bit))
  let s0 := { s with integ := { s.integ with
    ce := keep16 mem (⟨mem, w, bit, false⟩ :: others),
    wb := if s.integ.wb.contains (mem, w) then s.integ.wb else s.integ.wb ++ [(mem, w)],
    safea := if mem = 0xA0 then s.mono :: s.integ.safea.filter (fun t => decide (s.mono < t + 1000000000)) else s.integ.safea } }
  let s1 := if mem = 0xE0 then s0.inc Reg.MEM_DDR_CE_CNT else s0.inc Reg.MEM_CE_CNT
  let s2 := ((s1.wr64 Reg.MEM_CE_LAST (locWord mem a scrub)).setBit Reg.MEM_STAT 0 true).event Page.MEM 6 0
  if hardNow then s2.hardFault mem w bit else s2

/-- What a read meets is recorded, rules R369 to R371; a word known to be uncorrectable stays so. -/
def State.eccRead (s : State) (mem a : Nat) (scrub : Bool) (e : Ecc) : State :=
  match e with
  | .uncorrectable => s.ueFound mem a scrub
  | .corrected b => if s.ueIn mem a 1 then s.ueFound mem a scrub else s.ceFound mem a b.val scrub
  | .clean => if s.ueIn mem a 1 then s.ueFound mem a scrub else s
  | .fabricError => s

/-- Whether a read of `n` bytes ends with an error response, rules R370 and R377. -/
def State.eccFails (s : State) (mem a n : Nat) (e : Ecc) : Bool :=
  match e with
  | .uncorrectable => true
  | .fabricError => true
  | _ => s.ueIn mem a n

/-- SCRUB_READ: a scrubber reads one word of an SRAM bank, in every device state from BOOT on but FROZEN; the last word of
cell memory ends a pass, rule R372. -/
def State.scrubRead (s : State) (mem a : Nat) (e : Ecc) : State :=
  if s.clocked && memHas mem a && mem != 0xE0 then
    let s1 := s.eccRead mem (a / 8 * 8) true e
    if mem = 0x80 ∧ a / 8 * 8 = cellSize - 8 then s1.inc Reg.MEM_SCRUB_PASS_CNT else s1
  else s

def execScrubRead (mem : Fin 256) (addr : Word) (ecc : Ecc) (s : State) : Out :=
  .next (s.scrubRead mem.val addr.toNat ecc)

/-- ECC_WRITE_BACK: a pending write-back is made, or a functional write in the same bank cycle wins and it is cancelled,
rule R369. -/
def State.eccWriteBack (s : State) (mem a : Nat) (cancelled : Bool) : State :=
  let w := a / 8 * 8
  if s.integ.wb.contains (mem, w) then
    let s1 := { s with integ := { s.integ with wb := s.integ.wb.filter (fun p => !(p == (mem, w))) } }
    if cancelled then s1.inc Reg.MEM_WB_CANCEL_CNT
    else { s1 with integ := { s1.integ with
      ce := s1.integ.ce.map (fun c => if c.mem == mem && c.addr == w then { c with written := true } else c) } }
  else s

def execEccWriteBack (mem : Fin 256) (addr : Word) (cancelled : Bool) (s : State) : Out :=
  .next (s.eccWriteBack mem.val addr.toNat cancelled)

/-- DDR_SCRUB: the patrol scrubber reads one 64-byte burst, rule R375. -/
def State.ddrScrub (s : State) (a : Nat) (e : Ecc) : State :=
  if s.clocked && s.domOn 11 then s.eccRead 0xE0 (a / 64 * 64) true e else s

def execDdrScrub (addr : Word) (ecc : Ecc) (s : State) : Out := .next (s.ddrScrub addr.toNat ecc)

/-- What a fabric error strikes, rule R377: on a location of the control path it is the stop cause of rule R371. -/
def State.fabricHit (s : State) (load : FabricLoad) : State :=
  match load with
  | .memory id a => if s.controlPathAt id.val a.toNat then s.controlPathError false else s
  | .other | .snapshot | .checkedWord => s

/-- A fabric error is declared on a link, rule R377. -/
def State.fabricError (s : State) (link : Nat) (load : FabricLoad) : State :=
  ((((s.inc Reg.MEM_FAB_ERR_CNT).wrN Reg.MEM_FAB_LAST link).setBit Reg.MEM_STAT 5 true).event Page.MEM 4 0).detLapse
    |>.fabricHit load

/-- A block of the die-to-die link fails after its re-sends, rule R378: a snapshot is then invalid in the G phase, a
checked word does not reach the field die. -/
def State.dieError (s : State) (load : FabricLoad) : State :=
  let s1 := s.inc Reg.MEM_D2D_ERR_CNT
  match load with
  | .snapshot => { s1 with field := { s1.field with snapBad := true } }
  | .checkedWord => { s1 with field := { s1.field with wordLost := true } }
  | .other | .memory _ _ => s1

/-- FABRIC_NAK: a NAKed block that has been re-sent `resends` times is re-sent, at most three times; a NAK of the third
re-send is an error of the link, rules R376 to R378. -/
def State.fabricNak (s : State) (link resends : Nat) (load : FabricLoad) : State :=
  if !s.clocked then s
  else
    match load with
    | .snapshot | .checkedWord => if resends < 3 then s.inc Reg.MEM_D2D_RTY_CNT else s.dieError load
    | .other | .memory _ _ => if resends < 3 then s.inc Reg.MEM_FAB_RTY_CNT else s.fabricError link load

def execFabricNak (link : Fin 256) (resends : Fin 4) (load : FabricLoad) (s : State) : Out :=
  .next (s.fabricNak link.val resends.val load)

/-! ### Crossings -/

/-- A crossing identifier, rule R379. -/
def crossingId (sender receiver : Nat) : Nat := sender % 16 + 16 * (receiver % 16)

/-- CDC_STALL_TIMEOUT: a sender stalled for 4,096 of its cycles drops its event, rule R381. -/
def State.stallTimeout (s : State) (sender receiver : Nat) : State :=
  if s.clocked then
    (((((s.add Reg.CDC_STALL_CNT 4096).setBit Reg.CDC_STAT 1 true).inc Reg.CDC_STALL_TMO_CNT).inc Reg.CDC_LOST_CNT).wrN
      Reg.CDC_LOST_LAST (crossingId sender receiver + 256)).alarm Page.CDC 1 0
  else s

def execCdcStallTimeout (sender receiver : Fin 16) (s : State) : Out :=
  .next (s.stallTimeout sender.val receiver.val)

/-- A crossing re-arms after a one-sided reset, with `lost` words, entries and sends dropped, rule R385. -/
def State.crossingRearm (s : State) (sender receiver lost : Nat) : State :=
  ((((s.add Reg.CDC_LOST_CNT lost).setBit Reg.CDC_STAT 0 true).wrN Reg.CDC_LOST_LAST (crossingId sender receiver)).inc
    Reg.CDC_REARM_CNT).event Page.CDC 0 0

def execCrossingRearm (sender receiver : Fin 16) (lost : Nat) (s : State) : Out :=
  .next (s.crossingRearm sender.val receiver.val lost)

/-! ### Temperatures -/

/-- The checked pairs of rule R386 with their region codes and temperatures. -/
def tempPairs (t : RegionTemps) : List (Nat × Nat × Nat × Nat) :=
  [(0x3, 0xD, t.q0, t.fab), (0x4, 0xD, t.q1, t.fab), (0x5, 0xD, t.q2, t.fab), (0x6, 0xD, t.q3, t.fab),
   (0x4, 0x3, t.q1, t.q0), (0x5, 0x3, t.q2, t.q0), (0x6, 0x3, t.q3, t.q0),
   (0x8, 0x3, t.appc, t.q0), (0x8, 0xD, t.appc, t.fab), (0x7, 0xD, t.solv, t.fab)]

/-- The difference of two temperatures. -/
def tempDiff (a b : Nat) : Nat := if a < b then b - a else a - b

/-- The pair with the largest difference, the first of equals. -/
def worstPair : List (Nat × Nat × Nat × Nat) → Nat × Nat × Nat × Nat
  | [] => (0, 0, 0, 0)
  | p :: l =>
    let q := worstPair l
    if tempDiff q.2.2.1 q.2.2.2 ≤ tempDiff p.2.2.1 p.2.2.2 then p else q

/-- TEMP_SAMPLE: CDC_DT and DT_HIGH, with an alarm when a difference comes to exceed 30 K, rule R387. -/
def State.tempSample (s : State) (t : RegionTemps) : State :=
  let p := worstPair (tempPairs t)
  let d := tempDiff p.2.2.1 p.2.2.2
  let high := decide (300 < d)
  let s1 := (s.wrN Reg.CDC_DT (min d 0xFFF + 65536 * p.1 + 1048576 * p.2.1)).setBit Reg.CDC_STAT 3 high
  let s2 := { s1 with integ := { s1.integ with hotter := if p.2.2.1 < p.2.2.2 then p.2.1 else p.1 } }
  if high && !s.bit Reg.CDC_STAT 3 then s2.alarm Page.CDC 3 0 else s2

def execTempSample (t : RegionTemps) (s : State) : Out :=
  .next (if s.clocked then s.tempSample t else s)

end Sys2Proof.Machine
end

