-- ==== Sys2Proof/Machine/Quartz.lean ====
section
/-! DEFINITION. Quartz: device time, the tick grid and the tick-loss supervisor, rules R33 to R44
(spec/02_tick_and_time.md). The phases and the tick boundary as a whole stand in Machine/Tick.lean. -/

namespace Sys2Proof.Machine

/-- T_tick in ns of a PERIOD code, rule R38; the reserved codes are held by no register. -/
def periodNs (code : Nat) : Nat :=
  match code with
  | 0 => 62500
  | 1 => 125000
  | 2 => 250000
  | 3 => 500000
  | 4 => 1000000
  | _ => 2000000

/-- T_tick in force, ns. -/
def State.tTick (s : State) : Nat := periodNs s.qtz.period

/-- The first grid instant at or after `t`: n × T + ofs for some integer n, rule R39. An offset of more than T, which the period in
force at BOOT may meet, counts modulo T (DEDUCED, notes/assumptions/95.md). -/
def gridFrom (T ofs t : Nat) : Nat := if t ≤ ofs % T then ofs % T else ofs % T + T * ((t - ofs % T + T - 1) / T)

/-- The first grid instant after `t`. -/
def gridAfter (T ofs t : Nat) : Nat := gridFrom T ofs (t + 1)

/-- The instant of the next tick boundary: the next grid instant, and from a realignment tick the first one that lies at
least T_tick / 2 after its boundary, rules R39 and R42. The first one after reset release is the first grid instant at or after device
time, so it falls at device time 0 with offset 0: DESIGN CHOICE, notes/assumptions/93.md. -/
def State.nextBoundary (s : State) : Nat :=
  let last := s.rd64 Reg.QTZ_LAST_TICK
  if s.bit Reg.QTZ_STAT 7 then gridFrom s.tTick s.qtz.ofs (last + s.tTick / 2)
  else if s.qtz.started then gridAfter s.tTick s.qtz.ofs last
  else gridFrom s.tTick s.qtz.ofs s.now

/-- The instant `ofs` ns after the last tick boundary. -/
def State.tickInstant (s : State) (ofs : Nat) : Nat := s.rd64 Reg.QTZ_LAST_TICK + ofs

/-- The range QTZ_TIME_INC accepts, within ±500 ppm of 4 ns, rule R34. -/
def incOk (v : Nat) : Bool := decide (0x3FF7CED92 ≤ v ∧ v ≤ 0x40083126E)

/-- A value of QTZ_TIME_INC is accepted, and SERVO_STALE clears (rule R35), or refused with INC_REFUSED. -/
def State.timeInc (s : State) (v : Nat) : State :=
  if incOk v then
    let s1 := s.wr64 Reg.QTZ_TIME_INC v
    ({ s1 with qtz := { s1.qtz with sinceInc := 0 } }).setBit Reg.QTZ_STAT 4 false
  else ((s.setBit Reg.QTZ_STAT 3 true).inc Reg.QTZ_INC_REF_CNT).event Page.QTZ 3 0

/-- A write of QTZ_TIME_INC: 64 bits at once, or the low word held until the high word is written, rule R34. A high word without a held
low word leaves the low word as it is. -/
def State.timeIncPart (s : State) (part : WordPart) (v : BitVec 64) : State :=
  match part with
  | .both => ({ s with qtz := { s.qtz with incLow := none } }).timeInc v.toNat
  | .low => { s with qtz := { s.qtz with incLow := some (v.setWidth 32) } }
  | .high =>
    let low := s.qtz.incLow.getD (s.rd Reg.QTZ_TIME_INC)
    ({ s with qtz := { s.qtz with incLow := none } }).timeInc (4294967296 * (v.setWidth 32).toNat + low.toNat)

def execQtzTimeInc (ag : Agent) (part : WordPart) (v : BitVec 64) (s : State) : Out :=
  .next (s.swWrite ag Page.QTZ (fun t => t.timeIncPart part v))

/-- STEP_REQ: accepted in BOOT, SELFTEST and READY, refused with STEP_REFUSED in any other state, rule R37. -/
def State.stepReq (s : State) : State :=
  if s.configurable then (s.setBit Reg.QTZ_STAT 0 true).setBit Reg.QTZ_TIME_CTRL 0 true
  else s.setBit Reg.QTZ_STAT 2 true

def execStepReq (ag : Agent) (s : State) : Out := .next (s.swWrite ag Page.QTZ (fun t => t.stepReq))

/-- QTZ_STAT.CFG_REFUSED, with its event. -/
def State.qtzRefused (s : State) : State := (s.setBit Reg.QTZ_STAT 6 true).event Page.QTZ 6 0

/-- QTZ_TICK_OFS: accepted in BOOT, SELFTEST and READY with a value below the T_tick that QTZ_TICK.PERIOD selects, and
then applied at the next tick boundary; else refused, rule R41. -/
def State.tickOfs (s : State) (ag : Agent) (v : Word) : State :=
  let ofs := v.toNat % 2097152
  s.cfgWrite ag Page.QTZ (s.configurable && decide (ofs < periodNs (s.fld Reg.QTZ_TICK 2 0)))
    State.qtzRefused
    (fun t => let t1 := t.wrN Reg.QTZ_TICK_OFS ofs
      { t1 with qtz := { t1.qtz with ofsPend := true } })

def execQtzTickOfs (ag : Agent) (v : Word) (s : State) : Out := .next (s.tickOfs ag v)

/-- Quartz counts ticks: from BOOT on, and on in FROZEN, rules R24 and R44. -/
def State.gridRuns (s : State) : Bool := s.clocked || s.sys.dev == .frozen

/-- TICK_LOSS: the supervisor in AON finds a boundary missing or early, in FROZEN too (notes/assumptions/96.md). It is suspended in a
realignment tick (rule R42) and judges the tick after a change of period against none (rule R38). The loss is a device-level stop
cause, rule R43. -/
def State.tickLoss (s : State) : State :=
  if !s.gridRuns || s.bit Reg.QTZ_STAT 7 || s.qtz.noSupervise then s
  else ((s.setBit Reg.QTZ_STAT 5 true).event Page.QTZ 5 0).stopCause .tickLoss

def execTickLoss (s : State) : Out := .next s.tickLoss

/-- SERVO_STALE: QTZ_SYNC_TMO ticks, not 0, have passed without an accepted write of QTZ_TIME_INC, rule R35. -/
def State.servoStale (s : State) : State :=
  let tmo := s.fld Reg.QTZ_SYNC_TMO 23 0
  if s.timed && decide (tmo ≠ 0) && decide (tmo ≤ s.qtz.sinceInc) then
    (s.setBit Reg.QTZ_STAT 4 true).event Page.QTZ 4 0
  else s

def execServoStale (s : State) : Out := .next s.servoStale

/-- The pending step at a boundary: refused there on entry to RUN, else added to device time, rule R37. Answers whether
a realignment tick follows. -/
def State.applyStep (s : State) (toRun : Bool) : State × Bool :=
  if s.bit Reg.QTZ_STAT 0 then
    let s1 := (s.setBit Reg.QTZ_STAT 0 false).setBit Reg.QTZ_TIME_CTRL 0 false
    if toRun then (s1.setBit Reg.QTZ_STAT 2 true, false)
    else
      let t := wrapTo 64 ((s1.now : Int) + s1.rdI64 Reg.QTZ_STEP)
      let s2 := { s1 with qtz := { s1.qtz with stepped := s1.qtz.stepped + s1.rdI64 Reg.QTZ_STEP } }
      (((s2.wr64 Reg.QTZ_TIME_NS t).setBit Reg.QTZ_STAT 1 true).event Page.QTZ 2 0, true)
  else (s, false)

/-- The pending change of QTZ_TICK_OFS at a boundary: refused there on entry to RUN, when the register returns to the
offset in force, else applied, rule R41. -/
def State.applyOfs (s : State) (toRun : Bool) : State × Bool :=
  if s.qtz.ofsPend then
    let s1 := { s with qtz := { s.qtz with ofsPend := false } }
    if toRun then ((s1.wrN Reg.QTZ_TICK_OFS s1.qtz.ofs).qtzRefused, false)
    else ({ s1 with qtz := { s1.qtz with ofs := s1.fld Reg.QTZ_TICK_OFS 20 0 } }, true)
  else (s, false)

/-- The period held in the register, and with it a loaded offset (DEDUCED, notes/assumptions/95.md), takes effect at the boundary of
entry to SELFTEST; the tick that follows is a realignment tick and is judged against no period, rule R38. So is the tick after a later
entry by a trigger, and none after the release of a freeze in SELFTEST: DEDUCED, notes/assumptions/94.md. -/
def State.applyPeriod (s : State) (toSelftest : Bool) : State × Bool :=
  if toSelftest then
    ({ s with qtz := { s.qtz with
        period := s.fld Reg.QTZ_TICK 2 0, ofs := s.fld Reg.QTZ_TICK_OFS 20 0, noSupervise := true } }, true)
  else ({ s with qtz := { s.qtz with noSupervise := false } }, false)

/-- Quartz counts a tick boundary: device time reaches the grid instant, a step, an offset and a period are applied, and
QTZ_TICK_NUM, QTZ_LAST_TICK and REALIGN change, rules R35 and R37 to R44. `toRun` and `toSelftest` say which state is entered at
this boundary. -/
def State.qtzCount (s : State) (toRun toSelftest : Bool) : State :=
  let s1 := s.advance s.nextBoundary
  let s2P := s1.applyStep toRun
  let s2 := s2P.1
  let r1 := s2P.2
  let s3P := s2.applyOfs toRun
  let s3 := s3P.1
  let r2 := s3P.2
  let s4P := s3.applyPeriod toSelftest
  let s4 := s4P.1
  let r3 := s4P.2
  let n := if s4.qtz.started then (s.tick + 1) % 2 ^ 64 else s.tick
  let s5 := ((s4.wr64 Reg.QTZ_TICK_NUM n).wr64 Reg.QTZ_LAST_TICK s4.now).setBit Reg.QTZ_STAT 7 (r1 || r2 || r3)
  { s5 with qtz := { s5.qtz with started := true, sinceInc := s5.qtz.sinceInc + 1 } }

/-- The boundary with its TICK line, rule R54. -/
def State.qtzBoundary (s : State) (toRun toSelftest : Bool) : State := (s.qtzCount toRun toSelftest).raiseLine Page.QTZ 0

/-! ### The phases of a tick -/

/-- The instant at which an offset of phase `ph` falls: a standby's phases G to C are later by LAG, rule R357. -/
def State.phaseInstant (s : State) (ph : Phase) (ofs : Nat) : Nat :=
  s.tickInstant (ofs + (if s.standby && ph != .e then 1000 * s.fld Reg.TWN_CTRL 23 16 else 0))

/-- Start and deadline offsets of a phase in force, ns. -/
def State.phaseStart (s : State) (ph : Phase) : Nat := s.effFld (Reg.QTZ_PH ph.num) 20 0
def State.phaseEnd (s : State) (ph : Phase) : Nat := s.effFld (Reg.QTZ_PH ph.num + 4) 20 0

/-- Replace what Quartz keeps. -/
def State.setQtz (s : State) (q : Quartz) : State := { s with qtz := q }

/-- A phase has started, ended in time, been sealed, or had its completion named in this tick. -/
def State.begun (s : State) (ph : Phase) : Bool := s.qtz.begun.testBit ph.num
def State.ended (s : State) (ph : Phase) : Bool := s.qtz.ended.testBit ph.num
def State.isSealed (s : State) (ph : Phase) : Bool := s.qtz.sealed.testBit ph.num
def State.reported (s : State) (ph : Phase) : Bool := s.qtz.reported.testBit ph.num
def State.setBegun (s : State) (ph : Phase) : State := s.setQtz { s.qtz with begun := s.qtz.begun ||| 2 ^ ph.num }
def State.setEnded (s : State) (ph : Phase) (b : Bool) : State :=
  s.setQtz { s.qtz with ended := withBits s.qtz.ended ph.num ph.num (b2n b) }
def State.setSealed (s : State) (ph : Phase) : State := s.setQtz { s.qtz with sealed := s.qtz.sealed ||| 2 ^ ph.num }
def State.setReported (s : State) (ph : Phase) : State := s.setQtz { s.qtz with reported := s.qtz.reported ||| 2 ^ ph.num }

/-- A phase ends at an offset: QTZ_PH_END and QTZ_PH_MAX record it, and on or before the deadline it is on time, rule R47. -/
def State.endPhase (s : State) (ph : Phase) (ofs : Nat) : State :=
  let s1 := s.wrN (Reg.QTZ_PH_END ph.num) ofs
  let s2 := s1.wrN (Reg.QTZ_PH_MAX ph.num) (max (s.rdN (Reg.QTZ_PH_MAX ph.num)) ofs)
  s2.setEnded ph (!s.isSealed ph && decide (ofs ≤ s.phaseEnd ph))

/-- The device time since the boundary, as an offset of phase `ph`. -/
def State.offsetNow (s : State) (ph : Phase) : Nat := s.now - s.phaseInstant ph 0

end Sys2Proof.Machine
end

