-- ==== Sys2Proof/Machine/Dealer.lean ====
section
/-! DEFINITION. The Dealer: task contexts, states, flags, queues, grants, flows and core threads, rules R87 to R106
(spec/04_dealer.md). Its cycles are not counted: each command stands for the Dealer cycle in which it happens, and what a
cycle makes follow from it (readiness, blocking) follows at once. -/

namespace Sys2Proof.Machine

/-! ### Contexts -/

/-- Word w of a context of the default table, rule R88: W0 reads 0x387F_0000, AGENT none, every other word 0. -/
def ctxDefault (k : Nat) : Word := if k % 16 = 0 then 0x387F0000 else if k % 16 = 15 then 0x7F00 else 0

/-- Word w of task t's context. -/
def State.ctxW (s : State) (t w : Nat) : Word := Tab.get ctxDefault s.dlr.ctx (16 * t + w)

/-- Write word w of task t's context. -/
def State.setCtxW (s : State) (t w : Nat) (v : Word) : State :=
  { s with dlr := { s.dlr with ctx := Tab.set ctxDefault s.dlr.ctx (16 * t + w) v } }

/-- A field of a context word. -/
def State.ctxF (s : State) (t w hi lo : Nat) : Nat := bitsOf (s.ctxW t w).toNat hi lo

/-- Write a field of a context word. -/
def State.setCtxF (s : State) (t w hi lo v : Nat) : State := s.setCtxW t w (w32 (withBits (s.ctxW t w).toNat hi lo v))

/-- The runtime part of a task. -/
def State.taskRt (s : State) (t : Nat) : DlrTask := Tab.get (fun _ => DlrTask.reset) s.dlr.tasks t

/-- Write the runtime part of a task. -/
def State.setTaskRt (s : State) (t : Nat) (r : DlrTask) : State :=
  { s with dlr := { s.dlr with tasks := Tab.set (fun _ => DlrTask.reset) s.dlr.tasks t r } }

/-- The state codes of rule R90. -/
def tsDormant : Nat := 0
def tsArmed : Nat := 1
def tsReady : Nat := 2
def tsRunning : Nat := 3
def tsPreempted : Nat := 4
def tsDone : Nat := 5
def tsCancelled : Nat := 6
def tsFaulted : Nat := 7

/-- The state of a task. -/
def State.taskState (s : State) (t : Nat) : Nat := s.ctxF t 15 3 0

/-- The PHASE of a task: 2, 4 or 7. -/
def State.taskPhase (s : State) (t : Nat) : Nat := s.ctxF t 0 29 27

/-- The CLASS of a task: a thread of the application cores. -/
def State.taskThread (s : State) (t : Nat) : Bool := s.ctxF t 0 23 23 == 1

/-- The HOME of a task. -/
def State.taskHome (s : State) (t : Nat) : Nat := s.ctxF t 0 22 16

/-- The 512 tasks. -/
def allTasks : List Nat := List.range 512

/-- An engine by number. -/
def State.engOf (s : State) (e : Nat) : Eng := Tab.get (fun _ => Eng.reset) s.eng e

/-- Write an engine. -/
def State.setEng (s : State) (e : Nat) (g : Eng) : State :=
  { s with eng := Tab.set (fun _ => Eng.reset) s.eng e g }

/-! ### Flows -/

/-- A field of word w (0 to 3) of DLR_FLOW_n. -/
def State.flowF (s : State) (f w hi lo : Nat) : Nat := s.fld (Reg.DLR_FLOW f + 4 * w) hi lo

/-- DLR_FLOW_n.EN. -/
def State.flowEn (s : State) (f : Nat) : Bool := s.flowF f 0 0 0 == 1

/-- DLR_FLOW_n.LEN. -/
def State.flowLen (s : State) (f : Nat) : Nat := s.flowF f 0 18 9

/-- DLR_FLOW_n.PHASE. -/
def State.flowPhase (s : State) (f : Nat) : Nat := s.flowF f 0 21 19

/-- NEXT_POS. -/
def State.flowNext (s : State) (f : Nat) : Nat := s.fld (Reg.DLR_FLOW_STAT f) 9 0

/-- The task that holds a position of a flow; of two that do, after a context write under rule R89, the lower-numbered one: DESIGN CHOICE,
notes/assumptions/110.md. -/
def State.flowHolder (s : State) (f pos : Nat) : Option Nat :=
  allTasks.find? (fun t => s.ctxF t 7 17 17 == 1 && s.ctxF t 7 16 11 == f && s.ctxF t 7 26 18 == pos)

/-- A round of the flow is running: always for PHASE = 7, from the phase start to its deadline otherwise. -/
def State.flowLive (s : State) (f : Nat) : Bool :=
  s.flowEn f && (s.flowPhase f == 7 || s.dlr.openFlows.contains f)

/-- DLR_STAT.FLOW_BLOCK: some flow is BLOCKED. -/
def State.flowBlockStat (s : State) : State :=
  s.setBit Reg.DLR_STAT 3 ((List.range 64).any (fun f => s.bit (Reg.DLR_FLOW_STAT f) 15))

/-- A flow blocks at its next position, rule R100. -/
def State.flowBlock (s : State) (f : Nat) : State :=
  ((((s.setBit (Reg.DLR_FLOW_STAT f) 15 true).inc Reg.DLR_FLOW_BLOCK_CNT).event Page.DLR 2 0).flowBlockStat).trace
    0x48 0x13 (w32 ((s.flowHolder f (s.flowNext f)).getD 0)) 0x7F 0 0

/-- An enabled flow whose next position is held by no task, or by one that is CANCELLED or FAULTED, blocks, before the deadline of its
phase or after it, rule R100. -/
def State.flowCheck (s : State) (f : Nat) : State :=
  if s.flowEn f && !s.bit (Reg.DLR_FLOW_STAT f) 15 && decide (s.flowNext f < s.flowLen f) then
    match s.flowHolder f (s.flowNext f) with
    | none => s.flowBlock f
    | some t => if s.taskState t == tsCancelled || s.taskState t == tsFaulted then s.flowBlock f else s
  else s

/-- The check of the flow in which a task holds a position. -/
def State.taskFlowCheck (s : State) (t : Nat) : State :=
  if s.ctxF t 7 17 17 == 1 then s.flowCheck (s.ctxF t 7 16 11) else s

/-- A new round of a flow: NEXT_POS and BLOCKED 0, and none of its tasks has completed in it, rules R100 and R102. -/
def State.newRound (s : State) (f : Nat) : State :=
  let s1 := s.setFld (Reg.DLR_FLOW_STAT f) 15 0 0
  let s2 := forEach (fun t st =>
    if st.ctxF t 7 17 17 == 1 && st.ctxF t 7 16 11 == f then st.setTaskRt t { st.taskRt t with round := false } else st) allTasks s1
  let odd := s.dlr.odd.filter (fun g => g ≠ f)
  ({ s2 with dlr := { s2.dlr with odd := if s.parity = 1 then f :: odd else odd } }).flowBlockStat

/-! ### Queues and the Kitty -/

/-- An engine counts as enabled, rules R82 and R464: EN is 1 and it is not OFF, DISABLED or in FAULT. -/
def State.engCounts (s : State) (e : Nat) : Bool :=
  let st := s.fld (Reg.ENG_STAT e) 3 0
  s.bit (Reg.ENG_CTRL e) 0 && s.domOn (3 + e / 16) && (st == 2 || st == 3 || st == 4)

/-- The Dealer serves an engine: it is enabled, and its quad is not powering down, rules R94 and R406. -/
def State.engEnabled (s : State) (e : Nat) : Bool := s.engCounts e && !s.pwr.quadsOff.testBit (e / 16)

/-- A task is in a queue: READY or PREEMPTED. -/
def State.queued (s : State) (t : Nat) : Bool := s.taskState t == tsReady || s.taskState t == tsPreempted

/-- A queued task is in the Kitty of its class, rule R94. -/
def State.inKitty (s : State) (t : Nat) : Bool :=
  s.queued t && (s.taskHome t == 0x7F || (s.taskRt t).waited || (!s.taskThread t && !s.engEnabled (s.taskHome t)))

/-- The end of a Dealer cycle: DLR_STAT.KITTY_LEN shows the engine tasks now in the Kitty, and what becomes READY or PREEMPTED later
does so in a later cycle (notes/assumptions/112.md). -/
def State.kittyStat (s : State) : State :=
  ({ s with dlr := { s.dlr with clock := s.dlr.clock + 1 } }).setFld Reg.DLR_STAT 25 16
    ((allTasks.filter (fun t => !s.taskThread t && s.inKitty t)).length)

/-- The element of a list with the least key. -/
def leastBy (key : Nat → Nat) : List Nat → Option Nat
  | [] => none
  | x :: t =>
    match leastBy key t with
    | none => some x
    | some y => if key y < key x then some y else some x

/-- The queue order of rule R95: PRIO, then the order of becoming READY or PREEMPTED, then the task number. -/
def State.queueKey (s : State) (t : Nat) : Nat := (s.ctxF t 0 26 25 * 2 ^ 64 + (s.taskRt t).stamp) * 512 + t

/-- The Kitty order of rule R95: PRIO, then same quad as the thief, then as a queue. -/
def State.kittyKey (s : State) (quad t : Nat) : Nat :=
  ((s.ctxF t 0 26 25 * 2 + b2n (!(s.taskHome t / 16 == quad && decide (s.taskHome t < 64)))) * 2 ^ 64 + (s.taskRt t).stamp) * 512 + t

/-- The first task of the home queue of engine (or core) `h`. -/
def State.homeFirst (s : State) (thread : Bool) (h : Nat) : Option Nat :=
  leastBy s.queueKey (allTasks.filter (fun t => s.queued t && s.taskThread t == thread && s.taskHome t == h))

/-- The first task of the Kitty for a thief in `quad`, but for those of the list. -/
def State.kittyFirst (s : State) (thread : Bool) (quad : Nat) (gone : List Nat) : Option Nat :=
  leastBy (s.kittyKey quad) (allTasks.filter (fun t => s.inKitty t && s.taskThread t == thread && !gone.contains t))

/-! ### State changes -/

/-- Set STATE (W15). -/
def State.setTaskState (s : State) (t st : Nat) : State := s.setCtxF t 15 3 0 st

/-- A task stands in its queue, READY or PREEMPTED, with the stamp of the present cycle. -/
def State.toQueue (s : State) (t st : Nat) : State :=
  let s1 := s.setTaskState t st
  s1.setTaskRt t { s1.taskRt t with stamp := s1.dlr.clock, waited := false }

/-- A task enters its queue: READY or PREEMPTED, with the stamp of the present cycle; with a home engine that is not enabled it enters the
Kitty at once, which DLR_REHOME_CNT counts. -/
def State.enqueue (s : State) (t st : Nat) : State :=
  let s2 := s.toQueue t st
  if !s2.taskThread t && s2.taskHome t ≠ 0x7F && !s2.engEnabled (s2.taskHome t) then s2.inc Reg.DLR_REHOME_CNT else s2

/-- The readiness condition, rule R91. -/
def State.ready (s : State) (t : Nat) : Bool :=
  let m := s.ctxW t 1
  let x := s.ctxW t 2 &&& m
  if s.ctxF t 0 24 24 = 1 then x == m else x != 0

/-- An ARMED task whose condition holds becomes READY, rule R91. -/
def State.readyCheck (s : State) (t : Nat) : State :=
  if s.taskState t == tsArmed && s.ready t then s.enqueue t tsReady else s

/-- Entry to CANCELLED with its cause, and the block of its flow. -/
def State.taskCancel (s : State) (t cause : Nat) : State :=
  let s1 := ((s.setTaskState t tsCancelled).setCtxF t 15 7 4 cause).setCtxF t 15 15 15 0
  let s2 := s1.inc Reg.DLR_CANCEL_CNT
  let s3 := if cause = 2 then s2.inc Reg.DLR_DL_CANCEL_CNT else s2
  ((s3.event Page.DLR 0 (w32 cause)).trace 0x48 0x12 (w32 t) (w32 (s.ctxF t 15 14 8)) 0 0).taskFlowCheck t

/-- Entry to FAULTED, cause 0x5. -/
def State.taskFault (s : State) (t : Nat) : State :=
  let s1 := ((s.setTaskState t tsFaulted).setCtxF t 15 7 4 5).setCtxF t 15 15 15 0
  ((s1.inc Reg.DLR_FAULT_CNT).event Page.DLR 1 5).taskFlowCheck t

/-- A refused operation or report: OP_REFUSED and DLR_OP_REF_CNT. -/
def State.opRefused (s : State) : State := ((s.setBit Reg.DLR_STAT 1 true).inc Reg.DLR_OP_REF_CNT).event Page.DLR 3 0

/-- A flag set is accepted, rule R92. -/
def State.setFlag (s : State) (t f : Nat) : State :=
  if (s.ctxW t 2).getLsbD f then s.inc Reg.DLR_FLAG_MERGE_CNT
  else (s.setCtxF t 2 f f 1).readyCheck t

/-- An arm, rule R90: refused in a state that it does not leave. -/
def State.taskArm (s : State) (t : Nat) : State :=
  let st := s.taskState t
  if st == tsDormant || st == tsDone || st == tsCancelled || st == tsFaulted then (s.setTaskState t tsArmed).readyCheck t
  else s.opRefused

/-- A cancel by software, rule R90: pending on a running task. -/
def State.softCancel (s : State) (t : Nat) : State :=
  let st := s.taskState t
  if st == tsRunning then s.setCtxF t 15 15 15 1
  else if st == tsArmed || st == tsReady || st == tsPreempted || st == tsDone then s.taskCancel t 1
  else s

/-- The context of a task is read: an uncorrectable error in it makes the task FAULTED, rule R370. Answers whether it is
sound. -/
def State.ctxRead (s : State) (t : Nat) : State × Bool :=
  if s.ueIn 0xA2 (64 * t) 64 then ((s.ueRead 0xA2 (64 * t) 64).taskFault t, false) else (s, true)

/-! ### Reports from agents -/

/-- The successor's flag of a completed task, rule R92. -/
def State.nextFlag (s : State) (t : Nat) : State :=
  if s.ctxF t 9 14 14 = 1 then s.setFlag (s.ctxF t 9 8 0) (s.ctxF t 9 13 9) else s

/-- A completion report for task `t` from its agent, rule R90; it counts in the round of the flow in which the task holds a position, rule
R99 (notes/assumptions/113.md). A re-arm clears the awaited flags that were set at the grant, also one cleared and set again while the
task ran (DESIGN CHOICE, notes/assumptions/137.md). -/
def State.reportDone (s : State) (t : Nat) : State :=
  if s.taskState t ≠ tsRunning then s.opRefused
  else
    let s1 := s.setCtxF t 15 31 16 (s.ctxF t 15 31 16 + 1)
    if s.ctxF t 15 15 15 = 1 then (s1.taskCancel t 4).nextFlag t
    else
      let s2 := s1.setTaskRt t { s1.taskRt t with round := s.ctxF t 7 17 17 == 1 }
      if s.taskPhase t = 7 ∧ s.ctxF t 0 31 31 = 1 then
        let kept := s.ctxW t 2 &&& ~~~(s.ctxW t 1 &&& (s.taskRt t).grantFlags)
        (((s2.setCtxW t 2 kept).setTaskState t tsArmed).nextFlag t).readyCheck t
      else (s2.setTaskState t tsDone).nextFlag t

/-- A YIELD report, rules R90 and R103; a refused one does not count in DLR_PRE_CNT (DESIGN CHOICE, notes/assumptions/137.md). -/
def State.reportYield (s : State) (t : Nat) : State :=
  if s.taskState t ≠ tsRunning then s.opRefused
  else
    let s1 := s.inc Reg.DLR_PRE_CNT
    if s.ctxF t 15 15 15 = 1 then s1.taskCancel t 4
    else if s.taskPhase t = 7 then s1.enqueue t tsPreempted
    else s1.taskCancel t 3

/-- A fault report, rules R82 and R90. -/
def State.reportFault (s : State) (t : Nat) : State :=
  if s.taskState t ≠ tsRunning then s.opRefused else s.taskFault t

/-! ### Software operations -/

/-- Writes from the cores and the host count as software, rule R105. -/
def bySoftware : Agent → Bool
  | .core _ => true
  | .host => true
  | .channelA => false
  | .engine _ => false

/-- In RUN and DEGRADED a software operation on a phase task is refused, rule R105. -/
def State.dlrOp (s : State) (ag : Agent) (t : Nat) (f : State → State) : State :=
  if s.running && bySoftware ag && s.taskPhase t ≠ 7 then s.opRefused else f s

/-- A flag set enters the event queue, or its sender stalls, an engine until its set has found room, rule R93. -/
def State.sendFlag (s : State) (engine : Option Nat) (t f : Nat) : State :=
  if s.dlr.queue.length < 64 then
    let s1 := { s with dlr := { s.dlr with queue := s.dlr.queue ++ [(t, f)] } }
    s1.setBit Reg.DLR_STAT 4 (decide (s1.dlr.queue.length = 64))
  else
    let s1 := ({ s with dlr := { s.dlr with stalled := s.dlr.stalled ++ [(⟨engine, t, f⟩ : Stalled)] } }).event Page.DLR 4 0
    match engine with
    | some e => s1.setEng e { s1.engOf e with setfWait := true }
    | none => s1

/-- A write of DLR_ARM, rule R105. -/
def State.armWrite (s : State) (ag : Agent) (v : Word) : State :=
  s.swWrite ag Page.DLR (fun x => (x.dlrOp ag (bitsOf v.toNat 8 0) (fun y => y.taskArm (bitsOf v.toNat 8 0))).kittyStat)

def execDlrArm (ag : Agent) (v : Word) (s : State) : Out := .next (s.armWrite ag v)

/-- A write of DLR_CANCEL, rule R105. -/
def State.cancelWrite (s : State) (ag : Agent) (v : Word) : State :=
  s.swWrite ag Page.DLR (fun x => (x.dlrOp ag (bitsOf v.toNat 8 0) (fun y => y.softCancel (bitsOf v.toNat 8 0))).kittyStat)

def execDlrCancel (ag : Agent) (v : Word) (s : State) : Out := .next (s.cancelWrite ag v)

/-- DLR_SETF: an engine's store to it is permitted (rule R438) and never refused by rule R105. -/
def State.setfWrite (s : State) (ag : Agent) (v : Word) : State :=
  match ag with
  | .engine n => if s.clocked then s.sendFlag (some n.val) (bitsOf v.toNat 8 0) (bitsOf v.toNat 20 16) else s
  | _ => s.swWrite ag Page.DLR (fun x =>
      x.dlrOp ag (bitsOf v.toNat 8 0) (fun y => y.sendFlag none (bitsOf v.toNat 8 0) (bitsOf v.toNat 20 16)))

def execDlrSetf (ag : Agent) (v : Word) (s : State) : Out := .next (s.setfWrite ag v)

/-- A write of DLR_CLRF: it clears one flag of a context. -/
def State.clrfWrite (s : State) (ag : Agent) (v : Word) : State :=
  s.swWrite ag Page.DLR (fun x => x.dlrOp ag (bitsOf v.toNat 8 0) (fun y =>
    y.setCtxF (bitsOf v.toNat 8 0) 2 (bitsOf v.toNat 20 16) (bitsOf v.toNat 20 16) 0))

def execDlrClrf (ag : Agent) (v : Word) (s : State) : Out := .next (s.clrfWrite ag v)

/-- DLR_FLOW_RESET restarts the round of a PHASE = 7 flow, rule R100; it is refused for a phase flow in RUN and DEGRADED,
rule R105, and has no effect on one in other states. -/
def State.flowReset (s : State) (ag : Agent) (f : Nat) : State :=
  if s.flowPhase f = 7 then (s.newRound f).flowCheck f
  else if s.running && bySoftware ag then s.opRefused
  else s

def execDlrFlowReset (ag : Agent) (v : Word) (s : State) : Out :=
  .next (s.swWrite ag Page.DLR (fun x => x.flowReset ag (bitsOf v.toNat 5 0)))

/-- The bits of a context word that a write through the window stores, rule R87 (notes/assumptions/108.md). -/
def ctxMask (w : Nat) : Word :=
  if w = 0 ∨ w = 1 ∨ w = 3 ∨ w = 4 ∨ w = 5 ∨ w = 6 ∨ w = 8 then 0xFFFFFFFF
  else if w = 7 then 0x07FFFFFF
  else if w = 9 then 0x7FFF
  else 0

/-- A write to a configuration word of the selected context, rule R89. -/
def State.ctxWrite (s : State) (w : Nat) (v : Word) : State :=
  let t := s.fld Reg.DLR_CTX_SEL 8 0
  let st := s.taskState t
  let phaseAfter := if w = 0 then bitsOf v.toNat 29 27 else s.taskPhase t
  if w = 2 ∨ w = 15 then s
  else if (st == tsDormant || st == tsDone || st == tsCancelled) &&
      (s.configurable || (s.taskPhase t == 7 && phaseAfter == 7)) then
    let moved := w = 7 && bitsOf v.toNat 17 11 != s.ctxF t 7 17 11
    let s1 := if moved then s.setTaskRt t { s.taskRt t with round := false } else s
    (forUpTo (fun f x => x.flowCheck f) 64 (s1.setCtxW t w (v &&& ctxMask w))).kittyStat
  else (s.setBit Reg.DLR_STAT 0 true).event Page.DLR 5 0

def execDlrCtxWrite (ag : Agent) (w : Fin 16) (v : Word) (s : State) : Out :=
  .next (s.swWrite ag Page.DLR (fun x => x.ctxWrite w.val v))

/-! ### Grants -/

/-- An engine's registers as TAKE leaves them, rules R56 and R75. -/
def Eng.taken (g : Eng) (task : Nat) (arg dptr tsa : Word) (entry : Nat) (resumed : Bool) : Eng :=
  { g with
    d := Tab.set (fun _ => 0) (Tab.set (fun _ => 0) [] 30 (w32 task)) 31 arg
    ax := Tab.set (fun _ => 0) [] 7 (if resumed then tsa else dptr)
    sp := Tab.set (fun _ => 0) (Tab.set (fun _ => 0) [] 10 (if resumed then 0 else 0x20)) 15 tsa
    acc := [], accMva := [], late := [], delay := none, staged := []
    pc := if resumed then 0x80 else entry / 8 * 8
    task := some task, preReq := false, setfWait := false }

/-- ENG_STAT.STATE. -/
def State.engState (s : State) (e : Nat) : Nat := s.fld (Reg.ENG_STAT e) 3 0

/-- Write ENG_STAT.STATE. -/
def State.setEngState (s : State) (e st : Nat) : State := s.setFld (Reg.ENG_STAT e) 3 0 st

/-- An engine waits in TAKE (or after YIELD) for a task. -/
def State.engWaiting (s : State) (e : Nat) : Bool :=
  s.engEnabled e && s.engState e == 2 && !s.dlr.stage.any (fun x => x.engine == e)

/-- A trace record of an engine, rule R400: its bit of EVT_TRC_EN and ENG_CTRL.TRACE_EN set. -/
def State.engTrace (s : State) (e typ task : Nat) : State :=
  if s.bit (Reg.ENG_CTRL e) 2 then s.trace e typ (w32 task) (s.rd (Reg.ENG_BUSY_CNT e)) 0 0 else s

/-- TAKE returns with task `t`, rules R56 and R75. -/
def State.takeReturns (s : State) (e t : Nat) (resumed : Bool) : State :=
  let g := (s.engOf e).taken t (s.ctxW t 3) (s.ctxW t 4) (s.ctxW t 5) (s.ctxF t 0 15 0) resumed
  let s1 := (s.setEng e g).setEngState e (if resumed then 4 else 3)
  let s2 := (s1.setBit (Reg.ENG_STAT e) 4 false).wrN (Reg.ENG_TASK e) (t + 0x80000000)
  (s2.inc (Reg.ENG_TASK_CNT e)).engTrace e 0x01 t

/-- A task is granted to an agent: RUNNING, with its AGENT, its FLAGS and the tick kept, rule R90. The grant that resumes a PREEMPTED task
keeps the FLAGS of the first one: a flag set while the task ran is not cleared at its completion, rule R92. -/
def State.granted (s : State) (t agent : Nat) : State :=
  let s1 := (s.setTaskState t tsRunning).setCtxF t 15 14 8 agent
  let flags := if s.taskState t == tsPreempted then (s.taskRt t).grantFlags else s.ctxW t 2
  let s2 := s1.setTaskRt t { s1.taskRt t with grantFlags := flags, grantTick := s.tick, waited := false }
  (s2.inc Reg.DLR_GRANT_CNT).trace 0x48 0x10 (w32 t) (w32 agent) 0 0

/-- A grant of task `t` to engine `e`: the stage-in copy starts, or TAKE returns at once without one, rule R96. -/
def State.grantEngine (s : State) (e t : Nat) (steal : Bool) : State :=
  let s0P := s.ctxRead t
  let s0 := s0P.1
  let sound := s0P.2
  if !sound then s0
  else
    let resumed := s.taskState t == tsPreempted
    let s1 := s.granted t e
    let s2 := if steal then
        ((s1.inc Reg.DLR_STEAL_CNT).inc (Reg.ENG_STEAL_CNT e)).trace 0x48 0x11 (w32 t) (w32 e) 0 0
      else s1
    if s.ctxF t 7 10 0 = 0 then s2.takeReturns e t resumed
    else { s2 with dlr := { s2.dlr with stage := s2.dlr.stage ++ [⟨e, t, resumed⟩] } }

/-- A grant of thread `t` to core `n`: its take read returns, rule R97. -/
def State.grantCore (s : State) (n t : Nat) (steal : Bool) : State :=
  let s0P := s.ctxRead t
  let s0 := s0P.1
  let sound := s0P.2
  if !sound then s0
  else
    let resumed := s.taskState t == tsPreempted
    let s1 := s.granted t (0x40 + n)
    let s2 := if steal then (s1.inc Reg.DLR_STEAL_CNT).trace 0x48 0x11 (w32 t) (w32 (0x40 + n)) 0 0 else s1
    let got := t + 512 * b2n resumed + 2 ^ 63
    let s3 := (s2.wr64 (Reg.DLR_CORE_TAKE n) got).onBus got
    { s3 with dlr := { s3.dlr with coreWait := s3.dlr.coreWait.filter (fun m => m ≠ n),
                                   coreHeld := Tab.insert n t (Tab.erase n s3.dlr.coreHeld) } }

/-- The engines of a quad that wait for a task, by number. -/
def State.waiters (s : State) (q : Nat) : List Nat := ((List.range 16).map (fun i => 16 * q + i)).filter (fun e => s.engWaiting e)

/-- The home grant of a quad in this cycle: its lowest-numbered waiting engine whose home queue holds a task, with the first of that
queue. -/
def State.homePick (s : State) (q : Nat) : Option (Nat × Nat) :=
  (s.waiters q).findSome? (fun e => (s.homeFirst false e).map (fun t => (e, t)))

/-- The steal of a quad in this cycle, which has no home grant: its lowest-numbered waiting engine, with the first task of the Kitty but
for those of the list. -/
def State.stealPick (s : State) (q : Nat) (gone : List Nat) : Option (Nat × Nat) :=
  match s.homePick q, s.waiters q, s.kittyFirst false q gone with
  | none, e :: _, some t => some (e, t)
  | _, _, _ => none

/-- The tasks that a steal of quad `q` must leave in this cycle: those of the home grants of all quads, and those that the quads below it
steal, rule R95. -/
def State.takenBefore (s : State) (q : Nat) : List Nat :=
  (List.range q).foldl (fun l p => l ++ ((s.stealPick p l).map (fun x => x.2)).toList)
    ((List.range 4).filterMap (fun p => (s.homePick p).map (fun x => x.2)))

/-- The grant of one quad in one cycle, rule R95. -/
def State.grantQuad (s : State) (q : Nat) : State :=
  match s.homePick q with
  | some (e, t) => s.grantEngine e t false
  | none =>
    match s.stealPick q (s.takenBefore q) with
    | some (e, t) => s.grantEngine e t true
    | none => s

/-- The grant to the cores in one cycle, rules R95 and R97. -/
def State.grantCores (s : State) : State :=
  let cores := (List.range 4).filter (fun n => s.dlr.coreWait.contains n)
  match cores.find? (fun n => (s.homeFirst true n).isSome) with
  | some n =>
    match s.homeFirst true n with
    | some t => s.grantCore n t false
    | none => s
  | none =>
    match cores, s.kittyFirst true 0xFF [] with
    | n :: _, some t => s.grantCore n t true
    | _, _ => s

/-- TASK_GRANT: one grant, of quad q (0 to 3) or of the cores (4). -/
def State.taskGrant (s : State) (q : Nat) : State :=
  (if q < 4 then s.grantQuad q else s.grantCores).kittyStat

def execTaskGrant (q : Fin 5) (s : State) : Out := .next (if s.clocked then s.taskGrant q.val else s)

/-- STAGE_IN_COMPLETE: the oldest copy ends and TAKE returns; the copy ends with the stage-in half (notes/assumptions/109.md). An uncorrectable word or a source beyond cell memory makes
the task FAULTED, not granted, and the engine goes on waiting, rules R96, R370 and R465. -/
def State.stageIn (s : State) : State :=
  match s.dlr.stage with
  | [] => s
  | x :: rest =>
    let s1 := { s with dlr := { s.dlr with stage := rest } }
    let src := (s.ctxW x.task 6).toNat
    let len := 64 * min 1024 (s.ctxF x.task 7 10 0)
    if s.ueIn 0x80 src len || !inCell src len then ((s1.ueRead 0x80 src len).taskFault x.task).kittyStat
    else
      let bytes := s.cell.bytes src len
      let s2 := { s1 with data := s1.data.setBytes (0x20000 * x.engine + 0x10000) bytes }
      (s2.ueReplaced (0x40 + x.engine) 0x10000 len).takeReturns x.engine x.task x.resumed

def execStageInComplete (s : State) : Out := .next (if s.clocked then s.stageIn else s)

/-- STEAL_DELAY_EXPIRY: a stealable task has waited STEAL_DLY cycles in its home queue, rule R94. -/
def State.stealDelay (s : State) (t : Nat) : State :=
  if s.queued t && s.ctxF t 0 30 30 == 1 && s.taskHome t ≠ 0x7F then
    (s.setTaskRt t { s.taskRt t with waited := true }).kittyStat
  else s

def execStealDelayExpiry (t : Fin 512) (s : State) : Out := .next (if s.clocked then s.stealDelay t.val else s)

/-! ### Core threads -/

/-- DLR_CORE_TAKE_n: the read of core n stalls until a grant or the limit; of any other agent it is refused and returns 0,
rules R97 and R106. -/
def State.coreTake (s : State) (ag : Agent) (n : Nat) : State :=
  if ag = .core (Fin.ofNat 4 n) then
    { s with dlr := { s.dlr with coreWait := if s.dlr.coreWait.contains n then s.dlr.coreWait else s.dlr.coreWait ++ [n] } }
  else s.opRefused.onBus 0

def execDlrCoreTake (ag : Agent) (n : Fin 4) (s : State) : Out := .next (if s.clocked then s.coreTake ag n.val else s)

/-- CORE_TAKE_TIMEOUT: DLR_CORE_TMO cycles, not 0, have passed; the read returns VALID = 0. -/
def State.coreTimeout (s : State) (n : Nat) : State :=
  if s.dlr.coreWait.contains n && s.fld Reg.DLR_CORE_TMO 23 0 ≠ 0 then
    ((({ s with dlr := { s.dlr with coreWait := s.dlr.coreWait.filter (fun m => m ≠ n) } }).wr64
      (Reg.DLR_CORE_TAKE n) 0).inc Reg.DLR_CORE_TMO_CNT).onBus 0
  else s

def execCoreTakeTimeout (n : Fin 4) (s : State) : Out := .next (if s.clocked then s.coreTimeout n.val else s)

/-- A core's report: refused unless core `n` itself makes it and it names the thread the core last took and has not yet reported,
rule R97. -/
def State.coreReport (s : State) (ag : Agent) (n t : Nat) (f : State → State) : State :=
  if ag = .core (Fin.ofNat 4 n) ∧ s.dlr.coreHeld.contains (n, t) = true then
    f { s with dlr := { s.dlr with coreHeld := Tab.erase n s.dlr.coreHeld } }
  else s.opRefused

/-- A write of DLR_CORE_DONE of core `n`. -/
def State.coreDoneWrite (s : State) (ag : Agent) (n : Nat) (v : Word) : State :=
  s.swWrite ag Page.DLR (fun x => (x.coreReport ag n (bitsOf v.toNat 8 0) (fun y => y.reportDone (bitsOf v.toNat 8 0))).kittyStat)

/-- A write of DLR_CORE_YIELD of core `n`. -/
def State.coreYieldWrite (s : State) (ag : Agent) (n : Nat) (v : Word) : State :=
  s.swWrite ag Page.DLR (fun x => (x.coreReport ag n (bitsOf v.toNat 8 0) (fun y => y.reportYield (bitsOf v.toNat 8 0))).kittyStat)

def execDlrCoreDone (ag : Agent) (n : Fin 4) (v : Word) (s : State) : Out :=
  .next (s.coreDoneWrite ag n.val v)

def execDlrCoreYield (ag : Agent) (n : Fin 4) (v : Word) (s : State) : Out :=
  .next (s.coreYieldWrite ag n.val v)

/-! ### Releases -/

/-- The destination of the present round, rule R98: DST1 in odd ticks for a phase flow. -/
def State.flowDst (s : State) (f : Nat) : Nat :=
  if s.flowPhase f ≠ 7 && s.dlr.odd.contains f then s.flowF f 3 31 0 else s.flowF f 1 31 0

/-- Add one record word to a destination word: wrapping (SUMW) or saturating (SUMS). -/
def State.sumWord (s : State) (sums : Bool) (src dst : Nat) : State :=
  let x := s.cellI64 dst + s.cellI64 src
  if sums then (s.storeCell dst 8 (wrapTo 64 (satTo 64 x))).when (satTo 64 x ≠ x) (fun t => t.inc Reg.DLR_SUMS_SAT_CNT)
  else s.storeCell dst 8 (wrapTo 64 x)

/-- The copy or sum of the record at a release, rule R98. -/
def State.flowMove (s : State) (f pos src : Nat) : State :=
  let n := s.flowF f 0 8 3 + 1
  let d := s.flowDst f
  match s.flowF f 0 2 1 with
  | 0 => s
  | 1 => s.copySealed src (d + 8 * n * pos) (8 * n)
  | k =>
    if pos = 0 then s.copySealed src d (8 * n)
    else forUpTo (fun i st => st.sumWord (k == 3) (src + 8 * i) (d + 8 * i)) n s

/-- A read of the record or of the destination fails, rules R370 and R465. -/
def State.flowErr (s : State) (f pos src : Nat) : Bool :=
  let n := 8 * (s.flowF f 0 8 3 + 1)
  let d := s.flowDst f
  match s.flowF f 0 2 1 with
  | 0 => false
  | 1 => s.ueIn 0x80 src n || !inCell src n || !inCell (d + n * pos) n
  | _ => s.ueIn 0x80 src n || !inCell src n || !inCell d n || (pos ≠ 0 && s.ueIn 0x80 d n)

/-- The end of a round: FIN_FLAG, ROUNDS, and a new round of a PHASE = 7 flow, rules R99 and R100. -/
def State.roundEnd (s : State) (f : Nat) : State :=
  let s1 := s.setFld (Reg.DLR_FLOW_STAT f) 31 16 (s.fld (Reg.DLR_FLOW_STAT f) 31 16 + 1)
  let s2 := if s.flowF f 2 14 14 = 1 then s1.setFlag (s.flowF f 2 8 0) (s.flowF f 2 13 9) else s1
  if s.flowPhase f = 7 then (s2.newRound f).flowCheck f else s2

/-- Every enabled flow of phase `p` has completed its round, rule R101. -/
def State.flowsDone (s : State) (p : Nat) : Bool :=
  (List.range 64).all (fun f => !(s.flowEn f && s.flowPhase f == p) || decide (s.flowLen f ≤ s.flowNext f))

/-- The phase of a Dealer phase number, 2 or 4. -/
def dlrPhase (p : Nat) : Phase := if p = 2 then .p else .l

/-- Phase P or L ends when the last of its enabled flows completes its round, and at its start without one, rules R47 and R101
(notes/assumptions/98.md). -/
def State.flowsEnd (s : State) (p : Nat) : State :=
  if (p == 2 || p == 4) && s.phasesRun && s.begun (dlrPhase p) && !s.ended (dlrPhase p) && !s.isSealed (dlrPhase p) && s.flowsDone p then
    s.endPhase (dlrPhase p) (s.offsetNow (dlrPhase p))
  else s

/-- FLOW_RELEASE: the next position is released once the task that holds it has completed in the present round, rules R98
to R101. -/
def State.flowRelease (s : State) (f : Nat) : State :=
  let pos := s.flowNext f
  if s.flowLive f && !s.bit (Reg.DLR_FLOW_STAT f) 15 && decide (pos < s.flowLen f) then
    match s.flowHolder f pos with
    | none => s.flowBlock f
    | some t =>
      if s.taskState t == tsCancelled || s.taskState t == tsFaulted then s.flowBlock f
      else if !(s.taskRt t).round then s
      else
        let src := (s.ctxW t 8).toNat
        if s.flowErr f pos src then (s.ueRead 0x80 src (8 * (s.flowF f 0 8 3 + 1))).flowBlock f
        else
          let s1 := (s.flowMove f pos src).setFld (Reg.DLR_FLOW_STAT f) 9 0 (pos + 1)
          if pos + 1 = s.flowLen f then (s1.roundEnd f).flowsEnd (s.flowPhase f) else s1.flowCheck f
  else s

def execFlowRelease (f : Fin 64) (s : State) : Out := .next (if s.clocked then (s.flowRelease f.val).kittyStat else s)

/-! ### Phases -/

/-- The phase re-arm of one task, rules R90 and R102. -/
def State.phaseRearm (s : State) (p t : Nat) : State :=
  let st := s.taskState t
  let cause := s.ctxF t 15 7 4
  if s.taskPhase t == p && s.ctxF t 0 31 31 == 1 &&
      (st == tsDone || st == tsFaulted || (st == tsCancelled && (cause == 2 || cause == 3))) then
    let s1 := if s.ctxW t 2 ≠ 0 then s.inc Reg.DLR_STALE_CNT else s
    ((s1.setCtxW t 2 0x80000000).setTaskState t tsArmed).readyCheck t
  else s

/-- The start of phase p = 2 or 4 in the Dealer, rule R102: phase re-arms, then a new round in every flow of the phase, enabled or not;
without an enabled one the phase ends here, rule R101. -/
def State.dlrPhaseStart (s : State) (p : Nat) : State :=
  let flows := (List.range 64).filter (fun f => s.flowPhase f == p)
  let s1 := forEach (fun t st => st.phaseRearm p t) allTasks s
  let s2 := forEach (fun f st => st.newRound f) flows s1
  let s3 := { s2 with dlr := { s2.dlr with openFlows := flows ++ s2.dlr.openFlows.filter (fun f => !flows.contains f) } }
  ((forEach (fun f st => st.flowCheck f) flows s3).flowsEnd p).kittyStat

/-- The deadline of phase p in the Dealer, rules R101 and R102. -/
def State.dlrDeadline (s : State) (p : Nat) : State :=
  let s1 := forEach (fun t st =>
    if st.taskPhase t == p && (st.taskState t == tsArmed || st.taskState t == tsReady) then st.taskCancel t 2 else st) allTasks s
  ({ s1 with dlr := { s1.dlr with openFlows := s1.dlr.openFlows.filter (fun f => s1.flowPhase f ≠ p) } }).kittyStat

/-- The tasks of engine `e`'s home queue enter the Kitty when it ceases to be enabled, having been so in `old`; each entry counts once,
rule R94. -/
def State.rehome (s old : State) (e : Nat) : State :=
  if old.engEnabled e && !s.engEnabled e then
    (s.add Reg.DLR_REHOME_CNT ((allTasks.filter (fun t =>
      s.queued t && !s.taskThread t && s.taskHome t == e && !(s.taskRt t).waited)).length)).kittyStat
  else s.kittyStat

end Sys2Proof.Machine
end

