-- ==== Sys2Proof/Machine/BusRead.lean ====
section
/-! DEFINITION. Reading register pages, rules R384, R431, R432 and R437, with the windows that show a selected entry. -/

namespace Sys2Proof.Machine

/-- The word that a parked crossing supplies for a page in an unpowered domain, rule R384: all ones, but PG_ID, PG_VER
and PG_STAT (with OFF set) and the state field of an unpowered unit. -/
def State.parkedWord (s : State) (a : Nat) : Word :=
  if pageOff a < 0x008 then regReset a
  else if pageOff a = 0x00C then s.rd a ||| 8
  else if pageOff a = 0x800 ∧ 0x040 ≤ pageOf a ∧ pageOf a ≤ 0x07F then 0
  else 0xFFFFFFFF

/-- Entry MEM_HARD_SEL of the hard-fault log, rule R388: address, ID, bit and valid. -/
def State.hardEnt (s : State) : Nat :=
  match s.integ.hard[s.fld Reg.MEM_HARD_SEL 4 0]? with
  | none => 0
  | some (mem, a, b) => a % 4294967296 + 4294967296 * mem + 1099511627776 * b + 140737488355328

/-- Word w of the entry that SSM_TBL_SEL selects: 17 × g + entry of the kinematic table, or a capsule. -/
def State.ssmWindow (s : State) (w : Nat) : Word :=
  let i := s.fld Reg.SSM_TBL_SEL 16 8
  if s.bit Reg.SSM_TBL_SEL 0 then (if w < 12 then Tab.get (fun _ => 0) s.ssm.cap (12 * i + w) else 0)
  else Tab.get (fun _ => 0) s.ssm.kin (16 * i + w)

/-- Word w of the entry that SAF_TBL_SEL selects: an axis, or a zone of 8 words. -/
def State.safWindow (s : State) (w : Nat) : Word :=
  let i := s.fld Reg.SAF_TBL_SEL 15 8
  if s.bit Reg.SAF_TBL_SEL 0 then (if w < 8 then Tab.get (fun _ => 0) s.saf.zone (8 * i + w) else 0)
  else Tab.get (fun _ => 0) s.saf.axis (16 * i + w)

/-- Word w of the change-log entry that SAF_LOG_SEL selects, the oldest first; 0 where there is none. -/
def State.logWindow (s : State) (w : Nat) : Word := (s.saf.log.getD (s.fld Reg.SAF_LOG_SEL 7 0) []).getD w 0

/-! ### Ring ports -/

/-- What a port keeps beside its page. -/
def State.rp (s : State) (p : Nat) : RingPort := Tab.get (fun _ => RingPort.reset) s.ring p
def State.setRp (s : State) (p : Nat) (x : RingPort) : State := { s with ring := Tab.set (fun _ => RingPort.reset) s.ring p x }

/-- A configuration word in force, rule R268. -/
def State.rcf (s : State) (p a : Nat) : Word := if s.fld (Reg.RNG_STAT p) 3 0 = 0 then s.rd a else Tab.get regReset (s.rp p).cfg a

/-- A field of it. -/
def State.rcFld (s : State) (p a hi lo : Nat) : Nat := bitsOf (s.rcf p a).toNat hi lo

/-- This unit may act as time master: it is no twin, or holds the interlock, rule R250. -/
def State.ringFree (s : State) : Bool := !s.bit Reg.TWN_CTRL 0 || s.bit Reg.TWN_STAT 2

/-- KIND of the descriptor that port p serves as a node, rules R251 and R288: 5 in FOREIGN of a twin without the interlock. -/
def State.selfKind (s : State) (p : Nat) : Nat :=
  if s.fld (Reg.RNG_STAT p) 3 0 = 7 ∧ ¬ s.ringFree then 5
  else if s.effFld Reg.SSM_EXP 2 2 = 1 ∧ s.effFld Reg.SSM_EXP 1 0 = p then 3 else 4

/-- Words 0 to 30 of the descriptor that port p serves as a node, rules R284 and R288; REF_T is the local time of the REF on lane A in this
cycle. RTY_TURN, STOP_REACT, OBJ_N and OBJ_LAT and TEXT have no value in the rules, nor has REF_T without that REF: each is an open constant
(notes/assumptions/4.md). -/
def State.selfWord (s : State) (p w : Nat) : Word :=
  let id := s.rd64 Reg.SYS_ID % 281474976710656
  let free := Config.freeWord (0x1000000 + 32 * p + w)
  let exports := ((List.range 160).filter (fun i => (Tab.get (fun _ => 0) s.ssm.cap (12 * i)).getLsbD 9)).length
  match w with
  | 0 => w32 (1 + 65536 * (id % 65536))
  | 1 => w32 (id / 65536)
  | 2 => w32 (s.rcFld p (Reg.RNG_CTRL p) 21 16 + 256 * s.selfKind p + 16777216 * 0x41)
  | 3 => 62500
  | 4 => w32 (2032 + 65536 * 2032)
  | 5 => w32 (s.effFld (Reg.QTZ_PH 1) 20 0)
  | 7 => w32 (600 + 65536 * 600)
  | 10 => w32 exports
  | 11 => s.rd (Reg.RNG_HOP_RTT p)
  | 12 => w32 (s.fld (Reg.RNG_HOP_SPREAD p) 15 0)
  | 13 => w32 (s.fld (Reg.RNG_LANE_STAT_A p) 31 16 + 65536 * s.fld (Reg.RNG_LANE_STAT_B p) 31 16)
  | 14 => match (s.rp p).refT with
    | some t => w32 t
    | none => free
  | 15 => match (s.rp p).refT with
    | some t => w32 (t / 4294967296)
    | none => free
  | 30 => 0
  | _ => free

/-- The descriptor itself, with its CRC-32C. -/
def State.selfDesc (s : State) (p : Nat) : List (BitVec 8) :=
  let l := (List.range 31).flatMap (fun i => wordBytes (s.selfWord p i))
  l ++ wordBytes (crc32c l)

/-- Word w of the descriptor that RNG_DESC_SEL selects on port p: its own, with its CRC-32C, or the one recorded for a node; 0 where
none has been read. -/
def State.descWindow (s : State) (p w : Nat) : Word :=
  if s.bit (Reg.RNG_DESC_SEL p) 8 then
    if w = 31 then crc32c ((List.range 31).flatMap (fun i => wordBytes (s.selfWord p i))) else s.selfWord p w
  else
    match (s.rp p).desc.find? (fun e => e.1 == s.fld (Reg.RNG_DESC_SEL p) 5 0) with
    | none => 0
    | some (_, d) => d.getD w 0

/-- What a 32-bit read of a register word returns in a powered domain. QTZ_PH_6.DEADLINE reads as its START, rule R54. -/
def State.regWord (s : State) (a : Nat) : Word :=
  if pageOff a = 0x018 then s.irqPend (pageOf a)
  else if a = Reg.QTZ_PH 6 + 4 then s.rd (Reg.QTZ_PH 6)
  else if a = Reg.MEM_HARD_ENT then w32 s.hardEnt
  else if a = Reg.MEM_HARD_ENT + 4 then w32 (s.hardEnt / 4294967296)
  else if Reg.DLR_CTX_W 0 ≤ a ∧ a < Reg.DLR_CTX_W 16 then
    s.ctxW (s.fld Reg.DLR_CTX_SEL 8 0) ((a - Reg.DLR_CTX_W 0) / 4)
  else if Reg.SSM_TBL_W 0 ≤ a ∧ a < Reg.SSM_TBL_W 16 then s.ssmWindow ((a - Reg.SSM_TBL_W 0) / 4)
  else if Reg.SAF_TBL_W 0 ≤ a ∧ a < Reg.SAF_TBL_W 16 then s.safWindow ((a - Reg.SAF_TBL_W 0) / 4)
  else if Reg.SAF_LOG_W 0 ≤ a ∧ a < Reg.SAF_LOG_W 16 then s.logWindow ((a - Reg.SAF_LOG_W 0) / 4)
  else if 0x020 ≤ pageOf a ∧ pageOf a ≤ 0x023 ∧ 0xB80 ≤ pageOff a ∧ pageOff a < 0xC00 then
    s.descWindow (pageOf a - 0x020) ((pageOff a - 0xB80) / 4)
  else
    match regRow a with
    | none => 0
    | some r => if r.kind = .writeOnly then 0 else s.rd a

/-- A sample of rail `i`: PWR_RAIL_V_i, and the extremes since PWR_RAIL_MINMAX_i was read; a register that a read has returned to 0
takes the sample as both. Rule R408. -/
def State.railSample (s : State) (i mv : Nat) : State :=
  let m := s.rdN (Reg.PWR_RAIL_MINMAX i)
  let lo := if m = 0 then mv else min (m % 65536) mv
  (s.wrN (Reg.PWR_RAIL_V i) mv).wrN (Reg.PWR_RAIL_MINMAX i) (lo + 65536 * max (m / 65536) mv)

/-- A sample of rail `i` that no command names: the monitor takes one each µs, and what it measures is open (notes/assumptions/134.md). -/
def State.railOpen (s : State) (i : Nat) : State :=
  let kP := s.takeFree
  let k := kP.1
  let s1 := kP.2
  s1.railSample i ((Config.freeWord k).toNat % 65536)

/-- What a read finds that no command has brought: the samples of the supply monitor since the last one, and the deviation of the 25 MHz
reference that CLK_REF25_PPM shows. -/
def State.measuredAt (s : State) (a : Nat) : State :=
  if Reg.PWR_RAIL_V 0 ≤ a ∧ a < Reg.PWR_RAIL_V 13 then s.railOpen ((a - Reg.PWR_RAIL_V 0) / 4)
  else if Reg.PWR_RAIL_MINMAX 0 ≤ a ∧ a < Reg.PWR_RAIL_MINMAX 13 then
    (s.railOpen ((a - Reg.PWR_RAIL_MINMAX 0) / 4)).railOpen ((a - Reg.PWR_RAIL_MINMAX 0) / 4)
  else if a = Reg.CLK_REF25_PPM then
    let kP := s.takeFree
    let k := kP.1
    let s1 := kP.2
    s1.wr a (Config.freeWord k)
  else s

/-- DLR_CORE_TAKE_n: its read is an operation of core n, rules R97 and R106. -/
def takeAddr (a : Nat) : Bool := decide (Reg.DLR_CORE_TAKE 0 ≤ a ∧ a < Reg.DLR_CORE_TAKE 4)

/-- A 32-bit read of a register page word at bus address `a`: the word and the state after it (an RC word returns to its
reset value, rule R432). A read of DLR_CORE_TAKE_n that is not core n's is refused and returns 0, rule R106. -/
def State.busRead (s : State) (a : Nat) : Word × State :=
  if (pageKind (pageOf a)).isNone then (0xFFFFFFFF, s)
  else if !s.domOn (domainOf (pageOf a)) then (s.parkedWord a, s.inc Reg.CDC_PARK_ACC_CNT)
  else if takeAddr a then (0, s.opRefused)
  else
    let s1 := s.measuredAt a
    match regRow a with
    | some r => if r.kind = .readClear then (s1.regWord a, s1.wr a (regReset a)) else (s1.regWord a, s1)
    | none => (s1.regWord a, s1)

end Sys2Proof.Machine
end

