-- ==== Sys2Proof/Machine/Flags.lean ====
section
/-! DEFINITION. The flag and saturation arithmetic of a motion engine, rules R63 to R67 (spec/03_motion_engines.md), on
exact integers: a value, and whether a limit replaced it. -/

namespace Sys2Proof.Machine

/-- The bits of SR, rule R56's table. -/
def srZ : Nat := 0
def srN : Nat := 1
def srSAT : Nat := 2
def srAOV : Nat := 3
def srPE : Nat := 4
def srLPE : Nat := 5

/-- A word with bit `i` set to `b`. -/
def putBit (w : Word) (i : Nat) (b : Bool) : Word := if b then w ||| (1#32 <<< i) else w &&& ~~~(1#32 <<< i)

/-- An accumulator takes an exact result: the nearer 80-bit limit where it lies outside, and whether it did, rule R64. -/
def accSat (i : Int) : BitVec 80 × Bool := (BitVec.ofInt 80 (satTo 80 i), decide (satTo 80 i ≠ i))

/-- A 32-bit result saturated, and whether it was, rules R65 and R66. -/
def wordSat (i : Int) : Word × Bool := (BitVec.ofInt 32 (satTo 32 i), decide (satTo 32 i ≠ i))

/-- A 64-bit result saturated, and whether it was, rule R65. -/
def pairSat (i : Int) : BitVec 64 × Bool := (BitVec.ofInt 64 (satTo 64 i), decide (satTo 64 i ≠ i))

/-- A right shift that rounds half up: floor((x + 2^(s−1)) / 2^s), rule R65. -/
def roundShift (x : Int) (s : Nat) : Int := if s = 0 then x else (x + 2 ^ (s - 1)) / 2 ^ s

/-- Scaling by a signed shift, rule R65: right and rounded for s > 0, left for s < 0. -/
def scaleBy (x s : Int) : Int := if 0 ≤ s then roundShift x s.toNat else x * 2 ^ (-s).toNat

/-- How many of the bits k−1, k−2, … down to 0 equal `b`, counted until the first that differs. -/
def signRun (n : Nat) (b : Bool) : Nat → Nat
  | 0 => 0
  | k + 1 => if n.testBit k = b then 1 + signRun n b k else 0

/-- The exponent of a `w`-bit value, rule R67: the redundant sign bits below bit w − 1. -/
def expOf (w n : Nat) : Nat := signRun n (n.testBit (w - 1)) (w - 1)

/-- The low k bits of i in reverse order, rule R62. -/
def brev : Nat → Nat → Nat
  | 0, _ => 0
  | k + 1, i => (i % 2) * 2 ^ k + brev k (i / 2)

/-- The condition of BCC, rule R73, on SR. -/
def condHolds (cond : Nat) (sr : Word) : Bool :=
  let z := sr.getLsbD srZ
  let n := sr.getLsbD srN
  match cond with
  | 0 => true
  | 1 => z
  | 2 => !z
  | 3 => n
  | 4 => !n
  | 5 => sr.getLsbD srSAT
  | 6 => !z && !n
  | _ => z || n

end Sys2Proof.Machine
end

