-- ==== Sys2Proof/Machine/Operands.lean ====
section
/-! DEFINITION. The operand forms of a motion engine: registers, pairs, accumulators, special registers, addressing modes
and code addresses, rules R56 to R62 and R73 (spec/03_motion_engines.md). -/

namespace Sys2Proof.Machine

/-- A data register. -/
def Eng.dr (g : Eng) (r : Nat) : Word := Tab.get (fun _ => 0) g.d r

/-- A pair: the even register holds bits 31:0, rule R57. -/
def Eng.pair (g : Eng) (r : Nat) : BitVec 64 := g.dr (r + 1) ++ g.dr r

/-- An address-class register by its target code: X 0–7, M 8–15, B 16–23, K 24–31. -/
def Eng.axr (g : Eng) (c : Nat) : Word := Tab.get (fun _ => 0) g.ax c

/-- A special register by its code. -/
def Eng.spr (g : Eng) (c : Nat) : Word := Tab.get (fun _ => 0) g.sp c

/-- An accumulator. -/
def Eng.accr (g : Eng) (n : Nat) : BitVec 80 := Tab.get (fun _ => 0) g.acc n

/-- An accumulator as an MVA reads it, rule R68. -/
def Eng.accMvar (g : Eng) (n : Nat) : BitVec 80 := Tab.get (fun _ => 0) g.accMva n

/-- SR. -/
def Eng.sr (g : Eng) : Word := g.spr 10

/-- The scaling shift of an accumulator, −64 to +63. -/
def Eng.shift (g : Eng) (n : Nat) : Int := signedOf 7 (g.spr n).toNat

/-- Bits of a special register by its code, rule R56. -/
def spWidth (c : Nat) : Nat := if c < 4 then 7 else if c < 14 then 16 else 32

/-- Write a special register; SR keeps its reserved bits 0. -/
def Eng.setSp (g : Eng) (c : Nat) (v : Word) : Eng :=
  let w := if c = 10 then v &&& 0x3F else v &&& w32 (2 ^ spWidth c - 1)
  { g with sp := Tab.set (fun _ => 0) g.sp c w }

/-- A special register as MSV reads it: SH0 to SH3 are signed. -/
def Eng.spRead (g : Eng) (c : Nat) : Word := if c < 4 then BitVec.ofInt 32 (g.shift c) else g.spr c

/-- Write a data register. -/
def Eng.setD (g : Eng) (r : Nat) (v : Word) : Eng := { g with d := Tab.set (fun _ => 0) g.d r v }

/-- Write an address-class register. -/
def Eng.setAx (g : Eng) (c : Nat) (v : Word) : Eng := { g with ax := Tab.set (fun _ => 0) g.ax c v }

/-- The exponent k of the block size of bit-reversed mode, rule R62. -/
def brevK (kn w : Nat) : Nat :=
  let n := min (kn / w) 32768
  if n < 2 then 0 else Nat.log2 n

/-- The new address after an access of `w` bytes through Xn, rules R60 to R62. The quotients of bit-reversed mode are rounded toward minus
infinity: DESIGN CHOICE, notes/assumptions/102.md. -/
def Eng.postModify (g : Eng) (x mode w : Nat) : Word :=
  let xn := (g.axr x).toNat
  let mn := (g.axr (8 + x)).toInt
  let bn := (g.axr (16 + x)).toNat
  let kn := (g.axr (24 + x)).toNat
  match mode with
  | 0 => g.axr x
  | 1 => BitVec.ofInt 32 (xn + mn)
  | 2 =>
    let a : Int := xn + mn
    BitVec.ofInt 32 (if a ≥ bn + kn then a - kn else if a < bn then a + kn else a)
  | _ =>
    let k := brevK kn w
    let i := wrapTo k (((xn : Int) - bn) / w)
    let st := wrapTo k (mn / w)
    w32 (bn + w * brev k ((brev k i + brev k st) % 2 ^ k))

/-- A code address. -/
def codeAddr (i : Int) : Nat := wrapTo 16 i / 8 * 8

/-- The target of a relative branch of signed offset `off` bundles from the present bundle, rule R73. -/
def Eng.target (g : Eng) (off : Int) : Nat := codeAddr (g.pc + 8 * off)

/-- The slot numbers of a bundle: MAC, MOV1, MOV2, and the control slot. -/
def slotMac : Nat := 0
def slotMov (second : Bool) : Nat := if second then 2 else 1
def slotCtl : Nat := 3

/-- The long control slot takes the bits of the second move slot and of the control slot, the immediate slot those of every slot but the
MAC slot, by the layouts of rule R73. -/
def slotLong : Nat := 4
def slotImm : Nat := 5

/-- Two slots share bits of a bundle, or are one. -/
def slotsMeet (a b : Nat) : Bool :=
  a == b || (a == 5 && b != 0) || (b == 5 && a != 0) || (a == 4 && (b == 2 || b == 3)) || (b == 4 && (a == 2 || a == 3))

/-- The effects of a post-modify: none in mode 0b00. -/
def Eng.modify (g : Eng) (x mode w : Nat) : List EngEff :=
  if mode = 0 then [] else [.ax x (g.postModify x mode w)]

end Sys2Proof.Machine
end

