-- ==== Sys2Proof/Machine/EngineCore.lean ====
section
/-! DEFINITION. A motion engine's bundle: its slots take effect together, with the exposed delays of rule R68, faults of
rule R82, loops of rules R71 and R72, and memory of rules R58 and R59 (spec/03_motion_engines.md). -/

namespace Sys2Proof.Machine

/-- An engine executes bundles: in RUN or TRAP, its quad powered, not stalled on a SETF. -/
def State.engRuns (s : State) (e : Nat) : Bool :=
  s.clocked && s.domOn (3 + e / 16) && (s.engState e == 3 || s.engState e == 4) && !(s.engOf e).setfWait

/-- ENG_STAT.SAT, ENG_SAT_CNT and the event of a saturation, rules R65 and R85. -/
def State.engSat (s : State) (e : Nat) : State :=
  ((s.setBit (Reg.ENG_STAT e) 5 true).inc (Reg.ENG_SAT_CNT e)).event (0x40 + e) 1 0

/-- ENG_STAT.AOV and its event. -/
def State.engAov (s : State) (e : Nat) : State := (s.setBit (Reg.ENG_STAT e) 6 true).event (0x40 + e) 2 0

/-! ### Faults -/

/-- A store to a register page that rules R438 and R439 permit: DLR_SETF, and the status registers of a PRF or LOOP page
(no runtime control) from a bundle below the engine's ENG_CODE_LOCK limit. -/
def State.pageStoreOk (s : State) (e pc a : Nat) : Bool :=
  if a = Reg.DLR_SETF then true
  else
    match pageKind (pageOf a) with
    | some (.prf, _, _) | some (.prfg, _, _) | some (.loop, _, _) =>
      decide (0x800 ≤ pageOff a) && decide (pc < 1024 * s.fld (Reg.ENG_CODE_LOCK e) 6 0) &&
        (match regRow a with
         | none => true
         | some r => r.rw == 0 && r.w1s == 0 && r.kind == .plain)
    | _ => false

/-- The fault of an access with its code, rule R82; none where it can be made. -/
def State.accessFault (s : State) (e pc : Nat) (eff : EngEff) : Option (Nat × Nat) :=
  match eff with
  | .load _ a wide ecc =>
    let n := if wide then 8 else 4
    if a % n ≠ 0 then some (4, a)
    else if a < 0x20000 then if s.eccFails (0x40 + e) a n ecc then some (7, a) else none
    else if 0x10000000 ≤ a ∧ a < 0x11800000 then
      if s.eccFails 0x80 (a - 0x10000000) n ecc then some (8, a) else none
    else if 0x40000000 ≤ a ∧ (pageKind (pageOf a)).isSome then
      if ecc = .uncorrectable ∨ ecc = .fabricError then some (8, a) else none
    else some (5, a)
  | .store a wide _ ecc =>
    let n := if wide then 8 else 4
    if a % n ≠ 0 then some (4, a)
    else if a < 0x20000 then
      if !wide && s.eccFails (0x40 + e) (a / 8 * 8) 8 ecc then some (8, a) else none
    else if 0x10000000 ≤ a ∧ a < 0x11800000 then
      if ecc = .fabricError ∨ (!wide ∧ s.eccFails 0x80 ((a - 0x10000000) / 8 * 8) 8 ecc) then some (8, a) else none
    else if 0x40000000 ≤ a ∧ (pageKind (pageOf a)).isSome then
      if !s.pageStoreOk e pc a || (wide && !s.pageStoreOk e pc (a + 4)) then some (6, a)
      else if ecc = .fabricError then some (8, a) else none
    else some (5, a)
  | _ => none

/-- A control operation that a delay slot may not hold, rule R70. -/
def EngEff.delayForbidden : EngEff → Bool
  | .branch _ | .take | .done | .yield | .rte | .loop _ _ _ => true
  | _ => false

/-- A control operation that the last bundle of a loop may not hold, rule R72. -/
def EngEff.loopForbidden : EngEff → Bool
  | .branch _ | .take | .done | .yield | .rte => true
  | _ => false

/-- The present bundle ends loop level `l`, which is running: LCl ≠ 0, SR.LPE = 1 and the bundle is at LEl. -/
def Eng.loopEnd (g : Eng) (l : Nat) : Bool :=
  g.spr (4 + 3 * l) ≠ 0 && g.sr.getLsbD srLPE && (g.spr (6 + 3 * l)).toNat == g.pc

/-- The bundle is the one at LEl, rule R72; an LEl of 0 names no loop end: DEDUCED, notes/assumptions/101.md. -/
def Eng.loopLast (g : Eng) (l : Nat) : Bool := g.spr (6 + 3 * l) ≠ 0 && (g.spr (6 + 3 * l)).toNat == g.pc

/-- The uncorrectable word that an access replaces whole is gone for the access after it, rules R59 and R370. -/
def State.afterAccess (s : State) (e : Nat) (eff : EngEff) : State :=
  match eff with
  | .store a true _ _ =>
    if a < 0x20000 then s.ueReplaced (0x40 + e) a 8
    else if a < 0x40000000 && !s.sealedAt (a - 0x10000000) 8 then s.ueReplaced 0x80 (a - 0x10000000) 8
    else s
  | _ => s

/-- The first access of a bundle that faults, in slot order (rule R59), with its code and address. -/
def State.firstFault (s : State) (e pc : Nat) : List EngEff → Option (EngEff × Nat × Nat)
  | [] => none
  | x :: t =>
    match s.accessFault e pc x with
    | some f => some (x, f)
    | none => (s.afterAccess e x).firstFault e pc t

/-- The word of code SRAM at the pc is a reserved encoding, rules R73 and R74 (notes/assumptions/111.md). -/
def State.codeReserved (s : State) (e pc : Nat) : Bool := reservedBundle (s.code.getN (0x10000 * e + pc) 8)

/-- The fault of a bundle, the first in the order of the codes: FCODE, and the data address of an access fault. -/
def State.bundleFault (s : State) (e : Nat) (g : Eng) : Option (Nat × Option Nat) :=
  let effs := g.staged.map (fun p => p.2)
  if s.ueIn e g.pc 8 then some (7, none)
  else if s.codeReserved e g.pc || effs.contains .reserved then some (1, none)
  else if g.delay.isSome && effs.any EngEff.delayForbidden then some (2, none)
  else if (g.loopLast 0 || g.loopLast 1) && effs.any EngEff.loopForbidden then some (3, none)
  else if effs.any (fun x => x == .yield || x == .rte) && s.engState e ≠ 4 then some (9, none)
  else (s.firstFault e g.pc effs).map (fun (p : EngEff × Nat × Nat) => (p.2.1, some p.2.2))

/-- The registers with the writes of the last bundle's loads and MVAs landed. -/
def Eng.landed (g : Eng) : Eng := { g with d := Tab.setAll (fun _ => 0) g.d g.late, late := [] }

/-- The errors that a bundle's accesses meet are recorded, rules R369 and R370. -/
def State.recordAccess (s : State) (e : Nat) (eff : EngEff) : State :=
  let go (a : Nat) (ecc : Ecc) : State :=
    if a < 0x20000 then s.eccRead (0x40 + e) a false ecc
    else if 0x10000000 ≤ a ∧ a < 0x11800000 then s.eccRead 0x80 (a - 0x10000000) false ecc
    else s
  match eff with
  | .load _ a _ ecc => go a ecc
  | .store a wide _ ecc => if wide then s else go a ecc
  | _ => s

/-- The errors of an access that faults are recorded; a narrow store's read-modify-write is refused, rule R374. -/
def State.recordFault (s : State) (e : Nat) (eff : EngEff) : State :=
  match eff with
  | .store a false _ .fabricError => s.recordAccess e (.store a false 0 .fabricError)
  | .store a false _ _ =>
    if a < 0x20000 then s.rmwRefused (0x40 + e) a else if a < 0x40000000 then s.rmwRefused 0x80 (a - 0x10000000) else s
  | x => s.recordAccess e x

/-- An engine faults, rule R82: the bundle has no effect, earlier ones complete, and the task is reported as faulted. With EN = 0 it then is
DISABLED, rule R464 (notes/assumptions/107.md). -/
def State.engFault (s : State) (e code : Nat) (addr : Option Nat) : State :=
  let g := s.engOf e
  let s0 := if code = 7 ∨ code = 8 then
      match addr, s.firstFault e g.pc (g.staged.map (fun (p : Nat × EngEff) => p.2)) with
      | some _, some (x, _) => (s.recordFault e x).detLapse
      | _, _ => (s.ueRead e g.pc 8).detLapse
    else s
  let s1 := s0.setEng e { g.landed with staged := [], delay := none, task := none, preReq := false }
  let s2 := ((s1.setEngState e (if s1.bit (Reg.ENG_CTRL e) 0 then 5 else 1)).setBit (Reg.ENG_STAT e) 7 true).setFld (Reg.ENG_STAT e) 15 8 code
  let s3 := s2.wrN (Reg.ENG_FPC e) g.pc
  let s4 := match addr with
    | some a => s3.wrN (Reg.ENG_FADDR e) a
    | none => s3
  let s5 := (s4.inc (Reg.ENG_FAULT_CNT e)).alarm (0x40 + e) 0 (w32 code)
  let s6 := match g.task with
    | some t => s5.reportFault t
    | none => s5
  s6.rehome s e

/-! ### Accesses -/

/-- The bytes at an engine's data address as a number, with the state after the read. -/
def State.engRead (s : State) (e a n : Nat) : Nat × State :=
  if a < 0x20000 then (s.data.getN (0x20000 * e + a) n, s)
  else if a < 0x40000000 then (s.cellN (a - 0x10000000) n, s)
  else if takeAddr a then (0, s.opRefused)
  else if n = 4 then ((s.busRead a).1.toNat, (s.busRead a).2)
  else
    let loP := s.busRead a
    let lo := loP.1
    let s1 := loP.2
    let hiP := s1.busRead (a + 4)
    let hi := hiP.1
    let s2 := hiP.2
    (lo.toNat + 4294967296 * hi.toNat, s2)

/-- A store at an engine's data address. -/
def State.engWrite (s : State) (e a n v : Nat) : State :=
  if a < 0x20000 then ({ s with data := s.data.setN (0x20000 * e + a) n v }).ueReplaced (0x40 + e) a n
  else if a < 0x40000000 then s.storeCell (a - 0x10000000) n v
  else if a = Reg.DLR_SETF then s.sendFlag (some e) (bitsOf v 8 0) (bitsOf v 20 16)
  else if n = 4 then if (regRow a).isSome then s.wrN a v else s
  else
    let s1 := if (regRow a).isSome then s.wrN a v else s
    if (regRow (a + 4)).isSome then s1.wrN (a + 4) (v / 4294967296) else s1

/-- The data registers that a load writes. -/
def loadWrites (r : Nat) (wide : Bool) (v : Nat) : List (Nat × Word) :=
  if wide then [(r, w32 v), (r + 1, w32 (v / 4294967296))] else [(r, w32 v)]

/-- The accesses of a bundle in slot order, rule R59: the slot and register writes of its loads. -/
def State.accesses (s : State) (e : Nat) : List (Nat × EngEff) → State × List (Nat × Nat × Word)
  | [] => (s, [])
  | (slot, eff) :: t =>
    match eff with
    | .load r a wide _ =>
      let vP := (s.recordAccess e eff).engRead e a (if wide then 8 else 4)
      let v := vP.1
      let s1 := vP.2
      let s2P := s1.accesses e t
      let s2 := s2P.1
      let ws := s2P.2
      (s2, (loadWrites r wide v).map (fun p => (slot, p.1, p.2)) ++ ws)
    | .store a wide v _ => ((s.recordAccess e eff).engWrite e a (if wide then 8 else 4) v.toNat).accesses e t
    | _ => s.accesses e t

/-- The stall cycles of a bundle's accesses: one for a narrow store to the own data SRAM, an open number for each access
over the fabric (notes/assumptions/4.md). -/
def stallCycles (k : Nat) : List EngEff → Nat × Nat
  | [] => (0, k)
  | .load _ a _ _ :: t =>
    let nP := stallCycles (if 0x20000 ≤ a then k + 1 else k) t
    let n := nP.1
    let k1 := nP.2
    (if 0x20000 ≤ a then n + (Config.freeWord k).toNat else n, k1)
  | .store a wide _ _ :: t =>
    let nP := stallCycles (if 0x20000 ≤ a then k + 1 else k) t
    let n := nP.1
    let k1 := nP.2
    (if 0x20000 ≤ a then n + (Config.freeWord k).toNat else if wide then n else n + 1, k1)
  | _ :: t => stallCycles k t

/-! ### The bundle -/

/-- The data-register writes of a bundle with one delay slot or none: slot, register, value, delayed. -/
def regWrites (loads : List (Nat × Nat × Word)) (staged : List (Nat × EngEff)) : List (Nat × Nat × Word × Bool) :=
  loads.map (fun p => (p.1, p.2.1, p.2.2, true)) ++
    staged.filterMap (fun p => match p.2 with
      | .d r v => some (p.1, r, v, false)
      | .dLate r v => some (p.1, r, v, true)
      | _ => none)

/-- The writes that stand: of two slots that write one register the higher wins, rule R69. -/
def winners (ws : List (Nat × Nat × Word × Bool)) : List (Nat × Nat × Word × Bool) :=
  ws.filter (fun w => !ws.any (fun x => x.2.1 == w.2.1 && decide (w.1 < x.1)))

/-- The effect of a slot on the engine's own registers other than the data registers. -/
def Eng.apply (g : Eng) : EngEff → Eng
  | .ax c v => g.setAx c v
  | .sp c v => g.setSp c v
  | .acc n v => { g with acc := Tab.set (fun _ => 0) g.acc n v }
  | .accMov n v => { g with acc := Tab.set (fun _ => 0) g.acc n v, accMva := Tab.set (fun _ => 0) g.accMva n v }
  | .cmp z n => g.setSp 10 (putBit (putBit g.sr srZ z) srN n)
  | .sat => g.setSp 10 (putBit g.sr srSAT true)
  | .aov => g.setSp 10 (putBit g.sr srAOV true)
  | .pe v => g.setSp 10 (putBit g.sr srPE v)
  | .clrs => g.setSp 10 (putBit (putBit g.sr srSAT false) srAOV false)
  | .loop l count body =>
    ((g.setSp (4 + 3 * l) (w32 count)).setSp (5 + 3 * l) (w32 (g.pc + 8))).setSp (6 + 3 * l) (w32 (g.pc + 8 * body))
  | .rte => (g.setSp 10 (g.spr 13)).setAx 7 (g.spr 14)
  | _ => g

/-- The loop test of level `l` at the present bundle: the engine after it, and the next fetch where the loop goes round, without the low
three bits of LSl (DESIGN CHOICE, notes/assumptions/104.md). -/
def Eng.loopTest (g : Eng) (l : Nat) : Eng × Option Nat :=
  if g.loopEnd l then
    if 1 < (g.spr (4 + 3 * l)).toNat then (g.setSp (4 + 3 * l) (g.spr (4 + 3 * l) - 1), some (codeAddr (g.spr (5 + 3 * l)).toNat))
    else (g.setSp (4 + 3 * l) 0, none)
  else (g, none)

/-- The loop tests of a bundle, level 1 first, rule R71; none in the delay slot of a taken branch, rule R72. -/
def Eng.loopTests (g : Eng) : Eng × Option Nat :=
  match g.delay with
  | some (some _) => (g, none)
  | _ =>
    match g.loopTest 1 with
    | (g1, some a) => (g1, some a)
    | (g1, none) => g1.loopTest 0

/-- The next bundle after the present one, given the loop tests' answer, which wins over the skip of a loop of count 0 (DESIGN CHOICE,
notes/assumptions/103.md). -/
def Eng.nextPc (g : Eng) (effs : List EngEff) (again : Option Nat) : Nat :=
  match g.delay with
  | some (some t) => t
  | _ =>
    match again with
    | some a => a
    | none =>
      if effs.contains .rte then codeAddr (g.spr 12).toNat
      else
        match effs.findSome? (fun x => match x with
            | .loop _ 0 body => some body
            | _ => none) with
        | some body => codeAddr (g.pc + 8 * body + 8)
        | none => codeAddr (g.pc + 8)

/-- The engine after a bundle without fault. A slot whose register write loses to a higher slot, rule R69, still sets its flags and counts
(DESIGN CHOICE, notes/assumptions/136.md). -/
def Eng.after (g : Eng) (loads : List (Nat × Nat × Word)) : Eng :=
  let effs := g.staged.map (fun p => p.2)
  let ws := winners (regWrites loads g.staged)
  let now := (ws.filter (fun w => !w.2.2.2)).map (fun w => (w.2.1, w.2.2.1))
  let later := (ws.filter (fun w => w.2.2.2)).map (fun w => (w.2.1, w.2.2.1))
  let g1P := { g.landed with accMva := g.acc }.loopTests
  let g1 := g1P.1
  let again := g1P.2
  let g2 := effs.foldl Eng.apply g1
  { g2 with
    d := Tab.setAll (fun _ => 0) g2.d now
    late := later
    pc := g.nextPc effs again
    delay := effs.findSome? (fun x => match x with
      | .branch t => some t
      | _ => none)
    staged := [] }

/-- The engine hands its task back as complete, rule R76; it enters DISABLED where ENG_CTRL.EN is 0, rule R464. -/
def State.engDone (s : State) (e : Nat) : State :=
  let g := s.engOf e
  let s1 := match g.task with
    | some t => ((s.setEng e { g with task := none, preReq := false }).reportDone t).engTrace e 0x02 t
    | none => s.opRefused
  (if s1.bit (Reg.ENG_CTRL e) 0 then s1 else s1.setEngState e 1).kittyStat

/-- The engine waits for a task, or is DISABLED where ENG_CTRL.EN is 0. -/
def State.engWait (s : State) (e : Nat) : State :=
  let s1 := s.setEng e { (s.engOf e).landed with preReq := false }
  s1.setEngState e (if s1.bit (Reg.ENG_CTRL e) 0 then 2 else 1)

/-- The control operations that reach the Dealer, rules R75, R76, R81 and R92. -/
def State.engControl (s : State) (e : Nat) (eff : EngEff) : State :=
  match eff with
  | .done => s.engDone e
  | .take => (if (s.engOf e).task.isSome then s.engDone e else s).engWait e
  | .yield =>
    let s1 := match (s.engOf e).task with
      | some t => ((s.setEng e { s.engOf e with task := none }).reportYield t).engTrace e 0x03 t
      | none => s.opRefused
    (s1.engWait e).kittyStat
  | .rte => s.setEngState e 3
  | .setf t f => s.sendFlag (some e) t f
  | .sat => s.engSat e
  | .aov => s.engAov e
  | _ => s

/-- The control operations of a bundle in slot order; while the engine stalls on a flag set the rest waits, rule R93. -/
def State.engControls (s : State) (e : Nat) : List EngEff → State
  | [] => s
  | x :: t =>
    if (s.engOf e).setfWait then s.setEng e { s.engOf e with heldOps := x :: t } else (s.engControl e x).engControls e t

/-- A stalled flag set has gone into the queue: once none of its engine is left, the engine goes on with what waited. -/
def State.wakeSender (s : State) (x : Stalled) : State :=
  match x.engine with
  | none => s
  | some n =>
    if s.dlr.stalled.any (fun y => y.engine == some n) then s
    else
      let g := s.engOf n
      (s.setEng n { g with setfWait := false, heldOps := [] }).engControls n g.heldOps

/-- The senders that stall, an engine once whatever its sets. -/
def stallers (l : List Stalled) : Nat :=
  (l.filter (fun x => x.engine.isNone)).length + (List.range 64).countP (fun e => l.any (fun x => x.engine == some e))

/-- EVENT_QUEUE_ACCEPT: one Dealer cycle takes in up to four flag sets; stalled senders then fill the queue, and the cycle counts for each
sender that stalled in it, rule R93. -/
def State.queueAccept (s : State) : State :=
  let q := s.dlr.queue
  let s1 : State := { s with dlr := { s.dlr with queue := q.drop 4 } }
  let s2 : State := forEach (fun p st => st.setFlag p.1 p.2) (q.take 4) s1
  let room := 64 - s2.dlr.queue.length
  let goes : List Stalled := s2.dlr.stalled.take room
  let waits := s2.dlr.stalled.drop room
  let s3 : State := { s2 with
    dlr := { s2.dlr with queue := s2.dlr.queue ++ goes.map (fun x => (x.task, x.flag)), stalled := waits } }
  let s4 := (s3.add Reg.DLR_EVQ_STALL_CNT (stallers s.dlr.stalled)).setBit Reg.DLR_STAT 4 (decide (64 ≤ s3.dlr.queue.length))
  (forEach (fun x st => st.wakeSender x) goes s4).kittyStat

def execEventQueueAccept (s : State) : Out := .next (if s.clocked then s.queueAccept else s)

/-- ENG_BUSY_CNT and ENG_STALL_CNT of a bundle. -/
def State.engCount (s : State) (e : Nat) (effs : List EngEff) : State :=
  let nP := stallCycles s.free effs
  let n := nP.1
  let k := nP.2
  let s1 := { s with free := k }
  (s1.wr64 (Reg.ENG_BUSY_CNT e) (min (s1.rd64 (Reg.ENG_BUSY_CNT e) + 1 + n) (2 ^ 64 - 1))).add (Reg.ENG_STALL_CNT e) n

/-- The staged slots in slot order. -/
def inSlots (l : List (Nat × EngEff)) : List (Nat × EngEff) :=
  (List.range 6).flatMap (fun k => l.filter (fun p => p.1 == k))

/-- A bundle is complete: it faults, or all its slots take effect. -/
def State.bundle (s : State) (e : Nat) : State :=
  let g0 := s.engOf e
  let g := { g0 with staged := inSlots g0.staged }
  let s0 := s.setEng e g
  match s0.bundleFault e g with
  | some (code, addr) => s0.engFault e code addr
  | none =>
    let effs := g.staged.map (fun p => p.2)
    let s1P := (s0.engCount e effs).accesses e g.staged
    let s1 := s1P.1
    let loads := s1P.2
    let g1 := { g.after loads with setfWait := (s1.engOf e).setfWait }
    let s2 := (s1.setEng e g1).setBit (Reg.ENG_STAT e) 4 (g1.sr.getLsbD srPE)
    s2.engControls e effs

/-- One slot of the present bundle of engine `e`: `f` gives its effects from the values before the bundle, in place of what shared its
bits (rule R73, notes/assumptions/150.md); with `fin` the bundle is complete. -/
def State.engSlot (s : State) (e slot : Nat) (fin : Bool) (f : Eng → List EngEff) : State :=
  if s.engRuns e then
    let g := s.engOf e
    let s1 := s.setEng e { g with staged := g.staged.filter (fun p => !slotsMeet p.1 slot) ++ (f g).map (fun x => (slot, x)) }
    if fin then s1.bundle e else s1
  else s

/-! ### Preemption -/

/-- The preemption requests of a tick boundary, rules R78 and R103: to each engine running a task granted before it; one
that does not meet rule R78 is dropped. -/
def State.preemptRequests (s : State) : State :=
  forUpTo (fun e st =>
    match (st.engOf e).task with
    | none => st
    | some t =>
      if decide ((st.taskRt t).grantTick < st.tick) && st.bit (Reg.ENG_CTRL e) 1 && (st.engOf e).sr.getLsbD srPE &&
          st.engState e == 3 then
        st.setEng e { st.engOf e with preReq := true }
      else st) 64 s

/-- PREEMPTION_TRAP: the trap of an engine with a request, at a bundle boundary that does not lie between a branch and its
delay slot, rule R79. -/
def State.preemptTrap (s : State) (e : Nat) : State :=
  let g := s.engOf e
  if s.engRuns e && s.engState e == 3 && g.preReq && g.delay.isNone && g.staged.isEmpty then
    let g1 := { g.landed with accMva := g.acc }
    let g2 := ((g1.setSp 12 (w32 g.pc)).setSp 13 g.sr).setSp 14 (g.axr 7)
    let g3 := (g2.setAx 7 (g.spr 15)).setSp 10 (g.sr &&& 0xF)
    let s1 := s.setEng e { g3 with pc := 0x40, preReq := false }
    (((s1.setEngState e 4).setBit (Reg.ENG_STAT e) 4 false).wrN (Reg.ENG_EPC e) g.pc).inc (Reg.ENG_PRE_CNT e)
  else s

def execPreemptionTrap (e : Fin 64) (s : State) : Out := .next (s.preemptTrap e.val)

/-! ### Enabling and code -/

/-- A grant whose stage-in copy for engine `e` still runs is undone: the task waits in its queue again, READY or PREEMPTED as before; in
the home queue of `e` it is counted with the others there (DESIGN CHOICE, notes/assumptions/106.md). -/
def State.unGrant (s : State) (e : Nat) : State :=
  match s.dlr.stage.find? (fun x => x.engine == e) with
  | none => s
  | some x =>
    let s1 : State := { s with dlr := { s.dlr with stage := s.dlr.stage.filter (fun y => !(y.engine == e)) } }
    let st := if x.resumed then tsPreempted else tsReady
    if s.taskHome x.task = e then s1.toQueue x.task st else s1.enqueue x.task st

/-- A write of 0 to ENG_CTRL.EN, rules R82 and R464: a waiting engine is DISABLED at once, a running one after its task, and one in
FAULT whose ENG_STAT.FAULT has been cleared leaves it. One in RUN without a task goes on until its next TAKE (DESIGN CHOICE,
notes/assumptions/136.md). -/
def State.engStop (s : State) (e : Nat) : State :=
  let st := s.engState e
  if st == 2 then (s.setEngState e 1).unGrant e
  else if st == 5 && !s.bit (Reg.ENG_STAT e) 7 then s.setEngState e 1
  else s

/-- ENG_CTRL.EN = 1: a DISABLED engine starts at 0x0000, with the registers it has (DEDUCED, notes/assumptions/105.md). -/
def State.engStart (s : State) (e : Nat) : State :=
  if s.engState e == 1 && s.domOn (3 + e / 16) then
    (s.setEng e { s.engOf e with pc := 0, delay := none, staged := [], late := [], task := none, preReq := false }).setEngState
      e 3
  else s

/-- ENG_CTRL, rule R464. -/
def State.engCtrl (s : State) (e : Nat) (v : Word) : State :=
  let s1 := s.wr (Reg.ENG_CTRL e) (v &&& 7)
  if v.getLsbD 0 then (s1.engStart e).kittyStat else (s1.engStop e).rehome s e

def execEngCtrlEn (ag : Agent) (e : Fin 64) (v : Word) (s : State) : Out :=
  .next (s.cfgWrite ag (0x40 + e.val) true id (fun x => x.engCtrl e.val v))

/-- CODE_SRAM_WRITE: accepted only in BOOT with EN = 0, and below the ENG_CODE_LOCK limit only from the firmware loader,
rule R86. -/
def State.codeWrite (s : State) (loader : Bool) (e bundle : Nat) (v : BitVec 64) : State :=
  if s.sys.dev = .boot ∧ s.bit (Reg.ENG_CTRL e) 0 = false ∧
      (loader = true ∨ 1024 * s.fld (Reg.ENG_CODE_LOCK e) 6 0 ≤ 8 * bundle) then
    ({ s with code := s.code.setN (0x10000 * e + 8 * bundle) 8 v.toNat }).ueReplaced e (8 * bundle) 8
  else (s.inc (Reg.ENG_CWR_REF_CNT e)).event (0x40 + e) 3 0

def execCodeSramWrite (loader : Bool) (e : Fin 64) (bundle : Fin 8192) (v : BitVec 64) (s : State) : Out :=
  .next (if s.clocked then s.codeWrite loader e.val bundle.val v else s)

end Sys2Proof.Machine
end

