-- ==== Sys2Proof/Machine/EngineOps.lean ====
section
/-! DEFINITION. The operations of the MAC, move, control, long control and immediate slots of a motion engine, rules R60 to
R81 (spec/03_motion_engines.md). Each gives its slot's effects from the values before the bundle (rule R68); a reserved
encoding is one of rules R57, R63, R73 and R74. -/

namespace Sys2Proof.Machine

/-- The signed product of two registers. -/
def Eng.prod (g : Eng) (a b : Nat) : Int := (g.dr a).toInt * (g.dr b).toInt

/-- The product with the second operand unsigned. -/
def Eng.prodU (g : Eng) (a b : Nat) : Int := (g.dr a).toInt * (g.dr b).toNat

/-- An accumulator takes an exact result, rule R64. -/
def accTo (n : Nat) (i : Int) : List EngEff := if (accSat i).2 then [.acc n (accSat i).1, .aov] else [.acc n (accSat i).1]

/-- Add to an accumulator. -/
def Eng.accAdd (g : Eng) (n : Nat) (i : Int) : List EngEff := accTo n ((g.accr n).toInt + i)

/-- The real and imaginary parts of the complex product of Da:D(a+1) and Db:D(b+1). -/
def Eng.cprod (g : Eng) (a b : Nat) : Int × Int :=
  (g.prod a b - g.prod (a + 1) (b + 1), g.prod a (b + 1) + g.prod (a + 1) b)

/-- The same with D(b+1) negated. -/
def Eng.cprodJ (g : Eng) (a b : Nat) : Int × Int :=
  (g.prod a b + g.prod (a + 1) (b + 1), g.prod (a + 1) b - g.prod a (b + 1))

/-- The complex operations need even a, b and n. -/
def even3 (n a b : Nat) : Bool := n % 2 == 0 && a % 2 == 0 && b % 2 == 0

/-- A saturating 32-bit result in Dd, rules R65 and R66. -/
def satTo32 (late : Bool) (d : Nat) (i : Int) : List EngEff :=
  let w := if late then EngEff.dLate d (wordSat i).1 else EngEff.d d (wordSat i).1
  if (wordSat i).2 then [w, .sat] else [w]

/-- A 64-bit result in a pair. -/
def pairTo (late : Bool) (d : Nat) (v : BitVec 64) : List EngEff :=
  if late then [.dLate d (v.setWidth 32), .dLate (d + 1) ((v >>> 32).setWidth 32)]
  else [.d d (v.setWidth 32), .d (d + 1) ((v >>> 32).setWidth 32)]

/-- Effects that need even pair fields. -/
def evenPair (rs : List Nat) (l : List EngEff) : List EngEff := if rs.all (fun r => r % 2 == 0) then l else [.reserved]

/-- MVA by its form, rule R65's table; the accumulator is the one an MVA reads, rule R68. -/
def Eng.mva (g : Eng) (d n form : Nat) : List EngEff :=
  let a := g.accMvar n
  let x := scaleBy a.toInt (g.shift n)
  match form with
  | 0 => satTo32 true d x
  | 1 => if d % 2 = 0 then pairTo true d (pairSat x).1 ++ (if (pairSat x).2 then [.sat] else []) else [.reserved]
  | 2 => [.dLate d (a.setWidth 32)]
  | 3 => [.dLate d ((a >>> 32).setWidth 32)]
  | 4 => [.dLate d (((a >>> 64).setWidth 16).signExtend 32)]
  | _ => [.reserved]

/-- MAV by its form: the raw forms replace only their bit range. -/
def Eng.mav (g : Eng) (d n form : Nat) : List EngEff :=
  let a := g.accr n
  match form with
  | 0 => [.accMov n ((g.dr d).signExtend 80)]
  | 1 => if d % 2 = 0 then [.accMov n ((g.pair d).signExtend 80)] else [.reserved]
  | 2 => [.accMov n ((a &&& ~~~0xFFFFFFFF#80) ||| (g.dr d).setWidth 80)]
  | 3 => [.accMov n ((a &&& ~~~(0xFFFFFFFF#80 <<< 32)) ||| ((g.dr d).setWidth 80 <<< 32))]
  | 4 => [.accMov n ((a &&& 0xFFFFFFFFFFFFFFFF#80) ||| (((g.dr d).setWidth 16).setWidth 80 <<< 64))]
  | _ => [.reserved]

/-- A special code of MVS and MSV is 0 to 15, rule R73. -/
def spCode (c : Nat) (l : List EngEff) : List EngEff := if c < 16 then l else [.reserved]

/-- NOP in any slot, rule R74. -/
def execNop (e : Fin 64) (slot : Fin 4) (fin : Bool) (s : State) : Out :=
  .next (s.engSlot e.val slot.val fin (fun _ => []))

/-- MPY: ACCn := Da × Db. -/
def execMpy (e : Fin 64) (fin : Bool) (n : Fin 4) (a b : Fin 32) (s : State) : Out :=
  .next (s.engSlot e.val slotMac fin (fun g => accTo n.val (g.prod a.val b.val)))

/-- MAC: ACCn += Da × Db. -/
def execMac (e : Fin 64) (fin : Bool) (n : Fin 4) (a b : Fin 32) (s : State) : Out :=
  .next (s.engSlot e.val slotMac fin (fun g => g.accAdd n.val (g.prod a.val b.val)))

/-- MSU: ACCn −= Da × Db. -/
def execMsu (e : Fin 64) (fin : Bool) (n : Fin 4) (a b : Fin 32) (s : State) : Out :=
  .next (s.engSlot e.val slotMac fin (fun g => g.accAdd n.val (-(g.prod a.val b.val))))

/-- MPYU: ACCn := Da × Db, Db unsigned. -/
def execMpyu (e : Fin 64) (fin : Bool) (n : Fin 4) (a b : Fin 32) (s : State) : Out :=
  .next (s.engSlot e.val slotMac fin (fun g => accTo n.val (g.prodU a.val b.val)))

/-- MACU: ACCn += Da × Db, Db unsigned. -/
def execMacu (e : Fin 64) (fin : Bool) (n : Fin 4) (a b : Fin 32) (s : State) : Out :=
  .next (s.engSlot e.val slotMac fin (fun g => g.accAdd n.val (g.prodU a.val b.val)))

/-- MACH: ACCn += (Da × Db) × 2^32. -/
def execMach (e : Fin 64) (fin : Bool) (n : Fin 4) (a b : Fin 32) (s : State) : Out :=
  .next (s.engSlot e.val slotMac fin (fun g => g.accAdd n.val (g.prod a.val b.val * 2 ^ 32)))

/-- QMPY: ACCi := Da × D(b+i), all four. -/
def execQmpy (e : Fin 64) (fin : Bool) (a b : Fin 32) (s : State) : Out :=
  .next (s.engSlot e.val slotMac fin (fun g => if b.val % 4 = 0 then (List.range 4).flatMap (fun i => accTo i (g.prod a.val (b.val + i))) else [.reserved]))

/-- QMAC: ACCi += Da × D(b+i), all four. -/
def execQmac (e : Fin 64) (fin : Bool) (a b : Fin 32) (s : State) : Out :=
  .next (s.engSlot e.val slotMac fin (fun g => if b.val % 4 = 0 then (List.range 4).flatMap (fun i => g.accAdd i (g.prod a.val (b.val + i))) else [.reserved]))

/-- CMPY: ACCn:ACC(n+1) := the complex product. -/
def execCmpy (e : Fin 64) (fin : Bool) (n : Fin 4) (a b : Fin 32) (s : State) : Out :=
  .next (s.engSlot e.val slotMac fin (fun g => if even3 n.val a.val b.val then accTo n.val (g.cprod a.val b.val).1 ++ accTo (n.val + 1) (g.cprod a.val b.val).2 else [.reserved]))

/-- CMAC: ACCn:ACC(n+1) += the complex product. -/
def execCmac (e : Fin 64) (fin : Bool) (n : Fin 4) (a b : Fin 32) (s : State) : Out :=
  .next (s.engSlot e.val slotMac fin (fun g => if even3 n.val a.val b.val then g.accAdd n.val (g.cprod a.val b.val).1 ++ g.accAdd (n.val + 1) (g.cprod a.val b.val).2 else [.reserved]))

/-- CMACJ: as CMAC with D(b+1) negated. -/
def execCmacj (e : Fin 64) (fin : Bool) (n : Fin 4) (a b : Fin 32) (s : State) : Out :=
  .next (s.engSlot e.val slotMac fin (fun g => if even3 n.val a.val b.val then g.accAdd n.val (g.cprodJ a.val b.val).1 ++ g.accAdd (n.val + 1) (g.cprodJ a.val b.val).2 else [.reserved]))

/-- ACLR: ACCn := 0. -/
def execAclr (e : Fin 64) (fin : Bool) (n : Fin 4) (s : State) : Out :=
  .next (s.engSlot e.val slotMac fin (fun _ => [.acc n.val 0]))

/-- AADD: ACCn += ACCb, saturating. -/
def execAadd (e : Fin 64) (fin : Bool) (n b : Fin 4) (s : State) : Out :=
  .next (s.engSlot e.val slotMac fin (fun g => g.accAdd n.val (g.accr b.val).toInt))

/-- ASH: ACCn shifted by b, positive left; a left shift saturates, rule R64. -/
def execAsh (e : Fin 64) (fin : Bool) (n : Fin 4) (b : BitVec 5) (s : State) : Out :=
  .next (s.engSlot e.val slotMac fin (fun g => if 0 ≤ b.toInt then accTo n.val ((g.accr n.val).toInt * 2 ^ b.toInt.toNat) else [.acc n.val ((g.accr n.val).sshiftRight (-b.toInt).toNat)]))

/-- EXPA: Da := the exponent of ACCn, with one delay slot, rules R67 and R68. -/
def execExpa (e : Fin 64) (fin : Bool) (n : Fin 4) (a : Fin 32) (s : State) : Out :=
  .next (s.engSlot e.val slotMac fin (fun g => [.dLate a.val (w32 (expOf 80 (g.accr n.val).toNat))]))

/-- MOV: Dd := Dr. -/
def execMov (e : Fin 64) (second fin : Bool) (d r : Fin 32) (s : State) : Out :=
  .next (s.engSlot e.val (slotMov second) fin (fun g => [.d d.val (g.dr r.val)]))

/-- MOVP: pair := pair. -/
def execMovp (e : Fin 64) (second fin : Bool) (d r : Fin 32) (s : State) : Out :=
  .next (s.engSlot e.val (slotMov second) fin (fun g => evenPair [d.val, r.val] (pairTo false d.val (g.pair r.val))))

/-- LD: Dd := 32 bits at Xn, with post-modify, rules R59 and R60. -/
def execLd (e : Fin 64) (second fin : Bool) (d : Fin 32) (x : Fin 8) (mode : Fin 4) (ecc : Ecc) (s : State) : Out :=
  .next (s.engSlot e.val (slotMov second) fin (fun g => .load d.val (g.axr x.val).toNat false ecc :: g.modify x.val mode.val 4))

/-- ST: 32 bits at Xn := Dd, with post-modify. -/
def execSt (e : Fin 64) (second fin : Bool) (d : Fin 32) (x : Fin 8) (mode : Fin 4) (ecc : Ecc) (s : State) : Out :=
  .next (s.engSlot e.val (slotMov second) fin (fun g => .store (g.axr x.val).toNat false ((g.dr d.val).setWidth 64) ecc :: g.modify x.val mode.val 4))

/-- LDP: pair := 64 bits at Xn, with post-modify. -/
def execLdp (e : Fin 64) (second fin : Bool) (d : Fin 32) (x : Fin 8) (mode : Fin 4) (ecc : Ecc) (s : State) : Out :=
  .next (s.engSlot e.val (slotMov second) fin (fun g => evenPair [d.val] (.load d.val (g.axr x.val).toNat true ecc :: g.modify x.val mode.val 8)))

/-- STP: 64 bits at Xn := pair, with post-modify. -/
def execStp (e : Fin 64) (second fin : Bool) (d : Fin 32) (x : Fin 8) (mode : Fin 4) (ecc : Ecc) (s : State) : Out :=
  .next (s.engSlot e.val (slotMov second) fin (fun g => evenPair [d.val] (.store (g.axr x.val).toNat true (g.pair d.val) ecc :: g.modify x.val mode.val 8)))

/-- MVA: accumulator to register or pair, rule R65. -/
def execMva (e : Fin 64) (second fin : Bool) (d : Fin 32) (acc : Fin 4) (form : Fin 8) (s : State) : Out :=
  .next (s.engSlot e.val (slotMov second) fin (fun g => g.mva d.val acc.val form.val))

/-- MAV: register or pair to accumulator. -/
def execMav (e : Fin 64) (second fin : Bool) (d : Fin 32) (acc : Fin 4) (form : Fin 8) (s : State) : Out :=
  .next (s.engSlot e.val (slotMov second) fin (fun g => g.mav d.val acc.val form.val))

/-- ADD: Dd := Dd + Dr, wrapping. -/
def execAdd (e : Fin 64) (second fin : Bool) (d r : Fin 32) (s : State) : Out :=
  .next (s.engSlot e.val (slotMov second) fin (fun g => [.d d.val (g.dr d.val + g.dr r.val)]))

/-- ADDS: Dd := Dd + Dr, saturating. -/
def execAdds (e : Fin 64) (second fin : Bool) (d r : Fin 32) (s : State) : Out :=
  .next (s.engSlot e.val (slotMov second) fin (fun g => satTo32 false d.val ((g.dr d.val).toInt + (g.dr r.val).toInt)))

/-- SUB: Dd := Dd − Dr, wrapping. -/
def execSub (e : Fin 64) (second fin : Bool) (d r : Fin 32) (s : State) : Out :=
  .next (s.engSlot e.val (slotMov second) fin (fun g => [.d d.val (g.dr d.val - g.dr r.val)]))

/-- SUBS: Dd := Dd − Dr, saturating. -/
def execSubs (e : Fin 64) (second fin : Bool) (d r : Fin 32) (s : State) : Out :=
  .next (s.engSlot e.val (slotMov second) fin (fun g => satTo32 false d.val ((g.dr d.val).toInt - (g.dr r.val).toInt)))

/-- ADDP: pair := pair + pair, wrapping. -/
def execAddp (e : Fin 64) (second fin : Bool) (d r : Fin 32) (s : State) : Out :=
  .next (s.engSlot e.val (slotMov second) fin (fun g => evenPair [d.val, r.val] (pairTo false d.val (g.pair d.val + g.pair r.val))))

/-- SUBP: pair := pair − pair, wrapping. -/
def execSubp (e : Fin 64) (second fin : Bool) (d r : Fin 32) (s : State) : Out :=
  .next (s.engSlot e.val (slotMov second) fin (fun g => evenPair [d.val, r.val] (pairTo false d.val (g.pair d.val - g.pair r.val))))

/-- AND: bitwise. -/
def execAndOp (e : Fin 64) (second fin : Bool) (d r : Fin 32) (s : State) : Out :=
  .next (s.engSlot e.val (slotMov second) fin (fun g => [.d d.val (g.dr d.val &&& g.dr r.val)]))

/-- OR: bitwise. -/
def execOrOp (e : Fin 64) (second fin : Bool) (d r : Fin 32) (s : State) : Out :=
  .next (s.engSlot e.val (slotMov second) fin (fun g => [.d d.val (g.dr d.val ||| g.dr r.val)]))

/-- XOR: bitwise. -/
def execXorOp (e : Fin 64) (second fin : Bool) (d r : Fin 32) (s : State) : Out :=
  .next (s.engSlot e.val (slotMov second) fin (fun g => [.d d.val (g.dr d.val ^^^ g.dr r.val)]))

/-- SRA: Dd shifted right arithmetically, truncating toward minus infinity, rule R66. -/
def execSra (e : Fin 64) (second fin : Bool) (d imm : Fin 32) (s : State) : Out :=
  .next (s.engSlot e.val (slotMov second) fin (fun g => [.d d.val ((g.dr d.val).sshiftRight imm.val)]))

/-- SRAR: Dd shifted right arithmetically, rounding half up, rule R66. -/
def execSrar (e : Fin 64) (second fin : Bool) (d imm : Fin 32) (s : State) : Out :=
  .next (s.engSlot e.val (slotMov second) fin (fun g => [.d d.val (BitVec.ofInt 32 (roundShift (g.dr d.val).toInt imm.val))]))

/-- SLL: Dd shifted left. -/
def execSll (e : Fin 64) (second fin : Bool) (d imm : Fin 32) (s : State) : Out :=
  .next (s.engSlot e.val (slotMov second) fin (fun g => [.d d.val (g.dr d.val <<< imm.val)]))

/-- SRL: Dd shifted right logically. -/
def execSrl (e : Fin 64) (second fin : Bool) (d imm : Fin 32) (s : State) : Out :=
  .next (s.engSlot e.val (slotMov second) fin (fun g => [.d d.val (g.dr d.val >>> imm.val)]))

/-- CMP: Z := (Dd = Dr); N := (Dd < Dr), signed. -/
def execCmp (e : Fin 64) (second fin : Bool) (d r : Fin 32) (s : State) : Out :=
  .next (s.engSlot e.val (slotMov second) fin (fun g => [.cmp (g.dr d.val == g.dr r.val) (decide ((g.dr d.val).toInt < (g.dr r.val).toInt))]))

/-- EXP: Dd := the exponent of Dr, rule R67. -/
def execExp (e : Fin 64) (second fin : Bool) (d r : Fin 32) (s : State) : Out :=
  .next (s.engSlot e.val (slotMov second) fin (fun g => [.d d.val (w32 (expOf 32 (g.dr r.val).toNat))]))

/-- NORM: Dd := Dr shifted left by its exponent, rule R67. -/
def execNorm (e : Fin 64) (second fin : Bool) (d r : Fin 32) (s : State) : Out :=
  .next (s.engSlot e.val (slotMov second) fin (fun g => [.d d.val (g.dr r.val <<< expOf 32 (g.dr r.val).toNat)]))

/-- MOVX: address-class register := Dr. -/
def execMovx (e : Fin 64) (second fin : Bool) (c r : Fin 32) (s : State) : Out :=
  .next (s.engSlot e.val (slotMov second) fin (fun g => [.ax c.val (g.dr r.val)]))

/-- MOVD: Dd := address-class register. -/
def execMovd (e : Fin 64) (second fin : Bool) (d c : Fin 32) (s : State) : Out :=
  .next (s.engSlot e.val (slotMov second) fin (fun g => [.d d.val (g.axr c.val)]))

/-- MIN: Dd := the signed minimum. -/
def execMinOp (e : Fin 64) (second fin : Bool) (d r : Fin 32) (s : State) : Out :=
  .next (s.engSlot e.val (slotMov second) fin (fun g => [.d d.val (if (g.dr d.val).toInt ≤ (g.dr r.val).toInt then g.dr d.val else g.dr r.val)]))

/-- MAX: Dd := the signed maximum. -/
def execMaxOp (e : Fin 64) (second fin : Bool) (d r : Fin 32) (s : State) : Out :=
  .next (s.engSlot e.val (slotMov second) fin (fun g => [.d d.val (if (g.dr r.val).toInt ≤ (g.dr d.val).toInt then g.dr d.val else g.dr r.val)]))

/-- ABS: Dd := |Dr|, saturating. -/
def execAbsOp (e : Fin 64) (second fin : Bool) (d r : Fin 32) (s : State) : Out :=
  .next (s.engSlot e.val (slotMov second) fin (fun g => satTo32 false d.val ((g.dr r.val).toInt.natAbs : Int)))

/-- ADDI: Dd := Dd + imm5 signed, saturating. -/
def execAddi (e : Fin 64) (second fin : Bool) (d : Fin 32) (imm : BitVec 5) (s : State) : Out :=
  .next (s.engSlot e.val (slotMov second) fin (fun g => satTo32 false d.val ((g.dr d.val).toInt + imm.toInt)))

/-- BR: a branch with one delay slot, rule R70. -/
def execBr (e : Fin 64) (fin : Bool) (off : BitVec 10) (s : State) : Out :=
  .next (s.engSlot e.val slotCtl fin (fun g => [.branch (some (g.target off.toInt))]))

/-- BCC: a branch on SR as the bundles before left it, rule R70. -/
def execBcc (e : Fin 64) (fin : Bool) (cond : Fin 8) (off : BitVec 7) (s : State) : Out :=
  .next (s.engSlot e.val slotCtl fin (fun g => [.branch (if condHolds cond.val g.sr then some (g.target off.toInt) else none)]))

/-- TAKE: rule R75. -/
def execTake (e : Fin 64) (fin : Bool) (s : State) : Out :=
  .next (s.engSlot e.val slotCtl fin (fun _ => [.take]))

/-- DONE: rule R76. -/
def execDoneOp (e : Fin 64) (fin : Bool) (s : State) : Out :=
  .next (s.engSlot e.val slotCtl fin (fun _ => [.done]))

/-- SETF: sets flag Dr[20:16] of task Dr[8:0], rule R92. -/
def execSetf (e : Fin 64) (fin : Bool) (r : Fin 32) (s : State) : Out :=
  .next (s.engSlot e.val slotCtl fin (fun g => [.setf (bitsOf (g.dr r.val).toNat 8 0) (bitsOf (g.dr r.val).toNat 20 16)]))

/-- PEN: SR.PE := 1. -/
def execPen (e : Fin 64) (fin : Bool) (s : State) : Out :=
  .next (s.engSlot e.val slotCtl fin (fun _ => [.pe true]))

/-- PDIS: SR.PE := 0. -/
def execPdis (e : Fin 64) (fin : Bool) (s : State) : Out :=
  .next (s.engSlot e.val slotCtl fin (fun _ => [.pe false]))

/-- RTE: PC := EPC, SR := ESR, X7 := ESX, only in TRAP. -/
def execRte (e : Fin 64) (fin : Bool) (s : State) : Out :=
  .next (s.engSlot e.val slotCtl fin (fun _ => [.rte]))

/-- JR: PC := Dr[15:0], with one delay slot. -/
def execJr (e : Fin 64) (fin : Bool) (r : Fin 32) (s : State) : Out :=
  .next (s.engSlot e.val slotCtl fin (fun g => [.branch (some (codeAddr (g.dr r.val).toNat))]))

/-- LOOPR: a loop of Dr[15:0] rounds and 1 to 16 bundles, rule R71. -/
def execLoopr (e : Fin 64) (fin : Bool) (l : Fin 2) (r : Fin 32) (last : Fin 16) (s : State) : Out :=
  .next (s.engSlot e.val slotCtl fin (fun g => [.loop l.val (bitsOf (g.dr r.val).toNat 15 0) (last.val + 1)]))

/-- RDCYC: Dd := the low word of the cycle count, an open value (rule R77; notes/assumptions/4.md). -/
def execRdcyc (e : Fin 64) (fin : Bool) (d : Fin 32) (s : State) : Out :=
  .next (s.takeFree.2.engSlot e.val slotCtl fin (fun _ => [.d d.val (Config.freeWord s.takeFree.1)]))

/-- RDENG: Dd := the engine number. -/
def execRdeng (e : Fin 64) (fin : Bool) (d : Fin 32) (s : State) : Out :=
  .next (s.engSlot e.val slotCtl fin (fun _ => [.d d.val (w32 e.val)]))

/-- CLRS: SR.SAT and SR.AOV := 0. -/
def execClrs (e : Fin 64) (fin : Bool) (s : State) : Out :=
  .next (s.engSlot e.val slotCtl fin (fun _ => [.clrs]))

/-- RET: PC := LK, with one delay slot. -/
def execRet (e : Fin 64) (fin : Bool) (s : State) : Out :=
  .next (s.engSlot e.val slotCtl fin (fun g => [.branch (some (codeAddr (g.spr 11).toNat))]))

/-- YIELD: rule R81, only in TRAP. -/
def execYield (e : Fin 64) (fin : Bool) (s : State) : Out :=
  .next (s.engSlot e.val slotCtl fin (fun _ => [.yield]))

/-- LBR: a long branch with one delay slot. -/
def execLbr (e : Fin 64) (fin : Bool) (off : BitVec 24) (s : State) : Out :=
  .next (s.engSlot e.val slotLong fin (fun g => [.branch (some (g.target off.toInt))]))

/-- LCALL: a long branch that sets LK to the address after its delay slot. -/
def execLcall (e : Fin 64) (fin : Bool) (off : BitVec 24) (s : State) : Out :=
  .next (s.engSlot e.val slotLong fin (fun g => [.branch (some (g.target off.toInt)), .sp 11 (w32 (codeAddr (g.pc + 16)))]))

/-- LOOP: a loop of an immediate count and a body of 1 to 4,095 bundles, rules R71 and R73. -/
def execLoopImm (e : Fin 64) (fin : Bool) (l : Fin 2) (count : BitVec 11) (last : BitVec 12) (s : State) : Out :=
  .next (s.engSlot e.val slotLong fin (fun _ => if last = 0 then [.reserved] else [.loop l.val count.toNat last.toNat]))

/-- MVS: special register := Dr. -/
def execMvs (e : Fin 64) (fin : Bool) (c r : Fin 32) (s : State) : Out :=
  .next (s.engSlot e.val slotLong fin (fun g => spCode c.val [.sp c.val (g.dr r.val)]))

/-- MSV: Dd := special register. -/
def execMsv (e : Fin 64) (fin : Bool) (d c : Fin 32) (s : State) : Out :=
  .next (s.engSlot e.val slotLong fin (fun g => spCode c.val [.d d.val (g.spRead c.val)]))

/-- SHI: SHn := imm7. -/
def execShi (e : Fin 64) (fin : Bool) (n : Fin 4) (imm : BitVec 7) (s : State) : Out :=
  .next (s.engSlot e.val slotLong fin (fun _ => [.sp n.val (imm.setWidth 32)]))

/-- MOVI: Dd := imm32. -/
def execMovi (e : Fin 64) (fin : Bool) (d : Fin 32) (imm : Word) (s : State) : Out :=
  .next (s.engSlot e.val slotImm fin (fun _ => [.d d.val imm]))

/-- MOVIX: address-class register := imm32. -/
def execMovix (e : Fin 64) (fin : Bool) (c : Fin 32) (imm : Word) (s : State) : Out :=
  .next (s.engSlot e.val slotImm fin (fun _ => [.ax c.val imm]))

end Sys2Proof.Machine
end

