-- ==== Sys2Proof/Machine/TickData.lean ====
section
/-! DEFINITION. What the phases read of the tick's buffers: groups and members, the gather buffer (rules R260, R261, R292
and R314), and the limit set (rules R49, R114 and R189). -/

namespace Sys2Proof.Machine

/-- A stamp in steps of `k` × 0.2 ns, in 2^-16 ns, rule R51 (rounding down: DESIGN CHOICE, notes/assumptions/123.md). -/
def stampSteps (k t : Int) : Int := t * 5 / (65536 * k) * k * 65536 / 5

/-- floor(n / d + 1/2): an exact quotient rounded half up once. -/
def ratioRound (n : Int) (d : Int) : Int := if d = 0 then 0 else (2 * n + d) / (2 * d)

/-- rnd(x, s) of rule R113. -/
def rnd (x : Int) (s : Nat) : Int := roundShift x s

/-- The sign of an integer. -/
def sgn (x : Int) : Int := if x < 0 then -1 else if x = 0 then 0 else 1

/-- The magnitude of an integer. -/
def mag (x : Int) : Int := (x.natAbs : Int)

/-- Hold x to lo … hi. -/
def clampI (lo hi x : Int) : Int := if x < lo then lo else if hi < x then hi else x

/-! ### Groups -/

/-- Byte m of PRFG_MEMBER of group g: the axis of member m, 0xFF where unused. -/
def State.memberByte (s : State) (g m : Nat) : Nat := s.fld (Reg.PRFG_MEMBER g + 4 * (m / 4)) (8 * (m % 4) + 7) (8 * (m % 4))

/-- The members of a group in member order, with their member numbers, rule R107. -/
def State.members (s : State) (g : Nat) : List (Nat × Nat) :=
  ((List.range 16).map (fun m => (m, s.memberByte g m))).filter (fun p => decide (p.2 < 144))

/-- PRFG_CTRL.EN. -/
def State.groupEn (s : State) (g : Nat) : Bool := s.bit (Reg.PRFG_CTRL g) 0

/-- PRF_CTRL.EN. -/
def State.axisEn (s : State) (a : Nat) : Bool := s.bit (Reg.PRF_CTRL a) 0

/-- The enabled group of which an axis is a member. -/
def State.groupOf (s : State) (a : Nat) : Option Nat :=
  (List.range 16).find? (fun g => s.groupEn g && (s.members g).any (fun p => p.2 == a))

/-- The enabled groups. -/
def State.groups (s : State) : List Nat := (List.range 16).filter (fun g => s.groupEn g)

/-- The safety state of a group, rule R197: 0 OPER, 1 SS2, 2 SOS, 3 SS1, 4 STO. -/
def State.grpState (s : State) (g : Nat) : Nat := s.fld (Reg.SAF_GRP_STAT g) 2 0

/-! ### The gather buffer -/

/-- The axis record of the present tick's gather buffer. -/
def State.axisRec (s : State) (a : Nat) : Nat := s.gath s.parity + 64 * a

/-- The measured state of an axis: x_m (Q48.16), v_m (Q32.32), and whether it is valid; an uncorrectable word in the record
counts as missing, rule R370. -/
def State.measured (s : State) (a : Nat) : Int × Int × Bool :=
  let r := s.axisRec a
  (s.cellI64 r, s.cellI64 (r + 8), s.cell32 (r + 40) % 2 == 1 && !s.ueIn 0x80 r 48)

/-- The drive's status word of an axis record, rule R261. -/
def State.axisStatus (s : State) (a : Nat) : Nat := s.cell32 (s.axisRec a + 20)

/-- The index latched in this tick: its position, where there is one. -/
def State.axisIndex (s : State) (a : Nat) : Option Int :=
  if (s.axisStatus a).testBit 6 then some (s.cellI64 (s.axisRec a + 24)) else none

/-- The field snapshot of the present tick, rule R314. -/
def State.snapAddr (s : State) : Nat := s.gath s.parity + 0x84400

/-- The level of an input source byte for an axis, rule R130's list: bits 6:0 source, bit 7 inversion. -/
def State.sourceLevel (s : State) (a src : Nat) : Bool :=
  let n := src % 128
  let raw :=
    if n < 0x20 then (s.cell32 s.snapAddr).testBit n
    else if n < 0x24 then (s.axisStatus a).testBit (n - 0x20)
    else if n = 0x30 then (s.axisStatus a).testBit 6
    else false
  if n = 0x7F then false else raw != decide (128 ≤ src)

/-- The level of a homing input of an axis. -/
def State.homeLevel (s : State) (a : Nat) (i : HomeInput) : Bool :=
  match i with
  | .limn => s.sourceLevel a (s.fld (Reg.PRF_CTRL a) 15 8)
  | .limp => s.sourceLevel a (s.fld (Reg.PRF_CTRL a) 23 16)
  | .home => s.sourceLevel a (s.fld (Reg.PRF_CTRL a) 31 24)

/-! ### The limit set -/

/-- The phases whose copy of a parity is invalid after an overrun. -/
def State.invalidPhases (s : State) (par : Nat) : Nat := if par = 0 then s.qtz.invalid0 else s.qtz.invalid1

/-- The limit set copy that the readers of the present tick use and whether they halve it, rule R49: the previous tick's
where S overran; none where that one is invalid as well. -/
def State.limUse (s : State) : Option (Nat × Bool) :=
  if !(s.invalidPhases s.parity).testBit 1 then some (s.lim s.parity, false)
  else if !(s.invalidPhases (1 - s.parity)).testBit 1 then some (s.lim (1 - s.parity), true)
  else none

/-- The group entry's word at `o` in the copy in use. -/
def State.limWord (s : State) (g o : Nat) : Option (Nat × Bool) :=
  match s.limUse with
  | none => none
  | some (b, h) => some (s.cell32 (b + 0x10 + 16 * g + o), h)

/-- σ_g as an exact fraction, halved after an S overrun and 0 without a limit set, rules R49 and R114. -/
def State.sigma (s : State) (g : Nat) : Int × Int :=
  match s.limWord g 0 with
  | none => (0, 1)
  | some (w, h) => ((w % 65536 : Nat), if h then 65536 else 32768)

/-- The group carries STOP in the limit set, rules R49 and R370. -/
def State.limStop (s : State) (g : Nat) : Bool :=
  match s.limUse with
  | none => true
  | some (b, _) => (s.cell32 (b + 0x10 + 16 * g)).testBit 16 || s.ueIn 0x80 (b + 0x10 + 16 * g) 16 || s.ueIn 0x80 b 16

/-- A velocity times σ_g, and times 0.5 in DEGRADED: the effective limit of rule R114, held as the largest whole number of
2^-32 counts per tick that does not exceed it. -/
def State.effLimit (s : State) (g : Nat) (v : Int) : Int :=
  let nP := s.sigma g
  let n := nP.1
  let d := nP.2
  (v * n) / (if s.sys.dev = .degraded then 2 * d else d)

/-- Groups whose plan entries of a parity are invalid, rule R49. -/
def State.planBad (s : State) (par : Nat) : BitVec 16 := if par = 0 then s.qtz.planBad0 else s.qtz.planBad1

/-- Groups whose command entries of a parity are invalid. -/
def State.cmdBad (s : State) (par : Nat) : BitVec 16 := if par = 0 then s.qtz.cmdBad0 else s.qtz.cmdBad1

/-! ### Entries of the plan set and the solution, rules R158 and R170 -/

/-- An entry: x_sp, v_sp, a_sp, t_dyn and flags. -/
structure Entry where
  x : Int
  v : Int
  a : Int
  t : Int
  flags : Nat
  deriving DecidableEq, Repr

/-- Read an entry. -/
def State.entryAt (s : State) (b : Nat) : Entry :=
  ⟨s.cellI64 b, s.cellI64 (b + 8), s.cellI64 (b + 16), s.cellI32 (b + 24), s.cell32 (b + 28)⟩

/-- Write an entry. -/
def State.putEntry (s : State) (b : Nat) (e : Entry) : State :=
  ((((s.setCellI b 8 e.x).setCellI (b + 8) 8 e.v).setCellI (b + 16) 8 e.a).setCellI (b + 24) 4 e.t).setCell (b + 28) 4 e.flags

/-- An entry advanced by one tick with its velocity held: rules R49 and R171. -/
def Entry.extrapolate (e : Entry) : Entry :=
  { e with x := satTo 64 (e.x + rnd e.v 16), a := 0, flags := 4 ||| (e.flags &&& 8) }

/-- The plan entry of an axis in the copy of a parity. -/
def State.planEntryAt (s : State) (par a : Nat) : Nat := s.planSet par + 0x23000 + 32 * a

/-- The entry of the solution copy of a parity that its readers take for an axis, rule R173. -/
def State.solEntryAt (s : State) (par a : Nat) : Nat :=
  let b := s.solution par
  if s.cell32 b % 4 = 1 then b + 0x400 + 32 * a else b + 0x1800 + 32 * a

/-- A group is solved: SOL_CTRL.EN and SOL_GRP_g.EN in force. -/
def State.solved (s : State) (g : Nat) : Bool :=
  (s.eff Reg.SOL_CTRL).getLsbD 0 && (s.eff (Reg.SOL_GRP g)).getLsbD 0

end Sys2Proof.Machine
end

