-- ==== Sys2Proof/Machine/Eth.lean ====
section
/-! DEFINITION. The plant network ports N0 and N1: received and transmitted frames, launch times and the master-axis filters,
rules R50 to R52, R122 and R329 to R337 (spec/14_plant_host.md). -/

namespace Sys2Proof.Machine

/-- The port is powered, clocked and enabled. -/
def State.ethOn (s : State) (p : Nat) : Bool := s.clocked && s.domOn 10 && (s.eff (Reg.ETH_CTRL p)).getLsbD 0

/-- Replace what the plant unit keeps. -/
def State.setPlant (s : State) (x : Plant) : State := { s with plant := x }

/-! ### Stamps, rules R50 and R51 -/

/-- A calibration word of port i, unsigned Q16.16 ns. -/
def State.ingLat (s : State) (i : Nat) : Nat := (s.eff (Reg.QTZ_PORT i)).toNat
def State.egrLat (s : State) (i : Nat) : Nat := (s.eff (Reg.QTZ_PORT i + 4)).toNat

/-- The resolution of an Ethernet port's stamps in 0.2 ns: one in 10GBASE-R, four in 1000BASE-X and SGMII. -/
def State.ethSteps (s : State) (p : Nat) : Int := if s.effFld (Reg.ETH_CTRL p) 2 1 = 0 then 1 else 4

/-- The compensated ingress stamp of an Ethernet port, in 2^-16 ns. -/
def State.ethIngress (s : State) (p : Nat) (raw : Int) : Int :=
  stampSteps (s.ethSteps p) (raw - s.ingLat (8 + p) - (s.eff (Reg.QTZ_PORT (8 + p) + 8)).toInt)

/-- The compensated egress stamp. -/
def State.ethEgress (s : State) (p : Nat) (raw : Int) : Int := stampSteps (s.ethSteps p) (raw + s.egrLat (8 + p))

/-- The ns part of a stamp, and its 16-bit fraction. -/
def stampNs (t : Int) : Nat := wrapTo 64 (t / 65536)
def stampFrac (t : Int) : Nat := (t % 65536).toNat

/-! ### Reading a frame -/

/-- A big-endian field of n bytes. -/
def beField (f : List (BitVec 8)) (o n : Nat) : Nat := ((f.drop o).take n).foldl (fun acc b => 256 * acc + b.toNat) 0

/-- A field in the byte order of a filter. -/
def frameField (big : Bool) (f : List (BitVec 8)) (o n : Nat) : Nat :=
  let l := (f.drop o).take n
  (if big then l else l.reverse).foldl (fun acc b => 256 * acc + b.toNat) 0

/-- The frame carries one VLAN tag. -/
def tagged (f : List (BitVec 8)) : Bool := beField f 12 2 == 0x8100

/-- The offset of the first byte after the EtherType. -/
def payAt (f : List (BitVec 8)) : Nat := if tagged f then 18 else 14

/-- The EtherType. -/
def etherType (f : List (BitVec 8)) : Nat := beField f (payAt f - 2) 2

/-- UDP over IPv4: the offset of the UDP header, whatever the IPv4 options. -/
def udpAt (f : List (BitVec 8)) : Option Nat :=
  let o := payAt f
  if etherType f = 0x0800 ∧ beField f o 1 / 16 = 4 ∧ beField f (o + 9) 1 = 17 then some (o + 4 * (beField f o 1 % 16)) else none

/-- A PTP frame, rule R330. -/
def isPtp (f : List (BitVec 8)) : Bool :=
  etherType f == 0x88F7 ||
    match udpAt f with
    | some o => beField f (o + 2) 2 == 319 || beField f (o + 2) 2 == 320
    | none => false

/-- An IEEE 802.3x PAUSE frame. -/
def isPause (f : List (BitVec 8)) : Bool := etherType f == 0x8808 && beField f (payAt f) 2 == 1

/-- The receive ring of a frame, rule R330. -/
def State.rxRing (s : State) (p : Nat) (f : List (BitVec 8)) : Nat :=
  if isPtp f then 7 else if tagged f then beField f 14 2 / 8192 else s.effFld (Reg.ETH_VLAN p) 2 0

/-! ### Master-axis filters, rules R335 and R336 -/

/-- A field of filter i by its bit positions in the table of rule R348. -/
def State.mst (s : State) (p i hi lo : Nat) : Nat := s.effFld (Reg.ETH_MST p i + 4 * (lo / 32)) (hi % 32) (lo % 32)

/-- A flag of a filter. -/
def State.mstBit (s : State) (p i b : Nat) : Bool := s.mst p i b b == 1

/-- The first byte of a filter's payload where the frame carries it, before the stream is looked at. -/
def State.mstBase (s : State) (p i : Nat) (f : List (BitVec 8)) : Option Nat :=
  let et := s.mst p i 31 16
  let vlan := if s.mstBit p i 2 then tagged f && beField f 14 2 % 4096 == s.mst p i 15 4 else true
  if !s.mstBit p i 0 || !vlan then none
  else if s.mstBit p i 1 then
    let o := payAt f
    match udpAt f with
    | some u =>
      if u = o + 20 ∧ beField f (o + 6) 2 % 16384 = 0 ∧ beField f (u + 2) 2 = et then some (u + 8) else none
    | none => none
  else if etherType f = et then some (payAt f)
  else none

/-- Where the payload at `b` ends: with L4 = 1 by the UDP length, and never beyond the frame. -/
def State.mstEnd (s : State) (p i b : Nat) (f : List (BitVec 8)) : Nat :=
  if s.mstBit p i 1 then min f.length (b - 8 + beField f (b - 4) 2) else f.length

/-- Filter i matches: the base of its payload. -/
def State.mstMatch (s : State) (p i : Nat) (f : List (BitVec 8)) : Option Nat :=
  match s.mstBase p i f with
  | none => none
  | some b =>
    let so := s.mst p i 55 48
    if so = 0xFF then some b
    else if b + so + 2 ≤ s.mstEnd p i b f ∧ frameField (s.mstBit p i 56) f (b + so) 2 = s.mst p i 47 32 then some b
    else none

/-- The payload covers every configured field. -/
def State.mstCovers (s : State) (p i b : Nat) (f : List (BitVec 8)) : Bool :=
  let fits (o n : Nat) : Bool := decide (b + o + n ≤ s.mstEnd p i b f)
  (s.mstBit p i 58 || fits (s.mst p i 71 64) (if s.mstBit p i 57 then 8 else 4)) &&
    fits (s.mst p i 79 72) (if s.mstBit p i 59 then 8 else 4) &&
    (!s.mstBit p i 60 || fits (s.mst p i 87 80) (if s.mstBit p i 61 then 8 else 4)) &&
    (s.mst p i 95 88 == 0xFF || fits (s.mst p i 95 88) 2)

/-- A 32-bit time extended with the upper bits that put it nearest the ingress stamp. -/
def extendTime (t32 stamp : Nat) : Int :=
  let base : Int := (stamp / 4294967296 * 4294967296 + t32 : Nat)
  if (stamp : Int) + 2147483648 < base then base - 4294967296
  else if base + 2147483648 < stamp then base + 4294967296
  else base

/-- t_m of a sample; the compensated ingress stamp in ns. -/
def State.mstTime (s : State) (p i b : Nat) (f : List (BitVec 8)) (stamp : Nat) : Int :=
  let big := s.mstBit p i 56
  let o := b + s.mst p i 71 64
  if s.mstBit p i 58 then (stamp : Int) - (s.eff (Reg.ETH_MST p i + 20)).toInt
  else if s.mstBit p i 57 then frameField big f o 8
  else extendTime (frameField big f o 4) stamp

/-- A signed field of 32 or 64 bits. -/
def signedField (big wide : Bool) (f : List (BitVec 8)) (o : Nat) : Int :=
  if wide then signedOf 64 (frameField big f o 8) else signedOf 32 (frameField big f o 4)

/-- An exact quotient rounded half up, whatever the sign of the divisor. -/
def quotRound (n d : Int) : Int := if d < 0 then ratioRound (-n) (-d) else ratioRound n d

/-- ω_m of a sample: from its field, or from the filter's previous sample; 0 for the first one. Samples with one t_m give no
quotient: an open value (notes/assumptions/27.md). -/
def State.mstVel (s : State) (p i b : Nat) (f : List (BitVec 8)) (theta t : Int) : Int :=
  if s.mstBit p i 60 then
    fit64 (signedField (s.mstBit p i 56) (s.mstBit p i 61) f (b + s.mst p i 87 80) * (s.eff (Reg.ETH_MST p i + 16)).toInt * 65536)
  else
    match s.plant.filt.find? (fun e => e.1 == 4 * p + i) with
    | none => 0
    | some (_, th0, t0) =>
      let L : Int := (s.eff (Reg.ETH_MST p i + 28)).toNat * 65536
      let d := if 0 < L then
          let r := (theta - th0) % L
          if L < 2 * r then r - L else r
        else theta - th0
      let dt := t - t0
      if dt = 0 then (Config.quotByZero d).toInt else fit64 (quotRound (d * 65536 * s.tTick) dt)

/-- A sample reaches its channel and waits for the boundary. One with the t_m of the sample in use, or of one that waits, is a
duplicate: the sample received first, which is the one whose frame came first, is kept (rules R122 and R336). -/
def State.channelSample (s : State) (p ch : Nat) (x : MasterSample) : State :=
  if (s.prof.master ++ s.prof.newer).any (fun e => e.1 == ch && e.2.time == x.time) then s.inc (Reg.ETH_MST_DUP_CNT p)
  else { s with prof := { s.prof with newer := s.prof.newer ++ [(ch, x)] } }

/-- The sequence number of a sample: a gap counts, rule R336. -/
def State.mstSeq (s : State) (p i b : Nat) (f : List (BitVec 8)) : State :=
  let o := s.mst p i 95 88
  if o = 0xFF then s
  else
    let q := frameField (s.mstBit p i 56) f (b + o) 2
    let st := s.rdN (Reg.ETH_MST_STAT p i)
    let s1 := if st.testBit 16 ∧ q ≠ (st % 65536 + 1) % 65536 then s.inc (Reg.ETH_MST_GAP_CNT p) else s
    s1.setFld (Reg.ETH_MST_STAT p i) 15 0 q

/-- Filter i forms its sample from a matching frame, or rejects it. -/
def State.mstSample (s : State) (p i b : Nat) (f : List (BitVec 8)) (stamp : Nat) : State :=
  if !s.mstCovers p i b f then
    ((s.inc (Reg.ETH_MST_BAD_CNT p)).setBit (Reg.ETH_STAT p) 5 true).event (Page.ETH p) 2 0
  else
    let pos := signedField (s.mstBit p i 56) (s.mstBit p i 59) f (b + s.mst p i 79 72)
    let theta := satTo 64 (pos * (s.eff (Reg.ETH_MST p i + 12)).toInt)
    let t := s.mstTime p i b f stamp
    let omega := s.mstVel p i b f theta t
    let s2 := (s.mstSeq p i b f).setBit (Reg.ETH_MST_STAT p i) 16 true
    let s3 := s2.setPlant { s2.plant with filt := (4 * p + i, theta, t) :: s2.plant.filt.filter (fun e => e.1 != 4 * p + i) }
    s3.channelSample p (s.mst p i 193 192) ⟨t, theta, omega, stamp⟩

/-- Filter i becomes enabled at a boundary, `old` being the state that ends: it has formed no sample, and its channel has delivered none
unless another filter that was enabled feeds it (rules R123, R336 and R337, notes/assumptions/147.md). -/
def State.mstStart (s old : State) (p i : Nat) : State :=
  let ch := s.mst p i 193 192
  let s1 := (s.setPlant { s.plant with filt := s.plant.filt.filter (fun e => e.1 != 4 * p + i) }).setBit (Reg.ETH_MST_STAT p i) 16 false
  if (List.range 8).any (fun k => old.mstBit (k / 4) (k % 4) 0 && old.mst (k / 4) (k % 4) 193 192 == ch) then s1
  else
    { s1 with prof := { s1.prof with
        master := s1.prof.master.filter (fun e => e.1 != ch)
        newer := s1.prof.newer.filter (fun e => e.1 != ch) } }

/-- The filters that this boundary enables. -/
def State.mstStarts (s old : State) : State :=
  forUpTo (fun k t => if t.mstBit (k / 4) (k % 4) 0 && !old.mstBit (k / 4) (k % 4) 0 then t.mstStart old (k / 4) (k % 4) else t) 8 s

/-! ### Receive, rules R329, R330, R332 and R333 -/

/-- The ring block's rings. -/
def State.rxDesc (s : State) (p q h : Nat) : Nat := (s.eff (Reg.ETH_RING_BASE p)).toNat + 0x2000 * q + 32 * h
def State.txDesc (s : State) (p q h : Nat) : Nat := (s.eff (Reg.ETH_RING_BASE p)).toNat + 0x10000 + 0x2000 * q + 32 * h

/-- Write bytes of cell memory, first to last. -/
def State.storeBytes (s : State) (a : Nat) (l : List (BitVec 8)) : State :=
  forEach (fun (e : Nat × BitVec 8) st => st.storeCell (a + e.1) 1 e.2.toNat) ((List.range l.length).zip l) s

/-- A frame is placed in ring q, or dropped where the ring is full. -/
def State.rxPlace (s : State) (p q : Nat) (f : List (BitVec 8)) (t : Int) (copied : Bool) : State :=
  let h := s.fld (Reg.ETH_RXR_HEAD p q) 7 0
  if (h + 1) % 256 = s.fld (Reg.ETH_RXR_TAIL p q) 7 0 then
    ((s.inc (Reg.ETH_RX_DROP_CNT p q)).setBit (Reg.ETH_STAT p) 4 true).event (Page.ETH p) 1 0
  else
    let d := s.rxDesc p q h
    let s1 := s.storeBytes (s.cell32 d) f
    let s2 := ((((s1.storeCell (d + 4) 4 (f.length % 16384 + 65536)).storeCell (d + 8) 8 (stampNs t)).storeCell (d + 16) 4
      (stampFrac t)).storeCell (d + 20) 4 (if copied then 2 else 0)).storeCell (d + 24) 8 0
    s2.setFld (Reg.ETH_RXR_HEAD p q) 7 0 (h + 1)

/-- ETH_FRAME_RX: a frame is discarded, or stamped, filtered and placed in its ring. Its length counts the FCS. -/
def State.ethRx (s : State) (p : Nat) (x : EthFrame) : State :=
  if !s.ethOn p then s
  else if !x.fcsOk || decide (s.effFld (Reg.ETH_CTRL p) 21 8 < x.bytes.length + 4) then s.inc (Reg.ETH_RX_FCS_CNT p)
  else if isPause x.bytes then s.inc (Reg.ETH_PAUSE_CNT p)
  else
    let t := s.ethIngress p x.raw
    let hits := (List.range 4).filterMap (fun i => (s.mstMatch p i x.bytes).map (fun b => (i, b)))
    let s1 := forEach (fun (e : Nat × Nat) st => st.mstSample p e.1 e.2 x.bytes (stampNs t)) hits (s.inc (Reg.ETH_RX_CNT p))
    let copy := hits.any (fun e => s.mstBit p e.1 3)
    if hits.isEmpty || copy then s1.rxPlace p (s.rxRing p x.bytes) x.bytes t copy else s1

def execEthFrameRx (p : Fin 2) (f : EthFrame) (s : State) : Out := .next (s.ethRx p.val f)

/-- ETH_RXR_TAIL: software hands receive descriptors to the port. -/
def execEthRxrTail (ag : Agent) (p : Fin 2) (q : Fin 8) (v : Word) (s : State) : Out :=
  .next (s.swWrite ag (Page.ETH p.val) (fun t => t.wrN (Reg.ETH_RXR_TAIL p.val q.val) (v.toNat % 256)))

/-! ### Transmit, rules R52, R331 and R333 -/

/-- The head of a transmit queue. -/
def State.txHead (s : State) (p q : Nat) : Nat := s.fld (Reg.ETH_TXR_HEAD p q) 7 0

/-- A queue holds a frame. -/
def State.txWaits (s : State) (p q : Nat) : Bool := s.txHead p q != s.fld (Reg.ETH_TXR_TAIL p q) 7 0

/-- W1 of the head descriptor. -/
def State.txW1 (s : State) (p q : Nat) : Nat := s.cell32 (s.txDesc p q (s.txHead p q) + 4)

/-- The head frame has a launch time: LAUNCH = 1 in a launch queue. -/
def State.txTimed (s : State) (p q : Nat) : Bool :=
  s.txWaits p q && (s.eff (Reg.ETH_TXQ p)).getLsbD q && (s.txW1 p q).testBit 18

/-- Its launch time. -/
def State.txTime (s : State) (p q : Nat) : Nat := s.cell64 (s.txDesc p q (s.txHead p q) + 8)

/-- The port is sending the head frame of a queue, or of any queue. -/
def State.txOnWire (s : State) (p q : Nat) : Bool := s.plant.sending.contains (8 * p + q)
def State.txBusy (s : State) (p : Nat) : Bool := s.plant.sending.any (fun k => k / 8 == p)

/-- The time a byte takes on the link, in 0.1 ns, by RATE of ETH_STAT. -/
def State.byteTime (s : State) (p : Nat) : Nat := 8 * 10 ^ s.fld (Reg.ETH_STAT p) 2 1

/-- What the head frame of a queue takes on the link, in 0.1 ns: preamble, the frame padded to 64 bytes with its FCS, and the gap
(notes/assumptions/148.md). -/
def State.txTakes (s : State) (p q : Nat) : Nat := s.byteTime p * (24 + max 60 (bitsOf (s.txW1 p q) 13 0))

/-- The head frame of a queue would have left the link before every launch instant that a port waits for, rule R331. -/
def State.txClear (s : State) (p q : Nat) : Bool :=
  (List.range 8).all (fun r => !s.txTimed p r || decide (s.txTime p r < s.now) || decide (10 * s.now + s.txTakes p q ≤ 10 * s.txTime p r))

/-- The highest queue with a frame that is eligible to start: one without a launch time. -/
def State.txNext (s : State) (p : Nat) : Option Nat := (List.range 8).reverse.find? (fun q => s.txWaits p q && !s.txTimed p q)

/-- An idle port starts the frame of strict priority, or idles until a launch, rules R330 and R331. -/
def State.txStart (s : State) (p : Nat) : State :=
  if !s.ethOn p || s.txBusy p then s
  else
    match s.txNext p with
    | some q => if s.txClear p q then s.setPlant { s.plant with sending := (8 * p + q) :: s.plant.sending } else s
    | none => s

/-- The head frame completes with a status, and its descriptor returns to software. -/
def State.txReturn (s : State) (p q status : Nat) : State :=
  let d := s.txDesc p q (s.txHead p q)
  let s1 := (s.storeCell (d + 4) 4 (withBits (s.txW1 p q) 16 16 1)).storeCell (d + 28) 4 status
  (s1.setFld (Reg.ETH_TXR_HEAD p q) 7 0 (s.txHead p q + 1)).setPlant
    { s1.plant with sending := s1.plant.sending.filter (fun k => k != 8 * p + q) }

/-- A discarded frame, rule R52: status 1 where its launch time has passed, 2 where it is too far ahead. -/
def State.txLate (s : State) (p q status : Nat) : State :=
  ((s.txReturn p q status).inc (Reg.ETH_LATE_LAUNCH_CNT p)).event (Page.ETH p) 3 0

/-- A frame that reaches the head of a launch queue is judged by its launch time. -/
def State.txJudge (s : State) (p q : Nat) : State :=
  if s.txTimed p q && !s.txOnWire p q then
    if s.txTime p q < s.now then s.txLate p q 1
    else if s.now + 1000000000 < s.txTime p q then s.txLate p q 2
    else s
  else s

/-- Every frame that reaches the head after another is judged. -/
def State.txJudgeAll (s : State) (p q : Nat) : State := forUpTo (fun _ st => st.txJudge p q) 256 s

/-- A port whose ETH_CTRL changed sends nothing; the heads of its queues are judged when it is enabled, rule R52, and it starts. -/
def State.ethEnabled (s : State) (p : Nat) : State :=
  let s1 := s.setPlant { s.plant with sending := s.plant.sending.filter (fun k => k / 8 != p) }
  if s.ethOn p then (forUpTo (fun q st => st.txJudgeAll p q) 8 s1).txStart p else s1

/-- ETH_TXR_TAIL: software hands transmit descriptors to the port. -/
def State.txTail (s : State) (p q : Nat) (v : Word) : State :=
  let s1 := s.wrN (Reg.ETH_TXR_TAIL p q) (v.toNat % 256)
  if s.ethOn p then (s1.txJudgeAll p q).txStart p else s1

def execEthTxrTail (ag : Agent) (p : Fin 2) (q : Fin 8) (v : Word) (s : State) : Out :=
  .next (s.swWrite ag (Page.ETH p.val) (fun t => t.txTail p.val q.val v))

/-- LAUNCH_TIME_REACHED: device time reaches the launch time of the head frame of a launch queue and the frame leaves the ball;
where a higher launch queue holds a frame with the same launch time, that one is sent and this one is late, rule R331, and a frame whose
time has passed, or whose link is still busy, is never sent (rule R52, notes/assumptions/148.md). -/
def State.launchReached (s : State) (p q : Nat) : State :=
  if s.ethOn p && s.txTimed p q && !s.txOnWire p q then
    let t := s.txTime p q
    let beaten := (List.range 8).any (fun r => decide (q < r) && s.txTimed p r && s.txTime p r == t)
    let s1 := s.advance t
    if decide (t < s.now) || beaten || s.txBusy p then ((s1.txLate p q 1).txJudgeAll p q).txStart p
    else s1.setPlant { s1.plant with sending := (8 * p + q) :: s1.plant.sending }
  else s

def execLaunchTimeReached (p : Fin 2) (q : Fin 8) (s : State) : Out := .next (s.launchReached p.val q.val)

/-- An egress stamp goes to its descriptor, W4 to W6. -/
def State.putStamp (s : State) (d : Nat) (t : Int) : State := (s.storeCell (d + 16) 8 (stampNs t)).storeCell (d + 24) 4 (stampFrac t)

/-- The stamps a port holds go to their descriptors. -/
def State.writeStamps (s : State) (p : Nat) : State :=
  let s1 := forEach (fun (e : Nat × Nat × Int) st => if e.1 = p then st.putStamp e.2.1 e.2.2 else st) s.plant.stamps s
  s1.setPlant { s1.plant with stamps := s1.plant.stamps.filter (fun e => e.1 != p) }

/-- A port holds 64 unwritten stamps. -/
def State.stampsFull (s : State) (p : Nat) : Bool := decide (64 ≤ (s.plant.stamps.filter (fun e => e.1 == p)).length)

/-- A stamp is taken for a descriptor: it is held where cell memory does not take it yet, else it is written behind those held. -/
def State.takeStamp (s : State) (p d : Nat) (t : Int) (held : Bool) : State :=
  if held then s.setPlant { s.plant with stamps := s.plant.stamps ++ [(p, d, t)] } else (s.writeStamps p).putStamp d t

/-- ETH_TX_COMPLETE: the frame that the port is sending has been sent. With TS_REQ it gets its egress stamp, unless 64 stamps are still
unwritten; `held` says that cell memory does not take the stamp yet (rule R333, notes/assumptions/148.md). -/
def State.txComplete (s : State) (p q : Nat) (raw : Int) (held : Bool) : State :=
  let s0 := s.txStart p
  if s0.ethOn p && s0.txOnWire p q then
    let want := (s0.txW1 p q).testBit 17
    let drop := want && held && s0.stampsFull p
    let s1 := s0.when (want && !drop) (fun t => t.takeStamp p (t.txDesc p q (t.txHead p q)) (t.ethEgress p raw) held)
    let s2 := s1.when drop (fun t => (t.inc (Reg.ETH_TS_DROP_CNT p)).event (Page.ETH p) 4 0)
    ((((s2.txReturn p q (if drop then 3 else 0)).inc (Reg.ETH_TX_CNT p)).txJudgeAll p q)).txStart p
  else s0

def execEthTxComplete (p : Fin 2) (q : Fin 8) (raw : Int) (held : Bool) (s : State) : Out :=
  .next (s.txComplete p.val q.val raw held)

/-! ### The link, rule R329 -/

/-- ETH_LINK_DOWN. -/
def State.ethDown (s : State) (p : Nat) : State :=
  if s.ethOn p && s.bit (Reg.ETH_STAT p) 0 then
    (((s.setBit (Reg.ETH_STAT p) 0 false).setBit (Reg.ETH_STAT p) 3 false).inc (Reg.ETH_LINK_DOWN_CNT p)).event (Page.ETH p) 0 0
  else s

def execEthLinkDown (p : Fin 2) (s : State) : Out := .next (s.ethDown p.val)

/-- RATE of ETH_STAT by MODE: 10 Gbit/s in 10GBASE-R, 1 Gbit/s in 1000BASE-X, and in SGMII what the PHY reports of its three rates. -/
def State.ethRate (s : State) (p rate : Nat) : Nat :=
  match s.effFld (Reg.ETH_CTRL p) 2 1 with
  | 2 => max 1 rate
  | m => m

/-- Auto-negotiation is part of the mode: Clause 37 or SGMII in-band, when AN_EN = 1. -/
def State.ethNegotiates (s : State) (p : Nat) : Bool := s.effFld (Reg.ETH_CTRL p) 2 1 != 0 && (s.eff (Reg.ETH_CTRL p)).getLsbD 3

/-- ETH_LINK_UP. -/
def State.ethUp (s : State) (p rate : Nat) (anDone : Bool) : State :=
  if s.ethOn p && !s.bit (Reg.ETH_STAT p) 0 then
    (s.setFld (Reg.ETH_STAT p) 3 0 (1 + 2 * s.ethRate p rate + 8 * b2n (anDone && s.ethNegotiates p))).event (Page.ETH p) 0 0
  else s

def execEthLinkUp (p : Fin 2) (rate : Fin 4) (anDone : Bool) (s : State) : Out := .next (s.ethUp p.val rate.val anDone)

end Sys2Proof.Machine
end

