-- ==== Sys2Proof/Machine/FieldOut.lean ====
section
/-! DEFINITION. Which outputs of the field die are on, rules R318, R319, R321, R323, R324 and R366. -/

namespace Sys2Proof.Machine

/-- Flint's gate of an output is closed; outputs outside FLT_MASK have none, rule R214. -/
def State.gateClosed (s : State) (i : Nat) : Bool := !(s.eff Reg.FLT_MASK).getLsbD i || s.bit Reg.FLT_GATE i

/-- The states in which outputs follow the checked word, rule R318. -/
def State.outputsLive (s : State) : Bool :=
  match s.sys.dev with
  | .ready | .run | .degraded | .safestop => true
  | _ => false

/-- An output is commanded on: by the checked word, or by step 3 of the proof test (rule R225). -/
def State.dqCommanded (s : State) (i : Nat) : Bool := s.outputsLive && !s.field.lost && (s.field.word.getLsbD i || s.field.pulse.getLsbD i)

/-- HELD: EXTF has kept the output off, rule R323. -/
def State.dqHeld (s : State) (i : Nat) : Bool := s.bit Reg.FIO_DQ_EXTF i || s.bit Reg.FIO_DQ_EXTF (16 + i)

/-- A paralleled output is held off after a switchover, rule R366. -/
def State.parHeld (s : State) (i : Nat) : Bool := s.field.parUntil.isSome && (s.eff (Reg.FIO_DQ_CFG i)).getLsbD 5

/-- An output is on. -/
def State.dqOn (s : State) (i : Nat) : Bool :=
  s.field.vcc && s.dqCommanded i && !s.dqHeld i && !s.field.ovlOff.getLsbD i && !s.field.lpOff.getLsbD (i / 8) &&
    s.gateClosed i && !s.parHeld i

/-- The outputs of a predicate as a mask. -/
def maskOf (f : Nat → Bool) : Nat := (List.range 16).foldl (fun m i => if f i then m + 2 ^ i else m) 0

/-- The outputs follow what decides them; each switch-off is timed, and GATED shows the gates. -/
def State.refreshDq (s : State) : State :=
  let on := maskOf s.dqOn
  let gated := maskOf (fun i => s.field.vcc && s.dqCommanded i && !s.gateClosed i)
  let off := (List.range 16).filter (fun i => s.field.on.getLsbD i && !on.testBit i)
  let times := off.map (fun i => (i, (s.mono : Int))) ++ s.field.offTime.filter (fun e => !off.contains e.1)
  ({ s with field := { s.field with on := BitVec.ofNat 16 on, offTime := times } }).setFld Reg.FIO_DQ_RB 31 16 gated

end Sys2Proof.Machine
end

