-- ==== Sys2Proof/Machine/Profile.lean ====
section
/-! DEFINITION. Kinematic groups, mailbox commands, profiles, gear and cam, homing and position compares, rules R107 to R138
(spec/05_motion_profiles.md). The planning law is not stated by the spec (rule R113): the jerk of each planned tick is the open
law's, held to the bounds of rules R113 to R116 (notes/assumptions/8.md). -/

namespace Sys2Proof.Machine

/-! ### Access -/

/-- An axis beside its page. -/
def State.axis (s : State) (a : Nat) : Axis := Tab.get (fun _ => Axis.reset) s.prof.axes a

/-- Write an axis. -/
def State.setAxis (s : State) (a : Nat) (x : Axis) : State :=
  { s with prof := { s.prof with axes := Tab.set (fun _ => Axis.reset) s.prof.axes a x } }

/-- A group beside its page. -/
def State.groupRt (s : State) (g : Nat) : GroupRt := Tab.get (fun _ => GroupRt.reset) s.prof.groups g

/-- Write a group. -/
def State.setGroupRt (s : State) (g : Nat) (x : GroupRt) : State :=
  { s with prof := { s.prof with groups := Tab.set (fun _ => GroupRt.reset) s.prof.groups g x } }

/-- The axis states of PRF_STAT.STATE. -/
def axTracking : Nat := 0
def axIdle : Nat := 1
def axMoving : Nat := 2
def axJog : Nat := 3
def axStopping : Nat := 4
def axStopped : Nat := 5
def axGearSync : Nat := 6
def axGeared : Nat := 7
def axCamSync : Nat := 8
def axCammed : Nat := 9
def axHoming : Nat := 10
def axHeld : Nat := 11
def axFollow : Nat := 12
def axFault : Nat := 13

/-- PRF_STAT.STATE. -/
def State.axState (s : State) (a : Nat) : Nat := s.fld (Reg.PRF_STAT a) 3 0

/-- Write PRF_STAT.STATE. -/
def State.setAxState (s : State) (a st : Nat) : State := s.setFld (Reg.PRF_STAT a) 3 0 st

/-- The set-point, velocity, acceleration and target. -/
def State.setp (s : State) (a : Nat) : Int := s.rdI64 (Reg.PRF_SETP a)
def State.vel (s : State) (a : Nat) : Int := s.rdI64 (Reg.PRF_VEL a)
def State.acc (s : State) (a : Nat) : Int := s.rdI64 (Reg.PRF_ACC a)
def State.target (s : State) (a : Nat) : Int := s.rdI64 (Reg.PRF_TARGET a)

/-- Write set-point, velocity and acceleration. -/
def State.setPva (s : State) (a : Nat) (p v ac : Int) : State :=
  ((s.wrI64 (Reg.PRF_SETP a) p).wrI64 (Reg.PRF_VEL a) v).wrI64 (Reg.PRF_ACC a) ac

/-- Write the target. -/
def State.setTarget (s : State) (a : Nat) (t : Int) : State := s.wrI64 (Reg.PRF_TARGET a) t

/-- The limits in force, rule R111. -/
def State.limV (s : State) (a : Nat) : Int := (s.axis a).limV.getD (s.rdI64 (Reg.PRF_VMAX a))
def State.limA (s : State) (a : Nat) : Int := (s.axis a).limA.getD (s.rdI64 (Reg.PRF_AMAX a))
def State.limD (s : State) (a : Nat) : Int := (s.axis a).limD.getD (s.rdI64 (Reg.PRF_DMAX a))
def State.limJ (s : State) (a : Nat) : Int := (s.axis a).limJ.getD (s.rdI64 (Reg.PRF_JMAX a))

/-- PRF_STAT.HOMED. -/
def State.homed (s : State) (a : Nat) : Bool := s.bit (Reg.PRF_STAT a) 10

/-- An axis is engaged to the master, rule R123. -/
def State.engaged (s : State) (a : Nat) : Bool :=
  let st := s.axState a
  st == axGearSync || st == axGeared || st == axCamSync || st == axCammed

/-- A ramp runs: a and v had opposite signs at the end of the previous tick, rules R113 and R118. -/
def State.ramping (s : State) (a : Nat) : Bool := sgn (s.acc a) * sgn (s.vel a) == -1

/-- The D of the present ramp, rules R116 and R118. -/
def State.rampDec (s : State) (a : Nat) : Int :=
  if s.ramping a then (s.axis a).rampD.getD (s.limD a) else s.limD a

/-! ### One planned tick -/

/-- A set-point with its velocity and acceleration. -/
structure Pva where
  p : Int
  v : Int
  a : Int
  deriving DecidableEq, Repr

/-- One tick of the profile law with a jerk, rule R113. -/
def Pva.next (x : Pva) (j : Int) : Pva :=
  let a := x.a + j
  let v := x.v + rnd a 8
  ⟨x.p + rnd v 16, v, a⟩

/-- The present state of a plan. -/
def planStart (i : Config.PlanIn) : Pva := ⟨i.p, i.v, i.a⟩

/-- A tick from `x` to `y` keeps the limits: the jerk, A while |v| rises and D while it falls, and the velocity limit; an axis above
that limit comes down to it without passing through 0 beyond it, rules R113 and R114. -/
def planWithin (i : Config.PlanIn) (x y : Pva) : Bool :=
  decide (mag (y.a - x.a) ≤ i.jerk) &&
    decide (mag y.a ≤ if mag x.v < mag y.v then i.accel else if mag y.v < mag x.v then i.decel else max i.accel i.decel) &&
    if mag x.v ≤ i.vlim then decide (mag y.v ≤ i.vlim) else decide (mag y.v ≤ mag x.v ∧ -i.vlim ≤ sgn x.v * y.v)

/-- A tick that only takes an acceleration down by the whole jerk limit: the way back from a state outside the limits, since the
acceleration never steps, rule R116. -/
def planForced (i : Config.PlanIn) (x y : Pva) : Bool := decide (i.jerk < mag x.a ∧ y.a = x.a - sgn x.a * i.jerk)

/-- The goal is reached after `n` ticks. -/
def planReached (i : Config.PlanIn) (n : Nat) (x : Pva) : Bool :=
  match i.goal with
  | .rest p => decide (x = ⟨p, 0, 0⟩)
  | .speed v => decide (x.v = v ∧ x.a = 0)
  | .moving p v ptol vtol => decide (mag (x.p - (p + rnd v 16 * ((n : Int) - 1))) ≤ ptol ∧ mag (x.v - v) ≤ vtol)

/-- One tick of a run: whether it is admitted, and whether the state is still on its way back from outside the limits. -/
def planAllows (i : Config.PlanIn) (pre : Bool) (x y : Pva) : Bool × Bool :=
  let f := pre && planForced i x y
  (f || planWithin i x y, f)

/-- A run of jerks keeps the limits and ends at the goal; `pre` holds while the state is still on its way back from outside the
limits. -/
def planRuns (i : Config.PlanIn) : List Int → Nat → Bool → Pva → Bool
  | [], n, _, x => planReached i n x
  | j :: l, n, pre, x =>
    let y := x.next j
    let k := planAllows i pre x y
    k.1 && planRuns i l (n + 1) k.2 y

/-- The jerks within the limit. -/
def planJerks (i : Config.PlanIn) : List Int := (List.range (2 * i.jerk + 1).toNat).map (fun k => (k : Int) - i.jerk)

/-- Some run of `m` more ticks keeps the limits and ends at the goal: what the limits permit, rule R113. -/
def planFinds (i : Config.PlanIn) : Nat → Nat → Bool → Pva → Bool
  | 0, n, _, x => planReached i n x
  | m + 1, n, pre, x => (planJerks i).any (fun j =>
    let y := x.next j
    let k := planAllows i pre x y
    k.1 && planFinds i m (n + 1) k.2 y)

/-- `n` ticks are at most one more than the least number of ticks that the limits permit, rule R113. -/
def planShort (i : Config.PlanIn) (n : Nat) : Bool := !(List.range (n - 1)).any (fun m => planFinds i m 0 true (planStart i))

/-- The ticks of a run before |v| is within the velocity limit. -/
def planAbove (i : Config.PlanIn) : List Int → Pva → Nat
  | [], _ => 0
  | j :: l, x => if mag x.v ≤ i.vlim then 0 else planAbove i l (x.next j) + 1

/-- An axis above its velocity limit comes down with its deceleration limit, as in a change to that velocity, rules R114 and R116: it is
below within one tick more than the least number of ticks of that change. -/
def planSlows (i : Config.PlanIn) (l : List Int) : Bool :=
  planShort { i with goal := .speed (sgn i.v * i.vlim) } (planAbove i l (planStart i))

/-- A run is a plan within the limits: to standstill or to a velocity in at most one tick more than the least (for another goal than a
target this is DEDUCED, notes/assumptions/8.md), to a moving target in any number of ticks, rules R113, R114, R116 and R119. -/
def planFits (i : Config.PlanIn) (l : List Int) : Bool :=
  planRuns i l 0 true (planStart i) && planSlows i l && match i.goal with
  | .moving _ _ _ _ => true
  | _ => planShort i l.length

/-- The law's plan meets rules R113 to R116: a synchronised move's takes the ticks to the common arrival, which it meets under a lower
cruise velocity, rule R115. -/
def planAdmitted (i : Config.PlanIn) : Bool :=
  match i.ticks with
  | none => planFits i (Config.planLaw i)
  | some n => decide ((Config.planLaw i).length = n) &&
      (List.range (i.vlim.toNat + 1)).any (fun w => planFits { i with vlim := w } (Config.planLaw i))

/-- The jerk that brings the speed down within D and the jerk limit. -/
def planBrake (i : Config.PlanIn) : Int := clampI (-i.jerk) i.jerk (-(sgn i.v * min i.decel (mag i.v * 256)) - i.a)

/-- The state in which the law's plan ends. -/
def planFinal (i : Config.PlanIn) : Pva := (Config.planLaw i).foldl Pva.next (planStart i)

/-- A goal one tick later. -/
def goalNext : Config.Goal → Config.Goal
  | .moving p v ptol vtol => .moving (p + rnd v 16) v ptol vtol
  | g => g

/-- What the planning law sees of an axis, for a goal and limits. -/
def State.planIn (s : State) (ax : Nat) (goal : Config.Goal) (vlim A D J : Int) (ticks : Option Nat) : Config.PlanIn :=
  ⟨s.setp ax, s.vel ax, s.acc ax, goal, vlim, A, D, J, ticks⟩

/-- The ticks that the axis's plan of the last tick has left, where nothing that it rests on has changed since. -/
def State.foreseen (s : State) (ax : Nat) (i : Config.PlanIn) : Option Nat :=
  match (s.axis ax).foresees with
  | some (e, n) => if e = { i with ticks := none } then some n else none
  | none => none

/-- The law's plan is taken: it meets the rules, and where nothing has changed it is no longer than what the last tick's plan has left, so
that a move takes no tick more than it was planned with. -/
def State.planTaken (s : State) (ax : Nat) (i : Config.PlanIn) : Bool :=
  planAdmitted i && match s.foreseen ax i with
  | some n => decide ((Config.planLaw i).length ≤ n)
  | none => true

/-- The jerk of this tick: the law's, where its plan is taken; a law that gives none such is no law of rule R113, and the axis brakes. -/
def State.planJerk (s : State) (ax : Nat) (i : Config.PlanIn) : Int :=
  if s.planTaken ax i then (Config.planLaw i).headD 0 else planBrake i

/-- One tick of the profile law, rule R113. -/
def State.planTick (s : State) (ax : Nat) (i : Config.PlanIn) : State :=
  let x := (⟨s.setp ax, s.vel ax, s.acc ax⟩ : Pva).next (s.planJerk ax i)
  let e : Config.PlanIn := { i with p := x.p, v := x.v, a := x.a, goal := goalNext i.goal, ticks := none }
  (s.setAxis ax { s.axis ax with foresees := if s.planTaken ax i then some (e, (Config.planLaw i).length - 1) else none }).setPva ax x.p
    x.v x.a

/-- The plan of a stop with a D and a J, rules R119, R125 and R130. -/
def State.stopPlan (s : State) (ax : Nat) (goal : Config.Goal) (D J : Int) : Config.PlanIn :=
  s.planIn ax goal 0 (s.limA ax) D J none

/-- Where the axis would stop with D and J: its stopping point, rules R116 to R118 and R128. -/
def State.stopPoint (s : State) (ax : Nat) (D J : Int) : Int := (planFinal (s.stopPlan ax (.speed 0) D J)).p

/-- A position lies beyond another in the direction of motion. -/
def State.beyond (s : State) (ax : Nat) (p t : Int) : Bool := decide (0 < sgn (s.vel ax) * (p - t))

/-- The effective velocity limit of an axis in group g, rule R114. -/
def State.axisLimit (s : State) (g _a : Nat) (v : Int) : Int := s.effLimit g v

/-! ### Commands: conditions, rules R110 to R112 -/

/-- RESULT codes. -/
def resOk : Nat := 0
def resCode : Nat := 1
def resField : Nat := 2
def resState : Nat := 3
def resSoft : Nat := 4

/-- A field of a member record as a signed 64-bit value. -/
def fldI (b : BitVec 64) : Int := b.toInt

/-- Field Fi of a record. -/
def fieldOf (f : MemberFields) (i : Nat) : Int :=
  match i with
  | 0 => fldI f.f0
  | 1 => fldI f.f1
  | 2 => fldI f.f2
  | 3 => fldI f.f3
  | 4 => fldI f.f4
  | _ => fldI f.f5

/-- A limit field that is valid is positive and no greater than its maximum. -/
def limitOk (valid : Nat) (f : MemberFields) (i : Nat) (max : Int) : Bool :=
  !valid.testBit i || decide (0 < fieldOf f i ∧ fieldOf f i ≤ max)

/-- The limit fields F2 to F4 (A, D, J) are in range. -/
def State.adjOk (s : State) (a valid : Nat) (f : MemberFields) : Bool :=
  limitOk valid f 2 (s.rdI64 (Reg.PRF_AMAX a)) && limitOk valid f 3 (s.rdI64 (Reg.PRF_DMAX a)) &&
    limitOk valid f 4 (s.rdI64 (Reg.PRF_JMAX a))

/-- The axis state permits a command, rule R111. -/
def State.cmdState (s : State) (a code : Nat) : Bool :=
  let st := s.axState a
  if !s.running || st == axTracking || st == axHeld || st == axFault || !s.axisEn a then false
  else
    match code with
    | 0x01 | 0x02 | 0x03 => st == axIdle || st == axMoving || st == axStopping || st == axStopped || st == axJog
    | 0x04 => st != axHoming
    | 0x05 => st == axMoving || st == axJog || s.engaged a || st == axFollow
    | 0x06 => (st == axStopping || st == axStopped) && (s.axis a).kept
    | 0x07 => true
    | 0x08 => st == axIdle || st == axMoving || st == axStopped || st == axGeared
    | 0x09 => st == axIdle || st == axMoving || st == axStopped || st == axCammed
    | 0x0A => s.engaged a
    | 0x0B => st == axIdle && s.sys.dev == .run && s.fld (Reg.PRF_HOME_CFG a) 3 0 != 0
    | 0x0C => st == axIdle
    | 0x0D => st == axIdle && decide (128 ≤ a)
    | _ => false

/-- The target that a MOVE gives an axis, rule R111. -/
def State.moveTarget (s : State) (a code : Nat) (f : MemberFields) : Int :=
  if code = 0x02 then s.target a + fieldOf f 0 else fieldOf f 0

/-- The fields are present and in range, rule R111. A MOVE_REL whose sum leaves the format has no target (notes/assumptions/115.md). -/
def State.cmdFields (s : State) (a code valid : Nat) (f : MemberFields) : Bool :=
  match code with
  | 0x01 | 0x02 =>
    let t := s.moveTarget a code f
    valid.testBit 0 && decide (satTo 64 t = t) && limitOk valid f 1 (s.rdI64 (Reg.PRF_VMAX a)) && s.adjOk a valid f
  | 0x03 => valid.testBit 1 && decide (mag (fieldOf f 1) ≤ s.rdI64 (Reg.PRF_VMAX a)) && s.adjOk a valid f
  | 0x04 => (valid.testBit 1 || valid.testBit 2 || valid.testBit 3 || valid.testBit 4) &&
      limitOk valid f 1 (s.rdI64 (Reg.PRF_VMAX a)) && s.adjOk a valid f
  | 0x08 => valid.testBit 0 && valid.testBit 1 && decide (bitsOf f.f1.toNat 63 32 ≠ 0) && s.adjOk a valid f
  | 0x09 => valid.testBit 0 && s.adjOk a valid f
  | 0x0C => valid.testBit 0
  | 0x0D => decide (s.fld (Reg.PRF_STEP_CFG a) 3 0 = 8)
  | _ => true

/-! ### Gear and cam targets -/

/-- The master value and velocity that engaged members of a group follow: the virtual master while MST_LOST, rule R123. -/
def State.masterOf (s : State) (g : Nat) : Int × Int :=
  if s.bit (Reg.PRFG_STAT g) 1 then ((s.groupRt g).virtPos, (s.groupRt g).virtVel)
  else (s.rdI64 (Reg.PRFG_MST_POS g), s.rdI64 (Reg.PRFG_MST_VEL g))

/-- A master value is in effect: MST_EN and a first sample, rule R123. -/
def State.masterInEffect (s : State) (g : Nat) : Bool :=
  s.bit (Reg.PRFG_CTRL g) 4 && (s.prof.master.any (fun p => p.1 == s.fld (Reg.PRFG_CTRL g) 3 2))

/-- The slave target and velocity of a gear, rule R124. -/
def gearTarget (ofs num : Int) (den : Nat) (theta omega : Int) : Int × Int :=
  (ofs + ratioRound (num * theta) den, ratioRound (num * omega) den)

/-- Point i of a cam table at byte offset b: y in Q48.16 and m in Q32.32. -/
def State.camPoint (s : State) (b i : Nat) : Int × Int := (s.cellI64 (b + 16 * i), s.cellI64 (b + 16 * i + 8))

/-- The cam value in Q48.16 and its velocity in Q32.32 at a master value, rules R126 and R127: exact sums, rounded once.
`h` is the spacing, `n` the points, U the parameter u of 32 fraction bits. -/
def State.camTarget (s : State) (b n : Nat) (h theta omega : Int) : Int × Int :=
  let lc := h * (n - 1)
  let q := theta / lc
  let phi := theta - q * lc
  let i := (phi / h).toNat
  let U := ratioRound ((phi - i * h) * 2 ^ 32) h
  let y0P := s.camPoint b i
  let y0 := y0P.1
  let m0 := y0P.2
  let y1P := s.camPoint b (i + 1)
  let y1 := y1P.1
  let m1 := y1P.2
  let yEndP := s.camPoint b (n - 1)
  let yEnd := yEndP.1
  let yBegP := s.camPoint b 0
  let yBeg := yBegP.1
  let h00 := 2 * U ^ 3 - 3 * U ^ 2 * 2 ^ 32 + 2 ^ 96
  let h10 := U ^ 3 - 2 * U ^ 2 * 2 ^ 32 + U * 2 ^ 64
  let h01 := -2 * U ^ 3 + 3 * U ^ 2 * 2 ^ 32
  let h11 := U ^ 3 - U ^ 2 * 2 ^ 32
  let sum := (h00 * y0 + h01 * y1) * 2 ^ 32 + (h10 * m0 + h11 * m1) * h
  let d00 := 6 * U ^ 2 - 6 * U * 2 ^ 32
  let d10 := 3 * U ^ 2 - 4 * U * 2 ^ 32 + 2 ^ 64
  let d11 := 3 * U ^ 2 - 2 * U * 2 ^ 32
  let slope := (d00 * y0 - d00 * y1) * 2 ^ 32 + (d10 * m0 + d11 * m1) * h
  (ratioRound sum (2 ^ 128) + q * (yEnd - yBeg), ratioRound (slope * omega) (2 ^ 96 * h))

/-- The base of cam table t of an axis. -/
def State.camBase (s : State) (a t : Nat) : Nat := if t = 0 then s.rdN (Reg.PRF_CAM_BASE0 a) else s.rdN (Reg.PRF_CAM_BASE1 a)

/-- The table that a CAM_IN names: F1 bit 0, or the present one where F1 is not valid, rule R111. -/
def State.camTable (s : State) (a valid : Nat) (f : MemberFields) : Nat :=
  if valid.testBit 1 then bitsOf f.f1.toNat 0 0 else (s.axis a).camTab

/-- The slave target and velocity of an engaged axis in this tick. -/
def State.slaveTarget (s : State) (g a : Nat) : Int × Int :=
  let x := s.axis a
  let thP := s.masterOf g
  let th := thP.1
  let om := thP.2
  let st := s.axState a
  if st == axGearSync || st == axGeared then gearTarget x.slaveOfs x.gearNum x.gearDen th om
  else
    let cP := s.camTarget (s.camBase a x.camTab) (s.fld (Reg.PRF_CAM_CFG a) 10 0) (s.rdI64 (Reg.PRF_CAM_STEP a)) th om
    let c := cP.1
    let v := cP.2
    (x.slaveOfs + c, v)

/-! ### The remaining conditions of a command -/

/-- The position of the input that FOLLOW drives an axis to, rule R129: q in counts of 1/256 full step. -/
def State.followPos (s : State) (a : Nat) : Int :=
  let ch := s.fld (Reg.PRF_STEP_CFG a) 11 8
  let f := (s.prof.follow.find? (fun p => p.1 == ch)).map (fun p => p.2) |>.getD ⟨0, 0, 0, 1⟩
  let tb := s.rd64 Reg.QTZ_LAST_TICK
  let frac : Int := if f.gap = 0 then 256 else min 256 ((256 * ((tb : Int) - f.time)) / f.gap)
  (256 * (f.n - f.dir) + f.dir * frac) * 65536

/-- The signs of the motion that a command would give an axis, rule R133: toward its target, and with the target's velocity. -/
def State.cmdDirs (s : State) (g a code valid : Nat) (f : MemberFields) : List Int :=
  let thP := s.masterOf g
  let toward (t : Int) : Int := sgn (t - s.setp a)
  match code with
  | 0x01 | 0x02 => [toward (s.moveTarget a code f)]
  | 0x03 => [sgn (fieldOf f 1)]
  | 0x06 => [toward (s.target a)]
  | 0x08 =>
    let tP := gearTarget (fieldOf f 0) (signedOf 32 (bitsOf f.f1.toNat 31 0)) (bitsOf f.f1.toNat 63 32) thP.1 thP.2
    [toward tP.1, sgn tP.2]
  | 0x09 =>
    let cP := s.camTarget (s.camBase a (s.camTable a valid f)) (s.fld (Reg.PRF_CAM_CFG a) 10 0) (s.rdI64 (Reg.PRF_CAM_STEP a)) thP.1 thP.2
    [toward (fieldOf f 0 + cP.1), sgn cP.2]
  | 0x0D => [toward (s.followPos a)]
  | _ => []

/-- An active limit input lies in a direction, rule R133. -/
def State.limitActive (s : State) (a : Nat) (dir : Int) : Bool :=
  s.bit (Reg.PRF_CTRL a) 3 && ((decide (0 < dir) && s.homeLevel a .limp) || (decide (dir < 0) && s.homeLevel a .limn))

/-- The soft limits apply, rule R112. -/
def State.softOn (s : State) (a : Nat) : Bool := s.bit (Reg.PRF_CTRL a) 2 && s.homed a

/-- The target lies within the soft limits where they apply. -/
def State.softOk (s : State) (a : Nat) (t : Int) : Bool :=
  !s.softOn a || decide (s.rdI64 (Reg.PRF_SOFT_MIN a) ≤ t ∧ t ≤ s.rdI64 (Reg.PRF_SOFT_MAX a))

/-- The RESULT of a command for one member, the tests in rule R110's order. -/
def State.memberResult (s : State) (g a code valid : Nat) (f : MemberFields) : Nat :=
  if !s.cmdState a code then resState
  else if !s.cmdFields a code valid f then resField
  else if (s.cmdDirs g a code valid f).any (s.limitActive a) then resState
  else if (code = 0x01 ∨ code = 0x02) ∧ !s.softOk a (s.moveTarget a code f) then resSoft
  else resOk

/-- A member's field record, zero where the mailbox gives none. -/
def fieldsOf (fs : List MemberFields) (m : Nat) : MemberFields := fs.getD m ⟨0, 0, 0, 0, 0, 0⟩

/-- The first member whose test fails, with its RESULT, rule R110; a mask bit that names no member of the group fails as a
field out of range (DEDUCED, notes/assumptions/9.md). -/
def State.firstRefusal (s : State) (g code mask valid : Nat) (fs : List MemberFields) : Option (Nat × Nat) :=
  (List.range 16).findSome? (fun m =>
    if mask.testBit m then
      let r := if s.memberByte g m < 144 then s.memberResult g (s.memberByte g m) code valid (fieldsOf fs m) else resField
      if r = resOk then none else some (m, r)
    else none)

/-- The outcome of a command, rule R110: RESULT and RES_MEMBER, which is 0 where no member decides (DESIGN CHOICE,
notes/assumptions/138.md). -/
def State.cmdResult (s : State) (g code mask valid : Nat) (fs : List MemberFields) : Nat × Nat :=
  if code = 0 ∨ 0x0D < code then (resCode, 0)
  else if mask % 65536 = 0 then (resField, 0)
  else if (code = 0x08 ∨ code = 0x09) ∧ !s.masterInEffect g then (resState, 0)
  else
    match s.firstRefusal g code mask valid fs with
    | some (m, r) => (r, m)
    | none => (resOk, 0)

/-! ### Commands: effects, rules R111 to R130 -/

/-- A new D, rules R116 to R118: a running ramp keeps the old one with NO_OVERSHOOT = 1, and where the stopping point of an overshoot
would lie beyond a soft limit (LIM_KEEP); a smaller D with which the axis can no longer stop at its target makes it stop beyond it first. -/
def State.newDec (s : State) (a : Nat) (d : Int) : State :=
  let x := s.axis a
  let ramp := s.ramping a
  let old := if ramp then x.rampD.getD (s.limD a) else s.limD a
  let keep : State := s.setAxis a { x with limD := some d, rampD := some old }
  let stop := s.stopPoint a d (s.limJ a)
  let use (turn : Option Int) : State := s.setAxis a { x with limD := some d, rampD := none, turn := turn }
  if s.bit (Reg.PRF_CTRL a) 1 then if ramp then keep else use none
  else if s.axState a = axMoving ∧ d < old ∧ s.beyond a stop (s.target a) ∧ !s.beyond a (s.stopPoint a old (s.limJ a)) (s.target a) then
    if ramp && !s.softOk a stop then keep.setBit (Reg.PRF_STAT a) 5 true
    else ((((use (some stop)).setBit (Reg.PRF_STAT a) 4 true).wrI64 (Reg.PRF_OVS_DIST a) (mag (stop - s.target a))).inc
      (Reg.PRF_OVS_CNT a)).event (Page.PRF a) 0 0
  else if s.axState a = axMoving ∧ x.turn.isSome then use (some stop)
  else use none

/-- The limit fields of a command: A, D and J, and V where the command carries one. -/
def State.takeLimits (s : State) (a valid : Nat) (f : MemberFields) (withV : Bool) : State :=
  let x := s.axis a
  let s1 := s.setAxis a { x with
    limV := if withV && valid.testBit 1 then some (fieldOf f 1) else x.limV
    limA := if valid.testBit 2 then some (fieldOf f 2) else x.limA
    limJ := if valid.testBit 4 then some (fieldOf f 4) else x.limJ }
  if valid.testBit 3 then s1.newDec a (fieldOf f 3) else s1

/-- The nearest full step at or ahead of a position in a direction, rule R128: for a local axis with FULLSTEP_STOP. -/
def State.fullStep (s : State) (a : Nat) (dir t : Int) : Int :=
  let step : Int := 2 ^ (16 + s.fld (Reg.PRF_STEP_CFG a) 3 0)
  if decide (128 ≤ a) && s.bit (Reg.PRF_CTRL a) 4 then
    if 0 < dir then (t + step - 1) / step * step
    else if dir < 0 then t / step * step
    else t
  else t

/-- A generator replans on an accepted command, which alone PRF_REPLAN_CNT counts, rule R137 (DESIGN CHOICE, notes/assumptions/138.md). -/
def State.replan (s : State) (a : Nat) : State := s.inc (Reg.PRF_REPLAN_CNT a)

/-- MOVE: a new target, planned with the other members of the command where the group synchronises (rule R115); REVERSE where the target
does not lie ahead of a moving axis, or lies within its stopping distance, rule R116. -/
def State.doMove (s : State) (g a code valid : Nat) (f : MemberFields) : State :=
  let t := s.fullStep a (sgn (s.moveTarget a code f - s.setp a)) (s.moveTarget a code f)
  let s1 := (s.setTarget a t).takeLimits a valid f true
  let stop := s1.stopPoint a (s1.rampDec a) (s1.limJ a)
  let rev := s1.vel a ≠ 0 ∧ (sgn (s1.vel a) * sgn (t - s1.setp a) ≠ 1 ∨ s1.beyond a stop t)
  let s2 := s1.setAxis a { s1.axis a with
    kept := true, toIdle := false, softStop := false, stopAt := none, turn := if rev then some stop else none,
    joint := if s.bit (Reg.PRFG_CTRL g) 1 then some s.tick else none }
  ((if rev then s2.setBit (Reg.PRF_STAT a) 6 true else s2).setAxState a axMoving).replan a

/-- JOG at a signed velocity, whose magnitude stays in force as V, rule R111 (DESIGN CHOICE, notes/assumptions/138.md). -/
def State.doJog (s : State) (a valid : Nat) (f : MemberFields) : State :=
  let s1 := s.takeLimits a valid f false
  ((s1.setAxis a { s1.axis a with jogV := fieldOf f 1, limV := some (mag (fieldOf f 1)), kept := false, toIdle := false, joint := none }).setAxState a
    axJog).replan a

/-- The start of a stop: STOPPING with what is kept, rules R119 and R120. STOP and ABORT of a local axis end on a full step where
FULLSTEP_STOP asks for it, rule R128. -/
def State.beginStop (s : State) (a : Nat) (kept toIdle soft : Bool) : State :=
  let p := s.stopPoint a (s.rdI64 (Reg.PRF_STOP_DEC a)) (s.rdI64 (Reg.PRF_STOP_JERK a))
  let at' := if !soft && decide (128 ≤ a) && s.bit (Reg.PRF_CTRL a) 4 then some (s.fullStep a (sgn (s.vel a)) p) else none
  let s1 := s.setAxis a { s.axis a with kept := kept, toIdle := toIdle, softStop := soft, stopAt := at' }
  let s2 := (s1.setBit (Reg.PRF_STAT a) 11 false).setAxState a axStopping
  if kept then s2.wrI64 (Reg.PRF_REMAIN a) (s.target a - s.setp a) else s2

/-- STOP: a MOVING axis keeps its target, rules R119 and R120. -/
def State.doStop (s : State) (a : Nat) : State := s.beginStop a (s.axState a == axMoving) false false

/-- RESUME: replan to the kept target. -/
def State.doResume (s : State) (a : Nat) : State :=
  ((s.setAxis a { s.axis a with toIdle := false, softStop := false, stopAt := none }).setAxState a axMoving).replan a

/-- A homing fails, rule R130: HOME_FAULT and a stop with STOP_DEC. -/
def State.homeFail (s : State) (a code : Nat) : State :=
  (((s.setFld (Reg.PRF_STAT a) 15 12 code).setFld (Reg.PRF_STAT a) 19 16 0).event (Page.PRF a) 4 (w32 code)).beginStop a false true
    false

/-- ABORT: the target is discarded and the axis ends in IDLE; a homing ends with STOPPED. -/
def State.doAbort (s : State) (a : Nat) : State :=
  let st := s.axState a
  if st == axIdle then s
  else if st == axStopped then
    ((s.setAxis a { s.axis a with kept := false }).setTarget a (s.setp a)).setAxState a axIdle
  else if st == axHoming then s.homeFail a 4
  else s.beginStop a false true false

/-- GEAR_IN: gearing with an offset and a ratio, rule R125. -/
def State.doGear (s : State) (a valid : Nat) (f : MemberFields) : State :=
  let s1 := s.takeLimits a valid f false
  let s2 := s1.setAxis a { s1.axis a with
    slaveOfs := fieldOf f 0, gearNum := signedOf 32 (bitsOf f.f1.toNat 31 0), gearDen := bitsOf f.f1.toNat 63 32, kept := false }
  ((s2.setBit (Reg.PRF_STAT a) 11 false).setAxState a axGearSync).replan a

/-- CAM_IN: a cam table on the master; the other table of a CAMMED axis waits for the next period, rule R127. -/
def State.doCam (s : State) (a valid : Nat) (f : MemberFields) : State :=
  let s1 := s.takeLimits a valid f false
  let tab := s.camTable a valid f
  let x := s1.axis a
  if s.axState a == axCammed && tab ≠ x.camTab then s1.setAxis a { x with camNext := some (tab, fieldOf f 0) }
  else
    let s2 := s1.setAxis a { x with slaveOfs := fieldOf f 0, camTab := tab, camNext := none, kept := false, camPeriod := none }
    ((s2.setBit (Reg.PRF_STAT a) 11 false).setAxState a axCamSync).replan a

/-- The number of a homing input. -/
def homeNum : HomeInput → Nat
  | .limn => 0
  | .limp => 1
  | .home => 2

/-- The inputs that are active when a homing starts stand as accepted from the start: a window that has already ended
(notes/assumptions/116.md). -/
def State.homeActive (s : State) (a : Nat) : List HomeWindow :=
  ([HomeInput.limn, .limp].filter (fun i => s.homeLevel a i)).map (fun i => ⟨i, s.now, 1, false, some (s.measured a).1, some true⟩)

/-- HOME: the search starts with step 1 of its mode, rule R132; mode 0x3 to 0x6 start with step 2 where HOME is not
active, and mode 0xB takes the present measured position. -/
def State.doHome (s : State) (a : Nat) : State :=
  let mode := s.fld (Reg.PRF_HOME_CFG a) 3 0
  let x := s.axis a
  let seen := b2n (s.homeLevel a .limn) + 2 * b2n (s.homeLevel a .limp) + 4 * b2n (s.homeLevel a .home)
  let s1 := s.setAxis a { x with homeStart := s.setp a, homeStop := false, homeRev := 0, homeHard := 0, homeWin := s.homeActive a,
                                 homeSeen := seen, kept := false, joint := none }
  let first := if (mode == 3 || mode == 4 || mode == 5 || mode == 6) && !s.homeLevel a .home then 2 else 1
  ((s1.setFld (Reg.PRF_STAT a) 15 12 0).setFld (Reg.PRF_STAT a) 19 16 first).setAxState a axHoming

/-- SET_POS: at the next boundary the axis's frame moves so that its set-point becomes F0, with the following error
unchanged (DEDUCED from rule R130's shift, notes/assumptions/10.md). -/
def State.doSetPos (s : State) (a : Nat) (f : MemberFields) : State :=
  s.setAxis a { s.axis a with shift := some (fieldOf f 0 - s.setp a, false) }

/-- The effect of an accepted command on one member. -/
def State.doMember (s : State) (g a code valid : Nat) (f : MemberFields) : State :=
  match code with
  | 0x01 | 0x02 => s.doMove g a code valid f
  | 0x03 => s.doJog a valid f
  | 0x04 => (s.takeLimits a valid f true).replan a
  | 0x05 => s.doStop a
  | 0x06 => s.doResume a
  | 0x07 => s.doAbort a
  | 0x08 => s.doGear a valid f
  | 0x09 => s.doCam a valid f
  | 0x0A => s.beginStop a false true true
  | 0x0B => s.doHome a
  | 0x0C => s.doSetPos a f
  | 0x0D => (s.setAxis a { s.axis a with kept := false }).setAxState a axFollow
  | _ => s

/-- PRFG_MBX_STAT after a command. -/
def State.mbxResult (s : State) (g seq result member : Nat) : State :=
  s.wrN (Reg.PRFG_MBX_STAT g) (seq % 65536 + 65536 * result + 1048576 * member)

/-- The members still under way in a synchronised move of which the command names one are replanned with it, rule R115. -/
def State.joinSets (s : State) (g code mask : Nat) : State :=
  if (code = 0x01 ∨ code = 0x02) ∧ s.bit (Reg.PRFG_CTRL g) 1 then
    let olds := (s.members g).filterMap (fun p => if mask.testBit p.1 then (s.axis p.2).joint else none)
    forEach (fun p st =>
      if (s.axis p.2).joint.any olds.contains then st.setAxis p.2 { st.axis p.2 with joint := some s.tick } else st) (s.members g) s
  else s

/-- A command of group g, rule R110: a refused one changes nothing on any axis. -/
def State.groupCommand (s : State) (g code seq mask valid : Nat) (fs : List MemberFields) : State :=
  let rP := s.cmdResult g code mask valid fs
  let r := rP.1
  let m := rP.2
  if r = resOk then
    (forEach (fun p st => if mask.testBit p.1 then st.doMember g p.2 code valid (fieldsOf fs p.1) else st) (s.members g)
      (s.joinSets g code mask)).mbxResult
      g seq r m
  else
    (((s.inc (Reg.PRFG_REFUSE_CNT g)).setBit (Reg.PRFG_STAT g) 3 true).event (Page.PRFG g) 0 (w32 r)).mbxResult g seq r m

/-- A mailbox command reaches its group in the P phase: nothing happens for a group that is not enabled. -/
def State.command (s : State) (g code seq mask valid : Nat) (fs : List MemberFields) : State :=
  if s.ticking && s.groupEn g then s.groupCommand g code seq mask valid fs else s

def execMoveAbs (g : Fin 16) (seq mask : BitVec 16) (valid : BitVec 6) (fs : List MemberFields) (s : State) : Out :=
  .next (s.command g.val 0x01 seq.toNat mask.toNat valid.toNat fs)

def execMoveRel (g : Fin 16) (seq mask : BitVec 16) (valid : BitVec 6) (fs : List MemberFields) (s : State) : Out :=
  .next (s.command g.val 0x02 seq.toNat mask.toNat valid.toNat fs)

def execJog (g : Fin 16) (seq mask : BitVec 16) (valid : BitVec 6) (fs : List MemberFields) (s : State) : Out :=
  .next (s.command g.val 0x03 seq.toNat mask.toNat valid.toNat fs)

def execSetLim (g : Fin 16) (seq mask : BitVec 16) (valid : BitVec 6) (fs : List MemberFields) (s : State) : Out :=
  .next (s.command g.val 0x04 seq.toNat mask.toNat valid.toNat fs)

def execStop (g : Fin 16) (seq mask : BitVec 16) (valid : BitVec 6) (fs : List MemberFields) (s : State) : Out :=
  .next (s.command g.val 0x05 seq.toNat mask.toNat valid.toNat fs)

def execResume (g : Fin 16) (seq mask : BitVec 16) (valid : BitVec 6) (fs : List MemberFields) (s : State) : Out :=
  .next (s.command g.val 0x06 seq.toNat mask.toNat valid.toNat fs)

def execAbort (g : Fin 16) (seq mask : BitVec 16) (valid : BitVec 6) (fs : List MemberFields) (s : State) : Out :=
  .next (s.command g.val 0x07 seq.toNat mask.toNat valid.toNat fs)

def execGearIn (g : Fin 16) (seq mask : BitVec 16) (valid : BitVec 6) (fs : List MemberFields) (s : State) : Out :=
  .next (s.command g.val 0x08 seq.toNat mask.toNat valid.toNat fs)

def execCamIn (g : Fin 16) (seq mask : BitVec 16) (valid : BitVec 6) (fs : List MemberFields) (s : State) : Out :=
  .next (s.command g.val 0x09 seq.toNat mask.toNat valid.toNat fs)

def execSyncOut (g : Fin 16) (seq mask : BitVec 16) (valid : BitVec 6) (fs : List MemberFields) (s : State) : Out :=
  .next (s.command g.val 0x0A seq.toNat mask.toNat valid.toNat fs)

def execHome (g : Fin 16) (seq mask : BitVec 16) (valid : BitVec 6) (fs : List MemberFields) (s : State) : Out :=
  .next (s.command g.val 0x0B seq.toNat mask.toNat valid.toNat fs)

def execSetPos (g : Fin 16) (seq mask : BitVec 16) (valid : BitVec 6) (fs : List MemberFields) (s : State) : Out :=
  .next (s.command g.val 0x0C seq.toNat mask.toNat valid.toNat fs)

def execFollow (g : Fin 16) (seq mask : BitVec 16) (valid : BitVec 6) (fs : List MemberFields) (s : State) : Out :=
  .next (s.command g.val 0x0D seq.toNat mask.toNat valid.toNat fs)

/-! ### Mailboxes -/

/-- A member record of a mailbox at byte offset b of cell memory. -/
def State.mbxFields (s : State) (b : Nat) : MemberFields :=
  ⟨BitVec.ofNat 64 (s.cell64 b), BitVec.ofNat 64 (s.cell64 (b + 8)), BitVec.ofNat 64 (s.cell64 (b + 16)),
   BitVec.ofNat 64 (s.cell64 (b + 24)), BitVec.ofNat 64 (s.cell64 (b + 32)), BitVec.ofNat 64 (s.cell64 (b + 40))⟩

/-- MAILBOX_COMMIT: software writes the commit word, rule R16; a second commit before a cut overwrites the first and
counts. A standby's own commits are ignored and counted, rule R356. -/
def State.mailboxCommit (s : State) (g seq : Nat) : State :=
  if s.shadow then s.inc Reg.TWN_CMD_IGN_CNT else
  let s1 := s.setCell (s.rdN (Reg.PRFG_MBX g)) 4 (seq % 65536)
  let s2 := if (s.groupRt g).committed then s1.inc (Reg.PRFG_MBX_OVW_CNT g) else s1
  s2.setGroupRt g { s2.groupRt g with committed := true }

def execMailboxCommit (ag : Agent) (g : Fin 16) (seq : BitVec 16) (s : State) : Out :=
  .next (if s.clocked && bySoftware ag && s.groupEn g.val then s.mailboxCommit g.val seq.toNat else s)

/-- The cut freezes each committed mailbox into a snapshot, rules R16 and R110. -/
def State.cutMailbox (s : State) (g : Nat) : State :=
  let r := s.groupRt g
  if r.committed then
    let b := s.rdN (Reg.PRFG_MBX g)
    let cmd := s.cell32 (b + 4)
    let x : Snap := ⟨s.cell32 b % 65536, cmd % 256, cmd / 65536, s.cell32 (b + 8) % 64,
      (List.range 16).map (fun m => s.mbxFields (b + 0x40 + 48 * m))⟩
    s.setGroupRt g { r with committed := false, snap := some x }
  else s.setGroupRt g { r with snap := none }

/-- The P phase executes the snapshot of the cut. -/
def State.runSnap (s : State) (g : Nat) : State :=
  match (s.groupRt g).snap with
  | none => s
  | some x => (s.groupCommand g x.cmd x.seq x.mask x.valid x.fields).setGroupRt g
      { (s.groupCommand g x.cmd x.seq x.mask x.valid x.fields).groupRt g with snap := none }

/-! ### The master -/

/-- The master becomes stale, rule R123: MST_STALE, MST_LOST, the count, the alarm and the virtual master. -/
def State.masterLost (s : State) (g : Nat) : State :=
  let s1 := ((s.setBit (Reg.PRFG_STAT g) 0 true).setBit (Reg.PRFG_STAT g) 1 true).inc (Reg.PRFG_MST_STALE_CNT g)
  -- the virtual master starts from the value in effect in this tick (notes/assumptions/117.md)
  let s2 := if s.bit (Reg.PRFG_STAT g) 1 then s1 else
    s1.setGroupRt g { s1.groupRt g with virtPos := s.rdI64 (Reg.PRFG_MST_POS g), virtVel := s.rdI64 (Reg.PRFG_MST_VEL g) }
  s2.alarm (Page.PRFG g) 1 0

/-- The sample a group follows. -/
def State.masterSample (s : State) (g : Nat) : Option MasterSample :=
  (s.prof.master.find? (fun p => p.1 == s.fld (Reg.PRFG_CTRL g) 3 2)).map (fun p => p.2)

/-- The sample is older than PRFG_MST_AGE ticks at time t. -/
def State.masterOld (s : State) (g t : Nat) : Bool :=
  match s.masterSample g with
  | none => false
  | some m => decide ((s.fld (Reg.PRFG_MST_AGE g) 7 0 * s.tTick : Nat) + m.time < (t : Int))

/-- An older sample than the one in use is ignored, and counted by the groups that follow its channel, rule R122. -/
def State.countOld (s : State) (ch : Nat) : State :=
  forUpTo (fun g t =>
    if t.groupEn g && t.bit (Reg.PRFG_CTRL g) 4 && t.fld (Reg.PRFG_CTRL g) 3 2 == ch then t.inc (Reg.PRFG_MST_OLD_CNT g) else t) 16 s

/-- One sample received at or before the boundary: the one with the larger t_m is in use from here on. -/
def State.takeMaster (s : State) (e : Nat × MasterSample) : State :=
  match s.prof.master.find? (fun p => p.1 == e.1) with
  | none => { s with prof := { s.prof with master := e :: s.prof.master } }
  | some (_, y) =>
    let s1 := if y.time < e.2.time then { s with prof := { s.prof with master := e :: s.prof.master.filter (fun p => p.1 != e.1) } } else s
    if e.2.time < y.time then s1.countOld e.1 else s1

/-- A boundary takes into use the samples with the largest t_m among those received at or before it, rule R122; the others wait. -/
def State.takeMasters (s : State) : State :=
  let due := s.prof.newer.filter (fun e => decide (e.2.rcv ≤ s.rd64 Reg.QTZ_LAST_TICK))
  let s1 := forEach (fun e t => t.takeMaster e) due s
  { s1 with prof := { s1.prof with newer := s.prof.newer.filter (fun e => decide (s.rd64 Reg.QTZ_LAST_TICK < e.2.rcv)) } }

/-- MASTER_STALE: at this tick's boundary the sample's age has passed the limit; the P phase of the tick finds the same. -/
def State.masterStale (s : State) (g : Nat) : State :=
  if s.ticking && s.groupEn g && s.bit (Reg.PRFG_CTRL g) 4 && !s.bit (Reg.PRFG_STAT g) 0 && (s.groupRt g).lastTheta.isSome &&
      s.masterOld g (s.rd64 Reg.QTZ_LAST_TICK) then s.masterLost g
  else s

def execMasterStale (g : Fin 16) (s : State) : Out := .next (s.masterStale g.val)

/-- The virtual master advances by one tick: it decelerates at PRFG_MST_DEC, rounded half up to Q32.32, to standstill, and its position
takes the new velocity, as rule R113 does (rule R123, notes/assumptions/117.md). -/
def State.virtualTick (s : State) (g : Nat) : State :=
  let r := s.groupRt g
  let dec := rnd (s.rdI64 (Reg.PRFG_MST_DEC g)) 8
  let v := if mag r.virtVel ≤ dec then 0 else r.virtVel - sgn r.virtVel * dec
  s.setGroupRt g { r with virtPos := r.virtPos + rnd v 16, virtVel := v }

/-- The difference of two wrapped values brought into (−L/2, L/2]. -/
def unwrapDiff (L d : Int) : Int :=
  let r := d % L
  if L < 2 * r then r - L else r

/-- The master value of the tick, rule R122. A group becomes stale once, when its sample's age passes the limit, rule R123. -/
def State.masterTick (s : State) (g : Nat) : State :=
  let s0 := if s.bit (Reg.PRFG_STAT g) 1 then s.virtualTick g else s
  let r := s0.groupRt g
  if !s.bit (Reg.PRFG_CTRL g) 4 then s0.setGroupRt g { r with lastTheta := none }
  else
    match s.masterSample g with
    | none => (((s0.setGroupRt g { r with lastTheta := none }).setBit (Reg.PRFG_STAT g) 0 true).wrI64 (Reg.PRFG_MST_POS g) 0).wrI64
        (Reg.PRFG_MST_VEL g) 0
    | some m =>
      let tb := s.rd64 Reg.QTZ_LAST_TICK
      let wrapped := m.theta + ratioRound (m.omega * ((tb : Int) - m.time) * 2 ^ 16) (s.tTick * 2 ^ 32)
      let L := s.rdI64 (Reg.PRFG_MST_MOD g)
      let theta := match r.lastTheta with
        | none => wrapped
        | some w0 => if 0 < L then s.rdI64 (Reg.PRFG_MST_POS g) + unwrapDiff L (wrapped - w0) else wrapped
      let s1 := ((s0.setGroupRt g { r with lastTheta := some wrapped }).wrI64 (Reg.PRFG_MST_POS g) theta).wrI64
        (Reg.PRFG_MST_VEL g) m.omega
      let s2 := s1.wrN (Reg.PRFG_MST_AGE_NS g) (min ((tb : Int) - m.time).toNat 0xFFFFFFFF)
      if s.masterOld g tb then if s.bit (Reg.PRFG_STAT g) 0 && r.lastTheta.isSome then s2 else s2.masterLost g
      else s2.setBit (Reg.PRFG_STAT g) 0 false

/-- Members engaged to a master that is stale follow a virtual master from here on, rule R123. -/
def State.masterHold (s : State) (g : Nat) : State :=
  if s.bit (Reg.PRFG_STAT g) 0 && (s.groupRt g).lastTheta.isSome && !s.bit (Reg.PRFG_STAT g) 1 &&
      (s.members g).any (fun p => s.engaged p.2) then
    (s.setBit (Reg.PRFG_STAT g) 1 true).setGroupRt g
      { s.groupRt g with virtPos := s.rdI64 (Reg.PRFG_MST_POS g), virtVel := s.rdI64 (Reg.PRFG_MST_VEL g) }
  else s

/-! ### Homing, rules R130 to R132 -/

/-- The end of a debounce window, in ns of device time. -/
def State.homeEnd (s : State) (a : Nat) (w : HomeWindow) : Nat := w.time + 1000 * s.fld (Reg.PRF_HOME_CFG a) 31 16

/-- Windows that have ended by time t take the level that their input then has, rule R131. -/
def State.closeWindows (s : State) (a t : Nat) : State :=
  let x := s.axis a
  s.setAxis a { x with homeWin := x.homeWin.map (fun w =>
    if w.level.isNone && decide (s.homeEnd a w ≤ t) then { w with level := some (x.homeSeen.testBit (homeNum w.inp)) } else w) }

/-- A source delivers the level of a homing input at time t: an edge counts in the open window of the input, or opens one, rule R131. -/
def State.homeSample (s : State) (a : Nat) (i : HomeInput) (lvl : Bool) (t : Nat) : State :=
  if s.axState a ≠ axHoming then s
  else
    let s1 := s.closeWindows a t
    let x := s1.axis a
    let was := x.homeSeen.testBit (homeNum i)
    if was = lvl then s1
    else
      let isOpen (w : HomeWindow) : Bool := w.inp == i && w.level.isNone
      let win := if x.homeWin.any isOpen then x.homeWin.map (fun w => if isOpen w then { w with edges := w.edges + 1 } else w)
        else x.homeWin ++ [⟨i, t, 1, was, none, none⟩]
      s1.setAxis a { x with homeWin := win, homeSeen := withBits x.homeSeen (homeNum i) (homeNum i) (b2n lvl) }

/-- The source byte of a homing input. -/
def State.homeSrc (s : State) (a : Nat) (i : HomeInput) : Nat :=
  match i with
  | .limn => s.fld (Reg.PRF_CTRL a) 15 8
  | .limp => s.fld (Reg.PRF_CTRL a) 23 16
  | .home => s.fld (Reg.PRF_CTRL a) 31 24

/-- The inputs of an axis that come with its record are sampled once a tick, at its boundary; those on DI at each field sample. -/
def State.homeDrive (s : State) (a : Nat) : State :=
  forEach (fun i st => if 0x20 ≤ st.homeSrc a i % 128 then st.homeSample a i (st.homeLevel a i) (st.rd64 Reg.QTZ_LAST_TICK) else st)
    [HomeInput.limn, .limp, .home] s

/-- A field sample at time t brings the accepted levels of DI to the homing axes that use them. -/
def State.homeDi (s : State) (level : BitVec 32) (t : Nat) : State :=
  forUpTo (fun a st =>
    if st.axState a ≠ axHoming then st
    else forEach (fun i u =>
      let src := u.homeSrc a i
      if src % 128 < 0x20 then u.homeSample a i (level.getLsbD (src % 128) != decide (128 ≤ src)) t else u)
      [HomeInput.limn, .limp, .home] st) 144 s

/-- The position of a window's first edge, rule R130: the drive's own latch for an input of the drive where the record carries one, else
an interpolation between the measured positions of the two ticks around the edge (log 118). -/
def State.homePos (s : State) (a : Nat) (w : HomeWindow) : Int :=
  let T := s.tTick
  let tb := s.rd64 Reg.QTZ_LAST_TICK
  let k := s.axis a
  let xP := s.measured a
  let x1 := if xP.2.2 then xP.1 else k.xPrev + rnd k.vPrev 16
  let x0 := if k.seen then k.xPrev else x1
  let drive := 0x20 ≤ s.homeSrc a w.inp % 128 ∧ s.homeSrc a w.inp % 128 < 0x24 ∧ w.time = tb
  match s.axisIndex a with
  | some p => if drive then p else x0 + ratioRound ((x1 - x0) * ((w.time : Int) - ((tb : Int) - T))) T
  | none => x0 + ratioRound ((x1 - x0) * ((w.time : Int) - ((tb : Int) - T))) T

/-- The positions of the first edges up to this tick's boundary, and of windows that have ended, become known. -/
def State.homePlace (s : State) (a : Nat) : State :=
  let x := s.axis a
  s.setAxis a { x with homeWin := x.homeWin.map (fun w =>
    if w.pos.isNone && (w.level.isSome || decide (w.time ≤ s.rd64 Reg.QTZ_LAST_TICK)) then { w with pos := some (s.homePos a w) } else w) }

/-- HOME_DEBOUNCE_END: device time reaches the end of the open window `w`, whose input then has the level `lvl`; the window is
evaluated in the first P phase after it. -/
def State.debounceEnd (s : State) (a : Nat) (w : HomeWindow) (lvl : Bool) : State :=
  if s.axState a == axHoming && (s.axis a).homeWin.contains w && w.level.isNone && (s.axis a).homeSeen.testBit (homeNum w.inp) == lvl then
    (s.advance (s.homeEnd a w)).closeWindows a (s.homeEnd a w)
  else s

/-- The operands name the window that ends; a command that names none of those that the samples opened is no event of the block. -/
def execHomeDebounceEnd (a : Fin 144) (inp : HomeInput) (edges : Nat) (before level : Bool) (pos : Option Int) (time : Nat) (s : State) : Out :=
  .next (if s.clocked then s.debounceEnd a.val ⟨inp, time, edges, before, pos, none⟩ level else s)

/-- The home is found at H, rule R130: the shift waits for the next boundary; the axis stops with D and is IDLE with its target there (DESIGN
CHOICE, notes/assumptions/138.md). -/
def State.homeFound (s : State) (a : Nat) (H : Int) : State :=
  let sh := s.rdI64 (Reg.PRF_HOME_OFS a) - H
  let s1 := (s.wrI64 (Reg.PRF_HOME_POS a) H).wrI64 (Reg.PRF_HOME_SHIFT a) sh
  (s1.setAxis a { s1.axis a with shift := some (sh, true) }).setFld (Reg.PRF_STAT a) 19 16 0 |>.beginStop a false true true

/-- Go to a search step after its stop. -/
def State.homeStep (s : State) (a step : Nat) (stop : Bool) : State :=
  (s.setAxis a { s.axis a with homeStop := stop, homeStart := s.setp a }).setFld (Reg.PRF_STAT a) 19 16 step

/-- The sign of the mode: +1 for the modes toward positive, −1 for the mirrored ones. -/
def homeSign (mode : Nat) : Int :=
  if mode = 2 ∨ mode = 3 ∨ mode = 5 ∨ mode = 7 ∨ mode = 9 then 1 else -1

/-- The limit input that lies ahead for a sign. -/
def limitAhead (sg : Int) : HomeInput := if 0 < sg then .limp else .limn

/-- A change of input `e` to a level, accepted in a search step with the position of its first edge, rule R132's table. -/
def State.homeAccept (s : State) (a : Nat) (inp : HomeInput) (active : Bool) (pos : Int) : State :=
  let mode := s.fld (Reg.PRF_HOME_CFG a) 3 0
  let step := s.fld (Reg.PRF_STAT a) 19 16
  let sg := homeSign mode
  let rev := (s.axis a).homeRev
  match mode with
  | 1 | 2 =>
    if step = 1 ∧ inp = limitAhead sg ∧ active then s.homeStep a 2 true
    else if step = 1 ∧ inp = limitAhead (-sg) ∧ active then s.homeFail a 3
    else if step = 2 ∧ inp = limitAhead sg ∧ !active then s.homeFound a pos
    else s
  | 3 | 4 | 5 | 6 =>
    if inp = .home then
      if step = 1 ∧ !active then s.homeStep a 2 true
      else if step = 2 ∧ rev = 1 then
        if active then s.setAxis a { s.axis a with homeRev := 2 } else s
      else if step = 2 ∧ rev = 2 then
        if !active then (s.setAxis a { s.axis a with homeRev := 3 }).homeStep a 2 true else s
      else if step = 2 ∧ active then s.homeStep a 3 true
      else if step = 3 ∧ !active then if mode = 3 ∨ mode = 4 then s.homeFound a pos else s.homeStep a 4 false
      else s
    else if !active then s
    else if step = 4 ∨ inp = limitAhead (-sg) then s.homeFail a 2
    else if step = 2 then
      if rev = 0 then (s.setAxis a { s.axis a with homeRev := 1 }).homeStep a 2 true else s.homeFail a 2
    else s
  | 7 | 8 => if inp ≠ .home ∧ active then s.homeFail a 2 else s
  | 9 | 10 => if inp ≠ .home ∧ active then s.homeFail a 3 else s
  | _ => s

/-- One window that has ended: a glitch, or an accepted change, while the homing still runs, rule R131. -/
def State.homeEvent (s : State) (a : Nat) (w : HomeWindow) : State :=
  match w.level with
  | none => s
  | some l =>
    if s.axState a ≠ axHoming then s
    else if l = w.before then s.inc (Reg.PRF_GLITCH_CNT a)
    else s.homeAccept a w.inp l (w.pos.getD 0)

/-- What an event decides in a homing: the axis state, the step, whether it is in its stop, and the reversals. -/
def State.homeKey (s : State) (a : Nat) : Nat × Nat × Bool × Nat :=
  (s.axState a, s.fld (Reg.PRF_STAT a) 19 16, (s.axis a).homeStop, (s.axis a).homeRev)

/-- Ended windows in order: where a home edge and a limit edge are both accepted, the one that decides leaves the other without effect,
rule R132. `dec`: the kind that decided, true for the home switch. -/
def State.homeEvents (s : State) (a : Nat) : List HomeWindow → Option Bool → State
  | [], _ => s
  | w :: l, dec =>
    let isHome := w.inp == .home
    if w.level != some w.before && dec.any (fun d => d != isHome) then s.homeEvents a l dec
    else
      let t := s.homeEvent a w
      t.homeEvents a l (if t.homeKey a = s.homeKey a then dec else some isHome)

/-- Ended windows in the order of their first raw edges, a limit before a home switch at equal times, rule R132. -/
def insertEvent (e : HomeWindow) : List HomeWindow → List HomeWindow
  | [] => [e]
  | x :: t => if e.time < x.time ∨ (e.time = x.time ∧ e.inp ≠ .home) then e :: x :: t else x :: insertEvent e t

/-- The velocity of the present search step, with its sign; 0 in a stop. -/
def State.homeVel (s : State) (a : Nat) : Int :=
  let x := s.axis a
  let mode := s.fld (Reg.PRF_HOME_CFG a) 3 0
  let step := s.fld (Reg.PRF_STAT a) 19 16
  let sg := homeSign mode
  let vf := s.rdI64 (Reg.PRF_HOME_VF a)
  let vs := s.rdI64 (Reg.PRF_HOME_VS a)
  if x.homeStop then 0
  else
    match mode with
    | 1 | 2 => if step = 1 then sg * vf else -sg * vs
    | 3 | 4 | 5 | 6 =>
      if step = 1 then -sg * vf
      else if step = 2 then if x.homeRev = 1 ∨ x.homeRev = 2 then -sg * vf else sg * vf
      else -sg * vs
    | _ => sg * vs

/-- The immediate events of a search step: the index, the hard stop, the present position, and the travel limit. -/
def State.homeSearch (s : State) (a : Nat) : State :=
  let mode := s.fld (Reg.PRF_HOME_CFG a) 3 0
  let step := s.fld (Reg.PRF_STAT a) 19 16
  let xmP := s.measured a
  let xm := xmP.1
  let ok := xmP.2.2
  let hard := ok && decide (s.rdI64 (Reg.PRF_HOME_HS_ERR a) ≤ mag (s.setp a - xm))
  let n := if hard then (s.axis a).homeHard + 1 else 0
  let s1 := s.setAxis a { s.axis a with homeHard := n }
  if mode = 0xB then s1.homeFound a xm
  else if (mode = 9 ∨ mode = 10) ∧ 8 ≤ n then (s1.setPva a xm 0 0).homeFound a xm
  else
    let wantIndex := mode = 7 ∨ mode = 8 ∨ ((mode = 5 ∨ mode = 6) ∧ step = 4)
    match s.axisIndex a with
    | some H => if wantIndex then s1.homeFound a H
      else if s.rdI64 (Reg.PRF_HOME_TRAVEL a) ≤ mag (s.setp a - (s.axis a).homeStart) then s1.homeFail a 2 else s1
    | none =>
      if s.rdI64 (Reg.PRF_HOME_TRAVEL a) ≤ mag (s.setp a - (s.axis a).homeStart) then s1.homeFail a 2 else s1

/-- The plan of a search step: its velocity with its sign, held to the effective limit, with the axis's present A, D and J, rules R114
and R130. -/
def State.searchPlan (s : State) (g a : Nat) : Config.PlanIn :=
  let lim := s.axisLimit g a (mag (s.homeVel a))
  s.planIn a (.speed (sgn (s.homeVel a) * lim)) lim (s.limA a) (s.limD a) (s.limJ a) none

/-- One tick of homing: the windows that have ended (chatter first), then the search or the stop between steps. -/
def State.homeTick (s : State) (g a : Nat) : State :=
  let sP := ((s.homeDrive a).closeWindows a s.now).homePlace a
  let evs := (sP.axis a).homeWin.filter (fun w => w.level.isSome)
  let s0 := sP.setAxis a { sP.axis a with homeWin := (sP.axis a).homeWin.filter (fun w => w.level.isNone) }
  let limit := s.fld (Reg.PRF_HOME_CFG a) 15 8
  if evs.any (fun w => decide (limit < w.edges)) then (s0.inc (Reg.PRF_CHATTER_CNT a)).homeFail a 1
  else
    let s1 := s0.homeEvents a (evs.foldr insertEvent []) none
    if s1.axState a ≠ axHoming then s1
    else if (s1.axis a).homeStop then
      let s2 := s1.planTick a (s1.stopPlan a (.speed 0) (s1.limD a) (s1.limJ a))
      if s2.vel a = 0 ∧ s2.acc a = 0 then s2.setAxis a { s2.axis a with homeStop := false, homeStart := s2.setp a } else s2
    else
      let s2 := s1.homeSearch a
      if s2.axState a ≠ axHoming then s2 else s2.planTick a (s2.searchPlan g a)

/-! ### The states of an axis in one tick -/

/-- PRF_STAT.LOCKED. -/
def State.setLocked (s : State) (a : Nat) (b : Bool) : State := s.setBit (Reg.PRF_STAT a) 11 b

/-- A homing ended by a hold, or by the end of RUN and DEGRADED: HOME_FAULT STOPPED, rule R132. -/
def State.homeEnded (s : State) (a : Nat) : State :=
  if s.axState a = axHoming then ((s.setFld (Reg.PRF_STAT a) 15 12 4).setFld (Reg.PRF_STAT a) 19 16 0).event (Page.PRF a) 4 4 else s

/-- Tracking, rule R109. -/
def State.trackTick (s : State) (a : Nat) : State :=
  let xP := s.measured a
  let x := xP.1
  let ok := xP.2.2
  let p := if ok then x else s.setp a
  let s1 := (((s.homeEnded a).setPva a p 0 0).setTarget a p).setAxState a axTracking
  (s1.setAxis a { s1.axis a with
    kept := false, toIdle := false, softStop := false, homeStop := false, camNext := none, joint := none, stopAt := none }).setLocked a
    false

/-- The state that HELD and FAULT follow, rules R121 and R145: measured, or extrapolated where it is invalid. -/
def State.heldState (s : State) (a : Nat) : Int × Int :=
  let xP := s.measured a
  let x := xP.1
  let v := xP.2.1
  let ok := xP.2.2
  let k := s.axis a
  if ok then (x, v) else if k.seen then (k.xPrev + rnd k.vPrev 16, k.vPrev) else (x, v)

/-- HELD, rule R121: on entry the target and remaining distance are kept; a homing ends with STOPPED. -/
def State.heldTick (s : State) (g a : Nat) : State :=
  let st := s.axState a
  let s1 := if st = axHeld then s
    else
      let keep := st == axMoving || ((st == axStopping || st == axStopped) && (s.axis a).kept)
      let s2 := s.homeEnded a
      let s3 := s2.setAxis a { s2.axis a with kept := keep, toIdle := false, softStop := false, homeStop := false, stopAt := none }
      let s4 := if keep then s3.wrI64 (Reg.PRF_REMAIN a) (s.target a - s.setp a) else s3
      let s5 := if s.bit (Reg.PRFG_STAT g) 2 then s4 else (s4.setBit (Reg.PRFG_STAT g) 2 true).event (Page.PRFG g) 2 0
      (s5.setAxState a axHeld).setLocked a false
  let xP := s1.heldState a
  let x := xP.1
  let v := xP.2
  s1.setPva a x v 0

/-- FAULT, rule R147: as HELD, the target discarded, until LOOP_STAT.FE has been cleared. -/
def State.faultTick (s : State) (a : Nat) : State :=
  if s.bit (Reg.LOOP_STAT a) 11 then
    let xP := s.heldState a
    let x := xP.1
    let v := xP.2
    let s1 := s.setAxis a { s.axis a with kept := false, toIdle := false, softStop := false, homeStop := false, stopAt := none }
    (((s1.setPva a x v 0).setAxState a axFault).setLocked a false).setFld (Reg.PRF_STAT a) 19 16 0
  else ((s.setPva a (s.setp a) 0 0).setTarget a (s.setp a)).setAxState a axIdle

/-- A limit input stops an axis that moves toward it, rule R133; the soft stop of SYNC_OUT is stopped too. -/
def State.limitStop (s : State) (a : Nat) : State :=
  let st := s.axState a
  let acts := st == axMoving || st == axJog || s.engaged a || st == axFollow || (st == axStopping && (s.axis a).softStop)
  if s.limitActive a (sgn (s.vel a)) && acts then
    (((s.setBit (Reg.PRF_STAT a) 8 true).inc (Reg.PRF_LIM_CNT a)).event (Page.PRF a) 2 0).beginStop a (st == axMoving) false
      false
  else s

/-- The plan of the stop in progress: with STOP_DEC and STOP_JERK, or with D and J, to standstill or to a full step, rules R119, R125
and R128. -/
def State.stoppingPlan (s : State) (a : Nat) : Config.PlanIn :=
  let x := s.axis a
  let d := if x.softStop then s.rampDec a else s.rdI64 (Reg.PRF_STOP_DEC a)
  let j := if x.softStop then s.limJ a else s.rdI64 (Reg.PRF_STOP_JERK a)
  match x.stopAt with
  | none => s.stopPlan a (.speed 0) d j
  | some p => s.planIn a (.rest p) (s.limV a) (s.limA a) d j none

/-- A stop has ended: at standstill, on its full step where the law's plan leads there. -/
def State.stopped (s : State) (a : Nat) : Bool :=
  decide (s.vel a = 0 ∧ s.acc a = 0) && match (s.axis a).stopAt with
    | none => true
    | some p => decide (s.setp a = p) || !planAdmitted (s.stoppingPlan a)

/-- A stop in progress, rules R119 and R125. -/
def State.stoppingTick (s : State) (a : Nat) : State :=
  let x := s.axis a
  let s1 := if s.stopped a then s else s.planTick a (s.stoppingPlan a)
  let s2 := if x.kept then s1.wrI64 (Reg.PRF_REMAIN a) (s1.target a - s1.setp a) else s1
  if s2.stopped a then
    if x.toIdle then (s2.setTarget a (s2.setp a)).setAxState a axIdle else s2.setAxState a axStopped
  else s2

/-- The plan toward the moving target of a gear or cam, its velocity assumed constant, with the axis's limits, rule R125; a target that the
limits let no run meet is followed at its velocity, or at the limit (DEDUCED, notes/assumptions/8.md). -/
def State.syncPlan (s : State) (g a : Nat) (t sv : Int) : Config.PlanIn :=
  let lim := s.axisLimit g a (s.limV a)
  let i := s.planIn a (.moving t sv (s.rdI64 (Reg.PRF_LOCK_PTOL a)) (s.rdI64 (Reg.PRF_LOCK_VTOL a))) lim (s.limA a) (s.rampDec a)
    (s.limJ a) none
  if planAdmitted i then i else { i with goal := .speed (sgn sv * min (mag sv) lim) }

/-- An axis of a gear or cam in one tick, rules R125 and R127. -/
def State.slaveTick (s : State) (g a : Nat) : State :=
  let gear := s.axState a == axGearSync || s.axState a == axGeared
  let x := s.axis a
  let lc := s.rdI64 (Reg.PRF_CAM_STEP a) * ((s.fld (Reg.PRF_CAM_CFG a) 10 0 : Int) - 1)
  let q := (s.masterOf g).1 / lc
  let x1 : Axis := match x.camNext with
    | some (t, ofs) => if !gear && x.camPeriod.isSome && x.camPeriod != some q then { x with camTab := t, slaveOfs := ofs, camNext := none } else x
    | none => x
  let s1 := s.setAxis a { x1 with camPeriod := if gear then none else some q }
  let tP := s1.slaveTarget g a
  let t := tP.1
  let sv := tP.2
  let locked := s1.axState a == axGeared || s1.axState a == axCammed
  let slip := decide (s1.axisLimit g a (s1.limV a) < mag sv) || decide (s1.limA a < mag (sv - x.slaveVel) * 256)
  let s2 := s1.setAxis a { s1.axis a with slaveVel := sv }
  if locked then
    if slip then
      let s3 := (((s2.setBit (Reg.PRF_STAT a) 7 true).inc (Reg.PRF_SLIP_CNT a)).event (Page.PRF a) 1 0).setLocked a false
      (s3.setAxState a (if gear then axGearSync else axCamSync)).planTick a (s3.syncPlan g a t sv)
    else s2.setPva a t sv ((sv - s2.vel a) * 256)
  else
    let s3 := s2.planTick a (s2.syncPlan g a t sv)
    if mag (s3.setp a - t) ≤ s3.rdI64 (Reg.PRF_LOCK_PTOL a) ∧ mag (s3.vel a - sv) ≤ s3.rdI64 (Reg.PRF_LOCK_VTOL a) then
      ((s3.setPva a t sv ((sv - s2.vel a) * 256)).setAxState a (if gear then axGeared else axCammed)).setLocked a true
    else s3

/-- FOLLOW in one tick, rule R129: a change beyond the effective velocity limit is clipped. -/
def State.followTick (s : State) (g a : Nat) : State :=
  let q := s.followPos a
  let lim := s.axisLimit g a (s.limV a) / 65536
  let d := q - s.setp a
  let d' := clampI (-lim) lim d
  let s1 := if d' = d then s else (s.setBit (Reg.PRF_STAT a) 7 true).event (Page.PRF a) 1 0
  s1.setPva a (s.setp a + d') (d' * 65536) ((d' * 65536 - s.vel a) * 256)

/-- The plan of a move: to the point where the axis turns, then to its target, or to standstill under an effective limit of 0, which no
move can end under; in a turn the axis only slows down, rules R116 and R117. -/
def State.movePlan (s : State) (g a : Nat) (ticks : Option Nat) : Config.PlanIn :=
  let lim := s.axisLimit g a (s.limV a)
  let i := s.planIn a (.rest (s.target a)) lim (s.limA a) (s.rampDec a) (s.limJ a) ticks
  match (s.axis a).turn with
  | some p =>
    let t : Config.PlanIn := { i with goal := .rest p, vlim := 0, ticks := none }
    if planAdmitted t then t else { i with goal := .speed 0, vlim := 0, ticks := none }
  | none => if lim ≤ 0 then { i with goal := .speed 0, vlim := 0, ticks := none } else i

/-- The plan back from the point where the axis turns. -/
def State.returnPlan (s : State) (g a : Nat) (p : Int) : Config.PlanIn :=
  ⟨p, 0, 0, .rest (s.target a), s.axisLimit g a (s.limV a), s.limA a, s.limD a, s.limJ a, none⟩

/-- The plan of a jog: its signed velocity under the effective limit, rules R111 and R114. -/
def State.jogPlan (s : State) (g a : Nat) : Config.PlanIn :=
  let lim := s.axisLimit g a (s.limV a)
  s.planIn a (.speed (sgn (s.axis a).jogV * lim)) lim (s.limA a) (s.rampDec a) (s.limJ a) none

/-- A ramp that has ended gives up the D it kept: the new D serves every later ramp, rules R116 and R118. -/
def State.rampOver (s : State) (a : Nat) : State :=
  if s.ramping a then s else s.setAxis a { s.axis a with rampD := none }

/-- An axis that has come to standstill where it turns moves on to its target. -/
def State.turned (s : State) (a : Nat) : State :=
  if (s.axis a).turn.isSome && decide (s.vel a = 0 ∧ s.acc a = 0) then s.setAxis a { s.axis a with turn := none } else s

/-- MOVING: the move ends when p is the target and v and a are 0, rule R113. -/
def State.movingTick (s : State) (g a : Nat) : State :=
  let arrived (t : State) : Bool := decide (t.setp a = t.target a ∧ t.vel a = 0 ∧ t.acc a = 0)
  let s0 := s.turned a
  let s1 := if arrived s0 then s0 else s0.planTick a (s0.movePlan g a (s0.axis a).arrive)
  if arrived s1 then (s1.setAxis a { s1.axis a with kept := false, turn := none, joint := none }).setAxState a axIdle else s1

/-- IDLE and STOPPED: at rest, or planned back to rest after a correction of the solver. -/
def State.restTick (s : State) (a : Nat) : State :=
  if s.vel a = 0 ∧ s.acc a = 0 then s else s.planTick a (s.stopPlan a (.speed 0) (s.limD a) (s.limJ a))

/-- The tick of an axis that plans, by its state. -/
def State.plannedTick (s : State) (g a : Nat) : State :=
  let st := s.axState a
  if st = axMoving then s.movingTick g a
  else if st = axJog then s.planTick a (s.jogPlan g a)
  else if st = axStopping then s.stoppingTick a
  else if s.engaged a then s.slaveTick g a
  else if st = axHoming then s.homeTick g a
  else if st = axFollow then s.followTick g a
  else s.restTick a

/-- The present state of a generator of a solved group that planned in tick k−1: its entry of that tick, in the frame of this one, rules
R130 and R173. -/
def State.feedBack (s : State) (g a : Nat) : State :=
  if s.solved g && !s.sol.noPrev && (s.axis a).planned then
    let e := s.entryAt (s.solEntryAt (1 - s.parity) a)
    s.setPva a (e.x + (s.axis a).moved) e.v e.a
  else s

/-- The release of a group: STOPPED, or IDLE where nothing was kept, from standstill, rule R121. -/
def State.releaseTick (s : State) (a : Nat) : State :=
  let s1 := s.setPva a (s.setp a) 0 0
  if (s.axis a).kept then s1.setAxState a axStopped else (s1.setTarget a (s.setp a)).setAxState a axIdle

/-- The state in which an axis of group `g` enters a P phase: tracking, FAULT, HELD, or released from them, rules R109, R121 and
R147. -/
def State.enterTick (s : State) (g a : Nat) : State :=
  if !s.running || !s.axisEn a then s.trackTick a
  else if s.bit (Reg.LOOP_STAT a) 11 || s.axState a = axFault then s.faultTick a
  else if s.grpState g ≠ 0 then s.heldTick g a
  else if s.axState a = axHeld then s.releaseTick a
  else if s.axState a = axTracking then (s.setTarget a (s.setp a)).setAxState a axIdle
  else s

/-- An axis plans in this tick: enabled and not tracking, HELD or in FAULT. -/
def State.plans (s : State) (a : Nat) : Bool :=
  s.axisEn a && s.axState a ≠ axTracking && s.axState a ≠ axHeld && s.axState a ≠ axFault

/-- The profile generator of axis `a` in group `g` in one P phase, after the state in which it enters is known, rules R109 to R133. -/
def State.axisTick (s : State) (g a : Nat) : State :=
  let go := s.plans a
  let s0 := s.setAxis a { s.axis a with planned := go }
  if go then ((s0.rampOver a).limitStop a).plannedTick g a else s0.setAxis a { s0.axis a with foresees := none }

/-- The members of a group that are under way in the synchronised move `k`, rule R115. -/
def State.jointMembers (s : State) (g k : Nat) : List Nat :=
  ((s.members g).map (fun p => p.2)).filter (fun a => (s.axis a).joint = some k && s.axState a == axMoving)

/-- The ticks to a member's own arrival: those that its plan has left, or those of a new plan, and those of the way back where it turns. -/
def State.ticksLeft (s : State) (g a : Nat) : Nat :=
  let n (i : Config.PlanIn) : Nat := if planAdmitted i then (Config.planLaw i).length else 0
  let i := s.movePlan g a none
  (s.foreseen a i).getD (n i) + match (s.axis a).turn with
  | some p => n (s.returnPlan g a p)
  | none => 0

/-- The ticks to the common arrival: those of the slowest member. Where nothing has changed since the last tick, all keep the arrival that
they were planned to; a replan of one of them replans all, rule R115. -/
def State.jointTicks (s : State) (g k : Nat) : Nat :=
  let l := s.jointMembers g k
  let still := l.all (fun a => (s.foreseen a (s.movePlan g a none)).isSome)
  let fresh (t : State) : State := forEach (fun a u => u.setAxis a { u.axis a with foresees := none }) l t
  (l.map (fun a => (if still then s else fresh s).ticksLeft g a)).foldl max 0

/-- Every member of a synchronised move takes the common arrival of this tick. -/
def State.setArrivals (s : State) (g : Nat) : State :=
  forEach (fun p st => st.setAxis p.2 { st.axis p.2 with arrive := (s.axis p.2).joint.map (fun k => s.jointTicks g k) }) (s.members g) s

/-- What HELD, FAULT and the compares need of this tick's measured state; after an invalid one x(k-1) is the extrapolated position, rule
R134 (DESIGN CHOICE, notes/assumptions/138.md). -/
def State.rememberMeasured (s : State) (a : Nat) : State :=
  let xP := s.measured a
  let x := xP.1
  let v := xP.2.1
  let ok := xP.2.2
  let k := s.axis a
  if ok then s.setAxis a { k with xPrev := x, vPrev := v, seen := true }
  else if k.seen then s.setAxis a { k with xPrev := k.xPrev + rnd k.vPrev 16 } else s

/-! ### Compares, rules R134 to R136 -/

/-- CMP_ARM: the settings are written, and the arming takes effect at the next cut. -/
def State.cmpArm (s : State) (a c : Nat) (v : Word) : State :=
  (s.wr (Reg.CMP_CTRL a c) ((v &&& 0x03FFFFFC) ||| (s.rd (Reg.CMP_CTRL a c) &&& 1))).setAxis a { s.axis a with
    rearm := (s.axis a).rearm ||| (1 <<< c), unarm := withBits (s.axis a).unarm c c 0 }

/-- CMP_DISARM: it takes effect at the next cut, and wins over an ARM of the same write. -/
def State.cmpDisarm (s : State) (a c : Nat) (v : Word) : State :=
  (s.wr (Reg.CMP_CTRL a c) ((v &&& 0x03FFFFFC) ||| (s.rd (Reg.CMP_CTRL a c) &&& 1))).setAxis a { s.axis a with
    unarm := (s.axis a).unarm ||| (1 <<< c) }

def execCmpArm (ag : Agent) (a : Fin 144) (c : Fin 4) (v : Word) (s : State) : Out :=
  .next (s.swWrite ag (Page.PRF a.val) (fun t => t.cmpArm a.val c.val v))

def execCmpDisarm (ag : Agent) (a : Fin 144) (c : Fin 4) (v : Word) (s : State) : Out :=
  .next (s.swWrite ag (Page.PRF a.val) (fun t => t.cmpDisarm a.val c.val v))

/-- CMP_STAT.ARMED, and CMP_CTRL.ARM, which reads as armed, rule R137. -/
def State.setArmed (s : State) (a c : Nat) (b : Bool) : State := (s.setBit (Reg.CMP_STAT a) c b).setBit (Reg.CMP_CTRL a c) 0 b

/-- A compare is disarmed. -/
def State.disarm (s : State) (a c : Nat) : State :=
  (s.setAxis a { s.axis a with
    cmp := Tab.erase c (s.axis a).cmp, rearm := withBits (s.axis a).rearm c c 0, unarm := withBits (s.axis a).unarm c c 0 }).setArmed a c
    false

/-- The conditions of an arm, rule R136: a direction that exists, the task's PHASE for a flag, and an output that is
compare-driven and below DQ12. -/
def State.armOk (s : State) (ctrl : Nat) : Bool :=
  let action := bitsOf ctrl 7 6
  let dq := bitsOf ctrl 25 22
  bitsOf ctrl 3 2 ≠ 3 &&
    (action ≠ 1 || s.taskPhase (bitsOf ctrl 21 13) == 7) &&
    (action < 2 || (decide (dq < 12) && s.fld (Reg.FIO_DQ_CFG dq) 1 0 == 1))

/-- The cut takes a compare's request with the settings of its registers, rules R134 to R136; a refused arm changes nothing else. -/
def State.cutCompare (s : State) (a c : Nat) : State :=
  let ctrl := s.rdN (Reg.CMP_CTRL a c)
  if (s.axis a).unarm.testBit c then s.disarm a c
  else if (s.axis a).rearm.testBit c then
    let s0 := s.setAxis a { s.axis a with rearm := withBits (s.axis a).rearm c c 0 }
    if s0.armOk ctrl then
      let x := s0.axis a
      (s0.setAxis a { x with
        cmp := Tab.insert c ⟨s.rdI64 (Reg.PRF_CMP_POS a c), ctrl, s.rdI64 (Reg.PRF_CMP_STEP a c), 0, true⟩ (Tab.erase c x.cmp) }).setArmed
        a c true
    else s0.setBit (Reg.CMP_STAT a) (16 + c) true
  else s

/-- A compare of settings `ctrl` fires n times, the last crossing at time t, rule R134. -/
def State.fire (s : State) (a c ctrl n t : Nat) : State :=
  let s1 := (((s.setBit (Reg.CMP_STAT a) (4 + c) true).wr64 (Reg.CMP_FIRE_TIME a c) t).add (Reg.CMP_FIRE_CNT a c) n).event
    (Page.PRF a) 5 0
  let x := s1.axis a
  let again := x.acts.any (fun q => q.1 == c)
  let s2 := if again then s1 else s1.setAxis a { x with acts := x.acts ++ [(c, ctrl)] }
  if again || decide (1 < n) then s2.setBit (Reg.CMP_STAT a) (12 + c) true else s2

/-- The crossings of a compare between x0 and x1: their number and the position of the last. -/
def crossings (k : CmpSet) (x0 x1 : Int) : Nat × Int × Int :=
  let step := k.step
  let dir := bitsOf k.ctrl 3 2
  let up := decide (x0 < k.pos ∧ k.pos ≤ x1) && (dir == 1 || (dir == 0 && k.side ≠ 1))
  let down := decide (k.pos ≤ x0 - 1 ∧ x1 ≤ k.pos) && (dir == 2 || (dir == 0 && k.side ≠ -1))
  let periodic := k.ctrl.testBit 5 && decide (0 < step)
  if up then
    let n := if periodic then (x1 - k.pos) / step else 0
    (n.toNat + 1, k.pos + n * step, 1)
  else if down then
    let n := if periodic then (k.pos - x1) / step else 0
    (n.toNat + 1, k.pos - n * step, -1)
  else (0, 0, 0)

/-- A one-shot compare disarms itself; a request made since the cut stands for the next one, rule R134. -/
def State.selfDisarm (s : State) (a c : Nat) : State :=
  (s.setAxis a { s.axis a with cmp := Tab.erase c (s.axis a).cmp }).setArmed a c false

/-- After a fire: a one-shot compare disarms, a periodic one moves its position in the direction of travel, in its register too unless
software has written that for a new arming. -/
def State.afterFire (s : State) (a c : Nat) (k : CmpSet) (last dir : Int) : State :=
  if k.ctrl.testBit 5 then
    let x := s.axis a
    let k' : CmpSet := { k with pos := last + dir * k.step, side := -dir, fresh := false }
    let s1 := s.setAxis a { x with cmp := Tab.insert c k' (Tab.erase c x.cmp) }
    if x.rearm.testBit c then s1 else s1.wrI64 (Reg.PRF_CMP_POS a c) k'.pos
  else s.selfDisarm a c

/-- The crossings of every armed compare of an axis between two positions and times. -/
def State.compareSpan (s : State) (a : Nat) (x0 x1 : Int) (t0 t1 : Nat) : State :=
  forUpTo (fun c st =>
    match (st.axis a).cmp.find? (fun p => p.1 == c) with
    | none => st
    | some (_, k) =>
      if k.fresh then st
      else
        let nP := crossings k x0 x1
        let n := nP.1
        let last := nP.2.1
        let dir := nP.2.2
        if n = 0 then st
        else
          let t := (t0 : Int) + ratioRound ((last - x0) * ((t1 : Int) - t0)) (x1 - x0)
          (st.fire a c k.ctrl n t.toNat).afterFire a c k last dir) 4 s

/-- The judgement of rule R135 in the tick in which an arming takes effect: for a local axis when its position is latched, so that every
later count is judged. -/
def State.judgeArmed (s : State) (a c : Nat) (x : Int) : State :=
  match (s.axis a).cmp.find? (fun p => p.1 == c) with
  | none => s
  | some (_, k) =>
    if !k.fresh then s
    else
      let dir := bitsOf k.ctrl 3 2
      let behind := if dir = 1 then decide (k.pos ≤ x) else if dir = 2 then decide (x ≤ k.pos) else decide (x = k.pos)
      let y := s.axis a
      let s1 := s.setAxis a { y with cmp := Tab.insert c { k with fresh := false, side := sgn (x - k.pos) } (Tab.erase c y.cmp) }
      if !behind then s1
      else if k.ctrl.testBit 4 then (s1.fire a c k.ctrl 1 (s.rd64 Reg.QTZ_LAST_TICK)).afterFire a c k k.pos (if dir = 2 then -1 else 1)
      else (s1.setBit (Reg.CMP_STAT a) (8 + c) true).event (Page.PRF a) 6 0

/-- The action of a compare that fired under settings `ctrl`, rule R136. A pulse and a toggle of one output act on different
latches (rule R317), so that their order leaves no trace. -/
def State.cmpAction (s : State) (ctrl : Nat) : State :=
  let dq := bitsOf ctrl 25 22
  match bitsOf ctrl 7 6 with
  | 1 => s.sendFlag none (bitsOf ctrl 21 13) (bitsOf ctrl 12 8)
  | 2 => { s with prof := { s.prof with dqPulse := s.prof.dqPulse ||| (1#16 <<< dq) } }
  | 3 => { s with prof := { s.prof with dqToggle := s.prof.dqToggle ^^^ (1#16 <<< dq) } }
  | _ => s

/-- The compares of an axis in the P phase: crossings between consecutive valid measured positions (ring axes; those of a
local axis are judged at each count), armings not yet judged at the latch of a local axis, and the actions in the order CMP0 to
CMP3. -/
def State.compareTick (s : State) (a : Nat) : State :=
  let xP := s.measured a
  let x := xP.1
  let ok := xP.2.2
  let tb := s.rd64 Reg.QTZ_LAST_TICK
  let s1 := if ok && (s.axis a).seen && decide (a < 128) then s.compareSpan a (s.axis a).xPrev x (tb - s.tTick) tb else s
  let s2 := if ok then forUpTo (fun c st => st.judgeArmed a c x) 4 s1 else s1
  let acts := (s2.axis a).acts
  let s3 := forUpTo (fun c st => ((acts.find? (fun q => q.1 == c)).map (fun q => st.cmpAction q.2)).getD st) 4 s2
  s3.setAxis a { s3.axis a with acts := [] }

/-- The home offset of an axis: FBK_HOFS of a ring axis, LAX_POS_OFS of a local axis, rules R293 and R304. -/
def homeOfs (a : Nat) : Nat := if a < 128 then Reg.FBK_HOFS a else Reg.LAX_POS_OFS (a - 128)

/-- The x_m that both copies of the loop state hold of an axis moves with its frame, rules R130 and R144. -/
def State.shiftLoop (s : State) (a : Nat) (d : Int) : State :=
  forUpTo (fun p t =>
    let b := t.rdN Reg.SYS_LOOPST_BASE + 512 * a + 256 * p + 120
    t.setCellI b 8 (satTo 64 (t.cellI64 b + d))) 2 s

/-- The frame of an axis moves at a boundary, rule R130: set-point, target and measured position move by the shift, HOMED
is set by a homing, and every compare of the axis is disarmed. -/
def State.applyShift (s : State) (a : Nat) : State :=
  match (s.axis a).shift with
  | none => if (s.axis a).moved = 0 then s else s.setAxis a { s.axis a with moved := 0 }
  | some (d, homing) =>
    let x := s.axis a
    let s1 := s.setAxis a { x with shift := none, moved := d, xPrev := x.xPrev + d }
    let ofs := homeOfs a
    let s2 := (((s1.wrI64 (Reg.PRF_SETP a) (s.setp a + d)).setTarget a (s.target a + d)).wrI64 ofs (s.rdI64 ofs + d)).shiftLoop a d
    if homing then
      forUpTo (fun c st => st.disarm a c) 4 ((s2.setBit (Reg.PRF_STAT a) 10 true).event (Page.PRF a) 3 0)
    else s2

/-! ### The plan set, rules R156 to R158 and R468 -/

/-- A value of f fraction bits in a format of F, rounded half up and held to 32 bits. -/
def toFormat (x : Int) (f F : Nat) : Int := satTo 32 (if F < f then rnd x (f - F) else x * 2 ^ (F - f))

/-- The fraction bits of an object, rule R159's table. -/
def State.fracOf (s : State) (obj : Nat) : Nat :=
  s.effFld (Reg.SOL_QF (obj / 4)) (8 * (obj % 4) + 4) (8 * (obj % 4))

/-- The global index of the first variable of a solved group, rule R155. -/
def State.varOfs (s : State) (g : Nat) : Nat :=
  ((List.range g).map (fun h => if s.solved h then s.effFld (Reg.SOL_GRP h) 8 4 else 0)).sum

/-- A member takes part in its group's problem: it plans and its plan entry is valid, rule R468. -/
def State.solves (s : State) (g a : Nat) : Bool := s.plans a && !(s.planBad s.parity).getLsbD g

/-- Write a row of the input area: its coefficient of variable j, and its bounds; both infinite where there are none. -/
def State.putRow (s : State) (b r j : Nat) (bounds : Option (Int × Int)) : State :=
  let s1 := (s.clearCell (b + 0x900 + 64 * r) 64).setCellI (b + 0x900 + 64 * r + 4 * j) 4 (satTo 32 (2 ^ s.fracOf 2))
  match bounds with
  | some (l, u) => (s1.setCellI (b + 0x1100 + 4 * r) 4 l).setCellI (b + 0x1180 + 4 * r) 4 u
  | none => (s1.setCell (b + 0x1100 + 4 * r) 4 0x80000000).setCell (b + 0x1180 + 4 * r) 4 0x7FFFFFFF

/-- The rows of one member: ACC, VEL and SOFT by SOL_BLD_g, bounds shifted by the member's present state (x0, v0). -/
def State.memberRows (s : State) (g b cnt j a : Nat) (x0 v0 : Int) : State :=
  let bld := (s.eff (Reg.SOL_BLD g)).toNat
  let F := s.fracOf 4
  let go := s.solves g a
  let k0 := b2n (bld.testBit 0)
  let k1 := k0 + b2n (bld.testBit 1)
  let lim := s.effLimit g (s.limV a)
  let s1 := if bld.testBit 0 then
      s.putRow b j j (if go then some (toFormat (-(s.limD a)) 40 F, toFormat (s.limA a) 40 F) else none) else s
  let s2 := if bld.testBit 1 then
      s1.putRow b (k0 * cnt + j) j (if go then some (toFormat (-lim - v0) 32 F, toFormat (lim - v0) 32 F) else none) else s1
  let soft := go && s.softOn a
  let base := x0 * 65536 + v0
  if bld.testBit 2 then
    s2.putRow b (k1 * cnt + j) j (if soft then
      some (toFormat (s.rdI64 (Reg.PRF_SOFT_MIN a) * 65536 - base) 32 F, toFormat (s.rdI64 (Reg.PRF_SOFT_MAX a) * 65536 - base) 32 F)
      else none)
  else s2

/-- A word of the firmware image's models, which the spec does not give (notes/assumptions/11.md): an open function of what it is
formed from. -/
def modelW (kind g i : Nat) (on : List Int) : Nat := (Config.modelWord kind g i on).toNat

/-- n such words from b up. -/
def State.modelWords (s : State) (b n kind g : Nat) (on : List Int) : State :=
  forUpTo (fun i st => st.setCell (b + 4 * i) 4 (modelW kind g i on)) n s

/-- The states in which axes enter the tick, as the models see them. -/
def State.seenBy (_ : State) (pres : List (Nat × Int × Int)) : List Int := pres.flatMap (fun q => [(q.1 : Int), q.2.1, q.2.2])

/-- V_ALLOW_g of the limit set in use as an exact fraction, halved after an S overrun, rules R49 and R189; none: 0. -/
def State.vAllowOf (s : State) (g : Nat) : List Int :=
  match s.limWord g 4 with
  | none => [0, 1]
  | some (w, h) => [(w : Int), if h then 2 else 1]

/-- The TOOL row of a group, rule R468: the group model's, with bounds from V_ALLOW_g; 0 for a member that does not plan. -/
def State.putTool (s : State) (g b r nv : Nat) (on : List Int) : State :=
  let lim := s.vAllowOf g ++ on
  let t := ((s.modelWords (b + 0x900 + 64 * r) nv 0 g on).setCell (b + 0x1100 + 4 * r) 4 (modelW 1 g 0 lim)).setCell
    (b + 0x1180 + 4 * r) 4 (modelW 2 g 0 lim)
  forEach (fun p st => if s.solves g p.2 then st else st.setCell (b + 0x900 + 64 * r + 4 * p.1) 4 0) (s.members g) t

/-- The block of one solved group in the input area, rules R157, R158 and R468. `pres` gives each axis's state on entry. -/
def State.putGroup (s : State) (g : Nat) (pres : List (Nat × Int × Int)) : State :=
  let b := s.planSet s.parity + 0x2000 * g
  let nv := s.effFld (Reg.SOL_GRP g) 8 4
  let ofs := s.varOfs g
  let mem := s.members g
  let cnt := mem.length
  let wt (j : Nat) : Int := (s.eff (Reg.SOL_WT (ofs + j))).toInt
  let s1 := forUpTo (fun j st => ((st.clearCell (b + 64 * j) 64).setCellI (b + 64 * j + 4 * j) 4 (wt j)).setCell (b + 0x400 + 4 * j) 4 0
    |>.setCell (b + 0x440 + 4 * j) 4 0) nv s
  let s2 := forEach (fun p st =>
    let a := p.2
    let acc := if st.solves g a then st.acc a else 0
    let z := toFormat acc 40 (st.fracOf 6)
    let f := toFormat (-(wt p.1 * z)) (st.fracOf 0 + st.fracOf 6) (st.fracOf 1)
    ((st.setCellI (b + 0x440 + 4 * p.1) 4 z).setCellI (b + 0x400 + 4 * p.1) 4 f)) mem s1
  let s3 := forEach (fun p st =>
    let x0P := ((pres.find? (fun q => q.1 == p.2)).map (fun q => q.2)).getD (0, 0)
    let x0 := x0P.1
    let v0 := x0P.2
    st.memberRows g b cnt p.1 p.2 x0 v0) mem s2
  let bld := (s.eff (Reg.SOL_BLD g)).toNat
  let nr := s.effFld (Reg.SOL_GRP g) 15 10
  let on := s.seenBy pres
  let s4 := if bld.testBit 3 then s3.putTool g b (nr - 1) nv on else s3
  if s.effFld (Reg.SOL_GRP g) 1 1 = 1 then (s4.modelWords (b + 0x480) cnt 3 g on).modelWords (b + 0x500) (16 * cnt) 4 g on else s4

/-- The coupling rows of the input area, rule R157: linearised by the firmware image from the coupling entry of the limit set and the
states of the two groups, so open; each is one-sided, kept at or above its lower bound. -/
def State.putCoupling (s : State) : State :=
  let b := s.planSet s.parity
  forUpTo (fun r st =>
    if (st.eff (Reg.SOL_CPL r)).getLsbD 0 then
      let e := match st.limUse with
        | none => []
        | some (l, _) => (List.range 8).map (fun i => st.cellI32 (l + 0x110 + 32 * r + 4 * i))
      let side (g : Nat) : List Int := (st.members g).flatMap (fun p =>
        [st.cellI64 (b + 0x22000 + 16 * p.2), st.cellI64 (b + 0x22000 + 16 * p.2 + 8)])
      let on := e ++ side (st.effFld (Reg.SOL_CPL r) 7 4) ++ side (st.effFld (Reg.SOL_CPL r) 11 8)
      ((st.modelWords (b + 0x20000 + 0x80 * r) 32 5 r on).setCell (b + 0x21800 + 4 * r) 4 (modelW 6 r 0 on)).setCell
        (b + 0x218C0 + 4 * r) 4 0x7FFFFFFF
    else st) 48 s

/-- The plan entry of an axis and the state from which it entered the tick, rule R158. -/
def State.putPlan (s : State) (a : Nat) (x0 v0 : Int) : State :=
  let b := s.planSet s.parity + 0x22000 + 16 * a
  ((s.putEntry (s.planEntryAt s.parity a) ⟨s.setp a, s.vel a, s.acc a, 0, 0⟩).setCellI b 8 x0).setCellI (b + 8) 8 v0

/-! ### The P phase -/

/-- Whether this tick is one of a search step of homing modes 0x9 and 0xA, rule R148: judged when the P phase starts, and again after the
commands. -/
def State.markHard (s : State) (a : Nat) (again : Bool) : State :=
  let m := s.fld (Reg.PRF_HOME_CFG a) 3 0
  let hard := s.axState a == axHoming && (m == 9 || m == 10)
  s.setAxis a { s.axis a with hardSeek := hard || (again && (s.axis a).hardSeek) }

/-- The P phase of one group: master, the solver's correction, the snapshot's command, its generators, and its part of the plan set. The
command comes before the axes leave STOPPED_T for the tick, rule R109 (DESIGN CHOICE, notes/assumptions/138.md). -/
def State.groupTick (s : State) (g : Nat) : State :=
  let mem := s.members g
  let s0 := forEach (fun p st => (st.feedBack g p.2).markHard p.2 false) mem (s.masterTick g)
  let s1 := forEach (fun p st => st.markHard p.2 true) mem ((s0.runSnap g).masterHold g)
  let s2 := forEach (fun p st => st.enterTick g p.2) mem s1
  let entry := mem.map (fun p => (p.2, s2.setp p.2, s2.vel p.2))
  let s3 := forEach (fun p st => st.axisTick g p.2) mem (s2.setArrivals g)
  let s4 := forEach (fun (p : Nat × Int × Int) st => st.putPlan p.1 p.2.1 p.2.2) entry s3
  let s5 := if mem.any (fun p => s4.axState p.2 == axHeld) then s4 else s4.setBit (Reg.PRFG_STAT g) 2 false
  if s.solved g then s5.putGroup g entry else s5

/-- The work of the P phase, rules R107 to R136 and R157: every enabled group, the axes of no group (which track), and the
compares. -/
def State.profilePhase (s : State) : State :=
  let s1 := forEach (fun g st => st.groupTick g) s.groups s
  let loose := (List.range 144).filter (fun a => (s.groupOf a).isNone)
  let s2 := forEach (fun a st => (st.trackTick a).setAxis a { (st.trackTick a).axis a with planned := false }) loose s1
  let s3 := forUpTo (fun a st => (st.compareTick a).rememberMeasured a) 144 s2
  if (s.eff Reg.SOL_CTRL).getLsbD 0 then s3.putCoupling else s3

/-- Every entry to SELFTEST returns the limits of every axis to its maximum registers and leaves no master sample, rules R111 and
R123. -/
def State.resetLimits (s : State) : State :=
  { s with prof := { s.prof with
    axes := s.prof.axes.map (fun p => (p.1, { p.2 with limV := none, limA := none, limD := none, limJ := none, rampD := none }))
    groups := s.prof.groups.map (fun p => (p.1, { p.2 with lastTheta := none }))
    master := []
    newer := [] } }

end Sys2Proof.Machine
end

