-- ==== Sys2Proof/Machine/Solver.lean ====
section
/-! DEFINITION. The cell solver, rules R155 to R174 (spec/07_cell_solver.md). The order in which the rules store an
intermediate product of three factors is read in notes/assumptions/12.md. -/

namespace Sys2Proof.Machine

/-! ### Stored quantities, rule R159 -/

/-- What a solve counts: saturations and the first of them (object and iteration), the iteration, the pivot flags and the
replacements. -/
structure SolLog where
  sats : Nat
  first : Option (Nat × Nat)
  iter : Nat
  piv : Nat
  pivs : Nat
  deriving DecidableEq, Repr

/-- The numbers of a solve: the fraction bits of each object, ρ, σ, 1/ρ, ε and δ. -/
structure SolCfg where
  frac : List Nat
  rho : Int
  sigma : Int
  rinv : Int
  eps : Int
  delta : Int
  deriving DecidableEq, Repr

/-- F of an object. -/
def SolCfg.F (c : SolCfg) (obj : Nat) : Nat := c.frac.getD obj 0

/-- The objects, by code. -/
def oH : Nat := 0
def oF : Nat := 1
def oA : Nat := 2
def oC : Nat := 3
def oBG : Nat := 4
def oBC : Nat := 5
def oZ : Nat := 6
def oY : Nat := 7
def oM : Nat := 8
def oL : Nat := 9
def oD : Nat := 10
def oR : Nat := 11
def oW : Nat := 12
def oS : Nat := 13
def oV : Nat := 14
def oG : Nat := 15

/-- A saturation of an object is counted. -/
def SolLog.sat (l : SolLog) (obj : Nat) : SolLog := { l with sats := l.sats + 1, first := some (l.first.getD (obj, l.iter)) }

/-- Count a saturation where `b` holds. -/
def logSat (obj : Nat) (b : Bool) : StateM SolLog Unit := modify (fun l => if b then l.sat obj else l)

/-- The largest fraction count of the terms of a sum. -/
def maxFrac (ts : List (Int × Nat)) : Nat := ts.foldl (fun m t => max m t.2) 0

/-- Terms aligned to fraction count f by exact left shifts; one that loses bits saturates, rule R159. -/
def alignTerms (obj f : Nat) (ts : List (Int × Nat)) : StateM SolLog (List Int) :=
  ts.mapM (fun t => do
    let x := t.1 * 2 ^ (f - t.2)
    let v := satTo 64 x
    logSat obj (decide (v ≠ x))
    return v)

/-- A sum in the 64-bit accumulator: its value and fraction count, rule R159. -/
def accumulate (obj : Nat) (ts : List (Int × Nat)) : StateM SolLog (Int × Nat) := do
  let f := maxFrac ts
  let l ← alignTerms obj f ts
  let a := satTo 64 l.sum
  logSat obj (decide (a ≠ l.sum))
  return (a, f)

/-- Round half up, or shift left exactly, to the target's fraction count. -/
def toFrac (x : Int) (f F : Nat) : Int := if F < f then rnd x (f - F) else x * 2 ^ (F - f)

/-- A stored result of F fraction bits of an object: one sum in the accumulator, stored once, rule R159. -/
def storeAt (obj F : Nat) (ts : List (Int × Nat)) : StateM SolLog Int := do
  let (a, f) ← accumulate obj ts
  let r := toFrac a f F
  let v := satTo 32 r
  logSat obj (decide (v ≠ r))
  return v

/-- A stored result in the object's own format. -/
def SolCfg.store (c : SolCfg) (obj : Nat) (ts : List (Int × Nat)) : StateM SolLog Int := storeAt obj (c.F obj) ts

/-- The reciprocal of d with f fraction bits: the exact quotient, rounded half up once to F_R; the limit where d is 0. -/
def SolCfg.recip (c : SolCfg) (d : Int) (f : Nat) : StateM SolLog Int := do
  let q := if d = 0 then 2 ^ 31 else if 0 < d then ratioRound (2 ^ (f + c.F oR)) d else ratioRound (-(2 ^ (f + c.F oR))) (-d)
  let v := satTo 32 q
  logSat oR (decide (v ≠ q))
  return v

/-! ### The problem -/

/-- A group of the problem: its first global index, its variables, whether it takes part (rule R166), H_g row by row and
f_g. -/
structure SolGroup where
  g : Nat
  ofs : Nat
  nv : Nat
  live : Bool
  h : List (List Int)
  f : List Int
  deriving DecidableEq, Repr

/-- A row of A: its place among all rows, its coefficients by global index, whether it is a coupling row (with its number),
and its bounds; a bound of `none` is infinite, rule R156. -/
structure SolRow where
  k : Nat
  coef : List (Nat × Int)
  cpl : Option Nat
  lo : Option Int
  hi : Option Int
  deriving DecidableEq, Repr

/-- Signed words of cell memory. -/
def State.cellWords (s : State) (b n : Nat) : List Int := (List.range n).map (fun i => s.cellI32 (b + 4 * i))

/-- The solved groups, in order. -/
def State.solGroups (s : State) : List Nat := (List.range 16).filter (fun g => s.solved g)

/-- NV_g and NR_g. -/
def State.solNv (s : State) (g : Nat) : Nat := s.effFld (Reg.SOL_GRP g) 8 4
def State.solNr (s : State) (g : Nat) : Nat := s.effFld (Reg.SOL_GRP g) 15 10

/-- A lower bound of 0x8000_0000 and an upper one of 0x7FFF_FFFF are infinite. -/
def loBound (x : Int) : Option Int := if x = -2147483648 then none else some x
def hiBound (x : Int) : Option Int := if x = 2147483647 then none else some x

/-- Load the groups from the input area at b, rule R158: of H_g the lower triangle only. -/
def State.loadGroup (s : State) (b g : Nat) : SolGroup :=
  let nv := s.solNv g
  let o := b + 0x2000 * g
  ⟨g, s.varOfs g, nv, !(s.planBad s.parity).getLsbD g,
   (List.range nv).map (fun i => s.cellWords (o + 64 * i) (i + 1)), s.cellWords (o + 0x400) nv⟩

/-- The number of group rows before group g. -/
def State.rowOfs (s : State) (g : Nat) : Nat := ((List.range g).map (fun h => if s.solved h then s.solNr h else 0)).sum

/-- The group rows of a group; skipped for one that is held, rule R166. -/
def State.loadRows (s : State) (b : Nat) (x : SolGroup) : List SolRow :=
  let o := b + 0x2000 * x.g
  if x.live then
    (List.range (s.solNr x.g)).map (fun r =>
      ⟨s.rowOfs x.g + r, (List.range x.nv).map (fun i => (x.ofs + i, s.cellI32 (o + 0x900 + 64 * r + 4 * i))), none,
       loBound (s.cellI32 (o + 0x1100 + 4 * r)), hiBound (s.cellI32 (o + 0x1180 + 4 * r))⟩)
  else []

/-- The enabled coupling rows; a held group's variables are 0 in them. -/
def State.loadCoupling (s : State) (b : Nat) (xs : List SolGroup) : List SolRow :=
  let part (g o : Nat) : List (Nat × Int) :=
    match xs.find? (fun x => x.g == g && x.live) with
    | none => []
    | some x => (List.range x.nv).map (fun i => (x.ofs + i, s.cellI32 (o + 4 * i)))
  ((List.range 48).filter (fun r => (s.eff (Reg.SOL_CPL r)).getLsbD 0)).map (fun r =>
    let o := b + 0x20000 + 0x80 * r
    ⟨s.rowOfs 16 + r, part (s.effFld (Reg.SOL_CPL r) 7 4) o ++ part (s.effFld (Reg.SOL_CPL r) 11 8) (o + 64), some r,
     loBound (s.cellI32 (b + 0x21800 + 4 * r)), hiBound (s.cellI32 (b + 0x218C0 + 4 * r))⟩)

/-- Coefficient of the variable at a global index. -/
def SolRow.at (r : SolRow) (i : Nat) : Int := ((r.coef.find? (fun p => p.1 == i)).map (fun p => p.2)).getD 0

/-- The objects of a row's coefficients and bounds. -/
def SolRow.objA (r : SolRow) : Nat := if r.cpl.isSome then oC else oA
def SolRow.objB (r : SolRow) : Nat := if r.cpl.isSome then oBC else oBG

/-! ### One iteration, rules R161, R163 and R164 -/

/-- Row value w(r), a working value in V. -/
def SolCfg.rowVal (c : SolCfg) (r : SolRow) (z : List Int) : StateM SolLog Int :=
  c.store oV (r.coef.map (fun p => (p.2 * z.getD p.1 0, c.F r.objA + c.F oZ)))

/-- t = w(r) + y(r) × rinv in the accumulator: its value and fraction count. -/
def SolCfg.tVal (c : SolCfg) (w y : Int) : StateM SolLog (Int × Nat) :=
  accumulate oV [(w, c.F oV), (y * c.rinv, c.F oY + c.F oR)]

/-- Compare x with f fraction bits with y with g. -/
def fracLt (x : Int) (f : Nat) (y : Int) (g : Nat) : Bool := decide (x * 2 ^ g < y * 2 ^ f)

/-- The bound on which a row is active, if any. -/
def SolCfg.activeAt (c : SolCfg) (r : SolRow) (t : Int × Nat) : Option Int :=
  match r.lo with
  | some l => if fracLt t.1 t.2 l (c.F r.objB) then some l else
      match r.hi with
      | some u => if fracLt u (c.F r.objB) t.1 t.2 then some u else none
      | none => none
  | none =>
      match r.hi with
      | some u => if fracLt u (c.F r.objB) t.1 t.2 then some u else none
      | none => none

/-- x_i from rows (l_i, terms_i): each x_i stored in `obj` as its terms less Σ l_im x_m. -/
def SolCfg.forward (c : SolCfg) (obj : Nat) : List (List Int × List (Int × Nat)) → List Int → StateM SolLog (List Int)
  | [], acc => return acc
  | (l, ts) :: rest, acc => do
    let x ← c.store obj (ts ++ (l.zip acc).map (fun p => (-(p.1 * p.2), c.F oL + c.F obj)))
    c.forward obj rest (acc ++ [x])

/-- x_i from the last to the first: each stored in `obj` as its terms less Σ L_mi x_m over m > i. `rows` comes reversed
with the index of each, and `acc` holds x_{i+1} on. -/
def SolCfg.backward (c : SolCfg) (obj : Nat) (L : List (List Int)) :
    List (Nat × List (Int × Nat)) → List Int → StateM SolLog (List Int)
  | [], acc => return acc
  | (i, ts) :: rest, acc => do
    let col := (L.drop (i + 1)).map (fun row => row.getD i 0)
    let x ← c.store obj (ts ++ (col.zip acc).map (fun p => (-(p.1 * p.2), c.F oL + c.F obj)))
    c.backward obj L rest (x :: acc)

/-- A factor: the strict lower rows of L, and the reciprocals of the pivots. -/
structure Factor where
  L : List (List Int)
  R : List Int
  deriving DecidableEq, Repr

/-- One row of the factor: L_ij from the entries m_i, with the rows (L_j, LD_j, D_j, R_j) found so far. -/
def SolCfg.ldlRow (c : SolCfg) (obj : Nat) (m : List Int) :
    List (List Int × List Int × Int × Int) → Nat → List Int → List Int → StateM SolLog (List Int × List Int)
  | [], _, ls, lds => return (ls, lds)
  | (_, ldj, d, r) :: rest, j, ls, lds => do
    let u ← c.store oV ((m.getD j 0, c.F obj) :: (ls.zip ldj).map (fun p => (-(p.1 * p.2), c.F oL + c.F oV)))
    let l ← c.store oL [(u * r, c.F oV + c.F oR)]
    let ld ← c.store oV [(l * d, c.F oL + c.F oD)]
    c.ldlRow obj m rest (j + 1) (ls ++ [l]) (lds ++ [ld])

/-- A pivot with its expected sign: replaced by δ with that sign where |d| ≤ ε or the sign differs, and flagged. -/
def SolCfg.pivot (c : SolCfg) (d sign : Int) (pos : Nat) : StateM SolLog Int := do
  if mag d ≤ c.eps ∨ d * sign < 0 then
    modify (fun l => { l with piv := l.piv ||| (1 <<< pos), pivs := l.pivs + 1 })
    return sign * c.delta
  else return d

/-- LDLᵀ of a lower triangle in `obj`, with the positions of its pivots. -/
def SolCfg.ldl (c : SolCfg) (obj : Nat) (sign : Int) :
    List (List Int × Nat) → List (List Int × List Int × Int × Int) → StateM SolLog Factor
  | [], done => return ⟨done.map (fun r => r.1), done.map (fun r => r.2.2.2)⟩
  | (m, pos) :: rest, done => do
    let (ls, lds) ← c.ldlRow obj m done 0 [] []
    let d0 ← c.store oD ((m.getD done.length 0, c.F obj) :: (ls.zip lds).map (fun p => (-(p.1 * p.2), c.F oL + c.F oV)))
    let d ← c.pivot d0 sign pos
    let r ← c.recip d (c.F oD)
    c.ldl obj sign rest (done ++ [(ls, lds, d, r)])

/-- An active row: the row, the bound, and y(r). -/
structure ActRow where
  row : SolRow
  b : Int
  y : Int
  deriving DecidableEq, Repr

/-- Assembly, factorisation and forward substitution of one group: its factor and u = L⁻¹ q. -/
def SolCfg.groupWork (c : SolCfg) (x : SolGroup) (acts : List ActRow) (z : List Int) : StateM SolLog (Factor × List Int) := do
  let mine := acts.filter (fun a => a.row.cpl.isNone && a.row.coef.any (fun p => p.1 == x.ofs))
  let sq (i j : Nat) : StateM SolLog Int :=
    c.store oV (mine.map (fun a => (a.row.at (x.ofs + i) * a.row.at (x.ofs + j), 2 * c.F oA)))
  let m ← (List.range x.nv).mapM (fun i => do
    let row ← (List.range (i + 1)).mapM (fun j => do
      let q ← sq i j
      c.store oM ([((x.h.getD i []).getD j 0, c.F oH), (c.rho * q, 16 + c.F oV)] ++ if i = j then [(c.sigma, 16)] else []))
    return (row, x.ofs + i))
  let rb ← mine.mapM (fun a => do
    let v ← c.store oV [(c.rho * a.b, 16 + c.F oBG), (-a.y, c.F oY)]
    return (a, v))
  let q ← (List.range x.nv).mapM (fun i =>
    c.store oV ([(c.sigma * z.getD (x.ofs + i) 0, 16 + c.F oZ), (-(x.f.getD i 0), c.F oF)] ++
      rb.map (fun (p : ActRow × Int) => (p.1.row.at (x.ofs + i) * p.2, c.F oA + c.F oV))))
  let fac ← c.ldl oM 1 m []
  let u ← c.forward oV (fac.L.zip (q.map (fun v => [(v, c.F oV)]))) []
  return (fac, u)

/-- A coupling row in one iteration: its position, its right side s(r), and for each live group its W column and W × R. -/
structure CplWork where
  pos : Nat
  s : Int
  w : List (Nat × List Int × List Int)
  deriving DecidableEq, Repr

/-- W_g = L_g⁻¹ C_gᵀ of one coupling row, zeros where it is inactive, and s(r). -/
def SolCfg.cplWork (c : SolCfg) (r : SolRow) (act : Option ActRow) (gs : List (SolGroup × Factor × List Int)) :
    StateM SolLog CplWork := do
  let pos := 192 + r.cpl.getD 0
  match act with
  | none => return ⟨pos, 0, []⟩
  | some a =>
    let sv ← c.store oV [(a.b, c.F oBC), (-(a.y * c.rinv), c.F oY + c.F oR)]
    let ws ← (gs.filter (fun x => r.coef.any (fun p => p.1 == x.1.ofs))).mapM (fun x => do
      let w ← c.forward oW (x.2.1.L.zip ((List.range x.1.nv).map (fun i => [(r.at (x.1.ofs + i), c.F oC)]))) []
      let wr ← (w.zip x.2.1.R).mapM (fun p => c.store oV [(p.1 * p.2, c.F oW + c.F oR)])
      return (x.1.g, w, wr))
    return ⟨pos, sv, ws⟩

/-- The W column of a group. -/
def CplWork.of (k : CplWork) (g : Nat) : List Int × List Int := ((k.w.find? (fun p => p.1 == g)).map (fun p => p.2)).getD ([], [])

/-- The Schur complement S = −ρ⁻¹ I − Σ W_gᵀ D_g⁻¹ W_g, row by row. -/
def SolCfg.schur (c : SolCfg) (ks : List CplWork) (gs : List Nat) : StateM SolLog (List (List Int × Nat)) :=
  ((List.range ks.length).zip ks).mapM (fun (a : Nat × CplWork) => do
    let row ← ((List.range (a.1 + 1)).zip ks).mapM (fun (b : Nat × CplWork) =>
      c.store oS ((if a.1 = b.1 then [(-c.rinv, c.F oR)] else []) ++
        gs.flatMap (fun g => ((a.2.of g).1.zip (b.2.of g).2).map (fun p => (-(p.1 * p.2), c.F oW + c.F oV)))))
    return (row, a.2.pos))

/-- One iteration: the new z and y from the old ones. -/
def SolCfg.iterate (c : SolCfg) (groups : List SolGroup) (rows : List SolRow) (zy : List Int × List Int) :
    StateM SolLog (List Int × List Int) := do
  let (z, y) := zy
  let acts ← rows.mapM (fun r => do
    let w ← c.rowVal r z
    let t ← c.tVal w (y.getD r.k 0)
    return (r, (c.activeAt r t).map (fun b => ActRow.mk r b (y.getD r.k 0))))
  let active := acts.filterMap (fun p => p.2)
  let live := groups.filter (fun x => x.live)
  let fac ← live.mapM (fun x => do
    let fu ← c.groupWork x active z
    return (x, fu.1, fu.2))
  let ks ← (acts.filter (fun p => p.1.cpl.isSome)).mapM (fun p => c.cplWork p.1 p.2 fac)
  let sm ← c.schur ks (live.map (fun x => x.g))
  let fs ← c.ldl oS (-1) sm []
  -- forward through the coupling rows, scale, and back
  let v ← c.forward oV (fs.L.zip (ks.map (fun k => (k.s, c.F oV) :: fac.flatMap (fun x =>
    ((k.of x.1.g).2.zip x.2.2).map (fun p => (-(p.1 * p.2), 2 * c.F oV)))))) []
  let vs ← (v.zip fs.R).mapM (fun p => c.store oV [(p.1 * p.2, c.F oV + c.F oR)])
  let nu ← c.backward oV fs.L (((List.range ks.length).zip (vs.map (fun x => [(x, c.F oV)]))).reverse) []
  let zg ← fac.mapM (fun x => do
    let us ← (x.2.2.zip x.2.1.R).mapM (fun p => c.store oV [(p.1 * p.2, c.F oV + c.F oR)])
    let ts := (List.range x.1.nv).map (fun i => (i, (us.getD i 0, c.F oV) ::
      (ks.zip nu).map (fun p => (-(((p.1.of x.1.g).2.getD i 0) * p.2), 2 * c.F oV))))
    let zz ← c.backward oZ x.2.1.L ts.reverse []
    return (x.1.ofs, zz))
  let z' := (List.range z.length).map (fun i =>
    ((zg.find? (fun p => decide (p.1 ≤ i ∧ i < p.1 + p.2.length))).map (fun p => p.2.getD (i - p.1) 0)).getD 0)
  let ys ← rows.mapM (fun r => do
    let w ← c.rowVal r z'
    let t ← c.tVal w (y.getD r.k 0)
    let yk ← match c.activeAt r t with
      | none => pure 0
      | some b => do
        let o ← c.store oV [t, (-b, c.F r.objB)]
        c.store oY [(c.rho * o, 16 + c.F oV)]
    return (r.k, yk))
  let y' := (List.range y.length).map (fun k => ((ys.find? (fun p => p.1 == k)).map (fun p => p.2)).getD (y.getD k 0))
  return (z', y')

/-- `n` iterations, numbered from 1. -/
def SolCfg.iterations (c : SolCfg) (groups : List SolGroup) (rows : List SolRow) :
    Nat → List Int × List Int → StateM SolLog (List Int × List Int)
  | 0, zy => return zy
  | n + 1, zy => do
    modify (fun l => { l with iter := l.iter + 1 })
    let zy' ← c.iterate groups rows zy
    c.iterations groups rows n zy'

/-! ### The stages, rules R165 to R173 -/

/-- An entry of tick k−1 in the frame of tick k: a homing shift at the boundary between moves it, rule R130. -/
def State.entryMoved (s : State) (a b : Nat) : Entry := { s.entryAt b with x := (s.entryAt b).x + (s.axis a).moved }

/-- The entry that tick k takes for an axis of a group that is not solved, or is held: its plan entry with PASS, or its
extrapolation, rules R49, R156 and R166. -/
def State.passEntry (s : State) (g a : Nat) : Entry :=
  let pass := if s.solved g then 0 else 2
  if (s.planBad s.parity).getLsbD g then
    let e := (s.entryMoved a (s.planEntryAt (1 - s.parity) a)).extrapolate
    { e with flags := e.flags ||| pass }
  else { s.entryAt (s.planEntryAt s.parity a) with flags := pass }

/-- The fallback entry of an axis, rule R171. -/
def State.fallbackEntry (s : State) (g a : Nat) : Entry :=
  if s.solved g && !s.sol.noPrev then (s.entryMoved a (s.solEntryAt (1 - s.parity) a)).extrapolate else s.passEntry g a

/-- Apply `f` to each member axis of each enabled group. -/
def State.forMembers (s : State) (f : Nat → Nat → Nat → State → State) : State :=
  forEach (fun g st => forEach (fun p u => f g p.1 p.2 u) (s.members g) st) s.groups s

/-- PRO: the fallback entries, the tick number, and the header with STATUS FALLBACK. -/
def State.solPro (s : State) : State :=
  let b := s.solution s.parity
  let s1 := s.forMembers (fun g _ a st => st.putEntry (b + 0x1800 + 32 * a) (s.fallbackEntry g a))
  (s1.setCell (b + 8) 8 s.tick).setCell b 4 2

/-- The numbers of the solve from the SOL page in force. -/
def State.solCfg (s : State) (rinv : Int) : SolCfg :=
  ⟨(List.range 16).map s.fracOf, (s.eff Reg.SOL_RHO).toNat, (s.eff Reg.SOL_SIGMA).toNat, rinv, (s.eff Reg.SOL_PIV_EPS).toInt,
   (s.eff Reg.SOL_PIV_DELTA).toInt⟩

/-- The start values, rule R162: warm, or Z0 and 0. -/
def State.solStart (s : State) (b : Nat) (groups : List SolGroup) (nRows : Nat) : List Int × List Int :=
  let cold := (groups.flatMap (fun x => if x.live then s.cellWords (b + 0x2000 * x.g + 0x440) x.nv else List.replicate x.nv 0),
               List.replicate nRows 0)
  if (s.eff Reg.SOL_CTRL).getLsbD 1 && !s.sol.cold then s.sol.keep.getD cold else cold

/-- A solve starts cold. -/
def State.solCold (s : State) : Bool := !(s.eff Reg.SOL_CTRL).getLsbD 1 || s.sol.cold || s.sol.keep.isNone

/-- An uncorrectable word in the part of the input area that the solver reads: of each solved group that is not held its H, f, rows and
bounds, its Z0 in a cold start, with TRQ its T0 and G, and its members' states; the enabled coupling rows; and the plan entries of the
groups that pass through or are held. -/
def State.solInputEcc (s : State) : Bool :=
  let b := s.planSet s.parity
  let bad (o n : Nat) : Bool := s.ueIn 0x80 (b + o) n
  let held (g : Nat) : Bool := (s.planBad s.parity).getLsbD g
  let live (g : Nat) : Bool := s.solved g && !held g
  let plan (a : Nat) (par : Nat) : Bool := s.ueIn 0x80 (s.planEntryAt par a) 32
  ((List.range 16).filter live).any (fun g =>
    let o := 0x2000 * g
    let nv := s.solNv g
    let nr := s.solNr g
    (List.range nv).any (fun i => bad (o + 64 * i) (4 * (i + 1))) || bad (o + 0x400) (4 * nv) || (s.solCold && bad (o + 0x440) (4 * nv)) ||
      (List.range nr).any (fun r => bad (o + 0x900 + 64 * r) (4 * nv)) || bad (o + 0x1100) (4 * nr) || bad (o + 0x1180) (4 * nr) ||
      (s.members g).any (fun p => bad (0x22000 + 16 * p.2) 16) ||
      (s.effFld (Reg.SOL_GRP g) 1 1 == 1 &&
        (bad (o + 0x480) (4 * (s.members g).length) ||
          (List.range (s.members g).length).any (fun m => bad (o + 0x500 + 64 * m) (4 * nv))))) ||
    (List.range 48).any (fun r => (s.eff (Reg.SOL_CPL r)).getLsbD 0 &&
      ((live (s.effFld (Reg.SOL_CPL r) 7 4) && bad (0x20000 + 0x80 * r) (4 * s.solNv (s.effFld (Reg.SOL_CPL r) 7 4))) ||
        (live (s.effFld (Reg.SOL_CPL r) 11 8) && bad (0x20040 + 0x80 * r) (4 * s.solNv (s.effFld (Reg.SOL_CPL r) 11 8))) ||
        bad (0x21800 + 4 * r) 4 || bad (0x218C0 + 4 * r) 4)) ||
    (s.groups.filter (fun g => !live g)).any (fun g => (s.members g).any (fun p => plan p.2 (if held g then 1 - s.parity else s.parity)))

/-- An uncorrectable error of the tick in solver SRAM, or in what the solver reads of the input area or of the previous solution copy:
cause 0x4 of rule R165. -/
def State.solEcc (s : State) : Bool :=
  s.solInputEcc || s.sol.ecc ||
    (!s.sol.noPrev && (s.ueIn 0x80 (s.solution (1 - s.parity)) 4 ||
      s.solGroups.any (fun g => (s.members g).any (fun p => s.ueIn 0x80 (s.solEntryAt (1 - s.parity) p.2) 32))))

/-- The limit set of the tick is invalid: cause 0x3. -/
def State.limInvalid (s : State) : Bool := (s.invalidPhases s.parity).testBit 1

/-- LOAD and ITER: the problem of the tick is solved; the result waits for WRITE. -/
def State.solRun (s : State) : State :=
  let b := s.planSet s.parity
  let groups := s.solGroups.map (fun g => s.loadGroup b g)
  let rows := groups.flatMap (fun x => s.loadRows b x) ++ s.loadCoupling b groups
  let n := s.effFld Reg.SOL_CTRL 13 8
  let nRows := s.rowOfs 16 + 48
  let start := s.solStart b groups nRows
  let prog : StateM SolLog (List Int × List Int) := do
    let rinv ← (s.solCfg 0).recip (s.eff Reg.SOL_RHO).toNat 16
    (s.solCfg rinv).iterations groups rows n start
  let ((z, y), l) := prog.run ⟨0, none, 0, 0, 0⟩
  let cause := if 0 < l.sats then 1 else if (s.invalidPhases s.parity).testBit 2 then 2 else if s.solEcc then 4 else 0
  let s1 := if s.solCold then s.inc Reg.SOL_COLD_CNT else s
  let s2 := (s1.add Reg.SOL_SAT_CNT l.sats).add Reg.SOL_PIV_CNT l.pivs
  let s3 := s2.wrN Reg.SOL_SAT_FIRST (match l.first with
    | none => 0
    | some (o, i) => o + 256 * i + 2147483648)
  { s3 with sol := { s3.sol with done := some (cause, z, y, l.piv, n), keep := none } }

/-- The solver is enabled. -/
def State.solEn (s : State) : Bool := (s.eff Reg.SOL_CTRL).getLsbD 0

/-- The V phase starts, rules R165 to R171: PRO, then LOAD and ITER; with an invalid limit set the solver does not start. STAGE shows
ITER while a solve waits for WRITE (notes/assumptions/119.md). -/
def State.solverStart (s : State) : State :=
  let s1 := s.solPro
  if !s.solEn then { s1 with sol := { s1.sol with done := some (0, [], [], 0, 0) } }
  else if s.limInvalid then
    ({ s1 with sol := { s1.sol with done := some (3, [], [], 0, 0), keep := none } }).wrN Reg.SOL_SAT_FIRST 0
  else s1.solRun.setFld Reg.SOL_STAT 2 0 3

/-- The solved entry of a member, rule R172, with the number of saturations. -/
def State.solvedEntry (s : State) (g m a : Nat) (z : List Int) : Entry × Nat :=
  let b := s.planSet s.parity
  let fz := s.fracOf oZ
  let zj := z.getD (s.varOfs g + m) 0
  let acc := zj * 2 ^ (40 - fz)
  let v := s.cellI64 (b + 0x22000 + 16 * a + 8) + rnd acc 8
  let v' := satTo 64 v
  let x := s.cellI64 (b + 0x22000 + 16 * a) + rnd v' 16
  let x' := satTo 64 x
  let trq := s.effFld (Reg.SOL_GRP g) 1 1 = 1
  let row := s.cellWords (b + 0x2000 * g + 0x500 + 64 * m) (s.solNv g)
  let ts := (s.cellI32 (b + 0x2000 * g + 0x480 + 4 * m), 24) ::
    (row.zip (z.drop (s.varOfs g))).map (fun p => (p.1 * p.2, s.fracOf oG + fz))
  let (t, l) := if trq then (storeAt oG 24 ts).run ⟨0, none, 0, 0, 0⟩ else (0, ⟨0, none, 0, 0, 0⟩)
  (⟨x', v', acc, t, if trq then 9 else 1⟩, b2n (decide (v' ≠ v)) + b2n (decide (x' ≠ x)) + l.sats)

/-- The entry of a member in the solved area. -/
def State.memberEntry (s : State) (g m a : Nat) (z : List Int) : Entry × Nat :=
  if s.solved g && !(s.planBad s.parity).getLsbD g then s.solvedEntry g m a z else (s.passEntry g a, 0)

/-- The lowest flagged position. -/
def lowestBit (n : Nat) : Option Nat := (List.range 240).find? (fun i => n.testBit i)

/-- The pivot flags of the tick in the page, rule R164. -/
def State.solFlags (s : State) (flags : Nat) : State :=
  let s1 := forUpTo (fun i st => st.wrN (Reg.SOL_PIV_FLAGS i) (flags / 2 ^ (32 * i))) 8 s
  let s2 := s1.wrN Reg.SOL_PIV_FIRST (match lowestBit flags with
    | none => 0
    | some i => i + 2147483648)
  if flags = 0 then s2 else (s2.setBit Reg.SOL_STAT 6 true).event Page.SOL 2 0

/-- A failed solve, rule R169: counted; the second consecutive one counts in SOL_FAIL2_CNT and is the device-level stop
cause in RUN and DEGRADED, and in other states only its event. -/
def State.solFailed (s : State) : State :=
  let n := min 255 (s.fld Reg.SOL_STAT 23 16 + 1)
  let s1 := { s with sol := { s.sol with keep := none, cold := true } }
  let s2 := s1.setFld Reg.SOL_STAT 23 16 n
  let s3 := if n = 2 then (s2.inc Reg.SOL_FAIL2_CNT).event Page.SOL 3 0 else s2
  if 2 ≤ n ∧ s.running then s3.stopCause .solver else s3

/-- The numbers that fix the time of a solve: ITER, and NV and NR of each group, and the enabled coupling rows, rule R166's chapter. -/
def State.solShape (s : State) : List Nat :=
  s.effFld Reg.SOL_CTRL 13 8 :: (s.solGroups.flatMap (fun g => [s.solNv g, s.solNr g]) ++
    (List.range 48).filter (fun r => (s.eff (Reg.SOL_CPL r)).getLsbD 0))

/-- SOL_CYC_LAST is a time that depends only on the structure and ITER: an open function of them, with its largest. -/
def State.solCycles (s : State) : State :=
  let s2 := s.wr Reg.SOL_CYC_LAST (Config.cycles 0 s.solShape)
  s2.wrN Reg.SOL_CYC_MAX (max (s2.rdN Reg.SOL_CYC_MAX) (s2.rdN Reg.SOL_CYC_LAST))

/-- The outcome of the solve in the page: VALID or REJECTED, rules R165 and R169. -/
def State.solOutcome (s : State) (cause : Nat) : State :=
  if cause = 0 then
    ((s.inc Reg.SOL_SOLVE_CNT).setFld Reg.SOL_STAT 23 16 0 |>.setFld Reg.SOL_STAT 13 12 1).causeGone .solver
  else
    let s1 := ((s.inc Reg.SOL_REJ_CNT).setFld Reg.SOL_STAT 11 8 cause).setFld Reg.SOL_STAT 13 12 3
    let s2 := ((s1.setBit Reg.SOL_STAT 5 true).event Page.SOL 1 (w32 cause)).solFailed
    if cause = 4 then s2.detLapse else s2

/-- WRITE: the solved entries, z and the flags, then the header, rules R170 and R172. It answers the state with the
rejection cause that the header shows. -/
def State.solverWrite (s : State) : State :=
  match s.sol.done with
  | none => s
  | some (cause, z, y, flags, n) =>
    let b := s.solution s.parity
    let sats := ((s.groups.flatMap (fun g => (s.members g).map (fun p => (s.memberEntry g p.1 p.2 z).2)))).sum
    -- a saturation of the write-back, or an error found in solver SRAM since LOAD
    let cause' := if cause = 0 ∧ 0 < sats then 1 else if cause = 0 ∧ s.solEn ∧ s.sol.ecc then 4 else cause
    let s0 := s.add Reg.SOL_SAT_CNT sats
    let s1 := if s.rdN Reg.SOL_SAT_FIRST = 0 ∧ 0 < sats then s0.wrN Reg.SOL_SAT_FIRST (oZ + 256 * n + 2147483648) else s0
    let s2 := if cause = 3 then s1
      else s1.forMembers (fun g m a st => st.putEntry (b + 0x400 + 32 * a) (s.memberEntry g m a z).1)
    let s3 := forEach (fun p st => st.setCellI (b + 0x80 + 4 * p.1) 4 p.2) ((List.range z.length).zip z) s2
    let s4 := forUpTo (fun i st => st.setCell (b + 0x40 + 4 * i) 4 (flags / 2 ^ (32 * i))) 8 s3
    let status := if cause' = 0 then 1 else 3
    let s5 := s4.setCell b 4 (status + 256 * cause' + 65536 * n)
    let s6 := { s5 with sol := { keep := if cause' = 0 then some (z, y) else none, cold := false, noPrev := false, done := none, ecc := s5.sol.ecc } }
    let s7 := s6.setFld Reg.SOL_STAT 2 0 0
    if s.solEn then ((s7.solFlags flags).solCycles).solOutcome cause' else s7.setFld Reg.SOL_STAT 13 12 1

/-- SOLVER_DEADLINE_MISS: the V deadline comes before a final header, rule R168. The stage and the iteration reached are
times of the implementation: free values, the iteration held to the count. The page shows the pivots that the solve has counted. -/
def State.solverMiss (s : State) : State :=
  match s.sol.done with
  | none => s
  | some (_, _, _, flags, _) =>
    let (k, s1) := (if s.solEn then s.solFlags flags else s).takeFree
    let s2 := { s1 with sol := { s1.sol with done := none, noPrev := false } }
    let s3 := ((s2.inc Reg.SOL_MISS_CNT).setBit Reg.SOL_STAT 4 true).setFld Reg.SOL_STAT 15 14 ((Config.freeWord k).toNat % 4)
    let s4 := s3.setFld Reg.SOL_STAT 29 24 ((Config.freeWord k).toNat / 4 % (s.effFld Reg.SOL_CTRL 13 8 + 1))
    (((s4.setFld Reg.SOL_STAT 2 0 0).setFld Reg.SOL_STAT 13 12 2).event Page.SOL 0 0).solFailed.detLapse

/-- Entry to SELFTEST and a realignment tick: no entry of the last tick is used, and the start is cold, rules R162 and
R171. -/
def State.solFresh (s : State) : State := { s with sol := { s.sol with keep := none, cold := true, noPrev := true, done := none } }

/-- SOLVER_SECOND_FAILURE: a second consecutive failed solve in RUN or DEGRADED is the device-level stop cause, rule R169. -/
def State.solverSecondFailure (s : State) : State :=
  if s.running && decide (2 ≤ s.fld Reg.SOL_STAT 23 16) then s.stopCause .solver else s

def execSolverSecondFailure (s : State) : Out := .next s.solverSecondFailure

end Sys2Proof.Machine
end

