-- ==== Sys2Proof/Machine/Loop.lean ====
section
/-! DEFINITION. The loop engine: the control law, the competition, opening and closing of loops and the command record,
rules R139 to R154 (spec/06_loop_engine.md). -/

namespace Sys2Proof.Machine

/-! ### Access -/

/-- The copy of an axis's loop state of a parity lies at SYS_LOOPST_BASE + 512 × a + 256 × p, rule R144. Within it the tick word is at
+248; the places of the other words are the firmware's (notes/assumptions/120.md): stage j at +24 j, x_m at +120, v_m at +128, and the
run count at +136. -/
def State.loopBase (s : State) (a par : Nat) : Nat := s.rdN Reg.SYS_LOOPST_BASE + 512 * a + 256 * par

/-- A stage of a copy. -/
def State.stageAt (s : State) (b j : Nat) : StageState :=
  ⟨s.cellI64 (b + 24 * j), s.cellI64 (b + 24 * j + 8), s.cellI32 (b + 24 * j + 16), s.cellI32 (b + 24 * j + 20)⟩

/-- The copy of an axis's loop state of a parity. -/
def State.loopCopy (s : State) (a par : Nat) : LoopCopy :=
  let b := s.loopBase a par
  ⟨(List.range 5).map (fun j => s.stageAt b j), s.cellI64 (b + 120), s.cellI64 (b + 128), s.cell32 (b + 136)⟩

/-- Write a copy, the tick word last. -/
def State.setLoopCopy (s : State) (a par : Nat) (c : LoopCopy) (tick : Nat) : State :=
  let b := s.loopBase a par
  let s1 := forUpTo (fun j t =>
    let q := c.stages.getD j ⟨0, 0, 0, 0⟩
    (((t.setCellI (b + 24 * j) 8 q.i).setCellI (b + 24 * j + 8) 8 q.d).setCellI (b + 24 * j + 16) 4 q.e).setCellI (b + 24 * j + 20) 4
      q.y) 5 s
  (((s1.setCellI (b + 120) 8 (satTo 64 c.x)).setCellI (b + 128) 8 (satTo 64 c.v)).setCell (b + 136) 4 (min c.fe 0xFFFFFFFF)).setCell
    (b + 248) 8 tick

/-- The tick word of a copy. -/
def State.copyTick (s : State) (a par : Nat) : Nat := s.cell64 (s.loopBase a par + 248)

/-- What the loop engine keeps of an axis. -/
def State.loopRt (s : State) (a : Nat) : LoopRt := Tab.get (fun _ => LoopRt.reset) s.loop.axes a

/-- Write it. -/
def State.setLoopRt (s : State) (a : Nat) (x : LoopRt) : State :=
  { s with loop := { s.loop with axes := Tab.set (fun _ => LoopRt.reset) s.loop.axes a x } }

/-- LOOP_STAT.OPEN bit i. -/
def State.loopOpen (s : State) (a i : Nat) : Bool := s.bit (Reg.LOOP_STAT a) i

/-- LOOP_STAT.PEND bit i. -/
def State.loopPend (s : State) (a i : Nat) : Bool := s.bit (Reg.LOOP_STAT a) (4 + i)

/-- The loop that a coefficient set belongs to. -/
def setLoop (j : Nat) : Nat := if j ≤ 1 then 0 else j - 1

/-- The axis's group is in STO; an axis of no enabled group has no group that could leave it (DEDUCED,
notes/assumptions/13.md). -/
def State.axisSto (s : State) (a : Nat) : Bool :=
  match s.groupOf a with
  | none => true
  | some g => s.grpState g == 4

/-! ### Coefficient sets -/

/-- A coefficient set. -/
structure Coef where
  kp : Int
  ki : Int
  kd : Int
  af : Int
  esh : Int
  osh : Int
  dmeas : Bool
  kff : Int
  imin : Int
  imax : Int
  deriving DecidableEq, Repr

/-- Live set j of an axis. -/
def State.coef (s : State) (a j : Nat) : Coef :=
  let sh := s.rdN (Reg.LOOP_LIVE_SHIFTS a j)
  ⟨s.rdI (Reg.LOOP_LIVE_KP a j), s.rdI (Reg.LOOP_LIVE_KI a j), s.rdI (Reg.LOOP_LIVE_KD a j), s.rdI (Reg.LOOP_LIVE_AF a j),
   signedOf 7 (bitsOf sh 6 0), signedOf 7 (bitsOf sh 14 8), sh.testBit 16, s.rdI (Reg.LOOP_LIVE_KFF a j),
   s.rdI64 (Reg.LOOP_LIVE_IMIN a j), s.rdI64 (Reg.LOOP_LIVE_IMAX a j)⟩

/-- The conditions of rule R150 on a live set. -/
def Coef.ok (c : Coef) : Bool :=
  decide (0 ≤ c.kp ∧ 0 ≤ c.ki ∧ 0 ≤ c.kd ∧ c.af < 2 ^ 24) &&
    decide (-15 ≤ c.esh ∧ c.esh ≤ 63 ∧ -15 ≤ c.osh ∧ c.osh ≤ 63 ∧ c.imin ≤ c.imax)

/-- A close of loop i is permitted, rule R150. -/
def State.closeOk (s : State) (a i : Nat) : Bool :=
  ((List.range 5).filter (fun j => setLoop j == i)).all (fun j => (s.coef a j).ok) &&
    !(decide (1 ≤ i) && s.fld (Reg.LOOP_CFG a) 1 0 == 1)

/-! ### Requests, rules R149 to R152 -/

/-- A request is refused: a LOOP_STAT bit, the count and the event of bit 3. -/
def State.reqRefused (s : State) (a bit : Nat) : State :=
  ((s.setBit (Reg.LOOP_STAT a) bit true).inc (Reg.LOOP_REQ_REF_CNT a)).event (Page.LOOP a) 3 0

/-- One loop's bits of a write to LOOP_CTRL: open, close. A pending request is for the state that the loop does not have. -/
def State.loopReq (s : State) (a i : Nat) (op cl : Bool) : State :=
  let isOpen := s.loopOpen a i
  if s.loopPend a i then
    if (if isOpen then op else cl) then s.reqRefused a 14 else s
  else if op && cl then (s.reqRefused a 14).reqRefused a 14
  else if op && !isOpen then
    if i = 0 && !s.axisSto a then s.reqRefused a 14 else s.setBit (Reg.LOOP_STAT a) (4 + i) true
  else if cl && isOpen then
    if s.closeOk a i then s.setBit (Reg.LOOP_STAT a) (4 + i) true else s.reqRefused a 13
  else s

/-- A write to LOOP_CTRL with its OPEN and CLOSE bits. -/
def State.loopCtrl (s : State) (a : Nat) (op cl : BitVec 4) : State :=
  forUpTo (fun i st => st.loopReq a i (op.getLsbD i) (cl.getLsbD i)) 4 s

def execLoopOpen (ag : Agent) (a : Fin 144) (op cl : BitVec 4) (s : State) : Out :=
  .next (s.swWrite ag (Page.LOOP a.val) (fun t => t.loopCtrl a.val op cl))

def execLoopClose (ag : Agent) (a : Fin 144) (op cl : BitVec 4) (s : State) : Out :=
  .next (s.swWrite ag (Page.LOOP a.val) (fun t => t.loopCtrl a.val op cl))

/-- The cut applies the pending requests of an axis and takes LOOP_PV_REF, rules R16, R149 and R151. -/
def State.cutLoop (s : State) (a : Nat) : State :=
  let s1 := forUpTo (fun i st =>
    if !st.loopPend a i then st
    else
      let st1 := st.setBit (Reg.LOOP_STAT a) (4 + i) false
      let x := st1.loopRt a
      if st.loopOpen a i then
        if st1.closeOk a i then
          (st1.setBit (Reg.LOOP_STAT a) i false).setLoopRt a { x with closed := withBits x.closed i i 1, opened := withBits x.opened i i 0 }
        else st1.reqRefused a 13
      else if i = 0 && !st1.axisSto a then st1.reqRefused a 14
      else (st1.setBit (Reg.LOOP_STAT a) i true).setLoopRt a { x with opened := withBits x.opened i i 1, closed := withBits x.closed i i 0 })
    4 s
  s1.setLoopRt a { s1.loopRt a with pvRef := s1.rdI (Reg.LOOP_PV_REF a) }

/-- COEF_WRITE: accepted only while the loop is open with no request pending, rule R152; word w of live set j. IMIN and IMAX
take their new value when their high word is written, rule R435. A refused write also counts as a refused access, as the worked
example of spec/19 has it. -/
def State.coefWrite (s : State) (a j w : Nat) (v : Word) : State :=
  let r := Reg.LOOP_LIVE_KP a j + 4 * w
  if s.loopOpen a (setLoop j) && !s.loopPend a (setLoop j) then
    match w with
    | 4 => s.wr r (v &&& 0x17F7F)
    | 6 => s.holdLow r v
    | 8 => s.holdLow r v
    | 7 => s.commitHigh r v
    | 9 => s.commitHigh r v
    | _ => s.wr r v
  else (((s.setBit (Reg.LOOP_STAT a) 12 true).inc (Reg.LOOP_COEF_REF_CNT a)).event (Page.LOOP a) 2 0).refuseAccess (Page.LOOP a)

def execCoefWrite (ag : Agent) (a : Fin 144) (j : Fin 5) (w : Fin 10) (v : Word) (s : State) : Out :=
  .next (s.swWrite ag (Page.LOOP a.val) (fun t => t.coefWrite a.val j.val w.val v))

/-- Entry to SELFTEST: live sets from boot sets, OPEN from CLOSE_INIT, and the tick words of both copies to all ones,
rules R144 and R149. -/
def State.loopSelftest (s : State) (a : Nat) : State :=
  let s1 := forUpTo (fun j st => forUpTo (fun w u => u.wr (Reg.LOOP_LIVE_KP a j + 4 * w) (u.rd (Reg.LOOP_BOOT_KP a j + 4 * w))) 10 st) 5 s
  let s2 := (s1.setFld (Reg.LOOP_STAT a) 3 0 (15 - s1.fld (Reg.LOOP_CFG a) 7 4)).setFld (Reg.LOOP_STAT a) 7 4 0
  let b := s.rdN Reg.SYS_LOOPST_BASE + 512 * a + 248
  (((s2.setLoopRt a LoopRt.reset).setCell b 8 (2 ^ 64 - 1)).setCell (b + 256) 8 (2 ^ 64 - 1)).wrN (Reg.LOOP_TRQ a) 0

/-! ### The control law, rule R140 -/

/-- rnd with a shift of either sign. -/
def rndI (x : Int) (sh : Int) : Int := if 0 ≤ sh then rnd x sh.toNat else x * 2 ^ (-sh).toNat

/-- The least value whose rnd by `sh` is not below n. -/
def leastFor (n sh : Int) : Int :=
  if 0 < sh then n * 2 ^ sh.toNat - 2 ^ (sh.toNat - 1)
  else -((-n) / 2 ^ (-sh).toNat)

/-- What a stage computes: candidate, the integrator that it keeps or comes from, tentative integrator, d, e32 and y32, the contribution
of its integration step and the saturations. -/
structure StageOut where
  cand : Int
  iPrev : Int
  itent : Int
  d : Int
  e : Int
  y : Int
  contrib : Int
  sats : Nat
  deriving DecidableEq, Repr

/-- The states before a stage. -/
def StageState.zero : StageState := ⟨0, 0, 0, 0⟩

/-- The integrator on closing, rule R149: 0 for L0; for L1 to L3 the least one whose candidate in the first closed tick is not below
m_out, where the clamp of rule R140 leaves one (notes/assumptions/121.md). -/
def Coef.closeInt (c : Coef) (need step : Int) : Int := satTo 64 (clampI c.imin c.imax need - step)

/-- One stage in one tick: raw error `e`, measured value `y`, feedforward `ff`, output width `w`. `closing` starts from the close
values of rule R149, with `target` the m_out that the candidate of L1 to L3 may not fall below; `miss` sets de to 0, rule
R145. -/
def Coef.stage (c : Coef) (p : StageState) (e y ff : Int) (w : Nat) (miss closing : Bool) (target : Option Int) : StageOut :=
  let er := rndI e c.esh
  let e32 := satTo 32 er
  let y32 := satTo 32 (rndI y c.esh)
  let de := if miss || closing then 0 else if c.dmeas then -(y32 - p.y) else e32 - p.e
  let pr := c.kp * e32
  let step := c.ki * e32
  let d := (if closing then 0 else rnd (c.af * p.d) 24) + c.kd * de
  let i0 := match closing, target with
    | true, some m => c.closeInt (leastFor (m - ff) c.osh - pr - d) step
    | true, none => 0
    | false, _ => p.i
  let itent := clampI c.imin c.imax (i0 + step)
  let raw := rndI (pr + itent + d) c.osh + ff
  let cand := satTo w raw
  ⟨cand, i0, itent, d, e32, y32, step, b2n (decide (er ≠ e32)) + b2n (decide (raw ≠ cand))⟩

/-! ### The task of an axis, rules R141 to R148 -/

/-- The state copy that the task of tick k reads, rule R144: that of parity k−1, else that of parity k with tick word k−2,
else none. -/
def State.loopRead (s : State) (a : Nat) : Option (LoopCopy × Bool) :=
  let k := s.tick
  if s.copyTick a (1 - s.parity) + 1 = k then some (s.loopCopy a (1 - s.parity), false)
  else if s.copyTick a s.parity + 2 = k then some (s.loopCopy a s.parity, true)
  else none

/-- A word of the gather buffer named by a source register, if any. -/
def State.gatherWord (s : State) (src : Nat) : Option Int :=
  if src = 0xFFFFF then none else some (s.cellI32 (s.gath s.parity + 4 * src))

/-- A search step of homing modes 0x9 and 0xA, in which the P phase of this tick found the axis; normal from the first tick after the
step ends, rule R148. -/
def State.hardStopHoming (s : State) (a : Nat) : Bool := (s.axis a).hardSeek

/-- v_lim of rule R141, formed exactly and rounded once. -/
def State.vLim (s : State) (a : Nat) : Int :=
  let nP : Int × Int := match s.groupOf a with
    | none => (1, 1)
    | some g => s.sigma g
  let n := nP.1
  let d := nP.2
  ratioRound (s.rdI64 (Reg.LOOP_VLIM a) * n) (if s.sys.dev = .degraded then 2 * d else d)

/-- The measured state of the task and whether it is missing; `none`: no valid state since SELFTEST, rule R145. -/
def State.loopMeasured (s : State) (a : Nat) (copy : Option LoopCopy) : Int × Int × Bool :=
  let xP := s.measured a
  let x := xP.1
  let v := xP.2.1
  let ok := xP.2.2
  if ok then (x, v, false)
  else
    match copy with
    | some c => (c.x + rnd c.v 16, c.v, true)
    | none => (x + rnd v 16, v, true)

/-- The inputs of a stage: loop number, raw error, measured value and feedforward. -/
structure LoopIn where
  j : Nat
  e : Int
  y : Int
  ff : Int
  deriving DecidableEq, Repr

/-- The five stages of an axis in TRQ mode: outputs by set number, s and u0. `open4` holds the open loops and `closing` the
loops that take their close values; m_out of LOOP_TRQ then takes the present s, rule R149 (DEDUCED, notes/assumptions/151.md). -/
def State.runStages (s : State) (a : Nat) (en : Entry) (x v : Int) (st : List StageState) (miss : Bool) (closing : Nat)
    (pvRef yFree : Int) : List (Nat × StageOut) × Int × Int :=
  let p (j : Nat) : StageState := st.getD j StageState.zero
  let c (j : Nat) : Coef := s.coef a j
  let vff := rnd ((c 0).kff * en.v) 24
  let r0 := (c 0).stage (p 0) (en.x - x) x vff 64 miss (closing.testBit 0) none
  let tff := rnd ((c 1).kff * en.a) 40 + en.t
  let r1 := (c 1).stage (p 1) (r0.cand - v) v tff 32 miss (closing.testBit 0) none
  let sg : Int := if 0 ≤ r1.cand then 1 else -1
  let mPrev := sg * s.rdI (Reg.LOOP_TRQ a)
  let y2 := match s.gatherWord (s.fld (Reg.LOOP_F_SRC a) 19 0) with
    | some f => (s.rdI (Reg.LOOP_FLIM a) - sg * f, sg * f)
    | none => (0, 0)
  let y3 := (s.gatherWord (s.fld (Reg.LOOP_PV_SRC a) 19 0)).getD yFree
  let inv : Int := if s.bit (Reg.LOOP_CFG a) 8 then -1 else 1
  let tlim := if s.hardStopHoming a then s.rdI (Reg.LOOP_TLIM_HOME a) else s.rdI (Reg.LOOP_TLIM a)
  let ins : List LoopIn := [⟨2, s.vLim a - sg * v, sg * v, (c 2).kff⟩, ⟨3, y2.1, y2.2, tlim⟩,
    ⟨4, inv * (pvRef - y3), inv * y3, (c 4).kff⟩]
  let outs := (ins.filter (fun q => !s.loopOpen a (q.j - 1))).map (fun q =>
    (q.j, (c q.j).stage (p q.j) q.e q.y q.ff 32 miss (closing.testBit (q.j - 1)) (some mPrev)))
  ((0, r0) :: (1, r1) :: outs, sg, r1.cand)

/-- The winner and the selected magnitude, rule R142: the smallest candidate, the lowest loop of equals. -/
def select (c0 : Int) (cs : List (Nat × Int)) : Nat × Int :=
  cs.foldl (fun w c => if c.2 < w.2 then c else w) (0, c0)

/-- The integrator that a stage keeps, rules R143 and R145. -/
def keepInt (o : StageOut) (cand mOut contrib : Int) (miss : Bool) : Int :=
  if miss then o.iPrev
  else if cand ≠ mOut ∧ sgn contrib = sgn (cand - mOut) then o.iPrev
  else o.itent

/-- Saturations of a task count in ENG_SAT_CNT of the engine that ran it: which one the Dealer chose is open here
(notes/assumptions/14.md). -/
def State.countSats (s : State) (n : Nat) : State :=
  if n = 0 then s
  else
    let kP := s.takeFree
    let k := kP.1
    let s1 := kP.2
    s1.add (Reg.ENG_SAT_CNT ((Config.freeWord k).toNat % 64)) n

/-- Word W0 of a command record, rule R153. -/
def recordW0 (u : Int) (win : Nat) (sat fe opened miss pass : Bool) : Nat :=
  wrapTo 32 u + 2 ^ 32 * win + 2 ^ 34 * b2n sat + 2 ^ 35 * b2n fe + 2 ^ 36 * b2n opened + 2 ^ 37 * b2n miss + 2 ^ 38 * b2n pass

/-- The command record of an axis in the command set. -/
def State.putRecord (s : State) (a w0 : Nat) (x v t : Int) : State :=
  let b := s.cmdSet s.parity + 32 * a
  (((s.setCell b 8 w0).setCellI (b + 8) 8 x).setCellI (b + 16) 8 v).setCell (b + 24) 8 (wrapTo 32 t)

/-- FE is set, rule R147. -/
def State.followingError (s : State) (a : Nat) : State :=
  ((s.setBit (Reg.LOOP_STAT a) 11 true).inc (Reg.LOOP_FE_CNT a)).event (Page.LOOP a) 0 0

/-- The torque is emitted: LOOP_TRQ, the candidates, the winner and the clamp, rule R142. -/
def State.emitTorque (s : State) (a : Nat) (u : Int) (cands : List (Nat × Int)) (win : Nat) (sat off : Bool) : State :=
  let s1 := forEach (fun p st => st.wrI (Reg.LOOP_CAND a p.1) p.2) cands (s.wrI (Reg.LOOP_TRQ a) u)
  if off then s1
  else
    let s2 := (s1.setFld (Reg.LOOP_STAT a) 9 8 win).inc (Reg.LOOP_WIN_CNT a win)
    if sat then ((s2.setBit (Reg.LOOP_STAT a) 10 true).inc (Reg.LOOP_SAT_CNT a)).event (Page.LOOP a) 1 0 else s2

/-- The states of every stage after the task. -/
def newStages (st : List StageState) (outs : List (Nat × StageOut)) (sg c0 mOut : Int) (miss off : Bool) :
    List StageState × Nat :=
  let one (j : Nat) : StageState × Nat :=
    match (outs.find? (fun p => p.1 == j)).map (fun p => p.2) with
    | none => (st.getD j StageState.zero, 0)
    | some o =>
      if off then (⟨0, 0, o.e, o.y⟩, o.sats)
      else
        let cand := if j ≤ 1 then c0 else o.cand
        let contrib := if j ≤ 1 then sg * o.contrib else o.contrib
        let i := keepInt o cand mOut contrib miss
        (⟨satTo 64 i, satTo 64 o.d, o.e, o.y⟩, o.sats + b2n (decide (satTo 64 i ≠ i)) + b2n (decide (satTo 64 o.d ≠ o.d)))
  let all := (List.range 5).map one
  (all.map (fun p => p.1), (all.map (fun p => p.2)).sum)

/-- Stages of opened loops are cleared, rule R149. -/
def clearOpened (opened : Nat) (st : List StageState) : List StageState :=
  (List.range 5).map (fun j => if opened.testBit (setLoop j) then StageState.zero else st.getD j StageState.zero)

/-- The loop task of axis `a` in one L phase. A t_ff beyond 32 bits is limited and not counted, rule R153 (DEDUCED,
notes/assumptions/151.md). -/
def State.loopTask (s : State) (a : Nat) : State :=
  let en := s.entryAt (s.solEntryAt s.parity a)
  let rd := s.loopRead a
  let rt := s.loopRt a
  let s1 := match rd with
    | some (_, false) => s
    | some (_, true) => ((s.setBit (Reg.LOOP_STAT a) 16 true).inc (Reg.LOOP_STATE_OLD_CNT a)).event (Page.LOOP a) 5 0
    | none => (s.setBit (Reg.LOOP_STAT a) 16 true).event (Page.LOOP a) 5 0
  let copy := rd.map (fun p => p.1)
  let xP := s.loopMeasured a copy
  let x := xP.1
  let v := xP.2.1
  let miss := xP.2.2
  let seen := rt.seen || !miss
  let s2 := if miss then ((s1.setBit (Reg.LOOP_STAT a) 15 true).inc (Reg.LOOP_MISS_CNT a)).event (Page.LOOP a) 4 0 else s1
  let st := clearOpened rt.opened ((copy.map (fun c => c.stages)).getD [])
  let closing := if rd.isNone || !seen then 15 else rt.closed
  let pass := s.fld (Reg.LOOP_CFG a) 1 0 == 1
  let l0 := s.loopOpen a 0
  let sto := !(s.running || s.sys.dev == .safestop) || s.axisSto a
  let outsP := s2.runStages a en x v st miss closing rt.pvRef (Config.modelWord 7 a 0 []).toInt
  let outs := outsP.1
  let sg := outsP.2.1
  let u0 := outsP.2.2
  let off := sto || l0
  let c0 := sg * u0
  let cs := (outs.filter (fun p => decide (2 ≤ p.1))).map (fun p => (p.1 - 1, p.2.cand))
  let winP := select c0 cs
  let win := winP.1
  let m := winP.2
  let tmax := s.rdI (Reg.LOOP_TMAX a)
  let u := if off || !seen then 0 else clampI (-tmax) tmax (sg * m)
  let sat := !off && seen && decide (u ≠ sg * m)
  let stagesP := newStages st outs sg c0 (sg * u) miss off
  let stages := stagesP.1
  let sats := stagesP.2
  let ef := en.x - x
  let n := s.fld (Reg.LOOP_FE_N a) 7 0
  let beyond := decide (s.rdI64 (Reg.LOOP_FE_MAX a) < mag ef) && !sto && !s.hardStopHoming a
  let run := if beyond then ((copy.map (fun c => c.fe)).getD 0) + 1 else 0
  let fe := beyond && decide (n ≤ run)
  let s4 := if fe && !s2.bit (Reg.LOOP_STAT a) 11 then s2.followingError a else s2
  let s5 := (s4.setLoopRt a { rt with opened := 0, closed := 0, seen := seen }).wrI64 (Reg.LOOP_FERR a) ef
  let tff := satTo 32 (rnd ((s.coef a 1).kff * en.a) 40 + en.t)
  if pass then
    let u1 := if off || !seen then 0 else tff
    let s6 := (s5.setLoopCopy a s.parity ⟨stages.map (fun q => { q with i := 0, d := 0 }), x, v, run⟩ s.tick).wrI (Reg.LOOP_TRQ a) u1
    s6.putRecord a (recordW0 u1 0 false fe l0 miss true) en.x en.v tff
  else
    let vc := ((outs.find? (fun p => p.1 == 0)).map (fun p => p.2.cand)).getD 0
    let s6 := ((s5.countSats sats).setLoopCopy a s.parity ⟨stages, x, v, run⟩ s.tick).wrI64 (Reg.LOOP_VCMD a) vc
    (s6.emitTorque a u ((0, c0) :: cs) win sat (off || !seen)).putRecord a
      (recordW0 u (if off || !seen then 0 else win) sat fe l0 miss false) en.x vc tff

/-- FOLLOWING_ERROR: the error has exceeded LOOP_FE_MAX in LOOP_FE_N consecutive ticks, rule R147; without effect where the
task of the L phase has already set FE. -/
def State.followingErrorCmd (s : State) (a : Nat) : State :=
  if s.ticking && s.axisEn a && !s.bit (Reg.LOOP_STAT a) 11 && !s.axisSto a && !s.hardStopHoming a &&
      decide (s.rdI64 (Reg.LOOP_FE_MAX a) < mag (s.rdI64 (Reg.LOOP_FERR a))) &&
      decide (s.fld (Reg.LOOP_FE_N a) 7 0 ≤ (s.loopCopy a s.parity).fe) then s.followingError a
  else s

def execFollowingError (a : Fin 144) (s : State) : Out := .next (s.followingErrorCmd a.val)

/-- A write of 1 to LOOP_STAT.FE clears it only with the group in STO and |e_f| of the last tick within LOOP_FE_MAX, rules
R147 and R433. -/
def State.feClearable (s : State) (a : Nat) : Bool :=
  s.axisSto a && decide (mag (s.rdI64 (Reg.LOOP_FERR a)) ≤ s.rdI64 (Reg.LOOP_FE_MAX a))

end Sys2Proof.Machine
end

