-- ==== Sys2Proof/Machine/Ssm.lean ====
section
/-! DEFINITION. Speed and separation monitoring, rules R175 to R194 (spec/08_separation_monitoring.md). -/

namespace Sys2Proof.Machine

/-! ### Geometry, rules R175, R176 and R182 -/

/-- The sine of the first quadrant at phi = 0 to 2^30, times 2^20: linear between table entries. -/
def quarterSine (phi : Nat) : Int :=
  let a := sineEntry (phi / 1048576)
  a * 1048576 + (sineEntry (phi / 1048576 + 1) - a) * (phi % 1048576 : Nat)

/-- The sine of a 32-bit binary angle, Q2.30, rounded half up once. -/
def sine (th : Int) : Int :=
  let t := wrapTo 32 th
  let phi := t % 1073741824
  let q := t / 1073741824
  let v := if q % 2 = 0 then quarterSine phi else quarterSine (1073741824 - phi)
  rnd (if q < 2 then v else -v) 20

/-- The cosine: the sine a quarter turn ahead (DEDUCED, notes/assumptions/15.md). -/
def cosine (th : Int) : Int := sine (th + 1073741824)

/-- A 3 × 3 matrix, row-major. -/
abbrev M3 := List Int

def M3.at (m : M3) (i j : Nat) : Int := m.getD (3 * i + j) 0

/-- Exact products. -/
def M3.mul (a b : M3) : M3 :=
  (List.range 9).map (fun k => a.at (k / 3) 0 * b.at 0 (k % 3) + a.at (k / 3) 1 * b.at 1 (k % 3) + a.at (k / 3) 2 * b.at 2 (k % 3))

def M3.row (m : M3) (i : Nat) (v : V3) : Int := m.at i 0 * v.x + m.at i 1 * v.y + m.at i 2 * v.z

/-- Matrix times vector, exact. -/
def M3.app (m : M3) (v : V3) : V3 := ⟨m.row 0 v, m.row 1 v, m.row 2 v⟩

/-- The identity in Q2.30. -/
def M3.one : M3 := [1073741824, 0, 0, 0, 1073741824, 0, 0, 0, 1073741824]

def V3.sub (a b : V3) : V3 := ⟨a.x - b.x, a.y - b.y, a.z - b.z⟩
def V3.dot (a b : V3) : Int := a.x * b.x + a.y * b.y + a.z * b.z
def V3.map (f : Int → Int) (a : V3) : V3 := ⟨f a.x, f a.y, f a.z⟩

/-- a + b. -/
def V3.add (a b : V3) : V3 := ⟨a.x + b.x, a.y + b.y, a.z + b.z⟩

/-- The floor of a square root below 2^64, bit by bit. -/
def sqrtFloor (n : Nat) : Nat :=
  (List.range 64).foldl (fun r i => if (r + 2 ^ (63 - i)) * (r + 2 ^ (63 - i)) ≤ n then r + 2 ^ (63 - i) else r) 0

/-- The square root rounded up to a whole number. -/
def sqrtCeil (n : Nat) : Nat := if sqrtFloor n * sqrtFloor n = n then sqrtFloor n else sqrtFloor n + 1

/-- An exact quotient clamped to 0 … 1 and rounded half up to 16 fraction bits. -/
def param (n d : Int) : Int := clampI 0 65536 (ratioRound (n * 65536) d)

/-- The closest points of two segments by the clamped segment method, rule R182: both parameters, 16 fraction bits. -/
def closest (p1 q1 p2 q2 : V3) : Int × Int :=
  let d1 := q1.sub p1
  let d2 := q2.sub p2
  let r := p1.sub p2
  let a := d1.dot d1
  let e := d2.dot d2
  let f := d2.dot r
  let c := d1.dot r
  let b := d1.dot d2
  if a = 0 ∧ e = 0 then (0, 0)
  else if a = 0 then (0, param f e)
  else if e = 0 then (param (-c) a, 0)
  else
    let den := a * e - b * b
    let s := if den = 0 then 0 else param (b * f - c * e) den
    let tn := b * s + f * 65536
    if tn < 0 then (param (-c) a, 0)
    else if e * 65536 < tn then (param (b - c) a, 65536)
    else (s, ratioRound tn e)

/-- The vector from c_a to c_b in 2^-16 µm. -/
def gapVector (p1 q1 p2 q2 : V3) (st : Int × Int) : V3 :=
  let ca := (p1.map (· * 65536)).add ((q1.sub p1).map (· * st.1))
  let cb := (p2.map (· * 65536)).add ((q2.sub p2).map (· * st.2))
  cb.sub ca

/-- A capsule as built in a tick: number, end points in the cell frame, radius, v_c and v_ref. -/
structure Cap where
  i : Nat
  p0 : V3
  p1 : V3
  r : Int
  vc : Int
  vref : Int
  deriving DecidableEq, Repr

/-- The separation d, µm, rule R182. -/
def separation (p0 p1 : V3) (r : Int) (o0 o1 : V3) (ro : Int) : Int :=
  let v := gapVector p0 p1 o0 o1 (closest p0 p1 o0 o1)
  (sqrtFloor (v.dot v).toNat / 65536 : Nat) - r - ro

/-! ### The tables, rule R176 -/

/-- Word w of kinematic entry e (17 g + j), and of capsule i. -/
def State.kinW (s : State) (e w : Nat) : Word := Tab.get (fun _ => 0) s.ssm.kin (16 * e + w)
def State.capW (s : State) (i w : Nat) : Word := Tab.get (fun _ => 0) s.ssm.cap (12 * i + w)

/-- Three table words as a point. -/
def point (f : Nat → Word) (w : Nat) : V3 := ⟨(f w).toInt, (f (w + 1)).toInt, (f (w + 2)).toInt⟩

/-- The frame of a kinematic entry: rotation W3 to W11 and translation W12 to W14. -/
def State.kinFrame (s : State) (e : Nat) : M3 × V3 :=
  ((List.range 9).map (fun k => (s.kinW e (3 + k)).toInt), point (s.kinW e) 12)

/-- Capsule i is enabled. -/
def State.capEn (s : State) (i : Nat) : Bool := (s.capW i 0).getLsbD 8 && s.groupEn (i / 10)

/-! ### FRONT, rules R176 to R178 -/

/-- The joint motion of an entry for the scaled position q: rotation and translation. -/
def jointMotion (typ : Nat) (q : Int) : M3 × V3 :=
  match typ with
  | 0 => ([cosine q, -(sine q), 0, sine q, cosine q, 0, 0, 0, 1073741824], ⟨0, 0, 0⟩)
  | 1 => (M3.one, ⟨0, 0, satTo 32 q⟩)
  | _ => (M3.one, ⟨0, 0, 0⟩)

/-- f(j+1) = f(j) × jm × t(j): exact products, each element rounded once. -/
def nextFrame (f jm t : M3 × V3) : M3 × V3 :=
  let rj := M3.mul f.1 jm.1
  let rot := (M3.mul rj t.1).map (fun x => satTo 32 (rnd x 60))
  let tr := ((rj.app t.2).add ((f.1.app jm.2).map (· * 1073741824))).add (f.2.map (· * 1073741824 * 1073741824))
  (rot, tr.map (fun x => satTo 32 (rnd x 60)))

/-- The last valid position of an axis as the unit holds it. -/
def State.ssmPos (s : State) (a : Nat) : Int := ((s.ssm.pos.find? (fun p => p.1 == a)).map (fun p => p.2)).getD 0

/-- The frames f(0) to f(members) of a group. -/
def State.ssmFrames (s : State) (g : Nat) : List (M3 × V3) :=
  let step (acc : List (M3 × V3)) (j : Nat) : List (M3 × V3) :=
    let e := 17 * g + j + 1
    let w0 := (s.kinW e 0).toNat
    let k := signedOf 64 ((s.kinW e 1).toNat + 4294967296 * (s.kinW e 2).toNat)
    let q := rnd (s.ssmPos (w0 % 256) * k) 48
    acc ++ [nextFrame (acc.getLastD (M3.one, ⟨0, 0, 0⟩)) (jointMotion (bitsOf w0 9 8) q) (s.kinFrame e)]
  (List.range (s.members g).length).foldl step [s.kinFrame (17 * g)]

/-- The joint data of a group in this tick: valid positions are taken, and any invalid one makes the group miss. -/
def State.ssmJoints (s : State) (g : Nat) : State :=
  let axes := (List.range (s.members g).length).map (fun j => (s.kinW (17 * g + j + 1) 0).toNat % 256)
  let s1 := forEach (fun a st =>
    let xP := st.measured a
    let x := xP.1
    let ok := xP.2.2
    if ok then { st with ssm := { st.ssm with pos := Tab.insert a x (Tab.erase a st.ssm.pos) } } else st) axes s
  let miss := axes.any (fun a => !(s.measured a).2.2)
  let m := if miss then ((s.ssm.jm.find? (fun p => p.1 == g)).map (fun p => p.2)).getD 0 + 1 else 0
  let s2 := { s1 with ssm := { s1.ssm with jm := Tab.insert g m (Tab.erase g s1.ssm.jm) } }
  if miss then s2.inc Reg.SSM_JMISS_CNT else s2

/-- Ticks with missing joint data of a group. -/
def State.jointRun (s : State) (g : Nat) : Nat := ((s.ssm.jm.find? (fun p => p.1 == g)).map (fun p => p.2)).getD 0

/-- A capsule in the cell frame, with its measured speed (rule R177) and the enlargement of rule R178. -/
def State.buildCap (s : State) (frames : List (M3 × V3)) (i : Nat) : Cap :=
  let f := frames.getD ((s.capW i 0).toNat % 32) (M3.one, ⟨0, 0, 0⟩)
  let put (w : Nat) : V3 := ((f.1.app (point (s.capW i) w)).add (f.2.map (· * 1073741824))).map (fun x => satTo 32 (rnd x 30))
  let a := put 1
  let b := put 4
  let vref := (s.capW i 8).toNat
  let m := s.jointRun (i / 10)
  let dist (u v : V3) : Nat := sqrtCeil ((u.sub v).dot (u.sub v)).toNat
  let vc := match s.ssm.ends.find? (fun p => p.1 == i) with
    | some (_, u, v) => if s.ssm.known.testBit (i / 10) || 0 < m then max (dist a u) (dist b v) else vref
    | none => vref
  ⟨i, a, b, (s.capW i 7).toNat + vref * m, vc, vref⟩

/-- The capsules of every enabled group in this tick. -/
def State.buildCaps (s : State) : List Cap :=
  s.groups.flatMap (fun g =>
    let fr := s.ssmFrames g
    ((List.range 10).filter (fun n => s.capEn (10 * g + n))).map (fun n => s.buildCap fr (10 * g + n)))

/-! ### Sources, rules R179 and R180 -/

/-- An object record at a byte offset of cell memory. -/
def State.objRec (s : State) (b : Nat) : ObjRec :=
  let pt (o : Nat) : V3 := ⟨s.cellI32 (b + o), s.cellI32 (b + o + 4), s.cellI32 (b + o + 8)⟩
  let fl := s.cellN (b + 34) 2
  ⟨pt 0, if fl.testBit 1 then pt 12 else pt 0, s.cell32 (b + 24), s.cell32 (b + 28), s.cellN (b + 32) 2, fl, s.cell32 (b + 36)⟩

/-- A record's bytes are in range. -/
def ObjRec.sane (o : ObjRec) : Bool :=
  decide (o.r < 2147483648) && decide ((o.p1.sub o.p0).dot (o.p1.sub o.p0) ≤ 2 ^ 62)

/-- Fields of SSM_HEAD_h in force: EN, KIND, FIRST, COUNT and Z_D. -/
def State.headEn (s : State) (h : Nat) : Bool := s.effFld (Reg.SSM_HEAD h) 0 0 == 1
def State.headRemote (s : State) (h : Nat) : Bool := s.effFld (Reg.SSM_HEAD h) 1 1 == 1
def State.headFirst (s : State) (h : Nat) : Nat := s.effFld (Reg.SSM_HEAD h) 15 10
def State.headCount (s : State) (h : Nat) : Nat := s.effFld (Reg.SSM_HEAD h) 21 16
def State.headZd (s : State) (h : Nat) : Nat := (s.eff (Reg.SSM_HEAD h + 4)).toNat

/-- The node whose area holds a source's records, rule R289: on a port in node role the master end, 0xFE, of which NODE holds the low six bits
(DEDUCED, notes/assumptions/140.md), delivers into the area of the port's own address. -/
def State.headNode (s : State) (h : Nat) : Nat :=
  let p := s.effFld (Reg.SSM_HEAD h) 3 2
  let n := s.effFld (Reg.SSM_HEAD h) 9 4
  if n = 0x3E ∧ (s.rcf p (Reg.RNG_CTRL p)).getLsbD 1 then s.rcFld p (Reg.RNG_CTRL p) 21 16 else n

/-- The node area of the gather buffer that a source's slot fills. -/
def State.headArea (s : State) (h : Nat) : Nat :=
  s.gath s.parity + 0x2400 + 0x800 * (64 * s.effFld (Reg.SSM_HEAD h) 3 2 + s.headNode h)

/-- SSM_CTRL fields in force. -/
def State.ssmEn (s : State) : Bool := (s.eff Reg.SSM_CTRL).getLsbD 0
def State.missN (s : State) : Nat := s.effFld Reg.SSM_CTRL 7 4
def State.clearN (s : State) : Nat := s.effFld Reg.SSM_CTRL 15 8
def State.ageMax (s : State) : Nat := s.effFld Reg.SSM_CTRL 23 16
def State.rmtAgeMax (s : State) : Nat := s.effFld Reg.SSM_CTRL 31 24

/-- What the unit holds of a source. -/
def State.ssmSrc (s : State) (h : Nat) : SsmSrc := ((s.ssm.src.find? (fun p => p.1 == h)).map (fun p => p.2)).getD ⟨[], 0, false, false, none⟩

/-- The age of a record at the boundary, ns. -/
def State.recAge (s : State) (o : ObjRec) : Nat := wrapTo 32 ((s.rd64 Reg.QTZ_LAST_TICK : Int) - o.ts)

/-- One source in one tick: usable, missed by age, or missed by an absent or malformed record. -/
def State.sourceTick (s : State) (h : Nat) : State :=
  let b := s.headArea h
  let n := s.headCount h
  let recs := (List.range n).map (fun k => s.objRec (b + 16 + 40 * k))
  let valid := recs.filter (fun o => o.flags.testBit 0)
  let bad := !(s.cell32 b).testBit 0 || s.ueIn 0x80 b (16 + 40 * n) || valid.any (fun o => !o.sane)
  let lim := (if s.headRemote h then s.rmtAgeMax else s.ageMax) * s.tTick
  let stale := recs.any (fun o => decide (lim < s.recAge o))
  let old := s.ssmSrc h
  let x : SsmSrc :=
    if bad || stale then { old with miss := if old.ever then old.miss + 1 else s.missN }
    else
      let newest := (valid.map (fun o => s.recAge o)).min?
      ⟨recs, 0, true, false, match newest with
        | some a => some (s.rd64 Reg.QTZ_LAST_TICK - a)
        | none => old.newest⟩
  let reach := decide (s.missN ≤ x.miss) && !x.hit && (bad || stale)
  let x1 := if reach then { x with hit := true } else x
  let s1 := if bad then s.inc Reg.SSM_INVAL_CNT else if stale then s.inc Reg.SSM_STALE_CNT else s
  let s2 := if reach then ((s1.setBit Reg.SSM_STAT 1 true).inc Reg.SSM_HEAD_MISS_CNT).event Page.SSM 2 0 else s1
  let age := match x1.newest with
    | some t => min ((s.rd64 Reg.QTZ_LAST_TICK - t) / 1000) 0xFFFF
    | none => 0
  let s3 := s2.wrN (Reg.SSM_HEAD_STAT h) (age + 65536 * min x1.miss 255)
  { s3 with ssm := { s3.ssm with src := Tab.insert h x1 (Tab.erase h s3.ssm.src) } }

/-- The enabled sources. -/
def State.heads (s : State) : List Nat := (List.range 8).filter (fun h => s.headEn h)

/-- A group watches a source: a sensor head of its HEAD_MASK, or a remote cell it exchanges with, rule R181. -/
def State.watches (s : State) (g h : Nat) : Bool :=
  if s.headRemote h then s.effFld (Reg.SSM_GRP g) 10 10 == 1 else (s.eff (Reg.SSM_GRP g)).getLsbD h

/-! ### Protective distances, rules R183 to R187: exact, as quotients -/

/-- (c2 v² + c1 v + c0) / d with d above 0. -/
structure Quad where
  d : Int
  c2 : Int
  c1 : Int
  c0 : Int
  deriving DecidableEq, Repr

/-- Its numerator at v. -/
def Quad.num (q : Quad) (v : Int) : Int := q.c2 * v * v + q.c1 * v + q.c0

/-- Group parameters in force. -/
def State.aS (s : State) (g : Nat) : Int := (max 1 (s.eff (Reg.SSM_GRP g + 8)).toNat : Nat)
def State.zR (s : State) (g : Nat) : Int := ((s.eff (Reg.SSM_GRP g + 12)).toNat : Nat)
def State.margin (s : State) (g : Nat) : Int := ((s.eff (Reg.SSM_GRP g + 16)).toNat : Nat)
def State.tDrv (s : State) (g : Nat) : Int := (s.effFld (Reg.SSM_GRP g) 23 16 : Nat)

/-- v × T_rr + S_s(v) + Z_R of a group, rule R184. -/
def State.stopQuad (s : State) (g : Nat) : Quad :=
  let a := s.aS g
  ⟨2 * a, 65536, 2 * a * (1 + s.tDrv g), 2 * a * s.zR g⟩

/-- S_p of a capsule of group g and a sensed volume, rule R183. -/
def State.sensedQuad (s : State) (g h : Nat) (o : ObjRec) : Quad :=
  let a := s.aS g
  let cls := bitsOf o.flags 3 2
  let vh : Int := (max o.vo (s.effFld (Reg.SSM_VH cls) 15 0) : Nat)
  let tr := s.ageMax + 1 + s.tDrv g
  let zd : Int := (max o.add (s.headZd h) : Nat)
  ⟨2 * a, 65536, 2 * vh * 65536 + 2 * a * tr, 2 * a * (vh * tr + (s.eff (Reg.SSM_C cls)).toNat + zd + s.zR g)⟩

/-- S_p of a capsule of group g and a remote capsule, rule R185. -/
def State.remoteQuad (s : State) (g : Nat) (o : ObjRec) : Quad :=
  let a := s.aS g
  ⟨2 * a, 65536, 2 * a * (1 + s.tDrv g), 2 * a * (o.vo * s.rmtAgeMax + o.add + s.zR g)⟩

/-- S_p of a robot pair as a function of the first capsule's speed, with the other at speed w, rule R184. -/
def Quad.withOther (q o : Quad) (w : Int) : Quad := ⟨q.d * o.d, q.c2 * o.d, q.c1 * o.d, q.c0 * o.d + o.num w * q.d⟩

/-- The largest whole speed v with S_p(v) ≤ lim; 0 where there is none, rule R187. -/
def Quad.allow (q : Quad) (lim : Int) : Int :=
  (List.range 32).foldl (fun v i => if q.num (v + 2 ^ (31 - i)) ≤ lim * q.d then v + 2 ^ (31 - i) else v) 0

/-- One pair seen from a group's capsule: the other's number, d, S_p at the measured speeds as a quotient, the v_allow it
contributes (if any), and whether a coding mismatch makes it violated. -/
structure Pair where
  cap : Nat
  other : Nat
  d : Int
  num : Int
  den : Int
  allow : Option Int
  vref : Int
  forced : Bool
  deriving DecidableEq, Repr

/-- FRONT of a group mismatched. -/
def frontBad (ms : List CodeMismatch) (g : Nat) : Bool :=
  ms.any (fun m => match m with
    | .front x => x.val == g
    | _ => false)

/-- A pair of a capsule and an object, and of two capsules, mismatched. -/
def objBad (ms : List CodeMismatch) (c o : Nat) : Bool :=
  ms.any (fun m => match m with
    | .object x y => x.val == c && y.val == o
    | _ => false)
def capsBad (ms : List CodeMismatch) (c o : Nat) : Bool :=
  ms.any (fun m => match m with
    | .capsules x y => (x.val == c && y.val == o) || (x.val == o && y.val == c)
    | _ => false)

/-- The pairs of capsule c with the slots of source h: empty slots are not tested. -/
def State.objectPairs (s : State) (ms : List CodeMismatch) (c : Cap) (h : Nat) : List Pair :=
  let g := c.i / 10
  let x := s.ssmSrc h
  ((List.range x.recs.length).zip x.recs).filterMap (fun (k, o) =>
    if o.flags.testBit 0 then
      let grow := (max o.vo (s.effFld (Reg.SSM_VH (bitsOf o.flags 3 2)) 15 0)) * x.miss
      let d := separation c.p0 c.p1 c.r o.p0 o.p1 (o.r + grow)
      let q := if s.headRemote h then s.remoteQuad g o else s.sensedQuad g h o
      some ⟨c.i, s.headFirst h + k, d, q.num c.vc, q.d, some (q.allow (d - s.margin g)), c.vref,
        frontBad ms g || objBad ms c.i (s.headFirst h + k)⟩
    else none)

/-- The pair of capsule c with capsule o of another group; it contributes a v_allow only where c's group is not solved. -/
def State.robotPair (s : State) (ms : List CodeMismatch) (c o : Cap) : Pair :=
  let g := c.i / 10
  let h := o.i / 10
  let d := separation c.p0 c.p1 c.r o.p0 o.p1 o.r
  let q := (s.stopQuad g).withOther (s.stopQuad h) o.vc
  let qa := (s.stopQuad g).withOther (s.stopQuad h) o.vref
  ⟨c.i, o.i, d, q.num c.vc, q.d, if s.solved g then none else some (qa.allow (d - s.margin g)), c.vref,
   frontBad ms g || frontBad ms h || capsBad ms c.i o.i⟩

/-- Bit h of GPAIR of group g. -/
def State.gpair (s : State) (g h : Nat) : Bool := (s.eff (Reg.SSM_GRP g + 4)).getLsbD h

/-- Every pair of a group. -/
def State.groupPairs (s : State) (ms : List CodeMismatch) (caps : List Cap) (g : Nat) : List Pair :=
  (caps.filter (fun c => c.i / 10 == g)).flatMap (fun c =>
    (s.heads.filter (fun h => s.watches g h)).flatMap (fun h => s.objectPairs ms c h) ++
      (caps.filter (fun o => o.i / 10 != g && s.gpair g (o.i / 10))).map (fun o => s.robotPair ms c o))

/-- N_P, rule R181: slots of every watched source, and each pair of two groups' capsules once. -/
def State.pairCount (s : State) : Nat :=
  let caps := (List.range 160).filter (fun i => s.capEn i)
  (caps.map (fun i =>
    ((s.heads.filter (fun h => s.watches (i / 10) h)).map (fun h => s.headCount h)).sum +
      (caps.filter (fun j => decide (i / 10 < j / 10) && s.gpair (i / 10) (j / 10))).length)).sum

/-! ### Verdicts and demands, rules R186 to R188 -/

/-- A pair is violated; in warning; and clear with hysteresis. -/
def Pair.violated (p : Pair) : Bool := p.forced || decide (p.d < 0) || decide (p.d * p.den < p.num)
def Pair.warn (p : Pair) (margin : Int) : Bool := decide ((p.d - margin) * p.den < p.num)
def Pair.clear (p : Pair) (hyst : Int) : Bool := !p.forced && decide (p.num + hyst * p.den ≤ p.d * p.den)

/-- The nearest pair: the least d, then the lowest capsule, then the lowest object or capsule. -/
def nearest : List Pair → Option Pair
  | [] => none
  | p :: t =>
    match nearest t with
    | none => some p
    | some q => if p.d < q.d ∨ (p.d = q.d ∧ (p.cap < q.cap ∨ (p.cap = q.cap ∧ p.other ≤ q.other))) then some p else some q

/-- V_ALLOW of a group: the least contribution. -/
def vAllow (ps : List Pair) : Int := ps.foldl (fun m p => min m (p.allow.getD 0xFFFFFFFF)) 0xFFFFFFFF

/-- σ of a group before its stop demand: floor(v_allow × 2^15 / v_ref), at most 1.0. -/
def sigmaOf (ps : List Pair) : Int :=
  ps.foldl (fun m p => match p.allow with
    | some v => if p.vref = 0 then m else min m (v * 32768 / p.vref)
    | none => m) 0x8000

/-- A head or a remote cell that a group depends on has missed MISS_N ticks, rule R180. -/
def State.headDemand (s : State) (g : Nat) : Bool :=
  s.heads.any (fun h => s.watches g h && decide (s.missN ≤ (s.ssmSrc h).miss))

/-- Joint data have been missing for MISS_N ticks, rule R178. -/
def State.jointDemand (s : State) (g : Nat) : Bool := s.groupEn g && decide (s.missN ≤ s.jointRun g)

/-- The clearing run of a group. -/
def State.clearRun (s : State) (g : Nat) : Nat := ((s.ssm.run.find? (fun p => p.1 == g)).map (fun p => p.2)).getD 0

/-- Write a group's violation demand and clearing run. -/
def State.setViol (s : State) (g : Nat) (v : Bool) (n : Nat) : State :=
  { s with ssm := { s.ssm with
      viol := withBits s.ssm.viol g g (b2n v)
      run := Tab.insert g n (Tab.erase g s.ssm.run) } }

/-- The causes of a demand of a group under rules R178 and R180 as they stand: source h, bit h, and its own joint data, bit 8. -/
def State.missCauses (s : State) (g : Nat) : Nat :=
  (s.heads.filter (fun h => s.watches g h && decide (s.missN ≤ (s.ssmSrc h).miss))).foldl (fun m h => m ||| (1 <<< h))
    (256 * b2n (s.jointDemand g))

/-- One of them did not stand in the last S phase. -/
def State.newMiss (s : State) (g : Nat) : Bool :=
  (List.range 9).any (fun c => (s.missCauses g).testBit c && !(bitsOf s.ssm.missDem (9 * g + 8) (9 * g)).testBit c)

/-- The demand of rule R186 and its clearing, rule R188: a violated pair sets it and restarts the run, and so does a new
cause in the tick in which it would clear, rule R194. -/
def State.judgeGroup (s : State) (g : Nat) (ps : List Pair) : State :=
  if ps.any Pair.violated then s.setViol g true 0
  else if s.ssm.viol.testBit g then
    let n := if ps.all (fun p => p.clear (s.eff Reg.SSM_HYST).toNat) then s.clearRun g + 1 else 0
    if n < s.clearN then s.setViol g true n else if s.newMiss g then s.setViol g true 0 else s.setViol g false 0
  else s

/-- The stop demand of a group as the causes stand. -/
def State.demandNow (s : State) (g : Nat) : Bool :=
  s.ssm.viol.testBit g || s.jointDemand g || s.headDemand g || !s.ssmEn

/-- A stop demand newly set counts and raises an event. -/
def State.setDemand (s : State) (g : Nat) (d : Bool) : State :=
  let s1 := { s with ssm := { s.ssm with
      dem := withBits s.ssm.dem g g (b2n d)
      missDem := withBits s.ssm.missDem (9 * g + 8) (9 * g) (s.missCauses g) } }
  if d && !s.ssm.dem.testBit g then (s1.inc Reg.SSM_STOP_CNT).event Page.SSM 0 0 else s1

/-- The commissioning mode, rule R209. -/
def State.commission (s : State) : Bool := (s.eff Reg.SAF_CTRL).getLsbD 1

/-- A group's entry of the limit set and its status, rules R187, R189 and R194. -/
def State.putLimit (s : State) (g : Nat) (ps : List Pair) : State :=
  let dem := s.ssm.dem.testBit g
  let miss := decide (0 < s.jointRun g)
  let head := s.headDemand g
  let warn := ps.any (fun p => p.warn (s.margin g))
  let sg := if dem then 0 else (sigmaOf ps).toNat
  let kind := s.effFld (Reg.SSM_GRP g) 8 8
  let dP : Int × Nat × Nat := match nearest ps with
    | some p => (satTo 32 p.d, p.cap, p.other)
    | none => (2147483647, 0xFF, 0xFF)
  let d := dP.1
  let cap := dP.2.1
  let oth := dP.2.2
  let s1 := s.wrN (Reg.SSM_GRP_STAT g) (sg + 65536 * b2n dem + 131072 * b2n warn + 262144 * b2n miss + 524288 * b2n head + 16777216 * cap)
  let s2 := s1.wrI (Reg.SSM_GRP_STAT g + 4) d
  let b := s.lim s.parity + 0x10 + 16 * g
  let com := s.commission
  let w := (if com then 0x8000 else sg + 65536 * b2n dem + 262144 * b2n warn) + 131072 * kind + 524288 * b2n miss + 1048576 * b2n head
  let va : Nat := if com then 0xFFFFFFFF else (vAllow ps).toNat
  (((s2.setCell b 4 w).setCell (b + 4) 4 va).setCellI (b + 8) 4 d).setCell (b + 12) 4 (cap + 256 * oth)

/-- A coupling entry of the limit set, rule R189. -/
def State.putCpl (s : State) (caps : List Cap) (r : Nat) : State :=
  let b := s.lim s.parity + 0x110 + 32 * r
  let w := (s.eff (Reg.SSM_CPL r)).toNat
  match w.testBit 16, caps.find? (fun c => c.i == w % 256), caps.find? (fun c => c.i == w / 256 % 256) with
  | true, some x, some y =>
    let st := closest x.p0 x.p1 y.p0 y.p1
    let v := gapVector x.p0 x.p1 y.p0 y.p1 st
    let n : Int := (sqrtFloor (v.dot v).toNat : Nat)
    let q := (s.stopQuad (x.i / 10)).withOther (s.stopQuad (y.i / 10)) y.vc
    let dmin := -((-(q.num x.vc)) / q.d) + max (s.margin (x.i / 10)) (s.margin (y.i / 10))
    let u (e : Int) : Int := if n = 0 then 0 else satTo 32 (ratioRound (e * 1073741824) n)
    let s1 := (s.setCellI b 4 (satTo 32 (separation x.p0 x.p1 x.r y.p0 y.p1 y.r))).setCellI (b + 4) 4 (satTo 32 dmin)
    let s2 := ((s1.setCellI (b + 8) 4 (u v.x)).setCellI (b + 12) 4 (u v.y)).setCellI (b + 16) 4 (u v.z)
    ((s2.setCell (b + 20) 4 ((min st.1 65535).toNat + 65536 * (min st.2 65535).toNat)).setCell (b + 24) 4 1).setCell (b + 28) 4 0
  | _, _, _ => s.clearCell b 32

/-! ### Exports, rule R193 -/

/-- The record that a capsule exports. -/
def State.exportRec (s : State) (c : Cap) : ObjRec :=
  let g := c.i / 10
  let sg : Int := (s.fld (Reg.SSM_GRP_STAT g) 15 0 : Nat)
  let sv := -((-(sg * c.vref)) / 32768)
  let vo := min 0xFFFF (max c.vc sv)
  let q := s.stopQuad g
  ⟨c.p0, c.p1, c.r.toNat, wrapTo 32 (-((-(q.num vo)) / q.d)), vo.toNat, 3, s.rd64 Reg.QTZ_LAST_TICK % 4294967296⟩

/-! ### The pass, rules R191, R192 and R194 -/

/-- SSM_CYC_LAST at 500 MHz, rule R191: the pair tests take two cycles each on 16 lanes; what FRONT and WRITE take depends
on the configuration alone and stays within 2.5 and 0.8 us. -/
def State.ssmCycles (s : State) : State :=
  let shape := (List.range 160).filter (fun i => s.capEn i) ++ s.groups.flatMap (fun g => [g, (s.members g).length])
  let n := 2 * ((s.pairCount + 15) / 16) + (Config.cycles 1 shape).toNat % 1251 + (Config.cycles 2 shape).toNat % 401
  let s2 := s.wrN Reg.SSM_CYC_LAST n
  s2.wrN Reg.SSM_CYC_MAX (max (s2.rdN Reg.SSM_CYC_MAX) n)

/-- CODE_MISMATCH, rule R192: every mismatch counts. -/
def State.codeErr (s : State) (ms : List CodeMismatch) : State :=
  if ms.isEmpty then s else ((s.setBit Reg.SSM_STAT 0 true).add Reg.SSM_CODE_ERR_CNT ms.length).event Page.SSM 1 0

/-- The lane test of rule R220: tick k tests lane k mod 16 (DESIGN CHOICE, notes/assumptions/128.md). -/
def State.laneTest (s : State) (bad : Bool) : State :=
  if s.ssmEn then
    { s with ssm := { s.ssm with laneBad := withBits s.ssm.laneBad (s.tick % 16) (s.tick % 16) (b2n bad) } }
  else s

/-- The eight pairs that the compare record of tick k takes from the pair list of group k mod 16, in rotation, rule R219. -/
def pairSample (k : Nat) (ps : List Pair) : List PairSample :=
  let i := 8 * (k / 16) % max ps.length 1
  ((ps.drop i ++ ps.take i).take 8).map (fun p => ⟨p.cap, p.other, p.d, p.violated⟩)

/-- The S phase of the separation unit. -/
def State.separationPass (s : State) (ms : List CodeMismatch) : State :=
  let s1 := if s.ssmEn then forEach (fun g st => st.ssmJoints g) s.groups s else s
  let s2 := if s.ssmEn then forEach (fun h st => st.sourceTick h) s.heads s1 else s1
  let caps := if s.ssmEn then s2.buildCaps else []
  let pairs (g : Nat) : List Pair := if s.ssmEn then s2.groupPairs ms caps g else []
  let s3 := forUpTo (fun g st =>
    let st1 := st.judgeGroup g (pairs g)
    (st1.setDemand g (st1.demandNow g)).putLimit g (pairs g)) 16 (if s.ssmEn then s2.codeErr ms else s2)
  let s4 := forUpTo (fun r st => st.putCpl caps r) 48 s3
  let ex := (caps.filter (fun c => (s.capW c.i 0).getLsbD 9)).map (fun c => s4.exportRec c)
  let known := (s.groups.filter (fun g => s4.jointRun g == 0)).foldl (fun m g => m ||| (1 <<< g)) 0
  let s5 := { s4 with ssm := { s4.ssm with ends := caps.map (fun (c : Cap) => (c.i, c.p0, c.p1)), known := known, exports := ex, sample := pairSample s.tick (pairs (s.tick % 16)) } }
  let s6 := ((s5.setBit Reg.SSM_STAT 3 (decide (s5.ssm.dem ≠ 0))).setBit Reg.SSM_STAT 4 s.commission).setFld Reg.SSM_STAT 31 16 s.pairCount
  let b := s.lim s.parity
  let hdr := 1 + 2 * b2n (s.ssmEn && !ms.isEmpty) + 4 * b2n s.commission
  ((s6.setCell (b + 8) 8 hdr).setCell b 8 s.tick).ssmCycles

/-- Entry to SELFTEST: no source has been usable since, and no speed is known, rules R177 and R180; the last valid positions and records,
the runs of missed ticks and the demands stay. -/
def State.ssmSelftest (s : State) : State :=
  { s with ssm := { s.ssm with ends := [], known := 0, src := s.ssm.src.map (fun p => (p.1, { p.2 with ever := false, hit := false })) } }

/-- A demand that a command of its own sets or clears shows in the limit set of the tick as well. -/
def State.restateDemand (s : State) (g : Nat) : State :=
  let s1 := s.setDemand g (s.demandNow g)
  let dem := s1.ssm.dem.testBit g
  let b := s.lim s.parity + 0x10 + 16 * g
  let s2 := (s1.setBit (Reg.SSM_GRP_STAT g) 16 dem).setBit Reg.SSM_STAT 3 (decide (s1.ssm.dem ≠ 0))
  let s3 := if dem then s2.setFld (Reg.SSM_GRP_STAT g) 15 0 0 else s2
  if s.commission || !dem then s3 else s3.setCell b 4 (withBits (withBits (s3.cell32 b) 15 0 0) 16 16 1)

/-- JOINT_MISS_STOP: joint data have been missing for MISS_N ticks, rule R178; it adds nothing to a demand that the S phase
has set. -/
def State.jointMissStop (s : State) (g : Nat) : State := if s.ticking && s.jointDemand g then s.restateDemand g else s

def execJointMissStop (g : Fin 16) (s : State) : Out := .next (s.jointMissStop g.val)

/-- SOURCE_MISS_STOP: a source has been missing for MISS_N ticks; every group that watches it gets the demand, rule R180. -/
def State.sourceMissStop (s : State) (h : Nat) : State :=
  if s.ticking && s.headEn h && decide (s.missN ≤ (s.ssmSrc h).miss) then
    forEach (fun g st => if st.watches g h then st.restateDemand g else st) s.groups s
  else s

def execSourceMissStop (h : Fin 8) (s : State) : Out := .next (s.sourceMissStop h.val)

/-- STOP_DEMAND_CLEAR: the clearing condition has held for CLEAR_N ticks and no other cause stands, rule R188. -/
def State.stopDemandClear (s : State) (g : Nat) : State :=
  if s.ticking && decide (s.clearN ≤ s.clearRun g) then (s.setViol g false 0).restateDemand g
  else if s.ticking && !s.demandNow g then s.restateDemand g else s

def execStopDemandClear (g : Fin 16) (s : State) : Out := .next (s.stopDemandClear g.val)

end Sys2Proof.Machine
end

