-- ==== Sys2Proof/Machine/SafetyLogic.lean ====
section
/-! DEFINITION. Channel A's C phase: safe inputs, causes, group states, release, the checked command set and the safe outputs,
rules R197 to R213 and R262 (spec/09_safety.md and spec/10_ring_protocol.md). -/

namespace Sys2Proof.Machine

/-! ### Access -/

def State.safIn (s : State) (f : Nat) : SafIn := Tab.get (fun _ => SafIn.reset) s.saf.ins f
def State.setSafIn (s : State) (f : Nat) (x : SafIn) : State :=
  { s with saf := { s.saf with ins := Tab.set (fun _ => SafIn.reset) s.saf.ins f x } }
def State.safGroup (s : State) (g : Nat) : SafGroup := Tab.get (fun _ => SafGroup.reset) s.saf.groups g
def State.setSafGroup (s : State) (g : Nat) (x : SafGroup) : State :=
  { s with saf := { s.saf with groups := Tab.set (fun _ => SafGroup.reset) s.saf.groups g x } }

/-- The state codes of rule R197. -/
def stOper : Nat := 0
def stSs2 : Nat := 1
def stSos : Nat := 2
def stSs1 : Nat := 3
def stSto : Nat := 4

/-- The stop code of a state. -/
def stopCode (st : Nat) : Nat :=
  match st with
  | 0 => 0
  | 1 => 2
  | 2 => 2
  | 3 => 1
  | _ => 3

/-- Strength of a state and of a demanded function: STO, SS1, SS2. -/
def stRank (st : Nat) : Nat :=
  match st with
  | 0 => 0
  | 1 => 1
  | 2 => 1
  | 3 => 2
  | _ => 3

/-- Words of the axis and zone tables. -/
def State.axW (s : State) (a w : Nat) : Word := Tab.get (fun _ => 0) s.saf.axis (16 * a + w)
def State.axI64 (s : State) (a w : Nat) : Int := signedOf 64 ((s.axW a w).toNat + 4294967296 * (s.axW a (w + 1)).toNat)
def State.zoneW (s : State) (z w : Nat) : Word := Tab.get (fun _ => 0) s.saf.zone (8 * z + w)

/-- V_SS, D_MON and SOS_PTOL of an axis. -/
def State.vSs (s : State) (a : Nat) : Int := s.axI64 a 12
def State.dMon (s : State) (a : Nat) : Int := s.axI64 a 10
def State.sosTol (s : State) (a : Nat) : Int := s.axI64 a 14

/-- Fields of SAF_IN_f in force. -/
def State.inKind (s : State) (f : Nat) : Nat := s.effFld (Reg.SAF_IN f) 2 0
def State.inAnti (s : State) (f : Nat) : Bool := s.effFld (Reg.SAF_IN f) 3 3 == 1
def State.inAck (s : State) (f : Nat) : Bool := s.effFld (Reg.SAF_IN f) 4 4 == 1
def State.inStop (s : State) (f : Nat) : Nat := s.effFld (Reg.SAF_IN f) 6 5
def State.inFilt (s : State) (f : Nat) : Nat := s.effFld (Reg.SAF_IN f) 28 24
def State.inGroups (s : State) (f : Nat) : Nat := s.effFld (Reg.SAF_IN f + 4) 15 0
def State.inDisc (s : State) (f : Nat) : Nat := s.effFld (Reg.SAF_IN f + 4) 31 16

/-! ### Safe input functions, rules R203 and R204 -/

/-- The level of a source, or none where it reads at its demand level: a failed sample test, no snapshot, or a missing or
rejected safety frame. -/
def State.safeSource (s : State) (src : Nat) : Option Bool :=
  if src < 0x20 then
    if s.field.snapBad || (s.cell32 (s.snapAddr + 4)).testBit src || s.ueIn 0x80 s.snapAddr 128 then none
    else some ((s.cell32 s.snapAddr).testBit src)
  else
    let i := src - 0x20
    let holder := s.saf.safeIn.find? (fun p =>
      (s.cell32 ((s.rcf (p.1 / 64) (Reg.RNG_TBL_BASE (p.1 / 64))).toNat + 32 * (p.1 % 64) + 16)).testBit i)
    (holder.filter (fun p => !s.ueIn 0x80 (s.gath s.parity + 0x82400 + 32 * p.1) 32)).map (fun p => p.2.testBit i)

/-- Demand on channel A: level 0; on channel B: level 0, or 1 when antivalent. -/
def State.demandA (s : State) (f : Nat) : Bool :=
  match s.safeSource (s.effFld (Reg.SAF_IN f) 13 8) with
  | none => true
  | some b => !b
def State.demandB (s : State) (f : Nat) : Bool :=
  if s.effFld (Reg.SAF_IN f) 13 8 = s.effFld (Reg.SAF_IN f) 21 16 then s.demandA f
  else
    match s.safeSource (s.effFld (Reg.SAF_IN f) 21 16) with
    | none => true
    | some b => b == s.inAnti f

/-- A discrepancy latches. -/
def State.latchDisc (s : State) (f : Nat) : State :=
  let x := s.safIn f
  ((((s.setSafIn f { x with disc := true, both := false, demand := true })).setBit Reg.SAF_STAT 2 true).inc
    Reg.SAF_DISC_CNT).event Page.SAF 3 0

/-- The channels have disagreed for longer than DISC. -/
def State.discDue (s : State) (f : Nat) : Bool :=
  match (s.safIn f).disagree with
  | none => false
  | some t => decide (s.inDisc f * 1000000 < s.mono - t) && !(s.safIn f).disc

/-- Demand is entered: either channel has shown it in FILT + 1 snapshots. -/
def State.enterDue (s : State) (f : Nat) : Bool :=
  let x := s.safIn f
  !x.demand && (decide (s.inFilt f + 1 ≤ x.runA) || decide (s.inFilt f + 1 ≤ x.runB))

/-- Demand is left: both channels have shown non-demand in FILT + 1 snapshots, and no discrepancy is latched. -/
def State.leaveDue (s : State) (f : Nat) : Bool :=
  let x := s.safIn f
  x.demand && !x.disc && decide (s.inFilt f + 1 ≤ x.off)

/-- Enter demand, leave demand. -/
def State.enterDemand (s : State) (f : Nat) : State := s.setSafIn f { s.safIn f with demand := true, since := s.tickMono }
def State.leaveDemand (s : State) (f : Nat) : State := s.setSafIn f { s.safIn f with demand := false }

/-- One function on the snapshot of the tick. -/
def State.inputTick (s : State) (f : Nat) : State :=
  if s.inKind f = 0 then s.setSafIn f SafIn.reset
  else
    let a := s.demandA f
    let b := s.demandB f
    let x := s.safIn f
    let both := x.both || (x.disc && a && b)
    let s1 := s.setSafIn f { x with
      runA := if a then x.runA + 1 else 0
      runB := if b then x.runB + 1 else 0
      off := if !a && !b then x.off + 1 else 0
      disagree := if a = b then none else some (x.disagree.getD s.tickMono)
      both := both
      disc := x.disc && !(both && !a && !b) }
    let s2 := if s1.discDue f then s1.latchDisc f else s1
    if s2.enterDue f then s2.enterDemand f else if s2.leaveDue f then s2.leaveDemand f else s2

/-- INPUT_DEMAND_ENTER, INPUT_DEMAND_LEAVE and DISCREPANCY name what the C phase finds; where it has acted they add
nothing. -/
def State.inputEnter (s : State) (f : Nat) : State := if s.ticking && s.inKind f ≠ 0 && s.enterDue f then s.enterDemand f else s
def State.inputLeave (s : State) (f : Nat) : State := if s.ticking && s.inKind f ≠ 0 && s.leaveDue f then s.leaveDemand f else s
def State.discrepancy (s : State) (f : Nat) : State := if s.ticking && s.inKind f ≠ 0 && s.discDue f then s.latchDisc f else s

/-- A function of a kind, with the group in its mask, is in demand. -/
def State.inDemand (s : State) (kind g f : Nat) : Bool :=
  s.inKind f == kind && (s.inGroups f).testBit g && (s.safIn f).demand

/-- The functions of a kind in demand for a group. -/
def State.demands (s : State) (kind g : Nat) : List Nat := (List.range 16).filter (fun f => s.inDemand kind g f)

/-- The function that STOP 0b00, 0b01 and 0b10 demands: SS1, SS2, STO. -/
def stopOf (code : Nat) : Nat := if code = 0 then stSs1 else if code = 1 then stSs2 else stSto

/-! ### Measured state, rules R145 and R202 -/

/-- x_m and v_m of a member, or their extrapolation, and whether they are valid. -/
def State.safeMeasured (s : State) (a : Nat) : Int × Int × Bool :=
  let xP := s.measured a
  let x := xP.1
  let v := xP.2.1
  let ok := xP.2.2
  if ok then (x, v, true) else ((s.axis a).xPrev, (s.axis a).vPrev, false)

/-- The member axes of a group. -/
def State.memberAxes (s : State) (g : Nat) : List Nat := (s.members g).map (fun p => p.2)

/-- Every member is at standstill in a tick that counts. -/
def State.standstill (s : State) (g : Nat) : Bool :=
  (s.memberAxes g).all (fun a =>
    let vP := s.safeMeasured a
    let v := vP.2.1
    let ok := vP.2.2
    ok && decide (mag v ≤ s.vSs a))

/-! ### Limits, rules R205 to R207 -/

/-- The factor n / d of the speed limits in this tick: the ramp of DEGRADED, and the half of an S overrun. -/
def State.limFactor (s : State) : Int × Int :=
  let r : Int := (s.effFld Reg.SAF_TIME 31 16 : Nat)
  let n : Int := (s.sys.ticksInState : Nat)
  let aP : Int × Int := if s.sys.dev = .degraded then (if r ≤ n then (1, 2) else (2 * r - n, 2 * r)) else (1, 1)
  let a := aP.1
  let b := aP.2
  match s.limUse with
  | some (_, false) => (a, b)
  | _ => (a, 2 * b)

/-- SLS_V, or SLS2_V while reduced speed is selected. -/
def State.slsV (s : State) (g a : Nat) : Int := if (s.demands 5 g).isEmpty then s.axI64 a 2 else s.axI64 a 4

/-- A speed exceeds the limit. -/
def State.overSls (s : State) (g a : Nat) (v : Int) : Bool :=
  let nP := s.limFactor
  let n := nP.1
  let d := nP.2
  (s.axW a 0).getLsbD 0 && decide (s.slsV g a * n < mag v * d)

/-- A position lies outside [SLP_MIN, SLP_MAX]. -/
def State.outSlp (s : State) (a : Nat) (x : Int) : Bool := (s.axW a 0).getLsbD 1 && decide (x < s.axI64 a 6 ∨ s.axI64 a 8 < x)

/-- The predicted stop point lies outside, evaluated exactly; with D_MON = 0 a moving axis has none (DEDUCED,
notes/assumptions/17.md). -/
def State.stopOut (s : State) (a : Nat) (x v : Int) : Bool :=
  let d := 512 * s.dMon a
  if v = 0 then s.outSlp a x
  else if d ≤ 0 then (s.axW a 0).getLsbD 1
  else
    let num := x * d + sgn v * v * v
    (s.axW a 0).getLsbD 1 && decide (num < s.axI64 a 6 * d ∨ s.axI64 a 8 * d < num)

/-- The squared distance in 2^-32 µm² of the point at parameter t (16 bits) of a segment from a box. -/
def boxGap (p d lo hi : V3) (t : Int) : Int :=
  let one (p d lo hi : Int) : Int :=
    let q := p * 65536 + d * t
    if q < lo * 65536 then lo * 65536 - q else if hi * 65536 < q then q - hi * 65536 else 0
  let x := one p.x d.x lo.x hi.x
  let y := one p.y d.y lo.y hi.y
  let z := one p.z d.z lo.z hi.z
  x * x + y * y + z * z

/-- The distance of a segment from a box: the least over the ends, the crossings of the box's planes and the stationary
points between them, parameters rounded as in rule R182 and the norm floored. -/
def boxDistance (p0 p1 lo hi : V3) : Int :=
  let d := p1.sub p0
  let axes : List (Int × Int × Int × Int) := [(p0.x, d.x, lo.x, hi.x), (p0.y, d.y, lo.y, hi.y), (p0.z, d.z, lo.z, hi.z)]
  let cross := axes.flatMap (fun (p, e, l, h) => if e = 0 then [] else if 0 < e then [param (l - p) e, param (h - p) e]
    else [param (p - l) (-e), param (p - h) (-e)])
  let still := (List.range 27).filterMap (fun k =>
    let pick := ((List.range 3).zip axes).map (fun (i, p, e, l, h) =>
      let r := k / 3 ^ i % 3
      if r = 0 then (0, 0) else (e * ((if r = 1 then l else h) - p), e * e))
    let n := (pick.map (fun q => q.1)).sum
    let m := (pick.map (fun q => q.2)).sum
    if m = 0 then none else some (param n m))
  let best := ([0, 65536] ++ cross ++ still).foldl (fun b t => min b (boxGap p0 d lo hi t)) (boxGap p0 d lo hi 0)
  (sqrtFloor best.toNat / 65536 : Nat)

/-- Zone z is violated by a group's capsules as FRONT built them in this tick. -/
def State.zoneBad (s : State) (g z : Nat) : Bool :=
  let w := (s.zoneW z 0).toNat
  let lo := point (s.zoneW z) 2
  let hi := point (s.zoneW z) 5
  w.testBit 16 && w.testBit g && s.ssm.ends.any (fun (i, p0, p1) =>
    let r : Int := ((s.capW i 7).toNat + (s.capW i 8).toNat * s.jointRun g : Nat)
    let out (p : V3) : Bool := decide (p.x < lo.x + r ∨ hi.x - r < p.x ∨ p.y < lo.y + r ∨ hi.y - r < p.y ∨ p.z < lo.z + r ∨ hi.z - r < p.z)
    i / 10 == g && (if w.testBit 17 then out p0 || out p1 else decide (boxDistance p0 p1 lo hi < r)))

/-! ### Envelope and hold, rules R201 and R202 -/

/-- The envelope of a member n ticks after the entry to SS1 or SS2. -/
def State.envelope (s : State) (g a : Nat) (n : Nat) : Int :=
  let v0 := (((s.safGroup g).v0.find? (fun p => p.1 == a)).map (fun p => p.2)).getD 0
  let dly := s.effFld (Reg.SAF_GRP g) 7 4
  if n ≤ dly then v0 + s.vSs a
  else max (v0 - rnd (s.dMon a * ((n - dly : Nat) : Int)) 8) 0 + s.vSs a

/-- A member lies above its envelope. -/
def State.rampBad (s : State) (g : Nat) : Bool :=
  let st := s.grpState g
  (st == stSs1 || st == stSs2) && (s.memberAxes g).any (fun a =>
    decide (s.envelope g a (s.tick - (s.safGroup g).tick) < mag (s.safeMeasured a).2.1))

/-- A member has left its hold in SOS. -/
def State.sosBad (s : State) (g : Nat) : Bool :=
  s.grpState g == stSos && (s.memberAxes g).any (fun a =>
    let xP := s.safeMeasured a
    let x := xP.1
    let v := xP.2.1
    let h := (((s.safGroup g).hold.find? (fun p => p.1 == a)).map (fun p => p.2)).getD x
    decide (s.sosTol a < mag (x - h)) || decide (s.vSs a < mag v))

/-- SS1_TMAX has elapsed since the entry. -/
def State.tMaxDue (s : State) (g : Nat) : Bool :=
  decide (s.effFld (Reg.SAF_GRP g) 31 16 * 1000000 ≤ s.mono - (s.safGroup g).time)

/-! ### The record that C checks, rules R49 and R153 -/

/-- Byte offset of an axis's command record, and of its checked record of the last tick. -/
def State.cmdRec (s : State) (a : Nat) : Nat := s.cmdSet s.parity + 32 * a
def State.chkRec (s : State) (par a : Nat) : Nat := s.chkSet par + 32 * a

/-- The words of the record to check: after an L overrun the checked record of tick k−1 advanced by its velocity. -/
def State.checkWords (s : State) (g a : Nat) : Nat × Int × Int × Nat :=
  if (s.cmdBad s.parity).getLsbD g then
    let r := s.chkRec (1 - s.parity) a
    (s.cell64 r, satTo 64 (s.cellI64 (r + 8) + rnd (s.cellI64 (r + 16)) 16), s.cellI64 (r + 16), s.cell64 (r + 24))
  else
    let r := s.cmdRec a
    (s.cell64 r, s.cellI64 (r + 8), s.cellI64 (r + 16), s.cell64 (r + 24))

/-! ### Causes, rule R200 -/

/-- Causes by number. -/
def causeBit (b : Bool) (c : Nat) : Nat := if b then 1 <<< c else 0

/-- STOP of the limit set. -/
def State.ssmStop (s : State) (g : Nat) : Bool := s.limStop g

/-- AUTO_RESUME and STOP_KIND of SSM_GRP_g. -/
def State.autoResume (s : State) (g : Nat) : Bool := s.effFld (Reg.SSM_GRP g) 9 9 == 1

/-- Causes 0 to 12 and 14 present in this tick. -/
def State.causes (s : State) (g : Nat) : Nat :=
  let ax := s.memberAxes g
  let m (a : Nat) : Int × Int := ((s.safeMeasured a).1, (s.safeMeasured a).2.1)
  causeBit (!(s.demands 1 g).isEmpty) 0 ||| causeBit (!(s.demands 2 g).isEmpty) 1 ||| causeBit (!(s.demands 3 g).isEmpty) 2
    ||| causeBit (s.ssmStop g) 3 ||| causeBit (ax.any (fun a => s.overSls g a (m a).2)) 4
    ||| causeBit (ax.any (fun a => s.stopOut a (m a).1 (m a).2)) 5
    ||| causeBit ((List.range 32).any (fun z => s.zoneBad g z)) 6 ||| causeBit (s.sosBad g) 7 ||| causeBit (s.rampBad g) 8
    ||| causeBit (ax.any (fun a => (s.checkWords g a).1.testBit 35)) 9
    ||| causeBit (ax.any (fun a => s.overSls g a (s.checkWords g a).2.2.1 || s.outSlp a (s.checkWords g a).2.1)) 10
    ||| causeBit s.deviceStop 11 ||| causeBit (s.saf.ovr.testBit g) 12
    ||| causeBit (s.running && s.fld Reg.FLT_STAT 1 0 != 1) 14

/-- The causes that need acknowledgement. -/
def State.needsAck (s : State) (g : Nat) : Nat :=
  0x17F1 ||| causeBit ((s.demands 2 g).any (fun f => s.inAck f)) 1 ||| causeBit (!s.autoResume g) 3

/-- The function that a set of present causes demands: the strongest. -/
def State.demanded (s : State) (g p : Nat) : Nat :=
  let lim := if s.effFld (Reg.SAF_GRP g) 0 0 = 1 then stSto else stSs1
  let pick (c st : Nat) : Nat := if p.testBit c then st else stOper
  let fns := ((s.demands 1 g ++ s.demands 2 g ++ s.demands 3 g).map (fun f => stopOf (s.inStop f)))
  let ins := if p.testBit 0 || p.testBit 1 || p.testBit 2 then fns else []
  let all := ins ++ [pick 3 (if s.effFld (Reg.SSM_GRP g) 8 8 = 1 then stSs2 else stSs1), pick 4 lim, pick 5 lim, pick 6 lim,
    pick 7 stSto, pick 8 stSto, pick 9 lim, pick 10 stSs1, pick 11 stSs1, pick 12 stSs1, pick 14 stSto, pick 15 stSto]
  all.foldl (fun b st => if stRank b < stRank st then st else b) stOper

/-! ### Group states, rules R201, R202 and R211 -/

/-- A group enters a state: what it latches. -/
def State.enterGroup (s : State) (g st : Nat) : State :=
  let x := s.safGroup g
  let ax := s.memberAxes g
  let s1 := s.setFld (Reg.SAF_GRP_STAT g) 2 0 st
  let x1 : SafGroup :=
    if st = stSs1 ∨ st = stSs2 then
      { x with tick := s.tick, time := s.tickMono, v0 := ax.map (fun a => (a, mag (s.safeMeasured a).2.1)), still := 0 }
    else if st = stSos then { x with hold := ax.map (fun a => (a, (s.safeMeasured a).1)) }
    else if st = stSto then { x with start := x.start || !x.auto }
    else x
  let s2 := s1.setSafGroup g x1
  if st = stSs1 ∨ st = stSs2 ∨ st = stSto then (s2.inc Reg.SAF_STOP_CNT).event Page.SAF 0 0 else s2

/-- RAMP is among the causes where SS2 runs out of SS1_TMAX: it is none of those that end without a release request, rule R211. -/
def State.rampJoins (s : State) (g : Nat) : State :=
  if s.grpState g = stSs2 then s.setSafGroup g { s.safGroup g with auto := false } else s

/-- The passages of a group already in SS2 or SS1: standstill in N_SS ticks, and SS1_TMAX. RAMP joins the causes where SS2
passes to STO. -/
def State.passGroup (s : State) (g : Nat) : State × Nat :=
  let st := s.grpState g
  if st = stSs1 ∨ st = stSs2 then
    let n := if s.standstill g then (s.safGroup g).still + 1 else 0
    let s1 := s.setSafGroup g { s.safGroup g with still := n }
    if s.effFld (Reg.SAF_GRP g) 15 8 ≤ n then (s1.enterGroup g (if st = stSs1 then stSto else stSos), 0)
    else if s.tMaxDue g then ((s1.rampJoins g).enterGroup g stSto, causeBit (st == stSs2) 8)
    else (s1, 0)
  else (s, 0)

/-- Why a release request is refused, rule R212: REL_REF, 0 where it is not. -/
def State.relRefusal (s : State) (g p latched : Nat) : Nat :=
  if !s.running || s.effFld Reg.SAF_CTRL 0 0 = 0 then 1
  else if p ≠ 0 then 2
  else if latched ≠ 0 then 3
  else if s.grpState g = stSs1 then 6
  else if !s.groupEn g then 5
  else if (s.memberAxes g).any (fun a => s.loopOpen a 0) then 4
  else 0

/-- A refused release request. -/
def State.relRefused (s : State) (g r : Nat) : State :=
  (((s.setBit Reg.SAF_STAT 3 true).setFld (Reg.SAF_GRP_STAT g + 4) 19 16 r).inc Reg.SAF_REL_REF_CNT).event Page.SAF 4 0

/-- The release of rule R211, with the request of this tick's cut. -/
def State.releaseGroup (s : State) (g p latched : Nat) : State :=
  let req := s.saf.rel.testBit g
  let st := s.grpState g
  if st = stOper then s
  else
    let r := s.relRefusal g p latched
    if req && r ≠ 0 then s.relRefused g r
    else if r = 0 ∧ (!(s.safGroup g).start || req) then
      (s.setSafGroup g { s.safGroup g with start := false, auto := true }).setFld (Reg.SAF_GRP_STAT g) 2 0 stOper
    else s

/-- The RESET function of a pulse that ends in this tick within SAF_RST_T: its falling edge. -/
def State.resetEdge (s old : State) (f : Nat) : Bool :=
  let len := s.tickMono - (old.safIn f).since
  s.inKind f == 4 && (old.safIn f).demand && !(s.safIn f).demand &&
    decide (s.effFld Reg.SAF_RST_T 15 0 * 1000000 ≤ len ∧ len ≤ s.effFld Reg.SAF_RST_T 31 16 * 1000000)

/-- A group is acknowledged in this tick, rule R210. -/
def State.acked (s old : State) (g : Nat) : Bool :=
  s.saf.ack.testBit g || (List.range 16).any (fun f => (s.inGroups f).testBit g && s.resetEdge old f)

/-- The status and the verdict word of a group, rules R198 and R209. -/
def State.putVerdict (s : State) (g p latched : Nat) : State :=
  let st := s.grpState g
  let start := (s.safGroup g).start
  let all := p ||| causeBit start 15
  let relWait := st ≠ stOper && p = 0 && latched = 0 && start
  let w := st + 8 * b2n s.commission + 16 * b2n (decide (latched ≠ 0)) + 32 * b2n relWait + 256 * (all % 65536)
  ((s.wrN (Reg.SAF_GRP_STAT g) w).setFld (Reg.SAF_GRP_STAT g + 4) 15 0 latched).setCell (s.chkSet s.parity + 0x1200 + 8 * g) 8 w

/-- The command of a group is not available: an uncorrectable word lies in the command record of a member, rules R19 and R370. -/
def State.cmdLost (s : State) (g : Nat) : Bool := (s.memberAxes g).any (fun a => s.ueIn 0x80 (s.cmdRec a) 32)

/-- The checked record of an axis of group g, rule R198. -/
def State.putChecked (s : State) (g a : Nat) : State :=
  let b := s.chkRec s.parity a
  let st := s.grpState g
  if st = stOper && s.cmdLost g then
    (((s.setCell b 8 1099511627776).setCellI (b + 8) 8 (s.safeMeasured a).1).setCell (b + 16) 8 0).setCell (b + 24) 8 0
  else if st = stOper then
    let w0P := s.checkWords g a
    let w0 := w0P.1
    let x := w0P.2.1
    let v := w0P.2.2.1
    let w3 := w0P.2.2.2
    (((s.setCell b 8 (withBits w0 41 40 0)).setCellI (b + 8) 8 x).setCellI (b + 16) 8 v).setCell (b + 24) 8 w3
  else
    (((s.setCell b 8 (stopCode st * 1099511627776)).setCellI (b + 8) 8 (s.safeMeasured a).1).setCell (b + 16) 8 0).setCell (b + 24) 8 0

/-- A group must be in STO: outside RUN, DEGRADED and SAFESTOP, and with SAF_CTRL.EN = 0, rules R24 and R235. -/
def State.heldSto (s : State) : Bool := !(s.running || s.sys.dev == .safestop) || s.effFld Reg.SAF_CTRL 0 0 == 0

/-- One group in the C phase, in the order of rule R208; `old` is the state before the input functions. -/
def State.groupCheck (s old : State) (g : Nat) : State :=
  let p := s.causes g
  let before := s.fld (Reg.SAF_GRP_STAT g + 4) 15 0
  let latched0 := before ||| (p &&& s.needsAck g)
  let latched := if s.acked old g then latched0 &&& p else latched0
  let x := s.safGroup g
  let autoSet := causeBit (s.autoResume g) 3 ||| 4
  let s1 := s.setSafGroup g { x with auto := x.auto && decide (p &&& (0xFFFF - autoSet) = 0) }
  let act := if s.commission then p &&& 0x4800 else p
  let st := s1.grpState g
  let want := if s.heldSto then stSto else s1.demanded g (act ||| causeBit (x.start && st == stSto) 15)
  let s2 := if stRank st < stRank want then s1.enterGroup g want else s1
  let s3P := s2.passGroup g
  let s3 := s3P.1
  let more := s3P.2
  let p' := p ||| more
  let latched' := latched ||| more
  let s5 := (s3.releaseGroup g p' latched').putVerdict g p' latched'
  if s.groupEn g then forEach (fun a st => st.putChecked g a) (s.memberAxes g) s5 else s5

/-- An axis of no enabled group: torque off. -/
def State.looseChecked (s : State) (a : Nat) : State :=
  let b := s.chkRec s.parity a
  (((s.setCell b 8 (3 * 1099511627776)).setCellI (b + 8) 8 (s.safeMeasured a).1).setCell (b + 16) 8 0).setCell (b + 24) 8 0

/-! ### Safe outputs, rules R199 and R318 -/

/-- Safe output i is on. -/
def State.safeOut (s : State) (i : Nat) : Bool :=
  let mask := s.effFld (Reg.SAF_DQ_GRP i) 15 0
  let gs := (List.range 16).filter (fun g => mask.testBit g)
  if s.effFld (Reg.SAF_DQ_GRP i) 16 16 = 0 then gs.all (fun g => s.grpState g != stSto) else gs.all (fun g => s.grpState g == stOper)

/-- The commanded safe outputs, as a mask. -/
def State.safeOuts (s : State) : Nat :=
  (List.range 16).foldl (fun m i => if (s.eff Reg.SAF_DQ_SAFE).getLsbD i && s.safeOut i then m ||| (1 <<< i) else m) 0

/-- The checked output word: the command set's bits, the safe bits as channel A commands them. -/
def State.putOutputs (s : State) : State :=
  let safe := s.effFld Reg.SAF_DQ_SAFE 15 0
  let cmd := s.cell32 (s.cmdSet s.parity + 0x1280)
  s.setCell (s.chkSet s.parity + 0x1280) 4 ((cmd &&& (0xFFFF - safe)) ||| s.safeOuts)

/-! ### Safety frames, rule R262 -/

/-- The safety CRC: polynomial 0xF4AC_FB13, most significant bit first. -/
def safetyCrc (init : Nat) (bs : List Nat) : Nat :=
  bs.foldl (fun c b =>
    (List.range 8).foldl (fun r i =>
      let top := (r.testBit 31) != b.testBit (7 - i)
      let r2 := r * 2 % 4294967296
      if top then r2 ^^^ 0xF4ACFB13 else r2) c) init

/-- The CRC's initial value for a safety address. -/
def crcInit (saddr : Nat) : Nat := saddr % 65536 * 65536 + 0xA5C3

/-- The bytes of a number, least significant first. -/
def bytesOf (n len : Nat) : List Nat := (List.range len).map (fun i => n / 256 ^ i % 256)

/-- The bytes of a number as they go out. -/
def outBytes (n len : Nat) : List (BitVec 8) := (bytesOf n len).map (BitVec.ofNat 8)

/-- Word w of a node table entry. -/
def State.nodeW (s : State) (p n w : Nat) : Nat := s.cell32 ((s.rcf p (Reg.RNG_TBL_BASE p)).toNat + 32 * n + 4 * w)

/-- The stop code that a node's axis is sent: its group's; STO for an axis of no group (DEDUCED, notes/assumptions/13.md). -/
def State.axisStop (s : State) (a : Nat) : Nat :=
  match s.groupOf a with
  | some g => stopCode (s.grpState g)
  | none => 3

/-- The SAFE_OUT of a node, in the checked command set. -/
def State.putSafeOut (s : State) (p n : Nat) : State :=
  let w0 := s.nodeW p n 0
  if !(w0.testBit 0 && w0.testBit 2) then s
  else
    let sa := s.nodeW p n 3 % 65536
    let codes := (List.range 16).foldl (fun m i =>
      if i < bitsOf w0 23 16 then m + s.axisStop (bitsOf w0 15 8 + i) * 4 ^ i else m) 0
    let body := bytesOf sa 2 ++ bytesOf 0 2 ++ bytesOf s.saf.cnt 4 ++ bytesOf codes 4 ++ bytesOf s.safeOuts 4 ++ bytesOf 0 12
    let b := s.chkSet s.parity + 0x1400 + 32 * (64 * p + n)
    let crc := safetyCrc (crcInit sa) body
    forEach (fun q st => st.setCell (b + q.1) 1 q.2) ((List.range 32).zip (body ++ bytesOf crc 4)) s

/-- Every SAFE_OUT of the tick, with the next CNT. -/
def State.putSafeOuts (s : State) : State :=
  let s1 := { s with saf := { s.saf with cnt := (s.saf.cnt + 1) % 4294967296 } }
  forUpTo (fun p st =>
    if st.bit (Reg.RNG_CTRL p) 0 && !(st.rcf p (Reg.RNG_CTRL p)).getLsbD 1 then forUpTo (fun n u => u.putSafeOut p n) 64 st else st) 4 s1

/-! ### Acknowledgement and release requests, rules R210 to R212 -/

/-- SAF_ACK: accepted only with SW_ACK_EN = 1, and then taken at the cut. -/
def State.safAck (s : State) (m : Nat) : State :=
  if m = 0 then s
  else if (s.eff Reg.SAF_CTRL).getLsbD 2 then { s with saf := { s.saf with ackPend := s.saf.ackPend ||| m } }
  else ((s.setBit Reg.SAF_STAT 4 true).inc Reg.SAF_ACK_REF_CNT).event Page.SAF 4 0

/-- SAF_REL: a release request for the next cut. -/
def State.safRel (s : State) (m : Nat) : State := { s with saf := { s.saf with relPend := s.saf.relPend ||| m } }

def execSafAck (ag : Agent) (m : BitVec 16) (s : State) : Out := .next (s.swWrite ag Page.SAF (fun t => t.safAck m.toNat))
def execSafRel (ag : Agent) (m : BitVec 16) (s : State) : Out := .next (s.swWrite ag Page.SAF (fun t => t.safRel m.toNat))

/-- The cut takes the requests. -/
def State.cutSafety (s : State) : State :=
  { s with saf := { s.saf with rel := s.saf.relPend, ack := s.saf.ackPend, relPend := 0, ackPend := 0 } }

/-- STANDSTILL_REACHED: a group has stood still in N_SS ticks; the C phase has passed it on already where it ran. -/
def State.standstillReached (s : State) (g : Nat) : State :=
  let st := s.grpState g
  if s.ticking && (st == stSs1 || st == stSs2) && decide (s.effFld (Reg.SAF_GRP g) 15 8 ≤ (s.safGroup g).still) then
    s.enterGroup g (if st = stSs1 then stSto else stSos)
  else s

def execStandstillReached (g : Fin 16) (s : State) : Out := .next (s.standstillReached g.val)

/-- SS1_TMAX_EXPIRY: SS1 passes to STO, SS2 to STO with cause RAMP. -/
def State.tMaxExpiry (s : State) (g : Nat) : State :=
  let st := s.grpState g
  if s.ticking && s.tMaxDue g && st == stSs1 then s.enterGroup g stSto
  else if s.ticking && s.tMaxDue g && st == stSs2 then
    ((((s.rampJoins g).enterGroup g stSto).setBit (Reg.SAF_GRP_STAT g) 16 true).setBit (Reg.SAF_GRP_STAT g + 4) 8 true)
  else s

def execSs1TmaxExpiry (g : Fin 16) (s : State) : Out := .next (s.tMaxExpiry g.val)

/-- START is set for every group on entry to RUN, rule R211. -/
def State.startAll (s : State) : State := forUpTo (fun g st => st.setSafGroup g { st.safGroup g with start := true }) 16 s

/-- Entry to SELFTEST: the input functions start anew, every group is in STO with START, no cause is latched. -/
def State.safSelftest (s : State) : State :=
  let s1 := { s with saf := { s.saf with
      ins := []
      groups := []
      rel := 0
      ack := 0
      relPend := 0
      ackPend := 0
      ovr := 0
      safeIn := []
      bothLanes := [] } }
  forUpTo (fun g st => (st.wrN (Reg.SAF_GRP_STAT g) 0x800004).wrN (Reg.SAF_GRP_STAT g + 4) 0) 16 s1

end Sys2Proof.Machine
end

