-- ==== Sys2Proof/Machine/Flint.lean ====
section
/-! DEFINITION. Flint, Slate, the degrade classes and the proof test, rules R214 to R225 and R236 (spec/09_safety.md). -/

namespace Sys2Proof.Machine

/-! ### Degrade classes, Slate's power and the start permission -/

/-- The active classes: SAF_DEG bits 20:16. -/
def State.classes (s : State) : Nat := s.fld Reg.SAF_DEG 20 16

/-- Class c (1 to 5) is active. -/
def State.classOn (s : State) (c : Nat) : Bool := s.bit Reg.SAF_DEG (15 + c)

/-- When class c was last detected. -/
def State.seenAt (s : State) (c : Nat) : Nat := Tab.get (fun _ => 0) s.saf.seenAt c

/-- Slate is powered in SELFTEST, in DEGRADED, in READY with a latched fault, during a proof test, while a set is stored
or loaded, and in a standby, rules R218 and R357. -/
def State.slateWant (s : State) : Bool :=
  s.sys.dev == .selftest || s.sys.dev == .degraded || (s.sys.dev == .ready && s.saf.slate.latched) || s.bit Reg.SAF_PT_CMD 0 ||
    s.bit Reg.SAF_STORE_STAT 8 || s.standby

/-- Slate's power follows: a power-up starts its waiting time anew. -/
def State.slatePower (s : State) : State :=
  if s.slateWant == s.bit Reg.SAF_STAT 12 then s
  else
    let x := s.saf.slate
    let s1 := (s.setBit Reg.SAF_STAT 12 s.slateWant).setDomain 2 s.slateWant
    { s1 with saf := { s1.saf with slate := { x with since := s.mono, comparing := false, first := 0, count := 0, clean := false, waiting := [] } } }

/-- A fault latched in READY ends when every class has cleared and Slate has compared clean, rule R222. -/
def State.unlatch (s : State) : State :=
  if s.saf.slate.latched && s.classes == 0 && s.saf.slate.clean then
    { s with saf := { s.saf with slate := { s.saf.slate with latched := false } } }
  else s

/-- The proof test is overdue by more than SAF_PT_GRACE hours. -/
def State.ptOverdue (s : State) : Bool :=
  decide (s.effFld Reg.SAF_CTRL 31 16 + s.effFld Reg.SAF_PT_GRACE 15 0 < s.rdN Reg.SAF_PT_HOURS)

/-- An ESTOP function is in demand. -/
def State.estop (s : State) : Bool := (List.range 16).any (fun f => s.inKind f == 1 && (s.safIn f).demand)

/-- The start permission of rule R223. -/
def State.startOk (s : State) : Bool :=
  !s.estop && !s.bit Reg.SAF_STAT 7 && !s.bit Reg.SAF_STAT 6 && s.fld Reg.FLT_STAT 1 0 == 1 && s.classes == 0 &&
    !s.saf.slate.latched && !s.bit Reg.SAF_STAT 10 && !s.ptOverdue

/-- SLATE_ON and START_OK follow what they show. -/
def State.refreshSaf (s : State) : State :=
  let s1 := s.unlatch.slatePower
  s1.setBit Reg.SAF_STAT 11 s1.startOk

/-- The commands that name what the C phase finds in a safe input keep START_OK true. -/
def execInputDemandEnter (f : Fin 16) (s : State) : Out := .next (s.inputEnter f.val).refreshSaf
def execInputDemandLeave (f : Fin 16) (s : State) : Out := .next (s.inputLeave f.val).refreshSaf
def execDiscrepancy (f : Fin 16) (s : State) : Out := .next (s.discrepancy f.val).refreshSaf

/-- A trigger is taken back before its boundary. -/
def State.withdraw (s : State) (d : DevState) : State :=
  { s with sys := { s.sys with triggers := s.sys.triggers.filter (fun x => x != d) } }

/-- A degrade-class fault is detected, rules R220 to R222: in RUN it leads to DEGRADED at the next boundary, in DEGRADED it
is added and takes back a return to RUN of the same tick, in READY it is latched, in SAFESTOP it is recorded only. -/
def State.detect (s : State) (c : Nat) : State :=
  let hit (t : State) : State :=
    let t1 := t.setBit Reg.SAF_DEG (15 + c) true
    { t1 with saf := { t1.saf with seenAt := Tab.set (fun _ => 0) t1.saf.seenAt c t1.mono } }
  match s.sys.dev with
  | .run => (hit s).trigger .degraded
  | .degraded => (hit s).withdraw .run
  | .safestop => hit s
  | .ready =>
    let t := hit s
    { t with saf := { t.saf with slate := { t.saf.slate with latched := true } } }
  | _ => s

/-- DEGRADED ends when every class has cleared and Slate has compared clean, rule R221. -/
def State.returnCheck (s : State) : State :=
  if s.sys.dev == .degraded && s.classes == 0 && s.saf.slate.clean then s.trigger .run else s

/-- A class clears. -/
def State.clearClass (s : State) (c : Nat) : State := ((s.setBit Reg.SAF_DEG (15 + c) false).returnCheck).refreshSaf

/-- Corrections in SAFEA SRAM within the preceding second. -/
def State.safeaCount (s : State) : Nat := (s.integ.safea.filter (fun t => decide (s.mono < t + 1000000000))).length

/-- FLT_OSC lies outside ± n / 1000 of FLT_PERIOD, in Flint's cycles of 10 ns; before it has measured it does not. -/
def State.oscOut (s : State) (n : Nat) : Bool :=
  let m := s.rdN Reg.FLT_OSC * 10000
  let p := s.effFld Reg.FLT_PERIOD 20 0
  decide (s.rdN Reg.FLT_OSC ≠ 0 ∧ (m < p * (1000 - n) ∨ p * (1000 + n) < m))

/-- The condition under which a class clears, rule R220. -/
def State.classClears (s : State) (c : Nat) : Bool :=
  match c with
  | 1 => decide (s.seenAt 1 + 1000000000 ≤ s.mono) && decide (s.ssm.laneBad = 0)
  | 2 => decide (s.saf.stFail = 0)
  | 3 => decide (s.safeaCount ≤ 16)
  | 4 => decide (s.seenAt 4 + 1000000000 ≤ s.mono) && !s.oscOut 15
  | _ => s.fld Reg.FLT_STAT 1 0 == 1

/-- DEGRADE_FAULT_CLEAR: a fault class meets its clearing condition. -/
def State.degradeFaultClear (s : State) (c : Nat) : State := if s.ticking && s.classOn c && s.classClears c then s.clearClass c else s

def execDegradeFaultClear (c : Fin 5) (s : State) : Out := .next (s.degradeFaultClear (c.val + 1))

/-- PERIODIC_SELFTEST: the SAFEA code CRC (0) or the C-phase vectors (1) run; a failure is a fault of class STEST, and a
pass of every failed test clears it. -/
def State.periodicSelftest (s : State) (test : Nat) (pass : Bool) : State :=
  if !s.ticking then s
  else
    let m := withBits s.saf.stFail test test (b2n (!pass))
    let s1 := { s with saf := { s.saf with stFail := m } }
    if !pass then (s1.detect 2).refreshSaf else if m = 0 ∧ s1.classOn 2 then s1.clearClass 2 else s1

def execPeriodicSelftest (test : Fin 2) (pass : Bool) (s : State) : Out := .next (s.periodicSelftest test.val pass)

/-- DEGRADE_MAX_EXPIRY: the timer of DEGRADED expires: cause DEV for every group, and SAFESTOP, rule R221. -/
def State.degradeMaxExpiry (s : State) : State :=
  if s.sys.dev == .degraded then (s.setFld Reg.SAF_DEG 15 0 0).stopCause .degradeMax else s

def execDegradeMaxExpiry (s : State) : Out := .next s.degradeMaxExpiry

/-- Entry to DEGRADED, rule R221. -/
def State.enterDegraded (s : State) : State :=
  let s1 := ((s.inc Reg.SAF_DEG_CNT).setFld Reg.SAF_DEG 15 0 (1000 * s.effFld Reg.SAF_CTRL 13 8)).event Page.SAF 1 0
  ({ s1 with saf := { s1.saf with degTime := s1.mono } }).refreshSaf

/-- The diagnostics of every C phase, rule R220, with the remaining time of DEGRADED. -/
def State.degradeTick (s : State) : State :=
  let s1 := if s.oscOut 20 then s.detect 4 else s
  let s2 := if s1.classOn 4 && s1.oscOut 15 then
      { s1 with saf := { s1.saf with seenAt := Tab.set (fun _ => 0) s1.saf.seenAt 4 s1.mono } }
    else s1
  let s3 := if 16 < s2.safeaCount then s2.detect 3 else s2
  let s4 := if s3.running && s3.fld Reg.FLT_STAT 1 0 != 1 then s3.detect 5 else s3
  let rest := 1000 * s4.effFld Reg.SAF_CTRL 13 8 - (s4.mono - s4.saf.degTime) / 1000000
  let s5 := s4.setFld Reg.SAF_DEG 15 0 (if s4.sys.dev = .degraded then rest else 0)
  (s5.returnCheck).refreshSaf

/-! ### Slate, rules R218 and R219 -/

/-- SLATE_COMPARE_START: Slate compares from the first tick that begins 20 ms or more after its power-up. -/
def State.slateStart (s : State) : State :=
  if s.bit Reg.SAF_STAT 12 && !s.saf.slate.comparing && decide (s.saf.slate.since + 20000000 ≤ s.tickMono) then
    { s with saf := { s.saf with slate := { s.saf.slate with
        comparing := true
        first := s.mono
        count := 0
        clean := false } } }
  else s

def execSlateCompareStart (s : State) : Out := .next s.slateStart

/-- A disagreement, by state: a self-test failure, a latched fault, or the device-level stop cause. -/
def State.disagreement (s : State) : State :=
  let s1 := ((s.setBit Reg.SAF_STAT 1 true).inc Reg.SAF_XCMP_CNT).event Page.SAF 2 0
  let s2 := { s1 with saf := { s1.saf with slate := { s1.saf.slate with clean := false, first := s1.mono }, pt := { s1.saf.pt with disagreed := true } } }
  match s.sys.dev with
  | .selftest => { s2 with saf := { s2.saf with slate := { s2.saf.slate with failed := true } } }
  | .ready => ({ s2 with saf := { s2.saf with slate := { s2.saf.slate with latched := true } } }).refreshSaf
  | .run | .degraded => s2.stopCause .compare
  | _ => s2

/-- SLATE_COMPARE_RESULT: the result for a tick whose record waits; an uncorrectable word that Slate reads in SAFEB SRAM is a
disagreement, rule R370. -/
def State.slateResult (s : State) (tick : Nat) (agree : Bool) : State :=
  if s.saf.slate.comparing && s.saf.slate.waiting.any (fun r => r.tick == tick) then
    let s1 := { s with saf := { s.saf with slate := { s.saf.slate with
      count := s.saf.slate.count + 1
      waiting := s.saf.slate.waiting.filter (fun r => r.tick != tick) } } }
    if agree && (s1.safetyBad 0xA1).isEmpty then s1 else (s1.safetyFound 0xA1).disagreement
  else s

def execSlateCompareResult (tick : Nat) (agree : Bool) (s : State) : Out := .next (s.slateResult tick agree)

/-- SLATE_CLEAN: SLATE_CLEAN ms have passed without a disagreement. -/
def State.slateCleaned (s : State) : State :=
  if s.saf.slate.comparing then
    ((({ s with saf := { s.saf with slate := { s.saf.slate with clean := true } } } : State).returnCheck).refreshSaf)
  else s

def execSlateClean (s : State) : Out := .next s.slateCleaned

/-- The compare record of the tick as channel A's results stand, rule R219. -/
def State.formRecord (s : State) : CompareRecord :=
  { tick := s.tick
    level := s.cell32 s.snapAddr
    test := s.cell32 (s.snapAddr + 4)
    nodes := s.saf.safeIn
    groups := (List.range 16).map (fun g => (s.grpState g, s.fld (Reg.SAF_GRP_STAT g) 23 8))
    outs := s.safeOuts
    members := (s.memberAxes (s.tick % 16)).map (fun a => (a, s.safeMeasured a))
    pairs := s.ssm.sample }

/-- Channel A writes the compare record of every tick; it awaits its result while Slate compares. -/
def State.compareRecord (s : State) : State :=
  let r := s.formRecord
  { s with saf := { s.saf with slate := { s.saf.slate with
      record := some r
      waiting := if s.saf.slate.comparing then s.saf.slate.waiting ++ [r] else s.saf.slate.waiting } } }

/-! ### Flint -/

/-- Flint's state and its gates: closed, where FLT_MASK names them, only while it is ARMED. -/
def State.flintState (s : State) (st cause : Nat) : State :=
  ((s.setFld Reg.FLT_STAT 1 0 st).setFld Reg.FLT_STAT 7 4 cause).wrN Reg.FLT_GATE (if st = 1 then s.effFld Reg.FLT_MASK 15 0 else 0)
    |>.refreshDq

/-- The gates of an ARMED Flint follow FLT_MASK as it comes into force, rule R214. -/
def State.refreshGates (s : State) : State :=
  if s.fld Reg.FLT_STAT 1 0 = 1 then (s.wrN Reg.FLT_GATE (s.effFld Reg.FLT_MASK 15 0)).refreshDq else s

/-- Replace what Flint keeps. -/
def State.setFlint (s : State) (x : Flint) : State := { s with saf := { s.saf with flint := x } }

/-- Flint trips: the gates open. A trip of a tripped Flint changes nothing. -/
def State.flintTrip (s : State) (cause : Nat) : State :=
  let s1 := s.setFlint { s.saf.flint with armPend := false, run := 0 }
  if s.fld Reg.FLT_STAT 1 0 = 2 then s1
  else (((s1.flintState 2 cause).inc Reg.FLT_TRIP_CNT).event Page.FLT 0 (w32 cause)).refreshSaf

/-- A command to Flint: only channel A may give it, rule R236. -/
def State.fltCmd (s : State) (ag : Agent) (f : State → State) : State :=
  if ag = .channelA then s.swWrite ag Page.FLT f
  else if !s.clocked then s
  else if !s.domOn (domainOf Page.FLT) then s.inc Reg.CDC_PARK_ACC_CNT
  else ((s.inc Reg.FLT_CMD_REF_CNT).refuseAccess Page.FLT).event Page.FLT 2 0

/-- TEST_TRIP: every gate opens, in time or not, rule R217. A test trip is counted nowhere. -/
def State.testTrip (s : State) (opened : Bool) : State :=
  if s.field.vcc then
    (((s.setFlint { s.saf.flint with armPend := false, run := 0, tested := some opened }).flintState 2 8).setBit Reg.FLT_STAT 3 opened).refreshSaf
  else s

def execTestTrip (ag : Agent) (opened : Bool) (s : State) : Out := .next (s.fltCmd ag (fun t => t.testTrip opened))

/-- FLINT_ARM: a fresh seed; LATCH is 0 in commissioning mode only. While TRIPPED with LATCH = 1 it is refused outside
SELFTEST, but after the test trip of a proof test or a standby's test (DEDUCED, notes/assumptions/18.md). -/
def State.flintArm (s : State) (seed : Nat) : State :=
  if !s.field.vcc then s
  else if s.fld Reg.FLT_STAT 1 0 = 2 ∧ s.bit Reg.FLT_STAT 2 ∧ s.sys.dev ≠ .selftest ∧ s.fld Reg.FLT_STAT 7 4 ≠ 8 then
    (s.inc Reg.FLT_CMD_REF_CNT).event Page.FLT 2 0
  else (s.setFlint { s.saf.flint with seed := seed, armPend := true, run := 0 }).setBit Reg.FLT_STAT 2 (!s.commission)

def execFlintArm (ag : Agent) (seed : BitVec 16) (s : State) : Out := .next (s.fltCmd ag (fun t => t.flintArm seed.toNat))

/-- FLINT_TRIP_CMD. -/
def execFlintTripCmd (ag : Agent) (s : State) : Out := .next (s.fltCmd ag (fun t => if t.field.vcc then t.flintTrip 5 else t))

/-- SIG of a heartbeat is the one of the present arming. -/
def State.sigOk (s : State) (word : Word) : Bool :=
  word.extractLsb' 16 16 == Config.heartbeatSig s.saf.flint.seed (word.toNat % 65536)

/-- What is wrong with a heartbeat that comes `cycles` of Flint's 10 ns after the one it is judged against: 0, or the trip
cause, rule R216. -/
def State.hbFault (s : State) (word : Word) (cycles : Nat) : Nat :=
  let p := s.effFld Reg.FLT_PERIOD 20 0
  if cycles * 100 < 4 * p then 2
  else if 7 * p < cycles * 40 then 1
  else if some (word.toNat % 65536) ≠ s.saf.flint.bits.map (fun b => (b + 1) % 65536) then 3
  else if s.sigOk word then 0
  else 4

/-- A valid heartbeat. -/
def State.hbValid (s : State) (word : Word) : State := (s.inc Reg.FLT_HB_CNT).setFld Reg.FLT_STAT 23 8 word.toNat

/-- An invalid heartbeat. -/
def State.hbBad (s : State) : State := (s.inc Reg.FLT_BAD_CNT).event Page.FLT 1 0

/-- FLINT_HEARTBEAT: the first one after ARM is judged by its SIG; a tripped Flint judges against the last one received
(DEDUCED, notes/assumptions/18.md); HOLD judges none. -/
def State.flintHeartbeat (s : State) (word : Word) (cycles : Nat) : State :=
  let s0 := s.setFlint { s.saf.flint with bits := some (word.toNat % 65536) }
  if !s.field.vcc then s
  else if s.saf.flint.armPend then
    if s.sigOk word then ((s0.setFlint { s0.saf.flint with armPend := false, run := 0 }).hbValid word).flintState 1 0 |>.refreshSaf
    else if s.fld Reg.FLT_STAT 1 0 = 1 then s0.hbBad.flintTrip 4
    else s0.hbBad
  else
    let f := s.hbFault word cycles
    match s.fld Reg.FLT_STAT 1 0 with
    | 0 => s
    | 1 => if f = 0 then (s0.hbValid word).wrN Reg.FLT_OSC cycles else s0.hbBad.flintTrip f
    | _ =>
      if f = 0 then ((s0.hbValid word).wrN Reg.FLT_OSC cycles).setFlint { s0.saf.flint with run := s0.saf.flint.run + 1 }
      else s0.hbBad.setFlint { s0.saf.flint with run := 0 }

def execFlintHeartbeat (word : Word) (cycles : Nat) (s : State) : Out := .next (s.flintHeartbeat word cycles)

/-- FLINT_REARM: without the latch, 8 valid heartbeats in a row return a tripped Flint to ARMED. -/
def State.flintRearm (s : State) : State :=
  if s.fld Reg.FLT_STAT 1 0 = 2 ∧ s.bit Reg.FLT_STAT 2 = false ∧ 8 ≤ s.saf.flint.run then (s.flintState 1 0).refreshSaf else s

def execFlintRearm (s : State) : Out := .next s.flintRearm

/-- FLINT_TIMEOUT: no valid heartbeat 1.75 × FLT_PERIOD after the last. -/
def State.flintTimeout (s : State) : State :=
  match s.fld Reg.FLT_STAT 1 0 with
  | 1 => s.flintTrip 1
  | 2 => s.setFlint { s.saf.flint with run := 0 }
  | _ => s

def execFlintTimeout (s : State) : Out := .next s.flintTimeout

/-- FLINT_OSC_FAULT: Flint's oscillator deviates by more than 5 %. -/
def execFlintOscFault (s : State) : Out := .next (if s.field.vcc then s.flintTrip 7 else s)

/-- The heartbeat that channel A sends at the C deadline, or at completion where that is later, rule R215. -/
def State.sendHeartbeat (s : State) : State :=
  let t := s.tick % 65536
  s.setFlint { s.saf.flint with sent := some (w32 (t + 65536 * (Config.heartbeatSig s.saf.flint.seed t).toNat)) }

/-- Entry to SELFTEST: a latched trip ends, the degrade classes start anew, and Slate is powered afresh. -/
def State.flintSelftest (s : State) : State :=
  let s1 := if s.field.vcc && s.fld Reg.FLT_STAT 1 0 == 2 then s.flintState 0 (s.fld Reg.FLT_STAT 7 4) else s
  let s2 := s1.setFld Reg.SAF_DEG 20 16 0
  { s2 with saf := { s2.saf with
      stFail := 0
      flint := { s2.saf.flint with tested := none }
      slate := { Slate.reset with since := s2.mono } } }

/-! ### Proof test, rules R224 and R225 -/

/-- A step of the proof test begins. -/
def State.ptEnter (s : State) (k : Nat) : State :=
  let s1 := s.setFld Reg.SAF_PT_STAT 3 0 k
  { s1 with saf := { s1.saf with
      pt := { ProofTest.reset with entered := s1.mono }
      flint := { s1.saf.flint with tested := none } } }

/-- The outputs that step 3 switches on. -/
def State.setPulse (s : State) (m : Nat) : State := ({ s with field := { s.field with pulse := BitVec.ofNat 16 m } }).refreshDq

/-- SAF_PT_START: a proof test starts in READY only. -/
def State.ptStart (s : State) : State :=
  if s.sys.dev = .ready ∧ s.bit Reg.SAF_PT_CMD 0 = false then
    (((s.setBit Reg.SAF_PT_CMD 0 true).setFld Reg.SAF_PT_STAT 5 0 1).ptEnter 1).refreshSaf
  else s

def execSafPtStart (ag : Agent) (s : State) : Out := .next (s.swWrite ag Page.SAF (fun t => t.ptStart))

/-- The running test fails at a step. -/
def State.ptFail (s : State) (k : Nat) : State :=
  let s1 := ((s.setBit Reg.SAF_PT_CMD 0 false).event Page.SAF 5 0).setPulse 0
  ((s1.setBit Reg.SAF_STAT 10 true).setFld Reg.SAF_PT_STAT 5 0 (32 + k)).refreshSaf

/-- The running test passes. -/
def State.ptPass (s : State) : State :=
  let s1 := (s.setBit Reg.SAF_PT_CMD 0 false).event Page.SAF 5 0
  let s2 := (((s1.setBit Reg.SAF_STAT 10 false).setBit Reg.SAF_STAT 9 false).wr Reg.SAF_PT_HOURS 0).inc Reg.SAF_PT_CNT
  let s3 := s2.setFld Reg.SAF_PT_STAT 5 0 (16 + 6)
  ({ s3 with saf := { s3.saf with ptBase := s3.mono } }).refreshSaf

/-- PROOF_TEST_END: the running test passes once every step is done, or fails at the step that runs. -/
def State.ptEnd (s : State) (failed : Option Nat) : State :=
  if s.bit Reg.SAF_PT_CMD 0 then
    match failed with
    | some k => if k = s.fld Reg.SAF_PT_STAT 3 0 ∧ s.saf.pt.done = false then s.ptFail k else s
    | none => if s.saf.pt.done then s.ptPass else s
  else s

def execProofTestEnd (failed : Option (Fin 6)) (s : State) : Out := .next (s.ptEnd (failed.map (fun k => k.val + 1)))

/-- SAF_PT_HOURS has come to `h` hours. -/
def State.ptHours (s : State) (h : Nat) : State := s.wrN Reg.SAF_PT_HOURS (max (s.rdN Reg.SAF_PT_HOURS) h)

/-- PROOF_TEST_DUE: SAF_PT_HOURS reaches PT_INTERVAL. -/
def State.ptDue (s : State) : State :=
  if s.clocked then
    (((s.ptHours (s.effFld Reg.SAF_CTRL 31 16)).setBit Reg.SAF_STAT 9 true).alarm Page.SAF 5 0).refreshSaf
  else s

def execProofTestDue (s : State) : Out := .next s.ptDue

/-- PROOF_TEST_GRACE_EXPIRY: the proof test is overdue by more than SAF_PT_GRACE hours. -/
def State.ptGraceExpiry (s : State) : State :=
  if s.clocked then
    (s.ptHours (s.effFld Reg.SAF_CTRL 31 16 + s.effFld Reg.SAF_PT_GRACE 15 0 + 1)).refreshSaf
  else s

def execProofTestGraceExpiry (s : State) : Out := .next s.ptGraceExpiry

/-- The hours of powered time since the last pass, at a tick boundary. -/
def State.ptCount (s : State) : State := s.ptHours ((s.mono - s.saf.ptBase) / 3600000000000)

end Sys2Proof.Machine
end

