-- ==== Sys2Proof/Machine/Field.lean ====
section
/-! DEFINITION. The field die: inputs and the field snapshot, counting inputs, outputs and their supervision, supplies and seal
switches, rules R310 to R328 (spec/13_field_io.md). -/

namespace Sys2Proof.Machine

/-! ### Configuration in force -/

/-- N_S. -/
def State.fioNs (s : State) : Nat := s.effFld Reg.FIO_SMP 3 0

/-- DI_FILT of an input; 0 for a counting input, rule R315. -/
def State.diFilt (s : State) (i : Nat) : Nat :=
  if i < 8 ∧ (s.eff (Reg.FIO_CNT i)).getLsbD 0 then 0
  else s.effFld (Reg.FIO_DI_FILT0 + 4 * (i / 16)) (2 * (i % 16) + 1) (2 * (i % 16))

/-- A configuration bit of an output. -/
def State.dqCfg (s : State) (i b : Nat) : Bool := (s.eff (Reg.FIO_DQ_CFG i)).getLsbD b

/-- The mask of a paralleled output while this unit is the standby, rule R323. -/
def State.dqMasked (s : State) (i : Nat) : Bool := s.standby && s.dqCfg i 5

/-- Numbers kept per channel. -/
def natAt (l : List (Nat × Nat)) (i : Nat) : Nat := ((l.find? (fun e => e.1 == i)).map (fun e => e.2)).getD 0
def natSet (l : List (Nat × Nat)) (i v : Nat) : List (Nat × Nat) := (i, v) :: l.filter (fun e => e.1 != i)

/-! ### Samples, rules R311 to R313 -/

/-- The voltage from which an input reads 1, mV: its type's ON threshold, rule R310. -/
def State.diOn (s : State) (i : Nat) : Int := if (s.eff Reg.FIO_DI_TYPE).getLsbD i then 11000 else 15000

/-- What an input reads at `mv`: 1 above its ON threshold, 0 below 5 V, and between them either, rule R310 (an open value, notes/assumptions/4.md). -/
def State.diRead (s : State) (i : Nat) (mv : Int) : Bool × State :=
  if s.diOn i < mv then (true, s)
  else if mv < 5000 then (false, s)
  else
    let kP := s.takeFree
    (Config.freeBool kP.1, kP.2)

/-- One input in one sample: a failed test counts as level 0; DI_FILT + 1 agreeing samples change the accepted level. -/
def State.diInput (s0 : State) (x : FieldSample) (i : Nat) : State :=
  let rP := s0.diRead i (x.di.getD i 0)
  let s := rP.2
  let f := s.field
  let lvl := rP.1 && !x.fail.getLsbD i
  if lvl = f.level.getLsbD i then { s with field := { f with runs := natSet f.runs i 0 } }
  else
    let r := natAt f.runs i + 1
    if s.diFilt i < r then
      { s with field := { f with runs := natSet f.runs i 0, level := BitVec.ofNat 32 (withBits f.level.toNat i i (b2n lvl)) } }
    else { s with field := { f with runs := natSet f.runs i r } }

/-- The failed tests of a sample. -/
def State.diTests (s : State) (fail : BitVec 32) : State :=
  if fail = 0 then s
  else
    (({ s with field := { s.field with test := s.field.test ||| fail } }).add Reg.FIO_DI_TEST_CNT
      ((List.range 32).filter (fun i => fail.getLsbD i)).length).event Page.FIO 3 0

/-! ### Off-state readback, open loads and supplies -/

/-- EXTF of an output, rules R322 and R323: the output stays off. A paralleled output of a standby is masked and counted. -/
def State.extf (s : State) (i : Nat) : State :=
  if s.dqMasked i then s.inc Reg.FIO_EXTF_MASK_CNT
  else if s.bit Reg.FIO_DQ_EXTF i then s
  else ((((s.setBit Reg.FIO_DQ_EXTF i true).setBit Reg.FIO_DQ_EXTF (16 + i) true).inc Reg.FIO_EXTF_CNT).event Page.FIO 0 0).refreshDq

/-- OFF_BLANK has elapsed since the latest switch-off. -/
def State.blankOver (s : State) (i : Nat) : Bool :=
  match s.field.offTime.find? (fun e => e.1 == i) with
  | none => true
  | some (_, t) => decide (t + s.effFld (Reg.FIO_DQ_CFG i) 31 24 * 100000 ≤ (s.mono : Int))

/-- The off-state readback of one output in one sample: two consecutive evaluated samples above 12 V set EXTF. -/
def State.readback (s : State) (i : Nat) : State :=
  let f := s.field
  let high := !f.on.getLsbD i && s.blankOver i && f.above.getLsbD i
  let s1 := { s with field := { f with fed := BitVec.ofNat 16 (withBits f.fed.toNat i i (b2n high)) } }
  if high && f.fed.getLsbD i then s1.extf i else s1

/-- A supply group: its open-load checks and current readback are suspended while it is switched off, rule R324. -/
def State.groupDown (s : State) (i : Nat) : Bool := s.field.lpOff.getLsbD (i / 8)

/-- OPEN_ON or OPEN_OFF of an output, rule R320. -/
def State.openLoad (s : State) (i : Nat) (off : Bool) : State :=
  let b := if off then 16 + i else i
  if s.bit Reg.FIO_DQ_OPEN b then s
  else ((s.setBit Reg.FIO_DQ_OPEN b true).inc Reg.FIO_OPEN_CNT).event Page.FIO 2 0

/-- The check that an open load belongs to applies now. -/
def State.openApplies (s : State) (i : Nat) (off : Bool) : Bool :=
  if s.groupDown i then false
  else if off then s.dqCfg i 3 && !s.field.on.getLsbD i && !s.dqMasked i
  else s.dqCfg i 2 && s.field.on.getLsbD i

/-- OPEN_LOAD: a check has found an open load. -/
def execOpenLoad (i : Fin 16) (off : Bool) (s : State) : Out :=
  .next (if s.field.vcc && s.openApplies i.val off then s.openLoad i.val off else s)

/-- The condition of a check still holds, so that its bit does not clear, rule R320. -/
def State.openHolds (s : State) (i : Nat) (off : Bool) : Bool :=
  s.openApplies i off &&
    if off then s.field.band.getLsbD i
    else decide (s.fld (Reg.FIO_DQ_I i) 15 0 < s.effFld (Reg.FIO_DQ_CFG i) 15 8)

/-- The bits of FIO_DQ_OPEN whose condition still holds. -/
def State.openStays (s : State) : Word :=
  BitVec.ofNat 32 ((List.range 16).foldl (fun m i =>
    m + b2n (s.openHolds i false) * 2 ^ i + b2n (s.openHolds i true) * 2 ^ (16 + i)) 0)

/-- The off-state check of one sample: the second consecutive evaluated one between 3 V and 12 V. -/
def State.openOff (s : State) (i : Nat) : State :=
  let f := s.field
  let now := s.openApplies i true && f.band.getLsbD i
  let s1 := { s with field := { f with banded := BitVec.ofNat 16 (withBits f.banded.toNat i i (b2n now)) } }
  if now && f.banded.getLsbD i then s1.openLoad i true else s1

/-- The on-state check of one tick. -/
def State.openOn (s : State) (i : Nat) : State :=
  let cur := s.fld (Reg.FIO_DQ_I i) 15 0
  let n := if s.openApplies i false && decide (cur < s.effFld (Reg.FIO_DQ_CFG i) 15 8) then natAt s.field.openRun i + 1 else 0
  let s1 := { s with field := { s.field with openRun := natSet s.field.openRun i n } }
  if 0 < n ∧ s.effFld Reg.FIO_OL_N 7 0 ≤ n then s1.openLoad i false else s1

/-- Write one bit of a two-bit mask. -/
def setTwo (m : BitVec 2) (g : Nat) (b : Bool) : BitVec 2 := BitVec.ofNat 2 (withBits m.toNat g g (b2n b))

/-- LPn_OK follows the thresholds. -/
def State.lpOk (s : State) (g : Nat) : State :=
  s.setBit Reg.FIO_LP_STAT (8 + g) (!s.field.lpUv.getLsbD g && !s.field.lpOv.getLsbD g)

/-- L+ of a group is below its threshold: its outputs switch off, rule R324. -/
def State.lpUnder (s : State) (g : Nat) : State :=
  if !s.field.vcc || s.field.lpUv.getLsbD g then s
  else
    let s1 := { s with field := { s.field with
      lpUv := setTwo s.field.lpUv g true, lpOff := setTwo s.field.lpOff g true, lpBack := setTwo s.field.lpBack g false } }
    ((((s1.setBit Reg.FIO_LP_STAT (2 * g) true).inc Reg.FIO_LP_UV_CNT).alarm Page.FIO 4 0).lpOk g).refreshDq

def execLpUndervoltage (g : Fin 2) (s : State) : Out := .next (s.lpUnder g.val)

/-- L+ of a group is above its overvoltage threshold: the outputs keep working. -/
def State.lpHigh (s : State) (g : Nat) : State :=
  if !s.field.vcc || s.field.lpOv.getLsbD g then s
  else
    ((({ s with field := { s.field with lpOv := setTwo s.field.lpOv g true } }).setBit Reg.FIO_LP_STAT (2 * g + 1) true).alarm
      Page.FIO 5 0).lpOk g

def execLpOvervoltage (g : Fin 2) (s : State) : Out := .next (s.lpHigh g.val)

/-- LP_RECOVERY: L+ has stayed above the rising threshold for LP_RECOV; the outputs follow again from the next boundary. -/
def State.lpRecovery (s : State) (g : Nat) : State :=
  if s.field.vcc && s.field.lpOff.getLsbD g then
    ({ s with field := { s.field with lpUv := setTwo s.field.lpUv g false, lpBack := setTwo s.field.lpBack g true } }).lpOk g
  else s

def execLpRecovery (g : Fin 2) (s : State) : Out := .next (s.lpRecovery g.val)

/-- A group's L+ as a sample measures it, mV: thresholds with their hysteresis. -/
def State.lpSample (s : State) (g mv : Nat) : State :=
  let s1 := if mv < 18000 then s.lpUnder g
    else if 18800 < mv then { s with field := { s.field with lpUv := setTwo s.field.lpUv g false } } else s
  let s2 := if 31500 < mv then s1.lpHigh g
    else if mv < 30800 then { s1 with field := { s1.field with lpOv := setTwo s1.field.lpOv g false } } else s1
  s2.lpOk g

/-- The instant of sample j of the snapshot of the coming boundary, rule R311. -/
def State.readTime (s : State) (j : Nat) : Nat :=
  s.nextBoundary - s.effFld Reg.FIO_SMP 15 8 * 1000 - (s.fioNs - 1 - j) * (s.tTick / s.fioNs)

/-- DI_SAMPLE: window j reads and tests every input, and measures outputs and supplies. -/
def State.diSample (s : State) (j : Nat) (x : FieldSample) : State :=
  if !s.field.vcc then s
  else
    let s0 := if s.qtz.started && s.ticking then s.advance (s.readTime j) else s
    let s00 := forUpTo (fun i st => st.diInput x i) 32 s0
    let s1 := (s00.homeDi s00.field.level s00.now).diTests x.fail
    let s2 := { s1 with field := { s1.field with above := x.above, band := x.band } }
    let s3 := (s2.setFld Reg.FIO_DQ_RB 15 0 x.above.toNat).wrN Reg.FIO_LP_V (x.lp1 % 65536 + 65536 * (x.lp2 % 65536))
    let s4 := forUpTo (fun i st => if st.groupDown i then st else st.setFld (Reg.FIO_DQ_I i) 15 0 (min 1500 (x.current.getD i 0))) 16 s3
    let s5 := (s4.lpSample 0 x.lp1).lpSample 1 x.lp2
    let s6 := forUpTo (fun i st => st.readback i) 16 s5
    forUpTo (fun i st => st.openOff i) 16 s6

def execDiSample (j : Fin 16) (x : FieldSample) (s : State) : Out := .next (s.diSample j.val x)

/-! ### Counting inputs, rules R315 and R316 -/

def State.countRt (s : State) (i : Nat) : CountRt := Tab.get (fun _ => CountRt.reset) s.field.counts i
def State.setCountRt (s : State) (i : Nat) (x : CountRt) : State :=
  { s with field := { s.field with counts := Tab.set (fun _ => CountRt.reset) s.field.counts i x } }

/-- COUNT_EDGE: an edge of a counting input; EDGE selects which count. -/
def State.countEdge (s : State) (i : Nat) (rising : Bool) (t : Nat) : State :=
  let c := s.eff (Reg.FIO_CNT i)
  if s.field.vcc && c.getLsbD 0 && c.getLsbD (if rising then 1 else 2) then
    let x := s.countRt i
    (s.wrN (Reg.FIO_CNT_VAL i) (s.rdN (Reg.FIO_CNT_VAL i) + 1)).setCountRt i
      { x with last := some t, gap := x.last.map (fun t0 => t - t0) }
  else s

def execCountEdge (i : Fin 8) (rising : Bool) (stamp : Nat) (s : State) : Out := .next (s.countEdge i.val rising stamp)

/-- Period and frequency of a counting input at a boundary. -/
def State.countTick (s : State) (i : Nat) : State :=
  let c := (s.eff (Reg.FIO_CNT i)).toNat
  if !c.testBit 0 then s.setCountRt i CountRt.reset
  else
    let x := s.countRt i
    let gate := bitsOf c 15 8
    let v := s.rdN (Reg.FIO_CNT_VAL i)
    let hist := (v :: x.hist).take (gate + 1)
    let freq := match hist[gate]? with
      | some v0 => (v + 4294967296 - v0) % 4294967296 * 1000000000000 / (gate * s.tTick)
      | none => 0
    ((s.setCountRt i { x with hist := hist }).wrN (Reg.FIO_CNT_PER i) (min (x.gap.getD 0) 0xFFFFFFFF)).wrN (Reg.FIO_CNT_FREQ i)
      (min freq 0xFFFFFFFF)

/-! ### The snapshot, rule R314 -/

/-- The words of the snapshot by offset. -/
def State.snapWords (s : State) : List (Nat × Nat) :=
  let opens := s.rdN Reg.FIO_DQ_OPEN
  [(0, s.field.level.toNat), (4, s.field.test.toNat),
   (8, s.field.above.toNat + 65536 * s.fld Reg.FIO_DQ_EXTF 15 0),
   (12, s.fld Reg.FIO_DQ_OVL 15 0 + 65536 * (opens % 65536 ||| opens / 65536)),
   (16, s.fld Reg.FIO_LP_STAT 9 8 + 4 * b2n s.field.lossSince + 256 * s.fld Reg.FIO_SEAL 7 0 + 65536 * s.fld Reg.FIO_DQ_RB 31 16),
   (20, s.rdN Reg.FIO_LP_V), (56, s.field.ns), (60, 0)] ++
  (List.range 8).map (fun j => (24 + 4 * j, s.fld (Reg.FIO_DQ_I (2 * j)) 15 0 + 65536 * s.fld (Reg.FIO_DQ_I (2 * j + 1)) 15 0)) ++
  (List.range 8).flatMap (fun i =>
    [(64 + 8 * i, s.rdN (Reg.FIO_CNT_VAL i)), (68 + 8 * i, ((s.countRt i).last.getD 0) % 4294967296)])

/-- The G phase writes the snapshot of the tick the boundary opens; without one its words stay those of the last tick
(DESIGN CHOICE, notes/assumptions/24.md), and it is marked invalid. A standby takes the active unit's, rule R356. -/
def State.putSnapshot (s : State) : State :=
  let s1 := { s with field := { s.field with snapBad := !s.field.vcc } }
  if !s.phasesRun then s1
  else if s.field.vcc && !s.shadow then forEach (fun e st => st.setCell (st.snapAddr + e.1) 4 e.2) s.snapWords s1
  else s1.copyCell (s.gath (1 - s.parity) + 0x84400) s.snapAddr 128

/-- FIO_DI and FIO_DI_TEST show the snapshot; a new one begins, with N_S as now in force. -/
def State.snapTaken (s : State) : State :=
  let s1 := (s.wrN Reg.FIO_DI s.field.level.toNat).wrN Reg.FIO_DI_TEST s.field.test.toNat
  { s1 with field := { s1.field with test := 0, lossSince := false, ns := s1.fioNs } }

/-! ### Outputs, rules R317 to R321 -/

/-- The state that an output's source gives in the L phase, rule R317: SAFE outputs are channel A's. -/
def State.dqSource (s : State) (i : Nat) : Bool :=
  match s.effFld (Reg.FIO_DQ_CFG i) 1 0 with
  | 0 => s.field.soft.getLsbD i
  | 1 => s.prof.dqToggle.getLsbD i || s.prof.dqPulse.getLsbD i
  | _ => false

/-- The L phase writes the output word of the tick, rule R318; the pulse actions of the tick are used up. -/
def State.putOutputWord (s : State) : State :=
  let s1 := s.setCell (s.cmdSet s.parity + 0x1280) 4 (maskOf s.dqSource)
  { s1 with prof := { s1.prof with dqPulse := 0 } }

/-- FIO_DQ_SW as the command cut takes it. -/
def State.cutOutputs (s : State) : State := { s with field := { s.field with soft := BitVec.ofNat 16 (s.rdN Reg.FIO_DQ_SW) } }

/-- CHECKED_WORD: the field die receives the checked word of the tick, which it applies at the next boundary; a unit of a twin
pair that is not to act sends the all-off word; where the C phase has not ended in time no word is available, and in SELFTEST none is emitted, rules R19, R24 and R49. -/
def State.checkedWord (s : State) : State :=
  if s.ticking && s.sys.dev != .selftest && s.field.vcc && !s.field.wordLost && s.qtz.ended.testBit 5 then
    let w := if s.mute then 0 else s.cell32 (s.chkSet s.parity + 0x1280)
    { s with field := { s.field with next := some (BitVec.ofNat 16 w) } }
  else s

def execCheckedWord (s : State) : Out := .next s.checkedWord

/-- CMD_LOSS: 1.5 ticks have passed without a checked word: every output switches off, rule R319; a word that has waited that long for
its boundary is none that arrives. -/
def State.cmdLoss (s : State) : State :=
  if s.field.vcc then
    ((({ s with field := { s.field with lost := true, lossSince := true, next := none } }).setBit Reg.FIO_LP_STAT 4 true).inc
      Reg.FIO_CMD_LOSS_CNT).event Page.FIO 6 0 |>.refreshDq
  else s

def execCmdLoss (s : State) : Out := .next s.cmdLoss

/-- Clear or set an output's bit in the overload mask. -/
def State.setOvlOff (s : State) (i : Nat) (b : Bool) : State :=
  { s with field := { s.field with ovlOff := BitVec.ofNat 16 (withBits s.field.ovlOff.toNat i i (b2n b)) } }

/-- An overload switch-off, rule R321. -/
def State.overload (s : State) (i : Nat) : State :=
  ((((((s.setOvlOff i true).setBit Reg.FIO_DQ_OVL i true).setBit Reg.FIO_DQ_OVL (16 + i) true).inc Reg.FIO_OVL_CNT).alarm
    Page.FIO 1 0)).refreshDq

/-- OUTPUT_OVERLOAD: an output that is on has been in current limit for OVL_T, or its channel is in thermal shutdown. -/
def execOutputOverload (i : Fin 16) (s : State) : Out :=
  .next (if s.field.vcc && s.field.on.getLsbD i.val then s.overload i.val else s)

/-- OFF_BLANK of an output runs from now: it has just switched off, rule R322. -/
def State.blankAnew (s : State) (i : Nat) : State :=
  { s with field := { s.field with offTime := (i, (s.mono : Int)) :: s.field.offTime.filter (fun e => e.1 != i) } }

/-- OVERLOAD_RETRY: 10 ms after the switch-off an output still commanded on switches on again, unless OVL_LATCH keeps it off;
`holds` tells whether it stays out of current limit for OVL_T, which clears LIMITING, or switches off again. -/
def State.overloadRetry (s : State) (i : Nat) (holds : Bool) : State :=
  if s.field.vcc && s.field.ovlOff.getLsbD i && s.dqCommanded i && !s.dqCfg i 4 then
    if holds then ((s.setOvlOff i false).setBit Reg.FIO_DQ_OVL (16 + i) false).refreshDq else (s.blankAnew i).overload i
  else s

def execOverloadRetry (i : Fin 16) (holds : Bool) (s : State) : Out := .next (s.overloadRetry i.val holds)

/-! ### VCC_F and the seal switches, rules R325 and R326 -/

/-- VCC_F_LOSS: the field die resets. Its status and counters return to their reset values (its configuration is held in the
fabric hub: DEDUCED, notes/assumptions/25.md), Flint trips, no output is driven. -/
def State.vccLoss (s : State) : State :=
  if !s.field.vcc then s
  else
    let s1 := s.flintTrip 6
    let s2 := { s1 with
      regs := Tab.dropRange (pageBase Page.FIO + 0x800) 0x800 s1.regs
      field := { Field.reset with vcc := false, soft := s1.field.soft, parUntil := s1.field.parUntil } }
    ((s2.setBit Reg.FIO_LP_STAT 6 true).setBit Reg.PWR_DOM_STAT 12 false).refreshDq

def execVccFLoss (s : State) : Out := .next s.vccLoss

/-- VCC_F_RECOVERY: Flint is in HOLD from power-up, rule R214; outputs stay off until a checked word has been received. -/
def State.vccRecovery (s : State) : State :=
  if s.field.vcc then s
  else
    (({ s with field := { s.field with vcc := true } }).setBit Reg.PWR_DOM_STAT 12 true).flintState 0 (s.fld Reg.FLT_STAT 7 4)
      |>.refreshSaf |>.refreshDq

def execVccFRecovery (s : State) : Out := .next s.vccRecovery

/-- SEAL_SW_ACCEPT: a seal switch has been stable for 10 ms. -/
def execSealSwAccept (line : Fin 8) (level : Bool) (s : State) : Out :=
  .next (if s.field.vcc then s.setBit Reg.FIO_SEAL line.val level else s)

/-! ### The boundary -/

/-- An output no longer commanded on ends its overload, but for a latched one (notes/assumptions/26.md). -/
def State.endOverloads (s : State) : State :=
  forUpTo (fun i st => if st.dqCommanded i || st.dqCfg i 4 then st else st.setOvlOff i false) 16 s

/-- The outputs at a boundary: the word received for it, recovered supplies, and cleared EXTF bits take effect. -/
def State.switchOutputs (s : State) : State :=
  let f := s.field
  let f1 : Field := match f.next with
    | some w => { f with word := w, lost := false, next := none }
    | none => f
  let s1 := { s with field := { f1 with
    lpOff := BitVec.ofNat 2 (f.lpOff.toNat &&& (3 - f.lpBack.toNat)), lpBack := 0, wordLost := false } }
  ((s1.setFld Reg.FIO_DQ_EXTF 31 16 (s.fld Reg.FIO_DQ_EXTF 15 0)).endOverloads).refreshDq

/-- The field die at a boundary: checks and counters of the tick that ends, its snapshot, and the outputs. -/
def State.fieldBoundary (s : State) : State :=
  if s.field.vcc then
    let s1 := forUpTo (fun i st => st.countTick i) 8 (forUpTo (fun i st => st.openOn i) 16 s)
    (s1.putSnapshot).snapTaken.switchOutputs
  else s.putSnapshot

end Sys2Proof.Machine
end

