-- ==== Sys2Proof/Machine/Feedback.lean ====
section
/-! DEFINITION. Feedback channels and local axes: incremental, Hall and SSI inputs, measured speed, and the step and
direction outputs, rules R291 to R309 (spec/12_feedback_local_axes.md). -/

namespace Sys2Proof.Machine

/-! ### What the pins keep -/

def State.encRt (s : State) (e : Nat) : EncRt := Tab.get (fun _ => EncRt.reset) s.fbk.enc e
def State.setEncRt (s : State) (e : Nat) (x : EncRt) : State :=
  { s with fbk := { s.fbk with enc := Tab.set (fun _ => EncRt.reset) s.fbk.enc e x } }
def State.hallRt (s : State) (h : Nat) : HallRt := Tab.get (fun _ => HallRt.reset) s.fbk.hall h
def State.setHallRt (s : State) (h : Nat) (x : HallRt) : State :=
  { s with fbk := { s.fbk with hall := Tab.set (fun _ => HallRt.reset) s.fbk.hall h x } }
def State.ssiRt (s : State) (c : Nat) : SsiRt := Tab.get (fun _ => SsiRt.reset) s.fbk.ssi c
def State.setSsiRt (s : State) (c : Nat) (x : SsiRt) : State :=
  { s with fbk := { s.fbk with ssi := Tab.set (fun _ => SsiRt.reset) s.fbk.ssi c x } }
def State.laxRt (s : State) (n : Nat) : LaxRt := Tab.get (fun _ => LaxRt.reset) s.fbk.lax n
def State.setLaxRt (s : State) (n : Nat) (x : LaxRt) : State :=
  { s with fbk := { s.fbk with lax := Tab.set (fun _ => LaxRt.reset) s.fbk.lax n x } }

/-! ### Binding, rules R291 to R293 -/

/-- LAX_CFG.SRC_TYPE: 0 STEP, 1 ENC, 2 HALL, 3 SSI. -/
def State.srcType (s : State) (n : Nat) : Nat := s.fld (Reg.LAX_CFG n) 1 0

/-- LAX_CFG.SRC_CH. -/
def State.srcCh (s : State) (n : Nat) : Nat := s.fld (Reg.LAX_CFG n) 7 4

/-- LAX_CFG.STEP_EN. -/
def State.stepEn (s : State) (n : Nat) : Bool := s.bit (Reg.LAX_CFG n) 8

/-- The enabled local axes that read channel `ch` of a source type. A local axis is enabled by PRF_CTRL.EN of axis 128 + n
(DEDUCED, notes/assumptions/21.md). -/
def State.readers (s : State) (ty ch : Nat) : List Nat :=
  (List.range 16).filter (fun n => s.axisEn (128 + n) && s.srcType n == ty && s.srcCh n == ch)

/-- The local axes that take their state from channel `ch` of a source type, enabled or not. -/
def State.bound (s : State) (ty ch : Nat) : List Nat := (List.range 16).filter (fun n => s.srcType n == ty && s.srcCh n == ch)

/-- The source's extended raw count. -/
def State.extOf (s : State) (n : Nat) : Int :=
  match s.srcType n with
  | 0 => s.rdI64 (Reg.LAX_NOUT n)
  | 1 => s.rdI64 (Reg.FBK_ENC_CNT (s.srcCh n))
  | 2 => (s.hallRt (s.srcCh n)).count
  | _ => (s.ssiRt (s.srcCh n)).ext

/-- The position of a raw count before saturation, rule R293. -/
def State.rawPos (s : State) (n : Nat) (ext : Int) : Int := ext * s.rdI (Reg.LAX_K n) + s.rdI64 (Reg.LAX_POS_OFS n)

/-- x_m of a raw count, rule R293. -/
def State.laxPos (s : State) (n : Nat) (ext : Int) : Int := satTo 64 (s.rawPos n ext)

/-- The compare unit of a local axis sees a change of ext from `x0` to `x1` at time `t`, as rule R134 uses. -/
def State.laxCompare (s : State) (n : Nat) (x0 x1 : Int) (t : Nat) : State :=
  if x0 = x1 then s else s.compareSpan (128 + n) (s.laxPos n x0) (s.laxPos n x1) t t

/-- A counted edge: stamp and count after it. -/
def EdgeRt.note (x : EdgeRt) (t : Nat) (c dir : Int) : EdgeRt :=
  { x with
    newest := some (t, c)
    gap := match x.newest with
      | some (t0, _) => t - t0
      | none => 0
    dir := dir
    inTick := true }

/-- A boundary: the newest edge of the tick that ends becomes the reference of later ticks. -/
def EdgeRt.roll (x : EdgeRt) : EdgeRt :=
  let y := { x with old := x.ref }
  if x.inTick then { y with ref := x.newest, inTick := false } else y

/-- An edge accepted after the boundary of the tick that its stamp belongs to. -/
def EdgeRt.noteLate (x : EdgeRt) (t : Nat) (c dir : Int) : EdgeRt :=
  { (x.note t c dir) with inTick := x.inTick, ref := some (t, c) }

/-- The edges as the boundary of that tick sees them. -/
def EdgeRt.atBoundary (x : EdgeRt) : EdgeRt := { x with inTick := true, ref := x.old }

/-- An edge stamped at the last boundary or before it belongs to the tick that has ended, rule R294. -/
def State.pastEdge (s : State) (t : Nat) : Bool := decide (t ≤ s.rd64 Reg.QTZ_LAST_TICK)

/-- A counted edge in the tick it belongs to. -/
def State.noteEdge (s : State) (x : EdgeRt) (t : Nat) (c dir : Int) : EdgeRt :=
  if s.pastEdge t then x.noteLate t c dir else x.note t c dir

/-! ### What the channels show -/

/-- FBK_ENC.EN. -/
def State.encEn (s : State) (e : Nat) : Bool := s.bit (Reg.FBK_ENC e) 0

/-- A line fault is present on a channel. -/
def State.linesLow (s : State) (e : Nat) : Bool :=
  let low := (s.encRt e).low
  s.encEn e && (low.getLsbD 0 || low.getLsbD 1 || (low.getLsbD 2 && s.bit (Reg.FBK_ENC e) 8))

/-- The sector of a valid code. -/
def hallSector (code : Nat) : Option Nat :=
  match code with
  | 1 => some 0
  | 3 => some 1
  | 2 => some 2
  | 6 => some 3
  | 4 => some 4
  | 5 => some 5
  | _ => none

/-! ### Measured speed, rules R301 to R303 -/

/-- v_f: the frequency method. -/
def State.vFreq (s : State) (n : Nat) (ext : Int) : Int :=
  (ext - (s.laxRt n).prior.1) * s.rdI (Reg.LAX_K n) * 65536

/-- v_p: the period method, for ENC and HALL sources. -/
def State.vPeriod (s : State) (n : Nat) (x : EdgeRt) (tb : Nat) : Int :=
  let k := s.rdI (Reg.LAX_K n)
  let T : Int := s.tTick
  match x.newest with
  | none => 0
  | some (te, ce) =>
    if s.fld (Reg.LAX_PER_MAX n) 15 0 * s.tTick < tb - te then 0
    else if x.inTick then
      match x.ref with
      | none => 0
      | some (tr, cr) => ratioRound ((ce - cr) * k * T * 65536) ((te : Int) - tr)
    else if x.ref.isNone then 0
    else
      let vp := (s.laxRt n).prior.2.2
      sgn vp * min (mag vp) (ratioRound (mag k * T * 65536) ((tb : Int) - te))

/-- The method in force in this tick: 0 PERIOD, 1 FREQ; and whether it changed over. -/
def State.methodNow (s : State) (n : Nat) (ext : Int) : Nat × Bool :=
  let vLo := s.fld (Reg.LAX_VSW n) 15 0
  let vHi := s.fld (Reg.LAX_VSW n) 31 16
  let nf := (ext - (s.laxRt n).prior.1).natAbs
  let m := (s.laxRt n).prior.2.1
  if s.srcType n = 0 ∨ s.srcType n = 3 ∨ vHi = 0 then (1, false)
  else if m = 0 then if vHi ≤ nf then (1, true) else (0, false)
  else if nf < vLo then (0, true)
  else (1, false)

/-- The edges of an axis's source. -/
def State.srcEdges (s : State) (n : Nat) : EdgeRt :=
  if s.srcType n = 1 then (s.encRt (s.srcCh n)).edges else (s.hallRt (s.srcCh n)).edges

/-- The pins latch an axis at a boundary: what the sample of the tick starts from. -/
def State.openSample (s : State) (n : Nat) : State :=
  s.setLaxRt n { s.laxRt n with prior := (s.rdI64 (Reg.LAX_EXT n), s.fld (Reg.LAX_STAT n) 1 1, (s.laxRt n).vp) }

/-- v_m of this tick from the source's edges, with LAX_STAT.METHOD, LAX_METHOD_CNT, v_p and LAX_EXT brought up to it. -/
def State.laxSpeed (s : State) (n : Nat) (ext : Int) (x : EdgeRt) : Int × State :=
  let tb := s.rd64 Reg.QTZ_LAST_TICK
  let vp := if s.srcType n = 1 ∨ s.srcType n = 2 then s.vPeriod n x tb else 0
  let mP := s.methodNow n ext
  let m := mP.1
  let changed := mP.2
  let s1 := (s.setLaxRt n { s.laxRt n with vp := vp }).setFld (Reg.LAX_STAT n) 1 1 m
  let s2 := if changed && s.fld (Reg.LAX_STAT n) 1 1 != m then s1.inc (Reg.LAX_METHOD_CNT n) else s1
  (fit64 (if m = 0 then vp else s.vFreq n ext), s2.wrI64 (Reg.LAX_EXT n) ext)

/-! ### The axis entry of the gather buffer, rule R292 -/

/-- A feedback fault of the axis's channel in the tick, bit 5 of the status word. -/
def State.srcFault (s : State) (n : Nat) : Bool :=
  let ch := s.srcCh n
  match s.srcType n with
  | 0 => false
  | 1 => (s.encRt ch).fault || s.linesLow ch
  | 2 => (s.hallRt ch).fault || (hallSector (s.fld (Reg.FBK_HALL_STAT ch) 2 0)).isNone
  | _ => !(s.ssiRt ch).good

/-- The sample is valid, rules R295, R297, R298 and R300; a source whose channel is disabled has none (DESIGN CHOICE,
notes/assumptions/21.md). -/
def State.sampleValid (s : State) (n : Nat) : Bool :=
  let ch := s.srcCh n
  match s.srcType n with
  | 0 => true
  | 1 => s.encEn ch && !s.bit (Reg.LAX_STAT n) 2 && !(s.bit (Reg.LAX_CFG n) 17 && s.bit (Reg.LAX_STAT n) 3)
  | 2 => s.bit (Reg.FBK_HALL ch) 0 && (hallSector (s.fld (Reg.FBK_HALL_STAT ch) 2 0)).isSome
  | _ => s.bit (Reg.FBK_SSI ch) 0 && (s.ssiRt ch).good

/-- Bit 4 of the status word: stop code 0b11 is in force at the step output. -/
def State.laxSto (s : State) (n : Nat) : Bool := s.bit (Reg.LAX_STAT n) 6

/-- A valid sample. -/
def State.laxGood (s : State) (n : Nat) (e : EdgeRt) : State :=
  let r := s.axisRec (128 + n)
  let ext := s.extOf n
  let x := s.laxPos n ext
  let vP := s.laxSpeed n ext e
  let v := vP.1
  let s1 := vP.2
  let idx := (s.laxRt n).index
  let fault := s.srcFault n || decide (x ≠ s.rawPos n ext)
  let st := 16 * b2n (s.laxSto n) + 32 * b2n fault + 64 * b2n idx.isSome
  let s2 := ((((s1.setCellI r 8 x).setCellI (r + 8) 8 v).setCell (r + 16) 4 0).setCell (r + 20) 4 st).setCell (r + 36) 4 0
  let s3 := match idx with
    | some (p, t) => (s2.setCellI (r + 24) 8 p).setCell (r + 32) 4 t
    | none => s2
  ((s3.setCell (r + 40) 4 (1 + 65536 * (s.tick % 65536))).setLaxRt n { s3.laxRt n with miss := 0, okFault := fault }).setBit (Reg.LAX_STAT n) 0 true

/-- An invalid sample: +0 to +36 keep their values of the last valid tick, but for the fault bit, which a fault of this tick sets
(DEDUCED, notes/assumptions/22.md). -/
def State.laxBad (s : State) (n : Nat) : State :=
  let r := s.axisRec (128 + n)
  let m := min 255 ((s.laxRt n).miss + 1)
  let s0P := s.laxSpeed n (s.extOf n) (s.srcEdges n)
  let s0 := s0P.2
  let s1 := s0.copyCell (s.gath (1 - s.parity) + 64 * (128 + n)) r 40
  let s2 := s1.setCell (r + 20) 4 (withBits (s1.cell32 (r + 20)) 5 5 (b2n (s.srcFault n || (s.laxRt n).okFault)))
  let s3 := (s2.setCell (r + 40) 4 (256 * m + 65536 * (s.tick % 65536))).setLaxRt n { s2.laxRt n with miss := m }
  ((s3.setBit (Reg.LAX_STAT n) 0 false).inc (Reg.LAX_MISS_CNT n)).event (Page.LAX n) 3 0

/-- The entry of one local axis. -/
def State.laxGather (s : State) (n : Nat) : State := if s.sampleValid n then s.laxGood n (s.srcEdges n) else s.laxBad n

/-- What the pins latch of a local axis in a tick without a G phase: its count and its speed go on from here. -/
def State.laxLatch (s : State) (n : Nat) : State := (s.laxSpeed n (s.extOf n) (s.srcEdges n)).2

/-- An edge of the tick that has ended comes late: the latched sample, and the entry while its copy is open, take it in, rule R294 (DEDUCED,
notes/assumptions/152.md). -/
def State.resample (s : State) (n : Nat) : State :=
  let e := (s.srcEdges n).atBoundary
  if s.phasesRun && s.bit (Reg.LAX_STAT n) 0 && !s.isSealed .g then s.laxGood n e else (s.laxSpeed n (s.extOf n) e).2

/-- What FOLLOW latches of an incremental channel, rule R129. -/
def State.followOf (s : State) (e : Nat) : FollowLatch :=
  let x := (s.encRt e).edges
  ⟨s.rdI64 (Reg.FBK_ENC_CNT e), (x.newest.map (fun q => q.1)).getD 0, x.gap, x.dir⟩

/-- A local axis's armings are judged by rule R135 against the position that the boundary has latched. -/
def State.judgeLocal (s : State) (n : Nat) : State :=
  let xP := s.measured (128 + n)
  if xP.2.2 then forUpTo (fun c st => st.judgeArmed (128 + n) c xP.1) 4 s else s

/-! ### Incremental inputs, rules R294 to R297 -/

/-- The place of the levels of A and B in the sequence of a leading A: 00, 10, 11, 01. -/
def quadPhase (a b : Bool) : Nat :=
  match a, b with
  | false, false => 0
  | true, false => 1
  | true, true => 2
  | false, true => 3

/-- The count of a change of A and B by MODE, before INV_DIR; none where A and B change together in QUAD, rule R294. -/
def encStep (mode : Nat) (a0 b0 a b : Bool) : Option Int :=
  match mode with
  | 0 =>
    match (quadPhase a b + 4 - quadPhase a0 b0) % 4 with
    | 0 => some 0
    | 1 => some 1
    | 3 => some (-1)
    | _ => none
  | 1 => if !a0 && a then some (if b then 1 else -1) else some 0
  | _ => some ((if !a0 && a then 1 else 0) - (if !b0 && b then 1 else 0))

/-- The readers of a channel and what FOLLOW has latched of it take in an edge of the tick that has ended. -/
def State.lateCount (s : State) (e : Nat) : State :=
  let s1 := { s with prof := { s.prof with follow := s.prof.follow.map (fun f => if f.1 = e then (e, s.followOf e) else f) } }
  forEach (fun n st => st.resample n) (s1.readers 1 e) s1

/-- A channel counts `d` at time `t`. -/
def State.encCount (s : State) (e : Nat) (d : Int) (t : Nat) : State :=
  let c0 := s.rdI64 (Reg.FBK_ENC_CNT e)
  let c := c0 + d
  let x := s.encRt e
  let s1 := (s.wrI64 (Reg.FBK_ENC_CNT e) c).setEncRt e { x with edges := s.noteEdge x.edges t c (sgn d) }
  (forEach (fun n st => st.laxCompare n c0 c t) (s.readers 1 e) s1).when (s.pastEdge t) (fun u => u.lateCount e)

/-- QERR: no count; status, counter and event. -/
def State.qerr (s : State) (e : Nat) : State :=
  (((s.setBit (Reg.FBK_ENC_STAT e) 4 true).inc (Reg.FBK_QERR_CNT e)).setEncRt e { s.encRt e with fault := true }).event
    Page.FBK 0 0

/-- ENCODER_EDGE: the accepted levels of A and B become `a` and `b`, with the stamp of the first sample of the new levels. -/
def State.encoderEdge (s : State) (e : Nat) (a b : Bool) (t : Nat) : State :=
  if !s.timed then s
  else
    let a0 := s.bit (Reg.FBK_ENC_STAT e) 0
    let b0 := s.bit (Reg.FBK_ENC_STAT e) 1
    let s1 := (s.setBit (Reg.FBK_ENC_STAT e) 0 a).setBit (Reg.FBK_ENC_STAT e) 1 b
    if !s.encEn e then s1
    else
      match encStep (s.fld (Reg.FBK_ENC e) 2 1) a0 b0 a b with
      | none => s1.qerr e
      | some 0 => s1
      | some d => s1.encCount e (if s.bit (Reg.FBK_ENC e) 3 then -d else d) t

def execEncoderEdge (e : Fin 16) (a b : Bool) (stamp : Nat) (s : State) : Out := .next (s.encoderEdge e.val a b stamp)

/-- The integer nearestIndex to d / P, halves toward zero. -/
def nearestIndex (d : Int) (P : Nat) : Int := sgn d * ((2 * mag d + P - 1) / (2 * P))

/-- An index fault of a channel and of the axes that read it, rule R297. -/
def State.idxDev (s : State) (e : Nat) : State :=
  let s1 := (((s.setBit (Reg.FBK_ENC_STAT e) 6 true).inc (Reg.FBK_IDX_DEV_CNT e)).setEncRt e
    { s.encRt e with fault := true }).alarm Page.FBK 2 0
  forEach (fun n st => (st.setBit (Reg.LAX_STAT n) 3 true).alarm (Page.LAX n) 1 0) (s.bound 1 e) s1

/-- The check of a latch against the one before it, rule R297; a latch out of tolerance is the condition of IDX_DEV until the next check
(DEDUCED, notes/assumptions/152.md). -/
def State.idxCheck (s : State) (e : Nat) (c : Int) : State :=
  let P := s.fld (Reg.FBK_ENC e + 4) 23 0
  match (s.encRt e).prev with
  | none => s
  | some c0 =>
    if P = 0 then s
    else
      let dev := c - (c0 + nearestIndex (c - c0) P * P)
      let bad := decide ((s.fld (Reg.FBK_ENC e + 4) 31 24 : Int) < mag dev)
      let s1 := (s.wrI (Reg.FBK_IDX_DEVN e) dev).setEncRt e { s.encRt e with devBad := bad }
      if bad then s1.idxDev e else s1

/-- A latch is the first of its tick: of the present one, or of the one that has ended, whose records it then enters, rules R294 and R296. -/
def State.firstLatch (s : State) (e : Nat) (c : Int) (t : Nat) : State :=
  if s.pastEdge t then
    forEach (fun n st =>
      if (st.laxRt n).index.isNone then (st.setLaxRt n { st.laxRt n with index := some (st.laxPos n c, t) }).resample n else st)
      (s.readers 1 e) s
  else
    let x := s.encRt e
    s.setEncRt e { x with first := if x.first.isNone then some (c, t) else x.first }

/-- INDEX_EDGE: the accepted level of Z becomes `z`; a rising edge after inversion latches the count, rule R296. A change of A
or B in the same sample comes as an ENCODER_EDGE before it, so that the latch holds the count after it. -/
def State.indexEdge (s : State) (e : Nat) (z : Bool) (t : Nat) : State :=
  if !s.timed then s
  else
    let inv := s.bit (Reg.FBK_ENC e) 9
    let rising := (z != inv) && (s.bit (Reg.FBK_ENC_STAT e) 2 == inv)
    let s1 := s.setBit (Reg.FBK_ENC_STAT e) 2 z
    let gate := !s.bit (Reg.FBK_ENC e) 10 || (s.bit (Reg.FBK_ENC_STAT e) 0 && s.bit (Reg.FBK_ENC_STAT e) 1)
    if s.encEn e && s.bit (Reg.FBK_ENC e) 8 && rising && gate then
      let c := s.rdI64 (Reg.FBK_ENC_CNT e)
      let s2 := (s1.wrI64 (Reg.FBK_IDX_CNT e) c).idxCheck e c
      (s2.setEncRt e { s2.encRt e with prev := some c }).firstLatch e c t
    else s1

def execIndexEdge (e : Fin 16) (z : Bool) (stamp : Nat) (s : State) : Out := .next (s.indexEdge e.val z stamp)

/-- A line fault: WIRE of the channel and of every axis that reads it. -/
def State.wireFault (s : State) (e : Nat) : State :=
  let s1 := (((s.setEncRt e { s.encRt e with fault := true }).setBit (Reg.FBK_ENC_STAT e) 5 true).inc (Reg.FBK_WIRE_CNT e)).alarm
    Page.FBK 1 0
  forEach (fun n st => (st.setBit (Reg.LAX_STAT n) 2 true).alarm (Page.LAX n) 0 0) (s.bound 1 e) s1

/-- LINE_FAULT: the receiver of A, B or Z has been below its threshold for more than 1 µs, or is above it again; Z counts
only with Z_EN. Rule R295. -/
def State.lineFault (s : State) (e line : Nat) (present : Bool) : State :=
  if !s.timed then s
  else
    let x := s.encRt e
    let s1 := s.setEncRt e { x with low := BitVec.ofNat 3 (withBits x.low.toNat line line (b2n present)) }
    if present && s.encEn e && (decide (line ≠ 2) || s.bit (Reg.FBK_ENC e) 8) then s1.wireFault e else s1

def execLineFault (e : Fin 16) (line : Fin 3) (present : Bool) (s : State) : Out := .next (s.lineFault e.val line.val present)

/-! ### Hall inputs, rule R298 -/

/-- An impossible code stands at an enabled set whose HALL_ERR it has set. -/
def State.hallStands (s : State) (h : Nat) : Bool :=
  s.bit (Reg.FBK_HALL h) 0 && s.bit (Reg.FBK_HALL_STAT h) 8 && (hallSector (s.fld (Reg.FBK_HALL_STAT h) 2 0)).isNone

/-- The count of a change between sectors and its flags HALL_SKIP and HALL_ERR. -/
def hallStep (s0 s1 : Nat) : Int × Bool × Bool :=
  match (s1 + 6 - s0) % 6 with
  | 0 => (0, false, false)
  | 1 => (1, false, false)
  | 2 => (2, true, false)
  | 3 => (0, true, true)
  | 4 => (-2, true, false)
  | _ => (-1, false, false)

/-- HALL_ERR of a set. -/
def State.hallErr (s : State) (h : Nat) : State :=
  ((s.setBit (Reg.FBK_HALL_STAT h) 8 true).setHallRt h { s.hallRt h with fault := true }).event Page.FBK 3 0

/-- HALL_TRANSITION: the filtered code of a set becomes `code` at time `t`; a set that is not enabled shows it only. -/
def State.hallTransition (s : State) (h code t : Nat) : State :=
  if !s.timed then s
  else
    let s1 := s.setFld (Reg.FBK_HALL_STAT h) 2 0 code
    if !s.bit (Reg.FBK_HALL h) 0 then s1
    else
    match hallSector code with
    | none => (s1.hallErr h).inc (Reg.FBK_HALL_ERR_CNT h)
    | some k =>
      let x := s1.hallRt h
      let s2 := s1.setFld (Reg.FBK_HALL_STAT h) 6 4 k
      match x.sector with
      | none => s2.setHallRt h { x with sector := some k }
      | some k0 =>
        let d0P := hallStep k0 k
        let d0 := d0P.1
        let skip := d0P.2.1
        let err := d0P.2.2
        let d := if s.bit (Reg.FBK_HALL h) 1 then -d0 else d0
        let c := x.count + d
        let s3 := s2.setHallRt h { x with
          sector := some k
          count := c
          fault := x.fault || skip
          edges := if k = k0 then x.edges else s.noteEdge x.edges t c (sgn d) }
        let s4 := if skip then s3.setBit (Reg.FBK_HALL_STAT h) 9 true else s3
        let s5 := if err then s4.hallErr h else s4
        let s6 := forEach (fun n st => st.laxCompare n x.count c t) (s.readers 2 h) s5
        s6.when (s.pastEdge t) (fun u => forEach (fun n st => st.resample n) (u.readers 2 h) u)

def execHallTransition (h code : Fin 8) (stamp : Nat) (s : State) : Out :=
  .next (s.hallTransition h.val code.val stamp)

/-! ### SSI channels, rules R299 and R300 -/

/-- Gray code to binary. -/
def grayToBin (n : Nat) : Nat := (List.range 48).foldl (fun acc i => acc ^^^ (n >>> (i + 1))) n

/-- Ones among the low `w` bits. -/
def onesIn (v w : Nat) : Nat := ((List.range w).filter (fun i => v.testBit i)).length

/-- A difference brought into (−2^(w−1), 2^(w−1)]. -/
def ssiWrap (w : Nat) (d : Int) : Int :=
  let m : Int := 2 ^ w
  let r := d % m
  if (2 : Int) ^ (w - 1) < r then r - m else r

/-- FBK_SSI fields. -/
def State.ssiBits (s : State) (c : Nat) : Nat := s.fld (Reg.FBK_SSI c) 6 1

/-- The cause for which a frame is not good, in the order of rule R300's list; 0 for a good frame. -/
def State.ssiCause (s : State) (c data extra raw : Nat) (idleHigh mono : Bool) : Nat :=
  let w := s.ssiBits c
  let par := s.fld (Reg.FBK_SSI c) 10 9
  let ones := onesIn data w % 2
  let a2 := Reg.FBK_SSI c + 8
  if !idleHigh then 1
  else if !mono then 2
  else if (par = 1 ∧ ones ≠ 0) ∨ (par = 2 ∧ ones ≠ 1) then 3
  else if s.bit a2 3 ∧ extra.testBit (s.fld a2 2 0) = s.bit a2 4 then 4
  else
    match (s.ssiRt c).raw with
    | none => 0
    | some r0 => if s.rdN (Reg.FBK_SSI c + 12) < (ssiWrap w ((raw : Int) - r0)).natAbs then 5 else 0

/-- A frame that is not good. -/
def State.ssiBad (s : State) (c cause : Nat) : State :=
  (((s.setFld (Reg.FBK_SSI_STAT c) 4 0 (16 + cause)).inc (Reg.FBK_SSI_ERR_CNT c)).setSsiRt c
    { s.ssiRt c with done := true, good := false }).event Page.FBK 4 0

/-- A good frame: ext is unwrapped; the first one sets it. -/
def State.ssiGood (s : State) (c raw : Nat) : State :=
  let x := s.ssiRt c
  let w := s.ssiBits c
  let ext := match x.raw with
    | none => if s.bit (Reg.FBK_SSI c) 8 then signedOf w raw else (raw : Int)
    | some r0 => x.ext + ssiWrap w ((raw : Int) - r0)
  s.setSsiRt c { x with raw := some raw, ext := ext, done := true, good := true }

/-- SSI_FRAME_DONE: the frame begun at the boundary is complete; `data` holds the data bits as a number, `extra` the extra
bits, `idleHigh` tells the line before the frame and `mono` that it went low and returned high within MONO_TMO. -/
def State.ssiDone (s : State) (c data extra : Nat) (idleHigh mono : Bool) : State :=
  if !s.timed || !s.bit (Reg.FBK_SSI c) 0 then s
  else
    let w := s.ssiBits c
    let d := data % 2 ^ w
    let raw := if s.bit (Reg.FBK_SSI c) 7 then grayToBin d else d
    let s1 := s.wr64 (Reg.FBK_SSI_RAW c) raw
    if (s.ssiRt c).done then s1
    else
      let cause := s.ssiCause c d extra raw idleHigh mono
      let x0 := (s.ssiRt c).ext
      let s2 := if cause = 0 then s1.ssiGood c raw else s1.ssiBad c cause
      let s3 := forEach (fun n st => st.laxCompare n x0 (s2.ssiRt c).ext (s.rd64 Reg.QTZ_LAST_TICK)) (s.readers 3 c) s2
      forEach (fun n st => if st.phasesRun then st.laxGather n else st.laxLatch n) (s.readers 3 c) s3

def execSsiFrameDone (c : Fin 8) (data : BitVec 48) (extra : BitVec 8) (idleHigh mono : Bool) (s : State) : Out :=
  .next (s.ssiDone c.val data.toNat extra.toNat idleHigh mono)

/-- The G deadline: a frame that is not complete is late, rule R299. -/
def State.ssiDeadline (s : State) : State :=
  forUpTo (fun c st =>
    if st.bit (Reg.FBK_SSI c) 0 && !(st.ssiRt c).done then
      forEach (fun n t => t.laxGather n) (st.readers 3 c) (st.ssiBad c 6)
    else st) 8 s

/-! ### Step and direction output, rules R305 to R307 -/

/-- Pulse i of N rises this long after the boundary, ns, rule R306. -/
def pulseOffset (dirSetup tTick N i : Nat) : Nat := 4 * (dirSetup + i * (tTick / 4 - dirSetup) / N)

/-- N_MAX, rule R305. -/
def State.stepMax (s : State) (n : Nat) : Int :=
  let w := s.fld (Reg.LAX_STEP_TIM n) 7 0
  let setup := s.fld (Reg.LAX_STEP_TIM n) 23 8
  (s.tTick - setup * 4) / max 125 (8 * w)

/-- The N pulses of a tick are scheduled; DIR takes the sign of N. -/
def State.schedule (s : State) (n : Nat) (N : Int) : State :=
  let x := s.laxRt n
  let tb := s.rd64 Reg.QTZ_LAST_TICK
  let setup := s.fld (Reg.LAX_STEP_TIM n) 23 8
  let cnt := N.natAbs
  s.setLaxRt n { x with
    sched := x.sched + N
    dir := if N = 0 then x.dir else decide (0 < N) != s.bit (Reg.LAX_CFG n) 16
    pulses := (List.range cnt).map (fun i => (tb + pulseOffset setup s.tTick cnt i, sgn N)) }

/-- Stepping toward W1 under stop code 0b00. -/
def State.stepRun (s : State) (n : Nat) (w1 : Int) : State :=
  let x := s.laxRt n
  let d := rnd (w1 - s.rdI64 (Reg.LAX_POS_OFS n)) 16 - x.sched
  let m := s.stepMax n
  let N := clampI (-m) m d
  let s1 := (s.setLaxRt n { x with lastN := N, ramp := N.natAbs * 2 ^ 40 }).wrI (Reg.LAX_CARRY n) (d - N)
  let s2 := if N = d then s1
    else ((s1.setBit (Reg.LAX_STAT n) 4 true).inc (Reg.LAX_CLIP_CNT n)).event (Page.LAX n) 2 0
  s2.schedule n N

/-- Codes SS1 and SS2: |N| falls by LAX_STOP_DEC each tick. -/
def State.stepRamp (s : State) (n : Nat) : State :=
  let x := s.laxRt n
  let r := x.ramp - s.rd64 (Reg.LAX_STOP_DEC n)
  (s.setLaxRt n { x with ramp := r }).schedule n (sgn x.lastN * rnd r 40)

/-- The step generator of a local axis at a boundary takes the checked record of the tick that ends; with none launched it
issues no pulse (DEDUCED, notes/assumptions/23.md). -/
def State.stepAxis (s : State) (n : Nat) : State :=
  if !s.stepEn n then s.setLaxRt n { s.laxRt n with cmd := none }
  else
    let x := s.laxRt n
    let s0 := s.setLaxRt n { x with cmd := none }
    match x.cmd with
    | none => s0.schedule n 0
    | some (code, w1) =>
      let s1 := (s0.setBit (Reg.LAX_STAT n) 5 (decide (code = 1 ∨ code = 2))).setBit (Reg.LAX_STAT n) 6 (decide (code = 3))
      if code = 0 then s1.stepRun n w1
      else if code = 3 then (s1.setLaxRt n { s1.laxRt n with ramp := 0 }).schedule n 0
      else s1.stepRamp n

/-- A scheduled pulse rises: n_out counts it; where the axis reads its own step output the compare unit sees it. -/
def State.pulse (s : State) (n : Nat) : State :=
  match (s.laxRt n).pulses with
  | [] => s
  | (t, d) :: rest =>
    let c := s.rdI64 (Reg.LAX_NOUT n)
    let s1 := (s.setLaxRt n { s.laxRt n with pulses := rest }).wrI64 (Reg.LAX_NOUT n) (c + d)
    if s.srcType n = 0 ∧ s.axisEn (128 + n) then s1.laxCompare n c (c + d) t else s1

/-- STEP_PULSE: device time reaches the next pulse of an axis. In FROZEN no pulse is issued. -/
def State.stepPulse (s : State) (n : Nat) : State :=
  if !s.clocked then s
  else
    match (s.laxRt n).pulses with
    | [] => s
    | (t, _) :: _ => (s.advance t).pulse n

def execStepPulse (n : Fin 16) (s : State) : Out := .next (s.stepPulse n.val)

/-- Every pulse of the tick that ends has risen before its boundary. -/
def State.flushPulses (s : State) (n : Nat) : State := forUpTo (fun _ st => st.pulse n) (s.laxRt n).pulses.length s

/-- The step generators stop: entry to FROZEN, RESET and OFF. The pulses not issued stay to be issued. -/
def State.stopPulses (s : State) : State :=
  { s with fbk := { s.fbk with lax := s.fbk.lax.map (fun (n, (x : LaxRt)) =>
    (n, { x with sched := x.sched - (x.pulses.map (fun q => q.2)).sum, pulses := [], cmd := none })) } }

/-! ### The boundary -/

/-- The first index latch of the tick that ends, for every axis that reads its channel, with the offset in force before a
shift at this boundary, rule R296. -/
def State.latchIndex (s : State) (n : Nat) : State :=
  let idx := if s.srcType n = 1 then (s.encRt (s.srcCh n)).first.map (fun q => (s.laxPos n q.1, q.2)) else none
  s.setLaxRt n { s.laxRt n with index := idx }

/-- What FOLLOW latches of the incremental channels at a boundary, rule R129. -/
def State.latchFollow (s : State) : State :=
  { s with prof := { s.prof with follow := (List.range 16).map (fun e =>
    (e, s.followOf e)) } }

/-- The pins at a boundary, before the homing shifts: the pulses of the tick that ends, the indices, and in the ticks with an
E phase the new pulses. -/
def State.laxBoundary (s : State) : State :=
  let s1 := forUpTo (fun n st => st.flushPulses n) 16 s
  let s2 := forUpTo (fun n st => st.latchIndex n) 16 s1
  (if s.ticking then forUpTo (fun n st => st.stepAxis n) 16 s2 else s2).latchFollow

/-- A boundary ends the tick of the edges, faults and SSI frames. -/
def State.rollChannels (s : State) : State :=
  { s with fbk := { s.fbk with
    enc := s.fbk.enc.map (fun (e, (x : EncRt)) => (e, { x with edges := x.edges.roll, fault := false, first := none }))
    hall := s.fbk.hall.map (fun (h, (x : HallRt)) => (h, { x with edges := x.edges.roll, fault := false }))
    ssi := s.fbk.ssi.map (fun (c, (x : SsiRt)) => (c, { x with done := false, good := false })) } }

/-- An axis waits for the frame of its SSI channel. -/
def State.awaitsFrame (s : State) (n : Nat) : Bool := s.srcType n == 3 && s.bit (Reg.FBK_SSI (s.srcCh n)) 0

/-- The local axes at a boundary, after the homing shifts, and their entries where the tick has a G phase: but for those whose SSI channel
is enabled, whose frames start. -/
def State.laxSample (s : State) : State :=
  let s1 := forUpTo (fun n st =>
    if !st.axisEn (128 + n) then st
    else
      let s0 := st.openSample n
      if st.awaitsFrame n then s0 else if st.phasesRun then (s0.laxGather n).judgeLocal n else s0.laxLatch n) 16 s
  s1.rollChannels

/-- A channel that becomes enabled starts without a reference, an index or a frame before it, rules R297, R298, R300 and R302; a Hall set
from the code that stands. -/
def State.encEnabled (s : State) (e : Nat) : State :=
  s.setEncRt e { s.encRt e with edges := EdgeRt.reset, first := none, prev := none, devBad := false }
def State.hallEnabled (s : State) (h : Nat) : State :=
  let code := s.fld (Reg.FBK_HALL_STAT h) 2 0
  let s1 := s.setHallRt h { s.hallRt h with edges := EdgeRt.reset, sector := hallSector code }
  match hallSector code with
  | some k => s1.setFld (Reg.FBK_HALL_STAT h) 6 4 k
  | none => (s1.hallErr h).inc (Reg.FBK_HALL_ERR_CNT h)
def State.ssiEnabled (s : State) (c : Nat) : State := s.setSsiRt c { s.ssiRt c with raw := none }

/-- FBK_ENC_e has been written where it held `old`: a channel that becomes enabled starts anew, and a line fault that stands on a line
watched from now on is one, rule R295. -/
def State.encWritten (s : State) (e : Nat) (old : Word) : State :=
  let s1 := s.when (s.encEn e && !old.getLsbD 0) (fun t => t.encEnabled e)
  let low := (s1.encRt e).low
  let fresh := s1.encEn e && ((!old.getLsbD 0 && (low.getLsbD 0 || low.getLsbD 1)) ||
    (low.getLsbD 2 && s1.bit (Reg.FBK_ENC e) 8 && !(old.getLsbD 0 && old.getLsbD 8)))
  s1.when fresh (fun t => t.wireFault e)

/-- A word of the FBK page's configuration has been written, which held `old`. -/
def State.fbkWritten (s : State) (a : Nat) (old : Word) : State :=
  let o := pageOff a
  let on := (s.rd a).getLsbD 0 && !old.getLsbD 0
  if 0x100 ≤ o ∧ o < 0x180 ∧ o % 8 = 0 then s.encWritten ((o - 0x100) / 8) old
  else if 0x180 ≤ o ∧ o < 0x1A0 then s.when on (fun t => t.hallEnabled ((o - 0x180) / 4))
  else if 0x1A0 ≤ o ∧ o < 0x220 ∧ o % 16 = 0 then s.when on (fun t => t.ssiEnabled ((o - 0x1A0) / 16))
  else s

/-- LAX_CFG has been written: an axis bound to a channel on which a line fault stands has WIRE. -/
def State.laxBound (s : State) (n : Nat) : State :=
  s.when (s.srcType n == 1 && s.linesLow (s.srcCh n)) (fun t => (t.setBit (Reg.LAX_STAT n) 2 true).alarm (Page.LAX n) 0 0)

end Sys2Proof.Machine
end

