-- ==== Sys2Proof/Machine/Links.lean ====
section
/-! DEFINITION. Ring lanes: bypass, training, cable measurement and loss, rules R269 to R282 (spec/11_ring_links.md), with what
a ring port keeps. -/

namespace Sys2Proof.Machine

/-! ### A port -/

/-- The page of a port. -/
def ringPage (p : Nat) : Nat := Page.RNG p

/-- The states of rule R267. -/
def psDown : Nat := 0
def psListen : Nat := 1
def psClaim : Nat := 2
def psInit : Nat := 3
def psCyclic : Nat := 4
def psNode : Nat := 5
def psSilent : Nat := 6
def psForeign : Nat := 7

/-- RNG_STAT.PSTATE. -/
def State.pstate (s : State) (p : Nat) : Nat := s.fld (Reg.RNG_STAT p) 3 0

/-- A port passes to a state: a change raises PG_IRQ_RAW bit 0. MASTER holds in INIT and CYCLIC. -/
def State.setPstate (s : State) (p st : Nat) : State :=
  let s1 := ((s.setFld (Reg.RNG_STAT p) 3 0 st).setBit (Reg.RNG_STAT p) 8 (st == psForeign)).setBit (Reg.RNG_STAT p) 6
    (st == psInit || st == psCyclic)
  if s.pstate p = st then s1 else s1.event (ringPage p) 0 0

/-- The port is enabled, and its class uses lane B. -/
def State.portEn (s : State) (p : Nat) : Bool := s.bit (Reg.RNG_CTRL p) 0
def State.portRed (s : State) (p : Nat) : Nat := s.rcFld p (Reg.RNG_CTRL p) 3 2
def State.masterRole (s : State) (p : Nat) : Bool := !(s.rcf p (Reg.RNG_CTRL p)).getLsbD 1

/-! ### A lane -/

/-- The lane status register. -/
def laneReg (p : Nat) : Lane → Nat
  | .a => Reg.RNG_LANE_STAT_A p
  | .b => Reg.RNG_LANE_STAT_B p

/-- The lane states of rule R276. -/
def lsOff : Nat := 0
def lsTrain : Nat := 1
def lsJoin : Nat := 2
def lsMeasure : Nat := 3
def lsUp : Nat := 4
def lsFail : Nat := 5

def State.lstate (s : State) (p : Nat) (l : Lane) : Nat := s.fld (laneReg p l) 2 0
def State.setLstate (s : State) (p : Nat) (l : Lane) (st : Nat) : State := s.setFld (laneReg p l) 2 0 st

/-- A lane carries traffic. -/
def State.laneUp (s : State) (p : Nat) (l : Lane) : Bool := s.lstate p l == lsUp

/-- The class uses the lane, rule R266. -/
def State.laneUsed (s : State) (p : Nat) (l : Lane) : Bool := l == .a || s.portRed p != 0

/-- Whether a lane has passed TRAIN. -/
def State.lanePassed (s : State) (p : Nat) (l : Lane) : Bool := (s.rp p).trained.testBit l.num
def State.setPassed (s : State) (p : Nat) (l : Lane) (b : Bool) : State :=
  s.setRp p { s.rp p with trained := withBits (s.rp p).trained l.num l.num (b2n b), settled := withBits (s.rp p).settled l.num l.num 0 }

/-- A bypass output, rule R272: a change raises PG_IRQ_RAW bit 12, and an opening counts. -/
def State.bypass (s : State) (p : Nat) (l : Lane) (opened : Bool) : State :=
  if s.bit (laneReg p l) 4 == opened then s
  else
    let s1 := (s.setBit (laneReg p l) 4 opened).event (ringPage p) 12 0
    if opened then s1.inc (Reg.RNG_BYP_OPEN_CNT p) else s1

/-- The device states in which a bypass may open, rule R274. -/
def State.bypassState (s : State) : Bool :=
  match s.sys.dev with
  | .ready | .run | .degraded | .safestop => true
  | _ => false

/-- A trained lane opens its bypass and joins, lane A first, rule R274. -/
def State.openLane (s : State) (p : Nat) (l : Lane) : State :=
  let first := l == .a || s.lstate p .a == lsUp || s.lstate p .a == lsFail
  if s.bypassState && s.portEn p && s.domOn 9 && s.laneUsed p l && s.lstate p l == lsTrain && s.lanePassed p l && first then
    (s.bypass p l true).setLstate p l lsJoin
  else s

/-- Both lanes, A first. -/
def State.openLanes (s : State) (p : Nat) : State := (s.openLane p .a).openLane p .b

/-- A lane that the class uses leaves OFF for TRAIN once EN = 1. -/
def State.startLane (s : State) (p : Nat) (l : Lane) : State :=
  if s.portEn p && s.laneUsed p l && s.domOn 9 && s.lstate p l == lsOff then (s.setPassed p l false).setLstate p l lsTrain else s

/-- A lane goes OFF. -/
def State.stopLane (s : State) (p : Nat) (l : Lane) : State :=
  let s1 := ((s.bypass p l false).setPassed p l false).setFld (laneReg p l) 6 0 0
  s1.setBit (laneReg p l) 4 false

/-- A port starts: its lanes train. -/
def State.portStart (s : State) (p : Nat) : State := (s.startLane p .a).startLane p .b

/-- The class in force uses lane B or holds it OFF with its bypass closed, rules R266 and R272. -/
def State.classLanes (s : State) (p : Nat) : State :=
  if s.laneUsed p .b then s.startLane p .b else if s.lstate p .b = lsOff then s else s.stopLane p .b

/-- A lane that the class uses is UP. -/
def State.anyUp (s : State) (p : Nat) : Bool := s.laneUp p .a || (s.laneUp p .b && s.laneUsed p .b)

/-- LANE_A_UP, LANE_B_UP and REDUNDANCY_LOST, rule R266. -/
def State.statBits (s : State) (p : Nat) : State :=
  let a := s.laneUp p .a
  let b := s.laneUp p .b && s.laneUsed p .b
  ((s.setBit (Reg.RNG_STAT p) 4 a).setBit (Reg.RNG_STAT p) 5 b).setBit (Reg.RNG_STAT p) 12 (s.portRed p != 0 && (a != b))

/-- What a port keeps over a restart: its lanes' training and measurement, the alarm entries it has offered, and the software output copy
last flipped, rule R265. -/
def RingPort.kept (x : RingPort) : RingPort :=
  { RingPort.reset with
    trained := x.trained
    settled := x.settled
    rtts := x.rtts
    offered := x.offered
    soft := x.soft
    softNext := x.softNext }

/-- Entry to LISTEN: the configuration written so far takes effect, the class on lane B as well, and everything but the lanes starts anew;
a port whose class is left with no lane UP is DOWN, rules R268, R272 and R277. -/
def State.enterListen (s : State) (p : Nat) : State :=
  let s1 := s.setRp p { (s.rp p).kept with cfg := Tab.range (pageBase (ringPage p) + 0x100) 0x700 s.regs }
  let s2 := (((s1.setBit (Reg.RNG_STAT p) 7 false).setBit (Reg.RNG_STAT p) 9 false).setFld (Reg.RNG_STAT p) 17 16 0).setPstate p psListen
  let s3 := (s2.classLanes p).statBits p
  if s3.anyUp p then s3 else s3.setPstate p psDown

/-- The status of the lanes, and PSTATE's passage between DOWN and LISTEN, rules R266 and R277. -/
def State.laneBits (s : State) (p : Nat) : State :=
  let s1 := s.statBits p
  if s1.pstate p = psDown then (if s1.anyUp p && s1.portEn p then s1.enterListen p else s1)
  else if s1.anyUp p then s1 else s1.setPstate p psDown

/-- A lane enters FAIL: its bypass closes at once and the other lane may open, rules R275 and R278. -/
def State.laneFail (s : State) (p : Nat) (l : Lane) (cause : Nat) : State :=
  (((((s.bypass p l false).setLstate p l lsFail).setFld (laneReg p l) 15 12 cause).setPassed p l false).laneBits p).openLanes p

/-- A port goes down: lanes OFF, bypasses closed, PSTATE DOWN. -/
def State.portDown (s : State) (p : Nat) : State :=
  (((((s.stopLane p .a).stopLane p .b).setRp p { (s.rp p).kept with trained := 0, settled := 0, rtts := [] }).laneBits p).setPstate p psDown).setBit (Reg.RNG_STAT p) 9 false

/-- A port at entry to SELFTEST: open bypasses close, and every lane trains in loopback again, rules R24, R31 and R272. -/
def State.restartPort (s : State) (p : Nat) : State :=
  (if s.bit (laneReg p .a) 4 || s.bit (laneReg p .b) 4 then s.portDown p else s).portStart p

/-! ### The lane's events -/

/-- The link hardware of a port works: the clocks run and the RING domain is powered. -/
def State.ringOn (s : State) : Bool := s.clocked && s.domOn 9

def State.trainPassed (s : State) (p : Nat) (l : Lane) : State :=
  if s.ringOn && s.lstate p l == lsTrain then (s.setPassed p l true).openLanes p else s

def execTrainPassed (p : Fin 4) (lane : Lane) (s : State) : Out := .next (s.trainPassed p.val lane)

def State.trainTimeout (s : State) (p : Nat) (l : Lane) : State :=
  if s.ringOn && s.lstate p l == lsTrain && !s.lanePassed p l then (s.inc (Reg.RNG_TRAIN_FAIL_CNT p)).laneFail p l 1 else s

def execTrainTimeout (p : Fin 4) (lane : Lane) (s : State) : Out := .next (s.trainTimeout p.val lane)

/-- BYP_SETTLE has passed since the bypass opened: the work of JOIN starts. -/
def State.bypassSettled (s : State) (p : Nat) (l : Lane) : State :=
  if s.ringOn && s.lstate p l == lsJoin then
    s.setRp p { s.rp p with settled := withBits (s.rp p).settled l.num l.num 1 }
  else s

def execBypassSettled (p : Fin 4) (lane : Lane) (s : State) : Out := .next (s.bypassSettled p.val lane)

/-- The lane has signal and block lock on its neighbour's stream: MEASURE, with a new set of samples. -/
def State.joinPassed (s : State) (p : Nat) (l : Lane) : State :=
  if s.ringOn && s.lstate p l == lsJoin && (s.rp p).settled.testBit l.num then
    ((s.setRp p { s.rp p with rtts := [] }).setFld (laneReg p l) 6 5 3).setLstate p l lsMeasure
  else s

def execJoinPassed (p : Fin 4) (lane : Lane) (s : State) : Out := .next (s.joinPassed p.val lane)

def State.joinTimeout (s : State) (p : Nat) (l : Lane) : State :=
  if s.ringOn && s.lstate p l == lsJoin then (s.inc (Reg.RNG_JOIN_FAIL_CNT p)).laneFail p l 2 else s

def execJoinTimeout (p : Fin 4) (lane : Lane) (s : State) : Out := .next (s.joinTimeout p.val lane)

/-- A raw stamp of a lane compensated to the ball, in whole steps of 0.2 ns, rules R50 and R51 (rounding down: DESIGN CHOICE,
notes/assumptions/123.md): of a frame that comes in, and of one that goes out. -/
def State.ingressSteps (s : State) (p : Nat) (l : Lane) (raw : Nat) : Int :=
  let i := 2 * p + l.num
  (raw - (s.eff (Reg.QTZ_PORT i)).toNat - (s.eff (Reg.QTZ_PORT i + 8)).toInt) * 5 / 65536
def State.egressSteps (s : State) (p : Nat) (l : Lane) (raw : Nat) : Int :=
  (raw + (s.eff (Reg.QTZ_PORT (2 * p + l.num) + 4)).toNat : Int) * 5 / 65536

/-- The compensated ingress stamp in 2^-16 ns. -/
def State.ringStamp (s : State) (p : Nat) (l : Lane) (raw : Nat) : Int := s.ingressSteps p l raw * 65536 / 5

/-- MEASURE_MARKER, rule R279: the own marker comes back and gives RTT = (t_return − t_send) − t_turn; the upstream neighbour's, which
arrives on lane A, goes back on lane B with the own turnaround. -/
def State.measureMarker (s : State) (p : Nat) (m : Marker) : State :=
  if !s.ringOn then s
  else
    match m with
    | .back sent ret turn =>
      if s.lstate p .a == lsMeasure || s.lstate p .b == lsMeasure then
        s.setRp p { s.rp p with
          rtts := ((s.ingressSteps p .b ret - s.egressSteps p .a sent - turn).toNat :: (s.rp p).rtts).take 256 }
      else s
    | .arrived ingress egress =>
      if s.bit (laneReg p .a) 4 && s.bit (laneReg p .b) 4 then
        s.setRp p { s.rp p with turn := some (s.egressSteps p .b egress - s.ingressSteps p .a ingress).toNat }
      else s

def execMeasureMarker (p : Fin 4) (m : Marker) (s : State) : Out := .next (s.measureMarker p.val m)

/-- Insertion into a rising list. -/
def insertNat (n : Nat) : List Nat → List Nat
  | [] => [n]
  | a :: t => if n ≤ a then n :: a :: t else a :: insertNat n t

/-- A list in rising order. -/
def sortNat : List Nat → List Nat
  | [] => []
  | a :: t => insertNat a (sortNat t)

/-- The median of an even count of samples is one of the middle two, which one the rules leave open
(notes/assumptions/4.md); with it the spread. -/
def medianOf (l : List Nat) : Nat × Nat :=
  let r := sortNat l
  (r.getD (if r.length % 2 = 1 then r.length / 2 else r.length / 2 - b2n (Config.medianLow r)) 0, r.getD (r.length - 1) 0 - r.getD 0 0)

/-- LOSSY of a lane where one of some estimated losses exceeds LOSS_WARN, with an event, rule R282. -/
def State.lossCheck (s : State) (p : Nat) (l : Lane) (losses : List Nat) : State :=
  if losses.any (fun d => decide (s.rcFld p (Reg.RNG_CABLE_LIM p) 15 0 < d)) then (s.setBit (laneReg p l) 8 true).event (ringPage p) 1 0
  else s

/-- MEASURE_DONE: 256 exchanges are complete; the lane is UP with its hop's round trip, and LOSSY where its estimated loss
exceeds LOSS_WARN, rules R279 and R282. -/
def State.measureDone (s : State) (p : Nat) (l : Lane) (loss : Nat) : State :=
  if s.ringOn && s.lstate p l == lsMeasure && (s.rp p).rtts.length == 256 then
    let mP := medianOf (s.rp p).rtts
    let m := mP.1
    let spread := mP.2
    let s2 := ((s.wrN (Reg.RNG_HOP_RTT p) m).wrN (Reg.RNG_HOP_SPREAD p) (min spread 0xFFFF)).setFld (laneReg p l) 31 16 (min loss 0xFFFF)
    (((((s2.lossCheck p l [loss]).setLstate p l lsUp).setFld (laneReg p l) 15 12 0).event (ringPage p) 1 0).laneBits p).openLanes p
  else s

def execMeasureDone (p : Fin 4) (lane : Lane) (loss : Nat) (s : State) : Out := .next (s.measureDone p.val lane loss)

def State.measureTimeout (s : State) (p : Nat) (l : Lane) : State :=
  if s.ringOn && s.lstate p l == lsMeasure then (s.inc (Reg.RNG_JOIN_FAIL_CNT p)).laneFail p l 3 else s

def execMeasureTimeout (p : Fin 4) (lane : Lane) (s : State) : Out := .next (s.measureTimeout p.val lane)

/-- LANE_LOSS: a lane in UP loses signal (cause 4) or block lock (cause 5), rules R266 and R278: in DUAL and DUAL_REQ an
alarm is raised. -/
def State.laneLoss (s : State) (p : Nat) (l : Lane) (lock : Bool) : State :=
  if s.ringOn && s.lstate p l == lsUp then
    let s1 := (s.inc (Reg.RNG_LANE_LOSS_CNT p)).setFld (laneReg p l) 6 5 (if lock then 1 else 0)
    let s2 := if s1.portRed p = 0 then s1.event (ringPage p) 1 (if lock then 5 else 4) else s1.alarm (ringPage p) 1 (if lock then 5 else 4)
    s2.laneFail p l (if lock then 5 else 4)
  else s

def execLaneLoss (p : Fin 4) (lane : Lane) (lock : Bool) (s : State) : Out := .next (s.laneLoss p.val lane lock)

/-- LINK_RETRY_EXPIRY: a failed lane trains again. -/
def State.linkRetry (s : State) (p : Nat) (l : Lane) : State :=
  if s.ringOn && s.lstate p l == lsFail then (s.setPassed p l false).setLstate p l lsTrain else s

def execLinkRetryExpiry (p : Fin 4) (lane : Lane) (s : State) : Out := .next (s.linkRetry p.val lane)

/-- A port has trained for rules R27 and R266. -/
def State.portTrained (s : State) (p : Nat) : Bool :=
  match s.portRed p with
  | 0 => s.laneUp p .a
  | 1 => s.laneUp p .a || s.laneUp p .b
  | _ => s.laneUp p .a && s.laneUp p .b

end Sys2Proof.Machine
end

