-- ==== Sys2Proof/Machine/Ring.lean ====
section
/-! DEFINITION. The cell ring protocol: cycles, references, claims, frames, retries, bulk, discovery and delivery into the
gather buffer, rules R237 to R268 and R280 to R288 (spec/10_ring_protocol.md and spec/11_ring_links.md). -/

namespace Sys2Proof.Machine

/-! ### The node table and windows -/

/-- Fields of a node table entry, rule R268. -/
def State.nodeEn (s : State) (p n : Nat) : Bool :=
  (s.nodeW p n 0).testBit 0 && !s.ueIn 0x80 ((s.rcf p (Reg.RNG_TBL_BASE p)).toNat + 32 * n) 32
def State.nodeRequired (s : State) (p n : Nat) : Bool := (s.nodeW p n 0).testBit 1
def State.nodeSafe (s : State) (p n : Nat) : Bool := (s.nodeW p n 0).testBit 2
def State.nodeKind (s : State) (p n : Nat) : Nat := bitsOf (s.nodeW p n 0) 7 4
def State.nodeFirst (s : State) (p n : Nat) : Nat := bitsOf (s.nodeW p n 0) 15 8
def State.nodeAxes (s : State) (p n : Nat) : Nat := bitsOf (s.nodeW p n 0) 23 16
def State.nodeInLen (s : State) (p n : Nat) : Nat := s.nodeW p n 2 % 65536

/-- The enabled nodes that have a slot: all but a twin peer station, rule R251. -/
def State.slots (s : State) (p : Nat) : List Nat :=
  (List.range 64).filter (fun n => s.nodeEn p n && s.nodeKind p n != 5)

/-- START and LEN of a window in force. -/
def State.winStart (s : State) (p w : Nat) : Nat := s.rcFld p (Reg.RNG_WIN p w) 20 0
def State.winLen (s : State) (p w : Nat) : Nat := s.rcFld p (Reg.RNG_WIN p w + 4) 20 0

/-- Blocks of a frame with `len` payload bytes, rule R239. -/
def blockCount (len : Nat) : Nat := (12 + len + 255) / 256

/-- The ring cycle in ns, rule R40. -/
def State.ringCycle (s : State) : Nat := if s.bit Reg.QTZ_TICK 4 then s.tTick / 2 else s.tTick

/-- The device ID, rule R248. -/
def State.deviceId (s : State) : Nat := s.rd64 Reg.SYS_ID % 281474976710656

/-! ### Frames that a port sends, rules R237 to R241 -/

/-- The lanes that carry the port's traffic, bit 0 A, bit 1 B. -/
def State.lanesOn (s : State) (p : Nat) : Nat := b2n (s.laneUp p .a) + 2 * b2n (s.laneUp p .b && s.laneUsed p .b)

/-- The present ring cycle of the own grid starts at a tick boundary, rule R244. -/
def State.evenCycle (s : State) : Bool := !s.qtz.cycled.testBit 1

/-- The present cycle contains the E launch, rule R244. -/
def State.outCycle (s : State) : Bool :=
  !s.bit Reg.QTZ_TICK 4 || s.evenCycle == decide (s.effFld (Reg.QTZ_PH 6) 20 0 < s.tTick / 2)

/-- The port is a station on another master's ring: its frames carry NODE_ADDR. -/
def State.station (s : State) (p : Nat) : Bool := s.pstate p == psNode || s.pstate p == psSilent || s.pstate p == psForeign

/-- EVEN of the port's present cycle, rules R240 and R244: on a station as the REFs tell and, without one, as they have alternated. -/
def State.cycleEven (s : State) (p : Nat) : Bool := if s.station p then (s.rp p).even else s.evenCycle

/-- The port forwards what it receives to the next hop on the same lane, unchanged, rules R237, R247, R248, R251 and R254: a node end, a
station, and a claimant; a master end never. -/
def State.relays (s : State) (p : Nat) : Bool :=
  s.station p || s.pstate p == psClaim || (s.pstate p == psListen && !s.masterRole p)

/-- A frame of a TYPE that came on some lanes (bit 0 A, bit 1 B) goes on to the next hop. -/
def State.relay (s : State) (p typ lanes : Nat) : State :=
  if s.relays p then s.setRp p { s.rp p with relayed := (s.rp p).relayed ++ [(typ, lanes)] } else s

/-- The own address on the ring. -/
def State.ownAddr (s : State) (p : Nat) : Nat := s.rcFld p (Reg.RNG_CTRL p) 21 16

/-- The oldest own alarm entry not yet offered to a remote master, with its SEQ, rule R397. -/
def State.toOffer (s : State) (p : Nat) : Option (Nat × Nat) :=
  if !(s.eff Reg.EVT_CTRL).getLsbD 2 then none
  else
    let l := (List.range 1024).filter (fun i => (s.cell32 (s.almAddr i + 36)).testBit 0 &&
      bitsOf (s.cell32 (s.almAddr i + 4)) 21 20 == 0 && decide ((s.rp p).offered < s.cell32 (s.almAddr i)))
    l.foldl (fun best i =>
      let q := s.cell32 (s.almAddr i)
      match best with
      | none => some (i, q)
      | some b => if q < b.2 then some (i, q) else some b) none

/-- A frame of the port, with the header of rule R240; HOLD on each lane is the time that a forwarding station waits for a forwarded frame
there (rule R237). -/
def State.frame (s : State) (p typ dst seq : Nat) (pay : List (BitVec 8)) : RingFrame :=
  let cyc := s.rd64 (Reg.RNG_CYCLE p)
  let node := s.station p
  let hold (l : Lane) : Nat := if s.relays p then (Config.forwardDelay p cyc (s.rp p).sent.length l.num).toNat else 0
  ⟨typ, 4 * b2n (s.cycleEven p) + 8 * b2n (node && (s.toOffer p).isSome), if node then s.ownAddr p else 0xFE, dst, cyc % 65536, seq,
    (hold .a, hold .b), s.lanesOn p, pay, 0⟩

/-- The port sends a frame: it stands among the cycle's. -/
def State.send (s : State) (p : Nat) (f : RingFrame) : State :=
  if f.lanes = 0 then s else s.setRp p { s.rp p with sent := (s.rp p).sent ++ [f] }

/-- The header of a frame on a lane. -/
def RingFrame.header (f : RingFrame) (l : Lane) : List (BitVec 8) :=
  outBytes (f.typ + 16) 1 ++ outBytes (f.flags + 2 * l.num) 1 ++ outBytes f.src 1 ++ outBytes f.dst 1 ++ outBytes f.pay.length 2 ++
    outBytes f.cyc 2 ++ outBytes f.seq 2 ++ outBytes (if l = .a then f.hold.1 else f.hold.2) 2

/-- Block i of a frame on a lane: 256 bytes of header and payload, the last one shorter. -/
def RingFrame.block (f : RingFrame) (l : Lane) (i : Nat) : List (BitVec 8) := ((f.header l ++ f.pay).drop (256 * i)).take 256

/-- What stands on a lane between the control blocks: each block followed by its CRC-32C, rule R239, which is forced invalid for a
spoiled block, rule R370. -/
def RingFrame.onLane (f : RingFrame) (l : Lane) : List (BitVec 8) :=
  (List.range (blockCount f.pay.length)).flatMap (fun i =>
    let c := crc32c (f.block l i)
    f.block l i ++ wordBytes (if f.bad.testBit i then ~~~c else c))

/-- The blocks of a payload of `len` bytes from byte `a` of cell memory that hold an uncorrectable word. -/
def State.badBlocks (s : State) (a len : Nat) : Nat :=
  (List.range (blockCount len)).foldl (fun m i =>
    let lo := 256 * i - 12
    let hi := min (256 * (i + 1) - 12) len
    if s.ueIn 0x80 (a + lo) (hi - lo) then m ||| (1 <<< i) else m) 0

/-- The port sends a frame whose payload it has read from byte `a` of cell memory, rule R370. -/
def State.sendFrom (s : State) (p a : Nat) (f : RingFrame) : State :=
  (s.ueRead 0x80 a f.pay.length).send p { f with bad := s.badBlocks a f.pay.length }

/-- The frame of this cycle that holds a block which is to be sent again. -/
def State.sentFrame (s : State) (p typ dst src blk : Nat) : Option RingFrame :=
  (s.rp p).sent.find? (fun f => f.typ == typ && f.dst == dst && f.src == src && decide (blk < blockCount f.pay.length))

/-- A re-sent block of a frame sent in this cycle, as an RTY frame, rules R240, R255 and R256. -/
def State.resend (s : State) (p typ dst src blk : Nat) : State :=
  match s.sentFrame p typ dst src blk with
  | none => s
  | some f =>
    let r := s.frame p 11 dst (typ + 256 * blk) (f.block .a blk)
    s.send p { r with flags := r.flags + 1 }

/-! ### Received frames -/

/-- An invalid block or a discarded frame on a lane. -/
def State.crcBad (s : State) (p n : Nat) (l : Lane) : State :=
  s.add (if l = .a then Reg.RNG_CRC_CNT_A p else Reg.RNG_CRC_CNT_B p) n

/-- An entry of the receive log, or a drop when it is full, rule R268; the raw stamp is in 2^-16 ns. Where the port places the payload
the rules do not say: its address is free (notes/assumptions/4.md). -/
def State.rxLog (s : State) (p typ : Nat) (l : Lane) (src len cyc raw : Nat) : State :=
  let head := s.fld (Reg.RNG_RXLOG_HEAD p) 7 0
  if (head + 1) % 256 = s.fld (Reg.RNG_RXLOG_TAIL p) 7 0 then (s.inc (Reg.RNG_RXLOG_DROP_CNT p)).event (ringPage p) 10 0
  else
    let t := s.ringStamp p l raw
    let b := (s.rcf p (Reg.RNG_RXLOG_BASE p)).toNat + 32 * head
    let s1 := (((((s.setCell b 8 (wrapTo 64 (t / 65536))).setCell (b + 8) 2 (wrapTo 16 t)).setCell (b + 10) 1 (typ + 16 * l.num)).setCell
      (b + 11) 1 src).setCell (b + 12) 2 len).setCell (b + 14) 2 cyc
    (((s1.setCell (b + 16) 4 (Config.receiveAddr p head).toNat).clearCell (b + 20) 12).setFld (Reg.RNG_RXLOG_HEAD p) 7 0 (head + 1))

/-- HOLD and ALM_PEND of a received header: a held frame counts, and a node that shows an alarm waits for the Trump slot, rules R258 and
R268. -/
def State.inHeader (s : State) (p n : Nat) (hold : BitVec 16) (alm : Bool) : State :=
  let s1 := if hold = 0 then s else s.inc (Reg.RNG_HOLD_CNT p)
  let x := s1.rp p
  s1.setRp p { x with almPend := if alm ∧ n < 64 ∧ ¬ x.almPend.contains n then x.almPend ++ [n] else x.almPend }

/-- Ones of a mask below n. -/
def popTo (m : Nat) : Nat → Nat
  | 0 => 0
  | n + 1 => b2n (m.testBit n) + popTo m n

/-- A frame of `len` payload bytes that comes on one lane: its invalid blocks count, a usable one is logged with its header and goes on to
the next hop, rules R237, R240 and R268; one without its first block is discarded. -/
def State.takeFrame (s : State) (p typ : Nat) (l : Lane) (src len : Nat) (h : RxHead) : State :=
  let cnt := blockCount len
  let s1 := s.crcBad p (cnt - popTo h.ok.toNat cnt) l
  if h.ok.getLsbD 0 then (((s1.rxLog p typ l src len h.cyc.toNat h.stamp).inHeader p src h.hold h.alm).relay p typ (2 ^ l.num)) else s1

/-! ### Discovery, rules R283 to R286 -/

/-- DSTATE of a node. -/
def State.dstate (s : State) (p n : Nat) : Nat := s.fld (Reg.RNG_NODE_LINK p n) 2 0

/-- The words of a recorded descriptor. -/
def State.desc (s : State) (p n : Nat) : List Word := (((s.rp p).desc.find? (fun d => d.1 == n)).map (fun d => d.2)).getD []
def State.descW (s : State) (p n w : Nat) : Nat := ((s.desc p n).getD w 0).toNat

/-- Count the nodes of a DSTATE. -/
def State.dcount (s : State) (p d : Nat) : Nat := ((List.range 64).filter (fun n => s.dstate p n == d)).length

/-- RNG_DISC_STAT from the verdicts. -/
def State.discStat (s : State) (p : Nat) : State :=
  (((s.setFld (Reg.RNG_DISC_STAT p) 6 0 (s.dcount p 1)).setFld (Reg.RNG_DISC_STAT p) 14 8 (s.dcount p 2)).setFld
    (Reg.RNG_DISC_STAT p) 22 16 (s.dcount p 4))

/-- The first check of rule R285 that a descriptor fails, 0 where it matches. -/
def State.descCause (s : State) (p n : Nat) (d : List Word) : Nat :=
  let w (i : Nat) : Nat := (d.getD i 0).toNat
  let kind := bitsOf (w 2) 15 8
  if kind ≠ s.nodeKind p n ∨ bitsOf (w 2) 23 16 ≠ s.nodeAxes p n then 1
  else if s.ringCycle < w 3 then 2
  else if w 4 % 65536 < s.nodeInLen p n ∨ bitsOf (w 4) 31 16 < bitsOf (s.nodeW p n 2) 31 16 then 3
  else if s.nodeSafe p n ∧ bitsOf (w 2) 28 24 ≠ 31 then 4
  else if kind = 2 ∧ (¬ (w 2).testBit 31 ∨ s.effFld Reg.SSM_CTRL 23 16 * s.tTick < bitsOf (w 9) 31 8 * 1000) then 5
  else if kind = 3 ∧ 16 < w 10 then 6
  else 0

/-- Judge a descriptor that answers at address n. -/
def State.judgeDesc (s : State) (p n : Nat) (d : List Word) : State :=
  let devId (x : List Word) : Nat := (x.getD 0 0).toNat / 65536 + 65536 * (x.getD 1 0).toNat
  let old := s.desc p n
  if s.dstate p n = 5 then s
  else if old ≠ [] ∧ devId old ≠ devId d then (s.setFld (Reg.RNG_NODE_LINK p n) 6 0 5).event (ringPage p) 11 5
  else
    let s1 := s.setRp p { s.rp p with desc := (n, d) :: (s.rp p).desc.filter (fun e => e.1 != n) }
    if !s.nodeEn p n then (s1.setFld (Reg.RNG_NODE_LINK p n) 6 0 4).event (ringPage p) 11 4
    else
      let c := s.descCause p n d
      if c = 0 then s1.setFld (Reg.RNG_NODE_LINK p n) 6 0 1
      else if s.dstate p n = 2 then s1
      else (s1.setFld (Reg.RNG_NODE_LINK p n) 6 0 (2 + 16 * c)).inc (Reg.RNG_DISC_MM_CNT p)

/-- DESCRIPTOR_REPLY: the polled node answers in INIT with a descriptor whose CRC-32C holds; on each lane the first copy is taken, and its
lane and arrival are recorded, rules R283 to R286. -/
def State.descriptorReply (s : State) (p n : Nat) (at_ : LaneAt) (d : List Word) : State :=
  let x := s.rp p
  if s.pstate p == psInit && x.polled == some n && !x.answered.testBit at_.lane.num && d.length == 32 &&
      crc32c ((d.take 31).flatMap wordBytes) == d.getD 31 0 then
    ((s.setRp p { x with
      answered := x.answered ||| 2 ^ at_.lane.num
      descAt := (n, at_.lane.num, s.ringStamp p at_.lane at_.stamp) ::
        x.descAt.filter (fun e => !(e.1 == n && e.2.1 == at_.lane.num)) }).judgeDesc p n d).discStat p
  else s

def execDescriptorReply (p : Fin 4) (n : Fin 64) (lane : LaneAt) (d : List Word) (s : State) : Out :=
  .next (if s.ringOn && s.laneUp p.val lane.lane then
    (s.rxLog p.val 7 lane.lane n.val 128 (s.rd64 (Reg.RNG_CYCLE p.val) % 65536) lane.stamp).descriptorReply p.val n.val lane d else s)

/-- The address that discovery polls next, with its pass: in later passes only enabled nodes not yet found. -/
def State.nextPoll (s : State) (p : Nat) : Option (Nat × Nat) :=
  let x := s.rp p
  let tries := s.rcFld p (Reg.RNG_DISC_CFG p) 3 0
  let want (k a : Nat) : Bool := k == 1 || (s.nodeEn p a && s.desc p a == [])
  let inPass := (List.range 64).find? (fun a => decide (x.addr ≤ a) && want x.pass a)
  match inPass with
  | some a => some (x.pass, a)
  | none =>
    if tries ≤ x.pass then none
    else ((List.range 64).find? (fun a => want (x.pass + 1) a)).map (fun a => (x.pass + 1, a))

/-- The end of discovery: nodes that have not answered are ABSENT, and bit 11 is raised for a MISMATCH, UNKNOWN, DUP or
ABSENT required node. The positions on lane A follow the reported REF stamps (they count from 1: DESIGN CHOICE,
notes/assumptions/19.md). -/
def State.endDiscovery (s : State) (p : Nat) : State :=
  let s1 := forUpTo (fun n st => if st.nodeEn p n && st.dstate p n == 0 then st.setFld (Reg.RNG_NODE_LINK p n) 6 0 3 else st) 64 s
  let refT (n : Nat) : Nat := s1.descW p n 14 + 4294967296 * s1.descW p n 15
  let there := (List.range 64).filter (fun n => s1.desc p n != [])
  let s2 := forEach (fun n st => st.setFld (Reg.RNG_NODE_LINK p n) 15 8
    (1 + (there.filter (fun m => decide (refT m < refT n))).length)) there s1
  let absent := (List.range 64).any (fun n => s2.nodeEn p n && s2.nodeRequired p n && s2.dstate p n == 3)
  let bad := absent || (List.range 64).any (fun n => s2.dstate p n == 2 || s2.dstate p n == 4 || s2.dstate p n == 5)
  let s3 := ((s2.discStat p).setBit (Reg.RNG_DISC_STAT p) 24 true).setBit (Reg.RNG_DISC_STAT p) 25 absent
  let s4 := if bad then s3.event (ringPage p) 11 0 else s3
  s4.setRp p { s4.rp p with ended := true, polled := none }

/-- One step of discovery at a cycle boundary in INIT. -/
def State.pollStep (s : State) (p : Nat) : State :=
  let x := s.rp p
  if x.ended then s
  else if x.pass ≠ 1 ∧ (List.range 64).all (fun n => !s.nodeEn p n || s.desc p n != []) then s.endDiscovery p
  else
    match s.nextPoll p with
    | some (k, a) => s.setRp p { x with pass := k, addr := a + 1, polled := some a, answered := 0 }
    | none => s.endDiscovery p

/-! ### Delays, rules R280 and R282 -/

/-- The answering nodes in the order of their position on lane A. -/
def State.inOrder (s : State) (p : Nat) : List Nat :=
  let there := (List.range 64).filter (fun n => s.desc p n != [])
  (List.range 65).flatMap (fun k => there.filter (fun n => s.fld (Reg.RNG_NODE_LINK p n) 15 8 == k))

/-- Running sums: the delay to each node of a list of (node, hop before it, forwarding latency). -/
def delaysOf (acc : Nat) : List (Nat × Nat × Nat) → List (Nat × Nat)
  | [] => []
  | (n, hop, fwd) :: t => (n, acc + hop) :: delaysOf (acc + hop + fwd) t

/-- A hop on a lane: RTT × S / ΣRTT, rounded half up. -/
def hopShare (rtt sx sum : Nat) : Nat := if sum = 0 then 0 else (2 * rtt * sx + sum) / (2 * sum)

/-- Reach of a lane's medium in mm, rule R271, as in force. -/
def State.reach (s : State) (p a : Nat) : Nat := if s.rcFld p a 1 0 = 0 then 25000 else 2000000

/-- The estimated length in mm of a hop of d × 0.2 ns. -/
def State.hopLength (s : State) (p a d : Nat) : Nat := if s.rcFld p a 23 8 = 0 then 0 else d * 200000 / s.rcFld p a 23 8

/-- LONG of a lane where one of its hops is longer than the reach, with an event, rule R282. -/
def State.longCheck (s : State) (p : Nat) (l : Lane) (cfg : Nat) (hops : List Nat) : State :=
  if hops.any (fun d => decide (s.reach p cfg < s.hopLength p cfg d)) then (s.setBit (laneReg p l) 7 true).event (ringPage p) 1 0 else s

/-- The loop times, the split of the hops and the nodes' delays, with the lengths of all hops and the losses that the nodes report. -/
def State.splitHops (s : State) (p : Nat) : State :=
  let la := (medianOf (s.rp p).loopA).1
  let lb := (medianOf (s.rp p).loopB).1
  let ns := s.inOrder p
  let fwdA (n : Nat) : Nat := s.descW p n 7 % 65536
  let fwdB (n : Nat) : Nat := s.descW p n 7 / 65536
  let rtts := s.rdN (Reg.RNG_HOP_RTT p) :: ns.map (fun n => s.descW p n 11)
  let sum := rtts.sum
  let hopA := rtts.map (fun r => hopShare r (la - (ns.map fwdA).sum) sum)
  let hopB := rtts.map (fun r => hopShare r (lb - (ns.map fwdB).sum) sum)
  let dA := delaysOf 0 ((ns.zip hopA).map (fun (n, h) => (n, h, fwdA n)))
  let dB := delaysOf 0 ((ns.reverse.zip hopB.reverse).map (fun (n, h) => (n, h, fwdB n)))
  let s2 := (s.wrN (Reg.RNG_LOOP_A p) la).wrN (Reg.RNG_LOOP_B p) lb
  let s3 := forEach (fun d st => st.wrN (Reg.RNG_NODE_DLY p d.1) d.2) dA s2
  let s4 := forEach (fun d st => st.wrN (Reg.RNG_NODE_DLY p d.1 + 4) d.2) dB s3
  let s5 := (s4.longCheck p .a (Reg.RNG_LINK_CFG_A p) hopA).longCheck p .b (Reg.RNG_LINK_CFG_B p) hopB
  (s5.lossCheck p .a (ns.map (fun n => s.descW p n 13 % 65536))).lossCheck p .b (ns.map (fun n => s.descW p n 13 / 65536))

/-! ### The schedule check, rule R243 -/

/-- The delays to the master end on lane A and lane B, in 0.2 ns, rule R280. -/
def State.upA (s : State) (p n : Nat) : Nat := s.rdN (Reg.RNG_LOOP_A p) - s.rdN (Reg.RNG_NODE_DLY p n) - s.descW p n 7 % 65536
def State.upB (s : State) (p n : Nat) : Nat := s.rdN (Reg.RNG_LOOP_B p) - s.rdN (Reg.RNG_NODE_DLY p n + 4) - s.descW p n 7 / 65536

/-- The choice between the values of lanes A and B where both carry traffic, and the one of the lane that does where one does, rule R243. -/
def State.ofLanes (s : State) (p : Nat) (f : Nat → Nat → Nat) (a b : Nat) : Nat :=
  if !s.laneUsed p .b || !s.laneUp p .b then a else if s.laneUp p .a then f a b else b

/-- Delay to the master end on the lane with the shorter way, which the worked example of rule R243 takes: DEDUCED,
notes/assumptions/20.md. -/
def State.toMaster (s : State) (p n : Nat) : Nat := s.ofLanes p min (s.upA p n) (s.upB p n)

/-- A node's round trip on that lane: from the master end to it and back. -/
def State.roundTrip (s : State) (p n : Nat) : Nat :=
  s.ofLanes p min (s.rdN (Reg.RNG_LOOP_A p) - s.descW p n 7 % 65536) (s.rdN (Reg.RNG_LOOP_B p) - s.descW p n 7 / 65536)

/-- The longest and the shortest loop. -/
def State.loopMax (s : State) (p : Nat) : Nat := s.ofLanes p max (s.rdN (Reg.RNG_LOOP_A p)) (s.rdN (Reg.RNG_LOOP_B p))
def State.loopMin (s : State) (p : Nat) : Nat := s.ofLanes p min (s.rdN (Reg.RNG_LOOP_A p)) (s.rdN (Reg.RNG_LOOP_B p))

/-- Bytes of a frame on the lane, rule R239. -/
def frameBytes (pay : Nat) : Nat := 28 + pay + 4 * blockCount pay

/-- Duration of a node's slot in 0.2 ns: CYC_IN, and SAFE_IN after a gap of 16 bytes. -/
def State.slotTime (s : State) (p n : Nat) : Nat :=
  8 * (frameBytes (s.nodeInLen p n) + if s.nodeSafe p n then 16 + frameBytes 32 else 0)

/-- START and end of a window, 0.2 ns. -/
def State.winFrom (s : State) (p w : Nat) : Nat := 5 * s.winStart p w
def State.winTo (s : State) (p w : Nat) : Nat := s.winFrom p w + 5 * s.winLen p w

/-- What the IRT and TRUMP windows carry, 0.2 ns: RNG_RTY.IRT blocks of at most 292 bytes, which different nodes send, with a guard between
two; and a TRUMP frame. -/
def State.winContent (s : State) (p w : Nat) : Nat :=
  if w = 3 then s.rcFld p (Reg.RNG_RTY p) 3 0 * (292 * 8 + 2000) - 2000 else 8 * frameBytes 64

/-- The windows do not overlap and keep the guard, rules R242 and R243: it follows each window, and what the IRT and TRUMP windows carry,
whose LEN holds the guard in the worked example (DEDUCED, notes/assumptions/20.md). -/
def State.windowsOk (s : State) (p : Nat) : Bool :=
  (List.range 7).all (fun w =>
    if w = 3 ∨ w = 4 then
      decide (s.winTo p w ≤ s.winFrom p (w + 1) ∧ s.winFrom p w + s.winContent p w + 2000 ≤ s.winFrom p (w + 1) ∧
        s.winContent p w ≤ 5 * s.winLen p w)
    else decide (s.winTo p w + 2000 ≤ s.winFrom p (w + 1))) &&
  decide (s.winTo p 3 + 1000 ≤ 5 * s.fld (Reg.QTZ_PH 0 + 4) 20 0) && decide (s.winTo p 7 + 10000 ≤ 5 * s.ringCycle)

/-- The schedule meets the measured delays, rule R243 (times in 0.2 ns). Windows are intervals of arrival times: the master end's frames
leave one shorter loop before their START; START names the arrival of the OUT copies to the ns: DEDUCED, notes/assumptions/20.md. -/
def State.delaysOk (s : State) (p : Nat) : Bool :=
  let ns := s.slots p
  let arr (n : Nat) : Nat := 5 * s.nodeW p n 1
  let inTick := 5 * (s.fld (Reg.QTZ_PH 6) 20 0 % s.ringCycle)
  ns.all (fun n => ns.all (fun m => n == m || decide (arr n + s.slotTime p n + 2000 ≤ arr m ∨ arr m + s.slotTime p m + 2000 ≤ arr n))) &&
  ns.all (fun n => decide (5 * s.descW p n 5 + s.toMaster p n ≤ arr n ∧ s.winFrom p 1 ≤ arr n ∧ arr n + s.slotTime p n ≤ s.winTo p 1)) &&
  ns.all (fun n => decide (s.winFrom p 2 + 5 * s.nodeW p n 6 + s.roundTrip p n ≤ s.winFrom p 3 + s.loopMin p)) &&
  decide (s.winFrom p 6 ≤ inTick + s.loopMin p ∧ inTick + s.loopMin p < s.winFrom p 6 + 5) &&
  decide (s.winTo p 6 + s.loopMin p + 1000 ≤ s.winFrom p 7)

/-- The schedule check at entry to INIT. -/
def State.scheduleOk (s : State) (p : Nat) : Bool := s.windowsOk p && s.delaysOk p

/-- A refused schedule sets CFG_REFUSED and raises a configuration alarm. -/
def State.refuseSchedule (s : State) (p : Nat) : State := (s.setBit (Reg.RNG_STAT p) 10 true).alarm (ringPage p) 9 0

/-- The check when an RNG page loads, of a port that the page enables: against the measured delays once there are such (DESIGN CHOICE,
notes/assumptions/141.md). -/
def State.scheduleLoaded (s : State) (p : Nat) : State :=
  let measured := s.rdN (Reg.RNG_LOOP_A p) != 0 || s.rdN (Reg.RNG_LOOP_B p) != 0
  if !(s.portEn p && s.masterRole p) || (s.windowsOk p && (!measured || s.delaysOk p)) then s else s.refuseSchedule p

/-- The delay from a station at node m to node n along a lane, rules R249 and R251: as from the master end, past m's own hop. -/
def onward (loop dm fm dn : Nat) : Nat := if dm + fm ≤ dn then dn - (dm + fm) else dn + loop - (dm + fm)

/-- The delays from node m to node n on lanes A and B. -/
def State.delayFrom (s : State) (p m n : Nat) : Nat × Nat :=
  (onward (s.rdN (Reg.RNG_LOOP_A p)) (s.rdN (Reg.RNG_NODE_DLY p m)) (s.descW p m 7 % 65536) (s.rdN (Reg.RNG_NODE_DLY p n)),
   onward (s.rdN (Reg.RNG_LOOP_B p)) (s.rdN (Reg.RNG_NODE_DLY p m + 4)) (s.descW p m 7 / 65536) (s.rdN (Reg.RNG_NODE_DLY p n + 4)))

/-- What the master end sends a node by bulk at the end of INIT, rules R238, R249 and R251: a twin peer station has no backup rank. -/
def State.nodeInit (s : State) (p n : Nat) : NodeInit :=
  let bk (r : Nat) : Nat := s.rcFld p (Reg.RNG_BKUP p) (8 * r - 1) (8 * r - 8)
  let ranks := [1, 2, 3].filter (fun r => decide (bk r < 64) && s.nodeKind p (bk r) != 5)
  { saddr := BitVec.ofNat 16 (s.nodeW p n 3)
    sfWd := BitVec.ofNat 8 (s.nodeW p n 3 / 65536)
    rank := BitVec.ofNat 8 ((ranks.find? (fun r => bk r == n)).getD 0)
    launch := ((5 * s.nodeW p n 1 : Nat) - (s.upA p n : Int), (5 * s.nodeW p n 1 : Nat) - (s.upB p n : Int))
    delay := (s.rdN (Reg.RNG_NODE_DLY p n), s.rdN (Reg.RNG_NODE_DLY p n + 4))
    backups := ranks.map (fun r => (r, s.delayFrom p (bk r) n))
    peer := ((List.range 64).find? (fun m => s.nodeEn p m && s.nodeKind p m == 5)).map (fun m => s.delayFrom p m n)
    loop := s.loopMax p }

/-- The end of INIT: the delays are formed and the schedule is checked; the nodes found are told theirs and the port passes to CYCLIC, or it
stays with CFG_REFUSED and a configuration alarm, rules R243, R249 and R285. -/
def State.endInit (s : State) (p : Nat) : State :=
  let s1 := s.splitHops p
  if s1.scheduleOk p then
    let found := (List.range 64).filter (fun n => s1.dstate p n == 1)
    (s1.setRp p { s1.rp p with
      served := true
      told := found.map (fun n => (n, s1.nodeInit p n)) }).setPstate p psCyclic
  else (s1.setRp p { s1.rp p with refused := true }).refuseSchedule p

/-- Enough loop times on each lane that carries traffic. -/
def State.loopsDone (s : State) (p : Nat) : Bool :=
  (!s.laneUp p .a || decide (16 ≤ (s.rp p).loopA.length)) &&
    (!(s.laneUp p .b && s.laneUsed p .b) || decide (16 ≤ (s.rp p).loopB.length))

/-! ### The cycle boundary, rules R240, R245 to R248, R253, R254 and R258 -/

/-- The node that gets the Trump slot: of those that showed ALM_PEND, the first after the node last granted. -/
def trumpGrant (pend : List Nat) (last : Nat) : Option Nat :=
  (List.range 64).find? (fun k => pend.contains ((last + 1 + k) % 64)) |>.map (fun k => (last + 1 + k) % 64)

/-- The first eight waiting corrections, in order of node address. -/
def takeCorr (l : List (Nat × Int)) : List (Nat × Int) := ((List.range 64).filterMap (fun n => l.find? (fun c => c.1 == n))).take 8

/-- Trump grants of lower ports in this cycle, which come before this port's for a free entry. -/
def State.grantsBefore (s : State) (p : Nat) : Nat := ((List.range p).filter (fun q => (s.rp q).grant.isSome)).length

/-- The Trump grant of a REF, rules R258 and R396: none while no entry of the store is free; after such a time in order of address,
else in rotation. -/
def State.chooseGrant (s : State) (p : Nat) : Option Nat :=
  let x := s.rp p
  if 1024 ≤ s.almUsed + s.grantsBefore p then none
  else if x.withheld then (List.range 64).find? (fun n => x.almPend.contains n)
  else trumpGrant x.almPend x.lastGrant

/-- The bulk grants of a REF, +64 to +67: discovery's poll, one block on each lane (rule R283), none with nothing to poll in INIT, and in
service an open choice (notes/assumptions/122.md). -/
def State.refGrants (s : State) (p : Nat) : List (BitVec 8) :=
  match (s.rp p).polled with
  | some a => outBytes (a + 256 + 65536 * a + 16777216) 4
  | none => if s.pstate p = psInit then outBytes 0x00FF00FF 4 else wordBytes (Config.bulkGrants p (s.rd64 (Reg.RNG_CYCLE p)))

/-- The payload of a REF, rule R245, of a time master of a rank that launches it REF_OFS ns after the reference instant. -/
def State.refPayload (s : State) (p rank ofs : Nat) : List (BitVec 8) :=
  let x := s.rp p
  let corr := (List.range 8).flatMap (fun i =>
    match x.refCorr[i]? with
    | some c => outBytes c.1 1 ++ outBytes (wrapTo 24 c.2) 3
    | none => outBytes 0xFF 4)
  outBytes (s.rd64 (Reg.RNG_CYCLE p)) 8 ++ outBytes s.now 8 ++ outBytes s.deviceId 6 ++ outBytes (s.rcFld p (Reg.RNG_CTRL p) 15 8) 1 ++
    outBytes rank 1 ++ outBytes ofs 4 ++
    outBytes (b2n (s.cycleEven p) + 2 * b2n (s.pstate p == psCyclic && s.outCycle) + 4 * b2n s.commission) 4 ++
    corr ++ s.refGrants p ++ outBytes (x.grant.getD 0xFF) 1 ++ outBytes 0 27

/-- T_RANK in ns: the longest loop time of the port, which INIT has told a station, plus 1 µs, rule R246. -/
def State.tRank (s : State) (p : Nat) : Nat :=
  (if s.station p then ((s.rp p).init.map (fun i => i.loop)).getD 0 else s.loopMax p) / 5 + 1000

/-- The rank of the port as time master and REF_OFS of its REF, rule R246. -/
def State.ownRank (s : State) (p : Nat) : Nat := if s.station p then s.rcFld p (Reg.RNG_BKUP p) 31 24 else 0
def State.refOfs (s : State) (p : Nat) : Nat := (s.ownRank p - 1) * s.tRank p

/-- A time master's port launches its REF: grants and corrections. -/
def State.launchRef (s : State) (p : Nat) : State :=
  let x := s.rp p
  let c := takeCorr x.corr
  let g := s.chooseGrant p
  let s1 := s.setRp p { x with
    refCorr := c
    corr := x.corr.filter (fun e => !c.contains e)
    grant := g
    lastGrant := g.getD x.lastGrant
    withheld := decide (x.almPend ≠ []) && g.isNone
    almPend := [] }
  s1.send p (s1.frame p 1 0xFF 0 (s1.refPayload p (s1.ownRank p) (s1.refOfs p)))

/-- The number of the next cycle. -/
def State.nextCycle (s : State) (p : Nat) : State := s.wr64 (Reg.RNG_CYCLE p) ((s.rd64 (Reg.RNG_CYCLE p) + 1) % 18446744073709551616)

/-- The SAFE_IN of a port in node role, rules R262 and R264: its watchdog expires, and it is in its safe state, without a valid SAFE_OUT in
SF_WD cycles; it has no safe bits (notes/assumptions/122.md). -/
def State.ownSafeIn (s : State) (p : Nat) (i : NodeInit) : List (BitVec 8) :=
  let x := s.rp p
  let bad := decide (i.sfWd.toNat ≤ x.safeMiss)
  let l := bytesOf i.saddr.toNat 2 ++ bytesOf (if bad then 3 else 0) 2 ++ bytesOf x.safeCnt 4 ++ bytesOf 0 20
  (l ++ bytesOf (safetyCrc (crcInit i.saddr.toNat) l) 4).map (BitVec.ofNat 8)

/-- The bytes of an export record, rule R179. -/
def ObjRec.bytes (o : ObjRec) : List (BitVec 8) :=
  let w (i : Int) : List (BitVec 8) := outBytes (wrapTo 32 i) 4
  w o.p0.x ++ w o.p0.y ++ w o.p0.z ++ w o.p1.x ++ w o.p1.y ++ w o.p1.z ++ outBytes o.r 4 ++ outBytes o.add 4 ++ outBytes o.vo 2 ++
    outBytes o.flags 2 ++ outBytes o.ts 4

/-- The export records of this tick go out on port p, rule R193. -/
def State.exportsOn (s : State) (p : Nat) : Bool := s.effFld Reg.SSM_EXP 2 2 == 1 && s.effFld Reg.SSM_EXP 1 0 == p

/-- The IN slot of a port in node role that INIT has given one: a CYC_IN with the export records of the last tick and its echo (rules R193
and R261), and its SAFE_IN. -/
def State.nodeSlot (s : State) (p : Nat) : State :=
  match (s.rp p).init with
  | none => s
  | some i =>
    let s1 := s.setRp p { s.rp p with safeMiss := (s.rp p).safeMiss + 1 }
    let pay := if s1.exportsOn p then s1.ssm.sent.flatMap (fun (o : ObjRec) => o.bytes) else []
    let s2 := s1.send p (s1.frame p 3 0xFE (s1.rp p).echo pay)
    s2.send p (s2.frame p 5 0xFE 0 (s2.ownSafeIn p i))

/-- What a station makes of the cycle that ends: it is lost without a valid REF, or with one more than 400 ns off; a backup in charge has
led it and counts nothing. The next one's reference instant is predicted one cycle on, and it is even unless the last one was
and the one before it was not (notes/assumptions/153.md), rules R244, R246 and R254. -/
def State.closeCycle (s : State) (p : Nat) : State :=
  let x := s.rp p
  let led := x.refSeen.isNone && s.bit (Reg.RNG_STAT p) 7
  let miss := x.refSeen.isNone && !led
  let s1 := s.setRp p { x with
    refSeen := none
    refOff := false
    lost := if led then x.lost else if miss || x.refOff then x.lost + 1 else 0
    valid := if miss then 0 else x.valid
    again := if miss then 0 else x.again
    noRef := if miss then x.noRef + 1 else if led then x.noRef else 0
    adjust := x.adjust + x.adjustNext
    adjustNext := 0
    predict := (if x.refAt.isSome then x.refAt else x.predict).map (fun t => t + (5 * s.ringCycle : Nat))
    refAt := none
    refT := none
    evenBefore := x.even
    even := !x.even || x.evenBefore
    replied := 0
    granted := (0, 0) }
  let s2 := if x.predict.isSome || x.refAt.isSome then s1.nextCycle p else s1
  if miss then s2.inc (Reg.RNG_REF_MISS_CNT p) else s2

/-- A node's port at a cycle boundary. A backup in charge launches the REF or, with a REF of a lower rank received, stops; a node in
service runs its slot in an even cycle. -/
def State.nodeCycle (s : State) (p : Nat) : State :=
  let s1 := s.closeCycle p
  let s2 := if (s.rp p).backupEnd then (s1.setRp p { s1.rp p with backupEnd := false }).setBit (Reg.RNG_STAT p) 7 false
    else if s1.bit (Reg.RNG_STAT p) 7 then s1.launchRef p
    else s1
  if s2.pstate p = psNode ∧ (s2.rp p).even then s2.nodeSlot p else s2

/-- The claim of a port in CLAIM: priority, device ID and round, rules R241 and R248. -/
def State.sendClaim (s : State) (p : Nat) : State :=
  (s.inc (Reg.RNG_CLAIM_CNT p)).send p (s.frame p 9 0xFF 0
    (outBytes (s.rcFld p (Reg.RNG_CTRL p) 15 8) 1 ++ outBytes s.deviceId 6 ++ outBytes (s.rp p).rounds 1))

/-- A period of a claimant begins: one in which the own claim has not come round ends the run of unbeaten ones. -/
def State.claimPeriod (s : State) (p : Nat) : State :=
  let x := s.rp p
  (s.setRp p { x with rounds := if x.claimBack then x.rounds else 0, claimBack := false }).sendClaim p

/-- A port leaves the master's part: it claims and yields no more, and is FOREIGN, rules R247 and R250. -/
def State.toForeign (s : State) (p : Nat) : State := (s.setRp p { s.rp p with yield := false, claiming := false }).setPstate p psForeign

/-- A port that claims or is time master must leave that: a twin without the interlock, or after a better claim. -/
def State.mustYield (s : State) (p : Nat) : Bool :=
  (psClaim ≤ s.pstate p && decide (s.pstate p ≤ psCyclic)) && (!s.ringFree || (s.pstate p != psClaim && (s.rp p).yield))

/-- One port at a ring cycle boundary. -/
def State.portCycle (s0 : State) (p : Nat) : State :=
  let s := s0.setRp p { s0.rp p with sent := [], relayed := [] }
  let x := s.rp p
  if s.mustYield p then s.toForeign p
  else
    match s.pstate p with
    | 1 => s.setRp p { x with listen := x.listen + 1, refSeen := none }
    | 2 => if x.claiming then s.claimPeriod p else s
    | 3 =>
      let s1 := ((s.pollStep p).nextCycle p).launchRef p
      if (s1.rp p).ended && s1.loopsDone p && !(s1.rp p).refused then s1.endInit p else s1
    | 4 => (s.nextCycle p).launchRef p
    | 5 => s.nodeCycle p
    | 6 => s.nodeCycle p
    | 7 => s.nodeCycle p
    | _ => s

/-- A ring cycle boundary falls in the present tick and has not been run: one at the tick boundary, and with RING_DIV = 1 a second
T_tick / 2 later, which a realignment tick that has ended by then does not reach, rule R40 (notes/assumptions/100.md). -/
def State.cycleDue (s : State) (mid : Bool) : Bool :=
  s.ringOn && s.ticking && !s.qtz.cycled.testBit (b2n mid) &&
    (!mid || (s.bit Reg.QTZ_TICK 4 && decide (s.rd64 Reg.QTZ_LAST_TICK + s.tTick / 2 < s.nextBoundary)))

/-- RING_CYCLE_BOUNDARY, rule R40. -/
def State.cycleBoundary (s : State) (mid : Bool) : State :=
  if s.cycleDue mid then
    let s1 := if mid then s.advance (s.rd64 Reg.QTZ_LAST_TICK + s.tTick / 2) else s
    forUpTo (fun p st => st.portCycle p) 4 { s1 with qtz := { s1.qtz with cycled := s1.qtz.cycled ||| 2 ^ b2n mid } }
  else s

def execRingCycleBoundary (mid : Bool) (s : State) : Out := .next (s.cycleBoundary mid)

/-! ### REF, claims and backups -/

/-- What a REF tells of its time master. -/
def State.noteRef (s : State) (p : Nat) (f : RefMsg) : State :=
  ((s.setFld (Reg.RNG_STAT p) 17 16 f.rank.val).wr64 (Reg.RNG_CYCLE p) f.cycle.toNat).wr64 (Reg.RNG_TM_ID p)
    (f.devId.toNat + 281474976710656 * f.prio.toNat)

/-- A node's delay from the time master of a rank on a lane as INIT has told it, 0.2 ns. -/
def State.refDelay (s : State) (p rank : Nat) (l : Lane) : Nat :=
  match (s.rp p).init with
  | none => 0
  | some i =>
    let d := if rank = 0 then i.delay else ((i.backups.find? (fun b => b.1 == rank)).map (fun b => b.2)).getD (0, 0)
    if l = .a then d.1 else d.2

/-- The reference instant that a REF gives, 0.2 ns, rule R245: its arrival, less the delay from the time master on that lane, less REF_OFS. -/
def State.refInstant (s : State) (p : Nat) (l : Lane) (f : RefMsg) (stamp : Nat) : Int :=
  s.ingressSteps p l stamp - (s.refDelay p f.rank.val l : Int) - 5 * (f.ofs.toNat : Int)

/-- The first REF of another time master of rank 0, which starts its own grid, rule R247. -/
def State.newMaster (s : State) (p : Nat) (f : RefMsg) : Bool :=
  f.rank.val == 0 && (match (s.rp p).tm with | some d => d != f.devId.toNat | none => false)

/-- A REF puts the reference instant within 400 ns of the node's own prediction; there is none before INIT has told the delays and at a new
time master's grid, rule R254 (notes/assumptions/142.md). -/
def State.refGood (s : State) (p : Nat) (l : Lane) (f : RefMsg) (stamp : Nat) : Bool :=
  match (s.rp p).predict with
  | none => true
  | some e => (s.rp p).init.isNone || s.newMaster p f || decide (mag (s.refInstant p l f stamp - e) ≤ 2000)

/-- A backup's own REF of this cycle is not sent where a valid REF of a lower rank has come before its launch instant, rule R246. -/
def State.dropRef (s : State) (p : Nat) (l : Lane) (f : RefMsg) (stamp : Nat) : State :=
  let x := s.rp p
  let before := match x.predict with
    | none => true
    | some e => decide (s.ingressSteps p l stamp < e + 5 * (s.refOfs p : Int))
  if s.bit (Reg.RNG_STAT p) 7 && decide (f.rank.val < s.ownRank p) && before then
    s.setRp p { x with sent := x.sent.filter (fun g => g.typ != 1) }
  else s

/-- The sum of the corrections for a node address in a REF, ns. -/
def refCorrOf (f : RefMsg) (own : Nat) : Int := ((f.corr.filter (fun c => c.1 == own)).map (fun c => 4 * c.2)).sum

/-- What a node keeps of the REF it takes: one valid REF for the cycle, whose reference instant its clock goes on from; a new time master's
ends all corrections. -/
def State.keepRef (s : State) (p : Nat) (l : Lane) (f : RefMsg) (stamp : Nat) : State :=
  let x := s.rp p
  let good := s.refGood p l f stamp
  let new := s.newMaster p f
  let first := b2n x.refSeen.isNone
  let next := if new then 0 else x.adjustNext
  s.setRp p { x with
    refSeen := some f.rank.val
    refOff := !good
    valid := x.valid + first
    again := x.again + first
    noRef := 0
    refAt := some (s.refInstant p l f stamp)
    even := f.even
    tm := if f.rank.val = 0 then some f.devId.toNat else x.tm
    adjust := if new then 0 else x.adjust
    adjustNext := if good then next + refCorrOf f (s.ownAddr p) else next
    backupEnd := x.backupEnd || (s.bit (Reg.RNG_STAT p) 7 && decide (f.rank.val < s.ownRank p)) }

/-- A node takes the REF of the lowest rank of a cycle, and not its own as a backup; SILENT ends with the second valid REF in a row, rules
R245, R246 and R254. -/
def State.nodeRef (s : State) (p : Nat) (l : Lane) (f : RefMsg) (stamp : Nat) : State :=
  let mine := s.bit (Reg.RNG_STAT p) 7 && f.devId.toNat == s.deviceId
  if mine || (match (s.rp p).refSeen with | some r => decide (r ≤ f.rank.val) | none => false) then s
  else
    let s1 := if s.refGood p l f stamp then s.noteRef p f else s
    let s2 := (s1.keepRef p l f stamp).dropRef p l f stamp
    if s2.pstate p = psListen then (s2.setRp p { s2.rp p with served := true }).setPstate p psNode
    else if s2.pstate p = psSilent ∧ 2 ≤ (s2.rp p).again then s2.setPstate p psNode
    else s2

/-- A port of master role in LISTEN or CLAIM finds a valid REF, rule R247; one that has met its own ID stays in CLAIM, rule R248. -/
def State.masterFindsRef (s : State) (p : Nat) (f : RefMsg) : State :=
  if s.bit (Reg.RNG_STAT p) 9 then s
  else if s.ringFree && s.rcFld p (Reg.RNG_CTRL p) 4 4 == 1 && decide (f.prio.toNat < s.rcFld p (Reg.RNG_CTRL p) 15 8) then
    if s.pstate p = psClaim then s
    else (s.setRp p { s.rp p with claiming := true, rounds := 0, claimBack := false }).setPstate p psClaim
  else ((s.setRp p { s.rp p with claiming := false }).noteRef p f).setPstate p psForeign

/-- A loop time of a lane, 0.2 ns, from the compensated stamps of the own REF, rule R280. -/
def State.takeLoop (s : State) (p : Nat) (l : Lane) (egress stamp : Nat) : State :=
  let x := s.rp p
  let d := (s.ingressSteps p l stamp - s.egressSteps p l egress).toNat
  match l with
  | .a => s.setRp p { x with loopA := (d :: x.loopA).take 16 }
  | .b => s.setRp p { x with loopB := (d :: x.loopB).take 16 }

/-- REF: by role and state. The master end takes its own REF's loop time, rule R280. -/
def State.refIn (s : State) (p : Nat) (l : Lane) (f : RefMsg) (egress stamp : Nat) : State :=
  match s.pstate p with
  | 1 => if s.masterRole p then s.masterFindsRef p f else s.nodeRef p l f stamp
  | 2 => s.masterFindsRef p f
  | 3 => if f.devId.toNat = s.deviceId then s.takeLoop p l egress stamp else s
  | 5 => s.nodeRef p l f stamp
  | 6 => s.nodeRef p l f stamp
  | 7 => s.nodeRef p l f stamp
  | _ => s

/-- A REF that polls an address, rules R245 and R283: both lanes granted to it with a budget of one block (DEDUCED,
notes/assumptions/143.md). -/
def refPolls (f : RefMsg) (own : Nat) : Bool :=
  f.grantA.toNat == own && f.grantB.toNat == own && f.budgetA == 1 && f.budgetB == 1

/-- A station that a REF polls answers on that lane with its descriptor, once it has received 8 valid REFs in a row, rules R251 and R283; a
twin peer station is one in FOREIGN without the interlock. -/
def State.answerPoll (s : State) (p : Nat) (l : Lane) : State :=
  let x := s.rp p
  if decide (8 ≤ x.valid) && !x.replied.testBit l.num && (s.pstate p == psNode || (s.pstate p == psForeign && !s.ringFree)) then
    (s.setRp p { x with replied := x.replied ||| 2 ^ l.num }).send p { s.frame p 7 0xFE 0xFFFF (s.selfDesc p) with lanes := 2 ^ l.num }
  else s

/-- The local time of the REF on lane A, ns, which goes into a descriptor of this cycle that waits its 2 µs, rules R283 and R284. -/
def State.noteRefTime (s : State) (p : Nat) (l : Lane) (stamp : Nat) : State :=
  if l = .a ∧ s.station p then
    let s1 := s.setRp p { s.rp p with refT := some (wrapTo 64 (s.ringStamp p .a stamp / 65536)) }
    let d := s1.selfDesc p
    s1.setRp p { s1.rp p with sent := (s1.rp p).sent.map (fun f => if f.typ = 7 ∧ f.seq = 0xFFFF then { f with pay := d } else f) }
  else s

/-- A node that a REF grants the Trump slot sends its oldest alarm entry not yet offered, rules R258 and R397. -/
def State.sendTrump (s : State) (p grant : Nat) : State :=
  match (if grant = s.ownAddr p ∧ s.pstate p = psNode then s.toOffer p else none) with
  | none => s
  | some e => (s.setRp p { s.rp p with offered := e.2 }).send p (s.frame p 6 0xFE 0 (s.cell.bytes (s.almAddr e.1) 64))

/-- What the grants of a REF bring a station: an answer to a poll on each lane; of the first copy the bulk budgets and the Trump slot of
the cycle. -/
def State.takeGrants (s : State) (p : Nat) (l : Lane) (f : RefMsg) (first : Bool) : State :=
  let own := s.ownAddr p
  let s1 := if refPolls f own then s.answerPoll p l else s
  if !first || s1.pstate p != psNode then s1
  else
    let g := if refPolls f own then (0, 0)
      else (if f.grantA.toNat = own then f.budgetA.toNat else 0, if f.grantB.toNat = own then f.budgetB.toNat else 0)
    (s1.setRp p { s1.rp p with granted := g }).sendTrump p f.trump.toNat

/-- A valid REF on a lane. -/
def State.refFrame (s : State) (p : Nat) (l : Lane) (f : RefMsg) (egress stamp : Nat) : State :=
  let first := (s.rp p).refSeen.isNone
  let s1 := ((s.rxLog p 1 l f.src.toNat 96 (f.cycle.toNat % 65536) stamp).inHeader p 0xFF f.hold false).relay p 1 (2 ^ l.num)
  ((s1.refIn p l f egress stamp).noteRefTime p l stamp).takeGrants p l f first

def execRefFrame (p : Fin 4) (lane : Lane) (f : RefMsg) (ok : Bool) (egress stamp : Nat) (s : State) : Out :=
  .next (if s.ringOn && s.laneUp p.val lane then
    (if ok then s.refFrame p.val lane f egress stamp else s.crcBad p.val 1 lane)
  else s)

/-- One claim is better than another, rule R248. -/
def betterClaim (prio dev prio' dev' : Nat) : Bool := decide (prio' < prio) || (prio == prio' && decide (dev' < dev))

/-- A claimant's own claim: priority and device ID, from the master end's address. -/
def State.ownClaim (s : State) (p src prio dev : Nat) : Bool :=
  prio == s.rcFld p (Reg.RNG_CTRL p) 15 8 && dev == s.deviceId && src == 0xFE && s.pstate p == psClaim

/-- CLAIM: compared with the station's own, which comes round once in a period however many copies do; a time master yields to a higher
priority at the next boundary. -/
def State.claimIn (s : State) (p src prio dev : Nat) : State :=
  let x := s.rp p
  let own := s.rcFld p (Reg.RNG_CTRL p) 15 8
  match s.pstate p with
  | 2 =>
    if !x.claiming then s
    else if prio = own ∧ dev = s.deviceId then
      if src = 0xFE then s.setRp p { x with rounds := x.rounds + b2n (!x.claimBack), claimBack := true }
      else ((s.setRp p { x with claiming := false }).setBit (Reg.RNG_STAT p) 9 true).event (ringPage p) 7 0
    else if betterClaim prio dev own s.deviceId then
      (((s.setRp p { x with claiming := false, served := true }).setBit (Reg.RNG_STAT p) 11 true).event (ringPage p) 7 0).setPstate p psNode
    else s
  | 3 => if own < prio then s.setRp p { x with yield := true } else s
  | 4 => if own < prio then s.setRp p { x with yield := true } else s
  | _ => s

/-- A claim on a lane: logged, and forwarded unless it is the claimant's own, rule R248. -/
def State.claimFrame (s : State) (p : Nat) (l : Lane) (src prio dev : Nat) (h : RxHead) : State :=
  let s1 := s.takeFrame p 9 l src 8 h
  let s2 := if s.ownClaim p src prio dev then s1.setRp p { s1.rp p with relayed := (s.rp p).relayed } else s1
  if h.ok.getLsbD 0 then s2.claimIn p src prio dev else s2

def execClaimFrame (p : Fin 4) (lane : Lane) (src prio : BitVec 8) (devId : BitVec 48) (h : RxHead) (s : State) : Out :=
  .next (if s.ringOn && s.laneUp p.val lane then s.claimFrame p.val lane src.toNat prio.toNat devId.toNat h else s)

/-- LISTEN_END: LISTEN_N cycles without a valid REF: a port of master role with CLAIM_EN = 1 claims; a twin without the
interlock never does, rules R248 and R250. -/
def State.listenEnd (s : State) (p : Nat) : State :=
  if s.ringOn && s.pstate p == psListen && s.masterRole p && s.ringFree && s.rcFld p (Reg.RNG_CTRL p) 4 4 == 1 &&
      decide (s.rcFld p (Reg.RNG_MISS p) 23 16 ≤ (s.rp p).listen) then
    ((s.setRp p { s.rp p with claiming := true, rounds := 0, claimBack := false }).setPstate p psClaim).sendClaim p
  else s

def execListenEnd (p : Fin 4) (s : State) : Out := .next (s.listenEnd p.val)

/-- CLAIM_WON: the own claim has come round unbeaten in three periods: the port is time master and enters INIT. -/
def State.claimWon (s : State) (p : Nat) : State :=
  if s.ringOn && s.pstate p == psClaim && s.ringFree && (s.rp p).claiming && decide (3 ≤ (s.rp p).rounds) then
    let x := s.rp p
    let s1 := s.setRp p { x with
      claiming := false
      pass := 1
      addr := 0
      ended := false
      refused := false
      polled := none
      desc := []
      descAt := []
      loopA := []
      loopB := [] }
    let s2 := forUpTo (fun n st => st.wr (Reg.RNG_NODE_LINK p n) 0) 64 s1
    ((((s2.wr (Reg.RNG_DISC_STAT p) 0).setFld (Reg.RNG_STAT p) 17 16 0).wr64 (Reg.RNG_TM_ID p)
      (s2.deviceId + 281474976710656 * s2.rcFld p (Reg.RNG_CTRL p) 15 8)).event (ringPage p) 7 0).setPstate p psInit
  else s

def execClaimWon (p : Fin 4) (s : State) : Out := .next (s.claimWon p.val)

/-- BACKUP_TAKEOVER: a backup that has missed REFs at two boundaries sends its own, rule R246. -/
def State.backupTakeover (s : State) (p : Nat) : State :=
  let r := s.rcFld p (Reg.RNG_BKUP p) 31 24
  if s.ringOn && s.pstate p == psNode && decide (r ≠ 0) && decide (2 ≤ (s.rp p).noRef) && !s.bit (Reg.RNG_STAT p) 7 && s.ringFree then
    ((((s.setBit (Reg.RNG_STAT p) 7 true).setFld (Reg.RNG_STAT p) 17 16 r).wr64 (Reg.RNG_TM_ID p)
      (s.deviceId + 281474976710656 * s.rcFld p (Reg.RNG_CTRL p) 15 8)).inc (Reg.RNG_BACKUP_CNT p)).event (ringPage p) 8 0
  else s

def execBackupTakeover (p : Fin 4) (s : State) : Out := .next (s.backupTakeover p.val)

/-- NODE_SILENCE: after 4 lost cycles in a row a node silences itself, rule R254. -/
def State.nodeSilence (s : State) (p : Nat) : State :=
  if s.ringOn && s.pstate p == psNode && decide (4 ≤ (s.rp p).lost) then
    (s.setRp p { s.rp p with again := 0 }).setPstate p psSilent
  else s

def execNodeSilence (p : Fin 4) (s : State) : Out := .next (s.nodeSilence p.val)

/-! ### Inbound frames, rules R238, R252, R253 and R259 to R263 -/

/-- Node key and addresses in the gather buffer copy of the present tick. -/
def nodeKey (p n : Nat) : Nat := 64 * p + n
def State.nodeArea (s : State) (par p n : Nat) : Nat := s.gath par + 0x2400 + 0x800 * nodeKey p n
def State.safeArea (s : State) (p n : Nat) : Nat := s.gath s.parity + 0x82400 + 32 * nodeKey p n

/-- Where byte i of a node's CYC_IN payload goes: an axis record of a drive, else the node area. -/
def State.payAddr (s : State) (par p n i : Nat) : Nat :=
  if s.nodeKind p n = 0 then s.gath par + 64 * (s.nodeFirst p n + i / 40) + i % 40 else s.nodeArea par p n + 16 + i

/-- The payload bytes that a block carries, with their places in the payload. -/
def blockBytes (pay : List (BitVec 8)) (b : Nat) : List (Nat × BitVec 8) :=
  ((List.range pay.length).zip pay).filter (fun q => (q.1 + 12) / 256 == b)

/-- A valid block is written as it arrives. -/
def State.putBlock (s : State) (p n : Nat) (pay : List (BitVec 8)) (b : Nat) : State :=
  forEach (fun q st => st.storeCell (st.payAddr st.parity p n q.1) 1 q.2.toNat) (blockBytes pay b) s

/-- Drive payloads fill 40 bytes for each axis, others at most 2,032. -/
def State.payFits (s : State) (p n len : Nat) : Bool := len == s.nodeInLen p n && decide (len ≤ 2032)

/-- A deviation in 0.2 ns units, rounded half up to ns and to units of 4 ns (DESIGN CHOICE, notes/assumptions/153.md). -/
def devNs (dev : Int) : Int := (2 * dev + 5) / 10
def dev4 (dev : Int) : Int := (2 * dev + 20) / 40

/-- The deviation of the used copy (0.2 ns units) and what follows from it: flags, counters and the correction, rules R252 and R253. -/
def State.slotCheck (s : State) (p n : Nat) (dev : Int) : State :=
  let late := decide (1000 < dev)
  let early := decide (dev < -1000)
  let s1 := ((((s.setFld (Reg.RNG_NODE_STAT p n) 31 16 (wrapTo 16 (dev4 dev))).setBit (Reg.RNG_NODE_STAT p n) 10 early).setBit
    (Reg.RNG_NODE_STAT p n) 11 late))
  let s2 := if late then s1.inc (Reg.RNG_LATE_CNT p) else if early then s1.inc (Reg.RNG_EARLY_CNT p) else s1
  let x := s2.rp p
  let rest := x.corr.filter (fun c => c.1 != n)
  s2.setRp p { x with corr := if late || early then (n, dev4 (-dev)) :: rest else rest }

/-- A copy outside the guard is discarded on its lane. -/
def State.offSlot (s : State) (p n : Nat) (bad : Bool) : State :=
  if bad then (((s.setBit (Reg.RNG_NODE_STAT p n) 9 true).inc (Reg.RNG_OFFSLOT_CNT p)).event (ringPage p) 3 0).trace (0x50 + p) 0x21
    (w32 n) 0 0 0
  else s

/-- The planned arrivals of a node's frames after the reference instant, 0.2 ns: W1 of the node table, and the SAFE_IN a gap of 16 bytes after
its CYC_IN, rules R242 and R268 (DEDUCED, notes/assumptions/144.md). -/
def State.inPlan (s : State) (p n : Nat) : Nat := 5 * s.nodeW p n 1
def State.safePlan (s : State) (p n : Nat) : Nat := s.inPlan p n + 8 * (frameBytes (s.nodeInLen p n) + 16)

/-- The deviation of a copy from its planned arrival, HOLD taken off, 0.2 ns, rule R252. -/
def copyDev (plan : Nat) (c : FrameCopy) : Int := c.arr - 20 * (c.hold.toNat : Int) - (plan : Int)

/-- The valid blocks of a copy, as a mask of `cnt` blocks: none without its first block, with another VER or off its slot. -/
def copyMask (plan ok cnt : Nat) (up : Bool) (c : FrameCopy) : Nat :=
  if up ∧ ok.testBit 0 ∧ c.ver = 1 ∧ mag (copyDev plan c) ≤ 2000 then ok % 2 ^ cnt else 0

/-- A lane's copy: invalid blocks count, a header of another VER counts once, and a valid one outside the guard is off its slot, rules R240
and R252. -/
def State.judgeCopy (s : State) (p n plan cnt : Nat) (l : Lane) (ok : Nat) (c : FrameCopy) : State :=
  if s.laneUp p l && s.laneUsed p l then
    let s1 := s.crcBad p (cnt - popTo ok cnt + b2n (ok.testBit 0 && c.ver != 1)) l
    s1.offSlot p n (ok.testBit 0 && c.ver == 1 && decide (2000 < mag (copyDev plan c)))
  else s

/-- The blocks valid on A and on B of a frame's copies. -/
def State.copyMasks (s : State) (p plan cnt : Nat) (h : InHeader) (okA okB : Nat) : Nat × Nat :=
  (copyMask plan okA cnt (s.laneUp p .a) h.a, copyMask plan okB cnt (s.laneUp p .b && s.laneUsed p .b) h.b)

/-- The copy whose header is used: of those with a valid first block the one that came first, lane A where they came together, rule
R238. -/
def usedCopy (h : InHeader) (a b : Nat) : FrameCopy :=
  if a.testBit 0 ∧ (¬ b.testBit 0 ∨ h.a.arr ≤ h.b.arr) then h.a else h.b

/-- What both copies of a frame tell: the blocks valid on one of them, with counters and slot checks; a block that only the later copy has
counts as saved. -/
def State.copies (s : State) (p n plan cnt : Nat) (h : InHeader) (okA okB : Nat) : State × Nat :=
  let mP := s.copyMasks p plan cnt h okA okB
  let a := mP.1
  let b := mP.2
  let s1 := ((s.setBit (Reg.RNG_NODE_STAT p n) 9 false).judgeCopy p n plan cnt .a okA h.a).judgeCopy p n plan cnt .b okB h.b
  let later := if h.a.arr ≤ h.b.arr then b else a
  let s2 := s1.add (Reg.RNG_LANE_SAVE_CNT p) (popTo later cnt - popTo (a &&& b) cnt)
  (if a ||| b = 0 then s2 else s2.slotCheck p n (copyDev plan (usedCopy h a b)), a ||| b)

/-- Note a frame's arrival and its failed blocks. -/
def State.noteFrame (s : State) (p n : Nat) (safe : Bool) (cnt mask : Nat) : State :=
  let x := s.rp p
  let bad := ((List.range cnt).filter (fun b => !mask.testBit b)).map (fun b => (⟨n, safe, b⟩ : RingBlock))
  s.setRp p { x with
    arrived := if mask = 0 then x.arrived else (n, safe) :: x.arrived
    failed := x.failed ++ bad }

/-- The node area's words beside the payload: lanes used, HOLD, Δ and the echo, rule R260; an echo behind the last command cycle
counts, rule R256. -/
def State.areaHead (s : State) (p n lanes : Nat) (c : FrameCopy) (dev : Int) (echo : Nat) : State :=
  let b := s.nodeArea s.parity p n
  let s1 := ((s.storeCell b 4 (4 * lanes + 65536 * c.hold.toNat)).storeCell (b + 4) 4 (wrapTo 32 (devNs dev))).storeCell (b + 8) 8 echo
  if echo ≠ (s1.rp p).outCyc then s1.inc (Reg.RNG_OUT_LOST_CNT p) else s1

/-- A node whose frames the master end takes: one with a slot that discovery has not found to be MISMATCH, ABSENT or DUP, rules R285 and
R286; a port that took its ring over has polled none. -/
def State.takesFrom (s : State) (p n : Nat) : Bool :=
  (s.slots p).contains n && s.dstate p n != 2 && s.dstate p n != 3 && s.dstate p n != 5

/-- The lanes on which copies of a frame come. -/
def State.lanesOf (s : State) (p okA okB : Nat) : Nat :=
  b2n (s.laneUp p .a && decide (okA ≠ 0)) + 2 * b2n (s.laneUp p .b && s.laneUsed p .b && decide (okB ≠ 0))

/-- CYC_IN: the master end receives a node's status frame. Blocks that come after the G deadline are dropped and counted, rule R48; a frame
that the port no longer waits for is missing. A station forwards it. -/
def State.cycIn (s : State) (p n : Nat) (h : InHeader) (pay : List (BitVec 8)) (okA okB : Nat) : State :=
  if s.ringOn && s.pstate p == psCyclic && s.takesFrom p n && s.payFits p n pay.length then
    let cnt := blockCount pay.length
    let plan := s.inPlan p n
    let mP := s.copyMasks p plan cnt h okA okB
    let s1P := s.copies p n plan cnt h okA okB
    let s1 := s1P.1
    let m := s1P.2
    if (s.rp p).done then (if s.isSealed .g then s1.add Reg.QTZ_LATE_WR_CNT (popTo m cnt) else s1)
    else
      let s2 := s1.noteFrame p n false cnt m
      if m = 0 then s2
      else
        let c := usedCopy h mP.1 mP.2
        let s3 := forEach (fun b st => if m.testBit b then st.putBlock p n pay b else st) (List.range cnt) (s2.inHeader p n c.hold h.alm)
        s3.areaHead p n (b2n (decide (mP.1 ≠ 0)) + 2 * b2n (decide (mP.2 ≠ 0))) c (copyDev plan c) h.echo.toNat
  else if s.ringOn then s.relay p 3 (s.lanesOf p okA okB)
  else s

def execCycIn (p : Fin 4) (n : Fin 64) (h : InHeader) (pay : List (BitVec 8)) (okA okB : BitVec 8) (s : State) : Out :=
  .next (s.cycIn p.val n.val h pay okA.toNat okB.toNat)

/-- Words of a safety payload, and its bytes. -/
def payWord (pay : BitVec 256) (w : Nat) : Nat := bitsOf pay.toNat (32 * w + 31) (32 * w)
def payBytes (pay : BitVec 256) (len : Nat) : List Nat := (List.range len).map (fun i => bitsOf pay.toNat (8 * i + 7) (8 * i))

/-- Channel A accepts a SAFE_IN, rule R263. -/
def State.safeInOk (s : State) (p n : Nat) (pay : BitVec 256) : Bool :=
  let sa := s.nodeW p n 3 % 65536
  let lag := (s.saf.cnt + 4294967296 - payWord pay 1) % 4294967296
  payWord pay 0 % 65536 == sa && safetyCrc (crcInit sa) (payBytes pay 28) == payWord pay 7 &&
    decide (lag ≤ s.rcFld p (Reg.RNG_MISS p) 15 8) && payWord pay 4 == s.nodeW p n 4

/-- A received SAFE_IN is kept in the gather buffer and judged. -/
def State.takeSafeIn (s : State) (p n : Nat) (pay : BitVec 256) : State :=
  let ok := s.safeInOk p n pay
  let s1 := forEach (fun w st => st.storeCell (st.safeArea p n + 4 * w) 4 (payWord pay w)) (List.range 8) s
  let s2 := s1.setBit (Reg.RNG_NODE_STAT p n) 12 (!ok)
  let rest := s2.saf.safeIn.filter (fun e => e.1 != nodeKey p n)
  { s2 with saf := { s2.saf with safeIn := if ok then rest ++ [(nodeKey p n, payWord pay 3)] else rest } }

/-- The SAFE_IN of a node has come valid on both lanes in this tick. -/
def State.noteLanes (s : State) (p n : Nat) (both : Bool) : State :=
  if both && !s.saf.bothLanes.contains (nodeKey p n) then
    { s with saf := { s.saf with bothLanes := s.saf.bothLanes ++ [nodeKey p n] } }
  else s

/-- SAFE_IN: one block; a frame invalid on both lanes is missing until its re-sent block comes, and one after the G deadline is
dropped and counted. -/
def State.safeIn (s : State) (p n : Nat) (h : InHeader) (pay : BitVec 256) (okA okB : Bool) : State :=
  if s.ringOn && s.pstate p == psCyclic && s.takesFrom p n && s.nodeSafe p n then
    let plan := s.safePlan p n
    let mP := s.copyMasks p plan 1 h (b2n okA) (b2n okB)
    let s1P := s.copies p n plan 1 h (b2n okA) (b2n okB)
    let s1 := s1P.1
    let m := s1P.2
    if (s.rp p).done then (if s.isSealed .g then s1.add Reg.QTZ_LATE_WR_CNT (popTo m 1) else s1)
    else
      let s2 := s1.noteFrame p n true 1 m
      if m = 0 then s2
      else ((s2.inHeader p n (usedCopy h mP.1 mP.2).hold h.alm).takeSafeIn p n pay).noteLanes p n (mP.1 ≠ 0 && mP.2 ≠ 0)
  else if s.ringOn then s.relay p 5 (s.lanesOf p (b2n okA) (b2n okB))
  else s

def execSafeIn (p : Fin 4) (n : Fin 64) (h : InHeader) (pay : BitVec 256) (okA okB : Bool) (s : State) : Out :=
  .next (s.safeIn p.val n.val h pay okA okB)

/-! ### Retries, rules R255 and R256 -/

/-- Every inbound block that is invalid on both lanes, with those of frames that did not arrive: SAFE_IN first, then CYC_IN,
in slot order and block order. -/
def State.failedBlocks (s : State) (p : Nat) : List RingBlock :=
  let x := s.rp p
  let order := ((s.slots p).map (fun n => (s.nodeW p n 1, n)))
  let sorted := (sortNat (order.map (fun e => e.1 * 64 + e.2))).map (fun k => k % 64)
  let of (safe : Bool) (n : Nat) : List RingBlock :=
    if safe && !s.nodeSafe p n then []
    else
      let cnt := if safe then 1 else blockCount (s.nodeInLen p n)
      let all := (List.range cnt).map (fun b => (⟨n, safe, b⟩ : RingBlock))
      if x.arrived.contains (n, safe) then all.filter (fun b => x.failed.contains b) else all
  sorted.flatMap (of true) ++ sorted.flatMap (of false)

/-- The RQ: an entry of 4 bytes names the node, the frame type and the block (their places: PRESUMED, notes/assumptions/124.md). -/
def State.sendRq (s : State) (p : Nat) (l : List RingBlock) : State :=
  s.send p (s.frame p 10 0xFF 0 (l.flatMap (fun b => outBytes (b.node + 256 * (if b.safe then 5 else 3) + 65536 * b.block) 4)))

/-- The trace records of blocks that are re-sent on request, rule R400. -/
def State.retryTrace (s : State) (p : Nat) (l : List RingBlock) : State :=
  forEach (fun (b : RingBlock) t => t.trace (0x50 + p) 0x20 (w32 b.node) (w32 b.block) 0 0) l s

/-- RQ_LAUNCH, in every even cycle: the first entries of the list are named for a re-send; a backup in charge names none. -/
def State.rqLaunch (s : State) (p : Nat) : State :=
  if !(s.ringOn && s.cycleEven p) then s
  else if s.pstate p == psCyclic && !(s.rp p).done then
    let l := s.failedBlocks p
    let named := l.take (s.rcFld p (Reg.RNG_RTY p) 3 0)
    ((s.setRp p { s.rp p with failed := l, rq := named }).sendRq p named).retryTrace p named
  else if s.pstate p == psNode && s.bit (Reg.RNG_STAT p) 7 then s.sendRq p []
  else s

def execRqLaunch (p : Fin 4) (s : State) : Out := .next (s.rqLaunch p.val)

/-- RQ: a node in service re-sends the blocks that name it. -/
def State.rqIn (s : State) (p : Nat) (l : List RingBlock) : State :=
  if s.ringOn && s.pstate p == psNode then
    let own := l.filter (fun b => b.node == s.ownAddr p)
    (forEach (fun (b : RingBlock) st => st.resend p (if b.safe then 5 else 3) 0xFE (st.ownAddr p) b.block) own
      (s.setRp p { s.rp p with rtyDue := own })).retryTrace p own
  else s

def execRqFrame (p : Fin 4) (entries : List RingBlock) (s : State) : Out :=
  .next (if s.ringOn then (s.rqIn p.val entries).relay p.val 10 (s.lanesOn p.val) else s)

/-- The payload bytes of a re-sent block of header and payload, with their places in the payload. -/
def resentBytes (block : Nat) (data : List (BitVec 8)) : List (Nat × BitVec 8) :=
  let body := if block = 0 then data.drop 12 else data
  ((List.range body.length).map (fun i => (if block = 0 then 0 else 256 * block - 12) + i)).zip body

/-- The 32 bytes of a safety payload from a block of header and payload. -/
def safePay (data : List (BitVec 8)) : BitVec 256 := BitVec.ofNat 256 ((data.drop 12).foldr (fun c acc => c.toNat + 256 * acc) 0)

/-- A valid re-sent block takes its place; a SAFE_IN is then judged. -/
def State.placeRetry (s : State) (p : Nat) (b : RingBlock) (data : List (BitVec 8)) : State :=
  let x := s.rp p
  let s1 := s.setRp p { x with
    failed := x.failed.filter (fun e => e != b)
    arrived := if x.arrived.contains (b.node, b.safe) then x.arrived else (b.node, b.safe) :: x.arrived }
  if b.safe then s1.takeSafeIn p b.node (safePay data)
  else forEach (fun q st => st.storeCell (st.payAddr st.parity p b.node q.1) 1 q.2.toNat) (resentBytes b.block data) s1

/-- A re-sent inbound block that the RQ named: it counts as re-sent, and is taken where a copy is valid. One that comes after the G deadline
is dropped and counted, rule R48. -/
def State.rtyIn (s : State) (p : Nat) (b : RingBlock) (data : List (BitVec 8)) (good : Bool) : State :=
  let x := s.rp p
  if !x.rq.contains b then s
  else
    let s1 := (s.setRp p { x with rq := x.rq.filter (fun e => e != b) }).inc (Reg.RNG_IRT_CNT p)
    if !good then s1
    else if x.done then (if s.isSealed .g then s1.inc Reg.QTZ_LATE_WR_CNT else s1)
    else s1.placeRetry p b data

/-- A port in node role takes payload bytes of its command frame for the next gather, rule R260. -/
def State.takeOut (s : State) (p mask cnt : Nat) (l : List (Nat × BitVec 8)) : State :=
  let x := s.rp p
  s.setRp p { x with inbox := x.inbox ++ l, inMask := x.inMask ||| mask, inCnt := cnt }

/-- SAFE_OUT: a node with a SADDR takes the CNT of a valid frame, which its SAFE_IN echoes, rule R262. -/
def State.safeOutIn (s : State) (p : Nat) (pay : BitVec 256) : State :=
  match (s.rp p).init with
  | none => s
  | some i =>
    if payWord pay 0 % 65536 = i.saddr.toNat ∧ safetyCrc (crcInit i.saddr.toNat) (payBytes pay 28) = payWord pay 7 then
      s.setRp p { s.rp p with safeCnt := payWord pay 1, safeMiss := 0 }
    else s

/-- A frame of one block on both lanes, rule R238: an invalid copy counts on its lane, a block that only the later copy has counts as saved;
with it, whether a copy is valid. -/
def State.eitherLane (s : State) (p : Nat) (k : LaneOk) : State × Bool :=
  let upB := s.laneUp p .b && s.laneUsed p .b
  let a := k.a && s.laneUp p .a
  let b := k.b && upB
  let s1 := if s.laneUp p .a && !k.a then s.crcBad p 1 .a else s
  let s2 := if upB && !k.b then s1.crcBad p 1 .b else s1
  let saved := if k.bFirst then a && !b else b && !a
  (if saved then s2.inc (Reg.RNG_LANE_SAVE_CNT p) else s2, a || b)

/-- A re-sent outbound block that names the node: of a SAFE_OUT as the frame itself; of a CYC_OUT where the node does not hold a valid copy,
and with the first block come LEN and CYC of the header, rules R240 and R256. -/
def State.rtyOut (s : State) (p : Nat) (b : RingBlock) (data : List (BitVec 8)) : State :=
  let x := s.rp p
  let half (i : Nat) : Nat := (data.getD i 0).toNat + 256 * (data.getD (i + 1) 0).toNat
  if b.node ≠ s.ownAddr p then s
  else if b.safe then s.safeOutIn p (safePay data)
  else if x.inMask.testBit b.block then s
  else if b.block = 0 then
    (s.setRp p { x with echo := half 6 }).takeOut p 1 (blockCount (half 4)) (resentBytes 0 data)
  else s.takeOut p (2 ^ b.block) x.inCnt (resentBytes b.block data)

/-- RTY: at the master end an inbound block, at a node an outbound one; a station forwards it. -/
def State.rty (s : State) (p : Nat) (b : RingBlock) (data : List (BitVec 8)) (k : LaneOk) : State :=
  if !s.ringOn then s
  else
    let gP := s.eitherLane p k
    let s1 := if gP.2 then (gP.1.inHeader p (if s.station p then 0xFE else b.node) k.hold k.alm).relay p 11 (s.lanesOf p (b2n k.a) (b2n k.b))
      else gP.1
    if s.pstate p = psCyclic then s1.rtyIn p b data gP.2
    else if s.pstate p = psNode ∧ gP.2 then s1.rtyOut p b data
    else s1

def execRtyFrame (p : Fin 4) (blk : RingBlock) (data : List (BitVec 8)) (ok : LaneOk) (s : State) : Out := .next (s.rty p.val blk data ok)

/-- The blocks that returned invalid, each once: SAFE_OUT first, in slot order and block order. -/
def State.badOut (s : State) (p : Nat) (bad : List RingBlock) : List RingBlock :=
  [true, false].flatMap (fun safe => (s.slots p).flatMap (fun n =>
    ((List.range 8).map (fun b => (⟨n, safe, b⟩ : RingBlock))).filter (fun b => bad.contains b)))

/-- The port still holds the frame of an outbound block. -/
def State.canResend (s : State) (p : Nat) (b : RingBlock) : Bool :=
  (s.sentFrame p (if b.safe then 4 else 2) b.node 0xFE b.block).isSome

/-- ORT_LAUNCH, in the cycle that carries OUT: outbound blocks that returned invalid are re-sent, up to the room. -/
def State.ortLaunch (s : State) (p : Nat) (bad : List RingBlock) : State :=
  if s.ringOn && s.pstate p == psCyclic && s.outCycle then
    let l := s.badOut p bad
    let named := (l.filter (fun b => s.canResend p b)).take (s.rcFld p (Reg.RNG_RTY p) 7 4)
    let s1 := (s.add (Reg.RNG_ORT_CNT p) named.length).add (Reg.RNG_ORT_FAIL_CNT p) (l.length - named.length)
    let s2 := forEach (fun (b : RingBlock) st => st.resend p (if b.safe then 4 else 2) b.node 0xFE b.block) named s1
    (if named.length < l.length then s2.event (ringPage p) 4 0 else s2).retryTrace p named
  else s

def execOrtLaunch (p : Fin 4) (bad : List RingBlock) (s : State) : Out := .next (s.ortLaunch p.val bad)

/-! ### The port's share of G, rule R259 -/

/-- Words that mark a node's area and axes. -/
def State.markNode (s : State) (p n : Nat) (valid : Bool) : State :=
  let st := s.rdN (Reg.RNG_NODE_STAT p n)
  let flags := b2n valid + 2 * b2n (st.testBit 8)
  let b := s.nodeArea s.parity p n
  let keep := s.cell32 b
  let s1 := s.setCell b 4 (flags + 4 * bitsOf keep 3 2 + 256 * (st % 256) + 65536 * bitsOf keep 31 16)
  if s.nodeKind p n = 0 then
    forUpTo (fun i t => t.setCell (t.gath t.parity + 64 * (t.nodeFirst p n + i) + 40) 4
      (flags + 256 * (st % 256) + 65536 * (t.rd64 (Reg.RNG_CYCLE p) % 65536))) (s.nodeAxes p n) s1
  else s1

/-- The node's last valid data stay in place: the payload of the other copy is carried over. -/
def State.keepData (s : State) (p n : Nat) : State :=
  if s.nodeKind p n = 0 then
    forUpTo (fun i t => t.copyCell (t.gath (1 - t.parity) + 64 * (t.nodeFirst p n + i)) (t.gath t.parity + 64 * (t.nodeFirst p n + i)) 40)
      (s.nodeAxes p n) s
  else s.copyCell (s.nodeArea (1 - s.parity) p n + 16) (s.nodeArea s.parity p n + 16) (s.nodeInLen p n)

/-- LOST is set: counted, with an alarm. -/
def State.setLost (s : State) (p n : Nat) : State :=
  ((s.setBit (Reg.RNG_NODE_STAT p n) 8 true).inc (Reg.RNG_LOST_CNT p)).alarm (ringPage p) 2 (w32 n)

/-- MISS_RUN has come to MISS_N. -/
def State.lostDue (s : State) (p n : Nat) : Bool :=
  decide (s.rcFld p (Reg.RNG_MISS p) 7 0 ≤ s.fld (Reg.RNG_NODE_STAT p n) 7 0) && !s.bit (Reg.RNG_NODE_STAT p n) 8

/-- A missing frame. -/
def State.frameMissing (s : State) (p n : Nat) : State :=
  let run := min 255 (s.fld (Reg.RNG_NODE_STAT p n) 7 0 + 1)
  let s1 := ((s.keepData p n).setFld (Reg.RNG_NODE_STAT p n) 7 0 run).inc (Reg.RNG_MISS_CNT p)
  let s2 := s1.setRp p { s1.rp p with good := (s1.rp p).good.filter (fun e => e.1 != n) }
  let s3 := if s2.lostDue p n then s2.setLost p n else s2
  s3.markNode p n false

/-- A ring axis's home offset is added to its position and latch as its entry is written, rule R304. -/
def State.homeAxis (s : State) (a : Nat) : State :=
  let r := s.gath s.parity + 64 * a
  let h := s.rdI64 (Reg.FBK_HOFS a)
  if 128 ≤ a ∨ h = 0 then s
  else
    let s1 := s.setCellI r 8 (s.cellI64 r + h)
    if (s.cell32 (r + 20)).testBit 6 then s1.setCellI (r + 24) 8 (s.cellI64 (r + 24) + h) else s1

/-- The position of a ring axis was valid in the tick before: as noted then, or by its entry, which a unit in shadow takes as it is, rule
R304 (DEDUCED, notes/assumptions/152.md). -/
def State.posBefore (s : State) (a : Nat) : Bool :=
  s.fbk.posPrev.contains a || s.cell32 (s.gath (1 - s.parity) + 64 * a + 40) % 2 == 1

/-- FBK_RING_VDIFF of an axis: the velocity becomes the position difference of this tick and the last; a tick in which
either position is invalid gives an invalid entry, rule R304. -/
def State.diffAxis (s : State) (a : Nat) : State :=
  let r := s.gath s.parity + 64 * a
  let q := s.gath (1 - s.parity) + 64 * a
  if 128 ≤ a ∨ !s.bit (Reg.FBK_RING_VDIFF (a / 32)) (a % 32) then s
  else if s.cell32 (r + 40) % 2 = 0 then s
  else
    let s1 := { s with fbk := { s.fbk with posNow := a :: s.fbk.posNow } }
    if s.posBefore a then s1.setCellI (r + 8) 8 (fit64 ((s.cellI64 r - s.cellI64 q) * 65536))
    else s1.setCell (r + 40) 4 (s.cell32 (r + 40) / 2 * 2)

/-- The axes of a drive node. -/
def State.driveAxes (s : State) (p n : Nat) : List Nat :=
  if s.nodeKind p n = 0 then (List.range (s.nodeAxes p n)).map (fun i => s.nodeFirst p n + i) else []

/-- A complete frame; a LOST node is valid again after the second in a row. -/
def State.frameComplete (s : State) (p n : Nat) : State :=
  let x := s.rp p
  let run := ((x.good.find? (fun e => e.1 == n)).map (fun e => e.2)).getD 0 + 1
  if s.bit (Reg.RNG_NODE_STAT p n) 8 ∧ run < 2 then
    (s.setRp p { x with good := (n, run) :: x.good.filter (fun e => e.1 != n) }).markNode p n false
  else
    (((s.setRp p { x with good := x.good.filter (fun e => e.1 != n) }).setBit (Reg.RNG_NODE_STAT p n) 8 false).setFld
      (Reg.RNG_NODE_STAT p n) 7 0 0).markNode p n true

/-- A missing SAFE_IN: bit 31 of its word 7 is 0. -/
def State.safeMissing (s : State) (p n : Nat) : State :=
  let a := s.safeArea p n + 28
  (s.setCell a 4 (s.cell32 a % 2147483648)).setBit (Reg.RNG_NODE_STAT p n) 12 true

/-- One node of a port of master role: without its CYC_IN or its SAFE_IN it misses the tick, once (notes/assumptions/145.md). -/
def State.gatherNode (s : State) (p n : Nat) (bad : List RingBlock) : State :=
  let miss (safe : Bool) : Bool := bad.any (fun b => b.node == n && b.safe == safe)
  let noSafe := s.nodeSafe p n && miss true
  let s1 := if noSafe then s.safeMissing p n else s
  if miss false || noSafe then s1.frameMissing p n
  else
    let l := s.driveAxes p n
    forEach (fun a st => st.diffAxis a) l ((forEach (fun a st => st.homeAxis a) l s1).frameComplete p n)

/-- A port that has never served marks its nodes invalid; one that has counts each as missing. -/
def State.gatherDown (s : State) (p n : Nat) : State :=
  let s1 := if s.nodeSafe p n then s.safeMissing p n else s
  if (s.rp p).served then s1.frameMissing p n else (s1.keepData p n).markNode p n false

/-- The port's own node area in node role: the command payload received since the last gather, or the last one kept and marked invalid,
rule R260. -/
def State.ownGather (s : State) (p : Nat) : State :=
  let x := s.rp p
  let own := s.ownAddr p
  let b := s.nodeArea s.parity p own
  let whole := decide (x.inCnt ≠ 0) && x.inMask == 2 ^ x.inCnt - 1
  let s1 := s.copyCell (s.nodeArea (1 - s.parity) p own + 16) (b + 16) 2032
  let s2 := if whole then forEach (fun q st => st.setCell (b + 16 + q.1) 1 q.2.toNat) x.inbox s1 else s1
  (s2.setCell b 4 (b2n whole)).setRp p { x with inbox := [], inMask := 0, inCnt := 0 }

/-- A port that is in service completes its share of G at the IRT end plus 200 ns; any other has completed at the start of G. -/
def State.inService (s : State) (p : Nat) : Bool := s.ringOn && (s.pstate p == psCyclic || s.pstate p == psNode)

/-- The port has a node table: it is enabled, or its page names one (DESIGN CHOICE, notes/assumptions/146.md). -/
def State.hasTable (s : State) (p : Nat) : Bool := s.portEn p || s.rcf p (Reg.RNG_TBL_BASE p) != 0

/-- The share of G of a port that is not in service, rule R259: all its nodes are invalid, and so is the own area of a node end. -/
def State.gatherIdle (s : State) (p : Nat) : State :=
  let s0 := s.setRp p { s.rp p with done := true }
  if !s.masterRole p then (s0.setRp p { s0.rp p with inbox := [], inMask := 0, inCnt := 0 }).ownGather p
  else if s0.standby || !s0.hasTable p then s0
  else forEach (fun n st => st.gatherDown p n) (s0.slots p) s0

/-- PORT_GATHER_COMPLETE: the port completes its share of G. -/
def State.portGather (s : State) (p : Nat) : State :=
  if !s.clocked || (s.rp p).done || s.qtz.sealed.testBit 0 then s
  else if !s.inService p then s.when s.phasesRun (fun t => t.gatherIdle p)
  else
    let s0 := s.setRp p { s.rp p with done := true }
    if s.pstate p = psNode then s0.ownGather p
    else
      let bad := s0.failedBlocks p
      let s1 := s0.add (Reg.RNG_IRT_FAIL_CNT p) bad.length
      let s2 := if bad = [] then s1 else s1.event (ringPage p) 4 0
      forEach (fun n st => st.gatherNode p n bad) (s0.slots p) s2

/-- Every port in service has completed its share of G; the others complete at its start, rules R47 and R259. -/
def State.gatherDone (s : State) : Bool :=
  (List.range 4).all (fun p => !s.inService p || (s.rp p).done)

def execPortGatherComplete (p : Fin 4) (s : State) : Out := .next (s.portGather p.val)

/-- NODE_LOST: what PORT_GATHER_COMPLETE does where MISS_RUN reaches MISS_N; it adds nothing where that has been done. -/
def State.nodeLost (s : State) (p n : Nat) : State := if s.ringOn && s.nodeEn p n && s.lostDue p n then s.setLost p n else s

def execNodeLost (p : Fin 4) (n : Fin 64) (s : State) : Out := .next (s.nodeLost p.val n.val)

/-- A tick begins: what a port gathers starts anew, and a port not in service completes at once, rule R259. -/
def State.ringTick (s : State) : State :=
  forUpTo (fun p st =>
    let s1 := st.setRp p { st.rp p with arrived := [], failed := [], rq := [], done := false, rtyDue := [] }
    if s1.inService p then s1 else s1.portGather p) 4
    { s with fbk := { s.fbk with posPrev := s.fbk.posNow, posNow := [] } }

/-! ### Node role: outbound frames -/

/-- CYC_OUT: a node takes the valid blocks of its command frame for its own node area, and its CYC as the echo; a station forwards it. -/
def State.cycOut (s : State) (p : Nat) (h : OutHeader) (pay : List (BitVec 8)) (okA okB : Nat) : State :=
  if s.ringOn && s.pstate p == psNode && decide (pay.length ≤ 2032) then
    let cnt := blockCount pay.length
    let here : FrameCopy := ⟨1, 0, 0⟩
    let a := copyMask 0 okA cnt (s.laneUp p .a) here
    let b := copyMask 0 okB cnt (s.laneUp p .b && s.laneUsed p .b) here
    let m := a ||| b
    let later := if h.bFirst then a else b
    let s1 := if s.laneUp p .a then s.crcBad p (cnt - popTo okA cnt) .a else s
    let s2 := if s.laneUp p .b && s.laneUsed p .b then s1.crcBad p (cnt - popTo okB cnt) .b else s1
    let s3 := (s2.add (Reg.RNG_LANE_SAVE_CNT p) (popTo later cnt - popTo (a &&& b) cnt)).relay p 2 (s.lanesOf p okA okB)
    if m = 0 then s3
    else
      let s4 := s3.inHeader p 0xFE h.hold false
      (s4.setRp p { s4.rp p with echo := h.cyc.toNat, inbox := [], inMask := 0 }).takeOut p m cnt
        (((List.range pay.length).zip pay).filter (fun q => m.testBit ((q.1 + 12) / 256)))
  else if s.ringOn then s.relay p 2 (s.lanesOf p okA okB)
  else s

def execCycOut (p : Fin 4) (h : OutHeader) (pay : List (BitVec 8)) (okA okB : BitVec 8) (s : State) : Out :=
  .next (s.cycOut p.val h pay okA.toNat okB.toNat)

/-- SAFE_OUT: a node in service takes a frame of which a copy is valid; a station forwards it. -/
def State.safeOutFrame (s : State) (p : Nat) (pay : BitVec 256) (k : LaneOk) : State :=
  if s.ringOn && s.pstate p == psNode then
    let gP := s.eitherLane p k
    let s1 := gP.1.relay p 4 (s.lanesOf p (b2n k.a) (b2n k.b))
    if gP.2 then (s1.inHeader p 0xFE k.hold k.alm).safeOutIn p pay else s1
  else if s.ringOn then s.relay p 4 (s.lanesOf p (b2n k.a) (b2n k.b))
  else s

def execSafeOut (p : Fin 4) (pay : BitVec 256) (ok : LaneOk) (s : State) : Out := .next (s.safeOutFrame p.val pay ok)

/-! ### Trump and bulk, rules R257 and R258 -/

/-- TRUMP: the granted node's alarm record goes to the alarm store. -/
def State.trump (s : State) (p n : Nat) (data : List (BitVec 8)) : State :=
  if (s.rp p).grant == some n && data.length == 64 then
    (((s.nodeAlarm p n data).inc (Reg.RNG_TRUMP_CNT p)).event (ringPage p) 6 0).setRp p { s.rp p with grant := none }
  else s

/-- A TRUMP frame on a lane: the first valid copy is taken. -/
def State.trumpFrame (s : State) (p n : Nat) (l : Lane) (data : List (BitVec 8)) (h : RxHead) : State :=
  let s1 := s.takeFrame p 6 l n data.length h
  if h.ok.getLsbD 0 then s1.trump p n data else s1

def execTrumpFrame (p : Fin 4) (n : Fin 64) (lane : Lane) (data : List (BitVec 8)) (h : RxHead) (s : State) : Out :=
  .next (if s.ringOn && s.laneUp p.val lane then s.trumpFrame p.val n.val lane data h else s)

/-- The descriptor the port serves: its address, and whether there is one. -/
def State.bulkAt (s : State) (p : Nat) : Nat := (s.rcf p (Reg.RNG_BULK_BASE p)).toNat + 16 * s.fld (Reg.RNG_BULK_HEAD p) 7 0
def State.bulkHas (s : State) (p : Nat) : Bool := s.fld (Reg.RNG_BULK_HEAD p) 7 0 != s.fld (Reg.RNG_BULK_TAIL p) 7 0

/-- Its fields: node, direction and length; blocks are the 256-byte blocks of its data. -/
def State.bulkNode (s : State) (p : Nat) : Nat := s.cell32 (s.bulkAt p) % 256
def State.bulkFrom (s : State) (p : Nat) : Bool := (s.cell32 (s.bulkAt p)).testBit 8
def State.bulkLen (s : State) (p : Nat) : Nat := s.cell32 (s.bulkAt p + 8)

/-- A transfer ends: its status, with the attempts made, and the next descriptor. -/
def State.bulkEnd (s : State) (p status tries : Nat) : State :=
  let s1 := s.setCell (s.bulkAt p + 12) 4 (status + 256 * tries)
  (s1.setFld (Reg.RNG_BULK_HEAD p) 7 0 (s.fld (Reg.RNG_BULK_HEAD p) 7 0 + 1)).setRp p
    { s1.rp p with bulkNext := 0, bulkOut := [], bulkGot := [] }

/-- A list cut in runs of n, `fuel` at most. -/
def cutRuns {α : Type} (n : Nat) : Nat → List α → List (List α)
  | 0, _ => []
  | _, [] => []
  | fuel + 1, l => l.take n :: cutRuns n fuel (l.drop n)

/-- The blocks of a frame, as a mask, that carry bytes `lo` to `hi` of its payload, rule R239. -/
def spanMask (lo hi : Nat) : Nat := 2 ^ ((12 + hi) / 256 + 1) - 2 ^ ((12 + lo) / 256)

/-- The frames that acknowledge what has been received since the last acknowledgement: one for each sender, with SEQ and the bitmap of
received blocks of each of its frames, rules R241 and R257 (the places in an entry: PRESUMED, notes/assumptions/124.md). -/
def State.ackFrames (s : State) (p lanes : Nat) : List RingFrame :=
  let l := (s.rp p).bulkAcks
  ((List.range 256).filter (fun n => l.any (fun a => a.1 == n))).map (fun n =>
    { s.frame p 8 n 0 ((l.filter (fun a => a.1 == n)).flatMap (fun a => outBytes a.2.1 2 ++ outBytes a.2.2 2)) with lanes := lanes })

/-- The acknowledgements go out. -/
def State.sendAcks (s : State) (p lanes : Nat) : State :=
  forEach (fun f st => st.send p f) (s.ackFrames p lanes) (s.setRp p { s.rp p with bulkAcks := [] })

/-- The bulk frames of a window, each with its lanes and the blocks of the transfer that it carries, rule R257. -/
def State.sendBulk (s : State) (p : Nat) (runs : List (Nat × List (Nat × Nat))) : State :=
  let x := s.rp p
  let base := s.cell32 (s.bulkAt p + 4)
  let len := s.bulkLen p
  let size (i : Nat) : Nat := min 256 (len - 256 * i)
  let numbered := (List.range runs.length).zip runs
  let blocks := numbered.flatMap (fun r => ((List.range r.2.2.length).zip r.2.2).map (fun b =>
    (⟨b.2.1, (x.bulkSeq + r.1) % 65535, spanMask (256 * b.1) (256 * b.1 + size b.2.1 - 1), b.2.2⟩ : BulkBlock)))
  let s1 := s.setRp p { x with bulkOut := x.bulkOut ++ blocks, bulkSeq := (x.bulkSeq + runs.length) % 65535 }
  forEach (fun r st =>
    let pay := r.2.2.flatMap (fun b => st.cell.bytes (base + 256 * b.1) (size b.1))
    let f := st.frame p 7 (st.bulkNode p) ((x.bulkSeq + r.1) % 65535) pay
    st.sendFrom p (base + 256 * (r.2.2.headD (0, 0)).1) { f with lanes := r.2.1 }) numbered s1

/-- The lanes of the master end's frames, 15 blocks of 256 bytes in each: they alternate between the lanes, and with one lane down they all
take the other, rule R257. -/
def masterRuns (on : Nat) (out : List (Nat × Nat)) : List (Nat × List (Nat × Nat)) :=
  let runs := cutRuns 15 out.length out
  (List.range runs.length).zip runs |>.map (fun r => (if on = 3 then 1 + r.1 % 2 else on, r.2))

/-- A granted node's frames: as many blocks of the transfer as its budget holds on lane A, then on lane B. -/
def nodeRuns (a b : Nat) (out : List (Nat × Nat)) : List (Nat × List (Nat × Nat)) :=
  (cutRuns 15 a (out.take a)).map (fun r => (1, r)) ++ (cutRuns 15 b ((out.drop a).take b)).map (fun r => (2, r))

/-- A share of the BULK window with room for `room` blocks: what is not acknowledged goes out again, then further blocks of the transfer; a
block that has been sent 8 times fails it, and a LOST node ends it with status 3. How blocks are packed in frames the rules leave open:
DESIGN CHOICE, notes/assumptions/125.md. -/
def State.bulkShare (s : State) (p room : Nat) (lay : List (Nat × Nat) → List (Nat × List (Nat × Nat))) : State :=
  let x := s.rp p
  if !s.bulkHas p then s
  else if decide (s.bulkNode p < 64) && s.pstate p == psCyclic && s.bit (Reg.RNG_NODE_STAT p (s.bulkNode p)) 8 then s.bulkEnd p 3 0
  else if s.bulkFrom p then s
  else if x.bulkOut.any (fun b => decide (8 ≤ b.tries)) then
    ((s.bulkEnd p 2 8).inc (Reg.RNG_BULK_FAIL_CNT p)).event (ringPage p) 5 0
  else
    let total := (s.bulkLen p + 255) / 256
    let again := (x.bulkOut.take room).map (fun b => (b.idx, b.tries + 1))
    let fresh := min (room - again.length) (total - x.bulkNext)
    let out := again ++ (List.range fresh).map (fun i => (x.bulkNext + i, 1))
    ((s.setRp p { x with bulkNext := x.bulkNext + fresh, bulkOut := x.bulkOut.drop room }).sendBulk p (lay out)).add
      (Reg.RNG_BULK_RTY_CNT p) again.length

/-- The blocks of 256 bytes of a transfer that frames of up to 16 blocks carry in a budget of `n` blocks: a frame's header takes the
room of one. -/
def budgetRoom (n : Nat) : Nat := n - (n + 15) / 16

/-- What is left of a granted node's budget on a lane after its acknowledgements; none on a lane that carries no traffic. -/
def State.budgetLeft (s : State) (p bit n : Nat) (acks : List RingFrame) : Nat :=
  if (s.lanesOn p).testBit bit then budgetRoom (n - (acks.map (fun f => blockCount f.pay.length)).sum) else 0

/-- A granted node's share: its acknowledgements first, then its data, within its budgets (notes/assumptions/125.md). -/
def State.nodeShare (s : State) (p : Nat) : State :=
  let g := (s.rp p).granted
  let lanes := (b2n (decide (g.1 ≠ 0)) + 2 * b2n (decide (g.2 ≠ 0))) &&& s.lanesOn p
  if lanes = 0 then s
  else
    let acks := s.ackFrames p lanes
    let a := s.budgetLeft p 0 g.1 acks
    let b := s.budgetLeft p 1 g.2 acks
    let s1 := (s.setRp p { s.rp p with granted := (0, 0) }).sendAcks p lanes
    s1.bulkShare p (a + b) (nodeRuns a b)

/-- BULK_WINDOW: with room for `room` blocks the master end acknowledges what nodes have sent and sends its share; a node sends what the
REF of the cycle has granted it. -/
def State.bulkWindow (s : State) (p room : Nat) : State :=
  if !s.ringOn then s
  else if s.pstate p = psCyclic then (s.sendAcks p (s.lanesOn p)).bulkShare p room (masterRuns (s.lanesOn p))
  else if s.pstate p = psNode then s.nodeShare p
  else s

def execBulkWindow (p : Fin 4) (room : Nat) (s : State) : Out := .next (s.bulkWindow p.val room)

/-- A frame's bitmap acknowledges a block of a transfer, rule R241: its SEQ is that of the block's frame, and every block of the frame that
carries it has been received. -/
def BulkBlock.acked (b : BulkBlock) (acks : List (BitVec 16 × BitVec 16)) : Bool :=
  acks.any (fun a => a.1.toNat == b.seq && (a.2.toNat &&& b.mask) == b.mask)

/-- The port runs a bulk transfer with a partner: it is in service and its descriptor names it. -/
def State.bulkWith (s : State) (p n : Nat) (fromIt : Bool) : Bool :=
  (s.pstate p == psCyclic || s.pstate p == psNode) && s.bulkHas p && s.bulkNode p == n && s.bulkFrom p == fromIt

/-- BULK_ACK: bitmaps of the blocks of the transfer that its node has received, by frame; the transfer is done when all are. -/
def State.bulkAck (s : State) (p n : Nat) (acks : List (BitVec 16 × BitVec 16)) : State :=
  if s.bulkWith p n false then
    let x := s.rp p
    let tries := x.bulkOut.foldl (fun m b => max m b.tries) 0
    let rest := x.bulkOut.filter (fun b => !b.acked acks)
    let s1 := s.setRp p { x with bulkOut := rest }
    if rest = [] ∧ (s.bulkLen p + 255) / 256 ≤ x.bulkNext then s1.bulkEnd p 1 tries else s1
  else s

/-- A BULK_ACK frame on a lane. -/
def State.bulkAckFrame (s : State) (p n : Nat) (l : Lane) (acks : List (BitVec 16 × BitVec 16)) (h : RxHead) : State :=
  let s1 := s.takeFrame p 8 l n (4 * acks.length) h
  if h.ok.getLsbD 0 then s1.bulkAck p n acks else s1

def execBulkAck (p : Fin 4) (n : Fin 256) (lane : Lane) (acks : List (BitVec 16 × BitVec 16)) (h : RxHead) (s : State) : Out :=
  .next (if s.ringOn && s.laneUp p.val lane then s.bulkAckFrame p.val n.val lane acks h else s)

/-- One piece of a transfer from a node: written at its place in the buffer where all its blocks are valid, once. -/
def State.takePiece (s : State) (p ok : Nat) (data : List (BitVec 8)) (q : Nat × Nat) : State :=
  let x := s.rp p
  let len := s.bulkLen p
  let l := ((data.drop (256 * q.1)).take 256).take (len - 256 * q.2)
  let m := spanMask (256 * q.1) (256 * q.1 + l.length - 1)
  if l = [] ∨ (ok &&& m) ≠ m ∨ x.bulkGot.contains q.2 then s
  else
    forEach (fun e st => st.storeCell (s.cell32 (s.bulkAt p + 4) + 256 * q.2 + e.1) 1 e.2.toNat) ((List.range l.length).zip l)
      (s.setRp p { x with bulkGot := q.2 :: x.bulkGot })

/-- The valid pieces of a frame of a transfer from a node; with the last one the transfer is done. -/
def State.takePieces (s : State) (p ok : Nat) (f : BulkIn) : State :=
  let s1 := forEach (fun q st => st.takePiece p ok f.pay q) ((List.range f.pieces.length).zip f.pieces) s
  if (List.range ((s.bulkLen p + 255) / 256)).all (fun i => (s1.rp p).bulkGot.contains i) then s1.bulkEnd p 1 1 else s1

/-- What a station receives from ring management in INIT is kept once its frame is whole; its reference instant then follows from the
delays, and its prediction starts anew. -/
def State.takeInit (s : State) (p : Nat) (f : BulkIn) (whole : Bool) : State :=
  match f.init with
  | some i => if whole && s.station p then s.setRp p { s.rp p with init := some i, predict := none, refAt := none } else s
  | none => s

/-- BULK: a frame whose VER or TYPE is another is discarded and counted (rules R240 and R241). The valid blocks of a good one await their
acknowledgement, and their data go to the transfer from that node. -/
def State.bulkFrame (s : State) (p n : Nat) (l : Lane) (f : BulkIn) (h : RxHead) : State :=
  if f.ver != 1 || f.typ != 7 then s.crcBad p 1 l
  else
    let cnt := blockCount f.pay.length
    let ok := h.ok.toNat % 2 ^ cnt
    let s1 := s.takeFrame p 7 l n f.pay.length h
    if !h.ok.getLsbD 0 then s1
    else
      let s2 := (s1.setRp p { s1.rp p with bulkAcks := (s1.rp p).bulkAcks ++ [(n, f.seq.toNat, ok)] }).takeInit p f (ok == 2 ^ cnt - 1)
      if s2.bulkWith p n true then s2.takePieces p ok f else s2

def execBulkFrame (p : Fin 4) (n : Fin 256) (lane : Lane) (f : BulkIn) (h : RxHead) (s : State) : Out :=
  .next (if s.ringOn && s.laneUp p.val lane then s.bulkFrame p.val n.val lane f h else s)

/-- RNG_BULK_TAIL: software queues descriptors. -/
def execRngBulkTail (ag : Agent) (p : Fin 4) (v : Word) (s : State) : Out :=
  .next (s.swWrite ag (ringPage p.val) (fun t => t.setFld (Reg.RNG_BULK_TAIL p.val) 7 0 v.toNat))

/-! ### Outputs and the port's controls -/

/-- RNG_SOFT_FLIP: the copy to use from the next OUT launch, rule R265. -/
def execRngSoftFlip (ag : Agent) (p : Fin 4) (copy : Bool) (s : State) : Out :=
  .next (s.swWrite ag (ringPage p.val) (fun t => t.setRp p.val { t.rp p.val with softNext := copy }))

/-- The OUT launch of a port in CYCLIC: the command cycle's number and the software copy in use. -/
def State.outLaunch (s : State) (p : Nat) : State :=
  if s.ringOn && s.pstate p == psCyclic then
    s.setRp p { s.rp p with outCyc := s.rd64 (Reg.RNG_CYCLE p) % 65536, soft := (s.rp p).softNext }
  else s

/-- A write of RNG_CTRL is accepted: a change of EN takes the port down or restarts it; other fields wait for LISTEN. -/
def State.ringCtrl (s : State) (p : Nat) (v : Word) : State :=
  let was := s.portEn p
  let s1 := s.wr (Reg.RNG_CTRL p) (v &&& 0x3FFF3F)
  if was && !s1.portEn p then s1.portDown p else if !was && s1.portEn p then s1.portStart p else s1

/-- RNG_STAT.CFG_REFUSED with its line. -/
def State.ringRefused (s : State) (p : Nat) : State := (s.setBit (Reg.RNG_STAT p) 10 true).event (ringPage p) 9 0

/-- Entry to LISTEN of every enabled port whose lanes are up: on entry to READY lanes open their bypasses, rule R276. -/
def State.ringReady (s : State) : State := forUpTo (fun p st => st.openLanes p) 4 s

/-- Every bypass closes, rule R275. -/
def State.ringClose (s : State) : State := forUpTo (fun p st => (st.bypass p .a false).bypass p .b false) 4 s

end Sys2Proof.Machine
end

