-- ==== Sys2Proof/Machine/Checks.lean ====
section
/-! DEFINITION. The conditions of the page checks, rules R417 and R466 with the page rules of each chapter: what every page
requires of its configuration region beside PG_CHECK, and the cross-page conditions in which it takes part, rule R465 among
them. Each is read on the registers as written, whether or not a write waits for a tick boundary. -/

namespace Sys2Proof.Machine

/-- A value lies in a range. -/
def within (lo hi x : Nat) : Bool := decide (lo ≤ x ∧ x ≤ hi)

/-- T_tick of the PERIOD code in QTZ_TICK. -/
def State.periodSet (s : State) : Nat := periodNs (s.fld Reg.QTZ_TICK 2 0)

/-! ### Regions of cell memory, rules R463 and R465 -/

/-- The end of the last payload that the node table of port `p` places in the software output buffer, rule R265. -/
def State.softSpan (s : State) (p : Nat) : Nat :=
  (List.range 64).foldl (fun m n =>
    let b := s.rdN (Reg.RNG_TBL_BASE p) + 32 * n
    let w0 := s.cell32 b
    if w0.testBit 0 && (bitsOf w0 7 4 == 1 || bitsOf w0 7 4 == 4) then max m (s.cell32 (b + 20) + s.cell32 (b + 8) / 65536) else m) 0

/-- The regions in use that the registers of page `p` place: base and span, rules R463 and R465. -/
def State.regionsOf (s : State) (p : Nat) : List (Nat × Nat) :=
  match pageKind p with
  | some (.sys, _, _) =>
    [(s.rdN Reg.SYS_GATH_BASE0, 0x84480), (s.rdN Reg.SYS_GATH_BASE1, 0x84480), (s.rdN Reg.SYS_CMD_BASE0, 0x1300),
     (s.rdN Reg.SYS_CMD_BASE1, 0x1300), (s.rdN Reg.SYS_CHK_BASE0, 0x3400), (s.rdN Reg.SYS_CHK_BASE1, 0x3400),
     (s.rdN Reg.SYS_LOOPST_BASE, 0x12000), (s.rdN Reg.SYS_VIEW_BASE, 0x89008)]
  | some (.sol, _, _) =>
    [(s.rdN Reg.SOL_IN_BASE0, 0x24200), (s.rdN Reg.SOL_IN_BASE1, 0x24200), (s.rdN Reg.SOL_OUT_BASE0, 0x2A00),
     (s.rdN Reg.SOL_OUT_BASE1, 0x2A00)]
  | some (.ssm, _, _) => [(s.rdN Reg.SSM_LIM_BASE0, 0x710), (s.rdN Reg.SSM_LIM_BASE1, 0x710)]
  | some (.evt, _, _) =>
    [(s.rdN Reg.EVT_ALM_BASE, 0x10000), (s.rdN Reg.EVT_PEER_BASE, 0x10000),
     (s.rdN Reg.EVT_EVR_BASE, 32 * 2 ^ s.fld Reg.EVT_CTRL 11 8)]
  | some (.prfg, _, g) => if s.groupEn g then [(s.rdN (Reg.PRFG_MBX g), 0x400)] else []
  | some (.rng, _, n) =>
    if s.portEn n then
      [(s.rdN (Reg.RNG_TBL_BASE n), 2048), (s.rdN (Reg.RNG_SOFT_BASE0 n), s.softSpan n),
       (s.rdN (Reg.RNG_SOFT_BASE1 n), s.softSpan n), (s.rdN (Reg.RNG_RXLOG_BASE n), 8192), (s.rdN (Reg.RNG_BULK_BASE n), 4096)]
    else []
  | some (.eth, _, n) => if s.bit (Reg.ETH_CTRL n) 0 then [(s.rdN (Reg.ETH_RING_BASE n), 0x20000)] else []
  | some (.twn, _, _) => if s.twinEn then [(s.rdN Reg.TWN_ST_LIST, 512)] else []
  | _ => []

/-- The pages that place regions, in page-number order. -/
def regionPages : List Nat :=
  [Page.SYS, Page.SOL, Page.SSM, Page.TWN, Page.EVT] ++ (List.range 4).map Page.RNG ++ (List.range 2).map Page.ETH
    ++ (List.range 16).map Page.PRFG

/-- Two spans overlap. -/
def overlap (a b : Nat × Nat) : Bool := decide (a.1 < b.1 + b.2 ∧ b.1 < a.1 + a.2)

/-- No two regions of a list overlap. -/
def apart : List (Nat × Nat) → Bool
  | [] => true
  | r :: t => t.all (fun q => !overlap r q) && apart t

/-- Rule R465 for the regions of page `p`: each lies wholly in cell memory, and none overlaps another region in use. -/
def State.regionsOk (s : State) (p : Nat) : Bool :=
  let mine := s.regionsOf p
  let others := (regionPages.filter (fun q => q != p)).flatMap (fun q => s.regionsOf q)
  mine.all (fun r => inCell r.1 r.2 && others.all (fun q => !overlap r q)) && apart mine

/-- Every one of some addresses is a multiple of `n`. -/
def aligned (n : Nat) (l : List Nat) : Bool := l.all (fun a => a % n == 0)

/-! ### Time, power and the controller's pages -/

/-- Rule R45: the phase offsets are consistent. -/
def State.phasesOk (s : State) : Bool :=
  let st (p : Nat) : Nat := s.fld (Reg.QTZ_PH p) 20 0
  let dl (p : Nat) : Nat := s.fld (Reg.QTZ_PH p + 4) 20 0
  let loop := (List.range 4).foldl (fun m p => if s.portTrained p then max m (s.loopMax p) else m) 0
  [1, 2, 3, 4, 5].all (fun p => decide (st p < dl p)) && (List.range 6).all (fun p => decide (dl p ≤ st (p + 1))) &&
    decide (5 * st 6 + loop + 10000 ≤ 5 * s.periodSet)

/-- Rule R386: a pair of clocks (MHz) and supplies (mV) within 2.5:1 and 150 mV. -/
def pairOk (a b : Nat × Nat) : Bool :=
  decide (2 * a.1 ≤ 5 * b.1 ∧ 2 * b.1 ≤ 5 * a.1 ∧ a.2 ≤ b.2 + 150 ∧ b.2 ≤ a.2 + 150)

/-- Clock and supply of a quad at an operating point, rule R83. -/
def quadAt (point : Nat) : Nat × Nat := (400 + 200 * point, 650 + 50 * point)

/-- Clock and supply of the application cores at a frequency code. -/
def appcAt (code : Nat) : Nat × Nat := (400 + 200 * code, 750)

/-- Clock and supply of the fabric and of the solver domain. -/
def fabAt : Nat × Nat := (500, 750)
def solvAt : Nat × Nat := (1000, 750)

/-- Rule R386 for the points of the quads (two bits each) and the application cores' code: each quad with FAB, each of Q1 to
Q3 with Q0, APPC with Q0 and FAB, and SOLV with FAB. -/
def limitsOk (points appc : Nat) : Bool :=
  let q (i : Nat) : Nat × Nat := quadAt (bitsOf points (2 * i + 1) (2 * i))
  (List.range 4).all (fun i => pairOk (q i) fabAt) && [1, 2, 3].all (fun i => pairOk (q i) (q 0)) &&
    pairOk (appcAt appc) (q 0) && pairOk (appcAt appc) fabAt && pairOk solvAt fabAt

/-- The conditions of the QTZ page, rules R38, R41 and R45. -/
def State.qtzConds (s : State) : List Bool :=
  [within 0 5 (s.fld Reg.QTZ_TICK 2 0), decide (s.fld Reg.QTZ_TICK_OFS 20 0 < s.periodSet), s.phasesOk]

/-- The SYS page's own conditions, rule R428. -/
def State.sysConds (s : State) : List Bool :=
  [within 1 64 (s.fld Reg.SYS_MIN_ENG 6 0), within 1 65535 (s.fld Reg.SYS_WDT 31 16),
   aligned 64 ((s.regionsOf Page.SYS).map (fun r => r.1))]

/-- The conditions of the PWR page, rule R429. -/
def State.pwrConds (s : State) : List Bool :=
  [within 0 4 (s.fld Reg.PWR_APPC 2 0), limitsOk (s.fld Reg.PWR_QPT_INIT 7 0) (s.fld Reg.PWR_APPC 2 0),
   s.bit Reg.PWR_DOM_CFG 0, within 100 65535 (s.fld Reg.PWR_RAMP 15 0)]

/-- The conditions of the MEM page, rule R388. -/
def State.memConds (s : State) : List Bool :=
  [within 16 65535 (s.fld Reg.MEM_CTRL 15 0), within 10 65535 (s.fld Reg.MEM_CTRL 31 16),
   (List.range 16).all (fun r =>
     let ofs := s.fld (Reg.MEM_CPR r) 24 0
     let len := s.fld (Reg.MEM_CPR r + 4) 24 0
     len == 0 || (ofs % 64 == 0 && len % 64 == 0 && inCell ofs len))]

/-- The conditions of the EVT page, rule R404: the trace ring lies within the LPDDR4X fitted. -/
def State.evtConds (s : State) : List Bool :=
  [within 8 14 (s.fld Reg.EVT_CTRL 11 8),
   aligned 64 [s.rdN Reg.EVT_ALM_BASE, s.rdN Reg.EVT_PEER_BASE, s.rdN Reg.EVT_EVR_BASE],
   aligned 0x4000000 [s.rdN Reg.EVT_TRC_BASE], decide (s.rdN Reg.EVT_TRC_BASE + 0x4000000 ≤ s.sys.dramBytes)]

/-! ### The Dealer, rule R88 -/

/-- The contexts' own conditions: HOME valid for the class, PHASE 2, 4 or 7 and 7 for a thread, STAGE_LEN ≤ 1,024. -/
def State.ctxOk (s : State) (t : Nat) : Bool :=
  let home := s.taskHome t
  let ph := s.taskPhase t
  (home == 0x7F || decide (home < if s.taskThread t then 4 else 64)) && (ph == 7 || ((ph == 2 || ph == 4) && !s.taskThread t)) &&
    decide (s.ctxF t 7 10 0 ≤ 1024)

/-- Task `t` holds position `pos` of flow `f`. -/
def State.holdsPos (s : State) (t f pos : Nat) : Bool :=
  s.ctxF t 7 17 17 == 1 && s.ctxF t 7 16 11 == f && s.ctxF t 7 26 18 == pos

/-- The ranges of a flow's fields, rule R106. -/
def State.flowRanges (s : State) (f : Nat) : Bool :=
  within 1 512 (s.flowLen f) && (s.flowPhase f == 2 || s.flowPhase f == 4 || s.flowPhase f == 7) &&
    aligned 8 [s.rdN (Reg.DLR_FLOW f + 4), s.rdN (Reg.DLR_FLOW f + 12)]

/-- An enabled flow's positions are each held by exactly one task. -/
def State.flowOk (s : State) (f : Nat) : Bool :=
    (!s.flowEn f || (List.range (s.flowLen f)).all (fun pos => ((allTasks.filter (fun t => s.holdsPos t f pos)).length == 1)))

/-- No task holds a position in a disabled flow or beyond its LEN. -/
def State.posOk (s : State) (t : Nat) : Bool :=
  s.ctxF t 7 17 17 == 0 || (s.flowEn (s.ctxF t 7 16 11) && decide (s.ctxF t 7 26 18 < s.flowLen (s.ctxF t 7 16 11)))

/-- The conditions of the DLR page with the context table, rule R88. -/
def State.dlrConds (s : State) : List Bool :=
  [allTasks.all (fun t => s.ctxOk t), (List.range 64).all (fun f => s.flowOk f), allTasks.all (fun t => s.posOk t)]

/-- The CRC-32 of the context table, over W0, W1 and W3 to W9 of all contexts in task order, rule R88. -/
def State.ctxCrc (s : State) : Word :=
  crc32 (allTasks.flatMap (fun t => [0, 1, 3, 4, 5, 6, 7, 8, 9].flatMap (fun w => wordBytes (s.ctxW t w))))

/-! ### Axes, groups and loops -/

/-- Group `g` names axes in bytes 0 to n − 1 and then only 0xFF, rule R107. -/
def State.memberRun (s : State) (g : Nat) : Option (List Nat) :=
  let l := (List.range 16).map (fun m => s.memberByte g m)
  let n := (l.takeWhile (fun a => a != 0xFF)).length
  if (l.drop n).all (fun a => a == 0xFF) && (l.take n).all (fun a => decide (a < 144)) then some (l.take n) else none

/-- The members of a group that has 1 to 16 of them without gaps. -/
def State.memberList (s : State) (g : Nat) : Option (List Nat) := (s.memberRun g).filter (fun l => !l.isEmpty)

/-- Every axis named by an enabled group, with repeats. -/
def State.namedAxes (s : State) : List Nat := s.groups.flatMap (fun g => (s.memberList g).getD [])

/-- The six limit registers of an axis hold positive values. -/
def State.limitRegsOk (s : State) (a : Nat) : Bool :=
  [Reg.PRF_VMAX a, Reg.PRF_AMAX a, Reg.PRF_DMAX a, Reg.PRF_JMAX a, Reg.PRF_STOP_DEC a, Reg.PRF_STOP_JERK a].all (fun r =>
    decide (0 < s.rdI64 r))

/-- The cam rule R126 for an axis: 2 to 1,024 points; and where PRF_CAM_STEP is not 0, it is positive and both tables are 16-byte
aligned and within cell memory. -/
def State.camOk (s : State) (a : Nat) : Bool :=
  let n := s.fld (Reg.PRF_CAM_CFG a) 10 0
  let b := [s.rdN (Reg.PRF_CAM_BASE0 a), s.rdN (Reg.PRF_CAM_BASE1 a)]
  within 2 1024 n && (s.rdI64 (Reg.PRF_CAM_STEP a) == 0 ||
    (decide (0 < s.rdI64 (Reg.PRF_CAM_STEP a)) && aligned 16 b && b.all (fun x => inCell x (16 * n))))

/-- The field ranges of an axis page. -/
def State.axisRanges (s : State) (a : Nat) : Bool :=
  within 0 11 (s.fld (Reg.PRF_HOME_CFG a) 3 0) && within 1 255 (s.fld (Reg.PRF_HOME_CFG a) 15 8) &&
    within 50 65535 (s.fld (Reg.PRF_HOME_CFG a) 31 16) && within 0 8 (s.fld (Reg.PRF_STEP_CFG a) 3 0)

/-- Rule R107 for one axis: an enabled axis is a member of exactly one enabled group, and its limits are positive. -/
def State.axisOk (s : State) (a : Nat) : Bool :=
  !s.axisEn a || ((s.namedAxes.filter (fun b => b == a)).length == 1 && s.limitRegsOk a)

/-- Every axis named by a group, enabled or not, with repeats. -/
def State.allNamed (s : State) : List Nat := (List.range 16).flatMap (fun g => (s.memberRun g).getD [])

/-- Rule R107 for the groups: members without gaps, at least one in an enabled group, and no axis twice. -/
def State.groupsOk (s : State) : Bool :=
  (List.range 16).all (fun g => (s.memberRun g).isSome) && s.groups.all (fun g => (s.memberList g).isSome) &&
    (List.range 144).all (fun a => decide ((s.allNamed.filter (fun b => b == a)).length ≤ 1))

/-- The members a group counts, rule R156. -/
def State.memberCount (s : State) (g : Nat) : Nat := ((s.memberList g).getD []).length

/-- Rule R107 over all PRF pages. -/
def State.prfAll (s : State) : Bool := s.groupsOk && (List.range 144).all (fun a => s.axisOk a && s.camOk a)

/-- The conditions of a LOOP page, rule R154: the mode, FE_N, an output clamp that is not negative (its reset value 0 passes,
notes/assumptions/149.md), and 0 ≤ AF < 1.0 of the boot sets. -/
def State.loopConds (s : State) (a : Nat) : List Bool :=
  [within 0 1 (s.fld (Reg.LOOP_CFG a) 1 0), within 1 255 (s.fld (Reg.LOOP_FE_N a) 7 0), !s.bit (Reg.LOOP_TMAX a) 31] ++
    (List.range 5).map (fun j => within 0 (2 ^ 24 - 1) (s.rdN (Reg.LOOP_BOOT_AF a j)))

/-- The page check of an ENG page: LOCK_KB of 0 to 64. -/
def State.engConds (s : State) (e : Nat) : List Bool := [within 0 64 (s.fld (Reg.ENG_CODE_LOCK e) 6 0)]

/-! ### The solver, rule R174 -/

/-- Group `g` is solved, as the registers stand. -/
def State.solvedSet (s : State) (g : Nat) : Bool := s.bit (Reg.SOL_GRP g) 0

/-- NV and NR of a group. -/
def State.nvSet (s : State) (g : Nat) : Nat := s.fld (Reg.SOL_GRP g) 8 4
def State.nrSet (s : State) (g : Nat) : Nat := s.fld (Reg.SOL_GRP g) 15 10

/-- The global index of the first variable of a group. -/
def State.nvBefore (s : State) (g : Nat) : Nat := ((List.range g).map (fun h => if s.solvedSet h then s.nvSet h else 0)).sum

/-- The count of rows that SOL_BLD_g implies, rule R468. -/
def State.bldRows (s : State) (g : Nat) : Nat :=
  s.memberCount g * (b2n (s.bit (Reg.SOL_BLD g) 0) + b2n (s.bit (Reg.SOL_BLD g) 1) + b2n (s.bit (Reg.SOL_BLD g) 2))
    + b2n (s.bit (Reg.SOL_BLD g) 3)

/-- A solved group is enabled and meets rules R156 and R468. -/
def State.solGroupOk (s : State) (g : Nat) : Bool :=
  !s.solvedSet g || (s.groupEn g && decide (s.memberCount g ≤ s.nvSet g) &&
    s.nrSet g == s.bldRows g &&
    (List.range (s.nvSet g)).all (fun j => decide (0 < s.rdI (Reg.SOL_WT (s.nvBefore g + j)))))

/-- A coupling row names two solved groups in order. -/
def State.cplOk (s : State) (r : Nat) : Bool :=
  !s.bit (Reg.SOL_CPL r) 0 ||
    (decide (s.fld (Reg.SOL_CPL r) 7 4 < s.fld (Reg.SOL_CPL r) 11 8) && s.solvedSet (s.fld (Reg.SOL_CPL r) 7 4) &&
      s.solvedSet (s.fld (Reg.SOL_CPL r) 11 8))

/-- F of an object of rule R157, as the registers stand. -/
def State.fracSet (s : State) (obj : Nat) : Nat := s.fld (Reg.SOL_QF (obj / 4)) (8 * (obj % 4) + 4) (8 * (obj % 4))

/-- The SOL page's own conditions, rules R160 and R174. -/
def State.solConds (s : State) : List Bool :=
  let cpl := ((List.range 48).filter (fun r => s.bit (Reg.SOL_CPL r) 0)).length
  let nr := ((List.range 16).map (fun g => if s.solvedSet g then s.nrSet g else 0)).sum
  [within 1 32 (s.fld Reg.SOL_CTRL 13 8), decide (0 < s.rdN Reg.SOL_RHO),
   decide (s.rdI Reg.SOL_PIV_EPS < s.rdI Reg.SOL_PIV_DELTA), decide (0 ≤ s.rdI Reg.SOL_PIV_EPS),
   decide (8 ≤ s.fracSet oZ), (List.range 16).all (fun g => !s.solvedSet g || (within 1 16 (s.nvSet g) && within 0 32 (s.nrSet g))),
   decide (s.nvBefore 16 ≤ 192), decide (nr + cpl ≤ 384), (List.range 48).all (fun r => s.cplOk r),
   aligned 64 ((s.regionsOf Page.SOL).map (fun r => r.1))]

/-! ### The safety pages -/

/-- The source table of SSM_HEAD_h: object slots of enabled sources. -/
def State.headSlots (s : State) (h : Nat) : Nat × Nat := (s.fld (Reg.SSM_HEAD h) 15 10, s.fld (Reg.SSM_HEAD h) 21 16)

/-- An enabled source has 1 to 32 slots, sensor heads in 0 to 31 and remote sources in 32 to 47, and overlaps no other. -/
def State.headOk (s : State) (h : Nat) : Bool :=
  !s.bit (Reg.SSM_HEAD h) 0 ||
    (let fP := s.headSlots h
     let f := fP.1
     let n := fP.2
     within 1 32 n && (if s.bit (Reg.SSM_HEAD h) 1 then decide (32 ≤ f ∧ f + n ≤ 48) else decide (f + n ≤ 32)) &&
       (List.range 8).all (fun k => k == h || !s.bit (Reg.SSM_HEAD k) 0 || !overlap (f, n) (s.headSlots k)))

/-- The enabled capsules of the table, rule R176. -/
def State.capsSet (s : State) : List Nat := (List.range 160).filter (fun i => (s.capW i 0).getLsbD 8)

/-- GPAIR is symmetric and has no bit for the group itself. -/
def State.gpairOk (s : State) : Bool :=
  (List.range 16).all (fun g => !s.bit (Reg.SSM_GRP g + 4) g &&
    (List.range 16).all (fun h => s.bit (Reg.SSM_GRP g + 4) h == s.bit (Reg.SSM_GRP h + 4) g))

/-- A filled coupling entry names capsules of two groups paired in GPAIR, in the order of SOL_CPL_r. -/
def State.ssmCplOk (s : State) (r : Nat) : Bool :=
  !s.bit (Reg.SSM_CPL r) 16 ||
    (let ga := s.fld (Reg.SSM_CPL r) 7 0 / 10
     let gb := s.fld (Reg.SSM_CPL r) 15 8 / 10
     decide (s.fld (Reg.SSM_CPL r) 7 0 < 160 ∧ s.fld (Reg.SSM_CPL r) 15 8 < 160) && s.bit (Reg.SSM_GRP ga + 4) gb &&
       ga == s.fld (Reg.SOL_CPL r) 7 4 && gb == s.fld (Reg.SOL_CPL r) 11 8)

/-- The pairs of rule R181, as the registers and tables stand. -/
def State.pairsSet (s : State) : Nat :=
  let caps := s.capsSet
  let objs (g : Nat) : Nat := (List.range 8).foldl (fun m h =>
    if s.bit (Reg.SSM_HEAD h) 0 && (if s.bit (Reg.SSM_HEAD h) 1 then s.bit (Reg.SSM_GRP g) 10 else s.bit (Reg.SSM_GRP g) h)
    then m + (s.headSlots h).2 else m) 0
  (caps.map (fun i => objs (i / 10))).sum +
    ((caps.map (fun i => (caps.filter (fun k => decide (i / 10 < k / 10) && s.bit (Reg.SSM_GRP (i / 10) + 4) (k / 10))).length)).sum)

/-- Every enabled capsule's link is at most its group's member count. -/
def State.linksOk (s : State) : Bool := s.capsSet.all (fun i => decide ((bitsOf (s.capW i 0).toNat 4 0) ≤ s.memberCount (i / 10)))

/-- The SSM page's own conditions, rules R195 and R196. -/
def State.ssmConds (s : State) : List Bool :=
  [within 1 8 (s.fld Reg.SSM_CTRL 7 4), within 1 255 (s.fld Reg.SSM_CTRL 15 8), within 1 255 (s.fld Reg.SSM_CTRL 23 16),
   within 1 255 (s.fld Reg.SSM_CTRL 31 24),
   s.gpairOk,
   (List.range 8).all (fun h => s.headOk h), decide (s.pairsSet ≤ 18432),
   decide (((List.range 160).filter (fun i => (s.capW i 0).getLsbD 9)).length ≤ 16),
   s.capsSet.all (fun i => decide (0 < s.rdN (Reg.SSM_GRP (i / 10) + 8))),
   aligned 64 ((s.regionsOf Page.SSM).map (fun r => r.1))]

/-- Output `i` is a compare target: an armed compare pulses or toggles it. -/
def State.cmpTarget (s : State) (i : Nat) : Bool :=
  s.prof.axes.any (fun x => x.2.cmp.any (fun c => decide (2 ≤ bitsOf c.2.ctrl 7 6) && bitsOf c.2.ctrl 25 22 == i))

/-- The conditions of the SAF page itself, rule R235. -/
def State.safConds (s : State) : List Bool :=
  let max := s.fld Reg.SAF_CTRL 13 8
  [(List.range 16).all (fun f => within 0 5 (s.fld (Reg.SAF_IN f) 2 0) && within 0 2 (s.fld (Reg.SAF_IN f) 6 5) &&
     within 1 65535 (s.fld (Reg.SAF_IN f + 4) 31 16)),
   within 1 60 max, within 100 10000 (s.fld Reg.SAF_TIME 15 0), decide (s.fld Reg.SAF_TIME 15 0 < 1000 * max),
   within 1 65535 (s.fld Reg.SAF_TIME 31 16), within 1 8760 (s.fld Reg.SAF_CTRL 31 16),
   (List.range 16).all (fun g => within 1 255 (s.fld (Reg.SAF_GRP g) 15 8)),
   (List.range 16).all (fun i => !s.bit Reg.SAF_DQ_SAFE i || (decide (s.fld (Reg.SAF_DQ_GRP i) 15 0 ≠ 0) && !s.cmpTarget i))]

/-- The safety pages hold a loaded set: none is loaded before SELFTEST, rule R418. -/
def State.setLoaded (s : State) : Bool :=
  s.sys.dev != .boot && !(s.bit (Reg.PG_STAT Page.SAF) 0 || s.bit (Reg.PG_STAT Page.SSM) 0 || s.bit (Reg.PG_STAT Page.FLT) 0)

/-- The conditions of the FLT page, rule R236. -/
def State.fltConds (s : State) : List Bool :=
  [decide (s.fld Reg.FLT_PERIOD 20 0 = s.periodSet), decide (s.fld Reg.FLT_MASK 15 0 = s.fld Reg.SAF_DQ_SAFE 15 0)]

/-! ### The field page, rule R328 -/

/-- An output's own ranges: no reserved SRC, no COMPARE on DQ12 to DQ15, OVL_T and OFF_BLANK in their ranges. -/
def State.dqRangeOk (s : State) (i : Nat) : Bool :=
  let src := s.fld (Reg.FIO_DQ_CFG i) 1 0
  src != 3 && !(src == 1 && decide (12 ≤ i)) && within 1 255 (s.fld (Reg.FIO_DQ_CFG i) 23 16) &&
    decide (s.fld (Reg.FIO_DQ_CFG i) 31 24 ≤ 100)

/-- The SRC rule of R317, SAFE for exactly the outputs in SAF_DQ_SAFE, and OFF_BLANK ≤ 10 for a safe output. -/
def State.dqSrcOk (s : State) (i : Nat) : Bool :=
  (s.fld (Reg.FIO_DQ_CFG i) 1 0 == 2) == s.bit Reg.SAF_DQ_SAFE i &&
    (!s.bit Reg.SAF_DQ_SAFE i || decide (s.fld (Reg.FIO_DQ_CFG i) 31 24 ≤ 10))

/-- The FIO page's own conditions, rule R328. -/
def State.fioConds (s : State) : List Bool :=
  [within 1 15 (s.fld Reg.FIO_SMP 3 0), within 1 50 (s.fld Reg.FIO_SMP 15 8),
   (List.range 8).all (fun i => !s.bit (Reg.FIO_CNT i) 0 ||
     (s.fld (Reg.FIO_CNT i) 2 1 != 0 && within 1 255 (s.fld (Reg.FIO_CNT i) 15 8))),
   (List.range 16).all (fun i => s.dqRangeOk i), within 1 255 (s.fld Reg.FIO_OL_N 7 0), within 1 1000 (s.fld Reg.FIO_LP_CFG 15 0)]

/-- Its conditions with QTZ and SAF, rules R311, R317 and R328. -/
def State.fioCross (s : State) : List Bool :=
  [decide (40000 * s.fld Reg.FIO_SMP 3 0 ≤ s.periodSet), (List.range 16).all (fun i => s.dqSrcOk i)]

/-! ### Feedback and local axes -/

/-- The SSI ranges of a channel, rule R308. -/
def State.ssiRanges (s : State) (c : Nat) : Bool :=
  within 8 48 (s.fld (Reg.FBK_SSI c) 6 1) && within 0 8 (s.fld (Reg.FBK_SSI c) 14 11) && within 12 1249 (s.fld (Reg.FBK_SSI c + 4) 10 0)

/-- The frame timing of an enabled channel, rule R299: the frame and 2 µs lie before the G deadline. -/
def State.ssiOk (s : State) (c : Nat) : Bool :=
  let bits := s.fld (Reg.FBK_SSI c) 6 1
  let xb := s.fld (Reg.FBK_SSI c) 14 11
  let div := s.fld (Reg.FBK_SSI c + 4) 10 0
  !s.bit (Reg.FBK_SSI c) 0 ||
    decide ((bits + xb + 1) * (8 * (div + 1)) + 2000 ≤ s.fld (Reg.QTZ_PH 0 + 4) 20 0)

/-- The conditions of the FBK page, rule R308. -/
def State.fbkConds (s : State) : List Bool :=
  [(List.range 16).all (fun e => within 0 2 (s.fld (Reg.FBK_ENC e) 2 1) &&
     (s.fld (Reg.FBK_ENC e + 4) 23 0 == 0 || decide (2 * s.fld (Reg.FBK_ENC e + 4) 31 24 < s.fld (Reg.FBK_ENC e + 4) 23 0))),
   (List.range 8).all (fun c => s.ssiRanges c)]

/-- Rules R291 and R303 for one local axis. -/
def State.laxOk (s : State) (n : Nat) : Bool :=
  let step := s.stepEn n
  (!step || (s.fld (Reg.LOOP_CFG (128 + n)) 1 0 == 1 &&
    (List.range 16).all (fun k => k == n || !s.stepEn k || s.fld (Reg.LAX_CFG k) 15 12 != s.fld (Reg.LAX_CFG n) 15 12))) &&
  (!(s.srcType n == 0 && s.axisEn (128 + n)) || (step && s.rdN (Reg.LAX_K n) == 0x10000)) &&
  (s.fld (Reg.LAX_VSW n) 31 16 == 0 || decide (s.fld (Reg.LAX_VSW n) 15 0 < s.fld (Reg.LAX_VSW n) 31 16))

/-- A LAX page's own ranges, rule R309. -/
def State.laxConds (s : State) (n : Nat) : List Bool :=
  [within 10 255 (s.fld (Reg.LAX_STEP_TIM n) 7 0), within 50 65535 (s.fld (Reg.LAX_STEP_TIM n) 23 8),
   within 1 65535 (s.fld (Reg.LAX_PER_MAX n) 15 0)]

/-- Rules R291 and R303 across all sixteen pages. -/
def State.laxAll (s : State) : Bool := (List.range 16).all (fun n => s.laxOk n)

/-! ### Ring ports, the plant ports and the twin -/

/-- A word of a node table entry, from the base that the register holds. -/
def State.tblW (s : State) (p n w : Nat) : Nat := s.cell32 (s.rdN (Reg.RNG_TBL_BASE p) + 32 * n + 4 * w)

/-- The enabled nodes of a node table in use, rule R465. -/
def State.tblNodes (s : State) (p : Nat) : List Nat :=
  if s.portEn p then (List.range 64).filter (fun n => (s.tblW p n 0).testBit 0) else []

/-- The node table's conditions, rules R251 and R268. -/
def State.nodesOk (s : State) (p : Nat) : Bool :=
  let ns := s.tblNodes p
  ns.all (fun n => decide (bitsOf (s.tblW p n 0) 15 8 + bitsOf (s.tblW p n 0) 23 16 ≤ 128 ∧ bitsOf (s.tblW p n 0) 23 16 ≤ 16) &&
    decide (s.tblW p n 2 % 65536 ≤ 2032 ∧ s.tblW p n 2 / 65536 ≤ 2032)) &&
  decide ((ns.filter (fun n => bitsOf (s.tblW p n 0) 7 4 == 5)).length ≤ 1)

/-- The safe-bit masks of all nodes on all ports are disjoint. -/
def State.masksOk (s : State) : Bool :=
  let ms := (List.range 4).flatMap (fun p => (s.tblNodes p).map (fun n => s.tblW p n 4))
  decide ((ms.foldl (fun (acc : Nat × Nat) m => (acc.1 ||| m, acc.2 + (acc.1 &&& m))) (0, 0)).2 = 0)

/-- The link conditions of a lane, rules R271 and R290. -/
def State.linkOk (s : State) (cfg : Nat) : Bool := within 0 1 (s.fld cfg 1 0) && within 3000 6000 (s.fld cfg 23 8)

/-- The conditions of an RNG page, rules R266, R268 and R290. -/
def State.rngConds (s : State) (p : Nat) : List Bool :=
  [s.fld (Reg.RNG_CTRL p) 3 2 != 3,
   within 1 255 (s.fld (Reg.RNG_MISS p) 7 0), within 1 15 (s.fld (Reg.RNG_MISS p) 15 8), within 1 255 (s.fld (Reg.RNG_MISS p) 23 16),
   within 0 8 (s.fld (Reg.RNG_RTY p) 3 0), within 0 8 (s.fld (Reg.RNG_RTY p) 7 4),
   (List.range 7).all (fun w => decide (s.fld (Reg.RNG_WIN p w) 20 0 ≤ s.fld (Reg.RNG_WIN p (w + 1)) 20 0)),
   s.linkOk (Reg.RNG_LINK_CFG_A p), s.linkOk (Reg.RNG_LINK_CFG_B p),
   within 1 65535 (s.fld (Reg.RNG_BYP_CFG p) 15 0), within 1 16 (s.fld (Reg.RNG_DISC_CFG p) 3 0),
   aligned 64 [s.rdN (Reg.RNG_TBL_BASE p)]]

/-- The conditions of an ETH page, rule R348. -/
def State.ethConds (s : State) (p : Nat) : List Bool :=
  [s.fld (Reg.ETH_CTRL p) 2 1 != 3, within 64 9600 (s.fld (Reg.ETH_CTRL p) 21 8), aligned 64 [s.rdN (Reg.ETH_RING_BASE p)]]

/-- The shifted C deadline plus 2 µs lies within T_tick, rules R357 and R367. -/
def State.lagOk (s : State) : Bool :=
  decide (s.fld (Reg.QTZ_PH 5 + 4) 20 0 + 1000 * s.fld Reg.TWN_CTRL 23 16 + 2000 ≤ s.periodSet)

/-- The conditions of the TWN page, rule R367. -/
def State.twnConds (s : State) : List Bool :=
  [s.fld Reg.TWN_CTRL 4 3 != 0, within 1 15 (s.fld Reg.TWN_CTRL 11 8), within 16 256 (s.fld Reg.TWN_BUF 31 16),
   aligned 64 [s.rdN Reg.TWN_ST_LIST], inCell (s.rdN Reg.TWN_ST_LIST) 1]

/-! ### All pages -/

/-- The conditions of page `p` that read its own registers and tables alone. -/
def State.ownConds (s : State) (p : Nat) : List Bool :=
  match pageKind p with
  | some (.sys, _, _) => s.sysConds
  | some (.pwr, _, _) => s.pwrConds
  | some (.qtz, _, _) => s.qtzConds
  | some (.dlr, _, _) => [(List.range 64).all (fun f => s.flowRanges f)]
  | some (.sol, _, _) => s.solConds
  | some (.ssm, _, _) => s.ssmConds
  | some (.saf, _, _) => s.safConds
  | some (.fio, _, _) => s.fioConds
  | some (.fbk, _, _) => s.fbkConds
  | some (.twn, _, _) => s.twnConds
  | some (.mem, _, _) => s.memConds
  | some (.evt, _, _) => s.evtConds
  | some (.rng, _, n) => s.rngConds n
  | some (.eth, _, n) => s.ethConds n
  | some (.eng, _, n) => s.engConds n
  | some (.lax, _, n) => s.laxConds n
  | some (.prf, _, a) => [s.axisRanges a]
  | some (.prfg, _, g) => [within 1 255 (s.fld (Reg.PRFG_MST_AGE g) 7 0), aligned 64 [s.rdN (Reg.PRFG_MBX g)]]
  | some (.loop, _, a) => s.loopConds a
  | some (.flt, _, _) => []
  | some (.pci, _, _) => []
  | some (.clk, _, _) => []
  | some (.cdc, _, _) => []
  | some (.dbg, _, _) => []
  | none => []

/-- The cross-page conditions of the chapter of page `p`, rule R465 for its regions among them. -/
def State.crossConds (s : State) (p : Nat) : List Bool :=
  match pageKind p with
  | some (.sys, _, _) => [s.regionsOk p]
  | some (.dlr, _, _) => s.dlrConds
  | some (.sol, _, _) => [(List.range 16).all (fun g => s.solGroupOk g), s.regionsOk p]
  | some (.ssm, _, _) => [s.linksOk, (List.range 48).all (fun r => s.ssmCplOk r), s.regionsOk p]
  | some (.flt, _, _) => if s.setLoaded then s.fltConds else []
  | some (.fio, _, _) => s.fioCross
  | some (.fbk, _, _) => [(List.range 8).all (fun c => s.ssiOk c)]
  | some (.twn, _, _) => [s.lagOk, s.regionsOk p]
  | some (.evt, _, _) => [s.regionsOk p]
  | some (.rng, _, n) => [s.nodesOk n, s.masksOk, s.regionsOk p]
  | some (.eth, _, _) => [s.regionsOk p]
  | some (.lax, _, n) => [s.laxOk n]
  | some (.prf, _, a) => [s.axisOk a, s.camOk a]
  | some (.prfg, _, _) => [s.prfAll, s.regionsOk p]
  | _ => []

/-- The conditions of other pages' chapters that read page `p`. -/
def State.shared (s : State) (p : Nat) : List Bool :=
  match pageKind p with
  | some (.qtz, _, _) => s.fioCross ++ [(List.range 8).all (fun c => s.ssiOk c), s.lagOk] ++ (if s.setLoaded then s.fltConds else [])
  | some (.sol, _, _) => [(List.range 48).all (fun r => s.ssmCplOk r)]
  | some (.saf, _, _) => s.fioCross ++ s.fltConds
  | some (.prf, _, _) => [s.laxAll]
  | some (.prfg, _, _) => [(List.range 16).all (fun g => s.solGroupOk g), s.linksOk]
  | some (.loop, _, _) => [s.laxAll]
  | some (.lax, _, _) => [s.laxAll]
  | _ => []

/-- The conditions in which page `p` takes part, rule R466. -/
def State.conds (s : State) (p : Nat) : List Bool := s.ownConds p ++ s.crossConds p ++ s.shared p

/-- A write of page `p` breaks no condition: each holds after it, or did not hold before it either, rule R466. -/
def keeps (old new : State) (p : Nat) : Bool := ((old.conds p).zip (new.conds p)).all (fun c => c.2 || !c.1)

end Sys2Proof.Machine
end

