-- ==== Sys2Proof/Machine/Load.lean ====
section
/-! DEFINITION. Loading the configuration image and a safety parameter set, rules R88, R226, R227, R416 to R418 and R441
(spec/18_power_reset_freeze.md and spec/09_safety.md). -/

namespace Sys2Proof.Machine

/-! ### Pages -/

/-- The pages with a configuration, in ascending page number. -/
def configPages : List Nat := (List.range 0x290).filter (fun p => hasConfig p)

/-- SSM, SAF and FLT load from a safety set only, rule R418. -/
def safetyPage (p : Nat) : Bool := p == Page.SSM || p == Page.SAF || p == Page.FLT

/-- The PRF pages, of axes and of groups. -/
def prfPage (p : Nat) : Bool := decide (0x100 ≤ p ∧ p ≤ 0x19F)

/-- Load one configuration word: its writable bits; reserved bits are taken as 0. -/
def State.loadWord (s : State) (a : Nat) (v : Word) : State :=
  match regRow a with
  | none => s
  | some r => s.wr a ((s.rd a &&& ~~~(w32 r.rw)) ||| (v &&& w32 r.rw))

/-- The words of a record from offset 0x100 upward. -/
def State.loadWords (s : State) (a : Nat) : List Word → State
  | [] => s
  | v :: t => (s.loadWord a v).loadWords (a + 4) t

/-- A page has just been loaded: PG_CFG_SEQ and MOD are 0 and no write waits, rule R441; DFLT shows defaults taken after a
failure. -/
def State.loaded (s : State) (p : Nat) (dflt : Bool) : State :=
  let s1 := ((s.wr (Reg.PG_CFG_SEQ p) 0).setBit (Reg.PG_STAT p) 0 dflt).setBit (Reg.PG_STAT p) 1 false
  { s1 with late := Tab.dropRange (pageBase p + 0x100) 0x700 s1.late }

/-- Page `p` takes its factory defaults after a failed check, rule R417. -/
def State.failPage (s : State) (p : Nat) : State := (s.defaultPage p).loaded p true

/-- The default Dealer context table, rule R88. -/
def State.defaultContexts (s : State) : State := { s with dlr := { s.dlr with ctx := [] } }

/-- Page `p` loads from its record, or takes its defaults where it has none, rules R416 to R418. What PG_CHECK holds then is the
record's word, and 0 without a record: DESIGN CHOICE, notes/assumptions/28.md. -/
def State.loadPage (s : State) (recs : List PageRecord) (p : Nat) : State :=
  match recs.find? (fun r => r.page == p) with
  | none => ((s.defaultPage p).wr (Reg.PG_CHECK p) 0).loaded p false
  | some r =>
    let s1 := (((s.defaultPage p).loadWords (pageBase p + 0x100) r.words).wr (Reg.PG_CHECK p) r.check).loaded p false
    if s1.pageCrc p == r.check && (s1.ownConds p).all (fun c => c) then s1 else s1.failPage p

/-- A record outside the page map, or longer than a configuration region: FAIL 0x5, rule R415. -/
def badRecord (r : PageRecord) : Bool := (pageKind r.page).isNone || decide (448 < r.words.length)

/-! ### Check words of tables -/

/-- RNG_TBL_CHECK: the CRC-32 of the node table of an enabled port, compared at a load only (rule R466). -/
def State.tableOk (s : State) (p : Nat) : Bool :=
  !s.portEn p || crc32 (s.cell.bytes (s.rdN (Reg.RNG_TBL_BASE p)) 2048) == s.rd (Reg.RNG_TBL_CHECK p)

/-- The words of a table of `n` words, by index. -/
def tableBytes (t : List (Nat × Word)) (n : Nat) : List (BitVec 8) :=
  (List.range n).flatMap (fun k => wordBytes (Tab.get (fun _ => 0) t k))

/-- SAF_TBL_CHECK: the CRC-32 of the axis table and the zone table. -/
def tablesCrc (axis zone : List (Nat × Word)) : Word := crc32 (tableBytes axis 2304 ++ tableBytes zone 256)

/-- The check words of the kinematic and the capsule table in a set, rule R195. -/
def ssmTablesOk (img : SafetyImage) : Bool :=
  crc32 (tableBytes (Tab.setAll (fun _ => 0) [] img.kin) 4352) == img.kinCheck &&
    crc32 (tableBytes (Tab.setAll (fun _ => 0) [] img.cap) 1920) == img.capCheck

/-! ### The cross-page evaluation, rule R417 -/

/-- SSM, SAF and FLT take their defaults together, rule R227. -/
def State.failSafety (s : State) : State :=
  let s1 := ((s.failPage Page.SSM).failPage Page.SAF).failPage Page.FLT
  { s1 with saf := { s1.saf with axis := [], zone := [] }, ssm := { s1.ssm with kin := [], cap := [] } }

/-- The Dealer's table: its conditions, and at a load of the image DLR_CTX_CHECK, rules R88, R89 and R466. -/
def State.contextsOk (s : State) (load : Bool) : Bool :=
  (!load || s.ctxCrc == s.rd Reg.DLR_CTX_CHECK) && s.dlrConds.all (fun c => c)

/-- One page's place in the evaluation; check words are compared where the image loads. The PRF pages are judged together, at the first of
them, rule R107. -/
def State.crossPage (s : State) (load : Bool) (p : Nat) : State :=
  let ok := (s.crossConds p).all (fun c => c)
  if p = Page.DLR then if s.contextsOk load then s else (s.failPage p).defaultContexts
  else if p = Page.PRF 0 then
    if s.prfAll then s else forEach (fun q t => t.failPage q) (configPages.filter prfPage) s
  else if safetyPage p then if ok then s else s.failSafety
  else
    match pageKind p with
    | some (.rng, _, n) => if ok && (!load || s.tableOk n) then s.when load (fun t => t.scheduleLoaded n) else s.failPage p
    | _ => if ok then s else s.failPage p

/-- The evaluation over the pages in ascending page number. -/
def State.crossPass (s : State) (load : Bool) : State := forEach (fun p t => t.crossPage load p) configPages s

/-- SYS_STAT.CFG_DEFAULTED and SYS_CFG_STAT follow the DFLT bits: bit 3 of the SYS page is raised where CFG_DEFAULTED becomes 1. -/
def State.refreshCfg (s : State) : State :=
  let l := configPages.filter (fun p => s.bit (Reg.PG_STAT p) 0)
  let s1 := (s.setFld Reg.SYS_CFG_STAT 13 0 (l.headD 0)).setFld Reg.SYS_CFG_STAT 23 16 (min l.length 255)
  let was := s.bit Reg.SYS_STAT 6
  let s2 := s1.setBit Reg.SYS_STAT 6 (!l.isEmpty)
  if !l.isEmpty && !was then s2.event Page.SYS 3 0 else s2

/-- Step 7 of rule R413: tables, contexts and pages of the image load, and the cross-page evaluation runs. Context bits that stand in no
row of rule R87's table load as the image has them (DESIGN CHOICE, notes/assumptions/108.md). -/
def State.loadConfig (s : State) (img : ImageSlot) : State :=
  let recs := img.pages.filter (fun r => !safetyPage r.page && hasConfig r.page)
  let s1 := { s with cell := Tab.setAll Memory.blank s.cell (img.tables.filter (fun e => decide (e.1 < cellSize))) }
  let s2 := { s1 with dlr := { s1.dlr with ctx := Tab.setAll ctxDefault [] (img.contexts.filter (fun e => decide (e.1 < 8192) && [0, 1, 3, 4, 5, 6, 7, 8, 9].contains (e.1 % 16))) } }
  let pages := configPages.filter (fun p => !safetyPage p)
  let s3 := forEach (fun p t => t.loadPage recs p) pages s2
  let absent := (pages.filter (fun p => !recs.any (fun r => r.page == p))).length
  (s3.setFld Reg.SYS_CFG_STAT 31 24 (min absent 255)).crossPass true |>.refreshCfg

/-! ### Safety parameter sets, rules R226 to R230 -/

/-- Slot k of set n, if it has been written. -/
def State.safSlot (s : State) (n k : Nat) : Option SafSlot := (s.saf.slots.find? (fun e => e.1 == 2 * n + k)).map (fun e => e.2)

/-- The set: of the slots whose check words both hold, the one with the higher version. -/
def State.safSet (s : State) (n : Nat) : Option SafSlot :=
  match (s.safSlot n 0).filter (fun x => x.ok), (s.safSlot n 1).filter (fun x => x.ok) with
  | some a, some b => some (if a.version < b.version then b else a)
  | some a, none => some a
  | none, b => b

/-- The code of a set; 0b000 for one that has never been stored. -/
def State.setCode (s : State) (n : Nat) : Nat := ((s.safSet n).map (fun x => x.code)).getD 0

/-- A register of the configuration region of a safety page. -/
def safetyReg (a : Nat) : Bool :=
  decide (0x40000000 ≤ a) && safetyPage (pageOf a) && decide (0x100 ≤ pageOff a ∧ pageOff a < 0x800)

/-- The working pages and tables take an image. PG_CHECK of each page is the check of what it then holds: DEDUCED,
notes/assumptions/28.md. -/
def State.putImage (s : State) (img : SafetyImage) : State :=
  let s1 := ((s.defaultPage Page.SSM).defaultPage Page.SAF).defaultPage Page.FLT
  let s2 := forEach (fun (e : Nat × Word) t => t.loadWord e.1 e.2) (img.regs.filter (fun e => safetyReg e.1)) s1
  let s3 := { s2 with
    saf := { s2.saf with axis := Tab.setAll (fun _ => 0) [] img.axis, zone := Tab.setAll (fun _ => 0) [] img.zone }
    ssm := { s2.ssm with kin := Tab.setAll (fun _ => 0) [] img.kin, cap := Tab.setAll (fun _ => 0) [] img.cap } }
  forEach (fun p t => (t.wr (Reg.PG_CHECK p) (t.pageCrc p)).loaded p false) [Page.SSM, Page.SAF, Page.FLT] s3

/-- An image meets the page checks of every safety page, with its tables, rules R195, R235 and R236. -/
def State.imageOk (s : State) (img : SafetyImage) : Bool :=
  let t := s.putImage img
  ssmTablesOk img && tablesCrc t.saf.axis t.saf.zone == t.rd Reg.SAF_TBL_CHECK &&
    (t.ssmConds ++ t.safConds ++ t.fltConds ++ t.crossConds Page.SSM).all (fun c => c)

/-- The set that the seal method selects, rules R227, R231 and R232: its number, and whether its code is the one required. -/
def State.selected (s : State) : Nat × Bool :=
  if s.bit Reg.SAF_SEAL_CFG 0 then (s.fld Reg.SAF_SEAL_CFG 7 4, true)
  else (s.fld Reg.FIO_SEAL 3 0, s.fld Reg.FIO_SEAL 7 5 == s.setCode (s.fld Reg.FIO_SEAL 3 0))

/-- The image of the selected set where its code matches and it is valid. -/
def State.validSet (s : State) : Option (Nat × SafSlot) :=
  let nP := s.selected
  let n := nP.1
  let code := nP.2
  match s.safSet n with
  | some x => if code && s.imageOk x.img then some (n, x) else none
  | none => none

/-- A set is applied: SET shows it and SET_DIRTY clears. -/
def State.applySet (s : State) (n : Nat) (img : SafetyImage) : State :=
  ((s.putImage img).setFld Reg.SAF_STAT 19 16 n).setBit Reg.SAF_STAT 6 false

/-- The load at entry to SELFTEST, rule R227, with the repeated evaluation of rule R417. -/
def State.loadSafety (s : State) : State :=
  let s1 := match s.validSet with
    | some (n, x) => s.applySet n x.img
    | none => s.failSafety.setBit Reg.SAF_STAT 6 false
  let s2 := { s1 with saf := { s1.saf with sealAt := some (s.fld Reg.FIO_SEAL 7 0), loading := none } }
  (s2.crossPass false).refreshCfg

end Sys2Proof.Machine
end

