-- ==== Sys2Proof/Machine/Power.lean ====
section
/-! DEFINITION. Operating points, power domains and rails, rules R83, R84, R386 and R405 to R422
(spec/18_power_reset_freeze.md), and the clocks' failures, rule R446. -/

namespace Sys2Proof.Machine

/-! ### Operating points, rules R420 to R422 -/

/-- Point of quad `q` in force: PWR_QPT. -/
def State.pointOf (s : State) (q : Nat) : Nat := s.fld Reg.PWR_QPT (2 * q + 1) (2 * q)

/-- The application cores' frequency code in force. -/
def State.appcOf (s : State) : Nat := s.fld Reg.PWR_QPT 18 16

/-- A request is refused with REF_CAUSE; a limit of rule R386 shows in the CDC page as well. -/
def State.dvfsRefused (s : State) (cause : Nat) : State :=
  let s1 := (((s.setBit Reg.PWR_STAT 1 true).setFld Reg.PWR_STAT 11 8 cause).inc Reg.PWR_DVFS_REF_CNT).event Page.PWR 1 0
  if cause = 3 then ((s1.setBit Reg.CDC_STAT 2 true).inc Reg.CDC_LIMIT_REF_CNT).event Page.CDC 2 0 else s1

/-- A change has completed. -/
def State.dvfsDone (s : State) : State := (s.inc Reg.PWR_DVFS_CNT).event Page.PWR 0 0

/-- Points after the change that has been accepted, and the application cores' code after theirs, rule R422. -/
def State.pointsNext (s : State) : Nat :=
  match s.pwr.change with
  | none => s.fld Reg.PWR_QPT 7 0
  | some c => withBits (s.fld Reg.PWR_QPT 7 0) (2 * c.quad + 1) (2 * c.quad) c.newPoint
def State.appcNext (s : State) : Nat := s.pwr.appcPend.getD s.appcOf

/-- DT_HIGH and the hotter region of its pair is `r`. -/
def State.tooHot (s : State) (r : Nat) : Bool := s.bit Reg.CDC_STAT 3 && s.integ.hotter == r

/-- PWR_DVFS_REQ, rule R420. -/
def State.dvfsReq (s : State) (q point : Nat) : State :=
  if s.pwr.change.isSome then s.dvfsRefused 1
  else if !s.domOn (3 + q) then s.dvfsRefused 2
  else if point = s.pointOf q then s.dvfsDone
  else if !limitsOk (withBits s.pointsNext (2 * q + 1) (2 * q) point) s.appcNext then s.dvfsRefused 3
  else if s.pointOf q < point && s.tooHot (3 + q) then s.dvfsRefused 4
  else
    (({ s with pwr := { s.pwr with change := some ⟨q, s.pointOf q, point, false, false⟩ } }).setBit Reg.PWR_STAT 0 true).setBit
      Reg.PWR_QPT (8 + q) true

def execPwrDvfsReq (ag : Agent) (quad point : Fin 4) (s : State) : Out :=
  .next (s.swWrite ag Page.PWR (fun t => t.dvfsReq quad.val point.val))

/-- PWR_APPC_REQ: the same checks; the clock changes at the next tick boundary, without a change of voltage. -/
def State.appcReq (s : State) (freq : Nat) : State :=
  if s.pwr.appcPend.isSome || s.pwr.change.any (fun c => c.begun) then s.dvfsRefused 1
  else if freq = s.appcOf then s.dvfsDone
  else if 4 < freq || !limitsOk s.pointsNext freq then s.dvfsRefused 3
  else if s.appcOf < freq && s.tooHot 8 then s.dvfsRefused 4
  else { s with pwr := { s.pwr with appcPend := some freq } }

def execPwrAppcReq (ag : Agent) (freq : Fin 8) (s : State) : Out := .next (s.swWrite ag Page.PWR (fun t => t.appcReq freq.val))

/-- Replace the change in progress. -/
def State.setChange (s : State) (c : Option PointChange) : State := { s with pwr := { s.pwr with change := c } }

/-- The change in progress ends; `point` is then in force. -/
def State.endChange (s : State) (q point : Nat) : State :=
  (((s.setFld Reg.PWR_QPT (2 * q + 1) (2 * q) point).setBit Reg.PWR_QPT (8 + q) false).setBit Reg.PWR_STAT 0 false).setChange none

/-- A VID output moves. -/
def State.setVid (s : State) (q point : Nat) : State :=
  { s with pwr := { s.pwr with vid := withBits s.pwr.vid (2 * q + 1) (2 * q) point } }

/-- The change of a quad at a tick boundary, rule R421: it starts, or a rising one whose rail has settled takes its clock. -/
def State.dvfsTick (s : State) : State :=
  match s.pwr.change with
  | none => s
  | some c =>
    if !c.begun then
      let s1 := (s.setVid c.quad c.newPoint).setChange (some { c with begun := true })
      if c.newPoint < c.oldPoint then s1.setFld Reg.PWR_QPT (2 * c.quad + 1) (2 * c.quad) c.newPoint else s1
    else if c.settled then (s.endChange c.quad c.newPoint).dvfsDone
    else s

/-- The application cores' clock at a tick boundary. -/
def State.appcTick (s : State) : State :=
  match s.pwr.appcPend with
  | none => s
  | some f => (({ s with pwr := { s.pwr with appcPend := none } }).setFld Reg.PWR_QPT 18 16 f).dvfsDone

/-- A voltage lies within 15 mV of a point's. -/
def settledAt (point mv : Nat) : Bool := decide (mv ≤ 665 + 50 * point ∧ 635 + 50 * point ≤ mv)

/-- RAIL_SETTLED: the rail of the quad in change has settled within ±15 mV of the new voltage, and so within its thresholds. -/
def State.railSettled (s : State) (q mv : Nat) : State :=
  let s0 := s.railSample (1 + q) mv
  let s1 := if settledAt (s.pwr.vid / 4 ^ q % 4) mv then s0.setBit Reg.PWR_RAIL_FLAG (1 + q) true else s0
  match s.pwr.change with
  | none => s1
  | some c =>
    if c.quad = q ∧ c.begun = true ∧ settledAt c.newPoint mv = true then
      if c.oldPoint < c.newPoint then { s1 with pwr := { s1.pwr with change := some { c with settled := true } } }
      else (s1.endChange q c.newPoint).dvfsDone
    else s1

def execRailSettled (quad : Fin 4) (mv : BitVec 16) (s : State) : Out :=
  .next (if s.clocked then s.railSettled quad.val mv.toNat else s)

/-- DVFS_RAMP_TIMEOUT: a rising change returns its VID output, a falling one keeps its lower clock. -/
def State.rampTimeout (s : State) (q : Nat) : State :=
  match s.pwr.change with
  | none => s
  | some c =>
    if c.quad = q ∧ c.begun = true ∧ c.settled = false then
      let s1 := if c.oldPoint < c.newPoint then (s.setVid q c.oldPoint).endChange q c.oldPoint else s.endChange q c.newPoint
      ((s1.setBit Reg.PWR_STAT 2 true).inc Reg.PWR_DVFS_FAIL_CNT).alarm Page.PWR 2 0
    else s

def execDvfsRampTimeout (quad : Fin 4) (s : State) : Out := .next (if s.clocked then s.rampTimeout quad.val else s)

/-- A freeze abandons a change of the application cores' clock that waits for its boundary, rule R422. -/
def State.abandonAppc (s : State) : State :=
  if s.pwr.appcPend.isSome then { s with pwr := { s.pwr with appcPend := none, abandoned := true } } else s

/-- A freeze abandons the change: the VID output returns to the point of the clock in force, rule R422. -/
def State.abandonChange (s : State) : State :=
  let s0 := s.abandonAppc
  match s0.pwr.change with
  | none => s0
  | some c =>
    let s1 := (s0.endChange c.quad (s0.pointOf c.quad)).setVid c.quad (s0.pointOf c.quad)
    { s1 with pwr := { s1.pwr with abandoned := true } }

/-- After the release the abandonment is reported as a refusal with REF_CAUSE 0x7. -/
def State.reportAbandoned (s : State) : State :=
  if s.pwr.abandoned then ({ s with pwr := { s.pwr with abandoned := false } }).dvfsRefused 7 else s

/-- The points of PWR_QPT_INIT and the frequency of PWR_APPC take force at entry to SELFTEST, step 8 of rule R413. -/
def State.initPoints (s : State) : State :=
  let pts := s.fld Reg.PWR_QPT_INIT 7 0
  let s1 := ((s.wrN Reg.PWR_QPT (pts + 65536 * s.fld Reg.PWR_APPC 2 0)).setBit Reg.PWR_STAT 0 false)
  { s1 with pwr := { s1.pwr with change := none, appcPend := none, vid := pts } }

/-! ### Domains, rules R405 to R407 -/

/-- The SRAM of a domain, by its index: engines' code and data, rule R414. -/
def State.clearSram (s : State) (d : Nat) : State :=
  if 3 ≤ d ∧ d ≤ 6 then
    { s with code := Tab.dropRange (0x100000 * (d - 3)) 0x100000 s.code, data := Tab.dropRange (0x200000 * (d - 3)) 0x200000 s.data,
             eng := Tab.dropRange (16 * (d - 3)) 16 s.eng }
  else if d = 7 then s.solFresh
  else if d = 9 then { s with ring := [] }
  else s

/-- The pages whose registers lie in a domain. -/
def domainPages (d : Nat) : List Nat := (List.range 0x290).filter (fun p => (pageKind p).isSome && domainOf p == d)

/-- The status registers of a domain's pages take their reset values, rule R405. -/
def State.clearStatus (s : State) (d : Nat) : State :=
  forEach (fun p t => { t with regs := Tab.dropRange (pageBase p + 0x800) 0x800 t.regs }) (domainPages d) s

/-- A domain changes power: PWR_DOM_CNT, and bit 3 of the PWR page. -/
def State.domChanged (s : State) (d : Nat) (on : Bool) : State := ((s.setDomain d on).inc Reg.PWR_DOM_CNT).event Page.PWR 3 0

/-- A power-down or power-up is refused: DOM_REFUSED and REF_CAUSE 0x6. -/
def State.domRefused (s : State) : State := (s.setBit Reg.PWR_STAT 3 true).setFld Reg.PWR_STAT 11 8 6

/-- The condition of a domain's power-down: SOLV, RING and PLANT (bits 4 to 6 of PWR_DOM_REQ). -/
def State.downOk (s : State) (b : Nat) : Bool :=
  match b with
  | 4 => !s.bit Reg.SOL_CTRL 0
  | 5 => (List.range 4).all (fun p => !s.portEn p)
  | 6 => (List.range 2).all (fun p => !s.bit (Reg.ETH_CTRL p) 0) && !s.twinEn && !s.bit Reg.PCI_STAT 0
  | _ => true

/-- The domain of a bit of PWR_DOM_REQ: Q1 to Q3, SOLV, RING, PLANT. -/
def reqDomain (b : Nat) : Nat :=
  match b with
  | 4 => 7
  | 5 => 9
  | 6 => 10
  | _ => 3 + b

/-- One power-down bit of PWR_DOM_REQ. -/
def State.askDown (s : State) (v : Word) (b : Nat) : State :=
  if !v.getLsbD b || !s.domOn (reqDomain b) then s
  else if s.downOk b then { s with pwr := { s.pwr with downPend := withBits s.pwr.downPend b b 1 } }
  else s.domRefused

/-- One power-up bit: refused beside a power-down of the same domain in one write. -/
def State.askUp (s : State) (v : Word) (b : Nat) : State :=
  if !v.getLsbD (16 + b) then s
  else if v.getLsbD b then s.domRefused
  else if s.domOn (reqDomain b) then s
  else { s with pwr := { s.pwr with upPend := withBits s.pwr.upPend b b 1 } }

/-- A write of PWR_DOM_REQ. -/
def State.domReq (s : State) (v : Word) : State :=
  forEach (fun b t => t.askUp v b) [4, 5, 6] (forEach (fun b t => t.askDown v b) [1, 2, 3, 4, 5, 6] s)

def execDomainPowerDown (ag : Agent) (req : Word) (s : State) : Out := .next (s.swWrite ag Page.PWR (fun t => t.domReq req))
def execDomainPowerUp (ag : Agent) (req : Word) (s : State) : Out := .next (s.swWrite ag Page.PWR (fun t => t.domReq req))

/-- Every engine of a quad is in WAIT, DISABLED or FAULT. -/
def State.quadIdle (s : State) (q : Nat) : Bool :=
  (List.range 16).all (fun i =>
    let st := s.fld (Reg.ENG_STAT (16 * q + i)) 3 0
    st == 1 || st == 2 || st == 5)

/-- A quad at a tick boundary: it is no longer served from the boundary after the request, and is switched off once idle; its
engines then read OFF. -/
def State.quadTick (s : State) (q : Nat) : State :=
  let s1 := if s.pwr.downPend.testBit q && !s.pwr.quadsOff.testBit q then
      forUpTo (fun i t => t.rehome s (16 * q + i)) 16 ({ s with pwr := { s.pwr with quadsOff := withBits s.pwr.quadsOff q q 1 } })
    else s
  if s1.pwr.quadsOff.testBit q && s1.domOn (3 + q) && s1.quadIdle q then
    let s2 := ((s1.clearSram (3 + q)).clearStatus (3 + q)).domChanged (3 + q) false
    (forUpTo (fun i t => t.setFld (Reg.ENG_STAT (16 * q + i)) 3 0 0) 16 s2).kittyStat
  else s1

/-- The endpoint and its page are reset: PG_CTRL, PG_STAT, PG_CFG_SEQ, PG_IRQ_RAW, PG_IRQ_EN, PCI_CTRL, PCI_STAT and the MSI-X table take
their reset values, rule R341; PG_LOCK, with LOCKED, and the counters wait for a device reset (rules R440 and R349). -/
def State.endpointClear (s : State) : State :=
  let s1 := ((s.wr (Reg.PG_CTRL Page.PCI) (regReset (Reg.PG_CTRL Page.PCI))).wr (Reg.PG_IRQ_RAW Page.PCI) 0).wr (Reg.PG_IRQ_EN Page.PCI) 0
  let s2 := (s1.wr (Reg.PG_STAT Page.PCI) (s.rd (Reg.PG_STAT Page.PCI) &&& 4)).wr (Reg.PG_CFG_SEQ Page.PCI) 0
  { (s2.wr Reg.PCI_CTRL (regReset Reg.PCI_CTRL)).wr Reg.PCI_STAT 0 with
    plant := { s.plant with msixTab := [], msixMask := BitVec.allOnes 64, msixPend := 0, endpoint := none } }

/-- SOLV, RING and PLANT at a tick boundary. Their SRAM is initialised at power-up, rule R414; the endpoint trains afresh. -/
def State.unitTick (s : State) (b : Nat) : State :=
  let d := reqDomain b
  if s.pwr.downPend.testBit b then ((s.clearSram d).clearStatus d).domChanged d false
  else if s.pwr.upPend.testBit b then
    let s1 := ((s.clearSram d).clearStatus d).domChanged d true
    if d = 9 then forUpTo (fun p t => t.portStart p) 4 s1 else if b = 6 then s1.endpointClear else s1
  else s

/-- Domains at a tick boundary. -/
def State.domTick (s : State) : State :=
  let s1 := forEach (fun q t => t.quadTick q) [1, 2, 3] s
  let s2 := forEach (fun b t => t.unitTick b) [4, 5, 6] s1
  { s2 with pwr := { s2.pwr with downPend := 0, upPend := 0 } }

/-! ### Rails that stay within OFF's thresholds -/

/-- RAIL_OVERVOLTAGE: RAIL_OV, its count and an alarm; the part runs on. -/
def State.railOver (s : State) (i mv : Nat) : State :=
  let s1 := ((s.railSample i mv).setBit Reg.PWR_RAIL_FLAG i false).inc Reg.PWR_OV_CNT
  (s1.setBit Reg.PWR_STAT 4 true).alarm Page.PWR 4 0

def execRailOvervoltage (rail : Fin 13) (mv : BitVec 16) (s : State) : Out :=
  .next (if s.sys.dev == .off then s else s.railOver rail.val mv.toNat)

/-! ### Clocks, rule R446 -/

/-- The domain whose clock a PLL of CLK_STAT bits 9:2 gives: fabric, timekeeping, engines 0 to 3, DRAM, SerDes. -/
def pllDomain (k : Nat) : Nat :=
  match k with
  | 0 => 1
  | 1 => 0
  | 6 => 11
  | 7 => 9
  | n => 1 + n

/-- PLL_LOCK_LOSS: while the PLL's domain is powered, LOCK_LOST is set and an alarm raised. What a stopped or wrong clock does to its
units comes by the commands of their chapters. -/
def State.lockLoss (s : State) (k : Nat) : State :=
  let s1 := s.setBit Reg.CLK_STAT (2 + k) false
  if s.domOn (pllDomain k) then ((s1.setBit Reg.CLK_STAT 10 true).inc Reg.CLK_LOCK_LOST_CNT).alarm Page.CLK 0 0 else s1

def execPllLockLoss (pll : Fin 8) (s : State) : Out := .next (if s.clocked then s.lockLoss pll.val else s)

/-- REFERENCE_FAIL: the 25 MHz (0) or the 156.25 MHz (1) reference leaves its window. -/
def State.refFail (s : State) (r : Nat) : State :=
  (((s.setBit Reg.CLK_STAT r false).setBit Reg.CLK_STAT 11 true).inc Reg.CLK_REF_FAIL_CNT).alarm Page.CLK 1 0

def execReferenceFail (ref : Fin 2) (s : State) : Out := .next (if s.clocked then s.refFail ref.val else s)

end Sys2Proof.Machine
end

