-- ==== Sys2Proof/Machine/Boot.lean ====
section
/-! DEFINITION. Rails, resets, the boot sequence, self-test and the watchdog, rules R409 to R419 (spec/18_power_reset_freeze.md). -/

namespace Sys2Proof.Machine

/-! ### Resets, rules R409 to R411 -/

/-- A register that a reset of the core die keeps: the records in AON (rule R428), PWR_UV_CNT, the readout's records (rule R447), the
samples of the supply monitor, and what shows the field die, the seal method and the peer's interlock line. -/
def keptReg (a : Nat) : Bool :=
  a == Reg.SYS_RST_CNT || a == Reg.SYS_FRZ_CNT || a == Reg.PWR_UV_CNT || a == Reg.DBG_RO_BYTES || a == Reg.DBG_RO_BYTES + 4 ||
    a == Reg.DBG_RO_CNT || decide (Reg.PWR_RAIL_V 0 ≤ a ∧ a ≤ Reg.PWR_RAIL_FLAG) || decide (Reg.FIO_DI ≤ a ∧ a ≤ Reg.FIO_SEAL) ||
    a == Reg.SAF_SEAL_CFG

/-- RO_CUT of DBG_STAT after a reset: kept, and set where the reset ends a readout. -/
def State.roCut (s : State) : Nat := if s.bit Reg.DBG_STAT 2 || s.bit Reg.DBG_STAT 0 then 4 else 0

/-- What outlives a reset of the core die, every other register and unit at its reset value: the field die, the flash with the safety
sets and the device record, and LPDDR4X are not reset. Counting is off, as its configuration is (rule R316), and the field die's blanking
goes on over the clock's new start (rule R322). -/
def State.outlive (s : State) : State :=
  { State.reset with
    regs := s.regs.filter (fun e => keptReg e.1)
    dram := s.dram
    flash := s.flash
    msix := s.msix
    free := s.free
    pending := s.pending
    field := { s.field with parUntil := none, counts := [], offTime := s.field.offTime.map (fun e => (e.1, e.2 - s.mono)) }
    saf := { Saf.reset with slots := s.saf.slots, methodNext := s.saf.methodNext, pwd := s.saf.pwd, pwdFails := s.saf.pwdFails,
                            lockout := s.saf.lockout, log := s.saf.log, logSeq := s.saf.logSeq }
    plant := { Plant.reset with bus := s.plant.bus } }

/-- The core die is reset: every register takes its reset value but those kept, every unit starts anew, the interlock is released,
the bypasses close, VCCF_RST is cleared (rule R325) and the VID outputs read 0b10. -/
def State.coreReset (s : State) (cause : Nat) : State :=
  let s1 := ((s.outlive.wrN Reg.SYS_RST_CAUSE cause).wrN Reg.DBG_STAT s.roCut).setBit Reg.TWN_STAT 3 (s.bit Reg.TWN_STAT 3)
  let s2 := (s1.setBit Reg.PWR_DOM_STAT 12 s.field.vcc).setFld Reg.SAF_SEAL_CFG 1 1 0
  (s2.setBit Reg.FIO_LP_STAT 6 false).refreshDq

/-- A reset other than power-on, counted: 2 RESET_n, 3 watchdog, 4 software. It has no effect in OFF. -/
def State.resetBy (s : State) (cause : Nat) : State :=
  if s.sys.dev == .off then s else (s.coreReset cause).inc Reg.SYS_RST_CNT

/-- RESET_N: RESET_n has been low for 1 µs. -/
def execResetN (s : State) : Out := .next (s.resetBy 2)

/-- SW_RESET: a write of SYS_CTRL with SW_RESET and the key 0xC128; without the key it is ignored and counted. -/
def State.swReset (s : State) (key : BitVec 16) : State :=
  if key = 0xC128 then s.resetBy 4 else s.inc Reg.SYS_REFUSE_CNT

def execSwReset (ag : Agent) (key : BitVec 16) (s : State) : Out := .next (s.swWrite ag Page.SYS (fun t => t.swReset key))

/-- Entry to OFF: what a reset keeps, and LPDDR4X no longer; an undervoltage of VDD_AON clears PWR_UV_CNT, rules R409 and R429. -/
def State.enterOff (s : State) (rail : Nat) : State :=
  let s1 := s.coreReset 1
  let s2 := if rail = 6 then s1.wr Reg.PWR_UV_CNT 0 else s1.inc Reg.PWR_UV_CNT
  { s2 with dram := [], sys := { s2.sys with dev := .off } }

/-- RAIL_UNDERVOLTAGE: a rail has crossed its falling threshold. -/
def State.railUnder (s : State) (rail mv : Nat) : State :=
  let s1 := (s.railSample rail mv).setBit Reg.PWR_RAIL_FLAG rail false
  if s.sys.dev == .off then s1 else s1.enterOff rail

def execRailUndervoltage (rail : Fin 13) (mv : BitVec 16) (s : State) : Out := .next (s.railUnder rail.val mv.toNat)

/-- RAILS_STABLE: every rail has been within its thresholds for 10 ms: OFF is left for RESET, the power-on reset, which clears the
records kept in AON. -/
def State.powerOn (s : State) (mv : List (BitVec 16)) : State :=
  if s.sys.dev == .off then
    let s1 := { s with sys := Sys.reset }
    let s2 := forUpTo (fun i t => t.railSample i ((mv.map (fun x => x.toNat)).getD i 0)) 13 (s1.wrN Reg.PWR_RAIL_FLAG 0x1FFF)
    forEach (fun a t => t.wr a 0) [Reg.SYS_RST_CNT, Reg.SYS_FRZ_CNT, Reg.DBG_RO_BYTES, Reg.DBG_RO_BYTES + 4, Reg.DBG_RO_CNT, Reg.DBG_STAT]
      (s2.wrN Reg.SYS_RST_CAUSE 1)
  else s

def execRailsStable (mv : List (BitVec 16)) (s : State) : Out := .next (s.powerOn mv)

/-! ### The boot sequence, rules R413 to R415 -/

/-- The boot stops at a step with a failure code, which goes to SYS_BOOT.FAIL and the UART; only a reset starts it again. -/
def State.bootFail (s : State) (fail step : Nat) : State :=
  let s1 := (s.setFld Reg.SYS_BOOT 11 8 fail).setFld Reg.SYS_BOOT 15 12 step
  { s1 with plant := { s1.plant with uart := s1.plant.uart ++ [.failed fail] } }

/-- The characters of one message on the UART. -/
def BootMessage.text : BootMessage → List (BitVec 7)
  | .step n => Config.bootText false n
  | .failed code => Config.bootText true code

/-- What the UART has carried since the last reset, 8N1 at `Plant.baud`. -/
def State.uartText (s : State) : List (BitVec 7) := s.plant.uart.flatMap BootMessage.text

/-- SYS_BOOT.STEP shows the step in progress, and BOOT writes it to the UART, rules R346 and R413. -/
def State.bootStep (s : State) (n : Nat) : State :=
  let s1 := s.setFld Reg.SYS_BOOT 15 12 n
  { s1 with plant := { s1.plant with uart := s1.plant.uart ++ [.step n] } }

/-- The slots with a valid header, in the order in which they are checked: the higher version first, A when they are equal. The
code of a slot is 1 for A and 2 for B. -/
def bootOrder (inp : BootInputs) : List (Nat × ImageSlot) :=
  let a := if inp.a.header then [(1, inp.a)] else []
  let b := if inp.b.header then [(2, inp.b)] else []
  if inp.a.version.toNat < inp.b.version.toNat then b ++ a else a ++ b

/-- Step 3: every SRAM is initialised with 0, rule R414. -/
def State.initSram (s : State) : State :=
  { s with cell := [], code := [], data := [], eng := [], dlr := Dlr.reset, loop := Loop.reset, sol := Sol.reset, ssm := Ssm.reset,
           ring := [], integ := { s.integ with ue := [], wb := [] }, saf := { s.saf with axis := [], zone := [] } }

/-- The domains that are powered from BOOT: all but Slate's and the field die's. -/
def bootDomains : List Nat := [1, 3, 4, 5, 6, 7, 8, 9, 10, 11]

/-- The domains that PWR_DOM_CFG does not select are off. -/
def State.deselect (s : State) : State :=
  forUpTo (fun b t =>
    if t.bit Reg.PWR_DOM_CFG b then t
    else
      let t1 := t.setDomain (reqDomain b) false
      if b < 4 then forUpTo (fun i u => u.setFld (Reg.ENG_STAT (16 * b + i)) 3 0 0) 16 t1 else t1) 7 s

/-- The booted slot is loaded: SYS_BOOT, SYS_IMG_VER, code SRAM, and the configuration image. Where no record is malformed the
engines with EN start, and SELFTEST follows. -/
def State.bootLoad (s : State) (slot : Nat) (img : ImageSlot) (fallback : Bool) : State :=
  let s1 := (((s.setFld Reg.SYS_BOOT 1 0 slot).setBit Reg.SYS_BOOT 2 fallback).bootStep 7).wr Reg.SYS_IMG_VER img.version
  let s2 := { s1 with code := Tab.setAll Memory.blank [] (img.code.filter (fun e => decide (e.1 < 0x400000))) }
  if img.pages.any badRecord then s2.bootFail 5 7
  else
    let s3 := (s2.loadConfig img).deselect
    (forUpTo (fun e t => if t.bit (Reg.ENG_CTRL e) 0 then t.engStart e else t) 64 s3).kittyStat.trigger .selftest

/-- LPDDR4X trains, and both channels are fitted with 512 MiB to 4 GiB each, rule R455. -/
def dramFit (inp : BootInputs) : Bool := inp.dramOk && decide (512 ≤ inp.dram ∧ inp.dram ≤ 4096)

/-- The usable bytes: seven eighths of two channels, rule R375. -/
def usableDram (inp : BootInputs) : Nat := 1835008 * inp.dram

/-- Steps 3 to 7 in BOOT. -/
def State.bootFrom3 (s : State) (inp : BootInputs) : State :=
  let s1 := forUpTo (fun e t => { t with regs := Tab.dropRange (pageBase (Page.ENG e) + 0x800) 0x800 t.regs }) 64 s.initSram
  let s2 := (forEach (fun d t => t.setDomain d true) bootDomains s1).setDomain 2 false
  let s3 := { ((s2.wrN Reg.CLK_STAT 0x3FF).wr Reg.SYS_BOOT 0) with dram := [], sys := { s2.sys with dramBytes := usableDram inp } }
  let s4 := forEach (fun n t => t.bootStep n) [2, 3, 4] s3
  if !inp.flashOk then s4.bootFail 3 4
  else
    let s5 := (s4.setBit Reg.SYS_BOOT 3 inp.octal).bootStep 5
    match bootOrder inp with
    | [] => s5.bootFail 1 5
    | first :: rest =>
      let pick := (first :: rest).find? (fun x => x.2.crcOk)
      match pick with
      | none => s5.bootFail 2 5
      | some x =>
        let s6 := s5.bootStep 6
        if !dramFit inp then s6.bootFail 4 6
        else s6.bootLoad x.1 x.2 (x.1 != first.1)

/-- RESET_RELEASE: 100 µs after the last reset trigger has ended the core die enters BOOT. -/
def State.resetRelease (s : State) (inp : BootInputs) : State :=
  if s.sys.dev == .reset then (s.enter .boot).bootFrom3 inp else s

def execResetRelease (inp : BootInputs) (s : State) : Out := .next (s.resetRelease inp)

/-! ### SELFTEST, rules R227, R413 and R419 -/

/-- The T40 seal closes, rule R232. -/
def State.closeSeal (s : State) : State :=
  if s.saf.t40Open then
    ({ s with saf := { s.saf with t40Open := false } }).setBit Reg.SAF_STAT 7 false
  else s

/-- A change of the seal method takes effect, rule R231. -/
def State.applyMethod (s : State) : State :=
  match s.saf.methodNext with
  | none => s
  | some m => (({ s with saf := { s.saf with methodNext := none } }).setFld Reg.SAF_SEAL_CFG 1 0 m)

/-- A new period of the watchdog starts. -/
def State.wdtStart (s : State) : State := { s with sys := { s.sys with wdtHalf := false } }

/-- The outputs that compare channels toggle stand at 0, and no stop request is left. -/
def State.noRequests (s : State) : State :=
  { s with prof := { s.prof with dqToggle := 0 }, sys := { s.sys with stopping := false } }

/-- Step 8 at entry to SELFTEST: the safety set, the points of PWR_QPT_INIT, Slate's power and the ring lanes; every unit starts its
tests afresh; the latched stop causes clear. -/
def State.enterSelftest (s : State) : State :=
  let s1 := (s.closeSeal.applyMethod.loadSafety).initPoints
  let s2 := ((s1.wr Reg.SYS_SELFTEST 0).setFld Reg.SYS_STOP_CAUSE 9 0 0).setFld Reg.SYS_BOOT 15 12 8
  let s3 := (forUpTo (fun a t => t.loopSelftest a) 144 s2.safSelftest.flintSelftest.ssmSelftest).solFresh.resetLimits
  (forUpTo (fun p t => t.restartPort p) 4 s3.noRequests).refreshSaf.wdtStart

/-- SELFTEST can pass: Slate has compared 64 ticks, and Flint has been tested and, where it passed, armed, rules R217 and R218. -/
def State.selftestOver (s : State) : Bool :=
  decide (64 ≤ s.saf.slate.count) &&
    (s.saf.flint.tested == some false || (s.saf.flint.tested == some true && s.fld Reg.FLT_STAT 1 0 == 1))

/-- SELFTEST_DONE: pass bits of T0 to T7; T6 also needs the test trip to have opened every gate, and T7 channel A and Slate in
agreement. A pass of all is not reported before SELFTEST is over. -/
def State.selftestDone (s : State) (pass : Nat) : State :=
  if s.sys.dev == .selftest && (pass != 255 || s.saf.slate.failed || s.selftestOver) then
    let p0 := if s.saf.flint.tested = some false then withBits pass 6 6 0 else pass
    let p := if s.saf.slate.failed then p0 % 128 else p0
    let s1 := (s.wrN Reg.SYS_SELFTEST (p + 256 * (255 - p))).setFld Reg.SYS_BOOT 15 12 11
    if p = 255 then s1.trigger .ready
    else ((s1.stopCause .selftest).setBit Reg.SYS_STOP_CAUSE StopCause.selftest.num true).trigger .safestop
  else s

def execSelftestDone (pass : BitVec 8) (s : State) : Out := .next (s.selftestDone pass.toNat)

/-! ### The watchdog, rule R412 -/

/-- The watchdog runs: SYS_WDT.EN, from entry to SELFTEST, paused in FROZEN. -/
def State.wdtRuns (s : State) : Bool := s.ticking && s.bit Reg.SYS_WDT 0

/-- SYS_WDT_KICK: 0xA5 restarts the period; any other value is a missed kick. -/
def execSysWdtKick (ag : Agent) (v : Word) (s : State) : Out :=
  .next (s.swWrite ag Page.SYS (fun t => if v = 0xA5 then t.wdtStart else t))

/-- Half a period of the watchdog has passed. -/
def State.halfGone (s : State) : State := { s with sys := { s.sys with wdtHalf := true } }

/-- WDT_WARN: half the period has passed without a kick. -/
def State.wdtWarn (s : State) : State :=
  if s.wdtRuns then
    (((s.setBit Reg.SYS_STAT 10 true).inc Reg.SYS_WDT_CNT).event Page.SYS 5 0).halfGone
  else s

def execWdtWarn (s : State) : Out := .next s.wdtWarn

/-- WDT_EXPIRY: the full period has passed without a kick, its half before it. -/
def execWdtExpiry (s : State) : Out := .next (if s.wdtRuns && s.sys.wdtHalf then s.resetBy 3 else s)

end Sys2Proof.Machine
end

