-- ==== Sys2Proof/Machine/System.lean ====
section
/-! DEFINITION. Software's requests to the system controller, rules R26 to R30, and the freeze with its readout and release, rules
R423 to R427 (spec/01_cell_architecture.md and spec/18_power_reset_freeze.md). -/

namespace Sys2Proof.Machine

/-! ### RUN, STOP and RESTART -/

/-- The enabled engine count of rule R6. -/
def State.engineCount (s : State) : Nat := ((List.range 64).filter (fun e => s.engCounts e)).length

/-- A safety page holds factory defaults. -/
def State.safetyDefault (s : State) : Bool :=
  s.bit (Reg.PG_STAT Page.SSM) 0 || s.bit (Reg.PG_STAT Page.SAF) 0 || s.bit (Reg.PG_STAT Page.FLT) 0

/-- A port marked as required, enabled or not, has not trained. -/
def State.portWanting (s : State) : Bool := (List.range 4).any (fun p => s.bit (Reg.RNG_CTRL p) 5 && !s.portTrained p)

/-- A REQUIRED node of an enabled master-end port is not FOUND, rule R285. -/
def State.nodeWanting (s : State) : Bool :=
  (List.range 4).any (fun p => s.portEn p && s.masterRole p &&
    (List.range 64).any (fun n => s.nodeEn p n && s.nodeRequired p n && s.dstate p n != 1))

/-- The first condition of rule R27 that fails, as REFUSE_CAUSE; 0 where all hold. -/
def State.runCause (s : State) : Nat :=
  if s.engineCount < s.fld Reg.SYS_MIN_ENG 6 0 then 1
  else if s.safetyDefault then 2
  else if s.portWanting then 3
  else if s.nodeWanting then 4
  else if !s.startOk then 5
  else 0

/-- A request to enter RUN in READY: accepted, or refused with a configuration alarm. -/
def State.runRequest (s : State) : State :=
  if s.runCause = 0 then s.trigger .run
  else
    (((s.setBit Reg.SYS_STAT 7 true).setFld Reg.SYS_STAT 15 12 s.runCause).inc Reg.SYS_REFUSE_CNT).alarm Page.SYS 1 (w32 s.runCause)

/-- STOP_REQ in RUN: every axis of an enabled group stops under its profile generator, and READY follows at standstill. -/
def State.stopRequest (s : State) : State :=
  if s.sys.dev == .run then
    let s1 := forEach (fun a t =>
      if t.axState a == axMoving || t.axState a == axJog || t.axState a == axFollow || t.engaged a then t.doStop a
      else if t.axState a == axHoming then t.doAbort a else t)
      ((List.range 144).filter (fun a => s.axisEn a)) s
    { s1 with sys := { s1.sys with stopping := true } }
  else s

/-- RUN_REQ, alone or with STOP_REQ in the same write, which then wins; in BOOT and SELFTEST it is held. -/
def State.runReq (s : State) (withStop : Bool) : State :=
  if withStop then s.stopRequest
  else
    match s.sys.dev with
    | .boot | .selftest => { s with sys := { s.sys with heldRun := true } }
    | .ready => s.runRequest
    | _ => s

def execRunReq (ag : Agent) (withStop : Bool) (s : State) : Out := .next (s.swWrite ag Page.SYS (fun t => t.runReq withStop))

def execStopReq (ag : Agent) (s : State) : Out := .next (s.swWrite ag Page.SYS (fun t => t.stopRequest))

/-- Every axis under a stop is at standstill: READY follows, rule R26. -/
def State.stopCheck (s : State) : State :=
  if s.sys.dev == .run && s.sys.stopping && (List.range 144).all (fun a => !s.axisEn a || s.vel a == 0) then
    ({ s with sys := { s.sys with stopping := false } }).trigger .ready
  else s

/-- A latched stop cause is still present. -/
def State.causeHeld (s : State) : Bool := s.fld Reg.SYS_STOP_CAUSE 9 0 &&& s.fld Reg.SYS_STOP_CAUSE 25 16 != 0

/-- Every group is in STO. -/
def State.allSto (s : State) : Bool := (List.range 16).all (fun g => s.fld (Reg.SAF_GRP_STAT g) 2 0 == stSto)

/-- RESTART_REQ in SAFESTOP, rule R29. -/
def State.restartReq (s : State) : State :=
  if s.sys.dev == .safestop then
    if !s.causeHeld && s.allSto then s.trigger .selftest
    else ((s.setBit Reg.SYS_STAT 8 true).inc Reg.SYS_REFUSE_CNT).event Page.SYS 2 0
  else s

def execRestartReq (ag : Agent) (s : State) : Out := .next (s.swWrite ag Page.SYS (fun t => t.restartReq))

/-! ### The interlock's release, rule R354 -/

/-- ILK_OWN_n is released: every port in CYCLIC enters FOREIGN, and so does one that claims or is in INIT (rule R250); the role is SOLO from
the next boundary. -/
def State.leaseEnd (s : State) : State :=
  if s.bit Reg.TWN_STAT 2 then
    let s1 := forUpTo (fun p t => if t.mustYield p then t.toForeign p else t) 4 (s.setBit Reg.TWN_STAT 2 false)
    { s1 with twin := { s1.twin with taking := none, next := some 0, resign := false } }
  else { s with twin := { s.twin with taking := none } }

/-! ### Freeze, rules R423 to R426 -/

/-- The safety functions are armed: READY to SAFESTOP, outside commissioning mode. -/
def State.armed (s : State) : Bool :=
  match s.sys.dev with
  | .ready | .run | .degraded | .safestop => !s.commission
  | _ => false

/-- A store in progress does not complete; the result that SAF_STORE_STAT then shows is not stated, and is free
(notes/assumptions/4.md). -/
def State.cutStore (s : State) : State :=
  if s.bit Reg.SAF_STORE_STAT 8 then
    let kP := s.takeFree
    let k := kP.1
    let s1 := kP.2
    ({ s1 with saf := { s1.saf with storing := none } }).wrN Reg.SAF_STORE_STAT ((Config.freeWord k).toNat % 16)
  else s

/-- The clocks are gated. -/
def State.gated (s : State) (f : Freeze) : State := { s with sys := { s.sys with dev := .frozen, frozen := some f } }

/-- What FROZEN records and shows: SYS_FRZ_CNT, SYS_FRZ_TICK, and every domain and crossing parked. -/
def State.parkAll (s : State) : State :=
  (((s.inc Reg.SYS_FRZ_CNT).wr64 Reg.SYS_FRZ_TICK s.tick).setFld Reg.PWR_DOM_STAT 28 17 0xFFF).setBit Reg.CDC_STAT 4 true

/-- Entry to FROZEN from BOOT to SAFESTOP; `cause` 1 FRZ_n, 2 SYS_CTRL.FREEZE. Triggers of lower precedence lose, every crossing is
parked, the interlock lease ends, a change of operating point is abandoned and the step generators stop. -/
def State.freezeBy (s : State) (cause : Nat) : State :=
  if s.clocked then
    let f : Freeze := { before := s.sys.dev, cause := cause, armed := s.armed, time := s.now, released := false, resume := false, boot := none }
    (((((s.leaseEnd.abandonChange).cutStore).closeSeal.stopPulses).loseTriggers .frozen).parkAll).gated f |>.refreshDq
  else s

def execFreeze (ag : Agent) (s : State) : Out := .next (s.swWrite ag Page.SYS (fun t => t.freezeBy 2))

/-- FRZ_N_ASSERT: FRZ_n has been low for 100 ns; it is ignored in OFF and RESET. -/
def execFrzNAssert (s : State) : Out := .next (s.freezeBy 1)

/-- The header of the readout's stream, rule R424: the sizes of the flop chains, and with them the stream's length, are the
implementation's (notes/assumptions/132.md). -/
def State.readoutHeader (s : State) (f : Freeze) : List (BitVec 8) :=
  let dword (n : Nat) : List (BitVec 8) := wordBytes (BitVec.ofNat 32 n) ++ wordBytes (BitVec.ofNat 32 (n / 4294967296))
  let l := wordBytes 0xC128 ++ wordBytes 1 ++ dword (s.rd64 Reg.SYS_ID % 0x1000000000000 + 0xB1000000000000) ++
    dword (8 + 256 * f.before.code + 65536 * f.cause) ++ dword (s.rd64 Reg.SYS_FRZ_TICK) ++ dword f.time ++
    wordBytes Config.readoutSections ++ wordBytes Config.readoutLength ++ List.replicate 12 0
  l ++ wordBytes (crc32 l)

/-- The header is sent first. -/
def State.sendHeader (s : State) : State :=
  match s.sys.frozen with
  | none => s
  | some f => { s with sys := { s.sys with readout := s.readoutHeader f } }

/-- READOUT_START: with RO_EN the readout starts 1 µs after the clocks are gated, rule R424. -/
def State.readoutStart (s : State) : State :=
  if s.sys.dev == .frozen && s.bit Reg.SYS_FRZ_CFG 0 && !s.bit Reg.DBG_STAT 0 then
    ((s.sendHeader.setBit Reg.DBG_STAT 0 true).wr64 Reg.DBG_RO_BYTES 0).inc Reg.DBG_RO_CNT
  else s

def execReadoutStart (s : State) : Out := .next s.readoutStart

/-- A release takes effect: at the next boundary the part resumes, rule R425. -/
def State.allowResume (s : State) : State :=
  match s.sys.frozen with
  | none => s
  | some f =>
    if f.released && !s.bit Reg.DBG_STAT 0 then { s with sys := { s.sys with frozen := some { f with resume := true } } } else s

/-- READOUT_END: the trailer has been sent. The raising waits at the parked crossing for the release, rule R384. -/
def State.readoutEnd (s : State) (bytes : BitVec 64) (ue : Word) : State :=
  if s.bit Reg.DBG_STAT 0 then
    let s1 := (((s.setBit Reg.DBG_STAT 0 false).setBit Reg.DBG_STAT 1 true).wr64 Reg.DBG_RO_BYTES bytes.toNat).wr Reg.DBG_RO_UE ue
    let s2 := s1.raiseLine Page.DBG 0
    ({ s2 with evt := { s2.evt with raisings := s2.evt.raisings ++ [(⟨Page.DBG, 0, false, 0, s2.now⟩ : Raising)] } }).allowResume
  else s

def execReadoutEnd (bytes : BitVec 64) (ue : Word) (s : State) : Out := .next (s.readoutEnd bytes ue)

/-- FREEZE_RELEASE: at once, or when a running readout ends. `inp` is what a boot that restarts then meets. -/
def State.freezeRelease (s : State) (inp : BootInputs) : State :=
  match s.sys.frozen with
  | none => s
  | some f => ({ s with sys := { s.sys with frozen := some { f with released := true, boot := some inp } } }).allowResume

def execFreezeRelease (inp : BootInputs) (s : State) : Out := .next (s.freezeRelease inp)

/-- The crossings of the powered domains unpark, rule R384. -/
def State.unpark (s : State) : State :=
  forUpTo (fun d t => if d = 0 ∨ d = 12 then t.setBit Reg.PWR_DOM_STAT (16 + d) false else t.setDomain d (t.domOn d)) 13 s

/-- The tick is the first after a release, rule R426. -/
def State.slipTick (s : State) : Bool :=
  s.rd64 Reg.SYS_SLIP_TICKS != 0 && s.tick == s.rd64 Reg.SYS_FRZ_TICK + s.rd64 Reg.SYS_SLIP_TICKS

/-- At the first tick after a release every axis of a planning group is IDLE at its measured position, with its target discarded,
gear, cam and FOLLOW disengaged: in its P phase, when that position is known. -/
def State.slipAxes (s : State) : State :=
  if s.slipTick && s.running then
    forEach (fun a t => if t.axisEn a then (t.trackTick a).setAxState a axIdle else t) (List.range 144) s
  else s

/-- The part resumes at a tick boundary, rules R426 and R427, after Quartz has counted it: phase tasks of the interrupted tick are
cancelled, TICK_SLIP and DET_LAPSE are set, the solver starts cold and the ports re-enter LISTEN. -/
def State.thaw (s : State) (f : Freeze) : State :=
  let s1 := ({ s with sys := { s.sys with frozen := none } }).unpark
  let next : DevState := if f.armed then .safestop else f.before
  let s2 := ((s1.dlrDeadline 2).dlrDeadline 4).enter next
  let s3 := ((s2.setBit Reg.SYS_STAT 9 true).wr64 Reg.SYS_SLIP_TICKS (s2.tick - s2.rd64 Reg.SYS_FRZ_TICK)).event Page.SYS 4 0
  let s4 := if f.armed then s3.stopCause .freeze else s3
  let s5 := s4.reportAbandoned
  let s6 := (s5.solFresh.detLapse).wdtStart
  match f.before with
  | .boot => (f.boot.map (fun inp => s6.bootFrom3 inp)).getD s6
  | .selftest => s6.enterSelftest
  | _ => forUpTo (fun p t => if t.portEn p && t.pstate p != psDown then t.enterListen p else t) 4 s6

end Sys2Proof.Machine
end

