-- ==== Sys2Proof/Machine/Seal.lean ====
section
/-! DEFINITION. The seal, the storing and loading of safety parameter sets, the Trauc T40 method and its change log, rules R226 to
R234 (spec/09_safety.md). -/

namespace Sys2Proof.Machine

/-! ### The change log, rules R233 and R234 -/

/-- The T40 method is in force. -/
def State.t40 (s : State) : Bool := s.bit Reg.SAF_SEAL_CFG 0

/-- 256 entries have not been freed: a logged operation is refused. -/
def State.logFull (s : State) : Bool := s.t40 && decide (256 ≤ s.saf.log.length)

/-- Version and CRC-32 of the set `n`; 0 where it has never been stored. -/
def State.setStamp (s : State) (n : Nat) : Word × Word :=
  match s.safSet n with
  | some x => (w32 x.version, x.img.crc)
  | none => (0, 0)

/-- An entry is appended under the T40 method: operation 1 store, 2 load, 3 password, 4 method. Its 64 bytes stand in the change log of the
flash (rules R233 and R343), entry n in place n modulo 256 (notes/assumptions/148.md). -/
def State.logOp (s : State) (n op result : Nat) (old new : Word × Word) : State :=
  if s.t40 then
    let e := [w32 s.saf.logSeq, w32 (n + 256 * op + 65536 * result), w32 s.now, w32 (s.now / 4294967296), old.1, new.1, old.2, new.2,
      s.rd Reg.SAF_USER] ++ List.replicate 7 (0 : Word)
    { s with
      saf := { s.saf with log := s.saf.log ++ [e], logSeq := s.saf.logSeq + 1 }
      flash := s.flash.setN (0x1304000 + 64 * (s.saf.logSeq % 256)) 64 (e.foldr (fun w n => w.toNat + 4294967296 * n) 0) }
  else s

/-- SAF_LOG_CLR: every entry up to the one with the exported sequence number is freed. -/
def State.logClear (s : State) (v : Word) : State :=
  if s.saf.log.any (fun e => e.head? == some v) then
    { s with saf := { s.saf with log := (s.saf.log.dropWhile (fun e => e.head? != some v)).drop 1 } }
  else s

def execSafLogClr (ag : Agent) (v : Word) (s : State) : Out := .next (s.swWrite ag Page.SAF (fun t => t.logClear v))

/-! ### The seal -/

/-- The T40 seal opens. -/
def State.openSeal (s : State) : State :=
  (({ s with saf := { s.saf with t40Open := true, pwdFails := 0 } }).setBit Reg.SAF_STAT 7 true).event Page.SAF 6 0

/-- The 16 characters in SAF_PWD_0 to SAF_PWD_3. -/
def State.pwdWords (s : State) : BitVec 128 :=
  s.rd (Reg.SAF_PWD 3) ++ s.rd (Reg.SAF_PWD 2) ++ s.rd (Reg.SAF_PWD 1) ++ s.rd (Reg.SAF_PWD 0)

/-- Every character lies in 0x20 to 0x7E. -/
def pwdOk (p : BitVec 128) : Bool :=
  (List.range 16).all (fun i => decide (0x20 ≤ bitsOf p.toNat (8 * i + 7) (8 * i) ∧ bitsOf p.toNat (8 * i + 7) (8 * i) ≤ 0x7E))

/-- SEAL_OPEN: OPEN in SAF_PWD_CMD under the T40 method, in BOOT or READY; a wrong password counts, and the fifth in a row refuses
further attempts for 60 s. -/
def State.sealOpen (s : State) : State :=
  if !s.t40 || s.saf.lockout || !(s.sys.dev == .boot || s.sys.dev == .ready) then s
  else if s.saf.pwd == some s.pwdWords then s.openSeal.refreshSaf
  else
    let n := s.saf.pwdFails + 1
    { (s.inc Reg.SAF_PWD_FAIL_CNT) with saf := { s.saf with pwdFails := n, lockout := decide (5 ≤ n) } }

def execSealOpen (ag : Agent) (s : State) : Out := .next (s.swWrite ag Page.SAF State.sealOpen)

/-- SEAL_CLOSE: CLOSE in SAF_PWD_CMD. -/
def execSealClose (ag : Agent) (s : State) : Out := .next (s.swWrite ag Page.SAF (fun t => t.closeSeal.refreshSaf))

/-- SEAL_TIMEOUT: 600 s without an accepted write under the T40 method. -/
def execSealTimeout (s : State) : Out := .next (if s.clocked then s.closeSeal.refreshSaf else s)

/-- PASSWORD_LOCKOUT_END: the 60 s of refusal end. -/
def State.lockoutEnd (s : State) : State := { s with saf := { s.saf with lockout := false, pwdFails := 0 } }

def execPasswordLockoutEnd (s : State) : Out := .next (if s.clocked then s.lockoutEnd else s)

/-- A logged operation is refused with RESULT 0x7, rule R234. -/
def State.logRefused (s : State) : State := s.setFld Reg.SAF_STORE_STAT 3 0 7

/-- PASSWORD_SET: SET in SAF_PWD_CMD with the seal open replaces the password. -/
def State.passwordSet (s : State) : State :=
  if !s.bit Reg.SAF_STAT 7 || !pwdOk s.pwdWords then s
  else if s.logFull then s.logRefused
  else
    let n := s.fld Reg.SAF_SEAL_CFG 7 4
    ({ s with saf := { s.saf with pwd := some s.pwdWords } }).logOp n 3 0 (s.setStamp n) (s.setStamp n)

def execPasswordSet (ag : Agent) (s : State) : Out := .next (s.swWrite ag Page.SAF State.passwordSet)

/-- METHOD_CHANGE_REQ: REQ names the method from the next entry to SELFTEST on; accepted in READY with the seal open, and for the
T40 method only once a password has been set. -/
def State.methodReq (s : State) (v : Word) : State :=
  let m := b2n (v.getLsbD 1)
  if s.sys.dev != .ready || !s.bit Reg.SAF_STAT 7 || (m == 1 && s.saf.pwd.isNone) then s
  else if s.logFull then s.logRefused
  else
    let n := s.fld Reg.SAF_SEAL_CFG 7 4
    let next := if m = b2n s.t40 then none else some m
    (({ s with saf := { s.saf with methodNext := next } }).setBit Reg.SAF_SEAL_CFG 1 (v.getLsbD 1)).logOp n 4 0 (s.setStamp n)
      (s.setStamp n)

def execMethodChangeReq (ag : Agent) (v : Word) (s : State) : Out := .next (s.swWrite ag Page.SAF (fun t => t.methodReq v))

/-- The sample of SEAL_SW in every tick, rule R228: SEAL_OPEN, and, once SELFTEST has sampled it, SEAL_CHG with an alarm where SET or
CODE changes. Under the T40 method SEAL_SW is ignored and SEAL_OPEN shows that method's seal, rule R232. -/
def State.sealTick (s : State) : State :=
  let sw := s.fld Reg.FIO_SEAL 7 0
  let s1 := { s with saf := { s.saf with sealAt := s.saf.sealAt.map (fun _ => sw) } }
  if s.t40 then s1.setBit Reg.SAF_STAT 7 s.saf.t40Open
  else if !s.field.vcc then s1
  else
    let changed := match s.saf.sealAt with
      | none => false
      | some old => bitsOf sw 3 0 != bitsOf old 3 0 || bitsOf sw 7 5 != bitsOf old 7 5
    let s2 := if changed then (s1.setBit Reg.SAF_STAT 8 true).alarm Page.SAF 6 0 else s1
    let opened := sw.testBit 4 && bitsOf sw 7 5 == s.setCode (bitsOf sw 3 0)
    let s3 := s2.setBit Reg.SAF_STAT 7 opened
    if opened && !s.bit Reg.SAF_STAT 7 then s3.event Page.SAF 6 0 else s3

/-! ### Storing a set, rule R229 -/

/-- A store (OP 0) or load (OP 1) ends with RESULT. -/
def State.storeEnd (s : State) (op result : Nat) : State :=
  let s1 := ({ s with saf := { s.saf with storing := none } }).wrN Reg.SAF_STORE_STAT (result + 512 * op)
  (s1.event Page.SAF 7 0).refreshSaf

/-- SAF_STORE with GO; ignored while a store or a load runs. -/
def State.safStore (s : State) (v : Word) : State :=
  let n := bitsOf v.toNat 3 0
  if !v.getLsbD 31 || s.bit Reg.SAF_STORE_STAT 8 then s
  else if s.sys.dev != .ready then s.storeEnd 0 6
  else if !s.bit Reg.SAF_STAT 7 then s.storeEnd 0 1
  else if !s.t40 && n != s.fld Reg.FIO_SEAL 3 0 then s.storeEnd 0 2
  else if s.logFull then s.storeEnd 0 7
  else
    let code := if s.t40 then s.setCode n else bitsOf v.toNat 6 4
    let x : SafStoring := ⟨n, code, s.fld Reg.FIO_SEAL 7 0⟩
    (({ s with saf := { s.saf with storing := some x } }).wrN Reg.SAF_STORE_STAT 256).refreshSaf

def execSafStore (ag : Agent) (v : Word) (s : State) : Out := .next (s.swWrite ag Page.SAF (fun t => t.safStore v))

/-- The older slot of a set: the one that is not the set. -/
def State.olderSlot (s : State) (n : Nat) : Nat :=
  match s.safSlot n 0, s.safSet n with
  | some a, some x => if a == x then 1 else 0
  | _, _ => 0

/-- Write slot k of set n. -/
def State.putSlot (s : State) (n k : Nat) (x : SafSlot) : State :=
  { s with saf := { s.saf with slots := Tab.insert (2 * n + k) x (Tab.erase (2 * n + k) s.saf.slots) } }

/-- The result of a store: the image's checks, the flash, and SEAL_SW again under the native method. -/
def State.storeResult (s : State) (x : SafStoring) (img : SafetyImage) (crcA crcB flashOk : Bool) : Nat :=
  if !crcA || !s.imageOk img then 3
  else if !crcB then 4
  else if !flashOk then 5
  else if !s.t40 && s.fld Reg.FIO_SEAL 7 0 != x.sw then 8
  else 0

/-- SAF_STORE_DONE: the store ends. From the writing on, the older slot holds no committed set until its header is written. -/
def State.storeDone (s : State) (img : SafetyImage) (crcA crcB flashOk : Bool) : State :=
  match s.saf.storing with
  | none => s
  | some x =>
    let r := s.storeResult x img crcA crcB flashOk
    let old := s.setStamp x.num
    let slot : SafSlot := { img := img, code := x.code, version := old.1.toNat + 1, time := s.now, ok := r == 0 }
    let s1 := if r = 3 ∨ r = 4 then s else s.putSlot x.num (s.olderSlot x.num) slot
    let s2 := if r = 0 then s1.inc Reg.SAF_STORE_CNT else s1
    let s3 := if r = 0 ∧ s.t40 = true then s2.setFld Reg.SAF_SEAL_CFG 7 4 x.num else s2
    (s3.logOp x.num 1 r old (s3.setStamp x.num)).storeEnd 0 r

def execSafStoreDone (img : SafetyImage) (crcA crcB flashOk : Bool) (s : State) : Out :=
  .next (if s.clocked then s.storeDone img crcA crcB flashOk else s)

/-! ### Loading a set, rule R230 -/

/-- SAF_LOAD: the selected set is checked and applied at the next tick boundary. Which RESULT a set of another code, or none, gives is
not stated: it is some value but 0x0, free (notes/assumptions/4.md). -/
def State.safLoad (s : State) (v : Word) : State :=
  if !v.getLsbD 0 || s.bit Reg.SAF_STORE_STAT 8 then s
  else if s.sys.dev != .ready then s.storeEnd 1 6
  else if s.logFull then s.storeEnd 1 7
  else
    let nP := s.selected
    let n := nP.1
    let code := nP.2
    match s.validSet with
    | some (m, x) =>
      (({ s with saf := { s.saf with loading := some (m, x.img) } }).wrN Reg.SAF_STORE_STAT 768).refreshSaf
    | none =>
      if code && (s.safSet n).isSome then s.storeEnd 1 3
      else
        let kP := s.takeFree
        let k := kP.1
        let s1 := kP.2
        s1.storeEnd 1 (1 + (Config.freeWord k).toNat % 15)

def execSafLoad (ag : Agent) (v : Word) (s : State) : Out := .next (s.swWrite ag Page.SAF (fun t => t.safLoad v))

/-- An accepted load at the tick boundary. -/
def State.loadTick (s : State) : State :=
  match s.saf.loading with
  | none => s
  | some (n, img) =>
    let old := s.setStamp (s.fld Reg.SAF_STAT 19 16)
    let s1 := (({ s with saf := { s.saf with loading := none } }).applySet n img).refreshCfg
    (s1.logOp n 2 0 old (s.setStamp n)).storeEnd 1 0

end Sys2Proof.Machine
end

