-- ==== Sys2Proof/Machine/Twin.lean ====
section
/-! DEFINITION. Active and standby twins, rules R350 to R367 and R397 (spec/15_twin.md and spec/17_events_logs.md). The peer, its
lines and the twin lane lie outside the part: what they bring comes as commands. -/

namespace Sys2Proof.Machine

/-- Replace what the twin unit keeps. -/
def State.setTwin (s : State) (x : Twin) : State := { s with twin := x }

/-- ILK_PEER_n is asserted. -/
def State.peerHolds (s : State) : Bool := s.bit Reg.TWN_STAT 3

/-- The unit holds the interlock: ILK_OWN_n is driven and step 4 of rule R353 has passed. -/
def State.holdsLock (s : State) : Bool := s.bit Reg.TWN_STAT 2 && s.twin.taking.isNone

/-! ### Interlock, rules R353 to R355 -/

/-- A standby that has recognised the failure and is eligible takes the interlock; at start-up a SOLO unit in READY. -/
def State.wantsSwitch (s : State) : Bool := s.role == 2 && s.twin.recog && s.twin.health.getLsbD 31
def State.wantsStart (s : State) : Bool := s.role == 0 && s.sys.dev == .ready

/-- Steps 1 and 2: with the line read as released, ILK_OWN_n is driven low. -/
def State.takeLock (s : State) (switchover : Bool) : State :=
  if s.twinEn && s.clocked && !s.bit Reg.TWN_STAT 2 && !s.peerHolds && s.twin.retry.isNone then
    (s.setBit Reg.TWN_STAT 2 true).setTwin { s.twin with taking := some switchover }
  else s

/-- INTERLOCK_TAKE: a standby at a switchover, or a unit with PREF = 1 at start-up. -/
def State.interlockTake (s : State) : State :=
  if s.wantsSwitch then s.takeLock true
  else if s.wantsStart && s.bit Reg.TWN_CTRL 2 then s.takeLock false
  else s

def execInterlockTake (s : State) : Out := .next s.interlockTake

/-- Steps 3 and 4: 2 µs later the unit holds the interlock, and is ACTIVE from the next boundary, or it releases the line. -/
def State.interlockCheck (s : State) : State :=
  match s.twin.taking with
  | none => s
  | some sw =>
    if s.peerHolds then
      ((s.setBit Reg.TWN_STAT 2 false).inc Reg.TWN_CONFLICT_CNT).setTwin { s.twin with taking := none, retry := some sw }
    else s.setTwin { s.twin with taking := none, next := some 1 }

def execInterlockCheck (s : State) : Out := .next s.interlockCheck

/-- INTERLOCK_RETRY: 10 µs as unit A, 30 µs as unit B after its retreat the unit may try again. -/
def State.interlockRetry (s : State) : State :=
  match s.twin.retry with
  | none => s
  | some _ => (s.setTwin { s.twin with retry := none }).interlockTake

def execInterlockRetry (s : State) : Out := .next s.interlockRetry

/-- START_WAIT_EXPIRY: the interlock has stayed released for START_WAIT. -/
def execStartWaitExpiry (s : State) : Out := .next (if s.wantsStart && !s.bit Reg.TWN_CTRL 2 then s.takeLock false else s)

/-- LEASE_EXPIRY: no refresh within the lease; AON releases ILK_OWN_n. -/
def execLeaseExpiry (s : State) : Out := .next s.leaseEnd

/-! ### Sync, rules R359 and R360 -/

/-- A sync fails; a unit that was being brought into shadow returns to SOLO. -/
def State.syncFail (s : State) : State :=
  let s1 := (s.setBit Reg.TWN_STAT 10 true).event Page.TWN 6 0
  s1.setTwin { s1.twin with syncing := false, next := if s.role = 3 then some 0 else s1.twin.next }

/-- The entries of the state-region list up to its end. -/
def State.regionList (s : State) : List (Nat × Nat) :=
  ((List.range 64).map (fun i => (s.cell32 (s.rdN Reg.TWN_ST_LIST + 8 * i), s.cell32 (s.rdN Reg.TWN_ST_LIST + 8 * i + 4)))).takeWhile
    (fun e => e.2 != 0)

/-- The invalid blocks of a frame of the twin lane count, rule R350. -/
def State.laneErrors (s : State) (n : Nat) : State :=
  if s.clocked && s.twinEn && n != 0 then s.add Reg.TWN_CRC_CNT n else s

/-- Each region ends before the next begins: ascending and without overlap. -/
def rising : List (Nat × Nat) → Bool
  | (a, n) :: (b, m) :: t => decide (a + n ≤ b) && rising ((b, m) :: t)
  | _ => true

/-- The list meets rule R360. -/
def State.regionListOk (s : State) : Bool :=
  s.regionList.all (fun e => e.1 % 64 == 0 && e.2 % 64 == 0 && inCell e.1 e.2) && rising s.regionList

/-- Step 1 of a sync at the active unit. -/
def State.startSync (s : State) : State :=
  if s.regionListOk then s.setTwin { s.twin with syncing := true } else (s.setBit Reg.TWN_STAT 13 true).syncFail

/-- SYNC in TWN_CMD, on the active unit. -/
def State.syncCmd (s : State) : State := if s.twinEn && s.role == 1 && !s.twin.syncing then s.startSync else s

def execSyncOp (ag : Agent) (s : State) : Out := .next (s.swWrite ag Page.TWN State.syncCmd)

/-- AUTO_SYNC_START: the peer reports SOLO in READY or a later state, the lane is up and AUTO_SYNC = 1. -/
def State.autoSync (s : State) : State :=
  if s.clocked && s.bit Reg.TWN_CTRL 7 && s.bit Reg.TWN_STAT 4 && !s.bit Reg.TWN_PEER_HEALTH 0 &&
      decide (4 ≤ s.fld Reg.TWN_PEER_HEALTH 15 12) then s.syncCmd
  else s

def execAutoSyncStart (s : State) : Out := .next s.autoSync

/-- The image of step 1: cell memory, the SAFEA registers and the Dealer's context words (an address below 0x2000 is 16 × task + word;
notes/assumptions/29.md), the solver's kept z and y, and what the units keep between ticks, so that the next tick is computed from the
active unit's state (rules R9 and R359). -/
def State.loadSync (s : State) (i : SyncImage) : State :=
  let s1 := forEach (fun (e : Nat × BitVec 8) t => t.setCell e.1 1 e.2.toNat) i.cell s
  let s2 := forEach (fun (e : Nat × Word) t =>
    if e.1 < 0x2000 then t.setCtxW (e.1 / 16) (e.1 % 16) e.2 else if (regRow e.1).isSome then t.wr e.1 e.2 else t) i.regs s1
  { s2 with
    prof := i.prof
    loop := i.loop
    ssm := i.ssm
    free := i.free
    sol := { s2.sol with keep := some (i.z, i.y), cold := i.cold, noPrev := i.noPrev }
    fbk := { s2.fbk with lax := Tab.setAll (fun _ => LaxRt.reset) [] i.lax }
    ring := (forEach (fun (e : Nat × Bool × Bool) t => t.setRp e.1 { t.rp e.1 with soft := e.2.1, softNext := e.2.2 }) i.soft s2).ring
    saf := { s2.saf with
      ins := i.ins
      groups := i.groups
      ovr := i.ovr
      cnt := i.cnt
      seenAt := i.seenAt
      degTime := i.degTime } }

/-- SYNC_CAUGHT_UP: with a matching digest the unit enters STANDBY at the next boundary; the active unit ends the sync. -/
def State.syncCaughtUp (s : State) (digestOk : Bool) : State :=
  if !(s.clocked && s.twinEn && digestOk) then s
  else if s.role = 3 then
    ((s.inc Reg.TWN_SYNC_CNT).event Page.TWN 5 0).setTwin { s.twin with syncing := false, next := some 2 }
  else if s.role = 1 ∧ s.twin.syncing then ((s.inc Reg.TWN_SYNC_CNT).event Page.TWN 5 0).setTwin { s.twin with syncing := false }
  else s

def execSyncCaughtUp (digestOk : Bool) (s : State) : Out := .next (s.syncCaughtUp digestOk)

/-- SYNC_TIMEOUT: the sync is not complete within SYNC_TMO, or TWN_BUF overflows. -/
def execSyncTimeout (s : State) : Out := .next (if s.clocked && (s.role == 3 || s.twin.syncing) then s.syncFail else s)

/-! ### The mirror, rules R356 and R357 -/

/-- The device state of a code. -/
def devOf (c : Nat) : Option DevState :=
  [DevState.off, .reset, .boot, .selftest, .ready, .run, .degraded, .safestop, .frozen].find? (fun d => d.code == c)

/-- The command cut but for the mailboxes: compares, loop requests, safety requests and software's outputs, rules R16, R134, R149,
R210 and R317. -/
def State.cutRequests (s : State) : State :=
  let s1 := forUpTo (fun a st => forUpTo (fun c t => t.cutCompare a c) 4 st) 144 s
  ((forUpTo (fun a st => st.cutLoop a) 144 s1).cutSafety).cutOutputs

/-- One value of a cut record. -/
def State.cutWord (s : State) (a : Nat) (v : Word) : State :=
  if a = Reg.SAF_REL then s.safRel v.toNat
  else if a = Reg.SAF_ACK then { s with saf := { s.saf with ackPend := s.saf.ackPend ||| v.toNat } }
  else
    match pageKind (pageOf a) with
    | some (.prf, _, n) =>
      if 0x840 ≤ pageOff a ∧ pageOff a < 0x850 ∧ v.getLsbD 1 = true then s.cmpDisarm n ((pageOff a - 0x840) / 4) v
      else if 0x840 ≤ pageOff a ∧ pageOff a < 0x850 ∧ v.getLsbD 0 = true then s.cmpArm n ((pageOff a - 0x840) / 4) v
      else if (regRow a).isSome then s.wr a v else s
    | _ => if (regRow a).isSome then s.wr a v else s

/-- A mirrored mailbox snapshot takes the place of the unit's own. -/
def State.mirrorCmd (s : State) (m : MirrorCmd) : State :=
  s.setGroupRt m.group.val { s.groupRt m.group.val with
    snap := some ⟨m.seq.toNat, m.cmd.toNat, m.mask.toNat, m.valid.toNat, m.fields⟩ }

/-- The SAFE_IN of a node has come with the mirror: all 32 bytes of its place in the gather buffer. -/
def mirrorSafe (m : MirrorFrame) (key : Nat) : Bool :=
  (List.range 32).all (fun i => m.gather.any (fun e => e.1 == 0x82400 + 32 * key + i))

/-- Channel A of a shadow judges the SAFE_IN payloads of the mirror as the active unit's judges its own, rules R263 and R356
(DEDUCED, notes/assumptions/154.md). -/
def State.mirrorSafeIn (s : State) (m : MirrorFrame) : State :=
  forEach (fun key t =>
    if t.nodeSafe (key / 64) (key % 64) && mirrorSafe m key then
      t.takeSafeIn (key / 64) (key % 64) (BitVec.ofNat 256 (t.cellN (t.safeArea (key / 64) (key % 64)) 32))
    else t) (List.range 256) s

/-- The inputs of the tick that a mirror brings. -/
def State.takeMirror (s : State) (m : MirrorFrame) : State :=
  let s0 := forEach (fun (e : Nat × BitVec 8) t => if e.1 < 0x84480 then t.setCell (t.gath t.parity + e.1) 1 e.2.toNat else t) m.gather s
  let s1 := s0.mirrorSafeIn m
  let masters := m.masters.map (fun x => (x.1.val, (⟨x.2.1, x.2.2.1, x.2.2.2, 0⟩ : MasterSample)))
  let s2 := { s1 with prof := { s1.prof with master := masters } }
  let s3 := forEach (fun (c : MirrorCmd) t => t.mirrorCmd c) m.cmds s2
  let s4 := (forEach (fun (e : Nat × Word) t => t.cutWord e.1 e.2) m.cut s3).when (m.complete && !s.twin.mirrored) State.cutRequests
  match m.state.bind (fun c => devOf c.toNat) with
  | none => s4
  | some d => s4.setTwin { s4.twin with lead := some d }

/-- MIRROR_FRAME: a SOLO unit that receives the image of a sync becomes SYNCING at the next boundary; a unit in shadow takes the
mirror of its present tick. A mirror not complete by the G deadline is a gap, judged there. -/
def State.mirrorFrame (s : State) (m : MirrorFrame) (image : Option SyncImage) : State :=
  if !(s.clocked && s.twinEn) then s
  else
    let s1 := match image with
      | none => s
      | some i =>
        if s.role = 0 then (s.loadSync i).setTwin { (s.loadSync i).twin with syncing := true, next := some 3, lead := devOf i.state.toNat }
        else if s.role = 3 then (s.loadSync i).setTwin { (s.loadSync i).twin with lead := devOf i.state.toNat }
        else s
    if 2 ≤ s1.role ∧ m.tick = s1.tick then (s1.takeMirror m).setTwin { (s1.takeMirror m).twin with mirrored := m.complete }
    else s1

def execMirrorFrame (m : MirrorFrame) (image : Option SyncImage) (s : State) : Out :=
  .next ((s.laneErrors m.bad).mirrorFrame m image)

/-- The shifted G deadline of a standby without the whole mirror of the tick. -/
def State.mirrorGap (s : State) : State :=
  if s.standby && !s.twin.mirrored then (s.inc Reg.TWN_MIRROR_GAP_CNT).setTwin { s.twin with mirrorOk := false } else s

/-! ### Recognition, rules R358 and R363 -/

/-- The failure of the active unit, or its resignation, is recognised; a running sync then fails, rule R366. -/
def State.recognise (s : State) : State :=
  if s.role = 3 then s.syncFail
  else if s.role = 2 then
    (s.setBit Reg.TWN_STAT 7 s.peerHolds).setTwin { s.twin with recog := true }
  else s

/-- The digests of one tick are compared in STANDBY. -/
def State.compareDigests (s : State) : State :=
  match s.twin.own, s.twin.peer with
  | some (k, a), some (j, b) =>
    if s.role = 2 ∧ k = j ∧ a ≠ b then
      (((s.setBit Reg.TWN_STAT 8 true).inc Reg.TWN_DIV_CNT).event Page.TWN 2 0).setTwin { s.twin with digestOk := false, peer := none }
    else if k = j then s.setTwin { s.twin with peer := none }
    else s
  | _, _ => s

/-- CRC-32C over the outputs of the tick in cell memory, rule R358. -/
def State.digest (s : State) : Word :=
  crc32c (s.cell.bytes (s.solution s.parity) 0x2A00 ++ s.cell.bytes (s.lim s.parity) 0x710 ++ s.cell.bytes (s.chkSet s.parity) 0x3400)

/-- The unit forms its own digest at the end of C. -/
def State.formDigest (s : State) : State :=
  if s.twinEn then (s.setTwin { s.twin with own := some (s.tick, s.digest) }).compareDigests else s

/-- TWIN_HEARTBEAT: a frame on the twin lane, which is then UP, to a unit in shadow. -/
def State.twinBeat (s : State) (b : TwinBeat) : State :=
  if s.clocked && s.twinEn && decide (2 ≤ s.role) then
    let s1 := (s.setBit Reg.TWN_STAT 4 true).wrI Reg.TWN_TOFS b.offset
    let s2 := s1.setTwin { s1.twin with
      linkSeen := s1.twin.linkSeen || b.tick == s1.tick
      hbLast := some s1.mono
      same := b.same
      digestOk := s1.twin.digestOk && !b.lapse
      peer := some (b.tick, b.digest) }
    s2.compareDigests.when b.resign State.recognise
  else if s.clocked && s.twinEn then (s.setBit Reg.TWN_STAT 4 true).setTwin { s.twin with same := b.same }
  else s

def execTwinHeartbeat (b : TwinBeat) (s : State) : Out := .next ((s.laneErrors b.bad).twinBeat b)

/-- TWIN_HB_I_TOGGLE. -/
def execTwinHbIToggle (s : State) : Out :=
  .next (if s.clocked && s.twinEn then s.setTwin { s.twin with pinSeen := true, hbLast := some s.mono } else s)

/-- Both paths have been missing in HB_N consecutive checks. -/
def State.pathsLost (s : State) : Bool := decide (s.fld Reg.TWN_CTRL 11 8 ≤ s.twin.missRun)

/-- What DETECT asks for holds now. -/
def State.detected (s : State) : Bool :=
  match s.fld Reg.TWN_CTRL 4 3 with
  | 1 => !s.peerHolds
  | 2 => s.pathsLost
  | 3 => s.pathsLost && !s.peerHolds
  | _ => false

/-- HEARTBEAT_CHECK, at the active unit's E launch + 10 µs. -/
def State.heartbeatCheck (s : State) : State :=
  if s.clocked && s.twinEn && decide (2 ≤ s.role) then
    let pin := s.twin.pinSeen
    let link := s.twin.linkSeen
    let s1 := (s.setBit Reg.TWN_STAT 5 pin).setBit Reg.TWN_STAT 6 link
    let s2 := if pin then s1 else (s1.inc Reg.TWN_HB_MISS_PIN_CNT).event Page.TWN 3 0
    let s3 := if link then s2 else (s2.inc Reg.TWN_HB_MISS_LINK_CNT).event Page.TWN 3 0
    let s4 := s3.setTwin { s3.twin with pinSeen := false, linkSeen := false, missRun := if pin || link then 0 else s3.twin.missRun + 1 }
    s4.when (s4.fld Reg.TWN_CTRL 4 3 != 1 && s4.detected) State.recognise
  else s

def execHeartbeatCheck (s : State) : Out := .next s.heartbeatCheck

/-- ILK_PEER_CHANGE: a holder that reads the line asserted keeps the interlock and reports; a release is what a standby waits
for, or recognises by. -/
def State.ilkPeerChange (s : State) (low : Bool) : State :=
  let s1 := s.setBit Reg.TWN_STAT 3 low
  if !(s.clocked && s.twinEn) then s1
  else if low then
    if s1.holdsLock then ((s1.setBit Reg.TWN_STAT 9 true).inc Reg.TWN_CONFLICT_CNT).alarm Page.TWN 4 0 else s1
  else
    let s2 := s1.setBit Reg.TWN_STAT 7 false
    s2.when (s2.bit Reg.TWN_CTRL 3 && s2.detected) State.recognise

def execIlkPeerChange (low : Bool) (s : State) : Out := .next (s.ilkPeerChange low)

/-! ### Health and resignation, rules R361 and R364 -/

/-- Every required port is in FOREIGN with its lanes up. -/
def State.twinPortsOk (s : State) : Bool :=
  (List.range 4).all (fun p => !s.bit (Reg.RNG_CTRL p) 5 ||
    (s.pstate p == psForeign && s.laneUp p .a && (s.portRed p == 0 || s.laneUp p .b)))

/-- Bits 0 to 8 of the unit's health word. -/
def State.healthBits (s : State) : Nat :=
  b2n (s.role == 2) + 2 * b2n s.twin.digestOk + 4 * b2n s.twin.mirrorOk + 8 * b2n (s.fld Reg.FLT_STAT 1 0 == 1 && s.saf.flint.tested != some false) +
    16 * b2n s.saf.slate.clean + 32 * b2n s.twinPortsOk +
    64 * b2n (s.field.lpUv == 0 && s.field.lpOv == 0 && s.fld Reg.FIO_DQ_EXTF 15 0 == 0) +
    128 * b2n (decide (mag (s.rdI Reg.TWN_TOFS) ≤ 1000)) + 256 * b2n s.twin.same

/-- The health word that a unit in shadow, or SOLO, sends in a tick: ELIGIBLE once bits 0 to 8 have been 1 for 100 ms with no
degrade-class fault latched. -/
def State.healthTick (s : State) : State :=
  if s.twinEn && s.role != 1 then
    let h := s.healthBits
    let since := if h = 0x1FF then some (s.twin.okSince.getD s.mono) else none
    let ok := match since with
      | none => false
      | some t => decide (t + 100000000 ≤ s.mono) && s.fld Reg.SAF_DEG 20 16 == 0
    s.setTwin { s.twin with okSince := since, health := w32 (h + 4096 * s.sys.dev.code + 2147483648 * b2n ok) }
  else s

/-- HEALTH_WORD: the active unit shows it; loss of ELIGIBLE raises an alarm. -/
def State.healthWord (s : State) (w : Word) : State :=
  if s.clocked && s.twinEn && s.role == 1 then
    let s1 := s.wr Reg.TWN_PEER_HEALTH w
    s1.when (s.bit Reg.TWN_PEER_HEALTH 31 && !w.getLsbD 31) (fun t => t.alarm Page.TWN 1 0)
  else s

def execHealthWord (w : Word) (s : State) : Out := .next (s.healthWord w)

/-- A resignation is due: it goes out with the heartbeat of this tick's E launch. -/
def State.resigns (s : State) : State :=
  if s.clocked && s.twinEn && s.role == 1 && s.holdsLock && s.bit Reg.TWN_PEER_HEALTH 31 && !s.bit Reg.TWN_STAT 12 then
    s.setTwin { s.twin with resign := true }
  else s

/-- RESIGN: by software, or by a cause that TWN_CTRL enables. -/
def State.resignBy (s : State) (c : ResignCause) : State :=
  match c with
  | .software ag => s.swWrite ag Page.TWN State.resigns
  | .degrade => if s.bit Reg.TWN_CTRL 5 then s.resigns else s
  | .port => if s.bit Reg.TWN_CTRL 6 then s.resigns else s

def execResign (cause : ResignCause) (s : State) : Out := .next (s.resignBy cause)

/-- A degrade-class fault is latched, or a required port has no lane UP: the cause of a resignation while it stands. -/
def State.resignCauses (s : State) : State :=
  (s.when (s.fld Reg.SAF_DEG 20 16 != 0) (fun t => t.resignBy .degrade)).when
    ((List.range 4).any (fun p => s.bit (Reg.RNG_CTRL p) 5 && !s.laneUp p .a && !s.laneUp p .b)) (fun t => t.resignBy .port)

/-- The E launch of the interlock's holder, rule R354: TWIN_HB_O toggles, the heartbeat goes out and the lease is refreshed; a
resignation goes out with it. -/
def State.holderBeat (s : State) : State :=
  if s.twinEn && s.holdsLock && !s.bit Reg.TWN_STAT 12 then
    let r := s.twin.resign
    let s1 := s.setTwin { s.twin with
      hbOut := !s.twin.hbOut
      hbSent := some (s.tick, r, s.bit Reg.SYS_STAT 5, (s.twin.own.map (fun x => x.2)).getD 0)
      resign := false }
    s1.when r (fun t => (t.setBit Reg.TWN_STAT 12 true).inc Reg.TWN_RESIGN_CNT)
  else s

/-- STANDBY_FLINT_TEST: every FLT_S seconds, while the standby's outputs are off, a test trip and a fresh arming. -/
def execStandbyFlintTest (opened : Bool) (seed : BitVec 16) (s : State) : Out :=
  .next (if s.clocked && s.standby then (s.testTrip opened).flintArm seed.toNat else s)

/-! ### Switchover, rules R365 and R366 -/

/-- PARALLEL_HOLD_END: the hold on paralleled outputs ends. -/
def State.parEnd (s : State) : State :=
  if s.field.parUntil.isSome then ({ s with field := { s.field with parUntil := none } }).refreshDq else s

def execParallelHoldEnd (s : State) : Out := .next s.parEnd

/-- At a boundary: the hold ends at the first one at or after its instant, and each tick held counts. -/
def State.parTick (s : State) : State :=
  match s.field.parUntil with
  | none => s
  | some t => if t ≤ s.mono then s.parEnd else s.inc Reg.TWN_PAR_HOLD_CNT

/-- A port takes its ring over: CYCLIC with rank 0, without claim round or discovery. -/
def State.portTake (s : State) (p : Nat) : State :=
  if s.pstate p == psForeign then
    ((s.setRp p { s.rp p with served := true }).setPstate p psCyclic).setFld (Reg.RNG_STAT p) 17 16 0
  else s

/-- A standby becomes ACTIVE. -/
def State.switchover (s : State) : State :=
  let wait := 1515 * s.tTick / 1000 + 65000 + (if s.bit Reg.TWN_STAT 5 then 0 else s.tTick)
  let s1 := (((s.wr64 Reg.TWN_SW_TICK s.tick).inc Reg.TWN_SWITCH_CNT).setBit Reg.TWN_STAT 7 false).event Page.TWN 0 0
  let s2 := forUpTo (fun p t => t.portTake p) 4 s1
  { s2 with field := { s2.field with parUntil := some (s2.twin.hbLast.getD s2.mono + wait) } }

/-- A change of role at a boundary. -/
def State.roleChange (s : State) (r : Nat) : State :=
  let old := s.role
  let s0 := if old = 1 ∧ s.twin.syncing then s.syncFail else s
  let s1 := ((s0.setFld Reg.TWN_STAT 1 0 r).setBit Reg.TWN_STAT 12 false).setTwin { s0.twin with
    next := none, recog := false, missRun := 0, resign := false
    digestOk := r == 2 || (s0.twin.digestOk && r == 3), mirrorOk := r == 2 || (s0.twin.mirrorOk && r == 3) }
  if r = 1 ∧ old = 2 then s1.switchover else s1

/-- From READY on a unit in shadow changes its device state as the active unit does, at the same boundary, and of itself not at all,
rule R357. -/
def State.followLead (s : State) : State :=
  if s.shadow && s.sys.dev != .boot && s.sys.dev != .selftest then
    let l := (s.twin.lead.filter (fun d => transition s.sys.dev d)).toList
    { s with sys := { s.sys with triggers := l }, twin := { s.twin with lead := none } }
  else s

/-- The twin unit at a tick boundary: roles change only there. -/
def State.twinTick (s : State) : State :=
  let s1 := match s.twin.next with
    | none => s
    | some r => if r = s.role then s.setTwin { s.twin with next := none } else s.roleChange r
  ((s1.setTwin { s1.twin with mirrored := false, quiet := s1.bit Reg.TWN_STAT 12 }).resignCauses).healthTick.parTick

/-- TWN_CTRL.EN becomes 0: AON releases the line at once and the unit is no twin. -/
def State.twinOff (s : State) : State :=
  let s1 := s.leaseEnd
  s1.setTwin { s1.twin with next := some 0, retry := none, syncing := false, recog := false }

/-! ### The peer store, rule R397 -/

/-- TWIN_ALARM_MIRROR: the changed entry is written at its index of the peer store with PEER set. -/
def State.peerEntry (s : State) (i : Nat) (ws : List Word) : State :=
  if s.clocked && s.twinEn && (s.eff Reg.EVT_CTRL).getLsbD 1 then
    let base := (s.eff Reg.EVT_PEER_BASE).toNat + 64 * i
    forUpTo (fun w t => t.setCell (base + 4 * w) 4 ((ws.getD w 0 ||| (if w = 1 then 0x200000 else 0)).toNat)) 16 s
  else s

def execTwinAlarmMirror (entry : Fin 1024) (ws : List Word) (s : State) : Out := .next (s.peerEntry entry.val ws)

end Sys2Proof.Machine
end

