-- ==== Sys2Proof/Machine/Access.lean ====
section
/-! DEFINITION. Writes and reads of registers by address: the judgement of rule R466 over every page's configuration region, and the
runtime controls of each page, rules R430 to R441 and R466 (spec/19_registers.md). -/

namespace Sys2Proof.Machine

/-! ### The configuration region -/

/-- The rules of a page's chapter on state and seal for a write at bus address `a`: BOOT, SELFTEST and READY, with the seal open
for the safety pages (rule R228); QTZ_TICK only in BOOT (rule R38), the watchdogs of rule R54 and the ENG pages (rule R464) in
every state; the event ring only while it is empty (rule R399). -/
def State.cfgState (s : State) (a : Nat) : Bool :=
  match pageKind (pageOf a) with
  | some (.eng, _, _) => true
  | some (.ssm, _, _) => s.configurable && s.bit Reg.SAF_STAT 7
  | some (.saf, _, _) => s.configurable && s.bit Reg.SAF_STAT 7
  | some (.flt, _, _) => s.configurable && s.bit Reg.SAF_STAT 7
  | some (.qtz, _, _) =>
    if a = Reg.QTZ_TICK then s.sys.dev == .boot
    else if a = Reg.QTZ_SYNC_TMO ∨ 0x200 ≤ pageOff a then true
    else s.configurable
  | _ => s.configurable

/-- A page's own refusal bit and its line, where its chapter names one. -/
def State.cfgRefused (s : State) (p : Nat) : State :=
  match pageKind p with
  | some (.qtz, _, _) => s.qtzRefused
  | some (.dlr, _, _) => (s.setBit Reg.DLR_STAT 2 true).event p 5 0
  | some (.prf, _, a) => s.setBit (Reg.PRF_STAT a) 9 true
  | some (.prfg, _, g) => s.setBit (Reg.PRFG_STAT g) 3 true
  | some (.loop, _, a) => (s.setBit (Reg.LOOP_STAT a) 17 true).event p 6 0
  | some (.sol, _, _) => (s.setBit Reg.SOL_STAT 7 true).event p 4 0
  | some (.ssm, _, _) => (s.setBit Reg.SSM_STAT 2 true).event p 3 0
  | some (.saf, _, _) => (s.setBit Reg.SAF_STAT 5 true).event p 4 0
  | some (.rng, _, n) => s.ringRefused n
  | some (.fio, _, _) => (s.setBit Reg.FIO_LP_STAT 5 true).event p 7 0
  | some (.eth, _, n) => (s.setBit (Reg.ETH_STAT n) 6 true).event p 5 0
  | some (.pci, _, _) => (s.setBit Reg.PCI_STAT 8 true).event p 2 0
  | some (.twn, _, _) => (s.setBit Reg.TWN_STAT 11 true).event p 7 0
  | some (.mem, _, _) => (s.setBit Reg.MEM_STAT 8 true).event p 5 0
  | some (.evt, _, _) => (s.setBit Reg.EVT_STAT 6 true).raiseLine p 6
  | some (.pwr, _, _) => (s.setBit Reg.PWR_STAT 5 true).event p 5 0
  | _ => s

/-- A register whose written value takes effect at the next tick boundary. -/
def lateCfg (a : Nat) : Bool :=
  match pageKind (pageOf a) with
  | some (.sol, _, _) | some (.ssm, _, _) | some (.saf, _, _) | some (.flt, _, _) | some (.mem, _, _) | some (.evt, _, _)
  | some (.fio, _, _) | some (.eth, _, _) => true
  | some (.qtz, _, _) => decide (0x110 ≤ pageOff a ∧ pageOff a < 0x148)
  | _ => false

/-- The 64-bit RW registers of the configuration regions, by the address of the low word, rule R435. -/
def wideCfg (a : Nat) : Bool :=
  let o := pageOff a
  match pageKind (pageOf a) with
  | some (.prf, _, _) => decide (0x110 ≤ o ∧ o < 0x190) && o % 8 == 0 || o == 0x198 || o == 0x1A0
  | some (.prfg, _, _) => o == 0x128 || o == 0x130
  | some (.loop, _, _) => o == 0x120 || o == 0x128 || (decide (0x140 ≤ o ∧ o < 0x280) && (o % 0x40 == 0x18 || o % 0x40 == 0x20))
  | some (.lax, _, _) => o == 0x118
  | some (.eth, _, _) => o == 0x104
  | _ => false

/-- The word a register holds after a write by its field types; nothing at an offset that holds no register. -/
def State.merged (s : State) (a : Nat) (v : Word) : Option Word := (regRow a).map (fun r => r.write (s.rd a) v)

/-- One word of an accepted configuration write, with what the change sets going. -/
def State.putCfg (s : State) (a : Nat) (v : Word) : State :=
  let s1 := if lateCfg a then s.wrLate a v else s.wr a v
  match pageKind (pageOf a) with
  | some (.ssm, _, _) | some (.saf, _, _) | some (.flt, _, _) => (s1.setBit Reg.SAF_STAT 6 true).refreshSaf
  | some (.eng, _, e) => if a = Reg.ENG_CTRL e then s.engCtrl e v else s1
  | some (.rng, _, n) => if a = Reg.RNG_CTRL n then s.ringCtrl n v else s1
  | some (.dlr, _, _) => forUpTo (fun f t => t.flowCheck f) 64 s1
  | some (.evt, _, _) =>
    if (a = Reg.EVT_CTRL ∧ bitsOf v.toNat 11 8 ≠ s.fld a 11 8) ∨ (a = Reg.EVT_EVR_BASE ∧ v ≠ s.rd a) then
      { s1 with evt := { s1.evt with ringPend := true } }
    else s1
  | some (.fbk, _, _) => s1.fbkWritten a (s.rd a)
  | some (.lax, _, n) => if a = Reg.LAX_CFG n then s1.laxBound n else s1
  | some (.twn, _, _) => if a = Reg.TWN_CTRL ∧ s.twinEn ∧ !v.getLsbD 0 then s1.twinOff else s1
  | _ => s1

/-- A change of the event ring while it holds a record, rule R399. -/
def State.evrMoves (s : State) (a : Nat) (v : Word) : Bool :=
  s.fld Reg.EVT_EVR_HEAD 13 0 != s.fld Reg.EVT_EVR_TAIL 13 0 &&
    ((a == Reg.EVT_CTRL && bitsOf v.toNat 11 8 != s.fld a 11 8) || (a == Reg.EVT_EVR_BASE && v != s.rd a))

/-- A write of some words of one page's configuration region, judged once, rule R466. -/
def State.cfgWords (s : State) (ag : Agent) (a : Nat) (ws : List (Nat × Word)) : State :=
  let p := pageOf a
  s.cfgWrite ag p
    (s.cfgState a && !ws.any (fun w => s.evrMoves w.1 w.2) && keeps s (forEach (fun (w : Nat × Word) t => t.wr w.1 w.2) ws s) p)
    (fun t => t.cfgRefused p)
    (fun t => forEach (fun (w : Nat × Word) u => u.putCfg w.1 w.2) ws t)

/-- The words of a 32-bit write; a reserved offset has none. -/
def State.wordOf (s : State) (a : Nat) (v : Word) : List (Nat × Word) :=
  match s.merged a v with
  | some x => [(a, x)]
  | none => []

/-- A write to the configuration region or PG_CHECK of a page without configuration is ignored, rule R441; PG_LOCK.CFG refuses it. -/
def State.noConfig (s : State) (ag : Agent) (p : Nat) : State :=
  s.swWrite ag p (fun t => if t.bit (Reg.PG_LOCK p) 0 then t.refuseAccess p else t)

/-- A 32-bit write to the configuration region: the low word of a 64-bit register, refused where the state refuses it (rule R108), is
held until its high word is written. -/
def State.cfgWord (s : State) (ag : Agent) (a : Nat) (v : Word) : State :=
  if !hasConfig (pageOf a) then s.noConfig ag (pageOf a)
  else if a = Reg.QTZ_TICK_OFS then s.tickOfs ag v
  else if wideCfg a then
    s.swWrite ag (pageOf a) (fun t =>
      if t.bit (Reg.PG_LOCK (pageOf a)) 0 then t.refuseAccess (pageOf a)
      else if t.cfgState a then t.holdLow a v
      else (t.cfgRefused (pageOf a)).refuseAccess (pageOf a))
  else if 0x104 ≤ pageOff a ∧ wideCfg (a - 4) then
    let low := Tab.get (fun k => s.rd k) s.held64 (a - 4)
    let t := s.cfgWords ag a (s.wordOf (a - 4) low ++ s.wordOf a v)
    { t with held64 := Tab.erase (a - 4) t.held64 }
  else s.cfgWords ag a (s.wordOf a v)

/-- PG_CHECK: judged as a configuration write; a page without configuration ignores it, rule R441. -/
def State.checkWrite (s : State) (ag : Agent) (p : Nat) (v : Word) : State :=
  if hasConfig p then s.cfgWrite ag p (s.cfgState (Reg.PG_CHECK p)) (fun t => t.cfgRefused p) (fun t => t.wr (Reg.PG_CHECK p) v)
  else s.noConfig ag p

/-- PORT_ENABLE: a write of RNG_CTRL, judged as any configuration write. -/
def execPortEnable (ag : Agent) (p : Fin 4) (v : Word) (s : State) : Out := .next (s.cfgWord ag (Reg.RNG_CTRL p.val) v)

/-! ### The common registers -/

/-- A 32-bit write at an offset below 0x100 of a present page. -/
def State.commonWord (s : State) (ag : Agent) (a : Nat) (v : Word) : State :=
  let p := pageOf a
  if a = Reg.PG_CTRL p then s.swWrite ag p (fun t => t.pgCtrl p v)
  else if a = Reg.PG_STAT p then s.swWrite ag p (fun t => t.setBit a 4 (t.bit a 4 && !v.getLsbD 4))
  else if a = Reg.PG_IRQ_RAW p then s.swWrite ag p (fun t => t.irqClear p v)
  else if a = Reg.PG_IRQ_EN p then s.swWrite ag p (fun t => t.irqEnable p v)
  else if a = Reg.PG_IRQ_SET p then s.swWrite ag p (fun t => t.irqSet p v)
  else if a = Reg.PG_CHECK p then s.checkWrite ag p v
  else if a = Reg.PG_LOCK p then s.swWrite ag p (fun t => t.pgLock p v)
  else s.swWrite ag p id

/-! ### Runtime controls -/

/-- A write by the field types alone. -/
def State.plainWord (s : State) (a : Nat) (v : Word) : State :=
  match s.merged a v with
  | some x => s.wr a x
  | none => s

/-- A W1C write whose bits in `keep` stay although 1 is written, rule R433. -/
def State.clearWord (s : State) (a : Nat) (v keep : Word) : State := s.plainWord a (v &&& ~~~keep)

/-- The mask of one bit that stays while `b` holds. -/
def stays (i : Nat) (b : Bool) : Word := if b then w32 (2 ^ i) else 0

def State.engWord (s : State) (ag : Agent) (e a : Nat) (v : Word) : State :=
  s.swWrite ag (0x40 + e) (fun t => t.plainWord a v)

def State.dlrWord (s : State) (ag : Agent) (a : Nat) (v : Word) : State :=
  let o := pageOff a
  if a = Reg.DLR_ARM then s.armWrite ag v
  else if a = Reg.DLR_CANCEL then s.cancelWrite ag v
  else if a = Reg.DLR_SETF then s.setfWrite ag v
  else if a = Reg.DLR_CLRF then s.clrfWrite ag v
  else if a = Reg.DLR_FLOW_RESET then s.swWrite ag Page.DLR (fun x => x.flowReset ag (bitsOf v.toNat 5 0))
  else if 0x840 ≤ o ∧ o < 0x880 then s.swWrite ag Page.DLR (fun x => x.ctxWrite ((o - 0x840) / 4) v)
  else if 0x8C0 ≤ o ∧ o < 0x8D0 then s.coreDoneWrite ag ((o - 0x8C0) / 4) v
  else if 0x8D0 ≤ o ∧ o < 0x8E0 then s.coreYieldWrite ag ((o - 0x8D0) / 4) v
  else s.swWrite ag Page.DLR (fun t => t.plainWord a v)

/-- CMP_CTRL: DISARM wins over ARM; without either the settings are written for a later arming. -/
def State.cmpCtrl (s : State) (x c : Nat) (v : Word) : State :=
  if v.getLsbD 1 then s.cmpDisarm x c v
  else if v.getLsbD 0 then s.cmpArm x c v
  else s.wr (Reg.CMP_CTRL x c) ((v &&& 0x03FFFFFC) ||| (s.rd (Reg.CMP_CTRL x c) &&& 1))

/-- The high word of PRF_CMP_POS_c or PRF_CMP_STEP_c: a position write while the compare is armed is a new arming at the next cut,
rule R136. -/
def State.cmpHigh (s : State) (x a : Nat) (v : Word) : State :=
  let c := (pageOff a - 0x800) / 8 % 4
  let s1 := s.commitHigh a v
  if pageOff a < 0x820 ∧ s.bit (Reg.CMP_STAT x) c then
    s1.setAxis x { s1.axis x with rearm := (s1.axis x).rearm ||| (1 <<< c) }
  else s1

def State.prfWord (s : State) (ag : Agent) (x a : Nat) (v : Word) : State :=
  let o := pageOff a
  s.swWrite ag (Page.PRF x) (fun t =>
    if o < 0x840 then (if o % 8 = 0 then t.holdLow a v else t.cmpHigh x a v)
    else if o < 0x850 then t.cmpCtrl x ((o - 0x840) / 4) v
    else t.plainWord a v)

def State.prfgWord (s : State) (ag : Agent) (g a : Nat) (v : Word) : State :=
  s.swWrite ag (Page.PRFG g) (fun t =>
    t.clearWord a v (stays 1 (a == Reg.PRFG_STAT g && (t.members g).any (fun m => t.engaged m.2))))

def State.loopWord (s : State) (ag : Agent) (x a : Nat) (v : Word) : State :=
  let o := pageOff a
  if a = Reg.LOOP_CTRL x then s.swWrite ag (Page.LOOP x) (fun t => t.loopCtrl x (v.extractLsb' 0 4) (v.extractLsb' 8 4))
  else if 0x840 ≤ o ∧ o < 0x980 ∧ (o - 0x840) % 64 < 40 then
    s.swWrite ag (Page.LOOP x) (fun t => t.coefWrite x ((o - 0x840) / 64) ((o - 0x840) % 64 / 4) v)
  else s.swWrite ag (Page.LOOP x) (fun t => t.clearWord a v (stays 11 (a == Reg.LOOP_STAT x && !t.feClearable x)))

/-- SAF_PWD_CMD. -/
def State.pwdCmd (s : State) (v : Word) : State :=
  if v = 1 then s.sealOpen else if v = 2 then s.closeSeal.refreshSaf else if v = 3 then s.passwordSet else s

def State.safWord (s : State) (ag : Agent) (a : Nat) (v : Word) : State :=
  s.swWrite ag Page.SAF (fun t =>
    if a = Reg.SAF_REL then t.safRel (v.toNat % 65536)
    else if a = Reg.SAF_ACK then t.safAck (v.toNat % 65536)
    else if a = Reg.SAF_STORE then t.safStore v
    else if a = Reg.SAF_LOAD then t.safLoad v
    else if a = Reg.SAF_PT_CMD then (if v.getLsbD 0 then t.ptStart else t)
    else if Reg.SAF_PWD 0 ≤ a ∧ a < Reg.SAF_PWD 4 then t.wr a v
    else if a = Reg.SAF_PWD_CMD then t.pwdCmd v
    else if a = Reg.SAF_SEAL_CFG then t.methodReq v
    else if a = Reg.SAF_LOG_CLR then t.logClear v
    else t.plainWord a v)

/-- FLT_CMD by channel A; whether the gates of a test trip open in time is open here (notes/assumptions/4.md). -/
def State.fltWord (s : State) (ag : Agent) (a : Nat) (v : Word) : State :=
  if a = Reg.FLT_CMD then
    s.fltCmd ag (fun t =>
      match v.toNat % 16 with
      | 1 => let kP := t.takeFree
             let k := kP.1
             let t1 := kP.2
             t1.testTrip (Config.freeBool k)
      | 2 => t.flintArm (v.toNat / 65536)
      | 3 => if t.field.vcc then t.flintTrip 5 else t
      | _ => t)
  else s.swWrite ag Page.FLT (fun t => t.plainWord a v)

def State.rngWord (s : State) (ag : Agent) (n a : Nat) (v : Word) : State :=
  s.swWrite ag (ringPage n) (fun t =>
    if a = Reg.RNG_SOFT_FLIP n then t.setRp n { t.rp n with softNext := v.getLsbD 0 } else t.plainWord a v)

def State.fbkWord (s : State) (ag : Agent) (a : Nat) (v : Word) : State :=
  let o := pageOff a
  s.swWrite ag Page.FBK (fun t =>
    t.clearWord a v (stays 5 (decide (0x880 ≤ o ∧ o < 0x8C0) && t.linesLow ((o - 0x880) / 4)) |||
      stays 8 (decide (0x980 ≤ o ∧ o < 0x9A0) && t.hallStands ((o - 0x980) / 4))))

def State.laxWord (s : State) (ag : Agent) (n a : Nat) (v : Word) : State :=
  s.swWrite ag (Page.LAX n) (fun t =>
    t.clearWord a v (stays 2 (a == Reg.LAX_STAT n && t.srcType n == 1 && t.linesLow (t.srcCh n)) |||
      stays 3 (a == Reg.LAX_STAT n && t.srcType n == 1 && (t.encRt (t.srcCh n)).devBad)))

/-- FIO_DQ_OVL: clearing OVL lets an output with OVL_LATCH follow its command again, rule R321. -/
def State.ovlClear (s : State) (v : Word) : State :=
  let s1 := s.plainWord Reg.FIO_DQ_OVL v
  (forUpTo (fun i t =>
    if v.getLsbD i && t.dqCfg i 4 && t.field.ovlOff.getLsbD i then (t.setOvlOff i false).setBit Reg.FIO_DQ_OVL (16 + i) false else t)
    16 s1).refreshDq

def State.fioWord (s : State) (ag : Agent) (a : Nat) (v : Word) : State :=
  s.swWrite ag Page.FIO (fun t =>
    if a = Reg.FIO_DQ_EXTF then t.clearWord a v (t.field.above.setWidth 32)
    else if a = Reg.FIO_DQ_OVL then t.ovlClear v
    else if a = Reg.FIO_DQ_OPEN then t.clearWord a v t.openStays
    else t.plainWord a v)

def State.ethWord (s : State) (ag : Agent) (n a : Nat) (v : Word) : State :=
  let o := pageOff a
  s.swWrite ag (Page.ETH n) (fun t =>
    if 0x8A0 ≤ o ∧ o < 0x8C0 then t.txTail n ((o - 0x8A0) / 4) v else t.plainWord a v)

def State.twnWord (s : State) (ag : Agent) (a : Nat) (v : Word) : State :=
  s.swWrite ag Page.TWN (fun t =>
    if a = Reg.TWN_CMD then (if v.toNat % 16 = 1 then t.syncCmd else if v.toNat % 16 = 2 then t.resigns else t)
    else t.plainWord a v)

def State.evtWord (s : State) (ag : Agent) (a : Nat) (v : Word) : State :=
  let o := pageOff a
  s.swWrite ag Page.EVT (fun t =>
    if a = Reg.EVT_ALM_ACK then t.holdLow a v
    else if a = Reg.EVT_ALM_ACK + 4 then
      ({ t with held64 := Tab.erase (a - 4) t.held64 }).almAck ((Tab.get (fun _ => 0) t.held64 (a - 4)).toNat % 1024) v
    else if a = Reg.EVT_EVR_TAIL then t.evrTail v
    else if a = Reg.EVT_TRC_RD then t.trcRd v
    else if 0x840 ≤ o ∧ o < 0x8C0 then
      let b := a - (o - 0x840) % 32
      let t1 := t.holdLow a v
      let w (i : Nat) : Word := Tab.get (fun _ => 0) t1.held64 (b + 4 * i)
      if (o - 0x840) % 32 = 28 then
        ({ t1 with held64 := Tab.dropRange b 32 t1.held64 }).trcSw ((o - 0x840) / 32) (bitsOf (w 0).toNat 15 8) (w 4) (w 5) (w 6) (w 7)
      else t1
    else t.plainWord a v)

def State.qtzWord (s : State) (ag : Agent) (a : Nat) (v : Word) : State :=
  s.swWrite ag Page.QTZ (fun t =>
    if a = Reg.QTZ_TIME_INC then t.timeIncPart .low (v.setWidth 64)
    else if a = Reg.QTZ_TIME_INC + 4 then t.timeIncPart .high (v.setWidth 64)
    else if a = Reg.QTZ_STEP then t.holdLow a v
    else if a = Reg.QTZ_STEP + 4 then t.commitHigh a v
    else if a = Reg.QTZ_TIME_CTRL then (if v.getLsbD 0 then t.stepReq else t)
    else t.plainWord a v)

/-- SYS_CTRL: each request set in one write; STOP_REQ wins over RUN_REQ. -/
def State.sysCtrl (s : State) (v : Word) : State :=
  let s1 := s.when (v.getLsbD 0 || v.getLsbD 1) (fun t => t.runReq (v.getLsbD 1))
  let s2 := s1.when (v.getLsbD 2) State.restartReq
  let s3 := s2.when (v.getLsbD 3) (fun t => t.freezeBy 2)
  s3.when (v.getLsbD 4) (fun t => t.swReset (v.extractLsb' 16 16))

def State.sysWord (s : State) (ag : Agent) (a : Nat) (v : Word) : State :=
  s.swWrite ag Page.SYS (fun t =>
    if a = Reg.SYS_CTRL then t.sysCtrl v
    else if a = Reg.SYS_WDT_KICK then (if v = 0xA5 then t.wdtStart else t)
    else t.plainWord a v)

def State.pwrWord (s : State) (ag : Agent) (a : Nat) (v : Word) : State :=
  s.swWrite ag Page.PWR (fun t =>
    if a = Reg.PWR_DVFS_REQ then t.dvfsReq (v.toNat % 4) (bitsOf v.toNat 5 4)
    else if a = Reg.PWR_APPC_REQ then t.appcReq (v.toNat % 8)
    else if a = Reg.PWR_DOM_REQ then t.domReq v
    else t.plainWord a v)

/-- A 32-bit write at an offset from 0x800 of a present page. -/
def State.runWord (s : State) (ag : Agent) (a : Nat) (v : Word) : State :=
  match pageKind (pageOf a) with
  | some (.eng, _, e) => s.engWord ag e a v
  | some (.dlr, _, _) => s.dlrWord ag a v
  | some (.prf, _, x) => s.prfWord ag x a v
  | some (.prfg, _, g) => s.prfgWord ag g a v
  | some (.loop, _, x) => s.loopWord ag x a v
  | some (.saf, _, _) => s.safWord ag a v
  | some (.flt, _, _) => s.fltWord ag a v
  | some (.rng, _, n) => s.rngWord ag n a v
  | some (.fbk, _, _) => s.fbkWord ag a v
  | some (.lax, _, n) => s.laxWord ag n a v
  | some (.fio, _, _) => s.fioWord ag a v
  | some (.eth, _, n) => s.ethWord ag n a v
  | some (.twn, _, _) => s.twnWord ag a v
  | some (.evt, _, _) => s.evtWord ag a v
  | some (.qtz, _, _) => s.qtzWord ag a v
  | some (.sys, _, _) => s.sysWord ag a v
  | some (.pwr, _, _) => s.pwrWord ag a v
  | _ => s.swWrite ag (pageOf a) (fun t => t.plainWord a v)

/-! ### Accesses by address -/

/-- A 32-bit write to a present page. -/
def State.writeWord (s : State) (ag : Agent) (a : Nat) (v : Word) : State :=
  if pageOff a < 0x100 then s.commonWord ag a v
  else if pageOff a < 0x800 then s.cfgWord ag a v
  else s.runWord ag a v

/-- The write right and the locks of rules R438 and R440, and a powered domain, let an access of `ag` to page `p` through. -/
def State.reaches (s : State) (ag : Agent) (p : Nat) : Bool := s.domOn (domainOf p) && pageRight ag p && !s.lockedOut ag p

/-- A 64-bit write: a 64-bit configuration register takes both words at once, other words follow one another, low word first; an
access that does not reach the page counts once. -/
def State.writeWide (s : State) (ag : Agent) (a : Nat) (v : BitVec 64) : State :=
  if 0x100 ≤ pageOff a ∧ pageOff a < 0x800 ∧ wideCfg a then
    s.cfgWords ag a (s.wordOf a (v.extractLsb' 0 32) ++ s.wordOf (a + 4) (v.extractLsb' 32 32))
  else if a = Reg.QTZ_TIME_INC then s.swWrite ag Page.QTZ (fun t => t.timeIncPart .both v)
  else if !s.reaches ag (pageOf a) then s.swWrite ag (pageOf a) id
  else (s.writeWord ag a (v.extractLsb' 0 32)).writeWord ag (a + 4) (v.extractLsb' 32 32)

/-- An access that is aligned, of 32 or 64 bits, and to a present page, rule R437. -/
def pageAccess (a n : Nat) : Bool := decide (0x40000000 ≤ a) && a % n == 0 && (pageKind (pageOf a)).isSome

/-- A host access outside rule R340 completes without effect and counts. -/
def State.badAccess (s : State) : State := ((s.inc Reg.PCI_BAD_ACC_CNT).setBit Reg.PCI_STAT 7 true).event Page.PCI 1 0

/-- A store of an engine to a page: its fault of rule R82, or its effect. -/
def State.engineStore (s : State) (e a : Nat) (wide : Bool) (v : BitVec 64) : State :=
  match s.accessFault e (s.engOf e).pc (.store a wide v .clean) with
  | some (code, addr) => s.engFault e code (some addr)
  | none => s.engWrite e a (if wide then 8 else 4) v.toNat

/-- REGISTER_WRITE: rights, locks, the page's rules on state and its conditions decide, rules R437 to R440 and R466. -/
def State.registerWrite (s : State) (ag : Agent) (a : Nat) (wide : Bool) (v : BitVec 64) : State :=
  if !s.clocked then s
  else
    match ag with
    | .engine e => s.engineStore e.val a wide v
    | _ =>
      if !pageAccess a (if wide then 8 else 4) then (if ag = .host then s.badAccess else s)
      else if wide then s.writeWide ag a v
      else s.writeWord ag a (v.extractLsb' 0 32)

def execRegisterWrite (ag : Agent) (addr : Nat) (wide : Bool) (v : BitVec 64) (s : State) : Out := .next (s.registerWrite ag addr wide v)

/-- A load of an engine that no page serves: its fault of rule R82. -/
def State.engineLoad (s : State) (e a : Nat) : State :=
  match s.accessFault e (s.engOf e).pc (.load 0 a false .clean) with
  | some (code, addr) => s.engFault e code (some addr)
  | none => s

/-- RC_READ: a 32-bit read; an RC register returns to its reset value, rules R432 and R434, and one of DLR_CORE_TAKE_n is the take of
core n (notes/assumptions/114.md). -/
def State.regRead (s : State) (ag : Agent) (a : Nat) : State :=
  if !s.clocked then s
  else if takeAddr a && s.domOn (domainOf Page.DLR) then s.coreTake ag ((a - Reg.DLR_CORE_TAKE 0) / 8)
  else if pageAccess a 4 then (s.busRead a).2.onBus (s.busRead a).1.toNat
  else
    match ag with
    | .host => s.badAccess.onBus 0xFFFFFFFF
    | .engine e => s.engineLoad e.val a
    | _ => s

def execRcRead (ag : Agent) (addr : Nat) (s : State) : Out := .next (s.regRead ag addr)

end Sys2Proof.Machine
end

