-- ==== Sys2Proof/Machine/Pcie.lean ====
section
/-! DEFINITION. The host's endpoint with its BARs, the boot flash and the JTAG port, rules R339 to R347 and R444
(spec/14_plant_host.md and spec/19_registers.md). -/

namespace Sys2Proof.Machine

/-! ### BARs, rules R339 and R340 -/

/-- The number that bytes spell, the lowest address first. -/
def numOf : List (BitVec 8) → Nat
  | [] => 0
  | b :: t => b.toNat + 256 * numOf t

/-- A read outside rule R340 returns all ones, and counts. -/
def State.badRead (s : State) (n : Nat) : State := s.badAccess.onBus (256 ^ n - 1)

/-- BAR0: aligned 32-bit and 64-bit accesses to register pages. -/
def State.bar0Write (s : State) (o : Nat) (bs : List (BitVec 8)) : State :=
  if decide (o < 0x4000000) && (bs.length == 4 || bs.length == 8) then
    s.registerWrite .host (0x40000000 + o) (bs.length == 8) (BitVec.ofNat 64 (numOf bs))
  else s.badAccess

def State.bar0Read (s : State) (o n : Nat) : State :=
  let a := 0x40000000 + o
  if decide (o < 0x4000000) && (n == 4 || n == 8) && pageAccess a n then
    let loP := s.busRead a
    let lo := loP.1
    let s1 := loP.2
    if n = 8 then
      let hiP := if takeAddr (a + 4) then (0, s1) else s1.busRead (a + 4)
      let hi := hiP.1
      let s2 := hiP.2
      s2.onBus (lo.toNat + 4294967296 * hi.toNat)
    else s1.onBus lo.toNat
  else s.badRead n

/-- An offset of BAR2 lies in the window into LPDDR4X: its byte address there. -/
def State.ddrWindow (s : State) (o n : Nat) : Option Nat :=
  if 0x4000000 ≤ o ∧ o + n ≤ 0x8000000 then some (s.fld Reg.PCI_CTRL 6 0 * 0x4000000 + (o - 0x4000000)) else none

/-- Groups whose commit word a write of `n` bytes of cell memory covers. -/
def State.commits (s : State) (o n : Nat) : List Nat :=
  s.groups.filter (fun g => decide (o ≤ s.rdN (Reg.PRFG_MBX g) ∧ s.rdN (Reg.PRFG_MBX g) + 4 ≤ o + n))

/-- BAR2: a write within one 64-byte block; a mailbox's commit word commits it, rule R17. -/
def State.bar2Write (s : State) (o : Nat) (bs : List (BitVec 8)) : State :=
  let n := bs.length
  if !s.bit Reg.PCI_CTRL 8 || n == 0 || decide (64 < o % 64 + n) then s.badAccess
  else if inCell o n then
    forEach (fun g t => t.mailboxCommit g (t.cell32 (t.rdN (Reg.PRFG_MBX g)) % 65536)) (s.commits o n) (s.storeCell o n (numOf bs))
  else
    match s.ddrWindow o n with
    | some a => { s with dram := s.dram.setBytes a bs }
    | none => s.badAccess

/-- BAR2: a read of up to 512 bytes; one that meets an uncorrectable error completes poisoned, with open data (rule R370,
notes/assumptions/4.md). -/
def State.bar2Read (s : State) (o n : Nat) : State :=
  if n == 0 || decide (512 < n) then s.badRead n
  else if inCell o n then
    if s.ueIn 0x80 o n then
      let kP := (s.ueRead 0x80 o n).takeFree
      let k := kP.1
      let s1 := kP.2
      s1.onBus (wrapTo (8 * n) (Config.freeInt k))
    else s.onBus (s.cellN o n)
  else
    match s.ddrWindow o n with
    | some a => s.onBus (s.dram.getN a n)
    | none => s.badRead n

/-- A vector is masked or unmasked: a pending message of an unmasked vector goes out. -/
def State.maskVector (s : State) (v : Nat) (m : Bool) : State :=
  let bit : BitVec 64 := 1#64 <<< v
  if m then { s with plant := { s.plant with msixMask := s.plant.msixMask ||| bit } }
  else
    let s1 := { s with plant := { s.plant with msixMask := s.plant.msixMask &&& ~~~bit, msixPend := s.plant.msixPend &&& ~~~bit } }
    if s.plant.msixPend.getLsbD v then s1.sendMsix v else s1

/-- BAR4, aligned 32-bit and 64-bit accesses: 64 MSI-X entries of 16 bytes, with the mask bit in byte 12, and the pending bits at
0x1000 (the layout of the PCI Express Base Specification: PRESUMED, notes/assumptions/30.md). -/
def State.bar4Byte (s : State) (o : Nat) (b : BitVec 8) : State :=
  if 0x400 ≤ o then s
  else if o % 16 = 12 then s.maskVector (o / 16) (b.getLsbD 0)
  else if o % 16 < 12 then { s with plant := { s.plant with msixTab := s.plant.msixTab.set8 o b } }
  else s

def bar4Ok (o n : Nat) : Bool := (n == 4 || n == 8) && o % n == 0 && (decide (o + n ≤ 0x400) || decide (0x1000 ≤ o ∧ o + n ≤ 0x1008))

def State.bar4Write (s : State) (o : Nat) (bs : List (BitVec 8)) : State :=
  if bar4Ok o bs.length then forEach (fun (e : BitVec 8 × Nat) t => t.bar4Byte (o + e.2) e.1) bs.zipIdx s else s.badAccess

def State.bar4ByteOf (s : State) (o : Nat) : Nat :=
  if 0x1000 ≤ o then bitsOf s.plant.msixPend.toNat (8 * (o - 0x1000) + 7) (8 * (o - 0x1000))
  else if o % 16 = 12 then b2n (s.plant.msixMask.getLsbD (o / 16))
  else if o % 16 < 12 then (s.plant.msixTab.get8 o).toNat
  else 0

def State.bar4Read (s : State) (o n : Nat) : State :=
  if bar4Ok o n then s.onBus (((List.range n).map (fun i => s.bar4ByteOf (o + i) * 256 ^ i)).sum) else s.badRead n

/-- BAR_ACCESS: a host access through a BAR while the endpoint works. -/
def State.barAccess (s : State) (bar ofs len : Nat) (write : Option (List (BitVec 8))) : State :=
  if !(s.clocked && s.domOn 10) then s
  else
    match bar, write with
    | 0, some bs => s.bar0Write ofs bs
    | 0, none => s.bar0Read ofs len
    | 2, some bs => s.bar2Write ofs bs
    | 2, none => s.bar2Read ofs len
    | 4, some bs => s.bar4Write ofs bs
    | 4, none => s.bar4Read ofs len
    | _, some _ => s.badAccess
    | _, none => s.badRead len

def execBarAccess (bar : Fin 6) (ofs len : Nat) (write : Option (List (BitVec 8))) (s : State) : Out :=
  .next (s.barAccess bar.val ofs len write)

/-! ### The endpoint, rules R341 and R444 -/

/-- PERST#, a hot reset, a function-level reset, or a loss of link. -/
def State.endpointReset (s : State) (linkLoss : Bool) : State :=
  if s.clocked && s.domOn 10 then
    (s.endpointClear.inc (if linkLoss then Reg.PCI_LINK_DOWN_CNT else Reg.PCI_PERST_CNT)).event Page.PCI 0 0
  else s

def execPcieEndpointReset (linkLoss : Bool) (s : State) : Out := .next (s.endpointReset linkLoss)

/-- What the endpoint presents, rule R339. -/
def endpointId : EndpointId := { vendor := 0x1F3C, device := 0xC128, revision := 0xB1, classCode := 0x088000 }

/-- The rates and widths at which the endpoint trains, as PCI_STAT spells them: 2.5, 5.0, 8.0 and 16.0 GT/s, and ×1, ×2 and ×4. -/
def trains (speed width : Nat) : Bool := (decide (1 ≤ speed) && decide (speed ≤ 4)) && (width == 1 || width == 2 || width == 4)

/-- PCIE_LINK_UP: the vectors asserted then send their messages. The link never comes up at another rate or width. -/
def State.pcieUp (s : State) (speed width : Nat) : State :=
  if s.clocked && s.domOn 10 && !s.bit Reg.PCI_STAT 0 && trains speed width then
    let s0 := { s with plant := { s.plant with endpoint := some endpointId } }
    let s1 := (((s0.setBit Reg.PCI_STAT 0 true).setFld Reg.PCI_STAT 3 1 speed).setFld Reg.PCI_STAT 6 4 width).event Page.PCI 0 0
    forUpTo (fun v t => if s.hostVector v then t.sendMsix v else t) 64 s1
  else s

def execPcieLinkUp (speed width : Fin 8) (s : State) : Out := .next (s.pcieUp speed.val width.val)

/-! ### The boot flash, rules R343 and R344 -/

/-- An access touches the regions that only channel A writes. -/
def flashGuarded (a n : Nat) : Bool := decide (a < 0x1310000 ∧ 0x1100000 < a + n)

/-- A write of bytes, or an erase of `len` bytes to 0xFF (PRESUMED, notes/assumptions/31.md). The rule names no page
and bit for the event of a refusal: REFUSED of the safety page, whose records the regions hold (DESIGN CHOICE, the same log entry). -/
def State.flashWrite (s : State) (ag : Agent) (a len : Nat) (data : Option (List (BitVec 8))) : State :=
  if !s.clocked then s
  else
    let bs := data.getD (List.replicate len 0xFF)
    match ag with
    | .engine _ => s
    | .channelA => { s with flash := s.flash.setBytes a bs }
    | _ =>
      if flashGuarded a bs.length then s.event Page.SAF 4 0
      else { s with flash := s.flash.setBytes a bs }

def execFlashWrite (ag : Agent) (addr len : Nat) (data : Option (List (BitVec 8))) (s : State) : Out :=
  .next (s.flashWrite ag addr len data)

/-! ### JTAG, rule R347 -/

/-- An instruction is accepted in the present state. -/
def State.jtagOk (s : State) (i : JtagInstr) : Bool :=
  match i with
  | .bypass => true
  | .idcode => true
  | .sample => true
  | .extest => s.sys.dev == .reset
  | .debug => s.configurable && !s.armed
  | .other => false

/-- The instruction in force, with the code that IDCODE selects. -/
def State.setJtag (s : State) (i : JtagInstr) : State :=
  { s with plant := { s.plant with jtag := i, idcode := if i = .idcode then some 0x1C128B4D else none } }

/-- JTAG_INSTRUCTION. -/
def State.jtagShift (s : State) (i : JtagInstr) : State :=
  if s.jtagOk i then s.setJtag i
  else
    (((s.setJtag .bypass).setBit Reg.DBG_STAT 3 true).inc Reg.DBG_JTAG_REF_CNT).event Page.DBG 1 0

def execJtagInstruction (i : JtagInstr) (s : State) : Out := .next (s.jtagShift i)

end Sys2Proof.Machine
end

