-- ==== Sys2Proof/Machine/ProofTest.lean ====
section
/-! DEFINITION. The steps of the proof test as the C phase carries them out, rule R225 (spec/09_safety.md). -/

namespace Sys2Proof.Machine

/-- The limit of a step, ms. -/
def ptLimit (k : Nat) : Nat :=
  match k with
  | 1 => 300
  | 2 => 50
  | 3 => 100
  | 4 => 100
  | 5 => 600000
  | _ => 200

/-- A group has a safety function: an input function, an output, the separation unit, or a limit or zone of its axes (DESIGN CHOICE,
notes/assumptions/127.md). -/
def State.guarded (s : State) (g : Nat) : Bool :=
  s.groupEn g &&
    ((List.range 16).any (fun f => s.inKind f != 0 && (s.inGroups f).testBit g) ||
      (List.range 16).any (fun i => (s.eff (Reg.SAF_DQ_GRP i)).getLsbD g) ||
      (s.ssmEn && s.heads.any (fun h => s.watches g h)) ||
      (s.memberAxes g).any (fun a => (s.axW a 0).getLsbD 0 || (s.axW a 0).getLsbD 1) ||
      (List.range 32).any (fun z => (s.zoneW z 0).getLsbD 16 && (s.zoneW z 0).getLsbD g))

/-- The axis of a node's place i belongs to such a group. -/
def State.axisGuarded (s : State) (a : Nat) : Bool :=
  match s.groupOf a with
  | some g => s.guarded g
  | none => false

/-- A ring drive with such an axis reports STO active on each, in a SAFE_IN accepted in this tick and valid on both lanes. -/
def State.driveSto (s : State) (p n : Nat) : Bool :=
  let ax := ((List.range (s.nodeAxes p n)).map (fun i => (i, s.nodeFirst p n + i))).filter (fun e => s.axisGuarded e.2)
  ax.isEmpty || (s.saf.safeIn.any (fun e => e.1 == nodeKey p n) && s.saf.bothLanes.contains (nodeKey p n) &&
    ax.all (fun e => (s.cell32 (s.safeArea p n + 8)).testBit e.1))

/-- Every ring drive of the enabled master-end ports. -/
def State.drivesSto (s : State) : Bool :=
  (List.range 4).all (fun p => !(s.portEn p && s.masterRole p) ||
    (List.range 64).all (fun n => !(s.nodeEn p n && s.nodeKind p n == 0) || s.driveSto p n))

/-- The functions that step 5 asks for: ESTOP, GUARD, ENABLE and RESET. -/
def State.ptInputs (s : State) : Nat :=
  (List.range 16).foldl (fun m f => if decide (1 ≤ s.inKind f ∧ s.inKind f ≤ 4) then m ||| (1 <<< f) else m) 0

/-- The safe outputs, and those of them that are pulsed. -/
def State.ptOutputs (s : State) : Nat := s.effFld Reg.SAF_DQ_SAFE 15 0
def State.ptPulse (s : State) : Nat := s.effFld Reg.SAF_PT_CFG 15 0

/-- Every safe output reads back off. -/
def State.allOff (s : State) : Bool := s.ptOutputs &&& s.fld Reg.FIO_DQ_RB 15 0 == 0

/-- The functions that show demand, and that show none, on both channels. -/
def State.inputsAt (s : State) (demand : Bool) : Nat :=
  (List.range 16).foldl (fun m f => if s.demandA f == demand && s.demandB f == demand then m ||| (1 <<< f) else m) 0

/-- Replace what the proof test keeps. -/
def State.setPt (s : State) (x : ProofTest) : State := { s with saf := { s.saf with pt := x } }

/-- Step 3: once every safe output has read back off, the outputs of PULSE are switched on for 500 us and must read back on. -/
def State.pulseStep (s : State) : State :=
  let x := s.saf.pt
  match x.pulsed with
  | none => if s.allOff then (s.setPt { x with pulsed := some s.mono }).setPulse s.ptPulse else s
  | some t =>
    let s1 := s.setPt { x with lit := x.lit ||| (s.fld Reg.FIO_DQ_RB 15 0 &&& s.field.pulse.toNat) }
    if t + 500000 ≤ s.mono then s1.setPulse 0 else s1

/-- Step 5: a function passes to demand, and then back, on both channels without a discrepancy. -/
def State.inputStep (s : State) : State :=
  let x := s.saf.pt
  let bad := (List.range 16).foldl (fun m f => if (s.safIn f).disc then m ||| (1 <<< f) else m) 0
  let back := x.back ||| (x.dem &&& s.inputsAt false)
  s.setPt { x with dem := (x.dem ||| s.inputsAt true) &&& (0xFFFF - bad), back := back &&& (0xFFFF - bad) }

/-- What the running step does in a C phase. -/
def State.ptWork (s : State) (k : Nat) : State :=
  match k with
  | 3 => s.pulseStep
  | 5 => s.inputStep
  | _ => s

/-- The running step has passed its check. -/
def State.ptStepOk (s : State) (k : Nat) : Bool :=
  let x := s.saf.pt
  match k with
  | 1 => s.saf.slate.comparing && decide (16 ≤ s.saf.slate.count)
  | 2 => s.saf.flint.tested == some true && s.fld Reg.FLT_STAT 1 0 == 1
  | 3 => x.pulsed.isSome && s.field.pulse == 0 && s.allOff && x.lit &&& s.ptPulse == s.ptPulse
  | 4 => s.drivesSto
  | 5 => s.ptInputs &&& x.back == s.ptInputs
  | _ => (s.safSet (s.fld Reg.SAF_STAT 19 16)).isSome

/-- The running step has failed: a test vector of a lane or of the C phase, or a disagreement with Slate; a test trip in which a gate stayed
closed; the active set in flash without both check words; or its limit. -/
def State.ptStepBad (s : State) (k : Nat) : Bool :=
  (k == 1 && (s.saf.pt.disagreed || (s.saf.slate.comparing && decide (16 ≤ s.saf.slate.count) &&
      (s.ssm.laneBad != 0 || s.saf.stFail.testBit 1)))) || (k == 2 && s.saf.flint.tested == some false) ||
    (k == 6 && (s.safSet (s.fld Reg.SAF_STAT 19 16)).isNone) || decide (s.saf.pt.entered + 1000000 * ptLimit k < s.mono)

/-- The proof test in the C phase: its step works, passes on to the next, or fails. After step 6 PROOF_TEST_END ends it. -/
def State.ptTick (s : State) : State :=
  if s.bit Reg.SAF_PT_CMD 0 && !s.saf.pt.done then
    let k := s.fld Reg.SAF_PT_STAT 3 0
    let s1 := s.ptWork k
    if s1.ptStepBad k then s1.ptFail k
    else if s1.ptStepOk k then if k = 6 then s1.setPt { s1.saf.pt with done := true } else s1.ptEnter (k + 1)
    else s1
  else s

end Sys2Proof.Machine
end

