-- ==== Sys2Proof/Machine/Tick.lean ====
section
/-! DEFINITION. The work of one tick: the phases with their starts, ends, deadlines and overruns, the E launch, and the tick boundary
with the change of the device state, rules R13 to R24, R30, R39, R42 and R45 to R49 (spec/01_cell_architecture.md and
spec/02_tick_and_time.md). The work of a phase is done at its start (DESIGN CHOICE, notes/assumptions/32.md). -/

namespace Sys2Proof.Machine

/-! ### Phases -/

/-- The S phase: the separation unit, whose coding mismatch is a degrade-class fault, rules R192 and R220. -/
def State.phaseS (s : State) (ms : List CodeMismatch) : State :=
  let found := ms.filter (fun m => m != .lane)
  ((s.separationPass found).laneTest (ms.contains .lane)).when (s.ssmEn && !found.isEmpty) (fun t => (t.detect 1).refreshSaf)

/-- The P phase: profile generators, compares and the phase's tasks. -/
def State.phaseP (s : State) : State := (s.slipAxes.profilePhase).dlrPhaseStart 2

/-- The L phase: the loop tasks of the enabled axes, the output word and the phase's tasks. -/
def State.phaseL (s : State) : State :=
  ((forUpTo (fun a t => t.when (t.axisEn a) (fun u => u.loopTask a)) 144 s).putOutputWord).dlrPhaseStart 4

/-- EXTF on a safe output is the device-level stop cause of rule R28; it is gone when the flag is. -/
def State.safeOutputCheck (s : State) : State :=
  if s.field.snapBad then s
  else if s.cell32 (s.snapAddr + 8) / 65536 &&& s.effFld Reg.SAF_DQ_SAFE 15 0 ≠ 0 then s.stopCause .safeOutput
  else s.causeGone .safeOutput

/-- The C phase of channel A, in the order of rule R208, from what it reads of its own SRAM (rule R370): safe inputs, groups, outputs, the compare record and the diagnostics. -/
def State.phaseC (s : State) : State :=
  let s0 := (s.safetyFound 0xA0).safeOutputCheck
  let s1 := forUpTo (fun f t => t.inputTick f) 16 s0
  let s2 := forUpTo (fun g t => t.groupCheck s0 g) 16 s1
  let s3 := forUpTo (fun a t => t.when (t.axisEn a && (t.groupOf a).isNone) (fun u => u.looseChecked a)) 144 s2
  ((s3.putOutputs.putSafeOuts).compareRecord).degradeTick.ptTick

/-- A functional read of ranges of cell memory: every uncorrectable word met is found, rules R370 and R371. -/
def State.readRanges (s : State) (l : List (Nat × Nat)) : State := forEach (fun r t => t.ueRead 0x80 r.1 r.2) l s

/-- The axis records, the limit entries and the command records that the phases read. -/
def State.recordRanges (s : State) : List (Nat × Nat) := ((List.range 144).filter (fun a => s.axisEn a)).map (fun a => (s.axisRec a, 48))
def State.limitRanges (s : State) : List (Nat × Nat) :=
  match s.limUse with
  | none => []
  | some (b, _) => (b, 16) :: s.groups.map (fun g => (b + 0x10 + 16 * g, 16))
def State.commandRanges (s : State) : List (Nat × Nat) := ((List.range 144).filter (fun a => s.axisEn a)).map (fun a => (s.cmdRec a, 32))

/-- What the unit of a phase does; what it reads from cell memory may hold errors. -/
def State.phaseWork (s : State) (ph : Phase) (ms : List CodeMismatch) : State :=
  match ph with
  | .g => s
  | .s => (s.readRanges s.recordRanges).phaseS ms
  | .p => (s.readRanges (s.recordRanges ++ s.limitRanges)).phaseP
  | .v => s.solverStart
  | .l => (s.readRanges s.recordRanges).phaseL
  | .c => (s.readRanges (s.recordRanges ++ s.limitRanges ++ s.commandRanges ++ [(s.snapAddr, 128)])).phaseC
  | .e => s

/-! ### The E launch -/

/-- The record that the E phase emits for an axis: W0, W1, W2, W3. In a realignment tick it is the disable command of READY. Without a
checked record of this tick, or with a device-level stop in force, a group whose own stop is weaker gets SS1, rules R19, R30, R42 and
R49. -/
def State.launchRec (s : State) (a : Nat) : Nat × Int × Int × Nat :=
  let r := s.chkRec s.parity a
  let x := (s.safeMeasured a).1
  let stop (code : Nat) : Nat × Int × Int × Nat := (code * 1099511627776, x, 0, 0)
  if !s.phasesRun then stop 3
  else
    match s.groupOf a with
    | none => stop 3
    | some g =>
      let weak := decide (stRank (s.grpState g) < stRank stSs1)
      if !s.ended .c || (s.deviceStop && weak) then stop (if weak then 1 else stopCode (s.grpState g))
      else (s.cell64 r, s.cellI64 (r + 8), s.cellI64 (r + 16), s.cell64 (r + 24))

/-- The 32 bytes of an axis's record in a CYC_OUT: the home offset is subtracted from W1, rules R261 and R304. -/
def State.axisBytes (s : State) (a : Nat) : List (BitVec 8) :=
  let w0P := s.launchRec a
  let w0 := w0P.1
  let x := w0P.2.1
  let v := w0P.2.2.1
  let w3 := w0P.2.2.2
  outBytes w0 8 ++ outBytes (wrapTo 64 (fit64 (x - s.rdI64 (homeOfs a)))) 8 ++ outBytes (wrapTo 64 v) 8 ++ outBytes w3 8

/-- The bytes of a run of axes. -/
def State.axesBytes (s : State) (l : List Nat) : List (BitVec 8) := l.flatMap (fun a => s.axisBytes a)

/-- The CYC_OUT payload of a node by its KIND, rule R261. -/
def State.nodeOut (s : State) (p n : Nat) : Option (List (BitVec 8)) :=
  match s.nodeKind p n with
  | 0 => some (s.axesBytes ((List.range (s.nodeAxes p n)).map (fun i => s.nodeFirst p n + i)))
  | 3 => if s.exportsOn p then some (s.ssm.exports.flatMap (fun (o : ObjRec) => o.bytes)) else none
  | 1 | 4 =>
    let base := (s.rcf p (if (s.rp p).soft then Reg.RNG_SOFT_BASE1 p else Reg.RNG_SOFT_BASE0 p)).toNat
    some (s.cell.bytes (base + s.nodeW p n 5) (s.nodeW p n 2 / 65536))
  | _ => none

/-- Where a node's command payload lies in cell memory; export records lie in none. -/
def State.nodeSrc (s : State) (p n : Nat) : Option Nat :=
  match s.nodeKind p n with
  | 0 => some (s.chkRec s.parity (s.nodeFirst p n))
  | 1 | 4 => some ((s.rcf p (if (s.rp p).soft then Reg.RNG_SOFT_BASE1 p else Reg.RNG_SOFT_BASE0 p)).toNat + s.nodeW p n 5)
  | _ => none

/-- The port sends a node's command frame. -/
def State.sendOut (s : State) (p n : Nat) (l : List (BitVec 8)) : State :=
  match s.nodeSrc p n with
  | some a => s.sendFrom p a (s.frame p 2 n 0 l)
  | none => s.send p (s.frame p 2 n 0 l)

/-- One node's frames of the OUT launch; the SAFE_OUT is channel A's, and there is none without a checked set of this tick. -/
def State.launchNode (s : State) (p n : Nat) : State :=
  let s1 := match s.nodeOut p n with
    | none => s
    | some l => (s.setRp p { s.rp p with out := (s.rp p).out ++ [(n, l)] }).sendOut p n l
  if s.nodeSafe p n && s.ended .c then
    let l := s.cell.bytes (s.chkSet s.parity + 0x1400 + 32 * (64 * p + n)) 32
    (s1.setRp p { s1.rp p with outSafe := (s1.rp p).outSafe ++ [(n, l)] }).sendFrom p (s.chkSet s.parity + 0x1400 + 32 * (64 * p + n)) (s.frame p 4 n 0 l)
  else s1

/-- The OUT launch of a port: every slot's frames, from a unit that may command the ring, rule R352. -/
def State.launchPort (s : State) (p : Nat) : State :=
  let s1 := (s.outLaunch p).setRp p { (s.outLaunch p).rp p with out := [], outSafe := [] }
  if s.ringOn && s.pstate p == psCyclic && !s.mute then forEach (fun n t => t.launchNode p n) (s.slots p) s1 else s1

/-- The records of the local axes for the next boundary; a unit of a twin pair that is not to act emits none. -/
def State.laxLaunch (s : State) : State :=
  forUpTo (fun n t =>
    let w0P := s.launchRec (128 + n)
    let w0 := w0P.1
    let x := w0P.2.1
    t.setLaxRt n { t.laxRt n with cmd := if s.mute then none else some (bitsOf w0 41 40, x) }) 16 s

/-- The tick view of this tick, rule R21. -/
def State.publishView (s : State) : State :=
  let b := s.rdN Reg.SYS_VIEW_BASE
  let st := s.fld Reg.SYS_STAT 3 0 + 16 * b2n (s.bit Reg.SYS_STAT 4) + 32 * b2n (s.bit Reg.SYS_STAT 5) +
    256 * s.fld Reg.QTZ_PH_OVR 6 0
  let s1 := (s.clearCell b 0x89008).setCell b 8 s.tick
  let s2 := ((s1.setCell (b + 0x40) 4 st).setCell (b + 0x44) 4 (s.cell32 (s.solution s.parity) &&& 0xF03)).setCell (b + 0x48) 4
    s.digest.toNat
  let s3 := s2.setCell (b + 0x50) 8 (s.rd64 Reg.QTZ_LAST_TICK)
  let s4 := (s3.copyCell (s.chkSet s.parity) (b + 0x100) 0x3400).copyCell (s.lim s.parity) (b + 0x3600) 0x710
  (s4.copyCell (s.gath s.parity) (b + 0x4000) 0x84480).setCell (b + 0x89000) 8 s.tick

/-- The tick recorder's record, rules R400 and R403. -/
def State.tickRecord (s : State) : State :=
  if s.traceOn 0x58 then
    s.trace 0x58 0x30 (w32 (s.fld Reg.SYS_STAT 3 0 + 256 * s.fld Reg.QTZ_PH_OVR 6 0)) (w32 (s.cell32 (s.solution s.parity) % 4))
      s.digest 0
  else s

/-- The export records leave in this E phase, rules R193 and R261: on a port in service to a remote-cell node, or handed to a port in node
role for its next IN slot. -/
def State.exportsGo (s : State) : Bool :=
  (List.range 4).any (fun p => s.exportsOn p && s.ringOn &&
    (s.pstate p == psNode || (s.pstate p == psCyclic && !s.mute && (s.slots p).any (fun n => s.nodeKind p n == 3))))

/-- What the E phase emits: nothing in SELFTEST (rule R24) and in STANDBY (rule R357). -/
def State.emit (s : State) : State :=
  if s.sys.dev == .selftest || s.shadow then s
  else
    let s1 := (forUpTo (fun p t => t.launchPort p) 4 s).laxLaunch
    if s1.exportsGo then { s1 with ssm := { s1.ssm with sent := s1.ssm.exports } } else s1

/-- E_LAUNCH: at the launch offset, and in a realignment tick at the ring cycle boundary that begins it (rule R42,
notes/assumptions/97.md), the checked commands go out, the holder of the interlock sends its heartbeat, and the tick view is
published (not that of a realignment tick, whose buffers no phase has written: DEDUCED, notes/assumptions/33.md). -/
def State.eLaunch (s : State) : State :=
  if s.ticking && !s.begun .e then
    let s0 := if s.phasesRun then s.advance (s.phaseInstant .e (s.phaseStart .e)) else s
    let s1 := (s0.setBegun .e).emit.holderBeat
    s1.when s.phasesRun (fun t => t.publishView.tickRecord)
  else s

def execELaunch (s : State) : Out := .next s.eLaunch

/-! ### Start, completion and deadline of a phase -/

/-- PHASE_START: the offset is reached and the unit starts work, whether or not the phase before has ended, rule R15. G starts at the
boundary itself, and the start of E is its launch. -/
def State.startPhase (s : State) (ph : Phase) (ms : List CodeMismatch) : State :=
  if ph = .e then s.eLaunch
  else if s.phasesRun && !s.begun ph && !s.isSealed ph then
    ((s.advance (s.phaseInstant ph (s.phaseStart ph))).setBegun ph).phaseWork ph ms
  else s

def execPhaseStart (ph : Phase) (ms : List CodeMismatch) (s : State) : Out := .next (s.startPhase ph ms)

/-- Channel A's heartbeat of the tick, sent once, rules R20 and R215. -/
def State.channelBeat (s : State) : State :=
  if s.qtz.beat then s else s.sendHeartbeat.setQtz { s.sendHeartbeat.qtz with beat := true }

/-- What the end of a phase brings: the solver's WRITE in time, the digest of rule R358, and for a C after its deadline channel A's
heartbeat, rule R215. -/
def State.phaseDone (s : State) (ph : Phase) (inTime : Bool) : State :=
  match ph with
  | .v => if inTime then s.solverWrite else s
  | .c => (if inTime then s else s.channelBeat).formDigest
  | _ => s

/-- The unit of a phase can report completion, rule R47: G's ports and feedback frames have delivered, and the Dealer has released
the last ordered flow of P or L. -/
def State.phaseReady (s : State) (ph : Phase) : Bool :=
  match ph with
  | .g => s.gatherDone
  | .p => s.flowsDone 2
  | .l => s.flowsDone 4
  | _ => true

/-- PHASE_COMPLETE: the end offset is recorded; on or before the deadline the phase is on time, rule R47. A P or L that the last release
has ended already gets its instant here (notes/assumptions/98.md). -/
def State.completePhase (s : State) (ph : Phase) (ofs : Nat) : State :=
  if s.phasesRun && ph != .e && s.begun ph && !s.reported ph && s.phaseReady ph then
    let s1 := ((s.advance (s.phaseInstant ph ofs)).setReported ph).endPhase ph ofs
    s1.phaseDone ph (s1.ended ph)
  else s

def execPhaseComplete (ph : Phase) (ofs : Nat) (s : State) : Out := .next (s.completePhase ph ofs)

/-- A phase's copy of the present parity is invalid. -/
def State.setInvalid (s : State) (ph : Phase) : State :=
  if s.parity = 0 then s.setQtz { s.qtz with invalid0 := s.qtz.invalid0 ||| 2 ^ ph.num }
  else s.setQtz { s.qtz with invalid1 := s.qtz.invalid1 ||| 2 ^ ph.num }

/-- The group entries of the plan (P) and of the command set (L) that are invalid in the present copy. -/
def State.setPlanBad (s : State) (g : BitVec 16) : State :=
  if s.parity = 0 then s.setQtz { s.qtz with planBad0 := s.qtz.planBad0 ||| g }
  else s.setQtz { s.qtz with planBad1 := s.qtz.planBad1 ||| g }
def State.setCmdBad (s : State) (g : BitVec 16) : State :=
  if s.parity = 0 then s.setQtz { s.qtz with cmdBad0 := s.qtz.cmdBad0 ||| g }
  else s.setQtz { s.qtz with cmdBad1 := s.qtz.cmdBad1 ||| g }

/-- Groups that get SS1 by cause OVR in the C phase of this tick. -/
def State.overrunStop (s : State) (g : BitVec 16) : State := { s with saf := { s.saf with ovr := s.saf.ovr ||| g.toNat } }

/-- What an overrun leads to, by phase, rule R49; `g` are the groups whose entries of P or L are invalid, and `cpl` marks the coupling area
of the input area (rules R48 and R165). -/
def State.overrunOutcome (s : State) (ph : Phase) (g : BitVec 16) (cpl : Bool) : State :=
  match ph with
  | .g => s
  | .s => (s.setInvalid .s).stopCause .sOverrun
  | .p =>
    let again := g &&& s.qtz.ovrP
    (((s.setPlanBad g).setQtz { (s.setPlanBad g).qtz with ovr2P := again }).when cpl (fun t => t.setInvalid .p)).overrunStop again
  | .v => (s.setInvalid .v).solverMiss
  | .l =>
    let again := g &&& s.qtz.ovrL
    ((s.setCmdBad g).setQtz { (s.setCmdBad g).qtz with ovr2L := again }).overrunStop again
  | .c => (s.setInvalid .c).stopCause .cOverrun
  | .e => s

/-- An overrun: PH_OVR, its count and event, and the end of the guarantee of rule R5. -/
def State.overrun (s : State) (ph : Phase) (g : BitVec 16) (cpl : Bool) : State :=
  ((((s.setBit Reg.QTZ_PH_OVR ph.num true).inc (Reg.QTZ_PH_OVR_CNT ph.num)).event Page.QTZ 1 0).detLapse).overrunOutcome ph g cpl

/-- What a deadline does whether or not the phase has ended: at G's, frames still outstanding are missing; at P's and L's the Dealer
stops dispatching the phase's tasks; at C's channel A sends the heartbeat of a C phase that is complete, rule R215. -/
def State.atDeadline (s : State) (ph : Phase) : State :=
  match ph with
  | .g => (forUpTo (fun p t => t.portGather p) 4 s.ssiDeadline).mirrorGap
  | .p => s.dlrDeadline 2
  | .l => s.dlrDeadline 4
  | .c => s.when (s.ended .c) State.channelBeat
  | _ => s

/-- The C deadline of a realignment tick: no phase runs, and channel A sends its heartbeat (notes/assumptions/97.md). -/
def State.realignBeat (s : State) : State := (s.advance (min (s.phaseInstant .c (s.phaseEnd .c)) s.nextBoundary)).channelBeat

/-- PHASE_DEADLINE: the copy is sealed; a phase that has not ended overruns, rule R48. E has no deadline. -/
def State.deadline (s : State) (ph : Phase) (g : BitVec 16) (cpl : Bool) : State :=
  if s.ticking && s.bit Reg.QTZ_STAT 7 then s.when (ph == .c) State.realignBeat
  else if s.phasesRun && ph != .e && !s.isSealed ph then
    let s1 := ((s.advance (s.phaseInstant ph (s.phaseEnd ph))).atDeadline ph).setSealed ph
    if s.ended ph then s1 else s1.overrun ph g cpl
  else s

def execPhaseDeadline (ph : Phase) (late : Overran) (s : State) : Out := .next (s.deadline ph late.groups late.coupling)

/-- GROUP_OVERRUN_STOP: the second overrun in a row of P or of L for a group gives it SS1; the deadline has named it already. -/
def State.groupOverrunStop (s : State) (ph : Phase) (g : Nat) : State :=
  let due := match ph with
    | .p => s.qtz.ovr2P
    | .l => s.qtz.ovr2L
    | _ => 0
  if s.ticking && due.getLsbD g then s.overrunStop (1#16 <<< g) else s

def execGroupOverrunStop (ph : Phase) (g : Fin 16) (s : State) : Out := .next (s.groupOverrunStop ph g.val)

/-! ### The tick boundary -/

/-- Configuration written in the tick that ends takes effect; a change in the solver's page makes its next solve start cold,
rule R162, a port whose control changed starts anew, a filter that becomes enabled forgets its samples, and the egress stamps held go to
their descriptors. -/
def State.landLate (s : State) : State :=
  let s1 := { s with late := [] }
  let s2 := if s.late.any (fun e => pageOf e.1 == Page.SOL) then { s1 with sol := { s1.sol with keep := none, cold := true } } else s1
  let s3 := forUpTo (fun p t => (if s.late.any (fun e => e.1 == Reg.ETH_CTRL p) then t.ethEnabled p else t).writeStamps p) 2 s2
  s3.mstStarts s

/-- What entering a state brings, rules R24, R30, R211, R221 and R232. -/
def State.entry (s : State) (old d : DevState) : State :=
  match d with
  | .selftest => s.enterSelftest
  | .ready =>
    let s1 := (s.when (old == .selftest) State.ringReady).refreshSaf
    s1.when s1.sys.heldRun (fun t => ({ t with sys := { t.sys with heldRun := false } }).runRequest)
  | .run => s.when (old == .ready) State.startAll
  | .safestop => s.ringReady
  | .degraded => s.enterDegraded
  | _ => s

/-- The trigger with the highest precedence changes the state; without one the present state goes on for another tick. -/
def State.changeState (s : State) : State :=
  match bestTrigger s.sys.triggers with
  | none => { s with sys := { s.sys with ticksInState := s.sys.ticksInState + 1 } }
  | some d =>
    let old := s.sys.dev
    let s1 := (s.when (old == .ready) State.closeSeal).loseTriggers d
    (s1.enter d).entry old d

/-- The stop causes of single events are present in their own tick only; the solver's lasts while its failures run on, and EXTF's is
the C phase's to judge. -/
def State.clearCauses (s : State) : State :=
  let s1 := forEach (fun c t => t.causeGone c)
    [.sOverrun, .cOverrun, .controlPath, .compare, .tickLoss, .degradeMax, .freeze, .selftest] s
  if s1.fld Reg.SOL_STAT 23 16 < 2 then s1.causeGone .solver else s1

/-- An engine still runs a task of phase P or L that an earlier tick granted. -/
def State.spills (s : State) : Bool :=
  (List.range 64).any (fun e =>
    match (s.engOf e).task with
    | none => false
    | some t => (s.taskPhase t == 2 || s.taskPhase t == 4) && decide ((s.taskRt t).grantTick < s.tick))

/-- What Quartz keeps of the phases for the tick that opens: G has started, where phases run; in a realignment tick no copy is
written. The seals of the tick that ended stay on its copies (rule R48, notes/assumptions/99.md). The groups that overran in the tick that ended, of parity `old`, are kept for the second overrun in a row. -/
def State.openPhases (s : State) (old : Nat) : State :=
  let run := s.phasesRun
  let q : Quartz := { s.qtz with
    begun := b2n run, ended := 0, sealed := 0, sealedPrev := s.qtz.sealed, reported := 0, cycled := 0, beat := false, ovrP := s.planBad old, ovrL := s.cmdBad old, ovr2P := 0, ovr2L := 0 }
  let bad := if run then 0 else 0x3E
  let q1 : Quartz := if s.parity = 0 then { q with invalid0 := bad, planBad0 := 0, cmdBad0 := 0 }
    else { q with invalid1 := bad, planBad1 := 0, cmdBad1 := 0 }
  ({ s with saf := { s.saf with ovr := 0, safeIn := [], bothLanes := [] }, sol := { s.sol with ecc := false } }).setQtz q1

/-- The command cut of the tick that opens, rule R16: none at a realignment tick, in which no phase would use it (DEDUCED,
notes/assumptions/34.md), and a unit in shadow takes the active unit's, rule R356. -/
def State.commandCut (s : State) : State :=
  if s.phasesRun && !(s.twinEn && decide (2 ≤ s.role)) then (forUpTo (fun g t => t.cutMailbox g) 16 s).cutRequests.takeMasters else s

/-- Power, application cores and domains at a boundary; the Dealer's preemption requests. -/
def State.powerTick (s : State) : State :=
  let s1 := ((s.dvfsTick).appcTick).domTick
  (s1.when (s1.ticking && s1.spills) (fun t => t.inc Reg.QTZ_PH_SPILL)).preemptRequests

/-- The units' part of a boundary, after the state of the new tick is known. -/
def State.openTick (s : State) (old : Nat) : State :=
  let s1 := (s.when (s.bit Reg.QTZ_STAT 7) State.solFresh).openPhases old
  let s2 := s1.commandCut
  let s3 := (forUpTo (fun a t => t.applyShift a) 144 s2).laxSample
  let s4 := ((s3.powerTick.sealTick).loadTick).refreshGates.fieldBoundary
  let s5 := (((s4.twinTick).evrBoundary).ringTick).ptCount
  let s6 := (s5.setBit Reg.SYS_STAT 4 s5.commission).setBit Reg.SAF_STAT 0 (s5.sys.dev == .degraded)
  s6.refreshSaf

/-- Every copy of the interrupted tick is sealed at the release of a freeze, rule R426. -/
def State.sealAll (s : State) : State := s.setQtz { s.qtz with sealed := 0x3F }

/-- Pulse actions that no L phase has taken are lost. -/
def State.dropPulses (s : State) : State := { s with prof := { s.prof with dqPulse := 0 } }

/-- A boundary in FROZEN: Quartz goes on in AON (notes/assumptions/96.md), the pins and the field die go on counting and sampling, a pulse
action of the tick that was cut is lost (rules R314, R316 and R317), and after a release the part resumes here, rules R44 and R423 to R427. -/
def State.frozenTick (s : State) (f : Freeze) : State :=
  let old := s.parity
  let s1 := ((s.landLate.qtzCount false false).inc Reg.CDC_COAL_CNT).laxBoundary.dropPulses
  if f.resume then (((s1.raiseLine Page.QTZ 0).thaw f).sealAll).openTick old else ((s1.openPhases old).laxSample).fieldBoundary

/-- TICK_BOUNDARY: the tick ends, Quartz counts, the state changes, and the next tick begins. Without clocks in AON's domain, in OFF
and RESET, there is none. -/
def State.tickBoundary (s : State) : State :=
  match s.sys.dev with
  | .off => s
  | .reset => s
  | .frozen => (s.sys.frozen.map (fun f => s.frozenTick f)).getD s
  | _ =>
    let old := s.parity
    let s1 := s.stopCheck.landLate.followLead
    let d := bestTrigger s1.sys.triggers
    let s2 := s1.qtzBoundary (d == some .run) (d == some .selftest)
    ((s2.laxBoundary.changeState).clearCauses).openTick old

def execTickBoundary (s : State) : Out := .next s.tickBoundary

end Sys2Proof.Machine
end

