-- ==== Sys2Proof/Machine/Dispatch.lean ====
section
/-! DEFINITION. The dispatch: one arm for each command, a direct call of its meaning. -/

namespace Sys2Proof.Machine

def exec (i : Instr) (s : State) : Host.Outcome State Fault Refusal :=
  match i with
  | .tickBoundary => Sys2Proof.Machine.execTickBoundary s
  | .tickLoss => Sys2Proof.Machine.execTickLoss s
  | .servoStale => Sys2Proof.Machine.execServoStale s
  | .qtzTimeInc ag part v => Sys2Proof.Machine.execQtzTimeInc ag part v s
  | .stepReq ag => Sys2Proof.Machine.execStepReq ag s
  | .qtzTickOfs ag v => Sys2Proof.Machine.execQtzTickOfs ag v s
  | .ringCycleBoundary mid => Sys2Proof.Machine.execRingCycleBoundary mid s
  | .launchTimeReached p q => Sys2Proof.Machine.execLaunchTimeReached p q s
  | .phaseStart ph ms => Sys2Proof.Machine.execPhaseStart ph ms s
  | .phaseComplete ph ofs => Sys2Proof.Machine.execPhaseComplete ph ofs s
  | .phaseDeadline ph late => Sys2Proof.Machine.execPhaseDeadline ph late s
  | .groupOverrunStop ph g => Sys2Proof.Machine.execGroupOverrunStop ph g s
  | .eLaunch => Sys2Proof.Machine.execELaunch s
  | .mailboxCommit ag g seq => Sys2Proof.Machine.execMailboxCommit ag g seq s
  | .runReq ag withStop => Sys2Proof.Machine.execRunReq ag withStop s
  | .stopReq ag => Sys2Proof.Machine.execStopReq ag s
  | .restartReq ag => Sys2Proof.Machine.execRestartReq ag s
  | .freeze ag => Sys2Proof.Machine.execFreeze ag s
  | .swReset ag key => Sys2Proof.Machine.execSwReset ag key s
  | .sysWdtKick ag v => Sys2Proof.Machine.execSysWdtKick ag v s
  | .wdtWarn => Sys2Proof.Machine.execWdtWarn s
  | .wdtExpiry => Sys2Proof.Machine.execWdtExpiry s
  | .railsStable mv => Sys2Proof.Machine.execRailsStable mv s
  | .railUndervoltage rail mv => Sys2Proof.Machine.execRailUndervoltage rail mv s
  | .railOvervoltage rail mv => Sys2Proof.Machine.execRailOvervoltage rail mv s
  | .resetN => Sys2Proof.Machine.execResetN s
  | .resetRelease inp => Sys2Proof.Machine.execResetRelease inp s
  | .selftestDone pass => Sys2Proof.Machine.execSelftestDone pass s
  | .pwrDvfsReq ag quad point => Sys2Proof.Machine.execPwrDvfsReq ag quad point s
  | .pwrAppcReq ag freq => Sys2Proof.Machine.execPwrAppcReq ag freq s
  | .railSettled quad mv => Sys2Proof.Machine.execRailSettled quad mv s
  | .dvfsRampTimeout quad => Sys2Proof.Machine.execDvfsRampTimeout quad s
  | .domainPowerDown ag req => Sys2Proof.Machine.execDomainPowerDown ag req s
  | .domainPowerUp ag req => Sys2Proof.Machine.execDomainPowerUp ag req s
  | .frzNAssert => Sys2Proof.Machine.execFrzNAssert s
  | .freezeRelease inp => Sys2Proof.Machine.execFreezeRelease inp s
  | .readoutStart => Sys2Proof.Machine.execReadoutStart s
  | .readoutEnd bytes ue => Sys2Proof.Machine.execReadoutEnd bytes ue s
  | .nop e slot fin => Sys2Proof.Machine.execNop e slot fin s
  | .mpy e fin n a b => Sys2Proof.Machine.execMpy e fin n a b s
  | .mac e fin n a b => Sys2Proof.Machine.execMac e fin n a b s
  | .msu e fin n a b => Sys2Proof.Machine.execMsu e fin n a b s
  | .mpyu e fin n a b => Sys2Proof.Machine.execMpyu e fin n a b s
  | .macu e fin n a b => Sys2Proof.Machine.execMacu e fin n a b s
  | .mach e fin n a b => Sys2Proof.Machine.execMach e fin n a b s
  | .qmpy e fin a b => Sys2Proof.Machine.execQmpy e fin a b s
  | .qmac e fin a b => Sys2Proof.Machine.execQmac e fin a b s
  | .cmpy e fin n a b => Sys2Proof.Machine.execCmpy e fin n a b s
  | .cmac e fin n a b => Sys2Proof.Machine.execCmac e fin n a b s
  | .cmacj e fin n a b => Sys2Proof.Machine.execCmacj e fin n a b s
  | .aclr e fin n => Sys2Proof.Machine.execAclr e fin n s
  | .aadd e fin n b => Sys2Proof.Machine.execAadd e fin n b s
  | .ash e fin n b => Sys2Proof.Machine.execAsh e fin n b s
  | .expa e fin n a => Sys2Proof.Machine.execExpa e fin n a s
  | .mov e second fin d r => Sys2Proof.Machine.execMov e second fin d r s
  | .movp e second fin d r => Sys2Proof.Machine.execMovp e second fin d r s
  | .ld e second fin d x mode ecc => Sys2Proof.Machine.execLd e second fin d x mode ecc s
  | .st e second fin d x mode ecc => Sys2Proof.Machine.execSt e second fin d x mode ecc s
  | .ldp e second fin d x mode ecc => Sys2Proof.Machine.execLdp e second fin d x mode ecc s
  | .stp e second fin d x mode ecc => Sys2Proof.Machine.execStp e second fin d x mode ecc s
  | .mva e second fin d acc form => Sys2Proof.Machine.execMva e second fin d acc form s
  | .mav e second fin d acc form => Sys2Proof.Machine.execMav e second fin d acc form s
  | .add e second fin d r => Sys2Proof.Machine.execAdd e second fin d r s
  | .adds e second fin d r => Sys2Proof.Machine.execAdds e second fin d r s
  | .sub e second fin d r => Sys2Proof.Machine.execSub e second fin d r s
  | .subs e second fin d r => Sys2Proof.Machine.execSubs e second fin d r s
  | .addp e second fin d r => Sys2Proof.Machine.execAddp e second fin d r s
  | .subp e second fin d r => Sys2Proof.Machine.execSubp e second fin d r s
  | .andOp e second fin d r => Sys2Proof.Machine.execAndOp e second fin d r s
  | .orOp e second fin d r => Sys2Proof.Machine.execOrOp e second fin d r s
  | .xorOp e second fin d r => Sys2Proof.Machine.execXorOp e second fin d r s
  | .sra e second fin d imm => Sys2Proof.Machine.execSra e second fin d imm s
  | .srar e second fin d imm => Sys2Proof.Machine.execSrar e second fin d imm s
  | .sll e second fin d imm => Sys2Proof.Machine.execSll e second fin d imm s
  | .srl e second fin d imm => Sys2Proof.Machine.execSrl e second fin d imm s
  | .cmp e second fin d r => Sys2Proof.Machine.execCmp e second fin d r s
  | .exp e second fin d r => Sys2Proof.Machine.execExp e second fin d r s
  | .norm e second fin d r => Sys2Proof.Machine.execNorm e second fin d r s
  | .movx e second fin c r => Sys2Proof.Machine.execMovx e second fin c r s
  | .movd e second fin d c => Sys2Proof.Machine.execMovd e second fin d c s
  | .minOp e second fin d r => Sys2Proof.Machine.execMinOp e second fin d r s
  | .maxOp e second fin d r => Sys2Proof.Machine.execMaxOp e second fin d r s
  | .absOp e second fin d r => Sys2Proof.Machine.execAbsOp e second fin d r s
  | .addi e second fin d imm => Sys2Proof.Machine.execAddi e second fin d imm s
  | .br e fin off => Sys2Proof.Machine.execBr e fin off s
  | .bcc e fin cond off => Sys2Proof.Machine.execBcc e fin cond off s
  | .take e fin => Sys2Proof.Machine.execTake e fin s
  | .doneOp e fin => Sys2Proof.Machine.execDoneOp e fin s
  | .setf e fin r => Sys2Proof.Machine.execSetf e fin r s
  | .pen e fin => Sys2Proof.Machine.execPen e fin s
  | .pdis e fin => Sys2Proof.Machine.execPdis e fin s
  | .rte e fin => Sys2Proof.Machine.execRte e fin s
  | .jr e fin r => Sys2Proof.Machine.execJr e fin r s
  | .loopr e fin l r last => Sys2Proof.Machine.execLoopr e fin l r last s
  | .rdcyc e fin d => Sys2Proof.Machine.execRdcyc e fin d s
  | .rdeng e fin d => Sys2Proof.Machine.execRdeng e fin d s
  | .clrs e fin => Sys2Proof.Machine.execClrs e fin s
  | .ret e fin => Sys2Proof.Machine.execRet e fin s
  | .yield e fin => Sys2Proof.Machine.execYield e fin s
  | .lbr e fin off => Sys2Proof.Machine.execLbr e fin off s
  | .lcall e fin off => Sys2Proof.Machine.execLcall e fin off s
  | .loopImm e fin l count last => Sys2Proof.Machine.execLoopImm e fin l count last s
  | .mvs e fin c r => Sys2Proof.Machine.execMvs e fin c r s
  | .msv e fin d c => Sys2Proof.Machine.execMsv e fin d c s
  | .shi e fin n imm => Sys2Proof.Machine.execShi e fin n imm s
  | .movi e fin d imm => Sys2Proof.Machine.execMovi e fin d imm s
  | .movix e fin c imm => Sys2Proof.Machine.execMovix e fin c imm s
  | .preemptionTrap e => Sys2Proof.Machine.execPreemptionTrap e s
  | .engCtrlEn ag e v => Sys2Proof.Machine.execEngCtrlEn ag e v s
  | .codeSramWrite loader e bundle v => Sys2Proof.Machine.execCodeSramWrite loader e bundle v s
  | .dlrArm ag v => Sys2Proof.Machine.execDlrArm ag v s
  | .dlrCancel ag v => Sys2Proof.Machine.execDlrCancel ag v s
  | .dlrSetf ag v => Sys2Proof.Machine.execDlrSetf ag v s
  | .dlrClrf ag v => Sys2Proof.Machine.execDlrClrf ag v s
  | .dlrFlowReset ag v => Sys2Proof.Machine.execDlrFlowReset ag v s
  | .dlrCtxWrite ag w v => Sys2Proof.Machine.execDlrCtxWrite ag w v s
  | .dlrCoreTake ag n => Sys2Proof.Machine.execDlrCoreTake ag n s
  | .coreTakeTimeout n => Sys2Proof.Machine.execCoreTakeTimeout n s
  | .dlrCoreDone ag n v => Sys2Proof.Machine.execDlrCoreDone ag n v s
  | .dlrCoreYield ag n v => Sys2Proof.Machine.execDlrCoreYield ag n v s
  | .eventQueueAccept => Sys2Proof.Machine.execEventQueueAccept s
  | .taskGrant q => Sys2Proof.Machine.execTaskGrant q s
  | .stageInComplete => Sys2Proof.Machine.execStageInComplete s
  | .stealDelayExpiry t => Sys2Proof.Machine.execStealDelayExpiry t s
  | .flowRelease f => Sys2Proof.Machine.execFlowRelease f s
  | .moveAbs g seq mask valid fs => Sys2Proof.Machine.execMoveAbs g seq mask valid fs s
  | .moveRel g seq mask valid fs => Sys2Proof.Machine.execMoveRel g seq mask valid fs s
  | .jog g seq mask valid fs => Sys2Proof.Machine.execJog g seq mask valid fs s
  | .setLim g seq mask valid fs => Sys2Proof.Machine.execSetLim g seq mask valid fs s
  | .stop g seq mask valid fs => Sys2Proof.Machine.execStop g seq mask valid fs s
  | .resume g seq mask valid fs => Sys2Proof.Machine.execResume g seq mask valid fs s
  | .abort g seq mask valid fs => Sys2Proof.Machine.execAbort g seq mask valid fs s
  | .gearIn g seq mask valid fs => Sys2Proof.Machine.execGearIn g seq mask valid fs s
  | .camIn g seq mask valid fs => Sys2Proof.Machine.execCamIn g seq mask valid fs s
  | .syncOut g seq mask valid fs => Sys2Proof.Machine.execSyncOut g seq mask valid fs s
  | .home g seq mask valid fs => Sys2Proof.Machine.execHome g seq mask valid fs s
  | .setPos g seq mask valid fs => Sys2Proof.Machine.execSetPos g seq mask valid fs s
  | .follow g seq mask valid fs => Sys2Proof.Machine.execFollow g seq mask valid fs s
  | .masterStale g => Sys2Proof.Machine.execMasterStale g s
  | .homeDebounceEnd a inp edges before level pos time => Sys2Proof.Machine.execHomeDebounceEnd a inp edges before level pos time s
  | .cmpArm ag a c v => Sys2Proof.Machine.execCmpArm ag a c v s
  | .cmpDisarm ag a c v => Sys2Proof.Machine.execCmpDisarm ag a c v s
  | .loopOpen ag a op cl => Sys2Proof.Machine.execLoopOpen ag a op cl s
  | .loopClose ag a op cl => Sys2Proof.Machine.execLoopClose ag a op cl s
  | .coefWrite ag a j w v => Sys2Proof.Machine.execCoefWrite ag a j w v s
  | .followingError a => Sys2Proof.Machine.execFollowingError a s
  | .solverSecondFailure => Sys2Proof.Machine.execSolverSecondFailure s
  | .jointMissStop g => Sys2Proof.Machine.execJointMissStop g s
  | .sourceMissStop h => Sys2Proof.Machine.execSourceMissStop h s
  | .stopDemandClear g => Sys2Proof.Machine.execStopDemandClear g s
  | .inputDemandEnter f => Sys2Proof.Machine.execInputDemandEnter f s
  | .inputDemandLeave f => Sys2Proof.Machine.execInputDemandLeave f s
  | .discrepancy f => Sys2Proof.Machine.execDiscrepancy f s
  | .standstillReached g => Sys2Proof.Machine.execStandstillReached g s
  | .ss1TmaxExpiry g => Sys2Proof.Machine.execSs1TmaxExpiry g s
  | .safAck ag m => Sys2Proof.Machine.execSafAck ag m s
  | .safRel ag m => Sys2Proof.Machine.execSafRel ag m s
  | .degradeMaxExpiry => Sys2Proof.Machine.execDegradeMaxExpiry s
  | .degradeFaultClear c => Sys2Proof.Machine.execDegradeFaultClear c s
  | .periodicSelftest test pass => Sys2Proof.Machine.execPeriodicSelftest test pass s
  | .slateCompareStart => Sys2Proof.Machine.execSlateCompareStart s
  | .slateCompareResult tick agree => Sys2Proof.Machine.execSlateCompareResult tick agree s
  | .slateClean => Sys2Proof.Machine.execSlateClean s
  | .safPtStart ag => Sys2Proof.Machine.execSafPtStart ag s
  | .proofTestEnd failed => Sys2Proof.Machine.execProofTestEnd failed s
  | .proofTestDue => Sys2Proof.Machine.execProofTestDue s
  | .safStore ag v => Sys2Proof.Machine.execSafStore ag v s
  | .safStoreDone img crcA crcB flashOk => Sys2Proof.Machine.execSafStoreDone img crcA crcB flashOk s
  | .safLoad ag v => Sys2Proof.Machine.execSafLoad ag v s
  | .sealSwAccept line level => Sys2Proof.Machine.execSealSwAccept line level s
  | .sealOpen ag => Sys2Proof.Machine.execSealOpen ag s
  | .sealClose ag => Sys2Proof.Machine.execSealClose ag s
  | .passwordSet ag => Sys2Proof.Machine.execPasswordSet ag s
  | .sealTimeout => Sys2Proof.Machine.execSealTimeout s
  | .passwordLockoutEnd => Sys2Proof.Machine.execPasswordLockoutEnd s
  | .methodChangeReq ag v => Sys2Proof.Machine.execMethodChangeReq ag v s
  | .safLogClr ag v => Sys2Proof.Machine.execSafLogClr ag v s
  | .testTrip ag opened => Sys2Proof.Machine.execTestTrip ag opened s
  | .flintArm ag seed => Sys2Proof.Machine.execFlintArm ag seed s
  | .flintTripCmd ag => Sys2Proof.Machine.execFlintTripCmd ag s
  | .flintHeartbeat word cycles => Sys2Proof.Machine.execFlintHeartbeat word cycles s
  | .flintTimeout => Sys2Proof.Machine.execFlintTimeout s
  | .flintOscFault => Sys2Proof.Machine.execFlintOscFault s
  | .flintRearm => Sys2Proof.Machine.execFlintRearm s
  | .refFrame p lane f dev loop stamp => Sys2Proof.Machine.execRefFrame p lane f dev loop stamp s
  | .cycOut p cyc pay okA okB => Sys2Proof.Machine.execCycOut p cyc pay okA okB s
  | .cycIn p n h pay okA okB => Sys2Proof.Machine.execCycIn p n h pay okA okB s
  | .safeOut p pay ok => Sys2Proof.Machine.execSafeOut p pay ok s
  | .safeIn p n h pay okA okB => Sys2Proof.Machine.execSafeIn p n h pay okA okB s
  | .trumpFrame p n lane data stamp => Sys2Proof.Machine.execTrumpFrame p n lane data stamp s
  | .bulkFrame p n lane f stamp => Sys2Proof.Machine.execBulkFrame p n lane f stamp s
  | .bulkAck p n lane acks stamp => Sys2Proof.Machine.execBulkAck p n lane acks stamp s
  | .claimFrame p lane src prio devId stamp => Sys2Proof.Machine.execClaimFrame p lane src prio devId stamp s
  | .rqFrame p entries => Sys2Proof.Machine.execRqFrame p entries s
  | .rtyFrame p blk data ok => Sys2Proof.Machine.execRtyFrame p blk data ok s
  | .backupTakeover p => Sys2Proof.Machine.execBackupTakeover p s
  | .listenEnd p => Sys2Proof.Machine.execListenEnd p s
  | .claimWon p => Sys2Proof.Machine.execClaimWon p s
  | .descriptorReply p n lane d => Sys2Proof.Machine.execDescriptorReply p n lane d s
  | .nodeSilence p => Sys2Proof.Machine.execNodeSilence p s
  | .rqLaunch p => Sys2Proof.Machine.execRqLaunch p s
  | .ortLaunch p bad => Sys2Proof.Machine.execOrtLaunch p bad s
  | .bulkWindow p room => Sys2Proof.Machine.execBulkWindow p room s
  | .portGatherComplete p => Sys2Proof.Machine.execPortGatherComplete p s
  | .nodeLost p n => Sys2Proof.Machine.execNodeLost p n s
  | .rngSoftFlip ag p copy => Sys2Proof.Machine.execRngSoftFlip ag p copy s
  | .rngBulkTail ag p v => Sys2Proof.Machine.execRngBulkTail ag p v s
  | .portEnable ag p v => Sys2Proof.Machine.execPortEnable ag p v s
  | .trainPassed p lane => Sys2Proof.Machine.execTrainPassed p lane s
  | .trainTimeout p lane => Sys2Proof.Machine.execTrainTimeout p lane s
  | .bypassSettled p lane => Sys2Proof.Machine.execBypassSettled p lane s
  | .joinPassed p lane => Sys2Proof.Machine.execJoinPassed p lane s
  | .joinTimeout p lane => Sys2Proof.Machine.execJoinTimeout p lane s
  | .measureMarker p rtt => Sys2Proof.Machine.execMeasureMarker p rtt s
  | .measureDone p lane loss => Sys2Proof.Machine.execMeasureDone p lane loss s
  | .measureTimeout p lane => Sys2Proof.Machine.execMeasureTimeout p lane s
  | .laneLoss p lane lock => Sys2Proof.Machine.execLaneLoss p lane lock s
  | .linkRetryExpiry p lane => Sys2Proof.Machine.execLinkRetryExpiry p lane s
  | .encoderEdge e a b stamp => Sys2Proof.Machine.execEncoderEdge e a b stamp s
  | .indexEdge e z stamp => Sys2Proof.Machine.execIndexEdge e z stamp s
  | .lineFault e line present => Sys2Proof.Machine.execLineFault e line present s
  | .hallTransition h code stamp => Sys2Proof.Machine.execHallTransition h code stamp s
  | .ssiFrameDone c data extra idleHigh mono => Sys2Proof.Machine.execSsiFrameDone c data extra idleHigh mono s
  | .stepPulse n => Sys2Proof.Machine.execStepPulse n s
  | .diSample j x => Sys2Proof.Machine.execDiSample j x s
  | .countEdge ix rising stamp => Sys2Proof.Machine.execCountEdge ix rising stamp s
  | .checkedWord => Sys2Proof.Machine.execCheckedWord s
  | .cmdLoss => Sys2Proof.Machine.execCmdLoss s
  | .outputOverload ix => Sys2Proof.Machine.execOutputOverload ix s
  | .overloadRetry ix holds => Sys2Proof.Machine.execOverloadRetry ix holds s
  | .openLoad ix off => Sys2Proof.Machine.execOpenLoad ix off s
  | .lpUndervoltage g => Sys2Proof.Machine.execLpUndervoltage g s
  | .lpRecovery g => Sys2Proof.Machine.execLpRecovery g s
  | .lpOvervoltage g => Sys2Proof.Machine.execLpOvervoltage g s
  | .vccFLoss => Sys2Proof.Machine.execVccFLoss s
  | .vccFRecovery => Sys2Proof.Machine.execVccFRecovery s
  | .ethFrameRx p f => Sys2Proof.Machine.execEthFrameRx p f s
  | .ethTxComplete p q raw stampsFull => Sys2Proof.Machine.execEthTxComplete p q raw stampsFull s
  | .ethLinkDown p => Sys2Proof.Machine.execEthLinkDown p s
  | .ethRxrTail ag p q v => Sys2Proof.Machine.execEthRxrTail ag p q v s
  | .ethTxrTail ag p q v => Sys2Proof.Machine.execEthTxrTail ag p q v s
  | .barAccess bar ofs len write => Sys2Proof.Machine.execBarAccess bar ofs len write s
  | .pcieEndpointReset linkLoss => Sys2Proof.Machine.execPcieEndpointReset linkLoss s
  | .flashWrite ag addr len data => Sys2Proof.Machine.execFlashWrite ag addr len data s
  | .jtagInstruction ix => Sys2Proof.Machine.execJtagInstruction ix s
  | .interlockTake => Sys2Proof.Machine.execInterlockTake s
  | .interlockCheck => Sys2Proof.Machine.execInterlockCheck s
  | .interlockRetry => Sys2Proof.Machine.execInterlockRetry s
  | .startWaitExpiry => Sys2Proof.Machine.execStartWaitExpiry s
  | .leaseExpiry => Sys2Proof.Machine.execLeaseExpiry s
  | .mirrorFrame m image => Sys2Proof.Machine.execMirrorFrame m image s
  | .twinHeartbeat b => Sys2Proof.Machine.execTwinHeartbeat b s
  | .heartbeatCheck => Sys2Proof.Machine.execHeartbeatCheck s
  | .syncOp ag => Sys2Proof.Machine.execSyncOp ag s
  | .autoSyncStart => Sys2Proof.Machine.execAutoSyncStart s
  | .syncCaughtUp digestOk => Sys2Proof.Machine.execSyncCaughtUp digestOk s
  | .syncTimeout => Sys2Proof.Machine.execSyncTimeout s
  | .resign cause => Sys2Proof.Machine.execResign cause s
  | .healthWord w => Sys2Proof.Machine.execHealthWord w s
  | .standbyFlintTest opened seed => Sys2Proof.Machine.execStandbyFlintTest opened seed s
  | .parallelHoldEnd => Sys2Proof.Machine.execParallelHoldEnd s
  | .twinAlarmMirror entry ws => Sys2Proof.Machine.execTwinAlarmMirror entry ws s
  | .scrubRead mem addr ecc => Sys2Proof.Machine.execScrubRead mem addr ecc s
  | .eccWriteBack mem addr cancelled => Sys2Proof.Machine.execEccWriteBack mem addr cancelled s
  | .ddrScrub addr ecc => Sys2Proof.Machine.execDdrScrub addr ecc s
  | .fabricNak link resends load => Sys2Proof.Machine.execFabricNak link resends load s
  | .cdcStallTimeout sender receiver => Sys2Proof.Machine.execCdcStallTimeout sender receiver s
  | .crossingRearm sender receiver lost => Sys2Proof.Machine.execCrossingRearm sender receiver lost s
  | .tempSample t => Sys2Proof.Machine.execTempSample t s
  | .raisingReceive page => Sys2Proof.Machine.execRaisingReceive page s
  | .eventRecordWrite page => Sys2Proof.Machine.execEventRecordWrite page s
  | .evtAlmAck ag entry count => Sys2Proof.Machine.execEvtAlmAck ag entry count s
  | .evtEvrTail ag v => Sys2Proof.Machine.execEvtEvrTail ag v s
  | .evtTrcRd ag v => Sys2Proof.Machine.execEvtTrcRd ag v s
  | .evtTrcSw core typ w4 w5 w6 w7 => Sys2Proof.Machine.execEvtTrcSw core typ w4 w5 w6 w7 s
  | .traceDrain src => Sys2Proof.Machine.execTraceDrain src s
  | .registerWrite ag addr wide v => Sys2Proof.Machine.execRegisterWrite ag addr wide v s
  | .rcRead ag addr => Sys2Proof.Machine.execRcRead ag addr s
  | .pgIrqSet ag page v => Sys2Proof.Machine.execPgIrqSet ag page v s
  | .pgIrqRawClear ag page v => Sys2Proof.Machine.execPgIrqRawClear ag page v s
  | .pgCtrlWrite ag page v => Sys2Proof.Machine.execPgCtrlWrite ag page v s
  | .pgLock ag page v => Sys2Proof.Machine.execPgLock ag page v s
  | .pllLockLoss pll => Sys2Proof.Machine.execPllLockLoss pll s
  | .referenceFail ref => Sys2Proof.Machine.execReferenceFail ref s
  | .ethLinkUp p rate anDone => Sys2Proof.Machine.execEthLinkUp p rate anDone s
  | .pcieLinkUp speed width => Sys2Proof.Machine.execPcieLinkUp speed width s
  | .ilkPeerChange low => Sys2Proof.Machine.execIlkPeerChange low s
  | .twinHbIToggle => Sys2Proof.Machine.execTwinHbIToggle s
  | .proofTestGraceExpiry => Sys2Proof.Machine.execProofTestGraceExpiry s

end Sys2Proof.Machine
end

