-- ==== Sys2Proof/Machine/Step.lean ====
section
/-! DEFINITION. One step: the command at the front of the queue is taken out and has its effect. -/

namespace Sys2Proof.Machine

/-- One step of the block: the command at the front of the queue runs on the state with the queue's rest; with no
command waiting the block idles (DESIGN CHOICE, notes/assumptions/6.md). -/
def step (s : State) : Host.Outcome State Fault Refusal :=
  match s.pending with
  | [] => .next s
  | c :: rest => exec c { s with pending := rest }

/-- `s` with the command that a word spells put at the front of its queue. No row of the table has bits, so no word
spells a command and the state stays as it is (notes/assumptions/7.md). -/
def State.withFetchWord (s : State) (nbits w : Nat) : State :=
  match decodeTableWord nbits w with
  | some c => { s with pending := c :: s.pending }
  | none => s

/-- `s` with the operations of the bundle that engine `e` fetches next, from code SRAM at its pc, put at the front of its queue: the fetch
that rule R57 gives the engine, which the sender of the operations stands for (notes/assumptions/150.md). A bundle with a reserved
encoding is one whose operations end in fault 0x01. -/
def State.withBundle (s : State) (e : Fin 64) : State :=
  { s with pending := (decodeBundle e (s.code.getN (0x10000 * e.val + (s.engOf e.val).pc) 8)).getD [.nop e 3 true] ++ s.pending }

end Sys2Proof.Machine
end

