-- ==== Sys2Proof/WellFormed.lean ====
section
/-! DEFINITION. Which commands are well formed: the ranges of their operands that the types do not state. A command that is not well
formed stands for nothing the part can meet; the meanings do not depend on this check. -/

namespace Sys2Proof

/-- Member records of a group command: at most one for each of 16 members, rule R110. -/
def fieldsOk (fs : List MemberFields) : Bool := decide (fs.length ≤ 16)

/-- A register page number, rule R430. -/
def pageNumOk (page : Nat) : Bool := decide (page < 0x290)

/-- A block of a frame names a node and one of at most 8 blocks, rules R239 and R268. -/
def RingBlock.wf (b : RingBlock) : Bool := decide (b.node < 64 ∧ b.block < 8)

/-- Data that a transfer of `len` bytes carries. -/
def carries (len : Nat) : Option (List (BitVec 8)) → Bool
  | none => true
  | some bs => bs.length == len

/-- The operands lie in the ranges the spec gives them. Commands whose operand types already state every range are well formed. -/
def Instr.wf : Instr → Bool
  | .phaseDeadline ph late => (late.groups == 0 || ph == .p || ph == .l) && (!late.coupling || ph == .p)
  | .groupOverrunStop ph _ => ph == .p || ph == .l
  | .railsStable mv => mv.length == 13
  | .moveAbs _ _ _ _ fs => fieldsOk fs
  | .moveRel _ _ _ _ fs => fieldsOk fs
  | .jog _ _ _ _ fs => fieldsOk fs
  | .setLim _ _ _ _ fs => fieldsOk fs
  | .stop _ _ _ _ fs => fieldsOk fs
  | .resume _ _ _ _ fs => fieldsOk fs
  | .abort _ _ _ _ fs => fieldsOk fs
  | .gearIn _ _ _ _ fs => fieldsOk fs
  | .camIn _ _ _ _ fs => fieldsOk fs
  | .syncOut _ _ _ _ fs => fieldsOk fs
  | .home _ _ _ _ fs => fieldsOk fs
  | .setPos _ _ _ _ fs => fieldsOk fs
  | .follow _ _ _ _ fs => fieldsOk fs
  | .cycOut _ _ pay _ _ => decide (pay.length ≤ 2032)
  | .cycIn _ _ _ pay _ _ => decide (pay.length ≤ 2032)
  | .trumpFrame _ _ _ data _ => data.length == 64
  | .descriptorReply _ _ _ d => d.length == 32
  | .rqFrame _ entries => entries.all RingBlock.wf
  | .rtyFrame _ blk data _ => blk.wf && decide (data.length ≤ 256)
  | .ortLaunch _ bad => bad.all RingBlock.wf
  | .diSample _ x => x.di.length == 32 && x.current.length == 16
  | .ethFrameRx _ f => decide (14 ≤ f.bytes.length)
  | .barAccess _ _ len write => carries len write
  | .flashWrite _ _ len data => carries len data
  | .bulkFrame _ _ _ f _ => f.typ == 7 || f.typ == 0 || decide (12 ≤ f.typ.toNat)
  | .mirrorFrame m _ => m.gather.all (fun e => decide (e.1 < 0x84480))
  | .twinAlarmMirror _ ws => ws.length == 16
  | .scrubRead _ addr _ => addr.toNat % 8 == 0
  | .eccWriteBack _ addr _ => addr.toNat % 8 == 0
  | .ddrScrub addr _ => addr.toNat % 8 == 0
  | .raisingReceive page => pageNumOk page
  | .eventRecordWrite page => pageNumOk page
  | .registerWrite _ addr wide _ => addr % (if wide then 8 else 4) == 0
  | .rcRead _ addr => addr % 4 == 0
  | .pgIrqSet _ page _ => pageNumOk page
  | .pgIrqRawClear _ page _ => pageNumOk page
  | .pgCtrlWrite _ page _ => pageNumOk page
  | .pgLock _ page _ => pageNumOk page
  | _ => true

end Sys2Proof
end

