-- ==== Sys2Proof/Safety.lean ====
section
/-! DEFINITION. What counts as a sound state and a safe run, in the terms the statements use. -/

namespace Sys2Proof.Machine

/-- Every register file and memory of the state is in its one canonical form: keys strictly rise and no entry equals what an unlisted
key reads as. -/
structure State.Canonical (s : State) : Prop where
  regs : Tab.wf regReset s.regs = true
  cell : s.cell.wf = true
  dram : s.dram.wf = true
  flash : s.flash.wf = true
  code : s.code.wf = true
  data : s.data.wf = true

/-- Every table of the state is in canonical form, the queue is `q`, the device state is `d`, and each trigger that waits for the
boundary is one that rule R26 lists for `d`. -/
structure State.Kept (q : List Instr) (d : DevState) (s : State) : Prop extends s.Canonical where
  queue : s.pending = q
  dev : s.sys.dev = d
  legal : ∀ x ∈ s.sys.triggers, transition d x = true

/-- The invariant of the block: canonical tables, and only triggers that rule R26 lists for the present state. -/
def State.Sound (s : State) : Prop := s.Canonical ∧ ∀ x ∈ s.sys.triggers, transition s.sys.dev x = true

/-- BOOT to SAFESTOP. -/
def DevState.live : DevState → Bool
  | .off => false
  | .reset => false
  | .frozen => false
  | _ => true

/-- The moves between device states of rule R26's table: `f` is what the part keeps of a freeze. -/
def DevState.moves (f : Option Freeze) (d e : DevState) : Prop :=
  (d = .off ∧ e = .reset) ∨ e = .off ∨ (d ≠ .off ∧ e = .reset) ∨ (d = .reset ∧ e = .boot) ∨ transition d e = true ∨
    (d.live = true ∧ e = .frozen) ∨ (d = .frozen ∧ ∃ x, f = some x ∧ e = if x.armed then .safestop else x.before)

/-- A software write of page `p` reaches it, rules R437, R438, R440 and R384: the clocks run, the page is present and its domain
powered, and the agent has the right and is not locked out. -/
def State.writable (s : State) (ag : Agent) (p : Nat) : Bool :=
  s.clocked && (pageKind p).isSome && s.domOn (domainOf p) && pageRight ag p && !s.lockedOut ag p

/-- A write to the configuration region of page `p` is judged by the page alone: it reaches the page, and PG_LOCK.CFG is clear. -/
def State.cfgWritable (s : State) (ag : Agent) (p : Nat) : Bool := s.writable ag p && !s.bit (Reg.PG_LOCK p) 0

/-- Of the registers only those of `l` differ. -/
def State.SameRegs (s t : State) (l : List Nat) : Prop := ∀ a, a ∉ l → t.rd a = s.rd a

/-- The registers that a trace record of a source may change: its drops, the gap markers, and what shows them (rule R401). -/
def traceRegs (src : Nat) : List Nat := [Reg.EVT_TRC_DROP_CNT src, Reg.EVT_TRC_GAP_CNT, Reg.EVT_STAT, Reg.PG_IRQ_RAW Page.EVT]

/-- Nothing but registers differs, and of these only those of `l`. -/
def State.Writes (s t : State) (l : List Nat) : Prop := s.SameRegs t l ∧ t = { s with regs := t.regs }

/-- Nothing differs but the registers of `l`, the raisings `rs` now on their way to the event unit, and MSI-X messages sent or
pending. -/
def State.Raises (s t : State) (l : List Nat) (rs : List Raising) : Prop :=
  s.SameRegs t l ∧
  t = { s with regs := t.regs, evt := { s.evt with raisings := s.evt.raisings ++ rs }, msix := t.msix,
               plant := { s.plant with msixPend := t.plant.msixPend } }

/-- No memory differs. -/
def State.SameMemory (s t : State) : Prop :=
  t.cell = s.cell ∧ t.dram = s.dram ∧ t.flash = s.flash ∧ t.code = s.code ∧ t.data = s.data

/-- Engine `e` executes, its last bundle is complete and left nothing on the way: no late register, no delay slot, no running loop and no
loop end at its pc; the code word there can be read and is no reserved encoding. -/
def State.freshBundle (s : State) (e : Nat) : Bool :=
  s.engRuns e && (s.engOf e).staged.isEmpty && (s.engOf e).late.isEmpty && (s.engOf e).delay.isNone &&
    (s.engOf e).spr 4 == 0 && (s.engOf e).spr 7 == 0 && !(s.engOf e).loopLast 0 && !(s.engOf e).loopLast 1 &&
    !s.codeReserved e (s.engOf e).pc && !s.ueIn e (s.engOf e).pc 8

/-- The engine at the next bundle: the accumulators are as an MVA then reads them, rule R68. -/
def Eng.next (g : Eng) : Eng := { g with accMva := g.acc, pc := codeAddr (g.pc + 8) }

/-- A bundle of engine `e` leaves the engine as `g`; no other engine, no memory, and of the registers only its counters and ENG_STAT
differ. -/
def State.OneBundle (s t : State) (e : Nat) (g : Eng) : Prop :=
  t.engOf e = g ∧ (∀ k, k ≠ e → t.engOf k = s.engOf k) ∧
  s.SameRegs t [Reg.ENG_BUSY_CNT e, Reg.ENG_BUSY_CNT e + 4, Reg.ENG_STALL_CNT e, Reg.ENG_STAT e] ∧ s.SameMemory t

/-- A command completes in a state with what `P` says of the state after it. -/
def Completes (c : Instr) (s : State) (P : State → Prop) : Prop := ∃ t, exec c s = .next t ∧ P t

/-- Axis `a` is member `m` of group `g`, a command's mask names it, and no other member is the same axis. -/
def State.namedOnce (s : State) (g mask m a : Nat) : Prop :=
  (m, a) ∈ s.members g ∧ mask.testBit m = true ∧ ∀ p ∈ s.members g, p ≠ (m, a) → p.2 ≠ a

/-- What an operation that writes an entry of the safety change log leaves of the memories: all of them, but the entry's own 64 bytes of the
flash, which the T40 method alone writes (rules R233 and R343; the place is the model's choice, notes/assumptions/148.md). -/
def State.LogMemory (s t : State) : Prop :=
  t.cell = s.cell ∧ t.dram = s.dram ∧ t.code = s.code ∧ t.data = s.data ∧ (s.t40 = false → t.flash = s.flash) ∧
    ∀ i, i < 0x1304000 + 64 * (s.saf.logSeq % 256) ∨ 0x1304040 + 64 * (s.saf.logSeq % 256) ≤ i → t.flash.get8 i = s.flash.get8 i

/-- What a command of group `g` leaves alone: every register but MBX_STAT of the group and those of the pages of the members that the mask
names; every memory; every axis it does not name. -/
def State.GroupFrame (s t : State) (g mask : Nat) : Prop :=
  (∀ r, r ≠ Reg.PRFG_MBX_STAT g → (∀ p ∈ s.members g, mask.testBit p.1 = true → pageOf r ≠ Page.PRF p.2) → t.rd r = s.rd r) ∧
    s.SameMemory t ∧ ∀ b, (∀ p ∈ s.members g, mask.testBit p.1 = true → p.2 ≠ b) → t.axis b = s.axis b

/-- What a MOVE of group `g` leaves alone: the same, but where the group synchronises its moves the other members may take the tick of its
joint set, rule R115. -/
def State.JoinFrame (s t : State) (g mask : Nat) : Prop :=
  (∀ r, r ≠ Reg.PRFG_MBX_STAT g → (∀ p ∈ s.members g, mask.testBit p.1 = true → pageOf r ≠ Page.PRF p.2) → t.rd r = s.rd r) ∧
    s.SameMemory t ∧ ∀ b, (∀ p ∈ s.members g, mask.testBit p.1 = true → p.2 ≠ b) →
      t.axis b = s.axis b ∨ (s.bit (Reg.PRFG_CTRL g) 1 = true ∧ t.axis b = { s.axis b with joint := some s.tick })

end Sys2Proof.Machine
end

