-- ==== Sys2Proof/Certificates/Slice0/Obligations.lean ====
section
/-! DEFINITION. The statements for the provers: what each command does, what it leaves alone and that it completes, with the invariant that
every step keeps. -/

open Sys2Proof Sys2Proof.Machine

/-- PG_IRQ_SET, PG_IRQ_RAW, PG_CTRL and PG_LOCK of a page (rules R433, R440, R442 and R443): each 1 sets, or clears, its bit of
PG_IRQ_RAW, and a bit that the page's chapter does not define stays 0; VEC, TO_HOST and TO_CORE take the value written; a lock bit once
set stays. Nothing else differs but MSI-X messages, of which there are none while the PCIe link is down. -/
def Obligations.PageInterruptsAndLocks : Prop :=
  ∀ (s : State) (ag : Agent) (p : Nat) (v : Word), s.writable ag p = true →
    Completes (.pgIrqSet ag p v) s (fun t =>
      t.rd (Reg.PG_IRQ_RAW p) = s.rd (Reg.PG_IRQ_RAW p) ||| (v &&& irqMask p) ∧ s.Raises t [Reg.PG_IRQ_RAW p] [] ∧
      (s.bit Reg.PCI_STAT 0 = false → s.Writes t [Reg.PG_IRQ_RAW p])) ∧
    Completes (.pgIrqRawClear ag p v) s (fun t =>
      t.rd (Reg.PG_IRQ_RAW p) = s.rd (Reg.PG_IRQ_RAW p) &&& ~~~v ∧ s.Raises t [Reg.PG_IRQ_RAW p] [] ∧
      (s.bit Reg.PCI_STAT 0 = false → s.Writes t [Reg.PG_IRQ_RAW p])) ∧
    Completes (.pgCtrlWrite ag p v) s (fun t =>
      t.rd (Reg.PG_CTRL p) = v &&& 0xF13F ∧ s.Raises t [Reg.PG_CTRL p] [] ∧
      (s.bit Reg.PCI_STAT 0 = false → s.Writes t [Reg.PG_CTRL p])) ∧
    Completes (.pgLock ag p v) s (fun t =>
      t.rd (Reg.PG_LOCK p) = s.rd (Reg.PG_LOCK p) ||| (v &&& 7) ∧
      t.bit (Reg.PG_STAT p) 2 = t.bit (Reg.PG_LOCK p) 0 ∧ s.Writes t [Reg.PG_LOCK p, Reg.PG_STAT p])

/-- Quartz (rules R34, R35, R37, R41 and R43): a value of QTZ_TIME_INC within 500 ppm of 4 ns is taken and SERVO_STALE clears, another
sets INC_REFUSED; a step is accepted in BOOT, SELFTEST and READY and refused elsewhere; an offset below T_tick is held for the boundary; a lost boundary and
a stale servo are events, and the loss is a stop cause. -/
def Obligations.QuartzCommands : Prop :=
  (∀ (s : State) (ag : Agent) (v : BitVec 64), s.writable ag Page.QTZ = true → incOk v.toNat = true →
    Completes (.qtzTimeInc ag .both v) s (fun t =>
      t.rd64 Reg.QTZ_TIME_INC = v.toNat ∧ t.bit Reg.QTZ_STAT 4 = false ∧
      s.SameRegs t [Reg.QTZ_TIME_INC, Reg.QTZ_TIME_INC + 4, Reg.QTZ_STAT] ∧
      t = { s with regs := t.regs, qtz := { s.qtz with sinceInc := 0, incLow := none } })) ∧
  (∀ (s : State) (ag : Agent) (v : BitVec 64), s.writable ag Page.QTZ = true → incOk v.toNat = false →
    Completes (.qtzTimeInc ag .both v) s (fun t =>
      t.bit Reg.QTZ_STAT 3 = true ∧ t.rdN Reg.QTZ_INC_REF_CNT = min (s.rdN Reg.QTZ_INC_REF_CNT + 1) 0xFFFFFFFF ∧
      { s with qtz := { s.qtz with incLow := none } }.Raises t [Reg.QTZ_STAT, Reg.QTZ_INC_REF_CNT, Reg.PG_IRQ_RAW Page.QTZ]
        [⟨Page.QTZ, 3, false, 0, s.now⟩])) ∧
  (∀ (s : State) (ag : Agent), s.writable ag Page.QTZ = true → s.configurable = true →
    Completes (.stepReq ag) s (fun t => t.bit Reg.QTZ_STAT 0 = true ∧ s.Writes t [Reg.QTZ_STAT, Reg.QTZ_TIME_CTRL])) ∧
  (∀ (s : State) (ag : Agent), s.writable ag Page.QTZ = true → s.configurable = false →
    Completes (.stepReq ag) s (fun t => t.bit Reg.QTZ_STAT 2 = true ∧ s.Writes t [Reg.QTZ_STAT])) ∧
  (∀ (s : State) (ag : Agent) (v : Word), s.cfgWritable ag Page.QTZ = true → s.configurable = true →
    v.toNat % 2097152 < periodNs (s.fld Reg.QTZ_TICK 2 0) →
    Completes (.qtzTickOfs ag v) s (fun t => t.rdN Reg.QTZ_TICK_OFS = v.toNat % 2097152 ∧ t.qtz.ofsPend = true ∧ t.qtz.ofs = s.qtz.ofs)) ∧
  (∀ s : State, s.gridRuns = true → s.bit Reg.QTZ_STAT 7 = false → s.qtz.noSupervise = false →
    Completes .tickLoss s (fun t =>
      t.bit Reg.QTZ_STAT 5 = true ∧ t.bit Reg.SYS_STOP_CAUSE (16 + 6) = true ∧
      (s.running = true → t.bit Reg.SYS_STOP_CAUSE 6 = true ∧ DevState.safestop ∈ t.sys.triggers) ∧
      s.SameRegs t [Reg.QTZ_STAT, Reg.PG_IRQ_RAW Page.QTZ, Reg.SYS_STOP_CAUSE] ∧ s.SameMemory t)) ∧
  (∀ s : State, s.clocked = true → s.fld Reg.QTZ_SYNC_TMO 23 0 ≠ 0 → s.fld Reg.QTZ_SYNC_TMO 23 0 ≤ s.qtz.sinceInc →
    Completes .servoStale s (fun t =>
      t.bit Reg.QTZ_STAT 4 = true ∧ s.Raises t [Reg.QTZ_STAT, Reg.PG_IRQ_RAW Page.QTZ] [⟨Page.QTZ, 4, false, 0, s.now⟩]))

/-- RUN_REQ, STOP_REQ and RESTART_REQ (rules R25 to R29): in READY a request to enter RUN triggers RUN where every condition of rule R27
holds, and is refused with REFUSE_CAUSE and an alarm where one fails; STOP_REQ in RUN starts the stop; RESTART_REQ in SAFESTOP
triggers SELFTEST once no cause is present and every group is in STO. -/
def Obligations.StateRequests : Prop :=
  (∀ (s : State) (ag : Agent), s.writable ag Page.SYS = true → s.sys.dev = .ready → s.runCause = 0 →
    Completes (.runReq ag false) s (fun t => .run ∈ t.sys.triggers ∧ t = { s with sys := { s.sys with triggers := t.sys.triggers } })) ∧
  (∀ (s : State) (ag : Agent), s.writable ag Page.SYS = true → s.sys.dev = .ready → s.runCause ≠ 0 →
    Completes (.runReq ag false) s (fun t =>
      t.bit Reg.SYS_STAT 7 = true ∧ t.fld Reg.SYS_STAT 15 12 = s.runCause ∧
      t.rdN Reg.SYS_REFUSE_CNT = min (s.rdN Reg.SYS_REFUSE_CNT + 1) 0xFFFFFFFF ∧
      s.Raises t [Reg.SYS_STAT, Reg.SYS_REFUSE_CNT, Reg.PG_IRQ_RAW Page.SYS] [⟨Page.SYS, 1, true, w32 s.runCause, s.now⟩])) ∧
  (∀ (s : State) (ag : Agent), s.writable ag Page.SYS = true → s.sys.dev = .boot ∨ s.sys.dev = .selftest →
    Completes (.runReq ag false) s (fun t => t = { s with sys := { s.sys with heldRun := true } })) ∧
  (∀ (s : State) (ag : Agent), s.writable ag Page.SYS = true → s.sys.dev = .run →
    Completes (.stopReq ag) s (fun t => t.sys.stopping = true ∧ t.sys.dev = .run)) ∧
  (∀ (s : State) (ag : Agent), s.writable ag Page.SYS = true → s.sys.dev = .safestop → s.causeHeld = false → s.allSto = true →
    Completes (.restartReq ag) s (fun t => .selftest ∈ t.sys.triggers ∧ t = { s with sys := { s.sys with triggers := t.sys.triggers } })) ∧
  (∀ (s : State) (ag : Agent), s.writable ag Page.SYS = true → s.sys.dev = .safestop → (s.causeHeld = true ∨ s.allSto = false) →
    Completes (.restartReq ag) s (fun t =>
      t.bit Reg.SYS_STAT 8 = true ∧ s.Raises t [Reg.SYS_STAT, Reg.SYS_REFUSE_CNT, Reg.PG_IRQ_RAW Page.SYS] [⟨Page.SYS, 2, false, 0, s.now⟩]))

/-- The watchdog (rule R412): 0xA5 restarts its period, half a period raises WDT_WARN, a full period resets the part. -/
def Obligations.Watchdog : Prop :=
  (∀ (s : State) (ag : Agent), s.writable ag Page.SYS = true →
    Completes (.sysWdtKick ag 0xA5) s (fun t => t = { s with sys := { s.sys with wdtHalf := false } })) ∧
  (∀ (s : State) (ag : Agent) (v : Word), s.writable ag Page.SYS = true → v ≠ 0xA5 → Completes (.sysWdtKick ag v) s (fun t => t = s)) ∧
  (∀ s : State, s.ticking = true → s.bit Reg.SYS_WDT 0 = true →
    Completes .wdtWarn s (fun t =>
      t.bit Reg.SYS_STAT 10 = true ∧ t.rdN Reg.SYS_WDT_CNT = min (s.rdN Reg.SYS_WDT_CNT + 1) 0xFFFFFFFF ∧ t.sys.wdtHalf = true ∧
      s.SameRegs t [Reg.SYS_STAT, Reg.SYS_WDT_CNT, Reg.PG_IRQ_RAW Page.SYS] ∧ s.SameMemory t)) ∧
  (∀ s : State, s.ticking = true → s.bit Reg.SYS_WDT 0 = true → s.sys.wdtHalf = true →
    Completes .wdtExpiry s (fun t => t.sys = Sys.reset ∧ t.rdN Reg.SYS_RST_CAUSE = 3))

/-- Resets and power (rules R408 to R411 and R429): a reset puts the core die in its reset state, with its cause and count in SYS_RST_CAUSE
and SYS_RST_CNT and the memories of the core die empty; LPDDR4X and the flash stay. An undervoltage enters OFF at once, where LPDDR4X
is lost too, and stable rails leave OFF for RESET with the records in AON cleared. An overvoltage is an alarm and the part runs on. What a memory that
lists nothing reads as is the model's choice (notes/assumptions/2.md). -/
def Obligations.Resets : Prop :=
  (∀ s : State, s.sys.dev ≠ .off →
    Completes .resetN s (fun t =>
      t.sys = Sys.reset ∧ t.rdN Reg.SYS_RST_CAUSE = 2 ∧ t.rdN Reg.SYS_RST_CNT = min (s.rdN Reg.SYS_RST_CNT + 1) 0xFFFFFFFF ∧
      t.cell = [] ∧ t.code = [] ∧ t.data = [] ∧ t.eng = [] ∧ t.dram = s.dram ∧ t.flash = s.flash ∧
      ∀ a, keptReg a = false →
        a ∉ [Reg.SYS_RST_CAUSE, Reg.DBG_STAT, Reg.TWN_STAT, Reg.PWR_DOM_STAT, Reg.FIO_DQ_RB] → t.rd a = regReset a)) ∧
  (∀ (s : State) (ag : Agent), s.writable ag Page.SYS = true →
    Completes (.swReset ag 0xC128) s (fun t =>
      t.sys = Sys.reset ∧ t.rdN Reg.SYS_RST_CAUSE = 4 ∧ t.rdN Reg.SYS_RST_CNT = min (s.rdN Reg.SYS_RST_CNT + 1) 0xFFFFFFFF ∧
      t.dram = s.dram ∧ t.flash = s.flash)) ∧
  (∀ (s : State) (ag : Agent) (key : BitVec 16), s.writable ag Page.SYS = true → key ≠ 0xC128 →
    Completes (.swReset ag key) s (fun t =>
      t.rdN Reg.SYS_REFUSE_CNT = min (s.rdN Reg.SYS_REFUSE_CNT + 1) 0xFFFFFFFF ∧ s.Writes t [Reg.SYS_REFUSE_CNT])) ∧
  (∀ (s : State) (rail : Fin 13) (mv : BitVec 16), s.sys.dev ≠ .off →
    Completes (.railUndervoltage rail mv) s (fun t =>
      t.sys.dev = .off ∧ t.sys.triggers = [] ∧ t.dram = [] ∧ t.flash = s.flash ∧ t.rdN (Reg.PWR_RAIL_V rail.val) = mv.toNat ∧
      t.rdN Reg.PWR_UV_CNT = if rail.val = 6 then 0 else min (s.rdN Reg.PWR_UV_CNT + 1) 0xFFFFFFFF)) ∧
  (∀ (s : State) (mv : List (BitVec 16)), s.sys.dev = .off →
    Completes (.railsStable mv) s (fun t =>
      t.sys = Sys.reset ∧ t.rdN Reg.SYS_RST_CAUSE = 1 ∧ t.rdN Reg.SYS_RST_CNT = 0 ∧ t.rdN Reg.SYS_FRZ_CNT = 0 ∧
      t.rdN Reg.PWR_RAIL_FLAG = 0x1FFF ∧ s.SameMemory t)) ∧
  (∀ (s : State) (rail : Fin 13) (mv : BitVec 16), s.clocked = true →
    Completes (.railOvervoltage rail mv) s (fun t =>
      t.bit Reg.PWR_STAT 4 = true ∧ t.bit Reg.PWR_RAIL_FLAG rail.val = false ∧ t.rdN (Reg.PWR_RAIL_V rail.val) = mv.toNat ∧
      t.rdN Reg.PWR_OV_CNT = min (s.rdN Reg.PWR_OV_CNT + 1) 0xFFFFFFFF ∧
      s.Raises t [Reg.PWR_RAIL_V rail.val, Reg.PWR_RAIL_MINMAX rail.val, Reg.PWR_RAIL_FLAG, Reg.PWR_OV_CNT, Reg.PWR_STAT,
        Reg.PG_IRQ_RAW Page.PWR] [⟨Page.PWR, 4, true, 0, s.now⟩]))

/-- The boot and the self-test (rules R413 to R415 and R419): the release of the resets enters BOOT, a flash that does not answer stops it
at step 4 with code 3, and a good image leads to SELFTEST; the results of SELFTEST decide between READY and SAFESTOP, a pass of all counts
only once the cross-comparison has run and Flint is armed, and a test trip that failed is a failure of T6. -/
def Obligations.BootAndSelftest : Prop :=
  (∀ (s : State) (inp : BootInputs), s.sys.dev = .reset → inp.flashOk = false →
    Completes (.resetRelease inp) s (fun t =>
      t.sys.dev = .boot ∧ t.fld Reg.SYS_BOOT 11 8 = 3 ∧ t.fld Reg.SYS_BOOT 15 12 = 4 ∧ t.cell = [] ∧ t.code = [] ∧ t.data = [])) ∧
  (∀ (s : State) (inp : BootInputs), s.sys.dev = .reset → inp.flashOk = true → dramFit inp = true →
    inp.a.header = true → inp.a.crcOk = true → inp.b.version.toNat ≤ inp.a.version.toNat → inp.a.pages.any badRecord = false → s.Sound →
    Completes (.resetRelease inp) s (fun t => t.sys.dev = .boot ∧ .selftest ∈ t.sys.triggers ∧ t.Sound)) ∧
  (∀ (s : State) (pass : BitVec 8), s.sys.dev = .selftest → pass = 255 → s.saf.slate.failed = false → s.selftestOver = true →
    s.saf.flint.tested = some true →
    Completes (.selftestDone pass) s (fun t =>
      t.rdN Reg.SYS_SELFTEST = 255 ∧ .ready ∈ t.sys.triggers ∧ s.SameRegs t [Reg.SYS_SELFTEST, Reg.SYS_BOOT] ∧ s.SameMemory t)) ∧
  (∀ (s : State) (pass : BitVec 8), s.sys.dev = .selftest → pass = 255 → s.saf.slate.failed = false → s.selftestOver = false →
    Completes (.selftestDone pass) s (fun t => t = s)) ∧
  (∀ (s : State) (pass : BitVec 8), s.sys.dev = .selftest → pass = 255 → s.saf.slate.failed = false → s.selftestOver = true →
    s.saf.flint.tested = some false →
    Completes (.selftestDone pass) s (fun t =>
      t.bit Reg.SYS_SELFTEST 6 = false ∧ t.bit Reg.SYS_SELFTEST (8 + 6) = true ∧ t.bit Reg.SYS_STOP_CAUSE 9 = true ∧
      .safestop ∈ t.sys.triggers)) ∧
  (∀ (s : State) (pass : BitVec 8), s.sys.dev = .selftest → pass ≠ 255 → s.saf.slate.failed = false → s.saf.flint.tested ≠ some false →
    Completes (.selftestDone pass) s (fun t =>
      t.rdN Reg.SYS_SELFTEST = pass.toNat + 256 * (255 - pass.toNat) ∧ t.bit Reg.SYS_STOP_CAUSE 9 = true ∧ .safestop ∈ t.sys.triggers ∧
      s.SameRegs t [Reg.SYS_SELFTEST, Reg.SYS_BOOT, Reg.SYS_STOP_CAUSE] ∧ s.SameMemory t))

/-- The freeze (rules R423 to R425): entry from any state with clocks is at once, whatever asks for it; the records say when, the state
and its cause are kept, pending triggers are lost. The readout counts, and a release takes effect when no readout runs. -/
def Obligations.FreezeAndReadout : Prop :=
  (∀ (s : State) (ag : Agent), s.writable ag Page.SYS = true →
    Completes (.freeze ag) s (fun t =>
      t.sys.dev = .frozen ∧ t.sys.triggers = [] ∧ (∃ f, t.sys.frozen = some f ∧ f.before = s.sys.dev ∧ f.cause = 2 ∧ f.armed = s.armed) ∧
      t.rd64 Reg.SYS_FRZ_TICK = s.tick)) ∧
  (∀ s : State, s.clocked = true →
    Completes .frzNAssert s (fun t =>
      t.sys.dev = .frozen ∧ t.sys.triggers = [] ∧ (∃ f, t.sys.frozen = some f ∧ f.before = s.sys.dev ∧ f.cause = 1 ∧ f.armed = s.armed) ∧
      t.rd64 Reg.SYS_FRZ_TICK = s.tick)) ∧
  (∀ s : State, s.sys.dev = .frozen → s.bit Reg.SYS_FRZ_CFG 0 = true → s.bit Reg.DBG_STAT 0 = false →
    Completes .readoutStart s (fun t =>
      t.bit Reg.DBG_STAT 0 = true ∧ t.rd64 Reg.DBG_RO_BYTES = 0 ∧ t.rdN Reg.DBG_RO_CNT = min (s.rdN Reg.DBG_RO_CNT + 1) 0xFFFFFFFF ∧
      s.Writes t [Reg.DBG_STAT, Reg.DBG_RO_BYTES, Reg.DBG_RO_BYTES + 4, Reg.DBG_RO_CNT])) ∧
  (∀ (s : State) (bytes : BitVec 64) (ue : Word), s.bit Reg.DBG_STAT 0 = true →
    Completes (.readoutEnd bytes ue) s (fun t =>
      t.bit Reg.DBG_STAT 0 = false ∧ t.bit Reg.DBG_STAT 1 = true ∧ t.rd64 Reg.DBG_RO_BYTES = bytes.toNat ∧ t.rd Reg.DBG_RO_UE = ue ∧
      t.bit (Reg.PG_IRQ_RAW Page.DBG) 0 = true ∧
      s.SameRegs t [Reg.DBG_STAT, Reg.DBG_RO_BYTES, Reg.DBG_RO_BYTES + 4, Reg.DBG_RO_UE, Reg.PG_IRQ_RAW Page.DBG] ∧ s.SameMemory t)) ∧
  (∀ (s : State) (f : Freeze) (inp : BootInputs), s.sys.frozen = some f → s.bit Reg.DBG_STAT 0 = false →
    Completes (.freezeRelease inp) s (fun t =>
      t = { s with sys := { s.sys with frozen := some { f with released := true, resume := true, boot := some inp } } }))

/-- Operating points, domains and clocks (rules R405 to R407, R420 to R422 and R446): a permitted change of a quad's point begins, and one asked
for while another runs is refused with its cause; a settled rail is noted, and a ramp that never settles ends the change as failed; an APPC
change and the power of SOLV wait for their instant, but SOLV stays while the solver is enabled; the loss of a PLL's lock or of a reference is
latched, counted and an alarm. -/
def Obligations.PowerCommands : Prop :=
  (∀ (s : State) (ag : Agent) (q point : Fin 4), s.writable ag Page.PWR = true → s.pwr.change = none → s.domOn (3 + q.val) = true →
    point.val ≠ s.pointOf q.val → limitsOk (withBits s.pointsNext (2 * q.val + 1) (2 * q.val) point.val) s.appcNext = true →
    s.tooHot (3 + q.val) = false →
    Completes (.pwrDvfsReq ag q point) s (fun t =>
      t.pwr.change = some ⟨q.val, s.pointOf q.val, point.val, false, false⟩ ∧ t.bit Reg.PWR_STAT 0 = true ∧
      t.bit Reg.PWR_QPT (8 + q.val) = true ∧ t.pointOf q.val = s.pointOf q.val ∧ s.SameRegs t [Reg.PWR_STAT, Reg.PWR_QPT] ∧
      s.SameMemory t)) ∧
  (∀ (s : State) (ag : Agent) (q point : Fin 4) (c : PointChange), s.writable ag Page.PWR = true → s.pwr.change = some c →
    Completes (.pwrDvfsReq ag q point) s (fun t =>
      t.bit Reg.PWR_STAT 1 = true ∧ t.fld Reg.PWR_STAT 11 8 = 1 ∧ t.pwr = s.pwr ∧
      s.Raises t [Reg.PWR_STAT, Reg.PWR_DVFS_REF_CNT, Reg.PG_IRQ_RAW Page.PWR] [⟨Page.PWR, 1, false, 0, s.now⟩])) ∧
  (∀ (s : State) (ag : Agent) (f : Fin 8), s.writable ag Page.PWR = true → s.pwr.appcPend = none → s.pwr.change = none →
    f.val ≠ s.appcOf → f.val ≤ 4 → limitsOk s.pointsNext f.val = true → s.tooHot 8 = false →
    Completes (.pwrAppcReq ag f) s (fun t => t = { s with pwr := { s.pwr with appcPend := some f.val } })) ∧
  (∀ (s : State) (q : Fin 4) (mv : BitVec 16) (c : PointChange), s.clocked = true → s.pwr.change = some c → c.quad = q.val →
    c.begun = true → settledAt c.newPoint mv.toNat = true → c.oldPoint < c.newPoint →
    Completes (.railSettled q mv) s (fun t =>
      t.pwr.change = some { c with settled := true } ∧ t.rdN (Reg.PWR_RAIL_V (1 + q.val)) = mv.toNat ∧
      s.SameRegs t [Reg.PWR_RAIL_V (1 + q.val), Reg.PWR_RAIL_MINMAX (1 + q.val)] ∧ s.SameMemory t)) ∧
  (∀ (s : State) (q : Fin 4) (c : PointChange), s.clocked = true → s.pwr.change = some c → c.quad = q.val → c.begun = true →
    c.settled = false → c.newPoint < c.oldPoint → c.newPoint < 4 →
    Completes (.dvfsRampTimeout q) s (fun t =>
      t.pwr.change = none ∧ t.pointOf q.val = c.newPoint ∧ t.pwr.vid = s.pwr.vid ∧ t.bit Reg.PWR_STAT 2 = true ∧ t.bit Reg.PWR_STAT 0 = false ∧
      t.rdN Reg.PWR_DVFS_FAIL_CNT = min (s.rdN Reg.PWR_DVFS_FAIL_CNT + 1) 0xFFFFFFFF ∧
      s.SameRegs t [Reg.PWR_QPT, Reg.PWR_STAT, Reg.PWR_DVFS_FAIL_CNT, Reg.PG_IRQ_RAW Page.PWR] ∧ s.SameMemory t)) ∧
  (∀ (s : State) (ag : Agent), s.writable ag Page.PWR = true → s.domOn 7 = true → s.bit Reg.SOL_CTRL 0 = false →
    Completes (.domainPowerDown ag 0x10) s (fun t => t = { s with pwr := { s.pwr with downPend := withBits s.pwr.downPend 4 4 1 } })) ∧
  (∀ (s : State) (ag : Agent), s.writable ag Page.PWR = true → s.domOn 7 = true → s.bit Reg.SOL_CTRL 0 = true →
    Completes (.domainPowerDown ag 0x10) s (fun t =>
      t.bit Reg.PWR_STAT 3 = true ∧ t.fld Reg.PWR_STAT 11 8 = 6 ∧ s.Writes t [Reg.PWR_STAT])) ∧
  (∀ (s : State) (ag : Agent), s.writable ag Page.PWR = true → s.domOn 7 = false →
    Completes (.domainPowerUp ag 0x100000) s (fun t => t = { s with pwr := { s.pwr with upPend := withBits s.pwr.upPend 4 4 1 } })) ∧
  (∀ (s : State) (k : Fin 8), s.clocked = true → s.domOn (pllDomain k.val) = true →
    Completes (.pllLockLoss k) s (fun t =>
      t.bit Reg.CLK_STAT (2 + k.val) = false ∧ t.bit Reg.CLK_STAT 10 = true ∧
      t.rdN Reg.CLK_LOCK_LOST_CNT = min (s.rdN Reg.CLK_LOCK_LOST_CNT + 1) 0xFFFFFFFF ∧
      s.Raises t [Reg.CLK_STAT, Reg.CLK_LOCK_LOST_CNT, Reg.PG_IRQ_RAW Page.CLK] [⟨Page.CLK, 0, true, 0, s.now⟩])) ∧
  (∀ (s : State) (r : Fin 2), s.clocked = true →
    Completes (.referenceFail r) s (fun t =>
      t.bit Reg.CLK_STAT r.val = false ∧ t.bit Reg.CLK_STAT 11 = true ∧
      t.rdN Reg.CLK_REF_FAIL_CNT = min (s.rdN Reg.CLK_REF_FAIL_CNT + 1) 0xFFFFFFFF ∧
      s.Raises t [Reg.CLK_STAT, Reg.CLK_REF_FAIL_CNT, Reg.PG_IRQ_RAW Page.CLK] [⟨Page.CLK, 1, true, 0, s.now⟩]))

/-- The phases of a tick (rules R15, R20, R42, R47, R48 and R49). A start reached is taken, and the unit's work follows; G has none of its own.
An end that the unit may report is recorded, and is in time where it is not later than the deadline. At the deadline the copy is sealed; a phase
that has not ended overruns, which is counted, ends the guarantee, marks its copy invalid, stops the part where it was S or C, and stops a group
that overran in P or in L twice in a row. A realignment tick has only channel A's heartbeat. The launch of E is its start. That a phase's
work is done at its start is the model's choice (notes/assumptions/32.md), as is the instant of that heartbeat (notes/assumptions/97.md). -/
def Obligations.PhaseCommands : Prop :=
  (∀ (s : State) (ph : Phase) (ms : List CodeMismatch), ph ≠ .e → s.phasesRun = true → s.begun ph = false → s.isSealed ph = false →
    Completes (.phaseStart ph ms) s (fun t => ∃ u : State,
      u = { s with regs := u.regs, qtz := { s.qtz with begun := s.qtz.begun ||| 2 ^ ph.num } } ∧ u.begun ph = true ∧
      s.SameRegs u [Reg.QTZ_TIME_NS, Reg.QTZ_TIME_NS + 4, Reg.QTZ_TIME_FRAC] ∧
      (s.phaseInstant ph (s.phaseStart ph) ≤ s.now → s.SameRegs u []) ∧ t = u.phaseWork ph ms ∧ (ph = .g → t = u))) ∧
  (∀ (s : State) (ph : Phase) (ofs : Nat), ph ≠ .e → s.phasesRun = true → s.begun ph = true → s.reported ph = false →
    s.phaseReady ph = true → ofs < 2 ^ 32 →
    Completes (.phaseComplete ph ofs) s (fun t => ∃ u : State,
      u.rdN (Reg.QTZ_PH_END ph.num) = ofs ∧ u.rdN (Reg.QTZ_PH_MAX ph.num) = max (s.rdN (Reg.QTZ_PH_MAX ph.num)) ofs ∧
      u.ended ph = (!s.isSealed ph && decide (ofs ≤ s.phaseEnd ph)) ∧ u.reported ph = true ∧
      s.SameRegs u [Reg.QTZ_PH_END ph.num, Reg.QTZ_PH_MAX ph.num, Reg.QTZ_TIME_NS, Reg.QTZ_TIME_NS + 4, Reg.QTZ_TIME_FRAC] ∧
      u = { s with regs := u.regs, qtz := { s.qtz with reported := u.qtz.reported, ended := u.qtz.ended } } ∧
      t = u.phaseDone ph (u.ended ph) ∧ (ph ≠ .v → ph ≠ .c → t = u))) ∧
  (∀ (s : State) (ph : Phase) (g : BitVec 16) (cpl : Bool), ph ≠ .e → s.phasesRun = true → s.isSealed ph = false → s.ended ph = true →
    Completes (.phaseDeadline ph ⟨g, cpl⟩) s (fun t => ∃ u : State, u = { s with regs := u.regs } ∧
      s.SameRegs u [Reg.QTZ_TIME_NS, Reg.QTZ_TIME_NS + 4, Reg.QTZ_TIME_FRAC] ∧ t = (u.atDeadline ph).setSealed ph ∧ t.isSealed ph = true ∧
      (ph = .s ∨ ph = .v → u.atDeadline ph = u) ∧ (ph = .c → u.atDeadline ph = u.channelBeat))) ∧
  (∀ (s : State) (ph : Phase) (g : BitVec 16) (cpl : Bool), ph ≠ .e → s.phasesRun = true → s.isSealed ph = false → s.ended ph = false →
    Completes (.phaseDeadline ph ⟨g, cpl⟩) s (fun t => ∃ u w : State, u = { s with regs := u.regs } ∧
      s.SameRegs u [Reg.QTZ_TIME_NS, Reg.QTZ_TIME_NS + 4, Reg.QTZ_TIME_FRAC] ∧ w = (u.atDeadline ph).setSealed ph ∧
      (ph = .s ∨ ph = .v ∨ ph = .c → u.atDeadline ph = u) ∧ t.isSealed ph = true ∧ t.bit Reg.QTZ_PH_OVR ph.num = true ∧
      t.rdN (Reg.QTZ_PH_OVR_CNT ph.num) = min (w.rdN (Reg.QTZ_PH_OVR_CNT ph.num) + 1) 0xFFFFFFFF ∧ t.bit Reg.SYS_STAT 5 = true ∧
      (∀ c : StopCause, (ph = .s ∧ c = .sOverrun) ∨ (ph = .c ∧ c = .cOverrun) → t.bit Reg.SYS_STOP_CAUSE (16 + c.num) = true ∧
        (s.running = true → t.bit Reg.SYS_STOP_CAUSE c.num = true ∧ DevState.safestop ∈ t.sys.triggers)) ∧
      (ph = .s ∨ ph = .v ∨ ph = .c → (t.invalidPhases t.parity).testBit ph.num = true) ∧
      (ph = .p → t.planBad t.parity = w.planBad w.parity ||| g ∧ t.qtz.ovr2P = g &&& w.qtz.ovrP ∧
        t.saf.ovr = w.saf.ovr ||| (g &&& w.qtz.ovrP).toNat ∧ (cpl = true → (t.invalidPhases t.parity).testBit 2 = true)) ∧
      (ph = .l → t.cmdBad t.parity = w.cmdBad w.parity ||| g ∧ t.qtz.ovr2L = g &&& w.qtz.ovrL ∧
        t.saf.ovr = w.saf.ovr ||| (g &&& w.qtz.ovrL).toNat))) ∧
  (∀ (s : State) (g : BitVec 16) (cpl : Bool), s.ticking = true → s.bit Reg.QTZ_STAT 7 = true → s.qtz.beat = false →
    Completes (.phaseDeadline .c ⟨g, cpl⟩) s (fun t =>
      t.qtz.beat = true ∧ s.SameRegs t [Reg.QTZ_TIME_NS, Reg.QTZ_TIME_NS + 4, Reg.QTZ_TIME_FRAC] ∧ s.SameMemory t ∧
      t.saf.flint.sent = some (w32 (s.tick % 65536 + 65536 * (Config.heartbeatSig s.saf.flint.seed (s.tick % 65536)).toNat)))) ∧
  (∀ (s : State) (g : Fin 16), s.ticking = true → s.qtz.ovr2P.getLsbD g.val = true →
    Completes (.groupOverrunStop .p g) s (fun t => t.saf.ovr.testBit g.val = true ∧ t = { s with saf := { s.saf with ovr := t.saf.ovr } })) ∧
  (∀ (s : State) (g : Fin 16), s.ticking = true → s.qtz.ovr2L.getLsbD g.val = true →
    Completes (.groupOverrunStop .l g) s (fun t => t.saf.ovr.testBit g.val = true ∧ t = { s with saf := { s.saf with ovr := t.saf.ovr } })) ∧
  (∀ s : State, s.ticking = true → s.begun .e = false →
    Completes .eLaunch s (fun t => ∃ u : State,
      u = { s with regs := u.regs, qtz := { s.qtz with begun := s.qtz.begun ||| 2 ^ 6 } } ∧ u.begun .e = true ∧
      s.SameRegs u [Reg.QTZ_TIME_NS, Reg.QTZ_TIME_NS + 4, Reg.QTZ_TIME_FRAC] ∧
      t = if s.phasesRun then u.emit.holderBeat.publishView.tickRecord else u.emit.holderBeat))

/-- The tick boundary (rules R26, R30, R39, R357 and R423): in BOOT to SAFESTOP the trigger of the highest precedence, if any waits, gives the
state of the new tick; from READY on a unit in shadow of its twin goes where the active unit went and nowhere else; in FROZEN the state stays
and the tick is counted. -/
def Obligations.TickBoundaryState : Prop :=
  (∀ s : State, s.Sound → s.sys.dev.live = true → s.shadow = false →
    Completes .tickBoundary s (fun t => t.sys.dev = (bestTrigger s.stopCheck.sys.triggers).getD s.sys.dev ∧ t.Sound ∧ t.pending = s.pending)) ∧
  (∀ s : State, s.Sound → s.sys.dev.live = true → s.shadow = true → s.sys.dev ≠ .boot → s.sys.dev ≠ .selftest →
    Completes .tickBoundary s (fun t =>
      t.sys.dev = (s.twin.lead.filter (fun d => transition s.sys.dev d)).getD s.sys.dev ∧ t.Sound ∧ t.pending = s.pending)) ∧
  (∀ (s : State) (f : Freeze), s.Sound → s.sys.dev = .frozen → s.sys.frozen = some f → f.resume = false →
    Completes .tickBoundary s (fun t =>
      t.sys.dev = .frozen ∧ t.Sound ∧ t.pending = s.pending ∧ t.tick = (if s.qtz.started then (s.tick + 1) % 2 ^ 64 else s.tick) ∧
      t.rd64 Reg.QTZ_LAST_TICK = t.now))

/-- Every command completes, whatever the state, and leaves the commands that wait as they were. -/
def Obligations.EveryCommandCompletes : Prop :=
  ∀ (c : Instr) (s : State), s.Sound → Completes c s (fun t => t.pending = s.pending)

/-- A step takes the command at the front of the queue: its effect is that of the command on the state with the queue's rest. With no
command waiting the block idles (the model's choice, notes/assumptions/6.md). -/
def Obligations.StepRunsFront : Prop :=
  (∀ (c : Instr) (q : List Instr) (s : State), s.pending = c :: q → step s = exec c { s with pending := q }) ∧
  (∀ s : State, s.pending = [] → step s = .next s)

/-- Every step keeps the invariant: the tables stay in canonical form, and only triggers that rule R26 lists for the present state
wait; from a state with it, a step always answers a next state. -/
def Obligations.StepKeepsSound : Prop :=
  ∀ s : State, s.Sound → ∃ t, step s = .next t ∧ t.Sound ∧ t.pending = s.pending.tail

/-- The device state moves only as rule R26's table says, whatever the command: of the triggers that wait for a boundary only those of the
table, and at once only into OFF, RESET and FROZEN and out of OFF, RESET and FROZEN. -/
def Obligations.DeviceStateMoves : Prop :=
  ∀ s t : State, s.Sound → step s = .next t → t.sys.dev = s.sys.dev ∨ DevState.moves s.sys.frozen s.sys.dev t.sys.dev

/-- Right after reset the invariant of the block holds, and what reset leaves is (rules R24, R30, R391 and R428): state RESET, no trigger and
no command waiting, no cause of a stop latched, no raising on its way, cell memory that lists nothing (the model's choice,
notes/assumptions/2.md). -/
def Obligations.ResetState : Prop :=
  State.reset.Sound ∧ State.reset.sys.dev = .reset ∧ State.reset.sys.triggers = [] ∧ State.reset.pending = [] ∧
    State.reset.rdN Reg.SYS_STOP_CAUSE = 0 ∧ State.reset.cell = [] ∧ State.reset.evt.raisings = []

/-- The event unit (rules R392, R393, R398 and R399): a raising opens its page's slot, with the ALARM bit where it tells of a node's alarm (that it
is then the port's TRUMP bit is the model's choice, notes/assumptions/129.md), a slot is written to the event ring as one record of 32
bytes, and software frees records with TAIL. -/
def Obligations.EventRing : Prop :=
  (∀ (s : State) (r : Raising), s.clocked = true → s.evt.raisings = [r] → r.alarm = false → s.evt.slots.any (fun x => x.page == r.page) = false →
    Completes (.raisingReceive r.page) s (fun t =>
      t = { s with evt := { s.evt with raisings := [], slots := s.evt.slots ++ [⟨r.page, trumpBit r.page r.bit, 2 ^ r.bit, 1, r.detail, r.time, r.time⟩] } })) ∧
  (∀ (s : State) (page : Nat) (x : EvSlot), s.clocked = true → s.evt.slots.find? (fun y => y.page == page) = some x → s.evrFull = false →
    s.evt.ringPend = false → s.evrLen ≤ 16384 → s.integ.ue = [] →
    inCell ((s.eff Reg.EVT_EVR_BASE).toNat + 32 * s.fld Reg.EVT_EVR_HEAD 13 0) 32 = true →
    Completes (.eventRecordWrite page) s (fun t =>
      (∃ a, a = (s.eff Reg.EVT_EVR_BASE).toNat + 32 * s.fld Reg.EVT_EVR_HEAD 13 0 ∧
        t.cell = (((((s.cell.setN a 4 (x.page % 16384 + 16384 * b2n x.alarm + 65536 * (s.evt.recSeq % 65536))).setN (a + 4) 4 x.mask).setN
          (a + 8) 4 x.count).setN (a + 12) 4 x.detail.toNat).setN (a + 16) 8 x.first).setN (a + 24) 8 x.last) ∧
      t.fld Reg.EVT_EVR_HEAD 13 0 = (s.fld Reg.EVT_EVR_HEAD 13 0 + 1) % s.evrLen ∧
      t.rdN Reg.EVT_EV_CNT = min (s.rdN Reg.EVT_EV_CNT + 1) 0xFFFFFFFF ∧
      t.evt.slots = s.evt.slots.filter (fun y => !(y.page == x.page)) ∧ t.evt.recSeq = (s.evt.recSeq + 1) % 65536 ∧
      s.SameRegs t [Reg.EVT_EVR_HEAD, Reg.EVT_EV_CNT, Reg.EVT_STAT, Reg.PG_IRQ_RAW Page.EVT])) ∧
  (∀ (s : State) (ag : Agent) (v : Word), s.writable ag Page.EVT = true →
    Completes (.evtEvrTail ag v) s (fun t =>
      t.fld Reg.EVT_EVR_TAIL 13 0 = v.toNat % 16384 ∧ t.bit Reg.EVT_STAT 2 = t.evrFull ∧
      s.Raises t [Reg.EVT_EVR_TAIL, Reg.EVT_STAT, Reg.PG_IRQ_RAW Page.EVT] []))

/-- Alarm acknowledgement (rule R395): a live entry whose COUNT is the one read is freed; else the write is refused with ACK_STALE. -/
def Obligations.AlarmAcknowledge : Prop :=
  (∀ (s : State) (ag : Agent) (i : Fin 1024) (n : Word), s.writable ag Page.EVT = true → s.almLive i.val = true →
    s.cell32 (s.almAddr i.val + 32) = n.toNat → s.evt.held = [] → s.evt.nodeHeld = [] → s.integ.ue = [] →
    inCell (s.almAddr i.val) 64 = true →
    Completes (.evtAlmAck ag i n) s (fun t =>
      t.cell = s.cell.setN (s.almAddr i.val + 36) 4 3 ∧ t.almLive i.val = false ∧ t.fld Reg.EVT_STAT 26 16 = t.almUsed ∧
      s.SameRegs t [Reg.EVT_STAT, Reg.PG_IRQ_RAW Page.EVT])) ∧
  (∀ (s : State) (ag : Agent) (i : Fin 1024) (n : Word), s.writable ag Page.EVT = true →
    (s.almLive i.val = false ∨ s.cell32 (s.almAddr i.val + 32) ≠ n.toNat) →
    Completes (.evtAlmAck ag i n) s (fun t => t.bit Reg.EVT_STAT 5 = true ∧ s.Raises t [Reg.EVT_STAT, Reg.PG_IRQ_RAW Page.EVT] []))

/-- Traces (rules R400 to R402): software's record is staged in the source's FIFO; the writer moves the oldest record to the trace ring;
an advance of the read offset frees the ring. -/
def Obligations.Traces : Prop :=
  (∀ (s : State) (n : Fin 4) (typ : BitVec 8) (w4 w5 w6 w7 : Word), s.clocked = true → s.traceOn (0x40 + n.val) = true →
    (s.fifo (0x40 + n.val)).dropped = 0 → (s.fifo (0x40 + n.val)).recs.length < 16 →
    Completes (.evtTrcSw n typ w4 w5 w6 w7) s (fun t =>
      (t.fifo (0x40 + n.val)).recs = (s.fifo (0x40 + n.val)).recs ++
        [[w32 (s.traceW0 (0x40 + n.val) 0 typ.toNat), 0, w32 s.now, w32 (s.now / 4294967296), w4, w5, w6, w7]] ∧
      t = { s with evt := { s.evt with fifos := t.evt.fifos } })) ∧
  (∀ (s : State) (src : Fin 128) (r : List Word) (rest : List (List Word)), s.clocked = true → (s.fifo src.val).recs = r :: rest →
    (s.fld Reg.EVT_TRC_WR 25 0 + 32) % traceLen ≠ s.fld Reg.EVT_TRC_RD 25 0 →
    Completes (.traceDrain src) s (fun t =>
      t.dram = setDram s.dram ((s.eff Reg.EVT_TRC_BASE).toNat + s.fld Reg.EVT_TRC_WR 25 0) r ∧
      t.rdN Reg.EVT_TRC_WR = (s.fld Reg.EVT_TRC_WR 25 0 + 32) % traceLen ∧
      t.rdN Reg.EVT_TRC_CNT = min (s.rdN Reg.EVT_TRC_CNT + 1) 0xFFFFFFFF ∧ (t.fifo (s.fifo src.val).src).recs = rest ∧
      s.SameRegs t [Reg.EVT_TRC_WR, Reg.EVT_TRC_CNT] ∧ t = { s with regs := t.regs, dram := t.dram, evt := { s.evt with fifos := t.evt.fifos } })) ∧
  (∀ (s : State) (ag : Agent) (v : Word), s.writable ag Page.EVT = true →
    Completes (.evtTrcRd ag v) s (fun t =>
      t.rd Reg.EVT_TRC_RD = v &&& 0x03FFFFE0 ∧ t.bit Reg.EVT_STAT 3 = false ∧ s.Writes t [Reg.EVT_TRC_RD, Reg.EVT_STAT]))

/-- Memory errors (rules R369 and R372 to R375): a corrected read counts, is recorded and leaves a write-back pending, once; a write-back
is made or cancelled. The words themselves do not change. -/
def Obligations.CorrectedErrors : Prop :=
  (∀ (s : State) (m : Fin 256) (a : Word) (b : Fin 72), s.clocked = true → memHas m.val a.toNat = true → m.val ≠ 0xE0 →
    s.ueIn m.val (a.toNat / 8 * 8) 1 = false →
    Completes (.scrubRead m a (.corrected b)) s (fun t =>
      t.rdN Reg.MEM_CE_CNT = min (s.rdN Reg.MEM_CE_CNT + 1) 0xFFFFFFFF ∧ t.rd64 Reg.MEM_CE_LAST = locWord m.val (a.toNat / 8 * 8) true ∧
      t.bit Reg.MEM_STAT 0 = true ∧ (m.val, a.toNat / 8 * 8) ∈ t.integ.wb ∧
      s.SameRegs t [Reg.MEM_CE_CNT, Reg.MEM_CE_LAST, Reg.MEM_CE_LAST + 4, Reg.MEM_STAT, Reg.PG_IRQ_RAW Page.MEM, Reg.MEM_HARD_CNT,
        Reg.MEM_HARD_DROP_CNT, Reg.MEM_SCRUB_PASS_CNT] ∧ s.SameMemory t)) ∧
  (∀ (s : State) (m : Fin 256) (a : Word), (m.val, a.toNat / 8 * 8) ∈ s.integ.wb →
    Completes (.eccWriteBack m a false) s (fun t =>
      (m.val, a.toNat / 8 * 8) ∉ t.integ.wb ∧ t = { s with integ := { s.integ with wb := t.integ.wb, ce := t.integ.ce } })) ∧
  (∀ (s : State) (m : Fin 256) (a : Word), (m.val, a.toNat / 8 * 8) ∈ s.integ.wb →
    Completes (.eccWriteBack m a true) s (fun t =>
      (m.val, a.toNat / 8 * 8) ∉ t.integ.wb ∧ t.rdN Reg.MEM_WB_CANCEL_CNT = min (s.rdN Reg.MEM_WB_CANCEL_CNT + 1) 0xFFFFFFFF ∧
      s.SameRegs t [Reg.MEM_WB_CANCEL_CNT] ∧ t = { s with regs := t.regs, integ := { s.integ with wb := t.integ.wb } })) ∧
  (∀ (s : State) (a : Word) (b : Fin 72), s.clocked = true → s.domOn 11 = true → s.ueIn 0xE0 (a.toNat / 64 * 64) 1 = false →
    Completes (.ddrScrub a (.corrected b)) s (fun t =>
      t.rdN Reg.MEM_DDR_CE_CNT = min (s.rdN Reg.MEM_DDR_CE_CNT + 1) 0xFFFFFFFF ∧
      t.rd64 Reg.MEM_CE_LAST = locWord 0xE0 (a.toNat / 64 * 64) true ∧ t.bit Reg.MEM_STAT 0 = true ∧
      s.SameRegs t [Reg.MEM_DDR_CE_CNT, Reg.MEM_CE_LAST, Reg.MEM_CE_LAST + 4, Reg.MEM_STAT, Reg.PG_IRQ_RAW Page.MEM, Reg.MEM_HARD_CNT,
        Reg.MEM_HARD_DROP_CNT] ∧ s.SameMemory t))

/-- The fabric, the crossings and the temperatures (rules R376, R377, R381, R385 and R387). -/
def Obligations.FabricAndCrossings : Prop :=
  (∀ (s : State) (l : Fin 256) (n : Fin 4), s.clocked = true → n.val < 3 →
    Completes (.fabricNak l n .other) s (fun t =>
      t.rdN Reg.MEM_FAB_RTY_CNT = min (s.rdN Reg.MEM_FAB_RTY_CNT + 1) 0xFFFFFFFF ∧ s.Writes t [Reg.MEM_FAB_RTY_CNT])) ∧
  (∀ (s : State) (l : Fin 256), s.clocked = true →
    Completes (.fabricNak l 3 .other) s (fun t =>
      t.rdN Reg.MEM_FAB_ERR_CNT = min (s.rdN Reg.MEM_FAB_ERR_CNT + 1) 0xFFFFFFFF ∧ t.rdN Reg.MEM_FAB_LAST = l.val ∧
      t.bit Reg.MEM_STAT 5 = true ∧ t.bit Reg.SYS_STAT 5 = true ∧
      s.SameRegs t [Reg.MEM_FAB_ERR_CNT, Reg.MEM_FAB_LAST, Reg.MEM_STAT, Reg.PG_IRQ_RAW Page.MEM, Reg.SYS_STAT, Reg.PG_IRQ_RAW Page.SYS] ∧
      s.SameMemory t)) ∧
  (∀ (s : State) (x y : Fin 16), s.clocked = true →
    Completes (.cdcStallTimeout x y) s (fun t =>
      t.rdN Reg.CDC_STALL_CNT = min (s.rdN Reg.CDC_STALL_CNT + 4096) 0xFFFFFFFF ∧ t.bit Reg.CDC_STAT 1 = true ∧
      t.rdN Reg.CDC_LOST_CNT = min (s.rdN Reg.CDC_LOST_CNT + 1) 0xFFFFFFFF ∧ t.rdN Reg.CDC_LOST_LAST = crossingId x.val y.val + 256 ∧
      s.Raises t [Reg.CDC_STALL_CNT, Reg.CDC_STAT, Reg.CDC_STALL_TMO_CNT, Reg.CDC_LOST_CNT, Reg.CDC_LOST_LAST, Reg.PG_IRQ_RAW Page.CDC]
        [⟨Page.CDC, 1, true, 0, s.now⟩])) ∧
  (∀ (s : State) (x y : Fin 16) (lost : Nat), s.clocked = true →
    Completes (.crossingRearm x y lost) s (fun t =>
      t.rdN Reg.CDC_LOST_CNT = min (s.rdN Reg.CDC_LOST_CNT + lost) 0xFFFFFFFF ∧ t.bit Reg.CDC_STAT 0 = true ∧
      t.rdN Reg.CDC_LOST_LAST = crossingId x.val y.val ∧ t.rdN Reg.CDC_REARM_CNT = min (s.rdN Reg.CDC_REARM_CNT + 1) 0xFFFFFFFF ∧
      s.Raises t [Reg.CDC_LOST_CNT, Reg.CDC_STAT, Reg.CDC_LOST_LAST, Reg.CDC_REARM_CNT, Reg.PG_IRQ_RAW Page.CDC]
        [⟨Page.CDC, 0, false, 0, s.now⟩])) ∧
  (∀ (s : State) (x : RegionTemps), s.clocked = true →
    Completes (.tempSample x) s (fun t =>
      (∃ p, p = worstPair (tempPairs x) ∧
        t.rdN Reg.CDC_DT = (min (tempDiff p.2.2.1 p.2.2.2) 0xFFF + 65536 * p.1 + 1048576 * p.2.1) % 4294967296 ∧
        t.bit Reg.CDC_STAT 3 = decide (300 < tempDiff p.2.2.1 p.2.2.2)) ∧
      s.SameRegs t [Reg.CDC_DT, Reg.CDC_STAT, Reg.PG_IRQ_RAW Page.CDC] ∧ s.SameMemory t))

/-- Software's operations on tasks (rules R88 to R93 and R105): arm, cancel, the flags' set and clear, a configuration word. Outside RUN and
DEGRADED they are open to software for every task. Context words other than those named stay. -/
def Obligations.DealerSoftware : Prop :=
  (∀ (s : State) (ag : Agent) (v : Word), s.writable ag Page.DLR = true → s.running = false → s.taskState (bitsOf v.toNat 8 0) = tsDormant →
    s.ready (bitsOf v.toNat 8 0) = false →
    Completes (.dlrArm ag v) s (fun t =>
      t.taskState (bitsOf v.toNat 8 0) = tsArmed ∧
      (∀ u w, w < 16 → ¬(u = bitsOf v.toNat 8 0 ∧ w = 15) → t.ctxW u w = s.ctxW u w) ∧ s.SameRegs t [Reg.DLR_STAT] ∧ s.SameMemory t)) ∧
  (∀ (s : State) (ag : Agent) (v : Word), s.writable ag Page.DLR = true → s.running = false → s.taskState (bitsOf v.toNat 8 0) = tsDormant →
    s.ready (bitsOf v.toNat 8 0) = true →
    Completes (.dlrArm ag v) s (fun t =>
      t.taskState (bitsOf v.toNat 8 0) = tsReady ∧ (t.taskRt (bitsOf v.toNat 8 0)).stamp = s.dlr.clock ∧ s.SameMemory t)) ∧
  (∀ (s : State) (ag : Agent) (v : Word), s.writable ag Page.DLR = true → s.running = false → s.taskState (bitsOf v.toNat 8 0) = tsArmed →
    s.ctxF (bitsOf v.toNat 8 0) 7 17 17 = 0 →
    Completes (.dlrCancel ag v) s (fun t =>
      t.taskState (bitsOf v.toNat 8 0) = tsCancelled ∧ t.ctxF (bitsOf v.toNat 8 0) 15 7 4 = 1 ∧
      t.rdN Reg.DLR_CANCEL_CNT = min (s.rdN Reg.DLR_CANCEL_CNT + 1) 0xFFFFFFFF ∧ s.SameMemory t)) ∧
  (∀ (s : State) (ag : Agent) (v : Word), s.writable ag Page.DLR = true → s.running = false → s.taskState (bitsOf v.toNat 8 0) = tsRunning →
    Completes (.dlrCancel ag v) s (fun t =>
      t.taskState (bitsOf v.toNat 8 0) = tsRunning ∧ t.ctxF (bitsOf v.toNat 8 0) 15 15 15 = 1 ∧ s.SameRegs t [Reg.DLR_STAT] ∧ s.SameMemory t)) ∧
  (∀ (s : State) (ag : Agent) (v : Word), s.writable ag Page.DLR = true → s.running = false → s.dlr.queue.length < 64 →
    Completes (.dlrSetf ag v) s (fun t =>
      t.dlr.queue = s.dlr.queue ++ [(bitsOf v.toNat 8 0, bitsOf v.toNat 20 16)] ∧
      t.bit Reg.DLR_STAT 4 = decide (s.dlr.queue.length + 1 = 64) ∧ s.SameRegs t [Reg.DLR_STAT] ∧
      t = { s with regs := t.regs, dlr := { s.dlr with queue := t.dlr.queue } })) ∧
  (∀ (s : State) (ag : Agent) (v : Word), s.writable ag Page.DLR = true → s.running = false →
    Completes (.dlrClrf ag v) s (fun t =>
      (∀ i, (t.ctxW (bitsOf v.toNat 8 0) 2).getLsbD i =
        (decide (i ≠ bitsOf v.toNat 20 16) && (s.ctxW (bitsOf v.toNat 8 0) 2).getLsbD i)) ∧
      (∀ u w, w < 16 → ¬(u = bitsOf v.toNat 8 0 ∧ w = 2) → t.ctxW u w = s.ctxW u w) ∧
      t = { s with dlr := { s.dlr with ctx := t.dlr.ctx } })) ∧
  (∀ (s : State) (ag : Agent) (w : Fin 16) (v : Word), s.writable ag Page.DLR = true → s.configurable = true → w.val ≠ 2 → w.val ≠ 15 →
    s.taskState (s.fld Reg.DLR_CTX_SEL 8 0) = tsDormant →
    Completes (.dlrCtxWrite ag w v) s (fun t =>
      t.ctxW (s.fld Reg.DLR_CTX_SEL 8 0) w.val = v &&& ctxMask w.val ∧
      (∀ u x, x < 16 → ¬(u = s.fld Reg.DLR_CTX_SEL 8 0 ∧ x = w.val) → t.ctxW u x = s.ctxW u x) ∧ s.SameMemory t)) ∧
  (∀ (s : State) (ag : Agent) (v : Word), s.writable ag Page.DLR = true → s.flowPhase (bitsOf v.toNat 5 0) = 7 →
    Completes (.dlrFlowReset ag v) s (fun t =>
      t.flowNext (bitsOf v.toNat 5 0) = 0 ∧ (∀ u w, t.ctxW u w = s.ctxW u w) ∧ s.SameMemory t))

/-- Flags, grants and flows (rules R90, R92 to R96 and R98 to R100): a queued flag reaches its context; the first task of a waiting
engine's home queue is granted to it, and a stage-in copy ends with TAKE; a flow releases its next position. -/
def Obligations.DealerCycles : Prop :=
  (∀ (s : State) (k f : Nat), s.clocked = true → s.dlr.queue = [(k, f)] → s.dlr.stalled = [] → (s.ctxW k 2).getLsbD f = false → f < 32 →
    s.taskState k ≠ tsArmed →
    Completes .eventQueueAccept s (fun t =>
      t.dlr.queue = [] ∧ (t.ctxW k 2).getLsbD f = true ∧ t.taskState k = s.taskState k ∧ t.bit Reg.DLR_STAT 4 = false ∧
      s.SameRegs t [Reg.DLR_STAT, Reg.DLR_EVQ_STALL_CNT] ∧ s.SameMemory t)) ∧
  (∀ (s : State) (q : Fin 4) (e k : Nat), s.clocked = true → k < 512 →
    (((List.range 16).map (fun i => 16 * q.val + i)).filter (fun e => s.engWaiting e)).find? (fun e => (s.homeFirst false e).isSome) = some e →
    s.homeFirst false e = some k → s.ueIn 0xA2 (64 * k) 64 = false → s.taskState k = tsReady → s.ctxF k 7 10 0 = 0 →
    Completes (.taskGrant q.castSucc) s (fun t =>
      t.taskState k = tsRunning ∧ t.ctxF k 15 14 8 = e % 128 ∧ t.engState e = 3 ∧ t.rdN (Reg.ENG_TASK e) = k + 0x80000000 ∧
      (t.engOf e).task = some k ∧ (t.engOf e).pc = s.ctxF k 0 15 0 / 8 * 8 ∧
      t.rdN Reg.DLR_GRANT_CNT = min (s.rdN Reg.DLR_GRANT_CNT + 1) 0xFFFFFFFF ∧ s.SameMemory t)) ∧
  (∀ (s : State) (x : StageIn) (rest : List StageIn), s.clocked = true → s.dlr.stage = x :: rest → s.integ.ue = [] →
    inCell (s.ctxW x.task 6).toNat (64 * min 1024 (s.ctxF x.task 7 10 0)) = true →
    Completes .stageInComplete s (fun t =>
      t.dlr.stage = rest ∧ (t.engOf x.engine).task = some x.task ∧
      t.data = s.data.setBytes (0x20000 * x.engine + 0x10000)
        (s.cell.bytes (s.ctxW x.task 6).toNat (64 * min 1024 (s.ctxF x.task 7 10 0))) ∧
      t.cell = s.cell ∧ t.dram = s.dram ∧ t.code = s.code)) ∧
  (∀ (s : State) (k : Fin 512), s.clocked = true → s.queued k.val = true → s.ctxF k.val 0 30 30 = 1 → s.taskHome k.val ≠ 0x7F →
    Completes (.stealDelayExpiry k) s (fun t =>
      (t.taskRt k.val).waited = true ∧ t.inKitty k.val = true ∧ s.SameRegs t [Reg.DLR_STAT] ∧
      t = { s with regs := t.regs, dlr := { s.dlr with tasks := t.dlr.tasks, clock := s.dlr.clock + 1 } })) ∧
  (∀ (s : State) (f : Fin 64) (k : Nat), s.clocked = true → s.flowLive f.val = true → s.bit (Reg.DLR_FLOW_STAT f.val) 15 = false →
    s.flowNext f.val + 1 < s.flowLen f.val → s.flowHolder f.val (s.flowNext f.val) = some k → (s.taskRt k).round = true →
    s.taskState k ≠ tsCancelled → s.taskState k ≠ tsFaulted →
    s.flowF f.val 0 2 1 = 0 →
    Completes (.flowRelease f) s (fun t => t.flowNext f.val = s.flowNext f.val + 1 ∧ (∀ u w, t.ctxW u w = s.ctxW u w) ∧ s.SameMemory t)) ∧
  (∀ (s : State) (f : Fin 64) (k : Nat), s.clocked = true → s.flowLive f.val = true → s.bit (Reg.DLR_FLOW_STAT f.val) 15 = false →
    s.flowNext f.val + 1 < s.flowLen f.val → s.flowHolder f.val (s.flowNext f.val) = some k → (s.taskRt k).round = true →
    s.taskState k ≠ tsCancelled → s.taskState k ≠ tsFaulted →
    s.flowF f.val 0 2 1 = 1 → s.integ.ue = [] → inCell (s.ctxW k 8).toNat (8 * (s.flowF f.val 0 8 3 + 1)) = true →
    inCell (s.flowDst f.val + 8 * (s.flowF f.val 0 8 3 + 1) * s.flowNext f.val) (8 * (s.flowF f.val 0 8 3 + 1)) = true →
    s.sealedAt (s.flowDst f.val + 8 * (s.flowF f.val 0 8 3 + 1) * s.flowNext f.val) (8 * (s.flowF f.val 0 8 3 + 1)) = false →
    Completes (.flowRelease f) s (fun t =>
      t.flowNext f.val = s.flowNext f.val + 1 ∧
      t.cell = s.cell.copy (s.ctxW k 8).toNat (s.flowDst f.val + 8 * (s.flowF f.val 0 8 3 + 1) * s.flowNext f.val)
        (8 * (s.flowF f.val 0 8 3 + 1))))

/-- Threads of the application cores (rules R97, R99 and R106): a take waits, and returns empty after DLR_CORE_TMO; a take that is not the
core's own is refused and returns 0; a completion or a yield counts only from
that core and for the thread that it holds, and in the round of the flow in which its context gives it a position. -/
def Obligations.CoreThreads : Prop :=
  (∀ (s : State) (n : Fin 4), s.clocked = true →
    Completes (.dlrCoreTake (.core n) n) s (fun t => n.val ∈ t.dlr.coreWait ∧ t = { s with dlr := { s.dlr with coreWait := t.dlr.coreWait } })) ∧
  (∀ (s : State) (n m : Fin 4), s.clocked = true → m ≠ n →
    Completes (.dlrCoreTake (.core m) n) s (fun t =>
      t.bit Reg.DLR_STAT 1 = true ∧ t.plant.bus = 0 ∧ t.dlr = s.dlr ∧
      s.SameRegs t [Reg.DLR_STAT, Reg.DLR_OP_REF_CNT, Reg.PG_IRQ_RAW Page.DLR] ∧ s.SameMemory t)) ∧
  (∀ (s : State) (n : Fin 4), s.clocked = true → n.val ∈ s.dlr.coreWait → s.fld Reg.DLR_CORE_TMO 23 0 ≠ 0 →
    Completes (.coreTakeTimeout n) s (fun t =>
      n.val ∉ t.dlr.coreWait ∧ t.rd64 (Reg.DLR_CORE_TAKE n.val) = 0 ∧ t.plant.bus = 0 ∧
      t.rdN Reg.DLR_CORE_TMO_CNT = min (s.rdN Reg.DLR_CORE_TMO_CNT + 1) 0xFFFFFFFF ∧
      s.SameRegs t [Reg.DLR_CORE_TAKE n.val, Reg.DLR_CORE_TAKE n.val + 4, Reg.DLR_CORE_TMO_CNT] ∧ s.SameMemory t)) ∧
  (∀ (s : State) (n : Fin 4) (v : Word), s.writable (.core n) Page.DLR = true → (n.val, bitsOf v.toNat 8 0) ∈ s.dlr.coreHeld →
    s.taskState (bitsOf v.toNat 8 0) = tsRunning → s.ctxF (bitsOf v.toNat 8 0) 15 15 15 = 0 → s.ctxF (bitsOf v.toNat 8 0) 9 14 14 = 0 →
    s.taskPhase (bitsOf v.toNat 8 0) = 2 →
    Completes (.dlrCoreDone (.core n) n v) s (fun t =>
      t.taskState (bitsOf v.toNat 8 0) = tsDone ∧ (t.taskRt (bitsOf v.toNat 8 0)).round = (s.ctxF (bitsOf v.toNat 8 0) 7 17 17 == 1) ∧
      t.dlr.coreHeld = Tab.erase n.val s.dlr.coreHeld ∧ s.SameRegs t [Reg.DLR_STAT] ∧ s.SameMemory t)) ∧
  (∀ (s : State) (n : Fin 4) (v : Word), s.writable (.core n) Page.DLR = true → (n.val, bitsOf v.toNat 8 0) ∈ s.dlr.coreHeld →
    s.taskState (bitsOf v.toNat 8 0) = tsRunning → s.ctxF (bitsOf v.toNat 8 0) 15 15 15 = 0 → s.taskPhase (bitsOf v.toNat 8 0) = 7 →
    Completes (.dlrCoreYield (.core n) n v) s (fun t =>
      t.taskState (bitsOf v.toNat 8 0) = tsPreempted ∧ t.rdN Reg.DLR_PRE_CNT = min (s.rdN Reg.DLR_PRE_CNT + 1) 0xFFFFFFFF ∧
      t.dlr.coreHeld = Tab.erase n.val s.dlr.coreHeld ∧ s.SameMemory t)) ∧
  (∀ (s : State) (ag : Agent) (n : Fin 4) (v : Word), s.writable ag Page.DLR = true →
    ag ≠ .core n ∨ (n.val, bitsOf v.toNat 8 0) ∉ s.dlr.coreHeld →
    Completes (.dlrCoreDone ag n v) s (fun t => t.bit Reg.DLR_STAT 1 = true ∧
      t.rdN Reg.DLR_OP_REF_CNT = min (s.rdN Reg.DLR_OP_REF_CNT + 1) 0xFFFFFFFF ∧ t.dlr.coreHeld = s.dlr.coreHeld ∧
      (∀ u w, t.ctxW u w = s.ctxW u w) ∧ s.SameMemory t) ∧
    Completes (.dlrCoreYield ag n v) s (fun t => t.bit Reg.DLR_STAT 1 = true ∧
      t.rdN Reg.DLR_OP_REF_CNT = min (s.rdN Reg.DLR_OP_REF_CNT + 1) 0xFFFFFFFF ∧ t.dlr.coreHeld = s.dlr.coreHeld ∧
      (∀ u w, t.ctxW u w = s.ctxW u w) ∧ s.SameMemory t))

/-- The operations that write one data register from the values before the bundle (rules R66, R67 and R73): moves, wrapping arithmetic,
logic, shifts, exponents, minimum and maximum, constants and reads of other registers. The engine goes on at the next bundle with that
register written; nothing else of it differs, and no memory. -/
def Obligations.EngineRegisterOps : Prop :=
  ∀ (s : State) (e : Fin 64) (g : Eng) (b : Bool) (d r : Fin 32), s.freshBundle e.val = true → s.engOf e.val = g →
    Completes (.mov e b true d r) s (fun t => s.OneBundle t e.val (g.next.setD d.val (g.dr r.val)) ∧
      t.rd64 (Reg.ENG_BUSY_CNT e.val) = min (s.rd64 (Reg.ENG_BUSY_CNT e.val) + 1) (2 ^ 64 - 1)) ∧
    Completes (.add e b true d r) s (fun t => s.OneBundle t e.val (g.next.setD d.val (g.dr d.val + g.dr r.val))) ∧
    Completes (.sub e b true d r) s (fun t => s.OneBundle t e.val (g.next.setD d.val (g.dr d.val - g.dr r.val))) ∧
    Completes (.andOp e b true d r) s (fun t => s.OneBundle t e.val (g.next.setD d.val (g.dr d.val &&& g.dr r.val))) ∧
    Completes (.orOp e b true d r) s (fun t => s.OneBundle t e.val (g.next.setD d.val (g.dr d.val ||| g.dr r.val))) ∧
    Completes (.xorOp e b true d r) s (fun t => s.OneBundle t e.val (g.next.setD d.val (g.dr d.val ^^^ g.dr r.val))) ∧
    Completes (.sra e b true d r) s (fun t => s.OneBundle t e.val (g.next.setD d.val ((g.dr d.val).sshiftRight r.val))) ∧
    Completes (.srar e b true d r) s (fun t =>
      s.OneBundle t e.val (g.next.setD d.val (BitVec.ofInt 32 (roundShift (g.dr d.val).toInt r.val)))) ∧
    Completes (.sll e b true d r) s (fun t => s.OneBundle t e.val (g.next.setD d.val (g.dr d.val <<< r.val))) ∧
    Completes (.srl e b true d r) s (fun t => s.OneBundle t e.val (g.next.setD d.val (g.dr d.val >>> r.val))) ∧
    Completes (.exp e b true d r) s (fun t => s.OneBundle t e.val (g.next.setD d.val (w32 (expOf 32 (g.dr r.val).toNat)))) ∧
    Completes (.norm e b true d r) s (fun t => s.OneBundle t e.val (g.next.setD d.val (g.dr r.val <<< expOf 32 (g.dr r.val).toNat))) ∧
    Completes (.movd e b true d r) s (fun t => s.OneBundle t e.val (g.next.setD d.val (g.axr r.val))) ∧
    Completes (.minOp e b true d r) s (fun t =>
      s.OneBundle t e.val (g.next.setD d.val (if (g.dr d.val).toInt ≤ (g.dr r.val).toInt then g.dr d.val else g.dr r.val))) ∧
    Completes (.maxOp e b true d r) s (fun t =>
      s.OneBundle t e.val (g.next.setD d.val (if (g.dr r.val).toInt ≤ (g.dr d.val).toInt then g.dr d.val else g.dr r.val))) ∧
    (∀ v : Word, Completes (.movi e true d v) s (fun t => s.OneBundle t e.val (g.next.setD d.val v))) ∧
    Completes (.rdeng e true d) s (fun t => s.OneBundle t e.val (g.next.setD d.val (w32 e.val))) ∧
    (r.val < 16 → Completes (.msv e true d r) s (fun t => s.OneBundle t e.val (g.next.setD d.val (g.spRead r.val)))) ∧
    Completes (.rdcyc e true d) s (fun t => ∃ v, s.OneBundle t e.val (g.next.setD d.val v))

/-- The operations on pairs (rules R57 and R66): even registers, bits 31:0 in the even one. -/
def Obligations.EnginePairOps : Prop :=
  ∀ (s : State) (e : Fin 64) (g : Eng) (b : Bool) (d r : Fin 32), s.freshBundle e.val = true → s.engOf e.val = g → d.val % 2 = 0 → r.val % 2 = 0 →
    Completes (.movp e b true d r) s (fun t =>
      s.OneBundle t e.val ((g.next.setD d.val (g.dr r.val)).setD (d.val + 1) (g.dr (r.val + 1)))) ∧
    Completes (.addp e b true d r) s (fun t =>
      ∃ v, v = g.pair d.val + g.pair r.val ∧
        s.OneBundle t e.val ((g.next.setD d.val (v.setWidth 32)).setD (d.val + 1) ((v >>> 32).setWidth 32))) ∧
    Completes (.subp e b true d r) s (fun t =>
      ∃ v, v = g.pair d.val - g.pair r.val ∧
        s.OneBundle t e.val ((g.next.setD d.val (v.setWidth 32)).setD (d.val + 1) ((v >>> 32).setWidth 32)))

/-- The saturating operations (rules R65, R66 and R85): a result within 32 bits is exact; one outside takes the nearer limit and sets SR.SAT and
ENG_STAT.SAT. -/
def Obligations.EngineSaturation : Prop :=
  (∀ (s : State) (e : Fin 64) (g : Eng) (b : Bool) (d r : Fin 32), s.freshBundle e.val = true → s.engOf e.val = g →
    (satTo 32 ((g.dr d.val).toInt + (g.dr r.val).toInt) = (g.dr d.val).toInt + (g.dr r.val).toInt →
      Completes (.adds e b true d r) s (fun t =>
        s.OneBundle t e.val (g.next.setD d.val (BitVec.ofInt 32 ((g.dr d.val).toInt + (g.dr r.val).toInt))))) ∧
    (satTo 32 ((g.dr d.val).toInt - (g.dr r.val).toInt) = (g.dr d.val).toInt - (g.dr r.val).toInt →
      Completes (.subs e b true d r) s (fun t =>
        s.OneBundle t e.val (g.next.setD d.val (BitVec.ofInt 32 ((g.dr d.val).toInt - (g.dr r.val).toInt))))) ∧
    (∀ i : BitVec 5, satTo 32 ((g.dr d.val).toInt + i.toInt) = (g.dr d.val).toInt + i.toInt →
      Completes (.addi e b true d i) s (fun t => s.OneBundle t e.val (g.next.setD d.val (BitVec.ofInt 32 ((g.dr d.val).toInt + i.toInt))))) ∧
    (g.dr r.val ≠ 0x80000000 →
      Completes (.absOp e b true d r) s (fun t => s.OneBundle t e.val (g.next.setD d.val (BitVec.ofInt 32 ((g.dr r.val).toInt.natAbs : Int))))) ∧
    (satTo 32 ((g.dr d.val).toInt + (g.dr r.val).toInt) ≠ (g.dr d.val).toInt + (g.dr r.val).toInt →
      Completes (.adds e b true d r) s (fun t =>
        (t.engOf e.val).dr d.val = BitVec.ofInt 32 (satTo 32 ((g.dr d.val).toInt + (g.dr r.val).toInt)) ∧
        (t.engOf e.val).sr.getLsbD srSAT = true ∧ t.bit (Reg.ENG_STAT e.val) 5 = true ∧
        t.rdN (Reg.ENG_SAT_CNT e.val) = min (s.rdN (Reg.ENG_SAT_CNT e.val) + 1) 0xFFFFFFFF ∧ s.SameMemory t)))

/-- Multiply and accumulate (rules R63 and R64): an exact result within 80 bits is taken as it is; one outside takes the limit and sets
SR.AOV. -/
def Obligations.EngineMultiplyAccumulate : Prop :=
  ∀ (s : State) (e : Fin 64) (g : Eng) (n m : Fin 4) (a b : Fin 32), s.freshBundle e.val = true → s.engOf e.val = g →
    Completes (.mpy e true n a b) s (fun t =>
      s.OneBundle t e.val { g.next with acc := Tab.set (fun _ => 0) g.acc n.val (BitVec.ofInt 80 (g.prod a.val b.val)) }) ∧
    Completes (.mpyu e true n a b) s (fun t =>
      s.OneBundle t e.val { g.next with acc := Tab.set (fun _ => 0) g.acc n.val (BitVec.ofInt 80 (g.prodU a.val b.val)) }) ∧
    (∀ i, i = (g.accr n.val).toInt + g.prod a.val b.val → satTo 80 i = i →
      Completes (.mac e true n a b) s (fun t =>
        s.OneBundle t e.val { g.next with acc := Tab.set (fun _ => 0) g.acc n.val (BitVec.ofInt 80 i) })) ∧
    (∀ i, i = (g.accr n.val).toInt - g.prod a.val b.val → satTo 80 i = i →
      Completes (.msu e true n a b) s (fun t =>
        s.OneBundle t e.val { g.next with acc := Tab.set (fun _ => 0) g.acc n.val (BitVec.ofInt 80 i) })) ∧
    (∀ i, i = (g.accr n.val).toInt + g.prodU a.val b.val → satTo 80 i = i →
      Completes (.macu e true n a b) s (fun t =>
        s.OneBundle t e.val { g.next with acc := Tab.set (fun _ => 0) g.acc n.val (BitVec.ofInt 80 i) })) ∧
    (∀ i, i = (g.accr n.val).toInt + g.prod a.val b.val * 2 ^ 32 → satTo 80 i = i →
      Completes (.mach e true n a b) s (fun t =>
        s.OneBundle t e.val { g.next with acc := Tab.set (fun _ => 0) g.acc n.val (BitVec.ofInt 80 i) })) ∧
    Completes (.aclr e true n) s (fun t => s.OneBundle t e.val { g.next with acc := Tab.set (fun _ => 0) g.acc n.val 0 }) ∧
    (∀ i, i = (g.accr n.val).toInt + (g.accr m.val).toInt → satTo 80 i = i →
      Completes (.aadd e true n m) s (fun t =>
        s.OneBundle t e.val { g.next with acc := Tab.set (fun _ => 0) g.acc n.val (BitVec.ofInt 80 i) })) ∧
    (∀ k : BitVec 5, k.toInt < 0 →
      Completes (.ash e true n k) s (fun t =>
        s.OneBundle t e.val { g.next with acc := Tab.set (fun _ => 0) g.acc n.val ((g.accr n.val).sshiftRight (-k.toInt).toNat) })) ∧
    (∀ i, i = (g.accr n.val).toInt + g.prod a.val b.val → satTo 80 i ≠ i →
      Completes (.mac e true n a b) s (fun t =>
        (t.engOf e.val).accr n.val = BitVec.ofInt 80 (satTo 80 i) ∧ (t.engOf e.val).sr.getLsbD srAOV = true ∧
        t.bit (Reg.ENG_STAT e.val) 6 = true ∧ s.SameMemory t))

/-- Quad and complex products (rules R57 and R63), on operands whose fields are multiples of four or even, with exact results in range. -/
def Obligations.EngineQuadAndComplex : Prop :=
  ∀ (s : State) (e : Fin 64) (g : Eng) (n : Fin 4) (a b : Fin 32), s.freshBundle e.val = true → s.engOf e.val = g →
    (b.val % 4 = 0 →
      Completes (.qmpy e true a b) s (fun t =>
        s.OneBundle t e.val (t.engOf e.val) ∧ ∀ i, i < 4 → (t.engOf e.val).accr i = BitVec.ofInt 80 (g.prod a.val (b.val + i)))) ∧
    (b.val % 4 = 0 → (∀ i, i < 4 → satTo 80 ((g.accr i).toInt + g.prod a.val (b.val + i)) = (g.accr i).toInt + g.prod a.val (b.val + i)) →
      Completes (.qmac e true a b) s (fun t =>
        s.OneBundle t e.val (t.engOf e.val) ∧
        ∀ i, i < 4 → (t.engOf e.val).accr i = BitVec.ofInt 80 ((g.accr i).toInt + g.prod a.val (b.val + i)))) ∧
    (n.val % 2 = 0 → a.val % 2 = 0 → b.val % 2 = 0 →
      Completes (.cmpy e true n a b) s (fun t =>
        (t.engOf e.val).accr n.val = BitVec.ofInt 80 (g.prod a.val b.val - g.prod (a.val + 1) (b.val + 1)) ∧
        (t.engOf e.val).accr (n.val + 1) = BitVec.ofInt 80 (g.prod a.val (b.val + 1) + g.prod (a.val + 1) b.val) ∧
        s.OneBundle t e.val (t.engOf e.val))) ∧
    (n.val % 2 = 0 → a.val % 2 = 0 → b.val % 2 = 0 → ∀ x y, x = (g.accr n.val).toInt + (g.cprod a.val b.val).1 →
      y = (g.accr (n.val + 1)).toInt + (g.cprod a.val b.val).2 → satTo 80 x = x → satTo 80 y = y →
      Completes (.cmac e true n a b) s (fun t =>
        (t.engOf e.val).accr n.val = BitVec.ofInt 80 x ∧ (t.engOf e.val).accr (n.val + 1) = BitVec.ofInt 80 y ∧
        s.OneBundle t e.val (t.engOf e.val))) ∧
    (n.val % 2 = 0 → a.val % 2 = 0 → b.val % 2 = 0 → ∀ x y, x = (g.accr n.val).toInt + (g.prod a.val b.val + g.prod (a.val + 1) (b.val + 1)) →
      y = (g.accr (n.val + 1)).toInt + (g.prod (a.val + 1) b.val - g.prod a.val (b.val + 1)) → satTo 80 x = x → satTo 80 y = y →
      Completes (.cmacj e true n a b) s (fun t =>
        (t.engOf e.val).accr n.val = BitVec.ofInt 80 x ∧ (t.engOf e.val).accr (n.val + 1) = BitVec.ofInt 80 y ∧
        s.OneBundle t e.val (t.engOf e.val)))

/-- Moves between accumulators and data registers (rules R65, R67 and R68): what MVA and EXPA write is visible one bundle later; MAV writes its
accumulator, as an MVA reads it too. -/
def Obligations.EngineAccumulatorMoves : Prop :=
  ∀ (s : State) (e : Fin 64) (g : Eng) (b : Bool) (d : Fin 32) (n : Fin 4), s.freshBundle e.val = true → s.engOf e.val = g →
    (∀ x, x = scaleBy (g.accMvar n.val).toInt (g.shift n.val) → satTo 32 x = x →
      Completes (.mva e b true d n 0) s (fun t => s.OneBundle t e.val { g.next with late := [(d.val, BitVec.ofInt 32 x)] })) ∧
    Completes (.mva e b true d n 2) s (fun t => s.OneBundle t e.val { g.next with late := [(d.val, (g.accMvar n.val).setWidth 32)] }) ∧
    Completes (.mav e b true d n 0) s (fun t =>
      s.OneBundle t e.val { g.next with acc := Tab.set (fun _ => 0) g.acc n.val ((g.dr d.val).signExtend 80),
                                        accMva := Tab.set (fun _ => 0) g.acc n.val ((g.dr d.val).signExtend 80) }) ∧
    Completes (.expa e true n d) s (fun t =>
      s.OneBundle t e.val { g.next with late := [(d.val, w32 (expOf 80 (g.accr n.val).toNat))] })

/-- Address and special registers, flags and loops (rules R71, R73 and R78): each writes its register and nothing else of the engine. -/
def Obligations.EngineSpecialRegisters : Prop :=
  ∀ (s : State) (e : Fin 64) (g : Eng) (b : Bool) (c d r : Fin 32), s.freshBundle e.val = true → s.engOf e.val = g →
    Completes (.movx e b true c r) s (fun t => s.OneBundle t e.val (g.next.setAx c.val (g.dr r.val))) ∧
    (∀ v, Completes (.movix e true c v) s (fun t => s.OneBundle t e.val (g.next.setAx c.val v))) ∧
    (c.val < 16 → Completes (.mvs e true c r) s (fun t => s.OneBundle t e.val (g.next.setSp c.val (g.dr r.val)))) ∧
    (∀ (n : Fin 4) (i : BitVec 7), Completes (.shi e true n i) s (fun t => s.OneBundle t e.val (g.next.setSp n.val (i.setWidth 32)))) ∧
    Completes (.cmp e b true d r) s (fun t =>
      s.OneBundle t e.val (g.next.setSp 10 (putBit (putBit g.sr srZ (g.dr d.val == g.dr r.val)) srN
        (decide ((g.dr d.val).toInt < (g.dr r.val).toInt))))) ∧
    Completes (.clrs e true) s (fun t => s.OneBundle t e.val (g.next.setSp 10 (putBit (putBit g.sr srSAT false) srAOV false))) ∧
    Completes (.pen e true) s (fun t =>
      s.OneBundle t e.val (g.next.setSp 10 (putBit g.sr srPE true)) ∧ t.bit (Reg.ENG_STAT e.val) 4 = true) ∧
    Completes (.pdis e true) s (fun t =>
      s.OneBundle t e.val (g.next.setSp 10 (putBit g.sr srPE false)) ∧ t.bit (Reg.ENG_STAT e.val) 4 = false) ∧
    (∀ sl : Fin 4, Completes (.nop e sl true) s (fun t => s.OneBundle t e.val g.next)) ∧
    (∀ (l : Fin 2) (n : BitVec 11) (k : BitVec 12), n ≠ 0 → k ≠ 0 →
      Completes (.loopImm e true l n k) s (fun t =>
        s.OneBundle t e.val (((g.next.setSp (4 + 3 * l.val) (w32 n.toNat)).setSp (5 + 3 * l.val) (w32 (g.pc + 8))).setSp (6 + 3 * l.val)
          (w32 (g.pc + 8 * k.toNat))))) ∧
    (∀ (l : Fin 2) (k : Fin 16), bitsOf (g.dr r.val).toNat 15 0 ≠ 0 →
      Completes (.loopr e true l r k) s (fun t =>
        s.OneBundle t e.val (((g.next.setSp (4 + 3 * l.val) (w32 (bitsOf (g.dr r.val).toNat 15 0))).setSp (5 + 3 * l.val)
          (w32 (g.pc + 8))).setSp (6 + 3 * l.val) (w32 (g.pc + 8 * (k.val + 1))))))

/-- Branches (rules R70 and R73): the next bundle is the delay slot, and the one after it stands at the target; BCC tests SR as earlier bundles left
it; LCALL also sets LK. -/
def Obligations.EngineBranches : Prop :=
  ∀ (s : State) (e : Fin 64) (g : Eng) (r : Fin 32), s.freshBundle e.val = true → s.engOf e.val = g →
    (∀ o, Completes (.br e true o) s (fun t => s.OneBundle t e.val { g.next with delay := some (some (codeAddr (g.pc + 8 * o.toInt))) })) ∧
    (∀ c o, Completes (.bcc e true c o) s (fun t =>
      s.OneBundle t e.val { g.next with delay := some (if condHolds c.val g.sr then some (codeAddr (g.pc + 8 * o.toInt)) else none) })) ∧
    Completes (.jr e true r) s (fun t => s.OneBundle t e.val { g.next with delay := some (some (codeAddr (g.dr r.val).toNat)) }) ∧
    Completes (.ret e true) s (fun t => s.OneBundle t e.val { g.next with delay := some (some (codeAddr (g.spr 11).toNat)) }) ∧
    (∀ o, Completes (.lbr e true o) s (fun t => s.OneBundle t e.val { g.next with delay := some (some (codeAddr (g.pc + 8 * o.toInt))) })) ∧
    (∀ o, Completes (.lcall e true o) s (fun t =>
      s.OneBundle t e.val { (g.next.setSp 11 (w32 (codeAddr (g.pc + 16)))) with delay := some (some (codeAddr (g.pc + 8 * o.toInt))) }))

/-- Loads and stores of an engine's own data SRAM (rules R58 to R60 and R68), aligned and without an error: a load is visible one bundle later, a
store changes its bytes alone, and the address register takes its post-modified value. -/
def Obligations.EngineLoadsAndStores : Prop :=
  ∀ (s : State) (e : Fin 64) (g : Eng) (b : Bool) (d : Fin 32) (x : Fin 8) (m : Fin 4) (a : Nat), s.freshBundle e.val = true →
    s.engOf e.val = g → (g.axr x.val).toNat = a → a < 0x20000 → s.integ.ue = [] →
    (a % 4 = 0 →
      Completes (.ld e b true d x m .clean) s (fun t =>
        s.OneBundle t e.val { (if m.val = 0 then g.next else g.next.setAx x.val (g.postModify x.val m.val 4)) with
          late := [(d.val, w32 (s.data.getN (0x20000 * e.val + a) 4))] })) ∧
    (a % 8 = 0 → d.val % 2 = 0 →
      Completes (.ldp e b true d x m .clean) s (fun t =>
        s.OneBundle t e.val { (if m.val = 0 then g.next else g.next.setAx x.val (g.postModify x.val m.val 8)) with
          late := [(d.val, w32 (s.data.getN (0x20000 * e.val + a) 8)), (d.val + 1, w32 (s.data.getN (0x20000 * e.val + a) 8 / 4294967296))] })) ∧
    (a % 4 = 0 →
      Completes (.st e b true d x m .clean) s (fun t =>
        t.engOf e.val = (if m.val = 0 then g.next else g.next.setAx x.val (g.postModify x.val m.val 4)) ∧
        t.data = s.data.setN (0x20000 * e.val + a) 4 (g.dr d.val).toNat ∧ t.cell = s.cell ∧ t.dram = s.dram ∧ t.code = s.code)) ∧
    (a % 8 = 0 → d.val % 2 = 0 →
      Completes (.stp e b true d x m .clean) s (fun t =>
        t.engOf e.val = (if m.val = 0 then g.next else g.next.setAx x.val (g.postModify x.val m.val 8)) ∧
        t.data = s.data.setN (0x20000 * e.val + a) 8 (g.pair d.val).toNat ∧ t.cell = s.cell ∧ t.dram = s.dram ∧ t.code = s.code))

/-- The operations that reach the Dealer (rules R75, R76, R81 and R92): DONE reports the task, TAKE waits for one, YIELD in the trap routine gives a
PHASE = 7 task back as PREEMPTED, SETF sends a flag, RTE returns from the trap. -/
def Obligations.EngineTaskControl : Prop :=
  (∀ (s : State) (e : Fin 64) (k : Nat), s.freshBundle e.val = true → s.bit (Reg.ENG_CTRL e.val) 0 = true → (s.engOf e.val).task = some k →
    s.taskState k = tsRunning → s.ctxF k 15 15 15 = 0 → s.ctxF k 9 14 14 = 0 → s.taskPhase k = 2 →
    Completes (.doneOp e true) s (fun t =>
      t.taskState k = tsDone ∧ (t.taskRt k).round = (s.ctxF k 7 17 17 == 1) ∧ (t.engOf e.val).task = none ∧ (t.engOf e.val).pc = codeAddr ((s.engOf e.val).pc + 8) ∧
      t.engState e.val = s.engState e.val ∧ s.SameMemory t)) ∧
  (∀ (s : State) (e : Fin 64), s.freshBundle e.val = true → s.bit (Reg.ENG_CTRL e.val) 0 = true → (s.engOf e.val).task = none →
    Completes (.take e true) s (fun t =>
      t.engState e.val = 2 ∧ t.engOf e.val = { (s.engOf e.val).next with preReq := false } ∧
      (∀ k, k ≠ e.val → t.engOf k = s.engOf k) ∧ s.SameMemory t)) ∧
  (∀ (s : State) (e : Fin 64) (k : Nat), s.freshBundle e.val = true → s.bit (Reg.ENG_CTRL e.val) 0 = true → s.engState e.val = 4 →
    (s.engOf e.val).task = some k → s.taskState k = tsRunning → s.ctxF k 15 15 15 = 0 → s.taskPhase k = 7 →
    Completes (.yield e true) s (fun t =>
      t.taskState k = tsPreempted ∧ t.engState e.val = 2 ∧ (t.engOf e.val).task = none ∧ s.SameMemory t)) ∧
  (∀ (s : State) (e : Fin 64) (r : Fin 32), s.freshBundle e.val = true → s.dlr.queue.length < 64 →
    Completes (.setf e true r) s (fun t =>
      t.dlr.queue = s.dlr.queue ++ [(bitsOf ((s.engOf e.val).dr r.val).toNat 8 0, bitsOf ((s.engOf e.val).dr r.val).toNat 20 16)] ∧
      t.engOf e.val = (s.engOf e.val).next ∧ s.SameMemory t)) ∧
  (∀ (s : State) (e : Fin 64), s.freshBundle e.val = true → s.engState e.val = 4 →
    Completes (.rte e true) s (fun t =>
      t.engState e.val = 3 ∧ (t.engOf e.val).pc = codeAddr ((s.engOf e.val).spr 12).toNat ∧
      (t.engOf e.val).sr = (s.engOf e.val).spr 13 &&& 0x3F ∧ (t.engOf e.val).axr 7 = (s.engOf e.val).spr 14 ∧ s.SameMemory t))

/-- Preemption, enabling and code (rules R79, R86 and R464): the trap saves pc, SR and X7 and enters the routine; EN starts a DISABLED engine at
0x0000; code is written in BOOT alone, and below the lock by the loader alone. -/
def Obligations.EngineTrapAndCode : Prop :=
  (∀ (s : State) (e : Fin 64), s.engRuns e.val = true → s.engState e.val = 3 → (s.engOf e.val).preReq = true → (s.engOf e.val).delay = none →
    (s.engOf e.val).staged = [] →
    Completes (.preemptionTrap e) s (fun t =>
      (t.engOf e.val).spr 12 = w32 ((s.engOf e.val).pc) &&& 0xFFFF ∧ (t.engOf e.val).spr 13 = (s.engOf e.val).sr &&& 0xFFFF ∧
      (t.engOf e.val).spr 14 = (s.engOf e.val).axr 7 ∧ (t.engOf e.val).axr 7 = (s.engOf e.val).spr 15 ∧
      (t.engOf e.val).sr = (s.engOf e.val).sr &&& 0xF ∧ (t.engOf e.val).pc = 0x40 ∧ t.engState e.val = 4 ∧
      t.bit (Reg.ENG_STAT e.val) 4 = false ∧ t.rdN (Reg.ENG_PRE_CNT e.val) = min (s.rdN (Reg.ENG_PRE_CNT e.val) + 1) 0xFFFFFFFF ∧
      s.SameRegs t [Reg.ENG_STAT e.val, Reg.ENG_EPC e.val, Reg.ENG_PRE_CNT e.val] ∧ s.SameMemory t)) ∧
  (∀ (s : State) (ag : Agent) (e : Fin 64) (v : Word), s.cfgWritable ag (0x40 + e.val) = true → s.engState e.val = 1 →
    s.domOn (3 + e.val / 16) = true → v.getLsbD 0 = true →
    Completes (.engCtrlEn ag e v) s (fun t =>
      t.rd (Reg.ENG_CTRL e.val) = v &&& 7 ∧ t.engState e.val = 3 ∧ (t.engOf e.val).pc = 0 ∧ (t.engOf e.val).task = none ∧
      (∀ k, k ≠ e.val → t.engOf k = s.engOf k) ∧ s.SameMemory t)) ∧
  (∀ (s : State) (loader : Bool) (e : Fin 64) (n : Fin 8192) (v : BitVec 64), s.sys.dev = .boot → s.bit (Reg.ENG_CTRL e.val) 0 = false →
    (loader = true ∨ 1024 * s.fld (Reg.ENG_CODE_LOCK e.val) 6 0 ≤ 8 * n.val) → s.integ.ue = [] →
    Completes (.codeSramWrite loader e n v) s (fun t => t = { s with code := s.code.setN (0x10000 * e.val + 8 * n.val) 8 v.toNat })) ∧
  (∀ (s : State) (loader : Bool) (e : Fin 64) (n : Fin 8192) (v : BitVec 64), s.clocked = true → s.sys.dev ≠ .boot →
    Completes (.codeSramWrite loader e n v) s (fun t =>
      t.rdN (Reg.ENG_CWR_REF_CNT e.val) = min (s.rdN (Reg.ENG_CWR_REF_CNT e.val) + 1) 0xFFFFFFFF ∧
      s.Raises t [Reg.ENG_CWR_REF_CNT e.val, Reg.PG_IRQ_RAW (0x40 + e.val)] [⟨0x40 + e.val, 3, false, 0, s.now⟩]))

/-- The commands of a group to its axes (rules R110, R111, R119, R120, R124 to R129): an accepted command ends in RESULT 0x0 with its SEQ in
CONS_SEQ, and each member that the mask names takes the state, the target and the settings that its row gives; other axes, and other
registers, stay. -/
def Obligations.MotionCommands : Prop :=
  ∀ (s : State) (g : Fin 16) (seq mask : BitVec 16) (valid : BitVec 6) (fs : List MemberFields) (m a : Nat) (f : MemberFields),
    s.ticking = true → s.groupEn g.val = true → s.namedOnce g.val mask.toNat m a → f = fieldsOf fs m →
    (s.cmdResult g.val 1 mask.toNat valid.toNat fs = (0, 0) →
      Completes (.moveAbs g seq mask valid fs) s (fun t =>
        t.axState a = axMoving ∧ t.rd64 (Reg.PRF_TARGET a) = wrapTo 64 (s.fullStep a (sgn (fieldOf f 0 - s.setp a)) (fieldOf f 0)) ∧
        t.rdN (Reg.PRF_REPLAN_CNT a) = min (s.rdN (Reg.PRF_REPLAN_CNT a) + 1) 0xFFFFFFFF ∧
        t.rdN (Reg.PRFG_MBX_STAT g.val) = seq.toNat ∧ s.JoinFrame t g.val mask.toNat)) ∧
    (s.cmdResult g.val 2 mask.toNat valid.toNat fs = (0, 0) →
      Completes (.moveRel g seq mask valid fs) s (fun t =>
        t.axState a = axMoving ∧ t.rd64 (Reg.PRF_TARGET a) = wrapTo 64 (s.fullStep a (sgn (s.target a + fieldOf f 0 - s.setp a)) (s.target a + fieldOf f 0)) ∧
        t.rdN (Reg.PRFG_MBX_STAT g.val) = seq.toNat ∧ s.JoinFrame t g.val mask.toNat)) ∧
    (s.cmdResult g.val 3 mask.toNat valid.toNat fs = (0, 0) →
      Completes (.jog g seq mask valid fs) s (fun t =>
        t.axState a = axJog ∧ (t.axis a).jogV = fieldOf f 1 ∧ t.limV a = mag (fieldOf f 1) ∧
        t.rdN (Reg.PRFG_MBX_STAT g.val) = seq.toNat ∧ s.GroupFrame t g.val mask.toNat)) ∧
    (s.cmdResult g.val 4 mask.toNat valid.toNat fs = (0, 0) →
      Completes (.setLim g seq mask valid fs) s (fun t =>
        t.axState a = s.axState a ∧ t.limV a = (if valid.toNat.testBit 1 then fieldOf f 1 else s.limV a) ∧
        t.limA a = (if valid.toNat.testBit 2 then fieldOf f 2 else s.limA a) ∧
        t.limD a = (if valid.toNat.testBit 3 then fieldOf f 3 else s.limD a) ∧
        t.limJ a = (if valid.toNat.testBit 4 then fieldOf f 4 else s.limJ a) ∧
        t.rdN (Reg.PRFG_MBX_STAT g.val) = seq.toNat ∧ s.GroupFrame t g.val mask.toNat)) ∧
    (s.cmdResult g.val 5 mask.toNat valid.toNat fs = (0, 0) →
      Completes (.stop g seq mask valid fs) s (fun t =>
        t.axState a = axStopping ∧ (t.axis a).kept = decide (s.axState a = axMoving) ∧ (t.axis a).toIdle = false ∧ t.target a = s.target a ∧
        (s.axState a = axMoving → t.rd64 (Reg.PRF_REMAIN a) = wrapTo 64 (s.target a - s.setp a)) ∧
        t.rdN (Reg.PRFG_MBX_STAT g.val) = seq.toNat ∧ s.GroupFrame t g.val mask.toNat)) ∧
    (s.cmdResult g.val 6 mask.toNat valid.toNat fs = (0, 0) →
      Completes (.resume g seq mask valid fs) s (fun t =>
        t.axState a = axMoving ∧ t.target a = s.target a ∧ t.rdN (Reg.PRFG_MBX_STAT g.val) = seq.toNat ∧ s.GroupFrame t g.val mask.toNat)) ∧
    (s.cmdResult g.val 7 mask.toNat valid.toNat fs = (0, 0) →
      Completes (.abort g seq mask valid fs) s (fun t =>
        (s.axState a = axStopped → t.axState a = axIdle ∧ t.target a = s.setp a) ∧
        (s.axState a ≠ axIdle → s.axState a ≠ axStopped → t.axState a = axStopping ∧ (t.axis a).kept = false ∧ (t.axis a).toIdle = true) ∧
        (s.axState a = axHoming → t.fld (Reg.PRF_STAT a) 15 12 = 4) ∧
        t.rdN (Reg.PRFG_MBX_STAT g.val) = seq.toNat ∧ s.GroupFrame t g.val mask.toNat)) ∧
    (s.cmdResult g.val 8 mask.toNat valid.toNat fs = (0, 0) →
      Completes (.gearIn g seq mask valid fs) s (fun t =>
        t.axState a = axGearSync ∧ (t.axis a).slaveOfs = fieldOf f 0 ∧ (t.axis a).gearNum = signedOf 32 (bitsOf f.f1.toNat 31 0) ∧
        (t.axis a).gearDen = bitsOf f.f1.toNat 63 32 ∧
        t.rdN (Reg.PRFG_MBX_STAT g.val) = seq.toNat ∧ s.GroupFrame t g.val mask.toNat)) ∧
    (s.cmdResult g.val 9 mask.toNat valid.toNat fs = (0, 0) →
      Completes (.camIn g seq mask valid fs) s (fun t =>
        (s.axState a ≠ axCammed → t.axState a = axCamSync ∧ (t.axis a).slaveOfs = fieldOf f 0 ∧ (t.axis a).camTab = s.camTable a valid.toNat f) ∧
        (s.axState a = axCammed → s.camTable a valid.toNat f ≠ (s.axis a).camTab →
          (t.axis a).camNext = some (s.camTable a valid.toNat f, fieldOf f 0)) ∧
        t.rdN (Reg.PRFG_MBX_STAT g.val) = seq.toNat ∧ s.GroupFrame t g.val mask.toNat)) ∧
    (s.cmdResult g.val 10 mask.toNat valid.toNat fs = (0, 0) →
      Completes (.syncOut g seq mask valid fs) s (fun t =>
        t.axState a = axStopping ∧ (t.axis a).toIdle = true ∧ (t.axis a).softStop = true ∧
        t.rdN (Reg.PRFG_MBX_STAT g.val) = seq.toNat ∧ s.GroupFrame t g.val mask.toNat)) ∧
    (s.cmdResult g.val 11 mask.toNat valid.toNat fs = (0, 0) →
      Completes (.home g seq mask valid fs) s (fun t =>
        t.axState a = axHoming ∧ (t.fld (Reg.PRF_STAT a) 19 16 = 1 ∨ t.fld (Reg.PRF_STAT a) 19 16 = 2) ∧ t.fld (Reg.PRF_STAT a) 15 12 = 0 ∧
        (t.axis a).homeStart = s.setp a ∧ t.rdN (Reg.PRFG_MBX_STAT g.val) = seq.toNat ∧ s.GroupFrame t g.val mask.toNat)) ∧
    (s.cmdResult g.val 12 mask.toNat valid.toNat fs = (0, 0) →
      Completes (.setPos g seq mask valid fs) s (fun t =>
        (t.axis a).shift = some (fieldOf f 0 - s.setp a, false) ∧ t.axState a = s.axState a ∧
        t.rdN (Reg.PRFG_MBX_STAT g.val) = seq.toNat ∧ s.GroupFrame t g.val mask.toNat)) ∧
    (s.cmdResult g.val 13 mask.toNat valid.toNat fs = (0, 0) →
      Completes (.follow g seq mask valid fs) s (fun t =>
        t.axState a = axFollow ∧ t.rdN (Reg.PRFG_MBX_STAT g.val) = seq.toNat ∧ s.GroupFrame t g.val mask.toNat))

/-- A command that is refused (rule R110) changes nothing on any axis: RESULT and RES_MEMBER say why, and PRFG_REFUSE_CNT counts. -/
def Obligations.MotionRefusals : Prop :=
  ∀ (s : State) (g : Fin 16) (seq mask : BitVec 16) (valid : BitVec 6) (fs : List MemberFields) (code : Nat) (c : Instr),
    (code, c) ∈ [(1, Instr.moveAbs g seq mask valid fs), (2, .moveRel g seq mask valid fs), (3, .jog g seq mask valid fs),
      (4, .setLim g seq mask valid fs), (5, .stop g seq mask valid fs), (6, .resume g seq mask valid fs), (7, .abort g seq mask valid fs),
      (8, .gearIn g seq mask valid fs), (9, .camIn g seq mask valid fs), (10, .syncOut g seq mask valid fs), (11, .home g seq mask valid fs),
      (12, .setPos g seq mask valid fs), (13, .follow g seq mask valid fs)] →
    s.ticking = true → s.groupEn g.val = true → ∀ r m, s.cmdResult g.val code mask.toNat valid.toNat fs = (r, m) → r ≠ 0 →
      Completes c s (fun t =>
        t.rdN (Reg.PRFG_MBX_STAT g.val) = seq.toNat + 65536 * r + 1048576 * m ∧ t.bit (Reg.PRFG_STAT g.val) 3 = true ∧
        t.rdN (Reg.PRFG_REFUSE_CNT g.val) = min (s.rdN (Reg.PRFG_REFUSE_CNT g.val) + 1) 0xFFFFFFFF ∧
        s.Raises t [Reg.PRFG_REFUSE_CNT g.val, Reg.PRFG_STAT g.val, Reg.PG_IRQ_RAW (Page.PRFG g.val), Reg.PRFG_MBX_STAT g.val]
          [⟨Page.PRFG g.val, 0, false, w32 r, s.now⟩])

/-- Mailboxes, masters, homing inputs and compares (rules R16, R123, R131 and R134 to R136): a commit marks the mailbox for the next cut; a
master too old is lost, with its alarm; a debounce window ends with the level that its input then has; arm and disarm wait for the cut, and
until then what is armed, and CMP_CTRL.ARM, stay. -/
def Obligations.MotionInputs : Prop :=
  (∀ (s : State) (ag : Agent) (g : Fin 16) (seq : BitVec 16), s.clocked = true → bySoftware ag = true → s.groupEn g.val = true →
    s.shadow = false → s.integ.ue = [] → inCell (s.rdN (Reg.PRFG_MBX g.val)) 4 = true →
    Completes (.mailboxCommit ag g seq) s (fun t =>
      (t.groupRt g.val).committed = true ∧ t.cell = s.cell.setN (s.rdN (Reg.PRFG_MBX g.val)) 4 seq.toNat ∧
      t.rdN (Reg.PRFG_MBX_OVW_CNT g.val) = min (s.rdN (Reg.PRFG_MBX_OVW_CNT g.val) + b2n (s.groupRt g.val).committed) 0xFFFFFFFF ∧
      s.SameRegs t [Reg.PRFG_MBX_OVW_CNT g.val] ∧
      t = { s with regs := t.regs, cell := t.cell, prof := { s.prof with groups := t.prof.groups } })) ∧
  (∀ (s : State) (ag : Agent) (g : Fin 16) (seq : BitVec 16), s.clocked = true → bySoftware ag = true → s.groupEn g.val = true →
    s.shadow = true →
    Completes (.mailboxCommit ag g seq) s (fun t =>
      t.rdN Reg.TWN_CMD_IGN_CNT = min (s.rdN Reg.TWN_CMD_IGN_CNT + 1) 0xFFFFFFFF ∧ s.Writes t [Reg.TWN_CMD_IGN_CNT])) ∧
  (∀ (s : State) (g : Fin 16), s.ticking = true → s.groupEn g.val = true → s.bit (Reg.PRFG_CTRL g.val) 4 = true →
    s.bit (Reg.PRFG_STAT g.val) 0 = false →
    (s.groupRt g.val).lastTheta.isSome = true → s.masterOld g.val (s.rd64 Reg.QTZ_LAST_TICK) = true →
    Completes (.masterStale g) s (fun t =>
      t.bit (Reg.PRFG_STAT g.val) 0 = true ∧ t.bit (Reg.PRFG_STAT g.val) 1 = true ∧
      t.rdN (Reg.PRFG_MST_STALE_CNT g.val) = min (s.rdN (Reg.PRFG_MST_STALE_CNT g.val) + 1) 0xFFFFFFFF ∧
      (s.bit (Reg.PRFG_STAT g.val) 1 = false → (t.groupRt g.val).virtPos = s.rdI64 (Reg.PRFG_MST_POS g.val) ∧
        (t.groupRt g.val).virtVel = s.rdI64 (Reg.PRFG_MST_VEL g.val)) ∧
      t.evt.raisings = s.evt.raisings ++ [⟨Page.PRFG g.val, 1, true, 0, s.now⟩] ∧
      s.SameRegs t [Reg.PRFG_STAT g.val, Reg.PRFG_MST_STALE_CNT g.val, Reg.PG_IRQ_RAW (Page.PRFG g.val)] ∧ s.SameMemory t)) ∧
  (∀ (s : State) (a : Fin 144) (w : HomeWindow) (lvl : Bool), s.clocked = true → s.axState a.val = axHoming →
    w ∈ (s.axis a.val).homeWin → w.level = none → (s.axis a.val).homeSeen.testBit (homeNum w.inp) = lvl →
    Completes (.homeDebounceEnd a w.inp w.edges w.before lvl w.pos w.time) s (fun t =>
      t.now = (s.advance (w.time + 1000 * s.fld (Reg.PRF_HOME_CFG a.val) 31 16)).now ∧
      (t.axis a.val).homeWin = (s.axis a.val).homeWin.map (fun x =>
        if x.level.isNone && decide (s.homeEnd a.val x ≤ s.homeEnd a.val w) then
          { x with level := some ((s.axis a.val).homeSeen.testBit (homeNum x.inp)) } else x) ∧
      (∀ b, b ≠ a.val → t.axis b = s.axis b) ∧
      s.SameRegs t [Reg.QTZ_TIME_NS, Reg.QTZ_TIME_NS + 4, Reg.QTZ_TIME_FRAC] ∧ s.SameMemory t)) ∧
  (∀ (s : State) (ag : Agent) (a : Fin 144) (c : Fin 4) (v : Word), s.writable ag (Page.PRF a.val) = true →
    Completes (.cmpArm ag a c v) s (fun t =>
      t.rd (Reg.CMP_CTRL a.val c.val) = (v &&& 0x03FFFFFC) ||| (s.rd (Reg.CMP_CTRL a.val c.val) &&& 1) ∧ (t.axis a.val).rearm.testBit c.val = true ∧
      (t.axis a.val).cmp = (s.axis a.val).cmp ∧ s.SameRegs t [Reg.CMP_CTRL a.val c.val] ∧
      t = { s with regs := t.regs, prof := { s.prof with axes := t.prof.axes } })) ∧
  (∀ (s : State) (ag : Agent) (a : Fin 144) (c : Fin 4) (v : Word), s.writable ag (Page.PRF a.val) = true →
    Completes (.cmpDisarm ag a c v) s (fun t =>
      t.rd (Reg.CMP_CTRL a.val c.val) = (v &&& 0x03FFFFFC) ||| (s.rd (Reg.CMP_CTRL a.val c.val) &&& 1) ∧
      (t.axis a.val).unarm.testBit c.val = true ∧ (t.axis a.val).cmp = (s.axis a.val).cmp ∧ s.SameRegs t [Reg.CMP_CTRL a.val c.val] ∧
      t = { s with regs := t.regs, prof := { s.prof with axes := t.prof.axes } }))

/-- Opening and closing loops and writing their coefficients (rules R149, R150 and R152), and the following error (rule R147): a permitted
request is pending until the cut; a write of both for one loop is refused; a live set takes a write only while its loop is open with no
request pending. -/
def Obligations.LoopCommands : Prop :=
  (∀ (s : State) (ag : Agent) (a : Fin 144) (op : BitVec 4), s.writable ag (Page.LOOP a.val) = true →
    (∀ i, op.getLsbD i = true → s.loopOpen a.val i = false ∧ s.loopPend a.val i = false ∧ (i = 0 → s.axisSto a.val = true)) →
    Completes (.loopOpen ag a op 0) s (fun t =>
      (∀ i, i < 4 → t.loopPend a.val i = (s.loopPend a.val i || op.getLsbD i) ∧ t.loopOpen a.val i = s.loopOpen a.val i) ∧
      s.Writes t [Reg.LOOP_STAT a.val])) ∧
  (∀ (s : State) (ag : Agent) (a : Fin 144) (cl : BitVec 4), s.writable ag (Page.LOOP a.val) = true →
    (∀ i, cl.getLsbD i = true → s.loopOpen a.val i = true ∧ s.loopPend a.val i = false ∧ s.closeOk a.val i = true) →
    Completes (.loopClose ag a 0 cl) s (fun t =>
      (∀ i, i < 4 → t.loopPend a.val i = (s.loopPend a.val i || cl.getLsbD i) ∧ t.loopOpen a.val i = s.loopOpen a.val i) ∧
      s.Writes t [Reg.LOOP_STAT a.val])) ∧
  (∀ (s : State) (ag : Agent) (a : Fin 144) (i : Fin 4), s.writable ag (Page.LOOP a.val) = true → s.loopPend a.val i.val = false →
    Completes (.loopOpen ag a (1#4 <<< i.val) (1#4 <<< i.val)) s (fun t =>
      t.bit (Reg.LOOP_STAT a.val) 14 = true ∧ t.loopPend a.val i.val = false ∧
      t.rdN (Reg.LOOP_REQ_REF_CNT a.val) = min (s.rdN (Reg.LOOP_REQ_REF_CNT a.val) + 2) 0xFFFFFFFF ∧
      s.SameRegs t [Reg.LOOP_STAT a.val, Reg.LOOP_REQ_REF_CNT a.val, Reg.PG_IRQ_RAW (Page.LOOP a.val)] ∧ s.SameMemory t)) ∧
  (∀ (s : State) (ag : Agent) (a : Fin 144) (j : Fin 5) (w : Fin 10) (v : Word), s.writable ag (Page.LOOP a.val) = true →
    s.loopOpen a.val (setLoop j.val) = true → s.loopPend a.val (setLoop j.val) = false →
    (w.val < 4 ∨ w.val = 5 →
      Completes (.coefWrite ag a j w v) s (fun t =>
        t.rd (Reg.LOOP_LIVE_KP a.val j.val + 4 * w.val) = v ∧ s.Writes t [Reg.LOOP_LIVE_KP a.val j.val + 4 * w.val])) ∧
    (w.val = 4 →
      Completes (.coefWrite ag a j w v) s (fun t =>
        t.rd (Reg.LOOP_LIVE_SHIFTS a.val j.val) = v &&& 0x17F7F ∧ s.Writes t [Reg.LOOP_LIVE_SHIFTS a.val j.val])) ∧
    (w.val = 6 ∨ w.val = 8 →
      Completes (.coefWrite ag a j w v) s (fun t =>
        Tab.get (fun k => s.rd k) t.held64 (Reg.LOOP_LIVE_KP a.val j.val + 4 * w.val) = v ∧ t = { s with held64 := t.held64 })) ∧
    (w.val = 7 ∨ w.val = 9 →
      Completes (.coefWrite ag a j w v) s (fun t =>
        t.rd (Reg.LOOP_LIVE_KP a.val j.val + 4 * w.val) = v ∧
        t.rd (Reg.LOOP_LIVE_KP a.val j.val + 4 * w.val - 4) =
          Tab.get (fun k => s.rd k) s.held64 (Reg.LOOP_LIVE_KP a.val j.val + 4 * w.val - 4) ∧
        s.SameRegs t [Reg.LOOP_LIVE_KP a.val j.val + 4 * w.val, Reg.LOOP_LIVE_KP a.val j.val + 4 * w.val - 4] ∧ s.SameMemory t))) ∧
  (∀ (s : State) (ag : Agent) (a : Fin 144) (j : Fin 5) (w : Fin 10) (v : Word), s.writable ag (Page.LOOP a.val) = true →
    (s.loopOpen a.val (setLoop j.val) = false ∨ s.loopPend a.val (setLoop j.val) = true) →
    Completes (.coefWrite ag a j w v) s (fun t =>
      t.rd (Reg.LOOP_LIVE_KP a.val j.val + 4 * w.val) = s.rd (Reg.LOOP_LIVE_KP a.val j.val + 4 * w.val) ∧
      t.bit (Reg.LOOP_STAT a.val) 12 = true ∧ t.bit (Reg.PG_IRQ_RAW (Page.LOOP a.val)) 2 = true ∧
      t.rdN (Reg.LOOP_COEF_REF_CNT a.val) = min (s.rdN (Reg.LOOP_COEF_REF_CNT a.val) + 1) 0xFFFFFFFF ∧
      s.Raises t [Reg.LOOP_STAT a.val, Reg.LOOP_COEF_REF_CNT a.val, Reg.PG_IRQ_RAW (Page.LOOP a.val), Reg.PG_STAT (Page.LOOP a.val),
        Reg.PG_ERR_CNT (Page.LOOP a.val)] [⟨Page.LOOP a.val, 2, false, 0, s.now⟩])) ∧
  (∀ (s : State) (a : Fin 144), s.ticking = true → s.axisEn a.val = true → s.bit (Reg.LOOP_STAT a.val) 11 = false →
    s.axisSto a.val = false → s.hardStopHoming a.val = false → s.rdI64 (Reg.LOOP_FE_MAX a.val) < mag (s.rdI64 (Reg.LOOP_FERR a.val)) →
    s.fld (Reg.LOOP_FE_N a.val) 7 0 ≤ (s.loopCopy a.val s.parity).fe →
    Completes (.followingError a) s (fun t =>
      t.bit (Reg.LOOP_STAT a.val) 11 = true ∧ t.rdN (Reg.LOOP_FE_CNT a.val) = min (s.rdN (Reg.LOOP_FE_CNT a.val) + 1) 0xFFFFFFFF ∧
      s.Raises t [Reg.LOOP_STAT a.val, Reg.LOOP_FE_CNT a.val, Reg.PG_IRQ_RAW (Page.LOOP a.val)] [⟨Page.LOOP a.val, 0, false, 0, s.now⟩]))

/-- The solver's second failure and the stop demands of separation (rules R169, R178, R180 and R188): the failure is the device-level stop
cause, a trigger in RUN and DEGRADED alone; joint data or a source missing for MISS_N ticks set the demand, which clears when its last cause
is gone. -/
def Obligations.StopDemands : Prop :=
  (∀ s : State, s.ticking = true → 2 ≤ s.fld Reg.SOL_STAT 23 16 →
    Completes .solverSecondFailure s (fun t =>
      (s.running = true → t.bit Reg.SYS_STOP_CAUSE 16 = true ∧ t.bit Reg.SYS_STOP_CAUSE 0 = true ∧ DevState.safestop ∈ t.sys.triggers) ∧
      (s.running = false → t = s) ∧ s.SameRegs t [Reg.SYS_STOP_CAUSE] ∧ s.SameMemory t)) ∧
  (∀ (s : State) (g : Fin 16), s.ticking = true → s.jointDemand g.val = true → s.commission = false → s.integ.ue = [] →
    inCell (s.lim s.parity + 0x10 + 16 * g.val) 4 = true →
    Completes (.jointMissStop g) s (fun t =>
      t.ssm.dem.testBit g.val = true ∧ t.bit (Reg.SSM_GRP_STAT g.val) 16 = true ∧ t.fld (Reg.SSM_GRP_STAT g.val) 15 0 = 0 ∧
      t.bit Reg.SSM_STAT 3 = true ∧
      t.rdN Reg.SSM_STOP_CNT = min (s.rdN Reg.SSM_STOP_CNT + b2n (!s.ssm.dem.testBit g.val)) 0xFFFFFFFF ∧
      t.cell = s.cell.setN (s.lim s.parity + 0x10 + 16 * g.val) 4
        (withBits (withBits (s.cell32 (s.lim s.parity + 0x10 + 16 * g.val)) 15 0 0) 16 16 1) ∧
      s.SameRegs t [Reg.SSM_GRP_STAT g.val, Reg.SSM_STAT, Reg.SSM_STOP_CNT, Reg.PG_IRQ_RAW Page.SSM])) ∧
  (∀ (s : State) (h : Fin 8), s.ticking = true → s.headEn h.val = true → s.missN ≤ (s.ssmSrc h.val).miss →
    Completes (.sourceMissStop h) s (fun t =>
      (∀ g, g ∈ s.groups → s.watches g h.val = true → t.ssm.dem.testBit g = true) ∧
      (∀ g, g < 16 → (g ∉ s.groups ∨ s.watches g h.val = false) → t.ssm.dem.testBit g = s.ssm.dem.testBit g) ∧ t.ssm.src = s.ssm.src)) ∧
  (∀ (s : State) (g : Fin 16), s.ticking = true → (s.clearN ≤ s.clearRun g.val ∨ s.ssm.viol.testBit g.val = false) →
    s.jointDemand g.val = false → s.headDemand g.val = false → s.ssmEn = true →
    Completes (.stopDemandClear g) s (fun t =>
      t.ssm.dem.testBit g.val = false ∧ t.bit (Reg.SSM_GRP_STAT g.val) 16 = false ∧ t.bit Reg.SSM_STAT 3 = decide (t.ssm.dem ≠ 0) ∧
      s.SameRegs t [Reg.SSM_GRP_STAT g.val, Reg.SSM_STAT] ∧ s.SameMemory t))

/-- Safe inputs, requests and the passages of a group (rules R201 to R204 and R210 to R212): demand, its end and a discrepancy; SAF_ACK and
SAF_REL wait for the cut; a group at standstill, or out of time, passes on, and counts. -/
def Obligations.SafetyInputsAndGroups : Prop :=
  (∀ (s : State) (f : Fin 16), s.ticking = true → s.inKind f.val ≠ 0 → s.enterDue f.val = true →
    Completes (.inputDemandEnter f) s (fun t =>
      (t.safIn f.val).demand = true ∧ (t.safIn f.val).since = s.tickMono ∧ (∀ k, k ≠ f.val → t.safIn k = s.safIn k) ∧
      (s.inKind f.val = 1 → t.bit Reg.SAF_STAT 11 = false) ∧
      s.SameRegs t [Reg.SAF_STAT, Reg.PWR_DOM_STAT, Reg.CDC_STAT] ∧ s.SameMemory t)) ∧
  (∀ (s : State) (f : Fin 16), s.ticking = true → s.inKind f.val ≠ 0 → s.leaveDue f.val = true →
    Completes (.inputDemandLeave f) s (fun t =>
      (t.safIn f.val).demand = false ∧ (∀ k, k ≠ f.val → t.safIn k = s.safIn k) ∧
      s.SameRegs t [Reg.SAF_STAT, Reg.PWR_DOM_STAT, Reg.CDC_STAT] ∧ s.SameMemory t)) ∧
  (∀ (s : State) (f : Fin 16), s.ticking = true → s.inKind f.val ≠ 0 → s.discDue f.val = true →
    Completes (.discrepancy f) s (fun t =>
      (t.safIn f.val).disc = true ∧ (t.safIn f.val).demand = true ∧ t.bit Reg.SAF_STAT 2 = true ∧
      t.rdN Reg.SAF_DISC_CNT = min (s.rdN Reg.SAF_DISC_CNT + 1) 0xFFFFFFFF ∧
      t.evt.raisings = s.evt.raisings ++ [⟨Page.SAF, 3, false, 0, s.now⟩] ∧
      s.SameRegs t [Reg.SAF_STAT, Reg.SAF_DISC_CNT, Reg.PG_IRQ_RAW Page.SAF, Reg.PWR_DOM_STAT, Reg.CDC_STAT] ∧ s.SameMemory t)) ∧
  (∀ (s : State) (ag : Agent) (m : BitVec 16), s.writable ag Page.SAF = true → (s.eff Reg.SAF_CTRL).getLsbD 2 = true →
    Completes (.safAck ag m) s (fun t => t = { s with saf := { s.saf with ackPend := s.saf.ackPend ||| m.toNat } })) ∧
  (∀ (s : State) (ag : Agent), s.writable ag Page.SAF = true → Completes (.safAck ag 0) s (fun t => t = s)) ∧
  (∀ (s : State) (ag : Agent) (m : BitVec 16), s.writable ag Page.SAF = true → m ≠ 0 → (s.eff Reg.SAF_CTRL).getLsbD 2 = false →
    Completes (.safAck ag m) s (fun t =>
      t.bit Reg.SAF_STAT 4 = true ∧ t.rdN Reg.SAF_ACK_REF_CNT = min (s.rdN Reg.SAF_ACK_REF_CNT + 1) 0xFFFFFFFF ∧
      s.Raises t [Reg.SAF_STAT, Reg.SAF_ACK_REF_CNT, Reg.PG_IRQ_RAW Page.SAF] [⟨Page.SAF, 4, false, 0, s.now⟩])) ∧
  (∀ (s : State) (ag : Agent) (m : BitVec 16), s.writable ag Page.SAF = true →
    Completes (.safRel ag m) s (fun t => t = { s with saf := { s.saf with relPend := s.saf.relPend ||| m.toNat } })) ∧
  (∀ (s : State) (g : Fin 16), s.ticking = true → s.grpState g.val = stSs1 →
    s.effFld (Reg.SAF_GRP g.val) 15 8 ≤ (s.safGroup g.val).still →
    Completes (.standstillReached g) s (fun t =>
      t.grpState g.val = stSto ∧ t.rdN Reg.SAF_STOP_CNT = min (s.rdN Reg.SAF_STOP_CNT + 1) 0xFFFFFFFF ∧
      (t.safGroup g.val).start = ((s.safGroup g.val).start || !(s.safGroup g.val).auto) ∧
      s.SameRegs t [Reg.SAF_GRP_STAT g.val, Reg.SAF_STOP_CNT, Reg.PG_IRQ_RAW Page.SAF] ∧ s.SameMemory t)) ∧
  (∀ (s : State) (g : Fin 16), s.ticking = true → s.grpState g.val = stSs2 →
    s.effFld (Reg.SAF_GRP g.val) 15 8 ≤ (s.safGroup g.val).still →
    Completes (.standstillReached g) s (fun t =>
      t.grpState g.val = stSos ∧ (t.safGroup g.val).hold = (s.memberAxes g.val).map (fun a => (a, (s.safeMeasured a).1)) ∧
      s.SameRegs t [Reg.SAF_GRP_STAT g.val] ∧ s.SameMemory t)) ∧
  (∀ (s : State) (g : Fin 16), s.ticking = true → s.tMaxDue g.val = true → s.grpState g.val = stSs1 →
    Completes (.ss1TmaxExpiry g) s (fun t =>
      t.grpState g.val = stSto ∧ s.SameRegs t [Reg.SAF_GRP_STAT g.val, Reg.SAF_STOP_CNT, Reg.PG_IRQ_RAW Page.SAF] ∧ s.SameMemory t)) ∧
  (∀ (s : State) (g : Fin 16), s.ticking = true → s.tMaxDue g.val = true → s.grpState g.val = stSs2 →
    Completes (.ss1TmaxExpiry g) s (fun t =>
      t.grpState g.val = stSto ∧ t.bit (Reg.SAF_GRP_STAT g.val) 16 = true ∧ t.bit (Reg.SAF_GRP_STAT g.val + 4) 8 = true ∧ (t.safGroup g.val).start = true ∧
      s.SameRegs t [Reg.SAF_GRP_STAT g.val, Reg.SAF_GRP_STAT g.val + 4, Reg.SAF_STOP_CNT, Reg.PG_IRQ_RAW Page.SAF] ∧ s.SameMemory t))

/-- Degraded mode and Slate (rules R218 to R222): a fault class is set and leads to DEGRADED from RUN, clears under its condition and lets RUN
follow once Slate is clean; the expiry of DEGRADE_MAX and a disagreement in RUN or DEGRADED are device-level stop causes. -/
def Obligations.DegradedAndSlate : Prop :=
  (∀ s : State, s.sys.dev = .degraded →
    Completes .degradeMaxExpiry s (fun t =>
      t.fld Reg.SAF_DEG 15 0 = 0 ∧ t.bit Reg.SYS_STOP_CAUSE 7 = true ∧ t.bit Reg.SYS_STOP_CAUSE 23 = true ∧ .safestop ∈ t.sys.triggers ∧
      s.SameRegs t [Reg.SAF_DEG, Reg.SYS_STOP_CAUSE] ∧ s.SameMemory t)) ∧
  (∀ (s : State) (c : Fin 5), s.ticking = true → s.classOn (c.val + 1) = true → s.classClears (c.val + 1) = true →
    Completes (.degradeFaultClear c) s (fun t =>
      t.classOn (c.val + 1) = false ∧ (∀ k : Fin 5, k ≠ c → t.classOn (k.val + 1) = s.classOn (k.val + 1)) ∧
      (s.sys.dev = .degraded → s.classes = 2 ^ c.val → s.saf.slate.clean = true → .run ∈ t.sys.triggers) ∧
      s.SameRegs t [Reg.SAF_DEG, Reg.SAF_STAT, Reg.PWR_DOM_STAT, Reg.CDC_STAT] ∧ s.SameMemory t)) ∧
  (∀ (s : State) (n : Fin 2), s.ticking = true → s.sys.dev ≠ .selftest →
    Completes (.periodicSelftest n false) s (fun t =>
      t.classOn 2 = true ∧ t.saf.stFail.testBit n.val = true ∧ (s.sys.dev = .run → .degraded ∈ t.sys.triggers) ∧
      s.SameRegs t [Reg.SAF_DEG, Reg.SAF_STAT, Reg.PWR_DOM_STAT, Reg.CDC_STAT] ∧ s.SameMemory t)) ∧
  (∀ (s : State) (n : Fin 2), s.ticking = true → s.saf.stFail = 2 ^ n.val → s.classOn 2 = true →
    Completes (.periodicSelftest n true) s (fun t =>
      t.classOn 2 = false ∧ t.saf.stFail = 0 ∧ s.SameRegs t [Reg.SAF_DEG, Reg.SAF_STAT, Reg.PWR_DOM_STAT, Reg.CDC_STAT] ∧ s.SameMemory t)) ∧
  (∀ s : State, s.bit Reg.SAF_STAT 12 = true → s.saf.slate.comparing = false → s.saf.slate.since + 20000000 ≤ s.tickMono →
    Completes .slateCompareStart s (fun t =>
      t.saf.slate.comparing = true ∧ t.saf.slate.clean = false ∧ t.saf.slate.first = s.mono ∧ t.saf.slate.count = 0 ∧
      t = { s with saf := { s.saf with slate := t.saf.slate } })) ∧
  (∀ (s : State) (k : Nat), s.saf.slate.comparing = true → s.saf.slate.waiting.any (fun r => r.tick == k) = true →
    s.safetyBad 0xA1 = [] →
    Completes (.slateCompareResult k true) s (fun t =>
      t = { s with saf := { s.saf with slate := { s.saf.slate with
        waiting := s.saf.slate.waiting.filter (fun r => r.tick != k), count := s.saf.slate.count + 1 } } })) ∧
  (∀ (s : State) (k : Nat) (agree : Bool), s.saf.slate.comparing = true → s.saf.slate.waiting.any (fun r => r.tick == k) = true →
    (agree = false ∨ s.safetyBad 0xA1 ≠ []) →
    Completes (.slateCompareResult k agree) s (fun t =>
      t.bit Reg.SAF_STAT 1 = true ∧ t.rdN Reg.SAF_XCMP_CNT = min (s.rdN Reg.SAF_XCMP_CNT + 1) 0xFFFFFFFF ∧
      (s.running = true → t.bit Reg.SYS_STOP_CAUSE 4 = true ∧ .safestop ∈ t.sys.triggers) ∧
      (s.sys.dev = .selftest → t.saf.slate.failed = true) ∧ s.SameMemory t)) ∧
  (∀ s : State, s.sys.dev = .degraded → s.saf.slate.comparing = true → s.bit Reg.SAF_STAT 12 = true →
    Completes .slateClean s (fun t =>
      t.saf.slate.clean = true ∧ (s.classes = 0 → .run ∈ t.sys.triggers) ∧ s.SameRegs t [Reg.SAF_STAT] ∧ s.SameMemory t))

/-- The proof test (rules R224 and R225): it starts in READY, with Slate powered; once every step is done it passes, which counts and starts
the hours anew; a failure names the step that runs and withholds the start permission, as an overdue test does. -/
def Obligations.ProofTest : Prop :=
  (∀ (s : State) (ag : Agent), s.writable ag Page.SAF = true → s.sys.dev = .ready → s.bit Reg.SAF_PT_CMD 0 = false →
    Completes (.safPtStart ag) s (fun t =>
      t.bit Reg.SAF_PT_CMD 0 = true ∧ t.fld Reg.SAF_PT_STAT 5 0 = 1 ∧ t.bit Reg.SAF_STAT 12 = true ∧
      s.SameRegs t [Reg.SAF_PT_CMD, Reg.SAF_PT_STAT, Reg.SAF_STAT, Reg.PWR_DOM_STAT, Reg.CDC_STAT] ∧ s.SameMemory t)) ∧
  (∀ s : State, s.bit Reg.SAF_PT_CMD 0 = true → s.saf.pt.done = true →
    Completes (.proofTestEnd none) s (fun t =>
      t.bit Reg.SAF_PT_CMD 0 = false ∧ t.bit Reg.SAF_STAT 10 = false ∧ t.bit Reg.SAF_STAT 9 = false ∧ t.rdN Reg.SAF_PT_HOURS = 0 ∧
      t.rdN Reg.SAF_PT_CNT = min (s.rdN Reg.SAF_PT_CNT + 1) 0xFFFFFFFF ∧ t.fld Reg.SAF_PT_STAT 5 0 = 22 ∧ s.SameMemory t)) ∧
  (∀ (s : State) (k : Fin 6), s.bit Reg.SAF_PT_CMD 0 = true → s.saf.pt.done = false → s.fld Reg.SAF_PT_STAT 3 0 = k.val + 1 →
    Completes (.proofTestEnd (some k)) s (fun t =>
      t.bit Reg.SAF_PT_CMD 0 = false ∧ t.bit Reg.SAF_STAT 10 = true ∧ t.bit Reg.SAF_STAT 11 = false ∧
      t.fld Reg.SAF_PT_STAT 5 0 = 33 + k.val ∧ t.field.pulse = 0 ∧ t.rdN Reg.SAF_PT_CNT = s.rdN Reg.SAF_PT_CNT ∧ s.SameMemory t)) ∧
  (∀ s : State, s.clocked = true →
    Completes .proofTestDue s (fun t =>
      t.rdN Reg.SAF_PT_HOURS = max (s.rdN Reg.SAF_PT_HOURS) (s.effFld Reg.SAF_CTRL 31 16) ∧ t.bit Reg.SAF_STAT 9 = true ∧
      t.evt.raisings = s.evt.raisings ++ [⟨Page.SAF, 5, true, 0, s.now⟩] ∧ s.SameMemory t)) ∧
  (∀ s : State, s.clocked = true →
    Completes .proofTestGraceExpiry s (fun t =>
      t.rdN Reg.SAF_PT_HOURS = max (s.rdN Reg.SAF_PT_HOURS) (s.effFld Reg.SAF_CTRL 31 16 + s.effFld Reg.SAF_PT_GRACE 15 0 + 1) ∧
      t.bit Reg.SAF_STAT 11 = false ∧ s.SameMemory t))

/-- The seal and the Trauc T40 method (rules R228 and R231 to R234): the password opens the seal and five failures lock it; CLOSE, or 600 s
without a write, closes it; a password or a method change is logged; exported entries are freed. -/
def Obligations.SafetySeal : Prop :=
  (∀ (s : State) (ag : Agent), s.writable ag Page.SAF = true → s.t40 = true → s.saf.lockout = false →
    (s.sys.dev = .boot ∨ s.sys.dev = .ready) → s.saf.pwd = some s.pwdWords →
    Completes (.sealOpen ag) s (fun t =>
      t.bit Reg.SAF_STAT 7 = true ∧ t.saf.t40Open = true ∧ t.saf.pwdFails = 0 ∧
      s.SameRegs t [Reg.SAF_STAT, Reg.PG_IRQ_RAW Page.SAF, Reg.PWR_DOM_STAT, Reg.CDC_STAT] ∧ s.SameMemory t)) ∧
  (∀ (s : State) (ag : Agent), s.writable ag Page.SAF = true → s.t40 = true → s.saf.lockout = false →
    (s.sys.dev = .boot ∨ s.sys.dev = .ready) → s.saf.pwd ≠ some s.pwdWords →
    Completes (.sealOpen ag) s (fun t =>
      t.rdN Reg.SAF_PWD_FAIL_CNT = min (s.rdN Reg.SAF_PWD_FAIL_CNT + 1) 0xFFFFFFFF ∧ t.saf.lockout = decide (5 ≤ s.saf.pwdFails + 1) ∧
      t.bit Reg.SAF_STAT 7 = s.bit Reg.SAF_STAT 7 ∧ s.SameRegs t [Reg.SAF_PWD_FAIL_CNT] ∧ s.SameMemory t)) ∧
  (∀ (s : State) (ag : Agent), s.writable ag Page.SAF = true → s.saf.t40Open = true →
    Completes (.sealClose ag) s (fun t =>
      t.bit Reg.SAF_STAT 7 = false ∧ t.saf.t40Open = false ∧ s.SameRegs t [Reg.SAF_STAT, Reg.PWR_DOM_STAT, Reg.CDC_STAT] ∧ s.SameMemory t)) ∧
  (∀ s : State, s.clocked = true → s.saf.t40Open = true →
    Completes .sealTimeout s (fun t =>
      t.bit Reg.SAF_STAT 7 = false ∧ t.saf.t40Open = false ∧ s.SameRegs t [Reg.SAF_STAT, Reg.PWR_DOM_STAT, Reg.CDC_STAT] ∧ s.SameMemory t)) ∧
  (∀ s : State, s.clocked = true →
    Completes .passwordLockoutEnd s (fun t => t = { s with saf := { s.saf with lockout := false, pwdFails := 0 } })) ∧
  (∀ (s : State) (ag : Agent), s.writable ag Page.SAF = true → s.bit Reg.SAF_STAT 7 = true → pwdOk s.pwdWords = true → s.logFull = false →
    Completes (.passwordSet ag) s (fun t =>
      t.saf.pwd = some s.pwdWords ∧ t.saf.log.length = s.saf.log.length + b2n s.t40 ∧
      s.LogMemory t ∧ t = { s with flash := t.flash, saf := { s.saf with pwd := t.saf.pwd, log := t.saf.log, logSeq := t.saf.logSeq } })) ∧
  (∀ (s : State) (ag : Agent) (v : Word), s.writable ag Page.SAF = true → s.sys.dev = .ready → s.bit Reg.SAF_STAT 7 = true →
    (v.getLsbD 1 = true → s.saf.pwd ≠ none) → s.logFull = false →
    Completes (.methodChangeReq ag v) s (fun t =>
      t.saf.methodNext = (if v.getLsbD 1 = s.t40 then none else some (b2n (v.getLsbD 1))) ∧ t.t40 = s.t40 ∧
      t.bit Reg.SAF_SEAL_CFG 1 = v.getLsbD 1 ∧ s.SameRegs t [Reg.SAF_SEAL_CFG] ∧ s.LogMemory t)) ∧
  (∀ (s : State) (ag : Agent) (v : Word), s.writable ag Page.SAF = true → s.saf.log.any (fun e => e.head? == some v) = true →
    Completes (.safLogClr ag v) s (fun t =>
      t.saf.log.length < s.saf.log.length ∧ t.saf.log <:+ s.saf.log ∧ t = { s with saf := { s.saf with log := t.saf.log } })) ∧
  (∀ (s : State) (line : Fin 8) (level : Bool), s.field.vcc = true →
    Completes (.sealSwAccept line level) s (fun t =>
      t.bit Reg.FIO_SEAL line.val = level ∧ s.Writes t [Reg.FIO_SEAL]))

/-- Storing and loading a safety parameter set (rules R229 and R230): in READY with the seal open a store begins; one whose checks pass commits
the older slot with a version one higher; a load of the selected set waits for the boundary; outside READY both are refused with 0x6. -/
def Obligations.SafetySets : Prop :=
  (∀ (s : State) (ag : Agent) (v : Word), s.writable ag Page.SAF = true → v.getLsbD 31 = true → s.bit Reg.SAF_STORE_STAT 8 = false →
    s.sys.dev = .ready → s.bit Reg.SAF_STAT 7 = true → (s.t40 = true ∨ bitsOf v.toNat 3 0 = s.fld Reg.FIO_SEAL 3 0) → s.logFull = false →
    Completes (.safStore ag v) s (fun t =>
      t.saf.storing = some ⟨bitsOf v.toNat 3 0, if s.t40 then s.setCode (bitsOf v.toNat 3 0) else bitsOf v.toNat 6 4, s.fld Reg.FIO_SEAL 7 0⟩ ∧
      t.rdN Reg.SAF_STORE_STAT = 256 ∧ t.bit Reg.SAF_STAT 12 = true ∧
      s.SameRegs t [Reg.SAF_STORE_STAT, Reg.SAF_STAT, Reg.PWR_DOM_STAT, Reg.CDC_STAT] ∧ s.SameMemory t)) ∧
  (∀ (s : State) (ag : Agent) (v : Word), s.writable ag Page.SAF = true → v.getLsbD 31 = true → s.bit Reg.SAF_STORE_STAT 8 = false →
    s.sys.dev ≠ .ready →
    Completes (.safStore ag v) s (fun t => t.rdN Reg.SAF_STORE_STAT = 6 ∧ t.saf.slots = s.saf.slots ∧ s.SameMemory t)) ∧
  (∀ (s : State) (ag : Agent) (v : Word), s.writable ag Page.SAF = true → v.getLsbD 31 = false ∨ s.bit Reg.SAF_STORE_STAT 8 = true →
    Completes (.safStore ag v) s (fun t => t = s)) ∧
  (∀ (s : State) (img : SafetyImage) (a b f : Bool) (x : SafStoring), s.clocked = true → s.saf.storing = some x →
    s.storeResult x img a b f = 0 →
    Completes (.safStoreDone img a b f) s (fun t =>
      t.safSlot x.num (s.olderSlot x.num) = some ⟨img, x.code, (s.setStamp x.num).1.toNat + 1, s.now, true⟩ ∧
      t.safSlot x.num (1 - s.olderSlot x.num) = s.safSlot x.num (1 - s.olderSlot x.num) ∧
      t.rdN Reg.SAF_STORE_STAT = 0 ∧ t.rdN Reg.SAF_STORE_CNT = min (s.rdN Reg.SAF_STORE_CNT + 1) 0xFFFFFFFF ∧ t.saf.storing = none ∧
      s.LogMemory t)) ∧
  (∀ (s : State) (ag : Agent) (v : Word) (m : Nat) (x : SafSlot), s.writable ag Page.SAF = true → v.getLsbD 0 = true →
    s.bit Reg.SAF_STORE_STAT 8 = false → s.sys.dev = .ready → s.logFull = false → s.validSet = some (m, x) →
    Completes (.safLoad ag v) s (fun t =>
      t.saf.loading = some (m, x.img) ∧ t.rdN Reg.SAF_STORE_STAT = 768 ∧
      s.SameRegs t [Reg.SAF_STORE_STAT, Reg.SAF_STAT, Reg.PWR_DOM_STAT, Reg.CDC_STAT] ∧ s.SameMemory t)) ∧
  (∀ (s : State) (ag : Agent) (v : Word), s.writable ag Page.SAF = true → v.getLsbD 0 = true →
    s.bit Reg.SAF_STORE_STAT 8 = false → s.sys.dev ≠ .ready →
    Completes (.safLoad ag v) s (fun t => t.rdN Reg.SAF_STORE_STAT = 0x206 ∧ t.saf.loading = s.saf.loading ∧ s.SameMemory t))

/-- Flint (rules R214, R216, R217 and R236): only channel A commands it; ARM takes a fresh seed, the first heartbeat with its SIG arms, a valid
one counts, a wrong one and a late one trip with their cause and open every gate; a test trip is counted nowhere. What ARM leaves of a tripped Flint is the model's choice
(notes/assumptions/18.md). -/
def Obligations.Flint : Prop :=
  (∀ (s : State) (ag : Agent), s.writable ag Page.FLT = true → ag ≠ .channelA →
    Completes (.flintTripCmd ag) s (fun t =>
      t.rdN Reg.FLT_CMD_REF_CNT = min (s.rdN Reg.FLT_CMD_REF_CNT + 1) 0xFFFFFFFF ∧ t.bit (Reg.PG_STAT Page.FLT) 4 = true ∧
      t.fld Reg.FLT_STAT 1 0 = s.fld Reg.FLT_STAT 1 0 ∧
      s.Raises t [Reg.FLT_CMD_REF_CNT, Reg.PG_STAT Page.FLT, Reg.PG_ERR_CNT Page.FLT, Reg.PG_IRQ_RAW Page.FLT]
        [⟨Page.FLT, 2, false, 0, s.now⟩])) ∧
  (∀ (s : State) (opened : Bool), s.writable .channelA Page.FLT = true → s.field.vcc = true →
    Completes (.testTrip .channelA opened) s (fun t =>
      t.fld Reg.FLT_STAT 1 0 = 2 ∧ t.fld Reg.FLT_STAT 7 4 = 8 ∧ t.bit Reg.FLT_STAT 3 = opened ∧ t.saf.flint.tested = some opened ∧
      t.rdN Reg.FLT_GATE = 0 ∧
      t.rdN Reg.FLT_TRIP_CNT = s.rdN Reg.FLT_TRIP_CNT ∧ s.SameMemory t)) ∧
  (∀ (s : State) (seed : BitVec 16), s.writable .channelA Page.FLT = true → s.field.vcc = true →
    (s.fld Reg.FLT_STAT 1 0 ≠ 2 ∨ s.bit Reg.FLT_STAT 2 = false ∨ s.sys.dev = .selftest ∨ s.fld Reg.FLT_STAT 7 4 = 8) →
    Completes (.flintArm .channelA seed) s (fun t =>
      t.saf.flint.seed = seed.toNat ∧ t.saf.flint.armPend = true ∧ t.bit Reg.FLT_STAT 2 = !s.commission ∧
      t.fld Reg.FLT_STAT 1 0 = s.fld Reg.FLT_STAT 1 0 ∧ s.SameRegs t [Reg.FLT_STAT] ∧ s.SameMemory t)) ∧
  (∀ (s : State), s.writable .channelA Page.FLT = true → s.field.vcc = true → s.fld Reg.FLT_STAT 1 0 ≠ 2 →
    Completes (.flintTripCmd .channelA) s (fun t =>
      t.fld Reg.FLT_STAT 1 0 = 2 ∧ t.fld Reg.FLT_STAT 7 4 = 5 ∧ t.rdN Reg.FLT_GATE = 0 ∧
      t.rdN Reg.FLT_TRIP_CNT = min (s.rdN Reg.FLT_TRIP_CNT + 1) 0xFFFFFFFF ∧ s.SameMemory t)) ∧
  (∀ (s : State) (w : Word) (n : Nat), s.field.vcc = true → s.saf.flint.armPend = true → s.sigOk w = true →
    Completes (.flintHeartbeat w n) s (fun t =>
      t.fld Reg.FLT_STAT 1 0 = 1 ∧ t.rdN Reg.FLT_GATE = s.effFld Reg.FLT_MASK 15 0 ∧ t.fld Reg.FLT_STAT 23 8 = w.toNat % 65536 ∧
      t.rdN Reg.FLT_HB_CNT = min (s.rdN Reg.FLT_HB_CNT + 1) 0xFFFFFFFF ∧ t.saf.flint.armPend = false ∧ s.SameMemory t)) ∧
  (∀ (s : State) (w : Word) (n : Nat), s.field.vcc = true → s.saf.flint.armPend = false → s.fld Reg.FLT_STAT 1 0 = 1 → s.hbFault w n = 0 →
    Completes (.flintHeartbeat w n) s (fun t =>
      t.fld Reg.FLT_STAT 1 0 = 1 ∧ t.fld Reg.FLT_STAT 23 8 = w.toNat % 65536 ∧ t.rd Reg.FLT_OSC = BitVec.ofNat 32 n ∧
      t.rdN Reg.FLT_HB_CNT = min (s.rdN Reg.FLT_HB_CNT + 1) 0xFFFFFFFF ∧
      s.SameRegs t [Reg.FLT_STAT, Reg.FLT_OSC, Reg.FLT_HB_CNT] ∧ s.SameMemory t)) ∧
  (∀ (s : State) (w : Word) (n : Nat), s.field.vcc = true → s.saf.flint.armPend = false → s.fld Reg.FLT_STAT 1 0 = 1 → s.hbFault w n ≠ 0 →
    Completes (.flintHeartbeat w n) s (fun t =>
      t.fld Reg.FLT_STAT 1 0 = 2 ∧ t.fld Reg.FLT_STAT 7 4 = s.hbFault w n ∧ t.rdN Reg.FLT_GATE = 0 ∧
      t.rdN Reg.FLT_BAD_CNT = min (s.rdN Reg.FLT_BAD_CNT + 1) 0xFFFFFFFF ∧
      t.rdN Reg.FLT_TRIP_CNT = min (s.rdN Reg.FLT_TRIP_CNT + 1) 0xFFFFFFFF ∧ s.SameMemory t)) ∧
  (∀ s : State, s.fld Reg.FLT_STAT 1 0 = 1 →
    Completes .flintTimeout s (fun t =>
      t.fld Reg.FLT_STAT 1 0 = 2 ∧ t.fld Reg.FLT_STAT 7 4 = 1 ∧ t.rdN Reg.FLT_GATE = 0 ∧ s.SameMemory t)) ∧
  (∀ s : State, s.field.vcc = true → s.fld Reg.FLT_STAT 1 0 ≠ 2 →
    Completes .flintOscFault s (fun t =>
      t.fld Reg.FLT_STAT 1 0 = 2 ∧ t.fld Reg.FLT_STAT 7 4 = 7 ∧ t.rdN Reg.FLT_GATE = 0 ∧ s.SameMemory t)) ∧
  (∀ s : State, s.fld Reg.FLT_STAT 1 0 = 2 → s.bit Reg.FLT_STAT 2 = false → 8 ≤ s.saf.flint.run →
    Completes .flintRearm s (fun t =>
      t.fld Reg.FLT_STAT 1 0 = 1 ∧ t.rdN Reg.FLT_GATE = s.effFld Reg.FLT_MASK 15 0 ∧ s.SameMemory t))

/-- The roles of a ring port (rules R237, R245 to R248, R254 and R276): a write of EN takes the port down or starts its lanes; LISTEN_N silent
cycles lead to CLAIM; the better claim decides, and three unbeaten rounds make the time master, which enters INIT; a REF brings a listening
node into service, and a time master of no lower priority makes a port FOREIGN; a backup takes over, a node that loses 4 cycles is silent; at a
cycle boundary a time master counts its cycle. -/
def Obligations.RingRoles : Prop :=
  (∀ (s : State) (ag : Agent) (p : Fin 4) (v x : Word), s.cfgWritable ag (Page.RNG p.val) = true → s.configurable = true →
    s.merged (Reg.RNG_CTRL p.val) v = some x → keeps s (s.wr (Reg.RNG_CTRL p.val) x) (Page.RNG p.val) = true →
    Completes (.portEnable ag p v) s (fun t =>
      t.rd (Reg.RNG_CTRL p.val) = x &&& 0x3FFF3F ∧
      (s.portEn p.val = true → x.getLsbD 0 = false →
        t.pstate p.val = psDown ∧ t.lstate p.val .a = lsOff ∧ t.lstate p.val .b = lsOff ∧
          t.rp p.val = { RingPort.reset with
            offered := (s.rp p.val).offered
            soft := (s.rp p.val).soft
            softNext := (s.rp p.val).softNext }) ∧
      (s.portEn p.val = false → x.getLsbD 0 = true → s.lstate p.val .a = lsOff → t.lstate p.val .a = lsTrain))) ∧
  (∀ (s : State) (p : Fin 4), s.ringOn = true → s.pstate p.val = psListen → s.masterRole p.val = true → s.ringFree = true →
    s.rcFld p.val (Reg.RNG_CTRL p.val) 4 4 = 1 → s.rcFld p.val (Reg.RNG_MISS p.val) 23 16 ≤ (s.rp p.val).listen →
    Completes (.listenEnd p) s (fun t =>
      t.pstate p.val = psClaim ∧ (t.rp p.val).claiming = true ∧ (t.rp p.val).rounds = 0 ∧
      t.rdN (Reg.RNG_CLAIM_CNT p.val) = min (s.rdN (Reg.RNG_CLAIM_CNT p.val) + 1) 0xFFFFFFFF ∧
      s.SameRegs t [Reg.RNG_STAT p.val, Reg.RNG_CLAIM_CNT p.val, Reg.PG_IRQ_RAW (Page.RNG p.val)] ∧ s.SameMemory t)) ∧
  (∀ (s : State) (p : Fin 4) (l : Lane) (src prio : BitVec 8) (dev : BitVec 48) (h : RxHead), s.ringOn = true → s.laneUp p.val l = true →
    h.ok.getLsbD 0 = true → s.pstate p.val = psClaim → (s.rp p.val).claiming = true →
    (betterClaim prio.toNat dev.toNat (s.rcFld p.val (Reg.RNG_CTRL p.val) 15 8) s.deviceId = true →
      Completes (.claimFrame p l src prio dev h) s (fun t =>
        t.pstate p.val = psNode ∧ t.bit (Reg.RNG_STAT p.val) 11 = true ∧ (t.rp p.val).claiming = false)) ∧
    (prio.toNat = s.rcFld p.val (Reg.RNG_CTRL p.val) 15 8 → dev.toNat = s.deviceId → src = 0xFE →
      Completes (.claimFrame p l src prio dev h) s (fun t =>
        t.pstate p.val = psClaim ∧ (t.rp p.val).claimBack = true ∧
        (t.rp p.val).rounds = (s.rp p.val).rounds + (if (s.rp p.val).claimBack = true then 0 else 1))) ∧
    (prio.toNat = s.rcFld p.val (Reg.RNG_CTRL p.val) 15 8 → dev.toNat = s.deviceId → src ≠ 0xFE →
      Completes (.claimFrame p l src prio dev h) s (fun t =>
        t.pstate p.val = psClaim ∧ t.bit (Reg.RNG_STAT p.val) 9 = true ∧ (t.rp p.val).claiming = false))) ∧
  (∀ (s : State) (p : Fin 4), s.ringOn = true → s.pstate p.val = psClaim → (s.rp p.val).claiming = true → s.ringFree = true →
    3 ≤ (s.rp p.val).rounds →
    Completes (.claimWon p) s (fun t =>
      t.pstate p.val = psInit ∧ t.bit (Reg.RNG_STAT p.val) 6 = true ∧ t.fld (Reg.RNG_STAT p.val) 17 16 = 0 ∧
      t.rd64 (Reg.RNG_TM_ID p.val) = s.deviceId + 281474976710656 * s.rcFld p.val (Reg.RNG_CTRL p.val) 15 8 ∧
      (∀ n, n < 64 → t.dstate p.val n = 0) ∧ (t.rp p.val).desc = [] ∧ s.SameMemory t)) ∧
  (∀ (s : State) (p : Fin 4) (l : Lane) (f : RefMsg) (egress stamp : Nat), s.ringOn = true → s.laneUp p.val l = true →
    (s.pstate p.val = psListen → s.masterRole p.val = false → s.bit (Reg.RNG_STAT p.val) 7 = false → (s.rp p.val).refSeen = none →
      (s.rp p.val).predict = none →
      Completes (.refFrame p l f true egress stamp) s (fun t =>
        t.pstate p.val = psNode ∧ t.fld (Reg.RNG_STAT p.val) 17 16 = f.rank.val ∧ t.rd64 (Reg.RNG_CYCLE p.val) = f.cycle.toNat ∧
        (t.rp p.val).refSeen = some f.rank.val)) ∧
    (s.pstate p.val = psListen → s.masterRole p.val = true → s.bit (Reg.RNG_STAT p.val) 9 = false →
      s.rcFld p.val (Reg.RNG_CTRL p.val) 15 8 ≤ f.prio.toNat →
      Completes (.refFrame p l f true egress stamp) s (fun t =>
        t.pstate p.val = psForeign ∧ t.bit (Reg.RNG_STAT p.val) 8 = true)) ∧
    (s.pstate p.val = psNode → s.bit (Reg.RNG_STAT p.val) 7 = false → (s.rp p.val).refSeen = none →
      Completes (.refFrame p l f true egress stamp) s (fun t =>
        t.pstate p.val = psNode ∧ (t.rp p.val).noRef = 0 ∧ (t.rp p.val).valid = (s.rp p.val).valid + 1 ∧
        (t.rp p.val).refAt = some (s.refInstant p.val l f stamp) ∧
        (t.rp p.val).refOff = !s.refGood p.val l f stamp ∧
        t.rd64 (Reg.RNG_CYCLE p.val) = (if s.refGood p.val l f stamp then f.cycle.toNat else s.rd64 (Reg.RNG_CYCLE p.val))))) ∧
  (∀ (s : State) (p : Fin 4), s.ringOn = true → s.pstate p.val = psNode → s.rcFld p.val (Reg.RNG_BKUP p.val) 31 24 ≠ 0 →
    2 ≤ (s.rp p.val).noRef → s.bit (Reg.RNG_STAT p.val) 7 = false → s.ringFree = true →
    Completes (.backupTakeover p) s (fun t =>
      t.bit (Reg.RNG_STAT p.val) 7 = true ∧
      t.fld (Reg.RNG_STAT p.val) 17 16 = s.rcFld p.val (Reg.RNG_BKUP p.val) 31 24 % 4 ∧
      t.rd64 (Reg.RNG_TM_ID p.val) = s.deviceId + 281474976710656 * s.rcFld p.val (Reg.RNG_CTRL p.val) 15 8 ∧
      t.rdN (Reg.RNG_BACKUP_CNT p.val) = min (s.rdN (Reg.RNG_BACKUP_CNT p.val) + 1) 0xFFFFFFFF ∧
      s.Raises t [Reg.RNG_STAT p.val, Reg.RNG_TM_ID p.val, Reg.RNG_TM_ID p.val + 4, Reg.RNG_BACKUP_CNT p.val,
        Reg.PG_IRQ_RAW (Page.RNG p.val)]
        [⟨Page.RNG p.val, 8, false, 0, s.now⟩])) ∧
  (∀ (s : State) (p : Fin 4), s.ringOn = true → s.pstate p.val = psNode → 4 ≤ (s.rp p.val).lost →
    Completes (.nodeSilence p) s (fun t =>
      t.pstate p.val = psSilent ∧
      (s.setRp p.val { s.rp p.val with again := 0 }).Raises t [Reg.RNG_STAT p.val, Reg.PG_IRQ_RAW (Page.RNG p.val)]
        [⟨Page.RNG p.val, 0, false, 0, s.now⟩])) ∧
  (∀ s : State, s.ringOn = true → s.ticking = true → s.qtz.cycled.testBit 0 = false →
    (∀ p, p < 4 → s.pstate p = psDown ∨ s.pstate p = psListen ∨ (s.pstate p = psCyclic ∧ s.ringFree = true ∧ (s.rp p).yield = false) ∨
      (s.pstate p = psNode ∧ s.bit (Reg.RNG_STAT p) 7 = false ∧ (s.rp p).backupEnd = false)) →
    Completes (.ringCycleBoundary false) s (fun t =>
      (∀ p, p < 4 → (s.pstate p = psCyclic → t.rd64 (Reg.RNG_CYCLE p) = (s.rd64 (Reg.RNG_CYCLE p) + 1) % 18446744073709551616) ∧
        (s.pstate p = psListen → (t.rp p).listen = (s.rp p).listen + 1) ∧ (s.pstate p = psDown → t.rp p = { s.rp p with sent := [], relayed := [] }) ∧
        (s.pstate p = psNode → (t.rp p).refSeen = none ∧
          (t.rp p).lost = (if (s.rp p).refSeen = none ∨ (s.rp p).refOff = true then (s.rp p).lost + 1 else 0))) ∧
      t.qtz.cycled = s.qtz.cycled ||| 1 ∧ s.SameMemory t)) ∧
  (∀ s : State, s.bit Reg.QTZ_TICK 4 = false → Completes (.ringCycleBoundary true) s (fun t => t = s)) ∧
  (∀ (s u : State) (p : Fin 4) (n : Fin 64) (l : LaneAt) (d : List Word), s.ringOn = true → s.laneUp p.val l.lane = true →
    u = s.rxLog p.val 7 l.lane n.val 128 (s.rd64 (Reg.RNG_CYCLE p.val) % 65536) l.stamp → s.pstate p.val = psInit →
    (s.rp p.val).polled = some n.val → (s.rp p.val).answered.testBit l.lane.num = false → d.length = 32 →
    crc32c ((d.take 31).flatMap wordBytes) = d.getD 31 0 →
    s.dstate p.val n.val ≠ 5 → s.desc p.val n.val = [] → u.nodeEn p.val n.val = true → u.descCause p.val n.val d = 0 →
    Completes (.descriptorReply p n l d) s (fun t =>
      t.dstate p.val n.val = 1 ∧ t.desc p.val n.val = d ∧ t.fld (Reg.RNG_DISC_STAT p.val) 6 0 = t.dcount p.val 1 ∧
      (t.rp p.val).answered.testBit l.lane.num = true ∧
      u.SameRegs t [Reg.RNG_NODE_LINK p.val n.val, Reg.RNG_DISC_STAT p.val] ∧ u.SameMemory t))

/-- Cyclic and safety frames with their retries (rules R252 and R255 to R264): a frame with a valid block has arrived and its failed blocks
are listed; a node keeps a command frame that came whole for its next gather; channel A's check of a SAFE_IN decides
what it keeps; blocks are named, re-sent and taken once; the port completes its share of G, where a node whose frame came whole is no
longer missing. -/
def Obligations.RingCyclic : Prop :=
  (∀ (s : State) (p : Fin 4) (n : Fin 64) (h : InHeader) (pay : List (BitVec 8)) (okA okB : BitVec 8), s.ringOn = true →
    s.pstate p.val = psCyclic → s.takesFrom p.val n.val = true → s.payFits p.val n.val pay.length = true → (s.rp p.val).done = false →
    Completes (.cycIn p n h pay okA okB) s (fun t =>
      ((s.copies p.val n.val (s.inPlan p.val n.val) (blockCount pay.length) h okA.toNat okB.toNat).2 ≠ 0 → (n.val, false) ∈ (t.rp p.val).arrived) ∧
      ((s.copies p.val n.val (s.inPlan p.val n.val) (blockCount pay.length) h okA.toNat okB.toNat).2 = 0 →
        (t.rp p.val).arrived = (s.rp p.val).arrived ∧ s.SameMemory t) ∧
      (∀ b, b < blockCount pay.length →
        (s.copies p.val n.val (s.inPlan p.val n.val) (blockCount pay.length) h okA.toNat okB.toNat).2.testBit b = false →
        ⟨n.val, false, b⟩ ∈ (t.rp p.val).failed))) ∧
  (∀ (s : State) (p : Fin 4) (h : OutHeader) (pay : List (BitVec 8)) (okA okB : BitVec 8), s.ringOn = true → s.pstate p.val = psNode →
    pay.length ≤ 2032 → s.laneUp p.val .a = true → okA.toNat % 2 ^ blockCount pay.length = 2 ^ blockCount pay.length - 1 →
    Completes (.cycOut p h pay okA okB) s (fun t =>
      (t.rp p.val).echo = h.cyc.toNat ∧ (t.rp p.val).inbox = (List.range pay.length).zip pay ∧
      (t.rp p.val).inMask = 2 ^ blockCount pay.length - 1 ∧ (t.rp p.val).inCnt = blockCount pay.length ∧ s.SameMemory t)) ∧
  (∀ (s : State) (p : Fin 4) (n : Fin 64) (h : InHeader) (pay : BitVec 256) (okA okB : Bool), s.ringOn = true →
    s.pstate p.val = psCyclic → s.takesFrom p.val n.val = true → s.nodeSafe p.val n.val = true → (s.rp p.val).done = false →
    (s.copies p.val n.val (s.safePlan p.val n.val) 1 h (b2n okA) (b2n okB)).2 ≠ 0 →
    Completes (.safeIn p n h pay okA okB) s (fun t =>
      (n.val, true) ∈ (t.rp p.val).arrived ∧ t.bit (Reg.RNG_NODE_STAT p.val n.val) 12 = !s.safeInOk p.val n.val pay ∧
      (∀ w, (nodeKey p.val n.val, w) ∈ t.saf.safeIn ↔ s.safeInOk p.val n.val pay = true ∧ w = payWord pay 3))) ∧
  (∀ (s : State) (p : Fin 4) (pay : BitVec 256) (k : LaneOk) (i : NodeInit), s.ringOn = true → s.laneUp p.val .a = true →
    s.pstate p.val = psNode → k.a = true → k.b = true → k.bFirst = false → k.hold = 0 → (s.rp p.val).init = some i →
    payWord pay 0 % 65536 = i.saddr.toNat → safetyCrc (crcInit i.saddr.toNat) (payBytes pay 28) = payWord pay 7 →
    Completes (.safeOut p pay k) s (fun t => (t.rp p.val).safeCnt = payWord pay 1 ∧ (t.rp p.val).safeMiss = 0 ∧ t = { s with ring := t.ring })) ∧
  (∀ (s : State) (p : Fin 4), s.ringOn = true → s.evenCycle = true → s.pstate p.val = psCyclic → (s.rp p.val).done = false →
    Completes (.rqLaunch p) s (fun t =>
      (t.rp p.val).failed = s.failedBlocks p.val ∧
      (t.rp p.val).rq = (s.failedBlocks p.val).take (s.rcFld p.val (Reg.RNG_RTY p.val) 3 0) ∧
      s.SameRegs t (traceRegs (0x50 + p.val)) ∧ s.SameMemory t)) ∧
  (∀ (s : State) (p : Fin 4) (l : List RingBlock), s.ringOn = true → s.pstate p.val = psNode →
    Completes (.rqFrame p l) s (fun t =>
      (∀ b, b ∈ (t.rp p.val).rtyDue ↔ b ∈ l ∧ b.node = s.rcFld p.val (Reg.RNG_CTRL p.val) 21 16) ∧
      (s.traceOn (0x50 + p.val) = false → t = { s with ring := t.ring }) ∧ s.SameRegs t (traceRegs (0x50 + p.val)) ∧ s.SameMemory t)) ∧
  (∀ (s : State) (p : Fin 4) (b : RingBlock) (data : List (BitVec 8)) (k : LaneOk), s.ringOn = true → s.pstate p.val = psCyclic →
    s.laneUp p.val .a = true → k.a = true →
    ((s.rp p.val).done = false → (s.rp p.val).rq.contains b = true →
      Completes (.rtyFrame p b data k) s (fun t =>
        b ∉ (t.rp p.val).rq ∧ b ∉ (t.rp p.val).failed ∧ (b.node, b.safe) ∈ (t.rp p.val).arrived ∧
        (b.safe = false → t.rdN (Reg.RNG_IRT_CNT p.val) = min (s.rdN (Reg.RNG_IRT_CNT p.val) + 1) 0xFFFFFFFF))) ∧
    ((s.rp p.val).rq.contains b = false → k.b = true → k.bFirst = false → k.hold = 0 → k.alm = false →
      Completes (.rtyFrame p b data k) s (fun t => t.rp p.val = s.rp p.val ∧ t = { s with ring := t.ring }))) ∧
  (∀ (s : State) (p : Fin 4) (bad l named : List RingBlock), s.ringOn = true → s.pstate p.val = psCyclic → s.outCycle = true →
    l = s.badOut p.val bad → named = (l.filter (fun b => s.canResend p.val b)).take (s.rcFld p.val (Reg.RNG_RTY p.val) 7 4) →
    Completes (.ortLaunch p bad) s (fun t =>
      t.rdN (Reg.RNG_ORT_CNT p.val) = min (s.rdN (Reg.RNG_ORT_CNT p.val) + named.length) 0xFFFFFFFF ∧
      t.rdN (Reg.RNG_ORT_FAIL_CNT p.val) = min (s.rdN (Reg.RNG_ORT_FAIL_CNT p.val) + (l.length - named.length)) 0xFFFFFFFF ∧
      s.SameRegs t ([Reg.RNG_ORT_CNT p.val, Reg.RNG_ORT_FAIL_CNT p.val, Reg.PG_IRQ_RAW (Page.RNG p.val)] ++ traceRegs (0x50 + p.val)) ∧
      s.SameMemory t)) ∧
  (∀ (s : State) (p : Fin 4), s.ringOn = true → (s.inService p.val = true ∨ s.phasesRun = true) → (s.rp p.val).done = false →
    s.qtz.sealed.testBit 0 = false →
    Completes (.portGatherComplete p) s (fun t =>
      (t.rp p.val).done = true ∧
      (s.pstate p.val = psCyclic → s.failedBlocks p.val = [] → ∀ n ∈ s.slots p.val, s.bit (Reg.RNG_NODE_STAT p.val n) 8 = false →
        t.bit (Reg.RNG_NODE_STAT p.val n) 8 = false ∧ t.fld (Reg.RNG_NODE_STAT p.val n) 7 0 = 0))) ∧
  (∀ (s : State) (p : Fin 4) (n : Fin 64), s.ringOn = true → s.nodeEn p.val n.val = true → s.lostDue p.val n.val = true →
    Completes (.nodeLost p n) s (fun t =>
      t.bit (Reg.RNG_NODE_STAT p.val n.val) 8 = true ∧
      t.rdN (Reg.RNG_LOST_CNT p.val) = min (s.rdN (Reg.RNG_LOST_CNT p.val) + 1) 0xFFFFFFFF ∧
      s.Raises t [Reg.RNG_NODE_STAT p.val n.val, Reg.RNG_LOST_CNT p.val, Reg.PG_IRQ_RAW (Page.RNG p.val)]
        [⟨Page.RNG p.val, 2, true, w32 n.val, s.now⟩]))

/-- Bulk transfers, Trump records and software's controls of a port (rules R257, R258, R265 and R268): what a node receives from ring
management is kept, logged and awaits its acknowledgement; the window re-sends and sends blocks; acknowledged blocks need no more sending; the granted node's alarm
record is taken once. -/
def Obligations.RingBulkAndSoftware : Prop :=
  (∀ (s : State) (p : Fin 4) (n : Fin 256) (l : Lane) (f : BulkIn) (i : NodeInit) (h : RxHead), s.ringOn = true →
    s.laneUp p.val l = true → s.pstate p.val = psNode → f.ver = 1 → f.typ = 7 → f.init = some i →
    h.ok.toNat % 2 ^ blockCount f.pay.length = 2 ^ blockCount f.pay.length - 1 →
    (s.fld (Reg.RNG_RXLOG_HEAD p.val) 7 0 + 1) % 256 ≠ s.fld (Reg.RNG_RXLOG_TAIL p.val) 7 0 →
    Completes (.bulkFrame p n l f h) s (fun t =>
      (t.rp p.val).init = some i ∧
      (t.rp p.val).bulkAcks = (s.rp p.val).bulkAcks ++ [(n.val, f.seq.toNat, 2 ^ blockCount f.pay.length - 1)] ∧
      t.fld (Reg.RNG_RXLOG_HEAD p.val) 7 0 = (s.fld (Reg.RNG_RXLOG_HEAD p.val) 7 0 + 1) % 256)) ∧
  (∀ (s : State) (p : Fin 4) (n : Fin 256) (f : BulkIn) (h : RxHead), s.ringOn = true → s.laneUp p.val .a = true →
    ((f.ver ≠ 1 ∨ f.typ ≠ 7) →
      Completes (.bulkFrame p n .a f h) s (fun t =>
        t.rdN (Reg.RNG_CRC_CNT_A p.val) = min (s.rdN (Reg.RNG_CRC_CNT_A p.val) + 1) 0xFFFFFFFF ∧ s.Writes t [Reg.RNG_CRC_CNT_A p.val])) ∧
    (f.ver = 1 → f.typ = 7 → h.ok.getLsbD 0 = false →
      Completes (.bulkFrame p n .a f h) s (fun t =>
        t.rdN (Reg.RNG_CRC_CNT_A p.val) = min (s.rdN (Reg.RNG_CRC_CNT_A p.val) +
          (blockCount f.pay.length - popTo h.ok.toNat (blockCount f.pay.length))) 0xFFFFFFFF ∧ s.Writes t [Reg.RNG_CRC_CNT_A p.val]))) ∧
  (∀ (s u : State) (p : Fin 4) (n : Fin 256) (l : Lane) (acks : List (BitVec 16 × BitVec 16)) (h : RxHead), s.ringOn = true →
    s.laneUp p.val l = true → h.ok.getLsbD 0 = true → u = s.takeFrame p.val 8 l n.val (4 * acks.length) h →
    u.bulkWith p.val n.val false = true → (s.rp p.val).bulkNext < (u.bulkLen p.val + 255) / 256 →
    Completes (.bulkAck p n l acks h) s (fun t =>
      ∀ b, b ∈ (t.rp p.val).bulkOut ↔ b ∈ (s.rp p.val).bulkOut ∧
        ∀ a ∈ acks, ¬ (a.1.toNat = b.seq ∧ a.2.toNat &&& b.mask = b.mask))) ∧
  (∀ (s : State) (p : Fin 4) (room : Nat), s.ringOn = true → s.pstate p.val = psCyclic → s.bulkHas p.val = true →
    s.bulkFrom p.val = false → (64 ≤ s.bulkNode p.val ∨ s.bit (Reg.RNG_NODE_STAT p.val (s.bulkNode p.val)) 8 = false) →
    (s.rp p.val).bulkOut = [] → s.integ.ue = [] → (s.rp p.val).bulkNext ≤ (s.bulkLen p.val + 255) / 256 →
    Completes (.bulkWindow p room) s (fun t =>
      (t.rp p.val).bulkNext = min ((s.rp p.val).bulkNext + room) ((s.bulkLen p.val + 255) / 256) ∧
      (t.rp p.val).bulkOut.length = (t.rp p.val).bulkNext - (s.rp p.val).bulkNext ∧ (∀ b ∈ (t.rp p.val).bulkOut, b.tries = 1) ∧
      s.SameRegs t [] ∧ s.SameMemory t)) ∧
  (∀ (s : State) (p : Fin 4) (n : Fin 64) (l : Lane) (data : List (BitVec 8)) (h : RxHead), s.ringOn = true → s.laneUp p.val l = true →
    h.ok.getLsbD 0 = true → (s.rp p.val).grant = some n.val → data.length = 64 →
    Completes (.trumpFrame p n l data h) s (fun t =>
      (t.rp p.val).grant = none ∧ t.rdN (Reg.RNG_TRUMP_CNT p.val) = min (s.rdN (Reg.RNG_TRUMP_CNT p.val) + 1) 0xFFFFFFFF)) ∧
  (∀ (s : State) (ag : Agent) (p : Fin 4), s.writable ag (Page.RNG p.val) = true →
    (∀ b : Bool, Completes (.rngSoftFlip ag p b) s (fun t =>
      (t.rp p.val).softNext = b ∧ (t.rp p.val).soft = (s.rp p.val).soft ∧ t = { s with ring := t.ring })) ∧
    (∀ v : Word, Completes (.rngBulkTail ag p v) s (fun t =>
      t.fld (Reg.RNG_BULK_TAIL p.val) 7 0 = v.toNat % 256 ∧ s.Writes t [Reg.RNG_BULK_TAIL p.val])))

/-- The states of a ring lane (rules R272 to R279 and R282): training, join and measurement lead to UP, a port with a lane UP leaves DOWN; a
timeout or a loss leads to FAIL with its cause and closes the bypass; the retry time leads back to training. -/
def Obligations.LaneStates : Prop :=
  (∀ (s : State) (p : Fin 4), s.ringOn = true → s.lstate p.val .a = lsTrain → s.bypassState = true → s.portEn p.val = true →
    Completes (.trainPassed p .a) s (fun t => t.lstate p.val .a = lsJoin ∧ t.bit (laneReg p.val .a) 4 = true)) ∧
  (∀ (s : State) (p : Fin 4) (l : Lane), s.ringOn = true → s.lstate p.val l = lsTrain → s.lanePassed p.val l = false →
    (l = .b → s.pstate p.val = psDown → s.laneUp p.val .a = false) →
    Completes (.trainTimeout p l) s (fun t =>
      t.lstate p.val l = lsFail ∧ t.fld (laneReg p.val l) 15 12 = 1 ∧ t.bit (laneReg p.val l) 4 = false ∧
      t.rdN (Reg.RNG_TRAIN_FAIL_CNT p.val) = min (s.rdN (Reg.RNG_TRAIN_FAIL_CNT p.val) + 1) 0xFFFFFFFF ∧ s.SameMemory t)) ∧
  (∀ (s : State) (p : Fin 4) (l : Lane), s.ringOn = true → s.lstate p.val l = lsJoin →
    Completes (.bypassSettled p l) s (fun t => (t.rp p.val).settled.testBit l.num = true ∧ t = { s with ring := t.ring })) ∧
  (∀ (s : State) (p : Fin 4) (l : Lane), s.ringOn = true → s.lstate p.val l = lsJoin → (s.rp p.val).settled.testBit l.num = true →
    Completes (.joinPassed p l) s (fun t =>
      t.lstate p.val l = lsMeasure ∧ (t.rp p.val).rtts = [] ∧ s.SameRegs t [laneReg p.val l] ∧ s.SameMemory t)) ∧
  (∀ (s : State) (p : Fin 4) (l : Lane), s.ringOn = true → s.lstate p.val l = lsJoin →
    (l = .b → s.pstate p.val = psDown → s.laneUp p.val .a = false) →
    Completes (.joinTimeout p l) s (fun t =>
      t.lstate p.val l = lsFail ∧ t.fld (laneReg p.val l) 15 12 = 2 ∧ t.bit (laneReg p.val l) 4 = false ∧
      t.rdN (Reg.RNG_JOIN_FAIL_CNT p.val) = min (s.rdN (Reg.RNG_JOIN_FAIL_CNT p.val) + 1) 0xFFFFFFFF ∧ s.SameMemory t)) ∧
  (∀ (s : State) (p : Fin 4) (sent ret turn : Nat), s.ringOn = true → (s.lstate p.val .a = lsMeasure ∨ s.lstate p.val .b = lsMeasure) →
    Completes (.measureMarker p (.back sent ret turn)) s (fun t =>
      (t.rp p.val).rtts =
        ((s.ingressSteps p.val .b ret - s.egressSteps p.val .a sent - turn).toNat :: (s.rp p.val).rtts).take 256 ∧
      t = { s with ring := t.ring })) ∧
  (∀ (s : State) (p : Fin 4) (ingress egress : Nat), s.ringOn = true → s.bit (laneReg p.val .a) 4 = true →
    s.bit (laneReg p.val .b) 4 = true →
    Completes (.measureMarker p (.arrived ingress egress)) s (fun t =>
      (t.rp p.val).turn = some (s.egressSteps p.val .b egress - s.ingressSteps p.val .a ingress).toNat ∧
      t = { s with ring := t.ring })) ∧
  (∀ (s : State) (p : Fin 4) (loss : Nat), s.ringOn = true → s.lstate p.val .a = lsMeasure → (s.rp p.val).rtts.length = 256 →
    Completes (.measureDone p .a loss) s (fun t =>
      t.lstate p.val .a = lsUp ∧ t.bit (Reg.RNG_STAT p.val) 4 = true ∧ t.fld (laneReg p.val .a) 31 16 = min loss 0xFFFF ∧
      (s.pstate p.val = psDown → s.portEn p.val = true → t.pstate p.val = psListen) ∧ s.SameMemory t)) ∧
  (∀ (s : State) (p : Fin 4) (l : Lane), s.ringOn = true → s.lstate p.val l = lsMeasure →
    (l = .b → s.pstate p.val = psDown → s.laneUp p.val .a = false) →
    Completes (.measureTimeout p l) s (fun t =>
      t.lstate p.val l = lsFail ∧ t.fld (laneReg p.val l) 15 12 = 3 ∧ t.bit (laneReg p.val l) 4 = false ∧
      t.rdN (Reg.RNG_JOIN_FAIL_CNT p.val) = min (s.rdN (Reg.RNG_JOIN_FAIL_CNT p.val) + 1) 0xFFFFFFFF ∧ s.SameMemory t)) ∧
  (∀ (s : State) (p : Fin 4) (l : Lane) (lock : Bool), s.ringOn = true → s.lstate p.val l = lsUp →
    (l = .b → s.pstate p.val = psDown → s.laneUp p.val .a = false) →
    Completes (.laneLoss p l lock) s (fun t =>
      t.lstate p.val l = lsFail ∧ t.fld (laneReg p.val l) 15 12 = (if lock then 5 else 4) ∧ t.bit (laneReg p.val l) 4 = false ∧
      t.rdN (Reg.RNG_LANE_LOSS_CNT p.val) = min (s.rdN (Reg.RNG_LANE_LOSS_CNT p.val) + 1) 0xFFFFFFFF ∧
      (⟨Page.RNG p.val, 1, s.portRed p.val != 0, (if lock then 5 else 4), s.now⟩ : Raising) ∈ t.evt.raisings ∧ s.SameMemory t)) ∧
  (∀ (s : State) (p : Fin 4) (l : Lane), s.ringOn = true → s.lstate p.val l = lsFail →
    Completes (.linkRetryExpiry p l) s (fun t =>
      t.lstate p.val l = lsTrain ∧ t.lanePassed p.val l = false ∧ s.SameRegs t [laneReg p.val l] ∧ s.SameMemory t))

/-- Feedback channels and step outputs (rules R294 to R300 and R305 to R307): an edge counts by its phase, A and B together are a quadrature
error; an index edge latches the count; a line fault is shown and told to every axis bound to the channel; Hall transitions count sectors; a
frame that is good sets the channel's sample, another is counted with its cause; a step pulse counts in n_out. Where a count changes, `u` is
the state after the channel's own part; the compare units and the records of the axes that read it take it in after that. -/
def Obligations.FeedbackChannels : Prop :=
  (∀ (s : State) (e : Fin 16) (a b : Bool) (stamp : Nat) (d : Int), s.timed = true → s.encEn e.val = true →
    encStep (s.fld (Reg.FBK_ENC e.val) 2 1) (s.bit (Reg.FBK_ENC_STAT e.val) 0) (s.bit (Reg.FBK_ENC_STAT e.val) 1) a b = some d → d ≠ 0 →
    Completes (.encoderEdge e a b stamp) s (fun t => ∃ u : State,
      u.bit (Reg.FBK_ENC_STAT e.val) 0 = a ∧ u.bit (Reg.FBK_ENC_STAT e.val) 1 = b ∧
      u.rdI64 (Reg.FBK_ENC_CNT e.val) =
        signedOf 64 (wrapTo 64 (s.rdI64 (Reg.FBK_ENC_CNT e.val) + (if s.bit (Reg.FBK_ENC e.val) 3 then -d else d))) ∧
      s.SameRegs u [Reg.FBK_ENC_STAT e.val, Reg.FBK_ENC_CNT e.val, Reg.FBK_ENC_CNT e.val + 4] ∧ s.SameMemory u ∧
      t = (forEach (fun n v => v.laxCompare n (s.rdI64 (Reg.FBK_ENC_CNT e.val))
          (s.rdI64 (Reg.FBK_ENC_CNT e.val) + (if s.bit (Reg.FBK_ENC e.val) 3 then -d else d)) stamp) (s.readers 1 e.val) u).when
        (s.pastEdge stamp) (fun v => v.lateCount e.val))) ∧
  (∀ (s : State) (e : Fin 16) (a b : Bool) (stamp : Nat), s.timed = true → s.encEn e.val = true → s.fld (Reg.FBK_ENC e.val) 2 1 = 0 →
    (quadPhase a b + 4 - quadPhase (s.bit (Reg.FBK_ENC_STAT e.val) 0) (s.bit (Reg.FBK_ENC_STAT e.val) 1)) % 4 = 2 →
    Completes (.encoderEdge e a b stamp) s (fun t =>
      t.bit (Reg.FBK_ENC_STAT e.val) 0 = a ∧ t.bit (Reg.FBK_ENC_STAT e.val) 1 = b ∧ t.bit (Reg.FBK_ENC_STAT e.val) 4 = true ∧
      t.rdN (Reg.FBK_QERR_CNT e.val) = min (s.rdN (Reg.FBK_QERR_CNT e.val) + 1) 0xFFFFFFFF ∧
      s.SameRegs t [Reg.FBK_ENC_STAT e.val, Reg.FBK_QERR_CNT e.val, Reg.PG_IRQ_RAW Page.FBK] ∧ s.SameMemory t)) ∧
  (∀ (s : State) (e : Fin 16) (stamp : Nat), s.timed = true → s.encEn e.val = true → s.bit (Reg.FBK_ENC e.val) 8 = true →
    s.bit (Reg.FBK_ENC e.val) 9 = false → s.bit (Reg.FBK_ENC e.val) 10 = false → s.bit (Reg.FBK_ENC_STAT e.val) 2 = false →
    Completes (.indexEdge e true stamp) s (fun t => ∃ u : State,
      u.rdI64 (Reg.FBK_IDX_CNT e.val) = s.rdI64 (Reg.FBK_ENC_CNT e.val) ∧ u.bit (Reg.FBK_ENC_STAT e.val) 2 = true ∧
      (u.encRt e.val).prev = some (s.rdI64 (Reg.FBK_ENC_CNT e.val)) ∧ (u.encRt e.val).first = (s.encRt e.val).first ∧ s.SameMemory u ∧
      t = u.firstLatch e.val (s.rdI64 (Reg.FBK_ENC_CNT e.val)) stamp ∧
      (u.pastEdge stamp = false → (s.encRt e.val).first = none →
        (t.encRt e.val).first = some (s.rdI64 (Reg.FBK_ENC_CNT e.val), stamp) ∧ s.SameMemory t))) ∧
  (∀ (s : State) (e : Fin 16) (line : Fin 3), s.clocked = true → s.timed = true → s.encEn e.val = true →
    (line.val ≠ 2 ∨ s.bit (Reg.FBK_ENC e.val) 8 = true) →
    Completes (.lineFault e line true) s (fun t =>
      t.bit (Reg.FBK_ENC_STAT e.val) 5 = true ∧
      t.rdN (Reg.FBK_WIRE_CNT e.val) = min (s.rdN (Reg.FBK_WIRE_CNT e.val) + 1) 0xFFFFFFFF ∧
      (∀ n ∈ s.bound 1 e.val, t.bit (Reg.LAX_STAT n) 2 = true) ∧ (⟨Page.FBK, 1, true, 0, s.now⟩ : Raising) ∈ t.evt.raisings ∧
      s.SameMemory t)) ∧
  (∀ (s : State) (h code : Fin 8) (k k0 stamp : Nat), s.timed = true → s.bit (Reg.FBK_HALL h.val) 0 = true →
    s.bit (Reg.FBK_HALL h.val) 1 = false → hallSector code.val = some k → (s.hallRt h.val).sector = some k0 → (k + 6 - k0) % 6 = 1 →
    Completes (.hallTransition h code stamp) s (fun t => ∃ u : State,
      (u.hallRt h.val).count = (s.hallRt h.val).count + 1 ∧ (u.hallRt h.val).sector = some k ∧
      u.fld (Reg.FBK_HALL_STAT h.val) 2 0 = code.val ∧ u.fld (Reg.FBK_HALL_STAT h.val) 6 4 = k ∧
      s.SameRegs u [Reg.FBK_HALL_STAT h.val] ∧ s.SameMemory u ∧
      t = (forEach (fun n v => v.laxCompare n (s.hallRt h.val).count ((s.hallRt h.val).count + 1) stamp) (s.readers 2 h.val) u).when
        (s.pastEdge stamp) (fun v => forEach (fun n w => w.resample n) (v.readers 2 h.val) v))) ∧
  (∀ (s : State) (h code : Fin 8) (stamp : Nat), s.timed = true → s.bit (Reg.FBK_HALL h.val) 0 = true → hallSector code.val = none →
    Completes (.hallTransition h code stamp) s (fun t =>
      (t.hallRt h.val).count = (s.hallRt h.val).count ∧ t.bit (Reg.FBK_HALL_STAT h.val) 8 = true ∧
      t.fld (Reg.FBK_HALL_STAT h.val) 2 0 = code.val ∧
      t.rdN (Reg.FBK_HALL_ERR_CNT h.val) = min (s.rdN (Reg.FBK_HALL_ERR_CNT h.val) + 1) 0xFFFFFFFF ∧ s.SameMemory t)) ∧
  (∀ (s : State) (h code : Fin 8) (stamp : Nat), s.timed = true → s.bit (Reg.FBK_HALL h.val) 0 = false →
    Completes (.hallTransition h code stamp) s (fun t =>
      t.fld (Reg.FBK_HALL_STAT h.val) 2 0 = code.val ∧ s.Writes t [Reg.FBK_HALL_STAT h.val])) ∧
  (∀ (s : State) (c : Fin 8) (data : BitVec 48) (extra : BitVec 8) (idle mono : Bool) (raw cause : Nat), s.timed = true →
    s.bit (Reg.FBK_SSI c.val) 0 = true → (s.ssiRt c.val).done = false →
    raw = (if s.bit (Reg.FBK_SSI c.val) 7 then grayToBin (data.toNat % 2 ^ s.ssiBits c.val) else data.toNat % 2 ^ s.ssiBits c.val) →
    cause = s.ssiCause c.val (data.toNat % 2 ^ s.ssiBits c.val) extra.toNat raw idle mono →
    Completes (.ssiFrameDone c data extra idle mono) s (fun t => ∃ u : State,
      u.rdN (Reg.FBK_SSI_RAW c.val) = raw % 4294967296 ∧ u.rdN (Reg.FBK_SSI_RAW c.val + 4) = raw / 4294967296 % 4294967296 ∧
      (u.ssiRt c.val).done = true ∧
      (cause = 0 → (u.ssiRt c.val).good = true ∧ (u.ssiRt c.val).raw = some raw ∧
        s.SameRegs u [Reg.FBK_SSI_RAW c.val, Reg.FBK_SSI_RAW c.val + 4]) ∧
      (cause ≠ 0 → (u.ssiRt c.val).good = false ∧ u.fld (Reg.FBK_SSI_STAT c.val) 4 0 = 16 + cause ∧
        u.rdN (Reg.FBK_SSI_ERR_CNT c.val) = min (s.rdN (Reg.FBK_SSI_ERR_CNT c.val) + 1) 0xFFFFFFFF ∧
        s.SameRegs u [Reg.FBK_SSI_RAW c.val, Reg.FBK_SSI_RAW c.val + 4, Reg.FBK_SSI_STAT c.val, Reg.FBK_SSI_ERR_CNT c.val,
          Reg.PG_IRQ_RAW Page.FBK]) ∧ s.SameMemory u ∧
      t = forEach (fun n v => if v.phasesRun then v.laxGather n else v.laxLatch n) (s.readers 3 c.val)
        (forEach (fun n v => v.laxCompare n (s.ssiRt c.val).ext (u.ssiRt c.val).ext (s.rd64 Reg.QTZ_LAST_TICK)) (s.readers 3 c.val) u))) ∧
  (∀ (s : State) (n : Fin 16) (time : Nat) (d : Int) (rest : List (Nat × Int)), s.clocked = true →
    (s.laxRt n.val).pulses = (time, d) :: rest →
    Completes (.stepPulse n) s (fun t => ∃ u : State,
      u.rdI64 (Reg.LAX_NOUT n.val) = signedOf 64 (wrapTo 64 (s.rdI64 (Reg.LAX_NOUT n.val) + d)) ∧ (u.laxRt n.val).pulses = rest ∧
      (time ≤ s.now → u.now = s.now) ∧ s.SameMemory u ∧
      s.SameRegs u [Reg.LAX_NOUT n.val, Reg.LAX_NOUT n.val + 4, Reg.QTZ_TIME_NS, Reg.QTZ_TIME_NS + 4, Reg.QTZ_TIME_FRAC] ∧
      t = if s.srcType n.val = 0 ∧ s.axisEn (128 + n.val)
        then u.laxCompare n.val (s.rdI64 (Reg.LAX_NOUT n.val)) (s.rdI64 (Reg.LAX_NOUT n.val) + d) time else u))

/-- The inputs and supplies of the field die (rules R310 to R316, R322, R324 and R325): a sample sets the accepted level of an input after
DI_FILT + 1 agreeing samples, a failed test counting as 0; an edge of a counting input counts; an undervoltage switches its group off until it
recovers; loss of VCC_F resets the die and trips Flint. -/
def Obligations.FieldInputsAndSupplies : Prop :=
  (∀ (s : State) (j : Fin 16) (x : FieldSample), s.field.vcc = true →
    (∀ i, i < 32 → s.diOn i < x.di.getD i 0 ∨ x.di.getD i 0 < 5000) →
    Completes (.diSample j x) s (fun t =>
      (∀ i, i < 32 → t.field.level.getLsbD i =
        (if (decide (s.diOn i < x.di.getD i 0) && !x.fail.getLsbD i) ≠ s.field.level.getLsbD i ∧ s.diFilt i < natAt s.field.runs i + 1
          then decide (s.diOn i < x.di.getD i 0) && !x.fail.getLsbD i else s.field.level.getLsbD i)) ∧
      t.field.test = s.field.test ||| x.fail ∧ t.field.above = x.above ∧ t.fld Reg.FIO_DQ_RB 15 0 = x.above.toNat ∧
      t.rdN Reg.FIO_LP_V = x.lp1 % 65536 + 65536 * (x.lp2 % 65536) ∧ s.SameMemory t)) ∧
  (∀ (s : State) (i : Fin 8) (rising : Bool) (stamp : Nat), s.field.vcc = true → (s.eff (Reg.FIO_CNT i.val)).getLsbD 0 = true →
    (s.eff (Reg.FIO_CNT i.val)).getLsbD (if rising then 1 else 2) = true →
    Completes (.countEdge i rising stamp) s (fun t =>
      t.rdN (Reg.FIO_CNT_VAL i.val) = (s.rdN (Reg.FIO_CNT_VAL i.val) + 1) % 4294967296 ∧ (t.countRt i.val).last = some stamp ∧
      s.SameRegs t [Reg.FIO_CNT_VAL i.val] ∧ s.SameMemory t)) ∧
  (∀ (s : State) (g : Fin 2), s.field.vcc = true → s.field.lpUv.getLsbD g.val = false →
    Completes (.lpUndervoltage g) s (fun t =>
      t.field.lpUv.getLsbD g.val = true ∧ t.field.lpOff.getLsbD g.val = true ∧ t.bit Reg.FIO_LP_STAT (2 * g.val) = true ∧
      t.bit Reg.FIO_LP_STAT (8 + g.val) = false ∧ t.rdN Reg.FIO_LP_UV_CNT = min (s.rdN Reg.FIO_LP_UV_CNT + 1) 0xFFFFFFFF ∧
      (∀ i, i < 16 → i / 8 = g.val → t.field.on.getLsbD i = false) ∧ s.SameMemory t)) ∧
  (∀ (s : State) (g : Fin 2), s.field.vcc = true → s.field.lpOv.getLsbD g.val = false →
    Completes (.lpOvervoltage g) s (fun t =>
      t.bit Reg.FIO_LP_STAT (2 * g.val + 1) = true ∧ t.bit Reg.FIO_LP_STAT (8 + g.val) = false ∧ t.field.on = s.field.on ∧
      s.SameRegs t [Reg.FIO_LP_STAT, Reg.PG_IRQ_RAW Page.FIO] ∧ s.SameMemory t)) ∧
  (∀ (s : State) (g : Fin 2), s.field.vcc = true → s.field.lpOff.getLsbD g.val = true →
    Completes (.lpRecovery g) s (fun t =>
      t.field.lpUv.getLsbD g.val = false ∧ t.field.lpBack.getLsbD g.val = true ∧ t.field.lpOff = s.field.lpOff ∧
      t.bit Reg.FIO_LP_STAT (8 + g.val) = !s.field.lpOv.getLsbD g.val ∧ s.SameRegs t [Reg.FIO_LP_STAT] ∧ s.SameMemory t)) ∧
  (∀ s : State, s.field.vcc = true →
    Completes .vccFLoss s (fun t =>
      t.field.vcc = false ∧ t.field.on = 0 ∧ t.bit Reg.FIO_LP_STAT 6 = true ∧ t.domOn 12 = false ∧ t.fld Reg.FLT_STAT 1 0 = 2 ∧
      (∀ i, i < 8 → t.rdN (Reg.FIO_CNT_VAL i) = 0) ∧ s.SameMemory t)) ∧
  (∀ s : State, s.field.vcc = false →
    Completes .vccFRecovery s (fun t =>
      t.field.vcc = true ∧ t.domOn 12 = true ∧ t.fld Reg.FLT_STAT 1 0 = 0 ∧ t.rdN Reg.FLT_GATE = 0 ∧ s.SameMemory t))

/-- The outputs of the field die (rules R24 and R317 to R321): the checked word of the tick is received for the next boundary, and in
SELFTEST none is emitted; without one for 1.5 ticks every output is off; an overload switches its output off, and a retry switches it on
again or not; an open load is shown and counted once. -/
def Obligations.FieldOutputs : Prop :=
  (∀ s : State, s.ticking = true → s.sys.dev ≠ .selftest → s.field.vcc = true → s.field.wordLost = false → s.qtz.ended.testBit 5 = true →
    Completes .checkedWord s (fun t =>
      (s.mute = true → t.field.next = some 0) ∧
      (s.mute = false → t.field.next = some (BitVec.ofNat 16 (s.cell32 (s.chkSet s.parity + 0x1280)))) ∧
      t = { s with field := { s.field with next := t.field.next } })) ∧
  (∀ s : State, s.sys.dev = .selftest → Completes .checkedWord s (fun t => t = s)) ∧
  (∀ s : State, s.field.vcc = true →
    Completes .cmdLoss s (fun t =>
      t.field.lost = true ∧ t.field.on = 0 ∧ t.bit Reg.FIO_LP_STAT 4 = true ∧
      t.rdN Reg.FIO_CMD_LOSS_CNT = min (s.rdN Reg.FIO_CMD_LOSS_CNT + 1) 0xFFFFFFFF ∧
      s.SameRegs t [Reg.FIO_LP_STAT, Reg.FIO_CMD_LOSS_CNT, Reg.FIO_DQ_RB, Reg.PG_IRQ_RAW Page.FIO] ∧ s.SameMemory t)) ∧
  (∀ (s : State) (i : Fin 16), s.field.vcc = true → s.field.on.getLsbD i.val = true →
    Completes (.outputOverload i) s (fun t =>
      t.field.on.getLsbD i.val = false ∧ t.field.ovlOff.getLsbD i.val = true ∧ t.bit Reg.FIO_DQ_OVL i.val = true ∧
      t.bit Reg.FIO_DQ_OVL (16 + i.val) = true ∧ t.rdN Reg.FIO_OVL_CNT = min (s.rdN Reg.FIO_OVL_CNT + 1) 0xFFFFFFFF ∧
      s.SameRegs t [Reg.FIO_DQ_OVL, Reg.FIO_OVL_CNT, Reg.FIO_DQ_RB, Reg.PG_IRQ_RAW Page.FIO] ∧ s.SameMemory t)) ∧
  (∀ (s : State) (i : Fin 16), s.field.vcc = true → s.field.ovlOff.getLsbD i.val = true → s.dqCommanded i.val = true →
    s.dqCfg i.val 4 = false →
    Completes (.overloadRetry i true) s (fun t =>
      t.field.ovlOff.getLsbD i.val = false ∧ t.bit Reg.FIO_DQ_OVL (16 + i.val) = false ∧ t.field.on.getLsbD i.val = t.dqOn i.val ∧
      s.SameRegs t [Reg.FIO_DQ_OVL, Reg.FIO_DQ_RB] ∧ s.SameMemory t) ∧
    Completes (.overloadRetry i false) s (fun t =>
      t.field.on.getLsbD i.val = false ∧ t.bit Reg.FIO_DQ_OVL (16 + i.val) = true ∧
      t.rdN Reg.FIO_OVL_CNT = min (s.rdN Reg.FIO_OVL_CNT + 1) 0xFFFFFFFF ∧ s.SameMemory t)) ∧
  (∀ (s : State) (i : Fin 16) (off : Bool), s.field.vcc = true → s.clocked = true → s.openApplies i.val off = true →
    s.bit Reg.FIO_DQ_OPEN (if off then 16 + i.val else i.val) = false →
    Completes (.openLoad i off) s (fun t =>
      t.bit Reg.FIO_DQ_OPEN (if off then 16 + i.val else i.val) = true ∧
      t.rdN Reg.FIO_OPEN_CNT = min (s.rdN Reg.FIO_OPEN_CNT + 1) 0xFFFFFFFF ∧
      s.Raises t [Reg.FIO_DQ_OPEN, Reg.FIO_OPEN_CNT, Reg.PG_IRQ_RAW Page.FIO] [⟨Page.FIO, 2, false, 0, s.now⟩]))

/-- The plant ports (rules R52, R329 to R333 and R335): a frame whose FCS fails or a PAUSE frame is counted; one that no filter takes is placed
in its ring, or dropped where the ring is full; a frame sent returns its descriptor; a frame leaves at its launch time; tails and link
changes. -/
def Obligations.PlantPorts : Prop :=
  (∀ (s : State) (p : Fin 2) (f : EthFrame), s.ethOn p.val = true → f.fcsOk = false →
    Completes (.ethFrameRx p f) s (fun t =>
      t.rdN (Reg.ETH_RX_FCS_CNT p.val) = min (s.rdN (Reg.ETH_RX_FCS_CNT p.val) + 1) 0xFFFFFFFF ∧ s.Writes t [Reg.ETH_RX_FCS_CNT p.val])) ∧
  (∀ (s : State) (p : Fin 2) (f : EthFrame), s.ethOn p.val = true → f.fcsOk = true →
    f.bytes.length + 4 ≤ s.effFld (Reg.ETH_CTRL p.val) 21 8 →
    (isPause f.bytes = true →
      Completes (.ethFrameRx p f) s (fun t =>
        t.rdN (Reg.ETH_PAUSE_CNT p.val) = min (s.rdN (Reg.ETH_PAUSE_CNT p.val) + 1) 0xFFFFFFFF ∧ s.Writes t [Reg.ETH_PAUSE_CNT p.val])) ∧
    (isPause f.bytes = false → (∀ i, i < 4 → s.mstMatch p.val i f.bytes = none) →
      (s.fld (Reg.ETH_RXR_HEAD p.val (s.rxRing p.val f.bytes)) 7 0 + 1) % 256 ≠
        s.fld (Reg.ETH_RXR_TAIL p.val (s.rxRing p.val f.bytes)) 7 0 →
      Completes (.ethFrameRx p f) s (fun t =>
        t.rdN (Reg.ETH_RX_CNT p.val) = min (s.rdN (Reg.ETH_RX_CNT p.val) + 1) 0xFFFFFFFF ∧
        t.fld (Reg.ETH_RXR_HEAD p.val (s.rxRing p.val f.bytes)) 7 0 =
          (s.fld (Reg.ETH_RXR_HEAD p.val (s.rxRing p.val f.bytes)) 7 0 + 1) % 256)) ∧
    (isPause f.bytes = false → (∀ i, i < 4 → s.mstMatch p.val i f.bytes = none) →
      (s.fld (Reg.ETH_RXR_HEAD p.val (s.rxRing p.val f.bytes)) 7 0 + 1) % 256 =
        s.fld (Reg.ETH_RXR_TAIL p.val (s.rxRing p.val f.bytes)) 7 0 →
      Completes (.ethFrameRx p f) s (fun t =>
        t.rdN (Reg.ETH_RX_DROP_CNT p.val (s.rxRing p.val f.bytes)) =
          min (s.rdN (Reg.ETH_RX_DROP_CNT p.val (s.rxRing p.val f.bytes)) + 1) 0xFFFFFFFF ∧
        t.bit (Reg.ETH_STAT p.val) 4 = true ∧
        s.Raises t [Reg.ETH_RX_CNT p.val, Reg.ETH_RX_DROP_CNT p.val (s.rxRing p.val f.bytes), Reg.ETH_STAT p.val,
          Reg.PG_IRQ_RAW (Page.ETH p.val)] [⟨Page.ETH p.val, 1, false, 0, s.now⟩]))) ∧
  (∀ (s : State) (p : Fin 2) (q : Fin 8) (raw : Int) (held : Bool), s.ethOn p.val = true → s.txWaits p.val q.val = true →
    s.txOnWire p.val q.val = true → (s.eff (Reg.ETH_TXQ p.val)).getLsbD q.val = false →
    Completes (.ethTxComplete p q raw held) s (fun t =>
      t.txHead p.val q.val = (s.txHead p.val q.val + 1) % 256 ∧
      t.rdN (Reg.ETH_TX_CNT p.val) = min (s.rdN (Reg.ETH_TX_CNT p.val) + 1) 0xFFFFFFFF)) ∧
  (∀ (s : State) (p : Fin 2) (q : Fin 8), s.ethOn p.val = true → s.txTimed p.val q.val = true → s.txBusy p.val = false →
    (∀ r, r < 8 → q.val < r → s.txTimed p.val r = true → s.txTime p.val r ≠ s.txTime p.val q.val) →
    s.now ≤ s.txTime p.val q.val →
    Completes (.launchTimeReached p q) s (fun t =>
      t.plant.sending = (8 * p.val + q.val) :: s.plant.sending ∧
      s.SameRegs t [Reg.QTZ_TIME_NS, Reg.QTZ_TIME_NS + 4, Reg.QTZ_TIME_FRAC] ∧
      t.now = (s.advance (s.txTime p.val q.val)).now ∧ s.SameMemory t)) ∧
  (∀ (s : State) (p : Fin 2), s.ethOn p.val = true → s.bit (Reg.ETH_STAT p.val) 0 = true →
    Completes (.ethLinkDown p) s (fun t =>
      t.bit (Reg.ETH_STAT p.val) 0 = false ∧
      t.rdN (Reg.ETH_LINK_DOWN_CNT p.val) = min (s.rdN (Reg.ETH_LINK_DOWN_CNT p.val) + 1) 0xFFFFFFFF ∧
      s.Raises t [Reg.ETH_STAT p.val, Reg.ETH_LINK_DOWN_CNT p.val, Reg.PG_IRQ_RAW (Page.ETH p.val)]
        [⟨Page.ETH p.val, 0, false, 0, s.now⟩])) ∧
  (∀ (s : State) (p : Fin 2) (rate : Fin 4) (an : Bool), s.ethOn p.val = true → s.bit (Reg.ETH_STAT p.val) 0 = false →
    Completes (.ethLinkUp p rate an) s (fun t =>
      t.bit (Reg.ETH_STAT p.val) 0 = true ∧ t.fld (Reg.ETH_STAT p.val) 2 1 = s.ethRate p.val rate.val ∧
      t.bit (Reg.ETH_STAT p.val) 3 = (an && s.ethNegotiates p.val) ∧
      s.Raises t [Reg.ETH_STAT p.val, Reg.PG_IRQ_RAW (Page.ETH p.val)] [⟨Page.ETH p.val, 0, false, 0, s.now⟩])) ∧
  (∀ (s : State) (ag : Agent) (p : Fin 2) (q : Fin 8) (v : Word), s.writable ag (Page.ETH p.val) = true →
    Completes (.ethRxrTail ag p q v) s (fun t =>
      t.rdN (Reg.ETH_RXR_TAIL p.val q.val) = v.toNat % 256 ∧ s.Writes t [Reg.ETH_RXR_TAIL p.val q.val]) ∧
    ((s.eff (Reg.ETH_TXQ p.val)).getLsbD q.val = false →
      Completes (.ethTxrTail ag p q v) s (fun t =>
        t.rdN (Reg.ETH_TXR_TAIL p.val q.val) = v.toNat % 256 ∧ s.SameRegs t [Reg.ETH_TXR_TAIL p.val q.val] ∧
        t = { s with regs := t.regs, plant := { s.plant with sending := t.plant.sending } } ∧
        (s.ethOn p.val = true → s.txBusy p.val = false → s.txHead p.val q.val ≠ v.toNat % 256 →
          (∀ r, r < 8 → (s.eff (Reg.ETH_TXQ p.val)).getLsbD r = false) → (∀ r, r < 8 → q.val < r → s.txWaits p.val r = false) →
          t.plant.sending = (8 * p.val + q.val) :: s.plant.sending))))

/-- The host's endpoint, the boot flash and JTAG (rules R339 to R344 and R347): BAR0 is the register pages, BAR2 cell memory within one
64-byte block; an access to no BAR is counted and reads all ones; a reset of the endpoint clears its registers and masks every vector; only
channel A writes the guarded regions of the flash, and a refusal raises an event; JTAG accepts an instruction by the device state. That a
reset masks every vector, and the page and bit of that event, are the model's choice (notes/assumptions/30.md and 31.md). -/
def Obligations.HostEndpoint : Prop :=
  (∀ (s : State) (o len : Nat) (bs : List (BitVec 8)), s.clocked = true → s.domOn 10 = true → o < 0x4000000 →
    (bs.length = 4 ∨ bs.length = 8) →
    exec (.barAccess 0 o len (some bs)) s =
      exec (.registerWrite .host (0x40000000 + o) (bs.length == 8) (BitVec.ofNat 64 (numOf bs))) s) ∧
  (∀ (s : State) (o len : Nat) (bs : List (BitVec 8)), s.clocked = true → s.domOn 10 = true → s.bit Reg.PCI_CTRL 8 = true → bs ≠ [] →
    o % 64 + bs.length ≤ 64 → inCell o bs.length = true → s.commits o bs.length = [] → s.sealedAt o bs.length = false → s.integ.ue = [] →
    Completes (.barAccess 2 o len (some bs)) s (fun t =>
      t.cell = s.cell.setN o bs.length (numOf bs) ∧ t = { s with cell := t.cell })) ∧
  (∀ (s : State) (o n : Nat), s.clocked = true → s.domOn 10 = true → 0 < n → n ≤ 512 → inCell o n = true → s.ueIn 0x80 o n = false →
    Completes (.barAccess 2 o n none) s (fun t =>
      t.plant.bus = s.cell.getN o n ∧ t = { s with plant := { s.plant with bus := t.plant.bus } })) ∧
  (∀ (s : State) (b : Fin 6) (o n : Nat), s.clocked = true → s.domOn 10 = true → b.val % 2 = 1 →
    Completes (.barAccess b o n none) s (fun t =>
      t.plant.bus = 256 ^ n - 1 ∧ t.rdN Reg.PCI_BAD_ACC_CNT = min (s.rdN Reg.PCI_BAD_ACC_CNT + 1) 0xFFFFFFFF ∧
      t.bit Reg.PCI_STAT 7 = true ∧ s.SameRegs t [Reg.PCI_BAD_ACC_CNT, Reg.PCI_STAT, Reg.PG_IRQ_RAW Page.PCI] ∧ s.SameMemory t)) ∧
  (∀ (s : State) (loss : Bool), s.clocked = true → s.domOn 10 = true →
    Completes (.pcieEndpointReset loss) s (fun t =>
      t.rdN Reg.PCI_STAT = 0 ∧ t.rd Reg.PCI_CTRL = regReset Reg.PCI_CTRL ∧ t.plant.msixMask = BitVec.allOnes 64 ∧ t.plant.msixTab = [] ∧
      t.rdN (if loss then Reg.PCI_LINK_DOWN_CNT else Reg.PCI_PERST_CNT) =
        min (s.rdN (if loss then Reg.PCI_LINK_DOWN_CNT else Reg.PCI_PERST_CNT) + 1) 0xFFFFFFFF ∧ s.SameMemory t)) ∧
  (∀ (s : State) (speed width : Fin 8), s.clocked = true → s.domOn 10 = true → s.bit Reg.PCI_STAT 0 = false → 1 ≤ speed.val →
    speed.val ≤ 4 → (width.val = 1 ∨ width.val = 2 ∨ width.val = 4) →
    Completes (.pcieLinkUp speed width) s (fun t =>
      t.bit Reg.PCI_STAT 0 = true ∧ t.fld Reg.PCI_STAT 3 1 = speed.val ∧ t.fld Reg.PCI_STAT 6 4 = width.val ∧
      ({ s with plant := { s.plant with endpoint := some ⟨0x1F3C, 0xC128, 0xB1, 0x088000⟩ } } : State).Raises t
        [Reg.PCI_STAT, Reg.PG_IRQ_RAW Page.PCI] [⟨Page.PCI, 0, false, 0, s.now⟩])) ∧
  (∀ (s : State) (a len : Nat) (bs : List (BitVec 8)), s.clocked = true →
    Completes (.flashWrite .channelA a len (some bs)) s (fun t =>
      t.flash = s.flash.setBytes a bs ∧ t = { s with flash := t.flash }) ∧
    (flashGuarded a bs.length = false →
      Completes (.flashWrite .host a len (some bs)) s (fun t =>
        t.flash = s.flash.setBytes a bs ∧ t = { s with flash := t.flash })) ∧
    (∀ e : Fin 64, Completes (.flashWrite (.engine e) a len (some bs)) s (fun t => t = s)) ∧
    (flashGuarded a bs.length = true →
      Completes (.flashWrite .host a len (some bs)) s (fun t =>
        s.Raises t [Reg.PG_IRQ_RAW Page.SAF] [⟨Page.SAF, 4, false, 0, s.now⟩]) ∧
      ∀ n, Completes (.flashWrite (.core n) a len (some bs)) s (fun t =>
        s.Raises t [Reg.PG_IRQ_RAW Page.SAF] [⟨Page.SAF, 4, false, 0, s.now⟩]))) ∧
  (∀ (s : State) (i : JtagInstr),
    (s.jtagOk i = true → Completes (.jtagInstruction i) s (fun t =>
      t.plant.jtag = i ∧ (i = .idcode → t.plant.idcode = some 0x1C128B4D) ∧
      t = { s with plant := { s.plant with jtag := t.plant.jtag, idcode := t.plant.idcode } })) ∧
    (s.jtagOk i = false → Completes (.jtagInstruction i) s (fun t =>
      t.plant.jtag = .bypass ∧ t.bit Reg.DBG_STAT 3 = true ∧
      t.rdN Reg.DBG_JTAG_REF_CNT = min (s.rdN Reg.DBG_JTAG_REF_CNT + 1) 0xFFFFFFFF ∧
      s.SameRegs t [Reg.DBG_STAT, Reg.DBG_JTAG_REF_CNT, Reg.PG_IRQ_RAW Page.DBG] ∧ s.SameMemory t)))

/-- The interlock and the roles of a twin pair (rules R353 to R355, R358, R361, R363, R364 and R366): a unit takes the released line and holds
it once the check finds no conflict, else retreats and retries; the lease's end gives it up with its rings; missing heartbeats are counted and
recognised; health, resignation, the standby's Flint test and the hold on paralleled outputs. -/
def Obligations.TwinInterlock : Prop :=
  (∀ s : State, s.twinEn = true → s.clocked = true → s.bit Reg.TWN_STAT 2 = false → s.peerHolds = false →
    ((s.wantsSwitch = true ∨ (s.wantsStart = true ∧ s.bit Reg.TWN_CTRL 2 = true)) →
      (s.twin.retry = none → Completes .interlockTake s (fun t =>
        t.bit Reg.TWN_STAT 2 = true ∧ t.twin.taking = some s.wantsSwitch ∧
        t = { s with regs := t.regs, twin := { s.twin with taking := t.twin.taking } } ∧ s.SameRegs t [Reg.TWN_STAT])) ∧
      (s.twin.retry ≠ none → Completes .interlockRetry s (fun t =>
        t.bit Reg.TWN_STAT 2 = true ∧ t.twin.taking = some s.wantsSwitch ∧ t.twin.retry = none ∧ s.SameRegs t [Reg.TWN_STAT]))) ∧
    (s.wantsStart = true → s.bit Reg.TWN_CTRL 2 = false → s.twin.retry = none →
      Completes .startWaitExpiry s (fun t =>
        t.bit Reg.TWN_STAT 2 = true ∧ t.twin.taking = some false ∧ s.SameRegs t [Reg.TWN_STAT]))) ∧
  (∀ (s : State) (sw : Bool), s.twin.taking = some sw →
    (s.peerHolds = false → Completes .interlockCheck s (fun t =>
      t.twin.taking = none ∧ t.twin.next = some 1 ∧ s.SameRegs t [] ∧ s.SameMemory t)) ∧
    (s.peerHolds = true → Completes .interlockCheck s (fun t =>
      t.bit Reg.TWN_STAT 2 = false ∧ t.rdN Reg.TWN_CONFLICT_CNT = min (s.rdN Reg.TWN_CONFLICT_CNT + 1) 0xFFFFFFFF ∧
      t.twin.taking = none ∧ t.twin.retry = some sw ∧ s.SameRegs t [Reg.TWN_STAT, Reg.TWN_CONFLICT_CNT] ∧ s.SameMemory t))) ∧
  (∀ s : State, s.twinEn = true → s.bit Reg.TWN_STAT 2 = true →
    Completes .leaseExpiry s (fun t =>
      t.bit Reg.TWN_STAT 2 = false ∧ t.twin.next = some 0 ∧ t.twin.taking = none ∧
      (∀ p, p < 4 → t.pstate p = if psClaim ≤ s.pstate p ∧ s.pstate p ≤ psCyclic then psForeign else s.pstate p) ∧ s.SameMemory t)) ∧
  (∀ s : State, s.clocked = true → s.twinEn = true → s.holdsLock = true →
    Completes (.ilkPeerChange true) s (fun t =>
      t.bit Reg.TWN_STAT 3 = true ∧ t.bit Reg.TWN_STAT 9 = true ∧ t.bit Reg.TWN_STAT 2 = true ∧
      t.rdN Reg.TWN_CONFLICT_CNT = min (s.rdN Reg.TWN_CONFLICT_CNT + 1) 0xFFFFFFFF ∧
      s.Raises t [Reg.TWN_STAT, Reg.TWN_CONFLICT_CNT, Reg.PG_IRQ_RAW Page.TWN] [⟨Page.TWN, 4, true, 0, s.now⟩])) ∧
  (∀ (s : State) (low : Bool), s.twinEn = false →
    Completes (.ilkPeerChange low) s (fun t => t.bit Reg.TWN_STAT 3 = low ∧ s.Writes t [Reg.TWN_STAT])) ∧
  (∀ s : State, s.clocked = true → s.twinEn = true → 2 ≤ s.role →
    Completes .heartbeatCheck s (fun t =>
      t.bit Reg.TWN_STAT 5 = s.twin.pinSeen ∧ t.bit Reg.TWN_STAT 6 = s.twin.linkSeen ∧ t.twin.pinSeen = false ∧ t.twin.linkSeen = false ∧
      t.twin.missRun = (if s.twin.pinSeen || s.twin.linkSeen then 0 else s.twin.missRun + 1) ∧
      t.rdN Reg.TWN_HB_MISS_PIN_CNT = min (s.rdN Reg.TWN_HB_MISS_PIN_CNT + b2n (!s.twin.pinSeen)) 0xFFFFFFFF ∧
      t.rdN Reg.TWN_HB_MISS_LINK_CNT = min (s.rdN Reg.TWN_HB_MISS_LINK_CNT + b2n (!s.twin.linkSeen)) 0xFFFFFFFF ∧
      (s.role = 2 → s.fld Reg.TWN_CTRL 4 3 = 2 → s.twin.pinSeen = false → s.twin.linkSeen = false →
        s.fld Reg.TWN_CTRL 11 8 ≤ s.twin.missRun + 1 → t.twin.recog = true) ∧ s.SameMemory t)) ∧
  (∀ s : State, s.clocked = true → s.twinEn = true →
    Completes .twinHbIToggle s (fun t =>
      t.twin.pinSeen = true ∧ t.twin.hbLast = some s.mono ∧
      t = { s with twin := { s.twin with pinSeen := true, hbLast := t.twin.hbLast } })) ∧
  (∀ (s : State) (w : Word), s.clocked = true → s.twinEn = true → s.role = 1 →
    Completes (.healthWord w) s (fun t =>
      t.rd Reg.TWN_PEER_HEALTH = w ∧
      s.Raises t [Reg.TWN_PEER_HEALTH, Reg.PG_IRQ_RAW Page.TWN]
        (if s.bit Reg.TWN_PEER_HEALTH 31 && !w.getLsbD 31 then [⟨Page.TWN, 1, true, 0, s.now⟩] else []))) ∧
  (∀ (s : State) (ag : Agent), s.writable ag Page.TWN = true → s.twinEn = true → s.role = 1 → s.holdsLock = true →
    s.bit Reg.TWN_PEER_HEALTH 31 = true → s.bit Reg.TWN_STAT 12 = false →
    Completes (.resign (.software ag)) s (fun t => t.twin.resign = true ∧ t = { s with twin := { s.twin with resign := true } })) ∧
  (∀ (s : State) (opened : Bool) (seed : BitVec 16), s.clocked = true → s.standby = true → s.field.vcc = true →
    Completes (.standbyFlintTest opened seed) s (fun t =>
      t.fld Reg.FLT_STAT 1 0 = 2 ∧ t.fld Reg.FLT_STAT 7 4 = 8 ∧ t.rdN Reg.FLT_GATE = 0 ∧ t.saf.flint.seed = seed.toNat ∧
      t.saf.flint.armPend = true ∧ s.SameMemory t)) ∧
  (∀ s : State, s.field.parUntil ≠ none →
    Completes .parallelHoldEnd s (fun t =>
      t.field.parUntil = none ∧ (∀ i, i < 16 → t.field.on.getLsbD i = t.dqOn i) ∧ s.SameRegs t [Reg.FIO_DQ_RB] ∧ s.SameMemory t))

/-- Mirroring and sync of a twin pair (rules R356 to R360 and R397): a SOLO unit that receives an image becomes SYNCING, a unit in shadow
takes the mirror of its present tick alone, with the state that the active unit enters, and the invalid blocks count; a heartbeat shows the lane; a sync starts with a
list that meets rule R360, ends caught up or fails; the peer's alarms are kept with PEER set. -/
def Obligations.TwinSync : Prop :=
  (∀ (s : State) (m : MirrorFrame) (i : SyncImage), s.clocked = true → s.twinEn = true → s.role = 0 →
    Completes (.mirrorFrame m (some i)) s (fun t => t.twin.syncing = true ∧ t.twin.next = some 3)) ∧
  (∀ (s : State) (m : MirrorFrame), s.clocked = true → s.twinEn = true → 2 ≤ s.role → m.tick = s.tick →
    Completes (.mirrorFrame m none) s (fun t =>
      t.twin.mirrored = m.complete ∧
      (∀ d, m.state.bind (fun c => devOf c.toNat) = some d → t.twin.lead = some d) ∧
      t.prof.master = m.masters.map (fun x => (x.1.val, (⟨x.2.1, x.2.2.1, x.2.2.2, 0⟩ : MasterSample))))) ∧
  (∀ (s : State) (m : MirrorFrame), m.tick ≠ s.tick → Completes (.mirrorFrame m none) s (fun t => t = s.laneErrors m.bad)) ∧
  (∀ (s : State) (m : MirrorFrame), s.clocked = true → s.twinEn = true → m.tick ≠ s.tick →
    Completes (.mirrorFrame m none) s (fun t =>
      t.rdN Reg.TWN_CRC_CNT = min (s.rdN Reg.TWN_CRC_CNT + m.bad) 0xFFFFFFFF ∧ t.twin = s.twin ∧
      s.SameRegs t [Reg.TWN_CRC_CNT] ∧ s.SameMemory t)) ∧
  (∀ (s : State) (b : TwinBeat), s.clocked = true → s.twinEn = true → 2 ≤ s.role →
    Completes (.twinHeartbeat b) s (fun t =>
      t.bit Reg.TWN_STAT 4 = true ∧ t.rd Reg.TWN_TOFS = BitVec.ofInt 32 b.offset ∧ t.twin.hbLast = some s.mono ∧
      t.twin.linkSeen = (s.twin.linkSeen || b.tick == s.tick) ∧ t.twin.same = b.same ∧
      (s.role = 2 → b.resign = true → t.twin.recog = true) ∧ s.SameMemory t)) ∧
  (∀ (s : State) (ag : Agent), s.writable ag Page.TWN = true → s.twinEn = true → s.role = 1 → s.twin.syncing = false →
    (s.regionListOk = true →
      Completes (.syncOp ag) s (fun t => t.twin.syncing = true ∧ t = { s with twin := { s.twin with syncing := true } })) ∧
    (s.regionListOk = false →
      Completes (.syncOp ag) s (fun t =>
        t.bit Reg.TWN_STAT 13 = true ∧ t.bit Reg.TWN_STAT 10 = true ∧ t.twin = s.twin ∧
        s.SameRegs t [Reg.TWN_STAT, Reg.PG_IRQ_RAW Page.TWN] ∧ s.SameMemory t))) ∧
  (∀ s : State, s.clocked = true → s.twinEn = true → s.role = 1 → s.twin.syncing = false → s.regionListOk = true →
    s.bit Reg.TWN_CTRL 7 = true → s.bit Reg.TWN_STAT 4 = true → s.bit Reg.TWN_PEER_HEALTH 0 = false →
    4 ≤ s.fld Reg.TWN_PEER_HEALTH 15 12 →
    Completes .autoSyncStart s (fun t => t.twin.syncing = true ∧ t = { s with twin := { s.twin with syncing := true } })) ∧
  (∀ s : State, s.clocked = true → s.twinEn = true → (s.role = 3 ∨ (s.role = 1 ∧ s.twin.syncing = true)) →
    Completes (.syncCaughtUp true) s (fun t =>
      t.twin.syncing = false ∧ (s.role = 3 → t.twin.next = some 2) ∧ (s.role = 1 → t.twin.next = s.twin.next) ∧
      t.rdN Reg.TWN_SYNC_CNT = min (s.rdN Reg.TWN_SYNC_CNT + 1) 0xFFFFFFFF ∧
      (⟨Page.TWN, 5, false, 0, s.now⟩ : Raising) ∈ t.evt.raisings ∧
      s.SameRegs t [Reg.TWN_SYNC_CNT, Reg.PG_IRQ_RAW Page.TWN] ∧ s.SameMemory t)) ∧
  (∀ s : State, s.clocked = true → s.role = 3 →
    Completes .syncTimeout s (fun t =>
      t.bit Reg.TWN_STAT 10 = true ∧ t.twin.syncing = false ∧ t.twin.next = some 0 ∧
      (⟨Page.TWN, 6, false, 0, s.now⟩ : Raising) ∈ t.evt.raisings ∧
      s.SameRegs t [Reg.TWN_STAT, Reg.PG_IRQ_RAW Page.TWN] ∧ s.SameMemory t)) ∧
  (∀ (s : State) (e : Fin 1024) (ws : List Word), s.clocked = true → s.twinEn = true → (s.eff Reg.EVT_CTRL).getLsbD 1 = true →
    s.integ.ue = [] → inCell ((s.eff Reg.EVT_PEER_BASE).toNat + 64 * e.val) 64 = true →
    Completes (.twinAlarmMirror e ws) s (fun t =>
      ∀ w, w < 16 → t.cell32 ((s.eff Reg.EVT_PEER_BASE).toNat + 64 * e.val + 4 * w) =
        (ws.getD w 0 ||| (if w = 1 then 0x200000 else 0)).toNat))

/-- Writes and reads of registers by address (rules R432, R435, R440, R441 and R466, shown on the SYS page, whose own conditions are
named; rule R174 on the SOL page, whose values wait for the next boundary; rule R437): an accepted configuration write stores the word
merged by its field types, counts and compares the page check; one that the state or PG_LOCK.CFG forbids is refused and counted; the low
word of a 64-bit register is held until its high word is written, and refused where the state forbids the write (rule R108); a read-clear
register returns to its reset value; a host access to no page completes without effect and counts. -/
def Obligations.RegisterAccess : Prop :=
  (∀ (s : State) (ag : Agent) (a : Nat) (v : BitVec 64) (x : Word), s.cfgWritable ag Page.SYS = true → s.configurable = true →
    0x40000100 ≤ a → a < 0x40000800 → a % 4 = 0 → s.merged a (v.extractLsb' 0 32) = some x → keeps s (s.wr a x) Page.SYS = true →
    Completes (.registerWrite ag a false v) s (fun t =>
      t.rd a = x ∧ t.rdN (Reg.PG_CFG_SEQ Page.SYS) = (s.rdN (Reg.PG_CFG_SEQ Page.SYS) + 1) % 4294967296 ∧
      t.bit (Reg.PG_STAT Page.SYS) 1 = decide (t.pageCrc Page.SYS ≠ t.rd (Reg.PG_CHECK Page.SYS)) ∧
      s.Writes t [a, Reg.PG_CFG_SEQ Page.SYS, Reg.PG_STAT Page.SYS])) ∧
  (∀ (s : State) (ag : Agent) (a : Nat) (v : BitVec 64) (x : Word), s.cfgWritable ag Page.SOL = true → s.configurable = true →
    0x40005100 ≤ a → a < 0x40005800 → a % 4 = 0 → s.merged a (v.extractLsb' 0 32) = some x → keeps s (s.wr a x) Page.SOL = true →
    Completes (.registerWrite ag a false v) s (fun t =>
      t.rd a = x ∧ t.eff a = s.eff a ∧ s.SameRegs t [a, Reg.PG_CFG_SEQ Page.SOL, Reg.PG_STAT Page.SOL])) ∧
  (∀ (s : State) (ag : Agent) (a : Nat) (v : BitVec 64), s.writable ag Page.SYS = true → 0x40000100 ≤ a → a < 0x40000800 → a % 4 = 0 →
    (s.configurable = false ∨ s.bit (Reg.PG_LOCK Page.SYS) 0 = true) →
    Completes (.registerWrite ag a false v) s (fun t =>
      t.rd a = s.rd a ∧ t.bit (Reg.PG_STAT Page.SYS) 4 = true ∧
      t.rdN (Reg.PG_ERR_CNT Page.SYS) = min (s.rdN (Reg.PG_ERR_CNT Page.SYS) + 1) 0xFFFFFFFF ∧
      s.Writes t [Reg.PG_STAT Page.SYS, Reg.PG_ERR_CNT Page.SYS])) ∧
  (∀ (s : State) (ag : Agent) (n : Fin 144) (v : BitVec 64), s.cfgWritable ag (Page.PRF n.val) = true →
    (s.configurable = true →
      Completes (.registerWrite ag (Reg.PRF_VMAX n.val) false v) s (fun t =>
        Tab.get (fun k => s.rd k) t.held64 (Reg.PRF_VMAX n.val) = v.extractLsb' 0 32 ∧ t = { s with held64 := t.held64 })) ∧
    (s.configurable = false →
      Completes (.registerWrite ag (Reg.PRF_VMAX n.val) false v) s (fun t =>
        t.bit (Reg.PRF_STAT n.val) 9 = true ∧ t.bit (Reg.PG_STAT (Page.PRF n.val)) 4 = true ∧
        t.rdN (Reg.PG_ERR_CNT (Page.PRF n.val)) = min (s.rdN (Reg.PG_ERR_CNT (Page.PRF n.val)) + 1) 0xFFFFFFFF ∧
        s.Writes t [Reg.PRF_STAT n.val, Reg.PG_STAT (Page.PRF n.val), Reg.PG_ERR_CNT (Page.PRF n.val)]))) ∧
  (∀ (s : State) (a : Nat) (v : BitVec 64), s.clocked = true → (a < 0x40000000 ∨ a % 4 ≠ 0 ∨ pageKind (pageOf a) = none) →
    Completes (.registerWrite .host a false v) s (fun t =>
      t.rdN Reg.PCI_BAD_ACC_CNT = min (s.rdN Reg.PCI_BAD_ACC_CNT + 1) 0xFFFFFFFF ∧ t.bit Reg.PCI_STAT 7 = true ∧
      s.Raises t [Reg.PCI_BAD_ACC_CNT, Reg.PCI_STAT, Reg.PG_IRQ_RAW Page.PCI] [⟨Page.PCI, 1, false, 0, s.now⟩])) ∧
  (∀ (s : State) (ag : Agent) (k : Fin 7), s.clocked = true → s.domOn 0 = true →
    Completes (.rcRead ag (Reg.QTZ_PH_MAX k.val)) s (fun t =>
      t.plant.bus = s.rdN (Reg.QTZ_PH_MAX k.val) ∧ t.rd (Reg.QTZ_PH_MAX k.val) = 0 ∧ s.SameRegs t [Reg.QTZ_PH_MAX k.val] ∧
      t = { s with regs := t.regs, plant := { s.plant with bus := t.plant.bus } })) ∧
  (∀ (s : State) (ag : Agent) (p : Nat), s.clocked = true → (pageKind p).isSome = true → s.domOn (domainOf p) = true →
    Completes (.rcRead ag (Reg.PG_IRQ_PEND p)) s (fun t =>
      t.plant.bus = (s.rd (Reg.PG_IRQ_RAW p) &&& s.rd (Reg.PG_IRQ_EN p)).toNat ∧
      t = { s with plant := { s.plant with bus := t.plant.bus } }))

/-- What a page does with a software write that does not reach it (rules R384, R437, R438 and R440): with the clocks gated it is not
performed; a parked crossing drops and counts it; without the right to the page, or under a lock that binds the agent, it is refused and
counted. -/
def Obligations.AccessRefused : Prop :=
  ∀ (s : State) (ag : Agent) (p : Nat) (v : Word), (pageKind p).isSome = true →
    (s.clocked = false → Completes (.pgIrqSet ag p v) s (fun t => t = s)) ∧
    (s.clocked = true → s.domOn (domainOf p) = false →
      Completes (.pgIrqSet ag p v) s (fun t =>
        t.rdN Reg.CDC_PARK_ACC_CNT = min (s.rdN Reg.CDC_PARK_ACC_CNT + 1) 0xFFFFFFFF ∧ s.Writes t [Reg.CDC_PARK_ACC_CNT])) ∧
    (s.clocked = true → s.domOn (domainOf p) = true →
      ((∃ e, ag = .engine e) ∨ (ag = .host ∧ p = Page.DBG) ∨ (ag = .host ∧ s.bit (Reg.PG_LOCK p) 1 = true) ∨
        (∃ n, ag = .core n ∧ s.bit (Reg.PG_LOCK p) 2 = true)) →
      Completes (.pgIrqSet ag p v) s (fun t =>
        t.bit (Reg.PG_STAT p) 4 = true ∧ t.rdN (Reg.PG_ERR_CNT p) = min (s.rdN (Reg.PG_ERR_CNT p) + 1) 0xFFFFFFFF ∧
        s.Writes t [Reg.PG_STAT p, Reg.PG_ERR_CNT p])) ∧
    (s.clocked = true → s.domOn (domainOf p) = true → ((∃ e, ag = .engine e) ∨ (ag = .host ∧ p = Page.DBG)) →
      Completes (.pgLock ag p v) s (fun t => t.rd (Reg.PG_LOCK p) = s.rd (Reg.PG_LOCK p) ∧ t.bit (Reg.PG_STAT p) 4 = true))

/-- Vectors (rule R443): a vector's part toward the host, or toward core An, is asserted exactly while a present page that is routed to it has
a PG_IRQ_PEND that is not 0; a page in an unpowered domain has none. -/
def Obligations.VectorsAsserted : Prop :=
  ∀ (s : State) (v : Nat),
    (s.hostVector v = true ↔ ∃ p, (pageKind p).isSome = true ∧ s.fld (Reg.PG_CTRL p) 5 0 = v ∧ s.irqPend p ≠ 0 ∧
      s.bit (Reg.PG_CTRL p) 8 = true) ∧
    (∀ n, n < 4 → (s.coreVector v n = true ↔ ∃ p, (pageKind p).isSome = true ∧ s.fld (Reg.PG_CTRL p) 5 0 = v ∧ s.irqPend p ≠ 0 ∧
      s.bit (Reg.PG_CTRL p) (12 + n) = true)) ∧
    (∀ p, s.irqPend p = if s.domOn (domainOf p) then s.rd (Reg.PG_IRQ_RAW p) &&& s.rd (Reg.PG_IRQ_EN p) else 0)

/-- The number formats of the solver (rule R160): a configuration with F_Z below 8 fails the page check, no F_X is above 31, and a write that
would bring F_Z below 8 is refused (rules R174 and R466). -/
def Obligations.SolverFormats : Prop :=
  (∀ s : State, s.fracSet oZ < 8 → (s.conds Page.SOL).all id = false) ∧
  (∀ (s : State) (obj : Nat), s.fracSet obj ≤ 31) ∧
  (∀ (s : State) (ag : Agent) (v : BitVec 64) (x : Word), s.cfgWritable ag Page.SOL = true → 8 ≤ s.fracSet oZ →
    s.merged (Reg.SOL_QF (oZ / 4)) (v.extractLsb' 0 32) = some x → (s.wr (Reg.SOL_QF (oZ / 4)) x).fracSet oZ < 8 →
    Completes (.registerWrite ag (Reg.SOL_QF (oZ / 4)) false v) s (fun t =>
      t.fracSet oZ = s.fracSet oZ ∧ t.bit Reg.SOL_STAT 7 = true ∧ t.bit (Reg.PG_STAT Page.SOL) 4 = true ∧
      s.Raises t [Reg.SOL_STAT, Reg.PG_STAT Page.SOL, Reg.PG_ERR_CNT Page.SOL, Reg.PG_IRQ_RAW Page.SOL]
        [⟨Page.SOL, 4, false, 0, s.now⟩]))
end

