-- ==== Sys2Proof/Laws/State.lean ====
section
/-! SUPPORT. What each named update of the state leaves as it was: one lemma for each field and each update. -/

namespace Sys2Proof.Machine

/-! ### Register writes leave every other field -/

/-! #### `wr` -/

@[simp] theorem State.wr_late (s : State) (a : Nat) (v : Word) :
    (s.wr a v).late = s.late := rfl

@[simp] theorem State.wr_held64 (s : State) (a : Nat) (v : Word) :
    (s.wr a v).held64 = s.held64 := rfl

@[simp] theorem State.wr_cell (s : State) (a : Nat) (v : Word) :
    (s.wr a v).cell = s.cell := rfl

@[simp] theorem State.wr_dram (s : State) (a : Nat) (v : Word) :
    (s.wr a v).dram = s.dram := rfl

@[simp] theorem State.wr_flash (s : State) (a : Nat) (v : Word) :
    (s.wr a v).flash = s.flash := rfl

@[simp] theorem State.wr_sys (s : State) (a : Nat) (v : Word) :
    (s.wr a v).sys = s.sys := rfl

@[simp] theorem State.wr_pwr (s : State) (a : Nat) (v : Word) :
    (s.wr a v).pwr = s.pwr := rfl

@[simp] theorem State.wr_qtz (s : State) (a : Nat) (v : Word) :
    (s.wr a v).qtz = s.qtz := rfl

@[simp] theorem State.wr_evt (s : State) (a : Nat) (v : Word) :
    (s.wr a v).evt = s.evt := rfl

@[simp] theorem State.wr_msix (s : State) (a : Nat) (v : Word) :
    (s.wr a v).msix = s.msix := rfl

@[simp] theorem State.wr_free (s : State) (a : Nat) (v : Word) :
    (s.wr a v).free = s.free := rfl

@[simp] theorem State.wr_pending (s : State) (a : Nat) (v : Word) :
    (s.wr a v).pending = s.pending := rfl

@[simp] theorem State.wr_integ (s : State) (a : Nat) (v : Word) :
    (s.wr a v).integ = s.integ := rfl

@[simp] theorem State.wr_eng (s : State) (a : Nat) (v : Word) :
    (s.wr a v).eng = s.eng := rfl

@[simp] theorem State.wr_code (s : State) (a : Nat) (v : Word) :
    (s.wr a v).code = s.code := rfl

@[simp] theorem State.wr_data (s : State) (a : Nat) (v : Word) :
    (s.wr a v).data = s.data := rfl

@[simp] theorem State.wr_dlr (s : State) (a : Nat) (v : Word) :
    (s.wr a v).dlr = s.dlr := rfl

@[simp] theorem State.wr_prof (s : State) (a : Nat) (v : Word) :
    (s.wr a v).prof = s.prof := rfl

@[simp] theorem State.wr_loop (s : State) (a : Nat) (v : Word) :
    (s.wr a v).loop = s.loop := rfl

@[simp] theorem State.wr_sol (s : State) (a : Nat) (v : Word) :
    (s.wr a v).sol = s.sol := rfl

@[simp] theorem State.wr_ssm (s : State) (a : Nat) (v : Word) :
    (s.wr a v).ssm = s.ssm := rfl

@[simp] theorem State.wr_saf (s : State) (a : Nat) (v : Word) :
    (s.wr a v).saf = s.saf := rfl

@[simp] theorem State.wr_ring (s : State) (a : Nat) (v : Word) :
    (s.wr a v).ring = s.ring := rfl

@[simp] theorem State.wr_fbk (s : State) (a : Nat) (v : Word) :
    (s.wr a v).fbk = s.fbk := rfl

@[simp] theorem State.wr_field (s : State) (a : Nat) (v : Word) :
    (s.wr a v).field = s.field := rfl

@[simp] theorem State.wr_plant (s : State) (a : Nat) (v : Word) :
    (s.wr a v).plant = s.plant := rfl

@[simp] theorem State.wr_twin (s : State) (a : Nat) (v : Word) :
    (s.wr a v).twin = s.twin := rfl

/-! #### `wrN` -/

@[simp] theorem State.wrN_late (s : State) (a : Nat) (n : Nat) :
    (s.wrN a n).late = s.late := rfl

@[simp] theorem State.wrN_held64 (s : State) (a : Nat) (n : Nat) :
    (s.wrN a n).held64 = s.held64 := rfl

@[simp] theorem State.wrN_cell (s : State) (a : Nat) (n : Nat) :
    (s.wrN a n).cell = s.cell := rfl

@[simp] theorem State.wrN_dram (s : State) (a : Nat) (n : Nat) :
    (s.wrN a n).dram = s.dram := rfl

@[simp] theorem State.wrN_flash (s : State) (a : Nat) (n : Nat) :
    (s.wrN a n).flash = s.flash := rfl

@[simp] theorem State.wrN_sys (s : State) (a : Nat) (n : Nat) :
    (s.wrN a n).sys = s.sys := rfl

@[simp] theorem State.wrN_pwr (s : State) (a : Nat) (n : Nat) :
    (s.wrN a n).pwr = s.pwr := rfl

@[simp] theorem State.wrN_qtz (s : State) (a : Nat) (n : Nat) :
    (s.wrN a n).qtz = s.qtz := rfl

@[simp] theorem State.wrN_evt (s : State) (a : Nat) (n : Nat) :
    (s.wrN a n).evt = s.evt := rfl

@[simp] theorem State.wrN_msix (s : State) (a : Nat) (n : Nat) :
    (s.wrN a n).msix = s.msix := rfl

@[simp] theorem State.wrN_free (s : State) (a : Nat) (n : Nat) :
    (s.wrN a n).free = s.free := rfl

@[simp] theorem State.wrN_pending (s : State) (a : Nat) (n : Nat) :
    (s.wrN a n).pending = s.pending := rfl

@[simp] theorem State.wrN_integ (s : State) (a : Nat) (n : Nat) :
    (s.wrN a n).integ = s.integ := rfl

@[simp] theorem State.wrN_eng (s : State) (a : Nat) (n : Nat) :
    (s.wrN a n).eng = s.eng := rfl

@[simp] theorem State.wrN_code (s : State) (a : Nat) (n : Nat) :
    (s.wrN a n).code = s.code := rfl

@[simp] theorem State.wrN_data (s : State) (a : Nat) (n : Nat) :
    (s.wrN a n).data = s.data := rfl

@[simp] theorem State.wrN_dlr (s : State) (a : Nat) (n : Nat) :
    (s.wrN a n).dlr = s.dlr := rfl

@[simp] theorem State.wrN_prof (s : State) (a : Nat) (n : Nat) :
    (s.wrN a n).prof = s.prof := rfl

@[simp] theorem State.wrN_loop (s : State) (a : Nat) (n : Nat) :
    (s.wrN a n).loop = s.loop := rfl

@[simp] theorem State.wrN_sol (s : State) (a : Nat) (n : Nat) :
    (s.wrN a n).sol = s.sol := rfl

@[simp] theorem State.wrN_ssm (s : State) (a : Nat) (n : Nat) :
    (s.wrN a n).ssm = s.ssm := rfl

@[simp] theorem State.wrN_saf (s : State) (a : Nat) (n : Nat) :
    (s.wrN a n).saf = s.saf := rfl

@[simp] theorem State.wrN_ring (s : State) (a : Nat) (n : Nat) :
    (s.wrN a n).ring = s.ring := rfl

@[simp] theorem State.wrN_fbk (s : State) (a : Nat) (n : Nat) :
    (s.wrN a n).fbk = s.fbk := rfl

@[simp] theorem State.wrN_field (s : State) (a : Nat) (n : Nat) :
    (s.wrN a n).field = s.field := rfl

@[simp] theorem State.wrN_plant (s : State) (a : Nat) (n : Nat) :
    (s.wrN a n).plant = s.plant := rfl

@[simp] theorem State.wrN_twin (s : State) (a : Nat) (n : Nat) :
    (s.wrN a n).twin = s.twin := rfl

/-! #### `wrI` -/

@[simp] theorem State.wrI_late (s : State) (a : Nat) (i : Int) :
    (s.wrI a i).late = s.late := rfl

@[simp] theorem State.wrI_held64 (s : State) (a : Nat) (i : Int) :
    (s.wrI a i).held64 = s.held64 := rfl

@[simp] theorem State.wrI_cell (s : State) (a : Nat) (i : Int) :
    (s.wrI a i).cell = s.cell := rfl

@[simp] theorem State.wrI_dram (s : State) (a : Nat) (i : Int) :
    (s.wrI a i).dram = s.dram := rfl

@[simp] theorem State.wrI_flash (s : State) (a : Nat) (i : Int) :
    (s.wrI a i).flash = s.flash := rfl

@[simp] theorem State.wrI_sys (s : State) (a : Nat) (i : Int) :
    (s.wrI a i).sys = s.sys := rfl

@[simp] theorem State.wrI_pwr (s : State) (a : Nat) (i : Int) :
    (s.wrI a i).pwr = s.pwr := rfl

@[simp] theorem State.wrI_qtz (s : State) (a : Nat) (i : Int) :
    (s.wrI a i).qtz = s.qtz := rfl

@[simp] theorem State.wrI_evt (s : State) (a : Nat) (i : Int) :
    (s.wrI a i).evt = s.evt := rfl

@[simp] theorem State.wrI_msix (s : State) (a : Nat) (i : Int) :
    (s.wrI a i).msix = s.msix := rfl

@[simp] theorem State.wrI_free (s : State) (a : Nat) (i : Int) :
    (s.wrI a i).free = s.free := rfl

@[simp] theorem State.wrI_pending (s : State) (a : Nat) (i : Int) :
    (s.wrI a i).pending = s.pending := rfl

@[simp] theorem State.wrI_integ (s : State) (a : Nat) (i : Int) :
    (s.wrI a i).integ = s.integ := rfl

@[simp] theorem State.wrI_eng (s : State) (a : Nat) (i : Int) :
    (s.wrI a i).eng = s.eng := rfl

@[simp] theorem State.wrI_code (s : State) (a : Nat) (i : Int) :
    (s.wrI a i).code = s.code := rfl

@[simp] theorem State.wrI_data (s : State) (a : Nat) (i : Int) :
    (s.wrI a i).data = s.data := rfl

@[simp] theorem State.wrI_dlr (s : State) (a : Nat) (i : Int) :
    (s.wrI a i).dlr = s.dlr := rfl

@[simp] theorem State.wrI_prof (s : State) (a : Nat) (i : Int) :
    (s.wrI a i).prof = s.prof := rfl

@[simp] theorem State.wrI_loop (s : State) (a : Nat) (i : Int) :
    (s.wrI a i).loop = s.loop := rfl

@[simp] theorem State.wrI_sol (s : State) (a : Nat) (i : Int) :
    (s.wrI a i).sol = s.sol := rfl

@[simp] theorem State.wrI_ssm (s : State) (a : Nat) (i : Int) :
    (s.wrI a i).ssm = s.ssm := rfl

@[simp] theorem State.wrI_saf (s : State) (a : Nat) (i : Int) :
    (s.wrI a i).saf = s.saf := rfl

@[simp] theorem State.wrI_ring (s : State) (a : Nat) (i : Int) :
    (s.wrI a i).ring = s.ring := rfl

@[simp] theorem State.wrI_fbk (s : State) (a : Nat) (i : Int) :
    (s.wrI a i).fbk = s.fbk := rfl

@[simp] theorem State.wrI_field (s : State) (a : Nat) (i : Int) :
    (s.wrI a i).field = s.field := rfl

@[simp] theorem State.wrI_plant (s : State) (a : Nat) (i : Int) :
    (s.wrI a i).plant = s.plant := rfl

@[simp] theorem State.wrI_twin (s : State) (a : Nat) (i : Int) :
    (s.wrI a i).twin = s.twin := rfl

/-! #### `setFld` -/

@[simp] theorem State.setFld_late (s : State) (a : Nat) (hi : Nat) (lo : Nat) (v : Nat) :
    (s.setFld a hi lo v).late = s.late := rfl

@[simp] theorem State.setFld_held64 (s : State) (a : Nat) (hi : Nat) (lo : Nat) (v : Nat) :
    (s.setFld a hi lo v).held64 = s.held64 := rfl

@[simp] theorem State.setFld_cell (s : State) (a : Nat) (hi : Nat) (lo : Nat) (v : Nat) :
    (s.setFld a hi lo v).cell = s.cell := rfl

@[simp] theorem State.setFld_dram (s : State) (a : Nat) (hi : Nat) (lo : Nat) (v : Nat) :
    (s.setFld a hi lo v).dram = s.dram := rfl

@[simp] theorem State.setFld_flash (s : State) (a : Nat) (hi : Nat) (lo : Nat) (v : Nat) :
    (s.setFld a hi lo v).flash = s.flash := rfl

@[simp] theorem State.setFld_sys (s : State) (a : Nat) (hi : Nat) (lo : Nat) (v : Nat) :
    (s.setFld a hi lo v).sys = s.sys := rfl

@[simp] theorem State.setFld_pwr (s : State) (a : Nat) (hi : Nat) (lo : Nat) (v : Nat) :
    (s.setFld a hi lo v).pwr = s.pwr := rfl

@[simp] theorem State.setFld_qtz (s : State) (a : Nat) (hi : Nat) (lo : Nat) (v : Nat) :
    (s.setFld a hi lo v).qtz = s.qtz := rfl

@[simp] theorem State.setFld_evt (s : State) (a : Nat) (hi : Nat) (lo : Nat) (v : Nat) :
    (s.setFld a hi lo v).evt = s.evt := rfl

@[simp] theorem State.setFld_msix (s : State) (a : Nat) (hi : Nat) (lo : Nat) (v : Nat) :
    (s.setFld a hi lo v).msix = s.msix := rfl

@[simp] theorem State.setFld_free (s : State) (a : Nat) (hi : Nat) (lo : Nat) (v : Nat) :
    (s.setFld a hi lo v).free = s.free := rfl

@[simp] theorem State.setFld_pending (s : State) (a : Nat) (hi : Nat) (lo : Nat) (v : Nat) :
    (s.setFld a hi lo v).pending = s.pending := rfl

@[simp] theorem State.setFld_integ (s : State) (a : Nat) (hi : Nat) (lo : Nat) (v : Nat) :
    (s.setFld a hi lo v).integ = s.integ := rfl

@[simp] theorem State.setFld_eng (s : State) (a : Nat) (hi : Nat) (lo : Nat) (v : Nat) :
    (s.setFld a hi lo v).eng = s.eng := rfl

@[simp] theorem State.setFld_code (s : State) (a : Nat) (hi : Nat) (lo : Nat) (v : Nat) :
    (s.setFld a hi lo v).code = s.code := rfl

@[simp] theorem State.setFld_data (s : State) (a : Nat) (hi : Nat) (lo : Nat) (v : Nat) :
    (s.setFld a hi lo v).data = s.data := rfl

@[simp] theorem State.setFld_dlr (s : State) (a : Nat) (hi : Nat) (lo : Nat) (v : Nat) :
    (s.setFld a hi lo v).dlr = s.dlr := rfl

@[simp] theorem State.setFld_prof (s : State) (a : Nat) (hi : Nat) (lo : Nat) (v : Nat) :
    (s.setFld a hi lo v).prof = s.prof := rfl

@[simp] theorem State.setFld_loop (s : State) (a : Nat) (hi : Nat) (lo : Nat) (v : Nat) :
    (s.setFld a hi lo v).loop = s.loop := rfl

@[simp] theorem State.setFld_sol (s : State) (a : Nat) (hi : Nat) (lo : Nat) (v : Nat) :
    (s.setFld a hi lo v).sol = s.sol := rfl

@[simp] theorem State.setFld_ssm (s : State) (a : Nat) (hi : Nat) (lo : Nat) (v : Nat) :
    (s.setFld a hi lo v).ssm = s.ssm := rfl

@[simp] theorem State.setFld_saf (s : State) (a : Nat) (hi : Nat) (lo : Nat) (v : Nat) :
    (s.setFld a hi lo v).saf = s.saf := rfl

@[simp] theorem State.setFld_ring (s : State) (a : Nat) (hi : Nat) (lo : Nat) (v : Nat) :
    (s.setFld a hi lo v).ring = s.ring := rfl

@[simp] theorem State.setFld_fbk (s : State) (a : Nat) (hi : Nat) (lo : Nat) (v : Nat) :
    (s.setFld a hi lo v).fbk = s.fbk := rfl

@[simp] theorem State.setFld_field (s : State) (a : Nat) (hi : Nat) (lo : Nat) (v : Nat) :
    (s.setFld a hi lo v).field = s.field := rfl

@[simp] theorem State.setFld_plant (s : State) (a : Nat) (hi : Nat) (lo : Nat) (v : Nat) :
    (s.setFld a hi lo v).plant = s.plant := rfl

@[simp] theorem State.setFld_twin (s : State) (a : Nat) (hi : Nat) (lo : Nat) (v : Nat) :
    (s.setFld a hi lo v).twin = s.twin := rfl

/-! #### `setBit` -/

@[simp] theorem State.setBit_late (s : State) (a : Nat) (i : Nat) (b : Bool) :
    (s.setBit a i b).late = s.late := rfl

@[simp] theorem State.setBit_held64 (s : State) (a : Nat) (i : Nat) (b : Bool) :
    (s.setBit a i b).held64 = s.held64 := rfl

@[simp] theorem State.setBit_cell (s : State) (a : Nat) (i : Nat) (b : Bool) :
    (s.setBit a i b).cell = s.cell := rfl

@[simp] theorem State.setBit_dram (s : State) (a : Nat) (i : Nat) (b : Bool) :
    (s.setBit a i b).dram = s.dram := rfl

@[simp] theorem State.setBit_flash (s : State) (a : Nat) (i : Nat) (b : Bool) :
    (s.setBit a i b).flash = s.flash := rfl

@[simp] theorem State.setBit_sys (s : State) (a : Nat) (i : Nat) (b : Bool) :
    (s.setBit a i b).sys = s.sys := rfl

@[simp] theorem State.setBit_pwr (s : State) (a : Nat) (i : Nat) (b : Bool) :
    (s.setBit a i b).pwr = s.pwr := rfl

@[simp] theorem State.setBit_qtz (s : State) (a : Nat) (i : Nat) (b : Bool) :
    (s.setBit a i b).qtz = s.qtz := rfl

@[simp] theorem State.setBit_evt (s : State) (a : Nat) (i : Nat) (b : Bool) :
    (s.setBit a i b).evt = s.evt := rfl

@[simp] theorem State.setBit_msix (s : State) (a : Nat) (i : Nat) (b : Bool) :
    (s.setBit a i b).msix = s.msix := rfl

@[simp] theorem State.setBit_free (s : State) (a : Nat) (i : Nat) (b : Bool) :
    (s.setBit a i b).free = s.free := rfl

@[simp] theorem State.setBit_pending (s : State) (a : Nat) (i : Nat) (b : Bool) :
    (s.setBit a i b).pending = s.pending := rfl

@[simp] theorem State.setBit_integ (s : State) (a : Nat) (i : Nat) (b : Bool) :
    (s.setBit a i b).integ = s.integ := rfl

@[simp] theorem State.setBit_eng (s : State) (a : Nat) (i : Nat) (b : Bool) :
    (s.setBit a i b).eng = s.eng := rfl

@[simp] theorem State.setBit_code (s : State) (a : Nat) (i : Nat) (b : Bool) :
    (s.setBit a i b).code = s.code := rfl

@[simp] theorem State.setBit_data (s : State) (a : Nat) (i : Nat) (b : Bool) :
    (s.setBit a i b).data = s.data := rfl

@[simp] theorem State.setBit_dlr (s : State) (a : Nat) (i : Nat) (b : Bool) :
    (s.setBit a i b).dlr = s.dlr := rfl

@[simp] theorem State.setBit_prof (s : State) (a : Nat) (i : Nat) (b : Bool) :
    (s.setBit a i b).prof = s.prof := rfl

@[simp] theorem State.setBit_loop (s : State) (a : Nat) (i : Nat) (b : Bool) :
    (s.setBit a i b).loop = s.loop := rfl

@[simp] theorem State.setBit_sol (s : State) (a : Nat) (i : Nat) (b : Bool) :
    (s.setBit a i b).sol = s.sol := rfl

@[simp] theorem State.setBit_ssm (s : State) (a : Nat) (i : Nat) (b : Bool) :
    (s.setBit a i b).ssm = s.ssm := rfl

@[simp] theorem State.setBit_saf (s : State) (a : Nat) (i : Nat) (b : Bool) :
    (s.setBit a i b).saf = s.saf := rfl

@[simp] theorem State.setBit_ring (s : State) (a : Nat) (i : Nat) (b : Bool) :
    (s.setBit a i b).ring = s.ring := rfl

@[simp] theorem State.setBit_fbk (s : State) (a : Nat) (i : Nat) (b : Bool) :
    (s.setBit a i b).fbk = s.fbk := rfl

@[simp] theorem State.setBit_field (s : State) (a : Nat) (i : Nat) (b : Bool) :
    (s.setBit a i b).field = s.field := rfl

@[simp] theorem State.setBit_plant (s : State) (a : Nat) (i : Nat) (b : Bool) :
    (s.setBit a i b).plant = s.plant := rfl

@[simp] theorem State.setBit_twin (s : State) (a : Nat) (i : Nat) (b : Bool) :
    (s.setBit a i b).twin = s.twin := rfl

/-! #### `orBits` -/

@[simp] theorem State.orBits_late (s : State) (a : Nat) (m : Word) :
    (s.orBits a m).late = s.late := rfl

@[simp] theorem State.orBits_held64 (s : State) (a : Nat) (m : Word) :
    (s.orBits a m).held64 = s.held64 := rfl

@[simp] theorem State.orBits_cell (s : State) (a : Nat) (m : Word) :
    (s.orBits a m).cell = s.cell := rfl

@[simp] theorem State.orBits_dram (s : State) (a : Nat) (m : Word) :
    (s.orBits a m).dram = s.dram := rfl

@[simp] theorem State.orBits_flash (s : State) (a : Nat) (m : Word) :
    (s.orBits a m).flash = s.flash := rfl

@[simp] theorem State.orBits_sys (s : State) (a : Nat) (m : Word) :
    (s.orBits a m).sys = s.sys := rfl

@[simp] theorem State.orBits_pwr (s : State) (a : Nat) (m : Word) :
    (s.orBits a m).pwr = s.pwr := rfl

@[simp] theorem State.orBits_qtz (s : State) (a : Nat) (m : Word) :
    (s.orBits a m).qtz = s.qtz := rfl

@[simp] theorem State.orBits_evt (s : State) (a : Nat) (m : Word) :
    (s.orBits a m).evt = s.evt := rfl

@[simp] theorem State.orBits_msix (s : State) (a : Nat) (m : Word) :
    (s.orBits a m).msix = s.msix := rfl

@[simp] theorem State.orBits_free (s : State) (a : Nat) (m : Word) :
    (s.orBits a m).free = s.free := rfl

@[simp] theorem State.orBits_pending (s : State) (a : Nat) (m : Word) :
    (s.orBits a m).pending = s.pending := rfl

@[simp] theorem State.orBits_integ (s : State) (a : Nat) (m : Word) :
    (s.orBits a m).integ = s.integ := rfl

@[simp] theorem State.orBits_eng (s : State) (a : Nat) (m : Word) :
    (s.orBits a m).eng = s.eng := rfl

@[simp] theorem State.orBits_code (s : State) (a : Nat) (m : Word) :
    (s.orBits a m).code = s.code := rfl

@[simp] theorem State.orBits_data (s : State) (a : Nat) (m : Word) :
    (s.orBits a m).data = s.data := rfl

@[simp] theorem State.orBits_dlr (s : State) (a : Nat) (m : Word) :
    (s.orBits a m).dlr = s.dlr := rfl

@[simp] theorem State.orBits_prof (s : State) (a : Nat) (m : Word) :
    (s.orBits a m).prof = s.prof := rfl

@[simp] theorem State.orBits_loop (s : State) (a : Nat) (m : Word) :
    (s.orBits a m).loop = s.loop := rfl

@[simp] theorem State.orBits_sol (s : State) (a : Nat) (m : Word) :
    (s.orBits a m).sol = s.sol := rfl

@[simp] theorem State.orBits_ssm (s : State) (a : Nat) (m : Word) :
    (s.orBits a m).ssm = s.ssm := rfl

@[simp] theorem State.orBits_saf (s : State) (a : Nat) (m : Word) :
    (s.orBits a m).saf = s.saf := rfl

@[simp] theorem State.orBits_ring (s : State) (a : Nat) (m : Word) :
    (s.orBits a m).ring = s.ring := rfl

@[simp] theorem State.orBits_fbk (s : State) (a : Nat) (m : Word) :
    (s.orBits a m).fbk = s.fbk := rfl

@[simp] theorem State.orBits_field (s : State) (a : Nat) (m : Word) :
    (s.orBits a m).field = s.field := rfl

@[simp] theorem State.orBits_plant (s : State) (a : Nat) (m : Word) :
    (s.orBits a m).plant = s.plant := rfl

@[simp] theorem State.orBits_twin (s : State) (a : Nat) (m : Word) :
    (s.orBits a m).twin = s.twin := rfl

/-! #### `clrBits` -/

@[simp] theorem State.clrBits_late (s : State) (a : Nat) (m : Word) :
    (s.clrBits a m).late = s.late := rfl

@[simp] theorem State.clrBits_held64 (s : State) (a : Nat) (m : Word) :
    (s.clrBits a m).held64 = s.held64 := rfl

@[simp] theorem State.clrBits_cell (s : State) (a : Nat) (m : Word) :
    (s.clrBits a m).cell = s.cell := rfl

@[simp] theorem State.clrBits_dram (s : State) (a : Nat) (m : Word) :
    (s.clrBits a m).dram = s.dram := rfl

@[simp] theorem State.clrBits_flash (s : State) (a : Nat) (m : Word) :
    (s.clrBits a m).flash = s.flash := rfl

@[simp] theorem State.clrBits_sys (s : State) (a : Nat) (m : Word) :
    (s.clrBits a m).sys = s.sys := rfl

@[simp] theorem State.clrBits_pwr (s : State) (a : Nat) (m : Word) :
    (s.clrBits a m).pwr = s.pwr := rfl

@[simp] theorem State.clrBits_qtz (s : State) (a : Nat) (m : Word) :
    (s.clrBits a m).qtz = s.qtz := rfl

@[simp] theorem State.clrBits_evt (s : State) (a : Nat) (m : Word) :
    (s.clrBits a m).evt = s.evt := rfl

@[simp] theorem State.clrBits_msix (s : State) (a : Nat) (m : Word) :
    (s.clrBits a m).msix = s.msix := rfl

@[simp] theorem State.clrBits_free (s : State) (a : Nat) (m : Word) :
    (s.clrBits a m).free = s.free := rfl

@[simp] theorem State.clrBits_pending (s : State) (a : Nat) (m : Word) :
    (s.clrBits a m).pending = s.pending := rfl

@[simp] theorem State.clrBits_integ (s : State) (a : Nat) (m : Word) :
    (s.clrBits a m).integ = s.integ := rfl

@[simp] theorem State.clrBits_eng (s : State) (a : Nat) (m : Word) :
    (s.clrBits a m).eng = s.eng := rfl

@[simp] theorem State.clrBits_code (s : State) (a : Nat) (m : Word) :
    (s.clrBits a m).code = s.code := rfl

@[simp] theorem State.clrBits_data (s : State) (a : Nat) (m : Word) :
    (s.clrBits a m).data = s.data := rfl

@[simp] theorem State.clrBits_dlr (s : State) (a : Nat) (m : Word) :
    (s.clrBits a m).dlr = s.dlr := rfl

@[simp] theorem State.clrBits_prof (s : State) (a : Nat) (m : Word) :
    (s.clrBits a m).prof = s.prof := rfl

@[simp] theorem State.clrBits_loop (s : State) (a : Nat) (m : Word) :
    (s.clrBits a m).loop = s.loop := rfl

@[simp] theorem State.clrBits_sol (s : State) (a : Nat) (m : Word) :
    (s.clrBits a m).sol = s.sol := rfl

@[simp] theorem State.clrBits_ssm (s : State) (a : Nat) (m : Word) :
    (s.clrBits a m).ssm = s.ssm := rfl

@[simp] theorem State.clrBits_saf (s : State) (a : Nat) (m : Word) :
    (s.clrBits a m).saf = s.saf := rfl

@[simp] theorem State.clrBits_ring (s : State) (a : Nat) (m : Word) :
    (s.clrBits a m).ring = s.ring := rfl

@[simp] theorem State.clrBits_fbk (s : State) (a : Nat) (m : Word) :
    (s.clrBits a m).fbk = s.fbk := rfl

@[simp] theorem State.clrBits_field (s : State) (a : Nat) (m : Word) :
    (s.clrBits a m).field = s.field := rfl

@[simp] theorem State.clrBits_plant (s : State) (a : Nat) (m : Word) :
    (s.clrBits a m).plant = s.plant := rfl

@[simp] theorem State.clrBits_twin (s : State) (a : Nat) (m : Word) :
    (s.clrBits a m).twin = s.twin := rfl

/-! #### `add` -/

@[simp] theorem State.add_late (s : State) (a : Nat) (n : Nat) :
    (s.add a n).late = s.late := rfl

@[simp] theorem State.add_held64 (s : State) (a : Nat) (n : Nat) :
    (s.add a n).held64 = s.held64 := rfl

@[simp] theorem State.add_cell (s : State) (a : Nat) (n : Nat) :
    (s.add a n).cell = s.cell := rfl

@[simp] theorem State.add_dram (s : State) (a : Nat) (n : Nat) :
    (s.add a n).dram = s.dram := rfl

@[simp] theorem State.add_flash (s : State) (a : Nat) (n : Nat) :
    (s.add a n).flash = s.flash := rfl

@[simp] theorem State.add_sys (s : State) (a : Nat) (n : Nat) :
    (s.add a n).sys = s.sys := rfl

@[simp] theorem State.add_pwr (s : State) (a : Nat) (n : Nat) :
    (s.add a n).pwr = s.pwr := rfl

@[simp] theorem State.add_qtz (s : State) (a : Nat) (n : Nat) :
    (s.add a n).qtz = s.qtz := rfl

@[simp] theorem State.add_evt (s : State) (a : Nat) (n : Nat) :
    (s.add a n).evt = s.evt := rfl

@[simp] theorem State.add_msix (s : State) (a : Nat) (n : Nat) :
    (s.add a n).msix = s.msix := rfl

@[simp] theorem State.add_free (s : State) (a : Nat) (n : Nat) :
    (s.add a n).free = s.free := rfl

@[simp] theorem State.add_pending (s : State) (a : Nat) (n : Nat) :
    (s.add a n).pending = s.pending := rfl

@[simp] theorem State.add_integ (s : State) (a : Nat) (n : Nat) :
    (s.add a n).integ = s.integ := rfl

@[simp] theorem State.add_eng (s : State) (a : Nat) (n : Nat) :
    (s.add a n).eng = s.eng := rfl

@[simp] theorem State.add_code (s : State) (a : Nat) (n : Nat) :
    (s.add a n).code = s.code := rfl

@[simp] theorem State.add_data (s : State) (a : Nat) (n : Nat) :
    (s.add a n).data = s.data := rfl

@[simp] theorem State.add_dlr (s : State) (a : Nat) (n : Nat) :
    (s.add a n).dlr = s.dlr := rfl

@[simp] theorem State.add_prof (s : State) (a : Nat) (n : Nat) :
    (s.add a n).prof = s.prof := rfl

@[simp] theorem State.add_loop (s : State) (a : Nat) (n : Nat) :
    (s.add a n).loop = s.loop := rfl

@[simp] theorem State.add_sol (s : State) (a : Nat) (n : Nat) :
    (s.add a n).sol = s.sol := rfl

@[simp] theorem State.add_ssm (s : State) (a : Nat) (n : Nat) :
    (s.add a n).ssm = s.ssm := rfl

@[simp] theorem State.add_saf (s : State) (a : Nat) (n : Nat) :
    (s.add a n).saf = s.saf := rfl

@[simp] theorem State.add_ring (s : State) (a : Nat) (n : Nat) :
    (s.add a n).ring = s.ring := rfl

@[simp] theorem State.add_fbk (s : State) (a : Nat) (n : Nat) :
    (s.add a n).fbk = s.fbk := rfl

@[simp] theorem State.add_field (s : State) (a : Nat) (n : Nat) :
    (s.add a n).field = s.field := rfl

@[simp] theorem State.add_plant (s : State) (a : Nat) (n : Nat) :
    (s.add a n).plant = s.plant := rfl

@[simp] theorem State.add_twin (s : State) (a : Nat) (n : Nat) :
    (s.add a n).twin = s.twin := rfl

/-! #### `inc` -/

@[simp] theorem State.inc_late (s : State) (a : Nat) :
    (s.inc a).late = s.late := rfl

@[simp] theorem State.inc_held64 (s : State) (a : Nat) :
    (s.inc a).held64 = s.held64 := rfl

@[simp] theorem State.inc_cell (s : State) (a : Nat) :
    (s.inc a).cell = s.cell := rfl

@[simp] theorem State.inc_dram (s : State) (a : Nat) :
    (s.inc a).dram = s.dram := rfl

@[simp] theorem State.inc_flash (s : State) (a : Nat) :
    (s.inc a).flash = s.flash := rfl

@[simp] theorem State.inc_sys (s : State) (a : Nat) :
    (s.inc a).sys = s.sys := rfl

@[simp] theorem State.inc_pwr (s : State) (a : Nat) :
    (s.inc a).pwr = s.pwr := rfl

@[simp] theorem State.inc_qtz (s : State) (a : Nat) :
    (s.inc a).qtz = s.qtz := rfl

@[simp] theorem State.inc_evt (s : State) (a : Nat) :
    (s.inc a).evt = s.evt := rfl

@[simp] theorem State.inc_msix (s : State) (a : Nat) :
    (s.inc a).msix = s.msix := rfl

@[simp] theorem State.inc_free (s : State) (a : Nat) :
    (s.inc a).free = s.free := rfl

@[simp] theorem State.inc_pending (s : State) (a : Nat) :
    (s.inc a).pending = s.pending := rfl

@[simp] theorem State.inc_integ (s : State) (a : Nat) :
    (s.inc a).integ = s.integ := rfl

@[simp] theorem State.inc_eng (s : State) (a : Nat) :
    (s.inc a).eng = s.eng := rfl

@[simp] theorem State.inc_code (s : State) (a : Nat) :
    (s.inc a).code = s.code := rfl

@[simp] theorem State.inc_data (s : State) (a : Nat) :
    (s.inc a).data = s.data := rfl

@[simp] theorem State.inc_dlr (s : State) (a : Nat) :
    (s.inc a).dlr = s.dlr := rfl

@[simp] theorem State.inc_prof (s : State) (a : Nat) :
    (s.inc a).prof = s.prof := rfl

@[simp] theorem State.inc_loop (s : State) (a : Nat) :
    (s.inc a).loop = s.loop := rfl

@[simp] theorem State.inc_sol (s : State) (a : Nat) :
    (s.inc a).sol = s.sol := rfl

@[simp] theorem State.inc_ssm (s : State) (a : Nat) :
    (s.inc a).ssm = s.ssm := rfl

@[simp] theorem State.inc_saf (s : State) (a : Nat) :
    (s.inc a).saf = s.saf := rfl

@[simp] theorem State.inc_ring (s : State) (a : Nat) :
    (s.inc a).ring = s.ring := rfl

@[simp] theorem State.inc_fbk (s : State) (a : Nat) :
    (s.inc a).fbk = s.fbk := rfl

@[simp] theorem State.inc_field (s : State) (a : Nat) :
    (s.inc a).field = s.field := rfl

@[simp] theorem State.inc_plant (s : State) (a : Nat) :
    (s.inc a).plant = s.plant := rfl

@[simp] theorem State.inc_twin (s : State) (a : Nat) :
    (s.inc a).twin = s.twin := rfl

/-! #### `wr64` -/

@[simp] theorem State.wr64_late (s : State) (a : Nat) (n : Nat) :
    (s.wr64 a n).late = s.late := rfl

@[simp] theorem State.wr64_held64 (s : State) (a : Nat) (n : Nat) :
    (s.wr64 a n).held64 = s.held64 := rfl

@[simp] theorem State.wr64_cell (s : State) (a : Nat) (n : Nat) :
    (s.wr64 a n).cell = s.cell := rfl

@[simp] theorem State.wr64_dram (s : State) (a : Nat) (n : Nat) :
    (s.wr64 a n).dram = s.dram := rfl

@[simp] theorem State.wr64_flash (s : State) (a : Nat) (n : Nat) :
    (s.wr64 a n).flash = s.flash := rfl

@[simp] theorem State.wr64_sys (s : State) (a : Nat) (n : Nat) :
    (s.wr64 a n).sys = s.sys := rfl

@[simp] theorem State.wr64_pwr (s : State) (a : Nat) (n : Nat) :
    (s.wr64 a n).pwr = s.pwr := rfl

@[simp] theorem State.wr64_qtz (s : State) (a : Nat) (n : Nat) :
    (s.wr64 a n).qtz = s.qtz := rfl

@[simp] theorem State.wr64_evt (s : State) (a : Nat) (n : Nat) :
    (s.wr64 a n).evt = s.evt := rfl

@[simp] theorem State.wr64_msix (s : State) (a : Nat) (n : Nat) :
    (s.wr64 a n).msix = s.msix := rfl

@[simp] theorem State.wr64_free (s : State) (a : Nat) (n : Nat) :
    (s.wr64 a n).free = s.free := rfl

@[simp] theorem State.wr64_pending (s : State) (a : Nat) (n : Nat) :
    (s.wr64 a n).pending = s.pending := rfl

@[simp] theorem State.wr64_integ (s : State) (a : Nat) (n : Nat) :
    (s.wr64 a n).integ = s.integ := rfl

@[simp] theorem State.wr64_eng (s : State) (a : Nat) (n : Nat) :
    (s.wr64 a n).eng = s.eng := rfl

@[simp] theorem State.wr64_code (s : State) (a : Nat) (n : Nat) :
    (s.wr64 a n).code = s.code := rfl

@[simp] theorem State.wr64_data (s : State) (a : Nat) (n : Nat) :
    (s.wr64 a n).data = s.data := rfl

@[simp] theorem State.wr64_dlr (s : State) (a : Nat) (n : Nat) :
    (s.wr64 a n).dlr = s.dlr := rfl

@[simp] theorem State.wr64_prof (s : State) (a : Nat) (n : Nat) :
    (s.wr64 a n).prof = s.prof := rfl

@[simp] theorem State.wr64_loop (s : State) (a : Nat) (n : Nat) :
    (s.wr64 a n).loop = s.loop := rfl

@[simp] theorem State.wr64_sol (s : State) (a : Nat) (n : Nat) :
    (s.wr64 a n).sol = s.sol := rfl

@[simp] theorem State.wr64_ssm (s : State) (a : Nat) (n : Nat) :
    (s.wr64 a n).ssm = s.ssm := rfl

@[simp] theorem State.wr64_saf (s : State) (a : Nat) (n : Nat) :
    (s.wr64 a n).saf = s.saf := rfl

@[simp] theorem State.wr64_ring (s : State) (a : Nat) (n : Nat) :
    (s.wr64 a n).ring = s.ring := rfl

@[simp] theorem State.wr64_fbk (s : State) (a : Nat) (n : Nat) :
    (s.wr64 a n).fbk = s.fbk := rfl

@[simp] theorem State.wr64_field (s : State) (a : Nat) (n : Nat) :
    (s.wr64 a n).field = s.field := rfl

@[simp] theorem State.wr64_plant (s : State) (a : Nat) (n : Nat) :
    (s.wr64 a n).plant = s.plant := rfl

@[simp] theorem State.wr64_twin (s : State) (a : Nat) (n : Nat) :
    (s.wr64 a n).twin = s.twin := rfl

/-! #### `wrI64` -/

@[simp] theorem State.wrI64_late (s : State) (a : Nat) (i : Int) :
    (s.wrI64 a i).late = s.late := rfl

@[simp] theorem State.wrI64_held64 (s : State) (a : Nat) (i : Int) :
    (s.wrI64 a i).held64 = s.held64 := rfl

@[simp] theorem State.wrI64_cell (s : State) (a : Nat) (i : Int) :
    (s.wrI64 a i).cell = s.cell := rfl

@[simp] theorem State.wrI64_dram (s : State) (a : Nat) (i : Int) :
    (s.wrI64 a i).dram = s.dram := rfl

@[simp] theorem State.wrI64_flash (s : State) (a : Nat) (i : Int) :
    (s.wrI64 a i).flash = s.flash := rfl

@[simp] theorem State.wrI64_sys (s : State) (a : Nat) (i : Int) :
    (s.wrI64 a i).sys = s.sys := rfl

@[simp] theorem State.wrI64_pwr (s : State) (a : Nat) (i : Int) :
    (s.wrI64 a i).pwr = s.pwr := rfl

@[simp] theorem State.wrI64_qtz (s : State) (a : Nat) (i : Int) :
    (s.wrI64 a i).qtz = s.qtz := rfl

@[simp] theorem State.wrI64_evt (s : State) (a : Nat) (i : Int) :
    (s.wrI64 a i).evt = s.evt := rfl

@[simp] theorem State.wrI64_msix (s : State) (a : Nat) (i : Int) :
    (s.wrI64 a i).msix = s.msix := rfl

@[simp] theorem State.wrI64_free (s : State) (a : Nat) (i : Int) :
    (s.wrI64 a i).free = s.free := rfl

@[simp] theorem State.wrI64_pending (s : State) (a : Nat) (i : Int) :
    (s.wrI64 a i).pending = s.pending := rfl

@[simp] theorem State.wrI64_integ (s : State) (a : Nat) (i : Int) :
    (s.wrI64 a i).integ = s.integ := rfl

@[simp] theorem State.wrI64_eng (s : State) (a : Nat) (i : Int) :
    (s.wrI64 a i).eng = s.eng := rfl

@[simp] theorem State.wrI64_code (s : State) (a : Nat) (i : Int) :
    (s.wrI64 a i).code = s.code := rfl

@[simp] theorem State.wrI64_data (s : State) (a : Nat) (i : Int) :
    (s.wrI64 a i).data = s.data := rfl

@[simp] theorem State.wrI64_dlr (s : State) (a : Nat) (i : Int) :
    (s.wrI64 a i).dlr = s.dlr := rfl

@[simp] theorem State.wrI64_prof (s : State) (a : Nat) (i : Int) :
    (s.wrI64 a i).prof = s.prof := rfl

@[simp] theorem State.wrI64_loop (s : State) (a : Nat) (i : Int) :
    (s.wrI64 a i).loop = s.loop := rfl

@[simp] theorem State.wrI64_sol (s : State) (a : Nat) (i : Int) :
    (s.wrI64 a i).sol = s.sol := rfl

@[simp] theorem State.wrI64_ssm (s : State) (a : Nat) (i : Int) :
    (s.wrI64 a i).ssm = s.ssm := rfl

@[simp] theorem State.wrI64_saf (s : State) (a : Nat) (i : Int) :
    (s.wrI64 a i).saf = s.saf := rfl

@[simp] theorem State.wrI64_ring (s : State) (a : Nat) (i : Int) :
    (s.wrI64 a i).ring = s.ring := rfl

@[simp] theorem State.wrI64_fbk (s : State) (a : Nat) (i : Int) :
    (s.wrI64 a i).fbk = s.fbk := rfl

@[simp] theorem State.wrI64_field (s : State) (a : Nat) (i : Int) :
    (s.wrI64 a i).field = s.field := rfl

@[simp] theorem State.wrI64_plant (s : State) (a : Nat) (i : Int) :
    (s.wrI64 a i).plant = s.plant := rfl

@[simp] theorem State.wrI64_twin (s : State) (a : Nat) (i : Int) :
    (s.wrI64 a i).twin = s.twin := rfl

/-! ### Updates of one unit leave every other unit -/

/-! #### `holdLow` -/

@[simp] theorem State.holdLow_regs (s : State) (a : Nat) (v : Word) :
    (s.holdLow a v).regs = s.regs := rfl

@[simp] theorem State.holdLow_late (s : State) (a : Nat) (v : Word) :
    (s.holdLow a v).late = s.late := rfl

@[simp] theorem State.holdLow_cell (s : State) (a : Nat) (v : Word) :
    (s.holdLow a v).cell = s.cell := rfl

@[simp] theorem State.holdLow_dram (s : State) (a : Nat) (v : Word) :
    (s.holdLow a v).dram = s.dram := rfl

@[simp] theorem State.holdLow_flash (s : State) (a : Nat) (v : Word) :
    (s.holdLow a v).flash = s.flash := rfl

@[simp] theorem State.holdLow_sys (s : State) (a : Nat) (v : Word) :
    (s.holdLow a v).sys = s.sys := rfl

@[simp] theorem State.holdLow_pwr (s : State) (a : Nat) (v : Word) :
    (s.holdLow a v).pwr = s.pwr := rfl

@[simp] theorem State.holdLow_qtz (s : State) (a : Nat) (v : Word) :
    (s.holdLow a v).qtz = s.qtz := rfl

@[simp] theorem State.holdLow_evt (s : State) (a : Nat) (v : Word) :
    (s.holdLow a v).evt = s.evt := rfl

@[simp] theorem State.holdLow_msix (s : State) (a : Nat) (v : Word) :
    (s.holdLow a v).msix = s.msix := rfl

@[simp] theorem State.holdLow_free (s : State) (a : Nat) (v : Word) :
    (s.holdLow a v).free = s.free := rfl

@[simp] theorem State.holdLow_pending (s : State) (a : Nat) (v : Word) :
    (s.holdLow a v).pending = s.pending := rfl

@[simp] theorem State.holdLow_integ (s : State) (a : Nat) (v : Word) :
    (s.holdLow a v).integ = s.integ := rfl

@[simp] theorem State.holdLow_eng (s : State) (a : Nat) (v : Word) :
    (s.holdLow a v).eng = s.eng := rfl

@[simp] theorem State.holdLow_code (s : State) (a : Nat) (v : Word) :
    (s.holdLow a v).code = s.code := rfl

@[simp] theorem State.holdLow_data (s : State) (a : Nat) (v : Word) :
    (s.holdLow a v).data = s.data := rfl

@[simp] theorem State.holdLow_dlr (s : State) (a : Nat) (v : Word) :
    (s.holdLow a v).dlr = s.dlr := rfl

@[simp] theorem State.holdLow_prof (s : State) (a : Nat) (v : Word) :
    (s.holdLow a v).prof = s.prof := rfl

@[simp] theorem State.holdLow_loop (s : State) (a : Nat) (v : Word) :
    (s.holdLow a v).loop = s.loop := rfl

@[simp] theorem State.holdLow_sol (s : State) (a : Nat) (v : Word) :
    (s.holdLow a v).sol = s.sol := rfl

@[simp] theorem State.holdLow_ssm (s : State) (a : Nat) (v : Word) :
    (s.holdLow a v).ssm = s.ssm := rfl

@[simp] theorem State.holdLow_saf (s : State) (a : Nat) (v : Word) :
    (s.holdLow a v).saf = s.saf := rfl

@[simp] theorem State.holdLow_ring (s : State) (a : Nat) (v : Word) :
    (s.holdLow a v).ring = s.ring := rfl

@[simp] theorem State.holdLow_fbk (s : State) (a : Nat) (v : Word) :
    (s.holdLow a v).fbk = s.fbk := rfl

@[simp] theorem State.holdLow_field (s : State) (a : Nat) (v : Word) :
    (s.holdLow a v).field = s.field := rfl

@[simp] theorem State.holdLow_plant (s : State) (a : Nat) (v : Word) :
    (s.holdLow a v).plant = s.plant := rfl

@[simp] theorem State.holdLow_twin (s : State) (a : Nat) (v : Word) :
    (s.holdLow a v).twin = s.twin := rfl

/-! #### `setCtxW` -/

@[simp] theorem State.setCtxW_regs (s : State) (t : Nat) (w : Nat) (v : Word) :
    (s.setCtxW t w v).regs = s.regs := rfl

@[simp] theorem State.setCtxW_late (s : State) (t : Nat) (w : Nat) (v : Word) :
    (s.setCtxW t w v).late = s.late := rfl

@[simp] theorem State.setCtxW_held64 (s : State) (t : Nat) (w : Nat) (v : Word) :
    (s.setCtxW t w v).held64 = s.held64 := rfl

@[simp] theorem State.setCtxW_cell (s : State) (t : Nat) (w : Nat) (v : Word) :
    (s.setCtxW t w v).cell = s.cell := rfl

@[simp] theorem State.setCtxW_dram (s : State) (t : Nat) (w : Nat) (v : Word) :
    (s.setCtxW t w v).dram = s.dram := rfl

@[simp] theorem State.setCtxW_flash (s : State) (t : Nat) (w : Nat) (v : Word) :
    (s.setCtxW t w v).flash = s.flash := rfl

@[simp] theorem State.setCtxW_sys (s : State) (t : Nat) (w : Nat) (v : Word) :
    (s.setCtxW t w v).sys = s.sys := rfl

@[simp] theorem State.setCtxW_pwr (s : State) (t : Nat) (w : Nat) (v : Word) :
    (s.setCtxW t w v).pwr = s.pwr := rfl

@[simp] theorem State.setCtxW_qtz (s : State) (t : Nat) (w : Nat) (v : Word) :
    (s.setCtxW t w v).qtz = s.qtz := rfl

@[simp] theorem State.setCtxW_evt (s : State) (t : Nat) (w : Nat) (v : Word) :
    (s.setCtxW t w v).evt = s.evt := rfl

@[simp] theorem State.setCtxW_msix (s : State) (t : Nat) (w : Nat) (v : Word) :
    (s.setCtxW t w v).msix = s.msix := rfl

@[simp] theorem State.setCtxW_free (s : State) (t : Nat) (w : Nat) (v : Word) :
    (s.setCtxW t w v).free = s.free := rfl

@[simp] theorem State.setCtxW_pending (s : State) (t : Nat) (w : Nat) (v : Word) :
    (s.setCtxW t w v).pending = s.pending := rfl

@[simp] theorem State.setCtxW_integ (s : State) (t : Nat) (w : Nat) (v : Word) :
    (s.setCtxW t w v).integ = s.integ := rfl

@[simp] theorem State.setCtxW_eng (s : State) (t : Nat) (w : Nat) (v : Word) :
    (s.setCtxW t w v).eng = s.eng := rfl

@[simp] theorem State.setCtxW_code (s : State) (t : Nat) (w : Nat) (v : Word) :
    (s.setCtxW t w v).code = s.code := rfl

@[simp] theorem State.setCtxW_data (s : State) (t : Nat) (w : Nat) (v : Word) :
    (s.setCtxW t w v).data = s.data := rfl

@[simp] theorem State.setCtxW_prof (s : State) (t : Nat) (w : Nat) (v : Word) :
    (s.setCtxW t w v).prof = s.prof := rfl

@[simp] theorem State.setCtxW_loop (s : State) (t : Nat) (w : Nat) (v : Word) :
    (s.setCtxW t w v).loop = s.loop := rfl

@[simp] theorem State.setCtxW_sol (s : State) (t : Nat) (w : Nat) (v : Word) :
    (s.setCtxW t w v).sol = s.sol := rfl

@[simp] theorem State.setCtxW_ssm (s : State) (t : Nat) (w : Nat) (v : Word) :
    (s.setCtxW t w v).ssm = s.ssm := rfl

@[simp] theorem State.setCtxW_saf (s : State) (t : Nat) (w : Nat) (v : Word) :
    (s.setCtxW t w v).saf = s.saf := rfl

@[simp] theorem State.setCtxW_ring (s : State) (t : Nat) (w : Nat) (v : Word) :
    (s.setCtxW t w v).ring = s.ring := rfl

@[simp] theorem State.setCtxW_fbk (s : State) (t : Nat) (w : Nat) (v : Word) :
    (s.setCtxW t w v).fbk = s.fbk := rfl

@[simp] theorem State.setCtxW_field (s : State) (t : Nat) (w : Nat) (v : Word) :
    (s.setCtxW t w v).field = s.field := rfl

@[simp] theorem State.setCtxW_plant (s : State) (t : Nat) (w : Nat) (v : Word) :
    (s.setCtxW t w v).plant = s.plant := rfl

@[simp] theorem State.setCtxW_twin (s : State) (t : Nat) (w : Nat) (v : Word) :
    (s.setCtxW t w v).twin = s.twin := rfl

/-! #### `setTaskRt` -/

@[simp] theorem State.setTaskRt_regs (s : State) (t : Nat) (r : DlrTask) :
    (s.setTaskRt t r).regs = s.regs := rfl

@[simp] theorem State.setTaskRt_late (s : State) (t : Nat) (r : DlrTask) :
    (s.setTaskRt t r).late = s.late := rfl

@[simp] theorem State.setTaskRt_held64 (s : State) (t : Nat) (r : DlrTask) :
    (s.setTaskRt t r).held64 = s.held64 := rfl

@[simp] theorem State.setTaskRt_cell (s : State) (t : Nat) (r : DlrTask) :
    (s.setTaskRt t r).cell = s.cell := rfl

@[simp] theorem State.setTaskRt_dram (s : State) (t : Nat) (r : DlrTask) :
    (s.setTaskRt t r).dram = s.dram := rfl

@[simp] theorem State.setTaskRt_flash (s : State) (t : Nat) (r : DlrTask) :
    (s.setTaskRt t r).flash = s.flash := rfl

@[simp] theorem State.setTaskRt_sys (s : State) (t : Nat) (r : DlrTask) :
    (s.setTaskRt t r).sys = s.sys := rfl

@[simp] theorem State.setTaskRt_pwr (s : State) (t : Nat) (r : DlrTask) :
    (s.setTaskRt t r).pwr = s.pwr := rfl

@[simp] theorem State.setTaskRt_qtz (s : State) (t : Nat) (r : DlrTask) :
    (s.setTaskRt t r).qtz = s.qtz := rfl

@[simp] theorem State.setTaskRt_evt (s : State) (t : Nat) (r : DlrTask) :
    (s.setTaskRt t r).evt = s.evt := rfl

@[simp] theorem State.setTaskRt_msix (s : State) (t : Nat) (r : DlrTask) :
    (s.setTaskRt t r).msix = s.msix := rfl

@[simp] theorem State.setTaskRt_free (s : State) (t : Nat) (r : DlrTask) :
    (s.setTaskRt t r).free = s.free := rfl

@[simp] theorem State.setTaskRt_pending (s : State) (t : Nat) (r : DlrTask) :
    (s.setTaskRt t r).pending = s.pending := rfl

@[simp] theorem State.setTaskRt_integ (s : State) (t : Nat) (r : DlrTask) :
    (s.setTaskRt t r).integ = s.integ := rfl

@[simp] theorem State.setTaskRt_eng (s : State) (t : Nat) (r : DlrTask) :
    (s.setTaskRt t r).eng = s.eng := rfl

@[simp] theorem State.setTaskRt_code (s : State) (t : Nat) (r : DlrTask) :
    (s.setTaskRt t r).code = s.code := rfl

@[simp] theorem State.setTaskRt_data (s : State) (t : Nat) (r : DlrTask) :
    (s.setTaskRt t r).data = s.data := rfl

@[simp] theorem State.setTaskRt_prof (s : State) (t : Nat) (r : DlrTask) :
    (s.setTaskRt t r).prof = s.prof := rfl

@[simp] theorem State.setTaskRt_loop (s : State) (t : Nat) (r : DlrTask) :
    (s.setTaskRt t r).loop = s.loop := rfl

@[simp] theorem State.setTaskRt_sol (s : State) (t : Nat) (r : DlrTask) :
    (s.setTaskRt t r).sol = s.sol := rfl

@[simp] theorem State.setTaskRt_ssm (s : State) (t : Nat) (r : DlrTask) :
    (s.setTaskRt t r).ssm = s.ssm := rfl

@[simp] theorem State.setTaskRt_saf (s : State) (t : Nat) (r : DlrTask) :
    (s.setTaskRt t r).saf = s.saf := rfl

@[simp] theorem State.setTaskRt_ring (s : State) (t : Nat) (r : DlrTask) :
    (s.setTaskRt t r).ring = s.ring := rfl

@[simp] theorem State.setTaskRt_fbk (s : State) (t : Nat) (r : DlrTask) :
    (s.setTaskRt t r).fbk = s.fbk := rfl

@[simp] theorem State.setTaskRt_field (s : State) (t : Nat) (r : DlrTask) :
    (s.setTaskRt t r).field = s.field := rfl

@[simp] theorem State.setTaskRt_plant (s : State) (t : Nat) (r : DlrTask) :
    (s.setTaskRt t r).plant = s.plant := rfl

@[simp] theorem State.setTaskRt_twin (s : State) (t : Nat) (r : DlrTask) :
    (s.setTaskRt t r).twin = s.twin := rfl

/-! #### `setEng` -/

@[simp] theorem State.setEng_regs (s : State) (e : Nat) (g : Eng) :
    (s.setEng e g).regs = s.regs := rfl

@[simp] theorem State.setEng_late (s : State) (e : Nat) (g : Eng) :
    (s.setEng e g).late = s.late := rfl

@[simp] theorem State.setEng_held64 (s : State) (e : Nat) (g : Eng) :
    (s.setEng e g).held64 = s.held64 := rfl

@[simp] theorem State.setEng_cell (s : State) (e : Nat) (g : Eng) :
    (s.setEng e g).cell = s.cell := rfl

@[simp] theorem State.setEng_dram (s : State) (e : Nat) (g : Eng) :
    (s.setEng e g).dram = s.dram := rfl

@[simp] theorem State.setEng_flash (s : State) (e : Nat) (g : Eng) :
    (s.setEng e g).flash = s.flash := rfl

@[simp] theorem State.setEng_sys (s : State) (e : Nat) (g : Eng) :
    (s.setEng e g).sys = s.sys := rfl

@[simp] theorem State.setEng_pwr (s : State) (e : Nat) (g : Eng) :
    (s.setEng e g).pwr = s.pwr := rfl

@[simp] theorem State.setEng_qtz (s : State) (e : Nat) (g : Eng) :
    (s.setEng e g).qtz = s.qtz := rfl

@[simp] theorem State.setEng_evt (s : State) (e : Nat) (g : Eng) :
    (s.setEng e g).evt = s.evt := rfl

@[simp] theorem State.setEng_msix (s : State) (e : Nat) (g : Eng) :
    (s.setEng e g).msix = s.msix := rfl

@[simp] theorem State.setEng_free (s : State) (e : Nat) (g : Eng) :
    (s.setEng e g).free = s.free := rfl

@[simp] theorem State.setEng_pending (s : State) (e : Nat) (g : Eng) :
    (s.setEng e g).pending = s.pending := rfl

@[simp] theorem State.setEng_integ (s : State) (e : Nat) (g : Eng) :
    (s.setEng e g).integ = s.integ := rfl

@[simp] theorem State.setEng_code (s : State) (e : Nat) (g : Eng) :
    (s.setEng e g).code = s.code := rfl

@[simp] theorem State.setEng_data (s : State) (e : Nat) (g : Eng) :
    (s.setEng e g).data = s.data := rfl

@[simp] theorem State.setEng_dlr (s : State) (e : Nat) (g : Eng) :
    (s.setEng e g).dlr = s.dlr := rfl

@[simp] theorem State.setEng_prof (s : State) (e : Nat) (g : Eng) :
    (s.setEng e g).prof = s.prof := rfl

@[simp] theorem State.setEng_loop (s : State) (e : Nat) (g : Eng) :
    (s.setEng e g).loop = s.loop := rfl

@[simp] theorem State.setEng_sol (s : State) (e : Nat) (g : Eng) :
    (s.setEng e g).sol = s.sol := rfl

@[simp] theorem State.setEng_ssm (s : State) (e : Nat) (g : Eng) :
    (s.setEng e g).ssm = s.ssm := rfl

@[simp] theorem State.setEng_saf (s : State) (e : Nat) (g : Eng) :
    (s.setEng e g).saf = s.saf := rfl

@[simp] theorem State.setEng_ring (s : State) (e : Nat) (g : Eng) :
    (s.setEng e g).ring = s.ring := rfl

@[simp] theorem State.setEng_fbk (s : State) (e : Nat) (g : Eng) :
    (s.setEng e g).fbk = s.fbk := rfl

@[simp] theorem State.setEng_field (s : State) (e : Nat) (g : Eng) :
    (s.setEng e g).field = s.field := rfl

@[simp] theorem State.setEng_plant (s : State) (e : Nat) (g : Eng) :
    (s.setEng e g).plant = s.plant := rfl

@[simp] theorem State.setEng_twin (s : State) (e : Nat) (g : Eng) :
    (s.setEng e g).twin = s.twin := rfl

/-! #### `setRp` -/

@[simp] theorem State.setRp_regs (s : State) (p : Nat) (x : RingPort) :
    (s.setRp p x).regs = s.regs := rfl

@[simp] theorem State.setRp_late (s : State) (p : Nat) (x : RingPort) :
    (s.setRp p x).late = s.late := rfl

@[simp] theorem State.setRp_held64 (s : State) (p : Nat) (x : RingPort) :
    (s.setRp p x).held64 = s.held64 := rfl

@[simp] theorem State.setRp_cell (s : State) (p : Nat) (x : RingPort) :
    (s.setRp p x).cell = s.cell := rfl

@[simp] theorem State.setRp_dram (s : State) (p : Nat) (x : RingPort) :
    (s.setRp p x).dram = s.dram := rfl

@[simp] theorem State.setRp_flash (s : State) (p : Nat) (x : RingPort) :
    (s.setRp p x).flash = s.flash := rfl

@[simp] theorem State.setRp_sys (s : State) (p : Nat) (x : RingPort) :
    (s.setRp p x).sys = s.sys := rfl

@[simp] theorem State.setRp_pwr (s : State) (p : Nat) (x : RingPort) :
    (s.setRp p x).pwr = s.pwr := rfl

@[simp] theorem State.setRp_qtz (s : State) (p : Nat) (x : RingPort) :
    (s.setRp p x).qtz = s.qtz := rfl

@[simp] theorem State.setRp_evt (s : State) (p : Nat) (x : RingPort) :
    (s.setRp p x).evt = s.evt := rfl

@[simp] theorem State.setRp_msix (s : State) (p : Nat) (x : RingPort) :
    (s.setRp p x).msix = s.msix := rfl

@[simp] theorem State.setRp_free (s : State) (p : Nat) (x : RingPort) :
    (s.setRp p x).free = s.free := rfl

@[simp] theorem State.setRp_pending (s : State) (p : Nat) (x : RingPort) :
    (s.setRp p x).pending = s.pending := rfl

@[simp] theorem State.setRp_integ (s : State) (p : Nat) (x : RingPort) :
    (s.setRp p x).integ = s.integ := rfl

@[simp] theorem State.setRp_eng (s : State) (p : Nat) (x : RingPort) :
    (s.setRp p x).eng = s.eng := rfl

@[simp] theorem State.setRp_code (s : State) (p : Nat) (x : RingPort) :
    (s.setRp p x).code = s.code := rfl

@[simp] theorem State.setRp_data (s : State) (p : Nat) (x : RingPort) :
    (s.setRp p x).data = s.data := rfl

@[simp] theorem State.setRp_dlr (s : State) (p : Nat) (x : RingPort) :
    (s.setRp p x).dlr = s.dlr := rfl

@[simp] theorem State.setRp_prof (s : State) (p : Nat) (x : RingPort) :
    (s.setRp p x).prof = s.prof := rfl

@[simp] theorem State.setRp_loop (s : State) (p : Nat) (x : RingPort) :
    (s.setRp p x).loop = s.loop := rfl

@[simp] theorem State.setRp_sol (s : State) (p : Nat) (x : RingPort) :
    (s.setRp p x).sol = s.sol := rfl

@[simp] theorem State.setRp_ssm (s : State) (p : Nat) (x : RingPort) :
    (s.setRp p x).ssm = s.ssm := rfl

@[simp] theorem State.setRp_saf (s : State) (p : Nat) (x : RingPort) :
    (s.setRp p x).saf = s.saf := rfl

@[simp] theorem State.setRp_fbk (s : State) (p : Nat) (x : RingPort) :
    (s.setRp p x).fbk = s.fbk := rfl

@[simp] theorem State.setRp_field (s : State) (p : Nat) (x : RingPort) :
    (s.setRp p x).field = s.field := rfl

@[simp] theorem State.setRp_plant (s : State) (p : Nat) (x : RingPort) :
    (s.setRp p x).plant = s.plant := rfl

@[simp] theorem State.setRp_twin (s : State) (p : Nat) (x : RingPort) :
    (s.setRp p x).twin = s.twin := rfl

/-! #### `setAxis` -/

@[simp] theorem State.setAxis_regs (s : State) (a : Nat) (x : Axis) :
    (s.setAxis a x).regs = s.regs := rfl

@[simp] theorem State.setAxis_late (s : State) (a : Nat) (x : Axis) :
    (s.setAxis a x).late = s.late := rfl

@[simp] theorem State.setAxis_held64 (s : State) (a : Nat) (x : Axis) :
    (s.setAxis a x).held64 = s.held64 := rfl

@[simp] theorem State.setAxis_cell (s : State) (a : Nat) (x : Axis) :
    (s.setAxis a x).cell = s.cell := rfl

@[simp] theorem State.setAxis_dram (s : State) (a : Nat) (x : Axis) :
    (s.setAxis a x).dram = s.dram := rfl

@[simp] theorem State.setAxis_flash (s : State) (a : Nat) (x : Axis) :
    (s.setAxis a x).flash = s.flash := rfl

@[simp] theorem State.setAxis_sys (s : State) (a : Nat) (x : Axis) :
    (s.setAxis a x).sys = s.sys := rfl

@[simp] theorem State.setAxis_pwr (s : State) (a : Nat) (x : Axis) :
    (s.setAxis a x).pwr = s.pwr := rfl

@[simp] theorem State.setAxis_qtz (s : State) (a : Nat) (x : Axis) :
    (s.setAxis a x).qtz = s.qtz := rfl

@[simp] theorem State.setAxis_evt (s : State) (a : Nat) (x : Axis) :
    (s.setAxis a x).evt = s.evt := rfl

@[simp] theorem State.setAxis_msix (s : State) (a : Nat) (x : Axis) :
    (s.setAxis a x).msix = s.msix := rfl

@[simp] theorem State.setAxis_free (s : State) (a : Nat) (x : Axis) :
    (s.setAxis a x).free = s.free := rfl

@[simp] theorem State.setAxis_pending (s : State) (a : Nat) (x : Axis) :
    (s.setAxis a x).pending = s.pending := rfl

@[simp] theorem State.setAxis_integ (s : State) (a : Nat) (x : Axis) :
    (s.setAxis a x).integ = s.integ := rfl

@[simp] theorem State.setAxis_eng (s : State) (a : Nat) (x : Axis) :
    (s.setAxis a x).eng = s.eng := rfl

@[simp] theorem State.setAxis_code (s : State) (a : Nat) (x : Axis) :
    (s.setAxis a x).code = s.code := rfl

@[simp] theorem State.setAxis_data (s : State) (a : Nat) (x : Axis) :
    (s.setAxis a x).data = s.data := rfl

@[simp] theorem State.setAxis_dlr (s : State) (a : Nat) (x : Axis) :
    (s.setAxis a x).dlr = s.dlr := rfl

@[simp] theorem State.setAxis_loop (s : State) (a : Nat) (x : Axis) :
    (s.setAxis a x).loop = s.loop := rfl

@[simp] theorem State.setAxis_sol (s : State) (a : Nat) (x : Axis) :
    (s.setAxis a x).sol = s.sol := rfl

@[simp] theorem State.setAxis_ssm (s : State) (a : Nat) (x : Axis) :
    (s.setAxis a x).ssm = s.ssm := rfl

@[simp] theorem State.setAxis_saf (s : State) (a : Nat) (x : Axis) :
    (s.setAxis a x).saf = s.saf := rfl

@[simp] theorem State.setAxis_ring (s : State) (a : Nat) (x : Axis) :
    (s.setAxis a x).ring = s.ring := rfl

@[simp] theorem State.setAxis_fbk (s : State) (a : Nat) (x : Axis) :
    (s.setAxis a x).fbk = s.fbk := rfl

@[simp] theorem State.setAxis_field (s : State) (a : Nat) (x : Axis) :
    (s.setAxis a x).field = s.field := rfl

@[simp] theorem State.setAxis_plant (s : State) (a : Nat) (x : Axis) :
    (s.setAxis a x).plant = s.plant := rfl

@[simp] theorem State.setAxis_twin (s : State) (a : Nat) (x : Axis) :
    (s.setAxis a x).twin = s.twin := rfl

/-! #### `setGroupRt` -/

@[simp] theorem State.setGroupRt_regs (s : State) (g : Nat) (x : GroupRt) :
    (s.setGroupRt g x).regs = s.regs := rfl

@[simp] theorem State.setGroupRt_late (s : State) (g : Nat) (x : GroupRt) :
    (s.setGroupRt g x).late = s.late := rfl

@[simp] theorem State.setGroupRt_held64 (s : State) (g : Nat) (x : GroupRt) :
    (s.setGroupRt g x).held64 = s.held64 := rfl

@[simp] theorem State.setGroupRt_cell (s : State) (g : Nat) (x : GroupRt) :
    (s.setGroupRt g x).cell = s.cell := rfl

@[simp] theorem State.setGroupRt_dram (s : State) (g : Nat) (x : GroupRt) :
    (s.setGroupRt g x).dram = s.dram := rfl

@[simp] theorem State.setGroupRt_flash (s : State) (g : Nat) (x : GroupRt) :
    (s.setGroupRt g x).flash = s.flash := rfl

@[simp] theorem State.setGroupRt_sys (s : State) (g : Nat) (x : GroupRt) :
    (s.setGroupRt g x).sys = s.sys := rfl

@[simp] theorem State.setGroupRt_pwr (s : State) (g : Nat) (x : GroupRt) :
    (s.setGroupRt g x).pwr = s.pwr := rfl

@[simp] theorem State.setGroupRt_qtz (s : State) (g : Nat) (x : GroupRt) :
    (s.setGroupRt g x).qtz = s.qtz := rfl

@[simp] theorem State.setGroupRt_evt (s : State) (g : Nat) (x : GroupRt) :
    (s.setGroupRt g x).evt = s.evt := rfl

@[simp] theorem State.setGroupRt_msix (s : State) (g : Nat) (x : GroupRt) :
    (s.setGroupRt g x).msix = s.msix := rfl

@[simp] theorem State.setGroupRt_free (s : State) (g : Nat) (x : GroupRt) :
    (s.setGroupRt g x).free = s.free := rfl

@[simp] theorem State.setGroupRt_pending (s : State) (g : Nat) (x : GroupRt) :
    (s.setGroupRt g x).pending = s.pending := rfl

@[simp] theorem State.setGroupRt_integ (s : State) (g : Nat) (x : GroupRt) :
    (s.setGroupRt g x).integ = s.integ := rfl

@[simp] theorem State.setGroupRt_eng (s : State) (g : Nat) (x : GroupRt) :
    (s.setGroupRt g x).eng = s.eng := rfl

@[simp] theorem State.setGroupRt_code (s : State) (g : Nat) (x : GroupRt) :
    (s.setGroupRt g x).code = s.code := rfl

@[simp] theorem State.setGroupRt_data (s : State) (g : Nat) (x : GroupRt) :
    (s.setGroupRt g x).data = s.data := rfl

@[simp] theorem State.setGroupRt_dlr (s : State) (g : Nat) (x : GroupRt) :
    (s.setGroupRt g x).dlr = s.dlr := rfl

@[simp] theorem State.setGroupRt_loop (s : State) (g : Nat) (x : GroupRt) :
    (s.setGroupRt g x).loop = s.loop := rfl

@[simp] theorem State.setGroupRt_sol (s : State) (g : Nat) (x : GroupRt) :
    (s.setGroupRt g x).sol = s.sol := rfl

@[simp] theorem State.setGroupRt_ssm (s : State) (g : Nat) (x : GroupRt) :
    (s.setGroupRt g x).ssm = s.ssm := rfl

@[simp] theorem State.setGroupRt_saf (s : State) (g : Nat) (x : GroupRt) :
    (s.setGroupRt g x).saf = s.saf := rfl

@[simp] theorem State.setGroupRt_ring (s : State) (g : Nat) (x : GroupRt) :
    (s.setGroupRt g x).ring = s.ring := rfl

@[simp] theorem State.setGroupRt_fbk (s : State) (g : Nat) (x : GroupRt) :
    (s.setGroupRt g x).fbk = s.fbk := rfl

@[simp] theorem State.setGroupRt_field (s : State) (g : Nat) (x : GroupRt) :
    (s.setGroupRt g x).field = s.field := rfl

@[simp] theorem State.setGroupRt_plant (s : State) (g : Nat) (x : GroupRt) :
    (s.setGroupRt g x).plant = s.plant := rfl

@[simp] theorem State.setGroupRt_twin (s : State) (g : Nat) (x : GroupRt) :
    (s.setGroupRt g x).twin = s.twin := rfl

/-! #### `setLoopRt` -/

@[simp] theorem State.setLoopRt_regs (s : State) (a : Nat) (x : LoopRt) :
    (s.setLoopRt a x).regs = s.regs := rfl

@[simp] theorem State.setLoopRt_late (s : State) (a : Nat) (x : LoopRt) :
    (s.setLoopRt a x).late = s.late := rfl

@[simp] theorem State.setLoopRt_held64 (s : State) (a : Nat) (x : LoopRt) :
    (s.setLoopRt a x).held64 = s.held64 := rfl

@[simp] theorem State.setLoopRt_cell (s : State) (a : Nat) (x : LoopRt) :
    (s.setLoopRt a x).cell = s.cell := rfl

@[simp] theorem State.setLoopRt_dram (s : State) (a : Nat) (x : LoopRt) :
    (s.setLoopRt a x).dram = s.dram := rfl

@[simp] theorem State.setLoopRt_flash (s : State) (a : Nat) (x : LoopRt) :
    (s.setLoopRt a x).flash = s.flash := rfl

@[simp] theorem State.setLoopRt_sys (s : State) (a : Nat) (x : LoopRt) :
    (s.setLoopRt a x).sys = s.sys := rfl

@[simp] theorem State.setLoopRt_pwr (s : State) (a : Nat) (x : LoopRt) :
    (s.setLoopRt a x).pwr = s.pwr := rfl

@[simp] theorem State.setLoopRt_qtz (s : State) (a : Nat) (x : LoopRt) :
    (s.setLoopRt a x).qtz = s.qtz := rfl

@[simp] theorem State.setLoopRt_evt (s : State) (a : Nat) (x : LoopRt) :
    (s.setLoopRt a x).evt = s.evt := rfl

@[simp] theorem State.setLoopRt_msix (s : State) (a : Nat) (x : LoopRt) :
    (s.setLoopRt a x).msix = s.msix := rfl

@[simp] theorem State.setLoopRt_free (s : State) (a : Nat) (x : LoopRt) :
    (s.setLoopRt a x).free = s.free := rfl

@[simp] theorem State.setLoopRt_pending (s : State) (a : Nat) (x : LoopRt) :
    (s.setLoopRt a x).pending = s.pending := rfl

@[simp] theorem State.setLoopRt_integ (s : State) (a : Nat) (x : LoopRt) :
    (s.setLoopRt a x).integ = s.integ := rfl

@[simp] theorem State.setLoopRt_eng (s : State) (a : Nat) (x : LoopRt) :
    (s.setLoopRt a x).eng = s.eng := rfl

@[simp] theorem State.setLoopRt_code (s : State) (a : Nat) (x : LoopRt) :
    (s.setLoopRt a x).code = s.code := rfl

@[simp] theorem State.setLoopRt_data (s : State) (a : Nat) (x : LoopRt) :
    (s.setLoopRt a x).data = s.data := rfl

@[simp] theorem State.setLoopRt_dlr (s : State) (a : Nat) (x : LoopRt) :
    (s.setLoopRt a x).dlr = s.dlr := rfl

@[simp] theorem State.setLoopRt_prof (s : State) (a : Nat) (x : LoopRt) :
    (s.setLoopRt a x).prof = s.prof := rfl

@[simp] theorem State.setLoopRt_sol (s : State) (a : Nat) (x : LoopRt) :
    (s.setLoopRt a x).sol = s.sol := rfl

@[simp] theorem State.setLoopRt_ssm (s : State) (a : Nat) (x : LoopRt) :
    (s.setLoopRt a x).ssm = s.ssm := rfl

@[simp] theorem State.setLoopRt_saf (s : State) (a : Nat) (x : LoopRt) :
    (s.setLoopRt a x).saf = s.saf := rfl

@[simp] theorem State.setLoopRt_ring (s : State) (a : Nat) (x : LoopRt) :
    (s.setLoopRt a x).ring = s.ring := rfl

@[simp] theorem State.setLoopRt_fbk (s : State) (a : Nat) (x : LoopRt) :
    (s.setLoopRt a x).fbk = s.fbk := rfl

@[simp] theorem State.setLoopRt_field (s : State) (a : Nat) (x : LoopRt) :
    (s.setLoopRt a x).field = s.field := rfl

@[simp] theorem State.setLoopRt_plant (s : State) (a : Nat) (x : LoopRt) :
    (s.setLoopRt a x).plant = s.plant := rfl

@[simp] theorem State.setLoopRt_twin (s : State) (a : Nat) (x : LoopRt) :
    (s.setLoopRt a x).twin = s.twin := rfl

/-! #### `setSafIn` -/

@[simp] theorem State.setSafIn_regs (s : State) (f : Nat) (x : SafIn) :
    (s.setSafIn f x).regs = s.regs := rfl

@[simp] theorem State.setSafIn_late (s : State) (f : Nat) (x : SafIn) :
    (s.setSafIn f x).late = s.late := rfl

@[simp] theorem State.setSafIn_held64 (s : State) (f : Nat) (x : SafIn) :
    (s.setSafIn f x).held64 = s.held64 := rfl

@[simp] theorem State.setSafIn_cell (s : State) (f : Nat) (x : SafIn) :
    (s.setSafIn f x).cell = s.cell := rfl

@[simp] theorem State.setSafIn_dram (s : State) (f : Nat) (x : SafIn) :
    (s.setSafIn f x).dram = s.dram := rfl

@[simp] theorem State.setSafIn_flash (s : State) (f : Nat) (x : SafIn) :
    (s.setSafIn f x).flash = s.flash := rfl

@[simp] theorem State.setSafIn_sys (s : State) (f : Nat) (x : SafIn) :
    (s.setSafIn f x).sys = s.sys := rfl

@[simp] theorem State.setSafIn_pwr (s : State) (f : Nat) (x : SafIn) :
    (s.setSafIn f x).pwr = s.pwr := rfl

@[simp] theorem State.setSafIn_qtz (s : State) (f : Nat) (x : SafIn) :
    (s.setSafIn f x).qtz = s.qtz := rfl

@[simp] theorem State.setSafIn_evt (s : State) (f : Nat) (x : SafIn) :
    (s.setSafIn f x).evt = s.evt := rfl

@[simp] theorem State.setSafIn_msix (s : State) (f : Nat) (x : SafIn) :
    (s.setSafIn f x).msix = s.msix := rfl

@[simp] theorem State.setSafIn_free (s : State) (f : Nat) (x : SafIn) :
    (s.setSafIn f x).free = s.free := rfl

@[simp] theorem State.setSafIn_pending (s : State) (f : Nat) (x : SafIn) :
    (s.setSafIn f x).pending = s.pending := rfl

@[simp] theorem State.setSafIn_integ (s : State) (f : Nat) (x : SafIn) :
    (s.setSafIn f x).integ = s.integ := rfl

@[simp] theorem State.setSafIn_eng (s : State) (f : Nat) (x : SafIn) :
    (s.setSafIn f x).eng = s.eng := rfl

@[simp] theorem State.setSafIn_code (s : State) (f : Nat) (x : SafIn) :
    (s.setSafIn f x).code = s.code := rfl

@[simp] theorem State.setSafIn_data (s : State) (f : Nat) (x : SafIn) :
    (s.setSafIn f x).data = s.data := rfl

@[simp] theorem State.setSafIn_dlr (s : State) (f : Nat) (x : SafIn) :
    (s.setSafIn f x).dlr = s.dlr := rfl

@[simp] theorem State.setSafIn_prof (s : State) (f : Nat) (x : SafIn) :
    (s.setSafIn f x).prof = s.prof := rfl

@[simp] theorem State.setSafIn_loop (s : State) (f : Nat) (x : SafIn) :
    (s.setSafIn f x).loop = s.loop := rfl

@[simp] theorem State.setSafIn_sol (s : State) (f : Nat) (x : SafIn) :
    (s.setSafIn f x).sol = s.sol := rfl

@[simp] theorem State.setSafIn_ssm (s : State) (f : Nat) (x : SafIn) :
    (s.setSafIn f x).ssm = s.ssm := rfl

@[simp] theorem State.setSafIn_ring (s : State) (f : Nat) (x : SafIn) :
    (s.setSafIn f x).ring = s.ring := rfl

@[simp] theorem State.setSafIn_fbk (s : State) (f : Nat) (x : SafIn) :
    (s.setSafIn f x).fbk = s.fbk := rfl

@[simp] theorem State.setSafIn_field (s : State) (f : Nat) (x : SafIn) :
    (s.setSafIn f x).field = s.field := rfl

@[simp] theorem State.setSafIn_plant (s : State) (f : Nat) (x : SafIn) :
    (s.setSafIn f x).plant = s.plant := rfl

@[simp] theorem State.setSafIn_twin (s : State) (f : Nat) (x : SafIn) :
    (s.setSafIn f x).twin = s.twin := rfl

/-! #### `setSafGroup` -/

@[simp] theorem State.setSafGroup_regs (s : State) (g : Nat) (x : SafGroup) :
    (s.setSafGroup g x).regs = s.regs := rfl

@[simp] theorem State.setSafGroup_late (s : State) (g : Nat) (x : SafGroup) :
    (s.setSafGroup g x).late = s.late := rfl

@[simp] theorem State.setSafGroup_held64 (s : State) (g : Nat) (x : SafGroup) :
    (s.setSafGroup g x).held64 = s.held64 := rfl

@[simp] theorem State.setSafGroup_cell (s : State) (g : Nat) (x : SafGroup) :
    (s.setSafGroup g x).cell = s.cell := rfl

@[simp] theorem State.setSafGroup_dram (s : State) (g : Nat) (x : SafGroup) :
    (s.setSafGroup g x).dram = s.dram := rfl

@[simp] theorem State.setSafGroup_flash (s : State) (g : Nat) (x : SafGroup) :
    (s.setSafGroup g x).flash = s.flash := rfl

@[simp] theorem State.setSafGroup_sys (s : State) (g : Nat) (x : SafGroup) :
    (s.setSafGroup g x).sys = s.sys := rfl

@[simp] theorem State.setSafGroup_pwr (s : State) (g : Nat) (x : SafGroup) :
    (s.setSafGroup g x).pwr = s.pwr := rfl

@[simp] theorem State.setSafGroup_qtz (s : State) (g : Nat) (x : SafGroup) :
    (s.setSafGroup g x).qtz = s.qtz := rfl

@[simp] theorem State.setSafGroup_evt (s : State) (g : Nat) (x : SafGroup) :
    (s.setSafGroup g x).evt = s.evt := rfl

@[simp] theorem State.setSafGroup_msix (s : State) (g : Nat) (x : SafGroup) :
    (s.setSafGroup g x).msix = s.msix := rfl

@[simp] theorem State.setSafGroup_free (s : State) (g : Nat) (x : SafGroup) :
    (s.setSafGroup g x).free = s.free := rfl

@[simp] theorem State.setSafGroup_pending (s : State) (g : Nat) (x : SafGroup) :
    (s.setSafGroup g x).pending = s.pending := rfl

@[simp] theorem State.setSafGroup_integ (s : State) (g : Nat) (x : SafGroup) :
    (s.setSafGroup g x).integ = s.integ := rfl

@[simp] theorem State.setSafGroup_eng (s : State) (g : Nat) (x : SafGroup) :
    (s.setSafGroup g x).eng = s.eng := rfl

@[simp] theorem State.setSafGroup_code (s : State) (g : Nat) (x : SafGroup) :
    (s.setSafGroup g x).code = s.code := rfl

@[simp] theorem State.setSafGroup_data (s : State) (g : Nat) (x : SafGroup) :
    (s.setSafGroup g x).data = s.data := rfl

@[simp] theorem State.setSafGroup_dlr (s : State) (g : Nat) (x : SafGroup) :
    (s.setSafGroup g x).dlr = s.dlr := rfl

@[simp] theorem State.setSafGroup_prof (s : State) (g : Nat) (x : SafGroup) :
    (s.setSafGroup g x).prof = s.prof := rfl

@[simp] theorem State.setSafGroup_loop (s : State) (g : Nat) (x : SafGroup) :
    (s.setSafGroup g x).loop = s.loop := rfl

@[simp] theorem State.setSafGroup_sol (s : State) (g : Nat) (x : SafGroup) :
    (s.setSafGroup g x).sol = s.sol := rfl

@[simp] theorem State.setSafGroup_ssm (s : State) (g : Nat) (x : SafGroup) :
    (s.setSafGroup g x).ssm = s.ssm := rfl

@[simp] theorem State.setSafGroup_ring (s : State) (g : Nat) (x : SafGroup) :
    (s.setSafGroup g x).ring = s.ring := rfl

@[simp] theorem State.setSafGroup_fbk (s : State) (g : Nat) (x : SafGroup) :
    (s.setSafGroup g x).fbk = s.fbk := rfl

@[simp] theorem State.setSafGroup_field (s : State) (g : Nat) (x : SafGroup) :
    (s.setSafGroup g x).field = s.field := rfl

@[simp] theorem State.setSafGroup_plant (s : State) (g : Nat) (x : SafGroup) :
    (s.setSafGroup g x).plant = s.plant := rfl

@[simp] theorem State.setSafGroup_twin (s : State) (g : Nat) (x : SafGroup) :
    (s.setSafGroup g x).twin = s.twin := rfl

/-! #### `setFlint` -/

@[simp] theorem State.setFlint_regs (s : State) (x : Flint) :
    (s.setFlint x).regs = s.regs := rfl

@[simp] theorem State.setFlint_late (s : State) (x : Flint) :
    (s.setFlint x).late = s.late := rfl

@[simp] theorem State.setFlint_held64 (s : State) (x : Flint) :
    (s.setFlint x).held64 = s.held64 := rfl

@[simp] theorem State.setFlint_cell (s : State) (x : Flint) :
    (s.setFlint x).cell = s.cell := rfl

@[simp] theorem State.setFlint_dram (s : State) (x : Flint) :
    (s.setFlint x).dram = s.dram := rfl

@[simp] theorem State.setFlint_flash (s : State) (x : Flint) :
    (s.setFlint x).flash = s.flash := rfl

@[simp] theorem State.setFlint_sys (s : State) (x : Flint) :
    (s.setFlint x).sys = s.sys := rfl

@[simp] theorem State.setFlint_pwr (s : State) (x : Flint) :
    (s.setFlint x).pwr = s.pwr := rfl

@[simp] theorem State.setFlint_qtz (s : State) (x : Flint) :
    (s.setFlint x).qtz = s.qtz := rfl

@[simp] theorem State.setFlint_evt (s : State) (x : Flint) :
    (s.setFlint x).evt = s.evt := rfl

@[simp] theorem State.setFlint_msix (s : State) (x : Flint) :
    (s.setFlint x).msix = s.msix := rfl

@[simp] theorem State.setFlint_free (s : State) (x : Flint) :
    (s.setFlint x).free = s.free := rfl

@[simp] theorem State.setFlint_pending (s : State) (x : Flint) :
    (s.setFlint x).pending = s.pending := rfl

@[simp] theorem State.setFlint_integ (s : State) (x : Flint) :
    (s.setFlint x).integ = s.integ := rfl

@[simp] theorem State.setFlint_eng (s : State) (x : Flint) :
    (s.setFlint x).eng = s.eng := rfl

@[simp] theorem State.setFlint_code (s : State) (x : Flint) :
    (s.setFlint x).code = s.code := rfl

@[simp] theorem State.setFlint_data (s : State) (x : Flint) :
    (s.setFlint x).data = s.data := rfl

@[simp] theorem State.setFlint_dlr (s : State) (x : Flint) :
    (s.setFlint x).dlr = s.dlr := rfl

@[simp] theorem State.setFlint_prof (s : State) (x : Flint) :
    (s.setFlint x).prof = s.prof := rfl

@[simp] theorem State.setFlint_loop (s : State) (x : Flint) :
    (s.setFlint x).loop = s.loop := rfl

@[simp] theorem State.setFlint_sol (s : State) (x : Flint) :
    (s.setFlint x).sol = s.sol := rfl

@[simp] theorem State.setFlint_ssm (s : State) (x : Flint) :
    (s.setFlint x).ssm = s.ssm := rfl

@[simp] theorem State.setFlint_ring (s : State) (x : Flint) :
    (s.setFlint x).ring = s.ring := rfl

@[simp] theorem State.setFlint_fbk (s : State) (x : Flint) :
    (s.setFlint x).fbk = s.fbk := rfl

@[simp] theorem State.setFlint_field (s : State) (x : Flint) :
    (s.setFlint x).field = s.field := rfl

@[simp] theorem State.setFlint_plant (s : State) (x : Flint) :
    (s.setFlint x).plant = s.plant := rfl

@[simp] theorem State.setFlint_twin (s : State) (x : Flint) :
    (s.setFlint x).twin = s.twin := rfl

/-! #### `setEncRt` -/

@[simp] theorem State.setEncRt_regs (s : State) (e : Nat) (x : EncRt) :
    (s.setEncRt e x).regs = s.regs := rfl

@[simp] theorem State.setEncRt_late (s : State) (e : Nat) (x : EncRt) :
    (s.setEncRt e x).late = s.late := rfl

@[simp] theorem State.setEncRt_held64 (s : State) (e : Nat) (x : EncRt) :
    (s.setEncRt e x).held64 = s.held64 := rfl

@[simp] theorem State.setEncRt_cell (s : State) (e : Nat) (x : EncRt) :
    (s.setEncRt e x).cell = s.cell := rfl

@[simp] theorem State.setEncRt_dram (s : State) (e : Nat) (x : EncRt) :
    (s.setEncRt e x).dram = s.dram := rfl

@[simp] theorem State.setEncRt_flash (s : State) (e : Nat) (x : EncRt) :
    (s.setEncRt e x).flash = s.flash := rfl

@[simp] theorem State.setEncRt_sys (s : State) (e : Nat) (x : EncRt) :
    (s.setEncRt e x).sys = s.sys := rfl

@[simp] theorem State.setEncRt_pwr (s : State) (e : Nat) (x : EncRt) :
    (s.setEncRt e x).pwr = s.pwr := rfl

@[simp] theorem State.setEncRt_qtz (s : State) (e : Nat) (x : EncRt) :
    (s.setEncRt e x).qtz = s.qtz := rfl

@[simp] theorem State.setEncRt_evt (s : State) (e : Nat) (x : EncRt) :
    (s.setEncRt e x).evt = s.evt := rfl

@[simp] theorem State.setEncRt_msix (s : State) (e : Nat) (x : EncRt) :
    (s.setEncRt e x).msix = s.msix := rfl

@[simp] theorem State.setEncRt_free (s : State) (e : Nat) (x : EncRt) :
    (s.setEncRt e x).free = s.free := rfl

@[simp] theorem State.setEncRt_pending (s : State) (e : Nat) (x : EncRt) :
    (s.setEncRt e x).pending = s.pending := rfl

@[simp] theorem State.setEncRt_integ (s : State) (e : Nat) (x : EncRt) :
    (s.setEncRt e x).integ = s.integ := rfl

@[simp] theorem State.setEncRt_eng (s : State) (e : Nat) (x : EncRt) :
    (s.setEncRt e x).eng = s.eng := rfl

@[simp] theorem State.setEncRt_code (s : State) (e : Nat) (x : EncRt) :
    (s.setEncRt e x).code = s.code := rfl

@[simp] theorem State.setEncRt_data (s : State) (e : Nat) (x : EncRt) :
    (s.setEncRt e x).data = s.data := rfl

@[simp] theorem State.setEncRt_dlr (s : State) (e : Nat) (x : EncRt) :
    (s.setEncRt e x).dlr = s.dlr := rfl

@[simp] theorem State.setEncRt_prof (s : State) (e : Nat) (x : EncRt) :
    (s.setEncRt e x).prof = s.prof := rfl

@[simp] theorem State.setEncRt_loop (s : State) (e : Nat) (x : EncRt) :
    (s.setEncRt e x).loop = s.loop := rfl

@[simp] theorem State.setEncRt_sol (s : State) (e : Nat) (x : EncRt) :
    (s.setEncRt e x).sol = s.sol := rfl

@[simp] theorem State.setEncRt_ssm (s : State) (e : Nat) (x : EncRt) :
    (s.setEncRt e x).ssm = s.ssm := rfl

@[simp] theorem State.setEncRt_saf (s : State) (e : Nat) (x : EncRt) :
    (s.setEncRt e x).saf = s.saf := rfl

@[simp] theorem State.setEncRt_ring (s : State) (e : Nat) (x : EncRt) :
    (s.setEncRt e x).ring = s.ring := rfl

@[simp] theorem State.setEncRt_field (s : State) (e : Nat) (x : EncRt) :
    (s.setEncRt e x).field = s.field := rfl

@[simp] theorem State.setEncRt_plant (s : State) (e : Nat) (x : EncRt) :
    (s.setEncRt e x).plant = s.plant := rfl

@[simp] theorem State.setEncRt_twin (s : State) (e : Nat) (x : EncRt) :
    (s.setEncRt e x).twin = s.twin := rfl

/-! #### `setHallRt` -/

@[simp] theorem State.setHallRt_regs (s : State) (h : Nat) (x : HallRt) :
    (s.setHallRt h x).regs = s.regs := rfl

@[simp] theorem State.setHallRt_late (s : State) (h : Nat) (x : HallRt) :
    (s.setHallRt h x).late = s.late := rfl

@[simp] theorem State.setHallRt_held64 (s : State) (h : Nat) (x : HallRt) :
    (s.setHallRt h x).held64 = s.held64 := rfl

@[simp] theorem State.setHallRt_cell (s : State) (h : Nat) (x : HallRt) :
    (s.setHallRt h x).cell = s.cell := rfl

@[simp] theorem State.setHallRt_dram (s : State) (h : Nat) (x : HallRt) :
    (s.setHallRt h x).dram = s.dram := rfl

@[simp] theorem State.setHallRt_flash (s : State) (h : Nat) (x : HallRt) :
    (s.setHallRt h x).flash = s.flash := rfl

@[simp] theorem State.setHallRt_sys (s : State) (h : Nat) (x : HallRt) :
    (s.setHallRt h x).sys = s.sys := rfl

@[simp] theorem State.setHallRt_pwr (s : State) (h : Nat) (x : HallRt) :
    (s.setHallRt h x).pwr = s.pwr := rfl

@[simp] theorem State.setHallRt_qtz (s : State) (h : Nat) (x : HallRt) :
    (s.setHallRt h x).qtz = s.qtz := rfl

@[simp] theorem State.setHallRt_evt (s : State) (h : Nat) (x : HallRt) :
    (s.setHallRt h x).evt = s.evt := rfl

@[simp] theorem State.setHallRt_msix (s : State) (h : Nat) (x : HallRt) :
    (s.setHallRt h x).msix = s.msix := rfl

@[simp] theorem State.setHallRt_free (s : State) (h : Nat) (x : HallRt) :
    (s.setHallRt h x).free = s.free := rfl

@[simp] theorem State.setHallRt_pending (s : State) (h : Nat) (x : HallRt) :
    (s.setHallRt h x).pending = s.pending := rfl

@[simp] theorem State.setHallRt_integ (s : State) (h : Nat) (x : HallRt) :
    (s.setHallRt h x).integ = s.integ := rfl

@[simp] theorem State.setHallRt_eng (s : State) (h : Nat) (x : HallRt) :
    (s.setHallRt h x).eng = s.eng := rfl

@[simp] theorem State.setHallRt_code (s : State) (h : Nat) (x : HallRt) :
    (s.setHallRt h x).code = s.code := rfl

@[simp] theorem State.setHallRt_data (s : State) (h : Nat) (x : HallRt) :
    (s.setHallRt h x).data = s.data := rfl

@[simp] theorem State.setHallRt_dlr (s : State) (h : Nat) (x : HallRt) :
    (s.setHallRt h x).dlr = s.dlr := rfl

@[simp] theorem State.setHallRt_prof (s : State) (h : Nat) (x : HallRt) :
    (s.setHallRt h x).prof = s.prof := rfl

@[simp] theorem State.setHallRt_loop (s : State) (h : Nat) (x : HallRt) :
    (s.setHallRt h x).loop = s.loop := rfl

@[simp] theorem State.setHallRt_sol (s : State) (h : Nat) (x : HallRt) :
    (s.setHallRt h x).sol = s.sol := rfl

@[simp] theorem State.setHallRt_ssm (s : State) (h : Nat) (x : HallRt) :
    (s.setHallRt h x).ssm = s.ssm := rfl

@[simp] theorem State.setHallRt_saf (s : State) (h : Nat) (x : HallRt) :
    (s.setHallRt h x).saf = s.saf := rfl

@[simp] theorem State.setHallRt_ring (s : State) (h : Nat) (x : HallRt) :
    (s.setHallRt h x).ring = s.ring := rfl

@[simp] theorem State.setHallRt_field (s : State) (h : Nat) (x : HallRt) :
    (s.setHallRt h x).field = s.field := rfl

@[simp] theorem State.setHallRt_plant (s : State) (h : Nat) (x : HallRt) :
    (s.setHallRt h x).plant = s.plant := rfl

@[simp] theorem State.setHallRt_twin (s : State) (h : Nat) (x : HallRt) :
    (s.setHallRt h x).twin = s.twin := rfl

/-! #### `setSsiRt` -/

@[simp] theorem State.setSsiRt_regs (s : State) (c : Nat) (x : SsiRt) :
    (s.setSsiRt c x).regs = s.regs := rfl

@[simp] theorem State.setSsiRt_late (s : State) (c : Nat) (x : SsiRt) :
    (s.setSsiRt c x).late = s.late := rfl

@[simp] theorem State.setSsiRt_held64 (s : State) (c : Nat) (x : SsiRt) :
    (s.setSsiRt c x).held64 = s.held64 := rfl

@[simp] theorem State.setSsiRt_cell (s : State) (c : Nat) (x : SsiRt) :
    (s.setSsiRt c x).cell = s.cell := rfl

@[simp] theorem State.setSsiRt_dram (s : State) (c : Nat) (x : SsiRt) :
    (s.setSsiRt c x).dram = s.dram := rfl

@[simp] theorem State.setSsiRt_flash (s : State) (c : Nat) (x : SsiRt) :
    (s.setSsiRt c x).flash = s.flash := rfl

@[simp] theorem State.setSsiRt_sys (s : State) (c : Nat) (x : SsiRt) :
    (s.setSsiRt c x).sys = s.sys := rfl

@[simp] theorem State.setSsiRt_pwr (s : State) (c : Nat) (x : SsiRt) :
    (s.setSsiRt c x).pwr = s.pwr := rfl

@[simp] theorem State.setSsiRt_qtz (s : State) (c : Nat) (x : SsiRt) :
    (s.setSsiRt c x).qtz = s.qtz := rfl

@[simp] theorem State.setSsiRt_evt (s : State) (c : Nat) (x : SsiRt) :
    (s.setSsiRt c x).evt = s.evt := rfl

@[simp] theorem State.setSsiRt_msix (s : State) (c : Nat) (x : SsiRt) :
    (s.setSsiRt c x).msix = s.msix := rfl

@[simp] theorem State.setSsiRt_free (s : State) (c : Nat) (x : SsiRt) :
    (s.setSsiRt c x).free = s.free := rfl

@[simp] theorem State.setSsiRt_pending (s : State) (c : Nat) (x : SsiRt) :
    (s.setSsiRt c x).pending = s.pending := rfl

@[simp] theorem State.setSsiRt_integ (s : State) (c : Nat) (x : SsiRt) :
    (s.setSsiRt c x).integ = s.integ := rfl

@[simp] theorem State.setSsiRt_eng (s : State) (c : Nat) (x : SsiRt) :
    (s.setSsiRt c x).eng = s.eng := rfl

@[simp] theorem State.setSsiRt_code (s : State) (c : Nat) (x : SsiRt) :
    (s.setSsiRt c x).code = s.code := rfl

@[simp] theorem State.setSsiRt_data (s : State) (c : Nat) (x : SsiRt) :
    (s.setSsiRt c x).data = s.data := rfl

@[simp] theorem State.setSsiRt_dlr (s : State) (c : Nat) (x : SsiRt) :
    (s.setSsiRt c x).dlr = s.dlr := rfl

@[simp] theorem State.setSsiRt_prof (s : State) (c : Nat) (x : SsiRt) :
    (s.setSsiRt c x).prof = s.prof := rfl

@[simp] theorem State.setSsiRt_loop (s : State) (c : Nat) (x : SsiRt) :
    (s.setSsiRt c x).loop = s.loop := rfl

@[simp] theorem State.setSsiRt_sol (s : State) (c : Nat) (x : SsiRt) :
    (s.setSsiRt c x).sol = s.sol := rfl

@[simp] theorem State.setSsiRt_ssm (s : State) (c : Nat) (x : SsiRt) :
    (s.setSsiRt c x).ssm = s.ssm := rfl

@[simp] theorem State.setSsiRt_saf (s : State) (c : Nat) (x : SsiRt) :
    (s.setSsiRt c x).saf = s.saf := rfl

@[simp] theorem State.setSsiRt_ring (s : State) (c : Nat) (x : SsiRt) :
    (s.setSsiRt c x).ring = s.ring := rfl

@[simp] theorem State.setSsiRt_field (s : State) (c : Nat) (x : SsiRt) :
    (s.setSsiRt c x).field = s.field := rfl

@[simp] theorem State.setSsiRt_plant (s : State) (c : Nat) (x : SsiRt) :
    (s.setSsiRt c x).plant = s.plant := rfl

@[simp] theorem State.setSsiRt_twin (s : State) (c : Nat) (x : SsiRt) :
    (s.setSsiRt c x).twin = s.twin := rfl

/-! #### `setLaxRt` -/

@[simp] theorem State.setLaxRt_regs (s : State) (n : Nat) (x : LaxRt) :
    (s.setLaxRt n x).regs = s.regs := rfl

@[simp] theorem State.setLaxRt_late (s : State) (n : Nat) (x : LaxRt) :
    (s.setLaxRt n x).late = s.late := rfl

@[simp] theorem State.setLaxRt_held64 (s : State) (n : Nat) (x : LaxRt) :
    (s.setLaxRt n x).held64 = s.held64 := rfl

@[simp] theorem State.setLaxRt_cell (s : State) (n : Nat) (x : LaxRt) :
    (s.setLaxRt n x).cell = s.cell := rfl

@[simp] theorem State.setLaxRt_dram (s : State) (n : Nat) (x : LaxRt) :
    (s.setLaxRt n x).dram = s.dram := rfl

@[simp] theorem State.setLaxRt_flash (s : State) (n : Nat) (x : LaxRt) :
    (s.setLaxRt n x).flash = s.flash := rfl

@[simp] theorem State.setLaxRt_sys (s : State) (n : Nat) (x : LaxRt) :
    (s.setLaxRt n x).sys = s.sys := rfl

@[simp] theorem State.setLaxRt_pwr (s : State) (n : Nat) (x : LaxRt) :
    (s.setLaxRt n x).pwr = s.pwr := rfl

@[simp] theorem State.setLaxRt_qtz (s : State) (n : Nat) (x : LaxRt) :
    (s.setLaxRt n x).qtz = s.qtz := rfl

@[simp] theorem State.setLaxRt_evt (s : State) (n : Nat) (x : LaxRt) :
    (s.setLaxRt n x).evt = s.evt := rfl

@[simp] theorem State.setLaxRt_msix (s : State) (n : Nat) (x : LaxRt) :
    (s.setLaxRt n x).msix = s.msix := rfl

@[simp] theorem State.setLaxRt_free (s : State) (n : Nat) (x : LaxRt) :
    (s.setLaxRt n x).free = s.free := rfl

@[simp] theorem State.setLaxRt_pending (s : State) (n : Nat) (x : LaxRt) :
    (s.setLaxRt n x).pending = s.pending := rfl

@[simp] theorem State.setLaxRt_integ (s : State) (n : Nat) (x : LaxRt) :
    (s.setLaxRt n x).integ = s.integ := rfl

@[simp] theorem State.setLaxRt_eng (s : State) (n : Nat) (x : LaxRt) :
    (s.setLaxRt n x).eng = s.eng := rfl

@[simp] theorem State.setLaxRt_code (s : State) (n : Nat) (x : LaxRt) :
    (s.setLaxRt n x).code = s.code := rfl

@[simp] theorem State.setLaxRt_data (s : State) (n : Nat) (x : LaxRt) :
    (s.setLaxRt n x).data = s.data := rfl

@[simp] theorem State.setLaxRt_dlr (s : State) (n : Nat) (x : LaxRt) :
    (s.setLaxRt n x).dlr = s.dlr := rfl

@[simp] theorem State.setLaxRt_prof (s : State) (n : Nat) (x : LaxRt) :
    (s.setLaxRt n x).prof = s.prof := rfl

@[simp] theorem State.setLaxRt_loop (s : State) (n : Nat) (x : LaxRt) :
    (s.setLaxRt n x).loop = s.loop := rfl

@[simp] theorem State.setLaxRt_sol (s : State) (n : Nat) (x : LaxRt) :
    (s.setLaxRt n x).sol = s.sol := rfl

@[simp] theorem State.setLaxRt_ssm (s : State) (n : Nat) (x : LaxRt) :
    (s.setLaxRt n x).ssm = s.ssm := rfl

@[simp] theorem State.setLaxRt_saf (s : State) (n : Nat) (x : LaxRt) :
    (s.setLaxRt n x).saf = s.saf := rfl

@[simp] theorem State.setLaxRt_ring (s : State) (n : Nat) (x : LaxRt) :
    (s.setLaxRt n x).ring = s.ring := rfl

@[simp] theorem State.setLaxRt_field (s : State) (n : Nat) (x : LaxRt) :
    (s.setLaxRt n x).field = s.field := rfl

@[simp] theorem State.setLaxRt_plant (s : State) (n : Nat) (x : LaxRt) :
    (s.setLaxRt n x).plant = s.plant := rfl

@[simp] theorem State.setLaxRt_twin (s : State) (n : Nat) (x : LaxRt) :
    (s.setLaxRt n x).twin = s.twin := rfl

/-! #### `setPlant` -/

@[simp] theorem State.setPlant_regs (s : State) (x : Plant) :
    (s.setPlant x).regs = s.regs := rfl

@[simp] theorem State.setPlant_late (s : State) (x : Plant) :
    (s.setPlant x).late = s.late := rfl

@[simp] theorem State.setPlant_held64 (s : State) (x : Plant) :
    (s.setPlant x).held64 = s.held64 := rfl

@[simp] theorem State.setPlant_cell (s : State) (x : Plant) :
    (s.setPlant x).cell = s.cell := rfl

@[simp] theorem State.setPlant_dram (s : State) (x : Plant) :
    (s.setPlant x).dram = s.dram := rfl

@[simp] theorem State.setPlant_flash (s : State) (x : Plant) :
    (s.setPlant x).flash = s.flash := rfl

@[simp] theorem State.setPlant_sys (s : State) (x : Plant) :
    (s.setPlant x).sys = s.sys := rfl

@[simp] theorem State.setPlant_pwr (s : State) (x : Plant) :
    (s.setPlant x).pwr = s.pwr := rfl

@[simp] theorem State.setPlant_qtz (s : State) (x : Plant) :
    (s.setPlant x).qtz = s.qtz := rfl

@[simp] theorem State.setPlant_evt (s : State) (x : Plant) :
    (s.setPlant x).evt = s.evt := rfl

@[simp] theorem State.setPlant_msix (s : State) (x : Plant) :
    (s.setPlant x).msix = s.msix := rfl

@[simp] theorem State.setPlant_free (s : State) (x : Plant) :
    (s.setPlant x).free = s.free := rfl

@[simp] theorem State.setPlant_pending (s : State) (x : Plant) :
    (s.setPlant x).pending = s.pending := rfl

@[simp] theorem State.setPlant_integ (s : State) (x : Plant) :
    (s.setPlant x).integ = s.integ := rfl

@[simp] theorem State.setPlant_eng (s : State) (x : Plant) :
    (s.setPlant x).eng = s.eng := rfl

@[simp] theorem State.setPlant_code (s : State) (x : Plant) :
    (s.setPlant x).code = s.code := rfl

@[simp] theorem State.setPlant_data (s : State) (x : Plant) :
    (s.setPlant x).data = s.data := rfl

@[simp] theorem State.setPlant_dlr (s : State) (x : Plant) :
    (s.setPlant x).dlr = s.dlr := rfl

@[simp] theorem State.setPlant_prof (s : State) (x : Plant) :
    (s.setPlant x).prof = s.prof := rfl

@[simp] theorem State.setPlant_loop (s : State) (x : Plant) :
    (s.setPlant x).loop = s.loop := rfl

@[simp] theorem State.setPlant_sol (s : State) (x : Plant) :
    (s.setPlant x).sol = s.sol := rfl

@[simp] theorem State.setPlant_ssm (s : State) (x : Plant) :
    (s.setPlant x).ssm = s.ssm := rfl

@[simp] theorem State.setPlant_saf (s : State) (x : Plant) :
    (s.setPlant x).saf = s.saf := rfl

@[simp] theorem State.setPlant_ring (s : State) (x : Plant) :
    (s.setPlant x).ring = s.ring := rfl

@[simp] theorem State.setPlant_fbk (s : State) (x : Plant) :
    (s.setPlant x).fbk = s.fbk := rfl

@[simp] theorem State.setPlant_field (s : State) (x : Plant) :
    (s.setPlant x).field = s.field := rfl

@[simp] theorem State.setPlant_twin (s : State) (x : Plant) :
    (s.setPlant x).twin = s.twin := rfl

/-! #### `setChange` -/

@[simp] theorem State.setChange_regs (s : State) (c : Option PointChange) :
    (s.setChange c).regs = s.regs := rfl

@[simp] theorem State.setChange_late (s : State) (c : Option PointChange) :
    (s.setChange c).late = s.late := rfl

@[simp] theorem State.setChange_held64 (s : State) (c : Option PointChange) :
    (s.setChange c).held64 = s.held64 := rfl

@[simp] theorem State.setChange_cell (s : State) (c : Option PointChange) :
    (s.setChange c).cell = s.cell := rfl

@[simp] theorem State.setChange_dram (s : State) (c : Option PointChange) :
    (s.setChange c).dram = s.dram := rfl

@[simp] theorem State.setChange_flash (s : State) (c : Option PointChange) :
    (s.setChange c).flash = s.flash := rfl

@[simp] theorem State.setChange_sys (s : State) (c : Option PointChange) :
    (s.setChange c).sys = s.sys := rfl

@[simp] theorem State.setChange_qtz (s : State) (c : Option PointChange) :
    (s.setChange c).qtz = s.qtz := rfl

@[simp] theorem State.setChange_evt (s : State) (c : Option PointChange) :
    (s.setChange c).evt = s.evt := rfl

@[simp] theorem State.setChange_msix (s : State) (c : Option PointChange) :
    (s.setChange c).msix = s.msix := rfl

@[simp] theorem State.setChange_free (s : State) (c : Option PointChange) :
    (s.setChange c).free = s.free := rfl

@[simp] theorem State.setChange_pending (s : State) (c : Option PointChange) :
    (s.setChange c).pending = s.pending := rfl

@[simp] theorem State.setChange_integ (s : State) (c : Option PointChange) :
    (s.setChange c).integ = s.integ := rfl

@[simp] theorem State.setChange_eng (s : State) (c : Option PointChange) :
    (s.setChange c).eng = s.eng := rfl

@[simp] theorem State.setChange_code (s : State) (c : Option PointChange) :
    (s.setChange c).code = s.code := rfl

@[simp] theorem State.setChange_data (s : State) (c : Option PointChange) :
    (s.setChange c).data = s.data := rfl

@[simp] theorem State.setChange_dlr (s : State) (c : Option PointChange) :
    (s.setChange c).dlr = s.dlr := rfl

@[simp] theorem State.setChange_prof (s : State) (c : Option PointChange) :
    (s.setChange c).prof = s.prof := rfl

@[simp] theorem State.setChange_loop (s : State) (c : Option PointChange) :
    (s.setChange c).loop = s.loop := rfl

@[simp] theorem State.setChange_sol (s : State) (c : Option PointChange) :
    (s.setChange c).sol = s.sol := rfl

@[simp] theorem State.setChange_ssm (s : State) (c : Option PointChange) :
    (s.setChange c).ssm = s.ssm := rfl

@[simp] theorem State.setChange_saf (s : State) (c : Option PointChange) :
    (s.setChange c).saf = s.saf := rfl

@[simp] theorem State.setChange_ring (s : State) (c : Option PointChange) :
    (s.setChange c).ring = s.ring := rfl

@[simp] theorem State.setChange_fbk (s : State) (c : Option PointChange) :
    (s.setChange c).fbk = s.fbk := rfl

@[simp] theorem State.setChange_field (s : State) (c : Option PointChange) :
    (s.setChange c).field = s.field := rfl

@[simp] theorem State.setChange_plant (s : State) (c : Option PointChange) :
    (s.setChange c).plant = s.plant := rfl

@[simp] theorem State.setChange_twin (s : State) (c : Option PointChange) :
    (s.setChange c).twin = s.twin := rfl

/-! #### `setVid` -/

@[simp] theorem State.setVid_regs (s : State) (q : Nat) (point : Nat) :
    (s.setVid q point).regs = s.regs := rfl

@[simp] theorem State.setVid_late (s : State) (q : Nat) (point : Nat) :
    (s.setVid q point).late = s.late := rfl

@[simp] theorem State.setVid_held64 (s : State) (q : Nat) (point : Nat) :
    (s.setVid q point).held64 = s.held64 := rfl

@[simp] theorem State.setVid_cell (s : State) (q : Nat) (point : Nat) :
    (s.setVid q point).cell = s.cell := rfl

@[simp] theorem State.setVid_dram (s : State) (q : Nat) (point : Nat) :
    (s.setVid q point).dram = s.dram := rfl

@[simp] theorem State.setVid_flash (s : State) (q : Nat) (point : Nat) :
    (s.setVid q point).flash = s.flash := rfl

@[simp] theorem State.setVid_sys (s : State) (q : Nat) (point : Nat) :
    (s.setVid q point).sys = s.sys := rfl

@[simp] theorem State.setVid_qtz (s : State) (q : Nat) (point : Nat) :
    (s.setVid q point).qtz = s.qtz := rfl

@[simp] theorem State.setVid_evt (s : State) (q : Nat) (point : Nat) :
    (s.setVid q point).evt = s.evt := rfl

@[simp] theorem State.setVid_msix (s : State) (q : Nat) (point : Nat) :
    (s.setVid q point).msix = s.msix := rfl

@[simp] theorem State.setVid_free (s : State) (q : Nat) (point : Nat) :
    (s.setVid q point).free = s.free := rfl

@[simp] theorem State.setVid_pending (s : State) (q : Nat) (point : Nat) :
    (s.setVid q point).pending = s.pending := rfl

@[simp] theorem State.setVid_integ (s : State) (q : Nat) (point : Nat) :
    (s.setVid q point).integ = s.integ := rfl

@[simp] theorem State.setVid_eng (s : State) (q : Nat) (point : Nat) :
    (s.setVid q point).eng = s.eng := rfl

@[simp] theorem State.setVid_code (s : State) (q : Nat) (point : Nat) :
    (s.setVid q point).code = s.code := rfl

@[simp] theorem State.setVid_data (s : State) (q : Nat) (point : Nat) :
    (s.setVid q point).data = s.data := rfl

@[simp] theorem State.setVid_dlr (s : State) (q : Nat) (point : Nat) :
    (s.setVid q point).dlr = s.dlr := rfl

@[simp] theorem State.setVid_prof (s : State) (q : Nat) (point : Nat) :
    (s.setVid q point).prof = s.prof := rfl

@[simp] theorem State.setVid_loop (s : State) (q : Nat) (point : Nat) :
    (s.setVid q point).loop = s.loop := rfl

@[simp] theorem State.setVid_sol (s : State) (q : Nat) (point : Nat) :
    (s.setVid q point).sol = s.sol := rfl

@[simp] theorem State.setVid_ssm (s : State) (q : Nat) (point : Nat) :
    (s.setVid q point).ssm = s.ssm := rfl

@[simp] theorem State.setVid_saf (s : State) (q : Nat) (point : Nat) :
    (s.setVid q point).saf = s.saf := rfl

@[simp] theorem State.setVid_ring (s : State) (q : Nat) (point : Nat) :
    (s.setVid q point).ring = s.ring := rfl

@[simp] theorem State.setVid_fbk (s : State) (q : Nat) (point : Nat) :
    (s.setVid q point).fbk = s.fbk := rfl

@[simp] theorem State.setVid_field (s : State) (q : Nat) (point : Nat) :
    (s.setVid q point).field = s.field := rfl

@[simp] theorem State.setVid_plant (s : State) (q : Nat) (point : Nat) :
    (s.setVid q point).plant = s.plant := rfl

@[simp] theorem State.setVid_twin (s : State) (q : Nat) (point : Nat) :
    (s.setVid q point).twin = s.twin := rfl

/-! #### `setCountRt` -/

@[simp] theorem State.setCountRt_regs (s : State) (i : Nat) (x : CountRt) :
    (s.setCountRt i x).regs = s.regs := rfl

@[simp] theorem State.setCountRt_late (s : State) (i : Nat) (x : CountRt) :
    (s.setCountRt i x).late = s.late := rfl

@[simp] theorem State.setCountRt_held64 (s : State) (i : Nat) (x : CountRt) :
    (s.setCountRt i x).held64 = s.held64 := rfl

@[simp] theorem State.setCountRt_cell (s : State) (i : Nat) (x : CountRt) :
    (s.setCountRt i x).cell = s.cell := rfl

@[simp] theorem State.setCountRt_dram (s : State) (i : Nat) (x : CountRt) :
    (s.setCountRt i x).dram = s.dram := rfl

@[simp] theorem State.setCountRt_flash (s : State) (i : Nat) (x : CountRt) :
    (s.setCountRt i x).flash = s.flash := rfl

@[simp] theorem State.setCountRt_sys (s : State) (i : Nat) (x : CountRt) :
    (s.setCountRt i x).sys = s.sys := rfl

@[simp] theorem State.setCountRt_pwr (s : State) (i : Nat) (x : CountRt) :
    (s.setCountRt i x).pwr = s.pwr := rfl

@[simp] theorem State.setCountRt_qtz (s : State) (i : Nat) (x : CountRt) :
    (s.setCountRt i x).qtz = s.qtz := rfl

@[simp] theorem State.setCountRt_evt (s : State) (i : Nat) (x : CountRt) :
    (s.setCountRt i x).evt = s.evt := rfl

@[simp] theorem State.setCountRt_msix (s : State) (i : Nat) (x : CountRt) :
    (s.setCountRt i x).msix = s.msix := rfl

@[simp] theorem State.setCountRt_free (s : State) (i : Nat) (x : CountRt) :
    (s.setCountRt i x).free = s.free := rfl

@[simp] theorem State.setCountRt_pending (s : State) (i : Nat) (x : CountRt) :
    (s.setCountRt i x).pending = s.pending := rfl

@[simp] theorem State.setCountRt_integ (s : State) (i : Nat) (x : CountRt) :
    (s.setCountRt i x).integ = s.integ := rfl

@[simp] theorem State.setCountRt_eng (s : State) (i : Nat) (x : CountRt) :
    (s.setCountRt i x).eng = s.eng := rfl

@[simp] theorem State.setCountRt_code (s : State) (i : Nat) (x : CountRt) :
    (s.setCountRt i x).code = s.code := rfl

@[simp] theorem State.setCountRt_data (s : State) (i : Nat) (x : CountRt) :
    (s.setCountRt i x).data = s.data := rfl

@[simp] theorem State.setCountRt_dlr (s : State) (i : Nat) (x : CountRt) :
    (s.setCountRt i x).dlr = s.dlr := rfl

@[simp] theorem State.setCountRt_prof (s : State) (i : Nat) (x : CountRt) :
    (s.setCountRt i x).prof = s.prof := rfl

@[simp] theorem State.setCountRt_loop (s : State) (i : Nat) (x : CountRt) :
    (s.setCountRt i x).loop = s.loop := rfl

@[simp] theorem State.setCountRt_sol (s : State) (i : Nat) (x : CountRt) :
    (s.setCountRt i x).sol = s.sol := rfl

@[simp] theorem State.setCountRt_ssm (s : State) (i : Nat) (x : CountRt) :
    (s.setCountRt i x).ssm = s.ssm := rfl

@[simp] theorem State.setCountRt_saf (s : State) (i : Nat) (x : CountRt) :
    (s.setCountRt i x).saf = s.saf := rfl

@[simp] theorem State.setCountRt_ring (s : State) (i : Nat) (x : CountRt) :
    (s.setCountRt i x).ring = s.ring := rfl

@[simp] theorem State.setCountRt_fbk (s : State) (i : Nat) (x : CountRt) :
    (s.setCountRt i x).fbk = s.fbk := rfl

@[simp] theorem State.setCountRt_plant (s : State) (i : Nat) (x : CountRt) :
    (s.setCountRt i x).plant = s.plant := rfl

@[simp] theorem State.setCountRt_twin (s : State) (i : Nat) (x : CountRt) :
    (s.setCountRt i x).twin = s.twin := rfl

/-! #### `setTwin` -/

@[simp] theorem State.setTwin_regs (s : State) (x : Twin) :
    (s.setTwin x).regs = s.regs := rfl

@[simp] theorem State.setTwin_late (s : State) (x : Twin) :
    (s.setTwin x).late = s.late := rfl

@[simp] theorem State.setTwin_held64 (s : State) (x : Twin) :
    (s.setTwin x).held64 = s.held64 := rfl

@[simp] theorem State.setTwin_cell (s : State) (x : Twin) :
    (s.setTwin x).cell = s.cell := rfl

@[simp] theorem State.setTwin_dram (s : State) (x : Twin) :
    (s.setTwin x).dram = s.dram := rfl

@[simp] theorem State.setTwin_flash (s : State) (x : Twin) :
    (s.setTwin x).flash = s.flash := rfl

@[simp] theorem State.setTwin_sys (s : State) (x : Twin) :
    (s.setTwin x).sys = s.sys := rfl

@[simp] theorem State.setTwin_pwr (s : State) (x : Twin) :
    (s.setTwin x).pwr = s.pwr := rfl

@[simp] theorem State.setTwin_qtz (s : State) (x : Twin) :
    (s.setTwin x).qtz = s.qtz := rfl

@[simp] theorem State.setTwin_evt (s : State) (x : Twin) :
    (s.setTwin x).evt = s.evt := rfl

@[simp] theorem State.setTwin_msix (s : State) (x : Twin) :
    (s.setTwin x).msix = s.msix := rfl

@[simp] theorem State.setTwin_free (s : State) (x : Twin) :
    (s.setTwin x).free = s.free := rfl

@[simp] theorem State.setTwin_pending (s : State) (x : Twin) :
    (s.setTwin x).pending = s.pending := rfl

@[simp] theorem State.setTwin_integ (s : State) (x : Twin) :
    (s.setTwin x).integ = s.integ := rfl

@[simp] theorem State.setTwin_eng (s : State) (x : Twin) :
    (s.setTwin x).eng = s.eng := rfl

@[simp] theorem State.setTwin_code (s : State) (x : Twin) :
    (s.setTwin x).code = s.code := rfl

@[simp] theorem State.setTwin_data (s : State) (x : Twin) :
    (s.setTwin x).data = s.data := rfl

@[simp] theorem State.setTwin_dlr (s : State) (x : Twin) :
    (s.setTwin x).dlr = s.dlr := rfl

@[simp] theorem State.setTwin_prof (s : State) (x : Twin) :
    (s.setTwin x).prof = s.prof := rfl

@[simp] theorem State.setTwin_loop (s : State) (x : Twin) :
    (s.setTwin x).loop = s.loop := rfl

@[simp] theorem State.setTwin_sol (s : State) (x : Twin) :
    (s.setTwin x).sol = s.sol := rfl

@[simp] theorem State.setTwin_ssm (s : State) (x : Twin) :
    (s.setTwin x).ssm = s.ssm := rfl

@[simp] theorem State.setTwin_saf (s : State) (x : Twin) :
    (s.setTwin x).saf = s.saf := rfl

@[simp] theorem State.setTwin_ring (s : State) (x : Twin) :
    (s.setTwin x).ring = s.ring := rfl

@[simp] theorem State.setTwin_fbk (s : State) (x : Twin) :
    (s.setTwin x).fbk = s.fbk := rfl

@[simp] theorem State.setTwin_field (s : State) (x : Twin) :
    (s.setTwin x).field = s.field := rfl

@[simp] theorem State.setTwin_plant (s : State) (x : Twin) :
    (s.setTwin x).plant = s.plant := rfl

/-! #### `setQtz` -/

@[simp] theorem State.setQtz_regs (s : State) (q : Quartz) :
    (s.setQtz q).regs = s.regs := rfl

@[simp] theorem State.setQtz_late (s : State) (q : Quartz) :
    (s.setQtz q).late = s.late := rfl

@[simp] theorem State.setQtz_held64 (s : State) (q : Quartz) :
    (s.setQtz q).held64 = s.held64 := rfl

@[simp] theorem State.setQtz_cell (s : State) (q : Quartz) :
    (s.setQtz q).cell = s.cell := rfl

@[simp] theorem State.setQtz_dram (s : State) (q : Quartz) :
    (s.setQtz q).dram = s.dram := rfl

@[simp] theorem State.setQtz_flash (s : State) (q : Quartz) :
    (s.setQtz q).flash = s.flash := rfl

@[simp] theorem State.setQtz_sys (s : State) (q : Quartz) :
    (s.setQtz q).sys = s.sys := rfl

@[simp] theorem State.setQtz_pwr (s : State) (q : Quartz) :
    (s.setQtz q).pwr = s.pwr := rfl

@[simp] theorem State.setQtz_evt (s : State) (q : Quartz) :
    (s.setQtz q).evt = s.evt := rfl

@[simp] theorem State.setQtz_msix (s : State) (q : Quartz) :
    (s.setQtz q).msix = s.msix := rfl

@[simp] theorem State.setQtz_free (s : State) (q : Quartz) :
    (s.setQtz q).free = s.free := rfl

@[simp] theorem State.setQtz_pending (s : State) (q : Quartz) :
    (s.setQtz q).pending = s.pending := rfl

@[simp] theorem State.setQtz_integ (s : State) (q : Quartz) :
    (s.setQtz q).integ = s.integ := rfl

@[simp] theorem State.setQtz_eng (s : State) (q : Quartz) :
    (s.setQtz q).eng = s.eng := rfl

@[simp] theorem State.setQtz_code (s : State) (q : Quartz) :
    (s.setQtz q).code = s.code := rfl

@[simp] theorem State.setQtz_data (s : State) (q : Quartz) :
    (s.setQtz q).data = s.data := rfl

@[simp] theorem State.setQtz_dlr (s : State) (q : Quartz) :
    (s.setQtz q).dlr = s.dlr := rfl

@[simp] theorem State.setQtz_prof (s : State) (q : Quartz) :
    (s.setQtz q).prof = s.prof := rfl

@[simp] theorem State.setQtz_loop (s : State) (q : Quartz) :
    (s.setQtz q).loop = s.loop := rfl

@[simp] theorem State.setQtz_sol (s : State) (q : Quartz) :
    (s.setQtz q).sol = s.sol := rfl

@[simp] theorem State.setQtz_ssm (s : State) (q : Quartz) :
    (s.setQtz q).ssm = s.ssm := rfl

@[simp] theorem State.setQtz_saf (s : State) (q : Quartz) :
    (s.setQtz q).saf = s.saf := rfl

@[simp] theorem State.setQtz_ring (s : State) (q : Quartz) :
    (s.setQtz q).ring = s.ring := rfl

@[simp] theorem State.setQtz_fbk (s : State) (q : Quartz) :
    (s.setQtz q).fbk = s.fbk := rfl

@[simp] theorem State.setQtz_field (s : State) (q : Quartz) :
    (s.setQtz q).field = s.field := rfl

@[simp] theorem State.setQtz_plant (s : State) (q : Quartz) :
    (s.setQtz q).plant = s.plant := rfl

@[simp] theorem State.setQtz_twin (s : State) (q : Quartz) :
    (s.setQtz q).twin = s.twin := rfl

/-! #### `onBus` -/

@[simp] theorem State.onBus_regs (s : State) (v : Nat) :
    (s.onBus v).regs = s.regs := rfl

@[simp] theorem State.onBus_late (s : State) (v : Nat) :
    (s.onBus v).late = s.late := rfl

@[simp] theorem State.onBus_held64 (s : State) (v : Nat) :
    (s.onBus v).held64 = s.held64 := rfl

@[simp] theorem State.onBus_cell (s : State) (v : Nat) :
    (s.onBus v).cell = s.cell := rfl

@[simp] theorem State.onBus_dram (s : State) (v : Nat) :
    (s.onBus v).dram = s.dram := rfl

@[simp] theorem State.onBus_flash (s : State) (v : Nat) :
    (s.onBus v).flash = s.flash := rfl

@[simp] theorem State.onBus_sys (s : State) (v : Nat) :
    (s.onBus v).sys = s.sys := rfl

@[simp] theorem State.onBus_pwr (s : State) (v : Nat) :
    (s.onBus v).pwr = s.pwr := rfl

@[simp] theorem State.onBus_qtz (s : State) (v : Nat) :
    (s.onBus v).qtz = s.qtz := rfl

@[simp] theorem State.onBus_evt (s : State) (v : Nat) :
    (s.onBus v).evt = s.evt := rfl

@[simp] theorem State.onBus_msix (s : State) (v : Nat) :
    (s.onBus v).msix = s.msix := rfl

@[simp] theorem State.onBus_free (s : State) (v : Nat) :
    (s.onBus v).free = s.free := rfl

@[simp] theorem State.onBus_pending (s : State) (v : Nat) :
    (s.onBus v).pending = s.pending := rfl

@[simp] theorem State.onBus_integ (s : State) (v : Nat) :
    (s.onBus v).integ = s.integ := rfl

@[simp] theorem State.onBus_eng (s : State) (v : Nat) :
    (s.onBus v).eng = s.eng := rfl

@[simp] theorem State.onBus_code (s : State) (v : Nat) :
    (s.onBus v).code = s.code := rfl

@[simp] theorem State.onBus_data (s : State) (v : Nat) :
    (s.onBus v).data = s.data := rfl

@[simp] theorem State.onBus_dlr (s : State) (v : Nat) :
    (s.onBus v).dlr = s.dlr := rfl

@[simp] theorem State.onBus_prof (s : State) (v : Nat) :
    (s.onBus v).prof = s.prof := rfl

@[simp] theorem State.onBus_loop (s : State) (v : Nat) :
    (s.onBus v).loop = s.loop := rfl

@[simp] theorem State.onBus_sol (s : State) (v : Nat) :
    (s.onBus v).sol = s.sol := rfl

@[simp] theorem State.onBus_ssm (s : State) (v : Nat) :
    (s.onBus v).ssm = s.ssm := rfl

@[simp] theorem State.onBus_saf (s : State) (v : Nat) :
    (s.onBus v).saf = s.saf := rfl

@[simp] theorem State.onBus_ring (s : State) (v : Nat) :
    (s.onBus v).ring = s.ring := rfl

@[simp] theorem State.onBus_fbk (s : State) (v : Nat) :
    (s.onBus v).fbk = s.fbk := rfl

@[simp] theorem State.onBus_field (s : State) (v : Nat) :
    (s.onBus v).field = s.field := rfl

@[simp] theorem State.onBus_twin (s : State) (v : Nat) :
    (s.onBus v).twin = s.twin := rfl

end Sys2Proof.Machine
end

