-- ==== Sys2Proof/Laws/Tab.lean ====
section
/-! SUPPORT. What the table and memory operations do: a read after a write, other keys unchanged, and the canonical form kept by every
operation. -/

namespace Sys2Proof.Tab

variable {α : Type}

/-! ### Reading after writing -/

@[simp] theorem get_nil (d : Nat → α) (k : Nat) : get d [] k = d k := rfl

theorem get_erase_self (d : Nat → α) (m : List (Nat × α)) (k : Nat) : get d (erase k m) k = d k := by
  induction m with
  | nil => rfl
  | cons e t ih =>
    obtain ⟨a, v⟩ := e
    by_cases h : a = k <;> simp [erase, get, h, ih]

theorem get_erase_ne (d : Nat → α) (m : List (Nat × α)) {j k : Nat} (h : j ≠ k) : get d (erase k m) j = get d m j := by
  induction m with
  | nil => rfl
  | cons e t ih =>
    obtain ⟨a, v⟩ := e
    by_cases ha : a = k
    · subst ha; simp [erase, get, ih, Ne.symm h]
    · simp [erase, get, ha, ih]

theorem get_insert_ne (d : Nat → α) (m : List (Nat × α)) (v : α) {j k : Nat} (h : j ≠ k) :
    get d (insert k v m) j = get d m j := by
  induction m with
  | nil => simp [insert, get, Ne.symm h]
  | cons e t ih =>
    obtain ⟨a, w⟩ := e
    by_cases hk : k < a <;> simp [insert, get, hk, ih, Ne.symm h]

theorem get_insert_erase (d : Nat → α) (m : List (Nat × α)) (v : α) (k : Nat) : get d (insert k v (erase k m)) k = v := by
  induction m with
  | nil => simp [erase, insert, get]
  | cons e t ih =>
    obtain ⟨a, w⟩ := e
    by_cases ha : a = k
    · simpa [erase, ha] using ih
    · by_cases hk : k < a <;> simp [erase, insert, get, ha, hk, ih]

/-- A read of a table after a write of one key. -/
theorem get_set [DecidableEq α] (d : Nat → α) (m : List (Nat × α)) (k j : Nat) (v : α) :
    get d (set d m k v) j = if j = k then v else get d m j := by
  unfold set
  by_cases hv : v = d k
  · by_cases h : j = k
    · subst h; simp [hv, get_erase_self]
    · simp [hv, h, get_erase_ne d m h]
  · by_cases h : j = k
    · subst h; simp [hv, get_insert_erase]
    · simp [hv, h, get_insert_ne d _ v h, get_erase_ne d m h]

@[simp] theorem get_set_self [DecidableEq α] (d : Nat → α) (m : List (Nat × α)) (k : Nat) (v : α) :
    get d (set d m k v) k = v := by simp [get_set]

theorem get_set_ne [DecidableEq α] (d : Nat → α) (m : List (Nat × α)) {j k : Nat} (v : α) (h : j ≠ k) :
    get d (set d m k v) j = get d m j := by simp [get_set, h]

theorem get_dropRange (d : Nat → α) (m : List (Nat × α)) (lo len j : Nat) :
    get d (dropRange lo len m) j = if lo ≤ j ∧ j < lo + len then d j else get d m j := by
  induction m with
  | nil => simp [dropRange, get]
  | cons e t ih =>
    obtain ⟨a, v⟩ := e
    by_cases ha : lo ≤ a ∧ a < lo + len
    · by_cases hj : a = j
      · subst hj; simp [dropRange, ha, ih]
      · simp [dropRange, ha, ih, get, hj]
    · by_cases hj : a = j
      · subst hj; simp [dropRange, ha, get]
      · simp only [dropRange, ha, if_false, get, hj, ih]

/-! ### The canonical form -/

theorem above_mono {b c : Nat} (h : b ≤ c) {m : List (Nat × α)} (hm : above c m = true) : above b m = true := by
  induction m with
  | nil => rfl
  | cons e t ih =>
    obtain ⟨a, v⟩ := e
    simp only [above, Bool.and_eq_true, decide_eq_true_eq] at hm ⊢
    exact ⟨by omega, ih hm.2⟩

theorem above_erase {b k : Nat} {m : List (Nat × α)} (hm : above b m = true) : above b (erase k m) = true := by
  induction m with
  | nil => rfl
  | cons e t ih =>
    obtain ⟨a, v⟩ := e
    simp only [above, Bool.and_eq_true, decide_eq_true_eq] at hm
    by_cases ha : a = k
    · simpa [erase, ha] using ih hm.2
    · simp [erase, ha, above, hm.1, ih hm.2]

theorem above_insert {b k : Nat} {v : α} {m : List (Nat × α)} (hk : b < k) (hm : above b m = true) :
    above b (insert k v m) = true := by
  induction m with
  | nil => simp [insert, above, hk]
  | cons e t ih =>
    obtain ⟨a, w⟩ := e
    simp only [above, Bool.and_eq_true, decide_eq_true_eq] at hm
    by_cases hka : k < a <;> simp [insert, above, hka, hk, hm.1, hm.2, ih hm.2]

theorem sorted_erase {k : Nat} {m : List (Nat × α)} (hm : sorted m = true) : sorted (erase k m) = true := by
  induction m with
  | nil => rfl
  | cons e t ih =>
    obtain ⟨a, v⟩ := e
    simp only [sorted, Bool.and_eq_true] at hm
    by_cases ha : a = k
    · simpa [erase, ha] using ih hm.2
    · simp [erase, ha, sorted, above_erase hm.1, ih hm.2]

/-- No entry has key `k`. -/
def free (k : Nat) : List (Nat × α) → Prop
  | [] => True
  | (a, _) :: t => a ≠ k ∧ free k t

theorem free_erase (k : Nat) (m : List (Nat × α)) : free k (erase k m) := by
  induction m with
  | nil => trivial
  | cons e t ih =>
    obtain ⟨a, v⟩ := e
    by_cases ha : a = k
    · simpa [erase, ha] using ih
    · simp [erase, ha, free, ih]

theorem sorted_insert {k : Nat} {v : α} {m : List (Nat × α)} (hf : free k m) (hm : sorted m = true) :
    sorted (insert k v m) = true := by
  induction m with
  | nil => rfl
  | cons e t ih =>
    obtain ⟨a, w⟩ := e
    have hs := hm
    simp only [sorted, Bool.and_eq_true] at hm
    obtain ⟨hne, hf⟩ := hf
    by_cases hk : k < a
    · simp [insert, hk, sorted, above, hm.1, hm.2, above_mono (Nat.le_of_lt hk) hm.1]
    · have : a < k := by omega
      simp [insert, hk, sorted, above_insert this hm.1, ih hf hm.2]

theorem lean_erase [DecidableEq α] {d : Nat → α} {k : Nat} {m : List (Nat × α)} (hm : lean d m = true) :
    lean d (erase k m) = true := by
  induction m with
  | nil => rfl
  | cons e t ih =>
    obtain ⟨a, v⟩ := e
    simp only [lean, Bool.and_eq_true] at hm
    by_cases ha : a = k
    · simpa [erase, ha] using ih hm.2
    · simp [erase, ha, lean, hm.1, ih hm.2]

theorem lean_insert [DecidableEq α] {d : Nat → α} {k : Nat} {v : α} {m : List (Nat × α)} (hv : v ≠ d k)
    (hm : lean d m = true) : lean d (insert k v m) = true := by
  induction m with
  | nil => simp [insert, lean, hv]
  | cons e t ih =>
    obtain ⟨a, w⟩ := e
    simp only [lean, Bool.and_eq_true] at hm
    by_cases hk : k < a
    · simp [insert, lean, hk, hv, hm.1, hm.2]
    · simp only [insert, hk, if_false, lean, Bool.and_eq_true]
      exact ⟨hm.1, ih hm.2⟩

@[simp] theorem wf_nil [DecidableEq α] (d : Nat → α) : wf d [] = true := rfl

theorem wf_erase [DecidableEq α] {d : Nat → α} {m : List (Nat × α)} (k : Nat) (hm : wf d m = true) : wf d (erase k m) = true := by
  simp only [wf, Bool.and_eq_true] at hm ⊢
  exact ⟨sorted_erase hm.1, lean_erase hm.2⟩

/-- A write keeps the canonical form. -/
theorem wf_set [DecidableEq α] {d : Nat → α} {m : List (Nat × α)} (k : Nat) (v : α) (hm : wf d m = true) :
    wf d (set d m k v) = true := by
  have he := wf_erase k hm
  unfold set
  by_cases hv : v = d k
  · simpa [hv] using he
  · simp only [wf, Bool.and_eq_true] at he
    simp [hv, wf, sorted_insert (free_erase k m) he.1, lean_insert hv he.2]

theorem above_dropRange {b lo len : Nat} {m : List (Nat × α)} (hm : above b m = true) : above b (dropRange lo len m) = true := by
  induction m with
  | nil => rfl
  | cons e t ih =>
    obtain ⟨a, v⟩ := e
    simp only [above, Bool.and_eq_true, decide_eq_true_eq] at hm
    by_cases ha : lo ≤ a ∧ a < lo + len
    · simpa [dropRange, ha] using ih hm.2
    · simp [dropRange, ha, above, hm.1, ih hm.2]

/-- Clearing a range keeps the canonical form. -/
theorem wf_dropRange [DecidableEq α] {d : Nat → α} {m : List (Nat × α)} (lo len : Nat) (hm : wf d m = true) :
    wf d (dropRange lo len m) = true := by
  induction m with
  | nil => rfl
  | cons e t ih =>
    obtain ⟨a, v⟩ := e
    simp only [wf, sorted, lean, Bool.and_eq_true] at hm ih ⊢
    have it := ih ⟨hm.1.2, hm.2.2⟩
    by_cases ha : lo ≤ a ∧ a < lo + len
    · simpa [dropRange, ha] using it
    · simp [dropRange, ha, sorted, lean, above_dropRange hm.1.1, hm.2.1, it.1, it.2]

theorem above_filter {b : Nat} {f : Nat × α → Bool} {m : List (Nat × α)} (hm : above b m = true) : above b (m.filter f) = true := by
  induction m with
  | nil => rfl
  | cons e t ih =>
    obtain ⟨a, v⟩ := e
    simp only [above, Bool.and_eq_true, decide_eq_true_eq] at hm
    by_cases hf : f (a, v) = true <;> simp [hf, above, hm.1, ih hm.2]

/-- Keeping only some entries keeps the canonical form. -/
theorem wf_filter [DecidableEq α] {d : Nat → α} {m : List (Nat × α)} (f : Nat × α → Bool) (hm : wf d m = true) :
    wf d (m.filter f) = true := by
  induction m with
  | nil => rfl
  | cons e t ih =>
    obtain ⟨a, v⟩ := e
    simp only [wf, sorted, lean, Bool.and_eq_true] at hm ih ⊢
    have it := ih ⟨hm.1.2, hm.2.2⟩
    by_cases hf : f (a, v) = true
    · simp [hf, sorted, lean, above_filter hm.1.1, hm.2.1, it.1, it.2]
    · simpa [hf] using it

/-- Writing a list of entries keeps the canonical form. -/
theorem wf_setAll [DecidableEq α] {d : Nat → α} (l : List (Nat × α)) : ∀ {m : List (Nat × α)}, wf d m = true →
    wf d (setAll d m l) = true := by
  induction l with
  | nil => intro m hm; exact hm
  | cons e t ih =>
    obtain ⟨k, v⟩ := e
    intro m hm
    exact ih (wf_set k v hm)

/-- Copying a range keeps the canonical form. -/
theorem wf_copy [DecidableEq α] {d : Nat → α} {m : List (Nat × α)} (src dst len : Nat) (hm : wf d m = true) :
    wf d (copy d m src dst len) = true := wf_setAll _ (wf_dropRange dst len hm)

end Sys2Proof.Tab

namespace Sys2Proof.Memory

/-- A read of one byte after a write of one byte. -/
theorem get8_set8 (m : Memory) (a b : Nat) (v : BitVec 8) : (m.set8 a v).get8 b = if b = a then v else m.get8 b :=
  Tab.get_set _ _ _ _ _

/-- A write of `n` bytes from `a` leaves every other byte as it was. -/
theorem get8_setN (n : Nat) : ∀ (m : Memory) (a v b : Nat), b < a ∨ a + n ≤ b → (m.setN a n v).get8 b = m.get8 b := by
  induction n with
  | zero => intro m a v b _; rfl
  | succ n ih =>
    intro m a v b h
    rw [setN, ih _ _ _ _ (by omega), get8_set8, if_neg (by omega)]

/-- The bytes that a write of `n` bytes stores, lowest address least significant. -/
theorem getN_setN (n : Nat) : ∀ (m : Memory) (a v : Nat), (m.setN a n v).getN a n = v % 256 ^ n := by
  induction n with
  | zero => intro m a v; simp [getN, Nat.mod_one]
  | succ n ih =>
    intro m a v
    rw [setN, getN, ih, get8_setN n _ _ _ _ (by omega), get8_set8]
    simp [BitVec.toNat_ofNat, Nat.pow_succ, Nat.mul_comm (256 ^ n) 256, Nat.mod_mul]

theorem wf_set8 {m : Memory} (a : Nat) (v : BitVec 8) (hm : m.wf = true) : (m.set8 a v).wf = true := Tab.wf_set a v hm

theorem wf_setN (n : Nat) : ∀ {m : Memory} (a v : Nat), m.wf = true → (m.setN a n v).wf = true := by
  induction n with
  | zero => intro m a v hm; exact hm
  | succ n ih => intro m a v hm; exact ih _ _ (wf_set8 a _ hm)

theorem wf_setBytes (l : List (BitVec 8)) : ∀ {m : Memory} (a : Nat), m.wf = true → (m.setBytes a l).wf = true := by
  induction l with
  | nil => intro m a hm; exact hm
  | cons b t ih => intro m a hm; exact ih _ (wf_set8 a b hm)

theorem wf_clear {m : Memory} (a len : Nat) (hm : m.wf = true) : (m.clear a len).wf = true := Tab.wf_dropRange a len hm

theorem wf_copy {m : Memory} (src dst len : Nat) (hm : m.wf = true) : (m.copy src dst len).wf = true := Tab.wf_copy src dst len hm

end Sys2Proof.Memory
end

