-- ==== Sys2Proof/Laws/Regs.lean ====
section
/-! SUPPORT. Registers read after the register operations: words, fields, bits and 64-bit registers; and what raising a condition,
a stop cause or a refusal does to registers. -/

namespace Sys2Proof

/-! ### Bit fields of numbers -/

/-- A bit of a number whose field `hi:lo` has been replaced. -/
theorem testBit_withBits {hi lo : Nat} (h : lo ≤ hi) (n v i : Nat) :
    (withBits n hi lo v).testBit i = if lo ≤ i ∧ i ≤ hi then v.testBit (i - lo) else n.testBit i := by
  have h1 : n % 2 ^ lo < 2 ^ lo := Nat.mod_lt _ (Nat.two_pow_pos _)
  have h2 : v % 2 ^ (hi + 1 - lo) < 2 ^ (hi + 1 - lo) := Nat.mod_lt _ (Nat.two_pow_pos _)
  have h3 : 2 ^ lo * (v % 2 ^ (hi + 1 - lo)) + n % 2 ^ lo < 2 ^ (hi + 1) := by
    have e' : 2 ^ (hi + 1) = 2 ^ lo * 2 ^ (hi + 1 - lo) := by rw [← Nat.pow_add]; congr 1; omega
    rw [e']
    calc 2 ^ lo * (v % 2 ^ (hi + 1 - lo)) + n % 2 ^ lo
        < 2 ^ lo * (v % 2 ^ (hi + 1 - lo)) + 2 ^ lo := by omega
      _ = 2 ^ lo * (v % 2 ^ (hi + 1 - lo) + 1) := by rw [Nat.mul_add, Nat.mul_one]
      _ ≤ 2 ^ lo * 2 ^ (hi + 1 - lo) := Nat.mul_le_mul_left _ h2
  have e2 : withBits n hi lo v = 2 ^ (hi + 1) * (n / 2 ^ (hi + 1)) + (2 ^ lo * (v % 2 ^ (hi + 1 - lo)) + n % 2 ^ lo) := by
    unfold withBits
    rw [Nat.mul_comm (n / _), Nat.mul_comm (v % _), Nat.add_assoc]
  rw [e2, Nat.testBit_two_pow_mul_add _ h3, Nat.testBit_two_pow_mul_add _ h1]
  by_cases a : i < hi + 1
  · by_cases b : i < lo
    · rw [if_pos a, if_pos b, if_neg (by omega), Nat.testBit_mod_two_pow]
      simp [b]
    · rw [if_pos a, if_neg b, if_pos (by omega), Nat.testBit_mod_two_pow]
      simp only [Bool.and_eq_right_iff_imp, decide_eq_true_eq]
      omega
  · rw [if_neg a, if_neg (by omega), Nat.testBit_div_two_pow]
    congr 1
    omega

/-- A bit of a field. -/
theorem testBit_bitsOf (n hi lo i : Nat) : (bitsOf n hi lo).testBit i = (decide (i < hi + 1 - lo) && n.testBit (i + lo)) := by
  unfold bitsOf
  rw [Nat.testBit_mod_two_pow, Nat.testBit_div_two_pow]

/-- A field just written. -/
theorem bitsOf_withBits {hi lo : Nat} (h : lo ≤ hi) (n v : Nat) : bitsOf (withBits n hi lo v) hi lo = v % 2 ^ (hi + 1 - lo) := by
  apply Nat.eq_of_testBit_eq
  intro i
  rw [testBit_bitsOf, testBit_withBits h, Nat.testBit_mod_two_pow]
  by_cases a : i < hi + 1 - lo
  · rw [if_pos (by omega)]; simp [a]
  · simp [a]

/-- A field outside the one just written. -/
theorem bitsOf_withBits_ne {hi lo hi' lo' : Nat} (h : lo ≤ hi) (h' : hi < lo' ∨ hi' < lo) (n v : Nat) :
    bitsOf (withBits n hi lo v) hi' lo' = bitsOf n hi' lo' := by
  apply Nat.eq_of_testBit_eq
  intro i
  rw [testBit_bitsOf, testBit_bitsOf, testBit_withBits h]
  by_cases a : i < hi' + 1 - lo'
  · rw [if_neg (by omega)]
  · simp [a]

namespace Machine

/-! ### Words -/

/-- A register after a write of a register. -/
theorem rd_wr (s : State) (a b : Nat) (v : Word) : (s.wr a v).rd b = if b = a then v else s.rd b := Tab.get_set _ _ _ _ _

@[simp] theorem rd_wr_self (s : State) (a : Nat) (v : Word) : (s.wr a v).rd a = v := by simp [rd_wr]

theorem rd_wr_ne {a b : Nat} (h : b ≠ a) (s : State) (v : Word) : (s.wr a v).rd b = s.rd b := by simp [rd_wr, h]

@[simp] theorem rd_wrN_self (s : State) (a n : Nat) : (s.wrN a n).rd a = BitVec.ofNat 32 n := rd_wr_self _ _ _

@[simp] theorem rdN_wrN_self (s : State) (a n : Nat) : (s.wrN a n).rdN a = n % 2 ^ 32 := by simp [State.rdN]

theorem rd_wrN_ne {a b : Nat} (h : b ≠ a) (s : State) (n : Nat) : (s.wrN a n).rd b = s.rd b := rd_wr_ne h _ _

theorem rd_setFld_ne {a b : Nat} (h : b ≠ a) (s : State) (hi lo v : Nat) : (s.setFld a hi lo v).rd b = s.rd b := rd_wr_ne h _ _

theorem rd_setBit_ne {a b : Nat} (h : b ≠ a) (s : State) (i : Nat) (v : Bool) : (s.setBit a i v).rd b = s.rd b := rd_wr_ne h _ _

theorem rd_orBits_ne {a b : Nat} (h : b ≠ a) (s : State) (m : Word) : (s.orBits a m).rd b = s.rd b := rd_wr_ne h _ _

theorem rd_add_ne {a b : Nat} (h : b ≠ a) (s : State) (n : Nat) : (s.add a n).rd b = s.rd b := rd_wr_ne h _ _

theorem rd_inc_ne {a b : Nat} (h : b ≠ a) (s : State) : (s.inc a).rd b = s.rd b := rd_wr_ne h _ _

theorem rd_wr64_ne {a b : Nat} (h : b ≠ a) (h' : b ≠ a + 4) (s : State) (n : Nat) : (s.wr64 a n).rd b = s.rd b := by
  rw [State.wr64, rd_wrN_ne h', rd_wrN_ne h]

/-- A counter after an increment: it saturates. -/
theorem rdN_inc (s : State) (a : Nat) : (s.inc a).rdN a = min (s.rdN a + 1) 0xFFFFFFFF := by
  unfold State.inc State.add
  rw [rdN_wrN_self]
  omega

/-- A 64-bit register after a write. -/
theorem rd64_wr64 (s : State) (a n : Nat) : (s.wr64 a n).rd64 a = n % 2 ^ 64 := by
  unfold State.wr64 State.rd64
  rw [rdN_wrN_self]
  have : ((s.wrN a n).wrN (a + 4) (n / 4294967296)).rdN a = n % 2 ^ 32 := by
    unfold State.rdN
    rw [rd_wrN_ne (by omega), rd_wrN_self, BitVec.toNat_ofNat]
  rw [this]
  omega

/-! ### Fields and bits -/

/-- A field just written. -/
theorem fld_setFld {hi lo : Nat} (h : lo ≤ hi) (hb : hi < 32) (s : State) (a v : Nat) :
    (s.setFld a hi lo v).fld a hi lo = v % 2 ^ (hi + 1 - lo) := by
  have hb : withBits (s.rdN a) hi lo v < 2 ^ 32 := by
    apply Nat.lt_pow_two_of_testBit
    intro i hi'
    rw [testBit_withBits h, if_neg (by omega)]
    exact Nat.testBit_lt_two_pow (Nat.lt_of_lt_of_le (s.rd a).isLt (Nat.pow_le_pow_right (by decide) hi'))
  unfold State.setFld State.fld
  rw [rdN_wrN_self, Nat.mod_eq_of_lt hb, bitsOf_withBits h]

/-- A field outside the one just written. -/
theorem fld_setFld_ne {hi lo hi' lo' : Nat} (h : lo ≤ hi) (hb : hi < 32) (h' : hi < lo' ∨ hi' < lo) (s : State) (a v : Nat) :
    (s.setFld a hi lo v).fld a hi' lo' = s.fld a hi' lo' := by
  have hb : withBits (s.rdN a) hi lo v < 2 ^ 32 := by
    apply Nat.lt_pow_two_of_testBit
    intro i hi'
    rw [testBit_withBits h, if_neg (by omega)]
    exact Nat.testBit_lt_two_pow (Nat.lt_of_lt_of_le (s.rd a).isLt (Nat.pow_le_pow_right (by decide) hi'))
  unfold State.setFld State.fld
  rw [rdN_wrN_self, Nat.mod_eq_of_lt hb, bitsOf_withBits_ne h h']

/-- A bit after a write of a bit of the same register. -/
theorem bit_setBit {i : Nat} (hi : i < 32) (s : State) (a j : Nat) (b : Bool) :
    (s.setBit a i b).bit a j = if j = i then b else s.bit a j := by
  unfold State.setBit State.setFld State.bit
  rw [rd_wrN_self, BitVec.getLsbD_ofNat, testBit_withBits (Nat.le_refl i)]
  by_cases h : j = i
  · subst h; cases b <;> simp [b2n, hi]
  · rw [if_neg (by omega), if_neg h]
    unfold State.rdN
    by_cases h32 : j < 32
    · simp [h32, BitVec.getLsbD]
    · simp [h32, BitVec.getLsbD_of_ge _ _ (Nat.le_of_not_lt h32)]

@[simp] theorem bit_setBit_self {i : Nat} (hi : i < 32) (s : State) (a : Nat) (b : Bool) : (s.setBit a i b).bit a i = b := by
  rw [bit_setBit hi, if_pos rfl]

theorem bit_of_rd {s t : State} {a : Nat} (h : t.rd a = s.rd a) (i : Nat) : t.bit a i = s.bit a i := by
  unfold State.bit; rw [h]

theorem fld_of_rd {s t : State} {a : Nat} (h : t.rd a = s.rd a) (hi lo : Nat) : t.fld a hi lo = s.fld a hi lo := by
  unfold State.fld State.rdN; rw [h]

/-! ### Raising a condition writes PG_IRQ_RAW of its page only -/

theorem rd_sendMsix (s : State) (v b : Nat) : (s.sendMsix v).rd b = s.rd b := by
  unfold State.sendMsix; split
  · rfl
  · split <;> rfl

theorem rd_msixEdge (s old : State) (v b : Nat) : (s.msixEdge old v).rd b = s.rd b := by
  unfold State.msixEdge; split
  · exact rd_sendMsix _ _ _
  · rfl

theorem rd_msixWrite (s old : State) (p b : Nat) : (s.msixWrite old p).rd b = s.rd b := by
  unfold State.msixWrite
  dsimp only
  split
  · rw [rd_sendMsix]; split
    · exact rd_sendMsix _ _ _
    · rfl
  · split
    · exact rd_sendMsix _ _ _
    · rfl

theorem rd_raiseLine {p b : Nat} (h : b ≠ Reg.PG_IRQ_RAW p) (s : State) (i : Nat) : (s.raiseLine p i).rd b = s.rd b := by
  unfold State.raiseLine
  rw [rd_msixEdge, rd_setBit_ne h]

theorem rd_report (s : State) (p i : Nat) (al : Bool) (d : Word) (b : Nat) : (s.report p i al d).rd b = s.rd b := by
  unfold State.report; split <;> rfl

theorem rd_event {p b : Nat} (h : b ≠ Reg.PG_IRQ_RAW p) (s : State) (i : Nat) (d : Word) : (s.event p i d).rd b = s.rd b := by
  unfold State.event
  rw [rd_report, rd_raiseLine h]

theorem rd_alarm {p b : Nat} (h : b ≠ Reg.PG_IRQ_RAW p) (s : State) (i : Nat) (d : Word) : (s.alarm p i d).rd b = s.rd b := by
  unfold State.alarm
  rw [rd_report, rd_raiseLine h]

/-- The line of a condition is raised. -/
theorem bit_raiseLine {i : Nat} (hi : i < 32) (s : State) (p : Nat) : (s.raiseLine p i).bit (Reg.PG_IRQ_RAW p) i = true := by
  unfold State.raiseLine
  rw [bit_of_rd (rd_msixEdge _ _ _ _), bit_setBit_self hi]

theorem bit_event {i : Nat} (hi : i < 32) (s : State) (p : Nat) (d : Word) :
    (s.event p i d).bit (Reg.PG_IRQ_RAW p) i = true := by
  unfold State.event
  rw [bit_of_rd (rd_report _ _ _ _ _ _), bit_raiseLine hi]

theorem bit_alarm {i : Nat} (hi : i < 32) (s : State) (p : Nat) (d : Word) :
    (s.alarm p i d).bit (Reg.PG_IRQ_RAW p) i = true := by
  unfold State.alarm
  rw [bit_of_rd (rd_report _ _ _ _ _ _), bit_raiseLine hi]

theorem rd_trigger (s : State) (d : DevState) (b : Nat) : (s.trigger d).rd b = s.rd b := by
  unfold State.trigger; split <;> rfl

theorem rd_stopCause {b : Nat} (h : b ≠ Reg.SYS_STOP_CAUSE) (s : State) (c : StopCause) : (s.stopCause c).rd b = s.rd b := by
  unfold State.stopCause
  dsimp only
  split
  · rw [rd_trigger, rd_setBit_ne h, rd_setBit_ne h]
  · rw [rd_trigger, rd_setBit_ne h, rd_setBit_ne h]
  · rw [rd_setBit_ne h, rd_setBit_ne h]
  · rw [rd_setBit_ne h]

theorem rd_refuseAccess {p b : Nat} (h : b ≠ Reg.PG_STAT p) (h' : b ≠ Reg.PG_ERR_CNT p) (s : State) :
    (s.refuseAccess p).rd b = s.rd b := by
  unfold State.refuseAccess
  rw [rd_inc_ne h', rd_setBit_ne h]

theorem rd_detLapse {b : Nat} (h : b ≠ Reg.SYS_STAT) (h' : b ≠ Reg.PG_IRQ_RAW Page.SYS) (s : State) :
    (s.detLapse).rd b = s.rd b := by
  unfold State.detLapse; split
  · rfl
  · rw [rd_event h', rd_setBit_ne h]

end Machine

end Sys2Proof
end

