-- ==== Sys2Proof/Laws/Complete.lean ====
section
/-! SUPPORT. How a command is shown to complete: software writes that reach their page, and what register writes and raised conditions
leave as it was. -/

namespace Sys2Proof.Machine

theorem swWrite_writable {s : State} {ag : Agent} {p : Nat} (h : s.writable ag p = true) (f : State → State) : s.swWrite ag p f = f s := by
  simp only [State.writable, Bool.and_eq_true, Bool.not_eq_true'] at h
  obtain ⟨⟨⟨⟨h1, h2⟩, h3⟩, h4⟩, h5⟩ := h
  unfold State.swWrite
  rw [if_neg (by simp [h1, Option.isSome_iff_ne_none.mp h2]), if_neg (by simp [h3]), if_pos (by simp [h4, h5])]

theorem writable_clocked {s : State} {ag : Agent} {p : Nat} (h : s.writable ag p = true) : s.clocked = true := by
  simp only [State.writable, Bool.and_eq_true] at h
  exact h.1.1.1.1

theorem completes_write {s : State} {ag : Agent} {p : Nat} {c : Instr} {f : State → State} {P : State → Prop} (h : s.writable ag p = true)
    (hc : exec c s = .next (s.swWrite ag p f)) (hp : P (f s)) : Completes c s P :=
  ⟨_, by rw [hc, swWrite_writable h], hp⟩

theorem completes_cfg {s : State} {ag : Agent} {p : Nat} {c : Instr} {ok : Bool} {ref acc : State → State} {P : State → Prop}
    (h : s.cfgWritable ag p = true) (hok : ok = true)
    (hc : exec c s = .next (s.cfgWrite ag p ok ref acc)) (hp : P ((acc s).cfgAccepted p)) : Completes c s P := by
  simp only [State.cfgWritable, Bool.and_eq_true, Bool.not_eq_true'] at h
  refine ⟨_, by rw [hc, State.cfgWrite, swWrite_writable h.1, if_neg (by simp [h.2]), if_pos hok], hp⟩

theorem State.SameRegs.refl (s : State) : s.SameRegs s [] := fun _ _ => rfl
theorem State.SameRegs.trans {s t u : State} {l m : List Nat} (h : s.SameRegs t l) (k : t.SameRegs u m) : s.SameRegs u (l ++ m) := by
  intro a ha
  rw [k a (fun e => ha (List.mem_append_right _ e)), h a (fun e => ha (List.mem_append_left _ e))]
theorem State.SameRegs.mono {s t : State} {l m : List Nat} (h : s.SameRegs t l) (k : ∀ a ∈ l, a ∈ m) : s.SameRegs t m :=
  fun a ha => h a (fun e => ha (k a e))

theorem State.Writes.refl (s : State) : s.Writes s [] := ⟨fun _ _ => rfl, rfl⟩
theorem State.Writes.trans {s t u : State} {l m : List Nat} (h : s.Writes t l) (k : t.Writes u m) : s.Writes u (l ++ m) := by
  refine ⟨h.1.trans k.1, ?_⟩
  rw [k.2, h.2]
theorem State.Writes.mono {s t : State} {l m : List Nat} (h : s.Writes t l) (k : ∀ a ∈ l, a ∈ m) : s.Writes t m := ⟨h.1.mono k, h.2⟩

theorem State.Raises.trans {s t u : State} {l m : List Nat} {r q : List Raising} (h : s.Raises t l r) (k : t.Raises u m q) :
    s.Raises u (l ++ m) (r ++ q) := by
  refine ⟨h.1.trans k.1, ?_⟩
  rw [k.2, h.2]
  simp only [List.append_assoc]
theorem State.Raises.mono {s t : State} {l m : List Nat} {r : List Raising} (h : s.Raises t l r) (k : ∀ a ∈ l, a ∈ m) : s.Raises t m r :=
  ⟨h.1.mono k, h.2⟩
theorem State.Writes.raises {s t : State} {l : List Nat} (h : s.Writes t l) : s.Raises t l [] := by
  refine ⟨h.1, ?_⟩
  rw [h.2]; simp only [List.append_nil]

theorem wr_writes (s : State) (a : Nat) (v : Word) : s.Writes (s.wr a v) [a] :=
  ⟨fun b hb => rd_wr_ne (by simpa using hb) _ _, rfl⟩
theorem wrN_writes (s : State) (a n : Nat) : s.Writes (s.wrN a n) [a] := wr_writes _ _ _
theorem setFld_writes (s : State) (a hi lo v : Nat) : s.Writes (s.setFld a hi lo v) [a] := wr_writes _ _ _
theorem setBit_writes (s : State) (a i : Nat) (b : Bool) : s.Writes (s.setBit a i b) [a] := wr_writes _ _ _
theorem orBits_writes (s : State) (a : Nat) (m : Word) : s.Writes (s.orBits a m) [a] := wr_writes _ _ _
theorem clrBits_writes (s : State) (a : Nat) (m : Word) : s.Writes (s.clrBits a m) [a] := wr_writes _ _ _
theorem add_writes (s : State) (a n : Nat) : s.Writes (s.add a n) [a] := wr_writes _ _ _
theorem inc_writes (s : State) (a : Nat) : s.Writes (s.inc a) [a] := wr_writes _ _ _
theorem wr64_writes (s : State) (a n : Nat) : s.Writes (s.wr64 a n) [a, a + 4] := (wrN_writes _ _ _).trans (wrN_writes _ _ _)

theorem sendMsix_raises (s : State) (v : Nat) : s.Raises (s.sendMsix v) [] [] := by
  unfold State.sendMsix
  refine ⟨fun a _ => rd_sendMsix _ _ _, ?_⟩
  split
  · simp only [List.append_nil]
  · split <;> simp only [List.append_nil]
theorem msixEdge_raises (s old : State) (v : Nat) : s.Raises (s.msixEdge old v) [] [] := by
  unfold State.msixEdge
  split
  · exact sendMsix_raises _ _
  · exact (State.Writes.refl s).raises
theorem msixWrite_raises (s old : State) (p : Nat) : s.Raises (s.msixWrite old p) [] [] := by
  unfold State.msixWrite
  dsimp only
  split
  · refine State.Raises.trans (l := []) (r := []) (t := if s.hostVector (old.fld (Reg.PG_CTRL p) 5 0) = true then
      s.sendMsix (old.fld (Reg.PG_CTRL p) 5 0) else s) ?_ (sendMsix_raises _ _)
    split
    · exact sendMsix_raises _ _
    · exact (State.Writes.refl s).raises
  · split
    · exact sendMsix_raises _ _
    · exact (State.Writes.refl s).raises
theorem raiseLine_raises (s : State) (p b : Nat) : s.Raises (s.raiseLine p b) [Reg.PG_IRQ_RAW p] [] :=
  (setBit_writes _ _ _ _).raises.trans (msixEdge_raises _ _ _)

theorem rd64_of_same {s t : State} {l : List Nat} (h : s.SameRegs t l) {a : Nat} (h1 : a ∉ l) (h2 : a + 4 ∉ l) : t.rd64 a = s.rd64 a := by
  unfold State.rd64 State.rdN
  rw [h _ h1, h _ h2]

theorem clocked_of_sys {s t : State} (h : t.sys = s.sys) : t.clocked = s.clocked := by unfold State.clocked; rw [h]

theorem report_raises {s : State} (hc : s.clocked = true) (p b : Nat) (al : Bool) (d : Word) :
    s.Raises (s.report p b al d) [] [⟨p, b, al, d, s.now⟩] := by
  unfold State.report
  rw [if_pos hc]
  exact ⟨fun _ _ => rfl, rfl⟩

theorem raised_clocked {s t : State} {l : List Nat} {r : List Raising} (h : s.Raises t l r) : t.clocked = s.clocked := by
  unfold State.clocked; rw [h.2]

theorem wrote_clocked {s t : State} {l : List Nat} (h : s.Writes t l) : t.clocked = s.clocked := by
  unfold State.clocked; rw [h.2]

theorem same_now {s t : State} {l : List Nat} (h : s.SameRegs t l) (h1 : Reg.QTZ_TIME_NS ∉ l) (h2 : Reg.QTZ_TIME_NS + 4 ∉ l) : t.now = s.now :=
  rd64_of_same h h1 h2

theorem irqRaw_ne_time (p : Nat) : Reg.QTZ_TIME_NS ∉ [Reg.PG_IRQ_RAW p] ∧ Reg.QTZ_TIME_NS + 4 ∉ [Reg.PG_IRQ_RAW p] := by
  simp only [List.mem_singleton, Reg.PG_IRQ_RAW, Reg.QTZ_TIME_NS]; omega

theorem event_raises {s : State} (hc : s.clocked = true) (p b : Nat) (d : Word) :
    s.Raises (s.event p b d) [Reg.PG_IRQ_RAW p] [⟨p, b, false, d, s.now⟩] := by
  have h := raiseLine_raises s p b
  have k := report_raises (s := s.raiseLine p b) ((raised_clocked h).trans hc) p b false d
  rw [same_now h.1 (irqRaw_ne_time p).1 (irqRaw_ne_time p).2] at k
  exact h.trans k
theorem alarm_raises {s : State} (hc : s.clocked = true) (p b : Nat) (d : Word) :
    s.Raises (s.alarm p b d) [Reg.PG_IRQ_RAW p] [⟨p, b, true, d, s.now⟩] := by
  have h := raiseLine_raises s p b
  have k := report_raises (s := s.raiseLine p b) ((raised_clocked h).trans hc) p b true d
  rw [same_now h.1 (irqRaw_ne_time p).1 (irqRaw_ne_time p).2] at k
  exact h.trans k

end Sys2Proof.Machine
end

