-- ==== Sys2Proof/Laws/Engine.lean ====
section
/-! SUPPORT. What a complete bundle of one slot does to an engine that is at a fresh bundle boundary, for the effects that reach neither
memory nor the Dealer. -/

namespace Sys2Proof.Machine

/-- An effect on the engine's own registers, its loops or its pc. -/
def EngEff.plain : EngEff → Bool
  | .d _ _ => true
  | .dLate _ _ => true
  | .ax _ _ => true
  | .sp _ _ => true
  | .acc _ _ => true
  | .accMov _ _ => true
  | .cmp _ _ => true
  | .pe _ => true
  | .clrs => true
  | .branch _ => true
  | .loop _ _ _ => true
  | _ => false

theorem engOf_setEng (s : State) (e k : Nat) (g : Eng) : (s.setEng e g).engOf k = if k = e then g else s.engOf k :=
  Tab.get_set _ _ _ _ _

theorem setEng_setEng_of (s : State) (e : Nat) (g h : Eng) (k : Nat) : ((s.setEng e g).setEng e h).engOf k = if k = e then h else s.engOf k := by
  rw [engOf_setEng, engOf_setEng]; split <;> rfl

theorem inSlots_one {slot : Nat} (h : slot < 6) (l : List EngEff) : inSlots (l.map (fun x => (slot, x))) = l.map (fun x => (slot, x)) := by
  unfold inSlots
  rw [show List.range 6 = [0, 1, 2, 3, 4, 5] from rfl]
  simp only [List.flatMap_cons, List.flatMap_nil, List.append_nil, List.filter_map]
  have e : ∀ k, (l.filter ((fun p : Nat × EngEff => p.1 == k) ∘ fun x => (slot, x))) = if slot = k then l else [] := by
    intro k
    by_cases hk : slot = k
    · rw [if_pos hk, List.filter_eq_self]; intro x _; simp [hk]
    · rw [if_neg hk, List.filter_eq_nil_iff]; intro x _; simp [hk]
  rw [e 0, e 1, e 2, e 3, e 4, e 5]
  have : slot = 0 ∨ slot = 1 ∨ slot = 2 ∨ slot = 3 ∨ slot = 4 ∨ slot = 5 := by omega
  rcases this with rfl | rfl | rfl | rfl | rfl | rfl <;> simp

theorem accesses_plain {l : List (Nat × EngEff)} (h : ∀ p ∈ l, p.2.plain = true) (s : State) (e : Nat) : s.accesses e l = (s, []) := by
  induction l with
  | nil => rfl
  | cons p l ih =>
    obtain ⟨k, x⟩ := p
    have hx : x.plain = true := h (k, x) List.mem_cons_self
    have hl := ih (fun q hq => h q (List.mem_cons_of_mem _ hq))
    cases x <;> first | exact hl | (simp [EngEff.plain] at hx)

theorem control_plain {x : EngEff} (h : x.plain = true) (s : State) (e : Nat) : s.engControl e x = s := by
  cases x <;> first | (exfalso; revert h; decide) | rfl | (exfalso; simp [EngEff.plain] at h)

theorem controls_plain {l : List EngEff} (h : ∀ x ∈ l, x.plain = true) {s : State} {e : Nat} (hw : (s.engOf e).setfWait = false) :
    s.engControls e l = s := by
  induction l with
  | nil => rfl
  | cons x l ih =>
    unfold State.engControls
    rw [if_neg (by rw [hw]; decide), control_plain (h x List.mem_cons_self)]
    exact ih (fun y hy => h y (List.mem_cons_of_mem _ hy))

theorem stall_plain {l : List EngEff} (h : ∀ x ∈ l, x.plain = true) (k : Nat) : stallCycles k l = (0, k) := by
  induction l with
  | nil => rfl
  | cons x l ih =>
    have hx := h x List.mem_cons_self
    have hl := ih (fun y hy => h y (List.mem_cons_of_mem _ hy))
    cases x <;> first | exact hl | (simp [EngEff.plain] at hx)

theorem firstFault_plain {l : List EngEff} (h : ∀ x ∈ l, x.plain = true) (s : State) (e pc : Nat) : s.firstFault e pc l = none := by
  induction l generalizing s with
  | nil => rfl
  | cons x l ih =>
    have hx := h x List.mem_cons_self
    have hl := fun t => ih (fun y hy => h y (List.mem_cons_of_mem _ hy)) t
    cases x <;> first | exact hl _ | (simp [EngEff.plain] at hx)

theorem noFault_plain {s : State} {e : Nat} {g : Eng} (hu : s.ueIn e g.pc 8 = false) (hc : s.codeReserved e g.pc = false)
    (hd : g.delay = none) (h4 : g.loopLast 0 = false) (h7 : g.loopLast 1 = false) (hp : ∀ p ∈ g.staged, p.2.plain = true) : s.bundleFault e g = none := by
  have hmem : ∀ x ∈ g.staged.map (fun p => p.2), x.plain = true := by
    intro x hx
    obtain ⟨p, hp', rfl⟩ := List.mem_map.mp hx
    exact hp p hp'
  unfold State.bundleFault
  dsimp only
  rw [hu, hc, hd, h4, h7]
  have hr : (g.staged.map (fun p => p.2)).contains EngEff.reserved = false := by
    rw [List.contains_eq_any_beq, List.any_eq_false]
    intro x hx hb
    rw [← eq_of_beq hb] at hx
    exact absurd (hmem _ hx) (by decide)
  have hy : (g.staged.map (fun p => p.2)).any (fun x => x == EngEff.yield || x == EngEff.rte) = false := by
    rw [List.any_eq_false]
    intro x hx hb
    have := hmem x hx
    rcases (Bool.or_eq_true _ _).mp hb with hb | hb <;> rw [eq_of_beq hb] at this <;> exact absurd this (by decide)
  simp only [hr, hy, firstFault_plain hmem, Option.isSome_none, Bool.false_and, Bool.or_self, Bool.false_eq_true, if_false, Option.map_none]

theorem fresh_parts {s : State} {e : Nat} (h : s.freshBundle e = true) :
    s.engRuns e = true ∧ (s.engOf e).staged = [] ∧ (s.engOf e).late = [] ∧ (s.engOf e).delay = none ∧ (s.engOf e).loopLast 0 = false ∧
      (s.engOf e).loopLast 1 = false ∧ s.codeReserved e (s.engOf e).pc = false ∧ s.ueIn e (s.engOf e).pc 8 = false ∧
      (s.engOf e).setfWait = false := by
  simp only [State.freshBundle, Bool.and_eq_true, List.isEmpty_iff, Option.isNone_iff_eq_none, beq_iff_eq, Bool.not_eq_true'] at h
  obtain ⟨⟨⟨⟨⟨⟨⟨⟨⟨h1, h2⟩, h3⟩, h4⟩, _⟩, _⟩, h5⟩, h6⟩, hc⟩, h7⟩ := h
  refine ⟨h1, h2, h3, h4, h5, h6, hc, h7, ?_⟩
  · simp only [State.engRuns, Bool.and_eq_true, Bool.not_eq_true'] at h1
    exact h1.2

theorem apply_setfWait (g : Eng) (x : EngEff) : (g.apply x).setfWait = g.setfWait := by
  cases x <;> rfl

theorem foldl_apply_setfWait (l : List EngEff) : ∀ g : Eng, (l.foldl Eng.apply g).setfWait = g.setfWait := by
  induction l with
  | nil => intro g; rfl
  | cons x l ih => intro g; exact (ih _).trans (apply_setfWait g x)

theorem loopTest_setfWait (g : Eng) (l : Nat) : (g.loopTest l).1.setfWait = g.setfWait := by
  unfold Eng.loopTest
  split
  · split <;> rfl
  · rfl

theorem loopTests_setfWait (g : Eng) : g.loopTests.1.setfWait = g.setfWait := by
  unfold Eng.loopTests
  split
  · rfl
  · have h1 := loopTest_setfWait g 1
    split
    · rename_i e; rw [e] at h1; exact h1
    · rename_i e; rw [e] at h1; exact (loopTest_setfWait _ 0).trans h1

theorem after_setfWait (g : Eng) (loads : List (Nat × Nat × Word)) (h : g.setfWait = false) : (g.after loads).setfWait = false := by
  unfold Eng.after
  dsimp only
  rw [foldl_apply_setfWait, loopTests_setfWait]
  exact h

theorem add_engOf (s : State) (a n k : Nat) : (s.add a n).engOf k = s.engOf k := rfl
theorem wr64_engOf (s : State) (a n k : Nat) : (s.wr64 a n).engOf k = s.engOf k := rfl
theorem setBit_engOf (s : State) (a i : Nat) (b : Bool) (k : Nat) : (s.setBit a i b).engOf k = s.engOf k := rfl

theorem bundle_end {s u : State} {e : Nat} {g : Eng} (hg : g.setfWait = false) (hw : (u.engOf e).setfWait = false)
    (hk : ∀ k, k ≠ e → u.engOf k = s.engOf k)
    (hr : s.SameRegs u [Reg.ENG_BUSY_CNT e, Reg.ENG_BUSY_CNT e + 4, Reg.ENG_STALL_CNT e]) (hm : s.SameMemory u)
    (hb : u.rd64 (Reg.ENG_BUSY_CNT e) = min (s.rd64 (Reg.ENG_BUSY_CNT e) + 1) (2 ^ 64 - 1)) :
    s.OneBundle ((u.setEng e { g with setfWait := (u.engOf e).setfWait }).setBit (Reg.ENG_STAT e) 4 (g.sr.getLsbD srPE)) e g ∧
    ((u.setEng e { g with setfWait := (u.engOf e).setfWait }).setBit (Reg.ENG_STAT e) 4 (g.sr.getLsbD srPE)).rd64 (Reg.ENG_BUSY_CNT e) =
      min (s.rd64 (Reg.ENG_BUSY_CNT e) + 1) (2 ^ 64 - 1) ∧
    ((u.setEng e { g with setfWait := (u.engOf e).setfWait }).setBit (Reg.ENG_STAT e) 4 (g.sr.getLsbD srPE)).bit (Reg.ENG_STAT e) 4 =
      g.sr.getLsbD srPE := by
  have hs : ({ g with setfWait := (u.engOf e).setfWait } : Eng) = g := by rw [hw, ← hg]
  rw [hs]
  refine ⟨⟨?_, ?_, ?_, ?_⟩, ?_, bit_setBit_self (by decide) _ _ _⟩
  · rw [setBit_engOf, engOf_setEng, if_pos rfl]
  · intro k h
    rw [setBit_engOf, engOf_setEng, if_neg h, hk k h]
  · intro a ha
    simp only [List.mem_cons, List.not_mem_nil, or_false, not_or] at ha
    rw [rd_setBit_ne ha.2.2.2]
    exact hr a (by simp [ha.1, ha.2.1, ha.2.2.1])
  · exact ⟨hm.1, hm.2.1, hm.2.2.1, hm.2.2.2.1, hm.2.2.2.2⟩
  · rw [rd64_of_same (setBit_writes _ _ _ _).1 (by simp [Reg.ENG_BUSY_CNT, Reg.ENG_STAT])
      (by simp [Reg.ENG_BUSY_CNT, Reg.ENG_STAT]; omega)]
    exact hb

/-- A complete bundle of plain effects. -/
theorem engSlot_plain {s : State} {e slot : Nat} {f : Eng → List EngEff} (h : s.freshBundle e = true) (hs : slot < 6)
    (hp : ∀ x ∈ f (s.engOf e), x.plain = true) :
    s.OneBundle (s.engSlot e slot true f) e
      (({ s.engOf e with staged := (f (s.engOf e)).map (fun x => (slot, x)) } : Eng).after []) ∧
    (s.engSlot e slot true f).rd64 (Reg.ENG_BUSY_CNT e) = min (s.rd64 (Reg.ENG_BUSY_CNT e) + 1) (2 ^ 64 - 1) ∧
    (s.engSlot e slot true f).bit (Reg.ENG_STAT e) 4 =
      (({ s.engOf e with staged := (f (s.engOf e)).map (fun x => (slot, x)) } : Eng).after []).sr.getLsbD srPE := by
  obtain ⟨hr, hst, hl, hd, h0, h1, hc, hu, hw⟩ := fresh_parts h
  unfold State.engSlot
  rw [if_pos hr, if_pos rfl, hst]
  simp only [List.filter_nil, List.nil_append]
  generalize hl' : (f (s.engOf e)).map (fun x => (slot, x)) = l
  have hin : inSlots l = l := by rw [← hl']; exact inSlots_one hs _
  have hpl : ∀ p ∈ l, p.2.plain = true := by
    intro p hp'
    rw [← hl'] at hp'
    obtain ⟨x, hx, rfl⟩ := List.mem_map.mp hp'
    exact hp x hx
  have hpe : ∀ x ∈ l.map (fun p => p.2), x.plain = true := by
    intro x hx
    obtain ⟨p, hp', rfl⟩ := List.mem_map.mp hx
    exact hpl p hp'
  unfold State.bundle
  dsimp only
  rw [engOf_setEng, if_pos rfl]
  dsimp only
  rw [hin]
  have hnf : State.bundleFault ((s.setEng e { s.engOf e with staged := l }).setEng e { s.engOf e with staged := l }) e
      { s.engOf e with staged := l } = none := noFault_plain hu hc hd h0 h1 hpl
  rw [hnf]
  dsimp only
  rw [accesses_plain hpl]
  unfold State.engCount
  rw [stall_plain hpe]
  dsimp only
  generalize hg : (({ s.engOf e with staged := l } : Eng).after []) = g
  have hgw : g.setfWait = false := by rw [← hg]; exact after_setfWait _ _ hw
  rw [controls_plain hpe]
  rotate_left
  · rw [setBit_engOf, engOf_setEng, if_pos rfl]
    show (State.engOf _ e).setfWait = false
    rw [add_engOf, wr64_engOf, engOf_setEng, if_pos rfl]
    exact hw
  refine bundle_end hgw ?_ ?_ ?_ ⟨rfl, rfl, rfl, rfl, rfl⟩ ?_
  · rw [add_engOf, wr64_engOf, engOf_setEng, if_pos rfl]; exact hw
  · intro k hk
    rw [add_engOf, wr64_engOf]
    show ((s.setEng e _).setEng e _).engOf k = _
    rw [engOf_setEng, if_neg hk, engOf_setEng, if_neg hk]
  · intro a ha
    simp only [List.mem_cons, List.not_mem_nil, or_false, not_or] at ha
    rw [rd_add_ne ha.2.2, rd_wr64_ne ha.1 ha.2.1]
    rfl
  · rw [rd64_of_same (add_writes _ _ _).1 (by simp [Reg.ENG_BUSY_CNT, Reg.ENG_STALL_CNT])
      (by simp [Reg.ENG_BUSY_CNT, Reg.ENG_STALL_CNT]; omega), rd64_wr64]
    show min (s.rd64 (Reg.ENG_BUSY_CNT e) + 1 + 0) (2 ^ 64 - 1) % 2 ^ 64 = _
    omega

end Sys2Proof.Machine
end

