-- ==== Sys2Proof/Laws/Kept/Base.lean ====
section
/-! SUPPORT. The canonical form of registers and memories, the queue and the device state: updates of other fields keep them, and so
do the ways in which operations are put together. The files beside this one say it of every operation of the machine. -/

namespace Sys2Proof.Machine

theorem State.Sound.kept {s : State} (h : s.Sound) : s.Kept s.pending s.sys.dev := ⟨h.1, rfl, rfl, h.2⟩

theorem State.Kept.sound {q : List Instr} {d : DevState} {s : State} (h : s.Kept q d) : s.Sound :=
  ⟨h.toCanonical, fun x hx => by rw [h.dev]; exact h.legal x hx⟩

/-- Every table may change that stays in its form; the other fields are free but for the device state and its triggers. -/
theorem kept_tables {q : List Instr} {d : DevState} {t : State} (h : t.Kept q d) {regs cell dram flash code data late held64 sys pwr qtz
    evt msix free integ eng dlr prof loop sol ssm saf ring fbk field plant twin}
    (hr : Tab.wf regReset t.regs = true → Tab.wf regReset regs = true)
    (hc : t.cell.wf = true → cell.wf = true) (hd : t.dram.wf = true → dram.wf = true) (hf : t.flash.wf = true → flash.wf = true)
    (ho : t.code.wf = true → code.wf = true) (ha : t.data.wf = true → data.wf = true)
    (hs : sys.dev = t.sys.dev ∧ sys.triggers = t.sys.triggers) :
    (State.mk regs late held64 cell dram flash sys pwr qtz evt msix free t.pending integ eng code data dlr prof loop sol ssm
      saf ring fbk field plant twin).Kept q d :=
  ⟨⟨hr h.regs, hc h.cell, hd h.dram, hf h.flash, ho h.code, ha h.data⟩, h.queue, hs.1.trans h.dev,
    fun x hx => h.legal x (by rw [← hs.2]; exact hx)⟩

/-- A state with other values in the fields that are neither a table nor the queue, the device state or its triggers. -/
theorem kept_update {q : List Instr} {d : DevState} {t : State} (h : t.Kept q d) {late held64 sys pwr qtz evt msix free integ eng dlr prof
    loop sol ssm saf ring fbk field plant twin} (hs : sys.dev = t.sys.dev ∧ sys.triggers = t.sys.triggers) :
    (State.mk t.regs late held64 t.cell t.dram t.flash sys pwr qtz evt msix free t.pending integ eng t.code t.data dlr prof loop sol ssm
      saf ring fbk field plant twin).Kept q d :=
  kept_tables h id id id id id id hs

theorem kept_ite {q : List Instr} {d : DevState} {c : Prop} [Decidable c] {s t : State} (hs : s.Kept q d) (ht : t.Kept q d) :
    (if c then s else t).Kept q d := by split <;> assumption

theorem forUpTo_kept {q : List Instr} {d : DevState} {f : Nat → State → State} (hf : ∀ i t, t.Kept q d → (f i t).Kept q d) (n : Nat)
    {s : State} (h : s.Kept q d) : (forUpTo f n s).Kept q d := by
  induction n with
  | zero => exact h
  | succ n ih => exact hf _ _ ih

theorem forEach_kept {α : Type} {q : List Instr} {d : DevState} {f : α → State → State}
    (hf : ∀ x t, t.Kept q d → (f x t).Kept q d) (l : List α) :
    ∀ {s : State}, s.Kept q d → (forEach f l s).Kept q d := by
  induction l with
  | nil => intro s h; exact h
  | cons x l ih => intro s h; exact ih (hf x s h)

theorem foldl_kept {α : Type} {q : List Instr} {d : DevState} {f : State → α → State}
    (hf : ∀ t x, t.Kept q d → (f t x).Kept q d) (l : List α) :
    ∀ {s : State}, s.Kept q d → (l.foldl f s).Kept q d := by
  induction l with
  | nil => intro s h; exact h
  | cons x l ih => intro s h; exact ih (hf s x h)

theorem when_kept {q : List Instr} {d : DevState} {f : State → State} (hf : ∀ t, t.Kept q d → (f t).Kept q d) {s : State} {b : Bool}
    (h : s.Kept q d) : (s.when b f).Kept q d := by
  cases b
  · exact h
  · exact hf s h

theorem getD_map_kept {α : Type} {q : List Instr} {d : DevState} {f : α → State} {o : Option α} {s : State}
    (hf : ∀ x, (f x).Kept q d) (h : s.Kept q d) : ((o.map f).getD s).Kept q d := by
  cases o
  · exact h
  · exact hf _

theorem kept_pair {α β : Type} {q : List Instr} {d : DevState} (p : α × State) (x : β) (h : p.2.Kept q d) :
    ((x, p.2) : β × State).2.Kept q d := h

theorem kept_id {q : List Instr} {d : DevState} {s : State} (h : s.Kept q d) : (id s).Kept q d := h

theorem wr_kept {q : List Instr} {d : DevState} {s : State} (h : s.Kept q d) {a : Nat} {v : Word} : (s.wr a v).Kept q d :=
  kept_tables h (Tab.wf_set _ _) id id id id id ⟨rfl, rfl⟩

theorem setAll_wf {l : List Host.Cell} {m : Memory} (h : m.wf = true) : Memory.wf (Tab.setAll Memory.blank m l) = true :=
  Tab.wf_setAll l h

theorem dropRange_wf {m : Memory} {lo len : Nat} (h : m.wf = true) : Memory.wf (Tab.dropRange lo len m) = true :=
  Tab.wf_dropRange lo len h

theorem nil_wf : Memory.wf [] = true := rfl

theorem setDram_wf {ws : List Word} : ∀ {m : Memory} {a : Nat}, m.wf = true → (setDram m a ws).wf = true := by
  induction ws with
  | nil => intro m a h; exact h
  | cons w ws ih => intro m a h; exact ih (Memory.wf_setN _ _ _ h)

/-! ### Moves of the device state -/

/-- No trigger is listed in OFF, RESET and FROZEN. -/
theorem no_transition {d : DevState} (h : d.live = false) (x : DevState) : transition d x = false := by
  cases d <;> first | rfl | simp [DevState.live] at h

/-- A state that OFF, RESET or FROZEN leaves holds no trigger. -/
theorem State.Kept.idle {q : List Instr} {d : DevState} {s : State} (h : s.Kept q d) (hd : d.live = false) : s.sys.triggers = [] := by
  cases e : s.sys.triggers with
  | nil => rfl
  | cons x l =>
    have := h.legal x (by rw [e]; exact List.mem_cons_self)
    rw [no_transition hd] at this
    cases this

/-- A trigger that waits is listed for the present state. -/
theorem State.trigger_kept {q : List Instr} {d : DevState} {s : State} (h : s.Kept q d) {x : DevState} : (s.trigger x).Kept q d := by
  unfold State.trigger
  split
  · rename_i hc
    refine ⟨⟨h.regs, h.cell, h.dram, h.flash, h.code, h.data⟩, h.queue, h.dev, fun y hy => ?_⟩
    rcases List.mem_append.mp hy with hy | hy
    · exact h.legal y hy
    · rw [List.mem_singleton.mp hy, ← h.dev]
      exact (Bool.and_eq_true_iff.mp hc).1
  · exact h

/-- What a write of a register may do to the device state: nothing, a reset outside OFF, or a freeze of a live part. -/
def State.Goes (q : List Instr) (d : DevState) (s : State) : Prop :=
  ∃ e, (e = d ∨ (d ≠ .off ∧ e = .reset) ∨ (d.live = true ∧ e = .frozen)) ∧ s.Kept q e

theorem State.Kept.goes {q : List Instr} {d : DevState} {s : State} (h : s.Kept q d) : s.Goes q d := ⟨d, .inl rfl, h⟩

theorem State.goes_of {q : List Instr} {d e : DevState} {t : State}
    (he : e = d ∨ (d ≠ .off ∧ e = .reset) ∨ (d.live = true ∧ e = .frozen)) (h : t.Goes q e) : t.Goes q d := by
  obtain ⟨e', he', h'⟩ := h
  refine ⟨e', ?_, h'⟩
  rcases he with rfl | ⟨hd, rfl⟩ | ⟨hd, rfl⟩
  · exact he'
  · rcases he' with rfl | ⟨-, rfl⟩ | ⟨hl, rfl⟩
    · exact .inr (.inl ⟨hd, rfl⟩)
    · exact .inr (.inl ⟨hd, rfl⟩)
    · simp [DevState.live] at hl
  · rcases he' with rfl | ⟨-, rfl⟩ | ⟨hl, rfl⟩
    · exact .inr (.inr ⟨hd, rfl⟩)
    · exact .inr (.inl ⟨fun e => by subst e; simp [DevState.live] at hd, rfl⟩)
    · simp [DevState.live] at hl

theorem State.Goes.bind {q : List Instr} {d : DevState} {s : State} {f : State → State} (h : s.Goes q d)
    (hf : ∀ {e t}, t.Kept q e → (f t).Goes q e) : (f s).Goes q d := by
  obtain ⟨e, he, h⟩ := h
  exact State.goes_of he (hf h)

theorem goes_ite {q : List Instr} {d : DevState} {c : Prop} [Decidable c] {s t : State} (hs : s.Goes q d) (ht : t.Goes q d) :
    (if c then s else t).Goes q d := by split <;> assumption

theorem when_goes {q : List Instr} {d : DevState} {f : State → State} (hf : ∀ {e t}, t.Kept q e → (f t).Goes q e) {s : State} {b : Bool}
    (h : s.Goes q d) : (s.when b f).Goes q d := by
  cases b
  · exact h
  · exact State.Goes.bind (f := f) h hf

theorem clocked_live {s : State} (h : s.clocked = true) : s.sys.dev.live = true := by
  unfold State.clocked at h
  cases e : s.sys.dev <;> simp_all [DevState.live]

end Sys2Proof.Machine
end

