-- ==== Sys2Proof/Laws/Kept/Ops.lean ====
section
/-! SUPPORT. The operations of Machine/Ops.lean keep the canonical form and the queue. -/

namespace Sys2Proof.Machine

set_option tactic.hygienic false
set_option linter.unusedTactic false
set_option linter.unreachableTactic false
set_option linter.unusedVariables false

theorem State.wrN_kept {q_ : List Instr} {d_ : DevState} {s : State} (h : s.Kept q_ d_) {a : Nat} {n : Nat} : (State.wrN s a n).Kept q_ d_ := by
  unfold State.wrN
  try dsimp only
  with_reducible repeat' first
    | assumption | apply wr_kept

theorem State.wrI_kept {q_ : List Instr} {d_ : DevState} {s : State} (h : s.Kept q_ d_) {a : Nat} {i : Int} : (State.wrI s a i).Kept q_ d_ := by
  unfold State.wrI
  try dsimp only
  with_reducible repeat' first
    | assumption | apply wr_kept

theorem State.setFld_kept {q_ : List Instr} {d_ : DevState} {s : State} (h : s.Kept q_ d_) {a : Nat} {hi : Nat} {lo : Nat} {v : Nat} : (State.setFld s a hi lo v).Kept q_ d_ := by
  unfold State.setFld
  try dsimp only
  with_reducible repeat' first
    | assumption | apply State.wrN_kept

theorem State.setBit_kept {q_ : List Instr} {d_ : DevState} {s : State} (h : s.Kept q_ d_) {a : Nat} {i : Nat} {b : Bool} : (State.setBit s a i b).Kept q_ d_ := by
  unfold State.setBit
  try dsimp only
  with_reducible repeat' first
    | assumption | apply State.setFld_kept

theorem State.orBits_kept {q_ : List Instr} {d_ : DevState} {s : State} (h : s.Kept q_ d_) {a : Nat} {m : Word} : (State.orBits s a m).Kept q_ d_ := by
  unfold State.orBits
  try dsimp only
  with_reducible repeat' first
    | assumption | apply wr_kept

theorem State.clrBits_kept {q_ : List Instr} {d_ : DevState} {s : State} (h : s.Kept q_ d_) {a : Nat} {m : Word} : (State.clrBits s a m).Kept q_ d_ := by
  unfold State.clrBits
  try dsimp only
  with_reducible repeat' first
    | assumption | apply wr_kept

theorem State.add_kept {q_ : List Instr} {d_ : DevState} {s : State} (h : s.Kept q_ d_) {a : Nat} {n : Nat} : (State.add s a n).Kept q_ d_ := by
  unfold State.add
  try dsimp only
  with_reducible repeat' first
    | assumption | apply State.wrN_kept

theorem State.inc_kept {q_ : List Instr} {d_ : DevState} {s : State} (h : s.Kept q_ d_) {a : Nat} : (State.inc s a).Kept q_ d_ := by
  unfold State.inc
  try dsimp only
  with_reducible repeat' first
    | assumption | apply State.add_kept

theorem State.wr64_kept {q_ : List Instr} {d_ : DevState} {s : State} (h : s.Kept q_ d_) {a : Nat} {n : Nat} : (State.wr64 s a n).Kept q_ d_ := by
  unfold State.wr64
  try dsimp only
  with_reducible repeat' first
    | assumption | apply State.wrN_kept

theorem State.wrI64_kept {q_ : List Instr} {d_ : DevState} {s : State} (h : s.Kept q_ d_) {a : Nat} {i : Int} : (State.wrI64 s a i).Kept q_ d_ := by
  unfold State.wrI64
  try dsimp only
  with_reducible repeat' first
    | assumption | apply State.wr64_kept

theorem State.holdLow_kept {q_ : List Instr} {d_ : DevState} {s : State} (h : s.Kept q_ d_) {a : Nat} {v : Word} : (State.holdLow s a v).Kept q_ d_ := by
  unfold State.holdLow
  try dsimp only
  with_reducible repeat' first
    | assumption | exact ⟨rfl, rfl⟩ | apply kept_update

theorem State.commitHigh_kept {q_ : List Instr} {d_ : DevState} {s : State} (h : s.Kept q_ d_) {a : Nat} {v : Word} : (State.commitHigh s a v).Kept q_ d_ := by
  unfold State.commitHigh
  try dsimp only
  with_reducible repeat' first
    | assumption | intro _ | apply wr_kept | dsimp only | exact ⟨rfl, rfl⟩ | apply kept_update

theorem State.wrLate_kept {q_ : List Instr} {d_ : DevState} {s : State} (h : s.Kept q_ d_) {a : Nat} {v : Word} : (State.wrLate s a v).Kept q_ d_ := by
  unfold State.wrLate
  try dsimp only
  with_reducible repeat' first
    | assumption | intro _ | apply kept_ite | apply wr_kept | dsimp only | split | exact ⟨rfl, rfl⟩ | apply kept_update

theorem State.advance_kept {q_ : List Instr} {d_ : DevState} {s : State} (h : s.Kept q_ d_) {t : Nat} : (State.advance s t).Kept q_ d_ := by
  unfold State.advance
  try lift_lets
  intros
  try clear_value inc
  try clear_value q
  with_reducible repeat' first
    | assumption | apply kept_ite | apply State.wr64_kept | apply State.wrN_kept | dsimp only | split | dsimp +zetaDelta only

theorem State.takeFree_kept {q_ : List Instr} {d_ : DevState} {s : State} (h : s.Kept q_ d_) : (State.takeFree s).2.Kept q_ d_ := by
  unfold State.takeFree
  try dsimp only
  with_reducible repeat' first
    | assumption | exact ⟨rfl, rfl⟩ | apply kept_update

theorem State.setDomain_kept {q_ : List Instr} {d_ : DevState} {s : State} (h : s.Kept q_ d_) {d : Nat} {on : Bool} : (State.setDomain s d on).Kept q_ d_ := by
  unfold State.setDomain
  try lift_lets
  intros
  try
    have k_s1 : s1.Kept q_ d_ := by
      dsimp only [s1]
      with_reducible repeat' first
        | assumption | apply State.setBit_kept
    clear_value s1
  with_reducible repeat' first
    | assumption | apply State.setBit_kept | dsimp only | dsimp +zetaDelta only

theorem State.sendMsix_kept {q_ : List Instr} {d_ : DevState} {s : State} (h : s.Kept q_ d_) {v : Nat} : (State.sendMsix s v).Kept q_ d_ := by
  unfold State.sendMsix
  try dsimp only
  with_reducible repeat' first
    | assumption | apply kept_ite | split | exact ⟨rfl, rfl⟩ | apply kept_update

theorem State.msixEdge_kept {q_ : List Instr} {d_ : DevState} {s : State} (h : s.Kept q_ d_) {old : State} {v : Nat} : (State.msixEdge s old v).Kept q_ d_ := by
  unfold State.msixEdge
  try dsimp only
  with_reducible repeat' first
    | assumption | apply kept_ite | apply State.sendMsix_kept | split

theorem State.msixWrite_kept {q_ : List Instr} {d_ : DevState} {s : State} (h : s.Kept q_ d_) {old : State} {p : Nat} : (State.msixWrite s old p).Kept q_ d_ := by
  unfold State.msixWrite
  try lift_lets
  intros
  try clear_value v0
  try clear_value v1
  try
    have k_s1 : s1.Kept q_ d_ := by
      dsimp only [s1]
      with_reducible repeat' first
        | assumption | apply kept_ite | apply State.sendMsix_kept | split
    clear_value s1
  with_reducible repeat' first
    | assumption | apply kept_ite | apply State.sendMsix_kept | dsimp only | split | dsimp +zetaDelta only

theorem State.raiseLine_kept {q_ : List Instr} {d_ : DevState} {s : State} (h : s.Kept q_ d_) {p : Nat} {b : Nat} : (State.raiseLine s p b).Kept q_ d_ := by
  unfold State.raiseLine
  try dsimp only
  with_reducible repeat' first
    | assumption | apply State.setBit_kept | apply State.msixEdge_kept

theorem State.report_kept {q_ : List Instr} {d_ : DevState} {s : State} (h : s.Kept q_ d_) {p : Nat} {b : Nat} {alarm : Bool} {detail : Word} : (State.report s p b alarm detail).Kept q_ d_ := by
  unfold State.report
  try dsimp only
  with_reducible repeat' first
    | assumption | apply kept_ite | split | exact ⟨rfl, rfl⟩ | apply kept_update

theorem State.event_kept {q_ : List Instr} {d_ : DevState} {s : State} (h : s.Kept q_ d_) {p : Nat} {b : Nat} {detail : Word} : (State.event s p b detail).Kept q_ d_ := by
  unfold State.event
  try dsimp only
  with_reducible repeat' first
    | assumption | apply State.raiseLine_kept | apply State.report_kept

theorem State.alarm_kept {q_ : List Instr} {d_ : DevState} {s : State} (h : s.Kept q_ d_) {p : Nat} {b : Nat} {detail : Word} : (State.alarm s p b detail).Kept q_ d_ := by
  unfold State.alarm
  try dsimp only
  with_reducible repeat' first
    | assumption | apply State.raiseLine_kept | apply State.report_kept

theorem State.refuseAccess_kept {q_ : List Instr} {d_ : DevState} {s : State} (h : s.Kept q_ d_) {p : Nat} : (State.refuseAccess s p).Kept q_ d_ := by
  unfold State.refuseAccess
  try dsimp only
  with_reducible repeat' first
    | assumption | apply State.setBit_kept | apply State.inc_kept

theorem State.detLapse_kept {q_ : List Instr} {d_ : DevState} {s : State} (h : s.Kept q_ d_) : (State.detLapse s).Kept q_ d_ := by
  unfold State.detLapse
  try dsimp only
  with_reducible repeat' first
    | assumption | apply kept_ite | apply State.setBit_kept | apply State.event_kept | split

theorem State.stopCause_kept {q_ : List Instr} {d_ : DevState} {s : State} (h : s.Kept q_ d_) {c : StopCause} : (State.stopCause s c).Kept q_ d_ := by
  unfold State.stopCause
  try lift_lets
  intros
  try
    have k_s1 : s1.Kept q_ d_ := by
      dsimp only [s1]
      with_reducible repeat' first
        | assumption | apply State.setBit_kept
    clear_value s1
  with_reducible repeat' first
    | assumption | apply State.setBit_kept | apply State.trigger_kept | dsimp only | split | dsimp +zetaDelta only

theorem State.causeGone_kept {q_ : List Instr} {d_ : DevState} {s : State} (h : s.Kept q_ d_) {c : StopCause} : (State.causeGone s c).Kept q_ d_ := by
  unfold State.causeGone
  try dsimp only
  with_reducible repeat' first
    | assumption | apply State.setBit_kept

theorem State.controlPathError_kept {q_ : List Instr} {d_ : DevState} {s : State} (h : s.Kept q_ d_) {scrub : Bool} : (State.controlPathError s scrub).Kept q_ d_ := by
  unfold State.controlPathError
  try lift_lets
  intros
  try
    have k_s1 : s1.Kept q_ d_ := by
      dsimp only [s1]
      with_reducible repeat' first
        | assumption | apply State.setBit_kept
    clear_value s1
  with_reducible repeat' first
    | assumption | apply kept_ite | apply State.alarm_kept | apply State.setBit_kept | apply State.event_kept
    | apply State.stopCause_kept | dsimp only | split | dsimp +zetaDelta only

theorem State.ueFound_kept {q_ : List Instr} {d_ : DevState} {s : State} (h : s.Kept q_ d_) {mem : Nat} {a : Nat} {scrub : Bool} : (State.ueFound s mem a scrub).Kept q_ d_ := by
  unfold State.ueFound
  try lift_lets
  intros
  try clear_value w
  try
    have k_s0 : s0.Kept q_ d_ := by
      dsimp only [s0]
      with_reducible repeat' first
        | assumption | apply kept_ite | split | exact ⟨rfl, rfl⟩ | apply kept_update
    clear_value s0
  try
    have k_s1 : s1.Kept q_ d_ := by
      dsimp only [s1]
      with_reducible repeat' first
        | assumption | apply kept_ite | apply State.inc_kept | apply State.setBit_kept | apply State.event_kept | split
    clear_value s1
  try
    have k_s2 : s2.Kept q_ d_ := by
      dsimp only [s2]
      with_reducible repeat' first
        | assumption | apply State.wr64_kept | apply State.setBit_kept | apply State.event_kept | apply State.detLapse_kept
    clear_value s2
  with_reducible repeat' first
    | assumption | apply kept_ite | apply State.inc_kept | apply State.setBit_kept | apply State.event_kept
    | apply State.wr64_kept | apply State.detLapse_kept | apply State.controlPathError_kept | dsimp only | split
    | dsimp +zetaDelta only | exact ⟨rfl, rfl⟩ | apply kept_update

theorem State.ueRead_kept {q_ : List Instr} {d_ : DevState} {s : State} (h : s.Kept q_ d_) {mem : Nat} {a : Nat} {n : Nat} : (State.ueRead s mem a n).Kept q_ d_ := by
  unfold State.ueRead
  try dsimp only
  with_reducible repeat' first
    | assumption | intro _ | apply State.ueFound_kept | dsimp only | split

theorem State.rmwRefused_kept {q_ : List Instr} {d_ : DevState} {s : State} (h : s.Kept q_ d_) {mem : Nat} {a : Nat} : (State.rmwRefused s mem a).Kept q_ d_ := by
  unfold State.rmwRefused
  try dsimp only
  with_reducible repeat' first
    | assumption | apply State.inc_kept | apply State.setBit_kept | apply State.ueFound_kept

theorem State.ueReplaced_kept {q_ : List Instr} {d_ : DevState} {s : State} (h : s.Kept q_ d_) {mem : Nat} {a : Nat} {n : Nat} : (State.ueReplaced s mem a n).Kept q_ d_ := by
  unfold State.ueReplaced
  try dsimp only
  with_reducible repeat' first
    | assumption | intro _ | apply kept_ite | dsimp only | split | exact ⟨rfl, rfl⟩ | apply kept_update

theorem State.setCell_kept {q_ : List Instr} {d_ : DevState} {s : State} (h : s.Kept q_ d_) {a : Nat} {n : Nat} {v : Nat} : (State.setCell s a n v).Kept q_ d_ := by
  unfold State.setCell
  try dsimp only
  with_reducible repeat' first
    | assumption | exact fun h_ => h_ | exact Tab.wf_set _ _ | exact setDram_wf | exact setAll_wf | exact dropRange_wf
    | exact Tab.wf_dropRange _ _ | exact Tab.wf_filter _ | exact Tab.wf_setAll _ | exact Memory.wf_setN _ _ _
    | exact Memory.wf_setBytes _ _ | exact Memory.wf_clear _ _ | exact Memory.wf_copy _ _ _ | exact fun _ => nil_wf
    | exact fun _ => setAll_wf nil_wf | apply kept_ite | apply State.rmwRefused_kept | apply State.ueReplaced_kept | split
    | exact ⟨rfl, rfl⟩ | apply kept_update | apply kept_tables

theorem State.setCellI_kept {q_ : List Instr} {d_ : DevState} {s : State} (h : s.Kept q_ d_) {a : Nat} {n : Nat} {v : Int} : (State.setCellI s a n v).Kept q_ d_ := by
  unfold State.setCellI
  try dsimp only
  with_reducible repeat' first
    | assumption | apply State.setCell_kept

theorem State.clearCell_kept {q_ : List Instr} {d_ : DevState} {s : State} (h : s.Kept q_ d_) {a : Nat} {len : Nat} : (State.clearCell s a len).Kept q_ d_ := by
  unfold State.clearCell
  try dsimp only
  with_reducible repeat' first
    | assumption | exact fun h_ => h_ | exact Tab.wf_set _ _ | exact setDram_wf | exact setAll_wf | exact dropRange_wf
    | exact Tab.wf_dropRange _ _ | exact Tab.wf_filter _ | exact Tab.wf_setAll _ | exact Memory.wf_setN _ _ _
    | exact Memory.wf_setBytes _ _ | exact Memory.wf_clear _ _ | exact Memory.wf_copy _ _ _ | exact fun _ => nil_wf
    | exact fun _ => setAll_wf nil_wf | apply kept_ite | apply State.ueReplaced_kept | split | exact ⟨rfl, rfl⟩
    | apply kept_update | apply kept_tables

theorem State.copyCell_kept {q_ : List Instr} {d_ : DevState} {s : State} (h : s.Kept q_ d_) {src : Nat} {dst : Nat} {len : Nat} : (State.copyCell s src dst len).Kept q_ d_ := by
  unfold State.copyCell
  try dsimp only
  with_reducible repeat' first
    | assumption | exact fun h_ => h_ | exact Tab.wf_set _ _ | exact setDram_wf | exact setAll_wf | exact dropRange_wf
    | exact Tab.wf_dropRange _ _ | exact Tab.wf_filter _ | exact Tab.wf_setAll _ | exact Memory.wf_setN _ _ _
    | exact Memory.wf_setBytes _ _ | exact Memory.wf_clear _ _ | exact Memory.wf_copy _ _ _ | exact fun _ => nil_wf
    | exact fun _ => setAll_wf nil_wf | apply kept_ite | apply State.ueReplaced_kept | split | exact ⟨rfl, rfl⟩
    | apply kept_update | apply kept_tables

theorem State.storeCell_kept {q_ : List Instr} {d_ : DevState} {s : State} (h : s.Kept q_ d_) {a : Nat} {n : Nat} {v : Nat} : (State.storeCell s a n v).Kept q_ d_ := by
  unfold State.storeCell
  try dsimp only
  with_reducible repeat' first
    | assumption | apply kept_ite | apply State.inc_kept | apply State.setCell_kept | split

theorem State.copySealed_kept {q_ : List Instr} {d_ : DevState} {s : State} (h : s.Kept q_ d_) {src : Nat} {dst : Nat} {len : Nat} : (State.copySealed s src dst len).Kept q_ d_ := by
  unfold State.copySealed
  try dsimp only
  with_reducible repeat' first
    | assumption | apply kept_ite | apply State.inc_kept | apply State.copyCell_kept | split

theorem State.onBus_kept {q_ : List Instr} {d_ : DevState} {s : State} (h : s.Kept q_ d_) {v : Nat} : (State.onBus s v).Kept q_ d_ := by
  unfold State.onBus
  try dsimp only
  with_reducible repeat' first
    | assumption | exact ⟨rfl, rfl⟩ | apply kept_update

theorem State.safetyFound_kept {q_ : List Instr} {d_ : DevState} {s : State} (h : s.Kept q_ d_) {mem : Nat} : (State.safetyFound s mem).Kept q_ d_ := by
  unfold State.safetyFound
  try dsimp only
  with_reducible repeat' first
    | assumption | intro _ | apply forEach_kept | apply State.ueFound_kept | dsimp only

end Sys2Proof.Machine
end

