-- ==== Sys2Proof/Laws/Kept/Events.lean ====
section
/-! SUPPORT. The operations of Machine/Events.lean keep the canonical form and the queue. -/

namespace Sys2Proof.Machine

set_option tactic.hygienic false
set_option linter.unusedTactic false
set_option linter.unreachableTactic false
set_option linter.unusedVariables false

theorem State.almStat_kept {q_ : List Instr} {d_ : DevState} {s : State} (h : s.Kept q_ d_) : (State.almStat s).Kept q_ d_ := by
  unfold State.almStat
  try lift_lets
  intros
  try clear_value n
  try clear_value was
  try
    have k_s1 : s1.Kept q_ d_ := by
      dsimp only [s1]
      with_reducible repeat' first
        | assumption | apply State.setFld_kept | apply State.setBit_kept
    clear_value s1
  with_reducible repeat' first
    | assumption | apply kept_ite | apply State.setFld_kept | apply State.setBit_kept | apply State.raiseLine_kept | dsimp only
    | split | dsimp +zetaDelta only

theorem State.almMirror_kept {q_ : List Instr} {d_ : DevState} {s : State} (h : s.Kept q_ d_) {i : Nat} : (State.almMirror s i).Kept q_ d_ := by
  unfold State.almMirror
  try dsimp only
  with_reducible repeat' first
    | assumption | apply kept_ite | split | exact ⟨rfl, rfl⟩ | apply kept_update

theorem State.almWrite_kept {q_ : List Instr} {d_ : DevState} {s : State} (h : s.Kept q_ d_) {i : Nat} {id : Nat} {origin : Nat} {detail : Word} {first : Nat} {last : Nat} {count : Nat} : (State.almWrite s i id origin detail first last count).Kept q_ d_ := by
  unfold State.almWrite
  try lift_lets
  intros
  try clear_value a
  try clear_value seq
  try
    have k_s1 : s1.Kept q_ d_ := by
      dsimp only [s1]
      with_reducible repeat' first
        | assumption | exact ⟨rfl, rfl⟩ | apply kept_update
    clear_value s1
  try
    have k_s2 : s2.Kept q_ d_ := by
      dsimp only [s2]
      with_reducible repeat' first
        | assumption | apply kept_id | apply State.setCell_kept
    clear_value s2
  try
    have k_s3 : s3.Kept q_ d_ := by
      dsimp only [s3]
      with_reducible repeat' first
        | assumption | apply State.setCell_kept | apply State.clearCell_kept
    clear_value s3
  with_reducible repeat' first
    | assumption | apply kept_id | apply State.setCell_kept | apply State.clearCell_kept | apply State.inc_kept
    | apply State.raiseLine_kept | apply State.almStat_kept | apply State.almMirror_kept | dsimp only | dsimp +zetaDelta only
    | exact ⟨rfl, rfl⟩ | apply kept_update

theorem State.almMerge_kept {q_ : List Instr} {d_ : DevState} {s : State} (h : s.Kept q_ d_) {i : Nat} {detail : Word} {last : Nat} {count : Nat} : (State.almMerge s i detail last count).Kept q_ d_ := by
  unfold State.almMerge
  try lift_lets
  intros
  try clear_value a
  try
    have k_s1 : s1.Kept q_ d_ := by
      dsimp only [s1]
      with_reducible repeat' first
        | assumption | apply State.setCell_kept
    clear_value s1
  try
    have k_s2 : s2.Kept q_ d_ := by
      dsimp only [s2]
      with_reducible repeat' first
        | assumption | apply State.setCell_kept
    clear_value s2
  with_reducible repeat' first
    | assumption | apply State.setCell_kept | apply State.inc_kept | apply State.almMirror_kept | dsimp only
    | dsimp +zetaDelta only

theorem State.almHold_kept {q_ : List Instr} {d_ : DevState} {s : State} (h : s.Kept q_ d_) {page : Nat} {bit : Nat} {detail : Word} {time : Nat} : (State.almHold s page bit detail time).Kept q_ d_ := by
  unfold State.almHold
  try lift_lets
  intros
  try clear_value e
  try clear_value held
  try clear_value times
  with_reducible repeat' first
    | assumption | intro _ | apply kept_ite | apply State.inc_kept | dsimp only | split | dsimp +zetaDelta only | exact ⟨rfl, rfl⟩
    | apply kept_update

theorem State.almArrive_kept {q_ : List Instr} {d_ : DevState} {s : State} (h : s.Kept q_ d_) {page : Nat} {bit : Nat} {detail : Word} {time : Nat} : (State.almArrive s page bit detail time).Kept q_ d_ := by
  unfold State.almArrive
  try dsimp only
  with_reducible repeat' first
    | assumption | apply State.almMerge_kept | apply State.almWrite_kept | apply State.almHold_kept | split

theorem State.nodeWrite_kept {q_ : List Instr} {d_ : DevState} {s : State} (h : s.Kept q_ d_) {i : Nat} {key : Nat} {rec : List (BitVec 8)} {hold : Nat} : (State.nodeWrite s i key rec hold).Kept q_ d_ := by
  unfold State.nodeWrite
  try lift_lets
  intros
  try
    have k_s1 : s1.Kept q_ d_ := by
      dsimp only [s1]
      with_reducible repeat' first
        | assumption | apply State.almWrite_kept
    clear_value s1
  with_reducible repeat' first
    | assumption | exact fun h_ => h_ | exact Tab.wf_set _ _ | exact setDram_wf | exact setAll_wf | exact dropRange_wf
    | exact Tab.wf_dropRange _ _ | exact Tab.wf_filter _ | exact Tab.wf_setAll _ | exact Memory.wf_setN _ _ _
    | exact Memory.wf_setBytes _ _ | exact Memory.wf_clear _ _ | exact Memory.wf_copy _ _ _ | exact fun _ => nil_wf
    | exact fun _ => setAll_wf nil_wf | intro _ | apply State.almWrite_kept | dsimp only | dsimp +zetaDelta only
    | exact ⟨rfl, rfl⟩ | apply kept_update | apply kept_tables

theorem State.almRelease_kept {q_ : List Instr} {d_ : DevState} {s : State} (h : s.Kept q_ d_) {i : Nat} : (State.almRelease s i).Kept q_ d_ := by
  unfold State.almRelease
  try lift_lets
  intros
  try clear_value held
  try clear_value times
  try
    have k_t : t.Kept q_ d_ := by
      dsimp only [t]
      with_reducible repeat' first
        | assumption | intro _ | apply getD_map_kept | dsimp only
    clear_value t
  try
    have k_s1 : s1.Kept q_ d_ := by
      dsimp only [s1]
      with_reducible repeat' first
        | assumption | exact ⟨rfl, rfl⟩ | apply kept_update
    clear_value s1
  with_reducible repeat' first
    | assumption | intro _ | apply kept_ite | apply getD_map_kept | apply State.nodeWrite_kept | apply State.almWrite_kept
    | dsimp only | split | dsimp +zetaDelta only | exact ⟨rfl, rfl⟩ | apply kept_update

theorem State.nodeAlarm_kept {q_ : List Instr} {d_ : DevState} {s : State} (h : s.Kept q_ d_) {port : Nat} {node : Nat} {rec : List (BitVec 8)} : (State.nodeAlarm s port node rec).Kept q_ d_ := by
  unfold State.nodeAlarm
  try dsimp only
  with_reducible repeat' first
    | assumption | intro _ | apply State.almMerge_kept | apply State.nodeWrite_kept | dsimp only | split | exact ⟨rfl, rfl⟩
    | apply kept_update

theorem State.evArrive_kept {q_ : List Instr} {d_ : DevState} {s : State} (h : s.Kept q_ d_) {page : Nat} {bit : Nat} {alarm : Bool} {detail : Word} {time : Nat} : (State.evArrive s page bit alarm detail time).Kept q_ d_ := by
  unfold State.evArrive
  try lift_lets
  intros
  try clear_value e
  with_reducible repeat' first
    | assumption | intro _ | apply kept_ite | apply State.alarm_kept | apply State.inc_kept | dsimp only | split
    | dsimp +zetaDelta only | exact ⟨rfl, rfl⟩ | apply kept_update

theorem State.evrStat_kept {q_ : List Instr} {d_ : DevState} {s : State} (h : s.Kept q_ d_) : (State.evrStat s).Kept q_ d_ := by
  unfold State.evrStat
  try lift_lets
  intros
  try clear_value was
  try
    have k_s1 : s1.Kept q_ d_ := by
      dsimp only [s1]
      with_reducible repeat' first
        | assumption | apply State.setBit_kept
    clear_value s1
  with_reducible repeat' first
    | assumption | apply kept_ite | apply State.setBit_kept | apply State.raiseLine_kept | dsimp only | split
    | dsimp +zetaDelta only

theorem State.evRecord_kept {q_ : List Instr} {d_ : DevState} {s : State} (h : s.Kept q_ d_) {x : EvSlot} : (State.evRecord s x).Kept q_ d_ := by
  unfold State.evRecord
  try lift_lets
  intros
  try clear_value head
  try clear_value a
  try clear_value w0
  try
    have k_s1 : s1.Kept q_ d_ := by
      dsimp only [s1]
      with_reducible repeat' first
        | assumption | apply State.setCell_kept
    clear_value s1
  try
    have k_s2 : s2.Kept q_ d_ := by
      dsimp only [s2]
      with_reducible repeat' first
        | assumption | intro _ | dsimp only | exact ⟨rfl, rfl⟩ | apply kept_update
    clear_value s2
  with_reducible repeat' first
    | assumption | intro _ | apply State.alarm_kept | apply State.setCell_kept | apply State.setFld_kept | apply State.inc_kept
    | apply State.evrStat_kept | dsimp only | dsimp +zetaDelta only | exact ⟨rfl, rfl⟩ | apply kept_update

theorem State.setFifo_kept {q_ : List Instr} {d_ : DevState} {s : State} (h : s.Kept q_ d_) {f : TraceFifo} : (State.setFifo s f).Kept q_ d_ := by
  unfold State.setFifo
  try lift_lets
  intros
  try clear_value rest
  with_reducible repeat' first
    | assumption | intro _ | dsimp only | dsimp +zetaDelta only | exact ⟨rfl, rfl⟩ | apply kept_update

theorem State.stageGap_kept {q_ : List Instr} {d_ : DevState} {s : State} (h : s.Kept q_ d_) {src : Nat} : (State.stageGap s src).Kept q_ d_ := by
  unfold State.stageGap
  try lift_lets
  intros
  try clear_value f
  with_reducible repeat' first
    | assumption | apply kept_ite | apply State.setFifo_kept | apply State.inc_kept | dsimp only | split | dsimp +zetaDelta only
    | exact ⟨rfl, rfl⟩ | apply kept_update

theorem State.stageRec_kept {q_ : List Instr} {d_ : DevState} {s : State} (h : s.Kept q_ d_) {src : Nat} {typ : Nat} {w4 : Word} {w5 : Word} {w6 : Word} {w7 : Word} : (State.stageRec s src typ w4 w5 w6 w7).Kept q_ d_ := by
  unfold State.stageRec
  try lift_lets
  intros
  try clear_value f
  with_reducible repeat' first
    | assumption | apply kept_ite | apply State.setFifo_kept | apply State.inc_kept | apply State.setBit_kept
    | apply State.raiseLine_kept | dsimp only | split | dsimp +zetaDelta only | exact ⟨rfl, rfl⟩ | apply kept_update

theorem State.trace_kept {q_ : List Instr} {d_ : DevState} {s : State} (h : s.Kept q_ d_) {src : Nat} {typ : Nat} {w4 : Word} {w5 : Word} {w6 : Word} {w7 : Word} : (State.trace s src typ w4 w5 w6 w7).Kept q_ d_ := by
  unfold State.trace
  try dsimp only
  with_reducible repeat' first
    | assumption | apply kept_ite | apply State.stageGap_kept | apply State.stageRec_kept | split

theorem State.drain_kept {q_ : List Instr} {d_ : DevState} {s : State} (h : s.Kept q_ d_) {f : TraceFifo} {r : List Word} {rest : List (List Word)} : (State.drain s f r rest).Kept q_ d_ := by
  unfold State.drain
  try lift_lets
  intros
  try clear_value wr
  try clear_value rd
  try clear_value full
  try
    have k_s1 : s1.Kept q_ d_ := by
      dsimp only [s1]
      with_reducible repeat' first
        | assumption | apply kept_ite | apply State.wrN_kept | apply State.inc_kept | split
    clear_value s1
  try
    have k_s2 : s2.Kept q_ d_ := by
      dsimp only [s2]
      with_reducible repeat' first
        | assumption | exact fun h_ => h_ | exact Tab.wf_set _ _ | exact setDram_wf | exact setAll_wf | exact dropRange_wf
        | exact Tab.wf_dropRange _ _ | exact Tab.wf_filter _ | exact Tab.wf_setAll _ | exact Memory.wf_setN _ _ _
        | exact Memory.wf_setBytes _ _ | exact Memory.wf_clear _ _ | exact Memory.wf_copy _ _ _ | exact fun _ => nil_wf
        | exact fun _ => setAll_wf nil_wf | exact ⟨rfl, rfl⟩ | apply kept_update | apply kept_tables
    clear_value s2
  with_reducible repeat' first
    | assumption | exact fun h_ => h_ | exact Tab.wf_set _ _ | exact setDram_wf | exact setAll_wf | exact dropRange_wf
    | exact Tab.wf_dropRange _ _ | exact Tab.wf_filter _ | exact Tab.wf_setAll _ | exact Memory.wf_setN _ _ _
    | exact Memory.wf_setBytes _ _ | exact Memory.wf_clear _ _ | exact Memory.wf_copy _ _ _ | exact fun _ => nil_wf
    | exact fun _ => setAll_wf nil_wf | apply kept_ite | apply State.setBit_kept | apply State.raiseLine_kept
    | apply State.wrN_kept | apply State.inc_kept | apply State.setFifo_kept | dsimp only | split | dsimp +zetaDelta only
    | exact ⟨rfl, rfl⟩ | apply kept_update | apply kept_tables

theorem State.takeRaising_kept {q_ : List Instr} {d_ : DevState} {s : State} (h : s.Kept q_ d_) {r : Raising} : (State.takeRaising s r).Kept q_ d_ := by
  unfold State.takeRaising
  try dsimp only
  with_reducible repeat' first
    | assumption | apply kept_ite | apply State.alarm_kept | apply State.almArrive_kept | apply State.evArrive_kept | split

theorem State.raisingReceive_kept {q_ : List Instr} {d_ : DevState} {s : State} (h : s.Kept q_ d_) {page : Nat} : (State.raisingReceive s page).Kept q_ d_ := by
  unfold State.raisingReceive
  try lift_lets
  intros
  try clear_value mine
  try
    have k_s1 : s1.Kept q_ d_ := by
      dsimp only [s1]
      with_reducible repeat' first
        | assumption | intro _ | dsimp only | exact ⟨rfl, rfl⟩ | apply kept_update
    clear_value s1
  with_reducible repeat' first
    | assumption | intro _ | apply kept_ite | apply forEach_kept | apply State.takeRaising_kept | dsimp only | split
    | dsimp +zetaDelta only | exact ⟨rfl, rfl⟩ | apply kept_update

theorem State.eventRecordWrite_kept {q_ : List Instr} {d_ : DevState} {s : State} (h : s.Kept q_ d_) {page : Nat} : (State.eventRecordWrite s page).Kept q_ d_ := by
  unfold State.eventRecordWrite
  try dsimp only
  with_reducible repeat' first
    | assumption | intro _ | apply kept_ite | apply State.evRecord_kept | dsimp only | split

theorem State.almAck_kept {q_ : List Instr} {d_ : DevState} {s : State} (h : s.Kept q_ d_) {i : Nat} {count : Word} : (State.almAck s i count).Kept q_ d_ := by
  unfold State.almAck
  try dsimp only
  with_reducible repeat' first
    | assumption | apply kept_ite | apply State.setCell_kept | apply State.almStat_kept | apply State.almMirror_kept
    | apply State.almRelease_kept | apply State.setBit_kept | apply State.raiseLine_kept | split

theorem State.evrTail_kept {q_ : List Instr} {d_ : DevState} {s : State} (h : s.Kept q_ d_) {v : Word} : (State.evrTail s v).Kept q_ d_ := by
  unfold State.evrTail
  try dsimp only
  with_reducible repeat' first
    | assumption | apply State.setFld_kept | apply State.evrStat_kept

theorem State.trcRd_kept {q_ : List Instr} {d_ : DevState} {s : State} (h : s.Kept q_ d_) {v : Word} : (State.trcRd s v).Kept q_ d_ := by
  unfold State.trcRd
  try dsimp only
  with_reducible repeat' first
    | assumption | apply wr_kept | apply State.setBit_kept

theorem State.trcSw_kept {q_ : List Instr} {d_ : DevState} {s : State} (h : s.Kept q_ d_) {core : Nat} {typ : Nat} {w4 : Word} {w5 : Word} {w6 : Word} {w7 : Word} : (State.trcSw s core typ w4 w5 w6 w7).Kept q_ d_ := by
  unfold State.trcSw
  try dsimp only
  with_reducible repeat' first
    | assumption | apply State.trace_kept

theorem State.traceDrain_kept {q_ : List Instr} {d_ : DevState} {s : State} (h : s.Kept q_ d_) {src : Nat} : (State.traceDrain s src).Kept q_ d_ := by
  unfold State.traceDrain
  try dsimp only
  with_reducible repeat' first
    | assumption | apply kept_ite | apply State.drain_kept | split

theorem State.evrBoundary_kept {q_ : List Instr} {d_ : DevState} {s : State} (h : s.Kept q_ d_) : (State.evrBoundary s).Kept q_ d_ := by
  unfold State.evrBoundary
  try dsimp only
  with_reducible repeat' first
    | assumption | apply kept_ite | apply wr_kept | apply State.evrStat_kept | split | exact ⟨rfl, rfl⟩ | apply kept_update

end Sys2Proof.Machine
end

