-- ==== Sys2Proof/Laws/Kept/Registers.lean ====
section
/-! SUPPORT. The operations of Machine/Registers.lean keep the canonical form and the queue. -/

namespace Sys2Proof.Machine

set_option tactic.hygienic false
set_option linter.unusedTactic false
set_option linter.unreachableTactic false
set_option linter.unusedVariables false

theorem State.swWrite_kept {q_ : List Instr} {d_ : DevState} {s : State} (h : s.Kept q_ d_) {ag : Agent} {p : Nat} {f : State → State}
    (hf : ∀ (t : State), t.Kept q_ d_ → (f t).Kept q_ d_) : (State.swWrite s ag p f).Kept q_ d_ := by
  unfold State.swWrite
  with_reducible repeat' first
    | assumption | apply kept_ite | apply hf | apply State.inc_kept | apply State.refuseAccess_kept | split

theorem State.swWrite_goes {q_ : List Instr} {d_ : DevState} {s : State} (h : s.Kept q_ d_) {ag : Agent} {p : Nat} {f : State → State}
    (hf : ∀ {e : DevState} {t : State}, t.Kept q_ e → (f t).Goes q_ e) : (State.swWrite s ag p f).Goes q_ d_ := by
  unfold State.swWrite
  split
  · exact h.goes
  · split
    · exact (State.inc_kept h).goes
    · split
      · exact hf h
      · exact (State.refuseAccess_kept h).goes

theorem State.cfgAccepted_kept {q_ : List Instr} {d_ : DevState} {s : State} (h : s.Kept q_ d_) {p : Nat} : (State.cfgAccepted s p).Kept q_ d_ := by
  unfold State.cfgAccepted
  try lift_lets
  intros
  try
    have k_s1 : s1.Kept q_ d_ := by
      dsimp only [s1]
      with_reducible repeat' first
        | assumption | apply State.wrN_kept
    clear_value s1
  with_reducible repeat' first
    | assumption | apply State.wrN_kept | apply State.setBit_kept | dsimp only | dsimp +zetaDelta only

theorem State.cfgWrite_kept {q_ : List Instr} {d_ : DevState} {s : State} (h : s.Kept q_ d_) {ag : Agent} {p : Nat} {ok : Bool} {ref : State → State} (href : ∀  (t : State), t.Kept q_ d_ → (ref  t).Kept q_ d_) {acc : State → State} (hacc : ∀  (t : State), t.Kept q_ d_ → (acc  t).Kept q_ d_) : (State.cfgWrite s ag p ok ref acc).Kept q_ d_ := by
  unfold State.cfgWrite
  try dsimp only
  with_reducible repeat' first
    | assumption | intro _ | apply kept_ite | apply href | apply hacc | apply State.swWrite_kept | apply State.refuseAccess_kept
    | apply State.cfgAccepted_kept | dsimp only | split

theorem State.defaultPage_kept {q_ : List Instr} {d_ : DevState} {s : State} (h : s.Kept q_ d_) {p : Nat} : (State.defaultPage s p).Kept q_ d_ := by
  unfold State.defaultPage
  try dsimp only
  with_reducible repeat' first
    | assumption | exact fun h_ => h_ | exact Tab.wf_set _ _ | exact setDram_wf | exact setAll_wf | exact dropRange_wf
    | exact Tab.wf_dropRange _ _ | exact Tab.wf_filter _ | exact Tab.wf_setAll _ | exact Memory.wf_setN _ _ _
    | exact Memory.wf_setBytes _ _ | exact Memory.wf_clear _ _ | exact Memory.wf_copy _ _ _ | exact fun _ => nil_wf
    | exact fun _ => setAll_wf nil_wf | exact ⟨rfl, rfl⟩ | apply kept_update | apply kept_tables

theorem State.irqSet_kept {q_ : List Instr} {d_ : DevState} {s : State} (h : s.Kept q_ d_) {p : Nat} {v : Word} : (State.irqSet s p v).Kept q_ d_ := by
  unfold State.irqSet
  try dsimp only
  with_reducible repeat' first
    | assumption | apply State.orBits_kept | apply State.msixWrite_kept

theorem State.irqClear_kept {q_ : List Instr} {d_ : DevState} {s : State} (h : s.Kept q_ d_) {p : Nat} {v : Word} : (State.irqClear s p v).Kept q_ d_ := by
  unfold State.irqClear
  try dsimp only
  with_reducible repeat' first
    | assumption | apply State.clrBits_kept | apply State.msixWrite_kept

theorem State.irqEnable_kept {q_ : List Instr} {d_ : DevState} {s : State} (h : s.Kept q_ d_) {p : Nat} {v : Word} : (State.irqEnable s p v).Kept q_ d_ := by
  unfold State.irqEnable
  try dsimp only
  with_reducible repeat' first
    | assumption | apply wr_kept | apply State.msixWrite_kept

theorem State.pgCtrl_kept {q_ : List Instr} {d_ : DevState} {s : State} (h : s.Kept q_ d_) {p : Nat} {v : Word} : (State.pgCtrl s p v).Kept q_ d_ := by
  unfold State.pgCtrl
  try dsimp only
  with_reducible repeat' first
    | assumption | apply wr_kept | apply State.msixWrite_kept

theorem State.pgLock_kept {q_ : List Instr} {d_ : DevState} {s : State} (h : s.Kept q_ d_) {p : Nat} {v : Word} : (State.pgLock s p v).Kept q_ d_ := by
  unfold State.pgLock
  try lift_lets
  intros
  try
    have k_s1 : s1.Kept q_ d_ := by
      dsimp only [s1]
      with_reducible repeat' first
        | assumption | apply State.orBits_kept
    clear_value s1
  with_reducible repeat' first
    | assumption | apply State.orBits_kept | apply State.setBit_kept | dsimp only | dsimp +zetaDelta only

end Sys2Proof.Machine
end

