-- ==== Sys2Proof/Laws/Kept/Device.lean ====
section
/-! SUPPORT. The operations of Machine/Device.lean keep the canonical form and the queue. -/

namespace Sys2Proof.Machine

set_option tactic.hygienic false
set_option linter.unusedTactic false
set_option linter.unreachableTactic false
set_option linter.unusedVariables false

theorem State.lostTrigger_kept {q_ : List Instr} {d_ : DevState} {s : State} (h : s.Kept q_ d_) {x_ : DevState} : (State.lostTrigger s x_).Kept q_ d_ := by
  unfold State.lostTrigger
  try dsimp only
  with_reducible repeat' first
    | assumption | apply State.inc_kept | apply State.event_kept

theorem State.lostTrigger_sys (s : State) (x : DevState) : (s.lostTrigger x).sys = s.sys := by
  have hm : ∀ (t : State) (n : Nat), (t.sendMsix n).sys = t.sys := by
    intro t n
    unfold State.sendMsix
    repeat' first | rfl | split
  have hr : ∀ (t : State) (p b : Nat), (t.raiseLine p b).sys = t.sys := by
    intro t p b
    unfold State.raiseLine State.msixEdge
    split
    · exact (hm _ _).trans rfl
    · rfl
  unfold State.lostTrigger State.event State.report
  split
  · exact (hr _ _ _).trans rfl
  · exact (hr _ _ _).trans rfl

theorem State.loseTriggers_triggers (s : State) (x : DevState) : (s.loseTriggers x).sys.triggers = [] := by
  have hl : ∀ (l : List DevState) (t : State), (forEach (fun e u => u.lostTrigger e) l t).sys = t.sys := by
    intro l
    induction l with
    | nil => intro t; rfl
    | cons y l ih => intro t; exact (ih _).trans (State.lostTrigger_sys t y)
  exact congrArg Sys.triggers (hl _ _)

theorem State.loseTriggers_kept {q_ : List Instr} {d_ : DevState} {s : State} (h : s.Kept q_ d_) {x : DevState} : (s.loseTriggers x).Kept q_ d_ := by
  unfold State.loseTriggers
  dsimp only
  exact forEach_kept (fun _ _ ht => State.lostTrigger_kept ht) _
    ⟨⟨h.regs, h.cell, h.dram, h.flash, h.code, h.data⟩, h.queue, h.dev, fun _ hy => by cases hy⟩

/-- A state with no trigger but those that rule R26 lists for `d'` enters `d'`. -/
theorem State.enter_kept {q_ : List Instr} {d_ : DevState} {s : State} (h : s.Kept q_ d_) {d' : DevState}
    (ht : ∀ x ∈ s.sys.triggers, transition d' x = true) : (s.enter d').Kept q_ d' := by
  unfold State.enter
  dsimp only
  have k1 : State.Kept q_ d' { s with sys := { s.sys with dev := d', ticksInState := 0 } } :=
    ⟨⟨h.regs, h.cell, h.dram, h.flash, h.code, h.data⟩, h.queue, rfl, ht⟩
  revert k1
  generalize ({ s with sys := { s.sys with dev := d', ticksInState := 0 } } : State) = u
  intro k1
  refine kept_ite ?_ (State.event_kept ?_) <;>
  · cases d' <;> first | exact k1 | exact State.setFld_kept k1

end Sys2Proof.Machine
end

