-- ==== Sys2Proof/Laws/Kept/Quartz.lean ====
section
/-! SUPPORT. The operations of Machine/Quartz.lean keep the canonical form and the queue. -/

namespace Sys2Proof.Machine

set_option tactic.hygienic false
set_option linter.unusedTactic false
set_option linter.unreachableTactic false
set_option linter.unusedVariables false

theorem State.timeInc_kept {q_ : List Instr} {d_ : DevState} {s : State} (h : s.Kept q_ d_) {v : Nat} : (State.timeInc s v).Kept q_ d_ := by
  unfold State.timeInc
  try lift_lets
  intros
  try
    have k_s1 : s1.Kept q_ d_ := by
      dsimp only [s1]
      with_reducible repeat' first
        | assumption | apply State.wr64_kept
    clear_value s1
  with_reducible repeat' first
    | assumption | apply kept_ite | apply State.wr64_kept | apply State.setBit_kept | apply State.inc_kept
    | apply State.event_kept | dsimp only | split | dsimp +zetaDelta only | exact ⟨rfl, rfl⟩ | apply kept_update

theorem State.timeIncPart_kept {q_ : List Instr} {d_ : DevState} {s : State} (h : s.Kept q_ d_) {part : WordPart} {v : BitVec 64} : (State.timeIncPart s part v).Kept q_ d_ := by
  unfold State.timeIncPart
  try lift_lets
  intros
  try clear_value low
  with_reducible repeat' first
    | assumption | intro _ | apply getD_map_kept | apply State.timeInc_kept | dsimp only | split | dsimp +zetaDelta only
    | exact ⟨rfl, rfl⟩ | apply kept_update

theorem State.stepReq_kept {q_ : List Instr} {d_ : DevState} {s : State} (h : s.Kept q_ d_) : (State.stepReq s).Kept q_ d_ := by
  unfold State.stepReq
  try dsimp only
  with_reducible repeat' first
    | assumption | apply kept_ite | apply State.setBit_kept | split

theorem State.qtzRefused_kept {q_ : List Instr} {d_ : DevState} {s : State} (h : s.Kept q_ d_) : (State.qtzRefused s).Kept q_ d_ := by
  unfold State.qtzRefused
  try dsimp only
  with_reducible repeat' first
    | assumption | apply State.setBit_kept | apply State.event_kept

theorem State.tickOfs_kept {q_ : List Instr} {d_ : DevState} {s : State} (h : s.Kept q_ d_) {ag : Agent} {v : Word} : (State.tickOfs s ag v).Kept q_ d_ := by
  unfold State.tickOfs
  try lift_lets
  intros
  try clear_value ofs
  try
    have k_t1 : t1.Kept q_ d_ := by
      dsimp only [t1]
      with_reducible repeat' first
        | assumption | apply State.wrN_kept | exact ⟨rfl, rfl⟩ | apply kept_update
    clear_value t1
  with_reducible repeat' first
    | assumption | intro _ | apply State.cfgWrite_kept | apply State.qtzRefused_kept | apply State.wrN_kept | dsimp only
    | dsimp +zetaDelta only | exact ⟨rfl, rfl⟩ | apply kept_update

theorem State.tickLoss_kept {q_ : List Instr} {d_ : DevState} {s : State} (h : s.Kept q_ d_) : (State.tickLoss s).Kept q_ d_ := by
  unfold State.tickLoss
  try dsimp only
  with_reducible repeat' first
    | assumption | apply kept_ite | apply State.setBit_kept | apply State.event_kept | apply State.stopCause_kept | split

theorem State.servoStale_kept {q_ : List Instr} {d_ : DevState} {s : State} (h : s.Kept q_ d_) : (State.servoStale s).Kept q_ d_ := by
  unfold State.servoStale
  try lift_lets
  intros
  try clear_value tmo
  with_reducible repeat' first
    | assumption | apply kept_ite | apply State.setBit_kept | apply State.event_kept | dsimp only | split | dsimp +zetaDelta only

theorem State.applyStep_kept {q_ : List Instr} {d_ : DevState} {s : State} (h : s.Kept q_ d_) {toRun : Bool} : (State.applyStep s toRun).1.Kept q_ d_ := by
  unfold State.applyStep
  try lift_lets
  intros
  try
    have k_s1 : s1.Kept q_ d_ := by
      dsimp only [s1]
      with_reducible repeat' first
        | assumption | apply State.setBit_kept
    clear_value s1
  try
    have k_t : t.Kept q_ d_ := by
      dsimp only [t]
      with_reducible repeat' first
        | assumption | dsimp +zetaDelta only
    clear_value t
  try
    have k_s2 : s2.Kept q_ d_ := by
      dsimp only [s2]
      with_reducible repeat' first
        | assumption | dsimp +zetaDelta only | exact ⟨rfl, rfl⟩ | apply kept_update
    clear_value s2
  with_reducible repeat' first
    | assumption | apply kept_ite | apply State.setBit_kept | apply State.wr64_kept | apply State.event_kept | dsimp only | split
    | dsimp +zetaDelta only | exact ⟨rfl, rfl⟩ | apply kept_update

theorem State.applyOfs_kept {q_ : List Instr} {d_ : DevState} {s : State} (h : s.Kept q_ d_) {toRun : Bool} : (State.applyOfs s toRun).1.Kept q_ d_ := by
  unfold State.applyOfs
  try lift_lets
  intros
  try
    have k_s1 : s1.Kept q_ d_ := by
      dsimp only [s1]
      with_reducible repeat' first
        | assumption | exact ⟨rfl, rfl⟩ | apply kept_update
    clear_value s1
  with_reducible repeat' first
    | assumption | apply kept_ite | apply State.wrN_kept | apply State.qtzRefused_kept | dsimp only | split
    | dsimp +zetaDelta only | exact ⟨rfl, rfl⟩ | apply kept_update

theorem State.applyPeriod_kept {q_ : List Instr} {d_ : DevState} {s : State} (h : s.Kept q_ d_) {toSelftest : Bool} : (State.applyPeriod s toSelftest).1.Kept q_ d_ := by
  unfold State.applyPeriod
  try dsimp only
  with_reducible repeat' first
    | assumption | apply kept_ite | split | exact ⟨rfl, rfl⟩ | apply kept_update

theorem State.qtzCount_kept {q_ : List Instr} {d_ : DevState} {s : State} (h : s.Kept q_ d_) {toRun : Bool} {toSelftest : Bool} : (State.qtzCount s toRun toSelftest).Kept q_ d_ := by
  unfold State.qtzCount
  try lift_lets
  intros
  try clear_value r1
  try clear_value r2
  try clear_value r3
  try clear_value n
  try
    have k_s1 : s1.Kept q_ d_ := by
      dsimp only [s1]
      with_reducible repeat' first
        | assumption | apply State.advance_kept
    clear_value s1
  try
    have k_s2 : s2.Kept q_ d_ := by
      dsimp only [s2]
      with_reducible repeat' first
        | assumption | apply State.applyStep_kept | dsimp +zetaDelta only
    clear_value s2
  try
    have k_s3 : s3.Kept q_ d_ := by
      dsimp only [s3]
      with_reducible repeat' first
        | assumption | apply State.applyOfs_kept | dsimp +zetaDelta only
    clear_value s3
  try
    have k_s4 : s4.Kept q_ d_ := by
      dsimp only [s4]
      with_reducible repeat' first
        | assumption | apply State.applyPeriod_kept | dsimp +zetaDelta only
    clear_value s4
  try
    have k_s5 : s5.Kept q_ d_ := by
      dsimp only [s5]
      with_reducible repeat' first
        | assumption | apply State.wr64_kept | apply State.setBit_kept
    clear_value s5
  with_reducible repeat' first
    | assumption | apply kept_ite | apply State.advance_kept | apply State.applyStep_kept | apply State.applyOfs_kept
    | apply State.applyPeriod_kept | apply State.wr64_kept | apply State.setBit_kept | dsimp only | split | dsimp +zetaDelta only
    | exact ⟨rfl, rfl⟩ | apply kept_update

theorem State.qtzBoundary_kept {q_ : List Instr} {d_ : DevState} {s : State} (h : s.Kept q_ d_) {toRun : Bool} {toSelftest : Bool} : (State.qtzBoundary s toRun toSelftest).Kept q_ d_ := by
  unfold State.qtzBoundary
  try dsimp only
  with_reducible repeat' first
    | assumption | apply State.qtzCount_kept | apply State.raiseLine_kept

theorem State.setQtz_kept {q_ : List Instr} {d_ : DevState} {s : State} (h : s.Kept q_ d_) {q : Quartz} : (State.setQtz s q).Kept q_ d_ := by
  unfold State.setQtz
  try dsimp only
  with_reducible repeat' first
    | assumption | exact ⟨rfl, rfl⟩ | apply kept_update

theorem State.setBegun_kept {q_ : List Instr} {d_ : DevState} {s : State} (h : s.Kept q_ d_) {ph : Phase} : (State.setBegun s ph).Kept q_ d_ := by
  unfold State.setBegun
  try dsimp only
  with_reducible repeat' first
    | assumption | apply State.setQtz_kept | exact ⟨rfl, rfl⟩ | apply kept_update

theorem State.setEnded_kept {q_ : List Instr} {d_ : DevState} {s : State} (h : s.Kept q_ d_) {ph : Phase} {b : Bool} : (State.setEnded s ph b).Kept q_ d_ := by
  unfold State.setEnded
  try dsimp only
  with_reducible repeat' first
    | assumption | apply State.setQtz_kept | exact ⟨rfl, rfl⟩ | apply kept_update

theorem State.setSealed_kept {q_ : List Instr} {d_ : DevState} {s : State} (h : s.Kept q_ d_) {ph : Phase} : (State.setSealed s ph).Kept q_ d_ := by
  unfold State.setSealed
  try dsimp only
  with_reducible repeat' first
    | assumption | apply State.setQtz_kept | exact ⟨rfl, rfl⟩ | apply kept_update

theorem State.setReported_kept {q_ : List Instr} {d_ : DevState} {s : State} (h : s.Kept q_ d_) {ph : Phase} : (State.setReported s ph).Kept q_ d_ := by
  unfold State.setReported
  try dsimp only
  with_reducible repeat' first
    | assumption | apply State.setQtz_kept | exact ⟨rfl, rfl⟩ | apply kept_update

theorem State.endPhase_kept {q_ : List Instr} {d_ : DevState} {s : State} (h : s.Kept q_ d_) {ph : Phase} {ofs : Nat} : (State.endPhase s ph ofs).Kept q_ d_ := by
  unfold State.endPhase
  try lift_lets
  intros
  try
    have k_s1 : s1.Kept q_ d_ := by
      dsimp only [s1]
      with_reducible repeat' first
        | assumption | apply State.wrN_kept
    clear_value s1
  try
    have k_s2 : s2.Kept q_ d_ := by
      dsimp only [s2]
      with_reducible repeat' first
        | assumption | apply State.wrN_kept
    clear_value s2
  with_reducible repeat' first
    | assumption | apply State.wrN_kept | apply State.setEnded_kept | dsimp only | dsimp +zetaDelta only

end Sys2Proof.Machine
end

