-- ==== Sys2Proof/Laws/Kept/Integrity.lean ====
section
/-! SUPPORT. The operations of Machine/Integrity.lean keep the canonical form and the queue. -/

namespace Sys2Proof.Machine

set_option tactic.hygienic false
set_option linter.unusedTactic false
set_option linter.unreachableTactic false
set_option linter.unusedVariables false

theorem State.hardFault_kept {q_ : List Instr} {d_ : DevState} {s : State} (h : s.Kept q_ d_) {mem : Nat} {a : Nat} {bit : Nat} : (State.hardFault s mem a bit).Kept q_ d_ := by
  unfold State.hardFault
  try dsimp only
  with_reducible repeat' first
    | assumption | apply kept_ite | apply State.setBit_kept | apply State.inc_kept | apply State.event_kept | split
    | exact ⟨rfl, rfl⟩ | apply kept_update

theorem State.ceFound_kept {q_ : List Instr} {d_ : DevState} {s : State} (h : s.Kept q_ d_) {mem : Nat} {a : Nat} {bit : Nat} {scrub : Bool} : (State.ceFound s mem a bit scrub).Kept q_ d_ := by
  unfold State.ceFound
  try lift_lets
  intros
  try clear_value w
  try clear_value hardNow
  try clear_value others
  try
    have k_s0 : s0.Kept q_ d_ := by
      dsimp only [s0]
      with_reducible repeat' first
        | assumption | intro _ | apply kept_ite | dsimp only | split | exact ⟨rfl, rfl⟩ | apply kept_update
    clear_value s0
  try
    have k_s1 : s1.Kept q_ d_ := by
      dsimp only [s1]
      with_reducible repeat' first
        | assumption | apply kept_ite | apply State.inc_kept | split
    clear_value s1
  try
    have k_s2 : s2.Kept q_ d_ := by
      dsimp only [s2]
      with_reducible repeat' first
        | assumption | apply State.wr64_kept | apply State.setBit_kept | apply State.event_kept
    clear_value s2
  with_reducible repeat' first
    | assumption | intro _ | apply kept_ite | apply State.inc_kept | apply State.wr64_kept | apply State.setBit_kept
    | apply State.event_kept | apply State.hardFault_kept | dsimp only | split | dsimp +zetaDelta only | exact ⟨rfl, rfl⟩
    | apply kept_update

theorem State.eccRead_kept {q_ : List Instr} {d_ : DevState} {s : State} (h : s.Kept q_ d_) {mem : Nat} {a : Nat} {scrub : Bool} {e : Ecc} : (State.eccRead s mem a scrub e).Kept q_ d_ := by
  unfold State.eccRead
  try dsimp only
  with_reducible repeat' first
    | assumption | apply kept_ite | apply State.ueFound_kept | apply State.ceFound_kept | apply State.fabricError_kept | split

theorem State.scrubRead_kept {q_ : List Instr} {d_ : DevState} {s : State} (h : s.Kept q_ d_) {mem : Nat} {a : Nat} {e : Ecc} : (State.scrubRead s mem a e).Kept q_ d_ := by
  unfold State.scrubRead
  try lift_lets
  intros
  try
    have k_s1 : s1.Kept q_ d_ := by
      dsimp only [s1]
      with_reducible repeat' first
        | assumption | apply State.eccRead_kept
    clear_value s1
  with_reducible repeat' first
    | assumption | apply kept_ite | apply State.eccRead_kept | apply State.inc_kept | dsimp only | split | dsimp +zetaDelta only

theorem State.eccWriteBack_kept {q_ : List Instr} {d_ : DevState} {s : State} (h : s.Kept q_ d_) {mem : Nat} {a : Nat} {cancelled : Bool} : (State.eccWriteBack s mem a cancelled).Kept q_ d_ := by
  unfold State.eccWriteBack
  try lift_lets
  intros
  try clear_value w
  try
    have k_s1 : s1.Kept q_ d_ := by
      dsimp only [s1]
      with_reducible repeat' first
        | assumption | intro _ | dsimp only | exact ⟨rfl, rfl⟩ | apply kept_update
    clear_value s1
  with_reducible repeat' first
    | assumption | intro _ | apply kept_ite | apply State.inc_kept | dsimp only | split | dsimp +zetaDelta only | exact ⟨rfl, rfl⟩
    | apply kept_update

theorem State.ddrScrub_kept {q_ : List Instr} {d_ : DevState} {s : State} (h : s.Kept q_ d_) {a : Nat} {e : Ecc} : (State.ddrScrub s a e).Kept q_ d_ := by
  unfold State.ddrScrub
  try dsimp only
  with_reducible repeat' first
    | assumption | apply kept_ite | apply State.eccRead_kept | split

theorem State.fabricHit_kept {q_ : List Instr} {d_ : DevState} {s : State} (h : s.Kept q_ d_) {load : FabricLoad} : (State.fabricHit s load).Kept q_ d_ := by
  unfold State.fabricHit
  try dsimp only
  with_reducible repeat' first
    | assumption | apply kept_ite | apply kept_id | apply State.controlPathError_kept | apply State.checkedWord_kept | split

theorem State.fabricError_kept {q_ : List Instr} {d_ : DevState} {s : State} (h : s.Kept q_ d_) {link : Nat} {load : FabricLoad} : (State.fabricError s link load).Kept q_ d_ := by
  unfold State.fabricError
  try dsimp only
  with_reducible repeat' first
    | assumption | apply State.inc_kept | apply State.wrN_kept | apply State.setBit_kept | apply State.event_kept
    | apply State.detLapse_kept | apply State.fabricHit_kept

theorem State.dieError_kept {q_ : List Instr} {d_ : DevState} {s : State} (h : s.Kept q_ d_) {load : FabricLoad} : (State.dieError s load).Kept q_ d_ := by
  unfold State.dieError
  try lift_lets
  intros
  try
    have k_s1 : s1.Kept q_ d_ := by
      dsimp only [s1]
      with_reducible repeat' first
        | assumption | apply State.inc_kept
    clear_value s1
  with_reducible repeat' first
    | assumption | apply State.inc_kept | apply State.checkedWord_kept | dsimp only | split | dsimp +zetaDelta only
    | exact ⟨rfl, rfl⟩ | apply kept_update

theorem State.fabricNak_kept {q_ : List Instr} {d_ : DevState} {s : State} (h : s.Kept q_ d_) {link : Nat} {resends : Nat} {load : FabricLoad} : (State.fabricNak s link resends load).Kept q_ d_ := by
  unfold State.fabricNak
  try dsimp only
  with_reducible repeat' first
    | assumption | apply kept_ite | apply State.checkedWord_kept | apply State.inc_kept | apply State.dieError_kept
    | apply State.fabricError_kept | split

theorem State.stallTimeout_kept {q_ : List Instr} {d_ : DevState} {s : State} (h : s.Kept q_ d_) {sender : Nat} {receiver : Nat} : (State.stallTimeout s sender receiver).Kept q_ d_ := by
  unfold State.stallTimeout
  try dsimp only
  with_reducible repeat' first
    | assumption | apply kept_ite | apply State.add_kept | apply State.setBit_kept | apply State.inc_kept | apply State.wrN_kept
    | apply State.alarm_kept | split

theorem State.crossingRearm_kept {q_ : List Instr} {d_ : DevState} {s : State} (h : s.Kept q_ d_) {sender : Nat} {receiver : Nat} {lost : Nat} : (State.crossingRearm s sender receiver lost).Kept q_ d_ := by
  unfold State.crossingRearm
  try dsimp only
  with_reducible repeat' first
    | assumption | apply State.add_kept | apply State.setBit_kept | apply State.wrN_kept | apply State.inc_kept
    | apply State.event_kept

theorem State.tempSample_kept {q_ : List Instr} {d_ : DevState} {s : State} (h : s.Kept q_ d_) {t : RegionTemps} : (State.tempSample s t).Kept q_ d_ := by
  unfold State.tempSample
  try lift_lets
  intros
  try clear_value p
  try clear_value d
  try clear_value high
  try
    have k_s1 : s1.Kept q_ d_ := by
      dsimp only [s1]
      with_reducible repeat' first
        | assumption | apply State.wrN_kept | apply State.setBit_kept
    clear_value s1
  try
    have k_s2 : s2.Kept q_ d_ := by
      dsimp only [s2]
      with_reducible repeat' first
        | assumption | apply kept_ite | split | exact ⟨rfl, rfl⟩ | apply kept_update
    clear_value s2
  with_reducible repeat' first
    | assumption | apply kept_ite | apply State.wrN_kept | apply State.setBit_kept | apply State.alarm_kept | dsimp only | split
    | dsimp +zetaDelta only | exact ⟨rfl, rfl⟩ | apply kept_update

end Sys2Proof.Machine
end

