-- ==== Sys2Proof/Laws/Kept/Dealer.lean ====
section
/-! SUPPORT. The operations of Machine/Dealer.lean keep the canonical form and the queue. -/

namespace Sys2Proof.Machine

set_option tactic.hygienic false
set_option linter.unusedTactic false
set_option linter.unreachableTactic false
set_option linter.unusedVariables false

theorem State.setCtxW_kept {q_ : List Instr} {d_ : DevState} {s : State} (h : s.Kept q_ d_) {t : Nat} {w : Nat} {v : Word} : (State.setCtxW s t w v).Kept q_ d_ := by
  unfold State.setCtxW
  try dsimp only
  with_reducible repeat' first
    | assumption | exact ⟨rfl, rfl⟩ | apply kept_update

theorem State.setCtxF_kept {q_ : List Instr} {d_ : DevState} {s : State} (h : s.Kept q_ d_) {t : Nat} {w : Nat} {hi : Nat} {lo : Nat} {v : Nat} : (State.setCtxF s t w hi lo v).Kept q_ d_ := by
  unfold State.setCtxF
  try dsimp only
  with_reducible repeat' first
    | assumption | apply State.setCtxW_kept

theorem State.setTaskRt_kept {q_ : List Instr} {d_ : DevState} {s : State} (h : s.Kept q_ d_) {t : Nat} {r : DlrTask} : (State.setTaskRt s t r).Kept q_ d_ := by
  unfold State.setTaskRt
  try dsimp only
  with_reducible repeat' first
    | assumption | intro _ | dsimp only | exact ⟨rfl, rfl⟩ | apply kept_update

theorem State.setEng_kept {q_ : List Instr} {d_ : DevState} {s : State} (h : s.Kept q_ d_) {e : Nat} {g : Eng} : (State.setEng s e g).Kept q_ d_ := by
  unfold State.setEng
  try dsimp only
  with_reducible repeat' first
    | assumption | intro _ | dsimp only | exact ⟨rfl, rfl⟩ | apply kept_update

theorem State.flowBlockStat_kept {q_ : List Instr} {d_ : DevState} {s : State} (h : s.Kept q_ d_) : (State.flowBlockStat s).Kept q_ d_ := by
  unfold State.flowBlockStat
  try dsimp only
  with_reducible repeat' first
    | assumption | intro _ | apply State.setBit_kept | dsimp only

theorem State.flowBlock_kept {q_ : List Instr} {d_ : DevState} {s : State} (h : s.Kept q_ d_) {f : Nat} : (State.flowBlock s f).Kept q_ d_ := by
  unfold State.flowBlock
  try dsimp only
  with_reducible repeat' first
    | assumption | intro _ | apply getD_map_kept | apply State.setBit_kept | apply State.inc_kept | apply State.event_kept
    | apply State.flowBlockStat_kept | apply State.trace_kept

theorem State.flowCheck_kept {q_ : List Instr} {d_ : DevState} {s : State} (h : s.Kept q_ d_) {f : Nat} : (State.flowCheck s f).Kept q_ d_ := by
  unfold State.flowCheck
  try dsimp only
  with_reducible repeat' first
    | assumption | apply kept_ite | apply State.flowBlock_kept | split

theorem State.taskFlowCheck_kept {q_ : List Instr} {d_ : DevState} {s : State} (h : s.Kept q_ d_) {t : Nat} : (State.taskFlowCheck s t).Kept q_ d_ := by
  unfold State.taskFlowCheck
  try dsimp only
  with_reducible repeat' first
    | assumption | apply kept_ite | apply State.flowCheck_kept | split

theorem State.newRound_kept {q_ : List Instr} {d_ : DevState} {s : State} (h : s.Kept q_ d_) {f : Nat} : (State.newRound s f).Kept q_ d_ := by
  unfold State.newRound
  try lift_lets
  intros
  try clear_value odd
  try
    have k_s1 : s1.Kept q_ d_ := by
      dsimp only [s1]
      with_reducible repeat' first
        | assumption | apply State.setFld_kept
    clear_value s1
  try
    have k_s2 : s2.Kept q_ d_ := by
      dsimp only [s2]
      with_reducible repeat' first
        | assumption | intro _ | apply kept_ite | apply forEach_kept | apply State.setTaskRt_kept | dsimp only | split
        | exact ⟨rfl, rfl⟩ | apply kept_update
    clear_value s2
  with_reducible repeat' first
    | assumption | intro _ | apply kept_ite | apply forEach_kept | apply State.setFld_kept | apply State.setTaskRt_kept
    | apply State.flowBlockStat_kept | dsimp only | split | dsimp +zetaDelta only | exact ⟨rfl, rfl⟩ | apply kept_update

theorem State.kittyStat_kept {q_ : List Instr} {d_ : DevState} {s : State} (h : s.Kept q_ d_) : (State.kittyStat s).Kept q_ d_ := by
  unfold State.kittyStat
  try dsimp only
  with_reducible repeat' first
    | assumption | intro _ | apply State.setFld_kept | dsimp only | exact ⟨rfl, rfl⟩ | apply kept_update

theorem State.setTaskState_kept {q_ : List Instr} {d_ : DevState} {s : State} (h : s.Kept q_ d_) {t : Nat} {st : Nat} : (State.setTaskState s t st).Kept q_ d_ := by
  unfold State.setTaskState
  try dsimp only
  with_reducible repeat' first
    | assumption | apply State.setCtxF_kept

theorem State.toQueue_kept {q_ : List Instr} {d_ : DevState} {s : State} (h : s.Kept q_ d_) {t : Nat} {st : Nat} : (State.toQueue s t st).Kept q_ d_ := by
  unfold State.toQueue
  try lift_lets
  intros
  try
    have k_s1 : s1.Kept q_ d_ := by
      dsimp only [s1]
      with_reducible repeat' first
        | assumption | apply State.setTaskState_kept
    clear_value s1
  with_reducible repeat' first
    | assumption | apply State.setTaskState_kept | apply State.setTaskRt_kept | dsimp only | dsimp +zetaDelta only
    | exact ⟨rfl, rfl⟩ | apply kept_update

theorem State.enqueue_kept {q_ : List Instr} {d_ : DevState} {s : State} (h : s.Kept q_ d_) {t : Nat} {st : Nat} : (State.enqueue s t st).Kept q_ d_ := by
  unfold State.enqueue
  try lift_lets
  intros
  try
    have k_s2 : s2.Kept q_ d_ := by
      dsimp only [s2]
      with_reducible repeat' first
        | assumption | apply State.toQueue_kept
    clear_value s2
  with_reducible repeat' first
    | assumption | apply kept_ite | apply State.toQueue_kept | apply State.inc_kept | dsimp only | split | dsimp +zetaDelta only

theorem State.readyCheck_kept {q_ : List Instr} {d_ : DevState} {s : State} (h : s.Kept q_ d_) {t : Nat} : (State.readyCheck s t).Kept q_ d_ := by
  unfold State.readyCheck
  try dsimp only
  with_reducible repeat' first
    | assumption | apply kept_ite | apply State.enqueue_kept | split

theorem State.taskCancel_kept {q_ : List Instr} {d_ : DevState} {s : State} (h : s.Kept q_ d_) {t : Nat} {cause : Nat} : (State.taskCancel s t cause).Kept q_ d_ := by
  unfold State.taskCancel
  try lift_lets
  intros
  try
    have k_s1 : s1.Kept q_ d_ := by
      dsimp only [s1]
      with_reducible repeat' first
        | assumption | apply State.setTaskState_kept | apply State.setCtxF_kept
    clear_value s1
  try
    have k_s2 : s2.Kept q_ d_ := by
      dsimp only [s2]
      with_reducible repeat' first
        | assumption | apply State.inc_kept
    clear_value s2
  try
    have k_s3 : s3.Kept q_ d_ := by
      dsimp only [s3]
      with_reducible repeat' first
        | assumption | apply kept_ite | apply State.inc_kept | split
    clear_value s3
  with_reducible repeat' first
    | assumption | apply kept_ite | apply State.setTaskState_kept | apply State.setCtxF_kept | apply State.inc_kept
    | apply State.event_kept | apply State.trace_kept | apply State.taskFlowCheck_kept | dsimp only | split
    | dsimp +zetaDelta only

theorem State.taskFault_kept {q_ : List Instr} {d_ : DevState} {s : State} (h : s.Kept q_ d_) {t : Nat} : (State.taskFault s t).Kept q_ d_ := by
  unfold State.taskFault
  try lift_lets
  intros
  try
    have k_s1 : s1.Kept q_ d_ := by
      dsimp only [s1]
      with_reducible repeat' first
        | assumption | apply State.setTaskState_kept | apply State.setCtxF_kept
    clear_value s1
  with_reducible repeat' first
    | assumption | apply State.setTaskState_kept | apply State.setCtxF_kept | apply State.inc_kept | apply State.event_kept
    | apply State.taskFlowCheck_kept | dsimp only | dsimp +zetaDelta only

theorem State.opRefused_kept {q_ : List Instr} {d_ : DevState} {s : State} (h : s.Kept q_ d_) : (State.opRefused s).Kept q_ d_ := by
  unfold State.opRefused
  try dsimp only
  with_reducible repeat' first
    | assumption | apply State.setBit_kept | apply State.inc_kept | apply State.event_kept

theorem State.setFlag_kept {q_ : List Instr} {d_ : DevState} {s : State} (h : s.Kept q_ d_) {t : Nat} {f : Nat} : (State.setFlag s t f).Kept q_ d_ := by
  unfold State.setFlag
  try dsimp only
  with_reducible repeat' first
    | assumption | apply kept_ite | apply State.inc_kept | apply State.setCtxF_kept | apply State.readyCheck_kept | split

theorem State.taskArm_kept {q_ : List Instr} {d_ : DevState} {s : State} (h : s.Kept q_ d_) {t : Nat} : (State.taskArm s t).Kept q_ d_ := by
  unfold State.taskArm
  try lift_lets
  intros
  try
    have k_st : st.Kept q_ d_ := by
      dsimp only [st]
      with_reducible repeat' first
        | assumption
    clear_value st
  with_reducible repeat' first
    | assumption | apply kept_ite | apply State.setTaskState_kept | apply State.readyCheck_kept | apply State.opRefused_kept
    | dsimp only | split | dsimp +zetaDelta only

theorem State.softCancel_kept {q_ : List Instr} {d_ : DevState} {s : State} (h : s.Kept q_ d_) {t : Nat} : (State.softCancel s t).Kept q_ d_ := by
  unfold State.softCancel
  try lift_lets
  intros
  try
    have k_st : st.Kept q_ d_ := by
      dsimp only [st]
      with_reducible repeat' first
        | assumption
    clear_value st
  with_reducible repeat' first
    | assumption | apply kept_ite | apply State.setCtxF_kept | apply State.taskCancel_kept | dsimp only | split
    | dsimp +zetaDelta only

theorem State.ctxRead_kept {q_ : List Instr} {d_ : DevState} {s : State} (h : s.Kept q_ d_) {t : Nat} : (State.ctxRead s t).1.Kept q_ d_ := by
  unfold State.ctxRead
  try dsimp only
  with_reducible repeat' first
    | assumption | apply kept_ite | apply State.ueRead_kept | apply State.taskFault_kept | split

theorem State.nextFlag_kept {q_ : List Instr} {d_ : DevState} {s : State} (h : s.Kept q_ d_) {t : Nat} : (State.nextFlag s t).Kept q_ d_ := by
  unfold State.nextFlag
  try dsimp only
  with_reducible repeat' first
    | assumption | apply kept_ite | apply State.setFlag_kept | split

theorem State.reportDone_kept {q_ : List Instr} {d_ : DevState} {s : State} (h : s.Kept q_ d_) {t : Nat} : (State.reportDone s t).Kept q_ d_ := by
  unfold State.reportDone
  try lift_lets
  intros
  try clear_value kept
  try
    have k_s1 : s1.Kept q_ d_ := by
      dsimp only [s1]
      with_reducible repeat' first
        | assumption | apply State.setCtxF_kept
    clear_value s1
  try
    have k_s2 : s2.Kept q_ d_ := by
      dsimp only [s2]
      with_reducible repeat' first
        | assumption | apply State.setTaskRt_kept | exact ⟨rfl, rfl⟩ | apply kept_update
    clear_value s2
  with_reducible repeat' first
    | assumption | apply kept_ite | apply State.opRefused_kept | apply State.setCtxF_kept | apply State.taskCancel_kept
    | apply State.nextFlag_kept | apply State.setTaskRt_kept | apply State.setCtxW_kept | apply State.setTaskState_kept
    | apply State.readyCheck_kept | dsimp only | split | dsimp +zetaDelta only | exact ⟨rfl, rfl⟩ | apply kept_update

theorem State.reportYield_kept {q_ : List Instr} {d_ : DevState} {s : State} (h : s.Kept q_ d_) {t : Nat} : (State.reportYield s t).Kept q_ d_ := by
  unfold State.reportYield
  try lift_lets
  intros
  try
    have k_s1 : s1.Kept q_ d_ := by
      dsimp only [s1]
      with_reducible repeat' first
        | assumption | apply State.inc_kept
    clear_value s1
  with_reducible repeat' first
    | assumption | apply kept_ite | apply State.opRefused_kept | apply State.inc_kept | apply State.taskCancel_kept
    | apply State.enqueue_kept | dsimp only | split | dsimp +zetaDelta only

theorem State.reportFault_kept {q_ : List Instr} {d_ : DevState} {s : State} (h : s.Kept q_ d_) {t : Nat} : (State.reportFault s t).Kept q_ d_ := by
  unfold State.reportFault
  try dsimp only
  with_reducible repeat' first
    | assumption | apply kept_ite | apply State.opRefused_kept | apply State.taskFault_kept | split

theorem State.dlrOp_kept {q_ : List Instr} {d_ : DevState} {s : State} (h : s.Kept q_ d_) {ag : Agent} {t : Nat} {f : State → State} (hf : ∀  (t : State), t.Kept q_ d_ → (f  t).Kept q_ d_) : (State.dlrOp s ag t f).Kept q_ d_ := by
  unfold State.dlrOp
  try dsimp only
  with_reducible repeat' first
    | assumption | apply kept_ite | apply hf | apply State.opRefused_kept | split

theorem State.sendFlag_kept {q_ : List Instr} {d_ : DevState} {s : State} (h : s.Kept q_ d_) {engine : Option Nat} {t : Nat} {f : Nat} : (State.sendFlag s engine t f).Kept q_ d_ := by
  unfold State.sendFlag
  try dsimp only
  with_reducible repeat' first
    | assumption | apply kept_ite | apply State.setBit_kept | apply State.event_kept | apply State.setEng_kept | dsimp only
    | split | exact ⟨rfl, rfl⟩ | apply kept_update

theorem State.armWrite_kept {q_ : List Instr} {d_ : DevState} {s : State} (h : s.Kept q_ d_) {ag : Agent} {v : Word} : (State.armWrite s ag v).Kept q_ d_ := by
  unfold State.armWrite
  try dsimp only
  with_reducible repeat' first
    | assumption | intro _ | apply State.swWrite_kept | apply State.dlrOp_kept | apply State.taskArm_kept
    | apply State.kittyStat_kept | dsimp only

theorem State.cancelWrite_kept {q_ : List Instr} {d_ : DevState} {s : State} (h : s.Kept q_ d_) {ag : Agent} {v : Word} : (State.cancelWrite s ag v).Kept q_ d_ := by
  unfold State.cancelWrite
  try dsimp only
  with_reducible repeat' first
    | assumption | intro _ | apply State.swWrite_kept | apply State.dlrOp_kept | apply State.softCancel_kept
    | apply State.kittyStat_kept | dsimp only

theorem State.setfWrite_kept {q_ : List Instr} {d_ : DevState} {s : State} (h : s.Kept q_ d_) {ag : Agent} {v : Word} : (State.setfWrite s ag v).Kept q_ d_ := by
  unfold State.setfWrite
  try dsimp only
  with_reducible repeat' first
    | assumption | intro _ | apply kept_ite | apply State.sendFlag_kept | apply State.swWrite_kept | apply State.dlrOp_kept
    | dsimp only | split

theorem State.clrfWrite_kept {q_ : List Instr} {d_ : DevState} {s : State} (h : s.Kept q_ d_) {ag : Agent} {v : Word} : (State.clrfWrite s ag v).Kept q_ d_ := by
  unfold State.clrfWrite
  try dsimp only
  with_reducible repeat' first
    | assumption | intro _ | apply State.swWrite_kept | apply State.dlrOp_kept | apply State.setCtxF_kept | dsimp only

theorem State.flowReset_kept {q_ : List Instr} {d_ : DevState} {s : State} (h : s.Kept q_ d_) {ag : Agent} {f : Nat} : (State.flowReset s ag f).Kept q_ d_ := by
  unfold State.flowReset
  try dsimp only
  with_reducible repeat' first
    | assumption | apply kept_ite | apply State.newRound_kept | apply State.flowCheck_kept | apply State.opRefused_kept | split

theorem State.ctxWrite_kept {q_ : List Instr} {d_ : DevState} {s : State} (h : s.Kept q_ d_) {w : Nat} {v : Word} : (State.ctxWrite s w v).Kept q_ d_ := by
  unfold State.ctxWrite
  try lift_lets
  intros
  try clear_value phaseAfter
  try clear_value moved
  try
    have k_t : t.Kept q_ d_ := by
      dsimp only [t]
      with_reducible repeat' first
        | assumption
    clear_value t
  try
    have k_st : st.Kept q_ d_ := by
      dsimp only [st]
      with_reducible repeat' first
        | assumption
    clear_value st
  try
    have k_s1 : s1.Kept q_ d_ := by
      dsimp only [s1]
      with_reducible repeat' first
        | assumption | apply kept_ite | apply State.setTaskRt_kept | split | exact ⟨rfl, rfl⟩ | apply kept_update
    clear_value s1
  with_reducible repeat' first
    | assumption | intro _ | apply kept_ite | apply forUpTo_kept | apply State.setTaskRt_kept | apply State.flowCheck_kept
    | apply State.setCtxW_kept | apply State.kittyStat_kept | apply State.setBit_kept | apply State.event_kept | dsimp only
    | split | dsimp +zetaDelta only | exact ⟨rfl, rfl⟩ | apply kept_update

theorem State.setEngState_kept {q_ : List Instr} {d_ : DevState} {s : State} (h : s.Kept q_ d_) {e : Nat} {st : Nat} : (State.setEngState s e st).Kept q_ d_ := by
  unfold State.setEngState
  try dsimp only
  with_reducible repeat' first
    | assumption | apply State.setFld_kept

theorem State.engTrace_kept {q_ : List Instr} {d_ : DevState} {s : State} (h : s.Kept q_ d_) {e : Nat} {typ : Nat} {task : Nat} : (State.engTrace s e typ task).Kept q_ d_ := by
  unfold State.engTrace
  try dsimp only
  with_reducible repeat' first
    | assumption | apply kept_ite | apply State.trace_kept | split

theorem State.takeReturns_kept {q_ : List Instr} {d_ : DevState} {s : State} (h : s.Kept q_ d_) {e : Nat} {t : Nat} {resumed : Bool} : (State.takeReturns s e t resumed).Kept q_ d_ := by
  unfold State.takeReturns
  try lift_lets
  intros
  try clear_value g
  try
    have k_s1 : s1.Kept q_ d_ := by
      dsimp only [s1]
      with_reducible repeat' first
        | assumption | apply kept_ite | apply State.setEng_kept | apply State.setEngState_kept | split
    clear_value s1
  try
    have k_s2 : s2.Kept q_ d_ := by
      dsimp only [s2]
      with_reducible repeat' first
        | assumption | apply State.setBit_kept | apply State.wrN_kept
    clear_value s2
  with_reducible repeat' first
    | assumption | apply kept_ite | apply State.setEng_kept | apply State.setEngState_kept | apply State.setBit_kept
    | apply State.wrN_kept | apply State.inc_kept | apply State.engTrace_kept | dsimp only | split | dsimp +zetaDelta only

theorem State.granted_kept {q_ : List Instr} {d_ : DevState} {s : State} (h : s.Kept q_ d_) {t : Nat} {agent : Nat} : (State.granted s t agent).Kept q_ d_ := by
  unfold State.granted
  try lift_lets
  intros
  try clear_value flags
  try
    have k_s1 : s1.Kept q_ d_ := by
      dsimp only [s1]
      with_reducible repeat' first
        | assumption | apply State.setTaskState_kept | apply State.setCtxF_kept
    clear_value s1
  try
    have k_s2 : s2.Kept q_ d_ := by
      dsimp only [s2]
      with_reducible repeat' first
        | assumption | apply State.setTaskRt_kept | exact ⟨rfl, rfl⟩ | apply kept_update
    clear_value s2
  with_reducible repeat' first
    | assumption | apply kept_ite | apply State.setTaskState_kept | apply State.setCtxF_kept | apply State.setTaskRt_kept
    | apply State.inc_kept | apply State.trace_kept | dsimp only | split | dsimp +zetaDelta only | exact ⟨rfl, rfl⟩
    | apply kept_update

theorem State.grantEngine_kept {q_ : List Instr} {d_ : DevState} {s : State} (h : s.Kept q_ d_) {e : Nat} {t : Nat} {steal : Bool} : (State.grantEngine s e t steal).Kept q_ d_ := by
  unfold State.grantEngine
  try lift_lets
  intros
  try clear_value sound
  try clear_value resumed
  try
    have k_s0 : s0.Kept q_ d_ := by
      dsimp only [s0]
      with_reducible repeat' first
        | assumption | apply State.ctxRead_kept | dsimp +zetaDelta only
    clear_value s0
  try
    have k_s1 : s1.Kept q_ d_ := by
      dsimp only [s1]
      with_reducible repeat' first
        | assumption | apply State.granted_kept
    clear_value s1
  try
    have k_s2 : s2.Kept q_ d_ := by
      dsimp only [s2]
      with_reducible repeat' first
        | assumption | apply kept_ite | apply State.inc_kept | apply State.trace_kept | split
    clear_value s2
  with_reducible repeat' first
    | assumption | apply kept_ite | apply State.ctxRead_kept | apply State.granted_kept | apply State.inc_kept
    | apply State.trace_kept | apply State.takeReturns_kept | dsimp only | split | dsimp +zetaDelta only | exact ⟨rfl, rfl⟩
    | apply kept_update

theorem State.grantCore_kept {q_ : List Instr} {d_ : DevState} {s : State} (h : s.Kept q_ d_) {n : Nat} {t : Nat} {steal : Bool} : (State.grantCore s n t steal).Kept q_ d_ := by
  unfold State.grantCore
  try lift_lets
  intros
  try clear_value sound
  try clear_value resumed
  try clear_value got
  try
    have k_s0 : s0.Kept q_ d_ := by
      dsimp only [s0]
      with_reducible repeat' first
        | assumption | apply State.ctxRead_kept | dsimp +zetaDelta only
    clear_value s0
  try
    have k_s1 : s1.Kept q_ d_ := by
      dsimp only [s1]
      with_reducible repeat' first
        | assumption | apply State.granted_kept
    clear_value s1
  try
    have k_s2 : s2.Kept q_ d_ := by
      dsimp only [s2]
      with_reducible repeat' first
        | assumption | apply kept_ite | apply State.inc_kept | apply State.trace_kept | split
    clear_value s2
  try
    have k_s3 : s3.Kept q_ d_ := by
      dsimp only [s3]
      with_reducible repeat' first
        | assumption | apply State.wr64_kept | apply State.onBus_kept
    clear_value s3
  with_reducible repeat' first
    | assumption | intro _ | apply kept_ite | apply State.ctxRead_kept | apply State.granted_kept | apply State.inc_kept
    | apply State.trace_kept | apply State.wr64_kept | apply State.onBus_kept | dsimp only | split | dsimp +zetaDelta only
    | exact ⟨rfl, rfl⟩ | apply kept_update

theorem State.grantQuad_kept {q_ : List Instr} {d_ : DevState} {s : State} (h : s.Kept q_ d_) {q : Nat} : (State.grantQuad s q).Kept q_ d_ := by
  unfold State.grantQuad
  try dsimp only
  with_reducible repeat' first
    | assumption | apply State.grantEngine_kept | split

theorem State.grantCores_kept {q_ : List Instr} {d_ : DevState} {s : State} (h : s.Kept q_ d_) : (State.grantCores s).Kept q_ d_ := by
  unfold State.grantCores
  try lift_lets
  intros
  try clear_value cores
  with_reducible repeat' first
    | assumption | intro _ | apply State.grantCore_kept | dsimp only | split | dsimp +zetaDelta only

theorem State.taskGrant_kept {q_ : List Instr} {d_ : DevState} {s : State} (h : s.Kept q_ d_) {q : Nat} : (State.taskGrant s q).Kept q_ d_ := by
  unfold State.taskGrant
  try dsimp only
  with_reducible repeat' first
    | assumption | apply kept_ite | apply State.grantQuad_kept | apply State.grantCores_kept | apply State.kittyStat_kept | split

theorem State.stageIn_kept {q_ : List Instr} {d_ : DevState} {s : State} (h : s.Kept q_ d_) : (State.stageIn s).Kept q_ d_ := by
  unfold State.stageIn
  try lift_lets
  intros
  try clear_value src
  try clear_value len
  try clear_value bytes
  try
    have k_s1 : s1.Kept q_ d_ := by
      dsimp only [s1]
      with_reducible repeat' first
        | assumption | exact ⟨rfl, rfl⟩ | apply kept_update
    clear_value s1
  try
    have k_s2 : s2.Kept q_ d_ := by
      dsimp only [s2]
      with_reducible repeat' first
        | assumption | exact fun h_ => h_ | exact Tab.wf_set _ _ | exact setDram_wf | exact setAll_wf | exact dropRange_wf
        | exact Tab.wf_dropRange _ _ | exact Tab.wf_filter _ | exact Tab.wf_setAll _ | exact Memory.wf_setN _ _ _
        | exact Memory.wf_setBytes _ _ | exact Memory.wf_clear _ _ | exact Memory.wf_copy _ _ _ | exact fun _ => nil_wf
        | exact fun _ => setAll_wf nil_wf | exact ⟨rfl, rfl⟩ | apply kept_update | apply kept_tables
    clear_value s2
  with_reducible repeat' first
    | assumption | exact fun h_ => h_ | exact Tab.wf_set _ _ | exact setDram_wf | exact setAll_wf | exact dropRange_wf
    | exact Tab.wf_dropRange _ _ | exact Tab.wf_filter _ | exact Tab.wf_setAll _ | exact Memory.wf_setN _ _ _
    | exact Memory.wf_setBytes _ _ | exact Memory.wf_clear _ _ | exact Memory.wf_copy _ _ _ | exact fun _ => nil_wf
    | exact fun _ => setAll_wf nil_wf | apply kept_ite | apply State.ueRead_kept | apply State.taskFault_kept
    | apply State.kittyStat_kept | apply State.ueReplaced_kept | apply State.takeReturns_kept | dsimp only | split
    | dsimp +zetaDelta only | exact ⟨rfl, rfl⟩ | apply kept_update | apply kept_tables

theorem State.stealDelay_kept {q_ : List Instr} {d_ : DevState} {s : State} (h : s.Kept q_ d_) {t : Nat} : (State.stealDelay s t).Kept q_ d_ := by
  unfold State.stealDelay
  try dsimp only
  with_reducible repeat' first
    | assumption | apply kept_ite | apply State.setTaskRt_kept | apply State.kittyStat_kept | split | exact ⟨rfl, rfl⟩
    | apply kept_update

theorem State.coreTake_kept {q_ : List Instr} {d_ : DevState} {s : State} (h : s.Kept q_ d_) {ag : Agent} {n : Nat} : (State.coreTake s ag n).Kept q_ d_ := by
  unfold State.coreTake
  try dsimp only
  with_reducible repeat' first
    | assumption | apply kept_ite | apply State.opRefused_kept | apply State.onBus_kept | split | exact ⟨rfl, rfl⟩
    | apply kept_update

theorem State.coreTimeout_kept {q_ : List Instr} {d_ : DevState} {s : State} (h : s.Kept q_ d_) {n : Nat} : (State.coreTimeout s n).Kept q_ d_ := by
  unfold State.coreTimeout
  try dsimp only
  with_reducible repeat' first
    | assumption | intro _ | apply kept_ite | apply State.wr64_kept | apply State.inc_kept | apply State.onBus_kept | dsimp only
    | split | exact ⟨rfl, rfl⟩ | apply kept_update

theorem State.coreReport_kept {q_ : List Instr} {d_ : DevState} {s : State} (h : s.Kept q_ d_) {ag : Agent} {n : Nat} {t : Nat} {f : State → State} (hf : ∀  (t : State), t.Kept q_ d_ → (f  t).Kept q_ d_) : (State.coreReport s ag n t f).Kept q_ d_ := by
  unfold State.coreReport
  try dsimp only
  with_reducible repeat' first
    | assumption | apply kept_ite | apply hf | apply State.opRefused_kept | split | exact ⟨rfl, rfl⟩ | apply kept_update

theorem State.coreDoneWrite_kept {q_ : List Instr} {d_ : DevState} {s : State} (h : s.Kept q_ d_) {ag : Agent} {n : Nat} {v : Word} : (State.coreDoneWrite s ag n v).Kept q_ d_ := by
  unfold State.coreDoneWrite
  try dsimp only
  with_reducible repeat' first
    | assumption | intro _ | apply State.swWrite_kept | apply State.coreReport_kept | apply State.reportDone_kept
    | apply State.kittyStat_kept | dsimp only

theorem State.coreYieldWrite_kept {q_ : List Instr} {d_ : DevState} {s : State} (h : s.Kept q_ d_) {ag : Agent} {n : Nat} {v : Word} : (State.coreYieldWrite s ag n v).Kept q_ d_ := by
  unfold State.coreYieldWrite
  try dsimp only
  with_reducible repeat' first
    | assumption | intro _ | apply State.swWrite_kept | apply State.coreReport_kept | apply State.reportYield_kept
    | apply State.kittyStat_kept | dsimp only

theorem State.sumWord_kept {q_ : List Instr} {d_ : DevState} {s : State} (h : s.Kept q_ d_) {sums : Bool} {src : Nat} {dst : Nat} : (State.sumWord s sums src dst).Kept q_ d_ := by
  unfold State.sumWord
  try lift_lets
  intros
  try
    have k_x : x.Kept q_ d_ := by
      dsimp only [x]
      with_reducible repeat' first
        | assumption
    clear_value x
  with_reducible repeat' first
    | assumption | intro _ | apply kept_ite | apply when_kept | apply State.storeCell_kept | apply State.inc_kept | dsimp only
    | split | dsimp +zetaDelta only

theorem State.flowMove_kept {q_ : List Instr} {d_ : DevState} {s : State} (h : s.Kept q_ d_) {f : Nat} {pos : Nat} {src : Nat} : (State.flowMove s f pos src).Kept q_ d_ := by
  unfold State.flowMove
  try lift_lets
  intros
  try clear_value n
  try clear_value d
  with_reducible repeat' first
    | assumption | intro _ | apply kept_ite | apply forUpTo_kept | apply State.copySealed_kept | apply State.sumWord_kept
    | dsimp only | split | dsimp +zetaDelta only

theorem State.roundEnd_kept {q_ : List Instr} {d_ : DevState} {s : State} (h : s.Kept q_ d_) {f : Nat} : (State.roundEnd s f).Kept q_ d_ := by
  unfold State.roundEnd
  try lift_lets
  intros
  try
    have k_s1 : s1.Kept q_ d_ := by
      dsimp only [s1]
      with_reducible repeat' first
        | assumption | apply State.setFld_kept
    clear_value s1
  try
    have k_s2 : s2.Kept q_ d_ := by
      dsimp only [s2]
      with_reducible repeat' first
        | assumption | apply kept_ite | apply State.setFlag_kept | split
    clear_value s2
  with_reducible repeat' first
    | assumption | apply kept_ite | apply State.setFld_kept | apply State.setFlag_kept | apply State.newRound_kept
    | apply State.flowCheck_kept | dsimp only | split | dsimp +zetaDelta only

theorem State.flowsEnd_kept {q_ : List Instr} {d_ : DevState} {s : State} (h : s.Kept q_ d_) {p : Nat} : (State.flowsEnd s p).Kept q_ d_ := by
  unfold State.flowsEnd
  try dsimp only
  with_reducible repeat' first
    | assumption | apply kept_ite | apply State.endPhase_kept | split

theorem State.flowRelease_kept {q_ : List Instr} {d_ : DevState} {s : State} (h : s.Kept q_ d_) {f : Nat} : (State.flowRelease s f).Kept q_ d_ := by
  unfold State.flowRelease
  try lift_lets
  intros
  try clear_value pos
  try clear_value src
  try
    have k_s1 : s1.Kept q_ d_ := by
      dsimp only [s1]
      with_reducible repeat' first
        | assumption | apply State.flowMove_kept | apply State.setFld_kept
    clear_value s1
  with_reducible repeat' first
    | assumption | apply kept_ite | apply State.flowBlock_kept | apply State.ueRead_kept | apply State.flowMove_kept
    | apply State.setFld_kept | apply State.roundEnd_kept | apply State.flowsEnd_kept | apply State.flowCheck_kept | dsimp only
    | split | dsimp +zetaDelta only

theorem State.phaseRearm_kept {q_ : List Instr} {d_ : DevState} {s : State} (h : s.Kept q_ d_) {p : Nat} {t : Nat} : (State.phaseRearm s p t).Kept q_ d_ := by
  unfold State.phaseRearm
  try lift_lets
  intros
  try clear_value cause
  try
    have k_st : st.Kept q_ d_ := by
      dsimp only [st]
      with_reducible repeat' first
        | assumption
    clear_value st
  try
    have k_s1 : s1.Kept q_ d_ := by
      dsimp only [s1]
      with_reducible repeat' first
        | assumption | apply kept_ite | apply State.inc_kept | split
    clear_value s1
  with_reducible repeat' first
    | assumption | apply kept_ite | apply State.inc_kept | apply State.setCtxW_kept | apply State.setTaskState_kept
    | apply State.readyCheck_kept | dsimp only | split | dsimp +zetaDelta only

theorem State.dlrPhaseStart_kept {q_ : List Instr} {d_ : DevState} {s : State} (h : s.Kept q_ d_) {p : Nat} : (State.dlrPhaseStart s p).Kept q_ d_ := by
  unfold State.dlrPhaseStart
  try lift_lets
  intros
  try clear_value flows
  try
    have k_s1 : s1.Kept q_ d_ := by
      dsimp only [s1]
      with_reducible repeat' first
        | assumption | intro _ | apply forEach_kept | apply State.phaseRearm_kept | dsimp only
    clear_value s1
  try
    have k_s2 : s2.Kept q_ d_ := by
      dsimp only [s2]
      with_reducible repeat' first
        | assumption | intro _ | apply forEach_kept | apply State.newRound_kept | dsimp only
    clear_value s2
  try
    have k_s3 : s3.Kept q_ d_ := by
      dsimp only [s3]
      with_reducible repeat' first
        | assumption | intro _ | dsimp only | exact ⟨rfl, rfl⟩ | apply kept_update
    clear_value s3
  with_reducible repeat' first
    | assumption | intro _ | apply forEach_kept | apply State.phaseRearm_kept | apply State.newRound_kept
    | apply State.flowCheck_kept | apply State.flowsEnd_kept | apply State.kittyStat_kept | dsimp only | dsimp +zetaDelta only
    | exact ⟨rfl, rfl⟩ | apply kept_update

theorem State.dlrDeadline_kept {q_ : List Instr} {d_ : DevState} {s : State} (h : s.Kept q_ d_) {p : Nat} : (State.dlrDeadline s p).Kept q_ d_ := by
  unfold State.dlrDeadline
  try lift_lets
  intros
  try
    have k_s1 : s1.Kept q_ d_ := by
      dsimp only [s1]
      with_reducible repeat' first
        | assumption | intro _ | apply kept_ite | apply forEach_kept | apply State.taskCancel_kept | dsimp only | split
    clear_value s1
  with_reducible repeat' first
    | assumption | intro _ | apply kept_ite | apply forEach_kept | apply State.taskCancel_kept | apply State.kittyStat_kept
    | dsimp only | split | dsimp +zetaDelta only | exact ⟨rfl, rfl⟩ | apply kept_update

theorem State.rehome_kept {q_ : List Instr} {d_ : DevState} {s : State} (h : s.Kept q_ d_) {old : State} {e : Nat} : (State.rehome s old e).Kept q_ d_ := by
  unfold State.rehome
  try dsimp only
  with_reducible repeat' first
    | assumption | intro _ | apply kept_ite | apply State.add_kept | apply State.kittyStat_kept | dsimp only | split

end Sys2Proof.Machine
end

