-- ==== Sys2Proof/Laws/Kept/BusRead.lean ====
section
/-! SUPPORT. The operations of Machine/BusRead.lean keep the canonical form and the queue. -/

namespace Sys2Proof.Machine

set_option tactic.hygienic false
set_option linter.unusedTactic false
set_option linter.unreachableTactic false
set_option linter.unusedVariables false

theorem State.setRp_kept {q_ : List Instr} {d_ : DevState} {s : State} (h : s.Kept q_ d_) {p : Nat} {x : RingPort} : (State.setRp s p x).Kept q_ d_ := by
  unfold State.setRp
  try dsimp only
  with_reducible repeat' first
    | assumption | intro _ | dsimp only | exact ⟨rfl, rfl⟩ | apply kept_update

theorem State.railSample_kept {q_ : List Instr} {d_ : DevState} {s : State} (h : s.Kept q_ d_) {i : Nat} {mv : Nat} : (State.railSample s i mv).Kept q_ d_ := by
  unfold State.railSample
  try lift_lets
  intros
  try clear_value m
  try clear_value lo
  with_reducible repeat' first
    | assumption | apply kept_ite | apply State.wrN_kept | dsimp only | split | dsimp +zetaDelta only

theorem State.railOpen_kept {q_ : List Instr} {d_ : DevState} {s : State} (h : s.Kept q_ d_) {i : Nat} : (State.railOpen s i).Kept q_ d_ := by
  unfold State.railOpen
  try lift_lets
  intros
  try clear_value k
  try
    have k_s1 : s1.Kept q_ d_ := by
      dsimp only [s1]
      with_reducible repeat' first
        | assumption | apply State.takeFree_kept | dsimp +zetaDelta only
    clear_value s1
  with_reducible repeat' first
    | assumption | apply State.takeFree_kept | apply State.railSample_kept | dsimp only | dsimp +zetaDelta only

theorem State.measuredAt_kept {q_ : List Instr} {d_ : DevState} {s : State} (h : s.Kept q_ d_) {a : Nat} : (State.measuredAt s a).Kept q_ d_ := by
  unfold State.measuredAt
  try lift_lets
  intros
  try clear_value k
  try
    have k_s1 : s1.Kept q_ d_ := by
      dsimp only [s1]
      with_reducible repeat' first
        | assumption | apply State.takeFree_kept | dsimp +zetaDelta only
    clear_value s1
  with_reducible repeat' first
    | assumption | apply kept_ite | apply State.railOpen_kept | apply State.takeFree_kept | apply wr_kept | dsimp only | split
    | dsimp +zetaDelta only

theorem State.busRead_kept {q_ : List Instr} {d_ : DevState} {s : State} (h : s.Kept q_ d_) {a : Nat} : (State.busRead s a).2.Kept q_ d_ := by
  unfold State.busRead
  try lift_lets
  intros
  try
    have k_s1 : s1.Kept q_ d_ := by
      dsimp only [s1]
      with_reducible repeat' first
        | assumption | apply State.measuredAt_kept
    clear_value s1
  with_reducible repeat' first
    | assumption | apply kept_ite | apply State.inc_kept | apply State.opRefused_kept | apply State.measuredAt_kept
    | apply wr_kept | dsimp only | split | dsimp +zetaDelta only

end Sys2Proof.Machine
end

