-- ==== Sys2Proof/Laws/Kept/EngineCore.lean ====
section
/-! SUPPORT. The operations of Machine/EngineCore.lean keep the canonical form and the queue. -/

namespace Sys2Proof.Machine

set_option tactic.hygienic false
set_option linter.unusedTactic false
set_option linter.unreachableTactic false
set_option linter.unusedVariables false

theorem State.engSat_kept {q_ : List Instr} {d_ : DevState} {s : State} (h : s.Kept q_ d_) {e : Nat} : (State.engSat s e).Kept q_ d_ := by
  unfold State.engSat
  try dsimp only
  with_reducible repeat' first
    | assumption | apply State.setBit_kept | apply State.inc_kept | apply State.event_kept

theorem State.engAov_kept {q_ : List Instr} {d_ : DevState} {s : State} (h : s.Kept q_ d_) {e : Nat} : (State.engAov s e).Kept q_ d_ := by
  unfold State.engAov
  try dsimp only
  with_reducible repeat' first
    | assumption | apply State.setBit_kept | apply State.event_kept

theorem State.afterAccess_kept {q_ : List Instr} {d_ : DevState} {s : State} (h : s.Kept q_ d_) {e : Nat} {eff : EngEff} : (State.afterAccess s e eff).Kept q_ d_ := by
  unfold State.afterAccess
  try dsimp only
  with_reducible repeat' first
    | assumption | apply kept_ite | apply State.ueReplaced_kept | split

theorem State.recordAccess_kept {q_ : List Instr} {d_ : DevState} {s : State} (h : s.Kept q_ d_) {e : Nat} {eff : EngEff} : (State.recordAccess s e eff).Kept q_ d_ := by
  unfold State.recordAccess
  try dsimp only
  with_reducible repeat' first
    | assumption | apply kept_ite | apply State.eccRead_kept | dsimp only | split

theorem State.recordFault_kept {q_ : List Instr} {d_ : DevState} {s : State} (h : s.Kept q_ d_) {e : Nat} {eff : EngEff} : (State.recordFault s e eff).Kept q_ d_ := by
  unfold State.recordFault
  try dsimp only
  with_reducible repeat' first
    | assumption | apply kept_ite | apply State.fabricError_kept | apply State.recordAccess_kept | apply State.rmwRefused_kept
    | split

theorem State.engFault_kept {q_ : List Instr} {d_ : DevState} {s : State} (h : s.Kept q_ d_) {e : Nat} {code : Nat} {addr : Option Nat} : (State.engFault s e code addr).Kept q_ d_ := by
  unfold State.engFault
  try lift_lets
  intros
  try clear_value g
  try
    have k_s0 : s0.Kept q_ d_ := by
      dsimp only [s0]
      with_reducible repeat' first
        | assumption | intro _ | apply kept_ite | apply State.recordFault_kept | apply State.detLapse_kept
        | apply State.ueRead_kept | dsimp only | split
    clear_value s0
  try
    have k_s1 : s1.Kept q_ d_ := by
      dsimp only [s1]
      with_reducible repeat' first
        | assumption | apply State.setEng_kept | exact ⟨rfl, rfl⟩ | apply kept_update
    clear_value s1
  try
    have k_s2 : s2.Kept q_ d_ := by
      dsimp only [s2]
      with_reducible repeat' first
        | assumption | apply kept_ite | apply State.setEngState_kept | apply State.setBit_kept | apply State.setFld_kept | split
    clear_value s2
  try
    have k_s3 : s3.Kept q_ d_ := by
      dsimp only [s3]
      with_reducible repeat' first
        | assumption | apply State.wrN_kept
    clear_value s3
  try
    have k_s4 : s4.Kept q_ d_ := by
      dsimp only [s4]
      with_reducible repeat' first
        | assumption | apply State.wrN_kept | split
    clear_value s4
  try
    have k_s5 : s5.Kept q_ d_ := by
      dsimp only [s5]
      with_reducible repeat' first
        | assumption | apply State.inc_kept | apply State.alarm_kept
    clear_value s5
  try
    have k_s6 : s6.Kept q_ d_ := by
      dsimp only [s6]
      with_reducible repeat' first
        | assumption | apply State.reportFault_kept | split
    clear_value s6
  with_reducible repeat' first
    | assumption | intro _ | apply kept_ite | apply State.recordFault_kept | apply State.detLapse_kept | apply State.ueRead_kept
    | apply State.setEng_kept | apply State.setEngState_kept | apply State.setBit_kept | apply State.setFld_kept
    | apply State.wrN_kept | apply State.inc_kept | apply State.alarm_kept | apply State.reportFault_kept
    | apply State.rehome_kept | dsimp only | split | dsimp +zetaDelta only | exact ⟨rfl, rfl⟩ | apply kept_update

theorem State.engRead_kept {q_ : List Instr} {d_ : DevState} {s : State} (h : s.Kept q_ d_) {e a n : Nat} : (State.engRead s e a n).2.Kept q_ d_ := by
  unfold State.engRead
  split
  · exact h
  · split
    · exact h
    · split
      · dsimp only
        with_reducible exact State.opRefused_kept h
      · split
        · exact kept_pair _ _ (State.busRead_kept h)
        · exact kept_pair _ _ (State.busRead_kept (State.busRead_kept h))

theorem State.engWrite_kept {q_ : List Instr} {d_ : DevState} {s : State} (h : s.Kept q_ d_) {e : Nat} {a : Nat} {n : Nat} {v : Nat} : (State.engWrite s e a n v).Kept q_ d_ := by
  unfold State.engWrite
  try lift_lets
  intros
  try
    have k_s1 : s1.Kept q_ d_ := by
      dsimp only [s1]
      with_reducible repeat' first
        | assumption | apply kept_ite | apply State.wrN_kept | split
    clear_value s1
  with_reducible repeat' first
    | assumption | exact fun h_ => h_ | exact Tab.wf_set _ _ | exact setDram_wf | exact setAll_wf | exact dropRange_wf
    | exact Tab.wf_dropRange _ _ | exact Tab.wf_filter _ | exact Tab.wf_setAll _ | exact Memory.wf_setN _ _ _
    | exact Memory.wf_setBytes _ _ | exact Memory.wf_clear _ _ | exact Memory.wf_copy _ _ _ | exact fun _ => nil_wf
    | exact fun _ => setAll_wf nil_wf | apply kept_ite | apply State.ueReplaced_kept | apply State.storeCell_kept
    | apply State.sendFlag_kept | apply State.wrN_kept | dsimp only | split | dsimp +zetaDelta only | exact ⟨rfl, rfl⟩
    | apply kept_update | apply kept_tables

theorem State.accesses_kept {q_ : List Instr} {d_ : DevState} {e : Nat} {l : List (Nat × EngEff)} :
    ∀ {s : State}, s.Kept q_ d_ → (State.accesses s e l).1.Kept q_ d_ := by
  induction l with
  | nil => intro s h; exact h
  | cons p l ih =>
    intro s h
    unfold State.accesses
    split
    · exact ih (State.engRead_kept (State.recordAccess_kept h))
    · exact ih (State.engWrite_kept (State.recordAccess_kept h))
    · exact ih h

theorem State.engDone_kept {q_ : List Instr} {d_ : DevState} {s : State} (h : s.Kept q_ d_) {e : Nat} : (State.engDone s e).Kept q_ d_ := by
  unfold State.engDone
  try lift_lets
  intros
  try clear_value g
  try
    have k_s1 : s1.Kept q_ d_ := by
      dsimp only [s1]
      with_reducible repeat' first
        | assumption | apply State.setEng_kept | apply State.reportDone_kept | apply State.engTrace_kept
        | apply State.opRefused_kept | split | exact ⟨rfl, rfl⟩ | apply kept_update
    clear_value s1
  with_reducible repeat' first
    | assumption | apply kept_ite | apply State.setEng_kept | apply State.reportDone_kept | apply State.engTrace_kept
    | apply State.opRefused_kept | apply State.setEngState_kept | apply State.kittyStat_kept | dsimp only | split
    | dsimp +zetaDelta only | exact ⟨rfl, rfl⟩ | apply kept_update

theorem State.engWait_kept {q_ : List Instr} {d_ : DevState} {s : State} (h : s.Kept q_ d_) {e : Nat} : (State.engWait s e).Kept q_ d_ := by
  unfold State.engWait
  try lift_lets
  intros
  try
    have k_s1 : s1.Kept q_ d_ := by
      dsimp only [s1]
      with_reducible repeat' first
        | assumption | apply State.setEng_kept | exact ⟨rfl, rfl⟩ | apply kept_update
    clear_value s1
  with_reducible repeat' first
    | assumption | apply kept_ite | apply State.setEng_kept | apply State.setEngState_kept | dsimp only | split
    | dsimp +zetaDelta only | exact ⟨rfl, rfl⟩ | apply kept_update

theorem State.engControl_kept {q_ : List Instr} {d_ : DevState} {s : State} (h : s.Kept q_ d_) {e : Nat} {eff : EngEff} : (State.engControl s e eff).Kept q_ d_ := by
  unfold State.engControl
  try lift_lets
  intros
  try
    have k_s1 : s1.Kept q_ d_ := by
      dsimp only [s1]
      with_reducible repeat' first
        | assumption | apply State.setEng_kept | apply State.reportYield_kept | apply State.engTrace_kept
        | apply State.opRefused_kept | split | exact ⟨rfl, rfl⟩ | apply kept_update
    clear_value s1
  with_reducible repeat' first
    | assumption | apply kept_ite | apply State.engDone_kept | apply State.engWait_kept | apply State.setEng_kept
    | apply State.reportYield_kept | apply State.engTrace_kept | apply State.opRefused_kept | apply State.kittyStat_kept
    | apply State.setEngState_kept | apply State.sendFlag_kept | apply State.engSat_kept | apply State.engAov_kept | dsimp only
    | split | dsimp +zetaDelta only | exact ⟨rfl, rfl⟩ | apply kept_update

theorem State.engControls_kept {q_ : List Instr} {d_ : DevState} {e : Nat} {l : List EngEff} :
    ∀ {s : State}, s.Kept q_ d_ → (State.engControls s e l).Kept q_ d_ := by
  induction l with
  | nil => intro s h; exact h
  | cons x l ih =>
    intro s h
    unfold State.engControls
    split
    · exact State.setEng_kept h
    · exact ih (State.engControl_kept h)

theorem State.wakeSender_kept {q_ : List Instr} {d_ : DevState} {s : State} (h : s.Kept q_ d_) {x : Stalled} : (State.wakeSender s x).Kept q_ d_ := by
  unfold State.wakeSender
  try lift_lets
  intros
  try clear_value g
  with_reducible repeat' first
    | assumption | intro _ | apply kept_ite | apply State.setEng_kept | apply State.engControls_kept | dsimp only | split
    | dsimp +zetaDelta only | exact ⟨rfl, rfl⟩ | apply kept_update

theorem State.queueAccept_kept {q_ : List Instr} {d_ : DevState} {s : State} (h : s.Kept q_ d_) : (State.queueAccept s).Kept q_ d_ := by
  unfold State.queueAccept
  try lift_lets
  intros
  try clear_value q
  try clear_value room
  try clear_value goes
  try clear_value waits
  try
    have k_s1 : s1.Kept q_ d_ := by
      dsimp only [s1]
      with_reducible repeat' first
        | assumption | exact ⟨rfl, rfl⟩ | apply kept_update
    clear_value s1
  try
    have k_s2 : s2.Kept q_ d_ := by
      dsimp only [s2]
      with_reducible repeat' first
        | assumption | intro _ | apply forEach_kept | apply State.setFlag_kept | dsimp only
    clear_value s2
  try
    have k_s3 : s3.Kept q_ d_ := by
      dsimp only [s3]
      with_reducible repeat' first
        | assumption | intro _ | dsimp only | exact ⟨rfl, rfl⟩ | apply kept_update
    clear_value s3
  try
    have k_s4 : s4.Kept q_ d_ := by
      dsimp only [s4]
      with_reducible repeat' first
        | assumption | apply State.add_kept | apply State.setBit_kept
    clear_value s4
  with_reducible repeat' first
    | assumption | intro _ | apply forEach_kept | apply State.setFlag_kept | apply State.add_kept | apply State.setBit_kept
    | apply State.wakeSender_kept | apply State.kittyStat_kept | dsimp only | dsimp +zetaDelta only | exact ⟨rfl, rfl⟩
    | apply kept_update

theorem State.engCount_kept {q_ : List Instr} {d_ : DevState} {s : State} (h : s.Kept q_ d_) {e : Nat} {effs : List EngEff} : (State.engCount s e effs).Kept q_ d_ := by
  unfold State.engCount
  try lift_lets
  intros
  try clear_value n
  try clear_value k
  try
    have k_s1 : s1.Kept q_ d_ := by
      dsimp only [s1]
      with_reducible repeat' first
        | assumption | exact ⟨rfl, rfl⟩ | apply kept_update
    clear_value s1
  with_reducible repeat' first
    | assumption | apply State.wr64_kept | apply State.add_kept | dsimp only | dsimp +zetaDelta only | exact ⟨rfl, rfl⟩
    | apply kept_update

theorem State.bundle_kept {q_ : List Instr} {d_ : DevState} {s : State} (h : s.Kept q_ d_) {e : Nat} : (State.bundle s e).Kept q_ d_ := by
  unfold State.bundle
  try lift_lets
  intros
  try clear_value g0
  try clear_value g
  try clear_value effs
  try clear_value loads
  try clear_value g1
  try
    have k_s0 : s0.Kept q_ d_ := by
      dsimp only [s0]
      with_reducible repeat' first
        | assumption | apply State.setEng_kept
    clear_value s0
  try
    have k_s1 : s1.Kept q_ d_ := by
      dsimp only [s1]
      with_reducible repeat' first
        | assumption | apply State.engCount_kept | apply State.accesses_kept | dsimp +zetaDelta only
    clear_value s1
  try
    have k_s2 : s2.Kept q_ d_ := by
      dsimp only [s2]
      with_reducible repeat' first
        | assumption | apply State.setEng_kept | apply State.setBit_kept
    clear_value s2
  with_reducible repeat' first
    | assumption | intro _ | apply State.setEng_kept | apply State.engFault_kept | apply State.engCount_kept
    | apply State.accesses_kept | apply State.setBit_kept | apply State.engControls_kept | dsimp only | split
    | dsimp +zetaDelta only | exact ⟨rfl, rfl⟩ | apply kept_update

theorem State.engSlot_kept {q_ : List Instr} {d_ : DevState} {s : State} (h : s.Kept q_ d_) {e : Nat} {slot : Nat} {fin : Bool} {f : Eng → List EngEff} : (State.engSlot s e slot fin f).Kept q_ d_ := by
  unfold State.engSlot
  try lift_lets
  intros
  try clear_value g
  try
    have k_s1 : s1.Kept q_ d_ := by
      dsimp only [s1]
      with_reducible repeat' first
        | assumption | intro _ | apply State.setEng_kept | dsimp only | exact ⟨rfl, rfl⟩ | apply kept_update
    clear_value s1
  with_reducible repeat' first
    | assumption | intro _ | apply kept_ite | apply State.setEng_kept | apply State.bundle_kept | dsimp only | split
    | dsimp +zetaDelta only | exact ⟨rfl, rfl⟩ | apply kept_update

theorem State.preemptRequests_kept {q_ : List Instr} {d_ : DevState} {s : State} (h : s.Kept q_ d_) : (State.preemptRequests s).Kept q_ d_ := by
  unfold State.preemptRequests
  try dsimp only
  with_reducible repeat' first
    | assumption | intro _ | apply kept_ite | apply forUpTo_kept | apply State.setEng_kept | dsimp only | split | exact ⟨rfl, rfl⟩
    | apply kept_update

theorem State.preemptTrap_kept {q_ : List Instr} {d_ : DevState} {s : State} (h : s.Kept q_ d_) {e : Nat} : (State.preemptTrap s e).Kept q_ d_ := by
  unfold State.preemptTrap
  try lift_lets
  intros
  try clear_value g
  try clear_value g1
  try clear_value g2
  try clear_value g3
  try
    have k_s1 : s1.Kept q_ d_ := by
      dsimp only [s1]
      with_reducible repeat' first
        | assumption | apply State.setEng_kept | exact ⟨rfl, rfl⟩ | apply kept_update
    clear_value s1
  with_reducible repeat' first
    | assumption | apply kept_ite | apply State.setEng_kept | apply State.setEngState_kept | apply State.setBit_kept
    | apply State.wrN_kept | apply State.inc_kept | dsimp only | split | dsimp +zetaDelta only | exact ⟨rfl, rfl⟩
    | apply kept_update

theorem State.unGrant_kept {q_ : List Instr} {d_ : DevState} {s : State} (h : s.Kept q_ d_) {e : Nat} : (State.unGrant s e).Kept q_ d_ := by
  unfold State.unGrant
  try lift_lets
  intros
  try
    have k_s1 : s1.Kept q_ d_ := by
      dsimp only [s1]
      with_reducible repeat' first
        | assumption | intro _ | dsimp only | exact ⟨rfl, rfl⟩ | apply kept_update
    clear_value s1
  try
    have k_st : st.Kept q_ d_ := by
      dsimp only [st]
      with_reducible repeat' first
        | assumption | apply kept_ite | split
    clear_value st
  with_reducible repeat' first
    | assumption | intro _ | apply kept_ite | apply State.toQueue_kept | apply State.enqueue_kept | dsimp only | split
    | dsimp +zetaDelta only | exact ⟨rfl, rfl⟩ | apply kept_update

theorem State.engStop_kept {q_ : List Instr} {d_ : DevState} {s : State} (h : s.Kept q_ d_) {e : Nat} : (State.engStop s e).Kept q_ d_ := by
  unfold State.engStop
  try lift_lets
  intros
  try
    have k_st : st.Kept q_ d_ := by
      dsimp only [st]
      with_reducible repeat' first
        | assumption
    clear_value st
  with_reducible repeat' first
    | assumption | apply kept_ite | apply State.setEngState_kept | apply State.unGrant_kept | dsimp only | split
    | dsimp +zetaDelta only

theorem State.engStart_kept {q_ : List Instr} {d_ : DevState} {s : State} (h : s.Kept q_ d_) {e : Nat} : (State.engStart s e).Kept q_ d_ := by
  unfold State.engStart
  try dsimp only
  with_reducible repeat' first
    | assumption | apply kept_ite | apply State.setEng_kept | apply State.setEngState_kept | split | exact ⟨rfl, rfl⟩
    | apply kept_update

theorem State.engCtrl_kept {q_ : List Instr} {d_ : DevState} {s : State} (h : s.Kept q_ d_) {e : Nat} {v : Word} : (State.engCtrl s e v).Kept q_ d_ := by
  unfold State.engCtrl
  try lift_lets
  intros
  try
    have k_s1 : s1.Kept q_ d_ := by
      dsimp only [s1]
      with_reducible repeat' first
        | assumption | apply wr_kept
    clear_value s1
  with_reducible repeat' first
    | assumption | apply kept_ite | apply wr_kept | apply State.engStart_kept | apply State.kittyStat_kept
    | apply State.engStop_kept | apply State.rehome_kept | dsimp only | split | dsimp +zetaDelta only

theorem State.codeWrite_kept {q_ : List Instr} {d_ : DevState} {s : State} (h : s.Kept q_ d_) {loader : Bool} {e : Nat} {bundle : Nat} {v : BitVec 64} : (State.codeWrite s loader e bundle v).Kept q_ d_ := by
  unfold State.codeWrite
  try dsimp only
  with_reducible repeat' first
    | assumption | exact fun h_ => h_ | exact Tab.wf_set _ _ | exact setDram_wf | exact setAll_wf | exact dropRange_wf
    | exact Tab.wf_dropRange _ _ | exact Tab.wf_filter _ | exact Tab.wf_setAll _ | exact Memory.wf_setN _ _ _
    | exact Memory.wf_setBytes _ _ | exact Memory.wf_clear _ _ | exact Memory.wf_copy _ _ _ | exact fun _ => nil_wf
    | exact fun _ => setAll_wf nil_wf | apply kept_ite | apply State.ueReplaced_kept | apply State.inc_kept
    | apply State.event_kept | split | exact ⟨rfl, rfl⟩ | apply kept_update | apply kept_tables

end Sys2Proof.Machine
end

