-- ==== Sys2Proof/Laws/Kept/TickData.lean ====
section
/-! SUPPORT. The operations of Machine/TickData.lean keep the canonical form and the queue. -/

namespace Sys2Proof.Machine

set_option tactic.hygienic false
set_option linter.unusedTactic false
set_option linter.unreachableTactic false
set_option linter.unusedVariables false

theorem State.putEntry_kept {q_ : List Instr} {d_ : DevState} {s : State} (h : s.Kept q_ d_) {b : Nat} {e : Entry} : (State.putEntry s b e).Kept q_ d_ := by
  unfold State.putEntry
  try dsimp only
  with_reducible repeat' first
    | assumption | apply State.setCellI_kept | apply State.setCell_kept

end Sys2Proof.Machine
end

