-- ==== Sys2Proof/Laws/Kept/Profile.lean ====
section
/-! SUPPORT. The operations of Machine/Profile.lean keep the canonical form and the queue. -/

namespace Sys2Proof.Machine

set_option tactic.hygienic false
set_option linter.unusedTactic false
set_option linter.unreachableTactic false
set_option linter.unusedVariables false

theorem State.setAxis_kept {q_ : List Instr} {d_ : DevState} {s : State} (h : s.Kept q_ d_) {a : Nat} {x : Axis} : (State.setAxis s a x).Kept q_ d_ := by
  unfold State.setAxis
  try dsimp only
  with_reducible repeat' first
    | assumption | intro _ | dsimp only | exact ⟨rfl, rfl⟩ | apply kept_update

theorem State.setGroupRt_kept {q_ : List Instr} {d_ : DevState} {s : State} (h : s.Kept q_ d_) {g : Nat} {x : GroupRt} : (State.setGroupRt s g x).Kept q_ d_ := by
  unfold State.setGroupRt
  try dsimp only
  with_reducible repeat' first
    | assumption | intro _ | dsimp only | exact ⟨rfl, rfl⟩ | apply kept_update

theorem State.setAxState_kept {q_ : List Instr} {d_ : DevState} {s : State} (h : s.Kept q_ d_) {a : Nat} {st : Nat} : (State.setAxState s a st).Kept q_ d_ := by
  unfold State.setAxState
  try dsimp only
  with_reducible repeat' first
    | assumption | apply State.setFld_kept

theorem State.setPva_kept {q_ : List Instr} {d_ : DevState} {s : State} (h : s.Kept q_ d_) {a : Nat} {p : Int} {v : Int} {ac : Int} : (State.setPva s a p v ac).Kept q_ d_ := by
  unfold State.setPva
  try dsimp only
  with_reducible repeat' first
    | assumption | apply State.wrI64_kept

theorem State.setTarget_kept {q_ : List Instr} {d_ : DevState} {s : State} (h : s.Kept q_ d_) {a : Nat} {t : Int} : (State.setTarget s a t).Kept q_ d_ := by
  unfold State.setTarget
  try dsimp only
  with_reducible repeat' first
    | assumption | apply State.wrI64_kept

theorem State.planTick_kept {q_ : List Instr} {d_ : DevState} {s : State} (h : s.Kept q_ d_) {ax : Nat} {i : Config.PlanIn} : (State.planTick s ax i).Kept q_ d_ := by
  unfold State.planTick
  try lift_lets
  intros
  try clear_value e
  try
    have k_x : x.Kept q_ d_ := by
      dsimp only [x]
      with_reducible repeat' first
        | assumption
    clear_value x
  with_reducible repeat' first
    | assumption | apply kept_ite | apply State.setAxis_kept | apply State.setPva_kept | dsimp only | split
    | dsimp +zetaDelta only | exact ⟨rfl, rfl⟩ | apply kept_update

theorem State.newDec_kept {q_ : List Instr} {d_ : DevState} {s : State} (h : s.Kept q_ d_) {a : Nat} {d : Int} : (State.newDec s a d).Kept q_ d_ := by
  unfold State.newDec
  try lift_lets
  intros
  try clear_value ramp
  try clear_value old
  try clear_value stop
  try
    have k_x : x.Kept q_ d_ := by
      dsimp only [x]
      with_reducible repeat' first
        | assumption
    clear_value x
  try
    have k_keep : keep.Kept q_ d_ := by
      dsimp only [keep]
      with_reducible repeat' first
        | assumption | apply State.setAxis_kept | exact ⟨rfl, rfl⟩ | apply kept_update
    clear_value keep
  with_reducible repeat' first
    | assumption | intro _ | apply kept_ite | apply getD_map_kept | apply State.setAxis_kept | apply State.setBit_kept
    | apply State.wrI64_kept | apply State.inc_kept | apply State.event_kept | dsimp only | split | dsimp +zetaDelta only
    | exact ⟨rfl, rfl⟩ | apply kept_update

theorem State.takeLimits_kept {q_ : List Instr} {d_ : DevState} {s : State} (h : s.Kept q_ d_) {a : Nat} {valid : Nat} {f : MemberFields} {withV : Bool} : (State.takeLimits s a valid f withV).Kept q_ d_ := by
  unfold State.takeLimits
  try lift_lets
  intros
  try
    have k_x : x.Kept q_ d_ := by
      dsimp only [x]
      with_reducible repeat' first
        | assumption
    clear_value x
  try
    have k_s1 : s1.Kept q_ d_ := by
      dsimp only [s1]
      with_reducible repeat' first
        | assumption | apply kept_ite | apply State.setAxis_kept | split
    clear_value s1
  with_reducible repeat' first
    | assumption | apply kept_ite | apply State.setAxis_kept | apply State.newDec_kept | dsimp only | split
    | dsimp +zetaDelta only

theorem State.replan_kept {q_ : List Instr} {d_ : DevState} {s : State} (h : s.Kept q_ d_) {a : Nat} : (State.replan s a).Kept q_ d_ := by
  unfold State.replan
  try dsimp only
  with_reducible repeat' first
    | assumption | apply State.inc_kept

theorem State.doMove_kept {q_ : List Instr} {d_ : DevState} {s : State} (h : s.Kept q_ d_) {g : Nat} {a : Nat} {code : Nat} {valid : Nat} {f : MemberFields} : (State.doMove s g a code valid f).Kept q_ d_ := by
  unfold State.doMove
  try lift_lets
  intros
  try clear_value stop
  try clear_value rev
  try
    have k_t : t.Kept q_ d_ := by
      dsimp only [t]
      with_reducible repeat' first
        | assumption
    clear_value t
  try
    have k_s1 : s1.Kept q_ d_ := by
      dsimp only [s1]
      with_reducible repeat' first
        | assumption | apply State.setTarget_kept | apply State.takeLimits_kept
    clear_value s1
  try
    have k_s2 : s2.Kept q_ d_ := by
      dsimp only [s2]
      with_reducible repeat' first
        | assumption | apply kept_ite | apply State.setAxis_kept | split
    clear_value s2
  with_reducible repeat' first
    | assumption | apply kept_ite | apply State.setTarget_kept | apply State.takeLimits_kept | apply State.setAxis_kept
    | apply State.setBit_kept | apply State.setAxState_kept | apply State.replan_kept | dsimp only | split | dsimp +zetaDelta only

theorem State.doJog_kept {q_ : List Instr} {d_ : DevState} {s : State} (h : s.Kept q_ d_) {a : Nat} {valid : Nat} {f : MemberFields} : (State.doJog s a valid f).Kept q_ d_ := by
  unfold State.doJog
  try lift_lets
  intros
  try
    have k_s1 : s1.Kept q_ d_ := by
      dsimp only [s1]
      with_reducible repeat' first
        | assumption | apply State.takeLimits_kept
    clear_value s1
  with_reducible repeat' first
    | assumption | apply State.takeLimits_kept | apply State.setAxis_kept | apply State.setAxState_kept | apply State.replan_kept
    | dsimp only | dsimp +zetaDelta only | exact ⟨rfl, rfl⟩ | apply kept_update

theorem State.beginStop_kept {q_ : List Instr} {d_ : DevState} {s : State} (h : s.Kept q_ d_) {a : Nat} {kept : Bool} {toIdle : Bool} {soft : Bool} : (State.beginStop s a kept toIdle soft).Kept q_ d_ := by
  unfold State.beginStop
  try lift_lets
  intros
  try clear_value p
  try clear_value at'
  try
    have k_s1 : s1.Kept q_ d_ := by
      dsimp only [s1]
      with_reducible repeat' first
        | assumption | apply State.setAxis_kept | exact ⟨rfl, rfl⟩ | apply kept_update
    clear_value s1
  try
    have k_s2 : s2.Kept q_ d_ := by
      dsimp only [s2]
      with_reducible repeat' first
        | assumption | apply State.setBit_kept | apply State.setAxState_kept
    clear_value s2
  with_reducible repeat' first
    | assumption | apply kept_ite | apply State.setAxis_kept | apply State.setBit_kept | apply State.setAxState_kept
    | apply State.wrI64_kept | dsimp only | split | dsimp +zetaDelta only | exact ⟨rfl, rfl⟩ | apply kept_update

theorem State.doStop_kept {q_ : List Instr} {d_ : DevState} {s : State} (h : s.Kept q_ d_) {a : Nat} : (State.doStop s a).Kept q_ d_ := by
  unfold State.doStop
  try dsimp only
  with_reducible repeat' first
    | assumption | apply State.beginStop_kept

theorem State.doResume_kept {q_ : List Instr} {d_ : DevState} {s : State} (h : s.Kept q_ d_) {a : Nat} : (State.doResume s a).Kept q_ d_ := by
  unfold State.doResume
  try dsimp only
  with_reducible repeat' first
    | assumption | apply State.setAxis_kept | apply State.setAxState_kept | apply State.replan_kept | exact ⟨rfl, rfl⟩
    | apply kept_update

theorem State.homeFail_kept {q_ : List Instr} {d_ : DevState} {s : State} (h : s.Kept q_ d_) {a : Nat} {code : Nat} : (State.homeFail s a code).Kept q_ d_ := by
  unfold State.homeFail
  try dsimp only
  with_reducible repeat' first
    | assumption | apply State.setFld_kept | apply State.event_kept | apply State.beginStop_kept

theorem State.doAbort_kept {q_ : List Instr} {d_ : DevState} {s : State} (h : s.Kept q_ d_) {a : Nat} : (State.doAbort s a).Kept q_ d_ := by
  unfold State.doAbort
  try lift_lets
  intros
  try
    have k_st : st.Kept q_ d_ := by
      dsimp only [st]
      with_reducible repeat' first
        | assumption
    clear_value st
  with_reducible repeat' first
    | assumption | apply kept_ite | apply State.setAxis_kept | apply State.setTarget_kept | apply State.setAxState_kept
    | apply State.homeFail_kept | apply State.beginStop_kept | dsimp only | split | dsimp +zetaDelta only | exact ⟨rfl, rfl⟩
    | apply kept_update

theorem State.doGear_kept {q_ : List Instr} {d_ : DevState} {s : State} (h : s.Kept q_ d_) {a : Nat} {valid : Nat} {f : MemberFields} : (State.doGear s a valid f).Kept q_ d_ := by
  unfold State.doGear
  try lift_lets
  intros
  try
    have k_s1 : s1.Kept q_ d_ := by
      dsimp only [s1]
      with_reducible repeat' first
        | assumption | apply State.takeLimits_kept
    clear_value s1
  try
    have k_s2 : s2.Kept q_ d_ := by
      dsimp only [s2]
      with_reducible repeat' first
        | assumption | apply State.setAxis_kept
    clear_value s2
  with_reducible repeat' first
    | assumption | apply State.takeLimits_kept | apply State.setAxis_kept | apply State.setBit_kept | apply State.setAxState_kept
    | apply State.replan_kept | dsimp only | dsimp +zetaDelta only

theorem State.doCam_kept {q_ : List Instr} {d_ : DevState} {s : State} (h : s.Kept q_ d_) {a : Nat} {valid : Nat} {f : MemberFields} : (State.doCam s a valid f).Kept q_ d_ := by
  unfold State.doCam
  try lift_lets
  intros
  try clear_value tab
  try
    have k_s1 : s1.Kept q_ d_ := by
      dsimp only [s1]
      with_reducible repeat' first
        | assumption | apply State.takeLimits_kept
    clear_value s1
  try
    have k_x : x.Kept q_ d_ := by
      dsimp only [x]
      with_reducible repeat' first
        | assumption
    clear_value x
  try
    have k_s2 : s2.Kept q_ d_ := by
      dsimp only [s2]
      with_reducible repeat' first
        | assumption | apply State.setAxis_kept | exact ⟨rfl, rfl⟩ | apply kept_update
    clear_value s2
  with_reducible repeat' first
    | assumption | apply kept_ite | apply State.takeLimits_kept | apply State.setAxis_kept | apply State.setBit_kept
    | apply State.setAxState_kept | apply State.replan_kept | dsimp only | split | dsimp +zetaDelta only | exact ⟨rfl, rfl⟩
    | apply kept_update

theorem State.doHome_kept {q_ : List Instr} {d_ : DevState} {s : State} (h : s.Kept q_ d_) {a : Nat} : (State.doHome s a).Kept q_ d_ := by
  unfold State.doHome
  try lift_lets
  intros
  try clear_value mode
  try clear_value seen
  try clear_value first
  try
    have k_x : x.Kept q_ d_ := by
      dsimp only [x]
      with_reducible repeat' first
        | assumption
    clear_value x
  try
    have k_s1 : s1.Kept q_ d_ := by
      dsimp only [s1]
      with_reducible repeat' first
        | assumption | apply State.setAxis_kept | exact ⟨rfl, rfl⟩ | apply kept_update
    clear_value s1
  with_reducible repeat' first
    | assumption | apply kept_ite | apply State.setAxis_kept | apply State.setFld_kept | apply State.setAxState_kept | dsimp only
    | split | dsimp +zetaDelta only | exact ⟨rfl, rfl⟩ | apply kept_update

theorem State.doSetPos_kept {q_ : List Instr} {d_ : DevState} {s : State} (h : s.Kept q_ d_) {a : Nat} {f : MemberFields} : (State.doSetPos s a f).Kept q_ d_ := by
  unfold State.doSetPos
  try dsimp only
  with_reducible repeat' first
    | assumption | apply State.setAxis_kept | exact ⟨rfl, rfl⟩ | apply kept_update

theorem State.doMember_kept {q_ : List Instr} {d_ : DevState} {s : State} (h : s.Kept q_ d_) {g : Nat} {a : Nat} {code : Nat} {valid : Nat} {f : MemberFields} : (State.doMember s g a code valid f).Kept q_ d_ := by
  unfold State.doMember
  try dsimp only
  with_reducible repeat' first
    | assumption | apply State.doMove_kept | apply State.doJog_kept | apply State.takeLimits_kept | apply State.replan_kept
    | apply State.doStop_kept | apply State.doResume_kept | apply State.doAbort_kept | apply State.doGear_kept
    | apply State.doCam_kept | apply State.beginStop_kept | apply State.doHome_kept | apply State.doSetPos_kept
    | apply State.setAxis_kept | apply State.setAxState_kept | split | exact ⟨rfl, rfl⟩ | apply kept_update

theorem State.mbxResult_kept {q_ : List Instr} {d_ : DevState} {s : State} (h : s.Kept q_ d_) {g : Nat} {seq : Nat} {result : Nat} {member : Nat} : (State.mbxResult s g seq result member).Kept q_ d_ := by
  unfold State.mbxResult
  try dsimp only
  with_reducible repeat' first
    | assumption | apply State.wrN_kept

theorem State.joinSets_kept {q_ : List Instr} {d_ : DevState} {s : State} (h : s.Kept q_ d_) {g : Nat} {code : Nat} {mask : Nat} : (State.joinSets s g code mask).Kept q_ d_ := by
  unfold State.joinSets
  try lift_lets
  intros
  try clear_value olds
  with_reducible repeat' first
    | assumption | intro _ | apply kept_ite | apply forEach_kept | apply State.setAxis_kept | dsimp only | split
    | dsimp +zetaDelta only | exact ⟨rfl, rfl⟩ | apply kept_update

theorem State.groupCommand_kept {q_ : List Instr} {d_ : DevState} {s : State} (h : s.Kept q_ d_) {g : Nat} {code : Nat} {seq : Nat} {mask : Nat} {valid : Nat} {fs : List MemberFields} : (State.groupCommand s g code seq mask valid fs).Kept q_ d_ := by
  unfold State.groupCommand
  try lift_lets
  intros
  try clear_value r
  try clear_value m
  with_reducible repeat' first
    | assumption | intro _ | apply kept_ite | apply forEach_kept | apply State.doMember_kept | apply State.joinSets_kept
    | apply State.mbxResult_kept | apply State.inc_kept | apply State.setBit_kept | apply State.event_kept | dsimp only | split
    | dsimp +zetaDelta only

theorem State.command_kept {q_ : List Instr} {d_ : DevState} {s : State} (h : s.Kept q_ d_) {g : Nat} {code : Nat} {seq : Nat} {mask : Nat} {valid : Nat} {fs : List MemberFields} : (State.command s g code seq mask valid fs).Kept q_ d_ := by
  unfold State.command
  try dsimp only
  with_reducible repeat' first
    | assumption | apply kept_ite | apply State.groupCommand_kept | split

theorem State.mailboxCommit_kept {q_ : List Instr} {d_ : DevState} {s : State} (h : s.Kept q_ d_) {g : Nat} {seq : Nat} : (State.mailboxCommit s g seq).Kept q_ d_ := by
  unfold State.mailboxCommit
  try lift_lets
  intros
  try
    have k_s1 : s1.Kept q_ d_ := by
      dsimp only [s1]
      with_reducible repeat' first
        | assumption | apply State.setCell_kept
    clear_value s1
  try
    have k_s2 : s2.Kept q_ d_ := by
      dsimp only [s2]
      with_reducible repeat' first
        | assumption | apply kept_ite | apply State.inc_kept | split
    clear_value s2
  with_reducible repeat' first
    | assumption | apply kept_ite | apply State.inc_kept | apply State.setCell_kept | apply State.setGroupRt_kept | dsimp only
    | split | dsimp +zetaDelta only | exact ⟨rfl, rfl⟩ | apply kept_update

theorem State.cutMailbox_kept {q_ : List Instr} {d_ : DevState} {s : State} (h : s.Kept q_ d_) {g : Nat} : (State.cutMailbox s g).Kept q_ d_ := by
  unfold State.cutMailbox
  try lift_lets
  intros
  try clear_value r
  try clear_value b
  try clear_value cmd
  try
    have k_x : x.Kept q_ d_ := by
      dsimp only [x]
      with_reducible repeat' first
        | assumption | intro _ | dsimp only
    clear_value x
  with_reducible repeat' first
    | assumption | intro _ | apply kept_ite | apply State.setGroupRt_kept | dsimp only | split | dsimp +zetaDelta only
    | exact ⟨rfl, rfl⟩ | apply kept_update

theorem State.runSnap_kept {q_ : List Instr} {d_ : DevState} {s : State} (h : s.Kept q_ d_) {g : Nat} : (State.runSnap s g).Kept q_ d_ := by
  unfold State.runSnap
  try dsimp only
  with_reducible repeat' first
    | assumption | apply State.groupCommand_kept | apply State.setGroupRt_kept | split | exact ⟨rfl, rfl⟩ | apply kept_update

theorem State.masterLost_kept {q_ : List Instr} {d_ : DevState} {s : State} (h : s.Kept q_ d_) {g : Nat} : (State.masterLost s g).Kept q_ d_ := by
  unfold State.masterLost
  try lift_lets
  intros
  try
    have k_s1 : s1.Kept q_ d_ := by
      dsimp only [s1]
      with_reducible repeat' first
        | assumption | apply State.setBit_kept | apply State.inc_kept
    clear_value s1
  try
    have k_s2 : s2.Kept q_ d_ := by
      dsimp only [s2]
      with_reducible repeat' first
        | assumption | apply kept_ite | apply State.setGroupRt_kept | split | exact ⟨rfl, rfl⟩ | apply kept_update
    clear_value s2
  with_reducible repeat' first
    | assumption | apply kept_ite | apply State.setBit_kept | apply State.inc_kept | apply State.setGroupRt_kept
    | apply State.alarm_kept | dsimp only | split | dsimp +zetaDelta only | exact ⟨rfl, rfl⟩ | apply kept_update

theorem State.countOld_kept {q_ : List Instr} {d_ : DevState} {s : State} (h : s.Kept q_ d_) {ch : Nat} : (State.countOld s ch).Kept q_ d_ := by
  unfold State.countOld
  try dsimp only
  with_reducible repeat' first
    | assumption | intro _ | apply kept_ite | apply forUpTo_kept | apply State.inc_kept | dsimp only | split

theorem State.takeMaster_kept {q_ : List Instr} {d_ : DevState} {s : State} (h : s.Kept q_ d_) {e : Nat × MasterSample} : (State.takeMaster s e).Kept q_ d_ := by
  unfold State.takeMaster
  try lift_lets
  intros
  try
    have k_s1 : s1.Kept q_ d_ := by
      dsimp only [s1]
      with_reducible repeat' first
        | assumption | intro _ | apply kept_ite | dsimp only | split | exact ⟨rfl, rfl⟩ | apply kept_update
    clear_value s1
  with_reducible repeat' first
    | assumption | intro _ | apply kept_ite | apply State.countOld_kept | dsimp only | split | dsimp +zetaDelta only
    | exact ⟨rfl, rfl⟩ | apply kept_update

theorem State.takeMasters_kept {q_ : List Instr} {d_ : DevState} {s : State} (h : s.Kept q_ d_) : (State.takeMasters s).Kept q_ d_ := by
  unfold State.takeMasters
  try lift_lets
  intros
  try clear_value due
  try
    have k_s1 : s1.Kept q_ d_ := by
      dsimp only [s1]
      with_reducible repeat' first
        | assumption | intro _ | apply forEach_kept | apply State.takeMaster_kept | dsimp only
    clear_value s1
  with_reducible repeat' first
    | assumption | intro _ | apply forEach_kept | apply State.takeMaster_kept | dsimp only | dsimp +zetaDelta only
    | exact ⟨rfl, rfl⟩ | apply kept_update

theorem State.masterStale_kept {q_ : List Instr} {d_ : DevState} {s : State} (h : s.Kept q_ d_) {g : Nat} : (State.masterStale s g).Kept q_ d_ := by
  unfold State.masterStale
  try dsimp only
  with_reducible repeat' first
    | assumption | apply kept_ite | apply State.masterLost_kept | split

theorem State.virtualTick_kept {q_ : List Instr} {d_ : DevState} {s : State} (h : s.Kept q_ d_) {g : Nat} : (State.virtualTick s g).Kept q_ d_ := by
  unfold State.virtualTick
  try lift_lets
  intros
  try clear_value r
  try clear_value dec
  try clear_value v
  with_reducible repeat' first
    | assumption | apply kept_ite | apply State.setGroupRt_kept | dsimp only | split | dsimp +zetaDelta only | exact ⟨rfl, rfl⟩
    | apply kept_update

theorem State.masterTick_kept {q_ : List Instr} {d_ : DevState} {s : State} (h : s.Kept q_ d_) {g : Nat} : (State.masterTick s g).Kept q_ d_ := by
  unfold State.masterTick
  try lift_lets
  intros
  try clear_value r
  try clear_value tb
  try clear_value wrapped
  try clear_value L
  try clear_value theta
  try
    have k_s0 : s0.Kept q_ d_ := by
      dsimp only [s0]
      with_reducible repeat' first
        | assumption | apply kept_ite | apply State.virtualTick_kept | split
    clear_value s0
  try
    have k_s1 : s1.Kept q_ d_ := by
      dsimp only [s1]
      with_reducible repeat' first
        | assumption | apply State.setGroupRt_kept | apply State.wrI64_kept | exact ⟨rfl, rfl⟩ | apply kept_update
    clear_value s1
  try
    have k_s2 : s2.Kept q_ d_ := by
      dsimp only [s2]
      with_reducible repeat' first
        | assumption | apply State.wrN_kept
    clear_value s2
  with_reducible repeat' first
    | assumption | apply kept_ite | apply State.virtualTick_kept | apply State.setGroupRt_kept | apply State.setBit_kept
    | apply State.wrI64_kept | apply State.wrN_kept | apply State.masterLost_kept | dsimp only | split | dsimp +zetaDelta only
    | exact ⟨rfl, rfl⟩ | apply kept_update

theorem State.masterHold_kept {q_ : List Instr} {d_ : DevState} {s : State} (h : s.Kept q_ d_) {g : Nat} : (State.masterHold s g).Kept q_ d_ := by
  unfold State.masterHold
  try dsimp only
  with_reducible repeat' first
    | assumption | intro _ | apply kept_ite | apply State.setBit_kept | apply State.setGroupRt_kept | dsimp only | split
    | exact ⟨rfl, rfl⟩ | apply kept_update

theorem State.closeWindows_kept {q_ : List Instr} {d_ : DevState} {s : State} (h : s.Kept q_ d_) {a : Nat} {t : Nat} : (State.closeWindows s a t).Kept q_ d_ := by
  unfold State.closeWindows
  try lift_lets
  intros
  try
    have k_x : x.Kept q_ d_ := by
      dsimp only [x]
      with_reducible repeat' first
        | assumption
    clear_value x
  with_reducible repeat' first
    | assumption | intro _ | apply kept_ite | apply State.setAxis_kept | dsimp only | split | dsimp +zetaDelta only
    | exact ⟨rfl, rfl⟩ | apply kept_update

theorem State.homeSample_kept {q_ : List Instr} {d_ : DevState} {s : State} (h : s.Kept q_ d_) {a : Nat} {i : HomeInput} {lvl : Bool} {t : Nat} : (State.homeSample s a i lvl t).Kept q_ d_ := by
  unfold State.homeSample
  try lift_lets
  intros
  try clear_value was
  try clear_value win
  try
    have k_s1 : s1.Kept q_ d_ := by
      dsimp only [s1]
      with_reducible repeat' first
        | assumption | apply State.closeWindows_kept
    clear_value s1
  try
    have k_x : x.Kept q_ d_ := by
      dsimp only [x]
      with_reducible repeat' first
        | assumption
    clear_value x
  with_reducible repeat' first
    | assumption | intro _ | apply kept_ite | apply State.closeWindows_kept | apply State.setAxis_kept | dsimp only | split
    | dsimp +zetaDelta only | exact ⟨rfl, rfl⟩ | apply kept_update

theorem State.homeDrive_kept {q_ : List Instr} {d_ : DevState} {s : State} (h : s.Kept q_ d_) {a : Nat} : (State.homeDrive s a).Kept q_ d_ := by
  unfold State.homeDrive
  try dsimp only
  with_reducible repeat' first
    | assumption | intro _ | apply kept_ite | apply forEach_kept | apply State.homeSample_kept | dsimp only | split

theorem State.homeDi_kept {q_ : List Instr} {d_ : DevState} {s : State} (h : s.Kept q_ d_) {level : BitVec 32} {t : Nat} : (State.homeDi s level t).Kept q_ d_ := by
  unfold State.homeDi
  try lift_lets
  intros
  try clear_value src
  with_reducible repeat' first
    | assumption | intro _ | apply kept_ite | apply forUpTo_kept | apply forEach_kept | apply State.homeSample_kept | dsimp only
    | split | dsimp +zetaDelta only

theorem State.homePlace_kept {q_ : List Instr} {d_ : DevState} {s : State} (h : s.Kept q_ d_) {a : Nat} : (State.homePlace s a).Kept q_ d_ := by
  unfold State.homePlace
  try lift_lets
  intros
  try
    have k_x : x.Kept q_ d_ := by
      dsimp only [x]
      with_reducible repeat' first
        | assumption
    clear_value x
  with_reducible repeat' first
    | assumption | intro _ | apply kept_ite | apply State.setAxis_kept | dsimp only | split | dsimp +zetaDelta only
    | exact ⟨rfl, rfl⟩ | apply kept_update

theorem State.debounceEnd_kept {q_ : List Instr} {d_ : DevState} {s : State} (h : s.Kept q_ d_) {a : Nat} {w : HomeWindow} {lvl : Bool} : (State.debounceEnd s a w lvl).Kept q_ d_ := by
  unfold State.debounceEnd
  try dsimp only
  with_reducible repeat' first
    | assumption | apply kept_ite | apply State.advance_kept | apply State.closeWindows_kept | split

theorem State.homeFound_kept {q_ : List Instr} {d_ : DevState} {s : State} (h : s.Kept q_ d_) {a : Nat} {H : Int} : (State.homeFound s a H).Kept q_ d_ := by
  unfold State.homeFound
  try lift_lets
  intros
  try clear_value sh
  try
    have k_s1 : s1.Kept q_ d_ := by
      dsimp only [s1]
      with_reducible repeat' first
        | assumption | apply State.wrI64_kept
    clear_value s1
  with_reducible repeat' first
    | assumption | apply State.wrI64_kept | apply State.setAxis_kept | apply State.setFld_kept | apply State.beginStop_kept
    | dsimp only | dsimp +zetaDelta only | exact ⟨rfl, rfl⟩ | apply kept_update

theorem State.homeStep_kept {q_ : List Instr} {d_ : DevState} {s : State} (h : s.Kept q_ d_) {a : Nat} {step : Nat} {stop : Bool} : (State.homeStep s a step stop).Kept q_ d_ := by
  unfold State.homeStep
  try dsimp only
  with_reducible repeat' first
    | assumption | apply State.setAxis_kept | apply State.setFld_kept | exact ⟨rfl, rfl⟩ | apply kept_update

theorem State.homeAccept_kept {q_ : List Instr} {d_ : DevState} {s : State} (h : s.Kept q_ d_) {a : Nat} {inp : HomeInput} {active : Bool} {pos : Int} : (State.homeAccept s a inp active pos).Kept q_ d_ := by
  unfold State.homeAccept
  try lift_lets
  intros
  try clear_value mode
  try clear_value step
  try clear_value sg
  try clear_value rev
  with_reducible repeat' first
    | assumption | apply kept_ite | apply State.homeStep_kept | apply State.homeFail_kept | apply State.homeFound_kept
    | apply State.setAxis_kept | dsimp only | split | dsimp +zetaDelta only | exact ⟨rfl, rfl⟩ | apply kept_update

theorem State.homeEvent_kept {q_ : List Instr} {d_ : DevState} {s : State} (h : s.Kept q_ d_) {a : Nat} {w : HomeWindow} : (State.homeEvent s a w).Kept q_ d_ := by
  unfold State.homeEvent
  try dsimp only
  with_reducible repeat' first
    | assumption | intro _ | apply kept_ite | apply getD_map_kept | apply State.inc_kept | apply State.homeAccept_kept | split

theorem State.homeEvents_kept {q_ : List Instr} {d_ : DevState} {a : Nat} {l : List HomeWindow} :
    ∀ {s : State} {dec : Option Bool}, s.Kept q_ d_ → (State.homeEvents s a l dec).Kept q_ d_ := by
  induction l with
  | nil => intro s dec h; exact h
  | cons w l ih =>
    intro s dec h
    unfold State.homeEvents
    dsimp only
    split
    · exact ih h
    · exact ih (State.homeEvent_kept h)

theorem State.homeSearch_kept {q_ : List Instr} {d_ : DevState} {s : State} (h : s.Kept q_ d_) {a : Nat} : (State.homeSearch s a).Kept q_ d_ := by
  unfold State.homeSearch
  try lift_lets
  intros
  try clear_value mode
  try clear_value step
  try clear_value xm
  try clear_value ok
  try clear_value hard
  try clear_value n
  try clear_value wantIndex
  try
    have k_s1 : s1.Kept q_ d_ := by
      dsimp only [s1]
      with_reducible repeat' first
        | assumption | apply State.setAxis_kept | exact ⟨rfl, rfl⟩ | apply kept_update
    clear_value s1
  with_reducible repeat' first
    | assumption | apply kept_ite | apply State.setAxis_kept | apply State.homeFound_kept | apply State.setPva_kept
    | apply State.homeFail_kept | dsimp only | split | dsimp +zetaDelta only | exact ⟨rfl, rfl⟩ | apply kept_update

theorem State.homeTick_kept {q_ : List Instr} {d_ : DevState} {s : State} (h : s.Kept q_ d_) {g : Nat} {a : Nat} : (State.homeTick s g a).Kept q_ d_ := by
  unfold State.homeTick
  try lift_lets
  intros
  try clear_value evs
  try clear_value limit
  try
    have k_s0 : s0.Kept q_ d_ := by
      dsimp only [s0]
      with_reducible repeat' first
        | assumption | intro _ | apply State.setAxis_kept | apply State.homeDrive_kept | apply State.closeWindows_kept
        | apply State.homePlace_kept | dsimp only | dsimp +zetaDelta only | exact ⟨rfl, rfl⟩ | apply kept_update
    clear_value s0
  try
    have k_s1 : s1.Kept q_ d_ := by
      dsimp only [s1]
      with_reducible repeat' first
        | assumption | apply State.homeEvents_kept
    clear_value s1
  with_reducible repeat' first
    | assumption | intro _ | apply kept_ite | apply State.homeDrive_kept | apply State.closeWindows_kept
    | apply State.homePlace_kept | apply State.setAxis_kept | apply State.inc_kept | apply State.homeFail_kept
    | apply State.homeEvents_kept | apply State.planTick_kept | apply State.homeSearch_kept | dsimp only | split
    | dsimp +zetaDelta only | exact ⟨rfl, rfl⟩ | apply kept_update

theorem State.setLocked_kept {q_ : List Instr} {d_ : DevState} {s : State} (h : s.Kept q_ d_) {a : Nat} {b : Bool} : (State.setLocked s a b).Kept q_ d_ := by
  unfold State.setLocked
  try dsimp only
  with_reducible repeat' first
    | assumption | apply State.setBit_kept

theorem State.homeEnded_kept {q_ : List Instr} {d_ : DevState} {s : State} (h : s.Kept q_ d_) {a : Nat} : (State.homeEnded s a).Kept q_ d_ := by
  unfold State.homeEnded
  try dsimp only
  with_reducible repeat' first
    | assumption | apply kept_ite | apply State.setFld_kept | apply State.event_kept | split

theorem State.trackTick_kept {q_ : List Instr} {d_ : DevState} {s : State} (h : s.Kept q_ d_) {a : Nat} : (State.trackTick s a).Kept q_ d_ := by
  unfold State.trackTick
  try lift_lets
  intros
  try clear_value ok
  try clear_value p
  try
    have k_x : x.Kept q_ d_ := by
      dsimp only [x]
      with_reducible repeat' first
        | assumption | dsimp +zetaDelta only
    clear_value x
  try
    have k_s1 : s1.Kept q_ d_ := by
      dsimp only [s1]
      with_reducible repeat' first
        | assumption | apply State.homeEnded_kept | apply State.setPva_kept | apply State.setTarget_kept
        | apply State.setAxState_kept
    clear_value s1
  with_reducible repeat' first
    | assumption | apply kept_ite | apply State.homeEnded_kept | apply State.setPva_kept | apply State.setTarget_kept
    | apply State.setAxState_kept | apply State.setAxis_kept | apply State.setLocked_kept | dsimp only | split
    | dsimp +zetaDelta only

theorem State.heldTick_kept {q_ : List Instr} {d_ : DevState} {s : State} (h : s.Kept q_ d_) {g : Nat} {a : Nat} : (State.heldTick s g a).Kept q_ d_ := by
  unfold State.heldTick
  try lift_lets
  intros
  try clear_value keep
  try clear_value v
  try
    have k_st : st.Kept q_ d_ := by
      dsimp only [st]
      with_reducible repeat' first
        | assumption
    clear_value st
  try
    have k_s1 : s1.Kept q_ d_ := by
      dsimp only [s1]
      with_reducible repeat' first
        | assumption | apply kept_ite | apply State.homeEnded_kept | apply State.setAxis_kept | apply State.wrI64_kept
        | apply State.setBit_kept | apply State.event_kept | apply State.setAxState_kept | apply State.setLocked_kept | dsimp only
        | split | exact ⟨rfl, rfl⟩ | apply kept_update
    clear_value s1
  try
    have k_s2 : s2.Kept q_ d_ := by
      dsimp only [s2]
      with_reducible repeat' first
        | assumption | apply State.homeEnded_kept
    clear_value s2
  try
    have k_s3 : s3.Kept q_ d_ := by
      dsimp only [s3]
      with_reducible repeat' first
        | assumption | apply State.setAxis_kept | exact ⟨rfl, rfl⟩ | apply kept_update
    clear_value s3
  try
    have k_s4 : s4.Kept q_ d_ := by
      dsimp only [s4]
      with_reducible repeat' first
        | assumption | apply kept_ite | apply State.wrI64_kept | split
    clear_value s4
  try
    have k_s5 : s5.Kept q_ d_ := by
      dsimp only [s5]
      with_reducible repeat' first
        | assumption | apply kept_ite | apply State.setBit_kept | apply State.event_kept | split
    clear_value s5
  try
    have k_x : x.Kept q_ d_ := by
      dsimp only [x]
      with_reducible repeat' first
        | assumption | dsimp +zetaDelta only
    clear_value x
  with_reducible repeat' first
    | assumption | apply kept_ite | apply State.homeEnded_kept | apply State.setAxis_kept | apply State.wrI64_kept
    | apply State.setBit_kept | apply State.event_kept | apply State.setAxState_kept | apply State.setLocked_kept
    | apply State.setPva_kept | dsimp only | split | dsimp +zetaDelta only | exact ⟨rfl, rfl⟩ | apply kept_update

theorem State.faultTick_kept {q_ : List Instr} {d_ : DevState} {s : State} (h : s.Kept q_ d_) {a : Nat} : (State.faultTick s a).Kept q_ d_ := by
  unfold State.faultTick
  try lift_lets
  intros
  try clear_value v
  try
    have k_x : x.Kept q_ d_ := by
      dsimp only [x]
      with_reducible repeat' first
        | assumption | dsimp +zetaDelta only
    clear_value x
  try
    have k_s1 : s1.Kept q_ d_ := by
      dsimp only [s1]
      with_reducible repeat' first
        | assumption | apply State.setAxis_kept | exact ⟨rfl, rfl⟩ | apply kept_update
    clear_value s1
  with_reducible repeat' first
    | assumption | apply kept_ite | apply State.setAxis_kept | apply State.setPva_kept | apply State.setAxState_kept
    | apply State.setLocked_kept | apply State.setFld_kept | apply State.setTarget_kept | dsimp only | split
    | dsimp +zetaDelta only | exact ⟨rfl, rfl⟩ | apply kept_update

theorem State.limitStop_kept {q_ : List Instr} {d_ : DevState} {s : State} (h : s.Kept q_ d_) {a : Nat} : (State.limitStop s a).Kept q_ d_ := by
  unfold State.limitStop
  try lift_lets
  intros
  try clear_value acts
  try
    have k_st : st.Kept q_ d_ := by
      dsimp only [st]
      with_reducible repeat' first
        | assumption
    clear_value st
  with_reducible repeat' first
    | assumption | apply kept_ite | apply State.setBit_kept | apply State.inc_kept | apply State.event_kept
    | apply State.beginStop_kept | dsimp only | split | dsimp +zetaDelta only

theorem State.stoppingTick_kept {q_ : List Instr} {d_ : DevState} {s : State} (h : s.Kept q_ d_) {a : Nat} : (State.stoppingTick s a).Kept q_ d_ := by
  unfold State.stoppingTick
  try lift_lets
  intros
  try
    have k_x : x.Kept q_ d_ := by
      dsimp only [x]
      with_reducible repeat' first
        | assumption
    clear_value x
  try
    have k_s1 : s1.Kept q_ d_ := by
      dsimp only [s1]
      with_reducible repeat' first
        | assumption | apply kept_ite | apply State.planTick_kept | split
    clear_value s1
  try
    have k_s2 : s2.Kept q_ d_ := by
      dsimp only [s2]
      with_reducible repeat' first
        | assumption | apply kept_ite | apply State.wrI64_kept | split
    clear_value s2
  with_reducible repeat' first
    | assumption | apply kept_ite | apply State.planTick_kept | apply State.wrI64_kept | apply State.setTarget_kept
    | apply State.setAxState_kept | dsimp only | split | dsimp +zetaDelta only

theorem State.slaveTick_kept {q_ : List Instr} {d_ : DevState} {s : State} (h : s.Kept q_ d_) {g : Nat} {a : Nat} : (State.slaveTick s g a).Kept q_ d_ := by
  unfold State.slaveTick
  try lift_lets
  intros
  try clear_value gear
  try clear_value lc
  try clear_value q
  try clear_value sv
  try clear_value locked
  try clear_value slip
  try
    have k_x : x.Kept q_ d_ := by
      dsimp only [x]
      with_reducible repeat' first
        | assumption
    clear_value x
  try
    have k_x1 : x1.Kept q_ d_ := by
      dsimp only [x1]
      with_reducible repeat' first
        | assumption | apply kept_ite | split | exact ⟨rfl, rfl⟩ | apply kept_update
    clear_value x1
  try
    have k_s1 : s1.Kept q_ d_ := by
      dsimp only [s1]
      with_reducible repeat' first
        | assumption | apply kept_ite | apply State.setAxis_kept | split | exact ⟨rfl, rfl⟩ | apply kept_update
    clear_value s1
  try
    have k_t : t.Kept q_ d_ := by
      dsimp only [t]
      with_reducible repeat' first
        | assumption | dsimp +zetaDelta only
    clear_value t
  try
    have k_s2 : s2.Kept q_ d_ := by
      dsimp only [s2]
      with_reducible repeat' first
        | assumption | apply State.setAxis_kept | exact ⟨rfl, rfl⟩ | apply kept_update
    clear_value s2
  with_reducible repeat' first
    | assumption | apply kept_ite | apply State.setAxis_kept | apply State.setBit_kept | apply State.inc_kept
    | apply State.event_kept | apply State.setLocked_kept | apply State.setAxState_kept | apply State.planTick_kept
    | apply State.setPva_kept | dsimp only | split | dsimp +zetaDelta only | exact ⟨rfl, rfl⟩ | apply kept_update

theorem State.followTick_kept {q_ : List Instr} {d_ : DevState} {s : State} (h : s.Kept q_ d_) {g : Nat} {a : Nat} : (State.followTick s g a).Kept q_ d_ := by
  unfold State.followTick
  try lift_lets
  intros
  try clear_value q
  try clear_value lim
  try clear_value d
  try clear_value d'
  try
    have k_s1 : s1.Kept q_ d_ := by
      dsimp only [s1]
      with_reducible repeat' first
        | assumption | apply kept_ite | apply State.setBit_kept | apply State.event_kept | split
    clear_value s1
  with_reducible repeat' first
    | assumption | apply kept_ite | apply State.setBit_kept | apply State.event_kept | apply State.setPva_kept | dsimp only
    | split | dsimp +zetaDelta only

theorem State.rampOver_kept {q_ : List Instr} {d_ : DevState} {s : State} (h : s.Kept q_ d_) {a : Nat} : (State.rampOver s a).Kept q_ d_ := by
  unfold State.rampOver
  try dsimp only
  with_reducible repeat' first
    | assumption | apply kept_ite | apply State.setAxis_kept | split | exact ⟨rfl, rfl⟩ | apply kept_update

theorem State.turned_kept {q_ : List Instr} {d_ : DevState} {s : State} (h : s.Kept q_ d_) {a : Nat} : (State.turned s a).Kept q_ d_ := by
  unfold State.turned
  try dsimp only
  with_reducible repeat' first
    | assumption | apply kept_ite | apply State.setAxis_kept | split | exact ⟨rfl, rfl⟩ | apply kept_update

theorem State.movingTick_kept {q_ : List Instr} {d_ : DevState} {s : State} (h : s.Kept q_ d_) {g : Nat} {a : Nat} : (State.movingTick s g a).Kept q_ d_ := by
  unfold State.movingTick
  try lift_lets
  intros
  try
    have k_s0 : s0.Kept q_ d_ := by
      dsimp only [s0]
      with_reducible repeat' first
        | assumption | apply State.turned_kept
    clear_value s0
  try
    have k_s1 : s1.Kept q_ d_ := by
      dsimp only [s1]
      with_reducible repeat' first
        | assumption | apply kept_ite | apply State.planTick_kept | split
    clear_value s1
  with_reducible repeat' first
    | assumption | apply kept_ite | apply State.turned_kept | apply State.planTick_kept | apply State.setAxis_kept
    | apply State.setAxState_kept | dsimp only | split | dsimp +zetaDelta only | exact ⟨rfl, rfl⟩ | apply kept_update

theorem State.restTick_kept {q_ : List Instr} {d_ : DevState} {s : State} (h : s.Kept q_ d_) {a : Nat} : (State.restTick s a).Kept q_ d_ := by
  unfold State.restTick
  try dsimp only
  with_reducible repeat' first
    | assumption | apply kept_ite | apply State.planTick_kept | split

theorem State.plannedTick_kept {q_ : List Instr} {d_ : DevState} {s : State} (h : s.Kept q_ d_) {g : Nat} {a : Nat} : (State.plannedTick s g a).Kept q_ d_ := by
  unfold State.plannedTick
  try lift_lets
  intros
  try
    have k_st : st.Kept q_ d_ := by
      dsimp only [st]
      with_reducible repeat' first
        | assumption
    clear_value st
  with_reducible repeat' first
    | assumption | apply kept_ite | apply State.movingTick_kept | apply State.planTick_kept | apply State.stoppingTick_kept
    | apply State.slaveTick_kept | apply State.homeTick_kept | apply State.followTick_kept | apply State.restTick_kept
    | dsimp only | split | dsimp +zetaDelta only

theorem State.feedBack_kept {q_ : List Instr} {d_ : DevState} {s : State} (h : s.Kept q_ d_) {g : Nat} {a : Nat} : (State.feedBack s g a).Kept q_ d_ := by
  unfold State.feedBack
  try lift_lets
  intros
  try clear_value e
  with_reducible repeat' first
    | assumption | apply kept_ite | apply State.setPva_kept | dsimp only | split | dsimp +zetaDelta only

theorem State.releaseTick_kept {q_ : List Instr} {d_ : DevState} {s : State} (h : s.Kept q_ d_) {a : Nat} : (State.releaseTick s a).Kept q_ d_ := by
  unfold State.releaseTick
  try lift_lets
  intros
  try
    have k_s1 : s1.Kept q_ d_ := by
      dsimp only [s1]
      with_reducible repeat' first
        | assumption | apply State.setPva_kept
    clear_value s1
  with_reducible repeat' first
    | assumption | apply kept_ite | apply State.setPva_kept | apply State.setAxState_kept | apply State.setTarget_kept
    | dsimp only | split | dsimp +zetaDelta only

theorem State.enterTick_kept {q_ : List Instr} {d_ : DevState} {s : State} (h : s.Kept q_ d_) {g : Nat} {a : Nat} : (State.enterTick s g a).Kept q_ d_ := by
  unfold State.enterTick
  try dsimp only
  with_reducible repeat' first
    | assumption | apply kept_ite | apply State.trackTick_kept | apply State.faultTick_kept | apply State.heldTick_kept
    | apply State.releaseTick_kept | apply State.setTarget_kept | apply State.setAxState_kept | split

theorem State.axisTick_kept {q_ : List Instr} {d_ : DevState} {s : State} (h : s.Kept q_ d_) {g : Nat} {a : Nat} : (State.axisTick s g a).Kept q_ d_ := by
  unfold State.axisTick
  try lift_lets
  intros
  try clear_value go
  try
    have k_s0 : s0.Kept q_ d_ := by
      dsimp only [s0]
      with_reducible repeat' first
        | assumption | apply State.setAxis_kept | exact ⟨rfl, rfl⟩ | apply kept_update
    clear_value s0
  with_reducible repeat' first
    | assumption | apply kept_ite | apply State.setAxis_kept | apply State.rampOver_kept | apply State.limitStop_kept
    | apply State.plannedTick_kept | dsimp only | split | dsimp +zetaDelta only | exact ⟨rfl, rfl⟩ | apply kept_update

theorem State.setArrivals_kept {q_ : List Instr} {d_ : DevState} {s : State} (h : s.Kept q_ d_) {g : Nat} : (State.setArrivals s g).Kept q_ d_ := by
  unfold State.setArrivals
  try dsimp only
  with_reducible repeat' first
    | assumption | intro _ | apply forEach_kept | apply State.setAxis_kept | dsimp only | exact ⟨rfl, rfl⟩ | apply kept_update

theorem State.rememberMeasured_kept {q_ : List Instr} {d_ : DevState} {s : State} (h : s.Kept q_ d_) {a : Nat} : (State.rememberMeasured s a).Kept q_ d_ := by
  unfold State.rememberMeasured
  try lift_lets
  intros
  try clear_value v
  try clear_value ok
  try clear_value k
  try
    have k_x : x.Kept q_ d_ := by
      dsimp only [x]
      with_reducible repeat' first
        | assumption | dsimp +zetaDelta only
    clear_value x
  with_reducible repeat' first
    | assumption | apply kept_ite | apply State.setAxis_kept | dsimp only | split | dsimp +zetaDelta only | exact ⟨rfl, rfl⟩
    | apply kept_update

theorem State.cmpArm_kept {q_ : List Instr} {d_ : DevState} {s : State} (h : s.Kept q_ d_) {a : Nat} {c : Nat} {v : Word} : (State.cmpArm s a c v).Kept q_ d_ := by
  unfold State.cmpArm
  try dsimp only
  with_reducible repeat' first
    | assumption | apply wr_kept | apply State.setAxis_kept

theorem State.cmpDisarm_kept {q_ : List Instr} {d_ : DevState} {s : State} (h : s.Kept q_ d_) {a : Nat} {c : Nat} {v : Word} : (State.cmpDisarm s a c v).Kept q_ d_ := by
  unfold State.cmpDisarm
  try dsimp only
  with_reducible repeat' first
    | assumption | apply wr_kept | apply State.setAxis_kept

theorem State.setArmed_kept {q_ : List Instr} {d_ : DevState} {s : State} (h : s.Kept q_ d_) {a : Nat} {c : Nat} {b : Bool} : (State.setArmed s a c b).Kept q_ d_ := by
  unfold State.setArmed
  try dsimp only
  with_reducible repeat' first
    | assumption | apply State.setBit_kept

theorem State.disarm_kept {q_ : List Instr} {d_ : DevState} {s : State} (h : s.Kept q_ d_) {a : Nat} {c : Nat} : (State.disarm s a c).Kept q_ d_ := by
  unfold State.disarm
  try dsimp only
  with_reducible repeat' first
    | assumption | apply State.setAxis_kept | apply State.setArmed_kept

theorem State.cutCompare_kept {q_ : List Instr} {d_ : DevState} {s : State} (h : s.Kept q_ d_) {a : Nat} {c : Nat} : (State.cutCompare s a c).Kept q_ d_ := by
  unfold State.cutCompare
  try lift_lets
  intros
  try clear_value ctrl
  try
    have k_s0 : s0.Kept q_ d_ := by
      dsimp only [s0]
      with_reducible repeat' first
        | assumption | apply State.setAxis_kept | exact ⟨rfl, rfl⟩ | apply kept_update
    clear_value s0
  try
    have k_x : x.Kept q_ d_ := by
      dsimp only [x]
      with_reducible repeat' first
        | assumption
    clear_value x
  with_reducible repeat' first
    | assumption | apply kept_ite | apply State.disarm_kept | apply State.setAxis_kept | apply State.setArmed_kept
    | apply State.setBit_kept | dsimp only | split | dsimp +zetaDelta only | exact ⟨rfl, rfl⟩ | apply kept_update

theorem State.fire_kept {q_ : List Instr} {d_ : DevState} {s : State} (h : s.Kept q_ d_) {a : Nat} {c : Nat} {ctrl : Nat} {n : Nat} {t : Nat} : (State.fire s a c ctrl n t).Kept q_ d_ := by
  unfold State.fire
  try lift_lets
  intros
  try clear_value again
  try
    have k_s1 : s1.Kept q_ d_ := by
      dsimp only [s1]
      with_reducible repeat' first
        | assumption | apply State.setBit_kept | apply State.wr64_kept | apply State.add_kept | apply State.event_kept
    clear_value s1
  try
    have k_x : x.Kept q_ d_ := by
      dsimp only [x]
      with_reducible repeat' first
        | assumption
    clear_value x
  try
    have k_s2 : s2.Kept q_ d_ := by
      dsimp only [s2]
      with_reducible repeat' first
        | assumption | apply kept_ite | apply State.setAxis_kept | split | exact ⟨rfl, rfl⟩ | apply kept_update
    clear_value s2
  with_reducible repeat' first
    | assumption | intro _ | apply kept_ite | apply State.setBit_kept | apply State.wr64_kept | apply State.add_kept
    | apply State.event_kept | apply State.setAxis_kept | dsimp only | split | dsimp +zetaDelta only | exact ⟨rfl, rfl⟩
    | apply kept_update

theorem State.selfDisarm_kept {q_ : List Instr} {d_ : DevState} {s : State} (h : s.Kept q_ d_) {a : Nat} {c : Nat} : (State.selfDisarm s a c).Kept q_ d_ := by
  unfold State.selfDisarm
  try dsimp only
  with_reducible repeat' first
    | assumption | apply State.setAxis_kept | apply State.setArmed_kept | exact ⟨rfl, rfl⟩ | apply kept_update

theorem State.afterFire_kept {q_ : List Instr} {d_ : DevState} {s : State} (h : s.Kept q_ d_) {a : Nat} {c : Nat} {k : CmpSet} {last : Int} {dir : Int} : (State.afterFire s a c k last dir).Kept q_ d_ := by
  unfold State.afterFire
  try lift_lets
  intros
  try clear_value k'
  try
    have k_x : x.Kept q_ d_ := by
      dsimp only [x]
      with_reducible repeat' first
        | assumption
    clear_value x
  try
    have k_s1 : s1.Kept q_ d_ := by
      dsimp only [s1]
      with_reducible repeat' first
        | assumption | apply State.setAxis_kept | exact ⟨rfl, rfl⟩ | apply kept_update
    clear_value s1
  with_reducible repeat' first
    | assumption | apply kept_ite | apply State.setAxis_kept | apply State.wrI64_kept | apply State.selfDisarm_kept | dsimp only
    | split | dsimp +zetaDelta only | exact ⟨rfl, rfl⟩ | apply kept_update

theorem State.compareSpan_kept {q_ : List Instr} {d_ : DevState} {s : State} (h : s.Kept q_ d_) {a : Nat} {x0 : Int} {x1 : Int} {t0 : Nat} {t1 : Nat} : (State.compareSpan s a x0 x1 t0 t1).Kept q_ d_ := by
  unfold State.compareSpan
  try lift_lets
  intros
  try clear_value n
  try clear_value last
  try clear_value dir
  try
    have k_t : t.Kept q_ d_ := by
      dsimp only [t]
      with_reducible repeat' first
        | assumption
    clear_value t
  with_reducible repeat' first
    | assumption | intro _ | apply kept_ite | apply forUpTo_kept | apply State.fire_kept | apply State.afterFire_kept | dsimp only
    | split | dsimp +zetaDelta only

theorem State.judgeArmed_kept {q_ : List Instr} {d_ : DevState} {s : State} (h : s.Kept q_ d_) {a : Nat} {c : Nat} {x : Int} : (State.judgeArmed s a c x).Kept q_ d_ := by
  unfold State.judgeArmed
  try lift_lets
  intros
  try clear_value dir
  try clear_value behind
  try clear_value y
  try
    have k_s1 : s1.Kept q_ d_ := by
      dsimp only [s1]
      with_reducible repeat' first
        | assumption | apply State.setAxis_kept | exact ⟨rfl, rfl⟩ | apply kept_update
    clear_value s1
  with_reducible repeat' first
    | assumption | intro _ | apply kept_ite | apply State.setAxis_kept | apply State.fire_kept | apply State.afterFire_kept
    | apply State.setBit_kept | apply State.event_kept | dsimp only | split | dsimp +zetaDelta only | exact ⟨rfl, rfl⟩
    | apply kept_update

theorem State.cmpAction_kept {q_ : List Instr} {d_ : DevState} {s : State} (h : s.Kept q_ d_) {ctrl : Nat} : (State.cmpAction s ctrl).Kept q_ d_ := by
  unfold State.cmpAction
  try lift_lets
  intros
  try clear_value dq
  with_reducible repeat' first
    | assumption | apply State.sendFlag_kept | dsimp only | split | dsimp +zetaDelta only | exact ⟨rfl, rfl⟩ | apply kept_update

theorem State.compareTick_kept {q_ : List Instr} {d_ : DevState} {s : State} (h : s.Kept q_ d_) {a : Nat} : (State.compareTick s a).Kept q_ d_ := by
  unfold State.compareTick
  try lift_lets
  intros
  try clear_value ok
  try clear_value tb
  try clear_value acts
  try
    have k_x : x.Kept q_ d_ := by
      dsimp only [x]
      with_reducible repeat' first
        | assumption | dsimp +zetaDelta only
    clear_value x
  try
    have k_s1 : s1.Kept q_ d_ := by
      dsimp only [s1]
      with_reducible repeat' first
        | assumption | apply kept_ite | apply State.compareSpan_kept | split
    clear_value s1
  try
    have k_s2 : s2.Kept q_ d_ := by
      dsimp only [s2]
      with_reducible repeat' first
        | assumption | intro _ | apply kept_ite | apply forUpTo_kept | apply State.judgeArmed_kept | dsimp only | split
    clear_value s2
  try
    have k_s3 : s3.Kept q_ d_ := by
      dsimp only [s3]
      with_reducible repeat' first
        | assumption | intro _ | apply forUpTo_kept | apply getD_map_kept | apply State.cmpAction_kept | dsimp only
    clear_value s3
  with_reducible repeat' first
    | assumption | intro _ | apply kept_ite | apply forUpTo_kept | apply getD_map_kept | apply State.compareSpan_kept
    | apply State.judgeArmed_kept | apply State.cmpAction_kept | apply State.setAxis_kept | dsimp only | split
    | dsimp +zetaDelta only | exact ⟨rfl, rfl⟩ | apply kept_update

theorem State.shiftLoop_kept {q_ : List Instr} {d_ : DevState} {s : State} (h : s.Kept q_ d_) {a : Nat} {d : Int} : (State.shiftLoop s a d).Kept q_ d_ := by
  unfold State.shiftLoop
  try lift_lets
  intros
  try clear_value b
  with_reducible repeat' first
    | assumption | intro _ | apply forUpTo_kept | apply State.setCellI_kept | dsimp only | dsimp +zetaDelta only

theorem State.applyShift_kept {q_ : List Instr} {d_ : DevState} {s : State} (h : s.Kept q_ d_) {a : Nat} : (State.applyShift s a).Kept q_ d_ := by
  unfold State.applyShift
  try lift_lets
  intros
  try clear_value ofs
  try
    have k_x : x.Kept q_ d_ := by
      dsimp only [x]
      with_reducible repeat' first
        | assumption
    clear_value x
  try
    have k_s1 : s1.Kept q_ d_ := by
      dsimp only [s1]
      with_reducible repeat' first
        | assumption | apply State.setAxis_kept | exact ⟨rfl, rfl⟩ | apply kept_update
    clear_value s1
  try
    have k_s2 : s2.Kept q_ d_ := by
      dsimp only [s2]
      with_reducible repeat' first
        | assumption | apply State.wrI64_kept | apply State.setTarget_kept | apply State.shiftLoop_kept | dsimp +zetaDelta only
    clear_value s2
  with_reducible repeat' first
    | assumption | intro _ | apply kept_ite | apply forUpTo_kept | apply State.setAxis_kept | apply State.wrI64_kept
    | apply State.setTarget_kept | apply State.shiftLoop_kept | apply State.disarm_kept | apply State.setBit_kept
    | apply State.event_kept | dsimp only | split | dsimp +zetaDelta only | exact ⟨rfl, rfl⟩ | apply kept_update

theorem State.putRow_kept {q_ : List Instr} {d_ : DevState} {s : State} (h : s.Kept q_ d_) {b : Nat} {r : Nat} {j : Nat} {bounds : Option (Int × Int)} : (State.putRow s b r j bounds).Kept q_ d_ := by
  unfold State.putRow
  try lift_lets
  intros
  try
    have k_s1 : s1.Kept q_ d_ := by
      dsimp only [s1]
      with_reducible repeat' first
        | assumption | apply State.clearCell_kept | apply State.setCellI_kept
    clear_value s1
  with_reducible repeat' first
    | assumption | apply State.clearCell_kept | apply State.setCellI_kept | apply State.setCell_kept | dsimp only | split
    | dsimp +zetaDelta only

theorem State.memberRows_kept {q_ : List Instr} {d_ : DevState} {s : State} (h : s.Kept q_ d_) {g : Nat} {b : Nat} {cnt : Nat} {j : Nat} {a : Nat} {x0 : Int} {v0 : Int} : (State.memberRows s g b cnt j a x0 v0).Kept q_ d_ := by
  unfold State.memberRows
  try lift_lets
  intros
  try clear_value bld
  try clear_value F
  try clear_value go
  try clear_value k0
  try clear_value k1
  try clear_value lim
  try clear_value soft
  try clear_value base
  try
    have k_s1 : s1.Kept q_ d_ := by
      dsimp only [s1]
      with_reducible repeat' first
        | assumption | apply kept_ite | apply State.putRow_kept | split
    clear_value s1
  try
    have k_s2 : s2.Kept q_ d_ := by
      dsimp only [s2]
      with_reducible repeat' first
        | assumption | apply kept_ite | apply State.putRow_kept | split
    clear_value s2
  with_reducible repeat' first
    | assumption | apply kept_ite | apply State.putRow_kept | dsimp only | split | dsimp +zetaDelta only

theorem State.modelWords_kept {q_ : List Instr} {d_ : DevState} {s : State} (h : s.Kept q_ d_) {b : Nat} {n : Nat} {kind : Nat} {g : Nat} {on : List Int} : (State.modelWords s b n kind g on).Kept q_ d_ := by
  unfold State.modelWords
  try dsimp only
  with_reducible repeat' first
    | assumption | intro _ | apply forUpTo_kept | apply State.setCell_kept | dsimp only

theorem State.putTool_kept {q_ : List Instr} {d_ : DevState} {s : State} (h : s.Kept q_ d_) {g : Nat} {b : Nat} {r : Nat} {nv : Nat} {on : List Int} : (State.putTool s g b r nv on).Kept q_ d_ := by
  unfold State.putTool
  try lift_lets
  intros
  try clear_value lim
  try
    have k_t : t.Kept q_ d_ := by
      dsimp only [t]
      with_reducible repeat' first
        | assumption | apply State.modelWords_kept | apply State.setCell_kept
    clear_value t
  with_reducible repeat' first
    | assumption | intro _ | apply kept_ite | apply forEach_kept | apply State.modelWords_kept | apply State.setCell_kept
    | dsimp only | split | dsimp +zetaDelta only

theorem State.putGroup_kept {q_ : List Instr} {d_ : DevState} {s : State} (h : s.Kept q_ d_) {g : Nat} {pres : List (Nat × Int × Int)} : (State.putGroup s g pres).Kept q_ d_ := by
  unfold State.putGroup
  try lift_lets
  intros
  try clear_value b
  try clear_value nv
  try clear_value ofs
  try clear_value mem
  try clear_value cnt
  try clear_value a
  try clear_value acc
  try clear_value z
  try clear_value f
  try clear_value v0
  try clear_value bld
  try clear_value nr
  try clear_value on
  try
    have k_s1 : s1.Kept q_ d_ := by
      dsimp only [s1]
      with_reducible repeat' first
        | assumption | intro _ | apply forUpTo_kept | apply State.clearCell_kept | apply State.setCellI_kept
        | apply State.setCell_kept | dsimp only
    clear_value s1
  try
    have k_s2 : s2.Kept q_ d_ := by
      dsimp only [s2]
      with_reducible repeat' first
        | assumption | intro _ | apply kept_ite | apply forEach_kept | apply State.setCellI_kept | dsimp only | split
    clear_value s2
  try
    have k_s3 : s3.Kept q_ d_ := by
      dsimp only [s3]
      with_reducible repeat' first
        | assumption | intro _ | apply forEach_kept | apply getD_map_kept | apply State.memberRows_kept | dsimp only
        | dsimp +zetaDelta only
    clear_value s3
  try
    have k_x0 : x0.Kept q_ d_ := by
      dsimp only [x0]
      with_reducible repeat' first
        | assumption | intro _ | apply getD_map_kept | dsimp only | dsimp +zetaDelta only
    clear_value x0
  try
    have k_s4 : s4.Kept q_ d_ := by
      dsimp only [s4]
      with_reducible repeat' first
        | assumption | apply kept_ite | apply State.putTool_kept | split
    clear_value s4
  with_reducible repeat' first
    | assumption | intro _ | apply kept_ite | apply forUpTo_kept | apply forEach_kept | apply getD_map_kept
    | apply State.clearCell_kept | apply State.setCellI_kept | apply State.setCell_kept | apply State.memberRows_kept
    | apply State.putTool_kept | apply State.modelWords_kept | dsimp only | split | dsimp +zetaDelta only

theorem State.putCoupling_kept {q_ : List Instr} {d_ : DevState} {s : State} (h : s.Kept q_ d_) : (State.putCoupling s).Kept q_ d_ := by
  unfold State.putCoupling
  try lift_lets
  intros
  try clear_value b
  try clear_value e
  try clear_value on
  with_reducible repeat' first
    | assumption | intro _ | apply kept_ite | apply forUpTo_kept | apply State.modelWords_kept | apply State.setCell_kept
    | dsimp only | split | dsimp +zetaDelta only

theorem State.putPlan_kept {q_ : List Instr} {d_ : DevState} {s : State} (h : s.Kept q_ d_) {a : Nat} {x0 : Int} {v0 : Int} : (State.putPlan s a x0 v0).Kept q_ d_ := by
  unfold State.putPlan
  try lift_lets
  intros
  try clear_value b
  with_reducible repeat' first
    | assumption | apply State.putEntry_kept | apply State.setCellI_kept | dsimp only | dsimp +zetaDelta only

theorem State.markHard_kept {q_ : List Instr} {d_ : DevState} {s : State} (h : s.Kept q_ d_) {a : Nat} {again : Bool} : (State.markHard s a again).Kept q_ d_ := by
  unfold State.markHard
  try lift_lets
  intros
  try clear_value m
  try clear_value hard
  with_reducible repeat' first
    | assumption | apply State.setAxis_kept | dsimp only | dsimp +zetaDelta only | exact ⟨rfl, rfl⟩ | apply kept_update

theorem State.groupTick_kept {q_ : List Instr} {d_ : DevState} {s : State} (h : s.Kept q_ d_) {g : Nat} : (State.groupTick s g).Kept q_ d_ := by
  unfold State.groupTick
  try lift_lets
  intros
  try clear_value mem
  try clear_value entry
  try
    have k_s0 : s0.Kept q_ d_ := by
      dsimp only [s0]
      with_reducible repeat' first
        | assumption | intro _ | apply forEach_kept | apply State.feedBack_kept | apply State.markHard_kept
        | apply State.masterTick_kept | dsimp only
    clear_value s0
  try
    have k_s1 : s1.Kept q_ d_ := by
      dsimp only [s1]
      with_reducible repeat' first
        | assumption | intro _ | apply forEach_kept | apply State.markHard_kept | apply State.runSnap_kept
        | apply State.masterHold_kept | dsimp only
    clear_value s1
  try
    have k_s2 : s2.Kept q_ d_ := by
      dsimp only [s2]
      with_reducible repeat' first
        | assumption | intro _ | apply forEach_kept | apply State.enterTick_kept | dsimp only
    clear_value s2
  try
    have k_s3 : s3.Kept q_ d_ := by
      dsimp only [s3]
      with_reducible repeat' first
        | assumption | intro _ | apply forEach_kept | apply State.axisTick_kept | apply State.setArrivals_kept | dsimp only
    clear_value s3
  try
    have k_s4 : s4.Kept q_ d_ := by
      dsimp only [s4]
      with_reducible repeat' first
        | assumption | intro _ | apply forEach_kept | apply State.putPlan_kept | dsimp only
    clear_value s4
  try
    have k_s5 : s5.Kept q_ d_ := by
      dsimp only [s5]
      with_reducible repeat' first
        | assumption | intro _ | apply kept_ite | apply State.setBit_kept | dsimp only | split
    clear_value s5
  with_reducible repeat' first
    | assumption | intro _ | apply kept_ite | apply forEach_kept | apply State.feedBack_kept | apply State.markHard_kept
    | apply State.masterTick_kept | apply State.runSnap_kept | apply State.masterHold_kept | apply State.enterTick_kept
    | apply State.axisTick_kept | apply State.setArrivals_kept | apply State.putPlan_kept | apply State.setBit_kept
    | apply State.putGroup_kept | dsimp only | split | dsimp +zetaDelta only

theorem State.profilePhase_kept {q_ : List Instr} {d_ : DevState} {s : State} (h : s.Kept q_ d_) : (State.profilePhase s).Kept q_ d_ := by
  unfold State.profilePhase
  try lift_lets
  intros
  try clear_value loose
  try
    have k_s1 : s1.Kept q_ d_ := by
      dsimp only [s1]
      with_reducible repeat' first
        | assumption | intro _ | apply forEach_kept | apply State.groupTick_kept | dsimp only
    clear_value s1
  try
    have k_s2 : s2.Kept q_ d_ := by
      dsimp only [s2]
      with_reducible repeat' first
        | assumption | intro _ | apply forEach_kept | apply State.trackTick_kept | apply State.setAxis_kept | dsimp only
        | exact ⟨rfl, rfl⟩ | apply kept_update
    clear_value s2
  try
    have k_s3 : s3.Kept q_ d_ := by
      dsimp only [s3]
      with_reducible repeat' first
        | assumption | intro _ | apply forUpTo_kept | apply State.compareTick_kept | apply State.rememberMeasured_kept
        | dsimp only
    clear_value s3
  with_reducible repeat' first
    | assumption | intro _ | apply kept_ite | apply forUpTo_kept | apply forEach_kept | apply State.groupTick_kept
    | apply State.trackTick_kept | apply State.setAxis_kept | apply State.compareTick_kept | apply State.rememberMeasured_kept
    | apply State.putCoupling_kept | dsimp only | split | dsimp +zetaDelta only | exact ⟨rfl, rfl⟩ | apply kept_update

theorem State.resetLimits_kept {q_ : List Instr} {d_ : DevState} {s : State} (h : s.Kept q_ d_) : (State.resetLimits s).Kept q_ d_ := by
  unfold State.resetLimits
  try dsimp only
  with_reducible repeat' first
    | assumption | intro _ | dsimp only | exact ⟨rfl, rfl⟩ | apply kept_update

end Sys2Proof.Machine
end

