-- ==== Sys2Proof/Laws/Kept/Solver.lean ====
section
/-! SUPPORT. The operations of Machine/Solver.lean keep the canonical form and the queue. -/

namespace Sys2Proof.Machine

set_option tactic.hygienic false
set_option linter.unusedTactic false
set_option linter.unreachableTactic false
set_option linter.unusedVariables false

theorem State.forMembers_kept {q_ : List Instr} {d_ : DevState} {s : State} (h : s.Kept q_ d_) {f : Nat → Nat → Nat → State → State} (hf : ∀ y0 y1 y2 (t : State), t.Kept q_ d_ → (f y0 y1 y2 t).Kept q_ d_) : (State.forMembers s f).Kept q_ d_ := by
  unfold State.forMembers
  try dsimp only
  with_reducible repeat' first
    | assumption | intro _ | apply hf | apply forEach_kept | dsimp only

theorem State.solPro_kept {q_ : List Instr} {d_ : DevState} {s : State} (h : s.Kept q_ d_) : (State.solPro s).Kept q_ d_ := by
  unfold State.solPro
  try lift_lets
  intros
  try clear_value b
  try
    have k_s1 : s1.Kept q_ d_ := by
      dsimp only [s1]
      with_reducible repeat' first
        | assumption | intro _ | apply State.forMembers_kept | apply State.putEntry_kept | dsimp only
    clear_value s1
  with_reducible repeat' first
    | assumption | intro _ | apply State.forMembers_kept | apply State.putEntry_kept | apply State.setCell_kept | dsimp only
    | dsimp +zetaDelta only

theorem State.solRun_kept {q_ : List Instr} {d_ : DevState} {s : State} (h : s.Kept q_ d_) : (State.solRun s).Kept q_ d_ := by
  unfold State.solRun
  try lift_lets
  intros
  try clear_value b
  try clear_value groups
  try clear_value rows
  try clear_value n
  try clear_value nRows
  try clear_value start
  try clear_value prog
  try clear_value cause
  try
    have k_s1 : s1.Kept q_ d_ := by
      dsimp only [s1]
      with_reducible repeat' first
        | assumption | apply kept_ite | apply State.inc_kept | split
    clear_value s1
  try
    have k_s2 : s2.Kept q_ d_ := by
      dsimp only [s2]
      with_reducible repeat' first
        | assumption | apply State.add_kept
    clear_value s2
  try
    have k_s3 : s3.Kept q_ d_ := by
      dsimp only [s3]
      with_reducible repeat' first
        | assumption | apply State.wrN_kept | split
    clear_value s3
  with_reducible repeat' first
    | assumption | intro _ | apply kept_ite | apply State.inc_kept | apply State.add_kept | apply State.wrN_kept | dsimp only
    | split | dsimp +zetaDelta only | exact ⟨rfl, rfl⟩ | apply kept_update

theorem State.solverStart_kept {q_ : List Instr} {d_ : DevState} {s : State} (h : s.Kept q_ d_) : (State.solverStart s).Kept q_ d_ := by
  unfold State.solverStart
  try lift_lets
  intros
  try
    have k_s1 : s1.Kept q_ d_ := by
      dsimp only [s1]
      with_reducible repeat' first
        | assumption | apply State.solPro_kept
    clear_value s1
  with_reducible repeat' first
    | assumption | apply kept_ite | apply State.solPro_kept | apply State.wrN_kept | apply State.solRun_kept
    | apply State.setFld_kept | dsimp only | split | dsimp +zetaDelta only | exact ⟨rfl, rfl⟩ | apply kept_update

theorem State.solFlags_kept {q_ : List Instr} {d_ : DevState} {s : State} (h : s.Kept q_ d_) {flags : Nat} : (State.solFlags s flags).Kept q_ d_ := by
  unfold State.solFlags
  try lift_lets
  intros
  try
    have k_s1 : s1.Kept q_ d_ := by
      dsimp only [s1]
      with_reducible repeat' first
        | assumption | intro _ | apply forUpTo_kept | apply State.wrN_kept | dsimp only
    clear_value s1
  try
    have k_s2 : s2.Kept q_ d_ := by
      dsimp only [s2]
      with_reducible repeat' first
        | assumption | apply State.wrN_kept | split
    clear_value s2
  with_reducible repeat' first
    | assumption | intro _ | apply kept_ite | apply forUpTo_kept | apply State.wrN_kept | apply State.setBit_kept
    | apply State.event_kept | dsimp only | split | dsimp +zetaDelta only

theorem State.solFailed_kept {q_ : List Instr} {d_ : DevState} {s : State} (h : s.Kept q_ d_) : (State.solFailed s).Kept q_ d_ := by
  unfold State.solFailed
  try lift_lets
  intros
  try clear_value n
  try
    have k_s1 : s1.Kept q_ d_ := by
      dsimp only [s1]
      with_reducible repeat' first
        | assumption | exact ⟨rfl, rfl⟩ | apply kept_update
    clear_value s1
  try
    have k_s2 : s2.Kept q_ d_ := by
      dsimp only [s2]
      with_reducible repeat' first
        | assumption | apply State.setFld_kept
    clear_value s2
  try
    have k_s3 : s3.Kept q_ d_ := by
      dsimp only [s3]
      with_reducible repeat' first
        | assumption | apply kept_ite | apply State.inc_kept | apply State.event_kept | split
    clear_value s3
  with_reducible repeat' first
    | assumption | apply kept_ite | apply State.setFld_kept | apply State.inc_kept | apply State.event_kept
    | apply State.stopCause_kept | dsimp only | split | dsimp +zetaDelta only | exact ⟨rfl, rfl⟩ | apply kept_update

theorem State.solCycles_kept {q_ : List Instr} {d_ : DevState} {s : State} (h : s.Kept q_ d_) : (State.solCycles s).Kept q_ d_ := by
  unfold State.solCycles
  try lift_lets
  intros
  try
    have k_s2 : s2.Kept q_ d_ := by
      dsimp only [s2]
      with_reducible repeat' first
        | assumption | apply wr_kept
    clear_value s2
  with_reducible repeat' first
    | assumption | apply wr_kept | apply State.wrN_kept | dsimp only | dsimp +zetaDelta only

theorem State.solOutcome_kept {q_ : List Instr} {d_ : DevState} {s : State} (h : s.Kept q_ d_) {cause : Nat} : (State.solOutcome s cause).Kept q_ d_ := by
  unfold State.solOutcome
  try lift_lets
  intros
  try
    have k_s1 : s1.Kept q_ d_ := by
      dsimp only [s1]
      with_reducible repeat' first
        | assumption | apply State.inc_kept | apply State.setFld_kept
    clear_value s1
  try
    have k_s2 : s2.Kept q_ d_ := by
      dsimp only [s2]
      with_reducible repeat' first
        | assumption | apply State.setBit_kept | apply State.event_kept | apply State.solFailed_kept
    clear_value s2
  with_reducible repeat' first
    | assumption | apply kept_ite | apply State.inc_kept | apply State.setFld_kept | apply State.causeGone_kept
    | apply State.setBit_kept | apply State.event_kept | apply State.solFailed_kept | apply State.detLapse_kept | dsimp only
    | split | dsimp +zetaDelta only

theorem State.solverWrite_kept {q_ : List Instr} {d_ : DevState} {s : State} (h : s.Kept q_ d_) : (State.solverWrite s).Kept q_ d_ := by
  unfold State.solverWrite
  try lift_lets
  intros
  try clear_value b
  try clear_value sats
  try clear_value cause'
  try clear_value status
  try
    have k_s0 : s0.Kept q_ d_ := by
      dsimp only [s0]
      with_reducible repeat' first
        | assumption | apply State.add_kept
    clear_value s0
  try
    have k_s1 : s1.Kept q_ d_ := by
      dsimp only [s1]
      with_reducible repeat' first
        | assumption | apply kept_ite | apply State.wrN_kept | split
    clear_value s1
  try
    have k_s2 : s2.Kept q_ d_ := by
      dsimp only [s2]
      with_reducible repeat' first
        | assumption | intro _ | apply kept_ite | apply State.forMembers_kept | apply State.putEntry_kept | dsimp only | split
    clear_value s2
  try
    have k_s3 : s3.Kept q_ d_ := by
      dsimp only [s3]
      with_reducible repeat' first
        | assumption | intro _ | apply forEach_kept | apply State.setCellI_kept | dsimp only
    clear_value s3
  try
    have k_s4 : s4.Kept q_ d_ := by
      dsimp only [s4]
      with_reducible repeat' first
        | assumption | intro _ | apply forUpTo_kept | apply State.setCell_kept | dsimp only
    clear_value s4
  try
    have k_s5 : s5.Kept q_ d_ := by
      dsimp only [s5]
      with_reducible repeat' first
        | assumption | apply State.setCell_kept
    clear_value s5
  try
    have k_s6 : s6.Kept q_ d_ := by
      dsimp only [s6]
      with_reducible repeat' first
        | assumption | apply kept_ite | split | exact ⟨rfl, rfl⟩ | apply kept_update
    clear_value s6
  try
    have k_s7 : s7.Kept q_ d_ := by
      dsimp only [s7]
      with_reducible repeat' first
        | assumption | apply State.setFld_kept
    clear_value s7
  with_reducible repeat' first
    | assumption | intro _ | apply kept_ite | apply forUpTo_kept | apply forEach_kept | apply State.add_kept
    | apply State.wrN_kept | apply State.forMembers_kept | apply State.putEntry_kept | apply State.setCellI_kept
    | apply State.setCell_kept | apply State.setFld_kept | apply State.solFlags_kept | apply State.solCycles_kept
    | apply State.solOutcome_kept | dsimp only | split | dsimp +zetaDelta only | exact ⟨rfl, rfl⟩ | apply kept_update

theorem State.solverMiss_kept {q_ : List Instr} {d_ : DevState} {s : State} (h : s.Kept q_ d_) : (State.solverMiss s).Kept q_ d_ := by
  unfold State.solverMiss
  try lift_lets
  intros
  try
    have k_s2 : s2.Kept q_ d_ := by
      dsimp only [s2]
      with_reducible repeat' first
        | assumption | exact ⟨rfl, rfl⟩ | apply kept_update
    clear_value s2
  try
    have k_s3 : s3.Kept q_ d_ := by
      dsimp only [s3]
      with_reducible repeat' first
        | assumption | apply State.inc_kept | apply State.setBit_kept | apply State.setFld_kept
    clear_value s3
  try
    have k_s4 : s4.Kept q_ d_ := by
      dsimp only [s4]
      with_reducible repeat' first
        | assumption | apply State.setFld_kept
    clear_value s4
  with_reducible repeat' first
    | assumption | apply kept_ite | apply State.solFlags_kept | apply State.takeFree_kept | apply State.inc_kept
    | apply State.setBit_kept | apply State.setFld_kept | apply State.event_kept | apply State.solFailed_kept
    | apply State.detLapse_kept | dsimp only | split | dsimp +zetaDelta only | exact ⟨rfl, rfl⟩ | apply kept_update

theorem State.solFresh_kept {q_ : List Instr} {d_ : DevState} {s : State} (h : s.Kept q_ d_) : (State.solFresh s).Kept q_ d_ := by
  unfold State.solFresh
  try dsimp only
  with_reducible repeat' first
    | assumption | exact ⟨rfl, rfl⟩ | apply kept_update

theorem State.solverSecondFailure_kept {q_ : List Instr} {d_ : DevState} {s : State} (h : s.Kept q_ d_) : (State.solverSecondFailure s).Kept q_ d_ := by
  unfold State.solverSecondFailure
  try dsimp only
  with_reducible repeat' first
    | assumption | apply kept_ite | apply State.stopCause_kept | split

end Sys2Proof.Machine
end

