-- ==== Sys2Proof/Laws/Kept/Loop.lean ====
section
/-! SUPPORT. The operations of Machine/Loop.lean keep the canonical form and the queue. -/

namespace Sys2Proof.Machine

set_option tactic.hygienic false
set_option linter.unusedTactic false
set_option linter.unreachableTactic false
set_option linter.unusedVariables false

theorem State.setLoopCopy_kept {q_ : List Instr} {d_ : DevState} {s : State} (h : s.Kept q_ d_) {a : Nat} {par : Nat} {c : LoopCopy} {tick : Nat} : (State.setLoopCopy s a par c tick).Kept q_ d_ := by
  unfold State.setLoopCopy
  try lift_lets
  intros
  try clear_value b
  try clear_value q
  try
    have k_s1 : s1.Kept q_ d_ := by
      dsimp only [s1]
      with_reducible repeat' first
        | assumption | intro _ | apply forUpTo_kept | apply getD_map_kept | apply State.setCellI_kept | dsimp only
    clear_value s1
  with_reducible repeat' first
    | assumption | intro _ | apply forUpTo_kept | apply getD_map_kept | apply State.setCellI_kept | apply State.setCell_kept
    | dsimp only | dsimp +zetaDelta only

theorem State.setLoopRt_kept {q_ : List Instr} {d_ : DevState} {s : State} (h : s.Kept q_ d_) {a : Nat} {x : LoopRt} : (State.setLoopRt s a x).Kept q_ d_ := by
  unfold State.setLoopRt
  try dsimp only
  with_reducible repeat' first
    | assumption | intro _ | dsimp only | exact ⟨rfl, rfl⟩ | apply kept_update

theorem State.reqRefused_kept {q_ : List Instr} {d_ : DevState} {s : State} (h : s.Kept q_ d_) {a : Nat} {bit : Nat} : (State.reqRefused s a bit).Kept q_ d_ := by
  unfold State.reqRefused
  try dsimp only
  with_reducible repeat' first
    | assumption | apply State.setBit_kept | apply State.inc_kept | apply State.event_kept

theorem State.loopReq_kept {q_ : List Instr} {d_ : DevState} {s : State} (h : s.Kept q_ d_) {a : Nat} {i : Nat} {op : Bool} {cl : Bool} : (State.loopReq s a i op cl).Kept q_ d_ := by
  unfold State.loopReq
  try lift_lets
  intros
  try clear_value isOpen
  with_reducible repeat' first
    | assumption | apply kept_ite | apply State.reqRefused_kept | apply State.setBit_kept | dsimp only | split
    | dsimp +zetaDelta only

theorem State.loopCtrl_kept {q_ : List Instr} {d_ : DevState} {s : State} (h : s.Kept q_ d_) {a : Nat} {op : BitVec 4} {cl : BitVec 4} : (State.loopCtrl s a op cl).Kept q_ d_ := by
  unfold State.loopCtrl
  try dsimp only
  with_reducible repeat' first
    | assumption | intro _ | apply forUpTo_kept | apply State.loopReq_kept | dsimp only

theorem State.cutLoop_kept {q_ : List Instr} {d_ : DevState} {s : State} (h : s.Kept q_ d_) {a : Nat} : (State.cutLoop s a).Kept q_ d_ := by
  unfold State.cutLoop
  try lift_lets
  intros
  try
    have k_s1 : s1.Kept q_ d_ := by
      dsimp only [s1]
      with_reducible repeat' first
        | assumption | intro _ | apply kept_ite | apply forUpTo_kept | apply State.setBit_kept | apply State.setLoopRt_kept
        | apply State.reqRefused_kept | dsimp only | split | exact ⟨rfl, rfl⟩ | apply kept_update
    clear_value s1
  try
    have k_st1 : st1.Kept q_ d_ := by
      dsimp only [st1]
      with_reducible repeat' first
        | assumption | apply State.setBit_kept
    clear_value st1
  try
    have k_x : x.Kept q_ d_ := by
      dsimp only [x]
      with_reducible repeat' first
        | assumption
    clear_value x
  with_reducible repeat' first
    | assumption | intro _ | apply kept_ite | apply forUpTo_kept | apply State.setBit_kept | apply State.setLoopRt_kept
    | apply State.reqRefused_kept | dsimp only | split | dsimp +zetaDelta only | exact ⟨rfl, rfl⟩ | apply kept_update

theorem State.coefWrite_kept {q_ : List Instr} {d_ : DevState} {s : State} (h : s.Kept q_ d_) {a : Nat} {j : Nat} {w : Nat} {v : Word} : (State.coefWrite s a j w v).Kept q_ d_ := by
  unfold State.coefWrite
  try lift_lets
  intros
  try clear_value r
  with_reducible repeat' first
    | assumption | apply kept_ite | apply wr_kept | apply State.holdLow_kept | apply State.commitHigh_kept
    | apply State.setBit_kept | apply State.inc_kept | apply State.event_kept | apply State.refuseAccess_kept | dsimp only | split
    | dsimp +zetaDelta only

theorem State.loopSelftest_kept {q_ : List Instr} {d_ : DevState} {s : State} (h : s.Kept q_ d_) {a : Nat} : (State.loopSelftest s a).Kept q_ d_ := by
  unfold State.loopSelftest
  try lift_lets
  intros
  try clear_value b
  try
    have k_s1 : s1.Kept q_ d_ := by
      dsimp only [s1]
      with_reducible repeat' first
        | assumption | intro _ | apply forUpTo_kept | apply wr_kept | dsimp only | dsimp +zetaDelta only
    clear_value s1
  try
    have k_s2 : s2.Kept q_ d_ := by
      dsimp only [s2]
      with_reducible repeat' first
        | assumption | apply State.setFld_kept
    clear_value s2
  with_reducible repeat' first
    | assumption | intro _ | apply forUpTo_kept | apply wr_kept | apply State.setFld_kept | apply State.setLoopRt_kept
    | apply State.setCell_kept | apply State.wrN_kept | dsimp only | dsimp +zetaDelta only

theorem State.countSats_kept {q_ : List Instr} {d_ : DevState} {s : State} (h : s.Kept q_ d_) {n : Nat} : (State.countSats s n).Kept q_ d_ := by
  unfold State.countSats
  try lift_lets
  intros
  try clear_value k
  try
    have k_s1 : s1.Kept q_ d_ := by
      dsimp only [s1]
      with_reducible repeat' first
        | assumption | apply State.takeFree_kept | dsimp +zetaDelta only
    clear_value s1
  with_reducible repeat' first
    | assumption | apply kept_ite | apply State.takeFree_kept | apply State.add_kept | dsimp only | split | dsimp +zetaDelta only

theorem State.putRecord_kept {q_ : List Instr} {d_ : DevState} {s : State} (h : s.Kept q_ d_) {a : Nat} {w0 : Nat} {x : Int} {v : Int} {t : Int} : (State.putRecord s a w0 x v t).Kept q_ d_ := by
  unfold State.putRecord
  try lift_lets
  intros
  try clear_value b
  with_reducible repeat' first
    | assumption | apply State.setCell_kept | apply State.setCellI_kept | dsimp only | dsimp +zetaDelta only

theorem State.followingError_kept {q_ : List Instr} {d_ : DevState} {s : State} (h : s.Kept q_ d_) {a : Nat} : (State.followingError s a).Kept q_ d_ := by
  unfold State.followingError
  try dsimp only
  with_reducible repeat' first
    | assumption | apply State.setBit_kept | apply State.inc_kept | apply State.event_kept

theorem State.emitTorque_kept {q_ : List Instr} {d_ : DevState} {s : State} (h : s.Kept q_ d_) {a : Nat} {u : Int} {cands : List (Nat × Int)} {win : Nat} {sat : Bool} {off : Bool} : (State.emitTorque s a u cands win sat off).Kept q_ d_ := by
  unfold State.emitTorque
  try lift_lets
  intros
  try
    have k_s1 : s1.Kept q_ d_ := by
      dsimp only [s1]
      with_reducible repeat' first
        | assumption | intro _ | apply forEach_kept | apply State.wrI_kept | dsimp only
    clear_value s1
  try
    have k_s2 : s2.Kept q_ d_ := by
      dsimp only [s2]
      with_reducible repeat' first
        | assumption | apply State.setFld_kept | apply State.inc_kept
    clear_value s2
  with_reducible repeat' first
    | assumption | intro _ | apply kept_ite | apply forEach_kept | apply State.wrI_kept | apply State.setFld_kept
    | apply State.inc_kept | apply State.setBit_kept | apply State.event_kept | dsimp only | split | dsimp +zetaDelta only

theorem State.loopTask_kept {q_ : List Instr} {d_ : DevState} {s : State} (h : s.Kept q_ d_) {a : Nat} : (State.loopTask s a).Kept q_ d_ := by
  unfold State.loopTask
  try lift_lets
  intros
  try clear_value en
  try clear_value rd
  try clear_value rt
  try clear_value copy
  try clear_value v
  try clear_value miss
  try clear_value seen
  try clear_value closing
  try clear_value pass
  try clear_value l0
  try clear_value sto
  try clear_value outs
  try clear_value sg
  try clear_value off
  try clear_value c0
  try clear_value cs
  try clear_value win
  try clear_value m
  try clear_value tmax
  try clear_value sat
  try clear_value stages
  try clear_value sats
  try clear_value ef
  try clear_value n
  try clear_value beyond
  try clear_value run
  try clear_value fe
  try clear_value tff
  try clear_value vc
  try
    have k_s1 : s1.Kept q_ d_ := by
      dsimp only [s1]
      with_reducible repeat' first
        | assumption | apply State.setBit_kept | apply State.inc_kept | apply State.event_kept | split | dsimp +zetaDelta only
    clear_value s1
  try
    have k_x : x.Kept q_ d_ := by
      dsimp only [x]
      with_reducible repeat' first
        | assumption | dsimp +zetaDelta only
    clear_value x
  try
    have k_s2 : s2.Kept q_ d_ := by
      dsimp only [s2]
      with_reducible repeat' first
        | assumption | apply kept_ite | apply State.setBit_kept | apply State.inc_kept | apply State.event_kept | split
        | dsimp +zetaDelta only
    clear_value s2
  try
    have k_st : st.Kept q_ d_ := by
      dsimp only [st]
      with_reducible repeat' first
        | assumption | intro _ | apply getD_map_kept | dsimp only
    clear_value st
  try
    have k_u0 : u0.Kept q_ d_ := by
      dsimp only [u0]
      with_reducible repeat' first
        | assumption | dsimp +zetaDelta only
    clear_value u0
  try
    have k_u : u.Kept q_ d_ := by
      dsimp only [u]
      with_reducible repeat' first
        | assumption | apply kept_ite | split
    clear_value u
  try
    have k_s4 : s4.Kept q_ d_ := by
      dsimp only [s4]
      with_reducible repeat' first
        | assumption | apply kept_ite | apply State.followingError_kept | split
    clear_value s4
  try
    have k_s5 : s5.Kept q_ d_ := by
      dsimp only [s5]
      with_reducible repeat' first
        | assumption | apply State.setLoopRt_kept | apply State.wrI64_kept | exact ⟨rfl, rfl⟩ | apply kept_update
    clear_value s5
  try
    have k_u1 : u1.Kept q_ d_ := by
      dsimp only [u1]
      with_reducible repeat' first
        | assumption | apply kept_ite | split
    clear_value u1
  with_reducible repeat' first
    | assumption | intro _ | apply kept_ite | apply getD_map_kept | apply State.setBit_kept | apply State.inc_kept
    | apply State.event_kept | apply State.followingError_kept | apply State.setLoopRt_kept | apply State.wrI64_kept
    | apply State.setLoopCopy_kept | apply State.wrI_kept | apply State.putRecord_kept | apply State.countSats_kept
    | apply State.emitTorque_kept | dsimp only | split | dsimp +zetaDelta only | exact ⟨rfl, rfl⟩ | apply kept_update

theorem State.followingErrorCmd_kept {q_ : List Instr} {d_ : DevState} {s : State} (h : s.Kept q_ d_) {a : Nat} : (State.followingErrorCmd s a).Kept q_ d_ := by
  unfold State.followingErrorCmd
  try dsimp only
  with_reducible repeat' first
    | assumption | apply kept_ite | apply State.followingError_kept | split

end Sys2Proof.Machine
end

