-- ==== Sys2Proof/Laws/Kept/Ssm.lean ====
section
/-! SUPPORT. The operations of Machine/Ssm.lean keep the canonical form and the queue. -/

namespace Sys2Proof.Machine

set_option tactic.hygienic false
set_option linter.unusedTactic false
set_option linter.unreachableTactic false
set_option linter.unusedVariables false

theorem State.ssmJoints_kept {q_ : List Instr} {d_ : DevState} {s : State} (h : s.Kept q_ d_) {g : Nat} : (State.ssmJoints s g).Kept q_ d_ := by
  unfold State.ssmJoints
  try lift_lets
  intros
  try clear_value axes
  try clear_value ok
  try clear_value miss
  try clear_value m
  try
    have k_s1 : s1.Kept q_ d_ := by
      dsimp only [s1]
      with_reducible repeat' first
        | assumption | intro _ | apply kept_ite | apply forEach_kept | dsimp only | split | dsimp +zetaDelta only
        | exact ⟨rfl, rfl⟩ | apply kept_update
    clear_value s1
  try
    have k_x : x.Kept q_ d_ := by
      dsimp only [x]
      with_reducible repeat' first
        | assumption | dsimp +zetaDelta only
    clear_value x
  try
    have k_s2 : s2.Kept q_ d_ := by
      dsimp only [s2]
      with_reducible repeat' first
        | assumption | exact ⟨rfl, rfl⟩ | apply kept_update
    clear_value s2
  with_reducible repeat' first
    | assumption | intro _ | apply kept_ite | apply forEach_kept | apply getD_map_kept | apply State.inc_kept | dsimp only | split
    | dsimp +zetaDelta only | exact ⟨rfl, rfl⟩ | apply kept_update

theorem State.sourceTick_kept {q_ : List Instr} {d_ : DevState} {s : State} (h : s.Kept q_ d_) {h : Nat} : (State.sourceTick s h).Kept q_ d_ := by
  unfold State.sourceTick
  try lift_lets
  intros
  try clear_value b
  try clear_value n
  try clear_value recs
  try clear_value valid
  try clear_value bad
  try clear_value lim
  try clear_value stale
  try clear_value old
  try clear_value newest
  try clear_value reach
  try clear_value age
  try
    have k_x : x.Kept q_ d_ := by
      dsimp only [x]
      with_reducible repeat' first
        | assumption | intro _ | apply kept_ite | dsimp only | split | exact ⟨rfl, rfl⟩ | apply kept_update
    clear_value x
  try
    have k_x1 : x1.Kept q_ d_ := by
      dsimp only [x1]
      with_reducible repeat' first
        | assumption | apply kept_ite | split | exact ⟨rfl, rfl⟩ | apply kept_update
    clear_value x1
  try
    have k_s1 : s1.Kept q_ d_ := by
      dsimp only [s1]
      with_reducible repeat' first
        | assumption | apply kept_ite | apply State.inc_kept | split
    clear_value s1
  try
    have k_s2 : s2.Kept q_ d_ := by
      dsimp only [s2]
      with_reducible repeat' first
        | assumption | apply kept_ite | apply State.setBit_kept | apply State.inc_kept | apply State.event_kept | split
    clear_value s2
  try
    have k_s3 : s3.Kept q_ d_ := by
      dsimp only [s3]
      with_reducible repeat' first
        | assumption | apply State.wrN_kept
    clear_value s3
  with_reducible repeat' first
    | assumption | intro _ | apply kept_ite | apply State.inc_kept | apply State.setBit_kept | apply State.event_kept
    | apply State.wrN_kept | dsimp only | split | dsimp +zetaDelta only | exact ⟨rfl, rfl⟩ | apply kept_update

theorem State.setViol_kept {q_ : List Instr} {d_ : DevState} {s : State} (h : s.Kept q_ d_) {g : Nat} {v : Bool} {n : Nat} : (State.setViol s g v n).Kept q_ d_ := by
  unfold State.setViol
  try dsimp only
  with_reducible repeat' first
    | assumption | exact ⟨rfl, rfl⟩ | apply kept_update

theorem State.judgeGroup_kept {q_ : List Instr} {d_ : DevState} {s : State} (h : s.Kept q_ d_) {g : Nat} {ps : List Pair} : (State.judgeGroup s g ps).Kept q_ d_ := by
  unfold State.judgeGroup
  try lift_lets
  intros
  try clear_value n
  with_reducible repeat' first
    | assumption | intro _ | apply kept_ite | apply State.setViol_kept | dsimp only | split | dsimp +zetaDelta only

theorem State.setDemand_kept {q_ : List Instr} {d_ : DevState} {s : State} (h : s.Kept q_ d_) {g : Nat} {d : Bool} : (State.setDemand s g d).Kept q_ d_ := by
  unfold State.setDemand
  try lift_lets
  intros
  try
    have k_s1 : s1.Kept q_ d_ := by
      dsimp only [s1]
      with_reducible repeat' first
        | assumption | exact ⟨rfl, rfl⟩ | apply kept_update
    clear_value s1
  with_reducible repeat' first
    | assumption | apply kept_ite | apply State.inc_kept | apply State.event_kept | dsimp only | split | dsimp +zetaDelta only
    | exact ⟨rfl, rfl⟩ | apply kept_update

theorem State.putLimit_kept {q_ : List Instr} {d_ : DevState} {s : State} (h : s.Kept q_ d_) {g : Nat} {ps : List Pair} : (State.putLimit s g ps).Kept q_ d_ := by
  unfold State.putLimit
  try lift_lets
  intros
  try clear_value dem
  try clear_value miss
  try clear_value head
  try clear_value warn
  try clear_value sg
  try clear_value kind
  try clear_value d
  try clear_value cap
  try clear_value oth
  try clear_value b
  try clear_value com
  try clear_value w
  try clear_value va
  try
    have k_s1 : s1.Kept q_ d_ := by
      dsimp only [s1]
      with_reducible repeat' first
        | assumption | apply State.wrN_kept
    clear_value s1
  try
    have k_s2 : s2.Kept q_ d_ := by
      dsimp only [s2]
      with_reducible repeat' first
        | assumption | apply State.wrI_kept
    clear_value s2
  with_reducible repeat' first
    | assumption | intro _ | apply kept_ite | apply State.wrN_kept | apply State.wrI_kept | apply State.setCell_kept
    | apply State.setCellI_kept | dsimp only | split | dsimp +zetaDelta only

theorem State.putCpl_kept {q_ : List Instr} {d_ : DevState} {s : State} (h : s.Kept q_ d_) {caps : List Cap} {r : Nat} : (State.putCpl s caps r).Kept q_ d_ := by
  unfold State.putCpl
  try lift_lets
  intros
  try clear_value b
  try clear_value w
  try clear_value v
  try clear_value n
  try clear_value q
  try clear_value dmin
  try
    have k_st : st.Kept q_ d_ := by
      dsimp only [st]
      with_reducible repeat' first
        | assumption
    clear_value st
  try
    have k_s1 : s1.Kept q_ d_ := by
      dsimp only [s1]
      with_reducible repeat' first
        | assumption | apply State.setCellI_kept
    clear_value s1
  try
    have k_s2 : s2.Kept q_ d_ := by
      dsimp only [s2]
      with_reducible repeat' first
        | assumption | apply State.setCellI_kept
    clear_value s2
  with_reducible repeat' first
    | assumption | intro _ | apply kept_ite | apply State.setCellI_kept | apply State.setCell_kept | apply State.clearCell_kept
    | dsimp only | split | dsimp +zetaDelta only

theorem State.ssmCycles_kept {q_ : List Instr} {d_ : DevState} {s : State} (h : s.Kept q_ d_) : (State.ssmCycles s).Kept q_ d_ := by
  unfold State.ssmCycles
  try lift_lets
  intros
  try clear_value shape
  try clear_value n
  try
    have k_s2 : s2.Kept q_ d_ := by
      dsimp only [s2]
      with_reducible repeat' first
        | assumption | apply State.wrN_kept
    clear_value s2
  with_reducible repeat' first
    | assumption | intro _ | apply State.wrN_kept | dsimp only | dsimp +zetaDelta only

theorem State.codeErr_kept {q_ : List Instr} {d_ : DevState} {s : State} (h : s.Kept q_ d_) {ms : List CodeMismatch} : (State.codeErr s ms).Kept q_ d_ := by
  unfold State.codeErr
  try dsimp only
  with_reducible repeat' first
    | assumption | apply kept_ite | apply State.setBit_kept | apply State.add_kept | apply State.event_kept | split

theorem State.laneTest_kept {q_ : List Instr} {d_ : DevState} {s : State} (h : s.Kept q_ d_) {bad : Bool} : (State.laneTest s bad).Kept q_ d_ := by
  unfold State.laneTest
  try dsimp only
  with_reducible repeat' first
    | assumption | apply kept_ite | split | exact ⟨rfl, rfl⟩ | apply kept_update

theorem State.separationPass_kept {q_ : List Instr} {d_ : DevState} {s : State} (h : s.Kept q_ d_) {ms : List CodeMismatch} : (State.separationPass s ms).Kept q_ d_ := by
  unfold State.separationPass
  try lift_lets
  intros
  try clear_value caps
  try clear_value ex
  try clear_value known
  try clear_value b
  try clear_value hdr
  try
    have k_s1 : s1.Kept q_ d_ := by
      dsimp only [s1]
      with_reducible repeat' first
        | assumption | intro _ | apply kept_ite | apply forEach_kept | apply State.ssmJoints_kept | dsimp only | split
    clear_value s1
  try
    have k_s2 : s2.Kept q_ d_ := by
      dsimp only [s2]
      with_reducible repeat' first
        | assumption | intro _ | apply kept_ite | apply forEach_kept | apply State.sourceTick_kept | dsimp only | split
    clear_value s2
  try
    have k_s3 : s3.Kept q_ d_ := by
      dsimp only [s3]
      with_reducible repeat' first
        | assumption | intro _ | apply kept_ite | apply forUpTo_kept | apply State.judgeGroup_kept | apply State.setDemand_kept
        | apply State.putLimit_kept | apply State.codeErr_kept | dsimp only | split
    clear_value s3
  try
    have k_st1 : st1.Kept q_ d_ := by
      dsimp only [st1]
      with_reducible repeat' first
        | assumption | apply State.judgeGroup_kept
    clear_value st1
  try
    have k_s4 : s4.Kept q_ d_ := by
      dsimp only [s4]
      with_reducible repeat' first
        | assumption | intro _ | apply forUpTo_kept | apply State.putCpl_kept | dsimp only
    clear_value s4
  try
    have k_s5 : s5.Kept q_ d_ := by
      dsimp only [s5]
      with_reducible repeat' first
        | assumption | intro _ | dsimp only | exact ⟨rfl, rfl⟩ | apply kept_update
    clear_value s5
  try
    have k_s6 : s6.Kept q_ d_ := by
      dsimp only [s6]
      with_reducible repeat' first
        | assumption | apply State.setBit_kept | apply State.setFld_kept
    clear_value s6
  with_reducible repeat' first
    | assumption | intro _ | apply kept_ite | apply forUpTo_kept | apply forEach_kept | apply foldl_kept
    | apply State.ssmJoints_kept | apply State.sourceTick_kept | apply State.judgeGroup_kept | apply State.setDemand_kept
    | apply State.putLimit_kept | apply State.codeErr_kept | apply State.putCpl_kept | apply State.setBit_kept
    | apply State.setFld_kept | apply State.setCell_kept | apply State.ssmCycles_kept | dsimp only | split | dsimp +zetaDelta only
    | exact ⟨rfl, rfl⟩ | apply kept_update

theorem State.ssmSelftest_kept {q_ : List Instr} {d_ : DevState} {s : State} (h : s.Kept q_ d_) : (State.ssmSelftest s).Kept q_ d_ := by
  unfold State.ssmSelftest
  try dsimp only
  with_reducible repeat' first
    | assumption | intro _ | dsimp only | exact ⟨rfl, rfl⟩ | apply kept_update

theorem State.restateDemand_kept {q_ : List Instr} {d_ : DevState} {s : State} (h : s.Kept q_ d_) {g : Nat} : (State.restateDemand s g).Kept q_ d_ := by
  unfold State.restateDemand
  try lift_lets
  intros
  try clear_value dem
  try clear_value b
  try
    have k_s1 : s1.Kept q_ d_ := by
      dsimp only [s1]
      with_reducible repeat' first
        | assumption | apply State.setDemand_kept
    clear_value s1
  try
    have k_s2 : s2.Kept q_ d_ := by
      dsimp only [s2]
      with_reducible repeat' first
        | assumption | apply State.setBit_kept
    clear_value s2
  try
    have k_s3 : s3.Kept q_ d_ := by
      dsimp only [s3]
      with_reducible repeat' first
        | assumption | apply kept_ite | apply State.setFld_kept | split
    clear_value s3
  with_reducible repeat' first
    | assumption | apply kept_ite | apply State.setDemand_kept | apply State.setBit_kept | apply State.setFld_kept
    | apply State.setCell_kept | dsimp only | split | dsimp +zetaDelta only

theorem State.jointMissStop_kept {q_ : List Instr} {d_ : DevState} {s : State} (h : s.Kept q_ d_) {g : Nat} : (State.jointMissStop s g).Kept q_ d_ := by
  unfold State.jointMissStop
  try dsimp only
  with_reducible repeat' first
    | assumption | apply kept_ite | apply State.restateDemand_kept | split

theorem State.sourceMissStop_kept {q_ : List Instr} {d_ : DevState} {s : State} (h : s.Kept q_ d_) {h : Nat} : (State.sourceMissStop s h).Kept q_ d_ := by
  unfold State.sourceMissStop
  try dsimp only
  with_reducible repeat' first
    | assumption | intro _ | apply kept_ite | apply forEach_kept | apply State.restateDemand_kept | dsimp only | split

theorem State.stopDemandClear_kept {q_ : List Instr} {d_ : DevState} {s : State} (h : s.Kept q_ d_) {g : Nat} : (State.stopDemandClear s g).Kept q_ d_ := by
  unfold State.stopDemandClear
  try dsimp only
  with_reducible repeat' first
    | assumption | apply kept_ite | apply State.setViol_kept | apply State.restateDemand_kept | split

end Sys2Proof.Machine
end

