-- ==== Sys2Proof/Laws/Kept/SafetyLogic.lean ====
section
/-! SUPPORT. The operations of Machine/SafetyLogic.lean keep the canonical form and the queue. -/

namespace Sys2Proof.Machine

set_option tactic.hygienic false
set_option linter.unusedTactic false
set_option linter.unreachableTactic false
set_option linter.unusedVariables false

theorem State.setSafIn_kept {q_ : List Instr} {d_ : DevState} {s : State} (h : s.Kept q_ d_) {f : Nat} {x : SafIn} : (State.setSafIn s f x).Kept q_ d_ := by
  unfold State.setSafIn
  try dsimp only
  with_reducible repeat' first
    | assumption | intro _ | dsimp only | exact ⟨rfl, rfl⟩ | apply kept_update

theorem State.setSafGroup_kept {q_ : List Instr} {d_ : DevState} {s : State} (h : s.Kept q_ d_) {g : Nat} {x : SafGroup} : (State.setSafGroup s g x).Kept q_ d_ := by
  unfold State.setSafGroup
  try dsimp only
  with_reducible repeat' first
    | assumption | intro _ | dsimp only | exact ⟨rfl, rfl⟩ | apply kept_update

theorem State.latchDisc_kept {q_ : List Instr} {d_ : DevState} {s : State} (h : s.Kept q_ d_) {f : Nat} : (State.latchDisc s f).Kept q_ d_ := by
  unfold State.latchDisc
  try lift_lets
  intros
  try
    have k_x : x.Kept q_ d_ := by
      dsimp only [x]
      with_reducible repeat' first
        | assumption
    clear_value x
  with_reducible repeat' first
    | assumption | apply State.setSafIn_kept | apply State.setBit_kept | apply State.inc_kept | apply State.event_kept
    | dsimp only | dsimp +zetaDelta only | exact ⟨rfl, rfl⟩ | apply kept_update

theorem State.enterDemand_kept {q_ : List Instr} {d_ : DevState} {s : State} (h : s.Kept q_ d_) {f : Nat} : (State.enterDemand s f).Kept q_ d_ := by
  unfold State.enterDemand
  try dsimp only
  with_reducible repeat' first
    | assumption | apply State.setSafIn_kept | exact ⟨rfl, rfl⟩ | apply kept_update

theorem State.leaveDemand_kept {q_ : List Instr} {d_ : DevState} {s : State} (h : s.Kept q_ d_) {f : Nat} : (State.leaveDemand s f).Kept q_ d_ := by
  unfold State.leaveDemand
  try dsimp only
  with_reducible repeat' first
    | assumption | apply State.setSafIn_kept | exact ⟨rfl, rfl⟩ | apply kept_update

theorem State.inputTick_kept {q_ : List Instr} {d_ : DevState} {s : State} (h : s.Kept q_ d_) {f : Nat} : (State.inputTick s f).Kept q_ d_ := by
  unfold State.inputTick
  try lift_lets
  intros
  try clear_value a
  try clear_value b
  try clear_value both
  try
    have k_x : x.Kept q_ d_ := by
      dsimp only [x]
      with_reducible repeat' first
        | assumption
    clear_value x
  try
    have k_s1 : s1.Kept q_ d_ := by
      dsimp only [s1]
      with_reducible repeat' first
        | assumption | intro _ | apply kept_ite | apply getD_map_kept | apply State.setSafIn_kept | split
    clear_value s1
  try
    have k_s2 : s2.Kept q_ d_ := by
      dsimp only [s2]
      with_reducible repeat' first
        | assumption | apply kept_ite | apply State.latchDisc_kept | split
    clear_value s2
  with_reducible repeat' first
    | assumption | intro _ | apply kept_ite | apply getD_map_kept | apply State.setSafIn_kept | apply State.latchDisc_kept
    | apply State.enterDemand_kept | apply State.leaveDemand_kept | dsimp only | split | dsimp +zetaDelta only

theorem State.inputEnter_kept {q_ : List Instr} {d_ : DevState} {s : State} (h : s.Kept q_ d_) {f : Nat} : (State.inputEnter s f).Kept q_ d_ := by
  unfold State.inputEnter
  try dsimp only
  with_reducible repeat' first
    | assumption | apply kept_ite | apply State.enterDemand_kept | split

theorem State.inputLeave_kept {q_ : List Instr} {d_ : DevState} {s : State} (h : s.Kept q_ d_) {f : Nat} : (State.inputLeave s f).Kept q_ d_ := by
  unfold State.inputLeave
  try dsimp only
  with_reducible repeat' first
    | assumption | apply kept_ite | apply State.leaveDemand_kept | split

theorem State.discrepancy_kept {q_ : List Instr} {d_ : DevState} {s : State} (h : s.Kept q_ d_) {f : Nat} : (State.discrepancy s f).Kept q_ d_ := by
  unfold State.discrepancy
  try dsimp only
  with_reducible repeat' first
    | assumption | apply kept_ite | apply State.latchDisc_kept | split

theorem State.enterGroup_kept {q_ : List Instr} {d_ : DevState} {s : State} (h : s.Kept q_ d_) {g : Nat} {st : Nat} : (State.enterGroup s g st).Kept q_ d_ := by
  unfold State.enterGroup
  try lift_lets
  intros
  try clear_value ax
  try
    have k_x : x.Kept q_ d_ := by
      dsimp only [x]
      with_reducible repeat' first
        | assumption
    clear_value x
  try
    have k_s1 : s1.Kept q_ d_ := by
      dsimp only [s1]
      with_reducible repeat' first
        | assumption | apply State.setFld_kept
    clear_value s1
  try
    have k_x1 : x1.Kept q_ d_ := by
      dsimp only [x1]
      with_reducible repeat' first
        | assumption | intro _ | apply kept_ite | dsimp only | split | exact ⟨rfl, rfl⟩ | apply kept_update
    clear_value x1
  try
    have k_s2 : s2.Kept q_ d_ := by
      dsimp only [s2]
      with_reducible repeat' first
        | assumption | apply State.setSafGroup_kept
    clear_value s2
  with_reducible repeat' first
    | assumption | intro _ | apply kept_ite | apply State.setFld_kept | apply State.setSafGroup_kept | apply State.inc_kept
    | apply State.event_kept | dsimp only | split | dsimp +zetaDelta only | exact ⟨rfl, rfl⟩ | apply kept_update

theorem State.rampJoins_kept {q_ : List Instr} {d_ : DevState} {s : State} (h : s.Kept q_ d_) {g : Nat} : (State.rampJoins s g).Kept q_ d_ := by
  unfold State.rampJoins
  try dsimp only
  with_reducible repeat' first
    | assumption | apply kept_ite | apply State.setSafGroup_kept | split | exact ⟨rfl, rfl⟩ | apply kept_update

theorem State.passGroup_kept {q_ : List Instr} {d_ : DevState} {s : State} (h : s.Kept q_ d_) {g : Nat} : (State.passGroup s g).1.Kept q_ d_ := by
  unfold State.passGroup
  try lift_lets
  intros
  try clear_value n
  try
    have k_st : st.Kept q_ d_ := by
      dsimp only [st]
      with_reducible repeat' first
        | assumption
    clear_value st
  try
    have k_s1 : s1.Kept q_ d_ := by
      dsimp only [s1]
      with_reducible repeat' first
        | assumption | apply State.setSafGroup_kept | exact ⟨rfl, rfl⟩ | apply kept_update
    clear_value s1
  with_reducible repeat' first
    | assumption | apply kept_ite | apply State.setSafGroup_kept | apply State.enterGroup_kept | apply State.rampJoins_kept
    | dsimp only | split | dsimp +zetaDelta only | exact ⟨rfl, rfl⟩ | apply kept_update

theorem State.relRefused_kept {q_ : List Instr} {d_ : DevState} {s : State} (h : s.Kept q_ d_) {g : Nat} {r : Nat} : (State.relRefused s g r).Kept q_ d_ := by
  unfold State.relRefused
  try dsimp only
  with_reducible repeat' first
    | assumption | apply State.setBit_kept | apply State.setFld_kept | apply State.inc_kept | apply State.event_kept

theorem State.releaseGroup_kept {q_ : List Instr} {d_ : DevState} {s : State} (h : s.Kept q_ d_) {g : Nat} {p : Nat} {latched : Nat} : (State.releaseGroup s g p latched).Kept q_ d_ := by
  unfold State.releaseGroup
  try lift_lets
  intros
  try clear_value req
  try clear_value r
  try
    have k_st : st.Kept q_ d_ := by
      dsimp only [st]
      with_reducible repeat' first
        | assumption
    clear_value st
  with_reducible repeat' first
    | assumption | apply kept_ite | apply State.relRefused_kept | apply State.setSafGroup_kept | apply State.setFld_kept
    | dsimp only | split | dsimp +zetaDelta only | exact ⟨rfl, rfl⟩ | apply kept_update

theorem State.putVerdict_kept {q_ : List Instr} {d_ : DevState} {s : State} (h : s.Kept q_ d_) {g : Nat} {p : Nat} {latched : Nat} : (State.putVerdict s g p latched).Kept q_ d_ := by
  unfold State.putVerdict
  try lift_lets
  intros
  try clear_value start
  try clear_value all
  try clear_value relWait
  try clear_value w
  try
    have k_st : st.Kept q_ d_ := by
      dsimp only [st]
      with_reducible repeat' first
        | assumption
    clear_value st
  with_reducible repeat' first
    | assumption | apply State.wrN_kept | apply State.setFld_kept | apply State.setCell_kept | dsimp only | dsimp +zetaDelta only

theorem State.putChecked_kept {q_ : List Instr} {d_ : DevState} {s : State} (h : s.Kept q_ d_) {g : Nat} {a : Nat} : (State.putChecked s g a).Kept q_ d_ := by
  unfold State.putChecked
  try lift_lets
  intros
  try clear_value b
  try clear_value w0
  try clear_value v
  try clear_value w3
  try
    have k_st : st.Kept q_ d_ := by
      dsimp only [st]
      with_reducible repeat' first
        | assumption
    clear_value st
  try
    have k_x : x.Kept q_ d_ := by
      dsimp only [x]
      with_reducible repeat' first
        | assumption | dsimp +zetaDelta only
    clear_value x
  with_reducible repeat' first
    | assumption | apply kept_ite | apply State.setCell_kept | apply State.setCellI_kept | dsimp only | split
    | dsimp +zetaDelta only

theorem State.groupCheck_kept {q_ : List Instr} {d_ : DevState} {s : State} (h : s.Kept q_ d_) {old : State} {g : Nat} : (State.groupCheck s old g).Kept q_ d_ := by
  unfold State.groupCheck
  try lift_lets
  intros
  try clear_value p
  try clear_value before
  try clear_value latched0
  try clear_value latched
  try clear_value autoSet
  try clear_value act
  try clear_value want
  try clear_value more
  try clear_value p'
  try clear_value latched'
  try
    have k_x : x.Kept q_ d_ := by
      dsimp only [x]
      with_reducible repeat' first
        | assumption
    clear_value x
  try
    have k_s1 : s1.Kept q_ d_ := by
      dsimp only [s1]
      with_reducible repeat' first
        | assumption | apply State.setSafGroup_kept | exact ⟨rfl, rfl⟩ | apply kept_update
    clear_value s1
  try
    have k_st : st.Kept q_ d_ := by
      dsimp only [st]
      with_reducible repeat' first
        | assumption
    clear_value st
  try
    have k_s2 : s2.Kept q_ d_ := by
      dsimp only [s2]
      with_reducible repeat' first
        | assumption | apply kept_ite | apply State.enterGroup_kept | split
    clear_value s2
  try
    have k_s3 : s3.Kept q_ d_ := by
      dsimp only [s3]
      with_reducible repeat' first
        | assumption | apply State.passGroup_kept | dsimp +zetaDelta only
    clear_value s3
  try
    have k_s5 : s5.Kept q_ d_ := by
      dsimp only [s5]
      with_reducible repeat' first
        | assumption | apply State.releaseGroup_kept | apply State.putVerdict_kept
    clear_value s5
  with_reducible repeat' first
    | assumption | intro _ | apply kept_ite | apply forEach_kept | apply State.setSafGroup_kept | apply State.enterGroup_kept
    | apply State.passGroup_kept | apply State.releaseGroup_kept | apply State.putVerdict_kept | apply State.putChecked_kept
    | dsimp only | split | dsimp +zetaDelta only | exact ⟨rfl, rfl⟩ | apply kept_update

theorem State.looseChecked_kept {q_ : List Instr} {d_ : DevState} {s : State} (h : s.Kept q_ d_) {a : Nat} : (State.looseChecked s a).Kept q_ d_ := by
  unfold State.looseChecked
  try lift_lets
  intros
  try clear_value b
  with_reducible repeat' first
    | assumption | apply State.setCell_kept | apply State.setCellI_kept | dsimp only | dsimp +zetaDelta only

theorem State.putOutputs_kept {q_ : List Instr} {d_ : DevState} {s : State} (h : s.Kept q_ d_) : (State.putOutputs s).Kept q_ d_ := by
  unfold State.putOutputs
  try lift_lets
  intros
  try clear_value safe
  try clear_value cmd
  with_reducible repeat' first
    | assumption | apply State.setCell_kept | dsimp only | dsimp +zetaDelta only

theorem State.putSafeOut_kept {q_ : List Instr} {d_ : DevState} {s : State} (h : s.Kept q_ d_) {p : Nat} {n : Nat} : (State.putSafeOut s p n).Kept q_ d_ := by
  unfold State.putSafeOut
  try lift_lets
  intros
  try clear_value w0
  try clear_value sa
  try clear_value codes
  try clear_value body
  try clear_value b
  try clear_value crc
  with_reducible repeat' first
    | assumption | intro _ | apply kept_ite | apply forEach_kept | apply foldl_kept | apply State.setCell_kept | dsimp only
    | split | dsimp +zetaDelta only

theorem State.putSafeOuts_kept {q_ : List Instr} {d_ : DevState} {s : State} (h : s.Kept q_ d_) : (State.putSafeOuts s).Kept q_ d_ := by
  unfold State.putSafeOuts
  try lift_lets
  intros
  try
    have k_s1 : s1.Kept q_ d_ := by
      dsimp only [s1]
      with_reducible repeat' first
        | assumption | exact ⟨rfl, rfl⟩ | apply kept_update
    clear_value s1
  with_reducible repeat' first
    | assumption | intro _ | apply kept_ite | apply forUpTo_kept | apply State.putSafeOut_kept | dsimp only | split
    | dsimp +zetaDelta only | exact ⟨rfl, rfl⟩ | apply kept_update

theorem State.safAck_kept {q_ : List Instr} {d_ : DevState} {s : State} (h : s.Kept q_ d_) {m : Nat} : (State.safAck s m).Kept q_ d_ := by
  unfold State.safAck
  try dsimp only
  with_reducible repeat' first
    | assumption | apply kept_ite | apply State.setBit_kept | apply State.inc_kept | apply State.event_kept | split
    | exact ⟨rfl, rfl⟩ | apply kept_update

theorem State.safRel_kept {q_ : List Instr} {d_ : DevState} {s : State} (h : s.Kept q_ d_) {m : Nat} : (State.safRel s m).Kept q_ d_ := by
  unfold State.safRel
  try dsimp only
  with_reducible repeat' first
    | assumption | exact ⟨rfl, rfl⟩ | apply kept_update

theorem State.cutSafety_kept {q_ : List Instr} {d_ : DevState} {s : State} (h : s.Kept q_ d_) : (State.cutSafety s).Kept q_ d_ := by
  unfold State.cutSafety
  try dsimp only
  with_reducible repeat' first
    | assumption | exact ⟨rfl, rfl⟩ | apply kept_update

theorem State.standstillReached_kept {q_ : List Instr} {d_ : DevState} {s : State} (h : s.Kept q_ d_) {g : Nat} : (State.standstillReached s g).Kept q_ d_ := by
  unfold State.standstillReached
  try lift_lets
  intros
  try
    have k_st : st.Kept q_ d_ := by
      dsimp only [st]
      with_reducible repeat' first
        | assumption
    clear_value st
  with_reducible repeat' first
    | assumption | apply kept_ite | apply State.enterGroup_kept | dsimp only | split | dsimp +zetaDelta only

theorem State.tMaxExpiry_kept {q_ : List Instr} {d_ : DevState} {s : State} (h : s.Kept q_ d_) {g : Nat} : (State.tMaxExpiry s g).Kept q_ d_ := by
  unfold State.tMaxExpiry
  try lift_lets
  intros
  try
    have k_st : st.Kept q_ d_ := by
      dsimp only [st]
      with_reducible repeat' first
        | assumption
    clear_value st
  with_reducible repeat' first
    | assumption | apply kept_ite | apply State.enterGroup_kept | apply State.rampJoins_kept | apply State.setBit_kept
    | dsimp only | split | dsimp +zetaDelta only

theorem State.startAll_kept {q_ : List Instr} {d_ : DevState} {s : State} (h : s.Kept q_ d_) : (State.startAll s).Kept q_ d_ := by
  unfold State.startAll
  try dsimp only
  with_reducible repeat' first
    | assumption | intro _ | apply forUpTo_kept | apply State.setSafGroup_kept | dsimp only | exact ⟨rfl, rfl⟩ | apply kept_update

theorem State.safSelftest_kept {q_ : List Instr} {d_ : DevState} {s : State} (h : s.Kept q_ d_) : (State.safSelftest s).Kept q_ d_ := by
  unfold State.safSelftest
  try lift_lets
  intros
  try
    have k_s1 : s1.Kept q_ d_ := by
      dsimp only [s1]
      with_reducible repeat' first
        | assumption | exact ⟨rfl, rfl⟩ | apply kept_update
    clear_value s1
  with_reducible repeat' first
    | assumption | intro _ | apply forUpTo_kept | apply State.wrN_kept | dsimp only | dsimp +zetaDelta only | exact ⟨rfl, rfl⟩
    | apply kept_update

end Sys2Proof.Machine
end

