-- ==== Sys2Proof/Laws/Kept/FieldOut.lean ====
section
/-! SUPPORT. The operations of Machine/FieldOut.lean keep the canonical form and the queue. -/

namespace Sys2Proof.Machine

set_option tactic.hygienic false
set_option linter.unusedTactic false
set_option linter.unreachableTactic false
set_option linter.unusedVariables false

theorem State.refreshDq_kept {q_ : List Instr} {d_ : DevState} {s : State} (h : s.Kept q_ d_) : (State.refreshDq s).Kept q_ d_ := by
  unfold State.refreshDq
  try lift_lets
  intros
  try clear_value on
  try clear_value gated
  try clear_value off
  try clear_value times
  with_reducible repeat' first
    | assumption | intro _ | apply State.setFld_kept | dsimp only | dsimp +zetaDelta only | exact ⟨rfl, rfl⟩ | apply kept_update

end Sys2Proof.Machine
end

