-- ==== Sys2Proof/Laws/Kept/Flint.lean ====
section
/-! SUPPORT. The operations of Machine/Flint.lean keep the canonical form and the queue. -/

namespace Sys2Proof.Machine

set_option tactic.hygienic false
set_option linter.unusedTactic false
set_option linter.unreachableTactic false
set_option linter.unusedVariables false

theorem State.slatePower_kept {q_ : List Instr} {d_ : DevState} {s : State} (h : s.Kept q_ d_) : (State.slatePower s).Kept q_ d_ := by
  unfold State.slatePower
  try lift_lets
  intros
  try
    have k_x : x.Kept q_ d_ := by
      dsimp only [x]
      with_reducible repeat' first
        | assumption
    clear_value x
  try
    have k_s1 : s1.Kept q_ d_ := by
      dsimp only [s1]
      with_reducible repeat' first
        | assumption | apply State.setBit_kept | apply State.setDomain_kept
    clear_value s1
  with_reducible repeat' first
    | assumption | apply kept_ite | apply State.setBit_kept | apply State.setDomain_kept | dsimp only | split
    | dsimp +zetaDelta only | exact ⟨rfl, rfl⟩ | apply kept_update

theorem State.unlatch_kept {q_ : List Instr} {d_ : DevState} {s : State} (h : s.Kept q_ d_) : (State.unlatch s).Kept q_ d_ := by
  unfold State.unlatch
  try dsimp only
  with_reducible repeat' first
    | assumption | apply kept_ite | split | exact ⟨rfl, rfl⟩ | apply kept_update

theorem State.refreshSaf_kept {q_ : List Instr} {d_ : DevState} {s : State} (h : s.Kept q_ d_) : (State.refreshSaf s).Kept q_ d_ := by
  unfold State.refreshSaf
  try lift_lets
  intros
  try
    have k_s1 : s1.Kept q_ d_ := by
      dsimp only [s1]
      with_reducible repeat' first
        | assumption | apply State.unlatch_kept | apply State.slatePower_kept
    clear_value s1
  with_reducible repeat' first
    | assumption | apply State.unlatch_kept | apply State.slatePower_kept | apply State.setBit_kept | dsimp only
    | dsimp +zetaDelta only

theorem State.withdraw_kept {q_ : List Instr} {d_ : DevState} {s : State} (h : s.Kept q_ d_) {d : DevState} : (s.withdraw d).Kept q_ d_ :=
  ⟨⟨h.regs, h.cell, h.dram, h.flash, h.code, h.data⟩, h.queue, h.dev, fun _ hx => h.legal _ (List.mem_filter.1 hx).1⟩

theorem State.detect_kept {q_ : List Instr} {d_ : DevState} {s : State} (h : s.Kept q_ d_) {c : Nat} : (State.detect s c).Kept q_ d_ := by
  unfold State.detect
  try lift_lets
  intros
  try
    have k_t1 : t1.Kept q_ d_ := by
      dsimp only [t1]
      with_reducible repeat' first
        | assumption | apply State.setBit_kept
    clear_value t1
  try
    have k_t : t.Kept q_ d_ := by
      dsimp only [t]
      with_reducible repeat' first
        | assumption
    clear_value t
  with_reducible repeat' first
    | assumption | intro _ | apply State.setBit_kept | apply State.trigger_kept | apply State.withdraw_kept | dsimp only | split
    | dsimp +zetaDelta only | exact ⟨rfl, rfl⟩ | apply kept_update

theorem State.returnCheck_kept {q_ : List Instr} {d_ : DevState} {s : State} (h : s.Kept q_ d_) : (State.returnCheck s).Kept q_ d_ := by
  unfold State.returnCheck
  try dsimp only
  with_reducible repeat' first
    | assumption | apply kept_ite | apply State.trigger_kept | split

theorem State.clearClass_kept {q_ : List Instr} {d_ : DevState} {s : State} (h : s.Kept q_ d_) {c : Nat} : (State.clearClass s c).Kept q_ d_ := by
  unfold State.clearClass
  try dsimp only
  with_reducible repeat' first
    | assumption | apply State.setBit_kept | apply State.returnCheck_kept | apply State.refreshSaf_kept

theorem State.degradeFaultClear_kept {q_ : List Instr} {d_ : DevState} {s : State} (h : s.Kept q_ d_) {c : Nat} : (State.degradeFaultClear s c).Kept q_ d_ := by
  unfold State.degradeFaultClear
  try dsimp only
  with_reducible repeat' first
    | assumption | apply kept_ite | apply State.clearClass_kept | split

theorem State.periodicSelftest_kept {q_ : List Instr} {d_ : DevState} {s : State} (h : s.Kept q_ d_) {test : Nat} {pass : Bool} :
    (State.periodicSelftest s test pass).Kept q_ d_ := by
  unfold State.periodicSelftest
  split
  · exact h
  · generalize withBits s.saf.stFail test test (b2n (!pass)) = m
    dsimp only
    split
    · exact State.refreshSaf_kept (State.detect_kept (kept_update h ⟨rfl, rfl⟩))
    · split
      · exact State.clearClass_kept (kept_update h ⟨rfl, rfl⟩)
      · exact kept_update h ⟨rfl, rfl⟩

theorem State.degradeMaxExpiry_kept {q_ : List Instr} {d_ : DevState} {s : State} (h : s.Kept q_ d_) : (State.degradeMaxExpiry s).Kept q_ d_ := by
  unfold State.degradeMaxExpiry
  try dsimp only
  with_reducible repeat' first
    | assumption | apply kept_ite | apply State.setFld_kept | apply State.stopCause_kept | split

theorem State.enterDegraded_kept {q_ : List Instr} {d_ : DevState} {s : State} (h : s.Kept q_ d_) : (State.enterDegraded s).Kept q_ d_ := by
  unfold State.enterDegraded
  try lift_lets
  intros
  try
    have k_s1 : s1.Kept q_ d_ := by
      dsimp only [s1]
      with_reducible repeat' first
        | assumption | apply State.inc_kept | apply State.setFld_kept | apply State.event_kept
    clear_value s1
  with_reducible repeat' first
    | assumption | apply State.inc_kept | apply State.setFld_kept | apply State.event_kept | apply State.refreshSaf_kept
    | dsimp only | dsimp +zetaDelta only | exact ⟨rfl, rfl⟩ | apply kept_update

theorem State.degradeTick_kept {q_ : List Instr} {d_ : DevState} {s : State} (h : s.Kept q_ d_) : (State.degradeTick s).Kept q_ d_ := by
  unfold State.degradeTick
  try lift_lets
  intros
  try clear_value rest
  try
    have k_s1 : s1.Kept q_ d_ := by
      dsimp only [s1]
      with_reducible repeat' first
        | assumption | apply kept_ite | apply State.detect_kept | split
    clear_value s1
  try
    have k_s2 : s2.Kept q_ d_ := by
      dsimp only [s2]
      with_reducible repeat' first
        | assumption | intro _ | apply kept_ite | dsimp only | split | exact ⟨rfl, rfl⟩ | apply kept_update
    clear_value s2
  try
    have k_s3 : s3.Kept q_ d_ := by
      dsimp only [s3]
      with_reducible repeat' first
        | assumption | apply kept_ite | apply State.detect_kept | split
    clear_value s3
  try
    have k_s4 : s4.Kept q_ d_ := by
      dsimp only [s4]
      with_reducible repeat' first
        | assumption | apply kept_ite | apply State.detect_kept | split
    clear_value s4
  try
    have k_s5 : s5.Kept q_ d_ := by
      dsimp only [s5]
      with_reducible repeat' first
        | assumption | apply kept_ite | apply State.setFld_kept | split
    clear_value s5
  with_reducible repeat' first
    | assumption | intro _ | apply kept_ite | apply State.detect_kept | apply State.setFld_kept | apply State.returnCheck_kept
    | apply State.refreshSaf_kept | dsimp only | split | dsimp +zetaDelta only | exact ⟨rfl, rfl⟩ | apply kept_update

theorem State.slateStart_kept {q_ : List Instr} {d_ : DevState} {s : State} (h : s.Kept q_ d_) : (State.slateStart s).Kept q_ d_ := by
  unfold State.slateStart
  try dsimp only
  with_reducible repeat' first
    | assumption | apply kept_ite | split | exact ⟨rfl, rfl⟩ | apply kept_update

theorem State.disagreement_kept {q_ : List Instr} {d_ : DevState} {s : State} (h : s.Kept q_ d_) : (State.disagreement s).Kept q_ d_ := by
  unfold State.disagreement
  try lift_lets
  intros
  try
    have k_s1 : s1.Kept q_ d_ := by
      dsimp only [s1]
      with_reducible repeat' first
        | assumption | apply State.setBit_kept | apply State.inc_kept | apply State.event_kept
    clear_value s1
  try
    have k_s2 : s2.Kept q_ d_ := by
      dsimp only [s2]
      with_reducible repeat' first
        | assumption | exact ⟨rfl, rfl⟩ | apply kept_update
    clear_value s2
  with_reducible repeat' first
    | assumption | apply State.setBit_kept | apply State.inc_kept | apply State.event_kept | apply State.refreshSaf_kept
    | apply State.stopCause_kept | dsimp only | split | dsimp +zetaDelta only | exact ⟨rfl, rfl⟩ | apply kept_update

theorem State.slateResult_kept {q_ : List Instr} {d_ : DevState} {s : State} (h : s.Kept q_ d_) {tick : Nat} {agree : Bool} : (State.slateResult s tick agree).Kept q_ d_ := by
  unfold State.slateResult
  try lift_lets
  intros
  try
    have k_s1 : s1.Kept q_ d_ := by
      dsimp only [s1]
      with_reducible repeat' first
        | assumption | intro _ | dsimp only | exact ⟨rfl, rfl⟩ | apply kept_update
    clear_value s1
  with_reducible repeat' first
    | assumption | intro _ | apply kept_ite | apply State.safetyFound_kept | apply State.disagreement_kept | dsimp only | split
    | dsimp +zetaDelta only | exact ⟨rfl, rfl⟩ | apply kept_update

theorem State.slateCleaned_kept {q_ : List Instr} {d_ : DevState} {s : State} (h : s.Kept q_ d_) : (State.slateCleaned s).Kept q_ d_ := by
  unfold State.slateCleaned
  try dsimp only
  with_reducible repeat' first
    | assumption | apply kept_ite | apply State.returnCheck_kept | apply State.refreshSaf_kept | split | exact ⟨rfl, rfl⟩
    | apply kept_update

theorem State.compareRecord_kept {q_ : List Instr} {d_ : DevState} {s : State} (h : s.Kept q_ d_) : (State.compareRecord s).Kept q_ d_ := by
  unfold State.compareRecord
  try lift_lets
  intros
  try clear_value r
  with_reducible repeat' first
    | assumption | apply kept_ite | dsimp only | split | dsimp +zetaDelta only | exact ⟨rfl, rfl⟩ | apply kept_update

theorem State.flintState_kept {q_ : List Instr} {d_ : DevState} {s : State} (h : s.Kept q_ d_) {st : Nat} {cause : Nat} : (State.flintState s st cause).Kept q_ d_ := by
  unfold State.flintState
  try dsimp only
  with_reducible repeat' first
    | assumption | apply kept_ite | apply State.setFld_kept | apply State.wrN_kept | apply State.refreshDq_kept | split

theorem State.refreshGates_kept {q_ : List Instr} {d_ : DevState} {s : State} (h : s.Kept q_ d_) : (State.refreshGates s).Kept q_ d_ := by
  unfold State.refreshGates
  try dsimp only
  with_reducible repeat' first
    | assumption | apply kept_ite | apply State.wrN_kept | apply State.refreshDq_kept | split

theorem State.setFlint_kept {q_ : List Instr} {d_ : DevState} {s : State} (h : s.Kept q_ d_) {x : Flint} : (State.setFlint s x).Kept q_ d_ := by
  unfold State.setFlint
  try dsimp only
  with_reducible repeat' first
    | assumption | exact ⟨rfl, rfl⟩ | apply kept_update

theorem State.flintTrip_kept {q_ : List Instr} {d_ : DevState} {s : State} (h : s.Kept q_ d_) {cause : Nat} : (State.flintTrip s cause).Kept q_ d_ := by
  unfold State.flintTrip
  try lift_lets
  intros
  try
    have k_s1 : s1.Kept q_ d_ := by
      dsimp only [s1]
      with_reducible repeat' first
        | assumption | apply State.setFlint_kept | exact ⟨rfl, rfl⟩ | apply kept_update
    clear_value s1
  with_reducible repeat' first
    | assumption | apply kept_ite | apply State.setFlint_kept | apply State.flintState_kept | apply State.inc_kept
    | apply State.event_kept | apply State.refreshSaf_kept | dsimp only | split | dsimp +zetaDelta only | exact ⟨rfl, rfl⟩
    | apply kept_update

theorem State.fltCmd_kept {q_ : List Instr} {d_ : DevState} {s : State} (h : s.Kept q_ d_) {ag : Agent} {f : State → State} (hf : ∀  (t : State), t.Kept q_ d_ → (f  t).Kept q_ d_) : (State.fltCmd s ag f).Kept q_ d_ := by
  unfold State.fltCmd
  try dsimp only
  with_reducible repeat' first
    | assumption | apply kept_ite | apply hf | apply State.swWrite_kept | apply State.inc_kept | apply State.refuseAccess_kept
    | apply State.event_kept | split

theorem State.testTrip_kept {q_ : List Instr} {d_ : DevState} {s : State} (h : s.Kept q_ d_) {opened : Bool} : (State.testTrip s opened).Kept q_ d_ := by
  unfold State.testTrip
  try dsimp only
  with_reducible repeat' first
    | assumption | apply kept_ite | apply State.setFlint_kept | apply State.flintState_kept | apply State.setBit_kept
    | apply State.refreshSaf_kept | split | exact ⟨rfl, rfl⟩ | apply kept_update

theorem State.flintArm_kept {q_ : List Instr} {d_ : DevState} {s : State} (h : s.Kept q_ d_) {seed : Nat} : (State.flintArm s seed).Kept q_ d_ := by
  unfold State.flintArm
  try dsimp only
  with_reducible repeat' first
    | assumption | apply kept_ite | apply State.inc_kept | apply State.event_kept | apply State.setFlint_kept
    | apply State.setBit_kept | split | exact ⟨rfl, rfl⟩ | apply kept_update

theorem State.hbValid_kept {q_ : List Instr} {d_ : DevState} {s : State} (h : s.Kept q_ d_) {word : Word} : (State.hbValid s word).Kept q_ d_ := by
  unfold State.hbValid
  try dsimp only
  with_reducible repeat' first
    | assumption | apply State.inc_kept | apply State.setFld_kept

theorem State.hbBad_kept {q_ : List Instr} {d_ : DevState} {s : State} (h : s.Kept q_ d_) : (State.hbBad s).Kept q_ d_ := by
  unfold State.hbBad
  try dsimp only
  with_reducible repeat' first
    | assumption | apply State.inc_kept | apply State.event_kept

theorem State.flintHeartbeat_kept {q_ : List Instr} {d_ : DevState} {s : State} (h : s.Kept q_ d_) {word : Word} {cycles : Nat} : (State.flintHeartbeat s word cycles).Kept q_ d_ := by
  unfold State.flintHeartbeat
  try lift_lets
  intros
  try clear_value f
  try
    have k_s0 : s0.Kept q_ d_ := by
      dsimp only [s0]
      with_reducible repeat' first
        | assumption | apply State.setFlint_kept | exact ⟨rfl, rfl⟩ | apply kept_update
    clear_value s0
  with_reducible repeat' first
    | assumption | apply kept_ite | apply State.setFlint_kept | apply State.hbValid_kept | apply State.flintState_kept
    | apply State.refreshSaf_kept | apply State.hbBad_kept | apply State.flintTrip_kept | apply State.wrN_kept | dsimp only
    | split | dsimp +zetaDelta only | exact ⟨rfl, rfl⟩ | apply kept_update

theorem State.flintRearm_kept {q_ : List Instr} {d_ : DevState} {s : State} (h : s.Kept q_ d_) : (State.flintRearm s).Kept q_ d_ := by
  unfold State.flintRearm
  try dsimp only
  with_reducible repeat' first
    | assumption | apply kept_ite | apply State.flintState_kept | apply State.refreshSaf_kept | split

theorem State.flintTimeout_kept {q_ : List Instr} {d_ : DevState} {s : State} (h : s.Kept q_ d_) : (State.flintTimeout s).Kept q_ d_ := by
  unfold State.flintTimeout
  try dsimp only
  with_reducible repeat' first
    | assumption | apply State.flintTrip_kept | apply State.setFlint_kept | split | exact ⟨rfl, rfl⟩ | apply kept_update

theorem State.sendHeartbeat_kept {q_ : List Instr} {d_ : DevState} {s : State} (h : s.Kept q_ d_) : (State.sendHeartbeat s).Kept q_ d_ := by
  unfold State.sendHeartbeat
  try lift_lets
  intros
  try
    have k_t : t.Kept q_ d_ := by
      dsimp only [t]
      with_reducible repeat' first
        | assumption
    clear_value t
  with_reducible repeat' first
    | assumption | apply State.setFlint_kept | dsimp only | dsimp +zetaDelta only | exact ⟨rfl, rfl⟩ | apply kept_update

theorem State.flintSelftest_kept {q_ : List Instr} {d_ : DevState} {s : State} (h : s.Kept q_ d_) : (State.flintSelftest s).Kept q_ d_ := by
  unfold State.flintSelftest
  try lift_lets
  intros
  try
    have k_s1 : s1.Kept q_ d_ := by
      dsimp only [s1]
      with_reducible repeat' first
        | assumption | apply kept_ite | apply State.flintState_kept | split
    clear_value s1
  try
    have k_s2 : s2.Kept q_ d_ := by
      dsimp only [s2]
      with_reducible repeat' first
        | assumption | apply State.setFld_kept
    clear_value s2
  with_reducible repeat' first
    | assumption | apply kept_ite | apply State.flintState_kept | apply State.setFld_kept | dsimp only | split
    | dsimp +zetaDelta only | exact ⟨rfl, rfl⟩ | apply kept_update

theorem State.ptEnter_kept {q_ : List Instr} {d_ : DevState} {s : State} (h : s.Kept q_ d_) {k : Nat} : (State.ptEnter s k).Kept q_ d_ := by
  unfold State.ptEnter
  try lift_lets
  intros
  try
    have k_s1 : s1.Kept q_ d_ := by
      dsimp only [s1]
      with_reducible repeat' first
        | assumption | apply State.setFld_kept
    clear_value s1
  with_reducible repeat' first
    | assumption | apply State.setFld_kept | dsimp only | dsimp +zetaDelta only | exact ⟨rfl, rfl⟩ | apply kept_update

theorem State.setPulse_kept {q_ : List Instr} {d_ : DevState} {s : State} (h : s.Kept q_ d_) {m : Nat} : (State.setPulse s m).Kept q_ d_ := by
  unfold State.setPulse
  try dsimp only
  with_reducible repeat' first
    | assumption | apply State.refreshDq_kept | exact ⟨rfl, rfl⟩ | apply kept_update

theorem State.ptStart_kept {q_ : List Instr} {d_ : DevState} {s : State} (h : s.Kept q_ d_) : (State.ptStart s).Kept q_ d_ := by
  unfold State.ptStart
  try dsimp only
  with_reducible repeat' first
    | assumption | apply kept_ite | apply State.setBit_kept | apply State.setFld_kept | apply State.ptEnter_kept
    | apply State.refreshSaf_kept | split

theorem State.ptFail_kept {q_ : List Instr} {d_ : DevState} {s : State} (h : s.Kept q_ d_) {k : Nat} : (State.ptFail s k).Kept q_ d_ := by
  unfold State.ptFail
  try lift_lets
  intros
  try
    have k_s1 : s1.Kept q_ d_ := by
      dsimp only [s1]
      with_reducible repeat' first
        | assumption | apply State.setBit_kept | apply State.event_kept | apply State.setPulse_kept
    clear_value s1
  with_reducible repeat' first
    | assumption | apply State.setBit_kept | apply State.event_kept | apply State.setPulse_kept | apply State.setFld_kept
    | apply State.refreshSaf_kept | dsimp only | dsimp +zetaDelta only

theorem State.ptPass_kept {q_ : List Instr} {d_ : DevState} {s : State} (h : s.Kept q_ d_) : (State.ptPass s).Kept q_ d_ := by
  unfold State.ptPass
  try lift_lets
  intros
  try
    have k_s1 : s1.Kept q_ d_ := by
      dsimp only [s1]
      with_reducible repeat' first
        | assumption | apply State.setBit_kept | apply State.event_kept
    clear_value s1
  try
    have k_s2 : s2.Kept q_ d_ := by
      dsimp only [s2]
      with_reducible repeat' first
        | assumption | apply State.setBit_kept | apply wr_kept | apply State.inc_kept
    clear_value s2
  try
    have k_s3 : s3.Kept q_ d_ := by
      dsimp only [s3]
      with_reducible repeat' first
        | assumption | apply State.setFld_kept
    clear_value s3
  with_reducible repeat' first
    | assumption | apply State.setBit_kept | apply State.event_kept | apply wr_kept | apply State.inc_kept
    | apply State.setFld_kept | apply State.refreshSaf_kept | dsimp only | dsimp +zetaDelta only | exact ⟨rfl, rfl⟩
    | apply kept_update

theorem State.ptEnd_kept {q_ : List Instr} {d_ : DevState} {s : State} (h : s.Kept q_ d_) {failed : Option Nat} : (State.ptEnd s failed).Kept q_ d_ := by
  unfold State.ptEnd
  try dsimp only
  with_reducible repeat' first
    | assumption | apply kept_ite | apply State.ptFail_kept | apply State.ptPass_kept | split

theorem State.ptHours_kept {q_ : List Instr} {d_ : DevState} {s : State} (h : s.Kept q_ d_) {h : Nat} : (State.ptHours s h).Kept q_ d_ := by
  unfold State.ptHours
  try dsimp only
  with_reducible repeat' first
    | assumption | apply State.wrN_kept

theorem State.ptDue_kept {q_ : List Instr} {d_ : DevState} {s : State} (h : s.Kept q_ d_) : (State.ptDue s).Kept q_ d_ := by
  unfold State.ptDue
  try dsimp only
  with_reducible repeat' first
    | assumption | apply kept_ite | apply State.ptHours_kept | apply State.setBit_kept | apply State.alarm_kept
    | apply State.refreshSaf_kept | split

theorem State.ptGraceExpiry_kept {q_ : List Instr} {d_ : DevState} {s : State} (h : s.Kept q_ d_) : (State.ptGraceExpiry s).Kept q_ d_ := by
  unfold State.ptGraceExpiry
  try dsimp only
  with_reducible repeat' first
    | assumption | apply kept_ite | apply State.ptHours_kept | apply State.refreshSaf_kept | split

theorem State.ptCount_kept {q_ : List Instr} {d_ : DevState} {s : State} (h : s.Kept q_ d_) : (State.ptCount s).Kept q_ d_ := by
  unfold State.ptCount
  try dsimp only
  with_reducible repeat' first
    | assumption | apply State.ptHours_kept

end Sys2Proof.Machine
end

