-- ==== Sys2Proof/Laws/Kept/Links.lean ====
section
/-! SUPPORT. The operations of Machine/Links.lean keep the canonical form and the queue. -/

namespace Sys2Proof.Machine

set_option tactic.hygienic false
set_option linter.unusedTactic false
set_option linter.unreachableTactic false
set_option linter.unusedVariables false

theorem State.setPstate_kept {q_ : List Instr} {d_ : DevState} {s : State} (h : s.Kept q_ d_) {p : Nat} {st : Nat} : (State.setPstate s p st).Kept q_ d_ := by
  unfold State.setPstate
  try lift_lets
  intros
  try
    have k_s1 : s1.Kept q_ d_ := by
      dsimp only [s1]
      with_reducible repeat' first
        | assumption | apply State.setFld_kept | apply State.setBit_kept
    clear_value s1
  with_reducible repeat' first
    | assumption | apply kept_ite | apply State.setFld_kept | apply State.setBit_kept | apply State.event_kept | dsimp only
    | split | dsimp +zetaDelta only

theorem State.setLstate_kept {q_ : List Instr} {d_ : DevState} {s : State} (h : s.Kept q_ d_) {p : Nat} {l : Lane} {st : Nat} : (State.setLstate s p l st).Kept q_ d_ := by
  unfold State.setLstate
  try dsimp only
  with_reducible repeat' first
    | assumption | apply State.setFld_kept

theorem State.setPassed_kept {q_ : List Instr} {d_ : DevState} {s : State} (h : s.Kept q_ d_) {p : Nat} {l : Lane} {b : Bool} : (State.setPassed s p l b).Kept q_ d_ := by
  unfold State.setPassed
  try dsimp only
  with_reducible repeat' first
    | assumption | apply State.setRp_kept | exact ⟨rfl, rfl⟩ | apply kept_update

theorem State.bypass_kept {q_ : List Instr} {d_ : DevState} {s : State} (h : s.Kept q_ d_) {p : Nat} {l : Lane} {opened : Bool} : (State.bypass s p l opened).Kept q_ d_ := by
  unfold State.bypass
  try lift_lets
  intros
  try
    have k_s1 : s1.Kept q_ d_ := by
      dsimp only [s1]
      with_reducible repeat' first
        | assumption | apply State.setBit_kept | apply State.event_kept
    clear_value s1
  with_reducible repeat' first
    | assumption | apply kept_ite | apply State.setBit_kept | apply State.event_kept | apply State.inc_kept | dsimp only | split
    | dsimp +zetaDelta only

theorem State.openLane_kept {q_ : List Instr} {d_ : DevState} {s : State} (h : s.Kept q_ d_) {p : Nat} {l : Lane} : (State.openLane s p l).Kept q_ d_ := by
  unfold State.openLane
  try lift_lets
  intros
  try clear_value first
  with_reducible repeat' first
    | assumption | apply kept_ite | apply State.bypass_kept | apply State.setLstate_kept | dsimp only | split
    | dsimp +zetaDelta only

theorem State.openLanes_kept {q_ : List Instr} {d_ : DevState} {s : State} (h : s.Kept q_ d_) {p : Nat} : (State.openLanes s p).Kept q_ d_ := by
  unfold State.openLanes
  try dsimp only
  with_reducible repeat' first
    | assumption | apply State.openLane_kept

theorem State.startLane_kept {q_ : List Instr} {d_ : DevState} {s : State} (h : s.Kept q_ d_) {p : Nat} {l : Lane} : (State.startLane s p l).Kept q_ d_ := by
  unfold State.startLane
  try dsimp only
  with_reducible repeat' first
    | assumption | apply kept_ite | apply State.setPassed_kept | apply State.setLstate_kept | split

theorem State.stopLane_kept {q_ : List Instr} {d_ : DevState} {s : State} (h : s.Kept q_ d_) {p : Nat} {l : Lane} : (State.stopLane s p l).Kept q_ d_ := by
  unfold State.stopLane
  try lift_lets
  intros
  try
    have k_s1 : s1.Kept q_ d_ := by
      dsimp only [s1]
      with_reducible repeat' first
        | assumption | apply State.bypass_kept | apply State.setPassed_kept | apply State.setFld_kept
    clear_value s1
  with_reducible repeat' first
    | assumption | apply State.bypass_kept | apply State.setPassed_kept | apply State.setFld_kept | apply State.setBit_kept
    | dsimp only | dsimp +zetaDelta only

theorem State.portStart_kept {q_ : List Instr} {d_ : DevState} {s : State} (h : s.Kept q_ d_) {p : Nat} : (State.portStart s p).Kept q_ d_ := by
  unfold State.portStart
  try dsimp only
  with_reducible repeat' first
    | assumption | apply State.startLane_kept

theorem State.classLanes_kept {q_ : List Instr} {d_ : DevState} {s : State} (h : s.Kept q_ d_) {p : Nat} : (State.classLanes s p).Kept q_ d_ := by
  unfold State.classLanes
  try dsimp only
  with_reducible repeat' first
    | assumption | apply kept_ite | apply State.startLane_kept | apply State.stopLane_kept | split

theorem State.statBits_kept {q_ : List Instr} {d_ : DevState} {s : State} (h : s.Kept q_ d_) {p : Nat} : (State.statBits s p).Kept q_ d_ := by
  unfold State.statBits
  try lift_lets
  intros
  try clear_value a
  try clear_value b
  with_reducible repeat' first
    | assumption | apply State.setBit_kept | dsimp only | dsimp +zetaDelta only

theorem State.enterListen_kept {q_ : List Instr} {d_ : DevState} {s : State} (h : s.Kept q_ d_) {p : Nat} : (State.enterListen s p).Kept q_ d_ := by
  unfold State.enterListen
  try lift_lets
  intros
  try
    have k_s1 : s1.Kept q_ d_ := by
      dsimp only [s1]
      with_reducible repeat' first
        | assumption | intro _ | apply State.setRp_kept | exact ⟨rfl, rfl⟩ | apply kept_update
    clear_value s1
  try
    have k_s2 : s2.Kept q_ d_ := by
      dsimp only [s2]
      with_reducible repeat' first
        | assumption | apply State.setBit_kept | apply State.setFld_kept | apply State.setPstate_kept
    clear_value s2
  try
    have k_s3 : s3.Kept q_ d_ := by
      dsimp only [s3]
      with_reducible repeat' first
        | assumption | apply State.classLanes_kept | apply State.statBits_kept
    clear_value s3
  with_reducible repeat' first
    | assumption | intro _ | apply kept_ite | apply State.setRp_kept | apply State.setBit_kept | apply State.setFld_kept
    | apply State.setPstate_kept | apply State.classLanes_kept | apply State.statBits_kept | dsimp only | split
    | dsimp +zetaDelta only | exact ⟨rfl, rfl⟩ | apply kept_update

theorem State.laneBits_kept {q_ : List Instr} {d_ : DevState} {s : State} (h : s.Kept q_ d_) {p : Nat} : (State.laneBits s p).Kept q_ d_ := by
  unfold State.laneBits
  try lift_lets
  intros
  try
    have k_s1 : s1.Kept q_ d_ := by
      dsimp only [s1]
      with_reducible repeat' first
        | assumption | apply State.statBits_kept
    clear_value s1
  with_reducible repeat' first
    | assumption | apply kept_ite | apply State.statBits_kept | apply State.enterListen_kept | apply State.setPstate_kept
    | dsimp only | split | dsimp +zetaDelta only

theorem State.laneFail_kept {q_ : List Instr} {d_ : DevState} {s : State} (h : s.Kept q_ d_) {p : Nat} {l : Lane} {cause : Nat} : (State.laneFail s p l cause).Kept q_ d_ := by
  unfold State.laneFail
  try dsimp only
  with_reducible repeat' first
    | assumption | apply State.bypass_kept | apply State.setLstate_kept | apply State.setFld_kept | apply State.setPassed_kept
    | apply State.laneBits_kept | apply State.openLanes_kept

theorem State.portDown_kept {q_ : List Instr} {d_ : DevState} {s : State} (h : s.Kept q_ d_) {p : Nat} : (State.portDown s p).Kept q_ d_ := by
  unfold State.portDown
  try dsimp only
  with_reducible repeat' first
    | assumption | apply State.stopLane_kept | apply State.setRp_kept | apply State.laneBits_kept | apply State.setPstate_kept
    | apply State.setBit_kept | exact ⟨rfl, rfl⟩ | apply kept_update

theorem State.restartPort_kept {q_ : List Instr} {d_ : DevState} {s : State} (h : s.Kept q_ d_) {p : Nat} : (State.restartPort s p).Kept q_ d_ := by
  unfold State.restartPort
  try dsimp only
  with_reducible repeat' first
    | assumption | apply kept_ite | apply State.portDown_kept | apply State.portStart_kept | split

theorem State.trainPassed_kept {q_ : List Instr} {d_ : DevState} {s : State} (h : s.Kept q_ d_) {p : Nat} {l : Lane} : (State.trainPassed s p l).Kept q_ d_ := by
  unfold State.trainPassed
  try dsimp only
  with_reducible repeat' first
    | assumption | apply kept_ite | apply State.setPassed_kept | apply State.openLanes_kept | split

theorem State.trainTimeout_kept {q_ : List Instr} {d_ : DevState} {s : State} (h : s.Kept q_ d_) {p : Nat} {l : Lane} : (State.trainTimeout s p l).Kept q_ d_ := by
  unfold State.trainTimeout
  try dsimp only
  with_reducible repeat' first
    | assumption | apply kept_ite | apply State.inc_kept | apply State.laneFail_kept | split

theorem State.bypassSettled_kept {q_ : List Instr} {d_ : DevState} {s : State} (h : s.Kept q_ d_) {p : Nat} {l : Lane} : (State.bypassSettled s p l).Kept q_ d_ := by
  unfold State.bypassSettled
  try dsimp only
  with_reducible repeat' first
    | assumption | apply kept_ite | apply State.setRp_kept | split | exact ⟨rfl, rfl⟩ | apply kept_update

theorem State.joinPassed_kept {q_ : List Instr} {d_ : DevState} {s : State} (h : s.Kept q_ d_) {p : Nat} {l : Lane} : (State.joinPassed s p l).Kept q_ d_ := by
  unfold State.joinPassed
  try dsimp only
  with_reducible repeat' first
    | assumption | apply kept_ite | apply State.setRp_kept | apply State.setFld_kept | apply State.setLstate_kept | split
    | exact ⟨rfl, rfl⟩ | apply kept_update

theorem State.joinTimeout_kept {q_ : List Instr} {d_ : DevState} {s : State} (h : s.Kept q_ d_) {p : Nat} {l : Lane} : (State.joinTimeout s p l).Kept q_ d_ := by
  unfold State.joinTimeout
  try dsimp only
  with_reducible repeat' first
    | assumption | apply kept_ite | apply State.inc_kept | apply State.laneFail_kept | split

theorem State.measureMarker_kept {q_ : List Instr} {d_ : DevState} {s : State} (h : s.Kept q_ d_) {p : Nat} {m : Marker} : (State.measureMarker s p m).Kept q_ d_ := by
  unfold State.measureMarker
  try dsimp only
  with_reducible repeat' first
    | assumption | apply kept_ite | apply State.setRp_kept | split | exact ⟨rfl, rfl⟩ | apply kept_update

theorem State.lossCheck_kept {q_ : List Instr} {d_ : DevState} {s : State} (h : s.Kept q_ d_) {p : Nat} {l : Lane} {losses : List Nat} : (State.lossCheck s p l losses).Kept q_ d_ := by
  unfold State.lossCheck
  try dsimp only
  with_reducible repeat' first
    | assumption | intro _ | apply kept_ite | apply State.setBit_kept | apply State.event_kept | dsimp only | split

theorem State.measureDone_kept {q_ : List Instr} {d_ : DevState} {s : State} (h : s.Kept q_ d_) {p : Nat} {l : Lane} {loss : Nat} : (State.measureDone s p l loss).Kept q_ d_ := by
  unfold State.measureDone
  try lift_lets
  intros
  try clear_value m
  try clear_value spread
  try
    have k_s2 : s2.Kept q_ d_ := by
      dsimp only [s2]
      with_reducible repeat' first
        | assumption | apply State.wrN_kept | apply State.setFld_kept
    clear_value s2
  with_reducible repeat' first
    | assumption | apply kept_ite | apply State.wrN_kept | apply State.setFld_kept | apply State.lossCheck_kept
    | apply State.setLstate_kept | apply State.event_kept | apply State.laneBits_kept | apply State.openLanes_kept | dsimp only
    | split | dsimp +zetaDelta only

theorem State.measureTimeout_kept {q_ : List Instr} {d_ : DevState} {s : State} (h : s.Kept q_ d_) {p : Nat} {l : Lane} : (State.measureTimeout s p l).Kept q_ d_ := by
  unfold State.measureTimeout
  try dsimp only
  with_reducible repeat' first
    | assumption | apply kept_ite | apply State.inc_kept | apply State.laneFail_kept | split

theorem State.laneLoss_kept {q_ : List Instr} {d_ : DevState} {s : State} (h : s.Kept q_ d_) {p : Nat} {l : Lane} {lock : Bool} : (State.laneLoss s p l lock).Kept q_ d_ := by
  unfold State.laneLoss
  try lift_lets
  intros
  try
    have k_s1 : s1.Kept q_ d_ := by
      dsimp only [s1]
      with_reducible repeat' first
        | assumption | apply kept_ite | apply State.inc_kept | apply State.setFld_kept | split
    clear_value s1
  try
    have k_s2 : s2.Kept q_ d_ := by
      dsimp only [s2]
      with_reducible repeat' first
        | assumption | apply kept_ite | apply State.event_kept | apply State.alarm_kept | split
    clear_value s2
  with_reducible repeat' first
    | assumption | apply kept_ite | apply State.inc_kept | apply State.setFld_kept | apply State.event_kept
    | apply State.alarm_kept | apply State.laneFail_kept | dsimp only | split | dsimp +zetaDelta only

theorem State.linkRetry_kept {q_ : List Instr} {d_ : DevState} {s : State} (h : s.Kept q_ d_) {p : Nat} {l : Lane} : (State.linkRetry s p l).Kept q_ d_ := by
  unfold State.linkRetry
  try dsimp only
  with_reducible repeat' first
    | assumption | apply kept_ite | apply State.setPassed_kept | apply State.setLstate_kept | split

end Sys2Proof.Machine
end

