-- ==== Sys2Proof/Laws/Kept/Ring.lean ====
section
/-! SUPPORT. The operations of Machine/Ring.lean keep the canonical form and the queue. -/

namespace Sys2Proof.Machine

set_option tactic.hygienic false
set_option linter.unusedTactic false
set_option linter.unreachableTactic false
set_option linter.unusedVariables false

theorem State.relay_kept {q_ : List Instr} {d_ : DevState} {s : State} (h : s.Kept q_ d_) {p : Nat} {typ : Nat} {lanes : Nat} : (State.relay s p typ lanes).Kept q_ d_ := by
  unfold State.relay
  try dsimp only
  with_reducible repeat' first
    | assumption | apply kept_ite | apply State.setRp_kept | split | exact ⟨rfl, rfl⟩ | apply kept_update

theorem State.send_kept {q_ : List Instr} {d_ : DevState} {s : State} (h : s.Kept q_ d_) {p : Nat} {f : RingFrame} : (State.send s p f).Kept q_ d_ := by
  unfold State.send
  try dsimp only
  with_reducible repeat' first
    | assumption | apply kept_ite | apply State.setRp_kept | split | exact ⟨rfl, rfl⟩ | apply kept_update

theorem State.sendFrom_kept {q_ : List Instr} {d_ : DevState} {s : State} (h : s.Kept q_ d_) {p : Nat} {a : Nat} {f : RingFrame} : (State.sendFrom s p a f).Kept q_ d_ := by
  unfold State.sendFrom
  try dsimp only
  with_reducible repeat' first
    | assumption | apply State.ueRead_kept | apply State.send_kept | exact ⟨rfl, rfl⟩ | apply kept_update

theorem State.resend_kept {q_ : List Instr} {d_ : DevState} {s : State} (h : s.Kept q_ d_) {p : Nat} {typ : Nat} {dst : Nat} {src : Nat} {blk : Nat} : (State.resend s p typ dst src blk).Kept q_ d_ := by
  unfold State.resend
  try lift_lets
  intros
  try clear_value r
  with_reducible repeat' first
    | assumption | apply State.send_kept | dsimp only | split | dsimp +zetaDelta only | exact ⟨rfl, rfl⟩ | apply kept_update

theorem State.crcBad_kept {q_ : List Instr} {d_ : DevState} {s : State} (h : s.Kept q_ d_) {p : Nat} {n : Nat} {l : Lane} : (State.crcBad s p n l).Kept q_ d_ := by
  unfold State.crcBad
  try dsimp only
  with_reducible repeat' first
    | assumption | apply kept_ite | apply State.add_kept | split

theorem State.rxLog_kept {q_ : List Instr} {d_ : DevState} {s : State} (h : s.Kept q_ d_) {p : Nat} {typ : Nat} {l : Lane} {src : Nat} {len : Nat} {cyc : Nat} {raw : Nat} : (State.rxLog s p typ l src len cyc raw).Kept q_ d_ := by
  unfold State.rxLog
  try lift_lets
  intros
  try clear_value head
  try clear_value b
  try
    have k_t : t.Kept q_ d_ := by
      dsimp only [t]
      with_reducible repeat' first
        | assumption
    clear_value t
  try
    have k_s1 : s1.Kept q_ d_ := by
      dsimp only [s1]
      with_reducible repeat' first
        | assumption | apply State.setCell_kept
    clear_value s1
  with_reducible repeat' first
    | assumption | apply kept_ite | apply State.inc_kept | apply State.event_kept | apply State.setCell_kept
    | apply State.clearCell_kept | apply State.setFld_kept | dsimp only | split | dsimp +zetaDelta only

theorem State.inHeader_kept {q_ : List Instr} {d_ : DevState} {s : State} (h : s.Kept q_ d_) {p : Nat} {n : Nat} {hold : BitVec 16} {alm : Bool} : (State.inHeader s p n hold alm).Kept q_ d_ := by
  unfold State.inHeader
  try lift_lets
  intros
  try
    have k_s1 : s1.Kept q_ d_ := by
      dsimp only [s1]
      with_reducible repeat' first
        | assumption | apply kept_ite | apply State.inc_kept | split
    clear_value s1
  try
    have k_x : x.Kept q_ d_ := by
      dsimp only [x]
      with_reducible repeat' first
        | assumption
    clear_value x
  with_reducible repeat' first
    | assumption | apply kept_ite | apply State.inc_kept | apply State.setRp_kept | dsimp only | split | dsimp +zetaDelta only
    | exact ⟨rfl, rfl⟩ | apply kept_update

theorem State.takeFrame_kept {q_ : List Instr} {d_ : DevState} {s : State} (h : s.Kept q_ d_) {p : Nat} {typ : Nat} {l : Lane} {src : Nat} {len : Nat} {h : RxHead} : (State.takeFrame s p typ l src len h).Kept q_ d_ := by
  unfold State.takeFrame
  try lift_lets
  intros
  try clear_value cnt
  try
    have k_s1 : s1.Kept q_ d_ := by
      dsimp only [s1]
      with_reducible repeat' first
        | assumption | apply State.crcBad_kept
    clear_value s1
  with_reducible repeat' first
    | assumption | apply kept_ite | apply State.crcBad_kept | apply State.rxLog_kept | apply State.inHeader_kept
    | apply State.relay_kept | dsimp only | split | dsimp +zetaDelta only

theorem State.discStat_kept {q_ : List Instr} {d_ : DevState} {s : State} (h : s.Kept q_ d_) {p : Nat} : (State.discStat s p).Kept q_ d_ := by
  unfold State.discStat
  try dsimp only
  with_reducible repeat' first
    | assumption | apply State.setFld_kept

theorem State.judgeDesc_kept {q_ : List Instr} {d_ : DevState} {s : State} (h : s.Kept q_ d_) {p : Nat} {n : Nat} {d : List Word} : (State.judgeDesc s p n d).Kept q_ d_ := by
  unfold State.judgeDesc
  try lift_lets
  intros
  try clear_value old
  try clear_value c
  try
    have k_s1 : s1.Kept q_ d_ := by
      dsimp only [s1]
      with_reducible repeat' first
        | assumption | intro _ | apply State.setRp_kept | dsimp only | exact ⟨rfl, rfl⟩ | apply kept_update
    clear_value s1
  with_reducible repeat' first
    | assumption | intro _ | apply kept_ite | apply getD_map_kept | apply State.setFld_kept | apply State.event_kept
    | apply State.setRp_kept | apply State.inc_kept | dsimp only | split | dsimp +zetaDelta only | exact ⟨rfl, rfl⟩
    | apply kept_update

theorem State.descriptorReply_kept {q_ : List Instr} {d_ : DevState} {s : State} (h : s.Kept q_ d_) {p : Nat} {n : Nat} {at_ : LaneAt} {d : List Word} : (State.descriptorReply s p n at_ d).Kept q_ d_ := by
  unfold State.descriptorReply
  try lift_lets
  intros
  try
    have k_x : x.Kept q_ d_ := by
      dsimp only [x]
      with_reducible repeat' first
        | assumption
    clear_value x
  with_reducible repeat' first
    | assumption | intro _ | apply kept_ite | apply getD_map_kept | apply State.setRp_kept | apply State.judgeDesc_kept
    | apply State.discStat_kept | dsimp only | split | dsimp +zetaDelta only

theorem State.endDiscovery_kept {q_ : List Instr} {d_ : DevState} {s : State} (h : s.Kept q_ d_) {p : Nat} : (State.endDiscovery s p).Kept q_ d_ := by
  unfold State.endDiscovery
  try lift_lets
  intros
  try clear_value there
  try clear_value absent
  try clear_value bad
  try
    have k_s1 : s1.Kept q_ d_ := by
      dsimp only [s1]
      with_reducible repeat' first
        | assumption | intro _ | apply kept_ite | apply forUpTo_kept | apply State.setFld_kept | dsimp only | split
    clear_value s1
  try
    have k_s2 : s2.Kept q_ d_ := by
      dsimp only [s2]
      with_reducible repeat' first
        | assumption | intro _ | apply forEach_kept | apply State.setFld_kept | dsimp only
    clear_value s2
  try
    have k_s3 : s3.Kept q_ d_ := by
      dsimp only [s3]
      with_reducible repeat' first
        | assumption | apply State.discStat_kept | apply State.setBit_kept
    clear_value s3
  try
    have k_s4 : s4.Kept q_ d_ := by
      dsimp only [s4]
      with_reducible repeat' first
        | assumption | apply kept_ite | apply State.event_kept | split
    clear_value s4
  with_reducible repeat' first
    | assumption | intro _ | apply kept_ite | apply forUpTo_kept | apply forEach_kept | apply State.setFld_kept
    | apply State.discStat_kept | apply State.setBit_kept | apply State.event_kept | apply State.setRp_kept | dsimp only | split
    | dsimp +zetaDelta only | exact ⟨rfl, rfl⟩ | apply kept_update

theorem State.pollStep_kept {q_ : List Instr} {d_ : DevState} {s : State} (h : s.Kept q_ d_) {p : Nat} : (State.pollStep s p).Kept q_ d_ := by
  unfold State.pollStep
  try lift_lets
  intros
  try
    have k_x : x.Kept q_ d_ := by
      dsimp only [x]
      with_reducible repeat' first
        | assumption
    clear_value x
  with_reducible repeat' first
    | assumption | intro _ | apply kept_ite | apply State.endDiscovery_kept | apply State.setRp_kept | dsimp only | split
    | dsimp +zetaDelta only | exact ⟨rfl, rfl⟩ | apply kept_update

theorem State.longCheck_kept {q_ : List Instr} {d_ : DevState} {s : State} (h : s.Kept q_ d_) {p : Nat} {l : Lane} {cfg : Nat} {hops : List Nat} : (State.longCheck s p l cfg hops).Kept q_ d_ := by
  unfold State.longCheck
  try dsimp only
  with_reducible repeat' first
    | assumption | intro _ | apply kept_ite | apply State.setBit_kept | apply State.event_kept | dsimp only | split

theorem State.splitHops_kept {q_ : List Instr} {d_ : DevState} {s : State} (h : s.Kept q_ d_) {p : Nat} : (State.splitHops s p).Kept q_ d_ := by
  unfold State.splitHops
  try lift_lets
  intros
  try clear_value la
  try clear_value lb
  try clear_value ns
  try clear_value rtts
  try clear_value sum
  try clear_value hopA
  try clear_value hopB
  try clear_value dA
  try clear_value dB
  try
    have k_s2 : s2.Kept q_ d_ := by
      dsimp only [s2]
      with_reducible repeat' first
        | assumption | apply State.wrN_kept
    clear_value s2
  try
    have k_s3 : s3.Kept q_ d_ := by
      dsimp only [s3]
      with_reducible repeat' first
        | assumption | intro _ | apply forEach_kept | apply State.wrN_kept | dsimp only
    clear_value s3
  try
    have k_s4 : s4.Kept q_ d_ := by
      dsimp only [s4]
      with_reducible repeat' first
        | assumption | intro _ | apply forEach_kept | apply State.wrN_kept | dsimp only
    clear_value s4
  try
    have k_s5 : s5.Kept q_ d_ := by
      dsimp only [s5]
      with_reducible repeat' first
        | assumption | apply State.longCheck_kept
    clear_value s5
  with_reducible repeat' first
    | assumption | intro _ | apply forEach_kept | apply State.wrN_kept | apply State.longCheck_kept | apply State.lossCheck_kept
    | dsimp only | dsimp +zetaDelta only

theorem State.refuseSchedule_kept {q_ : List Instr} {d_ : DevState} {s : State} (h : s.Kept q_ d_) {p : Nat} : (State.refuseSchedule s p).Kept q_ d_ := by
  unfold State.refuseSchedule
  try dsimp only
  with_reducible repeat' first
    | assumption | apply State.setBit_kept | apply State.alarm_kept

theorem State.scheduleLoaded_kept {q_ : List Instr} {d_ : DevState} {s : State} (h : s.Kept q_ d_) {p : Nat} : (State.scheduleLoaded s p).Kept q_ d_ := by
  unfold State.scheduleLoaded
  try lift_lets
  intros
  try clear_value measured
  with_reducible repeat' first
    | assumption | apply kept_ite | apply State.refuseSchedule_kept | dsimp only | split | dsimp +zetaDelta only

theorem State.endInit_kept {q_ : List Instr} {d_ : DevState} {s : State} (h : s.Kept q_ d_) {p : Nat} : (State.endInit s p).Kept q_ d_ := by
  unfold State.endInit
  try lift_lets
  intros
  try clear_value found
  try
    have k_s1 : s1.Kept q_ d_ := by
      dsimp only [s1]
      with_reducible repeat' first
        | assumption | apply State.splitHops_kept
    clear_value s1
  with_reducible repeat' first
    | assumption | intro _ | apply kept_ite | apply State.splitHops_kept | apply State.setRp_kept | apply State.setPstate_kept
    | apply State.refuseSchedule_kept | dsimp only | split | dsimp +zetaDelta only | exact ⟨rfl, rfl⟩ | apply kept_update

theorem State.launchRef_kept {q_ : List Instr} {d_ : DevState} {s : State} (h : s.Kept q_ d_) {p : Nat} : (State.launchRef s p).Kept q_ d_ := by
  unfold State.launchRef
  try lift_lets
  intros
  try clear_value c
  try clear_value g
  try
    have k_x : x.Kept q_ d_ := by
      dsimp only [x]
      with_reducible repeat' first
        | assumption
    clear_value x
  try
    have k_s1 : s1.Kept q_ d_ := by
      dsimp only [s1]
      with_reducible repeat' first
        | assumption | intro _ | apply getD_map_kept | apply State.setRp_kept | dsimp only
    clear_value s1
  with_reducible repeat' first
    | assumption | intro _ | apply getD_map_kept | apply State.setRp_kept | apply State.send_kept | dsimp only
    | dsimp +zetaDelta only

theorem State.nextCycle_kept {q_ : List Instr} {d_ : DevState} {s : State} (h : s.Kept q_ d_) {p : Nat} : (State.nextCycle s p).Kept q_ d_ := by
  unfold State.nextCycle
  try dsimp only
  with_reducible repeat' first
    | assumption | apply State.wr64_kept

theorem State.nodeSlot_kept {q_ : List Instr} {d_ : DevState} {s : State} (h : s.Kept q_ d_) {p : Nat} : (State.nodeSlot s p).Kept q_ d_ := by
  unfold State.nodeSlot
  try lift_lets
  intros
  try clear_value pay
  try
    have k_s1 : s1.Kept q_ d_ := by
      dsimp only [s1]
      with_reducible repeat' first
        | assumption | apply State.setRp_kept | exact ⟨rfl, rfl⟩ | apply kept_update
    clear_value s1
  try
    have k_s2 : s2.Kept q_ d_ := by
      dsimp only [s2]
      with_reducible repeat' first
        | assumption | apply State.send_kept
    clear_value s2
  with_reducible repeat' first
    | assumption | intro _ | apply kept_ite | apply State.setRp_kept | apply State.send_kept | dsimp only | split
    | dsimp +zetaDelta only | exact ⟨rfl, rfl⟩ | apply kept_update

theorem State.closeCycle_kept {q_ : List Instr} {d_ : DevState} {s : State} (h : s.Kept q_ d_) {p : Nat} : (State.closeCycle s p).Kept q_ d_ := by
  unfold State.closeCycle
  try lift_lets
  intros
  try clear_value led
  try clear_value miss
  try
    have k_x : x.Kept q_ d_ := by
      dsimp only [x]
      with_reducible repeat' first
        | assumption
    clear_value x
  try
    have k_s1 : s1.Kept q_ d_ := by
      dsimp only [s1]
      with_reducible repeat' first
        | assumption | intro _ | apply kept_ite | apply State.setRp_kept | dsimp only | split
    clear_value s1
  try
    have k_s2 : s2.Kept q_ d_ := by
      dsimp only [s2]
      with_reducible repeat' first
        | assumption | apply kept_ite | apply State.nextCycle_kept | split
    clear_value s2
  with_reducible repeat' first
    | assumption | intro _ | apply kept_ite | apply State.setRp_kept | apply State.nextCycle_kept | apply State.inc_kept
    | dsimp only | split | dsimp +zetaDelta only

theorem State.nodeCycle_kept {q_ : List Instr} {d_ : DevState} {s : State} (h : s.Kept q_ d_) {p : Nat} : (State.nodeCycle s p).Kept q_ d_ := by
  unfold State.nodeCycle
  try lift_lets
  intros
  try
    have k_s1 : s1.Kept q_ d_ := by
      dsimp only [s1]
      with_reducible repeat' first
        | assumption | apply State.closeCycle_kept
    clear_value s1
  try
    have k_s2 : s2.Kept q_ d_ := by
      dsimp only [s2]
      with_reducible repeat' first
        | assumption | apply kept_ite | apply State.setRp_kept | apply State.setBit_kept | apply State.launchRef_kept | split
        | exact ⟨rfl, rfl⟩ | apply kept_update
    clear_value s2
  with_reducible repeat' first
    | assumption | apply kept_ite | apply State.closeCycle_kept | apply State.setRp_kept | apply State.setBit_kept
    | apply State.launchRef_kept | apply State.nodeSlot_kept | dsimp only | split | dsimp +zetaDelta only | exact ⟨rfl, rfl⟩
    | apply kept_update

theorem State.sendClaim_kept {q_ : List Instr} {d_ : DevState} {s : State} (h : s.Kept q_ d_) {p : Nat} : (State.sendClaim s p).Kept q_ d_ := by
  unfold State.sendClaim
  try dsimp only
  with_reducible repeat' first
    | assumption | apply State.inc_kept | apply State.send_kept

theorem State.claimPeriod_kept {q_ : List Instr} {d_ : DevState} {s : State} (h : s.Kept q_ d_) {p : Nat} : (State.claimPeriod s p).Kept q_ d_ := by
  unfold State.claimPeriod
  try lift_lets
  intros
  try
    have k_x : x.Kept q_ d_ := by
      dsimp only [x]
      with_reducible repeat' first
        | assumption
    clear_value x
  with_reducible repeat' first
    | assumption | apply kept_ite | apply State.setRp_kept | apply State.sendClaim_kept | dsimp only | split
    | dsimp +zetaDelta only | exact ⟨rfl, rfl⟩ | apply kept_update

theorem State.toForeign_kept {q_ : List Instr} {d_ : DevState} {s : State} (h : s.Kept q_ d_) {p : Nat} : (State.toForeign s p).Kept q_ d_ := by
  unfold State.toForeign
  try dsimp only
  with_reducible repeat' first
    | assumption | apply State.setRp_kept | apply State.setPstate_kept | exact ⟨rfl, rfl⟩ | apply kept_update

theorem State.portCycle_kept {q_ : List Instr} {d_ : DevState} {s0 : State} (h : s0.Kept q_ d_) {p : Nat} : (State.portCycle s0 p).Kept q_ d_ := by
  unfold State.portCycle
  try lift_lets
  intros
  try
    have k_s : s.Kept q_ d_ := by
      dsimp only [s]
      with_reducible repeat' first
        | assumption | apply State.setRp_kept | exact ⟨rfl, rfl⟩ | apply kept_update
    clear_value s
  try
    have k_x : x.Kept q_ d_ := by
      dsimp only [x]
      with_reducible repeat' first
        | assumption
    clear_value x
  try
    have k_s1 : s1.Kept q_ d_ := by
      dsimp only [s1]
      with_reducible repeat' first
        | assumption | apply State.pollStep_kept | apply State.nextCycle_kept | apply State.launchRef_kept
    clear_value s1
  with_reducible repeat' first
    | assumption | apply kept_ite | apply State.setRp_kept | apply State.toForeign_kept | apply State.claimPeriod_kept
    | apply State.pollStep_kept | apply State.nextCycle_kept | apply State.launchRef_kept | apply State.endInit_kept
    | apply State.nodeCycle_kept | dsimp only | split | dsimp +zetaDelta only | exact ⟨rfl, rfl⟩ | apply kept_update

theorem State.cycleBoundary_kept {q_ : List Instr} {d_ : DevState} {s : State} (h : s.Kept q_ d_) {mid : Bool} : (State.cycleBoundary s mid).Kept q_ d_ := by
  unfold State.cycleBoundary
  try lift_lets
  intros
  try
    have k_s1 : s1.Kept q_ d_ := by
      dsimp only [s1]
      with_reducible repeat' first
        | assumption | apply kept_ite | apply State.advance_kept | split
    clear_value s1
  with_reducible repeat' first
    | assumption | intro _ | apply kept_ite | apply forUpTo_kept | apply State.advance_kept | apply State.portCycle_kept
    | dsimp only | split | dsimp +zetaDelta only | exact ⟨rfl, rfl⟩ | apply kept_update

theorem State.noteRef_kept {q_ : List Instr} {d_ : DevState} {s : State} (h : s.Kept q_ d_) {p : Nat} {f : RefMsg} : (State.noteRef s p f).Kept q_ d_ := by
  unfold State.noteRef
  try dsimp only
  with_reducible repeat' first
    | assumption | apply State.setFld_kept | apply State.wr64_kept

theorem State.dropRef_kept {q_ : List Instr} {d_ : DevState} {s : State} (h : s.Kept q_ d_) {p : Nat} {l : Lane} {f : RefMsg} {stamp : Nat} : (State.dropRef s p l f stamp).Kept q_ d_ := by
  unfold State.dropRef
  try lift_lets
  intros
  try clear_value before
  try
    have k_x : x.Kept q_ d_ := by
      dsimp only [x]
      with_reducible repeat' first
        | assumption
    clear_value x
  with_reducible repeat' first
    | assumption | intro _ | apply kept_ite | apply State.setRp_kept | dsimp only | split | dsimp +zetaDelta only
    | exact ⟨rfl, rfl⟩ | apply kept_update

theorem State.keepRef_kept {q_ : List Instr} {d_ : DevState} {s : State} (h : s.Kept q_ d_) {p : Nat} {l : Lane} {f : RefMsg} {stamp : Nat} : (State.keepRef s p l f stamp).Kept q_ d_ := by
  unfold State.keepRef
  try lift_lets
  intros
  try clear_value good
  try clear_value new
  try clear_value first
  try clear_value next
  try
    have k_x : x.Kept q_ d_ := by
      dsimp only [x]
      with_reducible repeat' first
        | assumption
    clear_value x
  with_reducible repeat' first
    | assumption | apply kept_ite | apply State.setRp_kept | dsimp only | split | dsimp +zetaDelta only

theorem State.nodeRef_kept {q_ : List Instr} {d_ : DevState} {s : State} (h : s.Kept q_ d_) {p : Nat} {l : Lane} {f : RefMsg} {stamp : Nat} : (State.nodeRef s p l f stamp).Kept q_ d_ := by
  unfold State.nodeRef
  try lift_lets
  intros
  try clear_value mine
  try
    have k_s1 : s1.Kept q_ d_ := by
      dsimp only [s1]
      with_reducible repeat' first
        | assumption | apply kept_ite | apply State.noteRef_kept | split
    clear_value s1
  try
    have k_s2 : s2.Kept q_ d_ := by
      dsimp only [s2]
      with_reducible repeat' first
        | assumption | apply State.keepRef_kept | apply State.dropRef_kept
    clear_value s2
  with_reducible repeat' first
    | assumption | apply kept_ite | apply State.noteRef_kept | apply State.keepRef_kept | apply State.dropRef_kept
    | apply State.setRp_kept | apply State.setPstate_kept | dsimp only | split | dsimp +zetaDelta only | exact ⟨rfl, rfl⟩
    | apply kept_update

theorem State.masterFindsRef_kept {q_ : List Instr} {d_ : DevState} {s : State} (h : s.Kept q_ d_) {p : Nat} {f : RefMsg} : (State.masterFindsRef s p f).Kept q_ d_ := by
  unfold State.masterFindsRef
  try dsimp only
  with_reducible repeat' first
    | assumption | apply kept_ite | apply State.setRp_kept | apply State.setPstate_kept | apply State.noteRef_kept | split
    | exact ⟨rfl, rfl⟩ | apply kept_update

theorem State.takeLoop_kept {q_ : List Instr} {d_ : DevState} {s : State} (h : s.Kept q_ d_) {p : Nat} {l : Lane} {egress : Nat} {stamp : Nat} : (State.takeLoop s p l egress stamp).Kept q_ d_ := by
  unfold State.takeLoop
  try lift_lets
  intros
  try clear_value d
  try
    have k_x : x.Kept q_ d_ := by
      dsimp only [x]
      with_reducible repeat' first
        | assumption
    clear_value x
  with_reducible repeat' first
    | assumption | apply State.setRp_kept | dsimp only | split | dsimp +zetaDelta only | exact ⟨rfl, rfl⟩ | apply kept_update

theorem State.refIn_kept {q_ : List Instr} {d_ : DevState} {s : State} (h : s.Kept q_ d_) {p : Nat} {l : Lane} {f : RefMsg} {egress : Nat} {stamp : Nat} : (State.refIn s p l f egress stamp).Kept q_ d_ := by
  unfold State.refIn
  try dsimp only
  with_reducible repeat' first
    | assumption | apply kept_ite | apply State.masterFindsRef_kept | apply State.nodeRef_kept | apply State.takeLoop_kept | split

theorem State.answerPoll_kept {q_ : List Instr} {d_ : DevState} {s : State} (h : s.Kept q_ d_) {p : Nat} {l : Lane} : (State.answerPoll s p l).Kept q_ d_ := by
  unfold State.answerPoll
  try lift_lets
  intros
  try
    have k_x : x.Kept q_ d_ := by
      dsimp only [x]
      with_reducible repeat' first
        | assumption
    clear_value x
  with_reducible repeat' first
    | assumption | apply kept_ite | apply State.setRp_kept | apply State.send_kept | dsimp only | split | dsimp +zetaDelta only
    | exact ⟨rfl, rfl⟩ | apply kept_update

theorem State.noteRefTime_kept {q_ : List Instr} {d_ : DevState} {s : State} (h : s.Kept q_ d_) {p : Nat} {l : Lane} {stamp : Nat} : (State.noteRefTime s p l stamp).Kept q_ d_ := by
  unfold State.noteRefTime
  try lift_lets
  intros
  try clear_value d
  try
    have k_s1 : s1.Kept q_ d_ := by
      dsimp only [s1]
      with_reducible repeat' first
        | assumption | apply State.setRp_kept | exact ⟨rfl, rfl⟩ | apply kept_update
    clear_value s1
  with_reducible repeat' first
    | assumption | intro _ | apply kept_ite | apply State.setRp_kept | dsimp only | split | dsimp +zetaDelta only
    | exact ⟨rfl, rfl⟩ | apply kept_update

theorem State.sendTrump_kept {q_ : List Instr} {d_ : DevState} {s : State} (h : s.Kept q_ d_) {p : Nat} {grant : Nat} : (State.sendTrump s p grant).Kept q_ d_ := by
  unfold State.sendTrump
  try dsimp only
  with_reducible repeat' first
    | assumption | apply kept_ite | apply State.setRp_kept | apply State.send_kept | split | exact ⟨rfl, rfl⟩ | apply kept_update

theorem State.takeGrants_kept {q_ : List Instr} {d_ : DevState} {s : State} (h : s.Kept q_ d_) {p : Nat} {l : Lane} {f : RefMsg} {first : Bool} : (State.takeGrants s p l f first).Kept q_ d_ := by
  unfold State.takeGrants
  try lift_lets
  intros
  try clear_value own
  try clear_value g
  try
    have k_s1 : s1.Kept q_ d_ := by
      dsimp only [s1]
      with_reducible repeat' first
        | assumption | apply kept_ite | apply State.answerPoll_kept | split
    clear_value s1
  with_reducible repeat' first
    | assumption | apply kept_ite | apply State.answerPoll_kept | apply State.setRp_kept | apply State.sendTrump_kept
    | apply State.trump_kept | dsimp only | split | dsimp +zetaDelta only | exact ⟨rfl, rfl⟩ | apply kept_update

theorem State.refFrame_kept {q_ : List Instr} {d_ : DevState} {s : State} (h : s.Kept q_ d_) {p : Nat} {l : Lane} {f : RefMsg} {egress : Nat} {stamp : Nat} : (State.refFrame s p l f egress stamp).Kept q_ d_ := by
  unfold State.refFrame
  try lift_lets
  intros
  try clear_value first
  try
    have k_s1 : s1.Kept q_ d_ := by
      dsimp only [s1]
      with_reducible repeat' first
        | assumption | apply State.rxLog_kept | apply State.inHeader_kept | apply State.relay_kept
    clear_value s1
  with_reducible repeat' first
    | assumption | apply State.rxLog_kept | apply State.inHeader_kept | apply State.relay_kept | apply State.refIn_kept
    | apply State.noteRefTime_kept | apply State.takeGrants_kept | dsimp only | dsimp +zetaDelta only

theorem State.claimIn_kept {q_ : List Instr} {d_ : DevState} {s : State} (h : s.Kept q_ d_) {p : Nat} {src : Nat} {prio : Nat} {dev : Nat} : (State.claimIn s p src prio dev).Kept q_ d_ := by
  unfold State.claimIn
  try lift_lets
  intros
  try clear_value own
  try
    have k_x : x.Kept q_ d_ := by
      dsimp only [x]
      with_reducible repeat' first
        | assumption
    clear_value x
  with_reducible repeat' first
    | assumption | apply kept_ite | apply State.setRp_kept | apply State.setBit_kept | apply State.event_kept
    | apply State.setPstate_kept | dsimp only | split | dsimp +zetaDelta only | exact ⟨rfl, rfl⟩ | apply kept_update

theorem State.claimFrame_kept {q_ : List Instr} {d_ : DevState} {s : State} (h : s.Kept q_ d_) {p : Nat} {l : Lane} {src : Nat} {prio : Nat} {dev : Nat} {h : RxHead} : (State.claimFrame s p l src prio dev h).Kept q_ d_ := by
  unfold State.claimFrame
  try lift_lets
  intros
  try
    have k_s1 : s1.Kept q_ d_ := by
      dsimp only [s1]
      with_reducible repeat' first
        | assumption | apply State.takeFrame_kept
    clear_value s1
  try
    have k_s2 : s2.Kept q_ d_ := by
      dsimp only [s2]
      with_reducible repeat' first
        | assumption | apply kept_ite | apply State.setRp_kept | split | exact ⟨rfl, rfl⟩ | apply kept_update
    clear_value s2
  with_reducible repeat' first
    | assumption | apply kept_ite | apply State.takeFrame_kept | apply State.setRp_kept | apply State.claimIn_kept | dsimp only
    | split | dsimp +zetaDelta only | exact ⟨rfl, rfl⟩ | apply kept_update

theorem State.listenEnd_kept {q_ : List Instr} {d_ : DevState} {s : State} (h : s.Kept q_ d_) {p : Nat} : (State.listenEnd s p).Kept q_ d_ := by
  unfold State.listenEnd
  try dsimp only
  with_reducible repeat' first
    | assumption | apply kept_ite | apply State.setRp_kept | apply State.setPstate_kept | apply State.sendClaim_kept | split
    | exact ⟨rfl, rfl⟩ | apply kept_update

theorem State.claimWon_kept {q_ : List Instr} {d_ : DevState} {s : State} (h : s.Kept q_ d_) {p : Nat} : (State.claimWon s p).Kept q_ d_ := by
  unfold State.claimWon
  try lift_lets
  intros
  try
    have k_x : x.Kept q_ d_ := by
      dsimp only [x]
      with_reducible repeat' first
        | assumption
    clear_value x
  try
    have k_s1 : s1.Kept q_ d_ := by
      dsimp only [s1]
      with_reducible repeat' first
        | assumption | apply State.setRp_kept
    clear_value s1
  try
    have k_s2 : s2.Kept q_ d_ := by
      dsimp only [s2]
      with_reducible repeat' first
        | assumption | intro _ | apply forUpTo_kept | apply wr_kept | dsimp only
    clear_value s2
  with_reducible repeat' first
    | assumption | intro _ | apply kept_ite | apply forUpTo_kept | apply State.setRp_kept | apply wr_kept
    | apply State.setFld_kept | apply State.wr64_kept | apply State.event_kept | apply State.setPstate_kept | dsimp only | split
    | dsimp +zetaDelta only

theorem State.backupTakeover_kept {q_ : List Instr} {d_ : DevState} {s : State} (h : s.Kept q_ d_) {p : Nat} : (State.backupTakeover s p).Kept q_ d_ := by
  unfold State.backupTakeover
  try lift_lets
  intros
  try clear_value r
  with_reducible repeat' first
    | assumption | apply kept_ite | apply State.setBit_kept | apply State.setFld_kept | apply State.wr64_kept
    | apply State.inc_kept | apply State.event_kept | dsimp only | split | dsimp +zetaDelta only

theorem State.nodeSilence_kept {q_ : List Instr} {d_ : DevState} {s : State} (h : s.Kept q_ d_) {p : Nat} : (State.nodeSilence s p).Kept q_ d_ := by
  unfold State.nodeSilence
  try dsimp only
  with_reducible repeat' first
    | assumption | apply kept_ite | apply State.setRp_kept | apply State.setPstate_kept | split | exact ⟨rfl, rfl⟩
    | apply kept_update

theorem State.putBlock_kept {q_ : List Instr} {d_ : DevState} {s : State} (h : s.Kept q_ d_) {p : Nat} {n : Nat} {pay : List (BitVec 8)} {b : Nat} : (State.putBlock s p n pay b).Kept q_ d_ := by
  unfold State.putBlock
  try dsimp only
  with_reducible repeat' first
    | assumption | intro _ | apply forEach_kept | apply State.storeCell_kept | dsimp only

theorem State.slotCheck_kept {q_ : List Instr} {d_ : DevState} {s : State} (h : s.Kept q_ d_) {p : Nat} {n : Nat} {dev : Int} : (State.slotCheck s p n dev).Kept q_ d_ := by
  unfold State.slotCheck
  try lift_lets
  intros
  try clear_value late
  try clear_value early
  try clear_value rest
  try
    have k_s1 : s1.Kept q_ d_ := by
      dsimp only [s1]
      with_reducible repeat' first
        | assumption | apply State.setFld_kept | apply State.setBit_kept
    clear_value s1
  try
    have k_s2 : s2.Kept q_ d_ := by
      dsimp only [s2]
      with_reducible repeat' first
        | assumption | apply kept_ite | apply State.inc_kept | split
    clear_value s2
  try
    have k_x : x.Kept q_ d_ := by
      dsimp only [x]
      with_reducible repeat' first
        | assumption
    clear_value x
  with_reducible repeat' first
    | assumption | intro _ | apply kept_ite | apply State.setFld_kept | apply State.setBit_kept | apply State.inc_kept
    | apply State.setRp_kept | dsimp only | split | dsimp +zetaDelta only | exact ⟨rfl, rfl⟩ | apply kept_update

theorem State.offSlot_kept {q_ : List Instr} {d_ : DevState} {s : State} (h : s.Kept q_ d_) {p : Nat} {n : Nat} {bad : Bool} : (State.offSlot s p n bad).Kept q_ d_ := by
  unfold State.offSlot
  try dsimp only
  with_reducible repeat' first
    | assumption | apply kept_ite | apply State.setBit_kept | apply State.inc_kept | apply State.event_kept
    | apply State.trace_kept | split

theorem State.judgeCopy_kept {q_ : List Instr} {d_ : DevState} {s : State} (h : s.Kept q_ d_) {p : Nat} {n : Nat} {plan : Nat} {cnt : Nat} {l : Lane} {ok : Nat} {c : FrameCopy} : (State.judgeCopy s p n plan cnt l ok c).Kept q_ d_ := by
  unfold State.judgeCopy
  try lift_lets
  intros
  try
    have k_s1 : s1.Kept q_ d_ := by
      dsimp only [s1]
      with_reducible repeat' first
        | assumption | apply State.crcBad_kept
    clear_value s1
  with_reducible repeat' first
    | assumption | apply kept_ite | apply State.crcBad_kept | apply State.offSlot_kept | dsimp only | split
    | dsimp +zetaDelta only

theorem State.copies_kept {q_ : List Instr} {d_ : DevState} {s : State} (h : s.Kept q_ d_) {p : Nat} {n : Nat} {plan : Nat} {cnt : Nat} {h : InHeader} {okA : Nat} {okB : Nat} : (State.copies s p n plan cnt h okA okB).1.Kept q_ d_ := by
  unfold State.copies
  try lift_lets
  intros
  try clear_value a
  try clear_value b
  try clear_value later
  try
    have k_s1 : s1.Kept q_ d_ := by
      dsimp only [s1]
      with_reducible repeat' first
        | assumption | apply State.setBit_kept | apply State.judgeCopy_kept
    clear_value s1
  try
    have k_s2 : s2.Kept q_ d_ := by
      dsimp only [s2]
      with_reducible repeat' first
        | assumption | apply State.add_kept
    clear_value s2
  with_reducible repeat' first
    | assumption | apply kept_ite | apply State.setBit_kept | apply State.judgeCopy_kept | apply State.add_kept
    | apply State.slotCheck_kept | dsimp only | split | dsimp +zetaDelta only

theorem State.noteFrame_kept {q_ : List Instr} {d_ : DevState} {s : State} (h : s.Kept q_ d_) {p : Nat} {n : Nat} {safe : Bool} {cnt : Nat} {mask : Nat} : (State.noteFrame s p n safe cnt mask).Kept q_ d_ := by
  unfold State.noteFrame
  try lift_lets
  intros
  try clear_value bad
  try
    have k_x : x.Kept q_ d_ := by
      dsimp only [x]
      with_reducible repeat' first
        | assumption
    clear_value x
  with_reducible repeat' first
    | assumption | intro _ | apply kept_ite | apply State.setRp_kept | dsimp only | split | dsimp +zetaDelta only

theorem State.areaHead_kept {q_ : List Instr} {d_ : DevState} {s : State} (h : s.Kept q_ d_) {p : Nat} {n : Nat} {lanes : Nat} {c : FrameCopy} {dev : Int} {echo : Nat} : (State.areaHead s p n lanes c dev echo).Kept q_ d_ := by
  unfold State.areaHead
  try lift_lets
  intros
  try clear_value b
  try
    have k_s1 : s1.Kept q_ d_ := by
      dsimp only [s1]
      with_reducible repeat' first
        | assumption | apply State.storeCell_kept
    clear_value s1
  with_reducible repeat' first
    | assumption | apply kept_ite | apply State.storeCell_kept | apply State.inc_kept | dsimp only | split | dsimp +zetaDelta only

theorem State.cycIn_kept {q_ : List Instr} {d_ : DevState} {s : State} (h : s.Kept q_ d_) {p : Nat} {n : Nat} {h : InHeader} {pay : List (BitVec 8)} {okA : Nat} {okB : Nat} : (State.cycIn s p n h pay okA okB).Kept q_ d_ := by
  unfold State.cycIn
  try lift_lets
  intros
  try clear_value cnt
  try clear_value plan
  try clear_value m
  try clear_value c
  try
    have k_s1 : s1.Kept q_ d_ := by
      dsimp only [s1]
      with_reducible repeat' first
        | assumption | apply State.copies_kept | dsimp +zetaDelta only
    clear_value s1
  try
    have k_s2 : s2.Kept q_ d_ := by
      dsimp only [s2]
      with_reducible repeat' first
        | assumption | apply State.noteFrame_kept
    clear_value s2
  try
    have k_s3 : s3.Kept q_ d_ := by
      dsimp only [s3]
      with_reducible repeat' first
        | assumption | intro _ | apply kept_ite | apply forEach_kept | apply State.putBlock_kept | apply State.inHeader_kept
        | dsimp only | split
    clear_value s3
  with_reducible repeat' first
    | assumption | intro _ | apply kept_ite | apply forEach_kept | apply State.copies_kept | apply State.add_kept
    | apply State.noteFrame_kept | apply State.putBlock_kept | apply State.inHeader_kept | apply State.areaHead_kept
    | apply State.relay_kept | dsimp only | split | dsimp +zetaDelta only

theorem State.takeSafeIn_kept {q_ : List Instr} {d_ : DevState} {s : State} (h : s.Kept q_ d_) {p : Nat} {n : Nat} {pay : BitVec 256} : (State.takeSafeIn s p n pay).Kept q_ d_ := by
  unfold State.takeSafeIn
  try lift_lets
  intros
  try clear_value ok
  try clear_value rest
  try
    have k_s1 : s1.Kept q_ d_ := by
      dsimp only [s1]
      with_reducible repeat' first
        | assumption | intro _ | apply forEach_kept | apply State.storeCell_kept | dsimp only
    clear_value s1
  try
    have k_s2 : s2.Kept q_ d_ := by
      dsimp only [s2]
      with_reducible repeat' first
        | assumption | apply State.setBit_kept
    clear_value s2
  with_reducible repeat' first
    | assumption | intro _ | apply kept_ite | apply forEach_kept | apply State.storeCell_kept | apply State.setBit_kept
    | apply State.safeIn_kept | dsimp only | split | dsimp +zetaDelta only | exact ⟨rfl, rfl⟩ | apply kept_update

theorem State.noteLanes_kept {q_ : List Instr} {d_ : DevState} {s : State} (h : s.Kept q_ d_) {p : Nat} {n : Nat} {both : Bool} : (State.noteLanes s p n both).Kept q_ d_ := by
  unfold State.noteLanes
  try dsimp only
  with_reducible repeat' first
    | assumption | apply kept_ite | split | exact ⟨rfl, rfl⟩ | apply kept_update

theorem State.safeIn_kept {q_ : List Instr} {d_ : DevState} {s : State} (h : s.Kept q_ d_) {p : Nat} {n : Nat} {h : InHeader} {pay : BitVec 256} {okA : Bool} {okB : Bool} : (State.safeIn s p n h pay okA okB).Kept q_ d_ := by
  unfold State.safeIn
  try lift_lets
  intros
  try clear_value plan
  try clear_value m
  try
    have k_s1 : s1.Kept q_ d_ := by
      dsimp only [s1]
      with_reducible repeat' first
        | assumption | apply State.copies_kept | dsimp +zetaDelta only
    clear_value s1
  try
    have k_s2 : s2.Kept q_ d_ := by
      dsimp only [s2]
      with_reducible repeat' first
        | assumption | apply State.noteFrame_kept
    clear_value s2
  with_reducible repeat' first
    | assumption | apply kept_ite | apply State.copies_kept | apply State.add_kept | apply State.noteFrame_kept
    | apply State.inHeader_kept | apply State.takeSafeIn_kept | apply State.noteLanes_kept | apply State.relay_kept | dsimp only
    | split | dsimp +zetaDelta only

theorem State.sendRq_kept {q_ : List Instr} {d_ : DevState} {s : State} (h : s.Kept q_ d_) {p : Nat} {l : List RingBlock} : (State.sendRq s p l).Kept q_ d_ := by
  unfold State.sendRq
  try dsimp only
  with_reducible repeat' first
    | assumption | intro _ | apply kept_ite | apply State.send_kept | dsimp only | split

theorem State.retryTrace_kept {q_ : List Instr} {d_ : DevState} {s : State} (h : s.Kept q_ d_) {p : Nat} {l : List RingBlock} : (State.retryTrace s p l).Kept q_ d_ := by
  unfold State.retryTrace
  try dsimp only
  with_reducible repeat' first
    | assumption | intro _ | apply forEach_kept | apply State.trace_kept | dsimp only

theorem State.rqLaunch_kept {q_ : List Instr} {d_ : DevState} {s : State} (h : s.Kept q_ d_) {p : Nat} : (State.rqLaunch s p).Kept q_ d_ := by
  unfold State.rqLaunch
  try lift_lets
  intros
  try clear_value l
  try clear_value named
  with_reducible repeat' first
    | assumption | apply kept_ite | apply State.setRp_kept | apply State.sendRq_kept | apply State.retryTrace_kept | dsimp only
    | split | dsimp +zetaDelta only | exact ⟨rfl, rfl⟩ | apply kept_update

theorem State.rqIn_kept {q_ : List Instr} {d_ : DevState} {s : State} (h : s.Kept q_ d_) {p : Nat} {l : List RingBlock} : (State.rqIn s p l).Kept q_ d_ := by
  unfold State.rqIn
  try lift_lets
  intros
  try clear_value own
  with_reducible repeat' first
    | assumption | intro _ | apply kept_ite | apply forEach_kept | apply State.resend_kept | apply State.setRp_kept
    | apply State.retryTrace_kept | dsimp only | split | dsimp +zetaDelta only | exact ⟨rfl, rfl⟩ | apply kept_update

theorem State.placeRetry_kept {q_ : List Instr} {d_ : DevState} {s : State} (h : s.Kept q_ d_) {p : Nat} {b : RingBlock} {data : List (BitVec 8)} : (State.placeRetry s p b data).Kept q_ d_ := by
  unfold State.placeRetry
  try lift_lets
  intros
  try
    have k_x : x.Kept q_ d_ := by
      dsimp only [x]
      with_reducible repeat' first
        | assumption
    clear_value x
  try
    have k_s1 : s1.Kept q_ d_ := by
      dsimp only [s1]
      with_reducible repeat' first
        | assumption | intro _ | apply kept_ite | apply State.setRp_kept | dsimp only | split
    clear_value s1
  with_reducible repeat' first
    | assumption | intro _ | apply kept_ite | apply forEach_kept | apply State.setRp_kept | apply State.takeSafeIn_kept
    | apply State.storeCell_kept | dsimp only | split | dsimp +zetaDelta only

theorem State.rtyIn_kept {q_ : List Instr} {d_ : DevState} {s : State} (h : s.Kept q_ d_) {p : Nat} {b : RingBlock} {data : List (BitVec 8)} {good : Bool} : (State.rtyIn s p b data good).Kept q_ d_ := by
  unfold State.rtyIn
  try lift_lets
  intros
  try
    have k_x : x.Kept q_ d_ := by
      dsimp only [x]
      with_reducible repeat' first
        | assumption
    clear_value x
  try
    have k_s1 : s1.Kept q_ d_ := by
      dsimp only [s1]
      with_reducible repeat' first
        | assumption | intro _ | apply State.setRp_kept | apply State.inc_kept | dsimp only | exact ⟨rfl, rfl⟩ | apply kept_update
    clear_value s1
  with_reducible repeat' first
    | assumption | intro _ | apply kept_ite | apply State.setRp_kept | apply State.inc_kept | apply State.placeRetry_kept
    | dsimp only | split | dsimp +zetaDelta only | exact ⟨rfl, rfl⟩ | apply kept_update

theorem State.takeOut_kept {q_ : List Instr} {d_ : DevState} {s : State} (h : s.Kept q_ d_) {p : Nat} {mask : Nat} {cnt : Nat} {l : List (Nat × BitVec 8)} : (State.takeOut s p mask cnt l).Kept q_ d_ := by
  unfold State.takeOut
  try lift_lets
  intros
  try
    have k_x : x.Kept q_ d_ := by
      dsimp only [x]
      with_reducible repeat' first
        | assumption
    clear_value x
  with_reducible repeat' first
    | assumption | apply State.setRp_kept | dsimp only | dsimp +zetaDelta only | exact ⟨rfl, rfl⟩ | apply kept_update

theorem State.safeOutIn_kept {q_ : List Instr} {d_ : DevState} {s : State} (h : s.Kept q_ d_) {p : Nat} {pay : BitVec 256} : (State.safeOutIn s p pay).Kept q_ d_ := by
  unfold State.safeOutIn
  try dsimp only
  with_reducible repeat' first
    | assumption | apply kept_ite | apply State.setRp_kept | split | exact ⟨rfl, rfl⟩ | apply kept_update

theorem State.eitherLane_kept {q_ : List Instr} {d_ : DevState} {s : State} (h : s.Kept q_ d_) {p : Nat} {k : LaneOk} : (State.eitherLane s p k).1.Kept q_ d_ := by
  unfold State.eitherLane
  try lift_lets
  intros
  try clear_value upB
  try clear_value a
  try clear_value b
  try clear_value saved
  try
    have k_s1 : s1.Kept q_ d_ := by
      dsimp only [s1]
      with_reducible repeat' first
        | assumption | apply kept_ite | apply State.crcBad_kept | split
    clear_value s1
  try
    have k_s2 : s2.Kept q_ d_ := by
      dsimp only [s2]
      with_reducible repeat' first
        | assumption | apply kept_ite | apply State.crcBad_kept | split
    clear_value s2
  with_reducible repeat' first
    | assumption | apply kept_ite | apply State.crcBad_kept | apply State.inc_kept | dsimp only | split | dsimp +zetaDelta only

theorem State.rtyOut_kept {q_ : List Instr} {d_ : DevState} {s : State} (h : s.Kept q_ d_) {p : Nat} {b : RingBlock} {data : List (BitVec 8)} : (State.rtyOut s p b data).Kept q_ d_ := by
  unfold State.rtyOut
  try lift_lets
  intros
  try
    have k_x : x.Kept q_ d_ := by
      dsimp only [x]
      with_reducible repeat' first
        | assumption
    clear_value x
  with_reducible repeat' first
    | assumption | intro _ | apply kept_ite | apply getD_map_kept | apply State.safeOutIn_kept | apply State.setRp_kept
    | apply State.takeOut_kept | dsimp only | split | dsimp +zetaDelta only | exact ⟨rfl, rfl⟩ | apply kept_update

theorem State.rty_kept {q_ : List Instr} {d_ : DevState} {s : State} (h : s.Kept q_ d_) {p : Nat} {b : RingBlock} {data : List (BitVec 8)} {k : LaneOk} : (State.rty s p b data k).Kept q_ d_ := by
  unfold State.rty
  try lift_lets
  intros
  try
    have k_s1 : s1.Kept q_ d_ := by
      dsimp only [s1]
      with_reducible repeat' first
        | assumption | apply kept_ite | apply State.inHeader_kept | apply State.relay_kept | apply State.eitherLane_kept | split
        | dsimp +zetaDelta only
    clear_value s1
  with_reducible repeat' first
    | assumption | apply kept_ite | apply State.eitherLane_kept | apply State.inHeader_kept | apply State.relay_kept
    | apply State.rtyIn_kept | apply State.rtyOut_kept | dsimp only | split | dsimp +zetaDelta only

theorem State.ortLaunch_kept {q_ : List Instr} {d_ : DevState} {s : State} (h : s.Kept q_ d_) {p : Nat} {bad : List RingBlock} : (State.ortLaunch s p bad).Kept q_ d_ := by
  unfold State.ortLaunch
  try lift_lets
  intros
  try clear_value l
  try clear_value named
  try
    have k_s1 : s1.Kept q_ d_ := by
      dsimp only [s1]
      with_reducible repeat' first
        | assumption | apply State.add_kept
    clear_value s1
  try
    have k_s2 : s2.Kept q_ d_ := by
      dsimp only [s2]
      with_reducible repeat' first
        | assumption | intro _ | apply kept_ite | apply forEach_kept | apply State.resend_kept | dsimp only | split
    clear_value s2
  with_reducible repeat' first
    | assumption | intro _ | apply kept_ite | apply forEach_kept | apply State.add_kept | apply State.resend_kept
    | apply State.event_kept | apply State.retryTrace_kept | dsimp only | split | dsimp +zetaDelta only

theorem State.markNode_kept {q_ : List Instr} {d_ : DevState} {s : State} (h : s.Kept q_ d_) {p : Nat} {n : Nat} {valid : Bool} : (State.markNode s p n valid).Kept q_ d_ := by
  unfold State.markNode
  try lift_lets
  intros
  try clear_value flags
  try clear_value b
  try clear_value keep
  try
    have k_st : st.Kept q_ d_ := by
      dsimp only [st]
      with_reducible repeat' first
        | assumption
    clear_value st
  try
    have k_s1 : s1.Kept q_ d_ := by
      dsimp only [s1]
      with_reducible repeat' first
        | assumption | apply State.setCell_kept
    clear_value s1
  with_reducible repeat' first
    | assumption | intro _ | apply kept_ite | apply forUpTo_kept | apply State.setCell_kept | dsimp only | split
    | dsimp +zetaDelta only

theorem State.keepData_kept {q_ : List Instr} {d_ : DevState} {s : State} (h : s.Kept q_ d_) {p : Nat} {n : Nat} : (State.keepData s p n).Kept q_ d_ := by
  unfold State.keepData
  try dsimp only
  with_reducible repeat' first
    | assumption | intro _ | apply kept_ite | apply forUpTo_kept | apply State.copyCell_kept | dsimp only | split

theorem State.setLost_kept {q_ : List Instr} {d_ : DevState} {s : State} (h : s.Kept q_ d_) {p : Nat} {n : Nat} : (State.setLost s p n).Kept q_ d_ := by
  unfold State.setLost
  try dsimp only
  with_reducible repeat' first
    | assumption | apply State.setBit_kept | apply State.inc_kept | apply State.alarm_kept

theorem State.frameMissing_kept {q_ : List Instr} {d_ : DevState} {s : State} (h : s.Kept q_ d_) {p : Nat} {n : Nat} : (State.frameMissing s p n).Kept q_ d_ := by
  unfold State.frameMissing
  try lift_lets
  intros
  try clear_value run
  try
    have k_s1 : s1.Kept q_ d_ := by
      dsimp only [s1]
      with_reducible repeat' first
        | assumption | apply State.keepData_kept | apply State.setFld_kept | apply State.inc_kept
    clear_value s1
  try
    have k_s2 : s2.Kept q_ d_ := by
      dsimp only [s2]
      with_reducible repeat' first
        | assumption | intro _ | apply State.setRp_kept | dsimp only | exact ⟨rfl, rfl⟩ | apply kept_update
    clear_value s2
  try
    have k_s3 : s3.Kept q_ d_ := by
      dsimp only [s3]
      with_reducible repeat' first
        | assumption | apply kept_ite | apply State.setLost_kept | split
    clear_value s3
  with_reducible repeat' first
    | assumption | intro _ | apply kept_ite | apply State.keepData_kept | apply State.setFld_kept | apply State.inc_kept
    | apply State.setRp_kept | apply State.setLost_kept | apply State.markNode_kept | dsimp only | split | dsimp +zetaDelta only
    | exact ⟨rfl, rfl⟩ | apply kept_update

theorem State.homeAxis_kept {q_ : List Instr} {d_ : DevState} {s : State} (h : s.Kept q_ d_) {a : Nat} : (State.homeAxis s a).Kept q_ d_ := by
  unfold State.homeAxis
  try lift_lets
  intros
  try clear_value r
  try clear_value h
  try
    have k_s1 : s1.Kept q_ d_ := by
      dsimp only [s1]
      with_reducible repeat' first
        | assumption | apply State.setCellI_kept
    clear_value s1
  with_reducible repeat' first
    | assumption | apply kept_ite | apply State.setCellI_kept | dsimp only | split | dsimp +zetaDelta only

theorem State.diffAxis_kept {q_ : List Instr} {d_ : DevState} {s : State} (h : s.Kept q_ d_) {a : Nat} : (State.diffAxis s a).Kept q_ d_ := by
  unfold State.diffAxis
  try lift_lets
  intros
  try clear_value r
  try clear_value q
  try
    have k_s1 : s1.Kept q_ d_ := by
      dsimp only [s1]
      with_reducible repeat' first
        | assumption | exact ⟨rfl, rfl⟩ | apply kept_update
    clear_value s1
  with_reducible repeat' first
    | assumption | apply kept_ite | apply State.setCellI_kept | apply State.setCell_kept | dsimp only | split
    | dsimp +zetaDelta only | exact ⟨rfl, rfl⟩ | apply kept_update

theorem State.frameComplete_kept {q_ : List Instr} {d_ : DevState} {s : State} (h : s.Kept q_ d_) {p : Nat} {n : Nat} : (State.frameComplete s p n).Kept q_ d_ := by
  unfold State.frameComplete
  try lift_lets
  intros
  try clear_value run
  try
    have k_x : x.Kept q_ d_ := by
      dsimp only [x]
      with_reducible repeat' first
        | assumption
    clear_value x
  with_reducible repeat' first
    | assumption | intro _ | apply kept_ite | apply getD_map_kept | apply State.setRp_kept | apply State.markNode_kept
    | apply State.setBit_kept | apply State.setFld_kept | dsimp only | split | dsimp +zetaDelta only | exact ⟨rfl, rfl⟩
    | apply kept_update

theorem State.safeMissing_kept {q_ : List Instr} {d_ : DevState} {s : State} (h : s.Kept q_ d_) {p : Nat} {n : Nat} : (State.safeMissing s p n).Kept q_ d_ := by
  unfold State.safeMissing
  try lift_lets
  intros
  try clear_value a
  with_reducible repeat' first
    | assumption | apply State.setCell_kept | apply State.setBit_kept | dsimp only | dsimp +zetaDelta only

theorem State.gatherNode_kept {q_ : List Instr} {d_ : DevState} {s : State} (h : s.Kept q_ d_) {p : Nat} {n : Nat} {bad : List RingBlock} : (State.gatherNode s p n bad).Kept q_ d_ := by
  unfold State.gatherNode
  try lift_lets
  intros
  try clear_value noSafe
  try clear_value l
  try
    have k_s1 : s1.Kept q_ d_ := by
      dsimp only [s1]
      with_reducible repeat' first
        | assumption | apply kept_ite | apply State.safeMissing_kept | split
    clear_value s1
  with_reducible repeat' first
    | assumption | intro _ | apply kept_ite | apply forEach_kept | apply State.safeMissing_kept | apply State.frameMissing_kept
    | apply State.diffAxis_kept | apply State.homeAxis_kept | apply State.frameComplete_kept | dsimp only | split
    | dsimp +zetaDelta only

theorem State.gatherDown_kept {q_ : List Instr} {d_ : DevState} {s : State} (h : s.Kept q_ d_) {p : Nat} {n : Nat} : (State.gatherDown s p n).Kept q_ d_ := by
  unfold State.gatherDown
  try lift_lets
  intros
  try
    have k_s1 : s1.Kept q_ d_ := by
      dsimp only [s1]
      with_reducible repeat' first
        | assumption | apply kept_ite | apply State.safeMissing_kept | split
    clear_value s1
  with_reducible repeat' first
    | assumption | apply kept_ite | apply State.safeMissing_kept | apply State.frameMissing_kept | apply State.keepData_kept
    | apply State.markNode_kept | dsimp only | split | dsimp +zetaDelta only

theorem State.ownGather_kept {q_ : List Instr} {d_ : DevState} {s : State} (h : s.Kept q_ d_) {p : Nat} : (State.ownGather s p).Kept q_ d_ := by
  unfold State.ownGather
  try lift_lets
  intros
  try clear_value own
  try clear_value b
  try clear_value whole
  try
    have k_x : x.Kept q_ d_ := by
      dsimp only [x]
      with_reducible repeat' first
        | assumption
    clear_value x
  try
    have k_s1 : s1.Kept q_ d_ := by
      dsimp only [s1]
      with_reducible repeat' first
        | assumption | apply State.copyCell_kept
    clear_value s1
  try
    have k_s2 : s2.Kept q_ d_ := by
      dsimp only [s2]
      with_reducible repeat' first
        | assumption | intro _ | apply kept_ite | apply forEach_kept | apply State.setCell_kept | dsimp only | split
    clear_value s2
  with_reducible repeat' first
    | assumption | intro _ | apply kept_ite | apply forEach_kept | apply State.copyCell_kept | apply State.setCell_kept
    | apply State.setRp_kept | dsimp only | split | dsimp +zetaDelta only | exact ⟨rfl, rfl⟩ | apply kept_update

theorem State.gatherIdle_kept {q_ : List Instr} {d_ : DevState} {s : State} (h : s.Kept q_ d_) {p : Nat} : (State.gatherIdle s p).Kept q_ d_ := by
  unfold State.gatherIdle
  try lift_lets
  intros
  try
    have k_s0 : s0.Kept q_ d_ := by
      dsimp only [s0]
      with_reducible repeat' first
        | assumption | apply State.setRp_kept | exact ⟨rfl, rfl⟩ | apply kept_update
    clear_value s0
  with_reducible repeat' first
    | assumption | intro _ | apply kept_ite | apply forEach_kept | apply State.setRp_kept | apply State.ownGather_kept
    | apply State.gatherDown_kept | dsimp only | split | dsimp +zetaDelta only | exact ⟨rfl, rfl⟩ | apply kept_update

theorem State.portGather_kept {q_ : List Instr} {d_ : DevState} {s : State} (h : s.Kept q_ d_) {p : Nat} : (State.portGather s p).Kept q_ d_ := by
  unfold State.portGather
  try lift_lets
  intros
  try clear_value bad
  try
    have k_s0 : s0.Kept q_ d_ := by
      dsimp only [s0]
      with_reducible repeat' first
        | assumption | apply State.setRp_kept | exact ⟨rfl, rfl⟩ | apply kept_update
    clear_value s0
  try
    have k_s1 : s1.Kept q_ d_ := by
      dsimp only [s1]
      with_reducible repeat' first
        | assumption | apply State.add_kept
    clear_value s1
  try
    have k_s2 : s2.Kept q_ d_ := by
      dsimp only [s2]
      with_reducible repeat' first
        | assumption | apply kept_ite | apply State.event_kept | split
    clear_value s2
  with_reducible repeat' first
    | assumption | intro _ | apply kept_ite | apply forEach_kept | apply when_kept | apply State.gatherIdle_kept
    | apply State.setRp_kept | apply State.ownGather_kept | apply State.add_kept | apply State.event_kept
    | apply State.gatherNode_kept | dsimp only | split | dsimp +zetaDelta only | exact ⟨rfl, rfl⟩ | apply kept_update

theorem State.nodeLost_kept {q_ : List Instr} {d_ : DevState} {s : State} (h : s.Kept q_ d_) {p : Nat} {n : Nat} : (State.nodeLost s p n).Kept q_ d_ := by
  unfold State.nodeLost
  try dsimp only
  with_reducible repeat' first
    | assumption | apply kept_ite | apply State.setLost_kept | split

theorem State.ringTick_kept {q_ : List Instr} {d_ : DevState} {s : State} (h : s.Kept q_ d_) : (State.ringTick s).Kept q_ d_ := by
  unfold State.ringTick
  try lift_lets
  intros
  try
    have k_s1 : s1.Kept q_ d_ := by
      dsimp only [s1]
      with_reducible repeat' first
        | assumption | apply State.setRp_kept | exact ⟨rfl, rfl⟩ | apply kept_update
    clear_value s1
  with_reducible repeat' first
    | assumption | intro _ | apply kept_ite | apply forUpTo_kept | apply State.setRp_kept | apply State.portGather_kept
    | dsimp only | split | dsimp +zetaDelta only | exact ⟨rfl, rfl⟩ | apply kept_update

theorem State.cycOut_kept {q_ : List Instr} {d_ : DevState} {s : State} (h : s.Kept q_ d_) {p : Nat} {h : OutHeader} {pay : List (BitVec 8)} {okA : Nat} {okB : Nat} : (State.cycOut s p h pay okA okB).Kept q_ d_ := by
  unfold State.cycOut
  try lift_lets
  intros
  try clear_value cnt
  try clear_value here
  try clear_value a
  try clear_value b
  try clear_value m
  try clear_value later
  try
    have k_s1 : s1.Kept q_ d_ := by
      dsimp only [s1]
      with_reducible repeat' first
        | assumption | apply kept_ite | apply State.crcBad_kept | split
    clear_value s1
  try
    have k_s2 : s2.Kept q_ d_ := by
      dsimp only [s2]
      with_reducible repeat' first
        | assumption | apply kept_ite | apply State.crcBad_kept | split
    clear_value s2
  try
    have k_s3 : s3.Kept q_ d_ := by
      dsimp only [s3]
      with_reducible repeat' first
        | assumption | apply State.add_kept | apply State.relay_kept
    clear_value s3
  try
    have k_s4 : s4.Kept q_ d_ := by
      dsimp only [s4]
      with_reducible repeat' first
        | assumption | apply State.inHeader_kept
    clear_value s4
  with_reducible repeat' first
    | assumption | intro _ | apply kept_ite | apply State.crcBad_kept | apply State.add_kept | apply State.relay_kept
    | apply State.inHeader_kept | apply State.setRp_kept | apply State.takeOut_kept | dsimp only | split | dsimp +zetaDelta only
    | exact ⟨rfl, rfl⟩ | apply kept_update

theorem State.safeOutFrame_kept {q_ : List Instr} {d_ : DevState} {s : State} (h : s.Kept q_ d_) {p : Nat} {pay : BitVec 256} {k : LaneOk} : (State.safeOutFrame s p pay k).Kept q_ d_ := by
  unfold State.safeOutFrame
  try lift_lets
  intros
  try
    have k_s1 : s1.Kept q_ d_ := by
      dsimp only [s1]
      with_reducible repeat' first
        | assumption | apply State.relay_kept | apply State.eitherLane_kept | dsimp +zetaDelta only
    clear_value s1
  with_reducible repeat' first
    | assumption | apply kept_ite | apply State.eitherLane_kept | apply State.relay_kept | apply State.inHeader_kept
    | apply State.safeOutIn_kept | dsimp only | split | dsimp +zetaDelta only

theorem State.trump_kept {q_ : List Instr} {d_ : DevState} {s : State} (h : s.Kept q_ d_) {p : Nat} {n : Nat} {data : List (BitVec 8)} : (State.trump s p n data).Kept q_ d_ := by
  unfold State.trump
  try dsimp only
  with_reducible repeat' first
    | assumption | apply kept_ite | apply State.nodeAlarm_kept | apply State.inc_kept | apply State.event_kept
    | apply State.setRp_kept | split | exact ⟨rfl, rfl⟩ | apply kept_update

theorem State.trumpFrame_kept {q_ : List Instr} {d_ : DevState} {s : State} (h : s.Kept q_ d_) {p : Nat} {n : Nat} {l : Lane} {data : List (BitVec 8)} {h : RxHead} : (State.trumpFrame s p n l data h).Kept q_ d_ := by
  unfold State.trumpFrame
  try lift_lets
  intros
  try
    have k_s1 : s1.Kept q_ d_ := by
      dsimp only [s1]
      with_reducible repeat' first
        | assumption | apply State.takeFrame_kept
    clear_value s1
  with_reducible repeat' first
    | assumption | apply kept_ite | apply State.takeFrame_kept | apply State.trump_kept | dsimp only | split
    | dsimp +zetaDelta only

theorem State.bulkEnd_kept {q_ : List Instr} {d_ : DevState} {s : State} (h : s.Kept q_ d_) {p : Nat} {status : Nat} {tries : Nat} : (State.bulkEnd s p status tries).Kept q_ d_ := by
  unfold State.bulkEnd
  try lift_lets
  intros
  try
    have k_s1 : s1.Kept q_ d_ := by
      dsimp only [s1]
      with_reducible repeat' first
        | assumption | apply State.setCell_kept
    clear_value s1
  with_reducible repeat' first
    | assumption | apply State.setCell_kept | apply State.setFld_kept | apply State.setRp_kept | dsimp only
    | dsimp +zetaDelta only | exact ⟨rfl, rfl⟩ | apply kept_update

theorem State.sendAcks_kept {q_ : List Instr} {d_ : DevState} {s : State} (h : s.Kept q_ d_) {p : Nat} {lanes : Nat} : (State.sendAcks s p lanes).Kept q_ d_ := by
  unfold State.sendAcks
  try dsimp only
  with_reducible repeat' first
    | assumption | intro _ | apply forEach_kept | apply State.send_kept | apply State.setRp_kept | dsimp only | exact ⟨rfl, rfl⟩
    | apply kept_update

theorem State.sendBulk_kept {q_ : List Instr} {d_ : DevState} {s : State} (h : s.Kept q_ d_) {p : Nat} {runs : List (Nat × List (Nat × Nat))} : (State.sendBulk s p runs).Kept q_ d_ := by
  unfold State.sendBulk
  try lift_lets
  intros
  try clear_value base
  try clear_value len
  try clear_value numbered
  try clear_value blocks
  try clear_value pay
  try clear_value f
  try
    have k_x : x.Kept q_ d_ := by
      dsimp only [x]
      with_reducible repeat' first
        | assumption
    clear_value x
  try
    have k_s1 : s1.Kept q_ d_ := by
      dsimp only [s1]
      with_reducible repeat' first
        | assumption | apply State.setRp_kept | exact ⟨rfl, rfl⟩ | apply kept_update
    clear_value s1
  with_reducible repeat' first
    | assumption | intro _ | apply forEach_kept | apply State.setRp_kept | apply State.sendFrom_kept | dsimp only
    | dsimp +zetaDelta only | exact ⟨rfl, rfl⟩ | apply kept_update

theorem State.bulkShare_kept {q_ : List Instr} {d_ : DevState} {s : State} (h : s.Kept q_ d_) {p : Nat} {room : Nat} {lay : List (Nat × Nat) → List (Nat × List (Nat × Nat))} : (State.bulkShare s p room lay).Kept q_ d_ := by
  unfold State.bulkShare
  try lift_lets
  intros
  try clear_value total
  try clear_value again
  try clear_value fresh
  try clear_value out
  try
    have k_x : x.Kept q_ d_ := by
      dsimp only [x]
      with_reducible repeat' first
        | assumption
    clear_value x
  with_reducible repeat' first
    | assumption | intro _ | apply kept_ite | apply State.bulkEnd_kept | apply State.inc_kept | apply State.event_kept
    | apply State.setRp_kept | apply State.sendBulk_kept | apply State.add_kept | dsimp only | split | dsimp +zetaDelta only
    | exact ⟨rfl, rfl⟩ | apply kept_update

theorem State.nodeShare_kept {q_ : List Instr} {d_ : DevState} {s : State} (h : s.Kept q_ d_) {p : Nat} : (State.nodeShare s p).Kept q_ d_ := by
  unfold State.nodeShare
  try lift_lets
  intros
  try clear_value g
  try clear_value lanes
  try clear_value acks
  try clear_value a
  try clear_value b
  try
    have k_s1 : s1.Kept q_ d_ := by
      dsimp only [s1]
      with_reducible repeat' first
        | assumption | apply State.setRp_kept | apply State.sendAcks_kept | exact ⟨rfl, rfl⟩ | apply kept_update
    clear_value s1
  with_reducible repeat' first
    | assumption | apply kept_ite | apply State.granted_kept | apply State.setRp_kept | apply State.sendAcks_kept
    | apply State.bulkShare_kept | dsimp only | split | dsimp +zetaDelta only | exact ⟨rfl, rfl⟩ | apply kept_update

theorem State.bulkWindow_kept {q_ : List Instr} {d_ : DevState} {s : State} (h : s.Kept q_ d_) {p : Nat} {room : Nat} : (State.bulkWindow s p room).Kept q_ d_ := by
  unfold State.bulkWindow
  try dsimp only
  with_reducible repeat' first
    | assumption | apply kept_ite | apply State.sendAcks_kept | apply State.bulkShare_kept | apply State.nodeShare_kept | split

theorem State.bulkAck_kept {q_ : List Instr} {d_ : DevState} {s : State} (h : s.Kept q_ d_) {p : Nat} {n : Nat} {acks : List (BitVec 16 × BitVec 16)} : (State.bulkAck s p n acks).Kept q_ d_ := by
  unfold State.bulkAck
  try lift_lets
  intros
  try clear_value tries
  try clear_value rest
  try
    have k_x : x.Kept q_ d_ := by
      dsimp only [x]
      with_reducible repeat' first
        | assumption
    clear_value x
  try
    have k_s1 : s1.Kept q_ d_ := by
      dsimp only [s1]
      with_reducible repeat' first
        | assumption | apply State.setRp_kept | exact ⟨rfl, rfl⟩ | apply kept_update
    clear_value s1
  with_reducible repeat' first
    | assumption | intro _ | apply kept_ite | apply foldl_kept | apply State.setRp_kept | apply State.bulkEnd_kept | dsimp only
    | split | dsimp +zetaDelta only | exact ⟨rfl, rfl⟩ | apply kept_update

theorem State.bulkAckFrame_kept {q_ : List Instr} {d_ : DevState} {s : State} (h : s.Kept q_ d_) {p : Nat} {n : Nat} {l : Lane} {acks : List (BitVec 16 × BitVec 16)} {h : RxHead} : (State.bulkAckFrame s p n l acks h).Kept q_ d_ := by
  unfold State.bulkAckFrame
  try lift_lets
  intros
  try
    have k_s1 : s1.Kept q_ d_ := by
      dsimp only [s1]
      with_reducible repeat' first
        | assumption | apply State.takeFrame_kept
    clear_value s1
  with_reducible repeat' first
    | assumption | apply kept_ite | apply State.takeFrame_kept | apply State.bulkAck_kept | dsimp only | split
    | dsimp +zetaDelta only

theorem State.takePiece_kept {q_ : List Instr} {d_ : DevState} {s : State} (h : s.Kept q_ d_) {p : Nat} {ok : Nat} {data : List (BitVec 8)} {q : Nat × Nat} : (State.takePiece s p ok data q).Kept q_ d_ := by
  unfold State.takePiece
  try lift_lets
  intros
  try clear_value len
  try clear_value l
  try clear_value m
  try
    have k_x : x.Kept q_ d_ := by
      dsimp only [x]
      with_reducible repeat' first
        | assumption
    clear_value x
  with_reducible repeat' first
    | assumption | intro _ | apply kept_ite | apply forEach_kept | apply State.storeCell_kept | apply State.setRp_kept
    | dsimp only | split | dsimp +zetaDelta only | exact ⟨rfl, rfl⟩ | apply kept_update

theorem State.takePieces_kept {q_ : List Instr} {d_ : DevState} {s : State} (h : s.Kept q_ d_) {p : Nat} {ok : Nat} {f : BulkIn} : (State.takePieces s p ok f).Kept q_ d_ := by
  unfold State.takePieces
  try lift_lets
  intros
  try
    have k_s1 : s1.Kept q_ d_ := by
      dsimp only [s1]
      with_reducible repeat' first
        | assumption | intro _ | apply forEach_kept | apply State.takePiece_kept | dsimp only
    clear_value s1
  with_reducible repeat' first
    | assumption | intro _ | apply kept_ite | apply forEach_kept | apply State.takePiece_kept | apply State.bulkEnd_kept
    | dsimp only | split | dsimp +zetaDelta only

theorem State.takeInit_kept {q_ : List Instr} {d_ : DevState} {s : State} (h : s.Kept q_ d_) {p : Nat} {f : BulkIn} {whole : Bool} : (State.takeInit s p f whole).Kept q_ d_ := by
  unfold State.takeInit
  try dsimp only
  with_reducible repeat' first
    | assumption | apply kept_ite | apply State.setRp_kept | split | exact ⟨rfl, rfl⟩ | apply kept_update

theorem State.bulkFrame_kept {q_ : List Instr} {d_ : DevState} {s : State} (h : s.Kept q_ d_) {p : Nat} {n : Nat} {l : Lane} {f : BulkIn} {h : RxHead} : (State.bulkFrame s p n l f h).Kept q_ d_ := by
  unfold State.bulkFrame
  try lift_lets
  intros
  try clear_value cnt
  try clear_value ok
  try
    have k_s1 : s1.Kept q_ d_ := by
      dsimp only [s1]
      with_reducible repeat' first
        | assumption | apply State.takeFrame_kept
    clear_value s1
  try
    have k_s2 : s2.Kept q_ d_ := by
      dsimp only [s2]
      with_reducible repeat' first
        | assumption | apply State.setRp_kept | apply State.takeInit_kept | exact ⟨rfl, rfl⟩ | apply kept_update
    clear_value s2
  with_reducible repeat' first
    | assumption | apply kept_ite | apply State.crcBad_kept | apply State.takeFrame_kept | apply State.setRp_kept
    | apply State.takeInit_kept | apply State.takePieces_kept | dsimp only | split | dsimp +zetaDelta only | exact ⟨rfl, rfl⟩
    | apply kept_update

theorem State.outLaunch_kept {q_ : List Instr} {d_ : DevState} {s : State} (h : s.Kept q_ d_) {p : Nat} : (State.outLaunch s p).Kept q_ d_ := by
  unfold State.outLaunch
  try dsimp only
  with_reducible repeat' first
    | assumption | apply kept_ite | apply State.setRp_kept | split | exact ⟨rfl, rfl⟩ | apply kept_update

theorem State.ringCtrl_kept {q_ : List Instr} {d_ : DevState} {s : State} (h : s.Kept q_ d_) {p : Nat} {v : Word} : (State.ringCtrl s p v).Kept q_ d_ := by
  unfold State.ringCtrl
  try lift_lets
  intros
  try clear_value was
  try
    have k_s1 : s1.Kept q_ d_ := by
      dsimp only [s1]
      with_reducible repeat' first
        | assumption | apply wr_kept
    clear_value s1
  with_reducible repeat' first
    | assumption | apply kept_ite | apply wr_kept | apply State.portDown_kept | apply State.portStart_kept | dsimp only | split
    | dsimp +zetaDelta only

theorem State.ringRefused_kept {q_ : List Instr} {d_ : DevState} {s : State} (h : s.Kept q_ d_) {p : Nat} : (State.ringRefused s p).Kept q_ d_ := by
  unfold State.ringRefused
  try dsimp only
  with_reducible repeat' first
    | assumption | apply State.setBit_kept | apply State.event_kept

theorem State.ringReady_kept {q_ : List Instr} {d_ : DevState} {s : State} (h : s.Kept q_ d_) : (State.ringReady s).Kept q_ d_ := by
  unfold State.ringReady
  try dsimp only
  with_reducible repeat' first
    | assumption | intro _ | apply forUpTo_kept | apply State.openLanes_kept | dsimp only

theorem State.ringClose_kept {q_ : List Instr} {d_ : DevState} {s : State} (h : s.Kept q_ d_) : (State.ringClose s).Kept q_ d_ := by
  unfold State.ringClose
  try dsimp only
  with_reducible repeat' first
    | assumption | intro _ | apply forUpTo_kept | apply State.bypass_kept | dsimp only

end Sys2Proof.Machine
end

