-- ==== Sys2Proof/Laws/Kept/Feedback.lean ====
section
/-! SUPPORT. The operations of Machine/Feedback.lean keep the canonical form and the queue. -/

namespace Sys2Proof.Machine

set_option tactic.hygienic false
set_option linter.unusedTactic false
set_option linter.unreachableTactic false
set_option linter.unusedVariables false

theorem State.setEncRt_kept {q_ : List Instr} {d_ : DevState} {s : State} (h : s.Kept q_ d_) {e : Nat} {x : EncRt} : (State.setEncRt s e x).Kept q_ d_ := by
  unfold State.setEncRt
  try dsimp only
  with_reducible repeat' first
    | assumption | intro _ | dsimp only | exact ⟨rfl, rfl⟩ | apply kept_update

theorem State.setHallRt_kept {q_ : List Instr} {d_ : DevState} {s : State} (h : s.Kept q_ d_) {h : Nat} {x : HallRt} : (State.setHallRt s h x).Kept q_ d_ := by
  unfold State.setHallRt
  try dsimp only
  with_reducible repeat' first
    | assumption | intro _ | dsimp only | exact ⟨rfl, rfl⟩ | apply kept_update

theorem State.setSsiRt_kept {q_ : List Instr} {d_ : DevState} {s : State} (h : s.Kept q_ d_) {c : Nat} {x : SsiRt} : (State.setSsiRt s c x).Kept q_ d_ := by
  unfold State.setSsiRt
  try dsimp only
  with_reducible repeat' first
    | assumption | intro _ | dsimp only | exact ⟨rfl, rfl⟩ | apply kept_update

theorem State.setLaxRt_kept {q_ : List Instr} {d_ : DevState} {s : State} (h : s.Kept q_ d_) {n : Nat} {x : LaxRt} : (State.setLaxRt s n x).Kept q_ d_ := by
  unfold State.setLaxRt
  try dsimp only
  with_reducible repeat' first
    | assumption | intro _ | dsimp only | exact ⟨rfl, rfl⟩ | apply kept_update

theorem State.laxCompare_kept {q_ : List Instr} {d_ : DevState} {s : State} (h : s.Kept q_ d_) {n : Nat} {x0 : Int} {x1 : Int} {t : Nat} : (State.laxCompare s n x0 x1 t).Kept q_ d_ := by
  unfold State.laxCompare
  try dsimp only
  with_reducible repeat' first
    | assumption | apply kept_ite | apply State.compareSpan_kept | split

theorem State.openSample_kept {q_ : List Instr} {d_ : DevState} {s : State} (h : s.Kept q_ d_) {n : Nat} : (State.openSample s n).Kept q_ d_ := by
  unfold State.openSample
  try dsimp only
  with_reducible repeat' first
    | assumption | apply State.setLaxRt_kept | exact ⟨rfl, rfl⟩ | apply kept_update

theorem State.laxSpeed_kept {q_ : List Instr} {d_ : DevState} {s : State} (h : s.Kept q_ d_) {n : Nat} {ext : Int} {x : EdgeRt} : (State.laxSpeed s n ext x).2.Kept q_ d_ := by
  unfold State.laxSpeed
  try lift_lets
  intros
  try clear_value tb
  try clear_value vp
  try clear_value m
  try clear_value changed
  try
    have k_s1 : s1.Kept q_ d_ := by
      dsimp only [s1]
      with_reducible repeat' first
        | assumption | apply State.setLaxRt_kept | apply State.setFld_kept | exact ⟨rfl, rfl⟩ | apply kept_update
    clear_value s1
  try
    have k_s2 : s2.Kept q_ d_ := by
      dsimp only [s2]
      with_reducible repeat' first
        | assumption | apply kept_ite | apply State.inc_kept | split
    clear_value s2
  with_reducible repeat' first
    | assumption | apply kept_ite | apply State.setLaxRt_kept | apply State.setFld_kept | apply State.inc_kept
    | apply State.wrI64_kept | dsimp only | split | dsimp +zetaDelta only | exact ⟨rfl, rfl⟩ | apply kept_update

theorem State.laxGood_kept {q_ : List Instr} {d_ : DevState} {s : State} (h : s.Kept q_ d_) {n : Nat} {e : EdgeRt} : (State.laxGood s n e).Kept q_ d_ := by
  unfold State.laxGood
  try lift_lets
  intros
  try clear_value r
  try clear_value ext
  try clear_value v
  try clear_value idx
  try clear_value fault
  try
    have k_x : x.Kept q_ d_ := by
      dsimp only [x]
      with_reducible repeat' first
        | assumption
    clear_value x
  try
    have k_s1 : s1.Kept q_ d_ := by
      dsimp only [s1]
      with_reducible repeat' first
        | assumption | apply State.laxSpeed_kept | dsimp +zetaDelta only
    clear_value s1
  try
    have k_st : st.Kept q_ d_ := by
      dsimp only [st]
      with_reducible repeat' first
        | assumption
    clear_value st
  try
    have k_s2 : s2.Kept q_ d_ := by
      dsimp only [s2]
      with_reducible repeat' first
        | assumption | apply State.setCellI_kept | apply State.setCell_kept
    clear_value s2
  try
    have k_s3 : s3.Kept q_ d_ := by
      dsimp only [s3]
      with_reducible repeat' first
        | assumption | apply State.setCellI_kept | apply State.setCell_kept | split
    clear_value s3
  with_reducible repeat' first
    | assumption | apply State.laxSpeed_kept | apply State.setCellI_kept | apply State.setCell_kept | apply State.setLaxRt_kept
    | apply State.setBit_kept | dsimp only | split | dsimp +zetaDelta only | exact ⟨rfl, rfl⟩ | apply kept_update

theorem State.laxBad_kept {q_ : List Instr} {d_ : DevState} {s : State} (h : s.Kept q_ d_) {n : Nat} : (State.laxBad s n).Kept q_ d_ := by
  unfold State.laxBad
  try lift_lets
  intros
  try clear_value r
  try clear_value m
  try
    have k_s0 : s0.Kept q_ d_ := by
      dsimp only [s0]
      with_reducible repeat' first
        | assumption | apply State.laxSpeed_kept | dsimp +zetaDelta only
    clear_value s0
  try
    have k_s1 : s1.Kept q_ d_ := by
      dsimp only [s1]
      with_reducible repeat' first
        | assumption | apply State.copyCell_kept
    clear_value s1
  try
    have k_s2 : s2.Kept q_ d_ := by
      dsimp only [s2]
      with_reducible repeat' first
        | assumption | apply State.setCell_kept
    clear_value s2
  try
    have k_s3 : s3.Kept q_ d_ := by
      dsimp only [s3]
      with_reducible repeat' first
        | assumption | apply State.setCell_kept | apply State.setLaxRt_kept | exact ⟨rfl, rfl⟩ | apply kept_update
    clear_value s3
  with_reducible repeat' first
    | assumption | apply State.laxSpeed_kept | apply State.copyCell_kept | apply State.setCell_kept | apply State.setLaxRt_kept
    | apply State.setBit_kept | apply State.inc_kept | apply State.event_kept | dsimp only | dsimp +zetaDelta only
    | exact ⟨rfl, rfl⟩ | apply kept_update

theorem State.laxGather_kept {q_ : List Instr} {d_ : DevState} {s : State} (h : s.Kept q_ d_) {n : Nat} : (State.laxGather s n).Kept q_ d_ := by
  unfold State.laxGather
  try dsimp only
  with_reducible repeat' first
    | assumption | apply kept_ite | apply State.laxGood_kept | apply State.laxBad_kept | split

theorem State.laxLatch_kept {q_ : List Instr} {d_ : DevState} {s : State} (h : s.Kept q_ d_) {n : Nat} : (State.laxLatch s n).Kept q_ d_ := by
  unfold State.laxLatch
  try dsimp only
  with_reducible repeat' first
    | assumption | apply State.laxSpeed_kept

theorem State.resample_kept {q_ : List Instr} {d_ : DevState} {s : State} (h : s.Kept q_ d_) {n : Nat} : (State.resample s n).Kept q_ d_ := by
  unfold State.resample
  try lift_lets
  intros
  try clear_value e
  with_reducible repeat' first
    | assumption | apply kept_ite | apply State.laxGood_kept | apply State.laxSpeed_kept | dsimp only | split
    | dsimp +zetaDelta only

theorem State.judgeLocal_kept {q_ : List Instr} {d_ : DevState} {s : State} (h : s.Kept q_ d_) {n : Nat} : (State.judgeLocal s n).Kept q_ d_ := by
  unfold State.judgeLocal
  try lift_lets
  intros
  with_reducible repeat' first
    | assumption | intro _ | apply kept_ite | apply forUpTo_kept | apply State.judgeArmed_kept | dsimp only | split
    | dsimp +zetaDelta only

theorem State.lateCount_kept {q_ : List Instr} {d_ : DevState} {s : State} (h : s.Kept q_ d_) {e : Nat} : (State.lateCount s e).Kept q_ d_ := by
  unfold State.lateCount
  try lift_lets
  intros
  try
    have k_s1 : s1.Kept q_ d_ := by
      dsimp only [s1]
      with_reducible repeat' first
        | assumption | intro _ | apply kept_ite | dsimp only | split | exact ⟨rfl, rfl⟩ | apply kept_update
    clear_value s1
  with_reducible repeat' first
    | assumption | intro _ | apply kept_ite | apply forEach_kept | apply State.resample_kept | dsimp only | split
    | dsimp +zetaDelta only | exact ⟨rfl, rfl⟩ | apply kept_update

theorem State.encCount_kept {q_ : List Instr} {d_ : DevState} {s : State} (h : s.Kept q_ d_) {e : Nat} {d : Int} {t : Nat} : (State.encCount s e d t).Kept q_ d_ := by
  unfold State.encCount
  try lift_lets
  intros
  try clear_value c0
  try clear_value c
  try
    have k_x : x.Kept q_ d_ := by
      dsimp only [x]
      with_reducible repeat' first
        | assumption
    clear_value x
  try
    have k_s1 : s1.Kept q_ d_ := by
      dsimp only [s1]
      with_reducible repeat' first
        | assumption | apply State.wrI64_kept | apply State.setEncRt_kept | exact ⟨rfl, rfl⟩ | apply kept_update
    clear_value s1
  with_reducible repeat' first
    | assumption | intro _ | apply forEach_kept | apply when_kept | apply State.wrI64_kept | apply State.setEncRt_kept
    | apply State.laxCompare_kept | apply State.lateCount_kept | dsimp only | dsimp +zetaDelta only | exact ⟨rfl, rfl⟩
    | apply kept_update

theorem State.qerr_kept {q_ : List Instr} {d_ : DevState} {s : State} (h : s.Kept q_ d_) {e : Nat} : (State.qerr s e).Kept q_ d_ := by
  unfold State.qerr
  try dsimp only
  with_reducible repeat' first
    | assumption | apply State.setBit_kept | apply State.inc_kept | apply State.setEncRt_kept | apply State.event_kept
    | exact ⟨rfl, rfl⟩ | apply kept_update

theorem State.encoderEdge_kept {q_ : List Instr} {d_ : DevState} {s : State} (h : s.Kept q_ d_) {e : Nat} {a : Bool} {b : Bool} {t : Nat} : (State.encoderEdge s e a b t).Kept q_ d_ := by
  unfold State.encoderEdge
  try lift_lets
  intros
  try clear_value a0
  try clear_value b0
  try
    have k_s1 : s1.Kept q_ d_ := by
      dsimp only [s1]
      with_reducible repeat' first
        | assumption | apply State.setBit_kept
    clear_value s1
  with_reducible repeat' first
    | assumption | apply kept_ite | apply State.setBit_kept | apply State.qerr_kept | apply State.encCount_kept | dsimp only
    | split | dsimp +zetaDelta only

theorem State.idxDev_kept {q_ : List Instr} {d_ : DevState} {s : State} (h : s.Kept q_ d_) {e : Nat} : (State.idxDev s e).Kept q_ d_ := by
  unfold State.idxDev
  try lift_lets
  intros
  try
    have k_s1 : s1.Kept q_ d_ := by
      dsimp only [s1]
      with_reducible repeat' first
        | assumption | apply State.setBit_kept | apply State.inc_kept | apply State.setEncRt_kept | apply State.alarm_kept
        | exact ⟨rfl, rfl⟩ | apply kept_update
    clear_value s1
  with_reducible repeat' first
    | assumption | intro _ | apply forEach_kept | apply State.setBit_kept | apply State.inc_kept | apply State.setEncRt_kept
    | apply State.alarm_kept | dsimp only | dsimp +zetaDelta only | exact ⟨rfl, rfl⟩ | apply kept_update

theorem State.idxCheck_kept {q_ : List Instr} {d_ : DevState} {s : State} (h : s.Kept q_ d_) {e : Nat} {c : Int} : (State.idxCheck s e c).Kept q_ d_ := by
  unfold State.idxCheck
  try lift_lets
  intros
  try clear_value P
  try clear_value dev
  try clear_value bad
  try
    have k_s1 : s1.Kept q_ d_ := by
      dsimp only [s1]
      with_reducible repeat' first
        | assumption | apply State.wrI_kept | apply State.setEncRt_kept | exact ⟨rfl, rfl⟩ | apply kept_update
    clear_value s1
  with_reducible repeat' first
    | assumption | apply kept_ite | apply State.wrI_kept | apply State.setEncRt_kept | apply State.idxDev_kept | dsimp only
    | split | dsimp +zetaDelta only | exact ⟨rfl, rfl⟩ | apply kept_update

theorem State.firstLatch_kept {q_ : List Instr} {d_ : DevState} {s : State} (h : s.Kept q_ d_) {e : Nat} {c : Int} {t : Nat} : (State.firstLatch s e c t).Kept q_ d_ := by
  unfold State.firstLatch
  try lift_lets
  intros
  try
    have k_x : x.Kept q_ d_ := by
      dsimp only [x]
      with_reducible repeat' first
        | assumption
    clear_value x
  with_reducible repeat' first
    | assumption | intro _ | apply kept_ite | apply forEach_kept | apply State.setLaxRt_kept | apply State.resample_kept
    | apply State.setEncRt_kept | dsimp only | split | dsimp +zetaDelta only | exact ⟨rfl, rfl⟩ | apply kept_update

theorem State.indexEdge_kept {q_ : List Instr} {d_ : DevState} {s : State} (h : s.Kept q_ d_) {e : Nat} {z : Bool} {t : Nat} : (State.indexEdge s e z t).Kept q_ d_ := by
  unfold State.indexEdge
  try lift_lets
  intros
  try clear_value inv
  try clear_value rising
  try clear_value gate
  try clear_value c
  try
    have k_s1 : s1.Kept q_ d_ := by
      dsimp only [s1]
      with_reducible repeat' first
        | assumption | apply State.setBit_kept
    clear_value s1
  try
    have k_s2 : s2.Kept q_ d_ := by
      dsimp only [s2]
      with_reducible repeat' first
        | assumption | apply State.wrI64_kept | apply State.idxCheck_kept
    clear_value s2
  with_reducible repeat' first
    | assumption | apply kept_ite | apply State.setBit_kept | apply State.wrI64_kept | apply State.idxCheck_kept
    | apply State.setEncRt_kept | apply State.firstLatch_kept | dsimp only | split | dsimp +zetaDelta only | exact ⟨rfl, rfl⟩
    | apply kept_update

theorem State.wireFault_kept {q_ : List Instr} {d_ : DevState} {s : State} (h : s.Kept q_ d_) {e : Nat} : (State.wireFault s e).Kept q_ d_ := by
  unfold State.wireFault
  try lift_lets
  intros
  try
    have k_s1 : s1.Kept q_ d_ := by
      dsimp only [s1]
      with_reducible repeat' first
        | assumption | apply State.setEncRt_kept | apply State.setBit_kept | apply State.inc_kept | apply State.alarm_kept
        | exact ⟨rfl, rfl⟩ | apply kept_update
    clear_value s1
  with_reducible repeat' first
    | assumption | intro _ | apply forEach_kept | apply State.setEncRt_kept | apply State.setBit_kept | apply State.inc_kept
    | apply State.alarm_kept | dsimp only | dsimp +zetaDelta only | exact ⟨rfl, rfl⟩ | apply kept_update

theorem State.lineFault_kept {q_ : List Instr} {d_ : DevState} {s : State} (h : s.Kept q_ d_) {e : Nat} {line : Nat} {present : Bool} : (State.lineFault s e line present).Kept q_ d_ := by
  unfold State.lineFault
  try lift_lets
  intros
  try
    have k_x : x.Kept q_ d_ := by
      dsimp only [x]
      with_reducible repeat' first
        | assumption
    clear_value x
  try
    have k_s1 : s1.Kept q_ d_ := by
      dsimp only [s1]
      with_reducible repeat' first
        | assumption | apply State.setEncRt_kept | exact ⟨rfl, rfl⟩ | apply kept_update
    clear_value s1
  with_reducible repeat' first
    | assumption | apply kept_ite | apply State.setEncRt_kept | apply State.wireFault_kept | dsimp only | split
    | dsimp +zetaDelta only | exact ⟨rfl, rfl⟩ | apply kept_update

theorem State.hallErr_kept {q_ : List Instr} {d_ : DevState} {s : State} (h : s.Kept q_ d_) {h : Nat} : (State.hallErr s h).Kept q_ d_ := by
  unfold State.hallErr
  try dsimp only
  with_reducible repeat' first
    | assumption | apply State.setBit_kept | apply State.setHallRt_kept | apply State.event_kept | exact ⟨rfl, rfl⟩
    | apply kept_update

theorem State.hallTransition_kept {q_ : List Instr} {d_ : DevState} {s : State} (h : s.Kept q_ d_) {h : Nat} {code : Nat} {t : Nat} : (State.hallTransition s h code t).Kept q_ d_ := by
  unfold State.hallTransition
  try lift_lets
  intros
  try clear_value d0
  try clear_value skip
  try clear_value err
  try clear_value d
  try clear_value c
  try
    have k_s1 : s1.Kept q_ d_ := by
      dsimp only [s1]
      with_reducible repeat' first
        | assumption | apply State.setFld_kept
    clear_value s1
  try
    have k_x : x.Kept q_ d_ := by
      dsimp only [x]
      with_reducible repeat' first
        | assumption
    clear_value x
  try
    have k_s2 : s2.Kept q_ d_ := by
      dsimp only [s2]
      with_reducible repeat' first
        | assumption | apply State.setFld_kept
    clear_value s2
  try
    have k_s3 : s3.Kept q_ d_ := by
      dsimp only [s3]
      with_reducible repeat' first
        | assumption | apply kept_ite | apply State.setHallRt_kept | split
    clear_value s3
  try
    have k_s4 : s4.Kept q_ d_ := by
      dsimp only [s4]
      with_reducible repeat' first
        | assumption | apply kept_ite | apply State.setBit_kept | split
    clear_value s4
  try
    have k_s5 : s5.Kept q_ d_ := by
      dsimp only [s5]
      with_reducible repeat' first
        | assumption | apply kept_ite | apply State.hallErr_kept | split
    clear_value s5
  try
    have k_s6 : s6.Kept q_ d_ := by
      dsimp only [s6]
      with_reducible repeat' first
        | assumption | intro _ | apply forEach_kept | apply State.laxCompare_kept | dsimp only
    clear_value s6
  with_reducible repeat' first
    | assumption | intro _ | apply kept_ite | apply forEach_kept | apply when_kept | apply State.setFld_kept
    | apply State.hallErr_kept | apply State.inc_kept | apply State.setHallRt_kept | apply State.setBit_kept
    | apply State.laxCompare_kept | apply State.resample_kept | dsimp only | split | dsimp +zetaDelta only | exact ⟨rfl, rfl⟩
    | apply kept_update

theorem State.ssiBad_kept {q_ : List Instr} {d_ : DevState} {s : State} (h : s.Kept q_ d_) {c : Nat} {cause : Nat} : (State.ssiBad s c cause).Kept q_ d_ := by
  unfold State.ssiBad
  try dsimp only
  with_reducible repeat' first
    | assumption | apply State.setFld_kept | apply State.inc_kept | apply State.setSsiRt_kept | apply State.event_kept
    | exact ⟨rfl, rfl⟩ | apply kept_update

theorem State.ssiGood_kept {q_ : List Instr} {d_ : DevState} {s : State} (h : s.Kept q_ d_) {c : Nat} {raw : Nat} : (State.ssiGood s c raw).Kept q_ d_ := by
  unfold State.ssiGood
  try lift_lets
  intros
  try clear_value w
  try clear_value ext
  try
    have k_x : x.Kept q_ d_ := by
      dsimp only [x]
      with_reducible repeat' first
        | assumption
    clear_value x
  with_reducible repeat' first
    | assumption | apply kept_ite | apply State.setSsiRt_kept | dsimp only | split | dsimp +zetaDelta only | exact ⟨rfl, rfl⟩
    | apply kept_update

theorem State.ssiDone_kept {q_ : List Instr} {d_ : DevState} {s : State} (h : s.Kept q_ d_) {c : Nat} {data : Nat} {extra : Nat} {idleHigh : Bool} {mono : Bool} : (State.ssiDone s c data extra idleHigh mono).Kept q_ d_ := by
  unfold State.ssiDone
  try lift_lets
  intros
  try clear_value w
  try clear_value d
  try clear_value raw
  try clear_value cause
  try
    have k_s1 : s1.Kept q_ d_ := by
      dsimp only [s1]
      with_reducible repeat' first
        | assumption | apply State.wr64_kept
    clear_value s1
  try
    have k_x0 : x0.Kept q_ d_ := by
      dsimp only [x0]
      with_reducible repeat' first
        | assumption
    clear_value x0
  try
    have k_s2 : s2.Kept q_ d_ := by
      dsimp only [s2]
      with_reducible repeat' first
        | assumption | apply kept_ite | apply State.ssiGood_kept | apply State.ssiBad_kept | split
    clear_value s2
  try
    have k_s3 : s3.Kept q_ d_ := by
      dsimp only [s3]
      with_reducible repeat' first
        | assumption | intro _ | apply forEach_kept | apply State.laxCompare_kept | dsimp only
    clear_value s3
  with_reducible repeat' first
    | assumption | intro _ | apply kept_ite | apply forEach_kept | apply State.wr64_kept | apply State.ssiGood_kept
    | apply State.ssiBad_kept | apply State.laxCompare_kept | apply State.laxGather_kept | apply State.laxLatch_kept | dsimp only
    | split | dsimp +zetaDelta only

theorem State.ssiDeadline_kept {q_ : List Instr} {d_ : DevState} {s : State} (h : s.Kept q_ d_) : (State.ssiDeadline s).Kept q_ d_ := by
  unfold State.ssiDeadline
  try dsimp only
  with_reducible repeat' first
    | assumption | intro _ | apply kept_ite | apply forUpTo_kept | apply forEach_kept | apply State.laxGather_kept
    | apply State.ssiBad_kept | dsimp only | split

theorem State.schedule_kept {q_ : List Instr} {d_ : DevState} {s : State} (h : s.Kept q_ d_) {n : Nat} {N : Int} : (State.schedule s n N).Kept q_ d_ := by
  unfold State.schedule
  try lift_lets
  intros
  try clear_value tb
  try clear_value setup
  try clear_value cnt
  try
    have k_x : x.Kept q_ d_ := by
      dsimp only [x]
      with_reducible repeat' first
        | assumption
    clear_value x
  with_reducible repeat' first
    | assumption | intro _ | apply kept_ite | apply State.setLaxRt_kept | dsimp only | split | dsimp +zetaDelta only

theorem State.stepRun_kept {q_ : List Instr} {d_ : DevState} {s : State} (h : s.Kept q_ d_) {n : Nat} {w1 : Int} : (State.stepRun s n w1).Kept q_ d_ := by
  unfold State.stepRun
  try lift_lets
  intros
  try clear_value d
  try clear_value m
  try clear_value N
  try
    have k_x : x.Kept q_ d_ := by
      dsimp only [x]
      with_reducible repeat' first
        | assumption
    clear_value x
  try
    have k_s1 : s1.Kept q_ d_ := by
      dsimp only [s1]
      with_reducible repeat' first
        | assumption | apply State.setLaxRt_kept | apply State.wrI_kept | exact ⟨rfl, rfl⟩ | apply kept_update
    clear_value s1
  try
    have k_s2 : s2.Kept q_ d_ := by
      dsimp only [s2]
      with_reducible repeat' first
        | assumption | apply kept_ite | apply State.setBit_kept | apply State.inc_kept | apply State.event_kept | split
    clear_value s2
  with_reducible repeat' first
    | assumption | apply kept_ite | apply State.setLaxRt_kept | apply State.wrI_kept | apply State.setBit_kept
    | apply State.inc_kept | apply State.event_kept | apply State.schedule_kept | dsimp only | split | dsimp +zetaDelta only
    | exact ⟨rfl, rfl⟩ | apply kept_update

theorem State.stepRamp_kept {q_ : List Instr} {d_ : DevState} {s : State} (h : s.Kept q_ d_) {n : Nat} : (State.stepRamp s n).Kept q_ d_ := by
  unfold State.stepRamp
  try lift_lets
  intros
  try clear_value r
  try
    have k_x : x.Kept q_ d_ := by
      dsimp only [x]
      with_reducible repeat' first
        | assumption
    clear_value x
  with_reducible repeat' first
    | assumption | apply State.setLaxRt_kept | apply State.schedule_kept | dsimp only | dsimp +zetaDelta only | exact ⟨rfl, rfl⟩
    | apply kept_update

theorem State.stepAxis_kept {q_ : List Instr} {d_ : DevState} {s : State} (h : s.Kept q_ d_) {n : Nat} : (State.stepAxis s n).Kept q_ d_ := by
  unfold State.stepAxis
  try lift_lets
  intros
  try
    have k_x : x.Kept q_ d_ := by
      dsimp only [x]
      with_reducible repeat' first
        | assumption
    clear_value x
  try
    have k_s0 : s0.Kept q_ d_ := by
      dsimp only [s0]
      with_reducible repeat' first
        | assumption | apply State.setLaxRt_kept | exact ⟨rfl, rfl⟩ | apply kept_update
    clear_value s0
  try
    have k_s1 : s1.Kept q_ d_ := by
      dsimp only [s1]
      with_reducible repeat' first
        | assumption | apply State.setBit_kept
    clear_value s1
  with_reducible repeat' first
    | assumption | apply kept_ite | apply State.setLaxRt_kept | apply State.schedule_kept | apply State.setBit_kept
    | apply State.stepRun_kept | apply State.stepRamp_kept | dsimp only | split | dsimp +zetaDelta only | exact ⟨rfl, rfl⟩
    | apply kept_update

theorem State.pulse_kept {q_ : List Instr} {d_ : DevState} {s : State} (h : s.Kept q_ d_) {n : Nat} : (State.pulse s n).Kept q_ d_ := by
  unfold State.pulse
  try lift_lets
  intros
  try clear_value c
  try
    have k_s1 : s1.Kept q_ d_ := by
      dsimp only [s1]
      with_reducible repeat' first
        | assumption | apply State.setLaxRt_kept | apply State.wrI64_kept | exact ⟨rfl, rfl⟩ | apply kept_update
    clear_value s1
  with_reducible repeat' first
    | assumption | apply kept_ite | apply State.setLaxRt_kept | apply State.wrI64_kept | apply State.laxCompare_kept | dsimp only
    | split | dsimp +zetaDelta only | exact ⟨rfl, rfl⟩ | apply kept_update

theorem State.stepPulse_kept {q_ : List Instr} {d_ : DevState} {s : State} (h : s.Kept q_ d_) {n : Nat} : (State.stepPulse s n).Kept q_ d_ := by
  unfold State.stepPulse
  try dsimp only
  with_reducible repeat' first
    | assumption | apply kept_ite | apply State.advance_kept | apply State.pulse_kept | split

theorem State.flushPulses_kept {q_ : List Instr} {d_ : DevState} {s : State} (h : s.Kept q_ d_) {n : Nat} : (State.flushPulses s n).Kept q_ d_ := by
  unfold State.flushPulses
  try dsimp only
  with_reducible repeat' first
    | assumption | intro _ | apply forUpTo_kept | apply State.pulse_kept | dsimp only

theorem State.stopPulses_kept {q_ : List Instr} {d_ : DevState} {s : State} (h : s.Kept q_ d_) : (State.stopPulses s).Kept q_ d_ := by
  unfold State.stopPulses
  try dsimp only
  with_reducible repeat' first
    | assumption | intro _ | dsimp only | exact ⟨rfl, rfl⟩ | apply kept_update

theorem State.latchIndex_kept {q_ : List Instr} {d_ : DevState} {s : State} (h : s.Kept q_ d_) {n : Nat} : (State.latchIndex s n).Kept q_ d_ := by
  unfold State.latchIndex
  try lift_lets
  intros
  try clear_value idx
  with_reducible repeat' first
    | assumption | intro _ | apply kept_ite | apply State.setLaxRt_kept | dsimp only | split | dsimp +zetaDelta only
    | exact ⟨rfl, rfl⟩ | apply kept_update

theorem State.latchFollow_kept {q_ : List Instr} {d_ : DevState} {s : State} (h : s.Kept q_ d_) : (State.latchFollow s).Kept q_ d_ := by
  unfold State.latchFollow
  try dsimp only
  with_reducible repeat' first
    | assumption | intro _ | dsimp only | exact ⟨rfl, rfl⟩ | apply kept_update

theorem State.laxBoundary_kept {q_ : List Instr} {d_ : DevState} {s : State} (h : s.Kept q_ d_) : (State.laxBoundary s).Kept q_ d_ := by
  unfold State.laxBoundary
  try lift_lets
  intros
  try
    have k_s1 : s1.Kept q_ d_ := by
      dsimp only [s1]
      with_reducible repeat' first
        | assumption | intro _ | apply forUpTo_kept | apply State.flushPulses_kept | dsimp only
    clear_value s1
  try
    have k_s2 : s2.Kept q_ d_ := by
      dsimp only [s2]
      with_reducible repeat' first
        | assumption | intro _ | apply forUpTo_kept | apply State.latchIndex_kept | dsimp only
    clear_value s2
  with_reducible repeat' first
    | assumption | intro _ | apply kept_ite | apply forUpTo_kept | apply State.flushPulses_kept | apply State.latchIndex_kept
    | apply State.stepAxis_kept | apply State.latchFollow_kept | dsimp only | split | dsimp +zetaDelta only

theorem State.rollChannels_kept {q_ : List Instr} {d_ : DevState} {s : State} (h : s.Kept q_ d_) : (State.rollChannels s).Kept q_ d_ := by
  unfold State.rollChannels
  try dsimp only
  with_reducible repeat' first
    | assumption | intro _ | dsimp only | exact ⟨rfl, rfl⟩ | apply kept_update

theorem State.laxSample_kept {q_ : List Instr} {d_ : DevState} {s : State} (h : s.Kept q_ d_) : (State.laxSample s).Kept q_ d_ := by
  unfold State.laxSample
  try lift_lets
  intros
  try
    have k_s1 : s1.Kept q_ d_ := by
      dsimp only [s1]
      with_reducible repeat' first
        | assumption | intro _ | apply kept_ite | apply forUpTo_kept | apply State.openSample_kept | apply State.laxGather_kept
        | apply State.judgeLocal_kept | apply State.laxLatch_kept | dsimp only | split
    clear_value s1
  try
    have k_s0 : s0.Kept q_ d_ := by
      dsimp only [s0]
      with_reducible repeat' first
        | assumption | apply State.openSample_kept
    clear_value s0
  with_reducible repeat' first
    | assumption | intro _ | apply kept_ite | apply forUpTo_kept | apply State.openSample_kept | apply State.laxGather_kept
    | apply State.judgeLocal_kept | apply State.laxLatch_kept | apply State.rollChannels_kept | dsimp only | split
    | dsimp +zetaDelta only

theorem State.encEnabled_kept {q_ : List Instr} {d_ : DevState} {s : State} (h : s.Kept q_ d_) {e : Nat} : (State.encEnabled s e).Kept q_ d_ := by
  unfold State.encEnabled
  try dsimp only
  with_reducible repeat' first
    | assumption | apply State.setEncRt_kept | exact ⟨rfl, rfl⟩ | apply kept_update

theorem State.hallEnabled_kept {q_ : List Instr} {d_ : DevState} {s : State} (h : s.Kept q_ d_) {h : Nat} : (State.hallEnabled s h).Kept q_ d_ := by
  unfold State.hallEnabled
  try lift_lets
  intros
  try clear_value code
  try
    have k_s1 : s1.Kept q_ d_ := by
      dsimp only [s1]
      with_reducible repeat' first
        | assumption | apply State.setHallRt_kept | exact ⟨rfl, rfl⟩ | apply kept_update
    clear_value s1
  with_reducible repeat' first
    | assumption | exact fun h_ => h_ | exact Tab.wf_set _ _ | exact setDram_wf | exact setAll_wf | exact dropRange_wf
    | exact Tab.wf_dropRange _ _ | exact Tab.wf_filter _ | exact Tab.wf_setAll _ | exact Memory.wf_setN _ _ _
    | exact Memory.wf_setBytes _ _ | exact Memory.wf_clear _ _ | exact Memory.wf_copy _ _ _ | exact fun _ => nil_wf
    | exact fun _ => setAll_wf nil_wf | apply State.setHallRt_kept | apply State.setFld_kept | apply State.hallErr_kept
    | apply State.inc_kept | dsimp only | split | dsimp +zetaDelta only | exact ⟨rfl, rfl⟩ | apply kept_update | apply kept_tables

theorem State.ssiEnabled_kept {q_ : List Instr} {d_ : DevState} {s : State} (h : s.Kept q_ d_) {c : Nat} : (State.ssiEnabled s c).Kept q_ d_ := by
  unfold State.ssiEnabled
  try dsimp only
  with_reducible repeat' first
    | assumption | apply State.setSsiRt_kept | exact ⟨rfl, rfl⟩ | apply kept_update

theorem State.encWritten_kept {q_ : List Instr} {d_ : DevState} {s : State} (h : s.Kept q_ d_) {e : Nat} {old : Word} : (State.encWritten s e old).Kept q_ d_ := by
  unfold State.encWritten
  try lift_lets
  intros
  try clear_value low
  try clear_value fresh
  try
    have k_s1 : s1.Kept q_ d_ := by
      dsimp only [s1]
      with_reducible repeat' first
        | assumption | intro _ | apply when_kept | apply State.encEnabled_kept | dsimp only
    clear_value s1
  with_reducible repeat' first
    | assumption | intro _ | apply when_kept | apply State.encEnabled_kept | apply State.wireFault_kept | dsimp only
    | dsimp +zetaDelta only

theorem State.fbkWritten_kept {q_ : List Instr} {d_ : DevState} {s : State} (h : s.Kept q_ d_) {a : Nat} {old : Word} : (State.fbkWritten s a old).Kept q_ d_ := by
  unfold State.fbkWritten
  try lift_lets
  intros
  try clear_value o
  try clear_value on
  with_reducible repeat' first
    | assumption | intro _ | apply kept_ite | apply when_kept | apply State.encWritten_kept | apply State.hallEnabled_kept
    | apply State.ssiEnabled_kept | dsimp only | split | dsimp +zetaDelta only

theorem State.laxBound_kept {q_ : List Instr} {d_ : DevState} {s : State} (h : s.Kept q_ d_) {n : Nat} : (State.laxBound s n).Kept q_ d_ := by
  unfold State.laxBound
  try dsimp only
  with_reducible repeat' first
    | assumption | intro _ | apply when_kept | apply State.setBit_kept | apply State.alarm_kept | dsimp only

end Sys2Proof.Machine
end

