-- ==== Sys2Proof/Laws/Kept/Eth.lean ====
section
/-! SUPPORT. The operations of Machine/Eth.lean keep the canonical form and the queue. -/

namespace Sys2Proof.Machine

set_option tactic.hygienic false
set_option linter.unusedTactic false
set_option linter.unreachableTactic false
set_option linter.unusedVariables false

theorem State.setPlant_kept {q_ : List Instr} {d_ : DevState} {s : State} (h : s.Kept q_ d_) {x : Plant} : (State.setPlant s x).Kept q_ d_ := by
  unfold State.setPlant
  try dsimp only
  with_reducible repeat' first
    | assumption | exact ⟨rfl, rfl⟩ | apply kept_update

theorem State.channelSample_kept {q_ : List Instr} {d_ : DevState} {s : State} (h : s.Kept q_ d_) {p : Nat} {ch : Nat} {x : MasterSample} : (State.channelSample s p ch x).Kept q_ d_ := by
  unfold State.channelSample
  try dsimp only
  with_reducible repeat' first
    | assumption | intro _ | apply kept_ite | apply State.inc_kept | dsimp only | split | exact ⟨rfl, rfl⟩ | apply kept_update

theorem State.mstSeq_kept {q_ : List Instr} {d_ : DevState} {s : State} (h : s.Kept q_ d_) {p : Nat} {i : Nat} {b : Nat} {f : List (BitVec 8)} : (State.mstSeq s p i b f).Kept q_ d_ := by
  unfold State.mstSeq
  try lift_lets
  intros
  try clear_value o
  try clear_value q
  try
    have k_st : st.Kept q_ d_ := by
      dsimp only [st]
      with_reducible repeat' first
        | assumption
    clear_value st
  try
    have k_s1 : s1.Kept q_ d_ := by
      dsimp only [s1]
      with_reducible repeat' first
        | assumption | apply kept_ite | apply State.inc_kept | split
    clear_value s1
  with_reducible repeat' first
    | assumption | apply kept_ite | apply State.inc_kept | apply State.setFld_kept | dsimp only | split | dsimp +zetaDelta only

theorem State.mstSample_kept {q_ : List Instr} {d_ : DevState} {s : State} (h : s.Kept q_ d_) {p : Nat} {i : Nat} {b : Nat} {f : List (BitVec 8)} {stamp : Nat} : (State.mstSample s p i b f stamp).Kept q_ d_ := by
  unfold State.mstSample
  try lift_lets
  intros
  try clear_value pos
  try clear_value theta
  try clear_value omega
  try
    have k_t : t.Kept q_ d_ := by
      dsimp only [t]
      with_reducible repeat' first
        | assumption
    clear_value t
  try
    have k_s2 : s2.Kept q_ d_ := by
      dsimp only [s2]
      with_reducible repeat' first
        | assumption | apply State.mstSeq_kept | apply State.setBit_kept
    clear_value s2
  try
    have k_s3 : s3.Kept q_ d_ := by
      dsimp only [s3]
      with_reducible repeat' first
        | assumption | intro _ | apply State.setPlant_kept | dsimp only | exact ⟨rfl, rfl⟩ | apply kept_update
    clear_value s3
  with_reducible repeat' first
    | assumption | intro _ | apply kept_ite | apply State.inc_kept | apply State.setBit_kept | apply State.event_kept
    | apply State.mstSeq_kept | apply State.setPlant_kept | apply State.channelSample_kept | dsimp only | split
    | dsimp +zetaDelta only | exact ⟨rfl, rfl⟩ | apply kept_update

theorem State.mstStart_kept {q_ : List Instr} {d_ : DevState} {s : State} (h : s.Kept q_ d_) {old : State} {p : Nat} {i : Nat} : (State.mstStart s old p i).Kept q_ d_ := by
  unfold State.mstStart
  try lift_lets
  intros
  try clear_value ch
  try
    have k_s1 : s1.Kept q_ d_ := by
      dsimp only [s1]
      with_reducible repeat' first
        | assumption | intro _ | apply State.setPlant_kept | apply State.setBit_kept | dsimp only | exact ⟨rfl, rfl⟩
        | apply kept_update
    clear_value s1
  with_reducible repeat' first
    | assumption | intro _ | apply kept_ite | apply State.setPlant_kept | apply State.setBit_kept | dsimp only | split
    | dsimp +zetaDelta only | exact ⟨rfl, rfl⟩ | apply kept_update

theorem State.mstStarts_kept {q_ : List Instr} {d_ : DevState} {s : State} (h : s.Kept q_ d_) {old : State} : (State.mstStarts s old).Kept q_ d_ := by
  unfold State.mstStarts
  try dsimp only
  with_reducible repeat' first
    | assumption | intro _ | apply kept_ite | apply forUpTo_kept | apply State.mstStart_kept | dsimp only | split

theorem State.storeBytes_kept {q_ : List Instr} {d_ : DevState} {s : State} (h : s.Kept q_ d_) {a : Nat} {l : List (BitVec 8)} : (State.storeBytes s a l).Kept q_ d_ := by
  unfold State.storeBytes
  try dsimp only
  with_reducible repeat' first
    | assumption | intro _ | apply forEach_kept | apply State.storeCell_kept | dsimp only

theorem State.rxPlace_kept {q_ : List Instr} {d_ : DevState} {s : State} (h : s.Kept q_ d_) {p : Nat} {q : Nat} {f : List (BitVec 8)} {t : Int} {copied : Bool} : (State.rxPlace s p q f t copied).Kept q_ d_ := by
  unfold State.rxPlace
  try lift_lets
  intros
  try clear_value h
  try clear_value d
  try
    have k_s1 : s1.Kept q_ d_ := by
      dsimp only [s1]
      with_reducible repeat' first
        | assumption | apply State.storeBytes_kept
    clear_value s1
  try
    have k_s2 : s2.Kept q_ d_ := by
      dsimp only [s2]
      with_reducible repeat' first
        | assumption | apply kept_ite | apply State.storeCell_kept | split
    clear_value s2
  with_reducible repeat' first
    | assumption | apply kept_ite | apply State.inc_kept | apply State.setBit_kept | apply State.event_kept
    | apply State.storeBytes_kept | apply State.storeCell_kept | apply State.setFld_kept | dsimp only | split
    | dsimp +zetaDelta only

theorem State.ethRx_kept {q_ : List Instr} {d_ : DevState} {s : State} (h : s.Kept q_ d_) {p : Nat} {x : EthFrame} : (State.ethRx s p x).Kept q_ d_ := by
  unfold State.ethRx
  try lift_lets
  intros
  try clear_value hits
  try clear_value copy
  try
    have k_t : t.Kept q_ d_ := by
      dsimp only [t]
      with_reducible repeat' first
        | assumption
    clear_value t
  try
    have k_s1 : s1.Kept q_ d_ := by
      dsimp only [s1]
      with_reducible repeat' first
        | assumption | intro _ | apply forEach_kept | apply State.mstSample_kept | apply State.inc_kept | dsimp only
    clear_value s1
  with_reducible repeat' first
    | assumption | intro _ | apply kept_ite | apply forEach_kept | apply State.inc_kept | apply State.mstSample_kept
    | apply State.rxPlace_kept | dsimp only | split | dsimp +zetaDelta only

theorem State.txStart_kept {q_ : List Instr} {d_ : DevState} {s : State} (h : s.Kept q_ d_) {p : Nat} : (State.txStart s p).Kept q_ d_ := by
  unfold State.txStart
  try dsimp only
  with_reducible repeat' first
    | assumption | apply kept_ite | apply State.setPlant_kept | split | exact ⟨rfl, rfl⟩ | apply kept_update

theorem State.txReturn_kept {q_ : List Instr} {d_ : DevState} {s : State} (h : s.Kept q_ d_) {p : Nat} {q : Nat} {status : Nat} : (State.txReturn s p q status).Kept q_ d_ := by
  unfold State.txReturn
  try lift_lets
  intros
  try clear_value d
  try
    have k_s1 : s1.Kept q_ d_ := by
      dsimp only [s1]
      with_reducible repeat' first
        | assumption | apply State.storeCell_kept
    clear_value s1
  with_reducible repeat' first
    | assumption | intro _ | apply State.storeCell_kept | apply State.setFld_kept | apply State.setPlant_kept | dsimp only
    | dsimp +zetaDelta only | exact ⟨rfl, rfl⟩ | apply kept_update

theorem State.txLate_kept {q_ : List Instr} {d_ : DevState} {s : State} (h : s.Kept q_ d_) {p : Nat} {q : Nat} {status : Nat} : (State.txLate s p q status).Kept q_ d_ := by
  unfold State.txLate
  try dsimp only
  with_reducible repeat' first
    | assumption | apply State.txReturn_kept | apply State.inc_kept | apply State.event_kept

theorem State.txJudge_kept {q_ : List Instr} {d_ : DevState} {s : State} (h : s.Kept q_ d_) {p : Nat} {q : Nat} : (State.txJudge s p q).Kept q_ d_ := by
  unfold State.txJudge
  try dsimp only
  with_reducible repeat' first
    | assumption | apply kept_ite | apply State.txLate_kept | split

theorem State.txJudgeAll_kept {q_ : List Instr} {d_ : DevState} {s : State} (h : s.Kept q_ d_) {p : Nat} {q : Nat} : (State.txJudgeAll s p q).Kept q_ d_ := by
  unfold State.txJudgeAll
  try dsimp only
  with_reducible repeat' first
    | assumption | intro _ | apply forUpTo_kept | apply State.txJudge_kept | dsimp only

theorem State.ethEnabled_kept {q_ : List Instr} {d_ : DevState} {s : State} (h : s.Kept q_ d_) {p : Nat} : (State.ethEnabled s p).Kept q_ d_ := by
  unfold State.ethEnabled
  try lift_lets
  intros
  try
    have k_s1 : s1.Kept q_ d_ := by
      dsimp only [s1]
      with_reducible repeat' first
        | assumption | intro _ | apply State.setPlant_kept | dsimp only | exact ⟨rfl, rfl⟩ | apply kept_update
    clear_value s1
  with_reducible repeat' first
    | assumption | intro _ | apply kept_ite | apply forUpTo_kept | apply State.setPlant_kept | apply State.txJudgeAll_kept
    | apply State.txStart_kept | dsimp only | split | dsimp +zetaDelta only | exact ⟨rfl, rfl⟩ | apply kept_update

theorem State.txTail_kept {q_ : List Instr} {d_ : DevState} {s : State} (h : s.Kept q_ d_) {p : Nat} {q : Nat} {v : Word} : (State.txTail s p q v).Kept q_ d_ := by
  unfold State.txTail
  try lift_lets
  intros
  try
    have k_s1 : s1.Kept q_ d_ := by
      dsimp only [s1]
      with_reducible repeat' first
        | assumption | apply State.wrN_kept
    clear_value s1
  with_reducible repeat' first
    | assumption | apply kept_ite | apply State.wrN_kept | apply State.txJudgeAll_kept | apply State.txStart_kept | dsimp only
    | split | dsimp +zetaDelta only

theorem State.launchReached_kept {q_ : List Instr} {d_ : DevState} {s : State} (h : s.Kept q_ d_) {p : Nat} {q : Nat} : (State.launchReached s p q).Kept q_ d_ := by
  unfold State.launchReached
  try lift_lets
  intros
  try clear_value beaten
  try
    have k_t : t.Kept q_ d_ := by
      dsimp only [t]
      with_reducible repeat' first
        | assumption
    clear_value t
  try
    have k_s1 : s1.Kept q_ d_ := by
      dsimp only [s1]
      with_reducible repeat' first
        | assumption | apply State.advance_kept
    clear_value s1
  with_reducible repeat' first
    | assumption | intro _ | apply kept_ite | apply State.advance_kept | apply State.txLate_kept | apply State.txJudgeAll_kept
    | apply State.txStart_kept | apply State.setPlant_kept | dsimp only | split | dsimp +zetaDelta only | exact ⟨rfl, rfl⟩
    | apply kept_update

theorem State.putStamp_kept {q_ : List Instr} {d_ : DevState} {s : State} (h : s.Kept q_ d_) {d : Nat} {t : Int} : (State.putStamp s d t).Kept q_ d_ := by
  unfold State.putStamp
  try dsimp only
  with_reducible repeat' first
    | assumption | apply State.storeCell_kept

theorem State.writeStamps_kept {q_ : List Instr} {d_ : DevState} {s : State} (h : s.Kept q_ d_) {p : Nat} : (State.writeStamps s p).Kept q_ d_ := by
  unfold State.writeStamps
  try lift_lets
  intros
  try
    have k_s1 : s1.Kept q_ d_ := by
      dsimp only [s1]
      with_reducible repeat' first
        | assumption | intro _ | apply kept_ite | apply forEach_kept | apply State.putStamp_kept | dsimp only | split
    clear_value s1
  with_reducible repeat' first
    | assumption | intro _ | apply kept_ite | apply forEach_kept | apply State.putStamp_kept | apply State.setPlant_kept
    | dsimp only | split | dsimp +zetaDelta only | exact ⟨rfl, rfl⟩ | apply kept_update

theorem State.takeStamp_kept {q_ : List Instr} {d_ : DevState} {s : State} (h : s.Kept q_ d_) {p : Nat} {d : Nat} {t : Int} {held : Bool} : (State.takeStamp s p d t held).Kept q_ d_ := by
  unfold State.takeStamp
  try dsimp only
  with_reducible repeat' first
    | assumption | apply kept_ite | apply State.setPlant_kept | apply State.writeStamps_kept | apply State.putStamp_kept | split
    | exact ⟨rfl, rfl⟩ | apply kept_update

theorem State.txComplete_kept {q_ : List Instr} {d_ : DevState} {s : State} (h : s.Kept q_ d_) {p : Nat} {q : Nat} {raw : Int} {held : Bool} : (State.txComplete s p q raw held).Kept q_ d_ := by
  unfold State.txComplete
  try lift_lets
  intros
  try clear_value want
  try clear_value drop
  try
    have k_s0 : s0.Kept q_ d_ := by
      dsimp only [s0]
      with_reducible repeat' first
        | assumption | apply State.txStart_kept
    clear_value s0
  try
    have k_s1 : s1.Kept q_ d_ := by
      dsimp only [s1]
      with_reducible repeat' first
        | assumption | intro _ | apply when_kept | apply State.takeStamp_kept | dsimp only
    clear_value s1
  try
    have k_s2 : s2.Kept q_ d_ := by
      dsimp only [s2]
      with_reducible repeat' first
        | assumption | intro _ | apply when_kept | apply State.inc_kept | apply State.event_kept | dsimp only
    clear_value s2
  with_reducible repeat' first
    | assumption | intro _ | apply kept_ite | apply when_kept | apply State.txStart_kept | apply State.takeStamp_kept
    | apply State.inc_kept | apply State.event_kept | apply State.txReturn_kept | apply State.txJudgeAll_kept | dsimp only | split
    | dsimp +zetaDelta only

theorem State.ethDown_kept {q_ : List Instr} {d_ : DevState} {s : State} (h : s.Kept q_ d_) {p : Nat} : (State.ethDown s p).Kept q_ d_ := by
  unfold State.ethDown
  try dsimp only
  with_reducible repeat' first
    | assumption | apply kept_ite | apply State.setBit_kept | apply State.inc_kept | apply State.event_kept | split

theorem State.ethUp_kept {q_ : List Instr} {d_ : DevState} {s : State} (h : s.Kept q_ d_) {p : Nat} {rate : Nat} {anDone : Bool} : (State.ethUp s p rate anDone).Kept q_ d_ := by
  unfold State.ethUp
  try dsimp only
  with_reducible repeat' first
    | assumption | apply kept_ite | apply State.setFld_kept | apply State.event_kept | split

end Sys2Proof.Machine
end

