-- ==== Sys2Proof/Laws/Kept/Load.lean ====
section
/-! SUPPORT. The operations of Machine/Load.lean keep the canonical form and the queue. -/

namespace Sys2Proof.Machine

set_option tactic.hygienic false
set_option linter.unusedTactic false
set_option linter.unreachableTactic false
set_option linter.unusedVariables false

theorem State.loadWord_kept {q_ : List Instr} {d_ : DevState} {s : State} (h : s.Kept q_ d_) {a : Nat} {v : Word} : (State.loadWord s a v).Kept q_ d_ := by
  unfold State.loadWord
  try dsimp only
  with_reducible repeat' first
    | assumption | apply wr_kept | split

theorem State.loadWords_kept {q_ : List Instr} {d_ : DevState} {l : List Word} : ∀ {s : State} {a : Nat}, s.Kept q_ d_ → (State.loadWords s a l).Kept q_ d_ := by
  induction l with
  | nil => intro s a h; exact h
  | cons w l ih => intro s a h; exact ih (State.loadWord_kept h)

theorem State.loaded_kept {q_ : List Instr} {d_ : DevState} {s : State} (h : s.Kept q_ d_) {p : Nat} {dflt : Bool} : (State.loaded s p dflt).Kept q_ d_ := by
  unfold State.loaded
  try lift_lets
  intros
  try
    have k_s1 : s1.Kept q_ d_ := by
      dsimp only [s1]
      with_reducible repeat' first
        | assumption | apply wr_kept | apply State.setBit_kept
    clear_value s1
  with_reducible repeat' first
    | assumption | apply wr_kept | apply State.setBit_kept | dsimp only | dsimp +zetaDelta only | exact ⟨rfl, rfl⟩
    | apply kept_update

theorem State.failPage_kept {q_ : List Instr} {d_ : DevState} {s : State} (h : s.Kept q_ d_) {p : Nat} : (State.failPage s p).Kept q_ d_ := by
  unfold State.failPage
  try dsimp only
  with_reducible repeat' first
    | assumption | apply State.defaultPage_kept | apply State.loaded_kept

theorem State.defaultContexts_kept {q_ : List Instr} {d_ : DevState} {s : State} (h : s.Kept q_ d_) : (State.defaultContexts s).Kept q_ d_ := by
  unfold State.defaultContexts
  try dsimp only
  with_reducible repeat' first
    | assumption | exact ⟨rfl, rfl⟩ | apply kept_update

theorem State.loadPage_kept {q_ : List Instr} {d_ : DevState} {s : State} (h : s.Kept q_ d_) {recs : List PageRecord} {p : Nat} : (State.loadPage s recs p).Kept q_ d_ := by
  unfold State.loadPage
  try lift_lets
  intros
  try
    have k_s1 : s1.Kept q_ d_ := by
      dsimp only [s1]
      with_reducible repeat' first
        | assumption | apply State.defaultPage_kept | apply State.loadWords_kept | apply wr_kept | apply State.loaded_kept
    clear_value s1
  with_reducible repeat' first
    | assumption | intro _ | apply kept_ite | apply State.defaultPage_kept | apply wr_kept | apply State.loaded_kept
    | apply State.loadWords_kept | apply State.failPage_kept | dsimp only | split | dsimp +zetaDelta only

theorem State.failSafety_kept {q_ : List Instr} {d_ : DevState} {s : State} (h : s.Kept q_ d_) : (State.failSafety s).Kept q_ d_ := by
  unfold State.failSafety
  try lift_lets
  intros
  try
    have k_s1 : s1.Kept q_ d_ := by
      dsimp only [s1]
      with_reducible repeat' first
        | assumption | apply State.failPage_kept
    clear_value s1
  with_reducible repeat' first
    | assumption | apply State.failPage_kept | dsimp only | dsimp +zetaDelta only | exact ⟨rfl, rfl⟩ | apply kept_update

theorem State.crossPage_kept {q_ : List Instr} {d_ : DevState} {s : State} (h : s.Kept q_ d_) {load : Bool} {p : Nat} : (State.crossPage s load p).Kept q_ d_ := by
  unfold State.crossPage
  generalize pageKind p = kind
  try lift_lets
  intros
  try clear_value ok
  with_reducible repeat' first
    | assumption | intro _ | apply kept_ite | apply forEach_kept | apply when_kept | apply State.failPage_kept
    | apply State.defaultContexts_kept | apply State.failSafety_kept | apply State.scheduleLoaded_kept | dsimp only | split
    | dsimp +zetaDelta only

theorem State.crossPass_kept {q_ : List Instr} {d_ : DevState} {s : State} (h : s.Kept q_ d_) {load : Bool} : (State.crossPass s load).Kept q_ d_ := by
  unfold State.crossPass
  try dsimp only
  with_reducible repeat' first
    | assumption | intro _ | apply forEach_kept | apply State.crossPage_kept | dsimp only

theorem State.refreshCfg_kept {q_ : List Instr} {d_ : DevState} {s : State} (h : s.Kept q_ d_) : (State.refreshCfg s).Kept q_ d_ := by
  unfold State.refreshCfg
  try lift_lets
  intros
  try clear_value l
  try clear_value was
  try
    have k_s1 : s1.Kept q_ d_ := by
      dsimp only [s1]
      with_reducible repeat' first
        | assumption | apply State.setFld_kept
    clear_value s1
  try
    have k_s2 : s2.Kept q_ d_ := by
      dsimp only [s2]
      with_reducible repeat' first
        | assumption | apply State.setBit_kept
    clear_value s2
  with_reducible repeat' first
    | assumption | intro _ | apply kept_ite | apply State.setFld_kept | apply State.setBit_kept | apply State.event_kept
    | dsimp only | split | dsimp +zetaDelta only

theorem State.loadConfig_kept {q_ : List Instr} {d_ : DevState} {s : State} (h : s.Kept q_ d_) {img : ImageSlot} : (State.loadConfig s img).Kept q_ d_ := by
  unfold State.loadConfig
  try lift_lets
  intros
  try clear_value recs
  try clear_value pages
  try clear_value absent
  try
    have k_s1 : s1.Kept q_ d_ := by
      dsimp only [s1]
      with_reducible repeat' first
        | assumption | exact fun h_ => h_ | exact Tab.wf_set _ _ | exact setDram_wf | exact setAll_wf | exact dropRange_wf
        | exact Tab.wf_dropRange _ _ | exact Tab.wf_filter _ | exact Tab.wf_setAll _ | exact Memory.wf_setN _ _ _
        | exact Memory.wf_setBytes _ _ | exact Memory.wf_clear _ _ | exact Memory.wf_copy _ _ _ | exact fun _ => nil_wf
        | exact fun _ => setAll_wf nil_wf | intro _ | dsimp only | exact ⟨rfl, rfl⟩ | apply kept_update | apply kept_tables
    clear_value s1
  try
    have k_s2 : s2.Kept q_ d_ := by
      dsimp only [s2]
      with_reducible repeat' first
        | assumption | intro _ | dsimp only | exact ⟨rfl, rfl⟩ | apply kept_update
    clear_value s2
  try
    have k_s3 : s3.Kept q_ d_ := by
      dsimp only [s3]
      with_reducible repeat' first
        | assumption | intro _ | apply forEach_kept | apply State.loadPage_kept | dsimp only
    clear_value s3
  with_reducible repeat' first
    | assumption | exact fun h_ => h_ | exact Tab.wf_set _ _ | exact setDram_wf | exact setAll_wf | exact dropRange_wf
    | exact Tab.wf_dropRange _ _ | exact Tab.wf_filter _ | exact Tab.wf_setAll _ | exact Memory.wf_setN _ _ _
    | exact Memory.wf_setBytes _ _ | exact Memory.wf_clear _ _ | exact Memory.wf_copy _ _ _ | exact fun _ => nil_wf
    | exact fun _ => setAll_wf nil_wf | intro _ | apply forEach_kept | apply State.loadPage_kept | apply State.setFld_kept
    | apply State.crossPass_kept | apply State.refreshCfg_kept | dsimp only | dsimp +zetaDelta only | exact ⟨rfl, rfl⟩
    | apply kept_update | apply kept_tables

theorem State.putImage_kept {q_ : List Instr} {d_ : DevState} {s : State} (h : s.Kept q_ d_) {img : SafetyImage} : (State.putImage s img).Kept q_ d_ := by
  unfold State.putImage
  try lift_lets
  intros
  try
    have k_s1 : s1.Kept q_ d_ := by
      dsimp only [s1]
      with_reducible repeat' first
        | assumption | apply State.defaultPage_kept
    clear_value s1
  try
    have k_s2 : s2.Kept q_ d_ := by
      dsimp only [s2]
      with_reducible repeat' first
        | assumption | intro _ | apply forEach_kept | apply State.loadWord_kept | dsimp only
    clear_value s2
  try
    have k_s3 : s3.Kept q_ d_ := by
      dsimp only [s3]
      with_reducible repeat' first
        | assumption | intro _ | dsimp only | exact ⟨rfl, rfl⟩ | apply kept_update
    clear_value s3
  with_reducible repeat' first
    | assumption | intro _ | apply forEach_kept | apply State.defaultPage_kept | apply State.loadWord_kept | apply wr_kept
    | apply State.loaded_kept | dsimp only | dsimp +zetaDelta only | exact ⟨rfl, rfl⟩ | apply kept_update

theorem State.applySet_kept {q_ : List Instr} {d_ : DevState} {s : State} (h : s.Kept q_ d_) {n : Nat} {img : SafetyImage} : (State.applySet s n img).Kept q_ d_ := by
  unfold State.applySet
  try dsimp only
  with_reducible repeat' first
    | assumption | apply State.putImage_kept | apply State.setFld_kept | apply State.setBit_kept

theorem State.loadSafety_kept {q_ : List Instr} {d_ : DevState} {s : State} (h : s.Kept q_ d_) : (State.loadSafety s).Kept q_ d_ := by
  unfold State.loadSafety
  try lift_lets
  intros
  try
    have k_s1 : s1.Kept q_ d_ := by
      dsimp only [s1]
      with_reducible repeat' first
        | assumption | apply State.applySet_kept | apply State.failSafety_kept | apply State.setBit_kept | split
    clear_value s1
  try
    have k_s2 : s2.Kept q_ d_ := by
      dsimp only [s2]
      with_reducible repeat' first
        | assumption | exact ⟨rfl, rfl⟩ | apply kept_update
    clear_value s2
  with_reducible repeat' first
    | assumption | apply State.applySet_kept | apply State.failSafety_kept | apply State.setBit_kept | apply State.crossPass_kept
    | apply State.refreshCfg_kept | dsimp only | split | dsimp +zetaDelta only | exact ⟨rfl, rfl⟩ | apply kept_update

end Sys2Proof.Machine
end

