-- ==== Sys2Proof/Laws/Kept/Power.lean ====
section
/-! SUPPORT. The operations of Machine/Power.lean keep the canonical form and the queue. -/

namespace Sys2Proof.Machine

set_option tactic.hygienic false
set_option linter.unusedTactic false
set_option linter.unreachableTactic false
set_option linter.unusedVariables false

theorem State.dvfsRefused_kept {q_ : List Instr} {d_ : DevState} {s : State} (h : s.Kept q_ d_) {cause : Nat} : (State.dvfsRefused s cause).Kept q_ d_ := by
  unfold State.dvfsRefused
  try lift_lets
  intros
  try
    have k_s1 : s1.Kept q_ d_ := by
      dsimp only [s1]
      with_reducible repeat' first
        | assumption | apply State.setBit_kept | apply State.setFld_kept | apply State.inc_kept | apply State.event_kept
    clear_value s1
  with_reducible repeat' first
    | assumption | apply kept_ite | apply State.setBit_kept | apply State.setFld_kept | apply State.inc_kept
    | apply State.event_kept | dsimp only | split | dsimp +zetaDelta only

theorem State.dvfsDone_kept {q_ : List Instr} {d_ : DevState} {s : State} (h : s.Kept q_ d_) : (State.dvfsDone s).Kept q_ d_ := by
  unfold State.dvfsDone
  try dsimp only
  with_reducible repeat' first
    | assumption | apply State.inc_kept | apply State.event_kept

theorem State.dvfsReq_kept {q_ : List Instr} {d_ : DevState} {s : State} (h : s.Kept q_ d_) {q : Nat} {point : Nat} : (State.dvfsReq s q point).Kept q_ d_ := by
  unfold State.dvfsReq
  try dsimp only
  with_reducible repeat' first
    | assumption | apply kept_ite | apply State.dvfsRefused_kept | apply State.dvfsDone_kept | apply State.setBit_kept | split
    | exact ⟨rfl, rfl⟩ | apply kept_update

theorem State.appcReq_kept {q_ : List Instr} {d_ : DevState} {s : State} (h : s.Kept q_ d_) {freq : Nat} : (State.appcReq s freq).Kept q_ d_ := by
  unfold State.appcReq
  try dsimp only
  with_reducible repeat' first
    | assumption | intro _ | apply kept_ite | apply State.dvfsRefused_kept | apply State.dvfsDone_kept | dsimp only | split
    | exact ⟨rfl, rfl⟩ | apply kept_update

theorem State.setChange_kept {q_ : List Instr} {d_ : DevState} {s : State} (h : s.Kept q_ d_) {c : Option PointChange} : (State.setChange s c).Kept q_ d_ := by
  unfold State.setChange
  try dsimp only
  with_reducible repeat' first
    | assumption | exact ⟨rfl, rfl⟩ | apply kept_update

theorem State.endChange_kept {q_ : List Instr} {d_ : DevState} {s : State} (h : s.Kept q_ d_) {q : Nat} {point : Nat} : (State.endChange s q point).Kept q_ d_ := by
  unfold State.endChange
  try dsimp only
  with_reducible repeat' first
    | assumption | apply State.setFld_kept | apply State.setBit_kept | apply State.setChange_kept

theorem State.setVid_kept {q_ : List Instr} {d_ : DevState} {s : State} (h : s.Kept q_ d_) {q : Nat} {point : Nat} : (State.setVid s q point).Kept q_ d_ := by
  unfold State.setVid
  try dsimp only
  with_reducible repeat' first
    | assumption | exact ⟨rfl, rfl⟩ | apply kept_update

theorem State.dvfsTick_kept {q_ : List Instr} {d_ : DevState} {s : State} (h : s.Kept q_ d_) : (State.dvfsTick s).Kept q_ d_ := by
  unfold State.dvfsTick
  try lift_lets
  intros
  try
    have k_s1 : s1.Kept q_ d_ := by
      dsimp only [s1]
      with_reducible repeat' first
        | assumption | apply State.setVid_kept | apply State.setChange_kept | exact ⟨rfl, rfl⟩ | apply kept_update
    clear_value s1
  with_reducible repeat' first
    | assumption | apply kept_ite | apply State.setVid_kept | apply State.setChange_kept | apply State.setFld_kept
    | apply State.endChange_kept | apply State.dvfsDone_kept | dsimp only | split | dsimp +zetaDelta only | exact ⟨rfl, rfl⟩
    | apply kept_update

theorem State.appcTick_kept {q_ : List Instr} {d_ : DevState} {s : State} (h : s.Kept q_ d_) : (State.appcTick s).Kept q_ d_ := by
  unfold State.appcTick
  try dsimp only
  with_reducible repeat' first
    | assumption | apply State.setFld_kept | apply State.dvfsDone_kept | split | exact ⟨rfl, rfl⟩ | apply kept_update

theorem State.railSettled_kept {q_ : List Instr} {d_ : DevState} {s : State} (h : s.Kept q_ d_) {q : Nat} {mv : Nat} : (State.railSettled s q mv).Kept q_ d_ := by
  unfold State.railSettled
  try lift_lets
  intros
  try
    have k_s0 : s0.Kept q_ d_ := by
      dsimp only [s0]
      with_reducible repeat' first
        | assumption | apply State.railSample_kept
    clear_value s0
  try
    have k_s1 : s1.Kept q_ d_ := by
      dsimp only [s1]
      with_reducible repeat' first
        | assumption | apply kept_ite | apply State.setBit_kept | split
    clear_value s1
  with_reducible repeat' first
    | assumption | apply kept_ite | apply State.railSample_kept | apply State.setBit_kept | apply State.endChange_kept
    | apply State.dvfsDone_kept | dsimp only | split | dsimp +zetaDelta only | exact ⟨rfl, rfl⟩ | apply kept_update

theorem State.rampTimeout_kept {q_ : List Instr} {d_ : DevState} {s : State} (h : s.Kept q_ d_) {q : Nat} : (State.rampTimeout s q).Kept q_ d_ := by
  unfold State.rampTimeout
  try lift_lets
  intros
  try
    have k_s1 : s1.Kept q_ d_ := by
      dsimp only [s1]
      with_reducible repeat' first
        | assumption | apply kept_ite | apply State.setVid_kept | apply State.endChange_kept | split
    clear_value s1
  with_reducible repeat' first
    | assumption | apply kept_ite | apply State.setVid_kept | apply State.endChange_kept | apply State.setBit_kept
    | apply State.inc_kept | apply State.alarm_kept | dsimp only | split | dsimp +zetaDelta only

theorem State.abandonAppc_kept {q_ : List Instr} {d_ : DevState} {s : State} (h : s.Kept q_ d_) : (State.abandonAppc s).Kept q_ d_ := by
  unfold State.abandonAppc
  try dsimp only
  with_reducible repeat' first
    | assumption | apply kept_ite | split | exact ⟨rfl, rfl⟩ | apply kept_update

theorem State.abandonChange_kept {q_ : List Instr} {d_ : DevState} {s : State} (h : s.Kept q_ d_) : (State.abandonChange s).Kept q_ d_ := by
  unfold State.abandonChange
  try lift_lets
  intros
  try
    have k_s0 : s0.Kept q_ d_ := by
      dsimp only [s0]
      with_reducible repeat' first
        | assumption | apply State.abandonAppc_kept
    clear_value s0
  try
    have k_s1 : s1.Kept q_ d_ := by
      dsimp only [s1]
      with_reducible repeat' first
        | assumption | apply State.endChange_kept | apply State.setVid_kept
    clear_value s1
  with_reducible repeat' first
    | assumption | apply State.abandonAppc_kept | apply State.endChange_kept | apply State.setVid_kept | dsimp only | split
    | dsimp +zetaDelta only | exact ⟨rfl, rfl⟩ | apply kept_update

theorem State.reportAbandoned_kept {q_ : List Instr} {d_ : DevState} {s : State} (h : s.Kept q_ d_) : (State.reportAbandoned s).Kept q_ d_ := by
  unfold State.reportAbandoned
  try dsimp only
  with_reducible repeat' first
    | assumption | apply kept_ite | apply State.dvfsRefused_kept | split | exact ⟨rfl, rfl⟩ | apply kept_update

theorem State.initPoints_kept {q_ : List Instr} {d_ : DevState} {s : State} (h : s.Kept q_ d_) : (State.initPoints s).Kept q_ d_ := by
  unfold State.initPoints
  try lift_lets
  intros
  try clear_value pts
  try
    have k_s1 : s1.Kept q_ d_ := by
      dsimp only [s1]
      with_reducible repeat' first
        | assumption | apply State.wrN_kept | apply State.setBit_kept
    clear_value s1
  with_reducible repeat' first
    | assumption | apply State.wrN_kept | apply State.setBit_kept | dsimp only | dsimp +zetaDelta only | exact ⟨rfl, rfl⟩
    | apply kept_update

theorem State.clearSram_kept {q_ : List Instr} {d_ : DevState} {s : State} (h : s.Kept q_ d_) {d : Nat} : (State.clearSram s d).Kept q_ d_ := by
  unfold State.clearSram
  try dsimp only
  with_reducible repeat' first
    | assumption | exact fun h_ => h_ | exact Tab.wf_set _ _ | exact setDram_wf | exact setAll_wf | exact dropRange_wf
    | exact Tab.wf_dropRange _ _ | exact Tab.wf_filter _ | exact Tab.wf_setAll _ | exact Memory.wf_setN _ _ _
    | exact Memory.wf_setBytes _ _ | exact Memory.wf_clear _ _ | exact Memory.wf_copy _ _ _ | exact fun _ => nil_wf
    | exact fun _ => setAll_wf nil_wf | apply kept_ite | apply State.solFresh_kept | split | exact ⟨rfl, rfl⟩ | apply kept_update
    | apply kept_tables

theorem State.clearStatus_kept {q_ : List Instr} {d_ : DevState} {s : State} (h : s.Kept q_ d_) {d : Nat} : (State.clearStatus s d).Kept q_ d_ := by
  unfold State.clearStatus
  try dsimp only
  with_reducible repeat' first
    | assumption | exact fun h_ => h_ | exact Tab.wf_set _ _ | exact setDram_wf | exact setAll_wf | exact dropRange_wf
    | exact Tab.wf_dropRange _ _ | exact Tab.wf_filter _ | exact Tab.wf_setAll _ | exact Memory.wf_setN _ _ _
    | exact Memory.wf_setBytes _ _ | exact Memory.wf_clear _ _ | exact Memory.wf_copy _ _ _ | exact fun _ => nil_wf
    | exact fun _ => setAll_wf nil_wf | intro _ | apply forEach_kept | dsimp only | exact ⟨rfl, rfl⟩ | apply kept_update
    | apply kept_tables

theorem State.domChanged_kept {q_ : List Instr} {d_ : DevState} {s : State} (h : s.Kept q_ d_) {d : Nat} {on : Bool} : (State.domChanged s d on).Kept q_ d_ := by
  unfold State.domChanged
  try dsimp only
  with_reducible repeat' first
    | assumption | apply State.setDomain_kept | apply State.inc_kept | apply State.event_kept

theorem State.domRefused_kept {q_ : List Instr} {d_ : DevState} {s : State} (h : s.Kept q_ d_) : (State.domRefused s).Kept q_ d_ := by
  unfold State.domRefused
  try dsimp only
  with_reducible repeat' first
    | assumption | apply State.setBit_kept | apply State.setFld_kept

theorem State.askDown_kept {q_ : List Instr} {d_ : DevState} {s : State} (h : s.Kept q_ d_) {v : Word} {b : Nat} : (State.askDown s v b).Kept q_ d_ := by
  unfold State.askDown
  try dsimp only
  with_reducible repeat' first
    | assumption | apply kept_ite | apply State.domRefused_kept | split | exact ⟨rfl, rfl⟩ | apply kept_update

theorem State.askUp_kept {q_ : List Instr} {d_ : DevState} {s : State} (h : s.Kept q_ d_) {v : Word} {b : Nat} : (State.askUp s v b).Kept q_ d_ := by
  unfold State.askUp
  try dsimp only
  with_reducible repeat' first
    | assumption | apply kept_ite | apply State.domRefused_kept | split | exact ⟨rfl, rfl⟩ | apply kept_update

theorem State.domReq_kept {q_ : List Instr} {d_ : DevState} {s : State} (h : s.Kept q_ d_) {v : Word} : (State.domReq s v).Kept q_ d_ := by
  unfold State.domReq
  try dsimp only
  with_reducible repeat' first
    | assumption | intro _ | apply forEach_kept | apply State.askUp_kept | apply State.askDown_kept | dsimp only

theorem State.quadTick_kept {q_ : List Instr} {d_ : DevState} {s : State} (h : s.Kept q_ d_) {q : Nat} : (State.quadTick s q).Kept q_ d_ := by
  unfold State.quadTick
  try lift_lets
  intros
  try
    have k_s1 : s1.Kept q_ d_ := by
      dsimp only [s1]
      with_reducible repeat' first
        | assumption | intro _ | apply kept_ite | apply forUpTo_kept | apply State.rehome_kept | dsimp only | split
        | exact ⟨rfl, rfl⟩ | apply kept_update
    clear_value s1
  try
    have k_s2 : s2.Kept q_ d_ := by
      dsimp only [s2]
      with_reducible repeat' first
        | assumption | apply State.clearSram_kept | apply State.clearStatus_kept | apply State.domChanged_kept
    clear_value s2
  with_reducible repeat' first
    | assumption | intro _ | apply kept_ite | apply forUpTo_kept | apply State.rehome_kept | apply State.clearSram_kept
    | apply State.clearStatus_kept | apply State.domChanged_kept | apply State.setFld_kept | apply State.kittyStat_kept
    | dsimp only | split | dsimp +zetaDelta only | exact ⟨rfl, rfl⟩ | apply kept_update

theorem State.endpointClear_kept {q_ : List Instr} {d_ : DevState} {s : State} (h : s.Kept q_ d_) : (State.endpointClear s).Kept q_ d_ := by
  unfold State.endpointClear
  try lift_lets
  intros
  try
    have k_s1 : s1.Kept q_ d_ := by
      dsimp only [s1]
      with_reducible repeat' first
        | assumption | apply wr_kept
    clear_value s1
  try
    have k_s2 : s2.Kept q_ d_ := by
      dsimp only [s2]
      with_reducible repeat' first
        | assumption | apply wr_kept
    clear_value s2
  with_reducible repeat' first
    | assumption | apply wr_kept | dsimp only | dsimp +zetaDelta only | exact ⟨rfl, rfl⟩ | apply kept_update

theorem State.unitTick_kept {q_ : List Instr} {d_ : DevState} {s : State} (h : s.Kept q_ d_) {b : Nat} : (State.unitTick s b).Kept q_ d_ := by
  unfold State.unitTick
  try lift_lets
  intros
  try clear_value d
  try
    have k_s1 : s1.Kept q_ d_ := by
      dsimp only [s1]
      with_reducible repeat' first
        | assumption | apply State.clearSram_kept | apply State.clearStatus_kept | apply State.domChanged_kept
    clear_value s1
  with_reducible repeat' first
    | assumption | intro _ | apply kept_ite | apply forUpTo_kept | apply State.clearSram_kept | apply State.clearStatus_kept
    | apply State.domChanged_kept | apply State.portStart_kept | apply State.endpointClear_kept | dsimp only | split
    | dsimp +zetaDelta only

theorem State.domTick_kept {q_ : List Instr} {d_ : DevState} {s : State} (h : s.Kept q_ d_) : (State.domTick s).Kept q_ d_ := by
  unfold State.domTick
  try lift_lets
  intros
  try
    have k_s1 : s1.Kept q_ d_ := by
      dsimp only [s1]
      with_reducible repeat' first
        | assumption | intro _ | apply forEach_kept | apply State.quadTick_kept | dsimp only
    clear_value s1
  try
    have k_s2 : s2.Kept q_ d_ := by
      dsimp only [s2]
      with_reducible repeat' first
        | assumption | intro _ | apply forEach_kept | apply State.unitTick_kept | dsimp only
    clear_value s2
  with_reducible repeat' first
    | assumption | intro _ | apply forEach_kept | apply State.quadTick_kept | apply State.unitTick_kept | dsimp only
    | dsimp +zetaDelta only | exact ⟨rfl, rfl⟩ | apply kept_update

theorem State.railOver_kept {q_ : List Instr} {d_ : DevState} {s : State} (h : s.Kept q_ d_) {i : Nat} {mv : Nat} : (State.railOver s i mv).Kept q_ d_ := by
  unfold State.railOver
  try lift_lets
  intros
  try
    have k_s1 : s1.Kept q_ d_ := by
      dsimp only [s1]
      with_reducible repeat' first
        | assumption | apply State.railSample_kept | apply State.setBit_kept | apply State.inc_kept
    clear_value s1
  with_reducible repeat' first
    | assumption | apply State.railSample_kept | apply State.setBit_kept | apply State.inc_kept | apply State.alarm_kept
    | dsimp only | dsimp +zetaDelta only

theorem State.lockLoss_kept {q_ : List Instr} {d_ : DevState} {s : State} (h : s.Kept q_ d_) {k : Nat} : (State.lockLoss s k).Kept q_ d_ := by
  unfold State.lockLoss
  try lift_lets
  intros
  try
    have k_s1 : s1.Kept q_ d_ := by
      dsimp only [s1]
      with_reducible repeat' first
        | assumption | apply State.setBit_kept
    clear_value s1
  with_reducible repeat' first
    | assumption | apply kept_ite | apply State.setBit_kept | apply State.inc_kept | apply State.alarm_kept | dsimp only | split
    | dsimp +zetaDelta only

theorem State.refFail_kept {q_ : List Instr} {d_ : DevState} {s : State} (h : s.Kept q_ d_) {r : Nat} : (State.refFail s r).Kept q_ d_ := by
  unfold State.refFail
  try dsimp only
  with_reducible repeat' first
    | assumption | apply State.setBit_kept | apply State.inc_kept | apply State.alarm_kept

end Sys2Proof.Machine
end

