-- ==== Sys2Proof/Laws/Kept/Boot.lean ====
section
/-! SUPPORT. The operations of Machine/Boot.lean keep the canonical form and the queue. -/

namespace Sys2Proof.Machine

set_option tactic.hygienic false
set_option linter.unusedTactic false
set_option linter.unreachableTactic false
set_option linter.unusedVariables false

theorem State.outlive_kept {q_ : List Instr} {d_ : DevState} {s : State} (h : s.Kept q_ d_) : s.outlive.Kept q_ .reset :=
  ⟨⟨Tab.wf_filter _ h.regs, rfl, h.dram, h.flash, rfl, rfl⟩, h.queue, rfl, fun _ hx => by cases hx⟩

theorem State.coreReset_kept {q_ : List Instr} {d_ : DevState} {s : State} (h : s.Kept q_ d_) {cause : Nat} : (s.coreReset cause).Kept q_ .reset := by
  unfold State.coreReset
  lift_lets
  intro s1 s2
  have k1 : s1.Kept q_ .reset := by
    dsimp only [s1]
    with_reducible repeat' first | apply State.outlive_kept h | apply State.setBit_kept | apply State.wrN_kept
  clear_value s1
  have k2 : s2.Kept q_ .reset := by
    dsimp only [s2]
    with_reducible repeat' first | assumption | apply State.setFld_kept | apply State.setBit_kept
  clear_value s2
  exact State.refreshDq_kept (State.setBit_kept k2)

theorem State.resetBy_goes {q_ : List Instr} {d_ : DevState} {s : State} (h : s.Kept q_ d_) {cause : Nat} : (s.resetBy cause).Goes q_ d_ := by
  unfold State.resetBy
  split
  · exact h.goes
  · rename_i hd
    refine ⟨.reset, .inr (.inl ⟨fun e => hd ?_, rfl⟩), State.inc_kept (State.coreReset_kept h)⟩
    rw [h.dev, e]; rfl

theorem State.swReset_goes {q_ : List Instr} {d_ : DevState} {s : State} (h : s.Kept q_ d_) {key : BitVec 16} : (s.swReset key).Goes q_ d_ := by
  unfold State.swReset
  split
  · exact State.resetBy_goes h
  · exact (State.inc_kept h).goes

theorem State.enterOff_kept {q_ : List Instr} {d_ : DevState} {s : State} (h : s.Kept q_ d_) {rail : Nat} : (s.enterOff rail).Kept q_ .off := by
  unfold State.enterOff
  lift_lets
  intro s1 s2
  have k1 : s1.Kept q_ .reset := State.coreReset_kept h
  have k2 : s2.Kept q_ .reset := kept_ite (wr_kept k1) (State.inc_kept k1)
  clear_value s2
  exact ⟨⟨k2.regs, k2.cell, rfl, k2.flash, k2.code, k2.data⟩, k2.queue, rfl, fun x hx => by rw [k2.idle rfl] at hx; cases hx⟩

theorem State.railUnder_kept {q_ : List Instr} {d_ : DevState} {s : State} (h : s.Kept q_ d_) {rail mv : Nat} : (s.railUnder rail mv).Kept q_ .off := by
  unfold State.railUnder
  lift_lets
  intro s1
  have k1 : s1.Kept q_ d_ := State.setBit_kept (State.railSample_kept h)
  clear_value s1
  split
  · rename_i hd
    have e : d_ = .off := by rw [← h.dev]; exact eq_of_beq hd
    rw [← e]; exact k1
  · exact State.enterOff_kept k1

theorem State.powerOn_kept {q_ : List Instr} {d_ : DevState} {s : State} (h : s.Kept q_ d_) {mv : List (BitVec 16)} :
    (d_ = .off ∧ (s.powerOn mv).Kept q_ .reset) ∨ (d_ ≠ .off ∧ s.powerOn mv = s) := by
  unfold State.powerOn
  split
  · rename_i hd
    refine .inl ⟨by rw [← h.dev]; exact eq_of_beq hd, ?_⟩
    lift_lets
    intro s1 s2
    have k1 : s1.Kept q_ .reset :=
      ⟨⟨h.regs, h.cell, h.dram, h.flash, h.code, h.data⟩, h.queue, rfl, fun x hx => by cases hx⟩
    clear_value s1
    have k2 : s2.Kept q_ .reset := forUpTo_kept (fun _ _ ht => State.railSample_kept ht) _ (State.wrN_kept k1)
    clear_value s2
    exact forEach_kept (fun _ _ ht => wr_kept ht) _ (State.wrN_kept k2)
  · rename_i hd
    exact .inr ⟨fun e => hd (by rw [h.dev, e]; rfl), rfl⟩

theorem State.bootFail_kept {q_ : List Instr} {d_ : DevState} {s : State} (h : s.Kept q_ d_) {fail : Nat} {step : Nat} : (State.bootFail s fail step).Kept q_ d_ := by
  unfold State.bootFail
  try lift_lets
  intros
  try
    have k_s1 : s1.Kept q_ d_ := by
      dsimp only [s1]
      with_reducible repeat' first
        | assumption | apply State.setFld_kept
    clear_value s1
  with_reducible repeat' first
    | assumption | apply State.setFld_kept | dsimp only | dsimp +zetaDelta only | exact ⟨rfl, rfl⟩ | apply kept_update

theorem State.bootStep_kept {q_ : List Instr} {d_ : DevState} {s : State} (h : s.Kept q_ d_) {n : Nat} : (State.bootStep s n).Kept q_ d_ := by
  unfold State.bootStep
  try lift_lets
  intros
  try
    have k_s1 : s1.Kept q_ d_ := by
      dsimp only [s1]
      with_reducible repeat' first
        | assumption | apply State.setFld_kept
    clear_value s1
  with_reducible repeat' first
    | assumption | apply State.setFld_kept | dsimp only | dsimp +zetaDelta only | exact ⟨rfl, rfl⟩ | apply kept_update

theorem State.initSram_kept {q_ : List Instr} {d_ : DevState} {s : State} (h : s.Kept q_ d_) : (State.initSram s).Kept q_ d_ := by
  unfold State.initSram
  try dsimp only
  with_reducible repeat' first
    | assumption | exact fun h_ => h_ | exact Tab.wf_set _ _ | exact setDram_wf | exact setAll_wf | exact dropRange_wf
    | exact Tab.wf_dropRange _ _ | exact Tab.wf_filter _ | exact Tab.wf_setAll _ | exact Memory.wf_setN _ _ _
    | exact Memory.wf_setBytes _ _ | exact Memory.wf_clear _ _ | exact Memory.wf_copy _ _ _ | exact fun _ => nil_wf
    | exact fun _ => setAll_wf nil_wf | exact ⟨rfl, rfl⟩ | apply kept_update | apply kept_tables

theorem State.deselect_kept {q_ : List Instr} {d_ : DevState} {s : State} (h : s.Kept q_ d_) : (State.deselect s).Kept q_ d_ := by
  unfold State.deselect
  try lift_lets
  intros
  try
    have k_t1 : t1.Kept q_ d_ := by
      dsimp only [t1]
      with_reducible repeat' first
        | assumption | apply State.setDomain_kept
    clear_value t1
  with_reducible repeat' first
    | assumption | intro _ | apply kept_ite | apply forUpTo_kept | apply State.setDomain_kept | apply State.setFld_kept
    | dsimp only | split | dsimp +zetaDelta only

theorem State.bootLoad_kept {q_ : List Instr} {d_ : DevState} {s : State} (h : s.Kept q_ d_) {slot : Nat} {img : ImageSlot} {fallback : Bool} : (State.bootLoad s slot img fallback).Kept q_ d_ := by
  unfold State.bootLoad
  try lift_lets
  intros
  try
    have k_s1 : s1.Kept q_ d_ := by
      dsimp only [s1]
      with_reducible repeat' first
        | assumption | apply State.setFld_kept | apply State.setBit_kept | apply State.bootStep_kept | apply wr_kept
    clear_value s1
  try
    have k_s2 : s2.Kept q_ d_ := by
      dsimp only [s2]
      with_reducible repeat' first
        | assumption | exact fun h_ => h_ | exact Tab.wf_set _ _ | exact setDram_wf | exact setAll_wf | exact dropRange_wf
        | exact Tab.wf_dropRange _ _ | exact Tab.wf_filter _ | exact Tab.wf_setAll _ | exact Memory.wf_setN _ _ _
        | exact Memory.wf_setBytes _ _ | exact Memory.wf_clear _ _ | exact Memory.wf_copy _ _ _ | exact fun _ => nil_wf
        | exact fun _ => setAll_wf nil_wf | intro _ | dsimp only | exact ⟨rfl, rfl⟩ | apply kept_update | apply kept_tables
    clear_value s2
  try
    have k_s3 : s3.Kept q_ d_ := by
      dsimp only [s3]
      with_reducible repeat' first
        | assumption | apply State.loadConfig_kept | apply State.deselect_kept
    clear_value s3
  with_reducible repeat' first
    | assumption | exact fun h_ => h_ | exact Tab.wf_set _ _ | exact setDram_wf | exact setAll_wf | exact dropRange_wf
    | exact Tab.wf_dropRange _ _ | exact Tab.wf_filter _ | exact Tab.wf_setAll _ | exact Memory.wf_setN _ _ _
    | exact Memory.wf_setBytes _ _ | exact Memory.wf_clear _ _ | exact Memory.wf_copy _ _ _ | exact fun _ => nil_wf
    | exact fun _ => setAll_wf nil_wf | intro _ | apply kept_ite | apply forUpTo_kept | apply State.setFld_kept
    | apply State.setBit_kept | apply State.bootStep_kept | apply wr_kept | apply State.bootFail_kept
    | apply State.loadConfig_kept | apply State.deselect_kept | apply State.engStart_kept | apply State.kittyStat_kept
    | apply State.trigger_kept | dsimp only | split | dsimp +zetaDelta only | exact ⟨rfl, rfl⟩ | apply kept_update
    | apply kept_tables

theorem State.bootFrom3_kept {q_ : List Instr} {d_ : DevState} {s : State} (h : s.Kept q_ d_) {inp : BootInputs} : (State.bootFrom3 s inp).Kept q_ d_ := by
  unfold State.bootFrom3
  try lift_lets
  intros
  try clear_value pick
  try
    have k_s1 : s1.Kept q_ d_ := by
      dsimp only [s1]
      with_reducible repeat' first
        | assumption | exact fun h_ => h_ | exact Tab.wf_set _ _ | exact setDram_wf | exact setAll_wf | exact dropRange_wf
        | exact Tab.wf_dropRange _ _ | exact Tab.wf_filter _ | exact Tab.wf_setAll _ | exact Memory.wf_setN _ _ _
        | exact Memory.wf_setBytes _ _ | exact Memory.wf_clear _ _ | exact Memory.wf_copy _ _ _ | exact fun _ => nil_wf
        | exact fun _ => setAll_wf nil_wf | intro _ | apply forUpTo_kept | apply State.initSram_kept | dsimp only
        | exact ⟨rfl, rfl⟩ | apply kept_update | apply kept_tables
    clear_value s1
  try
    have k_s2 : s2.Kept q_ d_ := by
      dsimp only [s2]
      with_reducible repeat' first
        | assumption | intro _ | apply forEach_kept | apply State.setDomain_kept | dsimp only
    clear_value s2
  try
    have k_s3 : s3.Kept q_ d_ := by
      dsimp only [s3]
      with_reducible repeat' first
        | assumption | exact fun h_ => h_ | exact Tab.wf_set _ _ | exact setDram_wf | exact setAll_wf | exact dropRange_wf
        | exact Tab.wf_dropRange _ _ | exact Tab.wf_filter _ | exact Tab.wf_setAll _ | exact Memory.wf_setN _ _ _
        | exact Memory.wf_setBytes _ _ | exact Memory.wf_clear _ _ | exact Memory.wf_copy _ _ _ | exact fun _ => nil_wf
        | exact fun _ => setAll_wf nil_wf | apply State.wrN_kept | apply wr_kept | exact ⟨rfl, rfl⟩ | apply kept_update
        | apply kept_tables
    clear_value s3
  try
    have k_s4 : s4.Kept q_ d_ := by
      dsimp only [s4]
      with_reducible repeat' first
        | assumption | intro _ | apply forEach_kept | apply State.bootStep_kept | dsimp only
    clear_value s4
  try
    have k_s5 : s5.Kept q_ d_ := by
      dsimp only [s5]
      with_reducible repeat' first
        | assumption | apply State.setBit_kept | apply State.bootStep_kept
    clear_value s5
  try
    have k_s6 : s6.Kept q_ d_ := by
      dsimp only [s6]
      with_reducible repeat' first
        | assumption | apply State.bootStep_kept
    clear_value s6
  with_reducible repeat' first
    | assumption | exact fun h_ => h_ | exact Tab.wf_set _ _ | exact setDram_wf | exact setAll_wf | exact dropRange_wf
    | exact Tab.wf_dropRange _ _ | exact Tab.wf_filter _ | exact Tab.wf_setAll _ | exact Memory.wf_setN _ _ _
    | exact Memory.wf_setBytes _ _ | exact Memory.wf_clear _ _ | exact Memory.wf_copy _ _ _ | exact fun _ => nil_wf
    | exact fun _ => setAll_wf nil_wf | intro _ | apply kept_ite | apply forUpTo_kept | apply forEach_kept
    | apply State.initSram_kept | apply State.setDomain_kept | apply State.wrN_kept | apply wr_kept | apply State.bootStep_kept
    | apply State.bootFail_kept | apply State.setBit_kept | apply State.bootLoad_kept | dsimp only | split | dsimp +zetaDelta only
    | exact ⟨rfl, rfl⟩ | apply kept_update | apply kept_tables

theorem State.resetRelease_kept {q_ : List Instr} {d_ : DevState} {s : State} (h : s.Kept q_ d_) {inp : BootInputs} :
    (d_ = .reset ∧ (s.resetRelease inp).Kept q_ .boot) ∨ (d_ ≠ .reset ∧ s.resetRelease inp = s) := by
  unfold State.resetRelease
  split
  · rename_i hd
    have e : d_ = .reset := by rw [← h.dev]; exact eq_of_beq hd
    refine .inl ⟨e, State.bootFrom3_kept (State.enter_kept h fun x hx => ?_)⟩
    rw [h.idle (by rw [e]; rfl)] at hx; cases hx
  · rename_i hd
    exact .inr ⟨fun e => hd (by rw [h.dev, e]; rfl), rfl⟩

theorem State.closeSeal_kept {q_ : List Instr} {d_ : DevState} {s : State} (h : s.Kept q_ d_) : (State.closeSeal s).Kept q_ d_ := by
  unfold State.closeSeal
  try dsimp only
  with_reducible repeat' first
    | assumption | apply kept_ite | apply State.setBit_kept | split | exact ⟨rfl, rfl⟩ | apply kept_update

theorem State.applyMethod_kept {q_ : List Instr} {d_ : DevState} {s : State} (h : s.Kept q_ d_) : (State.applyMethod s).Kept q_ d_ := by
  unfold State.applyMethod
  try dsimp only
  with_reducible repeat' first
    | assumption | apply State.setFld_kept | split | exact ⟨rfl, rfl⟩ | apply kept_update

theorem State.wdtStart_kept {q_ : List Instr} {d_ : DevState} {s : State} (h : s.Kept q_ d_) : (State.wdtStart s).Kept q_ d_ := by
  unfold State.wdtStart
  try dsimp only
  with_reducible repeat' first
    | assumption | exact ⟨rfl, rfl⟩ | apply kept_update

theorem State.noRequests_kept {q_ : List Instr} {d_ : DevState} {s : State} (h : s.Kept q_ d_) : (State.noRequests s).Kept q_ d_ := by
  unfold State.noRequests
  try dsimp only
  with_reducible repeat' first
    | assumption | exact ⟨rfl, rfl⟩ | apply kept_update

theorem State.enterSelftest_kept {q_ : List Instr} {d_ : DevState} {s : State} (h : s.Kept q_ d_) : (State.enterSelftest s).Kept q_ d_ := by
  unfold State.enterSelftest
  try lift_lets
  intros
  try
    have k_s1 : s1.Kept q_ d_ := by
      dsimp only [s1]
      with_reducible repeat' first
        | assumption | apply State.closeSeal_kept | apply State.applyMethod_kept | apply State.loadSafety_kept
        | apply State.initPoints_kept
    clear_value s1
  try
    have k_s2 : s2.Kept q_ d_ := by
      dsimp only [s2]
      with_reducible repeat' first
        | assumption | apply wr_kept | apply State.setFld_kept
    clear_value s2
  try
    have k_s3 : s3.Kept q_ d_ := by
      dsimp only [s3]
      with_reducible repeat' first
        | assumption | intro _ | apply forUpTo_kept | apply State.loopSelftest_kept | apply State.safSelftest_kept
        | apply State.flintSelftest_kept | apply State.ssmSelftest_kept | apply State.solFresh_kept | apply State.resetLimits_kept
        | dsimp only
    clear_value s3
  with_reducible repeat' first
    | assumption | intro _ | apply forUpTo_kept | apply State.closeSeal_kept | apply State.applyMethod_kept
    | apply State.loadSafety_kept | apply State.initPoints_kept | apply wr_kept | apply State.setFld_kept
    | apply State.loopSelftest_kept | apply State.safSelftest_kept | apply State.flintSelftest_kept | apply State.ssmSelftest_kept
    | apply State.solFresh_kept | apply State.resetLimits_kept | apply State.restartPort_kept | apply State.noRequests_kept
    | apply State.refreshSaf_kept | apply State.wdtStart_kept | dsimp only | dsimp +zetaDelta only

theorem State.selftestDone_kept {q_ : List Instr} {d_ : DevState} {s : State} (h : s.Kept q_ d_) {pass : Nat} : (State.selftestDone s pass).Kept q_ d_ := by
  unfold State.selftestDone
  try lift_lets
  intros
  try clear_value p0
  try clear_value p
  try
    have k_s1 : s1.Kept q_ d_ := by
      dsimp only [s1]
      with_reducible repeat' first
        | assumption | apply State.wrN_kept | apply State.setFld_kept
    clear_value s1
  with_reducible repeat' first
    | assumption | apply kept_ite | apply State.wrN_kept | apply State.setFld_kept | apply State.trigger_kept
    | apply State.stopCause_kept | apply State.setBit_kept | dsimp only | split | dsimp +zetaDelta only

theorem State.halfGone_kept {q_ : List Instr} {d_ : DevState} {s : State} (h : s.Kept q_ d_) : (State.halfGone s).Kept q_ d_ := by
  unfold State.halfGone
  try dsimp only
  with_reducible repeat' first
    | assumption | exact ⟨rfl, rfl⟩ | apply kept_update

theorem State.wdtWarn_kept {q_ : List Instr} {d_ : DevState} {s : State} (h : s.Kept q_ d_) : (State.wdtWarn s).Kept q_ d_ := by
  unfold State.wdtWarn
  try dsimp only
  with_reducible repeat' first
    | assumption | apply kept_ite | apply State.setBit_kept | apply State.inc_kept | apply State.event_kept
    | apply State.halfGone_kept | split

end Sys2Proof.Machine
end

