-- ==== Sys2Proof/Laws/Kept/System.lean ====
section
/-! SUPPORT. The operations of Machine/System.lean keep the canonical form and the queue. -/

namespace Sys2Proof.Machine

set_option tactic.hygienic false
set_option linter.unusedTactic false
set_option linter.unreachableTactic false
set_option linter.unusedVariables false

theorem State.runRequest_kept {q_ : List Instr} {d_ : DevState} {s : State} (h : s.Kept q_ d_) : (State.runRequest s).Kept q_ d_ := by
  unfold State.runRequest
  try dsimp only
  with_reducible repeat' first
    | assumption | apply kept_ite | apply State.trigger_kept | apply State.setBit_kept | apply State.setFld_kept
    | apply State.inc_kept | apply State.alarm_kept | split

theorem State.stopRequest_kept {q_ : List Instr} {d_ : DevState} {s : State} (h : s.Kept q_ d_) : (State.stopRequest s).Kept q_ d_ := by
  unfold State.stopRequest
  try lift_lets
  intros
  try
    have k_s1 : s1.Kept q_ d_ := by
      dsimp only [s1]
      with_reducible repeat' first
        | assumption | intro _ | apply kept_ite | apply forEach_kept | apply State.doStop_kept | apply State.doAbort_kept
        | dsimp only | split
    clear_value s1
  with_reducible repeat' first
    | assumption | intro _ | apply kept_ite | apply forEach_kept | apply State.doStop_kept | apply State.doAbort_kept | dsimp only
    | split | dsimp +zetaDelta only | exact ⟨rfl, rfl⟩ | apply kept_update

theorem State.runReq_kept {q_ : List Instr} {d_ : DevState} {s : State} (h : s.Kept q_ d_) {withStop : Bool} : (State.runReq s withStop).Kept q_ d_ := by
  unfold State.runReq
  try dsimp only
  with_reducible repeat' first
    | assumption | apply kept_ite | apply State.stopRequest_kept | apply State.runRequest_kept | split | exact ⟨rfl, rfl⟩
    | apply kept_update

theorem State.stopCheck_kept {q_ : List Instr} {d_ : DevState} {s : State} (h : s.Kept q_ d_) : (State.stopCheck s).Kept q_ d_ := by
  unfold State.stopCheck
  try dsimp only
  with_reducible repeat' first
    | assumption | intro _ | apply kept_ite | apply State.trigger_kept | dsimp only | split | exact ⟨rfl, rfl⟩ | apply kept_update

theorem State.restartReq_kept {q_ : List Instr} {d_ : DevState} {s : State} (h : s.Kept q_ d_) : (State.restartReq s).Kept q_ d_ := by
  unfold State.restartReq
  try dsimp only
  with_reducible repeat' first
    | assumption | apply kept_ite | apply State.trigger_kept | apply State.setBit_kept | apply State.inc_kept
    | apply State.event_kept | split

theorem State.leaseEnd_kept {q_ : List Instr} {d_ : DevState} {s : State} (h : s.Kept q_ d_) : (State.leaseEnd s).Kept q_ d_ := by
  unfold State.leaseEnd
  try lift_lets
  intros
  try
    have k_s1 : s1.Kept q_ d_ := by
      dsimp only [s1]
      with_reducible repeat' first
        | assumption | intro _ | apply kept_ite | apply forUpTo_kept | apply State.toForeign_kept | apply State.setBit_kept
        | dsimp only | split
    clear_value s1
  with_reducible repeat' first
    | assumption | intro _ | apply kept_ite | apply forUpTo_kept | apply State.toForeign_kept | apply State.setBit_kept
    | dsimp only | split | dsimp +zetaDelta only | exact ⟨rfl, rfl⟩ | apply kept_update

theorem State.cutStore_kept {q_ : List Instr} {d_ : DevState} {s : State} (h : s.Kept q_ d_) : (State.cutStore s).Kept q_ d_ := by
  unfold State.cutStore
  try lift_lets
  intros
  try clear_value k
  try
    have k_s1 : s1.Kept q_ d_ := by
      dsimp only [s1]
      with_reducible repeat' first
        | assumption | apply State.takeFree_kept | dsimp +zetaDelta only
    clear_value s1
  with_reducible repeat' first
    | assumption | apply kept_ite | apply State.takeFree_kept | apply State.wrN_kept | dsimp only | split | dsimp +zetaDelta only
    | exact ⟨rfl, rfl⟩ | apply kept_update

theorem State.gated_kept {q_ : List Instr} {d_ : DevState} {s : State} (h : s.Kept q_ d_) (ht : s.sys.triggers = []) {f : Freeze} : (s.gated f).Kept q_ .frozen :=
  ⟨⟨h.regs, h.cell, h.dram, h.flash, h.code, h.data⟩, h.queue, rfl, fun x hx => by
    have hx' : x ∈ s.sys.triggers := hx
    rw [ht] at hx'; cases hx'⟩

theorem State.parkAll_sys (s : State) : s.parkAll.sys = s.sys := by
  have h1 : ∀ (t : State) (a i : Nat) (b : Bool), (t.setBit a i b).sys = t.sys := fun _ _ _ _ => rfl
  have h2 : ∀ (t : State) (a hi lo v : Nat), (t.setFld a hi lo v).sys = t.sys := fun _ _ _ _ _ => rfl
  have h3 : ∀ (t : State) (a n : Nat), (t.wr64 a n).sys = t.sys := fun _ _ _ => rfl
  have h4 : ∀ (t : State) (a : Nat), (t.inc a).sys = t.sys := fun _ _ => rfl
  unfold State.parkAll
  rw [h1, h2, h3, h4]

theorem State.parkAll_kept {q_ : List Instr} {d_ : DevState} {s : State} (h : s.Kept q_ d_) : s.parkAll.Kept q_ d_ :=
  State.setBit_kept (State.setFld_kept (State.wr64_kept (State.inc_kept h)))

theorem State.freezeBy_goes {q_ : List Instr} {d_ : DevState} {s : State} (h : s.Kept q_ d_) {cause : Nat} : (s.freezeBy cause).Goes q_ d_ := by
  unfold State.freezeBy
  split
  · rename_i hc
    refine ⟨.frozen, .inr (.inr ⟨by rw [← h.dev]; exact clocked_live hc, rfl⟩), ?_⟩
    dsimp only
    with_reducible refine State.refreshDq_kept (State.gated_kept (State.parkAll_kept (State.loseTriggers_kept (State.stopPulses_kept (State.closeSeal_kept
      (State.cutStore_kept (State.abandonChange_kept (State.leaseEnd_kept h))))))) ?_)
    rw [State.parkAll_sys]
    exact State.loseTriggers_triggers _ _
  · exact h.goes

theorem State.sendHeader_kept {q_ : List Instr} {d_ : DevState} {s : State} (h : s.Kept q_ d_) : (State.sendHeader s).Kept q_ d_ := by
  unfold State.sendHeader
  try dsimp only
  with_reducible repeat' first
    | assumption | split | exact ⟨rfl, rfl⟩ | apply kept_update

theorem State.readoutStart_kept {q_ : List Instr} {d_ : DevState} {s : State} (h : s.Kept q_ d_) : (State.readoutStart s).Kept q_ d_ := by
  unfold State.readoutStart
  try dsimp only
  with_reducible repeat' first
    | assumption | apply kept_ite | apply State.sendHeader_kept | apply State.setBit_kept | apply State.wr64_kept
    | apply State.inc_kept | split

theorem State.allowResume_kept {q_ : List Instr} {d_ : DevState} {s : State} (h : s.Kept q_ d_) : (State.allowResume s).Kept q_ d_ := by
  unfold State.allowResume
  try dsimp only
  with_reducible repeat' first
    | assumption | apply kept_ite | split | exact ⟨rfl, rfl⟩ | apply kept_update

theorem State.readoutEnd_kept {q_ : List Instr} {d_ : DevState} {s : State} (h : s.Kept q_ d_) {bytes : BitVec 64} {ue : Word} : (State.readoutEnd s bytes ue).Kept q_ d_ := by
  unfold State.readoutEnd
  try lift_lets
  intros
  try
    have k_s1 : s1.Kept q_ d_ := by
      dsimp only [s1]
      with_reducible repeat' first
        | assumption | apply State.setBit_kept | apply State.wr64_kept | apply wr_kept
    clear_value s1
  try
    have k_s2 : s2.Kept q_ d_ := by
      dsimp only [s2]
      with_reducible repeat' first
        | assumption | apply State.raiseLine_kept
    clear_value s2
  with_reducible repeat' first
    | assumption | apply kept_ite | apply State.setBit_kept | apply State.wr64_kept | apply wr_kept | apply State.raiseLine_kept
    | apply State.allowResume_kept | dsimp only | split | dsimp +zetaDelta only | exact ⟨rfl, rfl⟩ | apply kept_update

theorem State.freezeRelease_kept {q_ : List Instr} {d_ : DevState} {s : State} (h : s.Kept q_ d_) {inp : BootInputs} : (State.freezeRelease s inp).Kept q_ d_ := by
  unfold State.freezeRelease
  try dsimp only
  with_reducible repeat' first
    | assumption | apply State.allowResume_kept | split | exact ⟨rfl, rfl⟩ | apply kept_update

theorem State.unpark_kept {q_ : List Instr} {d_ : DevState} {s : State} (h : s.Kept q_ d_) : (State.unpark s).Kept q_ d_ := by
  unfold State.unpark
  try dsimp only
  with_reducible repeat' first
    | assumption | intro _ | apply kept_ite | apply forUpTo_kept | apply State.setBit_kept | apply State.setDomain_kept
    | dsimp only | split

theorem State.slipAxes_kept {q_ : List Instr} {d_ : DevState} {s : State} (h : s.Kept q_ d_) : (State.slipAxes s).Kept q_ d_ := by
  unfold State.slipAxes
  try dsimp only
  with_reducible repeat' first
    | assumption | intro _ | apply kept_ite | apply forEach_kept | apply State.trackTick_kept | apply State.setAxState_kept
    | dsimp only | split

/-- In FROZEN: the part resumes in SAFESTOP where the safety functions were armed, else in the state it was frozen in. -/
theorem State.thaw_kept {q_ : List Instr} {s : State} (h : s.Kept q_ .frozen) {f : Freeze} :
    (s.thaw f).Kept q_ (if f.armed then .safestop else f.before) := by
  unfold State.thaw
  dsimp only
  generalize (if f.armed then DevState.safestop else f.before : DevState) = next
  have k1 : State.Kept q_ .frozen { s with sys := { s.sys with frozen := none } } := kept_update h ⟨rfl, rfl⟩
  revert k1
  generalize ({ s with sys := { s.sys with frozen := none } } : State) = u
  intro k1
  have k2 : (((u.unpark.dlrDeadline 2).dlrDeadline 4).enter next).Kept q_ next := by
    have k : ((u.unpark.dlrDeadline 2).dlrDeadline 4).Kept q_ .frozen :=
      State.dlrDeadline_kept (State.dlrDeadline_kept (State.unpark_kept k1))
    refine State.enter_kept k fun x hx => ?_
    rw [k.idle rfl] at hx; cases hx
  revert k2
  generalize ((u.unpark.dlrDeadline 2).dlrDeadline 4).enter next = v
  intro k2
  have k3 : (((v.setBit Reg.SYS_STAT 9 true).wr64 Reg.SYS_SLIP_TICKS (v.tick - v.rd64 Reg.SYS_FRZ_TICK)).event Page.SYS 4 0).Kept q_ next :=
    State.event_kept (State.wr64_kept (State.setBit_kept k2))
  revert k3
  generalize ((v.setBit Reg.SYS_STAT 9 true).wr64 Reg.SYS_SLIP_TICKS (v.tick - v.rd64 Reg.SYS_FRZ_TICK)).event Page.SYS 4 0 = w
  intro k3
  have k4 : (if f.armed then w.stopCause .freeze else w : State).Kept q_ next := kept_ite (State.stopCause_kept k3) k3
  revert k4
  generalize (if f.armed then w.stopCause .freeze else w : State) = x
  intro k4
  have k5 : (x.reportAbandoned).Kept q_ next := State.reportAbandoned_kept k4
  revert k5
  generalize x.reportAbandoned = y
  intro k5
  have k6 : ((y.solFresh.detLapse).wdtStart).Kept q_ next := State.wdtStart_kept (State.detLapse_kept (State.solFresh_kept k5))
  revert k6
  generalize (y.solFresh.detLapse).wdtStart = z
  intro k6
  split
  · exact getD_map_kept (fun _ => State.bootFrom3_kept k6) k6
  · exact State.enterSelftest_kept k6
  · refine forUpTo_kept (fun _ t ht => ?_) _ k6
    exact kept_ite (State.enterListen_kept ht) ht

end Sys2Proof.Machine
end

