-- ==== Sys2Proof/Laws/Kept/Seal.lean ====
section
/-! SUPPORT. The operations of Machine/Seal.lean keep the canonical form and the queue. -/

namespace Sys2Proof.Machine

set_option tactic.hygienic false
set_option linter.unusedTactic false
set_option linter.unreachableTactic false
set_option linter.unusedVariables false

theorem State.logOp_kept {q_ : List Instr} {d_ : DevState} {s : State} (h : s.Kept q_ d_) {n : Nat} {op : Nat} {result : Nat} {old : Word × Word} {new : Word × Word} : (State.logOp s n op result old new).Kept q_ d_ := by
  unfold State.logOp
  try lift_lets
  intros
  try clear_value e
  with_reducible repeat' first
    | assumption | exact fun h_ => h_ | exact Tab.wf_set _ _ | exact setDram_wf | exact setAll_wf | exact dropRange_wf
    | exact Tab.wf_dropRange _ _ | exact Tab.wf_filter _ | exact Tab.wf_setAll _ | exact Memory.wf_setN _ _ _
    | exact Memory.wf_setBytes _ _ | exact Memory.wf_clear _ _ | exact Memory.wf_copy _ _ _ | exact fun _ => nil_wf
    | exact fun _ => setAll_wf nil_wf | intro _ | apply kept_ite | dsimp only | split | dsimp +zetaDelta only | exact ⟨rfl, rfl⟩
    | apply kept_update | apply kept_tables

theorem State.logClear_kept {q_ : List Instr} {d_ : DevState} {s : State} (h : s.Kept q_ d_) {v : Word} : (State.logClear s v).Kept q_ d_ := by
  unfold State.logClear
  try dsimp only
  with_reducible repeat' first
    | assumption | intro _ | apply kept_ite | dsimp only | split | exact ⟨rfl, rfl⟩ | apply kept_update

theorem State.openSeal_kept {q_ : List Instr} {d_ : DevState} {s : State} (h : s.Kept q_ d_) : (State.openSeal s).Kept q_ d_ := by
  unfold State.openSeal
  try dsimp only
  with_reducible repeat' first
    | assumption | apply State.setBit_kept | apply State.event_kept | exact ⟨rfl, rfl⟩ | apply kept_update

theorem State.sealOpen_kept {q_ : List Instr} {d_ : DevState} {s : State} (h : s.Kept q_ d_) : (State.sealOpen s).Kept q_ d_ := by
  unfold State.sealOpen
  try lift_lets
  intros
  try clear_value n
  with_reducible repeat' first
    | assumption | apply kept_ite | apply State.openSeal_kept | apply State.refreshSaf_kept | apply State.inc_kept | dsimp only
    | split | dsimp +zetaDelta only | exact ⟨rfl, rfl⟩ | apply kept_update

theorem State.lockoutEnd_kept {q_ : List Instr} {d_ : DevState} {s : State} (h : s.Kept q_ d_) : (State.lockoutEnd s).Kept q_ d_ := by
  unfold State.lockoutEnd
  try dsimp only
  with_reducible repeat' first
    | assumption | exact ⟨rfl, rfl⟩ | apply kept_update

theorem State.logRefused_kept {q_ : List Instr} {d_ : DevState} {s : State} (h : s.Kept q_ d_) : (State.logRefused s).Kept q_ d_ := by
  unfold State.logRefused
  try dsimp only
  with_reducible repeat' first
    | assumption | apply State.setFld_kept

theorem State.passwordSet_kept {q_ : List Instr} {d_ : DevState} {s : State} (h : s.Kept q_ d_) : (State.passwordSet s).Kept q_ d_ := by
  unfold State.passwordSet
  try lift_lets
  intros
  try clear_value n
  with_reducible repeat' first
    | assumption | apply kept_ite | apply State.logRefused_kept | apply State.logOp_kept | dsimp only | split
    | dsimp +zetaDelta only | exact ⟨rfl, rfl⟩ | apply kept_update

theorem State.methodReq_kept {q_ : List Instr} {d_ : DevState} {s : State} (h : s.Kept q_ d_) {v : Word} : (State.methodReq s v).Kept q_ d_ := by
  unfold State.methodReq
  try lift_lets
  intros
  try clear_value m
  try clear_value n
  try clear_value next
  with_reducible repeat' first
    | assumption | apply kept_ite | apply State.logRefused_kept | apply State.setBit_kept | apply State.logOp_kept | dsimp only
    | split | dsimp +zetaDelta only | exact ⟨rfl, rfl⟩ | apply kept_update

theorem State.sealTick_kept {q_ : List Instr} {d_ : DevState} {s : State} (h : s.Kept q_ d_) : (State.sealTick s).Kept q_ d_ := by
  unfold State.sealTick
  try lift_lets
  intros
  try clear_value sw
  try clear_value changed
  try clear_value opened
  try
    have k_s1 : s1.Kept q_ d_ := by
      dsimp only [s1]
      with_reducible repeat' first
        | assumption | intro _ | dsimp only | exact ⟨rfl, rfl⟩ | apply kept_update
    clear_value s1
  try
    have k_s2 : s2.Kept q_ d_ := by
      dsimp only [s2]
      with_reducible repeat' first
        | assumption | apply kept_ite | apply State.setBit_kept | apply State.alarm_kept | split
    clear_value s2
  try
    have k_s3 : s3.Kept q_ d_ := by
      dsimp only [s3]
      with_reducible repeat' first
        | assumption | apply State.setBit_kept
    clear_value s3
  with_reducible repeat' first
    | assumption | intro _ | apply kept_ite | apply State.setBit_kept | apply State.alarm_kept | apply State.event_kept
    | dsimp only | split | dsimp +zetaDelta only | exact ⟨rfl, rfl⟩ | apply kept_update

theorem State.storeEnd_kept {q_ : List Instr} {d_ : DevState} {s : State} (h : s.Kept q_ d_) {op : Nat} {result : Nat} : (State.storeEnd s op result).Kept q_ d_ := by
  unfold State.storeEnd
  try lift_lets
  intros
  try
    have k_s1 : s1.Kept q_ d_ := by
      dsimp only [s1]
      with_reducible repeat' first
        | assumption | apply State.wrN_kept | exact ⟨rfl, rfl⟩ | apply kept_update
    clear_value s1
  with_reducible repeat' first
    | assumption | apply State.wrN_kept | apply State.event_kept | apply State.refreshSaf_kept | dsimp only
    | dsimp +zetaDelta only | exact ⟨rfl, rfl⟩ | apply kept_update

theorem State.safStore_kept {q_ : List Instr} {d_ : DevState} {s : State} (h : s.Kept q_ d_) {v : Word} : (State.safStore s v).Kept q_ d_ := by
  unfold State.safStore
  try lift_lets
  intros
  try clear_value n
  try clear_value code
  try
    have k_x : x.Kept q_ d_ := by
      dsimp only [x]
      with_reducible repeat' first
        | assumption
    clear_value x
  with_reducible repeat' first
    | assumption | exact fun h_ => h_ | exact Tab.wf_set _ _ | exact setDram_wf | exact setAll_wf | exact dropRange_wf
    | exact Tab.wf_dropRange _ _ | exact Tab.wf_filter _ | exact Tab.wf_setAll _ | exact Memory.wf_setN _ _ _
    | exact Memory.wf_setBytes _ _ | exact Memory.wf_clear _ _ | exact Memory.wf_copy _ _ _ | exact fun _ => nil_wf
    | exact fun _ => setAll_wf nil_wf | apply kept_ite | apply State.storeEnd_kept | apply State.wrN_kept
    | apply State.refreshSaf_kept | dsimp only | split | dsimp +zetaDelta only | exact ⟨rfl, rfl⟩ | apply kept_update
    | apply kept_tables

theorem State.putSlot_kept {q_ : List Instr} {d_ : DevState} {s : State} (h : s.Kept q_ d_) {n : Nat} {k : Nat} {x : SafSlot} : (State.putSlot s n k x).Kept q_ d_ := by
  unfold State.putSlot
  try dsimp only
  with_reducible repeat' first
    | assumption | exact ⟨rfl, rfl⟩ | apply kept_update

theorem State.storeDone_kept {q_ : List Instr} {d_ : DevState} {s : State} (h : s.Kept q_ d_) {img : SafetyImage} {crcA : Bool} {crcB : Bool} {flashOk : Bool} : (State.storeDone s img crcA crcB flashOk).Kept q_ d_ := by
  unfold State.storeDone
  try lift_lets
  intros
  try clear_value r
  try clear_value old
  try clear_value slot
  try
    have k_s1 : s1.Kept q_ d_ := by
      dsimp only [s1]
      with_reducible repeat' first
        | assumption | apply kept_ite | apply State.putSlot_kept | split
    clear_value s1
  try
    have k_s2 : s2.Kept q_ d_ := by
      dsimp only [s2]
      with_reducible repeat' first
        | assumption | apply kept_ite | apply State.inc_kept | split
    clear_value s2
  try
    have k_s3 : s3.Kept q_ d_ := by
      dsimp only [s3]
      with_reducible repeat' first
        | assumption | apply kept_ite | apply State.setFld_kept | split
    clear_value s3
  with_reducible repeat' first
    | assumption | exact fun h_ => h_ | exact Tab.wf_set _ _ | exact setDram_wf | exact setAll_wf | exact dropRange_wf
    | exact Tab.wf_dropRange _ _ | exact Tab.wf_filter _ | exact Tab.wf_setAll _ | exact Memory.wf_setN _ _ _
    | exact Memory.wf_setBytes _ _ | exact Memory.wf_clear _ _ | exact Memory.wf_copy _ _ _ | exact fun _ => nil_wf
    | exact fun _ => setAll_wf nil_wf | apply kept_ite | apply State.putSlot_kept | apply State.inc_kept | apply State.setFld_kept
    | apply State.logOp_kept | apply State.storeEnd_kept | dsimp only | split | dsimp +zetaDelta only | apply kept_tables

theorem State.safLoad_kept {q_ : List Instr} {d_ : DevState} {s : State} (h : s.Kept q_ d_) {v : Word} : (State.safLoad s v).Kept q_ d_ := by
  unfold State.safLoad
  try lift_lets
  intros
  try clear_value n
  try clear_value code
  try clear_value k
  try
    have k_s1 : s1.Kept q_ d_ := by
      dsimp only [s1]
      with_reducible repeat' first
        | assumption | apply State.takeFree_kept | dsimp +zetaDelta only
    clear_value s1
  with_reducible repeat' first
    | assumption | exact fun h_ => h_ | exact Tab.wf_set _ _ | exact setDram_wf | exact setAll_wf | exact dropRange_wf
    | exact Tab.wf_dropRange _ _ | exact Tab.wf_filter _ | exact Tab.wf_setAll _ | exact Memory.wf_setN _ _ _
    | exact Memory.wf_setBytes _ _ | exact Memory.wf_clear _ _ | exact Memory.wf_copy _ _ _ | exact fun _ => nil_wf
    | exact fun _ => setAll_wf nil_wf | apply kept_ite | apply State.storeEnd_kept | apply State.wrN_kept
    | apply State.refreshSaf_kept | apply State.takeFree_kept | dsimp only | split | dsimp +zetaDelta only | exact ⟨rfl, rfl⟩
    | apply kept_update | apply kept_tables

theorem State.loadTick_kept {q_ : List Instr} {d_ : DevState} {s : State} (h : s.Kept q_ d_) : (State.loadTick s).Kept q_ d_ := by
  unfold State.loadTick
  try lift_lets
  intros
  try clear_value old
  try
    have k_s1 : s1.Kept q_ d_ := by
      dsimp only [s1]
      with_reducible repeat' first
        | assumption | apply State.applySet_kept | apply State.refreshCfg_kept | exact ⟨rfl, rfl⟩ | apply kept_update
    clear_value s1
  with_reducible repeat' first
    | assumption | apply State.applySet_kept | apply State.refreshCfg_kept | apply State.logOp_kept | apply State.storeEnd_kept
    | dsimp only | split | dsimp +zetaDelta only | exact ⟨rfl, rfl⟩ | apply kept_update

end Sys2Proof.Machine
end

