-- ==== Sys2Proof/Laws/Kept/Field.lean ====
section
/-! SUPPORT. The operations of Machine/Field.lean keep the canonical form and the queue. -/

namespace Sys2Proof.Machine

set_option tactic.hygienic false
set_option linter.unusedTactic false
set_option linter.unreachableTactic false
set_option linter.unusedVariables false

theorem State.diRead_kept {q_ : List Instr} {d_ : DevState} {s : State} (h : s.Kept q_ d_) {i : Nat} {mv : Int} : (State.diRead s i mv).2.Kept q_ d_ := by
  unfold State.diRead
  try lift_lets
  intros
  with_reducible repeat' first
    | assumption | apply kept_ite | apply State.takeFree_kept | dsimp only | split | dsimp +zetaDelta only

theorem State.diInput_kept {q_ : List Instr} {d_ : DevState} {s0 : State} (h : s0.Kept q_ d_) {x : FieldSample} {i : Nat} : (State.diInput s0 x i).Kept q_ d_ := by
  unfold State.diInput
  try lift_lets
  intros
  try clear_value f
  try clear_value lvl
  try clear_value r
  try
    have k_s : s.Kept q_ d_ := by
      dsimp only [s]
      with_reducible repeat' first
        | assumption | intro _ | apply getD_map_kept | apply State.diRead_kept | dsimp +zetaDelta only
    clear_value s
  with_reducible repeat' first
    | assumption | intro _ | apply kept_ite | apply getD_map_kept | apply State.diRead_kept | dsimp only | split
    | dsimp +zetaDelta only | exact ⟨rfl, rfl⟩ | apply kept_update

theorem State.diTests_kept {q_ : List Instr} {d_ : DevState} {s : State} (h : s.Kept q_ d_) {fail : BitVec 32} : (State.diTests s fail).Kept q_ d_ := by
  unfold State.diTests
  try dsimp only
  with_reducible repeat' first
    | assumption | intro _ | apply kept_ite | apply State.add_kept | apply State.event_kept | dsimp only | split
    | exact ⟨rfl, rfl⟩ | apply kept_update

theorem State.extf_kept {q_ : List Instr} {d_ : DevState} {s : State} (h : s.Kept q_ d_) {i : Nat} : (State.extf s i).Kept q_ d_ := by
  unfold State.extf
  try dsimp only
  with_reducible repeat' first
    | assumption | apply kept_ite | apply State.inc_kept | apply State.setBit_kept | apply State.event_kept
    | apply State.refreshDq_kept | split

theorem State.readback_kept {q_ : List Instr} {d_ : DevState} {s : State} (h : s.Kept q_ d_) {i : Nat} : (State.readback s i).Kept q_ d_ := by
  unfold State.readback
  try lift_lets
  intros
  try clear_value f
  try clear_value high
  try
    have k_s1 : s1.Kept q_ d_ := by
      dsimp only [s1]
      with_reducible repeat' first
        | assumption | exact ⟨rfl, rfl⟩ | apply kept_update
    clear_value s1
  with_reducible repeat' first
    | assumption | apply kept_ite | apply State.extf_kept | dsimp only | split | dsimp +zetaDelta only | exact ⟨rfl, rfl⟩
    | apply kept_update

theorem State.openLoad_kept {q_ : List Instr} {d_ : DevState} {s : State} (h : s.Kept q_ d_) {i : Nat} {off : Bool} : (State.openLoad s i off).Kept q_ d_ := by
  unfold State.openLoad
  try lift_lets
  intros
  try clear_value b
  with_reducible repeat' first
    | assumption | apply kept_ite | apply State.setBit_kept | apply State.inc_kept | apply State.event_kept | dsimp only | split
    | dsimp +zetaDelta only

theorem State.openOff_kept {q_ : List Instr} {d_ : DevState} {s : State} (h : s.Kept q_ d_) {i : Nat} : (State.openOff s i).Kept q_ d_ := by
  unfold State.openOff
  try lift_lets
  intros
  try clear_value f
  try clear_value now
  try
    have k_s1 : s1.Kept q_ d_ := by
      dsimp only [s1]
      with_reducible repeat' first
        | assumption | exact ⟨rfl, rfl⟩ | apply kept_update
    clear_value s1
  with_reducible repeat' first
    | assumption | apply kept_ite | apply State.openLoad_kept | dsimp only | split | dsimp +zetaDelta only | exact ⟨rfl, rfl⟩
    | apply kept_update

theorem State.openOn_kept {q_ : List Instr} {d_ : DevState} {s : State} (h : s.Kept q_ d_) {i : Nat} : (State.openOn s i).Kept q_ d_ := by
  unfold State.openOn
  try lift_lets
  intros
  try clear_value cur
  try clear_value n
  try
    have k_s1 : s1.Kept q_ d_ := by
      dsimp only [s1]
      with_reducible repeat' first
        | assumption | exact ⟨rfl, rfl⟩ | apply kept_update
    clear_value s1
  with_reducible repeat' first
    | assumption | apply kept_ite | apply State.openLoad_kept | dsimp only | split | dsimp +zetaDelta only | exact ⟨rfl, rfl⟩
    | apply kept_update

theorem State.lpOk_kept {q_ : List Instr} {d_ : DevState} {s : State} (h : s.Kept q_ d_) {g : Nat} : (State.lpOk s g).Kept q_ d_ := by
  unfold State.lpOk
  try dsimp only
  with_reducible repeat' first
    | assumption | apply State.setBit_kept

theorem State.lpUnder_kept {q_ : List Instr} {d_ : DevState} {s : State} (h : s.Kept q_ d_) {g : Nat} : (State.lpUnder s g).Kept q_ d_ := by
  unfold State.lpUnder
  try lift_lets
  intros
  try
    have k_s1 : s1.Kept q_ d_ := by
      dsimp only [s1]
      with_reducible repeat' first
        | assumption | exact ⟨rfl, rfl⟩ | apply kept_update
    clear_value s1
  with_reducible repeat' first
    | assumption | apply kept_ite | apply State.setBit_kept | apply State.inc_kept | apply State.alarm_kept
    | apply State.lpOk_kept | apply State.refreshDq_kept | dsimp only | split | dsimp +zetaDelta only | exact ⟨rfl, rfl⟩
    | apply kept_update

theorem State.lpHigh_kept {q_ : List Instr} {d_ : DevState} {s : State} (h : s.Kept q_ d_) {g : Nat} : (State.lpHigh s g).Kept q_ d_ := by
  unfold State.lpHigh
  try dsimp only
  with_reducible repeat' first
    | assumption | apply kept_ite | apply State.setBit_kept | apply State.alarm_kept | apply State.lpOk_kept | split
    | exact ⟨rfl, rfl⟩ | apply kept_update

theorem State.lpRecovery_kept {q_ : List Instr} {d_ : DevState} {s : State} (h : s.Kept q_ d_) {g : Nat} : (State.lpRecovery s g).Kept q_ d_ := by
  unfold State.lpRecovery
  try dsimp only
  with_reducible repeat' first
    | assumption | apply kept_ite | apply State.lpOk_kept | split | exact ⟨rfl, rfl⟩ | apply kept_update

theorem State.lpSample_kept {q_ : List Instr} {d_ : DevState} {s : State} (h : s.Kept q_ d_) {g : Nat} {mv : Nat} : (State.lpSample s g mv).Kept q_ d_ := by
  unfold State.lpSample
  try lift_lets
  intros
  try
    have k_s1 : s1.Kept q_ d_ := by
      dsimp only [s1]
      with_reducible repeat' first
        | assumption | apply kept_ite | apply State.lpUnder_kept | split | exact ⟨rfl, rfl⟩ | apply kept_update
    clear_value s1
  try
    have k_s2 : s2.Kept q_ d_ := by
      dsimp only [s2]
      with_reducible repeat' first
        | assumption | apply kept_ite | apply State.lpHigh_kept | split | exact ⟨rfl, rfl⟩ | apply kept_update
    clear_value s2
  with_reducible repeat' first
    | assumption | apply kept_ite | apply State.lpUnder_kept | apply State.lpHigh_kept | apply State.lpOk_kept | dsimp only
    | split | dsimp +zetaDelta only | exact ⟨rfl, rfl⟩ | apply kept_update

theorem State.diSample_kept {q_ : List Instr} {d_ : DevState} {s : State} (h : s.Kept q_ d_) {j : Nat} {x : FieldSample} : (State.diSample s j x).Kept q_ d_ := by
  unfold State.diSample
  try lift_lets
  intros
  try
    have k_s0 : s0.Kept q_ d_ := by
      dsimp only [s0]
      with_reducible repeat' first
        | assumption | apply kept_ite | apply State.advance_kept | split
    clear_value s0
  try
    have k_s00 : s00.Kept q_ d_ := by
      dsimp only [s00]
      with_reducible repeat' first
        | assumption | intro _ | apply forUpTo_kept | apply State.diInput_kept | dsimp only
    clear_value s00
  try
    have k_s1 : s1.Kept q_ d_ := by
      dsimp only [s1]
      with_reducible repeat' first
        | assumption | apply State.homeDi_kept | apply State.diTests_kept
    clear_value s1
  try
    have k_s2 : s2.Kept q_ d_ := by
      dsimp only [s2]
      with_reducible repeat' first
        | assumption | exact ⟨rfl, rfl⟩ | apply kept_update
    clear_value s2
  try
    have k_s3 : s3.Kept q_ d_ := by
      dsimp only [s3]
      with_reducible repeat' first
        | assumption | apply State.setFld_kept | apply State.wrN_kept
    clear_value s3
  try
    have k_s4 : s4.Kept q_ d_ := by
      dsimp only [s4]
      with_reducible repeat' first
        | assumption | intro _ | apply kept_ite | apply forUpTo_kept | apply getD_map_kept | apply State.setFld_kept | dsimp only
        | split
    clear_value s4
  try
    have k_s5 : s5.Kept q_ d_ := by
      dsimp only [s5]
      with_reducible repeat' first
        | assumption | apply State.lpSample_kept
    clear_value s5
  try
    have k_s6 : s6.Kept q_ d_ := by
      dsimp only [s6]
      with_reducible repeat' first
        | assumption | intro _ | apply forUpTo_kept | apply State.readback_kept | dsimp only
    clear_value s6
  with_reducible repeat' first
    | assumption | intro _ | apply kept_ite | apply forUpTo_kept | apply getD_map_kept | apply State.advance_kept
    | apply State.diInput_kept | apply State.homeDi_kept | apply State.diTests_kept | apply State.setFld_kept
    | apply State.wrN_kept | apply State.lpSample_kept | apply State.readback_kept | apply State.openOff_kept | dsimp only | split
    | dsimp +zetaDelta only | exact ⟨rfl, rfl⟩ | apply kept_update

theorem State.setCountRt_kept {q_ : List Instr} {d_ : DevState} {s : State} (h : s.Kept q_ d_) {i : Nat} {x : CountRt} : (State.setCountRt s i x).Kept q_ d_ := by
  unfold State.setCountRt
  try dsimp only
  with_reducible repeat' first
    | assumption | intro _ | dsimp only | exact ⟨rfl, rfl⟩ | apply kept_update

theorem State.countEdge_kept {q_ : List Instr} {d_ : DevState} {s : State} (h : s.Kept q_ d_) {i : Nat} {rising : Bool} {t : Nat} : (State.countEdge s i rising t).Kept q_ d_ := by
  unfold State.countEdge
  try lift_lets
  intros
  try clear_value c
  try
    have k_x : x.Kept q_ d_ := by
      dsimp only [x]
      with_reducible repeat' first
        | assumption
    clear_value x
  with_reducible repeat' first
    | assumption | intro _ | apply kept_ite | apply State.wrN_kept | apply State.setCountRt_kept | dsimp only | split
    | dsimp +zetaDelta only | exact ⟨rfl, rfl⟩ | apply kept_update

theorem State.countTick_kept {q_ : List Instr} {d_ : DevState} {s : State} (h : s.Kept q_ d_) {i : Nat} : (State.countTick s i).Kept q_ d_ := by
  unfold State.countTick
  try lift_lets
  intros
  try clear_value c
  try clear_value gate
  try clear_value v
  try clear_value hist
  try clear_value freq
  try
    have k_x : x.Kept q_ d_ := by
      dsimp only [x]
      with_reducible repeat' first
        | assumption
    clear_value x
  with_reducible repeat' first
    | assumption | intro _ | apply kept_ite | apply getD_map_kept | apply State.setCountRt_kept | apply State.wrN_kept
    | dsimp only | split | dsimp +zetaDelta only | exact ⟨rfl, rfl⟩ | apply kept_update

theorem State.putSnapshot_kept {q_ : List Instr} {d_ : DevState} {s : State} (h : s.Kept q_ d_) : (State.putSnapshot s).Kept q_ d_ := by
  unfold State.putSnapshot
  try lift_lets
  intros
  try
    have k_s1 : s1.Kept q_ d_ := by
      dsimp only [s1]
      with_reducible repeat' first
        | assumption | exact ⟨rfl, rfl⟩ | apply kept_update
    clear_value s1
  with_reducible repeat' first
    | assumption | intro _ | apply kept_ite | apply forEach_kept | apply State.setCell_kept | apply State.copyCell_kept
    | dsimp only | split | dsimp +zetaDelta only | exact ⟨rfl, rfl⟩ | apply kept_update

theorem State.snapTaken_kept {q_ : List Instr} {d_ : DevState} {s : State} (h : s.Kept q_ d_) : (State.snapTaken s).Kept q_ d_ := by
  unfold State.snapTaken
  try lift_lets
  intros
  try
    have k_s1 : s1.Kept q_ d_ := by
      dsimp only [s1]
      with_reducible repeat' first
        | assumption | apply State.wrN_kept
    clear_value s1
  with_reducible repeat' first
    | assumption | apply State.wrN_kept | dsimp only | dsimp +zetaDelta only | exact ⟨rfl, rfl⟩ | apply kept_update

theorem State.putOutputWord_kept {q_ : List Instr} {d_ : DevState} {s : State} (h : s.Kept q_ d_) : (State.putOutputWord s).Kept q_ d_ := by
  unfold State.putOutputWord
  try lift_lets
  intros
  try
    have k_s1 : s1.Kept q_ d_ := by
      dsimp only [s1]
      with_reducible repeat' first
        | assumption | apply State.setCell_kept
    clear_value s1
  with_reducible repeat' first
    | assumption | apply State.setCell_kept | dsimp only | dsimp +zetaDelta only | exact ⟨rfl, rfl⟩ | apply kept_update

theorem State.cutOutputs_kept {q_ : List Instr} {d_ : DevState} {s : State} (h : s.Kept q_ d_) : (State.cutOutputs s).Kept q_ d_ := by
  unfold State.cutOutputs
  try dsimp only
  with_reducible repeat' first
    | assumption | exact ⟨rfl, rfl⟩ | apply kept_update

theorem State.checkedWord_kept {q_ : List Instr} {d_ : DevState} {s : State} (h : s.Kept q_ d_) : (State.checkedWord s).Kept q_ d_ := by
  unfold State.checkedWord
  try lift_lets
  intros
  try clear_value w
  with_reducible repeat' first
    | assumption | apply kept_ite | dsimp only | split | dsimp +zetaDelta only | exact ⟨rfl, rfl⟩ | apply kept_update

theorem State.cmdLoss_kept {q_ : List Instr} {d_ : DevState} {s : State} (h : s.Kept q_ d_) : (State.cmdLoss s).Kept q_ d_ := by
  unfold State.cmdLoss
  try dsimp only
  with_reducible repeat' first
    | assumption | apply kept_ite | apply State.setBit_kept | apply State.inc_kept | apply State.event_kept
    | apply State.refreshDq_kept | split | exact ⟨rfl, rfl⟩ | apply kept_update

theorem State.setOvlOff_kept {q_ : List Instr} {d_ : DevState} {s : State} (h : s.Kept q_ d_) {i : Nat} {b : Bool} : (State.setOvlOff s i b).Kept q_ d_ := by
  unfold State.setOvlOff
  try dsimp only
  with_reducible repeat' first
    | assumption | exact ⟨rfl, rfl⟩ | apply kept_update

theorem State.overload_kept {q_ : List Instr} {d_ : DevState} {s : State} (h : s.Kept q_ d_) {i : Nat} : (State.overload s i).Kept q_ d_ := by
  unfold State.overload
  try dsimp only
  with_reducible repeat' first
    | assumption | apply State.setOvlOff_kept | apply State.setBit_kept | apply State.inc_kept | apply State.alarm_kept
    | apply State.refreshDq_kept

theorem State.blankAnew_kept {q_ : List Instr} {d_ : DevState} {s : State} (h : s.Kept q_ d_) {i : Nat} : (State.blankAnew s i).Kept q_ d_ := by
  unfold State.blankAnew
  try dsimp only
  with_reducible repeat' first
    | assumption | intro _ | dsimp only | exact ⟨rfl, rfl⟩ | apply kept_update

theorem State.overloadRetry_kept {q_ : List Instr} {d_ : DevState} {s : State} (h : s.Kept q_ d_) {i : Nat} {holds : Bool} : (State.overloadRetry s i holds).Kept q_ d_ := by
  unfold State.overloadRetry
  try dsimp only
  with_reducible repeat' first
    | assumption | apply kept_ite | apply State.setOvlOff_kept | apply State.setBit_kept | apply State.refreshDq_kept
    | apply State.blankAnew_kept | apply State.overload_kept | split

theorem State.vccLoss_kept {q_ : List Instr} {d_ : DevState} {s : State} (h : s.Kept q_ d_) : (State.vccLoss s).Kept q_ d_ := by
  unfold State.vccLoss
  try lift_lets
  intros
  try
    have k_s1 : s1.Kept q_ d_ := by
      dsimp only [s1]
      with_reducible repeat' first
        | assumption | apply State.flintTrip_kept
    clear_value s1
  try
    have k_s2 : s2.Kept q_ d_ := by
      dsimp only [s2]
      with_reducible repeat' first
        | assumption | exact fun h_ => h_ | exact Tab.wf_set _ _ | exact setDram_wf | exact setAll_wf | exact dropRange_wf
        | exact Tab.wf_dropRange _ _ | exact Tab.wf_filter _ | exact Tab.wf_setAll _ | exact Memory.wf_setN _ _ _
        | exact Memory.wf_setBytes _ _ | exact Memory.wf_clear _ _ | exact Memory.wf_copy _ _ _ | exact fun _ => nil_wf
        | exact fun _ => setAll_wf nil_wf | exact ⟨rfl, rfl⟩ | apply kept_update | apply kept_tables
    clear_value s2
  with_reducible repeat' first
    | assumption | exact fun h_ => h_ | exact Tab.wf_set _ _ | exact setDram_wf | exact setAll_wf | exact dropRange_wf
    | exact Tab.wf_dropRange _ _ | exact Tab.wf_filter _ | exact Tab.wf_setAll _ | exact Memory.wf_setN _ _ _
    | exact Memory.wf_setBytes _ _ | exact Memory.wf_clear _ _ | exact Memory.wf_copy _ _ _ | exact fun _ => nil_wf
    | exact fun _ => setAll_wf nil_wf | apply kept_ite | apply State.flintTrip_kept | apply State.setBit_kept
    | apply State.refreshDq_kept | dsimp only | split | dsimp +zetaDelta only | exact ⟨rfl, rfl⟩ | apply kept_update
    | apply kept_tables

theorem State.vccRecovery_kept {q_ : List Instr} {d_ : DevState} {s : State} (h : s.Kept q_ d_) : (State.vccRecovery s).Kept q_ d_ := by
  unfold State.vccRecovery
  try dsimp only
  with_reducible repeat' first
    | assumption | apply kept_ite | apply State.setBit_kept | apply State.flintState_kept | apply State.refreshSaf_kept
    | apply State.refreshDq_kept | split | exact ⟨rfl, rfl⟩ | apply kept_update

theorem State.endOverloads_kept {q_ : List Instr} {d_ : DevState} {s : State} (h : s.Kept q_ d_) : (State.endOverloads s).Kept q_ d_ := by
  unfold State.endOverloads
  try dsimp only
  with_reducible repeat' first
    | assumption | intro _ | apply kept_ite | apply forUpTo_kept | apply State.setOvlOff_kept | dsimp only | split

theorem State.switchOutputs_kept {q_ : List Instr} {d_ : DevState} {s : State} (h : s.Kept q_ d_) : (State.switchOutputs s).Kept q_ d_ := by
  unfold State.switchOutputs
  try lift_lets
  intros
  try clear_value f
  try clear_value f1
  try
    have k_s1 : s1.Kept q_ d_ := by
      dsimp only [s1]
      with_reducible repeat' first
        | assumption | exact ⟨rfl, rfl⟩ | apply kept_update
    clear_value s1
  with_reducible repeat' first
    | assumption | apply State.setFld_kept | apply State.endOverloads_kept | apply State.refreshDq_kept | dsimp only | split
    | dsimp +zetaDelta only | exact ⟨rfl, rfl⟩ | apply kept_update

theorem State.fieldBoundary_kept {q_ : List Instr} {d_ : DevState} {s : State} (h : s.Kept q_ d_) : (State.fieldBoundary s).Kept q_ d_ := by
  unfold State.fieldBoundary
  try lift_lets
  intros
  try
    have k_s1 : s1.Kept q_ d_ := by
      dsimp only [s1]
      with_reducible repeat' first
        | assumption | intro _ | apply forUpTo_kept | apply State.countTick_kept | apply State.openOn_kept | dsimp only
    clear_value s1
  with_reducible repeat' first
    | assumption | intro _ | apply kept_ite | apply forUpTo_kept | apply State.countTick_kept | apply State.openOn_kept
    | apply State.putSnapshot_kept | apply State.snapTaken_kept | apply State.switchOutputs_kept | dsimp only | split
    | dsimp +zetaDelta only

end Sys2Proof.Machine
end

