-- ==== Sys2Proof/Laws/Kept/Twin.lean ====
section
/-! SUPPORT. The operations of Machine/Twin.lean keep the canonical form and the queue. -/

namespace Sys2Proof.Machine

set_option tactic.hygienic false
set_option linter.unusedTactic false
set_option linter.unreachableTactic false
set_option linter.unusedVariables false

theorem State.setTwin_kept {q_ : List Instr} {d_ : DevState} {s : State} (h : s.Kept q_ d_) {x : Twin} : (State.setTwin s x).Kept q_ d_ := by
  unfold State.setTwin
  try dsimp only
  with_reducible repeat' first
    | assumption | exact ⟨rfl, rfl⟩ | apply kept_update

theorem State.takeLock_kept {q_ : List Instr} {d_ : DevState} {s : State} (h : s.Kept q_ d_) {switchover : Bool} : (State.takeLock s switchover).Kept q_ d_ := by
  unfold State.takeLock
  try dsimp only
  with_reducible repeat' first
    | assumption | apply kept_ite | apply State.setBit_kept | apply State.setTwin_kept | split | exact ⟨rfl, rfl⟩
    | apply kept_update

theorem State.interlockTake_kept {q_ : List Instr} {d_ : DevState} {s : State} (h : s.Kept q_ d_) : (State.interlockTake s).Kept q_ d_ := by
  unfold State.interlockTake
  try dsimp only
  with_reducible repeat' first
    | assumption | apply kept_ite | apply State.takeLock_kept | split

theorem State.interlockCheck_kept {q_ : List Instr} {d_ : DevState} {s : State} (h : s.Kept q_ d_) : (State.interlockCheck s).Kept q_ d_ := by
  unfold State.interlockCheck
  try dsimp only
  with_reducible repeat' first
    | assumption | apply kept_ite | apply State.setBit_kept | apply State.inc_kept | apply State.setTwin_kept | split
    | exact ⟨rfl, rfl⟩ | apply kept_update

theorem State.interlockRetry_kept {q_ : List Instr} {d_ : DevState} {s : State} (h : s.Kept q_ d_) : (State.interlockRetry s).Kept q_ d_ := by
  unfold State.interlockRetry
  try dsimp only
  with_reducible repeat' first
    | assumption | apply State.setTwin_kept | apply State.interlockTake_kept | split | exact ⟨rfl, rfl⟩ | apply kept_update

theorem State.syncFail_kept {q_ : List Instr} {d_ : DevState} {s : State} (h : s.Kept q_ d_) : (State.syncFail s).Kept q_ d_ := by
  unfold State.syncFail
  try lift_lets
  intros
  try
    have k_s1 : s1.Kept q_ d_ := by
      dsimp only [s1]
      with_reducible repeat' first
        | assumption | apply State.setBit_kept | apply State.event_kept
    clear_value s1
  with_reducible repeat' first
    | assumption | apply kept_ite | apply State.setBit_kept | apply State.event_kept | apply State.setTwin_kept | dsimp only
    | split | dsimp +zetaDelta only | exact ⟨rfl, rfl⟩ | apply kept_update

theorem State.laneErrors_kept {q_ : List Instr} {d_ : DevState} {s : State} (h : s.Kept q_ d_) {n : Nat} : (State.laneErrors s n).Kept q_ d_ := by
  unfold State.laneErrors
  try dsimp only
  with_reducible repeat' first
    | assumption | apply kept_ite | apply State.add_kept | split

theorem State.startSync_kept {q_ : List Instr} {d_ : DevState} {s : State} (h : s.Kept q_ d_) : (State.startSync s).Kept q_ d_ := by
  unfold State.startSync
  try dsimp only
  with_reducible repeat' first
    | assumption | apply kept_ite | apply State.setTwin_kept | apply State.setBit_kept | apply State.syncFail_kept | split
    | exact ⟨rfl, rfl⟩ | apply kept_update

theorem State.syncCmd_kept {q_ : List Instr} {d_ : DevState} {s : State} (h : s.Kept q_ d_) : (State.syncCmd s).Kept q_ d_ := by
  unfold State.syncCmd
  try dsimp only
  with_reducible repeat' first
    | assumption | apply kept_ite | apply State.startSync_kept | split

theorem State.autoSync_kept {q_ : List Instr} {d_ : DevState} {s : State} (h : s.Kept q_ d_) : (State.autoSync s).Kept q_ d_ := by
  unfold State.autoSync
  try dsimp only
  with_reducible repeat' first
    | assumption | apply kept_ite | apply State.syncCmd_kept | split

theorem State.loadSync_kept {q_ : List Instr} {d_ : DevState} {s : State} (h : s.Kept q_ d_) {i : SyncImage} : (State.loadSync s i).Kept q_ d_ := by
  unfold State.loadSync
  try lift_lets
  intros
  try
    have k_s1 : s1.Kept q_ d_ := by
      dsimp only [s1]
      with_reducible repeat' first
        | assumption | intro _ | apply forEach_kept | apply State.setCell_kept | dsimp only
    clear_value s1
  try
    have k_s2 : s2.Kept q_ d_ := by
      dsimp only [s2]
      with_reducible repeat' first
        | assumption | intro _ | apply kept_ite | apply forEach_kept | apply State.setCtxW_kept | apply wr_kept | dsimp only
        | split
    clear_value s2
  with_reducible repeat' first
    | assumption | intro _ | apply kept_ite | apply forEach_kept | apply State.setCell_kept | apply State.setCtxW_kept
    | apply wr_kept | apply State.setRp_kept | dsimp only | split | dsimp +zetaDelta only | exact ⟨rfl, rfl⟩ | apply kept_update

theorem State.syncCaughtUp_kept {q_ : List Instr} {d_ : DevState} {s : State} (h : s.Kept q_ d_) {digestOk : Bool} : (State.syncCaughtUp s digestOk).Kept q_ d_ := by
  unfold State.syncCaughtUp
  try dsimp only
  with_reducible repeat' first
    | assumption | apply kept_ite | apply State.inc_kept | apply State.event_kept | apply State.setTwin_kept | split
    | exact ⟨rfl, rfl⟩ | apply kept_update

theorem State.cutRequests_kept {q_ : List Instr} {d_ : DevState} {s : State} (h : s.Kept q_ d_) : (State.cutRequests s).Kept q_ d_ := by
  unfold State.cutRequests
  try lift_lets
  intros
  try
    have k_s1 : s1.Kept q_ d_ := by
      dsimp only [s1]
      with_reducible repeat' first
        | assumption | intro _ | apply forUpTo_kept | apply State.cutCompare_kept | dsimp only
    clear_value s1
  with_reducible repeat' first
    | assumption | intro _ | apply forUpTo_kept | apply State.cutCompare_kept | apply State.cutLoop_kept
    | apply State.cutSafety_kept | apply State.cutOutputs_kept | dsimp only | dsimp +zetaDelta only

theorem State.cutWord_kept {q_ : List Instr} {d_ : DevState} {s : State} (h : s.Kept q_ d_) {a : Nat} {v : Word} : (State.cutWord s a v).Kept q_ d_ := by
  unfold State.cutWord
  generalize pageKind (pageOf a) = kind
  try dsimp only
  with_reducible repeat' first
    | assumption | apply kept_ite | apply State.safRel_kept | apply State.cmpDisarm_kept | apply State.cmpArm_kept | apply wr_kept
    | split | exact ⟨rfl, rfl⟩ | apply kept_update

theorem State.mirrorCmd_kept {q_ : List Instr} {d_ : DevState} {s : State} (h : s.Kept q_ d_) {m : MirrorCmd} : (State.mirrorCmd s m).Kept q_ d_ := by
  unfold State.mirrorCmd
  try dsimp only
  with_reducible repeat' first
    | assumption | apply State.setGroupRt_kept

theorem State.mirrorSafeIn_kept {q_ : List Instr} {d_ : DevState} {s : State} (h : s.Kept q_ d_) {m : MirrorFrame} : (State.mirrorSafeIn s m).Kept q_ d_ := by
  unfold State.mirrorSafeIn
  try dsimp only
  with_reducible repeat' first
    | assumption | intro _ | apply kept_ite | apply forEach_kept | apply State.takeSafeIn_kept | dsimp only | split

theorem State.takeMirror_kept {q_ : List Instr} {d_ : DevState} {s : State} (h : s.Kept q_ d_) {m : MirrorFrame} : (State.takeMirror s m).Kept q_ d_ := by
  unfold State.takeMirror
  try lift_lets
  intros
  try clear_value masters
  try
    have k_s0 : s0.Kept q_ d_ := by
      dsimp only [s0]
      with_reducible repeat' first
        | assumption | intro _ | apply kept_ite | apply forEach_kept | apply State.setCell_kept | dsimp only | split
    clear_value s0
  try
    have k_s1 : s1.Kept q_ d_ := by
      dsimp only [s1]
      with_reducible repeat' first
        | assumption | apply State.mirrorSafeIn_kept
    clear_value s1
  try
    have k_s2 : s2.Kept q_ d_ := by
      dsimp only [s2]
      with_reducible repeat' first
        | assumption | exact ⟨rfl, rfl⟩ | apply kept_update
    clear_value s2
  try
    have k_s3 : s3.Kept q_ d_ := by
      dsimp only [s3]
      with_reducible repeat' first
        | assumption | intro _ | apply forEach_kept | apply State.mirrorCmd_kept | dsimp only
    clear_value s3
  try
    have k_s4 : s4.Kept q_ d_ := by
      dsimp only [s4]
      with_reducible repeat' first
        | assumption | intro _ | apply forEach_kept | apply when_kept | apply State.cutWord_kept | apply State.cutRequests_kept
        | dsimp only
    clear_value s4
  with_reducible repeat' first
    | assumption | intro _ | apply kept_ite | apply forEach_kept | apply when_kept | apply State.setCell_kept
    | apply State.mirrorSafeIn_kept | apply State.mirrorCmd_kept | apply State.cutWord_kept | apply State.cutRequests_kept
    | apply State.setTwin_kept | dsimp only | split | dsimp +zetaDelta only | exact ⟨rfl, rfl⟩ | apply kept_update

theorem State.mirrorFrame_kept {q_ : List Instr} {d_ : DevState} {s : State} (h : s.Kept q_ d_) {m : MirrorFrame} {image : Option SyncImage} : (State.mirrorFrame s m image).Kept q_ d_ := by
  unfold State.mirrorFrame
  try lift_lets
  intros
  try
    have k_s1 : s1.Kept q_ d_ := by
      dsimp only [s1]
      with_reducible repeat' first
        | assumption | apply kept_ite | apply State.loadSync_kept | apply State.setTwin_kept | split | exact ⟨rfl, rfl⟩
        | apply kept_update
    clear_value s1
  with_reducible repeat' first
    | assumption | apply kept_ite | apply State.loadSync_kept | apply State.setTwin_kept | apply State.takeMirror_kept
    | dsimp only | split | dsimp +zetaDelta only | exact ⟨rfl, rfl⟩ | apply kept_update

theorem State.mirrorGap_kept {q_ : List Instr} {d_ : DevState} {s : State} (h : s.Kept q_ d_) : (State.mirrorGap s).Kept q_ d_ := by
  unfold State.mirrorGap
  try dsimp only
  with_reducible repeat' first
    | assumption | apply kept_ite | apply State.inc_kept | apply State.setTwin_kept | split | exact ⟨rfl, rfl⟩ | apply kept_update

theorem State.recognise_kept {q_ : List Instr} {d_ : DevState} {s : State} (h : s.Kept q_ d_) : (State.recognise s).Kept q_ d_ := by
  unfold State.recognise
  try dsimp only
  with_reducible repeat' first
    | assumption | apply kept_ite | apply State.syncFail_kept | apply State.setBit_kept | apply State.setTwin_kept | split
    | exact ⟨rfl, rfl⟩ | apply kept_update

theorem State.compareDigests_kept {q_ : List Instr} {d_ : DevState} {s : State} (h : s.Kept q_ d_) : (State.compareDigests s).Kept q_ d_ := by
  unfold State.compareDigests
  try dsimp only
  with_reducible repeat' first
    | assumption | apply kept_ite | apply State.setBit_kept | apply State.inc_kept | apply State.event_kept
    | apply State.setTwin_kept | split | exact ⟨rfl, rfl⟩ | apply kept_update

theorem State.formDigest_kept {q_ : List Instr} {d_ : DevState} {s : State} (h : s.Kept q_ d_) : (State.formDigest s).Kept q_ d_ := by
  unfold State.formDigest
  try dsimp only
  with_reducible repeat' first
    | assumption | apply kept_ite | apply State.setTwin_kept | apply State.compareDigests_kept | split | exact ⟨rfl, rfl⟩
    | apply kept_update

theorem State.twinBeat_kept {q_ : List Instr} {d_ : DevState} {s : State} (h : s.Kept q_ d_) {b : TwinBeat} : (State.twinBeat s b).Kept q_ d_ := by
  unfold State.twinBeat
  try lift_lets
  intros
  try
    have k_s1 : s1.Kept q_ d_ := by
      dsimp only [s1]
      with_reducible repeat' first
        | assumption | apply State.setBit_kept | apply State.wrI_kept
    clear_value s1
  try
    have k_s2 : s2.Kept q_ d_ := by
      dsimp only [s2]
      with_reducible repeat' first
        | assumption | apply State.setTwin_kept
    clear_value s2
  with_reducible repeat' first
    | assumption | intro _ | apply kept_ite | apply when_kept | apply State.setBit_kept | apply State.wrI_kept
    | apply State.setTwin_kept | apply State.compareDigests_kept | apply State.recognise_kept | dsimp only | split
    | dsimp +zetaDelta only | exact ⟨rfl, rfl⟩ | apply kept_update

theorem State.heartbeatCheck_kept {q_ : List Instr} {d_ : DevState} {s : State} (h : s.Kept q_ d_) : (State.heartbeatCheck s).Kept q_ d_ := by
  unfold State.heartbeatCheck
  try lift_lets
  intros
  try clear_value pin
  try clear_value link
  try
    have k_s1 : s1.Kept q_ d_ := by
      dsimp only [s1]
      with_reducible repeat' first
        | assumption | apply State.setBit_kept
    clear_value s1
  try
    have k_s2 : s2.Kept q_ d_ := by
      dsimp only [s2]
      with_reducible repeat' first
        | assumption | apply kept_ite | apply State.inc_kept | apply State.event_kept | split
    clear_value s2
  try
    have k_s3 : s3.Kept q_ d_ := by
      dsimp only [s3]
      with_reducible repeat' first
        | assumption | apply kept_ite | apply State.inc_kept | apply State.event_kept | split
    clear_value s3
  try
    have k_s4 : s4.Kept q_ d_ := by
      dsimp only [s4]
      with_reducible repeat' first
        | assumption | apply kept_ite | apply State.setTwin_kept | split | exact ⟨rfl, rfl⟩ | apply kept_update
    clear_value s4
  with_reducible repeat' first
    | assumption | intro _ | apply kept_ite | apply when_kept | apply State.setBit_kept | apply State.inc_kept
    | apply State.event_kept | apply State.setTwin_kept | apply State.recognise_kept | dsimp only | split | dsimp +zetaDelta only
    | exact ⟨rfl, rfl⟩ | apply kept_update

theorem State.ilkPeerChange_kept {q_ : List Instr} {d_ : DevState} {s : State} (h : s.Kept q_ d_) {low : Bool} : (State.ilkPeerChange s low).Kept q_ d_ := by
  unfold State.ilkPeerChange
  try lift_lets
  intros
  try
    have k_s1 : s1.Kept q_ d_ := by
      dsimp only [s1]
      with_reducible repeat' first
        | assumption | apply State.setBit_kept
    clear_value s1
  try
    have k_s2 : s2.Kept q_ d_ := by
      dsimp only [s2]
      with_reducible repeat' first
        | assumption | apply State.setBit_kept
    clear_value s2
  with_reducible repeat' first
    | assumption | intro _ | apply kept_ite | apply when_kept | apply State.setBit_kept | apply State.inc_kept
    | apply State.alarm_kept | apply State.recognise_kept | dsimp only | split | dsimp +zetaDelta only

theorem State.healthTick_kept {q_ : List Instr} {d_ : DevState} {s : State} (h : s.Kept q_ d_) : (State.healthTick s).Kept q_ d_ := by
  unfold State.healthTick
  try lift_lets
  intros
  try clear_value h
  try clear_value since
  try clear_value ok
  with_reducible repeat' first
    | assumption | intro _ | apply kept_ite | apply getD_map_kept | apply State.setTwin_kept | dsimp only | split
    | dsimp +zetaDelta only | exact ⟨rfl, rfl⟩ | apply kept_update

theorem State.healthWord_kept {q_ : List Instr} {d_ : DevState} {s : State} (h : s.Kept q_ d_) {w : Word} : (State.healthWord s w).Kept q_ d_ := by
  unfold State.healthWord
  try lift_lets
  intros
  try
    have k_s1 : s1.Kept q_ d_ := by
      dsimp only [s1]
      with_reducible repeat' first
        | assumption | apply wr_kept
    clear_value s1
  with_reducible repeat' first
    | assumption | intro _ | apply kept_ite | apply when_kept | apply wr_kept | apply State.alarm_kept | dsimp only | split
    | dsimp +zetaDelta only

theorem State.resigns_kept {q_ : List Instr} {d_ : DevState} {s : State} (h : s.Kept q_ d_) : (State.resigns s).Kept q_ d_ := by
  unfold State.resigns
  try dsimp only
  with_reducible repeat' first
    | assumption | apply kept_ite | apply State.setTwin_kept | split | exact ⟨rfl, rfl⟩ | apply kept_update

theorem State.resignBy_kept {q_ : List Instr} {d_ : DevState} {s : State} (h : s.Kept q_ d_) {c : ResignCause} : (State.resignBy s c).Kept q_ d_ := by
  unfold State.resignBy
  try dsimp only
  with_reducible repeat' first
    | assumption | apply kept_ite | apply State.swWrite_kept | apply State.resigns_kept | split

theorem State.resignCauses_kept {q_ : List Instr} {d_ : DevState} {s : State} (h : s.Kept q_ d_) : (State.resignCauses s).Kept q_ d_ := by
  unfold State.resignCauses
  try dsimp only
  with_reducible repeat' first
    | assumption | intro _ | apply when_kept | apply State.resignBy_kept | dsimp only

theorem State.holderBeat_kept {q_ : List Instr} {d_ : DevState} {s : State} (h : s.Kept q_ d_) : (State.holderBeat s).Kept q_ d_ := by
  unfold State.holderBeat
  try lift_lets
  intros
  try clear_value r
  try
    have k_s1 : s1.Kept q_ d_ := by
      dsimp only [s1]
      with_reducible repeat' first
        | assumption | intro _ | apply getD_map_kept | apply State.setTwin_kept | dsimp only
    clear_value s1
  with_reducible repeat' first
    | assumption | intro _ | apply kept_ite | apply when_kept | apply getD_map_kept | apply State.setTwin_kept
    | apply State.setBit_kept | apply State.inc_kept | dsimp only | split | dsimp +zetaDelta only

theorem State.parEnd_kept {q_ : List Instr} {d_ : DevState} {s : State} (h : s.Kept q_ d_) : (State.parEnd s).Kept q_ d_ := by
  unfold State.parEnd
  try dsimp only
  with_reducible repeat' first
    | assumption | apply kept_ite | apply State.refreshDq_kept | split | exact ⟨rfl, rfl⟩ | apply kept_update

theorem State.parTick_kept {q_ : List Instr} {d_ : DevState} {s : State} (h : s.Kept q_ d_) : (State.parTick s).Kept q_ d_ := by
  unfold State.parTick
  try dsimp only
  with_reducible repeat' first
    | assumption | apply kept_ite | apply State.parEnd_kept | apply State.inc_kept | split

theorem State.portTake_kept {q_ : List Instr} {d_ : DevState} {s : State} (h : s.Kept q_ d_) {p : Nat} : (State.portTake s p).Kept q_ d_ := by
  unfold State.portTake
  try dsimp only
  with_reducible repeat' first
    | assumption | apply kept_ite | apply State.setRp_kept | apply State.setPstate_kept | apply State.setFld_kept | split
    | exact ⟨rfl, rfl⟩ | apply kept_update

theorem State.switchover_kept {q_ : List Instr} {d_ : DevState} {s : State} (h : s.Kept q_ d_) : (State.switchover s).Kept q_ d_ := by
  unfold State.switchover
  try lift_lets
  intros
  try clear_value wait
  try
    have k_s1 : s1.Kept q_ d_ := by
      dsimp only [s1]
      with_reducible repeat' first
        | assumption | apply State.wr64_kept | apply State.inc_kept | apply State.setBit_kept | apply State.event_kept
    clear_value s1
  try
    have k_s2 : s2.Kept q_ d_ := by
      dsimp only [s2]
      with_reducible repeat' first
        | assumption | intro _ | apply forUpTo_kept | apply State.portTake_kept | dsimp only
    clear_value s2
  with_reducible repeat' first
    | assumption | intro _ | apply kept_ite | apply forUpTo_kept | apply getD_map_kept | apply State.wr64_kept
    | apply State.inc_kept | apply State.setBit_kept | apply State.event_kept | apply State.portTake_kept | dsimp only | split
    | dsimp +zetaDelta only | exact ⟨rfl, rfl⟩ | apply kept_update

theorem State.roleChange_kept {q_ : List Instr} {d_ : DevState} {s : State} (h : s.Kept q_ d_) {r : Nat} : (State.roleChange s r).Kept q_ d_ := by
  unfold State.roleChange
  try lift_lets
  intros
  try clear_value old
  try
    have k_s0 : s0.Kept q_ d_ := by
      dsimp only [s0]
      with_reducible repeat' first
        | assumption | apply kept_ite | apply State.syncFail_kept | split
    clear_value s0
  try
    have k_s1 : s1.Kept q_ d_ := by
      dsimp only [s1]
      with_reducible repeat' first
        | assumption | apply State.setFld_kept | apply State.setBit_kept | apply State.setTwin_kept
    clear_value s1
  with_reducible repeat' first
    | assumption | apply kept_ite | apply State.syncFail_kept | apply State.setFld_kept | apply State.setBit_kept
    | apply State.setTwin_kept | apply State.switchover_kept | dsimp only | split | dsimp +zetaDelta only

theorem State.followLead_kept {q_ : List Instr} {d_ : DevState} {s : State} (h : s.Kept q_ d_) : s.followLead.Kept q_ d_ := by
  unfold State.followLead
  split
  · refine ⟨⟨h.regs, h.cell, h.dram, h.flash, h.code, h.data⟩, h.queue, h.dev, fun x hx => ?_⟩
    have hx' := Option.mem_filter_iff.1 (Option.mem_toList.1 hx)
    rw [← h.dev]
    exact hx'.2
  · exact h

theorem State.twinTick_kept {q_ : List Instr} {d_ : DevState} {s : State} (h : s.Kept q_ d_) : (State.twinTick s).Kept q_ d_ := by
  unfold State.twinTick
  try lift_lets
  intros
  try
    have k_s1 : s1.Kept q_ d_ := by
      dsimp only [s1]
      with_reducible repeat' first
        | assumption | apply kept_ite | apply State.setTwin_kept | apply State.roleChange_kept | split | exact ⟨rfl, rfl⟩
        | apply kept_update
    clear_value s1
  with_reducible repeat' first
    | assumption | apply kept_ite | apply State.setTwin_kept | apply State.roleChange_kept | apply State.resignCauses_kept
    | apply State.healthTick_kept | apply State.parTick_kept | dsimp only | split | dsimp +zetaDelta only | exact ⟨rfl, rfl⟩
    | apply kept_update

theorem State.twinOff_kept {q_ : List Instr} {d_ : DevState} {s : State} (h : s.Kept q_ d_) : (State.twinOff s).Kept q_ d_ := by
  unfold State.twinOff
  try lift_lets
  intros
  try
    have k_s1 : s1.Kept q_ d_ := by
      dsimp only [s1]
      with_reducible repeat' first
        | assumption | apply State.leaseEnd_kept
    clear_value s1
  with_reducible repeat' first
    | assumption | apply State.leaseEnd_kept | apply State.setTwin_kept | dsimp only | dsimp +zetaDelta only | exact ⟨rfl, rfl⟩
    | apply kept_update

theorem State.peerEntry_kept {q_ : List Instr} {d_ : DevState} {s : State} (h : s.Kept q_ d_) {i : Nat} {ws : List Word} : (State.peerEntry s i ws).Kept q_ d_ := by
  unfold State.peerEntry
  try lift_lets
  intros
  try clear_value base
  with_reducible repeat' first
    | assumption | intro _ | apply kept_ite | apply forUpTo_kept | apply getD_map_kept | apply State.setCell_kept | dsimp only
    | split | dsimp +zetaDelta only

end Sys2Proof.Machine
end

