-- ==== Sys2Proof/Laws/Kept/Access.lean ====
section
/-! SUPPORT. The operations of Machine/Access.lean keep the canonical form and the queue. -/

namespace Sys2Proof.Machine

set_option tactic.hygienic false
set_option linter.unusedTactic false
set_option linter.unreachableTactic false
set_option linter.unusedVariables false

theorem State.cfgRefused_kept {q_ : List Instr} {d_ : DevState} {s : State} (h : s.Kept q_ d_) {p : Nat} : (State.cfgRefused s p).Kept q_ d_ := by
  unfold State.cfgRefused
  generalize pageKind p = kind
  try dsimp only
  with_reducible repeat' first
    | assumption | apply State.qtzRefused_kept | apply State.setBit_kept | apply State.event_kept | apply State.ringRefused_kept
    | apply State.raiseLine_kept | split

theorem State.putCfg_kept {q_ : List Instr} {d_ : DevState} {s : State} (h : s.Kept q_ d_) {a : Nat} {v : Word} : (State.putCfg s a v).Kept q_ d_ := by
  unfold State.putCfg
  generalize pageKind (pageOf a) = kind
  try lift_lets
  intros
  try
    have k_s1 : s1.Kept q_ d_ := by
      dsimp only [s1]
      with_reducible repeat' first
        | assumption | apply kept_ite | apply State.wrLate_kept | apply wr_kept | split
    clear_value s1
  with_reducible repeat' first
    | assumption | intro _ | apply kept_ite | apply forUpTo_kept | apply State.wrLate_kept | apply wr_kept
    | apply State.setBit_kept | apply State.refreshSaf_kept | apply State.engCtrl_kept | apply State.ringCtrl_kept
    | apply State.flowCheck_kept | apply State.fbkWritten_kept | apply State.laxBound_kept | apply State.twinOff_kept | dsimp only
    | split | dsimp +zetaDelta only | exact ⟨rfl, rfl⟩ | apply kept_update

theorem State.cfgWords_kept {q_ : List Instr} {d_ : DevState} {s : State} (h : s.Kept q_ d_) {ag : Agent} {a : Nat} {ws : List (Nat × Word)} : (State.cfgWords s ag a ws).Kept q_ d_ := by
  unfold State.cfgWords
  try lift_lets
  intros
  try clear_value p
  with_reducible repeat' first
    | assumption | intro _ | apply forEach_kept | apply State.cfgWrite_kept | apply wr_kept | apply State.cfgRefused_kept
    | apply State.putCfg_kept | dsimp only | dsimp +zetaDelta only

theorem State.noConfig_kept {q_ : List Instr} {d_ : DevState} {s : State} (h : s.Kept q_ d_) {ag : Agent} {p : Nat} : (State.noConfig s ag p).Kept q_ d_ := by
  unfold State.noConfig
  try dsimp only
  with_reducible repeat' first
    | assumption | intro _ | apply kept_ite | apply State.swWrite_kept | apply State.refuseAccess_kept | dsimp only | split

theorem State.cfgWord_kept {q_ : List Instr} {d_ : DevState} {s : State} (h : s.Kept q_ d_) {ag : Agent} {a : Nat} {v : Word} : (State.cfgWord s ag a v).Kept q_ d_ := by
  unfold State.cfgWord
  try lift_lets
  intros
  try clear_value low
  try
    have k_t : t.Kept q_ d_ := by
      dsimp only [t]
      with_reducible repeat' first
        | assumption | intro _ | apply State.cfgWords_kept
    clear_value t
  with_reducible repeat' first
    | assumption | intro _ | apply kept_ite | apply State.noConfig_kept | apply State.tickOfs_kept | apply State.swWrite_kept
    | apply State.refuseAccess_kept | apply State.holdLow_kept | apply State.cfgRefused_kept | apply State.cfgWords_kept
    | dsimp only | split | dsimp +zetaDelta only | exact ⟨rfl, rfl⟩ | apply kept_update

theorem State.checkWrite_kept {q_ : List Instr} {d_ : DevState} {s : State} (h : s.Kept q_ d_) {ag : Agent} {p : Nat} {v : Word} : (State.checkWrite s ag p v).Kept q_ d_ := by
  unfold State.checkWrite
  try dsimp only
  with_reducible repeat' first
    | assumption | intro _ | apply kept_ite | apply State.cfgWrite_kept | apply State.cfgRefused_kept | apply wr_kept
    | apply State.noConfig_kept | dsimp only | split

theorem State.commonWord_kept {q_ : List Instr} {d_ : DevState} {s : State} (h : s.Kept q_ d_) {ag : Agent} {a : Nat} {v : Word} : (State.commonWord s ag a v).Kept q_ d_ := by
  unfold State.commonWord
  try lift_lets
  intros
  try clear_value p
  with_reducible repeat' first
    | assumption | intro _ | apply kept_ite | apply kept_id | apply State.swWrite_kept | apply State.pgCtrl_kept
    | apply State.setBit_kept | apply State.irqClear_kept | apply State.irqEnable_kept | apply State.irqSet_kept
    | apply State.checkWrite_kept | apply State.pgLock_kept | dsimp only | split | dsimp +zetaDelta only

theorem State.plainWord_kept {q_ : List Instr} {d_ : DevState} {s : State} (h : s.Kept q_ d_) {a : Nat} {v : Word} : (State.plainWord s a v).Kept q_ d_ := by
  unfold State.plainWord
  try dsimp only
  with_reducible repeat' first
    | assumption | apply wr_kept | split

theorem State.clearWord_kept {q_ : List Instr} {d_ : DevState} {s : State} (h : s.Kept q_ d_) {a : Nat} {v : Word} {keep : Word} : (State.clearWord s a v keep).Kept q_ d_ := by
  unfold State.clearWord
  try dsimp only
  with_reducible repeat' first
    | assumption | apply State.plainWord_kept

theorem State.engWord_kept {q_ : List Instr} {d_ : DevState} {s : State} (h : s.Kept q_ d_) {ag : Agent} {e : Nat} {a : Nat} {v : Word} : (State.engWord s ag e a v).Kept q_ d_ := by
  unfold State.engWord
  try dsimp only
  with_reducible repeat' first
    | assumption | intro _ | apply State.swWrite_kept | apply State.plainWord_kept | dsimp only

theorem State.dlrWord_kept {q_ : List Instr} {d_ : DevState} {s : State} (h : s.Kept q_ d_) {ag : Agent} {a : Nat} {v : Word} : (State.dlrWord s ag a v).Kept q_ d_ := by
  unfold State.dlrWord
  try lift_lets
  intros
  try clear_value o
  with_reducible repeat' first
    | assumption | intro _ | apply kept_ite | apply State.armWrite_kept | apply State.cancelWrite_kept
    | apply State.setfWrite_kept | apply State.clrfWrite_kept | apply State.swWrite_kept | apply State.flowReset_kept
    | apply State.ctxWrite_kept | apply State.coreDoneWrite_kept | apply State.coreYieldWrite_kept | apply State.plainWord_kept
    | dsimp only | split | dsimp +zetaDelta only

theorem State.cmpCtrl_kept {q_ : List Instr} {d_ : DevState} {s : State} (h : s.Kept q_ d_) {x : Nat} {c : Nat} {v : Word} : (State.cmpCtrl s x c v).Kept q_ d_ := by
  unfold State.cmpCtrl
  try dsimp only
  with_reducible repeat' first
    | assumption | apply kept_ite | apply State.cmpDisarm_kept | apply State.cmpArm_kept | apply wr_kept | split

theorem State.cmpHigh_kept {q_ : List Instr} {d_ : DevState} {s : State} (h : s.Kept q_ d_) {x : Nat} {a : Nat} {v : Word} : (State.cmpHigh s x a v).Kept q_ d_ := by
  unfold State.cmpHigh
  try lift_lets
  intros
  try clear_value c
  try
    have k_s1 : s1.Kept q_ d_ := by
      dsimp only [s1]
      with_reducible repeat' first
        | assumption | apply State.commitHigh_kept
    clear_value s1
  with_reducible repeat' first
    | assumption | apply kept_ite | apply State.commitHigh_kept | apply State.setAxis_kept | dsimp only | split
    | dsimp +zetaDelta only | exact ⟨rfl, rfl⟩ | apply kept_update

theorem State.prfWord_kept {q_ : List Instr} {d_ : DevState} {s : State} (h : s.Kept q_ d_) {ag : Agent} {x : Nat} {a : Nat} {v : Word} : (State.prfWord s ag x a v).Kept q_ d_ := by
  unfold State.prfWord
  try lift_lets
  intros
  try clear_value o
  with_reducible repeat' first
    | assumption | intro _ | apply kept_ite | apply State.swWrite_kept | apply State.holdLow_kept | apply State.cmpHigh_kept
    | apply State.cmpCtrl_kept | apply State.plainWord_kept | dsimp only | split | dsimp +zetaDelta only

theorem State.prfgWord_kept {q_ : List Instr} {d_ : DevState} {s : State} (h : s.Kept q_ d_) {ag : Agent} {g : Nat} {a : Nat} {v : Word} : (State.prfgWord s ag g a v).Kept q_ d_ := by
  unfold State.prfgWord
  try dsimp only
  with_reducible repeat' first
    | assumption | intro _ | apply State.swWrite_kept | apply State.clearWord_kept | dsimp only

theorem State.loopWord_kept {q_ : List Instr} {d_ : DevState} {s : State} (h : s.Kept q_ d_) {ag : Agent} {x : Nat} {a : Nat} {v : Word} : (State.loopWord s ag x a v).Kept q_ d_ := by
  unfold State.loopWord
  try lift_lets
  intros
  try clear_value o
  with_reducible repeat' first
    | assumption | intro _ | apply kept_ite | apply State.swWrite_kept | apply State.loopCtrl_kept | apply State.coefWrite_kept
    | apply State.clearWord_kept | dsimp only | split | dsimp +zetaDelta only

theorem State.pwdCmd_kept {q_ : List Instr} {d_ : DevState} {s : State} (h : s.Kept q_ d_) {v : Word} : (State.pwdCmd s v).Kept q_ d_ := by
  unfold State.pwdCmd
  try dsimp only
  with_reducible repeat' first
    | assumption | apply kept_ite | apply State.sealOpen_kept | apply State.closeSeal_kept | apply State.refreshSaf_kept
    | apply State.passwordSet_kept | split

theorem State.safWord_kept {q_ : List Instr} {d_ : DevState} {s : State} (h : s.Kept q_ d_) {ag : Agent} {a : Nat} {v : Word} : (State.safWord s ag a v).Kept q_ d_ := by
  unfold State.safWord
  try dsimp only
  with_reducible repeat' first
    | assumption | intro _ | apply kept_ite | apply State.swWrite_kept | apply State.safRel_kept | apply State.safAck_kept
    | apply State.safStore_kept | apply State.safLoad_kept | apply State.ptStart_kept | apply wr_kept | apply State.pwdCmd_kept
    | apply State.methodReq_kept | apply State.logClear_kept | apply State.plainWord_kept | dsimp only | split

theorem State.fltWord_kept {q_ : List Instr} {d_ : DevState} {s : State} (h : s.Kept q_ d_) {ag : Agent} {a : Nat} {v : Word} : (State.fltWord s ag a v).Kept q_ d_ := by
  unfold State.fltWord
  try lift_lets
  intros
  try clear_value k
  try
    have k_t1 : t1.Kept q_ d_ := by
      dsimp only [t1]
      with_reducible repeat' first
        | assumption | apply State.takeFree_kept | apply State.testTrip_kept | dsimp only | dsimp +zetaDelta only
    clear_value t1
  with_reducible repeat' first
    | assumption | intro _ | apply kept_ite | apply State.fltCmd_kept | apply State.takeFree_kept | apply State.testTrip_kept
    | apply State.flintArm_kept | apply State.flintTrip_kept | apply State.swWrite_kept | apply State.plainWord_kept | dsimp only
    | split | dsimp +zetaDelta only

theorem State.rngWord_kept {q_ : List Instr} {d_ : DevState} {s : State} (h : s.Kept q_ d_) {ag : Agent} {n : Nat} {a : Nat} {v : Word} : (State.rngWord s ag n a v).Kept q_ d_ := by
  unfold State.rngWord
  try dsimp only
  with_reducible repeat' first
    | assumption | intro _ | apply kept_ite | apply State.swWrite_kept | apply State.setRp_kept | apply State.plainWord_kept
    | dsimp only | split | exact ⟨rfl, rfl⟩ | apply kept_update

theorem State.fbkWord_kept {q_ : List Instr} {d_ : DevState} {s : State} (h : s.Kept q_ d_) {ag : Agent} {a : Nat} {v : Word} : (State.fbkWord s ag a v).Kept q_ d_ := by
  unfold State.fbkWord
  try lift_lets
  intros
  try clear_value o
  with_reducible repeat' first
    | assumption | intro _ | apply State.swWrite_kept | apply State.clearWord_kept | dsimp only | dsimp +zetaDelta only

theorem State.laxWord_kept {q_ : List Instr} {d_ : DevState} {s : State} (h : s.Kept q_ d_) {ag : Agent} {n : Nat} {a : Nat} {v : Word} : (State.laxWord s ag n a v).Kept q_ d_ := by
  unfold State.laxWord
  try dsimp only
  with_reducible repeat' first
    | assumption | intro _ | apply State.swWrite_kept | apply State.clearWord_kept | dsimp only

theorem State.ovlClear_kept {q_ : List Instr} {d_ : DevState} {s : State} (h : s.Kept q_ d_) {v : Word} : (State.ovlClear s v).Kept q_ d_ := by
  unfold State.ovlClear
  try lift_lets
  intros
  try
    have k_s1 : s1.Kept q_ d_ := by
      dsimp only [s1]
      with_reducible repeat' first
        | assumption | apply State.plainWord_kept
    clear_value s1
  with_reducible repeat' first
    | assumption | intro _ | apply kept_ite | apply forUpTo_kept | apply State.plainWord_kept | apply State.setOvlOff_kept
    | apply State.setBit_kept | apply State.refreshDq_kept | dsimp only | split | dsimp +zetaDelta only

theorem State.fioWord_kept {q_ : List Instr} {d_ : DevState} {s : State} (h : s.Kept q_ d_) {ag : Agent} {a : Nat} {v : Word} : (State.fioWord s ag a v).Kept q_ d_ := by
  unfold State.fioWord
  try dsimp only
  with_reducible repeat' first
    | assumption | intro _ | apply kept_ite | apply State.swWrite_kept | apply State.clearWord_kept | apply State.ovlClear_kept
    | apply State.plainWord_kept | dsimp only | split

theorem State.ethWord_kept {q_ : List Instr} {d_ : DevState} {s : State} (h : s.Kept q_ d_) {ag : Agent} {n : Nat} {a : Nat} {v : Word} : (State.ethWord s ag n a v).Kept q_ d_ := by
  unfold State.ethWord
  try lift_lets
  intros
  try clear_value o
  with_reducible repeat' first
    | assumption | intro _ | apply kept_ite | apply State.swWrite_kept | apply State.txTail_kept | apply State.plainWord_kept
    | dsimp only | split | dsimp +zetaDelta only

theorem State.twnWord_kept {q_ : List Instr} {d_ : DevState} {s : State} (h : s.Kept q_ d_) {ag : Agent} {a : Nat} {v : Word} : (State.twnWord s ag a v).Kept q_ d_ := by
  unfold State.twnWord
  try dsimp only
  with_reducible repeat' first
    | assumption | intro _ | apply kept_ite | apply State.swWrite_kept | apply State.syncCmd_kept | apply State.resigns_kept
    | apply State.plainWord_kept | dsimp only | split

theorem State.evtWord_kept {q_ : List Instr} {d_ : DevState} {s : State} (h : s.Kept q_ d_) {ag : Agent} {a : Nat} {v : Word} : (State.evtWord s ag a v).Kept q_ d_ := by
  unfold State.evtWord
  try lift_lets
  intros
  try clear_value o
  try clear_value b
  try
    have k_t1 : t1.Kept q_ d_ := by
      dsimp only [t1]
      with_reducible repeat' first
        | assumption | apply State.holdLow_kept
    clear_value t1
  with_reducible repeat' first
    | assumption | intro _ | apply kept_ite | apply State.swWrite_kept | apply State.holdLow_kept | apply State.almAck_kept
    | apply State.evrTail_kept | apply State.trcRd_kept | apply State.trcSw_kept | apply State.plainWord_kept | dsimp only | split
    | dsimp +zetaDelta only | exact ⟨rfl, rfl⟩ | apply kept_update

theorem State.qtzWord_kept {q_ : List Instr} {d_ : DevState} {s : State} (h : s.Kept q_ d_) {ag : Agent} {a : Nat} {v : Word} : (State.qtzWord s ag a v).Kept q_ d_ := by
  unfold State.qtzWord
  try dsimp only
  with_reducible repeat' first
    | assumption | intro _ | apply kept_ite | apply State.swWrite_kept | apply State.timeIncPart_kept | apply State.holdLow_kept
    | apply State.commitHigh_kept | apply State.stepReq_kept | apply State.plainWord_kept | dsimp only | split

theorem State.sysCtrl_goes {q_ : List Instr} {d_ : DevState} {s : State} (h : s.Kept q_ d_) {v : Word} : (State.sysCtrl s v).Goes q_ d_ := by
  unfold State.sysCtrl
  lift_lets
  intro s1 s2 s3
  have k1 : s1.Kept q_ d_ := when_kept (fun _ ht => State.runReq_kept ht) h
  clear_value s1
  have k2 : s2.Kept q_ d_ := when_kept (fun _ ht => State.restartReq_kept ht) k1
  clear_value s2
  have k3 : s3.Goes q_ d_ := when_goes (f := fun t => t.freezeBy 2) (fun ht => State.freezeBy_goes ht) k2.goes
  clear_value s3
  exact when_goes (f := fun t => t.swReset (v.extractLsb' 16 16)) (fun ht => State.swReset_goes ht) k3

theorem State.sysWord_goes {q_ : List Instr} {d_ : DevState} {s : State} (h : s.Kept q_ d_) {ag : Agent} {a : Nat} {v : Word} : (State.sysWord s ag a v).Goes q_ d_ := by
  unfold State.sysWord
  refine State.swWrite_goes h fun ht => ?_
  split
  · exact State.sysCtrl_goes ht
  · split
    · exact (kept_ite (State.wdtStart_kept ht) ht).goes
    · exact (State.plainWord_kept ht).goes

theorem State.pwrWord_kept {q_ : List Instr} {d_ : DevState} {s : State} (h : s.Kept q_ d_) {ag : Agent} {a : Nat} {v : Word} : (State.pwrWord s ag a v).Kept q_ d_ := by
  unfold State.pwrWord
  try dsimp only
  with_reducible repeat' first
    | assumption | intro _ | apply kept_ite | apply State.swWrite_kept | apply State.dvfsReq_kept | apply State.appcReq_kept
    | apply State.domReq_kept | apply State.plainWord_kept | dsimp only | split

theorem State.runWord_goes {q_ : List Instr} {d_ : DevState} {s : State} (h : s.Kept q_ d_) {ag : Agent} {a : Nat} {v : Word} : (State.runWord s ag a v).Goes q_ d_ := by
  unfold State.runWord
  generalize pageKind (pageOf a) = kind
  split
  case _ => exact (State.engWord_kept h).goes
  case _ => exact (State.dlrWord_kept h).goes
  case _ => exact (State.prfWord_kept h).goes
  case _ => exact (State.prfgWord_kept h).goes
  case _ => exact (State.loopWord_kept h).goes
  case _ => exact (State.safWord_kept h).goes
  case _ => exact (State.fltWord_kept h).goes
  case _ => exact (State.rngWord_kept h).goes
  case _ => exact (State.fbkWord_kept h).goes
  case _ => exact (State.laxWord_kept h).goes
  case _ => exact (State.fioWord_kept h).goes
  case _ => exact (State.ethWord_kept h).goes
  case _ => exact (State.twnWord_kept h).goes
  case _ => exact (State.evtWord_kept h).goes
  case _ => exact (State.qtzWord_kept h).goes
  case _ => exact State.sysWord_goes h
  case _ => exact (State.pwrWord_kept h).goes
  case _ => exact (State.swWrite_kept h fun _ ht => State.plainWord_kept ht).goes

theorem State.writeWord_goes {q_ : List Instr} {d_ : DevState} {s : State} (h : s.Kept q_ d_) {ag : Agent} {a : Nat} {v : Word} : (State.writeWord s ag a v).Goes q_ d_ := by
  unfold State.writeWord
  split
  · exact (State.commonWord_kept h).goes
  · split
    · exact (State.cfgWord_kept h).goes
    · exact State.runWord_goes h

theorem State.writeWide_goes {q_ : List Instr} {d_ : DevState} {s : State} (h : s.Kept q_ d_) {ag : Agent} {a : Nat} {v : BitVec 64} : (State.writeWide s ag a v).Goes q_ d_ := by
  unfold State.writeWide
  split
  · exact (State.cfgWords_kept h).goes
  · split
    · exact (State.swWrite_kept h fun _ ht => State.timeIncPart_kept ht).goes
    · split
      · exact (State.swWrite_kept h fun _ ht => ht).goes
      · have k : (s.writeWord ag a (v.extractLsb' 0 32)).Goes q_ d_ := State.writeWord_goes h
        revert k
        generalize s.writeWord ag a (v.extractLsb' 0 32) = t
        generalize v.extractLsb' 32 32 = w
        intro k
        obtain ⟨e, he, k⟩ := k
        exact State.goes_of he (State.writeWord_goes k)

theorem State.badAccess_kept {q_ : List Instr} {d_ : DevState} {s : State} (h : s.Kept q_ d_) : (State.badAccess s).Kept q_ d_ := by
  unfold State.badAccess
  try dsimp only
  with_reducible repeat' first
    | assumption | apply State.inc_kept | apply State.setBit_kept | apply State.event_kept

theorem State.engineStore_kept {q_ : List Instr} {d_ : DevState} {s : State} (h : s.Kept q_ d_) {e : Nat} {a : Nat} {wide : Bool} {v : BitVec 64} : (State.engineStore s e a wide v).Kept q_ d_ := by
  unfold State.engineStore
  try dsimp only
  with_reducible repeat' first
    | assumption | apply kept_ite | apply State.engFault_kept | apply State.engWrite_kept | split

theorem State.registerWrite_goes {q_ : List Instr} {d_ : DevState} {s : State} (h : s.Kept q_ d_) {ag : Agent} {a : Nat} {wide : Bool} {v : BitVec 64} :
    (State.registerWrite s ag a wide v).Goes q_ d_ := by
  unfold State.registerWrite
  generalize (if wide then 8 else 4 : Nat) = n
  with_reducible repeat' first
    | exact State.writeWide_goes h | exact State.writeWord_goes h | apply goes_ite | split | apply State.Kept.goes
    | exact State.engineStore_kept h | exact State.badAccess_kept h | exact h

theorem State.engineLoad_kept {q_ : List Instr} {d_ : DevState} {s : State} (h : s.Kept q_ d_) {e : Nat} {a : Nat} : (State.engineLoad s e a).Kept q_ d_ := by
  unfold State.engineLoad
  try dsimp only
  with_reducible repeat' first
    | assumption | apply State.engFault_kept | split

theorem State.regRead_kept {q_ : List Instr} {d_ : DevState} {s : State} (h : s.Kept q_ d_) {ag : Agent} {a : Nat} : (State.regRead s ag a).Kept q_ d_ := by
  unfold State.regRead
  try dsimp only
  with_reducible repeat' first
    | assumption | apply kept_ite | apply State.coreTake_kept | apply State.busRead_kept | apply State.onBus_kept
    | apply State.badAccess_kept | apply State.engineLoad_kept | split

end Sys2Proof.Machine
end

