-- ==== Sys2Proof/Laws/Kept/Pcie.lean ====
section
/-! SUPPORT. The operations of Machine/Pcie.lean keep the canonical form and the queue. -/

namespace Sys2Proof.Machine

set_option tactic.hygienic false
set_option linter.unusedTactic false
set_option linter.unreachableTactic false
set_option linter.unusedVariables false

theorem State.badRead_kept {q_ : List Instr} {d_ : DevState} {s : State} (h : s.Kept q_ d_) {n : Nat} : (State.badRead s n).Kept q_ d_ := by
  unfold State.badRead
  try dsimp only
  with_reducible repeat' first
    | assumption | apply State.badAccess_kept | apply State.onBus_kept

theorem State.bar0Write_goes {q_ : List Instr} {d_ : DevState} {s : State} (h : s.Kept q_ d_) {o : Nat} {bs : List (BitVec 8)} : (State.bar0Write s o bs).Goes q_ d_ := by
  unfold State.bar0Write
  split
  · exact State.registerWrite_goes h
  · exact (State.badAccess_kept h).goes

theorem State.bar0Read_kept {q_ : List Instr} {d_ : DevState} {s : State} (h : s.Kept q_ d_) {o : Nat} {n : Nat} : (State.bar0Read s o n).Kept q_ d_ := by
  unfold State.bar0Read
  try lift_lets
  intros
  try clear_value a
  try clear_value lo
  try clear_value hi
  try
    have k_s1 : s1.Kept q_ d_ := by
      dsimp only [s1]
      with_reducible repeat' first
        | assumption | apply State.busRead_kept | dsimp +zetaDelta only
    clear_value s1
  try
    have k_s2 : s2.Kept q_ d_ := by
      dsimp only [s2]
      with_reducible repeat' first
        | assumption | apply kept_ite | apply State.busRead_kept | split | dsimp +zetaDelta only
    clear_value s2
  with_reducible repeat' first
    | assumption | apply kept_ite | apply State.busRead_kept | apply State.onBus_kept | apply State.badRead_kept | dsimp only
    | split | dsimp +zetaDelta only

theorem State.bar2Write_kept {q_ : List Instr} {d_ : DevState} {s : State} (h : s.Kept q_ d_) {o : Nat} {bs : List (BitVec 8)} : (State.bar2Write s o bs).Kept q_ d_ := by
  unfold State.bar2Write
  try lift_lets
  intros
  try clear_value n
  with_reducible repeat' first
    | assumption | exact fun h_ => h_ | exact Tab.wf_set _ _ | exact setDram_wf | exact setAll_wf | exact dropRange_wf
    | exact Tab.wf_dropRange _ _ | exact Tab.wf_filter _ | exact Tab.wf_setAll _ | exact Memory.wf_setN _ _ _
    | exact Memory.wf_setBytes _ _ | exact Memory.wf_clear _ _ | exact Memory.wf_copy _ _ _ | exact fun _ => nil_wf
    | exact fun _ => setAll_wf nil_wf | intro _ | apply kept_ite | apply forEach_kept | apply State.badAccess_kept
    | apply State.mailboxCommit_kept | apply State.storeCell_kept | dsimp only | split | dsimp +zetaDelta only | exact ⟨rfl, rfl⟩
    | apply kept_update | apply kept_tables

theorem State.bar2Read_kept {q_ : List Instr} {d_ : DevState} {s : State} (h : s.Kept q_ d_) {o : Nat} {n : Nat} : (State.bar2Read s o n).Kept q_ d_ := by
  unfold State.bar2Read
  try lift_lets
  intros
  try clear_value k
  try
    have k_s1 : s1.Kept q_ d_ := by
      dsimp only [s1]
      with_reducible repeat' first
        | assumption | apply State.ueRead_kept | apply State.takeFree_kept | dsimp +zetaDelta only
    clear_value s1
  with_reducible repeat' first
    | assumption | apply kept_ite | apply State.badRead_kept | apply State.ueRead_kept | apply State.takeFree_kept
    | apply State.onBus_kept | dsimp only | split | dsimp +zetaDelta only

theorem State.maskVector_kept {q_ : List Instr} {d_ : DevState} {s : State} (h : s.Kept q_ d_) {v : Nat} {m : Bool} : (State.maskVector s v m).Kept q_ d_ := by
  unfold State.maskVector
  try lift_lets
  intros
  try clear_value bit
  try
    have k_s1 : s1.Kept q_ d_ := by
      dsimp only [s1]
      with_reducible repeat' first
        | assumption | exact ⟨rfl, rfl⟩ | apply kept_update
    clear_value s1
  with_reducible repeat' first
    | assumption | apply kept_ite | apply State.sendMsix_kept | dsimp only | split | dsimp +zetaDelta only | exact ⟨rfl, rfl⟩
    | apply kept_update

theorem State.bar4Byte_kept {q_ : List Instr} {d_ : DevState} {s : State} (h : s.Kept q_ d_) {o : Nat} {b : BitVec 8} : (State.bar4Byte s o b).Kept q_ d_ := by
  unfold State.bar4Byte
  try dsimp only
  with_reducible repeat' first
    | assumption | apply kept_ite | apply State.maskVector_kept | split | exact ⟨rfl, rfl⟩ | apply kept_update

theorem State.bar4Write_kept {q_ : List Instr} {d_ : DevState} {s : State} (h : s.Kept q_ d_) {o : Nat} {bs : List (BitVec 8)} : (State.bar4Write s o bs).Kept q_ d_ := by
  unfold State.bar4Write
  try dsimp only
  with_reducible repeat' first
    | assumption | intro _ | apply kept_ite | apply forEach_kept | apply State.bar4Byte_kept | apply State.badAccess_kept
    | dsimp only | split

theorem State.bar4Read_kept {q_ : List Instr} {d_ : DevState} {s : State} (h : s.Kept q_ d_) {o : Nat} {n : Nat} : (State.bar4Read s o n).Kept q_ d_ := by
  unfold State.bar4Read
  try dsimp only
  with_reducible repeat' first
    | assumption | intro _ | apply kept_ite | apply State.onBus_kept | apply State.badRead_kept | dsimp only | split

theorem State.barAccess_goes {q_ : List Instr} {d_ : DevState} {s : State} (h : s.Kept q_ d_) {bar ofs len : Nat} {write : Option (List (BitVec 8))} :
    (State.barAccess s bar ofs len write).Goes q_ d_ := by
  unfold State.barAccess
  split
  · exact h.goes
  · split
    · exact State.bar0Write_goes h
    · exact (State.bar0Read_kept h).goes
    · exact (State.bar2Write_kept h).goes
    · exact (State.bar2Read_kept h).goes
    · exact (State.bar4Write_kept h).goes
    · exact (State.bar4Read_kept h).goes
    · exact (State.badAccess_kept h).goes
    · exact (State.badRead_kept h).goes

theorem State.endpointReset_kept {q_ : List Instr} {d_ : DevState} {s : State} (h : s.Kept q_ d_) {linkLoss : Bool} : (State.endpointReset s linkLoss).Kept q_ d_ := by
  unfold State.endpointReset
  try dsimp only
  with_reducible repeat' first
    | assumption | apply kept_ite | apply State.endpointClear_kept | apply State.inc_kept | apply State.event_kept | split

theorem State.pcieUp_kept {q_ : List Instr} {d_ : DevState} {s : State} (h : s.Kept q_ d_) {speed : Nat} {width : Nat} : (State.pcieUp s speed width).Kept q_ d_ := by
  unfold State.pcieUp
  try lift_lets
  intros
  try
    have k_s0 : s0.Kept q_ d_ := by
      dsimp only [s0]
      with_reducible repeat' first
        | assumption | exact ⟨rfl, rfl⟩ | apply kept_update
    clear_value s0
  try
    have k_s1 : s1.Kept q_ d_ := by
      dsimp only [s1]
      with_reducible repeat' first
        | assumption | apply State.setBit_kept | apply State.setFld_kept | apply State.event_kept
    clear_value s1
  with_reducible repeat' first
    | assumption | intro _ | apply kept_ite | apply forUpTo_kept | apply State.setBit_kept | apply State.setFld_kept
    | apply State.event_kept | apply State.sendMsix_kept | dsimp only | split | dsimp +zetaDelta only | exact ⟨rfl, rfl⟩
    | apply kept_update

theorem State.flashWrite_kept {q_ : List Instr} {d_ : DevState} {s : State} (h : s.Kept q_ d_) {ag : Agent} {a : Nat} {len : Nat} {data : Option (List (BitVec 8))} : (State.flashWrite s ag a len data).Kept q_ d_ := by
  unfold State.flashWrite
  try lift_lets
  intros
  try clear_value bs
  with_reducible repeat' first
    | assumption | exact fun h_ => h_ | exact Tab.wf_set _ _ | exact setDram_wf | exact setAll_wf | exact dropRange_wf
    | exact Tab.wf_dropRange _ _ | exact Tab.wf_filter _ | exact Tab.wf_setAll _ | exact Memory.wf_setN _ _ _
    | exact Memory.wf_setBytes _ _ | exact Memory.wf_clear _ _ | exact Memory.wf_copy _ _ _ | exact fun _ => nil_wf
    | exact fun _ => setAll_wf nil_wf | intro _ | apply kept_ite | apply getD_map_kept | apply State.event_kept | dsimp only
    | split | dsimp +zetaDelta only | exact ⟨rfl, rfl⟩ | apply kept_update | apply kept_tables

theorem State.setJtag_kept {q_ : List Instr} {d_ : DevState} {s : State} (h : s.Kept q_ d_) {i : JtagInstr} : (State.setJtag s i).Kept q_ d_ := by
  unfold State.setJtag
  try dsimp only
  with_reducible repeat' first
    | assumption | apply kept_ite | split | exact ⟨rfl, rfl⟩ | apply kept_update

theorem State.jtagShift_kept {q_ : List Instr} {d_ : DevState} {s : State} (h : s.Kept q_ d_) {i : JtagInstr} : (State.jtagShift s i).Kept q_ d_ := by
  unfold State.jtagShift
  try dsimp only
  with_reducible repeat' first
    | assumption | apply kept_ite | apply State.setJtag_kept | apply State.bypass_kept | apply State.setBit_kept
    | apply State.inc_kept | apply State.event_kept | split

end Sys2Proof.Machine
end

