-- ==== Sys2Proof/Laws/Kept/ProofTest.lean ====
section
/-! SUPPORT. The operations of Machine/ProofTest.lean keep the canonical form and the queue. -/

namespace Sys2Proof.Machine

set_option tactic.hygienic false
set_option linter.unusedTactic false
set_option linter.unreachableTactic false
set_option linter.unusedVariables false

theorem State.setPt_kept {q_ : List Instr} {d_ : DevState} {s : State} (h : s.Kept q_ d_) {x : ProofTest} : (State.setPt s x).Kept q_ d_ := by
  unfold State.setPt
  try dsimp only
  with_reducible repeat' first
    | assumption | exact ⟨rfl, rfl⟩ | apply kept_update

theorem State.pulseStep_kept {q_ : List Instr} {d_ : DevState} {s : State} (h : s.Kept q_ d_) : (State.pulseStep s).Kept q_ d_ := by
  unfold State.pulseStep
  try lift_lets
  intros
  try
    have k_x : x.Kept q_ d_ := by
      dsimp only [x]
      with_reducible repeat' first
        | assumption
    clear_value x
  try
    have k_s1 : s1.Kept q_ d_ := by
      dsimp only [s1]
      with_reducible repeat' first
        | assumption | apply State.setPt_kept | apply State.pulse_kept | exact ⟨rfl, rfl⟩ | apply kept_update
    clear_value s1
  with_reducible repeat' first
    | assumption | apply kept_ite | apply State.setPt_kept | apply State.setPulse_kept | apply State.pulse_kept | dsimp only
    | split | dsimp +zetaDelta only | exact ⟨rfl, rfl⟩ | apply kept_update

theorem State.inputStep_kept {q_ : List Instr} {d_ : DevState} {s : State} (h : s.Kept q_ d_) : (State.inputStep s).Kept q_ d_ := by
  unfold State.inputStep
  try lift_lets
  intros
  try clear_value bad
  try clear_value back
  try
    have k_x : x.Kept q_ d_ := by
      dsimp only [x]
      with_reducible repeat' first
        | assumption
    clear_value x
  with_reducible repeat' first
    | assumption | intro _ | apply kept_ite | apply foldl_kept | apply State.setPt_kept | dsimp only | split
    | dsimp +zetaDelta only | exact ⟨rfl, rfl⟩ | apply kept_update

theorem State.ptWork_kept {q_ : List Instr} {d_ : DevState} {s : State} (h : s.Kept q_ d_) {k : Nat} : (State.ptWork s k).Kept q_ d_ := by
  unfold State.ptWork
  try dsimp only
  with_reducible repeat' first
    | assumption | apply State.pulseStep_kept | apply State.inputStep_kept | split

theorem State.ptTick_kept {q_ : List Instr} {d_ : DevState} {s : State} (h : s.Kept q_ d_) : (State.ptTick s).Kept q_ d_ := by
  unfold State.ptTick
  try lift_lets
  intros
  try clear_value k
  try
    have k_s1 : s1.Kept q_ d_ := by
      dsimp only [s1]
      with_reducible repeat' first
        | assumption | apply State.ptWork_kept
    clear_value s1
  with_reducible repeat' first
    | assumption | apply kept_ite | apply State.ptWork_kept | apply State.ptFail_kept | apply State.setPt_kept
    | apply State.ptEnter_kept | dsimp only | split | dsimp +zetaDelta only | exact ⟨rfl, rfl⟩ | apply kept_update

end Sys2Proof.Machine
end

