-- ==== Sys2Proof/Laws/Kept/Tick.lean ====
section
/-! SUPPORT. The operations of Machine/Tick.lean keep the canonical form and the queue. -/

namespace Sys2Proof.Machine

set_option tactic.hygienic false
set_option linter.unusedTactic false
set_option linter.unreachableTactic false
set_option linter.unusedVariables false

theorem State.phaseS_kept {q_ : List Instr} {d_ : DevState} {s : State} (h : s.Kept q_ d_) {ms : List CodeMismatch} : (State.phaseS s ms).Kept q_ d_ := by
  unfold State.phaseS
  try lift_lets
  intros
  try clear_value found
  with_reducible repeat' first
    | assumption | intro _ | apply when_kept | apply State.separationPass_kept | apply State.laneTest_kept
    | apply State.detect_kept | apply State.refreshSaf_kept | dsimp only | dsimp +zetaDelta only

theorem State.phaseP_kept {q_ : List Instr} {d_ : DevState} {s : State} (h : s.Kept q_ d_) : (State.phaseP s).Kept q_ d_ := by
  unfold State.phaseP
  try dsimp only
  with_reducible repeat' first
    | assumption | apply State.slipAxes_kept | apply State.profilePhase_kept | apply State.dlrPhaseStart_kept

theorem State.phaseL_kept {q_ : List Instr} {d_ : DevState} {s : State} (h : s.Kept q_ d_) : (State.phaseL s).Kept q_ d_ := by
  unfold State.phaseL
  try dsimp only
  with_reducible repeat' first
    | assumption | intro _ | apply forUpTo_kept | apply when_kept | apply State.loopTask_kept | apply State.putOutputWord_kept
    | apply State.dlrPhaseStart_kept | dsimp only

theorem State.safeOutputCheck_kept {q_ : List Instr} {d_ : DevState} {s : State} (h : s.Kept q_ d_) : (State.safeOutputCheck s).Kept q_ d_ := by
  unfold State.safeOutputCheck
  try dsimp only
  with_reducible repeat' first
    | assumption | apply kept_ite | apply State.stopCause_kept | apply State.causeGone_kept | split

theorem State.phaseC_kept {q_ : List Instr} {d_ : DevState} {s : State} (h : s.Kept q_ d_) : (State.phaseC s).Kept q_ d_ := by
  unfold State.phaseC
  try lift_lets
  intros
  try
    have k_s0 : s0.Kept q_ d_ := by
      dsimp only [s0]
      with_reducible repeat' first
        | assumption | apply State.safetyFound_kept | apply State.safeOutputCheck_kept
    clear_value s0
  try
    have k_s1 : s1.Kept q_ d_ := by
      dsimp only [s1]
      with_reducible repeat' first
        | assumption | intro _ | apply forUpTo_kept | apply State.inputTick_kept | dsimp only
    clear_value s1
  try
    have k_s2 : s2.Kept q_ d_ := by
      dsimp only [s2]
      with_reducible repeat' first
        | assumption | intro _ | apply forUpTo_kept | apply State.groupCheck_kept | dsimp only
    clear_value s2
  try
    have k_s3 : s3.Kept q_ d_ := by
      dsimp only [s3]
      with_reducible repeat' first
        | assumption | intro _ | apply forUpTo_kept | apply when_kept | apply State.looseChecked_kept | dsimp only
    clear_value s3
  with_reducible repeat' first
    | assumption | intro _ | apply forUpTo_kept | apply when_kept | apply State.safetyFound_kept
    | apply State.safeOutputCheck_kept | apply State.inputTick_kept | apply State.groupCheck_kept | apply State.looseChecked_kept
    | apply State.putOutputs_kept | apply State.putSafeOuts_kept | apply State.compareRecord_kept | apply State.degradeTick_kept
    | apply State.ptTick_kept | dsimp only | dsimp +zetaDelta only

theorem State.readRanges_kept {q_ : List Instr} {d_ : DevState} {s : State} (h : s.Kept q_ d_) {l : List (Nat × Nat)} : (State.readRanges s l).Kept q_ d_ := by
  unfold State.readRanges
  try dsimp only
  with_reducible repeat' first
    | assumption | intro _ | apply forEach_kept | apply State.ueRead_kept | dsimp only

theorem State.phaseWork_kept {q_ : List Instr} {d_ : DevState} {s : State} (h : s.Kept q_ d_) {ph : Phase} {ms : List CodeMismatch} : (State.phaseWork s ph ms).Kept q_ d_ := by
  unfold State.phaseWork
  try dsimp only
  with_reducible repeat' first
    | assumption | apply State.readRanges_kept | apply State.phaseS_kept | apply State.phaseP_kept | apply State.solverStart_kept
    | apply State.phaseL_kept | apply State.phaseC_kept | split

theorem State.sendOut_kept {q_ : List Instr} {d_ : DevState} {s : State} (h : s.Kept q_ d_) {p : Nat} {n : Nat} {l : List (BitVec 8)} : (State.sendOut s p n l).Kept q_ d_ := by
  unfold State.sendOut
  try dsimp only
  with_reducible repeat' first
    | assumption | apply State.sendFrom_kept | apply State.send_kept | split

theorem State.launchNode_kept {q_ : List Instr} {d_ : DevState} {s : State} (h : s.Kept q_ d_) {p : Nat} {n : Nat} : (State.launchNode s p n).Kept q_ d_ := by
  unfold State.launchNode
  try lift_lets
  intros
  try clear_value l
  try
    have k_s1 : s1.Kept q_ d_ := by
      dsimp only [s1]
      with_reducible repeat' first
        | assumption | apply State.setRp_kept | apply State.sendOut_kept | split | exact ⟨rfl, rfl⟩ | apply kept_update
    clear_value s1
  with_reducible repeat' first
    | assumption | apply kept_ite | apply State.setRp_kept | apply State.sendOut_kept | apply State.sendFrom_kept | dsimp only
    | split | dsimp +zetaDelta only | exact ⟨rfl, rfl⟩ | apply kept_update

theorem State.launchPort_kept {q_ : List Instr} {d_ : DevState} {s : State} (h : s.Kept q_ d_) {p : Nat} : (State.launchPort s p).Kept q_ d_ := by
  unfold State.launchPort
  try lift_lets
  intros
  try
    have k_s1 : s1.Kept q_ d_ := by
      dsimp only [s1]
      with_reducible repeat' first
        | assumption | apply State.outLaunch_kept | apply State.setRp_kept | exact ⟨rfl, rfl⟩ | apply kept_update
    clear_value s1
  with_reducible repeat' first
    | assumption | intro _ | apply kept_ite | apply forEach_kept | apply State.outLaunch_kept | apply State.setRp_kept
    | apply State.launchNode_kept | dsimp only | split | dsimp +zetaDelta only | exact ⟨rfl, rfl⟩ | apply kept_update

theorem State.laxLaunch_kept {q_ : List Instr} {d_ : DevState} {s : State} (h : s.Kept q_ d_) : (State.laxLaunch s).Kept q_ d_ := by
  unfold State.laxLaunch
  try lift_lets
  intros
  try clear_value w0
  try
    have k_x : x.Kept q_ d_ := by
      dsimp only [x]
      with_reducible repeat' first
        | assumption | dsimp +zetaDelta only
    clear_value x
  with_reducible repeat' first
    | assumption | intro _ | apply kept_ite | apply forUpTo_kept | apply State.setLaxRt_kept | dsimp only | split
    | dsimp +zetaDelta only | exact ⟨rfl, rfl⟩ | apply kept_update

theorem State.publishView_kept {q_ : List Instr} {d_ : DevState} {s : State} (h : s.Kept q_ d_) : (State.publishView s).Kept q_ d_ := by
  unfold State.publishView
  try lift_lets
  intros
  try clear_value b
  try
    have k_st : st.Kept q_ d_ := by
      dsimp only [st]
      with_reducible repeat' first
        | assumption
    clear_value st
  try
    have k_s1 : s1.Kept q_ d_ := by
      dsimp only [s1]
      with_reducible repeat' first
        | assumption | apply State.clearCell_kept | apply State.setCell_kept
    clear_value s1
  try
    have k_s2 : s2.Kept q_ d_ := by
      dsimp only [s2]
      with_reducible repeat' first
        | assumption | apply State.setCell_kept
    clear_value s2
  try
    have k_s3 : s3.Kept q_ d_ := by
      dsimp only [s3]
      with_reducible repeat' first
        | assumption | apply State.setCell_kept
    clear_value s3
  try
    have k_s4 : s4.Kept q_ d_ := by
      dsimp only [s4]
      with_reducible repeat' first
        | assumption | apply State.copyCell_kept
    clear_value s4
  with_reducible repeat' first
    | assumption | apply State.clearCell_kept | apply State.setCell_kept | apply State.copyCell_kept | dsimp only
    | dsimp +zetaDelta only

theorem State.tickRecord_kept {q_ : List Instr} {d_ : DevState} {s : State} (h : s.Kept q_ d_) : (State.tickRecord s).Kept q_ d_ := by
  unfold State.tickRecord
  try dsimp only
  with_reducible repeat' first
    | assumption | apply kept_ite | apply State.trace_kept | split

theorem State.emit_kept {q_ : List Instr} {d_ : DevState} {s : State} (h : s.Kept q_ d_) : (State.emit s).Kept q_ d_ := by
  unfold State.emit
  try lift_lets
  intros
  try
    have k_s1 : s1.Kept q_ d_ := by
      dsimp only [s1]
      with_reducible repeat' first
        | assumption | intro _ | apply forUpTo_kept | apply State.launchPort_kept | apply State.laxLaunch_kept | dsimp only
    clear_value s1
  with_reducible repeat' first
    | assumption | intro _ | apply kept_ite | apply forUpTo_kept | apply State.launchPort_kept | apply State.laxLaunch_kept
    | dsimp only | split | dsimp +zetaDelta only | exact ⟨rfl, rfl⟩ | apply kept_update

theorem State.eLaunch_kept {q_ : List Instr} {d_ : DevState} {s : State} (h : s.Kept q_ d_) : (State.eLaunch s).Kept q_ d_ := by
  unfold State.eLaunch
  try lift_lets
  intros
  try
    have k_s0 : s0.Kept q_ d_ := by
      dsimp only [s0]
      with_reducible repeat' first
        | assumption | apply kept_ite | apply State.advance_kept | split
    clear_value s0
  try
    have k_s1 : s1.Kept q_ d_ := by
      dsimp only [s1]
      with_reducible repeat' first
        | assumption | apply State.setBegun_kept | apply State.emit_kept | apply State.holderBeat_kept
    clear_value s1
  with_reducible repeat' first
    | assumption | intro _ | apply kept_ite | apply when_kept | apply State.advance_kept | apply State.setBegun_kept
    | apply State.emit_kept | apply State.holderBeat_kept | apply State.publishView_kept | apply State.tickRecord_kept
    | dsimp only | split | dsimp +zetaDelta only

theorem State.startPhase_kept {q_ : List Instr} {d_ : DevState} {s : State} (h : s.Kept q_ d_) {ph : Phase} {ms : List CodeMismatch} : (State.startPhase s ph ms).Kept q_ d_ := by
  unfold State.startPhase
  try dsimp only
  with_reducible repeat' first
    | assumption | apply kept_ite | apply State.eLaunch_kept | apply State.advance_kept | apply State.setBegun_kept
    | apply State.phaseWork_kept | split

theorem State.channelBeat_kept {q_ : List Instr} {d_ : DevState} {s : State} (h : s.Kept q_ d_) : (State.channelBeat s).Kept q_ d_ := by
  unfold State.channelBeat
  try dsimp only
  with_reducible repeat' first
    | assumption | apply kept_ite | apply State.sendHeartbeat_kept | apply State.setQtz_kept | split | exact ⟨rfl, rfl⟩
    | apply kept_update

theorem State.phaseDone_kept {q_ : List Instr} {d_ : DevState} {s : State} (h : s.Kept q_ d_) {ph : Phase} {inTime : Bool} : (State.phaseDone s ph inTime).Kept q_ d_ := by
  unfold State.phaseDone
  try dsimp only
  with_reducible repeat' first
    | assumption | apply kept_ite | apply State.solverWrite_kept | apply State.channelBeat_kept | apply State.formDigest_kept
    | split

theorem State.completePhase_kept {q_ : List Instr} {d_ : DevState} {s : State} (h : s.Kept q_ d_) {ph : Phase} {ofs : Nat} : (State.completePhase s ph ofs).Kept q_ d_ := by
  unfold State.completePhase
  try lift_lets
  intros
  try
    have k_s1 : s1.Kept q_ d_ := by
      dsimp only [s1]
      with_reducible repeat' first
        | assumption | apply State.advance_kept | apply State.setReported_kept | apply State.endPhase_kept
    clear_value s1
  with_reducible repeat' first
    | assumption | apply kept_ite | apply State.advance_kept | apply State.setReported_kept | apply State.endPhase_kept
    | apply State.phaseDone_kept | dsimp only | split | dsimp +zetaDelta only

theorem State.setInvalid_kept {q_ : List Instr} {d_ : DevState} {s : State} (h : s.Kept q_ d_) {ph : Phase} : (State.setInvalid s ph).Kept q_ d_ := by
  unfold State.setInvalid
  try dsimp only
  with_reducible repeat' first
    | assumption | apply kept_ite | apply State.setQtz_kept | split | exact ⟨rfl, rfl⟩ | apply kept_update

theorem State.setPlanBad_kept {q_ : List Instr} {d_ : DevState} {s : State} (h : s.Kept q_ d_) {g : BitVec 16} : (State.setPlanBad s g).Kept q_ d_ := by
  unfold State.setPlanBad
  try dsimp only
  with_reducible repeat' first
    | assumption | apply kept_ite | apply State.setQtz_kept | split | exact ⟨rfl, rfl⟩ | apply kept_update

theorem State.setCmdBad_kept {q_ : List Instr} {d_ : DevState} {s : State} (h : s.Kept q_ d_) {g : BitVec 16} : (State.setCmdBad s g).Kept q_ d_ := by
  unfold State.setCmdBad
  try dsimp only
  with_reducible repeat' first
    | assumption | apply kept_ite | apply State.setQtz_kept | split | exact ⟨rfl, rfl⟩ | apply kept_update

theorem State.overrunStop_kept {q_ : List Instr} {d_ : DevState} {s : State} (h : s.Kept q_ d_) {g : BitVec 16} : (State.overrunStop s g).Kept q_ d_ := by
  unfold State.overrunStop
  try dsimp only
  with_reducible repeat' first
    | assumption | exact ⟨rfl, rfl⟩ | apply kept_update

theorem State.overrunOutcome_kept {q_ : List Instr} {d_ : DevState} {s : State} (h : s.Kept q_ d_) {ph : Phase} {g : BitVec 16} {cpl : Bool} : (State.overrunOutcome s ph g cpl).Kept q_ d_ := by
  unfold State.overrunOutcome
  try dsimp only
  with_reducible repeat' first
    | assumption | intro _ | apply when_kept | apply State.setInvalid_kept | apply State.stopCause_kept
    | apply State.setPlanBad_kept | apply State.setQtz_kept | apply State.overrunStop_kept | apply State.solverMiss_kept
    | apply State.setCmdBad_kept | dsimp only | split | exact ⟨rfl, rfl⟩ | apply kept_update

theorem State.overrun_kept {q_ : List Instr} {d_ : DevState} {s : State} (h : s.Kept q_ d_) {ph : Phase} {g : BitVec 16} {cpl : Bool} : (State.overrun s ph g cpl).Kept q_ d_ := by
  unfold State.overrun
  try dsimp only
  with_reducible repeat' first
    | assumption | apply State.setBit_kept | apply State.inc_kept | apply State.event_kept | apply State.detLapse_kept
    | apply State.overrunOutcome_kept

theorem State.atDeadline_kept {q_ : List Instr} {d_ : DevState} {s : State} (h : s.Kept q_ d_) {ph : Phase} : (State.atDeadline s ph).Kept q_ d_ := by
  unfold State.atDeadline
  try dsimp only
  with_reducible repeat' first
    | assumption | intro _ | apply forUpTo_kept | apply when_kept | apply State.portGather_kept | apply State.ssiDeadline_kept
    | apply State.mirrorGap_kept | apply State.dlrDeadline_kept | apply State.channelBeat_kept | dsimp only | split

theorem State.realignBeat_kept {q_ : List Instr} {d_ : DevState} {s : State} (h : s.Kept q_ d_) : (State.realignBeat s).Kept q_ d_ := by
  unfold State.realignBeat
  try dsimp only
  with_reducible repeat' first
    | assumption | apply State.advance_kept | apply State.channelBeat_kept

theorem State.deadline_kept {q_ : List Instr} {d_ : DevState} {s : State} (h : s.Kept q_ d_) {ph : Phase} {g : BitVec 16} {cpl : Bool} : (State.deadline s ph g cpl).Kept q_ d_ := by
  unfold State.deadline
  try lift_lets
  intros
  try
    have k_s1 : s1.Kept q_ d_ := by
      dsimp only [s1]
      with_reducible repeat' first
        | assumption | apply State.advance_kept | apply State.atDeadline_kept | apply State.setSealed_kept
    clear_value s1
  with_reducible repeat' first
    | assumption | intro _ | apply kept_ite | apply when_kept | apply State.realignBeat_kept | apply State.advance_kept
    | apply State.atDeadline_kept | apply State.setSealed_kept | apply State.overrun_kept | dsimp only | split
    | dsimp +zetaDelta only

theorem State.groupOverrunStop_kept {q_ : List Instr} {d_ : DevState} {s : State} (h : s.Kept q_ d_) {ph : Phase} {g : Nat} : (State.groupOverrunStop s ph g).Kept q_ d_ := by
  unfold State.groupOverrunStop
  try lift_lets
  intros
  try clear_value due
  with_reducible repeat' first
    | assumption | apply kept_ite | apply State.overrunStop_kept | dsimp only | split | dsimp +zetaDelta only

theorem State.landLate_kept {q_ : List Instr} {d_ : DevState} {s : State} (h : s.Kept q_ d_) : (State.landLate s).Kept q_ d_ := by
  unfold State.landLate
  try lift_lets
  intros
  try
    have k_s1 : s1.Kept q_ d_ := by
      dsimp only [s1]
      with_reducible repeat' first
        | assumption | exact ⟨rfl, rfl⟩ | apply kept_update
    clear_value s1
  try
    have k_s2 : s2.Kept q_ d_ := by
      dsimp only [s2]
      with_reducible repeat' first
        | assumption | intro _ | apply kept_ite | dsimp only | split | exact ⟨rfl, rfl⟩ | apply kept_update
    clear_value s2
  try
    have k_s3 : s3.Kept q_ d_ := by
      dsimp only [s3]
      with_reducible repeat' first
        | assumption | intro _ | apply kept_ite | apply forUpTo_kept | apply State.ethEnabled_kept | apply State.writeStamps_kept
        | dsimp only | split
    clear_value s3
  with_reducible repeat' first
    | assumption | intro _ | apply kept_ite | apply forUpTo_kept | apply State.ethEnabled_kept | apply State.writeStamps_kept
    | apply State.mstStarts_kept | dsimp only | split | dsimp +zetaDelta only | exact ⟨rfl, rfl⟩ | apply kept_update

theorem State.entry_kept {q_ : List Instr} {d_ : DevState} {s : State} (h : s.Kept q_ d_) {old : DevState} {d : DevState} : (State.entry s old d).Kept q_ d_ := by
  unfold State.entry
  try lift_lets
  intros
  try
    have k_s1 : s1.Kept q_ d_ := by
      dsimp only [s1]
      with_reducible repeat' first
        | assumption | intro _ | apply when_kept | apply State.ringReady_kept | apply State.refreshSaf_kept
    clear_value s1
  with_reducible repeat' first
    | assumption | intro _ | apply when_kept | apply State.enterSelftest_kept | apply State.ringReady_kept
    | apply State.refreshSaf_kept | apply State.runRequest_kept | apply State.startAll_kept | apply State.enterDegraded_kept
    | dsimp only | split | dsimp +zetaDelta only | exact ⟨rfl, rfl⟩ | apply kept_update

theorem bestTrigger_mem (l : List DevState) : ∀ {x : DevState}, bestTrigger l = some x → x ∈ l := by
  induction l with
  | nil => intro x h; cases h
  | cons y l ih =>
    intro x h
    unfold bestTrigger at h
    cases he : bestTrigger l with
    | none => rw [he] at h; cases h; exact List.mem_cons_self
    | some e =>
      rw [he] at h
      dsimp only at h
      by_cases hr : e.rank < y.rank
      · rw [if_pos hr] at h; cases h; exact List.mem_cons_of_mem _ (ih he)
      · rw [if_neg hr] at h; cases h; exact List.mem_cons_self

theorem State.changeState_kept {q_ : List Instr} {d_ : DevState} {s : State} (h : s.Kept q_ d_) :
    ∃ e, (e = d_ ∨ transition d_ e = true) ∧ s.changeState.Kept q_ e := by
  unfold State.changeState
  cases hb : bestTrigger s.sys.triggers with
  | none => exact ⟨d_, .inl rfl, kept_update h ⟨rfl, rfl⟩⟩
  | some x =>
    refine ⟨x, .inr (h.legal x (bestTrigger_mem _ hb)), ?_⟩
    dsimp only
    have k : (s.when (s.sys.dev == DevState.ready) State.closeSeal).Kept q_ d_ := when_kept (fun _ ht => State.closeSeal_kept ht) h
    revert k
    generalize s.when (s.sys.dev == DevState.ready) State.closeSeal = u
    intro k
    with_reducible refine State.entry_kept (State.enter_kept (State.loseTriggers_kept k) ?_)
    intro y hy
    rw [State.loseTriggers_triggers] at hy; cases hy

theorem State.clearCauses_kept {q_ : List Instr} {d_ : DevState} {s : State} (h : s.Kept q_ d_) : (State.clearCauses s).Kept q_ d_ := by
  unfold State.clearCauses
  try lift_lets
  intros
  try
    have k_s1 : s1.Kept q_ d_ := by
      dsimp only [s1]
      with_reducible repeat' first
        | assumption | intro _ | apply forEach_kept | apply State.causeGone_kept | apply State.tickLoss_kept | dsimp only
    clear_value s1
  with_reducible repeat' first
    | assumption | intro _ | apply kept_ite | apply forEach_kept | apply State.causeGone_kept | apply State.tickLoss_kept
    | dsimp only | split | dsimp +zetaDelta only

theorem State.openPhases_kept {q_ : List Instr} {d_ : DevState} {s : State} (h : s.Kept q_ d_) {old : Nat} : (State.openPhases s old).Kept q_ d_ := by
  unfold State.openPhases
  try lift_lets
  intros
  try clear_value run
  try clear_value q
  try clear_value bad
  try clear_value q1
  with_reducible repeat' first
    | assumption | apply kept_ite | apply State.setQtz_kept | dsimp only | split | dsimp +zetaDelta only | exact ⟨rfl, rfl⟩
    | apply kept_update

theorem State.commandCut_kept {q_ : List Instr} {d_ : DevState} {s : State} (h : s.Kept q_ d_) : (State.commandCut s).Kept q_ d_ := by
  unfold State.commandCut
  try dsimp only
  with_reducible repeat' first
    | assumption | intro _ | apply kept_ite | apply forUpTo_kept | apply State.cutMailbox_kept | apply State.cutRequests_kept
    | apply State.takeMasters_kept | dsimp only | split

theorem State.powerTick_kept {q_ : List Instr} {d_ : DevState} {s : State} (h : s.Kept q_ d_) : (State.powerTick s).Kept q_ d_ := by
  unfold State.powerTick
  try lift_lets
  intros
  try
    have k_s1 : s1.Kept q_ d_ := by
      dsimp only [s1]
      with_reducible repeat' first
        | assumption | apply State.dvfsTick_kept | apply State.appcTick_kept | apply State.domTick_kept
    clear_value s1
  with_reducible repeat' first
    | assumption | intro _ | apply when_kept | apply State.dvfsTick_kept | apply State.appcTick_kept | apply State.domTick_kept
    | apply State.inc_kept | apply State.preemptRequests_kept | dsimp only | dsimp +zetaDelta only

theorem State.openTick_kept {q_ : List Instr} {d_ : DevState} {s : State} (h : s.Kept q_ d_) {old : Nat} : (State.openTick s old).Kept q_ d_ := by
  unfold State.openTick
  try lift_lets
  intros
  try
    have k_s1 : s1.Kept q_ d_ := by
      dsimp only [s1]
      with_reducible repeat' first
        | assumption | intro _ | apply when_kept | apply State.solFresh_kept | apply State.openPhases_kept
    clear_value s1
  try
    have k_s2 : s2.Kept q_ d_ := by
      dsimp only [s2]
      with_reducible repeat' first
        | assumption | apply State.commandCut_kept
    clear_value s2
  try
    have k_s3 : s3.Kept q_ d_ := by
      dsimp only [s3]
      with_reducible repeat' first
        | assumption | intro _ | apply forUpTo_kept | apply State.applyShift_kept | apply State.laxSample_kept | dsimp only
    clear_value s3
  try
    have k_s4 : s4.Kept q_ d_ := by
      dsimp only [s4]
      with_reducible repeat' first
        | assumption | apply State.powerTick_kept | apply State.sealTick_kept | apply State.loadTick_kept
        | apply State.refreshGates_kept | apply State.fieldBoundary_kept
    clear_value s4
  try
    have k_s5 : s5.Kept q_ d_ := by
      dsimp only [s5]
      with_reducible repeat' first
        | assumption | apply State.twinTick_kept | apply State.evrBoundary_kept | apply State.ringTick_kept
        | apply State.ptCount_kept
    clear_value s5
  try
    have k_s6 : s6.Kept q_ d_ := by
      dsimp only [s6]
      with_reducible repeat' first
        | assumption | apply State.setBit_kept
    clear_value s6
  with_reducible repeat' first
    | assumption | intro _ | apply forUpTo_kept | apply when_kept | apply State.solFresh_kept | apply State.openPhases_kept
    | apply State.commandCut_kept | apply State.applyShift_kept | apply State.laxSample_kept | apply State.powerTick_kept
    | apply State.sealTick_kept | apply State.loadTick_kept | apply State.refreshGates_kept | apply State.fieldBoundary_kept
    | apply State.twinTick_kept | apply State.evrBoundary_kept | apply State.ringTick_kept | apply State.ptCount_kept
    | apply State.setBit_kept | apply State.refreshSaf_kept | dsimp only | dsimp +zetaDelta only

theorem State.sealAll_kept {q_ : List Instr} {d_ : DevState} {s : State} (h : s.Kept q_ d_) : (State.sealAll s).Kept q_ d_ := by
  unfold State.sealAll
  try dsimp only
  with_reducible repeat' first
    | assumption | apply State.setQtz_kept | exact ⟨rfl, rfl⟩ | apply kept_update

theorem State.dropPulses_kept {q_ : List Instr} {d_ : DevState} {s : State} (h : s.Kept q_ d_) : (State.dropPulses s).Kept q_ d_ := by
  unfold State.dropPulses
  try dsimp only
  with_reducible repeat' first
    | assumption | exact ⟨rfl, rfl⟩ | apply kept_update

theorem State.frozenTick_kept {q_ : List Instr} {s : State} (h : s.Kept q_ .frozen) {f : Freeze} :
    ∃ e, (e = .frozen ∨ e = if f.armed then .safestop else f.before) ∧ (s.frozenTick f).Kept q_ e := by
  unfold State.frozenTick
  lift_lets
  intro old s1
  have k1 : s1.Kept q_ .frozen := State.dropPulses_kept (State.laxBoundary_kept (State.inc_kept (State.qtzCount_kept (State.landLate_kept h))))
  clear_value s1
  by_cases hr : f.resume = true
  · rw [if_pos hr]
    exact ⟨_, .inr rfl, State.openTick_kept (State.sealAll_kept (State.thaw_kept (State.raiseLine_kept k1)))⟩
  · rw [if_neg hr]
    exact ⟨_, .inl rfl, State.fieldBoundary_kept (State.laxSample_kept (State.openPhases_kept k1))⟩

theorem State.tickBoundary_kept {q_ : List Instr} {d_ : DevState} {s : State} (h : s.Kept q_ d_) :
    ∃ e, (e = d_ ∨ transition d_ e = true ∨
      (d_ = .frozen ∧ ∃ f, s.sys.frozen = some f ∧ e = if f.armed then .safestop else f.before)) ∧ s.tickBoundary.Kept q_ e := by
  unfold State.tickBoundary
  have go : ∃ e, (e = d_ ∨ transition d_ e = true) ∧
      ((((s.stopCheck.landLate.followLead.qtzBoundary (bestTrigger s.stopCheck.landLate.followLead.sys.triggers == some .run)
        (bestTrigger s.stopCheck.landLate.followLead.sys.triggers == some .selftest)).laxBoundary.changeState).clearCauses).openTick s.parity).Kept q_ e := by
    have k : ((s.stopCheck.landLate.followLead.qtzBoundary (bestTrigger s.stopCheck.landLate.followLead.sys.triggers == some .run)
        (bestTrigger s.stopCheck.landLate.followLead.sys.triggers == some .selftest)).laxBoundary).Kept q_ d_ :=
      State.laxBoundary_kept (State.qtzBoundary_kept (State.followLead_kept (State.landLate_kept (State.stopCheck_kept h))))
    obtain ⟨e, he, k'⟩ := State.changeState_kept k
    exact ⟨e, he, State.openTick_kept (State.clearCauses_kept k')⟩
  split
  · exact ⟨d_, .inl rfl, h⟩
  · exact ⟨d_, .inl rfl, h⟩
  · rename_i hd
    have hd' : d_ = .frozen := h.dev.symm.trans hd
    subst hd'
    cases hf : s.sys.frozen with
    | none => exact ⟨_, .inl rfl, h⟩
    | some f =>
      obtain ⟨e, he, k⟩ := State.frozenTick_kept h (f := f)
      rcases he with he | he
      · exact ⟨e, .inl he, k⟩
      · exact ⟨e, .inr (.inr ⟨rfl, f, rfl, he⟩), k⟩
  · obtain ⟨e, he, k⟩ := go
    rcases he with he | he
    · exact ⟨e, .inl he, k⟩
    · exact ⟨e, .inr (.inl he), k⟩

end Sys2Proof.Machine
end

