-- ==== Sys2Proof/Laws/Kept/Exec.lean ====
section
/-! SUPPORT. Every meaning completes and keeps the canonical form and the queue; but for those named `_moves` it keeps the device state. -/

namespace Sys2Proof.Machine

set_option linter.unusedTactic false
set_option linter.unreachableTactic false
set_option linter.unusedVariables false

theorem goes_moves {q : List Instr} {d : DevState} {s : State} {f : Option Freeze} (h : s.Goes q d) :
    ∃ e, (e = d ∨ DevState.moves f d e) ∧ s.Kept q e := by
  obtain ⟨e, he, k⟩ := h
  refine ⟨e, ?_, k⟩
  rcases he with he | ⟨hd, he⟩ | ⟨hd, he⟩
  · exact .inl he
  · exact .inr (.inr (.inr (.inl ⟨hd, he⟩)))
  · exact .inr (.inr (.inr (.inr (.inr (.inr (.inl ⟨hd, he⟩))))))

theorem execRaisingReceive_kept {q_ : List Instr} {d_ : DevState} {s : State} (h : s.Kept q_ d_) (page : Nat) :
    ∃ t_, execRaisingReceive page s = .next t_ ∧ t_.Kept q_ d_ := by
  refine ⟨_, rfl, ?_⟩
  with_reducible repeat' first
      | assumption | intro _ | apply State.raisingReceive_kept | dsimp only

theorem execEventRecordWrite_kept {q_ : List Instr} {d_ : DevState} {s : State} (h : s.Kept q_ d_) (page : Nat) :
    ∃ t_, execEventRecordWrite page s = .next t_ ∧ t_.Kept q_ d_ := by
  refine ⟨_, rfl, ?_⟩
  with_reducible repeat' first
      | assumption | intro _ | apply State.eventRecordWrite_kept | dsimp only

theorem execEvtTrcSw_kept {q_ : List Instr} {d_ : DevState} {s : State} (h : s.Kept q_ d_) (core : Fin 4) (typ : BitVec 8) (w4 : Word) (w5 : Word) (w6 : Word) (w7 : Word) :
    ∃ t_, execEvtTrcSw core typ w4 w5 w6 w7 s = .next t_ ∧ t_.Kept q_ d_ := by
  refine ⟨_, rfl, ?_⟩
  with_reducible repeat' first
      | assumption | intro _ | apply kept_ite | apply State.trcSw_kept | dsimp only | split

theorem execTraceDrain_kept {q_ : List Instr} {d_ : DevState} {s : State} (h : s.Kept q_ d_) (src : Fin 128) :
    ∃ t_, execTraceDrain src s = .next t_ ∧ t_.Kept q_ d_ := by
  refine ⟨_, rfl, ?_⟩
  with_reducible repeat' first
      | assumption | intro _ | apply State.traceDrain_kept | dsimp only

theorem execPgIrqSet_kept {q_ : List Instr} {d_ : DevState} {s : State} (h : s.Kept q_ d_) (ag : Agent) (page : Nat) (v : Word) :
    ∃ t_, execPgIrqSet ag page v s = .next t_ ∧ t_.Kept q_ d_ := by
  refine ⟨_, rfl, ?_⟩
  with_reducible repeat' first
      | assumption | intro _ | apply State.swWrite_kept | apply State.irqSet_kept | dsimp only

theorem execPgIrqRawClear_kept {q_ : List Instr} {d_ : DevState} {s : State} (h : s.Kept q_ d_) (ag : Agent) (page : Nat) (v : Word) :
    ∃ t_, execPgIrqRawClear ag page v s = .next t_ ∧ t_.Kept q_ d_ := by
  refine ⟨_, rfl, ?_⟩
  with_reducible repeat' first
      | assumption | intro _ | apply State.swWrite_kept | apply State.irqClear_kept | dsimp only

theorem execPgCtrlWrite_kept {q_ : List Instr} {d_ : DevState} {s : State} (h : s.Kept q_ d_) (ag : Agent) (page : Nat) (v : Word) :
    ∃ t_, execPgCtrlWrite ag page v s = .next t_ ∧ t_.Kept q_ d_ := by
  refine ⟨_, rfl, ?_⟩
  with_reducible repeat' first
      | assumption | intro _ | apply State.swWrite_kept | apply State.pgCtrl_kept | dsimp only

theorem execPgLock_kept {q_ : List Instr} {d_ : DevState} {s : State} (h : s.Kept q_ d_) (ag : Agent) (page : Nat) (v : Word) :
    ∃ t_, execPgLock ag page v s = .next t_ ∧ t_.Kept q_ d_ := by
  refine ⟨_, rfl, ?_⟩
  with_reducible repeat' first
      | assumption | intro _ | apply State.swWrite_kept | apply State.pgLock_kept | dsimp only

theorem execEvtAlmAck_kept {q_ : List Instr} {d_ : DevState} {s : State} (h : s.Kept q_ d_) (ag : Agent) (entry : Fin 1024) (count : Word) :
    ∃ t_, execEvtAlmAck ag entry count s = .next t_ ∧ t_.Kept q_ d_ := by
  refine ⟨_, rfl, ?_⟩
  with_reducible repeat' first
      | assumption | intro _ | apply State.swWrite_kept | apply State.almAck_kept | dsimp only

theorem execEvtEvrTail_kept {q_ : List Instr} {d_ : DevState} {s : State} (h : s.Kept q_ d_) (ag : Agent) (v : Word) :
    ∃ t_, execEvtEvrTail ag v s = .next t_ ∧ t_.Kept q_ d_ := by
  refine ⟨_, rfl, ?_⟩
  with_reducible repeat' first
      | assumption | intro _ | apply State.swWrite_kept | apply State.evrTail_kept | dsimp only

theorem execEvtTrcRd_kept {q_ : List Instr} {d_ : DevState} {s : State} (h : s.Kept q_ d_) (ag : Agent) (v : Word) :
    ∃ t_, execEvtTrcRd ag v s = .next t_ ∧ t_.Kept q_ d_ := by
  refine ⟨_, rfl, ?_⟩
  with_reducible repeat' first
      | assumption | intro _ | apply State.swWrite_kept | apply State.trcRd_kept | dsimp only

theorem execQtzTimeInc_kept {q_ : List Instr} {d_ : DevState} {s : State} (h : s.Kept q_ d_) (ag : Agent) (part : WordPart) (v : BitVec 64) :
    ∃ t_, execQtzTimeInc ag part v s = .next t_ ∧ t_.Kept q_ d_ := by
  refine ⟨_, rfl, ?_⟩
  with_reducible repeat' first
      | assumption | intro _ | apply State.swWrite_kept | apply State.timeIncPart_kept | dsimp only

theorem execStepReq_kept {q_ : List Instr} {d_ : DevState} {s : State} (h : s.Kept q_ d_) (ag : Agent) :
    ∃ t_, execStepReq ag s = .next t_ ∧ t_.Kept q_ d_ := by
  refine ⟨_, rfl, ?_⟩
  with_reducible repeat' first
      | assumption | intro _ | apply State.swWrite_kept | apply State.stepReq_kept | dsimp only

theorem execQtzTickOfs_kept {q_ : List Instr} {d_ : DevState} {s : State} (h : s.Kept q_ d_) (ag : Agent) (v : Word) :
    ∃ t_, execQtzTickOfs ag v s = .next t_ ∧ t_.Kept q_ d_ := by
  refine ⟨_, rfl, ?_⟩
  with_reducible repeat' first
      | assumption | intro _ | apply State.tickOfs_kept | dsimp only

theorem execTickLoss_kept {q_ : List Instr} {d_ : DevState} {s : State} (h : s.Kept q_ d_)  :
    ∃ t_, execTickLoss s = .next t_ ∧ t_.Kept q_ d_ := by
  refine ⟨_, rfl, ?_⟩
  with_reducible repeat' first
      | assumption | intro _ | apply State.tickLoss_kept | dsimp only

theorem execServoStale_kept {q_ : List Instr} {d_ : DevState} {s : State} (h : s.Kept q_ d_)  :
    ∃ t_, execServoStale s = .next t_ ∧ t_.Kept q_ d_ := by
  refine ⟨_, rfl, ?_⟩
  with_reducible repeat' first
      | assumption | intro _ | apply State.servoStale_kept | dsimp only

theorem execScrubRead_kept {q_ : List Instr} {d_ : DevState} {s : State} (h : s.Kept q_ d_) (mem : Fin 256) (addr : Word) (ecc : Ecc) :
    ∃ t_, execScrubRead mem addr ecc s = .next t_ ∧ t_.Kept q_ d_ := by
  refine ⟨_, rfl, ?_⟩
  with_reducible repeat' first
      | assumption | intro _ | apply State.scrubRead_kept | dsimp only

theorem execEccWriteBack_kept {q_ : List Instr} {d_ : DevState} {s : State} (h : s.Kept q_ d_) (mem : Fin 256) (addr : Word) (cancelled : Bool) :
    ∃ t_, execEccWriteBack mem addr cancelled s = .next t_ ∧ t_.Kept q_ d_ := by
  refine ⟨_, rfl, ?_⟩
  with_reducible repeat' first
      | assumption | intro _ | apply State.eccWriteBack_kept | dsimp only

theorem execDdrScrub_kept {q_ : List Instr} {d_ : DevState} {s : State} (h : s.Kept q_ d_) (addr : Word) (ecc : Ecc) :
    ∃ t_, execDdrScrub addr ecc s = .next t_ ∧ t_.Kept q_ d_ := by
  refine ⟨_, rfl, ?_⟩
  with_reducible repeat' first
      | assumption | intro _ | apply State.ddrScrub_kept | dsimp only

theorem execFabricNak_kept {q_ : List Instr} {d_ : DevState} {s : State} (h : s.Kept q_ d_) (link : Fin 256) (resends : Fin 4) (load : FabricLoad) :
    ∃ t_, execFabricNak link resends load s = .next t_ ∧ t_.Kept q_ d_ := by
  refine ⟨_, rfl, ?_⟩
  with_reducible repeat' first
      | assumption | intro _ | apply State.fabricNak_kept | dsimp only

theorem execCdcStallTimeout_kept {q_ : List Instr} {d_ : DevState} {s : State} (h : s.Kept q_ d_) (sender : Fin 16) (receiver : Fin 16) :
    ∃ t_, execCdcStallTimeout sender receiver s = .next t_ ∧ t_.Kept q_ d_ := by
  refine ⟨_, rfl, ?_⟩
  with_reducible repeat' first
      | assumption | intro _ | apply State.stallTimeout_kept | dsimp only

theorem execCrossingRearm_kept {q_ : List Instr} {d_ : DevState} {s : State} (h : s.Kept q_ d_) (sender : Fin 16) (receiver : Fin 16) (lost : Nat) :
    ∃ t_, execCrossingRearm sender receiver lost s = .next t_ ∧ t_.Kept q_ d_ := by
  refine ⟨_, rfl, ?_⟩
  with_reducible repeat' first
      | assumption | intro _ | apply State.crossingRearm_kept | dsimp only

theorem execTempSample_kept {q_ : List Instr} {d_ : DevState} {s : State} (h : s.Kept q_ d_) (t : RegionTemps) :
    ∃ t_, execTempSample t s = .next t_ ∧ t_.Kept q_ d_ := by
  refine ⟨_, rfl, ?_⟩
  with_reducible repeat' first
      | assumption | intro _ | apply kept_ite | apply State.tempSample_kept | dsimp only | split

theorem execDlrArm_kept {q_ : List Instr} {d_ : DevState} {s : State} (h : s.Kept q_ d_) (ag : Agent) (v : Word) :
    ∃ t_, execDlrArm ag v s = .next t_ ∧ t_.Kept q_ d_ := by
  refine ⟨_, rfl, ?_⟩
  with_reducible repeat' first
      | assumption | intro _ | apply State.armWrite_kept | dsimp only

theorem execDlrCancel_kept {q_ : List Instr} {d_ : DevState} {s : State} (h : s.Kept q_ d_) (ag : Agent) (v : Word) :
    ∃ t_, execDlrCancel ag v s = .next t_ ∧ t_.Kept q_ d_ := by
  refine ⟨_, rfl, ?_⟩
  with_reducible repeat' first
      | assumption | intro _ | apply State.cancelWrite_kept | dsimp only

theorem execDlrSetf_kept {q_ : List Instr} {d_ : DevState} {s : State} (h : s.Kept q_ d_) (ag : Agent) (v : Word) :
    ∃ t_, execDlrSetf ag v s = .next t_ ∧ t_.Kept q_ d_ := by
  refine ⟨_, rfl, ?_⟩
  with_reducible repeat' first
      | assumption | intro _ | apply State.setfWrite_kept | dsimp only

theorem execDlrClrf_kept {q_ : List Instr} {d_ : DevState} {s : State} (h : s.Kept q_ d_) (ag : Agent) (v : Word) :
    ∃ t_, execDlrClrf ag v s = .next t_ ∧ t_.Kept q_ d_ := by
  refine ⟨_, rfl, ?_⟩
  with_reducible repeat' first
      | assumption | intro _ | apply State.clrfWrite_kept | dsimp only

theorem execDlrFlowReset_kept {q_ : List Instr} {d_ : DevState} {s : State} (h : s.Kept q_ d_) (ag : Agent) (v : Word) :
    ∃ t_, execDlrFlowReset ag v s = .next t_ ∧ t_.Kept q_ d_ := by
  refine ⟨_, rfl, ?_⟩
  with_reducible repeat' first
      | assumption | intro _ | apply State.swWrite_kept | apply State.flowReset_kept | dsimp only

theorem execDlrCtxWrite_kept {q_ : List Instr} {d_ : DevState} {s : State} (h : s.Kept q_ d_) (ag : Agent) (w : Fin 16) (v : Word) :
    ∃ t_, execDlrCtxWrite ag w v s = .next t_ ∧ t_.Kept q_ d_ := by
  refine ⟨_, rfl, ?_⟩
  with_reducible repeat' first
      | assumption | intro _ | apply State.swWrite_kept | apply State.ctxWrite_kept | dsimp only

theorem execTaskGrant_kept {q_ : List Instr} {d_ : DevState} {s : State} (h : s.Kept q_ d_) (q : Fin 5) :
    ∃ t_, execTaskGrant q s = .next t_ ∧ t_.Kept q_ d_ := by
  refine ⟨_, rfl, ?_⟩
  with_reducible repeat' first
      | assumption | intro _ | apply kept_ite | apply State.taskGrant_kept | dsimp only | split

theorem execStageInComplete_kept {q_ : List Instr} {d_ : DevState} {s : State} (h : s.Kept q_ d_)  :
    ∃ t_, execStageInComplete s = .next t_ ∧ t_.Kept q_ d_ := by
  refine ⟨_, rfl, ?_⟩
  with_reducible repeat' first
      | assumption | intro _ | apply kept_ite | apply State.stageIn_kept | dsimp only | split

theorem execStealDelayExpiry_kept {q_ : List Instr} {d_ : DevState} {s : State} (h : s.Kept q_ d_) (t : Fin 512) :
    ∃ t_, execStealDelayExpiry t s = .next t_ ∧ t_.Kept q_ d_ := by
  refine ⟨_, rfl, ?_⟩
  with_reducible repeat' first
      | assumption | intro _ | apply kept_ite | apply State.stealDelay_kept | dsimp only | split

theorem execDlrCoreTake_kept {q_ : List Instr} {d_ : DevState} {s : State} (h : s.Kept q_ d_) (ag : Agent) (n : Fin 4) :
    ∃ t_, execDlrCoreTake ag n s = .next t_ ∧ t_.Kept q_ d_ := by
  refine ⟨_, rfl, ?_⟩
  with_reducible repeat' first
      | assumption | intro _ | apply kept_ite | apply State.coreTake_kept | dsimp only | split

theorem execCoreTakeTimeout_kept {q_ : List Instr} {d_ : DevState} {s : State} (h : s.Kept q_ d_) (n : Fin 4) :
    ∃ t_, execCoreTakeTimeout n s = .next t_ ∧ t_.Kept q_ d_ := by
  refine ⟨_, rfl, ?_⟩
  with_reducible repeat' first
      | assumption | intro _ | apply kept_ite | apply State.coreTimeout_kept | dsimp only | split

theorem execDlrCoreDone_kept {q_ : List Instr} {d_ : DevState} {s : State} (h : s.Kept q_ d_) (ag : Agent) (n : Fin 4) (v : Word) :
    ∃ t_, execDlrCoreDone ag n v s = .next t_ ∧ t_.Kept q_ d_ := by
  refine ⟨_, rfl, ?_⟩
  with_reducible repeat' first
      | assumption | intro _ | apply State.coreDoneWrite_kept | dsimp only

theorem execDlrCoreYield_kept {q_ : List Instr} {d_ : DevState} {s : State} (h : s.Kept q_ d_) (ag : Agent) (n : Fin 4) (v : Word) :
    ∃ t_, execDlrCoreYield ag n v s = .next t_ ∧ t_.Kept q_ d_ := by
  refine ⟨_, rfl, ?_⟩
  with_reducible repeat' first
      | assumption | intro _ | apply State.coreYieldWrite_kept | dsimp only

theorem execFlowRelease_kept {q_ : List Instr} {d_ : DevState} {s : State} (h : s.Kept q_ d_) (f : Fin 64) :
    ∃ t_, execFlowRelease f s = .next t_ ∧ t_.Kept q_ d_ := by
  refine ⟨_, rfl, ?_⟩
  with_reducible repeat' first
      | assumption | intro _ | apply kept_ite | apply State.flowRelease_kept | apply State.kittyStat_kept | dsimp only
      | split

theorem execEventQueueAccept_kept {q_ : List Instr} {d_ : DevState} {s : State} (h : s.Kept q_ d_)  :
    ∃ t_, execEventQueueAccept s = .next t_ ∧ t_.Kept q_ d_ := by
  refine ⟨_, rfl, ?_⟩
  with_reducible repeat' first
      | assumption | intro _ | apply kept_ite | apply State.queueAccept_kept | dsimp only | split

theorem execPreemptionTrap_kept {q_ : List Instr} {d_ : DevState} {s : State} (h : s.Kept q_ d_) (e : Fin 64) :
    ∃ t_, execPreemptionTrap e s = .next t_ ∧ t_.Kept q_ d_ := by
  refine ⟨_, rfl, ?_⟩
  with_reducible repeat' first
      | assumption | intro _ | apply State.preemptTrap_kept | dsimp only

theorem execEngCtrlEn_kept {q_ : List Instr} {d_ : DevState} {s : State} (h : s.Kept q_ d_) (ag : Agent) (e : Fin 64) (v : Word) :
    ∃ t_, execEngCtrlEn ag e v s = .next t_ ∧ t_.Kept q_ d_ := by
  refine ⟨_, rfl, ?_⟩
  with_reducible repeat' first
      | assumption | intro _ | apply kept_id | apply State.cfgWrite_kept | apply State.engCtrl_kept | dsimp only

theorem execCodeSramWrite_kept {q_ : List Instr} {d_ : DevState} {s : State} (h : s.Kept q_ d_) (loader : Bool) (e : Fin 64) (bundle : Fin 8192) (v : BitVec 64) :
    ∃ t_, execCodeSramWrite loader e bundle v s = .next t_ ∧ t_.Kept q_ d_ := by
  refine ⟨_, rfl, ?_⟩
  with_reducible repeat' first
      | assumption | intro _ | apply kept_ite | apply State.codeWrite_kept | dsimp only | split

theorem execNop_kept {q_ : List Instr} {d_ : DevState} {s : State} (h : s.Kept q_ d_) (e : Fin 64) (slot : Fin 4) (fin : Bool) :
    ∃ t_, execNop e slot fin s = .next t_ ∧ t_.Kept q_ d_ := by
  refine ⟨_, rfl, ?_⟩
  with_reducible repeat' first
      | assumption | intro _ | apply State.engSlot_kept | dsimp only

theorem execMpy_kept {q_ : List Instr} {d_ : DevState} {s : State} (h : s.Kept q_ d_) (e : Fin 64) (fin : Bool) (n : Fin 4) (a : Fin 32) (b : Fin 32) :
    ∃ t_, execMpy e fin n a b s = .next t_ ∧ t_.Kept q_ d_ := by
  refine ⟨_, rfl, ?_⟩
  with_reducible repeat' first
      | assumption | intro _ | apply State.engSlot_kept | dsimp only

theorem execMac_kept {q_ : List Instr} {d_ : DevState} {s : State} (h : s.Kept q_ d_) (e : Fin 64) (fin : Bool) (n : Fin 4) (a : Fin 32) (b : Fin 32) :
    ∃ t_, execMac e fin n a b s = .next t_ ∧ t_.Kept q_ d_ := by
  refine ⟨_, rfl, ?_⟩
  with_reducible repeat' first
      | assumption | intro _ | apply State.engSlot_kept | dsimp only

theorem execMsu_kept {q_ : List Instr} {d_ : DevState} {s : State} (h : s.Kept q_ d_) (e : Fin 64) (fin : Bool) (n : Fin 4) (a : Fin 32) (b : Fin 32) :
    ∃ t_, execMsu e fin n a b s = .next t_ ∧ t_.Kept q_ d_ := by
  refine ⟨_, rfl, ?_⟩
  with_reducible repeat' first
      | assumption | intro _ | apply State.engSlot_kept | dsimp only

theorem execMpyu_kept {q_ : List Instr} {d_ : DevState} {s : State} (h : s.Kept q_ d_) (e : Fin 64) (fin : Bool) (n : Fin 4) (a : Fin 32) (b : Fin 32) :
    ∃ t_, execMpyu e fin n a b s = .next t_ ∧ t_.Kept q_ d_ := by
  refine ⟨_, rfl, ?_⟩
  with_reducible repeat' first
      | assumption | intro _ | apply State.engSlot_kept | dsimp only

theorem execMacu_kept {q_ : List Instr} {d_ : DevState} {s : State} (h : s.Kept q_ d_) (e : Fin 64) (fin : Bool) (n : Fin 4) (a : Fin 32) (b : Fin 32) :
    ∃ t_, execMacu e fin n a b s = .next t_ ∧ t_.Kept q_ d_ := by
  refine ⟨_, rfl, ?_⟩
  with_reducible repeat' first
      | assumption | intro _ | apply State.engSlot_kept | dsimp only

theorem execMach_kept {q_ : List Instr} {d_ : DevState} {s : State} (h : s.Kept q_ d_) (e : Fin 64) (fin : Bool) (n : Fin 4) (a : Fin 32) (b : Fin 32) :
    ∃ t_, execMach e fin n a b s = .next t_ ∧ t_.Kept q_ d_ := by
  refine ⟨_, rfl, ?_⟩
  with_reducible repeat' first
      | assumption | intro _ | apply State.engSlot_kept | dsimp only

theorem execQmpy_kept {q_ : List Instr} {d_ : DevState} {s : State} (h : s.Kept q_ d_) (e : Fin 64) (fin : Bool) (a : Fin 32) (b : Fin 32) :
    ∃ t_, execQmpy e fin a b s = .next t_ ∧ t_.Kept q_ d_ := by
  refine ⟨_, rfl, ?_⟩
  with_reducible repeat' first
      | assumption | intro _ | apply kept_ite | apply State.engSlot_kept | dsimp only | split

theorem execQmac_kept {q_ : List Instr} {d_ : DevState} {s : State} (h : s.Kept q_ d_) (e : Fin 64) (fin : Bool) (a : Fin 32) (b : Fin 32) :
    ∃ t_, execQmac e fin a b s = .next t_ ∧ t_.Kept q_ d_ := by
  refine ⟨_, rfl, ?_⟩
  with_reducible repeat' first
      | assumption | intro _ | apply kept_ite | apply State.engSlot_kept | dsimp only | split

theorem execCmpy_kept {q_ : List Instr} {d_ : DevState} {s : State} (h : s.Kept q_ d_) (e : Fin 64) (fin : Bool) (n : Fin 4) (a : Fin 32) (b : Fin 32) :
    ∃ t_, execCmpy e fin n a b s = .next t_ ∧ t_.Kept q_ d_ := by
  refine ⟨_, rfl, ?_⟩
  with_reducible repeat' first
      | assumption | intro _ | apply kept_ite | apply State.engSlot_kept | dsimp only | split

theorem execCmac_kept {q_ : List Instr} {d_ : DevState} {s : State} (h : s.Kept q_ d_) (e : Fin 64) (fin : Bool) (n : Fin 4) (a : Fin 32) (b : Fin 32) :
    ∃ t_, execCmac e fin n a b s = .next t_ ∧ t_.Kept q_ d_ := by
  refine ⟨_, rfl, ?_⟩
  with_reducible repeat' first
      | assumption | intro _ | apply kept_ite | apply State.engSlot_kept | dsimp only | split

theorem execCmacj_kept {q_ : List Instr} {d_ : DevState} {s : State} (h : s.Kept q_ d_) (e : Fin 64) (fin : Bool) (n : Fin 4) (a : Fin 32) (b : Fin 32) :
    ∃ t_, execCmacj e fin n a b s = .next t_ ∧ t_.Kept q_ d_ := by
  refine ⟨_, rfl, ?_⟩
  with_reducible repeat' first
      | assumption | intro _ | apply kept_ite | apply State.engSlot_kept | dsimp only | split

theorem execAclr_kept {q_ : List Instr} {d_ : DevState} {s : State} (h : s.Kept q_ d_) (e : Fin 64) (fin : Bool) (n : Fin 4) :
    ∃ t_, execAclr e fin n s = .next t_ ∧ t_.Kept q_ d_ := by
  refine ⟨_, rfl, ?_⟩
  with_reducible repeat' first
      | assumption | intro _ | apply State.engSlot_kept | dsimp only

theorem execAadd_kept {q_ : List Instr} {d_ : DevState} {s : State} (h : s.Kept q_ d_) (e : Fin 64) (fin : Bool) (n : Fin 4) (b : Fin 4) :
    ∃ t_, execAadd e fin n b s = .next t_ ∧ t_.Kept q_ d_ := by
  refine ⟨_, rfl, ?_⟩
  with_reducible repeat' first
      | assumption | intro _ | apply State.engSlot_kept | dsimp only

theorem execAsh_kept {q_ : List Instr} {d_ : DevState} {s : State} (h : s.Kept q_ d_) (e : Fin 64) (fin : Bool) (n : Fin 4) (b : BitVec 5) :
    ∃ t_, execAsh e fin n b s = .next t_ ∧ t_.Kept q_ d_ := by
  refine ⟨_, rfl, ?_⟩
  with_reducible repeat' first
      | assumption | intro _ | apply kept_ite | apply State.engSlot_kept | dsimp only | split

theorem execExpa_kept {q_ : List Instr} {d_ : DevState} {s : State} (h : s.Kept q_ d_) (e : Fin 64) (fin : Bool) (n : Fin 4) (a : Fin 32) :
    ∃ t_, execExpa e fin n a s = .next t_ ∧ t_.Kept q_ d_ := by
  refine ⟨_, rfl, ?_⟩
  with_reducible repeat' first
      | assumption | intro _ | apply State.engSlot_kept | dsimp only

theorem execMov_kept {q_ : List Instr} {d_ : DevState} {s : State} (h : s.Kept q_ d_) (e : Fin 64) (second : Bool) (fin : Bool) (d : Fin 32) (r : Fin 32) :
    ∃ t_, execMov e second fin d r s = .next t_ ∧ t_.Kept q_ d_ := by
  refine ⟨_, rfl, ?_⟩
  with_reducible repeat' first
      | assumption | intro _ | apply State.engSlot_kept | dsimp only

theorem execMovp_kept {q_ : List Instr} {d_ : DevState} {s : State} (h : s.Kept q_ d_) (e : Fin 64) (second : Bool) (fin : Bool) (d : Fin 32) (r : Fin 32) :
    ∃ t_, execMovp e second fin d r s = .next t_ ∧ t_.Kept q_ d_ := by
  refine ⟨_, rfl, ?_⟩
  with_reducible repeat' first
      | assumption | intro _ | apply State.engSlot_kept | dsimp only

theorem execLd_kept {q_ : List Instr} {d_ : DevState} {s : State} (h : s.Kept q_ d_) (e : Fin 64) (second : Bool) (fin : Bool) (d : Fin 32) (x : Fin 8) (mode : Fin 4) (ecc : Ecc) :
    ∃ t_, execLd e second fin d x mode ecc s = .next t_ ∧ t_.Kept q_ d_ := by
  refine ⟨_, rfl, ?_⟩
  with_reducible repeat' first
      | assumption | intro _ | apply State.engSlot_kept | dsimp only

theorem execSt_kept {q_ : List Instr} {d_ : DevState} {s : State} (h : s.Kept q_ d_) (e : Fin 64) (second : Bool) (fin : Bool) (d : Fin 32) (x : Fin 8) (mode : Fin 4) (ecc : Ecc) :
    ∃ t_, execSt e second fin d x mode ecc s = .next t_ ∧ t_.Kept q_ d_ := by
  refine ⟨_, rfl, ?_⟩
  with_reducible repeat' first
      | assumption | intro _ | apply State.engSlot_kept | dsimp only

theorem execLdp_kept {q_ : List Instr} {d_ : DevState} {s : State} (h : s.Kept q_ d_) (e : Fin 64) (second : Bool) (fin : Bool) (d : Fin 32) (x : Fin 8) (mode : Fin 4) (ecc : Ecc) :
    ∃ t_, execLdp e second fin d x mode ecc s = .next t_ ∧ t_.Kept q_ d_ := by
  refine ⟨_, rfl, ?_⟩
  with_reducible repeat' first
      | assumption | intro _ | apply State.engSlot_kept | dsimp only

theorem execStp_kept {q_ : List Instr} {d_ : DevState} {s : State} (h : s.Kept q_ d_) (e : Fin 64) (second : Bool) (fin : Bool) (d : Fin 32) (x : Fin 8) (mode : Fin 4) (ecc : Ecc) :
    ∃ t_, execStp e second fin d x mode ecc s = .next t_ ∧ t_.Kept q_ d_ := by
  refine ⟨_, rfl, ?_⟩
  with_reducible repeat' first
      | assumption | intro _ | apply State.engSlot_kept | dsimp only

theorem execMva_kept {q_ : List Instr} {d_ : DevState} {s : State} (h : s.Kept q_ d_) (e : Fin 64) (second : Bool) (fin : Bool) (d : Fin 32) (acc : Fin 4) (form : Fin 8) :
    ∃ t_, execMva e second fin d acc form s = .next t_ ∧ t_.Kept q_ d_ := by
  refine ⟨_, rfl, ?_⟩
  with_reducible repeat' first
      | assumption | intro _ | apply State.engSlot_kept | dsimp only

theorem execMav_kept {q_ : List Instr} {d_ : DevState} {s : State} (h : s.Kept q_ d_) (e : Fin 64) (second : Bool) (fin : Bool) (d : Fin 32) (acc : Fin 4) (form : Fin 8) :
    ∃ t_, execMav e second fin d acc form s = .next t_ ∧ t_.Kept q_ d_ := by
  refine ⟨_, rfl, ?_⟩
  with_reducible repeat' first
      | assumption | intro _ | apply State.engSlot_kept | dsimp only

theorem execAdd_kept {q_ : List Instr} {d_ : DevState} {s : State} (h : s.Kept q_ d_) (e : Fin 64) (second : Bool) (fin : Bool) (d : Fin 32) (r : Fin 32) :
    ∃ t_, execAdd e second fin d r s = .next t_ ∧ t_.Kept q_ d_ := by
  refine ⟨_, rfl, ?_⟩
  with_reducible repeat' first
      | assumption | intro _ | apply State.engSlot_kept | dsimp only

theorem execAdds_kept {q_ : List Instr} {d_ : DevState} {s : State} (h : s.Kept q_ d_) (e : Fin 64) (second : Bool) (fin : Bool) (d : Fin 32) (r : Fin 32) :
    ∃ t_, execAdds e second fin d r s = .next t_ ∧ t_.Kept q_ d_ := by
  refine ⟨_, rfl, ?_⟩
  with_reducible repeat' first
      | assumption | intro _ | apply State.engSlot_kept | dsimp only

theorem execSub_kept {q_ : List Instr} {d_ : DevState} {s : State} (h : s.Kept q_ d_) (e : Fin 64) (second : Bool) (fin : Bool) (d : Fin 32) (r : Fin 32) :
    ∃ t_, execSub e second fin d r s = .next t_ ∧ t_.Kept q_ d_ := by
  refine ⟨_, rfl, ?_⟩
  with_reducible repeat' first
      | assumption | intro _ | apply State.engSlot_kept | dsimp only

theorem execSubs_kept {q_ : List Instr} {d_ : DevState} {s : State} (h : s.Kept q_ d_) (e : Fin 64) (second : Bool) (fin : Bool) (d : Fin 32) (r : Fin 32) :
    ∃ t_, execSubs e second fin d r s = .next t_ ∧ t_.Kept q_ d_ := by
  refine ⟨_, rfl, ?_⟩
  with_reducible repeat' first
      | assumption | intro _ | apply State.engSlot_kept | dsimp only

theorem execAddp_kept {q_ : List Instr} {d_ : DevState} {s : State} (h : s.Kept q_ d_) (e : Fin 64) (second : Bool) (fin : Bool) (d : Fin 32) (r : Fin 32) :
    ∃ t_, execAddp e second fin d r s = .next t_ ∧ t_.Kept q_ d_ := by
  refine ⟨_, rfl, ?_⟩
  with_reducible repeat' first
      | assumption | intro _ | apply State.engSlot_kept | dsimp only

theorem execSubp_kept {q_ : List Instr} {d_ : DevState} {s : State} (h : s.Kept q_ d_) (e : Fin 64) (second : Bool) (fin : Bool) (d : Fin 32) (r : Fin 32) :
    ∃ t_, execSubp e second fin d r s = .next t_ ∧ t_.Kept q_ d_ := by
  refine ⟨_, rfl, ?_⟩
  with_reducible repeat' first
      | assumption | intro _ | apply State.engSlot_kept | dsimp only

theorem execAndOp_kept {q_ : List Instr} {d_ : DevState} {s : State} (h : s.Kept q_ d_) (e : Fin 64) (second : Bool) (fin : Bool) (d : Fin 32) (r : Fin 32) :
    ∃ t_, execAndOp e second fin d r s = .next t_ ∧ t_.Kept q_ d_ := by
  refine ⟨_, rfl, ?_⟩
  with_reducible repeat' first
      | assumption | intro _ | apply State.engSlot_kept | dsimp only

theorem execOrOp_kept {q_ : List Instr} {d_ : DevState} {s : State} (h : s.Kept q_ d_) (e : Fin 64) (second : Bool) (fin : Bool) (d : Fin 32) (r : Fin 32) :
    ∃ t_, execOrOp e second fin d r s = .next t_ ∧ t_.Kept q_ d_ := by
  refine ⟨_, rfl, ?_⟩
  with_reducible repeat' first
      | assumption | intro _ | apply State.engSlot_kept | dsimp only

theorem execXorOp_kept {q_ : List Instr} {d_ : DevState} {s : State} (h : s.Kept q_ d_) (e : Fin 64) (second : Bool) (fin : Bool) (d : Fin 32) (r : Fin 32) :
    ∃ t_, execXorOp e second fin d r s = .next t_ ∧ t_.Kept q_ d_ := by
  refine ⟨_, rfl, ?_⟩
  with_reducible repeat' first
      | assumption | intro _ | apply State.engSlot_kept | dsimp only

theorem execSra_kept {q_ : List Instr} {d_ : DevState} {s : State} (h : s.Kept q_ d_) (e : Fin 64) (second : Bool) (fin : Bool) (d : Fin 32) (imm : Fin 32) :
    ∃ t_, execSra e second fin d imm s = .next t_ ∧ t_.Kept q_ d_ := by
  refine ⟨_, rfl, ?_⟩
  with_reducible repeat' first
      | assumption | intro _ | apply State.engSlot_kept | dsimp only

theorem execSrar_kept {q_ : List Instr} {d_ : DevState} {s : State} (h : s.Kept q_ d_) (e : Fin 64) (second : Bool) (fin : Bool) (d : Fin 32) (imm : Fin 32) :
    ∃ t_, execSrar e second fin d imm s = .next t_ ∧ t_.Kept q_ d_ := by
  refine ⟨_, rfl, ?_⟩
  with_reducible repeat' first
      | assumption | intro _ | apply State.engSlot_kept | dsimp only

theorem execSll_kept {q_ : List Instr} {d_ : DevState} {s : State} (h : s.Kept q_ d_) (e : Fin 64) (second : Bool) (fin : Bool) (d : Fin 32) (imm : Fin 32) :
    ∃ t_, execSll e second fin d imm s = .next t_ ∧ t_.Kept q_ d_ := by
  refine ⟨_, rfl, ?_⟩
  with_reducible repeat' first
      | assumption | intro _ | apply State.engSlot_kept | dsimp only

theorem execSrl_kept {q_ : List Instr} {d_ : DevState} {s : State} (h : s.Kept q_ d_) (e : Fin 64) (second : Bool) (fin : Bool) (d : Fin 32) (imm : Fin 32) :
    ∃ t_, execSrl e second fin d imm s = .next t_ ∧ t_.Kept q_ d_ := by
  refine ⟨_, rfl, ?_⟩
  with_reducible repeat' first
      | assumption | intro _ | apply State.engSlot_kept | dsimp only

theorem execCmp_kept {q_ : List Instr} {d_ : DevState} {s : State} (h : s.Kept q_ d_) (e : Fin 64) (second : Bool) (fin : Bool) (d : Fin 32) (r : Fin 32) :
    ∃ t_, execCmp e second fin d r s = .next t_ ∧ t_.Kept q_ d_ := by
  refine ⟨_, rfl, ?_⟩
  with_reducible repeat' first
      | assumption | intro _ | apply State.engSlot_kept | dsimp only

theorem execExp_kept {q_ : List Instr} {d_ : DevState} {s : State} (h : s.Kept q_ d_) (e : Fin 64) (second : Bool) (fin : Bool) (d : Fin 32) (r : Fin 32) :
    ∃ t_, execExp e second fin d r s = .next t_ ∧ t_.Kept q_ d_ := by
  refine ⟨_, rfl, ?_⟩
  with_reducible repeat' first
      | assumption | intro _ | apply State.engSlot_kept | dsimp only

theorem execNorm_kept {q_ : List Instr} {d_ : DevState} {s : State} (h : s.Kept q_ d_) (e : Fin 64) (second : Bool) (fin : Bool) (d : Fin 32) (r : Fin 32) :
    ∃ t_, execNorm e second fin d r s = .next t_ ∧ t_.Kept q_ d_ := by
  refine ⟨_, rfl, ?_⟩
  with_reducible repeat' first
      | assumption | intro _ | apply State.engSlot_kept | dsimp only

theorem execMovx_kept {q_ : List Instr} {d_ : DevState} {s : State} (h : s.Kept q_ d_) (e : Fin 64) (second : Bool) (fin : Bool) (c : Fin 32) (r : Fin 32) :
    ∃ t_, execMovx e second fin c r s = .next t_ ∧ t_.Kept q_ d_ := by
  refine ⟨_, rfl, ?_⟩
  with_reducible repeat' first
      | assumption | intro _ | apply State.engSlot_kept | dsimp only

theorem execMovd_kept {q_ : List Instr} {d_ : DevState} {s : State} (h : s.Kept q_ d_) (e : Fin 64) (second : Bool) (fin : Bool) (d : Fin 32) (c : Fin 32) :
    ∃ t_, execMovd e second fin d c s = .next t_ ∧ t_.Kept q_ d_ := by
  refine ⟨_, rfl, ?_⟩
  with_reducible repeat' first
      | assumption | intro _ | apply State.engSlot_kept | dsimp only

theorem execMinOp_kept {q_ : List Instr} {d_ : DevState} {s : State} (h : s.Kept q_ d_) (e : Fin 64) (second : Bool) (fin : Bool) (d : Fin 32) (r : Fin 32) :
    ∃ t_, execMinOp e second fin d r s = .next t_ ∧ t_.Kept q_ d_ := by
  refine ⟨_, rfl, ?_⟩
  with_reducible repeat' first
      | assumption | intro _ | apply kept_ite | apply State.engSlot_kept | dsimp only | split

theorem execMaxOp_kept {q_ : List Instr} {d_ : DevState} {s : State} (h : s.Kept q_ d_) (e : Fin 64) (second : Bool) (fin : Bool) (d : Fin 32) (r : Fin 32) :
    ∃ t_, execMaxOp e second fin d r s = .next t_ ∧ t_.Kept q_ d_ := by
  refine ⟨_, rfl, ?_⟩
  with_reducible repeat' first
      | assumption | intro _ | apply kept_ite | apply State.engSlot_kept | dsimp only | split

theorem execAbsOp_kept {q_ : List Instr} {d_ : DevState} {s : State} (h : s.Kept q_ d_) (e : Fin 64) (second : Bool) (fin : Bool) (d : Fin 32) (r : Fin 32) :
    ∃ t_, execAbsOp e second fin d r s = .next t_ ∧ t_.Kept q_ d_ := by
  refine ⟨_, rfl, ?_⟩
  with_reducible repeat' first
      | assumption | intro _ | apply State.engSlot_kept | dsimp only

theorem execAddi_kept {q_ : List Instr} {d_ : DevState} {s : State} (h : s.Kept q_ d_) (e : Fin 64) (second : Bool) (fin : Bool) (d : Fin 32) (imm : BitVec 5) :
    ∃ t_, execAddi e second fin d imm s = .next t_ ∧ t_.Kept q_ d_ := by
  refine ⟨_, rfl, ?_⟩
  with_reducible repeat' first
      | assumption | intro _ | apply State.engSlot_kept | dsimp only

theorem execBr_kept {q_ : List Instr} {d_ : DevState} {s : State} (h : s.Kept q_ d_) (e : Fin 64) (fin : Bool) (off : BitVec 10) :
    ∃ t_, execBr e fin off s = .next t_ ∧ t_.Kept q_ d_ := by
  refine ⟨_, rfl, ?_⟩
  with_reducible repeat' first
      | assumption | intro _ | apply State.engSlot_kept | dsimp only

theorem execBcc_kept {q_ : List Instr} {d_ : DevState} {s : State} (h : s.Kept q_ d_) (e : Fin 64) (fin : Bool) (cond : Fin 8) (off : BitVec 7) :
    ∃ t_, execBcc e fin cond off s = .next t_ ∧ t_.Kept q_ d_ := by
  refine ⟨_, rfl, ?_⟩
  with_reducible repeat' first
      | assumption | intro _ | apply kept_ite | apply State.engSlot_kept | dsimp only | split

theorem execTake_kept {q_ : List Instr} {d_ : DevState} {s : State} (h : s.Kept q_ d_) (e : Fin 64) (fin : Bool) :
    ∃ t_, execTake e fin s = .next t_ ∧ t_.Kept q_ d_ := by
  refine ⟨_, rfl, ?_⟩
  with_reducible repeat' first
      | assumption | intro _ | apply State.engSlot_kept | dsimp only

theorem execDoneOp_kept {q_ : List Instr} {d_ : DevState} {s : State} (h : s.Kept q_ d_) (e : Fin 64) (fin : Bool) :
    ∃ t_, execDoneOp e fin s = .next t_ ∧ t_.Kept q_ d_ := by
  refine ⟨_, rfl, ?_⟩
  with_reducible repeat' first
      | assumption | intro _ | apply State.engSlot_kept | dsimp only

theorem execSetf_kept {q_ : List Instr} {d_ : DevState} {s : State} (h : s.Kept q_ d_) (e : Fin 64) (fin : Bool) (r : Fin 32) :
    ∃ t_, execSetf e fin r s = .next t_ ∧ t_.Kept q_ d_ := by
  refine ⟨_, rfl, ?_⟩
  with_reducible repeat' first
      | assumption | intro _ | apply State.engSlot_kept | dsimp only

theorem execPen_kept {q_ : List Instr} {d_ : DevState} {s : State} (h : s.Kept q_ d_) (e : Fin 64) (fin : Bool) :
    ∃ t_, execPen e fin s = .next t_ ∧ t_.Kept q_ d_ := by
  refine ⟨_, rfl, ?_⟩
  with_reducible repeat' first
      | assumption | intro _ | apply State.engSlot_kept | dsimp only

theorem execPdis_kept {q_ : List Instr} {d_ : DevState} {s : State} (h : s.Kept q_ d_) (e : Fin 64) (fin : Bool) :
    ∃ t_, execPdis e fin s = .next t_ ∧ t_.Kept q_ d_ := by
  refine ⟨_, rfl, ?_⟩
  with_reducible repeat' first
      | assumption | intro _ | apply State.engSlot_kept | dsimp only

theorem execRte_kept {q_ : List Instr} {d_ : DevState} {s : State} (h : s.Kept q_ d_) (e : Fin 64) (fin : Bool) :
    ∃ t_, execRte e fin s = .next t_ ∧ t_.Kept q_ d_ := by
  refine ⟨_, rfl, ?_⟩
  with_reducible repeat' first
      | assumption | intro _ | apply State.engSlot_kept | dsimp only

theorem execJr_kept {q_ : List Instr} {d_ : DevState} {s : State} (h : s.Kept q_ d_) (e : Fin 64) (fin : Bool) (r : Fin 32) :
    ∃ t_, execJr e fin r s = .next t_ ∧ t_.Kept q_ d_ := by
  refine ⟨_, rfl, ?_⟩
  with_reducible repeat' first
      | assumption | intro _ | apply State.engSlot_kept | dsimp only

theorem execLoopr_kept {q_ : List Instr} {d_ : DevState} {s : State} (h : s.Kept q_ d_) (e : Fin 64) (fin : Bool) (l : Fin 2) (r : Fin 32) (last : Fin 16) :
    ∃ t_, execLoopr e fin l r last s = .next t_ ∧ t_.Kept q_ d_ := by
  refine ⟨_, rfl, ?_⟩
  with_reducible repeat' first
      | assumption | intro _ | apply State.engSlot_kept | dsimp only

theorem execRdcyc_kept {q_ : List Instr} {d_ : DevState} {s : State} (h : s.Kept q_ d_) (e : Fin 64) (fin : Bool) (d : Fin 32) :
    ∃ t_, execRdcyc e fin d s = .next t_ ∧ t_.Kept q_ d_ := by
  refine ⟨_, rfl, ?_⟩
  with_reducible repeat' first
      | assumption | intro _ | apply State.takeFree_kept | apply State.engSlot_kept | dsimp only

theorem execRdeng_kept {q_ : List Instr} {d_ : DevState} {s : State} (h : s.Kept q_ d_) (e : Fin 64) (fin : Bool) (d : Fin 32) :
    ∃ t_, execRdeng e fin d s = .next t_ ∧ t_.Kept q_ d_ := by
  refine ⟨_, rfl, ?_⟩
  with_reducible repeat' first
      | assumption | intro _ | apply State.engSlot_kept | dsimp only

theorem execClrs_kept {q_ : List Instr} {d_ : DevState} {s : State} (h : s.Kept q_ d_) (e : Fin 64) (fin : Bool) :
    ∃ t_, execClrs e fin s = .next t_ ∧ t_.Kept q_ d_ := by
  refine ⟨_, rfl, ?_⟩
  with_reducible repeat' first
      | assumption | intro _ | apply State.engSlot_kept | dsimp only

theorem execRet_kept {q_ : List Instr} {d_ : DevState} {s : State} (h : s.Kept q_ d_) (e : Fin 64) (fin : Bool) :
    ∃ t_, execRet e fin s = .next t_ ∧ t_.Kept q_ d_ := by
  refine ⟨_, rfl, ?_⟩
  with_reducible repeat' first
      | assumption | intro _ | apply State.engSlot_kept | dsimp only

theorem execYield_kept {q_ : List Instr} {d_ : DevState} {s : State} (h : s.Kept q_ d_) (e : Fin 64) (fin : Bool) :
    ∃ t_, execYield e fin s = .next t_ ∧ t_.Kept q_ d_ := by
  refine ⟨_, rfl, ?_⟩
  with_reducible repeat' first
      | assumption | intro _ | apply State.engSlot_kept | dsimp only

theorem execLbr_kept {q_ : List Instr} {d_ : DevState} {s : State} (h : s.Kept q_ d_) (e : Fin 64) (fin : Bool) (off : BitVec 24) :
    ∃ t_, execLbr e fin off s = .next t_ ∧ t_.Kept q_ d_ := by
  refine ⟨_, rfl, ?_⟩
  with_reducible repeat' first
      | assumption | intro _ | apply State.engSlot_kept | dsimp only

theorem execLcall_kept {q_ : List Instr} {d_ : DevState} {s : State} (h : s.Kept q_ d_) (e : Fin 64) (fin : Bool) (off : BitVec 24) :
    ∃ t_, execLcall e fin off s = .next t_ ∧ t_.Kept q_ d_ := by
  refine ⟨_, rfl, ?_⟩
  with_reducible repeat' first
      | assumption | intro _ | apply State.engSlot_kept | dsimp only

theorem execLoopImm_kept {q_ : List Instr} {d_ : DevState} {s : State} (h : s.Kept q_ d_) (e : Fin 64) (fin : Bool) (l : Fin 2) (count : BitVec 11) (last : BitVec 12) :
    ∃ t_, execLoopImm e fin l count last s = .next t_ ∧ t_.Kept q_ d_ := by
  refine ⟨_, rfl, ?_⟩
  with_reducible repeat' first
      | assumption | intro _ | apply kept_ite | apply State.engSlot_kept | dsimp only | split

theorem execMvs_kept {q_ : List Instr} {d_ : DevState} {s : State} (h : s.Kept q_ d_) (e : Fin 64) (fin : Bool) (c : Fin 32) (r : Fin 32) :
    ∃ t_, execMvs e fin c r s = .next t_ ∧ t_.Kept q_ d_ := by
  refine ⟨_, rfl, ?_⟩
  with_reducible repeat' first
      | assumption | intro _ | apply State.engSlot_kept | dsimp only

theorem execMsv_kept {q_ : List Instr} {d_ : DevState} {s : State} (h : s.Kept q_ d_) (e : Fin 64) (fin : Bool) (d : Fin 32) (c : Fin 32) :
    ∃ t_, execMsv e fin d c s = .next t_ ∧ t_.Kept q_ d_ := by
  refine ⟨_, rfl, ?_⟩
  with_reducible repeat' first
      | assumption | intro _ | apply State.engSlot_kept | dsimp only

theorem execShi_kept {q_ : List Instr} {d_ : DevState} {s : State} (h : s.Kept q_ d_) (e : Fin 64) (fin : Bool) (n : Fin 4) (imm : BitVec 7) :
    ∃ t_, execShi e fin n imm s = .next t_ ∧ t_.Kept q_ d_ := by
  refine ⟨_, rfl, ?_⟩
  with_reducible repeat' first
      | assumption | intro _ | apply State.engSlot_kept | dsimp only

theorem execMovi_kept {q_ : List Instr} {d_ : DevState} {s : State} (h : s.Kept q_ d_) (e : Fin 64) (fin : Bool) (d : Fin 32) (imm : Word) :
    ∃ t_, execMovi e fin d imm s = .next t_ ∧ t_.Kept q_ d_ := by
  refine ⟨_, rfl, ?_⟩
  with_reducible repeat' first
      | assumption | intro _ | apply State.engSlot_kept | dsimp only

theorem execMovix_kept {q_ : List Instr} {d_ : DevState} {s : State} (h : s.Kept q_ d_) (e : Fin 64) (fin : Bool) (c : Fin 32) (imm : Word) :
    ∃ t_, execMovix e fin c imm s = .next t_ ∧ t_.Kept q_ d_ := by
  refine ⟨_, rfl, ?_⟩
  with_reducible repeat' first
      | assumption | intro _ | apply State.engSlot_kept | dsimp only

theorem execMoveAbs_kept {q_ : List Instr} {d_ : DevState} {s : State} (h : s.Kept q_ d_) (g : Fin 16) (seq : BitVec 16) (mask : BitVec 16) (valid : BitVec 6) (fs : List MemberFields) :
    ∃ t_, execMoveAbs g seq mask valid fs s = .next t_ ∧ t_.Kept q_ d_ := by
  refine ⟨_, rfl, ?_⟩
  with_reducible repeat' first
      | assumption | intro _ | apply State.command_kept | dsimp only

theorem execMoveRel_kept {q_ : List Instr} {d_ : DevState} {s : State} (h : s.Kept q_ d_) (g : Fin 16) (seq : BitVec 16) (mask : BitVec 16) (valid : BitVec 6) (fs : List MemberFields) :
    ∃ t_, execMoveRel g seq mask valid fs s = .next t_ ∧ t_.Kept q_ d_ := by
  refine ⟨_, rfl, ?_⟩
  with_reducible repeat' first
      | assumption | intro _ | apply State.command_kept | dsimp only

theorem execJog_kept {q_ : List Instr} {d_ : DevState} {s : State} (h : s.Kept q_ d_) (g : Fin 16) (seq : BitVec 16) (mask : BitVec 16) (valid : BitVec 6) (fs : List MemberFields) :
    ∃ t_, execJog g seq mask valid fs s = .next t_ ∧ t_.Kept q_ d_ := by
  refine ⟨_, rfl, ?_⟩
  with_reducible repeat' first
      | assumption | intro _ | apply State.command_kept | dsimp only

theorem execSetLim_kept {q_ : List Instr} {d_ : DevState} {s : State} (h : s.Kept q_ d_) (g : Fin 16) (seq : BitVec 16) (mask : BitVec 16) (valid : BitVec 6) (fs : List MemberFields) :
    ∃ t_, execSetLim g seq mask valid fs s = .next t_ ∧ t_.Kept q_ d_ := by
  refine ⟨_, rfl, ?_⟩
  with_reducible repeat' first
      | assumption | intro _ | apply State.command_kept | dsimp only

theorem execStop_kept {q_ : List Instr} {d_ : DevState} {s : State} (h : s.Kept q_ d_) (g : Fin 16) (seq : BitVec 16) (mask : BitVec 16) (valid : BitVec 6) (fs : List MemberFields) :
    ∃ t_, execStop g seq mask valid fs s = .next t_ ∧ t_.Kept q_ d_ := by
  refine ⟨_, rfl, ?_⟩
  with_reducible repeat' first
      | assumption | intro _ | apply State.command_kept | dsimp only

theorem execResume_kept {q_ : List Instr} {d_ : DevState} {s : State} (h : s.Kept q_ d_) (g : Fin 16) (seq : BitVec 16) (mask : BitVec 16) (valid : BitVec 6) (fs : List MemberFields) :
    ∃ t_, execResume g seq mask valid fs s = .next t_ ∧ t_.Kept q_ d_ := by
  refine ⟨_, rfl, ?_⟩
  with_reducible repeat' first
      | assumption | intro _ | apply State.command_kept | dsimp only

theorem execAbort_kept {q_ : List Instr} {d_ : DevState} {s : State} (h : s.Kept q_ d_) (g : Fin 16) (seq : BitVec 16) (mask : BitVec 16) (valid : BitVec 6) (fs : List MemberFields) :
    ∃ t_, execAbort g seq mask valid fs s = .next t_ ∧ t_.Kept q_ d_ := by
  refine ⟨_, rfl, ?_⟩
  with_reducible repeat' first
      | assumption | intro _ | apply State.command_kept | dsimp only

theorem execGearIn_kept {q_ : List Instr} {d_ : DevState} {s : State} (h : s.Kept q_ d_) (g : Fin 16) (seq : BitVec 16) (mask : BitVec 16) (valid : BitVec 6) (fs : List MemberFields) :
    ∃ t_, execGearIn g seq mask valid fs s = .next t_ ∧ t_.Kept q_ d_ := by
  refine ⟨_, rfl, ?_⟩
  with_reducible repeat' first
      | assumption | intro _ | apply State.command_kept | dsimp only

theorem execCamIn_kept {q_ : List Instr} {d_ : DevState} {s : State} (h : s.Kept q_ d_) (g : Fin 16) (seq : BitVec 16) (mask : BitVec 16) (valid : BitVec 6) (fs : List MemberFields) :
    ∃ t_, execCamIn g seq mask valid fs s = .next t_ ∧ t_.Kept q_ d_ := by
  refine ⟨_, rfl, ?_⟩
  with_reducible repeat' first
      | assumption | intro _ | apply State.command_kept | dsimp only

theorem execSyncOut_kept {q_ : List Instr} {d_ : DevState} {s : State} (h : s.Kept q_ d_) (g : Fin 16) (seq : BitVec 16) (mask : BitVec 16) (valid : BitVec 6) (fs : List MemberFields) :
    ∃ t_, execSyncOut g seq mask valid fs s = .next t_ ∧ t_.Kept q_ d_ := by
  refine ⟨_, rfl, ?_⟩
  with_reducible repeat' first
      | assumption | intro _ | apply State.command_kept | dsimp only

theorem execHome_kept {q_ : List Instr} {d_ : DevState} {s : State} (h : s.Kept q_ d_) (g : Fin 16) (seq : BitVec 16) (mask : BitVec 16) (valid : BitVec 6) (fs : List MemberFields) :
    ∃ t_, execHome g seq mask valid fs s = .next t_ ∧ t_.Kept q_ d_ := by
  refine ⟨_, rfl, ?_⟩
  with_reducible repeat' first
      | assumption | intro _ | apply State.command_kept | dsimp only

theorem execSetPos_kept {q_ : List Instr} {d_ : DevState} {s : State} (h : s.Kept q_ d_) (g : Fin 16) (seq : BitVec 16) (mask : BitVec 16) (valid : BitVec 6) (fs : List MemberFields) :
    ∃ t_, execSetPos g seq mask valid fs s = .next t_ ∧ t_.Kept q_ d_ := by
  refine ⟨_, rfl, ?_⟩
  with_reducible repeat' first
      | assumption | intro _ | apply State.command_kept | dsimp only

theorem execFollow_kept {q_ : List Instr} {d_ : DevState} {s : State} (h : s.Kept q_ d_) (g : Fin 16) (seq : BitVec 16) (mask : BitVec 16) (valid : BitVec 6) (fs : List MemberFields) :
    ∃ t_, execFollow g seq mask valid fs s = .next t_ ∧ t_.Kept q_ d_ := by
  refine ⟨_, rfl, ?_⟩
  with_reducible repeat' first
      | assumption | intro _ | apply State.command_kept | dsimp only

theorem execMailboxCommit_kept {q_ : List Instr} {d_ : DevState} {s : State} (h : s.Kept q_ d_) (ag : Agent) (g : Fin 16) (seq : BitVec 16) :
    ∃ t_, execMailboxCommit ag g seq s = .next t_ ∧ t_.Kept q_ d_ := by
  refine ⟨_, rfl, ?_⟩
  with_reducible repeat' first
      | assumption | intro _ | apply kept_ite | apply State.mailboxCommit_kept | dsimp only | split

theorem execMasterStale_kept {q_ : List Instr} {d_ : DevState} {s : State} (h : s.Kept q_ d_) (g : Fin 16) :
    ∃ t_, execMasterStale g s = .next t_ ∧ t_.Kept q_ d_ := by
  refine ⟨_, rfl, ?_⟩
  with_reducible repeat' first
      | assumption | intro _ | apply State.masterStale_kept | dsimp only

theorem execHomeDebounceEnd_kept {q_ : List Instr} {d_ : DevState} {s : State} (h : s.Kept q_ d_) (a : Fin 144) (inp : HomeInput) (edges : Nat) (before : Bool) (level : Bool) (pos : Option Int) (time : Nat) :
    ∃ t_, execHomeDebounceEnd a inp edges before level pos time s = .next t_ ∧ t_.Kept q_ d_ := by
  refine ⟨_, rfl, ?_⟩
  with_reducible repeat' first
      | assumption | intro _ | apply kept_ite | apply State.debounceEnd_kept | dsimp only | split

theorem execCmpArm_kept {q_ : List Instr} {d_ : DevState} {s : State} (h : s.Kept q_ d_) (ag : Agent) (a : Fin 144) (c : Fin 4) (v : Word) :
    ∃ t_, execCmpArm ag a c v s = .next t_ ∧ t_.Kept q_ d_ := by
  refine ⟨_, rfl, ?_⟩
  with_reducible repeat' first
      | assumption | intro _ | apply State.swWrite_kept | apply State.cmpArm_kept | dsimp only

theorem execCmpDisarm_kept {q_ : List Instr} {d_ : DevState} {s : State} (h : s.Kept q_ d_) (ag : Agent) (a : Fin 144) (c : Fin 4) (v : Word) :
    ∃ t_, execCmpDisarm ag a c v s = .next t_ ∧ t_.Kept q_ d_ := by
  refine ⟨_, rfl, ?_⟩
  with_reducible repeat' first
      | assumption | intro _ | apply State.swWrite_kept | apply State.cmpDisarm_kept | dsimp only

theorem execSolverSecondFailure_kept {q_ : List Instr} {d_ : DevState} {s : State} (h : s.Kept q_ d_)  :
    ∃ t_, execSolverSecondFailure s = .next t_ ∧ t_.Kept q_ d_ := by
  refine ⟨_, rfl, ?_⟩
  with_reducible repeat' first
      | assumption | intro _ | apply State.solverSecondFailure_kept | dsimp only

theorem execLoopOpen_kept {q_ : List Instr} {d_ : DevState} {s : State} (h : s.Kept q_ d_) (ag : Agent) (a : Fin 144) (op : BitVec 4) (cl : BitVec 4) :
    ∃ t_, execLoopOpen ag a op cl s = .next t_ ∧ t_.Kept q_ d_ := by
  refine ⟨_, rfl, ?_⟩
  with_reducible repeat' first
      | assumption | intro _ | apply State.swWrite_kept | apply State.loopCtrl_kept | dsimp only

theorem execLoopClose_kept {q_ : List Instr} {d_ : DevState} {s : State} (h : s.Kept q_ d_) (ag : Agent) (a : Fin 144) (op : BitVec 4) (cl : BitVec 4) :
    ∃ t_, execLoopClose ag a op cl s = .next t_ ∧ t_.Kept q_ d_ := by
  refine ⟨_, rfl, ?_⟩
  with_reducible repeat' first
      | assumption | intro _ | apply State.swWrite_kept | apply State.loopCtrl_kept | dsimp only

theorem execCoefWrite_kept {q_ : List Instr} {d_ : DevState} {s : State} (h : s.Kept q_ d_) (ag : Agent) (a : Fin 144) (j : Fin 5) (w : Fin 10) (v : Word) :
    ∃ t_, execCoefWrite ag a j w v s = .next t_ ∧ t_.Kept q_ d_ := by
  refine ⟨_, rfl, ?_⟩
  with_reducible repeat' first
      | assumption | intro _ | apply State.swWrite_kept | apply State.coefWrite_kept | dsimp only

theorem execFollowingError_kept {q_ : List Instr} {d_ : DevState} {s : State} (h : s.Kept q_ d_) (a : Fin 144) :
    ∃ t_, execFollowingError a s = .next t_ ∧ t_.Kept q_ d_ := by
  refine ⟨_, rfl, ?_⟩
  with_reducible repeat' first
      | assumption | intro _ | apply State.followingErrorCmd_kept | dsimp only

theorem execJointMissStop_kept {q_ : List Instr} {d_ : DevState} {s : State} (h : s.Kept q_ d_) (g : Fin 16) :
    ∃ t_, execJointMissStop g s = .next t_ ∧ t_.Kept q_ d_ := by
  refine ⟨_, rfl, ?_⟩
  with_reducible repeat' first
      | assumption | intro _ | apply State.jointMissStop_kept | dsimp only

theorem execSourceMissStop_kept {q_ : List Instr} {d_ : DevState} {s : State} (h : s.Kept q_ d_) (h : Fin 8) :
    ∃ t_, execSourceMissStop h s = .next t_ ∧ t_.Kept q_ d_ := by
  refine ⟨_, rfl, ?_⟩
  with_reducible repeat' first
      | assumption | intro _ | apply State.sourceMissStop_kept | dsimp only

theorem execStopDemandClear_kept {q_ : List Instr} {d_ : DevState} {s : State} (h : s.Kept q_ d_) (g : Fin 16) :
    ∃ t_, execStopDemandClear g s = .next t_ ∧ t_.Kept q_ d_ := by
  refine ⟨_, rfl, ?_⟩
  with_reducible repeat' first
      | assumption | intro _ | apply State.stopDemandClear_kept | dsimp only

theorem execSafAck_kept {q_ : List Instr} {d_ : DevState} {s : State} (h : s.Kept q_ d_) (ag : Agent) (m : BitVec 16) :
    ∃ t_, execSafAck ag m s = .next t_ ∧ t_.Kept q_ d_ := by
  refine ⟨_, rfl, ?_⟩
  with_reducible repeat' first
      | assumption | intro _ | apply State.swWrite_kept | apply State.safAck_kept | dsimp only

theorem execSafRel_kept {q_ : List Instr} {d_ : DevState} {s : State} (h : s.Kept q_ d_) (ag : Agent) (m : BitVec 16) :
    ∃ t_, execSafRel ag m s = .next t_ ∧ t_.Kept q_ d_ := by
  refine ⟨_, rfl, ?_⟩
  with_reducible repeat' first
      | assumption | intro _ | apply State.swWrite_kept | apply State.safRel_kept | dsimp only

theorem execStandstillReached_kept {q_ : List Instr} {d_ : DevState} {s : State} (h : s.Kept q_ d_) (g : Fin 16) :
    ∃ t_, execStandstillReached g s = .next t_ ∧ t_.Kept q_ d_ := by
  refine ⟨_, rfl, ?_⟩
  with_reducible repeat' first
      | assumption | intro _ | apply State.standstillReached_kept | dsimp only

theorem execSs1TmaxExpiry_kept {q_ : List Instr} {d_ : DevState} {s : State} (h : s.Kept q_ d_) (g : Fin 16) :
    ∃ t_, execSs1TmaxExpiry g s = .next t_ ∧ t_.Kept q_ d_ := by
  refine ⟨_, rfl, ?_⟩
  with_reducible repeat' first
      | assumption | intro _ | apply State.tMaxExpiry_kept | dsimp only

theorem execInputDemandEnter_kept {q_ : List Instr} {d_ : DevState} {s : State} (h : s.Kept q_ d_) (f : Fin 16) :
    ∃ t_, execInputDemandEnter f s = .next t_ ∧ t_.Kept q_ d_ := by
  refine ⟨_, rfl, ?_⟩
  with_reducible repeat' first
      | assumption | intro _ | apply State.inputEnter_kept | apply State.refreshSaf_kept | dsimp only

theorem execInputDemandLeave_kept {q_ : List Instr} {d_ : DevState} {s : State} (h : s.Kept q_ d_) (f : Fin 16) :
    ∃ t_, execInputDemandLeave f s = .next t_ ∧ t_.Kept q_ d_ := by
  refine ⟨_, rfl, ?_⟩
  with_reducible repeat' first
      | assumption | intro _ | apply State.inputLeave_kept | apply State.refreshSaf_kept | dsimp only

theorem execDiscrepancy_kept {q_ : List Instr} {d_ : DevState} {s : State} (h : s.Kept q_ d_) (f : Fin 16) :
    ∃ t_, execDiscrepancy f s = .next t_ ∧ t_.Kept q_ d_ := by
  refine ⟨_, rfl, ?_⟩
  with_reducible repeat' first
      | assumption | intro _ | apply State.discrepancy_kept | apply State.refreshSaf_kept | dsimp only

theorem execDegradeFaultClear_kept {q_ : List Instr} {d_ : DevState} {s : State} (h : s.Kept q_ d_) (c : Fin 5) :
    ∃ t_, execDegradeFaultClear c s = .next t_ ∧ t_.Kept q_ d_ := by
  refine ⟨_, rfl, ?_⟩
  with_reducible repeat' first
      | assumption | intro _ | apply State.degradeFaultClear_kept | dsimp only

theorem execPeriodicSelftest_kept {q_ : List Instr} {d_ : DevState} {s : State} (h : s.Kept q_ d_) (test : Fin 2) (pass : Bool) :
    ∃ t_, execPeriodicSelftest test pass s = .next t_ ∧ t_.Kept q_ d_ := by
  refine ⟨_, rfl, ?_⟩
  with_reducible repeat' first
      | assumption | intro _ | apply State.periodicSelftest_kept | dsimp only

theorem execDegradeMaxExpiry_kept {q_ : List Instr} {d_ : DevState} {s : State} (h : s.Kept q_ d_)  :
    ∃ t_, execDegradeMaxExpiry s = .next t_ ∧ t_.Kept q_ d_ := by
  refine ⟨_, rfl, ?_⟩
  with_reducible repeat' first
      | assumption | intro _ | apply State.degradeMaxExpiry_kept | dsimp only

theorem execSlateCompareStart_kept {q_ : List Instr} {d_ : DevState} {s : State} (h : s.Kept q_ d_)  :
    ∃ t_, execSlateCompareStart s = .next t_ ∧ t_.Kept q_ d_ := by
  refine ⟨_, rfl, ?_⟩
  with_reducible repeat' first
      | assumption | intro _ | apply State.slateStart_kept | dsimp only

theorem execSlateCompareResult_kept {q_ : List Instr} {d_ : DevState} {s : State} (h : s.Kept q_ d_) (tick : Nat) (agree : Bool) :
    ∃ t_, execSlateCompareResult tick agree s = .next t_ ∧ t_.Kept q_ d_ := by
  refine ⟨_, rfl, ?_⟩
  with_reducible repeat' first
      | assumption | intro _ | apply State.slateResult_kept | dsimp only

theorem execSlateClean_kept {q_ : List Instr} {d_ : DevState} {s : State} (h : s.Kept q_ d_)  :
    ∃ t_, execSlateClean s = .next t_ ∧ t_.Kept q_ d_ := by
  refine ⟨_, rfl, ?_⟩
  with_reducible repeat' first
      | assumption | intro _ | apply State.slateCleaned_kept | dsimp only

theorem execTestTrip_kept {q_ : List Instr} {d_ : DevState} {s : State} (h : s.Kept q_ d_) (ag : Agent) (opened : Bool) :
    ∃ t_, execTestTrip ag opened s = .next t_ ∧ t_.Kept q_ d_ := by
  refine ⟨_, rfl, ?_⟩
  with_reducible repeat' first
      | assumption | intro _ | apply State.fltCmd_kept | apply State.testTrip_kept | dsimp only

theorem execFlintArm_kept {q_ : List Instr} {d_ : DevState} {s : State} (h : s.Kept q_ d_) (ag : Agent) (seed : BitVec 16) :
    ∃ t_, execFlintArm ag seed s = .next t_ ∧ t_.Kept q_ d_ := by
  refine ⟨_, rfl, ?_⟩
  with_reducible repeat' first
      | assumption | intro _ | apply State.fltCmd_kept | apply State.flintArm_kept | dsimp only

theorem execFlintTripCmd_kept {q_ : List Instr} {d_ : DevState} {s : State} (h : s.Kept q_ d_) (ag : Agent) :
    ∃ t_, execFlintTripCmd ag s = .next t_ ∧ t_.Kept q_ d_ := by
  refine ⟨_, rfl, ?_⟩
  with_reducible repeat' first
      | assumption | intro _ | apply kept_ite | apply State.fltCmd_kept | apply State.flintTrip_kept | dsimp only | split

theorem execFlintHeartbeat_kept {q_ : List Instr} {d_ : DevState} {s : State} (h : s.Kept q_ d_) (word : Word) (cycles : Nat) :
    ∃ t_, execFlintHeartbeat word cycles s = .next t_ ∧ t_.Kept q_ d_ := by
  refine ⟨_, rfl, ?_⟩
  with_reducible repeat' first
      | assumption | intro _ | apply State.flintHeartbeat_kept | dsimp only

theorem execFlintRearm_kept {q_ : List Instr} {d_ : DevState} {s : State} (h : s.Kept q_ d_)  :
    ∃ t_, execFlintRearm s = .next t_ ∧ t_.Kept q_ d_ := by
  refine ⟨_, rfl, ?_⟩
  with_reducible repeat' first
      | assumption | intro _ | apply State.flintRearm_kept | dsimp only

theorem execFlintTimeout_kept {q_ : List Instr} {d_ : DevState} {s : State} (h : s.Kept q_ d_)  :
    ∃ t_, execFlintTimeout s = .next t_ ∧ t_.Kept q_ d_ := by
  refine ⟨_, rfl, ?_⟩
  with_reducible repeat' first
      | assumption | intro _ | apply State.flintTimeout_kept | dsimp only

theorem execFlintOscFault_kept {q_ : List Instr} {d_ : DevState} {s : State} (h : s.Kept q_ d_)  :
    ∃ t_, execFlintOscFault s = .next t_ ∧ t_.Kept q_ d_ := by
  refine ⟨_, rfl, ?_⟩
  with_reducible repeat' first
      | assumption | intro _ | apply kept_ite | apply State.flintTrip_kept | dsimp only | split

theorem execSafPtStart_kept {q_ : List Instr} {d_ : DevState} {s : State} (h : s.Kept q_ d_) (ag : Agent) :
    ∃ t_, execSafPtStart ag s = .next t_ ∧ t_.Kept q_ d_ := by
  refine ⟨_, rfl, ?_⟩
  with_reducible repeat' first
      | assumption | intro _ | apply State.swWrite_kept | apply State.ptStart_kept | dsimp only

theorem execProofTestEnd_kept {q_ : List Instr} {d_ : DevState} {s : State} (h : s.Kept q_ d_) (failed : Option (Fin 6)) :
    ∃ t_, execProofTestEnd failed s = .next t_ ∧ t_.Kept q_ d_ := by
  refine ⟨_, rfl, ?_⟩
  with_reducible repeat' first
      | assumption | intro _ | apply State.ptEnd_kept | dsimp only

theorem execProofTestDue_kept {q_ : List Instr} {d_ : DevState} {s : State} (h : s.Kept q_ d_)  :
    ∃ t_, execProofTestDue s = .next t_ ∧ t_.Kept q_ d_ := by
  refine ⟨_, rfl, ?_⟩
  with_reducible repeat' first
      | assumption | intro _ | apply State.ptDue_kept | dsimp only

theorem execProofTestGraceExpiry_kept {q_ : List Instr} {d_ : DevState} {s : State} (h : s.Kept q_ d_)  :
    ∃ t_, execProofTestGraceExpiry s = .next t_ ∧ t_.Kept q_ d_ := by
  refine ⟨_, rfl, ?_⟩
  with_reducible repeat' first
      | assumption | intro _ | apply State.ptGraceExpiry_kept | dsimp only

theorem execTrainPassed_kept {q_ : List Instr} {d_ : DevState} {s : State} (h : s.Kept q_ d_) (p : Fin 4) (lane : Lane) :
    ∃ t_, execTrainPassed p lane s = .next t_ ∧ t_.Kept q_ d_ := by
  refine ⟨_, rfl, ?_⟩
  with_reducible repeat' first
      | assumption | intro _ | apply State.trainPassed_kept | dsimp only

theorem execTrainTimeout_kept {q_ : List Instr} {d_ : DevState} {s : State} (h : s.Kept q_ d_) (p : Fin 4) (lane : Lane) :
    ∃ t_, execTrainTimeout p lane s = .next t_ ∧ t_.Kept q_ d_ := by
  refine ⟨_, rfl, ?_⟩
  with_reducible repeat' first
      | assumption | intro _ | apply State.trainTimeout_kept | dsimp only

theorem execBypassSettled_kept {q_ : List Instr} {d_ : DevState} {s : State} (h : s.Kept q_ d_) (p : Fin 4) (lane : Lane) :
    ∃ t_, execBypassSettled p lane s = .next t_ ∧ t_.Kept q_ d_ := by
  refine ⟨_, rfl, ?_⟩
  with_reducible repeat' first
      | assumption | intro _ | apply State.bypassSettled_kept | dsimp only

theorem execJoinPassed_kept {q_ : List Instr} {d_ : DevState} {s : State} (h : s.Kept q_ d_) (p : Fin 4) (lane : Lane) :
    ∃ t_, execJoinPassed p lane s = .next t_ ∧ t_.Kept q_ d_ := by
  refine ⟨_, rfl, ?_⟩
  with_reducible repeat' first
      | assumption | intro _ | apply State.joinPassed_kept | dsimp only

theorem execJoinTimeout_kept {q_ : List Instr} {d_ : DevState} {s : State} (h : s.Kept q_ d_) (p : Fin 4) (lane : Lane) :
    ∃ t_, execJoinTimeout p lane s = .next t_ ∧ t_.Kept q_ d_ := by
  refine ⟨_, rfl, ?_⟩
  with_reducible repeat' first
      | assumption | intro _ | apply State.joinTimeout_kept | dsimp only

theorem execMeasureMarker_kept {q_ : List Instr} {d_ : DevState} {s : State} (h : s.Kept q_ d_) (p : Fin 4) (m : Marker) :
    ∃ t_, execMeasureMarker p m s = .next t_ ∧ t_.Kept q_ d_ := by
  refine ⟨_, rfl, ?_⟩
  with_reducible repeat' first
      | assumption | intro _ | apply State.measureMarker_kept | dsimp only

theorem execMeasureDone_kept {q_ : List Instr} {d_ : DevState} {s : State} (h : s.Kept q_ d_) (p : Fin 4) (lane : Lane) (loss : Nat) :
    ∃ t_, execMeasureDone p lane loss s = .next t_ ∧ t_.Kept q_ d_ := by
  refine ⟨_, rfl, ?_⟩
  with_reducible repeat' first
      | assumption | intro _ | apply State.measureDone_kept | dsimp only

theorem execMeasureTimeout_kept {q_ : List Instr} {d_ : DevState} {s : State} (h : s.Kept q_ d_) (p : Fin 4) (lane : Lane) :
    ∃ t_, execMeasureTimeout p lane s = .next t_ ∧ t_.Kept q_ d_ := by
  refine ⟨_, rfl, ?_⟩
  with_reducible repeat' first
      | assumption | intro _ | apply State.measureTimeout_kept | dsimp only

theorem execLaneLoss_kept {q_ : List Instr} {d_ : DevState} {s : State} (h : s.Kept q_ d_) (p : Fin 4) (lane : Lane) (lock : Bool) :
    ∃ t_, execLaneLoss p lane lock s = .next t_ ∧ t_.Kept q_ d_ := by
  refine ⟨_, rfl, ?_⟩
  with_reducible repeat' first
      | assumption | intro _ | apply State.laneLoss_kept | dsimp only

theorem execLinkRetryExpiry_kept {q_ : List Instr} {d_ : DevState} {s : State} (h : s.Kept q_ d_) (p : Fin 4) (lane : Lane) :
    ∃ t_, execLinkRetryExpiry p lane s = .next t_ ∧ t_.Kept q_ d_ := by
  refine ⟨_, rfl, ?_⟩
  with_reducible repeat' first
      | assumption | intro _ | apply State.linkRetry_kept | dsimp only

theorem execDescriptorReply_kept {q_ : List Instr} {d_ : DevState} {s : State} (h : s.Kept q_ d_) (p : Fin 4) (n : Fin 64) (lane : LaneAt) (d : List Word) :
    ∃ t_, execDescriptorReply p n lane d s = .next t_ ∧ t_.Kept q_ d_ := by
  refine ⟨_, rfl, ?_⟩
  with_reducible repeat' first
      | assumption | intro _ | apply kept_ite | apply State.rxLog_kept | apply State.descriptorReply_kept | dsimp only
      | split

theorem execRingCycleBoundary_kept {q_ : List Instr} {d_ : DevState} {s : State} (h : s.Kept q_ d_) (mid : Bool) :
    ∃ t_, execRingCycleBoundary mid s = .next t_ ∧ t_.Kept q_ d_ := by
  refine ⟨_, rfl, ?_⟩
  with_reducible repeat' first
      | assumption | intro _ | apply State.cycleBoundary_kept | dsimp only

theorem execRefFrame_kept {q_ : List Instr} {d_ : DevState} {s : State} (h : s.Kept q_ d_) (p : Fin 4) (lane : Lane) (f : RefMsg) (ok : Bool) (egress : Nat) (stamp : Nat) :
    ∃ t_, execRefFrame p lane f ok egress stamp s = .next t_ ∧ t_.Kept q_ d_ := by
  refine ⟨_, rfl, ?_⟩
  with_reducible repeat' first
      | assumption | intro _ | apply kept_ite | apply State.refFrame_kept | apply State.crcBad_kept | dsimp only | split

theorem execClaimFrame_kept {q_ : List Instr} {d_ : DevState} {s : State} (h : s.Kept q_ d_) (p : Fin 4) (lane : Lane) (src : BitVec 8) (prio : BitVec 8) (devId : BitVec 48) (h : RxHead) :
    ∃ t_, execClaimFrame p lane src prio devId h s = .next t_ ∧ t_.Kept q_ d_ := by
  refine ⟨_, rfl, ?_⟩
  with_reducible repeat' first
      | assumption | intro _ | apply kept_ite | apply State.claimFrame_kept | dsimp only | split

theorem execListenEnd_kept {q_ : List Instr} {d_ : DevState} {s : State} (h : s.Kept q_ d_) (p : Fin 4) :
    ∃ t_, execListenEnd p s = .next t_ ∧ t_.Kept q_ d_ := by
  refine ⟨_, rfl, ?_⟩
  with_reducible repeat' first
      | assumption | intro _ | apply State.listenEnd_kept | dsimp only

theorem execClaimWon_kept {q_ : List Instr} {d_ : DevState} {s : State} (h : s.Kept q_ d_) (p : Fin 4) :
    ∃ t_, execClaimWon p s = .next t_ ∧ t_.Kept q_ d_ := by
  refine ⟨_, rfl, ?_⟩
  with_reducible repeat' first
      | assumption | intro _ | apply State.claimWon_kept | dsimp only

theorem execBackupTakeover_kept {q_ : List Instr} {d_ : DevState} {s : State} (h : s.Kept q_ d_) (p : Fin 4) :
    ∃ t_, execBackupTakeover p s = .next t_ ∧ t_.Kept q_ d_ := by
  refine ⟨_, rfl, ?_⟩
  with_reducible repeat' first
      | assumption | intro _ | apply State.backupTakeover_kept | dsimp only

theorem execNodeSilence_kept {q_ : List Instr} {d_ : DevState} {s : State} (h : s.Kept q_ d_) (p : Fin 4) :
    ∃ t_, execNodeSilence p s = .next t_ ∧ t_.Kept q_ d_ := by
  refine ⟨_, rfl, ?_⟩
  with_reducible repeat' first
      | assumption | intro _ | apply State.nodeSilence_kept | dsimp only

theorem execCycIn_kept {q_ : List Instr} {d_ : DevState} {s : State} (h : s.Kept q_ d_) (p : Fin 4) (n : Fin 64) (h : InHeader) (pay : List (BitVec 8)) (okA : BitVec 8) (okB : BitVec 8) :
    ∃ t_, execCycIn p n h pay okA okB s = .next t_ ∧ t_.Kept q_ d_ := by
  refine ⟨_, rfl, ?_⟩
  with_reducible repeat' first
      | assumption | intro _ | apply State.cycIn_kept | dsimp only

theorem execSafeIn_kept {q_ : List Instr} {d_ : DevState} {s : State} (h : s.Kept q_ d_) (p : Fin 4) (n : Fin 64) (h : InHeader) (pay : BitVec 256) (okA : Bool) (okB : Bool) :
    ∃ t_, execSafeIn p n h pay okA okB s = .next t_ ∧ t_.Kept q_ d_ := by
  refine ⟨_, rfl, ?_⟩
  with_reducible repeat' first
      | assumption | intro _ | apply State.safeIn_kept | dsimp only

theorem execRqLaunch_kept {q_ : List Instr} {d_ : DevState} {s : State} (h : s.Kept q_ d_) (p : Fin 4) :
    ∃ t_, execRqLaunch p s = .next t_ ∧ t_.Kept q_ d_ := by
  refine ⟨_, rfl, ?_⟩
  with_reducible repeat' first
      | assumption | intro _ | apply State.rqLaunch_kept | dsimp only

theorem execRqFrame_kept {q_ : List Instr} {d_ : DevState} {s : State} (h : s.Kept q_ d_) (p : Fin 4) (entries : List RingBlock) :
    ∃ t_, execRqFrame p entries s = .next t_ ∧ t_.Kept q_ d_ := by
  refine ⟨_, rfl, ?_⟩
  with_reducible repeat' first
      | assumption | intro _ | apply kept_ite | apply State.rqIn_kept | apply State.relay_kept | dsimp only | split

theorem execRtyFrame_kept {q_ : List Instr} {d_ : DevState} {s : State} (h : s.Kept q_ d_) (p : Fin 4) (blk : RingBlock) (data : List (BitVec 8)) (ok : LaneOk) :
    ∃ t_, execRtyFrame p blk data ok s = .next t_ ∧ t_.Kept q_ d_ := by
  refine ⟨_, rfl, ?_⟩
  with_reducible repeat' first
      | assumption | intro _ | apply State.rty_kept | dsimp only

theorem execOrtLaunch_kept {q_ : List Instr} {d_ : DevState} {s : State} (h : s.Kept q_ d_) (p : Fin 4) (bad : List RingBlock) :
    ∃ t_, execOrtLaunch p bad s = .next t_ ∧ t_.Kept q_ d_ := by
  refine ⟨_, rfl, ?_⟩
  with_reducible repeat' first
      | assumption | intro _ | apply State.ortLaunch_kept | dsimp only

theorem execPortGatherComplete_kept {q_ : List Instr} {d_ : DevState} {s : State} (h : s.Kept q_ d_) (p : Fin 4) :
    ∃ t_, execPortGatherComplete p s = .next t_ ∧ t_.Kept q_ d_ := by
  refine ⟨_, rfl, ?_⟩
  with_reducible repeat' first
      | assumption | intro _ | apply State.portGather_kept | dsimp only

theorem execNodeLost_kept {q_ : List Instr} {d_ : DevState} {s : State} (h : s.Kept q_ d_) (p : Fin 4) (n : Fin 64) :
    ∃ t_, execNodeLost p n s = .next t_ ∧ t_.Kept q_ d_ := by
  refine ⟨_, rfl, ?_⟩
  with_reducible repeat' first
      | assumption | intro _ | apply State.nodeLost_kept | dsimp only

theorem execCycOut_kept {q_ : List Instr} {d_ : DevState} {s : State} (h : s.Kept q_ d_) (p : Fin 4) (h : OutHeader) (pay : List (BitVec 8)) (okA : BitVec 8) (okB : BitVec 8) :
    ∃ t_, execCycOut p h pay okA okB s = .next t_ ∧ t_.Kept q_ d_ := by
  refine ⟨_, rfl, ?_⟩
  with_reducible repeat' first
      | assumption | intro _ | apply State.cycOut_kept | dsimp only

theorem execSafeOut_kept {q_ : List Instr} {d_ : DevState} {s : State} (h : s.Kept q_ d_) (p : Fin 4) (pay : BitVec 256) (ok : LaneOk) :
    ∃ t_, execSafeOut p pay ok s = .next t_ ∧ t_.Kept q_ d_ := by
  refine ⟨_, rfl, ?_⟩
  with_reducible repeat' first
      | assumption | intro _ | apply State.safeOutFrame_kept | dsimp only

theorem execTrumpFrame_kept {q_ : List Instr} {d_ : DevState} {s : State} (h : s.Kept q_ d_) (p : Fin 4) (n : Fin 64) (lane : Lane) (data : List (BitVec 8)) (h : RxHead) :
    ∃ t_, execTrumpFrame p n lane data h s = .next t_ ∧ t_.Kept q_ d_ := by
  refine ⟨_, rfl, ?_⟩
  with_reducible repeat' first
      | assumption | intro _ | apply kept_ite | apply State.trumpFrame_kept | dsimp only | split

theorem execBulkWindow_kept {q_ : List Instr} {d_ : DevState} {s : State} (h : s.Kept q_ d_) (p : Fin 4) (room : Nat) :
    ∃ t_, execBulkWindow p room s = .next t_ ∧ t_.Kept q_ d_ := by
  refine ⟨_, rfl, ?_⟩
  with_reducible repeat' first
      | assumption | intro _ | apply State.bulkWindow_kept | dsimp only

theorem execBulkAck_kept {q_ : List Instr} {d_ : DevState} {s : State} (h : s.Kept q_ d_) (p : Fin 4) (n : Fin 256) (lane : Lane) (acks : List (BitVec 16 × BitVec 16)) (h : RxHead) :
    ∃ t_, execBulkAck p n lane acks h s = .next t_ ∧ t_.Kept q_ d_ := by
  refine ⟨_, rfl, ?_⟩
  with_reducible repeat' first
      | assumption | intro _ | apply kept_ite | apply State.bulkAckFrame_kept | dsimp only | split

theorem execBulkFrame_kept {q_ : List Instr} {d_ : DevState} {s : State} (h : s.Kept q_ d_) (p : Fin 4) (n : Fin 256) (lane : Lane) (f : BulkIn) (h : RxHead) :
    ∃ t_, execBulkFrame p n lane f h s = .next t_ ∧ t_.Kept q_ d_ := by
  refine ⟨_, rfl, ?_⟩
  with_reducible repeat' first
      | assumption | intro _ | apply kept_ite | apply State.bulkFrame_kept | dsimp only | split

theorem execRngBulkTail_kept {q_ : List Instr} {d_ : DevState} {s : State} (h : s.Kept q_ d_) (ag : Agent) (p : Fin 4) (v : Word) :
    ∃ t_, execRngBulkTail ag p v s = .next t_ ∧ t_.Kept q_ d_ := by
  refine ⟨_, rfl, ?_⟩
  with_reducible repeat' first
      | assumption | intro _ | apply State.swWrite_kept | apply State.setFld_kept | dsimp only

theorem execRngSoftFlip_kept {q_ : List Instr} {d_ : DevState} {s : State} (h : s.Kept q_ d_) (ag : Agent) (p : Fin 4) (copy : Bool) :
    ∃ t_, execRngSoftFlip ag p copy s = .next t_ ∧ t_.Kept q_ d_ := by
  refine ⟨_, rfl, ?_⟩
  with_reducible repeat' first
      | assumption | intro _ | apply State.swWrite_kept | apply State.setRp_kept | dsimp only | exact ⟨rfl, rfl⟩
      | apply kept_update

theorem execEncoderEdge_kept {q_ : List Instr} {d_ : DevState} {s : State} (h : s.Kept q_ d_) (e : Fin 16) (a : Bool) (b : Bool) (stamp : Nat) :
    ∃ t_, execEncoderEdge e a b stamp s = .next t_ ∧ t_.Kept q_ d_ := by
  refine ⟨_, rfl, ?_⟩
  with_reducible repeat' first
      | assumption | intro _ | apply State.encoderEdge_kept | dsimp only

theorem execIndexEdge_kept {q_ : List Instr} {d_ : DevState} {s : State} (h : s.Kept q_ d_) (e : Fin 16) (z : Bool) (stamp : Nat) :
    ∃ t_, execIndexEdge e z stamp s = .next t_ ∧ t_.Kept q_ d_ := by
  refine ⟨_, rfl, ?_⟩
  with_reducible repeat' first
      | assumption | intro _ | apply State.indexEdge_kept | dsimp only

theorem execLineFault_kept {q_ : List Instr} {d_ : DevState} {s : State} (h : s.Kept q_ d_) (e : Fin 16) (line : Fin 3) (present : Bool) :
    ∃ t_, execLineFault e line present s = .next t_ ∧ t_.Kept q_ d_ := by
  refine ⟨_, rfl, ?_⟩
  with_reducible repeat' first
      | assumption | intro _ | apply State.lineFault_kept | dsimp only

theorem execHallTransition_kept {q_ : List Instr} {d_ : DevState} {s : State} (h : s.Kept q_ d_) (h : Fin 8) (code : Fin 8) (stamp : Nat) :
    ∃ t_, execHallTransition h code stamp s = .next t_ ∧ t_.Kept q_ d_ := by
  refine ⟨_, rfl, ?_⟩
  with_reducible repeat' first
      | assumption | intro _ | apply State.hallTransition_kept | dsimp only

theorem execSsiFrameDone_kept {q_ : List Instr} {d_ : DevState} {s : State} (h : s.Kept q_ d_) (c : Fin 8) (data : BitVec 48) (extra : BitVec 8) (idleHigh : Bool) (mono : Bool) :
    ∃ t_, execSsiFrameDone c data extra idleHigh mono s = .next t_ ∧ t_.Kept q_ d_ := by
  refine ⟨_, rfl, ?_⟩
  with_reducible repeat' first
      | assumption | intro _ | apply State.ssiDone_kept | dsimp only

theorem execStepPulse_kept {q_ : List Instr} {d_ : DevState} {s : State} (h : s.Kept q_ d_) (n : Fin 16) :
    ∃ t_, execStepPulse n s = .next t_ ∧ t_.Kept q_ d_ := by
  refine ⟨_, rfl, ?_⟩
  with_reducible repeat' first
      | assumption | intro _ | apply State.stepPulse_kept | dsimp only

theorem execEthFrameRx_kept {q_ : List Instr} {d_ : DevState} {s : State} (h : s.Kept q_ d_) (p : Fin 2) (f : EthFrame) :
    ∃ t_, execEthFrameRx p f s = .next t_ ∧ t_.Kept q_ d_ := by
  refine ⟨_, rfl, ?_⟩
  with_reducible repeat' first
      | assumption | intro _ | apply State.ethRx_kept | dsimp only

theorem execEthRxrTail_kept {q_ : List Instr} {d_ : DevState} {s : State} (h : s.Kept q_ d_) (ag : Agent) (p : Fin 2) (q : Fin 8) (v : Word) :
    ∃ t_, execEthRxrTail ag p q v s = .next t_ ∧ t_.Kept q_ d_ := by
  refine ⟨_, rfl, ?_⟩
  with_reducible repeat' first
      | assumption | intro _ | apply State.swWrite_kept | apply State.wrN_kept | dsimp only

theorem execEthTxrTail_kept {q_ : List Instr} {d_ : DevState} {s : State} (h : s.Kept q_ d_) (ag : Agent) (p : Fin 2) (q : Fin 8) (v : Word) :
    ∃ t_, execEthTxrTail ag p q v s = .next t_ ∧ t_.Kept q_ d_ := by
  refine ⟨_, rfl, ?_⟩
  with_reducible repeat' first
      | assumption | intro _ | apply State.swWrite_kept | apply State.txTail_kept | dsimp only

theorem execLaunchTimeReached_kept {q_ : List Instr} {d_ : DevState} {s : State} (h : s.Kept q_ d_) (p : Fin 2) (q : Fin 8) :
    ∃ t_, execLaunchTimeReached p q s = .next t_ ∧ t_.Kept q_ d_ := by
  refine ⟨_, rfl, ?_⟩
  with_reducible repeat' first
      | assumption | intro _ | apply State.launchReached_kept | dsimp only

theorem execEthTxComplete_kept {q_ : List Instr} {d_ : DevState} {s : State} (h : s.Kept q_ d_) (p : Fin 2) (q : Fin 8) (raw : Int) (held : Bool) :
    ∃ t_, execEthTxComplete p q raw held s = .next t_ ∧ t_.Kept q_ d_ := by
  refine ⟨_, rfl, ?_⟩
  with_reducible repeat' first
      | assumption | intro _ | apply State.txComplete_kept | dsimp only

theorem execEthLinkDown_kept {q_ : List Instr} {d_ : DevState} {s : State} (h : s.Kept q_ d_) (p : Fin 2) :
    ∃ t_, execEthLinkDown p s = .next t_ ∧ t_.Kept q_ d_ := by
  refine ⟨_, rfl, ?_⟩
  with_reducible repeat' first
      | assumption | intro _ | apply State.ethDown_kept | dsimp only

theorem execEthLinkUp_kept {q_ : List Instr} {d_ : DevState} {s : State} (h : s.Kept q_ d_) (p : Fin 2) (rate : Fin 4) (anDone : Bool) :
    ∃ t_, execEthLinkUp p rate anDone s = .next t_ ∧ t_.Kept q_ d_ := by
  refine ⟨_, rfl, ?_⟩
  with_reducible repeat' first
      | assumption | intro _ | apply State.ethUp_kept | dsimp only

theorem execPwrDvfsReq_kept {q_ : List Instr} {d_ : DevState} {s : State} (h : s.Kept q_ d_) (ag : Agent) (quad : Fin 4) (point : Fin 4) :
    ∃ t_, execPwrDvfsReq ag quad point s = .next t_ ∧ t_.Kept q_ d_ := by
  refine ⟨_, rfl, ?_⟩
  with_reducible repeat' first
      | assumption | intro _ | apply State.swWrite_kept | apply State.dvfsReq_kept | dsimp only

theorem execPwrAppcReq_kept {q_ : List Instr} {d_ : DevState} {s : State} (h : s.Kept q_ d_) (ag : Agent) (freq : Fin 8) :
    ∃ t_, execPwrAppcReq ag freq s = .next t_ ∧ t_.Kept q_ d_ := by
  refine ⟨_, rfl, ?_⟩
  with_reducible repeat' first
      | assumption | intro _ | apply State.swWrite_kept | apply State.appcReq_kept | dsimp only

theorem execRailSettled_kept {q_ : List Instr} {d_ : DevState} {s : State} (h : s.Kept q_ d_) (quad : Fin 4) (mv : BitVec 16) :
    ∃ t_, execRailSettled quad mv s = .next t_ ∧ t_.Kept q_ d_ := by
  refine ⟨_, rfl, ?_⟩
  with_reducible repeat' first
      | assumption | intro _ | apply kept_ite | apply State.railSettled_kept | dsimp only | split

theorem execDvfsRampTimeout_kept {q_ : List Instr} {d_ : DevState} {s : State} (h : s.Kept q_ d_) (quad : Fin 4) :
    ∃ t_, execDvfsRampTimeout quad s = .next t_ ∧ t_.Kept q_ d_ := by
  refine ⟨_, rfl, ?_⟩
  with_reducible repeat' first
      | assumption | intro _ | apply kept_ite | apply State.rampTimeout_kept | dsimp only | split

theorem execDomainPowerDown_kept {q_ : List Instr} {d_ : DevState} {s : State} (h : s.Kept q_ d_) (ag : Agent) (req : Word) :
    ∃ t_, execDomainPowerDown ag req s = .next t_ ∧ t_.Kept q_ d_ := by
  refine ⟨_, rfl, ?_⟩
  with_reducible repeat' first
      | assumption | intro _ | apply State.swWrite_kept | apply State.domReq_kept | dsimp only

theorem execDomainPowerUp_kept {q_ : List Instr} {d_ : DevState} {s : State} (h : s.Kept q_ d_) (ag : Agent) (req : Word) :
    ∃ t_, execDomainPowerUp ag req s = .next t_ ∧ t_.Kept q_ d_ := by
  refine ⟨_, rfl, ?_⟩
  with_reducible repeat' first
      | assumption | intro _ | apply State.swWrite_kept | apply State.domReq_kept | dsimp only

theorem execRailOvervoltage_kept {q_ : List Instr} {d_ : DevState} {s : State} (h : s.Kept q_ d_) (rail : Fin 13) (mv : BitVec 16) :
    ∃ t_, execRailOvervoltage rail mv s = .next t_ ∧ t_.Kept q_ d_ := by
  refine ⟨_, rfl, ?_⟩
  with_reducible repeat' first
      | assumption | intro _ | apply kept_ite | apply State.railOver_kept | dsimp only | split

theorem execPllLockLoss_kept {q_ : List Instr} {d_ : DevState} {s : State} (h : s.Kept q_ d_) (pll : Fin 8) :
    ∃ t_, execPllLockLoss pll s = .next t_ ∧ t_.Kept q_ d_ := by
  refine ⟨_, rfl, ?_⟩
  with_reducible repeat' first
      | assumption | intro _ | apply kept_ite | apply State.lockLoss_kept | dsimp only | split

theorem execReferenceFail_kept {q_ : List Instr} {d_ : DevState} {s : State} (h : s.Kept q_ d_) (ref : Fin 2) :
    ∃ t_, execReferenceFail ref s = .next t_ ∧ t_.Kept q_ d_ := by
  refine ⟨_, rfl, ?_⟩
  with_reducible repeat' first
      | assumption | intro _ | apply kept_ite | apply State.refFail_kept | dsimp only | split

theorem execResetN_moves {q_ : List Instr} {d_ : DevState} {s : State} (h : s.Kept q_ d_)  :
    ∃ t_, execResetN s = .next t_ ∧ ∃ e_, (e_ = d_ ∨ DevState.moves s.sys.frozen d_ e_) ∧ t_.Kept q_ e_ := by
  exact ⟨_, rfl, goes_moves (State.resetBy_goes h)⟩

theorem execSwReset_moves {q_ : List Instr} {d_ : DevState} {s : State} (h : s.Kept q_ d_) (ag : Agent) (key : BitVec 16) :
    ∃ t_, execSwReset ag key s = .next t_ ∧ ∃ e_, (e_ = d_ ∨ DevState.moves s.sys.frozen d_ e_) ∧ t_.Kept q_ e_ := by
  exact ⟨_, rfl, goes_moves (State.swWrite_goes h fun ht => State.swReset_goes ht)⟩

theorem execRailUndervoltage_moves {q_ : List Instr} {d_ : DevState} {s : State} (h : s.Kept q_ d_) (rail : Fin 13) (mv : BitVec 16) :
    ∃ t_, execRailUndervoltage rail mv s = .next t_ ∧ ∃ e_, (e_ = d_ ∨ DevState.moves s.sys.frozen d_ e_) ∧ t_.Kept q_ e_ := by
  exact ⟨_, rfl, .off, .inr (.inr (.inl rfl)), State.railUnder_kept h⟩

theorem execRailsStable_moves {q_ : List Instr} {d_ : DevState} {s : State} (h : s.Kept q_ d_) (mv : List (BitVec 16)) :
    ∃ t_, execRailsStable mv s = .next t_ ∧ ∃ e_, (e_ = d_ ∨ DevState.moves s.sys.frozen d_ e_) ∧ t_.Kept q_ e_ := by
  refine ⟨_, rfl, ?_⟩
  rcases State.powerOn_kept h (mv := mv) with ⟨rfl, k⟩ | ⟨-, k⟩
  · exact ⟨.reset, .inr (.inl ⟨rfl, rfl⟩), k⟩
  · rw [k]; exact ⟨d_, .inl rfl, h⟩

theorem execResetRelease_moves {q_ : List Instr} {d_ : DevState} {s : State} (h : s.Kept q_ d_) (inp : BootInputs) :
    ∃ t_, execResetRelease inp s = .next t_ ∧ ∃ e_, (e_ = d_ ∨ DevState.moves s.sys.frozen d_ e_) ∧ t_.Kept q_ e_ := by
  refine ⟨_, rfl, ?_⟩
  rcases State.resetRelease_kept h (inp := inp) with ⟨rfl, k⟩ | ⟨-, k⟩
  · exact ⟨.boot, .inr (.inr (.inr (.inr (.inl ⟨rfl, rfl⟩)))), k⟩
  · rw [k]; exact ⟨d_, .inl rfl, h⟩

theorem execSelftestDone_kept {q_ : List Instr} {d_ : DevState} {s : State} (h : s.Kept q_ d_) (pass : BitVec 8) :
    ∃ t_, execSelftestDone pass s = .next t_ ∧ t_.Kept q_ d_ := by
  refine ⟨_, rfl, ?_⟩
  with_reducible repeat' first
      | assumption | intro _ | apply State.selftestDone_kept | dsimp only

theorem execSysWdtKick_kept {q_ : List Instr} {d_ : DevState} {s : State} (h : s.Kept q_ d_) (ag : Agent) (v : Word) :
    ∃ t_, execSysWdtKick ag v s = .next t_ ∧ t_.Kept q_ d_ := by
  refine ⟨_, rfl, ?_⟩
  with_reducible repeat' first
      | assumption | intro _ | apply kept_ite | apply State.swWrite_kept | apply State.wdtStart_kept | dsimp only | split

theorem execWdtWarn_kept {q_ : List Instr} {d_ : DevState} {s : State} (h : s.Kept q_ d_)  :
    ∃ t_, execWdtWarn s = .next t_ ∧ t_.Kept q_ d_ := by
  refine ⟨_, rfl, ?_⟩
  with_reducible repeat' first
      | assumption | intro _ | apply State.wdtWarn_kept | dsimp only

theorem execWdtExpiry_moves {q_ : List Instr} {d_ : DevState} {s : State} (h : s.Kept q_ d_)  :
    ∃ t_, execWdtExpiry s = .next t_ ∧ ∃ e_, (e_ = d_ ∨ DevState.moves s.sys.frozen d_ e_) ∧ t_.Kept q_ e_ := by
  exact ⟨_, rfl, goes_moves (goes_ite (State.resetBy_goes h) h.goes)⟩

theorem execRunReq_kept {q_ : List Instr} {d_ : DevState} {s : State} (h : s.Kept q_ d_) (ag : Agent) (withStop : Bool) :
    ∃ t_, execRunReq ag withStop s = .next t_ ∧ t_.Kept q_ d_ := by
  refine ⟨_, rfl, ?_⟩
  with_reducible repeat' first
      | assumption | intro _ | apply State.swWrite_kept | apply State.runReq_kept | dsimp only

theorem execStopReq_kept {q_ : List Instr} {d_ : DevState} {s : State} (h : s.Kept q_ d_) (ag : Agent) :
    ∃ t_, execStopReq ag s = .next t_ ∧ t_.Kept q_ d_ := by
  refine ⟨_, rfl, ?_⟩
  with_reducible repeat' first
      | assumption | intro _ | apply State.swWrite_kept | apply State.stopRequest_kept | dsimp only

theorem execRestartReq_kept {q_ : List Instr} {d_ : DevState} {s : State} (h : s.Kept q_ d_) (ag : Agent) :
    ∃ t_, execRestartReq ag s = .next t_ ∧ t_.Kept q_ d_ := by
  refine ⟨_, rfl, ?_⟩
  with_reducible repeat' first
      | assumption | intro _ | apply State.swWrite_kept | apply State.restartReq_kept | dsimp only

theorem execFreeze_moves {q_ : List Instr} {d_ : DevState} {s : State} (h : s.Kept q_ d_) (ag : Agent) :
    ∃ t_, execFreeze ag s = .next t_ ∧ ∃ e_, (e_ = d_ ∨ DevState.moves s.sys.frozen d_ e_) ∧ t_.Kept q_ e_ := by
  exact ⟨_, rfl, goes_moves (State.swWrite_goes h fun ht => State.freezeBy_goes ht)⟩

theorem execFrzNAssert_moves {q_ : List Instr} {d_ : DevState} {s : State} (h : s.Kept q_ d_)  :
    ∃ t_, execFrzNAssert s = .next t_ ∧ ∃ e_, (e_ = d_ ∨ DevState.moves s.sys.frozen d_ e_) ∧ t_.Kept q_ e_ := by
  exact ⟨_, rfl, goes_moves (State.freezeBy_goes h)⟩

theorem execReadoutStart_kept {q_ : List Instr} {d_ : DevState} {s : State} (h : s.Kept q_ d_)  :
    ∃ t_, execReadoutStart s = .next t_ ∧ t_.Kept q_ d_ := by
  refine ⟨_, rfl, ?_⟩
  with_reducible repeat' first
      | assumption | intro _ | apply State.readoutStart_kept | dsimp only

theorem execReadoutEnd_kept {q_ : List Instr} {d_ : DevState} {s : State} (h : s.Kept q_ d_) (bytes : BitVec 64) (ue : Word) :
    ∃ t_, execReadoutEnd bytes ue s = .next t_ ∧ t_.Kept q_ d_ := by
  refine ⟨_, rfl, ?_⟩
  with_reducible repeat' first
      | assumption | intro _ | apply State.readoutEnd_kept | dsimp only

theorem execFreezeRelease_kept {q_ : List Instr} {d_ : DevState} {s : State} (h : s.Kept q_ d_) (inp : BootInputs) :
    ∃ t_, execFreezeRelease inp s = .next t_ ∧ t_.Kept q_ d_ := by
  refine ⟨_, rfl, ?_⟩
  with_reducible repeat' first
      | assumption | intro _ | apply State.freezeRelease_kept | dsimp only

theorem execSafLogClr_kept {q_ : List Instr} {d_ : DevState} {s : State} (h : s.Kept q_ d_) (ag : Agent) (v : Word) :
    ∃ t_, execSafLogClr ag v s = .next t_ ∧ t_.Kept q_ d_ := by
  refine ⟨_, rfl, ?_⟩
  with_reducible repeat' first
      | assumption | intro _ | apply State.swWrite_kept | apply State.logClear_kept | dsimp only

theorem execSealOpen_kept {q_ : List Instr} {d_ : DevState} {s : State} (h : s.Kept q_ d_) (ag : Agent) :
    ∃ t_, execSealOpen ag s = .next t_ ∧ t_.Kept q_ d_ := by
  refine ⟨_, rfl, ?_⟩
  with_reducible repeat' first
      | assumption | intro _ | apply State.swWrite_kept | apply State.sealOpen_kept | dsimp only

theorem execSealClose_kept {q_ : List Instr} {d_ : DevState} {s : State} (h : s.Kept q_ d_) (ag : Agent) :
    ∃ t_, execSealClose ag s = .next t_ ∧ t_.Kept q_ d_ := by
  refine ⟨_, rfl, ?_⟩
  with_reducible repeat' first
      | assumption | intro _ | apply State.swWrite_kept | apply State.closeSeal_kept | apply State.refreshSaf_kept
      | dsimp only

theorem execSealTimeout_kept {q_ : List Instr} {d_ : DevState} {s : State} (h : s.Kept q_ d_)  :
    ∃ t_, execSealTimeout s = .next t_ ∧ t_.Kept q_ d_ := by
  refine ⟨_, rfl, ?_⟩
  with_reducible repeat' first
      | assumption | intro _ | apply kept_ite | apply State.closeSeal_kept | apply State.refreshSaf_kept | dsimp only | split

theorem execPasswordLockoutEnd_kept {q_ : List Instr} {d_ : DevState} {s : State} (h : s.Kept q_ d_)  :
    ∃ t_, execPasswordLockoutEnd s = .next t_ ∧ t_.Kept q_ d_ := by
  refine ⟨_, rfl, ?_⟩
  with_reducible repeat' first
      | assumption | intro _ | apply kept_ite | apply State.lockoutEnd_kept | dsimp only | split

theorem execPasswordSet_kept {q_ : List Instr} {d_ : DevState} {s : State} (h : s.Kept q_ d_) (ag : Agent) :
    ∃ t_, execPasswordSet ag s = .next t_ ∧ t_.Kept q_ d_ := by
  refine ⟨_, rfl, ?_⟩
  with_reducible repeat' first
      | assumption | intro _ | apply State.swWrite_kept | apply State.passwordSet_kept | dsimp only

theorem execMethodChangeReq_kept {q_ : List Instr} {d_ : DevState} {s : State} (h : s.Kept q_ d_) (ag : Agent) (v : Word) :
    ∃ t_, execMethodChangeReq ag v s = .next t_ ∧ t_.Kept q_ d_ := by
  refine ⟨_, rfl, ?_⟩
  with_reducible repeat' first
      | assumption | intro _ | apply State.swWrite_kept | apply State.methodReq_kept | dsimp only

theorem execSafStore_kept {q_ : List Instr} {d_ : DevState} {s : State} (h : s.Kept q_ d_) (ag : Agent) (v : Word) :
    ∃ t_, execSafStore ag v s = .next t_ ∧ t_.Kept q_ d_ := by
  refine ⟨_, rfl, ?_⟩
  with_reducible repeat' first
      | assumption | intro _ | apply State.swWrite_kept | apply State.safStore_kept | dsimp only

theorem execSafStoreDone_kept {q_ : List Instr} {d_ : DevState} {s : State} (h : s.Kept q_ d_) (img : SafetyImage) (crcA : Bool) (crcB : Bool) (flashOk : Bool) :
    ∃ t_, execSafStoreDone img crcA crcB flashOk s = .next t_ ∧ t_.Kept q_ d_ := by
  refine ⟨_, rfl, ?_⟩
  with_reducible repeat' first
      | assumption | intro _ | apply kept_ite | apply State.storeDone_kept | dsimp only | split

theorem execSafLoad_kept {q_ : List Instr} {d_ : DevState} {s : State} (h : s.Kept q_ d_) (ag : Agent) (v : Word) :
    ∃ t_, execSafLoad ag v s = .next t_ ∧ t_.Kept q_ d_ := by
  refine ⟨_, rfl, ?_⟩
  with_reducible repeat' first
      | assumption | intro _ | apply State.swWrite_kept | apply State.safLoad_kept | dsimp only

theorem execOpenLoad_kept {q_ : List Instr} {d_ : DevState} {s : State} (h : s.Kept q_ d_) (i : Fin 16) (off : Bool) :
    ∃ t_, execOpenLoad i off s = .next t_ ∧ t_.Kept q_ d_ := by
  refine ⟨_, rfl, ?_⟩
  with_reducible repeat' first
      | assumption | intro _ | apply kept_ite | apply State.openLoad_kept | dsimp only | split

theorem execLpUndervoltage_kept {q_ : List Instr} {d_ : DevState} {s : State} (h : s.Kept q_ d_) (g : Fin 2) :
    ∃ t_, execLpUndervoltage g s = .next t_ ∧ t_.Kept q_ d_ := by
  refine ⟨_, rfl, ?_⟩
  with_reducible repeat' first
      | assumption | intro _ | apply State.lpUnder_kept | dsimp only

theorem execLpOvervoltage_kept {q_ : List Instr} {d_ : DevState} {s : State} (h : s.Kept q_ d_) (g : Fin 2) :
    ∃ t_, execLpOvervoltage g s = .next t_ ∧ t_.Kept q_ d_ := by
  refine ⟨_, rfl, ?_⟩
  with_reducible repeat' first
      | assumption | intro _ | apply State.lpHigh_kept | dsimp only

theorem execLpRecovery_kept {q_ : List Instr} {d_ : DevState} {s : State} (h : s.Kept q_ d_) (g : Fin 2) :
    ∃ t_, execLpRecovery g s = .next t_ ∧ t_.Kept q_ d_ := by
  refine ⟨_, rfl, ?_⟩
  with_reducible repeat' first
      | assumption | intro _ | apply State.lpRecovery_kept | dsimp only

theorem execDiSample_kept {q_ : List Instr} {d_ : DevState} {s : State} (h : s.Kept q_ d_) (j : Fin 16) (x : FieldSample) :
    ∃ t_, execDiSample j x s = .next t_ ∧ t_.Kept q_ d_ := by
  refine ⟨_, rfl, ?_⟩
  with_reducible repeat' first
      | assumption | intro _ | apply State.diSample_kept | dsimp only

theorem execCountEdge_kept {q_ : List Instr} {d_ : DevState} {s : State} (h : s.Kept q_ d_) (i : Fin 8) (rising : Bool) (stamp : Nat) :
    ∃ t_, execCountEdge i rising stamp s = .next t_ ∧ t_.Kept q_ d_ := by
  refine ⟨_, rfl, ?_⟩
  with_reducible repeat' first
      | assumption | intro _ | apply State.countEdge_kept | dsimp only

theorem execCheckedWord_kept {q_ : List Instr} {d_ : DevState} {s : State} (h : s.Kept q_ d_)  :
    ∃ t_, execCheckedWord s = .next t_ ∧ t_.Kept q_ d_ := by
  refine ⟨_, rfl, ?_⟩
  with_reducible repeat' first
      | assumption | intro _ | apply State.checkedWord_kept | dsimp only

theorem execCmdLoss_kept {q_ : List Instr} {d_ : DevState} {s : State} (h : s.Kept q_ d_)  :
    ∃ t_, execCmdLoss s = .next t_ ∧ t_.Kept q_ d_ := by
  refine ⟨_, rfl, ?_⟩
  with_reducible repeat' first
      | assumption | intro _ | apply State.cmdLoss_kept | dsimp only

theorem execOutputOverload_kept {q_ : List Instr} {d_ : DevState} {s : State} (h : s.Kept q_ d_) (i : Fin 16) :
    ∃ t_, execOutputOverload i s = .next t_ ∧ t_.Kept q_ d_ := by
  refine ⟨_, rfl, ?_⟩
  with_reducible repeat' first
      | assumption | intro _ | apply kept_ite | apply State.overload_kept | dsimp only | split

theorem execOverloadRetry_kept {q_ : List Instr} {d_ : DevState} {s : State} (h : s.Kept q_ d_) (i : Fin 16) (holds : Bool) :
    ∃ t_, execOverloadRetry i holds s = .next t_ ∧ t_.Kept q_ d_ := by
  refine ⟨_, rfl, ?_⟩
  with_reducible repeat' first
      | assumption | intro _ | apply State.overloadRetry_kept | dsimp only

theorem execVccFLoss_kept {q_ : List Instr} {d_ : DevState} {s : State} (h : s.Kept q_ d_)  :
    ∃ t_, execVccFLoss s = .next t_ ∧ t_.Kept q_ d_ := by
  refine ⟨_, rfl, ?_⟩
  with_reducible repeat' first
      | assumption | intro _ | apply State.vccLoss_kept | dsimp only

theorem execVccFRecovery_kept {q_ : List Instr} {d_ : DevState} {s : State} (h : s.Kept q_ d_)  :
    ∃ t_, execVccFRecovery s = .next t_ ∧ t_.Kept q_ d_ := by
  refine ⟨_, rfl, ?_⟩
  with_reducible repeat' first
      | assumption | intro _ | apply State.vccRecovery_kept | dsimp only

theorem execSealSwAccept_kept {q_ : List Instr} {d_ : DevState} {s : State} (h : s.Kept q_ d_) (line : Fin 8) (level : Bool) :
    ∃ t_, execSealSwAccept line level s = .next t_ ∧ t_.Kept q_ d_ := by
  refine ⟨_, rfl, ?_⟩
  with_reducible repeat' first
      | assumption | intro _ | apply kept_ite | apply State.setBit_kept | dsimp only | split

theorem execInterlockTake_kept {q_ : List Instr} {d_ : DevState} {s : State} (h : s.Kept q_ d_)  :
    ∃ t_, execInterlockTake s = .next t_ ∧ t_.Kept q_ d_ := by
  refine ⟨_, rfl, ?_⟩
  with_reducible repeat' first
      | assumption | intro _ | apply State.interlockTake_kept | dsimp only

theorem execInterlockCheck_kept {q_ : List Instr} {d_ : DevState} {s : State} (h : s.Kept q_ d_)  :
    ∃ t_, execInterlockCheck s = .next t_ ∧ t_.Kept q_ d_ := by
  refine ⟨_, rfl, ?_⟩
  with_reducible repeat' first
      | assumption | intro _ | apply State.interlockCheck_kept | dsimp only

theorem execInterlockRetry_kept {q_ : List Instr} {d_ : DevState} {s : State} (h : s.Kept q_ d_)  :
    ∃ t_, execInterlockRetry s = .next t_ ∧ t_.Kept q_ d_ := by
  refine ⟨_, rfl, ?_⟩
  with_reducible repeat' first
      | assumption | intro _ | apply State.interlockRetry_kept | dsimp only

theorem execStartWaitExpiry_kept {q_ : List Instr} {d_ : DevState} {s : State} (h : s.Kept q_ d_)  :
    ∃ t_, execStartWaitExpiry s = .next t_ ∧ t_.Kept q_ d_ := by
  refine ⟨_, rfl, ?_⟩
  with_reducible repeat' first
      | assumption | intro _ | apply kept_ite | apply State.takeLock_kept | dsimp only | split

theorem execLeaseExpiry_kept {q_ : List Instr} {d_ : DevState} {s : State} (h : s.Kept q_ d_)  :
    ∃ t_, execLeaseExpiry s = .next t_ ∧ t_.Kept q_ d_ := by
  refine ⟨_, rfl, ?_⟩
  with_reducible repeat' first
      | assumption | intro _ | apply State.leaseEnd_kept | dsimp only

theorem execSyncOp_kept {q_ : List Instr} {d_ : DevState} {s : State} (h : s.Kept q_ d_) (ag : Agent) :
    ∃ t_, execSyncOp ag s = .next t_ ∧ t_.Kept q_ d_ := by
  refine ⟨_, rfl, ?_⟩
  with_reducible repeat' first
      | assumption | intro _ | apply State.swWrite_kept | apply State.syncCmd_kept | dsimp only

theorem execAutoSyncStart_kept {q_ : List Instr} {d_ : DevState} {s : State} (h : s.Kept q_ d_)  :
    ∃ t_, execAutoSyncStart s = .next t_ ∧ t_.Kept q_ d_ := by
  refine ⟨_, rfl, ?_⟩
  with_reducible repeat' first
      | assumption | intro _ | apply State.autoSync_kept | dsimp only

theorem execSyncCaughtUp_kept {q_ : List Instr} {d_ : DevState} {s : State} (h : s.Kept q_ d_) (digestOk : Bool) :
    ∃ t_, execSyncCaughtUp digestOk s = .next t_ ∧ t_.Kept q_ d_ := by
  refine ⟨_, rfl, ?_⟩
  with_reducible repeat' first
      | assumption | intro _ | apply State.syncCaughtUp_kept | dsimp only

theorem execSyncTimeout_kept {q_ : List Instr} {d_ : DevState} {s : State} (h : s.Kept q_ d_)  :
    ∃ t_, execSyncTimeout s = .next t_ ∧ t_.Kept q_ d_ := by
  refine ⟨_, rfl, ?_⟩
  with_reducible repeat' first
      | assumption | intro _ | apply kept_ite | apply State.syncFail_kept | dsimp only | split

theorem execMirrorFrame_kept {q_ : List Instr} {d_ : DevState} {s : State} (h : s.Kept q_ d_) (m : MirrorFrame) (image : Option SyncImage) :
    ∃ t_, execMirrorFrame m image s = .next t_ ∧ t_.Kept q_ d_ := by
  refine ⟨_, rfl, ?_⟩
  with_reducible repeat' first
      | assumption | intro _ | apply State.laneErrors_kept | apply State.mirrorFrame_kept | dsimp only

theorem execTwinHeartbeat_kept {q_ : List Instr} {d_ : DevState} {s : State} (h : s.Kept q_ d_) (b : TwinBeat) :
    ∃ t_, execTwinHeartbeat b s = .next t_ ∧ t_.Kept q_ d_ := by
  refine ⟨_, rfl, ?_⟩
  with_reducible repeat' first
      | assumption | intro _ | apply State.laneErrors_kept | apply State.twinBeat_kept | dsimp only

theorem execTwinHbIToggle_kept {q_ : List Instr} {d_ : DevState} {s : State} (h : s.Kept q_ d_)  :
    ∃ t_, execTwinHbIToggle s = .next t_ ∧ t_.Kept q_ d_ := by
  refine ⟨_, rfl, ?_⟩
  with_reducible repeat' first
      | assumption | intro _ | apply kept_ite | apply State.setTwin_kept | dsimp only | split | exact ⟨rfl, rfl⟩
      | apply kept_update

theorem execHeartbeatCheck_kept {q_ : List Instr} {d_ : DevState} {s : State} (h : s.Kept q_ d_)  :
    ∃ t_, execHeartbeatCheck s = .next t_ ∧ t_.Kept q_ d_ := by
  refine ⟨_, rfl, ?_⟩
  with_reducible repeat' first
      | assumption | intro _ | apply State.heartbeatCheck_kept | dsimp only

theorem execIlkPeerChange_kept {q_ : List Instr} {d_ : DevState} {s : State} (h : s.Kept q_ d_) (low : Bool) :
    ∃ t_, execIlkPeerChange low s = .next t_ ∧ t_.Kept q_ d_ := by
  refine ⟨_, rfl, ?_⟩
  with_reducible repeat' first
      | assumption | intro _ | apply State.ilkPeerChange_kept | dsimp only

theorem execHealthWord_kept {q_ : List Instr} {d_ : DevState} {s : State} (h : s.Kept q_ d_) (w : Word) :
    ∃ t_, execHealthWord w s = .next t_ ∧ t_.Kept q_ d_ := by
  refine ⟨_, rfl, ?_⟩
  with_reducible repeat' first
      | assumption | intro _ | apply State.healthWord_kept | dsimp only

theorem execResign_kept {q_ : List Instr} {d_ : DevState} {s : State} (h : s.Kept q_ d_) (cause : ResignCause) :
    ∃ t_, execResign cause s = .next t_ ∧ t_.Kept q_ d_ := by
  refine ⟨_, rfl, ?_⟩
  with_reducible repeat' first
      | assumption | intro _ | apply State.resignBy_kept | dsimp only

theorem execStandbyFlintTest_kept {q_ : List Instr} {d_ : DevState} {s : State} (h : s.Kept q_ d_) (opened : Bool) (seed : BitVec 16) :
    ∃ t_, execStandbyFlintTest opened seed s = .next t_ ∧ t_.Kept q_ d_ := by
  refine ⟨_, rfl, ?_⟩
  with_reducible repeat' first
      | assumption | intro _ | apply kept_ite | apply State.testTrip_kept | apply State.flintArm_kept | dsimp only | split

theorem execParallelHoldEnd_kept {q_ : List Instr} {d_ : DevState} {s : State} (h : s.Kept q_ d_)  :
    ∃ t_, execParallelHoldEnd s = .next t_ ∧ t_.Kept q_ d_ := by
  refine ⟨_, rfl, ?_⟩
  with_reducible repeat' first
      | assumption | intro _ | apply State.parEnd_kept | dsimp only

theorem execTwinAlarmMirror_kept {q_ : List Instr} {d_ : DevState} {s : State} (h : s.Kept q_ d_) (entry : Fin 1024) (ws : List Word) :
    ∃ t_, execTwinAlarmMirror entry ws s = .next t_ ∧ t_.Kept q_ d_ := by
  refine ⟨_, rfl, ?_⟩
  with_reducible repeat' first
      | assumption | intro _ | apply State.peerEntry_kept | dsimp only

theorem execPortEnable_kept {q_ : List Instr} {d_ : DevState} {s : State} (h : s.Kept q_ d_) (ag : Agent) (p : Fin 4) (v : Word) :
    ∃ t_, execPortEnable ag p v s = .next t_ ∧ t_.Kept q_ d_ := by
  refine ⟨_, rfl, ?_⟩
  with_reducible repeat' first
      | assumption | intro _ | apply State.cfgWord_kept | dsimp only

theorem execRegisterWrite_moves {q_ : List Instr} {d_ : DevState} {s : State} (h : s.Kept q_ d_) (ag : Agent) (addr : Nat) (wide : Bool) (v : BitVec 64) :
    ∃ t_, execRegisterWrite ag addr wide v s = .next t_ ∧ ∃ e_, (e_ = d_ ∨ DevState.moves s.sys.frozen d_ e_) ∧ t_.Kept q_ e_ := by
  exact ⟨_, rfl, goes_moves (State.registerWrite_goes h)⟩

theorem execRcRead_kept {q_ : List Instr} {d_ : DevState} {s : State} (h : s.Kept q_ d_) (ag : Agent) (addr : Nat) :
    ∃ t_, execRcRead ag addr s = .next t_ ∧ t_.Kept q_ d_ := by
  refine ⟨_, rfl, ?_⟩
  with_reducible repeat' first
      | assumption | intro _ | apply State.regRead_kept | dsimp only

theorem execBarAccess_moves {q_ : List Instr} {d_ : DevState} {s : State} (h : s.Kept q_ d_) (bar : Fin 6) (ofs len : Nat) (write : Option (List (BitVec 8))) :
    ∃ t_, execBarAccess bar ofs len write s = .next t_ ∧ ∃ e_, (e_ = d_ ∨ DevState.moves s.sys.frozen d_ e_) ∧ t_.Kept q_ e_ := by
  exact ⟨_, rfl, goes_moves (State.barAccess_goes h)⟩

theorem execPcieEndpointReset_kept {q_ : List Instr} {d_ : DevState} {s : State} (h : s.Kept q_ d_) (linkLoss : Bool) :
    ∃ t_, execPcieEndpointReset linkLoss s = .next t_ ∧ t_.Kept q_ d_ := by
  refine ⟨_, rfl, ?_⟩
  with_reducible repeat' first
      | assumption | intro _ | apply State.endpointReset_kept | dsimp only

theorem execPcieLinkUp_kept {q_ : List Instr} {d_ : DevState} {s : State} (h : s.Kept q_ d_) (speed : Fin 8) (width : Fin 8) :
    ∃ t_, execPcieLinkUp speed width s = .next t_ ∧ t_.Kept q_ d_ := by
  refine ⟨_, rfl, ?_⟩
  with_reducible repeat' first
      | assumption | intro _ | apply State.pcieUp_kept | dsimp only

theorem execFlashWrite_kept {q_ : List Instr} {d_ : DevState} {s : State} (h : s.Kept q_ d_) (ag : Agent) (addr : Nat) (len : Nat) (data : Option (List (BitVec 8))) :
    ∃ t_, execFlashWrite ag addr len data s = .next t_ ∧ t_.Kept q_ d_ := by
  refine ⟨_, rfl, ?_⟩
  with_reducible repeat' first
      | assumption | intro _ | apply State.flashWrite_kept | dsimp only

theorem execJtagInstruction_kept {q_ : List Instr} {d_ : DevState} {s : State} (h : s.Kept q_ d_) (i : JtagInstr) :
    ∃ t_, execJtagInstruction i s = .next t_ ∧ t_.Kept q_ d_ := by
  refine ⟨_, rfl, ?_⟩
  with_reducible repeat' first
      | assumption | intro _ | apply State.jtagShift_kept | dsimp only

theorem execELaunch_kept {q_ : List Instr} {d_ : DevState} {s : State} (h : s.Kept q_ d_)  :
    ∃ t_, execELaunch s = .next t_ ∧ t_.Kept q_ d_ := by
  refine ⟨_, rfl, ?_⟩
  with_reducible repeat' first
      | assumption | intro _ | apply State.eLaunch_kept | dsimp only

theorem execPhaseStart_kept {q_ : List Instr} {d_ : DevState} {s : State} (h : s.Kept q_ d_) (ph : Phase) (ms : List CodeMismatch) :
    ∃ t_, execPhaseStart ph ms s = .next t_ ∧ t_.Kept q_ d_ := by
  refine ⟨_, rfl, ?_⟩
  with_reducible repeat' first
      | assumption | intro _ | apply State.startPhase_kept | dsimp only

theorem execPhaseComplete_kept {q_ : List Instr} {d_ : DevState} {s : State} (h : s.Kept q_ d_) (ph : Phase) (ofs : Nat) :
    ∃ t_, execPhaseComplete ph ofs s = .next t_ ∧ t_.Kept q_ d_ := by
  refine ⟨_, rfl, ?_⟩
  with_reducible repeat' first
      | assumption | intro _ | apply State.completePhase_kept | dsimp only

theorem execPhaseDeadline_kept {q_ : List Instr} {d_ : DevState} {s : State} (h : s.Kept q_ d_) (ph : Phase) (late : Overran) :
    ∃ t_, execPhaseDeadline ph late s = .next t_ ∧ t_.Kept q_ d_ := by
  refine ⟨_, rfl, ?_⟩
  with_reducible repeat' first
      | assumption | intro _ | apply State.deadline_kept | dsimp only

theorem execGroupOverrunStop_kept {q_ : List Instr} {d_ : DevState} {s : State} (h : s.Kept q_ d_) (ph : Phase) (g : Fin 16) :
    ∃ t_, execGroupOverrunStop ph g s = .next t_ ∧ t_.Kept q_ d_ := by
  refine ⟨_, rfl, ?_⟩
  with_reducible repeat' first
      | assumption | intro _ | apply State.groupOverrunStop_kept | dsimp only

theorem execTickBoundary_moves {q_ : List Instr} {d_ : DevState} {s : State} (h : s.Kept q_ d_)  :
    ∃ t_, execTickBoundary s = .next t_ ∧ ∃ e_, (e_ = d_ ∨ DevState.moves s.sys.frozen d_ e_) ∧ t_.Kept q_ e_ := by
  refine ⟨_, rfl, ?_⟩
  obtain ⟨e, he, k⟩ := State.tickBoundary_kept h
  refine ⟨e, ?_, k⟩
  rcases he with he | he | ⟨hd, f, hf, he⟩
  · exact .inl he
  · exact .inr (.inr (.inr (.inr (.inr (.inl he)))))
  · exact .inr (.inr (.inr (.inr (.inr (.inr (.inr ⟨hd, f, hf, he⟩))))))

end Sys2Proof.Machine
end

