-- ==== Sys2Proof/Tests/Slice0.lean ====
section
/-! SUPPORT. Tests: for each statement a concrete state and operands that meet all hypotheses of each of its clauses, the spec's
worked examples, single commands, and the commands that are not well formed. -/

namespace Sys2Proof.Tests
open Sys2Proof Sys2Proof.Machine

set_option Elab.async false

/-- A step with a command in front is its exec on the state with the queue's rest. -/
theorem step_eq (s : State) (c : Instr) (r : List Instr) (h : s.pending = c :: r) : step s = exec c { s with pending := r } := by
  simp [step, h]

/-! ### States -/

/-- The state `d`, with every domain powered and the registers of `l` holding the words given. -/
def st (d : DevState) (l : List (Nat × Word)) : State :=
  { State.reset with sys := { Sys.reset with dev := d }, regs := Tab.setAll regReset [] ((Reg.PWR_DOM_STAT, 0x1FFF) :: l) }

/-- An image slot with nothing in it. -/
def slot (ok : Bool) : ImageSlot := ⟨ok, 1, ok, [], [], [], []⟩

/-- RUN with a trigger, a queue, and memory. -/
def busy : State :=
  { st .run [(Reg.SYS_MIN_ENG, 1)] with
      sys := { Sys.reset with dev := .run, triggers := [.degraded] }, cell := [(5, 7)],
      pending := [.tickBoundary, .servoStale] }

theorem busy_sound : busy.Sound :=
  ⟨⟨by decide +kernel, by decide +kernel, by decide +kernel, by decide +kernel, by decide +kernel, by decide +kernel⟩, by decide +kernel⟩

theorem reset_sound : State.reset.Sound :=
  ⟨⟨by decide +kernel, by decide +kernel, by decide +kernel, by decide +kernel, by decide +kernel, by decide +kernel⟩, by decide +kernel⟩

/-- The shadow of a twin pair in RUN, whose active unit has stopped. -/
def shadowed : State :=
  { st .run [(Reg.TWN_CTRL, 1), (Reg.TWN_STAT, 2)] with twin := { Twin.reset with lead := some .safestop } }

theorem shadowed_sound : shadowed.Sound :=
  ⟨⟨by decide +kernel, by decide +kernel, by decide +kernel, by decide +kernel, by decide +kernel, by decide +kernel⟩, by decide +kernel⟩

/-- FROZEN out of RUN. -/
def froz : State := { st .frozen [] with sys := { Sys.reset with dev := .frozen, frozen := some ⟨.run, 1, true, 0, false, false, none⟩ } }

theorem froz_sound : froz.Sound :=
  ⟨⟨by decide +kernel, by decide +kernel, by decide +kernel, by decide +kernel, by decide +kernel, by decide +kernel⟩, by decide +kernel⟩

/-- SELFTEST with 64 compared ticks, Flint in state `x` and the outcome of its test trip `ok`. -/
def tested (ok : Bool) (x : Word) : State :=
  { st .selftest [(Reg.FLT_STAT, x)] with
      saf := { Saf.reset with slate := { Slate.reset with count := 64 }, flint := { Flint.reset with tested := some ok } } }

/-- READY with one engine enabled and waiting for work, which is all that rule R27 then asks. -/
def ready1 : State := st .ready [(Reg.SYS_MIN_ENG, 1), (Reg.ENG_CTRL 0, 1), (Reg.ENG_STAT 0, 2), (Reg.SAF_STAT, 0x800), (Reg.FLT_STAT, 1)]

/-- `st` with words of task contexts. -/
def ctx (d : DevState) (l : List (Nat × Word)) (c : List (Nat × Word)) : State := { st d l with dlr := { Dlr.reset with ctx := c } }

/-- An engine with data to saturate on, an address at the end of its SRAM, and a full accumulator. -/
def eng1 : Eng :=
  { Eng.reset with
      d := [(0, 0x7FFFFFFF), (1, 5), (4, 0x10003)],
      ax := [(6, 0x1FFF8), (7, 0x1FFFC)],
      acc := [(0, 0x7FFFFFFFFFFFFFFFFFFF)], pc := 0x40 }

/-- Engine `e` executes, at the start of a bundle. -/
def run1 (e : Nat) : State := { st .run [(Reg.ENG_STAT e, 3)] with eng := [(e, eng1)] }

/-- Engine `e` executes task 5, whose context W0 and W15 are given; its state is `x`. -/
def task5 (e : Nat) (x w0 w15 : Word) : State :=
  { ctx .run [(Reg.ENG_CTRL e, 1), (Reg.ENG_STAT e, x)] [(80, w0), (95, w15)] with eng := [(e, { eng1 with task := some 5 })] }

/-- Flow 63 with two positions, of which task 5 holds the first and has completed. -/
def flow63 (w0 : Word) : State :=
  let s := ctx .run [(Reg.DLR_FLOW 63, w0)] [(87, 0x3F800)]
  { s with dlr := { s.dlr with tasks := [(5, { DlrTask.reset with round := true })] } }

/-- Member 0 of group 15 is axis 143, enabled and in state `x`; a master sample is in use. -/
def axis143 (x : Word) : State :=
  { st .run [(Reg.PRFG_CTRL 15, 0x11), (Reg.PRFG_MEMBER 15, 0xFFFFFF8F), (Reg.PRF_CTRL 143, 1), (Reg.PRF_STAT 143, x), (Reg.PRF_VMAX 143, 1),
      (Reg.PRF_STEP_CFG 143, 8), (Reg.PRF_HOME_CFG 143, 9)] with
    prof := { Prof.reset with axes := [(143, { Axis.reset with kept := true })], master := [(0, ⟨0, 65536, 0, 0⟩)] } }

/-- Axis 143, enabled and without STO, has exceeded its following error bound in five ticks. -/
def fe143 : State :=
  let s := st .run [(Reg.PRFG_CTRL 0, 1), (Reg.PRFG_MEMBER 0, 0xFFFFFF8F), (Reg.PRF_CTRL 143, 1), (Reg.SAF_GRP_STAT 0, 0), (Reg.LOOP_FE_MAX 143, 1),
    (Reg.LOOP_FE_MAX 143 + 4, 0), (Reg.LOOP_FERR 143, 0xFFFFFFFE), (Reg.LOOP_FERR 143 + 4, 0xFFFFFFFF), (Reg.LOOP_FE_N 143, 5)]
  { s with cell := Memory.set32 [] (s.loopBase 143 s.parity + 136) 5 }

/-- Axis 143 in homing step 1, whose debounce window of the home switch is open. -/
def window : State :=
  let s := axis143 10
  { s with prof := { s.prof with axes := [(143, { Axis.reset with homeWin := [⟨.home, 0, 1, false, none, none⟩] })] } }

/-- Member fields of one member. -/
def flds (f0 f1 : BitVec 64) : List MemberFields := [⟨f0, f1, 0, 0, 0, 0⟩]

/-- Safety group 15 in state `x`, with `n` standstill ticks in a row. -/
def group15 (x : Word) (n : Nat) : State :=
  let s := st .run [(Reg.SAF_GRP_STAT 15, x), (Reg.SAF_GRP 15, 0xFF00)]
  { s with saf := { s.saf with groups := [(15, { SafGroup.reset with still := n })] } }

/-- `st` with the safety logic's `x`. -/
def saf (d : DevState) (l : List (Nat × Word)) (x : Saf) : State := { st d l with saf := x }

/-- Safe input function 15, of kind 1 without a filter or a discrepancy time, at `x`; device time is 1 ns. -/
def in15 (x : SafIn) : State :=
  saf .run [(Reg.SAF_IN 15, 1), (Reg.SAF_IN 15 + 4, 0), (Reg.QTZ_TIME_NS, 1)] { Saf.reset with ins := [(15, x)] }

/-- One bit of a CRC on numbers. -/
def bitN (poly c : Nat) : Nat := if c % 2 = 1 then (c / 2) ^^^ poly else c / 2

/-- One byte of a CRC on numbers. -/
def byteN (poly c b : Nat) : Nat :=
  bitN poly (bitN poly (bitN poly (bitN poly (bitN poly (bitN poly (bitN poly (bitN poly (c ^^^ b))))))))

/-- A CRC on numbers that is computed byte by byte. -/
def crcN (poly : Nat) : List (BitVec 8) → Nat → Nat
  | [], c => c
  | b :: t, 0 => crcN poly t (byteN poly 0 b.toNat)
  | b :: t, n + 1 => crcN poly t (byteN poly (n + 1) b.toNat)

theorem crcBit_toNat (p c : BitVec 32) : (crcBit p c).toNat = bitN p.toNat c.toNat := by
  have e : c.getLsbD 0 = decide (c.toNat % 2 = 1) := by simp [BitVec.getLsbD, Nat.testBit_zero]
  unfold crcBit bitN
  rw [e]
  by_cases h : c.toNat % 2 = 1 <;> simp [h, Nat.shiftRight_one]

theorem crcByte_toNat (p c : BitVec 32) (b : BitVec 8) : (crcByte p c b).toNat = byteN p.toNat c.toNat b.toNat := by
  have e : (c ^^^ b.setWidth 32).toNat = c.toNat ^^^ b.toNat := by
    rw [BitVec.toNat_xor, BitVec.toNat_setWidth, Nat.mod_eq_of_lt (by omega)]
  simp only [crcByte, byteN, crcBit_toNat, e]

theorem crcN_cons (p : Nat) (b : BitVec 8) (t : List (BitVec 8)) (c : Nat) : crcN p (b :: t) c = crcN p t (byteN p c b.toNat) := by
  cases c <;> rfl

theorem crc_toNat (p : BitVec 32) (l : List (BitVec 8)) (c : BitVec 32) : (l.foldl (crcByte p) c).toNat = crcN p.toNat l c.toNat := by
  induction l generalizing c with
  | nil => rfl
  | cons b t ih => rw [List.foldl_cons, ih, crcByte_toNat, crcN_cons]

/-- A CRC by the computation on numbers. -/
theorem crcOver_eq (p : BitVec 32) (l : List (BitVec 8)) : crcOver p l = BitVec.ofNat 32 (crcN p.toNat l 0xFFFFFFFF) ^^^ 0xFFFFFFFF := by
  have h := crc_toNat p l 0xFFFFFFFF
  have g : l.foldl (crcByte p) 0xFFFFFFFF = BitVec.ofNat 32 (crcN p.toNat l 0xFFFFFFFF) := by
    apply BitVec.eq_of_toNat_eq
    rw [h, BitVec.toNat_ofNat]
    have : crcN p.toNat l 0xFFFFFFFF < 2 ^ 32 := by
      have := (l.foldl (crcByte p) 0xFFFFFFFF).isLt
      rw [h] at this; exact this
    exact (Nat.mod_eq_of_lt this).symm
  rw [crcOver, g]

/-- A safety image with empty tables and no safe output. -/
def img0 : SafetyImage :=
  ⟨[(Reg.SAF_DQ_SAFE, 0), (Reg.FLT_MASK, 0)], [], [], [], [], crc32 (tableBytes [] 4352), crc32 (tableBytes [] 1920), 0⟩

/-- READY with the seal open, a store in progress, and set 0 in its first slot. -/
def sets : State :=
  saf .ready [(Reg.SAF_STAT, 0x80)] { Saf.reset with storing := some ⟨0, 0, 0⟩, slots := [(0, ⟨img0, 0, 1, 0, true⟩)] }

theorem img0_ok : sets.imageOk img0 = true := by
  have h : ssmTablesOk img0 = true := by simp [ssmTablesOk, img0, Tab.setAll]
  unfold State.imageOk
  rw [h]
  simp only [Bool.true_and, State.putImage, State.pageCrc, tablesCrc, crc32, crcOver_eq]
  decide +kernel

theorem set0_valid : sets.validSet = some (0, ⟨img0, 0, 1, 0, true⟩) := by
  have h : sets.selected = (0, true) := by decide +kernel
  have g : sets.safSet 0 = some ⟨img0, 0, 1, 0, true⟩ := rfl
  simp only [State.validSet, h, g, img0_ok, Bool.and_self, if_true]

/-- A word that carries the signature that Flint expects. -/
theorem sig_ok (s : State) (h : s.saf.flint.seed = 0) : s.sigOk (Config.heartbeatSig 0 0 ++ 0#16) = true := by
  have e : (Config.heartbeatSig 0 0 ++ 0#16).toNat % 65536 = 0 := by
    rw [BitVec.toNat_append, Nat.shiftLeft_eq]; simp
  have f : (Config.heartbeatSig 0 0 ++ 0#16).extractLsb' 16 16 = Config.heartbeatSig 0 0 := by
    apply BitVec.eq_of_toNat_eq
    rw [BitVec.extractLsb'_toNat, BitVec.toNat_append]
    simpa [Nat.shiftLeft_shiftRight] using (Config.heartbeatSig 0 0).isLt
  unfold State.sigOk
  rw [h, e, f]; simp

/-- A heartbeat of tick bits 0 after one of 65535, in time and correctly signed, has no fault. -/
theorem hb_ok (s : State) (h : s.saf.flint.seed = 0) (p : s.effFld Reg.FLT_PERIOD 20 0 = 0) (b : s.saf.flint.bits = some 65535) :
    s.hbFault (Config.heartbeatSig 0 0 ++ 0#16) 0 = 0 := by
  have e : (Config.heartbeatSig 0 0 ++ 0#16).toNat % 65536 = 0 := by
    rw [BitVec.toNat_append, Nat.shiftLeft_eq]; simp
  simp [State.hbFault, sig_ok s h, p, b, e]

/-- Node 63 of port 3: W0 of its entry of the node table. -/
def node63 (w : Word) : Memory := Memory.set32 [] ((regReset (Reg.RNG_TBL_BASE 3)).toNat + 32 * 63) w

/-- Port 3 in state `ps`, both lanes UP, with what it keeps and the registers of `l`; node 63 is enabled, with safe data. -/
def port3 (ps : Word) (l : List (Nat × Word)) (x : RingPort) : State :=
  { st .run ([(Reg.RNG_STAT 3, ps), (laneReg 3 .a, 4), (laneReg 3 .b, 4)] ++ l) with ring := [(3, x)], cell := node63 5 }

/-- Port 3 in INIT, whose node 63 is polled; the receive log is full. -/
def poll3 : State := { port3 3 [(Reg.RNG_RXLOG_TAIL 3, 1)] RingPort.reset with ring := [(3, { RingPort.reset with polled := some 63 })], cell := node63 1 }

/-- Lane A of port 3 in state `x`. -/
def laneA (x : Word) (r : RingPort) : State := port3 0 [(laneReg 3 .a, x), (Reg.RNG_CTRL 3, 1)] r

/-- A transfer of 256 bytes to node 63 waits at the head of port 3's list; the receive log is full. -/
def bulk3 : State :=
  let b := (regReset (Reg.RNG_BULK_BASE 3)).toNat
  { port3 4 [(Reg.RNG_BULK_TAIL 3, 1), (Reg.RNG_RXLOG_TAIL 3, 1)] RingPort.reset with
    cell := Memory.set32 (Memory.set32 [] b 63) (b + 8) 256 }

/-- Plant port 1 enabled, for frames of at most 1518 bytes, with `l` besides. -/
def eth1 (l : List (Nat × Word)) : State := st .run ((Reg.ETH_CTRL 1, 0x5EE01) :: l)

/-- Queue 7 of plant port 1 holds a frame to launch at time 9. -/
def tx7 : State :=
  let d := (regReset (Reg.ETH_RING_BASE 1)).toNat + 0x10000 + 0x2000 * 7
  { eth1 [(Reg.ETH_TXR_TAIL 1 7, 1), (Reg.ETH_TXQ 1, 0x80)] with cell := Memory.set32 (Memory.set32 [] (d + 4) 0x40000) (d + 8) 9 }

/-- An Ethernet frame of 60 bytes with the given EtherType and first payload bytes. -/
def frame (ty : List (BitVec 8)) (ok : Bool) : EthFrame := ⟨List.replicate 12 0 ++ ty ++ List.replicate (48 - ty.length) 0, ok, 0⟩

/-- A twin with TWN_CTRL and TWN_STAT as given. -/
def twn (d : DevState) (c x : Word) (l : List (Nat × Word)) (t : Twin) : State :=
  { st d ([(Reg.TWN_CTRL, c), (Reg.TWN_STAT, x)] ++ l) with twin := t }

/-- The field die with `f`. -/
def fld (l : List (Nat × Word)) (f : Field) : State := { st .run l with field := f }

/-- The field sample of a quiet machine. -/
def quiet : FieldSample := ⟨List.replicate 32 0, 0, 0, 0, List.replicate 16 0, 24000, 24000⟩

/-- A descriptor that asks for nothing, with its check word. -/
def desc0 : List Word := List.replicate 31 0 ++ [crc32c ((List.replicate 31 0).flatMap wordBytes)]

theorem desc0_crc : crc32c ((desc0.take 31).flatMap wordBytes) = desc0.getD 31 0 := by
  have h : desc0.take 31 = List.replicate 31 0 := by simp [desc0]
  rw [h]; simp [desc0]

/-- Places for the regions of port 3. -/
def regions3 : List (Nat × Word) :=
  [(Reg.RNG_TBL_BASE 3, 0x1600000), (Reg.RNG_SOFT_BASE0 3, 0x1620000), (Reg.RNG_SOFT_BASE1 3, 0x1640000),
   (Reg.RNG_RXLOG_BASE 3, 0x1660000), (Reg.RNG_BULK_BASE 3, 0x1680000)]

/-! ### Witnesses: the hypotheses of each statement can be met -/

theorem witness_PageInterruptsAndLocks :
    (∃ (s : State) (ag : Agent) (p : Nat) (_v : Word), s.writable ag p = true) ∧
    (∃ (s : State) (ag : Agent) (p : Nat) (_v : Word), s.writable ag p = true) ∧
    (∃ (s : State) (ag : Agent) (p : Nat) (_v : Word), s.writable ag p = true) ∧
    (∃ (s : State) (ag : Agent) (p : Nat) (_v : Word), s.writable ag p = true) :=
  ⟨⟨st .run [], .host, Page.QTZ, 0xFFFFFFFF, by decide +kernel⟩,
   ⟨st .run [], .host, Page.QTZ, 0xFFFFFFFF, by decide +kernel⟩,
   ⟨st .run [], .host, Page.QTZ, 0xFFFFFFFF, by decide +kernel⟩,
   ⟨st .run [], .host, Page.QTZ, 0xFFFFFFFF, by decide +kernel⟩⟩

theorem witness_QuartzCommands :
    (∃ (s : State) (ag : Agent) (v : BitVec 64), s.writable ag Page.QTZ = true ∧ incOk v.toNat = true) ∧
    (∃ (s : State) (ag : Agent) (v : BitVec 64), s.writable ag Page.QTZ = true ∧ incOk v.toNat = false) ∧
    (∃ (s : State) (ag : Agent), s.writable ag Page.QTZ = true ∧ s.configurable = true) ∧
    (∃ (s : State) (ag : Agent), s.writable ag Page.QTZ = true ∧ s.configurable = false) ∧
    (∃ (s : State) (ag : Agent) (v : Word), s.cfgWritable ag Page.QTZ = true ∧ s.configurable = true ∧ v.toNat % 2097152 < periodNs (s.fld
      Reg.QTZ_TICK 2 0)) ∧
    (∃ (s : State), s.gridRuns = true ∧ s.bit Reg.QTZ_STAT 7 = false ∧ s.qtz.noSupervise = false) ∧
    (∃ (s : State), s.clocked = true ∧ s.fld Reg.QTZ_SYNC_TMO 23 0 ≠ 0 ∧ s.fld Reg.QTZ_SYNC_TMO 23 0 ≤ s.qtz.sinceInc) :=
  ⟨⟨st .run [], .host, 0x3FF7CED92, by decide +kernel⟩,
   ⟨st .run [], .core 3, 0x3FF7CED91, by decide +kernel⟩,
   ⟨st .ready [], .host, by decide +kernel⟩,
   ⟨st .run [], .host, by decide +kernel⟩,
   ⟨st .ready [(Reg.QTZ_TICK, 0)], .host, 62499, by decide +kernel⟩,
   ⟨st .run [], by decide +kernel⟩,
   ⟨{ st .run [(Reg.QTZ_SYNC_TMO, 5)] with qtz := { Quartz.reset with sinceInc := 5 } }, by decide +kernel⟩⟩

theorem witness_StateRequests :
    (∃ (s : State) (ag : Agent), s.writable ag Page.SYS = true ∧ s.sys.dev = .ready ∧ s.runCause = 0) ∧
    (∃ (s : State) (ag : Agent), s.writable ag Page.SYS = true ∧ s.sys.dev = .ready ∧ s.runCause ≠ 0) ∧
    (∃ (s : State) (ag : Agent), s.writable ag Page.SYS = true ∧ (s.sys.dev = .boot ∨ s.sys.dev = .selftest)) ∧
    (∃ (s : State) (ag : Agent), s.writable ag Page.SYS = true ∧ s.sys.dev = .run) ∧
    (∃ (s : State) (ag : Agent), s.writable ag Page.SYS = true ∧ s.sys.dev = .safestop ∧ s.causeHeld = false ∧ s.allSto = true) ∧
    (∃ (s : State) (ag : Agent), s.writable ag Page.SYS = true ∧ s.sys.dev = .safestop ∧ (s.causeHeld = true ∨ s.allSto = false)) :=
  ⟨⟨ready1, .host, by decide +kernel⟩,
   ⟨st .ready [], .host, by decide +kernel⟩,
   ⟨st .boot [], .host, by decide +kernel, .inl (by decide +kernel)⟩,
   ⟨st .run [], .host, by decide +kernel⟩,
   ⟨st .safestop ((List.range 16).map (fun g => (Reg.SAF_GRP_STAT g, 4))), .host, by decide +kernel⟩,
   ⟨st .safestop [(Reg.SYS_STOP_CAUSE, 0x10001)], .host, by decide +kernel, by decide +kernel, .inl (by decide +kernel)⟩⟩

theorem witness_Watchdog :
    (∃ (s : State) (ag : Agent), s.writable ag Page.SYS = true) ∧
    (∃ (s : State) (ag : Agent) (v : Word), s.writable ag Page.SYS = true ∧ v ≠ 0xA5) ∧
    (∃ (s : State), s.ticking = true ∧ s.bit Reg.SYS_WDT 0 = true) ∧
    (∃ (s : State), s.ticking = true ∧ s.bit Reg.SYS_WDT 0 = true ∧ s.sys.wdtHalf = true) :=
  ⟨⟨st .run [], .host, by decide +kernel⟩,
   ⟨st .run [], .host, 0xA4, by decide +kernel⟩,
   ⟨st .run [(Reg.SYS_WDT, 1)], by decide +kernel⟩,
   ⟨{ st .run [(Reg.SYS_WDT, 1)] with sys := { Sys.reset with dev := .run, wdtHalf := true } }, by decide +kernel⟩⟩

theorem witness_Resets :
    (∃ (s : State), s.sys.dev ≠ .off) ∧
    (∃ (s : State) (ag : Agent), s.writable ag Page.SYS = true) ∧
    (∃ (s : State) (ag : Agent) (key : BitVec 16), s.writable ag Page.SYS = true ∧ key ≠ 0xC128) ∧
    (∃ (s : State) (_rail : Fin 13) (_mv : BitVec 16), s.sys.dev ≠ .off) ∧
    (∃ (s : State) (_mv : List (BitVec 16)), s.sys.dev = .off) ∧
    (∃ (s : State) (_rail : Fin 13) (_mv : BitVec 16), s.clocked = true) :=
  ⟨⟨st .run [], by decide +kernel⟩,
   ⟨st .run [], .host, by decide +kernel⟩,
   ⟨st .run [], .host, 0xC129, by decide +kernel⟩,
   ⟨st .run [], 12, 0, by decide +kernel⟩,
   ⟨{ State.reset with sys := { Sys.reset with dev := .off } }, [], by decide +kernel⟩,
   ⟨st .boot [], 6, 3600, by decide +kernel⟩⟩

theorem witness_BootAndSelftest :
    (∃ (s : State) (inp : BootInputs), s.sys.dev = .reset ∧ inp.flashOk = false) ∧
    (∃ (s : State) (inp : BootInputs), s.sys.dev = .reset ∧ inp.flashOk = true ∧ dramFit inp = true ∧ inp.a.header = true ∧ inp.a.crcOk = true ∧
      inp.b.version.toNat ≤ inp.a.version.toNat ∧ inp.a.pages.any badRecord = false ∧ s.Sound) ∧
    (∃ (s : State) (pass : BitVec 8), s.sys.dev = .selftest ∧ pass = 255 ∧ s.saf.slate.failed = false ∧ s.selftestOver = true ∧
      s.saf.flint.tested = some true) ∧
    (∃ (s : State) (pass : BitVec 8), s.sys.dev = .selftest ∧ pass = 255 ∧ s.saf.slate.failed = false ∧ s.selftestOver = false) ∧
    (∃ (s : State) (pass : BitVec 8), s.sys.dev = .selftest ∧ pass = 255 ∧ s.saf.slate.failed = false ∧ s.selftestOver = true ∧
      s.saf.flint.tested = some false) ∧
    (∃ (s : State) (pass : BitVec 8), s.sys.dev = .selftest ∧ pass ≠ 255 ∧ s.saf.slate.failed = false ∧ s.saf.flint.tested ≠ some false) :=
  ⟨⟨State.reset, ⟨false, false, true, slot true, slot true, 4096⟩, by decide +kernel⟩,
   ⟨State.reset, ⟨true, true, true, slot true, slot true, 4096⟩, by decide +kernel, by decide +kernel, by decide +kernel, by decide +kernel,
    by decide +kernel, by decide +kernel, by decide +kernel, reset_sound⟩,
   ⟨tested true 1, 255, by decide +kernel⟩,
   ⟨st .selftest [], 255, by decide +kernel⟩,
   ⟨tested false 0, 255, by decide +kernel⟩,
   ⟨st .selftest [], 254, by decide +kernel⟩⟩

theorem witness_FreezeAndReadout :
    (∃ (s : State) (ag : Agent), s.writable ag Page.SYS = true) ∧
    (∃ (s : State), s.clocked = true) ∧
    (∃ (s : State), s.sys.dev = .frozen ∧ s.bit Reg.SYS_FRZ_CFG 0 = true ∧ s.bit Reg.DBG_STAT 0 = false) ∧
    (∃ (s : State) (_bytes : BitVec 64) (_ue : Word), s.bit Reg.DBG_STAT 0 = true) ∧
    (∃ (s : State) (f : Freeze) (_inp : BootInputs), s.sys.frozen = some f ∧ s.bit Reg.DBG_STAT 0 = false) :=
  ⟨⟨st .run [], .host, by decide +kernel⟩,
   ⟨st .boot [], by decide +kernel⟩,
   ⟨st .frozen [(Reg.SYS_FRZ_CFG, 1)], by decide +kernel⟩,
   ⟨st .frozen [(Reg.DBG_STAT, 1)], 8, 0, by decide +kernel⟩,
   ⟨{ st .frozen [] with sys := { Sys.reset with dev := .frozen, frozen := some ⟨.run, 1, true, 0, false, false, none⟩ } }, ⟨.run, 1, true, 0,
    false, false, none⟩, ⟨true, true, true, slot true, slot true, 4096⟩, by decide +kernel⟩⟩

theorem witness_PowerCommands :
    (∃ (s : State) (ag : Agent) (q point : Fin 4), s.writable ag Page.PWR = true ∧ s.pwr.change = none ∧ s.domOn (3 + q.val) = true ∧ point.val
      ≠ s.pointOf q.val ∧ limitsOk (withBits s.pointsNext (2 * q.val + 1) (2 * q.val) point.val) s.appcNext = true ∧ s.tooHot (3 + q.val) =
      false) ∧
    (∃ (s : State) (ag : Agent) (_q _point : Fin 4) (c : PointChange), s.writable ag Page.PWR = true ∧ s.pwr.change = some c) ∧
    (∃ (s : State) (ag : Agent) (f : Fin 8), s.writable ag Page.PWR = true ∧ s.pwr.appcPend = none ∧ s.pwr.change = none ∧ f.val ≠ s.appcOf ∧
      f.val ≤ 4 ∧ limitsOk s.pointsNext f.val = true ∧ s.tooHot 8 = false) ∧
    (∃ (s : State) (q : Fin 4) (mv : BitVec 16) (c : PointChange), s.clocked = true ∧ s.pwr.change = some c ∧ c.quad = q.val ∧ c.begun = true ∧
      settledAt c.newPoint mv.toNat = true ∧ c.oldPoint < c.newPoint) ∧
    (∃ (s : State) (q : Fin 4) (c : PointChange), s.clocked = true ∧ s.pwr.change = some c ∧ c.quad = q.val ∧ c.begun = true ∧ c.settled = false
      ∧ c.newPoint < c.oldPoint ∧ c.newPoint < 4) ∧
    (∃ (s : State) (ag : Agent), s.writable ag Page.PWR = true ∧ s.domOn 7 = true ∧ s.bit Reg.SOL_CTRL 0 = false) ∧
    (∃ (s : State) (ag : Agent), s.writable ag Page.PWR = true ∧ s.domOn 7 = true ∧ s.bit Reg.SOL_CTRL 0 = true) ∧
    (∃ (s : State) (ag : Agent), s.writable ag Page.PWR = true ∧ s.domOn 7 = false) ∧
    (∃ (s : State) (k : Fin 8), s.clocked = true ∧ s.domOn (pllDomain k.val) = true) ∧
    (∃ (s : State) (_r : Fin 2), s.clocked = true) :=
  ⟨⟨st .run [], .host, 0, 1, by decide +kernel⟩,
   ⟨{ st .run [] with pwr := { Pwr.reset with change := some ⟨0, 2, 1, false, false⟩ } }, .host, 0, 3, ⟨0, 2, 1, false, false⟩,
    by decide +kernel⟩,
   ⟨st .run [], .host, 2, by decide +kernel⟩,
   ⟨{ st .run [] with pwr := { Pwr.reset with change := some ⟨3, 2, 3, true, false⟩ } }, 3, 815, ⟨3, 2, 3, true, false⟩, by decide +kernel⟩,
   ⟨{ st .run [] with pwr := { Pwr.reset with change := some ⟨0, 2, 0, true, false⟩ } }, 0, ⟨0, 2, 0, true, false⟩, by decide +kernel⟩,
   ⟨st .run [], .host, by decide +kernel⟩,
   ⟨st .run [(Reg.SOL_CTRL, 1)], .host, by decide +kernel⟩,
   ⟨{ st .run [] with regs := [(Reg.PWR_DOM_STAT, 0x1F7F)] }, .host, by decide +kernel⟩,
   ⟨st .run [], 7, by decide +kernel⟩,
   ⟨st .run [], 1, by decide +kernel⟩⟩

theorem witness_PhaseCommands :
    (∃ (s : State) (ph : Phase) (_ms : List CodeMismatch), ph ≠ .e ∧ s.phasesRun = true ∧ s.begun ph = false ∧ s.isSealed ph = false) ∧
    (∃ (s : State) (ph : Phase) (ofs : Nat), ph ≠ .e ∧ s.phasesRun = true ∧ s.begun ph = true ∧ s.reported ph = false ∧ s.phaseReady ph = true ∧
      ofs < 2 ^ 32) ∧
    (∃ (s : State) (ph : Phase) (_g : BitVec 16) (_cpl : Bool), ph ≠ .e ∧ s.phasesRun = true ∧ s.isSealed ph = false ∧ s.ended ph = true) ∧
    (∃ (s : State) (ph : Phase) (_g : BitVec 16) (_cpl : Bool), ph ≠ .e ∧ s.phasesRun = true ∧ s.isSealed ph = false ∧ s.ended ph = false) ∧
    (∃ (s : State) (_g : BitVec 16) (_cpl : Bool), s.ticking = true ∧ s.bit Reg.QTZ_STAT 7 = true ∧ s.qtz.beat = false) ∧
    (∃ (s : State) (g : Fin 16), s.ticking = true ∧ s.qtz.ovr2P.getLsbD g.val = true) ∧
    (∃ (s : State) (g : Fin 16), s.ticking = true ∧ s.qtz.ovr2L.getLsbD g.val = true) ∧
    (∃ (s : State), s.ticking = true ∧ s.begun .e = false) :=
  ⟨⟨st .run [], .c, [], by decide +kernel⟩,
   ⟨{ st .run [] with qtz := { Quartz.reset with begun := 1 } }, .g, 0, by decide +kernel⟩,
   ⟨{ st .run [] with qtz := { Quartz.reset with ended := 32 } }, .c, 0, true, by decide +kernel⟩,
   ⟨st .run [], .s, 0, false, by decide +kernel⟩,
   ⟨st .run [(Reg.QTZ_STAT, 0x80)], 0, true, by decide +kernel⟩,
   ⟨{ st .run [] with qtz := { Quartz.reset with ovr2P := 0x8000 } }, 15, by decide +kernel⟩,
   ⟨{ st .run [] with qtz := { Quartz.reset with ovr2L := 1 } }, 0, by decide +kernel⟩,
   ⟨st .run [], by decide +kernel⟩⟩

theorem witness_TickBoundaryState :
    (∃ (s : State), s.Sound ∧ s.sys.dev.live = true ∧ s.shadow = false) ∧
    (∃ (s : State), s.Sound ∧ s.sys.dev.live = true ∧ s.shadow = true ∧ s.sys.dev ≠ .boot ∧ s.sys.dev ≠ .selftest) ∧
    (∃ (s : State) (f : Freeze), s.Sound ∧ s.sys.dev = .frozen ∧ s.sys.frozen = some f ∧ f.resume = false) :=
  ⟨⟨busy, busy_sound, by decide +kernel⟩,
   ⟨shadowed, shadowed_sound, by decide +kernel⟩,
   ⟨froz, ⟨.run, 1, true, 0, false, false, none⟩, froz_sound, by decide +kernel⟩⟩

theorem witness_EveryCommandCompletes :
    ∃ (_c : Instr) (s : State), s.Sound :=
  ⟨.resetN, busy, busy_sound⟩

theorem witness_StepKeepsSound :
    ∃ (s : State), s.Sound :=
  ⟨busy, busy_sound⟩

theorem witness_DeviceStateMoves :
    ∃ (s t : State), s.Sound ∧ step s = .next t :=
  ⟨busy, _, busy_sound, step_eq busy .tickBoundary [.servoStale] rfl⟩

theorem witness_EventRing :
    (∃ (s : State) (r : Raising), s.clocked = true ∧ s.evt.raisings = [r] ∧ r.alarm = false ∧ s.evt.slots.any (fun x => x.page == r.page) =
      false) ∧
    (∃ (s : State) (page : Nat) (x : EvSlot), s.clocked = true ∧ s.evt.slots.find? (fun y => y.page == page) = some x ∧ s.evrFull = false ∧
      s.evt.ringPend = false ∧ s.evrLen ≤ 16384 ∧ s.integ.ue = [] ∧ inCell ((s.eff Reg.EVT_EVR_BASE).toNat + 32 * s.fld Reg.EVT_EVR_HEAD 13 0)
      32 = true) ∧
    (∃ (s : State) (ag : Agent) (_v : Word), s.writable ag Page.EVT = true) :=
  ⟨⟨{ st .run [] with evt := { Evt.reset with raisings := [⟨Page.QTZ, 5, false, 0, 9⟩] } }, ⟨Page.QTZ, 5, false, 0, 9⟩, by decide +kernel⟩,
   ⟨{ st .run [] with evt := { Evt.reset with slots := [⟨Page.QTZ, false, 32, 1, 0, 9, 9⟩] } }, Page.QTZ, ⟨Page.QTZ, false, 32, 1, 0, 9, 9⟩,
    by decide +kernel⟩,
   ⟨st .run [], .host, 5, by decide +kernel⟩⟩

theorem witness_AlarmAcknowledge :
    (∃ (s : State) (ag : Agent) (i : Fin 1024) (n : Word), s.writable ag Page.EVT = true ∧ s.almLive i.val = true ∧ s.cell32 (s.almAddr i.val +
      32) = n.toNat ∧ s.evt.held = [] ∧ s.evt.nodeHeld = [] ∧ s.integ.ue = [] ∧ inCell (s.almAddr i.val) 64 = true) ∧
    (∃ (s : State) (ag : Agent) (i : Fin 1024) (n : Word), s.writable ag Page.EVT = true ∧ (s.almLive i.val = false ∨ s.cell32 (s.almAddr i.val
      + 32) ≠ n.toNat)) :=
  ⟨⟨{ st .run [] with cell := Memory.set32 (Memory.set32 [] (0x17C0000 + 32) 3) (0x17C0000 + 36) 1 }, .host, 0, 3, by decide +kernel⟩,
   ⟨st .run [], .host, 1023, 0, by decide +kernel, .inl (by decide +kernel)⟩⟩

theorem witness_Traces :
    (∃ (s : State) (n : Fin 4) (_typ : BitVec 8) (_w4 _w5 _w6 _w7 : Word), s.clocked = true ∧ s.traceOn (0x40 + n.val) = true ∧ (s.fifo (0x40 +
      n.val)).dropped = 0 ∧ (s.fifo (0x40 + n.val)).recs.length < 16) ∧
    (∃ (s : State) (src : Fin 128) (r : List Word) (rest : List (List Word)), s.clocked = true ∧ (s.fifo src.val).recs = r :: rest ∧ (s.fld
      Reg.EVT_TRC_WR 25 0 + 32) % traceLen ≠ s.fld Reg.EVT_TRC_RD 25 0) ∧
    (∃ (s : State) (ag : Agent) (_v : Word), s.writable ag Page.EVT = true) :=
  ⟨⟨st .run [(Reg.EVT_TRC_EN 2, 8)], 3, 0, 1, 2, 3, 4, by decide +kernel⟩,
   ⟨{ st .run [(Reg.EVT_TRC_RD, 64)] with evt := { Evt.reset with fifos := [⟨127, [[1, 2, 3, 4, 5, 6, 7, 8]], 0, 0, 0⟩] } }, 127, [1, 2, 3, 4,
    5, 6, 7, 8], [], by decide +kernel⟩,
   ⟨st .run [], .host, 64, by decide +kernel⟩⟩

theorem witness_CorrectedErrors :
    (∃ (s : State) (m : Fin 256) (a : Word) (_b : Fin 72), s.clocked = true ∧ memHas m.val a.toNat = true ∧ m.val ≠ 0xE0 ∧ s.ueIn m.val (a.toNat
      / 8 * 8) 1 = false) ∧
    (∃ (s : State) (m : Fin 256) (a : Word), (m.val, a.toNat / 8 * 8) ∈ s.integ.wb) ∧
    (∃ (s : State) (m : Fin 256) (a : Word), (m.val, a.toNat / 8 * 8) ∈ s.integ.wb) ∧
    (∃ (s : State) (a : Word) (_b : Fin 72), s.clocked = true ∧ s.domOn 11 = true ∧ s.ueIn 0xE0 (a.toNat / 64 * 64) 1 = false) :=
  ⟨⟨st .run [], 0, 0, 71, by decide +kernel⟩,
   ⟨{ st .run [] with integ := { Integ.reset with wb := [(0, 8)] } }, 0, 12, by decide +kernel⟩,
   ⟨{ st .run [] with integ := { Integ.reset with wb := [(0, 8)] } }, 0, 8, by decide +kernel⟩,
   ⟨st .run [], 64, 0, by decide +kernel⟩⟩

theorem witness_FabricAndCrossings :
    (∃ (s : State) (_l : Fin 256) (n : Fin 4), s.clocked = true ∧ n.val < 3) ∧
    (∃ (s : State) (_l : Fin 256), s.clocked = true) ∧
    (∃ (s : State) (_x _y : Fin 16), s.clocked = true) ∧
    (∃ (s : State) (_x _y : Fin 16) (_lost : Nat), s.clocked = true) ∧
    (∃ (s : State) (_x : RegionTemps), s.clocked = true) :=
  ⟨⟨st .run [], 255, 2, by decide +kernel⟩,
   ⟨st .run [], 0, by decide +kernel⟩,
   ⟨st .run [], 0, 15, by decide +kernel⟩,
   ⟨st .run [], 15, 0, 3, by decide +kernel⟩,
   ⟨st .run [], ⟨3000, 3500, 3000, 3000, 3000, 3000, 3000⟩, by decide +kernel⟩⟩

theorem witness_DealerSoftware :
    (∃ (s : State) (ag : Agent) (v : Word), s.writable ag Page.DLR = true ∧ s.running = false ∧ s.taskState (bitsOf v.toNat 8 0) = tsDormant ∧
      s.ready (bitsOf v.toNat 8 0) = false) ∧
    (∃ (s : State) (ag : Agent) (v : Word), s.writable ag Page.DLR = true ∧ s.running = false ∧ s.taskState (bitsOf v.toNat 8 0) = tsDormant ∧
      s.ready (bitsOf v.toNat 8 0) = true) ∧
    (∃ (s : State) (ag : Agent) (v : Word), s.writable ag Page.DLR = true ∧ s.running = false ∧ s.taskState (bitsOf v.toNat 8 0) = tsArmed ∧
      s.ctxF (bitsOf v.toNat 8 0) 7 17 17 = 0) ∧
    (∃ (s : State) (ag : Agent) (v : Word), s.writable ag Page.DLR = true ∧ s.running = false ∧ s.taskState (bitsOf v.toNat 8 0) = tsRunning) ∧
    (∃ (s : State) (ag : Agent) (_v : Word), s.writable ag Page.DLR = true ∧ s.running = false ∧ s.dlr.queue.length < 64) ∧
    (∃ (s : State) (ag : Agent) (_v : Word), s.writable ag Page.DLR = true ∧ s.running = false) ∧
    (∃ (s : State) (ag : Agent) (w : Fin 16) (_v : Word), s.writable ag Page.DLR = true ∧ s.configurable = true ∧ w.val ≠ 2 ∧ w.val ≠ 15 ∧
      s.taskState (s.fld Reg.DLR_CTX_SEL 8 0) = tsDormant) ∧
    (∃ (s : State) (ag : Agent) (v : Word), s.writable ag Page.DLR = true ∧ s.flowPhase (bitsOf v.toNat 5 0) = 7) :=
  ⟨⟨st .ready [], .host, 0x1FF, by decide +kernel⟩,
   ⟨ctx .ready [] [(8177, 1), (8178, 1)], .host, 0x1FF, by decide +kernel⟩,
   ⟨ctx .ready [] [(8191, 0x7F01)], .core 0, 0x1FF, by decide +kernel⟩,
   ⟨ctx .ready [] [(15, 0x7F03)], .host, 0, by decide +kernel⟩,
   ⟨st .ready [], .host, 0xF81FF, by decide +kernel⟩,
   ⟨st .ready [], .host, 0, by decide +kernel⟩,
   ⟨st .ready [], .host, 14, 0xFFFFFFFF, by decide +kernel⟩,
   ⟨st .run [(Reg.DLR_FLOW 63, 0x380000)], .host, 63, by decide +kernel⟩⟩

theorem witness_DealerCycles :
    (∃ (s : State) (k f : Nat), s.clocked = true ∧ s.dlr.queue = [(k, f)] ∧ s.dlr.stalled = [] ∧ (s.ctxW k 2).getLsbD f = false ∧ f < 32 ∧
      s.taskState k ≠ tsArmed) ∧
    (∃ (s : State) (q : Fin 4) (e k : Nat), s.clocked = true ∧ k < 512 ∧ (((List.range 16).map (fun i => 16 * q.val + i)).filter (fun e =>
      s.engWaiting e)).find? (fun e => (s.homeFirst false e).isSome) = some e ∧ s.homeFirst false e = some k ∧ s.ueIn 0xA2 (64 * k) 64 = false ∧
      s.taskState k = tsReady ∧ s.ctxF k 7 10 0 = 0) ∧
    (∃ (s : State) (x : StageIn) (rest : List StageIn), s.clocked = true ∧ s.dlr.stage = x :: rest ∧ s.integ.ue = [] ∧ inCell (s.ctxW x.task
      6).toNat (64 * min 1024 (s.ctxF x.task 7 10 0)) = true) ∧
    (∃ (s : State) (k : Fin 512), s.clocked = true ∧ s.queued k.val = true ∧ s.ctxF k.val 0 30 30 = 1 ∧ s.taskHome k.val ≠ 0x7F) ∧
    (∃ (s : State) (f : Fin 64) (k : Nat), s.clocked = true ∧ s.flowLive f.val = true ∧ s.bit (Reg.DLR_FLOW_STAT f.val) 15 = false ∧ s.flowNext
      f.val + 1 < s.flowLen f.val ∧ s.flowHolder f.val (s.flowNext f.val) = some k ∧ (s.taskRt k).round = true ∧ s.taskState k ≠ tsCancelled ∧
      s.taskState k ≠ tsFaulted ∧ s.flowF f.val 0 2 1 = 0) ∧
    (∃ (s : State) (f : Fin 64) (k : Nat), s.clocked = true ∧ s.flowLive f.val = true ∧ s.bit (Reg.DLR_FLOW_STAT f.val) 15 = false ∧ s.flowNext
      f.val + 1 < s.flowLen f.val ∧ s.flowHolder f.val (s.flowNext f.val) = some k ∧ (s.taskRt k).round = true ∧ s.taskState k ≠ tsCancelled ∧
      s.taskState k ≠ tsFaulted ∧ s.flowF f.val 0 2 1 = 1 ∧ s.integ.ue = [] ∧ inCell (s.ctxW k 8).toNat (8 * (s.flowF f.val 0 8 3 + 1)) = true ∧
      inCell (s.flowDst f.val + 8 * (s.flowF f.val 0 8 3 + 1) * s.flowNext f.val) (8 * (s.flowF f.val 0 8 3 + 1)) = true ∧ s.sealedAt (s.flowDst
      f.val + 8 * (s.flowF f.val 0 8 3 + 1) * s.flowNext f.val) (8 * (s.flowF f.val 0 8 3 + 1)) = false) :=
  ⟨⟨{ st .run [] with dlr := { Dlr.reset with queue := [(511, 31)] } }, 511, 31, by decide +kernel⟩,
   ⟨ctx .run [(Reg.ENG_CTRL 63, 1), (Reg.ENG_STAT 63, 2)] [(80, 0x383F0000), (95, 0x7F02)], 3, 63, 5, by decide +kernel⟩,
   ⟨{ st .run [] with dlr := { Dlr.reset with stage := [⟨0, 5, false⟩] } }, ⟨0, 5, false⟩, [], by decide +kernel⟩,
   ⟨ctx .run [] [(80, 0x783F0000), (95, 0x7F02)], 5, by decide +kernel⟩,
   ⟨flow63 0x380401, 63, 5, by decide +kernel⟩,
   ⟨flow63 0x380403, 63, 5, by decide +kernel⟩⟩

theorem witness_CoreThreads :
    (∃ (s : State) (_n : Fin 4), s.clocked = true) ∧
    (∃ (s : State) (n m : Fin 4), s.clocked = true ∧ m ≠ n) ∧
    (∃ (s : State) (n : Fin 4), s.clocked = true ∧ n.val ∈ s.dlr.coreWait ∧ s.fld Reg.DLR_CORE_TMO 23 0 ≠ 0) ∧
    (∃ (s : State) (n : Fin 4) (v : Word), s.writable (.core n) Page.DLR = true ∧ (n.val, bitsOf v.toNat 8 0) ∈ s.dlr.coreHeld ∧ s.taskState
      (bitsOf v.toNat 8 0) = tsRunning ∧ s.ctxF (bitsOf v.toNat 8 0) 15 15 15 = 0 ∧ s.ctxF (bitsOf v.toNat 8 0) 9 14 14 = 0 ∧ s.taskPhase
      (bitsOf v.toNat 8 0) = 2) ∧
    (∃ (s : State) (n : Fin 4) (v : Word), s.writable (.core n) Page.DLR = true ∧ (n.val, bitsOf v.toNat 8 0) ∈ s.dlr.coreHeld ∧ s.taskState
      (bitsOf v.toNat 8 0) = tsRunning ∧ s.ctxF (bitsOf v.toNat 8 0) 15 15 15 = 0 ∧ s.taskPhase (bitsOf v.toNat 8 0) = 7) ∧
    (∃ (s : State) (ag : Agent) (n : Fin 4) (v : Word), s.writable ag Page.DLR = true ∧ (ag ≠ .core n ∨ (n.val, bitsOf v.toNat 8 0) ∉
      s.dlr.coreHeld)) ∧
    (∃ (s : State) (ag : Agent) (n : Fin 4) (v : Word), s.writable ag Page.DLR = true ∧ (ag ≠ .core n ∨ (n.val, bitsOf v.toNat 8 0) ∉
      s.dlr.coreHeld)) :=
  ⟨⟨st .run [], 3, by decide +kernel⟩,
   ⟨st .run [], 3, 0, by decide +kernel⟩,
   ⟨{ st .run [(Reg.DLR_CORE_TMO, 1)] with dlr := { Dlr.reset with coreWait := [3] } }, 3, by decide +kernel⟩,
   ⟨{ st .run [] with dlr := { Dlr.reset with ctx := [(80, 0x10000000), (95, 0x7F03)], coreHeld := [(3, 5)] } }, 3, 5, by decide +kernel⟩,
   ⟨{ st .run [] with dlr := { Dlr.reset with ctx := [(80, 0x38000000), (95, 0x7F03)], coreHeld := [(3, 5)] } }, 3, 5, by decide +kernel⟩,
   ⟨st .run [], .host, 3, 5, by decide +kernel⟩,
   ⟨{ st .run [] with dlr := { Dlr.reset with coreHeld := [(3, 6)] } }, .core 3, 3, 5, by decide +kernel⟩⟩

theorem witness_EngineRegisterOps :
    (∃ (s : State) (e : Fin 64) (g : Eng) (_b : Bool) (_d _r : Fin 32), s.freshBundle e.val = true ∧ s.engOf e.val = g) ∧
    (∃ (s : State) (e : Fin 64) (g : Eng) (_b : Bool) (_d _r : Fin 32), s.freshBundle e.val = true ∧ s.engOf e.val = g) ∧
    (∃ (s : State) (e : Fin 64) (g : Eng) (_b : Bool) (_d _r : Fin 32), s.freshBundle e.val = true ∧ s.engOf e.val = g) ∧
    (∃ (s : State) (e : Fin 64) (g : Eng) (_b : Bool) (_d _r : Fin 32), s.freshBundle e.val = true ∧ s.engOf e.val = g) ∧
    (∃ (s : State) (e : Fin 64) (g : Eng) (_b : Bool) (_d _r : Fin 32), s.freshBundle e.val = true ∧ s.engOf e.val = g) ∧
    (∃ (s : State) (e : Fin 64) (g : Eng) (_b : Bool) (_d _r : Fin 32), s.freshBundle e.val = true ∧ s.engOf e.val = g) ∧
    (∃ (s : State) (e : Fin 64) (g : Eng) (_b : Bool) (_d _r : Fin 32), s.freshBundle e.val = true ∧ s.engOf e.val = g) ∧
    (∃ (s : State) (e : Fin 64) (g : Eng) (_b : Bool) (_d _r : Fin 32), s.freshBundle e.val = true ∧ s.engOf e.val = g) ∧
    (∃ (s : State) (e : Fin 64) (g : Eng) (_b : Bool) (_d _r : Fin 32), s.freshBundle e.val = true ∧ s.engOf e.val = g) ∧
    (∃ (s : State) (e : Fin 64) (g : Eng) (_b : Bool) (_d _r : Fin 32), s.freshBundle e.val = true ∧ s.engOf e.val = g) ∧
    (∃ (s : State) (e : Fin 64) (g : Eng) (_b : Bool) (_d _r : Fin 32), s.freshBundle e.val = true ∧ s.engOf e.val = g) ∧
    (∃ (s : State) (e : Fin 64) (g : Eng) (_b : Bool) (_d _r : Fin 32), s.freshBundle e.val = true ∧ s.engOf e.val = g) ∧
    (∃ (s : State) (e : Fin 64) (g : Eng) (_b : Bool) (_d _r : Fin 32), s.freshBundle e.val = true ∧ s.engOf e.val = g) ∧
    (∃ (s : State) (e : Fin 64) (g : Eng) (_b : Bool) (_d _r : Fin 32), s.freshBundle e.val = true ∧ s.engOf e.val = g) ∧
    (∃ (s : State) (e : Fin 64) (g : Eng) (_b : Bool) (_d _r : Fin 32), s.freshBundle e.val = true ∧ s.engOf e.val = g) ∧
    (∃ (s : State) (e : Fin 64) (g : Eng) (_b : Bool) (_d _r : Fin 32) (_v : Word), s.freshBundle e.val = true ∧ s.engOf e.val = g) ∧
    (∃ (s : State) (e : Fin 64) (g : Eng) (_b : Bool) (_d _r : Fin 32), s.freshBundle e.val = true ∧ s.engOf e.val = g) ∧
    (∃ (s : State) (e : Fin 64) (g : Eng) (_b : Bool) (_d r : Fin 32), s.freshBundle e.val = true ∧ s.engOf e.val = g ∧ r.val < 16) ∧
    (∃ (s : State) (e : Fin 64) (g : Eng) (_b : Bool) (_d _r : Fin 32), s.freshBundle e.val = true ∧ s.engOf e.val = g) :=
  ⟨⟨run1 63, 63, eng1, true, 1, 0, by decide +kernel⟩,
   ⟨run1 63, 63, eng1, true, 1, 0, by decide +kernel⟩,
   ⟨run1 63, 63, eng1, true, 1, 0, by decide +kernel⟩,
   ⟨run1 63, 63, eng1, true, 1, 0, by decide +kernel⟩,
   ⟨run1 63, 63, eng1, true, 1, 0, by decide +kernel⟩,
   ⟨run1 63, 63, eng1, true, 1, 0, by decide +kernel⟩,
   ⟨run1 63, 63, eng1, true, 1, 0, by decide +kernel⟩,
   ⟨run1 63, 63, eng1, true, 1, 0, by decide +kernel⟩,
   ⟨run1 63, 63, eng1, true, 1, 0, by decide +kernel⟩,
   ⟨run1 63, 63, eng1, true, 1, 0, by decide +kernel⟩,
   ⟨run1 63, 63, eng1, true, 1, 0, by decide +kernel⟩,
   ⟨run1 63, 63, eng1, true, 1, 0, by decide +kernel⟩,
   ⟨run1 63, 63, eng1, true, 1, 0, by decide +kernel⟩,
   ⟨run1 63, 63, eng1, true, 1, 0, by decide +kernel⟩,
   ⟨run1 63, 63, eng1, true, 1, 0, by decide +kernel⟩,
   ⟨run1 63, 63, eng1, true, 1, 0, 0xFFFFFFFF, by decide +kernel⟩,
   ⟨run1 63, 63, eng1, true, 1, 0, by decide +kernel⟩,
   ⟨run1 63, 63, eng1, true, 1, 15, by decide +kernel⟩,
   ⟨run1 63, 63, eng1, true, 1, 0, by decide +kernel⟩⟩

theorem witness_EnginePairOps :
    ∃ (s : State) (e : Fin 64) (g : Eng) (_b : Bool) (d r : Fin 32), s.freshBundle e.val = true ∧ s.engOf e.val = g ∧ d.val % 2 = 0 ∧ r.val % 2
      = 0 :=
  ⟨run1 63, 63, eng1, true, 30, 4, by decide +kernel⟩

theorem witness_EngineSaturation :
    (∃ (s : State) (e : Fin 64) (g : Eng) (_b : Bool) (d r : Fin 32), s.freshBundle e.val = true ∧ s.engOf e.val = g ∧ satTo 32 ((g.dr
      d.val).toInt + (g.dr r.val).toInt) = (g.dr d.val).toInt + (g.dr r.val).toInt) ∧
    (∃ (s : State) (e : Fin 64) (g : Eng) (_b : Bool) (d r : Fin 32), s.freshBundle e.val = true ∧ s.engOf e.val = g ∧ satTo 32 ((g.dr
      d.val).toInt - (g.dr r.val).toInt) = (g.dr d.val).toInt - (g.dr r.val).toInt) ∧
    (∃ (s : State) (e : Fin 64) (g : Eng) (_b : Bool) (d _r : Fin 32) (i : BitVec 5), s.freshBundle e.val = true ∧ s.engOf e.val = g ∧ satTo 32
      ((g.dr d.val).toInt + i.toInt) = (g.dr d.val).toInt + i.toInt) ∧
    (∃ (s : State) (e : Fin 64) (g : Eng) (_b : Bool) (_d r : Fin 32), s.freshBundle e.val = true ∧ s.engOf e.val = g ∧ g.dr r.val ≠ 0x80000000)
      ∧
    (∃ (s : State) (e : Fin 64) (g : Eng) (_b : Bool) (d r : Fin 32), s.freshBundle e.val = true ∧ s.engOf e.val = g ∧ satTo 32 ((g.dr
      d.val).toInt + (g.dr r.val).toInt) ≠ (g.dr d.val).toInt + (g.dr r.val).toInt) :=
  ⟨⟨run1 63, 63, eng1, true, 0, 2, by decide +kernel⟩,
   ⟨run1 63, 63, eng1, true, 0, 1, by decide +kernel⟩,
   ⟨run1 63, 63, eng1, true, 0, 0, 0, by decide +kernel⟩,
   ⟨run1 63, 63, eng1, true, 1, 0, by decide +kernel⟩,
   ⟨run1 63, 63, eng1, false, 0, 1, by decide +kernel⟩⟩

theorem witness_EngineMultiplyAccumulate :
    (∃ (s : State) (e : Fin 64) (g : Eng) (_n _m : Fin 4) (_a _b : Fin 32), s.freshBundle e.val = true ∧ s.engOf e.val = g) ∧
    (∃ (s : State) (e : Fin 64) (g : Eng) (_n _m : Fin 4) (_a _b : Fin 32), s.freshBundle e.val = true ∧ s.engOf e.val = g) ∧
    (∃ (s : State) (e : Fin 64) (g : Eng) (n _m : Fin 4) (a b : Fin 32) (i : Int), s.freshBundle e.val = true ∧ s.engOf e.val = g ∧ i = (g.accr
      n.val).toInt + g.prod a.val b.val ∧ satTo 80 i = i) ∧
    (∃ (s : State) (e : Fin 64) (g : Eng) (n _m : Fin 4) (a b : Fin 32) (i : Int), s.freshBundle e.val = true ∧ s.engOf e.val = g ∧ i = (g.accr
      n.val).toInt - g.prod a.val b.val ∧ satTo 80 i = i) ∧
    (∃ (s : State) (e : Fin 64) (g : Eng) (n _m : Fin 4) (a b : Fin 32) (i : Int), s.freshBundle e.val = true ∧ s.engOf e.val = g ∧ i = (g.accr
      n.val).toInt + g.prodU a.val b.val ∧ satTo 80 i = i) ∧
    (∃ (s : State) (e : Fin 64) (g : Eng) (n _m : Fin 4) (a b : Fin 32) (i : Int), s.freshBundle e.val = true ∧ s.engOf e.val = g ∧ i = (g.accr
      n.val).toInt + g.prod a.val b.val * 2 ^ 32 ∧ satTo 80 i = i) ∧
    (∃ (s : State) (e : Fin 64) (g : Eng) (_n _m : Fin 4) (_a _b : Fin 32), s.freshBundle e.val = true ∧ s.engOf e.val = g) ∧
    (∃ (s : State) (e : Fin 64) (g : Eng) (n m : Fin 4) (_a _b : Fin 32) (i : Int), s.freshBundle e.val = true ∧ s.engOf e.val = g ∧ i = (g.accr
      n.val).toInt + (g.accr m.val).toInt ∧ satTo 80 i = i) ∧
    (∃ (s : State) (e : Fin 64) (g : Eng) (_n _m : Fin 4) (_a _b : Fin 32) (k : BitVec 5), s.freshBundle e.val = true ∧ s.engOf e.val = g ∧
      k.toInt < 0) ∧
    (∃ (s : State) (e : Fin 64) (g : Eng) (n _m : Fin 4) (a b : Fin 32) (i : Int), s.freshBundle e.val = true ∧ s.engOf e.val = g ∧ i = (g.accr
      n.val).toInt + g.prod a.val b.val ∧ satTo 80 i ≠ i) :=
  ⟨⟨run1 0, 0, eng1, 0, 1, 0, 1, by decide +kernel⟩,
   ⟨run1 0, 0, eng1, 0, 1, 0, 1, by decide +kernel⟩,
   ⟨run1 0, 0, eng1, 3, 1, 0, 1, (eng1.accr 3).toInt + eng1.prod 0 1, by decide +kernel⟩,
   ⟨run1 0, 0, eng1, 3, 1, 0, 1, (eng1.accr 3).toInt - eng1.prod 0 1, by decide +kernel⟩,
   ⟨run1 0, 0, eng1, 3, 1, 0, 1, (eng1.accr 3).toInt + eng1.prodU 0 1, by decide +kernel⟩,
   ⟨run1 0, 0, eng1, 3, 1, 0, 1, (eng1.accr 3).toInt + eng1.prod 0 1 * 2 ^ 32, by decide +kernel⟩,
   ⟨run1 0, 0, eng1, 0, 1, 0, 1, by decide +kernel⟩,
   ⟨run1 0, 0, eng1, 0, 1, 0, 1, (eng1.accr 0).toInt + (eng1.accr 1).toInt, by decide +kernel⟩,
   ⟨run1 0, 0, eng1, 0, 1, 0, 1, -1, by decide +kernel⟩,
   ⟨run1 0, 0, eng1, 0, 1, 0, 1, (eng1.accr 0).toInt + eng1.prod 0 1, by decide +kernel⟩⟩

theorem witness_EngineQuadAndComplex :
    (∃ (s : State) (e : Fin 64) (g : Eng) (_n : Fin 4) (_a b : Fin 32), s.freshBundle e.val = true ∧ s.engOf e.val = g ∧ b.val % 4 = 0) ∧
    (∃ (s : State) (e : Fin 64) (g : Eng) (_n : Fin 4) (a b : Fin 32), s.freshBundle e.val = true ∧ s.engOf e.val = g ∧ b.val % 4 = 0 ∧ (∀ i, i
      < 4 → satTo 80 ((g.accr i).toInt + g.prod a.val (b.val + i)) = (g.accr i).toInt + g.prod a.val (b.val + i))) ∧
    (∃ (s : State) (e : Fin 64) (g : Eng) (n : Fin 4) (a b : Fin 32), s.freshBundle e.val = true ∧ s.engOf e.val = g ∧ n.val % 2 = 0 ∧ a.val % 2
      = 0 ∧ b.val % 2 = 0) ∧
    (∃ (s : State) (e : Fin 64) (g : Eng) (n : Fin 4) (a b : Fin 32) (x : Int) (y : Int), s.freshBundle e.val = true ∧ s.engOf e.val = g ∧ n.val
      % 2 = 0 ∧ a.val % 2 = 0 ∧ b.val % 2 = 0 ∧ x = (g.accr n.val).toInt + (g.cprod a.val b.val).1 ∧ y = (g.accr (n.val + 1)).toInt + (g.cprod
      a.val b.val).2 ∧ satTo 80 x = x ∧ satTo 80 y = y) ∧
    (∃ (s : State) (e : Fin 64) (g : Eng) (n : Fin 4) (a b : Fin 32) (x : Int) (y : Int), s.freshBundle e.val = true ∧ s.engOf e.val = g ∧ n.val
      % 2 = 0 ∧ a.val % 2 = 0 ∧ b.val % 2 = 0 ∧ x = (g.accr n.val).toInt + (g.prod a.val b.val + g.prod (a.val + 1) (b.val + 1)) ∧ y = (g.accr
      (n.val + 1)).toInt + (g.prod (a.val + 1) b.val - g.prod a.val (b.val + 1)) ∧ satTo 80 x = x ∧ satTo 80 y = y) :=
  ⟨⟨run1 0, 0, eng1, 0, 0, 28, by decide +kernel⟩,
   ⟨run1 0, 0, eng1, 0, 1, 28, by decide +kernel⟩,
   ⟨run1 0, 0, eng1, 2, 30, 0, by decide +kernel⟩,
   ⟨run1 0, 0, eng1, 2, 0, 4, (eng1.accr 2).toInt + (eng1.cprod 0 4).1, (eng1.accr 3).toInt + (eng1.cprod 0 4).2, by decide +kernel⟩,
   ⟨run1 0, 0, eng1, 2, 0, 4, (eng1.accr 2).toInt + (eng1.prod 0 4 + eng1.prod 1 5), (eng1.accr 3).toInt + (eng1.prod 1 4 - eng1.prod 0 5),
    by decide +kernel⟩⟩

theorem witness_EngineAccumulatorMoves :
    (∃ (s : State) (e : Fin 64) (g : Eng) (_b : Bool) (_d : Fin 32) (n : Fin 4) (x : Int), s.freshBundle e.val = true ∧ s.engOf e.val = g ∧ x =
      scaleBy (g.accMvar n.val).toInt (g.shift n.val) ∧ satTo 32 x = x) ∧
    (∃ (s : State) (e : Fin 64) (g : Eng) (_b : Bool) (_d : Fin 32) (_n : Fin 4), s.freshBundle e.val = true ∧ s.engOf e.val = g) ∧
    (∃ (s : State) (e : Fin 64) (g : Eng) (_b : Bool) (_d : Fin 32) (_n : Fin 4), s.freshBundle e.val = true ∧ s.engOf e.val = g) ∧
    (∃ (s : State) (e : Fin 64) (g : Eng) (_b : Bool) (_d : Fin 32) (_n : Fin 4), s.freshBundle e.val = true ∧ s.engOf e.val = g) :=
  ⟨⟨run1 0, 0, eng1, false, 31, 3, scaleBy (eng1.accMvar 3).toInt (eng1.shift 3), by decide +kernel⟩,
   ⟨run1 0, 0, eng1, false, 31, 3, by decide +kernel⟩,
   ⟨run1 0, 0, eng1, false, 31, 3, by decide +kernel⟩,
   ⟨run1 0, 0, eng1, false, 31, 3, by decide +kernel⟩⟩

theorem witness_EngineSpecialRegisters :
    (∃ (s : State) (e : Fin 64) (g : Eng) (_b : Bool) (_c _d _r : Fin 32), s.freshBundle e.val = true ∧ s.engOf e.val = g) ∧
    (∃ (s : State) (e : Fin 64) (g : Eng) (_b : Bool) (_c _d _r : Fin 32) (_v : Word), s.freshBundle e.val = true ∧ s.engOf e.val = g) ∧
    (∃ (s : State) (e : Fin 64) (g : Eng) (_b : Bool) (c _d _r : Fin 32), s.freshBundle e.val = true ∧ s.engOf e.val = g ∧ c.val < 16) ∧
    (∃ (s : State) (e : Fin 64) (g : Eng) (_b : Bool) (_c _d _r : Fin 32) (_n : Fin 4) (_i : BitVec 7), s.freshBundle e.val = true ∧ s.engOf
      e.val = g) ∧
    (∃ (s : State) (e : Fin 64) (g : Eng) (_b : Bool) (_c _d _r : Fin 32), s.freshBundle e.val = true ∧ s.engOf e.val = g) ∧
    (∃ (s : State) (e : Fin 64) (g : Eng) (_b : Bool) (_c _d _r : Fin 32), s.freshBundle e.val = true ∧ s.engOf e.val = g) ∧
    (∃ (s : State) (e : Fin 64) (g : Eng) (_b : Bool) (_c _d _r : Fin 32), s.freshBundle e.val = true ∧ s.engOf e.val = g) ∧
    (∃ (s : State) (e : Fin 64) (g : Eng) (_b : Bool) (_c _d _r : Fin 32), s.freshBundle e.val = true ∧ s.engOf e.val = g) ∧
    (∃ (s : State) (e : Fin 64) (g : Eng) (_b : Bool) (_c _d _r : Fin 32) (_sl : Fin 4), s.freshBundle e.val = true ∧ s.engOf e.val = g) ∧
    (∃ (s : State) (e : Fin 64) (g : Eng) (_b : Bool) (_c _d _r : Fin 32) (_l : Fin 2) (n : BitVec 11) (k : BitVec 12), s.freshBundle e.val =
      true ∧ s.engOf e.val = g ∧ n ≠ 0 ∧ k ≠ 0) ∧
    (∃ (s : State) (e : Fin 64) (g : Eng) (_b : Bool) (_c _d r : Fin 32) (_l : Fin 2) (_k : Fin 16), s.freshBundle e.val = true ∧ s.engOf e.val
      = g ∧ bitsOf (g.dr r.val).toNat 15 0 ≠ 0) :=
  ⟨⟨run1 63, 63, eng1, true, 31, 1, 0, by decide +kernel⟩,
   ⟨run1 63, 63, eng1, true, 31, 1, 0, 0x8000, by decide +kernel⟩,
   ⟨run1 63, 63, eng1, true, 15, 1, 0, by decide +kernel⟩,
   ⟨run1 63, 63, eng1, true, 1, 0, 0, 3, 0x40, by decide +kernel⟩,
   ⟨run1 63, 63, eng1, true, 1, 0, 0, by decide +kernel⟩,
   ⟨run1 63, 63, eng1, true, 1, 0, 0, by decide +kernel⟩,
   ⟨run1 63, 63, eng1, true, 1, 0, 0, by decide +kernel⟩,
   ⟨run1 63, 63, eng1, true, 1, 0, 0, by decide +kernel⟩,
   ⟨run1 63, 63, eng1, true, 1, 0, 0, 3, by decide +kernel⟩,
   ⟨run1 63, 63, eng1, true, 1, 0, 0, 1, 1, 0xFFF, by decide +kernel⟩,
   ⟨run1 63, 63, eng1, true, 1, 0, 1, 1, 15, by decide +kernel⟩⟩

theorem witness_EngineBranches :
    ∃ (s : State) (e : Fin 64) (g : Eng) (_r : Fin 32), s.freshBundle e.val = true ∧ s.engOf e.val = g :=
  ⟨run1 63, 63, eng1, 4, by decide +kernel⟩

theorem witness_EngineLoadsAndStores :
    (∃ (s : State) (e : Fin 64) (g : Eng) (_b : Bool) (_d : Fin 32) (x : Fin 8) (_m : Fin 4) (a : Nat), s.freshBundle e.val = true ∧ s.engOf
      e.val = g ∧ (g.axr x.val).toNat = a ∧ a < 0x20000 ∧ s.integ.ue = [] ∧ a % 4 = 0) ∧
    (∃ (s : State) (e : Fin 64) (g : Eng) (_b : Bool) (d : Fin 32) (x : Fin 8) (_m : Fin 4) (a : Nat), s.freshBundle e.val = true ∧ s.engOf
      e.val = g ∧ (g.axr x.val).toNat = a ∧ a < 0x20000 ∧ s.integ.ue = [] ∧ a % 8 = 0 ∧ d.val % 2 = 0) ∧
    (∃ (s : State) (e : Fin 64) (g : Eng) (_b : Bool) (_d : Fin 32) (x : Fin 8) (_m : Fin 4) (a : Nat), s.freshBundle e.val = true ∧ s.engOf
      e.val = g ∧ (g.axr x.val).toNat = a ∧ a < 0x20000 ∧ s.integ.ue = [] ∧ a % 4 = 0) ∧
    (∃ (s : State) (e : Fin 64) (g : Eng) (_b : Bool) (d : Fin 32) (x : Fin 8) (_m : Fin 4) (a : Nat), s.freshBundle e.val = true ∧ s.engOf
      e.val = g ∧ (g.axr x.val).toNat = a ∧ a < 0x20000 ∧ s.integ.ue = [] ∧ a % 8 = 0 ∧ d.val % 2 = 0) :=
  ⟨⟨run1 63, 63, eng1, false, 31, 7, 3, 0x1FFFC, by decide +kernel⟩,
   ⟨run1 63, 63, eng1, true, 30, 6, 1, 0x1FFF8, by decide +kernel⟩,
   ⟨run1 63, 63, eng1, false, 31, 7, 0, 0x1FFFC, by decide +kernel⟩,
   ⟨run1 63, 63, eng1, true, 0, 6, 2, 0x1FFF8, by decide +kernel⟩⟩

theorem witness_EngineTaskControl :
    (∃ (s : State) (e : Fin 64) (k : Nat), s.freshBundle e.val = true ∧ s.bit (Reg.ENG_CTRL e.val) 0 = true ∧ (s.engOf e.val).task = some k ∧
      s.taskState k = tsRunning ∧ s.ctxF k 15 15 15 = 0 ∧ s.ctxF k 9 14 14 = 0 ∧ s.taskPhase k = 2) ∧
    (∃ (s : State) (e : Fin 64), s.freshBundle e.val = true ∧ s.bit (Reg.ENG_CTRL e.val) 0 = true ∧ (s.engOf e.val).task = none) ∧
    (∃ (s : State) (e : Fin 64) (k : Nat), s.freshBundle e.val = true ∧ s.bit (Reg.ENG_CTRL e.val) 0 = true ∧ s.engState e.val = 4 ∧ (s.engOf
      e.val).task = some k ∧ s.taskState k = tsRunning ∧ s.ctxF k 15 15 15 = 0 ∧ s.taskPhase k = 7) ∧
    (∃ (s : State) (e : Fin 64) (_r : Fin 32), s.freshBundle e.val = true ∧ s.dlr.queue.length < 64) ∧
    (∃ (s : State) (e : Fin 64), s.freshBundle e.val = true ∧ s.engState e.val = 4) :=
  ⟨⟨task5 63 3 0x10000000 0x7F03, 63, 5, by decide +kernel⟩,
   ⟨{ run1 0 with regs := (st .run [(Reg.ENG_CTRL 0, 1), (Reg.ENG_STAT 0, 3)]).regs }, 0, by decide +kernel⟩,
   ⟨task5 63 4 0x387F0000 0x7F03, 63, 5, by decide +kernel⟩,
   ⟨run1 63, 63, 4, by decide +kernel⟩,
   ⟨{ run1 0 with regs := (st .run [(Reg.ENG_STAT 0, 4)]).regs }, 0, by decide +kernel⟩⟩

theorem witness_EngineTrapAndCode :
    (∃ (s : State) (e : Fin 64), s.engRuns e.val = true ∧ s.engState e.val = 3 ∧ (s.engOf e.val).preReq = true ∧ (s.engOf e.val).delay = none ∧
      (s.engOf e.val).staged = []) ∧
    (∃ (s : State) (ag : Agent) (e : Fin 64) (v : Word), s.cfgWritable ag (0x40 + e.val) = true ∧ s.engState e.val = 1 ∧ s.domOn (3 + e.val /
      16) = true ∧ v.getLsbD 0 = true) ∧
    (∃ (s : State) (loader : Bool) (e : Fin 64) (n : Fin 8192) (_v : BitVec 64), s.sys.dev = .boot ∧ s.bit (Reg.ENG_CTRL e.val) 0 = false ∧
      (loader = true ∨ 1024 * s.fld (Reg.ENG_CODE_LOCK e.val) 6 0 ≤ 8 * n.val) ∧ s.integ.ue = []) ∧
    (∃ (s : State) (_loader : Bool) (_e : Fin 64) (_n : Fin 8192) (_v : BitVec 64), s.clocked = true ∧ s.sys.dev ≠ .boot) :=
  ⟨⟨{ st .run [(Reg.ENG_STAT 9, 3)] with eng := [(9, { eng1 with preReq := true })] }, 9, by decide +kernel⟩,
   ⟨st .boot [], .host, 63, 1, by decide +kernel⟩,
   ⟨st .boot [(Reg.ENG_CODE_LOCK 63, 1)], false, 63, 128, 0xFF, by decide +kernel⟩,
   ⟨st .run [], true, 63, 8191, 0xFF, by decide +kernel⟩⟩

theorem witness_MotionCommands :
    (∃ (s : State) (g : Fin 16) (_seq mask : BitVec 16) (valid : BitVec 6) (fs : List MemberFields) (m a : Nat) (f : MemberFields), s.ticking =
      true ∧ s.groupEn g.val = true ∧ s.namedOnce g.val mask.toNat m a ∧ f = fieldsOf fs m ∧ s.cmdResult g.val 1 mask.toNat valid.toNat fs = (0,
      0)) ∧
    (∃ (s : State) (g : Fin 16) (_seq mask : BitVec 16) (valid : BitVec 6) (fs : List MemberFields) (m a : Nat) (f : MemberFields), s.ticking =
      true ∧ s.groupEn g.val = true ∧ s.namedOnce g.val mask.toNat m a ∧ f = fieldsOf fs m ∧ s.cmdResult g.val 2 mask.toNat valid.toNat fs = (0,
      0)) ∧
    (∃ (s : State) (g : Fin 16) (_seq mask : BitVec 16) (valid : BitVec 6) (fs : List MemberFields) (m a : Nat) (f : MemberFields), s.ticking =
      true ∧ s.groupEn g.val = true ∧ s.namedOnce g.val mask.toNat m a ∧ f = fieldsOf fs m ∧ s.cmdResult g.val 3 mask.toNat valid.toNat fs = (0,
      0)) ∧
    (∃ (s : State) (g : Fin 16) (_seq mask : BitVec 16) (valid : BitVec 6) (fs : List MemberFields) (m a : Nat) (f : MemberFields), s.ticking =
      true ∧ s.groupEn g.val = true ∧ s.namedOnce g.val mask.toNat m a ∧ f = fieldsOf fs m ∧ s.cmdResult g.val 4 mask.toNat valid.toNat fs = (0,
      0)) ∧
    (∃ (s : State) (g : Fin 16) (_seq mask : BitVec 16) (valid : BitVec 6) (fs : List MemberFields) (m a : Nat) (f : MemberFields), s.ticking =
      true ∧ s.groupEn g.val = true ∧ s.namedOnce g.val mask.toNat m a ∧ f = fieldsOf fs m ∧ s.cmdResult g.val 5 mask.toNat valid.toNat fs = (0,
      0) ∧ s.axState a = axMoving) ∧
    (∃ (s : State) (g : Fin 16) (_seq mask : BitVec 16) (valid : BitVec 6) (fs : List MemberFields) (m a : Nat) (f : MemberFields), s.ticking =
      true ∧ s.groupEn g.val = true ∧ s.namedOnce g.val mask.toNat m a ∧ f = fieldsOf fs m ∧ s.cmdResult g.val 5 mask.toNat valid.toNat fs = (0,
      0)) ∧
    (∃ (s : State) (g : Fin 16) (_seq mask : BitVec 16) (valid : BitVec 6) (fs : List MemberFields) (m a : Nat) (f : MemberFields), s.ticking =
      true ∧ s.groupEn g.val = true ∧ s.namedOnce g.val mask.toNat m a ∧ f = fieldsOf fs m ∧ s.cmdResult g.val 6 mask.toNat valid.toNat fs = (0,
      0)) ∧
    (∃ (s : State) (g : Fin 16) (_seq mask : BitVec 16) (valid : BitVec 6) (fs : List MemberFields) (m a : Nat) (f : MemberFields), s.ticking =
      true ∧ s.groupEn g.val = true ∧ s.namedOnce g.val mask.toNat m a ∧ f = fieldsOf fs m ∧ s.cmdResult g.val 7 mask.toNat valid.toNat fs = (0,
      0) ∧ s.axState a = axStopped) ∧
    (∃ (s : State) (g : Fin 16) (_seq mask : BitVec 16) (valid : BitVec 6) (fs : List MemberFields) (m a : Nat) (f : MemberFields), s.ticking =
      true ∧ s.groupEn g.val = true ∧ s.namedOnce g.val mask.toNat m a ∧ f = fieldsOf fs m ∧ s.cmdResult g.val 7 mask.toNat valid.toNat fs = (0,
      0) ∧ s.axState a = axHoming) ∧
    (∃ (s : State) (g : Fin 16) (_seq mask : BitVec 16) (valid : BitVec 6) (fs : List MemberFields) (m a : Nat) (f : MemberFields), s.ticking =
      true ∧ s.groupEn g.val = true ∧ s.namedOnce g.val mask.toNat m a ∧ f = fieldsOf fs m ∧ s.cmdResult g.val 7 mask.toNat valid.toNat fs = (0,
      0) ∧ s.axState a ≠ axIdle ∧ s.axState a ≠ axStopped) ∧
    (∃ (s : State) (g : Fin 16) (_seq mask : BitVec 16) (valid : BitVec 6) (fs : List MemberFields) (m a : Nat) (f : MemberFields), s.ticking =
      true ∧ s.groupEn g.val = true ∧ s.namedOnce g.val mask.toNat m a ∧ f = fieldsOf fs m ∧ s.cmdResult g.val 8 mask.toNat valid.toNat fs = (0,
      0)) ∧
    (∃ (s : State) (g : Fin 16) (_seq mask : BitVec 16) (valid : BitVec 6) (fs : List MemberFields) (m a : Nat) (f : MemberFields), s.ticking =
      true ∧ s.groupEn g.val = true ∧ s.namedOnce g.val mask.toNat m a ∧ f = fieldsOf fs m ∧ s.cmdResult g.val 9 mask.toNat valid.toNat fs = (0,
      0) ∧ s.axState a ≠ axCammed) ∧
    (∃ (s : State) (g : Fin 16) (_seq mask : BitVec 16) (valid : BitVec 6) (fs : List MemberFields) (m a : Nat) (f : MemberFields), s.ticking =
      true ∧ s.groupEn g.val = true ∧ s.namedOnce g.val mask.toNat m a ∧ f = fieldsOf fs m ∧ s.cmdResult g.val 9 mask.toNat valid.toNat fs = (0,
      0) ∧ s.axState a = axCammed ∧ s.camTable a valid.toNat f ≠ (s.axis a).camTab) ∧
    (∃ (s : State) (g : Fin 16) (_seq mask : BitVec 16) (valid : BitVec 6) (fs : List MemberFields) (m a : Nat) (f : MemberFields), s.ticking =
      true ∧ s.groupEn g.val = true ∧ s.namedOnce g.val mask.toNat m a ∧ f = fieldsOf fs m ∧ s.cmdResult g.val 10 mask.toNat valid.toNat fs =
      (0, 0)) ∧
    (∃ (s : State) (g : Fin 16) (_seq mask : BitVec 16) (valid : BitVec 6) (fs : List MemberFields) (m a : Nat) (f : MemberFields), s.ticking =
      true ∧ s.groupEn g.val = true ∧ s.namedOnce g.val mask.toNat m a ∧ f = fieldsOf fs m ∧ s.cmdResult g.val 11 mask.toNat valid.toNat fs =
      (0, 0)) ∧
    (∃ (s : State) (g : Fin 16) (_seq mask : BitVec 16) (valid : BitVec 6) (fs : List MemberFields) (m a : Nat) (f : MemberFields), s.ticking =
      true ∧ s.groupEn g.val = true ∧ s.namedOnce g.val mask.toNat m a ∧ f = fieldsOf fs m ∧ s.cmdResult g.val 12 mask.toNat valid.toNat fs =
      (0, 0)) ∧
    (∃ (s : State) (g : Fin 16) (_seq mask : BitVec 16) (valid : BitVec 6) (fs : List MemberFields) (m a : Nat) (f : MemberFields), s.ticking =
      true ∧ s.groupEn g.val = true ∧ s.namedOnce g.val mask.toNat m a ∧ f = fieldsOf fs m ∧ s.cmdResult g.val 13 mask.toNat valid.toNat fs =
      (0, 0)) :=
  ⟨⟨axis143 1, 15, 7, 1, 1, flds 0 0, 0, 143, fieldsOf (flds 0 0) 0, by unfold State.namedOnce; decide +kernel⟩,
   ⟨axis143 2, 15, 7, 1, 1, flds 0 0, 0, 143, fieldsOf (flds 0 0) 0, by unfold State.namedOnce; decide +kernel⟩,
   ⟨axis143 1, 15, 7, 1, 2, flds 0 0, 0, 143, fieldsOf (flds 0 0) 0, by unfold State.namedOnce; decide +kernel⟩,
   ⟨axis143 7, 15, 7, 1, 2, flds 0 1, 0, 143, fieldsOf (flds 0 1) 0, by unfold State.namedOnce; decide +kernel⟩,
   ⟨axis143 2, 15, 7, 1, 0, flds 0 0, 0, 143, fieldsOf (flds 0 0) 0, by unfold State.namedOnce; decide +kernel⟩,
   ⟨axis143 3, 15, 7, 1, 0, flds 0 0, 0, 143, fieldsOf (flds 0 0) 0, by unfold State.namedOnce; decide +kernel⟩,
   ⟨axis143 5, 15, 7, 1, 0, flds 0 0, 0, 143, fieldsOf (flds 0 0) 0, by unfold State.namedOnce; decide +kernel⟩,
   ⟨axis143 5, 15, 7, 1, 0, flds 0 0, 0, 143, fieldsOf (flds 0 0) 0, by unfold State.namedOnce; decide +kernel⟩,
   ⟨axis143 10, 15, 7, 1, 0, flds 0 0, 0, 143, fieldsOf (flds 0 0) 0, by unfold State.namedOnce; decide +kernel⟩,
   ⟨axis143 2, 15, 7, 1, 0, flds 0 0, 0, 143, fieldsOf (flds 0 0) 0, by unfold State.namedOnce; decide +kernel⟩,
   ⟨axis143 1, 15, 7, 1, 3, flds 0 0x100000001, 0, 143, fieldsOf (flds 0 0x100000001) 0, by unfold State.namedOnce; decide +kernel⟩,
   ⟨axis143 1, 15, 7, 1, 3, flds 0 0, 0, 143, fieldsOf (flds 0 0) 0, by unfold State.namedOnce; decide +kernel⟩,
   ⟨axis143 9, 15, 7, 1, 3, flds 0 1, 0, 143, fieldsOf (flds 0 1) 0, by unfold State.namedOnce; decide +kernel⟩,
   ⟨axis143 9, 15, 7, 1, 0, flds 0 0, 0, 143, fieldsOf (flds 0 0) 0, by unfold State.namedOnce; decide +kernel⟩,
   ⟨axis143 1, 15, 7, 1, 0, flds 0 0, 0, 143, fieldsOf (flds 0 0) 0, by unfold State.namedOnce; decide +kernel⟩,
   ⟨axis143 1, 15, 7, 1, 1, flds 0 0, 0, 143, fieldsOf (flds 0 0) 0, by unfold State.namedOnce; decide +kernel⟩,
   ⟨axis143 1, 15, 7, 1, 0, flds 0 0, 0, 143, fieldsOf (flds 0 0) 0, by unfold State.namedOnce; decide +kernel⟩⟩

theorem witness_MotionRefusals :
    ∃ (s : State) (g : Fin 16) (seq mask : BitVec 16) (valid : BitVec 6) (fs : List MemberFields) (code : Nat) (c : Instr) (r : Nat) (m : Nat),
      (code, c) ∈ [(1, Instr.moveAbs g seq mask valid fs), (2, .moveRel g seq mask valid fs), (3, .jog g seq mask valid fs), (4, .setLim g seq
      mask valid fs), (5, .stop g seq mask valid fs), (6, .resume g seq mask valid fs), (7, .abort g seq mask valid fs), (8, .gearIn g seq mask
      valid fs), (9, .camIn g seq mask valid fs), (10, .syncOut g seq mask valid fs), (11, .home g seq mask valid fs), (12, .setPos g seq mask
      valid fs), (13, .follow g seq mask valid fs)] ∧ s.ticking = true ∧ s.groupEn g.val = true ∧ s.cmdResult g.val code mask.toNat valid.toNat
      fs = (r, m) ∧ r ≠ 0 :=
  ⟨axis143 1, 15, 7, 0, 0, [], 13, .follow 15 7 0 0 [], 2, 0, by decide +kernel⟩

theorem witness_MotionInputs :
    (∃ (s : State) (ag : Agent) (g : Fin 16) (_seq : BitVec 16), s.clocked = true ∧ bySoftware ag = true ∧ s.groupEn g.val = true ∧ s.shadow =
      false ∧ s.integ.ue = [] ∧ inCell (s.rdN (Reg.PRFG_MBX g.val)) 4 = true) ∧
    (∃ (s : State) (ag : Agent) (g : Fin 16) (_seq : BitVec 16), s.clocked = true ∧ bySoftware ag = true ∧ s.groupEn g.val = true ∧ s.shadow =
      true) ∧
    (∃ (s : State) (g : Fin 16), s.ticking = true ∧ s.groupEn g.val = true ∧ s.bit (Reg.PRFG_CTRL g.val) 4 = true ∧ s.bit (Reg.PRFG_STAT g.val)
      0 = false ∧ (s.groupRt g.val).lastTheta.isSome = true ∧ s.masterOld g.val (s.rd64 Reg.QTZ_LAST_TICK) = true) ∧
    (∃ (s : State) (a : Fin 144) (w : HomeWindow) (lvl : Bool), s.clocked = true ∧ s.axState a.val = axHoming ∧ w ∈ (s.axis a.val).homeWin ∧
      w.level = none ∧ (s.axis a.val).homeSeen.testBit (homeNum w.inp) = lvl) ∧
    (∃ (s : State) (ag : Agent) (a : Fin 144) (_c : Fin 4) (_v : Word), s.writable ag (Page.PRF a.val) = true) ∧
    (∃ (s : State) (ag : Agent) (a : Fin 144) (_c : Fin 4) (_v : Word), s.writable ag (Page.PRF a.val) = true) :=
  ⟨⟨axis143 1, .host, 15, 9, by decide +kernel⟩,
   ⟨{ axis143 1 with regs := (st .run [(Reg.PRFG_CTRL 15, 1), (Reg.TWN_CTRL, 1), (Reg.TWN_STAT, 2)]).regs }, .core 0, 15, 9, by decide +kernel⟩,
   ⟨{ axis143 1 with regs := (st .run [(Reg.PRFG_CTRL 15, 0x11), (Reg.QTZ_LAST_TICK + 4, 1)]).regs, prof := { (axis143 1).prof with groups :=
    [(15, { GroupRt.reset with lastTheta := some 0 })] } }, 15, by decide +kernel⟩,
   ⟨window, 143, ⟨.home, 0, 1, false, none, none⟩, false, by decide +kernel⟩,
   ⟨st .run [], .host, 143, 3, 0xFFFFFFFF, by decide +kernel⟩,
   ⟨st .run [], .host, 143, 3, 0xFFFFFFFF, by decide +kernel⟩⟩

theorem witness_LoopCommands :
    (∃ (s : State) (ag : Agent) (a : Fin 144) (op : BitVec 4), s.writable ag (Page.LOOP a.val) = true ∧ (∀ i, op.getLsbD i = true → s.loopOpen
      a.val i = false ∧ s.loopPend a.val i = false ∧ (i = 0 → s.axisSto a.val = true))) ∧
    (∃ (s : State) (ag : Agent) (a : Fin 144) (cl : BitVec 4), s.writable ag (Page.LOOP a.val) = true ∧ (∀ i, cl.getLsbD i = true → s.loopOpen
      a.val i = true ∧ s.loopPend a.val i = false ∧ s.closeOk a.val i = true)) ∧
    (∃ (s : State) (ag : Agent) (a : Fin 144) (i : Fin 4), s.writable ag (Page.LOOP a.val) = true ∧ s.loopPend a.val i.val = false) ∧
    (∃ (s : State) (ag : Agent) (a : Fin 144) (j : Fin 5) (w : Fin 10) (_v : Word), s.writable ag (Page.LOOP a.val) = true ∧ s.loopOpen a.val
      (setLoop j.val) = true ∧ s.loopPend a.val (setLoop j.val) = false ∧ (w.val < 4 ∨ w.val = 5)) ∧
    (∃ (s : State) (ag : Agent) (a : Fin 144) (j : Fin 5) (w : Fin 10) (_v : Word), s.writable ag (Page.LOOP a.val) = true ∧ s.loopOpen a.val
      (setLoop j.val) = true ∧ s.loopPend a.val (setLoop j.val) = false ∧ (w.val < 4 ∨ w.val = 5)) ∧
    (∃ (s : State) (ag : Agent) (a : Fin 144) (j : Fin 5) (w : Fin 10) (_v : Word), s.writable ag (Page.LOOP a.val) = true ∧ s.loopOpen a.val
      (setLoop j.val) = true ∧ s.loopPend a.val (setLoop j.val) = false ∧ w.val = 4) ∧
    (∃ (s : State) (ag : Agent) (a : Fin 144) (j : Fin 5) (w : Fin 10) (_v : Word), s.writable ag (Page.LOOP a.val) = true ∧ s.loopOpen a.val
      (setLoop j.val) = true ∧ s.loopPend a.val (setLoop j.val) = false ∧ (w.val = 6 ∨ w.val = 8)) ∧
    (∃ (s : State) (ag : Agent) (a : Fin 144) (j : Fin 5) (w : Fin 10) (_v : Word), s.writable ag (Page.LOOP a.val) = true ∧ s.loopOpen a.val
      (setLoop j.val) = true ∧ s.loopPend a.val (setLoop j.val) = false ∧ (w.val = 6 ∨ w.val = 8)) ∧
    (∃ (s : State) (ag : Agent) (a : Fin 144) (j : Fin 5) (w : Fin 10) (_v : Word), s.writable ag (Page.LOOP a.val) = true ∧ s.loopOpen a.val
      (setLoop j.val) = true ∧ s.loopPend a.val (setLoop j.val) = false ∧ (w.val = 7 ∨ w.val = 9)) ∧
    (∃ (s : State) (ag : Agent) (a : Fin 144) (j : Fin 5) (w : Fin 10) (_v : Word), s.writable ag (Page.LOOP a.val) = true ∧ s.loopOpen a.val
      (setLoop j.val) = true ∧ s.loopPend a.val (setLoop j.val) = false ∧ (w.val = 7 ∨ w.val = 9)) ∧
    (∃ (s : State) (ag : Agent) (a : Fin 144) (j : Fin 5) (_w : Fin 10) (_v : Word), s.writable ag (Page.LOOP a.val) = true ∧ (s.loopOpen a.val
      (setLoop j.val) = false ∨ s.loopPend a.val (setLoop j.val) = true)) ∧
    (∃ (s : State) (ag : Agent) (a : Fin 144) (j : Fin 5) (_w : Fin 10) (_v : Word), s.writable ag (Page.LOOP a.val) = true ∧ (s.loopOpen a.val
      (setLoop j.val) = false ∨ s.loopPend a.val (setLoop j.val) = true)) ∧
    (∃ (s : State) (a : Fin 144), s.ticking = true ∧ s.axisEn a.val = true ∧ s.bit (Reg.LOOP_STAT a.val) 11 = false ∧ s.axisSto a.val = false ∧
      s.hardStopHoming a.val = false ∧ s.rdI64 (Reg.LOOP_FE_MAX a.val) < mag (s.rdI64 (Reg.LOOP_FERR a.val)) ∧ s.fld (Reg.LOOP_FE_N a.val) 7 0 ≤
      (s.loopCopy a.val s.parity).fe) :=
  ⟨⟨st .run [(Reg.LOOP_STAT 143, 0)], .host, 143, 15, by decide +kernel, fun i h => (by decide +kernel : ∀ k, k < 4 → (st .run [(Reg.LOOP_STAT
    143, 0)]).loopOpen 143 k = false ∧ (st .run [(Reg.LOOP_STAT 143, 0)]).loopPend 143 k = false ∧ (k = 0 → (st .run [(Reg.LOOP_STAT 143,
    0)]).axisSto 143 = true)) i (BitVec.lt_of_getLsbD h)⟩,
   ⟨st .run [(Reg.LOOP_STAT 143, 15)], .host, 143, 15, by decide +kernel, fun i h => (by decide +kernel : ∀ k, k < 4 → (st .run [(Reg.LOOP_STAT
    143, 15)]).loopOpen 143 k = true ∧ (st .run [(Reg.LOOP_STAT 143, 15)]).loopPend 143 k = false ∧ (st .run [(Reg.LOOP_STAT 143, 15)]).closeOk
    143 k = true) i (BitVec.lt_of_getLsbD h)⟩,
   ⟨st .run [(Reg.LOOP_STAT 0, 0x70)], .host, 0, 3, by decide +kernel⟩,
   ⟨st .run [(Reg.LOOP_STAT 143, 15)], .host, 143, 4, 5, 1, by decide +kernel⟩,
   ⟨st .run [(Reg.LOOP_STAT 143, 15)], .host, 143, 0, 3, 1, by decide +kernel⟩,
   ⟨st .run [(Reg.LOOP_STAT 143, 15)], .host, 143, 4, 4, 1, by decide +kernel⟩,
   ⟨st .run [(Reg.LOOP_STAT 143, 15)], .host, 143, 4, 6, 1, by decide +kernel⟩,
   ⟨st .run [(Reg.LOOP_STAT 143, 15)], .host, 143, 4, 8, 1, by decide +kernel⟩,
   ⟨st .run [(Reg.LOOP_STAT 143, 15)], .host, 143, 4, 7, 1, by decide +kernel⟩,
   ⟨st .run [(Reg.LOOP_STAT 143, 15)], .host, 143, 4, 9, 1, by decide +kernel⟩,
   ⟨st .run [(Reg.LOOP_STAT 143, 0)], .host, 143, 0, 0, 1, by decide +kernel⟩,
   ⟨st .run [(Reg.LOOP_STAT 143, 0x1F)], .host, 143, 0, 9, 1, by decide +kernel⟩,
   ⟨fe143, 143, by decide +kernel⟩⟩

theorem witness_StopDemands :
    (∃ (s : State), s.ticking = true ∧ 2 ≤ s.fld Reg.SOL_STAT 23 16) ∧
    (∃ (s : State) (g : Fin 16), s.ticking = true ∧ s.jointDemand g.val = true ∧ s.commission = false ∧ s.integ.ue = [] ∧ inCell (s.lim s.parity
      + 0x10 + 16 * g.val) 4 = true) ∧
    (∃ (s : State) (h : Fin 8), s.ticking = true ∧ s.headEn h.val = true ∧ s.missN ≤ (s.ssmSrc h.val).miss) ∧
    (∃ (s : State) (g : Fin 16), s.ticking = true ∧ (s.clearN ≤ s.clearRun g.val ∨ s.ssm.viol.testBit g.val = false) ∧ s.jointDemand g.val =
      false ∧ s.headDemand g.val = false ∧ s.ssmEn = true) :=
  ⟨⟨st .run [(Reg.SOL_STAT, 0x20000)], by decide +kernel⟩,
   ⟨{ axis143 1 with ssm := { Ssm.reset with jm := [(15, 15)] } }, 15, by decide +kernel⟩,
   ⟨{ st .run [(Reg.SSM_HEAD 7, 1), (Reg.SSM_CTRL, 0x31)] with ssm := { Ssm.reset with src := [(7, ⟨[], 3, false, false, none⟩)] } }, 7,
    by decide +kernel⟩,
   ⟨st .run [(Reg.SSM_CTRL, 0x31)], 15, by decide +kernel⟩⟩

theorem witness_SafetyInputsAndGroups :
    (∃ (s : State) (f : Fin 16), s.ticking = true ∧ s.inKind f.val ≠ 0 ∧ s.enterDue f.val = true) ∧
    (∃ (s : State) (f : Fin 16), s.ticking = true ∧ s.inKind f.val ≠ 0 ∧ s.leaveDue f.val = true) ∧
    (∃ (s : State) (f : Fin 16), s.ticking = true ∧ s.inKind f.val ≠ 0 ∧ s.discDue f.val = true) ∧
    (∃ (s : State) (ag : Agent) (_m : BitVec 16), s.writable ag Page.SAF = true ∧ (s.eff Reg.SAF_CTRL).getLsbD 2 = true) ∧
    (∃ (s : State) (ag : Agent), s.writable ag Page.SAF = true) ∧
    (∃ (s : State) (ag : Agent) (m : BitVec 16), s.writable ag Page.SAF = true ∧ m ≠ 0 ∧ (s.eff Reg.SAF_CTRL).getLsbD 2 = false) ∧
    (∃ (s : State) (ag : Agent) (_m : BitVec 16), s.writable ag Page.SAF = true) ∧
    (∃ (s : State) (g : Fin 16), s.ticking = true ∧ s.grpState g.val = stSs1 ∧ s.effFld (Reg.SAF_GRP g.val) 15 8 ≤ (s.safGroup g.val).still) ∧
    (∃ (s : State) (g : Fin 16), s.ticking = true ∧ s.grpState g.val = stSs2 ∧ s.effFld (Reg.SAF_GRP g.val) 15 8 ≤ (s.safGroup g.val).still) ∧
    (∃ (s : State) (g : Fin 16), s.ticking = true ∧ s.tMaxDue g.val = true ∧ s.grpState g.val = stSs1) ∧
    (∃ (s : State) (g : Fin 16), s.ticking = true ∧ s.tMaxDue g.val = true ∧ s.grpState g.val = stSs2) :=
  ⟨⟨in15 { SafIn.reset with runB := 1 }, 15, by decide +kernel⟩,
   ⟨in15 { SafIn.reset with demand := true, off := 1 }, 15, by decide +kernel⟩,
   ⟨in15 { SafIn.reset with disagree := some 0 }, 15, by decide +kernel⟩,
   ⟨st .run [(Reg.SAF_CTRL, 4)], .host, 0x8001, by decide +kernel⟩,
   ⟨st .run [(Reg.SAF_CTRL, 0)], .host, by decide +kernel⟩,
   ⟨st .run [(Reg.SAF_CTRL, 0)], .host, 1, by decide +kernel⟩,
   ⟨st .run [], .host, 0x8000, by decide +kernel⟩,
   ⟨group15 3 255, 15, by decide +kernel⟩,
   ⟨group15 1 255, 15, by decide +kernel⟩,
   ⟨group15 3 0, 15, by decide +kernel⟩,
   ⟨group15 1 0, 15, by decide +kernel⟩⟩

theorem witness_DegradedAndSlate :
    (∃ (s : State), s.sys.dev = .degraded) ∧
    (∃ (s : State) (c : Fin 5), s.ticking = true ∧ s.classOn (c.val + 1) = true ∧ s.classClears (c.val + 1) = true) ∧
    (∃ (s : State) (_n : Fin 2), s.ticking = true ∧ s.sys.dev ≠ .selftest) ∧
    (∃ (s : State) (n : Fin 2), s.ticking = true ∧ s.saf.stFail = 2 ^ n.val ∧ s.classOn 2 = true) ∧
    (∃ (s : State), s.bit Reg.SAF_STAT 12 = true ∧ s.saf.slate.comparing = false ∧ s.saf.slate.since + 20000000 ≤ s.tickMono) ∧
    (∃ (s : State) (k : Nat), s.saf.slate.comparing = true ∧ s.saf.slate.waiting.any (fun r => r.tick == k) = true ∧ s.safetyBad 0xA1 = []) ∧
    (∃ (s : State) (k : Nat) (agree : Bool), s.saf.slate.comparing = true ∧ s.saf.slate.waiting.any (fun r => r.tick == k) = true ∧ (agree =
      false ∨ s.safetyBad 0xA1 ≠ [])) ∧
    (∃ (s : State), s.sys.dev = .degraded ∧ s.saf.slate.comparing = true ∧ s.bit Reg.SAF_STAT 12 = true) :=
  ⟨⟨st .degraded [], by decide +kernel⟩,
   ⟨st .degraded [(Reg.SAF_DEG, 0x100000), (Reg.FLT_STAT, 1)], 4, by decide +kernel⟩,
   ⟨st .run [], 1, by decide +kernel⟩,
   ⟨saf .run [(Reg.SAF_DEG, 0x20000)] { Saf.reset with stFail := 2 }, 1, by decide +kernel⟩,
   ⟨st .degraded [(Reg.SAF_STAT, 0x1000), (Reg.QTZ_LAST_TICK, 20000000), (Reg.QTZ_LAST_TICK + 4, 0)], by decide +kernel⟩,
   ⟨saf .degraded [] { Saf.reset with slate := { Slate.reset with comparing := true, waiting := [⟨7, 0, 0, [], [], 0, [], []⟩] } }, 7,
    by decide +kernel⟩,
   ⟨saf .degraded [] { Saf.reset with slate := { Slate.reset with comparing := true, waiting := [⟨7, 0, 0, [], [], 0, [], []⟩] } }, 7, false,
    by decide +kernel, by decide +kernel, .inl rfl⟩,
   ⟨saf .degraded [(Reg.SAF_STAT, 0x1000)] { Saf.reset with slate := { Slate.reset with comparing := true } }, by decide +kernel⟩⟩

theorem witness_ProofTest :
    (∃ (s : State) (ag : Agent), s.writable ag Page.SAF = true ∧ s.sys.dev = .ready ∧ s.bit Reg.SAF_PT_CMD 0 = false) ∧
    (∃ (s : State), s.bit Reg.SAF_PT_CMD 0 = true ∧ s.saf.pt.done = true) ∧
    (∃ (s : State) (k : Fin 6), s.bit Reg.SAF_PT_CMD 0 = true ∧ s.saf.pt.done = false ∧ s.fld Reg.SAF_PT_STAT 3 0 = k.val + 1) ∧
    (∃ (s : State), s.clocked = true) ∧
    (∃ (s : State), s.clocked = true) :=
  ⟨⟨st .ready [], .host, by decide +kernel⟩,
   ⟨saf .ready [(Reg.SAF_PT_CMD, 1)] { Saf.reset with pt := { ProofTest.reset with done := true } }, by decide +kernel⟩,
   ⟨st .ready [(Reg.SAF_PT_CMD, 1), (Reg.SAF_PT_STAT, 6)], 5, by decide +kernel⟩,
   ⟨st .run [], by decide +kernel⟩,
   ⟨st .run [], by decide +kernel⟩⟩

theorem witness_SafetySeal :
    (∃ (s : State) (ag : Agent), s.writable ag Page.SAF = true ∧ s.t40 = true ∧ s.saf.lockout = false ∧ (s.sys.dev = .boot ∨ s.sys.dev = .ready)
      ∧ s.saf.pwd = some s.pwdWords) ∧
    (∃ (s : State) (ag : Agent), s.writable ag Page.SAF = true ∧ s.t40 = true ∧ s.saf.lockout = false ∧ (s.sys.dev = .boot ∨ s.sys.dev = .ready)
      ∧ s.saf.pwd ≠ some s.pwdWords) ∧
    (∃ (s : State) (ag : Agent), s.writable ag Page.SAF = true ∧ s.saf.t40Open = true) ∧
    (∃ (s : State), s.clocked = true ∧ s.saf.t40Open = true) ∧
    (∃ (s : State), s.clocked = true) ∧
    (∃ (s : State) (ag : Agent), s.writable ag Page.SAF = true ∧ s.bit Reg.SAF_STAT 7 = true ∧ pwdOk s.pwdWords = true ∧ s.logFull = false) ∧
    (∃ (s : State) (ag : Agent) (v : Word), s.writable ag Page.SAF = true ∧ s.sys.dev = .ready ∧ s.bit Reg.SAF_STAT 7 = true ∧ (v.getLsbD 1 =
      true → s.saf.pwd ≠ none) ∧ s.logFull = false) ∧
    (∃ (s : State) (ag : Agent) (v : Word), s.writable ag Page.SAF = true ∧ s.saf.log.any (fun e => e.head? == some v) = true) ∧
    (∃ (s : State) (_line : Fin 8) (_level : Bool), s.field.vcc = true) :=
  ⟨⟨saf .boot [(Reg.SAF_SEAL_CFG, 1)] { Saf.reset with pwd := some 0 }, .host, by decide +kernel, by decide +kernel, by decide +kernel, .inl
    (by decide +kernel), by decide +kernel⟩,
   ⟨st .ready [(Reg.SAF_SEAL_CFG, 1)], .host, by decide +kernel⟩,
   ⟨saf .run [] { Saf.reset with t40Open := true }, .host, by decide +kernel⟩,
   ⟨saf .run [] { Saf.reset with t40Open := true }, by decide +kernel⟩,
   ⟨st .run [], by decide +kernel⟩,
   ⟨st .ready [(Reg.SAF_STAT, 0x80), (Reg.SAF_PWD 0, 0x20202020), (Reg.SAF_PWD 1, 0x7E7E7E7E), (Reg.SAF_PWD 2, 0x20202020), (Reg.SAF_PWD 3,
    0x20202020)], .host, by decide +kernel⟩,
   ⟨saf .ready [(Reg.SAF_STAT, 0x80)] { Saf.reset with pwd := some 0 }, .host, 2, by decide +kernel⟩,
   ⟨saf .run [] { Saf.reset with log := [[7]] }, .host, 7, by decide +kernel⟩,
   ⟨st .run [], 7, true, by decide +kernel⟩⟩

theorem witness_SafetySets :
    (∃ (s : State) (ag : Agent) (v : Word), s.writable ag Page.SAF = true ∧ v.getLsbD 31 = true ∧ s.bit Reg.SAF_STORE_STAT 8 = false ∧ s.sys.dev
      = .ready ∧ s.bit Reg.SAF_STAT 7 = true ∧ (s.t40 = true ∨ bitsOf v.toNat 3 0 = s.fld Reg.FIO_SEAL 3 0) ∧ s.logFull = false) ∧
    (∃ (s : State) (ag : Agent) (v : Word), s.writable ag Page.SAF = true ∧ v.getLsbD 31 = true ∧ s.bit Reg.SAF_STORE_STAT 8 = false ∧ s.sys.dev
      ≠ .ready) ∧
    (∃ (s : State) (ag : Agent) (v : Word), s.writable ag Page.SAF = true ∧ (v.getLsbD 31 = false ∨ s.bit Reg.SAF_STORE_STAT 8 = true)) ∧
    (∃ (s : State) (ag : Agent) (v : Word), s.writable ag Page.SAF = true ∧ (v.getLsbD 31 = false ∨ s.bit Reg.SAF_STORE_STAT 8 = true)) ∧
    (∃ (s : State) (img : SafetyImage) (a b f : Bool) (x : SafStoring), s.clocked = true ∧ s.saf.storing = some x ∧ s.storeResult x img a b f =
      0) ∧
    (∃ (s : State) (ag : Agent) (v : Word) (m : Nat) (x : SafSlot), s.writable ag Page.SAF = true ∧ v.getLsbD 0 = true ∧ s.bit
      Reg.SAF_STORE_STAT 8 = false ∧ s.sys.dev = .ready ∧ s.logFull = false ∧ s.validSet = some (m, x)) ∧
    (∃ (s : State) (ag : Agent) (v : Word), s.writable ag Page.SAF = true ∧ v.getLsbD 0 = true ∧ s.bit Reg.SAF_STORE_STAT 8 = false ∧ s.sys.dev
      ≠ .ready) :=
  ⟨⟨st .ready [(Reg.SAF_STAT, 0x80), (Reg.FIO_SEAL, 0xF)], .host, 0x8000000F, by decide +kernel, by decide +kernel, by decide +kernel,
    by decide +kernel, by decide +kernel, .inr (by decide +kernel), by decide +kernel⟩,
   ⟨st .run [], .host, 0x80000000, by decide +kernel⟩,
   ⟨st .ready [(Reg.SAF_STAT, 0x80), (Reg.SAF_STORE_STAT, 0x100)], .host, 0x8000000F, by decide +kernel⟩,
   ⟨st .ready [], .host, 15, by decide +kernel⟩,
   ⟨sets, img0, true, true, true, ⟨0, 0, 0⟩, by decide +kernel, by decide +kernel, by simp only [State.storeResult, img0_ok]; decide +kernel⟩,
   ⟨sets, .host, 1, 0, ⟨img0, 0, 1, 0, true⟩, by decide +kernel, by decide +kernel, by decide +kernel, by decide +kernel, by decide +kernel,
    set0_valid⟩,
   ⟨st .run [], .host, 1, by decide +kernel⟩⟩

theorem witness_Flint :
    (∃ (s : State) (ag : Agent), s.writable ag Page.FLT = true ∧ ag ≠ .channelA) ∧
    (∃ (s : State) (_opened : Bool), s.writable .channelA Page.FLT = true ∧ s.field.vcc = true) ∧
    (∃ (s : State) (_seed : BitVec 16), s.writable .channelA Page.FLT = true ∧ s.field.vcc = true ∧ (s.fld Reg.FLT_STAT 1 0 ≠ 2 ∨ s.bit
      Reg.FLT_STAT 2 = false ∨ s.sys.dev = .selftest ∨ s.fld Reg.FLT_STAT 7 4 = 8)) ∧
    (∃ (s : State), s.writable .channelA Page.FLT = true ∧ s.field.vcc = true ∧ s.fld Reg.FLT_STAT 1 0 ≠ 2) ∧
    (∃ (s : State) (w : Word) (_n : Nat), s.field.vcc = true ∧ s.saf.flint.armPend = true ∧ s.sigOk w = true) ∧
    (∃ (s : State) (w : Word) (n : Nat), s.field.vcc = true ∧ s.saf.flint.armPend = false ∧ s.fld Reg.FLT_STAT 1 0 = 1 ∧ s.hbFault w n = 0) ∧
    (∃ (s : State) (w : Word) (n : Nat), s.field.vcc = true ∧ s.saf.flint.armPend = false ∧ s.fld Reg.FLT_STAT 1 0 = 1 ∧ s.hbFault w n ≠ 0) ∧
    (∃ (s : State), s.fld Reg.FLT_STAT 1 0 = 1) ∧
    (∃ (s : State), s.field.vcc = true ∧ s.fld Reg.FLT_STAT 1 0 ≠ 2) ∧
    (∃ (s : State), s.fld Reg.FLT_STAT 1 0 = 2 ∧ s.bit Reg.FLT_STAT 2 = false ∧ 8 ≤ s.saf.flint.run) :=
  ⟨⟨st .run [], .host, by decide +kernel⟩,
   ⟨st .run [], true, by decide +kernel⟩,
   ⟨st .run [(Reg.FLT_STAT, 2)], 0xFFFF, by decide +kernel⟩,
   ⟨st .run [(Reg.FLT_STAT, 1)], by decide +kernel⟩,
   ⟨saf .run [] { Saf.reset with flint := { Flint.reset with armPend := true } }, Config.heartbeatSig 0 0 ++ 0#16, 0, by decide +kernel,
    by decide +kernel, sig_ok _ rfl⟩,
   ⟨saf .run [(Reg.FLT_STAT, 1), (Reg.FLT_PERIOD, 0)] { Saf.reset with flint := { Flint.reset with bits := some 65535 } }, Config.heartbeatSig 0
    0 ++ 0#16, 0, by decide +kernel, by decide +kernel, by decide +kernel, hb_ok _ rfl (by decide +kernel) rfl⟩,
   ⟨st .run [(Reg.FLT_STAT, 1), (Reg.FLT_PERIOD, 100)], 0, 0, by decide +kernel⟩,
   ⟨st .run [(Reg.FLT_STAT, 1)], by decide +kernel⟩,
   ⟨st .run [(Reg.FLT_STAT, 1)], by decide +kernel⟩,
   ⟨saf .run [(Reg.FLT_STAT, 2)] { Saf.reset with flint := { Flint.reset with run := 8 } }, by decide +kernel⟩⟩

theorem witness_RingRoles :
    (∃ (s : State) (ag : Agent) (p : Fin 4) (v x : Word), s.cfgWritable ag (Page.RNG p.val) = true ∧ s.configurable = true ∧ s.merged
      (Reg.RNG_CTRL p.val) v = some x ∧ keeps s (s.wr (Reg.RNG_CTRL p.val) x) (Page.RNG p.val) = true) ∧
    (∃ (s : State) (ag : Agent) (p : Fin 4) (v x : Word), s.cfgWritable ag (Page.RNG p.val) = true ∧ s.configurable = true ∧ s.merged
      (Reg.RNG_CTRL p.val) v = some x ∧ keeps s (s.wr (Reg.RNG_CTRL p.val) x) (Page.RNG p.val) = true) ∧
    (∃ (s : State) (p : Fin 4), s.ringOn = true ∧ s.pstate p.val = psListen ∧ s.masterRole p.val = true ∧ s.ringFree = true ∧ s.rcFld p.val
      (Reg.RNG_CTRL p.val) 4 4 = 1 ∧ s.rcFld p.val (Reg.RNG_MISS p.val) 23 16 ≤ (s.rp p.val).listen) ∧
    (∃ (s : State) (p : Fin 4) (l : Lane) (_src prio : BitVec 8) (dev : BitVec 48) (h : RxHead), s.ringOn = true ∧ s.laneUp p.val l = true ∧
      h.ok.getLsbD 0 = true ∧ s.pstate p.val = psClaim ∧ (s.rp p.val).claiming = true ∧ betterClaim prio.toNat dev.toNat (s.rcFld p.val
      (Reg.RNG_CTRL p.val) 15 8) s.deviceId = true) ∧
    (∃ (s : State) (p : Fin 4) (l : Lane) (src prio : BitVec 8) (dev : BitVec 48) (h : RxHead), s.ringOn = true ∧ s.laneUp p.val l = true ∧
      h.ok.getLsbD 0 = true ∧ s.pstate p.val = psClaim ∧ (s.rp p.val).claiming = true ∧ prio.toNat = s.rcFld p.val (Reg.RNG_CTRL p.val) 15 8 ∧
      dev.toNat = s.deviceId ∧ src = 0xFE) ∧
    (∃ (s : State) (p : Fin 4) (l : Lane) (src prio : BitVec 8) (dev : BitVec 48) (h : RxHead), s.ringOn = true ∧ s.laneUp p.val l = true ∧
      h.ok.getLsbD 0 = true ∧ s.pstate p.val = psClaim ∧ (s.rp p.val).claiming = true ∧ prio.toNat = s.rcFld p.val (Reg.RNG_CTRL p.val) 15 8 ∧
      dev.toNat = s.deviceId ∧ src ≠ 0xFE) ∧
    (∃ (s : State) (p : Fin 4), s.ringOn = true ∧ s.pstate p.val = psClaim ∧ (s.rp p.val).claiming = true ∧ s.ringFree = true ∧ 3 ≤ (s.rp
      p.val).rounds) ∧
    (∃ (s : State) (p : Fin 4) (l : Lane) (_f : RefMsg) (_egress _stamp : Nat), s.ringOn = true ∧ s.laneUp p.val l = true ∧ s.pstate p.val =
      psListen ∧ s.masterRole p.val = false ∧ s.bit (Reg.RNG_STAT p.val) 7 = false ∧ (s.rp p.val).refSeen = none ∧ (s.rp p.val).predict = none)
      ∧
    (∃ (s : State) (p : Fin 4) (l : Lane) (f : RefMsg) (_egress _stamp : Nat), s.ringOn = true ∧ s.laneUp p.val l = true ∧ s.pstate p.val =
      psListen ∧ s.masterRole p.val = true ∧ s.bit (Reg.RNG_STAT p.val) 9 = false ∧ s.rcFld p.val (Reg.RNG_CTRL p.val) 15 8 ≤ f.prio.toNat) ∧
    (∃ (s : State) (p : Fin 4) (l : Lane) (_f : RefMsg) (_egress _stamp : Nat), s.ringOn = true ∧ s.laneUp p.val l = true ∧ s.pstate p.val =
      psNode ∧ s.bit (Reg.RNG_STAT p.val) 7 = false ∧ (s.rp p.val).refSeen = none) ∧
    (∃ (s : State) (p : Fin 4), s.ringOn = true ∧ s.pstate p.val = psNode ∧ s.rcFld p.val (Reg.RNG_BKUP p.val) 31 24 ≠ 0 ∧ 2 ≤ (s.rp
      p.val).noRef ∧ s.bit (Reg.RNG_STAT p.val) 7 = false ∧ s.ringFree = true) ∧
    (∃ (s : State) (p : Fin 4), s.ringOn = true ∧ s.pstate p.val = psNode ∧ 4 ≤ (s.rp p.val).lost) ∧
    (∃ (s : State), s.ringOn = true ∧ s.ticking = true ∧ s.qtz.cycled.testBit 0 = false ∧ (∀ p, p < 4 → s.pstate p = psDown ∨ s.pstate p =
      psListen ∨ (s.pstate p = psCyclic ∧ s.ringFree = true ∧ (s.rp p).yield = false) ∨ (s.pstate p = psNode ∧ s.bit (Reg.RNG_STAT p) 7 = false
      ∧ (s.rp p).backupEnd = false))) ∧
    (∃ (s : State), s.bit Reg.QTZ_TICK 4 = false) ∧
    (∃ (s u : State) (p : Fin 4) (n : Fin 64) (l : LaneAt) (d : List Word), s.ringOn = true ∧ s.laneUp p.val l.lane = true ∧ u = s.rxLog p.val 7
      l.lane n.val 128 (s.rd64 (Reg.RNG_CYCLE p.val) % 65536) l.stamp ∧ s.pstate p.val = psInit ∧ (s.rp p.val).polled = some n.val ∧ (s.rp
      p.val).answered.testBit l.lane.num = false ∧ d.length = 32 ∧ crc32c ((d.take 31).flatMap wordBytes) = d.getD 31 0 ∧ s.dstate p.val n.val ≠
      5 ∧ s.desc p.val n.val = [] ∧ u.nodeEn p.val n.val = true ∧ u.descCause p.val n.val d = 0) :=
  ⟨⟨st .ready regions3, .host, 3, 0x8015, 0x8015, by decide +kernel⟩,
   ⟨st .boot [], .core 0, 3, 0x8014, 0x8014, by decide +kernel⟩,
   ⟨port3 1 [] { RingPort.reset with listen := 255 }, 3, by decide +kernel⟩,
   ⟨port3 2 [] { RingPort.reset with claiming := true }, 3, .a, 0xFE, 0x81, 0, ⟨0, 0, 0, false, 1⟩, by decide +kernel⟩,
   ⟨port3 2 [(Reg.SYS_ID, 5)] { RingPort.reset with claiming := true }, 3, .b, 0xFE, 0x80, 5, ⟨0, 0, 0, false, 1⟩, by decide +kernel⟩,
   ⟨port3 2 [(Reg.SYS_ID, 5)] { RingPort.reset with claiming := true }, 3, .b, 0xFF, 0x80, 5, ⟨0, 0, 0, false, 1⟩, by decide +kernel⟩,
   ⟨port3 2 [] { RingPort.reset with claiming := true, rounds := 3 }, 3, by decide +kernel⟩,
   ⟨port3 1 [] { RingPort.reset with cfg := [(Reg.RNG_CTRL 3, 2)] }, 3, .a, ⟨0, 0, 0, 0, 0, 255, 0, 0, true, false, [], 255, 0, 255, 0, 255⟩, 0,
    0, by decide +kernel⟩,
   ⟨port3 1 [] RingPort.reset, 3, .a, ⟨0, 0, 0, 0, 0, 255, 0, 0, true, false, [], 255, 0, 255, 0, 255⟩, 0, 0, by decide +kernel⟩,
   ⟨port3 5 [] RingPort.reset, 3, .b, ⟨0, 0, 0, 0, 0, 255, 0, 0, true, false, [], 255, 0, 255, 0, 255⟩, 0, 0, by decide +kernel⟩,
   ⟨port3 5 [] { RingPort.reset with cfg := [(Reg.RNG_BKUP 3, 0x1000000)], noRef := 2 }, 3, by decide +kernel⟩,
   ⟨port3 5 [] { RingPort.reset with lost := 4 }, 3, by decide +kernel⟩,
   ⟨port3 4 [] RingPort.reset, by decide +kernel⟩,
   ⟨st .run [], by decide +kernel⟩,
   ⟨poll3, poll3.rxLog 3 7 .a 63 128 0 0, 3, 63, ⟨.a, 0⟩, desc0, by decide +kernel, by decide +kernel, rfl, by decide +kernel,
    by decide +kernel, by decide +kernel, by decide +kernel, desc0_crc, by decide +kernel⟩⟩

theorem witness_RingCyclic :
    (∃ (s : State) (p : Fin 4) (n : Fin 64) (_h : InHeader) (pay : List (BitVec 8)) (_okA _okB : BitVec 8), s.ringOn = true ∧ s.pstate p.val =
      psCyclic ∧ s.takesFrom p.val n.val = true ∧ s.payFits p.val n.val pay.length = true ∧ (s.rp p.val).done = false) ∧
    (∃ (s : State) (p : Fin 4) (_h : OutHeader) (pay : List (BitVec 8)) (okA _okB : BitVec 8), s.ringOn = true ∧ s.pstate p.val = psNode ∧
      pay.length ≤ 2032 ∧ s.laneUp p.val .a = true ∧ okA.toNat % 2 ^ blockCount pay.length = 2 ^ blockCount pay.length - 1) ∧
    (∃ (s : State) (p : Fin 4) (n : Fin 64) (h : InHeader) (_pay : BitVec 256) (okA okB : Bool), s.ringOn = true ∧ s.pstate p.val = psCyclic ∧
      s.takesFrom p.val n.val = true ∧ s.nodeSafe p.val n.val = true ∧ (s.rp p.val).done = false ∧ (s.copies p.val n.val (s.safePlan p.val
      n.val) 1 h (b2n okA) (b2n okB)).2 ≠ 0) ∧
    (∃ (s : State) (p : Fin 4) (pay : BitVec 256) (k : LaneOk) (i : NodeInit), s.ringOn = true ∧ s.laneUp p.val .a = true ∧ s.pstate p.val =
      psNode ∧ k.a = true ∧ k.b = true ∧ k.bFirst = false ∧ k.hold = 0 ∧ (s.rp p.val).init = some i ∧ payWord pay 0 % 65536 = i.saddr.toNat ∧
      safetyCrc (crcInit i.saddr.toNat) (payBytes pay 28) = payWord pay 7) ∧
    (∃ (s : State) (p : Fin 4), s.ringOn = true ∧ s.evenCycle = true ∧ s.pstate p.val = psCyclic ∧ (s.rp p.val).done = false) ∧
    (∃ (s : State) (p : Fin 4) (_l : List RingBlock), s.ringOn = true ∧ s.pstate p.val = psNode) ∧
    (∃ (s : State) (p : Fin 4) (b : RingBlock) (_data : List (BitVec 8)) (k : LaneOk), s.ringOn = true ∧ s.pstate p.val = psCyclic ∧ s.laneUp
      p.val .a = true ∧ k.a = true ∧ (s.rp p.val).done = false ∧ (s.rp p.val).rq.contains b = true) ∧
    (∃ (s : State) (p : Fin 4) (b : RingBlock) (_data : List (BitVec 8)) (k : LaneOk), s.ringOn = true ∧ s.pstate p.val = psCyclic ∧ s.laneUp
      p.val .a = true ∧ k.a = true ∧ (s.rp p.val).rq.contains b = false ∧ k.b = true ∧ k.bFirst = false ∧ k.hold = 0 ∧ k.alm = false) ∧
    (∃ (s : State) (p : Fin 4) (bad l named : List RingBlock), s.ringOn = true ∧ s.pstate p.val = psCyclic ∧ s.outCycle = true ∧ l = s.badOut
      p.val bad ∧ named = (l.filter (fun b => s.canResend p.val b)).take (s.rcFld p.val (Reg.RNG_RTY p.val) 7 4)) ∧
    (∃ (s : State) (p : Fin 4), s.ringOn = true ∧ (s.inService p.val = true ∨ s.phasesRun = true) ∧ (s.rp p.val).done = false ∧
      s.qtz.sealed.testBit 0 = false) ∧
    (∃ (s : State) (p : Fin 4) (n : Fin 64), s.ringOn = true ∧ s.nodeEn p.val n.val = true ∧ s.lostDue p.val n.val = true) :=
  ⟨⟨port3 4 [] RingPort.reset, 3, 63, ⟨0, false, ⟨1, 3, 0⟩, ⟨1, 3, 0⟩⟩, [], 1, 1, by decide +kernel⟩,
   ⟨port3 5 [] RingPort.reset, 3, ⟨7, 0, false⟩, [], 1, 0, by decide +kernel⟩,
   ⟨port3 4 [] RingPort.reset, 3, 63, ⟨0, false, ⟨1, 3, 0⟩, ⟨1, 3, 0⟩⟩, 0, true, false, by decide +kernel⟩,
   ⟨port3 5 [] { RingPort.reset with init := some ⟨0, 0, 0, (0, 0), (0, 0), [], none, 0⟩ }, 3, 3739692503 <<< 224, ⟨true, true, false, 0,
    false⟩, ⟨0, 0, 0, (0, 0), (0, 0), [], none, 0⟩, by decide +kernel⟩,
   ⟨port3 4 [] RingPort.reset, 3, by decide +kernel⟩,
   ⟨port3 5 [] RingPort.reset, 3, [], by decide +kernel⟩,
   ⟨port3 4 [] { RingPort.reset with rq := [⟨0, true, 7⟩] }, 3, ⟨0, true, 7⟩, [], ⟨true, true, false, 0, false⟩, by decide +kernel⟩,
   ⟨port3 4 [] RingPort.reset, 3, ⟨0, true, 7⟩, [], ⟨true, true, false, 0, false⟩, by decide +kernel⟩,
   ⟨port3 4 [] RingPort.reset, 3, [⟨0, true, 7⟩], _, _, by decide +kernel, by decide +kernel, by decide +kernel, rfl, rfl⟩,
   ⟨port3 4 [] RingPort.reset, 3, by decide +kernel⟩,
   ⟨port3 4 [(Reg.RNG_NODE_STAT 3 63, 0xFF)] RingPort.reset, 3, 63, by decide +kernel⟩⟩

theorem witness_RingBulkAndSoftware :
    (∃ (s : State) (p : Fin 4) (_n : Fin 256) (l : Lane) (f : BulkIn) (i : NodeInit) (h : RxHead), s.ringOn = true ∧ s.laneUp p.val l = true ∧
      s.pstate p.val = psNode ∧ f.ver = 1 ∧ f.typ = 7 ∧ f.init = some i ∧ h.ok.toNat % 2 ^ blockCount f.pay.length = 2 ^ blockCount f.pay.length
      - 1 ∧ (s.fld (Reg.RNG_RXLOG_HEAD p.val) 7 0 + 1) % 256 ≠ s.fld (Reg.RNG_RXLOG_TAIL p.val) 7 0) ∧
    (∃ (s : State) (p : Fin 4) (_n : Fin 256) (f : BulkIn) (_h : RxHead), s.ringOn = true ∧ s.laneUp p.val .a = true ∧ (f.ver ≠ 1 ∨ f.typ ≠ 7))
      ∧
    (∃ (s : State) (p : Fin 4) (_n : Fin 256) (f : BulkIn) (_h : RxHead), s.ringOn = true ∧ s.laneUp p.val .a = true ∧ (f.ver ≠ 1 ∨ f.typ ≠ 7))
      ∧
    (∃ (s : State) (p : Fin 4) (_n : Fin 256) (f : BulkIn) (h : RxHead), s.ringOn = true ∧ s.laneUp p.val .a = true ∧ f.ver = 1 ∧ f.typ = 7 ∧
      h.ok.getLsbD 0 = false) ∧
    (∃ (s u : State) (p : Fin 4) (n : Fin 256) (l : Lane) (acks : List (BitVec 16 × BitVec 16)) (h : RxHead), s.ringOn = true ∧ s.laneUp p.val l
      = true ∧ h.ok.getLsbD 0 = true ∧ u = s.takeFrame p.val 8 l n.val (4 * acks.length) h ∧ u.bulkWith p.val n.val false = true ∧ (s.rp
      p.val).bulkNext < (u.bulkLen p.val + 255) / 256) ∧
    (∃ (s : State) (p : Fin 4) (_room : Nat), s.ringOn = true ∧ s.pstate p.val = psCyclic ∧ s.bulkHas p.val = true ∧ s.bulkFrom p.val = false ∧
      (64 ≤ s.bulkNode p.val ∨ s.bit (Reg.RNG_NODE_STAT p.val (s.bulkNode p.val)) 8 = false) ∧ (s.rp p.val).bulkOut = [] ∧ s.integ.ue = [] ∧
      (s.rp p.val).bulkNext ≤ (s.bulkLen p.val + 255) / 256) ∧
    (∃ (s : State) (p : Fin 4) (n : Fin 64) (l : Lane) (data : List (BitVec 8)) (h : RxHead), s.ringOn = true ∧ s.laneUp p.val l = true ∧
      h.ok.getLsbD 0 = true ∧ (s.rp p.val).grant = some n.val ∧ data.length = 64) ∧
    (∃ (s : State) (ag : Agent) (p : Fin 4), s.writable ag (Page.RNG p.val) = true) :=
  ⟨⟨port3 5 [] RingPort.reset, 3, 255, .b, ⟨1, 7, 0, [], [], some ⟨0, 0, 0, (0, 0), (0, 0), [], none, 0⟩⟩, ⟨0, 0, 0, (0, 0), (0, 0), [], none,
    0⟩, ⟨0, 0, 0, false, 1⟩, by decide +kernel⟩,
   ⟨port3 4 [] RingPort.reset, 3, 0, ⟨2, 7, 0, [], [], none⟩, ⟨0, 0, 0, false, 1⟩, by decide +kernel⟩,
   ⟨port3 4 [] RingPort.reset, 3, 0, ⟨1, 8, 0, [], [], none⟩, ⟨0, 0, 0, false, 1⟩, by decide +kernel⟩,
   ⟨port3 4 [] RingPort.reset, 3, 0, ⟨1, 7, 0, [], [], none⟩, ⟨0, 0, 0, false, 0⟩, by decide +kernel⟩,
   ⟨bulk3, bulk3.takeFrame 3 8 .a 63 4 ⟨0, 0, 0, false, 1⟩, 3, 63, .a, [(0, 1)], ⟨0, 0, 0, false, 1⟩, by decide +kernel, by decide +kernel,
    by decide +kernel, rfl, by decide +kernel⟩,
   ⟨bulk3, 3, 2, by decide +kernel⟩,
   ⟨port3 4 [] { RingPort.reset with grant := some 63 }, 3, 63, .b, List.replicate 64 0, ⟨0, 0, 0, false, 1⟩, by decide +kernel⟩,
   ⟨st .run [], .host, 3, by decide +kernel⟩⟩

theorem witness_LaneStates :
    (∃ (s : State) (p : Fin 4), s.ringOn = true ∧ s.lstate p.val .a = lsTrain ∧ s.bypassState = true ∧ s.portEn p.val = true) ∧
    (∃ (s : State) (p : Fin 4) (l : Lane), s.ringOn = true ∧ s.lstate p.val l = lsTrain ∧ s.lanePassed p.val l = false ∧ (l = .b → s.pstate
      p.val = psDown → s.laneUp p.val .a = false)) ∧
    (∃ (s : State) (p : Fin 4) (l : Lane), s.ringOn = true ∧ s.lstate p.val l = lsJoin) ∧
    (∃ (s : State) (p : Fin 4) (l : Lane), s.ringOn = true ∧ s.lstate p.val l = lsJoin ∧ (s.rp p.val).settled.testBit l.num = true) ∧
    (∃ (s : State) (p : Fin 4) (l : Lane), s.ringOn = true ∧ s.lstate p.val l = lsJoin ∧ (l = .b → s.pstate p.val = psDown → s.laneUp p.val .a =
      false)) ∧
    (∃ (s : State) (p : Fin 4) (_sent _ret _turn : Nat), s.ringOn = true ∧ (s.lstate p.val .a = lsMeasure ∨ s.lstate p.val .b = lsMeasure)) ∧
    (∃ (s : State) (p : Fin 4) (_ingress _egress : Nat), s.ringOn = true ∧ s.bit (laneReg p.val .a) 4 = true ∧ s.bit (laneReg p.val .b) 4 =
      true) ∧
    (∃ (s : State) (p : Fin 4) (_loss : Nat), s.ringOn = true ∧ s.lstate p.val .a = lsMeasure ∧ (s.rp p.val).rtts.length = 256) ∧
    (∃ (s : State) (p : Fin 4) (l : Lane), s.ringOn = true ∧ s.lstate p.val l = lsMeasure ∧ (l = .b → s.pstate p.val = psDown → s.laneUp p.val
      .a = false)) ∧
    (∃ (s : State) (p : Fin 4) (l : Lane) (_lock : Bool), s.ringOn = true ∧ s.lstate p.val l = lsUp ∧ (l = .b → s.pstate p.val = psDown →
      s.laneUp p.val .a = false)) ∧
    (∃ (s : State) (p : Fin 4) (l : Lane), s.ringOn = true ∧ s.lstate p.val l = lsFail) :=
  ⟨⟨laneA 1 RingPort.reset, 3, by decide +kernel⟩,
   ⟨laneA 1 RingPort.reset, 3, .a, by decide +kernel⟩,
   ⟨laneA 2 RingPort.reset, 3, .a, by decide +kernel⟩,
   ⟨laneA 2 { RingPort.reset with settled := 1 }, 3, .a, by decide +kernel⟩,
   ⟨laneA 2 RingPort.reset, 3, .a, by decide +kernel⟩,
   ⟨laneA 3 RingPort.reset, 3, 1, 5, 2, by decide +kernel, .inl (by decide +kernel)⟩,
   ⟨port3 5 [(laneReg 3 .a, 0x14), (laneReg 3 .b, 0x14)] RingPort.reset, 3, 5, 9, by decide +kernel⟩,
   ⟨laneA 3 { RingPort.reset with rtts := List.replicate 256 0 }, 3, 0, by decide +kernel⟩,
   ⟨laneA 3 RingPort.reset, 3, .a, by decide +kernel⟩,
   ⟨port3 4 [] RingPort.reset, 3, .b, true, by decide +kernel⟩,
   ⟨laneA 5 RingPort.reset, 3, .a, by decide +kernel⟩⟩

theorem witness_FeedbackChannels :
    (∃ (s : State) (e : Fin 16) (a b : Bool) (_stamp : Nat) (d : Int), s.timed = true ∧ s.encEn e.val = true ∧ encStep (s.fld (Reg.FBK_ENC
      e.val) 2 1) (s.bit (Reg.FBK_ENC_STAT e.val) 0) (s.bit (Reg.FBK_ENC_STAT e.val) 1) a b = some d ∧ d ≠ 0) ∧
    (∃ (s : State) (e : Fin 16) (a b : Bool) (_stamp : Nat), s.timed = true ∧ s.encEn e.val = true ∧ s.fld (Reg.FBK_ENC e.val) 2 1 = 0 ∧
      (quadPhase a b + 4 - quadPhase (s.bit (Reg.FBK_ENC_STAT e.val) 0) (s.bit (Reg.FBK_ENC_STAT e.val) 1)) % 4 = 2) ∧
    (∃ (s : State) (e : Fin 16) (_stamp : Nat), s.timed = true ∧ s.encEn e.val = true ∧ s.bit (Reg.FBK_ENC e.val) 8 = true ∧ s.bit (Reg.FBK_ENC
      e.val) 9 = false ∧ s.bit (Reg.FBK_ENC e.val) 10 = false ∧ s.bit (Reg.FBK_ENC_STAT e.val) 2 = false) ∧
    (∃ (s : State) (e : Fin 16) (line : Fin 3), s.clocked = true ∧ s.timed = true ∧ s.encEn e.val = true ∧ (line.val ≠ 2 ∨ s.bit (Reg.FBK_ENC
      e.val) 8 = true)) ∧
    (∃ (s : State) (e : Fin 16) (line : Fin 3), s.clocked = true ∧ s.timed = true ∧ s.encEn e.val = true ∧ (line.val ≠ 2 ∨ s.bit (Reg.FBK_ENC
      e.val) 8 = true)) ∧
    (∃ (s : State) (h code : Fin 8) (k k0 _stamp : Nat), s.timed = true ∧ s.bit (Reg.FBK_HALL h.val) 0 = true ∧ s.bit (Reg.FBK_HALL h.val) 1 =
      false ∧ hallSector code.val = some k ∧ (s.hallRt h.val).sector = some k0 ∧ (k + 6 - k0) % 6 = 1) ∧
    (∃ (s : State) (h code : Fin 8) (_stamp : Nat), s.timed = true ∧ s.bit (Reg.FBK_HALL h.val) 0 = true ∧ hallSector code.val = none) ∧
    (∃ (s : State) (h code : Fin 8) (_stamp : Nat), s.timed = true ∧ s.bit (Reg.FBK_HALL h.val) 0 = true ∧ hallSector code.val = none) ∧
    (∃ (s : State) (h _code : Fin 8) (_stamp : Nat), s.timed = true ∧ s.bit (Reg.FBK_HALL h.val) 0 = false) ∧
    (∃ (s : State) (c : Fin 8) (data : BitVec 48) (extra : BitVec 8) (idle mono : Bool) (raw cause : Nat), s.timed = true ∧ s.bit (Reg.FBK_SSI
      c.val) 0 = true ∧ (s.ssiRt c.val).done = false ∧ raw = (if s.bit (Reg.FBK_SSI c.val) 7 then grayToBin (data.toNat % 2 ^ s.ssiBits c.val)
      else data.toNat % 2 ^ s.ssiBits c.val) ∧ cause = s.ssiCause c.val (data.toNat % 2 ^ s.ssiBits c.val) extra.toNat raw idle mono) ∧
    (∃ (s : State) (n : Fin 16) (time : Nat) (d : Int) (rest : List (Nat × Int)), s.clocked = true ∧ (s.laxRt n.val).pulses = (time, d) :: rest)
      :=
  ⟨⟨st .run [(Reg.FBK_ENC 15, 1)], 15, true, false, 9, 1, by decide +kernel⟩,
   ⟨st .run [(Reg.FBK_ENC 15, 1)], 15, true, true, 9, by decide +kernel⟩,
   ⟨st .run [(Reg.FBK_ENC 15, 0x101)], 15, 9, by decide +kernel⟩,
   ⟨st .run [(Reg.FBK_ENC 15, 0x101)], 15, 2, by decide +kernel⟩,
   ⟨st .run [(Reg.FBK_ENC 0, 1)], 0, 1, by decide +kernel⟩,
   ⟨{ st .run [(Reg.FBK_HALL 7, 1)] with fbk := { Feedback.reset with hall := [(7, { HallRt.reset with sector := some 5 })] } }, 7, 1, 0, 5, 9,
    by decide +kernel⟩,
   ⟨st .run [(Reg.FBK_HALL 7, 1)], 7, 0, 9, by decide +kernel⟩,
   ⟨st .run [(Reg.FBK_HALL 7, 1)], 7, 7, 9, by decide +kernel⟩,
   ⟨st .run [(Reg.FBK_HALL 7, 0)], 7, 6, 9, by decide +kernel⟩,
   ⟨st .run [(Reg.FBK_SSI 7, 0x19)], 7, 0xFFF, 0, true, true, 0xFFF, (st .run [(Reg.FBK_SSI 7, 0x19)]).ssiCause 7 0xFFF 0 0xFFF true true,
    by decide +kernel⟩,
   ⟨{ st .run [] with fbk := { Feedback.reset with lax := [(15, { LaxRt.reset with pulses := [(9, -65536)] })] } }, 15, 9, -65536, [],
    by decide +kernel⟩⟩

theorem witness_FieldInputsAndSupplies :
    (∃ (s : State) (_j : Fin 16) (x : FieldSample), s.field.vcc = true ∧ (∀ i, i < 32 → s.diOn i < x.di.getD i 0 ∨ x.di.getD i 0 < 5000)) ∧
    (∃ (s : State) (i : Fin 8) (rising : Bool) (_stamp : Nat), s.field.vcc = true ∧ (s.eff (Reg.FIO_CNT i.val)).getLsbD 0 = true ∧ (s.eff
      (Reg.FIO_CNT i.val)).getLsbD (if rising then 1 else 2) = true) ∧
    (∃ (s : State) (g : Fin 2), s.field.vcc = true ∧ s.field.lpUv.getLsbD g.val = false) ∧
    (∃ (s : State) (g : Fin 2), s.field.vcc = true ∧ s.field.lpOv.getLsbD g.val = false) ∧
    (∃ (s : State) (g : Fin 2), s.field.vcc = true ∧ s.field.lpOff.getLsbD g.val = true) ∧
    (∃ (s : State), s.field.vcc = true) ∧
    (∃ (s : State), s.field.vcc = false) :=
  ⟨⟨fld [] Field.reset, 15, quiet, by decide +kernel⟩,
   ⟨fld [(Reg.FIO_CNT 7, 3)] Field.reset, 7, true, 9, by decide +kernel⟩,
   ⟨fld [] Field.reset, 1, by decide +kernel⟩,
   ⟨fld [] Field.reset, 0, by decide +kernel⟩,
   ⟨fld [] { Field.reset with lpOff := 2 }, 1, by decide +kernel⟩,
   ⟨fld [] Field.reset, by decide +kernel⟩,
   ⟨fld [] { Field.reset with vcc := false }, by decide +kernel⟩⟩

theorem witness_FieldOutputs :
    (∃ (s : State), s.ticking = true ∧ s.sys.dev ≠ .selftest ∧ s.field.vcc = true ∧ s.field.wordLost = false ∧ s.qtz.ended.testBit 5 = true) ∧
    (∃ (s : State), s.sys.dev = .selftest) ∧
    (∃ (s : State), s.field.vcc = true) ∧
    (∃ (s : State) (i : Fin 16), s.field.vcc = true ∧ s.field.on.getLsbD i.val = true) ∧
    (∃ (s : State) (i : Fin 16), s.field.vcc = true ∧ s.field.ovlOff.getLsbD i.val = true ∧ s.dqCommanded i.val = true ∧ s.dqCfg i.val 4 =
      false) ∧
    (∃ (s : State) (i : Fin 16) (off : Bool), s.field.vcc = true ∧ s.clocked = true ∧ s.openApplies i.val off = true ∧ s.bit Reg.FIO_DQ_OPEN (if
      off then 16 + i.val else i.val) = false) :=
  ⟨⟨{ st .run [] with qtz := { Quartz.reset with ended := 32 } }, by decide +kernel⟩,
   ⟨st .selftest [], by decide +kernel⟩,
   ⟨fld [] Field.reset, by decide +kernel⟩,
   ⟨fld [] { Field.reset with on := 0x8000 }, 15, by decide +kernel⟩,
   ⟨fld [(Reg.FIO_DQ_CFG 15, 0)] { Field.reset with ovlOff := 0x8000, word := 0x8000, lost := false }, 15, by decide +kernel⟩,
   ⟨fld [(Reg.FIO_DQ_CFG 15, 4)] { Field.reset with on := 0x8000 }, 15, false, by decide +kernel⟩⟩

theorem witness_PlantPorts :
    (∃ (s : State) (p : Fin 2) (f : EthFrame), s.ethOn p.val = true ∧ f.fcsOk = false) ∧
    (∃ (s : State) (p : Fin 2) (f : EthFrame), s.ethOn p.val = true ∧ f.fcsOk = true ∧ f.bytes.length + 4 ≤ s.effFld (Reg.ETH_CTRL p.val) 21 8 ∧
      isPause f.bytes = true) ∧
    (∃ (s : State) (p : Fin 2) (f : EthFrame), s.ethOn p.val = true ∧ f.fcsOk = true ∧ f.bytes.length + 4 ≤ s.effFld (Reg.ETH_CTRL p.val) 21 8 ∧
      isPause f.bytes = false ∧ (∀ i, i < 4 → s.mstMatch p.val i f.bytes = none) ∧ (s.fld (Reg.ETH_RXR_HEAD p.val (s.rxRing p.val f.bytes)) 7 0
      + 1) % 256 ≠ s.fld (Reg.ETH_RXR_TAIL p.val (s.rxRing p.val f.bytes)) 7 0) ∧
    (∃ (s : State) (p : Fin 2) (f : EthFrame), s.ethOn p.val = true ∧ f.fcsOk = true ∧ f.bytes.length + 4 ≤ s.effFld (Reg.ETH_CTRL p.val) 21 8 ∧
      isPause f.bytes = false ∧ (∀ i, i < 4 → s.mstMatch p.val i f.bytes = none) ∧ (s.fld (Reg.ETH_RXR_HEAD p.val (s.rxRing p.val f.bytes)) 7 0
      + 1) % 256 = s.fld (Reg.ETH_RXR_TAIL p.val (s.rxRing p.val f.bytes)) 7 0) ∧
    (∃ (s : State) (p : Fin 2) (q : Fin 8) (_raw : Int) (_held : Bool), s.ethOn p.val = true ∧ s.txWaits p.val q.val = true ∧ s.txOnWire p.val
      q.val = true ∧ (s.eff (Reg.ETH_TXQ p.val)).getLsbD q.val = false) ∧
    (∃ (s : State) (p : Fin 2) (q : Fin 8), s.ethOn p.val = true ∧ s.txTimed p.val q.val = true ∧ s.txBusy p.val = false ∧ (∀ r, r < 8 → q.val <
      r → s.txTimed p.val r = true → s.txTime p.val r ≠ s.txTime p.val q.val) ∧ s.now ≤ s.txTime p.val q.val) ∧
    (∃ (s : State) (p : Fin 2), s.ethOn p.val = true ∧ s.bit (Reg.ETH_STAT p.val) 0 = true) ∧
    (∃ (s : State) (p : Fin 2) (_rate : Fin 4) (_an : Bool), s.ethOn p.val = true ∧ s.bit (Reg.ETH_STAT p.val) 0 = false) ∧
    (∃ (s : State) (ag : Agent) (p : Fin 2) (_q : Fin 8) (_v : Word), s.writable ag (Page.ETH p.val) = true) ∧
    (∃ (s : State) (ag : Agent) (p : Fin 2) (q : Fin 8) (_v : Word), s.writable ag (Page.ETH p.val) = true ∧ (s.eff (Reg.ETH_TXQ p.val)).getLsbD
      q.val = false) :=
  ⟨⟨eth1 [], 1, frame [0x88, 0xF7] false, by decide +kernel⟩,
   ⟨eth1 [], 1, frame [0x88, 0x08, 0, 1] true, by decide +kernel⟩,
   ⟨eth1 [], 1, frame [0x88, 0x08, 0, 2] true, by decide +kernel⟩,
   ⟨eth1 ((List.range 8).map (fun q => (Reg.ETH_RXR_TAIL 1 q, 1))), 1, frame [0x88, 0xF7] true, by decide +kernel⟩,
   ⟨{ eth1 [(Reg.ETH_TXR_TAIL 1 7, 1), (Reg.ETH_TXQ 1, 0)] with plant := { Plant.reset with sending := [15] } }, 1, 7, 9, false,
    by decide +kernel⟩,
   ⟨tx7, 1, 7, by decide +kernel⟩,
   ⟨eth1 [(Reg.ETH_STAT 1, 1)], 1, by decide +kernel⟩,
   ⟨eth1 [], 1, 3, true, by decide +kernel⟩,
   ⟨st .run [], .host, 1, 7, 9, by decide +kernel⟩,
   ⟨st .run [(Reg.ETH_TXQ 1, 0x7F)], .host, 1, 7, 255, by decide +kernel⟩⟩

theorem witness_HostEndpoint :
    (∃ (s : State) (o _len : Nat) (bs : List (BitVec 8)), s.clocked = true ∧ s.domOn 10 = true ∧ o < 0x4000000 ∧ (bs.length = 4 ∨ bs.length =
      8)) ∧
    (∃ (s : State) (o _len : Nat) (bs : List (BitVec 8)), s.clocked = true ∧ s.domOn 10 = true ∧ s.bit Reg.PCI_CTRL 8 = true ∧ bs ≠ [] ∧ o % 64
      + bs.length ≤ 64 ∧ inCell o bs.length = true ∧ s.commits o bs.length = [] ∧ s.sealedAt o bs.length = false ∧ s.integ.ue = []) ∧
    (∃ (s : State) (o n : Nat), s.clocked = true ∧ s.domOn 10 = true ∧ 0 < n ∧ n ≤ 512 ∧ inCell o n = true ∧ s.ueIn 0x80 o n = false) ∧
    (∃ (s : State) (b : Fin 6) (_o _n : Nat), s.clocked = true ∧ s.domOn 10 = true ∧ b.val % 2 = 1) ∧
    (∃ (s : State) (_loss : Bool), s.clocked = true ∧ s.domOn 10 = true) ∧
    (∃ (s : State) (speed width : Fin 8), s.clocked = true ∧ s.domOn 10 = true ∧ s.bit Reg.PCI_STAT 0 = false ∧ 1 ≤ speed.val ∧ speed.val ≤ 4 ∧
      (width.val = 1 ∨ width.val = 2 ∨ width.val = 4)) ∧
    (∃ (s : State) (_a _len : Nat) (_bs : List (BitVec 8)), s.clocked = true) ∧
    (∃ (s : State) (a _len : Nat) (bs : List (BitVec 8)), s.clocked = true ∧ flashGuarded a bs.length = false) ∧
    (∃ (s : State) (_a _len : Nat) (_bs : List (BitVec 8)) (_e : Fin 64), s.clocked = true) ∧
    (∃ (s : State) (a _len : Nat) (bs : List (BitVec 8)), s.clocked = true ∧ flashGuarded a bs.length = true) ∧
    (∃ (s : State) (i : JtagInstr), s.jtagOk i = true) ∧
    (∃ (s : State) (i : JtagInstr), s.jtagOk i = false) :=
  ⟨⟨st .run [], 0x3FFFFFC, 4, [1, 2, 3, 4], by decide +kernel⟩,
   ⟨st .run [(Reg.PCI_CTRL, 0x100)], 60, 4, [1, 2, 3, 4], by decide +kernel⟩,
   ⟨st .run [], 0, 512, by decide +kernel⟩,
   ⟨st .run [], 5, 0, 4, by decide +kernel⟩,
   ⟨st .run [], true, by decide +kernel⟩,
   ⟨st .run [(Reg.PCI_STAT, 0)], 4, 4, by decide +kernel⟩,
   ⟨st .run [], 0x1100000, 2, [1, 2], by decide +kernel⟩,
   ⟨st .run [], 0x1310000, 1, [1], by decide +kernel⟩,
   ⟨st .run [], 0x1310000, 1, [1], 63, by decide +kernel⟩,
   ⟨st .run [], 0x130FFFF, 1, [1], by decide +kernel⟩,
   ⟨st .boot [], .debug, by decide +kernel⟩,
   ⟨st .run [], .extest, by decide +kernel⟩⟩

theorem witness_TwinInterlock :
    (∃ (s : State), s.twinEn = true ∧ s.clocked = true ∧ s.bit Reg.TWN_STAT 2 = false ∧ s.peerHolds = false ∧ (s.wantsSwitch = true ∨
      (s.wantsStart = true ∧ s.bit Reg.TWN_CTRL 2 = true)) ∧ s.twin.retry = none) ∧
    (∃ (s : State), s.twinEn = true ∧ s.clocked = true ∧ s.bit Reg.TWN_STAT 2 = false ∧ s.peerHolds = false ∧ (s.wantsSwitch = true ∨
      (s.wantsStart = true ∧ s.bit Reg.TWN_CTRL 2 = true)) ∧ s.twin.retry = none) ∧
    (∃ (s : State), s.twinEn = true ∧ s.clocked = true ∧ s.bit Reg.TWN_STAT 2 = false ∧ s.peerHolds = false ∧ (s.wantsSwitch = true ∨
      (s.wantsStart = true ∧ s.bit Reg.TWN_CTRL 2 = true)) ∧ s.twin.retry ≠ none) ∧
    (∃ (s : State), s.twinEn = true ∧ s.clocked = true ∧ s.bit Reg.TWN_STAT 2 = false ∧ s.peerHolds = false ∧ s.wantsStart = true ∧ s.bit
      Reg.TWN_CTRL 2 = false ∧ s.twin.retry = none) ∧
    (∃ (s : State) (sw : Bool), s.twin.taking = some sw ∧ s.peerHolds = false) ∧
    (∃ (s : State) (sw : Bool), s.twin.taking = some sw ∧ s.peerHolds = true) ∧
    (∃ (s : State), s.twinEn = true ∧ s.bit Reg.TWN_STAT 2 = true) ∧
    (∃ (s : State), s.clocked = true ∧ s.twinEn = true ∧ s.holdsLock = true) ∧
    (∃ (s : State) (_low : Bool), s.twinEn = false) ∧
    (∃ (s : State), s.clocked = true ∧ s.twinEn = true ∧ 2 ≤ s.role) ∧
    (∃ (s : State), s.clocked = true ∧ s.twinEn = true) ∧
    (∃ (s : State) (_w : Word), s.clocked = true ∧ s.twinEn = true ∧ s.role = 1) ∧
    (∃ (s : State) (ag : Agent), s.writable ag Page.TWN = true ∧ s.twinEn = true ∧ s.role = 1 ∧ s.holdsLock = true ∧ s.bit Reg.TWN_PEER_HEALTH
      31 = true ∧ s.bit Reg.TWN_STAT 12 = false) ∧
    (∃ (s : State) (_opened : Bool) (_seed : BitVec 16), s.clocked = true ∧ s.standby = true ∧ s.field.vcc = true) ∧
    (∃ (s : State), s.field.parUntil ≠ none) :=
  ⟨⟨twn .ready 5 0 [] Twin.reset, by decide +kernel⟩,
   ⟨twn .run 1 2 [] { Twin.reset with recog := true, health := 0x80000000 }, by decide +kernel⟩,
   ⟨twn .ready 5 0 [] { Twin.reset with retry := some false }, by decide +kernel⟩,
   ⟨twn .ready 1 0 [] Twin.reset, by decide +kernel⟩,
   ⟨twn .ready 1 4 [] { Twin.reset with taking := some false }, false, by decide +kernel⟩,
   ⟨twn .ready 1 0xC [] { Twin.reset with taking := some true }, true, by decide +kernel⟩,
   ⟨twn .run 1 5 [] Twin.reset, by decide +kernel⟩,
   ⟨twn .run 1 5 [] Twin.reset, by decide +kernel⟩,
   ⟨twn .run 0 0 [] Twin.reset, true, by decide +kernel⟩,
   ⟨twn .run 1 2 [] Twin.reset, by decide +kernel⟩,
   ⟨twn .run 1 2 [] Twin.reset, by decide +kernel⟩,
   ⟨twn .run 1 1 [] Twin.reset, 0xFFFFFFFF, by decide +kernel⟩,
   ⟨twn .run 1 5 [(Reg.TWN_PEER_HEALTH, 0x80000000)] Twin.reset, .host, by decide +kernel⟩,
   ⟨twn .run 1 2 [] Twin.reset, true, 9, by decide +kernel⟩,
   ⟨fld [] { Field.reset with parUntil := some 5 }, by decide +kernel⟩⟩

theorem witness_TwinSync :
    (∃ (s : State) (_m : MirrorFrame) (_i : SyncImage), s.clocked = true ∧ s.twinEn = true ∧ s.role = 0) ∧
    (∃ (s : State) (m : MirrorFrame), s.clocked = true ∧ s.twinEn = true ∧ 2 ≤ s.role ∧ m.tick = s.tick) ∧
    (∃ (s : State) (m : MirrorFrame), m.tick ≠ s.tick) ∧
    (∃ (s : State) (m : MirrorFrame), m.tick ≠ s.tick) ∧
    (∃ (s : State) (m : MirrorFrame), s.clocked = true ∧ s.twinEn = true ∧ m.tick ≠ s.tick) ∧
    (∃ (s : State) (_b : TwinBeat), s.clocked = true ∧ s.twinEn = true ∧ 2 ≤ s.role) ∧
    (∃ (s : State) (ag : Agent), s.writable ag Page.TWN = true ∧ s.twinEn = true ∧ s.role = 1 ∧ s.twin.syncing = false ∧ s.regionListOk = true)
      ∧
    (∃ (s : State) (ag : Agent), s.writable ag Page.TWN = true ∧ s.twinEn = true ∧ s.role = 1 ∧ s.twin.syncing = false ∧ s.regionListOk = false)
      ∧
    (∃ (s : State), s.clocked = true ∧ s.twinEn = true ∧ s.role = 1 ∧ s.twin.syncing = false ∧ s.regionListOk = true ∧ s.bit Reg.TWN_CTRL 7 =
      true ∧ s.bit Reg.TWN_STAT 4 = true ∧ s.bit Reg.TWN_PEER_HEALTH 0 = false ∧ 4 ≤ s.fld Reg.TWN_PEER_HEALTH 15 12) ∧
    (∃ (s : State), s.clocked = true ∧ s.twinEn = true ∧ (s.role = 3 ∨ (s.role = 1 ∧ s.twin.syncing = true))) ∧
    (∃ (s : State), s.clocked = true ∧ s.twinEn = true ∧ (s.role = 3 ∨ (s.role = 1 ∧ s.twin.syncing = true))) ∧
    (∃ (s : State), s.clocked = true ∧ s.role = 3) ∧
    (∃ (s : State) (e : Fin 1024) (_ws : List Word), s.clocked = true ∧ s.twinEn = true ∧ (s.eff Reg.EVT_CTRL).getLsbD 1 = true ∧ s.integ.ue =
      [] ∧ inCell ((s.eff Reg.EVT_PEER_BASE).toNat + 64 * e.val) 64 = true) :=
  ⟨⟨twn .ready 1 0 [] Twin.reset, ⟨0, true, [], [], [], [], none, 3⟩, ⟨0, [], [], [], [], Prof.reset, Loop.reset, Ssm.reset, [], [], 0, 0, [],
    0, 0, 8, false, false, [], []⟩, by decide +kernel⟩,
   ⟨twn .run 1 2 [] Twin.reset, ⟨0, true, [], [], [], [], none, 3⟩, by decide +kernel⟩,
   ⟨twn .run 1 2 [] Twin.reset, ⟨1, true, [], [], [], [], none, 3⟩, by decide +kernel⟩,
   ⟨twn .off 0 0 [] Twin.reset, ⟨1, true, [], [], [], [], none, 3⟩, by decide +kernel⟩,
   ⟨twn .run 1 0 [] Twin.reset, ⟨1, true, [], [], [], [], none, 3⟩, by decide +kernel⟩,
   ⟨twn .run 1 3 [] Twin.reset, ⟨0, false, false, 0, -1, true, 0⟩, by decide +kernel⟩,
   ⟨twn .run 1 1 [] Twin.reset, .host, by decide +kernel⟩,
   ⟨{ twn .run 1 1 [] Twin.reset with cell := Memory.set32 [] 4 63 }, .host, by decide +kernel⟩,
   ⟨twn .run 0x81 0x11 [(Reg.TWN_PEER_HEALTH, 0x4000)] Twin.reset, by decide +kernel⟩,
   ⟨twn .run 1 3 [] Twin.reset, by decide +kernel⟩,
   ⟨twn .run 1 1 [] { Twin.reset with syncing := true }, by decide +kernel⟩,
   ⟨twn .run 1 3 [] Twin.reset, by decide +kernel⟩,
   ⟨st .run [(Reg.TWN_CTRL, 1), (Reg.EVT_CTRL, 0xC02)], 1023, List.replicate 16 0, by decide +kernel⟩⟩

theorem witness_RegisterAccess :
    (∃ (s : State) (ag : Agent) (a : Nat) (v : BitVec 64) (x : Word), s.cfgWritable ag Page.SYS = true ∧ s.configurable = true ∧ 0x40000100 ≤ a
      ∧ a < 0x40000800 ∧ a % 4 = 0 ∧ s.merged a (v.extractLsb' 0 32) = some x ∧ keeps s (s.wr a x) Page.SYS = true) ∧
    (∃ (s : State) (ag : Agent) (a : Nat) (v : BitVec 64) (x : Word), s.cfgWritable ag Page.SOL = true ∧ s.configurable = true ∧ 0x40005100 ≤ a
      ∧ a < 0x40005800 ∧ a % 4 = 0 ∧ s.merged a (v.extractLsb' 0 32) = some x ∧ keeps s (s.wr a x) Page.SOL = true) ∧
    (∃ (s : State) (ag : Agent) (a : Nat) (_v : BitVec 64), s.writable ag Page.SYS = true ∧ 0x40000100 ≤ a ∧ a < 0x40000800 ∧ a % 4 = 0 ∧
      (s.configurable = false ∨ s.bit (Reg.PG_LOCK Page.SYS) 0 = true)) ∧
    (∃ (s : State) (ag : Agent) (a : Nat) (_v : BitVec 64), s.writable ag Page.SYS = true ∧ 0x40000100 ≤ a ∧ a < 0x40000800 ∧ a % 4 = 0 ∧
      (s.configurable = false ∨ s.bit (Reg.PG_LOCK Page.SYS) 0 = true)) ∧
    (∃ (s : State) (ag : Agent) (n : Fin 144) (_v : BitVec 64), s.cfgWritable ag (Page.PRF n.val) = true ∧ s.configurable = true) ∧
    (∃ (s : State) (ag : Agent) (n : Fin 144) (_v : BitVec 64), s.cfgWritable ag (Page.PRF n.val) = true ∧ s.configurable = false) ∧
    (∃ (s : State) (a : Nat) (_v : BitVec 64), s.clocked = true ∧ (a < 0x40000000 ∨ a % 4 ≠ 0 ∨ pageKind (pageOf a) = none)) ∧
    (∃ (s : State) (a : Nat) (_v : BitVec 64), s.clocked = true ∧ (a < 0x40000000 ∨ a % 4 ≠ 0 ∨ pageKind (pageOf a) = none)) ∧
    (∃ (s : State) (a : Nat) (_v : BitVec 64), s.clocked = true ∧ (a < 0x40000000 ∨ a % 4 ≠ 0 ∨ pageKind (pageOf a) = none)) ∧
    (∃ (s : State) (_ag : Agent) (_k : Fin 7), s.clocked = true ∧ s.domOn 0 = true) ∧
    (∃ (s : State) (_ag : Agent) (p : Nat), s.clocked = true ∧ (pageKind p).isSome = true ∧ s.domOn (domainOf p) = true) :=
  ⟨⟨st .ready [], .host, 0x40000100, 1, 1, by decide +kernel⟩,
   ⟨st .ready [], .host, Reg.SOL_QF 1, 0x1F080808, 0x1F080808, by decide +kernel⟩,
   ⟨st .run [], .host, 0x40000100, 1, by decide +kernel⟩,
   ⟨st .ready [(Reg.PG_LOCK Page.SYS, 1)], .host, 0x400007FC, 1, by decide +kernel⟩,
   ⟨st .ready [], .host, 143, 9, by decide +kernel⟩,
   ⟨st .run [], .host, 143, 9, by decide +kernel⟩,
   ⟨st .run [], 0x3FFFFFFC, 1, by decide +kernel⟩,
   ⟨st .run [], 0x40000002, 1, by decide +kernel⟩,
   ⟨st .run [], 0x40FFF000, 1, by decide +kernel⟩,
   ⟨st .run [], .host, 6, by decide +kernel⟩,
   ⟨st .run [], .host, Page.FLT, by decide +kernel⟩⟩

theorem witness_AccessRefused :
    (∃ (s : State) (_ag : Agent) (p : Nat) (_v : Word), (pageKind p).isSome = true ∧ s.clocked = false) ∧
    (∃ (s : State) (_ag : Agent) (p : Nat) (_v : Word), (pageKind p).isSome = true ∧ s.clocked = true ∧ s.domOn (domainOf p) = false) ∧
    (∃ (s : State) (ag : Agent) (p : Nat) (_v : Word), (pageKind p).isSome = true ∧ s.clocked = true ∧ s.domOn (domainOf p) = true ∧ ((∃ e, ag =
      .engine e) ∨ (ag = .host ∧ p = Page.DBG) ∨ (ag = .host ∧ s.bit (Reg.PG_LOCK p) 1 = true) ∨ (∃ n, ag = .core n ∧ s.bit (Reg.PG_LOCK p) 2 =
      true))) ∧
    (∃ (s : State) (ag : Agent) (p : Nat) (_v : Word), (pageKind p).isSome = true ∧ s.clocked = true ∧ s.domOn (domainOf p) = true ∧ ((∃ e, ag =
      .engine e) ∨ (ag = .host ∧ p = Page.DBG) ∨ (ag = .host ∧ s.bit (Reg.PG_LOCK p) 1 = true) ∨ (∃ n, ag = .core n ∧ s.bit (Reg.PG_LOCK p) 2 =
      true))) ∧
    (∃ (s : State) (ag : Agent) (p : Nat) (_v : Word), (pageKind p).isSome = true ∧ s.clocked = true ∧ s.domOn (domainOf p) = true ∧ ((∃ e, ag =
      .engine e) ∨ (ag = .host ∧ p = Page.DBG) ∨ (ag = .host ∧ s.bit (Reg.PG_LOCK p) 1 = true) ∨ (∃ n, ag = .core n ∧ s.bit (Reg.PG_LOCK p) 2 =
      true))) ∧
    (∃ (s : State) (ag : Agent) (p : Nat) (_v : Word), (pageKind p).isSome = true ∧ s.clocked = true ∧ s.domOn (domainOf p) = true ∧ ((∃ e, ag =
      .engine e) ∨ (ag = .host ∧ p = Page.DBG) ∨ (ag = .host ∧ s.bit (Reg.PG_LOCK p) 1 = true) ∨ (∃ n, ag = .core n ∧ s.bit (Reg.PG_LOCK p) 2 =
      true))) ∧
    (∃ (s : State) (ag : Agent) (p : Nat) (_v : Word), (pageKind p).isSome = true ∧ s.clocked = true ∧ s.domOn (domainOf p) = true ∧ ((∃ e, ag =
      .engine e) ∨ (ag = .host ∧ p = Page.DBG))) ∧
    (∃ (s : State) (ag : Agent) (p : Nat) (_v : Word), (pageKind p).isSome = true ∧ s.clocked = true ∧ s.domOn (domainOf p) = true ∧ ((∃ e, ag =
      .engine e) ∨ (ag = .host ∧ p = Page.DBG))) :=
  ⟨⟨st .frozen [], .host, Page.FLT, 1, by decide +kernel⟩,
   ⟨{ st .run [] with regs := [(Reg.PWR_DOM_STAT, 0xFFF)] }, .host, Page.FLT, 1, by decide +kernel⟩,
   ⟨st .run [], .engine 63, Page.SYS, 1, by decide +kernel, by decide +kernel, by decide +kernel, .inl ⟨63, rfl⟩⟩,
   ⟨st .run [], .host, Page.DBG, 1, by decide +kernel, by decide +kernel, by decide +kernel, .inr (.inl (by decide +kernel))⟩,
   ⟨st .run [(Reg.PG_LOCK 5, 2)], .host, 5, 1, by decide +kernel, by decide +kernel, by decide +kernel, .inr (.inr (.inl (by decide +kernel)))⟩,
   ⟨st .run [(Reg.PG_LOCK 5, 4)], .core 3, 5, 1, by decide +kernel, by decide +kernel, by decide +kernel, .inr (.inr (.inr ⟨3,
    by decide +kernel⟩))⟩,
   ⟨st .run [], .engine 0, Page.SYS, 1, by decide +kernel, by decide +kernel, by decide +kernel, .inl ⟨0, rfl⟩⟩,
   ⟨st .run [], .host, Page.DBG, 1, by decide +kernel, by decide +kernel, by decide +kernel, .inr (by decide +kernel)⟩⟩

theorem witness_SolverFormats :
    (∃ (s : State), s.fracSet oZ < 8) ∧
    (∃ (s : State) (ag : Agent) (v : BitVec 64) (x : Word), s.cfgWritable ag Page.SOL = true ∧ 8 ≤ s.fracSet oZ ∧ s.merged (Reg.SOL_QF (oZ / 4))
      (v.extractLsb' 0 32) = some x ∧ (s.wr (Reg.SOL_QF (oZ / 4)) x).fracSet oZ < 8) :=
  ⟨⟨st .ready [(Reg.SOL_QF 1, 0x00070000)], by decide +kernel⟩,
   ⟨st .ready [], .host, 0x00070000, 0x00070000, by decide +kernel⟩⟩

/-! ### The spec's worked examples -/

/-- The state after a command. -/
def after (c : Instr) (s : State) : State :=
  match exec c s with
  | .next t => t
  | _ => s

/-- spec/03_motion_engines.md, the table of bit-exact moves under rule R65: ACC, SH, the word moved and SAT. -/
theorem test_moves :
    [(98304, 16, 0x00000002, false), (-98304, 16, 0xFFFFFFFF, false), (2 ^ 23, 24, 0x00000001, false),
     (-2 ^ 23, 24, 0x00000000, false), (-2 ^ 23 - 1, 24, 0xFFFFFFFF, false), (-2 ^ 39, 8, 0x80000000, false),
     (2 ^ 39, 8, 0x7FFFFFFF, true), (2 ^ 28, -4, 0x7FFFFFFF, true)].all
      (fun r : Int × Int × Word × Bool => decide (BitVec.ofInt 32 (satTo 32 (scaleBy r.1 r.2.1)) = r.2.2.1) &&
        decide (satTo 32 (scaleBy r.1 r.2.1) ≠ scaleBy r.1 r.2.1) == r.2.2.2) = true := by decide +kernel

/-- Engine 0 before bundle n of the feedforward example of spec/03_motion_engines.md. -/
def ff0 : Eng := { Eng.reset with d := [(4, 0x80000000), (5, 2), (8, 0x00C00000)], sp := [(0, 24)] }

/-- The same with ACC0 as given. -/
def ffSt (a : BitVec 80) : State :=
  { st .run [(Reg.ENG_STAT 0, 3)] with eng := [(0, { ff0 with acc := [(0, a)], accMva := [(0, a)] })] }

/-- Bundle n: MPYU takes D4 as unsigned, 3 × 2⁵³. -/
theorem test_mpyu : ((after (.mpyu 0 true 0 8 4) (ffSt 1)).engOf 0).accr 0 = 0x00000060000000000000 := by decide +kernel

/-- Bundle n+1: MACH adds the product × 2³², 15 × 2⁵³. -/
theorem test_mach : ((after (.mach 0 true 0 8 5) (ffSt 0x00000060000000000000)).engOf 0).accr 0 = 0x000001E0000000000000 := by
  decide +kernel

/-- Bundle n+3: MVA of form 0b001 moves 1.875 to the pair D6:D7, visible one bundle later. -/
theorem test_mva_pair :
    ((after (.mva 0 false true 6 0 1) (ffSt 0x000001E0000000000000)).engOf 0).late = [(6, 0xE0000000), (7, 1)] := by decide +kernel

/-- spec/02_tick_and_time.md, steps 1, 4 and 6: the two rates are accepted, and the realignment tick ends at the first grid
instant at least half a tick after the step. -/
theorem test_quartz_example :
    (incOk 0x4000346DC && incOk 0x40003CD14 && gridFrom 125000 0 (7200000163406 + 62500) == 7200000250000) = true := by decide +kernel

/-- spec/05_motion_profiles.md, the gear of G12: s(k) and its velocity at θ = 123,460.5 and ω = 15. -/
theorem test_gear : gearTarget (2000000 * 65536) 1 3 (246921 * 32768) (15 * 2 ^ 32) = (0x1F25418000, 0x500000000) := by decide +kernel

/-- spec/05_motion_profiles.md, the compares of G13: none between 10,005 and 10,010, and one at 10,012 between 10,010 and 10,015. -/
theorem test_compare :
    (crossings ⟨10012 * 65536, 4, 0, -1, false⟩ (10005 * 65536) (10010 * 65536)).1 = 0 ∧
    crossings ⟨10012 * 65536, 4, 0, -1, false⟩ (10010 * 65536) (10015 * 65536) = (1, 10012 * 65536, 1) := by decide +kernel

/-- spec/06_loop_engine.md, the position stage: p = 0.875. -/
theorem test_loop_position :
    ((⟨0x400000, 0, 0, 0, 0, 8, false, 0, -2 ^ 63, 2 ^ 63 - 1⟩ : Coef).stage StageState.zero 0x38000 0 0 64 false false none).cand
      = 0xE0000000 := by decide +kernel

/-- The velocity stage of the same tick: itent, d and u0 with the feedforward torque of 0x0020_0000. -/
theorem test_loop_velocity :
    let o := (⟨0x2000000, 0x100000, 0x800000, 0x800000, 16, 16, false, 0x800000, -0xC000000000, 0xC000000000⟩ : Coef).stage
      ⟨0x1800000000, 0x1000000000, 0x1000, 0⟩ 0x20000000 0 0x200000 32 false false none
    (o.itent, o.d, o.e, o.cand) = (0x1A00000000, 0x1000000000, 0x2000, 0x8A0000) := by decide +kernel

/-- The limiting stage L1: its candidate and integrator. -/
theorem test_loop_limit :
    let o := (⟨0x2000000, 0x100000, 0, 0, 16, 16, false, 0, -0xC000000000, 0xC000000000⟩ : Coef).stage
      ⟨0x8000000000, 0, 0, 0⟩ (-0x20000000) 0 0 32 false false none
    (o.itent, o.cand) = (0x7E00000000, 0x3E0000) := by decide +kernel

/-- spec/07_cell_solver.md, the two tracks on one rail: z(G8), z(G9) and y of the coupling row after four iterations. -/
theorem test_solver :
    let c : SolCfg := ⟨List.replicate 16 24, 65536, 0, 2 ^ 24, 1, 1⟩
    let gs : List SolGroup := [⟨8, 0, 1, true, [[2 ^ 25]], [-14680064]⟩, ⟨9, 1, 1, true, [[2 ^ 25]], [14680064]⟩]
    let row : SolRow := ⟨0, [(0, -2 ^ 24), (1, 2 ^ 24)], some 0, some (-4194304), none⟩
    ((c.iterations gs [row] 4 ([7340032, -7340032], [0])).run ⟨0, none, 0, 0, 0⟩).1 = ([2424832, -2424832], [-9830400]) := by decide +kernel

/-- The settings of spec/08_separation_monitoring.md's operator at the press gap. -/
def gap : State :=
  st .run [(Reg.SSM_CTRL, 0x01285011), (Reg.SSM_GRP 1, 0x00020000), (Reg.SSM_GRP 1 + 8, 0x2800), (Reg.SSM_GRP 1 + 12, 5000),
    (Reg.SSM_VH 0, 200), (Reg.SSM_C 0, 20000), (Reg.SSM_HEAD 2 + 4, 30000)]

/-- S_p at 150, 118, 100, 60 and 0 µm per tick, and v_allow at the three separations. -/
theorem test_separation :
    let q := gap.sensedQuad 1 2 ⟨⟨0, 0, 0⟩, ⟨0, 0, 0⟩, 0, 0, 0, 0, 0⟩
    ([(150, 3340500), (118, 2642708), (100, 2279000), (60, 1545000), (0, 636000)].all (fun p => decide (q.num p.1 * 10 = p.2 * q.d))) = true ∧
    (q.allow 500000, q.allow 250000, q.allow 60000) = (216, 111, 0) ∧
    (216 * 32768 / 250, 111 * 32768 / 250) = (0x6E97, 0x38D4) := by decide +kernel

/-- spec/11_ring_links.md, the hops of P0 on lane A in 0.2 ns units and the delays from the master end. -/
theorem test_hops :
    ([300, 175, 200, 325].map (fun r => hopShare r 400 1000)) = [120, 70, 80, 130] ∧
    delaysOf 0 [(1, 120, 1000), (2, 70, 1000), (3, 80, 1000)] = [(1, 120), (2, 1190), (3, 2270)] := by decide +kernel

/-- spec/12_feedback_local_axes.md, the pulses of three and four microsteps in a tick of 125 µs. -/
theorem test_pulses :
    ([0, 1, 2].map (pulseOffset 250 125000 3)) = [1000, 42332, 83664] ∧
    ([0, 1, 2, 3].map (pulseOffset 250 125000 4)) = [1000, 32000, 63000, 94000] := by decide +kernel

/-- The period method of the same example at B5: 1,562,500 / 488,280 microsteps per tick. -/
theorem test_period_speed :
    (st .run [(Reg.LAX_K 0, 0xC8000), (Reg.LAX_PER_MAX 0, 1000)]).vPeriod 0 ⟨some (588280, 2), 0, 1, true, some (100000, 1), none⟩ 625000
      = (2 * 1562500 * 2 ^ 32 + 488280) / (2 * 488280) := by decide +kernel

/-- spec/10_ring_protocol.md: CYC_IN of 240 bytes is 1 block, and a frame of 256 bytes or more of header and payload has one more. -/
theorem test_blocks : (blockCount 240, blockCount 244, blockCount 245) = (1, 1, 2) := by decide +kernel

/-- The check values of the two polynomials over the ASCII digits 1 to 9, as their published catalogue gives them. -/
theorem test_crc :
    let l : List (BitVec 8) := [0x31, 0x32, 0x33, 0x34, 0x35, 0x36, 0x37, 0x38, 0x39]
    crc32 l = 0xCBF43926 ∧ crc32c l = 0xE3069283 := by decide +kernel

/-! ### One command at a time -/

/-- ADD wraps and ADDS saturates, rule R66. -/
theorem test_add : ((after (.add 0 false true 0 1) (run1 0)).engOf 0).dr 0 = 0x80000004 := by decide +kernel

theorem test_adds : ((after (.adds 0 false true 0 1) (run1 0)).engOf 0).dr 0 = 0x7FFFFFFF := by decide +kernel

/-- A destination that is also the source: 5 − 5. -/
theorem test_sub_self : ((after (.sub 0 true true 1 1) (run1 0)).engOf 0).dr 1 = 0 := by decide +kernel

/-- SWR without its key is counted, and with it resets the part, rule R411. -/
theorem test_swr :
    (after (.swReset .host 1) (st .run [])).rdN Reg.SYS_REFUSE_CNT = 1 ∧ (after (.swReset .host 0xC128) (st .run [])).sys.dev = .reset ∧
    (after (.swReset .host 0xC128) (st .run [])).rdN Reg.SYS_RST_CAUSE = 4 := by decide +kernel

/-- SAF_IN's runs: demand enters only after FILT + 1 snapshots, rule R203. -/
theorem test_demand :
    ((after (.inputDemandEnter 15) (in15 { SafIn.reset with runA := 1 })).safIn 15).demand = true ∧
    ((after (.inputDemandEnter 15) (in15 SafIn.reset)).safIn 15).demand = false := by decide +kernel

/-- An idle queue idles; the front command runs first, here a warning with the clocks gated. -/
theorem test_idle : step State.reset = .next State.reset := rfl

theorem test_front (s : State) : step { s with pending := [.swReset (.engine 0) 0xC128, .resetN], sys := { s.sys with dev := .frozen } } =
    .next { s with pending := [.resetN], sys := { s.sys with dev := .frozen } } := rfl

/-- No word spells a command (notes/assumptions/7.md). -/
theorem test_no_word : decodeTableWord 32 0 = none ∧ State.reset.withFetchWord 32 0 = State.reset := by decide +kernel

/-! ### Bundles, written out bit by bit from rules R73 and R74 -/

/-- Header 0b00: MAC of ACC3 with D31 and D16; LD of D30 by X7, mode 3; ADDI of −1 to D5; BCC neither Z nor N, −63 bundles. -/
theorem test_bundle_short :
    decodeBundle 63 0b00_000010_11_11111_10000_00011_11110_111_11_11110_00101_11111_0010_110_1000001 =
      some [.mac 63 false 3 31 16, .ld 63 false false 30 7 3 .clean, .addi 63 true false 5 0x1F, .bcc 63 true 6 0x41] := by decide +kernel

/-- Header 0b01: AADD of ACC2 to ACC1; MVA of D9 from ACC2, form 4; LOOP 1 with count 2,047 and end 4,095. -/
theorem test_bundle_long :
    decodeBundle 0 0b01_001101_01_00000_00010_00111_01001_10_100_00011_1_11111111111_111111111111 =
      some [.aadd 0 false 1 2, .mva 0 false false 9 2 4, .loopImm 0 true 1 2047 4095] := by decide +kernel

/-- Header 0b01: MVS of D17 to special register 3. -/
theorem test_bundle_special :
    decodeBundle 0 0b01_000000_00_00000_00000_00000_00000_000_00_00100_10001_00011_00000000000000 =
      some [.nop 0 0 false, .nop 0 1 false, .mvs 0 true 3 17] := by decide +kernel

/-- Header 0b10: MOVI of a word to D17. -/
theorem test_bundle_immediate :
    decodeBundle 5 0b10_000000_00_00000_00000_0000001_10001_10000000000000000000000000000001 =
      some [.nop 5 0 false, .movi 5 true 17 0x80000001] := by decide +kernel

/-- Header 0b11, and a reserved opcode of the move slot, decode to nothing. -/
theorem test_bundle_reserved :
    decodeBundle 0 (3 <<< 62) = none ∧
    decodeBundle 0 0b00_000000_00_00000_00000_11111_00000_000_00_00000_00000_00000_0000_0000000000 = none := by decide +kernel

/-! ### Well-formedness: one ill-formed command for each check -/

theorem test_ill_formed_tick :
    [Instr.phaseDeadline .c ⟨1, false⟩, .phaseDeadline .l ⟨0, true⟩, .groupOverrunStop .c 0, .railsStable (List.replicate 12 0), .registerWrite .host 2 false 0,
     .registerWrite .host 4 true 0, .rcRead .host 6].all (fun c => !c.wf) = true := by decide +kernel

theorem test_ill_formed_motion :
    let f : List MemberFields := List.replicate 17 ⟨0, 0, 0, 0, 0, 0⟩
    [Instr.moveAbs 0 0 0 0 f, .moveRel 0 0 0 0 f, .jog 0 0 0 0 f, .setLim 0 0 0 0 f, .stop 0 0 0 0 f, .resume 0 0 0 0 f, .abort 0 0 0 0 f,
     .gearIn 0 0 0 0 f, .camIn 0 0 0 0 f, .syncOut 0 0 0 0 f, .home 0 0 0 0 f, .setPos 0 0 0 0 f, .follow 0 0 0 0 f].all
      (fun c => !c.wf) = true := by decide +kernel

theorem test_ill_formed_ring :
    [Instr.cycOut 0 ⟨0, 0, false⟩ (List.replicate 2033 0) 0 0, .cycIn 0 0 ⟨0, false, ⟨1, 0, 0⟩, ⟨1, 0, 0⟩⟩ (List.replicate 2033 0) 0 0, .trumpFrame 0 0 .a [] ⟨0, 0, 0, false, 1⟩,
     .descriptorReply 0 0 ⟨.a, 0⟩ [], .rqFrame 0 [⟨64, false, 0⟩], .rtyFrame 0 ⟨0, false, 8⟩ [] ⟨true, true, false, 0, false⟩,
     .rtyFrame 0 ⟨0, false, 0⟩ (List.replicate 257 0) ⟨true, true, false, 0, false⟩, .bulkFrame 0 0 .a ⟨1, 1, 0, [], [], none⟩ ⟨0, 0, 0, false, 1⟩,
     .ortLaunch 0 [⟨0, true, 8⟩]].all (fun c => !c.wf) = true := by decide +kernel

theorem test_ill_formed_io :
    [Instr.diSample 0 ⟨[], 0, 0, 0, List.replicate 16 0, 0, 0⟩, .diSample 0 ⟨List.replicate 32 0, 0, 0, 0, [], 0, 0⟩, .ethFrameRx 0 ⟨List.replicate 13 0, true, 0⟩, .barAccess 0 0 4 (some []),
     .flashWrite .host 0 1 (some []), .mirrorFrame ⟨0, true, [(0x84480, 0)], [], [], [], none, 0⟩ none, .twinAlarmMirror 0 []].all
      (fun c => !c.wf) = true := by decide +kernel

theorem test_ill_formed_pages :
    [Instr.scrubRead 0 4 .clean, .eccWriteBack 0 4 false, .ddrScrub 4 .clean, .raisingReceive 0x290, .eventRecordWrite 0x290,
     .pgIrqSet .host 0x290 0, .pgIrqRawClear .host 0x290 0, .pgCtrlWrite .host 0x290 0, .pgLock .host 0x290 0].all
      (fun c => !c.wf) = true := by decide +kernel

end Sys2Proof.Tests
end

section
/-! SUPPORT. The invariant of the block (O13, O14 and O15): every command answers a next state with the invariant, in the device state of
before or in one that rule R26's table lists. -/

namespace Sys2Proof.Machine

/-- An outcome is a next state with the queue `q` and the invariant, in the device state `d` or in one to which rule R26 moves it; `f`
is what the part kept of a freeze. -/
def Advances (f : Option Freeze) (q : List Instr) (d : DevState) (o : Out) : Prop :=
  ∃ t, o = .next t ∧ ∃ e, (e = d ∨ DevState.moves f d e) ∧ t.Kept q e

theorem advances_of_kept {f : Option Freeze} {q : List Instr} {d : DevState} {o : Out} (h : ∃ t, o = .next t ∧ t.Kept q d) :
    Advances f q d o := by
  obtain ⟨t, ho, hk⟩ := h
  exact ⟨t, ho, d, .inl rfl, hk⟩

/-- Every command advances: the laws of its meaning say so. -/
theorem exec_advances (c : Instr) {q : List Instr} {d : DevState} {s : State} (h : s.Kept q d) :
    Advances s.sys.frozen q d (exec c s) := by
  cases c with
  | tickBoundary => exact execTickBoundary_moves h
  | tickLoss => exact advances_of_kept (execTickLoss_kept h)
  | servoStale => exact advances_of_kept (execServoStale_kept h)
  | qtzTimeInc => exact advances_of_kept (execQtzTimeInc_kept h ..)
  | stepReq => exact advances_of_kept (execStepReq_kept h ..)
  | qtzTickOfs => exact advances_of_kept (execQtzTickOfs_kept h ..)
  | ringCycleBoundary => exact advances_of_kept (execRingCycleBoundary_kept h ..)
  | launchTimeReached => exact advances_of_kept (execLaunchTimeReached_kept h ..)
  | phaseStart => exact advances_of_kept (execPhaseStart_kept h ..)
  | phaseComplete => exact advances_of_kept (execPhaseComplete_kept h ..)
  | phaseDeadline => exact advances_of_kept (execPhaseDeadline_kept h ..)
  | groupOverrunStop => exact advances_of_kept (execGroupOverrunStop_kept h ..)
  | eLaunch => exact advances_of_kept (execELaunch_kept h)
  | mailboxCommit => exact advances_of_kept (execMailboxCommit_kept h ..)
  | runReq => exact advances_of_kept (execRunReq_kept h ..)
  | stopReq => exact advances_of_kept (execStopReq_kept h ..)
  | restartReq => exact advances_of_kept (execRestartReq_kept h ..)
  | freeze => exact execFreeze_moves h ..
  | swReset => exact execSwReset_moves h ..
  | sysWdtKick => exact advances_of_kept (execSysWdtKick_kept h ..)
  | wdtWarn => exact advances_of_kept (execWdtWarn_kept h)
  | wdtExpiry => exact execWdtExpiry_moves h
  | railsStable => exact execRailsStable_moves h ..
  | railUndervoltage => exact execRailUndervoltage_moves h ..
  | railOvervoltage => exact advances_of_kept (execRailOvervoltage_kept h ..)
  | resetN => exact execResetN_moves h
  | resetRelease => exact execResetRelease_moves h ..
  | selftestDone => exact advances_of_kept (execSelftestDone_kept h ..)
  | pwrDvfsReq => exact advances_of_kept (execPwrDvfsReq_kept h ..)
  | pwrAppcReq => exact advances_of_kept (execPwrAppcReq_kept h ..)
  | railSettled => exact advances_of_kept (execRailSettled_kept h ..)
  | dvfsRampTimeout => exact advances_of_kept (execDvfsRampTimeout_kept h ..)
  | domainPowerDown => exact advances_of_kept (execDomainPowerDown_kept h ..)
  | domainPowerUp => exact advances_of_kept (execDomainPowerUp_kept h ..)
  | frzNAssert => exact execFrzNAssert_moves h
  | freezeRelease => exact advances_of_kept (execFreezeRelease_kept h ..)
  | readoutStart => exact advances_of_kept (execReadoutStart_kept h)
  | readoutEnd => exact advances_of_kept (execReadoutEnd_kept h ..)
  | nop => exact advances_of_kept (execNop_kept h ..)
  | mpy => exact advances_of_kept (execMpy_kept h ..)
  | mac => exact advances_of_kept (execMac_kept h ..)
  | msu => exact advances_of_kept (execMsu_kept h ..)
  | mpyu => exact advances_of_kept (execMpyu_kept h ..)
  | macu => exact advances_of_kept (execMacu_kept h ..)
  | mach => exact advances_of_kept (execMach_kept h ..)
  | qmpy => exact advances_of_kept (execQmpy_kept h ..)
  | qmac => exact advances_of_kept (execQmac_kept h ..)
  | cmpy => exact advances_of_kept (execCmpy_kept h ..)
  | cmac => exact advances_of_kept (execCmac_kept h ..)
  | cmacj => exact advances_of_kept (execCmacj_kept h ..)
  | aclr => exact advances_of_kept (execAclr_kept h ..)
  | aadd => exact advances_of_kept (execAadd_kept h ..)
  | ash => exact advances_of_kept (execAsh_kept h ..)
  | expa => exact advances_of_kept (execExpa_kept h ..)
  | mov => exact advances_of_kept (execMov_kept h ..)
  | movp => exact advances_of_kept (execMovp_kept h ..)
  | ld => exact advances_of_kept (execLd_kept h ..)
  | st => exact advances_of_kept (execSt_kept h ..)
  | ldp => exact advances_of_kept (execLdp_kept h ..)
  | stp => exact advances_of_kept (execStp_kept h ..)
  | mva => exact advances_of_kept (execMva_kept h ..)
  | mav => exact advances_of_kept (execMav_kept h ..)
  | add => exact advances_of_kept (execAdd_kept h ..)
  | adds => exact advances_of_kept (execAdds_kept h ..)
  | sub => exact advances_of_kept (execSub_kept h ..)
  | subs => exact advances_of_kept (execSubs_kept h ..)
  | addp => exact advances_of_kept (execAddp_kept h ..)
  | subp => exact advances_of_kept (execSubp_kept h ..)
  | andOp => exact advances_of_kept (execAndOp_kept h ..)
  | orOp => exact advances_of_kept (execOrOp_kept h ..)
  | xorOp => exact advances_of_kept (execXorOp_kept h ..)
  | sra => exact advances_of_kept (execSra_kept h ..)
  | srar => exact advances_of_kept (execSrar_kept h ..)
  | sll => exact advances_of_kept (execSll_kept h ..)
  | srl => exact advances_of_kept (execSrl_kept h ..)
  | cmp => exact advances_of_kept (execCmp_kept h ..)
  | exp => exact advances_of_kept (execExp_kept h ..)
  | norm => exact advances_of_kept (execNorm_kept h ..)
  | movx => exact advances_of_kept (execMovx_kept h ..)
  | movd => exact advances_of_kept (execMovd_kept h ..)
  | minOp => exact advances_of_kept (execMinOp_kept h ..)
  | maxOp => exact advances_of_kept (execMaxOp_kept h ..)
  | absOp => exact advances_of_kept (execAbsOp_kept h ..)
  | addi => exact advances_of_kept (execAddi_kept h ..)
  | br => exact advances_of_kept (execBr_kept h ..)
  | bcc => exact advances_of_kept (execBcc_kept h ..)
  | take => exact advances_of_kept (execTake_kept h ..)
  | doneOp => exact advances_of_kept (execDoneOp_kept h ..)
  | setf => exact advances_of_kept (execSetf_kept h ..)
  | pen => exact advances_of_kept (execPen_kept h ..)
  | pdis => exact advances_of_kept (execPdis_kept h ..)
  | rte => exact advances_of_kept (execRte_kept h ..)
  | jr => exact advances_of_kept (execJr_kept h ..)
  | loopr => exact advances_of_kept (execLoopr_kept h ..)
  | rdcyc => exact advances_of_kept (execRdcyc_kept h ..)
  | rdeng => exact advances_of_kept (execRdeng_kept h ..)
  | clrs => exact advances_of_kept (execClrs_kept h ..)
  | ret => exact advances_of_kept (execRet_kept h ..)
  | yield => exact advances_of_kept (execYield_kept h ..)
  | lbr => exact advances_of_kept (execLbr_kept h ..)
  | lcall => exact advances_of_kept (execLcall_kept h ..)
  | loopImm => exact advances_of_kept (execLoopImm_kept h ..)
  | mvs => exact advances_of_kept (execMvs_kept h ..)
  | msv => exact advances_of_kept (execMsv_kept h ..)
  | shi => exact advances_of_kept (execShi_kept h ..)
  | movi => exact advances_of_kept (execMovi_kept h ..)
  | movix => exact advances_of_kept (execMovix_kept h ..)
  | preemptionTrap => exact advances_of_kept (execPreemptionTrap_kept h ..)
  | engCtrlEn => exact advances_of_kept (execEngCtrlEn_kept h ..)
  | codeSramWrite => exact advances_of_kept (execCodeSramWrite_kept h ..)
  | dlrArm => exact advances_of_kept (execDlrArm_kept h ..)
  | dlrCancel => exact advances_of_kept (execDlrCancel_kept h ..)
  | dlrSetf => exact advances_of_kept (execDlrSetf_kept h ..)
  | dlrClrf => exact advances_of_kept (execDlrClrf_kept h ..)
  | dlrFlowReset => exact advances_of_kept (execDlrFlowReset_kept h ..)
  | dlrCtxWrite => exact advances_of_kept (execDlrCtxWrite_kept h ..)
  | dlrCoreTake => exact advances_of_kept (execDlrCoreTake_kept h ..)
  | coreTakeTimeout => exact advances_of_kept (execCoreTakeTimeout_kept h ..)
  | dlrCoreDone => exact advances_of_kept (execDlrCoreDone_kept h ..)
  | dlrCoreYield => exact advances_of_kept (execDlrCoreYield_kept h ..)
  | eventQueueAccept => exact advances_of_kept (execEventQueueAccept_kept h)
  | taskGrant => exact advances_of_kept (execTaskGrant_kept h ..)
  | stageInComplete => exact advances_of_kept (execStageInComplete_kept h)
  | stealDelayExpiry => exact advances_of_kept (execStealDelayExpiry_kept h ..)
  | flowRelease => exact advances_of_kept (execFlowRelease_kept h ..)
  | moveAbs => exact advances_of_kept (execMoveAbs_kept h ..)
  | moveRel => exact advances_of_kept (execMoveRel_kept h ..)
  | jog => exact advances_of_kept (execJog_kept h ..)
  | setLim => exact advances_of_kept (execSetLim_kept h ..)
  | stop => exact advances_of_kept (execStop_kept h ..)
  | resume => exact advances_of_kept (execResume_kept h ..)
  | abort => exact advances_of_kept (execAbort_kept h ..)
  | gearIn => exact advances_of_kept (execGearIn_kept h ..)
  | camIn => exact advances_of_kept (execCamIn_kept h ..)
  | syncOut => exact advances_of_kept (execSyncOut_kept h ..)
  | home => exact advances_of_kept (execHome_kept h ..)
  | setPos => exact advances_of_kept (execSetPos_kept h ..)
  | follow => exact advances_of_kept (execFollow_kept h ..)
  | masterStale => exact advances_of_kept (execMasterStale_kept h ..)
  | homeDebounceEnd => exact advances_of_kept (execHomeDebounceEnd_kept h ..)
  | cmpArm => exact advances_of_kept (execCmpArm_kept h ..)
  | cmpDisarm => exact advances_of_kept (execCmpDisarm_kept h ..)
  | loopOpen => exact advances_of_kept (execLoopOpen_kept h ..)
  | loopClose => exact advances_of_kept (execLoopClose_kept h ..)
  | coefWrite => exact advances_of_kept (execCoefWrite_kept h ..)
  | followingError => exact advances_of_kept (execFollowingError_kept h ..)
  | solverSecondFailure => exact advances_of_kept (execSolverSecondFailure_kept h)
  | jointMissStop => exact advances_of_kept (execJointMissStop_kept h ..)
  | sourceMissStop => exact advances_of_kept (execSourceMissStop_kept h ..)
  | stopDemandClear => exact advances_of_kept (execStopDemandClear_kept h ..)
  | inputDemandEnter => exact advances_of_kept (execInputDemandEnter_kept h ..)
  | inputDemandLeave => exact advances_of_kept (execInputDemandLeave_kept h ..)
  | discrepancy => exact advances_of_kept (execDiscrepancy_kept h ..)
  | standstillReached => exact advances_of_kept (execStandstillReached_kept h ..)
  | ss1TmaxExpiry => exact advances_of_kept (execSs1TmaxExpiry_kept h ..)
  | safAck => exact advances_of_kept (execSafAck_kept h ..)
  | safRel => exact advances_of_kept (execSafRel_kept h ..)
  | degradeMaxExpiry => exact advances_of_kept (execDegradeMaxExpiry_kept h)
  | degradeFaultClear => exact advances_of_kept (execDegradeFaultClear_kept h ..)
  | periodicSelftest => exact advances_of_kept (execPeriodicSelftest_kept h ..)
  | slateCompareStart => exact advances_of_kept (execSlateCompareStart_kept h)
  | slateCompareResult => exact advances_of_kept (execSlateCompareResult_kept h ..)
  | slateClean => exact advances_of_kept (execSlateClean_kept h)
  | safPtStart => exact advances_of_kept (execSafPtStart_kept h ..)
  | proofTestEnd => exact advances_of_kept (execProofTestEnd_kept h ..)
  | proofTestDue => exact advances_of_kept (execProofTestDue_kept h)
  | safStore => exact advances_of_kept (execSafStore_kept h ..)
  | safStoreDone => exact advances_of_kept (execSafStoreDone_kept h ..)
  | safLoad => exact advances_of_kept (execSafLoad_kept h ..)
  | sealSwAccept => exact advances_of_kept (execSealSwAccept_kept h ..)
  | sealOpen => exact advances_of_kept (execSealOpen_kept h ..)
  | sealClose => exact advances_of_kept (execSealClose_kept h ..)
  | passwordSet => exact advances_of_kept (execPasswordSet_kept h ..)
  | sealTimeout => exact advances_of_kept (execSealTimeout_kept h)
  | passwordLockoutEnd => exact advances_of_kept (execPasswordLockoutEnd_kept h)
  | methodChangeReq => exact advances_of_kept (execMethodChangeReq_kept h ..)
  | safLogClr => exact advances_of_kept (execSafLogClr_kept h ..)
  | testTrip => exact advances_of_kept (execTestTrip_kept h ..)
  | flintArm => exact advances_of_kept (execFlintArm_kept h ..)
  | flintTripCmd => exact advances_of_kept (execFlintTripCmd_kept h ..)
  | flintHeartbeat => exact advances_of_kept (execFlintHeartbeat_kept h ..)
  | flintTimeout => exact advances_of_kept (execFlintTimeout_kept h)
  | flintOscFault => exact advances_of_kept (execFlintOscFault_kept h)
  | flintRearm => exact advances_of_kept (execFlintRearm_kept h)
  | refFrame => exact advances_of_kept (execRefFrame_kept h ..)
  | cycOut => exact advances_of_kept (execCycOut_kept h ..)
  | cycIn => exact advances_of_kept (execCycIn_kept h ..)
  | safeOut => exact advances_of_kept (execSafeOut_kept h ..)
  | safeIn => exact advances_of_kept (execSafeIn_kept h ..)
  | trumpFrame => exact advances_of_kept (execTrumpFrame_kept h ..)
  | bulkFrame => exact advances_of_kept (execBulkFrame_kept h ..)
  | bulkAck => exact advances_of_kept (execBulkAck_kept h ..)
  | claimFrame => exact advances_of_kept (execClaimFrame_kept h ..)
  | rqFrame => exact advances_of_kept (execRqFrame_kept h ..)
  | rtyFrame => exact advances_of_kept (execRtyFrame_kept h ..)
  | backupTakeover => exact advances_of_kept (execBackupTakeover_kept h ..)
  | listenEnd => exact advances_of_kept (execListenEnd_kept h ..)
  | claimWon => exact advances_of_kept (execClaimWon_kept h ..)
  | descriptorReply => exact advances_of_kept (execDescriptorReply_kept h ..)
  | nodeSilence => exact advances_of_kept (execNodeSilence_kept h ..)
  | rqLaunch => exact advances_of_kept (execRqLaunch_kept h ..)
  | ortLaunch => exact advances_of_kept (execOrtLaunch_kept h ..)
  | bulkWindow => exact advances_of_kept (execBulkWindow_kept h ..)
  | portGatherComplete => exact advances_of_kept (execPortGatherComplete_kept h ..)
  | nodeLost => exact advances_of_kept (execNodeLost_kept h ..)
  | rngSoftFlip => exact advances_of_kept (execRngSoftFlip_kept h ..)
  | rngBulkTail => exact advances_of_kept (execRngBulkTail_kept h ..)
  | portEnable => exact advances_of_kept (execPortEnable_kept h ..)
  | trainPassed => exact advances_of_kept (execTrainPassed_kept h ..)
  | trainTimeout => exact advances_of_kept (execTrainTimeout_kept h ..)
  | bypassSettled => exact advances_of_kept (execBypassSettled_kept h ..)
  | joinPassed => exact advances_of_kept (execJoinPassed_kept h ..)
  | joinTimeout => exact advances_of_kept (execJoinTimeout_kept h ..)
  | measureMarker => exact advances_of_kept (execMeasureMarker_kept h ..)
  | measureDone => exact advances_of_kept (execMeasureDone_kept h ..)
  | measureTimeout => exact advances_of_kept (execMeasureTimeout_kept h ..)
  | laneLoss => exact advances_of_kept (execLaneLoss_kept h ..)
  | linkRetryExpiry => exact advances_of_kept (execLinkRetryExpiry_kept h ..)
  | encoderEdge => exact advances_of_kept (execEncoderEdge_kept h ..)
  | indexEdge => exact advances_of_kept (execIndexEdge_kept h ..)
  | lineFault => exact advances_of_kept (execLineFault_kept h ..)
  | hallTransition => exact advances_of_kept (execHallTransition_kept h ..)
  | ssiFrameDone => exact advances_of_kept (execSsiFrameDone_kept h ..)
  | stepPulse => exact advances_of_kept (execStepPulse_kept h ..)
  | diSample => exact advances_of_kept (execDiSample_kept h ..)
  | countEdge => exact advances_of_kept (execCountEdge_kept h ..)
  | checkedWord => exact advances_of_kept (execCheckedWord_kept h)
  | cmdLoss => exact advances_of_kept (execCmdLoss_kept h)
  | outputOverload => exact advances_of_kept (execOutputOverload_kept h ..)
  | overloadRetry => exact advances_of_kept (execOverloadRetry_kept h ..)
  | openLoad => exact advances_of_kept (execOpenLoad_kept h ..)
  | lpUndervoltage => exact advances_of_kept (execLpUndervoltage_kept h ..)
  | lpRecovery => exact advances_of_kept (execLpRecovery_kept h ..)
  | lpOvervoltage => exact advances_of_kept (execLpOvervoltage_kept h ..)
  | vccFLoss => exact advances_of_kept (execVccFLoss_kept h)
  | vccFRecovery => exact advances_of_kept (execVccFRecovery_kept h)
  | ethFrameRx => exact advances_of_kept (execEthFrameRx_kept h ..)
  | ethTxComplete => exact advances_of_kept (execEthTxComplete_kept h ..)
  | ethLinkDown => exact advances_of_kept (execEthLinkDown_kept h ..)
  | ethRxrTail => exact advances_of_kept (execEthRxrTail_kept h ..)
  | ethTxrTail => exact advances_of_kept (execEthTxrTail_kept h ..)
  | barAccess => exact execBarAccess_moves h ..
  | pcieEndpointReset => exact advances_of_kept (execPcieEndpointReset_kept h ..)
  | flashWrite => exact advances_of_kept (execFlashWrite_kept h ..)
  | jtagInstruction => exact advances_of_kept (execJtagInstruction_kept h ..)
  | interlockTake => exact advances_of_kept (execInterlockTake_kept h)
  | interlockCheck => exact advances_of_kept (execInterlockCheck_kept h)
  | interlockRetry => exact advances_of_kept (execInterlockRetry_kept h)
  | startWaitExpiry => exact advances_of_kept (execStartWaitExpiry_kept h)
  | leaseExpiry => exact advances_of_kept (execLeaseExpiry_kept h)
  | mirrorFrame => exact advances_of_kept (execMirrorFrame_kept h ..)
  | twinHeartbeat => exact advances_of_kept (execTwinHeartbeat_kept h ..)
  | heartbeatCheck => exact advances_of_kept (execHeartbeatCheck_kept h)
  | syncOp => exact advances_of_kept (execSyncOp_kept h ..)
  | autoSyncStart => exact advances_of_kept (execAutoSyncStart_kept h)
  | syncCaughtUp => exact advances_of_kept (execSyncCaughtUp_kept h ..)
  | syncTimeout => exact advances_of_kept (execSyncTimeout_kept h)
  | resign => exact advances_of_kept (execResign_kept h ..)
  | healthWord => exact advances_of_kept (execHealthWord_kept h ..)
  | standbyFlintTest => exact advances_of_kept (execStandbyFlintTest_kept h ..)
  | parallelHoldEnd => exact advances_of_kept (execParallelHoldEnd_kept h)
  | twinAlarmMirror => exact advances_of_kept (execTwinAlarmMirror_kept h ..)
  | scrubRead => exact advances_of_kept (execScrubRead_kept h ..)
  | eccWriteBack => exact advances_of_kept (execEccWriteBack_kept h ..)
  | ddrScrub => exact advances_of_kept (execDdrScrub_kept h ..)
  | fabricNak => exact advances_of_kept (execFabricNak_kept h ..)
  | cdcStallTimeout => exact advances_of_kept (execCdcStallTimeout_kept h ..)
  | crossingRearm => exact advances_of_kept (execCrossingRearm_kept h ..)
  | tempSample => exact advances_of_kept (execTempSample_kept h ..)
  | raisingReceive => exact advances_of_kept (execRaisingReceive_kept h ..)
  | eventRecordWrite => exact advances_of_kept (execEventRecordWrite_kept h ..)
  | evtAlmAck => exact advances_of_kept (execEvtAlmAck_kept h ..)
  | evtEvrTail => exact advances_of_kept (execEvtEvrTail_kept h ..)
  | evtTrcRd => exact advances_of_kept (execEvtTrcRd_kept h ..)
  | evtTrcSw => exact advances_of_kept (execEvtTrcSw_kept h ..)
  | traceDrain => exact advances_of_kept (execTraceDrain_kept h ..)
  | registerWrite => exact execRegisterWrite_moves h ..
  | rcRead => exact advances_of_kept (execRcRead_kept h ..)
  | pgIrqSet => exact advances_of_kept (execPgIrqSet_kept h ..)
  | pgIrqRawClear => exact advances_of_kept (execPgIrqRawClear_kept h ..)
  | pgCtrlWrite => exact advances_of_kept (execPgCtrlWrite_kept h ..)
  | pgLock => exact advances_of_kept (execPgLock_kept h ..)
  | pllLockLoss => exact advances_of_kept (execPllLockLoss_kept h ..)
  | referenceFail => exact advances_of_kept (execReferenceFail_kept h ..)
  | ethLinkUp => exact advances_of_kept (execEthLinkUp_kept h ..)
  | pcieLinkUp => exact advances_of_kept (execPcieLinkUp_kept h ..)
  | ilkPeerChange => exact advances_of_kept (execIlkPeerChange_kept h ..)
  | twinHbIToggle => exact advances_of_kept (execTwinHbIToggle_kept h)
  | proofTestGraceExpiry => exact advances_of_kept (execProofTestGraceExpiry_kept h)

/-- Taking the front of the queue out leaves the invariant. -/
theorem State.Sound.dequeued {s : State} (h : s.Sound) (q : List Instr) : ({ s with pending := q } : State).Kept q s.sys.dev := by
  obtain ⟨hc, ht⟩ := h
  exact ⟨⟨hc.regs, hc.cell, hc.dram, hc.flash, hc.code, hc.data⟩, rfl, rfl, ht⟩

/-- A step from a state with the invariant advances, on the queue without its front. -/
theorem step_advances {s : State} (h : s.Sound) : Advances s.sys.frozen s.pending.tail s.sys.dev (step s) := by
  unfold step
  cases hq : s.pending with
  | nil =>
    have hk := h.kept
    rw [hq] at hk
    exact ⟨s, rfl, s.sys.dev, .inl rfl, hk⟩
  | cons c rest => exact exec_advances c (h.dequeued rest)

/-- Settles O13: a step keeps the invariant since the meaning of each command does. -/
theorem stepKeepsSound : Obligations.StepKeepsSound := by
  intro s h
  obtain ⟨t, ht, e, -, hk⟩ := step_advances h
  exact ⟨t, ht, hk.sound, hk.queue⟩

/-- Settles O14: a step leaves the device state or moves it along rule R26's table, as each command's meaning does. -/
theorem deviceStateMoves : Obligations.DeviceStateMoves := by
  intro s t h ht
  obtain ⟨u, hu, e, he, hk⟩ := step_advances h
  cases ht.symm.trans hu
  rw [hk.dev]
  exact he

/-- No table of the state right after reset has an entry, and no trigger waits. -/
theorem State.reset_sound : State.reset.Sound :=
  ⟨⟨Tab.wf_nil _, nil_wf, nil_wf, nil_wf, nil_wf, nil_wf⟩, fun _ hx => absurd hx List.not_mem_nil⟩

/-- Settles O15: the state right after reset lists nothing, and SYS_STOP_CAUSE reads its reset value. -/
theorem resetState : Obligations.ResetState :=
  ⟨State.reset_sound, rfl, rfl, rfl, by decide, rfl, rfl⟩

end Sys2Proof.Machine
end

section
/-! SUPPORT. Frames of the shared operations: what raising a condition, an advance of device time and a trigger leave as it was. -/

theorem Sys2Proof.Tab.get_congr_default {α : Type} {d e : Nat → α} {k : Nat} (h : d k = e k) (m : List (Nat × α)) :
    Tab.get d m k = Tab.get e m k := by
  induction m with
  | nil => exact h
  | cons x m ih => simp only [Tab.get, ih]

namespace Sys2Proof.Machine

/-! ### Bits of a written field, counters and times -/

/-- A bit of a register after a write of one of its fields. -/
theorem bit_setFld {hi lo : Nat} (h : lo ≤ hi) (hb : hi < 32) (s : State) (a v i : Nat) :
    (s.setFld a hi lo v).bit a i = if lo ≤ i ∧ i ≤ hi then v.testBit (i - lo) else s.bit a i := by
  unfold State.setFld State.bit
  rw [rd_wrN_self, BitVec.getLsbD_ofNat, testBit_withBits h]
  split
  case isTrue hi' => simp [Nat.lt_of_le_of_lt hi'.2 hb]
  case isFalse =>
    unfold State.rdN
    by_cases h32 : i < 32
    · simp [h32, BitVec.getLsbD]
    · simp [h32, BitVec.getLsbD_of_ge _ _ (Nat.le_of_not_lt h32)]

theorem rdN_lt (s : State) (a : Nat) : s.rdN a < 2 ^ 32 := (s.rd a).isLt

theorem rdN_of_rd {s t : State} {a : Nat} (h : t.rd a = s.rd a) : t.rdN a = s.rdN a := by
  unfold State.rdN; rw [h]

theorem eff_of_rd {s t : State} {a : Nat} (hl : t.late = s.late) (h : t.rd a = s.rd a) : t.eff a = s.eff a := by
  unfold State.eff
  rw [hl]
  exact Tab.get_congr_default h _

theorem tick_of_same {s t : State} {l : List Nat} (h : s.SameRegs t l) (h1 : Reg.QTZ_TICK_NUM ∉ l) (h2 : Reg.QTZ_TICK_NUM + 4 ∉ l) :
    t.tick = s.tick := rd64_of_same h h1 h2

/-! ### Advancing device time -/

/-- The registers of device time. -/
abbrev timeRegs : List Nat := [Reg.QTZ_TIME_NS, Reg.QTZ_TIME_NS + 4, Reg.QTZ_TIME_FRAC]

theorem advance_writes (s : State) (t : Nat) : s.Writes (s.advance t) timeRegs := by
  unfold State.advance
  split
  · exact (State.Writes.refl s).mono (by simp)
  · exact ((wr64_writes _ _ _).trans (wrN_writes _ _ _)).mono (by simp)

theorem advance_of_le {s : State} {t : Nat} (h : t ≤ s.now) : s.advance t = s := if_pos h

theorem rd_advance {a : Nat} (h : a ∉ timeRegs) (s : State) (t : Nat) : (s.advance t).rd a = s.rd a := (advance_writes s t).1 a h

/-! ### Raising a condition, clocked or not -/

/-- Nothing differs but the registers of `l`, the event unit and the MSI-X messages sent or pending: the frame of `State.event`. -/
def State.Signals (s t : State) (l : List Nat) : Prop :=
  s.SameRegs t l ∧ t = { s with regs := t.regs, evt := t.evt, msix := t.msix, plant := t.plant }

theorem State.Raises.signals {s t : State} {l : List Nat} {r : List Raising} (h : s.Raises t l r) : s.Signals t l :=
  ⟨h.1, by rw [h.2]⟩

theorem State.Writes.signals {s t : State} {l : List Nat} (h : s.Writes t l) : s.Signals t l := h.raises.signals

theorem State.Signals.trans {s t u : State} {l m : List Nat} (h : s.Signals t l) (k : t.Signals u m) : s.Signals u (l ++ m) := by
  refine ⟨h.1.trans k.1, ?_⟩
  rw [k.2, h.2]

theorem State.Signals.mono {s t : State} {l m : List Nat} (h : s.Signals t l) (k : ∀ a ∈ l, a ∈ m) : s.Signals t m := ⟨h.1.mono k, h.2⟩

theorem State.Signals.sys {s t : State} {l : List Nat} (h : s.Signals t l) : t.sys = s.sys := by rw [h.2]
theorem State.Signals.qtz {s t : State} {l : List Nat} (h : s.Signals t l) : t.qtz = s.qtz := by rw [h.2]
theorem State.Signals.saf {s t : State} {l : List Nat} (h : s.Signals t l) : t.saf = s.saf := by rw [h.2]
theorem State.Signals.field {s t : State} {l : List Nat} (h : s.Signals t l) : t.field = s.field := by rw [h.2]
theorem State.Signals.late {s t : State} {l : List Nat} (h : s.Signals t l) : t.late = s.late := by rw [h.2]
theorem State.Signals.memory {s t : State} {l : List Nat} (h : s.Signals t l) : s.SameMemory t := by
  rw [h.2]; exact ⟨rfl, rfl, rfl, rfl, rfl⟩

theorem State.SameMemory.trans {s t u : State} (h : s.SameMemory t) (k : t.SameMemory u) : s.SameMemory u := by
  obtain ⟨h1, h2, h3, h4, h5⟩ := h
  obtain ⟨k1, k2, k3, k4, k5⟩ := k
  exact ⟨k1.trans h1, k2.trans h2, k3.trans h3, k4.trans h4, k5.trans h5⟩

theorem report_signals (s : State) (p b : Nat) (al : Bool) (d : Word) : s.Signals (s.report p b al d) [] := by
  refine ⟨fun a _ => rd_report _ _ _ _ _ _, ?_⟩
  unfold State.report
  split <;> rfl

theorem event_signals (s : State) (p b : Nat) (d : Word) : s.Signals (s.event p b d) [Reg.PG_IRQ_RAW p] :=
  (raiseLine_raises s p b).signals.trans (report_signals _ _ _ _ _)

theorem alarm_signals (s : State) (p b : Nat) (d : Word) : s.Signals (s.alarm p b d) [Reg.PG_IRQ_RAW p] :=
  (raiseLine_raises s p b).signals.trans (report_signals _ _ _ _ _)

theorem detLapse_signals (s : State) : s.Signals s.detLapse [Reg.SYS_STAT, Reg.PG_IRQ_RAW Page.SYS] := by
  unfold State.detLapse
  split
  · exact (State.Writes.refl s).signals.mono (by simp)
  · exact (setBit_writes _ _ _ _).signals.trans (event_signals _ _ _ _)

theorem bit_detLapse (s : State) : s.detLapse.bit Reg.SYS_STAT 5 = true := by
  unfold State.detLapse
  split
  · assumption
  · rw [bit_of_rd (rd_event (by decide) _ _ _), bit_setBit_self (by decide)]

/-- A condition raised after register writes that leave the time: its raising is the only one. -/
theorem State.Writes.event {s t : State} {l : List Nat} (h : s.Writes t l) (hc : s.clocked = true) (h1 : Reg.QTZ_TIME_NS ∉ l)
    (h2 : Reg.QTZ_TIME_NS + 4 ∉ l) (p b : Nat) (d : Word) :
    s.Raises (t.event p b d) (l ++ [Reg.PG_IRQ_RAW p]) [⟨p, b, false, d, s.now⟩] := by
  have k := event_raises ((wrote_clocked h).trans hc) p b d
  rw [same_now h.1 h1 h2] at k
  exact h.raises.trans k

theorem State.Writes.alarm {s t : State} {l : List Nat} (h : s.Writes t l) (hc : s.clocked = true) (h1 : Reg.QTZ_TIME_NS ∉ l)
    (h2 : Reg.QTZ_TIME_NS + 4 ∉ l) (p b : Nat) (d : Word) :
    s.Raises (t.alarm p b d) (l ++ [Reg.PG_IRQ_RAW p]) [⟨p, b, true, d, s.now⟩] := by
  have k := alarm_raises ((wrote_clocked h).trans hc) p b d
  rw [same_now h.1 h1 h2] at k
  exact h.raises.trans k

/-! ### Triggers and stop causes -/

/-- A trigger changes only which triggers wait. -/
theorem trigger_eq (s : State) (d : DevState) : s.trigger d = { s with sys := { s.sys with triggers := (s.trigger d).sys.triggers } } := by
  unfold State.trigger
  split <;> rfl

/-- A trigger that rule R26 lists for the present state waits. -/
theorem mem_trigger {s : State} {d : DevState} (h : transition s.sys.dev d = true) : d ∈ (s.trigger d).sys.triggers := by
  unfold State.trigger
  by_cases hm : d ∈ s.sys.triggers
  · simp [hm]
  · simp [h, hm]

/-- Nothing differs but the registers of `l` and the triggers that wait: the frame of a stop cause. -/
def State.Triggers (s t : State) (l : List Nat) : Prop :=
  s.SameRegs t l ∧ t = { s with regs := t.regs, sys := { s.sys with triggers := t.sys.triggers } }

theorem State.Writes.triggers {s t : State} {l : List Nat} (h : s.Writes t l) : s.Triggers t l := ⟨h.1, by rw [h.2]⟩

theorem trigger_triggers (s : State) (d : DevState) : s.Triggers (s.trigger d) [] := by
  refine ⟨fun a _ => rd_trigger _ _ _, ?_⟩
  rw [trigger_eq]

theorem State.Triggers.trans {s t u : State} {l m : List Nat} (h : s.Triggers t l) (k : t.Triggers u m) : s.Triggers u (l ++ m) := by
  refine ⟨h.1.trans k.1, ?_⟩
  rw [k.2, h.2]

theorem State.Triggers.mono {s t : State} {l m : List Nat} (h : s.Triggers t l) (k : ∀ a ∈ l, a ∈ m) : s.Triggers t m := ⟨h.1.mono k, h.2⟩

theorem stopCause_triggers (s : State) (c : StopCause) : s.Triggers (s.stopCause c) [Reg.SYS_STOP_CAUSE] := by
  unfold State.stopCause
  dsimp only
  split
  · exact (((setBit_writes _ _ _ _).trans (setBit_writes _ _ _ _)).triggers.trans (trigger_triggers _ _)).mono (by simp)
  · exact (((setBit_writes _ _ _ _).trans (setBit_writes _ _ _ _)).triggers.trans (trigger_triggers _ _)).mono (by simp)
  · exact ((setBit_writes _ _ _ _).trans (setBit_writes _ _ _ _)).triggers.mono (by simp)
  · exact (setBit_writes _ _ _ _).triggers

end Sys2Proof.Machine
end

section
/-! SUPPORT. Requests to run, to stop and to restart (O3). -/

namespace Sys2Proof.Machine

/-! ### RUN_REQ -/

theorem runReq_ready {s : State} (h : s.sys.dev = .ready) : s.runReq false = s.runRequest := by simp [State.runReq, h]

theorem runReq_starting {s : State} (h : s.sys.dev = .boot ∨ s.sys.dev = .selftest) :
    s.runReq false = { s with sys := { s.sys with heldRun := true } } := by
  rcases h with h | h <;> simp [State.runReq, h]

/-- REFUSE_CAUSE is one of the conditions of rule R27. -/
theorem runCause_lt (s : State) : s.runCause < 16 := by
  unfold State.runCause
  repeat' split
  all_goals decide

theorem runRequest_accepted {s : State} (h : s.runCause = 0) : s.runRequest = s.trigger .run := if_pos h

/-- The registers that a refused request to run writes before its alarm. -/
def State.refuseRun (s : State) : State :=
  ((s.setBit Reg.SYS_STAT 7 true).setFld Reg.SYS_STAT 15 12 s.runCause).inc Reg.SYS_REFUSE_CNT

theorem runRequest_refused {s : State} (h : s.runCause ≠ 0) : s.runRequest = s.refuseRun.alarm Page.SYS 1 (w32 s.runCause) := if_neg h

theorem refuseRun_writes (s : State) : s.Writes s.refuseRun [Reg.SYS_STAT, Reg.SYS_REFUSE_CNT] :=
  (((setBit_writes _ _ _ _).trans (setFld_writes _ _ _ _ _)).trans (inc_writes _ _)).mono (by simp)

theorem refuseRun_bit (s : State) : s.refuseRun.bit Reg.SYS_STAT 7 = true := by
  unfold State.refuseRun
  rw [bit_of_rd (rd_inc_ne (by decide) _), bit_setFld (by decide) (by decide), if_neg (by decide), bit_setBit_self (by decide)]

theorem refuseRun_cause (s : State) : s.refuseRun.fld Reg.SYS_STAT 15 12 = s.runCause := by
  unfold State.refuseRun
  rw [fld_of_rd (rd_inc_ne (by decide) _), fld_setFld (by decide) (by decide)]
  exact Nat.mod_eq_of_lt (runCause_lt s)

theorem refuseRun_count (s : State) : s.refuseRun.rdN Reg.SYS_REFUSE_CNT = min (s.rdN Reg.SYS_REFUSE_CNT + 1) 0xFFFFFFFF := by
  unfold State.refuseRun
  rw [rdN_inc, rdN_of_rd (rd_setFld_ne (by decide) _ _ _ _), rdN_of_rd (rd_setBit_ne (by decide) _ _ _)]

/-! ### STOP_REQ: the axes stop, the device state stays -/

theorem beginStop_sys (s : State) (a : Nat) (kept toIdle soft : Bool) : (s.beginStop a kept toIdle soft).sys = s.sys := by
  unfold State.beginStop
  dsimp only
  split <;> rfl

theorem homeFail_sys (s : State) (a code : Nat) : (s.homeFail a code).sys = s.sys := by
  unfold State.homeFail
  rw [beginStop_sys, (event_signals _ _ _ _).sys, State.setFld_sys, State.setFld_sys]

theorem doStop_sys (s : State) (a : Nat) : (s.doStop a).sys = s.sys := beginStop_sys _ _ _ _ _

theorem doAbort_sys (s : State) (a : Nat) : (s.doAbort a).sys = s.sys := by
  unfold State.doAbort
  dsimp only
  split
  · rfl
  · split
    · rfl
    · split
      · exact homeFail_sys _ _ _
      · exact beginStop_sys _ _ _ _ _

theorem forEach_sys {α : Type} {f : α → State → State} (hf : ∀ x t, (f x t).sys = t.sys) (l : List α) :
    ∀ s : State, (forEach f l s).sys = s.sys := by
  induction l with
  | nil => intro s; rfl
  | cons x l ih => intro s; exact (ih (f x s)).trans (hf x s)

/-- A stop request in RUN only marks the stop in what the system controller keeps. -/
theorem stopRequest_sys {s : State} (h : s.sys.dev = .run) : s.stopRequest.sys = { s.sys with stopping := true } := by
  have hf : ∀ (a : Nat) (t : State),
      (if t.axState a == axMoving || t.axState a == axJog || t.axState a == axFollow || t.engaged a then t.doStop a
        else if t.axState a == axHoming then t.doAbort a else t).sys = t.sys := by
    intro a t
    split
    · exact doStop_sys t a
    · split
      · exact doAbort_sys t a
      · rfl
  unfold State.stopRequest
  rw [if_pos (by simp [h])]
  exact congrArg (fun y : Sys => { y with stopping := true }) (forEach_sys hf _ s)

/-! ### RESTART_REQ -/

theorem restartReq_accepted {s : State} (h : s.sys.dev = .safestop) (hc : s.causeHeld = false) (hg : s.allSto = true) :
    s.restartReq = s.trigger .selftest := by simp [State.restartReq, h, hc, hg]

/-- The registers that a refused restart writes before its event. -/
def State.refuseRestart (s : State) : State := (s.setBit Reg.SYS_STAT 8 true).inc Reg.SYS_REFUSE_CNT

theorem restartReq_refused {s : State} (h : s.sys.dev = .safestop) (hc : s.causeHeld = true ∨ s.allSto = false) :
    s.restartReq = s.refuseRestart.event Page.SYS 2 0 := by
  have hno : (!s.causeHeld && s.allSto) = false := by rcases hc with hc | hc <;> simp [hc]
  simp [State.restartReq, State.refuseRestart, h, hno]

theorem refuseRestart_writes (s : State) : s.Writes s.refuseRestart [Reg.SYS_STAT, Reg.SYS_REFUSE_CNT] :=
  (setBit_writes _ _ _ _).trans (inc_writes _ _)

theorem refuseRestart_bit (s : State) : s.refuseRestart.bit Reg.SYS_STAT 8 = true := by
  unfold State.refuseRestart
  rw [bit_of_rd (rd_inc_ne (by decide) _), bit_setBit_self (by decide)]

/-- Settles O3: each request reaches its page, and what it then does depends on the device state and on the conditions of rules R27
and R29. -/
theorem stateRequests : Obligations.StateRequests := by
  refine ⟨?_, ?_, ?_, ?_, ?_, ?_⟩
  · intro s ag hw hd hc
    refine completes_write hw rfl ?_
    rw [runReq_ready hd, runRequest_accepted hc]
    exact ⟨mem_trigger (by rw [hd]; rfl), trigger_eq s .run⟩
  · intro s ag hw hd hc
    refine completes_write hw rfl ?_
    rw [runReq_ready hd, runRequest_refused hc]
    have stays : ∀ b, b ≠ Reg.PG_IRQ_RAW Page.SYS → (s.refuseRun.alarm Page.SYS 1 (w32 s.runCause)).rd b = s.refuseRun.rd b :=
      fun b hb => rd_alarm hb _ _ _
    refine ⟨?_, ?_, ?_, ?_⟩
    · rw [bit_of_rd (stays _ (by decide)), refuseRun_bit]
    · rw [fld_of_rd (stays _ (by decide)), refuseRun_cause]
    · rw [rdN_of_rd (stays _ (by decide)), refuseRun_count]
    · exact (refuseRun_writes s).alarm (writable_clocked hw) (by decide) (by decide) _ _ _
  · intro s ag hw hd
    exact completes_write hw rfl (runReq_starting hd)
  · intro s ag hw hd
    refine completes_write hw rfl ?_
    rw [stopRequest_sys hd]
    exact ⟨rfl, hd⟩
  · intro s ag hw hd hc hg
    refine completes_write hw rfl ?_
    rw [restartReq_accepted hd hc hg]
    exact ⟨mem_trigger (by rw [hd]; rfl), trigger_eq s .selftest⟩
  · intro s ag hw hd hc
    refine completes_write hw rfl ?_
    rw [restartReq_refused hd hc]
    exact ⟨by rw [bit_of_rd (rd_event (by decide) _ _ _), refuseRestart_bit],
      (refuseRestart_writes s).event (writable_clocked hw) (by decide) (by decide) _ _ _⟩

end Sys2Proof.Machine
end

section
/-! SUPPORT. The phases of a tick: starts, ends, deadlines and overruns (O9). -/

namespace Sys2Proof.Machine

/-! ### Quartz's own updates -/

theorem phasesRun_ticking {s : State} (h : s.phasesRun = true) : s.ticking = true ∧ s.bit Reg.QTZ_STAT 7 = false := by
  simpa [State.phasesRun] using h

/-- The number of a phase lies below 7. -/
theorem phaseNum_le (ph : Phase) : ph.num ≤ 6 := by cases ph <;> decide

theorem testBit_or_two_pow (n i : Nat) : (n ||| 2 ^ i).testBit i = true := by simp

theorem setBegun_begun (s : State) (ph : Phase) : (s.setBegun ph).begun ph = true := testBit_or_two_pow _ _
theorem setSealed_isSealed (s : State) (ph : Phase) : (s.setSealed ph).isSealed ph = true := testBit_or_two_pow _ _
theorem setReported_reported (s : State) (ph : Phase) : (s.setReported ph).reported ph = true := testBit_or_two_pow _ _

/-- A phase starts after the time has advanced: nothing differs but the time and the mark of the start. -/
theorem advance_setBegun (s : State) (t : Nat) (ph : Phase) :
    ∃ u : State, (s.advance t).setBegun ph = u ∧ u = { s with regs := u.regs, qtz := { s.qtz with begun := s.qtz.begun ||| 2 ^ ph.num } } ∧
      u.begun ph = true ∧ s.SameRegs u timeRegs ∧ (t ≤ s.now → s.SameRegs u []) := by
  refine ⟨_, rfl, ?_, setBegun_begun _ _, (advance_writes s t).1, fun ht => ?_⟩
  · rw [(advance_writes s t).2]; rfl
  · rw [advance_of_le ht]; exact .refl s

/-! ### Starts -/

theorem startPhase_eq {s : State} {ph : Phase} (he : ph ≠ .e) (hr : s.phasesRun = true) (hb : s.begun ph = false) (hs : s.isSealed ph = false)
    (ms : List CodeMismatch) :
    s.startPhase ph ms = ((s.advance (s.phaseInstant ph (s.phaseStart ph))).setBegun ph).phaseWork ph ms := by
  simp [State.startPhase, he, hr, hb, hs]

/-- The launch of E with the time it has reached. -/
theorem eLaunch_eq {s : State} (ht : s.ticking = true) (hb : s.begun .e = false) :
    s.eLaunch = ((if s.phasesRun then s.advance (s.phaseInstant .e (s.phaseStart .e)) else s).setBegun .e).emit.holderBeat.when s.phasesRun
      (fun t => t.publishView.tickRecord) := by
  simp [State.eLaunch, ht, hb]

/-! ### Ends -/

theorem completePhase_eq {s : State} {ph : Phase} (he : ph ≠ .e) (hr : s.phasesRun = true) (hb : s.begun ph = true)
    (hp : s.reported ph = false) (hd : s.phaseReady ph = true) (ofs : Nat) :
    s.completePhase ph ofs =
      (((s.advance (s.phaseInstant ph ofs)).setReported ph).endPhase ph ofs).phaseDone ph
        ((((s.advance (s.phaseInstant ph ofs)).setReported ph).endPhase ph ofs).ended ph) := by
  simp [State.completePhase, he, hr, hb, hp, hd]

/-- The end of a phase is recorded with its largest offset. -/
theorem endPhase_writes (s : State) (ph : Phase) (ofs : Nat) :
    s.SameRegs (s.endPhase ph ofs) [Reg.QTZ_PH_END ph.num, Reg.QTZ_PH_MAX ph.num] :=
  ((wrN_writes s (Reg.QTZ_PH_END ph.num) ofs).trans (wrN_writes _ (Reg.QTZ_PH_MAX ph.num) _)).1

theorem rdN_endPhase_end (s : State) (ph : Phase) {ofs : Nat} (h : ofs < 2 ^ 32) :
    (s.endPhase ph ofs).rdN (Reg.QTZ_PH_END ph.num) = ofs := by
  have hne : Reg.QTZ_PH_END ph.num ≠ Reg.QTZ_PH_MAX ph.num := by
    have := phaseNum_le ph
    simp only [Reg.QTZ_PH_END, Reg.QTZ_PH_MAX]; omega
  have hrd : (s.endPhase ph ofs).rd (Reg.QTZ_PH_END ph.num) = (s.wrN (Reg.QTZ_PH_END ph.num) ofs).rd (Reg.QTZ_PH_END ph.num) :=
    rd_wrN_ne hne _ _
  rw [rdN_of_rd hrd, rdN_wrN_self, Nat.mod_eq_of_lt h]

theorem rdN_endPhase_max (s : State) (ph : Phase) {ofs : Nat} (h : ofs < 2 ^ 32) :
    (s.endPhase ph ofs).rdN (Reg.QTZ_PH_MAX ph.num) = max (s.rdN (Reg.QTZ_PH_MAX ph.num)) ofs := by
  have hlt := rdN_lt s (Reg.QTZ_PH_MAX ph.num)
  exact (rdN_wrN_self (s.wrN (Reg.QTZ_PH_END ph.num) ofs) _ _).trans (Nat.mod_eq_of_lt (by omega))

/-- A phase has ended in time where its end is not later than its deadline and its copy is not sealed. -/
theorem endPhase_ended (s : State) (ph : Phase) (ofs : Nat) :
    (s.endPhase ph ofs).ended ph = (!s.isSealed ph && decide (ofs ≤ s.phaseEnd ph)) := by
  have h : ∀ (t : State) (b : Bool), (t.setEnded ph b).ended ph = b := by
    intro t b
    refine (testBit_withBits (Nat.le_refl ph.num) _ _ _).trans ?_
    cases b <;> simp [b2n]
  exact h _ _

theorem phaseEnd_advance (s : State) (t : Nat) (ph : Phase) : (s.advance t).phaseEnd ph = s.phaseEnd ph := by
  have hne : Reg.QTZ_PH ph.num + 4 ∉ timeRegs := by
    have := phaseNum_le ph
    simp only [List.mem_cons, List.not_mem_nil, or_false, Reg.QTZ_PH, Reg.QTZ_TIME_NS, Reg.QTZ_TIME_FRAC]; omega
  have he := eff_of_rd (advance_writes s t).signals.late (rd_advance hne s t)
  unfold State.phaseEnd State.effFld
  rw [he]

/-- An end in the advanced time: what is recorded of it, and that nothing else differs. -/
theorem advance_endPhase (s : State) (t : Nat) (ph : Phase) {ofs : Nat} (h : ofs < 2 ^ 32) :
    ∃ u : State, ((s.advance t).setReported ph).endPhase ph ofs = u ∧ u.rdN (Reg.QTZ_PH_END ph.num) = ofs ∧
      u.rdN (Reg.QTZ_PH_MAX ph.num) = max (s.rdN (Reg.QTZ_PH_MAX ph.num)) ofs ∧
      u.ended ph = (!s.isSealed ph && decide (ofs ≤ s.phaseEnd ph)) ∧ u.reported ph = true ∧
      s.SameRegs u (Reg.QTZ_PH_END ph.num :: Reg.QTZ_PH_MAX ph.num :: timeRegs) ∧
      u = { s with regs := u.regs, qtz := { s.qtz with reported := u.qtz.reported, ended := u.qtz.ended } } := by
  have hw := advance_writes s t
  have hne : Reg.QTZ_PH_MAX ph.num ∉ timeRegs := by
    have := phaseNum_le ph
    simp only [List.mem_cons, List.not_mem_nil, or_false, Reg.QTZ_PH_MAX, Reg.QTZ_TIME_NS, Reg.QTZ_TIME_FRAC]; omega
  refine ⟨_, rfl, rdN_endPhase_end _ _ h, ?_, ?_, setReported_reported _ _, ?_, ?_⟩
  · rw [rdN_endPhase_max _ _ h]
    exact congrArg (fun n => max n ofs) (rdN_of_rd (hw.1 _ hne))
  · rw [endPhase_ended]
    have hs : ((s.advance t).setReported ph).isSealed ph = s.isSealed ph := by
      change (s.advance t).qtz.sealed.testBit ph.num = s.qtz.sealed.testBit ph.num
      rw [hw.signals.qtz]
    have hp : ((s.advance t).setReported ph).phaseEnd ph = s.phaseEnd ph := phaseEnd_advance s t ph
    rw [hs, hp]
  · exact (State.SameRegs.trans hw.1 (endPhase_writes ((s.advance t).setReported ph) ph ofs)).mono (by simp)
  · rw [hw.2]; rfl

/-! ### What an overrun leaves of Quartz -/

/-- What Quartz keeps, its page and a lapse of the guarantee that has been noted are as they were. -/
structure State.KeepsQuartz (s t : State) : Prop where
  page : ∀ a, pageOf a = Page.QTZ → t.rd a = s.rd a
  qtz : t.qtz = s.qtz
  lapse : s.bit Reg.SYS_STAT 5 = true → t.bit Reg.SYS_STAT 5 = true

theorem State.KeepsQuartz.refl (s : State) : s.KeepsQuartz s := ⟨fun _ _ => rfl, rfl, id⟩

theorem State.KeepsQuartz.trans {s t u : State} (h : s.KeepsQuartz t) (k : t.KeepsQuartz u) : s.KeepsQuartz u :=
  ⟨fun a ha => (k.page a ha).trans (h.page a ha), k.qtz.trans h.qtz, fun hl => k.lapse (h.lapse hl)⟩

/-- Writes outside Quartz's page that leave SYS_STAT keep Quartz. -/
theorem State.SameRegs.keepsQuartz {s t : State} {l : List Nat} (h : s.SameRegs t l) (hq : t.qtz = s.qtz)
    (hl : ∀ a ∈ l, pageOf a ≠ Page.QTZ ∧ a ≠ Reg.SYS_STAT) : s.KeepsQuartz t := by
  refine ⟨fun a ha => h a fun hm => (hl a hm).1 ha, hq, fun hb => ?_⟩
  rw [bit_of_rd (h _ fun hm => (hl _ hm).2 rfl), hb]

theorem State.Signals.keepsQuartz {s t : State} {l : List Nat} (h : s.Signals t l)
    (hl : ∀ a ∈ l, pageOf a ≠ Page.QTZ ∧ a ≠ Reg.SYS_STAT) : s.KeepsQuartz t := h.1.keepsQuartz h.qtz hl

theorem State.KeepsQuartz.parity {s t : State} (h : s.KeepsQuartz t) : t.parity = s.parity := by
  unfold State.parity State.tick State.rd64 State.rdN
  rw [h.page _ (by decide), h.page _ (by decide)]

theorem detLapse_keepsQuartz (s : State) : s.KeepsQuartz s.detLapse := by
  refine ⟨fun a ha => (detLapse_signals s).1 a fun hm => ?_, (detLapse_signals s).qtz, fun _ => bit_detLapse s⟩
  have : ∀ a ∈ [Reg.SYS_STAT, Reg.PG_IRQ_RAW Page.SYS], pageOf a ≠ Page.QTZ := by decide
  exact this a hm ha

theorem stopCause_keepsQuartz (s : State) (c : StopCause) : s.KeepsQuartz (s.stopCause c) := by
  have h := stopCause_triggers s c
  exact h.1.keepsQuartz (by rw [h.2]) (by decide)

theorem ite_keepsQuartz {c : Prop} [Decidable c] {s t u : State} (ht : s.KeepsQuartz t) (hu : s.KeepsQuartz u) :
    s.KeepsQuartz (if c then t else u) := by split <;> assumption

theorem forUpTo_keepsQuartz {f : Nat → State → State} {n : Nat} (hf : ∀ i, i < n → ∀ t : State, t.KeepsQuartz (f i t)) (s : State) :
    s.KeepsQuartz (forUpTo f n s) := by
  induction n with
  | zero => exact .refl s
  | succ n ih => exact (ih fun i hi => hf i (Nat.lt_succ_of_lt hi)).trans (hf n (Nat.lt_succ_self n) _)

/-! ### The solver's part in an overrun of V -/

theorem solFlags_keepsQuartz (s : State) (flags : Nat) : s.KeepsQuartz (s.solFlags flags) := by
  have hp : ∀ i, i < 8 → ∀ t : State, t.KeepsQuartz (t.wrN (Reg.SOL_PIV_FLAGS i) (flags / 2 ^ (32 * i))) := by
    intro i hi t
    have hpage : pageOf (Reg.SOL_PIV_FLAGS i) = Page.SOL := by
      dsimp only [pageOf, Reg.SOL_PIV_FLAGS, Page.SOL]
      rw [if_pos (by omega)]
      omega
    refine (wrN_writes _ _ _).signals.keepsQuartz fun a ha => ?_
    rw [List.mem_singleton.mp ha, hpage]
    exact ⟨by decide, by simp only [Reg.SOL_PIV_FLAGS, Reg.SYS_STAT]; omega⟩
  have h1 := forUpTo_keepsQuartz hp s
  have h2 : ∀ (t : State) (n : Nat), t.KeepsQuartz (t.wrN Reg.SOL_PIV_FIRST n) := fun t n => (wrN_writes _ _ _).signals.keepsQuartz (by decide)
  have h3 : ∀ t : State, t.KeepsQuartz ((t.setBit Reg.SOL_STAT 6 true).event Page.SOL 2 0) := fun t =>
    ((setBit_writes _ _ _ _).signals.trans (event_signals _ _ _ _)).keepsQuartz (by decide)
  unfold State.solFlags
  exact ite_keepsQuartz (h1.trans (h2 _ _)) ((h1.trans (h2 _ _)).trans (h3 _))

theorem solFailed_keepsQuartz (s : State) : s.KeepsQuartz s.solFailed := by
  unfold State.solFailed
  extract_lets n _ s1 s2 s3
  have h1 : s.KeepsQuartz s1 := ⟨fun _ _ => rfl, rfl, id⟩
  have h2 : s1.KeepsQuartz s2 := (setFld_writes _ _ _ _ _).signals.keepsQuartz (by decide)
  have h3 : s2.KeepsQuartz s3 :=
    ite_keepsQuartz (((inc_writes _ _).signals.trans (event_signals _ _ _ _)).keepsQuartz (by decide)) (.refl s2)
  have h := (h1.trans h2).trans h3
  exact ite_keepsQuartz (h.trans (stopCause_keepsQuartz _ _)) h

theorem solverMiss_keepsQuartz (s : State) : s.KeepsQuartz s.solverMiss := by
  have hf : ∀ flags, s.KeepsQuartz (if s.solEn then s.solFlags flags else s) := fun flags =>
    ite_keepsQuartz (solFlags_keepsQuartz s flags) (.refl s)
  have hu : ∀ (t : State) (n : Nat) (x : Sol), t.KeepsQuartz { t with free := n, sol := x } := fun _ _ _ => ⟨fun _ _ => rfl, rfl, id⟩
  have hw : ∀ (t : State) (m n : Nat), t.KeepsQuartz (((((((t.inc Reg.SOL_MISS_CNT).setBit Reg.SOL_STAT 4 true).setFld Reg.SOL_STAT 15 14
      m).setFld Reg.SOL_STAT 29 24 n).setFld Reg.SOL_STAT 2 0 0).setFld Reg.SOL_STAT 13 12 2).event Page.SOL 0 0) := fun t m n =>
    (((((((inc_writes _ _).trans (setBit_writes _ _ _ _)).trans (setFld_writes _ _ _ _ _)).trans (setFld_writes _ _ _ _ _)).trans
      (setFld_writes _ _ _ _ _)).trans (setFld_writes _ _ _ _ _)).signals.trans (event_signals _ _ _ _)).keepsQuartz (by decide)
  unfold State.solverMiss
  split
  · exact .refl s
  · exact ((((hf _).trans (hu _ _ _)).trans (hw _ _ _)).trans (solFailed_keepsQuartz _)).trans (detLapse_keepsQuartz _)

/-! ### Overruns -/

theorem phOvrCnt_page (ph : Phase) : pageOf (Reg.QTZ_PH_OVR_CNT ph.num) = Page.QTZ := by cases ph <;> decide

/-- An overrun is noted before its phase draws its consequence: the page, the event and the end of the guarantee. -/
def State.noteOverrun (s : State) (ph : Phase) : State :=
  (((s.setBit Reg.QTZ_PH_OVR ph.num true).inc (Reg.QTZ_PH_OVR_CNT ph.num)).event Page.QTZ 1 0).detLapse

theorem overrun_eq (s : State) (ph : Phase) (g : BitVec 16) (cpl : Bool) : s.overrun ph g cpl = (s.noteOverrun ph).overrunOutcome ph g cpl := rfl

theorem noteOverrun_signals (s : State) (ph : Phase) : s.Signals (s.noteOverrun ph)
    [Reg.QTZ_PH_OVR, Reg.QTZ_PH_OVR_CNT ph.num, Reg.PG_IRQ_RAW Page.QTZ, Reg.SYS_STAT, Reg.PG_IRQ_RAW Page.SYS] :=
  (((setBit_writes _ _ _ _).trans (inc_writes _ _)).signals.trans (event_signals _ _ _ _)).trans (detLapse_signals _)

theorem noteOverrun_tick (s : State) (ph : Phase) : (s.noteOverrun ph).tick = s.tick := by
  refine tick_of_same (noteOverrun_signals s ph).1 ?_ ?_ <;> cases ph <;> decide

theorem noteOverrun_bit (s : State) (ph : Phase) : (s.noteOverrun ph).bit Reg.QTZ_PH_OVR ph.num = true := by
  have hne : Reg.QTZ_PH_OVR ≠ Reg.QTZ_PH_OVR_CNT ph.num := by cases ph <;> decide
  unfold State.noteOverrun
  rw [bit_of_rd ((detLapse_keepsQuartz _).page _ (by decide)), bit_of_rd (rd_event (by decide) _ _ _), bit_of_rd (rd_inc_ne hne _),
    bit_setBit_self (Nat.lt_of_le_of_lt (phaseNum_le ph) (by decide))]

theorem noteOverrun_count (s : State) (ph : Phase) :
    (s.noteOverrun ph).rdN (Reg.QTZ_PH_OVR_CNT ph.num) = min (s.rdN (Reg.QTZ_PH_OVR_CNT ph.num) + 1) 0xFFFFFFFF := by
  have hne : Reg.QTZ_PH_OVR_CNT ph.num ≠ Reg.QTZ_PH_OVR := by cases ph <;> decide
  have hev : Reg.QTZ_PH_OVR_CNT ph.num ≠ Reg.PG_IRQ_RAW Page.QTZ := by cases ph <;> decide
  unfold State.noteOverrun
  rw [rdN_of_rd ((detLapse_keepsQuartz _).page _ (phOvrCnt_page ph)), rdN_of_rd (rd_event hev _ _ _), rdN_inc,
    rdN_of_rd (rd_setBit_ne hne _ _ _)]

/-! ### The marks of an overrun -/

/-- The marks an overrun makes beside the page: what Quartz keeps of the copies and the groups to stop; the seals stay. -/
def State.Marks (s t : State) : Prop := t = { s with qtz := t.qtz, saf := t.saf } ∧ t.qtz.sealed = s.qtz.sealed

theorem State.Marks.refl (s : State) : s.Marks s := ⟨rfl, rfl⟩

theorem State.Marks.trans {s t u : State} (h : s.Marks t) (k : t.Marks u) : s.Marks u := by
  refine ⟨?_, k.2.trans h.2⟩
  rw [k.1, h.1]

theorem State.Marks.rd {s t : State} (h : s.Marks t) (a : Nat) : t.rd a = s.rd a := by rw [h.1]; rfl
theorem State.Marks.parity {s t : State} (h : s.Marks t) : t.parity = s.parity := by
  unfold State.parity State.tick State.rd64 State.rdN
  rw [h.rd, h.rd]
theorem State.Marks.sys {s t : State} (h : s.Marks t) : t.sys = s.sys := by rw [h.1]

theorem setInvalid_marks (s : State) (ph : Phase) : s.Marks (s.setInvalid ph) := by
  unfold State.setInvalid
  split <;> exact ⟨rfl, rfl⟩

theorem setInvalid_invalid (s : State) (ph : Phase) : ((s.setInvalid ph).invalidPhases s.parity).testBit ph.num = true := by
  unfold State.setInvalid State.invalidPhases
  split <;> exact testBit_or_two_pow _ _

/-- An invalid copy says nothing of single groups. -/
theorem setInvalid_groups (s : State) (ph : Phase) (par : Nat) :
    (s.setInvalid ph).planBad par = s.planBad par ∧ (s.setInvalid ph).qtz.ovr2P = s.qtz.ovr2P ∧ (s.setInvalid ph).saf = s.saf := by
  unfold State.setInvalid
  split <;> exact ⟨rfl, rfl, rfl⟩

theorem setPlanBad_marks (s : State) (g : BitVec 16) : s.Marks (s.setPlanBad g) := by
  unfold State.setPlanBad
  split <;> exact ⟨rfl, rfl⟩

theorem setPlanBad_groups (s : State) (g : BitVec 16) :
    (s.setPlanBad g).planBad s.parity = s.planBad s.parity ||| g ∧ (s.setPlanBad g).saf = s.saf := by
  unfold State.setPlanBad State.planBad
  split <;> exact ⟨rfl, rfl⟩

theorem setCmdBad_marks (s : State) (g : BitVec 16) : s.Marks (s.setCmdBad g) := by
  unfold State.setCmdBad
  split <;> exact ⟨rfl, rfl⟩

theorem setCmdBad_groups (s : State) (g : BitVec 16) :
    (s.setCmdBad g).cmdBad s.parity = s.cmdBad s.parity ||| g ∧ (s.setCmdBad g).saf = s.saf := by
  unfold State.setCmdBad State.cmdBad
  split <;> exact ⟨rfl, rfl⟩

theorem overrunStop_marks (s : State) (g : BitVec 16) : s.Marks (s.overrunStop g) := ⟨rfl, rfl⟩

/-- The groups that overran in P, or in L, for the second tick in a row. -/
def State.setRowP (s : State) (g : BitVec 16) : State := s.setQtz { s.qtz with ovr2P := g }
def State.setRowL (s : State) (g : BitVec 16) : State := s.setQtz { s.qtz with ovr2L := g }

theorem setRowP_marks (s : State) (g : BitVec 16) : s.Marks (s.setRowP g) := ⟨rfl, rfl⟩
theorem setRowL_marks (s : State) (g : BitVec 16) : s.Marks (s.setRowL g) := ⟨rfl, rfl⟩

theorem overrunOutcome_p (s : State) (g : BitVec 16) (cpl : Bool) : s.overrunOutcome .p g cpl =
    (((s.setPlanBad g).setRowP (g &&& s.qtz.ovrP)).when cpl (fun t => t.setInvalid .p)).overrunStop (g &&& s.qtz.ovrP) := rfl
theorem overrunOutcome_l (s : State) (g : BitVec 16) (cpl : Bool) : s.overrunOutcome .l g cpl =
    ((s.setCmdBad g).setRowL (g &&& s.qtz.ovrL)).overrunStop (g &&& s.qtz.ovrL) := rfl

/-- The plan of a P that overran: the groups' entries, those that overran in a row and so stop, and the coupling area. -/
theorem overrunOutcome_plan (s : State) (g : BitVec 16) (cpl : Bool) :
    s.Marks (s.overrunOutcome .p g cpl) ∧ (s.overrunOutcome .p g cpl).planBad s.parity = s.planBad s.parity ||| g ∧
      (s.overrunOutcome .p g cpl).qtz.ovr2P = g &&& s.qtz.ovrP ∧
      (s.overrunOutcome .p g cpl).saf.ovr = s.saf.ovr ||| (g &&& s.qtz.ovrP).toNat ∧
      (cpl = true → ((s.overrunOutcome .p g cpl).invalidPhases s.parity).testBit 2 = true) := by
  obtain ⟨hbad, hsaf⟩ := setPlanBad_groups s g
  have hm := setPlanBad_marks s g
  rw [overrunOutcome_p]
  generalize s.setPlanBad g = m at hbad hsaf hm ⊢
  generalize g &&& s.qtz.ovrP = again
  have hp : s.Marks (m.setRowP again) := hm.trans (setRowP_marks m again)
  cases cpl with
  | false => exact ⟨hp.trans (overrunStop_marks _ _), hbad, rfl, congrArg (fun x : Saf => x.ovr ||| again.toNat) hsaf, nofun⟩
  | true =>
    obtain ⟨hbad', hovr', hsaf'⟩ := setInvalid_groups (m.setRowP again) .p s.parity
    have hi := setInvalid_invalid (m.setRowP again) .p
    have hmi := hp.trans (setInvalid_marks (m.setRowP again) .p)
    rw [hp.parity] at hi
    dsimp only [State.when, if_true]
    generalize (m.setRowP again).setInvalid .p = n at hbad' hovr' hsaf' hi hmi ⊢
    exact ⟨hmi.trans (overrunStop_marks _ _), hbad'.trans hbad, hovr',
      congrArg (fun x : Saf => x.ovr ||| again.toNat) (hsaf'.trans hsaf), fun _ => hi⟩

/-- The command set of an L that overran. -/
theorem overrunOutcome_command (s : State) (g : BitVec 16) (cpl : Bool) :
    s.Marks (s.overrunOutcome .l g cpl) ∧ (s.overrunOutcome .l g cpl).cmdBad s.parity = s.cmdBad s.parity ||| g ∧
      (s.overrunOutcome .l g cpl).qtz.ovr2L = g &&& s.qtz.ovrL ∧
      (s.overrunOutcome .l g cpl).saf.ovr = s.saf.ovr ||| (g &&& s.qtz.ovrL).toNat := by
  obtain ⟨hbad, hsaf⟩ := setCmdBad_groups s g
  have hm := setCmdBad_marks s g
  rw [overrunOutcome_l]
  generalize s.setCmdBad g = m at hbad hsaf hm ⊢
  generalize g &&& s.qtz.ovrL = again
  exact ⟨(hm.trans (setRowL_marks m again)).trans (overrunStop_marks _ _), hbad, rfl,
    congrArg (fun x : Saf => x.ovr ||| again.toNat) hsaf⟩

/-- The consequence of an overrun makes its marks and then leaves Quartz; in S, V and C the mark is the invalid copy. -/
theorem overrunOutcome_frame (s : State) (ph : Phase) (g : BitVec 16) (cpl : Bool) :
    ∃ y, s.Marks y ∧ y.KeepsQuartz (s.overrunOutcome ph g cpl) ∧ (ph = .s ∨ ph = .v ∨ ph = .c → y = s.setInvalid ph) := by
  cases ph with
  | g => exact ⟨s, .refl s, .refl s, by simp⟩
  | s => exact ⟨_, setInvalid_marks s .s, stopCause_keepsQuartz _ _, fun _ => rfl⟩
  | p => exact ⟨_, (overrunOutcome_plan s g cpl).1, .refl _, by simp⟩
  | v => exact ⟨_, setInvalid_marks s .v, solverMiss_keepsQuartz _, fun _ => rfl⟩
  | l => exact ⟨_, (overrunOutcome_command s g cpl).1, .refl _, by simp⟩
  | c => exact ⟨_, setInvalid_marks s .c, stopCause_keepsQuartz _ _, fun _ => rfl⟩
  | e => exact ⟨s, .refl s, .refl s, by simp⟩

/-! ### Stop causes as SYS_STOP_CAUSE shows them -/

theorem stopCauseNum_le (c : StopCause) : c.num ≤ 9 := by cases c <;> decide

/-- A stop cause shows as present. -/
theorem bit_stopCause_present (s : State) (c : StopCause) : (s.stopCause c).bit Reg.SYS_STOP_CAUSE (16 + c.num) = true := by
  have hc := stopCauseNum_le c
  have h1 : (s.setBit Reg.SYS_STOP_CAUSE (16 + c.num) true).bit Reg.SYS_STOP_CAUSE (16 + c.num) = true := bit_setBit_self (by omega) _ _ _
  have h2 : ((s.setBit Reg.SYS_STOP_CAUSE (16 + c.num) true).setBit Reg.SYS_STOP_CAUSE c.num true).bit Reg.SYS_STOP_CAUSE (16 + c.num) = true := by
    rw [bit_setBit (by omega), if_neg (by omega), h1]
  unfold State.stopCause
  dsimp only
  split
  · exact (bit_of_rd (rd_trigger _ _ _) _).trans h2
  · exact (bit_of_rd (rd_trigger _ _ _) _).trans h2
  · exact h2
  · exact h1

/-- In RUN and DEGRADED it is latched as well and triggers SAFESTOP. -/
theorem stopCause_running {s : State} (h : s.running = true) (c : StopCause) :
    (s.stopCause c).bit Reg.SYS_STOP_CAUSE c.num = true ∧ DevState.safestop ∈ (s.stopCause c).sys.triggers := by
  have hc := stopCauseNum_le c
  have hdev : s.sys.dev = .run ∨ s.sys.dev = .degraded := by
    unfold State.running at h
    split at h
    · exact .inl ‹_›
    · exact .inr ‹_›
    · cases h
  have heq : s.stopCause c =
      ((s.setBit Reg.SYS_STOP_CAUSE (16 + c.num) true).setBit Reg.SYS_STOP_CAUSE c.num true).trigger .safestop := by
    rcases hdev with hd | hd <;> simp [State.stopCause, hd]
  rw [heq]
  refine ⟨(bit_of_rd (rd_trigger _ _ _) _).trans (bit_setBit_self (by omega) _ _ _), mem_trigger ?_⟩
  rcases hdev with hd | hd <;> simp [hd, transition]

end Sys2Proof.Machine
end

section
/-! SUPPORT. Deadlines of the phases, the heartbeat of a realignment tick and the launch of E (O9). -/

namespace Sys2Proof.Machine

/-! ### Deadlines -/

theorem deadline_ended {s : State} {ph : Phase} (he : ph ≠ .e) (hr : s.phasesRun = true) (hs : s.isSealed ph = false)
    (hd : s.ended ph = true) (g : BitVec 16) (cpl : Bool) :
    s.deadline ph g cpl = ((s.advance (s.phaseInstant ph (s.phaseEnd ph))).atDeadline ph).setSealed ph := by
  obtain ⟨-, hq⟩ := phasesRun_ticking hr
  simp [State.deadline, he, hr, hs, hd, hq]

theorem deadline_overran {s : State} {ph : Phase} (he : ph ≠ .e) (hr : s.phasesRun = true) (hs : s.isSealed ph = false)
    (hd : s.ended ph = false) (g : BitVec 16) (cpl : Bool) :
    s.deadline ph g cpl = (((s.advance (s.phaseInstant ph (s.phaseEnd ph))).atDeadline ph).setSealed ph).overrun ph g cpl := by
  obtain ⟨-, hq⟩ := phasesRun_ticking hr
  simp [State.deadline, he, hr, hs, hd, hq]

theorem ended_advance (s : State) (t : Nat) (ph : Phase) : (s.advance t).ended ph = s.ended ph := by
  unfold State.ended
  rw [(advance_writes s t).signals.qtz]

/-- The deadlines of S and V leave all to the seal. -/
theorem atDeadline_plain {ph : Phase} (h : ph = .s ∨ ph = .v) (s : State) : s.atDeadline ph = s := by
  rcases h with rfl | rfl <;> rfl

theorem atDeadline_ended {s : State} (h : s.ended .c = true) : s.atDeadline .c = s.channelBeat := by
  simp [State.atDeadline, State.when, h]

theorem atDeadline_overran {s : State} (h : s.ended .c = false) : s.atDeadline .c = s := by
  simp [State.atDeadline, State.when, h]

/-! ### Channel A's heartbeat -/

theorem channelBeat_eq {s : State} (h : s.qtz.beat = false) :
    s.channelBeat = s.sendHeartbeat.setQtz { s.sendHeartbeat.qtz with beat := true } := by
  simp [State.channelBeat, h]

theorem channelBeat_sent {s : State} (h : s.qtz.beat = false) :
    s.channelBeat.qtz.beat = true ∧ s.SameRegs s.channelBeat [] ∧ s.SameMemory s.channelBeat ∧
      s.channelBeat.saf.flint.sent =
        some (w32 (s.tick % 65536 + 65536 * (Config.heartbeatSig s.saf.flint.seed (s.tick % 65536)).toNat)) := by
  rw [channelBeat_eq h]
  exact ⟨rfl, fun _ _ => rfl, ⟨rfl, rfl, rfl, rfl, rfl⟩, rfl⟩

theorem deadline_realign {s : State} (ht : s.ticking = true) (hq : s.bit Reg.QTZ_STAT 7 = true) (g : BitVec 16) (cpl : Bool) :
    s.deadline .c g cpl = (s.advance (min (s.phaseInstant .c (s.phaseEnd .c)) s.nextBoundary)).channelBeat := by
  simp [State.deadline, State.when, State.realignBeat, ht, hq]

/-! ### A group that overran twice in a row -/

theorem overrunStop_testBit (s : State) (g : Fin 16) : (s.overrunStop (1#16 <<< g.val)).saf.ovr.testBit g.val = true := by
  have h : (1#16 <<< g.val).toNat.testBit g.val = true := by
    rw [BitVec.testBit_toNat]
    simp
  exact (Nat.testBit_or _ _ _).trans (by rw [h, Bool.or_true])

theorem overrunStop_frame (s : State) (g : BitVec 16) : s.overrunStop g = { s with saf := { s.saf with ovr := (s.overrunStop g).saf.ovr } } := rfl

/-! ### What an overrun leads to -/

/-- Of a phase whose deadline has found it running, as the page and Quartz show it. -/
theorem overrun_noted (w : State) (ph : Phase) (g : BitVec 16) (cpl : Bool) :
    (w.overrun ph g cpl).qtz.sealed = w.qtz.sealed ∧ (w.overrun ph g cpl).bit Reg.QTZ_PH_OVR ph.num = true ∧
      (w.overrun ph g cpl).rdN (Reg.QTZ_PH_OVR_CNT ph.num) = min (w.rdN (Reg.QTZ_PH_OVR_CNT ph.num) + 1) 0xFFFFFFFF ∧
      (w.overrun ph g cpl).bit Reg.SYS_STAT 5 = true := by
  obtain ⟨y, hy, hk, -⟩ := overrunOutcome_frame (w.noteOverrun ph) ph g cpl
  have hpage : ∀ a, pageOf a = Page.QTZ → (w.overrun ph g cpl).rd a = (w.noteOverrun ph).rd a := fun a ha => (hk.page a ha).trans (hy.rd a)
  refine ⟨?_, ?_, ?_, hk.lapse ?_⟩
  · rw [overrun_eq, hk.qtz, hy.2, (noteOverrun_signals w ph).qtz]
  · rw [bit_of_rd (hpage _ (by decide)), noteOverrun_bit]
  · rw [rdN_of_rd (hpage _ (phOvrCnt_page ph)), noteOverrun_count]
  · rw [bit_of_rd (hy.rd _)]
    exact bit_detLapse _

theorem noteOverrun_parity (s : State) (ph : Phase) : (s.noteOverrun ph).parity = s.parity :=
  congrArg (· % 2) (noteOverrun_tick s ph)

/-- In S, V and C the copy of the present parity is invalid. -/
theorem overrun_invalid (w : State) {ph : Phase} (h : ph = .s ∨ ph = .v ∨ ph = .c) (g : BitVec 16) (cpl : Bool) :
    ((w.overrun ph g cpl).invalidPhases (w.overrun ph g cpl).parity).testBit ph.num = true := by
  obtain ⟨y, hy, hk, hi⟩ := overrunOutcome_frame (w.noteOverrun ph) ph g cpl
  have hq : (w.overrun ph g cpl).invalidPhases y.parity = y.invalidPhases y.parity := by
    unfold State.invalidPhases
    rw [overrun_eq, hk.qtz]
  rw [overrun_eq, hk.parity, ← overrun_eq, hq, hy.parity, hi h]
  exact setInvalid_invalid _ _

/-- S and C are stop causes of the device. -/
theorem overrun_stops {w : State} {ph : Phase} {c : StopCause} (h : (ph = .s ∧ c = .sOverrun) ∨ (ph = .c ∧ c = .cOverrun)) (g : BitVec 16)
    (cpl : Bool) :
    (w.overrun ph g cpl).bit Reg.SYS_STOP_CAUSE (16 + c.num) = true ∧
      (w.running = true → (w.overrun ph g cpl).bit Reg.SYS_STOP_CAUSE c.num = true ∧ DevState.safestop ∈ (w.overrun ph g cpl).sys.triggers) := by
  have hsys : ((w.noteOverrun ph).setInvalid ph).sys = w.sys := (setInvalid_marks _ ph).sys.trans (noteOverrun_signals w ph).sys
  have heq : w.overrun ph g cpl = ((w.noteOverrun ph).setInvalid ph).stopCause c := by
    rcases h with ⟨rfl, rfl⟩ | ⟨rfl, rfl⟩ <;> rfl
  rw [heq]
  refine ⟨bit_stopCause_present _ c, fun hr => stopCause_running ?_ c⟩
  unfold State.running at hr ⊢
  rw [hsys]
  exact hr

theorem overrun_plan (w : State) (g : BitVec 16) (cpl : Bool) :
    (w.overrun .p g cpl).planBad (w.overrun .p g cpl).parity = w.planBad w.parity ||| g ∧
      (w.overrun .p g cpl).qtz.ovr2P = g &&& w.qtz.ovrP ∧ (w.overrun .p g cpl).saf.ovr = w.saf.ovr ||| (g &&& w.qtz.ovrP).toNat ∧
      (cpl = true → ((w.overrun .p g cpl).invalidPhases (w.overrun .p g cpl).parity).testBit 2 = true) := by
  have hs := noteOverrun_signals w .p
  obtain ⟨hm, hbad, hrow, hovr, hcpl⟩ := overrunOutcome_plan (w.noteOverrun .p) g cpl
  have hplan : (w.noteOverrun .p).planBad w.parity = w.planBad w.parity := by unfold State.planBad; rw [hs.qtz]
  rw [noteOverrun_parity] at hbad hcpl
  rw [overrun_eq, hm.parity, noteOverrun_parity]
  exact ⟨by rw [hbad, hplan], by rw [hrow, hs.qtz], by rw [hovr, hs.qtz, hs.saf], hcpl⟩

theorem overrun_command (w : State) (g : BitVec 16) (cpl : Bool) :
    (w.overrun .l g cpl).cmdBad (w.overrun .l g cpl).parity = w.cmdBad w.parity ||| g ∧
      (w.overrun .l g cpl).qtz.ovr2L = g &&& w.qtz.ovrL ∧ (w.overrun .l g cpl).saf.ovr = w.saf.ovr ||| (g &&& w.qtz.ovrL).toNat := by
  have hs := noteOverrun_signals w .l
  obtain ⟨hm, hbad, hrow, hovr⟩ := overrunOutcome_command (w.noteOverrun .l) g cpl
  have hcmd : (w.noteOverrun .l).cmdBad w.parity = w.cmdBad w.parity := by unfold State.cmdBad; rw [hs.qtz]
  rw [noteOverrun_parity] at hbad
  rw [overrun_eq, hm.parity, noteOverrun_parity]
  exact ⟨by rw [hbad, hcmd], by rw [hrow, hs.qtz], by rw [hovr, hs.qtz, hs.saf]⟩

/-! ### The statement, clause by clause -/

/-- A phase that has not ended at its deadline, rules R48 and R49. -/
theorem deadline_overrun_clause {s : State} {ph : Phase} (g : BitVec 16) (cpl : Bool) (he : ph ≠ .e) (hr : s.phasesRun = true)
    (hs : s.isSealed ph = false) (hd : s.ended ph = false) :
    Completes (.phaseDeadline ph ⟨g, cpl⟩) s (fun t => ∃ u w : State, u = { s with regs := u.regs } ∧
      s.SameRegs u timeRegs ∧ w = (u.atDeadline ph).setSealed ph ∧
      (ph = .s ∨ ph = .v ∨ ph = .c → u.atDeadline ph = u) ∧ t.isSealed ph = true ∧ t.bit Reg.QTZ_PH_OVR ph.num = true ∧
      t.rdN (Reg.QTZ_PH_OVR_CNT ph.num) = min (w.rdN (Reg.QTZ_PH_OVR_CNT ph.num) + 1) 0xFFFFFFFF ∧ t.bit Reg.SYS_STAT 5 = true ∧
      (∀ c : StopCause, (ph = .s ∧ c = .sOverrun) ∨ (ph = .c ∧ c = .cOverrun) → t.bit Reg.SYS_STOP_CAUSE (16 + c.num) = true ∧
        (s.running = true → t.bit Reg.SYS_STOP_CAUSE c.num = true ∧ DevState.safestop ∈ t.sys.triggers)) ∧
      (ph = .s ∨ ph = .v ∨ ph = .c → (t.invalidPhases t.parity).testBit ph.num = true) ∧
      (ph = .p → t.planBad t.parity = w.planBad w.parity ||| g ∧ t.qtz.ovr2P = g &&& w.qtz.ovrP ∧
        t.saf.ovr = w.saf.ovr ||| (g &&& w.qtz.ovrP).toNat ∧ (cpl = true → (t.invalidPhases t.parity).testBit 2 = true)) ∧
      (ph = .l → t.cmdBad t.parity = w.cmdBad w.parity ||| g ∧ t.qtz.ovr2L = g &&& w.qtz.ovrL ∧
        t.saf.ovr = w.saf.ovr ||| (g &&& w.qtz.ovrL).toNat)) := by
  refine ⟨_, congrArg Host.Outcome.next (deadline_overran he hr hs hd g cpl), ?_⟩
  have hu := advance_writes s (s.phaseInstant ph (s.phaseEnd ph))
  have hend := ended_advance s (s.phaseInstant ph (s.phaseEnd ph))
  generalize s.advance (s.phaseInstant ph (s.phaseEnd ph)) = u at hu hend ⊢
  have hplain : ph = .s ∨ ph = .v ∨ ph = .c → u.atDeadline ph = u := by
    rintro (h | h | rfl)
    · exact atDeadline_plain (.inl h) u
    · exact atDeadline_plain (.inr h) u
    · exact atDeadline_overran ((hend .c).trans hd)
  have hseal : ((u.atDeadline ph).setSealed ph).isSealed ph = true := setSealed_isSealed _ _
  have hrun : ph = .s ∨ ph = .v ∨ ph = .c → ((u.atDeadline ph).setSealed ph).running = s.running := by
    intro h
    rw [hplain h, hu.2]
    rfl
  generalize hw : (u.atDeadline ph).setSealed ph = w at hseal hrun ⊢
  obtain ⟨hsealed, hovr, hcnt, hdet⟩ := overrun_noted w ph g cpl
  refine ⟨u, w, hu.2, hu.1, hw.symm, hplain, ?_, hovr, hcnt, hdet, ?_, fun h => overrun_invalid w h g cpl, ?_, ?_⟩
  · unfold State.isSealed at hseal ⊢
    rw [hsealed, hseal]
  · intro c hc
    have h3 : ph = .s ∨ ph = .v ∨ ph = .c := by
      rcases hc with ⟨h, -⟩ | ⟨h, -⟩
      · exact .inl h
      · exact .inr (.inr h)
    rw [← hrun h3]
    exact overrun_stops hc g cpl
  · rintro rfl
    exact overrun_plan w g cpl
  · rintro rfl
    exact overrun_command w g cpl

/-- Settles O9: each clause is what the phase's operation does once the guards of its premises are decided. -/
theorem phaseCommands : Obligations.PhaseCommands := by
  refine ⟨?_, ?_, ?_, ?_, ?_, ?_, ?_, ?_⟩
  · intro s ph ms he hr hb hs
    obtain ⟨u, hu, hfr, hbeg, htime, hnone⟩ := advance_setBegun s (s.phaseInstant ph (s.phaseStart ph)) ph
    refine ⟨_, congrArg Host.Outcome.next (startPhase_eq he hr hb hs ms), u, hfr, hbeg, htime, hnone, by rw [hu], ?_⟩
    rintro rfl
    exact hu
  · intro s ph ofs he hr hb hp hd hofs
    obtain ⟨u, hu, hend, hmax, htime, hrep, hsame, hfr⟩ := advance_endPhase s (s.phaseInstant ph ofs) ph hofs
    refine ⟨_, congrArg Host.Outcome.next (completePhase_eq he hr hb hp hd ofs), u, hend, hmax, htime, hrep, hsame, hfr, by rw [hu], ?_⟩
    intro hv hc
    rw [hu]
    cases ph with
    | v => exact absurd rfl hv
    | c => exact absurd rfl hc
    | g | s | p | l | e => rfl
  · intro s ph g cpl he hr hs hd
    have hu := advance_writes s (s.phaseInstant ph (s.phaseEnd ph))
    refine ⟨_, congrArg Host.Outcome.next (deadline_ended he hr hs hd g cpl), _, hu.2, hu.1, rfl, setSealed_isSealed _ _,
      fun h => atDeadline_plain h _, ?_⟩
    rintro rfl
    exact atDeadline_ended ((ended_advance _ _ _).trans hd)
  · intro s ph g cpl he hr hs hd
    exact deadline_overrun_clause g cpl he hr hs hd
  · intro s g cpl ht hq hb
    refine ⟨_, congrArg Host.Outcome.next (deadline_realign ht hq g cpl), ?_⟩
    have hu := advance_writes s (min (s.phaseInstant .c (s.phaseEnd .c)) s.nextBoundary)
    generalize s.advance (min (s.phaseInstant .c (s.phaseEnd .c)) s.nextBoundary) = u at hu ⊢
    obtain ⟨hbeat, hregs, hmem, hsent⟩ := channelBeat_sent (s := u) (by rw [hu.signals.qtz, hb])
    rw [tick_of_same hu.1 (by decide) (by decide), hu.signals.saf] at hsent
    exact ⟨hbeat, (hu.1.trans hregs).mono (by simp), hu.signals.memory.trans hmem, hsent⟩
  · intro s g ht hg
    have heq : s.groupOverrunStop .p g = s.overrunStop (1#16 <<< g.val) := by simp [State.groupOverrunStop, ht, hg]
    exact ⟨_, congrArg Host.Outcome.next heq, overrunStop_testBit s g, overrunStop_frame _ _⟩
  · intro s g ht hg
    have heq : s.groupOverrunStop .l g = s.overrunStop (1#16 <<< g.val) := by simp [State.groupOverrunStop, ht, hg]
    exact ⟨_, congrArg Host.Outcome.next heq, overrunStop_testBit s g, overrunStop_frame _ _⟩
  · intro s ht hb
    have hadv : ∃ n, (if s.phasesRun then s.advance (s.phaseInstant .e (s.phaseStart .e)) else s) = s.advance n := by
      split
      · exact ⟨_, rfl⟩
      · exact ⟨0, (advance_of_le (Nat.zero_le _)).symm⟩
    obtain ⟨n, hn⟩ := hadv
    obtain ⟨u, hu, hfr, hbeg, htime, -⟩ := advance_setBegun s n .e
    have heq : s.eLaunch = if s.phasesRun then u.emit.holderBeat.publishView.tickRecord else u.emit.holderBeat := by
      rw [eLaunch_eq ht hb, hn, hu]
      rfl
    exact ⟨_, congrArg Host.Outcome.next heq, u, hfr, hbeg, htime, rfl⟩

end Sys2Proof.Machine
end

section
/-! SUPPORT. The device state at a tick boundary (O10): a trigger can also arise at the boundary itself. Egress stamps that a plant port holds
go to their descriptors there (rule R333). A stamp's second store covers 4 bytes; where its word cannot be corrected the narrow write is
refused (rule R374), and on the control path that is a stop cause in RUN (rule R371), so the boundary enters SAFESTOP though no trigger
waited before it. -/

namespace Sys2Proof.Machine

/-- What the boundary makes of the state before it changes state: the tick that ends is judged, and Quartz and the pins count. -/
def State.boundaryCounted (s : State) : State :=
  let s1 := s.stopCheck.landLate.followLead
  (s1.qtzBoundary (bestTrigger s1.sys.triggers == some .run) (bestTrigger s1.sys.triggers == some .selftest)).laxBoundary

theorem tickBoundary_run {s : State} (h : s.sys.dev = .run) :
    s.tickBoundary = s.boundaryCounted.changeState.clearCauses.openTick s.parity := by
  unfold State.tickBoundary
  rw [h]
  rfl

theorem boundaryCounted_kept {q : List Instr} {d : DevState} {s : State} (h : s.Kept q d) : s.boundaryCounted.Kept q d :=
  State.laxBoundary_kept (State.qtzBoundary_kept (State.followLead_kept (State.landLate_kept (State.stopCheck_kept h))))

/-- The trigger of the highest precedence gives the state. -/
theorem changeState_enters {q : List Instr} {d e : DevState} {s : State} (h : s.Kept q d) (hb : bestTrigger s.sys.triggers = some e) :
    s.changeState.Kept q e := by
  unfold State.changeState
  rw [hb]
  refine State.entry_kept (State.enter_kept (State.loseTriggers_kept (when_kept (fun _ ht => State.closeSeal_kept ht) h)) ?_)
  intro x hx
  rw [State.loseTriggers_triggers] at hx
  cases hx

/-- RUN without a trigger. Bytes 0 to 31 of cell memory are on the control path (MEM_CPR), the word at 24 cannot be corrected, and port 0
holds a stamp for the descriptor at 0, which takes it at bytes 16 to 27. -/
def stampAtBadWord : State :=
  { State.reset with
      regs := [(Reg.MEM_CPR 0 + 4, 32)], sys := { Sys.reset with dev := .run }, integ := { Integ.reset with ue := [(0x80, 24)] },
      plant := { Plant.reset with stamps := [(0, 0, 0)] } }

theorem stampAtBadWord_sound : stampAtBadWord.Sound :=
  ⟨⟨by decide, nil_wf, nil_wf, nil_wf, nil_wf, nil_wf⟩, fun _ hx => absurd hx List.not_mem_nil⟩

theorem stampAtBadWord_triggers : stampAtBadWord.boundaryCounted.sys.triggers = [.safestop] := by decide +kernel

/-- Its boundary enters SAFESTOP. -/
theorem stampAtBadWord_stops : stampAtBadWord.tickBoundary.sys.dev = .safestop := by
  have hk := boundaryCounted_kept stampAtBadWord_sound.kept
  have he := changeState_enters (e := .safestop) hk (by rw [stampAtBadWord_triggers]; rfl)
  rw [tickBoundary_run rfl]
  exact (State.openTick_kept (State.clearCauses_kept he)).dev

/-- Refutes O10: in RUN with no trigger the boundary's own writes can trigger SAFESTOP, which the first clause leaves out. -/
theorem not_tickBoundaryState : ¬ Obligations.TickBoundaryState := by
  rintro ⟨hlive, -, -⟩
  obtain ⟨t, ht, hdev, -⟩ := hlive stampAtBadWord stampAtBadWord_sound rfl (by decide)
  cases (Host.Outcome.next.inj ht : stampAtBadWord.tickBoundary = t)
  rw [stampAtBadWord_stops] at hdev
  exact absurd hdev (by decide)

end Sys2Proof.Machine
end

section
/-! SUPPORT. Mailboxes, masters, homing windows and compares (O37). -/

namespace Sys2Proof.Machine

/-! ### Axes and groups after a write of one -/

@[simp] theorem axis_setAxis_self (s : State) (a : Nat) (x : Axis) : (s.setAxis a x).axis a = x := Tab.get_set_self _ _ _ _

theorem axis_setAxis_ne {a b : Nat} (h : b ≠ a) (s : State) (x : Axis) : (s.setAxis a x).axis b = s.axis b := Tab.get_set_ne _ _ _ h

@[simp] theorem groupRt_setGroupRt_self (s : State) (g : Nat) (x : GroupRt) : (s.setGroupRt g x).groupRt g = x := Tab.get_set_self _ _ _ _

/-! ### Mailboxes, rule R16 -/

/-- A write of cell memory without a word that cannot be corrected. -/
theorem setCell_clean {s : State} {a n : Nat} (hu : s.integ.ue = []) (hi : inCell a n = true) (v : Nat) :
    s.setCell a n v = { s with cell := s.cell.setN a n v } := by
  simp [State.setCell, State.ueBlocks, State.ueReplaced, hu, hi]

/-- A commit before the cut of an earlier one is counted. -/
def State.countOverwrite (s : State) (g : Nat) (was : Bool) : State := if was then s.inc (Reg.PRFG_MBX_OVW_CNT g) else s

theorem countOverwrite_writes (s : State) (g : Nat) (was : Bool) : s.Writes (s.countOverwrite g was) [Reg.PRFG_MBX_OVW_CNT g] := by
  cases was
  · exact (State.Writes.refl s).mono (by simp)
  · exact inc_writes _ _

theorem countOverwrite_count (s : State) (g : Nat) (was : Bool) : (s.countOverwrite g was).rdN (Reg.PRFG_MBX_OVW_CNT g) =
    min (s.rdN (Reg.PRFG_MBX_OVW_CNT g) + b2n was) 0xFFFFFFFF := by
  cases was
  · have := rdN_lt s (Reg.PRFG_MBX_OVW_CNT g)
    simp only [State.countOverwrite, b2n, Bool.false_eq_true, if_false]
    omega
  · exact rdN_inc _ _

/-- A commit outside the shadow, with the mailbox in cell memory. -/
theorem mailboxCommit_eq {s : State} {g : Nat} (seq : BitVec 16) (hs : s.shadow = false) (hu : s.integ.ue = [])
    (hi : inCell (s.rdN (Reg.PRFG_MBX g)) 4 = true) :
    s.mailboxCommit g seq.toNat =
      (({ s with cell := s.cell.setN (s.rdN (Reg.PRFG_MBX g)) 4 seq.toNat } : State).countOverwrite g (s.groupRt g).committed).setGroupRt g
        { s.groupRt g with committed := true } := by
  unfold State.mailboxCommit State.countOverwrite
  rw [if_neg (by simp [hs]), setCell_clean hu hi, Nat.mod_eq_of_lt seq.isLt]
  dsimp only
  split <;> rfl

theorem mailboxCommit_shadow {s : State} (h : s.shadow = true) (g seq : Nat) : s.mailboxCommit g seq = s.inc Reg.TWN_CMD_IGN_CNT := if_pos h

/-! ### Masters, rule R123 -/

/-- The page of a group whose master is lost. -/
def State.noteStale (s : State) (g : Nat) : State :=
  ((s.setBit (Reg.PRFG_STAT g) 0 true).setBit (Reg.PRFG_STAT g) 1 true).inc (Reg.PRFG_MST_STALE_CNT g)

theorem noteStale_writes (s : State) (g : Nat) : s.Writes (s.noteStale g) [Reg.PRFG_STAT g, Reg.PRFG_MST_STALE_CNT g] :=
  (((setBit_writes _ _ _ _).trans (setBit_writes _ _ _ _)).trans (inc_writes _ _)).mono (by simp)

theorem noteStale_page (s : State) (g : Nat) :
    (s.noteStale g).bit (Reg.PRFG_STAT g) 0 = true ∧ (s.noteStale g).bit (Reg.PRFG_STAT g) 1 = true ∧
      (s.noteStale g).rdN (Reg.PRFG_MST_STALE_CNT g) = min (s.rdN (Reg.PRFG_MST_STALE_CNT g) + 1) 0xFFFFFFFF := by
  have hne : Reg.PRFG_STAT g ≠ Reg.PRFG_MST_STALE_CNT g := by simp only [Reg.PRFG_STAT, Reg.PRFG_MST_STALE_CNT]; omega
  unfold State.noteStale
  refine ⟨?_, ?_, ?_⟩
  · rw [bit_of_rd (rd_inc_ne hne _), bit_setBit (by decide), if_neg (by decide), bit_setBit_self (by decide)]
  · rw [bit_of_rd (rd_inc_ne hne _), bit_setBit_self (by decide)]
  · rw [rdN_inc, rdN_of_rd (rd_setBit_ne hne.symm _ _ _), rdN_of_rd (rd_setBit_ne hne.symm _ _ _)]

/-- The group's virtual master starts from the value in effect unless it runs already. -/
def State.startVirtual (s old : State) (g : Nat) : State :=
  if old.bit (Reg.PRFG_STAT g) 1 then s
  else s.setGroupRt g { s.groupRt g with virtPos := old.rdI64 (Reg.PRFG_MST_POS g), virtVel := old.rdI64 (Reg.PRFG_MST_VEL g) }

theorem masterLost_eq (s : State) (g : Nat) : s.masterLost g = ((s.noteStale g).startVirtual s g).alarm (Page.PRFG g) 1 0 := rfl

/-- The virtual master is kept beside the page. -/
theorem startVirtual_frame (s old : State) (g : Nat) :
    s.startVirtual old g = { s with prof := (s.startVirtual old g).prof } := by
  unfold State.startVirtual
  split <;> rfl

theorem rd_startVirtual (s old : State) (g a : Nat) : (s.startVirtual old g).rd a = s.rd a := by
  unfold State.startVirtual
  split <;> rfl

theorem startVirtual_groupRt {old : State} {g : Nat} (h : old.bit (Reg.PRFG_STAT g) 1 = false) (s : State) :
    ((s.startVirtual old g).groupRt g).virtPos = old.rdI64 (Reg.PRFG_MST_POS g) ∧
      ((s.startVirtual old g).groupRt g).virtVel = old.rdI64 (Reg.PRFG_MST_VEL g) := by
  unfold State.startVirtual
  rw [if_neg (by simp [h]), groupRt_setGroupRt_self]
  exact ⟨rfl, rfl⟩

theorem ticking_clocked {s : State} (h : s.ticking = true) : s.clocked = true := by
  unfold State.ticking at h
  unfold State.clocked
  cases hd : s.sys.dev <;> simp_all

/-- A master too old: the group's page, the virtual master and the alarm. -/
theorem masterLost_clause {s : State} (g : Nat) (ht : s.ticking = true) :
    (s.masterLost g).bit (Reg.PRFG_STAT g) 0 = true ∧ (s.masterLost g).bit (Reg.PRFG_STAT g) 1 = true ∧
      (s.masterLost g).rdN (Reg.PRFG_MST_STALE_CNT g) = min (s.rdN (Reg.PRFG_MST_STALE_CNT g) + 1) 0xFFFFFFFF ∧
      (s.bit (Reg.PRFG_STAT g) 1 = false → ((s.masterLost g).groupRt g).virtPos = s.rdI64 (Reg.PRFG_MST_POS g) ∧
        ((s.masterLost g).groupRt g).virtVel = s.rdI64 (Reg.PRFG_MST_VEL g)) ∧
      (s.masterLost g).evt.raisings = s.evt.raisings ++ [⟨Page.PRFG g, 1, true, 0, s.now⟩] ∧
      s.SameRegs (s.masterLost g) [Reg.PRFG_STAT g, Reg.PRFG_MST_STALE_CNT g, Reg.PG_IRQ_RAW (Page.PRFG g)] ∧
      s.SameMemory (s.masterLost g) := by
  have hw := noteStale_writes s g
  have htime : Reg.QTZ_TIME_NS ∉ [Reg.PRFG_STAT g, Reg.PRFG_MST_STALE_CNT g] ∧
      Reg.QTZ_TIME_NS + 4 ∉ [Reg.PRFG_STAT g, Reg.PRFG_MST_STALE_CNT g] := by
    simp only [List.mem_cons, List.not_mem_nil, or_false, Reg.QTZ_TIME_NS, Reg.PRFG_STAT, Reg.PRFG_MST_STALE_CNT]; omega
  have hstat : Reg.PRFG_STAT g ≠ Reg.PG_IRQ_RAW (Page.PRFG g) := by simp only [Reg.PRFG_STAT, Reg.PG_IRQ_RAW, Page.PRFG]; omega
  have hcnt : Reg.PRFG_MST_STALE_CNT g ≠ Reg.PG_IRQ_RAW (Page.PRFG g) := by
    simp only [Reg.PRFG_MST_STALE_CNT, Reg.PG_IRQ_RAW, Page.PRFG]; omega
  obtain ⟨h0, h1, h2⟩ := noteStale_page s g
  have hf := startVirtual_frame (s.noteStale g) s g
  have hv : s.bit (Reg.PRFG_STAT g) 1 = false → _ := fun hb => startVirtual_groupRt hb (s.noteStale g)
  have hrd := rd_startVirtual (s.noteStale g) s g
  rw [masterLost_eq]
  generalize (s.noteStale g).startVirtual s g = v at hf hv hrd ⊢
  have hclk : v.clocked = true := by
    rw [clocked_of_sys (s := s) (by rw [hf]; exact hw.signals.sys)]
    exact ticking_clocked ht
  have hnow : v.now = s.now := by
    rw [← same_now hw.1 htime.1 htime.2]
    unfold State.now State.rd64 State.rdN
    rw [hrd, hrd]
  have ha := alarm_raises hclk (Page.PRFG g) 1 0
  rw [hnow] at ha
  generalize v.alarm (Page.PRFG g) 1 0 = t at ha ⊢
  refine ⟨?_, ?_, ?_, ?_, ?_, ?_, ?_⟩
  · rw [bit_of_rd (ha.1 _ (by simpa using hstat)), bit_of_rd (hrd _), h0]
  · rw [bit_of_rd (ha.1 _ (by simpa using hstat)), bit_of_rd (hrd _), h1]
  · rw [rdN_of_rd (ha.1 _ (by simpa using hcnt)), rdN_of_rd (hrd _), h2]
  · intro hb
    have hg : t.groupRt g = v.groupRt g := by rw [ha.2]; rfl
    rw [hg]
    exact hv hb
  · have hevt : v.evt = s.evt := by rw [hf, hw.2]
    rw [ha.2, hevt]
  · exact State.SameRegs.trans (l := [Reg.PRFG_STAT g, Reg.PRFG_MST_STALE_CNT g]) (t := v) (fun a hm => (hrd a).trans (hw.1 a hm)) ha.1
  · have hmem : s.SameMemory v := by rw [hf, hw.2]; exact ⟨rfl, rfl, rfl, rfl, rfl⟩
    exact hmem.trans ha.signals.memory

/-! ### Homing inputs, rule R131 -/

theorem homeCfg_not_time (a : Nat) : Reg.PRF_HOME_CFG a ∉ timeRegs := by
  simp only [List.mem_cons, List.not_mem_nil, or_false, Reg.PRF_HOME_CFG, Reg.QTZ_TIME_NS, Reg.QTZ_TIME_FRAC]; omega

/-- The windows that have ended take the level that their input then has. -/
theorem closeWindows_frame (s : State) (a t : Nat) :
    ((s.closeWindows a t).axis a).homeWin = (s.axis a).homeWin.map (fun w =>
        if w.level.isNone && decide (s.homeEnd a w ≤ t) then { w with level := some ((s.axis a).homeSeen.testBit (homeNum w.inp)) } else w) ∧
      (∀ b, b ≠ a → (s.closeWindows a t).axis b = s.axis b) ∧ (∀ r, (s.closeWindows a t).rd r = s.rd r) ∧
      s.SameMemory (s.closeWindows a t) := by
  refine ⟨?_, fun b hb => axis_setAxis_ne hb _ _, fun _ => rfl, ⟨rfl, rfl, rfl, rfl, rfl⟩⟩
  unfold State.closeWindows
  rw [axis_setAxis_self]

theorem closeWindows_now (s : State) (a t : Nat) : (s.closeWindows a t).now = s.now := rfl

theorem debounceEnd_eq {s : State} {a : Nat} {w : HomeWindow} {lvl : Bool} (hs : s.axState a = axHoming) (hw : w ∈ (s.axis a).homeWin)
    (hn : w.level = none) (hl : (s.axis a).homeSeen.testBit (homeNum w.inp) = lvl) :
    s.debounceEnd a w lvl = (s.advance (s.homeEnd a w)).closeWindows a (s.homeEnd a w) := by
  simp [State.debounceEnd, hs, hw, hn, hl]

theorem debounceEnd_clause {s : State} {a : Nat} {w : HomeWindow} {lvl : Bool} (hs : s.axState a = axHoming) (hw : w ∈ (s.axis a).homeWin)
    (hn : w.level = none) (hl : (s.axis a).homeSeen.testBit (homeNum w.inp) = lvl) :
    (s.debounceEnd a w lvl).now = (s.advance (w.time + 1000 * s.fld (Reg.PRF_HOME_CFG a) 31 16)).now ∧
      ((s.debounceEnd a w lvl).axis a).homeWin = (s.axis a).homeWin.map (fun x =>
        if x.level.isNone && decide (s.homeEnd a x ≤ s.homeEnd a w) then
          { x with level := some ((s.axis a).homeSeen.testBit (homeNum x.inp)) } else x) ∧
      (∀ b, b ≠ a → (s.debounceEnd a w lvl).axis b = s.axis b) ∧ s.SameRegs (s.debounceEnd a w lvl) timeRegs ∧
      s.SameMemory (s.debounceEnd a w lvl) := by
  have hu := advance_writes s (s.homeEnd a w)
  have hend : ∀ x, (s.advance (s.homeEnd a w)).homeEnd a x = s.homeEnd a x := fun x => by
    unfold State.homeEnd
    rw [fld_of_rd (rd_advance (homeCfg_not_time a) s _)]
  have hax : ∀ b, (s.advance (s.homeEnd a w)).axis b = s.axis b := fun b => by rw [hu.2]; rfl
  obtain ⟨hwin, hothers, hregs, hmem⟩ := closeWindows_frame (s.advance (s.homeEnd a w)) a (s.homeEnd a w)
  simp only [hend, hax] at hwin hothers
  rw [debounceEnd_eq hs hw hn hl]
  exact ⟨closeWindows_now _ _ _, hwin, hothers, fun r hr => (hregs r).trans (hu.1 r hr), hu.signals.memory.trans hmem⟩

/-! ### Compares, rules R134 to R136 -/

theorem testBit_or_shift (n i : Nat) : (n ||| (1 <<< i)).testBit i = true := by simp

theorem cmpArm_axis (s : State) (a c : Nat) (v : Word) : (s.cmpArm a c v).axis a =
    { s.axis a with rearm := (s.axis a).rearm ||| (1 <<< c), unarm := withBits (s.axis a).unarm c c 0 } := axis_setAxis_self _ _ _

theorem cmpDisarm_axis (s : State) (a c : Nat) (v : Word) : (s.cmpDisarm a c v).axis a =
    { s.axis a with unarm := (s.axis a).unarm ||| (1 <<< c) } := axis_setAxis_self _ _ _

/-- Settles O37: each clause is what the operation does once the guards of its premises are decided. -/
theorem motionInputs : Obligations.MotionInputs := by
  refine ⟨?_, ?_, ?_, ?_, ?_, ?_⟩
  · intro s ag g seq hc hag hg hs hu hi
    refine ⟨_, congrArg Host.Outcome.next ((if_pos (by simp [hc, hag, hg])).trans (mailboxCommit_eq seq hs hu hi)), ?_⟩
    have hw := countOverwrite_writes { s with cell := s.cell.setN (s.rdN (Reg.PRFG_MBX g.val)) 4 seq.toNat } g.val (s.groupRt g.val).committed
    have hn := countOverwrite_count { s with cell := s.cell.setN (s.rdN (Reg.PRFG_MBX g.val)) 4 seq.toNat } g.val (s.groupRt g.val).committed
    generalize ({ s with cell := s.cell.setN (s.rdN (Reg.PRFG_MBX g.val)) 4 seq.toNat } : State).countOverwrite g.val
      (s.groupRt g.val).committed = t at hw hn ⊢
    refine ⟨by rw [groupRt_setGroupRt_self], ?_, hn, hw.1, ?_⟩
    · rw [hw.2]; rfl
    · rw [hw.2]; rfl
  · intro s ag g seq hc hag hg hs
    refine ⟨_, congrArg Host.Outcome.next ((if_pos (by simp [hc, hag, hg])).trans (mailboxCommit_shadow hs g.val seq.toNat)), ?_⟩
    exact ⟨rdN_inc _ _, inc_writes _ _⟩
  · intro s g ht hg hen hst hth hold
    have heq : s.masterStale g.val = s.masterLost g.val := if_pos (by simp [ht, hg, hen, hst, hth, hold])
    exact ⟨_, congrArg Host.Outcome.next heq, masterLost_clause g.val ht⟩
  · intro s a w lvl hc hst hw hn hl
    have heq : (⟨w.inp, w.time, w.edges, w.before, w.pos, none⟩ : HomeWindow) = w := by rw [← hn]
    have hrun : exec (.homeDebounceEnd a w.inp w.edges w.before lvl w.pos w.time) s = .next (s.debounceEnd a.val w lvl) :=
      congrArg Host.Outcome.next ((if_pos hc).trans (by rw [heq]))
    exact ⟨_, hrun, debounceEnd_clause hst hw hn hl⟩
  · intro s ag a c v hw
    refine completes_write hw rfl ⟨rd_wr_self _ _ _, ?_, ?_, (wr_writes s (Reg.CMP_CTRL a.val c.val) _).1, rfl⟩
    · rw [cmpArm_axis]
      exact testBit_or_shift _ _
    · rw [cmpArm_axis]
  · intro s ag a c v hw
    refine completes_write hw rfl ⟨rd_wr_self _ _ _, ?_, ?_, (wr_writes s (Reg.CMP_CTRL a.val c.val) _).1, rfl⟩
    · rw [cmpDisarm_axis]
      exact testBit_or_shift _ _
    · rw [cmpDisarm_axis]

end Sys2Proof.Machine
end

section
/-! SUPPORT. Outputs of the field die: the checked word, the loss of commands, overloads and open loads (O52). -/

namespace Sys2Proof.Machine

/-! ### The outputs as a mask -/

/-- A bit of a mask of outputs, over the first `n` of them. -/
theorem testBit_foldl_mask (f : Nat → Bool) (n i : Nat) :
    ((List.range n).foldl (fun m i => if f i then m + 2 ^ i else m) 0).testBit i = (decide (i < n) && f i) ∧
      (List.range n).foldl (fun m i => if f i then m + 2 ^ i else m) 0 < 2 ^ n := by
  induction n with
  | zero => simp
  | succ n ih =>
    obtain ⟨hbit, hlt⟩ := ih
    rw [List.range_succ, List.foldl_append, List.foldl_cons, List.foldl_nil]
    generalize (List.range n).foldl (fun m i => if f i then m + 2 ^ i else m) 0 = m at hbit hlt ⊢
    have hpow : 2 ^ (n + 1) = 2 ^ n + 2 ^ n := by omega
    cases hf : f n with
    | false =>
      refine ⟨?_, by simpa using Nat.lt_of_lt_of_le hlt (by omega)⟩
      rw [if_neg (by simp), hbit]
      by_cases hi : i = n
      · simp [hi, hf]
      · simp [show i < n + 1 ↔ i < n by omega]
    | true =>
      refine ⟨?_, by simp; omega⟩
      rw [if_pos rfl]
      have hadd : m + 2 ^ n = 2 ^ n ||| m := by
        rw [Nat.add_comm]
        simpa using Nat.two_pow_add_eq_or_of_lt hlt 1
      rw [hadd, Nat.testBit_or, hbit, Nat.testBit_two_pow]
      by_cases hi : i = n
      · simp [hi, hf]
      · simp [show i < n + 1 ↔ i < n by omega, Ne.symm hi]

theorem testBit_maskOf (f : Nat → Bool) {i : Nat} (h : i < 16) : (maskOf f).testBit i = f i := by
  refine (testBit_foldl_mask f 16 i).1.trans ?_
  simp [h]

/-! ### What follows from what decides the outputs -/

/-- The outputs, the times of their switching off and the gates shown: nothing else differs. -/
theorem refreshDq_eq (s : State) : ∃ (x : Field) (gated : Nat), s.refreshDq = ({ s with field := x } : State).setFld Reg.FIO_DQ_RB 31 16 gated ∧
    x.on = BitVec.ofNat 16 (maskOf s.dqOn) ∧ x = { s.field with on := x.on, offTime := x.offTime } := ⟨_, _, rfl, rfl, rfl⟩

theorem refreshDq_sameRegs (s : State) : s.SameRegs s.refreshDq [Reg.FIO_DQ_RB] := by
  obtain ⟨x, n, h, -, -⟩ := refreshDq_eq s
  rw [h]
  exact fun a ha => rd_setFld_ne (by simpa using ha) _ _ _ _

theorem refreshDq_memory (s : State) : s.SameMemory s.refreshDq := by
  obtain ⟨x, n, h, -, -⟩ := refreshDq_eq s
  rw [h]
  exact (setFld_writes { s with field := x } Reg.FIO_DQ_RB 31 16 n).signals.memory

theorem refreshDq_late (s : State) : s.refreshDq.late = s.late := by
  obtain ⟨x, n, h, -, -⟩ := refreshDq_eq s
  rw [h, State.setFld_late]

/-- Of the field die only which outputs are on, and since when they are off, may differ. -/
theorem refreshDq_field (s : State) :
    s.refreshDq.field = { s.field with on := s.refreshDq.field.on, offTime := s.refreshDq.field.offTime } := by
  obtain ⟨x, n, h, -, hx⟩ := refreshDq_eq s
  rw [h, State.setFld_field]
  exact hx

/-- Each output is on where what decides it says so. -/
theorem refreshDq_on (s : State) {i : Nat} (h : i < 16) : s.refreshDq.field.on.getLsbD i = s.dqOn i := by
  obtain ⟨x, n, heq, hon, -⟩ := refreshDq_eq s
  rw [heq, State.setFld_field, hon, BitVec.getLsbD_ofNat, testBit_maskOf _ h, decide_eq_true h, Bool.true_and]

/-- What decides an output is as before. -/
theorem refreshDq_dqOn (s : State) {i : Nat} (h : i < 16) : s.refreshDq.dqOn i = s.dqOn i := by
  obtain ⟨x, n, heq, -, -⟩ := refreshDq_eq s
  have hr := refreshDq_sameRegs s
  have hl := refreshDq_late s
  have hf := refreshDq_field s
  have hsys : s.refreshDq.sys = s.sys := by rw [heq, State.setFld_sys]
  have hcfg : Reg.FIO_DQ_CFG i ∉ [Reg.FIO_DQ_RB] := by
    simp only [List.mem_singleton, Reg.FIO_DQ_CFG, Reg.FIO_DQ_RB]; omega
  have hheld : s.refreshDq.dqHeld i = s.dqHeld i := by
    unfold State.dqHeld
    rw [bit_of_rd (hr Reg.FIO_DQ_EXTF (by decide)), bit_of_rd (hr Reg.FIO_DQ_EXTF (by decide))]
  have hgate : s.refreshDq.gateClosed i = s.gateClosed i := by
    unfold State.gateClosed
    rw [eff_of_rd hl (hr Reg.FLT_MASK (by decide)), bit_of_rd (hr Reg.FLT_GATE (by decide))]
  have hpar : s.refreshDq.parHeld i = s.parHeld i := by
    unfold State.parHeld
    rw [eff_of_rd hl (hr _ hcfg), hf]
  have hcmd : s.refreshDq.dqCommanded i = s.dqCommanded i := by
    unfold State.dqCommanded State.outputsLive
    rw [hsys, hf]
  unfold State.dqOn
  rw [hheld, hgate, hpar, hcmd, hf]

theorem dqOn_lost {s : State} (h : s.field.lost = true) (i : Nat) : s.dqOn i = false := by
  simp [State.dqOn, State.dqCommanded, h]

theorem dqOn_overloaded {s : State} {i : Nat} (h : s.field.ovlOff.getLsbD i = true) : s.dqOn i = false := by
  simp [State.dqOn, h]

theorem maskOf_false {f : Nat → Bool} (h : ∀ i, f i = false) : maskOf f = 0 := by
  have : ∀ l : List Nat, l.foldl (fun m i => if f i then m + 2 ^ i else m) 0 = 0 := by
    intro l
    induction l with
    | nil => rfl
    | cons i l ih => simpa [h i] using ih
  exact this _

/-! ### Overloads -/

theorem setOvlOff_ovlOff (s : State) {i : Nat} (h : i < 16) (b : Bool) : (s.setOvlOff i b).field.ovlOff.getLsbD i = b := by
  unfold State.setOvlOff
  simp only [BitVec.getLsbD_ofNat, testBit_withBits (Nat.le_refl i)]
  cases b <;> simp [b2n, h]

/-- The page of an output that an overload switches off, before its alarm. -/
def State.noteOverload (s : State) (i : Nat) : State :=
  (((s.setOvlOff i true).setBit Reg.FIO_DQ_OVL i true).setBit Reg.FIO_DQ_OVL (16 + i) true).inc Reg.FIO_OVL_CNT

theorem overload_eq (s : State) (i : Nat) : s.overload i = ((s.noteOverload i).alarm Page.FIO 1 0).refreshDq := rfl

theorem noteOverload_writes (s : State) (i : Nat) : (s.setOvlOff i true).Writes (s.noteOverload i) [Reg.FIO_DQ_OVL, Reg.FIO_OVL_CNT] :=
  (((setBit_writes _ _ _ _).trans (setBit_writes _ _ _ _)).trans (inc_writes _ _)).mono (by simp)

theorem noteOverload_page (s : State) {i : Nat} (h : i < 16) :
    (s.noteOverload i).bit Reg.FIO_DQ_OVL i = true ∧ (s.noteOverload i).bit Reg.FIO_DQ_OVL (16 + i) = true ∧
      (s.noteOverload i).rdN Reg.FIO_OVL_CNT = min (s.rdN Reg.FIO_OVL_CNT + 1) 0xFFFFFFFF := by
  unfold State.noteOverload
  refine ⟨?_, ?_, ?_⟩
  · rw [bit_of_rd (rd_inc_ne (by decide) _), bit_setBit (by omega), if_neg (by omega), bit_setBit_self (by omega)]
  · rw [bit_of_rd (rd_inc_ne (by decide) _), bit_setBit_self (by omega)]
  · rw [rdN_inc, rdN_of_rd (rd_setBit_ne (by decide) _ _ _), rdN_of_rd (rd_setBit_ne (by decide) _ _ _)]
    rfl

/-- An overload of an output, whether or not it was on. -/
theorem overload_clause (s : State) {i : Nat} (h : i < 16) :
    (s.overload i).field.on.getLsbD i = false ∧ (s.overload i).field.ovlOff.getLsbD i = true ∧ (s.overload i).bit Reg.FIO_DQ_OVL i = true ∧
      (s.overload i).bit Reg.FIO_DQ_OVL (16 + i) = true ∧
      (s.overload i).rdN Reg.FIO_OVL_CNT = min (s.rdN Reg.FIO_OVL_CNT + 1) 0xFFFFFFFF ∧
      s.SameRegs (s.overload i) [Reg.FIO_DQ_OVL, Reg.FIO_OVL_CNT, Reg.FIO_DQ_RB, Reg.PG_IRQ_RAW Page.FIO] ∧ s.SameMemory (s.overload i) := by
  have hw := noteOverload_writes s i
  obtain ⟨h0, h1, h2⟩ := noteOverload_page s h
  have ha := alarm_signals (s.noteOverload i) Page.FIO 1 0
  have hoff : ((s.noteOverload i).alarm Page.FIO 1 0).field.ovlOff.getLsbD i = true := by
    rw [ha.field, hw.signals.field, setOvlOff_ovlOff s h]
  rw [overload_eq]
  generalize (s.noteOverload i).alarm Page.FIO 1 0 = t at ha hoff ⊢
  have hrd := ha.1.trans (refreshDq_sameRegs t)
  refine ⟨?_, ?_, ?_, ?_, ?_, ?_, ?_⟩
  · rw [refreshDq_on t h, dqOn_overloaded hoff]
  · rw [refreshDq_field, hoff]
  · rw [bit_of_rd (hrd _ (by decide)), h0]
  · rw [bit_of_rd (hrd _ (by decide)), h1]
  · rw [rdN_of_rd (hrd _ (by decide)), h2]
  · have hs : s.SameRegs (s.noteOverload i) [Reg.FIO_DQ_OVL, Reg.FIO_OVL_CNT] := hw.1
    exact ((hs.trans ha.1).trans (refreshDq_sameRegs t)).mono (by decide)
  · have hs : s.SameMemory (s.noteOverload i) := hw.signals.memory
    exact (hs.trans ha.memory).trans (refreshDq_memory t)

/-! ### The checked word, rules R19, R24 and R319 -/

theorem checkedWord_eq {s : State} (ht : s.ticking = true) (hd : s.sys.dev ≠ .selftest) (hv : s.field.vcc = true)
    (hl : s.field.wordLost = false) (he : s.qtz.ended.testBit 5 = true) :
    s.checkedWord = { s with field :=
      { s.field with next := some (BitVec.ofNat 16 (if s.mute then 0 else s.cell32 (s.chkSet s.parity + 0x1280))) } } := by
  simp [State.checkedWord, ht, hd, hv, hl, he]

theorem checkedWord_selftest {s : State} (h : s.sys.dev = .selftest) : s.checkedWord = s := by simp [State.checkedWord, h]

/-- The field die notes that commands are lost, before the outputs follow. -/
def State.noteLoss (s : State) : State :=
  ((({ s with field := { s.field with lost := true, lossSince := true, next := none } } : State).setBit Reg.FIO_LP_STAT 4 true).inc
    Reg.FIO_CMD_LOSS_CNT).event Page.FIO 6 0

theorem cmdLoss_eq {s : State} (h : s.field.vcc = true) : s.cmdLoss = s.noteLoss.refreshDq := if_pos h

theorem noteLoss_signals (s : State) : ({ s with field := { s.field with lost := true, lossSince := true, next := none } } : State).Signals
    s.noteLoss [Reg.FIO_LP_STAT, Reg.FIO_CMD_LOSS_CNT, Reg.PG_IRQ_RAW Page.FIO] :=
  ((setBit_writes _ _ _ _).trans (inc_writes _ _)).signals.trans (event_signals _ _ _ _)

theorem noteLoss_page (s : State) :
    s.noteLoss.bit Reg.FIO_LP_STAT 4 = true ∧ s.noteLoss.rdN Reg.FIO_CMD_LOSS_CNT = min (s.rdN Reg.FIO_CMD_LOSS_CNT + 1) 0xFFFFFFFF := by
  unfold State.noteLoss
  refine ⟨?_, ?_⟩
  · rw [bit_of_rd (rd_event (by decide) _ _ _), bit_of_rd (rd_inc_ne (by decide) _), bit_setBit_self (by decide)]
  · rw [rdN_of_rd (rd_event (by decide) _ _ _), rdN_inc, rdN_of_rd (rd_setBit_ne (by decide) _ _ _)]
    rfl

/-- 1.5 ticks without a checked word switch every output off. -/
theorem cmdLoss_clause {s : State} (hv : s.field.vcc = true) :
    s.cmdLoss.field.lost = true ∧ s.cmdLoss.field.on = 0 ∧ s.cmdLoss.bit Reg.FIO_LP_STAT 4 = true ∧
      s.cmdLoss.rdN Reg.FIO_CMD_LOSS_CNT = min (s.rdN Reg.FIO_CMD_LOSS_CNT + 1) 0xFFFFFFFF ∧
      s.SameRegs s.cmdLoss [Reg.FIO_LP_STAT, Reg.FIO_CMD_LOSS_CNT, Reg.FIO_DQ_RB, Reg.PG_IRQ_RAW Page.FIO] ∧
      s.SameMemory s.cmdLoss := by
  rw [cmdLoss_eq hv]
  have hs := noteLoss_signals s
  have hlost : s.noteLoss.field.lost = true := by rw [hs.field]
  have hregs : s.SameRegs s.noteLoss [Reg.FIO_LP_STAT, Reg.FIO_CMD_LOSS_CNT, Reg.PG_IRQ_RAW Page.FIO] := hs.1
  have hmem : s.SameMemory s.noteLoss := hs.memory
  obtain ⟨h4, hn⟩ := noteLoss_page s
  generalize s.noteLoss = t at hlost hregs hmem h4 hn ⊢
  have hr := refreshDq_sameRegs t
  obtain ⟨x, n, heq, hon, -⟩ := refreshDq_eq t
  refine ⟨?_, ?_, ?_, ?_, (hregs.trans hr).mono (by decide), hmem.trans (refreshDq_memory t)⟩
  · rw [refreshDq_field, hlost]
  · rw [heq, State.setFld_field, hon, maskOf_false (dqOn_lost hlost)]
    rfl
  · rw [bit_of_rd (hr _ (by decide)), h4]
  · rw [rdN_of_rd (hr _ (by decide)), hn]

/-! ### Retries, rule R321 -/

/-- A retry that holds ends the overload of an output: LIMITING clears. -/
def State.endLimiting (s : State) (i : Nat) : State := (s.setOvlOff i false).setBit Reg.FIO_DQ_OVL (16 + i) false

theorem endLimiting_frame (s : State) {i : Nat} (h : i < 16) :
    (s.endLimiting i).field.ovlOff.getLsbD i = false ∧ (s.endLimiting i).bit Reg.FIO_DQ_OVL (16 + i) = false ∧
      s.SameRegs (s.endLimiting i) [Reg.FIO_DQ_OVL] ∧ s.SameMemory (s.endLimiting i) := by
  have hw := setBit_writes (s.setOvlOff i false) Reg.FIO_DQ_OVL (16 + i) false
  unfold State.endLimiting
  refine ⟨?_, bit_setBit_self (by omega) _ _ _, hw.1, hw.signals.memory⟩
  rw [State.setBit_field, setOvlOff_ovlOff s h]

theorem overloadRetry_eq {s : State} {i : Nat} (hv : s.field.vcc = true) (ho : s.field.ovlOff.getLsbD i = true)
    (hc : s.dqCommanded i = true) (hl : s.dqCfg i 4 = false) (holds : Bool) :
    s.overloadRetry i holds = if holds then (s.endLimiting i).refreshDq else (s.blankAnew i).overload i :=
  if_pos (by simp only [hv, ho, hc, hl]; rfl)

/-- The output of a retry that holds is on where nothing else keeps it off. -/
theorem retryHolds_clause {s : State} {i : Nat} (h : i < 16) (hv : s.field.vcc = true) (ho : s.field.ovlOff.getLsbD i = true)
    (hc : s.dqCommanded i = true) (hl : s.dqCfg i 4 = false) :
    (s.overloadRetry i true).field.ovlOff.getLsbD i = false ∧ (s.overloadRetry i true).bit Reg.FIO_DQ_OVL (16 + i) = false ∧
      (s.overloadRetry i true).field.on.getLsbD i = (s.overloadRetry i true).dqOn i ∧
      s.SameRegs (s.overloadRetry i true) [Reg.FIO_DQ_OVL, Reg.FIO_DQ_RB] ∧ s.SameMemory (s.overloadRetry i true) := by
  obtain ⟨hoff, hlim, hregs, hmem⟩ := endLimiting_frame s h
  rw [overloadRetry_eq hv ho hc hl, if_pos rfl]
  generalize s.endLimiting i = u at hoff hlim hregs hmem ⊢
  have hr := refreshDq_sameRegs u
  refine ⟨?_, ?_, ?_, hregs.trans hr, hmem.trans (refreshDq_memory u)⟩
  · rw [refreshDq_field, hoff]
  · rw [bit_of_rd (hr _ (by decide)), hlim]
  · rw [refreshDq_on u h, refreshDq_dqOn u h]

/-! ### Open loads, rule R320 -/

theorem openLoad_eq {s : State} {i : Nat} {off : Bool} (h : s.bit Reg.FIO_DQ_OPEN (if off then 16 + i else i) = false) :
    s.openLoad i off =
      ((s.setBit Reg.FIO_DQ_OPEN (if off then 16 + i else i) true).inc Reg.FIO_OPEN_CNT).event Page.FIO 2 0 :=
  if_neg (by simp [h])

theorem openLoad_clause {s : State} {i : Nat} {off : Bool} (hi : i < 16) (hc : s.clocked = true)
    (hb : s.bit Reg.FIO_DQ_OPEN (if off then 16 + i else i) = false) :
    (s.openLoad i off).bit Reg.FIO_DQ_OPEN (if off then 16 + i else i) = true ∧
      (s.openLoad i off).rdN Reg.FIO_OPEN_CNT = min (s.rdN Reg.FIO_OPEN_CNT + 1) 0xFFFFFFFF ∧
      s.Raises (s.openLoad i off) [Reg.FIO_DQ_OPEN, Reg.FIO_OPEN_CNT, Reg.PG_IRQ_RAW Page.FIO] [⟨Page.FIO, 2, false, 0, s.now⟩] := by
  have hlt : (if off then 16 + i else i) < 32 := by split <;> omega
  rw [openLoad_eq hb]
  refine ⟨?_, ?_, ((setBit_writes _ _ _ _).trans (inc_writes _ _)).event hc (by decide) (by decide) _ _ _⟩
  · rw [bit_of_rd (rd_event (by decide) _ _ _), bit_of_rd (rd_inc_ne (by decide) _), bit_setBit_self hlt]
  · rw [rdN_of_rd (rd_event (by decide) _ _ _), rdN_inc, rdN_of_rd (rd_setBit_ne (by decide) _ _ _)]

/-- Settles O52: each clause is what the operation does once the guards of its premises are decided. -/
theorem fieldOutputs : Obligations.FieldOutputs := by
  refine ⟨?_, ?_, ?_, ?_, ?_, ?_⟩
  · intro s ht hd hv hl he
    exact ⟨_, congrArg Host.Outcome.next (checkedWord_eq ht hd hv hl he), fun hm => by simp [hm], fun hm => by simp [hm], rfl⟩
  · intro s hd
    exact ⟨_, congrArg Host.Outcome.next (checkedWord_selftest hd), rfl⟩
  · intro s hv
    exact ⟨_, rfl, cmdLoss_clause hv⟩
  · intro s i hv hon
    have heq : (if s.field.vcc && s.field.on.getLsbD i.val then s.overload i.val else s) = s.overload i.val := if_pos (by simp only [hv, hon]; rfl)
    exact ⟨_, congrArg Host.Outcome.next heq, overload_clause s i.isLt⟩
  · intro s i hv ho hc hl
    refine ⟨⟨_, rfl, retryHolds_clause i.isLt hv ho hc hl⟩, ⟨_, congrArg Host.Outcome.next (overloadRetry_eq hv ho hc hl false), ?_⟩⟩
    obtain ⟨hoff, -, -, hlim, hn, -, hmem⟩ := overload_clause (s.blankAnew i.val) i.isLt
    exact ⟨hoff, hlim, hn, hmem⟩
  · intro s i off hv hc ha hb
    have heq : (if s.field.vcc && s.openApplies i.val off then s.openLoad i.val off else s) = s.openLoad i.val off :=
      if_pos (by simp only [hv, ha]; rfl)
    exact ⟨_, congrArg Host.Outcome.next heq, openLoad_clause i.isLt hc hb⟩

end Sys2Proof.Machine
end

section
/-! SUPPORT. Quartz's commands: increments of device time, steps, offsets of the grid, lost boundaries and a stale servo (O2). -/

namespace Sys2Proof.Machine

/-! ### Writes to a configuration region -/

theorem cfgAccepted_writes (s : State) (p : Nat) : s.Writes (s.cfgAccepted p) [Reg.PG_CFG_SEQ p, Reg.PG_STAT p] :=
  (wrN_writes _ _ _).trans (setBit_writes _ _ _ _)

/-! ### QTZ_TIME_INC, rules R34 and R35 -/

/-- No low word of QTZ_TIME_INC is held. -/
def State.dropIncLow (s : State) : State := { s with qtz := { s.qtz with incLow := none } }

/-- An accepted increment, before SERVO_STALE clears: the servo's timeout starts anew. -/
def State.takeInc (s : State) (v : Nat) : State :=
  { s.wr64 Reg.QTZ_TIME_INC v with qtz := { s.qtz with sinceInc := 0 } }

theorem timeInc_accepted {s : State} {v : Nat} (h : incOk v = true) : s.timeInc v = (s.takeInc v).setBit Reg.QTZ_STAT 4 false := if_pos h

theorem takeInc_sameRegs (s : State) (v : Nat) : s.SameRegs (s.takeInc v) [Reg.QTZ_TIME_INC, Reg.QTZ_TIME_INC + 4] :=
  (wr64_writes s Reg.QTZ_TIME_INC v).1

theorem rd64_takeInc (s : State) (v : Nat) : (s.takeInc v).rd64 Reg.QTZ_TIME_INC = v % 2 ^ 64 := rd64_wr64 s Reg.QTZ_TIME_INC v

/-- The page of a refused increment, before its event. -/
def State.refuseInc (s : State) : State := (s.setBit Reg.QTZ_STAT 3 true).inc Reg.QTZ_INC_REF_CNT

theorem timeInc_refused {s : State} {v : Nat} (h : incOk v = false) : s.timeInc v = s.refuseInc.event Page.QTZ 3 0 := if_neg (by simp [h])

theorem refuseInc_writes (s : State) : s.Writes s.refuseInc [Reg.QTZ_STAT, Reg.QTZ_INC_REF_CNT] :=
  (setBit_writes _ _ _ _).trans (inc_writes _ _)

theorem refuseInc_page (s : State) :
    s.refuseInc.bit Reg.QTZ_STAT 3 = true ∧ s.refuseInc.rdN Reg.QTZ_INC_REF_CNT = min (s.rdN Reg.QTZ_INC_REF_CNT + 1) 0xFFFFFFFF := by
  unfold State.refuseInc
  refine ⟨?_, ?_⟩
  · rw [bit_of_rd (rd_inc_ne (by decide) _), bit_setBit_self (by decide)]
  · rw [rdN_inc, rdN_of_rd (rd_setBit_ne (by decide) _ _ _)]

/-- An increment in range is the one in force, and SERVO_STALE is clear. -/
theorem timeInc_accepted_clause {s : State} {v : BitVec 64} (h : incOk v.toNat = true) :
    (s.timeIncPart .both v).rd64 Reg.QTZ_TIME_INC = v.toNat ∧ (s.timeIncPart .both v).bit Reg.QTZ_STAT 4 = false ∧
      s.SameRegs (s.timeIncPart .both v) [Reg.QTZ_TIME_INC, Reg.QTZ_TIME_INC + 4, Reg.QTZ_STAT] ∧
      s.timeIncPart .both v =
        { s with regs := (s.timeIncPart .both v).regs, qtz := { s.qtz with sinceInc := 0, incLow := none } } := by
  have heq : s.timeIncPart .both v = (s.dropIncLow.takeInc v.toNat).setBit Reg.QTZ_STAT 4 false := timeInc_accepted h
  have hinc : s.SameRegs (s.dropIncLow.takeInc v.toNat) [Reg.QTZ_TIME_INC, Reg.QTZ_TIME_INC + 4] := takeInc_sameRegs _ _
  have hstat := setBit_writes (s.dropIncLow.takeInc v.toNat) Reg.QTZ_STAT 4 false
  rw [heq]
  refine ⟨?_, bit_setBit_self (by decide) _ _ _, hinc.trans hstat.1, rfl⟩
  rw [rd64_of_same hstat.1 (by decide) (by decide), rd64_takeInc, Nat.mod_eq_of_lt v.isLt]

/-- An increment out of range leaves the one in force, and INC_REFUSED shows it. -/
theorem timeInc_refused_clause {s : State} {v : BitVec 64} (hc : s.clocked = true) (h : incOk v.toNat = false) :
    (s.timeIncPart .both v).bit Reg.QTZ_STAT 3 = true ∧
      (s.timeIncPart .both v).rdN Reg.QTZ_INC_REF_CNT = min (s.rdN Reg.QTZ_INC_REF_CNT + 1) 0xFFFFFFFF ∧
      s.dropIncLow.Raises (s.timeIncPart .both v) [Reg.QTZ_STAT, Reg.QTZ_INC_REF_CNT, Reg.PG_IRQ_RAW Page.QTZ]
        [⟨Page.QTZ, 3, false, 0, s.now⟩] := by
  have heq : s.timeIncPart .both v = s.dropIncLow.refuseInc.event Page.QTZ 3 0 := timeInc_refused h
  have hnow : s.dropIncLow.now = s.now := rfl
  have hclk : s.dropIncLow.clocked = true := hc
  obtain ⟨hbit, hcnt⟩ := refuseInc_page s.dropIncLow
  rw [heq, ← hnow]
  refine ⟨?_, ?_, (refuseInc_writes _).event hclk (by decide) (by decide) _ _ _⟩
  · rw [bit_of_rd (rd_event (by decide) _ _ _), hbit]
  · rw [rdN_of_rd (rd_event (by decide) _ _ _), hcnt]
    rfl

/-! ### STEP_REQ, rule R37 -/

theorem stepReq_accepted {s : State} (h : s.configurable = true) :
    s.stepReq = (s.setBit Reg.QTZ_STAT 0 true).setBit Reg.QTZ_TIME_CTRL 0 true := if_pos h

theorem stepReq_refused {s : State} (h : s.configurable = false) : s.stepReq = s.setBit Reg.QTZ_STAT 2 true := if_neg (by simp [h])

/-! ### QTZ_TICK_OFS, rule R41 -/

/-- An offset waits for the boundary; the one in force stays. -/
def State.holdOfs (s : State) (ofs : Nat) : State :=
  { s.wrN Reg.QTZ_TICK_OFS ofs with qtz := { s.qtz with ofsPend := true } }

/-- What the page then counts of its configuration leaves the offset. -/
theorem holdOfs_accepted (s : State) {ofs : Nat} (h : ofs < 2 ^ 32) :
    ((s.holdOfs ofs).cfgAccepted Page.QTZ).rdN Reg.QTZ_TICK_OFS = ofs ∧ ((s.holdOfs ofs).cfgAccepted Page.QTZ).qtz.ofsPend = true ∧
      ((s.holdOfs ofs).cfgAccepted Page.QTZ).qtz.ofs = s.qtz.ofs := by
  have hw := cfgAccepted_writes (s.holdOfs ofs) Page.QTZ
  refine ⟨?_, by rw [hw.signals.qtz]; rfl, by rw [hw.signals.qtz]; rfl⟩
  rw [rdN_of_rd (hw.1 _ (by decide))]
  exact (rdN_wrN_self s _ ofs).trans (Nat.mod_eq_of_lt h)

/-! ### TICK_LOSS, rule R43 -/

/-- QTZ_STAT.TICK_LOSS with its event, before the loss is a stop cause. -/
def State.noteTickLoss (s : State) : State := (s.setBit Reg.QTZ_STAT 5 true).event Page.QTZ 5 0

theorem tickLoss_eq {s : State} (hg : s.gridRuns = true) (hr : s.bit Reg.QTZ_STAT 7 = false) (hn : s.qtz.noSupervise = false) :
    s.tickLoss = s.noteTickLoss.stopCause .tickLoss := if_neg (by simp [hg, hr, hn])

theorem noteTickLoss_signals (s : State) : s.Signals s.noteTickLoss [Reg.QTZ_STAT, Reg.PG_IRQ_RAW Page.QTZ] :=
  (setBit_writes _ _ _ _).signals.trans (event_signals _ _ _ _)

theorem noteTickLoss_bit (s : State) : s.noteTickLoss.bit Reg.QTZ_STAT 5 = true := by
  unfold State.noteTickLoss
  rw [bit_of_rd (rd_event (by decide) _ _ _), bit_setBit_self (by decide)]

theorem running_of_sys {s t : State} (h : t.sys = s.sys) : t.running = s.running := by unfold State.running; rw [h]

/-- A lost boundary stops the device. -/
theorem tickLoss_clause {s : State} (hg : s.gridRuns = true) (hr : s.bit Reg.QTZ_STAT 7 = false) (hn : s.qtz.noSupervise = false) :
    s.tickLoss.bit Reg.QTZ_STAT 5 = true ∧ s.tickLoss.bit Reg.SYS_STOP_CAUSE (16 + 6) = true ∧
      (s.running = true → s.tickLoss.bit Reg.SYS_STOP_CAUSE 6 = true ∧ DevState.safestop ∈ s.tickLoss.sys.triggers) ∧
      s.SameRegs s.tickLoss [Reg.QTZ_STAT, Reg.PG_IRQ_RAW Page.QTZ, Reg.SYS_STOP_CAUSE] ∧ s.SameMemory s.tickLoss := by
  rw [tickLoss_eq hg hr hn]
  have hs := noteTickLoss_signals s
  have hc := stopCause_triggers s.noteTickLoss .tickLoss
  refine ⟨?_, bit_stopCause_present _ .tickLoss, fun h => stopCause_running ?_ .tickLoss, hs.1.trans hc.1, ?_⟩
  · rw [bit_of_rd (rd_stopCause (by decide) _ _), noteTickLoss_bit]
  · rw [running_of_sys hs.sys, h]
  · rw [hc.2]
    exact hs.memory

/-! ### SERVO_STALE, rule R35 -/

theorem timed_of_clocked {s : State} (h : s.clocked = true) : s.timed = true := by
  unfold State.clocked at h
  unfold State.timed
  cases hd : s.sys.dev with
  | off | reset => rw [hd] at h; cases h
  | _ => rfl

theorem servoStale_eq {s : State} (hc : s.clocked = true) (h0 : s.fld Reg.QTZ_SYNC_TMO 23 0 ≠ 0)
    (h : s.fld Reg.QTZ_SYNC_TMO 23 0 ≤ s.qtz.sinceInc) : s.servoStale = (s.setBit Reg.QTZ_STAT 4 true).event Page.QTZ 4 0 :=
  if_pos (by simp [timed_of_clocked hc, h0, h])

/-- Settles O2: each command reaches Quartz, and the guards of the premises decide what it then does. -/
theorem quartzCommands : Obligations.QuartzCommands := by
  refine ⟨?_, ?_, ?_, ?_, ?_, ?_, ?_⟩
  · intro s ag v hw hv
    exact completes_write hw rfl (timeInc_accepted_clause hv)
  · intro s ag v hw hv
    exact completes_write hw rfl (timeInc_refused_clause (writable_clocked hw) hv)
  · intro s ag hw hc
    refine completes_write hw rfl ?_
    rw [stepReq_accepted hc]
    refine ⟨?_, (setBit_writes _ _ _ _).trans (setBit_writes _ _ _ _)⟩
    rw [bit_of_rd (rd_setBit_ne (by decide) _ _ _), bit_setBit_self (by decide)]
  · intro s ag hw hc
    refine completes_write hw rfl ?_
    rw [stepReq_refused hc]
    exact ⟨bit_setBit_self (by decide) _ _ _, setBit_writes _ _ _ _⟩
  · intro s ag v hw hc hv
    exact completes_cfg hw (by simp [hc, hv]) rfl (holdOfs_accepted s (Nat.lt_trans (Nat.mod_lt _ (by decide)) (by decide)))
  · intro s hg hr hn
    exact ⟨_, rfl, tickLoss_clause hg hr hn⟩
  · intro s hc h0 h
    refine ⟨_, congrArg Host.Outcome.next (servoStale_eq hc h0 h), ?_, (setBit_writes _ _ _ _).event hc (by decide) (by decide) _ _ _⟩
    rw [bit_of_rd (rd_event (by decide) _ _ _), bit_setBit_self (by decide)]

end Sys2Proof.Machine
end

section
/-! SUPPORT. The plant ports: frames received and sent, launch times, the link and the tails (O53). -/

namespace Sys2Proof.Machine

/-! ### Registers and the values that wait for the boundary -/

/-- Of the registers only those of `l` differ, and of the values in force only theirs: nothing new waits for the boundary. -/
def State.Alters (s t : State) (l : List Nat) : Prop := s.SameRegs t l ∧ t.late = s.late

theorem State.Alters.refl (s : State) (l : List Nat) : s.Alters s l := ⟨fun _ _ => rfl, rfl⟩

theorem State.Alters.trans {s t u : State} {l m : List Nat} (h : s.Alters t l) (k : t.Alters u m) : s.Alters u (l ++ m) :=
  ⟨h.1.trans k.1, k.2.trans h.2⟩

theorem State.Alters.mono {s t : State} {l m : List Nat} (h : s.Alters t l) (k : ∀ a ∈ l, a ∈ m) : s.Alters t m := ⟨h.1.mono k, h.2⟩

theorem State.Signals.alters {s t : State} {l : List Nat} (h : s.Signals t l) : s.Alters t l := ⟨h.1, h.late⟩
theorem State.Writes.alters {s t : State} {l : List Nat} (h : s.Writes t l) : s.Alters t l := h.signals.alters
theorem State.Triggers.alters {s t : State} {l : List Nat} (h : s.Triggers t l) : s.Alters t l := ⟨h.1, by rw [h.2]⟩

/-- A second alteration of the same registers. -/
theorem State.Alters.again {s t u : State} {l : List Nat} (h : s.Alters t l) (k : t.Alters u l) : s.Alters u l := (h.trans k).mono (by simp)

theorem State.Alters.eff {s t : State} {l : List Nat} (h : s.Alters t l) {a : Nat} (ha : a ∉ l) : t.eff a = s.eff a := eff_of_rd h.2 (h.1 a ha)

/-- The value in force of another register than the one written. -/
theorem State.Writes.eff_ne {s t : State} {a b : Nat} (h : s.Writes t [a]) (hb : b ≠ a) : t.eff b = s.eff b :=
  h.alters.eff (by simpa using hb)

theorem forEach_alters {α : Type} {f : α → State → State} {l : List Nat} (hf : ∀ x (t : State), t.Alters (f x t) l) (xs : List α) :
    ∀ s : State, s.Alters (forEach f xs s) l := by
  induction xs with
  | nil => intro s; exact .refl s l
  | cons x xs ih => intro s; exact (hf x s).again (ih (f x s))

/-! ### Stores to cell memory leave the ports' pages -/

/-- The registers in which a store to cell memory may show: a sealed copy, and words that cannot be corrected (rules R48, R370, R371 and
R374). -/
abbrev storeRegs : List Nat :=
  [Reg.QTZ_LATE_WR_CNT, Reg.MEM_RMW_UE_CNT, Reg.MEM_STAT, Reg.MEM_DDR_UE_CNT, Reg.MEM_UE_CNT, Reg.MEM_UE_LAST, Reg.MEM_UE_LAST + 4,
    Reg.PG_IRQ_RAW Page.MEM, Reg.SYS_STAT, Reg.PG_IRQ_RAW Page.SYS, Reg.SYS_STOP_CAUSE]

/-- The pages of the ports lie above them. -/
theorem storeRegs_below : ∀ a ∈ storeRegs, a < 0x40010000 := by decide

theorem notMem_storeRegs {a : Nat} (h : 0x40010000 ≤ a) : a ∉ storeRegs := fun hm => Nat.not_lt.mpr h (storeRegs_below a hm)

theorem notMem_storeRegs_append {a : Nat} {l : List Nat} (h : 0x40010000 ≤ a) (hl : a ∉ l) : a ∉ storeRegs ++ l := by
  rw [List.mem_append, not_or]
  exact ⟨notMem_storeRegs h, hl⟩

theorem controlPathError_alters (s : State) (scrub : Bool) : s.Alters (s.controlPathError scrub) storeRegs := by
  unfold State.controlPathError
  split
  · exact (alarm_signals _ _ _ _).alters.mono (by decide)
  · have hset := (setBit_writes s Reg.MEM_STAT 2 true).alters
    dsimp only
    split
    · exact ((hset.trans (event_signals _ _ _ _).alters).trans (stopCause_triggers _ _).alters).mono (by decide)
    · exact (hset.trans (alarm_signals _ _ _ _).alters).mono (by decide)

theorem ueFound_alters (s : State) (mem a : Nat) (scrub : Bool) : s.Alters (s.ueFound mem a scrub) storeRegs := by
  unfold State.ueFound
  extract_lets w ue ecc s0 s1 s2
  have h1 : s0.Alters s1 storeRegs := by
    unfold s1
    split
    · exact (((inc_writes _ _).trans (setBit_writes _ _ _ _)).alters.trans (event_signals _ _ _ _).alters).mono (by decide)
    · exact (inc_writes _ _).alters.mono (by decide)
  have h2 : s1.Alters s2 storeRegs :=
    ((((wr64_writes _ _ _).trans (setBit_writes _ _ _ _)).alters.trans (event_signals _ _ _ _).alters).trans
      (detLapse_signals _).alters).mono (by decide)
  have h0 : s.Alters s0 storeRegs := ⟨fun _ _ => rfl, rfl⟩
  split
  · exact ((h0.again h1).again h2).again (controlPathError_alters _ _)
  · exact (h0.again h1).again h2

theorem setCell_alters (s : State) (a n v : Nat) : s.Alters (s.setCell a n v) storeRegs := by
  unfold State.setCell
  split
  · exact .refl _ _
  · split
    · exact (((inc_writes _ _).trans (setBit_writes _ _ _ _)).alters.mono (by decide)).again (ueFound_alters _ _ _ _)
    · unfold State.ueReplaced
      split <;> exact ⟨fun _ _ => rfl, rfl⟩

theorem storeCell_alters (s : State) (a n v : Nat) : s.Alters (s.storeCell a n v) storeRegs := by
  unfold State.storeCell
  split
  · exact (inc_writes _ _).alters.mono (by decide)
  · exact setCell_alters _ _ _ _

theorem storeBytes_alters (s : State) (a : Nat) (l : List (BitVec 8)) : s.Alters (s.storeBytes a l) storeRegs :=
  forEach_alters (fun _ _ => storeCell_alters _ _ _ _) _ s

/-- An event of a port after writes of registers above those of device time. -/
theorem State.Writes.portEvent {s t : State} {l : List Nat} (h : s.Writes t l) (hc : s.clocked = true) (hl : ∀ a ∈ l, 0x40010000 ≤ a)
    (p b : Nat) : s.Raises (t.event (Page.ETH p) b 0) (l ++ [Reg.PG_IRQ_RAW (Page.ETH p)]) [⟨Page.ETH p, b, false, 0, s.now⟩] :=
  h.event hc (fun hm => absurd (hl _ hm) (by decide)) (fun hm => absurd (hl _ hm) (by decide)) _ _ _

/-! ### A field within the one just written -/

theorem fld_setFld_within {hi lo hi' lo' : Nat} (h : lo' ≤ hi') (hb : hi < 32) (hlo : lo ≤ lo') (hhi : hi' ≤ hi) (s : State) (a v : Nat) :
    (s.setFld a hi lo v).fld a hi' lo' = bitsOf v (hi' - lo) (lo' - lo) := by
  apply Nat.eq_of_testBit_eq
  intro i
  unfold State.setFld State.fld
  rw [rdN_wrN_self, testBit_bitsOf, testBit_bitsOf, Nat.testBit_mod_two_pow, testBit_withBits (by omega)]
  by_cases hi1 : i < hi' + 1 - lo'
  · rw [if_pos (by omega), show i + lo' - lo = i + (lo' - lo) by omega]
    simp only [hi1, show i < hi' - lo + 1 - (lo' - lo) by omega, show i + lo' < 32 by omega, decide_true, Bool.true_and]
  · simp only [hi1, show ¬ i < hi' - lo + 1 - (lo' - lo) by omega, decide_false, Bool.false_and]

/-! ### Receive, rules R329, R330 and R332 -/

theorem ethOn_clocked {s : State} {p : Nat} (h : s.ethOn p = true) : s.clocked = true := by
  simp only [State.ethOn, Bool.and_eq_true] at h
  obtain ⟨⟨hclk, -⟩, -⟩ := h
  exact hclk

theorem ethRx_fcs {s : State} {p : Nat} {x : EthFrame} (h : s.ethOn p = true) (hf : x.fcsOk = false) :
    s.ethRx p x = s.inc (Reg.ETH_RX_FCS_CNT p) := by
  simp [State.ethRx, h, hf]

theorem ethRx_pause {s : State} {p : Nat} {x : EthFrame} (h : s.ethOn p = true) (hf : x.fcsOk = true)
    (hl : x.bytes.length + 4 ≤ s.effFld (Reg.ETH_CTRL p) 21 8) (hp : isPause x.bytes = true) :
    s.ethRx p x = s.inc (Reg.ETH_PAUSE_CNT p) := by
  simp [State.ethRx, h, hf, Nat.not_lt.mpr hl, hp]

/-- A frame that no filter takes goes to its ring as it is. -/
theorem ethRx_unfiltered {s : State} {p : Nat} {x : EthFrame} (h : s.ethOn p = true) (hf : x.fcsOk = true)
    (hl : x.bytes.length + 4 ≤ s.effFld (Reg.ETH_CTRL p) 21 8) (hp : isPause x.bytes = false)
    (hm : ∀ i, i < 4 → s.mstMatch p i x.bytes = none) :
    s.ethRx p x = (s.inc (Reg.ETH_RX_CNT p)).rxPlace p (s.rxRing p x.bytes) x.bytes (s.ethIngress p x.raw) false := by
  have hits : (List.range 4).filterMap (fun i => (s.mstMatch p i x.bytes).map (fun b => (i, b))) = [] := by
    rw [List.filterMap_eq_nil_iff]
    intro i hi
    rw [hm i (List.mem_range.mp hi)]
    rfl
  simp only [State.ethRx, h, hf, hp, Nat.not_lt.mpr hl, hits]
  rfl

theorem foldl_bytes_lt (l : List (BitVec 8)) : ∀ n : Nat, l.foldl (fun acc b => 256 * acc + b.toNat) n < 256 ^ l.length * (n + 1) := by
  induction l with
  | nil => intro n; simp
  | cons b l ih =>
    intro n
    refine Nat.lt_of_lt_of_le (ih (256 * n + b.toNat)) ?_
    have hb := b.isLt
    rw [List.length_cons, Nat.pow_succ, Nat.mul_assoc]
    exact Nat.mul_le_mul_left _ (by omega)

theorem beField_two_lt (f : List (BitVec 8)) (o : Nat) : beField f o 2 < 65536 := by
  have h := foldl_bytes_lt ((f.drop o).take 2) 0
  have hlen : ((f.drop o).take 2).length ≤ 2 := List.length_take_le _ _
  have hpow : 256 ^ ((f.drop o).take 2).length ≤ 256 ^ 2 := Nat.pow_le_pow_right (by decide) hlen
  unfold beField
  omega

/-- A port has eight receive rings. -/
theorem rxRing_lt (s : State) (p : Nat) (f : List (BitVec 8)) : s.rxRing p f < 8 := by
  unfold State.rxRing
  split
  · decide
  · split
    · have := beField_two_lt f 14
      omega
    · exact Nat.mod_lt _ (by decide)

/-- The descriptor and the bytes of a frame are stored, then the ring's head moves on. -/
theorem rxPlace_room {s : State} {p q : Nat} (h : (s.fld (Reg.ETH_RXR_HEAD p q) 7 0 + 1) % 256 ≠ s.fld (Reg.ETH_RXR_TAIL p q) 7 0)
    (f : List (BitVec 8)) (t : Int) (copied : Bool) :
    ∃ u, s.Alters u storeRegs ∧
      s.rxPlace p q f t copied = u.setFld (Reg.ETH_RXR_HEAD p q) 7 0 (s.fld (Reg.ETH_RXR_HEAD p q) 7 0 + 1) := by
  refine ⟨_, ?_, if_neg h⟩
  exact (((((storeBytes_alters _ _ _).again (storeCell_alters _ _ _ _)).again (storeCell_alters _ _ _ _)).again
    (storeCell_alters _ _ _ _)).again (storeCell_alters _ _ _ _)).again (storeCell_alters _ _ _ _)

/-- The page of a frame that its full ring drops, before its event. -/
def State.dropRx (s : State) (p q : Nat) : State := (s.inc (Reg.ETH_RX_DROP_CNT p q)).setBit (Reg.ETH_STAT p) 4 true

theorem rxPlace_full {s : State} {p q : Nat} (h : (s.fld (Reg.ETH_RXR_HEAD p q) 7 0 + 1) % 256 = s.fld (Reg.ETH_RXR_TAIL p q) 7 0)
    (f : List (BitVec 8)) (t : Int) (copied : Bool) : s.rxPlace p q f t copied = (s.dropRx p q).event (Page.ETH p) 1 0 := if_pos h

theorem dropRx_writes (s : State) (p q : Nat) : s.Writes (s.dropRx p q) [Reg.ETH_RX_DROP_CNT p q, Reg.ETH_STAT p] :=
  (inc_writes _ _).trans (setBit_writes _ _ _ _)

/-- The count of a frame received leaves the rings. -/
theorem fld_rxRing_inc (s : State) {p q : Nat} (hq : q < 8) :
    (s.inc (Reg.ETH_RX_CNT p)).fld (Reg.ETH_RXR_HEAD p q) 7 0 = s.fld (Reg.ETH_RXR_HEAD p q) 7 0 ∧
      (s.inc (Reg.ETH_RX_CNT p)).fld (Reg.ETH_RXR_TAIL p q) 7 0 = s.fld (Reg.ETH_RXR_TAIL p q) 7 0 :=
  ⟨fld_of_rd (rd_inc_ne (by unfold Reg.ETH_RXR_HEAD Reg.ETH_RX_CNT; omega) s) 7 0,
    fld_of_rd (rd_inc_ne (by unfold Reg.ETH_RXR_TAIL Reg.ETH_RX_CNT; omega) s) 7 0⟩

/-- A counted frame whose ring has room. -/
theorem rxPlace_room_clause {s : State} {p q : Nat} (hq : q < 8)
    (h : (s.fld (Reg.ETH_RXR_HEAD p q) 7 0 + 1) % 256 ≠ s.fld (Reg.ETH_RXR_TAIL p q) 7 0) (f : List (BitVec 8)) (t : Int) (copied : Bool) :
    ((s.inc (Reg.ETH_RX_CNT p)).rxPlace p q f t copied).rdN (Reg.ETH_RX_CNT p) = min (s.rdN (Reg.ETH_RX_CNT p) + 1) 0xFFFFFFFF ∧
      ((s.inc (Reg.ETH_RX_CNT p)).rxPlace p q f t copied).fld (Reg.ETH_RXR_HEAD p q) 7 0 =
        (s.fld (Reg.ETH_RXR_HEAD p q) 7 0 + 1) % 256 := by
  obtain ⟨hhead, htail⟩ := fld_rxRing_inc s (p := p) hq
  rw [← hhead, ← htail] at h
  obtain ⟨u, hu, heq⟩ := rxPlace_room h f t copied
  rw [heq]
  refine ⟨?_, ?_⟩
  · rw [rdN_of_rd (rd_setFld_ne (by unfold Reg.ETH_RXR_HEAD Reg.ETH_RX_CNT; omega) _ _ _ _),
      rdN_of_rd (hu.1 _ (notMem_storeRegs (by unfold Reg.ETH_RX_CNT; omega))), rdN_inc]
  · rw [fld_setFld (by decide) (by decide), hhead]
    rfl

/-- A counted frame whose ring is full. -/
theorem rxPlace_full_clause {s : State} {p q : Nat} (hc : s.clocked = true) (hq : q < 8)
    (h : (s.fld (Reg.ETH_RXR_HEAD p q) 7 0 + 1) % 256 = s.fld (Reg.ETH_RXR_TAIL p q) 7 0) (f : List (BitVec 8)) (t : Int) (copied : Bool) :
    ((s.inc (Reg.ETH_RX_CNT p)).rxPlace p q f t copied).rdN (Reg.ETH_RX_DROP_CNT p q) =
        min (s.rdN (Reg.ETH_RX_DROP_CNT p q) + 1) 0xFFFFFFFF ∧
      ((s.inc (Reg.ETH_RX_CNT p)).rxPlace p q f t copied).bit (Reg.ETH_STAT p) 4 = true ∧
      s.Raises ((s.inc (Reg.ETH_RX_CNT p)).rxPlace p q f t copied)
        [Reg.ETH_RX_CNT p, Reg.ETH_RX_DROP_CNT p q, Reg.ETH_STAT p, Reg.PG_IRQ_RAW (Page.ETH p)]
        [⟨Page.ETH p, 1, false, 0, s.now⟩] := by
  obtain ⟨hhead, htail⟩ := fld_rxRing_inc s (p := p) hq
  rw [← hhead, ← htail] at h
  have hw : s.Writes ((s.inc (Reg.ETH_RX_CNT p)).dropRx p q) [Reg.ETH_RX_CNT p, Reg.ETH_RX_DROP_CNT p q, Reg.ETH_STAT p] :=
    (inc_writes _ _).trans (dropRx_writes _ _ _)
  have habove : ∀ a ∈ [Reg.ETH_RX_CNT p, Reg.ETH_RX_DROP_CNT p q, Reg.ETH_STAT p], 0x40010000 ≤ a := by
    simp only [List.forall_mem_cons]
    unfold Reg.ETH_RX_CNT Reg.ETH_RX_DROP_CNT Reg.ETH_STAT
    exact ⟨by omega, by omega, by omega, nofun⟩
  rw [rxPlace_full h]
  refine ⟨?_, ?_, hw.portEvent hc habove _ _⟩
  · unfold State.dropRx
    rw [rdN_of_rd (rd_event (by unfold Reg.ETH_RX_DROP_CNT Reg.PG_IRQ_RAW Page.ETH; omega) _ _ _),
      rdN_of_rd (rd_setBit_ne (by unfold Reg.ETH_RX_DROP_CNT Reg.ETH_STAT; omega) _ _ _), rdN_inc,
      rdN_of_rd (rd_inc_ne (by unfold Reg.ETH_RX_DROP_CNT Reg.ETH_RX_CNT; omega) _)]
  · rw [bit_of_rd (rd_event (by unfold Reg.ETH_STAT Reg.PG_IRQ_RAW Page.ETH; omega) _ _ _)]
    exact bit_setBit_self (by decide) _ _ _

/-! ### A launch, rules R331 and R52 -/

theorem txBusy_of_txOnWire {s : State} {p q : Nat} (hq : q < 8) (h : s.txOnWire p q = true) : s.txBusy p = true := by
  simp only [State.txOnWire, List.contains_iff_mem] at h
  exact List.any_eq_true.mpr ⟨_, h, by simp only [beq_iff_eq]; omega⟩

theorem launchReached_eq {s : State} {p q : Nat} (hq : q < 8) (h : s.ethOn p = true) (ht : s.txTimed p q = true) (hb : s.txBusy p = false)
    (hr : ∀ r, r < 8 → q < r → s.txTimed p r = true → s.txTime p r ≠ s.txTime p q) (hn : s.now ≤ s.txTime p q) :
    s.launchReached p q = (s.advance (s.txTime p q)).setPlant { s.plant with sending := (8 * p + q) :: s.plant.sending } := by
  have hwire : s.txOnWire p q = false := by
    cases hw : s.txOnWire p q with
    | false => rfl
    | true => exact (txBusy_of_txOnWire hq hw).symm.trans hb
  have hbeaten : (List.range 8).any (fun r => decide (q < r) && s.txTimed p r && s.txTime p r == s.txTime p q) = false := by
    rw [List.any_eq_false]
    intro r hr8 hall
    simp only [Bool.and_eq_true, decide_eq_true_eq, beq_iff_eq] at hall
    obtain ⟨⟨hlt, htimed⟩, heq⟩ := hall
    exact hr r (List.mem_range.mp hr8) hlt htimed heq
  have hplant : (s.advance (s.txTime p q)).plant = s.plant := by rw [(advance_writes s _).2]
  simp only [State.launchReached, h, ht, hwire, hbeaten, hb, Nat.not_lt.mpr hn, hplant]
  rfl

theorem launchReached_clause {s : State} {p q : Nat} (hq : q < 8) (h : s.ethOn p = true) (ht : s.txTimed p q = true)
    (hb : s.txBusy p = false) (hr : ∀ r, r < 8 → q < r → s.txTimed p r = true → s.txTime p r ≠ s.txTime p q)
    (hn : s.now ≤ s.txTime p q) :
    (s.launchReached p q).plant.sending = (8 * p + q) :: s.plant.sending ∧ s.SameRegs (s.launchReached p q) timeRegs ∧
      (s.launchReached p q).now = (s.advance (s.txTime p q)).now ∧ s.SameMemory (s.launchReached p q) := by
  rw [launchReached_eq hq h ht hb hr hn]
  have hadv := advance_writes s (s.txTime p q)
  generalize s.advance (s.txTime p q) = u at hadv ⊢
  exact ⟨rfl, hadv.1, rfl, hadv.signals.memory⟩

/-! ### The link, rule R329 -/

/-- The page of a link that goes down, before its event. -/
def State.noteDown (s : State) (p : Nat) : State :=
  ((s.setBit (Reg.ETH_STAT p) 0 false).setBit (Reg.ETH_STAT p) 3 false).inc (Reg.ETH_LINK_DOWN_CNT p)

theorem ethDown_eq {s : State} {p : Nat} (h : s.ethOn p = true) (hl : s.bit (Reg.ETH_STAT p) 0 = true) :
    s.ethDown p = (s.noteDown p).event (Page.ETH p) 0 0 := if_pos (by simp only [h, hl]; rfl)

theorem noteDown_writes (s : State) (p : Nat) : s.Writes (s.noteDown p) [Reg.ETH_STAT p, Reg.ETH_LINK_DOWN_CNT p] :=
  (((setBit_writes _ _ _ _).trans (setBit_writes _ _ _ _)).trans (inc_writes _ _)).mono (by simp)

theorem noteDown_page (s : State) (p : Nat) :
    (s.noteDown p).bit (Reg.ETH_STAT p) 0 = false ∧
      (s.noteDown p).rdN (Reg.ETH_LINK_DOWN_CNT p) = min (s.rdN (Reg.ETH_LINK_DOWN_CNT p) + 1) 0xFFFFFFFF := by
  have hne : Reg.ETH_LINK_DOWN_CNT p ≠ Reg.ETH_STAT p := by unfold Reg.ETH_LINK_DOWN_CNT Reg.ETH_STAT; omega
  unfold State.noteDown
  refine ⟨?_, ?_⟩
  · rw [bit_of_rd (rd_inc_ne hne.symm _), bit_setBit (by decide), if_neg (by decide), bit_setBit_self (by decide)]
  · rw [rdN_inc, rdN_of_rd (rd_setBit_ne hne _ _ _), rdN_of_rd (rd_setBit_ne hne _ _ _)]

theorem ethDown_clause {s : State} {p : Nat} (h : s.ethOn p = true) (hl : s.bit (Reg.ETH_STAT p) 0 = true) :
    (s.ethDown p).bit (Reg.ETH_STAT p) 0 = false ∧
      (s.ethDown p).rdN (Reg.ETH_LINK_DOWN_CNT p) = min (s.rdN (Reg.ETH_LINK_DOWN_CNT p) + 1) 0xFFFFFFFF ∧
      s.Raises (s.ethDown p) [Reg.ETH_STAT p, Reg.ETH_LINK_DOWN_CNT p, Reg.PG_IRQ_RAW (Page.ETH p)]
        [⟨Page.ETH p, 0, false, 0, s.now⟩] := by
  obtain ⟨hdown, hcnt⟩ := noteDown_page s p
  have hw := noteDown_writes s p
  have habove : ∀ a ∈ [Reg.ETH_STAT p, Reg.ETH_LINK_DOWN_CNT p], 0x40010000 ≤ a := by
    simp only [List.forall_mem_cons]
    unfold Reg.ETH_STAT Reg.ETH_LINK_DOWN_CNT
    exact ⟨by omega, by omega, nofun⟩
  rw [ethDown_eq h hl]
  refine ⟨?_, ?_, hw.portEvent (ethOn_clocked h) habove _ _⟩
  · rw [bit_of_rd (rd_event (by unfold Reg.ETH_STAT Reg.PG_IRQ_RAW; omega) _ _ _), hdown]
  · rw [rdN_of_rd (rd_event (by unfold Reg.ETH_LINK_DOWN_CNT Reg.PG_IRQ_RAW; omega) _ _ _), hcnt]

/-- RATE is a field of two bits. -/
theorem ethRate_lt (s : State) (p : Nat) (rate : Fin 4) : s.ethRate p rate.val < 4 := by
  have hr := rate.isLt
  unfold State.ethRate
  split
  · omega
  · exact Nat.mod_lt _ (by decide)

/-- LINK_UP, RATE and AN_DONE of ETH_STAT as a link comes up. -/
def linkWord (rate : Nat) (an : Bool) : Nat := 1 + 2 * rate + 8 * b2n an

theorem linkWord_fields {rate : Nat} (h : rate < 4) (an : Bool) :
    (linkWord rate an).testBit 0 = true ∧ bitsOf (linkWord rate an) 2 1 = rate ∧ (linkWord rate an).testBit 3 = an := by
  unfold linkWord bitsOf
  refine ⟨?_, ?_, ?_⟩
  · rw [Nat.testBit_zero, decide_eq_true_eq]
    omega
  · omega
  · have hb : b2n an ≤ 1 := by cases an <;> decide
    have han : (1 + 2 * rate + 8 * b2n an) / 2 ^ 3 % 2 = b2n an := by omega
    rw [Nat.testBit_eq_decide_div_mod_eq, han]
    cases an <;> rfl

theorem ethUp_eq {s : State} {p : Nat} (h : s.ethOn p = true) (hl : s.bit (Reg.ETH_STAT p) 0 = false) (rate : Nat) (an : Bool) :
    s.ethUp p rate an =
      (s.setFld (Reg.ETH_STAT p) 3 0 (linkWord (s.ethRate p rate) (an && s.ethNegotiates p))).event (Page.ETH p) 0 0 :=
  if_pos (by simp only [h, hl]; rfl)

theorem setFld_link (s : State) (a : Nat) {rate : Nat} (h : rate < 4) (an : Bool) :
    (s.setFld a 3 0 (linkWord rate an)).bit a 0 = true ∧ (s.setFld a 3 0 (linkWord rate an)).fld a 2 1 = rate ∧
      (s.setFld a 3 0 (linkWord rate an)).bit a 3 = an := by
  obtain ⟨hup, hrate, han⟩ := linkWord_fields h an
  refine ⟨?_, ?_, ?_⟩
  · rw [bit_setFld (by decide) (by decide), if_pos (by decide), hup]
  · rw [fld_setFld_within (by decide) (by decide) (by decide) (by decide), hrate]
  · rw [bit_setFld (by decide) (by decide), if_pos (by decide), han]

theorem ethUp_clause {s : State} {p : Nat} (h : s.ethOn p = true) (hl : s.bit (Reg.ETH_STAT p) 0 = false) (rate : Fin 4) (an : Bool) :
    (s.ethUp p rate.val an).bit (Reg.ETH_STAT p) 0 = true ∧ (s.ethUp p rate.val an).fld (Reg.ETH_STAT p) 2 1 = s.ethRate p rate.val ∧
      (s.ethUp p rate.val an).bit (Reg.ETH_STAT p) 3 = (an && s.ethNegotiates p) ∧
      s.Raises (s.ethUp p rate.val an) [Reg.ETH_STAT p, Reg.PG_IRQ_RAW (Page.ETH p)] [⟨Page.ETH p, 0, false, 0, s.now⟩] := by
  obtain ⟨hup, hrate, han⟩ := setFld_link s (Reg.ETH_STAT p) (ethRate_lt s p rate) (an && s.ethNegotiates p)
  have hstat : Reg.ETH_STAT p ≠ Reg.PG_IRQ_RAW (Page.ETH p) := by unfold Reg.ETH_STAT Reg.PG_IRQ_RAW; omega
  have hw := setFld_writes s (Reg.ETH_STAT p) 3 0 (linkWord (s.ethRate p rate.val) (an && s.ethNegotiates p))
  have habove : ∀ a ∈ [Reg.ETH_STAT p], 0x40010000 ≤ a := by
    rw [List.forall_mem_singleton]
    unfold Reg.ETH_STAT
    omega
  rw [ethUp_eq h hl]
  refine ⟨?_, ?_, ?_, hw.portEvent (ethOn_clocked h) habove _ _⟩
  · rw [bit_of_rd (rd_event hstat _ _ _), hup]
  · rw [fld_of_rd (rd_event hstat _ _ _), hrate]
  · rw [bit_of_rd (rd_event hstat _ _ _), han]

/-! ### The transmit queues, rules R330 and R331 -/

/-- The queue is no launch queue. -/
theorem txTimed_plain {s : State} {p q : Nat} (h : (s.eff (Reg.ETH_TXQ p)).getLsbD q = false) : s.txTimed p q = false := by
  simp only [State.txTimed, h, Bool.and_false, Bool.false_and]

theorem forUpTo_fixed {f : Nat → State → State} {s : State} (h : ∀ i, f i s = s) (n : Nat) : forUpTo f n s = s := by
  induction n with
  | zero => rfl
  | succ n ih => rw [forUpTo, ih, h]

/-- A frame without a launch time is never late. -/
theorem txJudgeAll_plain {s : State} {p q : Nat} (h : (s.eff (Reg.ETH_TXQ p)).getLsbD q = false) : s.txJudgeAll p q = s :=
  forUpTo_fixed (fun _ => by simp only [State.txJudge, txTimed_plain h, Bool.false_and]; rfl) 256

/-- A start changes only what the ports send. -/
theorem txStart_eq (s : State) (p : Nat) : s.txStart p = { s with plant := { s.plant with sending := (s.txStart p).plant.sending } } := by
  unfold State.txStart
  split
  · rfl
  · split
    · split <;> rfl
    · rfl

theorem rd_txStart (s : State) (p a : Nat) : (s.txStart p).rd a = s.rd a := by rw [txStart_eq]; rfl

theorem txStart_busy {s : State} {p : Nat} (h : s.txBusy p = true) : s.txStart p = s := if_pos (by simp [h])

/-- The highest number below `n` of which `f` holds. -/
theorem find_reverse_range {f : Nat → Bool} {n q : Nat} (hq : q < n) (hf : f q = true) (hn : ∀ r, r < n → q < r → f r = false) :
    (List.range n).reverse.find? f = some q := by
  induction n with
  | zero => exact absurd hq (Nat.not_lt_zero q)
  | succ n ih =>
    rw [List.range_succ, List.reverse_append, List.reverse_singleton, List.singleton_append, List.find?_cons]
    rcases Nat.lt_succ_iff_lt_or_eq.mp hq with hlt | rfl
    · rw [hn n (Nat.lt_succ_self n) hlt]
      exact ih hlt fun r hr => hn r (Nat.lt_succ_of_lt hr)
    · rw [hf]

/-- An idle port without launch queues starts the frame of its highest queue that holds one. -/
theorem txStart_idle {s : State} {p q : Nat} (hq : q < 8) (h : s.ethOn p = true) (hb : s.txBusy p = false)
    (hw : s.txWaits p q = true) (hl : ∀ r, r < 8 → (s.eff (Reg.ETH_TXQ p)).getLsbD r = false)
    (hn : ∀ r, r < 8 → q < r → s.txWaits p r = false) :
    s.txStart p = s.setPlant { s.plant with sending := (8 * p + q) :: s.plant.sending } := by
  have hnext : s.txNext p = some q :=
    find_reverse_range hq (by simp only [hw, txTimed_plain (hl q hq)]; rfl) (fun r hr hlt => by simp only [hn r hr hlt, Bool.false_and])
  have hclear : s.txClear p q = true := by
    refine List.all_eq_true.mpr fun r hr => ?_
    rw [txTimed_plain (hl r (List.mem_range.mp hr))]
    rfl
  simp only [State.txStart, h, hb, hnext, hclear]
  rfl

/-! ### A frame sent, rules R331 and R333 -/

theorem putStamp_alters (s : State) (d : Nat) (t : Int) : s.Alters (s.putStamp d t) storeRegs :=
  (storeCell_alters _ _ _ _).again (storeCell_alters _ _ _ _)

theorem writeStamps_alters (s : State) (p : Nat) : s.Alters (s.writeStamps p) storeRegs := by
  refine forEach_alters (fun x t => ?_) s.plant.stamps s
  split
  · exact putStamp_alters _ _ _
  · exact .refl _ _

theorem takeStamp_alters (s : State) (p d : Nat) (t : Int) (held : Bool) : s.Alters (s.takeStamp p d t held) storeRegs := by
  unfold State.takeStamp
  split
  · exact ⟨fun _ _ => rfl, rfl⟩
  · exact (writeStamps_alters s p).again (putStamp_alters _ _ _)

theorem when_alters {s : State} {b : Bool} {f : State → State} {l : List Nat} (h : s.Alters (f s) l) : s.Alters (s.when b f) l := by
  unfold State.when
  split
  · exact h
  · exact .refl _ _

theorem setPlant_alters (s : State) (x : Plant) : s.Alters (s.setPlant x) [] := ⟨fun _ _ => rfl, rfl⟩

/-- The head descriptor of a queue as it returns: DONE with a status. -/
def State.closeDesc (s : State) (p q status : Nat) : State :=
  (s.storeCell (s.txDesc p q (s.txHead p q) + 4) 4 (withBits (s.txW1 p q) 16 16 1)).storeCell (s.txDesc p q (s.txHead p q) + 28) 4 status

theorem closeDesc_alters (s : State) (p q status : Nat) : s.Alters (s.closeDesc p q status) storeRegs :=
  (storeCell_alters _ _ _ _).again (storeCell_alters _ _ _ _)

theorem txReturn_eq (s : State) (p q status : Nat) : ∃ x : Plant,
    s.txReturn p q status = ((s.closeDesc p q status).setFld (Reg.ETH_TXR_HEAD p q) 7 0 (s.txHead p q + 1)).setPlant x := ⟨_, rfl⟩

/-- A descriptor that returns is stored, and the head of its queue moves on. -/
theorem txReturn_frame (s : State) (p q status : Nat) :
    s.Alters (s.txReturn p q status) (storeRegs ++ [Reg.ETH_TXR_HEAD p q]) ∧
      (s.txReturn p q status).txHead p q = (s.txHead p q + 1) % 256 := by
  obtain ⟨x, heq⟩ := txReturn_eq s p q status
  have hc := closeDesc_alters s p q status
  rw [heq]
  generalize s.closeDesc p q status = u at hc ⊢
  have hset := (setFld_writes u (Reg.ETH_TXR_HEAD p q) 7 0 (s.txHead p q + 1)).alters
  exact ⟨hc.trans (hset.trans (setPlant_alters _ x)), fld_setFld (by decide) (by decide) u _ _⟩

/-- The registers that a stamp taken or dropped may change. -/
abbrev stampRegs (p : Nat) : List Nat := storeRegs ++ [Reg.ETH_TS_DROP_CNT p, Reg.PG_IRQ_RAW (Page.ETH p)]

theorem notMem_stampRegs {p a : Nat} (h : 0x40010000 ≤ a ∧ a ≠ Reg.ETH_TS_DROP_CNT p ∧ a ≠ Reg.PG_IRQ_RAW (Page.ETH p)) :
    a ∉ stampRegs p := by
  obtain ⟨hport, hts, hirq⟩ := h
  exact notMem_storeRegs_append hport (by simp only [List.mem_cons, List.not_mem_nil, hts, hirq, or_self, not_false_eq_true])

/-- A stamp that no place is left for is dropped, rule R333. -/
theorem stampDrop_alters (s : State) (p : Nat) :
    s.Alters ((s.inc (Reg.ETH_TS_DROP_CNT p)).event (Page.ETH p) 4 0) [Reg.ETH_TS_DROP_CNT p, Reg.PG_IRQ_RAW (Page.ETH p)] :=
  (inc_writes _ _).alters.trans (event_signals _ _ _ _).alters

/-- The frame on the wire has been sent: its stamp is taken or dropped, its descriptor returns, it is counted, and the port goes on. -/
theorem txComplete_eq {s : State} {p q : Nat} (hq : q < 8) (h : s.ethOn p = true) (hw : s.txOnWire p q = true) (raw : Int) (held : Bool) :
    ∃ (u : State) (status : Nat), s.Alters u (stampRegs p) ∧
      s.txComplete p q raw held = (((u.txReturn p q status).inc (Reg.ETH_TX_CNT p)).txJudgeAll p q).txStart p := by
  unfold State.txComplete
  rw [txStart_busy (txBusy_of_txOnWire hq hw)]
  extract_lets s0 want drop s1 s2
  have htake : s.Alters s1 storeRegs := when_alters (takeStamp_alters s p _ _ held)
  have hdrop : s1.Alters s2 [Reg.ETH_TS_DROP_CNT p, Reg.PG_IRQ_RAW (Page.ETH p)] := when_alters (stampDrop_alters s1 p)
  have hsends : (s0.ethOn p && s0.txOnWire p q) = true := by simp only [s0, h, hw, Bool.and_self]
  exact ⟨s2, _, htake.trans hdrop, if_pos hsends⟩

/-- The registers that the end of a frame may change before its count. -/
abbrev sentRegs (p q : Nat) : List Nat := stampRegs p ++ (storeRegs ++ [Reg.ETH_TXR_HEAD p q])

theorem notMem_sentRegs {p q a : Nat}
    (h : 0x40010000 ≤ a ∧ a ≠ Reg.ETH_TS_DROP_CNT p ∧ a ≠ Reg.PG_IRQ_RAW (Page.ETH p) ∧ a ≠ Reg.ETH_TXR_HEAD p q) : a ∉ sentRegs p q := by
  obtain ⟨hport, hts, hirq, hhead⟩ := h
  rw [List.mem_append, not_or]
  exact ⟨notMem_stampRegs ⟨hport, hts, hirq⟩, notMem_storeRegs_append hport (by simpa using hhead)⟩

/-- The queue's head and the count of frames sent after a frame of a queue without launch times. -/
theorem txComplete_clause {s : State} {p q : Nat} (hq : q < 8) (h : s.ethOn p = true) (hw : s.txOnWire p q = true)
    (hl : (s.eff (Reg.ETH_TXQ p)).getLsbD q = false) (raw : Int) (held : Bool) :
    (s.txComplete p q raw held).txHead p q = (s.txHead p q + 1) % 256 ∧
      (s.txComplete p q raw held).rdN (Reg.ETH_TX_CNT p) = min (s.rdN (Reg.ETH_TX_CNT p) + 1) 0xFFFFFFFF := by
  obtain ⟨u, status, hu, heq⟩ := txComplete_eq hq h hw raw held
  obtain ⟨hret, hhead⟩ := txReturn_frame u p q status
  have hsent : s.Alters (u.txReturn p q status) (sentRegs p q) := hu.trans hret
  have hqueues : Reg.ETH_TXQ p ∉ sentRegs p q :=
    notMem_sentRegs (by unfold Reg.ETH_TXQ Reg.ETH_TS_DROP_CNT Reg.PG_IRQ_RAW Reg.ETH_TXR_HEAD; omega)
  have hcnt : Reg.ETH_TX_CNT p ∉ sentRegs p q :=
    notMem_sentRegs (by unfold Reg.ETH_TX_CNT Reg.ETH_TS_DROP_CNT Reg.PG_IRQ_RAW Reg.ETH_TXR_HEAD; omega)
  have hold : u.txHead p q = s.txHead p q :=
    fld_of_rd (hu.1 _ (notMem_stampRegs (by unfold Reg.ETH_TXR_HEAD Reg.ETH_TS_DROP_CNT Reg.PG_IRQ_RAW; omega))) 7 0
  rw [heq]
  generalize u.txReturn p q status = v at hret hhead hsent ⊢
  have hplain : ((v.inc (Reg.ETH_TX_CNT p)).eff (Reg.ETH_TXQ p)).getLsbD q = false := by
    rw [(inc_writes v _).eff_ne (by unfold Reg.ETH_TXQ Reg.ETH_TX_CNT; omega), hsent.eff hqueues, hl]
  rw [txJudgeAll_plain hplain]
  refine ⟨?_, ?_⟩
  · have hnew : (((v.inc (Reg.ETH_TX_CNT p)).txStart p).txHead p q) = v.txHead p q :=
      fld_of_rd ((rd_txStart _ _ _).trans (rd_inc_ne (by unfold Reg.ETH_TXR_HEAD Reg.ETH_TX_CNT; omega) _)) 7 0
    rw [hnew, hhead, hold]
  · rw [rdN_of_rd (rd_txStart _ _ _), rdN_inc, rdN_of_rd (hsent.1 _ hcnt)]

/-! ### The tails, rules R330 and R331 -/

/-- Software hands descriptors to a transmit queue. -/
def State.setTail (s : State) (p q : Nat) (v : Word) : State := s.wrN (Reg.ETH_TXR_TAIL p q) (v.toNat % 256)

theorem setTail_writes (s : State) (p q : Nat) (v : Word) : s.Writes (s.setTail p q v) [Reg.ETH_TXR_TAIL p q] := wrN_writes _ _ _

theorem rd_setTail_ne {p q a : Nat} (h : a ≠ Reg.ETH_TXR_TAIL p q) (s : State) (v : Word) : (s.setTail p q v).rd a = s.rd a :=
  rd_wrN_ne h s _

theorem rdN_wrN_byte (s : State) (a : Nat) (v : Word) : (s.wrN a (v.toNat % 256)).rdN a = v.toNat % 256 := by
  rw [rdN_wrN_self]
  omega

theorem setTail_txq (s : State) (p q : Nat) (v : Word) : (s.setTail p q v).eff (Reg.ETH_TXQ p) = s.eff (Reg.ETH_TXQ p) :=
  (setTail_writes s p q v).eff_ne (by unfold Reg.ETH_TXQ Reg.ETH_TXR_TAIL; omega)

theorem setTail_txHead (s : State) (p q r : Nat) (hr : r < 8) (v : Word) : (s.setTail p q v).txHead p r = s.txHead p r :=
  fld_of_rd (rd_setTail_ne (by unfold Reg.ETH_TXR_HEAD Reg.ETH_TXR_TAIL; omega) s v) 7 0

theorem setTail_waits_self (s : State) {p q : Nat} (hq : q < 8) (v : Word) :
    (s.setTail p q v).txWaits p q = (s.txHead p q != v.toNat % 256) := by
  have htail : (s.setTail p q v).fld (Reg.ETH_TXR_TAIL p q) 7 0 = v.toNat % 256 := by
    unfold State.fld bitsOf State.setTail
    rw [rdN_wrN_byte]
    omega
  unfold State.txWaits
  rw [setTail_txHead s p q q hq v, htail]

theorem setTail_waits_ne (s : State) {p q r : Nat} (hr : r < 8) (hne : r ≠ q) (v : Word) : (s.setTail p q v).txWaits p r = s.txWaits p r := by
  unfold State.txWaits
  rw [setTail_txHead s p q r hr v, fld_of_rd (rd_setTail_ne (by unfold Reg.ETH_TXR_TAIL; omega) s v)]

theorem setTail_ethOn (s : State) (p q : Nat) (v : Word) : (s.setTail p q v).ethOn p = s.ethOn p := by
  have hw := setTail_writes s p q v
  unfold State.ethOn State.domOn
  rw [wrote_clocked hw, bit_of_rd (rd_setTail_ne (by unfold Reg.PWR_DOM_STAT Reg.ETH_TXR_TAIL; omega) s v),
    hw.eff_ne (by unfold Reg.ETH_CTRL Reg.ETH_TXR_TAIL; omega)]

/-- A tail of a queue that is no launch queue: it is written, and an enabled port that idles starts. -/
theorem txTail_plain {s : State} {p q : Nat} (h : (s.eff (Reg.ETH_TXQ p)).getLsbD q = false) (v : Word) :
    s.txTail p q v = if s.ethOn p then (s.setTail p q v).txStart p else s.setTail p q v := by
  have hplain : ((s.setTail p q v).eff (Reg.ETH_TXQ p)).getLsbD q = false := by rw [setTail_txq, h]
  have hrfl : s.txTail p q v = if s.ethOn p then ((s.setTail p q v).txJudgeAll p q).txStart p else s.setTail p q v := rfl
  rw [hrfl, txJudgeAll_plain hplain]

/-- Beside the tail only what the ports send may differ. -/
theorem txTail_frame {s : State} {p q : Nat} (h : (s.eff (Reg.ETH_TXQ p)).getLsbD q = false) (v : Word) :
    ∃ l, s.txTail p q v = (s.setTail p q v).setPlant { s.plant with sending := l } := by
  rw [txTail_plain h]
  split
  · exact ⟨_, txStart_eq _ _⟩
  · exact ⟨s.plant.sending, rfl⟩

theorem txTail_clause {s : State} {p q : Nat} (hq : q < 8) (h : (s.eff (Reg.ETH_TXQ p)).getLsbD q = false) (v : Word) :
    (s.txTail p q v).rdN (Reg.ETH_TXR_TAIL p q) = v.toNat % 256 ∧ s.SameRegs (s.txTail p q v) [Reg.ETH_TXR_TAIL p q] ∧
      s.txTail p q v =
        { s with regs := (s.txTail p q v).regs, plant := { s.plant with sending := (s.txTail p q v).plant.sending } } ∧
      (s.ethOn p = true → s.txBusy p = false → s.txHead p q ≠ v.toNat % 256 →
        (∀ r, r < 8 → (s.eff (Reg.ETH_TXQ p)).getLsbD r = false) → (∀ r, r < 8 → q < r → s.txWaits p r = false) →
        (s.txTail p q v).plant.sending = (8 * p + q) :: s.plant.sending) := by
  obtain ⟨l, heq⟩ := txTail_frame h v
  refine ⟨by rw [heq]; exact rdN_wrN_byte s _ v, by rw [heq]; exact (setTail_writes s p q v).1, by rw [heq]; rfl, ?_⟩
  intro hon hb hne hl hn
  have hstart : (s.setTail p q v).txStart p = (s.setTail p q v).setPlant { s.plant with sending := (8 * p + q) :: s.plant.sending } :=
    txStart_idle hq (by rw [setTail_ethOn, hon]) hb (by rw [setTail_waits_self s hq]; simpa using hne)
      (by rw [setTail_txq]; exact hl) (fun r hr hlt => by rw [setTail_waits_ne s hr (Nat.ne_of_gt hlt), hn r hr hlt])
  rw [txTail_plain h, if_pos hon, hstart]
  rfl

/-- Settles O53: each clause is what the port's operation does once the guards of its premises are decided. -/
theorem plantPorts : Obligations.PlantPorts := by
  refine ⟨?_, ?_, ?_, ?_, ?_, ?_, ?_⟩
  · intro s p f hon hf
    exact ⟨_, congrArg Host.Outcome.next (ethRx_fcs hon hf), rdN_inc _ _, inc_writes _ _⟩
  · intro s p f hon hf hl
    refine ⟨?_, ?_, ?_⟩
    · intro hp
      exact ⟨_, congrArg Host.Outcome.next (ethRx_pause hon hf hl hp), rdN_inc _ _, inc_writes _ _⟩
    · intro hp hm hroom
      exact ⟨_, congrArg Host.Outcome.next (ethRx_unfiltered hon hf hl hp hm), rxPlace_room_clause (rxRing_lt _ _ _) hroom _ _ _⟩
    · intro hp hm hfull
      exact ⟨_, congrArg Host.Outcome.next (ethRx_unfiltered hon hf hl hp hm),
        rxPlace_full_clause (ethOn_clocked hon) (rxRing_lt _ _ _) hfull _ _ _⟩
  · intro s p q raw held hon _ hw hl
    exact ⟨_, rfl, txComplete_clause q.isLt hon hw hl raw held⟩
  · intro s p q hon ht hb hr hn
    exact ⟨_, rfl, launchReached_clause q.isLt hon ht hb hr hn⟩
  · intro s p hon hl
    exact ⟨_, rfl, ethDown_clause hon hl⟩
  · intro s p rate an hon hl
    exact ⟨_, rfl, ethUp_clause hon hl rate an⟩
  · intro s ag p q v hw
    exact ⟨completes_write hw rfl ⟨rdN_wrN_byte _ _ _, wrN_writes _ _ _⟩,
      fun hl => completes_write hw rfl (txTail_clause q.isLt hl v)⟩

end Sys2Proof.Machine
end

section
/-! SUPPORT. What a complete bundle of one slot leaves, in closed form, of an engine that is at a fresh bundle boundary (O24 to O33). -/

namespace Sys2Proof.Machine

/-! ### The engine -/

/-- The engine's last bundle is complete and left nothing on the way, and no loop level counts: what a fresh boundary says of the engine. -/
structure Eng.Settled (g : Eng) : Prop where
  staged : g.staged = []
  late : g.late = []
  delay : g.delay = none
  count0 : g.spr 4 = 0
  count1 : g.spr 7 = 0
  goes : g.setfWait = false

theorem settled_of_fresh {s : State} {e : Nat} (h : s.freshBundle e = true) : (s.engOf e).Settled := by
  obtain ⟨-, hst, hl, hd, -, -, -, -, hw⟩ := fresh_parts h
  simp only [State.freshBundle, Bool.and_eq_true, beq_iff_eq] at h
  obtain ⟨⟨⟨⟨⟨⟨-, h4⟩, h7⟩, -⟩, -⟩, -⟩, -⟩ := h
  exact ⟨hst, hl, hd, h4, h7, hw⟩

/-- The data register that an effect writes for the next bundle. -/
def EngEff.now : EngEff → Option (Nat × Word)
  | .d r v => some (r, v)
  | _ => none

/-- The data register that an effect writes for the bundle after the next, rule R68. -/
def EngEff.later : EngEff → Option (Nat × Word)
  | .dLate r v => some (r, v)
  | _ => none

/-- What a branch says of its delay slot. -/
def EngEff.branchTo : EngEff → Option (Option Nat)
  | .branch t => some t
  | _ => none

/-- The engine after a bundle with these effects in one slot, and these registers loaded. -/
def Eng.ran (g : Eng) (effs : List EngEff) (loads : List (Nat × Word)) : Eng :=
  { effs.foldl Eng.apply { g with accMva := g.acc } with
    d := Tab.setAll (fun _ => 0) g.d (effs.filterMap EngEff.now)
    late := loads ++ effs.filterMap EngEff.later
    pc := g.nextPc effs none
    delay := effs.findSome? EngEff.branchTo }

/-- The engine with its slot filled. -/
abbrev Eng.staging (g : Eng) (slot : Nat) (effs : List EngEff) : Eng := { g with staged := effs.map (fun x => (slot, x)) }

theorem apply_staged (g : Eng) (l : List (Nat × EngEff)) (x : EngEff) :
    ({ g with staged := l } : Eng).apply x = { g.apply x with staged := l } := by cases x <;> rfl

theorem foldl_apply_staged (effs : List EngEff) (l : List (Nat × EngEff)) : ∀ g : Eng,
    effs.foldl Eng.apply ({ g with staged := l } : Eng) = { effs.foldl Eng.apply g with staged := l } := by
  induction effs with
  | nil => intro g; rfl
  | cons x effs ih => intro g; rw [List.foldl_cons, apply_staged, ih, List.foldl_cons]

theorem apply_keeps (g : Eng) (x : EngEff) : (g.apply x).d = g.d ∧ (g.apply x).staged = g.staged := by cases x <;> exact ⟨rfl, rfl⟩

theorem foldl_apply_keeps (effs : List EngEff) : ∀ g : Eng,
    (effs.foldl Eng.apply g).d = g.d ∧ (effs.foldl Eng.apply g).staged = g.staged := by
  induction effs with
  | nil => intro g; exact ⟨rfl, rfl⟩
  | cons x effs ih => intro g; exact ⟨(ih _).1.trans (apply_keeps g x).1, (ih _).2.trans (apply_keeps g x).2⟩

theorem ran_setfWait (g : Eng) (effs : List EngEff) (loads : List (Nat × Word)) : (g.ran effs loads).setfWait = g.setfWait :=
  foldl_apply_setfWait _ _

/-- A level that counts no round makes no loop test. -/
theorem loopTest_idle {g : Eng} {l : Nat} (h : g.spr (4 + 3 * l) = 0) : g.loopTest l = (g, none) := by
  simp [Eng.loopTest, Eng.loopEnd, h]

theorem loopTests_idle {g : Eng} (h4 : g.spr 4 = 0) (h7 : g.spr 7 = 0) : g.loopTests = (g, none) := by
  unfold Eng.loopTests
  split
  · rfl
  · rw [loopTest_idle (l := 1) h7]
    exact loopTest_idle (l := 0) h4

theorem landed_of_late {g : Eng} (h : g.late = []) : g.landed = g := by
  unfold Eng.landed
  rw [h]
  cases g
  cases h
  rfl

/-- Among the writes of one slot none loses to a higher slot. -/
theorem winners_oneSlot {slot : Nat} {ws : List (Nat × Nat × Word × Bool)} (h : ∀ w ∈ ws, w.1 = slot) : winners ws = ws := by
  unfold winners
  rw [List.filter_eq_self]
  intro w hw
  have hnone : ws.any (fun x => x.2.1 == w.2.1 && decide (w.1 < x.1)) = false := by
    rw [List.any_eq_false]
    intro x hx
    simp [h w hw, h x hx]
  rw [hnone]
  rfl

theorem regWrites_slot (slot : Nat) (effs : List EngEff) (loads : List (Nat × Word)) :
    ∀ w ∈ regWrites (loads.map (fun p => (slot, p.1, p.2))) (effs.map (fun x => (slot, x))), w.1 = slot := by
  intro w hw
  rcases List.mem_append.mp hw with hw | hw
  · obtain ⟨p, hp, rfl⟩ := List.mem_map.mp hw
    obtain ⟨q, -, rfl⟩ := List.mem_map.mp hp
    rfl
  · obtain ⟨p, hp, hw⟩ := List.mem_filterMap.mp hw
    obtain ⟨x, -, rfl⟩ := List.mem_map.mp hp
    cases x <;> cases hw <;> rfl

/-- Of the writes of one slot those of D effects stand at the next bundle, those of loads and of delayed effects one later. -/
theorem regWrites_split (slot : Nat) (effs : List EngEff) (loads : List (Nat × Word)) :
    ((regWrites (loads.map (fun p => (slot, p.1, p.2))) (effs.map (fun x => (slot, x)))).filter (fun w => !w.2.2.2)).map
        (fun w => (w.2.1, w.2.2.1)) = effs.filterMap EngEff.now ∧
      ((regWrites (loads.map (fun p => (slot, p.1, p.2))) (effs.map (fun x => (slot, x)))).filter (fun w => w.2.2.2)).map
        (fun w => (w.2.1, w.2.2.1)) = loads ++ effs.filterMap EngEff.later := by
  induction loads with
  | cons p loads ih => exact ⟨ih.1, congrArg (p :: ·) ih.2⟩
  | nil =>
    induction effs with
    | nil => exact ⟨rfl, rfl⟩
    | cons x effs ih =>
      obtain ⟨h1, h2⟩ := ih
      cases x with
      | d r v => exact ⟨congrArg ((r, v) :: ·) h1, h2⟩
      | dLate r v => exact ⟨h1, congrArg ((r, v) :: ·) h2⟩
      | _ => exact ⟨h1, h2⟩

/-- A settled engine after a bundle of one slot. -/
theorem after_eq_ran {g : Eng} (q : g.Settled) (slot : Nat) (effs : List EngEff) (loads : List (Nat × Word)) :
    (g.staging slot effs).after (loads.map (fun p => (slot, p.1, p.2))) = g.ran effs loads := by
  obtain ⟨hnow, hlater⟩ := regWrites_split slot effs loads
  have heffs : (effs.map (fun x => (slot, x))).map (fun p => p.2) = effs := by simp
  have hland : (g.staging slot effs).landed = g.staging slot effs := landed_of_late q.late
  have hloop := loopTests_idle (g := { g.staging slot effs with accMva := g.acc }) q.count0 q.count1
  have hfold := foldl_apply_staged effs (effs.map (fun x => (slot, x))) { g with accMva := g.acc }
  obtain ⟨hd, hst⟩ := foldl_apply_keeps effs { g with accMva := g.acc }
  have hst' : (effs.foldl Eng.apply { g with accMva := g.acc }).staged = [] := hst.trans q.staged
  have hpc : (g.staging slot effs).nextPc effs none = g.nextPc effs none := rfl
  unfold Eng.after
  dsimp only
  rw [winners_oneSlot (regWrites_slot slot effs loads), hnow, hlater, hland, heffs, hloop, hpc]
  dsimp only
  rw [hfold, hd]
  unfold Eng.ran
  rw [← hst']
  rfl

end Sys2Proof.Machine
end

section
/-! SUPPORT. The bundle of one slot: what it counts, when it does not fault, and what its control operations start from (O26 to O33). -/

namespace Sys2Proof.Machine

/-- The bundle of one slot as its accesses begin: the slot staged, and its cycles counted. -/
def State.opened (s : State) (e slot : Nat) (effs : List EngEff) : State :=
  ((s.setEng e ((s.engOf e).staging slot effs)).setEng e ((s.engOf e).staging slot effs)).engCount e effs

/-- The engine takes what the bundle left, and ENG_STAT shows its SR.PE. -/
def State.closed (u : State) (e : Nat) (g : Eng) : State :=
  (u.setEng e { g with setfWait := (u.engOf e).setfWait }).setBit (Reg.ENG_STAT e) 4 (g.sr.getLsbD srPE)

/-- A load or a store. -/
def EngEff.access : EngEff → Bool
  | .load _ _ _ _ => true
  | .store _ _ _ _ => true
  | _ => false

/-! ### Effects without an access -/

theorem accesses_none {l : List (Nat × EngEff)} (h : ∀ p ∈ l, p.2.access = false) (s : State) (e : Nat) : s.accesses e l = (s, []) := by
  induction l with
  | nil => rfl
  | cons p l ih =>
    obtain ⟨k, x⟩ := p
    have hx : x.access = false := h (k, x) List.mem_cons_self
    have hl := ih (fun q hq => h q (List.mem_cons_of_mem _ hq))
    cases x with
    | load | store => cases hx
    | _ => exact hl

theorem stall_none {l : List EngEff} (h : ∀ x ∈ l, x.access = false) (k : Nat) : stallCycles k l = (0, k) := by
  induction l with
  | nil => rfl
  | cons x l ih =>
    have hx := h x List.mem_cons_self
    have hl := ih (fun y hy => h y (List.mem_cons_of_mem _ hy))
    cases x with
    | load | store => cases hx
    | _ => exact hl

theorem firstFault_none {l : List EngEff} (h : ∀ x ∈ l, x.access = false) (s : State) (e pc : Nat) : s.firstFault e pc l = none := by
  induction l generalizing s with
  | nil => rfl
  | cons x l ih =>
    have hx := h x List.mem_cons_self
    have hl := fun t => ih (fun y hy => h y (List.mem_cons_of_mem _ hy)) t
    cases x with
    | load | store => cases hx
    | _ => exact hl _

/-! ### A bundle that does not fault -/

/-- At a fresh boundary a bundle faults only by a reserved encoding, by a return outside the trap routine or by an access. -/
theorem bundleFault_fresh {s : State} {e : Nat} (slot : Nat) {effs : List EngEff} (h : s.freshBundle e = true)
    (hr : EngEff.reserved ∉ effs) (hy : EngEff.yield ∈ effs ∨ EngEff.rte ∈ effs → s.engState e = 4)
    (hf : ∀ u : State, u.integ = s.integ → u.firstFault e (s.engOf e).pc effs = none) (u : State) (hi : u.integ = s.integ)
    (hc : u.code = s.code) (hu : u.engState e = s.engState e) : u.bundleFault e ((s.engOf e).staging slot effs) = none := by
  obtain ⟨-, -, -, hd, h0, h1, hcode, hue, -⟩ := fresh_parts h
  have heffs : (effs.map (fun x => (slot, x))).map (fun p => p.2) = effs := by simp
  have hue' : u.ueIn e (s.engOf e).pc 8 = false := by unfold State.ueIn at hue ⊢; rw [hi]; exact hue
  have hcode' : u.codeReserved e (s.engOf e).pc = false := by unfold State.codeReserved at hcode ⊢; rw [hc]; exact hcode
  have hr' : effs.contains EngEff.reserved = false := by simpa using hr
  have hl0 : ((s.engOf e).staging slot effs).loopLast 0 = false := h0
  have hl1 : ((s.engOf e).staging slot effs).loopLast 1 = false := h1
  have hy' : ¬ (effs.any (fun x => x == EngEff.yield || x == EngEff.rte) = true ∧ s.engState e ≠ 4) := by
    rintro ⟨hany, hne⟩
    obtain ⟨x, hx, hx'⟩ := List.any_eq_true.mp hany
    refine hne (hy ?_)
    rcases (Bool.or_eq_true _ _).mp hx' with hx' | hx'
    · exact .inl (eq_of_beq hx' ▸ hx)
    · exact .inr (eq_of_beq hx' ▸ hx)
  unfold State.bundleFault
  dsimp only
  rw [heffs, hue', hcode', hr', hd, hl0, hl1, hf u hi, hu]
  simpa using hy'

/-- What a bundle of one slot does that does not fault. -/
theorem engSlot_eq {s u : State} {e slot : Nat} {f : Eng → List EngEff} {effs : List EngEff} {loads : List (Nat × Word)}
    (h : s.freshBundle e = true) (hs : slot < 6) (he : f (s.engOf e) = effs)
    (hn : ∀ u : State, u.integ = s.integ → u.code = s.code → u.engState e = s.engState e →
      u.bundleFault e ((s.engOf e).staging slot effs) = none)
    (ha : (s.opened e slot effs).accesses e (effs.map (fun x => (slot, x))) = (u, loads.map (fun p => (slot, p.1, p.2)))) :
    s.engSlot e slot true f = (u.closed e ((s.engOf e).ran effs loads)).engControls e effs := by
  obtain ⟨hr, hst, -⟩ := fresh_parts h
  have heffs : (effs.map (fun x => (slot, x))).map (fun p => p.2) = effs := by simp
  have hnf := hn ((s.setEng e ((s.engOf e).staging slot effs)).setEng e ((s.engOf e).staging slot effs)) rfl rfl rfl
  unfold State.engSlot
  rw [if_pos hr, if_pos rfl, hst, he]
  simp only [List.filter_nil, List.nil_append]
  unfold State.bundle
  dsimp only
  rw [engOf_setEng, if_pos rfl]
  dsimp only
  rw [inSlots_one hs, hnf]
  dsimp only
  rw [heffs]
  unfold State.opened at ha
  rw [ha]
  dsimp only
  rw [after_eq_ran (settled_of_fresh h)]
  rfl

/-! ### What the bundle counts -/

theorem opened_engOf (s : State) (e slot : Nat) (effs : List EngEff) (k : Nat) :
    (s.opened e slot effs).engOf k = if k = e then (s.engOf e).staging slot effs else s.engOf k :=
  setEng_setEng_of s e _ _ k

theorem opened_sameRegs (s : State) (e slot : Nat) (effs : List EngEff) :
    s.SameRegs (s.opened e slot effs) [Reg.ENG_BUSY_CNT e, Reg.ENG_BUSY_CNT e + 4, Reg.ENG_STALL_CNT e] := by
  intro a ha
  simp only [List.mem_cons, List.not_mem_nil, or_false, not_or] at ha
  obtain ⟨h1, h2, h3⟩ := ha
  unfold State.opened State.engCount
  dsimp only
  rw [rd_add_ne h3, rd_wr64_ne h1 h2]
  rfl

theorem opened_busy {s : State} {e slot : Nat} {effs : List EngEff} (hc : (stallCycles s.free effs).1 = 0) :
    (s.opened e slot effs).rd64 (Reg.ENG_BUSY_CNT e) = min (s.rd64 (Reg.ENG_BUSY_CNT e) + 1) (2 ^ 64 - 1) := by
  unfold State.opened State.engCount
  dsimp only
  rw [rd64_of_same (add_writes _ _ _).1 (by simp [Reg.ENG_BUSY_CNT, Reg.ENG_STALL_CNT])
    (by simp [Reg.ENG_BUSY_CNT, Reg.ENG_STALL_CNT]; omega), rd64_wr64]
  show min (s.rd64 (Reg.ENG_BUSY_CNT e) + 1 + (stallCycles s.free effs).1) (2 ^ 64 - 1) % 2 ^ 64 = _
  rw [hc]
  omega

theorem closed_engOf {u : State} {e : Nat} {g : Eng} (hw : (u.engOf e).setfWait = g.setfWait) (k : Nat) :
    (u.closed e g).engOf k = if k = e then g else u.engOf k := by
  unfold State.closed
  rw [setBit_engOf, engOf_setEng, hw]

theorem closed_engState (u : State) (e : Nat) (g : Eng) : (u.closed e g).engState e = u.engState e :=
  fld_setFld_ne (by decide) (by decide) (by decide) _ _ _

theorem opened_engState (s : State) (e slot : Nat) (effs : List EngEff) : (s.opened e slot effs).engState e = s.engState e :=
  fld_of_rd (opened_sameRegs s e slot effs _ (by simp [Reg.ENG_STAT, Reg.ENG_BUSY_CNT, Reg.ENG_STALL_CNT]; omega)) _ _

/-- A bundle whose accesses do not stall and leave the state as it is. -/
theorem closed_oneBundle {s : State} {e : Nat} (slot : Nat) {effs : List EngEff} {g : Eng} (h : s.freshBundle e = true)
    (hc : (stallCycles s.free effs).1 = 0) (hg : g.setfWait = false) : s.OneBundle ((s.opened e slot effs).closed e g) e g :=
  (bundle_end hg (by rw [opened_engOf, if_pos rfl]; exact (settled_of_fresh h).goes)
    (fun k hk => by rw [opened_engOf, if_neg hk]) (opened_sameRegs s e slot effs) ⟨rfl, rfl, rfl, rfl, rfl⟩ (opened_busy hc)).1

/-- What the control operations of a bundle start from: the bundle is done, and nothing but engines, registers and the counter of free
values differs. -/
structure State.AtControls (s u : State) (e : Nat) (g : Eng) : Prop where
  oneBundle : s.OneBundle u e g
  engState : u.engState e = s.engState e
  same : u = { s with regs := u.regs, eng := u.eng, free := u.free }

theorem opened_eq (s : State) (e slot : Nat) (effs : List EngEff) :
    s.opened e slot effs =
      { s with regs := (s.opened e slot effs).regs, eng := (s.opened e slot effs).eng, free := (s.opened e slot effs).free } := by
  unfold State.opened State.engCount
  rfl

theorem closed_eq (u : State) (e : Nat) (g : Eng) : u.closed e g = { u with regs := (u.closed e g).regs, eng := (u.closed e g).eng } := by
  unfold State.closed
  rfl

theorem engSlot_atControls {s : State} {e slot : Nat} {f : Eng → List EngEff} {effs : List EngEff} (h : s.freshBundle e = true)
    (hs : slot < 6) (he : f (s.engOf e) = effs) (ha : ∀ x ∈ effs, x.access = false) (hr : EngEff.reserved ∉ effs)
    (hy : EngEff.yield ∈ effs ∨ EngEff.rte ∈ effs → s.engState e = 4) :
    ∃ u, s.engSlot e slot true f = u.engControls e effs ∧ s.AtControls u e ((s.engOf e).ran effs []) := by
  have hmap : ∀ p ∈ effs.map (fun x => (slot, x)), p.2.access = false := by
    intro p hp
    obtain ⟨x, hx, rfl⟩ := List.mem_map.mp hp
    exact ha x hx
  have hnf := bundleFault_fresh slot h hr hy (fun u _ => firstFault_none ha u e _)
  have hgoes : ((s.engOf e).ran effs []).setfWait = false := (ran_setfWait _ _ _).trans (settled_of_fresh h).goes
  refine ⟨_, engSlot_eq (loads := []) h hs he hnf (accesses_none hmap _ _), closed_oneBundle slot h (by rw [stall_none ha]) hgoes,
    (closed_engState _ _ _).trans (opened_engState _ _ _ _), ?_⟩
  rw [closed_eq, opened_eq]

end Sys2Proof.Machine
end

section
/-! SUPPORT. Bundles of one effect or two: what each leaves of the engine, and the commands that are such bundles (O24 to O31). -/

namespace Sys2Proof.Machine

/-- Nothing is on the way in a settled engine. -/
theorem Eng.Settled.eta {g : Eng} (q : g.Settled) : ({ g with late := [], delay := none } : Eng) = g := by
  rw [← q.late, ← q.delay]

section
variable {g : Eng} (q : g.Settled)
include q

theorem ran_nil : g.ran [] [] = g.next := by rw [← q.eta]; rfl

theorem ran_d (r : Nat) (v : Word) : g.ran [.d r v] [] = g.next.setD r v := by rw [← q.eta]; rfl

theorem ran_d_d (r : Nat) (v : Word) (p : Nat) (w : Word) : g.ran [.d r v, .d p w] [] = (g.next.setD r v).setD p w := by rw [← q.eta]; rfl

theorem ran_dLate (r : Nat) (v : Word) : g.ran [.dLate r v] [] = { g.next with late := [(r, v)] } := by rw [← q.eta]; rfl

theorem ran_ax (c : Nat) (v : Word) : g.ran [.ax c v] [] = g.next.setAx c v := by rw [← q.eta]; rfl

theorem ran_sp (c : Nat) (v : Word) : g.ran [.sp c v] [] = g.next.setSp c v := by rw [← q.eta]; rfl

theorem ran_acc (n : Nat) (v : BitVec 80) : g.ran [.acc n v] [] = { g.next with acc := Tab.set (fun _ => 0) g.acc n v } := by rw [← q.eta]; rfl

theorem ran_accMov (n : Nat) (v : BitVec 80) : g.ran [.accMov n v] [] =
    { g.next with acc := Tab.set (fun _ => 0) g.acc n v, accMva := Tab.set (fun _ => 0) g.acc n v } := by rw [← q.eta]; rfl

theorem ran_cmp (z n : Bool) : g.ran [.cmp z n] [] = g.next.setSp 10 (putBit (putBit g.sr srZ z) srN n) := ran_sp q 10 _

theorem ran_pe (v : Bool) : g.ran [.pe v] [] = g.next.setSp 10 (putBit g.sr srPE v) := ran_sp q 10 _

theorem ran_clrs : g.ran [.clrs] [] = g.next.setSp 10 (putBit (putBit g.sr srSAT false) srAOV false) := ran_sp q 10 _

theorem ran_branch (t : Option Nat) : g.ran [.branch t] [] = { g.next with delay := some t } := by rw [← q.eta]; rfl

theorem ran_call (t : Option Nat) (v : Word) : g.ran [.branch t, .sp 11 v] [] = { g.next.setSp 11 v with delay := some t } := by rw [← q.eta]; rfl

theorem ran_loop (l : Nat) {count : Nat} (hc : count ≠ 0) (body : Nat) : g.ran [.loop l count body] [] =
    ((g.next.setSp (4 + 3 * l) (w32 count)).setSp (5 + 3 * l) (w32 (g.pc + 8))).setSp (6 + 3 * l) (w32 (g.pc + 8 * body)) := by
  cases count with
  | zero => exact absurd rfl hc
  | succ n => rw [← q.eta]; rfl

end

/-! ### Commands that are such bundles: `s₀` is the state a command finds, `s` the one its bundle starts from (RDCYC first takes a free value) -/

theorem slotMov_lt (second : Bool) : slotMov second < 6 := by cases second <;> decide

section
variable {s₀ s : State} {e slot : Nat} {g : Eng} {c : Instr} {f : Eng → List EngEff} {effs : List EngEff}
  (h : s.freshBundle e = true) (hg : s.engOf e = g) (hs : slot < 6) (hc : exec c s₀ = .next (s.engSlot e slot true f)) (hf : f g = effs)
include h hg hs hc hf

/-- A bundle of plain effects leaves the engine as its closed form says, counts one busy cycle and shows SR.PE. -/
theorem completes_plain (hp : ∀ x ∈ effs, x.plain = true) : Completes c s₀ (fun t => s.OneBundle t e (g.ran effs []) ∧
    t.rd64 (Reg.ENG_BUSY_CNT e) = min (s.rd64 (Reg.ENG_BUSY_CNT e) + 1) (2 ^ 64 - 1) ∧
    t.bit (Reg.ENG_STAT e) 4 = (g.ran effs []).sr.getLsbD srPE) := by
  subst hg hf
  have k := engSlot_plain h hs hp
  have ha : ((s.engOf e).staging slot (f (s.engOf e))).after [] = (s.engOf e).ran (f (s.engOf e)) [] :=
    after_eq_ran (settled_of_fresh h) slot _ []
  rw [ha] at k
  exact ⟨_, hc, k⟩

theorem completes_ran {g' : Eng} (hp : ∀ x ∈ effs, x.plain = true) (hr : g.Settled → g.ran effs [] = g') :
    Completes c s₀ (fun t => s.OneBundle t e g') := by
  obtain ⟨t, ht, hb, -⟩ := completes_plain h hg hs hc hf hp
  exact ⟨t, ht, hr (hg ▸ settled_of_fresh h) ▸ hb⟩

end

section
variable {s₀ s : State} {e slot : Nat} {g : Eng} {c : Instr} {f : Eng → List EngEff}
  (h : s.freshBundle e = true) (hg : s.engOf e = g) (hs : slot < 6) (hc : exec c s₀ = .next (s.engSlot e slot true f))
include h hg hs hc

theorem completes_d {r : Nat} {v : Word} (hf : f g = [.d r v]) : Completes c s₀ (fun t => s.OneBundle t e (g.next.setD r v)) :=
  completes_ran h hg hs hc hf (by simp [EngEff.plain]) (fun q => ran_d q r v)

theorem completes_d_d {r p : Nat} {v w : Word} (hf : f g = [.d r v, .d p w]) :
    Completes c s₀ (fun t => s.OneBundle t e ((g.next.setD r v).setD p w)) :=
  completes_ran h hg hs hc hf (by simp [EngEff.plain]) (fun q => ran_d_d q r v p w)

theorem completes_dLate {r : Nat} {v : Word} (hf : f g = [.dLate r v]) :
    Completes c s₀ (fun t => s.OneBundle t e { g.next with late := [(r, v)] }) :=
  completes_ran h hg hs hc hf (by simp [EngEff.plain]) (fun q => ran_dLate q r v)

theorem completes_ax {n : Nat} {v : Word} (hf : f g = [.ax n v]) : Completes c s₀ (fun t => s.OneBundle t e (g.next.setAx n v)) :=
  completes_ran h hg hs hc hf (by simp [EngEff.plain]) (fun q => ran_ax q n v)

theorem completes_sp {n : Nat} {v : Word} (hf : f g = [.sp n v]) : Completes c s₀ (fun t => s.OneBundle t e (g.next.setSp n v)) :=
  completes_ran h hg hs hc hf (by simp [EngEff.plain]) (fun q => ran_sp q n v)

theorem completes_acc {n : Nat} {v : BitVec 80} (hf : f g = [.acc n v]) :
    Completes c s₀ (fun t => s.OneBundle t e { g.next with acc := Tab.set (fun _ => 0) g.acc n v }) :=
  completes_ran h hg hs hc hf (by simp [EngEff.plain]) (fun q => ran_acc q n v)

theorem completes_branch {t : Option Nat} (hf : f g = [.branch t]) :
    Completes c s₀ (fun u => s.OneBundle u e { g.next with delay := some t }) :=
  completes_ran h hg hs hc hf (by simp [EngEff.plain]) (fun q => ran_branch q t)

theorem completes_loop {l n body : Nat} (hn : n ≠ 0) (hf : f g = [.loop l n body]) :
    Completes c s₀ (fun t => s.OneBundle t e (((g.next.setSp (4 + 3 * l) (w32 n)).setSp (5 + 3 * l) (w32 (g.pc + 8))).setSp (6 + 3 * l)
      (w32 (g.pc + 8 * body)))) :=
  completes_ran h hg hs hc hf (by simp [EngEff.plain]) (fun q => ran_loop q l hn body)

/-- SR.PE as a bundle that writes it leaves it, and ENG_STAT with it. -/
theorem completes_pe {v : Bool} (hf : f g = [.pe v]) :
    Completes c s₀ (fun t => s.OneBundle t e (g.next.setSp 10 (putBit g.sr srPE v)) ∧ t.bit (Reg.ENG_STAT e) 4 = v) := by
  obtain ⟨t, ht, hb, -, hbit⟩ := completes_plain h hg hs hc hf (by simp [EngEff.plain])
  rw [ran_pe (hg ▸ settled_of_fresh h)] at hb hbit
  refine ⟨t, ht, hb, hbit.trans ?_⟩
  cases v <;> simp [Eng.sr, Eng.spr, Eng.setSp, putBit, srPE]

end

/-- Settles O11: the meaning of each command advances and keeps the queue. -/
theorem everyCommandCompletes : Obligations.EveryCommandCompletes := by
  intro c s hs
  obtain ⟨t, ht, e, -, hk⟩ := exec_advances c hs.kept
  exact ⟨t, ht, hk.queue⟩

/-- Settles O24: each command is a bundle of one data-register effect. -/
theorem engineRegisterOps : Obligations.EngineRegisterOps := by
  intro s e g b d r h hg
  have hm := slotMov_lt b
  refine ⟨?_, completes_d h hg hm rfl rfl, completes_d h hg hm rfl rfl, completes_d h hg hm rfl rfl, completes_d h hg hm rfl rfl,
    completes_d h hg hm rfl rfl, completes_d h hg hm rfl rfl, completes_d h hg hm rfl rfl, completes_d h hg hm rfl rfl,
    completes_d h hg hm rfl rfl, completes_d h hg hm rfl rfl, completes_d h hg hm rfl rfl, completes_d h hg hm rfl rfl,
    completes_d h hg hm rfl rfl, completes_d h hg hm rfl rfl, fun v => completes_d h hg (slot := slotImm) (by decide) rfl rfl,
    completes_d h hg (slot := slotCtl) (by decide) rfl rfl,
    fun hr => completes_d h hg (slot := slotLong) (by decide) rfl (if_pos hr), ?_⟩
  · obtain ⟨t, ht, hb, hbusy, -⟩ := completes_plain (c := .mov e b true d r) h hg hm rfl rfl (by simp [EngEff.plain])
    exact ⟨t, ht, ran_d (hg ▸ settled_of_fresh h) _ _ ▸ hb, hbusy⟩
  · obtain ⟨t, ht, hb⟩ := completes_d (s := s.takeFree.2) (c := .rdcyc e true d) h hg (slot := slotCtl) (by decide) rfl rfl
    exact ⟨t, ht, _, hb⟩

end Sys2Proof.Machine
end

section
/-! SUPPORT. Pairs, moves between accumulators and data registers, special registers and branches (O25, O29, O30, O31). -/

namespace Sys2Proof.Machine

/-! ### Operand forms -/

theorem evenPair_even {rs : List Nat} {l : List EngEff} (h : ∀ r ∈ rs, r % 2 = 0) : evenPair rs l = l :=
  if_pos (by simpa using h)

theorem even_pair {d r : Nat} (hd : d % 2 = 0) (hr : r % 2 = 0) : ∀ x ∈ [d, r], x % 2 = 0 := by simp [hd, hr]

theorem append_halves {n : Nat} (x y : BitVec n) : (x ++ y).setWidth n = y ∧ ((x ++ y) >>> n).setWidth n = x := by
  constructor <;> ext i hi <;> simp [BitVec.getLsbD_append, BitVec.getElem_append, hi]

/-- The halves of a pair are its two registers, rule R57. -/
theorem pair_halves (g : Eng) (r : Nat) : (g.pair r).setWidth 32 = g.dr r ∧ ((g.pair r) >>> 32).setWidth 32 = g.dr (r + 1) :=
  append_halves _ _

/-- A result within 32 bits is exact, rules R65 and R66. -/
theorem satTo32_exact {i : Int} (h : satTo 32 i = i) (d : Nat) :
    satTo32 false d i = [.d d (BitVec.ofInt 32 i)] ∧ satTo32 true d i = [.dLate d (BitVec.ofInt 32 i)] := by
  simp [satTo32, wordSat, h]

/-- Settles O25: each command is a bundle that writes the two registers of a pair. -/
theorem enginePairOps : Obligations.EnginePairOps := by
  intro s e g b d r h hg hd hr
  have hm := slotMov_lt b
  have heven {l : List EngEff} : evenPair [d.val, r.val] l = l := evenPair_even (even_pair hd hr)
  refine ⟨?_, ?_, ?_⟩
  · obtain ⟨hlo, hhi⟩ := pair_halves g r.val
    have k := completes_d_d (c := .movp e b true d r) h hg hm rfl heven
    rw [hlo, hhi] at k
    exact k
  · obtain ⟨t, ht, k⟩ := completes_d_d (c := .addp e b true d r) h hg hm rfl heven
    exact ⟨t, ht, _, rfl, k⟩
  · obtain ⟨t, ht, k⟩ := completes_d_d (c := .subp e b true d r) h hg hm rfl heven
    exact ⟨t, ht, _, rfl, k⟩

/-- Settles O29: MVA and EXPA are delayed data-register effects, MAV writes the accumulator and its reading by an MVA. -/
theorem engineAccumulatorMoves : Obligations.EngineAccumulatorMoves := by
  intro s e g b d n h hg
  have hm := slotMov_lt b
  refine ⟨?_, completes_dLate h hg hm rfl rfl, ?_, completes_dLate h hg (slot := slotMac) (by decide) rfl rfl⟩
  · rintro x rfl hx
    exact completes_dLate h hg hm rfl (satTo32_exact hx d.val).2
  · exact completes_ran h hg hm rfl rfl (by simp [EngEff.plain, Eng.mav]) (fun q => ran_accMov q _ _)

/-- Settles O30: each command is a bundle of one effect on an address or a special register, on SR or on a loop level. -/
theorem engineSpecialRegisters : Obligations.EngineSpecialRegisters := by
  intro s e g b c d r h hg
  have hm := slotMov_lt b
  have hctl : slotCtl < 6 := by decide
  have hlong : slotLong < 6 := by decide
  refine ⟨completes_ax h hg hm rfl rfl, fun v => completes_ax h hg (slot := slotImm) (by decide) rfl rfl,
    fun hc => completes_sp h hg hlong rfl (if_pos hc), fun n i => completes_sp h hg hlong rfl rfl, ?_, ?_,
    completes_pe h hg hctl rfl rfl, completes_pe h hg hctl rfl rfl, ?_, ?_, ?_⟩
  · exact completes_ran h hg hm rfl rfl (by simp [EngEff.plain]) (fun q => ran_cmp q _ _)
  · exact completes_ran h hg hctl rfl rfl (by simp [EngEff.plain]) (fun q => ran_clrs q)
  · intro sl
    exact completes_ran h hg (slot := sl.val) (Nat.lt_trans sl.isLt (by decide)) rfl rfl (by simp) (fun q => ran_nil q)
  · intro l n k hn hk
    have hcount : n.toNat ≠ 0 := fun hz => hn (BitVec.eq_of_toNat_eq hz)
    exact completes_loop h hg hlong rfl hcount (if_neg hk)
  · intro l k hn
    exact completes_loop h hg hctl rfl hn rfl

/-- Settles O31: each command is a bundle with a branch, and LCALL's writes LK beside it. -/
theorem engineBranches : Obligations.EngineBranches := by
  intro s e g r h hg
  have hctl : slotCtl < 6 := by decide
  have hlong : slotLong < 6 := by decide
  refine ⟨fun o => completes_branch h hg hctl rfl rfl, fun c o => completes_branch h hg hctl rfl rfl, completes_branch h hg hctl rfl rfl,
    completes_branch h hg hctl rfl rfl, fun o => completes_branch h hg hlong rfl rfl, fun o => ?_⟩
  exact completes_ran h hg hlong rfl rfl (by simp [EngEff.plain]) (fun q => ran_call q _ _)

end Sys2Proof.Machine
end

section
/-! SUPPORT. Saturation, multiplication and accumulation (O26, O27, O28). -/

namespace Sys2Proof.Machine

/-! ### Exact results in range -/

theorem satTo_of_range {w : Nat} {i : Int} (h1 : -(2 ^ (w - 1) : Nat) ≤ i) (h2 : i ≤ (2 ^ (w - 1) : Nat) - 1) : satTo w i = i := by
  unfold satTo
  rw [if_neg (by omega), if_neg (by omega)]

/-- An accumulator holds every number below 2^64, rule R64. -/
theorem satTo80_of_abs_le {i : Int} (h : |i| ≤ 2 ^ 64) : satTo 80 i = i := by
  obtain ⟨h1, h2⟩ := abs_le.mp h
  exact satTo_of_range (by norm_num at h1 ⊢; omega) (by norm_num at h2 ⊢; omega)

theorem abs_toInt_le (x : Word) : |x.toInt| ≤ 2 ^ 31 := by
  have h1 := x.le_toInt
  have h2 := x.toInt_lt
  rw [abs_le]
  norm_num at h1 h2 ⊢
  omega

theorem abs_prod_le (g : Eng) (a b : Nat) : |g.prod a b| ≤ 2 ^ 62 := by
  unfold Eng.prod
  rw [abs_mul]
  calc |(g.dr a).toInt| * |(g.dr b).toInt| ≤ 2 ^ 31 * 2 ^ 31 := mul_le_mul (abs_toInt_le _) (abs_toInt_le _) (abs_nonneg _) (by norm_num)
    _ = 2 ^ 62 := by norm_num

theorem abs_prodU_le (g : Eng) (a b : Nat) : |g.prodU a b| ≤ 2 ^ 63 := by
  have hb : |((g.dr b).toNat : Int)| ≤ 2 ^ 32 := by
    rw [Nat.abs_cast]
    exact_mod_cast (g.dr b).isLt.le
  unfold Eng.prodU
  rw [abs_mul]
  calc |(g.dr a).toInt| * |((g.dr b).toNat : Int)| ≤ 2 ^ 31 * 2 ^ 32 := mul_le_mul (abs_toInt_le _) hb (abs_nonneg _) (by norm_num)
    _ = 2 ^ 63 := by norm_num

theorem abs_cprod_le (g : Eng) (a b : Nat) : |(g.cprod a b).1| ≤ 2 ^ 63 ∧ |(g.cprod a b).2| ≤ 2 ^ 63 := by
  have h1 := abs_prod_le g a b
  have h2 := abs_prod_le g (a + 1) (b + 1)
  have h3 := abs_prod_le g a (b + 1)
  have h4 := abs_prod_le g (a + 1) b
  refine ⟨(abs_sub _ _).trans ?_, (abs_add_le _ _).trans ?_⟩ <;> norm_num at * <;> omega

/-- Only the least word has no magnitude of 32 bits. -/
theorem satTo32_natAbs {x : Word} (h : x ≠ 0x80000000) : satTo 32 (x.toInt.natAbs : Int) = x.toInt.natAbs := by
  have h1 := x.le_toInt
  have h2 := x.toInt_lt
  have h3 : x.toInt ≠ -2147483648 := fun e => h (BitVec.eq_of_toInt_eq e)
  norm_num at h1 h2
  exact satTo_of_range (by omega) (by omega)

/-- An accumulator takes an exact result as it is, rule R64. -/
theorem accTo_exact {i : Int} (h : satTo 80 i = i) (n : Nat) : accTo n i = [.acc n (BitVec.ofInt 80 i)] := by simp [accTo, accSat, h]

/-- Outside 80 bits it takes the limit and sets SR.AOV. -/
theorem accTo_limit {i : Int} (h : satTo 80 i ≠ i) (n : Nat) : accTo n i = [.acc n (BitVec.ofInt 80 (satTo 80 i)), .aov] := by
  simp [accTo, accSat, h]

/-- Outside 32 bits a register takes the limit and SR.SAT is set, rules R65 and R66. -/
theorem satTo32_limit {i : Int} (h : satTo 32 i ≠ i) (d : Nat) : satTo32 false d i = [.d d (BitVec.ofInt 32 (satTo 32 i)), .sat] := by
  simp [satTo32, wordSat, h]

/-! ### The flags that a limit sets -/

theorem dr_setD_self (g : Eng) (r : Nat) (v : Word) : (g.setD r v).dr r = v := Tab.get_set_self _ _ _ _

theorem sr_setSp (g : Eng) (v : Word) : (g.setSp 10 v).sr = v &&& 0x3F := Tab.get_set_self _ _ _ _

/-- A flag of SR that an effect has set. -/
theorem sr_putBit_true (g : Eng) {i : Nat} (h : i < 6) : (g.setSp 10 (putBit g.sr i true)).sr.getLsbD i = true := by
  rw [sr_setSp, putBit, if_pos rfl]
  interval_cases i <;> simp

theorem State.AtControls.setfWait {s u : State} {e : Nat} {g : Eng} (h : s.AtControls u e g) (hg : g.setfWait = false) :
    (u.engOf e).setfWait = false := by
  rw [h.oneBundle.1, hg]

theorem engControls_cons {u : State} {e : Nat} (hw : (u.engOf e).setfWait = false) (x : EngEff) (l : List EngEff) :
    u.engControls e (x :: l) = (u.engControl e x).engControls e l := by
  rw [State.engControls, if_neg (by rw [hw]; decide)]

/-- A bundle whose one control operation is its last effect: the effects before it do nothing more. -/
theorem engControls_last {u : State} {e : Nat} {l : List EngEff} (hw : (u.engOf e).setfWait = false) (hl : ∀ y ∈ l, y.plain = true)
    (x : EngEff) : u.engControls e (l ++ [x]) = u.engControl e x := by
  induction l with
  | nil => exact engControls_cons hw x []
  | cons y l ih =>
    rw [List.cons_append, engControls_cons hw, control_plain (hl y List.mem_cons_self)]
    exact ih (fun z hz => hl z (List.mem_cons_of_mem _ hz))

theorem access_of_plain {x : EngEff} (h : x.plain = true) : x.access = false ∧ x ≠ .reserved ∧ x ≠ .yield ∧ x ≠ .rte := by
  cases x with
  | sat | aov | load | store | take | done | yield | rte | setf | reserved => cases h
  | _ => exact ⟨rfl, nofun, nofun, nofun⟩

/-- A command that is a bundle of plain effects and a control operation after them. -/
theorem controls_last {s : State} {e slot : Nat} {g : Eng} {c : Instr} {f : Eng → List EngEff} {l : List EngEff} {x : EngEff}
    (h : s.freshBundle e = true) (hg : s.engOf e = g) (hs : slot < 6) (hc : exec c s = .next (s.engSlot e slot true f))
    (hf : f g = l ++ [x]) (hl : ∀ y ∈ l, y.plain = true) (hx : x.access = false) (hr : x ≠ .reserved)
    (hy : x = .yield ∨ x = .rte → s.engState e = 4) :
    ∃ u, exec c s = .next (u.engControl e x) ∧ s.AtControls u e (g.ran (l ++ [x]) []) := by
  subst hg
  have hmem {y : EngEff} (hm : y ∈ l ++ [x]) : y ∈ l ∨ y = x := by simpa using hm
  obtain ⟨u, hu, hat⟩ := engSlot_atControls h hs hf
    (fun y hm => (hmem hm).elim (fun k => (access_of_plain (hl y k)).1) (fun k => k ▸ hx))
    (fun hm => (hmem hm).elim (fun k => (access_of_plain (hl _ k)).2.1 rfl) (fun k => hr k.symm))
    (fun hm => hy (hm.imp (fun k => ((hmem k).resolve_left (fun k => (access_of_plain (hl _ k)).2.2.1 rfl)).symm)
      (fun k => ((hmem k).resolve_left (fun k => (access_of_plain (hl _ k)).2.2.2 rfl)).symm)))
  refine ⟨u, ?_, hat⟩
  rw [hc, hu, engControls_last (hat.setfWait ((ran_setfWait _ _ _).trans (settled_of_fresh h).goes)) hl]

/-! ### A saturation and an accumulator limit -/

theorem State.Signals.engOf {s t : State} {l : List Nat} (h : s.Signals t l) (k : Nat) : t.engOf k = s.engOf k := by
  have he : t.eng = s.eng := by rw [h.2]
  unfold State.engOf
  rw [he]

theorem engSat_signals (u : State) (e : Nat) : u.Signals (u.engSat e) [Reg.ENG_STAT e, Reg.ENG_SAT_CNT e, Reg.PG_IRQ_RAW (0x40 + e)] :=
  ((setBit_writes _ _ _ _).trans (inc_writes _ _)).signals.trans (event_signals _ _ _ _)

theorem engSat_page (u : State) (e : Nat) : (u.engSat e).bit (Reg.ENG_STAT e) 5 = true ∧
    (u.engSat e).rdN (Reg.ENG_SAT_CNT e) = min (u.rdN (Reg.ENG_SAT_CNT e) + 1) 0xFFFFFFFF := by
  have hne : Reg.ENG_STAT e ≠ Reg.ENG_SAT_CNT e := by simp [Reg.ENG_STAT, Reg.ENG_SAT_CNT]
  unfold State.engSat
  refine ⟨?_, ?_⟩
  · rw [bit_of_rd (rd_event (by simp [Reg.ENG_STAT, Reg.PG_IRQ_RAW]; omega) _ _ _), bit_of_rd (rd_inc_ne hne _), bit_setBit_self (by decide)]
  · rw [rdN_of_rd (rd_event (by simp [Reg.ENG_SAT_CNT, Reg.PG_IRQ_RAW]; omega) _ _ _), rdN_inc, rdN_of_rd (rd_setBit_ne hne.symm _ _ _)]

theorem engAov_signals (u : State) (e : Nat) : u.Signals (u.engAov e) [Reg.ENG_STAT e, Reg.PG_IRQ_RAW (0x40 + e)] :=
  (setBit_writes _ _ _ _).signals.trans (event_signals _ _ _ _)

theorem engAov_bit (u : State) (e : Nat) : (u.engAov e).bit (Reg.ENG_STAT e) 6 = true := by
  unfold State.engAov
  rw [bit_of_rd (rd_event (by simp [Reg.ENG_STAT, Reg.PG_IRQ_RAW]; omega) _ _ _), bit_setBit_self (by decide)]

theorem ran_d_sat {g : Eng} (q : g.Settled) (r : Nat) (v : Word) :
    g.ran [.d r v, .sat] [] = (g.next.setD r v).setSp 10 (putBit g.sr srSAT true) := by rw [← q.eta]; rfl

theorem ran_acc_aov {g : Eng} (q : g.Settled) (n : Nat) (v : BitVec 80) :
    g.ran [.acc n v, .aov] [] = ({ g.next with acc := Tab.set (fun _ => 0) g.acc n v } : Eng).setSp 10 (putBit g.sr srAOV true) := by
  rw [← q.eta]; rfl

section
variable {s : State} {e slot : Nat} {g : Eng} {c : Instr} {f : Eng → List EngEff}
  (h : s.freshBundle e = true) (hg : s.engOf e = g) (hs : slot < 6) (hc : exec c s = .next (s.engSlot e slot true f))
include h hg hs hc

/-- A saturated result: the limit, SR.SAT, ENG_STAT.SAT and its count, rules R65, R66 and R85. -/
theorem completes_sat {d : Nat} {v : Word} (hf : f g = [.d d v, .sat]) : Completes c s (fun t =>
    (t.engOf e).dr d = v ∧ (t.engOf e).sr.getLsbD srSAT = true ∧ t.bit (Reg.ENG_STAT e) 5 = true ∧
      t.rdN (Reg.ENG_SAT_CNT e) = min (s.rdN (Reg.ENG_SAT_CNT e) + 1) 0xFFFFFFFF ∧ s.SameMemory t) := by
  obtain ⟨u, hu, hat⟩ := controls_last (l := [.d d v]) h hg hs hc hf (by simp [EngEff.plain]) rfl (by simp) (by simp)
  obtain ⟨heng, -, hregs, hmem⟩ := hat.oneBundle
  have hsig := engSat_signals u e
  obtain ⟨hbit, hcnt⟩ := engSat_page u e
  have hcnt' : u.rdN (Reg.ENG_SAT_CNT e) = s.rdN (Reg.ENG_SAT_CNT e) :=
    rdN_of_rd (hregs _ (by simp [Reg.ENG_SAT_CNT, Reg.ENG_BUSY_CNT, Reg.ENG_STALL_CNT, Reg.ENG_STAT]; omega))
  have hran : (u.engSat e).engOf e = (g.next.setD d v).setSp 10 (putBit g.sr srSAT true) :=
    ((hsig.engOf e).trans heng).trans (ran_d_sat (hg ▸ settled_of_fresh h) d v)
  rw [hcnt'] at hcnt
  refine ⟨u.engSat e, hu, ?_, ?_, hbit, hcnt, hmem.trans hsig.memory⟩
  · rw [hran]
    exact dr_setD_self g.next d v
  · rw [hran]
    exact sr_putBit_true (g.next.setD d v) (by decide)

/-- An accumulator limit: the limit, SR.AOV and ENG_STAT.AOV, rule R64. -/
theorem completes_aov {n : Nat} {v : BitVec 80} (hf : f g = [.acc n v, .aov]) : Completes c s (fun t =>
    (t.engOf e).accr n = v ∧ (t.engOf e).sr.getLsbD srAOV = true ∧ t.bit (Reg.ENG_STAT e) 6 = true ∧ s.SameMemory t) := by
  obtain ⟨u, hu, hat⟩ := controls_last (l := [.acc n v]) h hg hs hc hf (by simp [EngEff.plain]) rfl (by simp) (by simp)
  obtain ⟨heng, -, -, hmem⟩ := hat.oneBundle
  have hsig := engAov_signals u e
  have hran : (u.engAov e).engOf e =
      ({ g.next with acc := Tab.set (fun _ => 0) g.acc n v } : Eng).setSp 10 (putBit g.sr srAOV true) :=
    ((hsig.engOf e).trans heng).trans (ran_acc_aov (hg ▸ settled_of_fresh h) n v)
  refine ⟨u.engAov e, hu, ?_, ?_, engAov_bit u e, hmem.trans hsig.memory⟩
  · rw [hran]
    exact Tab.get_set_self _ _ _ _
  · rw [hran]
    exact sr_putBit_true ({ g.next with acc := Tab.set (fun _ => 0) g.acc n v } : Eng) (by decide)

end

/-- Settles O26: in range each command is a bundle of one data-register effect; out of range a saturation goes with it. -/
theorem engineSaturation : Obligations.EngineSaturation := by
  intro s e g b d r h hg
  have hm := slotMov_lt b
  refine ⟨fun hx => ?_, fun hx => ?_, fun i hx => ?_, fun hx => ?_, fun hx => ?_⟩
  · exact completes_d h hg hm rfl (satTo32_exact hx d.val).1
  · exact completes_d h hg hm rfl (satTo32_exact hx d.val).1
  · exact completes_d h hg hm rfl (satTo32_exact hx d.val).1
  · exact completes_d h hg hm rfl (satTo32_exact (satTo32_natAbs hx) d.val).1
  · exact completes_sat h hg hm rfl (satTo32_limit hx d.val)

/-- Settles O27: in range each command is a bundle of one accumulator effect; out of range the limit's flag goes with it. -/
theorem engineMultiplyAccumulate : Obligations.EngineMultiplyAccumulate := by
  intro s e g n m a b h hg
  have hm : slotMac < 6 := by decide
  refine ⟨?_, ?_, ?_, ?_, ?_, ?_, completes_acc h hg hm rfl rfl, ?_, fun k hk => ?_, ?_⟩
  · exact completes_acc h hg hm rfl (accTo_exact (satTo80_of_abs_le ((abs_prod_le g a.val b.val).trans (by norm_num))) n.val)
  · exact completes_acc h hg hm rfl (accTo_exact (satTo80_of_abs_le ((abs_prodU_le g a.val b.val).trans (by norm_num))) n.val)
  · rintro _ rfl hi
    exact completes_acc h hg hm rfl (accTo_exact hi n.val)
  · rintro _ rfl hi
    exact completes_acc h hg hm rfl (accTo_exact hi n.val)
  · rintro _ rfl hi
    exact completes_acc h hg hm rfl (accTo_exact hi n.val)
  · rintro _ rfl hi
    exact completes_acc h hg hm rfl (accTo_exact hi n.val)
  · rintro _ rfl hi
    exact completes_acc h hg hm rfl (accTo_exact hi n.val)
  · exact completes_acc h hg hm rfl (if_neg (by omega))
  · rintro _ rfl hi
    exact completes_aov h hg hm rfl (accTo_limit hi n.val)

/-! ### Quad and complex products -/

/-- A quad operation whose four results are in range writes each accumulator. -/
theorem quad_exact {x : Nat → Int} (h : ∀ i, i < 4 → satTo 80 (x i) = x i) :
    (List.range 4).flatMap (fun i => accTo i (x i)) = (List.range 4).map (fun i => EngEff.acc i (BitVec.ofInt 80 (x i))) := by
  have hx : ∀ i ∈ List.range 4, accTo i (x i) = [EngEff.acc i (BitVec.ofInt 80 (x i))] :=
    fun i hi => accTo_exact (h i (List.mem_range.mp hi)) i
  rw [List.flatMap_congr hx, List.map_eq_flatMap]

theorem accr_quad (g : Eng) (v : Nat → BitVec 80) {i : Nat} (hi : i < 4) :
    (g.ran ((List.range 4).map (fun k => EngEff.acc k (v k))) []).accr i = v i := by
  rw [show List.range 4 = [0, 1, 2, 3] from rfl]
  simp only [Eng.ran, Eng.accr, List.map_cons, List.map_nil, List.foldl_cons, List.foldl_nil, Eng.apply]
  interval_cases i <;> simp [Tab.get_set]

theorem accr_acc_acc (g : Eng) (n : Nat) (v w : BitVec 80) :
    (g.ran [.acc n v, .acc (n + 1) w] []).accr n = v ∧ (g.ran [.acc n v, .acc (n + 1) w] []).accr (n + 1) = w := by
  simp [Eng.ran, Eng.accr, Eng.apply, Tab.get_set]

section
variable {s : State} {e slot : Nat} {g : Eng} {c : Instr} {f : Eng → List EngEff}
  (h : s.freshBundle e = true) (hg : s.engOf e = g) (hs : slot < 6) (hc : exec c s = .next (s.engSlot e slot true f))
include h hg hs hc

theorem completes_quad {x : Nat → Int} (hx : ∀ i, i < 4 → satTo 80 (x i) = x i)
    (hf : f g = (List.range 4).flatMap (fun i => accTo i (x i))) :
    Completes c s (fun t => s.OneBundle t e (t.engOf e) ∧ ∀ i, i < 4 → (t.engOf e).accr i = BitVec.ofInt 80 (x i)) := by
  rw [quad_exact hx] at hf
  obtain ⟨t, ht, hb, -⟩ := completes_plain h hg hs hc hf (by simp [EngEff.plain])
  have heng := hb.1
  rw [← heng] at hb
  refine ⟨t, ht, hb, fun i hi => ?_⟩
  rw [heng]
  exact accr_quad g (fun k => BitVec.ofInt 80 (x k)) hi

/-- A complex result whose two parts are in range. -/
theorem completes_complex {n : Nat} {x y : Int} (hx : satTo 80 x = x) (hy : satTo 80 y = y) (hf : f g = accTo n x ++ accTo (n + 1) y) :
    Completes c s (fun t => (t.engOf e).accr n = BitVec.ofInt 80 x ∧ (t.engOf e).accr (n + 1) = BitVec.ofInt 80 y ∧
      s.OneBundle t e (t.engOf e)) := by
  rw [accTo_exact hx, accTo_exact hy] at hf
  obtain ⟨t, ht, hb, -⟩ := completes_plain h hg hs hc hf (by simp [EngEff.plain])
  have heng := hb.1
  obtain ⟨hre, him⟩ := accr_acc_acc g n (BitVec.ofInt 80 x) (BitVec.ofInt 80 y)
  rw [← heng] at hb
  refine ⟨t, ht, ?_, ?_, hb⟩
  · rw [heng]
    exact hre
  · rw [heng]
    exact him

end

theorem even3_even {n a b : Nat} (hn : n % 2 = 0) (ha : a % 2 = 0) (hb : b % 2 = 0) : even3 n a b = true := by simp [even3, hn, ha, hb]

/-- Settles O28: each command is a bundle of four, or two, accumulator effects. -/
theorem engineQuadAndComplex : Obligations.EngineQuadAndComplex := by
  intro s e g n a b h hg
  have hm : slotMac < 6 := by decide
  refine ⟨fun hb => ?_, fun hb hx => ?_, fun hn ha hb => ?_, fun hn ha hb => ?_, fun hn ha hb => ?_⟩
  · have hx (i : Nat) (_ : i < 4) : satTo 80 (g.prod a.val (b.val + i)) = g.prod a.val (b.val + i) :=
      satTo80_of_abs_le ((abs_prod_le g a.val (b.val + i)).trans (by norm_num))
    exact completes_quad h hg hm rfl hx (if_pos hb)
  · exact completes_quad h hg hm rfl hx (if_pos hb)
  · obtain ⟨hre, him⟩ := abs_cprod_le g a.val b.val
    exact completes_complex h hg hm rfl (satTo80_of_abs_le (hre.trans (by norm_num))) (satTo80_of_abs_le (him.trans (by norm_num)))
      (if_pos (even3_even hn ha hb))
  · rintro _ _ rfl rfl hx hy
    exact completes_complex h hg hm rfl hx hy (if_pos (even3_even hn ha hb))
  · rintro _ _ rfl rfl hx hy
    exact completes_complex h hg hm rfl hx hy (if_pos (even3_even hn ha hb))

end Sys2Proof.Machine
end

section
/-! SUPPORT. Loads and stores of an engine's own data SRAM (O32). -/

namespace Sys2Proof.Machine

/-- The bytes of an access. -/
abbrev accessLen (wide : Bool) : Nat := if wide then 8 else 4

/-! ### Without a known uncorrectable word -/

theorem ueIn_nil {s : State} (h : s.integ.ue = []) (mem a n : Nat) : s.ueIn mem a n = false := by unfold State.ueIn; rw [h]; rfl

theorem eccFails_clean {s : State} (h : s.integ.ue = []) (mem a n : Nat) : s.eccFails mem a n .clean = false := ueIn_nil h mem a n

theorem eccRead_clean {s : State} (h : s.integ.ue = []) (mem a : Nat) : s.eccRead mem a false .clean = s := by
  simp [State.eccRead, ueIn_nil h]

theorem ueReplaced_nil {s : State} (h : s.integ.ue = []) (mem a n : Nat) : s.ueReplaced mem a n = s := by simp [State.ueReplaced, h]

/-! ### One access of the own data SRAM and plain effects after it -/

theorem accessFault_load {u : State} {a : Nat} {wide : Bool} (hu : u.integ.ue = []) (ha : a < 0x20000) (hal : a % accessLen wide = 0)
    (e pc r : Nat) : u.accessFault e pc (.load r a wide .clean) = none := by
  simp only [State.accessFault, hal, ha, eccFails_clean hu, ne_eq, not_true_eq_false, if_false, if_true, Bool.false_eq_true]

theorem accessFault_store {u : State} {a : Nat} {wide : Bool} (hu : u.integ.ue = []) (ha : a < 0x20000) (hal : a % accessLen wide = 0)
    (e pc : Nat) (v : BitVec 64) : u.accessFault e pc (.store a wide v .clean) = none := by
  simp only [State.accessFault, hal, ha, eccFails_clean hu, ne_eq, not_true_eq_false, if_false, if_true, Bool.and_false, Bool.false_eq_true]

theorem firstFault_cons {u : State} {e pc : Nat} {x : EngEff} {l : List EngEff} (hx : u.accessFault e pc x = none)
    (hl : ∀ y ∈ l, y.plain = true) : u.firstFault e pc (x :: l) = none := by
  unfold State.firstFault
  rw [hx]
  exact firstFault_plain hl _ _ _

theorem recordAccess_load {u : State} (hu : u.integ.ue = []) (e r a : Nat) (wide : Bool) :
    u.recordAccess e (.load r a wide .clean) = u := by
  simp [State.recordAccess, eccRead_clean hu]

theorem recordAccess_store {u : State} (hu : u.integ.ue = []) (e a : Nat) (wide : Bool) (v : BitVec 64) :
    u.recordAccess e (.store a wide v .clean) = u := by
  simp [State.recordAccess, eccRead_clean hu]

theorem slot_plain (slot : Nat) {l : List EngEff} (hl : ∀ y ∈ l, y.plain = true) : ∀ p ∈ l.map (fun x => (slot, x)), p.2.plain = true := by
  intro p hp
  obtain ⟨x, hx, rfl⟩ := List.mem_map.mp hp
  exact hl x hx

theorem accesses_load {u : State} {a : Nat} (hu : u.integ.ue = []) (ha : a < 0x20000) (e slot r : Nat) (wide : Bool) {l : List EngEff}
    (hl : ∀ y ∈ l, y.plain = true) : u.accesses e ((EngEff.load r a wide .clean :: l).map (fun x => (slot, x))) =
      (u, (loadWrites r wide (u.data.getN (0x20000 * e + a) (accessLen wide))).map (fun p => (slot, p.1, p.2))) := by
  rw [List.map_cons]
  unfold State.accesses
  dsimp only
  rw [recordAccess_load hu]
  unfold State.engRead
  rw [if_pos ha]
  dsimp only
  rw [accesses_plain (slot_plain slot hl), List.append_nil]

/-- The state with `n` bytes of engine `e`'s data SRAM written. -/
def State.storeData (u : State) (e a n v : Nat) : State := { u with data := u.data.setN (0x20000 * e + a) n v }

theorem engWrite_own {u : State} {a : Nat} (hu : u.integ.ue = []) (ha : a < 0x20000) (e n v : Nat) : u.engWrite e a n v = u.storeData e a n v := by
  unfold State.engWrite
  rw [if_pos ha]
  exact ueReplaced_nil (s := u.storeData e a n v) hu _ _ _

theorem accesses_store {u : State} {a : Nat} (hu : u.integ.ue = []) (ha : a < 0x20000) (e slot : Nat) (wide : Bool) (v : BitVec 64)
    {l : List EngEff} (hl : ∀ y ∈ l, y.plain = true) : u.accesses e ((EngEff.store a wide v .clean :: l).map (fun x => (slot, x))) =
      (u.storeData e a (accessLen wide) v.toNat, []) := by
  rw [List.map_cons]
  unfold State.accesses
  dsimp only
  rw [recordAccess_store hu, engWrite_own hu ha, accesses_plain (slot_plain slot hl)]

theorem stall_load {a : Nat} (ha : a < 0x20000) (r : Nat) (wide : Bool) (ecc : Ecc) {l : List EngEff} (hl : ∀ y ∈ l, y.plain = true)
    (k : Nat) : stallCycles k (.load r a wide ecc :: l) = (0, k) := by
  unfold stallCycles
  dsimp only
  rw [if_neg (by omega), if_neg (by omega), stall_plain hl]

/-- The own effects of a bundle with an access take no part in its control operations. -/
theorem engControls_access {u : State} {e : Nat} {x : EngEff} {l : List EngEff} (hx : x.access = true) (hl : ∀ y ∈ l, y.plain = true)
    (hw : (u.engOf e).setfWait = false) : u.engControls e (x :: l) = u := by
  have hnone : u.engControl e x = u := by
    cases x with
    | load | store => rfl
    | _ => cases hx
  rw [engControls_cons hw, hnone, controls_plain hl hw]

/-! ### What the bundle leaves of the engine -/

theorem modify_plain (g : Eng) (x mode w : Nat) : ∀ y ∈ g.modify x mode w, y.plain = true := by
  unfold Eng.modify
  split <;> simp [EngEff.plain]

/-- The registers that a bundle loads stand with those that its effects write late. -/
theorem ran_loads {g g' : Eng} {effs : List EngEff} (hr : g.ran effs [] = g') (hl : effs.filterMap EngEff.later = [])
    (loads : List (Nat × Word)) : g.ran effs loads = { g' with late := loads } := by
  subst hr
  unfold Eng.ran
  rw [hl, List.append_nil]

/-- An access with its post-modify, rules R60 to R62. -/
theorem ran_access {g : Eng} (q : g.Settled) {y : EngEff} (hy : y.access = true) (x mode w : Nat) (loads : List (Nat × Word)) :
    g.ran (y :: g.modify x mode w) loads =
      { (if mode = 0 then g.next else g.next.setAx x (g.postModify x mode w)) with late := loads } := by
  refine ran_loads ?_ ?_ loads
  · unfold Eng.modify
    cases y with
    | load | store =>
      split
      · rw [← q.eta]; rfl
      · rw [← q.eta]; rfl
    | _ => cases hy
  · unfold Eng.modify
    cases y with
    | load | store => split <;> rfl
    | _ => cases hy

/-- An access and plain effects after it hold no other effect. -/
theorem not_mem_access {x y : EngEff} {l : List EngEff} (hx : x.access = true) (hl : ∀ z ∈ l, z.plain = true) (hya : y.access = false)
    (hyp : y.plain = false) : y ∉ x :: l := by
  intro hm
  rcases List.mem_cons.mp hm with rfl | hm
  · rw [hx] at hya
    cases hya
  · rw [hl y hm] at hyp
    cases hyp

/-- A bundle with one access, made without fault, and plain effects after it. -/
theorem engSlot_access {s u : State} {e slot : Nat} {f : Eng → List EngEff} {x : EngEff} {l : List EngEff} {loads : List (Nat × Word)}
    (h : s.freshBundle e = true) (hs : slot < 6) (hf : f (s.engOf e) = x :: l) (hx : x.access = true) (hl : ∀ y ∈ l, y.plain = true)
    (hn : ∀ u : State, u.integ = s.integ → u.accessFault e (s.engOf e).pc x = none)
    (ha : (s.opened e slot (x :: l)).accesses e ((x :: l).map (fun y => (slot, y))) = (u, loads.map (fun p => (slot, p.1, p.2))))
    (hu : u.engOf e = (s.opened e slot (x :: l)).engOf e) :
    s.engSlot e slot true f = u.closed e ((s.engOf e).ran (x :: l) loads) ∧
      (u.closed e ((s.engOf e).ran (x :: l) loads)).engOf e = (s.engOf e).ran (x :: l) loads := by
  have hgoes : ((s.engOf e).ran (x :: l) loads).setfWait = false := (ran_setfWait _ _ _).trans (settled_of_fresh h).goes
  have hnf := bundleFault_fresh slot h (not_mem_access hx hl rfl rfl)
    (fun hm => absurd hm (not_or.mpr ⟨not_mem_access hx hl rfl rfl, not_mem_access hx hl rfl rfl⟩))
    (fun u hu => firstFault_cons (hn u hu) hl)
  have hopen : (u.engOf e).setfWait = ((s.engOf e).ran (x :: l) loads).setfWait := by
    rw [hgoes, hu, opened_engOf, if_pos rfl]
    exact (settled_of_fresh h).goes
  have hclosed : (u.closed e ((s.engOf e).ran (x :: l) loads)).engOf e = (s.engOf e).ran (x :: l) loads := by
    rw [closed_engOf hopen, if_pos rfl]
  refine ⟨?_, hclosed⟩
  rw [engSlot_eq h hs hf hnf ha]
  exact engControls_access hx hl (by rw [hclosed, hgoes])

section
variable {s : State} {e slot : Nat} {g : Eng} {c : Instr} {f : Eng → List EngEff} {a x mode w : Nat}
  (h : s.freshBundle e = true) (hg : s.engOf e = g) (hs : slot < 6) (hc : exec c s = .next (s.engSlot e slot true f))
  (hue : s.integ.ue = []) (ha : a < 0x20000)
include h hg hs hc hue ha

/-- A load of the own data SRAM: the bytes read are on the way to their registers. -/
theorem completes_load {r : Nat} {wide : Bool} (hal : a % accessLen wide = 0) (hf : f g = .load r a wide .clean :: g.modify x mode w) :
    Completes c s (fun t => s.OneBundle t e { (if mode = 0 then g.next else g.next.setAx x (g.postModify x mode w)) with
      late := loadWrites r wide (s.data.getN (0x20000 * e + a) (accessLen wide)) }) := by
  subst hg
  have q := settled_of_fresh h
  have hl := modify_plain (s.engOf e) x mode w
  obtain ⟨hslot, -⟩ := engSlot_access h hs hf rfl hl (fun u hu => accessFault_load (hu ▸ hue) ha hal _ _ _)
    (accesses_load (u := s.opened e slot _) hue ha e slot r wide hl) rfl
  have hone := closed_oneBundle slot h (congrArg Prod.fst (stall_load ha r wide .clean hl s.free))
    ((ran_setfWait (s.engOf e) (.load r a wide .clean :: (s.engOf e).modify x mode w)
      (loadWrites r wide (s.data.getN (0x20000 * e + a) (accessLen wide)))).trans q.goes)
  refine ⟨_, hc.trans (congrArg _ hslot), ?_⟩
  rw [← ran_access q (y := .load r a wide .clean) rfl]
  exact hone

/-- A store to the own data SRAM: its bytes change and nothing else of the memories. -/
theorem completes_store {wide : Bool} {v : BitVec 64} (hal : a % accessLen wide = 0)
    (hf : f g = .store a wide v .clean :: g.modify x mode w) :
    Completes c s (fun t => t.engOf e = (if mode = 0 then g.next else g.next.setAx x (g.postModify x mode w)) ∧
      t.data = s.data.setN (0x20000 * e + a) (accessLen wide) v.toNat ∧ t.cell = s.cell ∧ t.dram = s.dram ∧ t.code = s.code) := by
  subst hg
  have q := settled_of_fresh h
  have hl := modify_plain (s.engOf e) x mode w
  obtain ⟨hslot, heng⟩ := engSlot_access (loads := []) h hs hf rfl hl (fun u hu => accessFault_store (hu ▸ hue) ha hal _ _ _)
    (accesses_store (u := s.opened e slot _) hue ha e slot wide v hl) rfl
  refine ⟨_, hc.trans (congrArg _ hslot), heng.trans ?_, rfl, rfl, rfl, rfl⟩
  rw [ran_access q rfl]
  have hlate : (if mode = 0 then (s.engOf e).next else (s.engOf e).next.setAx x ((s.engOf e).postModify x mode w)).late = [] := by
    split <;> exact q.late
  rw [← hlate]

end

/-- Settles O32: each command is a bundle of one access, without fault, and its post-modify. -/
theorem engineLoadsAndStores : Obligations.EngineLoadsAndStores := by
  rintro s e g b d x m a h hg rfl ha hue
  have hm := slotMov_lt b
  have heven (hd : d.val % 2 = 0) {l : List EngEff} : evenPair [d.val] l = l := evenPair_even (by simpa using hd)
  refine ⟨fun hal => ?_, fun hal hd => ?_, fun hal => ?_, fun hal hd => ?_⟩
  · exact completes_load (wide := false) h hg hm rfl hue ha hal rfl
  · exact completes_load (wide := true) h hg hm rfl hue ha hal (heven hd)
  · have hv : ((g.dr d.val).setWidth 64).toNat = (g.dr d.val).toNat := BitVec.toNat_setWidth_of_le (by decide)
    have k := completes_store (c := .st e b true d x m .clean) (wide := false) h hg hm rfl hue ha hal rfl
    rw [hv] at k
    exact k
  · exact completes_store (wide := true) h hg hm rfl hue ha hal (heven hd)

end Sys2Proof.Machine
end

section
/-! SUPPORT. What reports to the Dealer leave of an engine, and the contexts of tasks (O33). -/

namespace Sys2Proof.Machine

/-! ### Context fields -/

theorem bitsOf_w32 {hi : Nat} (h : hi < 32) (n lo : Nat) : bitsOf (w32 n).toNat hi lo = bitsOf n hi lo := by
  apply Nat.eq_of_testBit_eq
  intro i
  rw [testBit_bitsOf, testBit_bitsOf, w32, BitVec.toNat_ofNat, Nat.testBit_mod_two_pow]
  by_cases hi' : i < hi + 1 - lo
  · simp [show i + lo < 32 by omega]
  · simp [hi']

theorem ctxW_setCtxW (s : State) (t w t' w' : Nat) (v : Word) :
    (s.setCtxW t w v).ctxW t' w' = if 16 * t' + w' = 16 * t + w then v else s.ctxW t' w' := Tab.get_set _ _ _ _ _

/-- A context field just written. -/
theorem ctxF_setCtxF {hi lo : Nat} (h : lo ≤ hi) (hb : hi < 32) (s : State) (t w v : Nat) :
    (s.setCtxF t w hi lo v).ctxF t w hi lo = v % 2 ^ (hi + 1 - lo) := by
  unfold State.ctxF State.setCtxF
  rw [ctxW_setCtxW, if_pos rfl, bitsOf_w32 hb, bitsOf_withBits h]

/-- A field of another word of the context. -/
theorem ctxF_setCtxF_ne {w w' : Nat} (h : w' ≠ w) (s : State) (t hi lo v hi' lo' : Nat) :
    (s.setCtxF t w hi lo v).ctxF t w' hi' lo' = s.ctxF t w' hi' lo' := by
  unfold State.ctxF State.setCtxF
  rw [ctxW_setCtxW, if_neg (by omega)]

theorem ctxF_of_ctx {s t : State} (h : t.dlr.ctx = s.dlr.ctx) (k w hi lo : Nat) : t.ctxF k w hi lo = s.ctxF k w hi lo := by
  unfold State.ctxF State.ctxW
  rw [h]

theorem taskState_setTaskState (s : State) (t : Nat) {st : Nat} (h : st < 16) : (s.setTaskState t st).taskState t = st :=
  (ctxF_setCtxF (by decide) (by decide) s t 15 st).trans (Nat.mod_eq_of_lt h)

theorem taskRt_of_tasks {s t : State} (h : t.dlr.tasks = s.dlr.tasks) (k : Nat) : t.taskRt k = s.taskRt k := by
  unfold State.taskRt
  rw [h]

theorem taskRt_setTaskRt (s : State) (k : Nat) (r : DlrTask) : (s.setTaskRt k r).taskRt k = r := Tab.get_set_self _ _ _ _

/-! ### What leaves an engine's page as it was -/

/-- The engines, the memories, and ENG_CTRL and ENG_STAT of engine `e` stay. -/
structure State.KeepsEngine (s t : State) (e : Nat) : Prop where
  ctrl : t.rd (Reg.ENG_CTRL e) = s.rd (Reg.ENG_CTRL e)
  stat : t.rd (Reg.ENG_STAT e) = s.rd (Reg.ENG_STAT e)
  eng : t.eng = s.eng
  memory : s.SameMemory t

theorem State.KeepsEngine.trans {s t u : State} {e : Nat} (h : s.KeepsEngine t e) (k : t.KeepsEngine u e) : s.KeepsEngine u e :=
  ⟨k.ctrl.trans h.ctrl, k.stat.trans h.stat, k.eng.trans h.eng, h.memory.trans k.memory⟩

theorem State.KeepsEngine.engOf {s t : State} {e : Nat} (h : s.KeepsEngine t e) (k : Nat) : t.engOf k = s.engOf k := by
  unfold State.engOf
  rw [h.eng]

theorem State.KeepsEngine.engState {s t : State} {e : Nat} (h : s.KeepsEngine t e) : t.engState e = s.engState e :=
  fld_of_rd h.stat _ _

theorem State.KeepsEngine.enabled {s t : State} {e : Nat} (h : s.KeepsEngine t e) :
    t.bit (Reg.ENG_CTRL e) 0 = s.bit (Reg.ENG_CTRL e) 0 := bit_of_rd h.ctrl _

theorem State.Signals.eng {s t : State} {l : List Nat} (h : s.Signals t l) : t.eng = s.eng := by rw [h.2]
theorem State.Signals.dlr {s t : State} {l : List Nat} (h : s.Signals t l) : t.dlr = s.dlr := by rw [h.2]

theorem State.Signals.keepsEngine {s t : State} {l : List Nat} (h : s.Signals t l) {e : Nat} (hc : Reg.ENG_CTRL e ∉ l)
    (hs : Reg.ENG_STAT e ∉ l) : s.KeepsEngine t e :=
  ⟨h.1 _ hc, h.1 _ hs, h.eng, h.memory⟩

theorem setFifo_signals (s : State) (f : TraceFifo) : s.Signals (s.setFifo f) [] := ⟨fun _ _ => rfl, rfl⟩

theorem stageGap_signals (s : State) (src : Nat) : s.Signals (s.stageGap src) [Reg.EVT_TRC_GAP_CNT] := by
  unfold State.stageGap
  dsimp only
  split
  · exact (setFifo_signals _ _).trans (inc_writes _ _).signals
  · exact (State.Writes.refl s).signals.mono (by simp)

theorem stageRec_signals (s : State) (src typ : Nat) (w4 w5 w6 w7 : Word) :
    s.Signals (s.stageRec src typ w4 w5 w6 w7) [Reg.EVT_TRC_DROP_CNT src, Reg.EVT_STAT, Reg.PG_IRQ_RAW Page.EVT] := by
  unfold State.stageRec
  dsimp only
  split
  · exact (setFifo_signals _ _).mono (by simp)
  · exact (((setFifo_signals _ _).trans (inc_writes _ _).signals).trans (setBit_writes _ _ _ _).signals).trans
      (raiseLine_raises _ _ _).signals

theorem trace_signals (s : State) (src typ : Nat) (w4 w5 w6 w7 : Word) : s.Signals (s.trace src typ w4 w5 w6 w7) (traceRegs src) := by
  unfold State.trace
  split
  · exact ((stageGap_signals _ _).trans (stageRec_signals _ _ _ _ _ _ _)).mono (by simp [traceRegs])
  · exact (State.Writes.refl s).signals.mono (by simp)

theorem engTrace_signals (s : State) (e typ task : Nat) : s.Signals (s.engTrace e typ task) (traceRegs e) := by
  unfold State.engTrace
  split
  · exact trace_signals _ _ _ _ _ _ _
  · exact (State.Writes.refl s).signals.mono (by simp)

theorem engTrace_keepsEngine (s : State) (e typ task : Nat) : s.KeepsEngine (s.engTrace e typ task) e :=
  (engTrace_signals s e typ task).keepsEngine
    (by simp [traceRegs, Reg.ENG_CTRL, Reg.EVT_TRC_DROP_CNT, Reg.EVT_TRC_GAP_CNT, Reg.EVT_STAT, Reg.PG_IRQ_RAW, Page.EVT]; omega)
    (by simp [traceRegs, Reg.ENG_STAT, Reg.EVT_TRC_DROP_CNT, Reg.EVT_TRC_GAP_CNT, Reg.EVT_STAT, Reg.PG_IRQ_RAW, Page.EVT]; omega)

/-- A write of a register of another page. -/
theorem State.Writes.keepsEngine {s t : State} {a e : Nat} (h : s.Writes t [a]) (ha : a < 0x40040000) : s.KeepsEngine t e :=
  h.signals.keepsEngine (by simp [Reg.ENG_CTRL]; omega) (by simp [Reg.ENG_STAT]; omega)

/-- Nothing differs but what the Dealer keeps. -/
def State.OnlyDlr (s t : State) : Prop := t = { s with dlr := t.dlr }

theorem State.OnlyDlr.trans {s t u : State} (h : s.OnlyDlr t) (k : t.OnlyDlr u) : s.OnlyDlr u := by
  unfold State.OnlyDlr at *
  rw [k, h]

theorem State.OnlyDlr.keepsEngine {s t : State} (h : s.OnlyDlr t) (e : Nat) : s.KeepsEngine t e := by
  rw [h]
  exact ⟨rfl, rfl, rfl, rfl, rfl, rfl, rfl, rfl⟩

theorem setCtxF_onlyDlr (s : State) (t w hi lo v : Nat) : s.OnlyDlr (s.setCtxF t w hi lo v) := rfl
theorem setTaskState_onlyDlr (s : State) (t st : Nat) : s.OnlyDlr (s.setTaskState t st) := setCtxF_onlyDlr _ _ _ _ _ _
theorem setTaskState_tasks (s : State) (t st : Nat) : (s.setTaskState t st).dlr.tasks = s.dlr.tasks := rfl
theorem setTaskRt_ctx (s : State) (t : Nat) (r : DlrTask) : (s.setTaskRt t r).dlr.ctx = s.dlr.ctx := rfl
theorem setTaskRt_onlyDlr (s : State) (t : Nat) (r : DlrTask) : s.OnlyDlr (s.setTaskRt t r) := rfl

/-- The count of the Dealer's cycles, which every end of a cycle takes on. -/
def State.nextClock (s : State) : State := { s with dlr := { s.dlr with clock := s.dlr.clock + 1 } }

theorem kittyStat_writes (s : State) : s.nextClock.Writes s.kittyStat [Reg.DLR_STAT] := setFld_writes _ _ _ _ _

theorem kittyStat_keepsEngine (s : State) (e : Nat) : s.KeepsEngine s.kittyStat e :=
  State.KeepsEngine.trans (State.OnlyDlr.keepsEngine (t := s.nextClock) rfl e) ((kittyStat_writes s).keepsEngine (by norm_num))

theorem kittyStat_dlr (s : State) : s.kittyStat.dlr = s.nextClock.dlr := (kittyStat_writes s).signals.dlr

theorem kittyStat_ctx (s : State) : s.kittyStat.dlr.ctx = s.dlr.ctx ∧ s.kittyStat.dlr.tasks = s.dlr.tasks := by
  rw [kittyStat_dlr]
  exact ⟨rfl, rfl⟩

/-! ### Reports -/

/-- Its run counted and its round noted: what a completion notes of a task before its state changes. -/
def State.noteRun (s : State) (k : Nat) : State :=
  let s1 := s.setCtxF k 15 31 16 (s.ctxF k 15 31 16 + 1)
  s1.setTaskRt k { s1.taskRt k with round := s.ctxF k 7 17 17 == 1 }

theorem noteRun_onlyDlr (s : State) (k : Nat) : s.OnlyDlr (s.noteRun k) := (setCtxF_onlyDlr _ _ _ _ _ _).trans (setTaskRt_onlyDlr _ _ _)

theorem noteRun_round (s : State) (k : Nat) : ((s.noteRun k).taskRt k).round = (s.ctxF k 7 17 17 == 1) := by
  unfold State.noteRun
  dsimp only
  rw [taskRt_setTaskRt]

theorem noteRun_ctxF (s : State) (k hi lo : Nat) {w : Nat} (h : w ≠ 15) : (s.noteRun k).ctxF k w hi lo = s.ctxF k w hi lo := by
  unfold State.noteRun
  dsimp only
  rw [ctxF_of_ctx (setTaskRt_ctx _ _ _), ctxF_setCtxF_ne h]

/-- A completion of a running phase task without a cancel pending and without a successor, rule R90. -/
theorem reportDone_eq {s : State} {k : Nat} (hrun : s.taskState k = tsRunning) (hcan : s.ctxF k 15 15 15 = 0) (hnext : s.ctxF k 9 14 14 = 0)
    (hph : s.taskPhase k = 2) : s.reportDone k = (s.noteRun k).setTaskState k tsDone := by
  have hflag : ((s.noteRun k).setTaskState k tsDone).ctxF k 9 14 14 = 0 := by
    unfold State.setTaskState
    rw [ctxF_setCtxF_ne (by decide), noteRun_ctxF s k 14 14 (by decide), hnext]
  have hnone : ((s.noteRun k).setTaskState k tsDone).nextFlag k = (s.noteRun k).setTaskState k tsDone := if_neg (by omega)
  unfold State.reportDone
  rw [if_neg (by simp [hrun])]
  dsimp only
  rw [if_neg (by omega), if_neg (by omega)]
  exact hnone

/-- What a completion leaves of its task and of the engines. -/
theorem reportDone_clause {s : State} {k : Nat} (hrun : s.taskState k = tsRunning) (hcan : s.ctxF k 15 15 15 = 0)
    (hnext : s.ctxF k 9 14 14 = 0) (hph : s.taskPhase k = 2) (e : Nat) :
    (s.reportDone k).taskState k = tsDone ∧ ((s.reportDone k).taskRt k).round = (s.ctxF k 7 17 17 == 1) ∧
      s.KeepsEngine (s.reportDone k) e := by
  rw [reportDone_eq hrun hcan hnext hph]
  refine ⟨taskState_setTaskState _ _ (by decide), ?_, ((noteRun_onlyDlr s k).trans (setTaskState_onlyDlr _ _ _)).keepsEngine e⟩
  rw [taskRt_of_tasks (setTaskState_tasks _ _ _), noteRun_round]

theorem toQueue_onlyDlr (s : State) (k st : Nat) : s.OnlyDlr (s.toQueue k st) :=
  (setTaskState_onlyDlr _ _ _).trans (setTaskRt_onlyDlr _ _ _)

theorem toQueue_taskState (s : State) (k : Nat) {st : Nat} (h : st < 16) : (s.toQueue k st).taskState k = st := taskState_setTaskState s k h

theorem enqueue_taskState (s : State) (k : Nat) {st : Nat} (h : st < 16) : (s.enqueue k st).taskState k = st := by
  unfold State.enqueue
  dsimp only
  split
  · exact toQueue_taskState s k h
  · exact toQueue_taskState s k h

theorem enqueue_keepsEngine (s : State) (k st e : Nat) : s.KeepsEngine (s.enqueue k st) e := by
  have hq := (toQueue_onlyDlr s k st).keepsEngine e
  unfold State.enqueue
  dsimp only
  split
  · exact hq.trans ((inc_writes _ _).keepsEngine (by norm_num))
  · exact hq

/-- A YIELD of a running PHASE = 7 task without a cancel pending, rules R90 and R103. -/
theorem reportYield_clause {s : State} {k : Nat} (hrun : s.taskState k = tsRunning) (hcan : s.ctxF k 15 15 15 = 0) (hph : s.taskPhase k = 7)
    (e : Nat) : (s.reportYield k).taskState k = tsPreempted ∧ s.KeepsEngine (s.reportYield k) e := by
  have heq : s.reportYield k = (s.inc Reg.DLR_PRE_CNT).enqueue k tsPreempted := by
    unfold State.reportYield
    rw [if_neg (by simp [hrun])]
    dsimp only
    rw [if_neg (by omega), if_pos hph]
  rw [heq]
  exact ⟨enqueue_taskState _ _ (by decide), ((inc_writes _ _).keepsEngine (by norm_num)).trans (enqueue_keepsEngine _ _ _ _)⟩

/-! ### The control operations of one engine -/

theorem State.AtControls.dlr {s u : State} {e : Nat} {g : Eng} (h : s.AtControls u e g) : u.dlr = s.dlr := by rw [h.same]

theorem State.AtControls.enabled {s u : State} {e : Nat} {g : Eng} (h : s.AtControls u e g) :
    u.bit (Reg.ENG_CTRL e) 0 = s.bit (Reg.ENG_CTRL e) 0 :=
  bit_of_rd (h.oneBundle.2.2.1 _ (by simp [Reg.ENG_CTRL, Reg.ENG_BUSY_CNT, Reg.ENG_STALL_CNT, Reg.ENG_STAT]; omega)) 0

theorem engState_setEngState (s : State) (e : Nat) {st : Nat} (h : st < 16) : (s.setEngState e st).engState e = st :=
  (fld_setFld (by decide) (by decide) s _ st).trans (Nat.mod_eq_of_lt h)

/-- The engine's task is off its hands. -/
def State.dropTask (s : State) (e : Nat) : State := s.setEng e { s.engOf e with task := none, preReq := false }

theorem dropTask_engOf (s : State) (e : Nat) : (s.dropTask e).engOf e = { s.engOf e with task := none, preReq := false } := by
  unfold State.dropTask
  rw [engOf_setEng, if_pos rfl]

/-- An enabled engine hands its task back as complete. -/
theorem engDone_eq {u : State} {e k : Nat} (ht : (u.engOf e).task = some k) (hen : u.bit (Reg.ENG_CTRL e) 0 = true)
    (hk : (u.dropTask e).KeepsEngine ((u.dropTask e).reportDone k) e) :
    u.engDone e = (((u.dropTask e).reportDone k).engTrace e 2 k).kittyStat := by
  have hbit : (((u.dropTask e).reportDone k).engTrace e 2 k).bit (Reg.ENG_CTRL e) 0 = true :=
    (hk.trans (engTrace_keepsEngine _ e 2 k)).enabled.trans hen
  unfold State.engDone
  dsimp only
  rw [ht]
  exact congrArg State.kittyStat (if_pos hbit)

/-- An enabled engine waits for a task. -/
theorem engWait_eq {u : State} {e : Nat} (hen : u.bit (Reg.ENG_CTRL e) 0 = true) :
    u.engWait e = (u.setEng e { (u.engOf e).landed with preReq := false }).setEngState e 2 := by
  unfold State.engWait
  dsimp only
  rw [if_pos (show State.bit (u.setEng e _) _ 0 = true from hen)]

end Sys2Proof.Machine
end

section
/-! SUPPORT. The operations of an engine that reach the Dealer, and the return from the trap (O33). -/

namespace Sys2Proof.Machine

/-! ### What their bundles leave of the engine -/

/-- An effect of which the engine's own registers know nothing. -/
def EngEff.outside : EngEff → Bool
  | .done => true
  | .take => true
  | .yield => true
  | .setf _ _ => true
  | _ => false

theorem ran_outside {g : Eng} (q : g.Settled) {x : EngEff} (hx : x.outside = true) : g.ran [x] [] = g.next := by
  cases x with
  | done | take | yield | setf => rw [← q.eta]; rfl
  | _ => cases hx

theorem ran_rte {g : Eng} (q : g.Settled) : g.ran [.rte] [] =
    { (g.next.setSp 10 (g.spr 13)).setAx 7 (g.spr 14) with pc := codeAddr (g.spr 12).toNat } := by
  rw [← q.eta]; rfl

theorem next_landed {g : Eng} (q : g.Settled) : g.next.landed = g.next := landed_of_late q.late

/-- The control operation of a bundle that holds nothing else. -/
theorem controls_outside {s : State} {e : Nat} {c : Instr} {f : Eng → List EngEff} {x : EngEff} (h : s.freshBundle e = true)
    (hc : exec c s = .next (s.engSlot e slotCtl true f)) (hf : f (s.engOf e) = [x]) (hx : x.outside = true)
    (hy : x = .yield → s.engState e = 4) :
    ∃ u, exec c s = .next (u.engControl e x) ∧ s.AtControls u e (s.engOf e).next := by
  have hkind : x.access = false ∧ x ≠ .reserved ∧ x ≠ .rte := by
    cases x with
    | done | take | yield | setf => exact ⟨rfl, nofun, nofun⟩
    | _ => cases hx
  obtain ⟨hacc, hres, hrte⟩ := hkind
  obtain ⟨u, hu, hat⟩ := controls_last (l := []) h rfl (by decide) hc hf (by simp) hacc hres
    (fun k => k.elim hy (fun k => absurd k hrte))
  rw [List.nil_append, ran_outside (settled_of_fresh h) hx] at hat
  exact ⟨u, hu, hat⟩

/-! ### DONE, TAKE, YIELD, SETF and RTE -/

theorem completes_done {s : State} {e : Fin 64} {k : Nat} (h : s.freshBundle e.val = true) (hen : s.bit (Reg.ENG_CTRL e.val) 0 = true)
    (ht : (s.engOf e.val).task = some k) (hrun : s.taskState k = tsRunning) (hcan : s.ctxF k 15 15 15 = 0)
    (hnext : s.ctxF k 9 14 14 = 0) (hph : s.taskPhase k = 2) :
    Completes (.doneOp e true) s (fun t =>
      t.taskState k = tsDone ∧ (t.taskRt k).round = (s.ctxF k 7 17 17 == 1) ∧ (t.engOf e.val).task = none ∧
      (t.engOf e.val).pc = codeAddr ((s.engOf e.val).pc + 8) ∧ t.engState e.val = s.engState e.val ∧ s.SameMemory t) := by
  obtain ⟨u, hu, hat⟩ := controls_outside (c := .doneOp e true) (x := .done) h rfl rfl rfl nofun
  obtain ⟨heng, -, -, hmem⟩ := hat.oneBundle
  have hctx (w hi lo : Nat) : (u.dropTask e.val).ctxF k w hi lo = s.ctxF k w hi lo := ctxF_of_ctx (congrArg Dlr.ctx hat.dlr) k w hi lo
  obtain ⟨hst, hround, hkeep⟩ := reportDone_clause (s := u.dropTask e.val) ((hctx 15 3 0).trans hrun) ((hctx 15 15 15).trans hcan)
    ((hctx 9 14 14).trans hnext) ((hctx 0 29 27).trans hph) e.val
  have heq : u.engDone e.val = (((u.dropTask e.val).reportDone k).engTrace e.val 2 k).kittyStat :=
    engDone_eq (by rw [heng]; exact ht) (hat.enabled.trans hen) hkeep
  generalize (u.dropTask e.val).reportDone k = v at hst hround hkeep heq
  have htrace := engTrace_signals v e.val 2 k
  obtain ⟨hcx, htk⟩ := kittyStat_ctx (v.engTrace e.val 2 k)
  rw [htrace.dlr] at hcx htk
  have hall := (hkeep.trans (engTrace_keepsEngine v e.val 2 k)).trans (kittyStat_keepsEngine _ e.val)
  have hg := (hall.engOf e.val).trans (dropTask_engOf u e.val)
  refine ⟨(v.engTrace e.val 2 k).kittyStat, by rw [hu, ← heq]; rfl, ?_, ?_, ?_, ?_, ?_, ?_⟩
  · exact (ctxF_of_ctx hcx k 15 3 0).trans hst
  · rw [taskRt_of_tasks htk, hround, hctx]
  · rw [hg]
  · rw [hg, heng]
    rfl
  · exact hall.engState.trans hat.engState
  · exact hmem.trans hall.memory

/-- The engine's task goes back unfinished. -/
def State.yieldTask (s : State) (e : Nat) : State := s.setEng e { s.engOf e with task := none }

theorem yieldTask_engOf (s : State) (e : Nat) : (s.yieldTask e).engOf e = { s.engOf e with task := none } := by
  unfold State.yieldTask
  rw [engOf_setEng, if_pos rfl]

theorem engYield_eq {u : State} {e k : Nat} (ht : (u.engOf e).task = some k) :
    u.engControl e .yield = ((((u.yieldTask e).reportYield k).engTrace e 3 k).engWait e).kittyStat := by
  unfold State.engControl
  dsimp only
  rw [ht]
  rfl

/-- An enabled engine that waits for a task. -/
theorem engWait_clause {u : State} {e : Nat} (hen : u.bit (Reg.ENG_CTRL e) 0 = true) :
    (u.engWait e).engState e = 2 ∧ (u.engWait e).engOf e = { (u.engOf e).landed with preReq := false } ∧
      (∀ k, k ≠ e → (u.engWait e).engOf k = u.engOf k) ∧ (u.engWait e).dlr = u.dlr ∧ u.SameMemory (u.engWait e) := by
  rw [engWait_eq hen]
  refine ⟨engState_setEngState _ _ (by decide), ?_, fun k hk => ?_, rfl, rfl, rfl, rfl, rfl, rfl⟩
  · show (u.setEng e _).engOf e = _
    rw [engOf_setEng, if_pos rfl]
  · show (u.setEng e _).engOf k = _
    rw [engOf_setEng, if_neg hk]

theorem completes_take {s : State} {e : Fin 64} (h : s.freshBundle e.val = true) (hen : s.bit (Reg.ENG_CTRL e.val) 0 = true)
    (ht : (s.engOf e.val).task = none) :
    Completes (.take e true) s (fun t =>
      t.engState e.val = 2 ∧ t.engOf e.val = { (s.engOf e.val).next with preReq := false } ∧
      (∀ k, k ≠ e.val → t.engOf k = s.engOf k) ∧ s.SameMemory t) := by
  obtain ⟨u, hu, hat⟩ := controls_outside (c := .take e true) (x := .take) h rfl rfl rfl nofun
  obtain ⟨heng, hothers, -, hmem⟩ := hat.oneBundle
  have hnone : (u.engOf e.val).task.isSome = false := by
    rw [heng]
    exact congrArg Option.isSome ht
  have heq : u.engControl e.val .take = u.engWait e.val := by
    show State.engWait (if (u.engOf e.val).task.isSome = true then u.engDone e.val else u) e.val = u.engWait e.val
    rw [hnone]
    rfl
  obtain ⟨hst, hg, hk, -, hm⟩ := engWait_clause (hat.enabled.trans hen)
  rw [heng, next_landed (settled_of_fresh h)] at hg
  exact ⟨u.engWait e.val, by rw [hu, heq], hst, hg, fun k hne => (hk k hne).trans (hothers k hne), hmem.trans hm⟩

theorem completes_yield {s : State} {e : Fin 64} {k : Nat} (h : s.freshBundle e.val = true) (hen : s.bit (Reg.ENG_CTRL e.val) 0 = true)
    (htrap : s.engState e.val = 4) (ht : (s.engOf e.val).task = some k) (hrun : s.taskState k = tsRunning)
    (hcan : s.ctxF k 15 15 15 = 0) (hph : s.taskPhase k = 7) :
    Completes (.yield e true) s (fun t =>
      t.taskState k = tsPreempted ∧ t.engState e.val = 2 ∧ (t.engOf e.val).task = none ∧ s.SameMemory t) := by
  obtain ⟨u, hu, hat⟩ := controls_outside (c := .yield e true) (x := .yield) h rfl rfl rfl (fun _ => htrap)
  obtain ⟨heng, -, -, hmem⟩ := hat.oneBundle
  have hctx (w hi lo : Nat) : (u.yieldTask e.val).ctxF k w hi lo = s.ctxF k w hi lo := ctxF_of_ctx (congrArg Dlr.ctx hat.dlr) k w hi lo
  obtain ⟨hst, hkeep⟩ := reportYield_clause (s := u.yieldTask e.val) ((hctx 15 3 0).trans hrun) ((hctx 15 15 15).trans hcan)
    ((hctx 0 29 27).trans hph) e.val
  have heq := engYield_eq (show (u.engOf e.val).task = some k by rw [heng]; exact ht)
  generalize (u.yieldTask e.val).reportYield k = v at hst hkeep heq
  have htrace := engTrace_signals v e.val 3 k
  have hkeep' := hkeep.trans (engTrace_keepsEngine v e.val 3 k)
  obtain ⟨hwait, hg, -, hdlr, hm⟩ := engWait_clause (hkeep'.enabled.trans (hat.enabled.trans hen))
  rw [htrace.dlr] at hdlr
  have hkit := kittyStat_keepsEngine ((v.engTrace e.val 3 k).engWait e.val) e.val
  obtain ⟨hcx, -⟩ := kittyStat_ctx ((v.engTrace e.val 3 k).engWait e.val)
  rw [hdlr] at hcx
  refine ⟨_, hu.trans (congrArg _ heq), (ctxF_of_ctx hcx k 15 3 0).trans hst, hkit.engState.trans hwait, ?_,
    (hmem.trans hkeep'.memory).trans (hm.trans hkit.memory)⟩
  rw [hkit.engOf, hg, hkeep'.engOf, yieldTask_engOf]
  rfl

theorem completes_setf {s : State} {e : Fin 64} (r : Fin 32) (h : s.freshBundle e.val = true) (hq : s.dlr.queue.length < 64) :
    Completes (.setf e true r) s (fun t =>
      t.dlr.queue = s.dlr.queue ++ [(bitsOf ((s.engOf e.val).dr r.val).toNat 8 0, bitsOf ((s.engOf e.val).dr r.val).toNat 20 16)] ∧
      t.engOf e.val = (s.engOf e.val).next ∧ s.SameMemory t) := by
  obtain ⟨u, hu, hat⟩ := controls_outside (c := .setf e true r)
    (x := .setf (bitsOf ((s.engOf e.val).dr r.val).toNat 8 0) (bitsOf ((s.engOf e.val).dr r.val).toNat 20 16)) h rfl rfl rfl nofun
  obtain ⟨heng, -, -, hmem⟩ := hat.oneBundle
  generalize bitsOf ((s.engOf e.val).dr r.val).toNat 8 0 = t at hu ⊢
  generalize bitsOf ((s.engOf e.val).dr r.val).toNat 20 16 = f at hu ⊢
  have heq : u.engControl e.val (.setf t f) = (({ u with dlr := { u.dlr with queue := u.dlr.queue ++ [(t, f)] } } : State).setBit Reg.DLR_STAT 4
      (decide ((u.dlr.queue ++ [(t, f)]).length = 64))) := if_pos (by rw [hat.dlr]; exact hq)
  refine ⟨_, hu.trans (congrArg _ heq), ?_, ?_, hmem.trans ⟨rfl, rfl, rfl, rfl, rfl⟩⟩
  · rw [State.setBit_dlr, hat.dlr]
  · rw [setBit_engOf]
    exact heng

theorem completes_rte {s : State} {e : Fin 64} (h : s.freshBundle e.val = true) (htrap : s.engState e.val = 4) :
    Completes (.rte e true) s (fun t =>
      t.engState e.val = 3 ∧ (t.engOf e.val).pc = codeAddr ((s.engOf e.val).spr 12).toNat ∧
      (t.engOf e.val).sr = (s.engOf e.val).spr 13 &&& 0x3F ∧ (t.engOf e.val).axr 7 = (s.engOf e.val).spr 14 ∧ s.SameMemory t) := by
  obtain ⟨u, hu, hat⟩ := controls_last (c := .rte e true) (l := []) (x := .rte) h rfl (slot := slotCtl) (by decide) rfl rfl (by simp) rfl
    nofun (fun _ => htrap)
  obtain ⟨heng, -, -, hmem⟩ := hat.oneBundle
  rw [List.nil_append, ran_rte (settled_of_fresh h)] at heng
  have hg : (u.setEngState e.val 3).engOf e.val = u.engOf e.val := rfl
  refine ⟨u.setEngState e.val 3, hu, engState_setEngState _ _ (by decide), ?_, ?_, ?_, hmem⟩
  · rw [hg, heng]
  · rw [hg, heng]
    exact sr_setSp (s.engOf e.val).next _
  · rw [hg, heng]
    exact Tab.get_set_self _ _ _ _

/-- Settles O33: each command is a bundle of one control operation, and its report is what the Dealer makes of it. -/
theorem engineTaskControl : Obligations.EngineTaskControl :=
  ⟨fun _ _ _ h hen ht hrun hcan hnext hph => completes_done h hen ht hrun hcan hnext hph,
    fun _ _ h hen ht => completes_take h hen ht,
    fun _ _ _ h hen htrap ht hrun hcan hph => completes_yield h hen htrap ht hrun hcan hph,
    fun _ _ r h hq => completes_setf r h hq, fun _ _ h htrap => completes_rte h htrap⟩

end Sys2Proof.Machine
end

section
/-! SUPPORT. The trap of a preemption, the start of an engine and writes of its code (O34). -/

namespace Sys2Proof.Machine

/-! ### The trap, rule R79 -/

/-- The engine as it enters the trap routine. -/
def Eng.trapped (g : Eng) : Eng :=
  { (((({ g.landed with accMva := g.acc }.setSp 12 (w32 g.pc)).setSp 13 g.sr).setSp 14 (g.axr 7)).setAx 7 (g.spr 15)).setSp 10 (g.sr &&& 0xF)
    with pc := 0x40, preReq := false }

theorem spr_setSp (g : Eng) (c k : Nat) (v : Word) : (g.setSp c v).spr k =
    if k = c then (if c = 10 then v &&& 0x3F else v &&& w32 (2 ^ spWidth c - 1)) else g.spr k := Tab.get_set _ _ _ _ _

/-- SR comes last, and is none of the saved registers. -/
theorem trapped_spr (g : Eng) {c : Nat} (h : c ≠ 10) : g.trapped.spr c =
    ((({ g.landed with accMva := g.acc }.setSp 12 (w32 g.pc)).setSp 13 g.sr).setSp 14 (g.axr 7)).spr c :=
  (spr_setSp _ 10 c _).trans (if_neg h)

theorem trapped_saved (g : Eng) :
    g.trapped.spr 12 = w32 g.pc &&& 0xFFFF ∧ g.trapped.spr 13 = g.sr &&& 0xFFFF ∧ g.trapped.spr 14 = g.axr 7 := by
  rw [trapped_spr g (by decide), trapped_spr g (by decide), trapped_spr g (by decide)]
  refine ⟨by simp [spr_setSp, spWidth, w32], by simp [spr_setSp, spWidth, w32], ?_⟩
  rw [spr_setSp, if_pos rfl, if_neg (by decide)]
  exact BitVec.and_allOnes

theorem trapped_runs (g : Eng) : g.trapped.axr 7 = g.spr 15 ∧ g.trapped.sr = g.sr &&& 0xF := by
  refine ⟨Tab.get_set_self _ _ _ _, ?_⟩
  show Eng.sr (Eng.setSp _ 10 _) = _
  rw [sr_setSp, BitVec.and_assoc]
  rfl

/-- The page of an engine that enters its trap routine from `pc`. -/
def State.showTrap (u : State) (e pc : Nat) : State :=
  (((u.setEngState e 4).setBit (Reg.ENG_STAT e) 4 false).wrN (Reg.ENG_EPC e) pc).inc (Reg.ENG_PRE_CNT e)

theorem preemptTrap_eq {s : State} {e : Nat} (hr : s.engRuns e = true) (hst : s.engState e = 3) (hp : (s.engOf e).preReq = true)
    (hd : (s.engOf e).delay = none) (hs : (s.engOf e).staged = []) :
    s.preemptTrap e = (s.setEng e (s.engOf e).trapped).showTrap e (s.engOf e).pc := if_pos (by simp [hr, hst, hp, hd, hs])

theorem showTrap_clause (u : State) (e pc : Nat) :
    (u.showTrap e pc).engState e = 4 ∧ (u.showTrap e pc).bit (Reg.ENG_STAT e) 4 = false ∧
      (u.showTrap e pc).rdN (Reg.ENG_PRE_CNT e) = min (u.rdN (Reg.ENG_PRE_CNT e) + 1) 0xFFFFFFFF ∧
      u.Writes (u.showTrap e pc) [Reg.ENG_STAT e, Reg.ENG_EPC e, Reg.ENG_PRE_CNT e] := by
  have hstat : (u.showTrap e pc).rd (Reg.ENG_STAT e) = ((u.setEngState e 4).setBit (Reg.ENG_STAT e) 4 false).rd (Reg.ENG_STAT e) :=
    (rd_inc_ne (by simp [Reg.ENG_STAT, Reg.ENG_PRE_CNT]) _).trans (rd_wrN_ne (by simp [Reg.ENG_STAT, Reg.ENG_EPC]) _ _)
  have hcnt : (((u.setEngState e 4).setBit (Reg.ENG_STAT e) 4 false).wrN (Reg.ENG_EPC e) pc).rd (Reg.ENG_PRE_CNT e) =
      u.rd (Reg.ENG_PRE_CNT e) :=
    (rd_wrN_ne (by simp [Reg.ENG_PRE_CNT, Reg.ENG_EPC]) _ _).trans ((rd_setBit_ne (by simp [Reg.ENG_PRE_CNT, Reg.ENG_STAT]) _ _ _).trans
      (rd_setFld_ne (by simp [Reg.ENG_PRE_CNT, Reg.ENG_STAT]) _ _ _ _))
  refine ⟨?_, ?_, ?_, ?_⟩
  · exact ((fld_of_rd hstat 3 0).trans (fld_setFld_ne (by decide) (by decide) (by decide) _ _ _)).trans
      (engState_setEngState u e (by decide))
  · exact (bit_of_rd hstat 4).trans (bit_setBit_self (by decide) _ _ _)
  · exact (rdN_inc _ _).trans (by rw [rdN_of_rd hcnt])
  · exact ((((setFld_writes _ _ _ _ _).trans (setBit_writes _ _ _ _)).trans (wrN_writes _ _ _)).trans (inc_writes _ _)).mono (by simp)

theorem completes_trap {s : State} {e : Fin 64} (hr : s.engRuns e.val = true) (hst : s.engState e.val = 3)
    (hp : (s.engOf e.val).preReq = true) (hd : (s.engOf e.val).delay = none) (hs : (s.engOf e.val).staged = []) :
    Completes (.preemptionTrap e) s (fun t =>
      (t.engOf e.val).spr 12 = w32 ((s.engOf e.val).pc) &&& 0xFFFF ∧ (t.engOf e.val).spr 13 = (s.engOf e.val).sr &&& 0xFFFF ∧
      (t.engOf e.val).spr 14 = (s.engOf e.val).axr 7 ∧ (t.engOf e.val).axr 7 = (s.engOf e.val).spr 15 ∧
      (t.engOf e.val).sr = (s.engOf e.val).sr &&& 0xF ∧ (t.engOf e.val).pc = 0x40 ∧ t.engState e.val = 4 ∧
      t.bit (Reg.ENG_STAT e.val) 4 = false ∧ t.rdN (Reg.ENG_PRE_CNT e.val) = min (s.rdN (Reg.ENG_PRE_CNT e.val) + 1) 0xFFFFFFFF ∧
      s.SameRegs t [Reg.ENG_STAT e.val, Reg.ENG_EPC e.val, Reg.ENG_PRE_CNT e.val] ∧ s.SameMemory t) := by
  obtain ⟨hpage4, hpe, hcnt, hw⟩ := showTrap_clause (s.setEng e.val (s.engOf e.val).trapped) e.val (s.engOf e.val).pc
  obtain ⟨h12, h13, h14⟩ := trapped_saved (s.engOf e.val)
  obtain ⟨hx7, hsr⟩ := trapped_runs (s.engOf e.val)
  have heq := preemptTrap_eq hr hst hp hd hs
  rw [← heq] at hpage4 hpe hcnt hw
  have hg : (s.preemptTrap e.val).engOf e.val = (s.engOf e.val).trapped := by rw [hw.signals.engOf, engOf_setEng, if_pos rfl]
  refine ⟨s.preemptTrap e.val, rfl, ?_⟩
  dsimp only
  rw [hg]
  exact ⟨h12, h13, h14, hx7, hsr, rfl, hpage4, hpe, hcnt, hw.1, hw.signals.memory⟩

/-! ### ENG_CTRL.EN, rule R464 -/

/-- The engine as EN starts it. -/
def Eng.started (g : Eng) : Eng := { g with pc := 0, delay := none, staged := [], late := [], task := none, preReq := false }

theorem engStart_eq {s : State} {e : Nat} (hst : s.engState e = 1) (hd : s.domOn (3 + e / 16) = true) :
    s.engStart e = (s.setEng e (s.engOf e).started).setEngState e 3 := if_pos (by simp [hst, hd])

theorem cfgAccepted_keepsEngine (s : State) (e : Nat) : s.KeepsEngine (s.cfgAccepted (0x40 + e)) e :=
  (cfgAccepted_writes s (0x40 + e)).signals.keepsEngine (by simp [Reg.ENG_CTRL, Reg.PG_CFG_SEQ, Reg.PG_STAT]; omega)
    (by simp [Reg.ENG_STAT, Reg.PG_CFG_SEQ, Reg.PG_STAT]; omega)

theorem completes_enable {s : State} {ag : Agent} {e : Fin 64} {v : Word} (hw : s.cfgWritable ag (0x40 + e.val) = true)
    (hst : s.engState e.val = 1) (hd : s.domOn (3 + e.val / 16) = true) (hv : v.getLsbD 0 = true) :
    Completes (.engCtrlEn ag e v) s (fun t =>
      t.rd (Reg.ENG_CTRL e.val) = v &&& 7 ∧ t.engState e.val = 3 ∧ (t.engOf e.val).pc = 0 ∧ (t.engOf e.val).task = none ∧
      (∀ k, k ≠ e.val → t.engOf k = s.engOf k) ∧ s.SameMemory t) := by
  refine completes_cfg hw rfl rfl ?_
  have hst' : (s.wr (Reg.ENG_CTRL e.val) (v &&& 7)).engState e.val = 1 :=
    (fld_of_rd (rd_wr_ne (by simp [Reg.ENG_STAT, Reg.ENG_CTRL]) _ _) _ _).trans hst
  have hd' : (s.wr (Reg.ENG_CTRL e.val) (v &&& 7)).domOn (3 + e.val / 16) = true :=
    (bit_of_rd (rd_wr_ne (by simp [Reg.PWR_DOM_STAT, Reg.ENG_CTRL]; omega) _ _) _).trans hd
  have heq : s.engCtrl e.val v =
      (((s.wr (Reg.ENG_CTRL e.val) (v &&& 7)).setEng e.val (s.engOf e.val).started).setEngState e.val 3).kittyStat := by
    unfold State.engCtrl
    dsimp only
    rw [if_pos hv, engStart_eq hst' hd']
    rfl
  rw [heq]
  generalize hu : (s.wr (Reg.ENG_CTRL e.val) (v &&& 7)).setEng e.val (s.engOf e.val).started = u
  have hctrl : u.rd (Reg.ENG_CTRL e.val) = v &&& 7 := hu ▸ rd_wr_self s _ _
  have heng (k : Nat) : u.engOf k = if k = e.val then (s.engOf e.val).started else s.engOf k := hu ▸ engOf_setEng _ _ _ _
  have hmem : s.SameMemory u := hu ▸ ⟨rfl, rfl, rfl, rfl, rfl⟩
  have hset := setFld_writes u (Reg.ENG_STAT e.val) 3 0 3
  have hk := (kittyStat_keepsEngine (u.setEngState e.val 3) e.val).trans (cfgAccepted_keepsEngine _ e.val)
  refine ⟨?_, hk.engState.trans (engState_setEngState u e.val (by decide)), ?_, ?_, fun k hne => ?_,
    (hmem.trans hset.signals.memory).trans hk.memory⟩
  · exact hk.ctrl.trans ((rd_setFld_ne (by simp [Reg.ENG_CTRL, Reg.ENG_STAT]) _ _ _ _).trans hctrl)
  · rw [hk.engOf, show (u.setEngState e.val 3).engOf e.val = u.engOf e.val from rfl, heng, if_pos rfl]
    rfl
  · rw [hk.engOf, show (u.setEngState e.val 3).engOf e.val = u.engOf e.val from rfl, heng, if_pos rfl]
    rfl
  · rw [hk.engOf, show (u.setEngState e.val 3).engOf k = u.engOf k from rfl, heng, if_neg hne]

/-! ### CODE_SRAM_WRITE, rule R86 -/

theorem codeWrite_accepted {s : State} {loader : Bool} {e n : Nat} (v : BitVec 64) (hdev : s.sys.dev = .boot)
    (hen : s.bit (Reg.ENG_CTRL e) 0 = false) (hlock : loader = true ∨ 1024 * s.fld (Reg.ENG_CODE_LOCK e) 6 0 ≤ 8 * n)
    (hue : s.integ.ue = []) :
    s.codeWrite loader e n v = { s with code := s.code.setN (0x10000 * e + 8 * n) 8 v.toNat } := by
  unfold State.codeWrite
  rw [if_pos ⟨hdev, hen, hlock⟩]
  exact ueReplaced_nil (s := { s with code := s.code.setN (0x10000 * e + 8 * n) 8 v.toNat }) hue _ _ _

theorem codeWrite_refused {s : State} (loader : Bool) (e n : Nat) (v : BitVec 64) (hdev : s.sys.dev ≠ .boot) :
    s.codeWrite loader e n v = (s.inc (Reg.ENG_CWR_REF_CNT e)).event (0x40 + e) 3 0 := if_neg (fun k => hdev k.1)

theorem codeWrite_refused_clause {s : State} (hc : s.clocked = true) (e : Nat) :
    ((s.inc (Reg.ENG_CWR_REF_CNT e)).event (0x40 + e) 3 0).rdN (Reg.ENG_CWR_REF_CNT e) =
        min (s.rdN (Reg.ENG_CWR_REF_CNT e) + 1) 0xFFFFFFFF ∧
      s.Raises ((s.inc (Reg.ENG_CWR_REF_CNT e)).event (0x40 + e) 3 0) [Reg.ENG_CWR_REF_CNT e, Reg.PG_IRQ_RAW (0x40 + e)]
        [⟨0x40 + e, 3, false, 0, s.now⟩] := by
  refine ⟨?_, (inc_writes _ _).event hc (by simp [Reg.QTZ_TIME_NS, Reg.ENG_CWR_REF_CNT]; omega)
    (by simp [Reg.QTZ_TIME_NS, Reg.ENG_CWR_REF_CNT]; omega) _ _ _⟩
  rw [rdN_of_rd (rd_event (by simp [Reg.ENG_CWR_REF_CNT, Reg.PG_IRQ_RAW]; omega) _ _ _), rdN_inc]

/-- Settles O34: the trap, the start and the code write as their guards decide them. -/
theorem engineTrapAndCode : Obligations.EngineTrapAndCode := by
  refine ⟨fun s e hr hst hp hd hs => completes_trap hr hst hp hd hs, fun s ag e v hw hst hd hv => completes_enable hw hst hd hv, ?_, ?_⟩
  · intro s loader e n v hdev hen hlock hue
    have hc : s.clocked = true := by unfold State.clocked; rw [hdev]
    exact ⟨_, congrArg Host.Outcome.next (if_pos hc), codeWrite_accepted v hdev hen hlock hue⟩
  · intro s loader e n v hc hdev
    have heq : (if s.clocked then s.codeWrite loader e.val n.val v else s) = (s.inc (Reg.ENG_CWR_REF_CNT e.val)).event (0x40 + e.val) 3 0 :=
      (if_pos hc).trans (codeWrite_refused loader e.val n.val v hdev)
    exact ⟨_, congrArg Host.Outcome.next heq, codeWrite_refused_clause hc e.val⟩

end Sys2Proof.Machine
end

section
/-! SUPPORT. The Dealer's shared operations: context words, the ends of its cycles, task states, refusals, and flows that block (O21, O22
and O23). -/

namespace Sys2Proof.Machine

/-! ### The frame of the Dealer's operations -/

/-- Nothing differs but the registers of `l`, what the Dealer keeps, the event unit and what goes out to the host. -/
def State.Deals (s t : State) (l : List Nat) : Prop :=
  s.SameRegs t l ∧ t = { s with regs := t.regs, dlr := t.dlr, evt := t.evt, msix := t.msix, plant := t.plant }

theorem State.Deals.trans {s t u : State} {l m : List Nat} (h : s.Deals t l) (k : t.Deals u m) : s.Deals u (l ++ m) := by
  refine ⟨h.1.trans k.1, ?_⟩
  rw [k.2, h.2]

theorem State.Deals.mono {s t : State} {l m : List Nat} (h : s.Deals t l) (k : ∀ a ∈ l, a ∈ m) : s.Deals t m := ⟨h.1.mono k, h.2⟩

theorem State.Deals.memory {s t : State} {l : List Nat} (h : s.Deals t l) : s.SameMemory t := by
  rw [h.2]; exact ⟨rfl, rfl, rfl, rfl, rfl⟩

theorem State.Signals.deals {s t : State} {l : List Nat} (h : s.Signals t l) : s.Deals t l := ⟨h.1, by rw [h.2]⟩

theorem State.OnlyDlr.deals {s t : State} (h : s.OnlyDlr t) : s.Deals t [] := by
  rw [h]
  exact ⟨fun _ _ => rfl, rfl⟩

theorem forEach_invariant {α : Type} {P : State → Prop} {f : α → State → State} (hf : ∀ x t, P t → P (f x t)) (l : List α) :
    ∀ s, P s → P (forEach f l s) := by
  induction l with
  | nil => exact fun _ h => h
  | cons x l ih => exact fun s h => ih _ (hf x s h)

theorem forUpTo_invariant {P : State → Prop} {f : Nat → State → State} (hf : ∀ i t, P t → P (f i t)) (n : Nat) {s : State} (h : P s) :
    P (forUpTo f n s) := by
  induction n with
  | zero => exact h
  | succ n ih => exact hf n _ ih

/-! ### Context words -/

theorem ctxW_of_ctx {s t : State} (h : t.dlr.ctx = s.dlr.ctx) (k w : Nat) : t.ctxW k w = s.ctxW k w := by
  unfold State.ctxW
  rw [h]

theorem taskState_of_ctx {s t : State} (h : t.dlr.ctx = s.dlr.ctx) (k : Nat) : t.taskState k = s.taskState k := ctxF_of_ctx h k 15 3 0

/-- Another word of the same context, or a word of another one. -/
theorem ctxW_setCtxW_ne {w w' : Nat} (hw : w < 16) (hw' : w' < 16) {k k' : Nat} (h : ¬(k' = k ∧ w' = w)) (s : State) (v : Word) :
    (s.setCtxW k w v).ctxW k' w' = s.ctxW k' w' := by
  rw [ctxW_setCtxW, if_neg (by omega)]

/-- A field outside the one just written, of the same word. -/
theorem ctxF_setCtxF_apart {hi lo hi' lo' : Nat} (h : lo ≤ hi) (hb : hi' < 32) (h' : hi < lo' ∨ hi' < lo) (s : State) (k w v : Nat) :
    (s.setCtxF k w hi lo v).ctxF k w hi' lo' = s.ctxF k w hi' lo' := by
  unfold State.ctxF State.setCtxF
  rw [ctxW_setCtxW, if_pos rfl, bitsOf_w32 hb, bitsOf_withBits_ne h h']

/-- A bit of a context word of which a field has been written. -/
theorem getLsbD_setCtxF {hi lo : Nat} (h : lo ≤ hi) (hb : hi < 32) (s : State) (k w v i : Nat) :
    ((s.setCtxF k w hi lo v).ctxW k w).getLsbD i = if lo ≤ i ∧ i ≤ hi then v.testBit (i - lo) else (s.ctxW k w).getLsbD i := by
  unfold State.setCtxF
  rw [ctxW_setCtxW, if_pos rfl, w32, BitVec.getLsbD_ofNat, testBit_withBits h]
  split
  case isTrue hi' => simp [Nat.lt_of_le_of_lt hi'.2 hb]
  case isFalse =>
    by_cases h32 : i < 32
    · simp [h32, BitVec.getLsbD]
    · simp [h32, BitVec.getLsbD_of_ge _ _ (Nat.le_of_not_lt h32)]

theorem bitsOf_lt (n hi lo : Nat) : bitsOf n hi lo < 2 ^ (hi + 1 - lo) := Nat.mod_lt _ (Nat.two_pow_pos _)

/-! ### The end of a Dealer cycle -/

theorem kittyStat_deals (s : State) : s.Deals s.kittyStat [Reg.DLR_STAT] :=
  (State.OnlyDlr.deals (t := s.nextClock) rfl).trans (kittyStat_writes s).signals.deals

theorem rd_kittyStat {a : Nat} (h : a ≠ Reg.DLR_STAT) (s : State) : s.kittyStat.rd a = s.rd a :=
  (kittyStat_deals s).1 a (by simpa using h)

/-- Of DLR_STAT the end of a cycle writes KITTY_LEN only. -/
theorem bit_kittyStat {i : Nat} (h : i < 16) (s : State) : s.kittyStat.bit Reg.DLR_STAT i = s.bit Reg.DLR_STAT i :=
  (bit_setFld (by decide) (by decide) s.nextClock Reg.DLR_STAT _ i).trans (if_neg (by omega))

theorem ctxW_kittyStat (s : State) (k w : Nat) : s.kittyStat.ctxW k w = s.ctxW k w := ctxW_of_ctx (kittyStat_ctx s).1 k w
theorem ctxF_kittyStat (s : State) (k w hi lo : Nat) : s.kittyStat.ctxF k w hi lo = s.ctxF k w hi lo := ctxF_of_ctx (kittyStat_ctx s).1 k w hi lo
theorem taskState_kittyStat (s : State) (k : Nat) : s.kittyStat.taskState k = s.taskState k := ctxF_kittyStat s k 15 3 0
theorem taskRt_kittyStat (s : State) (k : Nat) : s.kittyStat.taskRt k = s.taskRt k := taskRt_of_tasks (kittyStat_ctx s).2 k
theorem flowNext_kittyStat {f : Nat} (s : State) : s.kittyStat.flowNext f = s.flowNext f :=
  fld_of_rd (rd_kittyStat (by simp [Reg.DLR_FLOW_STAT, Reg.DLR_STAT]; omega) s) 9 0

/-! ### A refused operation -/

theorem opRefused_signals (s : State) : s.Signals s.opRefused [Reg.DLR_STAT, Reg.DLR_OP_REF_CNT, Reg.PG_IRQ_RAW Page.DLR] :=
  ((setBit_writes _ _ _ _).trans (inc_writes _ _)).signals.trans (event_signals _ _ _ _)

theorem bit_opRefused (s : State) : s.opRefused.bit Reg.DLR_STAT 1 = true := by
  unfold State.opRefused
  rw [bit_of_rd (rd_event (by decide) _ _ _), bit_of_rd (rd_inc_ne (by decide) _), bit_setBit_self (by decide)]

theorem rdN_opRefused (s : State) : s.opRefused.rdN Reg.DLR_OP_REF_CNT = min (s.rdN Reg.DLR_OP_REF_CNT + 1) 0xFFFFFFFF := by
  unfold State.opRefused
  rw [rdN_of_rd (rd_event (by decide) _ _ _), rdN_inc, rdN_of_rd (rd_setBit_ne (by decide) _ _ _)]

/-! ### Tasks that enter their queue -/

theorem enqueue_eq (s : State) (k st : Nat) :
    s.enqueue k st = s.toQueue k st ∨ s.enqueue k st = (s.toQueue k st).inc Reg.DLR_REHOME_CNT := by
  unfold State.enqueue
  dsimp only
  split
  · exact .inr rfl
  · exact .inl rfl

theorem enqueue_deals (s : State) (k st : Nat) : s.Deals (s.enqueue k st) [Reg.DLR_REHOME_CNT] := by
  have h := (toQueue_onlyDlr s k st).deals
  obtain he | he := enqueue_eq s k st <;> rw [he]
  · exact h.mono (by simp)
  · exact h.trans (inc_writes _ _).signals.deals

theorem enqueue_dlr (s : State) (k st : Nat) : (s.enqueue k st).dlr = (s.toQueue k st).dlr := by
  obtain he | he := enqueue_eq s k st <;> rw [he]
  rfl

theorem enqueue_stamp (s : State) (k st : Nat) : ((s.enqueue k st).taskRt k).stamp = s.dlr.clock := by
  rw [taskRt_of_tasks (congrArg Dlr.tasks (enqueue_dlr s k st))]
  exact congrArg DlrTask.stamp (taskRt_setTaskRt _ _ _)

theorem ready_setTaskState (s : State) (k st : Nat) : (s.setTaskState k st).ready k = s.ready k := by
  have hw {w : Nat} (h : w < 15) : (s.setTaskState k st).ctxW k w = s.ctxW k w :=
    ctxW_setCtxW_ne (by decide) (by omega) (by omega) s _
  unfold State.ready State.ctxF
  rw [hw (by decide), hw (by decide), hw (by decide)]

theorem readyCheck_idle {s : State} {k : Nat} (h : s.taskState k ≠ tsArmed ∨ s.ready k = false) : s.readyCheck k = s :=
  if_neg (by obtain h | h := h <;> simp [h])

theorem readyCheck_ready {s : State} {k : Nat} (h : s.taskState k = tsArmed) (hr : s.ready k = true) :
    s.readyCheck k = s.enqueue k tsReady := if_pos (by simp [h, hr])

/-! ### Flows that block, rule R100 -/

/-- The registers that a flow which blocks may change besides its own DLR_FLOW_STAT. -/
abbrev blockRegs : List Nat := [Reg.DLR_FLOW_BLOCK_CNT, Reg.PG_IRQ_RAW Page.DLR, Reg.DLR_STAT] ++ traceRegs 0x48

theorem flowStat_notMem_blockRegs {f : Nat} (h : f < 64) : Reg.DLR_FLOW_STAT f ∉ blockRegs := by
  simp [traceRegs, Reg.DLR_FLOW_STAT, Reg.DLR_FLOW_BLOCK_CNT, Reg.PG_IRQ_RAW, Page.DLR, Page.EVT, Reg.DLR_STAT, Reg.EVT_TRC_DROP_CNT,
    Reg.EVT_TRC_GAP_CNT, Reg.EVT_STAT]
  omega

theorem flowBlockStat_writes (s : State) : s.Writes s.flowBlockStat [Reg.DLR_STAT] := setBit_writes _ _ _ _

theorem flowBlock_signals (s : State) (f : Nat) : (s.setBit (Reg.DLR_FLOW_STAT f) 15 true).Signals (s.flowBlock f) blockRegs :=
  (((inc_writes _ _).signals.trans (event_signals _ _ _ _)).trans (flowBlockStat_writes _).signals).trans (trace_signals _ _ _ _ _ _ _)

theorem flowCheck_eq (s : State) (f : Nat) : s.flowCheck f = s ∨ s.flowCheck f = s.flowBlock f := by
  unfold State.flowCheck
  split
  · split
    · exact .inr rfl
    · split
      · exact .inr rfl
      · exact .inl rfl
  · exact .inl rfl

theorem flowCheck_signals (s : State) (f : Nat) : s.Signals (s.flowCheck f) (Reg.DLR_FLOW_STAT f :: blockRegs) := by
  obtain h | h := flowCheck_eq s f <;> rw [h]
  · exact (State.Writes.refl s).signals.mono (by simp)
  · exact (setBit_writes _ _ _ _).signals.trans (flowBlock_signals s f)

/-- The check of a flow sets BLOCKED at most: NEXT_POS stays. -/
theorem flowNext_flowCheck (s : State) {f : Nat} (hf : f < 64) : (s.flowCheck f).flowNext f = s.flowNext f := by
  obtain h | h := flowCheck_eq s f <;> rw [h]
  unfold State.flowNext
  rw [fld_of_rd ((flowBlock_signals s f).1 _ (flowStat_notMem_blockRegs hf))]
  exact fld_setFld_ne (by decide) (by decide) (by decide) s _ _

end Sys2Proof.Machine
end

section
/-! SUPPORT. Software's operations on tasks, flags and flows (O21). -/

namespace Sys2Proof.Machine

/-- Outside RUN and DEGRADED no operation is refused, rule R105. -/
theorem dlrOp_stopped {s : State} (h : s.running = false) (ag : Agent) (k : Nat) (f : State → State) : s.dlrOp ag k f = f s :=
  if_neg (by simp [h])

/-! ### Arm, rule R90 -/

theorem taskArm_dormant {s : State} {k : Nat} (h : s.taskState k = tsDormant) :
    s.taskArm k = (s.setTaskState k tsArmed).readyCheck k := if_pos (by simp [h])

theorem taskArm_waits {s : State} {k : Nat} (h : s.taskState k = tsDormant) (hr : s.ready k = false) :
    s.taskArm k = s.setTaskState k tsArmed :=
  (taskArm_dormant h).trans (readyCheck_idle (.inr ((ready_setTaskState s k _).trans hr)))

theorem taskArm_ready {s : State} {k : Nat} (h : s.taskState k = tsDormant) (hr : s.ready k = true) :
    s.taskArm k = (s.setTaskState k tsArmed).enqueue k tsReady :=
  (taskArm_dormant h).trans
    (readyCheck_ready (taskState_setTaskState s k (by decide)) ((ready_setTaskState s k _).trans hr))

theorem arm_waits_clause {s : State} {k : Nat} (h : s.taskState k = tsDormant) (hr : s.ready k = false) :
    (s.taskArm k).kittyStat.taskState k = tsArmed ∧
      (∀ u w, w < 16 → ¬(u = k ∧ w = 15) → (s.taskArm k).kittyStat.ctxW u w = s.ctxW u w) ∧
      s.SameRegs (s.taskArm k).kittyStat [Reg.DLR_STAT] ∧ s.SameMemory (s.taskArm k).kittyStat := by
  rw [taskArm_waits h hr]
  have hd := (setTaskState_onlyDlr s k tsArmed).deals.trans (kittyStat_deals _)
  refine ⟨?_, fun u w hw hne => ?_, hd.1, hd.memory⟩
  · rw [taskState_kittyStat, taskState_setTaskState _ _ (by decide)]
  · rw [ctxW_kittyStat]
    exact ctxW_setCtxW_ne (by decide) hw hne s _

theorem arm_ready_clause {s : State} {k : Nat} (h : s.taskState k = tsDormant) (hr : s.ready k = true) :
    (s.taskArm k).kittyStat.taskState k = tsReady ∧ ((s.taskArm k).kittyStat.taskRt k).stamp = s.dlr.clock ∧
      s.SameMemory (s.taskArm k).kittyStat := by
  rw [taskArm_ready h hr]
  refine ⟨?_, ?_, (((setTaskState_onlyDlr s k tsArmed).deals.trans (enqueue_deals _ _ _)).trans (kittyStat_deals _)).memory⟩
  · rw [taskState_kittyStat, enqueue_taskState _ _ (by decide)]
  · rw [taskRt_kittyStat, enqueue_stamp]
    rfl

/-! ### Cancel, rule R90 -/

/-- The context of a task that is cancelled: its state and cause, and no cancel pending. -/
def State.markCancelled (s : State) (k cause : Nat) : State :=
  ((s.setTaskState k tsCancelled).setCtxF k 15 7 4 cause).setCtxF k 15 15 15 0

theorem markCancelled_state (s : State) (k cause : Nat) : (s.markCancelled k cause).taskState k = tsCancelled :=
  calc (s.markCancelled k cause).taskState k
    _ = ((s.setTaskState k tsCancelled).setCtxF k 15 7 4 cause).ctxF k 15 3 0 :=
      ctxF_setCtxF_apart (by decide) (by decide) (by decide) _ _ _ _
    _ = (s.setTaskState k tsCancelled).ctxF k 15 3 0 := ctxF_setCtxF_apart (by decide) (by decide) (by decide) _ _ _ _
    _ = tsCancelled := taskState_setTaskState s k (by decide)

theorem markCancelled_onlyDlr (s : State) (k cause : Nat) : s.OnlyDlr (s.markCancelled k cause) :=
  ((setTaskState_onlyDlr _ _ _).trans (setCtxF_onlyDlr _ _ _ _ _ _)).trans (setCtxF_onlyDlr _ _ _ _ _ _)

theorem markCancelled_cause (s : State) (k : Nat) {cause : Nat} (h : cause < 16) : (s.markCancelled k cause).ctxF k 15 7 4 = cause :=
  calc (s.markCancelled k cause).ctxF k 15 7 4
    _ = ((s.setTaskState k tsCancelled).setCtxF k 15 7 4 cause).ctxF k 15 7 4 :=
      ctxF_setCtxF_apart (by decide) (by decide) (by decide) _ _ _ _
    _ = cause % 2 ^ 4 := ctxF_setCtxF (by decide) (by decide) _ _ _ _
    _ = cause := Nat.mod_eq_of_lt h

theorem taskFlowCheck_signals (s : State) (k : Nat) : ∃ l, (∀ a ∈ l, a ≠ Reg.DLR_CANCEL_CNT) ∧ s.Signals (s.taskFlowCheck k) l := by
  unfold State.taskFlowCheck
  split
  · refine ⟨_, fun a ha => ?_, flowCheck_signals s _⟩
    obtain rfl | ha := List.mem_cons.mp ha
    · have := bitsOf_lt (s.ctxW k 7).toNat 16 11
      simp only [Reg.DLR_FLOW_STAT, State.ctxF, Reg.DLR_CANCEL_CNT]
      omega
    · exact ne_of_mem_of_not_mem ha (by decide)
  · exact ⟨[], by simp, (State.Writes.refl s).signals⟩

theorem taskCancel_software (s : State) (k : Nat) : s.taskCancel k 1 =
    ((((s.markCancelled k 1).inc Reg.DLR_CANCEL_CNT).event Page.DLR 0 (w32 1)).trace 0x48 0x12 (w32 k) (w32 (s.ctxF k 15 14 8)) 0
      0).taskFlowCheck k := by
  unfold State.taskCancel
  dsimp only
  rw [if_neg (by decide)]
  rfl

/-- A task enters CANCELLED by software: its context, and the count. -/
theorem taskCancel_frame (s : State) (k : Nat) : ∃ l, (∀ a ∈ l, a ≠ Reg.DLR_CANCEL_CNT) ∧
    ((s.markCancelled k 1).inc Reg.DLR_CANCEL_CNT).Signals (s.taskCancel k 1) l := by
  obtain ⟨l, hl, hs⟩ := taskFlowCheck_signals ((((s.markCancelled k 1).inc Reg.DLR_CANCEL_CNT).event Page.DLR 0 (w32 1)).trace 0x48 0x12
    (w32 k) (w32 (s.ctxF k 15 14 8)) 0 0) k
  rw [taskCancel_software]
  refine ⟨_, ?_, ((event_signals _ _ _ _).trans (trace_signals _ _ _ _ _ _ _)).trans hs⟩
  intro a ha
  obtain ha | ha := List.mem_append.mp ha
  · exact ne_of_mem_of_not_mem ha (by decide)
  · exact hl a ha

theorem softCancel_waiting {s : State} {k : Nat} (h : s.taskState k = tsArmed) : s.softCancel k = s.taskCancel k 1 := by
  unfold State.softCancel
  rw [h]
  rfl

theorem softCancel_running {s : State} {k : Nat} (h : s.taskState k = tsRunning) : s.softCancel k = s.setCtxF k 15 15 15 1 := by
  unfold State.softCancel
  rw [h]
  rfl

theorem cancel_waiting_clause {s : State} {k : Nat} (h : s.taskState k = tsArmed) :
    (s.softCancel k).kittyStat.taskState k = tsCancelled ∧ (s.softCancel k).kittyStat.ctxF k 15 7 4 = 1 ∧
      (s.softCancel k).kittyStat.rdN Reg.DLR_CANCEL_CNT = min (s.rdN Reg.DLR_CANCEL_CNT + 1) 0xFFFFFFFF ∧
      s.SameMemory (s.softCancel k).kittyStat := by
  obtain ⟨l, hl, hs⟩ := taskCancel_frame s k
  rw [softCancel_waiting h]
  have hctx : (s.taskCancel k 1).dlr.ctx = (s.markCancelled k 1).dlr.ctx := congrArg Dlr.ctx hs.dlr
  have hmark := (markCancelled_onlyDlr s k 1).deals.trans (inc_writes (s.markCancelled k 1) Reg.DLR_CANCEL_CNT).signals.deals
  refine ⟨?_, ?_, ?_, (hmark.memory.trans hs.memory).trans (kittyStat_deals _).memory⟩
  · rw [taskState_kittyStat, taskState_of_ctx hctx, markCancelled_state]
  · rw [ctxF_kittyStat, ctxF_of_ctx hctx, markCancelled_cause _ _ (by decide)]
  · rw [rdN_of_rd (rd_kittyStat (by decide) _), rdN_of_rd (hs.1 _ fun hm => hl _ hm rfl), rdN_inc,
      rdN_of_rd ((markCancelled_onlyDlr s k 1).deals.1 _ List.not_mem_nil)]

theorem cancel_running_clause {s : State} {k : Nat} (h : s.taskState k = tsRunning) :
    (s.softCancel k).kittyStat.taskState k = tsRunning ∧ (s.softCancel k).kittyStat.ctxF k 15 15 15 = 1 ∧
      s.SameRegs (s.softCancel k).kittyStat [Reg.DLR_STAT] ∧ s.SameMemory (s.softCancel k).kittyStat := by
  rw [softCancel_running h]
  have hd := (setCtxF_onlyDlr s k 15 15 15 1).deals.trans (kittyStat_deals _)
  refine ⟨?_, ?_, hd.1, hd.memory⟩
  · rw [taskState_kittyStat]
    exact (ctxF_setCtxF_apart (by decide) (by decide) (by decide) s k 15 1).trans h
  · rw [ctxF_kittyStat, ctxF_setCtxF (by decide) (by decide)]
    rfl

/-! ### The flags' set and clear, rules R92 and R93 -/

theorem sendFlag_room {s : State} (h : s.dlr.queue.length < 64) (engine : Option Nat) (k f : Nat) :
    s.sendFlag engine k f = ({ s with dlr := { s.dlr with queue := s.dlr.queue ++ [(k, f)] } } : State).setBit Reg.DLR_STAT 4
      (decide ((s.dlr.queue ++ [(k, f)]).length = 64)) := if_pos h

theorem sendFlag_room_clause {s : State} (h : s.dlr.queue.length < 64) (engine : Option Nat) (k f : Nat) :
    (s.sendFlag engine k f).dlr.queue = s.dlr.queue ++ [(k, f)] ∧
      (s.sendFlag engine k f).bit Reg.DLR_STAT 4 = decide (s.dlr.queue.length + 1 = 64) ∧
      s.SameRegs (s.sendFlag engine k f) [Reg.DLR_STAT] ∧
      s.sendFlag engine k f = { s with regs := (s.sendFlag engine k f).regs,
                                       dlr := { s.dlr with queue := (s.sendFlag engine k f).dlr.queue } } := by
  rw [sendFlag_room h]
  refine ⟨rfl, ?_, (setBit_writes ({ s with dlr := { s.dlr with queue := s.dlr.queue ++ [(k, f)] } } : State) _ _ _).1, rfl⟩
  rw [bit_setBit_self (by decide), List.length_append]
  rfl

/-- A software write of DLR_SETF sends the flag as its page's other writes do; engines write no page. -/
theorem setfWrite_software {s : State} {ag : Agent} {v : Word} (hw : s.writable ag Page.DLR = true) (hr : s.running = false) :
    s.setfWrite ag v = s.sendFlag none (bitsOf v.toNat 8 0) (bitsOf v.toNat 20 16) := by
  have hpage : s.swWrite ag Page.DLR (fun x => x.dlrOp ag (bitsOf v.toNat 8 0)
      (fun y => y.sendFlag none (bitsOf v.toNat 8 0) (bitsOf v.toNat 20 16))) =
      s.sendFlag none (bitsOf v.toNat 8 0) (bitsOf v.toNat 20 16) := by
    rw [swWrite_writable hw, dlrOp_stopped hr]
  cases ag with
  | engine n => simp [State.writable, pageRight] at hw
  | core n => exact hpage
  | host => exact hpage
  | channelA => exact hpage

theorem clearFlag_clause (s : State) (k : Nat) {f : Nat} (hf : f < 32) :
    (∀ i, ((s.setCtxF k 2 f f 0).ctxW k 2).getLsbD i = (decide (i ≠ f) && (s.ctxW k 2).getLsbD i)) ∧
      (∀ u w, w < 16 → ¬(u = k ∧ w = 2) → (s.setCtxF k 2 f f 0).ctxW u w = s.ctxW u w) ∧
      s.setCtxF k 2 f f 0 = { s with dlr := { s.dlr with ctx := (s.setCtxF k 2 f f 0).dlr.ctx } } := by
  refine ⟨fun i => ?_, fun u w hw hne => ctxW_setCtxW_ne (by decide) hw hne s _, rfl⟩
  rw [getLsbD_setCtxF (Nat.le_refl f) hf]
  by_cases hi : i = f
  · simp [hi]
  · rw [if_neg (by omega)]
    simp [hi]

/-! ### Context words and flows, rules R89 and R100 -/

/-- The round that a task has completed in goes where its position in a flow is moved, rule R99. -/
def State.leaveRound (s : State) (k : Nat) (moved : Bool) : State := if moved then s.setTaskRt k { s.taskRt k with round := false } else s

theorem leaveRound_frame (s : State) (k : Nat) (moved : Bool) :
    (s.leaveRound k moved).dlr.ctx = s.dlr.ctx ∧ s.SameMemory (s.leaveRound k moved) := by
  unfold State.leaveRound
  split <;> exact ⟨rfl, rfl, rfl, rfl, rfl, rfl⟩

theorem ctxWrite_dormant {s : State} {w : Nat} (v : Word) (hc : s.configurable = true) (h2 : w ≠ 2) (h15 : w ≠ 15)
    (hst : s.taskState (s.fld Reg.DLR_CTX_SEL 8 0) = tsDormant) :
    ∃ moved, s.ctxWrite w v = (forUpTo (fun f x => x.flowCheck f) 64
      ((s.leaveRound (s.fld Reg.DLR_CTX_SEL 8 0) moved).setCtxW (s.fld Reg.DLR_CTX_SEL 8 0) w (v &&& ctxMask w))).kittyStat := by
  refine ⟨decide (w = 7) && bitsOf v.toNat 17 11 != s.ctxF (s.fld Reg.DLR_CTX_SEL 8 0) 7 17 11, ?_⟩
  unfold State.ctxWrite
  dsimp only
  rw [if_neg (by simp [h2, h15]), if_pos (by simp [hst, hc])]
  rfl

/-- The checks of all flows leave what the Dealer keeps, and the memories. -/
theorem flowChecks_frame (s : State) (n : Nat) :
    (forUpTo (fun f x => x.flowCheck f) n s).dlr = s.dlr ∧ s.SameMemory (forUpTo (fun f x => x.flowCheck f) n s) :=
  forUpTo_invariant (P := fun t => t.dlr = s.dlr ∧ s.SameMemory t)
    (fun f t h => ⟨(flowCheck_signals t f).dlr.trans h.1, h.2.trans (flowCheck_signals t f).memory⟩) n ⟨rfl, rfl, rfl, rfl, rfl, rfl⟩

theorem ctxWrite_dormant_clause {s : State} {w : Nat} (v : Word) (hw : w < 16) (hc : s.configurable = true) (h2 : w ≠ 2) (h15 : w ≠ 15)
    (hst : s.taskState (s.fld Reg.DLR_CTX_SEL 8 0) = tsDormant) :
    (s.ctxWrite w v).ctxW (s.fld Reg.DLR_CTX_SEL 8 0) w = v &&& ctxMask w ∧
      (∀ u x, x < 16 → ¬(u = s.fld Reg.DLR_CTX_SEL 8 0 ∧ x = w) → (s.ctxWrite w v).ctxW u x = s.ctxW u x) ∧
      s.SameMemory (s.ctxWrite w v) := by
  obtain ⟨moved, heq⟩ := ctxWrite_dormant v hc h2 h15 hst
  rw [heq]
  generalize s.fld Reg.DLR_CTX_SEL 8 0 = k
  obtain ⟨hctx, hmem⟩ := leaveRound_frame s k moved
  obtain ⟨hdlr, hmem'⟩ := flowChecks_frame ((s.leaveRound k moved).setCtxW k w (v &&& ctxMask w)) 64
  have hread (u x : Nat) := (ctxW_kittyStat (forUpTo (fun f x => x.flowCheck f) 64 ((s.leaveRound k moved).setCtxW k w (v &&& ctxMask w))) u
    x).trans (ctxW_of_ctx (congrArg Dlr.ctx hdlr) u x)
  refine ⟨?_, fun u x hx hne => ?_, (hmem.trans hmem').trans (kittyStat_deals _).memory⟩
  · rw [hread, ctxW_setCtxW, if_pos rfl]
  · rw [hread, ctxW_setCtxW_ne hw hx hne, ctxW_of_ctx hctx]

/-- A task that holds a position of flow `f` has not completed in the flow's new round. -/
def State.leaveFlow (f k : Nat) (s : State) : State :=
  if s.ctxF k 7 17 17 == 1 && s.ctxF k 7 16 11 == f then s.setTaskRt k { s.taskRt k with round := false } else s

theorem leaveFlow_frame (f : Nat) (l : List Nat) (s : State) :
    s.OnlyDlr (forEach (State.leaveFlow f) l s) ∧ (forEach (State.leaveFlow f) l s).dlr.ctx = s.dlr.ctx := by
  refine forEach_invariant (P := fun t => s.OnlyDlr t ∧ t.dlr.ctx = s.dlr.ctx) (f := State.leaveFlow f) (fun k t h => ?_) l s ⟨rfl, rfl⟩
  unfold State.leaveFlow
  split
  · exact ⟨h.1.trans (setTaskRt_onlyDlr _ _ _), h.2⟩
  · exact h

/-- A flow's round belongs to a tick of the present parity, rule R98. -/
def State.noteParity (s : State) (f : Nat) (par : Nat) (old : List Nat) : State :=
  { s with dlr := { s.dlr with odd := if par = 1 then f :: old.filter (fun g => g ≠ f) else old.filter (fun g => g ≠ f) } }

theorem noteParity_frame (s : State) (f par : Nat) (old : List Nat) :
    s.OnlyDlr (s.noteParity f par old) ∧ (s.noteParity f par old).dlr.ctx = s.dlr.ctx := ⟨rfl, rfl⟩

theorem newRound_eq (s : State) (f : Nat) : s.newRound f =
    ((forEach (State.leaveFlow f) allTasks (s.setFld (Reg.DLR_FLOW_STAT f) 15 0 0)).noteParity f s.parity s.dlr.odd).flowBlockStat := by
  unfold State.newRound
  generalize allTasks = l
  rfl

/-- A new round writes the flow's own DLR_FLOW_STAT and FLOW_BLOCK. -/
theorem newRound_frame (s : State) (f : Nat) :
    (s.setFld (Reg.DLR_FLOW_STAT f) 15 0 0).Deals (s.newRound f) [Reg.DLR_STAT] ∧ (s.newRound f).dlr.ctx = s.dlr.ctx := by
  obtain ⟨hd, hctx⟩ := leaveFlow_frame f allTasks (s.setFld (Reg.DLR_FLOW_STAT f) 15 0 0)
  rw [newRound_eq]
  refine ⟨(hd.trans (noteParity_frame _ _ _ _).1).deals.trans (flowBlockStat_writes _).signals.deals, ?_⟩
  rw [(flowBlockStat_writes _).signals.dlr, (noteParity_frame _ _ _ _).2, hctx, State.setFld_dlr]

theorem flowNext_newRound (s : State) (f : Nat) : (s.newRound f).flowNext f = 0 := by
  unfold State.flowNext
  rw [fld_of_rd ((newRound_frame s f).1.1 _ (by simp [Reg.DLR_FLOW_STAT, Reg.DLR_STAT]; omega)),
    fld_setFld_within (by decide) (by decide) (by decide) (by decide)]
  rfl

theorem flowReset_clause {s : State} {f : Nat} (hf : f < 64) (h : s.flowPhase f = 7) (ag : Agent) :
    (s.flowReset ag f).flowNext f = 0 ∧ (∀ u w, (s.flowReset ag f).ctxW u w = s.ctxW u w) ∧ s.SameMemory (s.flowReset ag f) := by
  have heq : s.flowReset ag f = (s.newRound f).flowCheck f := if_pos h
  obtain ⟨hd, hctx⟩ := newRound_frame s f
  have hcheck := flowCheck_signals (s.newRound f) f
  rw [heq]
  refine ⟨?_, ctxW_of_ctx ((congrArg Dlr.ctx hcheck.dlr).trans hctx),
    (((setFld_writes _ _ _ _ _).signals.deals.trans hd).trans hcheck.deals).memory⟩
  rw [flowNext_flowCheck _ hf, flowNext_newRound]

/-- Settles O21: each write reaches its page, and the operation's own clause says what follows. -/
theorem dealerSoftware : Obligations.DealerSoftware := by
  refine ⟨?_, ?_, ?_, ?_, ?_, ?_, ?_, ?_⟩
  · intro s ag v hw hr hst hready
    refine completes_write hw rfl ?_
    rw [dlrOp_stopped hr]
    exact arm_waits_clause hst hready
  · intro s ag v hw hr hst hready
    refine completes_write hw rfl ?_
    rw [dlrOp_stopped hr]
    exact arm_ready_clause hst hready
  · intro s ag v hw hr hst _
    refine completes_write hw rfl ?_
    rw [dlrOp_stopped hr]
    exact cancel_waiting_clause hst
  · intro s ag v hw hr hst
    refine completes_write hw rfl ?_
    rw [dlrOp_stopped hr]
    exact cancel_running_clause hst
  · intro s ag v hw hr hq
    exact ⟨_, congrArg Host.Outcome.next (setfWrite_software hw hr), sendFlag_room_clause hq _ _ _⟩
  · intro s ag v hw hr
    refine completes_write hw rfl ?_
    rw [dlrOp_stopped hr]
    exact clearFlag_clause s _ (bitsOf_lt v.toNat 20 16)
  · intro s ag w v hw hc h2 h15 hst
    exact completes_write hw rfl (ctxWrite_dormant_clause v w.isLt hc h2 h15 hst)
  · intro s ag v hw hph
    exact completes_write hw rfl (flowReset_clause (bitsOf_lt v.toNat 5 0) hph ag)

end Sys2Proof.Machine
end

section
/-! SUPPORT. Flags that reach their context, grants to engines and stage-in copies, and the releases of flows (O22). -/

namespace Sys2Proof.Machine

/-! ### The event queue, rules R92 and R93 -/

theorem setFlag_new {s : State} {k f : Nat} (h : (s.ctxW k 2).getLsbD f = false) (hst : s.taskState k ≠ tsArmed) :
    s.setFlag k f = s.setCtxF k 2 f f 1 := by
  unfold State.setFlag
  rw [if_neg (by simp [h])]
  refine readyCheck_idle (.inl ?_)
  rwa [State.taskState, ctxF_setCtxF_ne (by decide)]

/-- The event queue and the senders that stall. -/
def State.setQueues (s : State) (queue : List (Nat × Nat)) (stalled : List Stalled) : State :=
  { s with dlr := { s.dlr with queue := queue, stalled := stalled } }

/-- What a cycle does once it has taken in its flags: stalled senders fill the room of the queue, `n` count, and their engines go on. -/
def State.refill (s : State) (n : Nat) : State :=
  let goes := s.dlr.stalled.take (64 - s.dlr.queue.length)
  let s3 := s.setQueues (s.dlr.queue ++ goes.map (fun x => (x.task, x.flag))) (s.dlr.stalled.drop (64 - s.dlr.queue.length))
  let s4 := (s3.add Reg.DLR_EVQ_STALL_CNT n).setBit Reg.DLR_STAT 4 (decide (64 ≤ s3.dlr.queue.length))
  (forEach (fun x st => st.wakeSender x) goes s4).kittyStat

theorem queueAccept_eq (s : State) : s.queueAccept =
    (forEach (fun p st => st.setFlag p.1 p.2) (s.dlr.queue.take 4) (s.setQueues (s.dlr.queue.drop 4) s.dlr.stalled)).refill
      (stallers s.dlr.stalled) := by
  unfold State.queueAccept
  rfl

/-- Without a sender that stalls the queue stays as it is. -/
theorem refill_none {s : State} (hs : s.dlr.stalled = []) (n : Nat) : s.refill n =
    ((s.add Reg.DLR_EVQ_STALL_CNT n).setBit Reg.DLR_STAT 4 (decide (64 ≤ s.dlr.queue.length))).kittyStat := by
  have hself : s.setQueues s.dlr.queue [] = s := congrArg (s.setQueues s.dlr.queue) hs.symm
  unfold State.refill
  dsimp only
  rw [hs, List.take_nil, List.drop_nil, List.map_nil, List.append_nil, hself]
  rfl

/-- The only flag of the event queue is in its context. -/
def State.takeFlag (s : State) (k f : Nat) : State := (s.setQueues [] []).setCtxF k 2 f f 1

theorem takeFlag_onlyDlr (s : State) (k f : Nat) : s.OnlyDlr (s.takeFlag k f) := rfl
theorem takeFlag_queue (s : State) (k f : Nat) : (s.takeFlag k f).dlr.queue = [] := rfl

theorem queueAccept_one {s : State} {k f : Nat} (hq : s.dlr.queue = [(k, f)]) (hs : s.dlr.stalled = [])
    (hflag : (s.ctxW k 2).getLsbD f = false) (hst : s.taskState k ≠ tsArmed) :
    s.queueAccept = (((s.takeFlag k f).add Reg.DLR_EVQ_STALL_CNT (stallers [])).setBit Reg.DLR_STAT 4 false).kittyStat := by
  have hset : (s.setQueues [] []).setFlag k f = s.takeFlag k f := setFlag_new hflag hst
  rw [queueAccept_eq, hq, hs]
  show State.refill ((s.setQueues [] []).setFlag k f) _ = _
  rw [hset, refill_none rfl, takeFlag_queue]
  rfl

theorem queueAccept_clause {s : State} {k f : Nat} (hq : s.dlr.queue = [(k, f)]) (hs : s.dlr.stalled = [])
    (hflag : (s.ctxW k 2).getLsbD f = false) (hf : f < 32) (hst : s.taskState k ≠ tsArmed) :
    s.queueAccept.dlr.queue = [] ∧ (s.queueAccept.ctxW k 2).getLsbD f = true ∧ s.queueAccept.taskState k = s.taskState k ∧
      s.queueAccept.bit Reg.DLR_STAT 4 = false ∧ s.SameRegs s.queueAccept [Reg.DLR_STAT, Reg.DLR_EVQ_STALL_CNT] ∧
      s.SameMemory s.queueAccept := by
  have hw := (add_writes (s.takeFlag k f) Reg.DLR_EVQ_STALL_CNT (stallers [])).trans (setBit_writes _ Reg.DLR_STAT 4 false)
  have hd := ((takeFlag_onlyDlr s k f).deals.trans hw.signals.deals).trans (kittyStat_deals _)
  have hctx := congrArg Dlr.ctx hw.signals.dlr
  rw [queueAccept_one hq hs hflag hst]
  refine ⟨?_, ?_, ?_, ?_, hd.1.mono (by simp), hd.memory⟩
  · rw [kittyStat_dlr]
    exact (congrArg Dlr.queue hw.signals.dlr).trans (takeFlag_queue s k f)
  · rw [ctxW_kittyStat, ctxW_of_ctx hctx, State.takeFlag, getLsbD_setCtxF (Nat.le_refl f) hf, if_pos ⟨Nat.le_refl f, Nat.le_refl f⟩,
      Nat.sub_self]
    rfl
  · rw [taskState_kittyStat, taskState_of_ctx hctx]
    exact ctxF_setCtxF_ne (by decide) (s.setQueues [] []) k f f 1 3 0
  · rw [bit_kittyStat (by decide), bit_setBit_self (by decide)]

/-! ### TAKE returns, rules R56 and R75 -/

/-- Engine `e` with task `k` as TAKE leaves it. -/
def State.loadTask (s : State) (e k : Nat) (resumed : Bool) : State :=
  s.setEng e ((s.engOf e).taken k (s.ctxW k 3) (s.ctxW k 4) (s.ctxW k 5) (s.ctxF k 0 15 0) resumed)

/-- The engine's page shows the task. -/
def State.showTask (s : State) (e k st : Nat) : State :=
  (((s.setEngState e st).setBit (Reg.ENG_STAT e) 4 false).wrN (Reg.ENG_TASK e) (k + 0x80000000)).inc (Reg.ENG_TASK_CNT e)

theorem takeReturns_eq (s : State) (e k : Nat) (resumed : Bool) : s.takeReturns e k resumed =
    ((s.loadTask e k resumed).showTask e k (if resumed then 4 else 3)).engTrace e 0x01 k := by
  unfold State.takeReturns
  rfl

theorem showTask_writes (s : State) (e k st : Nat) :
    s.Writes (s.showTask e k st) [Reg.ENG_STAT e, Reg.ENG_STAT e, Reg.ENG_TASK e, Reg.ENG_TASK_CNT e] :=
  (((setFld_writes _ _ _ _ _).trans (setBit_writes _ _ _ _)).trans (wrN_writes _ _ _)).trans (inc_writes _ _)

theorem showTask_page (s : State) (e k : Nat) {st : Nat} (h : st < 16) :
    (s.showTask e k st).engState e = st ∧ (s.showTask e k st).rdN (Reg.ENG_TASK e) = (k + 0x80000000) % 2 ^ 32 := by
  unfold State.showTask
  constructor
  · unfold State.engState
    rw [fld_of_rd (rd_inc_ne (by simp [Reg.ENG_STAT, Reg.ENG_TASK_CNT]) _),
      fld_of_rd (rd_wrN_ne (by simp [Reg.ENG_STAT, Reg.ENG_TASK]) _ _), State.setBit, fld_setFld_ne (by decide) (by decide) (by decide)]
    exact engState_setEngState s e h
  · rw [rdN_of_rd (rd_inc_ne (by simp [Reg.ENG_TASK, Reg.ENG_TASK_CNT]) _), rdN_wrN_self]

/-- The registers that a return of TAKE may change. -/
abbrev takeRegs (e : Nat) : List Nat := [Reg.ENG_STAT e, Reg.ENG_TASK e, Reg.ENG_TASK_CNT e] ++ traceRegs e

theorem engTask_notMem_traceRegs (e : Nat) : Reg.ENG_TASK e ∉ traceRegs e := by
  simp [traceRegs, Reg.ENG_TASK, Reg.EVT_TRC_DROP_CNT, Reg.EVT_TRC_GAP_CNT, Reg.EVT_STAT, Reg.PG_IRQ_RAW, Page.EVT]
  omega

/-- What the return of TAKE shows of the engine. -/
theorem takeReturns_engine (s : State) (e k : Nat) (resumed : Bool) :
    (s.takeReturns e k resumed).engState e = (if resumed then 4 else 3) ∧
      (s.takeReturns e k resumed).rdN (Reg.ENG_TASK e) = (k + 0x80000000) % 2 ^ 32 ∧
      (s.takeReturns e k resumed).engOf e = (s.engOf e).taken k (s.ctxW k 3) (s.ctxW k 4) (s.ctxW k 5) (s.ctxF k 0 15 0) resumed := by
  rw [takeReturns_eq]
  have hw := showTask_writes (s.loadTask e k resumed) e k (if resumed then 4 else 3)
  obtain ⟨hst, htask⟩ := showTask_page (s.loadTask e k resumed) e k (st := if resumed then 4 else 3) (by split <;> decide)
  have hk := engTrace_keepsEngine ((s.loadTask e k resumed).showTask e k (if resumed then 4 else 3)) e 0x01 k
  refine ⟨hk.engState.trans hst, ?_, ?_⟩
  · rw [rdN_of_rd ((engTrace_signals _ _ _ _).1 _ (engTask_notMem_traceRegs e)), htask]
  · rw [hk.engOf, State.engOf, hw.signals.eng]
    exact (engOf_setEng s e e _).trans (if_pos rfl)

/-- What the return of TAKE leaves: the Dealer, the memories, and the registers of other pages. -/
theorem takeReturns_frame (s : State) (e k : Nat) (resumed : Bool) :
    (s.takeReturns e k resumed).dlr = s.dlr ∧ s.SameMemory (s.takeReturns e k resumed) ∧
      s.SameRegs (s.takeReturns e k resumed) (takeRegs e) := by
  rw [takeReturns_eq]
  have hload : (s.loadTask e k resumed).dlr = s.dlr ∧ s.SameMemory (s.loadTask e k resumed) ∧ s.SameRegs (s.loadTask e k resumed) [] :=
    ⟨rfl, ⟨rfl, rfl, rfl, rfl, rfl⟩, fun _ _ => rfl⟩
  have hs := (showTask_writes (s.loadTask e k resumed) e k (if resumed then 4 else 3)).signals.trans
    (engTrace_signals ((s.loadTask e k resumed).showTask e k (if resumed then 4 else 3)) e 0x01 k)
  exact ⟨hs.dlr.trans hload.1, hload.2.1.trans hs.memory, (hload.2.2.trans hs.1).mono (by simp)⟩

/-! ### Grants, rules R90, R95 and R96 -/

/-- A task that is granted, before the grant is counted and traced. -/
def State.markGranted (s : State) (k agent : Nat) : State :=
  let s1 := (s.setTaskState k tsRunning).setCtxF k 15 14 8 agent
  s1.setTaskRt k { s1.taskRt k with grantFlags := if s.taskState k == tsPreempted then (s.taskRt k).grantFlags else s.ctxW k 2,
                                    grantTick := s.tick, waited := false }

theorem granted_eq (s : State) (k agent : Nat) : s.granted k agent =
    ((s.markGranted k agent).inc Reg.DLR_GRANT_CNT).trace 0x48 0x10 (w32 k) (w32 agent) 0 0 := by
  unfold State.granted
  rfl

theorem markGranted_onlyDlr (s : State) (k agent : Nat) : s.OnlyDlr (s.markGranted k agent) :=
  ((setTaskState_onlyDlr _ _ _).trans (setCtxF_onlyDlr _ _ _ _ _ _)).trans (setTaskRt_onlyDlr _ _ _)

theorem markGranted_ctx (s : State) (k agent : Nat) :
    (s.markGranted k agent).dlr.ctx = ((s.setTaskState k tsRunning).setCtxF k 15 14 8 agent).dlr.ctx := setTaskRt_ctx _ _ _

theorem granted_ctx (s : State) (k agent : Nat) :
    (s.granted k agent).dlr.ctx = ((s.setTaskState k tsRunning).setCtxF k 15 14 8 agent).dlr.ctx := by
  rw [granted_eq, (trace_signals _ _ _ _ _ _ _).dlr, State.inc_dlr, markGranted_ctx]

theorem granted_deals (s : State) (k agent : Nat) : s.Deals (s.granted k agent) (Reg.DLR_GRANT_CNT :: traceRegs 0x48) := by
  rw [granted_eq]
  exact ((markGranted_onlyDlr s k agent).deals.trans (inc_writes _ _).signals.deals).trans (trace_signals _ _ _ _ _ _ _).deals

theorem granted_state (s : State) (k agent : Nat) : (s.granted k agent).taskState k = tsRunning := by
  rw [taskState_of_ctx (granted_ctx s k agent)]
  exact (ctxF_setCtxF_apart (by decide) (by decide) (by decide) _ _ _ _).trans (taskState_setTaskState s k (by decide))

theorem granted_agent (s : State) (k agent : Nat) : (s.granted k agent).ctxF k 15 14 8 = agent % 128 := by
  rw [ctxF_of_ctx (granted_ctx s k agent)]
  exact ctxF_setCtxF (by decide) (by decide) _ k 15 agent

theorem granted_ctxF (s : State) (k agent : Nat) {w : Nat} (h : w ≠ 15) (hi lo : Nat) :
    (s.granted k agent).ctxF k w hi lo = s.ctxF k w hi lo := by
  rw [ctxF_of_ctx (granted_ctx s k agent), ctxF_setCtxF_ne h]
  exact ctxF_setCtxF_ne h _ _ _ _ _ _ _

theorem granted_count (s : State) (k agent : Nat) :
    (s.granted k agent).rdN Reg.DLR_GRANT_CNT = min (s.rdN Reg.DLR_GRANT_CNT + 1) 0xFFFFFFFF := by
  rw [granted_eq, rdN_of_rd ((trace_signals _ _ _ _ _ _ _).1 _ (by decide)), rdN_inc,
    rdN_of_rd ((markGranted_onlyDlr s k agent).deals.1 _ List.not_mem_nil)]

/-- A grant from a home queue without a stage-in copy: TAKE returns at once. -/
theorem grantEngine_direct {s : State} {e k : Nat} (hue : s.ueIn 0xA2 (64 * k) 64 = false) (hst : s.taskState k = tsReady)
    (hlen : s.ctxF k 7 10 0 = 0) : s.grantEngine e k false = (s.granted k e).takeReturns e k false := by
  have hread : s.ctxRead k = (s, true) := if_neg (by simp [hue])
  unfold State.grantEngine
  rw [hread, hst]
  dsimp only
  rw [if_neg (by decide), if_pos hlen]
  rfl

theorem homePick_first {s : State} {q e k : Nat} (he : (s.waiters q).find? (fun e => (s.homeFirst false e).isSome) = some e)
    (hk : s.homeFirst false e = some k) : s.homePick q = some (e, k) := by
  obtain ⟨-, l₁, l₂, hl, hnone⟩ := List.find?_eq_some_iff_append.mp he
  refine List.findSome?_eq_some_iff.mpr ⟨l₁, e, l₂, hl, by rw [hk]; rfl, fun x hx => ?_⟩
  have := hnone x hx
  simpa using this

theorem taskGrant_home {s : State} {q e k : Nat} (hq : q < 4) (h : s.homePick q = some (e, k)) :
    s.taskGrant q = (s.grantEngine e k false).kittyStat := by
  unfold State.taskGrant State.grantQuad
  rw [if_pos hq, h]

theorem grantEngine_clause {s : State} {e k : Nat} (hk : k < 512) (hue : s.ueIn 0xA2 (64 * k) 64 = false) (hst : s.taskState k = tsReady)
    (hlen : s.ctxF k 7 10 0 = 0) :
    (s.grantEngine e k false).kittyStat.taskState k = tsRunning ∧ (s.grantEngine e k false).kittyStat.ctxF k 15 14 8 = e % 128 ∧
      (s.grantEngine e k false).kittyStat.engState e = 3 ∧
      (s.grantEngine e k false).kittyStat.rdN (Reg.ENG_TASK e) = k + 0x80000000 ∧
      ((s.grantEngine e k false).kittyStat.engOf e).task = some k ∧
      ((s.grantEngine e k false).kittyStat.engOf e).pc = s.ctxF k 0 15 0 / 8 * 8 ∧
      (s.grantEngine e k false).kittyStat.rdN Reg.DLR_GRANT_CNT = min (s.rdN Reg.DLR_GRANT_CNT + 1) 0xFFFFFFFF ∧
      s.SameMemory (s.grantEngine e k false).kittyStat := by
  rw [grantEngine_direct hue hst hlen]
  obtain ⟨hdlr, hmem, hregs⟩ := takeReturns_frame (s.granted k e) e k false
  obtain ⟨hstate, htask, heng⟩ := takeReturns_engine (s.granted k e) e k false
  have hkit := kittyStat_keepsEngine ((s.granted k e).takeReturns e k false) e
  have hctx := congrArg Dlr.ctx hdlr
  refine ⟨?_, ?_, hkit.engState.trans hstate, ?_, ?_, ?_, ?_, ((granted_deals s k e).memory.trans hmem).trans hkit.memory⟩
  · rw [taskState_kittyStat, taskState_of_ctx hctx, granted_state]
  · rw [ctxF_kittyStat, ctxF_of_ctx hctx, granted_agent]
  · rw [rdN_of_rd (rd_kittyStat (by simp [Reg.ENG_TASK, Reg.DLR_STAT]; omega) _), htask]
    omega
  · rw [hkit.engOf, heng]
    rfl
  · rw [hkit.engOf, heng, granted_ctxF s k e (by decide)]
    rfl
  · have hcnt : Reg.DLR_GRANT_CNT ∉ takeRegs e := by
      simp [traceRegs, Reg.DLR_GRANT_CNT, Reg.ENG_STAT, Reg.ENG_TASK, Reg.ENG_TASK_CNT, Reg.EVT_TRC_DROP_CNT, Reg.EVT_TRC_GAP_CNT,
        Reg.EVT_STAT, Reg.PG_IRQ_RAW, Page.EVT]
      omega
    rw [rdN_of_rd (rd_kittyStat (by decide) _), rdN_of_rd (hregs _ hcnt), granted_count]

/-! ### Stage-in copies, rule R96 -/

/-- The oldest copy has ended: its bytes stand in the stage-in half of its engine's data SRAM. -/
def State.copyIn (s : State) (x : StageIn) (rest : List StageIn) : State :=
  { s with
    dlr := { s.dlr with stage := rest }
    data := s.data.setBytes (0x20000 * x.engine + 0x10000) (s.cell.bytes (s.ctxW x.task 6).toNat (64 * min 1024 (s.ctxF x.task 7 10 0))) }

theorem stageIn_clean {s : State} {x : StageIn} {rest : List StageIn} (hs : s.dlr.stage = x :: rest) (hue : s.integ.ue = [])
    (hin : inCell (s.ctxW x.task 6).toNat (64 * min 1024 (s.ctxF x.task 7 10 0)) = true) :
    s.stageIn = (s.copyIn x rest).takeReturns x.engine x.task x.resumed := by
  have hrep (a n : Nat) : (s.copyIn x rest).ueReplaced (0x40 + x.engine) a n = s.copyIn x rest :=
    ueReplaced_nil (s := s.copyIn x rest) hue _ _ _
  unfold State.stageIn
  rw [hs]
  dsimp only
  rw [if_neg (by simp [ueIn_nil hue, hin])]
  exact congrArg (fun t => State.takeReturns t x.engine x.task x.resumed) (hrep _ _)

theorem stageIn_clause {s : State} {x : StageIn} {rest : List StageIn} (hs : s.dlr.stage = x :: rest) (hue : s.integ.ue = [])
    (hin : inCell (s.ctxW x.task 6).toNat (64 * min 1024 (s.ctxF x.task 7 10 0)) = true) :
    s.stageIn.dlr.stage = rest ∧ (s.stageIn.engOf x.engine).task = some x.task ∧
      s.stageIn.data = s.data.setBytes (0x20000 * x.engine + 0x10000)
        (s.cell.bytes (s.ctxW x.task 6).toNat (64 * min 1024 (s.ctxF x.task 7 10 0))) ∧
      s.stageIn.cell = s.cell ∧ s.stageIn.dram = s.dram ∧ s.stageIn.code = s.code := by
  rw [stageIn_clean hs hue hin]
  obtain ⟨hdlr, ⟨hcell, hdram, -, hcode, hdata⟩, -⟩ := takeReturns_frame (s.copyIn x rest) x.engine x.task x.resumed
  obtain ⟨-, -, heng⟩ := takeReturns_engine (s.copyIn x rest) x.engine x.task x.resumed
  exact ⟨congrArg Dlr.stage hdlr, congrArg Eng.task heng, hdata, hcell, hdram, hcode⟩

/-! ### The end of a steal delay, rule R94 -/

theorem stealDelay_eq {s : State} {k : Nat} (hq : s.queued k = true) (hs : s.ctxF k 0 30 30 = 1) (hh : s.taskHome k ≠ 0x7F) :
    s.stealDelay k = (s.setTaskRt k { s.taskRt k with waited := true }).kittyStat := if_pos (by simp [hq, hs, hh])

theorem inKitty_of_waited {s : State} {k : Nat} (hq : s.queued k = true) (hw : (s.taskRt k).waited = true) : s.inKitty k = true := by
  simp [State.inKitty, hq, hw]

theorem queued_of_ctx {s t : State} (h : t.dlr.ctx = s.dlr.ctx) (k : Nat) : t.queued k = s.queued k := by
  unfold State.queued
  rw [taskState_of_ctx h]

theorem stealDelay_clause {s : State} {k : Nat} (hq : s.queued k = true) (hs : s.ctxF k 0 30 30 = 1) (hh : s.taskHome k ≠ 0x7F) :
    ((s.stealDelay k).taskRt k).waited = true ∧ (s.stealDelay k).inKitty k = true ∧ s.SameRegs (s.stealDelay k) [Reg.DLR_STAT] ∧
      s.stealDelay k = { s with regs := (s.stealDelay k).regs,
                                dlr := { s.dlr with tasks := (s.stealDelay k).dlr.tasks, clock := s.dlr.clock + 1 } } := by
  rw [stealDelay_eq hq hs hh]
  have hwait : ((s.setTaskRt k { s.taskRt k with waited := true }).kittyStat.taskRt k).waited = true := by
    rw [taskRt_kittyStat, taskRt_setTaskRt]
  have hqueue : (s.setTaskRt k { s.taskRt k with waited := true }).kittyStat.queued k = true := by
    rw [queued_of_ctx (kittyStat_ctx _).1, queued_of_ctx (setTaskRt_ctx _ _ _), hq]
  refine ⟨hwait, inKitty_of_waited hqueue hwait, ((setTaskRt_onlyDlr s k _).deals.trans (kittyStat_deals _)).1, ?_⟩
  rw [(kittyStat_writes (s.setTaskRt k { s.taskRt k with waited := true })).2]
  rfl

/-! ### Releases of a flow, rules R98 to R100 -/

/-- The next position of flow `f`, not its last, is held by task `k`, which has completed in the round that runs. -/
structure State.Releases (s : State) (f k : Nat) : Prop where
  live : s.flowLive f = true
  unblocked : s.bit (Reg.DLR_FLOW_STAT f) 15 = false
  more : s.flowNext f + 1 < s.flowLen f
  holder : s.flowHolder f (s.flowNext f) = some k
  round : (s.taskRt k).round = true
  notCancelled : s.taskState k ≠ tsCancelled
  notFaulted : s.taskState k ≠ tsFaulted

theorem flowRelease_next {s : State} {f k : Nat} (h : s.Releases f k) (herr : s.flowErr f (s.flowNext f) (s.ctxW k 8).toNat = false) :
    s.flowRelease f = ((s.flowMove f (s.flowNext f) (s.ctxW k 8).toNat).setFld (Reg.DLR_FLOW_STAT f) 9 0 (s.flowNext f + 1)).flowCheck f := by
  have hmore := h.more
  unfold State.flowRelease
  dsimp only
  rw [if_pos (by simp [h.live, h.unblocked]; omega), h.holder]
  dsimp only
  rw [if_neg (by simp [h.notCancelled, h.notFaulted]), if_neg (by simp [h.round]), if_neg (by simp [herr]), if_neg (by omega)]

theorem flowRelease_clause {s : State} {f k : Nat} (hf : f < 64) (h : s.Releases f k)
    (herr : s.flowErr f (s.flowNext f) (s.ctxW k 8).toNat = false) {t : State} (ht : s.flowMove f (s.flowNext f) (s.ctxW k 8).toNat = t) :
    (s.flowRelease f).kittyStat.flowNext f = s.flowNext f + 1 ∧ (s.flowRelease f).kittyStat.dlr.ctx = t.dlr.ctx ∧
      t.SameMemory (s.flowRelease f).kittyStat := by
  rw [flowRelease_next h herr, ht]
  have hset := setFld_writes t (Reg.DLR_FLOW_STAT f) 9 0 (s.flowNext f + 1)
  have hcheck := flowCheck_signals (t.setFld (Reg.DLR_FLOW_STAT f) 9 0 (s.flowNext f + 1)) f
  have hs := hset.signals.trans hcheck
  refine ⟨?_, (kittyStat_ctx _).1.trans (congrArg Dlr.ctx hs.dlr), hs.memory.trans (kittyStat_deals _).memory⟩
  have hlen : s.flowLen f < 2 ^ 10 := bitsOf_lt _ 18 9
  have hmore := h.more
  rw [flowNext_kittyStat, flowNext_flowCheck _ hf]
  exact (fld_setFld (by decide) (by decide) _ _ _).trans (Nat.mod_eq_of_lt (by omega))

theorem flowErr_none {s : State} {f : Nat} (h : s.flowF f 0 2 1 = 0) (pos src : Nat) : s.flowErr f pos src = false := by
  unfold State.flowErr
  dsimp only
  rw [h]
  rfl

theorem flowMove_none {s : State} {f : Nat} (h : s.flowF f 0 2 1 = 0) (pos src : Nat) : s.flowMove f pos src = s := by
  unfold State.flowMove
  dsimp only
  rw [h]
  rfl

theorem flowErr_copy {s : State} {f pos src : Nat} (h : s.flowF f 0 2 1 = 1) (hue : s.integ.ue = [])
    (hsrc : inCell src (8 * (s.flowF f 0 8 3 + 1)) = true)
    (hdst : inCell (s.flowDst f + 8 * (s.flowF f 0 8 3 + 1) * pos) (8 * (s.flowF f 0 8 3 + 1)) = true) : s.flowErr f pos src = false := by
  unfold State.flowErr
  dsimp only
  rw [h]
  simp [ueIn_nil hue, hsrc, hdst]

/-- The record of a COPY flow at its release, into an unsealed destination. -/
theorem flowMove_copy {s : State} {f pos src : Nat} (h : s.flowF f 0 2 1 = 1) (hue : s.integ.ue = [])
    (hsrc : inCell src (8 * (s.flowF f 0 8 3 + 1)) = true)
    (hdst : inCell (s.flowDst f + 8 * (s.flowF f 0 8 3 + 1) * pos) (8 * (s.flowF f 0 8 3 + 1)) = true)
    (hseal : s.sealedAt (s.flowDst f + 8 * (s.flowF f 0 8 3 + 1) * pos) (8 * (s.flowF f 0 8 3 + 1)) = false) :
    s.flowMove f pos src =
      { s with cell := s.cell.copy src (s.flowDst f + 8 * (s.flowF f 0 8 3 + 1) * pos) (8 * (s.flowF f 0 8 3 + 1)) } := by
  unfold State.flowMove
  dsimp only
  rw [h]
  show s.copySealed src (s.flowDst f + 8 * (s.flowF f 0 8 3 + 1) * pos) (8 * (s.flowF f 0 8 3 + 1)) = _
  unfold State.copySealed State.copyCell
  rw [if_neg (by simp [hseal]), if_pos (by simp [hsrc, hdst])]
  exact ueReplaced_nil (s := { s with cell := s.cell.copy src _ _ }) hue _ _ _

/-- Settles O22: each cycle's step runs, and its own clause says what follows. -/
theorem dealerCycles : Obligations.DealerCycles := by
  refine ⟨?_, ?_, ?_, ?_, ?_, ?_⟩
  · intro s k f hc hq hs hflag hf hst
    exact ⟨_, congrArg Host.Outcome.next (if_pos hc), queueAccept_clause hq hs hflag hf hst⟩
  · intro s q e k hc hk he hhome hue hst hlen
    have hgrant : s.taskGrant q.castSucc.val = (s.grantEngine e k false).kittyStat := taskGrant_home q.isLt (homePick_first he hhome)
    exact ⟨_, congrArg Host.Outcome.next ((if_pos hc).trans hgrant), grantEngine_clause hk hue hst hlen⟩
  · intro s x rest hc hs hue hin
    exact ⟨_, congrArg Host.Outcome.next (if_pos hc), stageIn_clause hs hue hin⟩
  · intro s k hc hq hs hh
    exact ⟨_, congrArg Host.Outcome.next (if_pos hc), stealDelay_clause hq hs hh⟩
  · intro s f k hc hl hb hm hh hr hcan hflt hmode
    have hrel : s.Releases f.val k := ⟨hl, hb, hm, hh, hr, hcan, hflt⟩
    obtain ⟨hnext, hctx, hmem⟩ := flowRelease_clause f.isLt hrel (flowErr_none hmode _ _) (flowMove_none hmode _ _)
    exact ⟨_, congrArg Host.Outcome.next (if_pos hc), hnext, ctxW_of_ctx hctx, hmem⟩
  · intro s f k hc hl hb hm hh hr hcan hflt hmode hue hsrc hdst hseal
    have hrel : s.Releases f.val k := ⟨hl, hb, hm, hh, hr, hcan, hflt⟩
    obtain ⟨hnext, -, hcell, -⟩ := flowRelease_clause f.isLt hrel (flowErr_copy hmode hue hsrc hdst)
      (flowMove_copy hmode hue hsrc hdst hseal)
    exact ⟨_, congrArg Host.Outcome.next (if_pos hc), hnext, hcell⟩

end Sys2Proof.Machine
end

section
/-! SUPPORT. The application cores' take reads and their reports (O23). -/

namespace Sys2Proof.Machine

/-! ### What a read answers, and the threads held -/

theorem onBus_signals (s : State) (v : Nat) : s.Signals (s.onBus v) [] := by
  refine ⟨fun a _ => ?_, rfl⟩
  unfold State.rd
  rw [State.onBus_regs]

theorem onBus_bus (s : State) (v : Nat) : (s.onBus v).plant.bus = v := rfl

theorem setCtxF_coreHeld (s : State) (k w hi lo v : Nat) : (s.setCtxF k w hi lo v).dlr.coreHeld = s.dlr.coreHeld := rfl
theorem setTaskRt_coreHeld (s : State) (k : Nat) (r : DlrTask) : (s.setTaskRt k r).dlr.coreHeld = s.dlr.coreHeld := rfl

theorem kittyStat_coreHeld (s : State) : s.kittyStat.dlr.coreHeld = s.dlr.coreHeld := by
  rw [kittyStat_dlr]
  rfl

theorem noteRun_coreHeld (s : State) (k : Nat) : (s.noteRun k).dlr.coreHeld = s.dlr.coreHeld := by
  unfold State.noteRun
  rw [setTaskRt_coreHeld, setCtxF_coreHeld]

theorem toQueue_coreHeld (s : State) (k st : Nat) : (s.toQueue k st).dlr.coreHeld = s.dlr.coreHeld := by
  unfold State.toQueue
  rw [setTaskRt_coreHeld, State.setTaskState, setCtxF_coreHeld]

/-! ### Take reads, rules R97 and R106 -/

/-- Core `n` is one of those whose take read stalls. -/
def State.waitCore (s : State) (n : Nat) : State :=
  { s with dlr := { s.dlr with coreWait := if s.dlr.coreWait.contains n then s.dlr.coreWait else s.dlr.coreWait ++ [n] } }

theorem mem_waitCore (s : State) (n : Nat) : n ∈ (s.waitCore n).dlr.coreWait := by
  by_cases h : n ∈ s.dlr.coreWait <;> simp [State.waitCore, h]

theorem core_ofNat (n : Fin 4) : Agent.core (Fin.ofNat 4 n.val) = Agent.core n := congrArg Agent.core (Fin.ofNat_val_eq_self n)

theorem coreTake_own (s : State) (n : Fin 4) : s.coreTake (.core n) n.val = s.waitCore n.val := if_pos (core_ofNat n).symm

theorem coreTake_other (s : State) {n m : Fin 4} (h : m ≠ n) : s.coreTake (.core m) n.val = s.opRefused.onBus 0 :=
  if_neg (by rw [core_ofNat]; exact fun he => h (Agent.core.inj he))

theorem coreTake_own_clause (s : State) (n : Fin 4) :
    n.val ∈ (s.coreTake (.core n) n.val).dlr.coreWait ∧
      s.coreTake (.core n) n.val = { s with dlr := { s.dlr with coreWait := (s.coreTake (.core n) n.val).dlr.coreWait } } := by
  rw [coreTake_own]
  exact ⟨mem_waitCore s n.val, rfl⟩

theorem coreTake_other_clause (s : State) {n m : Fin 4} (h : m ≠ n) :
    (s.coreTake (.core m) n.val).bit Reg.DLR_STAT 1 = true ∧ (s.coreTake (.core m) n.val).plant.bus = 0 ∧
      (s.coreTake (.core m) n.val).dlr = s.dlr ∧
      s.SameRegs (s.coreTake (.core m) n.val) [Reg.DLR_STAT, Reg.DLR_OP_REF_CNT, Reg.PG_IRQ_RAW Page.DLR] ∧
      s.SameMemory (s.coreTake (.core m) n.val) := by
  rw [coreTake_other s h]
  have hbus := onBus_signals s.opRefused 0
  have hs := (opRefused_signals s).trans hbus
  exact ⟨(bit_of_rd (hbus.1 _ List.not_mem_nil) 1).trans (bit_opRefused s), onBus_bus _ _, hs.dlr, hs.1, hs.memory⟩

/-! ### The limit of a take read -/

/-- Core `n`'s take read stalls no more. -/
def State.dropWait (s : State) (n : Nat) : State :=
  { s with dlr := { s.dlr with coreWait := s.dlr.coreWait.filter (fun m => m ≠ n) } }

theorem dropWait_onlyDlr (s : State) (n : Nat) : s.OnlyDlr (s.dropWait n) := rfl

theorem notMem_dropWait (s : State) (n : Nat) : n ∉ (s.dropWait n).dlr.coreWait := by simp [State.dropWait]

theorem coreTimeout_eq {s : State} {n : Nat} (hw : n ∈ s.dlr.coreWait) (ht : s.fld Reg.DLR_CORE_TMO 23 0 ≠ 0) :
    s.coreTimeout n = (((s.dropWait n).wr64 (Reg.DLR_CORE_TAKE n) 0).inc Reg.DLR_CORE_TMO_CNT).onBus 0 := if_pos (by simp [hw, ht])

theorem coreTimeout_clause {s : State} {n : Nat} (hn : n < 4) (hw : n ∈ s.dlr.coreWait) (ht : s.fld Reg.DLR_CORE_TMO 23 0 ≠ 0) :
    n ∉ (s.coreTimeout n).dlr.coreWait ∧ (s.coreTimeout n).rd64 (Reg.DLR_CORE_TAKE n) = 0 ∧ (s.coreTimeout n).plant.bus = 0 ∧
      (s.coreTimeout n).rdN Reg.DLR_CORE_TMO_CNT = min (s.rdN Reg.DLR_CORE_TMO_CNT + 1) 0xFFFFFFFF ∧
      s.SameRegs (s.coreTimeout n) [Reg.DLR_CORE_TAKE n, Reg.DLR_CORE_TAKE n + 4, Reg.DLR_CORE_TMO_CNT] ∧
      s.SameMemory (s.coreTimeout n) := by
  rw [coreTimeout_eq hw ht]
  have htake := wr64_writes (s.dropWait n) (Reg.DLR_CORE_TAKE n) 0
  have hcount := inc_writes ((s.dropWait n).wr64 (Reg.DLR_CORE_TAKE n) 0) Reg.DLR_CORE_TMO_CNT
  have hbus := onBus_signals (((s.dropWait n).wr64 (Reg.DLR_CORE_TAKE n) 0).inc Reg.DLR_CORE_TMO_CNT) 0
  have hs := (htake.trans hcount).signals.trans hbus
  have hd := (dropWait_onlyDlr s n).deals.trans hs.deals
  have hmiss : Reg.DLR_CORE_TAKE n ≠ Reg.DLR_CORE_TMO_CNT ∧ Reg.DLR_CORE_TAKE n + 4 ≠ Reg.DLR_CORE_TMO_CNT := by
    simp only [Reg.DLR_CORE_TAKE, Reg.DLR_CORE_TMO_CNT]
    omega
  refine ⟨?_, ?_, onBus_bus _ _, ?_, hd.1, hd.memory⟩
  · rw [hs.dlr]
    exact notMem_dropWait s n
  · rw [rd64_of_same hbus.1 List.not_mem_nil List.not_mem_nil,
      rd64_of_same hcount.1 (by simpa using hmiss.1) (by simpa using hmiss.2), rd64_wr64, Nat.zero_mod]
  · rw [rdN_of_rd (hbus.1 _ List.not_mem_nil), rdN_inc, rdN_of_rd (htake.1 _ (by simpa using ⟨hmiss.1.symm, hmiss.2.symm⟩)),
      rdN_of_rd ((dropWait_onlyDlr s n).deals.1 _ List.not_mem_nil)]

/-! ### Reports, rules R97 and R99 -/

/-- Core `n` holds no thread. -/
def State.handBack (s : State) (n : Nat) : State := { s with dlr := { s.dlr with coreHeld := Tab.erase n s.dlr.coreHeld } }

theorem handBack_onlyDlr (s : State) (n : Nat) : s.OnlyDlr (s.handBack n) := rfl
theorem handBack_coreHeld (s : State) (n : Nat) : (s.handBack n).dlr.coreHeld = Tab.erase n s.dlr.coreHeld := rfl
theorem handBack_ctx (s : State) (n : Nat) : (s.handBack n).dlr.ctx = s.dlr.ctx := rfl
theorem handBack_ctxF (s : State) (n k w hi lo : Nat) : (s.handBack n).ctxF k w hi lo = s.ctxF k w hi lo :=
  ctxF_of_ctx (handBack_ctx s n) k w hi lo

theorem coreReport_own {s : State} {n : Fin 4} {k : Nat} (h : (n.val, k) ∈ s.dlr.coreHeld) (f : State → State) :
    s.coreReport (.core n) n.val k f = f (s.handBack n.val) := if_pos ⟨(core_ofNat n).symm, List.contains_iff_mem.mpr h⟩

theorem coreReport_refused {s : State} {ag : Agent} {n : Fin 4} {k : Nat} (h : ag ≠ .core n ∨ (n.val, k) ∉ s.dlr.coreHeld)
    (f : State → State) : s.coreReport ag n.val k f = s.opRefused := by
  refine if_neg fun hc => ?_
  obtain ⟨hag, hheld⟩ := hc
  rw [core_ofNat] at hag
  obtain h | h := h
  · exact h hag
  · exact h (List.contains_iff_mem.mp hheld)

theorem reportDone_frame {s : State} {k : Nat} (hrun : s.taskState k = tsRunning) (hcan : s.ctxF k 15 15 15 = 0)
    (hnext : s.ctxF k 9 14 14 = 0) (hph : s.taskPhase k = 2) :
    s.OnlyDlr (s.reportDone k) ∧ (s.reportDone k).dlr.coreHeld = s.dlr.coreHeld := by
  rw [reportDone_eq hrun hcan hnext hph]
  refine ⟨(noteRun_onlyDlr s k).trans (setTaskState_onlyDlr _ _ _), ?_⟩
  rw [State.setTaskState, setCtxF_coreHeld, noteRun_coreHeld]

theorem coreDone_clause {s : State} {k : Nat} (n : Nat) (hrun : s.taskState k = tsRunning) (hcan : s.ctxF k 15 15 15 = 0)
    (hnext : s.ctxF k 9 14 14 = 0) (hph : s.taskPhase k = 2) :
    ((s.handBack n).reportDone k).kittyStat.taskState k = tsDone ∧
      (((s.handBack n).reportDone k).kittyStat.taskRt k).round = (s.ctxF k 7 17 17 == 1) ∧
      ((s.handBack n).reportDone k).kittyStat.dlr.coreHeld = Tab.erase n s.dlr.coreHeld ∧
      s.SameRegs ((s.handBack n).reportDone k).kittyStat [Reg.DLR_STAT] ∧ s.SameMemory ((s.handBack n).reportDone k).kittyStat := by
  have hctx := handBack_ctxF s n k
  have hrun' := (hctx 15 3 0).trans hrun
  have hcan' := (hctx 15 15 15).trans hcan
  have hnext' := (hctx 9 14 14).trans hnext
  have hph' := (hctx 0 29 27).trans hph
  obtain ⟨hst, hround, -⟩ := reportDone_clause hrun' hcan' hnext' hph' 0
  obtain ⟨honly, hheld⟩ := reportDone_frame hrun' hcan' hnext' hph'
  have hd := ((handBack_onlyDlr s n).trans honly).deals.trans (kittyStat_deals _)
  refine ⟨(taskState_kittyStat _ _).trans hst, ?_, ?_, hd.1, hd.memory⟩
  · rw [taskRt_kittyStat, hround, hctx]
  · rw [kittyStat_coreHeld, hheld, handBack_coreHeld]

theorem reportYield_eq {s : State} {k : Nat} (hrun : s.taskState k = tsRunning) (hcan : s.ctxF k 15 15 15 = 0) (hph : s.taskPhase k = 7) :
    s.reportYield k = (s.inc Reg.DLR_PRE_CNT).enqueue k tsPreempted := by
  unfold State.reportYield
  rw [if_neg (by simp [hrun])]
  dsimp only
  rw [if_neg (by omega), if_pos hph]

theorem coreYield_clause {s : State} {k : Nat} (n : Nat) (hrun : s.taskState k = tsRunning) (hcan : s.ctxF k 15 15 15 = 0)
    (hph : s.taskPhase k = 7) :
    ((s.handBack n).reportYield k).kittyStat.taskState k = tsPreempted ∧
      ((s.handBack n).reportYield k).kittyStat.rdN Reg.DLR_PRE_CNT = min (s.rdN Reg.DLR_PRE_CNT + 1) 0xFFFFFFFF ∧
      ((s.handBack n).reportYield k).kittyStat.dlr.coreHeld = Tab.erase n s.dlr.coreHeld ∧
      s.SameMemory ((s.handBack n).reportYield k).kittyStat := by
  have hctx := handBack_ctxF s n k
  rw [reportYield_eq ((hctx 15 3 0).trans hrun) ((hctx 15 15 15).trans hcan) ((hctx 0 29 27).trans hph)]
  have hinc := (handBack_onlyDlr s n).deals.trans (inc_writes (s.handBack n) Reg.DLR_PRE_CNT).signals.deals
  have henq := enqueue_deals ((s.handBack n).inc Reg.DLR_PRE_CNT) k tsPreempted
  refine ⟨?_, ?_, ?_, ((hinc.trans henq).trans (kittyStat_deals _)).memory⟩
  · rw [taskState_kittyStat, enqueue_taskState _ _ (by decide)]
  · rw [rdN_of_rd (rd_kittyStat (by decide) _), rdN_of_rd (henq.1 _ (by decide)), rdN_inc,
      rdN_of_rd ((handBack_onlyDlr s n).deals.1 _ List.not_mem_nil)]
  · rw [kittyStat_coreHeld, enqueue_dlr, toQueue_coreHeld, State.inc_dlr, handBack_coreHeld]

/-- A report that does not count: refused, with the contexts and the threads held as before. -/
theorem refusedReport_clause (s : State) :
    s.opRefused.kittyStat.bit Reg.DLR_STAT 1 = true ∧
      s.opRefused.kittyStat.rdN Reg.DLR_OP_REF_CNT = min (s.rdN Reg.DLR_OP_REF_CNT + 1) 0xFFFFFFFF ∧
      s.opRefused.kittyStat.dlr.coreHeld = s.dlr.coreHeld ∧ (∀ u w, s.opRefused.kittyStat.ctxW u w = s.ctxW u w) ∧
      s.SameMemory s.opRefused.kittyStat := by
  have hdlr := (opRefused_signals s).dlr
  refine ⟨(bit_kittyStat (by decide) _).trans (bit_opRefused s), ?_, ?_, fun u w => ?_,
    (opRefused_signals s).memory.trans (kittyStat_deals _).memory⟩
  · rw [rdN_of_rd (rd_kittyStat (by decide) _), rdN_opRefused]
  · rw [kittyStat_coreHeld, hdlr]
  · rw [ctxW_kittyStat, ctxW_of_ctx (congrArg Dlr.ctx hdlr)]

/-- Settles O23: whose read or report it is decides, and the case's own clause says what follows. -/
theorem coreThreads : Obligations.CoreThreads := by
  refine ⟨?_, ?_, ?_, ?_, ?_, ?_⟩
  · intro s n hc
    exact ⟨_, congrArg Host.Outcome.next (if_pos hc), coreTake_own_clause s n⟩
  · intro s n m hc hne
    exact ⟨_, congrArg Host.Outcome.next (if_pos hc), coreTake_other_clause s hne⟩
  · intro s n hc hw ht
    exact ⟨_, congrArg Host.Outcome.next (if_pos hc), coreTimeout_clause n.isLt hw ht⟩
  · intro s n v hw hheld hrun hcan hnext hph
    refine completes_write hw rfl ?_
    rw [coreReport_own hheld]
    exact coreDone_clause n.val hrun hcan hnext hph
  · intro s n v hw hheld hrun hcan hph
    refine completes_write hw rfl ?_
    rw [coreReport_own hheld]
    exact coreYield_clause n.val hrun hcan hph
  · intro s ag n v hw hother
    constructor
    · refine completes_write hw rfl ?_
      rw [coreReport_refused hother]
      exact refusedReport_clause s
    · refine completes_write hw rfl ?_
      rw [coreReport_refused hother]
      exact refusedReport_clause s

end Sys2Proof.Machine
end

section
/-! SUPPORT. Commands of a kinematic group: which of them are refused, and what a refusal leaves (O36). -/

namespace Sys2Proof.Machine

/-- A command's code and the command: what the mailbox names by a number, rule R111. -/
theorem exec_motion {s : State} {g : Fin 16} {seq mask : BitVec 16} {valid : BitVec 6} {fs : List MemberFields} {code : Nat} {c : Instr}
    (h : (code, c) ∈ [(1, Instr.moveAbs g seq mask valid fs), (2, .moveRel g seq mask valid fs), (3, .jog g seq mask valid fs),
      (4, .setLim g seq mask valid fs), (5, .stop g seq mask valid fs), (6, .resume g seq mask valid fs), (7, .abort g seq mask valid fs),
      (8, .gearIn g seq mask valid fs), (9, .camIn g seq mask valid fs), (10, .syncOut g seq mask valid fs), (11, .home g seq mask valid fs),
      (12, .setPos g seq mask valid fs), (13, .follow g seq mask valid fs)]) :
    exec c s = .next (s.command g.val code seq.toNat mask.toNat valid.toNat fs) := by
  simp only [List.mem_cons, Prod.mk.injEq, List.not_mem_nil, or_false] at h
  rcases h with h | h | h | h | h | h | h | h | h | h | h | h | h <;> obtain ⟨rfl, rfl⟩ := h <;> rfl

theorem command_eq {s : State} {g : Nat} (ht : s.ticking = true) (hg : s.groupEn g = true) (code seq mask valid : Nat) (fs : List MemberFields) :
    s.command g code seq mask valid fs = s.groupCommand g code seq mask valid fs := if_pos (by simp [ht, hg])

/-! ### The range of RESULT and RES_MEMBER -/

theorem memberResult_le (s : State) (g a code valid : Nat) (f : MemberFields) : s.memberResult g a code valid f ≤ 4 := by
  unfold State.memberResult
  repeat' split
  all_goals decide

theorem firstRefusal_range {s : State} {g code mask valid m r : Nat} {fs : List MemberFields}
    (h : s.firstRefusal g code mask valid fs = some (m, r)) : r ≤ 4 ∧ m < 16 := by
  obtain ⟨k, hk, heq⟩ := List.exists_of_findSome?_eq_some h
  have hle : (if s.memberByte g k < 144 then s.memberResult g (s.memberByte g k) code valid (fieldsOf fs k) else resField) ≤ 4 := by
    split
    · exact memberResult_le _ _ _ _ _ _
    · decide
  dsimp only at heq
  generalize (if s.memberByte g k < 144 then s.memberResult g (s.memberByte g k) code valid (fieldsOf fs k) else resField) = q at hle heq
  split at heq
  · split at heq <;> cases heq
    exact ⟨hle, List.mem_range.mp hk⟩
  · cases heq

theorem cmdResult_range {s : State} {g code mask valid r m : Nat} {fs : List MemberFields}
    (h : s.cmdResult g code mask valid fs = (r, m)) : r ≤ 4 ∧ m < 16 := by
  unfold State.cmdResult at h
  split at h
  · cases h; decide
  · split at h
    · cases h; decide
    · split at h
      · cases h; decide
      · split at h
        next hf => cases h; exact firstRefusal_range hf
        · cases h; decide

/-! ### PRFG_MBX_STAT -/

theorem mbxResult_writes (s : State) (g seq r m : Nat) : s.Writes (s.mbxResult g seq r m) [Reg.PRFG_MBX_STAT g] := wrN_writes _ _ _

/-- CONS_SEQ, RESULT and RES_MEMBER of a command stand side by side. -/
theorem rdN_mbxResult (s : State) (g : Nat) (seq : BitVec 16) {r m : Nat} (hr : r ≤ 4) (hm : m < 16) :
    (s.mbxResult g seq.toNat r m).rdN (Reg.PRFG_MBX_STAT g) = seq.toNat + 65536 * r + 1048576 * m := by
  have hs := seq.isLt
  unfold State.mbxResult
  rw [rdN_wrN_self]
  omega

/-! ### A refusal -/

/-- The page of a group that refuses a command, before its event. -/
def State.noteRefusal (s : State) (g : Nat) : State := (s.inc (Reg.PRFG_REFUSE_CNT g)).setBit (Reg.PRFG_STAT g) 3 true

theorem noteRefusal_writes (s : State) (g : Nat) : s.Writes (s.noteRefusal g) [Reg.PRFG_REFUSE_CNT g, Reg.PRFG_STAT g] :=
  (inc_writes _ _).trans (setBit_writes _ _ _ _)

theorem noteRefusal_page (s : State) (g : Nat) : (s.noteRefusal g).bit (Reg.PRFG_STAT g) 3 = true ∧
    (s.noteRefusal g).rdN (Reg.PRFG_REFUSE_CNT g) = min (s.rdN (Reg.PRFG_REFUSE_CNT g) + 1) 0xFFFFFFFF := by
  have hne : Reg.PRFG_REFUSE_CNT g ≠ Reg.PRFG_STAT g := by simp only [Reg.PRFG_REFUSE_CNT, Reg.PRFG_STAT]; omega
  exact ⟨bit_setBit_self (by decide) _ _ _, (rdN_of_rd (rd_setBit_ne hne _ _ _)).trans (rdN_inc _ _)⟩

theorem groupCommand_refused {s : State} {g code mask valid r m : Nat} {fs : List MemberFields}
    (h : s.cmdResult g code mask valid fs = (r, m)) (hr : r ≠ 0) (seq : Nat) :
    s.groupCommand g code seq mask valid fs = ((s.noteRefusal g).event (Page.PRFG g) 0 (w32 r)).mbxResult g seq r m := by
  unfold State.groupCommand
  rw [h]
  exact if_neg hr

/-- A refusal writes its group's page and raises its event. -/
theorem refusal_clause {s : State} (hc : s.clocked = true) (g : Nat) (seq : BitVec 16) {r m : Nat} (hr : r ≤ 4) (hm : m < 16) (t : State)
    (ht : t = ((s.noteRefusal g).event (Page.PRFG g) 0 (w32 r)).mbxResult g seq.toNat r m) :
    t.rdN (Reg.PRFG_MBX_STAT g) = seq.toNat + 65536 * r + 1048576 * m ∧ t.bit (Reg.PRFG_STAT g) 3 = true ∧
      t.rdN (Reg.PRFG_REFUSE_CNT g) = min (s.rdN (Reg.PRFG_REFUSE_CNT g) + 1) 0xFFFFFFFF ∧
      s.Raises t [Reg.PRFG_REFUSE_CNT g, Reg.PRFG_STAT g, Reg.PG_IRQ_RAW (Page.PRFG g), Reg.PRFG_MBX_STAT g]
        [⟨Page.PRFG g, 0, false, w32 r, s.now⟩] := by
  subst ht
  have hw := noteRefusal_writes s g
  obtain ⟨hbit, hcnt⟩ := noteRefusal_page s g
  have hlater : ∀ a, a = Reg.PRFG_STAT g ∨ a = Reg.PRFG_REFUSE_CNT g → a ≠ Reg.PG_IRQ_RAW (Page.PRFG g) ∧ a ∉ [Reg.PRFG_MBX_STAT g] := by
    simp only [List.mem_singleton, Reg.PRFG_STAT, Reg.PRFG_REFUSE_CNT, Reg.PG_IRQ_RAW, Page.PRFG, Reg.PRFG_MBX_STAT]; omega
  have hev := hw.event hc (by simp [Reg.QTZ_TIME_NS, Reg.PRFG_REFUSE_CNT, Reg.PRFG_STAT]; omega)
    (by simp [Reg.QTZ_TIME_NS, Reg.PRFG_REFUSE_CNT, Reg.PRFG_STAT]; omega) (Page.PRFG g) 0 (w32 r)
  have hstays : ∀ a, a = Reg.PRFG_STAT g ∨ a = Reg.PRFG_REFUSE_CNT g →
      (((s.noteRefusal g).event (Page.PRFG g) 0 (w32 r)).mbxResult g seq.toNat r m).rd a = (s.noteRefusal g).rd a := fun a ha =>
    ((mbxResult_writes _ _ _ _ _).1 a (hlater a ha).2).trans (rd_event (hlater a ha).1 _ _ _)
  refine ⟨rdN_mbxResult _ g seq hr hm, ?_, ?_, hev.trans (mbxResult_writes _ _ _ _ _).raises⟩
  · rw [bit_of_rd (hstays _ (.inl rfl)), hbit]
  · rw [rdN_of_rd (hstays _ (.inr rfl)), hcnt]

/-- Settles O36: a refused command runs none of its members' effects, whatever it is, and writes its group's page alone. -/
theorem motionRefusals : Obligations.MotionRefusals := by
  intro s g seq mask valid fs code c hc ht hg r m hres hr
  obtain ⟨hr4, hm⟩ := cmdResult_range hres
  refine ⟨_, exec_motion hc, ?_⟩
  rw [command_eq ht hg, groupCommand_refused hres hr]
  exact refusal_clause (ticking_clocked ht) g.val seq hr4 hm _ rfl

end Sys2Proof.Machine
end

section
/-! SUPPORT. What a command of a group does to one axis (O35): the registers of its page that it writes, and what stands beside the page. -/

namespace Sys2Proof.Machine

/-! ### Reading the axis after a write of registers -/

theorem State.Signals.prof {s t : State} {l : List Nat} (h : s.Signals t l) : t.prof = s.prof := by rw [h.2]

theorem axis_of_prof {s t : State} (h : t.prof = s.prof) (a : Nat) : t.axis a = s.axis a := by unfold State.axis; rw [h]

theorem State.Signals.axis {s t : State} {l : List Nat} (h : s.Signals t l) (a : Nat) : t.axis a = s.axis a := axis_of_prof h.prof a

theorem rdI64_of_same {s t : State} {l : List Nat} (h : s.SameRegs t l) {a : Nat} (h1 : a ∉ l) (h2 : a + 4 ∉ l) : t.rdI64 a = s.rdI64 a := by
  unfold State.rdI64
  rw [rd64_of_same h h1 h2]

theorem wrI64_writes (s : State) (a : Nat) (i : Int) : s.Writes (s.wrI64 a i) [a, a + 4] := wr64_writes _ _ _

theorem rd64_wrI64 (s : State) (a : Nat) (i : Int) : (s.wrI64 a i).rd64 a = wrapTo 64 i := by
  have h : wrapTo 64 i < 2 ^ 64 := by unfold wrapTo; omega
  exact (rd64_wr64 s a _).trans (Nat.mod_eq_of_lt h)

/-- A signed register reads as the number written where the number is one that a signed register holds. -/
theorem rdI64_wrI64_rdI64 (s u : State) (a b : Nat) : (s.wrI64 a (u.rdI64 b)).rdI64 a = u.rdI64 b := by
  have h : u.rd64 b < 2 ^ 64 := by
    have h1 := rdN_lt u b
    have h2 := rdN_lt u (b + 4)
    unfold State.rd64
    omega
  unfold State.rdI64
  rw [rd64_wrI64]
  generalize u.rd64 b = n at h
  unfold signedOf wrapTo
  split <;> omega

theorem axState_setAxState (s : State) (a : Nat) {st : Nat} (h : st < 16) : (s.setAxState a st).axState a = st :=
  (fld_setFld (by decide) (by decide) s _ _).trans (Nat.mod_eq_of_lt h)

/-- A bit of PRF_STAT above STATE leaves STATE. -/
theorem axState_setBit (s : State) (a : Nat) {i : Nat} (h : 3 < i) (hi : i < 32) (v : Bool) :
    (s.setBit (Reg.PRF_STAT a) i v).axState a = s.axState a :=
  fld_setFld_ne (Nat.le_refl i) hi (.inr h) s _ _

theorem axState_of_same {s t : State} {l : List Nat} (h : s.SameRegs t l) {a : Nat} (ha : Reg.PRF_STAT a ∉ l) : t.axState a = s.axState a :=
  fld_of_rd (h _ ha) 3 0

/-! ### Acting on one axis -/

/-- Of the registers only those of `l` differ, and no memory and no other axis than `a` differ. -/
structure State.OnAxis (s t : State) (a : Nat) (l : List Nat) : Prop where
  regs : s.SameRegs t l
  others : ∀ b, b ≠ a → t.axis b = s.axis b
  memory : s.SameMemory t

theorem State.OnAxis.trans {s t u : State} {a : Nat} {l m : List Nat} (h : s.OnAxis t a l) (k : t.OnAxis u a m) : s.OnAxis u a (l ++ m) :=
  ⟨h.regs.trans k.regs, fun b hb => (k.others b hb).trans (h.others b hb), h.memory.trans k.memory⟩

theorem State.OnAxis.mono {s t : State} {a : Nat} {l m : List Nat} (h : s.OnAxis t a l) (k : ∀ r ∈ l, r ∈ m) : s.OnAxis t a m :=
  ⟨h.regs.mono k, h.others, h.memory⟩

theorem State.Signals.onAxis {s t : State} {l : List Nat} (h : s.Signals t l) (a : Nat) : s.OnAxis t a l :=
  ⟨h.1, fun b _ => h.axis b, h.memory⟩

theorem setAxis_onAxis (s : State) (a : Nat) (x : Axis) : s.OnAxis (s.setAxis a x) a [] :=
  ⟨fun _ _ => rfl, fun _ hb => axis_setAxis_ne hb _ _, ⟨rfl, rfl, rfl, rfl, rfl⟩⟩

/-- An axis is written, and then registers of its page. -/
theorem setAxis_then {s t : State} {a : Nat} {x : Axis} {l : List Nat} (h : (s.setAxis a x).Signals t l) : s.OnAxis t a l ∧ t.axis a = x :=
  ⟨(setAxis_onAxis s a x).trans (h.onAxis a), (h.axis a).trans (axis_setAxis_self s a x)⟩

/-! ### Limits, rules R111 and R116 to R118 -/

/-- The registers that new limits may write. -/
abbrev limitRegs (a : Nat) : List Nat :=
  [Reg.PRF_STAT a, Reg.PRF_OVS_DIST a, Reg.PRF_OVS_DIST a + 4, Reg.PRF_OVS_CNT a, Reg.PG_IRQ_RAW (Page.PRF a)]

/-- The page of an axis that comes to overshoot its target, with its event. -/
def State.noteOvershoot (s : State) (a : Nat) (dist : Int) : State :=
  (((s.setBit (Reg.PRF_STAT a) 4 true).wrI64 (Reg.PRF_OVS_DIST a) dist).inc (Reg.PRF_OVS_CNT a)).event (Page.PRF a) 0 0

theorem noteOvershoot_signals (s : State) (a : Nat) (dist : Int) : s.Signals (s.noteOvershoot a dist) (limitRegs a) :=
  (((setBit_writes _ _ _ _).trans (wrI64_writes _ _ _)).trans (inc_writes _ _)).signals.trans (event_signals _ _ _ _)

theorem noteOvershoot_axState (s : State) (a : Nat) (dist : Int) : (s.noteOvershoot a dist).axState a = s.axState a := by
  have h : (s.setBit (Reg.PRF_STAT a) 4 true).SameRegs (s.noteOvershoot a dist)
      [Reg.PRF_OVS_DIST a, Reg.PRF_OVS_DIST a + 4, Reg.PRF_OVS_CNT a, Reg.PG_IRQ_RAW (Page.PRF a)] :=
    (((wrI64_writes _ _ _).trans (inc_writes _ _)).signals.trans (event_signals _ _ _ _)).1
  rw [axState_of_same h, axState_setBit _ _ (by decide) (by decide)]
  simp only [List.mem_cons, List.not_mem_nil, or_false, Reg.PRF_STAT, Reg.PRF_OVS_DIST, Reg.PRF_OVS_CNT, Reg.PG_IRQ_RAW, Page.PRF]
  omega

/-- A new D is in force, and only what a ramp and a turn keep, and what the page shows of them, depend on the motion. -/
theorem newDec_outcome (s : State) (a : Nat) (d : Int) : ∃ (y : State) (ramp turn : Option Int),
    y = s.setAxis a { s.axis a with limD := some d, rampD := ramp, turn := turn } ∧ y.Signals (s.newDec a d) (limitRegs a) ∧
      (s.newDec a d).axState a = s.axState a := by
  have idle : ∀ y : State, y.Signals y (limitRegs a) := fun y => (State.Writes.refl y).signals.mono (by simp)
  unfold State.newDec
  extract_lets x ramp old keep stop use
  split
  · split
    · exact ⟨_, _, _, rfl, idle _, rfl⟩
    · exact ⟨_, _, _, rfl, idle _, rfl⟩
  · split
    · split
      · exact ⟨_, _, _, rfl, (setBit_writes _ _ _ _).signals.mono (by simp), axState_setBit _ _ (by decide) (by decide) _⟩
      · exact ⟨_, _, _, rfl, noteOvershoot_signals _ _ _, noteOvershoot_axState _ _ _⟩
    · split
      · exact ⟨_, _, _, rfl, idle _, rfl⟩
      · exact ⟨_, _, _, rfl, idle _, rfl⟩

/-- An axis with the limits that a command's fields name; what a ramp and a turn keep follows the new D. -/
def Axis.limited (x : Axis) (valid : Nat) (f : MemberFields) (withV : Bool) (ramp turn : Option Int) : Axis :=
  { x with
    limV := if withV && valid.testBit 1 then some (fieldOf f 1) else x.limV
    limA := if valid.testBit 2 then some (fieldOf f 2) else x.limA
    limD := if valid.testBit 3 then some (fieldOf f 3) else x.limD
    limJ := if valid.testBit 4 then some (fieldOf f 4) else x.limJ
    rampD := ramp, turn := turn }

theorem takeLimits_onAxis (s : State) (a valid : Nat) (f : MemberFields) (withV : Bool) :
    s.OnAxis (s.takeLimits a valid f withV) a (limitRegs a) ∧ (s.takeLimits a valid f withV).axState a = s.axState a ∧
      ∃ ramp turn, (s.takeLimits a valid f withV).axis a = (s.axis a).limited valid f withV ramp turn := by
  unfold State.takeLimits
  extract_lets x s1
  have h1 : s.OnAxis s1 a [] := setAxis_onAxis _ _ _
  split
  case isTrue h3 =>
    obtain ⟨y, ramp, turn, hy, hsig, hst⟩ := newDec_outcome s1 a (fieldOf f 3)
    obtain ⟨hon, hax⟩ := setAxis_then (hy ▸ hsig)
    refine ⟨h1.trans hon, hst, ramp, turn, ?_⟩
    rw [hax, axis_setAxis_self]
    simp only [Axis.limited, if_pos h3, x]
  case isFalse h3 =>
    refine ⟨h1.mono (by simp), rfl, x.rampD, x.turn, ?_⟩
    rw [axis_setAxis_self]
    simp only [Axis.limited, if_neg h3, x]

/-- The limits in force after a command's fields are taken. -/
theorem limits_taken {s t : State} {a valid : Nat} {f : MemberFields} {l : List Nat} (h : s.SameRegs t l)
    (hl : ∀ r, Reg.PRF_VMAX a ≤ r → r ≤ Reg.PRF_JMAX a + 4 → r ∉ l) {ramp turn : Option Int}
    (hx : t.axis a = (s.axis a).limited valid f true ramp turn) :
    t.limV a = (if valid.testBit 1 then fieldOf f 1 else s.limV a) ∧ t.limA a = (if valid.testBit 2 then fieldOf f 2 else s.limA a) ∧
      t.limD a = (if valid.testBit 3 then fieldOf f 3 else s.limD a) ∧ t.limJ a = (if valid.testBit 4 then fieldOf f 4 else s.limJ a) := by
  have hmax : ∀ r, Reg.PRF_VMAX a ≤ r ∧ r ≤ Reg.PRF_JMAX a → t.rdI64 r = s.rdI64 r := fun r ⟨h1, h2⟩ =>
    rdI64_of_same h (hl r h1 (by omega)) (hl (r + 4) (by omega) (by omega))
  unfold State.limV State.limA State.limD State.limJ
  rw [hx, hmax (Reg.PRF_VMAX a) (by simp [Reg.PRF_JMAX]), hmax (Reg.PRF_AMAX a) (by simp [Reg.PRF_VMAX, Reg.PRF_JMAX]),
    hmax (Reg.PRF_DMAX a) (by simp [Reg.PRF_VMAX, Reg.PRF_JMAX]), hmax (Reg.PRF_JMAX a) (by simp [Reg.PRF_VMAX])]
  exact ⟨apply_ite (Option.getD · _) _ _ _, apply_ite (Option.getD · _) _ _ _, apply_ite (Option.getD · _) _ _ _,
    apply_ite (Option.getD · _) _ _ _⟩

/-! ### The effect of each command on a member, rules R111 and R119 to R130 -/

/-- The registers that a command may write of a member: all of them on the member's page. -/
abbrev commandRegs (a : Nat) : List Nat :=
  [Reg.PRF_TARGET a, Reg.PRF_TARGET a + 4, Reg.PRF_REMAIN a, Reg.PRF_REMAIN a + 4, Reg.PRF_REPLAN_CNT a] ++ limitRegs a

theorem commandRegs_page {a : Nat} (h : a < 144) : ∀ r ∈ commandRegs a, pageOf r = Page.PRF a := by
  intro r hr
  simp only [commandRegs, limitRegs, List.cons_append, List.nil_append, List.mem_cons, List.not_mem_nil, or_false, Reg.PRF_STAT,
    Reg.PRF_TARGET, Reg.PRF_REMAIN, Reg.PRF_REPLAN_CNT, Reg.PRF_OVS_DIST, Reg.PRF_OVS_CNT, Reg.PG_IRQ_RAW, Page.PRF] at hr
  unfold pageOf
  rw [if_pos (by omega)]
  simp only [Page.PRF]
  omega

theorem setAxState_writes (s : State) (a st : Nat) : s.Writes (s.setAxState a st) [Reg.PRF_STAT a] := setFld_writes _ _ _ _ _

/-- The registers of the maximum limits are none of those that a command writes. -/
theorem commandRegs_above (a r : Nat) (h1 : Reg.PRF_VMAX a ≤ r) (h2 : r ≤ Reg.PRF_JMAX a + 4) : r ∉ commandRegs a := by
  simp only [Reg.PRF_VMAX] at h1
  simp only [Reg.PRF_JMAX] at h2
  simp only [commandRegs, limitRegs, List.cons_append, List.nil_append, List.mem_cons, List.not_mem_nil, or_false, Reg.PRF_STAT,
    Reg.PRF_TARGET, Reg.PRF_REMAIN, Reg.PRF_REPLAN_CNT, Reg.PRF_OVS_DIST, Reg.PRF_OVS_CNT, Reg.PG_IRQ_RAW, Page.PRF]
  omega

/-- A generator replans in a new state: what most commands end with. -/
theorem replanned_writes (s : State) (a st : Nat) :
    s.Writes ((s.setAxState a st).replan a) [Reg.PRF_STAT a, Reg.PRF_REPLAN_CNT a] := (setAxState_writes _ _ _).trans (inc_writes _ _)

theorem replanned_axState (s : State) (a : Nat) {st : Nat} (h : st < 16) : ((s.setAxState a st).replan a).axState a = st :=
  (axState_of_same (inc_writes (s.setAxState a st) (Reg.PRF_REPLAN_CNT a)).1 (by simp)).trans (axState_setAxState s a h)

theorem replanned_count (s : State) (a st : Nat) :
    ((s.setAxState a st).replan a).rdN (Reg.PRF_REPLAN_CNT a) = min (s.rdN (Reg.PRF_REPLAN_CNT a) + 1) 0xFFFFFFFF := by
  have h : (s.setAxState a st).rdN (Reg.PRF_REPLAN_CNT a) = s.rdN (Reg.PRF_REPLAN_CNT a) := rdN_of_rd (rd_setFld_ne (by simp) s 3 0 st)
  rw [← h]
  exact rdN_inc _ _

/-- New limits leave the target and the count of plans. -/
theorem limitRegs_apart (a : Nat) :
    Reg.PRF_TARGET a ∉ Reg.PRF_REPLAN_CNT a :: limitRegs a ∧ Reg.PRF_TARGET a + 4 ∉ Reg.PRF_REPLAN_CNT a :: limitRegs a ∧
      Reg.PRF_REPLAN_CNT a ∉ Reg.PRF_TARGET a :: (Reg.PRF_TARGET a + 4) :: limitRegs a := by
  simp only [limitRegs, List.mem_cons, List.not_mem_nil, or_false, Reg.PRF_TARGET, Reg.PRF_REPLAN_CNT, Reg.PRF_STAT, Reg.PRF_OVS_DIST,
    Reg.PRF_OVS_CNT, Reg.PG_IRQ_RAW, Page.PRF]
  omega

/-- What a stop and a resumption write is not the target. -/
theorem stopRegs_target (a : Nat) : Reg.PRF_TARGET a ∉ [Reg.PRF_STAT a, Reg.PRF_REMAIN a, Reg.PRF_REMAIN a + 4] ∧
    Reg.PRF_TARGET a + 4 ∉ [Reg.PRF_STAT a, Reg.PRF_REMAIN a, Reg.PRF_REMAIN a + 4] := by
  simp only [List.mem_cons, List.not_mem_nil, or_false, Reg.PRF_TARGET, Reg.PRF_STAT, Reg.PRF_REMAIN]
  omega

theorem resumeRegs_target (a : Nat) : Reg.PRF_TARGET a ∉ [Reg.PRF_STAT a, Reg.PRF_REPLAN_CNT a] ∧
    Reg.PRF_TARGET a + 4 ∉ [Reg.PRF_STAT a, Reg.PRF_REPLAN_CNT a] := by
  simp only [List.mem_cons, List.not_mem_nil, or_false, Reg.PRF_TARGET, Reg.PRF_STAT, Reg.PRF_REPLAN_CNT]
  omega

theorem doMove_clause (s : State) (g a code valid : Nat) (f : MemberFields) :
    s.OnAxis (s.doMove g a code valid f) a (commandRegs a) ∧ (s.doMove g a code valid f).axState a = axMoving ∧
      (s.doMove g a code valid f).rd64 (Reg.PRF_TARGET a) =
        wrapTo 64 (s.fullStep a (sgn (s.moveTarget a code f - s.setp a)) (s.moveTarget a code f)) ∧
      (s.doMove g a code valid f).rdN (Reg.PRF_REPLAN_CNT a) = min (s.rdN (Reg.PRF_REPLAN_CNT a) + 1) 0xFFFFFFFF := by
  unfold State.doMove
  extract_lets t s1 stop rev _ s2
  have h0 := (wrI64_writes s (Reg.PRF_TARGET a) t).signals.onAxis a
  have h1 : (s.setTarget a t).OnAxis s1 a (limitRegs a) := (takeLimits_onAxis _ _ _ _ _).1
  have h2 : s1.OnAxis s2 a [] := setAxis_onAxis _ _ _
  have h3 : s2.OnAxis (if rev then s2.setBit (Reg.PRF_STAT a) 6 true else s2) a [Reg.PRF_STAT a] := by
    split
    · exact (setBit_writes _ _ _ _).signals.onAxis a
    · exact ((State.Writes.refl s2).signals.onAxis a).mono (by simp)
  generalize (if rev then s2.setBit (Reg.PRF_STAT a) 6 true else s2) = s3 at h3 ⊢
  have h4 := (replanned_writes s3 a axMoving).signals.onAxis a
  have hlate := (h1.trans h2).trans h3
  obtain ⟨ht0, ht4, hcnt⟩ := limitRegs_apart a
  refine ⟨((h0.trans hlate).trans h4).mono (by simp), replanned_axState s3 a (by decide), ?_, ?_⟩
  · have hregs := (hlate.trans h4).regs.mono (m := Reg.PRF_REPLAN_CNT a :: limitRegs a) (by simp)
    exact (rd64_of_same hregs ht0 ht4).trans (rd64_wrI64 s _ t)
  · have hregs := (h0.trans hlate).regs.mono (m := Reg.PRF_TARGET a :: (Reg.PRF_TARGET a + 4) :: limitRegs a) (by simp)
    rw [replanned_count, rdN_of_rd (hregs _ hcnt)]

theorem doJog_clause (s : State) (a valid : Nat) (f : MemberFields) :
    s.OnAxis (s.doJog a valid f) a (commandRegs a) ∧ (s.doJog a valid f).axState a = axJog ∧
      ((s.doJog a valid f).axis a).jogV = fieldOf f 1 ∧ ((s.doJog a valid f).axis a).limV = some (mag (fieldOf f 1)) := by
  have h1 := (takeLimits_onAxis s a valid f false).1
  unfold State.doJog
  obtain ⟨h2, hx⟩ := setAxis_then (replanned_writes ((s.takeLimits a valid f false).setAxis a { (s.takeLimits a valid f false).axis a with
    jogV := fieldOf f 1, limV := some (mag (fieldOf f 1)), kept := false, toIdle := false, joint := none }) a axJog).signals
  exact ⟨(h1.trans h2).mono (by simp), replanned_axState _ _ (by decide), by rw [hx], by rw [hx]⟩

theorem setLimits_clause (s : State) (a valid : Nat) (f : MemberFields) :
    s.OnAxis ((s.takeLimits a valid f true).replan a) a (commandRegs a) ∧
      ((s.takeLimits a valid f true).replan a).axState a = s.axState a ∧
      ∃ ramp turn, ((s.takeLimits a valid f true).replan a).axis a = (s.axis a).limited valid f true ramp turn := by
  obtain ⟨h1, hst, hx⟩ := takeLimits_onAxis s a valid f true
  have h2 := inc_writes (s.takeLimits a valid f true) (Reg.PRF_REPLAN_CNT a)
  exact ⟨(h1.trans (h2.signals.onAxis a)).mono (by simp), (axState_of_same h2.1 (by simp)).trans hst, hx⟩

theorem beginStop_clause (s : State) (a : Nat) (kept toIdle soft : Bool) :
    s.OnAxis (s.beginStop a kept toIdle soft) a [Reg.PRF_STAT a, Reg.PRF_REMAIN a, Reg.PRF_REMAIN a + 4] ∧
      (s.beginStop a kept toIdle soft).axState a = axStopping ∧
      (∃ stopAt, (s.beginStop a kept toIdle soft).axis a =
        { s.axis a with kept := kept, toIdle := toIdle, softStop := soft, stopAt := stopAt }) ∧
      (kept = true → (s.beginStop a kept toIdle soft).rd64 (Reg.PRF_REMAIN a) = wrapTo 64 (s.target a - s.setp a)) ∧
      (s.beginStop a kept toIdle soft).fld (Reg.PRF_STAT a) 15 12 = s.fld (Reg.PRF_STAT a) 15 12 := by
  unfold State.beginStop
  extract_lets p at' _ s1 s2
  have h1 : s1.Signals s2 [Reg.PRF_STAT a] := ((setBit_writes _ _ _ _).trans (setAxState_writes _ _ _)).signals.mono (by simp)
  have hst : s2.axState a = axStopping := axState_setAxState _ _ (by decide)
  have hf : s2.fld (Reg.PRF_STAT a) 15 12 = s.fld (Reg.PRF_STAT a) 15 12 :=
    (fld_setFld_ne (by decide) (by decide) (.inl (by decide)) _ _ _).trans
      (fld_setFld_ne (s := s1) (by decide) (by decide) (.inl (by decide)) _ _)
  split
  case isTrue hk =>
    have h2 := wrI64_writes s2 (Reg.PRF_REMAIN a) (s.target a - s.setp a)
    obtain ⟨hon, hx⟩ := setAxis_then (h1.trans h2.signals)
    have hne : Reg.PRF_STAT a ∉ [Reg.PRF_REMAIN a, Reg.PRF_REMAIN a + 4] := by simp [Reg.PRF_STAT, Reg.PRF_REMAIN]; omega
    exact ⟨hon, (axState_of_same h2.1 hne).trans hst, ⟨at', hx⟩, fun _ => rd64_wrI64 _ _ _, (fld_of_rd (h2.1 _ hne) _ _).trans hf⟩
  case isFalse hk =>
    obtain ⟨hon, hx⟩ := setAxis_then h1
    exact ⟨hon.mono (by simp), hst, ⟨at', hx⟩, fun h => absurd h hk, hf⟩

theorem doResume_clause (s : State) (a : Nat) :
    s.OnAxis (s.doResume a) a [Reg.PRF_STAT a, Reg.PRF_REPLAN_CNT a] ∧ (s.doResume a).axState a = axMoving := by
  unfold State.doResume
  exact ⟨(setAxis_then (replanned_writes _ _ _).signals).1, replanned_axState _ _ (by decide)⟩

/-- The page of an axis whose homing fails, before its stop. -/
def State.noteHomeFail (s : State) (a code : Nat) : State :=
  ((s.setFld (Reg.PRF_STAT a) 15 12 code).setFld (Reg.PRF_STAT a) 19 16 0).event (Page.PRF a) 4 (w32 code)

theorem homeFail_eq (s : State) (a code : Nat) : s.homeFail a code = (s.noteHomeFail a code).beginStop a false true false := rfl

theorem noteHomeFail_signals (s : State) (a code : Nat) :
    s.Signals (s.noteHomeFail a code) [Reg.PRF_STAT a, Reg.PG_IRQ_RAW (Page.PRF a)] :=
  (((setFld_writes _ _ _ _ _).trans (setFld_writes _ _ _ _ _)).signals.trans (event_signals _ _ _ _)).mono (by simp)

theorem noteHomeFail_cause (s : State) (a : Nat) {code : Nat} (h : code < 16) : (s.noteHomeFail a code).fld (Reg.PRF_STAT a) 15 12 = code := by
  unfold State.noteHomeFail
  rw [fld_of_rd (rd_event (by simp [Reg.PRF_STAT, Reg.PG_IRQ_RAW, Page.PRF]; omega) _ _ _),
    fld_setFld_ne (by decide) (by decide) (.inr (by decide)), fld_setFld (by decide) (by decide)]
  exact Nat.mod_eq_of_lt h

theorem doAbort_clause (s : State) (a : Nat) :
    s.OnAxis (s.doAbort a) a (commandRegs a) ∧
      (s.axState a = axStopped → (s.doAbort a).axState a = axIdle ∧ (s.doAbort a).target a = s.setp a) ∧
      (s.axState a ≠ axIdle → s.axState a ≠ axStopped →
        (s.doAbort a).axState a = axStopping ∧ ((s.doAbort a).axis a).kept = false ∧ ((s.doAbort a).axis a).toIdle = true) ∧
      (s.axState a = axHoming → (s.doAbort a).fld (Reg.PRF_STAT a) 15 12 = 4) := by
  unfold State.doAbort
  extract_lets st
  split
  case isTrue hidle =>
    have hst : s.axState a = axIdle := by simpa [st] using hidle
    exact ⟨((State.Writes.refl s).signals.onAxis a).mono (by simp), fun h => absurd (hst.symm.trans h) (by decide),
      fun h => absurd hst h, fun h => absurd (hst.symm.trans h) (by decide)⟩
  case isFalse hidle =>
    split
    case isTrue hstopped =>
      have hst : s.axState a = axStopped := by simpa [st] using hstopped
      have h1 := setAxis_onAxis s a { s.axis a with kept := false }
      have h2 := wrI64_writes (s.setAxis a { s.axis a with kept := false }) (Reg.PRF_TARGET a) (s.setp a)
      have h3 := setFld_writes ((s.setAxis a { s.axis a with kept := false }).setTarget a (s.setp a)) (Reg.PRF_STAT a) 3 0 axIdle
      refine ⟨((h1.trans (h2.signals.onAxis a)).trans (h3.signals.onAxis a)).mono (by simp), fun _ => ⟨axState_setAxState _ _ (by decide), ?_⟩,
        fun _ h => absurd hst h, fun h => absurd (hst.symm.trans h) (by decide)⟩
      exact (rdI64_of_same h3.1 (by simp) (by simp [Reg.PRF_TARGET, Reg.PRF_STAT]; omega)).trans (rdI64_wrI64_rdI64 _ s _ _)
    case isFalse hstopped =>
      have hno : s.axState a ≠ axStopped := by simpa [st] using hstopped
      split
      case isTrue hhoming =>
        have h1 := noteHomeFail_signals s a 4
        obtain ⟨h2, hst2, ⟨stopAt, hx⟩, -, hf⟩ := beginStop_clause (s.noteHomeFail a 4) a false true false
        rw [homeFail_eq]
        exact ⟨((h1.onAxis a).trans h2).mono (by simp), fun h => absurd h hno, fun _ _ => ⟨hst2, by rw [hx], by rw [hx]⟩,
          fun _ => hf.trans (noteHomeFail_cause s a (by decide))⟩
      case isFalse hhoming =>
        have hnot : s.axState a ≠ axHoming := by simpa [st] using hhoming
        obtain ⟨h2, hst2, ⟨stopAt, hx⟩, -, -⟩ := beginStop_clause s a false true false
        exact ⟨h2.mono (by simp), fun h => absurd h hno, fun _ _ => ⟨hst2, by rw [hx], by rw [hx]⟩, fun h => absurd h hnot⟩

theorem doGear_clause (s : State) (a valid : Nat) (f : MemberFields) :
    s.OnAxis (s.doGear a valid f) a (commandRegs a) ∧ (s.doGear a valid f).axState a = axGearSync ∧
      ((s.doGear a valid f).axis a).slaveOfs = fieldOf f 0 ∧
      ((s.doGear a valid f).axis a).gearNum = signedOf 32 (bitsOf f.f1.toNat 31 0) ∧
      ((s.doGear a valid f).axis a).gearDen = bitsOf f.f1.toNat 63 32 := by
  have h1 := (takeLimits_onAxis s a valid f false).1
  unfold State.doGear
  extract_lets s1 _ s2
  obtain ⟨h2, hx⟩ := setAxis_then ((setBit_writes s2 (Reg.PRF_STAT a) 11 false).trans (replanned_writes _ a axGearSync)).signals
  exact ⟨(h1.trans h2).mono (by simp), replanned_axState _ _ (by decide), by rw [hx], by rw [hx], by rw [hx]⟩

theorem doCam_clause (s : State) (a valid : Nat) (f : MemberFields) :
    s.OnAxis (s.doCam a valid f) a (commandRegs a) ∧
      (s.axState a ≠ axCammed → (s.doCam a valid f).axState a = axCamSync ∧ ((s.doCam a valid f).axis a).slaveOfs = fieldOf f 0 ∧
        ((s.doCam a valid f).axis a).camTab = s.camTable a valid f) ∧
      (s.axState a = axCammed → s.camTable a valid f ≠ (s.axis a).camTab →
        ((s.doCam a valid f).axis a).camNext = some (s.camTable a valid f, fieldOf f 0)) := by
  obtain ⟨h1, -, ramp, turn, hx1⟩ := takeLimits_onAxis s a valid f false
  have htab : ((s.takeLimits a valid f false).axis a).camTab = (s.axis a).camTab := by rw [hx1]; rfl
  unfold State.doCam
  extract_lets s1 tab x s2
  split
  case isTrue hwait =>
    obtain ⟨hst, -⟩ : s.axState a = axCammed ∧ tab ≠ x.camTab := by simpa using hwait
    exact ⟨(h1.trans (setAxis_onAxis _ _ _)).mono (by simp), fun h => absurd hst h, fun _ _ => by rw [axis_setAxis_self]⟩
  case isFalse hnow =>
    have hsame : s.axState a = axCammed → tab = x.camTab := by simpa using hnow
    obtain ⟨h2, hx⟩ := setAxis_then ((setBit_writes s2 (Reg.PRF_STAT a) 11 false).trans (replanned_writes _ a axCamSync)).signals
    exact ⟨(h1.trans h2).mono (by simp), fun _ => ⟨replanned_axState _ _ (by decide), by rw [hx], by rw [hx]⟩,
      fun hst hne => absurd ((hsame hst).trans htab) hne⟩

theorem doHome_clause (s : State) (a : Nat) :
    s.OnAxis (s.doHome a) a [Reg.PRF_STAT a] ∧ (s.doHome a).axState a = axHoming ∧
      ((s.doHome a).fld (Reg.PRF_STAT a) 19 16 = 1 ∨ (s.doHome a).fld (Reg.PRF_STAT a) 19 16 = 2) ∧
      (s.doHome a).fld (Reg.PRF_STAT a) 15 12 = 0 ∧ ((s.doHome a).axis a).homeStart = s.setp a := by
  unfold State.doHome
  extract_lets mode x seen s1 first
  have hfirst : first = 1 ∨ first = 2 := by
    unfold first
    split <;> decide
  obtain ⟨hon, hx⟩ := setAxis_then (((setFld_writes s1 (Reg.PRF_STAT a) 15 12 0).trans (setFld_writes _ _ 19 16 first)).trans
    (setAxState_writes _ _ _)).signals
  have hstep : ∀ u : State, ((u.setFld (Reg.PRF_STAT a) 19 16 first).setAxState a axHoming).fld (Reg.PRF_STAT a) 19 16 = first := fun u =>
    (fld_setFld_ne (by decide) (by decide) (.inl (by decide)) _ _ _).trans
      ((fld_setFld (by decide) (by decide) u _ _).trans (Nat.mod_eq_of_lt (by omega)))
  refine ⟨hon.mono (by simp), axState_setAxState _ _ (by decide), ?_, ?_, by rw [hx]⟩
  · rw [hstep]
    exact hfirst
  · exact (fld_setFld_ne (by decide) (by decide) (.inl (by decide)) _ _ _).trans
      ((fld_setFld_ne (by decide) (by decide) (.inr (by decide)) _ _ _).trans (fld_setFld (by decide) (by decide) s1 _ _))

theorem doFollow_clause (s : State) (a : Nat) (x : Axis) :
    s.OnAxis ((s.setAxis a x).setAxState a axFollow) a [Reg.PRF_STAT a] ∧ ((s.setAxis a x).setAxState a axFollow).axState a = axFollow :=
  ⟨(setAxis_then (setAxState_writes _ _ _).signals).1, axState_setAxState _ _ (by decide)⟩

/-- Whatever the command, of the registers those of its member's page alone, and no memory and no other axis, are concerned. -/
theorem doMember_onAxis (s : State) (g a code valid : Nat) (f : MemberFields) : s.OnAxis (s.doMember g a code valid f) a (commandRegs a) := by
  unfold State.doMember
  split
  case h_1 | h_2 => exact (doMove_clause _ _ _ _ _ _).1
  case h_3 => exact (doJog_clause _ _ _ _).1
  case h_4 => exact (setLimits_clause _ _ _ _).1
  case h_5 => exact (beginStop_clause _ _ _ _ _).1.mono (by simp)
  case h_6 => exact (doResume_clause _ _).1.mono (by simp)
  case h_7 => exact (doAbort_clause _ _).1
  case h_8 => exact (doGear_clause _ _ _ _).1
  case h_9 => exact (doCam_clause _ _ _ _).1
  case h_10 => exact (beginStop_clause _ _ _ _ _).1.mono (by simp)
  case h_11 => exact (doHome_clause _ _).1.mono (by simp)
  case h_12 => exact (setAxis_onAxis _ _ _).mono (by simp)
  case h_13 => exact (doFollow_clause _ _ _).1.mono (by simp)
  case h_14 => exact ((State.Writes.refl s).signals.onAxis a).mono (by simp)

/-! ### One member among the others -/

theorem forEach_append {α : Type} (f : α → State → State) (k l : List α) : ∀ s : State, forEach f (k ++ l) s = forEach f l (forEach f k s) := by
  induction k with
  | nil => intro s; rfl
  | cons x k ih => intro s; exact ih (f x s)

/-- What every element's step keeps, the loop over the list keeps. -/
theorem forEach_keeps {α : Type} {P : State → Prop} {f : α → State → State} {l : List α} (hf : ∀ x ∈ l, ∀ t, P t → P (f x t)) :
    ∀ {s : State}, P s → P (forEach f l s) := by
  induction l with
  | nil => exact fun h => h
  | cons x l ih => exact fun h => ih (fun y hy => hf y (List.mem_cons_of_mem _ hy)) (hf x List.mem_cons_self _ h)

/-- Two states agree in the page of an axis. -/
def State.SamePage (s t : State) (a : Nat) : Prop := ∀ r, pageOf r = Page.PRF a → t.rd r = s.rd r

/-- Two states agree in an axis: in its page and in what stands beside the page. -/
structure State.SameAxis (s t : State) (a : Nat) : Prop where
  page : s.SamePage t a
  axis : t.axis a = s.axis a

theorem State.SameAxis.refl (s : State) (a : Nat) : s.SameAxis s a := ⟨fun _ _ => rfl, rfl⟩

theorem State.SameAxis.trans {s t u : State} {a : Nat} (h : s.SameAxis t a) (k : t.SameAxis u a) : s.SameAxis u a :=
  ⟨fun r hr => (k.page r hr).trans (h.page r hr), k.axis.trans h.axis⟩

/-- A command to one axis leaves the others. -/
theorem State.OnAxis.sameAxis {s t : State} {a b : Nat} (h : s.OnAxis t b (commandRegs b)) (hb : b < 144) (hne : a ≠ b) : s.SameAxis t a := by
  refine ⟨fun r hr => h.regs r fun hm => hne ?_, h.others a hne⟩
  have := hr.symm.trans (commandRegs_page hb r hm)
  simp only [Page.PRF] at this
  omega

theorem mem_members {s : State} {g : Nat} {p : Nat × Nat} (h : p ∈ s.members g) : p.2 < 144 := by
  simpa using (List.mem_filter.mp h).2

theorem members_nodup (s : State) (g : Nat) : (s.members g).Nodup :=
  (List.nodup_range.map fun _ _ h => congrArg Prod.fst h).filter _

/-- The effect of a command on one member, where the mask names it. -/
def memberStep (g code mask valid : Nat) (fs : List MemberFields) (p : Nat × Nat) (s : State) : State :=
  if mask.testBit p.1 then s.doMember g p.2 code valid (fieldsOf fs p.1) else s

theorem memberStep_sameAxis {a : Nat} {p : Nat × Nat} (hp : p.2 < 144) (hne : p.2 ≠ a) (g code mask valid : Nat) (fs : List MemberFields)
    (s : State) : s.SameAxis (memberStep g code mask valid fs p s) a := by
  unfold memberStep
  split
  · exact (doMember_onAxis _ _ _ _ _ _).sameAxis hp hne.symm
  · exact .refl s a

/-- A loop over members that are all other axes leaves an axis. -/
theorem members_sameAxis {a : Nat} {l : List (Nat × Nat)} (hl : ∀ p ∈ l, p.2 < 144 ∧ p.2 ≠ a) (g code mask valid : Nat)
    (fs : List MemberFields) (s : State) : s.SameAxis (forEach (memberStep g code mask valid fs) l s) a :=
  forEach_keeps (P := fun t => s.SameAxis t a)
    (fun p hp t ht => ht.trans (memberStep_sameAxis (hl p hp).1 (hl p hp).2 g code mask valid fs t)) (.refl s a)

/-- An axis that one member is, and no other, has after the loop what its own command made of it. -/
theorem members_named {s : State} {g mask m a : Nat} (h : s.namedOnce g mask m a) (code valid : Nat) (fs : List MemberFields) (s0 : State) :
    ∃ u, s0.SameAxis u a ∧
      (u.doMember g a code valid (fieldsOf fs m)).SameAxis (forEach (memberStep g code mask valid fs) (s.members g) s0) a := by
  obtain ⟨hmem, hmask, hother⟩ := h
  obtain ⟨k, l, hsplit⟩ := List.append_of_mem hmem
  have hnd := members_nodup s g
  rw [hsplit, List.nodup_append, List.nodup_cons] at hnd
  obtain ⟨-, ⟨hl, -⟩, hdis⟩ := hnd
  have hrest : ∀ p, p ∈ k ∨ p ∈ l → p.2 < 144 ∧ p.2 ≠ a := by
    intro p hp
    have hin : p ∈ s.members g := by rw [hsplit]; simp only [List.mem_append, List.mem_cons]; tauto
    refine ⟨mem_members hin, hother p hin ?_⟩
    rcases hp with hp | hp
    · exact fun h => hdis p hp _ List.mem_cons_self h
    · exact fun h => hl (h ▸ hp)
  refine ⟨forEach (memberStep g code mask valid fs) k s0, members_sameAxis (fun p hp => hrest p (.inl hp)) _ _ _ _ _ _, ?_⟩
  have hown : memberStep g code mask valid fs (m, a) (forEach (memberStep g code mask valid fs) k s0) =
      (forEach (memberStep g code mask valid fs) k s0).doMember g a code valid (fieldsOf fs m) := if_pos hmask
  rw [hsplit, forEach_append, ← hown]
  exact members_sameAxis (fun p hp => hrest p (.inr hp)) _ _ _ _ _ _

/-- What the loop over the members leaves: the registers of other pages, the memories, and the axes that the mask does not name. -/
theorem members_frame (s s0 : State) (g code mask valid : Nat) (fs : List MemberFields) :
    (∀ r, (∀ p ∈ s.members g, mask.testBit p.1 = true → pageOf r ≠ Page.PRF p.2) →
      (forEach (memberStep g code mask valid fs) (s.members g) s0).rd r = s0.rd r) ∧
    s0.SameMemory (forEach (memberStep g code mask valid fs) (s.members g) s0) ∧
    ∀ b, (∀ p ∈ s.members g, mask.testBit p.1 = true → p.2 ≠ b) →
      (forEach (memberStep g code mask valid fs) (s.members g) s0).axis b = s0.axis b := by
  refine forEach_keeps (P := fun t => (∀ r, (∀ p ∈ s.members g, mask.testBit p.1 = true → pageOf r ≠ Page.PRF p.2) → t.rd r = s0.rd r) ∧
    s0.SameMemory t ∧ ∀ b, (∀ p ∈ s.members g, mask.testBit p.1 = true → p.2 ≠ b) → t.axis b = s0.axis b) ?_
    ⟨fun _ _ => rfl, ⟨rfl, rfl, rfl, rfl, rfl⟩, fun _ _ => rfl⟩
  rintro p hp t ⟨hregs, hmem, haxes⟩
  unfold memberStep
  split
  case isFalse => exact ⟨hregs, hmem, haxes⟩
  case isTrue hmask =>
    have hon := doMember_onAxis t g p.2 code valid (fieldsOf fs p.1)
    refine ⟨fun r hr => ?_, hmem.trans hon.memory, fun b hb => ?_⟩
    · exact (hon.regs r fun hm => hr p hp hmask (commandRegs_page (mem_members hp) r hm)).trans (hregs r hr)
    · exact (hon.others b (hb p hp hmask).symm).trans (haxes b hb)

/-! ### Synchronised moves, rule R115 -/

/-- Only moves, and only in a group that synchronises them, join other members. -/
theorem joinSets_frame (s : State) (g code mask : Nat) :
    s.joinSets g code mask = { s with prof := (s.joinSets g code mask).prof } ∧
      ∀ b, (s.joinSets g code mask).axis b = s.axis b ∨
        (s.bit (Reg.PRFG_CTRL g) 1 = true ∧ (s.joinSets g code mask).axis b = { s.axis b with joint := some s.tick }) := by
  unfold State.joinSets
  split
  case isFalse => exact ⟨rfl, fun b => .inl rfl⟩
  case isTrue h =>
    refine forEach_keeps (P := fun t => t = { s with prof := t.prof } ∧ ∀ b, t.axis b = s.axis b ∨
      (s.bit (Reg.PRFG_CTRL g) 1 = true ∧ t.axis b = { s.axis b with joint := some s.tick })) ?_ ⟨rfl, fun b => .inl rfl⟩
    rintro p - t ⟨hprof, haxes⟩
    split
    case isFalse => exact ⟨hprof, haxes⟩
    case isTrue =>
      refine ⟨by conv_lhs => rw [hprof]
                 rfl, fun b => ?_⟩
      by_cases hb : b = p.2
      · refine .inr ⟨h.2, ?_⟩
        subst hb
        rw [axis_setAxis_self]
        rcases haxes p.2 with hx | ⟨-, hx⟩ <;> rw [hx]
      · rw [axis_setAxis_ne hb]
        exact haxes b

theorem joinSets_other {code : Nat} (h : code ≠ 1 ∧ code ≠ 2) (s : State) (g mask : Nat) : s.joinSets g code mask = s :=
  if_neg (by simp [h])

theorem joinSets_samePage (s : State) (g code mask a : Nat) : s.SamePage (s.joinSets g code mask) a := by
  intro r _
  rw [(joinSets_frame s g code mask).1]
  rfl

/-! ### What is read of an axis's page -/

section
variable {s t : State} {a : Nat} (h : s.SamePage t a) (ha : a < 144)
include h ha

theorem State.SamePage.rd {o : Nat} (ho : 0x40100000 ≤ o ∧ o < 0x40101000) : t.rd (o + 0x1000 * a) = s.rd (o + 0x1000 * a) := by
  refine h _ ?_
  unfold pageOf
  rw [if_pos (by omega)]
  simp only [Page.PRF]
  omega

theorem State.SamePage.rd64 {o : Nat} (ho : 0x40100000 ≤ o ∧ o < 0x40100ffc) : t.rd64 (o + 0x1000 * a) = s.rd64 (o + 0x1000 * a) := by
  have h4 := h.rd ha (o := o + 4) (by omega)
  rw [Nat.add_right_comm] at h4
  unfold State.rd64
  rw [rdN_of_rd (h.rd ha (by omega)), rdN_of_rd h4]

theorem State.SamePage.rdI64 {o : Nat} (ho : 0x40100000 ≤ o ∧ o < 0x40100ffc) : t.rdI64 (o + 0x1000 * a) = s.rdI64 (o + 0x1000 * a) := by
  unfold State.rdI64
  rw [h.rd64 ha ho]

theorem State.SamePage.stat (hi lo : Nat) : t.fld (Reg.PRF_STAT a) hi lo = s.fld (Reg.PRF_STAT a) hi lo :=
  fld_of_rd (h.rd ha (by decide)) hi lo

theorem State.SamePage.axState : t.axState a = s.axState a := h.stat ha 3 0

theorem State.SamePage.setp : t.setp a = s.setp a := h.rdI64 ha (by decide)

theorem State.SamePage.target : t.target a = s.target a := h.rdI64 ha (by decide)

theorem State.SamePage.fullStep (dir x : Int) : t.fullStep a dir x = s.fullStep a dir x := by
  have h1 : t.fld (Reg.PRF_STEP_CFG a) 3 0 = s.fld (Reg.PRF_STEP_CFG a) 3 0 := fld_of_rd (h.rd ha (by decide)) _ _
  have h2 : t.bit (Reg.PRF_CTRL a) 4 = s.bit (Reg.PRF_CTRL a) 4 := bit_of_rd (h.rd ha (by decide)) _
  unfold State.fullStep
  rw [h1, h2]

theorem State.SamePage.moveTarget (code : Nat) (f : MemberFields) : t.moveTarget a code f = s.moveTarget a code f := by
  unfold State.moveTarget
  rw [h.target ha]

end

/-- States that agree in an axis have the same limits in force. -/
theorem State.SameAxis.limits {s t : State} {a : Nat} (h : s.SameAxis t a) (ha : a < 144) :
    t.limV a = s.limV a ∧ t.limA a = s.limA a ∧ t.limD a = s.limD a ∧ t.limJ a = s.limJ a := by
  unfold State.limV State.limA State.limD State.limJ
  rw [h.axis]
  exact ⟨congrArg _ (h.page.rdI64 ha (by decide)), congrArg _ (h.page.rdI64 ha (by decide)), congrArg _ (h.page.rdI64 ha (by decide)),
    congrArg _ (h.page.rdI64 ha (by decide))⟩

theorem State.SameAxis.camTable {s t : State} {a : Nat} (h : s.SameAxis t a) (valid : Nat) (f : MemberFields) :
    t.camTable a valid f = s.camTable a valid f := by
  unfold State.camTable
  rw [h.axis]

/-! ### An accepted command -/

theorem groupCommand_accepted {s : State} {g code mask valid : Nat} {fs : List MemberFields}
    (h : s.cmdResult g code mask valid fs = (0, 0)) (seq : Nat) :
    s.groupCommand g code seq mask valid fs =
      (forEach (memberStep g code mask valid fs) (s.members g) (s.joinSets g code mask)).mbxResult g seq 0 0 := by
  unfold State.groupCommand
  rw [h]
  exact if_pos rfl

theorem mbxStat_page {g : Nat} (hg : g < 16) : pageOf (Reg.PRFG_MBX_STAT g) = Page.PRFG g := by
  unfold pageOf
  rw [if_pos (by simp only [Reg.PRFG_MBX_STAT]; omega)]
  simp only [Reg.PRFG_MBX_STAT, Page.PRFG]
  omega

section
variable {s : State} {g : Fin 16} {seq mask : BitVec 16} {valid : BitVec 6} {fs : List MemberFields} {m a code : Nat}
  (ht : s.ticking = true) (hg : s.groupEn g.val = true) (hn : s.namedOnce g.val mask.toNat m a)
  (hres : s.cmdResult g.val code mask.toNat valid.toNat fs = (0, 0))
include ht hg hn hres

/-- An accepted command: the axis it names once is as its own effect leaves it, CONS_SEQ is the command's, and the rest is as the joining
of other members left it. -/
theorem command_accepted : ∃ u t : State, s.command g.val code seq.toNat mask.toNat valid.toNat fs = t ∧
    (s.joinSets g.val code mask.toNat).SameAxis u a ∧ (u.doMember g.val a code valid.toNat (fieldsOf fs m)).SameAxis t a ∧
    t.rdN (Reg.PRFG_MBX_STAT g.val) = seq.toNat ∧
    (∀ r, r ≠ Reg.PRFG_MBX_STAT g.val → (∀ p ∈ s.members g.val, mask.toNat.testBit p.1 = true → pageOf r ≠ Page.PRF p.2) →
      t.rd r = (s.joinSets g.val code mask.toNat).rd r) ∧
    (s.joinSets g.val code mask.toNat).SameMemory t ∧
    ∀ b, (∀ p ∈ s.members g.val, mask.toNat.testBit p.1 = true → p.2 ≠ b) → t.axis b = (s.joinSets g.val code mask.toNat).axis b := by
  obtain ⟨u, hu, hmem⟩ := members_named hn code valid.toNat fs (s.joinSets g.val code mask.toNat)
  obtain ⟨hregs, hmemory, haxes⟩ := members_frame s (s.joinSets g.val code mask.toNat) g.val code mask.toNat valid.toNat fs
  have ha : a < 144 := mem_members hn.1
  rw [command_eq ht hg, groupCommand_accepted hres]
  generalize forEach (memberStep g.val code mask.toNat valid.toNat fs) (s.members g.val) (s.joinSets g.val code mask.toNat) = w
    at hmem hregs hmemory haxes ⊢
  have hw := mbxResult_writes w g.val seq.toNat 0 0
  have hlast : w.SameAxis (w.mbxResult g.val seq.toNat 0 0) a := by
    refine ⟨fun r hr => hw.1 r fun hm => ?_, hw.signals.axis a⟩
    have hp := (List.mem_singleton.mp hm ▸ hr).symm.trans (mbxStat_page g.isLt)
    simp only [Page.PRF, Page.PRFG] at hp
    omega
  refine ⟨u, _, rfl, hu, hmem.trans hlast, rdN_mbxResult w g.val seq (by decide) (by decide), ?_, hmemory.trans hw.signals.memory, ?_⟩
  · exact fun r hr hp => (hw.1 r (by simpa using hr)).trans (hregs r hp)
  · exact fun b hb => (hw.signals.axis b).trans (haxes b hb)

/-- A command that is no move leaves what it does not name. -/
theorem command_unjoined (hc : code ≠ 1 ∧ code ≠ 2) : ∃ u t : State, s.command g.val code seq.toNat mask.toNat valid.toNat fs = t ∧
    s.SameAxis u a ∧ (u.doMember g.val a code valid.toNat (fieldsOf fs m)).SameAxis t a ∧
    t.rdN (Reg.PRFG_MBX_STAT g.val) = seq.toNat ∧ s.GroupFrame t g.val mask.toNat := by
  obtain ⟨u, t, he, hu, hd, hm, hregs, hmemory, haxes⟩ := command_accepted (seq := seq) ht hg hn hres
  rw [joinSets_other hc] at hu hregs hmemory haxes
  exact ⟨u, t, he, hu, hd, hm, hregs, hmemory, haxes⟩

/-- A move's target, and what it leaves: other members may join it. -/
theorem command_moves (hc : code = 1 ∨ code = 2) : ∃ t : State, s.command g.val code seq.toNat mask.toNat valid.toNat fs = t ∧
    t.axState a = axMoving ∧
    t.rd64 (Reg.PRF_TARGET a) = wrapTo 64 (s.fullStep a (sgn (s.moveTarget a code (fieldsOf fs m) - s.setp a))
      (s.moveTarget a code (fieldsOf fs m))) ∧
    t.rdN (Reg.PRF_REPLAN_CNT a) = min (s.rdN (Reg.PRF_REPLAN_CNT a) + 1) 0xFFFFFFFF ∧
    t.rdN (Reg.PRFG_MBX_STAT g.val) = seq.toNat ∧ s.JoinFrame t g.val mask.toNat := by
  obtain ⟨u, t, he, hu, hd, hm, hregs, hmemory, haxes⟩ := command_accepted (seq := seq) ht hg hn hres
  have ha : a < 144 := mem_members hn.1
  have hpage : s.SamePage u a := fun r hr => (hu.page r hr).trans (joinSets_samePage s g.val code mask.toNat a r hr)
  obtain ⟨hprof, hjoint⟩ := joinSets_frame s g.val code mask.toNat
  have heff : u.doMember g.val a code valid.toNat (fieldsOf fs m) = u.doMove g.val a code valid.toNat (fieldsOf fs m) := by
    rcases hc with rfl | rfl <;> rfl
  rw [heff] at hd
  obtain ⟨-, hst, htg, hcnt⟩ := doMove_clause u g.val a code valid.toNat (fieldsOf fs m)
  rw [hpage.fullStep ha, hpage.moveTarget ha, hpage.setp ha] at htg
  rw [rdN_of_rd (hpage.rd ha (by decide))] at hcnt
  refine ⟨t, he, (hd.page.axState ha).trans hst, (hd.page.rd64 ha (by decide)).trans htg,
    (rdN_of_rd (hd.page.rd ha (by decide))).trans hcnt, hm, fun r hr hp => (hregs r hr hp).trans ?_, ?_, fun b hb => ?_⟩
  · rw [hprof]; rfl
  · have hj : s.SameMemory (s.joinSets g.val code mask.toNat) := by rw [hprof]; exact ⟨rfl, rfl, rfl, rfl, rfl⟩
    exact hj.trans hmemory
  · rw [haxes b hb]
    exact hjoint b

end

/-- Settles O35: the axis that one named member is has what its own command makes of it, and that is each command's own clause. -/
theorem motionCommands : Obligations.MotionCommands := by
  intro s g seq mask valid fs m a f ht hg hn hf
  subst hf
  have ha : a < 144 := mem_members hn.1
  refine ⟨?_, ?_, ?_, ?_, ?_, ?_, ?_, ?_, ?_, ?_, ?_, ?_, ?_⟩ <;> intro hres
  · obtain ⟨t, he, hst, htg, hcnt, hm, hfr⟩ := command_moves (seq := seq) ht hg hn hres (.inl rfl)
    exact ⟨t, congrArg Host.Outcome.next he, hst, htg, hcnt, hm, hfr⟩
  · obtain ⟨t, he, hst, htg, -, hm, hfr⟩ := command_moves (seq := seq) ht hg hn hres (.inr rfl)
    exact ⟨t, congrArg Host.Outcome.next he, hst, htg, hm, hfr⟩
  · obtain ⟨u, t, he, hu, hd, hm, hfr⟩ := command_unjoined (seq := seq) ht hg hn hres (by decide)
    obtain ⟨-, hst, hv, hlim⟩ := doJog_clause u a valid.toNat (fieldsOf fs m)
    refine ⟨t, congrArg Host.Outcome.next he, (hd.page.axState ha).trans hst, (congrArg Axis.jogV hd.axis).trans hv, ?_, hm, hfr⟩
    unfold State.limV
    rw [(congrArg Axis.limV hd.axis).trans hlim]
    rfl
  · obtain ⟨u, t, he, hu, hd, hm, hfr⟩ := command_unjoined (seq := seq) ht hg hn hres (by decide)
    obtain ⟨hon, hst, ramp, turn, hx⟩ := setLimits_clause u a valid.toNat (fieldsOf fs m)
    obtain ⟨hV, hA, hD, hJ⟩ := limits_taken hon.regs (commandRegs_above a) hx
    obtain ⟨uV, uA, uD, uJ⟩ := hu.limits ha
    obtain ⟨tV, tA, tD, tJ⟩ := hd.limits ha
    rw [uV] at hV
    rw [uA] at hA
    rw [uD] at hD
    rw [uJ] at hJ
    exact ⟨t, congrArg Host.Outcome.next he, ((hd.page.axState ha).trans hst).trans (hu.page.axState ha), tV.trans hV, tA.trans hA,
      tD.trans hD, tJ.trans hJ, hm, hfr⟩
  · obtain ⟨u, t, he, hu, hd, hm, hfr⟩ := command_unjoined (seq := seq) ht hg hn hres (by decide)
    obtain ⟨hon, hst, ⟨stopAt, hx⟩, hrem, -⟩ := beginStop_clause u a (u.axState a == axMoving) false false
    have hax := hd.axis.trans hx
    have hkept : (u.axState a == axMoving) = decide (s.axState a = axMoving) := by rw [hu.page.axState ha]; rfl
    have htg : (u.doStop a).target a = u.target a := rdI64_of_same hon.regs (stopRegs_target a).1 (stopRegs_target a).2
    refine ⟨t, congrArg Host.Outcome.next he, (hd.page.axState ha).trans hst, by rw [hax, hkept], by rw [hax],
      ((hd.page.target ha).trans htg).trans (hu.page.target ha), fun hmov => ?_, hm, hfr⟩
    rw [← hu.page.target ha, ← hu.page.setp ha]
    exact (hd.page.rd64 ha (by decide)).trans (hrem (by rw [hkept]; exact decide_eq_true hmov))
  · obtain ⟨u, t, he, hu, hd, hm, hfr⟩ := command_unjoined (seq := seq) ht hg hn hres (by decide)
    obtain ⟨hon, hst⟩ := doResume_clause u a
    have htg : (u.doResume a).target a = u.target a := rdI64_of_same hon.regs (resumeRegs_target a).1 (resumeRegs_target a).2
    exact ⟨t, congrArg Host.Outcome.next he, (hd.page.axState ha).trans hst, ((hd.page.target ha).trans htg).trans (hu.page.target ha), hm, hfr⟩
  · obtain ⟨u, t, he, hu, hd, hm, hfr⟩ := command_unjoined (seq := seq) ht hg hn hres (by decide)
    obtain ⟨-, hstopped, hmoving, hhoming⟩ := doAbort_clause u a
    rw [hu.page.axState ha, hu.page.setp ha] at hstopped
    rw [hu.page.axState ha] at hmoving hhoming
    refine ⟨t, congrArg Host.Outcome.next he, fun h => ?_, fun h1 h2 => ?_, fun h => (hd.page.stat ha 15 12).trans (hhoming h), hm, hfr⟩
    · obtain ⟨hst, htg⟩ := hstopped h
      exact ⟨(hd.page.axState ha).trans hst, (hd.page.target ha).trans htg⟩
    · obtain ⟨hst, hk, hi⟩ := hmoving h1 h2
      exact ⟨(hd.page.axState ha).trans hst, (congrArg Axis.kept hd.axis).trans hk, (congrArg Axis.toIdle hd.axis).trans hi⟩
  · obtain ⟨u, t, he, hu, hd, hm, hfr⟩ := command_unjoined (seq := seq) ht hg hn hres (by decide)
    obtain ⟨-, hst, hofs, hnum, hden⟩ := doGear_clause u a valid.toNat (fieldsOf fs m)
    exact ⟨t, congrArg Host.Outcome.next he, (hd.page.axState ha).trans hst, (congrArg Axis.slaveOfs hd.axis).trans hofs,
      (congrArg Axis.gearNum hd.axis).trans hnum, (congrArg Axis.gearDen hd.axis).trans hden, hm, hfr⟩
  · obtain ⟨u, t, he, hu, hd, hm, hfr⟩ := command_unjoined (seq := seq) ht hg hn hres (by decide)
    obtain ⟨-, hnow, hwait⟩ := doCam_clause u a valid.toNat (fieldsOf fs m)
    rw [hu.page.axState ha, hu.camTable] at hnow hwait
    rw [hu.axis] at hwait
    refine ⟨t, congrArg Host.Outcome.next he, fun h => ?_, fun h1 h2 => (congrArg Axis.camNext hd.axis).trans (hwait h1 h2), hm, hfr⟩
    obtain ⟨hst, hofs, htab⟩ := hnow h
    exact ⟨(hd.page.axState ha).trans hst, (congrArg Axis.slaveOfs hd.axis).trans hofs, (congrArg Axis.camTab hd.axis).trans htab⟩
  · obtain ⟨u, t, he, hu, hd, hm, hfr⟩ := command_unjoined (seq := seq) ht hg hn hres (by decide)
    obtain ⟨-, hst, ⟨stopAt, hx⟩, -, -⟩ := beginStop_clause u a false true true
    have hax := hd.axis.trans hx
    exact ⟨t, congrArg Host.Outcome.next he, (hd.page.axState ha).trans hst, by rw [hax], by rw [hax], hm, hfr⟩
  · obtain ⟨u, t, he, hu, hd, hm, hfr⟩ := command_unjoined (seq := seq) ht hg hn hres (by decide)
    obtain ⟨-, hst, hstep, hfault, hstart⟩ := doHome_clause u a
    rw [hu.page.setp ha] at hstart
    refine ⟨t, congrArg Host.Outcome.next he, (hd.page.axState ha).trans hst, ?_, (hd.page.stat ha 15 12).trans hfault,
      (congrArg Axis.homeStart hd.axis).trans hstart, hm, hfr⟩
    rw [hd.page.stat ha 19 16]
    exact hstep
  · obtain ⟨u, t, he, hu, hd, hm, hfr⟩ := command_unjoined (seq := seq) ht hg hn hres (by decide)
    have hx : (u.doSetPos a (fieldsOf fs m)).axis a = { u.axis a with shift := some (fieldOf (fieldsOf fs m) 0 - u.setp a, false) } :=
      axis_setAxis_self _ _ _
    rw [hu.page.setp ha] at hx
    exact ⟨t, congrArg Host.Outcome.next he, congrArg Axis.shift (hd.axis.trans hx), (hd.page.axState ha).trans (hu.page.axState ha), hm, hfr⟩
  · obtain ⟨u, t, he, hu, hd, hm, hfr⟩ := command_unjoined (seq := seq) ht hg hn hres (by decide)
    exact ⟨t, congrArg Host.Outcome.next he, (hd.page.axState ha).trans (doFollow_clause u a _).2, hm, hfr⟩

end Sys2Proof.Machine
end

section
/-! SUPPORT. Writes and reads of registers by address (O57). -/

namespace Sys2Proof.Machine

/-! ### Where an address lies -/

/-- `a` is the address of a word in the configuration region of page `p`. -/
structure ConfigWord (p a : Nat) : Prop where
  page : pageOf a = p
  lo : 0x100 ≤ pageOff a
  hi : pageOff a < 0x800
  aligned : a % 4 = 0

theorem configWord_of_bounds {p a : Nat} (hp : p < 0x40000) (lo : pageBase p + 0x100 ≤ a) (hi : a < pageBase p + 0x800)
    (h4 : a % 4 = 0) : ConfigWord p a := by
  unfold pageBase at lo hi
  refine ⟨?_, ?_, ?_, h4⟩
  · unfold pageOf
    rw [if_pos (by omega)]
    omega
  · unfold pageOff; omega
  · unfold pageOff; omega

/-- The configuration region holds none of the words below it. -/
theorem ConfigWord.ne_common {p a o : Nat} (h : ConfigWord p a) (ho : o < 0x100) : a ≠ 0x40000000 + 0x1000 * p + o := by
  rintro rfl
  have := h.lo
  unfold pageOff at this
  omega

/-- A present page lies in the window of the register pages. -/
theorem page_ge {a : Nat} (h : (pageKind (pageOf a)).isSome = true) : 0x40000000 ≤ a := by
  by_contra hlt
  have hout : pageOf a = 0xFFFFF := if_neg (by omega)
  rw [hout] at h
  exact absurd h (by decide)

/-- An aligned access to a present page. -/
theorem pageAccess_page {a : Nat} (h : (pageKind (pageOf a)).isSome = true) (h4 : a % 4 = 0) : pageAccess a 4 = true := by
  simp [pageAccess, page_ge h, h, h4]

/-- The highest page is LOOP_143. -/
theorem page_le {p : Nat} (h : (pageKind p).isSome = true) : p ≤ 0x28F := by
  by_contra hgt
  have hnone : pageKind p = none := by
    unfold pageKind
    repeat rw [if_neg (by omega)]
  rw [hnone] at h
  cases h

theorem pageOf_common {p o : Nat} (h : (pageKind p).isSome = true) (ho : o < 0x1000) : pageOf (0x40000000 + 0x1000 * p + o) = p := by
  have := page_le h
  unfold pageOf
  rw [if_pos (by omega)]
  omega

/-! ### A 32-bit write that reaches a word of a configuration region -/

theorem writable_page {s : State} {ag : Agent} {p : Nat} (h : s.writable ag p = true) : (pageKind p).isSome = true := by
  simp only [State.writable, Bool.and_eq_true] at h
  exact h.1.1.1.2

theorem cfgWritable_writable {s : State} {ag : Agent} {p : Nat} (h : s.cfgWritable ag p = true) : s.writable ag p = true := by
  simp only [State.cfgWritable, Bool.and_eq_true] at h
  exact h.1

theorem cfgWritable_unlocked {s : State} {ag : Agent} {p : Nat} (h : s.cfgWritable ag p = true) : s.bit (Reg.PG_LOCK p) 0 = false := by
  simp only [State.cfgWritable, Bool.and_eq_true, Bool.not_eq_true'] at h
  exact h.2

/-- A 32-bit write of an agent that may write the page is the page's own. -/
theorem registerWrite_word {s : State} {ag : Agent} {a : Nat} (h : s.writable ag (pageOf a) = true) (h4 : a % 4 = 0) (v : BitVec 64) :
    s.registerWrite ag a false v = s.writeWord ag a (v.extractLsb' 0 32) := by
  have hc := writable_clocked h
  have ha := pageAccess_page (writable_page h) h4
  cases ag with
  | engine e => simp [State.writable, pageRight] at h
  | host => simp [State.registerWrite, hc, ha]
  | core n => simp [State.registerWrite, hc, ha]
  | channelA => simp [State.registerWrite, hc, ha]

theorem registerWrite_config {s : State} {ag : Agent} {p a : Nat} (h : s.writable ag p = true) (hw : ConfigWord p a) (v : BitVec 64) :
    s.registerWrite ag a false v = s.cfgWord ag a (v.extractLsb' 0 32) := by
  rw [registerWrite_word (hw.page.symm ▸ h) hw.aligned, State.writeWord, if_neg (Nat.not_lt.mpr hw.lo), if_pos hw.hi]

/-! ### Pages whose configuration registers all have 32 bits -/

/-- The pages on which the rules are shown. -/
def shownPage (p : Nat) : Prop := p = Page.SYS ∨ p = Page.SOL

theorem wideCfg_shown {a : Nat} (h : shownPage (pageOf a)) : wideCfg a = false := by
  unfold wideCfg
  rcases h with h | h <;> rw [h] <;> rfl

theorem hasConfig_shown {p : Nat} (h : shownPage p) : hasConfig p = true := by rcases h with rfl | rfl <;> rfl

theorem cfgState_shown {s : State} {a : Nat} (h : shownPage (pageOf a)) : s.cfgState a = s.configurable := by
  unfold State.cfgState
  rcases h with h | h <;> rw [h] <;> rfl

/-- A word on one of these pages is judged alone. -/
theorem cfgWord_shown {p a : Nat} (hp : shownPage p) (hw : ConfigWord p a) (s : State) (ag : Agent) (v : Word) :
    s.cfgWord ag a v = s.cfgWords ag a (s.wordOf a v) := by
  have hwide : wideCfg a = false := wideCfg_shown (hw.page.symm ▸ hp)
  have hbefore : ¬ (0x104 ≤ pageOff a ∧ wideCfg (a - 4) = true) := by
    rintro ⟨hoff, hb⟩
    have hpage : pageOf (a - 4) = pageOf a := by
      unfold pageOf
      unfold pageOff at hoff
      split <;> split <;> omega
    rw [wideCfg_shown (hpage.trans hw.page ▸ hp)] at hb
    cases hb
  have hofs : a ≠ Reg.QTZ_TICK_OFS := by
    rintro rfl
    rw [← hw.page] at hp
    exact absurd hp (by unfold shownPage; decide)
  rw [State.cfgWord, hw.page, hasConfig_shown hp, hwide]
  simp only [Bool.not_true, Bool.false_eq_true, if_false, if_neg hofs, if_neg hbefore]

/-- Only a write of the event unit's page can move the event ring. -/
theorem evrMoves_shown {a : Nat} (h : shownPage (pageOf a)) (s : State) (x : Word) : s.evrMoves a x = false := by
  have h1 : a ≠ Reg.EVT_CTRL := by rintro rfl; exact absurd h (by unfold shownPage; decide)
  have h2 : a ≠ Reg.EVT_EVR_BASE := by rintro rfl; exact absurd h (by unfold shownPage; decide)
  simp [State.evrMoves, h1, h2]

/-- One word that the state, the lock and the conditions allow. -/
theorem cfgWords_accepted {s : State} {ag : Agent} {p a : Nat} {x : Word} (hp : shownPage p) (hw : ConfigWord p a)
    (h : s.cfgWritable ag p = true) (hc : s.configurable = true) (hk : keeps s (s.wr a x) p = true) :
    s.cfgWords ag a [(a, x)] = (s.putCfg a x).cfgAccepted p := by
  have hsh : shownPage (pageOf a) := hw.page.symm ▸ hp
  unfold State.cfgWords
  simp only [hw.page]
  unfold State.cfgWrite
  rw [swWrite_writable (cfgWritable_writable h), if_neg (by simp [cfgWritable_unlocked h]), if_pos]
  · rfl
  · simp only [cfgState_shown hsh, hc, List.any_cons, List.any_nil, evrMoves_shown hsh, forEach, hk]
    rfl

/-- The whole path of an accepted write. -/
theorem registerWrite_accepted {s : State} {ag : Agent} {p a : Nat} {v : BitVec 64} {x : Word} (hp : shownPage p) (hw : ConfigWord p a)
    (h : s.cfgWritable ag p = true) (hc : s.configurable = true) (hx : s.merged a (v.extractLsb' 0 32) = some x)
    (hk : keeps s (s.wr a x) p = true) : s.registerWrite ag a false v = (s.putCfg a x).cfgAccepted p := by
  rw [registerWrite_config (cfgWritable_writable h) hw, cfgWord_shown hp hw, State.wordOf, hx]
  exact cfgWords_accepted hp hw h hc hk

/-- The state or the lock forbids every word of the page: it is refused and counted. -/
theorem registerWrite_forbidden {s : State} {ag : Agent} {a : Nat} (hw : ConfigWord Page.SYS a) (h : s.writable ag Page.SYS = true)
    (hno : s.configurable = false ∨ s.bit (Reg.PG_LOCK Page.SYS) 0 = true) (v : BitVec 64) :
    s.registerWrite ag a false v = s.refuseAccess Page.SYS := by
  have hp : shownPage Page.SYS := .inl rfl
  rw [registerWrite_config h hw, cfgWord_shown hp hw]
  unfold State.cfgWords
  simp only [hw.page, cfgState_shown (hw.page.symm ▸ hp)]
  unfold State.cfgWrite
  rw [swWrite_writable h]
  by_cases hl : s.bit (Reg.PG_LOCK Page.SYS) 0 = true
  · rw [if_pos hl]
  · rw [if_neg hl, if_neg (by simp [hno.resolve_right hl])]
    rfl

/-! ### What the page shows of a write -/

theorem refuseAccess_writes (s : State) (p : Nat) : s.Writes (s.refuseAccess p) [Reg.PG_STAT p, Reg.PG_ERR_CNT p] :=
  (setBit_writes _ _ _ _).trans (inc_writes _ _)

/-- A refused access sets ACC_REFUSED and counts. -/
theorem refuseAccess_page (s : State) (p : Nat) :
    (s.refuseAccess p).bit (Reg.PG_STAT p) 4 = true ∧
      (s.refuseAccess p).rdN (Reg.PG_ERR_CNT p) = min (s.rdN (Reg.PG_ERR_CNT p) + 1) 0xFFFFFFFF := by
  have hne : Reg.PG_STAT p ≠ Reg.PG_ERR_CNT p := by simp only [Reg.PG_STAT, Reg.PG_ERR_CNT]; omega
  unfold State.refuseAccess
  refine ⟨?_, ?_⟩
  · rw [bit_of_rd (rd_inc_ne hne _), bit_setBit_self (by decide)]
  · rw [rdN_inc, rdN_of_rd (rd_setBit_ne hne.symm _ _ _)]

/-- The page check reads the configuration region alone. -/
theorem pageCrc_of_same {s t : State} {l : List Nat} (h : s.SameRegs t l) {p : Nat} (hl : ∀ a ∈ l, a < pageBase p + 0x100) :
    t.pageCrc p = s.pageCrc p := by
  unfold State.pageCrc State.cfgBytes
  congr 2
  funext i
  rw [h _ fun hm => absurd (hl _ hm) (by omega)]

/-- An accepted write counts in PG_CFG_SEQ, and MOD compares the page's CRC with PG_CHECK. -/
theorem cfgAccepted_page (s : State) (p : Nat) :
    (s.cfgAccepted p).rdN (Reg.PG_CFG_SEQ p) = (s.rdN (Reg.PG_CFG_SEQ p) + 1) % 4294967296 ∧
      (s.cfgAccepted p).bit (Reg.PG_STAT p) 1 = decide ((s.cfgAccepted p).pageCrc p ≠ (s.cfgAccepted p).rd (Reg.PG_CHECK p)) := by
  have hseq : Reg.PG_CFG_SEQ p ≠ Reg.PG_STAT p := by simp only [Reg.PG_CFG_SEQ, Reg.PG_STAT]; omega
  have hcheck : Reg.PG_CHECK p ≠ Reg.PG_STAT p := by simp only [Reg.PG_CHECK, Reg.PG_STAT]; omega
  unfold State.cfgAccepted
  refine ⟨?_, ?_⟩
  · exact (rdN_of_rd (rd_setBit_ne hseq _ _ _)).trans (rdN_wrN_self _ _ _)
  · rw [bit_setBit_self (by decide), rd_setBit_ne hcheck,
      pageCrc_of_same (setBit_writes _ _ _ _).1 (p := p) (by simp only [List.mem_singleton, forall_eq, pageBase, Reg.PG_STAT]; omega)]

/-- The word itself stays as the write left it. -/
theorem rd_cfgAccepted {p a : Nat} (hw : ConfigWord p a) (s : State) : (s.cfgAccepted p).rd a = s.rd a :=
  (cfgAccepted_writes s p).1 a (by simp [hw.ne_common (o := 0xc) (by decide), hw.ne_common (o := 0x24) (by decide)])

/-! ### The two pages' words -/

theorem putCfg_sys {a : Nat} (h : pageOf a = Page.SYS) (s : State) (x : Word) : s.putCfg a x = s.wr a x := by
  unfold State.putCfg lateCfg
  rw [h]
  rfl

theorem putCfg_sol {a : Nat} (h : pageOf a = Page.SOL) (s : State) (x : Word) : s.putCfg a x = s.wrLate a x := by
  unfold State.putCfg lateCfg
  rw [h]
  rfl

theorem wrLate_sameRegs (s : State) (a : Nat) (x : Word) : s.SameRegs (s.wrLate a x) [a] := (wr_writes s a x).1

theorem rd_wrLate_self (s : State) (a : Nat) (x : Word) : (s.wrLate a x).rd a = x := rd_wr_self s a x

/-- The value of a key that a table lists does not depend on the default. -/
theorem get_of_listed {α : Type} (d e : Nat → α) {k : Nat} : ∀ {m : List (Nat × α)}, m.any (fun p => p.1 == k) = true →
    Tab.get d m k = Tab.get e m k
  | (b, _) :: m, h => by
    by_cases hb : b = k
    · simp [Tab.get, hb]
    · simp only [Tab.get, if_neg hb]
      exact get_of_listed d e (by simpa [hb] using h)

/-- A key that a table does not list reads as the default. -/
theorem get_of_unlisted {α : Type} (d : Nat → α) {k : Nat} : ∀ {m : List (Nat × α)}, m.any (fun p => p.1 == k) = false →
    Tab.get d m k = d k
  | [], _ => rfl
  | _ :: m, h => by
    simp only [List.any_cons, Bool.or_eq_false_iff, beq_eq_false_iff_ne] at h
    rw [Tab.get, if_neg h.1, get_of_unlisted d h.2]

/-- The value in force stays until the next boundary. -/
theorem eff_wrLate_self (s : State) (a : Nat) (x : Word) : (s.wrLate a x).eff a = s.eff a := by
  unfold State.eff State.wrLate
  dsimp only
  split
  case isTrue h => exact get_of_listed _ _ h
  case isFalse h =>
    exact (if_pos rfl).trans (get_of_unlisted (fun k => s.rd k) (Bool.eq_false_iff.mpr h)).symm

/-! ### The low word of a 64-bit register, rules R108 and R435 -/

theorem vmax_configWord (n : Fin 144) : ConfigWord (Page.PRF n.val) (Reg.PRF_VMAX n.val) :=
  configWord_of_bounds (by simp only [Page.PRF]; omega) (by simp only [pageBase, Page.PRF, Reg.PRF_VMAX]; omega)
    (by simp only [pageBase, Page.PRF, Reg.PRF_VMAX]; omega) (by simp only [Reg.PRF_VMAX]; omega)

theorem pageKind_prf (n : Fin 144) : pageKind (Page.PRF n.val) = some (.prf, 0x08, n.val) := by decide +revert

theorem wideCfg_vmax (n : Fin 144) : wideCfg (Reg.PRF_VMAX n.val) = true := by decide +revert

theorem cfgState_vmax (s : State) (n : Fin 144) : s.cfgState (Reg.PRF_VMAX n.val) = s.configurable := by
  unfold State.cfgState
  rw [(vmax_configWord n).page, pageKind_prf]

/-- The page of a refused word of an axis. -/
theorem cfgRefused_prf (s : State) (n : Fin 144) : s.cfgRefused (Page.PRF n.val) = s.setBit (Reg.PRF_STAT n.val) 9 true := by
  unfold State.cfgRefused
  rw [pageKind_prf]

/-- PRF_VMAX's low word is held, or refused where the state forbids it. -/
theorem registerWrite_vmax {s : State} {ag : Agent} {n : Fin 144} (h : s.cfgWritable ag (Page.PRF n.val) = true) (v : BitVec 64) :
    s.registerWrite ag (Reg.PRF_VMAX n.val) false v =
      if s.configurable then s.holdLow (Reg.PRF_VMAX n.val) (v.extractLsb' 0 32)
      else (s.setBit (Reg.PRF_STAT n.val) 9 true).refuseAccess (Page.PRF n.val) := by
  have hw := vmax_configWord n
  have hofs : Reg.PRF_VMAX n.val ≠ Reg.QTZ_TICK_OFS := by simp only [Reg.PRF_VMAX, Reg.QTZ_TICK_OFS]; omega
  have hcfg : hasConfig (Page.PRF n.val) = true := by rw [hasConfig, pageKind_prf]
  rw [registerWrite_config (cfgWritable_writable h) hw, State.cfgWord, hw.page, hcfg, wideCfg_vmax]
  simp only [Bool.not_true, Bool.false_eq_true, if_false, if_true, if_neg hofs]
  rw [swWrite_writable (cfgWritable_writable h), if_neg (by simp [cfgWritable_unlocked h]), cfgState_vmax, cfgRefused_prf]

theorem held_holdLow (s : State) (a : Nat) (v : Word) (d : Nat → Word) : Tab.get d (s.holdLow a v).held64 a = v :=
  Tab.get_insert_erase _ _ _ _

/-! ### Accesses to no page, rule R437 -/

theorem pageAccess_none {a : Nat} (h : a < 0x40000000 ∨ a % 4 ≠ 0 ∨ pageKind (pageOf a) = none) : pageAccess a 4 = false := by
  rcases h with h | h | h <;> simp [pageAccess, h]

theorem registerWrite_bad {s : State} {a : Nat} (hc : s.clocked = true) (h : a < 0x40000000 ∨ a % 4 ≠ 0 ∨ pageKind (pageOf a) = none)
    (v : BitVec 64) : s.registerWrite .host a false v = s.badAccess := by
  simp [State.registerWrite, hc, pageAccess_none h]

/-- A bad access counts, shows in PCI_STAT and raises its event. -/
theorem badAccess_clause {s : State} (hc : s.clocked = true) :
    s.badAccess.rdN Reg.PCI_BAD_ACC_CNT = min (s.rdN Reg.PCI_BAD_ACC_CNT + 1) 0xFFFFFFFF ∧ s.badAccess.bit Reg.PCI_STAT 7 = true ∧
      s.Raises s.badAccess [Reg.PCI_BAD_ACC_CNT, Reg.PCI_STAT, Reg.PG_IRQ_RAW Page.PCI] [⟨Page.PCI, 1, false, 0, s.now⟩] := by
  unfold State.badAccess
  refine ⟨?_, ?_, ?_⟩
  · rw [rdN_of_rd (rd_event (by decide) _ _ _), rdN_of_rd (rd_setBit_ne (by decide) _ _ _), rdN_inc]
  · rw [bit_of_rd (rd_event (by decide) _ _ _), bit_setBit_self (by decide)]
  · exact ((inc_writes _ _).trans (setBit_writes _ _ _ _)).event hc (by decide) (by decide) _ _ _

/-! ### Reads -/

/-- A read of a present page's word in a powered domain that is no take and no measurement. -/
theorem regRead_page {s : State} {a : Nat} (ag : Agent) (hc : s.clocked = true) (hk : (pageKind (pageOf a)).isSome = true)
    (h4 : a % 4 = 0) (hd : s.domOn (domainOf (pageOf a)) = true) (ht : takeAddr a = false) (hm : s.measuredAt a = s) :
    s.regRead ag a =
      (if (regRow a).any (fun r => r.kind = .readClear) then s.wr a (regReset a) else s).onBus (s.regWord a).toNat := by
  have hnone : (pageKind (pageOf a)).isNone = false := by simpa [Option.isSome_iff_ne_none, Option.isNone_iff_eq_none] using hk
  unfold State.regRead State.busRead
  simp only [hc, ht, pageAccess_page hk h4, hnone, hd, hm, Bool.not_true, Bool.false_eq_true, Bool.false_and, if_false, if_true]
  cases regRow a with
  | none => rfl
  | some r => by_cases hr : r.kind = .readClear <;> simp [hr]

/-- Only the supply monitor's words and CLK_REF25_PPM bring what they measured with the read. -/
theorem measuredAt_elsewhere {a : Nat} (h : pageOff a < 0x800 ∨ pageOf a = Page.QTZ) (s : State) : s.measuredAt a = s := by
  have hv : ¬ (Reg.PWR_RAIL_V 0 ≤ a ∧ a < Reg.PWR_RAIL_V 13) := by
    simp only [Reg.PWR_RAIL_V, pageOf, pageOff, Page.QTZ] at h ⊢
    split at h <;> omega
  have hmm : ¬ (Reg.PWR_RAIL_MINMAX 0 ≤ a ∧ a < Reg.PWR_RAIL_MINMAX 13) := by
    simp only [Reg.PWR_RAIL_MINMAX, pageOf, pageOff, Page.QTZ] at h ⊢
    split at h <;> omega
  have hppm : a ≠ Reg.CLK_REF25_PPM := by
    rintro rfl
    exact absurd h (by decide)
  rw [State.measuredAt, if_neg hv, if_neg hmm, if_neg hppm]

theorem takeAddr_elsewhere {a : Nat} (h : pageOff a < 0x800 ∨ pageOf a = Page.QTZ) : takeAddr a = false := by
  simp only [takeAddr, decide_eq_false_iff_not, Reg.DLR_CORE_TAKE, pageOf, pageOff, Page.QTZ] at h ⊢
  split at h <;> omega

theorem regRow_phMax (k : Fin 7) : ∃ r, regRow (Reg.QTZ_PH_MAX k.val) = some r ∧ r.kind = .readClear :=
  Option.map_eq_some_iff.mp (show (regRow (Reg.QTZ_PH_MAX k.val)).map RegRow.kind = some .readClear by decide +revert)

theorem regReset_phMax (k : Fin 7) : regReset (Reg.QTZ_PH_MAX k.val) = 0 := by decide +revert

theorem pageOf_phMax (k : Fin 7) : pageOf (Reg.QTZ_PH_MAX k.val) = Page.QTZ := by decide +revert

theorem regWord_phMax (s : State) (k : Fin 7) : s.regWord (Reg.QTZ_PH_MAX k.val) = s.rd (Reg.QTZ_PH_MAX k.val) := by
  obtain ⟨r, hr, hk⟩ := regRow_phMax k
  have hoff : pageOff (Reg.QTZ_PH_MAX k.val) ≠ 0x018 := by simp only [pageOff, Reg.QTZ_PH_MAX]; omega
  unfold State.regWord
  rw [if_neg hoff, pageOf_phMax]
  repeat rw [if_neg (by
    simp only [Reg.QTZ_PH_MAX, Reg.QTZ_PH, Reg.MEM_HARD_ENT, Reg.DLR_CTX_W, Reg.SSM_TBL_W, Reg.SAF_TBL_W, Reg.SAF_LOG_W, Page.QTZ]
    omega)]
  simp [hr, hk]

/-- A read of QTZ_PH_MAX returns the register to its reset value. -/
theorem regRead_phMax {s : State} (ag : Agent) (k : Fin 7) (hc : s.clocked = true) (hd : s.domOn 0 = true) :
    s.regRead ag (Reg.QTZ_PH_MAX k.val) = (s.wr (Reg.QTZ_PH_MAX k.val) 0).onBus (s.rdN (Reg.QTZ_PH_MAX k.val)) := by
  have hpage := pageOf_phMax k
  have hrc : (regRow (Reg.QTZ_PH_MAX k.val)).any (fun r => r.kind = .readClear) = true := by
    obtain ⟨r, hr, hk⟩ := regRow_phMax k
    simp [hr, hk]
  rw [regRead_page ag hc (by rw [hpage]; decide) (by simp only [Reg.QTZ_PH_MAX]; omega) (by rw [hpage]; exact hd)
    (takeAddr_elsewhere (.inr hpage)) (measuredAt_elsewhere (.inr hpage) s), if_pos hrc, regReset_phMax, regWord_phMax]
  rfl

theorem pageOff_irqPend (p : Nat) : pageOff (Reg.PG_IRQ_PEND p) = 0x018 := by simp only [pageOff, Reg.PG_IRQ_PEND]; omega

/-- PG_IRQ_PEND is no read-clear register. -/
theorem regRow_irqPend {p : Nat} (h : (pageKind p).isSome = true) :
    (regRow (Reg.PG_IRQ_PEND p)).any (fun r => r.kind = .readClear) = false := by
  have hlo : ¬ Reg.PG_IRQ_PEND p < 0x40000000 := by simp only [Reg.PG_IRQ_PEND]; omega
  obtain ⟨⟨k, ty, inst⟩, hk⟩ := Option.isSome_iff_exists.mp h
  unfold regRow
  rw [if_neg hlo, pageOf_common h (by decide), hk, pageOff_irqPend]
  rfl

/-- A read of PG_IRQ_PEND shows the enabled lines and changes nothing. -/
theorem regRead_irqPend {s : State} (ag : Agent) {p : Nat} (hc : s.clocked = true) (hk : (pageKind p).isSome = true)
    (hd : s.domOn (domainOf p) = true) :
    s.regRead ag (Reg.PG_IRQ_PEND p) = s.onBus (s.rd (Reg.PG_IRQ_RAW p) &&& s.rd (Reg.PG_IRQ_EN p)).toNat := by
  have hpage : pageOf (Reg.PG_IRQ_PEND p) = p := pageOf_common hk (by decide)
  have hlow : pageOff (Reg.PG_IRQ_PEND p) < 0x800 := by rw [pageOff_irqPend]; decide
  rw [regRead_page ag hc (by rw [hpage]; exact hk) (by simp only [Reg.PG_IRQ_PEND]; omega) (by rw [hpage]; exact hd)
    (takeAddr_elsewhere (.inl hlow)) (measuredAt_elsewhere (.inl hlow) s), regRow_irqPend hk, State.regWord,
    if_pos (pageOff_irqPend p), hpage, State.irqPend, if_pos hd]
  rfl

/-! ### The obligation -/

/-- An accepted word of the SYS page. -/
theorem acceptedSys_clause {s : State} {a : Nat} (hw : ConfigWord Page.SYS a) (x : Word) :
    ((s.wr a x).cfgAccepted Page.SYS).rd a = x ∧
      ((s.wr a x).cfgAccepted Page.SYS).rdN (Reg.PG_CFG_SEQ Page.SYS) = (s.rdN (Reg.PG_CFG_SEQ Page.SYS) + 1) % 4294967296 ∧
      ((s.wr a x).cfgAccepted Page.SYS).bit (Reg.PG_STAT Page.SYS) 1 =
        decide (((s.wr a x).cfgAccepted Page.SYS).pageCrc Page.SYS ≠ ((s.wr a x).cfgAccepted Page.SYS).rd (Reg.PG_CHECK Page.SYS)) ∧
      s.Writes ((s.wr a x).cfgAccepted Page.SYS) [a, Reg.PG_CFG_SEQ Page.SYS, Reg.PG_STAT Page.SYS] := by
  obtain ⟨hseq, hmod⟩ := cfgAccepted_page (s.wr a x) Page.SYS
  have hne : Reg.PG_CFG_SEQ Page.SYS ≠ a := (hw.ne_common (o := 0x24) (by decide)).symm
  rw [rdN_of_rd (rd_wr_ne hne s x)] at hseq
  exact ⟨by rw [rd_cfgAccepted hw, rd_wr_self], hseq, hmod, (wr_writes s a x).trans (cfgAccepted_writes _ _)⟩

/-- An accepted word of the SOL page: the value in force waits for the next boundary. -/
theorem acceptedSol_clause {s : State} {a : Nat} (hw : ConfigWord Page.SOL a) (x : Word) :
    ((s.wrLate a x).cfgAccepted Page.SOL).rd a = x ∧ ((s.wrLate a x).cfgAccepted Page.SOL).eff a = s.eff a ∧
      s.SameRegs ((s.wrLate a x).cfgAccepted Page.SOL) [a, Reg.PG_CFG_SEQ Page.SOL, Reg.PG_STAT Page.SOL] := by
  have hacc := cfgAccepted_writes (s.wrLate a x) Page.SOL
  have hrd := rd_cfgAccepted hw (s.wrLate a x)
  refine ⟨hrd.trans (rd_wrLate_self s a x), ?_, (wrLate_sameRegs s a x).trans hacc.1⟩
  rw [eff_of_rd hacc.signals.late hrd, eff_wrLate_self]

/-- A refused low word of PRF_VMAX. -/
theorem refusedVmax_clause (s : State) (n : Nat) :
    ((s.setBit (Reg.PRF_STAT n) 9 true).refuseAccess (Page.PRF n)).bit (Reg.PRF_STAT n) 9 = true ∧
      ((s.setBit (Reg.PRF_STAT n) 9 true).refuseAccess (Page.PRF n)).bit (Reg.PG_STAT (Page.PRF n)) 4 = true ∧
      ((s.setBit (Reg.PRF_STAT n) 9 true).refuseAccess (Page.PRF n)).rdN (Reg.PG_ERR_CNT (Page.PRF n)) =
        min (s.rdN (Reg.PG_ERR_CNT (Page.PRF n)) + 1) 0xFFFFFFFF ∧
      s.Writes ((s.setBit (Reg.PRF_STAT n) 9 true).refuseAccess (Page.PRF n))
        [Reg.PRF_STAT n, Reg.PG_STAT (Page.PRF n), Reg.PG_ERR_CNT (Page.PRF n)] := by
  have hstat : Reg.PRF_STAT n ≠ Reg.PG_STAT (Page.PRF n) := by simp only [Reg.PRF_STAT, Reg.PG_STAT, Page.PRF]; omega
  have hcnt : Reg.PRF_STAT n ≠ Reg.PG_ERR_CNT (Page.PRF n) := by simp only [Reg.PRF_STAT, Reg.PG_ERR_CNT, Page.PRF]; omega
  obtain ⟨hbit, hn⟩ := refuseAccess_page (s.setBit (Reg.PRF_STAT n) 9 true) (Page.PRF n)
  rw [rdN_of_rd (rd_setBit_ne hcnt.symm _ _ _)] at hn
  refine ⟨?_, hbit, hn, (setBit_writes _ _ _ _).trans (refuseAccess_writes _ _)⟩
  rw [bit_of_rd (rd_refuseAccess hstat hcnt _), bit_setBit_self (by decide)]

/-- Settles O57: a write is followed to the page that judges it, and a read to the word it shows. -/
theorem registerAccess : Obligations.RegisterAccess := by
  refine ⟨?_, ?_, ?_, ?_, ?_, ?_, ?_⟩
  · intro s ag a v x h hc hlo hhi h4 hx hk
    have hw : ConfigWord Page.SYS a := configWord_of_bounds (by decide) hlo hhi h4
    refine ⟨_, congrArg Host.Outcome.next (registerWrite_accepted (.inl rfl) hw h hc hx hk), ?_⟩
    rw [putCfg_sys hw.page]
    exact acceptedSys_clause hw x
  · intro s ag a v x h hc hlo hhi h4 hx hk
    have hw : ConfigWord Page.SOL a := configWord_of_bounds (by decide) hlo hhi h4
    refine ⟨_, congrArg Host.Outcome.next (registerWrite_accepted (.inr rfl) hw h hc hx hk), ?_⟩
    rw [putCfg_sol hw.page]
    exact acceptedSol_clause hw x
  · intro s ag a v h hlo hhi h4 hno
    have hw : ConfigWord Page.SYS a := configWord_of_bounds (by decide) hlo hhi h4
    have hrd := rd_refuseAccess (hw.ne_common (o := 0xc) (by decide)) (hw.ne_common (o := 0x28) (by decide)) s
    obtain ⟨hbit, hn⟩ := refuseAccess_page s Page.SYS
    exact ⟨_, congrArg Host.Outcome.next (registerWrite_forbidden hw h hno v), hrd, hbit, hn, refuseAccess_writes s Page.SYS⟩
  · intro s ag n v h
    have heq := registerWrite_vmax h v
    refine ⟨fun hc => ?_, fun hc => ?_⟩
    · rw [hc, if_pos rfl] at heq
      exact ⟨_, congrArg Host.Outcome.next heq, held_holdLow _ _ _ _, rfl⟩
    · rw [hc, if_neg Bool.false_ne_true] at heq
      exact ⟨_, congrArg Host.Outcome.next heq, refusedVmax_clause s n.val⟩
  · intro s a v hc h
    exact ⟨_, congrArg Host.Outcome.next (registerWrite_bad hc h v), badAccess_clause hc⟩
  · intro s ag k hc hd
    refine ⟨_, congrArg Host.Outcome.next (regRead_phMax ag k hc hd), rfl, rd_wr_self s _ _, ?_, rfl⟩
    exact ((wr_writes s _ _).signals.trans (onBus_signals _ _)).1
  · intro s ag p hc hk hd
    exact ⟨_, congrArg Host.Outcome.next (regRead_irqPend ag hc hk hd), rfl, rfl⟩

end Sys2Proof.Machine
end

section
/-! SUPPORT. Loop requests, live coefficient sets and the following error (O38). -/

namespace Sys2Proof.Machine

/-! ### A condition that a loop page notes -/

/-- A condition of an axis's loop page: its LOOP_STAT bit, its counter and its event. -/
def State.loopNoted (s : State) (a bit cnt line : Nat) : State :=
  ((s.setBit (Reg.LOOP_STAT a) bit true).inc cnt).event (Page.LOOP a) line 0

theorem reqRefused_eq (s : State) (a bit : Nat) : s.reqRefused a bit = s.loopNoted a bit (Reg.LOOP_REQ_REF_CNT a) 3 := rfl

theorem followingError_eq (s : State) (a : Nat) : s.followingError a = s.loopNoted a 11 (Reg.LOOP_FE_CNT a) 0 := rfl

section
variable {a cnt : Nat} (h : Reg.LOOP_STAT a < cnt)
include h

/-- The counters of the page lie above LOOP_STAT, and PG_IRQ_RAW below it. -/
theorem loopCnt_ne_irqRaw : cnt ≠ Reg.PG_IRQ_RAW (Page.LOOP a) := by
  simp only [Reg.LOOP_STAT, Reg.PG_IRQ_RAW, Page.LOOP] at *; omega

theorem bit_loopNoted (s : State) {bit : Nat} (hb : bit < 32) (line j : Nat) :
    (s.loopNoted a bit cnt line).bit (Reg.LOOP_STAT a) j = if j = bit then true else s.bit (Reg.LOOP_STAT a) j := by
  have hirq : Reg.LOOP_STAT a ≠ Reg.PG_IRQ_RAW (Page.LOOP a) := by simp only [Reg.LOOP_STAT, Reg.PG_IRQ_RAW, Page.LOOP]; omega
  unfold State.loopNoted
  rw [bit_of_rd (rd_event hirq _ _ _), bit_of_rd (rd_inc_ne (Nat.ne_of_lt h) _), bit_setBit hb]

theorem rdN_loopNoted (s : State) (bit line : Nat) : (s.loopNoted a bit cnt line).rdN cnt = min (s.rdN cnt + 1) 0xFFFFFFFF := by
  unfold State.loopNoted
  rw [rdN_of_rd (rd_event (loopCnt_ne_irqRaw h) _ _ _), rdN_inc, rdN_of_rd (rd_setBit_ne (Nat.ne_of_gt h) _ _ _)]

theorem loopNoted_raises {s : State} (hc : s.clocked = true) (bit line : Nat) :
    s.Raises (s.loopNoted a bit cnt line) [Reg.LOOP_STAT a, cnt, Reg.PG_IRQ_RAW (Page.LOOP a)] [⟨Page.LOOP a, line, false, 0, s.now⟩] := by
  have hlow : ∀ r, r < Reg.LOOP_STAT a → r ∉ [Reg.LOOP_STAT a] ++ [cnt] := by simp; omega
  exact ((setBit_writes _ _ _ _).trans (inc_writes _ _)).event hc (hlow _ (by simp only [Reg.LOOP_STAT, Reg.QTZ_TIME_NS]; omega))
    (hlow _ (by simp only [Reg.LOOP_STAT, Reg.QTZ_TIME_NS]; omega)) _ _ _

end

theorem loopNoted_signals (s : State) (a bit cnt line : Nat) :
    s.Signals (s.loopNoted a bit cnt line) [Reg.LOOP_STAT a, cnt, Reg.PG_IRQ_RAW (Page.LOOP a)] :=
  ((setBit_writes _ _ _ _).trans (inc_writes _ _)).signals.trans (event_signals _ _ _ _)

theorem loopStat_lt_reqRef (a : Nat) : Reg.LOOP_STAT a < Reg.LOOP_REQ_REF_CNT a := by simp only [Reg.LOOP_STAT, Reg.LOOP_REQ_REF_CNT]; omega
theorem loopStat_lt_coefRef (a : Nat) : Reg.LOOP_STAT a < Reg.LOOP_COEF_REF_CNT a := by simp only [Reg.LOOP_STAT, Reg.LOOP_COEF_REF_CNT]; omega
theorem loopStat_lt_fe (a : Nat) : Reg.LOOP_STAT a < Reg.LOOP_FE_CNT a := by simp only [Reg.LOOP_STAT, Reg.LOOP_FE_CNT]; omega

/-! ### One loop's bits of LOOP_CTRL -/

theorem loopReq_none (s : State) (a i : Nat) : s.loopReq a i false false = s := by simp [State.loopReq]

theorem loopReq_open {s : State} {a i : Nat} (ho : s.loopOpen a i = false) (hp : s.loopPend a i = false)
    (hs : i = 0 → s.axisSto a = true) : s.loopReq a i true false = s.setBit (Reg.LOOP_STAT a) (4 + i) true := by
  have hsto : (decide (i = 0) && !s.axisSto a) = false := by
    by_cases h0 : i = 0
    · simp [hs h0]
    · simp [h0]
  simp [State.loopReq, ho, hp, hsto]

theorem loopReq_close {s : State} {a i : Nat} (ho : s.loopOpen a i = true) (hp : s.loopPend a i = false)
    (hk : s.closeOk a i = true) : s.loopReq a i false true = s.setBit (Reg.LOOP_STAT a) (4 + i) true := by
  simp [State.loopReq, ho, hp, hk]

/-- Both requests for one loop are refused, each with its count. -/
theorem loopReq_both {s : State} {a i : Nat} (hp : s.loopPend a i = false) :
    s.loopReq a i true true = (s.reqRefused a 14).reqRefused a 14 := by
  simp [State.loopReq, hp]

/-! ### Requests that are all permitted -/

/-- The loops below `n` that `r` names become pending. -/
def State.pendLoops (s : State) (a : Nat) (r : BitVec 4) (n : Nat) : State :=
  forUpTo (fun i t => if r.getLsbD i then t.setBit (Reg.LOOP_STAT a) (4 + i) true else t) n s

theorem pendLoops_succ (s : State) (a : Nat) (r : BitVec 4) (n : Nat) : s.pendLoops a r (n + 1) =
    if r.getLsbD n then (s.pendLoops a r n).setBit (Reg.LOOP_STAT a) (4 + n) true else s.pendLoops a r n := rfl

theorem pendLoops_writes (s : State) (a : Nat) (r : BitVec 4) (n : Nat) : s.Writes (s.pendLoops a r n) [Reg.LOOP_STAT a] := by
  induction n with
  | zero => exact (State.Writes.refl s).mono (by simp)
  | succ n ih =>
    rw [pendLoops_succ]
    split
    · exact (ih.trans (setBit_writes _ _ _ _)).mono (by simp)
    · exact ih

/-- Only PEND bits of the loops below `n` change. -/
theorem bit_pendLoops (s : State) (a : Nat) (r : BitVec 4) (j : Nat) : ∀ n ≤ 4, (s.pendLoops a r n).bit (Reg.LOOP_STAT a) j =
    (s.bit (Reg.LOOP_STAT a) j || decide (4 ≤ j ∧ j < 4 + n) && r.getLsbD (j - 4)) := by
  intro n
  induction n with
  | zero => intro _; simp [State.pendLoops, forUpTo]
  | succ n ih =>
    intro hn
    have ih := ih (by omega)
    rw [pendLoops_succ]
    by_cases hj : j = 4 + n
    · subst hj
      have hold : (s.pendLoops a r n).bit (Reg.LOOP_STAT a) (4 + n) = s.bit (Reg.LOOP_STAT a) (4 + n) := by simpa using ih
      cases hr : r.getLsbD n
      · simp [hold, hr]
      · simp [bit_setBit_self (show 4 + n < 32 by omega), hr]
    · have hbit : ∀ t : State, (t.setBit (Reg.LOOP_STAT a) (4 + n) true).bit (Reg.LOOP_STAT a) j = t.bit (Reg.LOOP_STAT a) j := fun t => by
        rw [bit_setBit (by omega), if_neg hj]
      have hlt : (4 ≤ j ∧ j < 4 + (n + 1)) ↔ (4 ≤ j ∧ j < 4 + n) := by omega
      rw [apply_ite (fun t : State => t.bit (Reg.LOOP_STAT a) j), hbit, ite_self, ih]
      simp only [hlt]

theorem loopOpen_pendLoops (s : State) (a : Nat) (r : BitVec 4) {n i : Nat} (hn : n ≤ 4) (hi : i < 4) :
    (s.pendLoops a r n).loopOpen a i = s.loopOpen a i := by
  simp [State.loopOpen, bit_pendLoops s a r i n hn, Nat.not_le.mpr hi]

theorem loopPend_pendLoops (s : State) (a : Nat) (r : BitVec 4) {n : Nat} (hn : n ≤ 4) (i : Nat) :
    (s.pendLoops a r n).loopPend a i = (s.loopPend a i || decide (i < n) && r.getLsbD i) := by
  simp [State.loopPend, bit_pendLoops s a r (4 + i) n hn]

/-- A loop's own bits are not touched by the requests of the loops before it. -/
theorem pendLoops_own (s : State) (a : Nat) (r : BitVec 4) {i : Nat} (hi : i < 4) :
    (s.pendLoops a r i).loopOpen a i = s.loopOpen a i ∧ (s.pendLoops a r i).loopPend a i = s.loopPend a i :=
  ⟨loopOpen_pendLoops s a r (Nat.le_of_lt hi) hi, by simp [loopPend_pendLoops s a r (Nat.le_of_lt hi)]⟩

/-- Steps that each make their own loop pending, where `r` asks for it, make all of them pending. -/
theorem forUpTo_eq_pendLoops {f : Nat → State → State} {s : State} {a : Nat} {r : BitVec 4}
    (hno : ∀ i t, r.getLsbD i = false → f i t = t)
    (hyes : ∀ i < 4, r.getLsbD i = true → f i (s.pendLoops a r i) = (s.pendLoops a r i).setBit (Reg.LOOP_STAT a) (4 + i) true) :
    ∀ n ≤ 4, forUpTo f n s = s.pendLoops a r n := by
  intro n
  induction n with
  | zero => exact fun _ => rfl
  | succ n ih =>
    intro hn
    rw [forUpTo, ih (by omega), pendLoops_succ]
    cases hr : r.getLsbD n
    · exact hno n _ hr
    · exact hyes n (by omega) hr

/-- A live set is read from registers that no request writes. -/
theorem coef_of_writes {s t : State} {a : Nat} (h : s.Writes t [Reg.LOOP_STAT a]) (j : Nat) : t.coef a j = s.coef a j := by
  have habove : ∀ r, 0x40200804 + 0x1000 * a < r → t.rd r = s.rd r := fun r hr =>
    h.1 r (by simp only [List.mem_singleton, Reg.LOOP_STAT]; omega)
  simp (disch := omega) only [State.coef, State.rdI, State.rdI64, State.rd64, State.rdN, Reg.LOOP_LIVE_KP, Reg.LOOP_LIVE_KI, Reg.LOOP_LIVE_KD,
    Reg.LOOP_LIVE_AF, Reg.LOOP_LIVE_SHIFTS, Reg.LOOP_LIVE_KFF, Reg.LOOP_LIVE_IMIN, Reg.LOOP_LIVE_IMAX, habove]

theorem closeOk_of_writes {s t : State} {a : Nat} (h : s.Writes t [Reg.LOOP_STAT a]) (i : Nat) : t.closeOk a i = s.closeOk a i := by
  have hcfg : t.rd (Reg.LOOP_CFG a) = s.rd (Reg.LOOP_CFG a) := h.1 _ (by simp only [List.mem_singleton, Reg.LOOP_CFG, Reg.LOOP_STAT]; omega)
  simp only [State.closeOk, coef_of_writes h, fld_of_rd hcfg]

theorem loopCtrl_open {s : State} {a : Nat} {op : BitVec 4}
    (h : ∀ i, op.getLsbD i = true → s.loopOpen a i = false ∧ s.loopPend a i = false ∧ (i = 0 → s.axisSto a = true)) :
    s.loopCtrl a op 0 = s.pendLoops a op 4 := by
  have h0 : ∀ i, (0 : BitVec 4).getLsbD i = false := fun _ => BitVec.getLsbD_zero
  refine forUpTo_eq_pendLoops (fun i t hr => ?_) (fun i hi hr => ?_) 4 (Nat.le_refl 4)
  · rw [hr, h0, loopReq_none]
  · obtain ⟨ho, hp, hs⟩ := h i hr
    obtain ⟨hopen, hpend⟩ := pendLoops_own s a op hi
    rw [hr, h0]
    exact loopReq_open (hopen.trans ho) (hpend.trans hp) (by rintro rfl; exact hs rfl)

theorem loopCtrl_close {s : State} {a : Nat} {cl : BitVec 4}
    (h : ∀ i, cl.getLsbD i = true → s.loopOpen a i = true ∧ s.loopPend a i = false ∧ s.closeOk a i = true) :
    s.loopCtrl a 0 cl = s.pendLoops a cl 4 := by
  have h0 : ∀ i, (0 : BitVec 4).getLsbD i = false := fun _ => BitVec.getLsbD_zero
  refine forUpTo_eq_pendLoops (fun i t hr => ?_) (fun i hi hr => ?_) 4 (Nat.le_refl 4)
  · rw [hr, h0, loopReq_none]
  · obtain ⟨ho, hp, hk⟩ := h i hr
    obtain ⟨hopen, hpend⟩ := pendLoops_own s a cl hi
    rw [hr, h0]
    exact loopReq_close (hopen.trans ho) (hpend.trans hp) ((closeOk_of_writes (pendLoops_writes s a cl i) i).trans hk)

/-- What pending requests of all four loops show. -/
theorem pendLoops_clause (s : State) (a : Nat) (r : BitVec 4) :
    (∀ i, i < 4 → (s.pendLoops a r 4).loopPend a i = (s.loopPend a i || r.getLsbD i) ∧
      (s.pendLoops a r 4).loopOpen a i = s.loopOpen a i) ∧ s.Writes (s.pendLoops a r 4) [Reg.LOOP_STAT a] := by
  refine ⟨fun i hi => ⟨?_, loopOpen_pendLoops s a r (Nat.le_refl 4) hi⟩, pendLoops_writes s a r 4⟩
  simp [loopPend_pendLoops s a r (Nat.le_refl 4), hi]

/-! ### Both requests for one loop -/

/-- Of steps of which one alone does anything, that one is done. -/
theorem forUpTo_single {f : Nat → State → State} {k : Nat} (hf : ∀ i t, i ≠ k → f i t = t) (s : State) :
    ∀ n, k < n → forUpTo f n s = f k s := by
  have hbefore : ∀ n ≤ k, forUpTo f n s = s := by
    intro n
    induction n with
    | zero => exact fun _ => rfl
    | succ n ih => exact fun hn => (congrArg (f n) (ih (by omega))).trans (hf n s (by omega))
  intro n hn
  induction n, hn using Nat.le_induction with
  | base => exact congrArg (f k) (hbefore k (Nat.le_refl k))
  | succ n hn ih => exact (congrArg (f n) ih).trans (hf n _ (by omega))

theorem getLsbD_one_shift (i : Fin 4) (k : Nat) : (1#4 <<< i.val).getLsbD k = decide (k = i.val) := by
  have h : (BitVec.twoPow 4 i.val).getLsbD k = (decide (i.val < 4) && decide (i.val = k)) := BitVec.getLsbD_twoPow i.val k
  simpa [BitVec.twoPow, eq_comm] using h

theorem loopCtrl_both {s : State} {a : Nat} {i : Fin 4} (hp : s.loopPend a i.val = false) :
    s.loopCtrl a (1#4 <<< i.val) (1#4 <<< i.val) = (s.reqRefused a 14).reqRefused a 14 := by
  unfold State.loopCtrl
  simp only [getLsbD_one_shift]
  rw [forUpTo_single (k := i.val) (fun k t hk => by rw [decide_eq_false hk, loopReq_none]) s 4 i.isLt, decide_eq_true rfl, loopReq_both hp]

theorem bothRefused_clause (s : State) (a i : Nat) (hi : i < 4) (hp : s.loopPend a i = false) (t : State)
    (ht : t = (s.reqRefused a 14).reqRefused a 14) :
    t.bit (Reg.LOOP_STAT a) 14 = true ∧ t.loopPend a i = false ∧
      t.rdN (Reg.LOOP_REQ_REF_CNT a) = min (s.rdN (Reg.LOOP_REQ_REF_CNT a) + 2) 0xFFFFFFFF ∧
      s.SameRegs t [Reg.LOOP_STAT a, Reg.LOOP_REQ_REF_CNT a, Reg.PG_IRQ_RAW (Page.LOOP a)] ∧ s.SameMemory t := by
  rw [ht, reqRefused_eq, reqRefused_eq]
  have hlt := loopStat_lt_reqRef a
  have hsig : s.Signals ((s.loopNoted a 14 (Reg.LOOP_REQ_REF_CNT a) 3).loopNoted a 14 (Reg.LOOP_REQ_REF_CNT a) 3)
      [Reg.LOOP_STAT a, Reg.LOOP_REQ_REF_CNT a, Reg.PG_IRQ_RAW (Page.LOOP a)] :=
    ((loopNoted_signals s a 14 _ 3).trans (loopNoted_signals _ a 14 _ 3)).mono (by simp)
  refine ⟨?_, ?_, ?_, hsig.1, hsig.memory⟩
  · rw [bit_loopNoted hlt _ (by decide), if_pos rfl]
  · rw [← hp]
    simp only [State.loopPend, bit_loopNoted hlt _ (show 14 < 32 by decide), if_neg (show 4 + i ≠ 14 by omega)]
  · simp only [rdN_loopNoted hlt]
    omega

/-! ### Live coefficient sets -/

section
variable {s : State} {a j : Nat} (ho : s.loopOpen a (setLoop j) = true) (hp : s.loopPend a (setLoop j) = false)
include ho hp

/-- KP, KI, KD, AF and KFF take the whole word. -/
theorem coefWrite_word {w : Nat} (hw : w < 4 ∨ w = 5) (v : Word) : s.coefWrite a j w v = s.wr (Reg.LOOP_LIVE_KP a j + 4 * w) v := by
  have hcases : w = 0 ∨ w = 1 ∨ w = 2 ∨ w = 3 ∨ w = 5 := by omega
  rcases hcases with rfl | rfl | rfl | rfl | rfl <;> simp [State.coefWrite, ho, hp]

/-- The word of the shifts takes its defined bits. -/
theorem coefWrite_shifts (v : Word) : s.coefWrite a j 4 v = s.wr (Reg.LOOP_LIVE_SHIFTS a j) (v &&& 0x17F7F) := by
  have hreg : Reg.LOOP_LIVE_KP a j + 4 * 4 = Reg.LOOP_LIVE_SHIFTS a j := by simp only [Reg.LOOP_LIVE_KP, Reg.LOOP_LIVE_SHIFTS]; omega
  simp only [State.coefWrite, ho, hp, Bool.not_false, Bool.and_self, if_true, hreg]

/-- A low word of IMIN or IMAX is held. -/
theorem coefWrite_low {w : Nat} (hw : w = 6 ∨ w = 8) (v : Word) : s.coefWrite a j w v = s.holdLow (Reg.LOOP_LIVE_KP a j + 4 * w) v := by
  rcases hw with rfl | rfl <;> simp [State.coefWrite, ho, hp]

/-- A high word of IMIN or IMAX takes effect with its low word. -/
theorem coefWrite_high {w : Nat} (hw : w = 7 ∨ w = 9) (v : Word) : s.coefWrite a j w v = s.commitHigh (Reg.LOOP_LIVE_KP a j + 4 * w) v := by
  rcases hw with rfl | rfl <;> simp [State.coefWrite, ho, hp]

end

/-- Both words of a 64-bit register take their new values, the low one what was held for it. -/
theorem commitHigh_clause (s : State) {a : Nat} (h : 4 ≤ a) (v : Word) :
    (s.commitHigh a v).rd a = v ∧ (s.commitHigh a v).rd (a - 4) = Tab.get (fun k => s.rd k) s.held64 (a - 4) ∧
      s.SameRegs (s.commitHigh a v) [a, a - 4] ∧ s.SameMemory (s.commitHigh a v) := by
  refine ⟨rd_wr_self _ _ _, ?_, fun b hb => ?_, rfl, rfl, rfl, rfl, rfl⟩
  · exact (rd_wr_ne (by omega) _ _).trans (rd_wr_self _ _ _)
  · simp only [List.mem_cons, List.not_mem_nil, or_false, not_or] at hb
    exact (rd_wr_ne hb.1 _ _).trans (rd_wr_ne hb.2 _ _)

/-- A closed loop, or one with a request pending, takes no write: the page notes it, and the access is refused. -/
theorem coefWrite_refused {s : State} {a j : Nat} (h : s.loopOpen a (setLoop j) = false ∨ s.loopPend a (setLoop j) = true) (w : Nat) (v : Word) :
    s.coefWrite a j w v = (s.loopNoted a 12 (Reg.LOOP_COEF_REF_CNT a) 2).refuseAccess (Page.LOOP a) := by
  have hno : (s.loopOpen a (setLoop j) && !s.loopPend a (setLoop j)) = false := by
    rcases h with h | h <;> simp [h]
  unfold State.coefWrite
  rw [if_neg (by simp [hno])]
  rfl

theorem coefRefused_clause {s : State} (hc : s.clocked = true) (a j : Nat) {w : Nat} (hj : j < 5) (hw : w < 10) (t : State)
    (ht : t = (s.loopNoted a 12 (Reg.LOOP_COEF_REF_CNT a) 2).refuseAccess (Page.LOOP a)) :
    t.rd (Reg.LOOP_LIVE_KP a j + 4 * w) = s.rd (Reg.LOOP_LIVE_KP a j + 4 * w) ∧
      t.bit (Reg.LOOP_STAT a) 12 = true ∧ t.bit (Reg.PG_IRQ_RAW (Page.LOOP a)) 2 = true ∧
      t.rdN (Reg.LOOP_COEF_REF_CNT a) = min (s.rdN (Reg.LOOP_COEF_REF_CNT a) + 1) 0xFFFFFFFF ∧
      s.Raises t [Reg.LOOP_STAT a, Reg.LOOP_COEF_REF_CNT a, Reg.PG_IRQ_RAW (Page.LOOP a), Reg.PG_STAT (Page.LOOP a),
        Reg.PG_ERR_CNT (Page.LOOP a)] [⟨Page.LOOP a, 2, false, 0, s.now⟩] := by
  subst ht
  have hlt := loopStat_lt_coefRef a
  have hraises := (loopNoted_raises hlt hc 12 2).trans (refuseAccess_writes _ (Page.LOOP a)).raises
  have hstat : Reg.LOOP_STAT a ≠ Reg.PG_STAT (Page.LOOP a) ∧ Reg.LOOP_STAT a ≠ Reg.PG_ERR_CNT (Page.LOOP a) := by
    simp only [Reg.LOOP_STAT, Reg.PG_STAT, Reg.PG_ERR_CNT, Page.LOOP]; omega
  have hcnt : Reg.LOOP_COEF_REF_CNT a ≠ Reg.PG_STAT (Page.LOOP a) ∧ Reg.LOOP_COEF_REF_CNT a ≠ Reg.PG_ERR_CNT (Page.LOOP a) := by
    simp only [Reg.LOOP_COEF_REF_CNT, Reg.PG_STAT, Reg.PG_ERR_CNT, Page.LOOP]; omega
  have hirq : Reg.PG_IRQ_RAW (Page.LOOP a) ≠ Reg.PG_STAT (Page.LOOP a) ∧ Reg.PG_IRQ_RAW (Page.LOOP a) ≠ Reg.PG_ERR_CNT (Page.LOOP a) := by
    simp only [Reg.PG_IRQ_RAW, Reg.PG_STAT, Reg.PG_ERR_CNT]; omega
  refine ⟨hraises.1 _ ?_, ?_, ?_, ?_, hraises⟩
  · simp only [List.cons_append, List.nil_append, List.mem_cons, List.not_mem_nil, or_false, Reg.LOOP_LIVE_KP, Reg.LOOP_STAT,
      Reg.LOOP_COEF_REF_CNT, Reg.PG_IRQ_RAW, Reg.PG_STAT, Reg.PG_ERR_CNT, Page.LOOP]
    omega
  · rw [bit_of_rd (rd_refuseAccess hstat.1 hstat.2 _), bit_loopNoted hlt _ (by decide), if_pos rfl]
  · rw [bit_of_rd (rd_refuseAccess hirq.1 hirq.2 _)]
    exact bit_event (by decide) _ _ _
  · rw [rdN_of_rd (rd_refuseAccess hcnt.1 hcnt.2 _), rdN_loopNoted hlt]

/-! ### The following error -/

theorem followingErrorCmd_sets {s : State} {a : Nat} (ht : s.ticking = true) (he : s.axisEn a = true)
    (hfe : s.bit (Reg.LOOP_STAT a) 11 = false) (hsto : s.axisSto a = false) (hhome : s.hardStopHoming a = false)
    (hmax : s.rdI64 (Reg.LOOP_FE_MAX a) < mag (s.rdI64 (Reg.LOOP_FERR a)))
    (hrun : s.fld (Reg.LOOP_FE_N a) 7 0 ≤ (s.loopCopy a s.parity).fe) : s.followingErrorCmd a = s.loopNoted a 11 (Reg.LOOP_FE_CNT a) 0 := by
  unfold State.followingErrorCmd
  rw [if_pos (by simp [ht, he, hfe, hsto, hhome, hmax, hrun])]
  rfl

/-- Settles O38: permitted requests are pending until the cut, both for one loop are refused, a live set takes a write by the state of its
loop, and the following error is noted. -/
theorem loopCommands : Obligations.LoopCommands := by
  refine ⟨?_, ?_, ?_, ?_, ?_, ?_⟩
  · intro s ag a op hw h
    refine completes_write hw rfl ?_
    rw [loopCtrl_open h]
    exact pendLoops_clause s a.val op
  · intro s ag a cl hw h
    refine completes_write hw rfl ?_
    rw [loopCtrl_close h]
    exact pendLoops_clause s a.val cl
  · intro s ag a i hw hp
    exact completes_write hw rfl (bothRefused_clause s a.val i.val i.isLt hp _ (loopCtrl_both hp))
  · intro s ag a j w v hw ho hp
    refine ⟨fun h => completes_write hw rfl ?_, fun h => completes_write hw rfl ?_, fun h => completes_write hw rfl ?_,
      fun h => completes_write hw rfl ?_⟩
    · rw [coefWrite_word ho hp h]
      exact ⟨rd_wr_self _ _ _, wr_writes _ _ _⟩
    · rw [h, coefWrite_shifts ho hp]
      exact ⟨rd_wr_self _ _ _, wr_writes _ _ _⟩
    · rw [coefWrite_low ho hp h]
      exact ⟨held_holdLow _ _ _ _, rfl⟩
    · rw [coefWrite_high ho hp h]
      exact commitHigh_clause s (by simp only [Reg.LOOP_LIVE_KP]; omega) v
  · intro s ag a j w v hw h
    exact completes_write hw rfl (coefRefused_clause (writable_clocked hw) a.val j.val j.isLt w.isLt _ (coefWrite_refused h _ v))
  · intro s a ht he hfe hsto hhome hmax hrun
    have hlt := loopStat_lt_fe a.val
    refine ⟨_, congrArg Host.Outcome.next (followingErrorCmd_sets ht he hfe hsto hhome hmax hrun), ?_, rdN_loopNoted hlt s 11 0,
      loopNoted_raises hlt (ticking_clocked ht) 11 0⟩
    rw [bit_loopNoted hlt s (by decide), if_pos rfl]

end Sys2Proof.Machine
end

section
/-! SUPPORT. The solver's page: the condition of rule R160 and a write that would break it (O60). -/

namespace Sys2Proof.Machine

/-! ### A condition that a write breaks, rule R466 -/

/-- A condition that held and no longer holds is not kept. -/
theorem keeps_broken {s t : State} {p i : Nat} (hs : (s.conds p)[i]? = some true) (ht : (t.conds p)[i]? = some false) :
    keeps s t p = false := by
  have hz : ((s.conds p).zip (t.conds p))[i]? = some (true, false) := by rw [List.getElem?_zip_eq_some]; exact ⟨hs, ht⟩
  exact List.all_eq_false.mpr ⟨_, List.mem_of_getElem? hz, by decide⟩

/-- A word that breaks a condition is refused, whatever the state, and marks its page. -/
theorem cfgWords_broken {s : State} {ag : Agent} {p a : Nat} {x : Word} (hw : ConfigWord p a) (h : s.cfgWritable ag p = true)
    (hk : keeps s (s.wr a x) p = false) : s.cfgWords ag a [(a, x)] = (s.cfgRefused p).refuseAccess p := by
  unfold State.cfgWords
  simp only [hw.page]
  unfold State.cfgWrite
  rw [swWrite_writable (cfgWritable_writable h), if_neg (by simp [cfgWritable_unlocked h]), if_neg]
  simp only [forEach, hk, Bool.and_false, Bool.false_eq_true, not_false_eq_true]

/-- The whole path of such a write. -/
theorem registerWrite_broken {s : State} {ag : Agent} {p a : Nat} {v : BitVec 64} {x : Word} (hp : shownPage p) (hw : ConfigWord p a)
    (h : s.cfgWritable ag p = true) (hx : s.merged a (v.extractLsb' 0 32) = some x) (hk : keeps s (s.wr a x) p = false) :
    s.registerWrite ag a false v = (s.cfgRefused p).refuseAccess p := by
  rw [registerWrite_config (cfgWritable_writable h) hw, cfgWord_shown hp hw, State.wordOf, hx]
  exact cfgWords_broken hw h hk

/-! ### The solver's formats, rule R160 -/

/-- F_Z is the fifth condition of the page. -/
theorem conds_fracZ (s : State) : (s.conds Page.SOL)[4]? = some (decide (8 ≤ s.fracSet oZ)) := rfl

/-- F_X has five bits. -/
theorem fracSet_le (s : State) (obj : Nat) : s.fracSet obj ≤ 31 := by
  have hlt := bitsOf_lt (s.rdN (Reg.SOL_QF (obj / 4))) (8 * (obj % 4) + 4) (8 * (obj % 4))
  rw [show 8 * (obj % 4) + 4 + 1 - 8 * (obj % 4) = 5 by omega] at hlt
  exact Nat.le_of_lt_succ hlt

theorem checkFails_of_fracZ {s : State} (h : s.fracSet oZ < 8) : (s.conds Page.SOL).all id = false := by
  have hc := conds_fracZ s
  rw [decide_eq_false (Nat.not_le.mpr h)] at hc
  exact List.all_eq_false.mpr ⟨_, List.mem_of_getElem? hc, by decide⟩

theorem keeps_fracZ_below {s t : State} (hs : 8 ≤ s.fracSet oZ) (ht : t.fracSet oZ < 8) : keeps s t Page.SOL = false :=
  keeps_broken (i := 4) (by rw [conds_fracZ, decide_eq_true hs]) (by rw [conds_fracZ, decide_eq_false (Nat.not_le.mpr ht)])

/-- The register that holds F_Z. -/
theorem fracZ_configWord : ConfigWord Page.SOL (Reg.SOL_QF (oZ / 4)) :=
  configWord_of_bounds (by decide) (by decide) (by decide) (by decide)

/-! ### A refused word of the page, rules R174 and R466 -/

theorem cfgRefused_sol (s : State) : s.cfgRefused Page.SOL = (s.setBit Reg.SOL_STAT 7 true).event Page.SOL 4 0 := rfl

theorem rd_cfgRefused_sol {a : Nat} (hs : a ≠ Reg.SOL_STAT) (hi : a ≠ Reg.PG_IRQ_RAW Page.SOL) (s : State) :
    (s.cfgRefused Page.SOL).rd a = s.rd a := by
  rw [cfgRefused_sol, rd_event hi, rd_setBit_ne hs]

/-- What the page shows of it, and that no other word changes. -/
theorem refusedSol_clause {s : State} (hc : s.clocked = true) :
    ((s.cfgRefused Page.SOL).refuseAccess Page.SOL).fracSet oZ = s.fracSet oZ ∧
      ((s.cfgRefused Page.SOL).refuseAccess Page.SOL).bit Reg.SOL_STAT 7 = true ∧
      ((s.cfgRefused Page.SOL).refuseAccess Page.SOL).bit (Reg.PG_STAT Page.SOL) 4 = true ∧
      s.Raises ((s.cfgRefused Page.SOL).refuseAccess Page.SOL)
        [Reg.SOL_STAT, Reg.PG_STAT Page.SOL, Reg.PG_ERR_CNT Page.SOL, Reg.PG_IRQ_RAW Page.SOL] [⟨Page.SOL, 4, false, 0, s.now⟩] := by
  refine ⟨?_, ?_, (refuseAccess_page _ _).1, ?_⟩
  · exact fld_of_rd ((rd_refuseAccess (by decide) (by decide) _).trans (rd_cfgRefused_sol (by decide) (by decide) s)) _ _
  · rw [bit_of_rd (rd_refuseAccess (by decide) (by decide) _), cfgRefused_sol, bit_of_rd (rd_event (by decide) _ _ _),
      bit_setBit_self (by decide)]
  · have hev := (setBit_writes s Reg.SOL_STAT 7 true).event hc (by decide) (by decide) Page.SOL 4 0
    exact (hev.trans (refuseAccess_writes _ _).raises).mono (by decide)

/-- Settles O60: F_Z ≥ 8 is one of the page's conditions, an F has five bits, and a write that breaks a condition is refused. -/
theorem solverFormats : Obligations.SolverFormats := by
  refine ⟨fun _ => checkFails_of_fracZ, fracSet_le, ?_⟩
  intro s ag v x hw hs hx ht
  exact ⟨_, congrArg Host.Outcome.next (registerWrite_broken (.inr rfl) fracZ_configWord hw hx (keeps_fracZ_below hs ht)),
    refusedSol_clause (writable_clocked (cfgWritable_writable hw))⟩

end Sys2Proof.Machine
end

section
/-! SUPPORT. The solver's second failure, and the stop demands of separation monitoring that commands set and clear (O39). -/

namespace Sys2Proof.Machine

theorem State.Signals.ssm {s t : State} {l : List Nat} (h : s.Signals t l) : t.ssm = s.ssm := by rw [h.2]
theorem State.Triggers.ssm {s t : State} {l : List Nat} (h : s.Triggers t l) : t.ssm = s.ssm := by rw [h.2]
theorem State.Triggers.memory {s t : State} {l : List Nat} (h : s.Triggers t l) : s.SameMemory t := by
  rw [h.2]; exact ⟨rfl, rfl, rfl, rfl, rfl⟩

/-! ### The solver's second failure, rule R169 -/

theorem secondFailure_running {s : State} (hr : s.running = true) (hf : 2 ≤ s.fld Reg.SOL_STAT 23 16) :
    s.solverSecondFailure = s.stopCause .solver := by simp [State.solverSecondFailure, hr, hf]

theorem secondFailure_notRunning {s : State} (hr : s.running = false) : s.solverSecondFailure = s := by
  simp [State.solverSecondFailure, hr]

/-! ### A store to cell memory leaves the registers and the separation unit -/

/-- Cell memory's content does not show in a register. -/
theorem rd_withCell (s : State) (m : Memory) (a : Nat) : ({ s with cell := m } : State).rd a = s.rd a := rfl

theorem controlPathError_ssm (s : State) (scrub : Bool) : (s.controlPathError scrub).ssm = s.ssm := by
  unfold State.controlPathError
  split
  · exact (alarm_signals _ _ _ _).ssm
  · dsimp only
    split
    · rw [(stopCause_triggers _ _).ssm, (event_signals _ _ _ _).ssm, State.setBit_ssm]
    · rw [(alarm_signals _ _ _ _).ssm, State.setBit_ssm]

theorem ueFound_ssm (s : State) (mem a : Nat) (scrub : Bool) : (s.ueFound mem a scrub).ssm = s.ssm := by
  unfold State.ueFound
  extract_lets w ue ecc s0 s1 s2
  have h1 : s1.ssm = s.ssm := by
    unfold s1
    split
    · rw [(event_signals _ _ _ _).ssm, State.setBit_ssm, State.inc_ssm]
    · rfl
  have h2 : s2.ssm = s.ssm := by
    unfold s2
    rw [(detLapse_signals _).ssm, (event_signals _ _ _ _).ssm, State.setBit_ssm, State.wr64_ssm, h1]
  split
  · rw [controlPathError_ssm, h2]
  · exact h2

theorem setCell_ssm (s : State) (a n v : Nat) : (s.setCell a n v).ssm = s.ssm := by
  unfold State.setCell
  split
  · rfl
  · split
    · exact (ueFound_ssm _ _ _ _).trans rfl
    · unfold State.ueReplaced
      split <;> rfl

/-! ### A demand as decided, and as the page shows it -/

/-- Nothing differs but what the separation unit keeps beside its registers. -/
def State.OnlySsm (s t : State) : Prop := t = { s with ssm := t.ssm }

theorem State.OnlySsm.alters {s t : State} (h : s.OnlySsm t) : s.Alters t [] := by rw [h]; exact ⟨fun _ _ => rfl, rfl⟩

theorem State.OnlySsm.memory {s t : State} (h : s.OnlySsm t) : s.SameMemory t := by rw [h]; exact ⟨rfl, rfl, rfl, rfl, rfl⟩

/-- The demand of a group and the causes it was decided from. -/
def State.decided (s : State) (g : Nat) (d : Bool) : State :=
  { s with ssm := { s.ssm with
      dem := withBits s.ssm.dem g g (b2n d)
      missDem := withBits s.ssm.missDem (9 * g + 8) (9 * g) (s.missCauses g) } }

/-- STOP_DEM of the group's status and of the unit's. -/
def State.showDemand (s : State) (g : Nat) (d : Bool) : State :=
  (s.setBit (Reg.SSM_GRP_STAT g) 16 d).setBit Reg.SSM_STAT 3 (decide (s.ssm.dem ≠ 0))

theorem decided_onlySsm (s : State) (g : Nat) (d : Bool) : s.OnlySsm (s.decided g d) := rfl

theorem setDemand_eq (s : State) (g : Nat) (d : Bool) : s.setDemand g d =
    if d && !s.ssm.dem.testBit g then ((s.decided g d).inc Reg.SSM_STOP_CNT).event Page.SSM 0 0 else s.decided g d := rfl

/-- A demand that is not set neither counts nor raises an event. -/
theorem setDemand_false (s : State) (g : Nat) : s.setDemand g false = s.decided g false := rfl

theorem setDemand_signals (s : State) (g : Nat) (d : Bool) :
    (s.decided g d).Signals (s.setDemand g d) [Reg.SSM_STOP_CNT, Reg.PG_IRQ_RAW Page.SSM] := by
  rw [setDemand_eq]
  split
  · exact (inc_writes _ _).signals.trans (event_signals _ _ _ _)
  · exact (State.Writes.refl _).signals.mono (by simp)

/-- A newly set demand counts. -/
theorem rdN_setDemand_true (s : State) (g : Nat) : (s.setDemand g true).rdN Reg.SSM_STOP_CNT =
    min (s.rdN Reg.SSM_STOP_CNT + b2n (!s.ssm.dem.testBit g)) 0xFFFFFFFF := by
  rw [setDemand_eq]
  cases s.ssm.dem.testBit g
  · rw [if_pos (by decide), rdN_of_rd (rd_event (by decide) _ _ _), rdN_inc]
    rfl
  · have hlt := rdN_lt s Reg.SSM_STOP_CNT
    rw [if_neg (by decide), show (s.decided g true).rdN Reg.SSM_STOP_CNT = s.rdN Reg.SSM_STOP_CNT from rfl]
    simp only [b2n, Bool.not_true, Bool.false_eq_true, if_false]
    omega

theorem testBit_decided (s : State) (g k : Nat) (d : Bool) :
    (s.decided g d).ssm.dem.testBit k = if k = g then d else s.ssm.dem.testBit k := by
  show (withBits s.ssm.dem g g (b2n d)).testBit k = _
  rw [testBit_withBits (Nat.le_refl g)]
  by_cases h : k = g
  · subst h
    cases d <;> simp [b2n]
  · rw [if_neg (by omega), if_neg h]

theorem ssm_setDemand (s : State) (g : Nat) (d : Bool) : (s.setDemand g d).ssm = (s.decided g d).ssm := (setDemand_signals s g d).ssm

theorem showDemand_writes (s : State) (g : Nat) (d : Bool) : s.Writes (s.showDemand g d) [Reg.SSM_GRP_STAT g, Reg.SSM_STAT] :=
  (setBit_writes _ _ _ _).trans (setBit_writes _ _ _ _)

theorem grpStat_ne_stat (g : Nat) : Reg.SSM_GRP_STAT g ≠ Reg.SSM_STAT := by simp only [Reg.SSM_GRP_STAT, Reg.SSM_STAT]; omega

theorem bit_showDemand (s : State) (g : Nat) (d : Bool) :
    (s.showDemand g d).bit (Reg.SSM_GRP_STAT g) 16 = d ∧ (s.showDemand g d).bit Reg.SSM_STAT 3 = decide (s.ssm.dem ≠ 0) := by
  unfold State.showDemand
  exact ⟨by rw [bit_of_rd (rd_setBit_ne (grpStat_ne_stat g) _ _ _), bit_setBit_self (by decide)], bit_setBit_self (by decide) _ _ _⟩

/-! ### A demand restated -/

/-- A set demand on the pages, with σ = 0. -/
def State.stopDemanded (s : State) (g : Nat) : State := ((s.setDemand g true).showDemand g true).setFld (Reg.SSM_GRP_STAT g) 15 0 0

/-- The group's entry of the limit set, for which a set demand replaces STOP_DEM and σ. -/
abbrev State.limEntry (s : State) (g : Nat) : Nat := s.lim s.parity + 0x10 + 16 * g

theorem restateDemand_clear {s : State} {g : Nat} (h : s.demandNow g = false) :
    s.restateDemand g = (s.setDemand g false).showDemand g false := by
  have hdem : (s.setDemand g false).ssm.dem.testBit g = false := by rw [ssm_setDemand, testBit_decided, if_pos rfl]
  unfold State.restateDemand
  rw [h]
  simp only [hdem, Bool.not_false, Bool.or_true, if_true, Bool.false_eq_true, if_false]
  rfl

theorem restateDemand_set {s : State} {g : Nat} (h : s.demandNow g = true) : s.restateDemand g =
    if s.commission then s.stopDemanded g
    else (s.stopDemanded g).setCell (s.limEntry g) 4
      (withBits (withBits ((s.stopDemanded g).cell32 (s.limEntry g)) 15 0 0) 16 16 1) := by
  have hdem : (s.setDemand g true).ssm.dem.testBit g = true := by rw [ssm_setDemand, testBit_decided, if_pos rfl]
  unfold State.restateDemand
  rw [h]
  simp only [hdem, Bool.not_true, Bool.or_false, if_true]
  rfl

/-- The registers in which a group's demand shows. -/
abbrev demandRegs (g : Nat) : List Nat := [Reg.SSM_GRP_STAT g, Reg.SSM_STAT, Reg.SSM_STOP_CNT, Reg.PG_IRQ_RAW Page.SSM]

theorem stopDemanded_signals (s : State) (g : Nat) : (s.decided g true).Signals (s.stopDemanded g) (demandRegs g) :=
  ((setDemand_signals s g true).trans ((showDemand_writes _ _ _).trans (setFld_writes _ _ _ _ _)).signals).mono (by simp)

theorem stopDemanded_page (s : State) {g : Nat} (hlt : g < 16) :
    (s.stopDemanded g).bit (Reg.SSM_GRP_STAT g) 16 = true ∧ (s.stopDemanded g).fld (Reg.SSM_GRP_STAT g) 15 0 = 0 ∧
      (s.stopDemanded g).bit Reg.SSM_STAT 3 = true ∧
      (s.stopDemanded g).rdN Reg.SSM_STOP_CNT = min (s.rdN Reg.SSM_STOP_CNT + b2n (!s.ssm.dem.testBit g)) 0xFFFFFFFF := by
  obtain ⟨hgrp, hstat⟩ := bit_showDemand (s.setDemand g true) g true
  have hne0 : (s.setDemand g true).ssm.dem ≠ 0 := by
    intro h0
    have hg : (s.setDemand g true).ssm.dem.testBit g = true := by rw [ssm_setDemand, testBit_decided, if_pos rfl]
    rw [h0, Nat.zero_testBit] at hg
    cases hg
  have hcnt : Reg.SSM_STOP_CNT ∉ [Reg.SSM_GRP_STAT g, Reg.SSM_STAT] ++ [Reg.SSM_GRP_STAT g] := by
    simp only [List.mem_append, List.mem_cons, List.not_mem_nil, or_false, Reg.SSM_STOP_CNT, Reg.SSM_STAT, Reg.SSM_GRP_STAT]
    omega
  unfold State.stopDemanded
  refine ⟨?_, ?_, ?_, ?_⟩
  · rw [bit_setFld (by decide) (by decide), if_neg (by decide), hgrp]
  · rw [fld_setFld (by decide) (by decide), Nat.zero_mod]
  · rw [bit_of_rd (rd_setFld_ne (grpStat_ne_stat g).symm _ _ _ _), hstat, decide_eq_true hne0]
  · rw [← rdN_setDemand_true]
    exact rdN_of_rd (((showDemand_writes _ _ _).trans (setFld_writes _ _ _ _ _)).1 _ hcnt)

/-- A restated demand is the one its causes give; the other groups' demands stay. -/
theorem testBit_restateDemand (s : State) (g k : Nat) :
    (s.restateDemand g).ssm.dem.testBit k = if k = g then s.demandNow g else s.ssm.dem.testBit k := by
  cases h : s.demandNow g
  · rw [restateDemand_clear h, (showDemand_writes _ _ _).signals.ssm, ssm_setDemand, testBit_decided]
  · rw [restateDemand_set h, ← testBit_decided, ← (stopDemanded_signals s g).ssm]
    split
    · rfl
    · rw [setCell_ssm]

/-- The sources stay as they are. -/
theorem restateDemand_src (s : State) (g : Nat) : (s.restateDemand g).ssm.src = s.ssm.src := by
  cases h : s.demandNow g
  · rw [restateDemand_clear h, (showDemand_writes _ _ _).signals.ssm, ssm_setDemand]; rfl
  · have hstop : (s.stopDemanded g).ssm.src = s.ssm.src := by rw [(stopDemanded_signals s g).ssm]; rfl
    rw [restateDemand_set h]
    split
    · exact hstop
    · rw [setCell_ssm, hstop]

theorem restateDemand_alters (s : State) (g : Nat) : s.Alters (s.restateDemand g) (demandRegs g ++ storeRegs) := by
  cases h : s.demandNow g
  · rw [restateDemand_clear h, setDemand_false]
    exact ((decided_onlySsm s g false).alters.trans (showDemand_writes _ _ _).alters).mono (by simp)
  · have hstop : s.Alters (s.stopDemanded g) (demandRegs g) := (decided_onlySsm s g true).alters.trans (stopDemanded_signals s g).alters
    rw [restateDemand_set h]
    split
    · exact hstop.mono fun _ => List.mem_append_left _
    · exact hstop.trans (setCell_alters _ _ _ _)

/-! ### Joint data missing, rule R178 -/

theorem demandNow_of_joint {s : State} {g : Nat} (h : s.jointDemand g = true) : s.demandNow g = true := by simp [State.demandNow, h]

/-- Outside the commissioning mode the limit set takes the demand as well. -/
theorem jointMissStop_set {s : State} {g : Nat} (ht : s.ticking = true) (hj : s.jointDemand g = true) (hc : s.commission = false)
    (hu : s.integ.ue = []) (hi : inCell (s.limEntry g) 4 = true) : s.jointMissStop g =
      { s.stopDemanded g with cell := s.cell.setN (s.limEntry g) 4 (withBits (withBits (s.cell32 (s.limEntry g)) 15 0 0) 16 16 1) } := by
  have hcell : (s.stopDemanded g).cell = s.cell := (stopDemanded_signals s g).memory.1
  have hue : (s.stopDemanded g).integ.ue = [] := by rw [(stopDemanded_signals s g).2]; exact hu
  have hword : (s.stopDemanded g).cell32 (s.limEntry g) = s.cell32 (s.limEntry g) := by unfold State.cell32 State.cellN; rw [hcell]
  unfold State.jointMissStop
  rw [if_pos (by simp [ht, hj]), restateDemand_set (demandNow_of_joint hj), if_neg (by simp [hc]), setCell_clean hue hi, hword, hcell]

/-! ### A source missing, rule R180 -/

/-- Two states agree in the configuration in force of the separation unit and in what it holds of its sources. -/
structure State.SameSources (s t : State) : Prop where
  eff : ∀ a, Reg.SSM_CTRL ≤ a → a < Reg.SSM_STAT → t.eff a = s.eff a
  src : t.ssm.src = s.ssm.src

theorem State.SameSources.refl (s : State) : s.SameSources s := ⟨fun _ _ _ => rfl, rfl⟩

theorem State.SameSources.trans {s t u : State} (h : s.SameSources t) (k : t.SameSources u) : s.SameSources u :=
  ⟨fun a hlo hhi => (k.eff a hlo hhi).trans (h.eff a hlo hhi), k.src.trans h.src⟩

/-- A demand shows in no register of the unit's configuration. -/
theorem demandRegs_outside (g : Nat) : ∀ a, Reg.SSM_CTRL ≤ a → a < Reg.SSM_STAT → a ∉ demandRegs g ++ storeRegs := by
  intro a hlo hhi hm
  rcases List.mem_append.mp hm with hm | hm
  · simp only [demandRegs, List.mem_cons, List.not_mem_nil, or_false, Reg.SSM_CTRL, Reg.SSM_STAT, Reg.SSM_GRP_STAT, Reg.SSM_STOP_CNT,
      Reg.PG_IRQ_RAW, Page.SSM] at hm hlo hhi
    omega
  · exact absurd ⟨hlo, hhi⟩ ((by decide : ∀ b ∈ storeRegs, ¬ (Reg.SSM_CTRL ≤ b ∧ b < Reg.SSM_STAT)) a hm)

theorem restateDemand_sameSources (s : State) (g : Nat) : s.SameSources (s.restateDemand g) :=
  ⟨fun a hlo hhi => (restateDemand_alters s g).eff (demandRegs_outside g a hlo hhi), restateDemand_src s g⟩

section
variable {s t : State} (hst : s.SameSources t) {g h : Nat} (hg : g < 16) (hh : h < 8)
include hst

theorem State.SameSources.missN : t.missN = s.missN := by
  unfold State.missN State.effFld
  rw [hst.eff _ (by decide) (by decide)]

theorem State.SameSources.ssmSrc : t.ssmSrc h = s.ssmSrc h := by unfold State.ssmSrc; rw [hst.src]

include hh

theorem State.SameSources.head : t.eff (Reg.SSM_HEAD h) = s.eff (Reg.SSM_HEAD h) :=
  hst.eff _ (by simp only [Reg.SSM_CTRL, Reg.SSM_HEAD]; omega) (by simp only [Reg.SSM_STAT, Reg.SSM_HEAD]; omega)

theorem State.SameSources.headEn : t.headEn h = s.headEn h := by unfold State.headEn State.effFld; rw [hst.head hh]

include hg

theorem State.SameSources.watches : t.watches g h = s.watches g h := by
  have hgrp : t.eff (Reg.SSM_GRP g) = s.eff (Reg.SSM_GRP g) :=
    hst.eff _ (by simp only [Reg.SSM_CTRL, Reg.SSM_GRP]; omega) (by simp only [Reg.SSM_STAT, Reg.SSM_GRP]; omega)
  unfold State.watches State.headRemote State.effFld
  rw [hst.head hh, hgrp]

end

/-- A group that watches a missing source has a demand. -/
theorem demandNow_of_source {s : State} {g h : Nat} (hh : h < 8) (hen : s.headEn h = true) (hm : s.missN ≤ (s.ssmSrc h).miss)
    (hw : s.watches g h = true) : s.demandNow g = true := by
  have hd : s.headDemand g = true :=
    List.any_eq_true.mpr ⟨h, List.mem_filter.mpr ⟨List.mem_range.mpr hh, hen⟩, by simp [hw, hm]⟩
  simp [State.demandNow, hd]

/-- SOURCE_MISS_STOP at one group. -/
def State.missStopGroup (h g : Nat) (s : State) : State := if s.watches g h then s.restateDemand g else s

theorem sourceMissStop_eq {s : State} {h : Nat} (ht : s.ticking = true) (hen : s.headEn h = true) (hm : s.missN ≤ (s.ssmSrc h).miss) :
    s.sourceMissStop h = forEach (State.missStopGroup h) s.groups s := if_pos (by simp [ht, hen, hm])

theorem missStopGroup_sameSources (h g : Nat) (s : State) : s.SameSources (s.missStopGroup h g) := by
  unfold State.missStopGroup
  split
  · exact restateDemand_sameSources s g
  · exact .refl s

theorem missStop_sameSources (h : Nat) (gs : List Nat) (s : State) : s.SameSources (forEach (State.missStopGroup h) gs s) :=
  forEach_invariant (P := s.SameSources) (fun g t hst => hst.trans (missStopGroup_sameSources h g t)) gs s (.refl s)

section
variable {s : State} {h : Nat} (hh : h < 8) (hen : s.headEn h = true) (hm : s.missN ≤ (s.ssmSrc h).miss)
include hh hen hm

theorem testBit_missStopGroup {t : State} (hst : s.SameSources t) {g : Nat} (hg : g < 16) (k : Nat) :
    (t.missStopGroup h g).ssm.dem.testBit k = if k = g ∧ s.watches g h = true then true else t.ssm.dem.testBit k := by
  unfold State.missStopGroup
  rw [hst.watches hg hh]
  by_cases hw : s.watches g h = true
  · have hnow : t.demandNow g = true := demandNow_of_source hh (by rw [hst.headEn hh, hen])
      (by rw [hst.missN, hst.ssmSrc]; exact hm) (by rw [hst.watches hg hh, hw])
    rw [if_pos hw, testBit_restateDemand, hnow]
    simp only [hw, and_true]
  · rw [if_neg hw, if_neg (fun hk => hw hk.2)]

/-- Each group of the list that watches the source gets the demand, and no other group's changes. -/
theorem testBit_missStop {gs : List Nat} (hgs : ∀ g ∈ gs, g < 16) (k : Nat) : ∀ {t : State}, s.SameSources t →
    (forEach (State.missStopGroup h) gs t).ssm.dem.testBit k =
      if k ∈ gs ∧ s.watches k h = true then true else t.ssm.dem.testBit k := by
  induction gs with
  | nil => intro t _; simp [forEach]
  | cons g gs ih =>
    intro t hst
    have hnext : s.SameSources (t.missStopGroup h g) := hst.trans (missStopGroup_sameSources h g t)
    rw [forEach, ih (fun x hx => hgs x (List.mem_cons_of_mem _ hx)) hnext,
      testBit_missStopGroup hh hen hm hst (hgs g List.mem_cons_self)]
    by_cases hkg : k = g
    · subst hkg
      by_cases hw : s.watches k h = true <;> simp [hw]
    · simp [hkg]

end

theorem groups_lt {s : State} {g : Nat} (hg : g ∈ s.groups) : g < 16 := List.mem_range.mp (List.mem_filter.mp hg).1

/-! ### The last cause gone, rule R188 -/

theorem demandNow_false {s : State} {g : Nat} (hv : s.ssm.viol.testBit g = false) (hj : s.jointDemand g = false)
    (hh : s.headDemand g = false) (hen : s.ssmEn = true) : s.demandNow g = false := by simp [State.demandNow, hv, hj, hh, hen]

theorem setViol_viol (s : State) (g n : Nat) (v : Bool) : (s.setViol g v n).ssm.viol.testBit g = v := by
  show (withBits s.ssm.viol g g (b2n v)).testBit g = v
  rw [testBit_withBits (Nat.le_refl g), if_pos ⟨Nat.le_refl g, Nat.le_refl g⟩]
  cases v <;> simp [b2n]

theorem setViol_onlySsm (s : State) (g n : Nat) (v : Bool) : s.OnlySsm (s.setViol g v n) := rfl

/-- The other causes do not depend on the violation. -/
theorem demandNow_setViol {s : State} {g : Nat} (hj : s.jointDemand g = false) (hh : s.headDemand g = false) (hen : s.ssmEn = true)
    (n : Nat) : (s.setViol g false n).demandNow g = false :=
  demandNow_false (setViol_viol s g n false) ((show (s.setViol g false n).jointDemand g = s.jointDemand g from rfl).trans hj)
    ((show (s.setViol g false n).headDemand g = s.headDemand g from rfl).trans hh)
    ((show (s.setViol g false n).ssmEn = s.ssmEn from rfl).trans hen)

/-- A demand without a cause clears. -/
theorem restateDemand_cleared {s : State} {g : Nat} (h : s.demandNow g = false) :
    (s.restateDemand g).ssm.dem.testBit g = false ∧ (s.restateDemand g).bit (Reg.SSM_GRP_STAT g) 16 = false ∧
      (s.restateDemand g).bit Reg.SSM_STAT 3 = decide ((s.restateDemand g).ssm.dem ≠ 0) ∧
      s.SameRegs (s.restateDemand g) [Reg.SSM_GRP_STAT g, Reg.SSM_STAT] ∧ s.SameMemory (s.restateDemand g) := by
  have hdem := testBit_restateDemand s g g
  rw [if_pos rfl, h] at hdem
  rw [restateDemand_clear h] at hdem ⊢
  obtain ⟨hgrp, hstat⟩ := bit_showDemand (s.setDemand g false) g false
  rw [setDemand_false] at hdem hgrp hstat ⊢
  have hdec := decided_onlySsm s g false
  have hshow := showDemand_writes (s.decided g false) g false
  refine ⟨hdem, hgrp, ?_, hdec.alters.1.trans hshow.1, hdec.memory.trans hshow.signals.memory⟩
  rw [hstat, hshow.signals.ssm]

/-- STOP_DEMAND_CLEAR restates the demand, with no violation left. -/
theorem stopDemandClear_eq {s : State} {g : Nat} (ht : s.ticking = true) (hv : s.clearN ≤ s.clearRun g ∨ s.ssm.viol.testBit g = false)
    (hj : s.jointDemand g = false) (hh : s.headDemand g = false) (hen : s.ssmEn = true) : s.stopDemandClear g =
      if s.clearN ≤ s.clearRun g then (s.setViol g false 0).restateDemand g else s.restateDemand g := by
  unfold State.stopDemandClear
  by_cases hn : s.clearN ≤ s.clearRun g
  · rw [if_pos hn, if_pos (by simp [ht, hn])]
  · rw [if_neg hn, if_neg (by simp [hn]), if_pos (by simp [ht, demandNow_false (hv.resolve_left hn) hj hh hen])]

/-! ### The obligation -/

theorem secondFailure_clause {s : State} (hf : 2 ≤ s.fld Reg.SOL_STAT 23 16) :
    (s.running = true → s.solverSecondFailure.bit Reg.SYS_STOP_CAUSE 16 = true ∧ s.solverSecondFailure.bit Reg.SYS_STOP_CAUSE 0 = true ∧
        DevState.safestop ∈ s.solverSecondFailure.sys.triggers) ∧
      (s.running = false → s.solverSecondFailure = s) ∧ s.SameRegs s.solverSecondFailure [Reg.SYS_STOP_CAUSE] ∧
      s.SameMemory s.solverSecondFailure := by
  cases hr : s.running
  · rw [secondFailure_notRunning hr]
    exact ⟨nofun, fun _ => rfl, fun _ _ => rfl, rfl, rfl, rfl, rfl, rfl⟩
  · rw [secondFailure_running hr hf]
    obtain ⟨hlatched, htrigger⟩ := stopCause_running hr .solver
    have hframe := stopCause_triggers s .solver
    exact ⟨fun _ => ⟨bit_stopCause_present s .solver, hlatched, htrigger⟩, nofun, hframe.1, hframe.memory⟩

theorem jointMissStop_clause {s t : State} {g : Nat} {m : Memory} (hg : g < 16) (h : t = { s.stopDemanded g with cell := m }) :
    t.ssm.dem.testBit g = true ∧ t.bit (Reg.SSM_GRP_STAT g) 16 = true ∧ t.fld (Reg.SSM_GRP_STAT g) 15 0 = 0 ∧
      t.bit Reg.SSM_STAT 3 = true ∧ t.rdN Reg.SSM_STOP_CNT = min (s.rdN Reg.SSM_STOP_CNT + b2n (!s.ssm.dem.testBit g)) 0xFFFFFFFF ∧
      t.cell = m ∧ s.SameRegs t (demandRegs g) := by
  obtain ⟨hgrp, hsigma, hstat, hcnt⟩ := stopDemanded_page s hg
  have hframe := stopDemanded_signals s g
  have hrd : ∀ a, t.rd a = (s.stopDemanded g).rd a := by rw [h]; exact rd_withCell _ m
  refine ⟨?_, by rw [bit_of_rd (hrd _), hgrp], by rw [fld_of_rd (hrd _), hsigma], by rw [bit_of_rd (hrd _), hstat],
    by rw [rdN_of_rd (hrd _), hcnt], by rw [h], fun a ha => ?_⟩
  · rw [show t.ssm = (s.stopDemanded g).ssm by rw [h], hframe.ssm, testBit_decided, if_pos rfl]
  · rw [hrd, hframe.1 a ha, (decided_onlySsm s g true).alters.1 a List.not_mem_nil]

theorem sourceMissStop_clause {s : State} {h : Nat} (hh : h < 8) (hen : s.headEn h = true) (hm : s.missN ≤ (s.ssmSrc h).miss) :
    (∀ g, g ∈ s.groups → s.watches g h = true → (forEach (State.missStopGroup h) s.groups s).ssm.dem.testBit g = true) ∧
      (∀ g, g < 16 → (g ∉ s.groups ∨ s.watches g h = false) →
        (forEach (State.missStopGroup h) s.groups s).ssm.dem.testBit g = s.ssm.dem.testBit g) ∧
      (forEach (State.missStopGroup h) s.groups s).ssm.src = s.ssm.src := by
  have hbit := fun g => testBit_missStop hh hen hm (gs := s.groups) (fun _ => groups_lt) g (.refl s)
  refine ⟨fun g hg hw => ?_, fun g _ hno => ?_, (missStop_sameSources h s.groups s).src⟩
  · rw [hbit, if_pos ⟨hg, hw⟩]
  · rw [hbit, if_neg]
    rintro ⟨hg, hw⟩
    rcases hno with hno | hno
    · exact hno hg
    · rw [hw] at hno; cases hno

theorem stopDemandClear_clause {s : State} {g : Nat} (ht : s.ticking = true)
    (hv : s.clearN ≤ s.clearRun g ∨ s.ssm.viol.testBit g = false) (hj : s.jointDemand g = false) (hh : s.headDemand g = false)
    (hen : s.ssmEn = true) :
    (s.stopDemandClear g).ssm.dem.testBit g = false ∧ (s.stopDemandClear g).bit (Reg.SSM_GRP_STAT g) 16 = false ∧
      (s.stopDemandClear g).bit Reg.SSM_STAT 3 = decide ((s.stopDemandClear g).ssm.dem ≠ 0) ∧
      s.SameRegs (s.stopDemandClear g) [Reg.SSM_GRP_STAT g, Reg.SSM_STAT] ∧ s.SameMemory (s.stopDemandClear g) := by
  rw [stopDemandClear_eq ht hv hj hh hen]
  by_cases hn : s.clearN ≤ s.clearRun g
  · rw [if_pos hn]
    have hviol := setViol_onlySsm s g 0 false
    obtain ⟨hdem, hgrp, hstat, hregs, hmem⟩ := restateDemand_cleared (demandNow_setViol hj hh hen 0)
    exact ⟨hdem, hgrp, hstat, hviol.alters.1.trans hregs, hviol.memory.trans hmem⟩
  · rw [if_neg hn]
    exact restateDemand_cleared (demandNow_false (hv.resolve_left hn) hj hh hen)

/-- Settles O39: each command restates the demand that the causes give, or raises the solver's stop cause. -/
theorem stopDemands : Obligations.StopDemands := by
  refine ⟨?_, ?_, ?_, ?_⟩
  · intro s _ hf
    exact ⟨_, rfl, secondFailure_clause hf⟩
  · intro s g ht hj hc hu hi
    exact ⟨_, congrArg Host.Outcome.next (jointMissStop_set ht hj hc hu hi), jointMissStop_clause g.isLt rfl⟩
  · intro s h ht hen hm
    exact ⟨_, congrArg Host.Outcome.next (sourceMissStop_eq ht hen hm), sourceMissStop_clause h.isLt hen hm⟩
  · intro s g ht hv hj hh hen
    exact ⟨_, rfl, stopDemandClear_clause ht hv hj hh hen⟩

end Sys2Proof.Machine
end

section
/-! SUPPORT. What the commands of the safety logic may touch; what follows from it: Slate's power and the start permission (O40 to O45). -/

namespace Sys2Proof.Machine

/-! ### The frame of the safety logic's commands -/

/-- Nothing differs but the registers of `l`, the safety logic, the outputs, the event unit with its messages, the words known to be
uncorrectable and the triggers that wait: no memory, no device state, no value that waits for the boundary. -/
def State.SafetyFrame (s t : State) (l : List Nat) : Prop :=
  s.SameRegs t l ∧ t = { s with
    regs := t.regs, saf := t.saf, field := t.field, evt := t.evt, msix := t.msix, plant := t.plant, integ := t.integ, sol := t.sol,
    sys := { s.sys with triggers := t.sys.triggers } }

theorem State.Signals.safety {s t : State} {l : List Nat} (h : s.Signals t l) : s.SafetyFrame t l := ⟨h.1, by rw [h.2]⟩
theorem State.Writes.safety {s t : State} {l : List Nat} (h : s.Writes t l) : s.SafetyFrame t l := h.signals.safety
theorem State.Triggers.safety {s t : State} {l : List Nat} (h : s.Triggers t l) : s.SafetyFrame t l := ⟨h.1, by rw [h.2]⟩

theorem State.SafetyFrame.refl (s : State) (l : List Nat) : s.SafetyFrame s l := ⟨fun _ _ => rfl, rfl⟩

theorem State.SafetyFrame.trans {s t u : State} {l m : List Nat} (h : s.SafetyFrame t l) (k : t.SafetyFrame u m) :
    s.SafetyFrame u (l ++ m) := by
  refine ⟨h.1.trans k.1, ?_⟩
  rw [k.2, h.2]

theorem State.SafetyFrame.mono {s t : State} {l m : List Nat} (h : s.SafetyFrame t l) (k : ∀ a ∈ l, a ∈ m) : s.SafetyFrame t m :=
  ⟨h.1.mono k, h.2⟩

theorem State.SafetyFrame.memory {s t : State} {l : List Nat} (h : s.SafetyFrame t l) : s.SameMemory t := by
  rw [h.2]; exact ⟨rfl, rfl, rfl, rfl, rfl⟩
theorem State.SafetyFrame.late {s t : State} {l : List Nat} (h : s.SafetyFrame t l) : t.late = s.late := by rw [h.2]
theorem State.SafetyFrame.dev {s t : State} {l : List Nat} (h : s.SafetyFrame t l) : t.sys.dev = s.sys.dev := by rw [h.2]
theorem State.SafetyFrame.alters {s t : State} {l : List Nat} (h : s.SafetyFrame t l) : s.Alters t l := ⟨h.1, h.late⟩

theorem State.SafetyFrame.effFld {s t : State} {l : List Nat} (h : s.SafetyFrame t l) {a : Nat} (ha : a ∉ l) (hi lo : Nat) :
    t.effFld a hi lo = s.effFld a hi lo := by
  unfold State.effFld; rw [h.alters.eff ha]
theorem State.SafetyFrame.bit {s t : State} {l : List Nat} (h : s.SafetyFrame t l) {a : Nat} (ha : a ∉ l) (i : Nat) :
    t.bit a i = s.bit a i := bit_of_rd (h.1 a ha) i
theorem State.SafetyFrame.fld {s t : State} {l : List Nat} (h : s.SafetyFrame t l) {a : Nat} (ha : a ∉ l) (hi lo : Nat) :
    t.fld a hi lo = s.fld a hi lo := fld_of_rd (h.1 a ha) hi lo
theorem State.SafetyFrame.rdN {s t : State} {l : List Nat} (h : s.SafetyFrame t l) {a : Nat} (ha : a ∉ l) : t.rdN a = s.rdN a :=
  rdN_of_rd (h.1 a ha)
theorem State.SafetyFrame.clocked {s t : State} {l : List Nat} (h : s.SafetyFrame t l) : t.clocked = s.clocked := by
  unfold State.clocked; rw [h.dev]
theorem State.SafetyFrame.running {s t : State} {l : List Nat} (h : s.SafetyFrame t l) : t.running = s.running := by
  unfold State.running; rw [h.dev]

/-- Another state of the safety logic alone. -/
theorem withSaf_safety (s : State) (x : Saf) : s.SafetyFrame { s with saf := x } [] := ⟨fun _ _ => rfl, rfl⟩

theorem rd_withSaf (s : State) (x : Saf) (a : Nat) : ({ s with saf := x } : State).rd a = s.rd a := rfl

theorem setSafIn_safety (s : State) (f : Nat) (x : SafIn) : s.SafetyFrame (s.setSafIn f x) [] := withSaf_safety s _
theorem setSafGroup_safety (s : State) (g : Nat) (x : SafGroup) : s.SafetyFrame (s.setSafGroup g x) [] := withSaf_safety s _
theorem setFlint_safety (s : State) (x : Flint) : s.SafetyFrame (s.setFlint x) [] := withSaf_safety s _

theorem withField_safety (s : State) (x : Field) : s.SafetyFrame { s with field := x } [] := ⟨fun _ _ => rfl, rfl⟩

theorem refreshDq_safety (s : State) : s.SafetyFrame s.refreshDq [Reg.FIO_DQ_RB] := by
  obtain ⟨x, n, h, -, -⟩ := refreshDq_eq s
  rw [h]
  exact (withField_safety s x).trans (setFld_writes _ _ _ _ _).safety

/-! ### Slate's power and the start permission, rules R218, R222 and R223 -/

/-- The registers in which Slate's power and the start permission show. -/
abbrev followRegs : List Nat := [Reg.SAF_STAT, Reg.PWR_DOM_STAT, Reg.CDC_STAT]

theorem setDomain_writes (s : State) (d : Nat) (on : Bool) : s.Writes (s.setDomain d on) [Reg.PWR_DOM_STAT, Reg.CDC_STAT] :=
  (((setBit_writes _ _ _ _).trans (setBit_writes _ _ _ _)).trans (setBit_writes _ _ _ _)).mono (by simp)

/-- Of the whole state only the registers of `followRegs` and what Slate keeps differ. -/
def State.SlateFrame (s t : State) : Prop :=
  s.SameRegs t followRegs ∧ t = { s with regs := t.regs, saf := { s.saf with slate := t.saf.slate } }

theorem State.SlateFrame.trans {s t u : State} (h : s.SlateFrame t) (k : t.SlateFrame u) : s.SlateFrame u := by
  refine ⟨(h.1.trans k.1).mono (by simp), ?_⟩
  rw [k.2, h.2]

theorem State.SlateFrame.safety {s t : State} (h : s.SlateFrame t) : s.SafetyFrame t followRegs := ⟨h.1, by rw [h.2]⟩
theorem State.SlateFrame.saf {s t : State} (h : s.SlateFrame t) : t.saf = { s.saf with slate := t.saf.slate } := by rw [h.2]

theorem State.Writes.slateFrame {s t : State} {l : List Nat} (h : s.Writes t l) (k : ∀ a ∈ l, a ∈ followRegs) : s.SlateFrame t :=
  ⟨h.1.mono k, by rw [h.2]⟩

theorem withSlate_frame (s : State) (x : Slate) : s.SlateFrame { s with saf := { s.saf with slate := x } } := ⟨fun _ _ => rfl, rfl⟩

theorem unlatch_frame (s : State) : s.SlateFrame s.unlatch := by
  unfold State.unlatch
  split
  · exact withSlate_frame s _
  · exact ⟨fun _ _ => rfl, rfl⟩

theorem slatePower_frame (s : State) : s.SlateFrame s.slatePower := by
  unfold State.slatePower
  split
  · exact ⟨fun _ _ => rfl, rfl⟩
  · have h := (setBit_writes s Reg.SAF_STAT 12 s.slateWant).trans (setDomain_writes _ 2 s.slateWant)
    exact (h.slateFrame (by decide)).trans (withSlate_frame _ _)

theorem refreshSaf_frame (s : State) : s.SlateFrame s.refreshSaf :=
  ((unlatch_frame s).trans (slatePower_frame _)).trans ((setBit_writes _ _ _ _).slateFrame (by decide))

theorem refreshSaf_safety (s : State) : s.SafetyFrame s.refreshSaf followRegs := (refreshSaf_frame s).safety
theorem refreshSaf_sys (s : State) : s.refreshSaf.sys = s.sys := by rw [(refreshSaf_frame s).2]
theorem refreshSaf_evt (s : State) : s.refreshSaf.evt = s.evt := by rw [(refreshSaf_frame s).2]
theorem refreshSaf_field (s : State) : s.refreshSaf.field = s.field := by rw [(refreshSaf_frame s).2]
theorem refreshSaf_saf (s : State) : s.refreshSaf.saf = { s.saf with slate := s.refreshSaf.saf.slate } := (refreshSaf_frame s).saf

theorem rd_unlatch (s : State) (a : Nat) : s.unlatch.rd a = s.rd a := by
  unfold State.unlatch
  split <;> rfl

/-- SLATE_ON shows whether Slate is wanted; of the other bits of SAF_STAT none changes. -/
theorem bit_slatePower (s : State) (i : Nat) :
    s.slatePower.bit Reg.SAF_STAT i = if i = 12 then s.slateWant else s.bit Reg.SAF_STAT i := by
  unfold State.slatePower
  split
  case isTrue h =>
    split
    · subst i; exact (beq_iff_eq.mp h).symm
    · rfl
  case isFalse =>
    have hdomain := (setDomain_writes (s.setBit Reg.SAF_STAT 12 s.slateWant) 2 s.slateWant).1 Reg.SAF_STAT (by decide)
    rw [bit_of_rd ((rd_withSaf _ _ _).trans hdomain), bit_setBit (by decide)]

theorem bit_refreshSaf {i : Nat} (h : i ≠ 11) (h' : i ≠ 12) (s : State) : s.refreshSaf.bit Reg.SAF_STAT i = s.bit Reg.SAF_STAT i := by
  unfold State.refreshSaf
  rw [bit_setBit (by decide), if_neg h, bit_slatePower, if_neg h', bit_of_rd (rd_unlatch s _)]

theorem slateOn_refreshSaf (s : State) : s.refreshSaf.bit Reg.SAF_STAT 12 = s.unlatch.slateWant := by
  unfold State.refreshSaf
  rw [bit_setBit (by decide), if_neg (by decide), bit_slatePower, if_pos rfl]

theorem startOk_refreshSaf (s : State) : s.refreshSaf.bit Reg.SAF_STAT 11 = s.unlatch.slatePower.startOk := bit_setBit_self (by decide) _ _ _

/-- Where Slate's power stays as it is, only a latched fault may end and START_OK follow. -/
theorem refreshSaf_powered {s : State} (h : s.unlatch.slateWant = s.bit Reg.SAF_STAT 12) :
    s.refreshSaf = s.unlatch.setBit Reg.SAF_STAT 11 s.unlatch.startOk := by
  have hpower : s.unlatch.slatePower = s.unlatch := if_pos (by rw [h, bit_of_rd (rd_unlatch s _)]; exact beq_self_eq_true _)
  unfold State.refreshSaf
  rw [hpower]

theorem unlatch_clean (s : State) : s.unlatch.saf.slate.clean = s.saf.slate.clean := by
  unfold State.unlatch
  split <;> rfl

theorem slateWant_of_degraded {s : State} (h : s.sys.dev = .degraded) : s.slateWant = true := by simp [State.slateWant, h]
theorem slateWant_of_proofTest {s : State} (h : s.bit Reg.SAF_PT_CMD 0 = true) : s.slateWant = true := by simp [State.slateWant, h]
theorem slateWant_of_storing {s : State} (h : s.bit Reg.SAF_STORE_STAT 8 = true) : s.slateWant = true := by simp [State.slateWant, h]

theorem notStartOk_of_estop {s : State} (h : s.estop = true) : s.startOk = false := by simp [State.startOk, h]
theorem notStartOk_of_failed {s : State} (h : s.bit Reg.SAF_STAT 10 = true) : s.startOk = false := by simp [State.startOk, h]
theorem notStartOk_of_overdue {s : State} (h : s.ptOverdue = true) : s.startOk = false := by simp [State.startOk, h]

theorem estop_of_slateFrame {s t : State} (h : s.SlateFrame t) : t.estop = s.estop := by
  have hins : ∀ f, t.safIn f = s.safIn f := fun f => by unfold State.safIn; rw [h.saf]
  have hkind : ∀ f, f < 16 → t.inKind f = s.inKind f := fun f hf =>
    h.safety.effFld (by simp [Reg.SAF_IN, Reg.SAF_STAT, Reg.PWR_DOM_STAT, Reg.CDC_STAT]; omega) 2 0
  unfold State.estop
  refine Bool.eq_iff_iff.mpr ?_
  simp only [List.any_eq_true, List.mem_range]
  exact exists_congr fun f => and_congr_right fun hf => by rw [hins, hkind f hf]

theorem ptOverdue_of_slateFrame {s t : State} (h : s.SlateFrame t) : t.ptOverdue = s.ptOverdue := by
  unfold State.ptOverdue
  rw [h.safety.effFld (by decide), h.safety.effFld (by decide), h.safety.rdN (by decide)]

theorem startOk_refreshSaf_of_estop {s : State} (h : s.estop = true) : s.refreshSaf.bit Reg.SAF_STAT 11 = false := by
  rw [startOk_refreshSaf]
  exact notStartOk_of_estop ((estop_of_slateFrame ((unlatch_frame s).trans (slatePower_frame _))).trans h)

theorem startOk_refreshSaf_of_failed {s : State} (h : s.bit Reg.SAF_STAT 10 = true) : s.refreshSaf.bit Reg.SAF_STAT 11 = false := by
  rw [startOk_refreshSaf]
  refine notStartOk_of_failed ?_
  rw [bit_slatePower, if_neg (by decide), bit_of_rd (rd_unlatch s _), h]

theorem startOk_refreshSaf_of_overdue {s : State} (h : s.ptOverdue = true) : s.refreshSaf.bit Reg.SAF_STAT 11 = false := by
  rw [startOk_refreshSaf]
  exact notStartOk_of_overdue ((ptOverdue_of_slateFrame ((unlatch_frame s).trans (slatePower_frame _))).trans h)

end Sys2Proof.Machine
end

section
/-! SUPPORT. Safe inputs, acknowledgement and release requests, and the passages of a group (O40). -/

namespace Sys2Proof.Machine

/-! ### Safe input functions, rules R203 and R204 -/

theorem safIn_of_saf {s t : State} (h : t.saf = s.saf) (f : Nat) : t.safIn f = s.safIn f := by unfold State.safIn; rw [h]

theorem safIn_setSafIn (s : State) (f k : Nat) (x : SafIn) : (s.setSafIn f x).safIn k = if k = f then x else s.safIn k :=
  Tab.get_set _ _ _ _ _

/-- Slate's power and the start permission leave the input functions. -/
theorem safIn_refreshSaf (s : State) (k : Nat) : s.refreshSaf.safIn k = s.safIn k := by
  unfold State.safIn
  rw [refreshSaf_saf]

theorem inputEnter_eq {s : State} {f : Nat} (ht : s.ticking = true) (hk : s.inKind f ≠ 0) (hd : s.enterDue f = true) :
    s.inputEnter f = s.setSafIn f { s.safIn f with demand := true, since := s.tickMono } := if_pos (by simp [ht, hk, hd])

theorem inputLeave_eq {s : State} {f : Nat} (ht : s.ticking = true) (hk : s.inKind f ≠ 0) (hd : s.leaveDue f = true) :
    s.inputLeave f = s.setSafIn f { s.safIn f with demand := false } := if_pos (by simp [ht, hk, hd])

theorem discrepancy_eq {s : State} {f : Nat} (ht : s.ticking = true) (hk : s.inKind f ≠ 0) (hd : s.discDue f = true) :
    s.discrepancy f = s.latchDisc f := if_pos (by simp [ht, hk, hd])

/-- What an input function becomes, where the start permission then follows: nothing else differs. -/
theorem setSafIn_refreshed (s : State) (f : Nat) (x : SafIn) :
    (s.setSafIn f x).refreshSaf.safIn f = x ∧ (∀ k, k ≠ f → (s.setSafIn f x).refreshSaf.safIn k = s.safIn k) ∧
      s.SafetyFrame (s.setSafIn f x).refreshSaf followRegs := by
  refine ⟨?_, fun k hk => ?_, (setSafIn_safety s f x).trans (refreshSaf_safety _)⟩
  · rw [safIn_refreshSaf, safIn_setSafIn, if_pos rfl]
  · rw [safIn_refreshSaf, safIn_setSafIn, if_neg hk]

/-- A function of kind ESTOP in demand. -/
theorem estop_of_demand {s : State} {f : Nat} (hf : f < 16) (hk : s.inKind f = 1) (hd : (s.safIn f).demand = true) : s.estop = true :=
  List.any_eq_true.mpr ⟨f, List.mem_range.mpr hf, by simp [hk, hd]⟩

theorem inputDemandEnter_clause (s : State) {f : Nat} (hf : f < 16) {t : State}
    (h : t = (s.setSafIn f { s.safIn f with demand := true, since := s.tickMono }).refreshSaf) :
    (t.safIn f).demand = true ∧ (t.safIn f).since = s.tickMono ∧ (∀ k, k ≠ f → t.safIn k = s.safIn k) ∧
      (s.inKind f = 1 → t.bit Reg.SAF_STAT 11 = false) ∧ s.SameRegs t followRegs ∧ s.SameMemory t := by
  obtain ⟨hself, hother, hframe⟩ := setSafIn_refreshed s f { s.safIn f with demand := true, since := s.tickMono }
  rw [← h] at hself hother hframe
  refine ⟨by rw [hself], by rw [hself], hother, fun hk => ?_, hframe.1, hframe.memory⟩
  rw [h]
  refine startOk_refreshSaf_of_estop (estop_of_demand hf hk ?_)
  rw [safIn_setSafIn, if_pos rfl]

theorem inputDemandLeave_clause (s : State) {f : Nat} {t : State} (h : t = (s.setSafIn f { s.safIn f with demand := false }).refreshSaf) :
    (t.safIn f).demand = false ∧ (∀ k, k ≠ f → t.safIn k = s.safIn k) ∧ s.SameRegs t followRegs ∧ s.SameMemory t := by
  obtain ⟨hself, hother, hframe⟩ := setSafIn_refreshed s f { s.safIn f with demand := false }
  rw [← h] at hself hother hframe
  exact ⟨by rw [hself], hother, hframe.1, hframe.memory⟩

/-- The registers that a discrepancy writes before its event. -/
def State.noteDisc (s : State) (f : Nat) : State :=
  ((s.setSafIn f { s.safIn f with disc := true, both := false, demand := true }).setBit Reg.SAF_STAT 2 true).inc Reg.SAF_DISC_CNT

theorem latchDisc_eq (s : State) (f : Nat) : s.latchDisc f = (s.noteDisc f).event Page.SAF 3 0 := rfl

theorem noteDisc_writes (s : State) (f : Nat) :
    (s.setSafIn f { s.safIn f with disc := true, both := false, demand := true }).Writes (s.noteDisc f) [Reg.SAF_STAT, Reg.SAF_DISC_CNT] :=
  (setBit_writes _ _ _ _).trans (inc_writes _ _)

theorem discrepancy_clause (s : State) (f : Nat) (hc : s.clocked = true) {t : State} (h : t = (s.latchDisc f).refreshSaf) :
    (t.safIn f).disc = true ∧ (t.safIn f).demand = true ∧ t.bit Reg.SAF_STAT 2 = true ∧
      t.rdN Reg.SAF_DISC_CNT = min (s.rdN Reg.SAF_DISC_CNT + 1) 0xFFFFFFFF ∧
      t.evt.raisings = s.evt.raisings ++ [⟨Page.SAF, 3, false, 0, s.now⟩] ∧
      s.SameRegs t [Reg.SAF_STAT, Reg.SAF_DISC_CNT, Reg.PG_IRQ_RAW Page.SAF, Reg.PWR_DOM_STAT, Reg.CDC_STAT] ∧ s.SameMemory t := by
  have hw := noteDisc_writes s f
  have hr := hw.event (show State.clocked _ = true from hc) (by decide) (by decide) Page.SAF 3 0
  rw [← latchDisc_eq] at hr
  have hself : t.safIn f = { s.safIn f with disc := true, both := false, demand := true } := by
    rw [h, safIn_refreshSaf, safIn_of_saf hr.signals.saf, safIn_setSafIn, if_pos rfl]
  have hframe : s.SafetyFrame (s.latchDisc f) _ := (setSafIn_safety s f _).trans hr.signals.safety
  have hfollow := refreshSaf_safety (s.latchDisc f)
  rw [← h] at hfollow
  refine ⟨by rw [hself], by rw [hself], ?_, ?_, ?_, ((hframe.trans hfollow).mono (by decide)).1, (hframe.trans hfollow).memory⟩
  · rw [h, bit_refreshSaf (by decide) (by decide), latchDisc_eq, bit_of_rd (rd_event (by decide) _ _ _)]
    unfold State.noteDisc
    rw [bit_of_rd (rd_inc_ne (by decide) _), bit_setBit_self (by decide)]
  · rw [hfollow.rdN (by decide), latchDisc_eq, rdN_of_rd (rd_event (by decide) _ _ _)]
    unfold State.noteDisc
    rw [rdN_inc, rdN_of_rd (rd_setBit_ne (by decide) _ _ _)]
    rfl
  · rw [h, refreshSaf_evt, hr.2]
    rfl

/-! ### SAF_ACK and SAF_REL, rules R210 to R212 -/

theorem safAck_none (s : State) : s.safAck 0 = s := rfl

theorem safAck_accepted {s : State} (h : (s.eff Reg.SAF_CTRL).getLsbD 2 = true) (m : Nat) :
    s.safAck m = { s with saf := { s.saf with ackPend := s.saf.ackPend ||| m } } := by
  unfold State.safAck
  by_cases hm : m = 0
  · subst hm; simp
  · rw [if_neg hm, if_pos h]

/-- The registers that a refused acknowledgement writes before its event. -/
def State.refuseAck (s : State) : State := (s.setBit Reg.SAF_STAT 4 true).inc Reg.SAF_ACK_REF_CNT

theorem safAck_refused {s : State} (h : (s.eff Reg.SAF_CTRL).getLsbD 2 = false) {m : Nat} (hm : m ≠ 0) :
    s.safAck m = s.refuseAck.event Page.SAF 4 0 := by
  unfold State.safAck
  rw [if_neg hm, if_neg (ne_true_of_eq_false h)]
  rfl

theorem refuseAck_writes (s : State) : s.Writes s.refuseAck [Reg.SAF_STAT, Reg.SAF_ACK_REF_CNT] := (setBit_writes _ _ _ _).trans (inc_writes _ _)

theorem safAckRefused_clause {s : State} (hc : s.clocked = true) {t : State} (h : t = s.refuseAck.event Page.SAF 4 0) :
    t.bit Reg.SAF_STAT 4 = true ∧ t.rdN Reg.SAF_ACK_REF_CNT = min (s.rdN Reg.SAF_ACK_REF_CNT + 1) 0xFFFFFFFF ∧
      s.Raises t [Reg.SAF_STAT, Reg.SAF_ACK_REF_CNT, Reg.PG_IRQ_RAW Page.SAF] [⟨Page.SAF, 4, false, 0, s.now⟩] := by
  subst h
  refine ⟨?_, ?_, (refuseAck_writes s).event hc (by decide) (by decide) _ _ _⟩
  · rw [bit_of_rd (rd_event (by decide) _ _ _)]
    unfold State.refuseAck
    rw [bit_of_rd (rd_inc_ne (by decide) _), bit_setBit_self (by decide)]
  · rw [rdN_of_rd (rd_event (by decide) _ _ _)]
    unfold State.refuseAck
    rw [rdN_inc, rdN_of_rd (rd_setBit_ne (by decide) _ _ _)]

/-! ### A group enters a state, rules R201, R202 and R211 -/

theorem safGroup_of_saf {s t : State} (h : t.saf = s.saf) (g : Nat) : t.safGroup g = s.safGroup g := by unfold State.safGroup; rw [h]

theorem safGroup_setSafGroup (s : State) (g : Nat) (x : SafGroup) : (s.setSafGroup g x).safGroup g = x := Tab.get_set_self _ _ _ _

theorem enterSos_eq (s : State) (g : Nat) : s.enterGroup g stSos =
    (s.setFld (Reg.SAF_GRP_STAT g) 2 0 stSos).setSafGroup g
      { s.safGroup g with hold := (s.memberAxes g).map (fun a => (a, (s.safeMeasured a).1)) } := rfl

theorem enterSto_eq (s : State) (g : Nat) : s.enterGroup g stSto =
    (((s.setFld (Reg.SAF_GRP_STAT g) 2 0 stSto).setSafGroup g
      { s.safGroup g with start := (s.safGroup g).start || !(s.safGroup g).auto }).inc Reg.SAF_STOP_CNT).event Page.SAF 0 0 := by
  unfold State.enterGroup
  dsimp only
  rw [if_pos (show stSto = stSs1 ∨ stSto = stSs2 ∨ stSto = stSto from .inr (.inr rfl)),
    if_neg (show ¬(stSto = stSs1 ∨ stSto = stSs2) by decide), if_neg (show stSto ≠ stSos by decide), if_pos rfl]

/-- The registers of a group's entry into STO. -/
abbrev stoRegs (g : Nat) : List Nat := [Reg.SAF_GRP_STAT g, Reg.SAF_STOP_CNT, Reg.PG_IRQ_RAW Page.SAF]

theorem grpStat_ne {g : Nat} (hg : g < 16) :
    Reg.SAF_GRP_STAT g ≠ Reg.SAF_STOP_CNT ∧ Reg.SAF_GRP_STAT g ≠ Reg.PG_IRQ_RAW Page.SAF := by
  constructor <;> simp only [Reg.SAF_GRP_STAT, Reg.SAF_STOP_CNT, Reg.PG_IRQ_RAW, Page.SAF] <;> omega

/-- A group that enters STO: its state, the count of stops, and START where not every cause ends without a release request. -/
theorem enterSto_shows (s : State) {g : Nat} (hg : g < 16) :
    (s.enterGroup g stSto).grpState g = stSto ∧ (s.enterGroup g stSto).rdN Reg.SAF_STOP_CNT = min (s.rdN Reg.SAF_STOP_CNT + 1) 0xFFFFFFFF ∧
      ((s.enterGroup g stSto).safGroup g).start = ((s.safGroup g).start || !(s.safGroup g).auto) ∧
      s.SafetyFrame (s.enterGroup g stSto) (stoRegs g) := by
  obtain ⟨hcnt, hirq⟩ := grpStat_ne hg
  have hset := setFld_writes s (Reg.SAF_GRP_STAT g) 2 0 stSto
  have hgroup := setSafGroup_safety (s.setFld (Reg.SAF_GRP_STAT g) 2 0 stSto) g
    { s.safGroup g with start := (s.safGroup g).start || !(s.safGroup g).auto }
  rw [enterSto_eq]
  refine ⟨?_, ?_, ?_, ?_⟩
  · unfold State.grpState
    rw [fld_of_rd (rd_event hirq _ _ _), fld_of_rd (rd_inc_ne hcnt _), hgroup.fld List.not_mem_nil, fld_setFld (by decide) (by decide)]
    rfl
  · rw [rdN_of_rd (rd_event (by decide) _ _ _), rdN_inc, hgroup.rdN List.not_mem_nil, rdN_of_rd (rd_setFld_ne hcnt.symm _ _ _ _)]
  · rw [safGroup_of_saf (event_signals _ _ _ _).saf, safGroup_of_saf (inc_writes _ _).signals.saf, safGroup_setSafGroup]
  · exact ((hset.safety.trans hgroup).trans ((inc_writes _ _).safety.trans (event_signals _ _ _ _).safety)).mono (by simp)

/-! ### STANDSTILL_REACHED and SS1_TMAX_EXPIRY -/

theorem standstillReached_ss1 {s : State} {g : Nat} (ht : s.ticking = true) (hs : s.grpState g = stSs1)
    (hn : s.effFld (Reg.SAF_GRP g) 15 8 ≤ (s.safGroup g).still) : s.standstillReached g = s.enterGroup g stSto := by
  unfold State.standstillReached
  simp [ht, hs, hn]

theorem standstillReached_ss2 {s : State} {g : Nat} (ht : s.ticking = true) (hs : s.grpState g = stSs2)
    (hn : s.effFld (Reg.SAF_GRP g) 15 8 ≤ (s.safGroup g).still) : s.standstillReached g = s.enterGroup g stSos := by
  unfold State.standstillReached
  simp [ht, hs, hn, stSs1, stSs2]

theorem tMaxExpiry_ss1 {s : State} {g : Nat} (ht : s.ticking = true) (hd : s.tMaxDue g = true) (hs : s.grpState g = stSs1) :
    s.tMaxExpiry g = s.enterGroup g stSto := by
  unfold State.tMaxExpiry
  simp [ht, hd, hs]

/-- RAMP joins the causes of an SS2: the group then waits for a release request. -/
theorem rampJoins_eq {s : State} {g : Nat} (hs : s.grpState g = stSs2) :
    s.rampJoins g = s.setSafGroup g { s.safGroup g with auto := false } := if_pos hs

theorem tMaxExpiry_ss2 {s : State} {g : Nat} (ht : s.ticking = true) (hd : s.tMaxDue g = true) (hs : s.grpState g = stSs2) :
    s.tMaxExpiry g = (((s.rampJoins g).enterGroup g stSto).setBit (Reg.SAF_GRP_STAT g) 16 true).setBit (Reg.SAF_GRP_STAT g + 4) 8 true := by
  unfold State.tMaxExpiry
  simp [ht, hd, hs, stSs1, stSs2]

theorem enterSos_clause (s : State) (g : Nat) {t : State} (h : t = s.enterGroup g stSos) :
    t.grpState g = stSos ∧ (t.safGroup g).hold = (s.memberAxes g).map (fun a => (a, (s.safeMeasured a).1)) ∧
      s.SameRegs t [Reg.SAF_GRP_STAT g] ∧ s.SameMemory t := by
  have hset := setFld_writes s (Reg.SAF_GRP_STAT g) 2 0 stSos
  have hgroup := setSafGroup_safety (s.setFld (Reg.SAF_GRP_STAT g) 2 0 stSos) g
    { s.safGroup g with hold := (s.memberAxes g).map (fun a => (a, (s.safeMeasured a).1)) }
  rw [← enterSos_eq, ← h] at hgroup
  refine ⟨?_, ?_, (hset.safety.trans hgroup).1, (hset.safety.trans hgroup).memory⟩
  · unfold State.grpState
    rw [hgroup.fld List.not_mem_nil, fld_setFld (by decide) (by decide)]
    rfl
  · rw [h, enterSos_eq, safGroup_setSafGroup]

theorem tMaxExpirySs2_clause {s : State} {g : Nat} (hg : g < 16) (hs : s.grpState g = stSs2) {t : State}
    (h : t = (((s.rampJoins g).enterGroup g stSto).setBit (Reg.SAF_GRP_STAT g) 16 true).setBit (Reg.SAF_GRP_STAT g + 4) 8 true) :
    t.grpState g = stSto ∧ t.bit (Reg.SAF_GRP_STAT g) 16 = true ∧ t.bit (Reg.SAF_GRP_STAT g + 4) 8 = true ∧ (t.safGroup g).start = true ∧
      s.SameRegs t [Reg.SAF_GRP_STAT g, Reg.SAF_GRP_STAT g + 4, Reg.SAF_STOP_CNT, Reg.PG_IRQ_RAW Page.SAF] ∧ s.SameMemory t := by
  have hjoin : s.SafetyFrame (s.rampJoins g) [] := by rw [rampJoins_eq hs]; exact setSafGroup_safety s g _
  have hauto : ((s.rampJoins g).safGroup g).auto = false := by rw [rampJoins_eq hs, safGroup_setSafGroup]
  obtain ⟨hstate, -, hstart, hframe⟩ := enterSto_shows (s.rampJoins g) hg
  have hbits := (setBit_writes ((s.rampJoins g).enterGroup g stSto) (Reg.SAF_GRP_STAT g) 16 true).trans
    (setBit_writes _ (Reg.SAF_GRP_STAT g + 4) 8 true)
  rw [← h] at hbits
  have hall := hjoin.trans (hframe.trans hbits.safety)
  refine ⟨?_, ?_, ?_, ?_, (hall.mono (by simp)).1, hall.memory⟩
  · rw [← hstate, h]
    unfold State.grpState
    rw [fld_of_rd (rd_setBit_ne (by omega) _ _ _)]
    exact fld_setFld_ne (by decide) (by decide) (by decide) _ _ _
  · rw [h, bit_of_rd (rd_setBit_ne (by omega) _ _ _), bit_setBit_self (by decide)]
  · rw [h, bit_setBit_self (by decide)]
  · rw [safGroup_of_saf hbits.signals.saf, hstart, hauto]
    exact Bool.or_true _

/-! ### The obligation -/

/-- Settles O40: each command changes the one input function, request or group it names; what follows is Slate's power and the start permission,
or the count of stops. -/
theorem safetyInputsAndGroups : Obligations.SafetyInputsAndGroups := by
  refine ⟨?_, ?_, ?_, ?_, ?_, ?_, ?_, ?_, ?_, ?_, ?_⟩
  · intro s f ht hk hd
    exact ⟨_, rfl, inputDemandEnter_clause s f.isLt (congrArg State.refreshSaf (inputEnter_eq ht hk hd))⟩
  · intro s f ht hk hd
    exact ⟨_, rfl, inputDemandLeave_clause s (congrArg State.refreshSaf (inputLeave_eq ht hk hd))⟩
  · intro s f ht hk hd
    exact ⟨_, rfl, discrepancy_clause s f.val (ticking_clocked ht) (congrArg State.refreshSaf (discrepancy_eq ht hk hd))⟩
  · intro s ag m hw he
    exact completes_write hw rfl (safAck_accepted he m.toNat)
  · intro s ag hw
    exact completes_write hw rfl (safAck_none s)
  · intro s ag m hw hm he
    have hm0 : m.toNat ≠ 0 := fun e => hm (BitVec.eq_of_toNat_eq e)
    exact completes_write hw rfl (safAckRefused_clause (writable_clocked hw) (safAck_refused he hm0))
  · intro s ag m hw
    exact completes_write hw rfl rfl
  · intro s g ht hs hn
    obtain ⟨hstate, hcnt, hstart, hframe⟩ := enterSto_shows s g.isLt
    exact ⟨_, congrArg Host.Outcome.next (standstillReached_ss1 ht hs hn), hstate, hcnt, hstart, hframe.1, hframe.memory⟩
  · intro s g ht hs hn
    exact ⟨_, rfl, enterSos_clause s g.val (standstillReached_ss2 ht hs hn)⟩
  · intro s g ht hd hs
    obtain ⟨hstate, -, -, hframe⟩ := enterSto_shows s g.isLt
    exact ⟨_, congrArg Host.Outcome.next (tMaxExpiry_ss1 ht hd hs), hstate, hframe.1, hframe.memory⟩
  · intro s g ht hd hs
    exact ⟨_, rfl, tMaxExpirySs2_clause g.isLt hs (tMaxExpiry_ss2 ht hd hs)⟩

end Sys2Proof.Machine
end

section
/-! SUPPORT. Degrade classes, and the comparison with Slate (O41). -/

namespace Sys2Proof.Machine

/-! ### A class clears, rules R220 and R221 -/

/-- The registers of the degrade classes and of what follows from them. -/
abbrev degradeRegs : List Nat := [Reg.SAF_DEG, Reg.SAF_STAT, Reg.PWR_DOM_STAT, Reg.CDC_STAT]

theorem testBit_classes (s : State) (i : Nat) : s.classes.testBit i = (decide (i < 5) && s.classOn (i + 1)) := by
  unfold State.classes State.fld State.classOn State.bit State.rdN
  rw [testBit_bitsOf, show 15 + (i + 1) = i + 16 by omega]
  rfl

theorem classOn_of_rd {s t : State} (h : t.rd Reg.SAF_DEG = s.rd Reg.SAF_DEG) (c : Nat) : t.classOn c = s.classOn c := bit_of_rd h _

theorem returnCheck_triggers (s : State) : s.Triggers s.returnCheck [] := by
  unfold State.returnCheck
  split
  · exact trigger_triggers s .run
  · exact (State.Writes.refl s).triggers

theorem returnCheck_saf (s : State) : s.returnCheck.saf = s.saf := by rw [(returnCheck_triggers s).2]

theorem mem_returnCheck {s : State} (hd : s.sys.dev = .degraded) (hc : s.classes = 0) (hs : s.saf.slate.clean = true) :
    DevState.run ∈ s.returnCheck.sys.triggers := by
  unfold State.returnCheck
  rw [if_pos (by simp [hd, hc, hs])]
  exact mem_trigger (by rw [hd]; rfl)

/-- The classes without one of them. -/
theorem classOn_clear (s : State) {c : Nat} (hc : c < 5) (k : Nat) :
    (s.setBit Reg.SAF_DEG (15 + (c + 1)) false).classOn (k + 1) = if k = c then false else s.classOn (k + 1) := by
  unfold State.classOn
  rw [bit_setBit (by omega)]
  exact if_congr (by omega) rfl rfl

/-- Without the only one of them no class is left. -/
theorem classes_clear {s : State} {c : Nat} (hc : c < 5) (h : s.classes = 2 ^ c) :
    (s.setBit Reg.SAF_DEG (15 + (c + 1)) false).classes = 0 := by
  refine Nat.eq_of_testBit_eq fun i => ?_
  have hi := testBit_classes s i
  rw [h, Nat.testBit_two_pow] at hi
  rw [testBit_classes, classOn_clear s hc, Nat.zero_testBit]
  by_cases hic : i = c
  · rw [if_pos hic, Bool.and_false]
  · rw [if_neg hic, ← hi, decide_eq_false (Ne.symm hic)]

/-- A class clears: no other changes; DEGRADED ends with the last one, once Slate has compared clean. -/
theorem clearClass_shows (s : State) {c : Nat} (hc : c < 5) :
    (s.clearClass (c + 1)).classOn (c + 1) = false ∧ (∀ k, k ≠ c → (s.clearClass (c + 1)).classOn (k + 1) = s.classOn (k + 1)) ∧
      (s.sys.dev = .degraded → s.classes = 2 ^ c → s.saf.slate.clean = true → .run ∈ (s.clearClass (c + 1)).sys.triggers) ∧
      (s.clearClass (c + 1)).saf.stFail = s.saf.stFail ∧ s.SafetyFrame (s.clearClass (c + 1)) degradeRegs := by
  have hset := setBit_writes s Reg.SAF_DEG (15 + (c + 1)) false
  have hcheck := returnCheck_triggers (s.setBit Reg.SAF_DEG (15 + (c + 1)) false)
  have hfollow := refreshSaf_safety (s.setBit Reg.SAF_DEG (15 + (c + 1)) false).returnCheck
  have hon : ∀ k, (s.clearClass (c + 1)).classOn (k + 1) = if k = c then false else s.classOn (k + 1) := fun k =>
    (classOn_of_rd ((hcheck.safety.trans hfollow).1 _ (by decide)) _).trans (classOn_clear s hc k)
  refine ⟨by rw [hon, if_pos rfl], fun k hk => by rw [hon, if_neg hk], fun hd h1 hs => ?_, ?_,
    hset.safety.trans (hcheck.safety.trans hfollow)⟩
  · unfold State.clearClass
    rw [refreshSaf_sys]
    exact mem_returnCheck hd (classes_clear hc h1) hs
  · unfold State.clearClass
    rw [refreshSaf_saf, returnCheck_saf]
    rfl

theorem degradeFaultClear_eq {s : State} {c : Nat} (ht : s.ticking = true) (hon : s.classOn c = true) (hc : s.classClears c = true) :
    s.degradeFaultClear c = s.clearClass c := if_pos (by simp [ht, hon, hc])

/-! ### A fault is detected, rules R220 to R222 -/

/-- A class is set, with the time of its detection. -/
def State.hitClass (s : State) (c : Nat) : State :=
  { s.setBit Reg.SAF_DEG (15 + c) true with
    saf := { s.saf with seenAt := Tab.set (fun _ => 0) s.saf.seenAt c (s.setBit Reg.SAF_DEG (15 + c) true).mono } }

theorem hitClass_safety (s : State) (c : Nat) : s.SafetyFrame (s.hitClass c) [Reg.SAF_DEG] :=
  (setBit_writes s Reg.SAF_DEG (15 + c) true).safety.trans (withSaf_safety _ _)

theorem classOn_hitClass (s : State) {c : Nat} (hc : c < 16) : (s.hitClass c).classOn c = true :=
  bit_setBit_self (by omega) s Reg.SAF_DEG true

theorem withdraw_safety (s : State) (d : DevState) : s.SafetyFrame (s.withdraw d) [] := ⟨fun _ _ => rfl, rfl⟩

/-- Where the tick runs after SELFTEST, a detection sets the class; what else it does depends on the device state. -/
theorem detect_cases {s : State} (ht : s.ticking = true) (hs : s.sys.dev ≠ .selftest) (c : Nat) :
    s.detect c = (s.hitClass c).trigger .degraded ∨ s.sys.dev ≠ .run ∧
      (s.detect c = (s.hitClass c).withdraw .run ∨ s.detect c = s.hitClass c ∨
        s.detect c = { s.hitClass c with saf := { (s.hitClass c).saf with slate := { (s.hitClass c).saf.slate with latched := true } } }) := by
  unfold State.ticking at ht
  unfold State.detect
  cases hd : s.sys.dev with
  | run => exact .inl rfl
  | degraded => exact .inr ⟨nofun, .inl rfl⟩
  | safestop => exact .inr ⟨nofun, .inr (.inl rfl)⟩
  | ready => exact .inr ⟨nofun, .inr (.inr rfl)⟩
  | selftest => exact absurd hd hs
  | off => rw [hd] at ht; cases ht
  | reset => rw [hd] at ht; cases ht
  | boot => rw [hd] at ht; cases ht
  | frozen => rw [hd] at ht; cases ht

theorem detect_shows {s : State} (ht : s.ticking = true) (hs : s.sys.dev ≠ .selftest) {c : Nat} (hc : c < 16) :
    (s.detect c).classOn c = true ∧ (s.detect c).saf.stFail = s.saf.stFail ∧ (s.sys.dev = .run → .degraded ∈ (s.detect c).sys.triggers) ∧
      s.SafetyFrame (s.detect c) [Reg.SAF_DEG] := by
  have hhit := hitClass_safety s c
  have hon := classOn_hitClass s hc
  rcases detect_cases ht hs c with h | ⟨hnot, h | h | h⟩ <;> rw [h]
  · have htrig := trigger_triggers (s.hitClass c) .degraded
    refine ⟨(classOn_of_rd (rd_trigger _ _ _) _).trans hon, by rw [htrig.2]; rfl, fun hd => mem_trigger ?_, hhit.trans htrig.safety⟩
    rw [hhit.dev, hd]
    rfl
  · exact ⟨hon, rfl, fun hd => absurd hd hnot, hhit.trans (withdraw_safety _ _)⟩
  · exact ⟨hon, rfl, fun hd => absurd hd hnot, hhit⟩
  · exact ⟨hon, rfl, fun hd => absurd hd hnot, hhit.trans (withSaf_safety _ _)⟩

/-! ### PERIODIC_SELFTEST, rule R220 -/

/-- The periodic self-tests that failed, with the result of one of them. -/
def State.noteSelftest (s : State) (n : Nat) (pass : Bool) : State :=
  { s with saf := { s.saf with stFail := withBits s.saf.stFail n n (b2n (!pass)) } }

theorem periodicSelftest_failed {s : State} (ht : s.ticking = true) (n : Nat) :
    s.periodicSelftest n false = ((s.noteSelftest n false).detect 2).refreshSaf := by
  unfold State.periodicSelftest
  rw [if_neg (by simp [ht])]
  rfl

/-- The only failed test passes. -/
theorem periodicSelftest_passed {s : State} (ht : s.ticking = true) (n : Fin 2) (hf : s.saf.stFail = 2 ^ n.val) (hon : s.classOn 2 = true) :
    s.periodicSelftest n.val true = (s.noteSelftest n.val true).clearClass 2 ∧ (s.noteSelftest n.val true).saf.stFail = 0 := by
  have hnone : ∀ k : Fin 2, withBits (2 ^ k.val) k.val k.val (b2n (!true)) = 0 := by decide
  have hm : withBits s.saf.stFail n.val n.val (b2n (!true)) = 0 := by rw [hf]; exact hnone n
  refine ⟨?_, hm⟩
  unfold State.periodicSelftest
  rw [if_neg (by simp [ht])]
  exact (if_neg Bool.false_ne_true).trans (if_pos ⟨hm, hon⟩)

theorem selftestFailed_clause {s : State} (ht : s.ticking = true) (hs : s.sys.dev ≠ .selftest) (n : Nat) {t : State}
    (h : t = ((s.noteSelftest n false).detect 2).refreshSaf) :
    t.classOn 2 = true ∧ t.saf.stFail.testBit n = true ∧ (s.sys.dev = .run → .degraded ∈ t.sys.triggers) ∧
      s.SameRegs t degradeRegs ∧ s.SameMemory t := by
  obtain ⟨hon, hfail, hrun, hframe⟩ := detect_shows (s := s.noteSelftest n false) ht hs (c := 2) (by decide)
  have hfollow := refreshSaf_safety ((s.noteSelftest n false).detect 2)
  rw [← h] at hfollow
  have hall : s.SafetyFrame t degradeRegs := (withSaf_safety s _).trans (hframe.trans hfollow)
  refine ⟨(classOn_of_rd (hfollow.1 _ (by decide)) _).trans hon, ?_, fun hd => ?_, hall.1, hall.memory⟩
  · rw [h, refreshSaf_saf, hfail]
    exact (testBit_withBits (Nat.le_refl n) _ _ _).trans (by simp [b2n])
  · rw [h, refreshSaf_sys]
    exact hrun hd

/-! ### DEGRADE_MAX_EXPIRY, rule R221 -/

theorem degradeMaxExpiry_clause {s : State} (hd : s.sys.dev = .degraded) :
    s.degradeMaxExpiry.fld Reg.SAF_DEG 15 0 = 0 ∧ s.degradeMaxExpiry.bit Reg.SYS_STOP_CAUSE 7 = true ∧
      s.degradeMaxExpiry.bit Reg.SYS_STOP_CAUSE 23 = true ∧ .safestop ∈ s.degradeMaxExpiry.sys.triggers ∧
      s.SameRegs s.degradeMaxExpiry [Reg.SAF_DEG, Reg.SYS_STOP_CAUSE] ∧ s.SameMemory s.degradeMaxExpiry := by
  have heq : s.degradeMaxExpiry = (s.setFld Reg.SAF_DEG 15 0 0).stopCause .degradeMax := if_pos (beq_iff_eq.mpr hd)
  have hframe := (setFld_writes s Reg.SAF_DEG 15 0 0).safety.trans (stopCause_triggers _ .degradeMax).safety
  obtain ⟨hlatched, htrigger⟩ :=
    stopCause_running (s := s.setFld Reg.SAF_DEG 15 0 0) (by simp [State.running, hd]) .degradeMax
  rw [heq]
  refine ⟨?_, hlatched, bit_stopCause_present _ .degradeMax, htrigger, hframe.1, hframe.memory⟩
  rw [fld_of_rd (rd_stopCause (by decide) _ _), fld_setFld (by decide) (by decide), Nat.zero_mod]

/-! ### Words of Slate's own memory that cannot be corrected, rules R370 and R371 -/

theorem controlPathError_safety (s : State) (scrub : Bool) : s.SafetyFrame (s.controlPathError scrub) storeRegs := by
  unfold State.controlPathError
  split
  · exact (alarm_signals _ _ _ _).safety.mono (by decide)
  · have hset := (setBit_writes s Reg.MEM_STAT 2 true).safety
    dsimp only
    split
    · exact ((hset.trans (event_signals _ _ _ _).safety).trans (stopCause_triggers _ _).safety).mono (by decide)
    · exact (hset.trans (alarm_signals _ _ _ _).safety).mono (by decide)

theorem ueFound_safety (s : State) (mem a : Nat) (scrub : Bool) : s.SafetyFrame (s.ueFound mem a scrub) storeRegs := by
  unfold State.ueFound
  extract_lets w ue ecc s0 s1 s2
  have h0 : s.SafetyFrame s0 [] := ⟨fun _ _ => rfl, rfl⟩
  have h1 : s0.SafetyFrame s1 storeRegs := by
    unfold s1
    split
    · exact (((inc_writes _ _).trans (setBit_writes _ _ _ _)).safety.trans (event_signals _ _ _ _).safety).mono (by decide)
    · exact (inc_writes _ _).safety.mono (by decide)
  have h2 : s1.SafetyFrame s2 storeRegs :=
    ((((wr64_writes _ _ _).trans (setBit_writes _ _ _ _)).safety.trans (event_signals _ _ _ _).safety).trans
      (detLapse_signals _).safety).mono (by decide)
  have h3 := (h0.trans h1).trans h2
  split
  · exact (h3.trans (controlPathError_safety _ _)).mono (by decide)
  · exact h3.mono (by decide)

theorem forEach_safety {α : Type} {f : α → State → State} {l : List Nat} (hf : ∀ x (t : State), t.SafetyFrame (f x t) l) (xs : List α) :
    ∀ s : State, s.SafetyFrame (forEach f xs s) l := by
  induction xs with
  | nil => intro s; exact .refl s l
  | cons x xs ih => intro s; exact ((hf x s).trans (ih (f x s))).mono (by simp)

theorem safetyFound_safety (s : State) (mem : Nat) : s.SafetyFrame (s.safetyFound mem) storeRegs :=
  forEach_safety (fun _ _ => ueFound_safety _ _ _ _) _ s

/-! ### A disagreement, rules R219 and R222 -/

/-- A disagreement is noted: what it leaves in every device state. -/
def State.noteDisagreement (s : State) : State :=
  let s1 := ((s.setBit Reg.SAF_STAT 1 true).inc Reg.SAF_XCMP_CNT).event Page.SAF 2 0
  { s1 with saf := { s1.saf with slate := { s1.saf.slate with clean := false, first := s1.mono }, pt := { s1.saf.pt with disagreed := true } } }

theorem noteDisagreement_shows (s : State) :
    s.noteDisagreement.bit Reg.SAF_STAT 1 = true ∧ s.noteDisagreement.rdN Reg.SAF_XCMP_CNT = min (s.rdN Reg.SAF_XCMP_CNT + 1) 0xFFFFFFFF ∧
      s.SafetyFrame s.noteDisagreement [Reg.SAF_STAT, Reg.SAF_XCMP_CNT, Reg.PG_IRQ_RAW Page.SAF] := by
  have hw := (setBit_writes s Reg.SAF_STAT 1 true).trans (inc_writes _ Reg.SAF_XCMP_CNT)
  have he := event_signals ((s.setBit Reg.SAF_STAT 1 true).inc Reg.SAF_XCMP_CNT) Page.SAF 2 0
  have hs : State.SafetyFrame _ s.noteDisagreement [] := withSaf_safety (((s.setBit Reg.SAF_STAT 1 true).inc Reg.SAF_XCMP_CNT).event Page.SAF 2 0) _
  refine ⟨?_, ?_, hw.safety.trans (he.safety.trans hs)⟩
  · rw [hs.bit List.not_mem_nil, bit_of_rd (he.1 _ (by decide)), bit_of_rd (rd_inc_ne (by decide) _), bit_setBit_self (by decide)]
  · rw [hs.rdN List.not_mem_nil, rdN_of_rd (he.1 _ (by decide)), rdN_inc, rdN_of_rd (rd_setBit_ne (by decide) _ _ _)]

/-- What Slate keeps is replaced. -/
def State.putSlate (s : State) (x : Slate) : State := { s with saf := { s.saf with slate := x } }

theorem putSlate_safety (s : State) (x : Slate) : s.SafetyFrame (s.putSlate x) [] := withSaf_safety s _

theorem putSlate_slate (s : State) (x : Slate) : (s.putSlate x).saf.slate = x := rfl

/-- What a disagreement leads to, by device state: the stop cause, a failed self-test, or a latched fault. -/
theorem disagreement_cases (s : State) :
    (s.running = true ∧ s.sys.dev ≠ .selftest ∧ s.disagreement = s.noteDisagreement.stopCause .compare) ∨ (s.running = false ∧
      (s.disagreement = s.noteDisagreement.putSlate { s.noteDisagreement.saf.slate with failed := true } ∨
      s.sys.dev ≠ .selftest ∧ (s.disagreement = s.noteDisagreement ∨
        s.disagreement = (s.noteDisagreement.putSlate { s.noteDisagreement.saf.slate with latched := true }).refreshSaf))) := by
  unfold State.disagreement State.running
  cases s.sys.dev with
  | run => exact .inl ⟨rfl, nofun, rfl⟩
  | degraded => exact .inl ⟨rfl, nofun, rfl⟩
  | selftest => exact .inr ⟨rfl, .inl rfl⟩
  | ready => exact .inr ⟨rfl, .inr ⟨nofun, .inr rfl⟩⟩
  | off => exact .inr ⟨rfl, .inr ⟨nofun, .inl rfl⟩⟩
  | reset => exact .inr ⟨rfl, .inr ⟨nofun, .inl rfl⟩⟩
  | boot => exact .inr ⟨rfl, .inr ⟨nofun, .inl rfl⟩⟩
  | safestop => exact .inr ⟨rfl, .inr ⟨nofun, .inl rfl⟩⟩
  | frozen => exact .inr ⟨rfl, .inr ⟨nofun, .inl rfl⟩⟩

theorem disagreement_shows (s : State) :
    s.disagreement.bit Reg.SAF_STAT 1 = true ∧ s.disagreement.rdN Reg.SAF_XCMP_CNT = min (s.rdN Reg.SAF_XCMP_CNT + 1) 0xFFFFFFFF ∧
      (s.running = true → s.disagreement.bit Reg.SYS_STOP_CAUSE 4 = true ∧ .safestop ∈ s.disagreement.sys.triggers) ∧
      (s.sys.dev = .selftest → s.disagreement.saf.slate.failed = true) ∧ s.SameMemory s.disagreement := by
  obtain ⟨hbit, hcnt, hnote⟩ := noteDisagreement_shows s
  have hput := putSlate_safety s.noteDisagreement
  rcases disagreement_cases s with ⟨hrun, hno, h⟩ | ⟨hrun, h | ⟨hno, h | h⟩⟩ <;> rw [h]
  · have hstop := (stopCause_triggers s.noteDisagreement .compare).safety
    exact ⟨(hstop.bit (by decide) 1).trans hbit, (hstop.rdN (by decide)).trans hcnt,
      fun _ => stopCause_running (hnote.running.trans hrun) .compare, fun hd => absurd hd hno, (hnote.trans hstop).memory⟩
  · exact ⟨((hput _).bit List.not_mem_nil 1).trans hbit, ((hput _).rdN List.not_mem_nil).trans hcnt,
      fun hr => absurd hr (ne_true_of_eq_false hrun), fun _ => by rw [putSlate_slate], (hnote.trans (hput _)).memory⟩
  · exact ⟨hbit, hcnt, fun hr => absurd hr (ne_true_of_eq_false hrun), fun hd => absurd hd hno, hnote.memory⟩
  · have hfollow := (hput { s.noteDisagreement.saf.slate with latched := true }).trans (refreshSaf_safety _)
    refine ⟨?_, (hfollow.rdN (by decide)).trans hcnt, fun hr => absurd hr (ne_true_of_eq_false hrun), fun hd => absurd hd hno,
      (hnote.trans hfollow).memory⟩
    rw [bit_refreshSaf (by decide) (by decide), (hput _).bit List.not_mem_nil, hbit]

/-! ### Slate compares, rules R218 and R219 -/

theorem slateStart_eq {s : State} (hon : s.bit Reg.SAF_STAT 12 = true) (hc : s.saf.slate.comparing = false)
    (ht : s.saf.slate.since + 20000000 ≤ s.tickMono) :
    s.slateStart = { s with saf := { s.saf with slate := { s.saf.slate with comparing := true, first := s.mono, count := 0, clean := false } } } :=
  if_pos (by simp [hon, hc, ht])

/-- A result of a waiting record counts, and the record waits no more. -/
def State.takeResult (s : State) (k : Nat) : State :=
  { s with saf := { s.saf with slate := { s.saf.slate with
    count := s.saf.slate.count + 1, waiting := s.saf.slate.waiting.filter (fun r => r.tick != k) } } }

theorem slateResult_agrees {s : State} {k : Nat} (hc : s.saf.slate.comparing = true)
    (hw : s.saf.slate.waiting.any (fun r => r.tick == k) = true) (hb : s.safetyBad 0xA1 = []) : s.slateResult k true = s.takeResult k := by
  unfold State.slateResult
  rw [if_pos (by rw [hc, hw]; rfl)]
  have hb' : (s.takeResult k).safetyBad 0xA1 = [] := hb
  exact if_pos (show (true && ((s.takeResult k).safetyBad 0xA1).isEmpty) = true by rw [hb']; rfl)

theorem slateResult_disagrees {s : State} {k : Nat} {agree : Bool} (hc : s.saf.slate.comparing = true)
    (hw : s.saf.slate.waiting.any (fun r => r.tick == k) = true) (hb : agree = false ∨ s.safetyBad 0xA1 ≠ []) :
    s.slateResult k agree = ((s.takeResult k).safetyFound 0xA1).disagreement := by
  have hno : ¬(agree && ((s.takeResult k).safetyBad 0xA1).isEmpty) = true := by
    rw [Bool.and_eq_true, List.isEmpty_iff]
    rintro ⟨hagree, hempty⟩
    exact hb.elim (fun h => Bool.false_ne_true (h.symm.trans hagree)) fun h => h hempty
  unfold State.slateResult
  rw [if_pos (by rw [hc, hw]; rfl)]
  exact if_neg hno

theorem slateDisagrees_clause (s : State) (k : Nat) {t : State} (h : t = ((s.takeResult k).safetyFound 0xA1).disagreement) :
    t.bit Reg.SAF_STAT 1 = true ∧ t.rdN Reg.SAF_XCMP_CNT = min (s.rdN Reg.SAF_XCMP_CNT + 1) 0xFFFFFFFF ∧
      (s.running = true → t.bit Reg.SYS_STOP_CAUSE 4 = true ∧ .safestop ∈ t.sys.triggers) ∧
      (s.sys.dev = .selftest → t.saf.slate.failed = true) ∧ s.SameMemory t := by
  have htake : s.SafetyFrame (s.takeResult k) [] := withSaf_safety s _
  have hfound := htake.trans (safetyFound_safety (s.takeResult k) 0xA1)
  obtain ⟨hbit, hcnt, hrun, hself, hmem⟩ := disagreement_shows ((s.takeResult k).safetyFound 0xA1)
  rw [← h] at hbit hcnt hrun hself hmem
  rw [hfound.rdN (by decide)] at hcnt
  rw [hfound.running] at hrun
  rw [hfound.dev] at hself
  exact ⟨hbit, hcnt, hrun, hself, hfound.memory.trans hmem⟩

/-- Slate has compared clean. -/
def State.noteClean (s : State) : State := { s with saf := { s.saf with slate := { s.saf.slate with clean := true } } }

theorem slateCleaned_eq {s : State} (hc : s.saf.slate.comparing = true) : s.slateCleaned = s.noteClean.returnCheck.refreshSaf := if_pos hc

theorem slateClean_clause {s : State} (hd : s.sys.dev = .degraded) (hon : s.bit Reg.SAF_STAT 12 = true) {t : State}
    (h : t = s.noteClean.returnCheck.refreshSaf) :
    t.saf.slate.clean = true ∧ (s.classes = 0 → .run ∈ t.sys.triggers) ∧ s.SameRegs t [Reg.SAF_STAT] ∧ s.SameMemory t := by
  have hnote : s.SafetyFrame s.noteClean [] := withSaf_safety s _
  have hcheck := hnote.trans (returnCheck_triggers s.noteClean).safety
  have hunlatch := (unlatch_frame s.noteClean.returnCheck).safety
  have hwant : s.noteClean.returnCheck.unlatch.slateWant = true := slateWant_of_degraded (hunlatch.dev.trans (hcheck.dev.trans hd))
  have hpower := refreshSaf_powered (hwant.trans ((hcheck.bit (by simp) 12).trans hon).symm)
  have hmem := (hcheck.trans (refreshSaf_safety s.noteClean.returnCheck)).memory
  rw [← h] at hmem
  refine ⟨?_, fun hclasses => ?_, fun a ha => ?_, hmem⟩
  · rw [h, hpower, State.setBit_saf, unlatch_clean, returnCheck_saf]
    rfl
  · rw [h, refreshSaf_sys]
    exact mem_returnCheck hd hclasses rfl
  · rw [h, hpower, rd_setBit_ne (by simpa using ha), rd_unlatch, hcheck.1 a (by simp)]

/-! ### The obligation -/

/-- Settles O41: a class set or cleared changes SAF_DEG and the triggers alone; a disagreement is noted, and what it leads to depends on the
device state. -/
theorem degradedAndSlate : Obligations.DegradedAndSlate := by
  refine ⟨?_, ?_, ?_, ?_, ?_, ?_, ?_, ?_⟩
  · intro s hd
    exact ⟨_, rfl, degradeMaxExpiry_clause hd⟩
  · intro s c ht hon hc
    obtain ⟨hoff, hother, hrun, -, hframe⟩ := clearClass_shows s c.isLt
    exact ⟨_, congrArg Host.Outcome.next (degradeFaultClear_eq ht hon hc), hoff, fun k hk => hother k.val (Fin.val_ne_of_ne hk), hrun,
      hframe.1, hframe.memory⟩
  · intro s n ht hs
    exact ⟨_, rfl, selftestFailed_clause ht hs n.val (periodicSelftest_failed ht n.val)⟩
  · intro s n ht hf hon
    obtain ⟨heq, hnone⟩ := periodicSelftest_passed ht n hf hon
    obtain ⟨hoff, -, -, hfail, hframe⟩ := clearClass_shows (s.noteSelftest n.val true) (c := 1) (by decide)
    exact ⟨_, congrArg Host.Outcome.next heq, hoff, hfail.trans hnone, hframe.1, hframe.memory⟩
  · intro s hon hc ht
    exact ⟨_, congrArg Host.Outcome.next (slateStart_eq hon hc ht), rfl, rfl, rfl, rfl, rfl⟩
  · intro s k hc hw hb
    exact ⟨_, rfl, slateResult_agrees hc hw hb⟩
  · intro s k agree hc hw hb
    exact ⟨_, rfl, slateDisagrees_clause s k (slateResult_disagrees hc hw hb)⟩
  · intro s hd hc hon
    exact ⟨_, rfl, slateClean_clause hd hon (slateCleaned_eq hc)⟩

end Sys2Proof.Machine
end

section
/-! SUPPORT. The proof test (O42). -/

namespace Sys2Proof.Machine

/-! ### SAF_PT_START, rule R224 -/

theorem testBit_fld (s : State) (a hi lo i : Nat) : (s.fld a hi lo).testBit i = (decide (i < hi + 1 - lo) && s.bit a (i + lo)) :=
  testBit_bitsOf _ _ _ _

/-- A field from bit 0 up of which a lower part is written again with the same value. -/
theorem fld_setFld_again {hi m : Nat} (hm : m ≤ hi) (hb : hi < 32) (s : State) (a v : Nat) :
    ((s.setFld a hi 0 v).setFld a m 0 v).fld a hi 0 = v % 2 ^ (hi + 1) := by
  refine Nat.eq_of_testBit_eq fun i => ?_
  rw [testBit_fld, Nat.testBit_mod_two_pow, bit_setFld (Nat.zero_le _) (by omega), bit_setFld (Nat.zero_le _) hb]
  simp only [Nat.sub_zero, Nat.add_zero, Nat.zero_le, true_and]
  by_cases hi' : i < hi + 1
  · rw [if_pos (show i ≤ hi by omega), ite_self]
  · rw [decide_eq_false hi', Bool.false_and, Bool.false_and]

theorem ptEnter_safety (s : State) (k : Nat) : s.SafetyFrame (s.ptEnter k) [Reg.SAF_PT_STAT] :=
  (setFld_writes s Reg.SAF_PT_STAT 3 0 k).safety.trans (withSaf_safety _ _)

theorem rd_ptEnter (s : State) (k a : Nat) : (s.ptEnter k).rd a = (s.setFld Reg.SAF_PT_STAT 3 0 k).rd a := rfl

theorem ptStart_eq {s : State} (hd : s.sys.dev = .ready) (hi : s.bit Reg.SAF_PT_CMD 0 = false) :
    s.ptStart = (((s.setBit Reg.SAF_PT_CMD 0 true).setFld Reg.SAF_PT_STAT 5 0 1).ptEnter 1).refreshSaf := if_pos ⟨hd, hi⟩

theorem ptStart_clause {s t : State} (h : t = (((s.setBit Reg.SAF_PT_CMD 0 true).setFld Reg.SAF_PT_STAT 5 0 1).ptEnter 1).refreshSaf) :
    t.bit Reg.SAF_PT_CMD 0 = true ∧ t.fld Reg.SAF_PT_STAT 5 0 = 1 ∧ t.bit Reg.SAF_STAT 12 = true ∧
      s.SameRegs t [Reg.SAF_PT_CMD, Reg.SAF_PT_STAT, Reg.SAF_STAT, Reg.PWR_DOM_STAT, Reg.CDC_STAT] ∧ s.SameMemory t := by
  have hset := (setBit_writes s Reg.SAF_PT_CMD 0 true).trans (setFld_writes _ Reg.SAF_PT_STAT 5 0 1)
  have henter := ptEnter_safety ((s.setBit Reg.SAF_PT_CMD 0 true).setFld Reg.SAF_PT_STAT 5 0 1) 1
  have hstat := fld_of_rd (rd_ptEnter ((s.setBit Reg.SAF_PT_CMD 0 true).setFld Reg.SAF_PT_STAT 5 0 1) 1 Reg.SAF_PT_STAT) 5 0
  have hcmd : (((s.setBit Reg.SAF_PT_CMD 0 true).setFld Reg.SAF_PT_STAT 5 0 1).ptEnter 1).bit Reg.SAF_PT_CMD 0 = true := by
    rw [henter.bit (by decide), bit_of_rd (rd_setFld_ne (by decide) _ _ _ _), bit_setBit_self (by decide)]
  generalize ((s.setBit Reg.SAF_PT_CMD 0 true).setFld Reg.SAF_PT_STAT 5 0 1).ptEnter 1 = u at h henter hstat hcmd
  have hfollow := refreshSaf_safety u
  rw [← h] at hfollow
  have hall := hset.safety.trans (henter.trans hfollow)
  refine ⟨by rw [hfollow.bit (by decide), hcmd], ?_, ?_, (hall.mono (by decide)).1, hall.memory⟩
  · rw [hfollow.fld (by decide), hstat, fld_setFld_again (by decide) (by decide), Nat.one_mod_two_pow (by decide)]
  · rw [h, slateOn_refreshSaf]
    exact slateWant_of_proofTest (((unlatch_frame u).safety.bit (by decide) 0).trans hcmd)

/-! ### A test that passes, rule R225 -/

/-- The page of a test that passes. -/
def State.notePass (s : State) : State :=
  let s1 := (s.setBit Reg.SAF_PT_CMD 0 false).event Page.SAF 5 0
  ((((s1.setBit Reg.SAF_STAT 10 false).setBit Reg.SAF_STAT 9 false).wr Reg.SAF_PT_HOURS 0).inc Reg.SAF_PT_CNT).setFld Reg.SAF_PT_STAT 5 0 22

/-- The hours count from now on. -/
def State.restartHours (s : State) : State := { s with saf := { s.saf with ptBase := s.mono } }

theorem ptPass_eq (s : State) : s.ptPass = s.notePass.restartHours.refreshSaf := rfl

theorem notePass_signals (s : State) :
    s.Signals s.notePass [Reg.SAF_PT_CMD, Reg.PG_IRQ_RAW Page.SAF, Reg.SAF_STAT, Reg.SAF_PT_HOURS, Reg.SAF_PT_CNT, Reg.SAF_PT_STAT] :=
  (((setBit_writes s Reg.SAF_PT_CMD 0 false).signals.trans (event_signals _ _ _ _)).trans
    (((((setBit_writes _ _ _ _).trans (setBit_writes _ _ _ _)).trans (wr_writes _ _ _)).trans (inc_writes _ _)).trans
      (setFld_writes _ _ _ _ _)).signals).mono (by decide)

theorem notePass_page (s : State) :
    s.notePass.bit Reg.SAF_PT_CMD 0 = false ∧ s.notePass.bit Reg.SAF_STAT 10 = false ∧ s.notePass.bit Reg.SAF_STAT 9 = false ∧
      s.notePass.rdN Reg.SAF_PT_HOURS = 0 ∧ s.notePass.rdN Reg.SAF_PT_CNT = min (s.rdN Reg.SAF_PT_CNT + 1) 0xFFFFFFFF ∧
      s.notePass.fld Reg.SAF_PT_STAT 5 0 = 22 := by
  unfold State.notePass
  refine ⟨?_, ?_, ?_, ?_, ?_, fld_setFld (by decide) (by decide) _ _ _⟩
  · rw [bit_of_rd (rd_setFld_ne (by decide) _ _ _ _), bit_of_rd (rd_inc_ne (by decide) _), bit_of_rd (rd_wr_ne (by decide) _ _),
      bit_of_rd (rd_setBit_ne (by decide) _ _ _), bit_of_rd (rd_setBit_ne (by decide) _ _ _), bit_of_rd (rd_event (by decide) _ _ _),
      bit_setBit_self (by decide)]
  · rw [bit_of_rd (rd_setFld_ne (by decide) _ _ _ _), bit_of_rd (rd_inc_ne (by decide) _), bit_of_rd (rd_wr_ne (by decide) _ _),
      bit_setBit (by decide), if_neg (by decide), bit_setBit_self (by decide)]
  · rw [bit_of_rd (rd_setFld_ne (by decide) _ _ _ _), bit_of_rd (rd_inc_ne (by decide) _), bit_of_rd (rd_wr_ne (by decide) _ _),
      bit_setBit_self (by decide)]
  · rw [rdN_of_rd (rd_setFld_ne (by decide) _ _ _ _), rdN_of_rd (rd_inc_ne (by decide) _)]
    unfold State.rdN
    rw [rd_wr_self]
    rfl
  · rw [rdN_of_rd (rd_setFld_ne (by decide) _ _ _ _), rdN_inc, rdN_of_rd (rd_wr_ne (by decide) _ _),
      rdN_of_rd (rd_setBit_ne (by decide) _ _ _), rdN_of_rd (rd_setBit_ne (by decide) _ _ _), rdN_of_rd (rd_event (by decide) _ _ _),
      rdN_of_rd (rd_setBit_ne (by decide) _ _ _)]

theorem ptPass_clause {s t : State} (h : t = s.notePass.restartHours.refreshSaf) :
    t.bit Reg.SAF_PT_CMD 0 = false ∧ t.bit Reg.SAF_STAT 10 = false ∧ t.bit Reg.SAF_STAT 9 = false ∧ t.rdN Reg.SAF_PT_HOURS = 0 ∧
      t.rdN Reg.SAF_PT_CNT = min (s.rdN Reg.SAF_PT_CNT + 1) 0xFFFFFFFF ∧ t.fld Reg.SAF_PT_STAT 5 0 = 22 ∧ s.SameMemory t := by
  obtain ⟨hcmd, hfail, hdue, hhours, hcnt, hstat⟩ := notePass_page s
  have hrestart : s.notePass.SafetyFrame s.notePass.restartHours [] := withSaf_safety _ _
  have hfollow := hrestart.trans (refreshSaf_safety s.notePass.restartHours)
  have hbit : ∀ i, i ≠ 11 → i ≠ 12 → t.bit Reg.SAF_STAT i = s.notePass.bit Reg.SAF_STAT i := fun i h1 h2 => by
    rw [h, bit_refreshSaf h1 h2, hrestart.bit List.not_mem_nil]
  rw [← h] at hfollow
  exact ⟨(hfollow.bit (by decide) 0).trans hcmd, (hbit 10 (by decide) (by decide)).trans hfail, (hbit 9 (by decide) (by decide)).trans hdue,
    (hfollow.rdN (by decide)).trans hhours, (hfollow.rdN (by decide)).trans hcnt, (hfollow.fld (by decide) 5 0).trans hstat,
    ((notePass_signals s).safety.trans hfollow).memory⟩

/-! ### A test that fails, rule R225 -/

/-- The test ends, and the outputs that it switched on are off. -/
def State.endPulses (s : State) : State := ((s.setBit Reg.SAF_PT_CMD 0 false).event Page.SAF 5 0).setPulse 0

/-- The page of a test that fails at step `k`. -/
def State.noteFail (s : State) (k : Nat) : State := (s.endPulses.setBit Reg.SAF_STAT 10 true).setFld Reg.SAF_PT_STAT 5 0 (32 + k)

theorem ptFail_eq (s : State) (k : Nat) : s.ptFail k = (s.noteFail k).refreshSaf := rfl

theorem setPulse_safety (s : State) (m : Nat) : s.SafetyFrame (s.setPulse m) [Reg.FIO_DQ_RB] :=
  (withField_safety s _).trans (refreshDq_safety _)

theorem setPulse_pulse (s : State) (m : Nat) : (s.setPulse m).field.pulse = BitVec.ofNat 16 m := by
  unfold State.setPulse
  rw [refreshDq_field]

theorem endPulses_safety (s : State) : s.SafetyFrame s.endPulses [Reg.SAF_PT_CMD, Reg.PG_IRQ_RAW Page.SAF, Reg.FIO_DQ_RB] :=
  ((setBit_writes _ _ _ _).safety.trans (event_signals _ _ _ _).safety).trans (setPulse_safety _ _)

theorem noteFail_page (s : State) {k : Nat} (hk : k < 32) :
    (s.noteFail k).bit Reg.SAF_PT_CMD 0 = false ∧ (s.noteFail k).bit Reg.SAF_STAT 10 = true ∧
      (s.noteFail k).fld Reg.SAF_PT_STAT 5 0 = 32 + k ∧ (s.noteFail k).field.pulse = 0 ∧
      s.SafetyFrame (s.noteFail k) [Reg.SAF_PT_CMD, Reg.PG_IRQ_RAW Page.SAF, Reg.FIO_DQ_RB, Reg.SAF_STAT, Reg.SAF_PT_STAT] := by
  have hw := (setBit_writes s.endPulses Reg.SAF_STAT 10 true).trans (setFld_writes _ Reg.SAF_PT_STAT 5 0 (32 + k))
  refine ⟨?_, ?_, ?_, ?_, (endPulses_safety s).trans hw.safety⟩
  · refine (hw.safety.bit (by decide) 0).trans ?_
    unfold State.endPulses
    rw [(setPulse_safety _ 0).bit (by decide), bit_of_rd (rd_event (by decide) _ _ _), bit_setBit_self (by decide)]
  · unfold State.noteFail
    rw [bit_of_rd (rd_setFld_ne (by decide) _ _ _ _), bit_setBit_self (by decide)]
  · unfold State.noteFail
    rw [fld_setFld (by decide) (by decide)]
    exact Nat.mod_eq_of_lt (by omega)
  · exact (congrArg Field.pulse hw.signals.field).trans (setPulse_pulse _ 0)

theorem ptFail_clause {s : State} (k : Fin 6) {t : State} (h : t = (s.noteFail (k.val + 1)).refreshSaf) :
    t.bit Reg.SAF_PT_CMD 0 = false ∧ t.bit Reg.SAF_STAT 10 = true ∧ t.bit Reg.SAF_STAT 11 = false ∧
      t.fld Reg.SAF_PT_STAT 5 0 = 33 + k.val ∧ t.field.pulse = 0 ∧ t.rdN Reg.SAF_PT_CNT = s.rdN Reg.SAF_PT_CNT ∧ s.SameMemory t := by
  obtain ⟨hcmd, hfail, hstat, hpulse, hframe⟩ := noteFail_page s (k := k.val + 1) (by omega)
  have hfollow := refreshSaf_safety (s.noteFail (k.val + 1))
  rw [← h] at hfollow
  refine ⟨(hfollow.bit (by decide) 0).trans hcmd, ?_, ?_, ?_, ?_, (hframe.trans hfollow).rdN (by decide), (hframe.trans hfollow).memory⟩
  · rw [h, bit_refreshSaf (by decide) (by decide), hfail]
  · rw [h, startOk_refreshSaf_of_failed hfail]
  · rw [hfollow.fld (by decide), hstat]
    omega
  · rw [h, refreshSaf_field, hpulse]

/-! ### Hours, rule R224 -/

theorem ptHours_writes (s : State) (n : Nat) : s.Writes (s.ptHours n) [Reg.SAF_PT_HOURS] := wrN_writes _ _ _

theorem rdN_ptHours (s : State) {n : Nat} (h : n < 2 ^ 32) : (s.ptHours n).rdN Reg.SAF_PT_HOURS = max (s.rdN Reg.SAF_PT_HOURS) n := by
  unfold State.ptHours
  rw [rdN_wrN_self]
  exact Nat.mod_eq_of_lt (Nat.max_lt.mpr ⟨rdN_lt s _, h⟩)

/-- A field of at most 16 bits. -/
theorem effFld_lt (s : State) (a hi lo : Nat) (h : hi + 1 - lo ≤ 16) : s.effFld a hi lo < 65536 :=
  Nat.lt_of_lt_of_le (Nat.mod_lt _ (Nat.two_pow_pos _)) (Nat.pow_le_pow_right (by decide) h)

/-- The page of a proof test that is due, before its alarm. -/
def State.noteDue (s : State) : State := (s.ptHours (s.effFld Reg.SAF_CTRL 31 16)).setBit Reg.SAF_STAT 9 true

theorem ptDue_eq {s : State} (hc : s.clocked = true) : s.ptDue = (s.noteDue.alarm Page.SAF 5 0).refreshSaf := if_pos hc

theorem ptDue_clause {s : State} (hc : s.clocked = true) {t : State} (h : t = (s.noteDue.alarm Page.SAF 5 0).refreshSaf) :
    t.rdN Reg.SAF_PT_HOURS = max (s.rdN Reg.SAF_PT_HOURS) (s.effFld Reg.SAF_CTRL 31 16) ∧ t.bit Reg.SAF_STAT 9 = true ∧
      t.evt.raisings = s.evt.raisings ++ [⟨Page.SAF, 5, true, 0, s.now⟩] ∧ s.SameMemory t := by
  have hlt := effFld_lt s Reg.SAF_CTRL 31 16 (by decide)
  have hw : s.Writes s.noteDue [Reg.SAF_PT_HOURS, Reg.SAF_STAT] := (ptHours_writes _ _).trans (setBit_writes _ _ _ _)
  have hr := hw.alarm hc (by decide) (by decide) Page.SAF 5 0
  have hfollow := refreshSaf_safety (s.noteDue.alarm Page.SAF 5 0)
  rw [← h] at hfollow
  refine ⟨?_, ?_, ?_, (hr.signals.safety.trans hfollow).memory⟩
  · rw [hfollow.rdN (by decide), rdN_of_rd (rd_alarm (by decide) _ _ _)]
    unfold State.noteDue
    rw [rdN_of_rd (rd_setBit_ne (by decide) _ _ _), rdN_ptHours s (by omega)]
  · rw [h, bit_refreshSaf (by decide) (by decide), bit_of_rd (rd_alarm (by decide) _ _ _)]
    unfold State.noteDue
    rw [bit_setBit_self (by decide)]
  · rw [h, refreshSaf_evt, hr.2]

theorem ptGraceExpiry_eq {s : State} (hc : s.clocked = true) :
    s.ptGraceExpiry = (s.ptHours (s.effFld Reg.SAF_CTRL 31 16 + s.effFld Reg.SAF_PT_GRACE 15 0 + 1)).refreshSaf := if_pos hc

theorem ptGraceExpiry_clause {s t : State}
    (h : t = (s.ptHours (s.effFld Reg.SAF_CTRL 31 16 + s.effFld Reg.SAF_PT_GRACE 15 0 + 1)).refreshSaf) :
    t.rdN Reg.SAF_PT_HOURS = max (s.rdN Reg.SAF_PT_HOURS) (s.effFld Reg.SAF_CTRL 31 16 + s.effFld Reg.SAF_PT_GRACE 15 0 + 1) ∧
      t.bit Reg.SAF_STAT 11 = false ∧ s.SameMemory t := by
  have hctrl := effFld_lt s Reg.SAF_CTRL 31 16 (by decide)
  have hgrace := effFld_lt s Reg.SAF_PT_GRACE 15 0 (by decide)
  have hw := (ptHours_writes s (s.effFld Reg.SAF_CTRL 31 16 + s.effFld Reg.SAF_PT_GRACE 15 0 + 1)).safety
  have hhours := rdN_ptHours s (n := s.effFld Reg.SAF_CTRL 31 16 + s.effFld Reg.SAF_PT_GRACE 15 0 + 1) (by omega)
  generalize s.ptHours (s.effFld Reg.SAF_CTRL 31 16 + s.effFld Reg.SAF_PT_GRACE 15 0 + 1) = u at h hw hhours
  have hfollow := refreshSaf_safety u
  rw [← h] at hfollow
  refine ⟨(hfollow.rdN (by decide)).trans hhours, ?_, (hw.trans hfollow).memory⟩
  rw [h]
  refine startOk_refreshSaf_of_overdue (decide_eq_true ?_)
  rw [hw.effFld (by decide), hw.effFld (by decide), hhours]
  omega

/-! ### The obligation -/

/-- Settles O42: the test's start, its two ends and the hours each write the page; Slate's power and the start permission follow what it then
shows. -/
theorem proofTest : Obligations.ProofTest := by
  refine ⟨?_, ?_, ?_, ?_, ?_⟩
  · intro s ag hw hd hi
    exact completes_write hw rfl (ptStart_clause (ptStart_eq hd hi))
  · intro s hrun hdone
    have heq : s.ptEnd none = s.ptPass := (if_pos hrun).trans (if_pos hdone)
    exact ⟨_, rfl, ptPass_clause (heq.trans (ptPass_eq s))⟩
  · intro s k hrun hdone hk
    have heq : s.ptEnd (some (k.val + 1)) = s.ptFail (k.val + 1) := (if_pos hrun).trans (if_pos ⟨hk.symm, hdone⟩)
    exact ⟨_, rfl, ptFail_clause k (heq.trans (ptFail_eq s _))⟩
  · intro s hc
    exact ⟨_, rfl, ptDue_clause hc (ptDue_eq hc)⟩
  · intro s hc
    exact ⟨_, rfl, ptGraceExpiry_clause (ptGraceExpiry_eq hc)⟩

end Sys2Proof.Machine
end

section
/-! SUPPORT. The seal, the password and the change log (O43). -/

namespace Sys2Proof.Machine

theorem b2n_eq_b2n {a b : Bool} : b2n a = b2n b ↔ a = b := by cases a <;> cases b <;> decide

/-! ### The change log, rules R233 and R234 -/

theorem t40_of_rd {s t : State} (h : t.rd Reg.SAF_SEAL_CFG = s.rd Reg.SAF_SEAL_CFG) : t.t40 = s.t40 := bit_of_rd h 0

/-- A log entry changes the log, its sequence number and the flash. -/
theorem logOp_eq (s : State) (n op result : Nat) (old new : Word × Word) :
    s.logOp n op result old new = { s with
      flash := (s.logOp n op result old new).flash
      saf := { s.saf with log := (s.logOp n op result old new).saf.log, logSeq := (s.logOp n op result old new).saf.logSeq } } := by
  unfold State.logOp
  split <;> rfl

theorem rd_logOp (s : State) (n op result : Nat) (old new : Word × Word) (a : Nat) : (s.logOp n op result old new).rd a = s.rd a := by
  rw [logOp_eq]; rfl

theorem logOp_length (s : State) (n op result : Nat) (old new : Word × Word) :
    (s.logOp n op result old new).saf.log.length = s.saf.log.length + b2n s.t40 := by
  unfold State.logOp
  by_cases h : s.t40 = true
  · rw [if_pos h, h]
    exact List.length_append
  · rw [if_neg h, eq_false_of_ne_true h]
    rfl

/-- Of the flash a log entry writes its own 64 bytes, under the T40 method. -/
theorem logOp_flash (s : State) (n op result : Nat) (old new : Word × Word) :
    (s.t40 = false → (s.logOp n op result old new).flash = s.flash) ∧
      ∀ i, i < 0x1304000 + 64 * (s.saf.logSeq % 256) ∨ 0x1304040 + 64 * (s.saf.logSeq % 256) ≤ i →
        (s.logOp n op result old new).flash.get8 i = s.flash.get8 i := by
  unfold State.logOp
  by_cases h : s.t40 = true
  · rw [if_pos h]
    exact ⟨fun hno => absurd h (ne_true_of_eq_false hno), fun i hi => Memory.get8_setN 64 _ _ _ i (by omega)⟩
  · rw [if_neg h]
    exact ⟨fun _ => rfl, fun _ _ => rfl⟩

/-- A log entry after changes that reach no memory and leave the method and the sequence number. -/
theorem logOp_memory {s u : State} (hm : s.SameMemory u) (ht : u.t40 = s.t40) (hq : u.saf.logSeq = s.saf.logSeq) (n op result : Nat)
    (old new : Word × Word) : s.LogMemory (u.logOp n op result old new) := by
  obtain ⟨hcell, hdram, hflash, hcode, hdata⟩ := hm
  obtain ⟨hnone, hother⟩ := logOp_flash u n op result old new
  rw [ht, hflash] at hnone
  rw [hq, hflash] at hother
  have heq := logOp_eq u n op result old new
  exact ⟨by rw [heq, hcell], by rw [heq, hdram], by rw [heq, hcode], by rw [heq, hdata], hnone, hother⟩

theorem State.LogMemory.trans {s u t : State} (h : s.LogMemory u) (k : u.SameMemory t) : s.LogMemory t := by
  obtain ⟨hcell, hdram, hcode, hdata, hnone, hother⟩ := h
  obtain ⟨kcell, kdram, kflash, kcode, kdata⟩ := k
  exact ⟨kcell.trans hcell, kdram.trans hdram, kcode.trans hcode, kdata.trans hdata, fun ht => kflash.trans (hnone ht),
    fun i hi => (congrArg (Memory.get8 · i) kflash).trans (hother i hi)⟩

/-- What follows the first element that meets a predicate: fewer elements, the last ones. -/
theorem drop_dropWhile_shorter {α : Type} {p : α → Bool} {l : List α} (h : l.any p = true) :
    ((l.dropWhile (fun x => !p x)).drop 1).length < l.length ∧ (l.dropWhile (fun x => !p x)).drop 1 <:+ l := by
  have hsuffix := List.dropWhile_suffix (l := l) (fun x => !p x)
  have hne : l.dropWhile (fun x => !p x) ≠ [] := by
    obtain ⟨x, hx, hp⟩ := List.any_eq_true.mp h
    intro hnil
    have := List.dropWhile_eq_nil_iff.mp hnil x hx
    rw [hp] at this
    cases this
  have hpos := List.length_pos_iff.mpr hne
  have hle := hsuffix.length_le
  exact ⟨by rw [List.length_drop]; omega, (List.drop_suffix 1 _).trans hsuffix⟩

/-! ### The T40 seal, rule R232 -/

theorem sealOpen_right {s : State} (ht : s.t40 = true) (hl : s.saf.lockout = false) (hd : s.sys.dev = .boot ∨ s.sys.dev = .ready)
    (hp : s.saf.pwd = some s.pwdWords) : s.sealOpen = s.openSeal.refreshSaf := by
  unfold State.sealOpen
  rw [if_neg (by rcases hd with hd | hd <;> simp [ht, hl, hd]), if_pos (by simp [hp])]

/-- A wrong password counts, and the fifth in a row locks. -/
def State.countFailure (s : State) : State :=
  { s.inc Reg.SAF_PWD_FAIL_CNT with saf := { s.saf with pwdFails := s.saf.pwdFails + 1, lockout := decide (5 ≤ s.saf.pwdFails + 1) } }

theorem sealOpen_wrong {s : State} (ht : s.t40 = true) (hl : s.saf.lockout = false) (hd : s.sys.dev = .boot ∨ s.sys.dev = .ready)
    (hp : s.saf.pwd ≠ some s.pwdWords) : s.sealOpen = s.countFailure := by
  unfold State.sealOpen
  rw [if_neg (by rcases hd with hd | hd <;> simp [ht, hl, hd]), if_neg (by simpa using hp)]
  rfl

theorem sealOpened_clause {s t : State} (h : t = s.openSeal.refreshSaf) :
    t.bit Reg.SAF_STAT 7 = true ∧ t.saf.t40Open = true ∧ t.saf.pwdFails = 0 ∧
      s.SameRegs t [Reg.SAF_STAT, Reg.PG_IRQ_RAW Page.SAF, Reg.PWR_DOM_STAT, Reg.CDC_STAT] ∧ s.SameMemory t := by
  have hsaf := withSaf_safety s { s.saf with t40Open := true, pwdFails := 0 }
  have hset := setBit_writes { s with saf := { s.saf with t40Open := true, pwdFails := 0 } } Reg.SAF_STAT 7 true
  have hraise := event_signals (({ s with saf := { s.saf with t40Open := true, pwdFails := 0 } } : State).setBit Reg.SAF_STAT 7 true) Page.SAF 6 0
  have hopen : s.openSeal.saf = { s.saf with t40Open := true, pwdFails := 0 } := hraise.saf.trans hset.signals.saf
  have hbit : s.openSeal.bit Reg.SAF_STAT 7 = true := by
    unfold State.openSeal
    rw [bit_of_rd (rd_event (by decide) _ _ _), bit_setBit_self (by decide)]
  have hall := (hsaf.trans (hset.safety.trans hraise.safety)).trans (refreshSaf_safety s.openSeal)
  subst h
  exact ⟨(bit_refreshSaf (by decide) (by decide) _).trans hbit, by rw [refreshSaf_saf, hopen], by rw [refreshSaf_saf, hopen],
    (hall.mono (by decide)).1, hall.memory⟩

theorem countFailure_clause (s : State) :
    s.countFailure.rdN Reg.SAF_PWD_FAIL_CNT = min (s.rdN Reg.SAF_PWD_FAIL_CNT + 1) 0xFFFFFFFF ∧
      s.countFailure.saf.lockout = decide (5 ≤ s.saf.pwdFails + 1) ∧ s.countFailure.bit Reg.SAF_STAT 7 = s.bit Reg.SAF_STAT 7 ∧
      s.SameRegs s.countFailure [Reg.SAF_PWD_FAIL_CNT] ∧ s.SameMemory s.countFailure := by
  have hframe : s.SafetyFrame s.countFailure [Reg.SAF_PWD_FAIL_CNT] :=
    (inc_writes s Reg.SAF_PWD_FAIL_CNT).safety.trans (withSaf_safety _ _)
  exact ⟨rdN_inc s Reg.SAF_PWD_FAIL_CNT, rfl, hframe.bit (by decide) 7, hframe.1, hframe.memory⟩

theorem sealClosed_clause {s : State} (ho : s.saf.t40Open = true) {t : State} (h : t = s.closeSeal.refreshSaf) :
    t.bit Reg.SAF_STAT 7 = false ∧ t.saf.t40Open = false ∧ s.SameRegs t followRegs ∧ s.SameMemory t := by
  have heq : s.closeSeal = ({ s with saf := { s.saf with t40Open := false } } : State).setBit Reg.SAF_STAT 7 false := if_pos ho
  have hclose := (withSaf_safety s { s.saf with t40Open := false }).trans (setBit_writes _ Reg.SAF_STAT 7 false).safety
  rw [← heq] at hclose
  have hall := hclose.trans (refreshSaf_safety s.closeSeal)
  rw [← h] at hall
  refine ⟨?_, ?_, (hall.mono (by decide)).1, hall.memory⟩
  · rw [h, bit_refreshSaf (by decide) (by decide), heq, bit_setBit_self (by decide)]
  · rw [h, refreshSaf_saf, heq, State.setBit_saf]

/-! ### Passwords and the method, rules R231 to R233 -/

/-- The password is replaced. -/
def State.putPassword (s : State) : State := { s with saf := { s.saf with pwd := some s.pwdWords } }

theorem passwordSet_eq {s : State} (ho : s.bit Reg.SAF_STAT 7 = true) (hp : pwdOk s.pwdWords = true) (hf : s.logFull = false) :
    s.passwordSet = s.putPassword.logOp (s.fld Reg.SAF_SEAL_CFG 7 4) 3 0 (s.setStamp (s.fld Reg.SAF_SEAL_CFG 7 4))
      (s.setStamp (s.fld Reg.SAF_SEAL_CFG 7 4)) := by
  unfold State.passwordSet
  rw [if_neg (by simp [ho, hp]), if_neg (ne_true_of_eq_false hf)]
  rfl

theorem passwordSet_clause {s : State} {n : Nat} {old new : Word × Word} {t : State} (h : t = s.putPassword.logOp n 3 0 old new) :
    t.saf.pwd = some s.pwdWords ∧ t.saf.log.length = s.saf.log.length + b2n s.t40 ∧ s.LogMemory t ∧
      t = { s with flash := t.flash, saf := { s.saf with pwd := t.saf.pwd, log := t.saf.log, logSeq := t.saf.logSeq } } := by
  have heq := logOp_eq s.putPassword n 3 0 old new
  rw [← h] at heq
  have hpwd : t.saf.pwd = some s.pwdWords := by rw [heq]; rfl
  have hput : s.SafetyFrame s.putPassword [] := withSaf_safety s _
  refine ⟨hpwd, ?_, ?_, ?_⟩
  · rw [h, logOp_length]
    rfl
  · rw [h]
    exact logOp_memory hput.memory rfl rfl _ _ _ _ _
  · rw [hpwd]
    exact heq

/-- The request of a method for the next SELFTEST. -/
def State.putMethod (s : State) (v : Word) : State :=
  ({ s with saf := { s.saf with methodNext := if b2n (v.getLsbD 1) = b2n s.t40 then none else some (b2n (v.getLsbD 1)) } } : State).setBit
    Reg.SAF_SEAL_CFG 1 (v.getLsbD 1)

theorem methodReq_eq {s : State} {v : Word} (hd : s.sys.dev = .ready) (ho : s.bit Reg.SAF_STAT 7 = true)
    (hp : v.getLsbD 1 = true → s.saf.pwd ≠ none) (hf : s.logFull = false) :
    s.methodReq v = (s.putMethod v).logOp (s.fld Reg.SAF_SEAL_CFG 7 4) 4 0 (s.setStamp (s.fld Reg.SAF_SEAL_CFG 7 4))
      (s.setStamp (s.fld Reg.SAF_SEAL_CFG 7 4)) := by
  have hno : ¬(s.sys.dev != .ready || !s.bit Reg.SAF_STAT 7 || (b2n (v.getLsbD 1) == 1 && s.saf.pwd.isNone)) = true := by
    cases hv : v.getLsbD 1 with
    | false => simp [hd, ho, b2n]
    | true => simpa [hd, ho, b2n] using hp hv
  unfold State.methodReq
  dsimp only
  rw [if_neg hno, if_neg (ne_true_of_eq_false hf)]
  rfl

theorem putMethod_safety (s : State) (v : Word) : s.SafetyFrame (s.putMethod v) [Reg.SAF_SEAL_CFG] :=
  (withSaf_safety s _).trans (setBit_writes _ _ _ _).safety

theorem putMethod_t40 (s : State) (v : Word) : (s.putMethod v).t40 = s.t40 := by
  unfold State.putMethod State.t40
  rw [bit_setBit (by decide), if_neg (by decide)]
  rfl

theorem methodReq_clause {s : State} {v : Word} {n : Nat} {old new : Word × Word} {t : State} (h : t = (s.putMethod v).logOp n 4 0 old new) :
    t.saf.methodNext = (if v.getLsbD 1 = s.t40 then none else some (b2n (v.getLsbD 1))) ∧ t.t40 = s.t40 ∧
      t.bit Reg.SAF_SEAL_CFG 1 = v.getLsbD 1 ∧ s.SameRegs t [Reg.SAF_SEAL_CFG] ∧ s.LogMemory t := by
  have hput := putMethod_safety s v
  have hrd : ∀ a, t.rd a = (s.putMethod v).rd a := fun a => by rw [h, rd_logOp]
  refine ⟨?_, (t40_of_rd (hrd _)).trans (putMethod_t40 s v), ?_, fun a ha => (hrd a).trans (hput.1 a ha), ?_⟩
  · rw [h, logOp_eq]
    exact if_congr b2n_eq_b2n rfl rfl
  · rw [bit_of_rd (hrd _)]
    exact bit_setBit_self (by decide) _ _ _
  · rw [h]
    exact logOp_memory hput.memory (putMethod_t40 s v) rfl _ _ _ _ _

theorem logClear_eq {s : State} {v : Word} (h : s.saf.log.any (fun e => e.head? == some v) = true) :
    s.logClear v = { s with saf := { s.saf with log := (s.saf.log.dropWhile (fun e => !(e.head? == some v))).drop 1 } } := if_pos h

/-! ### The obligation -/

/-- Settles O43: the password decides an attempt; a logged operation writes its own entry of the flash; what ends with CLOSE or the timeout is
the same closing. -/
theorem safetySeal : Obligations.SafetySeal := by
  refine ⟨?_, ?_, ?_, ?_, ?_, ?_, ?_, ?_, ?_⟩
  · intro s ag hw ht hl hd hp
    exact completes_write hw rfl (sealOpened_clause (sealOpen_right ht hl hd hp))
  · intro s ag hw ht hl hd hp
    refine completes_write hw rfl ?_
    rw [sealOpen_wrong ht hl hd hp]
    exact countFailure_clause s
  · intro s ag hw ho
    exact completes_write hw rfl (sealClosed_clause ho rfl)
  · intro s hc ho
    exact ⟨_, congrArg Host.Outcome.next (if_pos hc), sealClosed_clause ho rfl⟩
  · intro s hc
    exact ⟨_, congrArg Host.Outcome.next (if_pos hc), rfl⟩
  · intro s ag hw ho hp hf
    exact completes_write hw rfl (passwordSet_clause (passwordSet_eq ho hp hf))
  · intro s ag v hw hd ho hp hf
    exact completes_write hw rfl (methodReq_clause (methodReq_eq hd ho hp hf))
  · intro s ag v hw hany
    refine completes_write hw rfl ?_
    obtain ⟨hshort, hsuffix⟩ := drop_dropWhile_shorter hany
    rw [logClear_eq hany]
    exact ⟨hshort, hsuffix, rfl⟩
  · intro s line level hv
    exact ⟨_, congrArg Host.Outcome.next (if_pos hv), bit_setBit_self (by omega) _ _ _, setBit_writes _ _ _ _⟩

end Sys2Proof.Machine
end

section
/-! SUPPORT. Storing and loading a safety parameter set (O44). -/

/-! ### The first entry of a key -/

namespace Sys2Proof.Tab

variable {α : Type}

theorem find?_erase_self (m : List (Nat × α)) (k : Nat) : (erase k m).find? (fun e => e.1 == k) = none := by
  induction m with
  | nil => rfl
  | cons e m ih =>
    obtain ⟨a, w⟩ := e
    by_cases ha : a = k <;> simp [erase, ha, ih]

theorem find?_erase_ne (m : List (Nat × α)) {j k : Nat} (h : j ≠ k) :
    (erase k m).find? (fun e => e.1 == j) = m.find? (fun e => e.1 == j) := by
  induction m with
  | nil => rfl
  | cons e m ih =>
    obtain ⟨a, w⟩ := e
    by_cases ha : a = k
    · simp [erase, ha, ih, Ne.symm h]
    · simp [erase, ha, ih, List.find?_cons]

theorem find?_insert_ne (m : List (Nat × α)) (v : α) {j k : Nat} (h : j ≠ k) :
    (insert k v m).find? (fun e => e.1 == j) = m.find? (fun e => e.1 == j) := by
  induction m with
  | nil => simp [insert, Ne.symm h]
  | cons e m ih =>
    obtain ⟨a, w⟩ := e
    by_cases ha : k < a
    · simp [insert, ha, Ne.symm h, List.find?_cons]
    · simp [insert, ha, ih, List.find?_cons]

theorem find?_insert_self (m : List (Nat × α)) (v : α) {k : Nat} (h : m.find? (fun e => e.1 == k) = none) :
    (insert k v m).find? (fun e => e.1 == k) = some (k, v) := by
  induction m with
  | nil => simp [insert]
  | cons e m ih =>
    obtain ⟨a, w⟩ := e
    rw [List.find?_cons] at h
    by_cases ha : a = k
    · simp [ha] at h
    · by_cases hk : k < a
      · simp [insert, hk]
      · simp only [beq_eq_false_iff_ne.mpr ha] at h
        simp [insert, hk, ha, ih h]

/-- The first entry of a key after a write of one key. -/
theorem find?_insert_erase (m : List (Nat × α)) (v : α) (j k : Nat) :
    (insert k v (erase k m)).find? (fun e => e.1 == j) = if j = k then some (k, v) else m.find? (fun e => e.1 == j) := by
  by_cases h : j = k
  · subst h
    rw [if_pos rfl, find?_insert_self _ _ (find?_erase_self m j)]
  · rw [if_neg h, find?_insert_ne _ _ h, find?_erase_ne m h]

end Sys2Proof.Tab

namespace Sys2Proof.Machine

/-! ### Slots of the sets, rule R226 -/

theorem safSlot_of_slots {s t : State} (h : t.saf.slots = s.saf.slots) (n k : Nat) : t.safSlot n k = s.safSlot n k := by
  unfold State.safSlot; rw [h]

/-- A slot after a write of a slot of the same set. -/
theorem safSlot_putSlot (s : State) (n k j : Nat) (x : SafSlot) :
    (s.putSlot n k x).safSlot n j = if j = k then some x else s.safSlot n j := by
  unfold State.safSlot State.putSlot
  dsimp only
  rw [Tab.find?_insert_erase]
  by_cases h : j = k
  · rw [if_pos h, if_pos (by rw [h])]
    rfl
  · rw [if_neg h, if_neg (by omega)]

theorem olderSlot_le (s : State) (n : Nat) : s.olderSlot n ≤ 1 := by
  unfold State.olderSlot
  split
  · split <;> decide
  · decide

/-! ### The end of a store or a load -/

/-- What the end of a store or a load leaves: its result, and no store that runs. -/
theorem storeEnd_shows (s : State) (op result : Nat) :
    (s.storeEnd op result).rdN Reg.SAF_STORE_STAT = (result + 512 * op) % 2 ^ 32 ∧
      (s.storeEnd op result).saf = { s.saf with storing := none, slate := (s.storeEnd op result).saf.slate } ∧
      s.SafetyFrame (s.storeEnd op result) [Reg.SAF_STORE_STAT, Reg.PG_IRQ_RAW Page.SAF, Reg.SAF_STAT, Reg.PWR_DOM_STAT, Reg.CDC_STAT] := by
  have hsaf := withSaf_safety s { s.saf with storing := none }
  have hset := wrN_writes { s with saf := { s.saf with storing := none } } Reg.SAF_STORE_STAT (result + 512 * op)
  have hraise := event_signals (({ s with saf := { s.saf with storing := none } } : State).wrN Reg.SAF_STORE_STAT (result + 512 * op)) Page.SAF 7 0
  have hframe := (hsaf.trans (hset.safety.trans hraise.safety)).trans (refreshSaf_safety _)
  have hkept := hraise.saf.trans hset.signals.saf
  refine ⟨?_, ?_, hframe⟩
  · unfold State.storeEnd
    rw [(refreshSaf_safety _).rdN (by decide), rdN_of_rd (rd_event (by decide) _ _ _), rdN_wrN_self]
  · unfold State.storeEnd
    rw [refreshSaf_saf, hkept]

theorem storeRefused_clause {s : State} (op : Nat) (ho : op < 2) {t : State} (h : t = s.storeEnd op 6) :
    t.rdN Reg.SAF_STORE_STAT = 6 + 512 * op ∧ t.saf.slots = s.saf.slots ∧ t.saf.loading = s.saf.loading ∧ s.SameMemory t := by
  obtain ⟨hstat, hsaf, hframe⟩ := storeEnd_shows s op 6
  subst h
  exact ⟨hstat.trans (Nat.mod_eq_of_lt (by omega)), by rw [hsaf], by rw [hsaf], hframe.memory⟩

/-! ### A store or a load begins, rules R229 and R230 -/

/-- A store or a load begins: what the safety logic keeps of it, and BUSY with OP in SAF_STORE_STAT. -/
def State.beginSet (s : State) (y : Saf) (stat : Nat) : State := ({ s with saf := y } : State).wrN Reg.SAF_STORE_STAT stat

theorem beginSet_clause {s : State} {y : Saf} {stat : Nat} (hn : stat < 2 ^ 32) (hb : stat.testBit 8 = true) {t : State}
    (h : t = (s.beginSet y stat).refreshSaf) :
    t.saf = { y with slate := t.saf.slate } ∧ t.rdN Reg.SAF_STORE_STAT = stat ∧ t.bit Reg.SAF_STAT 12 = true ∧
      s.SameRegs t [Reg.SAF_STORE_STAT, Reg.SAF_STAT, Reg.PWR_DOM_STAT, Reg.CDC_STAT] ∧ s.SameMemory t := by
  have hbegin : s.SafetyFrame (s.beginSet y stat) [Reg.SAF_STORE_STAT] := (withSaf_safety s y).trans (wrN_writes _ _ _).safety
  have hstat : (s.beginSet y stat).rdN Reg.SAF_STORE_STAT = stat := by
    unfold State.beginSet
    rw [rdN_wrN_self, Nat.mod_eq_of_lt hn]
  have hbusy : (s.beginSet y stat).bit Reg.SAF_STORE_STAT 8 = true := by
    rw [← hstat] at hb
    exact hb
  have hfollow := refreshSaf_safety (s.beginSet y stat)
  have hsaf := refreshSaf_saf (s.beginSet y stat)
  rw [← h] at hfollow hsaf
  refine ⟨hsaf, (hfollow.rdN (by decide)).trans hstat, ?_, (hbegin.trans hfollow).1, (hbegin.trans hfollow).memory⟩
  rw [h, slateOn_refreshSaf]
  exact slateWant_of_storing (((unlatch_frame _).safety.bit (by decide) 8).trans hbusy)

/-- The store that SAF_STORE asks for. -/
def State.storeOf (s : State) (v : Word) : SafStoring :=
  ⟨bitsOf v.toNat 3 0, if s.t40 then s.setCode (bitsOf v.toNat 3 0) else bitsOf v.toNat 6 4, s.fld Reg.FIO_SEAL 7 0⟩

theorem safStore_begins {s : State} {v : Word} (hgo : v.getLsbD 31 = true) (hb : s.bit Reg.SAF_STORE_STAT 8 = false)
    (hd : s.sys.dev = .ready) (ho : s.bit Reg.SAF_STAT 7 = true) (hset : s.t40 = true ∨ bitsOf v.toNat 3 0 = s.fld Reg.FIO_SEAL 3 0)
    (hf : s.logFull = false) : s.safStore v = (s.beginSet { s.saf with storing := some (s.storeOf v) } 256).refreshSaf := by
  have hown : ¬(!s.t40 && bitsOf v.toNat 3 0 != s.fld Reg.FIO_SEAL 3 0) = true := by
    rcases hset with h | h <;> simp [h]
  unfold State.safStore
  dsimp only
  rw [if_neg (by rw [hgo, hb]; decide), if_neg (by simp [hd]), if_neg (by simp [ho]), if_neg hown, if_neg (ne_true_of_eq_false hf)]
  rfl

theorem safStore_ignored {s : State} {v : Word} (h : v.getLsbD 31 = false ∨ s.bit Reg.SAF_STORE_STAT 8 = true) : s.safStore v = s :=
  if_pos (by rcases h with h | h <;> rw [h] <;> simp)

theorem safStore_notReady {s : State} {v : Word} (hgo : v.getLsbD 31 = true) (hb : s.bit Reg.SAF_STORE_STAT 8 = false)
    (hd : s.sys.dev ≠ .ready) : s.safStore v = s.storeEnd 0 6 := by
  unfold State.safStore
  dsimp only
  rw [if_neg (by rw [hgo, hb]; decide), if_pos (by simpa using hd)]

theorem safLoad_begins {s : State} {v : Word} {m : Nat} {x : SafSlot} (hgo : v.getLsbD 0 = true) (hb : s.bit Reg.SAF_STORE_STAT 8 = false)
    (hd : s.sys.dev = .ready) (hf : s.logFull = false) (hv : s.validSet = some (m, x)) :
    s.safLoad v = (s.beginSet { s.saf with loading := some (m, x.img) } 768).refreshSaf := by
  unfold State.safLoad
  dsimp only
  rw [if_neg (by rw [hgo, hb]; decide), if_neg (by simp [hd]), if_neg (ne_true_of_eq_false hf), hv]
  rfl

theorem safLoad_notReady {s : State} {v : Word} (hgo : v.getLsbD 0 = true) (hb : s.bit Reg.SAF_STORE_STAT 8 = false)
    (hd : s.sys.dev ≠ .ready) : s.safLoad v = s.storeEnd 1 6 := by
  unfold State.safLoad
  rw [if_neg (by rw [hgo, hb]; decide), if_pos (by simpa using hd)]

/-! ### A store that passes every check, rule R229 -/

/-- The slot that a store commits. -/
def State.newSlot (s : State) (x : SafStoring) (img : SafetyImage) : SafSlot :=
  { img := img, code := x.code, version := (s.setStamp x.num).1.toNat + 1, time := s.now, ok := true }

/-- The older slot is committed and counted; under the T40 method the set is then the selected one. -/
def State.commitSet (s : State) (x : SafStoring) (img : SafetyImage) : State :=
  let s1 := (s.putSlot x.num (s.olderSlot x.num) (s.newSlot x img)).inc Reg.SAF_STORE_CNT
  if s.t40 then s1.setFld Reg.SAF_SEAL_CFG 7 4 x.num else s1

theorem storeDone_passes {s : State} {img : SafetyImage} {a b f : Bool} {x : SafStoring} (hs : s.saf.storing = some x)
    (hr : s.storeResult x img a b f = 0) : s.storeDone img a b f =
      ((s.commitSet x img).logOp x.num 1 0 (s.setStamp x.num) ((s.commitSet x img).setStamp x.num)).storeEnd 0 0 := by
  unfold State.storeDone
  rw [hs]
  dsimp only
  rw [hr]
  unfold State.commitSet State.newSlot
  simp only [true_and, if_pos]
  rfl

theorem commitSet_shows (s : State) (x : SafStoring) (img : SafetyImage) :
    (s.commitSet x img).saf = (s.putSlot x.num (s.olderSlot x.num) (s.newSlot x img)).saf ∧ (s.commitSet x img).t40 = s.t40 ∧
      (s.commitSet x img).rdN Reg.SAF_STORE_CNT = min (s.rdN Reg.SAF_STORE_CNT + 1) 0xFFFFFFFF ∧ s.SameMemory (s.commitSet x img) := by
  have hput : s.SafetyFrame (s.putSlot x.num (s.olderSlot x.num) (s.newSlot x img)) [] := withSaf_safety s _
  have hinc := inc_writes (s.putSlot x.num (s.olderSlot x.num) (s.newSlot x img)) Reg.SAF_STORE_CNT
  have hcnt : ((s.putSlot x.num (s.olderSlot x.num) (s.newSlot x img)).inc Reg.SAF_STORE_CNT).rdN Reg.SAF_STORE_CNT =
      min (s.rdN Reg.SAF_STORE_CNT + 1) 0xFFFFFFFF := by rw [rdN_inc, hput.rdN List.not_mem_nil]
  have hm := hput.trans hinc.safety
  have ht : ((s.putSlot x.num (s.olderSlot x.num) (s.newSlot x img)).inc Reg.SAF_STORE_CNT).t40 = s.t40 := t40_of_rd (hm.1 _ (by decide))
  unfold State.commitSet
  dsimp only
  split
  · have hset := setFld_writes ((s.putSlot x.num (s.olderSlot x.num) (s.newSlot x img)).inc Reg.SAF_STORE_CNT) Reg.SAF_SEAL_CFG 7 4 x.num
    refine ⟨hset.signals.saf.trans hinc.signals.saf, ?_, (hset.safety.rdN (by decide)).trans hcnt, (hm.trans hset.safety).memory⟩
    rw [← ht]
    unfold State.t40
    rw [bit_setFld (by decide) (by decide), if_neg (by decide)]
  · exact ⟨hinc.signals.saf, ht, hcnt, hm.memory⟩

theorem storeDone_clause {s : State} {x : SafStoring} {img : SafetyImage} {old new : Word × Word} {t : State}
    (h : t = ((s.commitSet x img).logOp x.num 1 0 old new).storeEnd 0 0) :
    t.safSlot x.num (s.olderSlot x.num) = some (s.newSlot x img) ∧
      t.safSlot x.num (1 - s.olderSlot x.num) = s.safSlot x.num (1 - s.olderSlot x.num) ∧ t.rdN Reg.SAF_STORE_STAT = 0 ∧
      t.rdN Reg.SAF_STORE_CNT = min (s.rdN Reg.SAF_STORE_CNT + 1) 0xFFFFFFFF ∧ t.saf.storing = none ∧ s.LogMemory t := by
  obtain ⟨hsaf, ht40, hcnt, hmem⟩ := commitSet_shows s x img
  obtain ⟨hstat, hend, hframe⟩ := storeEnd_shows ((s.commitSet x img).logOp x.num 1 0 old new) 0 0
  have hlog := logOp_memory hmem ht40 (by rw [hsaf]; rfl) x.num 1 0 old new
  have hslots : t.saf.slots = (s.putSlot x.num (s.olderSlot x.num) (s.newSlot x img)).saf.slots := by
    rw [h, hend, logOp_eq, hsaf]
  have hslot : ∀ j, t.safSlot x.num j = if j = s.olderSlot x.num then some (s.newSlot x img) else s.safSlot x.num j := fun j => by
    rw [safSlot_of_slots hslots, safSlot_putSlot]
  have hle := olderSlot_le s x.num
  subst h
  refine ⟨by rw [hslot, if_pos rfl], by rw [hslot, if_neg (by omega)], hstat, ?_, by rw [hend], hlog.trans hframe.memory⟩
  rw [hframe.rdN (by decide), rdN_of_rd (rd_logOp _ _ _ _ _ _ _), hcnt]

/-! ### The obligation -/

/-- Settles O44: a store and a load begin alike, with BUSY; both end with their result; a passed store has written the older slot. -/
theorem safetySets : Obligations.SafetySets := by
  refine ⟨?_, ?_, ?_, ?_, ?_, ?_⟩
  · intro s ag v hw hgo hb hd ho hset hf
    refine completes_write hw rfl ?_
    obtain ⟨hsaf, hstat, hon, hregs, hmem⟩ := beginSet_clause (by decide) (by decide) (safStore_begins hgo hb hd ho hset hf)
    exact ⟨congrArg Saf.storing hsaf, hstat, hon, hregs, hmem⟩
  · intro s ag v hw hgo hb hd
    refine completes_write hw rfl ?_
    obtain ⟨hstat, hslots, -, hmem⟩ := storeRefused_clause 0 (by decide) (safStore_notReady hgo hb hd)
    exact ⟨hstat, hslots, hmem⟩
  · intro s ag v hw h
    exact completes_write hw rfl (safStore_ignored h)
  · intro s img a b f x hc hs hr
    exact ⟨_, congrArg Host.Outcome.next (if_pos hc), storeDone_clause (storeDone_passes hs hr)⟩
  · intro s ag v m x hw hgo hb hd hf hv
    refine completes_write hw rfl ?_
    obtain ⟨hsaf, hstat, -, hregs, hmem⟩ := beginSet_clause (by decide) (by decide) (safLoad_begins hgo hb hd hf hv)
    exact ⟨congrArg Saf.loading hsaf, hstat, hregs, hmem⟩
  · intro s ag v hw hgo hb hd
    refine completes_write hw rfl ?_
    obtain ⟨hstat, -, hloading, hmem⟩ := storeRefused_clause 1 (by decide) (safLoad_notReady hgo hb hd)
    exact ⟨hstat, hloading, hmem⟩

end Sys2Proof.Machine
end

section
/-! SUPPORT. Flint: its commands, heartbeats and trips (O45). -/

namespace Sys2Proof.Machine

theorem fld_setBit_ne {i hi lo : Nat} (h : i < 32) (k : i < lo ∨ hi < i) (s : State) (a : Nat) (b : Bool) :
    (s.setBit a i b).fld a hi lo = s.fld a hi lo := fld_setFld_ne (Nat.le_refl i) h k s a _

/-- Slate's power and the start permission leave Flint. -/
theorem refreshSaf_flint (s : State) : s.refreshSaf.saf.flint = s.saf.flint := by rw [refreshSaf_saf]

/-! ### Flint's state and its gates, rule R214 -/

/-- The registers of Flint's state and gates, and the outputs that these decide. -/
abbrev gateRegs : List Nat := [Reg.FLT_STAT, Reg.FLT_GATE, Reg.FIO_DQ_RB]

theorem flintState_eq (s : State) (st cause : Nat) : s.flintState st cause =
    (((s.setFld Reg.FLT_STAT 1 0 st).setFld Reg.FLT_STAT 7 4 cause).wrN Reg.FLT_GATE
      (if st = 1 then s.effFld Reg.FLT_MASK 15 0 else 0)).refreshDq := rfl

theorem flintState_safety (s : State) (st cause : Nat) : s.SafetyFrame (s.flintState st cause) gateRegs :=
  ((((setFld_writes _ _ _ _ _).trans (setFld_writes _ _ _ _ _)).trans (wrN_writes _ _ _)).safety.trans (refreshDq_safety _)).mono (by simp)

theorem refreshDq_saf (s : State) : s.refreshDq.saf = s.saf := by
  obtain ⟨x, n, h, -, -⟩ := refreshDq_eq s
  rw [h, State.setFld_saf]

theorem flintState_saf (s : State) (st cause : Nat) : (s.flintState st cause).saf = s.saf := by
  rw [flintState_eq, refreshDq_saf, State.wrN_saf, State.setFld_saf, State.setFld_saf]

/-- The state and the cause as FLT_STAT shows them, its tick bits as before, and the gates: those of FLT_MASK while it is ARMED. -/
theorem flintState_shows (s : State) {st cause : Nat} (hst : st < 4) (hc : cause < 16) :
    (s.flintState st cause).fld Reg.FLT_STAT 1 0 = st ∧ (s.flintState st cause).fld Reg.FLT_STAT 7 4 = cause ∧
      (s.flintState st cause).fld Reg.FLT_STAT 23 8 = s.fld Reg.FLT_STAT 23 8 ∧
      (s.flintState st cause).rdN Reg.FLT_GATE = if st = 1 then s.effFld Reg.FLT_MASK 15 0 else 0 := by
  have hdq := refreshDq_safety (((s.setFld Reg.FLT_STAT 1 0 st).setFld Reg.FLT_STAT 7 4 cause).wrN Reg.FLT_GATE
    (if st = 1 then s.effFld Reg.FLT_MASK 15 0 else 0))
  have hgate := wrN_writes ((s.setFld Reg.FLT_STAT 1 0 st).setFld Reg.FLT_STAT 7 4 cause) Reg.FLT_GATE
    (if st = 1 then s.effFld Reg.FLT_MASK 15 0 else 0)
  have hstat : ∀ hi lo, (s.flintState st cause).fld Reg.FLT_STAT hi lo =
      ((s.setFld Reg.FLT_STAT 1 0 st).setFld Reg.FLT_STAT 7 4 cause).fld Reg.FLT_STAT hi lo := fun hi lo =>
    (hdq.fld (by decide) hi lo).trans (hgate.safety.fld (by decide) hi lo)
  have hmask := effFld_lt s Reg.FLT_MASK 15 0 (by decide)
  refine ⟨?_, ?_, ?_, ?_⟩
  · rw [hstat, fld_setFld_ne (by decide) (by decide) (by decide), fld_setFld (by decide) (by decide)]
    exact Nat.mod_eq_of_lt hst
  · rw [hstat, fld_setFld (by decide) (by decide)]
    exact Nat.mod_eq_of_lt hc
  · rw [hstat, fld_setFld_ne (by decide) (by decide) (by decide), fld_setFld_ne (by decide) (by decide) (by decide)]
  · rw [flintState_eq, hdq.rdN (by decide), rdN_wrN_self]
    split
    · exact Nat.mod_eq_of_lt (by omega)
    · rfl

/-! ### Trips, rule R216 -/

/-- The registers of a trip. -/
abbrev tripRegs : List Nat :=
  [Reg.FLT_STAT, Reg.FLT_GATE, Reg.FIO_DQ_RB, Reg.FLT_TRIP_CNT, Reg.PG_IRQ_RAW Page.FLT, Reg.SAF_STAT, Reg.PWR_DOM_STAT, Reg.CDC_STAT]

/-- No arming waits, and no valid heartbeats are in a row. -/
def State.endArming (s : State) : State := s.setFlint { s.saf.flint with armPend := false, run := 0 }

theorem endArming_safety (s : State) : s.SafetyFrame s.endArming [] := setFlint_safety s _

/-- A trip as its cause is noted and counted. -/
def State.noteTrip (s : State) (cause : Nat) : State := (s.endArming.flintState 2 cause).inc Reg.FLT_TRIP_CNT

theorem flintTrip_eq {s : State} (h : s.fld Reg.FLT_STAT 1 0 ≠ 2) (cause : Nat) :
    s.flintTrip cause = ((s.noteTrip cause).event Page.FLT 0 (w32 cause)).refreshSaf := if_neg h

/-- A trip opens every gate, with its cause, and counts. -/
theorem flintTrip_shows {s : State} (h : s.fld Reg.FLT_STAT 1 0 ≠ 2) {cause : Nat} (hc : cause < 16) :
    (s.flintTrip cause).fld Reg.FLT_STAT 1 0 = 2 ∧ (s.flintTrip cause).fld Reg.FLT_STAT 7 4 = cause ∧
      (s.flintTrip cause).rdN Reg.FLT_GATE = 0 ∧
      (s.flintTrip cause).rdN Reg.FLT_TRIP_CNT = min (s.rdN Reg.FLT_TRIP_CNT + 1) 0xFFFFFFFF ∧ s.SafetyFrame (s.flintTrip cause) tripRegs := by
  have hflint := endArming_safety s
  have hstate := flintState_safety s.endArming 2 cause
  obtain ⟨h1, h2, -, h3⟩ := flintState_shows s.endArming (st := 2) (by decide) hc
  have hinc := inc_writes (s.endArming.flintState 2 cause) Reg.FLT_TRIP_CNT
  have hraise := (event_signals (s.noteTrip cause) Page.FLT 0 (w32 cause)).safety.trans (refreshSaf_safety _)
  have hshown := hinc.safety.trans hraise
  rw [flintTrip_eq h]
  refine ⟨(hshown.fld (by decide) 1 0).trans h1, (hshown.fld (by decide) 7 4).trans h2, (hshown.rdN (by decide)).trans h3, ?_,
    ((hflint.trans hstate).trans hshown).mono (by decide)⟩
  rw [hraise.rdN (by decide)]
  unfold State.noteTrip
  rw [rdN_inc, (hflint.trans hstate).rdN (by decide)]

/-! ### Commands, rules R217 and R236 -/

theorem fltCmd_channelA {s : State} (h : s.writable .channelA Page.FLT = true) (f : State → State) : s.fltCmd .channelA f = f s :=
  (if_pos rfl).trans (swWrite_writable h f)

/-- The registers that a refused command writes before its event. -/
def State.noteFltRefusal (s : State) : State := (s.inc Reg.FLT_CMD_REF_CNT).refuseAccess Page.FLT

theorem fltCmd_refused {s : State} {ag : Agent} (h : s.writable ag Page.FLT = true) (ha : ag ≠ .channelA) (f : State → State) :
    s.fltCmd ag f = s.noteFltRefusal.event Page.FLT 2 0 := by
  have hclk := writable_clocked h
  simp only [State.writable, Bool.and_eq_true] at h
  obtain ⟨⟨⟨-, hdom⟩, -⟩, -⟩ := h
  unfold State.fltCmd
  rw [if_neg ha, if_neg (by rw [hclk]; decide), if_neg (by rw [hdom]; decide)]
  rfl

theorem noteFltRefusal_writes (s : State) :
    s.Writes s.noteFltRefusal [Reg.FLT_CMD_REF_CNT, Reg.PG_STAT Page.FLT, Reg.PG_ERR_CNT Page.FLT] :=
  (inc_writes _ _).trans ((setBit_writes _ _ _ _).trans (inc_writes _ _))

theorem fltRefused_clause {s : State} (hc : s.clocked = true) {t : State} (h : t = s.noteFltRefusal.event Page.FLT 2 0) :
    t.rdN Reg.FLT_CMD_REF_CNT = min (s.rdN Reg.FLT_CMD_REF_CNT + 1) 0xFFFFFFFF ∧ t.bit (Reg.PG_STAT Page.FLT) 4 = true ∧
      t.fld Reg.FLT_STAT 1 0 = s.fld Reg.FLT_STAT 1 0 ∧
      s.Raises t [Reg.FLT_CMD_REF_CNT, Reg.PG_STAT Page.FLT, Reg.PG_ERR_CNT Page.FLT, Reg.PG_IRQ_RAW Page.FLT]
        [⟨Page.FLT, 2, false, 0, s.now⟩] := by
  have hr := (noteFltRefusal_writes s).event hc (by decide) (by decide) Page.FLT 2 0
  rw [← h] at hr
  refine ⟨?_, ?_, hr.signals.safety.fld (by decide) 1 0, hr⟩
  · rw [h, rdN_of_rd (rd_event (by decide) _ _ _)]
    unfold State.noteFltRefusal
    rw [rdN_of_rd (rd_refuseAccess (by decide) (by decide) _), rdN_inc]
  · rw [h, bit_of_rd (rd_event (by decide) _ _ _)]
    unfold State.noteFltRefusal State.refuseAccess
    rw [bit_of_rd (rd_inc_ne (by decide) _), bit_setBit_self (by decide)]

/-- What Flint keeps of a test trip. -/
def State.testFlint (s : State) (opened : Bool) : State :=
  s.setFlint { s.saf.flint with armPend := false, run := 0, tested := some opened }

theorem testFlint_safety (s : State) (opened : Bool) : s.SafetyFrame (s.testFlint opened) [] := setFlint_safety s _

/-- A test trip: every gate opens, with cause 8, and whether it did so in time. -/
def State.noteTest (s : State) (opened : Bool) : State :=
  ((s.testFlint opened).flintState 2 8).setBit Reg.FLT_STAT 3 opened

theorem testTrip_eq {s : State} (hv : s.field.vcc = true) (opened : Bool) : s.testTrip opened = (s.noteTest opened).refreshSaf := if_pos hv

theorem testTrip_clause {s : State} {opened : Bool} {t : State} (h : t = (s.noteTest opened).refreshSaf) :
    t.fld Reg.FLT_STAT 1 0 = 2 ∧ t.fld Reg.FLT_STAT 7 4 = 8 ∧ t.bit Reg.FLT_STAT 3 = opened ∧ t.saf.flint.tested = some opened ∧
      t.rdN Reg.FLT_GATE = 0 ∧ t.rdN Reg.FLT_TRIP_CNT = s.rdN Reg.FLT_TRIP_CNT ∧ s.SameMemory t := by
  have hflint := testFlint_safety s opened
  have hsaf := flintState_saf (s.testFlint opened) 2 8
  obtain ⟨h1, h2, -, h3⟩ := flintState_shows (s.testFlint opened) (st := 2) (cause := 8) (by decide) (by decide)
  have hstate := hflint.trans (flintState_safety (s.testFlint opened) 2 8)
  have hset := setBit_writes ((s.testFlint opened).flintState 2 8) Reg.FLT_STAT 3 opened
  have hfollow := refreshSaf_safety (s.noteTest opened)
  rw [← h] at hfollow
  have hall := hstate.trans (hset.safety.trans hfollow)
  refine ⟨?_, ?_, ?_, ?_, ?_, hall.rdN (by decide), hall.memory⟩
  · rw [hfollow.fld (by decide)]
    exact (fld_setBit_ne (by decide) (by decide) _ _ _).trans h1
  · rw [hfollow.fld (by decide)]
    exact (fld_setBit_ne (by decide) (by decide) _ _ _).trans h2
  · rw [hfollow.bit (by decide)]
    exact bit_setBit_self (by decide) _ _ _
  · rw [h, refreshSaf_flint]
    exact congrArg (fun y : Saf => y.flint.tested) (hset.signals.saf.trans hsaf)
  · exact ((hset.safety.trans hfollow).rdN (by decide)).trans h3

/-- ARM: a fresh seed, and the next heartbeat arms. -/
def State.seedFlint (s : State) (seed : Nat) : State := s.setFlint { s.saf.flint with seed := seed, armPend := true, run := 0 }

theorem flintArm_eq {s : State} (hv : s.field.vcc = true)
    (ha : s.fld Reg.FLT_STAT 1 0 ≠ 2 ∨ s.bit Reg.FLT_STAT 2 = false ∨ s.sys.dev = .selftest ∨ s.fld Reg.FLT_STAT 7 4 = 8) (seed : Nat) :
    s.flintArm seed = (s.seedFlint seed).setBit Reg.FLT_STAT 2 (!s.commission) := by
  unfold State.flintArm
  rw [if_neg (by rw [hv]; decide), if_neg]
  · rfl
  · rintro ⟨htripped, hlatch, hself, hcause⟩
    rcases ha with ha | ha | ha | ha
    · exact ha htripped
    · exact absurd hlatch (ne_true_of_eq_false ha)
    · exact hself ha
    · exact hcause ha

theorem flintArm_clause {s : State} {seed : Nat} {b : Bool} {t : State} (h : t = (s.seedFlint seed).setBit Reg.FLT_STAT 2 b) :
    t.saf.flint.seed = seed ∧ t.saf.flint.armPend = true ∧ t.bit Reg.FLT_STAT 2 = b ∧
      t.fld Reg.FLT_STAT 1 0 = s.fld Reg.FLT_STAT 1 0 ∧ s.SameRegs t [Reg.FLT_STAT] ∧ s.SameMemory t := by
  have hseed : s.SafetyFrame (s.seedFlint seed) [] := setFlint_safety s _
  have hset := setBit_writes (s.seedFlint seed) Reg.FLT_STAT 2 b
  have hall := hseed.trans hset.safety
  subst h
  refine ⟨by rw [hset.signals.saf]; rfl, by rw [hset.signals.saf]; rfl, bit_setBit_self (by decide) _ _ _, ?_, hall.1, hall.memory⟩
  rw [fld_setBit_ne (by decide) (by decide), hseed.fld List.not_mem_nil]

/-! ### Heartbeats, rules R215 and R216 -/

/-- What is wrong with a heartbeat is one of the causes 1 to 4. -/
theorem hbFault_lt (s : State) (w : Word) (n : Nat) : s.hbFault w n < 16 := by
  unfold State.hbFault
  dsimp only
  repeat' split
  all_goals decide

/-- The tick bits of the heartbeat just received. -/
def State.hear (s : State) (w : Word) : State := s.setFlint { s.saf.flint with bits := some (w.toNat % 65536) }

theorem hear_safety (s : State) (w : Word) : s.SafetyFrame (s.hear w) [] := setFlint_safety s _

/-- A valid heartbeat counts, and FLT_STAT shows its tick bits. -/
theorem hbValid_shows (s : State) (w : Word) :
    (s.hbValid w).rdN Reg.FLT_HB_CNT = min (s.rdN Reg.FLT_HB_CNT + 1) 0xFFFFFFFF ∧ (s.hbValid w).fld Reg.FLT_STAT 23 8 = w.toNat % 65536 ∧
      (s.hbValid w).fld Reg.FLT_STAT 1 0 = s.fld Reg.FLT_STAT 1 0 ∧ s.Writes (s.hbValid w) [Reg.FLT_HB_CNT, Reg.FLT_STAT] := by
  unfold State.hbValid
  refine ⟨?_, fld_setFld (by decide) (by decide) _ _ _, ?_, (inc_writes _ _).trans (setFld_writes _ _ _ _ _)⟩
  · rw [rdN_of_rd (rd_setFld_ne (by decide) _ _ _ _), rdN_inc]
  · rw [fld_setFld_ne (by decide) (by decide) (by decide), fld_of_rd (rd_inc_ne (by decide) _)]

theorem hbBad_safety (s : State) : s.SafetyFrame s.hbBad [Reg.FLT_BAD_CNT, Reg.PG_IRQ_RAW Page.FLT] :=
  (inc_writes _ _).safety.trans (event_signals _ _ _ _).safety

theorem rdN_hbBad (s : State) : s.hbBad.rdN Reg.FLT_BAD_CNT = min (s.rdN Reg.FLT_BAD_CNT + 1) 0xFFFFFFFF := by
  unfold State.hbBad
  rw [rdN_of_rd (rd_event (by decide) _ _ _), rdN_inc]

/-- What the heartbeat that arms leaves before Flint's state follows. -/
def State.acceptArm (s : State) (w : Word) : State :=
  (s.hear w).endArming.hbValid w

theorem heartbeat_arms {s : State} {w : Word} (hv : s.field.vcc = true) (ha : s.saf.flint.armPend = true) (hs : s.sigOk w = true) (n : Nat) :
    s.flintHeartbeat w n = ((s.acceptArm w).flintState 1 0).refreshSaf := by
  unfold State.flintHeartbeat
  dsimp only
  rw [if_neg (by rw [hv]; decide), if_pos ha, if_pos hs]
  rfl

theorem heartbeatArms_clause {s : State} {w : Word} {t : State} (h : t = ((s.acceptArm w).flintState 1 0).refreshSaf) :
    t.fld Reg.FLT_STAT 1 0 = 1 ∧ t.rdN Reg.FLT_GATE = s.effFld Reg.FLT_MASK 15 0 ∧ t.fld Reg.FLT_STAT 23 8 = w.toNat % 65536 ∧
      t.rdN Reg.FLT_HB_CNT = min (s.rdN Reg.FLT_HB_CNT + 1) 0xFFFFFFFF ∧ t.saf.flint.armPend = false ∧ s.SameMemory t := by
  have hready := (hear_safety s w).trans (endArming_safety (s.hear w))
  obtain ⟨hcnt, hbits, -, hw⟩ := hbValid_shows (s.hear w).endArming w
  have haccept : s.SafetyFrame (s.acceptArm w) _ := hready.trans hw.safety
  have hstate := flintState_safety (s.acceptArm w) 1 0
  obtain ⟨h1, -, h2, h3⟩ := flintState_shows (s.acceptArm w) (st := 1) (cause := 0) (by decide) (by decide)
  have hfollow := refreshSaf_safety ((s.acceptArm w).flintState 1 0)
  rw [← h] at hfollow
  refine ⟨(hfollow.fld (by decide) 1 0).trans h1, ?_, ?_, ?_, ?_, (haccept.trans (hstate.trans hfollow)).memory⟩
  · rw [hfollow.rdN (by decide), h3, if_pos rfl, haccept.effFld (by decide)]
  · rw [hfollow.fld (by decide), h2]
    exact hbits
  · rw [(hstate.trans hfollow).rdN (by decide), ← hready.rdN List.not_mem_nil]
    exact hcnt
  · rw [h, refreshSaf_flint, flintState_saf]
    exact congrArg (fun y : Saf => y.flint.armPend) hw.signals.saf

theorem heartbeat_valid {s : State} {w : Word} {n : Nat} (hv : s.field.vcc = true) (ha : s.saf.flint.armPend = false)
    (h1 : s.fld Reg.FLT_STAT 1 0 = 1) (hf : s.hbFault w n = 0) : s.flintHeartbeat w n = ((s.hear w).hbValid w).wrN Reg.FLT_OSC n := by
  unfold State.flintHeartbeat
  dsimp only
  rw [if_neg (by rw [hv]; decide), if_neg (ne_true_of_eq_false ha), h1]
  exact if_pos hf

theorem heartbeat_bad {s : State} {w : Word} {n : Nat} (hv : s.field.vcc = true) (ha : s.saf.flint.armPend = false)
    (h1 : s.fld Reg.FLT_STAT 1 0 = 1) (hf : s.hbFault w n ≠ 0) : s.flintHeartbeat w n = (s.hear w).hbBad.flintTrip (s.hbFault w n) := by
  unfold State.flintHeartbeat
  dsimp only
  rw [if_neg (by rw [hv]; decide), if_neg (ne_true_of_eq_false ha), h1]
  exact if_neg hf

theorem heartbeatValid_clause {s : State} (h1 : s.fld Reg.FLT_STAT 1 0 = 1) {w : Word} {n : Nat} {t : State}
    (h : t = ((s.hear w).hbValid w).wrN Reg.FLT_OSC n) :
    t.fld Reg.FLT_STAT 1 0 = 1 ∧ t.fld Reg.FLT_STAT 23 8 = w.toNat % 65536 ∧ t.rd Reg.FLT_OSC = BitVec.ofNat 32 n ∧
      t.rdN Reg.FLT_HB_CNT = min (s.rdN Reg.FLT_HB_CNT + 1) 0xFFFFFFFF ∧
      s.SameRegs t [Reg.FLT_STAT, Reg.FLT_OSC, Reg.FLT_HB_CNT] ∧ s.SameMemory t := by
  have hhear := hear_safety s w
  obtain ⟨hcnt, hbits, hstate, hw⟩ := hbValid_shows (s.hear w) w
  have hosc := (wrN_writes ((s.hear w).hbValid w) Reg.FLT_OSC n).safety
  rw [← h] at hosc
  have hall := (hhear.trans hw.safety).trans hosc
  refine ⟨?_, (hosc.fld (by decide) 23 8).trans hbits, by rw [h, rd_wrN_self], ?_, (hall.mono (by decide)).1, hall.memory⟩
  · rw [hosc.fld (by decide), hstate, hhear.fld List.not_mem_nil, h1]
  · rw [hosc.rdN (by decide), hcnt, hhear.rdN List.not_mem_nil]

theorem heartbeatBad_clause {s : State} (h1 : s.fld Reg.FLT_STAT 1 0 = 1) (w : Word) {cause : Nat} (hc : cause < 16) {t : State}
    (h : t = (s.hear w).hbBad.flintTrip cause) :
    t.fld Reg.FLT_STAT 1 0 = 2 ∧ t.fld Reg.FLT_STAT 7 4 = cause ∧ t.rdN Reg.FLT_GATE = 0 ∧
      t.rdN Reg.FLT_BAD_CNT = min (s.rdN Reg.FLT_BAD_CNT + 1) 0xFFFFFFFF ∧
      t.rdN Reg.FLT_TRIP_CNT = min (s.rdN Reg.FLT_TRIP_CNT + 1) 0xFFFFFFFF ∧ s.SameMemory t := by
  have hbad := (hear_safety s w).trans (hbBad_safety (s.hear w))
  have harmed : (s.hear w).hbBad.fld Reg.FLT_STAT 1 0 ≠ 2 := by
    rw [hbad.fld (by decide), h1]
    decide
  obtain ⟨hstate, hcause, hgate, hcnt, htrip⟩ := flintTrip_shows harmed hc
  subst h
  refine ⟨hstate, hcause, hgate, ?_, ?_, (hbad.trans htrip).memory⟩
  · rw [htrip.rdN (by decide), rdN_hbBad, (hear_safety s w).rdN List.not_mem_nil]
  · rw [hcnt, hbad.rdN (by decide)]

/-! ### Timeout and re-arming, rules R216 and R217 -/

theorem flintTimeout_armed {s : State} (h1 : s.fld Reg.FLT_STAT 1 0 = 1) : s.flintTimeout = s.flintTrip 1 := by
  unfold State.flintTimeout
  rw [h1]
  rfl

theorem flintRearm_clause (s : State) {t : State} (h : t = (s.flintState 1 0).refreshSaf) :
    t.fld Reg.FLT_STAT 1 0 = 1 ∧ t.rdN Reg.FLT_GATE = s.effFld Reg.FLT_MASK 15 0 ∧ s.SameMemory t := by
  obtain ⟨hstate, -, -, hgate⟩ := flintState_shows s (st := 1) (cause := 0) (by decide) (by decide)
  have hfollow := refreshSaf_safety (s.flintState 1 0)
  rw [← h] at hfollow
  exact ⟨(hfollow.fld (by decide) 1 0).trans hstate, (hfollow.rdN (by decide)).trans hgate, ((flintState_safety s 1 0).trans hfollow).memory⟩

/-! ### The obligation -/

/-- Settles O45: only channel A's commands reach Flint; every trip is the one trip with its cause, and the gates follow Flint's state. -/
theorem flint : Obligations.Flint := by
  refine ⟨?_, ?_, ?_, ?_, ?_, ?_, ?_, ?_, ?_, ?_⟩
  · intro s ag hw ha
    exact ⟨_, rfl, fltRefused_clause (writable_clocked hw) (fltCmd_refused hw ha _)⟩
  · intro s opened hw hv
    exact ⟨_, rfl, testTrip_clause ((fltCmd_channelA hw _).trans (testTrip_eq hv opened))⟩
  · intro s seed hw hv ha
    exact ⟨_, rfl, flintArm_clause ((fltCmd_channelA hw _).trans (flintArm_eq hv ha seed.toNat))⟩
  · intro s hw hv h
    obtain ⟨hstate, hcause, hgate, hcnt, hframe⟩ := flintTrip_shows h (cause := 5) (by decide)
    exact ⟨_, congrArg Host.Outcome.next ((fltCmd_channelA hw _).trans (if_pos hv)), hstate, hcause, hgate, hcnt, hframe.memory⟩
  · intro s w n hv ha hs
    exact ⟨_, rfl, heartbeatArms_clause (heartbeat_arms hv ha hs n)⟩
  · intro s w n hv ha h1 hf
    exact ⟨_, rfl, heartbeatValid_clause h1 (heartbeat_valid hv ha h1 hf)⟩
  · intro s w n hv ha h1 hf
    exact ⟨_, rfl, heartbeatBad_clause h1 w (hbFault_lt s w n) (heartbeat_bad hv ha h1 hf)⟩
  · intro s h1
    obtain ⟨hstate, hcause, hgate, -, hframe⟩ := flintTrip_shows (s := s) (cause := 1) (by rw [h1]; decide) (by decide)
    exact ⟨_, congrArg Host.Outcome.next (flintTimeout_armed h1), hstate, hcause, hgate, hframe.memory⟩
  · intro s hv h
    obtain ⟨hstate, hcause, hgate, -, hframe⟩ := flintTrip_shows h (cause := 7) (by decide)
    exact ⟨_, congrArg Host.Outcome.next (if_pos hv), hstate, hcause, hgate, hframe.memory⟩
  · intro s h1 hl hrun
    exact ⟨_, rfl, flintRearm_clause s (if_pos ⟨h1, hl, hrun⟩)⟩

end Sys2Proof.Machine
end

section
/-! SUPPORT. The ring ports: their records, the frames of what a port does, and the rules of its shared operations (O46 to O48). -/

namespace Sys2Proof.Machine

/-! ### Records of ports -/

@[simp] theorem rp_setRp_self (s : State) (p : Nat) (x : RingPort) : (s.setRp p x).rp p = x := Tab.get_set_self _ _ _ _

theorem rp_setRp_ne {p q : Nat} (h : q ≠ p) (s : State) (x : RingPort) : (s.setRp p x).rp q = s.rp q := Tab.get_set_ne _ _ _ h

@[simp] theorem rd_setRp (s : State) (p : Nat) (x : RingPort) (a : Nat) : (s.setRp p x).rd a = s.rd a := rfl

theorem rp_of_ring {s t : State} (h : t.ring = s.ring) (p : Nat) : t.rp p = s.rp p := by unfold State.rp; rw [h]

theorem State.Signals.ring {s t : State} {l : List Nat} (h : s.Signals t l) : t.ring = s.ring := by rw [h.2]
theorem State.Signals.rp {s t : State} {l : List Nat} (h : s.Signals t l) (p : Nat) : t.rp p = s.rp p := rp_of_ring h.ring p

/-! ### Registers that an operation leaves -/

theorem State.SameRegs.bit {s t : State} {l : List Nat} (h : s.SameRegs t l) {a : Nat} (ha : a ∉ l) (i : Nat) : t.bit a i = s.bit a i :=
  bit_of_rd (h a ha) i
theorem State.SameRegs.fld {s t : State} {l : List Nat} (h : s.SameRegs t l) {a : Nat} (ha : a ∉ l) (hi lo : Nat) :
    t.fld a hi lo = s.fld a hi lo := fld_of_rd (h a ha) hi lo
theorem State.SameRegs.rdN {s t : State} {l : List Nat} (h : s.SameRegs t l) {a : Nat} (ha : a ∉ l) : t.rdN a = s.rdN a :=
  rdN_of_rd (h a ha)
theorem State.SameRegs.pstate {s t : State} {l : List Nat} (h : s.SameRegs t l) {p : Nat} (hp : Reg.RNG_STAT p ∉ l) :
    t.pstate p = s.pstate p := h.fld hp 3 0
theorem State.SameRegs.lstate {s t : State} {l : List Nat} (h : s.SameRegs t l) {p : Nat} {x : Lane} (hp : laneReg p x ∉ l) :
    t.lstate p x = s.lstate p x := h.fld hp 2 0

theorem irqRaw_ring (p : Nat) : Reg.PG_IRQ_RAW (ringPage p) = 0x40020010 + 0x1000 * p := by
  simp only [Reg.PG_IRQ_RAW, ringPage, Page.RNG]; omega

/-- A configuration word in force depends on the port's state, the register and the copy taken at the entry to LISTEN, rule R268. -/
theorem rcf_of_same {s t : State} {p a : Nat} (hst : t.pstate p = s.pstate p) (ha : t.rd a = s.rd a) (hc : (t.rp p).cfg = (s.rp p).cfg) :
    t.rcf p a = s.rcf p a := by
  unfold State.pstate at hst
  unfold State.rcf
  rw [hst, ha, hc]

theorem rcFld_of_same {s t : State} {p a : Nat} (hst : t.pstate p = s.pstate p) (ha : t.rd a = s.rd a) (hc : (t.rp p).cfg = (s.rp p).cfg)
    (hi lo : Nat) : t.rcFld p a hi lo = s.rcFld p a hi lo := by
  unfold State.rcFld
  rw [rcf_of_same hst ha hc]

/-! ### The frame of what a port does without a store -/

/-- Nothing differs but the registers of `l`, the ports' records and the event unit with its messages. -/
def State.PortsFrame (s t : State) (l : List Nat) : Prop :=
  s.SameRegs t l ∧ t = { s with regs := t.regs, ring := t.ring, evt := t.evt, msix := t.msix, plant := t.plant }

theorem State.Signals.ports {s t : State} {l : List Nat} (h : s.Signals t l) : s.PortsFrame t l := ⟨h.1, by rw [h.2]⟩
theorem State.Writes.ports {s t : State} {l : List Nat} (h : s.Writes t l) : s.PortsFrame t l := h.signals.ports

theorem State.PortsFrame.refl (s : State) (l : List Nat) : s.PortsFrame s l := ⟨fun _ _ => rfl, rfl⟩

theorem State.PortsFrame.trans {s t u : State} {l m : List Nat} (h : s.PortsFrame t l) (k : t.PortsFrame u m) : s.PortsFrame u (l ++ m) := by
  refine ⟨h.1.trans k.1, ?_⟩
  rw [k.2, h.2]

theorem State.PortsFrame.mono {s t : State} {l m : List Nat} (h : s.PortsFrame t l) (k : ∀ a ∈ l, a ∈ m) : s.PortsFrame t m :=
  ⟨h.1.mono k, h.2⟩

theorem State.PortsFrame.memory {s t : State} {l : List Nat} (h : s.PortsFrame t l) : s.SameMemory t := by
  rw [h.2]; exact ⟨rfl, rfl, rfl, rfl, rfl⟩
theorem State.PortsFrame.qtz {s t : State} {l : List Nat} (h : s.PortsFrame t l) : t.qtz = s.qtz := by rw [h.2]
theorem State.PortsFrame.saf {s t : State} {l : List Nat} (h : s.PortsFrame t l) : t.saf = s.saf := by rw [h.2]
theorem State.PortsFrame.integ {s t : State} {l : List Nat} (h : s.PortsFrame t l) : t.integ = s.integ := by rw [h.2]
theorem State.PortsFrame.cell32 {s t : State} {l : List Nat} (h : s.PortsFrame t l) (a : Nat) : t.cell32 a = s.cell32 a := by
  rw [h.2]; rfl

theorem setRp_ports (s : State) (p : Nat) (x : RingPort) : s.PortsFrame (s.setRp p x) [] := ⟨fun _ _ => rfl, rfl⟩

/-! ### What a port notes of its traffic -/

/-- Two records of a port differ only in what the port notes of a cycle's traffic: frames sent and forwarded, alarms that wait, the time of
the REF, and what this station has answered, been granted and offered. -/
def RingPort.Notes (x y : RingPort) : Prop :=
  y = { x with sent := y.sent, relayed := y.relayed, almPend := y.almPend, refT := y.refT, replied := y.replied, granted := y.granted,
               offered := y.offered }

theorem RingPort.Notes.refl (x : RingPort) : x.Notes x := rfl

theorem RingPort.Notes.trans {x y z : RingPort} (h : x.Notes y) (k : y.Notes z) : x.Notes z := by
  unfold RingPort.Notes
  rw [k, h]

/-- A port notes traffic: nothing differs but the registers of `l`, those notes and the event unit with its messages. -/
structure State.Noted (s t : State) (p : Nat) (l : List Nat) : Prop where
  ports : s.PortsFrame t l
  notes : (s.rp p).Notes (t.rp p)

theorem State.Noted.regs {s t : State} {p : Nat} {l : List Nat} (h : s.Noted t p l) : s.SameRegs t l := h.ports.1

theorem State.Noted.refl (s : State) (p : Nat) : s.Noted s p [] := ⟨.refl s [], .refl _⟩

theorem State.Noted.trans {s t u : State} {p : Nat} {l m : List Nat} (h : s.Noted t p l) (k : t.Noted u p m) : s.Noted u p (l ++ m) :=
  ⟨h.ports.trans k.ports, h.notes.trans k.notes⟩

theorem State.Noted.mono {s t : State} {p : Nat} {l m : List Nat} (h : s.Noted t p l) (k : ∀ a ∈ l, a ∈ m) : s.Noted t p m :=
  ⟨h.ports.mono k, h.notes⟩

theorem State.Signals.noted {s t : State} {l : List Nat} (h : s.Signals t l) (p : Nat) : s.Noted t p l := by
  refine ⟨h.ports, ?_⟩
  rw [h.rp p]
  exact .refl _

theorem State.Writes.noted {s t : State} {l : List Nat} (h : s.Writes t l) (p : Nat) : s.Noted t p l := h.signals.noted p

theorem setRp_noted {s : State} {p : Nat} {x : RingPort} (h : (s.rp p).Notes x) : s.Noted (s.setRp p x) p [] :=
  ⟨setRp_ports s p x, by rwa [rp_setRp_self]⟩

theorem forEach_noted {α : Type} {p : Nat} {l : List Nat} {f : α → State → State} (hf : ∀ x t, State.Noted t (f x t) p l) (xs : List α) :
    ∀ s : State, s.Noted (forEach f xs s) p l := by
  induction xs with
  | nil => intro s; exact (State.Noted.refl s p).mono (by simp)
  | cons x xs ih => intro s; exact ((hf x s).trans (ih (f x s))).mono (by simp)

/-! ### Frames sent and forwarded -/

theorem send_noted (s : State) (p : Nat) (f : RingFrame) : s.Noted (s.send p f) p [] := by
  unfold State.send
  split
  · exact .refl s p
  · exact setRp_noted rfl

theorem relay_noted (s : State) (p typ lanes : Nat) : s.Noted (s.relay p typ lanes) p [] := by
  unfold State.relay
  split
  · exact setRp_noted rfl
  · exact .refl s p

theorem resend_noted (s : State) (p typ dst src blk : Nat) : s.Noted (s.resend p typ dst src blk) p [] := by
  unfold State.resend
  split
  · exact .refl s p
  · exact send_noted _ _ _

/-! ### Frames received -/

/-- The counter of invalid blocks of a lane. -/
def crcReg (p : Nat) (l : Lane) : Nat := if l = .a then Reg.RNG_CRC_CNT_A p else Reg.RNG_CRC_CNT_B p

theorem crcBad_writes (s : State) (p n : Nat) (l : Lane) : s.Writes (s.crcBad p n l) [crcReg p l] := add_writes _ _ _

theorem inHeader_noted (s : State) (p n : Nat) (hold : BitVec 16) (alm : Bool) :
    s.Noted (s.inHeader p n hold alm) p [Reg.RNG_HOLD_CNT p] := by
  unfold State.inHeader
  dsimp only
  split
  · exact State.Noted.mono (setRp_noted rfl) (by simp)
  · exact ((inc_writes _ _).noted p).trans (setRp_noted rfl)

/-- A header without HOLD and without an alarm leaves the port as it was. -/
theorem inHeader_quiet (s : State) (p n : Nat) {alm : Bool} (h : n < 64 → alm = false) :
    (s.inHeader p n 0 alm).rp p = s.rp p ∧ s.inHeader p n 0 alm = { s with ring := (s.inHeader p n 0 alm).ring } := by
  unfold State.inHeader
  rw [if_pos rfl]
  dsimp only
  rw [rp_setRp_self, if_neg (fun hc => by simp [h hc.2.1] at hc)]
  exact ⟨rfl, rfl⟩

/-! ### The state of a port, rule R267 -/

theorem setPstate_signals (s : State) (p st : Nat) : s.Signals (s.setPstate p st) [Reg.RNG_STAT p, Reg.PG_IRQ_RAW (ringPage p)] := by
  have hw := ((setFld_writes s (Reg.RNG_STAT p) 3 0 st).trans (setBit_writes _ (Reg.RNG_STAT p) 8 (st == psForeign))).trans
    (setBit_writes _ (Reg.RNG_STAT p) 6 (st == psInit || st == psCyclic))
  unfold State.setPstate
  dsimp only
  split
  · exact hw.signals.mono (by simp)
  · exact (hw.signals.trans (event_signals _ _ _ _)).mono (by simp)

theorem ringStat_ne_irqRaw (p : Nat) : Reg.RNG_STAT p ≠ Reg.PG_IRQ_RAW (ringPage p) := by
  rw [irqRaw_ring]; simp

/-- RNG_STAT after a passage: the state, FOREIGN and MASTER. -/
theorem rd_setPstate (s : State) (p st : Nat) : (s.setPstate p st).rd (Reg.RNG_STAT p) =
    (((s.setFld (Reg.RNG_STAT p) 3 0 st).setBit (Reg.RNG_STAT p) 8 (st == psForeign)).setBit (Reg.RNG_STAT p) 6
      (st == psInit || st == psCyclic)).rd (Reg.RNG_STAT p) := by
  unfold State.setPstate
  dsimp only
  split
  · rfl
  · exact rd_event (ringStat_ne_irqRaw p) _ _ _

theorem pstate_setPstate {st : Nat} (h : st < 16) (s : State) (p : Nat) : (s.setPstate p st).pstate p = st := by
  unfold State.pstate
  rw [fld_of_rd (rd_setPstate s p st), fld_setBit_ne (by decide) (by decide), fld_setBit_ne (by decide) (by decide),
    fld_setFld (by decide) (by decide)]
  exact Nat.mod_eq_of_lt h

theorem bit_setPstate {i : Nat} (h : 4 ≤ i) (s : State) (p st : Nat) : (s.setPstate p st).bit (Reg.RNG_STAT p) i =
    if i = 6 then (st == psInit || st == psCyclic) else if i = 8 then st == psForeign else s.bit (Reg.RNG_STAT p) i := by
  rw [bit_of_rd (rd_setPstate s p st), bit_setBit (by decide), bit_setBit (by decide), bit_setFld (by decide) (by decide),
    if_neg (c := 0 ≤ i ∧ i ≤ 3) (by omega)]

theorem fld_setPstate {hi lo : Nat} (h : 9 ≤ lo) (s : State) (p st : Nat) :
    (s.setPstate p st).fld (Reg.RNG_STAT p) hi lo = s.fld (Reg.RNG_STAT p) hi lo := by
  rw [fld_of_rd (rd_setPstate s p st), fld_setBit_ne (by decide) (by omega), fld_setBit_ne (by decide) (by omega),
    fld_setFld_ne (by decide) (by decide) (by omega)]

/-- A passage to another state raises its condition. -/
theorem setPstate_raises {s : State} (hc : s.clocked = true) {p st : Nat} (h : s.pstate p ≠ st) :
    s.Raises (s.setPstate p st) [Reg.RNG_STAT p, Reg.PG_IRQ_RAW (ringPage p)] [⟨ringPage p, 0, false, 0, s.now⟩] := by
  have hw := ((setFld_writes s (Reg.RNG_STAT p) 3 0 st).trans (setBit_writes _ (Reg.RNG_STAT p) 8 (st == psForeign))).trans
    (setBit_writes _ (Reg.RNG_STAT p) 6 (st == psInit || st == psCyclic))
  unfold State.setPstate
  dsimp only
  rw [if_neg h]
  refine (hw.event hc ?_ ?_ _ _ _).mono (by simp) <;> simp only [List.mem_append, List.mem_singleton, Reg.RNG_STAT, Reg.QTZ_TIME_NS] <;> omega

theorem ringOn_clocked {s : State} (h : s.ringOn = true) : s.clocked = true := by
  simp only [State.ringOn, Bool.and_eq_true] at h
  exact h.1

end Sys2Proof.Machine
end

section
/-! SUPPORT. What a port takes in: stores to cell memory, the receive log and a frame on one lane leave the port but for its notes (O46 to O48). -/

namespace Sys2Proof.Machine

/-! ### The frame of what a port takes in -/

/-- Nothing differs but the registers of `l`, what port `p` notes of its traffic, other ports' records, cell memory with its words known to be
uncorrectable, the event unit with its messages, and triggers that wait. -/
structure State.Taken (s t : State) (p : Nat) (l : List Nat) : Prop where
  regs : s.SameRegs t l
  rest : t = { s with
    regs := t.regs, ring := t.ring, cell := t.cell, evt := t.evt, msix := t.msix, plant := t.plant, integ := t.integ, sol := t.sol,
    sys := { s.sys with triggers := t.sys.triggers } }
  notes : (s.rp p).Notes (t.rp p)

theorem State.Noted.taken {s t : State} {p : Nat} {l : List Nat} (h : s.Noted t p l) : s.Taken t p l := by
  refine ⟨h.regs, ?_, h.notes⟩
  rw [h.ports.2]

theorem State.Signals.taken {s t : State} {l : List Nat} (h : s.Signals t l) (p : Nat) : s.Taken t p l := (h.noted p).taken
theorem State.Writes.taken {s t : State} {l : List Nat} (h : s.Writes t l) (p : Nat) : s.Taken t p l := (h.noted p).taken

theorem State.Triggers.taken {s t : State} {l : List Nat} (h : s.Triggers t l) (p : Nat) : s.Taken t p l := by
  refine ⟨h.1, by rw [h.2], ?_⟩
  rw [rp_of_ring (t := t) (s := s) (by rw [h.2])]
  exact .refl _

theorem State.Taken.refl (s : State) (p : Nat) (l : List Nat) : s.Taken s p l := ⟨fun _ _ => rfl, rfl, .refl _⟩

theorem State.Taken.trans {s t u : State} {p : Nat} {l m : List Nat} (h : s.Taken t p l) (k : t.Taken u p m) : s.Taken u p (l ++ m) := by
  refine ⟨h.regs.trans k.regs, ?_, h.notes.trans k.notes⟩
  rw [k.rest, h.rest]

theorem State.Taken.mono {s t : State} {p : Nat} {l m : List Nat} (h : s.Taken t p l) (k : ∀ a ∈ l, a ∈ m) : s.Taken t p m :=
  ⟨h.regs.mono k, h.rest, h.notes⟩

theorem State.Taken.again {s t u : State} {p : Nat} {l : List Nat} (h : s.Taken t p l) (k : t.Taken u p l) : s.Taken u p l :=
  (h.trans k).mono (by simp)

theorem State.Taken.saf {s t : State} {p : Nat} {l : List Nat} (h : s.Taken t p l) : t.saf = s.saf := by rw [h.rest]
theorem State.Taken.late {s t : State} {p : Nat} {l : List Nat} (h : s.Taken t p l) : t.late = s.late := by rw [h.rest]
theorem State.Taken.cfg {s t : State} {p : Nat} {l : List Nat} (h : s.Taken t p l) : (t.rp p).cfg = (s.rp p).cfg := by rw [h.notes]
theorem State.Taken.alters {s t : State} {p : Nat} {l : List Nat} (h : s.Taken t p l) : s.Alters t l := ⟨h.regs, h.late⟩

theorem setRp_taken {s : State} {p : Nat} {x : RingPort} {l : List Nat} (h : (s.rp p).Notes x) : s.Taken (s.setRp p x) p l :=
  (setRp_noted h).taken.mono (by simp)

theorem forEach_taken {α : Type} {p : Nat} {l : List Nat} {f : α → State → State} (hf : ∀ x t, State.Taken t (f x t) p l) (xs : List α) :
    ∀ s : State, s.Taken (forEach f xs s) p l := by
  induction xs with
  | nil => intro s; exact .refl s p l
  | cons x xs ih => intro s; exact (hf x s).again (ih (f x s))

/-! ### Stores to cell memory -/

theorem controlPathError_taken (s : State) (scrub : Bool) (p : Nat) : s.Taken (s.controlPathError scrub) p storeRegs := by
  unfold State.controlPathError
  split
  · exact ((alarm_signals _ _ _ _).taken p).mono (by decide)
  · have hset := (setBit_writes s Reg.MEM_STAT 2 true).taken p
    dsimp only
    split
    · exact ((hset.trans ((event_signals _ _ _ _).taken p)).trans ((stopCause_triggers _ _).taken p)).mono (by decide)
    · exact (hset.trans ((alarm_signals _ _ _ _).taken p)).mono (by decide)

theorem ueFound_taken (s : State) (mem a : Nat) (scrub : Bool) (p : Nat) : s.Taken (s.ueFound mem a scrub) p storeRegs := by
  unfold State.ueFound
  extract_lets w ue ecc s0 s1 s2
  have h0 : s.Taken s0 p storeRegs := ⟨fun _ _ => rfl, rfl, .refl _⟩
  have h1 : s0.Taken s1 p storeRegs := by
    unfold s1
    split
    · exact ((((inc_writes _ _).trans (setBit_writes _ _ _ _)).signals.trans (event_signals _ _ _ _)).taken p).mono (by decide)
    · exact ((inc_writes _ _).taken p).mono (by decide)
  have h2 : s1.Taken s2 p storeRegs :=
    (((((wr64_writes _ _ _).trans (setBit_writes _ _ _ _)).signals.trans (event_signals _ _ _ _)).trans
      (detLapse_signals _)).taken p).mono (by decide)
  split
  · exact ((h0.again h1).again h2).again (controlPathError_taken _ _ p)
  · exact (h0.again h1).again h2

theorem ueReplaced_taken (s : State) (mem a n p : Nat) : s.Taken (s.ueReplaced mem a n) p [] := by
  unfold State.ueReplaced
  split
  · exact .refl _ _ _
  · exact ⟨fun _ _ => rfl, rfl, .refl _⟩

/-- Another content of cell memory alone. -/
theorem withCell_taken (s : State) (m : Memory) (p : Nat) : s.Taken { s with cell := m } p [] := ⟨fun _ _ => rfl, rfl, .refl _⟩

theorem setCell_taken (s : State) (a n v p : Nat) : s.Taken (s.setCell a n v) p storeRegs := by
  unfold State.setCell
  split
  · exact .refl _ _ _
  · split
    · exact ((((inc_writes _ _).trans (setBit_writes _ _ _ _)).taken p).mono (by decide)).again (ueFound_taken _ _ _ _ p)
    · exact ((withCell_taken _ _ p).trans (ueReplaced_taken _ _ _ _ p)).mono (by simp)

theorem clearCell_taken (s : State) (a len p : Nat) : s.Taken (s.clearCell a len) p [] := by
  unfold State.clearCell
  split
  · exact (withCell_taken _ _ p).trans (ueReplaced_taken _ _ _ _ p)
  · exact .refl _ _ _

theorem copyCell_taken (s : State) (src dst len p : Nat) : s.Taken (s.copyCell src dst len) p [] := by
  unfold State.copyCell
  split
  · exact (withCell_taken _ _ p).trans (ueReplaced_taken _ _ _ _ p)
  · exact .refl _ _ _

theorem storeCell_taken (s : State) (a n v p : Nat) : s.Taken (s.storeCell a n v) p storeRegs := by
  unfold State.storeCell
  split
  · exact ((inc_writes _ _).taken p).mono (by decide)
  · exact setCell_taken _ _ _ _ p

/-- A further store, where the registers in which it may show are among those that may differ. -/
theorem State.Taken.setCell {s t : State} {p : Nat} {l : List Nat} (h : s.Taken t p l) (hl : ∀ a ∈ storeRegs, a ∈ l) (a n v : Nat) :
    s.Taken (t.setCell a n v) p l := h.again ((setCell_taken t a n v p).mono hl)

/-! ### The receive log, rule R268 -/

/-- The registers in which a frame that comes in may show, beside those of a store. -/
abbrev rxRegs (p : Nat) : List Nat :=
  [Reg.RNG_RXLOG_HEAD p, Reg.RNG_RXLOG_DROP_CNT p, Reg.PG_IRQ_RAW (ringPage p), Reg.RNG_HOLD_CNT p, Reg.RNG_CRC_CNT_A p, Reg.RNG_CRC_CNT_B p]

/-- A register of a port that a frame does not show in: it is none of the port's own, and no store shows in it. -/
theorem notMem_rx {p a : Nat} (h : 0x40010000 ≤ a) (hl : a ∉ rxRegs p) : a ∉ storeRegs ++ rxRegs p := notMem_storeRegs_append h hl

theorem rxLog_taken (s : State) (p typ : Nat) (l : Lane) (src len cyc raw : Nat) :
    s.Taken (s.rxLog p typ l src len cyc raw) p (storeRegs ++ rxRegs p) := by
  have hm : ∀ a ∈ storeRegs, a ∈ storeRegs ++ rxRegs p := fun _ => List.mem_append_left _
  unfold State.rxLog
  dsimp only
  split
  · exact (((inc_writes _ _).signals.trans (event_signals _ _ _ _)).taken p).mono (by simp)
  · exact ((((((((((State.Taken.refl s p _).setCell hm _ _ _).setCell hm _ _ _).setCell hm _ _ _).setCell hm _ _ _).setCell hm _ _ _).setCell
      hm _ _ _).setCell hm _ _ _).again ((clearCell_taken _ _ _ p).mono (by simp))).again (((setFld_writes _ _ _ _ _).taken p).mono (by simp)))

/-- With room in the log, its head moves on. -/
theorem rxLog_head {s : State} {p : Nat} (h : (s.fld (Reg.RNG_RXLOG_HEAD p) 7 0 + 1) % 256 ≠ s.fld (Reg.RNG_RXLOG_TAIL p) 7 0)
    (typ : Nat) (l : Lane) (src len cyc raw : Nat) :
    (s.rxLog p typ l src len cyc raw).fld (Reg.RNG_RXLOG_HEAD p) 7 0 = (s.fld (Reg.RNG_RXLOG_HEAD p) 7 0 + 1) % 256 := by
  unfold State.rxLog
  dsimp only
  rw [if_neg h]
  exact fld_setFld (by decide) (by decide) _ _ _

/-! ### A frame on one lane -/

theorem takeFrame_taken (s : State) (p typ : Nat) (l : Lane) (src len : Nat) (h : RxHead) :
    s.Taken (s.takeFrame p typ l src len h) p (storeRegs ++ rxRegs p) := by
  have hcrc : ∀ n, s.Taken (s.crcBad p n l) p (storeRegs ++ rxRegs p) := fun n =>
    ((crcBad_writes s p n l).taken p).mono (by cases l <;> simp [crcReg])
  unfold State.takeFrame
  dsimp only
  split
  · exact (((hcrc _).again (rxLog_taken _ _ _ _ _ _ _ _)).again ((inHeader_noted _ _ _ _ _).taken.mono (by simp))).again
      ((relay_noted _ _ _ _).taken.mono (by simp))
  · exact hcrc _

/-- A frame without its first block is discarded. -/
theorem takeFrame_discarded {h : RxHead} (hk : h.ok.getLsbD 0 = false) (s : State) (p typ : Nat) (l : Lane) (src len : Nat) :
    s.takeFrame p typ l src len h = s.crcBad p (blockCount len - popTo h.ok.toNat (blockCount len)) l := by
  unfold State.takeFrame
  dsimp only
  rw [hk]
  rfl

/-- A frame with its first block and room in the receive log is logged. -/
theorem takeFrame_head {s : State} {p : Fin 4} {h : RxHead} (hk : h.ok.getLsbD 0 = true)
    (hroom : (s.fld (Reg.RNG_RXLOG_HEAD p.val) 7 0 + 1) % 256 ≠ s.fld (Reg.RNG_RXLOG_TAIL p.val) 7 0) (typ : Nat) (l : Lane) (src len : Nat) :
    (s.takeFrame p.val typ l src len h).fld (Reg.RNG_RXLOG_HEAD p.val) 7 0 = (s.fld (Reg.RNG_RXLOG_HEAD p.val) 7 0 + 1) % 256 := by
  have hcrc := fun n => (crcBad_writes s p.val n l).1
  have hh := fun n => (hcrc n).fld (a := Reg.RNG_RXLOG_HEAD p.val) (by cases l <;> simp [crcReg]) 7 0
  have ht := fun n => (hcrc n).fld (a := Reg.RNG_RXLOG_TAIL p.val) (by cases l <;> simp [crcReg]) 7 0
  unfold State.takeFrame
  dsimp only
  rw [if_pos hk, (relay_noted _ _ _ _).regs.fld (by simp), (inHeader_noted _ _ _ _ _).regs.fld (by simp),
    rxLog_head (by rw [hh, ht]; exact hroom), hh]

end Sys2Proof.Machine
end

section
/-! SUPPORT. A write of RNG_CTRL takes a ring port down or starts its lanes (O46). -/

namespace Sys2Proof.Machine

/-! ### The configuration write, rules R237 and R466 -/

theorem cfgWord_ringCtrl (s : State) (ag : Agent) (p : Fin 4) (v : Word) :
    s.cfgWord ag (Reg.RNG_CTRL p.val) v = s.cfgWords ag (Reg.RNG_CTRL p.val) (s.wordOf (Reg.RNG_CTRL p.val) v) := by
  unfold State.cfgWord
  rw [if_neg ((by decide : ∀ p : Fin 4, ¬ (!hasConfig (pageOf (Reg.RNG_CTRL p.val))) = true) p),
    if_neg ((by decide : ∀ p : Fin 4, ¬ Reg.RNG_CTRL p.val = Reg.QTZ_TICK_OFS) p),
    if_neg ((by decide : ∀ p : Fin 4, ¬ wideCfg (Reg.RNG_CTRL p.val) = true) p),
    if_neg ((by decide : ∀ p : Fin 4, ¬ (0x104 ≤ pageOff (Reg.RNG_CTRL p.val) ∧ wideCfg (Reg.RNG_CTRL p.val - 4) = true)) p)]

theorem pageOf_ringCtrl : ∀ p : Fin 4, pageOf (Reg.RNG_CTRL p.val) = Page.RNG p.val := by decide
theorem pageKind_ring : ∀ p : Fin 4, pageKind (Page.RNG p.val) = some (.rng, 0x11, p.val) := by decide

theorem putCfg_ringCtrl (s : State) (p : Fin 4) (x : Word) : s.putCfg (Reg.RNG_CTRL p.val) x = s.ringCtrl p.val x := by
  unfold State.putCfg
  simp only [pageOf_ringCtrl, pageKind_ring, if_true]

theorem cfgState_ringCtrl (s : State) (p : Fin 4) : s.cfgState (Reg.RNG_CTRL p.val) = s.configurable := by
  unfold State.cfgState
  rw [pageOf_ringCtrl, pageKind_ring]

theorem evrMoves_ringCtrl (s : State) (p : Fin 4) (x : Word) : s.evrMoves (Reg.RNG_CTRL p.val) x = false := by
  have h1 : (Reg.RNG_CTRL p.val == Reg.EVT_CTRL) = false := (by decide : ∀ p : Fin 4, (Reg.RNG_CTRL p.val == Reg.EVT_CTRL) = false) p
  have h2 : (Reg.RNG_CTRL p.val == Reg.EVT_EVR_BASE) = false :=
    (by decide : ∀ p : Fin 4, (Reg.RNG_CTRL p.val == Reg.EVT_EVR_BASE) = false) p
  unfold State.evrMoves
  rw [h1, h2]
  simp

/-- An accepted write of RNG_CTRL: its meaning, then the page check. -/
theorem cfgWord_ringCtrl_accepted {s : State} {ag : Agent} {p : Fin 4} {v x : Word} (hw : s.cfgWritable ag (Page.RNG p.val) = true)
    (hc : s.configurable = true) (hm : s.merged (Reg.RNG_CTRL p.val) v = some x)
    (hk : keeps s (s.wr (Reg.RNG_CTRL p.val) x) (Page.RNG p.val) = true) :
    s.cfgWord ag (Reg.RNG_CTRL p.val) v = (s.ringCtrl p.val x).cfgAccepted (Page.RNG p.val) := by
  have hok : (s.configurable && !([(Reg.RNG_CTRL p.val, x)].any fun w => s.evrMoves w.1 w.2) &&
      keeps s (s.wr (Reg.RNG_CTRL p.val) x) (Page.RNG p.val)) = true := by
    simp [hc, hk, evrMoves_ringCtrl]
  rw [cfgWord_ringCtrl, State.wordOf, hm, ← putCfg_ringCtrl]
  unfold State.cfgWords State.cfgWrite
  rw [pageOf_ringCtrl, swWrite_writable (cfgWritable_writable hw), if_neg (by simp [cfgWritable_unlocked hw]), cfgState_ringCtrl]
  exact if_pos hok

/-! ### Lanes, rules R266, R272 and R276 -/

/-- The registers in which a lane that goes OFF may show. -/
abbrev laneRegs (p : Nat) : List Nat :=
  [laneReg p .a, laneReg p .b, Reg.PG_IRQ_RAW (ringPage p), Reg.RNG_BYP_OPEN_CNT p, Reg.RNG_STAT p]

theorem mem_laneRegs (p : Nat) (l : Lane) : laneReg p l ∈ laneRegs p := by cases l <;> simp

theorem bypass_signals (s : State) (p : Nat) (l : Lane) (opened : Bool) : s.Signals (s.bypass p l opened) (laneRegs p) := by
  have hm : ∀ a ∈ [laneReg p l] ++ [Reg.PG_IRQ_RAW (ringPage p)] ++ [Reg.RNG_BYP_OPEN_CNT p], a ∈ laneRegs p := by
    cases l <;> simp
  have hset := (setBit_writes s (laneReg p l) 4 opened).signals.trans (event_signals _ (ringPage p) 12 0)
  unfold State.bypass
  split
  · exact (State.Writes.refl s).signals.mono (by simp)
  · dsimp only
    split
    · exact (hset.trans (inc_writes _ _).signals).mono hm
    · exact hset.mono (fun a ha => hm a (List.mem_append_left _ ha))

theorem stopLane_regs (s : State) (p : Nat) (l : Lane) : s.SameRegs (s.stopLane p l) (laneRegs p) := by
  have hlane : ∀ a ∈ [laneReg p l], a ∈ laneRegs p := by
    intro a ha
    rw [List.mem_singleton.mp ha]
    exact mem_laneRegs p l
  exact ((((bypass_signals s p l false).1.trans (setRp_ports _ p _).1).trans (setFld_writes _ _ _ _ _).1).trans
    (setBit_writes _ _ _ _).1).mono (by simpa using hlane)

theorem lstate_stopLane_self (s : State) (p : Nat) (l : Lane) : (s.stopLane p l).lstate p l = lsOff := by
  unfold State.stopLane State.lstate
  dsimp only
  rw [fld_setBit_ne (by decide) (by decide), fld_setFld_within (by decide) (by decide) (by decide) (by decide)]
  rfl

theorem laneReg_notMem_event : ∀ p : Fin 4, ∀ l : Lane, laneReg p.val l ∉ [Reg.PG_IRQ_RAW (ringPage p.val), Reg.RNG_BYP_OPEN_CNT p.val] := by
  intro p l
  cases l <;> revert p <;> decide

theorem rd_stopLane_b (s : State) (p : Fin 4) : (s.stopLane p.val .b).rd (laneReg p.val .a) = s.rd (laneReg p.val .a) := by
  have hne : laneReg p.val .a ≠ laneReg p.val .b := (by decide : ∀ p : Fin 4, laneReg p.val .a ≠ laneReg p.val .b) p
  unfold State.stopLane
  dsimp only
  rw [rd_setBit_ne hne, rd_setFld_ne hne]
  unfold State.setPassed State.bypass
  rw [rd_setRp]
  split
  · rfl
  · dsimp only
    rw [if_neg (by decide), rd_event (fun h => laneReg_notMem_event p .a (by simp [h])), rd_setBit_ne hne]

theorem statBits_writes (s : State) (p : Nat) : s.Writes (s.statBits p) [Reg.RNG_STAT p] :=
  (((setBit_writes _ _ _ _).trans (setBit_writes _ _ _ _)).trans (setBit_writes _ _ _ _)).mono (by simp)

/-- No lane carries traffic: the port is DOWN. -/
theorem laneBits_down {s : State} {p : Fin 4} (ha : s.lstate p.val .a = lsOff) (hb : s.lstate p.val .b = lsOff) :
    s.Signals (s.laneBits p.val) [Reg.RNG_STAT p.val, Reg.PG_IRQ_RAW (ringPage p.val)] := by
  have hw := statBits_writes s p.val
  have hlane : ∀ l : Lane, (s.statBits p.val).lstate p.val l = s.lstate p.val l := fun l =>
    hw.1.lstate (by cases l <;> simp [laneReg])
  have hup : (s.statBits p.val).anyUp p.val = false := by
    simp [State.anyUp, State.laneUp, hlane, ha, hb, lsOff, lsUp]
  unfold State.laneBits
  dsimp only
  rw [hup]
  split
  · exact hw.signals.mono (by simp)
  · exact (hw.signals.trans (setPstate_signals _ _ _)).mono (by simp)

/-! ### The port goes down, rule R237 -/

/-- What a port keeps when it goes down: the alarm entries it has offered and the software output copy, rule R265. -/
def RingPort.downed (x : RingPort) : RingPort :=
  { RingPort.reset with offered := x.offered, soft := x.soft, softNext := x.softNext }

/-- The port with its lanes OFF, before its state follows. -/
def State.lanesOff (s : State) (p : Nat) : State := ((s.stopLane p .a).stopLane p .b).setRp p (s.rp p).downed

theorem portDown_eq (s : State) (p : Nat) :
    s.portDown p = (((s.lanesOff p).laneBits p).setPstate p psDown).setBit (Reg.RNG_STAT p) 9 false := rfl

theorem lanesOff_regs (s : State) (p : Nat) : s.SameRegs (s.lanesOff p) (laneRegs p) :=
  (((stopLane_regs s p .a).trans (stopLane_regs _ p .b)).trans (setRp_ports _ p _).1).mono (by simp)

theorem lstate_lanesOff (s : State) (p : Fin 4) (l : Lane) : (s.lanesOff p.val).lstate p.val l = lsOff := by
  cases l with
  | a => exact (fld_of_rd (rd_stopLane_b _ p) 2 0).trans (lstate_stopLane_self s p.val .a)
  | b => exact lstate_stopLane_self (s.stopLane p.val .a) p.val .b

theorem portDown_lanesOff (s : State) (p : Fin 4) :
    (s.lanesOff p.val).Signals (s.portDown p.val) [Reg.RNG_STAT p.val, Reg.PG_IRQ_RAW (ringPage p.val)] := by
  rw [portDown_eq]
  exact (((laneBits_down (lstate_lanesOff s p .a) (lstate_lanesOff s p .b)).trans (setPstate_signals _ _ psDown)).trans
    (setBit_writes _ (Reg.RNG_STAT p.val) 9 false).signals).mono (by simp)

theorem laneReg_notMem_stat : ∀ (p : Fin 4) (l : Lane), laneReg p.val l ∉ [Reg.RNG_STAT p.val, Reg.PG_IRQ_RAW (ringPage p.val)] := by
  intro p l
  cases l <;> revert p <;> decide

theorem portDown_regs (s : State) (p : Fin 4) : s.SameRegs (s.portDown p.val) (laneRegs p.val) :=
  ((lanesOff_regs s p.val).trans (portDown_lanesOff s p).1).mono (by simp)

theorem pstate_portDown (s : State) (p : Nat) : (s.portDown p).pstate p = psDown := by
  rw [portDown_eq]
  exact (fld_setBit_ne (by decide) (by decide) _ _ _).trans (pstate_setPstate (by decide) _ _)

theorem lstate_portDown (s : State) (p : Fin 4) (l : Lane) : (s.portDown p.val).lstate p.val l = lsOff :=
  ((portDown_lanesOff s p).1.lstate (laneReg_notMem_stat p l)).trans (lstate_lanesOff s p l)

theorem rp_portDown (s : State) (p : Fin 4) : (s.portDown p.val).rp p.val = (s.rp p.val).downed :=
  ((portDown_lanesOff s p).rp p.val).trans (rp_setRp_self _ _ _)

/-! ### The port starts, rule R276 -/

theorem startLane_ports (s : State) (p : Nat) (l : Lane) : s.SameRegs (s.startLane p l) [laneReg p l] := by
  unfold State.startLane
  split
  · exact (setRp_ports s p _).1.trans (setFld_writes _ _ _ _ _).1
  · exact (State.SameRegs.refl s).mono (by simp)

theorem portStart_regs (s : State) (p : Nat) : s.SameRegs (s.portStart p) [laneReg p .a, laneReg p .b] :=
  (startLane_ports _ _ _).trans (startLane_ports _ _ _)

/-- Lane A of an enabled port leaves OFF for TRAIN. -/
theorem lstate_portStart {s : State} {p : Fin 4} (he : s.portEn p.val = true) (hd : s.domOn 9 = true) (hl : s.lstate p.val .a = lsOff) :
    (s.portStart p.val).lstate p.val .a = lsTrain := by
  unfold State.portStart
  rw [(startLane_ports _ p.val .b).lstate ((by decide : ∀ p : Fin 4, laneReg p.val .a ∉ [laneReg p.val .b]) p)]
  unfold State.startLane
  rw [if_pos (by simp [he, hd, hl, State.laneUsed])]
  exact (fld_setFld (by decide) (by decide) _ _ _).trans rfl

/-! ### RNG_CTRL -/

theorem domOn_of_writable {s : State} {ag : Agent} {p : Fin 4} (h : s.writable ag (Page.RNG p.val) = true) : s.domOn 9 = true := by
  simp only [State.writable, Bool.and_eq_true] at h
  have h9 : domainOf (Page.RNG p.val) = 9 := (by decide : ∀ p : Fin 4, domainOf (Page.RNG p.val) = 9) p
  rw [← h9]
  exact h.1.1.2

/-- The bits of RNG_CTRL. -/
def ringCtrlMask (x : Word) : Word := x &&& 0x3FFF3F

theorem ringCtrlMask_en (x : Word) : (ringCtrlMask x).getLsbD 0 = x.getLsbD 0 := by simp [ringCtrlMask]

/-- RNG_CTRL written, before the port follows EN. -/
def State.ctrlWritten (s : State) (p : Nat) (x : Word) : State := s.wr (Reg.RNG_CTRL p) (ringCtrlMask x)

theorem portEn_ctrlWritten (s : State) (p : Nat) (x : Word) : (s.ctrlWritten p x).portEn p = x.getLsbD 0 := by
  unfold State.portEn State.bit State.ctrlWritten
  rw [rd_wr_self, ringCtrlMask_en]

theorem ringCtrl_stops {s : State} {p : Nat} {x : Word} (he : s.portEn p = true) (hx : x.getLsbD 0 = false) :
    s.ringCtrl p x = (s.ctrlWritten p x).portDown p := by
  have h := portEn_ctrlWritten s p x
  unfold State.ringCtrl
  exact if_pos (by rw [he, show State.portEn (s.wr (Reg.RNG_CTRL p) (x &&& 0x3FFF3F)) p = _ from h, hx]; rfl)

theorem ringCtrl_starts {s : State} {p : Nat} {x : Word} (he : s.portEn p = false) (hx : x.getLsbD 0 = true) :
    s.ringCtrl p x = (s.ctrlWritten p x).portStart p := by
  have h : State.portEn (s.wr (Reg.RNG_CTRL p) (x &&& 0x3FFF3F)) p = x.getLsbD 0 := portEn_ctrlWritten s p x
  simp only [State.ringCtrl, he, h, hx, Bool.false_and, Bool.false_eq_true, if_false, Bool.not_false, Bool.and_self, if_true]
  rfl

theorem ringCtrl_notMem : ∀ p : Fin 4, Reg.RNG_CTRL p.val ∉ laneRegs p.val := by decide

theorem rd_ringCtrl (s : State) (p : Fin 4) (x : Word) : (s.ringCtrl p.val x).rd (Reg.RNG_CTRL p.val) = ringCtrlMask x := by
  have hw : (s.ctrlWritten p.val x).rd (Reg.RNG_CTRL p.val) = ringCtrlMask x := rd_wr_self _ _ _
  unfold State.ringCtrl
  dsimp only
  split
  · exact (portDown_regs _ p _ (ringCtrl_notMem p)).trans hw
  · split
    · exact (portStart_regs _ p.val _ (by simp [laneReg])).trans hw
    · exact hw

/-- The registers of the page check. -/
abbrev pageRegs (p : Nat) : List Nat := [Reg.PG_CFG_SEQ (Page.RNG p), Reg.PG_STAT (Page.RNG p)]

theorem laneReg_notMem_page : ∀ (p : Fin 4) (l : Lane), laneReg p.val l ∉ pageRegs p.val := by
  intro p l
  cases l <;> revert p <;> decide

/-- What an accepted write of RNG_CTRL leaves of the port: EN takes it down or starts its lanes, and the page check shows in none of its
registers. -/
theorem ringCtrl_clause {s : State} {p : Fin 4} {x : Word} (hd : s.domOn 9 = true) {t : State}
    (h : t = (s.ringCtrl p.val x).cfgAccepted (Page.RNG p.val)) :
    t.rd (Reg.RNG_CTRL p.val) = x &&& 0x3FFF3F ∧
      (s.portEn p.val = true → x.getLsbD 0 = false →
        t.pstate p.val = psDown ∧ t.lstate p.val .a = lsOff ∧ t.lstate p.val .b = lsOff ∧ t.rp p.val = (s.rp p.val).downed) ∧
      (s.portEn p.val = false → x.getLsbD 0 = true → s.lstate p.val .a = lsOff → t.lstate p.val .a = lsTrain) := by
  have hw := cfgAccepted_writes (s.ringCtrl p.val x) (Page.RNG p.val)
  rw [← h] at hw
  have hlane : ∀ l, t.lstate p.val l = (s.ringCtrl p.val x).lstate p.val l := fun l =>
    hw.1.lstate (laneReg_notMem_page p l)
  refine ⟨?_, fun he hx => ?_, fun he hx hl => ?_⟩
  · exact (hw.1 _ ((by decide : ∀ p : Fin 4, Reg.RNG_CTRL p.val ∉ pageRegs p.val) p)).trans (rd_ringCtrl s p x)
  · have hst := hw.1.pstate ((by decide : ∀ p : Fin 4, Reg.RNG_STAT p.val ∉ pageRegs p.val) p)
    rw [ringCtrl_stops he hx] at hst hlane hw
    exact ⟨hst.trans (pstate_portDown _ _), (hlane .a).trans (lstate_portDown _ p .a), (hlane .b).trans (lstate_portDown _ p .b),
      (hw.signals.rp p.val).trans (rp_portDown _ p)⟩
  · rw [hlane .a, ringCtrl_starts he hx]
    exact lstate_portStart ((portEn_ctrlWritten _ _ _).trans hx)
      ((bit_of_rd (rd_wr_ne ((by decide : ∀ p : Fin 4, Reg.PWR_DOM_STAT ≠ Reg.RNG_CTRL p.val) p) _ _) 9).trans hd)
      ((fld_of_rd (rd_wr_ne ((by decide : ∀ p : Fin 4, laneReg p.val .a ≠ Reg.RNG_CTRL p.val) p) _ _) 2 0).trans hl)

end Sys2Proof.Machine
end

section
/-! SUPPORT. Claims, the time master, backups and silent nodes of a ring (O46). -/

namespace Sys2Proof.Machine

/-! ### Claims, rules R241 and R248 -/

theorem sendClaim_noted (s : State) (p : Nat) : s.Noted (s.sendClaim p) p [Reg.RNG_CLAIM_CNT p] :=
  ((inc_writes _ _).noted p).trans (send_noted _ _ _)

theorem rdN_sendClaim (s : State) (p : Nat) :
    (s.sendClaim p).rdN (Reg.RNG_CLAIM_CNT p) = min (s.rdN (Reg.RNG_CLAIM_CNT p) + 1) 0xFFFFFFFF :=
  ((send_noted _ _ _).regs.rdN List.not_mem_nil).trans (rdN_inc _ _)

/-- The port as it begins to claim. -/
def RingPort.claims (x : RingPort) : RingPort := { x with claiming := true, rounds := 0, claimBack := false }

theorem listenEnd_clause (s : State) (p : Nat) {t : State} (h : t = ((s.setRp p (s.rp p).claims).setPstate p psClaim).sendClaim p) :
    t.pstate p = psClaim ∧ (t.rp p).claiming = true ∧ (t.rp p).rounds = 0 ∧
      t.rdN (Reg.RNG_CLAIM_CNT p) = min (s.rdN (Reg.RNG_CLAIM_CNT p) + 1) 0xFFFFFFFF ∧
      s.SameRegs t [Reg.RNG_STAT p, Reg.RNG_CLAIM_CNT p, Reg.PG_IRQ_RAW (ringPage p)] ∧ s.SameMemory t := by
  have hset := setPstate_signals (s.setRp p (s.rp p).claims) p psClaim
  have hsent := sendClaim_noted ((s.setRp p (s.rp p).claims).setPstate p psClaim) p
  have hall := ((setRp_ports s p (s.rp p).claims).trans hset.ports).trans hsent.ports
  have hrp := hsent.notes
  rw [hset.rp p, rp_setRp_self, ← h] at hrp
  rw [← h] at hall hsent
  refine ⟨?_, ?_, ?_, ?_, hall.1.mono (by simp), hall.memory⟩
  · rw [hsent.regs.pstate (by simp), pstate_setPstate (by decide)]
  · rw [hrp]; rfl
  · rw [hrp]; rfl
  · rw [h, rdN_sendClaim, hset.1.rdN (by simp [irqRaw_ring])]
    rfl

/-- A frame of claims, up to the judgement of the claim. -/
def State.claimTaken (s : State) (p : Nat) (l : Lane) (src prio dev : Nat) (h : RxHead) : State :=
  if s.ownClaim p src prio dev then
    (s.takeFrame p 9 l src 8 h).setRp p { (s.takeFrame p 9 l src 8 h).rp p with relayed := (s.rp p).relayed }
  else s.takeFrame p 9 l src 8 h

theorem claimFrame_eq {h : RxHead} (hk : h.ok.getLsbD 0 = true) (s : State) (p : Nat) (l : Lane) (src prio dev : Nat) :
    s.claimFrame p l src prio dev h = (s.claimTaken p l src prio dev h).claimIn p src prio dev := by
  unfold State.claimFrame
  exact if_pos hk

theorem claimTaken_taken (s : State) (p : Nat) (l : Lane) (src prio dev : Nat) (h : RxHead) :
    s.Taken (s.claimTaken p l src prio dev h) p (storeRegs ++ rxRegs p) := by
  unfold State.claimTaken
  have ht := takeFrame_taken s p 9 l src 8 h
  split
  · exact ht.again (setRp_taken rfl)
  · exact ht

theorem ringStat_notMem_rx : ∀ p : Fin 4, Reg.RNG_STAT p.val ∉ storeRegs ++ rxRegs p.val := by decide
theorem ringCtrl_notMem_rx : ∀ p : Fin 4, Reg.RNG_CTRL p.val ∉ storeRegs ++ rxRegs p.val := by decide
theorem sysId_notMem_rx : ∀ p : Fin 4, Reg.SYS_ID ∉ storeRegs ++ rxRegs p.val ∧ Reg.SYS_ID + 4 ∉ storeRegs ++ rxRegs p.val := by decide

theorem deviceId_of_same {s t : State} {l : List Nat} (h : s.SameRegs t l) (h1 : Reg.SYS_ID ∉ l) (h2 : Reg.SYS_ID + 4 ∉ l) :
    t.deviceId = s.deviceId := by
  unfold State.deviceId
  rw [rd64_of_same h h1 h2]

/-- What is received leaves the port's state, its configuration in force and the device ID. -/
theorem State.Taken.pstate {s t : State} {p : Fin 4} (h : s.Taken t p.val (storeRegs ++ rxRegs p.val)) : t.pstate p.val = s.pstate p.val :=
  h.regs.pstate (ringStat_notMem_rx p)
theorem State.Taken.rcFld {s t : State} {p : Fin 4} (h : s.Taken t p.val (storeRegs ++ rxRegs p.val)) {a : Nat}
    (ha : a ∉ storeRegs ++ rxRegs p.val) (hi lo : Nat) : t.rcFld p.val a hi lo = s.rcFld p.val a hi lo :=
  rcFld_of_same h.pstate (h.regs a ha) h.cfg hi lo
theorem State.Taken.deviceId {s t : State} {p : Fin 4} (h : s.Taken t p.val (storeRegs ++ rxRegs p.val)) : t.deviceId = s.deviceId :=
  deviceId_of_same h.regs (sysId_notMem_rx p).1 (sysId_notMem_rx p).2

/-- No claim is better than itself. -/
theorem betterClaim_irrefl (prio dev : Nat) : betterClaim prio dev prio dev = false := by simp [betterClaim]

section
variable {s : State} {p src prio dev : Nat} (hp : s.pstate p = psClaim) (hc : (s.rp p).claiming = true)
include hp hc

theorem claimIn_better (hb : betterClaim prio dev (s.rcFld p (Reg.RNG_CTRL p) 15 8) s.deviceId = true) :
    s.claimIn p src prio dev =
      (((s.setRp p { s.rp p with claiming := false, served := true }).setBit (Reg.RNG_STAT p) 11 true).event (ringPage p) 7 0).setPstate p
        psNode := by
  have hne : ¬ (prio = s.rcFld p (Reg.RNG_CTRL p) 15 8 ∧ dev = s.deviceId) := by
    rintro ⟨rfl, rfl⟩
    rw [betterClaim_irrefl] at hb
    cases hb
  unfold State.claimIn
  dsimp only
  rw [hp]
  simp only [psClaim, hc, Bool.not_true, Bool.false_eq_true, if_false, hne, hb, if_true]

theorem claimIn_own (h1 : prio = s.rcFld p (Reg.RNG_CTRL p) 15 8) (h2 : dev = s.deviceId) :
    s.claimIn p 0xFE prio dev = s.setRp p { s.rp p with rounds := (s.rp p).rounds + b2n (!(s.rp p).claimBack), claimBack := true } := by
  unfold State.claimIn
  dsimp only
  rw [hp]
  simp only [psClaim, hc, Bool.not_true, Bool.false_eq_true, if_false, h1, h2, and_self, if_true]

theorem claimIn_double (h1 : prio = s.rcFld p (Reg.RNG_CTRL p) 15 8) (h2 : dev = s.deviceId) (h3 : src ≠ 0xFE) :
    s.claimIn p src prio dev =
      ((s.setRp p { s.rp p with claiming := false }).setBit (Reg.RNG_STAT p) 9 true).event (ringPage p) 7 0 := by
  unfold State.claimIn
  dsimp only
  rw [hp]
  simp only [psClaim, hc, Bool.not_true, Bool.false_eq_true, if_false, h1, h2, h3, and_self, if_true]

end

theorem claimBetter_clause (s : State) (p : Nat) {t : State}
    (h : t = (((s.setRp p { s.rp p with claiming := false, served := true }).setBit (Reg.RNG_STAT p) 11 true).event (ringPage p) 7
      0).setPstate p psNode) :
    t.pstate p = psNode ∧ t.bit (Reg.RNG_STAT p) 11 = true ∧ (t.rp p).claiming = false := by
  subst h
  refine ⟨pstate_setPstate (by decide) _ _, ?_, ?_⟩
  · rw [bit_setPstate (by decide), if_neg (by decide), if_neg (by decide), bit_of_rd (rd_event (ringStat_ne_irqRaw p) _ _ _),
      bit_setBit_self (by decide)]
  · rw [(setPstate_signals _ _ _).rp p, (event_signals _ _ _ _).rp p, (setBit_writes _ _ _ _).signals.rp p, rp_setRp_self]

theorem claimDouble_clause (s : State) (p : Nat) {t : State}
    (h : t = ((s.setRp p { s.rp p with claiming := false }).setBit (Reg.RNG_STAT p) 9 true).event (ringPage p) 7 0) :
    t.pstate p = s.pstate p ∧ t.bit (Reg.RNG_STAT p) 9 = true ∧ (t.rp p).claiming = false := by
  subst h
  have hst := rd_event (ringStat_ne_irqRaw p) ((s.setRp p { s.rp p with claiming := false }).setBit (Reg.RNG_STAT p) 9 true) 7 0
  refine ⟨?_, ?_, ?_⟩
  · exact (fld_of_rd hst 3 0).trans (fld_setBit_ne (by decide) (by decide) _ _ _)
  · rw [bit_of_rd hst, bit_setBit_self (by decide)]
  · rw [(event_signals _ _ _ _).rp p, (setBit_writes _ _ _ _).signals.rp p, rp_setRp_self]

/-! ### The time master, rule R248 -/

/-- The nodes' registers that discovery starts from. -/
abbrev linkRegs (p : Nat) : List Nat := (List.range 64).map (Reg.RNG_NODE_LINK p)

/-- Every node's DSTATE and position are cleared. -/
def State.clearLinks (s : State) (p : Nat) : State := forUpTo (fun n st => st.wr (Reg.RNG_NODE_LINK p n) 0) 64 s

theorem clearUpTo_writes (s : State) (p n : Nat) :
    s.Writes (forUpTo (fun n st => st.wr (Reg.RNG_NODE_LINK p n) 0) n s) ((List.range n).map (Reg.RNG_NODE_LINK p)) := by
  induction n with
  | zero => exact .refl s
  | succ n ih => exact (ih.trans (wr_writes _ _ _)).mono (by simp [List.range_succ])

theorem rd_clearUpTo (s : State) (p : Nat) {n k : Nat} (h : k < n) :
    (forUpTo (fun n st => st.wr (Reg.RNG_NODE_LINK p n) 0) n s).rd (Reg.RNG_NODE_LINK p k) = 0 := by
  induction n with
  | zero => omega
  | succ n ih =>
    change ((forUpTo (fun n st => st.wr (Reg.RNG_NODE_LINK p n) 0) n s).wr (Reg.RNG_NODE_LINK p n) 0).rd _ = 0
    rw [rd_wr]
    split
    · rfl
    · next hne => exact ih (by have : k ≠ n := fun e => hne (by rw [e]); omega)

/-- The port's record as it enters INIT. -/
def RingPort.discovers (x : RingPort) : RingPort :=
  { x with claiming := false, pass := 1, addr := 0, ended := false, refused := false, polled := none, desc := [], descAt := [], loopA := [],
           loopB := [] }

/-- The time master's identity: priority and device ID, rule R245. -/
def State.masterId (s : State) (p : Nat) : Nat := s.deviceId + 281474976710656 * s.rcFld p (Reg.RNG_CTRL p) 15 8

theorem masterId_lt (s : State) (p : Nat) : s.masterId p < 2 ^ 64 := by
  have h1 : s.deviceId < 281474976710656 := Nat.mod_lt _ (by decide)
  have h2 : s.rcFld p (Reg.RNG_CTRL p) 15 8 < 256 := Nat.mod_lt _ (by decide)
  unfold State.masterId
  omega

theorem rd64_masterId (s t : State) (p : Nat) : (s.wr64 (Reg.RNG_TM_ID p) (t.masterId p)).rd64 (Reg.RNG_TM_ID p) = t.masterId p := by
  rw [rd64_wr64]
  exact Nat.mod_eq_of_lt (masterId_lt t p)

/-- The port that has won, with its identity and nothing discovered, before it enters INIT. -/
def State.mastered (s : State) (p : Nat) : State :=
  ((((s.setRp p (s.rp p).discovers).clearLinks p).wr (Reg.RNG_DISC_STAT p) 0).setFld (Reg.RNG_STAT p) 17 16 0).wr64 (Reg.RNG_TM_ID p)
    (((s.setRp p (s.rp p).discovers).clearLinks p).masterId p)

theorem claimWon_eq {s : State} {p : Nat} (h1 : s.ringOn = true) (h2 : s.pstate p = psClaim) (h3 : (s.rp p).claiming = true)
    (h4 : s.ringFree = true) (h5 : 3 ≤ (s.rp p).rounds) : s.claimWon p = ((s.mastered p).event (ringPage p) 7 0).setPstate p psInit := by
  unfold State.claimWon
  exact if_pos (by simp [h1, h2, h3, h4, h5])

/-- The registers in which a port that has won shows. -/
abbrev wonRegs (p : Nat) : List Nat := linkRegs p ++ [Reg.RNG_DISC_STAT p, Reg.RNG_STAT p, Reg.RNG_TM_ID p, Reg.RNG_TM_ID p + 4]

theorem clearLinks_masterId (s : State) (p : Fin 4) :
    ((s.setRp p.val (s.rp p.val).discovers).clearLinks p.val).masterId p.val = s.masterId p.val := by
  have hw := clearUpTo_writes (s.setRp p.val (s.rp p.val).discovers) p.val 64
  have hlow : ∀ a, a < 0x40020C00 + 0x1000 * p.val → a ∉ (List.range 64).map (Reg.RNG_NODE_LINK p.val) := by
    intro a ha hm
    obtain ⟨n, -, rfl⟩ := List.mem_map.mp hm
    exact absurd ha (by simp only [Reg.RNG_NODE_LINK]; omega)
  have hid : ((s.setRp p.val (s.rp p.val).discovers).clearLinks p.val).deviceId = s.deviceId :=
    deviceId_of_same hw.1 (hlow _ (by simp only [Reg.SYS_ID]; omega)) (hlow _ (by simp only [Reg.SYS_ID]; omega))
  have hcfg : ((s.setRp p.val (s.rp p.val).discovers).clearLinks p.val).rcFld p.val (Reg.RNG_CTRL p.val) 15 8 =
      s.rcFld p.val (Reg.RNG_CTRL p.val) 15 8 := by
    have hctrl : Reg.RNG_CTRL p.val < 0x40020C00 + 0x1000 * p.val := Nat.add_lt_add_right (by decide) _
    have hrp : ((s.setRp p.val (s.rp p.val).discovers).clearLinks p.val).rp p.val = (s.rp p.val).discovers :=
      (hw.signals.rp p.val).trans (rp_setRp_self _ _ _)
    have hst : ((s.setRp p.val (s.rp p.val).discovers).clearLinks p.val).pstate p.val = s.pstate p.val :=
      hw.1.pstate (hlow _ (Nat.add_lt_add_right (by decide) _))
    exact rcFld_of_same hst (hw.1 _ (hlow _ hctrl)) (by rw [hrp]; rfl) 15 8
  unfold State.masterId
  rw [hid, hcfg]

theorem mastered_ports (s : State) (p : Nat) : s.PortsFrame (s.mastered p) (wonRegs p) :=
  ((setRp_ports s p (s.rp p).discovers).trans ((((clearUpTo_writes _ p 64).trans (wr_writes _ _ _)).trans (setFld_writes _ _ _ _ _)).trans
    (wr64_writes _ _ _)).ports).mono (by simp)

theorem rp_mastered (s : State) (p : Nat) : (s.mastered p).rp p = (s.rp p).discovers :=
  (((((clearUpTo_writes _ p 64).trans (wr_writes _ _ _)).trans (setFld_writes _ _ _ _ _)).trans (wr64_writes _ _ _)).signals.rp
    p).trans (rp_setRp_self _ _ _)

theorem dstate_mastered {n : Nat} (h : n < 64) (s : State) (p : Fin 4) : (s.mastered p.val).dstate p.val n = 0 := by
  have hne : ∀ a, a < 0x40020C00 + 0x1000 * p.val → Reg.RNG_NODE_LINK p.val n ≠ a := by
    rintro a ha rfl
    exact absurd ha (by simp only [Reg.RNG_NODE_LINK]; omega)
  have htm : Reg.RNG_TM_ID p.val + 4 < 0x40020C00 + 0x1000 * p.val := by simp only [Reg.RNG_TM_ID]; omega
  have hrd : (s.mastered p.val).rd (Reg.RNG_NODE_LINK p.val n) = 0 := by
    unfold State.mastered
    rw [rd_wr64_ne (hne _ (Nat.add_lt_add_right (by decide) _)) (hne _ htm),
      rd_setFld_ne (hne _ (Nat.add_lt_add_right (by decide) _)), rd_wr_ne (hne _ (Nat.add_lt_add_right (by decide) _))]
    exact rd_clearUpTo _ _ h
  unfold State.dstate State.fld State.rdN
  rw [hrd]
  rfl

theorem tmId_notMem_stat : ∀ p : Fin 4, Reg.RNG_TM_ID p.val ∉ [Reg.RNG_STAT p.val, Reg.PG_IRQ_RAW (ringPage p.val)] ∧
    Reg.RNG_TM_ID p.val + 4 ∉ [Reg.RNG_STAT p.val, Reg.PG_IRQ_RAW (ringPage p.val)] := by decide

theorem claimWon_clause (s : State) (p : Fin 4) {t : State} (h : t = ((s.mastered p.val).event (ringPage p.val) 7 0).setPstate p.val psInit) :
    t.pstate p.val = psInit ∧ t.bit (Reg.RNG_STAT p.val) 6 = true ∧ t.fld (Reg.RNG_STAT p.val) 17 16 = 0 ∧
      t.rd64 (Reg.RNG_TM_ID p.val) = s.masterId p.val ∧ (∀ n, n < 64 → t.dstate p.val n = 0) ∧ (t.rp p.val).desc = [] ∧ s.SameMemory t := by
  have hset := setPstate_signals ((s.mastered p.val).event (ringPage p.val) 7 0) p.val psInit
  have hafter : (s.mastered p.val).Signals t [Reg.RNG_STAT p.val, Reg.PG_IRQ_RAW (ringPage p.val)] := by
    rw [h]
    exact ((event_signals _ _ _ _).trans hset).mono (by simp)
  refine ⟨?_, ?_, ?_, ?_, fun n hn => ?_, ?_, ((mastered_ports s p.val).trans hafter.ports).memory⟩
  · rw [h, pstate_setPstate (by decide)]
  · rw [h, bit_setPstate (by decide), if_pos rfl]
    rfl
  · rw [h, fld_setPstate (by decide), fld_of_rd (rd_event (ringStat_ne_irqRaw p.val) _ _ _)]
    exact (fld_of_rd (rd_wr64_ne (by simp) ((by decide : ∀ p : Fin 4, Reg.RNG_STAT p.val ≠ Reg.RNG_TM_ID p.val + 4) p) _ _) _ _).trans
      (fld_setFld (by decide) (by decide) _ _ _)
  · rw [rd64_of_same hafter.1 (tmId_notMem_stat p).1 (tmId_notMem_stat p).2]
    exact (rd64_masterId _ _ _).trans (clearLinks_masterId s p)
  · have hlink := (by decide : ∀ (p : Fin 4) (n : Fin 64), Reg.RNG_NODE_LINK p.val n.val ∉
      [Reg.RNG_STAT p.val, Reg.PG_IRQ_RAW (ringPage p.val)]) p ⟨n, hn⟩
    exact (hafter.1.fld hlink 2 0).trans (dstate_mastered hn s p)
  · rw [hafter.rp p.val, rp_mastered]
    rfl

/-! ### Backups, rule R246 -/

/-- A backup in charge, with its rank and identity, before its condition is raised. -/
def State.inCharge (s : State) (p : Nat) : State :=
  (((s.setBit (Reg.RNG_STAT p) 7 true).setFld (Reg.RNG_STAT p) 17 16 (s.rcFld p (Reg.RNG_BKUP p) 31 24)).wr64 (Reg.RNG_TM_ID p)
    (s.masterId p)).inc (Reg.RNG_BACKUP_CNT p)

theorem backupTakeover_eq {s : State} {p : Nat} (h1 : s.ringOn = true) (h2 : s.pstate p = psNode)
    (h3 : s.rcFld p (Reg.RNG_BKUP p) 31 24 ≠ 0) (h4 : 2 ≤ (s.rp p).noRef) (h5 : s.bit (Reg.RNG_STAT p) 7 = false) (h6 : s.ringFree = true) :
    s.backupTakeover p = (s.inCharge p).event (ringPage p) 8 0 := by
  unfold State.backupTakeover
  exact if_pos (by simp [h1, h2, h3, h4, h5, h6])

/-- The registers in which a backup in charge shows. -/
abbrev chargeRegs (p : Nat) : List Nat := [Reg.RNG_STAT p, Reg.RNG_TM_ID p, Reg.RNG_TM_ID p + 4, Reg.RNG_BACKUP_CNT p]

theorem inCharge_writes (s : State) (p : Nat) : s.Writes (s.inCharge p) (chargeRegs p) :=
  ((((setBit_writes _ _ _ _).trans (setFld_writes _ _ _ _ _)).trans (wr64_writes _ _ _)).trans (inc_writes _ _)).mono (by simp)

theorem backupTakeover_clause {s : State} {p : Fin 4} (hc : s.clocked = true) {t : State}
    (h : t = (s.inCharge p.val).event (ringPage p.val) 8 0) :
    t.bit (Reg.RNG_STAT p.val) 7 = true ∧
      t.fld (Reg.RNG_STAT p.val) 17 16 = s.rcFld p.val (Reg.RNG_BKUP p.val) 31 24 % 4 ∧ t.rd64 (Reg.RNG_TM_ID p.val) = s.masterId p.val ∧
      t.rdN (Reg.RNG_BACKUP_CNT p.val) = min (s.rdN (Reg.RNG_BACKUP_CNT p.val) + 1) 0xFFFFFFFF ∧
      s.Raises t (chargeRegs p.val ++ [Reg.PG_IRQ_RAW (ringPage p.val)]) [⟨ringPage p.val, 8, false, 0, s.now⟩] := by
  have htm := (by decide : ∀ p : Fin 4, Reg.RNG_STAT p.val ≠ Reg.RNG_TM_ID p.val + 4 ∧ Reg.RNG_TM_ID p.val + 4 ≠ Reg.RNG_BACKUP_CNT p.val) p
  have hcnt := (by decide : ∀ p : Fin 4, Reg.RNG_BACKUP_CNT p.val ∉ [Reg.RNG_STAT p.val, Reg.RNG_TM_ID p.val, Reg.RNG_TM_ID p.val + 4]) p
  have hev := (event_signals (s.inCharge p.val) (ringPage p.val) 8 0).1
  rw [← h] at hev
  have hstat : t.rd (Reg.RNG_STAT p.val) =
      ((s.setBit (Reg.RNG_STAT p.val) 7 true).setFld (Reg.RNG_STAT p.val) 17 16 (s.rcFld p.val (Reg.RNG_BKUP p.val) 31 24)).rd
        (Reg.RNG_STAT p.val) := by
    rw [hev _ (by simp [irqRaw_ring])]
    exact (rd_inc_ne (by simp) _).trans (rd_wr64_ne (by simp) htm.1 _ _)
  refine ⟨?_, ?_, ?_, ?_, ?_⟩
  · rw [bit_of_rd hstat, bit_setFld (by decide) (by decide), if_neg (by decide), bit_setBit_self (by decide)]
  · exact (fld_of_rd hstat 17 16).trans (fld_setFld (by decide) (by decide) _ _ _)
  · rw [rd64_of_same hev ((by decide : ∀ p : Fin 4, Reg.RNG_TM_ID p.val ∉ [Reg.PG_IRQ_RAW (ringPage p.val)]) p)
      ((by decide : ∀ p : Fin 4, Reg.RNG_TM_ID p.val + 4 ∉ [Reg.PG_IRQ_RAW (ringPage p.val)]) p)]
    exact (rd64_of_same (inc_writes _ _).1 (by simp) (by simpa using htm.2)).trans (rd64_masterId _ s _)
  · rw [hev.rdN (by simp [irqRaw_ring])]
    refine (rdN_inc _ _).trans ?_
    rw [(((setBit_writes _ _ _ _).trans (setFld_writes _ _ _ _ _)).trans (wr64_writes _ _ _)).1.rdN (by simpa using hcnt)]
  · rw [h]
    exact (inCharge_writes s p.val).event hc ((by decide : ∀ p : Fin 4, Reg.QTZ_TIME_NS ∉ chargeRegs p.val) p)
      ((by decide : ∀ p : Fin 4, Reg.QTZ_TIME_NS + 4 ∉ chargeRegs p.val) p) _ _ _

/-! ### Silent nodes, rule R254 -/

theorem nodeSilence_eq {s : State} {p : Nat} (h1 : s.ringOn = true) (h2 : s.pstate p = psNode) (h3 : 4 ≤ (s.rp p).lost) :
    s.nodeSilence p = (s.setRp p { s.rp p with again := 0 }).setPstate p psSilent := by
  unfold State.nodeSilence
  exact if_pos (by simp [h1, h2, h3])

end Sys2Proof.Machine
end

section
/-! SUPPORT. The references of a ring's time master as a port takes them (O46). -/

namespace Sys2Proof.Machine

/-! ### Around the judgement of a REF -/

/-- A valid REF as it comes in: logged, its HOLD counted, and forwarded, rules R237 and R268. -/
def State.refTaken (s : State) (p : Nat) (l : Lane) (f : RefMsg) (stamp : Nat) : State :=
  ((s.rxLog p 1 l f.src.toNat 96 (f.cycle.toNat % 65536) stamp).inHeader p 0xFF f.hold false).relay p 1 (2 ^ l.num)

theorem refTaken_taken (s : State) (p : Nat) (l : Lane) (f : RefMsg) (stamp : Nat) :
    s.Taken (s.refTaken p l f stamp) p (storeRegs ++ rxRegs p) :=
  ((rxLog_taken _ _ _ _ _ _ _ _).again ((inHeader_noted _ _ _ _ _).taken.mono (by simp))).again ((relay_noted _ _ _ _).taken.mono (by simp))

/-- A port notes something of its traffic and sends a frame. -/
theorem setRp_send_noted {s : State} {p : Nat} {x : RingPort} (h : (s.rp p).Notes x) (f : RingFrame) : s.Noted ((s.setRp p x).send p f) p [] :=
  (setRp_noted h).trans (send_noted _ _ _)

theorem answerPoll_noted (s : State) (p : Nat) (l : Lane) : s.Noted (s.answerPoll p l) p [] := by
  unfold State.answerPoll
  dsimp only
  split
  · exact setRp_send_noted (by rfl) _
  · exact .refl s p

theorem noteRefTime_noted (s : State) (p : Nat) (l : Lane) (stamp : Nat) : s.Noted (s.noteRefTime p l stamp) p [] := by
  unfold State.noteRefTime
  dsimp only
  split
  · have h : s.Noted (s.setRp p { s.rp p with refT := some (wrapTo 64 (s.ringStamp p .a stamp / 65536)) }) p [] := setRp_noted rfl
    exact h.trans (setRp_noted rfl)
  · exact .refl s p

theorem sendTrump_noted (s : State) (p grant : Nat) : s.Noted (s.sendTrump p grant) p [] := by
  unfold State.sendTrump
  split
  · exact .refl s p
  · exact setRp_send_noted (by rfl) _

/-- A station answers where the REF polls it. -/
def State.pollAnswered (s : State) (p : Nat) (l : Lane) (f : RefMsg) : State := if refPolls f (s.ownAddr p) then s.answerPoll p l else s

theorem pollAnswered_noted (s : State) (p : Nat) (l : Lane) (f : RefMsg) : s.Noted (s.pollAnswered p l f) p [] := by
  unfold State.pollAnswered
  split
  · exact answerPoll_noted _ _ _
  · exact .refl s p

/-- What a station of whose cycle this is the first REF makes of the grants. -/
theorem granted_noted (s : State) (p : Nat) (g : Nat × Nat) (grant : Nat) :
    s.Noted ((s.setRp p { s.rp p with granted := g }).sendTrump p grant) p [] := by
  have h : s.Noted (s.setRp p { s.rp p with granted := g }) p [] := setRp_noted rfl
  exact h.trans (sendTrump_noted _ _ _)

theorem takeGrants_noted (s : State) (p : Nat) (l : Lane) (f : RefMsg) (first : Bool) : s.Noted (s.takeGrants p l f first) p [] := by
  unfold State.takeGrants
  dsimp only
  rw [show (if refPolls f (s.ownAddr p) then s.answerPoll p l else s) = s.pollAnswered p l f from rfl]
  generalize hg : (if refPolls f (s.ownAddr p) = true then ((0, 0) : Nat × Nat) else _) = g
  split
  · exact pollAnswered_noted _ _ _ _
  · exact (pollAnswered_noted _ _ _ _).trans (granted_noted _ _ _ _)

/-- What follows the judgement of a REF is noted only. -/
theorem refFrame_noted (s : State) (p : Nat) (l : Lane) (f : RefMsg) (egress stamp : Nat) :
    ((s.refTaken p l f stamp).refIn p l f egress stamp).Noted (s.refFrame p l f egress stamp) p [] :=
  (noteRefTime_noted _ p l stamp).trans (takeGrants_noted _ p l f (s.rp p).refSeen.isNone)

/-! ### What a REF tells, rule R245 -/

abbrev refRegs (p : Nat) : List Nat :=
  [Reg.RNG_STAT p, Reg.RNG_CYCLE p, Reg.RNG_CYCLE p + 4, Reg.RNG_TM_ID p, Reg.RNG_TM_ID p + 4]

theorem noteRef_writes (s : State) (p : Nat) (f : RefMsg) : s.Writes (s.noteRef p f) (refRegs p) :=
  (((setFld_writes _ _ _ _ _).trans (wr64_writes _ _ _)).trans (wr64_writes _ _ _)).mono (by simp)

theorem rd_noteRef_stat (s : State) (p : Fin 4) (f : RefMsg) : (s.noteRef p.val f).rd (Reg.RNG_STAT p.val) =
    (s.setFld (Reg.RNG_STAT p.val) 17 16 f.rank.val).rd (Reg.RNG_STAT p.val) := by
  have h := (by decide : ∀ p : Fin 4, Reg.RNG_STAT p.val ≠ Reg.RNG_CYCLE p.val + 4 ∧ Reg.RNG_STAT p.val ≠ Reg.RNG_TM_ID p.val + 4) p
  exact (rd_wr64_ne (by simp) h.2 _ _).trans (rd_wr64_ne (by simp) h.1 _ _)

theorem pstate_noteRef (s : State) (p : Fin 4) (f : RefMsg) : (s.noteRef p.val f).pstate p.val = s.pstate p.val :=
  (fld_of_rd (rd_noteRef_stat s p f) 3 0).trans (fld_setFld_ne (by decide) (by decide) (by decide) _ _ _)

theorem bit_noteRef {i : Nat} (h : i < 16) (s : State) (p : Fin 4) (f : RefMsg) :
    (s.noteRef p.val f).bit (Reg.RNG_STAT p.val) i = s.bit (Reg.RNG_STAT p.val) i := by
  rw [bit_of_rd (rd_noteRef_stat s p f), bit_setFld (by decide) (by decide), if_neg (by omega)]

theorem rank_noteRef (s : State) (p : Fin 4) (f : RefMsg) : (s.noteRef p.val f).fld (Reg.RNG_STAT p.val) 17 16 = f.rank.val :=
  (fld_of_rd (rd_noteRef_stat s p f) 17 16).trans
    ((fld_setFld (by decide) (by decide) _ _ _).trans (Nat.mod_eq_of_lt f.rank.isLt))

theorem cycle_noteRef (s : State) (p : Fin 4) (f : RefMsg) : (s.noteRef p.val f).rd64 (Reg.RNG_CYCLE p.val) = f.cycle.toNat := by
  have h := (by decide : ∀ p : Fin 4, Reg.RNG_CYCLE p.val ∉ [Reg.RNG_TM_ID p.val, Reg.RNG_TM_ID p.val + 4] ∧
    Reg.RNG_CYCLE p.val + 4 ∉ [Reg.RNG_TM_ID p.val, Reg.RNG_TM_ID p.val + 4]) p
  exact (rd64_of_same (wr64_writes _ _ _).1 h.1 h.2).trans ((rd64_wr64 _ _ _).trans (Nat.mod_eq_of_lt f.cycle.isLt))

/-! ### A station takes the REF, rules R245, R247 and R254 -/

/-- The rank of the REF, its number and identity are taken where it puts the reference instant within 400 ns. -/
def State.refNoted (s : State) (p : Nat) (l : Lane) (f : RefMsg) (stamp : Nat) : State :=
  if s.refGood p l f stamp then s.noteRef p f else s

theorem refNoted_writes (s : State) (p : Nat) (l : Lane) (f : RefMsg) (stamp : Nat) :
    s.Writes (s.refNoted p l f stamp) (refRegs p) := by
  unfold State.refNoted
  split
  · exact noteRef_writes _ _ _
  · exact (State.Writes.refl s).mono (by simp)

theorem pstate_refNoted (s : State) (p : Fin 4) (l : Lane) (f : RefMsg) (stamp : Nat) :
    (s.refNoted p.val l f stamp).pstate p.val = s.pstate p.val := by
  unfold State.refNoted
  split
  · exact pstate_noteRef s p f
  · rfl

theorem backup_refNoted (s : State) (p : Fin 4) (l : Lane) (f : RefMsg) (stamp : Nat) :
    (s.refNoted p.val l f stamp).bit (Reg.RNG_STAT p.val) 7 = s.bit (Reg.RNG_STAT p.val) 7 := by
  unfold State.refNoted
  split
  · exact bit_noteRef (by decide) s p f
  · rfl

/-- A port that is no backup in charge keeps the first REF of its cycle. -/
def State.refKept (s : State) (p : Nat) (l : Lane) (f : RefMsg) (stamp : Nat) : State := (s.refNoted p l f stamp).keepRef p l f stamp

theorem refKept_eq {s : State} {p : Fin 4} {l : Lane} {f : RefMsg} {stamp : Nat} (hb : s.bit (Reg.RNG_STAT p.val) 7 = false) :
    (s.refKept p.val l f stamp).dropRef p.val l f stamp = s.refKept p.val l f stamp := by
  have h : (s.refKept p.val l f stamp).bit (Reg.RNG_STAT p.val) 7 = false := (backup_refNoted s p l f stamp).trans hb
  unfold State.dropRef
  simp only [h, Bool.false_and, Bool.false_eq_true, if_false]

theorem pstate_refKept (s : State) (p : Fin 4) (l : Lane) (f : RefMsg) (stamp : Nat) :
    (s.refKept p.val l f stamp).pstate p.val = s.pstate p.val := pstate_refNoted s p l f stamp

theorem nodeRef_first {s : State} {p : Fin 4} {l : Lane} {f : RefMsg} {stamp : Nat} (hb : s.bit (Reg.RNG_STAT p.val) 7 = false)
    (hr : (s.rp p.val).refSeen = none) :
    s.nodeRef p.val l f stamp =
      if s.pstate p.val = psListen then
        ((s.refKept p.val l f stamp).setRp p.val { (s.refKept p.val l f stamp).rp p.val with served := true }).setPstate p.val psNode
      else if s.pstate p.val = psSilent ∧ 2 ≤ ((s.refKept p.val l f stamp).rp p.val).again then
        (s.refKept p.val l f stamp).setPstate p.val psNode
      else s.refKept p.val l f stamp := by
  unfold State.nodeRef
  rw [hb, hr]
  dsimp only
  rw [if_neg (by simp)]
  rw [show (((if s.refGood p.val l f stamp then s.noteRef p.val f else s).keepRef p.val l f stamp).dropRef p.val l f stamp) =
    s.refKept p.val l f stamp from refKept_eq hb, pstate_refKept]

/-- What a port keeps of its first REF of a cycle. -/
theorem rp_refKept (s : State) (p : Nat) (l : Lane) (f : RefMsg) (stamp : Nat) :
    ((s.refKept p l f stamp).rp p).refSeen = some f.rank.val ∧ ((s.refKept p l f stamp).rp p).noRef = 0 ∧
      ((s.refKept p l f stamp).rp p).valid = (s.rp p).valid + b2n (s.rp p).refSeen.isNone ∧
      ((s.refKept p l f stamp).rp p).refAt = some ((s.refNoted p l f stamp).refInstant p l f stamp) ∧
      ((s.refKept p l f stamp).rp p).refOff = !(s.refNoted p l f stamp).refGood p l f stamp := by
  have h := (refNoted_writes s p l f stamp).signals.rp p
  unfold State.refKept State.keepRef
  dsimp only
  rw [rp_setRp_self, h]
  exact ⟨rfl, rfl, rfl, rfl, rfl⟩

/-- The reference instant and its judgement depend on what the port keeps and on the compensation of its lane's stamps. -/
theorem refInstant_of_same {s t : State} {p : Nat} {l : Lane} (hi : ∀ n, t.ingressSteps p l n = s.ingressSteps p l n)
    (hx : (t.rp p).init = (s.rp p).init) (f : RefMsg) (stamp : Nat) : t.refInstant p l f stamp = s.refInstant p l f stamp := by
  unfold State.refInstant State.refDelay
  rw [hi, hx]

theorem refGood_of_same {s t : State} {p : Nat} {l : Lane} (hi : ∀ n, t.ingressSteps p l n = s.ingressSteps p l n)
    (hx : (t.rp p).init = (s.rp p).init) (hp : (t.rp p).predict = (s.rp p).predict) (ht : (t.rp p).tm = (s.rp p).tm) (f : RefMsg) (stamp : Nat) :
    t.refGood p l f stamp = s.refGood p l f stamp := by
  unfold State.refGood State.newMaster
  rw [hx, hp, ht]
  simp only [refInstant_of_same hi hx]

theorem ingressSteps_of_alters {s t : State} {p : Fin 4} {l : Lane} {m : List Nat} (h : s.Alters t m)
    (hm : ∀ a ∈ m, a < 0x40003200 ∨ 0x40003280 ≤ a) (n : Nat) : t.ingressSteps p.val l n = s.ingressSteps p.val l n := by
  have hl : l.num ≤ 1 := by cases l <;> decide
  have h1 : Reg.QTZ_PORT (2 * p.val + l.num) ∉ m := fun hin => by
    have := hm _ hin
    simp only [Reg.QTZ_PORT] at this
    omega
  have h2 : Reg.QTZ_PORT (2 * p.val + l.num) + 8 ∉ m := fun hin => by
    have := hm _ hin
    simp only [Reg.QTZ_PORT] at this
    omega
  unfold State.ingressSteps
  dsimp only
  rw [h.eff h1, h.eff h2]

theorem State.Taken.ingressSteps {s t : State} {p : Fin 4} (h : s.Taken t p.val (storeRegs ++ rxRegs p.val)) (l : Lane) (n : Nat) :
    t.ingressSteps p.val l n = s.ingressSteps p.val l n :=
  ingressSteps_of_alters h.alters ((by decide : ∀ p : Fin 4, ∀ a ∈ storeRegs ++ rxRegs p.val, a < 0x40003200 ∨ 0x40003280 ≤ a) p) n

theorem State.Taken.refInstant {s t : State} {p : Fin 4} (h : s.Taken t p.val (storeRegs ++ rxRegs p.val)) (l : Lane) (f : RefMsg) (stamp : Nat) :
    t.refInstant p.val l f stamp = s.refInstant p.val l f stamp := refInstant_of_same (h.ingressSteps l) (by rw [h.notes]) f stamp

theorem State.Taken.refGood {s t : State} {p : Fin 4} (h : s.Taken t p.val (storeRegs ++ rxRegs p.val)) (l : Lane) (f : RefMsg) (stamp : Nat) :
    t.refGood p.val l f stamp = s.refGood p.val l f stamp :=
  refGood_of_same (h.ingressSteps l) (by rw [h.notes]) (by rw [h.notes]) (by rw [h.notes]) f stamp

theorem refNoted_ingress (s : State) (p : Fin 4) (l : Lane) (f : RefMsg) (stamp n : Nat) :
    (s.refNoted p.val l f stamp).ingressSteps p.val l n = s.ingressSteps p.val l n :=
  ingressSteps_of_alters (refNoted_writes s p.val l f stamp).alters
    ((by decide : ∀ p : Fin 4, ∀ a ∈ refRegs p.val, a < 0x40003200 ∨ 0x40003280 ≤ a) p) n

theorem refNoted_good (s : State) (p : Fin 4) (l : Lane) (f : RefMsg) (stamp : Nat) :
    (s.refNoted p.val l f stamp).refGood p.val l f stamp = s.refGood p.val l f stamp := by
  have h := (refNoted_writes s p.val l f stamp).signals.rp p.val
  exact refGood_of_same (refNoted_ingress s p l f stamp) (by rw [h]) (by rw [h]) (by rw [h]) f stamp

theorem refNoted_instant (s : State) (p : Fin 4) (l : Lane) (f : RefMsg) (stamp : Nat) :
    (s.refNoted p.val l f stamp).refInstant p.val l f stamp = s.refInstant p.val l f stamp :=
  refInstant_of_same (refNoted_ingress s p l f stamp) (by rw [(refNoted_writes s p.val l f stamp).signals.rp p.val]) f stamp

theorem State.Taken.masterRole {s t : State} {p : Fin 4} (h : s.Taken t p.val (storeRegs ++ rxRegs p.val)) :
    t.masterRole p.val = s.masterRole p.val := by
  unfold State.masterRole
  rw [rcf_of_same h.pstate (h.regs _ (ringCtrl_notMem_rx p)) h.cfg]

/-! ### The first REF that a listening station takes, rule R245 -/

/-- A listening node that has kept a REF, before it is in service. -/
def State.refServed (s : State) (p : Nat) (l : Lane) (f : RefMsg) (stamp : Nat) : State :=
  (s.refKept p l f stamp).setRp p { (s.refKept p l f stamp).rp p with served := true }

theorem refNoted_unpredicted {s : State} {p : Nat} (hp : (s.rp p).predict = none) (l : Lane) (f : RefMsg) (stamp : Nat) :
    s.refNoted p l f stamp = s.noteRef p f := by
  have hg : s.refGood p l f stamp = true := by
    unfold State.refGood
    rw [hp]
  unfold State.refNoted
  exact if_pos hg

theorem cycle_notMem_stat : ∀ p : Fin 4, Reg.RNG_CYCLE p.val ∉ [Reg.RNG_STAT p.val, Reg.PG_IRQ_RAW (ringPage p.val)] ∧
    Reg.RNG_CYCLE p.val + 4 ∉ [Reg.RNG_STAT p.val, Reg.PG_IRQ_RAW (ringPage p.val)] := by decide

theorem nodeRef_listening {s : State} {p : Fin 4} {l : Lane} {f : RefMsg} {stamp : Nat} (hst : s.pstate p.val = psListen)
    (hb : s.bit (Reg.RNG_STAT p.val) 7 = false) (hr : (s.rp p.val).refSeen = none) (hp : (s.rp p.val).predict = none) {t : State}
    (h : t = s.nodeRef p.val l f stamp) :
    t.pstate p.val = psNode ∧ t.fld (Reg.RNG_STAT p.val) 17 16 = f.rank.val ∧ t.rd64 (Reg.RNG_CYCLE p.val) = f.cycle.toNat ∧
      (t.rp p.val).refSeen = some f.rank.val := by
  have ht : t = (s.refServed p.val l f stamp).setPstate p.val psNode := by
    rw [h, nodeRef_first hb hr, if_pos hst]
    rfl
  have hset := setPstate_signals (s.refServed p.val l f stamp) p.val psNode
  rw [← ht] at hset
  have hregs : ∀ a, (s.refServed p.val l f stamp).rd a = (s.noteRef p.val f).rd a := fun a => by
    rw [← refNoted_unpredicted hp l f stamp]
    rfl
  refine ⟨?_, ?_, ?_, ?_⟩
  · rw [ht, pstate_setPstate (by decide)]
  · rw [ht, fld_setPstate (by decide), fld_of_rd (hregs _), rank_noteRef]
  · rw [rd64_of_same hset.1 (cycle_notMem_stat p).1 (cycle_notMem_stat p).2]
    exact (rd64_of_same (l := []) (fun a _ => hregs a) (by simp) (by simp)).trans (cycle_noteRef s p f)
  · rw [hset.rp p.val]
    unfold State.refServed
    rw [rp_setRp_self]
    exact (rp_refKept s p.val l f stamp).1

/-! ### A REF at a port of master role, rule R247 -/

theorem masterFindsRef_foreign {s : State} {p : Nat} {f : RefMsg} (hb : s.bit (Reg.RNG_STAT p) 9 = false)
    (hprio : s.rcFld p (Reg.RNG_CTRL p) 15 8 ≤ f.prio.toNat) :
    s.masterFindsRef p f = ((s.setRp p { s.rp p with claiming := false }).noteRef p f).setPstate p psForeign := by
  unfold State.masterFindsRef
  rw [hb, if_neg Bool.false_ne_true, if_neg (by simp [Nat.not_lt.mpr hprio])]

/-! ### A REF in service, rule R254 -/

theorem nodeRef_serving {s : State} {p : Fin 4} {l : Lane} {f : RefMsg} {stamp : Nat} (hst : s.pstate p.val = psNode)
    (hb : s.bit (Reg.RNG_STAT p.val) 7 = false) (hr : (s.rp p.val).refSeen = none) {t : State} (h : t = s.nodeRef p.val l f stamp) :
    t.pstate p.val = psNode ∧ (t.rp p.val).noRef = 0 ∧ (t.rp p.val).valid = (s.rp p.val).valid + 1 ∧
      (t.rp p.val).refAt = some (s.refInstant p.val l f stamp) ∧ (t.rp p.val).refOff = !s.refGood p.val l f stamp ∧
      t.rd64 (Reg.RNG_CYCLE p.val) = (if s.refGood p.val l f stamp then f.cycle.toNat else s.rd64 (Reg.RNG_CYCLE p.val)) := by
  have ht : t = s.refKept p.val l f stamp := by
    rw [h, nodeRef_first hb hr, hst, if_neg (by decide), if_neg (fun hc => absurd hc.1 (by decide))]
  obtain ⟨-, hno, hvalid, hat, hoff⟩ := rp_refKept s p.val l f stamp
  have hcyc : t.rd64 (Reg.RNG_CYCLE p.val) = (s.refNoted p.val l f stamp).rd64 (Reg.RNG_CYCLE p.val) := by
    rw [ht]
    rfl
  rw [← ht] at hno hvalid hat hoff
  refine ⟨?_, hno, ?_, ?_, ?_, ?_⟩
  · rw [ht, pstate_refKept, hst]
  · rw [hvalid, hr]
    rfl
  · rw [hat, refNoted_instant]
  · rw [hoff, refNoted_good]
  · rw [hcyc]
    unfold State.refNoted
    split
    · exact cycle_noteRef s p f
    · rfl

/-! ### A REF on a lane -/

section
variable {s t : State} {p : Fin 4} {l : Lane} {f : RefMsg} {egress stamp : Nat} (h : t = s.refFrame p.val l f egress stamp)
include h

theorem refFrame_after : ((s.refTaken p.val l f stamp).refIn p.val l f egress stamp).Noted t p.val [] := by
  rw [h]
  exact refFrame_noted s p.val l f egress stamp

theorem refFrame_listening (hst : s.pstate p.val = psListen) (hrole : s.masterRole p.val = false) (hb : s.bit (Reg.RNG_STAT p.val) 7 = false)
    (hr : (s.rp p.val).refSeen = none) (hp : (s.rp p.val).predict = none) :
    t.pstate p.val = psNode ∧ t.fld (Reg.RNG_STAT p.val) 17 16 = f.rank.val ∧ t.rd64 (Reg.RNG_CYCLE p.val) = f.cycle.toNat ∧
      (t.rp p.val).refSeen = some f.rank.val := by
  have hu := refTaken_taken s p.val l f stamp
  have hin : (s.refTaken p.val l f stamp).refIn p.val l f egress stamp = (s.refTaken p.val l f stamp).nodeRef p.val l f stamp := by
    unfold State.refIn
    rw [hu.pstate, hst, hu.masterRole, hrole]
    rfl
  have hafter := refFrame_after h
  obtain ⟨hps, hrank, hcyc, hseen⟩ := nodeRef_listening (hu.pstate.trans hst) ((hu.regs.bit (ringStat_notMem_rx p) 7).trans hb)
    (by rw [hu.notes]; exact hr) (by rw [hu.notes]; exact hp) hin
  have hnone : ∀ a : Nat, a ∉ ([] : List Nat) := fun _ => List.not_mem_nil
  refine ⟨(hafter.regs.pstate (hnone _)).trans hps, (hafter.regs.fld (hnone _) _ _).trans hrank,
    (rd64_of_same hafter.regs (hnone _) (hnone _)).trans hcyc, ?_⟩
  rw [hafter.notes]
  exact hseen

theorem refFrame_foreign (hst : s.pstate p.val = psListen) (hrole : s.masterRole p.val = true) (hb : s.bit (Reg.RNG_STAT p.val) 9 = false)
    (hprio : s.rcFld p.val (Reg.RNG_CTRL p.val) 15 8 ≤ f.prio.toNat) :
    t.pstate p.val = psForeign ∧ t.bit (Reg.RNG_STAT p.val) 8 = true := by
  have hu := refTaken_taken s p.val l f stamp
  have hin : (s.refTaken p.val l f stamp).refIn p.val l f egress stamp = (s.refTaken p.val l f stamp).masterFindsRef p.val f := by
    unfold State.refIn
    rw [hu.pstate, hst, hu.masterRole, hrole]
    rfl
  have hafter := refFrame_after h
  rw [hin, masterFindsRef_foreign ((hu.regs.bit (ringStat_notMem_rx p) 9).trans hb)
    (by rw [hu.rcFld (ringCtrl_notMem_rx p)]; exact hprio)] at hafter
  refine ⟨(hafter.regs.pstate List.not_mem_nil).trans (pstate_setPstate (by decide) _ _),
    (hafter.regs.bit List.not_mem_nil 8).trans ((bit_setPstate (by decide) _ _ _).trans ?_)⟩
  rfl

theorem refFrame_serving (hst : s.pstate p.val = psNode) (hb : s.bit (Reg.RNG_STAT p.val) 7 = false)
    (hr : (s.rp p.val).refSeen = none) :
    t.pstate p.val = psNode ∧ (t.rp p.val).noRef = 0 ∧ (t.rp p.val).valid = (s.rp p.val).valid + 1 ∧
      (t.rp p.val).refAt = some (s.refInstant p.val l f stamp) ∧ (t.rp p.val).refOff = !s.refGood p.val l f stamp ∧
      t.rd64 (Reg.RNG_CYCLE p.val) = (if s.refGood p.val l f stamp then f.cycle.toNat else s.rd64 (Reg.RNG_CYCLE p.val)) := by
  have hu := refTaken_taken s p.val l f stamp
  have hin : (s.refTaken p.val l f stamp).refIn p.val l f egress stamp = (s.refTaken p.val l f stamp).nodeRef p.val l f stamp := by
    unfold State.refIn
    rw [hu.pstate, hst]
    rfl
  have hafter := refFrame_after h
  obtain ⟨hps, hno, hvalid, hat, hoff, hcyc⟩ := nodeRef_serving (hu.pstate.trans hst) ((hu.regs.bit (ringStat_notMem_rx p) 7).trans hb)
    (by rw [hu.notes]; exact hr) hin
  have hv : ((s.refTaken p.val l f stamp).rp p.val).valid = (s.rp p.val).valid := by rw [hu.notes]
  have hrd : (s.refTaken p.val l f stamp).rd64 (Reg.RNG_CYCLE p.val) = s.rd64 (Reg.RNG_CYCLE p.val) :=
    rd64_of_same hu.regs ((by decide : ∀ p : Fin 4, Reg.RNG_CYCLE p.val ∉ storeRegs ++ rxRegs p.val) p)
      ((by decide : ∀ p : Fin 4, Reg.RNG_CYCLE p.val + 4 ∉ storeRegs ++ rxRegs p.val) p)
  rw [hu.refGood, hrd] at hcyc
  rw [hu.refGood] at hoff
  rw [hu.refInstant] at hat
  rw [hv] at hvalid
  refine ⟨(hafter.regs.pstate List.not_mem_nil).trans hps, ?_, ?_, ?_, ?_,
    (rd64_of_same hafter.regs List.not_mem_nil List.not_mem_nil).trans hcyc⟩
  · rw [hafter.notes]; exact hno
  · rw [hafter.notes]; exact hvalid
  · rw [hafter.notes]; exact hat
  · rw [hafter.notes]; exact hoff

end

end Sys2Proof.Machine
end

section
/-! SUPPORT. The ports at a ring cycle boundary (O46). -/

namespace Sys2Proof.Machine

/-! ### The frame of a port at a boundary -/

/-- The registers in which a port shows at a cycle boundary. -/
abbrev cycleRegs (p : Nat) : List Nat := [Reg.RNG_CYCLE p, Reg.RNG_CYCLE p + 4, Reg.RNG_REF_MISS_CNT p]

theorem cycle_notMem_cycleRegs {p q : Nat} (h : p ≠ q) : Reg.RNG_CYCLE p ∉ cycleRegs q ∧ Reg.RNG_CYCLE p + 4 ∉ cycleRegs q := by
  simp only [cycleRegs, List.mem_cons, List.not_mem_nil, or_false, Reg.RNG_CYCLE, Reg.RNG_REF_MISS_CNT]
  omega

theorem ringStat_notMem_cycleRegs (p q : Nat) : Reg.RNG_STAT p ∉ cycleRegs q := by
  simp only [cycleRegs, List.mem_cons, List.not_mem_nil, or_false, Reg.RNG_STAT, Reg.RNG_CYCLE, Reg.RNG_REF_MISS_CNT]
  omega

theorem twin_notMem_cycleRegs (q : Nat) : Reg.TWN_CTRL ∉ cycleRegs q ∧ Reg.TWN_STAT ∉ cycleRegs q := by
  simp only [cycleRegs, List.mem_cons, List.not_mem_nil, or_false, Reg.TWN_CTRL, Reg.TWN_STAT, Reg.RNG_CYCLE, Reg.RNG_REF_MISS_CNT]
  omega

/-- A port runs a cycle: nothing differs but its counters, its record and the event unit with its messages. -/
structure State.Cycles (s t : State) (p : Nat) : Prop where
  ports : s.PortsFrame t (cycleRegs p)
  others : ∀ q, q ≠ p → t.rp q = s.rp q

theorem State.Cycles.refl (s : State) (p : Nat) : s.Cycles s p := ⟨.refl s _, fun _ _ => rfl⟩

theorem State.Cycles.trans {s t u : State} {p : Nat} (h : s.Cycles t p) (k : t.Cycles u p) : s.Cycles u p :=
  ⟨(h.ports.trans k.ports).mono (by simp), fun q hq => (k.others q hq).trans (h.others q hq)⟩

theorem setRp_cycles (s : State) (p : Nat) (x : RingPort) : s.Cycles (s.setRp p x) p :=
  ⟨(setRp_ports s p x).mono (by simp), fun _ hq => rp_setRp_ne hq _ _⟩

theorem State.Writes.cycles {s t : State} {p : Nat} {l : List Nat} (h : s.Writes t l) (hl : ∀ a ∈ l, a ∈ cycleRegs p) : s.Cycles t p :=
  ⟨h.ports.mono hl, fun q _ => h.signals.rp q⟩

theorem send_cycles (s : State) (p : Nat) (f : RingFrame) : s.Cycles (s.send p f) p := by
  unfold State.send
  split
  · exact .refl s p
  · exact setRp_cycles _ _ _

theorem nextCycle_writes (s : State) (p : Nat) : s.Writes (s.nextCycle p) [Reg.RNG_CYCLE p, Reg.RNG_CYCLE p + 4] := wr64_writes _ _ _

theorem nextCycle_cycles (s : State) (p : Nat) : s.Cycles (s.nextCycle p) p := (nextCycle_writes s p).cycles (by simp)

theorem rd64_nextCycle (s : State) (p : Nat) :
    (s.nextCycle p).rd64 (Reg.RNG_CYCLE p) = (s.rd64 (Reg.RNG_CYCLE p) + 1) % 18446744073709551616 :=
  (rd64_wr64 _ _ _).trans (Nat.mod_eq_of_lt (Nat.mod_lt _ (by decide)))

theorem launchRef_cycles (s : State) (p : Nat) : s.Cycles (s.launchRef p) p := (setRp_cycles _ _ _).trans (send_cycles _ _ _)

theorem launchRef_regs (s : State) (p : Nat) : s.SameRegs (s.launchRef p) [] := (setRp_ports _ _ _).1.trans (send_noted _ _ _).regs

/-! ### A station at a boundary, rules R244, R246 and R254 -/

theorem closeCycle_cycles (s : State) (p : Nat) : s.Cycles (s.closeCycle p) p := by
  unfold State.closeCycle
  dsimp only
  have hnext : ∀ (b : Bool) (t : State), t.Cycles (if b then t.nextCycle p else t) p := fun b t => by
    cases b
    · exact .refl t p
    · exact nextCycle_cycles t p
  split
  · exact ((setRp_cycles _ _ _).trans (hnext _ _)).trans ((inc_writes _ _).cycles (by simp))
  · exact (setRp_cycles _ _ _).trans (hnext _ _)

theorem nodeSlot_cycles (s : State) (p : Nat) : s.Cycles (s.nodeSlot p) p := by
  unfold State.nodeSlot
  split
  · exact .refl s p
  · exact ((setRp_cycles _ _ _).trans (send_cycles _ _ _)).trans (send_cycles _ _ _)

/-- A cycle that ends without a backup in charge: a cycle without a REF, or with one off, is lost. -/
theorem rp_closeCycle {s : State} {p : Nat} (hb : s.bit (Reg.RNG_STAT p) 7 = false) :
    ((s.closeCycle p).rp p).refSeen = none ∧
      ((s.closeCycle p).rp p).lost = (if (s.rp p).refSeen = none ∨ (s.rp p).refOff = true then (s.rp p).lost + 1 else 0) ∧
      ((s.closeCycle p).rp p).backupEnd = (s.rp p).backupEnd := by
  have hnext : ∀ (b : Bool) (t : State), (if b then t.nextCycle p else t).rp p = t.rp p := fun b t => by
    cases b
    · rfl
    · exact (nextCycle_writes t p).signals.rp p
  have hmiss : ∀ (b : Bool) (t : State), (if b then t.inc (Reg.RNG_REF_MISS_CNT p) else t).rp p = t.rp p := fun b t => by
    cases b
    · rfl
    · exact (inc_writes t _).signals.rp p
  unfold State.closeCycle
  dsimp only
  rw [hmiss, hnext, rp_setRp_self, hb]
  refine ⟨rfl, ?_, rfl⟩
  cases (s.rp p).refSeen <;> simp

theorem rp_nodeSlot (s : State) (p : Nat) :
    ((s.nodeSlot p).rp p).refSeen = (s.rp p).refSeen ∧ ((s.nodeSlot p).rp p).lost = (s.rp p).lost := by
  unfold State.nodeSlot
  split
  · exact ⟨rfl, rfl⟩
  · dsimp only
    rw [((send_noted _ _ _).trans (send_noted _ _ _)).notes, rp_setRp_self]
    exact ⟨rfl, rfl⟩

theorem closeCycle_stat (s : State) (p : Nat) : (s.closeCycle p).rd (Reg.RNG_STAT p) = s.rd (Reg.RNG_STAT p) :=
  (closeCycle_cycles s p).ports.1 _ (ringStat_notMem_cycleRegs p p)

theorem nodeCycle_eq {s : State} {p : Nat} (hb : s.bit (Reg.RNG_STAT p) 7 = false) (he : (s.rp p).backupEnd = false) :
    s.nodeCycle p = if (s.closeCycle p).pstate p = psNode ∧ ((s.closeCycle p).rp p).even then (s.closeCycle p).nodeSlot p
      else s.closeCycle p := by
  unfold State.nodeCycle
  dsimp only
  rw [he, if_neg Bool.false_ne_true, (bit_of_rd (closeCycle_stat s p) 7).trans hb, if_neg Bool.false_ne_true]

theorem nodeCycle_outcome {s : State} {p : Nat} (hb : s.bit (Reg.RNG_STAT p) 7 = false) (he : (s.rp p).backupEnd = false) :
    s.Cycles (s.nodeCycle p) p ∧ ((s.nodeCycle p).rp p).refSeen = none ∧
      ((s.nodeCycle p).rp p).lost = (if (s.rp p).refSeen = none ∨ (s.rp p).refOff = true then (s.rp p).lost + 1 else 0) := by
  obtain ⟨hseen, hlost, -⟩ := rp_closeCycle hb
  have hslot := rp_nodeSlot (s.closeCycle p) p
  rw [nodeCycle_eq hb he]
  split
  · exact ⟨(closeCycle_cycles s p).trans (nodeSlot_cycles _ p), hslot.1.trans hseen, hslot.2.trans hlost⟩
  · exact ⟨closeCycle_cycles s p, hseen, hlost⟩

/-! ### A port at a boundary, by its state -/

/-- The port is at rest, is time master with its ring, or serves and leads no ring as a backup. -/
def State.steady (s : State) (p : Nat) : Prop :=
  s.pstate p = psDown ∨ s.pstate p = psListen ∨ (s.pstate p = psCyclic ∧ s.ringFree = true ∧ (s.rp p).yield = false) ∨
    (s.pstate p = psNode ∧ s.bit (Reg.RNG_STAT p) 7 = false ∧ (s.rp p).backupEnd = false)

/-- What a port in one of these states has made of the boundary. -/
def State.Stepped (s t : State) (p : Nat) : Prop :=
  (s.pstate p = psCyclic → t.rd64 (Reg.RNG_CYCLE p) = (s.rd64 (Reg.RNG_CYCLE p) + 1) % 18446744073709551616) ∧
    (s.pstate p = psListen → (t.rp p).listen = (s.rp p).listen + 1) ∧
    (s.pstate p = psDown → t.rp p = { s.rp p with sent := [], relayed := [] }) ∧
    (s.pstate p = psNode → (t.rp p).refSeen = none ∧
      (t.rp p).lost = (if (s.rp p).refSeen = none ∨ (s.rp p).refOff = true then (s.rp p).lost + 1 else 0))

/-- The port with no frame sent or forwarded yet in the cycle that begins. -/
def State.cycleOpened (s : State) (p : Nat) : State := s.setRp p { s.rp p with sent := [], relayed := [] }

theorem rp_cycleOpened (s : State) (p : Nat) : (s.cycleOpened p).rp p = { s.rp p with sent := [], relayed := [] } := rp_setRp_self _ _ _

/-- A port that neither claims nor is time master has nothing to yield. -/
theorem mustYield_idle {s : State} {p : Nat} (h : s.pstate p < psClaim ∨ psCyclic < s.pstate p) : s.mustYield p = false := by
  unfold State.mustYield
  rcases h with h | h
  · rw [decide_eq_false (Nat.not_le.mpr h)]
    rfl
  · rw [decide_eq_false (p := s.pstate p ≤ psCyclic) (Nat.not_le.mpr h), Bool.and_false, Bool.false_and]

theorem mustYield_free {s : State} {p : Nat} (h : s.ringFree = true) (hy : (s.rp p).yield = false) : s.mustYield p = false := by
  unfold State.mustYield
  rw [h, hy]
  simp

theorem portCycle_down {s : State} {p : Nat} (h : s.pstate p = psDown) : s.portCycle p = s.cycleOpened p := by
  have hst : (s.cycleOpened p).pstate p = psDown := h
  have hy : (s.cycleOpened p).mustYield p = false := mustYield_idle (by rw [hst]; decide)
  unfold State.portCycle
  extract_lets was opened
  rw [show opened.mustYield p = false from hy, if_neg Bool.false_ne_true, show opened.pstate p = psDown from hst]
  rfl

theorem portCycle_listen {s : State} {p : Nat} (h : s.pstate p = psListen) : s.portCycle p =
    (s.cycleOpened p).setRp p { (s.cycleOpened p).rp p with listen := ((s.cycleOpened p).rp p).listen + 1, refSeen := none } := by
  have hst : (s.cycleOpened p).pstate p = psListen := h
  have hy : (s.cycleOpened p).mustYield p = false := mustYield_idle (by rw [hst]; decide)
  unfold State.portCycle
  extract_lets was opened
  rw [show opened.mustYield p = false from hy, if_neg Bool.false_ne_true, show opened.pstate p = psListen from hst]
  rfl

theorem portCycle_cyclic {s : State} {p : Nat} (h : s.pstate p = psCyclic) (hf : s.ringFree = true) (hy : (s.rp p).yield = false) :
    s.portCycle p = ((s.cycleOpened p).nextCycle p).launchRef p := by
  have hst : (s.cycleOpened p).pstate p = psCyclic := h
  have hm : (s.cycleOpened p).mustYield p = false := mustYield_free hf (by rw [rp_cycleOpened]; exact hy)
  unfold State.portCycle
  extract_lets was opened
  rw [show opened.mustYield p = false from hm, if_neg Bool.false_ne_true, show opened.pstate p = psCyclic from hst]
  rfl

theorem portCycle_node {s : State} {p : Nat} (h : s.pstate p = psNode) : s.portCycle p = (s.cycleOpened p).nodeCycle p := by
  have hst : (s.cycleOpened p).pstate p = psNode := h
  have hy : (s.cycleOpened p).mustYield p = false := mustYield_idle (by rw [hst]; decide)
  unfold State.portCycle
  extract_lets was opened
  rw [show opened.mustYield p = false from hy, if_neg Bool.false_ne_true, show opened.pstate p = psNode from hst]
  rfl

/-- One state excludes the others. -/
theorem stepped_of {s t : State} {p st : Nat} (h : s.pstate p = st)
    (hc : st = psCyclic → t.rd64 (Reg.RNG_CYCLE p) = (s.rd64 (Reg.RNG_CYCLE p) + 1) % 18446744073709551616)
    (hl : st = psListen → (t.rp p).listen = (s.rp p).listen + 1)
    (hd : st = psDown → t.rp p = { s.rp p with sent := [], relayed := [] })
    (hn : st = psNode → (t.rp p).refSeen = none ∧
      (t.rp p).lost = (if (s.rp p).refSeen = none ∨ (s.rp p).refOff = true then (s.rp p).lost + 1 else 0)) : s.Stepped t p := by
  subst h
  exact ⟨hc, hl, hd, hn⟩

theorem portCycle_steps {s : State} {p : Nat} (h : s.steady p) : s.Cycles (s.portCycle p) p ∧ s.Stepped (s.portCycle p) p := by
  have hopen : s.Cycles (s.cycleOpened p) p := setRp_cycles _ _ _
  rcases h with h | h | ⟨h, hf, hy⟩ | ⟨h, hb, he⟩
  · rw [portCycle_down h]
    exact ⟨hopen, stepped_of h (fun e => absurd e (by decide)) (fun e => absurd e (by decide)) (fun _ => rp_cycleOpened s p)
      (fun e => absurd e (by decide))⟩
  · rw [portCycle_listen h]
    refine ⟨hopen.trans (setRp_cycles _ _ _), stepped_of h (fun e => absurd e (by decide)) (fun _ => ?_) (fun e => absurd e (by decide))
      (fun e => absurd e (by decide))⟩
    rw [rp_setRp_self, rp_cycleOpened]
  · rw [portCycle_cyclic h hf hy]
    refine ⟨(hopen.trans (nextCycle_cycles _ p)).trans (launchRef_cycles _ p), stepped_of h (fun _ => ?_) (fun e => absurd e (by decide))
      (fun e => absurd e (by decide)) (fun e => absurd e (by decide))⟩
    exact (rd64_of_same (launchRef_regs _ p) List.not_mem_nil List.not_mem_nil).trans (rd64_nextCycle _ p)
  · rw [portCycle_node h]
    obtain ⟨hcyc, hseen, hlost⟩ := nodeCycle_outcome (s := s.cycleOpened p) (p := p) hb (by rw [rp_cycleOpened]; exact he)
    rw [rp_cycleOpened] at hlost
    exact ⟨hopen.trans hcyc, stepped_of h (fun e => absurd e (by decide)) (fun e => absurd e (by decide)) (fun e => absurd e (by decide))
      (fun _ => ⟨hseen, hlost⟩)⟩

/-! ### All ports at a boundary -/

/-- Another port's boundary leaves a port's state, its number and the interlock. -/
theorem State.Cycles.steady_iff {s t : State} {p q : Nat} (h : s.Cycles t p) (hq : q ≠ p) : t.steady q ↔ s.steady q := by
  have hst := h.ports.1.pstate (ringStat_notMem_cycleRegs q p)
  have hb := h.ports.1.bit (ringStat_notMem_cycleRegs q p) 7
  have hfree : t.ringFree = s.ringFree := by
    unfold State.ringFree
    rw [h.ports.1.bit (twin_notMem_cycleRegs p).1, h.ports.1.bit (twin_notMem_cycleRegs p).2]
  unfold State.steady
  rw [hst, hb, hfree, h.others q hq]

theorem State.Cycles.stepped_before {s t u : State} {p q : Nat} (h : t.Cycles u p) (hq : q ≠ p) (k : s.Stepped t q) : s.Stepped u q := by
  have hn := cycle_notMem_cycleRegs hq
  unfold State.Stepped
  rw [rd64_of_same h.ports.1 hn.1 hn.2, h.others q hq]
  exact k

theorem State.Cycles.stepped_after {s t u : State} {p q : Nat} (h : s.Cycles t p) (hq : q ≠ p) (k : t.Stepped u q) : s.Stepped u q := by
  have hn := cycle_notMem_cycleRegs hq
  have hst := h.ports.1.pstate (ringStat_notMem_cycleRegs q p)
  unfold State.Stepped at k
  rw [hst, rd64_of_same h.ports.1 hn.1 hn.2, h.others q hq] at k
  exact k

/-- After the first `n` ports: only their counters and records differ, and each has stepped. -/
structure State.CyclesUpTo (s t : State) (n : Nat) : Prop where
  memory : s.SameMemory t
  cycled : t.qtz.cycled = s.qtz.cycled
  later : ∀ q, n ≤ q → (t.steady q ↔ s.steady q) ∧ ∀ u, t.Stepped u q → s.Stepped u q
  before : ∀ q, q < n → s.Stepped t q

theorem State.CyclesUpTo.next {s t : State} {n : Nat} (h : s.CyclesUpTo t n) (hn : s.steady n) : s.CyclesUpTo (t.portCycle n) (n + 1) := by
  obtain ⟨hcyc, hstep⟩ := portCycle_steps ((h.later n (Nat.le_refl n)).1.mpr hn)
  refine ⟨h.memory.trans hcyc.ports.memory, (congrArg (·.cycled) hcyc.ports.qtz).trans h.cycled, fun q hq => ?_, fun q hq => ?_⟩
  · obtain ⟨hst, hlater⟩ := h.later q (Nat.le_of_lt hq)
    exact ⟨(hcyc.steady_iff (Nat.ne_of_gt hq)).trans hst, fun u hu => hlater u (hcyc.stepped_after (Nat.ne_of_gt hq) hu)⟩
  · rcases Nat.lt_succ_iff_lt_or_eq.mp hq with hlt | rfl
    · exact hcyc.stepped_before (Nat.ne_of_lt hlt) (h.before q hlt)
    · exact (h.later q (Nat.le_refl q)).2 _ hstep

theorem forUpTo_portCycle {s : State} {n : Nat} (h : ∀ p, p < n → s.steady p) :
    s.CyclesUpTo (forUpTo (fun p st => st.portCycle p) n s) n := by
  induction n with
  | zero => exact ⟨⟨rfl, rfl, rfl, rfl, rfl⟩, rfl, fun q _ => ⟨Iff.rfl, fun _ hu => hu⟩, fun q hq => absurd hq (Nat.not_lt_zero q)⟩
  | succ n ih => exact (ih fun p hp => h p (Nat.lt_succ_of_lt hp)).next (h n (Nat.lt_succ_self n))

/-- The boundary at the tick boundary is noted as run. -/
def State.cycleNoted (s : State) : State := { s with qtz := { s.qtz with cycled := s.qtz.cycled ||| 2 ^ b2n false } }

theorem cycleBoundary_tick {s : State} (h1 : s.ringOn = true) (h2 : s.ticking = true) (h3 : s.qtz.cycled.testBit 0 = false) :
    s.cycleBoundary false = forUpTo (fun p st => st.portCycle p) 4 s.cycleNoted := by
  have hdue : s.cycleDue false = true := by
    unfold State.cycleDue
    rw [h1, h2, show b2n false = 0 from rfl, h3]
    rfl
  unfold State.cycleBoundary
  rw [hdue]
  rfl

/-- With RING_DIV = 0 a tick holds no second boundary, rule R40. -/
theorem cycleBoundary_undivided {s : State} (h : s.bit Reg.QTZ_TICK 4 = false) : s.cycleBoundary true = s := by
  have hdue : s.cycleDue true = false := by
    unfold State.cycleDue
    rw [h]
    simp
  unfold State.cycleBoundary
  rw [hdue]
  rfl

theorem cycleBoundary_clause {s : State} (h1 : s.ringOn = true) (h2 : s.ticking = true) (h3 : s.qtz.cycled.testBit 0 = false)
    (hs : ∀ p, p < 4 → s.steady p) {t : State} (h : t = s.cycleBoundary false) :
    (∀ p, p < 4 → s.Stepped t p) ∧ t.qtz.cycled = s.qtz.cycled ||| 1 ∧ s.SameMemory t := by
  have hall := forUpTo_portCycle (s := s.cycleNoted) (n := 4) hs
  rw [← cycleBoundary_tick h1 h2 h3, ← h] at hall
  exact ⟨hall.before, hall.cycled, hall.memory⟩

end Sys2Proof.Machine
end

section
/-! SUPPORT. The descriptor that a polled node answers with (O46). -/

namespace Sys2Proof.Machine

/-! ### Another record with the same configuration -/

section
variable {s : State} {p : Nat} {x : RingPort} (hx : x.cfg = (s.rp p).cfg)
include hx

theorem rcf_setRp (a : Nat) : (s.setRp p x).rcf p a = s.rcf p a := rcf_of_same rfl rfl (by rw [rp_setRp_self]; exact hx)

theorem nodeW_setRp (n w : Nat) : (s.setRp p x).nodeW p n w = s.nodeW p n w := by
  unfold State.nodeW
  rw [rcf_setRp hx]
  rfl

theorem nodeEn_setRp (n : Nat) : (s.setRp p x).nodeEn p n = s.nodeEn p n := by
  unfold State.nodeEn
  rw [nodeW_setRp hx, rcf_setRp hx]
  rfl

theorem descCause_setRp (n : Nat) (d : List Word) : (s.setRp p x).descCause p n d = s.descCause p n d := by
  unfold State.descCause State.nodeKind State.nodeAxes State.nodeInLen State.nodeSafe
  simp only [nodeW_setRp hx]
  rfl

end

/-! ### The verdict, rule R285 -/

/-- The first good descriptor of an enabled node whose checks all hold: recorded, and the node is found. -/
def State.found (s : State) (p n : Nat) (d : List Word) : State :=
  (s.setRp p { s.rp p with desc := (n, d) :: (s.rp p).desc.filter (fun e => e.1 != n) }).setFld (Reg.RNG_NODE_LINK p n) 6 0 1

theorem judgeDesc_found {s : State} {p n : Nat} {d : List Word} (hst : s.dstate p n ≠ 5) (hold : s.desc p n = [])
    (hen : s.nodeEn p n = true) (hc : s.descCause p n d = 0) : s.judgeDesc p n d = s.found p n d := by
  unfold State.judgeDesc
  dsimp only
  rw [if_neg hst, hold, if_neg (fun h => h.1 rfl), hen, if_neg (by decide), hc, if_pos rfl]
  rfl

theorem discStat_writes (s : State) (p : Nat) : s.Writes (s.discStat p) [Reg.RNG_DISC_STAT p] :=
  (((setFld_writes _ _ _ _ _).trans (setFld_writes _ _ _ _ _)).trans (setFld_writes _ _ _ _ _)).mono (by simp)

theorem dcount_of_same {s t : State} {p : Nat} {l : List Nat} (h : s.SameRegs t l) (hl : ∀ n, n < 64 → Reg.RNG_NODE_LINK p n ∉ l) (d : Nat) :
    t.dcount p d = s.dcount p d := by
  unfold State.dcount
  refine congrArg List.length (List.filter_congr fun n hn => ?_)
  unfold State.dstate
  rw [h.fld (hl n (List.mem_range.mp hn))]

theorem dcount_le (s : State) (p d : Nat) : s.dcount p d ≤ 64 :=
  (List.length_filter_le _ _).trans (Nat.le_of_eq List.length_range)

theorem nodeLink_ne_discStat (p : Fin 4) {n : Nat} (h : n < 64) : Reg.RNG_NODE_LINK p.val n ∉ [Reg.RNG_DISC_STAT p.val] :=
  (by decide : ∀ (p : Fin 4) (n : Fin 64), Reg.RNG_NODE_LINK p.val n.val ∉ [Reg.RNG_DISC_STAT p.val]) p ⟨n, h⟩

/-- RNG_DISC_STAT counts the nodes found. -/
theorem fld_discStat (s : State) (p : Fin 4) : (s.discStat p.val).fld (Reg.RNG_DISC_STAT p.val) 6 0 = (s.discStat p.val).dcount p.val 1 := by
  rw [dcount_of_same (discStat_writes s p.val).1 (fun n hn => nodeLink_ne_discStat p hn)]
  unfold State.discStat
  rw [fld_setFld_ne (by decide) (by decide) (by decide), fld_setFld_ne (by decide) (by decide) (by decide)]
  exact (fld_setFld (by decide) (by decide) _ _ _).trans (Nat.mod_eq_of_lt (Nat.lt_of_le_of_lt (dcount_le s p.val 1) (by decide)))

/-! ### The reply, rules R283 and R284 -/

/-- The port's record with a reply noted. -/
def RingPort.answeredBy (x : RingPort) (s : State) (p n : Nat) (at_ : LaneAt) : RingPort :=
  { x with
    answered := x.answered ||| 2 ^ at_.lane.num
    descAt := (n, at_.lane.num, s.ringStamp p at_.lane at_.stamp) :: x.descAt.filter (fun e => !(e.1 == n && e.2.1 == at_.lane.num)) }

theorem descriptorReply_eq {s : State} {p n : Nat} {at_ : LaneAt} {d : List Word} (h1 : s.pstate p = psInit)
    (h2 : (s.rp p).polled = some n) (h3 : (s.rp p).answered.testBit at_.lane.num = false) (h4 : d.length = 32)
    (h5 : crc32c ((d.take 31).flatMap wordBytes) = d.getD 31 0) (h6 : s.dstate p n ≠ 5) (h7 : s.desc p n = []) (h8 : s.nodeEn p n = true)
    (h9 : s.descCause p n d = 0) :
    s.descriptorReply p n at_ d = ((s.setRp p ((s.rp p).answeredBy s p n at_)).found p n d).discStat p := by
  have hx : ((s.rp p).answeredBy s p n at_).cfg = (s.rp p).cfg := rfl
  have hold : (s.setRp p ((s.rp p).answeredBy s p n at_)).desc p n = [] := by
    unfold State.desc
    rw [rp_setRp_self]
    exact h7
  have hst : (s.setRp p ((s.rp p).answeredBy s p n at_)).dstate p n ≠ 5 := h6
  rw [← judgeDesc_found hst hold ((nodeEn_setRp hx n).trans h8) ((descCause_setRp hx n d).trans h9)]
  unfold State.descriptorReply
  exact if_pos (by simp [h1, h2, h3, h4, h5])

theorem found_clause {s : State} {p : Fin 4} {n : Fin 64} {at_ : LaneAt} {d : List Word} {t : State}
    (h : t = ((s.setRp p.val ((s.rp p.val).answeredBy s p.val n.val at_)).found p.val n.val d).discStat p.val) :
    t.dstate p.val n.val = 1 ∧ t.desc p.val n.val = d ∧ t.fld (Reg.RNG_DISC_STAT p.val) 6 0 = t.dcount p.val 1 ∧
      (t.rp p.val).answered.testBit at_.lane.num = true ∧
      s.SameRegs t [Reg.RNG_NODE_LINK p.val n.val, Reg.RNG_DISC_STAT p.val] ∧ s.SameMemory t := by
  have hw := discStat_writes ((s.setRp p.val ((s.rp p.val).answeredBy s p.val n.val at_)).found p.val n.val d) p.val
  rw [← h] at hw
  have hrp : t.rp p.val = { (s.rp p.val).answeredBy s p.val n.val at_ with
      desc := (n.val, d) :: (s.rp p.val).desc.filter (fun e => e.1 != n.val) } := by
    rw [hw.signals.rp p.val]
    unfold State.found
    rw [(setFld_writes _ _ _ _ _).signals.rp p.val, rp_setRp_self, rp_setRp_self]
    rfl
  have hall := (((setRp_ports s p.val ((s.rp p.val).answeredBy s p.val n.val at_)).trans (setRp_ports _ p.val _)).trans
    (setFld_writes _ _ _ _ _).ports).trans hw.ports
  refine ⟨?_, ?_, ?_, ?_, hall.1, hall.memory⟩
  · refine (hw.1.fld (nodeLink_ne_discStat p n.isLt) 2 0).trans ?_
    unfold State.found
    rw [fld_setFld_within (by decide) (by decide) (by decide) (by decide)]
    rfl
  · unfold State.desc
    rw [hrp]
    simp
  · rw [h]
    exact fld_discStat _ p
  · rw [hrp]
    change ((s.rp p.val).answered ||| 2 ^ at_.lane.num).testBit at_.lane.num = true
    simp

end Sys2Proof.Machine
end

section
/-! SUPPORT. The roles of a ring port settled (O46). -/

namespace Sys2Proof.Machine

/-! ### Each role's command -/

theorem listenEnd_claims {s : State} {p : Nat} (h1 : s.ringOn = true) (h2 : s.pstate p = psListen) (h3 : s.masterRole p = true)
    (h4 : s.ringFree = true) (h5 : s.rcFld p (Reg.RNG_CTRL p) 4 4 = 1) (h6 : s.rcFld p (Reg.RNG_MISS p) 23 16 ≤ (s.rp p).listen) :
    s.listenEnd p = ((s.setRp p (s.rp p).claims).setPstate p psClaim).sendClaim p := by
  unfold State.listenEnd
  exact if_pos (by simp [h1, h2, h3, h4, h5, h6])

/-- A frame reaches a port on a lane that is UP. -/
theorem onLane_eq {s a : State} {p : Nat} {l : Lane} (h1 : s.ringOn = true) (h2 : s.laneUp p l = true) :
    (if s.ringOn && s.laneUp p l then a else s) = a := by
  rw [h1, h2]
  rfl

section
variable {s : State} {p : Fin 4} {l : Lane} {src prio dev : Nat} {h : RxHead} (hk : h.ok.getLsbD 0 = true)
  (hst : s.pstate p.val = psClaim) (hc : (s.rp p.val).claiming = true)
include hk hst hc

theorem claimFrame_better (hb : betterClaim prio dev (s.rcFld p.val (Reg.RNG_CTRL p.val) 15 8) s.deviceId = true) {t : State}
    (ht : t = s.claimFrame p.val l src prio dev h) :
    t.pstate p.val = psNode ∧ t.bit (Reg.RNG_STAT p.val) 11 = true ∧ (t.rp p.val).claiming = false := by
  have hu := claimTaken_taken s p.val l src prio dev h
  refine claimBetter_clause (s.claimTaken p.val l src prio dev h) p.val
    (ht.trans ((claimFrame_eq hk s p.val l src prio dev).trans (claimIn_better (hu.pstate.trans hst) ?_ ?_)))
  · rw [hu.notes]; exact hc
  · rw [hu.rcFld (ringCtrl_notMem_rx p), hu.deviceId]; exact hb

theorem claimFrame_own (h1 : prio = s.rcFld p.val (Reg.RNG_CTRL p.val) 15 8) (h2 : dev = s.deviceId) {t : State}
    (ht : t = s.claimFrame p.val l 0xFE prio dev h) :
    t.pstate p.val = psClaim ∧ (t.rp p.val).claimBack = true ∧
      (t.rp p.val).rounds = (s.rp p.val).rounds + (if (s.rp p.val).claimBack = true then 0 else 1) := by
  have hu := claimTaken_taken s p.val l 0xFE prio dev h
  have hc' : ((s.claimTaken p.val l 0xFE prio dev h).rp p.val).claiming = true := by rw [hu.notes]; exact hc
  rw [claimFrame_eq hk, claimIn_own (hu.pstate.trans hst) hc' (by rw [hu.rcFld (ringCtrl_notMem_rx p)]; exact h1)
    (by rw [hu.deviceId]; exact h2)] at ht
  subst ht
  refine ⟨hu.pstate.trans hst, ?_, ?_⟩
  · rw [rp_setRp_self]
  · rw [rp_setRp_self, hu.notes]
    cases (s.rp p.val).claimBack <;> rfl

theorem claimFrame_double (h1 : prio = s.rcFld p.val (Reg.RNG_CTRL p.val) 15 8) (h2 : dev = s.deviceId) (h3 : src ≠ 0xFE) {t : State}
    (ht : t = s.claimFrame p.val l src prio dev h) :
    t.pstate p.val = psClaim ∧ t.bit (Reg.RNG_STAT p.val) 9 = true ∧ (t.rp p.val).claiming = false := by
  have hu := claimTaken_taken s p.val l src prio dev h
  have hc' : ((s.claimTaken p.val l src prio dev h).rp p.val).claiming = true := by rw [hu.notes]; exact hc
  rw [claimFrame_eq hk, claimIn_double (hu.pstate.trans hst) hc' (by rw [hu.rcFld (ringCtrl_notMem_rx p)]; exact h1)
    (by rw [hu.deviceId]; exact h2) h3] at ht
  obtain ⟨hps, hbit, hclaim⟩ := claimDouble_clause _ _ ht
  exact ⟨hps.trans (hu.pstate.trans hst), hbit, hclaim⟩

end

theorem nodeSilence_clause {s : State} {p : Nat} (hc : s.clocked = true) (h : s.pstate p = psNode) {t : State}
    (ht : t = (s.setRp p { s.rp p with again := 0 }).setPstate p psSilent) :
    t.pstate p = psSilent ∧
      (s.setRp p { s.rp p with again := 0 }).Raises t [Reg.RNG_STAT p, Reg.PG_IRQ_RAW (ringPage p)] [⟨ringPage p, 0, false, 0, s.now⟩] := by
  have hst : (s.setRp p { s.rp p with again := 0 }).pstate p ≠ psSilent := by
    change s.pstate p ≠ psSilent
    rw [h]
    decide
  have hclk : (s.setRp p { s.rp p with again := 0 }).clocked = true := hc
  have hraise := setPstate_raises hclk hst
  rw [← ht] at hraise
  exact ⟨ht ▸ pstate_setPstate (by decide) _ _, hraise⟩

theorem descriptorReply_clause {s u : State} {p : Fin 4} {n : Fin 64} {l : LaneAt} {d : List Word}
    (hu : s.Taken u p.val (storeRegs ++ rxRegs p.val)) (h1 : s.pstate p.val = psInit) (h2 : (s.rp p.val).polled = some n.val)
    (h3 : (s.rp p.val).answered.testBit l.lane.num = false) (h4 : d.length = 32)
    (h5 : crc32c ((d.take 31).flatMap wordBytes) = d.getD 31 0) (h6 : s.dstate p.val n.val ≠ 5) (h7 : s.desc p.val n.val = [])
    (h8 : u.nodeEn p.val n.val = true) (h9 : u.descCause p.val n.val d = 0) {t : State} (ht : t = u.descriptorReply p.val n.val l d) :
    t.dstate p.val n.val = 1 ∧ t.desc p.val n.val = d ∧ t.fld (Reg.RNG_DISC_STAT p.val) 6 0 = t.dcount p.val 1 ∧
      (t.rp p.val).answered.testBit l.lane.num = true ∧
      u.SameRegs t [Reg.RNG_NODE_LINK p.val n.val, Reg.RNG_DISC_STAT p.val] ∧ u.SameMemory t := by
  have hlink : u.dstate p.val n.val = s.dstate p.val n.val :=
    hu.regs.fld (notMem_rx (Nat.le_add_right_of_le (Nat.le_add_right_of_le (by decide)))
      ((by decide : ∀ (p : Fin 4) (n : Fin 64), Reg.RNG_NODE_LINK p.val n.val ∉ rxRegs p.val) p n)) 2 0
  have hdesc : u.desc p.val n.val = s.desc p.val n.val := by
    unfold State.desc
    rw [hu.notes]
  refine found_clause (ht.trans (descriptorReply_eq (hu.pstate.trans h1) ?_ ?_ h4 h5 (by rw [hlink]; exact h6) (hdesc.trans h7) h8 h9))
  · rw [hu.notes]; exact h2
  · rw [hu.notes]; exact h3

/-! ### The obligation -/

/-- Settles O46: each role follows from what a frame that comes in leaves of the port, and at a boundary each port steps by its own state. -/
theorem ringRoles : Obligations.RingRoles := by
  refine ⟨?_, ?_, ?_, ?_, ?_, ?_, ?_, ?_, ?_, ?_⟩
  · intro s ag p v x hw hc hm hk
    exact ⟨_, rfl, ringCtrl_clause (domOn_of_writable (cfgWritable_writable hw)) (cfgWord_ringCtrl_accepted hw hc hm hk)⟩
  · intro s p h1 h2 h3 h4 h5 h6
    exact ⟨_, rfl, listenEnd_clause s p.val (listenEnd_claims h1 h2 h3 h4 h5 h6)⟩
  · intro s p l src prio dev h h1 h2 hk hst hc
    refine ⟨fun hb => ⟨_, rfl, ?_⟩, fun hp hd hs => ⟨_, rfl, ?_⟩, fun hp hd hs => ⟨_, rfl, ?_⟩⟩
    · exact claimFrame_better hk hst hc hb (onLane_eq h1 h2)
    · subst hs
      exact claimFrame_own hk hst hc hp hd (onLane_eq h1 h2)
    · exact claimFrame_double hk hst hc hp hd (fun e => hs (BitVec.eq_of_toNat_eq e)) (onLane_eq h1 h2)
  · intro s p h1 h2 h3 h4 h5
    exact ⟨_, rfl, claimWon_clause s p (claimWon_eq h1 h2 h3 h4 h5)⟩
  · intro s p l f egress stamp h1 h2
    refine ⟨fun hst hrole hb hr hp => ⟨_, rfl, ?_⟩, fun hst hrole hb hp => ⟨_, rfl, ?_⟩, fun hst hb hr => ⟨_, rfl, ?_⟩⟩
    · exact refFrame_listening (onLane_eq h1 h2) hst hrole hb hr hp
    · exact refFrame_foreign (onLane_eq h1 h2) hst hrole hb hp
    · exact refFrame_serving (onLane_eq h1 h2) hst hb hr
  · intro s p h1 h2 h3 h4 h5 h6
    exact ⟨_, rfl, backupTakeover_clause (ringOn_clocked h1) (backupTakeover_eq h1 h2 h3 h4 h5 h6)⟩
  · intro s p h1 h2 h3
    exact ⟨_, rfl, nodeSilence_clause (ringOn_clocked h1) h2 (nodeSilence_eq h1 h2 h3)⟩
  · intro s h1 h2 h3 hs
    exact ⟨_, rfl, cycleBoundary_clause h1 h2 h3 hs rfl⟩
  · intro s h
    exact ⟨_, rfl, cycleBoundary_undivided h⟩
  · intro s u p n l d h1 h2 hu hst hp ha hlen hcrc hd5 hnone hen hcause
    have htaken : s.Taken u p.val (storeRegs ++ rxRegs p.val) := by
      rw [hu]
      exact rxLog_taken _ _ _ _ _ _ _ _
    refine ⟨_, rfl, descriptorReply_clause htaken hst hp ha hlen hcrc hd5 hnone hen hcause ?_⟩
    rw [hu]
    exact onLane_eq h1 h2

end Sys2Proof.Machine
end

section
/-! SUPPORT. The copies of a cyclic or safety frame and what a port in service takes of them (O47). -/

namespace Sys2Proof.Machine

/-! ### Counters that saturate -/

theorem rdN_add (s : State) (a n : Nat) : (s.add a n).rdN a = min (s.rdN a + n) 0xFFFFFFFF := by
  unfold State.add
  rw [rdN_wrN_self]
  omega

/-! ### A frame's two copies, rules R238 and R252 -/

/-- The registers in which the copies of a node's frame show. -/
abbrev copyRegs (p n : Nat) : List Nat :=
  [Reg.RNG_NODE_STAT p n, Reg.RNG_CRC_CNT_A p, Reg.RNG_CRC_CNT_B p, Reg.RNG_OFFSLOT_CNT p, Reg.PG_IRQ_RAW (ringPage p),
    Reg.RNG_LANE_SAVE_CNT p, Reg.RNG_LATE_CNT p, Reg.RNG_EARLY_CNT p] ++ traceRegs (0x50 + p)

/-- The copies of a frame are counted and checked: nothing differs but those registers, the port's corrections and the event unit with its
messages. -/
structure State.Counted (s t : State) (p n : Nat) : Prop where
  ports : s.PortsFrame t (copyRegs p n)
  corr : t.rp p = { s.rp p with corr := (t.rp p).corr }

theorem State.Counted.refl (s : State) (p n : Nat) : s.Counted s p n := ⟨.refl s _, rfl⟩

theorem State.Counted.trans {s t u : State} {p n : Nat} (h : s.Counted t p n) (k : t.Counted u p n) : s.Counted u p n := by
  refine ⟨(h.ports.trans k.ports).mono (fun a ha => (List.mem_append.mp ha).elim id id), ?_⟩
  rw [k.corr, h.corr]

theorem State.Signals.counted {s t : State} {p n : Nat} {l : List Nat} (h : s.Signals t l) (hl : ∀ a ∈ l, a ∈ copyRegs p n) :
    s.Counted t p n := by
  refine ⟨h.ports.mono hl, ?_⟩
  rw [h.rp p]

theorem State.Writes.counted {s t : State} {p n : Nat} {l : List Nat} (h : s.Writes t l) (hl : ∀ a ∈ l, a ∈ copyRegs p n) :
    s.Counted t p n := h.signals.counted hl

theorem crcBad_counted (s : State) (p n k : Nat) (l : Lane) : s.Counted (s.crcBad p k l) p n :=
  (crcBad_writes s p k l).counted (by cases l <;> simp [crcReg])

theorem offSlot_counted (s : State) (p n : Nat) (bad : Bool) : s.Counted (s.offSlot p n bad) p n := by
  unfold State.offSlot
  split
  · exact ((((setBit_writes _ _ _ _).trans (inc_writes _ _)).signals.trans (event_signals _ _ _ _)).counted (by simp)).trans
      ((trace_signals _ _ _ _ _ _ _).counted fun _ => List.mem_append_right _)
  · exact .refl s p n

theorem judgeCopy_counted (s : State) (p n plan cnt : Nat) (l : Lane) (ok : Nat) (c : FrameCopy) :
    s.Counted (s.judgeCopy p n plan cnt l ok c) p n := by
  unfold State.judgeCopy
  split
  · exact (crcBad_counted _ _ _ _ _).trans (offSlot_counted _ _ _ _)
  · exact .refl s p n

theorem slotCheck_counted (s : State) (p n : Nat) (dev : Int) : s.Counted (s.slotCheck p n dev) p n := by
  unfold State.slotCheck
  extract_lets late early s1 s2 x rest
  have h1 : s.Counted s1 p n :=
    (((setFld_writes _ _ _ _ _).trans (setBit_writes _ _ _ _)).trans (setBit_writes _ _ _ _)).counted (by simp)
  have h2 : s1.Counted s2 p n := by
    unfold s2
    split
    · exact (inc_writes _ _).counted (by simp)
    · split
      · exact (inc_writes _ _).counted (by simp)
      · exact .refl s1 p n
  refine (h1.trans h2).trans ⟨(setRp_ports _ _ _).mono (by simp), ?_⟩
  rw [rp_setRp_self]

theorem copies_counted (s : State) (p n plan cnt : Nat) (h : InHeader) (okA okB : Nat) : s.Counted (s.copies p n plan cnt h okA okB).1 p n := by
  unfold State.copies
  have hs := (((setBit_writes s (Reg.RNG_NODE_STAT p n) 9 false).counted (p := p) (n := n) (by simp)).trans
    (judgeCopy_counted _ p n plan cnt .a okA h.a)).trans (judgeCopy_counted _ p n plan cnt .b okB h.b)
  have hadd : ∀ (t : State) (k : Nat), t.Counted (t.add (Reg.RNG_LANE_SAVE_CNT p) k) p n := fun t k => (add_writes _ _ _).counted (by simp)
  dsimp only
  split
  · exact hs.trans (hadd _ _)
  · exact (hs.trans (hadd _ _)).trans (slotCheck_counted _ _ _ _)

/-! ### A frame noted -/

theorem rp_noteFrame (s : State) (p n : Nat) (safe : Bool) (cnt mask : Nat) :
    ((s.noteFrame p n safe cnt mask).rp p).arrived = (if mask = 0 then (s.rp p).arrived else (n, safe) :: (s.rp p).arrived) ∧
      ((s.noteFrame p n safe cnt mask).rp p).failed =
        (s.rp p).failed ++ ((List.range cnt).filter (fun b => !mask.testBit b)).map (fun b => (⟨n, safe, b⟩ : RingBlock)) := by
  unfold State.noteFrame
  dsimp only
  rw [rp_setRp_self]
  exact ⟨rfl, rfl⟩

/-- A block that no copy holds is listed. -/
theorem mem_failed_noteFrame {cnt mask b : Nat} (hb : b < cnt) (hm : mask.testBit b = false) (s : State) (p n : Nat) (safe : Bool) :
    (⟨n, safe, b⟩ : RingBlock) ∈ ((s.noteFrame p n safe cnt mask).rp p).failed := by
  rw [(rp_noteFrame s p n safe cnt mask).2]
  refine List.mem_append_right _ (List.mem_map.mpr ⟨b, List.mem_filter.mpr ⟨List.mem_range.mpr hb, ?_⟩, rfl⟩)
  rw [hm]
  rfl

theorem arrived_noteFrame {mask : Nat} (hm : mask ≠ 0) (s : State) (p n : Nat) (safe : Bool) (cnt : Nat) :
    (n, safe) ∈ ((s.noteFrame p n safe cnt mask).rp p).arrived := by
  rw [(rp_noteFrame s p n safe cnt mask).1, if_neg hm]
  exact List.mem_cons_self

/-! ### CYC_IN, rules R252 and R260 -/

/-- The registers in which a payload that is stored may show. -/
abbrev payRegs (p : Nat) : List Nat := storeRegs ++ [Reg.RNG_HOLD_CNT p, Reg.RNG_OUT_LOST_CNT p]

theorem storeCell_pay (s : State) (a n v p : Nat) : s.Taken (s.storeCell a n v) p (payRegs p) :=
  (storeCell_taken s a n v p).mono fun _ => List.mem_append_left _

theorem putBlock_taken (s : State) (p n : Nat) (pay : List (BitVec 8)) (b : Nat) : s.Taken (s.putBlock p n pay b) p (payRegs p) :=
  forEach_taken (fun _ _ => storeCell_pay _ _ _ _ _) _ _

theorem areaHead_taken (s : State) (p n lanes : Nat) (c : FrameCopy) (dev : Int) (echo : Nat) :
    s.Taken (s.areaHead p n lanes c dev echo) p (payRegs p) := by
  have hs := ((storeCell_pay s (s.nodeArea s.parity p n) 4 (4 * lanes + 65536 * c.hold.toNat) p).again
    (storeCell_pay _ (s.nodeArea s.parity p n + 4) 4 (wrapTo 32 (devNs dev)) p)).again
      (storeCell_pay _ (s.nodeArea s.parity p n + 8) 8 echo p)
  unfold State.areaHead
  dsimp only
  split
  · exact hs.again (((inc_writes _ _).taken p).mono (by simp))
  · exact hs

/-- The valid blocks of a frame, written as they arrive. -/
def State.putBlocks (s : State) (p n m : Nat) (pay : List (BitVec 8)) : State :=
  forEach (fun b st => if m.testBit b then st.putBlock p n pay b else st) (List.range (blockCount pay.length)) s

theorem putBlocks_taken (s : State) (p n m : Nat) (pay : List (BitVec 8)) : s.Taken (s.putBlocks p n m pay) p (payRegs p) := by
  refine forEach_taken (fun b t => ?_) _ _
  split
  · exact putBlock_taken _ _ _ _ _
  · exact .refl _ _ _

section
variable {s : State} {p n : Nat} {h : InHeader} {pay : List (BitVec 8)} {okA okB : Nat}

/-- The copies of a CYC_IN counted and its arrival noted. -/
def State.cycNoted (s : State) (p n : Nat) (h : InHeader) (pay : List (BitVec 8)) (okA okB : Nat) : State :=
  (s.copies p n (s.inPlan p n) (blockCount pay.length) h okA okB).1.noteFrame p n false (blockCount pay.length)
    (s.copies p n (s.inPlan p n) (blockCount pay.length) h okA okB).2

theorem cycIn_taken (h1 : s.ringOn = true) (h2 : s.pstate p = psCyclic) (h3 : s.takesFrom p n = true)
    (h4 : s.payFits p n pay.length = true) (h5 : (s.rp p).done = false) :
    (s.cycNoted p n h pay okA okB).Taken (s.cycIn p n h pay okA okB) p (payRegs p) ∧
      ((s.copies p n (s.inPlan p n) (blockCount pay.length) h okA okB).2 = 0 →
        s.cycIn p n h pay okA okB = s.cycNoted p n h pay okA okB) := by
  unfold State.cycIn
  rw [if_pos (by simp [h1, h2, h3, h4])]
  dsimp only
  rw [h5, if_neg Bool.false_ne_true]
  split
  · exact ⟨.refl _ _ _, fun _ => rfl⟩
  · next hm =>
    refine ⟨?_, fun hz => absurd hz hm⟩
    exact (((inHeader_noted _ _ _ _ _).taken.mono (by simp)).again (putBlocks_taken _ p n _ pay)).again (areaHead_taken _ _ _ _ _ _ _)

end

theorem cycIn_clause {s : State} {p n : Nat} {h : InHeader} {pay : List (BitVec 8)} {okA okB : Nat} (h1 : s.ringOn = true)
    (h2 : s.pstate p = psCyclic) (h3 : s.takesFrom p n = true) (h4 : s.payFits p n pay.length = true) (h5 : (s.rp p).done = false)
    {m : Nat} (hm : m = (s.copies p n (s.inPlan p n) (blockCount pay.length) h okA okB).2) {t : State}
    (ht : t = s.cycIn p n h pay okA okB) :
    (m ≠ 0 → (n, false) ∈ (t.rp p).arrived) ∧ (m = 0 → (t.rp p).arrived = (s.rp p).arrived ∧ s.SameMemory t) ∧
      (∀ b, b < blockCount pay.length → m.testBit b = false → ⟨n, false, b⟩ ∈ (t.rp p).failed) := by
  have hcount := copies_counted s p n (s.inPlan p n) (blockCount pay.length) h okA okB
  obtain ⟨htaken, hnone⟩ := cycIn_taken (h := h) (okA := okA) (okB := okB) h1 h2 h3 h4 h5
  rw [← ht] at htaken hnone
  rw [← hm] at hnone
  have hnoted : s.cycNoted p n h pay okA okB =
      (s.copies p n (s.inPlan p n) (blockCount pay.length) h okA okB).1.noteFrame p n false (blockCount pay.length) m := by
    rw [hm]
    rfl
  refine ⟨fun hz => ?_, fun hz => ?_, fun b hb hbit => ?_⟩
  · rw [htaken.notes, hnoted]
    exact arrived_noteFrame hz _ _ _ _ _
  · rw [hnone hz, hnoted, (rp_noteFrame _ _ _ _ _ _).1, if_pos hz, hcount.corr]
    exact ⟨rfl, hcount.ports.memory.trans (setRp_ports _ _ _).memory⟩
  · rw [htaken.notes, hnoted]
    exact mem_failed_noteFrame hb hbit _ _ _ _

/-! ### SAFE_IN, rules R262 and R263 -/

/-- Channel A's check of a SAFE_IN reads the node table, the count of its own and the configuration in force. -/
theorem safeInOk_of_same {s t : State} {p : Nat} (hst : t.pstate p = s.pstate p) (ht : t.rd (Reg.RNG_TBL_BASE p) = s.rd (Reg.RNG_TBL_BASE p))
    (hm : t.rd (Reg.RNG_MISS p) = s.rd (Reg.RNG_MISS p)) (hc : (t.rp p).cfg = (s.rp p).cfg) (hcell : ∀ a, t.cell32 a = s.cell32 a)
    (hsaf : t.saf = s.saf) (n : Nat) (pay : BitVec 256) : t.safeInOk p n pay = s.safeInOk p n pay := by
  unfold State.safeInOk State.nodeW
  rw [rcf_of_same hst ht hc, rcFld_of_same hst hm hc]
  simp only [hcell, hsaf]

theorem copyRegs_cfg (p : Fin 4) (n : Fin 64) : Reg.RNG_STAT p.val ∉ copyRegs p.val n.val ∧ Reg.RNG_TBL_BASE p.val ∉ copyRegs p.val n.val ∧
    Reg.RNG_MISS p.val ∉ copyRegs p.val n.val :=
  (by decide : ∀ (p : Fin 4) (n : Fin 64), Reg.RNG_STAT p.val ∉ copyRegs p.val n.val ∧ Reg.RNG_TBL_BASE p.val ∉ copyRegs p.val n.val ∧
    Reg.RNG_MISS p.val ∉ copyRegs p.val n.val) p n

theorem safeStores_taken (s : State) (p n : Nat) (pay : BitVec 256) :
    s.Taken (forEach (fun w st => st.storeCell (st.safeArea p n + 4 * w) 4 (payWord pay w)) (List.range 8) s) p storeRegs :=
  forEach_taken (fun _ _ => storeCell_taken _ _ _ _ _) _ _

/-- A SAFE_IN stored and judged. -/
def State.safeJudged (s : State) (p n : Nat) (pay : BitVec 256) : State :=
  (forEach (fun w st => st.storeCell (st.safeArea p n + 4 * w) 4 (payWord pay w)) (List.range 8) s).setBit (Reg.RNG_NODE_STAT p n) 12
    (!s.safeInOk p n pay)

/-- The words 3 of the SAFE_INs that channel A has accepted, with this one judged. -/
def safeKept (ok : Bool) (l : List (Nat × Nat)) (k v : Nat) : List (Nat × Nat) :=
  if ok then l.filter (fun e => e.1 != k) ++ [(k, v)] else l.filter (fun e => e.1 != k)

theorem rp_withSaf (s : State) (x : Saf) (p : Nat) : ({ s with saf := x } : State).rp p = s.rp p := rfl

/-- The safety unit's records with a SAFE_IN judged. -/
def Saf.judged (x : Saf) (ok : Bool) (k v : Nat) : Saf := { x with safeIn := safeKept ok x.safeIn k v }

theorem takeSafeIn_eq (s : State) (p n : Nat) (pay : BitVec 256) : s.takeSafeIn p n pay =
    { s.safeJudged p n pay with saf := (s.safeJudged p n pay).saf.judged (s.safeInOk p n pay) (nodeKey p n) (payWord pay 3) } := by
  unfold State.takeSafeIn State.safeJudged Saf.judged safeKept
  rfl

theorem safeJudged_taken (s : State) (p n : Nat) (pay : BitVec 256) :
    s.Taken (s.safeJudged p n pay) p (storeRegs ++ [Reg.RNG_NODE_STAT p n]) :=
  (safeStores_taken s p n pay).trans ((setBit_writes _ (Reg.RNG_NODE_STAT p n) 12 (!s.safeInOk p n pay)).taken p)

/-- What channel A keeps of a SAFE_IN that it has judged. -/
theorem takeSafeIn_outcome (s : State) (p n : Nat) (pay : BitVec 256) :
    (s.rp p).Notes ((s.takeSafeIn p n pay).rp p) ∧ (s.takeSafeIn p n pay).bit (Reg.RNG_NODE_STAT p n) 12 = (!s.safeInOk p n pay) ∧
      (s.takeSafeIn p n pay).saf.safeIn = safeKept (s.safeInOk p n pay) s.saf.safeIn (nodeKey p n) (payWord pay 3) := by
  have hj := safeJudged_taken s p n pay
  have hbit : (s.safeJudged p n pay).bit (Reg.RNG_NODE_STAT p n) 12 = !s.safeInOk p n pay := by
    unfold State.safeJudged
    exact bit_setBit_self (by decide) _ _ _
  rw [takeSafeIn_eq, rp_withSaf (s.safeJudged p n pay), bit_of_rd (rd_withSaf (s.safeJudged p n pay) _ _), hj.saf]
  exact ⟨hj.notes, hbit, rfl⟩

theorem mem_safeKept (ok : Bool) (l : List (Nat × Nat)) (k v w : Nat) : (k, w) ∈ safeKept ok l k v ↔ ok = true ∧ w = v := by
  unfold safeKept
  cases ok <;> simp

/-- With the copies of a SAFE_IN counted and its arrival noted. -/
def State.safeArrived (s : State) (p n : Nat) (h : InHeader) (okA okB : Nat) : State :=
  (s.copies p n (s.safePlan p n) 1 h okA okB).1.noteFrame p n true 1 (s.copies p n (s.safePlan p n) 1 h okA okB).2

/-- With the header of the copy used. -/
def State.safeHeaded (s : State) (p n : Nat) (h : InHeader) (okA okB : Nat) : State :=
  (s.safeArrived p n h okA okB).inHeader p n (usedCopy h (s.copyMasks p (s.safePlan p n) 1 h okA okB).1
    (s.copyMasks p (s.safePlan p n) 1 h okA okB).2).hold h.alm

theorem safeHeaded_noted (s : State) (p n : Nat) (h : InHeader) (okA okB : Nat) :
    (s.safeArrived p n h okA okB).Noted (s.safeHeaded p n h okA okB) p [Reg.RNG_HOLD_CNT p] := inHeader_noted _ _ _ _ _

theorem safeArrived_cfg (s : State) (p n : Nat) (h : InHeader) (okA okB : Nat) :
    ((s.safeArrived p n h okA okB).rp p).cfg = (s.rp p).cfg := by
  unfold State.safeArrived State.noteFrame
  dsimp only
  rw [rp_setRp_self, (copies_counted s p n (s.safePlan p n) 1 h okA okB).corr]

theorem safeInOk_safeHeaded (s : State) (p : Fin 4) (n : Fin 64) (h : InHeader) (okA okB : Nat) (pay : BitVec 256) :
    (s.safeHeaded p.val n.val h okA okB).safeInOk p.val n.val pay = s.safeInOk p.val n.val pay := by
  have hhead := safeHeaded_noted s p.val n.val h okA okB
  have hall : s.PortsFrame (s.safeHeaded p.val n.val h okA okB) (copyRegs p.val n.val ++ [] ++ [Reg.RNG_HOLD_CNT p.val]) :=
    ((copies_counted s p.val n.val (s.safePlan p.val n.val) 1 h okA okB).ports.trans (setRp_ports _ _ _)).trans hhead.ports
  have hne : ∀ a, a ∉ copyRegs p.val n.val → a ≠ Reg.RNG_HOLD_CNT p.val → a ∉ copyRegs p.val n.val ++ [] ++ [Reg.RNG_HOLD_CNT p.val] :=
    fun a h1 h2 => by
      rw [List.append_nil, List.mem_append, List.mem_singleton, not_or]
      exact ⟨h1, h2⟩
  obtain ⟨hst, htbl, hmiss⟩ := copyRegs_cfg p n
  refine safeInOk_of_same (hall.1.pstate (hne _ hst (by simp))) (hall.1 _ (hne _ htbl (by simp))) (hall.1 _ (hne _ hmiss (by simp)))
    ?_ hall.cell32 hall.saf _ _
  rw [hhead.notes]
  exact safeArrived_cfg s p.val n.val h okA okB

/-- What is noted of the lanes shows in the safety unit's own records only. -/
theorem noteLanes_rest (s : State) (p n : Nat) (both : Bool) : (∀ a, (s.noteLanes p n both).rd a = s.rd a) ∧
    (∀ q, (s.noteLanes p n both).rp q = s.rp q) ∧ (s.noteLanes p n both).saf.safeIn = s.saf.safeIn := by
  unfold State.noteLanes
  split
  · exact ⟨fun _ => rfl, fun _ => rfl, rfl⟩
  · exact ⟨fun _ => rfl, fun _ => rfl, rfl⟩

theorem safeIn_eq {s : State} {p n : Nat} {h : InHeader} {pay : BitVec 256} {okA okB : Bool} (h1 : s.ringOn = true)
    (h2 : s.pstate p = psCyclic) (h3 : s.takesFrom p n = true) (h4 : s.nodeSafe p n = true) (h5 : (s.rp p).done = false)
    (hm : (s.copies p n (s.safePlan p n) 1 h (b2n okA) (b2n okB)).2 ≠ 0) :
    ∃ both, s.safeIn p n h pay okA okB = ((s.safeHeaded p n h (b2n okA) (b2n okB)).takeSafeIn p n pay).noteLanes p n both := by
  refine ⟨(s.copyMasks p (s.safePlan p n) 1 h (b2n okA) (b2n okB)).1 ≠ 0 && (s.copyMasks p (s.safePlan p n) 1 h (b2n okA) (b2n okB)).2 ≠ 0, ?_⟩
  unfold State.safeIn
  rw [if_pos (by simp [h1, h2, h3, h4])]
  dsimp only
  rw [h5, if_neg Bool.false_ne_true, if_neg hm]
  rfl

theorem safeIn_clause {s : State} {p : Fin 4} {n : Fin 64} {h : InHeader} {pay : BitVec 256} {okA okB : Bool} (h1 : s.ringOn = true)
    (h2 : s.pstate p.val = psCyclic) (h3 : s.takesFrom p.val n.val = true) (h4 : s.nodeSafe p.val n.val = true)
    (h5 : (s.rp p.val).done = false) (hm : (s.copies p.val n.val (s.safePlan p.val n.val) 1 h (b2n okA) (b2n okB)).2 ≠ 0) {t : State}
    (ht : t = s.safeIn p.val n.val h pay okA okB) :
    (n.val, true) ∈ (t.rp p.val).arrived ∧ t.bit (Reg.RNG_NODE_STAT p.val n.val) 12 = (!s.safeInOk p.val n.val pay) ∧
      (∀ w, (nodeKey p.val n.val, w) ∈ t.saf.safeIn ↔ s.safeInOk p.val n.val pay = true ∧ w = payWord pay 3) := by
  obtain ⟨both, heq⟩ := safeIn_eq (pay := pay) h1 h2 h3 h4 h5 hm
  obtain ⟨hrd, hrp, hkeep⟩ := noteLanes_rest ((s.safeHeaded p.val n.val h (b2n okA) (b2n okB)).takeSafeIn p.val n.val pay) p.val n.val both
  obtain ⟨hnotes, hbit, hkept⟩ := takeSafeIn_outcome (s.safeHeaded p.val n.val h (b2n okA) (b2n okB)) p.val n.val pay
  rw [safeInOk_safeHeaded] at hbit hkept
  rw [← heq, ← ht] at hrd hrp hkeep
  rw [hrp, bit_of_rd (hrd _), hkeep, hkept]
  refine ⟨?_, hbit, fun w => mem_safeKept _ _ _ _ _⟩
  · rw [hnotes]
    change (n.val, true) ∈ ((s.safeHeaded p.val n.val h (b2n okA) (b2n okB)).rp p.val).arrived
    rw [(safeHeaded_noted s p.val n.val h (b2n okA) (b2n okB)).notes]
    exact arrived_noteFrame hm _ _ _ _ _

end Sys2Proof.Machine
end

section
/-! SUPPORT. Command frames, retries and lost nodes of a port (O47). -/

namespace Sys2Proof.Machine

/-! ### Nothing but the ports' records differs -/

/-- Nothing differs but the ports' records. -/
def State.InRing (s t : State) : Prop := t = { s with ring := t.ring }

theorem State.InRing.refl (s : State) : s.InRing s := rfl

theorem State.InRing.trans {s t u : State} (h : s.InRing t) (k : t.InRing u) : s.InRing u := by
  unfold State.InRing
  rw [k, h]

theorem setRp_inRing (s : State) (p : Nat) (x : RingPort) : s.InRing (s.setRp p x) := rfl

theorem send_inRing (s : State) (p : Nat) (f : RingFrame) : s.InRing (s.send p f) := by
  unfold State.send
  split
  · exact .refl s
  · exact setRp_inRing _ _ _

theorem relay_inRing (s : State) (p typ lanes : Nat) : s.InRing (s.relay p typ lanes) := by
  unfold State.relay
  split
  · exact setRp_inRing _ _ _
  · exact .refl s

theorem resend_inRing (s : State) (p typ dst src blk : Nat) : s.InRing (s.resend p typ dst src blk) := by
  unfold State.resend
  split
  · exact .refl s
  · exact send_inRing _ _ _

theorem forEach_inRing {α : Type} {f : α → State → State} (hf : ∀ x (t : State), t.InRing (f x t)) (xs : List α) :
    ∀ s : State, s.InRing (forEach f xs s) := by
  induction xs with
  | nil => exact .refl
  | cons x xs ih => exact fun s => (hf x s).trans (ih _)

theorem State.InRing.traceOn {s t : State} (h : s.InRing t) (src : Nat) : t.traceOn src = s.traceOn src := by
  unfold State.InRing at h
  rw [h]
  rfl

/-- A port that is no station, claimant or listening node forwards nothing. -/
theorem relay_idle {s : State} {p : Nat} (h : s.relays p = false) (typ lanes : Nat) : s.relay p typ lanes = s := by
  unfold State.relay
  rw [h]
  rfl

theorem relays_cyclic {s : State} {p : Nat} (h : s.pstate p = psCyclic) : s.relays p = false := by
  unfold State.relays State.station
  rw [h]
  rfl

theorem station_cyclic {s : State} {p : Nat} (h : s.pstate p = psCyclic) : s.station p = false := by
  unfold State.station
  rw [h]
  rfl

/-! ### CYC_OUT, rule R260 -/

/-- A frame has at least the block of its header. -/
theorem blockCount_pos (len : Nat) : 0 < blockCount len := by
  unfold blockCount
  omega

/-- Every byte of a payload lies in one of its frame's blocks. -/
theorem byteBlock_lt {i len : Nat} (h : i < len) : (i + 12) / 256 < blockCount len := by
  unfold blockCount
  omega

/-- The copy of a frame of which all blocks are valid. -/
theorem copyMask_whole {ok cnt : Nat} (hcnt : 0 < cnt) (h : ok % 2 ^ cnt = 2 ^ cnt - 1) : copyMask 0 ok cnt true ⟨1, 0, 0⟩ = 2 ^ cnt - 1 := by
  have hbit : ok.testBit 0 = true := by
    have h0 := congrArg (fun v => v.testBit 0) h
    rw [Nat.testBit_mod_two_pow, Nat.testBit_two_pow_sub_one, decide_eq_true hcnt, Bool.true_and] at h0
    exact h0
  unfold copyMask
  rw [if_pos ⟨rfl, hbit, rfl, by decide⟩, h]

theorem copyMask_lt (plan ok cnt : Nat) (up : Bool) (c : FrameCopy) : copyMask plan ok cnt up c < 2 ^ cnt := by
  unfold copyMask
  split
  · exact Nat.mod_lt _ (Nat.two_pow_pos cnt)
  · exact Nat.two_pow_pos cnt

/-- Blocks that another copy holds add nothing to a whole copy. -/
theorem whole_or {cnt b : Nat} (h : b < 2 ^ cnt) : (2 ^ cnt - 1) ||| b = 2 ^ cnt - 1 := by
  apply Nat.eq_of_testBit_eq
  intro i
  rw [Nat.testBit_or, Nat.testBit_two_pow_sub_one]
  by_cases hi : i < cnt
  · simp [hi]
  · rw [Nat.testBit_lt_two_pow (Nat.lt_of_lt_of_le h (Nat.pow_le_pow_right (by decide) (Nat.not_lt.mp hi)))]
    simp [hi]

/-- A node that holds a whole frame takes all its bytes. -/
theorem wholePayload (pay : List (BitVec 8)) :
    (((List.range pay.length).zip pay).filter fun q => (2 ^ blockCount pay.length - 1).testBit ((q.1 + 12) / 256)) =
      (List.range pay.length).zip pay := by
  refine List.filter_eq_self.mpr fun q hq => ?_
  rw [Nat.testBit_two_pow_sub_one]
  exact decide_eq_true (byteBlock_lt (List.mem_range.mp (List.of_mem_zip hq).1))

/-- The port with a command frame's header taken and none of its payload. -/
def RingPort.outOpened (x : RingPort) (h : OutHeader) : RingPort := { x with echo := h.cyc.toNat, inbox := [], inMask := 0 }

theorem cycOut_whole {s : State} {p : Nat} {h : OutHeader} {pay : List (BitVec 8)} {okA okB : Nat} (h1 : s.ringOn = true)
    (h2 : s.pstate p = psNode) (h3 : pay.length ≤ 2032) (h4 : s.laneUp p .a = true)
    (h5 : okA % 2 ^ blockCount pay.length = 2 ^ blockCount pay.length - 1) :
    ∃ u : State, s.SameMemory u ∧ s.cycOut p h pay okA okB = (u.setRp p ((u.rp p).outOpened h)).takeOut p (2 ^ blockCount pay.length - 1)
      (blockCount pay.length) ((List.range pay.length).zip pay) := by
  have hm : copyMask 0 okA (blockCount pay.length) (s.laneUp p .a) ⟨1, 0, 0⟩ |||
      copyMask 0 okB (blockCount pay.length) (s.laneUp p .b && s.laneUsed p .b) ⟨1, 0, 0⟩ = 2 ^ blockCount pay.length - 1 := by
    rw [h4, copyMask_whole (blockCount_pos _) h5, whole_or (copyMask_lt _ _ _ _ _)]
  have hne : 2 ^ blockCount pay.length - 1 ≠ 0 := by
    have := Nat.pow_le_pow_right (n := 2) (by decide) (blockCount_pos pay.length)
    omega
  have hcrc : ∀ (b : Bool) (k : Nat) (l : Lane) (u : State), s.SameMemory u → s.SameMemory (if b then u.crcBad p k l else u) :=
    fun b k l u hu => by
      cases b
      · exact hu
      · exact hu.trans (crcBad_writes u p k l).ports.memory
  unfold State.cycOut
  rw [if_pos (by simp [h1, h2, h3])]
  dsimp only
  rw [hm, if_neg hne, wholePayload]
  exact ⟨_, (((hcrc _ _ _ _ (hcrc _ _ _ _ ⟨rfl, rfl, rfl, rfl, rfl⟩)).trans (add_writes _ _ _).ports.memory).trans
    (relay_noted _ _ _ _).ports.memory).trans (inHeader_noted _ _ _ _ _).ports.memory, rfl⟩

theorem takeOut_opened (u : State) (p : Nat) (h : OutHeader) (m cnt : Nat) (l : List (Nat × BitVec 8)) {t : State}
    (ht : t = (u.setRp p ((u.rp p).outOpened h)).takeOut p m cnt l) :
    (t.rp p).echo = h.cyc.toNat ∧ (t.rp p).inbox = l ∧ (t.rp p).inMask = m ∧ (t.rp p).inCnt = cnt ∧ u.SameMemory t := by
  have hrp : t.rp p = { (u.rp p).outOpened h with inbox := [] ++ l, inMask := 0 ||| m, inCnt := cnt } := by
    rw [ht]
    unfold State.takeOut
    dsimp only
    rw [rp_setRp_self, rp_setRp_self]
    rfl
  rw [hrp, ht]
  exact ⟨rfl, rfl, Nat.zero_or m, rfl, rfl, rfl, rfl, rfl, rfl⟩

/-! ### A frame of one block on both lanes, rule R238 -/

/-- Both copies valid: nothing counts. -/
theorem eitherLane_both {s : State} {p : Nat} {k : LaneOk} (h1 : s.laneUp p .a = true) (ha : k.a = true) (hb : k.b = true)
    (hf : k.bFirst = false) : s.eitherLane p k = (s, true) := by
  unfold State.eitherLane
  simp [h1, ha, hb, hf]

/-- The registers in which the copies of a frame of one block show. -/
abbrev eitherRegs (p : Nat) : List Nat := [Reg.RNG_CRC_CNT_A p, Reg.RNG_CRC_CNT_B p, Reg.RNG_LANE_SAVE_CNT p]

theorem eitherLane_writes (s : State) (p : Nat) (k : LaneOk) : s.Writes (s.eitherLane p k).1 (eitherRegs p) := by
  unfold State.eitherLane
  extract_lets upB a b s1 s2 saved
  have h1 : s.Writes s1 [Reg.RNG_CRC_CNT_A p] := by
    unfold s1
    split
    · exact crcBad_writes _ _ _ _
    · exact (State.Writes.refl s).mono (by simp)
  have h2 : s1.Writes s2 [Reg.RNG_CRC_CNT_B p] := by
    unfold s2
    split
    · exact crcBad_writes _ _ _ _
    · exact (State.Writes.refl s1).mono (by simp)
  dsimp only
  split
  · exact ((h1.trans h2).trans (inc_writes _ _)).mono (by simp)
  · exact (h1.trans h2).mono (by simp)

theorem eitherLane_good {s : State} {p : Nat} {k : LaneOk} (h1 : s.laneUp p .a = true) (ha : k.a = true) : (s.eitherLane p k).2 = true := by
  unfold State.eitherLane
  simp [h1, ha]

/-! ### SAFE_OUT, rule R262 -/

/-- A SAFE_OUT that both lanes bring, forwarded, with its header taken. -/
def State.safeOutHeaded (s : State) (p : Nat) (k : LaneOk) : State :=
  (s.relay p 4 (s.lanesOf p (b2n k.a) (b2n k.b))).inHeader p 0xFE k.hold k.alm

theorem safeOutFrame_both {s : State} {p : Nat} {k : LaneOk} (h1 : s.ringOn = true) (h2 : s.laneUp p .a = true) (h3 : s.pstate p = psNode)
    (ha : k.a = true) (hb : k.b = true) (hf : k.bFirst = false) (pay : BitVec 256) :
    s.safeOutFrame p pay k = (s.safeOutHeaded p k).safeOutIn p pay := by
  unfold State.safeOutFrame
  rw [if_pos (by simp [h1, h3]), eitherLane_both h2 ha hb hf]
  rfl

theorem safeOutIn_taken {s : State} {p : Nat} {pay : BitVec 256} {i : NodeInit} (h1 : (s.rp p).init = some i)
    (h2 : payWord pay 0 % 65536 = i.saddr.toNat) (h3 : safetyCrc (crcInit i.saddr.toNat) (payBytes pay 28) = payWord pay 7) :
    s.safeOutIn p pay = s.setRp p { s.rp p with safeCnt := payWord pay 1, safeMiss := 0 } := by
  unfold State.safeOutIn
  rw [h1]
  exact if_pos ⟨h2, h3⟩

theorem safeOut_clause {s : State} {p : Nat} {k : LaneOk} {pay : BitVec 256} {i : NodeInit} (h1 : s.ringOn = true)
    (h2 : s.laneUp p .a = true) (h3 : s.pstate p = psNode) (ha : k.a = true) (hb : k.b = true) (hf : k.bFirst = false) (hh : k.hold = 0)
    (hi : (s.rp p).init = some i) (hs : payWord pay 0 % 65536 = i.saddr.toNat)
    (hc : safetyCrc (crcInit i.saddr.toNat) (payBytes pay 28) = payWord pay 7) {t : State} (ht : t = s.safeOutFrame p pay k) :
    (t.rp p).safeCnt = payWord pay 1 ∧ (t.rp p).safeMiss = 0 ∧ t = { s with ring := t.ring } := by
  have hrelay := relay_noted s p 4 (s.lanesOf p (b2n k.a) (b2n k.b))
  have hquiet := inHeader_quiet (s.relay p 4 (s.lanesOf p (b2n k.a) (b2n k.b))) p 0xFE (alm := k.alm) (by omega)
  rw [← hh] at hquiet
  have hinit : ((s.safeOutHeaded p k).rp p).init = some i := by
    unfold State.safeOutHeaded
    rw [hquiet.1, hrelay.notes]
    exact hi
  have hring : s.InRing (s.safeOutHeaded p k) := (relay_inRing _ _ _ _).trans hquiet.2
  rw [safeOutFrame_both h1 h2 h3 ha hb hf, safeOutIn_taken hinit hs hc] at ht
  have hall : s.InRing t := by
    rw [ht]
    exact hring.trans (setRp_inRing _ _ _)
  refine ⟨?_, ?_, hall⟩
  · rw [ht, rp_setRp_self]
  · rw [ht, rp_setRp_self]

/-! ### RQ, rule R255 -/

theorem retryTrace_noted (s : State) (p : Nat) (l : List RingBlock) : s.Noted (s.retryTrace p l) p (traceRegs (0x50 + p)) :=
  forEach_noted (fun _ _ => (trace_signals _ _ _ _ _ _ _).noted p) l s

/-- With the source's records off nothing is traced. -/
theorem retryTrace_off {s : State} {p : Nat} (h : s.traceOn (0x50 + p) = false) (l : List RingBlock) : s.retryTrace p l = s := by
  unfold State.retryTrace
  induction l with
  | nil => rfl
  | cons b l ih =>
    have htrace : s.trace (0x50 + p) 0x20 (w32 b.node) (w32 b.block) 0 0 = s := if_neg (by rw [h]; decide)
    unfold forEach
    rw [htrace]
    exact ih

theorem sendRq_noted (s : State) (p : Nat) (l : List RingBlock) : s.Noted (s.sendRq p l) p [] := send_noted _ _ _

/-- The port's list of failed blocks with those that it names. -/
def RingPort.named (x : RingPort) (l : List RingBlock) (n : Nat) : RingPort := { x with failed := l, rq := l.take n }

theorem rqLaunch_cyclic {s : State} {p : Nat} (h1 : s.ringOn = true) (h2 : s.evenCycle = true) (h3 : s.pstate p = psCyclic)
    (h4 : (s.rp p).done = false) :
    s.rqLaunch p = ((s.setRp p ((s.rp p).named (s.failedBlocks p) (s.rcFld p (Reg.RNG_RTY p) 3 0))).sendRq p
      ((s.failedBlocks p).take (s.rcFld p (Reg.RNG_RTY p) 3 0))).retryTrace p ((s.failedBlocks p).take (s.rcFld p (Reg.RNG_RTY p) 3 0)) := by
  have heven : s.cycleEven p = true := by
    unfold State.cycleEven
    rw [station_cyclic h3]
    exact h2
  unfold State.rqLaunch
  rw [h1, heven, h3, h4]
  rfl

theorem rqLaunch_clause (s : State) (p : Nat) {l : List RingBlock} {n : Nat} {t : State}
    (ht : t = ((s.setRp p ((s.rp p).named l n)).sendRq p (l.take n)).retryTrace p (l.take n)) :
    (t.rp p).failed = l ∧ (t.rp p).rq = l.take n ∧ s.SameRegs t (traceRegs (0x50 + p)) ∧ s.SameMemory t := by
  have hnoted := (sendRq_noted (s.setRp p ((s.rp p).named l n)) p (l.take n)).trans (retryTrace_noted _ p (l.take n))
  rw [← ht] at hnoted
  have hall := (setRp_ports s p ((s.rp p).named l n)).trans hnoted.ports
  refine ⟨?_, ?_, hall.1.mono (by simp), hall.memory⟩
  · rw [hnoted.notes, rp_setRp_self]
    rfl
  · rw [hnoted.notes, rp_setRp_self]
    rfl

/-- The entries of an RQ that name the port. -/
def State.ownBlocks (s : State) (p : Nat) (l : List RingBlock) : List RingBlock := l.filter (fun b => b.node == s.ownAddr p)

theorem mem_ownBlocks (s : State) (p : Nat) (l : List RingBlock) (b : RingBlock) : b ∈ s.ownBlocks p l ↔ b ∈ l ∧ b.node = s.ownAddr p := by
  simp [State.ownBlocks]

/-- A node re-sends its own blocks that an RQ names, before it forwards the RQ. -/
def State.resendOwn (s : State) (p : Nat) (own : List RingBlock) : State :=
  forEach (fun (b : RingBlock) st => st.resend p (if b.safe then 5 else 3) 0xFE (st.ownAddr p) b.block) own
    (s.setRp p { s.rp p with rtyDue := own })

theorem resendOwn_inRing (s : State) (p : Nat) (own : List RingBlock) : s.InRing (s.resendOwn p own) :=
  (setRp_inRing _ _ _).trans (forEach_inRing (fun _ _ => resend_inRing _ _ _ _ _ _) _ _)

theorem resendOwn_noted (s : State) (p : Nat) (own : List RingBlock) :
    (s.setRp p { s.rp p with rtyDue := own }).Noted (s.resendOwn p own) p [] := forEach_noted (fun _ _ => resend_noted _ _ _ _ _ _) _ _

theorem rqIn_node {s : State} {p : Nat} (h1 : s.ringOn = true) (h2 : s.pstate p = psNode) (l : List RingBlock) :
    s.rqIn p l = (s.resendOwn p (s.ownBlocks p l)).retryTrace p (s.ownBlocks p l) := by
  unfold State.rqIn
  exact if_pos (by simp [h1, h2])

theorem rqFrame_clause (s : State) (p : Nat) {l : List RingBlock} {lanes : Nat} {t : State}
    (ht : t = ((s.resendOwn p (s.ownBlocks p l)).retryTrace p
      (s.ownBlocks p l)).relay p 10 lanes) :
    (∀ b, b ∈ (t.rp p).rtyDue ↔ b ∈ l ∧ b.node = s.ownAddr p) ∧ (s.traceOn (0x50 + p) = false → t = { s with ring := t.ring }) ∧
      s.SameRegs t (traceRegs (0x50 + p)) ∧ s.SameMemory t := by
  have hnoted := ((resendOwn_noted s p (s.ownBlocks p l)).trans (retryTrace_noted _ p (s.ownBlocks p l))).trans
    (relay_noted _ p 10 lanes)
  rw [← ht] at hnoted
  have hall := (setRp_ports s p { s.rp p with rtyDue := s.ownBlocks p l }).trans hnoted.ports
  refine ⟨fun b => ?_, fun hoff => ?_, hall.1.mono (by simp), hall.memory⟩
  · rw [hnoted.notes, rp_setRp_self]
    exact mem_ownBlocks s p l b
  · have hring := resendOwn_inRing s p (s.ownBlocks p l)
    rw [retryTrace_off ((hring.traceOn _).trans hoff)] at ht
    have hlast : s.InRing t := by
      rw [ht]
      exact hring.trans (relay_inRing _ _ _ _)
    exact hlast

/-! ### RTY at the master end, rules R48 and R255 -/

theorem State.Noted.rdN {s t : State} {p : Nat} {l : List Nat} (h : s.Noted t p l) {a : Nat} (ha : a ∉ l) : t.rdN a = s.rdN a :=
  h.regs.rdN ha

/-- A re-sent block with its header taken. -/
def State.rtyHeaded (s : State) (p : Nat) (b : RingBlock) (k : LaneOk) : State := (s.eitherLane p k).1.inHeader p b.node k.hold k.alm

theorem rtyHeaded_noted (s : State) (p : Nat) (b : RingBlock) (k : LaneOk) :
    s.Noted (s.rtyHeaded p b k) p (eitherRegs p ++ [Reg.RNG_HOLD_CNT p]) :=
  ((eitherLane_writes s p k).noted p).trans (inHeader_noted _ _ _ _ _)

theorem rtyHeaded_pstate (s : State) (p : Nat) (b : RingBlock) (k : LaneOk) : (s.rtyHeaded p b k).pstate p = s.pstate p :=
  (rtyHeaded_noted s p b k).regs.pstate (by simp)

theorem rty_cyclic {s : State} {p : Nat} {k : LaneOk} (h1 : s.ringOn = true) (h2 : s.pstate p = psCyclic) (h3 : s.laneUp p .a = true)
    (ha : k.a = true) (b : RingBlock) (data : List (BitVec 8)) : s.rty p b data k = (s.rtyHeaded p b k).rtyIn p b data true := by
  unfold State.rty
  dsimp only
  rw [h1, eitherLane_good h3 ha, station_cyclic h2, if_pos h2]
  exact congrArg (fun u : State => u.rtyIn p b data true) (relay_idle (relays_cyclic ((rtyHeaded_pstate s p b k).trans h2)) _ _)

/-- The block is awaited no more, and it counts. -/
def State.rtyCounted (s : State) (p : Nat) (b : RingBlock) : State :=
  (s.setRp p { s.rp p with rq := (s.rp p).rq.filter (fun e => e != b) }).inc (Reg.RNG_IRT_CNT p)

theorem rp_rtyCounted (s : State) (p : Nat) (b : RingBlock) :
    (s.rtyCounted p b).rp p = { s.rp p with rq := (s.rp p).rq.filter (fun e => e != b) } :=
  ((inc_writes _ _).signals.rp p).trans (rp_setRp_self _ _ _)

theorem rtyIn_named {s : State} {p : Nat} {b : RingBlock} (hd : (s.rp p).done = false) (hq : (s.rp p).rq.contains b = true)
    (data : List (BitVec 8)) : s.rtyIn p b data true = (s.rtyCounted p b).placeRetry p b data := by
  unfold State.rtyIn
  dsimp only
  rw [if_neg (by rw [hq]; decide), if_neg (by decide), if_neg (by rw [hd]; decide)]
  rfl

/-- A block that is not awaited is ignored. -/
theorem rtyIn_other {s : State} {p : Nat} {b : RingBlock} (hq : (s.rp p).rq.contains b = false) (data : List (BitVec 8)) (good : Bool) :
    s.rtyIn p b data good = s := by
  unfold State.rtyIn
  dsimp only
  rw [hq]
  rfl

/-- The port's record with a block placed. -/
def RingPort.placed (x : RingPort) (b : RingBlock) : RingPort :=
  { x with
    failed := x.failed.filter (fun e => e != b)
    arrived := if x.arrived.contains (b.node, b.safe) then x.arrived else (b.node, b.safe) :: x.arrived }

theorem arrived_placed (x : RingPort) (b : RingBlock) : (b.node, b.safe) ∈ (x.placed b).arrived := by
  unfold RingPort.placed
  dsimp only
  split
  · next h => exact List.contains_iff_mem.mp h
  · exact List.mem_cons_self

theorem failed_placed (x : RingPort) (b : RingBlock) : b ∉ (x.placed b).failed := by simp [RingPort.placed]

theorem placeRetry_notes (s : State) (p : Nat) (b : RingBlock) (data : List (BitVec 8)) :
    ((s.rp p).placed b).Notes ((s.placeRetry p b data).rp p) ∧
      (b.safe = false → s.SameRegs (s.placeRetry p b data) storeRegs) := by
  have hself : (s.setRp p ((s.rp p).placed b)).rp p = (s.rp p).placed b := rp_setRp_self _ _ _
  rw [← hself]
  unfold State.placeRetry
  dsimp only
  split
  · next hs => exact ⟨(takeSafeIn_outcome _ p b.node (safePay data)).1, fun h => absurd (hs.symm.trans h) (by decide)⟩
  · have hstore := forEach_taken (p := p) (l := storeRegs)
      (f := fun (q : Nat × BitVec 8) (st : State) => st.storeCell (st.payAddr st.parity p b.node q.1) 1 q.2.toNat)
      (fun _ _ => storeCell_taken _ _ _ _ _) (resentBytes b.block data) (s.setRp p ((s.rp p).placed b))
    exact ⟨hstore.notes, fun _ => hstore.regs⟩

theorem rtyTaken_clause {s : State} {p : Nat} {b : RingBlock} {data : List (BitVec 8)} {k : LaneOk} (h1 : s.ringOn = true)
    (h2 : s.pstate p = psCyclic) (h3 : s.laneUp p .a = true) (ha : k.a = true) (hd : (s.rp p).done = false)
    (hq : (s.rp p).rq.contains b = true) {t : State} (ht : t = s.rty p b data k) :
    b ∉ (t.rp p).rq ∧ b ∉ (t.rp p).failed ∧ (b.node, b.safe) ∈ (t.rp p).arrived ∧
      (b.safe = false → t.rdN (Reg.RNG_IRT_CNT p) = min (s.rdN (Reg.RNG_IRT_CNT p) + 1) 0xFFFFFFFF) := by
  have hu := rtyHeaded_noted s p b k
  rw [rty_cyclic h1 h2 h3 ha, rtyIn_named (by rw [hu.notes]; exact hd) (by rw [hu.notes]; exact hq)] at ht
  obtain ⟨hnotes, hregs⟩ := placeRetry_notes ((s.rtyHeaded p b k).rtyCounted p b) p b data
  rw [← ht] at hnotes hregs
  refine ⟨?_, ?_, ?_, fun hs => ?_⟩
  · rw [hnotes]
    change b ∉ (((s.rtyHeaded p b k).rtyCounted p b).rp p).rq
    rw [rp_rtyCounted]
    simp
  · rw [hnotes]
    exact failed_placed _ _
  · rw [hnotes]
    exact arrived_placed _ _
  · rw [(hregs hs).rdN (notMem_storeRegs (Nat.le_add_right_of_le (by decide)))]
    refine (rdN_inc _ _).trans ?_
    rw [← hu.rdN (a := Reg.RNG_IRT_CNT p) (by simp)]
    rfl

theorem rtyIgnored_clause {s : State} {p : Nat} {b : RingBlock} {data : List (BitVec 8)} {k : LaneOk} (h1 : s.ringOn = true)
    (h2 : s.pstate p = psCyclic) (h3 : s.laneUp p .a = true) (ha : k.a = true) (hb : k.b = true) (hf : k.bFirst = false)
    (hh : k.hold = 0) (hal : k.alm = false) (hq : (s.rp p).rq.contains b = false) {t : State} (ht : t = s.rty p b data k) :
    t.rp p = s.rp p ∧ t = { s with ring := t.ring } := by
  have hquiet := inHeader_quiet s p b.node (alm := k.alm) (fun _ => hal)
  have hhead : s.rtyHeaded p b k = s.inHeader p b.node 0 k.alm := by
    unfold State.rtyHeaded
    rw [eitherLane_both h3 ha hb hf, hh]
  rw [rty_cyclic h1 h2 h3 ha, hhead, rtyIn_other (by rw [hquiet.1]; exact hq)] at ht
  rw [ht]
  exact hquiet

/-! ### ORT, rule R256 -/

/-- The blocks that ORT names and those that it cannot, counted. -/
def State.ortCounted (s : State) (p named rest : Nat) : State := (s.add (Reg.RNG_ORT_CNT p) named).add (Reg.RNG_ORT_FAIL_CNT p) rest

/-- The named blocks re-sent, with the condition where some are not. -/
def State.ortSent (s : State) (p : Nat) (named : List RingBlock) (short : Bool) : State :=
  let u := forEach (fun (b : RingBlock) st => st.resend p (if b.safe then 4 else 2) b.node 0xFE b.block) named s
  if short then u.event (ringPage p) 4 0 else u

theorem ortLaunch_eq {s : State} {p : Nat} {bad l named : List RingBlock} (h1 : s.ringOn = true) (h2 : s.pstate p = psCyclic)
    (h3 : s.outCycle = true) (hl : l = s.badOut p bad)
    (hn : named = (l.filter (fun b => s.canResend p b)).take (s.rcFld p (Reg.RNG_RTY p) 7 4)) :
    s.ortLaunch p bad = ((s.ortCounted p named.length (l.length - named.length)).ortSent p named (named.length < l.length)).retryTrace p
      named := by
  subst hn hl
  unfold State.ortLaunch
  rw [if_pos (by simp [h1, h2, h3])]
  unfold State.ortSent
  simp only [decide_eq_true_eq]
  rfl

theorem ortSent_noted (s : State) (p : Nat) (named : List RingBlock) (short : Bool) :
    s.Noted (s.ortSent p named short) p [Reg.PG_IRQ_RAW (ringPage p)] := by
  have hsend := forEach_noted (p := p) (l := []) (f := fun (b : RingBlock) (st : State) => st.resend p (if b.safe then 4 else 2) b.node 0xFE
    b.block) (fun _ _ => resend_noted _ _ _ _ _ _) named s
  unfold State.ortSent
  dsimp only
  split
  · exact hsend.trans ((event_signals _ _ _ _).noted p)
  · exact hsend.mono (by simp)

theorem ort_notMem_sent (p : Fin 4) : Reg.RNG_ORT_CNT p.val ∉ [Reg.PG_IRQ_RAW (ringPage p.val)] ++ traceRegs (0x50 + p.val) ∧
    Reg.RNG_ORT_FAIL_CNT p.val ∉ [Reg.PG_IRQ_RAW (ringPage p.val)] ++ traceRegs (0x50 + p.val) :=
  (by decide : ∀ p : Fin 4, Reg.RNG_ORT_CNT p.val ∉ [Reg.PG_IRQ_RAW (ringPage p.val)] ++ traceRegs (0x50 + p.val) ∧
    Reg.RNG_ORT_FAIL_CNT p.val ∉ [Reg.PG_IRQ_RAW (ringPage p.val)] ++ traceRegs (0x50 + p.val)) p

theorem ortLaunch_clause (s : State) (p : Fin 4) {named : List RingBlock} {rest : Nat} {short : Bool} {t : State}
    (ht : t = ((s.ortCounted p.val named.length rest).ortSent p.val named short).retryTrace p.val named) :
    t.rdN (Reg.RNG_ORT_CNT p.val) = min (s.rdN (Reg.RNG_ORT_CNT p.val) + named.length) 0xFFFFFFFF ∧
      t.rdN (Reg.RNG_ORT_FAIL_CNT p.val) = min (s.rdN (Reg.RNG_ORT_FAIL_CNT p.val) + rest) 0xFFFFFFFF ∧
      s.SameRegs t ([Reg.RNG_ORT_CNT p.val, Reg.RNG_ORT_FAIL_CNT p.val, Reg.PG_IRQ_RAW (ringPage p.val)] ++ traceRegs (0x50 + p.val)) ∧
      s.SameMemory t := by
  have hsent := (ortSent_noted (s.ortCounted p.val named.length rest) p.val named short).trans (retryTrace_noted _ p.val named)
  rw [← ht] at hsent
  have hcount : s.Writes (s.ortCounted p.val named.length rest) ([Reg.RNG_ORT_CNT p.val] ++ [Reg.RNG_ORT_FAIL_CNT p.val]) :=
    (add_writes _ _ _).trans (add_writes _ _ _)
  have hall := hcount.ports.trans hsent.ports
  refine ⟨?_, ?_, hall.1.mono (by simp), hall.memory⟩
  · rw [hsent.rdN (ort_notMem_sent p).1]
    exact (rdN_of_rd (rd_add_ne (by simp) _ _)).trans (rdN_add _ _ _)
  · rw [hsent.rdN (ort_notMem_sent p).2]
    refine (rdN_add _ _ _).trans ?_
    rw [rdN_of_rd (rd_add_ne (by simp) _ _)]

/-! ### A lost node -/

theorem nodeLost_due {s : State} {p n : Nat} (h1 : s.ringOn = true) (h2 : s.nodeEn p n = true) (h3 : s.lostDue p n = true) :
    s.nodeLost p n = s.setLost p n := by
  unfold State.nodeLost
  exact if_pos (by simp [h1, h2, h3])

/-- The node is LOST and counts, before its alarm. -/
def State.lostCounted (s : State) (p n : Nat) : State := (s.setBit (Reg.RNG_NODE_STAT p n) 8 true).inc (Reg.RNG_LOST_CNT p)

theorem lostCounted_writes (s : State) (p n : Nat) : s.Writes (s.lostCounted p n) [Reg.RNG_NODE_STAT p n, Reg.RNG_LOST_CNT p] :=
  (setBit_writes _ _ _ _).trans (inc_writes _ _)

theorem lost_ne (p : Fin 4) (n : Fin 64) : Reg.RNG_NODE_STAT p.val n.val ≠ Reg.RNG_LOST_CNT p.val ∧
    Reg.RNG_NODE_STAT p.val n.val ≠ Reg.PG_IRQ_RAW (ringPage p.val) ∧ Reg.RNG_LOST_CNT p.val ≠ Reg.PG_IRQ_RAW (ringPage p.val) :=
  (by decide : ∀ (p : Fin 4) (n : Fin 64), Reg.RNG_NODE_STAT p.val n.val ≠ Reg.RNG_LOST_CNT p.val ∧
    Reg.RNG_NODE_STAT p.val n.val ≠ Reg.PG_IRQ_RAW (ringPage p.val) ∧ Reg.RNG_LOST_CNT p.val ≠ Reg.PG_IRQ_RAW (ringPage p.val)) p n

theorem setLost_clause {s : State} {p : Fin 4} {n : Fin 64} (hc : s.clocked = true) {t : State}
    (ht : t = (s.lostCounted p.val n.val).alarm (ringPage p.val) 2 (w32 n.val)) :
    t.bit (Reg.RNG_NODE_STAT p.val n.val) 8 = true ∧ t.rdN (Reg.RNG_LOST_CNT p.val) = min (s.rdN (Reg.RNG_LOST_CNT p.val) + 1) 0xFFFFFFFF ∧
      s.Raises t [Reg.RNG_NODE_STAT p.val n.val, Reg.RNG_LOST_CNT p.val, Reg.PG_IRQ_RAW (ringPage p.val)]
        [⟨ringPage p.val, 2, true, w32 n.val, s.now⟩] := by
  obtain ⟨hstat, hirq, hcnt⟩ := lost_ne p n
  have hal := (alarm_signals (s.lostCounted p.val n.val) (ringPage p.val) 2 (w32 n.val)).1
  have htime := (by decide : ∀ (p : Fin 4) (n : Fin 64), Reg.QTZ_TIME_NS ∉ [Reg.RNG_NODE_STAT p.val n.val, Reg.RNG_LOST_CNT p.val] ∧
    Reg.QTZ_TIME_NS + 4 ∉ [Reg.RNG_NODE_STAT p.val n.val, Reg.RNG_LOST_CNT p.val]) p n
  have hraise := (lostCounted_writes s p.val n.val).alarm hc htime.1 htime.2 (ringPage p.val) 2 (w32 n.val)
  rw [← ht] at hal hraise
  refine ⟨?_, ?_, hraise⟩
  · rw [hal.bit (by simpa using hirq)]
    exact (bit_of_rd (rd_inc_ne hstat _) 8).trans (bit_setBit_self (by decide) _ _ _)
  · rw [hal.rdN (by simpa using hcnt)]
    refine (rdN_inc _ _).trans ?_
    rw [rdN_of_rd (rd_setBit_ne (Ne.symm hstat) _ _ _)]

end Sys2Proof.Machine
end

section
/-! SUPPORT. A port's share of the gather, rule R259 (O47). -/

namespace Sys2Proof.Machine

/-! ### The frame of a node's gather -/

/-- A step of a port's gather: only the registers of `l` differ among the registers, and whether the port has completed does not. -/
structure State.Gathers (s t : State) (p : Nat) (l : List Nat) : Prop where
  regs : s.SameRegs t l
  done : (t.rp p).done = (s.rp p).done

theorem State.Gathers.refl (s : State) (p : Nat) (l : List Nat) : s.Gathers s p l := ⟨fun _ _ => rfl, rfl⟩

theorem State.Gathers.trans {s t u : State} {p : Nat} {l : List Nat} (h : s.Gathers t p l) (k : t.Gathers u p l) : s.Gathers u p l :=
  ⟨(h.regs.trans k.regs).mono (by simp), k.done.trans h.done⟩

theorem State.Gathers.mono {s t : State} {p : Nat} {l m : List Nat} (h : s.Gathers t p l) (k : ∀ a ∈ l, a ∈ m) : s.Gathers t p m :=
  ⟨h.regs.mono k, h.done⟩

theorem State.Taken.gathers {s t : State} {p : Nat} {l : List Nat} (h : s.Taken t p l) : s.Gathers t p l := by
  refine ⟨h.regs, ?_⟩
  rw [h.notes]

theorem State.Signals.gathers {s t : State} {l : List Nat} (h : s.Signals t l) (p : Nat) : s.Gathers t p l := (h.taken p).gathers

theorem forEach_gathers {α : Type} {p : Nat} {l : List Nat} {f : α → State → State} (hf : ∀ x t, State.Gathers t (f x t) p l) (xs : List α) :
    ∀ s : State, s.Gathers (forEach f xs s) p l := by
  induction xs with
  | nil => exact fun s => .refl s p l
  | cons x xs ih => exact fun s => (hf x s).trans (ih _)

theorem forUpTo_gathers {p : Nat} {l : List Nat} {f : Nat → State → State} (hf : ∀ i t, State.Gathers t (f i t) p l) (n : Nat) (s : State) :
    s.Gathers (forUpTo f n s) p l := by
  induction n with
  | zero => exact .refl s p l
  | succ n ih => exact ih.trans (hf n _)

/-! ### Steps that show in no register of the port -/

theorem setCell_gathers (s : State) (a n v p : Nat) : s.Gathers (s.setCell a n v) p storeRegs := (setCell_taken s a n v p).gathers

theorem copyCell_gathers (s : State) (src dst len p : Nat) : s.Gathers (s.copyCell src dst len) p storeRegs :=
  (copyCell_taken s src dst len p).gathers.mono (by simp)

theorem markNode_gathers (s : State) (p n : Nat) (valid : Bool) : s.Gathers (s.markNode p n valid) p storeRegs := by
  unfold State.markNode
  dsimp only
  split
  · exact (setCell_gathers _ _ _ _ p).trans (forUpTo_gathers (fun _ _ => setCell_gathers _ _ _ _ p) _ _)
  · exact setCell_gathers _ _ _ _ p

theorem keepData_gathers (s : State) (p n : Nat) : s.Gathers (s.keepData p n) p storeRegs := by
  unfold State.keepData
  split
  · exact forUpTo_gathers (fun _ _ => copyCell_gathers _ _ _ _ p) _ _
  · exact copyCell_gathers _ _ _ _ p

theorem homeAxis_gathers (s : State) (a p : Nat) : s.Gathers (s.homeAxis a) p storeRegs := by
  unfold State.homeAxis
  dsimp only
  split
  · exact .refl s p _
  · split
    · exact (setCell_gathers _ _ _ _ p).trans (setCell_gathers _ _ _ _ p)
    · exact setCell_gathers _ _ _ _ p

/-- The axes with a position in this tick show in no register. -/
theorem withFbk_gathers (s : State) (x : Feedback) (p : Nat) : s.Gathers { s with fbk := x } p storeRegs := ⟨fun _ _ => rfl, rfl⟩

theorem diffAxis_gathers (s : State) (a p : Nat) : s.Gathers (s.diffAxis a) p storeRegs := by
  unfold State.diffAxis
  dsimp only
  split
  · exact .refl s p _
  · split
    · exact .refl s p _
    · split
      · exact (withFbk_gathers _ _ p).trans (setCell_gathers _ _ _ _ p)
      · exact (withFbk_gathers _ _ p).trans (setCell_gathers _ _ _ _ p)

/-! ### A node's gather -/

/-- The registers in which a node's gather may show. -/
abbrev gatherRegs (p n : Nat) : List Nat :=
  storeRegs ++ [Reg.RNG_NODE_STAT p n, Reg.RNG_MISS_CNT p, Reg.RNG_LOST_CNT p, Reg.PG_IRQ_RAW (ringPage p)]

theorem mem_gatherRegs_store {p n : Nat} : ∀ a ∈ storeRegs, a ∈ gatherRegs p n := fun _ => List.mem_append_left _

theorem stat_gathers {s t : State} {p n : Nat} {l : List Nat} (h : s.Signals t l)
    (hl : ∀ a ∈ l, a ∈ [Reg.RNG_NODE_STAT p n, Reg.RNG_MISS_CNT p, Reg.RNG_LOST_CNT p, Reg.PG_IRQ_RAW (ringPage p)]) :
    s.Gathers t p (gatherRegs p n) := (h.gathers p).mono fun a ha => List.mem_append_right _ (hl a ha)

/-- Runs of good frames are no part of whether the port has completed. -/
theorem setGood_gathers (s : State) (p n : Nat) (l : List (Nat × Nat)) :
    s.Gathers (s.setRp p { s.rp p with good := l }) p (gatherRegs p n) := by
  refine ⟨fun _ _ => rfl, ?_⟩
  rw [rp_setRp_self]

theorem safeMissing_gathers (s : State) (p n : Nat) : s.Gathers (s.safeMissing p n) p (gatherRegs p n) :=
  ((setCell_gathers s _ _ _ p).mono mem_gatherRegs_store).trans (stat_gathers (setBit_writes _ (Reg.RNG_NODE_STAT p n) 12 true).signals (by simp))

theorem setLost_gathers (s : State) (p n : Nat) : s.Gathers (s.setLost p n) p (gatherRegs p n) :=
  stat_gathers (((setBit_writes _ _ _ _).trans (inc_writes _ _)).signals.trans (alarm_signals _ _ _ _)) (by simp)

theorem frameMissing_gathers (s : State) (p n : Nat) : s.Gathers (s.frameMissing p n) p (gatherRegs p n) := by
  unfold State.frameMissing
  extract_lets run s1 was s2 s3
  have h1 : s.Gathers s1 p (gatherRegs p n) := ((keepData_gathers s p n).mono mem_gatherRegs_store).trans
    (stat_gathers ((setFld_writes _ (Reg.RNG_NODE_STAT p n) 7 0 run).trans (inc_writes _ (Reg.RNG_MISS_CNT p))).signals (by simp))
  have h2 : s1.Gathers s2 p (gatherRegs p n) := setGood_gathers _ _ _ _
  have h3 : s2.Gathers s3 p (gatherRegs p n) := by
    unfold s3
    split
    · exact setLost_gathers _ _ _
    · exact .refl _ _ _
  exact ((h1.trans h2).trans h3).trans ((markNode_gathers _ _ _ _).mono mem_gatherRegs_store)

theorem frameComplete_gathers (s : State) (p n : Nat) : s.Gathers (s.frameComplete p n) p (gatherRegs p n) := by
  unfold State.frameComplete
  dsimp only
  split
  · exact (setGood_gathers _ _ n _).trans ((markNode_gathers _ _ _ _).mono mem_gatherRegs_store)
  · exact ((setGood_gathers _ _ n _).trans (stat_gathers ((setBit_writes _ (Reg.RNG_NODE_STAT p n) 8 false).trans
      (setFld_writes _ (Reg.RNG_NODE_STAT p n) 7 0 0)).signals (by simp))).trans ((markNode_gathers _ _ _ _).mono mem_gatherRegs_store)

theorem gatherNode_gathers (s : State) (p n : Nat) (bad : List RingBlock) : s.Gathers (s.gatherNode p n bad) p (gatherRegs p n) := by
  have hsafe : ∀ b : Bool, s.Gathers (if b then s.safeMissing p n else s) p (gatherRegs p n) := fun b => by
    cases b
    · exact .refl _ _ _
    · exact safeMissing_gathers _ _ _
  have hhome := forEach_gathers (p := p) (l := storeRegs) (f := fun a (st : State) => st.homeAxis a) (fun _ _ => homeAxis_gathers _ _ _)
  have hdiff := forEach_gathers (p := p) (l := storeRegs) (f := fun a (st : State) => st.diffAxis a) (fun _ _ => diffAxis_gathers _ _ _)
  unfold State.gatherNode
  dsimp only
  split
  · exact (hsafe _).trans (frameMissing_gathers _ _ _)
  · exact (((hsafe _).trans ((hhome _ _).mono mem_gatherRegs_store)).trans (frameComplete_gathers _ _ _)).trans
      ((hdiff _ _).mono mem_gatherRegs_store)

/-- A node's gather leaves another node's status. -/
theorem nodeStat_notMem_gather {p : Fin 4} {n m : Nat} (hn : n < 64) (h : n ≠ m) : Reg.RNG_NODE_STAT p.val n ∉ gatherRegs p.val m := by
  have hrest := (by decide : ∀ (p : Fin 4) (n : Fin 64),
    Reg.RNG_NODE_STAT p.val n.val ∉ [Reg.RNG_MISS_CNT p.val, Reg.RNG_LOST_CNT p.val, Reg.PG_IRQ_RAW (ringPage p.val)]) p ⟨n, hn⟩
  have hne : Reg.RNG_NODE_STAT p.val n ≠ Reg.RNG_NODE_STAT p.val m := by
    simp only [Reg.RNG_NODE_STAT]
    omega
  refine notMem_storeRegs_append (Nat.le_add_right_of_le (Nat.le_add_right_of_le (by decide))) ?_
  rw [List.mem_cons, not_or]
  exact ⟨hne, hrest⟩

/-! ### A whole frame -/

/-- The node is in service and misses nothing. -/
def State.present (s : State) (p n : Nat) : Prop := s.bit (Reg.RNG_NODE_STAT p n) 8 = false ∧ s.fld (Reg.RNG_NODE_STAT p n) 7 0 = 0

theorem nodeStat_notMem_store (p n : Nat) : Reg.RNG_NODE_STAT p n ∉ storeRegs :=
  notMem_storeRegs (Nat.le_add_right_of_le (Nat.le_add_right_of_le (by decide)))

theorem frameComplete_present {s : State} {p n : Nat} (h : s.bit (Reg.RNG_NODE_STAT p n) 8 = false) : (s.frameComplete p n).present p n := by
  have hmark := fun (t : State) => (markNode_gathers t p n true).regs
  unfold State.frameComplete State.present
  dsimp only
  rw [if_neg (by simp [h]), (hmark _).bit (nodeStat_notMem_store p n), (hmark _).fld (nodeStat_notMem_store p n)]
  refine ⟨?_, fld_setFld (by decide) (by decide) _ _ _⟩
  rw [bit_setFld (by decide) (by decide), if_neg (by decide), bit_setBit_self (by decide)]

theorem gatherNode_whole (s : State) (p n : Nat) : s.gatherNode p n [] =
    forEach (fun a st => st.diffAxis a) (s.driveAxes p n) ((forEach (fun a st => st.homeAxis a) (s.driveAxes p n) s).frameComplete p n) := by
  unfold State.gatherNode
  simp

theorem gatherNode_present {s : State} {p n : Nat} (h : s.bit (Reg.RNG_NODE_STAT p n) 8 = false) : (s.gatherNode p n []).present p n := by
  have hhome := forEach_gathers (p := p) (l := storeRegs) (f := fun a (st : State) => st.homeAxis a) (fun _ _ => homeAxis_gathers _ _ _)
    (s.driveAxes p n) s
  have hdiff := forEach_gathers (p := p) (l := storeRegs) (f := fun a (st : State) => st.diffAxis a) (fun _ _ => diffAxis_gathers _ _ _)
    (s.driveAxes p n) ((forEach (fun a st => st.homeAxis a) (s.driveAxes p n) s).frameComplete p n)
  obtain ⟨hlost, hrun⟩ := frameComplete_present ((hhome.regs.bit (nodeStat_notMem_store p n) 8).trans h)
  rw [gatherNode_whole]
  exact ⟨(hdiff.regs.bit (nodeStat_notMem_store p n) 8).trans hlost, (hdiff.regs.fld (nodeStat_notMem_store p n) 7 0).trans hrun⟩

/-- Every node of a port whose frames all came whole is present, if it was not LOST. -/
theorem forEach_gatherNode_present {p : Fin 4} {n : Nat} (hn : n < 64) : ∀ (l : List Nat) {s : State}, n ∈ l →
    s.bit (Reg.RNG_NODE_STAT p.val n) 8 = false → (forEach (fun m st => st.gatherNode p.val m []) l s).present p.val n := by
  have hkeep : ∀ (m : Nat) (t : State), t.present p.val n → (t.gatherNode p.val m []).present p.val n := fun m t ht => by
    by_cases hm : n = m
    · exact hm ▸ gatherNode_present ht.1
    · have hg := (gatherNode_gathers t p.val m []).regs
      exact ⟨(hg.bit (nodeStat_notMem_gather hn hm) 8).trans ht.1, (hg.fld (nodeStat_notMem_gather hn hm) 7 0).trans ht.2⟩
  intro l
  induction l with
  | nil => exact fun hin => absurd hin List.not_mem_nil
  | cons m l ih =>
    intro s hin hlost
    by_cases hm : n = m
    · subst hm
      exact forEach_invariant hkeep l _ (gatherNode_present hlost)
    · exact ih ((List.mem_cons.mp hin).resolve_left hm)
        (((gatherNode_gathers s p.val m []).regs.bit (nodeStat_notMem_gather hn hm) 8).trans hlost)

/-! ### The port's share -/

/-- The port notes that it has completed. -/
def State.completed (s : State) (p : Nat) : State := s.setRp p { s.rp p with done := true }

theorem done_completed (s : State) (p : Nat) : ((s.completed p).rp p).done = true := by
  unfold State.completed
  rw [rp_setRp_self]

theorem ownGather_done (s : State) (p : Nat) : ((s.ownGather p).rp p).done = (s.rp p).done := by
  unfold State.ownGather
  dsimp only
  rw [rp_setRp_self]

theorem gatherDown_done (s : State) (p n : Nat) : ((s.gatherDown p n).rp p).done = (s.rp p).done := by
  have hsafe : ∀ b : Bool, s.Gathers (if b then s.safeMissing p n else s) p (gatherRegs p n) := fun b => by
    cases b
    · exact .refl _ _ _
    · exact safeMissing_gathers _ _ _
  unfold State.gatherDown
  dsimp only
  split
  · exact ((hsafe _).trans (frameMissing_gathers _ _ _)).done
  · exact (((hsafe _).trans ((keepData_gathers _ _ _).mono mem_gatherRegs_store)).trans
      ((markNode_gathers _ _ _ _).mono mem_gatherRegs_store)).done

theorem gatherIdle_done (s : State) (p : Nat) : ((s.gatherIdle p).rp p).done = true := by
  have hdone := done_completed s p
  unfold State.gatherIdle
  dsimp only
  rw [show s.setRp p { s.rp p with done := true } = s.completed p from rfl]
  split
  · rw [ownGather_done, rp_setRp_self]
    exact hdone
  · split
    · exact hdone
    · exact forEach_invariant (P := fun t => (t.rp p).done = true) (fun n t ht => (gatherDown_done t p n).trans ht) _ _ hdone

theorem slots_setRp {s : State} {p : Nat} {x : RingPort} (hx : x.cfg = (s.rp p).cfg) : (s.setRp p x).slots p = s.slots p := by
  unfold State.slots State.nodeKind
  simp only [nodeEn_setRp hx, nodeW_setRp hx]

theorem failedBlocks_completed (s : State) (p : Nat) : (s.completed p).failedBlocks p = s.failedBlocks p := by
  have hx : ({ s.rp p with done := true } : RingPort).cfg = (s.rp p).cfg := rfl
  unfold State.completed State.failedBlocks State.nodeSafe State.nodeInLen
  simp only [slots_setRp hx, nodeW_setRp hx, rp_setRp_self]

/-- The blocks that did not come, counted, with their condition. -/
def State.irtFailed (s : State) (p : Nat) (bad : List RingBlock) : State :=
  if bad = [] then s.add (Reg.RNG_IRT_FAIL_CNT p) bad.length else (s.add (Reg.RNG_IRT_FAIL_CNT p) bad.length).event (ringPage p) 4 0

theorem irtFailed_signals (s : State) (p : Nat) (bad : List RingBlock) :
    s.Signals (s.irtFailed p bad) [Reg.RNG_IRT_FAIL_CNT p, Reg.PG_IRQ_RAW (ringPage p)] := by
  unfold State.irtFailed
  split
  · exact (add_writes _ _ _).signals.mono (by simp)
  · exact (add_writes _ _ _).signals.trans (event_signals _ _ _ _)

/-- The nodes of a port in CYCLIC gathered. -/
def State.nodesGathered (s : State) (p : Nat) : State :=
  forEach (fun n st => st.gatherNode p n ((s.completed p).failedBlocks p)) ((s.completed p).slots p)
    ((s.completed p).irtFailed p ((s.completed p).failedBlocks p))

theorem nodesGathered_done (s : State) (p : Nat) : ((s.nodesGathered p).rp p).done = true := by
  refine forEach_invariant (P := fun t => (t.rp p).done = true) (fun n t ht => (gatherNode_gathers t p n _).done.trans ht) _ _ ?_
  rw [(irtFailed_signals _ _ _).rp p]
  exact done_completed s p

theorem nodesGathered_present {s : State} {p : Fin 4} (h : s.failedBlocks p.val = []) {n : Nat} (hn : n ∈ s.slots p.val)
    (hlost : s.bit (Reg.RNG_NODE_STAT p.val n) 8 = false) : (s.nodesGathered p.val).present p.val n := by
  have hlt : n < 64 := List.mem_range.mp (List.mem_filter.mp hn).1
  have hslot : n ∈ (s.completed p.val).slots p.val := by
    unfold State.completed
    rw [slots_setRp (s := s) (p := p.val) (by rfl)]
    exact hn
  unfold State.nodesGathered
  rw [failedBlocks_completed, h]
  refine forEach_gatherNode_present hlt _ hslot ?_
  rw [(irtFailed_signals _ _ _).1.bit ((by decide : ∀ (p : Fin 4) (n : Fin 64), Reg.RNG_NODE_STAT p.val n.val ∉
    [Reg.RNG_IRT_FAIL_CNT p.val, Reg.PG_IRQ_RAW (ringPage p.val)]) p ⟨n, hlt⟩)]
  exact hlost

section
variable {s : State} {p : Nat} (hc : s.clocked = true) (hd : (s.rp p).done = false) (hseal : s.qtz.sealed.testBit 0 = false)
include hc hd hseal

theorem portGather_idle (hs : s.inService p = false) (hr : s.phasesRun = true) : s.portGather p = s.gatherIdle p := by
  unfold State.portGather
  rw [if_neg (by simp [hc, hd, hseal]), hs, hr]
  rfl

theorem portGather_node (hs : s.inService p = true) (hst : s.pstate p = psNode) : s.portGather p = (s.completed p).ownGather p := by
  unfold State.portGather
  rw [if_neg (by simp [hc, hd, hseal]), hs, if_neg (by decide), if_pos hst]
  rfl

theorem portGather_cyclic (hs : s.inService p = true) (hst : s.pstate p = psCyclic) : s.portGather p = s.nodesGathered p := by
  unfold State.portGather
  rw [if_neg (by simp [hc, hd, hseal]), hs, if_neg (by decide), if_neg (by rw [hst]; decide)]
  rfl

end

theorem inService_cases {s : State} {p : Nat} (h : s.inService p = true) : s.pstate p = psCyclic ∨ s.pstate p = psNode := by
  simp only [State.inService, Bool.and_eq_true, Bool.or_eq_true, beq_iff_eq] at h
  exact h.2

theorem portGather_clause {s : State} {p : Fin 4} (h1 : s.ringOn = true) (h2 : s.inService p.val = true ∨ s.phasesRun = true)
    (h3 : (s.rp p.val).done = false) (h4 : s.qtz.sealed.testBit 0 = false) {t : State} (ht : t = s.portGather p.val) :
    (t.rp p.val).done = true ∧
      (s.pstate p.val = psCyclic → s.failedBlocks p.val = [] → ∀ n ∈ s.slots p.val, s.bit (Reg.RNG_NODE_STAT p.val n) 8 = false →
        t.present p.val n) := by
  have hc := ringOn_clocked h1
  cases hs : s.inService p.val
  case false =>
    rw [hs] at h2
    rw [portGather_idle hc h3 h4 hs (h2.resolve_left Bool.false_ne_true)] at ht
    refine ⟨ht ▸ gatherIdle_done s p.val, fun hcyc => absurd hs ?_⟩
    unfold State.inService
    rw [h1, hcyc]
    decide
  case true =>
    rcases inService_cases hs with hst | hst
    · rw [portGather_cyclic hc h3 h4 hs hst] at ht
      exact ⟨ht ▸ nodesGathered_done s p.val, fun _ hnone n hn hlost => ht ▸ nodesGathered_present hnone hn hlost⟩
    · rw [portGather_node hc h3 h4 hs hst] at ht
      refine ⟨?_, fun hcyc => absurd (hst.symm.trans hcyc) (by decide)⟩
      rw [ht, ownGather_done, done_completed]

end Sys2Proof.Machine
end

section
/-! SUPPORT. Cyclic and safety frames with their retries settled (O47). -/

namespace Sys2Proof.Machine

/-- An RQ at a node in service: its own blocks go out again, then the RQ is forwarded. -/
theorem rqFrame_node {s : State} {p : Nat} (h1 : s.ringOn = true) (h2 : s.pstate p = psNode) (l : List RingBlock) :
    (if s.ringOn then (s.rqIn p l).relay p 10 (s.lanesOn p) else s) =
      ((s.resendOwn p (s.ownBlocks p l)).retryTrace p (s.ownBlocks p l)).relay p 10 (s.lanesOn p) := by
  rw [if_pos h1, rqIn_node h1 h2]

theorem cycOut_clause {s : State} {p : Nat} {h : OutHeader} {pay : List (BitVec 8)} {okA okB : Nat} (h1 : s.ringOn = true)
    (h2 : s.pstate p = psNode) (h3 : pay.length ≤ 2032) (h4 : s.laneUp p .a = true)
    (h5 : okA % 2 ^ blockCount pay.length = 2 ^ blockCount pay.length - 1) {t : State} (ht : t = s.cycOut p h pay okA okB) :
    (t.rp p).echo = h.cyc.toNat ∧ (t.rp p).inbox = (List.range pay.length).zip pay ∧ (t.rp p).inMask = 2 ^ blockCount pay.length - 1 ∧
      (t.rp p).inCnt = blockCount pay.length ∧ s.SameMemory t := by
  obtain ⟨u, hu, heq⟩ := cycOut_whole (h := h) (okB := okB) h1 h2 h3 h4 h5
  obtain ⟨hecho, hbox, hmask, hcnt, hmem⟩ := takeOut_opened u p h _ _ _ (ht.trans heq)
  exact ⟨hecho, hbox, hmask, hcnt, hu.trans hmem⟩

/-- Settles O47: what a frame brings is counted and noted before it is stored, and a store leaves the port but for its notes. -/
theorem ringCyclic : Obligations.RingCyclic := by
  refine ⟨?_, ?_, ?_, ?_, ?_, ?_, ?_, ?_, ?_, ?_⟩
  · intro s p n h pay okA okB h1 h2 h3 h4 h5
    exact ⟨_, rfl, cycIn_clause h1 h2 h3 h4 h5 rfl rfl⟩
  · intro s p h pay okA okB h1 h2 h3 h4 h5
    exact ⟨_, rfl, cycOut_clause h1 h2 h3 h4 h5 rfl⟩
  · intro s p n h pay okA okB h1 h2 h3 h4 h5 hm
    exact ⟨_, rfl, safeIn_clause h1 h2 h3 h4 h5 hm rfl⟩
  · intro s p pay k i h1 h2 h3 ha hb hf hh hi hs hc
    exact ⟨_, rfl, safeOut_clause h1 h2 h3 ha hb hf hh hi hs hc rfl⟩
  · intro s p h1 h2 h3 h4
    exact ⟨_, rfl, rqLaunch_clause s p.val (rqLaunch_cyclic h1 h2 h3 h4)⟩
  · intro s p l h1 h2
    exact ⟨_, rfl, rqFrame_clause s p.val (rqFrame_node h1 h2 l)⟩
  · intro s p b data k h1 h2 h3 ha
    refine ⟨fun hd hq => ⟨_, rfl, rtyTaken_clause h1 h2 h3 ha hd hq rfl⟩, fun hq hb hf hh hal => ⟨_, rfl, ?_⟩⟩
    exact rtyIgnored_clause h1 h2 h3 ha hb hf hh hal hq rfl
  · intro s p bad l named h1 h2 h3 hl hn
    exact ⟨_, rfl, ortLaunch_clause s p (ortLaunch_eq h1 h2 h3 hl hn)⟩
  · intro s p h1 h2 h3 h4
    exact ⟨_, rfl, portGather_clause h1 h2 h3 h4 rfl⟩
  · intro s p n h1 h2 h3
    exact ⟨_, rfl, setLost_clause (ringOn_clocked h1) (nodeLost_due h1 h2 h3)⟩

end Sys2Proof.Machine
end

section
/-! SUPPORT. What a port receives by bulk, with its acknowledgements, and the alarm records of nodes (O48). -/

namespace Sys2Proof.Machine

/-! ### The pieces of a transfer from a node, rule R257 -/

/-- The registers in which a transfer from a node may show. -/
abbrev pieceRegs (p : Nat) : List Nat := storeRegs ++ [Reg.RNG_BULK_HEAD p]

/-- What a frame carries of a transfer is taken: only the registers of `pieceRegs` differ among the registers, and the port keeps what ring
management has told it and the acknowledgements that wait. -/
structure State.Pieces (s t : State) (p : Nat) : Prop where
  regs : s.SameRegs t (pieceRegs p)
  init : (t.rp p).init = (s.rp p).init
  acks : (t.rp p).bulkAcks = (s.rp p).bulkAcks

theorem State.Pieces.refl (s : State) (p : Nat) : s.Pieces s p := ⟨fun _ _ => rfl, rfl, rfl⟩

theorem State.Pieces.trans {s t u : State} {p : Nat} (h : s.Pieces t p) (k : t.Pieces u p) : s.Pieces u p :=
  ⟨(h.regs.trans k.regs).mono (fun _ ha => (List.mem_append.mp ha).elim id id), k.init.trans h.init, k.acks.trans h.acks⟩

theorem State.Taken.pieces {s t : State} {p : Nat} {l : List Nat} (h : s.Taken t p l) (hl : ∀ a ∈ l, a ∈ pieceRegs p) : s.Pieces t p := by
  refine ⟨h.regs.mono hl, ?_, ?_⟩
  · rw [h.notes]
  · rw [h.notes]

theorem setRp_pieces {s : State} {p : Nat} {x : RingPort} (hi : x.init = (s.rp p).init) (ha : x.bulkAcks = (s.rp p).bulkAcks) :
    s.Pieces (s.setRp p x) p := by
  refine ⟨fun _ _ => rfl, ?_, ?_⟩
  · rw [rp_setRp_self]; exact hi
  · rw [rp_setRp_self]; exact ha

theorem forEach_pieces {α : Type} {p : Nat} {f : α → State → State} (hf : ∀ x t, State.Pieces t (f x t) p) (xs : List α) :
    ∀ s : State, s.Pieces (forEach f xs s) p := by
  induction xs with
  | nil => exact fun s => .refl s p
  | cons x xs ih => exact fun s => (hf x s).trans (ih _)

theorem takePiece_pieces (s : State) (p ok : Nat) (data : List (BitVec 8)) (q : Nat × Nat) : s.Pieces (s.takePiece p ok data q) p := by
  unfold State.takePiece
  dsimp only
  split
  · exact .refl s p
  · exact (setRp_pieces (by rfl) (by rfl)).trans
      (forEach_pieces (fun _ _ => (storeCell_taken _ _ _ _ p).pieces fun _ => List.mem_append_left _) _ _)

theorem bulkEnd_pieces (s : State) (p status tries : Nat) : s.Pieces (s.bulkEnd p status tries) p := by
  unfold State.bulkEnd
  extract_lets s1 was
  have h1 : s.Pieces s1 p := (setCell_taken s _ _ _ p).pieces fun _ => List.mem_append_left _
  have h2 := ((setFld_writes s1 (Reg.RNG_BULK_HEAD p) 7 0 (s.fld (Reg.RNG_BULK_HEAD p) 7 0 + 1)).taken p).pieces (by simp)
  have hrp := (setFld_writes s1 (Reg.RNG_BULK_HEAD p) 7 0 (s.fld (Reg.RNG_BULK_HEAD p) 7 0 + 1)).signals.rp p
  refine (h1.trans h2).trans (setRp_pieces ?_ ?_)
  · rw [hrp]
  · rw [hrp]

theorem takePieces_pieces (s : State) (p ok : Nat) (f : BulkIn) : s.Pieces (s.takePieces p ok f) p := by
  have hall := forEach_pieces (p := p) (f := fun q (st : State) => st.takePiece p ok f.pay q) (fun _ _ => takePiece_pieces _ _ _ _ _)
    ((List.range f.pieces.length).zip f.pieces) s
  unfold State.takePieces
  dsimp only
  split
  · exact hall.trans (bulkEnd_pieces _ _ _ _)
  · exact hall

/-! ### A bulk frame, rules R240 and R241 -/

/-- The blocks of a frame that have come await their acknowledgement. -/
def State.bulkAwaited (s : State) (p : Nat) (e : Nat × Nat × Nat) : State := s.setRp p { s.rp p with bulkAcks := (s.rp p).bulkAcks ++ [e] }

theorem rp_bulkAwaited (s : State) (p : Nat) (e : Nat × Nat × Nat) :
    (s.bulkAwaited p e).rp p = { s.rp p with bulkAcks := (s.rp p).bulkAcks ++ [e] } := rp_setRp_self _ _ _

/-- A good bulk frame logged, its blocks awaiting their acknowledgement, and what ring management tells kept. -/
def State.bulkNoted (s : State) (p n : Nat) (l : Lane) (f : BulkIn) (h : RxHead) : State :=
  ((s.takeFrame p 7 l n f.pay.length h).bulkAwaited p (n, f.seq.toNat, h.ok.toNat % 2 ^ blockCount f.pay.length)).takeInit p f
    (h.ok.toNat % 2 ^ blockCount f.pay.length == 2 ^ blockCount f.pay.length - 1)

theorem bulkFrame_good {f : BulkIn} {h : RxHead} (hv : f.ver = 1) (ht : f.typ = 7) (hk : h.ok.getLsbD 0 = true) (s : State) (p n : Nat)
    (l : Lane) : s.bulkFrame p n l f h = if (s.bulkNoted p n l f h).bulkWith p n true then
      (s.bulkNoted p n l f h).takePieces p (h.ok.toNat % 2 ^ blockCount f.pay.length) f else s.bulkNoted p n l f h := by
  unfold State.bulkFrame
  rw [if_neg (by simp [hv, ht])]
  dsimp only
  rw [if_neg (by simp [hk])]
  rfl

/-- A frame that came whole holds its first block. -/
theorem firstBlock_of_whole {len : Nat} {ok : BitVec 16} (h : ok.toNat % 2 ^ blockCount len = 2 ^ blockCount len - 1) : ok.getLsbD 0 = true := by
  have h0 := congrArg (fun v => v.testBit 0) h
  rw [Nat.testBit_mod_two_pow, Nat.testBit_two_pow_sub_one, decide_eq_true (blockCount_pos len), Bool.true_and] at h0
  exact h0

theorem station_node {s : State} {p : Nat} (h : s.pstate p = psNode) : s.station p = true := by
  unfold State.station
  rw [h]
  rfl

theorem takeInit_whole {s : State} {p : Nat} {f : BulkIn} {i : NodeInit} (hi : f.init = some i) (hst : s.station p = true) :
    s.takeInit p f true = s.setRp p { s.rp p with init := some i, predict := none, refAt := none } := by
  unfold State.takeInit
  rw [hi, hst]
  rfl

theorem bulkNoted_outcome {s : State} {p : Fin 4} {n : Nat} {l : Lane} {f : BulkIn} {i : NodeInit} {h : RxHead} (hst : s.pstate p.val = psNode)
    (hi : f.init = some i) (hw : h.ok.toNat % 2 ^ blockCount f.pay.length = 2 ^ blockCount f.pay.length - 1) :
    ((s.bulkNoted p.val n l f h).rp p.val).init = some i ∧
      ((s.bulkNoted p.val n l f h).rp p.val).bulkAcks =
        (s.rp p.val).bulkAcks ++ [(n, f.seq.toNat, 2 ^ blockCount f.pay.length - 1)] ∧
      (s.takeFrame p.val 7 l n f.pay.length h).SameRegs (s.bulkNoted p.val n l f h) [] := by
  have hu := takeFrame_taken s p.val 7 l n f.pay.length h
  have hst' : ((s.takeFrame p.val 7 l n f.pay.length h).bulkAwaited p.val
      (n, f.seq.toNat, 2 ^ blockCount f.pay.length - 1)).station p.val = true := station_node (hu.pstate.trans hst)
  unfold State.bulkNoted
  rw [hw, beq_self_eq_true, takeInit_whole hi hst', rp_setRp_self]
  refine ⟨rfl, ?_, fun _ _ => rfl⟩
  rw [rp_bulkAwaited, hu.notes]

theorem bulkFrame_clause {s : State} {p : Fin 4} {n : Nat} {l : Lane} {f : BulkIn} {i : NodeInit} {h : RxHead} (hst : s.pstate p.val = psNode)
    (hv : f.ver = 1) (ht : f.typ = 7) (hi : f.init = some i)
    (hw : h.ok.toNat % 2 ^ blockCount f.pay.length = 2 ^ blockCount f.pay.length - 1)
    (hroom : (s.fld (Reg.RNG_RXLOG_HEAD p.val) 7 0 + 1) % 256 ≠ s.fld (Reg.RNG_RXLOG_TAIL p.val) 7 0) {t : State}
    (h0 : t = s.bulkFrame p.val n l f h) :
    (t.rp p.val).init = some i ∧
      (t.rp p.val).bulkAcks = (s.rp p.val).bulkAcks ++ [(n, f.seq.toNat, 2 ^ blockCount f.pay.length - 1)] ∧
      t.fld (Reg.RNG_RXLOG_HEAD p.val) 7 0 = (s.fld (Reg.RNG_RXLOG_HEAD p.val) 7 0 + 1) % 256 := by
  have hk := firstBlock_of_whole hw
  obtain ⟨hinit, hacks, hregs⟩ := bulkNoted_outcome (n := n) (l := l) hst hi hw
  have hpieces : (s.bulkNoted p.val n l f h).Pieces t p.val := by
    rw [h0, bulkFrame_good hv ht hk]
    split
    · exact takePieces_pieces _ _ _ _
    · exact .refl _ _
  refine ⟨hpieces.init.trans hinit, hpieces.acks.trans hacks, ?_⟩
  rw [hpieces.regs.fld (notMem_storeRegs_append (Nat.le_add_right_of_le (by decide)) (by simp)), hregs.fld List.not_mem_nil]
  exact takeFrame_head hk hroom _ _ _ _

theorem bulkFrame_other {f : BulkIn} (hf : f.ver ≠ 1 ∨ f.typ ≠ 7) (s : State) (p n : Nat) (l : Lane) (h : RxHead) :
    s.bulkFrame p n l f h = s.crcBad p 1 l := by
  unfold State.bulkFrame
  exact if_pos (by simpa using hf)

theorem bulkFrame_discarded {f : BulkIn} {h : RxHead} (hv : f.ver = 1) (ht : f.typ = 7) (hk : h.ok.getLsbD 0 = false) (s : State) (p n : Nat)
    (l : Lane) :
    s.bulkFrame p n l f h = s.crcBad p (blockCount f.pay.length - popTo h.ok.toNat (blockCount f.pay.length)) l := by
  unfold State.bulkFrame
  rw [if_neg (by simp [hv, ht])]
  dsimp only
  rw [hk, if_pos (by decide), takeFrame_discarded hk]

/-- Invalid blocks count on their lane. -/
theorem crcBad_clause (s : State) (p n : Nat) {t : State} (h : t = s.crcBad p n .a) :
    t.rdN (Reg.RNG_CRC_CNT_A p) = min (s.rdN (Reg.RNG_CRC_CNT_A p) + n) 0xFFFFFFFF ∧ s.Writes t [Reg.RNG_CRC_CNT_A p] := by
  subst h
  exact ⟨rdN_add _ _ _, crcBad_writes s p n .a⟩

/-! ### Acknowledgements, rule R241 -/

theorem acked_false_iff (b : BulkBlock) (acks : List (BitVec 16 × BitVec 16)) :
    (!b.acked acks) = true ↔ ∀ a ∈ acks, ¬ (a.1.toNat = b.seq ∧ a.2.toNat &&& b.mask = b.mask) := by
  simp [BulkBlock.acked]

/-- A transfer of which blocks are yet to be sent goes on. -/
theorem bulkAck_open {s : State} {p n : Nat} (hw : s.bulkWith p n false = true) (ho : (s.rp p).bulkNext < (s.bulkLen p + 255) / 256)
    (acks : List (BitVec 16 × BitVec 16)) :
    s.bulkAck p n acks = s.setRp p { s.rp p with bulkOut := (s.rp p).bulkOut.filter (fun b => !b.acked acks) } := by
  unfold State.bulkAck
  rw [if_pos hw]
  exact if_neg fun h => absurd h.2 (Nat.not_le.mpr ho)

theorem bulkAck_clause {s u : State} {p n : Nat} {l : Lane} {acks : List (BitVec 16 × BitVec 16)} {h : RxHead} (hk : h.ok.getLsbD 0 = true)
    (hu : u = s.takeFrame p 8 l n (4 * acks.length) h) (hw : u.bulkWith p n false = true)
    (ho : (s.rp p).bulkNext < (u.bulkLen p + 255) / 256) {t : State} (ht : t = s.bulkAckFrame p n l acks h) (b : BulkBlock) :
    b ∈ (t.rp p).bulkOut ↔ b ∈ (s.rp p).bulkOut ∧ ∀ a ∈ acks, ¬ (a.1.toNat = b.seq ∧ a.2.toNat &&& b.mask = b.mask) := by
  have hnotes : (s.rp p).Notes (u.rp p) := by
    rw [hu]
    exact (takeFrame_taken _ _ _ _ _ _ _).notes
  have hframe : s.bulkAckFrame p n l acks h = u.bulkAck p n acks := by
    rw [hu]
    exact if_pos hk
  rw [hframe, bulkAck_open hw (by rw [hnotes]; exact ho)] at ht
  rw [ht, rp_setRp_self]
  change b ∈ (u.rp p).bulkOut.filter (fun b => !b.acked acks) ↔ _
  rw [List.mem_filter, acked_false_iff, hnotes]

/-! ### The alarm record of a node, rules R258 and R394 -/

/-- The registers in which an entry of the alarm store may show. -/
abbrev almRegs : List Nat := storeRegs ++ [Reg.EVT_ALM_CNT, Reg.EVT_ALM_MERGE_CNT, Reg.EVT_STAT, Reg.PG_IRQ_RAW Page.EVT]

theorem State.SameRegs.again {s t u : State} {l : List Nat} (h : s.SameRegs t l) (k : t.SameRegs u l) : s.SameRegs u l :=
  (h.trans k).mono fun _ ha => (List.mem_append.mp ha).elim id id

theorem setCell_alm (s : State) (a n v : Nat) : s.SameRegs (s.setCell a n v) almRegs :=
  (setCell_taken s a n v 0).regs.mono fun _ => List.mem_append_left _

theorem almMirror_alm (s : State) (i : Nat) : s.SameRegs (s.almMirror i) almRegs := by
  unfold State.almMirror
  split <;> exact fun _ _ => rfl

theorem almStat_alm (s : State) : s.SameRegs s.almStat almRegs := by
  have hw := ((setFld_writes s Reg.EVT_STAT 26 16 s.almUsed).trans (setBit_writes _ Reg.EVT_STAT 0 (decide (768 ≤ s.almUsed)))).trans
    (setBit_writes _ Reg.EVT_STAT 1 (decide (1024 ≤ s.almUsed)))
  unfold State.almStat
  dsimp only
  split
  · exact (hw.1.trans (raiseLine_raises _ _ _).1).mono (by simp)
  · exact hw.1.mono (by simp)

theorem almMerge_alm (s : State) (i : Nat) (detail : Word) (last count : Nat) : s.SameRegs (s.almMerge i detail last count) almRegs :=
  ((((setCell_alm _ _ _ _).again (setCell_alm _ _ _ _)).again (setCell_alm _ _ _ _)).again ((inc_writes _ _).1.mono (by simp))).again
    (almMirror_alm _ _)

theorem almWrite_alm (s : State) (i id origin : Nat) (detail : Word) (first last count : Nat) :
    s.SameRegs (s.almWrite i id origin detail first last count) almRegs := by
  unfold State.almWrite
  extract_lets a seq was s1 s2 s3
  have h1 : s.SameRegs s1 almRegs := fun _ _ => rfl
  have h2 : s1.SameRegs s2 almRegs :=
    (((((((setCell_alm _ _ _ _).again (setCell_alm _ _ _ _)).again (setCell_alm _ _ _ _)).again (setCell_alm _ _ _ _)).again
      (setCell_alm _ _ _ _)).again (setCell_alm _ _ _ _)).again (setCell_alm _ _ _ _)).again (setCell_alm _ _ _ _)
  have h3 : s2.SameRegs s3 almRegs := (setCell_alm _ _ _ _).again ((clearCell_taken _ _ _ 0).regs.mono (by simp))
  have hcount : s3.SameRegs ((s3.inc Reg.EVT_ALM_CNT).raiseLine Page.EVT 0) almRegs :=
    ((inc_writes _ _).1.trans (raiseLine_raises _ _ _).1).mono (by simp)
  exact ((((h1.again h2).again h3).again hcount).again (almStat_alm _)).again (almMirror_alm _ _)

theorem nodeWrite_alm (s : State) (i key : Nat) (rec : List (BitVec 8)) (hold : Nat) : s.SameRegs (s.nodeWrite i key rec hold) almRegs :=
  almWrite_alm s i _ _ _ _ _ _

theorem nodeAlarm_alm (s : State) (port node : Nat) (rec : List (BitVec 8)) : s.SameRegs (s.nodeAlarm port node rec) almRegs := by
  unfold State.nodeAlarm
  dsimp only
  split
  · exact almMerge_alm _ _ _ _ _
  · split
    · exact fun _ _ => rfl
    · exact nodeWrite_alm _ _ _ _ _

/-! ### TRUMP, rule R258 -/

/-- The granted node's record taken and counted. -/
def State.trumpCounted (s : State) (p n : Nat) (data : List (BitVec 8)) : State := (s.nodeAlarm p n data).inc (Reg.RNG_TRUMP_CNT p)

theorem rdN_trumpCounted (s : State) (p : Fin 4) (n : Nat) (data : List (BitVec 8)) :
    (s.trumpCounted p.val n data).rdN (Reg.RNG_TRUMP_CNT p.val) = min (s.rdN (Reg.RNG_TRUMP_CNT p.val) + 1) 0xFFFFFFFF := by
  have hne : Reg.RNG_TRUMP_CNT p.val ∉ almRegs := (by decide : ∀ p : Fin 4, Reg.RNG_TRUMP_CNT p.val ∉ almRegs) p
  unfold State.trumpCounted
  rw [rdN_inc, (nodeAlarm_alm _ _ _ _).rdN hne]

theorem trump_granted {s : State} {p n : Nat} {data : List (BitVec 8)} (hg : (s.rp p).grant = some n) (hd : data.length = 64) :
    s.trump p n data = ((s.trumpCounted p n data).event (ringPage p) 6 0).setRp p { s.rp p with grant := none } := by
  unfold State.trump
  exact if_pos (by simp [hg, hd])

theorem trumpFrame_clause {s : State} {p : Fin 4} {n : Nat} {l : Lane} {data : List (BitVec 8)} {h : RxHead} (hk : h.ok.getLsbD 0 = true)
    (hg : (s.rp p.val).grant = some n) (hd : data.length = 64) {t : State} (ht : t = s.trumpFrame p.val n l data h) :
    (t.rp p.val).grant = none ∧ t.rdN (Reg.RNG_TRUMP_CNT p.val) = min (s.rdN (Reg.RNG_TRUMP_CNT p.val) + 1) 0xFFFFFFFF := by
  have hu := takeFrame_taken s p.val 6 l n data.length h
  have hframe : s.trumpFrame p.val n l data h = (s.takeFrame p.val 6 l n data.length h).trump p.val n data := if_pos hk
  have hev := (event_signals ((s.takeFrame p.val 6 l n data.length h).trumpCounted p.val n data) (ringPage p.val) 6 0).1
  have hne : Reg.RNG_TRUMP_CNT p.val ∉ storeRegs ++ rxRegs p.val :=
    (by decide : ∀ p : Fin 4, Reg.RNG_TRUMP_CNT p.val ∉ storeRegs ++ rxRegs p.val) p
  rw [hframe, trump_granted (by rw [hu.notes]; exact hg) hd] at ht
  have hcnt : t.rdN (Reg.RNG_TRUMP_CNT p.val) =
      ((s.takeFrame p.val 6 l n data.length h).trumpCounted p.val n data).rdN (Reg.RNG_TRUMP_CNT p.val) := by
    rw [ht, rdN_of_rd (rd_setRp _ _ _ _)]
    exact hev.rdN (by simp [irqRaw_ring])
  refine ⟨by rw [ht, rp_setRp_self], ?_⟩
  rw [hcnt, rdN_trumpCounted, hu.regs.rdN hne]

end Sys2Proof.Machine
end

section
/-! SUPPORT. The bulk window of a time master (O48). -/

namespace Sys2Proof.Machine

/-! ### Lists that are cut and numbered -/

theorem flatten_cutRuns {α : Type} {n : Nat} (hn : 0 < n) : ∀ (fuel : Nat) (l : List α), l.length ≤ fuel → (cutRuns n fuel l).flatten = l := by
  intro fuel
  induction fuel with
  | zero =>
    intro l h
    rw [List.length_eq_zero_iff.mp (Nat.le_zero.mp h)]
    rfl
  | succ fuel ih =>
    intro l h
    cases l with
    | nil => rfl
    | cons x xs =>
      have hlen : ((x :: xs).drop n).length ≤ fuel := by
        rw [List.length_drop]
        omega
      change ((x :: xs).take n :: cutRuns n fuel ((x :: xs).drop n)).flatten = x :: xs
      rw [List.flatten_cons, ih _ hlen, List.take_append_drop]

/-- What each entry of a numbered list gives does not depend on its number. -/
theorem map_numbered {α β : Type} (f : α → β) (l : List α) : ((List.range l.length).zip l).map (fun q => f q.2) = l.map f := by
  rw [show (fun q : Nat × α => f q.2) = f ∘ Prod.snd from rfl, ← List.map_map, List.map_snd_zip (by simp)]

theorem flatMap_numbered {α β : Type} (f : α → List β) (l : List α) : ((List.range l.length).zip l).flatMap (fun q => f q.2) = l.flatMap f := by
  rw [List.flatMap_def, map_numbered, List.flatMap_def]

/-- The frames of the master end carry each block of the window once. -/
theorem flatMap_masterRuns {β : Type} (on : Nat) (out : List (Nat × Nat)) (f : Nat × Nat → β) :
    (masterRuns on out).flatMap (fun r => r.2.map f) = out.map f := by
  unfold masterRuns
  dsimp only
  rw [List.flatMap_map, flatMap_numbered (fun l : List (Nat × Nat) => l.map f), ← List.map_flatten.trans List.flatMap_def.symm,
    flatten_cutRuns (by decide) _ _ (Nat.le_refl _)]

/-! ### The blocks of a window, rule R257 -/

/-- The blocks that the frames of a window carry, each with its frame's SEQ. -/
def windowBlocks (seq : Nat) (size : Nat → Nat) (runs : List (Nat × List (Nat × Nat))) : List BulkBlock :=
  ((List.range runs.length).zip runs).flatMap (fun r => ((List.range r.2.2.length).zip r.2.2).map (fun b =>
    (⟨b.2.1, (seq + r.1) % 65535, spanMask (256 * b.1) (256 * b.1 + size b.2.1 - 1), b.2.2⟩ : BulkBlock)))

/-- Each block has been sent as often as the window says. -/
theorem tries_windowBlocks (seq : Nat) (size : Nat → Nat) (runs : List (Nat × List (Nat × Nat))) :
    (windowBlocks seq size runs).map BulkBlock.tries = runs.flatMap (fun r => r.2.map Prod.snd) := by
  unfold windowBlocks
  rw [List.map_flatMap]
  simp only [List.map_map]
  refine Eq.trans ?_ (flatMap_numbered (fun r : Nat × List (Nat × Nat) => r.2.map Prod.snd) runs)
  exact congrArg (fun g => List.flatMap g _) (funext fun r => map_numbered Prod.snd r.2.2)

/-- The port's record with a window's blocks on their way. -/
def RingPort.bulkSent (x : RingPort) (size : Nat → Nat) (runs : List (Nat × List (Nat × Nat))) : RingPort :=
  { x with bulkOut := x.bulkOut ++ windowBlocks x.bulkSeq size runs, bulkSeq := (x.bulkSeq + runs.length) % 65535 }

theorem sendFrom_noted {s : State} (h : s.integ.ue = []) (p a : Nat) (f : RingFrame) : s.Noted (s.sendFrom p a f) p [] := by
  unfold State.sendFrom State.ueRead
  rw [h]
  exact send_noted _ _ _

theorem sendBulk_noted {s : State} (h : s.integ.ue = []) (p : Nat) (runs : List (Nat × List (Nat × Nat))) :
    (s.setRp p ((s.rp p).bulkSent (fun i => min 256 (s.bulkLen p - 256 * i)) runs)).Noted (s.sendBulk p runs) p [] := by
  unfold State.sendBulk
  refine forEach_invariant
    (P := fun t => (s.setRp p ((s.rp p).bulkSent (fun i => min 256 (s.bulkLen p - 256 * i)) runs)).Noted t p [])
    (fun r t ht => ht.trans (sendFrom_noted ?_ _ _ _)) _ _ (.refl _ _)
  rw [ht.ports.integ]
  exact h

/-! ### A share of the window -/

/-- The port's record with a window's blocks taken from its transfer. -/
def RingPort.bulkTaken (x : RingPort) (fresh room : Nat) : RingPort := { x with bulkNext := x.bulkNext + fresh, bulkOut := x.bulkOut.drop room }

/-- The blocks of a transfer that a window sends for the first time. -/
def freshBlocks (next fresh : Nat) : List (Nat × Nat) := (List.range fresh).map (fun i => (next + i, 1))

theorem tries_freshBlocks (next fresh : Nat) : (freshBlocks next fresh).map Prod.snd = List.replicate fresh 1 := by
  simp [freshBlocks, List.eq_replicate_iff]

/-- A window in which nothing awaits its acknowledgement: blocks of the transfer that have not been sent. -/
theorem bulkShare_fresh {s : State} {p : Nat} (h1 : s.bulkHas p = true)
    (h2 : 64 ≤ s.bulkNode p ∨ s.bit (Reg.RNG_NODE_STAT p (s.bulkNode p)) 8 = false) (h3 : s.bulkFrom p = false) (h4 : (s.rp p).bulkOut = [])
    (room : Nat) (lay : List (Nat × Nat) → List (Nat × List (Nat × Nat))) {fresh : Nat}
    (hf : fresh = min room ((s.bulkLen p + 255) / 256 - (s.rp p).bulkNext)) :
    s.bulkShare p room lay =
      ((s.setRp p ((s.rp p).bulkTaken fresh room)).sendBulk p (lay (freshBlocks (s.rp p).bulkNext fresh))).add (Reg.RNG_BULK_RTY_CNT p) 0 := by
  have hlost : (decide (s.bulkNode p < 64) && s.pstate p == psCyclic && s.bit (Reg.RNG_NODE_STAT p (s.bulkNode p)) 8) = false := by
    rcases h2 with h | h
    · rw [decide_eq_false (Nat.not_lt.mpr h), Bool.false_and, Bool.false_and]
    · rw [h, Bool.and_false]
  have hold : (s.rp p).bulkOut.any (fun b => decide (8 ≤ b.tries)) = false := by rw [h4]; rfl
  have hagain : ((s.rp p).bulkOut.take room).map (fun b => (b.idx, b.tries + 1)) = [] := by rw [h4, List.take_nil, List.map_nil]
  unfold State.bulkShare
  dsimp only
  rw [if_neg (by rw [h1]; decide), if_neg (by rw [hlost]; decide), if_neg (by rw [h3]; decide), if_neg (by rw [hold]; decide), hagain,
    List.nil_append, List.length_nil, Nat.sub_zero, ← hf]
  rfl

theorem add_zero_regs (s : State) (a : Nat) : s.SameRegs (s.add a 0) [] := by
  intro b _
  unfold State.add State.wrN
  rw [rd_wr]
  split
  · next h =>
    have hlt : (s.rd b).toNat < 2 ^ 32 := (s.rd b).isLt
    rw [← h]
    apply BitVec.eq_of_toNat_eq
    unfold State.rdN
    rw [BitVec.toNat_ofNat]
    omega
  · rfl

/-- A share of fresh blocks: they are on their way, each sent once, and nothing else shows. -/
theorem freshShare_outcome {s : State} {p room fresh on : Nat} (h1 : s.integ.ue = []) (h2 : (s.rp p).bulkOut = []) {t : State}
    (ht : t = ((s.setRp p ((s.rp p).bulkTaken fresh room)).sendBulk p (masterRuns on (freshBlocks (s.rp p).bulkNext fresh))).add
      (Reg.RNG_BULK_RTY_CNT p) 0) :
    (t.rp p).bulkNext = (s.rp p).bulkNext + fresh ∧ (t.rp p).bulkOut.map BulkBlock.tries = List.replicate fresh 1 ∧ s.SameRegs t [] ∧
      s.SameMemory t := by
  have hsent := sendBulk_noted (s := s.setRp p ((s.rp p).bulkTaken fresh room)) h1 p (masterRuns on (freshBlocks (s.rp p).bulkNext fresh))
  have hadd := add_writes ((s.setRp p ((s.rp p).bulkTaken fresh room)).sendBulk p (masterRuns on (freshBlocks (s.rp p).bulkNext fresh)))
    (Reg.RNG_BULK_RTY_CNT p) 0
  have hzero := add_zero_regs ((s.setRp p ((s.rp p).bulkTaken fresh room)).sendBulk p (masterRuns on (freshBlocks (s.rp p).bulkNext fresh)))
    (Reg.RNG_BULK_RTY_CNT p)
  rw [← ht] at hadd hzero
  have hnotes := hsent.notes
  rw [← hadd.signals.rp p, rp_setRp_self, rp_setRp_self] at hnotes
  refine ⟨?_, ?_, ((setRp_ports _ _ _).1.trans (setRp_ports _ _ _).1).trans (hsent.regs.trans hzero),
    (((setRp_ports _ _ _).memory.trans (setRp_ports _ _ _).memory).trans hsent.ports.memory).trans hadd.ports.memory⟩
  · rw [hnotes]
    rfl
  · rw [hnotes]
    change (((s.rp p).bulkOut.drop room) ++ windowBlocks _ _ _).map BulkBlock.tries = _
    rw [h2, List.drop_nil, List.nil_append, tries_windowBlocks, flatMap_masterRuns]
    exact tries_freshBlocks _ _

/-! ### The window of a time master -/

theorem sendAcks_noted (s : State) (p lanes : Nat) : (s.setRp p { s.rp p with bulkAcks := [] }).Noted (s.sendAcks p lanes) p [] :=
  forEach_noted (fun _ _ => send_noted _ _ _) _ _

theorem sendAcks_inRing (s : State) (p lanes : Nat) : s.InRing (s.sendAcks p lanes) :=
  (setRp_inRing _ _ _).trans (forEach_inRing (fun _ _ => send_inRing _ _ _) _ _)

/-- The transfer that a port serves is named by its registers, its configuration in force and cell memory. -/
theorem bulkAt_of_inRing {s t : State} {p : Nat} (h : s.InRing t) (hc : (t.rp p).cfg = (s.rp p).cfg) : t.bulkAt p = s.bulkAt p := by
  have hrd : ∀ a, t.rd a = s.rd a := fun a => by
    rw [h]
    rfl
  unfold State.bulkAt
  rw [rcf_of_same (fld_of_rd (hrd _) 3 0) (hrd _) hc, fld_of_rd (hrd _)]

theorem cell32_of_inRing {s t : State} (h : s.InRing t) (a : Nat) : t.cell32 a = s.cell32 a := by
  rw [h]
  rfl

/-- The acknowledgements sent leave the transfer that the port serves. -/
structure State.SameTransfer (s t : State) (p : Nat) : Prop where
  has : t.bulkHas p = s.bulkHas p
  node : t.bulkNode p = s.bulkNode p
  from_ : t.bulkFrom p = s.bulkFrom p
  len : t.bulkLen p = s.bulkLen p
  lost : ∀ n, t.bit (Reg.RNG_NODE_STAT p n) 8 = s.bit (Reg.RNG_NODE_STAT p n) 8

theorem sendAcks_transfer (s : State) (p lanes : Nat) : s.SameTransfer (s.sendAcks p lanes) p := by
  have h := sendAcks_inRing s p lanes
  have hrd : ∀ a, (s.sendAcks p lanes).rd a = s.rd a := fun a => by
    rw [h]
    rfl
  have hat := bulkAt_of_inRing (p := p) h (by rw [(sendAcks_noted s p lanes).notes, rp_setRp_self])
  refine ⟨?_, ?_, ?_, ?_, fun n => bit_of_rd (hrd _) 8⟩
  · unfold State.bulkHas
    rw [fld_of_rd (hrd _), fld_of_rd (hrd _)]
  · unfold State.bulkNode
    rw [hat, cell32_of_inRing h]
  · unfold State.bulkFrom
    rw [hat, cell32_of_inRing h]
  · unfold State.bulkLen
    rw [hat, cell32_of_inRing h]

theorem rp_sendAcks (s : State) (p lanes : Nat) :
    ((s.sendAcks p lanes).rp p).bulkNext = (s.rp p).bulkNext ∧ ((s.sendAcks p lanes).rp p).bulkOut = (s.rp p).bulkOut := by
  rw [(sendAcks_noted s p lanes).notes, rp_setRp_self]
  exact ⟨rfl, rfl⟩

theorem bulkWindow_cyclic {s : State} {p : Nat} (h1 : s.ringOn = true) (h2 : s.pstate p = psCyclic) (room : Nat) :
    s.bulkWindow p room = (s.sendAcks p (s.lanesOn p)).bulkShare p room (masterRuns (s.lanesOn p)) := by
  unfold State.bulkWindow
  rw [if_neg (by rw [h1]; decide), if_pos h2]

theorem bulkWindow_clause {s : State} {p room : Nat} (h1 : s.ringOn = true) (h2 : s.pstate p = psCyclic) (h3 : s.bulkHas p = true)
    (h4 : s.bulkFrom p = false) (h5 : 64 ≤ s.bulkNode p ∨ s.bit (Reg.RNG_NODE_STAT p (s.bulkNode p)) 8 = false)
    (h6 : (s.rp p).bulkOut = []) (h7 : s.integ.ue = []) (h8 : (s.rp p).bulkNext ≤ (s.bulkLen p + 255) / 256) {t : State}
    (ht : t = s.bulkWindow p room) :
    (t.rp p).bulkNext = min ((s.rp p).bulkNext + room) ((s.bulkLen p + 255) / 256) ∧
      (t.rp p).bulkOut.length = (t.rp p).bulkNext - (s.rp p).bulkNext ∧ (∀ b ∈ (t.rp p).bulkOut, b.tries = 1) ∧ s.SameRegs t [] ∧
      s.SameMemory t := by
  have hsame := sendAcks_transfer s p (s.lanesOn p)
  have hring := sendAcks_inRing s p (s.lanesOn p)
  obtain ⟨hnext, hout⟩ := rp_sendAcks s p (s.lanesOn p)
  have hue : (s.sendAcks p (s.lanesOn p)).integ.ue = [] := by
    rw [hring]
    exact h7
  have hshare := bulkShare_fresh (s := s.sendAcks p (s.lanesOn p)) (p := p) (hsame.has.trans h3) (by rw [hsame.node, hsame.lost]; exact h5)
    (hsame.from_.trans h4) (hout.trans h6) room (masterRuns (s.lanesOn p)) rfl
  obtain ⟨hn, htries, hregs, hmem⟩ := freshShare_outcome hue (hout.trans h6) (ht.trans ((bulkWindow_cyclic h1 h2 room).trans hshare))
  rw [hnext, hsame.len] at hn htries
  have hlen : (t.rp p).bulkOut.length = min room ((s.bulkLen p + 255) / 256 - (s.rp p).bulkNext) := by
    have := congrArg List.length htries
    rwa [List.length_map, List.length_replicate] at this
  refine ⟨?_, ?_, fun b hb => ?_, ?_, ?_⟩
  · rw [hn]
    omega
  · rw [hlen, hn]
    omega
  · have : b.tries ∈ (t.rp p).bulkOut.map BulkBlock.tries := List.mem_map_of_mem hb
    rw [htries] at this
    exact List.eq_of_mem_replicate this
  · exact (show s.SameRegs (s.sendAcks p (s.lanesOn p)) [] from
      ((setRp_ports _ _ _).1.trans (sendAcks_noted s p (s.lanesOn p)).regs)).trans hregs
  · exact ((setRp_ports s p _).memory.trans (sendAcks_noted s p (s.lanesOn p)).ports.memory).trans hmem

/-! ### The obligation -/

/-- Settles O48: a frame taken leaves the port but for its notes, and a window's frames carry each of its blocks once. -/
theorem ringBulkAndSoftware : Obligations.RingBulkAndSoftware := by
  refine ⟨?_, ?_, ?_, ?_, ?_, ?_⟩
  · intro s p n l f i h h1 h2 h3 hv ht hi hw hroom
    exact ⟨_, rfl, bulkFrame_clause h3 hv ht hi hw hroom (onLane_eq h1 h2)⟩
  · intro s p n f h h1 h2
    refine ⟨fun hf => ⟨_, rfl, ?_⟩, fun hv ht hk => ⟨_, rfl, ?_⟩⟩
    · exact crcBad_clause s p.val 1 ((onLane_eq h1 h2).trans (bulkFrame_other hf s p.val n.val .a h))
    · exact crcBad_clause s p.val _ ((onLane_eq h1 h2).trans (bulkFrame_discarded hv ht hk s p.val n.val .a))
  · intro s u p n l acks h h1 h2 hk hu hw ho
    exact ⟨_, rfl, bulkAck_clause hk hu hw ho (onLane_eq h1 h2)⟩
  · intro s p room h1 h2 h3 h4 h5 h6 h7 h8
    exact ⟨_, rfl, bulkWindow_clause h1 h2 h3 h4 h5 h6 h7 h8 rfl⟩
  · intro s p n l data h h1 h2 hk hg hd
    exact ⟨_, rfl, trumpFrame_clause hk hg hd (onLane_eq h1 h2)⟩
  · intro s ag p hw
    refine ⟨fun b => completes_write hw rfl ⟨?_, ?_, rfl⟩, fun v => completes_write hw rfl ⟨?_, setFld_writes _ _ _ _ _⟩⟩
    · rw [rp_setRp_self]
    · rw [rp_setRp_self]
    · exact fld_setFld (by decide) (by decide) _ _ _

end Sys2Proof.Machine
end

section
/-! SUPPORT. What the operations on a ring port's lanes leave, and a lane's failure (O49). -/

namespace Sys2Proof.Machine

/-! ### The frame of an operation on a port's lanes -/

/-- Nothing differs but the registers of `l`, the ports' records and the event unit with its messages, and no raising is lost. -/
structure State.LaneFrame (s t : State) (l : List Nat) : Prop where
  ports : s.PortsFrame t l
  raisings : s.evt.raisings ⊆ t.evt.raisings

theorem State.LaneFrame.regs {s t : State} {l : List Nat} (h : s.LaneFrame t l) : s.SameRegs t l := h.ports.1

theorem State.LaneFrame.refl (s : State) (l : List Nat) : s.LaneFrame s l := ⟨.refl s l, List.Subset.refl _⟩

theorem State.LaneFrame.trans {s t u : State} {l m : List Nat} (h : s.LaneFrame t l) (k : t.LaneFrame u m) : s.LaneFrame u (l ++ m) :=
  ⟨h.ports.trans k.ports, List.Subset.trans h.raisings k.raisings⟩

theorem State.LaneFrame.mono {s t : State} {l m : List Nat} (h : s.LaneFrame t l) (k : ∀ a ∈ l, a ∈ m) : s.LaneFrame t m :=
  ⟨h.ports.mono k, h.raisings⟩

theorem State.Raises.lanes {s t : State} {l : List Nat} {r : List Raising} (h : s.Raises t l r) : s.LaneFrame t l := by
  refine ⟨h.signals.ports, ?_⟩
  rw [h.2]
  exact List.subset_append_left _ _

theorem State.Writes.lanes {s t : State} {l : List Nat} (h : s.Writes t l) : s.LaneFrame t l := h.raises.lanes

theorem setRp_lanes (s : State) (p : Nat) (x : RingPort) : s.LaneFrame (s.setRp p x) [] := ⟨setRp_ports s p x, List.Subset.refl _⟩

theorem report_lanes (s : State) (p b : Nat) (al : Bool) (d : Word) : s.LaneFrame (s.report p b al d) [] := by
  refine ⟨(report_signals s p b al d).ports, ?_⟩
  unfold State.report
  split
  · exact List.subset_append_left _ _
  · exact List.Subset.refl _

theorem event_lanes (s : State) (p b : Nat) (d : Word) : s.LaneFrame (s.event p b d) [Reg.PG_IRQ_RAW p] :=
  (raiseLine_raises s p b).lanes.trans (report_lanes _ p b false d)

theorem setPstate_lanes (s : State) (p st : Nat) : s.LaneFrame (s.setPstate p st) [Reg.RNG_STAT p, Reg.PG_IRQ_RAW (ringPage p)] := by
  have hw := ((setFld_writes s (Reg.RNG_STAT p) 3 0 st).trans (setBit_writes _ (Reg.RNG_STAT p) 8 (st == psForeign))).trans
    (setBit_writes _ (Reg.RNG_STAT p) 6 (st == psInit || st == psCyclic))
  unfold State.setPstate
  dsimp only
  split
  · exact hw.lanes.mono (by simp)
  · exact (hw.lanes.trans (event_lanes _ _ _ _)).mono (by simp)

/-! ### Bypass and start of a lane, rules R272 and R276 -/

/-- The registers in which a change of one lane shows. -/
abbrev laneTouched (p : Nat) (l : Lane) : List Nat := [laneReg p l, Reg.PG_IRQ_RAW (ringPage p), Reg.RNG_BYP_OPEN_CNT p]

theorem laneReg_ne_irqRaw : ∀ (p : Fin 4) (l : Lane), laneReg p.val l ≠ Reg.PG_IRQ_RAW (ringPage p.val) := by
  intro p l
  cases l <;> revert p <;> decide

theorem laneReg_ne_bypOpenCnt (p : Nat) (l : Lane) : laneReg p l ≠ Reg.RNG_BYP_OPEN_CNT p := by
  cases l <;> simp [laneReg]

theorem laneReg_a_notMem : ∀ p : Fin 4, laneReg p.val .a ∉ laneTouched p.val .b := by decide
theorem laneReg_b_notMem : ∀ p : Fin 4, laneReg p.val .b ∉ laneTouched p.val .a := by decide

theorem ringStat_notMem_laneTouched : ∀ (p : Fin 4) (l : Lane), Reg.RNG_STAT p.val ∉ laneTouched p.val l := by
  intro p l
  cases l <;> revert p <;> decide

theorem setPassed_lanes (s : State) (p : Nat) (l : Lane) (b : Bool) : s.LaneFrame (s.setPassed p l b) [] := setRp_lanes _ _ _

theorem lanePassed_setPassed (s : State) (p : Nat) (l : Lane) (b : Bool) : (s.setPassed p l b).lanePassed p l = b := by
  unfold State.setPassed State.lanePassed
  rw [rp_setRp_self]
  dsimp only
  rw [testBit_withBits (Nat.le_refl _), if_pos ⟨Nat.le_refl _, Nat.le_refl _⟩, Nat.sub_self]
  cases b <;> rfl

theorem setLstate_writes (s : State) (p : Nat) (l : Lane) (st : Nat) : s.Writes (s.setLstate p l st) [laneReg p l] := setFld_writes _ _ _ _ _

theorem lstate_setLstate {st : Nat} (h : st < 8) (s : State) (p : Nat) (l : Lane) : (s.setLstate p l st).lstate p l = st :=
  (fld_setFld (by decide) (by decide) s (laneReg p l) st).trans (Nat.mod_eq_of_lt h)

/-- LSTATE stands below the other fields of the register. -/
theorem bit_setLstate {i : Nat} (h : 3 ≤ i) (s : State) (p : Nat) (l : Lane) (st : Nat) :
    (s.setLstate p l st).bit (laneReg p l) i = s.bit (laneReg p l) i :=
  (bit_setFld (by decide) (by decide) s (laneReg p l) st i).trans (if_neg (by omega))

theorem bypass_lanes (s : State) (p : Nat) (l : Lane) (opened : Bool) : s.LaneFrame (s.bypass p l opened) (laneTouched p l) := by
  have hset := (setBit_writes s (laneReg p l) 4 opened).lanes.trans (event_lanes _ (ringPage p) 12 0)
  unfold State.bypass
  split
  · exact .refl s _
  · dsimp only
    split
    · exact (hset.trans (inc_writes _ _).lanes).mono (by simp)
    · exact hset.mono (by simp)

theorem bit_bypass (s : State) (p : Fin 4) (l : Lane) (opened : Bool) : (s.bypass p.val l opened).bit (laneReg p.val l) 4 = opened := by
  have hset : ((s.setBit (laneReg p.val l) 4 opened).event (ringPage p.val) 12 0).bit (laneReg p.val l) 4 = opened :=
    (bit_of_rd (rd_event (laneReg_ne_irqRaw p l) _ _ _) 4).trans (bit_setBit_self (by decide) _ _ _)
  unfold State.bypass
  split
  next hb => exact beq_iff_eq.mp hb
  next =>
    dsimp only
    split
    · exact (bit_of_rd (rd_inc_ne (laneReg_ne_bypOpenCnt p.val l) _) 4).trans hset
    · exact hset

theorem startLane_lanes (s : State) (p : Nat) (l : Lane) : s.LaneFrame (s.startLane p l) [laneReg p l] := by
  unfold State.startLane
  split
  · exact (setPassed_lanes _ _ _ _).trans (setLstate_writes _ _ _ _).lanes
  · exact .refl s _

theorem stopLane_lanes (s : State) (p : Nat) (l : Lane) : s.LaneFrame (s.stopLane p l) (laneTouched p l) :=
  ((((bypass_lanes s p l false).trans (setPassed_lanes _ _ _ _)).trans (setFld_writes _ _ _ _ _).lanes).trans
    (setBit_writes _ _ _ _).lanes).mono (by simp)

theorem classLanes_lanes (s : State) (p : Nat) : s.LaneFrame (s.classLanes p) (laneTouched p .b) := by
  unfold State.classLanes
  split
  · exact (startLane_lanes _ _ _).mono (by simp)
  · split
    · exact .refl s _
    · exact stopLane_lanes _ _ _

/-! ### A trained lane joins, rule R274 -/

/-- A lane that is not in TRAIN has nothing to open. -/
theorem openLane_idle {s : State} {p : Nat} {l : Lane} (h : s.lstate p l ≠ lsTrain) : s.openLane p l = s := by
  unfold State.openLane
  exact if_neg (by simp [h])

theorem openLane_lanes (s : State) (p : Nat) (l : Lane) : s.LaneFrame (s.openLane p l) (laneTouched p l) := by
  unfold State.openLane
  dsimp only
  split
  · exact ((bypass_lanes _ _ _ _).trans (setLstate_writes _ _ _ _).lanes).mono (by simp)
  · exact .refl s _

/-- Lane A waits for no other. -/
theorem openLane_a {s : State} {p : Nat} (hd : s.bypassState = true) (he : s.portEn p = true) (h9 : s.domOn 9 = true)
    (hl : s.lstate p .a = lsTrain) (hp : s.lanePassed p .a = true) : s.openLane p .a = (s.bypass p .a true).setLstate p .a lsJoin := by
  unfold State.openLane
  exact if_pos (by simp [hd, he, h9, hl, hp, State.laneUsed])

theorem openLanes_lanes (s : State) (p : Nat) : s.LaneFrame (s.openLanes p) (laneTouched p .a ++ laneTouched p .b) :=
  (openLane_lanes s p .a).trans (openLane_lanes _ p .b)

/-- A lane that is not in TRAIN keeps its status while the lanes open. -/
theorem rd_openLanes_idle {s : State} {p : Fin 4} {l : Lane} (h : s.lstate p.val l ≠ lsTrain) :
    (s.openLanes p.val).rd (laneReg p.val l) = s.rd (laneReg p.val l) := by
  unfold State.openLanes
  cases l with
  | a =>
    rw [openLane_idle h]
    exact (openLane_lanes s p.val .b).regs _ (laneReg_a_notMem p)
  | b =>
    have hkeep := (openLane_lanes s p.val .a).regs
    rw [openLane_idle (hkeep.lstate (laneReg_b_notMem p) ▸ h)]
    exact hkeep _ (laneReg_b_notMem p)

/-! ### PSTATE follows the lanes, rules R266 and R277 -/

/-- The registers that follow from the status of the lanes. -/
abbrev statTouched (p : Nat) : List Nat := [Reg.RNG_STAT p, Reg.PG_IRQ_RAW (ringPage p)]

theorem pstate_statBits (s : State) (p : Nat) : (s.statBits p).pstate p = s.pstate p := by
  unfold State.statBits State.pstate
  dsimp only
  rw [fld_setBit_ne (by decide) (by decide), fld_setBit_ne (by decide) (by decide), fld_setBit_ne (by decide) (by decide)]

theorem bit_statBits_a (s : State) (p : Nat) : (s.statBits p).bit (Reg.RNG_STAT p) 4 = s.laneUp p .a := by
  unfold State.statBits
  dsimp only
  rw [bit_setBit (by decide), if_neg (by decide), bit_setBit (by decide), if_neg (by decide), bit_setBit_self (by decide)]

theorem lstate_of_rd {s t : State} {p : Nat} {l : Lane} (h : t.rd (laneReg p l) = s.rd (laneReg p l)) : t.lstate p l = s.lstate p l :=
  fld_of_rd h 2 0

theorem laneUp_of_rd {s t : State} {p : Nat} {l : Lane} (h : t.rd (laneReg p l) = s.rd (laneReg p l)) : t.laneUp p l = s.laneUp p l := by
  unfold State.laneUp
  rw [lstate_of_rd h]

theorem laneUp_statBits (s : State) (p : Nat) (l : Lane) : (s.statBits p).laneUp p l = s.laneUp p l :=
  laneUp_of_rd ((statBits_writes s p).1 _ (by cases l <;> simp [laneReg]))

/-- The port as it enters LISTEN, before its lanes follow the class. -/
def State.listening (s : State) (p : Nat) : State :=
  let s1 := s.setRp p { (s.rp p).kept with cfg := Tab.range (pageBase (ringPage p) + 0x100) 0x700 s.regs }
  (((s1.setBit (Reg.RNG_STAT p) 7 false).setBit (Reg.RNG_STAT p) 9 false).setFld (Reg.RNG_STAT p) 17 16 0).setPstate p psListen

theorem enterListen_eq (s : State) (p : Nat) : s.enterListen p =
    if (((s.listening p).classLanes p).statBits p).anyUp p then ((s.listening p).classLanes p).statBits p
    else (((s.listening p).classLanes p).statBits p).setPstate p psDown := rfl

theorem listening_lanes (s : State) (p : Nat) : s.LaneFrame (s.listening p) (statTouched p) :=
  (((((setRp_lanes s p _).trans (setBit_writes _ (Reg.RNG_STAT p) 7 false).lanes).trans (setBit_writes _ (Reg.RNG_STAT p) 9 false).lanes).trans
    (setFld_writes _ (Reg.RNG_STAT p) 17 16 0).lanes).trans (setPstate_lanes _ p psListen)).mono (by simp)

theorem classStat_lanes (s : State) (p : Nat) :
    s.LaneFrame (((s.listening p).classLanes p).statBits p) (statTouched p ++ laneTouched p .b) :=
  (((listening_lanes s p).trans (classLanes_lanes _ p)).trans (statBits_writes _ p).lanes).mono (by simp)

theorem enterListen_lanes (s : State) (p : Nat) : s.LaneFrame (s.enterListen p) (statTouched p ++ laneTouched p .b) := by
  rw [enterListen_eq]
  split
  · exact classStat_lanes s p
  · exact ((classStat_lanes s p).trans (setPstate_lanes _ p psDown)).mono (by simp)

theorem laneBits_lanes (s : State) (p : Nat) : s.LaneFrame (s.laneBits p) (statTouched p ++ laneTouched p .b) := by
  have hw := (statBits_writes s p).lanes
  unfold State.laneBits
  dsimp only
  split
  · split
    · exact (hw.trans (enterListen_lanes _ p)).mono (by simp)
    · exact hw.mono (by simp)
  · split
    · exact hw.mono (by simp)
    · exact (hw.trans (setPstate_lanes _ p psDown)).mono (by simp)

/-- A port that is not DOWN, or has no lane UP, does not enter LISTEN: its lanes stay as they are. -/
theorem laneBits_stays {s : State} {p : Nat} (h : s.pstate p = psDown → s.laneUp p .a = false ∧ s.laneUp p .b = false) :
    s.LaneFrame (s.laneBits p) (statTouched p) := by
  have hw := (statBits_writes s p).lanes
  unfold State.laneBits
  dsimp only
  rw [pstate_statBits]
  split
  next hd =>
    obtain ⟨ha, hb⟩ := h hd
    rw [if_neg (by simp [State.anyUp, laneUp_statBits, ha, hb])]
    exact hw.mono (by simp)
  next =>
    split
    · exact hw.mono (by simp)
    · exact (hw.trans (setPstate_lanes _ p psDown)).mono (by simp)

theorem laneReg_a_notMem_listen : ∀ p : Fin 4, laneReg p.val .a ∉ statTouched p.val ++ laneTouched p.val .b := by decide

/-- Lane A is UP: LISTEN is entered, whatever becomes of lane B. -/
theorem enterListen_up {s : State} {p : Fin 4} (h : s.laneUp p.val .a = true) :
    (s.enterListen p.val).pstate p.val = psListen ∧ (s.enterListen p.val).bit (Reg.RNG_STAT p.val) 4 = true := by
  have hcls := ((listening_lanes s p.val).trans (classLanes_lanes _ p.val)).regs
  have hup : ((s.listening p.val).classLanes p.val).laneUp p.val .a = true := by
    rw [laneUp_of_rd (hcls _ (laneReg_a_notMem_listen p)), h]
  have hps : (s.listening p.val).pstate p.val = psListen := pstate_setPstate (by decide) _ _
  rw [enterListen_eq, if_pos (by rw [State.anyUp, laneUp_statBits, hup, Bool.true_or])]
  refine ⟨?_, (bit_statBits_a _ _).trans hup⟩
  rw [pstate_statBits, (classLanes_lanes _ p.val).regs.pstate (ringStat_notMem_laneTouched p .b), hps]

/-- Lane A is UP: RNG_STAT shows it, and an enabled port leaves DOWN. -/
theorem laneBits_up {s : State} {p : Fin 4} (h : s.laneUp p.val .a = true) :
    (s.laneBits p.val).bit (Reg.RNG_STAT p.val) 4 = true ∧
      (s.pstate p.val = psDown → s.portEn p.val = true → (s.laneBits p.val).pstate p.val = psListen) := by
  have hup : (s.statBits p.val).laneUp p.val .a = true := (laneUp_statBits _ _ _).trans h
  have hany : (s.statBits p.val).anyUp p.val = true := by rw [State.anyUp, hup, Bool.true_or]
  have hbit : (s.statBits p.val).bit (Reg.RNG_STAT p.val) 4 = true := (bit_statBits_a _ _).trans h
  have hen : (s.statBits p.val).portEn p.val = s.portEn p.val := (statBits_writes s p.val).1.bit (by simp) 0
  obtain ⟨hlst, hlbit⟩ := enterListen_up hup
  unfold State.laneBits
  dsimp only
  rw [pstate_statBits, hany, hen, Bool.true_and, if_pos rfl]
  split
  next hd =>
    split
    next => exact ⟨hlbit, fun _ _ => hlst⟩
    next he => exact ⟨hbit, fun _ hen => absurd hen he⟩
  next hd => exact ⟨hbit, fun hdown => absurd hdown hd⟩

/-! ### A lane enters FAIL, rules R275 and R278 -/

/-- The lane in FAIL, before its port and the other lane follow. -/
def State.failed (s : State) (p : Nat) (l : Lane) (cause : Nat) : State :=
  (((s.bypass p l false).setLstate p l lsFail).setFld (laneReg p l) 15 12 cause).setPassed p l false

theorem laneFail_eq (s : State) (p : Nat) (l : Lane) (cause : Nat) :
    s.laneFail p l cause = ((s.failed p l cause).laneBits p).openLanes p := rfl

theorem failed_lanes (s : State) (p : Nat) (l : Lane) (cause : Nat) : s.LaneFrame (s.failed p l cause) (laneTouched p l) :=
  ((((bypass_lanes s p l false).trans (setLstate_writes _ _ _ _).lanes).trans (setFld_writes _ _ _ _ _).lanes).trans
    (setPassed_lanes _ _ _ _)).mono (by simp)

/-- A lane's status in FAIL: the state, its cause and a closed bypass. -/
structure State.ShowsFail (t : State) (p : Nat) (l : Lane) (cause : Nat) : Prop where
  lstate : t.lstate p l = lsFail
  cause : t.fld (laneReg p l) 15 12 = cause
  bypass : t.bit (laneReg p l) 4 = false

theorem State.ShowsFail.of_rd {s t : State} {p : Nat} {l : Lane} {cause : Nat} (h : s.ShowsFail p l cause)
    (k : t.rd (laneReg p l) = s.rd (laneReg p l)) : t.ShowsFail p l cause :=
  ⟨(lstate_of_rd k).trans h.lstate, (fld_of_rd k 15 12).trans h.cause, (bit_of_rd k 4).trans h.bypass⟩

theorem failed_shows {cause : Nat} (hc : cause < 16) (s : State) (p : Fin 4) (l : Lane) : (s.failed p.val l cause).ShowsFail p.val l cause := by
  refine ⟨?_, (fld_setFld (by decide) (by decide) _ _ _).trans (Nat.mod_eq_of_lt hc), ?_⟩
  · exact (fld_setFld_ne (by decide) (by decide) (by decide) _ _ _).trans (lstate_setLstate (by decide) _ _ _)
  · exact ((bit_setFld (by decide) (by decide) _ _ _ _).trans (if_neg (by decide))).trans
      ((bit_setLstate (by decide) _ _ _ _).trans (bit_bypass s p l false))

theorem laneFail_lanes (s : State) (p : Nat) (l : Lane) (cause : Nat) : s.LaneFrame (s.laneFail p l cause) (laneRegs p) := by
  rw [laneFail_eq]
  exact (((failed_lanes s p l cause).trans (laneBits_lanes _ p)).trans (openLanes_lanes _ p)).mono (by cases l <;> simp)

/-- Lane B of a port that stays out of LISTEN keeps its status when the port's state follows; lane A always does. -/
theorem rd_laneBits_failed {s : State} {p : Fin 4} {l : Lane} {cause : Nat} (hc : cause < 16)
    (h : l = .b → s.pstate p.val = psDown → s.laneUp p.val .a = false) :
    ((s.failed p.val l cause).laneBits p.val).rd (laneReg p.val l) = (s.failed p.val l cause).rd (laneReg p.val l) := by
  cases l with
  | a => exact (laneBits_lanes _ p.val).regs _ (laneReg_a_notMem_listen p)
  | b =>
    have hkeep := (failed_lanes s p.val .b cause).regs
    refine (laneBits_stays fun hd => ⟨?_, ?_⟩).regs _ (laneReg_notMem_stat p .b)
    · rw [laneUp_of_rd (hkeep _ (laneReg_a_notMem p))]
      exact h rfl ((hkeep.pstate (ringStat_notMem_laneTouched p .b)).symm.trans hd)
    · rw [State.laneUp, (failed_shows hc s p .b).lstate]
      rfl

theorem laneFail_shows {s : State} {p : Fin 4} {l : Lane} {cause : Nat} (hc : cause < 16)
    (h : l = .b → s.pstate p.val = psDown → s.laneUp p.val .a = false) : (s.laneFail p.val l cause).ShowsFail p.val l cause := by
  have hshow := (failed_shows hc s p l).of_rd (rd_laneBits_failed hc h)
  rw [laneFail_eq]
  exact hshow.of_rd (rd_openLanes_idle (by rw [hshow.lstate]; decide))

/-- A failure after the page has counted it in register `c`: the lane shows FAIL with its cause, the count stands, and no raising is lost. -/
theorem countedFail_clause {s u t : State} {p : Fin 4} {l : Lane} {cause c : Nat} (hc : cause < 16) (hcnt : c ∉ laneRegs p.val)
    (hu : s.LaneFrame u [c, laneReg p.val l, Reg.PG_IRQ_RAW (ringPage p.val)]) (hn : u.rdN c = min (s.rdN c + 1) 0xFFFFFFFF)
    (h : l = .b → s.pstate p.val = psDown → s.laneUp p.val .a = false) (ht : t = u.laneFail p.val l cause) :
    t.ShowsFail p.val l cause ∧ t.rdN c = min (s.rdN c + 1) 0xFFFFFFFF ∧ u.evt.raisings ⊆ t.evt.raisings ∧ s.SameMemory t := by
  have hfail := laneFail_lanes u p.val l cause
  have htouch : ∀ a ∈ [laneReg p.val l, Reg.PG_IRQ_RAW (ringPage p.val)], a ∈ laneTouched p.val l := by simp
  have hother : ∀ a ∈ laneRegs p.val, a ∉ laneTouched p.val l → u.rd a = s.rd a := fun a ha hno =>
    hu.regs a fun hm => (List.mem_cons.mp hm).elim (fun e => hcnt (e ▸ ha)) fun hm => hno (htouch a hm)
  have hstat : u.pstate p.val = s.pstate p.val := fld_of_rd (hother _ (by simp) (ringStat_notMem_laneTouched p l)) 3 0
  have hup : l = .b → u.laneUp p.val .a = s.laneUp p.val .a := by
    rintro rfl
    exact laneUp_of_rd (hother _ (mem_laneRegs p.val .a) (laneReg_a_notMem p))
  subst ht
  refine ⟨laneFail_shows hc fun hl hd => (hup hl).trans (h hl (hstat.symm.trans hd)), (hfail.regs.rdN hcnt).trans hn, hfail.raisings,
    hu.ports.memory.trans hfail.ports.memory⟩

end Sys2Proof.Machine
end

section
/-! SUPPORT. The states of a ring lane (O49). -/

namespace Sys2Proof.Machine

theorem ringOn_domOn {s : State} (h : s.ringOn = true) : s.domOn 9 = true := by
  simp only [State.ringOn, Bool.and_eq_true] at h
  exact h.2

/-! ### Training and join, rules R273, R274 and R276 -/

theorem trainPassed_clause {s : State} {p : Fin 4} (h1 : s.ringOn = true) (h2 : s.lstate p.val .a = lsTrain) (h3 : s.bypassState = true)
    (h4 : s.portEn p.val = true) {t : State} (ht : t = s.trainPassed p.val .a) :
    t.lstate p.val .a = lsJoin ∧ t.bit (laneReg p.val .a) 4 = true := by
  have hopen : (s.setPassed p.val .a true).openLane p.val .a = ((s.setPassed p.val .a true).bypass p.val .a true).setLstate p.val .a lsJoin :=
    openLane_a h3 h4 (ringOn_domOn h1) h2 (lanePassed_setPassed _ _ _ _)
  have heq : t = ((s.setPassed p.val .a true).openLane p.val .a).openLane p.val .b := by
    rw [ht, State.trainPassed, if_pos (by simp [h1, h2]), State.openLanes]
  have hrd : t.rd (laneReg p.val .a) = ((s.setPassed p.val .a true).openLane p.val .a).rd (laneReg p.val .a) := by
    rw [heq]
    exact (openLane_lanes _ p.val .b).regs _ (laneReg_a_notMem p)
  rw [hopen] at hrd
  exact ⟨(lstate_of_rd hrd).trans (lstate_setLstate (by decide) _ _ _),
    (bit_of_rd hrd 4).trans ((bit_setLstate (by decide) _ _ _ _).trans (bit_bypass _ p .a true))⟩

theorem bypassSettled_clause {s : State} {p : Nat} {l : Lane} (h1 : s.ringOn = true) (h2 : s.lstate p l = lsJoin) {t : State}
    (ht : t = s.bypassSettled p l) : (t.rp p).settled.testBit l.num = true ∧ t = { s with ring := t.ring } := by
  rw [State.bypassSettled, if_pos (by simp [h1, h2])] at ht
  subst ht
  refine ⟨?_, rfl⟩
  rw [rp_setRp_self]
  dsimp only
  rw [testBit_withBits (Nat.le_refl _), if_pos ⟨Nat.le_refl _, Nat.le_refl _⟩, Nat.sub_self]
  rfl

theorem joinPassed_clause {s : State} {p : Nat} {l : Lane} (h1 : s.ringOn = true) (h2 : s.lstate p l = lsJoin)
    (h3 : (s.rp p).settled.testBit l.num = true) {t : State} (ht : t = s.joinPassed p l) :
    t.lstate p l = lsMeasure ∧ (t.rp p).rtts = [] ∧ s.SameRegs t [laneReg p l] ∧ s.SameMemory t := by
  rw [State.joinPassed, if_pos (by simp [h1, h2, h3])] at ht
  have hset := (setFld_writes (s.setRp p { s.rp p with rtts := [] }) (laneReg p l) 6 5 3).trans (setLstate_writes _ p l lsMeasure)
  have hframe := ((setRp_lanes s p _).trans hset.lanes).mono (m := [laneReg p l]) (by simp)
  rw [← ht] at hset hframe
  refine ⟨ht ▸ lstate_setLstate (by decide) _ _ _, ?_, hframe.regs, hframe.ports.memory⟩
  rw [hset.signals.rp p, rp_setRp_self]

theorem linkRetry_clause {s : State} {p : Nat} {l : Lane} (h1 : s.ringOn = true) (h2 : s.lstate p l = lsFail) {t : State}
    (ht : t = s.linkRetry p l) :
    t.lstate p l = lsTrain ∧ t.lanePassed p l = false ∧ s.SameRegs t [laneReg p l] ∧ s.SameMemory t := by
  rw [State.linkRetry, if_pos (by simp [h1, h2])] at ht
  have hset := setLstate_writes (s.setPassed p l false) p l lsTrain
  have hframe := (setPassed_lanes s p l false).trans hset.lanes
  rw [← ht] at hset hframe
  refine ⟨ht ▸ lstate_setLstate (by decide) _ _ _, ?_, hframe.regs, hframe.ports.memory⟩
  rw [State.lanePassed, hset.signals.rp p]
  exact lanePassed_setPassed s p l false

/-! ### Measurement, rules R279 and R282 -/

theorem markerBack_eq {s : State} {p : Nat} (h1 : s.ringOn = true) (h2 : s.lstate p .a = lsMeasure ∨ s.lstate p .b = lsMeasure)
    (sent ret turn : Nat) : s.measureMarker p (.back sent ret turn) = s.setRp p { s.rp p with
      rtts := ((s.ingressSteps p .b ret - s.egressSteps p .a sent - turn).toNat :: (s.rp p).rtts).take 256 } := by
  unfold State.measureMarker
  rw [if_neg (by simp [h1])]
  exact if_pos (by simpa using h2)

theorem markerArrived_eq {s : State} {p : Nat} (h1 : s.ringOn = true) (h2 : s.bit (laneReg p .a) 4 = true)
    (h3 : s.bit (laneReg p .b) 4 = true) (ingress egress : Nat) : s.measureMarker p (.arrived ingress egress) =
      s.setRp p { s.rp p with turn := some (s.egressSteps p .b egress - s.ingressSteps p .a ingress).toNat } := by
  unfold State.measureMarker
  rw [if_neg (by simp [h1])]
  exact if_pos (by rw [h2, h3]; rfl)

/-- The hop's round trip, its spread and the lane's loss as the measurement gives them. -/
def State.hopMeasured (s : State) (p : Nat) (l : Lane) (loss : Nat) : State :=
  ((s.wrN (Reg.RNG_HOP_RTT p) (medianOf (s.rp p).rtts).1).wrN (Reg.RNG_HOP_SPREAD p) (min (medianOf (s.rp p).rtts).2 0xFFFF)).setFld
    (laneReg p l) 31 16 (min loss 0xFFFF)

/-- The measured lane in UP, before its port and the other lane follow. -/
def State.laneMeasured (s : State) (p : Nat) (l : Lane) (loss : Nat) : State :=
  ((((s.hopMeasured p l loss).lossCheck p l [loss]).setLstate p l lsUp).setFld (laneReg p l) 15 12 0).event (ringPage p) 1 0

theorem measureDone_eq {s : State} {p : Nat} {l : Lane} (h1 : s.ringOn = true) (h2 : s.lstate p l = lsMeasure)
    (h3 : (s.rp p).rtts.length = 256) (loss : Nat) : s.measureDone p l loss = ((s.laneMeasured p l loss).laneBits p).openLanes p := by
  unfold State.measureDone
  exact if_pos (by simp [h1, h2, h3])

theorem lossCheck_lanes (s : State) (p : Nat) (l : Lane) (losses : List Nat) :
    s.LaneFrame (s.lossCheck p l losses) [laneReg p l, Reg.PG_IRQ_RAW (ringPage p)] := by
  unfold State.lossCheck
  split
  · exact (setBit_writes _ _ _ _).lanes.trans (event_lanes _ _ _ _)
  · exact .refl s _

/-- LOSSY stands apart from the estimated loss. -/
theorem fld_lossCheck (s : State) (p : Fin 4) (l : Lane) (losses : List Nat) :
    (s.lossCheck p.val l losses).fld (laneReg p.val l) 31 16 = s.fld (laneReg p.val l) 31 16 := by
  unfold State.lossCheck
  split
  · exact (fld_of_rd (rd_event (laneReg_ne_irqRaw p l) _ _ _) 31 16).trans (fld_setBit_ne (by decide) (by decide) _ _ _)
  · rfl

/-- The registers in which a measurement shows. -/
abbrev measuredRegs (p : Nat) (l : Lane) : List Nat :=
  [Reg.RNG_HOP_RTT p, Reg.RNG_HOP_SPREAD p, laneReg p l, Reg.PG_IRQ_RAW (ringPage p)]

theorem notMem_measuredRegs : ∀ (p : Fin 4) (l : Lane), ∀ a ∈ [Reg.RNG_STAT p.val, Reg.RNG_CTRL p.val], a ∉ measuredRegs p.val l := by
  intro p l
  cases l <;> revert p <;> decide

theorem laneMeasured_lanes (s : State) (p : Nat) (l : Lane) (loss : Nat) : s.LaneFrame (s.laneMeasured p l loss) (measuredRegs p l) :=
  ((((((((wrN_writes s (Reg.RNG_HOP_RTT p) _).trans (wrN_writes _ (Reg.RNG_HOP_SPREAD p) _)).trans
    (setFld_writes _ (laneReg p l) 31 16 _)).lanes.trans (lossCheck_lanes _ p l [loss])).trans (setLstate_writes _ p l lsUp).lanes).trans
    (setFld_writes _ (laneReg p l) 15 12 0).lanes).trans (event_lanes _ (ringPage p) 1 0))).mono (by simp)

/-- A measured lane shows UP and its loss. -/
theorem laneMeasured_shows (s : State) (p : Fin 4) (l : Lane) (loss : Nat) :
    (s.laneMeasured p.val l loss).lstate p.val l = lsUp ∧ (s.laneMeasured p.val l loss).fld (laneReg p.val l) 31 16 = min loss 0xFFFF := by
  have hev : (s.laneMeasured p.val l loss).rd (laneReg p.val l) = ((((s.hopMeasured p.val l loss).lossCheck p.val l [loss]).setLstate p.val l
    lsUp).setFld (laneReg p.val l) 15 12 0).rd (laneReg p.val l) := rd_event (laneReg_ne_irqRaw p l) _ _ _
  constructor
  · exact (lstate_of_rd hev).trans ((fld_setFld_ne (by decide) (by decide) (by decide) _ _ _).trans (lstate_setLstate (by decide) _ _ _))
  · calc (s.laneMeasured p.val l loss).fld (laneReg p.val l) 31 16
        = ((s.hopMeasured p.val l loss).lossCheck p.val l [loss]).fld (laneReg p.val l) 31 16 :=
          (fld_of_rd hev 31 16).trans ((fld_setFld_ne (by decide) (by decide) (by decide) _ _ _).trans
            (fld_setFld_ne (by decide) (by decide) (by decide) _ _ _))
      _ = (s.hopMeasured p.val l loss).fld (laneReg p.val l) 31 16 := fld_lossCheck _ p l _
      _ = min loss 0xFFFF := (fld_setFld (by decide) (by decide) _ _ _).trans (Nat.mod_eq_of_lt (by omega))

theorem measureDone_clause {s : State} {p : Fin 4} {loss : Nat} {t : State}
    (ht : t = ((s.laneMeasured p.val .a loss).laneBits p.val).openLanes p.val) :
    t.lstate p.val .a = lsUp ∧ t.bit (Reg.RNG_STAT p.val) 4 = true ∧ t.fld (laneReg p.val .a) 31 16 = min loss 0xFFFF ∧
      (s.pstate p.val = psDown → s.portEn p.val = true → t.pstate p.val = psListen) ∧ s.SameMemory t := by
  have hm := laneMeasured_lanes s p.val .a loss
  have hb := laneBits_lanes (s.laneMeasured p.val .a loss) p.val
  have ho := openLanes_lanes ((s.laneMeasured p.val .a loss).laneBits p.val) p.val
  obtain ⟨hst, hloss⟩ := laneMeasured_shows s p .a loss
  have hbits := hb.regs _ (laneReg_a_notMem_listen p)
  have hrd : t.rd (laneReg p.val .a) = (s.laneMeasured p.val .a loss).rd (laneReg p.val .a) := by
    rw [ht]
    exact (rd_openLanes_idle (by rw [lstate_of_rd hbits, hst]; decide)).trans hbits
  obtain ⟨hstat, hlisten⟩ := laneBits_up (s := s.laneMeasured p.val .a loss) (p := p) (by rw [State.laneUp, hst]; rfl)
  have hno : Reg.RNG_STAT p.val ∉ laneTouched p.val .a ++ laneTouched p.val .b := fun h =>
    (List.mem_append.mp h).elim (ringStat_notMem_laneTouched p .a) (ringStat_notMem_laneTouched p .b)
  rw [← ht] at ho
  refine ⟨(lstate_of_rd hrd).trans hst, (ho.regs.bit hno 4).trans hstat, (fld_of_rd hrd 31 16).trans hloss, fun hd he => ?_,
    (hm.ports.memory.trans hb.ports.memory).trans ho.ports.memory⟩
  have hps := hm.regs.pstate (p := p.val) (notMem_measuredRegs p .a _ (by simp))
  have hen : (s.laneMeasured p.val .a loss).portEn p.val = s.portEn p.val := hm.regs.bit (notMem_measuredRegs p .a _ (by simp)) 0
  exact (ho.regs.pstate hno).trans (hlisten (hps.trans hd) (hen.trans he))

/-! ### Timeouts and loss, rules R276 and R278 -/

theorem trainTimeout_eq {s : State} {p : Nat} {l : Lane} (h1 : s.ringOn = true) (h2 : s.lstate p l = lsTrain)
    (h3 : s.lanePassed p l = false) : s.trainTimeout p l = (s.inc (Reg.RNG_TRAIN_FAIL_CNT p)).laneFail p l 1 := if_pos (by simp [h1, h2, h3])

theorem joinTimeout_eq {s : State} {p : Nat} {l : Lane} (h1 : s.ringOn = true) (h2 : s.lstate p l = lsJoin) :
    s.joinTimeout p l = (s.inc (Reg.RNG_JOIN_FAIL_CNT p)).laneFail p l 2 := if_pos (by simp [h1, h2])

theorem measureTimeout_eq {s : State} {p : Nat} {l : Lane} (h1 : s.ringOn = true) (h2 : s.lstate p l = lsMeasure) :
    s.measureTimeout p l = (s.inc (Reg.RNG_JOIN_FAIL_CNT p)).laneFail p l 3 := if_pos (by simp [h1, h2])

/-- What a timeout, counted in register `c`, leaves of the lane. -/
theorem timeout_clause {s : State} {p : Fin 4} {l : Lane} {cause c : Nat} (hc : cause < 16) (hcnt : c ∉ laneRegs p.val)
    (h : l = .b → s.pstate p.val = psDown → s.laneUp p.val .a = false) {t : State} (ht : t = (s.inc c).laneFail p.val l cause) :
    t.lstate p.val l = lsFail ∧ t.fld (laneReg p.val l) 15 12 = cause ∧ t.bit (laneReg p.val l) 4 = false ∧
      t.rdN c = min (s.rdN c + 1) 0xFFFFFFFF ∧ s.SameMemory t := by
  obtain ⟨hshow, hn, -, hmem⟩ := countedFail_clause hc hcnt ((inc_writes s c).lanes.mono (by simp)) (rdN_inc s c) h ht
  exact ⟨hshow.lstate, hshow.cause, hshow.bypass, hn, hmem⟩

/-- The cause of a loss: of signal, or of block lock. -/
abbrev lossCause (lock : Bool) : Nat := if lock then 5 else 4

/-- A loss as the page counts and shows it. -/
def State.lossCounted (s : State) (p : Nat) (l : Lane) (lock : Bool) : State :=
  (s.inc (Reg.RNG_LANE_LOSS_CNT p)).setFld (laneReg p l) 6 5 (if lock then 1 else 0)

/-- A loss as the page raises it: in a class with redundancy it is an alarm. -/
def State.lossRaised (s : State) (p : Nat) (l : Lane) (lock : Bool) : State :=
  if (s.lossCounted p l lock).portRed p = 0 then (s.lossCounted p l lock).event (ringPage p) 1 (if lock then 5 else 4)
  else (s.lossCounted p l lock).alarm (ringPage p) 1 (if lock then 5 else 4)

theorem laneLoss_eq {s : State} {p : Nat} {l : Lane} (h1 : s.ringOn = true) (h2 : s.lstate p l = lsUp) (lock : Bool) :
    s.laneLoss p l lock = (s.lossRaised p l lock).laneFail p l (lossCause lock) := if_pos (by simp [h1, h2])

theorem lossCounted_writes (s : State) (p : Nat) (l : Lane) (lock : Bool) :
    s.Writes (s.lossCounted p l lock) [Reg.RNG_LANE_LOSS_CNT p, laneReg p l] := (inc_writes _ _).trans (setFld_writes _ _ _ _ _)

theorem notMem_lossCounted : ∀ (p : Fin 4) (l : Lane), ∀ a ∈ [Reg.RNG_STAT p.val, Reg.RNG_CTRL p.val, Reg.QTZ_TIME_NS, Reg.QTZ_TIME_NS + 4],
    a ∉ [Reg.RNG_LANE_LOSS_CNT p.val, laneReg p.val l] := by
  intro p l
  cases l <;> revert p <;> decide

theorem portRed_lossCounted (s : State) (p : Fin 4) (l : Lane) (lock : Bool) :
    (s.lossCounted p.val l lock).portRed p.val = s.portRed p.val := by
  have hw := lossCounted_writes s p.val l lock
  exact rcFld_of_same (hw.1.pstate (notMem_lossCounted p l _ (by simp))) (hw.1 _ (notMem_lossCounted p l _ (by simp)))
    (by rw [hw.signals.rp]) 3 2

theorem lossRaised_raises {s : State} (hc : s.clocked = true) (p : Fin 4) (l : Lane) (lock : Bool) :
    s.Raises (s.lossRaised p.val l lock) ([Reg.RNG_LANE_LOSS_CNT p.val, laneReg p.val l] ++ [Reg.PG_IRQ_RAW (ringPage p.val)])
      [⟨ringPage p.val, 1, s.portRed p.val != 0, if lock then 5 else 4, s.now⟩] := by
  have hw := lossCounted_writes s p.val l lock
  have h1 := notMem_lossCounted p l Reg.QTZ_TIME_NS (by simp)
  have h2 := notMem_lossCounted p l (Reg.QTZ_TIME_NS + 4) (by simp)
  unfold State.lossRaised
  rw [portRed_lossCounted]
  split
  next h0 =>
    rw [h0]
    exact hw.event hc h1 h2 _ _ _
  next h0 =>
    rw [bne_iff_ne.mpr h0]
    exact hw.alarm hc h1 h2 _ _ _

theorem rdN_lossCounted (s : State) (p : Fin 4) (l : Lane) (lock : Bool) : (s.lossCounted p.val l lock).rdN (Reg.RNG_LANE_LOSS_CNT p.val) =
    min (s.rdN (Reg.RNG_LANE_LOSS_CNT p.val) + 1) 0xFFFFFFFF :=
  (rdN_of_rd (rd_setFld_ne (by cases l <;> simp [laneReg]) _ _ _ _)).trans (rdN_inc _ _)

theorem rdN_lossRaised (s : State) (p : Fin 4) (l : Lane) (lock : Bool) : (s.lossRaised p.val l lock).rdN (Reg.RNG_LANE_LOSS_CNT p.val) =
    min (s.rdN (Reg.RNG_LANE_LOSS_CNT p.val) + 1) 0xFFFFFFFF := by
  have hne : Reg.RNG_LANE_LOSS_CNT p.val ∉ [Reg.PG_IRQ_RAW (ringPage p.val)] :=
    (by decide : ∀ p : Fin 4, Reg.RNG_LANE_LOSS_CNT p.val ∉ [Reg.PG_IRQ_RAW (ringPage p.val)]) p
  refine Eq.trans ?_ (rdN_lossCounted s p l lock)
  unfold State.lossRaised
  split
  · exact (event_signals _ _ _ _).1.rdN hne
  · exact (alarm_signals _ _ _ _).1.rdN hne

theorem laneLoss_clause {s : State} {p : Fin 4} {l : Lane} {lock : Bool} (h1 : s.ringOn = true)
    (h : l = .b → s.pstate p.val = psDown → s.laneUp p.val .a = false) {t : State}
    (ht : t = (s.lossRaised p.val l lock).laneFail p.val l (lossCause lock)) :
    t.lstate p.val l = lsFail ∧ t.fld (laneReg p.val l) 15 12 = (if lock then 5 else 4) ∧ t.bit (laneReg p.val l) 4 = false ∧
      t.rdN (Reg.RNG_LANE_LOSS_CNT p.val) = min (s.rdN (Reg.RNG_LANE_LOSS_CNT p.val) + 1) 0xFFFFFFFF ∧
      (⟨Page.RNG p.val, 1, s.portRed p.val != 0, (if lock then 5 else 4), s.now⟩ : Raising) ∈ t.evt.raisings ∧ s.SameMemory t := by
  have hr := lossRaised_raises (ringOn_clocked h1) p l lock
  have hc : lossCause lock < 16 := by cases lock <;> decide
  obtain ⟨hshow, hn, htold, hmem⟩ := countedFail_clause hc ((by decide : ∀ p : Fin 4, Reg.RNG_LANE_LOSS_CNT p.val ∉ laneRegs p.val) p)
    hr.lanes (rdN_lossRaised s p l lock) h ht
  refine ⟨hshow.lstate, hshow.cause, hshow.bypass, hn, htold ?_, hmem⟩
  rw [hr.2]
  exact List.mem_append_right _ (List.mem_singleton.mpr rfl)

/-! ### The obligation -/

/-- Settles O49: each event changes the one lane it names, and what then follows of the port and the other lane leaves that lane as it is. -/
theorem laneStates : Obligations.LaneStates := by
  have htrain : ∀ p : Fin 4, Reg.RNG_TRAIN_FAIL_CNT p.val ∉ laneRegs p.val := by decide
  have hjoin : ∀ p : Fin 4, Reg.RNG_JOIN_FAIL_CNT p.val ∉ laneRegs p.val := by decide
  refine ⟨?_, ?_, ?_, ?_, ?_, ?_, ?_, ?_, ?_, ?_, ?_⟩
  · intro s p h1 h2 h3 h4
    exact ⟨_, rfl, trainPassed_clause h1 h2 h3 h4 rfl⟩
  · intro s p l h1 h2 h3 h
    exact ⟨_, rfl, timeout_clause (by decide) (htrain p) h (trainTimeout_eq h1 h2 h3)⟩
  · intro s p l h1 h2
    exact ⟨_, rfl, bypassSettled_clause h1 h2 rfl⟩
  · intro s p l h1 h2 h3
    exact ⟨_, rfl, joinPassed_clause h1 h2 h3 rfl⟩
  · intro s p l h1 h2 h
    exact ⟨_, rfl, timeout_clause (by decide) (hjoin p) h (joinTimeout_eq h1 h2)⟩
  · intro s p sent ret turn h1 h2
    refine ⟨_, congrArg Host.Outcome.next (markerBack_eq h1 h2 sent ret turn), ?_, rfl⟩
    rw [rp_setRp_self]
  · intro s p ingress egress h1 h2 h3
    refine ⟨_, congrArg Host.Outcome.next (markerArrived_eq h1 h2 h3 ingress egress), ?_, rfl⟩
    rw [rp_setRp_self]
  · intro s p loss h1 h2 h3
    exact ⟨_, rfl, measureDone_clause (measureDone_eq h1 h2 h3 loss)⟩
  · intro s p l h1 h2 h
    exact ⟨_, rfl, timeout_clause (by decide) (hjoin p) h (measureTimeout_eq h1 h2)⟩
  · intro s p l lock h1 h2 h
    exact ⟨_, rfl, laneLoss_clause h1 h (laneLoss_eq h1 h2 lock)⟩
  · intro s p l h1 h2
    exact ⟨_, rfl, linkRetry_clause h1 h2 rfl⟩

end Sys2Proof.Machine
end

section
/-! SUPPORT. Feedback channels: the records of the pins, the axes that read a channel, and the frame of what a channel does by itself
(O50). -/

namespace Sys2Proof.Machine

/-! ### Records of the pins -/

@[simp] theorem encRt_setEncRt_self (s : State) (e : Nat) (x : EncRt) : (s.setEncRt e x).encRt e = x := Tab.get_set_self _ _ _ _
@[simp] theorem hallRt_setHallRt_self (s : State) (h : Nat) (x : HallRt) : (s.setHallRt h x).hallRt h = x := Tab.get_set_self _ _ _ _
@[simp] theorem ssiRt_setSsiRt_self (s : State) (c : Nat) (x : SsiRt) : (s.setSsiRt c x).ssiRt c = x := Tab.get_set_self _ _ _ _
@[simp] theorem laxRt_setLaxRt_self (s : State) (n : Nat) (x : LaxRt) : (s.setLaxRt n x).laxRt n = x := Tab.get_set_self _ _ _ _

theorem State.Signals.fbk {s t : State} {l : List Nat} (h : s.Signals t l) : t.fbk = s.fbk := by rw [h.2]

theorem State.Signals.encRt {s t : State} {l : List Nat} (h : s.Signals t l) (e : Nat) : t.encRt e = s.encRt e := by
  unfold State.encRt; rw [h.fbk]
theorem State.Signals.hallRt {s t : State} {l : List Nat} (h : s.Signals t l) (k : Nat) : t.hallRt k = s.hallRt k := by
  unfold State.hallRt; rw [h.fbk]
theorem State.Signals.ssiRt {s t : State} {l : List Nat} (h : s.Signals t l) (c : Nat) : t.ssiRt c = s.ssiRt c := by
  unfold State.ssiRt; rw [h.fbk]
theorem State.Signals.laxRt {s t : State} {l : List Nat} (h : s.Signals t l) (n : Nat) : t.laxRt n = s.laxRt n := by
  unfold State.laxRt; rw [h.fbk]

/-! ### Signed and 64-bit registers -/

theorem rdI64_wrI64 (s : State) (a : Nat) (i : Int) : (s.wrI64 a i).rdI64 a = signedOf 64 (wrapTo 64 i) := by
  unfold State.rdI64
  rw [rd64_wrI64]

theorem rdN_wr64_low (s : State) (a n : Nat) : (s.wr64 a n).rdN a = n % 4294967296 :=
  (rdN_of_rd (rd_wrN_ne (by omega) _ _)).trans (rdN_wrN_self _ _ _)

theorem rdN_wr64_high (s : State) (a n : Nat) : (s.wr64 a n).rdN (a + 4) = n / 4294967296 % 4294967296 := rdN_wrN_self _ _ _

/-! ### The axes that read a channel, rules R291 and R292 -/

section
variable {s t : State} {l : List Nat} (h : s.SameRegs t l) (hl : ∀ a ∈ l, a < 0x40080000)
include h hl

/-- The pages of axes, local and other, start at 0x40080000. -/
theorem rd_of_low {a : Nat} (ha : 0x40080000 ≤ a) : t.rd a = s.rd a := h a (fun hm => absurd (hl a hm) (Nat.not_lt.mpr ha))

theorem axisEn_of_low (a : Nat) : t.axisEn a = s.axisEn a := bit_of_rd (rd_of_low h hl (by simp only [Reg.PRF_CTRL]; omega)) 0

theorem srcType_of_low (n : Nat) : t.srcType n = s.srcType n := fld_of_rd (rd_of_low h hl (by simp only [Reg.LAX_CFG]; omega)) 1 0

theorem srcCh_of_low (n : Nat) : t.srcCh n = s.srcCh n := fld_of_rd (rd_of_low h hl (by simp only [Reg.LAX_CFG]; omega)) 7 4

theorem readers_of_low (ty ch : Nat) : t.readers ty ch = s.readers ty ch := by
  simp only [State.readers, axisEn_of_low h hl, srcType_of_low h hl, srcCh_of_low h hl]

end

theorem lt_of_mem_bound {s : State} {ty ch n : Nat} (h : n ∈ s.bound ty ch) : n < 16 := List.mem_range.mp (List.mem_filter.mp h).1

theorem pastEdge_of_same {s t : State} {l : List Nat} (h : s.SameRegs t l) (h1 : Reg.QTZ_LAST_TICK ∉ l) (h2 : Reg.QTZ_LAST_TICK + 4 ∉ l)
    (x : Nat) : t.pastEdge x = s.pastEdge x := by
  unfold State.pastEdge
  rw [rd64_of_same h h1 h2]

/-! ### The frame of what a channel does by itself -/

/-- Nothing differs but the registers of `l`, what the pins keep, and the event unit with its messages, and no raising is lost. -/
structure State.PinsFrame (s t : State) (l : List Nat) : Prop where
  regs : s.SameRegs t l
  rest : t = { s with regs := t.regs, fbk := t.fbk, evt := t.evt, msix := t.msix, plant := t.plant }
  raisings : s.evt.raisings ⊆ t.evt.raisings

theorem State.PinsFrame.refl (s : State) (l : List Nat) : s.PinsFrame s l := ⟨fun _ _ => rfl, rfl, List.Subset.refl _⟩

theorem State.PinsFrame.trans {s t u : State} {l m : List Nat} (h : s.PinsFrame t l) (k : t.PinsFrame u m) : s.PinsFrame u (l ++ m) := by
  refine ⟨h.regs.trans k.regs, ?_, List.Subset.trans h.raisings k.raisings⟩
  rw [k.rest, h.rest]

theorem State.PinsFrame.mono {s t : State} {l m : List Nat} (h : s.PinsFrame t l) (k : ∀ a ∈ l, a ∈ m) : s.PinsFrame t m :=
  ⟨h.regs.mono k, h.rest, h.raisings⟩

theorem State.PinsFrame.memory {s t : State} {l : List Nat} (h : s.PinsFrame t l) : s.SameMemory t := by
  rw [h.rest]; exact ⟨rfl, rfl, rfl, rfl, rfl⟩

theorem State.Raises.pins {s t : State} {l : List Nat} {r : List Raising} (h : s.Raises t l r) : s.PinsFrame t l := by
  refine ⟨h.1, by rw [h.2], ?_⟩
  rw [h.2]
  exact List.subset_append_left _ _

theorem State.Writes.pins {s t : State} {l : List Nat} (h : s.Writes t l) : s.PinsFrame t l := h.raises.pins

theorem setEncRt_pins (s : State) (e : Nat) (x : EncRt) : s.PinsFrame (s.setEncRt e x) [] := ⟨fun _ _ => rfl, rfl, List.Subset.refl _⟩
theorem setHallRt_pins (s : State) (h : Nat) (x : HallRt) : s.PinsFrame (s.setHallRt h x) [] :=
  ⟨fun _ _ => rfl, rfl, List.Subset.refl _⟩
theorem setSsiRt_pins (s : State) (c : Nat) (x : SsiRt) : s.PinsFrame (s.setSsiRt c x) [] := ⟨fun _ _ => rfl, rfl, List.Subset.refl _⟩
theorem setLaxRt_pins (s : State) (n : Nat) (x : LaxRt) : s.PinsFrame (s.setLaxRt n x) [] := ⟨fun _ _ => rfl, rfl, List.Subset.refl _⟩

theorem report_pins (s : State) (p b : Nat) (al : Bool) (d : Word) : s.PinsFrame (s.report p b al d) [] := by
  have h := report_signals s p b al d
  exact ⟨h.1, by rw [h.2], (report_lanes s p b al d).raisings⟩

theorem event_pins (s : State) (p b : Nat) (d : Word) : s.PinsFrame (s.event p b d) [Reg.PG_IRQ_RAW p] :=
  (raiseLine_raises s p b).pins.trans (report_pins _ p b false d)

theorem alarm_pins (s : State) (p b : Nat) (d : Word) : s.PinsFrame (s.alarm p b d) [Reg.PG_IRQ_RAW p] :=
  (raiseLine_raises s p b).pins.trans (report_pins _ p b true d)

/-! ### A fault of a channel is told to axes, rules R295 and R297 -/

/-- Bit `i` of LAX_STAT is set and alarm `b` raised at an axis. -/
def State.axisFault (i b n : Nat) (s : State) : State := (s.setBit (Reg.LAX_STAT n) i true).alarm (Page.LAX n) b 0

/-- The registers in which a fault told to axes may show. -/
def axisFaultRegs : List Nat := (List.range 16).flatMap (fun n => [Reg.LAX_STAT n, Reg.PG_IRQ_RAW (Page.LAX n)])

theorem notMem_axisFaultRegs {a : Nat} (h : a < 0x40080000) : a ∉ axisFaultRegs := by
  have k : ∀ a ∈ axisFaultRegs, 0x40080000 ≤ a := by decide
  exact fun hm => absurd (k a hm) (Nat.not_le.mpr h)

theorem axisFault_pins {n : Nat} (hn : n < 16) (s : State) (i b : Nat) : s.PinsFrame (s.axisFault i b n) axisFaultRegs :=
  ((setBit_writes _ _ _ _).pins.trans (alarm_pins _ _ _ _)).mono fun _ ha =>
    List.mem_flatMap.mpr ⟨n, List.mem_range.mpr hn, ha⟩

theorem axisFault_encRt (s : State) (i b n e : Nat) : (s.axisFault i b n).encRt e = s.encRt e :=
  ((setBit_writes _ _ _ _).signals.trans (alarm_signals _ _ _ _)).encRt e

theorem axisFaults_pins {l : List Nat} (hl : ∀ n ∈ l, n < 16) (s : State) (i b : Nat) :
    s.PinsFrame (forEach (State.axisFault i b) l s) axisFaultRegs :=
  forEach_keeps (P := fun t => s.PinsFrame t axisFaultRegs)
    (fun n hn t h => (h.trans (axisFault_pins (hl n hn) t i b)).mono (by simp)) (.refl s _)

theorem axisFaults_encRt (l : List Nat) (s : State) (i b e : Nat) : (forEach (State.axisFault i b) l s).encRt e = s.encRt e :=
  forEach_invariant (P := fun t => t.encRt e = s.encRt e) (fun n t h => (axisFault_encRt t i b n e).trans h) l s rfl

/-- A fault bit set at one axis stays set at every other. -/
theorem bit_axisFault {i : Nat} (hi : i < 32) (s : State) (b n m : Nat) :
    (s.axisFault i b n).bit (Reg.LAX_STAT m) i = (decide (m = n) || s.bit (Reg.LAX_STAT m) i) := by
  have hraw : Reg.LAX_STAT m ≠ Reg.PG_IRQ_RAW (Page.LAX n) := by simp only [Reg.LAX_STAT, Reg.PG_IRQ_RAW, Page.LAX]; omega
  refine (bit_of_rd (rd_alarm hraw _ b 0) i).trans ?_
  by_cases h : m = n
  · subst h
    simp [hi]
  · have hne : Reg.LAX_STAT m ≠ Reg.LAX_STAT n := by simp only [Reg.LAX_STAT]; omega
    simp [h, bit_of_rd (rd_setBit_ne hne s i true)]

theorem bit_axisFaults {i : Nat} (hi : i < 32) (b m : Nat) (l : List Nat) : ∀ s : State,
    (forEach (State.axisFault i b) l s).bit (Reg.LAX_STAT m) i = (decide (m ∈ l) || s.bit (Reg.LAX_STAT m) i) := by
  induction l with
  | nil => intro s; simp [forEach]
  | cons n l ih =>
    intro s
    rw [forEach, ih, bit_axisFault hi]
    by_cases hm : m = n <;> simp [hm]

end Sys2Proof.Machine
end

section
/-! SUPPORT. Edges of an incremental input: counts and quadrature errors (O50). -/

namespace Sys2Proof.Machine

/-! ### Edges of A and B, rule R294 -/

/-- The accepted levels of A and B as the channel shows them. -/
def State.showLevels (s : State) (e : Nat) (a b : Bool) : State := (s.setBit (Reg.FBK_ENC_STAT e) 0 a).setBit (Reg.FBK_ENC_STAT e) 1 b

theorem showLevels_writes (s : State) (e : Nat) (a b : Bool) : s.Writes (s.showLevels e a b) [Reg.FBK_ENC_STAT e] :=
  ((setBit_writes _ _ _ _).trans (setBit_writes _ _ _ _)).mono (by simp)

theorem bit0_showLevels (s : State) (e : Nat) (a b : Bool) : (s.showLevels e a b).bit (Reg.FBK_ENC_STAT e) 0 = a := by
  simp [State.showLevels, bit_setBit]

theorem bit1_showLevels (s : State) (e : Nat) (a b : Bool) : (s.showLevels e a b).bit (Reg.FBK_ENC_STAT e) 1 = b := by
  simp [State.showLevels]

/-- The channel's own part of a count. -/
def State.channelCount (s : State) (e : Nat) (d : Int) (t : Nat) : State :=
  (s.wrI64 (Reg.FBK_ENC_CNT e) (s.rdI64 (Reg.FBK_ENC_CNT e) + d)).setEncRt e
    { s.encRt e with edges := s.noteEdge (s.encRt e).edges t (s.rdI64 (Reg.FBK_ENC_CNT e) + d) (sgn d) }

theorem channelCount_pins (s : State) (e : Nat) (d : Int) (t : Nat) :
    s.PinsFrame (s.channelCount e d t) [Reg.FBK_ENC_CNT e, Reg.FBK_ENC_CNT e + 4] :=
  (wrI64_writes _ _ _).pins.trans (setEncRt_pins _ _ _)

theorem rdI64_channelCount (s : State) (e : Nat) (d : Int) (t : Nat) :
    (s.channelCount e d t).rdI64 (Reg.FBK_ENC_CNT e) = signedOf 64 (wrapTo 64 (s.rdI64 (Reg.FBK_ENC_CNT e) + d)) :=
  (rdI64_of_same (setEncRt_pins _ _ _).regs List.not_mem_nil List.not_mem_nil).trans (rdI64_wrI64 _ _ _)

theorem encCount_eq (s : State) (e : Nat) (d : Int) (t : Nat) :
    s.encCount e d t = (forEach (fun n v => v.laxCompare n (s.rdI64 (Reg.FBK_ENC_CNT e)) (s.rdI64 (Reg.FBK_ENC_CNT e) + d) t)
      (s.readers 1 e) (s.channelCount e d t)).when (s.pastEdge t) (fun v => v.lateCount e) := rfl

theorem encoderEdge_count {s : State} {e : Nat} {a b : Bool} {d : Int} (ht : s.timed = true) (he : s.encEn e = true)
    (hs : encStep (s.fld (Reg.FBK_ENC e) 2 1) (s.bit (Reg.FBK_ENC_STAT e) 0) (s.bit (Reg.FBK_ENC_STAT e) 1) a b = some d) (hd : d ≠ 0)
    (t : Nat) : s.encoderEdge e a b t = (s.showLevels e a b).encCount e (if s.bit (Reg.FBK_ENC e) 3 then -d else d) t := by
  simp only [State.encoderEdge, ht, he, hs, Bool.not_true, Bool.false_eq_true, if_false, State.showLevels]

theorem encoderEdge_qerr {s : State} {e : Nat} {a b : Bool} (ht : s.timed = true) (he : s.encEn e = true)
    (hs : encStep (s.fld (Reg.FBK_ENC e) 2 1) (s.bit (Reg.FBK_ENC_STAT e) 0) (s.bit (Reg.FBK_ENC_STAT e) 1) a b = none)
    (t : Nat) : s.encoderEdge e a b t = (s.showLevels e a b).qerr e := by
  simp only [State.encoderEdge, ht, he, hs, Bool.not_true, Bool.false_eq_true, if_false, State.showLevels]

/-- In QUAD a move by two places counts in neither direction. -/
theorem encStep_quad_opposite {mode : Nat} {a0 b0 a b : Bool} (hm : mode = 0) (h : (quadPhase a b + 4 - quadPhase a0 b0) % 4 = 2) :
    encStep mode a0 b0 a b = none := by
  subst hm
  simp only [encStep, h]

theorem rd_qerr {a : Nat} (h : a ≠ Reg.PG_IRQ_RAW Page.FBK) (s : State) (e : Nat) :
    (s.qerr e).rd a = ((s.setBit (Reg.FBK_ENC_STAT e) 4 true).inc (Reg.FBK_QERR_CNT e)).rd a :=
  (rd_event h _ _ _).trans ((setEncRt_pins _ _ _).regs _ List.not_mem_nil)

theorem qerr_pins (s : State) (e : Nat) :
    s.PinsFrame (s.qerr e) [Reg.FBK_ENC_STAT e, Reg.FBK_QERR_CNT e, Reg.PG_IRQ_RAW Page.FBK] :=
  (((setBit_writes _ _ _ _).trans (inc_writes _ _)).pins.trans (setEncRt_pins _ _ _)).trans (event_pins _ _ _ _)

theorem encoderCount_clause {s : State} {e : Fin 16} {a b : Bool} {stamp : Nat} {d : Int} (ht : s.timed = true)
    (he : s.encEn e.val = true)
    (hs : encStep (s.fld (Reg.FBK_ENC e.val) 2 1) (s.bit (Reg.FBK_ENC_STAT e.val) 0) (s.bit (Reg.FBK_ENC_STAT e.val) 1) a b = some d)
    (hd : d ≠ 0) : ∃ u : State,
      u.bit (Reg.FBK_ENC_STAT e.val) 0 = a ∧ u.bit (Reg.FBK_ENC_STAT e.val) 1 = b ∧
      u.rdI64 (Reg.FBK_ENC_CNT e.val) =
        signedOf 64 (wrapTo 64 (s.rdI64 (Reg.FBK_ENC_CNT e.val) + (if s.bit (Reg.FBK_ENC e.val) 3 then -d else d))) ∧
      s.SameRegs u [Reg.FBK_ENC_STAT e.val, Reg.FBK_ENC_CNT e.val, Reg.FBK_ENC_CNT e.val + 4] ∧ s.SameMemory u ∧
      s.encoderEdge e.val a b stamp = (forEach (fun n v => v.laxCompare n (s.rdI64 (Reg.FBK_ENC_CNT e.val))
          (s.rdI64 (Reg.FBK_ENC_CNT e.val) + (if s.bit (Reg.FBK_ENC e.val) 3 then -d else d)) stamp) (s.readers 1 e.val) u).when
        (s.pastEdge stamp) (fun v => v.lateCount e.val) := by
  have hw := showLevels_writes s e.val a b
  have hstat := (by decide : ∀ e : Fin 16, Reg.FBK_ENC_STAT e.val ∉ [Reg.FBK_ENC_CNT e.val, Reg.FBK_ENC_CNT e.val + 4]) e
  have hothers := (by decide : ∀ e : Fin 16, ∀ r ∈ [Reg.FBK_ENC_CNT e.val, Reg.FBK_ENC_CNT e.val + 4, Reg.QTZ_LAST_TICK,
    Reg.QTZ_LAST_TICK + 4], r ∉ [Reg.FBK_ENC_STAT e.val]) e
  have hcnt : (s.showLevels e.val a b).rdI64 (Reg.FBK_ENC_CNT e.val) = s.rdI64 (Reg.FBK_ENC_CNT e.val) :=
    rdI64_of_same hw.1 (hothers _ (by simp)) (hothers _ (by simp))
  have hlow := (by decide : ∀ e : Fin 16, ∀ r ∈ [Reg.FBK_ENC_STAT e.val], r < 0x40080000) e
  rw [encoderEdge_count ht he hs hd]
  generalize (if s.bit (Reg.FBK_ENC e.val) 3 then -d else d) = x
  have hc := channelCount_pins (s.showLevels e.val a b) e.val x stamp
  refine ⟨(s.showLevels e.val a b).channelCount e.val x stamp, (hc.regs.bit hstat 0).trans (bit0_showLevels s e.val a b),
    (hc.regs.bit hstat 1).trans (bit1_showLevels s e.val a b), ?_, hw.1.trans hc.regs, hw.signals.memory.trans hc.memory, ?_⟩
  · rw [rdI64_channelCount, hcnt]
  · rw [encCount_eq, hcnt, readers_of_low hw.1 hlow, pastEdge_of_same hw.1 (hothers _ (by simp)) (hothers _ (by simp))]

theorem quadratureError_clause (s : State) (e : Fin 16) (a b : Bool) {t : State} (ht : t = (s.showLevels e.val a b).qerr e.val) :
    t.bit (Reg.FBK_ENC_STAT e.val) 0 = a ∧ t.bit (Reg.FBK_ENC_STAT e.val) 1 = b ∧ t.bit (Reg.FBK_ENC_STAT e.val) 4 = true ∧
      t.rdN (Reg.FBK_QERR_CNT e.val) = min (s.rdN (Reg.FBK_QERR_CNT e.val) + 1) 0xFFFFFFFF ∧
      s.SameRegs t [Reg.FBK_ENC_STAT e.val, Reg.FBK_QERR_CNT e.val, Reg.PG_IRQ_RAW Page.FBK] ∧ s.SameMemory t := by
  have hw := showLevels_writes s e.val a b
  have hq := qerr_pins (s.showLevels e.val a b) e.val
  have hraw := (by decide : ∀ e : Fin 16, ∀ r ∈ [Reg.FBK_ENC_STAT e.val, Reg.FBK_QERR_CNT e.val], r ≠ Reg.PG_IRQ_RAW Page.FBK) e
  have hne := (by decide : ∀ e : Fin 16, Reg.FBK_ENC_STAT e.val ≠ Reg.FBK_QERR_CNT e.val) e
  have hrd : t.rd (Reg.FBK_ENC_STAT e.val) =
      ((s.showLevels e.val a b).setBit (Reg.FBK_ENC_STAT e.val) 4 true).rd (Reg.FBK_ENC_STAT e.val) := by
    rw [ht]
    exact (rd_qerr (hraw _ (by simp)) _ _).trans (rd_inc_ne hne _)
  have hbit : ∀ i, i ≠ 4 → t.bit (Reg.FBK_ENC_STAT e.val) i = (s.showLevels e.val a b).bit (Reg.FBK_ENC_STAT e.val) i := by
    intro i hi
    rw [bit_of_rd hrd, bit_setBit (by decide), if_neg hi]
  refine ⟨(hbit 0 (by decide)).trans (bit0_showLevels s e.val a b), (hbit 1 (by decide)).trans (bit1_showLevels s e.val a b),
    (bit_of_rd hrd 4).trans (bit_setBit_self (by decide) _ _ _), ?_, ?_, ?_⟩
  · rw [ht, rdN_of_rd (rd_qerr (hraw _ (by simp)) _ _), rdN_inc, rdN_of_rd (rd_setBit_ne hne.symm _ _ _), hw.1.rdN (by simp)]
  · rw [ht]
    exact (hw.1.trans hq.regs).mono (by simp)
  · rw [ht]
    exact hw.signals.memory.trans hq.memory

end Sys2Proof.Machine
end

section
/-! SUPPORT. Index latches and line faults of an incremental input (O50). -/

namespace Sys2Proof.Machine

/-! ### The index, rules R296 and R297 -/

/-- The registers in which the check of an index latch may show. -/
abbrev idxCheckRegs (e : Nat) : List Nat :=
  [Reg.FBK_IDX_DEVN e, Reg.FBK_ENC_STAT e, Reg.FBK_IDX_DEV_CNT e, Reg.PG_IRQ_RAW Page.FBK] ++ axisFaultRegs

theorem encStat_notMem_axisFaultRegs (e : Fin 16) : Reg.FBK_ENC_STAT e.val ∉ axisFaultRegs :=
  notMem_axisFaultRegs ((by decide : ∀ e : Fin 16, Reg.FBK_ENC_STAT e.val < 0x40080000) e)

/-- What the check of an index latch leaves: the level of Z and the first latch of the tick, and all but its registers. -/
structure State.IdxChecked (s t : State) (e : Nat) : Prop where
  pins : s.PinsFrame t (idxCheckRegs e)
  level : t.bit (Reg.FBK_ENC_STAT e) 2 = s.bit (Reg.FBK_ENC_STAT e) 2
  first : (t.encRt e).first = (s.encRt e).first

theorem State.IdxChecked.refl (s : State) (e : Nat) : s.IdxChecked s e := ⟨.refl s _, rfl, rfl⟩

theorem State.IdxChecked.trans {s t u : State} {e : Nat} (h : s.IdxChecked t e) (k : t.IdxChecked u e) : s.IdxChecked u e :=
  ⟨(h.pins.trans k.pins).mono fun _ ha => (List.mem_append.mp ha).elim id id, k.level.trans h.level, k.first.trans h.first⟩

/-- The channel's own part of an index fault. -/
def State.channelIdxDev (s : State) (e : Nat) : State :=
  (((s.setBit (Reg.FBK_ENC_STAT e) 6 true).inc (Reg.FBK_IDX_DEV_CNT e)).setEncRt e { s.encRt e with fault := true }).alarm Page.FBK 2 0

theorem idxDev_eq (s : State) (e : Nat) : s.idxDev e = forEach (State.axisFault 3 1) (s.bound 1 e) (s.channelIdxDev e) := rfl

theorem idxDev_checked (s : State) (e : Fin 16) : s.IdxChecked (s.idxDev e.val) e.val := by
  have hw := (setBit_writes s (Reg.FBK_ENC_STAT e.val) 6 true).trans (inc_writes _ (Reg.FBK_IDX_DEV_CNT e.val))
  have hc : s.PinsFrame (s.channelIdxDev e.val) [Reg.FBK_ENC_STAT e.val, Reg.FBK_IDX_DEV_CNT e.val, Reg.PG_IRQ_RAW Page.FBK] :=
    (hw.pins.trans (setEncRt_pins _ _ _)).trans (alarm_pins _ _ _ _)
  have ha := axisFaults_pins (fun n hn => lt_of_mem_bound hn) (s.channelIdxDev e.val) 3 1 (l := s.bound 1 e.val)
  rw [idxDev_eq]
  refine ⟨(hc.trans ha).mono (List.subset_cons_self _ _), ?_, ?_⟩
  · have hraw := (by decide : ∀ e : Fin 16, Reg.FBK_ENC_STAT e.val ≠ Reg.PG_IRQ_RAW Page.FBK) e
    have hcnt := (by decide : ∀ e : Fin 16, Reg.FBK_ENC_STAT e.val ≠ Reg.FBK_IDX_DEV_CNT e.val) e
    calc (forEach (State.axisFault 3 1) (s.bound 1 e.val) (s.channelIdxDev e.val)).bit (Reg.FBK_ENC_STAT e.val) 2
        = (s.channelIdxDev e.val).bit (Reg.FBK_ENC_STAT e.val) 2 := ha.regs.bit (encStat_notMem_axisFaultRegs e) 2
      _ = ((s.setBit (Reg.FBK_ENC_STAT e.val) 6 true).inc (Reg.FBK_IDX_DEV_CNT e.val)).bit (Reg.FBK_ENC_STAT e.val) 2 :=
        bit_of_rd (rd_alarm hraw _ _ _) 2
      _ = (s.setBit (Reg.FBK_ENC_STAT e.val) 6 true).bit (Reg.FBK_ENC_STAT e.val) 2 := bit_of_rd (rd_inc_ne hcnt _) 2
      _ = s.bit (Reg.FBK_ENC_STAT e.val) 2 := by simp [bit_setBit]
  · rw [axisFaults_encRt, State.channelIdxDev, (alarm_signals _ _ _ _).encRt, encRt_setEncRt_self]

/-- A latch's deviation as the channel shows it. -/
def State.showDeviation (s : State) (e : Nat) (dev : Int) (bad : Bool) : State :=
  (s.wrI (Reg.FBK_IDX_DEVN e) dev).setEncRt e { s.encRt e with devBad := bad }

theorem showDeviation_checked (s : State) (e : Fin 16) (dev : Int) (bad : Bool) : s.IdxChecked (s.showDeviation e.val dev bad) e.val := by
  have hw : s.Writes (s.wrI (Reg.FBK_IDX_DEVN e.val) dev) [Reg.FBK_IDX_DEVN e.val] := wr_writes _ _ _
  have hstat := (by decide : ∀ e : Fin 16, Reg.FBK_ENC_STAT e.val ∉ [Reg.FBK_IDX_DEVN e.val]) e
  exact ⟨(hw.pins.trans (setEncRt_pins _ _ _)).mono (by simp), hw.1.bit hstat 2, by rw [State.showDeviation, encRt_setEncRt_self]⟩

theorem idxCheck_checked (s : State) (e : Fin 16) (c : Int) : s.IdxChecked (s.idxCheck e.val c) e.val := by
  unfold State.idxCheck
  dsimp only
  split
  · exact .refl s _
  split
  · exact .refl s _
  split
  · exact (showDeviation_checked s e _ _).trans (idxDev_checked _ e)
  · exact showDeviation_checked s e _ _

/-- A rising index edge as the channel latches and checks it, before its place in the tick is judged. -/
def State.idxLatched (s : State) (e : Nat) : State :=
  let c := s.rdI64 (Reg.FBK_ENC_CNT e)
  let u := ((s.setBit (Reg.FBK_ENC_STAT e) 2 true).wrI64 (Reg.FBK_IDX_CNT e) c).idxCheck e c
  u.setEncRt e { u.encRt e with prev := some c }

theorem indexEdge_latches {s : State} {e : Nat} (ht : s.timed = true) (he : s.encEn e = true) (hz : s.bit (Reg.FBK_ENC e) 8 = true)
    (hinv : s.bit (Reg.FBK_ENC e) 9 = false) (hgate : s.bit (Reg.FBK_ENC e) 10 = false) (hlow : s.bit (Reg.FBK_ENC_STAT e) 2 = false)
    (t : Nat) : s.indexEdge e true t = (s.idxLatched e).firstLatch e (s.rdI64 (Reg.FBK_ENC_CNT e)) t := by
  simp [State.indexEdge, State.idxLatched, ht, he, hz, hinv, hgate, hlow]

theorem idxLatched_clause (s : State) (e : Fin 16) :
    (s.idxLatched e.val).rdI64 (Reg.FBK_IDX_CNT e.val) = s.rdI64 (Reg.FBK_ENC_CNT e.val) ∧
      (s.idxLatched e.val).bit (Reg.FBK_ENC_STAT e.val) 2 = true ∧
      ((s.idxLatched e.val).encRt e.val).prev = some (s.rdI64 (Reg.FBK_ENC_CNT e.val)) ∧
      ((s.idxLatched e.val).encRt e.val).first = (s.encRt e.val).first ∧ s.SameMemory (s.idxLatched e.val) := by
  have hz := setBit_writes s (Reg.FBK_ENC_STAT e.val) 2 true
  have hw := wrI64_writes (s.setBit (Reg.FBK_ENC_STAT e.val) 2 true) (Reg.FBK_IDX_CNT e.val) (s.rdI64 (Reg.FBK_ENC_CNT e.val))
  have hc := idxCheck_checked ((s.setBit (Reg.FBK_ENC_STAT e.val) 2 true).wrI64 (Reg.FBK_IDX_CNT e.val) (s.rdI64 (Reg.FBK_ENC_CNT e.val)))
    e (s.rdI64 (Reg.FBK_ENC_CNT e.val))
  have hstat := (by decide : ∀ e : Fin 16, Reg.FBK_ENC_STAT e.val ∉ [Reg.FBK_IDX_CNT e.val, Reg.FBK_IDX_CNT e.val + 4]) e
  have hidx := (by decide : ∀ e : Fin 16, Reg.FBK_IDX_CNT e.val ∉ idxCheckRegs e.val) e
  have hidx4 := (by decide : ∀ e : Fin 16, Reg.FBK_IDX_CNT e.val + 4 ∉ idxCheckRegs e.val) e
  refine ⟨?_, ?_, ?_, ?_, (hz.trans hw).signals.memory.trans hc.pins.memory⟩
  · exact (rdI64_of_same hc.pins.regs hidx hidx4).trans (rdI64_wrI64_rdI64 _ _ _ _)
  · exact (hc.level.trans (hw.1.bit hstat 2)).trans (bit_setBit_self (by decide) _ _ _)
  · exact congrArg EncRt.prev (encRt_setEncRt_self _ _ _)
  · exact (congrArg EncRt.first (encRt_setEncRt_self _ _ _)).trans
      (hc.first.trans (congrArg EncRt.first ((hz.trans hw).signals.encRt e.val)))

theorem firstLatch_present {s : State} {e : Nat} {c : Int} {t : Nat} (hp : s.pastEdge t = false) (hf : (s.encRt e).first = none) :
    s.firstLatch e c t = s.setEncRt e { s.encRt e with first := some (c, t) } := by
  simp [State.firstLatch, hp, hf]

theorem indexEdge_clause {s : State} {e : Fin 16} {stamp : Nat} {u t : State} (hu : u = s.idxLatched e.val)
    (ht : t = u.firstLatch e.val (s.rdI64 (Reg.FBK_ENC_CNT e.val)) stamp) (hp : u.pastEdge stamp = false)
    (hf : (s.encRt e.val).first = none) :
    (t.encRt e.val).first = some (s.rdI64 (Reg.FBK_ENC_CNT e.val), stamp) ∧ s.SameMemory t := by
  obtain ⟨-, -, -, hfirst, hmem⟩ := idxLatched_clause s e
  rw [← hu] at hfirst hmem
  rw [firstLatch_present hp (hfirst.trans hf)] at ht
  subst ht
  exact ⟨congrArg EncRt.first (encRt_setEncRt_self _ _ _), hmem.trans (setEncRt_pins _ _ _).memory⟩

/-! ### Line faults, rule R295 -/

/-- A channel whose pins have shown a fault in this tick. -/
abbrev State.faulted (s : State) (e : Nat) : State := s.setEncRt e { s.encRt e with fault := true }

/-- The channel's own part of a line fault. -/
def State.channelWire (s : State) (e : Nat) : State :=
  (((s.faulted e).setBit (Reg.FBK_ENC_STAT e) 5 true).inc (Reg.FBK_WIRE_CNT e)).alarm Page.FBK 1 0

theorem channelWire_raises {s : State} (hc : s.clocked = true) (e : Fin 16) : (s.faulted e.val).Raises (s.channelWire e.val)
    [Reg.FBK_ENC_STAT e.val, Reg.FBK_WIRE_CNT e.val, Reg.PG_IRQ_RAW Page.FBK] [⟨Page.FBK, 1, true, 0, s.now⟩] := by
  have htime := (by decide : ∀ e : Fin 16, ∀ a ∈ [Reg.QTZ_TIME_NS, Reg.QTZ_TIME_NS + 4],
    a ∉ [Reg.FBK_ENC_STAT e.val] ++ [Reg.FBK_WIRE_CNT e.val]) e
  have hw := (setBit_writes (s.faulted e.val) (Reg.FBK_ENC_STAT e.val) 5 true).trans (inc_writes _ (Reg.FBK_WIRE_CNT e.val))
  exact hw.alarm hc (htime _ (by simp)) (htime _ (by simp)) Page.FBK 1 0

theorem wireFault_eq (s : State) (e : Nat) : s.wireFault e = forEach (State.axisFault 2 0) (s.bound 1 e) (s.channelWire e) := rfl

theorem wireFault_clause {s : State} (hc : s.clocked = true) (e : Fin 16) {t : State} (ht : t = s.wireFault e.val) :
    t.bit (Reg.FBK_ENC_STAT e.val) 5 = true ∧
      t.rdN (Reg.FBK_WIRE_CNT e.val) = min (s.rdN (Reg.FBK_WIRE_CNT e.val) + 1) 0xFFFFFFFF ∧
      (∀ n ∈ s.bound 1 e.val, t.bit (Reg.LAX_STAT n) 2 = true) ∧ (⟨Page.FBK, 1, true, 0, s.now⟩ : Raising) ∈ t.evt.raisings ∧
      s.SameMemory t := by
  have hlow := (by decide : ∀ e : Fin 16, Reg.FBK_WIRE_CNT e.val < 0x40080000) e
  have hr := channelWire_raises hc e
  have ha := axisFaults_pins (fun n hn => lt_of_mem_bound hn) (s.channelWire e.val) 2 0 (l := s.bound 1 e.val)
  have hstat := (by decide : ∀ e : Fin 16, Reg.FBK_ENC_STAT e.val ∉ [Reg.FBK_WIRE_CNT e.val]) e
  have hcnt := (by decide : ∀ e : Fin 16, Reg.FBK_WIRE_CNT e.val ≠ Reg.FBK_ENC_STAT e.val) e
  have hraw := (by decide : ∀ e : Fin 16, ∀ a ∈ [Reg.FBK_ENC_STAT e.val, Reg.FBK_WIRE_CNT e.val], a ≠ Reg.PG_IRQ_RAW Page.FBK) e
  rw [wireFault_eq] at ht
  subst ht
  refine ⟨?_, ?_, ?_, ?_, ((setEncRt_pins s _ _).memory.trans hr.pins.memory).trans ha.memory⟩
  · rw [ha.regs.bit (encStat_notMem_axisFaultRegs e), State.channelWire, bit_of_rd (rd_alarm (hraw _ (by simp)) _ _ _),
      (inc_writes _ _).1.bit hstat, bit_setBit_self (by decide)]
  · rw [ha.regs.rdN (notMem_axisFaultRegs hlow), State.channelWire, rdN_of_rd (rd_alarm (hraw _ (by simp)) _ _ _), rdN_inc,
      rdN_of_rd (rd_setBit_ne hcnt _ _ _)]
    rfl
  · intro n hn
    simp [bit_axisFaults, hn]
  · refine ha.raisings ?_
    rw [hr.2]
    exact List.mem_append_right _ (List.mem_singleton.mpr rfl)

/-- The levels of the receivers after a line fault of one of them. -/
def State.lineLow (s : State) (e line : Nat) : State :=
  s.setEncRt e { s.encRt e with low := BitVec.ofNat 3 (withBits (s.encRt e).low.toNat line line 1) }

theorem lineFault_wire {s : State} {e line : Nat} (ht : s.timed = true) (he : s.encEn e = true)
    (hl : line ≠ 2 ∨ s.bit (Reg.FBK_ENC e) 8 = true) : s.lineFault e line true = (s.lineLow e line).wireFault e := by
  simp [State.lineFault, State.lineLow, ht, he, hl, b2n]

end Sys2Proof.Machine
end

section
/-! SUPPORT. Hall sets, SSI channels and step outputs (O50). -/

namespace Sys2Proof.Machine

/-! ### Hall sets, rule R298 -/

/-- A code as a Hall set that is not enabled shows it. -/
abbrev State.showCode (s : State) (h code : Nat) : State := s.setFld (Reg.FBK_HALL_STAT h) 2 0 code

theorem fld_showCode (s : State) (h : Nat) (code : Fin 8) : (s.showCode h code.val).fld (Reg.FBK_HALL_STAT h) 2 0 = code.val :=
  (fld_setFld (by decide) (by decide) _ _ _).trans (Nat.mod_eq_of_lt code.isLt)

theorem hallSector_lt {code k : Nat} (h : hallSector code = some k) : k < 6 := by
  unfold hallSector at h
  split at h <;> cases h
  all_goals decide

/-- A set's own part of a transition to the next sector `k`. -/
def State.hallNext (s : State) (h code k t : Nat) : State :=
  ((s.showCode h code).setFld (Reg.FBK_HALL_STAT h) 6 4 k).setHallRt h
    { s.hallRt h with
      sector := some k
      count := (s.hallRt h).count + 1
      edges := s.noteEdge (s.hallRt h).edges t ((s.hallRt h).count + 1) 1 }

theorem hallTransition_next {s : State} {h code k k0 : Nat} (ht : s.timed = true) (he : s.bit (Reg.FBK_HALL h) 0 = true)
    (hinv : s.bit (Reg.FBK_HALL h) 1 = false) (hk : hallSector code = some k) (hk0 : (s.hallRt h).sector = some k0)
    (hd : (k + 6 - k0) % 6 = 1) (t : Nat) :
    s.hallTransition h code t = (forEach (fun n v => v.laxCompare n (s.hallRt h).count ((s.hallRt h).count + 1) t) (s.readers 2 h)
      (s.hallNext h code k t)).when (s.pastEdge t) (fun v => forEach (fun n w => w.resample n) (v.readers 2 h) v) := by
  have hs : (s.showCode h code).hallRt h = s.hallRt h := rfl
  have hne : k ≠ k0 := by omega
  have hstep : hallStep k0 k = (1, false, false) := by simp only [hallStep, hd]
  simp [State.hallTransition, ht, he, hinv, hk, hs, hk0, hstep, hne, State.hallNext, sgn]

theorem hallTransition_invalid {s : State} {h code : Nat} (ht : s.timed = true) (he : s.bit (Reg.FBK_HALL h) 0 = true)
    (hk : hallSector code = none) (t : Nat) :
    s.hallTransition h code t = ((s.showCode h code).hallErr h).inc (Reg.FBK_HALL_ERR_CNT h) := by
  simp only [State.hallTransition, ht, he, hk, Bool.not_true, Bool.false_eq_true, if_false]

theorem hallTransition_disabled {s : State} {h : Nat} (ht : s.timed = true) (he : s.bit (Reg.FBK_HALL h) 0 = false) (code t : Nat) :
    s.hallTransition h code t = s.showCode h code := by
  simp only [State.hallTransition, ht, he, Bool.not_true, Bool.not_false, Bool.false_eq_true, if_false, if_true]

theorem hallNext_clause (s : State) (h code : Fin 8) {k : Nat} (hk : k < 8) (t : Nat) :
    ((s.hallNext h.val code.val k t).hallRt h.val).count = (s.hallRt h.val).count + 1 ∧
      ((s.hallNext h.val code.val k t).hallRt h.val).sector = some k ∧
      (s.hallNext h.val code.val k t).fld (Reg.FBK_HALL_STAT h.val) 2 0 = code.val ∧
      (s.hallNext h.val code.val k t).fld (Reg.FBK_HALL_STAT h.val) 6 4 = k ∧
      s.SameRegs (s.hallNext h.val code.val k t) [Reg.FBK_HALL_STAT h.val] ∧ s.SameMemory (s.hallNext h.val code.val k t) := by
  have hw := (setFld_writes s (Reg.FBK_HALL_STAT h.val) 2 0 code.val).trans (setFld_writes _ (Reg.FBK_HALL_STAT h.val) 6 4 k)
  have hp : s.PinsFrame (s.hallNext h.val code.val k t) [Reg.FBK_HALL_STAT h.val] :=
    (hw.pins.trans (setHallRt_pins _ _ _)).mono (by simp)
  refine ⟨?_, ?_, ?_, ?_, hp.regs, hp.memory⟩
  · exact congrArg HallRt.count (hallRt_setHallRt_self _ _ _)
  · exact congrArg HallRt.sector (hallRt_setHallRt_self _ _ _)
  · exact (fld_setFld_ne (by decide) (by decide) (.inr (by decide)) _ _ _).trans (fld_showCode s h.val code)
  · exact (fld_setFld (by decide) (by decide) _ _ _).trans (Nat.mod_eq_of_lt hk)

theorem hallErr_pins (s : State) (h : Nat) : s.PinsFrame (s.hallErr h) [Reg.FBK_HALL_STAT h, Reg.PG_IRQ_RAW Page.FBK] :=
  ((setBit_writes _ _ _ _).pins.trans (setHallRt_pins _ _ _)).trans (event_pins _ _ _ _)

theorem hallErr_count (s : State) (h : Nat) : ((s.hallErr h).hallRt h).count = (s.hallRt h).count := by
  rw [State.hallErr, (event_signals _ _ _ _).hallRt, hallRt_setHallRt_self]

theorem rd_hallErr (s : State) (h : Fin 8) :
    (s.hallErr h.val).rd (Reg.FBK_HALL_STAT h.val) = (s.setBit (Reg.FBK_HALL_STAT h.val) 8 true).rd (Reg.FBK_HALL_STAT h.val) :=
  rd_event ((by decide : ∀ h : Fin 8, Reg.FBK_HALL_STAT h.val ≠ Reg.PG_IRQ_RAW Page.FBK) h) _ _ _

theorem hallInvalid_clause (s : State) (h code : Fin 8) {t : State}
    (ht : t = ((s.showCode h.val code.val).hallErr h.val).inc (Reg.FBK_HALL_ERR_CNT h.val)) :
    (t.hallRt h.val).count = (s.hallRt h.val).count ∧ t.bit (Reg.FBK_HALL_STAT h.val) 8 = true ∧
      t.fld (Reg.FBK_HALL_STAT h.val) 2 0 = code.val ∧
      t.rdN (Reg.FBK_HALL_ERR_CNT h.val) = min (s.rdN (Reg.FBK_HALL_ERR_CNT h.val) + 1) 0xFFFFFFFF ∧ s.SameMemory t := by
  have hcode := setFld_writes s (Reg.FBK_HALL_STAT h.val) 2 0 code.val
  have herr := hallErr_pins (s.showCode h.val code.val) h.val
  have hinc := inc_writes ((s.showCode h.val code.val).hallErr h.val) (Reg.FBK_HALL_ERR_CNT h.val)
  have hstat := (by decide : ∀ h : Fin 8, Reg.FBK_HALL_STAT h.val ≠ Reg.FBK_HALL_ERR_CNT h.val) h
  have hcnt := (by decide : ∀ h : Fin 8, Reg.FBK_HALL_ERR_CNT h.val ∉
    [Reg.FBK_HALL_STAT h.val] ++ [Reg.FBK_HALL_STAT h.val, Reg.PG_IRQ_RAW Page.FBK]) h
  have hrd := (rd_inc_ne hstat _).trans (rd_hallErr (s.showCode h.val code.val) h)
  subst ht
  refine ⟨?_, ?_, ?_, ?_, (hcode.signals.memory.trans herr.memory).trans hinc.signals.memory⟩
  · exact (congrArg HallRt.count (hinc.signals.hallRt h.val)).trans (hallErr_count _ _)
  · exact (bit_of_rd hrd 8).trans (bit_setBit_self (by decide) _ _ _)
  · exact ((fld_of_rd hrd 2 0).trans (fld_setFld_ne (by decide) (by decide) (.inr (by decide)) _ _ _)).trans (fld_showCode s h.val code)
  · rw [rdN_inc, (hcode.1.trans herr.regs).rdN hcnt]

/-! ### SSI channels, rules R299 and R300 -/

theorem ssiCause_lt (s : State) (c data extra raw : Nat) (idle mono : Bool) : s.ssiCause c data extra raw idle mono < 16 := by
  unfold State.ssiCause
  dsimp only
  repeat' split
  all_goals decide

/-- The frame of a tick as the channel judges it: raw value `raw`, cause 0 where it is good. -/
def State.ssiJudged (s : State) (c raw cause : Nat) : State :=
  if cause = 0 then (s.wr64 (Reg.FBK_SSI_RAW c) raw).ssiGood c raw else (s.wr64 (Reg.FBK_SSI_RAW c) raw).ssiBad c cause

theorem ssiDone_judged {s : State} {c data extra : Nat} {idle mono : Bool} {raw cause : Nat} (ht : s.timed = true)
    (he : s.bit (Reg.FBK_SSI c) 0 = true) (hd : (s.ssiRt c).done = false)
    (hraw : raw = (if s.bit (Reg.FBK_SSI c) 7 then grayToBin (data % 2 ^ s.ssiBits c) else data % 2 ^ s.ssiBits c))
    (hcause : cause = s.ssiCause c (data % 2 ^ s.ssiBits c) extra raw idle mono) :
    s.ssiDone c data extra idle mono =
      forEach (fun n v => if v.phasesRun then v.laxGather n else v.laxLatch n) (s.readers 3 c)
        (forEach (fun n v => v.laxCompare n (s.ssiRt c).ext ((s.ssiJudged c raw cause).ssiRt c).ext (s.rd64 Reg.QTZ_LAST_TICK))
          (s.readers 3 c) (s.ssiJudged c raw cause)) := by
  subst hcause hraw
  simp only [State.ssiDone, ht, he, hd, Bool.not_true, Bool.or_self, Bool.false_eq_true, if_false, State.ssiJudged]

theorem ssiGood_pins (s : State) (c raw : Nat) : s.PinsFrame (s.ssiGood c raw) [] := setSsiRt_pins _ _ _

theorem ssiBad_pins (s : State) (c cause : Nat) :
    s.PinsFrame (s.ssiBad c cause) [Reg.FBK_SSI_STAT c, Reg.FBK_SSI_ERR_CNT c, Reg.PG_IRQ_RAW Page.FBK] :=
  (((setFld_writes _ _ _ _ _).trans (inc_writes _ _)).pins.trans (setSsiRt_pins _ _ _)).trans (event_pins _ _ _ _)

theorem ssiGood_ssiRt (s : State) (c raw : Nat) :
    ((s.ssiGood c raw).ssiRt c).done = true ∧ ((s.ssiGood c raw).ssiRt c).good = true ∧ ((s.ssiGood c raw).ssiRt c).raw = some raw := by
  simp [State.ssiGood]

theorem ssiBad_ssiRt (s : State) (c cause : Nat) : (s.ssiBad c cause).ssiRt c = { s.ssiRt c with done := true, good := false } := by
  rw [State.ssiBad, (event_signals _ _ _ _).ssiRt, ssiRt_setSsiRt_self]

theorem ssiBad_shows (s : State) (c : Fin 8) {cause : Nat} (hc : cause < 16) :
    (s.ssiBad c.val cause).fld (Reg.FBK_SSI_STAT c.val) 4 0 = 16 + cause ∧
      (s.ssiBad c.val cause).rdN (Reg.FBK_SSI_ERR_CNT c.val) = min (s.rdN (Reg.FBK_SSI_ERR_CNT c.val) + 1) 0xFFFFFFFF := by
  have hraw := (by decide : ∀ c : Fin 8, ∀ a ∈ [Reg.FBK_SSI_STAT c.val, Reg.FBK_SSI_ERR_CNT c.val], a ≠ Reg.PG_IRQ_RAW Page.FBK) c
  have hstat := (by decide : ∀ c : Fin 8, Reg.FBK_SSI_STAT c.val ≠ Reg.FBK_SSI_ERR_CNT c.val) c
  constructor
  · calc (s.ssiBad c.val cause).fld (Reg.FBK_SSI_STAT c.val) 4 0
        = ((s.setFld (Reg.FBK_SSI_STAT c.val) 4 0 (16 + cause)).inc (Reg.FBK_SSI_ERR_CNT c.val)).fld (Reg.FBK_SSI_STAT c.val) 4 0 :=
        fld_of_rd (rd_event (hraw _ (by simp)) _ _ _) 4 0
      _ = (s.setFld (Reg.FBK_SSI_STAT c.val) 4 0 (16 + cause)).fld (Reg.FBK_SSI_STAT c.val) 4 0 := fld_of_rd (rd_inc_ne hstat _) 4 0
      _ = 16 + cause := (fld_setFld (by decide) (by decide) _ _ _).trans (Nat.mod_eq_of_lt (by omega))
  · calc (s.ssiBad c.val cause).rdN (Reg.FBK_SSI_ERR_CNT c.val)
        = ((s.setFld (Reg.FBK_SSI_STAT c.val) 4 0 (16 + cause)).inc (Reg.FBK_SSI_ERR_CNT c.val)).rdN (Reg.FBK_SSI_ERR_CNT c.val) :=
        rdN_of_rd (rd_event (hraw _ (by simp)) _ _ _)
      _ = min ((s.setFld (Reg.FBK_SSI_STAT c.val) 4 0 (16 + cause)).rdN (Reg.FBK_SSI_ERR_CNT c.val) + 1) 0xFFFFFFFF := rdN_inc _ _
      _ = min (s.rdN (Reg.FBK_SSI_ERR_CNT c.val) + 1) 0xFFFFFFFF := by rw [rdN_of_rd (rd_setFld_ne hstat.symm _ _ _ _)]

theorem ssiJudged_pins (s : State) (c raw cause : Nat) :
    (s.wr64 (Reg.FBK_SSI_RAW c) raw).PinsFrame (s.ssiJudged c raw cause)
      [Reg.FBK_SSI_STAT c, Reg.FBK_SSI_ERR_CNT c, Reg.PG_IRQ_RAW Page.FBK] := by
  unfold State.ssiJudged
  split
  · exact (ssiGood_pins _ _ _).mono (by simp)
  · exact ssiBad_pins _ _ _

theorem ssiJudged_clause (s : State) (c : Fin 8) (raw : Nat) {cause : Nat} (hc : cause < 16) {u : State}
    (hu : u = s.ssiJudged c.val raw cause) :
    u.rdN (Reg.FBK_SSI_RAW c.val) = raw % 4294967296 ∧ u.rdN (Reg.FBK_SSI_RAW c.val + 4) = raw / 4294967296 % 4294967296 ∧
      (u.ssiRt c.val).done = true ∧
      (cause = 0 → (u.ssiRt c.val).good = true ∧ (u.ssiRt c.val).raw = some raw ∧
        s.SameRegs u [Reg.FBK_SSI_RAW c.val, Reg.FBK_SSI_RAW c.val + 4]) ∧
      (cause ≠ 0 → (u.ssiRt c.val).good = false ∧ u.fld (Reg.FBK_SSI_STAT c.val) 4 0 = 16 + cause ∧
        u.rdN (Reg.FBK_SSI_ERR_CNT c.val) = min (s.rdN (Reg.FBK_SSI_ERR_CNT c.val) + 1) 0xFFFFFFFF ∧
        s.SameRegs u [Reg.FBK_SSI_RAW c.val, Reg.FBK_SSI_RAW c.val + 4, Reg.FBK_SSI_STAT c.val, Reg.FBK_SSI_ERR_CNT c.val,
          Reg.PG_IRQ_RAW Page.FBK]) ∧ s.SameMemory u := by
  have hw := wr64_writes s (Reg.FBK_SSI_RAW c.val) raw
  have hp := ssiJudged_pins s c.val raw cause
  have hlow := (by decide : ∀ c : Fin 8, Reg.FBK_SSI_RAW c.val ∉
    [Reg.FBK_SSI_STAT c.val, Reg.FBK_SSI_ERR_CNT c.val, Reg.PG_IRQ_RAW Page.FBK]) c
  have hhigh := (by decide : ∀ c : Fin 8, Reg.FBK_SSI_RAW c.val + 4 ∉
    [Reg.FBK_SSI_STAT c.val, Reg.FBK_SSI_ERR_CNT c.val, Reg.PG_IRQ_RAW Page.FBK]) c
  have hcnt := (by decide : ∀ c : Fin 8, Reg.FBK_SSI_ERR_CNT c.val ∉ [Reg.FBK_SSI_RAW c.val, Reg.FBK_SSI_RAW c.val + 4]) c
  rw [← hu] at hp
  refine ⟨(hp.regs.rdN hlow).trans (rdN_wr64_low _ _ _), (hp.regs.rdN hhigh).trans (rdN_wr64_high _ _ _), ?_, fun h => ?_, fun h => ?_,
    hw.signals.memory.trans hp.memory⟩
  · by_cases h : cause = 0
    · rw [hu, State.ssiJudged, if_pos h]
      exact (ssiGood_ssiRt _ _ _).1
    · rw [hu, State.ssiJudged, if_neg h, ssiBad_ssiRt]
  · obtain ⟨-, hgood, hraw⟩ := ssiGood_ssiRt (s.wr64 (Reg.FBK_SSI_RAW c.val) raw) c.val raw
    rw [hu, State.ssiJudged, if_pos h]
    exact ⟨hgood, hraw, hw.1.trans (ssiGood_pins _ _ _).regs⟩
  · obtain ⟨hstat, herr⟩ := ssiBad_shows (s.wr64 (Reg.FBK_SSI_RAW c.val) raw) c hc
    refine ⟨?_, ?_, ?_, hw.1.trans hp.regs⟩ <;> rw [hu, State.ssiJudged, if_neg h]
    · rw [ssiBad_ssiRt]
    · exact hstat
    · rw [herr, hw.1.rdN hcnt]

/-! ### Step outputs, rules R305 to R307 -/

/-- A pulse as the step output itself counts it. -/
def State.pulseCounted (s : State) (n : Nat) (d : Int) (rest : List (Nat × Int)) : State :=
  (s.setLaxRt n { s.laxRt n with pulses := rest }).wrI64 (Reg.LAX_NOUT n) (s.rdI64 (Reg.LAX_NOUT n) + d)

theorem pulse_cons {s : State} {n time : Nat} {d : Int} {rest : List (Nat × Int)} (h : (s.laxRt n).pulses = (time, d) :: rest) :
    s.pulse n = if s.srcType n = 0 ∧ s.axisEn (128 + n)
      then (s.pulseCounted n d rest).laxCompare n (s.rdI64 (Reg.LAX_NOUT n)) (s.rdI64 (Reg.LAX_NOUT n) + d) time
      else s.pulseCounted n d rest := by
  simp only [State.pulse, h, State.pulseCounted]

theorem stepPulse_cons {s : State} {n time : Nat} {d : Int} {rest : List (Nat × Int)} (hc : s.clocked = true)
    (h : (s.laxRt n).pulses = (time, d) :: rest) : s.stepPulse n = (s.advance time).pulse n := by
  simp only [State.stepPulse, hc, h, Bool.not_true, Bool.false_eq_true, if_false]

theorem pulseCounted_pins (s : State) (n : Nat) (d : Int) (rest : List (Nat × Int)) :
    s.PinsFrame (s.pulseCounted n d rest) [Reg.LAX_NOUT n, Reg.LAX_NOUT n + 4] :=
  (setLaxRt_pins _ _ _).trans (wrI64_writes _ _ _).pins

theorem pulseCounted_pulses (s : State) (n : Nat) (d : Int) (rest : List (Nat × Int)) :
    ((s.pulseCounted n d rest).laxRt n).pulses = rest :=
  congrArg LaxRt.pulses (((wrI64_writes _ _ _).signals.laxRt n).trans (laxRt_setLaxRt_self _ _ _))

theorem stepPulse_clause {s : State} {n : Fin 16} {time : Nat} {d : Int} {rest : List (Nat × Int)} (hc : s.clocked = true)
    (h : (s.laxRt n.val).pulses = (time, d) :: rest) :
    ∃ u : State,
      u.rdI64 (Reg.LAX_NOUT n.val) = signedOf 64 (wrapTo 64 (s.rdI64 (Reg.LAX_NOUT n.val) + d)) ∧ (u.laxRt n.val).pulses = rest ∧
      (time ≤ s.now → u.now = s.now) ∧ s.SameMemory u ∧
      s.SameRegs u [Reg.LAX_NOUT n.val, Reg.LAX_NOUT n.val + 4, Reg.QTZ_TIME_NS, Reg.QTZ_TIME_NS + 4, Reg.QTZ_TIME_FRAC] ∧
      s.stepPulse n.val = if s.srcType n.val = 0 ∧ s.axisEn (128 + n.val)
        then u.laxCompare n.val (s.rdI64 (Reg.LAX_NOUT n.val)) (s.rdI64 (Reg.LAX_NOUT n.val) + d) time else u := by
  have hadv := advance_writes s time
  have hp := pulseCounted_pins (s.advance time) n.val d rest
  have hlow : ∀ a ∈ timeRegs, a < 0x40080000 := by decide
  have hout := (by decide : ∀ n : Fin 16, ∀ a ∈ [Reg.LAX_NOUT n.val, Reg.LAX_NOUT n.val + 4], a ∉ timeRegs) n
  have hn : (s.advance time).rdI64 (Reg.LAX_NOUT n.val) = s.rdI64 (Reg.LAX_NOUT n.val) :=
    rdI64_of_same hadv.1 (hout _ (by simp)) (hout _ (by simp))
  have hpulses : ((s.advance time).laxRt n.val).pulses = (time, d) :: rest :=
    (congrArg LaxRt.pulses (hadv.signals.laxRt n.val)).trans h
  refine ⟨(s.advance time).pulseCounted n.val d rest, ?_, pulseCounted_pulses _ _ _ _, fun hle => ?_,
    hadv.signals.memory.trans hp.memory, (hadv.1.trans hp.regs).mono (by simp), ?_⟩
  · rw [← hn]
    exact rdI64_wrI64 _ _ _
  · rw [same_now hp.regs (fun hm => hout _ hm (by simp)) (fun hm => hout _ hm (by simp)), advance_of_le hle]
  · rw [stepPulse_cons hc h, pulse_cons hpulses, srcType_of_low hadv.1 hlow, axisEn_of_low hadv.1 hlow, hn]

end Sys2Proof.Machine
end

section
/-! SUPPORT. Encoders, Hall sets, SSI channels and step outputs settled (O50). -/

namespace Sys2Proof.Machine

/-- Settles O50: each clause is what the channel's own part of the operation does once the guards of its premises are decided. -/
theorem feedbackChannels : Obligations.FeedbackChannels := by
  refine ⟨?_, ?_, ?_, ?_, ?_, ?_, ?_, ?_, ?_⟩
  · intro s e a b stamp d ht he hs hd
    exact ⟨_, rfl, encoderCount_clause ht he hs hd⟩
  · intro s e a b stamp ht he hm hopp
    exact ⟨_, rfl, quadratureError_clause s e a b (encoderEdge_qerr ht he (encStep_quad_opposite hm hopp) stamp)⟩
  · intro s e stamp ht he hz hinv hgate hlow
    obtain ⟨hcnt, hlevel, hprev, hfirst, hmem⟩ := idxLatched_clause s e
    have heq := indexEdge_latches ht he hz hinv hgate hlow stamp
    exact ⟨_, rfl, s.idxLatched e.val, hcnt, hlevel, hprev, hfirst, hmem, heq, indexEdge_clause rfl heq⟩
  · intro s e line hc ht he hl
    exact ⟨_, rfl, wireFault_clause (s := s.lineLow e.val line.val) hc e (lineFault_wire ht he hl)⟩
  · intro s h code k k0 stamp ht he hinv hk hk0 hd
    obtain ⟨hcount, hsector, hcode, hshow, hregs, hmem⟩ := hallNext_clause s h code (Nat.lt_trans (hallSector_lt hk) (by decide)) stamp
    exact ⟨_, rfl, s.hallNext h.val code.val k stamp, hcount, hsector, hcode, hshow, hregs, hmem,
      hallTransition_next ht he hinv hk hk0 hd stamp⟩
  · intro s h code stamp ht he hk
    exact ⟨_, rfl, hallInvalid_clause s h code (hallTransition_invalid ht he hk stamp)⟩
  · intro s h code stamp ht he
    have heq := hallTransition_disabled ht he code.val stamp
    exact ⟨_, congrArg Host.Outcome.next heq, fld_showCode s h.val code, setFld_writes _ _ _ _ _⟩
  · intro s c data extra idle mono raw cause ht he hd hraw hcause
    obtain ⟨hlow, hhigh, hdone, hgood, hbad, hmem⟩ :=
      ssiJudged_clause s c raw (hcause ▸ ssiCause_lt _ _ _ _ _ _ _ : cause < 16) rfl
    exact ⟨_, rfl, s.ssiJudged c.val raw cause, hlow, hhigh, hdone, hgood, hbad, hmem, ssiDone_judged ht he hd hraw hcause⟩
  · intro s n time d rest hc h
    exact ⟨_, rfl, stepPulse_clause hc h⟩

end Sys2Proof.Machine
end

section
/-! SUPPORT. The registers that every page has, the vectors, the front of the queue and the watchdog (O1, O4, O12, O59). -/

namespace Sys2Proof.Machine

/-! ### PG_IRQ_SET, PG_IRQ_RAW, PG_CTRL and PG_LOCK -/

theorem sendMsix_down {s : State} (h : s.bit Reg.PCI_STAT 0 = false) (v : Nat) : s.sendMsix v = s := if_pos (by simp [h])

/-- While the PCIe link is down a routed write sends no message. -/
theorem msixWrite_down {s : State} (h : s.bit Reg.PCI_STAT 0 = false) (old : State) (p : Nat) : s.msixWrite old p = s := by
  unfold State.msixWrite
  simp only [sendMsix_down h, ite_self]

/-- A write of a register after which the vectors of its page are evaluated again, rule R444. -/
theorem routedWrite_clause (s : State) {a : Nat} (ha : a ≠ Reg.PCI_STAT) (p : Nat) (v : Word) {t : State} (h : t = (s.wr a v).msixWrite s p) :
    t.rd a = v ∧ s.Raises t [a] [] ∧ (s.bit Reg.PCI_STAT 0 = false → s.Writes t [a]) := by
  subst h
  refine ⟨by rw [rd_msixWrite, rd_wr_self], (wr_writes s a v).raises.trans (msixWrite_raises _ _ _), fun hd => ?_⟩
  rw [msixWrite_down (by rw [bit_of_rd (rd_wr_ne ha.symm s v), hd])]
  exact wr_writes s a v

theorem irqRaw_ne_pciStat (p : Nat) : Reg.PG_IRQ_RAW p ≠ Reg.PCI_STAT := by simp only [Reg.PG_IRQ_RAW, Reg.PCI_STAT]; omega
theorem pgCtrl_ne_pciStat (p : Nat) : Reg.PG_CTRL p ≠ Reg.PCI_STAT := by simp only [Reg.PG_CTRL, Reg.PCI_STAT]; omega
theorem pgLock_ne_pgStat (p : Nat) : Reg.PG_LOCK p ≠ Reg.PG_STAT p := by simp only [Reg.PG_LOCK, Reg.PG_STAT]; omega

/-- The lock bits that a write sets stand beside those that were set, and LOCKED shows CFG. -/
theorem pgLock_clause (s : State) (p : Nat) (v : Word) :
    (s.pgLock p v).rd (Reg.PG_LOCK p) = s.rd (Reg.PG_LOCK p) ||| (v &&& 7) ∧
      (s.pgLock p v).bit (Reg.PG_STAT p) 2 = (s.pgLock p v).bit (Reg.PG_LOCK p) 0 ∧ s.Writes (s.pgLock p v) [Reg.PG_LOCK p, Reg.PG_STAT p] := by
  have hl : (s.pgLock p v).rd (Reg.PG_LOCK p) = (s.orBits (Reg.PG_LOCK p) (v &&& 7)).rd (Reg.PG_LOCK p) :=
    rd_setBit_ne (pgLock_ne_pgStat p) _ _ _
  refine ⟨hl.trans (rd_wr_self _ _ _), ?_, (orBits_writes _ _ _).trans (setBit_writes _ _ _ _)⟩
  rw [bit_of_rd hl]
  exact bit_setBit_self (by decide) _ _ _

/-- Settles O1: the write reaches its page, which stores the word and evaluates its vectors again. -/
theorem pageInterruptsAndLocks : Obligations.PageInterruptsAndLocks := by
  intro s ag p v hw
  refine ⟨?_, ?_, ?_, ?_⟩
  · exact completes_write hw rfl (routedWrite_clause s (irqRaw_ne_pciStat p) p _ rfl)
  · exact completes_write hw rfl (routedWrite_clause s (irqRaw_ne_pciStat p) p _ rfl)
  · exact completes_write hw rfl (routedWrite_clause s (pgCtrl_ne_pciStat p) p _ rfl)
  · exact completes_write hw rfl (pgLock_clause s p v)

/-! ### Vectors -/

/-- PG_IRQ_RAW of a present page resets to 0. -/
theorem regReset_irqRaw {p : Nat} (h : (pageKind p).isSome = true) : regReset (Reg.PG_IRQ_RAW p) = 0 := by
  obtain ⟨⟨k, ty, inst⟩, hk⟩ := Option.isSome_iff_exists.mp h
  have ho : pageOff (Reg.PG_IRQ_RAW p) = 0x010 := by simp only [pageOff, Reg.PG_IRQ_RAW]; omega
  have hrow : ∃ r, commonRows.find? (fun r => r.holds 0x010) = some r ∧ r.reset = 0 := by decide
  obtain ⟨r, hr, hz⟩ := hrow
  have hreg : regRow (Reg.PG_IRQ_RAW p) = some r := by
    unfold regRow
    rw [if_neg (by simp only [Reg.PG_IRQ_RAW]; omega), pageOf_common h (by decide), hk, ho]
    exact hr
  unfold regReset
  rw [if_neg (by simp only [Reg.PG_IRQ_RAW]; omega), pageOf_common h (by decide), hk, hreg, ho]
  exact congrArg (BitVec.ofNat 32) hz

/-- A key that a table lists not reads as its default. -/
theorem get_of_notMem {α : Type} (d : Nat → α) {k : Nat} {m : List (Nat × α)} (h : ∀ e ∈ m, e.1 ≠ k) : Tab.get d m k = d k :=
  get_of_unlisted d (List.any_eq_false.mpr fun e he => by simpa using h e he)

/-- The pages among which a vector looks are present ones, with every one that has a pending interrupt among them. -/
theorem raisedPages_present {s : State} {p : Nat} (h : p ∈ s.raisedPages) : (pageKind p).isSome = true := by
  simp only [State.raisedPages, List.mem_map, List.mem_filter, Bool.and_eq_true] at h
  obtain ⟨e, ⟨-, -, hk⟩, rfl⟩ := h
  exact hk

theorem mem_raisedPages {s : State} {p : Nat} (hk : (pageKind p).isSome = true) (h : s.irqPend p ≠ 0) : p ∈ s.raisedPages := by
  have hraw : s.rd (Reg.PG_IRQ_RAW p) ≠ 0 := by
    intro hz
    apply h
    unfold State.irqPend
    rw [hz]
    exact (congrArg (ite _ · 0) BitVec.zero_and).trans (ite_self _)
  have hlisted : ∃ e ∈ s.regs, e.1 = Reg.PG_IRQ_RAW p := by
    by_contra hno
    exact hraw ((get_of_notMem regReset fun e he hek => hno ⟨e, he, hek⟩).trans (regReset_irqRaw hk))
  obtain ⟨e, he, hek⟩ := hlisted
  have hp : pageOf e.1 = p := hek ▸ pageOf_common hk (by decide)
  have ho : pageOff e.1 = 0x010 := by rw [hek]; simp only [pageOff, Reg.PG_IRQ_RAW]; omega
  exact List.mem_map.mpr ⟨e, List.mem_filter.mpr ⟨he, by rw [hp, hk, ho]; rfl⟩, hp⟩

/-- A line that some page holds, told apart by bit `b` of PG_CTRL: the two kinds of vector are such lines. -/
theorem vector_iff (s : State) (v b : Nat) :
    (s.raisedPages.any (fun p => decide (s.irqPend p ≠ 0) && s.fld (Reg.PG_CTRL p) 5 0 == v && s.bit (Reg.PG_CTRL p) b) = true) ↔
      ∃ p, (pageKind p).isSome = true ∧ s.fld (Reg.PG_CTRL p) 5 0 = v ∧ s.irqPend p ≠ 0 ∧ s.bit (Reg.PG_CTRL p) b = true := by
  simp only [List.any_eq_true, Bool.and_eq_true, decide_eq_true_eq, beq_iff_eq]
  constructor
  · rintro ⟨p, hp, ⟨hpend, hv⟩, hb⟩
    exact ⟨p, raisedPages_present hp, hv, hpend, hb⟩
  · rintro ⟨p, hk, hv, hpend, hb⟩
    exact ⟨p, mem_raisedPages hk hpend, ⟨hpend, hv⟩, hb⟩

/-- Settles O59: the two parts of a vector differ in the bit of PG_CTRL that routes a page to them. -/
theorem vectorsAsserted : Obligations.VectorsAsserted :=
  fun s v => ⟨vector_iff s v 8, fun n _ => vector_iff s v (12 + n), fun _ => rfl⟩

/-! ### A step -/

/-- Settles O12: the two shapes of the queue are the two cases of a step. -/
theorem stepRunsFront : Obligations.StepRunsFront := by
  refine ⟨fun c q s h => ?_, fun s h => ?_⟩
  · unfold step
    rw [h]
  · unfold step
    rw [h]

end Sys2Proof.Machine
end

section
/-! SUPPORT. Resets, rails and the watchdog (O4, O5). -/

theorem Sys2Proof.Tab.get_filter {α : Type} (d : Nat → α) (f : Nat → Bool) (m : List (Nat × α)) (k : Nat) :
    Tab.get d (m.filter (fun e => f e.1)) k = if f k then Tab.get d m k else d k := by
  induction m with
  | nil => simp [Tab.get]
  | cons e m ih =>
    by_cases hk : e.1 = k
    · cases hf : f k <;> simp [Tab.get, hk, hf, ih]
    · cases hf : f e.1 <;> simp [Tab.get, hk, hf, ih]

namespace Sys2Proof.Machine

/-- A property that the step of every index below `n` keeps. -/
theorem forUpTo_keeps {P : State → Prop} {f : Nat → State → State} {n : Nat} (hf : ∀ i, i < n → ∀ t, P t → P (f i t)) {s : State} (h : P s) :
    P (forUpTo f n s) := by
  induction n with
  | zero => exact h
  | succ n ih => exact hf n (Nat.lt_succ_self n) _ (ih fun i hi => hf i (Nat.lt_succ_of_lt hi))

/-! ### A reset of the core die -/

theorem rd_outlive (s : State) (a : Nat) : s.outlive.rd a = if keptReg a then s.rd a else regReset a := Tab.get_filter regReset keptReg s.regs a

/-- The registers that a reset writes itself before the outputs follow. -/
abbrev dieRegs : List Nat :=
  [Reg.SYS_RST_CAUSE, Reg.DBG_STAT, Reg.TWN_STAT, Reg.PWR_DOM_STAT, Reg.SAF_SEAL_CFG, Reg.FIO_LP_STAT]

/-- The core die reset, before the outputs of the field die follow. -/
def State.resetDie (s : State) (cause : Nat) : State :=
  ((((((s.outlive.wrN Reg.SYS_RST_CAUSE cause).wrN Reg.DBG_STAT s.roCut).setBit Reg.TWN_STAT 3 (s.bit Reg.TWN_STAT 3)).setBit
    Reg.PWR_DOM_STAT 12 s.field.vcc).setFld Reg.SAF_SEAL_CFG 1 1 0).setBit Reg.FIO_LP_STAT 6 false)

theorem coreReset_eq (s : State) (cause : Nat) : s.coreReset cause = (s.resetDie cause).refreshDq := rfl

theorem resetDie_writes (s : State) (cause : Nat) : s.outlive.Writes (s.resetDie cause) dieRegs :=
  (((((wrN_writes _ _ _).trans (wrN_writes _ _ _)).trans (setBit_writes _ _ _ _)).trans (setBit_writes _ _ _ _)).trans
    (setFld_writes _ _ _ _ _)).trans (setBit_writes _ _ _ _)

theorem resetDie_cause (s : State) {cause : Nat} (h : cause < 2 ^ 32) : (s.resetDie cause).rdN Reg.SYS_RST_CAUSE = cause := by
  have hl : (s.resetDie cause).rd Reg.SYS_RST_CAUSE = (s.outlive.wrN Reg.SYS_RST_CAUSE cause).rd Reg.SYS_RST_CAUSE := by
    unfold State.resetDie
    simp (disch := decide) only [rd_setBit_ne, rd_setFld_ne, rd_wrN_ne]
  rw [rdN_of_rd hl, rdN_wrN_self, Nat.mod_eq_of_lt h]

/-- The units and memories of the core die right after a reset. -/
structure State.DieReset (s t : State) : Prop where
  sys : t.sys = Sys.reset
  sram : t.cell = [] ∧ t.code = [] ∧ t.data = [] ∧ t.eng = []
  dram : t.dram = s.dram
  flash : t.flash = s.flash

theorem State.DieReset.writes {s t u : State} {l : List Nat} (h : s.DieReset t) (k : t.Writes u l) : s.DieReset u := by
  obtain ⟨hsys, hsram, hdram, hflash⟩ := h
  rw [k.2]
  exact ⟨hsys, hsram, hdram, hflash⟩

theorem outlive_dieReset (s : State) : s.DieReset s.outlive := ⟨rfl, ⟨rfl, rfl, rfl, rfl⟩, rfl, rfl⟩

theorem refreshDq_dieReset {s t : State} (h : s.DieReset t) : s.DieReset t.refreshDq := by
  obtain ⟨x, n, heq, -, -⟩ := refreshDq_eq t
  have hx : s.DieReset { t with field := x } := ⟨h.sys, h.sram, h.dram, h.flash⟩
  rw [heq]
  exact hx.writes (setFld_writes _ _ _ _ _)

theorem coreReset_dieReset (s : State) (cause : Nat) : s.DieReset (s.coreReset cause) := by
  rw [coreReset_eq]
  exact refreshDq_dieReset ((outlive_dieReset s).writes (resetDie_writes s cause))

/-- The registers that a reset writes. -/
abbrev resetRegs : List Nat := dieRegs ++ [Reg.FIO_DQ_RB]

theorem coreReset_sameRegs (s : State) (cause : Nat) : s.outlive.SameRegs (s.coreReset cause) resetRegs := by
  rw [coreReset_eq]
  exact (resetDie_writes s cause).1.trans (refreshDq_sameRegs _)

theorem coreReset_cause (s : State) {cause : Nat} (h : cause < 2 ^ 32) : (s.coreReset cause).rdN Reg.SYS_RST_CAUSE = cause := by
  rw [coreReset_eq, rdN_of_rd (refreshDq_sameRegs _ _ (by decide)), resetDie_cause s h]

/-- A register that a reset keeps and does not write. -/
theorem coreReset_keeps (s : State) (cause : Nat) {a : Nat} (hk : keptReg a = true) (ha : a ∉ resetRegs) :
    (s.coreReset cause).rd a = s.rd a := by
  rw [coreReset_sameRegs s cause a ha, rd_outlive, if_pos hk]

theorem resetBy_eq {s : State} (h : s.sys.dev ≠ .off) (cause : Nat) : s.resetBy cause = (s.coreReset cause).inc Reg.SYS_RST_CNT :=
  if_neg (by simpa using h)

/-- A register at its reset value after a reset other than power-on. -/
theorem resetBy_resets {s : State} (h : s.sys.dev ≠ .off) (cause : Nat) {a : Nat} (hk : keptReg a = false)
    (ha : a ∉ [Reg.SYS_RST_CAUSE, Reg.DBG_STAT, Reg.TWN_STAT, Reg.PWR_DOM_STAT, Reg.FIO_DQ_RB]) : (s.resetBy cause).rd a = regReset a := by
  have hkept : ∀ b, keptReg b = true → a ≠ b := fun b hb hab => by rw [hab, hb] at hk; exact Bool.noConfusion hk
  have hlist : a ∉ resetRegs := by
    have h1 := hkept Reg.SAF_SEAL_CFG (by decide)
    have h2 := hkept Reg.FIO_LP_STAT (by decide)
    simp only [List.mem_cons, List.not_mem_nil, or_false, not_or, List.cons_append, List.nil_append] at ha ⊢
    tauto
  rw [resetBy_eq h, rd_inc_ne (hkept _ (by decide)), coreReset_sameRegs s cause a hlist, rd_outlive, if_neg (by simp [hk])]

/-- What a reset other than power-on leaves. -/
theorem resetBy_clause {s : State} (h : s.sys.dev ≠ .off) {cause : Nat} (hc : cause < 2 ^ 32) :
    s.DieReset (s.resetBy cause) ∧ (s.resetBy cause).rdN Reg.SYS_RST_CAUSE = cause ∧
      (s.resetBy cause).rdN Reg.SYS_RST_CNT = min (s.rdN Reg.SYS_RST_CNT + 1) 0xFFFFFFFF := by
  rw [resetBy_eq h]
  refine ⟨(coreReset_dieReset s cause).writes (inc_writes _ _), ?_, ?_⟩
  · rw [rdN_of_rd (rd_inc_ne (by decide) _), coreReset_cause s hc]
  · rw [rdN_inc, rdN_of_rd (coreReset_keeps s cause (by decide) (by decide))]

theorem ticking_on {s : State} (h : s.ticking = true) : s.sys.dev ≠ .off := fun hd => by simp [State.ticking, hd] at h

theorem clocked_on {s : State} (h : s.clocked = true) : s.sys.dev ≠ .off := fun hd => by simp [State.clocked, hd] at h

/-! ### Rails -/

theorem railSample_writes (s : State) (i mv : Nat) : s.Writes (s.railSample i mv) [Reg.PWR_RAIL_V i, Reg.PWR_RAIL_MINMAX i] :=
  (wrN_writes _ _ _).trans (wrN_writes _ _ _)

theorem railV_ne {i : Nat} (h : i < 13) : Reg.PWR_RAIL_V i ≠ Reg.PWR_RAIL_MINMAX i ∧ Reg.PWR_RAIL_V i ≠ Reg.PWR_RAIL_FLAG ∧
    Reg.PWR_RAIL_FLAG ≠ Reg.PWR_RAIL_MINMAX i := by
  simp only [Reg.PWR_RAIL_V, Reg.PWR_RAIL_MINMAX, Reg.PWR_RAIL_FLAG]; omega

theorem rdN_railSample (s : State) {i : Nat} (h : i < 13) (mv : BitVec 16) : (s.railSample i mv.toNat).rdN (Reg.PWR_RAIL_V i) = mv.toNat := by
  unfold State.railSample
  rw [rdN_of_rd (rd_wrN_ne (railV_ne h).1 _ _), rdN_wrN_self, Nat.mod_eq_of_lt (Nat.lt_trans mv.isLt (by decide))]

/-- A sample below its rail's threshold. -/
def State.railLow (s : State) (i mv : Nat) : State := (s.railSample i mv).setBit Reg.PWR_RAIL_FLAG i false

theorem railUnder_eq {s : State} (h : s.sys.dev ≠ .off) (i mv : Nat) : s.railUnder i mv = (s.railLow i mv).enterOff i := if_neg (by simpa using h)

theorem railV_kept (i : Fin 13) : keptReg (Reg.PWR_RAIL_V i.val) = true ∧ Reg.PWR_RAIL_V i.val ∉ resetRegs ∧
    Reg.PWR_RAIL_V i.val ≠ Reg.PWR_UV_CNT := by decide +revert

theorem railRegs_ne (i : Fin 13) {a : Nat} (ha : a ∈ [Reg.PWR_UV_CNT, Reg.PWR_OV_CNT, Reg.PWR_STAT, Reg.QTZ_TIME_NS, Reg.QTZ_TIME_NS + 4]) :
    a ∉ [Reg.PWR_RAIL_V i.val, Reg.PWR_RAIL_MINMAX i.val, Reg.PWR_RAIL_FLAG] := by decide +revert

theorem railLow_writes (s : State) (i mv : Nat) :
    s.Writes (s.railLow i mv) [Reg.PWR_RAIL_V i, Reg.PWR_RAIL_MINMAX i, Reg.PWR_RAIL_FLAG] :=
  (railSample_writes s i mv).trans (setBit_writes _ _ _ _)

theorem rdN_railLow (s : State) {i : Nat} (h : i < 13) (mv : BitVec 16) : (s.railLow i mv.toNat).rdN (Reg.PWR_RAIL_V i) = mv.toNat :=
  (rdN_of_rd (rd_setBit_ne (railV_ne h).2.1 _ _ _)).trans (rdN_railSample s h mv)

/-- The count of undervoltages on entry to OFF. -/
def State.countUnder (s : State) (i : Nat) : State := if i = 6 then s.wr Reg.PWR_UV_CNT 0 else s.inc Reg.PWR_UV_CNT

theorem countUnder_writes (s : State) (i : Nat) : s.Writes (s.countUnder i) [Reg.PWR_UV_CNT] := by
  unfold State.countUnder
  split
  · exact wr_writes _ _ _
  · exact inc_writes _ _

theorem rdN_countUnder (s : State) (i : Nat) :
    (s.countUnder i).rdN Reg.PWR_UV_CNT = if i = 6 then 0 else min (s.rdN Reg.PWR_UV_CNT + 1) 0xFFFFFFFF := by
  unfold State.countUnder
  split
  · exact congrArg BitVec.toNat (rd_wr_self _ _ _)
  · exact rdN_inc _ _

/-- In OFF LPDDR4X is lost. -/
def State.powerGone (s : State) : State := { s with dram := [], sys := { s.sys with dev := .off } }

theorem enterOff_eq (s : State) (i : Nat) : s.enterOff i = ((s.coreReset 1).countUnder i).powerGone := rfl

/-- Entry to OFF by an undervoltage. -/
theorem railUnder_clause (s : State) (i : Fin 13) (mv : BitVec 16) {t : State} (h : t = (s.railLow i.val mv.toNat).enterOff i.val) :
    t.sys.dev = .off ∧ t.sys.triggers = [] ∧ t.dram = [] ∧ t.flash = s.flash ∧ t.rdN (Reg.PWR_RAIL_V i.val) = mv.toNat ∧
      t.rdN Reg.PWR_UV_CNT = if i.val = 6 then 0 else min (s.rdN Reg.PWR_UV_CNT + 1) 0xFFFFFFFF := by
  obtain ⟨hk, hl, hne⟩ := railV_kept i
  have hlow := railLow_writes s i.val mv.toNat
  have hv := rdN_railLow s i.isLt mv
  have hc : (s.railLow i.val mv.toNat).rdN Reg.PWR_UV_CNT = s.rdN Reg.PWR_UV_CNT := hlow.1.rdN (railRegs_ne i (by simp))
  have hf := hlow.signals.memory.2.2.1
  rw [h, enterOff_eq]
  generalize s.railLow i.val mv.toNat = u at hv hc hf
  have hdie := (coreReset_dieReset u 1).writes (countUnder_writes _ i.val)
  have hv' : ((u.coreReset 1).countUnder i.val).rdN (Reg.PWR_RAIL_V i.val) = mv.toNat := by
    rw [(countUnder_writes _ _).1.rdN (by simpa using hne), rdN_of_rd (coreReset_keeps u 1 hk hl), hv]
  have hc' := rdN_countUnder (u.coreReset 1) i.val
  rw [rdN_of_rd (coreReset_keeps u 1 (by decide) (by decide)), hc] at hc'
  generalize (u.coreReset 1).countUnder i.val = w at hdie hv' hc'
  exact ⟨rfl, congrArg Sys.triggers hdie.sys, rfl, hdie.flash.trans hf, hv', hc'⟩

/-- The records kept in AON that the power-on reset clears. -/
abbrev aonRegs : List Nat :=
  [Reg.SYS_RST_CNT, Reg.SYS_FRZ_CNT, Reg.DBG_RO_BYTES, Reg.DBG_RO_BYTES + 4, Reg.DBG_RO_CNT, Reg.DBG_STAT]

/-- The state with every rail sampled, before the records are cleared. -/
def State.railsSampled (s : State) (mv : List (BitVec 16)) : State :=
  forUpTo (fun i t => t.railSample i ((mv.map (fun x => x.toNat)).getD i 0)) 13 (({ s with sys := Sys.reset } : State).wrN Reg.PWR_RAIL_FLAG 0x1FFF)

theorem powerOn_eq {s : State} (h : s.sys.dev = .off) (mv : List (BitVec 16)) :
    s.powerOn mv = forEach (fun a t => t.wr a 0) aonRegs ((s.railsSampled mv).wrN Reg.SYS_RST_CAUSE 1) := if_pos (by simp [h])

theorem railsSampled_frame (s : State) (mv : List (BitVec 16)) :
    (s.railsSampled mv).sys = Sys.reset ∧ s.SameMemory (s.railsSampled mv) ∧ (s.railsSampled mv).rdN Reg.PWR_RAIL_FLAG = 0x1FFF := by
  refine forUpTo_keeps (P := fun t => t.sys = Sys.reset ∧ s.SameMemory t ∧ t.rdN Reg.PWR_RAIL_FLAG = 0x1FFF) (fun i hi t ht => ?_) ?_
  · obtain ⟨hs, hm, hf⟩ := ht
    have hw := railSample_writes t i ((mv.map (fun x => x.toNat)).getD i 0)
    refine ⟨hw.signals.sys.trans hs, hm.trans hw.signals.memory, (rdN_of_rd (hw.1 _ ?_)).trans hf⟩
    simp only [List.mem_cons, List.not_mem_nil, or_false, Reg.PWR_RAIL_V, Reg.PWR_RAIL_MINMAX, Reg.PWR_RAIL_FLAG]; omega
  · exact ⟨rfl, ⟨rfl, rfl, rfl, rfl, rfl⟩, rdN_wrN_self _ _ _⟩

theorem rd_clearAll (l : List Nat) (a : Nat) : ∀ s : State, (forEach (fun b t => t.wr b 0) l s).rd a = if a ∈ l then 0 else s.rd a := by
  induction l with
  | nil => intro s; simp [forEach]
  | cons b l ih =>
    intro s
    rw [forEach, ih, rd_wr]
    by_cases ha : a ∈ l <;> by_cases hb : a = b <;> simp [ha, hb]

theorem clearAll_units (l : List Nat) : ∀ s : State, (forEach (fun b t => t.wr b 0) l s).sys = s.sys ∧ s.SameMemory (forEach (fun b t => t.wr b 0) l s) := by
  induction l with
  | nil => exact fun s => ⟨rfl, rfl, rfl, rfl, rfl, rfl⟩
  | cons b l ih =>
    intro s
    obtain ⟨hs, hm⟩ := ih (s.wr b 0)
    exact ⟨hs, (wr_writes s b 0).signals.memory.trans hm⟩

theorem powerOn_clause (s : State) (mv : List (BitVec 16)) {t : State}
    (h : t = forEach (fun a t => t.wr a 0) aonRegs ((s.railsSampled mv).wrN Reg.SYS_RST_CAUSE 1)) :
    t.sys = Sys.reset ∧ t.rdN Reg.SYS_RST_CAUSE = 1 ∧ t.rdN Reg.SYS_RST_CNT = 0 ∧ t.rdN Reg.SYS_FRZ_CNT = 0 ∧
      t.rdN Reg.PWR_RAIL_FLAG = 0x1FFF ∧ s.SameMemory t := by
  obtain ⟨hs, hm, hf⟩ := railsSampled_frame s mv
  have hw := wrN_writes (s.railsSampled mv) Reg.SYS_RST_CAUSE 1
  have hcause := rdN_wrN_self (s.railsSampled mv) Reg.SYS_RST_CAUSE 1
  have hf' := (hw.1.rdN (by decide)).trans hf
  generalize (s.railsSampled mv).wrN Reg.SYS_RST_CAUSE 1 = u at h hw hcause hf'
  obtain ⟨hs', hm'⟩ := clearAll_units aonRegs u
  have hrd := rd_clearAll aonRegs (s := u)
  rw [← h] at hs' hm'
  simp only [← h] at hrd
  refine ⟨hs'.trans (hw.signals.sys.trans hs), ?_, ?_, ?_, ?_, (hm.trans hw.signals.memory).trans hm'⟩
  · rw [rdN_of_rd ((hrd _).trans (if_neg (by decide))), hcause]
    rfl
  · exact congrArg BitVec.toNat ((hrd _).trans (if_pos (by decide)))
  · exact congrArg BitVec.toNat ((hrd _).trans (if_pos (by decide)))
  · rw [rdN_of_rd ((hrd _).trans (if_neg (by decide))), hf']

/-- What an overvoltage writes before its alarm. -/
def State.noteOver (s : State) (i mv : Nat) : State := ((s.railLow i mv).inc Reg.PWR_OV_CNT).setBit Reg.PWR_STAT 4 true

theorem railOver_eq {s : State} (h : s.clocked = true) (i mv : Nat) :
    (if s.sys.dev == .off then s else s.railOver i mv) = (s.noteOver i mv).alarm Page.PWR 4 0 := if_neg (by simpa using clocked_on h)

theorem noteOver_writes (s : State) (i mv : Nat) : s.Writes (s.noteOver i mv)
    [Reg.PWR_RAIL_V i, Reg.PWR_RAIL_MINMAX i, Reg.PWR_RAIL_FLAG, Reg.PWR_OV_CNT, Reg.PWR_STAT] :=
  ((railLow_writes s i mv).trans (inc_writes _ _)).trans (setBit_writes _ _ _ _)

theorem noteOver_page (s : State) (i : Fin 13) (mv : BitVec 16) :
    (s.noteOver i.val mv.toNat).bit Reg.PWR_STAT 4 = true ∧ (s.noteOver i.val mv.toNat).bit Reg.PWR_RAIL_FLAG i.val = false ∧
      (s.noteOver i.val mv.toNat).rdN (Reg.PWR_RAIL_V i.val) = mv.toNat ∧
      (s.noteOver i.val mv.toNat).rdN Reg.PWR_OV_CNT = min (s.rdN Reg.PWR_OV_CNT + 1) 0xFFFFFFFF := by
  have hv : ∀ b ∈ [Reg.PWR_OV_CNT, Reg.PWR_STAT], Reg.PWR_RAIL_V i.val ≠ b := fun b hb hab =>
    railRegs_ne i (a := b) (by simp at hb ⊢; tauto) (by simp [hab])
  unfold State.noteOver
  refine ⟨bit_setBit_self (by decide) _ _ _, ?_, ?_, ?_⟩
  · rw [bit_of_rd (rd_setBit_ne (by decide) _ _ _), bit_of_rd (rd_inc_ne (by decide) _)]
    exact bit_setBit_self (by omega) _ _ _
  · rw [rdN_of_rd (rd_setBit_ne (hv _ (by simp)) _ _ _), rdN_of_rd (rd_inc_ne (hv _ (by simp)) _), rdN_railLow s i.isLt]
  · rw [rdN_of_rd (rd_setBit_ne (by decide) _ _ _), rdN_inc, (railLow_writes _ _ _).1.rdN (railRegs_ne i (by simp))]

theorem railOver_clause {s : State} (hc : s.clocked = true) (i : Fin 13) (mv : BitVec 16) {t : State}
    (h : t = (s.noteOver i.val mv.toNat).alarm Page.PWR 4 0) :
    t.bit Reg.PWR_STAT 4 = true ∧ t.bit Reg.PWR_RAIL_FLAG i.val = false ∧ t.rdN (Reg.PWR_RAIL_V i.val) = mv.toNat ∧
      t.rdN Reg.PWR_OV_CNT = min (s.rdN Reg.PWR_OV_CNT + 1) 0xFFFFFFFF ∧
      s.Raises t [Reg.PWR_RAIL_V i.val, Reg.PWR_RAIL_MINMAX i.val, Reg.PWR_RAIL_FLAG, Reg.PWR_OV_CNT, Reg.PWR_STAT,
        Reg.PG_IRQ_RAW Page.PWR] [⟨Page.PWR, 4, true, 0, s.now⟩] := by
  obtain ⟨hstat, hflag, hv, hcnt⟩ := noteOver_page s i mv
  have hw := noteOver_writes s i.val mv.toNat
  have htime : ∀ b ∈ [Reg.QTZ_TIME_NS, Reg.QTZ_TIME_NS + 4],
      b ∉ [Reg.PWR_RAIL_V i.val, Reg.PWR_RAIL_MINMAX i.val, Reg.PWR_RAIL_FLAG, Reg.PWR_OV_CNT, Reg.PWR_STAT] := by
    clear * -; decide +revert
  have hirq : Reg.PWR_RAIL_V i.val ≠ Reg.PG_IRQ_RAW Page.PWR := by clear * -; decide +revert
  have ha : s.Raises t _ _ := h ▸ hw.alarm hc (htime _ (by simp)) (htime _ (by simp)) Page.PWR 4 0
  have hrd : ∀ b, b ≠ Reg.PG_IRQ_RAW Page.PWR → t.rd b = (s.noteOver i.val mv.toNat).rd b := fun b hb => by rw [h, rd_alarm hb]
  refine ⟨?_, ?_, ?_, ?_, ha⟩
  · rw [bit_of_rd (hrd _ (by decide)), hstat]
  · rw [bit_of_rd (hrd _ (by decide)), hflag]
  · rw [rdN_of_rd (hrd _ hirq), hv]
  · rw [rdN_of_rd (hrd _ (by decide)), hcnt]

theorem swReset_keyed (s : State) : s.swReset 0xC128 = s.resetBy 4 := if_pos rfl

/-- A refused reset by software only counts. -/
theorem swReset_refused {s : State} {key : BitVec 16} (h : key ≠ 0xC128) : s.swReset key = s.inc Reg.SYS_REFUSE_CNT := if_neg h

/-- Settles O5: the three resets are one, and the rails' commands sample their rail before what they decide. -/
theorem resets : Obligations.Resets := by
  refine ⟨?_, ?_, ?_, ?_, ?_, ?_⟩
  · intro s hd
    obtain ⟨⟨hsys, ⟨hcell, hcode, hdata, heng⟩, hdram, hflash⟩, hcause, hcnt⟩ := resetBy_clause hd (cause := 2) (by decide)
    exact ⟨_, rfl, hsys, hcause, hcnt, hcell, hcode, hdata, heng, hdram, hflash, fun a hk ha => resetBy_resets hd 2 hk ha⟩
  · intro s ag hw
    obtain ⟨⟨hsys, -, hdram, hflash⟩, hcause, hcnt⟩ := resetBy_clause (clocked_on (writable_clocked hw)) (cause := 4) (by decide)
    refine completes_write hw rfl ?_
    rw [swReset_keyed]
    exact ⟨hsys, hcause, hcnt, hdram, hflash⟩
  · intro s ag key hw hk
    refine completes_write hw rfl ?_
    rw [swReset_refused hk]
    exact ⟨rdN_inc _ _, inc_writes _ _⟩
  · intro s i mv hd
    exact ⟨_, rfl, railUnder_clause s i mv (railUnder_eq hd _ _)⟩
  · intro s mv hd
    exact ⟨_, rfl, powerOn_clause s mv (powerOn_eq hd mv)⟩
  · intro s i mv hc
    exact ⟨_, rfl, railOver_clause hc i mv (railOver_eq hc _ _)⟩

/-! ### The watchdog -/

/-- A warning before it marks the half period. -/
def State.noteWarning (s : State) : State := ((s.setBit Reg.SYS_STAT 10 true).inc Reg.SYS_WDT_CNT).event Page.SYS 5 0

theorem noteWarning_signals (s : State) : s.Signals s.noteWarning [Reg.SYS_STAT, Reg.SYS_WDT_CNT, Reg.PG_IRQ_RAW Page.SYS] :=
  ((setBit_writes _ _ _ _).trans (inc_writes _ _)).signals.trans (event_signals _ _ _ _)

theorem noteWarning_page (s : State) :
    s.noteWarning.bit Reg.SYS_STAT 10 = true ∧ s.noteWarning.rdN Reg.SYS_WDT_CNT = min (s.rdN Reg.SYS_WDT_CNT + 1) 0xFFFFFFFF := by
  unfold State.noteWarning
  refine ⟨?_, ?_⟩
  · rw [bit_of_rd (rd_event (by decide) _ _ _), bit_of_rd (rd_inc_ne (by decide) _), bit_setBit_self (by decide)]
  · rw [rdN_of_rd (rd_event (by decide) _ _ _), rdN_inc, rdN_of_rd (rd_setBit_ne (by decide) _ _ _)]

theorem wdtRuns_of {s : State} (ht : s.ticking = true) (he : s.bit Reg.SYS_WDT 0 = true) : s.wdtRuns = true := by
  rw [State.wdtRuns, ht, he]; rfl

theorem wdtWarn_clause (s : State) {t : State} (h : t = s.noteWarning.halfGone) :
    t.bit Reg.SYS_STAT 10 = true ∧ t.rdN Reg.SYS_WDT_CNT = min (s.rdN Reg.SYS_WDT_CNT + 1) 0xFFFFFFFF ∧ t.sys.wdtHalf = true ∧
      s.SameRegs t [Reg.SYS_STAT, Reg.SYS_WDT_CNT, Reg.PG_IRQ_RAW Page.SYS] ∧ s.SameMemory t := by
  have hs := noteWarning_signals s
  obtain ⟨hbit, hcnt⟩ := noteWarning_page s
  subst h
  generalize s.noteWarning = u at hs hbit hcnt
  exact ⟨hbit, hcnt, rfl, hs.1, hs.memory⟩

theorem wdtExpiry_eq {s : State} (ht : s.ticking = true) (he : s.bit Reg.SYS_WDT 0 = true) (hh : s.sys.wdtHalf = true) :
    exec .wdtExpiry s = .next (s.resetBy 3) := congrArg Host.Outcome.next (if_pos (by rw [wdtRuns_of ht he, hh]; rfl))

/-- Settles O4: a kick touches only the half that has passed, and an expiry is a reset. -/
theorem watchdog : Obligations.Watchdog := by
  refine ⟨?_, ?_, ?_, ?_⟩
  · exact fun s ag hw => completes_write hw rfl (if_pos rfl)
  · exact fun s ag v hw hv => completes_write hw rfl (if_neg hv)
  · exact fun s ht he => ⟨_, rfl, wdtWarn_clause s (if_pos (wdtRuns_of ht he))⟩
  · intro s ht he hh
    obtain ⟨hdie, hcause, -⟩ := resetBy_clause (ticking_on ht) (cause := 3) (by decide)
    exact ⟨_, wdtExpiry_eq ht he hh, hdie.sys, hcause⟩

end Sys2Proof.Machine
end

section
/-! SUPPORT. The fabric, crossings and temperatures (O20). -/

namespace Sys2Proof.Machine

/-! ### Fabric errors -/

theorem fabricNak_resent {s : State} (hc : s.clocked = true) (l : Nat) {n : Nat} (hn : n < 3) :
    s.fabricNak l n .other = s.inc Reg.MEM_FAB_RTY_CNT := by simp [State.fabricNak, hc, hn]

theorem fabricNak_failed {s : State} (hc : s.clocked = true) (l : Nat) : s.fabricNak l 3 .other = s.fabricError l .other := by
  simp [State.fabricNak, hc]

/-- What a fabric error of a link writes before its event. -/
def State.noteFabric (s : State) (l : Nat) : State :=
  ((s.inc Reg.MEM_FAB_ERR_CNT).wrN Reg.MEM_FAB_LAST l).setBit Reg.MEM_STAT 5 true

/-- A block without a location strikes nothing further. -/
theorem fabricError_other (s : State) (l : Nat) : s.fabricError l .other = ((s.noteFabric l).event Page.MEM 4 0).detLapse := rfl

theorem noteFabric_writes (s : State) (l : Nat) :
    s.Writes (s.noteFabric l) [Reg.MEM_FAB_ERR_CNT, Reg.MEM_FAB_LAST, Reg.MEM_STAT] :=
  ((inc_writes _ _).trans (wrN_writes _ _ _)).trans (setBit_writes _ _ _ _)

theorem noteFabric_page (s : State) {l : Nat} (h : l < 2 ^ 32) :
    (s.noteFabric l).rdN Reg.MEM_FAB_ERR_CNT = min (s.rdN Reg.MEM_FAB_ERR_CNT + 1) 0xFFFFFFFF ∧
      (s.noteFabric l).rdN Reg.MEM_FAB_LAST = l ∧ (s.noteFabric l).bit Reg.MEM_STAT 5 = true := by
  unfold State.noteFabric
  refine ⟨?_, ?_, bit_setBit_self (by decide) _ _ _⟩
  · rw [rdN_of_rd (rd_setBit_ne (by decide) _ _ _), rdN_of_rd (rd_wrN_ne (by decide) _ _), rdN_inc]
  · rw [rdN_of_rd (rd_setBit_ne (by decide) _ _ _), rdN_wrN_self, Nat.mod_eq_of_lt h]

theorem fabricError_clause (s : State) (l : Fin 256) {t : State} (h : t = ((s.noteFabric l.val).event Page.MEM 4 0).detLapse) :
    t.rdN Reg.MEM_FAB_ERR_CNT = min (s.rdN Reg.MEM_FAB_ERR_CNT + 1) 0xFFFFFFFF ∧ t.rdN Reg.MEM_FAB_LAST = l.val ∧
      t.bit Reg.MEM_STAT 5 = true ∧ t.bit Reg.SYS_STAT 5 = true ∧
      s.SameRegs t [Reg.MEM_FAB_ERR_CNT, Reg.MEM_FAB_LAST, Reg.MEM_STAT, Reg.PG_IRQ_RAW Page.MEM, Reg.SYS_STAT, Reg.PG_IRQ_RAW Page.SYS] ∧
      s.SameMemory t := by
  obtain ⟨hcnt, hlast, hstat⟩ := noteFabric_page s (Nat.lt_trans l.isLt (by decide))
  have hs : s.Signals t _ := h ▸ ((noteFabric_writes s l.val).signals.trans (event_signals _ Page.MEM 4 0)).trans (detLapse_signals _)
  have hrd : ∀ b, b ≠ Reg.SYS_STAT → b ≠ Reg.PG_IRQ_RAW Page.SYS → b ≠ Reg.PG_IRQ_RAW Page.MEM → t.rd b = (s.noteFabric l.val).rd b :=
    fun b h1 h2 h3 => by rw [h, rd_detLapse h1 h2, rd_event h3]
  refine ⟨?_, ?_, ?_, h ▸ bit_detLapse _, hs.1, hs.memory⟩
  · rw [rdN_of_rd (hrd _ (by decide) (by decide) (by decide)), hcnt]
  · rw [rdN_of_rd (hrd _ (by decide) (by decide) (by decide)), hlast]
  · rw [bit_of_rd (hrd _ (by decide) (by decide) (by decide)), hstat]

/-! ### Crossings -/

theorem crossingId_lt (x y : Nat) : crossingId x y < 256 := by unfold crossingId; omega

/-- What a stall of 4,096 cycles writes before its alarm. -/
def State.noteStall (s : State) (x y : Nat) : State :=
  ((((s.add Reg.CDC_STALL_CNT 4096).setBit Reg.CDC_STAT 1 true).inc Reg.CDC_STALL_TMO_CNT).inc Reg.CDC_LOST_CNT).wrN Reg.CDC_LOST_LAST
    (crossingId x y + 256)

theorem stallTimeout_eq {s : State} (hc : s.clocked = true) (x y : Nat) : s.stallTimeout x y = (s.noteStall x y).alarm Page.CDC 1 0 := if_pos hc

theorem noteStall_writes (s : State) (x y : Nat) : s.Writes (s.noteStall x y)
    [Reg.CDC_STALL_CNT, Reg.CDC_STAT, Reg.CDC_STALL_TMO_CNT, Reg.CDC_LOST_CNT, Reg.CDC_LOST_LAST] :=
  ((((add_writes _ _ _).trans (setBit_writes _ _ _ _)).trans (inc_writes _ _)).trans (inc_writes _ _)).trans (wrN_writes _ _ _)

theorem noteStall_page (s : State) (x y : Nat) :
    (s.noteStall x y).rdN Reg.CDC_STALL_CNT = min (s.rdN Reg.CDC_STALL_CNT + 4096) 0xFFFFFFFF ∧
      (s.noteStall x y).bit Reg.CDC_STAT 1 = true ∧
      (s.noteStall x y).rdN Reg.CDC_LOST_CNT = min (s.rdN Reg.CDC_LOST_CNT + 1) 0xFFFFFFFF ∧
      (s.noteStall x y).rdN Reg.CDC_LOST_LAST = crossingId x y + 256 := by
  have hid := crossingId_lt x y
  unfold State.noteStall
  refine ⟨?_, ?_, ?_, ?_⟩
  · rw [rdN_of_rd (rd_wrN_ne (by decide) _ _), rdN_of_rd (rd_inc_ne (by decide) _), rdN_of_rd (rd_inc_ne (by decide) _),
      rdN_of_rd (rd_setBit_ne (by decide) _ _ _), rdN_add]
  · rw [bit_of_rd (rd_wrN_ne (by decide) _ _), bit_of_rd (rd_inc_ne (by decide) _), bit_of_rd (rd_inc_ne (by decide) _),
      bit_setBit_self (by decide)]
  · rw [rdN_of_rd (rd_wrN_ne (by decide) _ _), rdN_inc, rdN_of_rd (rd_inc_ne (by decide) _), rdN_of_rd (rd_setBit_ne (by decide) _ _ _),
      rdN_of_rd (rd_add_ne (by decide) _ _)]
  · rw [rdN_wrN_self, Nat.mod_eq_of_lt (by omega)]

/-- What a crossing that re-arms writes before its event. -/
def State.noteRearm (s : State) (x y lost : Nat) : State :=
  (((s.add Reg.CDC_LOST_CNT lost).setBit Reg.CDC_STAT 0 true).wrN Reg.CDC_LOST_LAST (crossingId x y)).inc Reg.CDC_REARM_CNT

theorem crossingRearm_eq (s : State) (x y lost : Nat) : s.crossingRearm x y lost = (s.noteRearm x y lost).event Page.CDC 0 0 := rfl

theorem noteRearm_writes (s : State) (x y lost : Nat) : s.Writes (s.noteRearm x y lost)
    [Reg.CDC_LOST_CNT, Reg.CDC_STAT, Reg.CDC_LOST_LAST, Reg.CDC_REARM_CNT] :=
  (((add_writes _ _ _).trans (setBit_writes _ _ _ _)).trans (wrN_writes _ _ _)).trans (inc_writes _ _)

theorem noteRearm_page (s : State) (x y lost : Nat) :
    (s.noteRearm x y lost).rdN Reg.CDC_LOST_CNT = min (s.rdN Reg.CDC_LOST_CNT + lost) 0xFFFFFFFF ∧
      (s.noteRearm x y lost).bit Reg.CDC_STAT 0 = true ∧ (s.noteRearm x y lost).rdN Reg.CDC_LOST_LAST = crossingId x y ∧
      (s.noteRearm x y lost).rdN Reg.CDC_REARM_CNT = min (s.rdN Reg.CDC_REARM_CNT + 1) 0xFFFFFFFF := by
  have hid := crossingId_lt x y
  unfold State.noteRearm
  refine ⟨?_, ?_, ?_, ?_⟩
  · rw [rdN_of_rd (rd_inc_ne (by decide) _), rdN_of_rd (rd_wrN_ne (by decide) _ _), rdN_of_rd (rd_setBit_ne (by decide) _ _ _), rdN_add]
  · rw [bit_of_rd (rd_inc_ne (by decide) _), bit_of_rd (rd_wrN_ne (by decide) _ _), bit_setBit_self (by decide)]
  · rw [rdN_of_rd (rd_inc_ne (by decide) _), rdN_wrN_self, Nat.mod_eq_of_lt (by omega)]
  · rw [rdN_inc, rdN_of_rd (rd_wrN_ne (by decide) _ _), rdN_of_rd (rd_setBit_ne (by decide) _ _ _), rdN_of_rd (rd_add_ne (by decide) _ _)]

/-! ### Temperatures -/

/-- CDC_DT and DT_HIGH after a sample whose worst pair is `p`. -/
def State.noteTemps (s : State) (p : Nat × Nat × Nat × Nat) : State :=
  (s.wrN Reg.CDC_DT (min (tempDiff p.2.2.1 p.2.2.2) 0xFFF + 65536 * p.1 + 1048576 * p.2.1)).setBit Reg.CDC_STAT 3
    (decide (300 < tempDiff p.2.2.1 p.2.2.2))

/-- The hotter region of the pair is remembered. -/
def State.markHotter (s : State) (p : Nat × Nat × Nat × Nat) : State :=
  { s with integ := { s.integ with hotter := if p.2.2.1 < p.2.2.2 then p.2.1 else p.1 } }

theorem tempSample_eq (s : State) (x : RegionTemps) : ∃ b : Bool,
    s.tempSample x = ((s.noteTemps (worstPair (tempPairs x))).markHotter (worstPair (tempPairs x))).when b (fun t => t.alarm Page.CDC 3 0) :=
  ⟨_, rfl⟩

theorem noteTemps_writes (s : State) (p : Nat × Nat × Nat × Nat) : s.Writes (s.noteTemps p) [Reg.CDC_DT, Reg.CDC_STAT] :=
  (wrN_writes _ _ _).trans (setBit_writes _ _ _ _)

theorem noteTemps_page (s : State) (p : Nat × Nat × Nat × Nat) :
    (s.noteTemps p).rdN Reg.CDC_DT = (min (tempDiff p.2.2.1 p.2.2.2) 0xFFF + 65536 * p.1 + 1048576 * p.2.1) % 4294967296 ∧
      (s.noteTemps p).bit Reg.CDC_STAT 3 = decide (300 < tempDiff p.2.2.1 p.2.2.2) := by
  unfold State.noteTemps
  refine ⟨?_, bit_setBit_self (by decide) _ _ _⟩
  rw [rdN_of_rd (rd_setBit_ne (by decide) _ _ _), rdN_wrN_self]
  rfl

theorem whenAlarm_signals (s : State) (b : Bool) (p i : Nat) (d : Word) :
    s.Signals (s.when b (fun t => t.alarm p i d)) [Reg.PG_IRQ_RAW p] := by
  cases b with
  | false => exact (State.Writes.refl s).signals.mono (by simp)
  | true => exact alarm_signals s p i d

theorem tempSample_clause (s : State) (x : RegionTemps) :
    (∃ p, p = worstPair (tempPairs x) ∧
        (s.tempSample x).rdN Reg.CDC_DT = (min (tempDiff p.2.2.1 p.2.2.2) 0xFFF + 65536 * p.1 + 1048576 * p.2.1) % 4294967296 ∧
        (s.tempSample x).bit Reg.CDC_STAT 3 = decide (300 < tempDiff p.2.2.1 p.2.2.2)) ∧
      s.SameRegs (s.tempSample x) [Reg.CDC_DT, Reg.CDC_STAT, Reg.PG_IRQ_RAW Page.CDC] ∧ s.SameMemory (s.tempSample x) := by
  obtain ⟨b, hb⟩ := tempSample_eq s x
  generalize hp : worstPair (tempPairs x) = p at hb
  obtain ⟨hdt, hhigh⟩ := noteTemps_page s p
  have hw := noteTemps_writes s p
  rw [hb]
  have hs := whenAlarm_signals ((s.noteTemps p).markHotter p) b Page.CDC 3 0
  generalize ((s.noteTemps p).markHotter p).when b (fun t => t.alarm Page.CDC 3 0) = t at hs
  generalize s.noteTemps p = u at hdt hhigh hw hs
  refine ⟨⟨p, rfl, ?_, ?_⟩, hw.1.trans hs.1, hw.signals.memory.trans hs.memory⟩
  · exact (rdN_of_rd (hs.1 _ (by decide))).trans hdt
  · exact (bit_of_rd (hs.1 _ (by decide)) _).trans hhigh

/-- Settles O20: a block is re-sent or fails, a crossing stalls or re-arms, a sample shows its worst pair. -/
theorem fabricAndCrossings : Obligations.FabricAndCrossings := by
  refine ⟨?_, ?_, ?_, ?_, ?_⟩
  · intro s l n hc hn
    refine ⟨_, rfl, ?_⟩
    rw [fabricNak_resent hc _ hn]
    exact ⟨rdN_inc _ _, inc_writes _ _⟩
  · intro s l hc
    exact ⟨_, rfl, fabricError_clause s l ((fabricNak_failed hc l.val).trans (fabricError_other s l.val))⟩
  · intro s x y hc
    obtain ⟨hstall, hstat, hcnt, hlast⟩ := noteStall_page s x.val y.val
    refine ⟨_, rfl, ?_⟩
    rw [stallTimeout_eq hc]
    refine ⟨?_, ?_, ?_, ?_, (noteStall_writes s x.val y.val).alarm hc (by decide) (by decide) _ _ _⟩
    · rw [rdN_of_rd (rd_alarm (by decide) _ _ _), hstall]
    · rw [bit_of_rd (rd_alarm (by decide) _ _ _), hstat]
    · rw [rdN_of_rd (rd_alarm (by decide) _ _ _), hcnt]
    · rw [rdN_of_rd (rd_alarm (by decide) _ _ _), hlast]
  · intro s x y lost hc
    obtain ⟨hcnt, hstat, hlast, harm⟩ := noteRearm_page s x.val y.val lost
    refine ⟨_, rfl, ?_⟩
    rw [crossingRearm_eq]
    refine ⟨?_, ?_, ?_, ?_, (noteRearm_writes s x.val y.val lost).event hc (by decide) (by decide) _ _ _⟩
    · rw [rdN_of_rd (rd_event (by decide) _ _ _), hcnt]
    · rw [bit_of_rd (rd_event (by decide) _ _ _), hstat]
    · rw [rdN_of_rd (rd_event (by decide) _ _ _), hlast]
    · rw [rdN_of_rd (rd_event (by decide) _ _ _), harm]
  · intro s x hc
    refine ⟨_, rfl, ?_⟩
    rw [if_pos hc]
    exact tempSample_clause s x

end Sys2Proof.Machine
end

section
/-! SUPPORT. Corrected memory errors and their write-back (O19). -/

namespace Sys2Proof.Machine

/-- No memory differs, and of the registers only those of `l`. -/
def State.MemFrame (s t : State) (l : List Nat) : Prop := s.SameRegs t l ∧ s.SameMemory t

theorem State.Signals.memFrame {s t : State} {l : List Nat} (h : s.Signals t l) : s.MemFrame t l := ⟨h.1, h.memory⟩

theorem State.MemFrame.trans {s t u : State} {l m : List Nat} (h : s.MemFrame t l) (k : t.MemFrame u m) : s.MemFrame u (l ++ m) :=
  ⟨h.1.trans k.1, h.2.trans k.2⟩

theorem State.MemFrame.mono {s t : State} {l m : List Nat} (h : s.MemFrame t l) (k : ∀ a ∈ l, a ∈ m) : s.MemFrame t m := ⟨h.1.mono k, h.2⟩

theorem withInteg_memFrame (s : State) (x : Integ) : s.MemFrame { s with integ := x } [] := ⟨fun _ _ => rfl, rfl, rfl, rfl, rfl, rfl⟩

theorem locWord_lt (mem a : Nat) (scrub : Bool) : locWord mem a scrub < 2 ^ 64 := by
  unfold locWord
  have hb : b2n scrub ≤ 1 := by cases scrub <;> decide
  omega

/-- The address of a word's first byte is its own. -/
theorem wordAddr_idem (a : Nat) : a / 8 * 8 / 8 * 8 = a / 8 * 8 := by omega

/-! ### Hard faults -/

abbrev hardRegs : List Nat := [Reg.MEM_STAT, Reg.MEM_HARD_CNT, Reg.MEM_HARD_DROP_CNT, Reg.PG_IRQ_RAW Page.MEM]

theorem hardFault_memFrame (s : State) (mem a bit : Nat) : s.MemFrame (s.hardFault mem a bit) hardRegs := by
  unfold State.hardFault
  split
  · exact (State.Writes.refl s).signals.memFrame.mono (by simp)
  · split
    · exact ((withInteg_memFrame s _).trans
        (((setBit_writes _ _ _ _).trans (inc_writes _ _)).signals.trans (event_signals _ _ _ _)).memFrame).mono (by simp)
    · exact (((((setBit_writes _ _ _ _).trans (setBit_writes _ _ _ _)).trans (inc_writes _ _)).trans (inc_writes _ _)).signals.trans
        (event_signals _ _ _ _)).memFrame.mono (by simp)

theorem hardFault_wb (s : State) (mem a bit : Nat) : (s.hardFault mem a bit).integ.wb = s.integ.wb := by
  unfold State.hardFault
  split
  · rfl
  · split
    · rw [((inc_writes _ _).signals.trans (event_signals _ _ _ _)).2]
      rfl
    · rw [((((setBit_writes _ _ _ _).trans (inc_writes _ _)).trans (inc_writes _ _)).signals.trans (event_signals _ _ _ _)).2]
      rfl

/-- Bit 0 of MEM_STAT tells of corrected errors; a hard fault sets others. -/
theorem hardFault_stat (s : State) (mem a bit : Nat) : (s.hardFault mem a bit).bit Reg.MEM_STAT 0 = s.bit Reg.MEM_STAT 0 := by
  unfold State.hardFault
  split
  · rfl
  · split
    · rw [bit_of_rd (rd_event (by decide) _ _ _), bit_of_rd (rd_inc_ne (by decide) _), bit_setBit (by decide), if_neg (by decide)]
      rfl
    · rw [bit_of_rd (rd_event (by decide) _ _ _), bit_of_rd (rd_inc_ne (by decide) _), bit_of_rd (rd_inc_ne (by decide) _),
        bit_setBit (by decide), if_neg (by decide), bit_setBit (by decide), if_neg (by decide)]

/-! ### A corrected read -/

/-- The count that a corrected error of a memory raises. -/
def ceReg (mem : Nat) : Nat := if mem = 0xE0 then Reg.MEM_DDR_CE_CNT else Reg.MEM_CE_CNT

/-- What a corrected error writes before its event. -/
def State.noteCorrected (s : State) (mem a : Nat) (scrub : Bool) : State :=
  (((s.inc (ceReg mem)).wr64 Reg.MEM_CE_LAST (locWord mem a scrub)).setBit Reg.MEM_STAT 0 true).event Page.MEM 6 0

/-- The location of a corrected error is kept, and its write-back is pending. -/
def State.keepLocation (s : State) (mem w bit : Nat) : State :=
  { s with integ := { s.integ with
    ce := keep16 mem (⟨mem, w, bit, false⟩ :: s.integ.ce.filter (fun c => !(c.mem == mem && c.addr == w && c.bit == bit))),
    wb := if s.integ.wb.contains (mem, w) then s.integ.wb else s.integ.wb ++ [(mem, w)],
    safea := if mem = 0xA0 then s.mono :: s.integ.safea.filter (fun t => decide (s.mono < t + 1000000000)) else s.integ.safea } }

theorem keepLocation_pending (s : State) (mem w bit : Nat) : (mem, w) ∈ (s.keepLocation mem w bit).integ.wb := by
  unfold State.keepLocation
  dsimp only
  split
  case isTrue h => exact List.contains_iff_mem.mp h
  case isFalse => exact List.mem_append_right _ (List.mem_singleton.mpr rfl)

/-- A corrected error keeps its location, then writes its registers, and is a hard fault where it comes again. -/
theorem ceFound_eq (s : State) (mem a bit : Nat) (scrub : Bool) : ∃ hard : Bool, s.ceFound mem a bit scrub =
    ((s.keepLocation mem (a / 8 * 8) bit).noteCorrected mem a scrub).when hard (fun t => t.hardFault mem (a / 8 * 8) bit) := by
  refine ⟨s.integ.ce.any (fun c => c.mem == mem && c.addr == a / 8 * 8 && c.bit == bit && c.written), ?_⟩
  unfold State.noteCorrected ceReg
  by_cases h : mem = 0xE0
  · simp only [if_pos h]
    unfold State.ceFound
    simp only [if_pos h]
    rfl
  · simp only [if_neg h]
    unfold State.ceFound
    simp only [if_neg h]
    rfl

/-- The registers that a corrected error writes before its event. -/
abbrev correctedRegs (mem : Nat) : List Nat := [ceReg mem, Reg.MEM_CE_LAST, Reg.MEM_CE_LAST + 4, Reg.MEM_STAT, Reg.PG_IRQ_RAW Page.MEM]

theorem noteCorrected_signals (s : State) (mem a : Nat) (scrub : Bool) : s.Signals (s.noteCorrected mem a scrub) (correctedRegs mem) :=
  (((inc_writes _ _).trans (wr64_writes _ _ _)).trans (setBit_writes _ _ _ _)).signals.trans (event_signals _ _ _ _)

/-- The count is none of the other registers that a corrected error, or what follows it, writes. -/
theorem ceReg_ne (mem : Nat) : ceReg mem ∉ [Reg.MEM_CE_LAST, Reg.MEM_CE_LAST + 4, Reg.MEM_SCRUB_PASS_CNT] ∧ ceReg mem ∉ hardRegs ∧
    Reg.MEM_CE_LAST ≠ ceReg mem ∧ Reg.MEM_CE_LAST + 4 ≠ ceReg mem ∧ Reg.MEM_STAT ≠ ceReg mem := by
  unfold ceReg
  split <;> decide

theorem noteCorrected_page (s : State) (mem a : Nat) (scrub : Bool) :
    (s.noteCorrected mem a scrub).rdN (ceReg mem) = min (s.rdN (ceReg mem) + 1) 0xFFFFFFFF ∧
      (s.noteCorrected mem a scrub).rd64 Reg.MEM_CE_LAST = locWord mem a scrub ∧ (s.noteCorrected mem a scrub).bit Reg.MEM_STAT 0 = true := by
  obtain ⟨h1, h2, -, -, -⟩ := ceReg_ne mem
  simp only [List.mem_cons, List.not_mem_nil, or_false, not_or] at h1 h2
  unfold State.noteCorrected
  refine ⟨?_, ?_, ?_⟩
  · rw [rdN_of_rd (rd_event h2.2.2.2 _ _ _), rdN_of_rd (rd_setBit_ne h2.1 _ _ _), rdN_of_rd (rd_wr64_ne h1.1 h1.2.1 _ _), rdN_inc]
  · rw [rd64_of_same ((setBit_writes _ _ _ _).signals.trans (event_signals _ _ _ _)).1 (by decide) (by decide), rd64_wr64,
      Nat.mod_eq_of_lt (locWord_lt mem a scrub)]
  · rw [bit_of_rd (rd_event (by decide) _ _ _), bit_setBit_self (by decide)]

theorem when_memFrame {s : State} {b : Bool} {f : State → State} {l : List Nat} (h : s.MemFrame (f s) l) : s.MemFrame (s.when b f) l := by
  cases b with
  | false => exact (State.Writes.refl s).signals.memFrame.mono (by simp)
  | true => exact h

/-- What a corrected error leaves. -/
theorem ceFound_clause (s : State) (mem a bit : Nat) (scrub : Bool) {t : State} (h : t = s.ceFound mem a bit scrub) :
    t.rdN (ceReg mem) = min (s.rdN (ceReg mem) + 1) 0xFFFFFFFF ∧ t.rd64 Reg.MEM_CE_LAST = locWord mem a scrub ∧ t.bit Reg.MEM_STAT 0 = true ∧
      (mem, a / 8 * 8) ∈ t.integ.wb ∧ s.MemFrame t (correctedRegs mem ++ hardRegs) := by
  obtain ⟨hard, heq⟩ := ceFound_eq s mem a bit scrub
  have hpend := keepLocation_pending s mem (a / 8 * 8) bit
  have hkeep : s.MemFrame (s.keepLocation mem (a / 8 * 8) bit) [] := withInteg_memFrame s _
  have hk : (s.keepLocation mem (a / 8 * 8) bit).rdN (ceReg mem) = s.rdN (ceReg mem) := rdN_of_rd (hkeep.1 _ (by simp))
  generalize s.keepLocation mem (a / 8 * 8) bit = k at heq hpend hkeep hk
  obtain ⟨hcnt, hlast, hstat⟩ := noteCorrected_page k mem a scrub
  have hsig := noteCorrected_signals k mem a scrub
  have hwb : (k.noteCorrected mem a scrub).integ.wb = k.integ.wb := by rw [hsig.2]
  generalize k.noteCorrected mem a scrub = u at heq hcnt hlast hstat hsig hwb
  have hf : u.MemFrame t hardRegs := (h.trans heq) ▸ when_memFrame (hardFault_memFrame u mem (a / 8 * 8) bit)
  refine ⟨?_, ?_, ?_, ?_, (hkeep.trans hsig.memFrame).trans hf⟩
  · rw [hf.1.rdN (ceReg_ne mem).2.1, hcnt, hk]
  · rw [rd64_of_same hf.1 (by decide) (by decide), hlast]
  · rw [h, heq, ← hstat]
    cases hard with
    | false => rfl
    | true => exact hardFault_stat _ _ _ _
  · rw [h, heq]
    rw [← hwb] at hpend
    cases hard with
    | false => exact hpend
    | true => exact (hardFault_wb u mem (a / 8 * 8) bit).symm ▸ hpend

/-! ### The scrubbers -/

/-- The last word of cell memory ends a pass. -/
def State.passEnd (s : State) (mem a : Nat) : State := if mem = 0x80 ∧ a = cellSize - 8 then s.inc Reg.MEM_SCRUB_PASS_CNT else s

theorem scrubRead_eq {s : State} {mem a : Nat} (b : Fin 72) (hc : s.clocked = true) (hm : memHas mem a = true) (hn : mem ≠ 0xE0)
    (hu : s.ueIn mem (a / 8 * 8) 1 = false) :
    s.scrubRead mem a (.corrected b) = (s.ceFound mem (a / 8 * 8) b.val true).passEnd mem (a / 8 * 8) := by
  have hr : s.eccRead mem (a / 8 * 8) true (.corrected b) = s.ceFound mem (a / 8 * 8) b.val true := if_neg (by simp [hu])
  unfold State.scrubRead
  rw [if_pos (by simp [hc, hm, hn]), hr]
  rfl

theorem ddrScrub_eq {s : State} {a : Nat} (b : Fin 72) (hc : s.clocked = true) (hd : s.domOn 11 = true)
    (hu : s.ueIn 0xE0 (a / 64 * 64) 1 = false) : s.ddrScrub a (.corrected b) = s.ceFound 0xE0 (a / 64 * 64) b.val true := by
  have hr : s.eccRead 0xE0 (a / 64 * 64) true (.corrected b) = s.ceFound 0xE0 (a / 64 * 64) b.val true := if_neg (by simp [hu])
  unfold State.ddrScrub
  rw [if_pos (by simp [hc, hd]), hr]

theorem passEnd_writes (s : State) (mem a : Nat) : s.Writes (s.passEnd mem a) [Reg.MEM_SCRUB_PASS_CNT] := by
  unfold State.passEnd
  split
  · exact inc_writes _ _
  · exact (State.Writes.refl s).mono (by simp)

theorem scrubRead_clause (s : State) {mem : Nat} (a : Nat) (bit : Nat) (hn : mem ≠ 0xE0) {t : State}
    (h : t = (s.ceFound mem (a / 8 * 8) bit true).passEnd mem (a / 8 * 8)) :
    t.rdN Reg.MEM_CE_CNT = min (s.rdN Reg.MEM_CE_CNT + 1) 0xFFFFFFFF ∧ t.rd64 Reg.MEM_CE_LAST = locWord mem (a / 8 * 8) true ∧
      t.bit Reg.MEM_STAT 0 = true ∧ (mem, a / 8 * 8) ∈ t.integ.wb ∧
      s.SameRegs t [Reg.MEM_CE_CNT, Reg.MEM_CE_LAST, Reg.MEM_CE_LAST + 4, Reg.MEM_STAT, Reg.PG_IRQ_RAW Page.MEM, Reg.MEM_HARD_CNT,
        Reg.MEM_HARD_DROP_CNT, Reg.MEM_SCRUB_PASS_CNT] ∧ s.SameMemory t := by
  have hreg : ceReg mem = Reg.MEM_CE_CNT := if_neg hn
  obtain ⟨hcnt, hlast, hstat, hwb, hf⟩ := ceFound_clause s mem (a / 8 * 8) bit true rfl
  rw [hreg] at hcnt
  rw [wordAddr_idem] at hwb
  have hw := passEnd_writes (s.ceFound mem (a / 8 * 8) bit true) mem (a / 8 * 8)
  rw [← h] at hw
  generalize s.ceFound mem (a / 8 * 8) bit true = u at hcnt hlast hstat hwb hf hw
  refine ⟨?_, ?_, ?_, ?_, (hf.1.trans hw.1).mono ?_, hf.2.trans hw.signals.memory⟩
  · rw [hw.1.rdN (by decide), hcnt]
  · rw [rd64_of_same hw.1 (by decide) (by decide), hlast]
  · rw [hw.1.bit (by decide), hstat]
  · rw [hw.2]
    exact hwb
  · simp only [correctedRegs, hreg]
    decide

theorem ddrScrub_clause (s : State) (a bit : Nat) {t : State} (h : t = s.ceFound 0xE0 (a / 64 * 64) bit true) :
    t.rdN Reg.MEM_DDR_CE_CNT = min (s.rdN Reg.MEM_DDR_CE_CNT + 1) 0xFFFFFFFF ∧
      t.rd64 Reg.MEM_CE_LAST = locWord 0xE0 (a / 64 * 64) true ∧ t.bit Reg.MEM_STAT 0 = true ∧
      s.SameRegs t [Reg.MEM_DDR_CE_CNT, Reg.MEM_CE_LAST, Reg.MEM_CE_LAST + 4, Reg.MEM_STAT, Reg.PG_IRQ_RAW Page.MEM, Reg.MEM_HARD_CNT,
        Reg.MEM_HARD_DROP_CNT] ∧ s.SameMemory t := by
  obtain ⟨hcnt, hlast, hstat, -, hf⟩ := ceFound_clause s 0xE0 (a / 64 * 64) bit true h
  exact ⟨hcnt, hlast, hstat, hf.1.mono (by decide), hf.2⟩

/-! ### Write-backs -/

/-- A pending write-back is taken. -/
def State.takeWriteBack (s : State) (mem w : Nat) : State :=
  { s with integ := { s.integ with wb := s.integ.wb.filter (fun p => !(p == (mem, w))) } }

theorem notMem_filter_ne {α : Type} [BEq α] [LawfulBEq α] (l : List α) (x : α) : x ∉ l.filter (fun p => !(p == x)) := by simp

theorem eccWriteBack_made {s : State} {mem a : Nat} (h : (mem, a / 8 * 8) ∈ s.integ.wb) : s.eccWriteBack mem a false =
    { s with integ := { s.integ with
      wb := s.integ.wb.filter (fun p => !(p == (mem, a / 8 * 8)))
      ce := s.integ.ce.map (fun c => if c.mem == mem && c.addr == a / 8 * 8 then { c with written := true } else c) } } := by
  unfold State.eccWriteBack
  dsimp only
  rw [if_pos (List.contains_iff_mem.mpr h), if_neg (by decide)]

theorem eccWriteBack_cancelled {s : State} {mem a : Nat} (h : (mem, a / 8 * 8) ∈ s.integ.wb) :
    s.eccWriteBack mem a true = (s.takeWriteBack mem (a / 8 * 8)).inc Reg.MEM_WB_CANCEL_CNT := by
  unfold State.eccWriteBack
  dsimp only
  rw [if_pos (List.contains_iff_mem.mpr h), if_pos rfl]
  rfl

theorem writeBackCancelled_clause (s : State) (mem w : Nat) {t : State} (h : t = (s.takeWriteBack mem w).inc Reg.MEM_WB_CANCEL_CNT) :
    (mem, w) ∉ t.integ.wb ∧ t.rdN Reg.MEM_WB_CANCEL_CNT = min (s.rdN Reg.MEM_WB_CANCEL_CNT + 1) 0xFFFFFFFF ∧
      s.SameRegs t [Reg.MEM_WB_CANCEL_CNT] ∧ t = { s with regs := t.regs, integ := { s.integ with wb := t.integ.wb } } := by
  have hw : (s.takeWriteBack mem w).Writes t _ := h ▸ inc_writes _ Reg.MEM_WB_CANCEL_CNT
  have hcnt := rdN_inc (s.takeWriteBack mem w) Reg.MEM_WB_CANCEL_CNT
  rw [← h] at hcnt
  have hi : t.integ.wb = s.integ.wb.filter (fun p => !(p == (mem, w))) := by rw [hw.2]; rfl
  refine ⟨by rw [hi]; exact notMem_filter_ne _ _, hcnt, hw.1, ?_⟩
  rw [hi, hw.2]
  rfl

/-- Settles O19: each scrubber's corrected read is one corrected error, and a pending write-back ends made or cancelled. -/
theorem correctedErrors : Obligations.CorrectedErrors := by
  refine ⟨?_, ?_, ?_, ?_⟩
  · intro s m a b hc hm hn hu
    exact ⟨_, rfl, scrubRead_clause s a.toNat b.val hn (scrubRead_eq b hc hm hn hu)⟩
  · intro s m a h
    refine ⟨_, rfl, ?_⟩
    rw [eccWriteBack_made h]
    exact ⟨notMem_filter_ne _ _, rfl⟩
  · intro s m a h
    exact ⟨_, rfl, writeBackCancelled_clause s m.val _ (eccWriteBack_cancelled h)⟩
  · intro s a b hc hd hu
    exact ⟨_, rfl, ddrScrub_clause s a.toNat b.val (ddrScrub_eq b hc hd hu)⟩

end Sys2Proof.Machine
end

section
/-! SUPPORT. The event unit: raisings, slots, the event ring and acknowledged alarms (O16, O17). -/

namespace Sys2Proof.Machine

/-! ### Raisings -/

/-- The one raising that waits opens the slot of its page. -/
theorem raisingReceive_opens {s : State} {r : Raising} (hc : s.clocked = true) (hr : s.evt.raisings = [r]) (ha : r.alarm = false)
    (hs : s.evt.slots.any (fun x => x.page == r.page) = false) :
    s.raisingReceive r.page = { s with evt := { s.evt with raisings := [], slots := s.evt.slots ++
      [⟨r.page, trumpBit r.page r.bit, 2 ^ r.bit, 1, r.detail, r.time, r.time⟩] } } := by
  have hmine : s.evt.raisings.filter (fun q => q.page == r.page) = [r] := by simp [hr]
  have hrest : s.evt.raisings.filter (fun q => !(q.page == r.page)) = [] := by simp [hr]
  unfold State.raisingReceive
  rw [if_pos hc]
  dsimp only
  rw [hmine, hrest]
  simp only [forEach, State.takeRaising, State.evArrive, ha, hs, Bool.false_or, Bool.false_eq_true, if_false]

/-! ### The event ring -/

theorem evrLen_pos (s : State) : 0 < s.evrLen := Nat.two_pow_pos _

theorem evrStat_raises (s : State) : s.Raises s.evrStat [Reg.EVT_STAT, Reg.PG_IRQ_RAW Page.EVT] [] := by
  unfold State.evrStat
  dsimp only
  split
  · exact (setBit_writes _ _ _ _).raises.trans (raiseLine_raises _ _ _)
  · exact (setBit_writes _ _ _ _).raises.mono (by simp)

theorem evrLen_of_same {s t : State} {l : List Nat} {r : List Raising} (h : s.Raises t l r) (hl : Reg.EVT_CTRL ∉ l) : t.evrLen = s.evrLen := by
  unfold State.evrLen State.effFld
  rw [h.signals.alters.eff hl]

theorem evrFull_of_same {s t : State} {l : List Nat} {r : List Raising} (h : s.Raises t l r) (hl : Reg.EVT_CTRL ∉ l)
    (hh : Reg.EVT_EVR_HEAD ∉ l) (ht : Reg.EVT_EVR_TAIL ∉ l) : t.evrFull = s.evrFull := by
  unfold State.evrFull
  rw [evrLen_of_same h hl, h.1.fld hh, h.1.fld ht]

/-- EV_FULL shows whether the ring is full. -/
theorem evrStat_shows (s : State) : s.evrStat.bit Reg.EVT_STAT 2 = s.evrStat.evrFull := by
  rw [evrFull_of_same (evrStat_raises s) (by decide) (by decide) (by decide)]
  unfold State.evrStat
  dsimp only
  split
  · rw [bit_of_rd (rd_raiseLine (by decide) _ _), bit_setBit_self (by decide)]
  · exact bit_setBit_self (by decide) _ _ _

theorem evrTail_clause (s : State) (v : Word) :
    (s.evrTail v).fld Reg.EVT_EVR_TAIL 13 0 = v.toNat % 16384 ∧ (s.evrTail v).bit Reg.EVT_STAT 2 = (s.evrTail v).evrFull ∧
      s.Raises (s.evrTail v) [Reg.EVT_EVR_TAIL, Reg.EVT_STAT, Reg.PG_IRQ_RAW Page.EVT] [] := by
  have hr := evrStat_raises (s.setFld Reg.EVT_EVR_TAIL 13 0 v.toNat)
  refine ⟨?_, evrStat_shows _, (setFld_writes _ _ _ _ _).raises.trans hr⟩
  unfold State.evrTail
  rw [hr.1.fld (by decide), fld_setFld (by decide) (by decide)]
  rfl

/-! ### A record of the event ring -/

/-- The bytes of a record, rule R399. -/
def EvSlot.put (x : EvSlot) (m : Memory) (a w0 : Nat) : Memory :=
  (((((m.setN a 4 w0).setN (a + 4) 4 x.mask).setN (a + 8) 4 x.count).setN (a + 12) 4 x.detail.toNat).setN (a + 16) 8 x.first).setN (a + 24) 8 x.last

/-- The stores of a record. -/
def State.storeRecord (s : State) (x : EvSlot) (a w0 : Nat) : State :=
  (((((s.setCell a 4 w0).setCell (a + 4) 4 x.mask).setCell (a + 8) 4 x.count).setCell (a + 12) 4 x.detail.toNat).setCell (a + 16) 8
    x.first).setCell (a + 24) 8 x.last

/-- A part of what lies in cell memory lies there too. -/
theorem inCell_part {a n b k : Nat} (h : inCell a n = true) (hk : b + k ≤ a + n) : inCell b k = true := by
  simp only [inCell, decide_eq_true_eq] at h ⊢
  omega

theorem storeRecord_eq {s : State} {a : Nat} (hu : s.integ.ue = []) (hi : inCell a 32 = true) (x : EvSlot) (w0 : Nat) :
    s.storeRecord x a w0 = { s with cell := x.put s.cell a w0 } := by
  have hput : ∀ (m : Memory) {b k v : Nat}, b + k ≤ a + 32 →
      ({ s with cell := m } : State).setCell b k v = { s with cell := m.setN b k v } := fun m _ _ _ h =>
    setCell_clean (s := { s with cell := m }) hu (inCell_part hi h) _
  unfold State.storeRecord
  rw [setCell_clean hu (inCell_part hi (by omega)), hput _ (by omega), hput _ (by omega), hput _ (by omega), hput _ (by omega),
    hput _ (by omega)]
  rfl

/-- The slot leaves, and the next record has the next number. -/
def State.closeSlot (s : State) (x : EvSlot) : State :=
  { s with evt := { s.evt with slots := s.evt.slots.filter (fun y => !(y.page == x.page)), recSeq := (s.evt.recSeq + 1) % 65536 } }

/-- HEAD and the count of records after one more. -/
def State.advanceHead (s : State) (head : Nat) : State := (s.setFld Reg.EVT_EVR_HEAD 13 0 head).inc Reg.EVT_EV_CNT

theorem evRecord_eq (s : State) (x : EvSlot) : s.evRecord x =
    (((s.storeRecord x ((s.eff Reg.EVT_EVR_BASE).toNat + 32 * s.fld Reg.EVT_EVR_HEAD 13 0)
      (x.page % 16384 + 16384 * b2n x.alarm + 65536 * (s.evt.recSeq % 65536))).closeSlot x).advanceHead
      ((s.fld Reg.EVT_EVR_HEAD 13 0 + 1) % s.evrLen)).evrStat := rfl

theorem advanceHead_writes (s : State) (head : Nat) : s.Writes (s.advanceHead head) [Reg.EVT_EVR_HEAD, Reg.EVT_EV_CNT] :=
  (setFld_writes _ _ _ _ _).trans (inc_writes _ _)

theorem advanceHead_page (s : State) {head : Nat} (h : head < 16384) :
    (s.advanceHead head).fld Reg.EVT_EVR_HEAD 13 0 = head ∧
      (s.advanceHead head).rdN Reg.EVT_EV_CNT = min (s.rdN Reg.EVT_EV_CNT + 1) 0xFFFFFFFF := by
  unfold State.advanceHead
  refine ⟨?_, ?_⟩
  · rw [fld_of_rd (rd_inc_ne (by decide) _), fld_setFld (by decide) (by decide)]
    exact Nat.mod_eq_of_lt h
  · rw [rdN_inc, rdN_of_rd (rd_setFld_ne (by decide) _ _ _ _)]

theorem eventRecordWrite_eq {s : State} {page : Nat} {x : EvSlot} (hc : s.clocked = true)
    (hx : s.evt.slots.find? (fun y => y.page == page) = some x) (hf : s.evrFull = false) (hp : s.evt.ringPend = false) :
    s.eventRecordWrite page = s.evRecord x := by
  unfold State.eventRecordWrite
  rw [hx]
  exact if_neg (by simp [hf, hp, hc])

theorem eventRecordWrite_clause {s : State} (x : EvSlot) (hl : s.evrLen ≤ 16384) (hu : s.integ.ue = [])
    (hi : inCell ((s.eff Reg.EVT_EVR_BASE).toNat + 32 * s.fld Reg.EVT_EVR_HEAD 13 0) 32 = true) {t : State} (h : t = s.evRecord x) :
    (∃ a, a = (s.eff Reg.EVT_EVR_BASE).toNat + 32 * s.fld Reg.EVT_EVR_HEAD 13 0 ∧
        t.cell = x.put s.cell a (x.page % 16384 + 16384 * b2n x.alarm + 65536 * (s.evt.recSeq % 65536))) ∧
      t.fld Reg.EVT_EVR_HEAD 13 0 = (s.fld Reg.EVT_EVR_HEAD 13 0 + 1) % s.evrLen ∧
      t.rdN Reg.EVT_EV_CNT = min (s.rdN Reg.EVT_EV_CNT + 1) 0xFFFFFFFF ∧
      t.evt.slots = s.evt.slots.filter (fun y => !(y.page == x.page)) ∧ t.evt.recSeq = (s.evt.recSeq + 1) % 65536 ∧
      s.SameRegs t [Reg.EVT_EVR_HEAD, Reg.EVT_EV_CNT, Reg.EVT_STAT, Reg.PG_IRQ_RAW Page.EVT] := by
  rw [evRecord_eq, storeRecord_eq hu hi] at h
  have hhead : (s.fld Reg.EVT_EVR_HEAD 13 0 + 1) % s.evrLen < 16384 := Nat.lt_of_lt_of_le (Nat.mod_lt _ (evrLen_pos s)) hl
  generalize (s.fld Reg.EVT_EVR_HEAD 13 0 + 1) % s.evrLen = head at h hhead
  generalize ha : (s.eff Reg.EVT_EVR_BASE).toNat + 32 * s.fld Reg.EVT_EVR_HEAD 13 0 = a at h
  generalize x.page % 16384 + 16384 * b2n x.alarm + 65536 * (s.evt.recSeq % 65536) = w0 at h
  have hclosed : s.SameRegs (({ s with cell := x.put s.cell a w0 } : State).closeSlot x) [] := fun _ _ => rfl
  have hcell : (({ s with cell := x.put s.cell a w0 } : State).closeSlot x).cell = x.put s.cell a w0 := rfl
  have hevt : (({ s with cell := x.put s.cell a w0 } : State).closeSlot x).evt.slots = s.evt.slots.filter (fun y => !(y.page == x.page)) ∧
    (({ s with cell := x.put s.cell a w0 } : State).closeSlot x).evt.recSeq = (s.evt.recSeq + 1) % 65536 := ⟨rfl, rfl⟩
  generalize ({ s with cell := x.put s.cell a w0 } : State).closeSlot x = u at h hclosed hcell hevt
  have hw := advanceHead_writes u head
  obtain ⟨hfld, hcnt⟩ := advanceHead_page u hhead
  have hr := evrStat_raises (u.advanceHead head)
  rw [← h] at hr
  refine ⟨⟨a, rfl, ?_⟩, ?_, ?_, ?_, ?_, (hclosed.trans hw.1).trans hr.1⟩
  · rw [hr.2, hw.2]
    exact hcell
  · rw [hr.1.fld (by decide), hfld]
  · rw [hr.1.rdN (by decide), hcnt, hclosed.rdN (by simp)]
  · rw [hr.2, hw.2]
    exact hevt.1
  · rw [hr.2, hw.2]
    exact hevt.2

/-- Settles O16: a raising opens its slot, a slot becomes a record, and TAIL frees records. -/
theorem eventRing : Obligations.EventRing := by
  refine ⟨?_, ?_, ?_⟩
  · intro s r hc hr ha hs
    exact ⟨_, rfl, raisingReceive_opens hc hr ha hs⟩
  · intro s page x hc hx hf hp hl hu hi
    exact ⟨_, rfl, eventRecordWrite_clause x hl hu hi (eventRecordWrite_eq hc hx hf hp)⟩
  · intro s ag v hw
    exact completes_write hw rfl (evrTail_clause s v)

/-! ### Acknowledged alarms -/

/-- What the alarm store holds decides which of its entries are live. -/
theorem almLive_of_same {s t : State} (hc : t.cell = s.cell) (he : t.eff Reg.EVT_ALM_BASE = s.eff Reg.EVT_ALM_BASE) (i : Nat) :
    t.almLive i = s.almLive i := by
  unfold State.almLive State.almAddr State.cell32 State.cellN
  rw [hc, he]

theorem almUsed_of_same {s t : State} (hc : t.cell = s.cell) (he : t.eff Reg.EVT_ALM_BASE = s.eff Reg.EVT_ALM_BASE) : t.almUsed = s.almUsed := by
  unfold State.almUsed
  simp only [almLive_of_same hc he]

theorem almUsed_le (s : State) : s.almUsed ≤ 1024 := (List.length_filter_le _ _).trans_eq List.length_range

theorem almStat_raises (s : State) : s.Raises s.almStat [Reg.EVT_STAT, Reg.PG_IRQ_RAW Page.EVT] [] := by
  unfold State.almStat
  dsimp only
  have hw := ((setFld_writes s Reg.EVT_STAT 26 16 s.almUsed).trans (setBit_writes _ Reg.EVT_STAT 0 (decide (768 ≤ s.almUsed)))).trans
    (setBit_writes _ Reg.EVT_STAT 1 (decide (1024 ≤ s.almUsed)))
  split
  · exact (hw.raises.trans (raiseLine_raises _ _ _)).mono (by simp)
  · exact hw.raises.mono (by simp)

/-- ALM_USED shows the number of live entries. -/
theorem almStat_shows (s : State) : s.almStat.fld Reg.EVT_STAT 26 16 = s.almUsed := by
  have hw : (((s.setFld Reg.EVT_STAT 26 16 s.almUsed).setBit Reg.EVT_STAT 0 (decide (768 ≤ s.almUsed))).setBit Reg.EVT_STAT 1
      (decide (1024 ≤ s.almUsed))).fld Reg.EVT_STAT 26 16 = s.almUsed := by
    rw [fld_setBit_ne (by decide) (by decide), fld_setBit_ne (by decide) (by decide), fld_setFld (by decide) (by decide)]
    exact Nat.mod_eq_of_lt (Nat.lt_of_le_of_lt (almUsed_le s) (by decide))
  unfold State.almStat
  dsimp only
  split
  · rw [fld_of_rd (rd_raiseLine (by decide) _ _), hw]
  · exact hw

/-- A change that goes to the peer waits in the event unit alone. -/
theorem almMirror_eq (s : State) (i : Nat) : ∃ l, s.almMirror i = { s with evt := { s.evt with mirror := l } } := by
  unfold State.almMirror
  split
  · exact ⟨_, rfl⟩
  · exact ⟨_, rfl⟩

/-- With no alarm held a freed entry stays free. -/
theorem almRelease_none {s : State} (h : s.evt.held = []) (hn : s.evt.nodeHeld = []) (i : Nat) : s.almRelease i = s := by
  unfold State.almRelease
  rw [h, hn]
  rfl

theorem almAck_accepted {s : State} {i : Nat} {n : Word} (hl : s.almLive i = true) (hn : s.cell32 (s.almAddr i + 32) = n.toNat)
    (hu : s.integ.ue = []) (hi : inCell (s.almAddr i) 64 = true) :
    s.almAck i n = ((({ s with cell := s.cell.setN (s.almAddr i + 36) 4 3 } : State).almStat).almMirror i).almRelease i := by
  unfold State.almAck
  rw [if_pos (by simp [hl, hn]), setCell_clean hu (inCell_part hi (by omega))]

/-- An entry with STATE 3 is not live. -/
theorem almLive_freed {s t : State} {i : Nat} (hc : t.cell = s.cell.setN (s.almAddr i + 36) 4 3)
    (he : t.eff Reg.EVT_ALM_BASE = s.eff Reg.EVT_ALM_BASE) (hi : inCell (s.almAddr i) 64 = true) : t.almLive i = false := by
  have hcell : t.cell32 (t.almAddr i + 36) = 3 := by
    unfold State.cell32 State.cellN
    rw [show t.almAddr i = s.almAddr i by unfold State.almAddr; rw [he], if_pos (inCell_part hi (by omega)), hc, Memory.getN_setN]
    rfl
  unfold State.almLive
  rw [hcell]
  rfl

theorem almAck_clause {s : State} {i : Nat} (hi : inCell (s.almAddr i) 64 = true) (hh : s.evt.held = []) (hn : s.evt.nodeHeld = []) {t : State}
    (h : t = ((({ s with cell := s.cell.setN (s.almAddr i + 36) 4 3 } : State).almStat).almMirror i).almRelease i) :
    t.cell = s.cell.setN (s.almAddr i + 36) 4 3 ∧ t.almLive i = false ∧ t.fld Reg.EVT_STAT 26 16 = t.almUsed ∧
      s.SameRegs t [Reg.EVT_STAT, Reg.PG_IRQ_RAW Page.EVT] := by
  have hsame : s.Alters ({ s with cell := s.cell.setN (s.almAddr i + 36) 4 3 } : State) [] := ⟨fun _ _ => rfl, rfl⟩
  have hcell : ({ s with cell := s.cell.setN (s.almAddr i + 36) 4 3 } : State).cell = s.cell.setN (s.almAddr i + 36) 4 3 := rfl
  have hevt : ({ s with cell := s.cell.setN (s.almAddr i + 36) 4 3 } : State).evt = s.evt := rfl
  generalize ({ s with cell := s.cell.setN (s.almAddr i + 36) 4 3 } : State) = u at h hsame hcell hevt
  have hr := almStat_raises u
  have hshow := almStat_shows u
  have hheld : u.almStat.evt.held = [] ∧ u.almStat.evt.nodeHeld = [] := by
    rw [hr.2]
    exact ⟨(congrArg Evt.held hevt).trans hh, (congrArg Evt.nodeHeld hevt).trans hn⟩
  have hcell' : u.almStat.cell = u.cell := by rw [hr.2]
  have halt := hr.signals.alters
  generalize u.almStat = w at h hshow hheld hcell' halt
  obtain ⟨l, hl⟩ := almMirror_eq w i
  have hrel := almRelease_none (s := { w with evt := { w.evt with mirror := l } }) hheld.1 hheld.2 i
  rw [hl, hrel] at h
  have hall : s.Alters t [Reg.EVT_STAT, Reg.PG_IRQ_RAW Page.EVT] := by
    rw [h]
    exact hsame.trans halt
  have ht : t.cell = u.cell := by rw [h]; exact hcell'
  have he : t.eff Reg.EVT_ALM_BASE = u.eff Reg.EVT_ALM_BASE := (hall.eff (by decide)).trans (hsame.eff (by simp)).symm
  refine ⟨ht.trans hcell, almLive_freed (ht.trans hcell) (hall.eff (by decide)) hi, ?_, hall.1⟩
  rw [almUsed_of_same ht he, ← hshow, h]
  rfl

theorem almAck_refused {s : State} {i : Nat} {n : Word} (h : s.almLive i = false ∨ s.cell32 (s.almAddr i + 32) ≠ n.toNat) :
    s.almAck i n = (s.setBit Reg.EVT_STAT 5 true).raiseLine Page.EVT 5 := by
  refine if_neg ?_
  rcases h with h | h <;> simp [h]

/-- Settles O17: the entry is judged as the write finds it. -/
theorem alarmAcknowledge : Obligations.AlarmAcknowledge := by
  refine ⟨?_, ?_⟩
  · intro s ag i n hw hl hn hh hnh hu hi
    exact completes_write hw rfl (almAck_clause hi hh hnh (almAck_accepted hl hn hu hi))
  · intro s ag i n hw h
    refine completes_write hw rfl ?_
    rw [almAck_refused h]
    exact ⟨by rw [bit_of_rd (rd_raiseLine (by decide) _ _), bit_setBit_self (by decide)],
      (setBit_writes _ _ _ _).raises.trans (raiseLine_raises _ _ _)⟩

end Sys2Proof.Machine
end

section
/-! SUPPORT. The readout's header and the flag of a settled rail: two statements that fail (O7, O8). -/

namespace Sys2Proof.Machine

/-! ### The readout of a freeze -/

/-- A frozen part with the readout enabled and its freeze recorded. -/
def frozenForReadout : State :=
  { State.reset with
    regs := [(Reg.SYS_FRZ_CFG, 1)]
    sys := { Sys.reset with dev := .frozen, frozen := some ⟨.run, 1, true, 0, false, false, none⟩ } }

theorem frozenForReadout_ready : frozenForReadout.sys.dev = .frozen ∧ frozenForReadout.bit Reg.SYS_FRZ_CFG 0 = true ∧
    frozenForReadout.bit Reg.DBG_STAT 0 = false ∧ frozenForReadout.sys.readout = [] := by decide +kernel

/-- The readout starts with a header. -/
theorem readoutHeader_ne_nil (s : State) (f : Freeze) : s.readoutHeader f ≠ [] := by
  unfold State.readoutHeader
  exact List.append_ne_nil_of_right_ne_nil _ (by unfold wordBytes; exact List.cons_ne_nil _ _)

/-- The readout of a recorded freeze has a header on its way. -/
theorem readoutStart_readout {s : State} {f : Freeze} (hd : s.sys.dev = .frozen) (hf : s.sys.frozen = some f)
    (hc : s.bit Reg.SYS_FRZ_CFG 0 = true) (hb : s.bit Reg.DBG_STAT 0 = false) : s.readoutStart.sys.readout = s.readoutHeader f := by
  have hheader : s.sendHeader = { s with sys := { s.sys with readout := s.readoutHeader f } } := by
    unfold State.sendHeader
    rw [hf]
  unfold State.readoutStart
  rw [if_pos (by simp [hd, hc, hb]), hheader]
  rfl

/-- Refutes O7: READOUT_START of a recorded freeze also sends the header of the stream, so not only registers differ. -/
theorem not_freezeAndReadout : ¬ Obligations.FreezeAndReadout := by
  rintro ⟨-, -, hstart, -, -⟩
  obtain ⟨hd, hc, hb, hnone⟩ := frozenForReadout_ready
  obtain ⟨t, ht, -, -, -, -, hframe⟩ := hstart frozenForReadout hd hc hb
  have hsent : t.sys.readout = frozenForReadout.readoutHeader ⟨.run, 1, true, 0, false, false, none⟩ := by
    rw [← Host.Outcome.next.inj ht]
    exact readoutStart_readout hd rfl hc hb
  have hkept : t.sys.readout = [] := by
    rw [hframe]
    exact hnone
  exact readoutHeader_ne_nil _ _ (hsent.symm.trans hkept)

/-! ### A settled rail -/

/-- READY with quad 0 on its way from point 0 to point 1, its VID output moved. -/
def risingPoint : State :=
  { State.reset with
    sys := { Sys.reset with dev := .ready }
    pwr := { State.reset.pwr with vid := 1, change := some ⟨0, 0, 1, true, false⟩ } }

/-- Refutes O8: RAIL_SETTLED, which says the rail lies within its thresholds, also sets the rail's bit of PWR_RAIL_FLAG. -/
theorem not_powerCommands : ¬ Obligations.PowerCommands := by
  rintro ⟨-, -, -, hsettled, -⟩
  obtain ⟨t, ht, -, -, hregs, -⟩ := hsettled risingPoint 0 700 ⟨0, 0, 1, true, false⟩ (by decide) rfl rfl rfl (by decide) (by decide)
  have hflag : t.bit Reg.PWR_RAIL_FLAG 1 = true := by
    rw [← Host.Outcome.next.inj ht]
    decide +kernel
  have hkept : t.bit Reg.PWR_RAIL_FLAG 1 = false := by
    rw [hregs.bit (by decide)]
    decide +kernel
  exact Bool.false_ne_true (hkept.symm.trans hflag)

end Sys2Proof.Machine
end

section
/-! SUPPORT. The field die's inputs and supplies (O51). -/

namespace Sys2Proof.Machine

theorem State.SameMemory.refl (s : State) : s.SameMemory s := ⟨rfl, rfl, rfl, rfl, rfl⟩

/-! ### What a sample has shown stays shown -/

/-- What the inputs of a sample leave, what it measured of outputs and supplies, and every memory, stay. -/
def State.KeepsSample (s t : State) : Prop :=
  t.field.level = s.field.level ∧ t.field.test = s.field.test ∧ t.field.above = s.field.above ∧
    t.fld Reg.FIO_DQ_RB 15 0 = s.fld Reg.FIO_DQ_RB 15 0 ∧ t.rd Reg.FIO_LP_V = s.rd Reg.FIO_LP_V ∧ s.SameMemory t

theorem State.KeepsSample.refl (s : State) : s.KeepsSample s := ⟨rfl, rfl, rfl, rfl, rfl, .refl s⟩

theorem State.KeepsSample.trans {s t u : State} (h : s.KeepsSample t) (k : t.KeepsSample u) : s.KeepsSample u := by
  obtain ⟨h1, h2, h3, h4, h5, h6⟩ := h
  obtain ⟨k1, k2, k3, k4, k5, k6⟩ := k
  exact ⟨k1.trans h1, k2.trans h2, k3.trans h3, k4.trans h4, k5.trans h5, h6.trans k6⟩

theorem State.Signals.keepsSample {s t : State} {l : List Nat} (h : s.Signals t l) (hq : Reg.FIO_DQ_RB ∉ l) (hv : Reg.FIO_LP_V ∉ l) :
    s.KeepsSample t :=
  ⟨congrArg Field.level h.field, congrArg Field.test h.field, congrArg Field.above h.field, h.1.fld hq 15 0, h.1 _ hv, h.memory⟩

/-- Another state of the field die with the same sample. -/
theorem withField_keepsSample (s : State) {x : Field} (hl : x.level = s.field.level) (ht : x.test = s.field.test)
    (ha : x.above = s.field.above) : s.KeepsSample { s with field := x } := ⟨hl, ht, ha, rfl, rfl, ⟨rfl, rfl, rfl, rfl, rfl⟩⟩

theorem refreshDq_keepsSample (s : State) : s.KeepsSample s.refreshDq := by
  obtain ⟨x, n, h, -, hx⟩ := refreshDq_eq s
  have hf := refreshDq_field s
  refine ⟨by rw [hf], by rw [hf], by rw [hf], ?_, refreshDq_sameRegs s _ (by decide), refreshDq_memory s⟩
  rw [h, fld_setFld_ne (by decide) (by decide) (by decide)]
  rfl

theorem forUpTo_keepsSample {f : Nat → State → State} {n : Nat} (hf : ∀ i, i < n → ∀ t : State, t.KeepsSample (f i t)) (s : State) :
    s.KeepsSample (forUpTo f n s) :=
  forUpTo_keeps (P := s.KeepsSample) (fun i hi t h => h.trans (hf i hi t)) (.refl s)

/-! ### Supplies, rule R324 -/

theorem setTwo_self (m : BitVec 2) (g : Fin 2) (b : Bool) : (setTwo m g.val b).getLsbD g.val = b := by
  revert m g b; decide

theorem lpOk_writes (s : State) (g : Nat) : s.Writes (s.lpOk g) [Reg.FIO_LP_STAT] := setBit_writes _ _ _ _

/-- A threshold bit and its alarm, LPn_OK after them: the registers that a supply out of its range writes. -/
theorem supplyAlarm_signals (s : State) (i b g : Nat) :
    s.Signals (((s.setBit Reg.FIO_LP_STAT i true).alarm Page.FIO b 0).lpOk g) [Reg.FIO_LP_STAT, Reg.PG_IRQ_RAW Page.FIO] :=
  (((setBit_writes _ _ _ _).signals.trans (alarm_signals _ _ _ _)).trans (lpOk_writes _ _).signals).mono (by simp)

/-- The group as the field die notes its undervoltage. -/
def State.dropSupply (s : State) (g : Nat) : State :=
  { s with field := { s.field with
      lpUv := setTwo s.field.lpUv g true, lpOff := setTwo s.field.lpOff g true, lpBack := setTwo s.field.lpBack g false } }

/-- An undervoltage, before the outputs follow. -/
def State.noteUnder (s : State) (g : Nat) : State :=
  ((((s.dropSupply g).setBit Reg.FIO_LP_STAT (2 * g) true).inc Reg.FIO_LP_UV_CNT).alarm Page.FIO 4 0).lpOk g

theorem lpUnder_eq {s : State} {g : Nat} (hv : s.field.vcc = true) (hu : s.field.lpUv.getLsbD g = false) :
    s.lpUnder g = (s.noteUnder g).refreshDq := if_neg (by simp [hv, hu])

theorem noteUnder_signals (s : State) (g : Nat) :
    (s.dropSupply g).Signals (s.noteUnder g) [Reg.FIO_LP_STAT, Reg.FIO_LP_UV_CNT, Reg.PG_IRQ_RAW Page.FIO] :=
  ((((setBit_writes _ _ _ _).trans (inc_writes _ _)).signals.trans (alarm_signals _ _ _ _)).trans (lpOk_writes _ _).signals).mono (by simp)

theorem lpUnder_keepsSample (s : State) (g : Nat) : s.KeepsSample (s.lpUnder g) := by
  unfold State.lpUnder
  split
  · exact .refl s
  · exact ((withField_keepsSample (x := (s.dropSupply g).field) s rfl rfl rfl).trans
      ((noteUnder_signals s g).keepsSample (by decide) (by decide))).trans (refreshDq_keepsSample _)

theorem noteUnder_page (s : State) (g : Fin 2) :
    (s.noteUnder g.val).bit Reg.FIO_LP_STAT (2 * g.val) = true ∧ (s.noteUnder g.val).bit Reg.FIO_LP_STAT (8 + g.val) = false ∧
      (s.noteUnder g.val).rdN Reg.FIO_LP_UV_CNT = min (s.rdN Reg.FIO_LP_UV_CNT + 1) 0xFFFFFFFF := by
  have hg := g.isLt
  have hs := ((setBit_writes (s.dropSupply g.val) Reg.FIO_LP_STAT (2 * g.val) true).trans (inc_writes _ Reg.FIO_LP_UV_CNT)).signals.trans
    (alarm_signals _ Page.FIO 4 0)
  have hlow : (((((s.dropSupply g.val).setBit Reg.FIO_LP_STAT (2 * g.val) true).inc Reg.FIO_LP_UV_CNT).alarm Page.FIO 4 0).field.lpUv).getLsbD g.val
      = true := by
    rw [hs.field]
    exact setTwo_self _ g true
  refine ⟨?_, ?_, ?_⟩
  · unfold State.noteUnder State.lpOk
    rw [bit_setBit (by omega), if_neg (by omega), bit_of_rd (rd_alarm (by decide) _ _ _), bit_of_rd (rd_inc_ne (by decide) _),
      bit_setBit_self (by omega)]
  · unfold State.noteUnder State.lpOk
    rw [bit_setBit_self (by omega), hlow]
    rfl
  · unfold State.noteUnder State.lpOk
    rw [rdN_of_rd (rd_setBit_ne (by decide) _ _ _), rdN_of_rd (rd_alarm (by decide) _ _ _), rdN_inc, rdN_of_rd (rd_setBit_ne (by decide) _ _ _)]
    rfl

theorem dqOn_unsupplied {s : State} {i : Nat} (h : s.field.lpOff.getLsbD (i / 8) = true) : s.dqOn i = false := by
  simp [State.dqOn, h]

theorem lpUnder_clause (s : State) (g : Fin 2) {t : State} (h : t = (s.noteUnder g.val).refreshDq) :
    t.field.lpUv.getLsbD g.val = true ∧ t.field.lpOff.getLsbD g.val = true ∧ t.bit Reg.FIO_LP_STAT (2 * g.val) = true ∧
      t.bit Reg.FIO_LP_STAT (8 + g.val) = false ∧ t.rdN Reg.FIO_LP_UV_CNT = min (s.rdN Reg.FIO_LP_UV_CNT + 1) 0xFFFFFFFF ∧
      (∀ i, i < 16 → i / 8 = g.val → t.field.on.getLsbD i = false) ∧ s.SameMemory t := by
  have hs := noteUnder_signals s g.val
  obtain ⟨hu, hok, hn⟩ := noteUnder_page s g
  have hmem : s.SameMemory (s.noteUnder g.val) := hs.memory
  have huv : (s.noteUnder g.val).field.lpUv.getLsbD g.val = true := by rw [hs.field]; exact setTwo_self _ g true
  have hoff : (s.noteUnder g.val).field.lpOff.getLsbD g.val = true := by rw [hs.field]; exact setTwo_self _ g true
  generalize s.noteUnder g.val = w at h hu hok hn hmem huv hoff
  have hr := refreshDq_sameRegs w
  rw [h]
  refine ⟨by rw [refreshDq_field, huv], by rw [refreshDq_field, hoff], ?_, ?_, ?_, ?_, hmem.trans (refreshDq_memory w)⟩
  · rw [hr.bit (by decide), hu]
  · rw [hr.bit (by decide), hok]
  · rw [hr.rdN (by decide), hn]
  · intro i hi hgi
    rw [refreshDq_on w hi, dqOn_unsupplied (by rw [hgi, hoff])]

/-- The group as the field die notes its overvoltage. -/
def State.raiseSupply (s : State) (g : Nat) : State := { s with field := { s.field with lpOv := setTwo s.field.lpOv g true } }

/-- An overvoltage of a group. -/
def State.noteOverSupply (s : State) (g : Nat) : State :=
  (((s.raiseSupply g).setBit Reg.FIO_LP_STAT (2 * g + 1) true).alarm Page.FIO 5 0).lpOk g

theorem lpHigh_eq {s : State} {g : Nat} (hv : s.field.vcc = true) (ho : s.field.lpOv.getLsbD g = false) : s.lpHigh g = s.noteOverSupply g :=
  if_neg (by simp [hv, ho])

theorem noteOverSupply_signals (s : State) (g : Nat) : (s.raiseSupply g).Signals (s.noteOverSupply g) [Reg.FIO_LP_STAT, Reg.PG_IRQ_RAW Page.FIO] :=
  supplyAlarm_signals _ _ _ _

theorem lpHigh_keepsSample (s : State) (g : Nat) : s.KeepsSample (s.lpHigh g) := by
  unfold State.lpHigh
  split
  · exact .refl s
  · exact (withField_keepsSample (x := (s.raiseSupply g).field) s rfl rfl rfl).trans
      ((noteOverSupply_signals s g).keepsSample (by decide) (by decide))

theorem lpHigh_clause (s : State) (g : Fin 2) {t : State} (h : t = s.noteOverSupply g.val) :
    t.bit Reg.FIO_LP_STAT (2 * g.val + 1) = true ∧ t.bit Reg.FIO_LP_STAT (8 + g.val) = false ∧ t.field.on = s.field.on ∧
      s.SameRegs t [Reg.FIO_LP_STAT, Reg.PG_IRQ_RAW Page.FIO] ∧ s.SameMemory t := by
  have hg := g.isLt
  have hs := noteOverSupply_signals s g.val
  have hregs : s.SameRegs (s.noteOverSupply g.val) [Reg.FIO_LP_STAT, Reg.PG_IRQ_RAW Page.FIO] := hs.1
  have hmem : s.SameMemory (s.noteOverSupply g.val) := hs.memory
  have hhigh : ((((s.raiseSupply g.val).setBit Reg.FIO_LP_STAT (2 * g.val + 1) true).alarm Page.FIO 5 0).field.lpOv).getLsbD g.val = true := by
    rw [((setBit_writes (s.raiseSupply g.val) Reg.FIO_LP_STAT (2 * g.val + 1) true).signals.trans (alarm_signals _ Page.FIO 5 0)).field]
    exact setTwo_self _ g true
  rw [h]
  refine ⟨?_, ?_, by rw [hs.field]; rfl, hregs, hmem⟩
  · unfold State.noteOverSupply State.lpOk
    rw [bit_setBit (by omega), if_neg (by omega), bit_of_rd (rd_alarm (by decide) _ _ _), bit_setBit_self (by omega)]
  · unfold State.noteOverSupply State.lpOk
    rw [bit_setBit_self (by omega), hhigh, Bool.not_true, Bool.and_false]

/-- The group as the field die notes its recovery. -/
def State.recoverSupply (s : State) (g : Nat) : State :=
  { s with field := { s.field with lpUv := setTwo s.field.lpUv g false, lpBack := setTwo s.field.lpBack g true } }

theorem lpRecovery_eq {s : State} {g : Nat} (hv : s.field.vcc = true) (ho : s.field.lpOff.getLsbD g = true) :
    s.lpRecovery g = (s.recoverSupply g).lpOk g := if_pos (by simp [hv, ho])

theorem lpRecovery_clause (s : State) (g : Fin 2) {t : State} (h : t = (s.recoverSupply g.val).lpOk g.val) :
    t.field.lpUv.getLsbD g.val = false ∧ t.field.lpBack.getLsbD g.val = true ∧ t.field.lpOff = s.field.lpOff ∧
      t.bit Reg.FIO_LP_STAT (8 + g.val) = !s.field.lpOv.getLsbD g.val ∧ s.SameRegs t [Reg.FIO_LP_STAT] ∧ s.SameMemory t := by
  have hg := g.isLt
  have hw := lpOk_writes (s.recoverSupply g.val) g.val
  have hf := hw.signals.field
  rw [← h] at hw hf
  have huv : (s.recoverSupply g.val).field.lpUv.getLsbD g.val = false := setTwo_self _ g false
  refine ⟨by rw [hf, huv], by rw [hf]; exact setTwo_self _ g true, by rw [hf]; rfl, ?_, hw.1, hw.signals.memory⟩
  rw [h]
  unfold State.lpOk
  rw [bit_setBit_self (by omega), huv, Bool.not_false, Bool.true_and]
  rfl

/-! ### Counting inputs, rules R315 and R316 -/

/-- A counted edge. -/
def State.noteCounted (s : State) (i stamp : Nat) : State :=
  (s.wrN (Reg.FIO_CNT_VAL i) (s.rdN (Reg.FIO_CNT_VAL i) + 1)).setCountRt i
    { s.countRt i with last := some stamp, gap := (s.countRt i).last.map (fun t0 => stamp - t0) }

theorem countEdge_eq {s : State} {i : Nat} {rising : Bool} (hv : s.field.vcc = true) (h0 : (s.eff (Reg.FIO_CNT i)).getLsbD 0 = true)
    (hr : (s.eff (Reg.FIO_CNT i)).getLsbD (if rising then 1 else 2) = true) (stamp : Nat) :
    s.countEdge i rising stamp = s.noteCounted i stamp := if_pos (by simp only [hv, h0, hr, Bool.and_self])

theorem countEdge_clause (s : State) (i stamp : Nat) {t : State} (h : t = s.noteCounted i stamp) :
    t.rdN (Reg.FIO_CNT_VAL i) = (s.rdN (Reg.FIO_CNT_VAL i) + 1) % 4294967296 ∧ (t.countRt i).last = some stamp ∧
      s.SameRegs t [Reg.FIO_CNT_VAL i] ∧ s.SameMemory t := by
  have hw := wrN_writes s (Reg.FIO_CNT_VAL i) (s.rdN (Reg.FIO_CNT_VAL i) + 1)
  have hv := rdN_wrN_self s (Reg.FIO_CNT_VAL i) (s.rdN (Reg.FIO_CNT_VAL i) + 1)
  have hmem := hw.signals.memory
  rw [h]
  unfold State.noteCounted
  generalize s.wrN (Reg.FIO_CNT_VAL i) (s.rdN (Reg.FIO_CNT_VAL i) + 1) = u at hw hv hmem ⊢
  refine ⟨hv, ?_, hw.1, hmem⟩
  unfold State.countRt State.setCountRt
  rw [Tab.get_set_self]

/-! ### The inputs of a sample, rules R310 to R313 -/

/-- One input of a sample at level `lvl`, with the filter `filt`. -/
def Field.sample (f : Field) (i filt : Nat) (lvl : Bool) : Field :=
  if lvl = f.level.getLsbD i then { f with runs := natSet f.runs i 0 }
  else if filt < natAt f.runs i + 1 then
    { f with runs := natSet f.runs i 0, level := BitVec.ofNat 32 (withBits f.level.toNat i i (b2n lvl)) }
  else { f with runs := natSet f.runs i (natAt f.runs i + 1) }

/-- The accepted level after a sample at level `lvl`. -/
def Field.accepts (f : Field) (i filt : Nat) (lvl : Bool) : Bool :=
  if lvl ≠ f.level.getLsbD i ∧ filt < natAt f.runs i + 1 then lvl else f.level.getLsbD i

theorem natAt_natSet_ne {i j : Nat} (h : j ≠ i) (l : List (Nat × Nat)) (v : Nat) : natAt (natSet l i v) j = natAt l j := by
  unfold natAt natSet
  rw [List.find?_cons_of_neg (by simpa using Ne.symm h), List.find?_filter]
  have hsame : (fun e : Nat × Nat => decide ((e.1 != i) = true ∧ (e.1 == j) = true)) = fun e => e.1 == j := by
    funext e
    by_cases he : e.1 = j
    · simp [he, h]
    · simp [he]
  rw [hsame]

theorem sample_frame (f : Field) (i filt : Nat) (lvl : Bool) :
    f.sample i filt lvl = { f with runs := (f.sample i filt lvl).runs, level := (f.sample i filt lvl).level } := by
  unfold Field.sample
  split
  · rfl
  · split <;> rfl

theorem sample_runs_ne {i j : Nat} (h : j ≠ i) (f : Field) (filt : Nat) (lvl : Bool) :
    natAt (f.sample i filt lvl).runs j = natAt f.runs j := by
  unfold Field.sample
  split
  · exact natAt_natSet_ne h _ _
  · split <;> exact natAt_natSet_ne h _ _

/-- A bit of a word with one bit written anew. -/
theorem getLsbD_withBit {i j : Nat} (hj : j < 32) (m : BitVec 32) (b : Bool) :
    (BitVec.ofNat 32 (withBits m.toNat i i (b2n b))).getLsbD j = if j = i then b else m.getLsbD j := by
  rw [BitVec.getLsbD_ofNat, testBit_withBits (Nat.le_refl i), decide_eq_true hj, Bool.true_and]
  by_cases h : j = i
  · subst h
    cases b <;> simp [b2n]
  · rw [if_neg (by omega), if_neg h]
    rfl

theorem sample_level {i : Nat} (hi : i < 32) (f : Field) (filt : Nat) (lvl : Bool) :
    (f.sample i filt lvl).level.getLsbD i = f.accepts i filt lvl := by
  unfold Field.sample Field.accepts
  by_cases h : lvl = f.level.getLsbD i
  · rw [if_pos h, if_neg (by simp [h])]
  · by_cases hn : filt < natAt f.runs i + 1
    · rw [if_neg h, if_pos hn, if_pos ⟨h, hn⟩]
      exact (getLsbD_withBit hi _ _).trans (if_pos rfl)
    · rw [if_neg h, if_neg hn, if_neg (fun k => hn k.2)]

theorem sample_level_ne {i j : Nat} (h : j ≠ i) (hj : j < 32) (f : Field) (filt : Nat) (lvl : Bool) :
    (f.sample i filt lvl).level.getLsbD j = f.level.getLsbD j := by
  unfold Field.sample
  split
  · rfl
  · split
    · exact (getLsbD_withBit hj _ _).trans (if_neg h)
    · rfl

/-- What an input reads outside the range between its thresholds. -/
theorem diRead_eq {s : State} {i : Nat} {mv : Int} (h : s.diOn i < mv ∨ mv < 5000) : s.diRead i mv = (decide (s.diOn i < mv), s) := by
  have hon : 5000 ≤ s.diOn i := by unfold State.diOn; split <;> decide
  unfold State.diRead
  by_cases hh : s.diOn i < mv
  · rw [if_pos hh, decide_eq_true hh]
  · rw [if_neg hh, if_pos (by omega), decide_eq_false hh]

/-- The level that an input has in a sample. -/
def State.diLevel (s : State) (x : FieldSample) (i : Nat) : Bool := decide (s.diOn i < x.di.getD i 0) && !x.fail.getLsbD i

theorem diInput_eq {s : State} {x : FieldSample} {i : Nat} (h : s.diOn i < x.di.getD i 0 ∨ x.di.getD i 0 < 5000) :
    s.diInput x i = { s with field := s.field.sample i (s.diFilt i) (s.diLevel x i) } := by
  unfold State.diInput
  rw [diRead_eq h]
  dsimp only
  unfold Field.sample State.diLevel
  split
  · rfl
  · split <;> rfl

/-- The first `n` inputs of a sample: each is accepted as the sample says, the others wait. -/
def State.Sampled (s t : State) (x : FieldSample) (n : Nat) : Prop :=
  (∃ runs level, t = { s with field := { s.field with runs := runs, level := level } }) ∧
    (∀ j, j < 32 → t.field.level.getLsbD j = if j < n then s.field.accepts j (s.diFilt j) (s.diLevel x j) else s.field.level.getLsbD j) ∧
    (∀ j, n ≤ j → natAt t.field.runs j = natAt s.field.runs j)

theorem State.Sampled.next {s t : State} {x : FieldSample} {n : Nat} (h : s.Sampled t x n) (hn : n < 32)
    (hx : s.diOn n < x.di.getD n 0 ∨ x.di.getD n 0 < 5000) : s.Sampled (t.diInput x n) x (n + 1) := by
  obtain ⟨⟨runs, level, ht⟩, hlevel, hruns⟩ := h
  have hon : t.diOn n = s.diOn n := by rw [ht]; rfl
  have hfilt : t.diFilt n = s.diFilt n := by rw [ht]; rfl
  have hlvl : t.diLevel x n = s.diLevel x n := by unfold State.diLevel; rw [hon]
  have haccepts : t.field.accepts n (s.diFilt n) (s.diLevel x n) = s.field.accepts n (s.diFilt n) (s.diLevel x n) := by
    unfold Field.accepts
    rw [hlevel n hn, if_neg (Nat.lt_irrefl n), hruns n (Nat.le_refl n)]
  have hfield : t.field = { s.field with runs := runs, level := level } := by rw [ht]
  rw [diInput_eq (by rw [hon]; exact hx), hfilt, hlvl]
  refine ⟨⟨(t.field.sample n (s.diFilt n) (s.diLevel x n)).runs, (t.field.sample n (s.diFilt n) (s.diLevel x n)).level, ?_⟩, ?_, ?_⟩
  · rw [sample_frame, ht]
  · intro j hj
    by_cases hjn : j = n
    · subst hjn
      rw [if_pos (Nat.lt_succ_self j)]
      exact (sample_level hj _ _ _).trans haccepts
    · refine (sample_level_ne hjn hj _ _ _).trans ((hlevel j hj).trans ?_)
      simp only [show j < n + 1 ↔ j < n by omega]
  · intro j hj
    exact (sample_runs_ne (by omega) _ _ _).trans (hruns j (by omega))

theorem sampled_upTo {s : State} {x : FieldSample} (hx : ∀ i, i < 32 → s.diOn i < x.di.getD i 0 ∨ x.di.getD i 0 < 5000) :
    ∀ n, n ≤ 32 → s.Sampled (forUpTo (fun i st => st.diInput x i) n s) x n
  | 0, _ => ⟨⟨_, _, rfl⟩, fun _ _ => rfl, fun _ _ => rfl⟩
  | n + 1, h => (sampled_upTo hx n (Nat.le_of_succ_le h)).next h (hx n h)

/-! ### Homing inputs and tests of a sample -/

/-- Only what the profile unit keeps differs. -/
def State.OnlyProf (s t : State) : Prop := t = { s with prof := t.prof }

theorem State.OnlyProf.refl (s : State) : s.OnlyProf s := rfl
theorem State.OnlyProf.trans {s t u : State} (h : s.OnlyProf t) (k : t.OnlyProf u) : s.OnlyProf u := by
  unfold State.OnlyProf at *
  rw [k, h]

theorem homeSample_onlyProf (s : State) (a : Nat) (i : HomeInput) (lvl : Bool) (t : Nat) : s.OnlyProf (s.homeSample a i lvl t) := by
  unfold State.homeSample
  split
  · exact .refl s
  · dsimp only
    split <;> rfl

theorem homeDi_onlyProf (s : State) (level : BitVec 32) (t : Nat) : s.OnlyProf (s.homeDi level t) := by
  refine forUpTo_invariant (P := s.OnlyProf) (fun a u h => ?_) 144 (.refl s)
  split
  · exact h
  · refine forEach_invariant (P := s.OnlyProf) (fun i v hv => ?_) _ _ h
    dsimp only
    split
    · exact hv.trans (homeSample_onlyProf _ _ _ _ _)
    · exact hv

/-- The failed tests of a sample are noted. -/
theorem diTests_signals (s : State) (fail : BitVec 32) :
    ({ s with field := { s.field with test := s.field.test ||| fail } } : State).Signals (s.diTests fail)
      [Reg.FIO_DI_TEST_CNT, Reg.PG_IRQ_RAW Page.FIO] := by
  unfold State.diTests
  split
  · next h =>
    subst h
    have hnone : s.field.test ||| 0 = s.field.test := BitVec.or_zero
    rw [hnone]
    exact (State.Writes.refl s).signals.mono (by simp)
  · exact (add_writes _ _ _).signals.trans (event_signals _ _ _ _)

/-! ### The rest of a sample -/

theorem extf_keepsSample (s : State) (i : Nat) : s.KeepsSample (s.extf i) := by
  unfold State.extf
  split
  · exact (inc_writes _ _).signals.keepsSample (by decide) (by decide)
  · split
    · exact .refl s
    · exact (((((setBit_writes _ _ _ _).trans (setBit_writes _ _ _ _)).trans (inc_writes _ _)).signals.trans
        (event_signals _ _ _ _)).keepsSample (by decide) (by decide)).trans (refreshDq_keepsSample _)

theorem readback_keepsSample (s : State) (i : Nat) : s.KeepsSample (s.readback i) := by
  have hfed : ∀ m : BitVec 16, s.KeepsSample { s with field := { s.field with fed := m } } := fun m =>
    withField_keepsSample (x := { s.field with fed := m }) s rfl rfl rfl
  unfold State.readback
  dsimp only
  split
  · exact (hfed _).trans (extf_keepsSample _ _)
  · exact hfed _

theorem openLoad_keepsSample (s : State) (i : Nat) (off : Bool) : s.KeepsSample (s.openLoad i off) := by
  unfold State.openLoad
  dsimp only
  generalize (if off then 16 + i else i) = b
  split
  · exact .refl s
  · exact (((setBit_writes _ _ _ _).trans (inc_writes _ _)).signals.trans (event_signals _ _ _ _)).keepsSample (by decide) (by decide)

theorem openOff_keepsSample (s : State) (i : Nat) : s.KeepsSample (s.openOff i) := by
  have hbanded : ∀ m : BitVec 16, s.KeepsSample { s with field := { s.field with banded := m } } := fun m =>
    withField_keepsSample (x := { s.field with banded := m }) s rfl rfl rfl
  unfold State.openOff
  dsimp only
  split
  · exact (hbanded _).trans (openLoad_keepsSample _ _ _)
  · exact hbanded _

theorem lpSample_keepsSample (s : State) (g mv : Nat) : s.KeepsSample (s.lpSample g mv) := by
  have hlow : s.KeepsSample (if mv < 18000 then s.lpUnder g
      else if 18800 < mv then { s with field := { s.field with lpUv := setTwo s.field.lpUv g false } } else s) := by
    split
    · exact lpUnder_keepsSample s g
    · split
      · exact withField_keepsSample s rfl rfl rfl
      · exact .refl s
  unfold State.lpSample
  dsimp only
  generalize (if mv < 18000 then s.lpUnder g
      else if 18800 < mv then { s with field := { s.field with lpUv := setTwo s.field.lpUv g false } } else s) = u at hlow ⊢
  have hhigh : u.KeepsSample (if 31500 < mv then u.lpHigh g
      else if mv < 30800 then { u with field := { u.field with lpOv := setTwo u.field.lpOv g false } } else u) := by
    split
    · exact lpHigh_keepsSample u g
    · split
      · exact withField_keepsSample u rfl rfl rfl
      · exact .refl u
  exact (hlow.trans hhigh).trans ((lpOk_writes _ _).signals.keepsSample (by decide) (by decide))

/-- The current of an output whose group is switched on. -/
def State.readCurrent (s : State) (x : FieldSample) (i : Nat) : State :=
  if s.groupDown i then s else s.setFld (Reg.FIO_DQ_I i) 15 0 (min 1500 (x.current.getD i 0))

theorem readCurrent_keepsSample (s : State) (x : FieldSample) {i : Nat} (hi : i < 16) : s.KeepsSample (s.readCurrent x i) := by
  unfold State.readCurrent
  split
  · exact .refl s
  · refine (setFld_writes _ _ _ _ _).signals.keepsSample ?_ ?_
    · simp only [List.mem_singleton, Reg.FIO_DQ_RB, Reg.FIO_DQ_I]; omega
    · simp only [List.mem_singleton, Reg.FIO_LP_V, Reg.FIO_DQ_I]; omega

/-- A sample measures currents, supplies and open loads after it has read the inputs. -/
def State.measure (s : State) (x : FieldSample) : State :=
  forUpTo (fun i st => st.openOff i) 16 (forUpTo (fun i st => st.readback i) 16
    (((forUpTo (fun i st => st.readCurrent x i) 16 s).lpSample 0 x.lp1).lpSample 1 x.lp2))

theorem measure_keepsSample (s : State) (x : FieldSample) : s.KeepsSample (s.measure x) :=
  (((forUpTo_keepsSample (fun _ hi t => readCurrent_keepsSample t x hi) s).trans (lpSample_keepsSample _ 0 _)).trans
    (lpSample_keepsSample _ 1 _)).trans
    ((forUpTo_keepsSample (fun i _ t => readback_keepsSample t i) _).trans (forUpTo_keepsSample (fun i _ t => openOff_keepsSample t i) _))

/-- The readback of the outputs and the supplies as a sample shows them. -/
def State.showSample (s : State) (x : FieldSample) : State :=
  (({ s with field := { s.field with above := x.above, band := x.band } } : State).setFld Reg.FIO_DQ_RB 15 0 x.above.toNat).wrN Reg.FIO_LP_V
    (x.lp1 % 65536 + 65536 * (x.lp2 % 65536))

/-- Device time at the window of a sample. -/
def State.atSample (s : State) (j : Nat) : State := if s.qtz.started && s.ticking then s.advance (s.readTime j) else s

/-- The inputs as a sample reads them. -/
def State.readInputs (s : State) (x : FieldSample) : State := forUpTo (fun i st => st.diInput x i) 32 s

theorem diSample_eq {s : State} (hv : s.field.vcc = true) (j : Nat) (x : FieldSample) : s.diSample j x =
    (((((s.atSample j).readInputs x).homeDi ((s.atSample j).readInputs x).field.level ((s.atSample j).readInputs x).now).diTests
      x.fail).showSample x).measure x := if_neg (by simp [hv])

theorem atSample_writes (s : State) (j : Nat) : s.Writes (s.atSample j) timeRegs := by
  unfold State.atSample
  split
  · exact advance_writes _ _
  · exact (State.Writes.refl s).mono (by simp)

/-- Device time does not decide how an input is read. -/
theorem diOn_atSample (s : State) (j i : Nat) : (s.atSample j).diOn i = s.diOn i := by
  unfold State.diOn
  rw [(atSample_writes s j).alters.eff (by decide)]

theorem diFilt_atSample (s : State) (j : Nat) {i : Nat} (hi : i < 32) : (s.atSample j).diFilt i = s.diFilt i := by
  have h := (atSample_writes s j).alters
  unfold State.diFilt State.effFld
  rw [h.eff (a := Reg.FIO_CNT i) (by simp only [List.mem_cons, List.not_mem_nil, or_false, Reg.FIO_CNT, Reg.QTZ_TIME_NS, Reg.QTZ_TIME_FRAC]; omega),
    h.eff (a := Reg.FIO_DI_FILT0 + 4 * (i / 16))
      (by simp only [List.mem_cons, List.not_mem_nil, or_false, Reg.FIO_DI_FILT0, Reg.QTZ_TIME_NS, Reg.QTZ_TIME_FRAC]; omega)]

/-- The inputs as the sample leaves them. -/
theorem readInputs_clause {s : State} (j : Nat) {x : FieldSample} (hx : ∀ i, i < 32 → s.diOn i < x.di.getD i 0 ∨ x.di.getD i 0 < 5000) :
    (∀ i, i < 32 → ((s.atSample j).readInputs x).field.level.getLsbD i =
        (if (decide (s.diOn i < x.di.getD i 0) && !x.fail.getLsbD i) ≠ s.field.level.getLsbD i ∧ s.diFilt i < natAt s.field.runs i + 1
          then decide (s.diOn i < x.di.getD i 0) && !x.fail.getLsbD i else s.field.level.getLsbD i)) ∧
      ((s.atSample j).readInputs x).field.test = s.field.test ∧ s.SameMemory ((s.atSample j).readInputs x) := by
  have hw := (atSample_writes s j).signals
  obtain ⟨⟨runs, level, ht⟩, hlevel, -⟩ := sampled_upTo (s := s.atSample j) (x := x) (fun i hi => by rw [diOn_atSample]; exact hx i hi) 32
    (Nat.le_refl _)
  refine ⟨fun i hi => (hlevel i hi).trans ?_, ?_, ?_⟩
  · rw [if_pos hi, hw.field, diFilt_atSample s j hi]
    unfold Field.accepts State.diLevel
    rw [diOn_atSample]
  · unfold State.readInputs
    rw [ht, ← hw.field]
  · unfold State.readInputs
    rw [ht]
    exact hw.memory

theorem diSample_clause {s : State} {x : FieldSample} {t u : State}
    (h : t = (((u.homeDi u.field.level u.now).diTests x.fail).showSample x).measure x) (hm : s.SameMemory u) (ht : u.field.test = s.field.test) :
    t.field.level = u.field.level ∧ t.field.test = s.field.test ||| x.fail ∧ t.field.above = x.above ∧
      t.fld Reg.FIO_DQ_RB 15 0 = x.above.toNat ∧ t.rdN Reg.FIO_LP_V = x.lp1 % 65536 + 65536 * (x.lp2 % 65536) ∧ s.SameMemory t := by
  have hhome := homeDi_onlyProf u u.field.level u.now
  generalize u.homeDi u.field.level u.now = v at h hhome
  have htests := diTests_signals v x.fail
  have hvfield : v.field = u.field := by rw [hhome]
  have hvmem : u.SameMemory v := by rw [hhome]; exact ⟨rfl, rfl, rfl, rfl, rfl⟩
  have hwfield := htests.field
  have hwmem : v.SameMemory (v.diTests x.fail) := htests.memory
  generalize v.diTests x.fail = w at h hwfield hwmem
  have hshow := ((setFld_writes ({ w with field := { w.field with above := x.above, band := x.band } } : State) Reg.FIO_DQ_RB 15 0
    x.above.toNat).trans (wrN_writes _ Reg.FIO_LP_V (x.lp1 % 65536 + 65536 * (x.lp2 % 65536)))).signals
  have hrb : (w.showSample x).fld Reg.FIO_DQ_RB 15 0 = x.above.toNat := by
    unfold State.showSample
    rw [fld_of_rd (rd_wrN_ne (by decide) _ _), fld_setFld (by decide) (by decide)]
    exact Nat.mod_eq_of_lt x.above.isLt
  have hlp : (w.showSample x).rdN Reg.FIO_LP_V = x.lp1 % 65536 + 65536 * (x.lp2 % 65536) := by
    unfold State.showSample
    rw [rdN_wrN_self]
    exact Nat.mod_eq_of_lt (by omega)
  have hsfield : (w.showSample x).field = { w.field with above := x.above, band := x.band } := hshow.field
  have hsmem : w.SameMemory (w.showSample x) := hshow.memory
  generalize w.showSample x = y at h hrb hlp hsfield hsmem
  obtain ⟨kl, kt, ka, kq, kv, km⟩ := measure_keepsSample y x
  rw [h]
  refine ⟨?_, ?_, ?_, kq.trans hrb, (rdN_of_rd kv).trans hlp, (((hm.trans hvmem).trans hwmem).trans hsmem).trans km⟩
  · rw [kl, hsfield, hwfield, hvfield]
  · rw [kt, hsfield, hwfield, hvfield, ht]
  · rw [ka, hsfield]

/-! ### VCC_F, rule R325 -/

/-- A trip, of a tripped Flint too, leaves Flint tripped. -/
theorem flintTrip_tripped (s : State) {cause : Nat} (hc : cause < 16) :
    (s.flintTrip cause).fld Reg.FLT_STAT 1 0 = 2 ∧ s.SameMemory (s.flintTrip cause) := by
  by_cases h : s.fld Reg.FLT_STAT 1 0 = 2
  · rw [show s.flintTrip cause = s.endArming from if_pos h]
    exact ⟨h, (endArming_safety s).memory⟩
  · obtain ⟨hst, -, -, -, hframe⟩ := flintTrip_shows h hc
    exact ⟨hst, hframe.memory⟩

/-- The field die as its loss of power leaves it. -/
def State.dropDie (s : State) : State :=
  { s with
    regs := Tab.dropRange (pageBase Page.FIO + 0x800) 0x800 s.regs
    field := { Field.reset with vcc := false, soft := s.field.soft, parUntil := s.field.parUntil } }

/-- The loss of VCC_F as FIO_LP_STAT and PWR_DOM_STAT show it. -/
def State.showLoss (s : State) : State := (s.setBit Reg.FIO_LP_STAT 6 true).setBit Reg.PWR_DOM_STAT 12 false

theorem vccLoss_eq {s : State} (hv : s.field.vcc = true) : s.vccLoss = (s.flintTrip 6).dropDie.showLoss.refreshDq := if_neg (by simp [hv])

theorem rd_dropDie (s : State) (a : Nat) : s.dropDie.rd a =
    if pageBase Page.FIO + 0x800 ≤ a ∧ a < pageBase Page.FIO + 0x800 + 0x800 then regReset a else s.rd a :=
  Tab.get_dropRange _ _ _ _ _

theorem cntVal_reset : ∀ i : Fin 8, regReset (Reg.FIO_CNT_VAL i.val) = 0 := by decide

theorem rdN_cntVal_dropDie (s : State) {i : Nat} (hi : i < 8) : s.dropDie.rdN (Reg.FIO_CNT_VAL i) = 0 := by
  have hin : pageBase Page.FIO + 0x800 ≤ Reg.FIO_CNT_VAL i ∧ Reg.FIO_CNT_VAL i < pageBase Page.FIO + 0x800 + 0x800 := by
    simp only [pageBase, Page.FIO, Reg.FIO_CNT_VAL]; omega
  unfold State.rdN
  rw [rd_dropDie, if_pos hin, cntVal_reset ⟨i, hi⟩]
  rfl

theorem showLoss_writes (s : State) : s.Writes s.showLoss [Reg.FIO_LP_STAT, Reg.PWR_DOM_STAT] :=
  (setBit_writes _ _ _ _).trans (setBit_writes _ _ _ _)

theorem showLoss_page (s : State) : s.showLoss.bit Reg.FIO_LP_STAT 6 = true ∧ s.showLoss.bit Reg.PWR_DOM_STAT 12 = false :=
  ⟨(bit_of_rd (rd_setBit_ne (by decide) _ _ _) _).trans (bit_setBit_self (by decide) _ _ _), bit_setBit_self (by decide) _ _ _⟩

theorem dqOn_unpowered {s : State} (h : s.field.vcc = false) (i : Nat) : s.dqOn i = false := by
  simp [State.dqOn, h]

theorem refreshDq_allOff {s : State} (h : ∀ i, s.dqOn i = false) : s.refreshDq.field.on = 0 := by
  obtain ⟨x, n, heq, hon, -⟩ := refreshDq_eq s
  rw [heq, State.setFld_field, hon, maskOf_false h]
  rfl

theorem vccLoss_clause {s u : State} (hst : u.fld Reg.FLT_STAT 1 0 = 2) (hm : s.SameMemory u) {t : State}
    (h : t = u.dropDie.showLoss.refreshDq) :
    t.field.vcc = false ∧ t.field.on = 0 ∧ t.bit Reg.FIO_LP_STAT 6 = true ∧ t.domOn 12 = false ∧ t.fld Reg.FLT_STAT 1 0 = 2 ∧
      (∀ i, i < 8 → t.rdN (Reg.FIO_CNT_VAL i) = 0) ∧ s.SameMemory t := by
  have hshow := showLoss_writes u.dropDie
  obtain ⟨h6, h12⟩ := showLoss_page u.dropDie
  have hvcc : u.dropDie.showLoss.field.vcc = false := congrArg Field.vcc hshow.signals.field
  have hflt : u.dropDie.showLoss.fld Reg.FLT_STAT 1 0 = 2 := by
    rw [hshow.1.fld (by decide), fld_of_rd ((rd_dropDie u _).trans (if_neg (by decide))), hst]
  have hcnt : ∀ i, i < 8 → u.dropDie.showLoss.rdN (Reg.FIO_CNT_VAL i) = 0 := fun i hi => by
    rw [hshow.1.rdN (by simp only [List.mem_cons, List.not_mem_nil, or_false, Reg.FIO_CNT_VAL, Reg.FIO_LP_STAT, Reg.PWR_DOM_STAT]; omega),
      rdN_cntVal_dropDie u hi]
  have hmem : u.SameMemory u.dropDie.showLoss := hshow.signals.memory
  generalize u.dropDie.showLoss = w at h h6 h12 hvcc hflt hcnt hmem
  have hr := refreshDq_sameRegs w
  rw [h]
  refine ⟨by rw [refreshDq_field, hvcc], refreshDq_allOff (dqOn_unpowered hvcc), ?_, ?_, ?_, ?_, (hm.trans hmem).trans (refreshDq_memory w)⟩
  · rw [hr.bit (by decide), h6]
  · exact (hr.bit (by decide) 12).trans h12
  · rw [hr.fld (by decide), hflt]
  · intro i hi
    rw [hr.rdN (by simp only [List.mem_singleton, Reg.FIO_CNT_VAL, Reg.FIO_DQ_RB]; omega), hcnt i hi]

/-- Slate's power and the start permission leave every other domain. -/
theorem domOn_refreshSaf {d : Nat} (h2 : d ≠ 2) (h18 : d ≠ 18) (s : State) : s.refreshSaf.domOn d = s.domOn d := by
  have hpower : ∀ u : State, u.slatePower.domOn d = u.domOn d := by
    intro u
    unfold State.slatePower
    split
    · rfl
    · refine (bit_of_rd (rd_withSaf _ _ _) d).trans ?_
      unfold State.setDomain
      rw [bit_of_rd (rd_setBit_ne (by decide) _ _ _), bit_setBit (by decide), if_neg h18, bit_setBit (by decide), if_neg h2,
        bit_of_rd (rd_setBit_ne (by decide) _ _ _)]
      rfl
  unfold State.refreshSaf State.domOn
  rw [bit_of_rd (rd_setBit_ne (by decide) _ _ _)]
  exact (hpower _).trans (bit_of_rd (rd_unlatch s _) d)

/-- The field die with power again. -/
def State.powerDie (s : State) : State := ({ s with field := { s.field with vcc := true } } : State).setBit Reg.PWR_DOM_STAT 12 true

theorem vccRecovery_eq {s : State} (hv : s.field.vcc = false) :
    s.vccRecovery = ((s.powerDie.flintState 0 (s.fld Reg.FLT_STAT 7 4)).refreshSaf).refreshDq := if_neg (by simp [hv])

theorem vccRecovery_clause {s : State} {cause : Nat} (hc : cause < 16) {t : State}
    (h : t = ((s.powerDie.flintState 0 cause).refreshSaf).refreshDq) :
    t.field.vcc = true ∧ t.domOn 12 = true ∧ t.fld Reg.FLT_STAT 1 0 = 0 ∧ t.rdN Reg.FLT_GATE = 0 ∧ s.SameMemory t := by
  have hp := setBit_writes ({ s with field := { s.field with vcc := true } } : State) Reg.PWR_DOM_STAT 12 true
  have hvcc : s.powerDie.field.vcc = true := congrArg Field.vcc hp.signals.field
  have hdom : s.powerDie.bit Reg.PWR_DOM_STAT 12 = true := bit_setBit_self (by decide) _ _ _
  have hmem : s.SameMemory s.powerDie := hp.signals.memory
  generalize s.powerDie = u at h hvcc hdom hmem
  have hstate := flintState_safety u 0 cause
  obtain ⟨hst, -, -, hgate⟩ := flintState_shows u (st := 0) (by decide) hc
  have hvcc1 : (u.flintState 0 cause).field.vcc = true := by rw [flintState_eq, refreshDq_field, State.wrN_field, State.setFld_field,
    State.setFld_field, hvcc]
  have hdom1 : (u.flintState 0 cause).bit Reg.PWR_DOM_STAT 12 = true := by rw [hstate.bit (by decide), hdom]
  have hmem1 := hmem.trans hstate.memory
  generalize u.flintState 0 cause = v at h hst hgate hvcc1 hdom1 hmem1
  have hsaf := refreshSaf_safety v
  have hdq := refreshDq_safety v.refreshSaf
  rw [h]
  refine ⟨by rw [refreshDq_field, refreshSaf_field, hvcc1], ?_, ?_, ?_, hmem1.trans (hsaf.memory.trans hdq.memory)⟩
  · refine (hdq.bit (by decide) 12).trans ?_
    exact (domOn_refreshSaf (by decide) (by decide) v).trans hdom1
  · rw [hdq.fld (by decide), hsaf.fld (by decide), hst]
  · rw [hdq.rdN (by decide), hsaf.rdN (by decide), hgate]
    rfl

/-- Settles O51: per command, the sample, the edge, the supply or VCC_F. -/
theorem fieldInputsAndSupplies : Obligations.FieldInputsAndSupplies := by
  refine ⟨?_, ?_, ?_, ?_, ?_, ?_, ?_⟩
  · intro s j x hv hx
    obtain ⟨hlevel, htest, hmem⟩ := readInputs_clause (s := s) j.val hx
    obtain ⟨hl, hrest⟩ := diSample_clause (diSample_eq hv j.val x) hmem htest
    exact ⟨_, rfl, fun i hi => by rw [hl]; exact hlevel i hi, hrest⟩
  · intro s i rising stamp hv h0 hr
    exact ⟨_, rfl, countEdge_clause s i.val stamp (countEdge_eq hv h0 hr stamp)⟩
  · intro s g hv hu
    exact ⟨_, rfl, lpUnder_clause s g (lpUnder_eq hv hu)⟩
  · intro s g hv ho
    exact ⟨_, rfl, lpHigh_clause s g (lpHigh_eq hv ho)⟩
  · intro s g hv ho
    exact ⟨_, rfl, lpRecovery_clause s g (lpRecovery_eq hv ho)⟩
  · intro s hv
    obtain ⟨hst, hmem⟩ := flintTrip_tripped s (cause := 6) (by decide)
    exact ⟨_, rfl, vccLoss_clause hst hmem (vccLoss_eq hv)⟩
  · intro s hv
    exact ⟨_, rfl, vccRecovery_clause (bitsOf_lt _ 7 4) (vccRecovery_eq hv)⟩

end Sys2Proof.Machine
end

section
/-! SUPPORT. The host's BARs and endpoint, the boot flash and JTAG (O54). -/

namespace Sys2Proof.Machine

/-! ### BARs, rules R339 and R340 -/

/-- While the endpoint works an access is that of its BAR. -/
theorem bar0Write_page {s : State} {o : Nat} {bs : List (BitVec 8)} (ho : o < 0x4000000) (hl : bs.length = 4 ∨ bs.length = 8) :
    s.bar0Write o bs = s.registerWrite .host (0x40000000 + o) (bs.length == 8) (BitVec.ofNat 64 (numOf bs)) :=
  if_pos (by rcases hl with hl | hl <;> simp [ho, hl])

theorem barAccess_bar0 {s : State} (hc : s.clocked = true) (hd : s.domOn 10 = true) (o len : Nat) (bs : List (BitVec 8)) :
    s.barAccess 0 o len (some bs) = s.bar0Write o bs := if_neg (by simp [hc, hd])

theorem barAccess_bar2Write {s : State} (hc : s.clocked = true) (hd : s.domOn 10 = true) (o len : Nat) (bs : List (BitVec 8)) :
    s.barAccess 2 o len (some bs) = s.bar2Write o bs := if_neg (by simp [hc, hd])

theorem barAccess_bar2Read {s : State} (hc : s.clocked = true) (hd : s.domOn 10 = true) (o len : Nat) :
    s.barAccess 2 o len none = s.bar2Read o len := if_neg (by simp [hc, hd])

/-- BAR1, BAR3 and BAR5 are not there. -/
theorem barAccess_absent {s : State} (hc : s.clocked = true) (hd : s.domOn 10 = true) {b : Nat} (hb : b = 1 ∨ b = 3 ∨ b = 5) (o n : Nat) :
    s.barAccess b o n none = s.badRead n := by
  rcases hb with rfl | rfl | rfl
  all_goals exact if_neg (by simp [hc, hd])

theorem storeCell_clean {s : State} {a n : Nat} (hs : s.sealedAt a n = false) (hu : s.integ.ue = []) (hi : inCell a n = true) (v : Nat) :
    s.storeCell a n v = { s with cell := s.cell.setN a n v } := by
  unfold State.storeCell
  rw [if_neg (by simp [hs]), setCell_clean hu hi]

theorem bar2Write_cell {s : State} {o : Nat} {bs : List (BitVec 8)} (he : s.bit Reg.PCI_CTRL 8 = true) (hb : bs ≠ [])
    (h64 : o % 64 + bs.length ≤ 64) (hi : inCell o bs.length = true) (hg : s.commits o bs.length = [])
    (hs : s.sealedAt o bs.length = false) (hu : s.integ.ue = []) :
    s.bar2Write o bs = { s with cell := s.cell.setN o bs.length (numOf bs) } := by
  have hlen : (bs.length == 0) = false := by simpa using hb
  have hfit : decide (64 < o % 64 + bs.length) = false := by simpa using h64
  unfold State.bar2Write
  dsimp only
  rw [he, hlen, hfit, if_neg (by decide), if_pos hi, hg, ← storeCell_clean hs hu hi]
  rfl

theorem bar2Read_cell {s : State} {o n : Nat} (h0 : 0 < n) (h512 : n ≤ 512) (hi : inCell o n = true) (hu : s.ueIn 0x80 o n = false) :
    s.bar2Read o n = s.onBus (s.cell.getN o n) := by
  unfold State.bar2Read
  rw [if_neg (by simp only [Bool.or_eq_true, beq_iff_eq, decide_eq_true_eq]; omega), if_pos hi, if_neg (by simp [hu]),
    show s.cellN o n = s.cell.getN o n from if_pos hi]

theorem badRead_clause {s : State} (hc : s.clocked = true) (n : Nat) {t : State} (h : t = s.badRead n) :
    t.plant.bus = 256 ^ n - 1 ∧ t.rdN Reg.PCI_BAD_ACC_CNT = min (s.rdN Reg.PCI_BAD_ACC_CNT + 1) 0xFFFFFFFF ∧
      t.bit Reg.PCI_STAT 7 = true ∧ s.SameRegs t [Reg.PCI_BAD_ACC_CNT, Reg.PCI_STAT, Reg.PG_IRQ_RAW Page.PCI] ∧ s.SameMemory t := by
  obtain ⟨hn, h7, hr⟩ := badAccess_clause hc
  have hsig := hr.signals
  unfold State.badRead at h
  generalize s.badAccess = u at h hn h7 hsig
  have hbus := onBus_signals u (256 ^ n - 1)
  have hval := onBus_bus u (256 ^ n - 1)
  rw [← h] at hbus hval
  exact ⟨hval, (hbus.1.rdN (by simp)).trans hn, (hbus.1.bit (by simp) 7).trans h7, hsig.1.trans hbus.1, hsig.memory.trans hbus.memory⟩

/-! ### The endpoint, rules R341 and R444 -/

/-- The registers that a reset of the endpoint clears. -/
abbrev endpointRegs : List Nat :=
  [Reg.PG_CTRL Page.PCI, Reg.PG_IRQ_RAW Page.PCI, Reg.PG_IRQ_EN Page.PCI, Reg.PG_STAT Page.PCI, Reg.PG_CFG_SEQ Page.PCI, Reg.PCI_CTRL,
    Reg.PCI_STAT]

/-- The registers of the endpoint's page as a reset leaves them. -/
def State.clearPci (s : State) : State :=
  ((((((s.wr (Reg.PG_CTRL Page.PCI) (regReset (Reg.PG_CTRL Page.PCI))).wr (Reg.PG_IRQ_RAW Page.PCI) 0).wr (Reg.PG_IRQ_EN Page.PCI) 0).wr
    (Reg.PG_STAT Page.PCI) (s.rd (Reg.PG_STAT Page.PCI) &&& 4)).wr (Reg.PG_CFG_SEQ Page.PCI) 0).wr Reg.PCI_CTRL
    (regReset Reg.PCI_CTRL)).wr Reg.PCI_STAT 0

/-- What the endpoint keeps beside its page, after a reset. -/
def State.clearVectors (s : State) : State :=
  { s with plant := { s.plant with msixTab := [], msixMask := BitVec.allOnes 64, msixPend := 0, endpoint := none } }

theorem clearPci_writes (s : State) : s.Writes s.clearPci endpointRegs :=
  ((((((wr_writes _ _ _).trans (wr_writes _ _ _)).trans (wr_writes _ _ _)).trans (wr_writes _ _ _)).trans (wr_writes _ _ _)).trans
    (wr_writes _ _ _)).trans (wr_writes _ _ _)

theorem endpointClear_eq (s : State) : s.endpointClear = s.clearPci.clearVectors := rfl

theorem clearPci_page (s : State) : s.clearPci.rdN Reg.PCI_STAT = 0 ∧ s.clearPci.rd Reg.PCI_CTRL = regReset Reg.PCI_CTRL := by
  unfold State.clearPci State.rdN
  refine ⟨?_, ?_⟩
  · rw [rd_wr_self]
    rfl
  · rw [rd_wr_ne (by decide), rd_wr_self]

theorem endpointReset_eq {s : State} (hc : s.clocked = true) (hd : s.domOn 10 = true) (loss : Bool) : s.endpointReset loss =
    (s.clearPci.clearVectors.inc (if loss then Reg.PCI_LINK_DOWN_CNT else Reg.PCI_PERST_CNT)).event Page.PCI 0 0 := by
  rw [← endpointClear_eq]
  exact if_pos (by simp [hc, hd])

theorem endpointReset_clause {s : State} (hc : s.clocked = true) {a : Nat} (ha : a = Reg.PCI_LINK_DOWN_CNT ∨ a = Reg.PCI_PERST_CNT) {t : State}
    (h : t = (s.clearPci.clearVectors.inc a).event Page.PCI 0 0) :
    t.rdN Reg.PCI_STAT = 0 ∧ t.rd Reg.PCI_CTRL = regReset Reg.PCI_CTRL ∧ t.plant.msixMask = BitVec.allOnes 64 ∧ t.plant.msixTab = [] ∧
      t.rdN a = min (s.rdN a + 1) 0xFFFFFFFF ∧ s.SameMemory t := by
  obtain ⟨hstat, hctrl⟩ := clearPci_page s
  have hw := clearPci_writes s
  have hout : a ∉ endpointRegs ∧ a ≠ Reg.PG_IRQ_RAW Page.PCI ∧ Reg.PCI_STAT ≠ a ∧ Reg.PCI_CTRL ≠ a ∧ Reg.QTZ_TIME_NS ≠ a ∧
      Reg.QTZ_TIME_NS + 4 ≠ a := by
    rcases ha with rfl | rfl <;> decide
  obtain ⟨hcleared, hraw, hs, hk, htn, htn4⟩ := hout
  have hcnt : s.clearPci.rdN a = s.rdN a := hw.1.rdN hcleared
  have hclk : s.clearPci.clearVectors.clocked = true := (wrote_clocked hw).trans hc
  have hmem : s.SameMemory s.clearPci.clearVectors := hw.signals.memory
  have hplant : s.clearPci.clearVectors.plant.msixMask = BitVec.allOnes 64 ∧ s.clearPci.clearVectors.plant.msixTab = [] := ⟨rfl, rfl⟩
  have hrd : ∀ b, s.clearPci.clearVectors.rd b = s.clearPci.rd b := fun _ => rfl
  generalize s.clearPci = v at h hstat hctrl hcnt hclk hmem hplant hrd
  generalize v.clearVectors = u at h hclk hmem hplant hrd
  have hr := (inc_writes u a).event hclk (by simpa using htn) (by simpa using htn4) Page.PCI 0 0
  rw [← h] at hr
  refine ⟨?_, ?_, ?_, ?_, ?_, hmem.trans hr.signals.memory⟩
  · rw [hr.1.rdN (by simpa using ⟨hs, by decide⟩), rdN_of_rd (hrd _), hstat]
  · rw [hr.1 _ (by simpa using ⟨hk, by decide⟩), hrd, hctrl]
  · rw [hr.2]
    exact hplant.1
  · rw [hr.2]
    exact hplant.2
  · rw [h, rdN_of_rd (rd_event hraw _ _ _), rdN_inc, rdN_of_rd (hrd _), hcnt]

/-- The identity that the endpoint presents. -/
def State.presentId (s : State) : State := { s with plant := { s.plant with endpoint := some endpointId } }

/-- PCI_STAT of a link that has come up. -/
def State.showLink (s : State) (speed width : Nat) : State :=
  ((s.setBit Reg.PCI_STAT 0 true).setFld Reg.PCI_STAT 3 1 speed).setFld Reg.PCI_STAT 6 4 width

theorem showLink_writes (s : State) (speed width : Nat) : s.Writes (s.showLink speed width) [Reg.PCI_STAT] :=
  (((setBit_writes _ _ _ _).trans (setFld_writes _ _ _ _ _)).trans (setFld_writes _ _ _ _ _)).mono (by simp)

theorem showLink_page (s : State) {speed width : Nat} (hs : speed < 8) (hw : width < 8) :
    (s.showLink speed width).bit Reg.PCI_STAT 0 = true ∧ (s.showLink speed width).fld Reg.PCI_STAT 3 1 = speed ∧
      (s.showLink speed width).fld Reg.PCI_STAT 6 4 = width := by
  unfold State.showLink
  refine ⟨?_, ?_, ?_⟩
  · rw [bit_setFld (by decide) (by decide), if_neg (by decide), bit_setFld (by decide) (by decide), if_neg (by decide),
      bit_setBit_self (by decide)]
  · rw [fld_setFld_ne (by decide) (by decide) (by decide), fld_setFld (by decide) (by decide)]
    exact Nat.mod_eq_of_lt hs
  · rw [fld_setFld (by decide) (by decide)]
    exact Nat.mod_eq_of_lt hw

/-- The vectors asserted at `old` send their messages. -/
def State.sendAsserted (s old : State) : State := forUpTo (fun v t => if old.hostVector v then t.sendMsix v else t) 64 s

theorem sendAsserted_raises (s old : State) : s.Raises (s.sendAsserted old) [] [] := by
  refine forUpTo_invariant (P := fun t => s.Raises t [] []) (fun v t h => ?_) 64 (State.Writes.refl s).raises
  split
  · exact h.trans (sendMsix_raises t v)
  · exact h

theorem pcieUp_eq {s : State} {speed width : Nat} (hc : s.clocked = true) (hd : s.domOn 10 = true) (hdown : s.bit Reg.PCI_STAT 0 = false)
    (ht : trains speed width = true) :
    s.pcieUp speed width = ((s.presentId.showLink speed width).event Page.PCI 0 0).sendAsserted s :=
  if_pos (by simp [hc, hd, hdown, ht])

theorem pcieUp_clause {s : State} {speed width : Nat} (hc : s.clocked = true) (hs : speed < 8) (hw : width < 8) {t : State}
    (h : t = ((s.presentId.showLink speed width).event Page.PCI 0 0).sendAsserted s) :
    t.bit Reg.PCI_STAT 0 = true ∧ t.fld Reg.PCI_STAT 3 1 = speed ∧ t.fld Reg.PCI_STAT 6 4 = width ∧
      s.presentId.Raises t [Reg.PCI_STAT, Reg.PG_IRQ_RAW Page.PCI] [⟨Page.PCI, 0, false, 0, s.now⟩] := by
  have hclk : s.presentId.clocked = true := hc
  have hnow : s.presentId.now = s.now := rfl
  rw [← hnow]
  generalize s.presentId = u at h hclk
  have hwr := showLink_writes u speed width
  obtain ⟨h0, h31, h64⟩ := showLink_page u hs hw
  have hev := hwr.event hclk (by decide) (by decide) Page.PCI 0 0
  have hrd : ((u.showLink speed width).event Page.PCI 0 0).rd Reg.PCI_STAT = (u.showLink speed width).rd Reg.PCI_STAT :=
    rd_event (by decide) _ _ _
  generalize (u.showLink speed width).event Page.PCI 0 0 = v at h hev hrd
  have hsend := sendAsserted_raises v s
  rw [← h] at hsend
  have hsame := (hsend.1 Reg.PCI_STAT (by simp)).trans hrd
  exact ⟨(bit_of_rd hsame 0).trans h0, (fld_of_rd hsame 3 1).trans h31, (fld_of_rd hsame 6 4).trans h64, hev.trans hsend⟩

/-! ### The boot flash, rules R343 and R344 -/

theorem flashWrite_channelA {s : State} (hc : s.clocked = true) (a len : Nat) (bs : List (BitVec 8)) :
    s.flashWrite .channelA a len (some bs) = { s with flash := s.flash.setBytes a bs } := if_neg (by simp [hc])

/-- The regions that only channel A writes are guarded from the host and the cores. -/
theorem flashWrite_open {s : State} (hc : s.clocked = true) {a : Nat} {bs : List (BitVec 8)} (hg : flashGuarded a bs.length = false) (len : Nat) :
    s.flashWrite .host a len (some bs) = { s with flash := s.flash.setBytes a bs } :=
  (if_neg (by simp [hc])).trans (if_neg (by simp [hg]))

theorem flashWrite_host_guarded {s : State} (hc : s.clocked = true) {a : Nat} {bs : List (BitVec 8)} (hg : flashGuarded a bs.length = true)
    (len : Nat) : s.flashWrite .host a len (some bs) = s.event Page.SAF 4 0 := (if_neg (by simp [hc])).trans (if_pos hg)

theorem flashWrite_core_guarded {s : State} (hc : s.clocked = true) {a : Nat} {bs : List (BitVec 8)} (hg : flashGuarded a bs.length = true)
    (n : Fin 4) (len : Nat) : s.flashWrite (.core n) a len (some bs) = s.event Page.SAF 4 0 := (if_neg (by simp [hc])).trans (if_pos hg)

theorem flashWrite_engine {s : State} (hc : s.clocked = true) (e : Fin 64) (a len : Nat) (data : Option (List (BitVec 8))) :
    s.flashWrite (.engine e) a len data = s := if_neg (by simp [hc])

/-! ### JTAG, rule R347 -/

theorem jtagShift_accepted {s : State} {i : JtagInstr} (h : s.jtagOk i = true) : s.jtagShift i = s.setJtag i := if_pos h

/-- A condition raised leaves the instruction in force. -/
theorem event_jtag (s : State) (p b : Nat) (d : Word) : (s.event p b d).plant.jtag = s.plant.jtag := by
  have hreport : ∀ u : State, (u.report p b false d).plant = u.plant := by
    intro u
    unfold State.report
    split <;> rfl
  unfold State.event
  rw [hreport, (raiseLine_raises s p b).2]

/-- The registers that a refused instruction writes before its event. -/
def State.noteJtagRefusal (s : State) : State := (s.setBit Reg.DBG_STAT 3 true).inc Reg.DBG_JTAG_REF_CNT

theorem jtagShift_refused {s : State} {i : JtagInstr} (h : s.jtagOk i = false) :
    s.jtagShift i = (s.setJtag .bypass).noteJtagRefusal.event Page.DBG 1 0 := if_neg (by simp [h])

theorem jtagRefused_clause {s t : State} (h : t = (s.setJtag .bypass).noteJtagRefusal.event Page.DBG 1 0) :
    t.plant.jtag = .bypass ∧ t.bit Reg.DBG_STAT 3 = true ∧ t.rdN Reg.DBG_JTAG_REF_CNT = min (s.rdN Reg.DBG_JTAG_REF_CNT + 1) 0xFFFFFFFF ∧
      s.SameRegs t [Reg.DBG_STAT, Reg.DBG_JTAG_REF_CNT, Reg.PG_IRQ_RAW Page.DBG] ∧ s.SameMemory t := by
  have hregs : s.SameRegs (s.setJtag .bypass) [] := fun _ _ => rfl
  have hmem : s.SameMemory (s.setJtag .bypass) := ⟨rfl, rfl, rfl, rfl, rfl⟩
  have hjtag : (s.setJtag .bypass).plant.jtag = .bypass := rfl
  generalize s.setJtag .bypass = u at h hregs hmem hjtag
  have hw := (setBit_writes u Reg.DBG_STAT 3 true).trans (inc_writes _ Reg.DBG_JTAG_REF_CNT)
  have hplant : (u.noteJtagRefusal).plant = u.plant := by rw [show u.noteJtagRefusal = _ from hw.2]
  have h3 : u.noteJtagRefusal.bit Reg.DBG_STAT 3 = true := (bit_of_rd (rd_inc_ne (by decide) _) 3).trans (bit_setBit_self (by decide) _ _ _)
  have hn : u.noteJtagRefusal.rdN Reg.DBG_JTAG_REF_CNT = min (u.rdN Reg.DBG_JTAG_REF_CNT + 1) 0xFFFFFFFF :=
    (rdN_inc _ _).trans (by rw [rdN_of_rd (rd_setBit_ne (by decide) _ _ _)])
  have hsig : u.Signals u.noteJtagRefusal [Reg.DBG_STAT, Reg.DBG_JTAG_REF_CNT] := hw.signals
  generalize u.noteJtagRefusal = v at h hplant h3 hn hsig
  have hev := event_jtag v Page.DBG 1 0
  rw [← h] at hev
  have hs := event_signals v Page.DBG 1 0
  rw [← h] at hs
  refine ⟨?_, (hs.1.bit (by decide) 3).trans h3, ?_, (hregs.trans hsig.1).trans hs.1, (hmem.trans hsig.memory).trans hs.memory⟩
  · rw [hev, hplant, hjtag]
  · rw [hs.1.rdN (by decide), hn, hregs.rdN (by simp)]

/-- Settles O54: per command of the host, the flash and JTAG. -/
theorem hostEndpoint : Obligations.HostEndpoint := by
  refine ⟨?_, ?_, ?_, ?_, ?_, ?_, ?_, ?_⟩
  · intro s o len bs hc hd ho hl
    exact congrArg Host.Outcome.next ((barAccess_bar0 hc hd o len bs).trans (bar0Write_page ho hl))
  · intro s o len bs hc hd he hb h64 hi hg hs hu
    refine ⟨_, congrArg Host.Outcome.next ((barAccess_bar2Write hc hd o len bs).trans (bar2Write_cell he hb h64 hi hg hs hu)), rfl, rfl⟩
  · intro s o n hc hd h0 h512 hi hu
    exact ⟨_, congrArg Host.Outcome.next ((barAccess_bar2Read hc hd o n).trans (bar2Read_cell h0 h512 hi hu)), rfl, rfl⟩
  · intro s b o n hc hd hb
    exact ⟨_, rfl, badRead_clause hc n (barAccess_absent hc hd (by omega) o n)⟩
  · intro s loss hc hd
    refine ⟨_, rfl, endpointReset_clause hc ?_ (endpointReset_eq hc hd loss)⟩
    cases loss
    · exact Or.inr rfl
    · exact Or.inl rfl
  · intro s speed width hc hd hdown h1 h4 hw
    exact ⟨_, rfl, pcieUp_clause hc speed.isLt width.isLt (pcieUp_eq hc hd hdown (by simpa [trains, h1, h4, or_assoc] using hw))⟩
  · intro s a len bs hc
    refine ⟨?_, ?_, ?_, ?_⟩
    · exact ⟨_, congrArg Host.Outcome.next (flashWrite_channelA hc a len bs), rfl, rfl⟩
    · intro hg
      exact ⟨_, congrArg Host.Outcome.next (flashWrite_open hc hg len), rfl, rfl⟩
    · intro e
      exact ⟨_, rfl, flashWrite_engine hc e a len (some bs)⟩
    · intro hg
      refine ⟨⟨_, congrArg Host.Outcome.next (flashWrite_host_guarded hc hg len), event_raises hc _ _ _⟩, fun n => ?_⟩
      exact ⟨_, congrArg Host.Outcome.next (flashWrite_core_guarded hc hg n len), event_raises hc _ _ _⟩
  · intro s i
    refine ⟨fun h => ?_, fun h => ⟨_, rfl, jtagRefused_clause (jtagShift_refused h)⟩⟩
    exact ⟨_, congrArg Host.Outcome.next (jtagShift_accepted h), rfl, fun hi => if_pos hi, rfl⟩

end Sys2Proof.Machine
end

section
/-! SUPPORT. The interlock and the roles of a twin pair (O55). -/

namespace Sys2Proof.Machine

/-! ### What the twin unit's commands touch -/

/-- Nothing differs but the registers of `l`, what the twin unit keeps, and the event unit with its messages. -/
def State.TwinFrame (s t : State) (l : List Nat) : Prop :=
  s.SameRegs t l ∧ t = { s with regs := t.regs, twin := t.twin, evt := t.evt, msix := t.msix, plant := t.plant }

theorem State.TwinFrame.refl (s : State) : s.TwinFrame s [] := ⟨fun _ _ => rfl, rfl⟩

theorem State.TwinFrame.trans {s t u : State} {l m : List Nat} (h : s.TwinFrame t l) (k : t.TwinFrame u m) : s.TwinFrame u (l ++ m) := by
  refine ⟨h.1.trans k.1, ?_⟩
  rw [k.2, h.2]

theorem State.TwinFrame.mono {s t : State} {l m : List Nat} (h : s.TwinFrame t l) (k : ∀ a ∈ l, a ∈ m) : s.TwinFrame t m := ⟨h.1.mono k, h.2⟩

theorem State.TwinFrame.memory {s t : State} {l : List Nat} (h : s.TwinFrame t l) : s.SameMemory t := by
  rw [h.2]; exact ⟨rfl, rfl, rfl, rfl, rfl⟩

theorem State.Signals.twinFrame {s t : State} {l : List Nat} (h : s.Signals t l) : s.TwinFrame t l := ⟨h.1, by rw [h.2]⟩
theorem State.Signals.twin {s t : State} {l : List Nat} (h : s.Signals t l) : t.twin = s.twin := by rw [h.2]

theorem setTwin_frame (s : State) (x : Twin) : s.TwinFrame (s.setTwin x) [] := ⟨fun _ _ => rfl, rfl⟩

/-! ### Taking the interlock, rules R353 and R355 -/

theorem takeLock_eq {s : State} (he : s.twinEn = true) (hc : s.clocked = true) (hb : s.bit Reg.TWN_STAT 2 = false) (hp : s.peerHolds = false)
    (hr : s.twin.retry = none) (sw : Bool) : s.takeLock sw = (s.setBit Reg.TWN_STAT 2 true).setTwin { s.twin with taking := some sw } :=
  if_pos (by simp [he, hc, hb, hp, hr])

theorem interlockTake_eq {s : State} (he : s.twinEn = true) (hc : s.clocked = true) (hb : s.bit Reg.TWN_STAT 2 = false)
    (hp : s.peerHolds = false) (hr : s.twin.retry = none) (hw : s.wantsSwitch = true ∨ s.wantsStart = true ∧ s.bit Reg.TWN_CTRL 2 = true) :
    s.interlockTake = (s.setBit Reg.TWN_STAT 2 true).setTwin { s.twin with taking := some s.wantsSwitch } := by
  unfold State.interlockTake
  cases hs : s.wantsSwitch with
  | true => rw [if_pos rfl, takeLock_eq he hc hb hp hr]
  | false =>
    obtain ⟨hstart, hpref⟩ := hw.resolve_left (by simp [hs])
    rw [if_neg (by decide), if_pos (by simp [hstart, hpref]), takeLock_eq he hc hb hp hr]

theorem taken_clause (s : State) (x : Twin) {t : State} (h : t = (s.setBit Reg.TWN_STAT 2 true).setTwin x) :
    t.bit Reg.TWN_STAT 2 = true ∧ t.twin = x ∧ t = { s with regs := t.regs, twin := x } ∧ s.SameRegs t [Reg.TWN_STAT] := by
  have hw := setBit_writes s Reg.TWN_STAT 2 true
  have h2 : (s.setBit Reg.TWN_STAT 2 true).bit Reg.TWN_STAT 2 = true := bit_setBit_self (by decide) _ _ _
  generalize s.setBit Reg.TWN_STAT 2 true = u at h hw h2
  subst h
  exact ⟨h2, rfl, by rw [hw.2]; rfl, hw.1⟩

/-- The wait of a retreat is over. -/
def State.endRetreat (s : State) : State := s.setTwin { s.twin with retry := none }

theorem interlockRetry_eq {s : State} (h : s.twin.retry ≠ none) : s.interlockRetry = s.endRetreat.interlockTake := by
  obtain ⟨b, hb⟩ := Option.ne_none_iff_exists'.mp h
  unfold State.interlockRetry
  rw [hb]
  rfl

theorem interlockRetry_clause {s : State} (he : s.twinEn = true) (hc : s.clocked = true) (hb : s.bit Reg.TWN_STAT 2 = false)
    (hp : s.peerHolds = false) (hw : s.wantsSwitch = true ∨ s.wantsStart = true ∧ s.bit Reg.TWN_CTRL 2 = true) :
    s.endRetreat.interlockTake.bit Reg.TWN_STAT 2 = true ∧ s.endRetreat.interlockTake.twin.taking = some s.wantsSwitch ∧
      s.endRetreat.interlockTake.twin.retry = none ∧ s.SameRegs s.endRetreat.interlockTake [Reg.TWN_STAT] := by
  have hregs : s.SameRegs s.endRetreat [] := fun _ _ => rfl
  have hswitch : s.endRetreat.wantsSwitch = s.wantsSwitch := rfl
  have heq := interlockTake_eq (s := s.endRetreat) he hc hb hp rfl hw
  have hretry : s.endRetreat.twin.retry = none := rfl
  generalize s.endRetreat = u at heq hregs hswitch hretry ⊢
  obtain ⟨h2, htwin, -, hsame⟩ := taken_clause u _ heq
  exact ⟨h2, by rw [htwin, hswitch], by rw [htwin, hretry], hregs.trans hsame⟩

/-- Step 4 finds no conflict: the unit is ACTIVE from the next boundary. -/
theorem interlockCheck_free {s : State} {sw : Bool} (ht : s.twin.taking = some sw) (hp : s.peerHolds = false) :
    s.interlockCheck = s.setTwin { s.twin with taking := none, next := some 1 } := by
  unfold State.interlockCheck
  rw [ht]
  exact if_neg (by simp [hp])

/-- Step 4 finds the peer's line asserted: the unit releases its own. -/
theorem interlockCheck_conflict {s : State} {sw : Bool} (ht : s.twin.taking = some sw) (hp : s.peerHolds = true) :
    s.interlockCheck =
      ((s.setBit Reg.TWN_STAT 2 false).inc Reg.TWN_CONFLICT_CNT).setTwin { s.twin with taking := none, retry := some sw } := by
  unfold State.interlockCheck
  rw [ht]
  exact if_pos hp

theorem retreat_clause (s : State) (x : Twin) {t : State} (h : t = ((s.setBit Reg.TWN_STAT 2 false).inc Reg.TWN_CONFLICT_CNT).setTwin x) :
    t.bit Reg.TWN_STAT 2 = false ∧ t.rdN Reg.TWN_CONFLICT_CNT = min (s.rdN Reg.TWN_CONFLICT_CNT + 1) 0xFFFFFFFF ∧ t.twin = x ∧
      s.SameRegs t [Reg.TWN_STAT, Reg.TWN_CONFLICT_CNT] ∧ s.SameMemory t := by
  have hw := (setBit_writes s Reg.TWN_STAT 2 false).trans (inc_writes _ Reg.TWN_CONFLICT_CNT)
  have h2 : ((s.setBit Reg.TWN_STAT 2 false).inc Reg.TWN_CONFLICT_CNT).bit Reg.TWN_STAT 2 = false :=
    (bit_of_rd (rd_inc_ne (by decide) _) 2).trans (bit_setBit_self (by decide) _ _ _)
  have hn : ((s.setBit Reg.TWN_STAT 2 false).inc Reg.TWN_CONFLICT_CNT).rdN Reg.TWN_CONFLICT_CNT = min (s.rdN Reg.TWN_CONFLICT_CNT + 1) 0xFFFFFFFF := by
    rw [rdN_inc, rdN_of_rd (rd_setBit_ne (by decide) _ _ _)]
  generalize (s.setBit Reg.TWN_STAT 2 false).inc Reg.TWN_CONFLICT_CNT = u at h hw h2 hn
  subst h
  exact ⟨h2, hn, rfl, hw.1, hw.signals.memory⟩

/-! ### The end of the lease, rules R250 and R354 -/

/-- A port that claims or is time master enters FOREIGN where it must. -/
def State.yieldPort (s : State) (p : Nat) : State := if s.mustYield p then s.toForeign p else s

/-- Without the interlock a port in CLAIM, INIT or CYCLIC must yield. -/
theorem mustYield_unheld {s : State} (h : s.ringFree = false) (p : Nat) :
    s.mustYield p = true ↔ psClaim ≤ s.pstate p ∧ s.pstate p ≤ psCyclic := by
  unfold State.mustYield
  simp [h]

theorem toForeign_ports (s : State) (p : Nat) : s.PortsFrame (s.toForeign p) [Reg.RNG_STAT p, Reg.PG_IRQ_RAW (ringPage p)] :=
  (setRp_ports _ _ _).trans (setPstate_signals _ _ _).ports

theorem yieldPort_ports (s : State) (p : Nat) : s.PortsFrame (s.yieldPort p) [Reg.RNG_STAT p, Reg.PG_IRQ_RAW (ringPage p)] := by
  unfold State.yieldPort
  split
  · exact toForeign_ports s p
  · exact .refl s _

theorem twinRegs_notRing (p : Nat) : Reg.TWN_STAT ∉ [Reg.RNG_STAT p, Reg.PG_IRQ_RAW (ringPage p)] ∧
    Reg.TWN_CTRL ∉ [Reg.RNG_STAT p, Reg.PG_IRQ_RAW (ringPage p)] := by
  rw [irqRaw_ring]
  simp only [List.mem_cons, List.not_mem_nil, or_false, Reg.TWN_STAT, Reg.TWN_CTRL, Reg.RNG_STAT]
  omega

theorem ringStat_notRing {p q : Nat} (h : p ≠ q) : Reg.RNG_STAT p ∉ [Reg.RNG_STAT q, Reg.PG_IRQ_RAW (ringPage q)] := by
  rw [irqRaw_ring]
  simp only [List.mem_cons, List.not_mem_nil, or_false, Reg.RNG_STAT]
  omega

theorem pstate_yieldPort {s : State} (h : s.ringFree = false) (p : Nat) :
    (s.yieldPort p).pstate p = if psClaim ≤ s.pstate p ∧ s.pstate p ≤ psCyclic then psForeign else s.pstate p := by
  unfold State.yieldPort
  by_cases hm : psClaim ≤ s.pstate p ∧ s.pstate p ≤ psCyclic
  · rw [if_pos ((mustYield_unheld h p).mpr hm), if_pos hm]
    exact pstate_setPstate (by decide) _ _
  · rw [if_neg (fun k => hm ((mustYield_unheld h p).mp k)), if_neg hm]

/-- The first `n` ports have yielded. -/
def State.Yielded (s t : State) (n : Nat) : Prop :=
  (∃ l, s.PortsFrame t l) ∧ (∀ a, a = Reg.TWN_STAT ∨ a = Reg.TWN_CTRL → t.rd a = s.rd a) ∧
    ∀ p, p < 4 → t.pstate p = if p < n ∧ psClaim ≤ s.pstate p ∧ s.pstate p ≤ psCyclic then psForeign else s.pstate p

theorem State.Yielded.next {s t : State} {n : Nat} (h : s.Yielded t n) (hf : s.ringFree = false) (hn : n < 4) :
    s.Yielded (t.yieldPort n) (n + 1) := by
  obtain ⟨⟨l, hframe⟩, htwin, hstate⟩ := h
  have hp := yieldPort_ports t n
  obtain ⟨hstat, hctrl⟩ := twinRegs_notRing n
  have hfree : t.ringFree = false := by
    unfold State.ringFree at hf ⊢
    rw [bit_of_rd (htwin _ (.inr rfl)), bit_of_rd (htwin _ (.inl rfl))]
    exact hf
  refine ⟨⟨_, hframe.trans hp⟩, ?_, fun p hp4 => ?_⟩
  · rintro a (rfl | rfl)
    · exact (hp.1 _ hstat).trans (htwin _ (.inl rfl))
    · exact (hp.1 _ hctrl).trans (htwin _ (.inr rfl))
  · by_cases hpn : p = n
    · subst hpn
      have hsame : t.pstate p = s.pstate p := (hstate p hp4).trans (if_neg (by omega))
      rw [pstate_yieldPort hfree p, hsame]
      simp only [Nat.lt_succ_self, true_and]
    · rw [hp.1.pstate (ringStat_notRing hpn), hstate p hp4]
      simp only [show p < n + 1 ↔ p < n by omega]

theorem yielded_upTo {s : State} (hf : s.ringFree = false) : ∀ n, n ≤ 4 → s.Yielded (forUpTo (fun p t => t.yieldPort p) n s) n
  | 0, _ => ⟨⟨[], .refl s _⟩, fun _ _ => rfl, fun p _ => (if_neg (by omega)).symm⟩
  | n + 1, h => (yielded_upTo hf n (Nat.le_of_succ_le h)).next hf h

/-- The ports leave the master's part. -/
def State.yieldPorts (s : State) : State := forUpTo (fun p t => t.yieldPort p) 4 s

/-- The role is SOLO from the next boundary. -/
def State.loseRole (s : State) : State := { s with twin := { s.twin with taking := none, next := some 0, resign := false } }

theorem leaseEnd_eq {s : State} (h : s.bit Reg.TWN_STAT 2 = true) : s.leaseEnd = (s.setBit Reg.TWN_STAT 2 false).yieldPorts.loseRole := if_pos h

theorem leaseEnd_clause {s : State} (he : s.twinEn = true) {t : State} (h : t = (s.setBit Reg.TWN_STAT 2 false).yieldPorts.loseRole) :
    t.bit Reg.TWN_STAT 2 = false ∧ t.twin.next = some 0 ∧ t.twin.taking = none ∧
      (∀ p, p < 4 → t.pstate p = if psClaim ≤ s.pstate p ∧ s.pstate p ≤ psCyclic then psForeign else s.pstate p) ∧ s.SameMemory t := by
  have hw := setBit_writes s Reg.TWN_STAT 2 false
  have h2 : (s.setBit Reg.TWN_STAT 2 false).bit Reg.TWN_STAT 2 = false := bit_setBit_self (by decide) _ _ _
  have hstate : ∀ p, (s.setBit Reg.TWN_STAT 2 false).pstate p = s.pstate p := fun p =>
    hw.1.pstate (by simp only [List.mem_singleton, Reg.RNG_STAT, Reg.TWN_STAT]; omega)
  have hfree : (s.setBit Reg.TWN_STAT 2 false).ringFree = false := by
    unfold State.ringFree
    rw [h2, bit_of_rd (rd_setBit_ne (by decide) _ _ _)]
    unfold State.twinEn at he
    rw [he]
    rfl
  generalize s.setBit Reg.TWN_STAT 2 false = u at h hw h2 hstate hfree
  obtain ⟨⟨l, hframe⟩, htwin, hyield⟩ := yielded_upTo hfree 4 (Nat.le_refl 4)
  have hv : u.yieldPorts = forUpTo (fun p t => t.yieldPort p) 4 u := rfl
  rw [← hv] at hframe htwin hyield
  generalize u.yieldPorts = v at h hframe htwin hyield
  subst h
  refine ⟨(bit_of_rd (htwin _ (.inl rfl)) 2).trans h2, rfl, rfl, fun p hp => ?_, hw.signals.memory.trans hframe.memory⟩
  refine (hyield p hp).trans ?_
  rw [hstate p]
  simp only [hp, true_and]

/-! ### The peer's line, rule R355 -/

/-- A holder that reads the peer's line asserted, before its alarm. -/
def State.noteConflict (s : State) : State := ((s.setBit Reg.TWN_STAT 3 true).setBit Reg.TWN_STAT 9 true).inc Reg.TWN_CONFLICT_CNT

theorem ilkPeerChange_held {s : State} (hc : s.clocked = true) (he : s.twinEn = true) (hh : s.holdsLock = true) :
    s.ilkPeerChange true = s.noteConflict.alarm Page.TWN 4 0 := by
  have hw := setBit_writes s Reg.TWN_STAT 3 true
  have hheld : (s.setBit Reg.TWN_STAT 3 true).holdsLock = true := by
    unfold State.holdsLock at hh ⊢
    rw [bit_setBit (by decide), if_neg (by decide), hw.signals.twin]
    exact hh
  unfold State.ilkPeerChange
  dsimp only
  rw [if_neg (by rw [hc, he]; decide), if_pos rfl, if_pos hheld]
  rfl

theorem ilkPeerChange_off {s : State} (he : s.twinEn = false) (low : Bool) : s.ilkPeerChange low = s.setBit Reg.TWN_STAT 3 low := by
  unfold State.ilkPeerChange
  dsimp only
  rw [if_pos (by rw [he, Bool.and_false]; rfl)]

theorem conflict_clause {s : State} (hc : s.clocked = true) (hh : s.holdsLock = true) {t : State} (h : t = s.noteConflict.alarm Page.TWN 4 0) :
    t.bit Reg.TWN_STAT 3 = true ∧ t.bit Reg.TWN_STAT 9 = true ∧ t.bit Reg.TWN_STAT 2 = true ∧
      t.rdN Reg.TWN_CONFLICT_CNT = min (s.rdN Reg.TWN_CONFLICT_CNT + 1) 0xFFFFFFFF ∧
      s.Raises t [Reg.TWN_STAT, Reg.TWN_CONFLICT_CNT, Reg.PG_IRQ_RAW Page.TWN] [⟨Page.TWN, 4, true, 0, s.now⟩] := by
  have hown : s.bit Reg.TWN_STAT 2 = true := by
    unfold State.holdsLock at hh
    exact (Bool.and_eq_true_iff.mp hh).1
  have hbit : ∀ i, t.bit Reg.TWN_STAT i = if i = 9 then true else if i = 3 then true else s.bit Reg.TWN_STAT i := by
    intro i
    rw [h, bit_of_rd (rd_alarm (by decide) _ _ _)]
    unfold State.noteConflict
    rw [bit_of_rd (rd_inc_ne (by decide) _), bit_setBit (by decide), bit_setBit (by decide)]
  have hw : s.Writes s.noteConflict [Reg.TWN_STAT, Reg.TWN_CONFLICT_CNT] :=
    (((setBit_writes _ _ _ _).trans (setBit_writes _ _ _ _)).trans (inc_writes _ _)).mono (by simp)
  have hr := hw.alarm hc (by decide) (by decide) Page.TWN 4 0
  rw [← h] at hr
  refine ⟨hbit 3, hbit 9, (hbit 2).trans hown, ?_, hr⟩
  rw [h, rdN_of_rd (rd_alarm (by decide) _ _ _)]
  unfold State.noteConflict
  rw [rdN_inc, rdN_of_rd (rd_setBit_ne (by decide) _ _ _), rdN_of_rd (rd_setBit_ne (by decide) _ _ _)]

/-! ### Recognition, rules R358 and R363 -/

/-- What follows from a recognised failure: bits 7 and 10 of TWN_STAT, the role to come, and in STANDBY that it is recognised. -/
def State.Recognises (s t : State) : Prop :=
  s.TwinFrame t [Reg.TWN_STAT, Reg.PG_IRQ_RAW Page.TWN] ∧
    (∀ i, i ≠ 7 → i ≠ 10 → t.bit Reg.TWN_STAT i = s.bit Reg.TWN_STAT i) ∧
    t.twin = { s.twin with recog := t.twin.recog, syncing := t.twin.syncing, next := t.twin.next }

theorem State.Recognises.refl (s : State) : s.Recognises s := ⟨(State.TwinFrame.refl s).mono (by simp), fun _ _ _ => rfl, rfl⟩

/-- A failed sync as TWN_STAT shows it, with its event. -/
def State.noteSyncFail (s : State) : State := (s.setBit Reg.TWN_STAT 10 true).event Page.TWN 6 0

theorem noteSyncFail_signals (s : State) : s.Signals s.noteSyncFail [Reg.TWN_STAT, Reg.PG_IRQ_RAW Page.TWN] :=
  (setBit_writes _ _ _ _).signals.trans (event_signals _ _ _ _)

theorem bit_noteSyncFail (s : State) (i : Nat) : s.noteSyncFail.bit Reg.TWN_STAT i = if i = 10 then true else s.bit Reg.TWN_STAT i := by
  unfold State.noteSyncFail
  rw [bit_of_rd (rd_event (by decide) _ _ _), bit_setBit (by decide)]

theorem syncFail_eq (s : State) : s.syncFail =
    s.noteSyncFail.setTwin { s.twin with syncing := false, next := if s.role = 3 then some 0 else s.twin.next } := by
  have h : s.noteSyncFail.twin = s.twin := (noteSyncFail_signals s).twin
  rw [← h]
  rfl

theorem syncFail_recognises (s : State) : s.Recognises s.syncFail := by
  have hs := noteSyncFail_signals s
  have hb := bit_noteSyncFail s
  rw [syncFail_eq]
  generalize s.noteSyncFail = u at hs hb
  exact ⟨hs.twinFrame.trans (setTwin_frame _ _), fun i _ h10 => (hb i).trans (if_neg h10), rfl⟩

theorem recognise_standby {s : State} (h : s.role = 2) :
    s.recognise = (s.setBit Reg.TWN_STAT 7 s.peerHolds).setTwin { s.twin with recog := true } := by
  unfold State.recognise
  rw [if_neg (by omega), if_pos h]

theorem recognise_recognises (s : State) : s.Recognises s.recognise := by
  unfold State.recognise
  split
  · exact syncFail_recognises s
  · split
    · have hw := setBit_writes s Reg.TWN_STAT 7 s.peerHolds
      have hb : ∀ i, i ≠ 7 → (s.setBit Reg.TWN_STAT 7 s.peerHolds).bit Reg.TWN_STAT i = s.bit Reg.TWN_STAT i := fun i hi => by
        rw [bit_setBit (by decide), if_neg hi]
      generalize s.setBit Reg.TWN_STAT 7 s.peerHolds = u at hw hb
      exact ⟨(hw.signals.twinFrame.trans (setTwin_frame _ _)).mono (by simp), fun i h7 _ => hb i h7, rfl⟩
    · exact .refl s

theorem whenRecognise_recognises (s : State) (b : Bool) : s.Recognises (s.when b State.recognise) := by
  cases b
  · exact .refl s
  · exact recognise_recognises s

theorem recog_recognise {s : State} (h : s.role = 2) : s.recognise.twin.recog = true := by
  rw [recognise_standby h]
  rfl

/-! ### Heartbeat checks, rule R358 -/

/-- The heartbeat paths as TWN_STAT shows them. -/
def State.showPaths (s : State) (pin link : Bool) : State := (s.setBit Reg.TWN_STAT 5 pin).setBit Reg.TWN_STAT 6 link

/-- A path whose heartbeat is missing counts, with its event. -/
def State.missPath (s : State) (seen : Bool) (a : Nat) : State := if seen then s else (s.inc a).event Page.TWN 3 0

theorem missPath_signals (s : State) (seen : Bool) (a : Nat) : s.Signals (s.missPath seen a) [a, Reg.PG_IRQ_RAW Page.TWN] := by
  unfold State.missPath
  split
  · exact (State.Writes.refl s).signals.mono (by simp)
  · exact (inc_writes _ _).signals.trans (event_signals _ _ _ _)

theorem rdN_missPath {a : Nat} (ha : a ≠ Reg.PG_IRQ_RAW Page.TWN) (s : State) (seen : Bool) :
    (s.missPath seen a).rdN a = min (s.rdN a + b2n (!seen)) 0xFFFFFFFF := by
  have hlt := rdN_lt s a
  unfold State.missPath
  cases seen with
  | true =>
    rw [if_pos rfl]
    simp only [Bool.not_true, b2n, Bool.false_eq_true, if_false]
    omega
  | false =>
    rw [if_neg (by decide), rdN_of_rd (rd_event ha _ _ _), rdN_inc]
    rfl

/-- The counts of a check. -/
def State.notePaths (s : State) (pin link : Bool) : State :=
  ((s.showPaths pin link).missPath pin Reg.TWN_HB_MISS_PIN_CNT).missPath link Reg.TWN_HB_MISS_LINK_CNT

theorem notePaths_signals (s : State) (pin link : Bool) : s.Signals (s.notePaths pin link)
    [Reg.TWN_STAT, Reg.TWN_HB_MISS_PIN_CNT, Reg.TWN_HB_MISS_LINK_CNT, Reg.PG_IRQ_RAW Page.TWN] :=
  ((((setBit_writes _ _ _ _).trans (setBit_writes _ _ _ _)).signals.trans (missPath_signals _ _ _)).trans (missPath_signals _ _ _)).mono
    (by decide)

theorem notePaths_page (s : State) (pin link : Bool) :
    (s.notePaths pin link).bit Reg.TWN_STAT 5 = pin ∧ (s.notePaths pin link).bit Reg.TWN_STAT 6 = link ∧
      (s.notePaths pin link).role = s.role ∧
      (s.notePaths pin link).rdN Reg.TWN_HB_MISS_PIN_CNT = min (s.rdN Reg.TWN_HB_MISS_PIN_CNT + b2n (!pin)) 0xFFFFFFFF ∧
      (s.notePaths pin link).rdN Reg.TWN_HB_MISS_LINK_CNT = min (s.rdN Reg.TWN_HB_MISS_LINK_CNT + b2n (!link)) 0xFFFFFFFF := by
  have hshow := (setBit_writes s Reg.TWN_STAT 5 pin).trans (setBit_writes _ Reg.TWN_STAT 6 link)
  have hpin := missPath_signals (s.showPaths pin link) pin Reg.TWN_HB_MISS_PIN_CNT
  have hlink := missPath_signals ((s.showPaths pin link).missPath pin Reg.TWN_HB_MISS_PIN_CNT) link Reg.TWN_HB_MISS_LINK_CNT
  have hstat := (hpin.trans hlink).1 Reg.TWN_STAT (by decide)
  refine ⟨?_, ?_, ?_, ?_, ?_⟩
  · refine (bit_of_rd hstat 5).trans ?_
    unfold State.showPaths
    rw [bit_setBit (by decide), if_neg (by decide), bit_setBit_self (by decide)]
  · exact (bit_of_rd hstat 6).trans (bit_setBit_self (by decide) _ _ _)
  · refine (fld_of_rd hstat 1 0).trans ?_
    unfold State.showPaths
    rw [fld_setBit_ne (by decide) (by decide), fld_setBit_ne (by decide) (by decide)]
    rfl
  · refine (hlink.1.rdN (by decide)).trans ((rdN_missPath (by decide) _ _).trans ?_)
    rw [show (s.showPaths pin link).rdN _ = _ from hshow.1.rdN (by decide)]
  · refine (rdN_missPath (by decide) _ _).trans ?_
    rw [hpin.1.rdN (by decide), show (s.showPaths pin link).rdN _ = _ from hshow.1.rdN (by decide)]

/-- What the twin unit keeps after a check. -/
def Twin.checked (x : Twin) : Twin :=
  { x with pinSeen := false, linkSeen := false, missRun := if x.pinSeen || x.linkSeen then 0 else x.missRun + 1 }

/-- A check before its recognition. -/
def State.checkPaths (s : State) : State := (s.notePaths s.twin.pinSeen s.twin.linkSeen).setTwin s.twin.checked

/-- The failure is recognised by a check. -/
def State.checkLost (s : State) : Bool := s.fld Reg.TWN_CTRL 4 3 != 1 && s.detected

theorem heartbeatCheck_eq {s : State} (hc : s.clocked = true) (he : s.twinEn = true) (hr : 2 ≤ s.role) :
    s.heartbeatCheck = s.checkPaths.when s.checkPaths.checkLost State.recognise := by
  have h : (s.notePaths s.twin.pinSeen s.twin.linkSeen).twin = s.twin := (notePaths_signals s _ _).twin
  have hset : s.checkPaths = (s.notePaths s.twin.pinSeen s.twin.linkSeen).setTwin
      { (s.notePaths s.twin.pinSeen s.twin.linkSeen).twin with
        pinSeen := false, linkSeen := false,
        missRun := if s.twin.pinSeen || s.twin.linkSeen then 0 else (s.notePaths s.twin.pinSeen s.twin.linkSeen).twin.missRun + 1 } := by
    rw [h]
    rfl
  rw [hset]
  exact if_pos (by simp [hc, he, hr])

theorem heartbeatCheck_clause (s : State) {t : State} (h : t = s.checkPaths.when s.checkPaths.checkLost State.recognise) :
    t.bit Reg.TWN_STAT 5 = s.twin.pinSeen ∧ t.bit Reg.TWN_STAT 6 = s.twin.linkSeen ∧ t.twin.pinSeen = false ∧ t.twin.linkSeen = false ∧
      t.twin.missRun = (if s.twin.pinSeen || s.twin.linkSeen then 0 else s.twin.missRun + 1) ∧
      t.rdN Reg.TWN_HB_MISS_PIN_CNT = min (s.rdN Reg.TWN_HB_MISS_PIN_CNT + b2n (!s.twin.pinSeen)) 0xFFFFFFFF ∧
      t.rdN Reg.TWN_HB_MISS_LINK_CNT = min (s.rdN Reg.TWN_HB_MISS_LINK_CNT + b2n (!s.twin.linkSeen)) 0xFFFFFFFF ∧
      (s.role = 2 → s.fld Reg.TWN_CTRL 4 3 = 2 → s.twin.pinSeen = false → s.twin.linkSeen = false →
        s.fld Reg.TWN_CTRL 11 8 ≤ s.twin.missRun + 1 → t.twin.recog = true) ∧ s.SameMemory t := by
  have hs := notePaths_signals s s.twin.pinSeen s.twin.linkSeen
  obtain ⟨h5, h6, hrole, hpin, hlink⟩ := notePaths_page s s.twin.pinSeen s.twin.linkSeen
  have hframe : s.TwinFrame s.checkPaths _ := hs.twinFrame.trans (setTwin_frame _ _)
  have hctrl : ∀ hi lo, s.checkPaths.fld Reg.TWN_CTRL hi lo = s.fld Reg.TWN_CTRL hi lo := fun hi lo => hframe.1.fld (by decide) hi lo
  have hchecked : s.checkPaths.twin = s.twin.checked := rfl
  have h5' : s.checkPaths.bit Reg.TWN_STAT 5 = s.twin.pinSeen := h5
  have h6' : s.checkPaths.bit Reg.TWN_STAT 6 = s.twin.linkSeen := h6
  have hrole' : s.checkPaths.role = s.role := hrole
  have hpin' : s.checkPaths.rdN Reg.TWN_HB_MISS_PIN_CNT = min (s.rdN Reg.TWN_HB_MISS_PIN_CNT + b2n (!s.twin.pinSeen)) 0xFFFFFFFF := hpin
  have hlink' : s.checkPaths.rdN Reg.TWN_HB_MISS_LINK_CNT = min (s.rdN Reg.TWN_HB_MISS_LINK_CNT + b2n (!s.twin.linkSeen)) 0xFFFFFFFF := hlink
  have hmem := hframe.memory
  clear hs h5 h6 hrole hpin hlink hframe
  generalize s.checkPaths = u at *
  have hrec := whenRecognise_recognises u u.checkLost
  rw [← h] at hrec
  obtain ⟨hf, hbits, htwin⟩ := hrec
  have hwas : t.twin.pinSeen = u.twin.pinSeen ∧ t.twin.linkSeen = u.twin.linkSeen ∧ t.twin.missRun = u.twin.missRun := by
    rw [htwin]
    exact ⟨rfl, rfl, rfl⟩
  obtain ⟨hwas1, hwas2, hwas3⟩ := hwas
  refine ⟨(hbits 5 (by decide) (by decide)).trans h5', (hbits 6 (by decide) (by decide)).trans h6', ?_, ?_, ?_,
    (hf.1.rdN (by decide)).trans hpin', (hf.1.rdN (by decide)).trans hlink', ?_, hmem.trans hf.memory⟩
  · rw [hwas1, hchecked]
    rfl
  · rw [hwas2, hchecked]
    rfl
  · rw [hwas3, hchecked]
    rfl
  · intro h2 hdet hp hl hn
    have hlost : u.checkLost = true := by
      unfold State.checkLost State.detected State.pathsLost
      rw [hctrl 4 3, hdet, hctrl 11 8, hchecked]
      simp [Twin.checked, hp, hl, hn]
    rw [h, hlost]
    exact recog_recognise (hrole'.trans h2)

/-! ### Health, resignation, Flint's test and the hold, rules R361 to R366 -/

theorem healthWord_eq {s : State} (hc : s.clocked = true) (he : s.twinEn = true) (hr : s.role = 1) (w : Word) :
    s.healthWord w = (s.wr Reg.TWN_PEER_HEALTH w).when (s.bit Reg.TWN_PEER_HEALTH 31 && !w.getLsbD 31) (fun t => t.alarm Page.TWN 1 0) :=
  if_pos (by simp [hc, he, hr])

theorem healthWord_clause {s : State} (hc : s.clocked = true) (w : Word) (b : Bool) {t : State}
    (h : t = (s.wr Reg.TWN_PEER_HEALTH w).when b (fun t => t.alarm Page.TWN 1 0)) :
    t.rd Reg.TWN_PEER_HEALTH = w ∧ s.Raises t [Reg.TWN_PEER_HEALTH, Reg.PG_IRQ_RAW Page.TWN]
      (if b then [⟨Page.TWN, 1, true, 0, s.now⟩] else []) := by
  have hw := wr_writes s Reg.TWN_PEER_HEALTH w
  subst h
  cases b with
  | false => exact ⟨rd_wr_self _ _ _, hw.raises.mono (by simp)⟩
  | true => exact ⟨(rd_alarm (by decide) _ _ _).trans (rd_wr_self _ _ _), hw.alarm hc (by decide) (by decide) Page.TWN 1 0⟩

theorem resigns_eq {s : State} (hc : s.clocked = true) (he : s.twinEn = true) (hr : s.role = 1) (hh : s.holdsLock = true)
    (hp : s.bit Reg.TWN_PEER_HEALTH 31 = true) (hn : s.bit Reg.TWN_STAT 12 = false) :
    s.resigns = { s with twin := { s.twin with resign := true } } := if_pos (by simp [hc, he, hr, hh, hp, hn])

theorem noteTest_field (s : State) (opened : Bool) : (s.noteTest opened).field.vcc = s.field.vcc := by
  unfold State.noteTest
  rw [State.setBit_field, flintState_eq, refreshDq_field, State.wrN_field, State.setFld_field, State.setFld_field]
  rfl

theorem standbyFlintTest_clause {s : State} (hv : s.field.vcc = true) (opened : Bool) (seed : BitVec 16) {t : State}
    (h : t = (s.testTrip opened).flintArm seed.toNat) :
    t.fld Reg.FLT_STAT 1 0 = 2 ∧ t.fld Reg.FLT_STAT 7 4 = 8 ∧ t.rdN Reg.FLT_GATE = 0 ∧ t.saf.flint.seed = seed.toNat ∧
      t.saf.flint.armPend = true ∧ s.SameMemory t := by
  obtain ⟨hst, hcause, -, -, hgate, -, hmem⟩ := testTrip_clause (testTrip_eq hv opened)
  have hvcc : (s.testTrip opened).field.vcc = true := by rw [testTrip_eq hv, refreshSaf_field, noteTest_field, hv]
  generalize s.testTrip opened = u at h hst hcause hgate hmem hvcc
  rw [flintArm_eq hvcc (.inr (.inr (.inr hcause)))] at h
  obtain ⟨hseed, harm, -, hstate, hregs, hm⟩ := flintArm_clause h
  refine ⟨hstate.trans hst, ?_, (hregs.rdN (by decide)).trans hgate, hseed, harm, hmem.trans hm⟩
  rw [h, fld_setBit_ne (by decide) (by decide)]
  exact hcause

/-- The hold on paralleled outputs has ended. -/
def State.endHold (s : State) : State := { s with field := { s.field with parUntil := none } }

theorem parEnd_eq {s : State} (h : s.field.parUntil ≠ none) : s.parEnd = s.endHold.refreshDq := if_pos (Option.isSome_iff_ne_none.mpr h)

theorem parEnd_clause (s : State) {t : State} (h : t = s.endHold.refreshDq) :
    t.field.parUntil = none ∧ (∀ i, i < 16 → t.field.on.getLsbD i = t.dqOn i) ∧ s.SameRegs t [Reg.FIO_DQ_RB] ∧ s.SameMemory t := by
  have hnone : s.endHold.field.parUntil = none := rfl
  have hregs : s.SameRegs s.endHold [] := fun _ _ => rfl
  have hmem : s.SameMemory s.endHold := ⟨rfl, rfl, rfl, rfl, rfl⟩
  generalize s.endHold = u at h hnone hregs hmem
  subst h
  refine ⟨by rw [refreshDq_field, hnone], fun i hi => ?_, hregs.trans (refreshDq_sameRegs u), hmem.trans (refreshDq_memory u)⟩
  rw [refreshDq_on u hi, refreshDq_dqOn u hi]

/-- Settles O55: per command, the interlock, the lease, the checks and the hold. -/
theorem twinInterlock : Obligations.TwinInterlock := by
  refine ⟨?_, ?_, ?_, ?_, ?_, ?_, ?_, ?_, ?_, ?_, ?_⟩
  · intro s he hc hb hp
    refine ⟨fun hw => ⟨fun hr => ?_, fun hr => ?_⟩, fun hstart hpref hr => ?_⟩
    · obtain ⟨h2, htwin, hframe, hregs⟩ := taken_clause s _ (interlockTake_eq he hc hb hp hr hw)
      exact ⟨_, rfl, h2, by rw [htwin], by rw [htwin]; exact hframe, hregs⟩
    · exact ⟨_, congrArg Host.Outcome.next (interlockRetry_eq hr), interlockRetry_clause he hc hb hp hw⟩
    · have heq : (if s.wantsStart && !s.bit Reg.TWN_CTRL 2 then s.takeLock false else s) = _ :=
        (if_pos (by simp [hstart, hpref])).trans (takeLock_eq he hc hb hp hr false)
      obtain ⟨h2, htwin, -, hregs⟩ := taken_clause s _ heq
      exact ⟨_, rfl, h2, by rw [htwin], hregs⟩
  · intro s sw ht
    refine ⟨fun hp => ?_, fun hp => ?_⟩
    · exact ⟨_, congrArg Host.Outcome.next (interlockCheck_free ht hp), rfl, rfl, (setTwin_frame _ _).1, (setTwin_frame _ _).memory⟩
    · obtain ⟨h2, hn, htwin, hregs, hmem⟩ := retreat_clause s _ (interlockCheck_conflict ht hp)
      exact ⟨_, rfl, h2, hn, by rw [htwin], by rw [htwin], hregs, hmem⟩
  · intro s he hb
    exact ⟨_, rfl, leaseEnd_clause he (leaseEnd_eq hb)⟩
  · intro s hc he hh
    exact ⟨_, rfl, conflict_clause hc hh (ilkPeerChange_held hc he hh)⟩
  · intro s low he
    exact ⟨_, congrArg Host.Outcome.next (ilkPeerChange_off he low), bit_setBit_self (by decide) _ _ _, setBit_writes _ _ _ _⟩
  · intro s hc he hr
    exact ⟨_, rfl, heartbeatCheck_clause s (heartbeatCheck_eq hc he hr)⟩
  · intro s hc he
    exact ⟨_, congrArg Host.Outcome.next (if_pos (by simp [hc, he])), rfl, rfl, rfl⟩
  · intro s w hc he hr
    exact ⟨_, rfl, healthWord_clause hc w _ (healthWord_eq hc he hr w)⟩
  · intro s ag hw he hr hh hp hn
    refine completes_write hw rfl ?_
    rw [resigns_eq (writable_clocked hw) he hr hh hp hn]
    exact ⟨rfl, rfl⟩
  · intro s opened seed hc hs hv
    exact ⟨_, congrArg Host.Outcome.next (if_pos (by simp [hc, hs])), standbyFlintTest_clause hv opened seed rfl⟩
  · intro s h
    exact ⟨_, rfl, parEnd_clause s (parEnd_eq h)⟩

end Sys2Proof.Machine
end

section
/-! SUPPORT. The boot and the end of the self-test (O6). -/

namespace Sys2Proof.Machine

/-! ### What the steps of the boot leave -/

/-- The device state, cell memory and the engines' memories stay. -/
def State.KeepsBoot (s t : State) : Prop := t.sys.dev = s.sys.dev ∧ t.cell = s.cell ∧ t.code = s.code ∧ t.data = s.data

theorem State.KeepsBoot.refl (s : State) : s.KeepsBoot s := ⟨rfl, rfl, rfl, rfl⟩

theorem State.KeepsBoot.trans {s t u : State} (h : s.KeepsBoot t) (k : t.KeepsBoot u) : s.KeepsBoot u := by
  obtain ⟨h1, h2, h3, h4⟩ := h
  obtain ⟨k1, k2, k3, k4⟩ := k
  exact ⟨k1.trans h1, k2.trans h2, k3.trans h3, k4.trans h4⟩

theorem State.Signals.keepsBoot {s t : State} {l : List Nat} (h : s.Signals t l) : s.KeepsBoot t := by
  obtain ⟨hcell, -, -, hcode, hdata⟩ := h.memory
  exact ⟨congrArg Sys.dev h.sys, hcell, hcode, hdata⟩

theorem bootStep_keepsBoot (s : State) (n : Nat) : s.KeepsBoot (s.bootStep n) := by
  have hw := setFld_writes s Reg.SYS_BOOT 15 12 n
  unfold State.bootStep
  dsimp only
  generalize s.setFld Reg.SYS_BOOT 15 12 n = u at hw ⊢
  exact hw.signals.keepsBoot

/-- A boot that stops: the code and the step as SYS_BOOT shows them. -/
theorem bootFail_clause (s : State) {fail step : Nat} (hf : fail < 16) (hs : step < 16) :
    (s.bootFail fail step).fld Reg.SYS_BOOT 11 8 = fail ∧ (s.bootFail fail step).fld Reg.SYS_BOOT 15 12 = step ∧
      s.KeepsBoot (s.bootFail fail step) := by
  have hw := (setFld_writes s Reg.SYS_BOOT 11 8 fail).trans (setFld_writes _ Reg.SYS_BOOT 15 12 step)
  have h8 : ((s.setFld Reg.SYS_BOOT 11 8 fail).setFld Reg.SYS_BOOT 15 12 step).fld Reg.SYS_BOOT 11 8 = fail := by
    rw [fld_setFld_ne (by decide) (by decide) (by decide), fld_setFld (by decide) (by decide)]
    exact Nat.mod_eq_of_lt hf
  have h12 : ((s.setFld Reg.SYS_BOOT 11 8 fail).setFld Reg.SYS_BOOT 15 12 step).fld Reg.SYS_BOOT 15 12 = step := by
    rw [fld_setFld (by decide) (by decide)]
    exact Nat.mod_eq_of_lt hs
  unfold State.bootFail
  dsimp only
  generalize (s.setFld Reg.SYS_BOOT 11 8 fail).setFld Reg.SYS_BOOT 15 12 step = u at hw h8 h12 ⊢
  exact ⟨h8, h12, hw.signals.keepsBoot⟩

/-! ### Steps 3 and 4, rules R413 and R414 -/

/-- The engines' status pages stand at their reset values. -/
def State.clearEngines (s : State) : State :=
  forUpTo (fun e t => { t with regs := Tab.dropRange (pageBase (Page.ENG e) + 0x800) 0x800 t.regs }) 64 s

/-- Every domain but Slate's and the field die's is powered. -/
def State.bootPower (s : State) : State := (forEach (fun d t => t.setDomain d true) bootDomains s).setDomain 2 false

/-- LPDDR4X is empty, with the size fitted. -/
def State.bootEmpty (s : State) (inp : BootInputs) : State :=
  { ((s.wrN Reg.CLK_STAT 0x3FF).wr Reg.SYS_BOOT 0) with dram := [], sys := { s.sys with dramBytes := usableDram inp } }

/-- The state at step 4. -/
def State.bootStarted (s : State) (inp : BootInputs) : State :=
  forEach (fun n t => t.bootStep n) [2, 3, 4] (s.initSram.clearEngines.bootPower.bootEmpty inp)

theorem bootFrom3_noFlash {inp : BootInputs} (h : inp.flashOk = false) (s : State) :
    s.bootFrom3 inp = (s.bootStarted inp).bootFail 3 4 := if_pos (by simp [h])

theorem clearEngines_keepsBoot (s : State) : s.KeepsBoot s.clearEngines := by
  have hpage : ∀ (e : Nat) (t : State),
      t.KeepsBoot { t with regs := Tab.dropRange (pageBase (Page.ENG e) + 0x800) 0x800 t.regs } := fun _ _ => ⟨rfl, rfl, rfl, rfl⟩
  unfold State.clearEngines
  exact forUpTo_invariant (fun e t h => State.KeepsBoot.trans h (hpage e t)) 64 (State.KeepsBoot.refl s)

theorem bootPower_keepsBoot (s : State) : s.KeepsBoot s.bootPower :=
  (forEach_invariant (P := s.KeepsBoot) (fun d t h => h.trans (setDomain_writes t d true).signals.keepsBoot) _ _ (.refl s)).trans
    (setDomain_writes _ 2 false).signals.keepsBoot

theorem bootEmpty_keepsBoot (s : State) (inp : BootInputs) : s.KeepsBoot (s.bootEmpty inp) := by
  obtain ⟨-, hcell, hcode, hdata⟩ := ((wrN_writes s Reg.CLK_STAT 0x3FF).trans (wr_writes _ Reg.SYS_BOOT 0)).signals.keepsBoot
  exact ⟨rfl, hcell, hcode, hdata⟩

/-- Steps 1 to 4 empty the SRAMs and keep the device state. -/
theorem bootStarted_clause (s : State) (inp : BootInputs) :
    (s.bootStarted inp).sys.dev = s.sys.dev ∧ (s.bootStarted inp).cell = [] ∧ (s.bootStarted inp).code = [] ∧ (s.bootStarted inp).data = [] := by
  obtain ⟨hdev, hcell, hcode, hdata⟩ := (((clearEngines_keepsBoot s.initSram).trans (bootPower_keepsBoot _)).trans
    (bootEmpty_keepsBoot _ inp)).trans (forEach_invariant (P := State.KeepsBoot _) (fun n t h => h.trans (bootStep_keepsBoot t n)) [2, 3, 4] _
    (.refl _))
  exact ⟨hdev, hcell, hcode, hdata⟩

theorem enter_boot (s : State) : (s.enter .boot).sys.dev = .boot := by
  unfold State.enter
  dsimp only
  split
  · rfl
  · exact congrArg Sys.dev (event_signals _ _ _ _).sys

theorem resetRelease_eq {s : State} (h : s.sys.dev = .reset) (inp : BootInputs) : s.resetRelease inp = (s.enter .boot).bootFrom3 inp :=
  if_pos (by simp [h])

theorem noFlash_clause {s : State} {inp : BootInputs} {t : State} (h : t = ((s.enter .boot).bootStarted inp).bootFail 3 4) :
    t.sys.dev = .boot ∧ t.fld Reg.SYS_BOOT 11 8 = 3 ∧ t.fld Reg.SYS_BOOT 15 12 = 4 ∧ t.cell = [] ∧ t.code = [] ∧ t.data = [] := by
  obtain ⟨hdev, hcell, hcode, hdata⟩ := bootStarted_clause (s.enter .boot) inp
  have hboot := hdev.trans (enter_boot s)
  generalize (s.enter .boot).bootStarted inp = u at h hboot hcell hcode hdata
  obtain ⟨h8, h12, kdev, kcell, kcode, kdata⟩ := bootFail_clause u (fail := 3) (step := 4) (by decide) (by decide)
  rw [← h] at h8 h12 kdev kcell kcode kdata
  exact ⟨kdev.trans hboot, h8, h12, kcell.trans hcell, kcode.trans hcode, kdata.trans hdata⟩

/-! ### Steps 5 to 7, rule R415 -/

/-- Slot A comes first where its version is not the lower one. -/
theorem bootOrder_a {inp : BootInputs} (hh : inp.a.header = true) (hv : inp.b.version.toNat ≤ inp.a.version.toNat) :
    ∃ rest, bootOrder inp = (1, inp.a) :: rest := by
  unfold bootOrder
  dsimp only
  rw [if_neg (Nat.not_lt.mpr hv), if_pos hh]
  exact ⟨_, rfl⟩

/-- The state at step 6. -/
def State.bootChosen (s : State) (inp : BootInputs) : State := (((s.bootStarted inp).setBit Reg.SYS_BOOT 3 inp.octal).bootStep 5).bootStep 6

theorem bootFrom3_a {inp : BootInputs} (hf : inp.flashOk = true) (hd : dramFit inp = true) (hh : inp.a.header = true) (hc : inp.a.crcOk = true)
    (hv : inp.b.version.toNat ≤ inp.a.version.toNat) (s : State) :
    s.bootFrom3 inp = (s.bootChosen inp).bootLoad 1 inp.a false := by
  obtain ⟨rest, hrest⟩ := bootOrder_a hh hv
  have hpick : List.find? (fun x : Nat × ImageSlot => x.2.crcOk) ((1, inp.a) :: rest) = some (1, inp.a) := List.find?_cons_of_pos hc
  unfold State.bootFrom3
  dsimp only
  rw [hrest]
  dsimp only
  rw [hpick, hf, hd, if_neg (by decide)]
  exact if_neg (by decide)

/-- A good image leads to SELFTEST. -/
theorem bootLoad_good {img : ImageSlot} (h : img.pages.any badRecord = false) (s : State) (slot : Nat) (fallback : Bool) :
    ∃ u : State, s.bootLoad slot img fallback = u.trigger .selftest := by
  unfold State.bootLoad
  dsimp only
  rw [h, if_neg (by decide)]
  exact ⟨_, rfl⟩

theorem goodImage_clause {s : State} {inp : BootInputs} (hr : s.sys.dev = .reset) (hs : s.Sound) (hf : inp.flashOk = true)
    (hd : dramFit inp = true) (hh : inp.a.header = true) (hc : inp.a.crcOk = true) (hv : inp.b.version.toNat ≤ inp.a.version.toNat)
    (hg : inp.a.pages.any badRecord = false) :
    (s.resetRelease inp).sys.dev = .boot ∧ .selftest ∈ (s.resetRelease inp).sys.triggers ∧ (s.resetRelease inp).Sound := by
  have hk : (s.resetRelease inp).Kept s.pending .boot := by
    rcases State.resetRelease_kept hs.kept (inp := inp) with ⟨-, hk⟩ | ⟨hne, -⟩
    · exact hk
    · exact absurd hr hne
  obtain ⟨u, hu⟩ := bootLoad_good hg ((s.enter .boot).bootChosen inp) 1 false
  have heq := (resetRelease_eq hr inp).trans ((bootFrom3_a hf hd hh hc hv _).trans hu)
  have hdev : u.sys.dev = .boot := by
    have hfinal := hk.dev
    rw [heq, trigger_eq] at hfinal
    exact hfinal
  refine ⟨hk.dev, ?_, hk.sound⟩
  rw [heq]
  exact mem_trigger (by rw [hdev]; rfl)

/-! ### The end of SELFTEST, rule R419 -/

/-- The results of SELFTEST with the pass bits `p`. -/
def State.noteResults (s : State) (p : Nat) : State := (s.wrN Reg.SYS_SELFTEST (p + 256 * (255 - p))).setFld Reg.SYS_BOOT 15 12 11

/-- A failed SELFTEST is a stop cause. -/
def State.failSelftest (s : State) : State := (s.stopCause .selftest).setBit Reg.SYS_STOP_CAUSE 9 true

theorem noteResults_writes (s : State) (p : Nat) : s.Writes (s.noteResults p) [Reg.SYS_SELFTEST, Reg.SYS_BOOT] :=
  (wrN_writes _ _ _).trans (setFld_writes _ _ _ _ _)

theorem noteResults_shows (s : State) {p : Nat} (h : p < 256) : (s.noteResults p).rdN Reg.SYS_SELFTEST = p + 256 * (255 - p) := by
  unfold State.noteResults
  rw [rdN_of_rd (rd_setFld_ne (by decide) _ _ _ _), rdN_wrN_self]
  exact Nat.mod_eq_of_lt (by omega)

theorem selftestDone_passed {s : State} (hd : s.sys.dev = .selftest) (hf : s.saf.slate.failed = false) (ho : s.selftestOver = true)
    (ht : s.saf.flint.tested = some true) : s.selftestDone 255 = (s.noteResults 255).trigger .ready := by
  unfold State.selftestDone
  rw [if_pos (by simp [hd, ho]), hf, if_neg (c := s.saf.flint.tested = some false) (by simp [ht])]
  rfl

theorem selftestDone_waits {s : State} (hf : s.saf.slate.failed = false) (ho : s.selftestOver = false) : s.selftestDone 255 = s :=
  if_neg (by simp [hf, ho])

theorem selftestDone_untripped {s : State} (hd : s.sys.dev = .selftest) (hf : s.saf.slate.failed = false) (ho : s.selftestOver = true)
    (ht : s.saf.flint.tested = some false) : s.selftestDone 255 = ((s.noteResults 191).failSelftest).trigger .safestop := by
  unfold State.selftestDone
  rw [if_pos (by simp [hd, ho]), hf, if_pos (c := s.saf.flint.tested = some false) ht]
  rfl

theorem selftestDone_failed {s : State} {p : Nat} (hd : s.sys.dev = .selftest) (hp : p ≠ 255) (hf : s.saf.slate.failed = false)
    (ht : s.saf.flint.tested ≠ some false) : s.selftestDone p = ((s.noteResults p).failSelftest).trigger .safestop := by
  unfold State.selftestDone
  rw [if_pos (by simp [hd, hp]), hf, if_neg (c := s.saf.flint.tested = some false) ht]
  exact if_neg hp

theorem passed_clause {s : State} (hd : s.sys.dev = .selftest) {t : State} (h : t = (s.noteResults 255).trigger .ready) :
    t.rdN Reg.SYS_SELFTEST = 255 ∧ .ready ∈ t.sys.triggers ∧ s.SameRegs t [Reg.SYS_SELFTEST, Reg.SYS_BOOT] ∧ s.SameMemory t := by
  have hw := noteResults_writes s 255
  have hshow := noteResults_shows s (p := 255) (by decide)
  have hdev : (s.noteResults 255).sys.dev = .selftest := (congrArg Sys.dev hw.signals.sys).trans hd
  generalize s.noteResults 255 = u at h hw hshow hdev
  have ht := trigger_triggers u .ready
  rw [← h] at ht
  refine ⟨(ht.1.rdN (by simp)).trans hshow, ?_, hw.1.trans ht.1, hw.signals.memory.trans ht.memory⟩
  rw [h]
  exact mem_trigger (by rw [hdev]; rfl)

theorem failed_clause {s : State} (hd : s.sys.dev = .selftest) {p : Nat} (hp : p < 256) {t : State}
    (h : t = ((s.noteResults p).failSelftest).trigger .safestop) :
    t.rdN Reg.SYS_SELFTEST = p + 256 * (255 - p) ∧ t.bit Reg.SYS_STOP_CAUSE 9 = true ∧ .safestop ∈ t.sys.triggers ∧
      s.SameRegs t [Reg.SYS_SELFTEST, Reg.SYS_BOOT, Reg.SYS_STOP_CAUSE] ∧ s.SameMemory t := by
  have hw := noteResults_writes s p
  have hshow := noteResults_shows s hp
  have hdev : (s.noteResults p).sys.dev = .selftest := (congrArg Sys.dev hw.signals.sys).trans hd
  generalize s.noteResults p = u at h hw hshow hdev
  have hstop := ((stopCause_triggers u .selftest).trans (setBit_writes _ Reg.SYS_STOP_CAUSE 9 true).triggers).mono
    (m := [Reg.SYS_STOP_CAUSE]) (by simp)
  have h9 : u.failSelftest.bit Reg.SYS_STOP_CAUSE 9 = true := bit_setBit_self (by decide) _ _ _
  have hstop' : u.Triggers u.failSelftest [Reg.SYS_STOP_CAUSE] := hstop
  have hdev' : u.failSelftest.sys.dev = .selftest := by rw [hstop'.2]; exact hdev
  clear hstop
  generalize u.failSelftest = v at h h9 hstop' hdev'
  have ht := trigger_triggers v .safestop
  rw [← h] at ht
  refine ⟨?_, (ht.1.bit (by simp) 9).trans h9, ?_, ((hw.1.trans hstop'.1).trans ht.1).mono (by simp),
    (hw.signals.memory.trans hstop'.memory).trans ht.memory⟩
  · rw [ht.1.rdN (by simp), hstop'.1.rdN (by decide), hshow]
  · rw [h]
    exact mem_trigger (by rw [hdev']; rfl)

/-- The bits of SYS_SELFTEST where T6 alone failed. -/
theorem untripped_bits {t : State} (h : t.rdN Reg.SYS_SELFTEST = 191 + 256 * (255 - 191)) :
    t.bit Reg.SYS_SELFTEST 6 = false ∧ t.bit Reg.SYS_SELFTEST (8 + 6) = true := by
  have hword : t.rd Reg.SYS_SELFTEST = 0x40BF#32 := BitVec.eq_of_toNat_eq h
  unfold State.bit
  rw [hword]
  decide

/-- Settles O6: the boot by its first failure or its slot, SELFTEST by its results. -/
theorem bootAndSelftest : Obligations.BootAndSelftest := by
  refine ⟨?_, ?_, ?_, ?_, ?_, ?_⟩
  · intro s inp hr hf
    exact ⟨_, rfl, noFlash_clause ((resetRelease_eq hr inp).trans (bootFrom3_noFlash hf _))⟩
  · intro s inp hr hf hd hh hc hv hg hs
    exact ⟨_, rfl, goodImage_clause hr hs hf hd hh hc hv hg⟩
  · intro s pass hd hp hf ho ht
    subst hp
    exact ⟨_, rfl, passed_clause hd (selftestDone_passed hd hf ho ht)⟩
  · intro s pass hd hp hf ho
    subst hp
    exact ⟨_, rfl, selftestDone_waits hf ho⟩
  · intro s pass hd hp hf ho ht
    subst hp
    obtain ⟨hword, h9, htrig, -, -⟩ := failed_clause hd (by decide) (selftestDone_untripped hd hf ho ht)
    obtain ⟨h6, h14⟩ := untripped_bits hword
    exact ⟨_, rfl, h6, h14, h9, htrig⟩
  · intro s pass hd hp hf ht
    have hne : pass.toNat ≠ 255 := fun h => hp (BitVec.eq_of_toNat_eq h)
    exact ⟨_, rfl, failed_clause hd pass.isLt (selftestDone_failed hd hne hf ht)⟩

end Sys2Proof.Machine
end

section
/-! SUPPORT. The mirror, the syncs and the peer's alarms of a twin pair (O56). -/

namespace Sys2Proof.Machine

/-! ### What the inputs of a mirror leave -/

/-- What the twin unit keeps and the masters' samples stay. -/
def State.KeepsMirror (s t : State) : Prop := t.twin = s.twin ∧ t.prof.master = s.prof.master

theorem State.KeepsMirror.refl (s : State) : s.KeepsMirror s := ⟨rfl, rfl⟩

theorem State.KeepsMirror.trans {s t u : State} (h : s.KeepsMirror t) (k : t.KeepsMirror u) : s.KeepsMirror u := by
  obtain ⟨h1, h2⟩ := h
  obtain ⟨k1, k2⟩ := k
  exact ⟨k1.trans h1, k2.trans h2⟩

theorem State.Signals.keepsMirror {s t : State} {l : List Nat} (h : s.Signals t l) : s.KeepsMirror t :=
  ⟨h.twin, congrArg Prof.master h.prof⟩

theorem State.Taken.keepsMirror {s t : State} {p : Nat} {l : List Nat} (h : s.Taken t p l) : s.KeepsMirror t := by
  rw [h.rest]; exact ⟨rfl, rfl⟩

theorem setAxis_keepsMirror (s : State) (a : Nat) (x : Axis) : s.KeepsMirror (s.setAxis a x) := ⟨rfl, rfl⟩
theorem setLoopRt_keepsMirror (s : State) (a : Nat) (x : LoopRt) : s.KeepsMirror (s.setLoopRt a x) := ⟨rfl, rfl⟩
theorem withSaf_keepsMirror (s : State) (x : Saf) : s.KeepsMirror { s with saf := x } := ⟨rfl, rfl⟩

theorem wr_keepsMirror (s : State) (a : Nat) (v : Word) : s.KeepsMirror (s.wr a v) := (wr_writes s a v).signals.keepsMirror
theorem setBit_keepsMirror (s : State) (a i : Nat) (b : Bool) : s.KeepsMirror (s.setBit a i b) := (setBit_writes s a i b).signals.keepsMirror

theorem forEach_keepsMirror {α : Type} {f : α → State → State} (hf : ∀ x (t : State), t.KeepsMirror (f x t)) (l : List α) (s : State) :
    s.KeepsMirror (forEach f l s) :=
  forEach_invariant (P := s.KeepsMirror) (fun x t h => State.KeepsMirror.trans h (hf x t)) l s (State.KeepsMirror.refl s)

theorem forUpTo_keepsMirror {f : Nat → State → State} (hf : ∀ i (t : State), t.KeepsMirror (f i t)) (n : Nat) (s : State) :
    s.KeepsMirror (forUpTo f n s) :=
  forUpTo_invariant (P := s.KeepsMirror) (fun i t h => State.KeepsMirror.trans h (hf i t)) n (State.KeepsMirror.refl s)

theorem takeSafeIn_keepsMirror (s : State) (p n : Nat) (pay : BitVec 256) : s.KeepsMirror (s.takeSafeIn p n pay) := by
  have h := (safeJudged_taken s p n pay).keepsMirror
  rw [takeSafeIn_eq]
  generalize s.safeJudged p n pay = u at h
  exact h.trans (withSaf_keepsMirror u _)

theorem mirrorSafeIn_keepsMirror (s : State) (m : MirrorFrame) : s.KeepsMirror (s.mirrorSafeIn m) := by
  refine forEach_keepsMirror (fun key t => ?_) _ s
  split
  · exact takeSafeIn_keepsMirror _ _ _ _
  · exact .refl t

theorem cmpArm_keepsMirror (s : State) (a c : Nat) (v : Word) : s.KeepsMirror (s.cmpArm a c v) :=
  (wr_keepsMirror _ _ _).trans (setAxis_keepsMirror _ _ _)

theorem cmpDisarm_keepsMirror (s : State) (a c : Nat) (v : Word) : s.KeepsMirror (s.cmpDisarm a c v) :=
  (wr_keepsMirror _ _ _).trans (setAxis_keepsMirror _ _ _)

theorem cutWord_keepsMirror (s : State) (a : Nat) (v : Word) : s.KeepsMirror (s.cutWord a v) := by
  have hreg : s.KeepsMirror (if (regRow a).isSome then s.wr a v else s) := by
    split
    · exact wr_keepsMirror s a v
    · exact .refl s
  unfold State.cutWord
  split
  · exact withSaf_keepsMirror s _
  · split
    · exact withSaf_keepsMirror s _
    · split
      · split
        · exact cmpDisarm_keepsMirror _ _ _ _
        · split
          · exact cmpArm_keepsMirror _ _ _ _
          · exact hreg
      · exact hreg

/-! ### The command cut of a mirror -/

theorem setArmed_keepsMirror (s : State) (a c : Nat) (b : Bool) : s.KeepsMirror (s.setArmed a c b) :=
  (setBit_keepsMirror _ _ _ _).trans (setBit_keepsMirror _ _ _ _)

theorem disarm_keepsMirror (s : State) (a c : Nat) : s.KeepsMirror (s.disarm a c) :=
  (setAxis_keepsMirror s a _).trans (setArmed_keepsMirror _ _ _ _)

theorem cutCompare_keepsMirror (s : State) (a c : Nat) : s.KeepsMirror (s.cutCompare a c) := by
  unfold State.cutCompare
  dsimp only
  split
  · exact disarm_keepsMirror s a c
  · split
    · refine State.KeepsMirror.trans (setAxis_keepsMirror s a { s.axis a with rearm := withBits (s.axis a).rearm c c 0 }) ?_
      generalize s.setAxis a { s.axis a with rearm := withBits (s.axis a).rearm c c 0 } = u
      split
      · exact (setAxis_keepsMirror u a _).trans (setArmed_keepsMirror _ _ _ _)
      · exact setBit_keepsMirror _ _ _ _
    · exact .refl s

theorem reqRefused_keepsMirror (s : State) (a i : Nat) : s.KeepsMirror (s.reqRefused a i) :=
  (((setBit_writes _ _ _ _).trans (inc_writes _ _)).signals.trans (event_signals _ _ _ _)).keepsMirror

/-- The cut of one loop's request. -/
def State.cutLoopReq (s : State) (a i : Nat) : State :=
  if !s.loopPend a i then s
  else
    let s1 := s.setBit (Reg.LOOP_STAT a) (4 + i) false
    let x := s1.loopRt a
    if s.loopOpen a i then
      if s1.closeOk a i then
        (s1.setBit (Reg.LOOP_STAT a) i false).setLoopRt a { x with closed := withBits x.closed i i 1, opened := withBits x.opened i i 0 }
      else s1.reqRefused a 13
    else if i = 0 && !s1.axisSto a then s1.reqRefused a 14
    else (s1.setBit (Reg.LOOP_STAT a) i true).setLoopRt a { x with opened := withBits x.opened i i 1, closed := withBits x.closed i i 0 }

/-- LOOP_PV_REF as the cut takes it. -/
def State.cutPvRef (s : State) (a : Nat) : State := s.setLoopRt a { s.loopRt a with pvRef := s.rdI (Reg.LOOP_PV_REF a) }

theorem cutLoop_eq (s : State) (a : Nat) : s.cutLoop a = (forUpTo (fun i st => st.cutLoopReq a i) 4 s).cutPvRef a := rfl

theorem cutLoopReq_keepsMirror (s : State) (a i : Nat) : s.KeepsMirror (s.cutLoopReq a i) := by
  have hset := setBit_keepsMirror s (Reg.LOOP_STAT a) (4 + i) false
  unfold State.cutLoopReq
  split
  · exact .refl s
  · dsimp only
    generalize s.setBit (Reg.LOOP_STAT a) (4 + i) false = u at hset ⊢
    refine hset.trans ?_
    split
    · split
      · exact (setBit_keepsMirror _ _ _ _).trans (setLoopRt_keepsMirror _ _ _)
      · exact reqRefused_keepsMirror _ _ _
    · split
      · exact reqRefused_keepsMirror _ _ _
      · exact (setBit_keepsMirror _ _ _ _).trans (setLoopRt_keepsMirror _ _ _)

theorem cutLoop_keepsMirror (s : State) (a : Nat) : s.KeepsMirror (s.cutLoop a) := by
  rw [cutLoop_eq]
  exact (forUpTo_keepsMirror (fun i t => cutLoopReq_keepsMirror t a i) 4 s).trans (setLoopRt_keepsMirror _ _ _)

theorem cutRequests_keepsMirror (s : State) : s.KeepsMirror s.cutRequests := by
  have hcompares := forUpTo_keepsMirror (fun a t => forUpTo_keepsMirror (fun c u => cutCompare_keepsMirror u a c) 4 t) 144 s
  have hloops := forUpTo_keepsMirror (fun a t => cutLoop_keepsMirror t a) 144 (forUpTo (fun a t => forUpTo (fun c u => u.cutCompare a c) 4 t) 144 s)
  have hrest : ∀ u : State, u.KeepsMirror u.cutSafety.cutOutputs := fun _ => ⟨rfl, rfl⟩
  exact (hcompares.trans hloops).trans (hrest _)

/-! ### The inputs of a mirror, rules R356 and R357 -/

/-- The masters' samples that a mirror brings. -/
def mirrorMasters (m : MirrorFrame) : List (Nat × MasterSample) :=
  m.masters.map (fun x => (x.1.val, (⟨x.2.1, x.2.2.1, x.2.2.2, 0⟩ : MasterSample)))

/-- The gather buffer as a mirror brings it. -/
def State.mirrorGather (s : State) (m : MirrorFrame) : State :=
  forEach (fun (e : Nat × BitVec 8) t => if e.1 < 0x84480 then t.setCell (t.gath t.parity + e.1) 1 e.2.toNat else t) m.gather s

/-- The masters' samples take the place of the unit's own. -/
def State.withMasters (s : State) (l : List (Nat × MasterSample)) : State := { s with prof := { s.prof with master := l } }

/-- Mailbox snapshots and the values of the cut record. -/
def State.mirrorCut (s : State) (m : MirrorFrame) : State :=
  forEach (fun (e : Nat × Word) t => t.cutWord e.1 e.2) m.cut (forEach (fun (c : MirrorCmd) t => t.mirrorCmd c) m.cmds s)

/-- The inputs of a mirror, without the state that it leads to. -/
def State.mirrorInputs (s : State) (m : MirrorFrame) : State :=
  ((((s.mirrorGather m).mirrorSafeIn m).withMasters (mirrorMasters m)).mirrorCut m).when (m.complete && !s.twin.mirrored) State.cutRequests

theorem mirrorGather_keepsMirror (s : State) (m : MirrorFrame) : s.KeepsMirror (s.mirrorGather m) := by
  refine forEach_keepsMirror (fun e t => ?_) _ s
  split
  · exact (setCell_taken t _ 1 _ 0).keepsMirror
  · exact .refl t

theorem mirrorCmd_keepsMirror (s : State) (c : MirrorCmd) : s.KeepsMirror (s.mirrorCmd c) := ⟨rfl, rfl⟩

theorem mirrorCut_keepsMirror (s : State) (m : MirrorFrame) : s.KeepsMirror (s.mirrorCut m) :=
  (forEach_keepsMirror (fun c t => mirrorCmd_keepsMirror t c) _ s).trans
    (forEach_keepsMirror (fun (e : Nat × Word) t => cutWord_keepsMirror t e.1 e.2) _ _)

theorem whenCut_keepsMirror (s : State) (b : Bool) : s.KeepsMirror (s.when b State.cutRequests) := by
  cases b
  · exact .refl s
  · exact cutRequests_keepsMirror s

/-- The masters' samples and the cut of a mirror, on any gather buffer. -/
theorem cutInputs_outcome (s : State) (l : List (Nat × MasterSample)) (m : MirrorFrame) (b : Bool) :
    ((((s.withMasters l).mirrorCut m).when b State.cutRequests).twin = s.twin) ∧
      (((s.withMasters l).mirrorCut m).when b State.cutRequests).prof.master = l := by
  have htwin : (s.withMasters l).twin = s.twin := rfl
  have hmaster : (s.withMasters l).prof.master = l := rfl
  generalize s.withMasters l = v at htwin hmaster ⊢
  obtain ⟨kt, km⟩ := (mirrorCut_keepsMirror v m).trans (whenCut_keepsMirror _ b)
  exact ⟨kt.trans htwin, km.trans hmaster⟩

/-- The inputs of a mirror leave the twin unit; the masters' samples are the mirror's. -/
theorem mirrorInputs_outcome (s : State) (m : MirrorFrame) :
    (s.mirrorInputs m).twin = s.twin ∧ (s.mirrorInputs m).prof.master = mirrorMasters m := by
  obtain ⟨htwin, -⟩ := (mirrorGather_keepsMirror s m).trans (mirrorSafeIn_keepsMirror _ m)
  obtain ⟨kt, km⟩ := cutInputs_outcome ((s.mirrorGather m).mirrorSafeIn m) (mirrorMasters m) m (m.complete && !s.twin.mirrored)
  exact ⟨kt.trans htwin, km⟩

/-- Of what the twin unit keeps only the state to come may differ, and that is the mirror's. -/
theorem takeMirror_outcome (s : State) (m : MirrorFrame) :
    (s.takeMirror m).twin = { s.twin with lead := (s.takeMirror m).twin.lead } ∧
      (∀ d, m.state.bind (fun c => devOf c.toNat) = some d → (s.takeMirror m).twin.lead = some d) ∧
      (s.takeMirror m).prof.master = mirrorMasters m := by
  obtain ⟨htwin, hmaster⟩ := mirrorInputs_outcome s m
  have hnone : m.state.bind (fun c => devOf c.toNat) = none → s.takeMirror m = s.mirrorInputs m := by
    intro h
    unfold State.takeMirror
    dsimp only
    rw [h]
    rfl
  have hsome : ∀ d, m.state.bind (fun c => devOf c.toNat) = some d →
      s.takeMirror m = (s.mirrorInputs m).setTwin { (s.mirrorInputs m).twin with lead := some d } := by
    intro d h
    unfold State.takeMirror
    dsimp only
    rw [h]
    rfl
  generalize s.mirrorInputs m = u at htwin hmaster hnone hsome
  cases hd : m.state.bind (fun c => devOf c.toNat) with
  | none =>
    rw [hnone hd, htwin]
    exact ⟨rfl, (fun _ h => nomatch h), hmaster⟩
  | some d =>
    rw [hsome d hd, htwin]
    refine ⟨rfl, fun d' h => ?_, hmaster⟩
    cases h
    rfl

/-- A mirror of the present tick is taken. -/
def State.mirrored (s : State) (m : MirrorFrame) : State := (s.takeMirror m).setTwin { (s.takeMirror m).twin with mirrored := m.complete }

theorem mirrored_outcome (s : State) (m : MirrorFrame) :
    (s.mirrored m).twin.mirrored = m.complete ∧ (s.mirrored m).twin.syncing = s.twin.syncing ∧ (s.mirrored m).twin.next = s.twin.next ∧
      (∀ d, m.state.bind (fun c => devOf c.toNat) = some d → (s.mirrored m).twin.lead = some d) ∧
      (s.mirrored m).prof.master = mirrorMasters m := by
  obtain ⟨htwin, hlead, hmaster⟩ := takeMirror_outcome s m
  unfold State.mirrored
  generalize s.takeMirror m = u at htwin hlead hmaster
  have hsyncing : u.twin.syncing = s.twin.syncing := by rw [htwin]
  have hnext : u.twin.next = s.twin.next := by rw [htwin]
  exact ⟨rfl, hsyncing, hnext, hlead, hmaster⟩

/-! ### Frames of the mirror, rules R350 and R356 -/

theorem laneErrors_writes (s : State) (n : Nat) : s.Writes (s.laneErrors n) [Reg.TWN_CRC_CNT] := by
  unfold State.laneErrors
  split
  · exact add_writes _ _ _
  · exact (State.Writes.refl s).mono (by simp)

theorem rdN_laneErrors {s : State} (hc : s.clocked = true) (he : s.twinEn = true) (n : Nat) :
    (s.laneErrors n).rdN Reg.TWN_CRC_CNT = min (s.rdN Reg.TWN_CRC_CNT + n) 0xFFFFFFFF := by
  have hlt := rdN_lt s Reg.TWN_CRC_CNT
  unfold State.laneErrors
  by_cases h0 : n = 0
  · rw [if_neg (by simp [h0]), h0]
    omega
  · rw [if_pos (by simp [hc, he, h0]), rdN_add]

/-- A unit that joins: SYNCING at the next boundary. -/
def State.joins (s : State) (i : SyncImage) : State :=
  (s.loadSync i).setTwin { (s.loadSync i).twin with syncing := true, next := some 3, lead := devOf i.state.toNat }

/-- The image of a sync as a unit takes it by its role. -/
def State.takeImage (s : State) (i : SyncImage) : State :=
  if s.role = 0 then s.joins i
  else if s.role = 3 then (s.loadSync i).setTwin { (s.loadSync i).twin with lead := devOf i.state.toNat }
  else s

theorem mirrorFrame_image {s : State} (hc : s.clocked = true) (he : s.twinEn = true) (m : MirrorFrame) (i : SyncImage) :
    s.mirrorFrame m (some i) =
      if 2 ≤ (s.takeImage i).role ∧ m.tick = (s.takeImage i).tick then (s.takeImage i).mirrored m else s.takeImage i :=
  if_neg (by simp [hc, he])

/-- A SOLO unit joins; the frame may be its first mirror. -/
theorem mirrorFrame_joins {s : State} (hc : s.clocked = true) (he : s.twinEn = true) (hr : s.role = 0) (m : MirrorFrame) (i : SyncImage) :
    s.mirrorFrame m (some i) = s.joins i ∨ s.mirrorFrame m (some i) = (s.joins i).mirrored m := by
  have hjoins : s.takeImage i = s.joins i := if_pos hr
  rw [mirrorFrame_image hc he, hjoins]
  split
  · exact .inr rfl
  · exact .inl rfl

theorem mirrorFrame_shadow {s : State} (hc : s.clocked = true) (he : s.twinEn = true) (hr : 2 ≤ s.role) {m : MirrorFrame}
    (ht : m.tick = s.tick) : s.mirrorFrame m none = s.mirrored m := by
  unfold State.mirrorFrame
  rw [if_neg (by simp [hc, he])]
  exact if_pos ⟨hr, ht⟩

theorem mirrorFrame_stale {s : State} {m : MirrorFrame} (ht : m.tick ≠ s.tick) : s.mirrorFrame m none = s := by
  unfold State.mirrorFrame
  split
  · rfl
  · exact if_neg (fun h => ht h.2)

/-- What decides how a frame is taken does not depend on the count of invalid blocks. -/
theorem laneErrors_decides (s : State) (n : Nat) : (s.laneErrors n).clocked = s.clocked ∧ (s.laneErrors n).twinEn = s.twinEn ∧
    (s.laneErrors n).role = s.role ∧ (s.laneErrors n).tick = s.tick ∧ (s.laneErrors n).mono = s.mono ∧ (s.laneErrors n).twin = s.twin := by
  have hw := laneErrors_writes s n
  refine ⟨wrote_clocked hw, hw.1.bit (by decide) 0, hw.1.fld (by decide) 1 0, tick_of_same hw.1 (by decide) (by decide), ?_, hw.signals.twin⟩
  unfold State.mono
  rw [same_now hw.1 (by decide) (by decide), hw.signals.qtz]

theorem staleFrame_clause {s : State} {m : MirrorFrame} (ht : m.tick ≠ s.tick) : (s.laneErrors m.bad).mirrorFrame m none = s.laneErrors m.bad := by
  obtain ⟨-, -, -, htick, -, -⟩ := laneErrors_decides s m.bad
  exact mirrorFrame_stale (by rwa [htick])

/-! ### Heartbeats of the lane, rule R358 -/

/-- What follows from a comparison of digests: bit 8 of TWN_STAT, the count, and the digest last received. -/
def State.Compares (s t : State) : Prop :=
  s.TwinFrame t [Reg.TWN_STAT, Reg.TWN_DIV_CNT, Reg.PG_IRQ_RAW Page.TWN] ∧
    (∀ i, i ≠ 8 → t.bit Reg.TWN_STAT i = s.bit Reg.TWN_STAT i) ∧ t.role = s.role ∧
    t.twin = { s.twin with digestOk := t.twin.digestOk, peer := t.twin.peer }

/-- A divergence as TWN_STAT and its count show it, with its event. -/
def State.noteDivergence (s : State) : State := ((s.setBit Reg.TWN_STAT 8 true).inc Reg.TWN_DIV_CNT).event Page.TWN 2 0

theorem noteDivergence_signals (s : State) :
    s.Signals s.noteDivergence [Reg.TWN_STAT, Reg.TWN_DIV_CNT, Reg.PG_IRQ_RAW Page.TWN] :=
  ((setBit_writes _ _ _ _).trans (inc_writes _ _)).signals.trans (event_signals _ _ _ _)

theorem stat_noteDivergence (s : State) : (∀ i, i ≠ 8 → s.noteDivergence.bit Reg.TWN_STAT i = s.bit Reg.TWN_STAT i) ∧
    s.noteDivergence.role = s.role := by
  unfold State.noteDivergence
  refine ⟨fun i hi => ?_, ?_⟩
  · rw [bit_of_rd (rd_event (by decide) _ _ _), bit_of_rd (rd_inc_ne (by decide) _), bit_setBit (by decide), if_neg hi]
  · unfold State.role
    rw [fld_of_rd (rd_event (by decide) _ _ _), fld_of_rd (rd_inc_ne (by decide) _), fld_setBit_ne (by decide) (by decide)]

theorem divergence_compares (s : State) (x : Twin) (hx : x = { s.twin with digestOk := x.digestOk, peer := x.peer }) :
    s.Compares (s.noteDivergence.setTwin x) := by
  have hd := noteDivergence_signals s
  obtain ⟨hbits, hrole⟩ := stat_noteDivergence s
  generalize s.noteDivergence = u at hd hbits hrole
  exact ⟨(hd.twinFrame.trans (setTwin_frame u x)).mono (by simp), hbits, hrole, hx⟩

theorem setTwin_compares (s : State) (x : Twin) (hx : x = { s.twin with digestOk := x.digestOk, peer := x.peer }) : s.Compares (s.setTwin x) :=
  ⟨(setTwin_frame s x).mono (by simp), fun _ _ => rfl, rfl, hx⟩

theorem compareDigests_compares (s : State) : s.Compares s.compareDigests := by
  unfold State.compareDigests
  split
  · split
    · exact divergence_compares s { s.twin with digestOk := false, peer := none } rfl
    · split
      · exact setTwin_compares s { s.twin with peer := none } rfl
      · exact setTwin_compares s s.twin rfl
  · exact setTwin_compares s s.twin rfl

/-- What the twin unit keeps of a heartbeat. -/
def Twin.heard (x : Twin) (b : TwinBeat) (tick mono : Nat) : Twin :=
  { x with linkSeen := x.linkSeen || b.tick == tick, hbLast := some mono, same := b.same, digestOk := x.digestOk && !b.lapse,
           peer := some (b.tick, b.digest) }

/-- A heartbeat as TWN_STAT and TWN_TOFS show it. -/
def State.showBeat (s : State) (b : TwinBeat) : State := (s.setBit Reg.TWN_STAT 4 true).wrI Reg.TWN_TOFS b.offset

/-- A heartbeat is noted. -/
def State.noteBeat (s : State) (b : TwinBeat) : State := (s.showBeat b).setTwin (s.twin.heard b s.tick s.mono)

theorem showBeat_writes (s : State) (b : TwinBeat) : s.Writes (s.showBeat b) [Reg.TWN_STAT, Reg.TWN_TOFS] :=
  (setBit_writes _ _ _ _).trans (wr_writes _ _ _)

theorem showBeat_page (s : State) (b : TwinBeat) : (s.showBeat b).bit Reg.TWN_STAT 4 = true ∧ (s.showBeat b).role = s.role ∧
    (s.showBeat b).rd Reg.TWN_TOFS = BitVec.ofInt 32 b.offset := by
  unfold State.showBeat State.wrI
  refine ⟨?_, ?_, rd_wr_self _ _ _⟩
  · rw [bit_of_rd (rd_wr_ne (by decide) _ _), bit_setBit_self (by decide)]
  · unfold State.role
    rw [fld_of_rd (rd_wr_ne (by decide) _ _), fld_setBit_ne (by decide) (by decide)]

theorem twinBeat_eq {s : State} (hc : s.clocked = true) (he : s.twinEn = true) (hr : 2 ≤ s.role) (b : TwinBeat) :
    s.twinBeat b = (s.noteBeat b).compareDigests.when b.resign State.recognise := by
  have hw := showBeat_writes s b
  have htick : (s.showBeat b).tick = s.tick := tick_of_same hw.1 (by decide) (by decide)
  have hmono : (s.showBeat b).mono = s.mono := by
    unfold State.mono
    rw [same_now hw.1 (by decide) (by decide), hw.signals.qtz]
  have hnote : s.noteBeat b = (s.showBeat b).setTwin ((s.showBeat b).twin.heard b (s.showBeat b).tick (s.showBeat b).mono) := by
    rw [hw.signals.twin, htick, hmono]
    rfl
  rw [hnote]
  exact if_pos (by simp [hc, he, hr])

theorem twinBeat_clause (s : State) (b : TwinBeat) {t : State} (h : t = (s.noteBeat b).compareDigests.when b.resign State.recognise) :
    t.bit Reg.TWN_STAT 4 = true ∧ t.rd Reg.TWN_TOFS = BitVec.ofInt 32 b.offset ∧ t.twin.hbLast = some s.mono ∧
      t.twin.linkSeen = (s.twin.linkSeen || b.tick == s.tick) ∧ t.twin.same = b.same ∧
      (s.role = 2 → b.resign = true → t.twin.recog = true) ∧ s.SameMemory t := by
  have hw := showBeat_writes s b
  obtain ⟨h4, hrole, hofs⟩ := showBeat_page s b
  have hnoted : (s.noteBeat b).bit Reg.TWN_STAT 4 = true ∧ (s.noteBeat b).role = s.role ∧
      (s.noteBeat b).rd Reg.TWN_TOFS = BitVec.ofInt 32 b.offset := ⟨h4, hrole, hofs⟩
  have htwin : (s.noteBeat b).twin = s.twin.heard b s.tick s.mono := rfl
  have hmem : s.SameMemory (s.noteBeat b) := hw.signals.memory.trans (setTwin_frame _ _).memory
  obtain ⟨n4, nrole, nofs⟩ := hnoted
  clear hw h4 hrole hofs
  generalize s.noteBeat b = u at h n4 nrole nofs htwin hmem
  obtain ⟨cframe, cbits, crole, ctwin⟩ := compareDigests_compares u
  generalize u.compareDigests = v at h cframe cbits crole ctwin
  have hrec := whenRecognise_recognises v b.resign
  rw [← h] at hrec
  obtain ⟨rframe, rbits, rtwin⟩ := hrec
  have hkept : t.twin.hbLast = u.twin.hbLast ∧ t.twin.linkSeen = u.twin.linkSeen ∧ t.twin.same = u.twin.same := by
    rw [rtwin, ctwin]
    exact ⟨rfl, rfl, rfl⟩
  obtain ⟨kbeat, klink, ksame⟩ := hkept
  refine ⟨?_, ?_, by rw [kbeat, htwin]; rfl, by rw [klink, htwin]; rfl, by rw [ksame, htwin]; rfl, ?_,
    (hmem.trans cframe.memory).trans rframe.memory⟩
  · rw [rbits 4 (by decide) (by decide), cbits 4 (by decide), n4]
  · rw [rframe.1 _ (by decide), cframe.1 _ (by decide), nofs]
  · intro h2 hres
    rw [h, hres]
    exact recog_recognise (crole.trans (nrole.trans h2))

/-! ### Syncs, rules R359 and R360 -/

theorem syncCmd_starts {s : State} (he : s.twinEn = true) (hr : s.role = 1) (hn : s.twin.syncing = false) (hl : s.regionListOk = true) :
    s.syncCmd = { s with twin := { s.twin with syncing := true } } := (if_pos (by simp [he, hr, hn])).trans (if_pos hl)

/-- A list that breaks rule R360 is shown. -/
def State.badList (s : State) : State := s.setBit Reg.TWN_STAT 13 true

theorem syncCmd_refused {s : State} (he : s.twinEn = true) (hr : s.role = 1) (hn : s.twin.syncing = false) (hl : s.regionListOk = false) :
    s.syncCmd = s.badList.syncFail := (if_pos (by simp [he, hr, hn])).trans (if_neg (by simp [hl]))

/-- A failed sync. -/
theorem syncFail_clause (s : State) {t : State} (h : t = s.syncFail) :
    t.twin = { s.twin with syncing := false, next := if s.role = 3 then some 0 else s.twin.next } ∧
      (∀ i, t.bit Reg.TWN_STAT i = if i = 10 then true else s.bit Reg.TWN_STAT i) ∧
      s.SameRegs t [Reg.TWN_STAT, Reg.PG_IRQ_RAW Page.TWN] ∧ s.SameMemory t ∧ t.evt = s.noteSyncFail.evt := by
  have hs := noteSyncFail_signals s
  have hb := bit_noteSyncFail s
  rw [syncFail_eq] at h
  generalize s.noteSyncFail = u at h hs hb
  have hf := hs.twinFrame.trans (setTwin_frame u { s.twin with syncing := false, next := if s.role = 3 then some 0 else s.twin.next })
  subst h
  exact ⟨rfl, hb, hf.1, hf.memory, rfl⟩

/-- The event of a failed sync goes to the event unit. -/
theorem syncFail_raising {s : State} (hc : s.clocked = true) : (⟨Page.TWN, 6, false, 0, s.now⟩ : Raising) ∈ s.noteSyncFail.evt.raisings := by
  have h : s.Raises s.noteSyncFail _ [⟨Page.TWN, 6, false, 0, s.now⟩] :=
    (setBit_writes s Reg.TWN_STAT 10 true).event hc (by decide) (by decide) Page.TWN 6 0
  rw [h.2]
  exact List.mem_append_right _ (List.mem_singleton.mpr rfl)

theorem refusedSync_clause {s : State} (hr : s.role = 1) (hn : s.twin.syncing = false) {t : State} (h : t = s.badList.syncFail) :
    t.bit Reg.TWN_STAT 13 = true ∧ t.bit Reg.TWN_STAT 10 = true ∧ t.twin = s.twin ∧
      s.SameRegs t [Reg.TWN_STAT, Reg.PG_IRQ_RAW Page.TWN] ∧ s.SameMemory t := by
  have hw := setBit_writes s Reg.TWN_STAT 13 true
  have h13 : s.badList.bit Reg.TWN_STAT 13 = true := bit_setBit_self (by decide) _ _ _
  have hrole : s.badList.role = 1 := (fld_setBit_ne (by decide) (by decide) s _ _).trans hr
  have htwin : s.badList.twin = s.twin := hw.signals.twin
  have hregs : s.SameRegs s.badList [Reg.TWN_STAT] := hw.1
  have hmem : s.SameMemory s.badList := hw.signals.memory
  generalize s.badList = u at h h13 hrole htwin hregs hmem
  obtain ⟨ktwin, kbits, kregs, kmem, -⟩ := syncFail_clause u h
  refine ⟨(kbits 13).trans h13, kbits 10, ?_, (hregs.trans kregs).mono (by simp), hmem.trans kmem⟩
  rw [ktwin, htwin, if_neg (by omega), ← hn]

theorem autoSync_eq {s : State} (hc : s.clocked = true) (ha : s.bit Reg.TWN_CTRL 7 = true) (hl : s.bit Reg.TWN_STAT 4 = true)
    (hp : s.bit Reg.TWN_PEER_HEALTH 0 = false) (hd : 4 ≤ s.fld Reg.TWN_PEER_HEALTH 15 12) : s.autoSync = s.syncCmd :=
  if_pos (by simp [hc, ha, hl, hp, hd])

/-- A sync that has caught up counts, with its event. -/
def State.noteSync (s : State) : State := (s.inc Reg.TWN_SYNC_CNT).event Page.TWN 5 0

theorem syncCaughtUp_syncing {s : State} (hc : s.clocked = true) (he : s.twinEn = true) (hr : s.role = 3) :
    s.syncCaughtUp true = s.noteSync.setTwin { s.twin with syncing := false, next := some 2 } :=
  (if_neg (by simp [hc, he])).trans (if_pos hr)

theorem syncCaughtUp_active {s : State} (hc : s.clocked = true) (he : s.twinEn = true) (hr : s.role = 1) (hs : s.twin.syncing = true) :
    s.syncCaughtUp true = s.noteSync.setTwin { s.twin with syncing := false } :=
  (if_neg (by simp [hc, he])).trans ((if_neg (by omega)).trans (if_pos ⟨hr, hs⟩))

theorem caughtUp_clause {s : State} (hc : s.clocked = true) (x : Twin) {t : State} (h : t = s.noteSync.setTwin x) :
    t.twin = x ∧ t.rdN Reg.TWN_SYNC_CNT = min (s.rdN Reg.TWN_SYNC_CNT + 1) 0xFFFFFFFF ∧
      (⟨Page.TWN, 5, false, 0, s.now⟩ : Raising) ∈ t.evt.raisings ∧
      s.SameRegs t [Reg.TWN_SYNC_CNT, Reg.PG_IRQ_RAW Page.TWN] ∧ s.SameMemory t := by
  have hr : s.Raises s.noteSync [Reg.TWN_SYNC_CNT, Reg.PG_IRQ_RAW Page.TWN] [⟨Page.TWN, 5, false, 0, s.now⟩] :=
    (inc_writes s Reg.TWN_SYNC_CNT).event hc (by decide) (by decide) Page.TWN 5 0
  have hn : s.noteSync.rdN Reg.TWN_SYNC_CNT = min (s.rdN Reg.TWN_SYNC_CNT + 1) 0xFFFFFFFF := by
    unfold State.noteSync
    rw [rdN_of_rd (rd_event (by decide) _ _ _), rdN_inc]
  generalize s.noteSync = u at h hr hn
  have hmem : (⟨Page.TWN, 5, false, 0, s.now⟩ : Raising) ∈ u.evt.raisings := by
    rw [hr.2]
    exact List.mem_append_right _ (List.mem_singleton.mpr rfl)
  subst h
  exact ⟨rfl, hn, hmem, hr.1, hr.signals.memory⟩

theorem syncTimeout_clause {s : State} (hc : s.clocked = true) (hr : s.role = 3) {t : State} (h : t = s.syncFail) :
    t.bit Reg.TWN_STAT 10 = true ∧ t.twin.syncing = false ∧ t.twin.next = some 0 ∧
      (⟨Page.TWN, 6, false, 0, s.now⟩ : Raising) ∈ t.evt.raisings ∧
      s.SameRegs t [Reg.TWN_STAT, Reg.PG_IRQ_RAW Page.TWN] ∧ s.SameMemory t := by
  obtain ⟨htwin, hbits, hregs, hmem, hevt⟩ := syncFail_clause s h
  rw [if_pos hr] at htwin
  refine ⟨hbits 10, by rw [htwin], by rw [htwin], ?_, hregs, hmem⟩
  rw [hevt]
  exact syncFail_raising hc

/-! ### The peer's alarms, rule R397 -/

/-- What a number reads as depends on its bytes alone. -/
theorem getN_congr {m k : Memory} (n : Nat) : ∀ a, (∀ b, a ≤ b → b < a + n → k.get8 b = m.get8 b) → k.getN a n = m.getN a n := by
  induction n with
  | zero => intro a _; rfl
  | succ n ih =>
    intro a h
    rw [Memory.getN, Memory.getN, h a (Nat.le_refl a) (by omega), ih (a + 1) (fun b h1 h2 => h b (by omega) (by omega))]

theorem getN_setN_ne {a n b k : Nat} (h : b + k ≤ a ∨ a + n ≤ b) (m : Memory) (v : Nat) : (m.setN a n v).getN b k = m.getN b k :=
  getN_congr k b (fun c h1 h2 => Memory.get8_setN n m a v c (by omega))

/-- The first `n` words from `a` of cell memory are those of `f`; nothing else than cell memory differs. -/
def State.Stored (s t : State) (f : Nat → Word) (a n : Nat) : Prop :=
  (∃ m, t = { s with cell := m }) ∧ ∀ w, w < n → t.cell.getN (a + 4 * w) 4 = (f w).toNat

theorem State.Stored.next {s t : State} {f : Nat → Word} {a n : Nat} (h : s.Stored t f a n) (hu : s.integ.ue = [])
    (hi : inCell a 64 = true) (hn : n < 16) : s.Stored (t.setCell (a + 4 * n) 4 (f n).toNat) f a (n + 1) := by
  obtain ⟨⟨m, ht⟩, hw⟩ := h
  have hue : t.integ.ue = [] := by rw [ht]; exact hu
  rw [setCell_clean hue (inCell_part hi (by omega))]
  refine ⟨⟨_, by rw [ht]⟩, fun w hlt => ?_⟩
  by_cases hwn : w = n
  · subst hwn
    exact (Memory.getN_setN 4 _ _ _).trans (Nat.mod_eq_of_lt (f w).isLt)
  · exact (getN_setN_ne (by omega) _ _).trans (hw w (by omega))

theorem stored_upTo {s : State} {f : Nat → Word} {a : Nat} (hu : s.integ.ue = []) (hi : inCell a 64 = true) :
    ∀ n, n ≤ 16 → s.Stored (forUpTo (fun w t => t.setCell (a + 4 * w) 4 (f w).toNat) n s) f a n
  | 0, _ => ⟨⟨_, rfl⟩, fun _ h => absurd h (Nat.not_lt_zero _)⟩
  | n + 1, h => (stored_upTo hu hi n (Nat.le_of_succ_le h)).next hu hi h

/-- The words of a peer's entry, with PEER set. -/
def peerWord (ws : List Word) (w : Nat) : Word := ws.getD w 0 ||| (if w = 1 then 0x200000 else 0)

theorem peerEntry_eq {s : State} (hc : s.clocked = true) (he : s.twinEn = true) (hp : (s.eff Reg.EVT_CTRL).getLsbD 1 = true) (i : Nat)
    (ws : List Word) : s.peerEntry i ws =
      forUpTo (fun w t => t.setCell ((s.eff Reg.EVT_PEER_BASE).toNat + 64 * i + 4 * w) 4 (peerWord ws w).toNat) 16 s :=
  if_pos (by simp [hc, he, hp])

theorem peerEntry_clause {s : State} {a : Nat} (hu : s.integ.ue = []) (hi : inCell a 64 = true) (ws : List Word) {t : State}
    (h : t = forUpTo (fun w t => t.setCell (a + 4 * w) 4 (peerWord ws w).toNat) 16 s) :
    ∀ w, w < 16 → t.cell32 (a + 4 * w) = (ws.getD w 0 ||| (if w = 1 then 0x200000 else 0)).toNat := by
  obtain ⟨-, hw⟩ := stored_upTo (f := peerWord ws) hu hi 16 (Nat.le_refl 16)
  rw [← h] at hw
  intro w hlt
  exact (if_pos (inCell_part hi (by omega))).trans (hw w hlt)

/-- Settles O56: per command, the mirror, the heartbeat, the syncs and the peer's entries. -/
theorem twinSync : Obligations.TwinSync := by
  refine ⟨?_, ?_, ?_, ?_, ?_, ?_, ?_, ?_, ?_, ?_⟩
  · intro s m i hc he hr
    obtain ⟨uc, ue, ur, -, -, -⟩ := laneErrors_decides s m.bad
    refine ⟨_, rfl, ?_⟩
    rcases mirrorFrame_joins (uc.trans hc) (ue.trans he) (ur.trans hr) m i with h | h
    · rw [h]
      exact ⟨rfl, rfl⟩
    · obtain ⟨-, hsync, hnext, -, -⟩ := mirrored_outcome ((s.laneErrors m.bad).joins i) m
      rw [h]
      exact ⟨hsync, hnext⟩
  · intro s m hc he hr ht
    obtain ⟨uc, ue, ur, ut, -, -⟩ := laneErrors_decides s m.bad
    obtain ⟨hm, -, -, hlead, hmaster⟩ := mirrored_outcome (s.laneErrors m.bad) m
    exact ⟨_, congrArg Host.Outcome.next (mirrorFrame_shadow (uc.trans hc) (ue.trans he) (by rwa [ur]) (by rwa [ut])), hm, hlead, hmaster⟩
  · intro s m ht
    exact ⟨_, rfl, staleFrame_clause ht⟩
  · intro s m hc he ht
    have hw := laneErrors_writes s m.bad
    exact ⟨_, congrArg Host.Outcome.next (staleFrame_clause ht), rdN_laneErrors hc he m.bad, hw.signals.twin, hw.1, hw.signals.memory⟩
  · intro s b hc he hr
    obtain ⟨uc, ue, ur, ut, um, utw⟩ := laneErrors_decides s b.bad
    have hmem := (laneErrors_writes s b.bad).signals.memory
    obtain ⟨h4, hofs, hbeat, hlink, hsame, hrec, hm⟩ := twinBeat_clause (s.laneErrors b.bad) b
      (twinBeat_eq (uc.trans hc) (ue.trans he) (by rwa [ur]) b)
    refine ⟨_, rfl, h4, hofs, by rw [hbeat, um], by rw [hlink, utw, ut], hsame, fun h2 => hrec (ur.trans h2), hmem.trans hm⟩
  · intro s ag hw he hr hn
    refine ⟨fun hl => completes_write hw rfl ?_, fun hl => completes_write hw rfl (refusedSync_clause hr hn (syncCmd_refused he hr hn hl))⟩
    rw [syncCmd_starts he hr hn hl]
    exact ⟨rfl, rfl⟩
  · intro s hc he hr hn hl ha hlane hp hd
    exact ⟨_, congrArg Host.Outcome.next ((autoSync_eq hc ha hlane hp hd).trans (syncCmd_starts he hr hn hl)), rfl, rfl⟩
  · intro s hc he hcase
    rcases hcase with hr | ⟨hr, hs⟩
    · obtain ⟨htwin, hrest⟩ := caughtUp_clause hc _ (syncCaughtUp_syncing hc he hr)
      exact ⟨_, rfl, by rw [htwin], fun _ => by rw [htwin], fun h1 => by omega, hrest⟩
    · obtain ⟨htwin, hrest⟩ := caughtUp_clause hc _ (syncCaughtUp_active hc he hr hs)
      exact ⟨_, rfl, by rw [htwin], fun h3 => by omega, fun _ => by rw [htwin], hrest⟩
  · intro s hc hr
    exact ⟨_, congrArg Host.Outcome.next (if_pos (by simp [hc, hr])), syncTimeout_clause hc hr rfl⟩
  · intro s e ws hc he hp hu hi
    exact ⟨_, rfl, peerEntry_clause hu hi ws (peerEntry_eq hc he hp e.val ws)⟩

end Sys2Proof.Machine
end
